-- ==== Sys2Proof/Word.lean ====
section
/-! DEFINITION. The word types of Fradra and their plainest arithmetic (00_scope.md "Notation", R36). -/
namespace Sys2Proof

/-- A register of BAR0 is 32 bits wide (R36). -/
abbrev Word := BitVec 32
/-- The store, the MRAM and every structure in them are addressed by bytes. -/
abbrev Byte := BitVec 8
/-- The tick counter is 64 bits wide (R9). -/
abbrev Tick := BitVec 64

/-- A number as a register word, wrapped to 32 bits. -/
abbrev w32 (n : Nat) : Word := BitVec.ofNat 32 n
/-- A number as a byte, wrapped to 8 bits. -/
abbrev w8 (n : Nat) : Byte := BitVec.ofNat 8 n

end Sys2Proof
end

