-- ==== Sys2Proof/Syntax.lean ====
section
/-! DEFINITION. The commands of Fradra: one constructor for each row of the spec's opcode table, with the operands that
its rules name (spec/opcode_table.json gives the rows no bits, so a command's operands are fields here). -/
namespace Sys2Proof

/-- A register access of BAR0: byte address, the value written, its width in bytes and the time in ns after the tick
boundary (R36, R43). -/
structure RegAccess where
  addr  : Nat
  value : Nat
  bytes : Nat
  ns    : Nat
  deriving DecidableEq, Repr

/-- A register read of BAR0: byte address and width in bytes (R36). -/
structure RegRead where
  addr  : Nat
  bytes : Nat
  deriving DecidableEq, Repr

/-- An event of a lane, and the invalid sync headers received on it since the command before that named it (R62, R64). -/
structure LaneEvent where
  lane : Nat
  bad  : Nat
  deriving DecidableEq, Repr

/-- How the read of a flash unit ended (R187): the level that succeeded (0 to 2), or 3 where it takes reconstruction and 4 where nothing helps, and
the further reads that F1 made. -/
structure ReadEnd where
  level : Nat
  tries : Nat
  deriving DecidableEq, Repr

/-- What the rebuild of the flash map cannot read (R197, R200): units, places of the ring whose entry fails its CRC, and the numbers of roots that
are not valid. -/
structure Unreadable where
  units : List Nat
  ring  : List Nat
  roots : List Nat
  deriving DecidableEq, Repr

/-- What one spindle's converters and shunts give the controller in a tick: phase currents A and B and the link voltage as
converter codes, and the back-EMF codes (R394, R396, R397). -/
structure SpinSample where
  ia   : Int
  ib   : Int
  vdc  : Nat
  bemf : List Int
  trip : Bool
  deriving DecidableEq, Repr

/-- What a back-EMF measurement gives (R404): the angle (16 bits a turn), the amplitude as the speed at which PSI gives it, and
the speed with its direction, both in 1/16 rpm. -/
structure SpinMeas where
  theta : Nat
  amp   : Nat
  speed : Int
  deriving DecidableEq, Repr

/-- An upset of a coefficient-store word of an engine: single-bit, or double-bit (R354). -/
structure CsUpset where
  engine : Nat
  addr   : Nat
  double : Bool
  deriving DecidableEq, Repr

/-- What the outside shows Fradra in the boundary phase of a tick: the count of REFCLK edges over the 400 ticks before (R11), the
phase of the tick against REFCLK in ns while nothing slews, the rails in mV (a rail not listed keeps its reading, R57), the sensors in 1/16 °C (one not
listed keeps its reading, R524), the spindles' samples (R394), and upsets of the coefficient stores (R354). -/
structure TickEnv where
  refEdges : Nat
  phase    : Int
  rails    : List Nat
  temps    : List Int
  spindles : List SpinSample
  upsets   : List CsUpset
  deriving DecidableEq, Repr

/-- A tick-bound cell (R15). -/
inductive TickCell where
  | servo (engine : Nat) (loops : List Nat)
  | dtc (spindle : Nat)
  | step (axis : Nat)
  | tap (item : Nat)
  deriving DecidableEq, Repr

/-- What start-up finds (R518–R522): the straps, whether ESTOP_N is active and PERST_N high, whether REFCLK runs within tolerance;
of each stack whether it trains and the bit lanes repaired; the stripe-journal copies that fail their CRC, as (bank, slot); the
self-tests of the 12 engines; and whether the signature of the image in each firmware slot verifies. -/
structure StartIn where
  jdmsel  : Bool
  refsel  : Bool
  testEn  : Bool
  estop   : Bool
  perst   : Bool
  refOk   : Bool
  stk     : List (Bool × Nat)
  banks   : List (Nat × Nat)
  engines : List Bool
  sigs    : List Bool
  deriving DecidableEq, Repr

/-- A JTAG instruction (R527): IDCODE, BYPASS, the debug access, or one that drives or samples pins. -/
inductive TapInstr where
  | idcode | bypass | debug | pins
  deriving DecidableEq, Repr

/-- An alignment marker as it arrives on a lane (R62, R63); `bad` counts the invalid sync headers received on the lane since the command
before that named it. -/
structure AmBlock where
  index : Nat
  width : Nat
  epoch : Nat
  count : Nat
  ns    : Nat
  bad   : Nat
  deriving DecidableEq, Repr

/-- A Pod as de-striped from a path's blocks: the blocks' bytes from SOP to the next control block and the epoch of the
AM before them (R66, R67); its SOP came `ago` ticks before this one, at `ns` of that tick. -/
structure PodArrival where
  stream : Nat
  path   : Nat
  epoch  : Nat
  bytes  : List Byte
  ns     : Nat
  ago    : Nat
  deriving DecidableEq, Repr

/-- An engine that runs known-answer checks (R103, R205, R245, R300). -/
inductive EngineRef where
  | codec (i : Nat) | sha (i : Nat) | stripe (i : Nat) | ldpc (i : Nat)
  deriving DecidableEq, Repr

/-- A buffer named by handle, or by address (R126). -/
inductive BufRef where
  | handle (h : Nat) | addr (a : Nat)
  deriving DecidableEq, Repr

/-- One access by handle: the handle, the acting owner and the requester's region (R124). -/
structure ActBy where
  handle : Nat
  owner  : Nat
  region : Nat
  deriving DecidableEq, Repr

/-- What the on-chip memories show at an access to the store: whether the 64-bit bitmap word of the granule cannot be corrected, and, where
the access is by handle, whether the buffer-table entry was corrected or cannot be (R113, R116, R123, R139, R140). -/
structure SramRead where
  bitmapUe : Bool
  tableCe  : Bool
  tableUe  : Bool
  deriving DecidableEq, Repr

/-- No fault. -/
def SramRead.good : SramRead := ⟨false, false, false⟩

/-- One read of a store line: what each of its 72 stored symbols shows beyond the value last written, as (symbol, error)
pairs (symbols 0–63 are D0–D63, 64–71 C0–C7), and whether the access failed parity twice (R110, R138). -/
structure LineRead where
  addr   : Nat
  errs   : List (Nat × Nat)
  parity : Nat
  odecc  : Bool
  by_    : Option ActBy
  sram   : SramRead
  deriving DecidableEq, Repr

/-- One write of a store line or part of one, and how often its access failed parity (R106, R138). -/
structure LineWrite where
  addr   : Nat
  data   : List Byte
  hollow : Bool
  cls    : Nat
  parity : Nat
  by_    : Option ActBy
  sram   : SramRead
  deriving DecidableEq, Repr

/-- A request to a pool's allocator (R128, R132). -/
structure GrantReq where
  owner : Nat
  cls   : Nat
  deriving DecidableEq, Repr

/-- What the check bits and tags of the metadata cache show at an access (R156). -/
inductive CacheFault where
  | none | single | l1Double | l2Double | bufDouble | l1Tag | l2TagOne | l2TagBoth
  deriving DecidableEq, Repr

/-- An access of a cache agent (R142, R143, R150): a load has no data; a store has the bytes from `addr` on. -/
structure CacheAcc where
  agent : Nat
  addr  : Nat
  data  : List Byte
  cls   : Nat
  fault : CacheFault
  deriving DecidableEq, Repr

/-- What bring-up finds on a CE: whether its interface trained, READ ID bytes 0–5 as a number, the geometry of its parameter
page, and its factory bad blocks as (LUN, block). -/
structure CeProbe where
  ce     : Nat
  id     : Nat
  page   : Nat
  luns   : Nat
  units  : Nat
  blocks : Nat
  bad    : List (Nat × Nat)
  deriving DecidableEq, Repr

/-- A zone entry of a disc's factory information block (R250). -/
structure ZoneEnt where
  firstBand : Nat
  speed     : Nat
  rpm       : Nat
  frames    : Nat
  user      : Nat
  spare     : Nat
  deriving DecidableEq, Repr

/-- What the reads of a disc's lead-in at load give (R259, R264, R265, R268, R274, R275, R432): whether a factory
information block copy passes its CRC, its zone entries layer after layer, serial and reference record; the identity
blocks as (lead-in slot, bytes); the two copies of each DDL block up to the first blank pair, none where a copy
cannot be read; the first band-row not below the start whose slot is blank, and whether the slot just below it
decodes. -/
structure LeadIn where
  fibOk     : Bool
  ad8       : Bool
  zones     : List ZoneEnt
  serial    : List Byte
  ref       : List Byte
  dibs      : List (Nat × List Byte)
  ddl       : List (Option (List Byte) × Option (List Byte))
  blankFrom : Nat
  belowOk   : Bool
  deriving DecidableEq, Repr

/-- What the stages whose arithmetic the spec leaves open give for one channel bit: the interpolated sample, the
detector's hard bit and its ratio before SCALE (R292, R295). -/
structure SoftBit where
  y     : Int
  hard  : Bool
  ratio : Int
  deriving DecidableEq, Repr

/-- A frame from the head as its blocks bring it, header to CRC (R282), at a time in the tick. -/
structure HeadIn where
  drive : Nat
  bytes : List Byte
  ns    : Nat
  deriving DecidableEq, Repr

/-- A wobble address word that ends in a SAMPLE frame: after which of the frame's bits, and its 128 address bits (R369). -/
structure WobbleWord where
  at_  : Nat
  bits : List Bool
  deriving DecidableEq, Repr

/-- A SAMPLE frame with what the open stages make of it: the channel bits of its samples, and where adaptation has come at
its end (R289–R295): fine gain, offset, asymmetry, the 15 taps and the two sides' three; in AD-8 the wobble words that end in it, and the amplitudes over even
and odd periods of each group of 16 that ends in it. -/
structure SampleIn where
  frame  : HeadIn
  bits   : List SoftBit
  fgain  : Nat
  offset : Int
  asym   : Int
  eq     : List Int
  cancL  : List Int
  cancR  : List Int
  words  : List WobbleWord
  groups : List (Nat × Nat)
  deriving DecidableEq, Repr

/-- A commit boundary of a slot: the time from the boundary to the slot's first bit, and what R265 finds where the
recorder must set NWB again. -/
structure CommitIn where
  drive     : Nat
  leadNs    : Nat
  blankFrom : Nat
  belowOk   : Bool
  deriving DecidableEq, Repr

/-- What faults do to an engine in a dispatch phase: one loop's output code, or its mode, as the engine sends and holds
them, or copies that come late (R376, R377). -/
structure EngFault where
  engine : Nat
  loop   : Nat
  code   : Option Int
  mode   : Option Nat
  late   : Bool
  deriving DecidableEq, Repr

/-- The commands. -/
inductive Instr where
  /-- TICK_BOUNDARY (R14). -/
  | tickBoundary (env : TickEnv)
  /-- COMPUTE_WINDOW_CLOSE (R16). -/
  | computeWindowClose (cell : TickCell)
  /-- OUTPUT_DISPATCH (R377). -/
  | outputDispatch (faults : List EngFault)
  /-- SELF_CHECK_VERDICT (R379). -/
  | selfCheckVerdict (drive : Nat) (pass : List Bool)
  /-- REFCLK_LOST (R11). -/
  | refclkLost (noEdge : Bool)
  /-- REFCLK_RETURNED (R12). -/
  | refclkReturned
  /-- PHASE_SLEW_END (R12). -/
  | phaseSlewEnd
  /-- REFCLK_PHASE_STEP (R12). -/
  | refclkPhaseStep (ns : Int)
  /-- CLASS3_PROMOTION (R23). -/
  | class3Promotion (waited : Nat)
  /-- REGISTER_WRITE (R2). -/
  | registerWrite (a : RegAccess)
  /-- READ_CLEAR_READ (R2). -/
  | readClearRead (r : RegRead)
  /-- PLT_TICK_LO_READ (R9). -/
  | pltTickLoRead
  /-- LATCHED_LO_READ (R9). -/
  | latchedLoRead (r : RegRead)
  /-- ERROR_INJECT (R41). -/
  | errorInject (page value : Nat)
  /-- FENCE_CONFIRM (R29). -/
  | fenceConfirm (unit : Nat)
  /-- FENCE_TIMEOUT (R30). -/
  | fenceTimeout (unit : Nat)
  /-- PG_COMMIT_KEY (R42). -/
  | pgCommitKey (page ns : Nat)
  /-- PG_COMMIT_CANCEL (R46). -/
  | pgCommitCancel (page ns : Nat)
  /-- GROUP_COMMIT (R48). -/
  | groupCommit (group ns : Nat)
  /-- GROUP_CANCEL (R46). -/
  | groupCancel (group ns : Nat)
  /-- COMMIT_APPLY (R42). -/
  | commitApply (page : Nat)
  /-- MBB_BUILD_COMPLETE (R50). -/
  | mbbBuildComplete (page ns : Nat)
  /-- MBB_SWITCH (R50). -/
  | mbbSwitch (page : Nat)
  /-- MBB_BUILD_FAIL (R50). -/
  | mbbBuildFail (page : Nat)
  /-- MBB_TEARDOWN_DONE (R50). -/
  | mbbTeardownDone (page : Nat)
  /-- UNIT_ENABLE (R52). -/
  | unitEnable (page : Nat) (present : Bool)
  /-- UNIT_DISABLE (R52). -/
  | unitDisable (page : Nat)
  /-- UNIT_QUIESCE (R52). -/
  | unitQuiesce (page : Nat)
  /-- UNIT_RESUME (R52). -/
  | unitResume (page : Nat)
  /-- UNIT_ISOLATE (R52). -/
  | unitIsolate (page : Nat)
  /-- UNIT_DEISOLATE (R52). -/
  | unitDeisolate (page : Nat) (present : Bool)
  /-- QUIESCE_COMPLETE (R52). -/
  | quiesceComplete (page : Nat)
  /-- QUIESCE_TIMEOUT (R52). -/
  | quiesceTimeout (page : Nat)
  /-- JDM_COMPAT_WRITE (R6). -/
  | jdmCompatWrite (drive : Nat) (on : Bool)
  /-- FW_IMAGE_LOADED (R55). -/
  | fwImageLoaded
  /-- FW_QUIESCE_REACHED (R55). -/
  | fwQuiesceReached
  /-- FW_ACTIVATION_ABANDON (R55). -/
  | fwActivationAbandon
  /-- PLT_RST_CTRL_CHIP (R56). -/
  | pltRstCtrlChip
  /-- SOFT_RESET_TAKES_EFFECT (R56). -/
  | softResetTakesEffect (ready : Bool)
  /-- RAIL_STATE_CHANGE (R57). -/
  | railStateChange (rail mv : Nat)
  /-- RAIL_OUT_TIMEOUT (R57). -/
  | railOutTimeout (rail : Nat)
  /-- LANE_CDR_LOCK (R64). -/
  | laneCdrLock (lane : Nat)
  /-- LANE_SYNC_LOCK (R64). -/
  | laneSyncLock (e : LaneEvent)
  /-- AM_RECEIVED (R63). -/
  | amReceived (lane : Nat) (am : AmBlock)
  /-- LANE_LOST (R64). -/
  | laneLost (e : LaneEvent)
  /-- LANE_SIGNAL_LOSS (R64). -/
  | laneSignalLoss (e : LaneEvent)
  /-- POD_RECEIVED (R70). -/
  | podReceived (pod : PodArrival)
  /-- POD_PAYLOAD_WRITTEN (R71). -/
  | podPayloadWritten (stream path seq : Nat)
  /-- CREDIT_POD_PERIODIC (R72). -/
  | creditPodPeriodic (stream path : Nat)
  /-- PAIRING_TIMEOUT (R76). -/
  | pairingTimeout (stream seq : Nat)
  /-- FRAME_COMPLETE (R84). -/
  | frameComplete (stream pn : Nat)
  /-- TIMEOUT (R85). -/
  | timeout (stream pn : Nat)
  /-- SES_CTRL_ARM (R89). -/
  | sesCtrlArm (session : Nat)
  /-- SES_CTRL_TRIGGER (R89). -/
  | sesCtrlTrigger (session ns : Nat)
  /-- SES_CTRL_STOP (R89). -/
  | sesCtrlStop (session : Nat)
  /-- SES_CTRL_DISARM (R89). -/
  | sesCtrlDisarm (session : Nat)
  /-- TRG_EDGE (R90). -/
  | trgEdge (input sub : Nat) (rise : Bool)
  /-- SESSION_STATE_APPLY (R89). -/
  | sessionStateApply (session : Nat)
  /-- POST_EXPIRY (R89). -/
  | postExpiry (session : Nat)
  /-- TAKE_SEALED (R93). -/
  | takeSealed (session : Nat)
  /-- LTC_FRAME_DECODED (R91). -/
  | ltcFrameDecoded (tc rate sub : Nat)
  /-- LTC_LOSS (R91). -/
  | ltcLoss
  /-- DRAIN_FRAME_START (R94). -/
  | drainFrameStart
  /-- DRAIN_FRAME_END (R99). -/
  | drainFrameEnd (stream pn : Nat)
  /-- FRAME_DURABLE (R101). -/
  | frameDurable (stream pn : Nat)
  /-- ENGINE_KNOWN_ANSWER_CHECK (R103). -/
  | engineKnownAnswerCheck (engine : EngineRef) (pass : Bool)
  /-- STACK_TRAINED (R107). -/
  | stackTrained (stack : Nat) (pass : Bool) (repaired : Nat)
  /-- STORE_READ (R111). -/
  | storeRead (rd : LineRead)
  /-- STORE_WRITE (R115). -/
  | storeWrite (wr : LineWrite)
  /-- ZERO_FILL_DONE (R118). -/
  | zeroFillDone (granule : Nat)
  /-- NARROW_WRITE (R119). -/
  | narrowWrite (wr : LineWrite)
  /-- MERGE_CLOSE (R119). -/
  | mergeClose (rd : LineRead)
  /-- SCRUB_TICK (R121). -/
  | scrubTick (faults : List LineRead)
  /-- BPM_GRANT (R128). -/
  | bpmGrant (pool : Nat) (reqs : List GrantReq)
  /-- BPM_FREE (R135). -/
  | bpmFree (owner : Nat) (buf : BufRef)
  /-- FREE_COMPLETE (R136). -/
  | freeComplete (index : Nat)
  /-- BPM_RELEASE (R135). -/
  | bpmRelease (owner : Nat) (buf : BufRef)
  /-- BPM_SHARE (R134). -/
  | bpmShare (owner : Nat) (buf : BufRef) (mask last : Nat)
  /-- BPM_TRANSFER (R133). -/
  | bpmTransfer (owner : Nat) (buf : BufRef) (target : Nat)
  /-- BPM_HOSTW_SET (R547). -/
  | bpmHostwSet (owner : Nat) (buf : BufRef)
  /-- BPM_HOSTW_CLR (R547). -/
  | bpmHostwClr (owner : Nat) (buf : BufRef)
  /-- CACHE_READ (R143). -/
  | cacheRead (acc : CacheAcc)
  /-- CACHE_WRITE (R150). -/
  | cacheWrite (acc : CacheAcc)
  /-- CACHE_FILL_DONE (R155). -/
  | cacheFillDone (rd : LineRead)
  /-- PREFETCH_ARRIVAL (R149). -/
  | prefetchArrival (rd : LineRead)
  /-- WRITEBACK_ACK (R153). -/
  | writebackAck (addr : Nat)
  /-- MERGE_BUF_DRAIN (R152). -/
  | mergeBufDrain (addr : Nat)
  /-- FORWARDED_WRITE (R146). -/
  | forwardedWrite (wr : LineWrite)
  /-- MC_CLEAN (R154). -/
  | mcClean (addr count : Nat)
  /-- MC_INV (R154). -/
  | mcInv (addr count : Nat)
  /-- MC_DISCARD (R154). -/
  | mcDiscard (addr count : Nat)
  /-- CHANNEL_TRAINED (R163). -/
  | channelTrained (ch : Nat) (pass : Bool) (probes : List CeProbe)
  /-- ZQ_CAL_TIMER (R162). -/
  | zqCalTimer (ch : Nat)
  /-- DIE_TEMP_READ (R186). -/
  | dieTempRead (ch ce lun : Nat) (temp : Int)
  /-- FLASH_PROGRAM_DONE (R192). -/
  | flashProgramDone (pua : Nat) (pass : Bool)
  /-- FLASH_ERASE_DONE (R193). -/
  | flashEraseDone (row failed : Nat)
  /-- FLASH_READ_DONE (R187). -/
  | flashReadDone (pua : Nat) (how : ReadEnd) (bad : List Nat)
  /-- FLASH_OP_TIMEOUT (R207). -/
  | flashOpTimeout (pua : Nat)
  /-- MAP_PAGE_LOADED (R174). -/
  | mapPageLoaded (page : Nat)
  /-- MAP_PAIR_WAIT (R175). -/
  | mapPairWait (page : Nat)
  /-- JOURNAL_FLUSH (R198). -/
  | journalFlush
  /-- SFL_JRN_FLUSH (R198). -/
  | sflJrnFlush (value : Nat)
  /-- SFL_JRN_CKPT (R199). -/
  | sflJrnCkpt (value : Nat)
  /-- CHECKPOINT_START (R199). -/
  | checkpointStart
  /-- CHECKPOINT_DONE (R199). -/
  | checkpointDone
  /-- SFL_TIME_ADVANCE (R185). -/
  | sflTimeAdvance
  /-- SFL_TIME_WRITE (R185). -/
  | sflTimeWrite (value : Nat)
  /-- GC_SOURCE_SELECT (R189). -/
  | gcSourceSelect (set : Nat)
  /-- GC_UNIT_COPY (R190). -/
  | gcUnitCopy (set : Nat)
  /-- ERASE_START (R191). -/
  | eraseStart (row : Nat)
  /-- FLASH_REBUILD (R200). -/
  | flashRebuild (ms : Nat) (lost : Unreadable)
  /-- PWRFAIL (R202). -/
  | pwrfail
  /-- PWRFAIL_FLASH_QUIET (R202). -/
  | pwrfailFlashQuiet (confirmed : List Nat)
  /-- SJ_COMPLETE_AT_POWERFAIL (R228). -/
  | sjCompleteAtPowerfail
  /-- FILL_WAIT_EXPIRY (R218). -/
  | fillWaitExpiry (row k : Nat)
  /-- SJ_SLOT_FLUSH (R222). -/
  | sjSlotFlush (badA badB : Bool)
  /-- SHADOW_PROGRAM (R225). -/
  | shadowProgram (pass : Bool)
  /-- REBUILD_UNIT_MOVE (R230). -/
  | rebuildUnitMove (set : Nat) (bad : List Nat)
  /-- RESHAPE_UNIT_MOVE (R240). -/
  | reshapeUnitMove (set : Nat)
  /-- DISC_PARITY_ADD (R236). -/
  | discParityAdd (slot disc x : Nat)
  /-- RECOMPUTE (R238). -/
  | recompute (slot : Nat) (flash : List (Nat × Nat × List Nat))
  /-- DISC_RUN_COVERED (R236). -/
  | discRunCovered (slot : Nat)
  /-- DISC_IDENTIFY (R274). -/
  | discIdentify (drive : Nat) (lead : LeadIn)
  /-- DISC_UNLOAD (R263). -/
  | discUnload (drive : Nat)
  /-- LDR_INVENTORY (R271). -/
  | ldrInventory
  /-- LDR_HOME (R419). -/
  | ldrHome
  /-- LOADER_STEP_DONE (R420). -/
  | loaderStepDone
  /-- LOADER_STEP_TIMEOUT (R421). -/
  | loaderStepTimeout
  /-- SAMPLE_FRAME (R285). -/
  | sampleFrame (input : SampleIn)
  /-- SERVO_FRAME (R285). -/
  | servoFrame (frame : HeadIn)
  /-- STATUS_FRAME (R285). -/
  | statusFrame (frame : HeadIn)
  /-- LDPC_DECODE_START (R300). -/
  | ldpcDecodeStart (decoder : Nat)
  /-- LDPC_DECODE_DONE (R299). -/
  | ldpcDecodeDone (decoder : Nat)
  /-- RECOVERY_LEVEL_START (R302). -/
  | recoveryLevelStart (drive brow : Nat)
  /-- BANDROW_COMMIT (R318). -/
  | bandrowCommit (commit : CommitIn)
  /-- SHOCK_INPUT (R320). -/
  | shockInput (drive ns : Nat)
  /-- REALLOC_RECORD (R331). -/
  | reallocRecord (commit : CommitIn)
  /-- FOCUS_CONFIRMED (R360). -/
  | focusConfirmed (drive : Nat)
  /-- FOCUS_SWEEP_END (R360). -/
  | focusSweepEnd (drive : Nat)
  /-- FOCUS_LOST (R361). -/
  | focusLost (drive : Nat)
  /-- JUMP_KICK_END (R362). -/
  | jumpKickEnd (drive : Nat)
  /-- JUMP_BRAKE_END (R362). -/
  | jumpBrakeEnd (drive : Nat)
  /-- JUMP_FAIL (R362). -/
  | jumpFail (drive : Nat)
  /-- SEEK_TRAJECTORY_END (R363). -/
  | seekTrajectoryEnd (drive : Nat)
  /-- SETTLE_COMPLETE (R363). -/
  | settleComplete (drive : Nat)
  /-- SEEK_FAIL (R363). -/
  | seekFail (drive : Nat)
  /-- RETRACT_COMPLETE (R366). -/
  | retractComplete (drive : Nat)
  /-- SERVO_STALE (R344). -/
  | servoStale (drive : Nat)
  /-- DEADLINE (R368). -/
  | deadline (drive loop : Nat)
  /-- SRV_CS_DATA_WRITE (R354). -/
  | srvCsDataWrite (drive value : Nat)
  /-- SRV_CS_DATA_READ (R354). -/
  | srvCsDataRead (drive : Nat)
  /-- SEED_BRINGUP_DONE (R382). -/
  | seedBringupDone (engine : Nat) (unreadable : Bool)
  /-- SPROUT_DUE (R384). -/
  | sproutDue (drive : Nat)
  /-- SRV_RED_CTRL_SPROUT (R384). -/
  | srvRedCtrlSprout (value : Nat)
  /-- SPROUT_START (R386). -/
  | sproutStart (drive : Nat)
  /-- SPROUT_SWITCH (R386). -/
  | sproutSwitch (drive : Nat)
  /-- SELFTEST_DONE (R381). -/
  | selftestDone (engine : Nat) (pass : Bool)
  /-- SPIN_UP_REQUEST (R404). -/
  | spinUpRequest (drive : Nat)
  /-- SPINDLE_MEASUREMENT_DONE (R404). -/
  | spindleMeasurementDone (drive : Nat) (meas : SpinMeas)
  /-- ALIGNMENT_DONE (R405). -/
  | alignmentDone (drive : Nat) (peaks : List Nat) (along against : Nat)
  /-- SYNC_CONFIRMED (R404). -/
  | syncConfirmed (drive : Nat)
  /-- AT_SPEED_REACHED (R409). -/
  | atSpeedReached (drive : Nat)
  /-- OBS_LOST (R407). -/
  | obsLost (drive : Nat)
  /-- RECATCH_FAIL (R404). -/
  | recatchFail (drive : Nat)
  /-- START_FAIL (R404). -/
  | startFail (drive : Nat)
  /-- CONTROLLED_STOP (R408). -/
  | controlledStop (drive : Nat)
  /-- STANDSTILL (R408). -/
  | standstill (drive : Nat)
  /-- STOP_FAIL (R404). -/
  | stopFail (drive : Nat)
  /-- OVERCURRENT (R422). -/
  | overcurrent (drive : Nat)
  /-- DC_LOW (R422). -/
  | dcLow (drive : Nat)
  /-- STEP_TIMER_EXPIRY (R412). -/
  | stepTimerExpiry (axis : Nat)
  /-- HOLD_CURRENT_TIMER (R413). -/
  | holdCurrentTimer (axis : Nat)
  /-- CHOPPER_COMPARATOR (R414). -/
  | chopperComparator (axis phase since ty tr tx tf : Nat)
  /-- ST_CMD_MOVE (R411). -/
  | stCmdMove (axis : Nat)
  /-- ST_CMD_HOME (R415). -/
  | stCmdHome (axis : Nat)
  /-- ST_CMD_STOP (R411). -/
  | stCmdStop (axis : Nat)
  /-- ST_CMD_PARK (R411). -/
  | stCmdPark (axis : Nat)
  /-- HOME_INPUT (R415). -/
  | homeInput (axis : Nat) (on : Bool)
  /-- HOME_FAIL (R415). -/
  | homeFail (axis : Nat)
  /-- LIMIT_INPUT (R415). -/
  | limitInput (axis side : Nat) (on : Bool)
  /-- ESTOP (R410). -/
  | estop
  /-- MOT_CTRL_ESTOP_CLR (R410). -/
  | motCtrlEstopClr (value : Nat)
  /-- CHATTER (R417). -/
  | chatter (key : Nat)
  /-- CHATTER_CLEAR (R417). -/
  | chatterClear (key : Nat) (level : Bool)
  /-- IN_STUCK (R418). -/
  | inStuck (drive : Nat)
  /-- GENLOCK_EDGE (R526). -/
  | genlockEdge (rise : Bool) (sub : Nat)
  /-- CAL_RUN (R427). -/
  | calRun (value : Nat)
  /-- CAL_RUN_ABORT (R427). -/
  | calRunAbort (value : Nat)
  /-- CAL_MEASURE_START (R427). -/
  | calMeasureStart (item : Nat)
  /-- CAL_MEASURE_DONE (R434). -/
  | calMeasureDone (item : Nat) (vals : List (List Int))
  /-- VREFCAL_CHECK (R430). -/
  | vrefcalCheck (mv : Nat)
  /-- CXL_MEM_READ (R440). -/
  | cxlMemRead (rd : LineRead)
  /-- CXL_MEM_WRITE (R440). -/
  | cxlMemWrite (wr : LineWrite)
  /-- CXL_MEM_SPEC_READ (R439). -/
  | cxlMemSpecRead (addr : Nat)
  /-- CXL_MEM_INV (R439). -/
  | cxlMemInv (addr : Nat)
  /-- HDM_DECODER_COMMIT (R441). -/
  | hdmDecoderCommit (index first end_ : Nat)
  /-- CAPSULE_SLOT_WRITE (R445). -/
  | capsuleSlotWrite (queue offset : Nat) (bytes : List Byte)
  /-- HAT_SQDB (R446). -/
  | hatSqdb (queue tail : Nat)
  /-- HAT_RHDB (R449). -/
  | hatRhdb (queue head : Nat)
  /-- MSIX_AGG_TIMER (R450). -/
  | msixAggTimer (queue : Nat)
  /-- HAT_AQ_ENABLE (R451). -/
  | hatAqEnable (value : Nat)
  /-- HAT_AQ_DISABLE (R451). -/
  | hatAqDisable (value : Nat)
  /-- WRITE (R454). -/
  | write (queue cid : Nat)
  /-- READ (R455). -/
  | read (queue cid : Nat)
  /-- FLUSH (R465). -/
  | flush (queue cid : Nat)
  /-- FRAME_READ (R459). -/
  | frameRead (queue cid : Nat)
  /-- RANGE_RELEASE (R461). -/
  | rangeRelease (queue cid : Nat)
  /-- MIGRATE (R462). -/
  | migrate (queue cid : Nat)
  /-- VERIFY (R463). -/
  | verify (queue cid : Nat)
  /-- MOUNT_SHELL (R272). -/
  | mountShell (queue cid : Nat)
  /-- EJECT_SHELL (R272). -/
  | ejectShell (queue cid : Nat)
  /-- ARM (R464). -/
  | arm (queue cid : Nat)
  /-- TRIGGER (R464). -/
  | trigger (queue cid ns : Nat)
  /-- STOP (R464). -/
  | stop (queue cid : Nat)
  /-- DATA_DONE (R454). -/
  | dataDone (queue cid xid : Nat)
  /-- RELEASE (R455). -/
  | release (queue cid xid : Nat)
  /-- RANGE_LOCK_GRANTED (R457). -/
  | rangeLockGranted (queue cid : Nat)
  /-- QUEUE_CREATE (R451). -/
  | queueCreate (cid : Nat)
  /-- QUEUE_DELETE (R451). -/
  | queueDelete (cid : Nat)
  /-- QUEUE_RESET (R465). -/
  | queueReset (cid : Nat)
  /-- QUEUE_RESET_DONE (R451). -/
  | queueResetDone (queue : Nat)
  /-- FLR (R465). -/
  | flr
  /-- LINK_DOWN (R466). -/
  | linkDown
  /-- LINK_TRAINED (R439). -/
  | linkTrained (mode rate width : Nat)
  /-- CONVENTIONAL_RESET (R466). -/
  | conventionalReset
  /-- IDENTIFY_MEMORY_DEVICE (R444). -/
  | identifyMemoryDevice
  /-- GET_HEALTH_INFO (R444). -/
  | getHealthInfo
  /-- GET_POISON_LIST (R444). -/
  | getPoisonList
  /-- GET_LSA (R444). -/
  | getLsa (offset length : Nat)
  /-- SET_LSA (R444). -/
  | setLsa (offset : Nat) (bytes : List Byte)
  /-- GET_FW_INFO (R444). -/
  | getFwInfo
  /-- TRANSFER_FW (R444). -/
  | transferFw
  /-- ACTIVATE_FW (R444). -/
  | activateFw
  /-- IDENTIFY (R473). -/
  | identify (cid : Nat)
  /-- GET_LOG (R474). -/
  | getLog (cid : Nat)
  /-- SET_FEATURE (R478). -/
  | setFeature (cid : Nat)
  /-- GET_FEATURE (R478). -/
  | getFeature (cid : Nat)
  /-- FW_DOWNLOAD (R481). -/
  | fwDownload (cid : Nat)
  /-- FW_COMMIT (R482). -/
  | fwCommit (cid : Nat)
  /-- KEY_LOAD (R479). -/
  | keyLoad (cid : Nat)
  /-- PROFILE_NEXT_WRITE (R484). -/
  | profileNextWrite (value : Nat)
  /-- THERMAL_LEVEL_FALL (R499). -/
  | thermalLevelFall
  /-- RAIL_VALID (R508). -/
  | railValid (rail tenths : Nat)
  /-- RESET_N_ASSERT (R517). -/
  | resetNAssert (confirmed : List Nat)
  /-- STARTUP (R519). -/
  | startup (x : StartIn)
  /-- READY (R520). -/
  | ready (us10 : Nat)
  /-- JTAG_RESET (R516). -/
  | jtagReset
  /-- PERST_N_RELEASE (R521). -/
  | perstNRelease
  /-- FW_COMMIT_CHECK_END (R482). -/
  | fwCommitCheckEnd (cid : Nat)
  /-- RING_FULL (R469). -/
  | ringFull (queue : Nat)
  /-- ESTOP_N_RELEASE (R410). -/
  | estopNRelease
  /-- SHOCK_RELEASE (R320). -/
  | shockRelease (drive : Nat)
  /-- D3HOT_TRANSITION (R443). -/
  | d3hotTransition (on : Bool)
  /-- GET_EVENT_RECORDS (R444). -/
  | getEventRecords
  /-- TAP_INSTRUCTION (R527). -/
  | tapInstruction (instr : TapInstr)
  deriving DecidableEq, Repr

end Sys2Proof
end

