-- ==== Sys2Proof/Config.lean ====
section
/-! DEFINITION. What one part or one implementation fixes, and the free values: constants without a body, so that
nothing can be proved of the value they take (log entry 1). -/
namespace Sys2Proof.Config

/-- A value the spec leaves open: the `n`th fresh value drawn, for a use named by `tag` (log entry 1). -/
opaque freeNat (tag n : Nat) : Nat

/-- Where the spec gives a quotient and no rounding: whether the inexact quotient of these operands is taken upwards
(log entry 31). -/
opaque roundsUp (num den : Int) : Bool

/-- The cosine of a 16-bit angle with 24 fractional bits, the 16-bit angle of a vector, and a number over √3: the spec names
these functions and not their rounding (R399, log entry 33). -/
opaque cosine (angle : Nat) : Int
opaque angleOf (a b : Int) : Nat
opaque overRoot3 (v : Int) : Int

/-- The rated torque of a spindle port's motor in 10⁻⁸ N·m, which the spec names and does not place (R399, log entry 33). -/
opaque ratedTorque (spindle : Nat) : Nat

/-- The digest of an engine's state image and the signature of its self-check vector: CRCs over a layout and a vector that the
spec does not give (R377, R379, log entry 37). -/
opaque digestOf (image : List Int) : Nat
opaque signature (engine : Nat) (pass : Bool) : Nat

/-- The DAC code that VREFCAL ÷ 4 should trip a stepper's comparator at, which the spec names and does not give (R434, log
entry 42). -/
opaque nominalTrip : Nat

/-- Whether the ECDSA P-384 signature of an image checks against the key fused in the die (R480, log entry 8). -/
opaque signatureOk (image : List Byte) : Bool

/-- The share of its life a flash die has used, from its erase count against its die type's rating: the spec gives no rating
(R444, log entry 51). -/
opaque lifeUsed (erases dieType : Nat) : Nat

/-- The PCI-visible serial number, 20 ASCII bytes (R473 gives its place and form, not its value; log entry 9). -/
opaque serialByte (i : Nat) : Byte

/-- Headline capacities of R1 that the model counts with. -/
def lanes : Nat := 64
def streams : Nat := 32
def sessions : Nat := 32
def spindles : Nat := 4
def drives : Nat := 4
def buffers : Nat := 4194304
/-- First buffer index of the ING system range (R79). -/
def systemFirst : Nat := 4177920
/-- Pooled buffers of a stack (R129). -/
def pooled (stack : Nat) : Nat := if stack < 3 then 1048576 else if stack = 3 then 1032192 else 0
/-- Nominal rail voltages in mV, rails numbered as PLT_SUP_V (R507). -/
def railMv (rail : Nat) : Nat := [900, 950, 900, 1200, 1100, 1200, 1800, 1800].getD rail 900
/-- Store bytes (R105). -/
def storeBytes : Nat := 2 ^ 38

/-- The check bytes of a flash codeword: the LDPC code of the dies is the die type's (R166; log entry 91). -/
opaque flashCheck (codeword : List Byte) (bytes : Nat) : List Byte
/-- Byte `i` of a checkpoint root, whose layout the spec does not give (R199; log entry 92). -/
opaque rootByte (num c time tail : Nat) (parts : List Nat) (i : Nat) : Byte

end Sys2Proof.Config
end

