-- ==== Sys2Proof/Machine/Bits.lean ====
section
/-! DEFINITION. Bit fields, byte order and signed readings (00_scope.md "Notation"; R473: structures are little-endian). -/
namespace Sys2Proof.Machine

/-- The number in bits `hi:lo` of `n`. -/
def bitsOf (n hi lo : Nat) : Nat := (n >>> lo) % 2 ^ (hi + 1 - lo)

/-- `n` with bits `hi:lo` replaced by the low bits of `v`. -/
def putBits (n hi lo v : Nat) : Nat :=
  n - (bitsOf n hi lo <<< lo) + ((v % 2 ^ (hi + 1 - lo)) <<< lo)

/-- Bit `i` of `n`. -/
def bitAt (n i : Nat) : Bool := n.testBit i

/-- `n` with bit `i` set to `b`. -/
def setBit (n i : Nat) (b : Bool) : Nat := putBits n i i (if b then 1 else 0)

/-- 1 for true, 0 for false. -/
def b2n (b : Bool) : Nat := if b then 1 else 0

/-- Two's complement reading of the low `w` bits of `n`. -/
def sgn (w n : Nat) : Int :=
  let m := n % 2 ^ w
  if m < 2 ^ (w - 1) then (m : Int) else (m : Int) - (2 ^ w : Nat)

/-- The low `w` bits of `i` in two's complement. -/
def unsgn (w : Nat) (i : Int) : Nat := (i % ((2 ^ w : Nat) : Int)).toNat

/-- `i` limited to `lo … hi`. -/
def clampInt (lo hi i : Int) : Int := if i < lo then lo else if hi < i then hi else i

/-- The number that a little-endian list of bytes spells. -/
def leNat : List Byte → Nat
  | [] => 0
  | b :: bs => b.toNat + 256 * leNat bs

/-- `n` as `k` little-endian bytes. -/
def leBytes : Nat → Nat → List Byte
  | 0, _ => []
  | k + 1, n => w8 n :: leBytes k (n / 256)

/-- The big-endian number of a list of bytes. -/
def beNat (bs : List Byte) : Nat := leNat bs.reverse

/-- `n` as `k` big-endian bytes. -/
def beBytes (k n : Nat) : List Byte := (leBytes k n).reverse

/-- Bytes `i … i+k-1` of a list, a byte beyond its end read as zero. -/
def slice (bs : List Byte) (i k : Nat) : List Byte :=
  let t := (bs.drop i).take k
  t ++ List.replicate (k - t.length) 0

/-- The little-endian number in bytes `i … i+k-1` of a list. -/
def fieldAt (bs : List Byte) (i k : Nat) : Nat := leNat (slice bs i k)

/-- `bs` with the bytes from `i` on replaced by `xs` (never longer than it was). -/
def splice (bs : List Byte) (i : Nat) (xs : List Byte) : List Byte :=
  (bs.take i ++ xs ++ bs.drop (i + xs.length)).take bs.length

/-- `k` zero bytes. -/
def zeros (k : Nat) : List Byte := List.replicate k 0

/-- `bs` cut or filled with zeros to `k` bytes. -/
def padTo (k : Nat) (bs : List Byte) : List Byte := slice bs 0 k

/-- A list of flags as a number, the first flag at bit 0. -/
def maskOf : List Bool → Nat
  | [] => 0
  | b :: bs => b2n b + 2 * maskOf bs

/-- The first index below `n` at which `p` holds, from `start` on and then round from 0. -/
def firstFrom (n start : Nat) (p : Nat → Bool) : Option Nat :=
  ((List.range n).map (fun i => (start + i) % n)).find? p

/-- The value at index `i` of a list, or `dflt`. -/
def nth {α : Type} (l : List α) (i : Nat) (dflt : α) : α := l.getD i dflt

/-- A list without the repeats of its elements. -/
def uniq (l : List Nat) : List Nat := l.foldl (fun acc x => if acc.contains x then acc else acc ++ [x]) []

/-- How far `a` lies past `b` in a count of `w` bits that wraps. (The power stands first, so that nothing unfolds it.) -/
def behind (w a b : Nat) : Nat := (2 ^ w - b % 2 ^ w + a) % 2 ^ w

/-- Saturating increment of a counter of `w` bits. -/
def satInc (w n : Nat) : Nat := if n + 1 < 2 ^ w then n + 1 else 2 ^ w - 1

/-- Upper bound of `n / d`. -/
def ceilDiv (n d : Nat) : Nat := (n + d - 1) / d

/-- A quotient whose rounding the spec does not give: exact where the division is, else one of its two neighbours
(log entry 31). -/
def quot (n d : Int) : Int :=
  if d = 0 then 0 else if n % d = 0 then n / d else if Config.roundsUp n d then n / d + 1 else n / d

/-- The nearest whole number to a quotient; the way of a tie is not given (log entry 31). -/
def nearest (n d : Int) : Int :=
  let d2 := 2 * d
  if d = 0 then 0
  else if (2 * n + d) % d2 = 0 then (if Config.roundsUp n d then (2 * n + d) / d2 else (2 * n + d) / d2 - 1)
  else (2 * n + d) / d2

end Sys2Proof.Machine
end

