-- ==== Sys2Proof/Machine/RegTable.lean ====
section
/-! DEFINITION. The register map of BAR0: every page, register and field of the spec's register tables with its access
type, reset value and range, and every error a page can raise (R2, R36–R41, R546, R548 and the tables each page names).
Written from a transcription of those tables; the fields of the common page header (R39) come first. -/
namespace Sys2Proof.Machine

/-- The access types of R2; bits that no field covers are RZ. -/
inductive Access where
  | rw | rs | ro | rc | w1c | wo
  deriving DecidableEq, Repr

/-- One field of a register: its bits, access type, reset value (0 for a field that a profile or a saved value sets) and
the range its table states (R548). -/
structure FieldDef where
  hi : Nat
  lo : Nat
  ty : Access
  reset : Nat
  min : Nat
  max : Nat
  deriving DecidableEq, Repr

/-- A field whose table states no range. -/
def fd (hi lo : Nat) (ty : Access) (reset : Nat) : FieldDef := ⟨hi, lo, ty, reset, 0, 2 ^ (hi + 1 - lo) - 1⟩

/-- A register, or an array of registers in at most two dimensions (count, stride). -/
structure RegDef where
  off : Nat
  n1 : Nat
  s1 : Nat
  n2 : Nat
  s2 : Nat
  fields : List FieldDef
  deriving DecidableEq, Repr

/-- The containment classes of R27. -/
inductive Containment where
  | corrected | hollow | discard | fence
  deriving DecidableEq, Repr

/-- An error of a page: its PG_ERR bit, containment, default escalation level 0–3 (R28) and whether it is unmaskable (R31). -/
structure ErrDef where
  bit : Nat
  cont : Containment
  level : Nat
  unmaskable : Bool
  deriving DecidableEq, Repr

/-- A family of pages written with one name. -/
structure PageDef where
  base : Nat
  count : Nat
  stride : Nat
  mbb : Bool
  isolate : Bool
  legacy : Bool
  errs : List ErrDef
  regs : List RegDef
  deriving DecidableEq, Repr

/-- The common header (R39). Its escalation registers take their reset values from the page's errors, its RO fields are
computed (R546). -/
def headerRegs : List RegDef := [
  /- PG_ID -/ ⟨0x0, 1, 0, 1, 0, [fd 31 16 .ro 0, fd 15 8 .ro 0, fd 7 0 .ro 0]⟩,
  /- PG_CAP -/ ⟨0x4, 1, 0, 1, 0, [fd 31 16 .ro 0, fd 4 4 .ro 0, fd 3 3 .ro 0, fd 2 2 .ro 0, fd 1 1 .ro 0, fd 0 0 .ro 0]⟩,
  /- PG_CTRL -/ ⟨0x8, 1, 0, 1, 0, [fd 3 3 .ro 0, fd 2 2 .rw 0, fd 1 1 .rw 0, fd 0 0 .rw 0]⟩,
  /- PG_STAT -/ ⟨0xC, 1, 0, 1, 0, [fd 31 16 .ro 0, fd 7 7 .ro 0, fd 6 6 .ro 0, fd 5 5 .ro 0, fd 4 4 .ro 0, fd 3 3 .ro 0, fd 2 2 .ro 0, fd 1 1 .ro 0, fd 0 0 .ro 0]⟩,
  /- PG_ERR -/ ⟨0x10, 1, 0, 1, 0, [fd 31 31 .w1c 0, fd 30 30 .w1c 0, fd 29 0 .w1c 0]⟩,
  /- PG_ERR_MASK -/ ⟨0x14, 1, 0, 1, 0, [fd 31 0 .rw 0]⟩,
  /- PG_ERR_ESC -/ ⟨0x18, 1, 0, 1, 0, [fd 31 0 .rw 0]⟩,
  /- PG_ERR_INJ -/ ⟨0x1C, 1, 0, 1, 0, [fd 31 24 .wo 0, fd 8 8 .wo 0, fd 4 0 .wo 0]⟩,
  /- PG_COMMIT -/ ⟨0x20, 1, 0, 1, 0, [fd 7 0 .wo 0]⟩,
  /- PG_COMMIT_TICK -/ ⟨0x24, 1, 0, 1, 0, [fd 31 0 .rw 0]⟩,
  /- PG_GROUP -/ ⟨0x28, 1, 0, 1, 0, [fd 5 0 .rw 0]⟩,
  /- PG_CNT_ERR -/ ⟨0x2C, 1, 0, 1, 0, [fd 31 0 .ro 0]⟩,
  /- PG_ERR_ESC_HI -/ ⟨0x30, 1, 0, 1, 0, [fd 31 0 .rw 0]⟩]

/-- The page families of BAR0, in address order. -/
inductive Kind where
  | pltReg
  | pltTick
  | pltRst
  | pltArb
  | pltGrp
  | pltFw
  | pltSup
  | pltTherm
  | pltEvt
  | pltMram
  | pltMg0
  | pltMg1
  | pltMg2
  | pltMg3
  | pltDbg
  | hatReg
  | hatAq
  | hatDb
  | hatMsix
  | seqReg
  | seqRl
  | seqMc
  | ingReg
  | ingLane
  | ingProc
  | ingStr
  | ingSes
  | cstReg
  | cstStk
  | bpmReg
  | bpmPool
  | bpmOwn
  | sflReg
  | sflFc
  | sflDie
  | sflMap
  | sflGc
  | sflJrn
  | sflAes
  | sflVol
  | parReg
  | parSet
  | parSj
  | parDisc
  | odrReg
  | odrDrv
  | odrLdr
  | odrHl
  | odrRc
  | odrLdpc
  | odrTsf
  | odrWr
  | srvReg
  | srvEng
  | srvDrv
  | srvLoop
  | motReg
  | motSp
  | motSt
  | motLdr
  | calReg
  | calRec
  | calTrim
  deriving DecidableEq, Repr

/-- PLT_REG (R38). -/
def pltRegPage : PageDef :=
  ⟨0x0, 1, 0x1000, false, false, false,
  [⟨0, .fence, 3, true⟩ /- SAFE_STATE -/],
  [
   /- PLT_STAT R38 -/ ⟨0x100, 1, 0, 1, 0, [fd 8 8 .ro 0, fd 7 7 .ro 0, fd 6 5 .ro 0, fd 4 4 .ro 0, fd 3 3 .ro 0, fd 2 2 .ro 0, fd 1 1 .ro 0, fd 0 0 .ro 0]⟩,
   /- PLT_ERR_SUM R38 -/ ⟨0x104, 1, 0, 1, 0, [fd 11 0 .ro 0]⟩,
   /- PLT_SAFE_CAUSE R499 -/ ⟨0x108, 1, 0, 1, 0, [fd 15 12 .ro 15, fd 3 0 .ro 0]⟩]⟩

/-- PLT_TICK (R9). -/
def pltTickPage : PageDef :=
  ⟨0x1000, 1, 0x1000, false, false, false,
  [],
  [
   /- PLT_TICK_LO R9 -/ ⟨0x100, 1, 0, 1, 0, [fd 31 0 .ro 0]⟩,
   /- PLT_TICK_HI R9 -/ ⟨0x104, 1, 0, 1, 0, [fd 31 0 .ro 0]⟩,
   /- PLT_TICK_PHASE R9 -/ ⟨0x108, 1, 0, 1, 0, [fd 15 0 .ro 0]⟩]⟩

/-- PLT_RST (R56). -/
def pltRstPage : PageDef :=
  ⟨0x2000, 1, 0x1000, false, false, false,
  [],
  [
   /- PLT_RST_CAUSE R56 -/ ⟨0x100, 1, 0, 1, 0, [fd 2 2 .rc 0, fd 1 1 .rc 0, fd 0 0 .rc 0]⟩,
   /- PLT_RST_CTRL R56 -/ ⟨0x104, 1, 0, 1, 0, [fd 31 16 .wo 0, fd 0 0 .wo 0]⟩]⟩

/-- PLT_ARB (R25). -/
def pltArbPage : PageDef :=
  ⟨0x3000, 1, 0x1000, false, false, false,
  [],
  [
   /- PLT_ARB_WT R25 -/ ⟨0x100, 1, 0, 1, 0, [⟨29, 24, .rs, 4, 1, 63⟩, ⟨21, 16, .rs, 8, 1, 63⟩, ⟨13, 8, .rs, 16, 1, 63⟩, ⟨5, 0, .rs, 4, 1, 63⟩]⟩,
   /- PLT_ARB_PROMO R25 -/ ⟨0x104, 1, 0, 1, 0, [⟨15, 0, .rs, 4000, 400, 65535⟩]⟩,
   /- PLT_ARB_CNT_PROMO R25 -/ ⟨0x108, 1, 0, 1, 0, [fd 31 0 .rc 0]⟩]⟩

/-- PLT_GRP (R47). -/
def pltGrpPage : PageDef :=
  ⟨0x4000, 1, 0x1000, false, false, false,
  [],
  [
   /- PLT_GRP_TICK R47 -/ ⟨0x100, 1, 0, 1, 0, [fd 31 0 .rw 0]⟩,
   /- PLT_GRP_COMMIT R47 -/ ⟨0x104, 1, 0, 1, 0, [fd 15 8 .wo 0, fd 5 0 .wo 0]⟩,
   /- PLT_GRP_STAT R47 -/ ⟨0x200, 64, 4, 1, 0, [fd 27 16 .ro 0, fd 1 0 .ro 0]⟩]⟩

/-- PLT_FW (R55). -/
def pltFwPage : PageDef :=
  ⟨0x5000, 1, 0x1000, true, false, false,
  [],
  [
   /- PLT_FW_REG R55 -/ ⟨0x100, 12, 4, 1, 0, [fd 31 16 .ro 0, fd 9 8 .ro 0, fd 5 4 .ro 0, fd 1 0 .ro 0]⟩,
   /- PLT_FW_LAST R55 -/ ⟨0x140, 1, 0, 1, 0, [fd 31 16 .ro 0, fd 15 0 .ro 0]⟩]⟩

/-- PLT_SUP (R57). -/
def pltSupPage : PageDef :=
  ⟨0x6000, 1, 0x1000, false, false, false,
  [⟨0, .corrected, 1, false⟩ /- RAIL_WARN -/, ⟨1, .corrected, 3, false⟩ /- RAIL_OUT -/],
  [
   /- PLT_SUP_V R56 -/ ⟨0x100, 8, 4, 1, 0, [fd 17 16 .ro 0, fd 15 0 .ro 0]⟩,
   /- PLT_SUP_SEQ R525 -/ ⟨0x120, 1, 0, 1, 0, [fd 31 16 .ro 0, fd 8 8 .ro 0, fd 6 4 .ro 0, fd 2 0 .ro 0]⟩]⟩

/-- PLT_THERM (R57). -/
def pltThermPage : PageDef :=
  ⟨0x7000, 1, 0x1000, false, false, false,
  [⟨0, .corrected, 1, false⟩ /- THERM_BG -/, ⟨1, .corrected, 3, false⟩ /- THERM_HOST -/, ⟨2, .fence, 3, true⟩ /- THERM_TRIP -/],
  [
   /- PLT_THERM_T R57 -/ ⟨0x100, 13, 4, 1, 0, [fd 15 0 .ro 0]⟩,
   /- PLT_THERM_LIM R58 -/ ⟨0x140, 1, 0, 1, 0, [fd 23 16 .rw 112, fd 15 8 .rw 102, fd 7 0 .rw 97]⟩,
   /- PLT_THERM_STAT R499 -/ ⟨0x144, 1, 0, 1, 0, [fd 15 8 .ro 0, fd 7 4 .ro 0, fd 2 0 .ro 0]⟩,
   /- PLT_THERM_CNT R499 -/ ⟨0x180, 4, 4, 1, 0, [fd 31 0 .rc 0]⟩]⟩

/-- PLT_EVT (R58). -/
def pltEvtPage : PageDef :=
  ⟨0x8000, 1, 0x1000, false, false, false,
  [],
  [
   /- PLT_EVT_ROUTE R58 -/ ⟨0x100, 16, 4, 1, 0, [fd 31 31 .rw 0, fd 5 0 .rw 0]⟩,
   /- PLT_EVT_CAUSE R58 -/ ⟨0x140, 1, 0, 1, 0, [fd 15 0 .rc 0]⟩,
   /- PLT_EVT_HELD R58 -/ ⟨0x144, 1, 0, 1, 0, [fd 15 0 .ro 0]⟩]⟩

/-- PLT_MRAM (R484). -/
def pltMramPage : PageDef :=
  ⟨0x9000, 1, 0x1000, false, false, false,
  [⟨0, .corrected, 0, false⟩ /- MRAM_CE -/, ⟨1, .discard, 2, false⟩ /- MRAM_UE -/, ⟨2, .corrected, 3, false⟩ /- PROFILE_BAD -/, ⟨3, .corrected, 3, false⟩ /- FW_FALLBACK -/, ⟨4, .fence, 2, false⟩ /- FW_NONE -/],
  [
   /- PLT_MRAM_PROF R484 -/ ⟨0x100, 1, 0, 1, 0, [fd 10 8 .rw 0, fd 4 4 .ro 0, fd 2 0 .ro 0]⟩,
   /- PLT_MRAM_STAT R484 -/ ⟨0x104, 1, 0, 1, 0, [fd 2 2 .ro 0, fd 1 1 .ro 0, fd 0 0 .ro 0]⟩,
   /- PLT_MRAM_CNT R484 -/ ⟨0x140, 3, 4, 1, 0, [fd 31 0 .rc 0]⟩]⟩

/-- PLT_MG0 (R525). -/
def pltMg0Page : PageDef :=
  ⟨0xA000, 1, 0x1000, false, false, false,
  [],
  [
   /- MG0_REFCNT R525 -/ ⟨0x100, 1, 0, 1, 0, [fd 31 0 .ro 0]⟩,
   /- MG0_START R525 -/ ⟨0x104, 1, 0, 1, 0, [fd 15 0 .ro 0]⟩]⟩

/-- PLT_MG1 (R525). -/
def pltMg1Page : PageDef :=
  ⟨0xB000, 1, 0x1000, false, false, false,
  [],
  [
   /- MG1_CFG R525 -/ ⟨0x100, 1, 0, 1, 0, [fd 1 1 .rw 0, fd 0 0 .rw 0]⟩,
   /- MG1_GEN_LO R525 -/ ⟨0x104, 1, 0, 1, 0, [fd 31 0 .ro 0]⟩,
   /- MG1_GEN_HI R525 -/ ⟨0x108, 1, 0, 1, 0, [fd 31 0 .ro 0]⟩,
   /- MG1_GEN_SUB R525 -/ ⟨0x10C, 1, 0, 1, 0, [fd 7 0 .ro 0]⟩,
   /- MG1_GEN_CNT R525 -/ ⟨0x140, 1, 0, 1, 0, [fd 31 0 .rc 0]⟩]⟩

/-- PLT_MG2 (R525). -/
def pltMg2Page : PageDef :=
  ⟨0xC000, 1, 0x1000, false, false, false,
  [],
  [
   /- MG2_CFG R525 -/ ⟨0x100, 1, 0, 1, 0, [fd 0 0 .rw 0]⟩,
   /- MG2_IDCODE R525 -/ ⟨0x104, 1, 0, 1, 0, [fd 31 0 .ro 373361479]⟩]⟩

/-- PLT_MG3 (R525). -/
def pltMg3Page : PageDef :=
  ⟨0xD000, 1, 0x1000, false, false, false,
  [],
  [
   /- MG3_PF_LO R525 -/ ⟨0x100, 1, 0, 1, 0, [fd 31 0 .ro 0]⟩,
   /- MG3_PF_HI R525 -/ ⟨0x104, 1, 0, 1, 0, [fd 31 0 .ro 0]⟩,
   /- MG3_PF_CNT R525 -/ ⟨0x108, 1, 0, 1, 0, [fd 31 0 .ro 0]⟩]⟩

/-- PLT_DBG (R38). -/
def pltDbgPage : PageDef :=
  ⟨0x10000, 16, 0x1000, false, false, false,
  [],
  [
]⟩

/-- HAT_REG (R471). -/
def hatRegPage : PageDef :=
  ⟨0x100000, 1, 0x1000, false, false, false,
  [⟨0, .discard, 2, false⟩ /- LINK_DOWN -/, ⟨1, .corrected, 3, false⟩ /- LINK_DEGRADED -/, ⟨2, .corrected, 3, false⟩ /- FALLBACK -/, ⟨3, .hollow, 1, false⟩ /- POISON_RX -/, ⟨4, .corrected, 1, false⟩ /- RING_FULL -/],
  [
   /- HAT_LINK R471 -/ ⟨0x100, 1, 0, 1, 0, [fd 9 8 .ro 0, fd 5 4 .ro 0, fd 3 0 .ro 0]⟩,
   /- HAT_MEM_CFG R471 -/ ⟨0x104, 1, 0, 1, 0, [⟨9, 0, .rw, 960, 1, 960⟩]⟩,
   /- HAT_CNT R471 -/ ⟨0x140, 8, 4, 1, 0, [fd 31 0 .rc 0]⟩]⟩

/-- HAT_AQ (R471). -/
def hatAqPage : PageDef :=
  ⟨0x101000, 1, 0x1000, false, false, false,
  [],
  [
   /- HAT_AQ_CFG R471 -/ ⟨0x100, 1, 0, 1, 0, [fd 31 31 .rw 0, ⟨23, 16, .rw, 1, 1, 255⟩, fd 13 8 .rw 0, ⟨3, 0, .rw, 4, 4, 13⟩]⟩,
   /- HAT_AQ_BASE_LO R471 -/ ⟨0x104, 1, 0, 1, 0, [fd 31 0 .rw 0]⟩,
   /- HAT_AQ_BASE_HI R471 -/ ⟨0x108, 1, 0, 1, 0, [fd 31 0 .rw 0]⟩,
   /- HAT_AQ_TIME R471 -/ ⟨0x10C, 1, 0, 1, 0, [fd 11 0 .rw 40]⟩]⟩

/-- HAT_DB (R471). -/
def hatDbPage : PageDef :=
  ⟨0x102000, 1, 0x1000, false, false, false,
  [],
  [
   /- HAT_SQDB R471 -/ ⟨0x100, 64, 8, 1, 0, [fd 15 0 .wo 0]⟩,
   /- HAT_RHDB R471 -/ ⟨0x104, 64, 8, 1, 0, [fd 12 0 .wo 0]⟩,
   /- HAT_QSTAT R471 -/ ⟨0x400, 64, 8, 1, 0, [fd 31 30 .ro 0, fd 15 0 .ro 0]⟩,
   /- HAT_QOUT R471 -/ ⟨0x404, 64, 8, 1, 0, [fd 31 16 .ro 0, fd 15 0 .ro 0]⟩]⟩

/-- HAT_MSIX (R471). -/
def hatMsixPage : PageDef :=
  ⟨0x103000, 1, 0x1000, false, false, false,
  [],
  [
   /- MSIX_ADDR_LO R471 -/ ⟨0x800, 64, 16, 1, 0, [fd 31 0 .rw 0]⟩,
   /- MSIX_ADDR_HI R471 -/ ⟨0x804, 64, 16, 1, 0, [fd 31 0 .rw 0]⟩,
   /- MSIX_DATA R471 -/ ⟨0x808, 64, 16, 1, 0, [fd 31 0 .rw 0]⟩,
   /- MSIX_CTRL R471 -/ ⟨0x80C, 64, 16, 1, 0, [fd 0 0 .rw 1]⟩,
   /- MSIX_PBA R471 -/ ⟨0xC00, 2, 4, 1, 0, [fd 31 0 .ro 0]⟩]⟩

/-- SEQ_REG (R471). -/
def seqRegPage : PageDef :=
  ⟨0x200000, 1, 0x1000, false, false, false,
  [⟨0, .fence, 2, false⟩ /- CORE_FAIL -/],
  [
   /- SEQ_CORE_STAT R471 -/ ⟨0x100, 1, 0, 1, 0, [fd 15 8 .ro 0, fd 7 0 .ro 0]⟩]⟩

/-- SEQ_RL (R471). -/
def seqRlPage : PageDef :=
  ⟨0x201000, 1, 0x1000, false, false, false,
  [⟨0, .corrected, 1, false⟩ /- RL_FULL -/],
  [
   /- SEQ_RL_STAT R471 -/ ⟨0x100, 1, 0, 1, 0, [fd 31 16 .ro 0, fd 15 0 .ro 0]⟩,
   /- SEQ_RL_CNT R471 -/ ⟨0x140, 3, 4, 1, 0, [fd 31 0 .rc 0]⟩]⟩

/-- SEQ_MC (R160). -/
def seqMcPage : PageDef :=
  ⟨0x208000, 1, 0x1000, false, false, false,
  [⟨0, .corrected, 0, false⟩ /- CE -/, ⟨1, .corrected, 0, false⟩ /- L1_DUE -/, ⟨2, .corrected, 0, false⟩ /- L2_DUE_CLEAN -/, ⟨3, .hollow, 2, false⟩ /- DIRTY_UE -/, ⟨4, .corrected, 0, false⟩ /- TAG_PAR -/, ⟨5, .fence, 2, false⟩ /- TAG_UE -/, ⟨6, .corrected, 3, false⟩ /- HOLD_FULL -/, ⟨7, .hollow, 0, false⟩ /- POISON_FILL -/],
  [
   /- SEQ_MC_STAT R160 -/ ⟨0x100, 1, 0, 1, 0, [fd 8 8 .ro 0, fd 4 0 .ro 0]⟩,
   /- SEQ_MC_MAINT_ADDR_LO R160 -/ ⟨0x104, 1, 0, 1, 0, [fd 31 0 .rw 0]⟩,
   /- SEQ_MC_MAINT_ADDR_HI R160 -/ ⟨0x108, 1, 0, 1, 0, [fd 31 0 .rw 0]⟩,
   /- SEQ_MC_MAINT R160 -/ ⟨0x10C, 1, 0, 1, 0, [fd 31 30 .wo 0, fd 20 0 .wo 0]⟩,
   /- SEQ_MC_MAINT_STAT R160 -/ ⟨0x110, 1, 0, 1, 0, [fd 31 31 .ro 0, fd 20 0 .ro 0]⟩,
   /- SEQ_MC_WIN_BASE R160 -/ ⟨0x200, 8, 16, 1, 0, [fd 21 0 .rs 0]⟩,
   /- SEQ_MC_WIN_LIMIT R160 -/ ⟨0x204, 8, 16, 1, 0, [fd 21 0 .rs 0]⟩,
   /- SEQ_MC_WIN_CFG R160 -/ ⟨0x208, 8, 16, 1, 0, [fd 31 31 .rs 0, fd 30 30 .rs 0, fd 29 29 .rs 0, ⟨19, 16, .rs, 0, 0, 8⟩, fd 7 0 .rs 16]⟩,
   /- SEQ_MC_WIN_STAT R160 -/ ⟨0x20C, 8, 16, 1, 0, [fd 1 1 .ro 0, fd 0 0 .ro 0]⟩,
   /- SEQ_MC_CNT R161 -/ ⟨0x300, 14, 4, 1, 0, [fd 31 0 .rc 0]⟩,
   /- SEQ_MC_LAST_LO R161 -/ ⟨0x380, 1, 0, 1, 0, [fd 31 0 .ro 0]⟩,
   /- SEQ_MC_LAST_HI R161 -/ ⟨0x384, 1, 0, 1, 0, [fd 31 0 .ro 0]⟩,
   /- SEQ_MC_L1_CNT R161 -/ ⟨0x400, 10, 16, 4, 4, [fd 31 0 .rc 0]⟩]⟩

/-- ING_REG (R104). -/
def ingRegPage : PageDef :=
  ⟨0x300000, 1, 0x1000, false, false, false,
  [],
  [
   /- ING_TC R104 -/ ⟨0x100, 1, 0, 1, 0, [fd 31 0 .ro 0]⟩,
   /- ING_TC_STAT R104 -/ ⟨0x104, 1, 0, 1, 0, [fd 3 3 .ro 0, fd 2 0 .ro 0]⟩,
   /- ING_REG_MRR_HEAD R104 -/ ⟨0x108, 1, 0, 1, 0, [fd 31 0 .ro 0]⟩]⟩

/-- ING_LANE (R104). -/
def ingLanePage : PageDef :=
  ⟨0x301000, 4, 0x1000, false, false, false,
  [],
  [
   /- ING_LANE_CFG R104 -/ ⟨0x100, 16, 8, 1, 0, [fd 1 1 .rs 0, fd 0 0 .rs 0]⟩,
   /- ING_LANE_STAT R104 -/ ⟨0x104, 16, 8, 1, 0, [fd 31 24 .ro 0, fd 19 16 .ro 0, fd 2 0 .ro 0]⟩,
   /- ING_LANE_ERR R104 -/ ⟨0x200, 16, 4, 1, 0, [fd 31 16 .rc 0, fd 15 0 .rc 0]⟩]⟩

/-- ING_PROC (R104). -/
def ingProcPage : PageDef :=
  ⟨0x308000, 1, 0x1000, false, false, false,
  [⟨0, .fence, 2, false⟩ /- ENGINE_FAIL -/],
  [
   /- ING_PROC_BUSY R104 -/ ⟨0x100, 1, 0, 1, 0, [fd 23 16 .ro 0, fd 15 0 .ro 0]⟩,
   /- ING_PROC_FENCED R104 -/ ⟨0x104, 1, 0, 1, 0, [fd 23 16 .ro 0, fd 15 0 .ro 0]⟩,
   /- ING_PROC_CNT R104 -/ ⟨0x140, 5, 4, 1, 0, [fd 31 0 .rc 0]⟩]⟩

/-- ING_STR (R104). -/
def ingStrPage : PageDef :=
  ⟨0x310000, 32, 0x1000, true, true, false,
  [⟨0, .discard, 0, false⟩ /- HDR_CRC -/, ⟨1, .discard, 0, false⟩ /- PAY_CRC -/, ⟨2, .discard, 0, false⟩ /- FORMAT -/, ⟨3, .discard, 0, false⟩ /- LATE -/, ⟨4, .discard, 1, false⟩ /- OVERRUN -/, ⟨5, .discard, 1, false⟩ /- LANE_LOST -/, ⟨6, .discard, 1, false⟩ /- SKEW -/, ⟨7, .hollow, 1, false⟩ /- TIMEOUT -/, ⟨8, .hollow, 1, false⟩ /- OPEN_EVICT -/, ⟨9, .corrected, 1, false⟩ /- SES_IGN -/, ⟨10, .hollow, 3, false⟩ /- MISMATCH -/, ⟨11, .corrected, 3, false⟩ /- PATH_DEGRADED -/, ⟨12, .hollow, 1, false⟩ /- CODEC_HOLLOW -/, ⟨13, .discard, 1, false⟩ /- NO_BUFFER -/],
  [
   /- ING_STR_BOND R104 -/ ⟨0x100, 1, 0, 1, 0, [fd 19 19 .rs 0, ⟨18, 16, .rs, 0, 0, 4⟩, fd 13 8 .rs 0, fd 7 6 .rs 3, fd 5 0 .rs 0]⟩,
   /- ING_STR_FRAME R104 -/ ⟨0x104, 1, 0, 1, 0, [⟨30, 22, .rs, 0, 0, 256⟩, ⟨21, 0, .rs, 1, 1, 2097152⟩]⟩,
   /- ING_STR_TIME R104 -/ ⟨0x108, 1, 0, 1, 0, [⟨31, 24, .rs, 4, 1, 255⟩, ⟨11, 0, .rs, 400, 1, 4095⟩]⟩,
   /- ING_STR_FLOW R104 -/ ⟨0x10C, 1, 0, 1, 0, [fd 31 28 .rs 0, ⟨9, 0, .rs, 512, 1, 512⟩]⟩,
   /- ING_STR_RING R104 -/ ⟨0x110, 1, 0, 1, 0, [⟨21, 0, .rs, 0, 0, 3145728⟩]⟩,
   /- ING_STR_FMT R104 -/ ⟨0x114, 1, 0, 1, 0, [fd 31 16 .rs 0, ⟨5, 4, .rs, 0, 0, 1⟩, ⟨3, 0, .rs, 0, 0, 4⟩]⟩,
   /- ING_STR_CODEC R104 -/ ⟨0x118, 1, 0, 1, 0, [⟨31, 16, .rs, 256, 1, 65535⟩, fd 15 10 .rs 0, fd 2 2 .rs 0, fd 1 1 .rs 1, fd 0 0 .rs 1]⟩,
   /- ING_STR_STAT R104 -/ ⟨0x11C, 1, 0, 1, 0, [fd 31 28 .ro 0, fd 19 16 .ro 0, fd 11 10 .ro 0, fd 9 8 .ro 0, fd 0 0 .ro 0]⟩,
   /- ING_STR_WM_PN R104 -/ ⟨0x120, 1, 0, 1, 0, [fd 31 0 .ro 0]⟩,
   /- ING_STR_WM_FRAME R104 -/ ⟨0x124, 1, 0, 1, 0, [fd 31 0 .ro 0]⟩,
   /- ING_STR_PN R104 -/ ⟨0x128, 1, 0, 1, 0, [fd 31 0 .ro 0]⟩,
   /- ING_STR_LAST_LO R104 -/ ⟨0x12C, 1, 0, 1, 0, [fd 31 0 .ro 0]⟩,
   /- ING_STR_LAST_HI R104 -/ ⟨0x130, 1, 0, 1, 0, [fd 31 0 .ro 0]⟩,
   /- ING_STR_CNT R104 -/ ⟨0x140, 13, 4, 1, 0, [fd 31 0 .rc 0]⟩]⟩

/-- ING_SES (R104). -/
def ingSesPage : PageDef :=
  ⟨0x330000, 32, 0x1000, false, false, false,
  [],
  [
   /- ING_SES_STREAMS R104 -/ ⟨0x100, 1, 0, 1, 0, [fd 31 0 .rs 0]⟩,
   /- ING_SES_CFG R104 -/ ⟨0x104, 1, 0, 1, 0, [fd 31 31 .rs 0, fd 30 30 .rs 0, fd 29 26 .rs 0, fd 25 25 .rs 0, fd 24 24 .ro 0, fd 23 0 .rs 0]⟩,
   /- ING_SES_VOL R104 -/ ⟨0x108, 1, 0, 1, 0, [fd 5 0 .rs 0]⟩,
   /- ING_SES_TC R104 -/ ⟨0x10C, 1, 0, 1, 0, [fd 31 0 .rs 0]⟩,
   /- ING_SES_CTRL R104 -/ ⟨0x110, 1, 0, 1, 0, [fd 2 0 .wo 0]⟩,
   /- ING_SES_STAT R104 -/ ⟨0x114, 1, 0, 1, 0, [fd 10 8 .ro 0, fd 1 0 .ro 0]⟩,
   /- ING_SES_TAKE R104 -/ ⟨0x118, 1, 0, 1, 0, [fd 31 0 .ro 0]⟩,
   /- ING_SES_TRIG_LO R104 -/ ⟨0x11C, 1, 0, 1, 0, [fd 31 0 .ro 0]⟩,
   /- ING_SES_TRIG_HI R104 -/ ⟨0x120, 1, 0, 1, 0, [fd 31 0 .ro 0]⟩,
   /- ING_SES_TRIG_SUB R104 -/ ⟨0x124, 1, 0, 1, 0, [fd 7 0 .ro 0]⟩,
   /- ING_SES_CNT_IGN R104 -/ ⟨0x128, 1, 0, 1, 0, [fd 31 0 .rc 0]⟩]⟩

/-- CST_REG (R141). -/
def cstRegPage : PageDef :=
  ⟨0x400000, 1, 0x1000, false, false, false,
  [⟨0, .corrected, 0, false⟩ /- ZT_EVICT -/, ⟨1, .hollow, 0, false⟩ /- MERGE_HOLLOW -/, ⟨2, .hollow, 2, false⟩ /- GVB_UE -/],
  [
   /- CST_SCRUB_CTRL R141 -/ ⟨0x100, 1, 0, 1, 0, [fd 16 16 .rw 1, ⟨8, 0, .rw, 64, 0, 312⟩]⟩,
   /- CST_SCRUB_PTR R141 -/ ⟨0x104, 1, 0, 1, 0, [fd 31 0 .ro 0]⟩,
   /- CST_SCRUB_PASS R141 -/ ⟨0x108, 1, 0, 1, 0, [fd 31 0 .ro 0]⟩,
   /- CST_MERGE_CFG R141 -/ ⟨0x10C, 1, 0, 1, 0, [⟨5, 0, .rw, 32, 1, 32⟩]⟩,
   /- CST_CNT R141 -/ ⟨0x140, 8, 4, 1, 0, [fd 31 0 .rc 0]⟩,
   /- CST_CNT8 R141 -/ ⟨0x160, 1, 0, 1, 0, [fd 31 0 .ro 0]⟩,
   /- CST_LAST_UE_LO R141 -/ ⟨0x180, 1, 0, 1, 0, [fd 31 0 .ro 0]⟩,
   /- CST_LAST_UE_HI R141 -/ ⟨0x184, 1, 0, 1, 0, [fd 31 0 .ro 0]⟩]⟩

/-- CST_STK (R141). -/
def cstStkPage : PageDef :=
  ⟨0x401000, 4, 0x1000, false, true, false,
  [⟨0, .corrected, 0, false⟩ /- CE -/, ⟨1, .hollow, 1, false⟩ /- UE -/, ⟨2, .hollow, 1, false⟩ /- SCRUB_UE -/, ⟨3, .corrected, 0, false⟩ /- PARITY_RETRY -/, ⟨4, .corrected, 0, false⟩ /- ODECC -/, ⟨5, .corrected, 0, false⟩ /- REF2X -/, ⟨6, .fence, 2, false⟩ /- TRAIN_FAIL -/, ⟨7, .fence, 2, false⟩ /- STACK_FAIL -/],
  [
   /- CST_STK_STAT R141 -/ ⟨0x100, 1, 0, 1, 0, [fd 23 16 .ro 0, fd 8 8 .ro 0, fd 5 0 .ro 0]⟩,
   /- CST_STK_TRAIN R141 -/ ⟨0x104, 1, 0, 1, 0, [fd 1 0 .ro 0]⟩,
   /- CST_STK_CNT R141 -/ ⟨0x140, 5, 4, 1, 0, [fd 31 0 .rc 0]⟩]⟩

/-- BPM_REG (R141). -/
def bpmRegPage : PageDef :=
  ⟨0x500000, 1, 0x1000, false, false, false,
  [⟨0, .discard, 1, false⟩ /- HANDLE_FREE -/, ⟨1, .discard, 1, false⟩ /- HANDLE_GEN -/, ⟨2, .discard, 1, false⟩ /- HANDLE_OWNER -/, ⟨3, .discard, 1, false⟩ /- HANDLE_SHARED -/, ⟨4, .discard, 0, false⟩ /- ADDR -/, ⟨5, .discard, 0, false⟩ /- FREE_IGNORED -/, ⟨6, .discard, 1, false⟩ /- HOSTW_DROP -/, ⟨7, .discard, 0, false⟩ /- SHARE_FULL -/, ⟨8, .corrected, 0, false⟩ /- BUFTAB_CE -/, ⟨9, .hollow, 2, false⟩ /- BUFTAB_UE -/, ⟨10, .corrected, 1, false⟩ /- REVOKE -/],
  [
   /- BPM_OP R141 -/ ⟨0x100, 1, 0, 1, 0, [fd 31 28 .wo 0, fd 27 22 .wo 0, fd 21 16 .wo 0, fd 15 15 .wo 0]⟩,
   /- BPM_OP_HANDLE R141 -/ ⟨0x104, 1, 0, 1, 0, [fd 31 0 .rw 0]⟩,
   /- BPM_OP_ADDR_LO R141 -/ ⟨0x108, 1, 0, 1, 0, [fd 31 0 .rw 0]⟩,
   /- BPM_OP_ADDR_HI R141 -/ ⟨0x10C, 1, 0, 1, 0, [fd 31 0 .rw 0]⟩,
   /- BPM_OP_MASK_LO R141 -/ ⟨0x110, 1, 0, 1, 0, [fd 31 0 .rw 0]⟩,
   /- BPM_OP_MASK_HI R141 -/ ⟨0x114, 1, 0, 1, 0, [fd 31 0 .rw 0]⟩,
   /- BPM_OP_RESULT R141 -/ ⟨0x118, 1, 0, 1, 0, [fd 31 0 .ro 4294967295]⟩,
   /- BPM_OP_STATUS R141 -/ ⟨0x11C, 1, 0, 1, 0, [fd 2 0 .ro 0]⟩,
   /- BPM_STAT R141 -/ ⟨0x120, 1, 0, 1, 0, [fd 24 24 .ro 0, fd 22 0 .ro 4177920]⟩,
   /- BPM_CNT R141 -/ ⟨0x140, 9, 4, 1, 0, [fd 31 0 .rc 0]⟩]⟩

/-- BPM_POOL (R141). -/
def bpmPoolPage : PageDef :=
  ⟨0x501000, 16, 0x1000, false, false, false,
  [⟨0, .corrected, 0, false⟩ /- WARN -/, ⟨1, .corrected, 1, false⟩ /- PRESSURE -/, ⟨2, .corrected, 3, false⟩ /- CRITICAL -/, ⟨3, .corrected, 0, false⟩ /- NONE -/, ⟨4, .corrected, 1, false⟩ /- NO_SPACE -/],
  [
   /- BPM_POOL_SIZE R141 -/ ⟨0x100, 1, 0, 1, 0, [fd 22 0 .rs 0]⟩,
   /- BPM_POOL_CFG R141 -/ ⟨0x104, 1, 0, 1, 0, [fd 27 24 .rs 15, fd 22 0 .rs 16384]⟩,
   /- BPM_POOL_WARN R141 -/ ⟨0x108, 1, 0, 1, 0, [fd 22 0 .rs 0]⟩,
   /- BPM_POOL_PRESS R141 -/ ⟨0x10C, 1, 0, 1, 0, [fd 22 0 .rs 0]⟩,
   /- BPM_POOL_CRIT R141 -/ ⟨0x110, 1, 0, 1, 0, [fd 22 0 .rs 0]⟩,
   /- BPM_POOL_USED R141 -/ ⟨0x114, 1, 0, 1, 0, [fd 22 0 .ro 0]⟩,
   /- BPM_POOL_SPARE R141 -/ ⟨0x118, 1, 0, 1, 0, [fd 22 0 .ro 0]⟩,
   /- BPM_POOL_STAT R141 -/ ⟨0x11C, 1, 0, 1, 0, [fd 3 3 .ro 0, fd 2 2 .ro 0, fd 1 1 .ro 0, fd 0 0 .ro 0]⟩]⟩

/-- BPM_OWN (R141). -/
def bpmOwnPage : PageDef :=
  ⟨0x520000, 64, 0x1000, false, false, false,
  [],
  [
   /- BPM_OWN_CFG R141 -/ ⟨0x100, 1, 0, 1, 0, [fd 31 28 .rs 0, fd 27 24 .rs 0, fd 5 0 .rs 0]⟩,
   /- BPM_OWN_RSV R141 -/ ⟨0x104, 1, 0, 1, 0, [fd 22 0 .rs 0]⟩,
   /- BPM_OWN_HELD R141 -/ ⟨0x108, 1, 0, 1, 0, [fd 22 0 .ro 0]⟩,
   /- BPM_OWN_GRANTED R141 -/ ⟨0x10C, 1, 0, 1, 0, [fd 22 0 .ro 0]⟩]⟩

/-- SFL_REG (R209). -/
def sflRegPage : PageDef :=
  ⟨0x600000, 1, 0x1000, false, false, false,
  [⟨0, .corrected, 3, false⟩ /- SPACE_LOW -/, ⟨1, .corrected, 1, false⟩ /- JRN_HIGH -/, ⟨2, .corrected, 1, false⟩ /- CKPT_FAIL -/, ⟨3, .hollow, 2, false⟩ /- MAP_LOST -/, ⟨4, .hollow, 1, false⟩ /- KEY_MISSING -/, ⟨5, .hollow, 3, false⟩ /- KEY_MISMATCH -/, ⟨6, .corrected, 0, false⟩ /- SCAN_FOUND -/],
  [
   /- SFL_STAT R209 -/ ⟨0x100, 1, 0, 1, 0, [fd 1 0 .ro 0]⟩,
   /- SFL_SEQ_LO R209 -/ ⟨0x104, 1, 0, 1, 0, [fd 31 0 .ro 0]⟩,
   /- SFL_SEQ_HI R209 -/ ⟨0x108, 1, 0, 1, 0, [fd 15 0 .ro 0]⟩,
   /- SFL_TIME R209 -/ ⟨0x10C, 1, 0, 1, 0, [fd 31 0 .rw 0]⟩,
   /- SFL_CAP_LO R209 -/ ⟨0x110, 1, 0, 1, 0, [fd 31 0 .ro 0]⟩,
   /- SFL_CAP_HI R209 -/ ⟨0x114, 1, 0, 1, 0, [fd 31 0 .ro 0]⟩,
   /- SFL_VALID_LO R209 -/ ⟨0x118, 1, 0, 1, 0, [fd 31 0 .ro 0]⟩,
   /- SFL_VALID_HI R209 -/ ⟨0x11C, 1, 0, 1, 0, [fd 31 0 .ro 0]⟩,
   /- SFL_REBUILD_TIME R209 -/ ⟨0x120, 1, 0, 1, 0, [fd 31 0 .ro 0]⟩,
   /- SFL_REBUILD_SCAN R209 -/ ⟨0x124, 1, 0, 1, 0, [fd 31 0 .ro 0]⟩,
   /- SFL_CNT R209 -/ ⟨0x140, 13, 4, 1, 0, [fd 31 0 .rc 0]⟩]⟩

/-- SFL_FC (R209). -/
def sflFcPage : PageDef :=
  ⟨0x601000, 32, 0x1000, false, true, false,
  [⟨0, .corrected, 1, false⟩ /- PROG_FAIL -/, ⟨1, .corrected, 1, false⟩ /- ERASE_FAIL -/, ⟨2, .corrected, 0, false⟩ /- READ_RETRY -/, ⟨3, .corrected, 1, false⟩ /- READ_RECON -/, ⟨4, .hollow, 3, false⟩ /- READ_LOST -/, ⟨5, .discard, 1, false⟩ /- TIMEOUT -/, ⟨6, .fence, 2, false⟩ /- LUN_FAIL -/, ⟨7, .fence, 2, false⟩ /- TRAIN_FAIL -/, ⟨8, .corrected, 3, false⟩ /- BAD_LIMIT -/, ⟨9, .discard, 1, false⟩ /- ID_MISMATCH -/],
  [
   /- SFL_FC_CFG R209 -/ ⟨0x100, 1, 0, 1, 0, [fd 23 16 .rs 0, fd 15 8 .rs 16, fd 3 2 .rs 1, fd 1 0 .rs 1]⟩,
   /- SFL_FC_CE R209 -/ ⟨0x104, 8, 4, 1, 0, [fd 23 16 .ro 0, fd 11 8 .ro 0, fd 5 4 .ro 0, fd 1 0 .ro 0]⟩,
   /- SFL_FC_STAT R209 -/ ⟨0x124, 1, 0, 1, 0, [fd 31 16 .ro 0, fd 1 0 .ro 0]⟩,
   /- SFL_FC_CNT R209 -/ ⟨0x140, 8, 4, 1, 0, [fd 31 0 .rc 0]⟩]⟩

/-- SFL_DIE (R209). -/
def sflDiePage : PageDef :=
  ⟨0x640000, 4, 0x1000, false, false, false,
  [],
  [
   /- SFL_DIE_ID0 R209 -/ ⟨0x100, 1, 0, 1, 0, [fd 31 0 .rs 0]⟩,
   /- SFL_DIE_ID1 R209 -/ ⟨0x104, 1, 0, 1, 0, [fd 15 0 .rs 0]⟩,
   /- SFL_DIE_GEOM R209 -/ ⟨0x108, 1, 0, 1, 0, [fd 31 31 .rs 0, fd 30 28 .rs 0, fd 27 16 .rs 0, fd 15 0 .rs 0]⟩,
   /- SFL_DIE_IF R209 -/ ⟨0x10C, 1, 0, 1, 0, [fd 31 31 .rs 0, ⟨30, 28, .rs, 0, 0, 2⟩, ⟨21, 16, .rs, 4, 4, 36⟩, fd 15 0 .rs 0]⟩,
   /- SFL_DIE_TPROG R209 -/ ⟨0x110, 1, 0, 1, 0, [fd 15 0 .rs 0]⟩,
   /- SFL_DIE_TBERS R209 -/ ⟨0x114, 1, 0, 1, 0, [fd 15 0 .rs 0]⟩,
   /- SFL_DIE_TR R209 -/ ⟨0x118, 1, 0, 1, 0, [fd 15 0 .rs 0]⟩,
   /- SFL_DIE_FEAT R209 -/ ⟨0x11C, 1, 0, 1, 0, [fd 31 24 .rs 0, fd 23 16 .rs 0, ⟨15, 12, .rs, 4, 0, 8⟩, fd 7 0 .rs 4]⟩,
   /- SFL_DIE_THR R209 -/ ⟨0x800, 256, 4, 1, 0, [fd 31 24 .rs 0, fd 23 16 .rs 0, fd 15 8 .rs 0, fd 7 0 .rs 0]⟩]⟩

/-- SFL_MAP (R209). -/
def sflMapPage : PageDef :=
  ⟨0x650000, 1, 0x1000, false, false, false,
  [],
  [
   /- SFL_MAP_BASE R209 -/ ⟨0x100, 1, 0, 1, 0, [fd 31 0 .ro 0]⟩,
   /- SFL_DIR_BASE R209 -/ ⟨0x104, 1, 0, 1, 0, [fd 31 0 .ro 0]⟩,
   /- SFL_MAP_CFG R209 -/ ⟨0x108, 1, 0, 1, 0, [⟨11, 0, .rs, 400, 1, 4000⟩]⟩,
   /- SFL_MAP_STAT R209 -/ ⟨0x10C, 1, 0, 1, 0, [fd 31 16 .ro 0, fd 15 0 .ro 0]⟩]⟩

/-- SFL_GC (R209). -/
def sflGcPage : PageDef :=
  ⟨0x651000, 1, 0x1000, false, false, false,
  [],
  [
   /- SFL_GC_CFG R209 -/ ⟨0x100, 1, 0, 1, 0, [fd 31 24 .rs 8, fd 23 16 .rs 4, fd 15 8 .rs 2, ⟨7, 4, .rs, 4, 1, 15⟩]⟩,
   /- SFL_WEAR_CFG R209 -/ ⟨0x104, 1, 0, 1, 0, [⟨31, 16, .rs, 200, 1, 65535⟩, ⟨11, 8, .rs, 14, 1, 15⟩]⟩,
   /- SFL_GC_STAT R209 -/ ⟨0x108, 1, 0, 1, 0, [fd 23 16 .ro 0, fd 1 0 .ro 0]⟩,
   /- SFL_GC_SRC R209 -/ ⟨0x10C, 1, 0, 1, 0, [fd 31 0 .ro 0]⟩,
   /- SFL_GC_DST R209 -/ ⟨0x110, 1, 0, 1, 0, [fd 31 0 .ro 0]⟩,
   /- SFL_WEAR_STAT R209 -/ ⟨0x114, 1, 0, 1, 0, [fd 31 16 .ro 0, fd 15 0 .ro 0]⟩]⟩

/-- SFL_JRN (R209). -/
def sflJrnPage : PageDef :=
  ⟨0x652000, 1, 0x1000, false, false, false,
  [],
  [
   /- SFL_JRN_CFG R209 -/ ⟨0x100, 1, 0, 1, 0, [⟨11, 0, .rs, 400, 40, 4000⟩]⟩,
   /- SFL_JRN_STAT R209 -/ ⟨0x104, 1, 0, 1, 0, [fd 31 31 .ro 0, fd 19 0 .ro 0]⟩,
   /- SFL_JRN_CKPT R209 -/ ⟨0x108, 1, 0, 1, 0, [fd 31 0 .ro 0]⟩,
   /- SFL_JRN_CTRL R209 -/ ⟨0x10C, 1, 0, 1, 0, [fd 31 24 .wo 0, fd 1 1 .wo 0, fd 0 0 .wo 0]⟩]⟩

/-- SFL_AES (R209). -/
def sflAesPage : PageDef :=
  ⟨0x653000, 1, 0x1000, false, false, false,
  [],
  [
   /- SFL_AES_BUSY R209 -/ ⟨0x100, 1, 0, 1, 0, [fd 7 0 .ro 0]⟩,
   /- SFL_AES_CNT R209 -/ ⟨0x140, 4, 4, 1, 0, [fd 31 0 .rc 0]⟩,
   /- SFL_AES_KEYID R209 -/ ⟨0x200, 64, 4, 1, 0, [fd 31 0 .ro 0]⟩]⟩

/-- SFL_VOL (R209). -/
def sflVolPage : PageDef :=
  ⟨0x660000, 64, 0x1000, false, false, false,
  [⟨0, .corrected, 3, false⟩ /- VOL_FULL -/],
  [
   /- SFL_VOL_BASE R209 -/ ⟨0x100, 1, 0, 1, 0, [fd 21 0 .rs 0]⟩,
   /- SFL_VOL_SIZE R209 -/ ⟨0x104, 1, 0, 1, 0, [fd 22 0 .rs 0]⟩,
   /- SFL_VOL_CFG R209 -/ ⟨0x108, 1, 0, 1, 0, [fd 31 31 .rs 0, fd 29 24 .rs 0, fd 19 0 .rs 0]⟩,
   /- SFL_VOL_APPEND_LO R209 -/ ⟨0x10C, 1, 0, 1, 0, [fd 31 0 .ro 0]⟩,
   /- SFL_VOL_APPEND_HI R209 -/ ⟨0x110, 1, 0, 1, 0, [fd 15 0 .ro 0]⟩,
   /- SFL_VOL_IDX_NEXT R209 -/ ⟨0x114, 1, 0, 1, 0, [fd 31 0 .ro 0]⟩]⟩

/-- PAR_REG (R246). -/
def parRegPage : PageDef :=
  ⟨0x700000, 1, 0x1000, false, false, false,
  [⟨0, .fence, 2, false⟩ /- ENGINE_FAIL -/, ⟨1, .corrected, 3, false⟩ /- NO_SET -/],
  [
   /- PAR_REG_CFG R246 -/ ⟨0x100, 1, 0, 1, 0, [fd 2 0 .rs 0]⟩,
   /- PAR_ENG_FENCED R246 -/ ⟨0x104, 1, 0, 1, 0, [fd 15 0 .ro 0]⟩,
   /- PAR_CNT R246 -/ ⟨0x140, 6, 4, 1, 0, [fd 31 0 .rc 0]⟩]⟩

/-- PAR_SET (R246). -/
def parSetPage : PageDef :=
  ⟨0x701000, 8, 0x1000, true, false, false,
  [⟨0, .corrected, 3, false⟩ /- MEMBER_LOST -/, ⟨1, .corrected, 3, false⟩ /- SET_CRITICAL -/, ⟨2, .corrected, 0, false⟩ /- RECON -/, ⟨3, .corrected, 1, false⟩ /- UNCOVERED -/, ⟨4, .hollow, 3, false⟩ /- STRIPE_HOLLOW -/, ⟨5, .corrected, 1, false⟩ /- PARITY_MISMATCH -/, ⟨6, .corrected, 1, false⟩ /- RESHAPE_ABANDON -/],
  [
   /- PAR_SET_MEM R246 -/ ⟨0x100, 1, 0, 1, 0, [fd 31 0 .rs 0]⟩,
   /- PAR_SET_CFG R246 -/ ⟨0x104, 1, 0, 1, 0, [fd 31 31 .rs 0, fd 30 30 .rs 1, fd 29 27 .rs 0, ⟨11, 0, .rs, 40, 1, 4000⟩]⟩,
   /- PAR_SET_VOL_LO R246 -/ ⟨0x108, 1, 0, 1, 0, [fd 31 0 .rs 0]⟩,
   /- PAR_SET_VOL_HI R246 -/ ⟨0x10C, 1, 0, 1, 0, [fd 31 0 .rs 0]⟩,
   /- PAR_SET_RATE R246 -/ ⟨0x110, 1, 0, 1, 0, [⟨31, 16, .rs, 128, 1, 65535⟩, ⟨15, 0, .rs, 128, 1, 65535⟩]⟩,
   /- PAR_SET_STAT R246 -/ ⟨0x114, 1, 0, 1, 0, [fd 23 16 .ro 0, fd 8 8 .ro 0, fd 5 4 .ro 0, fd 3 0 .ro 0]⟩,
   /- PAR_SET_LOST R246 -/ ⟨0x118, 1, 0, 1, 0, [fd 31 0 .ro 0]⟩,
   /- PAR_SET_STALE R246 -/ ⟨0x11C, 1, 0, 1, 0, [fd 31 0 .ro 0]⟩,
   /- PAR_SET_CUR R246 -/ ⟨0x120, 1, 0, 1, 0, [fd 31 0 .ro 0]⟩,
   /- PAR_SET_CNT R246 -/ ⟨0x140, 5, 4, 1, 0, [fd 31 0 .rc 0]⟩]⟩

/-- PAR_SJ (R246). -/
def parSjPage : PageDef :=
  ⟨0x709000, 1, 0x1000, false, false, false,
  [⟨0, .corrected, 2, false⟩ /- BANK_FAIL -/, ⟨1, .corrected, 1, false⟩ /- SHADOW_MOVED -/, ⟨2, .corrected, 1, false⟩ /- SJ_FULL -/, ⟨3, .corrected, 3, false⟩ /- SHADOW_ONLY -/],
  [
   /- PAR_SJ_CFG R246 -/ ⟨0x100, 1, 0, 1, 0, [fd 28 24 .rs 0, ⟨11, 0, .rs, 400, 40, 4000⟩]⟩,
   /- PAR_SJ_STAT R246 -/ ⟨0x104, 1, 0, 1, 0, [fd 31 31 .ro 1, fd 30 30 .ro 1, fd 29 29 .ro 0, fd 28 24 .ro 0, fd 16 0 .ro 0]⟩,
   /- PAR_SJ_SNAP R246 -/ ⟨0x108, 1, 0, 1, 0, [fd 31 0 .ro 0]⟩]⟩

/-- PAR_DISC (R246). -/
def parDiscPage : PageDef :=
  ⟨0x70A000, 1, 0x1000, false, false, false,
  [⟨0, .corrected, 1, false⟩ /- STAGE_FULL -/, ⟨1, .corrected, 1, false⟩ /- RECOMPUTE -/, ⟨2, .corrected, 0, false⟩ /- DISC_RECON -/, ⟨3, .hollow, 3, false⟩ /- DISC_HOLLOW -/],
  [
   /- PAR_DISC_STAGE R246 -/ ⟨0x100, 1, 0, 1, 0, [⟨30, 24, .rs, 0, 0, 64⟩, fd 21 0 .rs 0]⟩,
   /- PAR_DISC_STAT R246 -/ ⟨0x104, 1, 0, 1, 0, [fd 6 0 .ro 0]⟩,
   /- PAR_DISC_CNT R246 -/ ⟨0x140, 5, 4, 1, 0, [fd 31 0 .rc 0]⟩]⟩

/-- ODR_REG (R278). -/
def odrRegPage : PageDef :=
  ⟨0x800000, 1, 0x1000, false, false, false,
  [⟨0, .hollow, 2, false⟩ /- CAT_LOST -/],
  [
   /- ODR_CAT_CFG R278 -/ ⟨0x100, 1, 0, 1, 0, [fd 31 31 .rs 0, fd 21 0 .rs 0]⟩,
   /- ODR_CAT_STAT R278 -/ ⟨0x104, 1, 0, 1, 0, [fd 16 0 .ro 0]⟩]⟩

/-- ODR_DRV (R278). -/
def odrDrvPage : PageDef :=
  ⟨0x801000, 4, 0x1000, false, true, true,
  [⟨0, .discard, 1, false⟩ /- FIB_BAD -/, ⟨1, .discard, 1, false⟩ /- FORMAT_MISMATCH -/, ⟨2, .discard, 3, false⟩ /- FOREIGN -/, ⟨3, .corrected, 3, false⟩ /- DDL_UE -/, ⟨4, .corrected, 3, false⟩ /- SPARE_LOW -/, ⟨5, .corrected, 3, false⟩ /- SPARE_EXHAUSTED -/, ⟨6, .corrected, 3, false⟩ /- DDL_FULL -/, ⟨7, .corrected, 1, false⟩ /- SPOILT_AT_LOAD -/, ⟨8, .corrected, 0, false⟩ /- REALLOC -/],
  [
   /- DRV_CTRL R278 -/ ⟨0x100, 1, 0, 1, 0, [fd 2 2 .rw 0, fd 1 1 .rw 1, fd 0 0 .rw 0]⟩,
   /- DRV_STAT R278 -/ ⟨0x104, 1, 0, 1, 0, [fd 19 16 .ro 15, fd 9 8 .ro 0, fd 3 3 .ro 0, fd 2 0 .ro 0]⟩,
   /- DRV_SHELL R278 -/ ⟨0x108, 1, 0, 1, 0, [fd 15 0 .ro 0]⟩,
   /- DRV_NWB R278 -/ ⟨0x10C, 1, 0, 1, 0, [fd 25 0 .ro 0]⟩,
   /- DRV_DDL R278 -/ ⟨0x110, 1, 0, 1, 0, [fd 27 16 .ro 0, fd 12 0 .ro 0]⟩,
   /- DRV_SPARE R278 -/ ⟨0x114, 1, 0, 1, 0, [fd 19 0 .ro 0]⟩,
   /- DRV_SPARE_WARN R278 -/ ⟨0x118, 1, 0, 1, 0, [fd 19 0 .rw 2048]⟩,
   /- DRV_CNT R278 -/ ⟨0x140, 6, 4, 1, 0, [fd 31 0 .rc 0]⟩]⟩

/-- ODR_LDR (R278). -/
def odrLdrPage : PageDef :=
  ⟨0x808000, 1, 0x1000, false, false, false,
  [⟨0, .corrected, 3, false⟩ /- NO_SHELL -/, ⟨1, .corrected, 3, false⟩ /- WRONG_SHELL -/, ⟨2, .corrected, 1, false⟩ /- DISC_ABSENT -/, ⟨3, .discard, 3, false⟩ /- CAT_FULL -/, ⟨4, .fence, 2, false⟩ /- AXIS_FAIL -/],
  [
   /- LDR_CFG R278 -/ ⟨0x100, 1, 0, 1, 0, [fd 31 16 .rs 0, fd 15 8 .rs 0, ⟨6, 0, .rs, 80, 1, 80⟩]⟩,
   /- LDR_CTRL R278 -/ ⟨0x104, 1, 0, 1, 0, [fd 2 0 .wo 0]⟩,
   /- LDR_STAT R278 -/ ⟨0x108, 1, 0, 1, 0, [fd 3 0 .ro 0]⟩,
   /- LDR_BAY R278 -/ ⟨0x10C, 1, 0, 1, 0, [fd 31 31 .ro 0, fd 27 16 .ro 0, fd 15 0 .ro 0]⟩,
   /- LDR_SLOT R278 -/ ⟨0x200, 80, 4, 1, 0, [fd 31 31 .ro 0, fd 30 30 .ro 0, fd 15 0 .ro 0]⟩]⟩

/-- ODR_HL (R309). -/
def odrHlPage : PageDef :=
  ⟨0x810000, 4, 0x1000, false, false, true,
  [⟨0, .discard, 0, false⟩ /- HL_CRC -/, ⟨1, .discard, 0, false⟩ /- SAMPLE_GAP -/, ⟨2, .discard, 1, false⟩ /- LINK_LOST -/, ⟨3, .fence, 2, false⟩ /- HEAD_FAULT -/, ⟨4, .corrected, 0, false⟩ /- GAIN_ECHO -/, ⟨5, .discard, 1, false⟩ /- VERSION -/],
  [
   /- HL_CFG R309 -/ ⟨0x100, 1, 0, 1, 0, [fd 8 8 .ro 0, fd 7 4 .rs 0, fd 3 0 .rs 0]⟩,
   /- HL_LANE_STAT R309 -/ ⟨0x104, 4, 4, 1, 0, [fd 31 24 .ro 0, fd 2 0 .ro 0]⟩,
   /- HL_SRATE R309 -/ ⟨0x114, 1, 0, 1, 0, [fd 31 0 .ro 0]⟩,
   /- HL_HEAD R309 -/ ⟨0x118, 1, 0, 1, 0, [fd 31 16 .ro 0, fd 15 8 .ro 0, fd 7 0 .ro 0]⟩,
   /- HL_CNT R309 -/ ⟨0x140, 8, 4, 1, 0, [fd 31 0 .rc 0]⟩]⟩

/-- ODR_RC (R309). -/
def odrRcPage : PageDef :=
  ⟨0x814000, 4, 0x1000, false, false, true,
  [⟨0, .corrected, 0, false⟩ /- RETRY -/, ⟨1, .corrected, 1, false⟩ /- RECOVERY -/, ⟨2, .corrected, 1, false⟩ /- RECON_L7 -/, ⟨3, .corrected, 0, false⟩ /- RS_FILL -/, ⟨4, .corrected, 1, false⟩ /- MISCORRECT -/, ⟨5, .discard, 1, false⟩ /- TSF_LOST -/, ⟨6, .discard, 1, false⟩ /- ADDR_MISMATCH -/, ⟨7, .corrected, 1, false⟩ /- REALLOC_SKIP -/, ⟨8, .hollow, 3, false⟩ /- UNREADABLE -/],
  [
   /- RC_CFG R309 -/ ⟨0x100, 1, 0, 1, 0, [fd 31 31 .rs 1, fd 30 30 .rs 1, fd 29 29 .rs 1, fd 26 24 .rs 7, ⟨21, 20, .rs, 1, 0, 2⟩, ⟨19, 16, .rs, 4, 0, 8⟩, ⟨4, 0, .rs, 12, 1, 24⟩]⟩,
   /- RC_DEF R309 -/ ⟨0x104, 1, 0, 1, 0, [⟨31, 26, .rs, 30, 10, 60⟩, ⟨25, 20, .rs, 15, 1, 59⟩, ⟨19, 13, .rs, 16, 4, 64⟩, ⟨5, 0, .rs, 8, 0, 63⟩]⟩,
   /- RC_LOOP R309 -/ ⟨0x108, 1, 0, 1, 0, [⟨31, 28, .rs, 10, 1, 15⟩, ⟨27, 24, .rs, 12, 1, 15⟩, ⟨23, 20, .rs, 14, 1, 15⟩, ⟨19, 16, .rs, 12, 1, 15⟩, ⟨15, 12, .rs, 14, 1, 15⟩, ⟨11, 8, .rs, 4, 1, 15⟩, ⟨7, 4, .rs, 10, 1, 15⟩]⟩,
   /- RC_TARGET R309 -/ ⟨0x10C, 1, 0, 1, 0, [fd 31 24 .rs 32, fd 23 16 .rs 32, fd 15 8 .rs 32, fd 7 0 .rs 16]⟩,
   /- RC_TARGET4 R309 -/ ⟨0x110, 1, 0, 1, 0, [fd 7 0 .rs 16]⟩,
   /- RC_LLR R309 -/ ⟨0x114, 1, 0, 1, 0, [⟨7, 0, .rs, 64, 1, 255⟩]⟩,
   /- RC_OFS R309 -/ ⟨0x118, 1, 0, 1, 0, [fd 15 8 .rs 8, fd 7 0 .rs 5]⟩,
   /- RC_AGC R309 -/ ⟨0x11C, 1, 0, 1, 0, [fd 7 0 .rs 64]⟩,
   /- RC_BEAM_OFF R309 -/ ⟨0x120, 1, 0, 1, 0, [fd 17 0 .rs 0]⟩,
   /- RC_LVL_CNT R309 -/ ⟨0x140, 8, 4, 1, 0, [fd 31 0 .rc 0]⟩,
   /- RC_FAIL R309 -/ ⟨0x160, 1, 0, 1, 0, [fd 31 0 .rc 0]⟩,
   /- RC_FILLS R309 -/ ⟨0x164, 1, 0, 1, 0, [fd 31 0 .rc 0]⟩,
   /- RC_MISCOR R309 -/ ⟨0x168, 1, 0, 1, 0, [fd 31 0 .rc 0]⟩,
   /- RC_REALLOC R309 -/ ⟨0x16C, 1, 0, 1, 0, [fd 31 0 .rc 0]⟩,
   /- RC_SKIPPED R309 -/ ⟨0x170, 1, 0, 1, 0, [fd 31 0 .rc 0]⟩,
   /- RC_LAST R309 -/ ⟨0x174, 1, 0, 1, 0, [fd 31 29 .ro 0, fd 25 0 .ro 0]⟩,
   /- RC_EQ_DEF R309 -/ ⟨0x180, 15, 4, 1, 0, [fd 11 0 .rs 0]⟩,
   /- RC_BEAM_STAT R309 -/ ⟨0x200, 18, 4, 1, 0, [fd 31 31 .ro 0, fd 30 30 .ro 0, fd 29 24 .ro 0, fd 23 12 .ro 0, fd 9 0 .ro 0]⟩,
   /- RC_BEAM_CNT R309 -/ ⟨0x400, 18, 32, 8, 4, [fd 31 0 .rc 0]⟩]⟩

/-- ODR_LDPC (R309). -/
def odrLdpcPage : PageDef :=
  ⟨0x818000, 1, 0x1000, false, false, false,
  [⟨0, .fence, 2, false⟩ /- ENGINE_FAIL -/, ⟨1, .discard, 1, false⟩ /- LATE -/],
  [
   /- LDPC_STAT R309 -/ ⟨0x100, 1, 0, 1, 0, [fd 20 16 .ro 0, fd 11 0 .ro 0]⟩,
   /- LDPC_FENCED R309 -/ ⟨0x104, 1, 0, 1, 0, [fd 23 0 .ro 0]⟩,
   /- LDPC_CNT R309 -/ ⟨0x140, 6, 4, 1, 0, [fd 31 0 .rc 0]⟩,
   /- LDPC_HIST R309 -/ ⟨0x200, 25, 4, 1, 0, [fd 31 0 .rc 0]⟩]⟩

/-- ODR_TSF (R309). -/
def odrTsfPage : PageDef :=
  ⟨0x81C000, 4, 0x1000, false, false, true,
  [],
  [
   /- TSF_ENT R309 -/ ⟨0x800, 32, 64, 16, 4, [fd 31 18 .rw 0, fd 17 8 .rw 0, fd 7 0 .rw 0]⟩]⟩

/-- ODR_WR (R335). -/
def odrWrPage : PageDef :=
  ⟨0x820000, 4, 0x1000, false, false, true,
  [⟨0, .discard, 1, true⟩ /- GUARD_FOC -/, ⟨1, .discard, 1, true⟩ /- GUARD_TRK -/, ⟨2, .discard, 1, true⟩ /- GUARD_SHK -/, ⟨3, .corrected, 0, false⟩ /- VFY_FAIL -/, ⟨4, .corrected, 3, false⟩ /- GUARD_REPEAT -/, ⟨5, .corrected, 1, false⟩ /- RESTART -/, ⟨6, .corrected, 0, false⟩ /- WRITE_DROP -/],
  [
   /- WR_CFG R335 -/ ⟨0x100, 1, 0, 1, 0, [⟨22, 16, .rs, 32, 1, 64⟩, ⟨15, 8, .rs, 4, 1, 255⟩, ⟨3, 0, .rs, 2, 0, 10⟩]⟩,
   /- WG_LIM R335 -/ ⟨0x104, 1, 0, 1, 0, [⟨31, 16, .rs, 1200, 1, 65535⟩, ⟨15, 0, .rs, 80, 1, 65535⟩]⟩,
   /- WR_VFY R335 -/ ⟨0x108, 1, 0, 1, 0, [⟨28, 24, .rs, 16, 1, 24⟩, ⟨23, 16, .rs, 64, 1, 255⟩, fd 15 0 .rs 0]⟩,
   /- WR_STAT R335 -/ ⟨0x10C, 1, 0, 1, 0, [fd 31 28 .ro 0, fd 22 16 .ro 0, fd 2 2 .ro 0, fd 1 1 .ro 0, fd 0 0 .ro 0]⟩,
   /- WR_CNT R335 -/ ⟨0x140, 8, 4, 1, 0, [fd 31 0 .rc 0]⟩,
   /- WR_PWR R335 -/ ⟨0x200, 32, 4, 1, 0, [fd 31 24 .rs 0, fd 23 16 .rs 0, fd 15 8 .rs 0, fd 7 0 .rs 0]⟩,
   /- WR_TRIM R335 -/ ⟨0x280, 18, 4, 1, 0, [fd 7 0 .rs 0]⟩,
   /- WS_LEAD R335 -/ ⟨0x400, 4, 32, 8, 4, [fd 31 24 .rs 0, fd 23 16 .rs 0, fd 15 8 .rs 0, fd 7 0 .rs 0]⟩,
   /- WS_TRAIL R335 -/ ⟨0x480, 4, 32, 8, 4, [fd 31 24 .rs 0, fd 23 16 .rs 0, fd 15 8 .rs 0, fd 7 0 .rs 0]⟩,
   /- WS_COOL R335 -/ ⟨0x500, 4, 4, 1, 0, [fd 6 0 .rs 0]⟩]⟩

/-- SRV_REG (R392). -/
def srvRegPage : PageDef :=
  ⟨0x900000, 1, 0x1000, false, false, false,
  [⟨0, .corrected, 3, false⟩ /- NO_SEED -/, ⟨1, .corrected, 3, false⟩ /- NO_SEED -/, ⟨2, .corrected, 3, false⟩ /- NO_SEED -/, ⟨3, .corrected, 3, false⟩ /- NO_SEED -/, ⟨4, .corrected, 3, false⟩ /- SIMPLEX -/, ⟨5, .corrected, 3, false⟩ /- SIMPLEX -/, ⟨6, .corrected, 3, false⟩ /- SIMPLEX -/, ⟨7, .corrected, 3, false⟩ /- SIMPLEX -/, ⟨8, .fence, 2, false⟩ /- HALTED -/, ⟨9, .fence, 2, false⟩ /- HALTED -/, ⟨10, .fence, 2, false⟩ /- HALTED -/, ⟨11, .fence, 2, false⟩ /- HALTED -/, ⟨12, .corrected, 0, false⟩ /- IMAGE_UE -/, ⟨13, .corrected, 0, false⟩ /- IMAGE_UE -/, ⟨14, .corrected, 0, false⟩ /- IMAGE_UE -/, ⟨15, .corrected, 0, false⟩ /- IMAGE_UE -/],
  [
   /- SRV_RED_CFG R392 -/ ⟨0x100, 1, 0, 1, 0, [fd 31 31 .rs 1, ⟨11, 0, .rs, 60, 1, 3600⟩]⟩,
   /- SRV_RED_CTRL R392 -/ ⟨0x104, 1, 0, 1, 0, [fd 31 24 .wo 0, fd 3 0 .wo 0]⟩,
   /- SRV_RED_STAT R392 -/ ⟨0x110, 4, 4, 1, 0, [fd 23 20 .ro 0, fd 19 16 .ro 0, fd 15 12 .ro 0, fd 3 3 .ro 0, fd 2 0 .ro 0]⟩,
   /- SRV_RED_NEXT R392 -/ ⟨0x120, 4, 4, 1, 0, [fd 11 0 .ro 0]⟩,
   /- SRV_RED_CNT R392 -/ ⟨0x140, 4, 16, 4, 4, [fd 31 0 .rc 0]⟩]⟩

/-- SRV_ENG (R392). -/
def srvEngPage : PageDef :=
  ⟨0x901000, 12, 0x1000, false, false, true,
  [⟨0, .corrected, 1, false⟩ /- DISAGREE -/, ⟨1, .fence, 2, false⟩ /- SELFCHECK_FAIL -/, ⟨2, .corrected, 1, false⟩ /- SHADOW_MISMATCH -/, ⟨3, .fence, 2, false⟩ /- SELFTEST_FAIL -/, ⟨4, .discard, 0, false⟩ /- STAMP_LATE -/, ⟨16, .discard, 0, false⟩ /- OVERRUN -/, ⟨17, .corrected, 0, false⟩ /- CS_CE -/, ⟨18, .discard, 1, false⟩ /- CS_UE -/],
  [
   /- SRV_ENG_RED R392 -/ ⟨0x100, 1, 0, 1, 0, [fd 26 24 .ro 0, fd 17 16 .ro 0, fd 7 0 .ro 0]⟩,
   /- SRV_ENG_SIG R392 -/ ⟨0x104, 1, 0, 1, 0, [fd 31 0 .ro 0]⟩,
   /- SRV_ENG_DIGEST R392 -/ ⟨0x108, 1, 0, 1, 0, [fd 31 0 .ro 0]⟩,
   /- SRV_ENG_RCNT R392 -/ ⟨0x140, 5, 4, 1, 0, [fd 31 0 .rc 0]⟩,
   /- SRV_ENG_CYC R372 -/ ⟨0x180, 1, 0, 1, 0, [fd 31 16 .rc 0, fd 15 0 .ro 0]⟩,
   /- SRV_ENG_CNT R372 -/ ⟨0x1C0, 3, 4, 1, 0, [fd 31 0 .rc 0]⟩]⟩

/-- SRV_DRV (R372). -/
def srvDrvPage : PageDef :=
  ⟨0x910000, 4, 0x1000, false, false, true,
  [⟨0, .discard, 3, false⟩ /- FOCUS_FAIL -/, ⟨1, .corrected, 1, false⟩ /- FOCUS_LOST -/, ⟨2, .corrected, 1, false⟩ /- JUMP_FAIL -/, ⟨3, .corrected, 1, false⟩ /- SEEK_FAIL -/, ⟨4, .corrected, 0, false⟩ /- TRACK_SLIP -/, ⟨5, .corrected, 1, false⟩ /- SERVO_STALE -/, ⟨6, .corrected, 2, false⟩ /- DEADLINE -/, ⟨7, .discard, 1, false⟩ /- NO_SET -/],
  [
   /- SRV_DRV_STAT R372 -/ ⟨0x100, 1, 0, 1, 0, [fd 31 24 .ro 0, fd 23 13 .ro 0, fd 3 0 .ro 0]⟩,
   /- SRV_DRV_POS R372 -/ ⟨0x104, 1, 0, 1, 0, [fd 31 31 .ro 0, fd 24 5 .ro 0, fd 4 0 .ro 0]⟩,
   /- SRV_DRV_TGT R372 -/ ⟨0x108, 1, 0, 1, 0, [fd 31 31 .ro 0, fd 29 25 .ro 0, fd 24 5 .ro 0]⟩,
   /- SRV_DRV_FIELD R372 -/ ⟨0x10C, 1, 0, 1, 0, [fd 11 0 .ro 0]⟩,
   /- SRV_FOC_CFG R372 -/ ⟨0x110, 1, 0, 1, 0, [⟨31, 24, .rs, 16, 1, 255⟩, ⟨23, 16, .rs, 8, 1, 255⟩, ⟨15, 0, .rs, 4096, 1, 65535⟩]⟩,
   /- SRV_FOC_LIM R372 -/ ⟨0x114, 1, 0, 1, 0, [⟨31, 24, .rs, 4, 1, 255⟩, ⟨23, 16, .rs, 4, 1, 255⟩, ⟨15, 0, .rs, 400, 1, 32767⟩]⟩,
   /- SRV_FOC_PARK R372 -/ ⟨0x118, 1, 0, 1, 0, [fd 15 0 .rs 32768]⟩,
   /- SRV_JUMP_CFG R372 -/ ⟨0x11C, 1, 0, 1, 0, [⟨31, 24, .rs, 40, 1, 255⟩, ⟨23, 20, .rs, 4, 1, 15⟩, ⟨19, 16, .rs, 4, 1, 15⟩, ⟨15, 0, .rs, 6000, 1, 32767⟩]⟩,
   /- SRV_SEEK_CFG R372 -/ ⟨0x120, 1, 0, 1, 0, [⟨31, 24, .rs, 8, 1, 255⟩, ⟨23, 16, .rs, 32, 1, 255⟩, ⟨15, 8, .rs, 2, 1, 255⟩]⟩,
   /- SRV_SEEK_SHORT R372 -/ ⟨0x124, 1, 0, 1, 0, [⟨15, 0, .rs, 1024, 1, 65535⟩]⟩,
   /- SRV_TRK_CFG R372 -/ ⟨0x128, 1, 0, 1, 0, [⟨31, 16, .rs, 256, 1, 65535⟩, ⟨15, 0, .rs, 40, 1, 511⟩]⟩,
   /- SRV_SLED_CFG R372 -/ ⟨0x12C, 1, 0, 1, 0, [⟨31, 16, .rs, 20, 0, 32767⟩, fd 15 0 .rs 0]⟩,
   /- SRV_ZONE_CFG R372 -/ ⟨0x130, 1, 0, 1, 0, [⟨23, 16, .rs, 20, 1, 255⟩, ⟨15, 0, .rs, 64, 0, 65535⟩]⟩,
   /- SRV_SPD_TH0 R372 -/ ⟨0x134, 1, 0, 1, 0, [fd 31 16 .rs 7400, fd 15 0 .rs 5800]⟩,
   /- SRV_SPD_TH1 R372 -/ ⟨0x138, 1, 0, 1, 0, [fd 31 16 .rs 100, fd 15 0 .rs 9000]⟩,
   /- SRV_MISS_CFG R372 -/ ⟨0x13C, 1, 0, 1, 0, [⟨7, 0, .rs, 8, 1, 255⟩]⟩,
   /- SRV_DRV_CNT R372 -/ ⟨0x140, 9, 4, 1, 0, [fd 31 0 .rc 0]⟩,
   /- SRV_CS_ADDR R372 -/ ⟨0x180, 1, 0, 1, 0, [fd 31 31 .rw 0, fd 16 9 .rw 0, ⟨8, 6, .rw, 0, 0, 6⟩, fd 5 3 .rw 0, fd 2 0 .rw 0]⟩,
   /- SRV_CS_DATA R372 -/ ⟨0x184, 1, 0, 1, 0, [fd 31 0 .rw 0]⟩,
   /- SRV_RMAP R372 -/ ⟨0x800, 512, 4, 1, 0, [fd 31 24 .rs 0, fd 23 16 .rs 0, fd 15 8 .rs 0, fd 7 0 .rs 0]⟩]⟩

/-- SRV_LOOP (R372). -/
def srvLoopPage : PageDef :=
  ⟨0x920000, 128, 0x1000, false, false, true,
  [⟨0, .corrected, 0, false⟩ /- MISS -/, ⟨1, .corrected, 0, false⟩ /- SAT -/],
  [
   /- SRV_LOOP_CTRL R372 -/ ⟨0x100, 1, 0, 1, 0, [fd 31 31 .rs 1, ⟨18, 16, .rs, 0, 0, 2⟩, ⟨11, 8, .rs, 2, 0, 15⟩]⟩,
   /- SRV_LOOP_OFS R372 -/ ⟨0x104, 1, 0, 1, 0, [fd 31 16 .rs 0, fd 15 0 .rs 0]⟩,
   /- SRV_LOOP_LIM R372 -/ ⟨0x108, 1, 0, 1, 0, [fd 31 16 .rs 32767, fd 15 0 .rs 32768]⟩,
   /- SRV_LOOP_STAT R372 -/ ⟨0x10C, 1, 0, 1, 0, [fd 31 30 .ro 0, fd 29 29 .w1c 0, fd 28 28 .w1c 0, fd 15 0 .ro 0]⟩,
   /- SRV_LOOP_IN R372 -/ ⟨0x110, 1, 0, 1, 0, [fd 17 0 .ro 0]⟩,
   /- SRV_LOOP_CNT R372 -/ ⟨0x140, 4, 4, 1, 0, [fd 31 0 .rc 0]⟩]⟩

/-- MOT_REG (R424). -/
def motRegPage : PageDef :=
  ⟨0xA00000, 1, 0x1000, false, false, false,
  [⟨0, .discard, 3, true⟩ /- ESTOP -/, ⟨1, .corrected, 1, false⟩ /- IN_CHATTER -/, ⟨2, .corrected, 3, false⟩ /- IN_STUCK -/],
  [
   /- MOT_CTRL R424 -/ ⟨0x100, 1, 0, 1, 0, [fd 31 24 .wo 0, fd 0 0 .wo 0]⟩,
   /- MOT_STAT R424 -/ ⟨0x104, 1, 0, 1, 0, [fd 31 31 .ro 0, fd 30 30 .ro 0, fd 13 10 .ro 0, fd 9 6 .ro 0, fd 5 5 .ro 0, fd 4 4 .ro 0]⟩,
   /- MOT_IN_CHAT R424 -/ ⟨0x108, 1, 0, 1, 0, [fd 9 9 .ro 0, fd 8 8 .ro 0, fd 7 4 .ro 0, fd 3 0 .ro 0]⟩,
   /- MOT_IN_DEB R424 -/ ⟨0x10C, 1, 0, 1, 0, [⟨31, 24, .rs, 50, 1, 255⟩, ⟨23, 16, .rs, 4, 1, 255⟩, ⟨15, 8, .rs, 50, 1, 255⟩, ⟨7, 0, .rs, 100, 1, 255⟩]⟩,
   /- MOT_IN_CFG R424 -/ ⟨0x110, 1, 0, 1, 0, [⟨31, 16, .rs, 1000, 1, 65535⟩, ⟨15, 8, .rs, 100, 1, 255⟩]⟩,
   /- MOT_CNT R424 -/ ⟨0x140, 5, 4, 1, 0, [fd 31 0 .rc 0]⟩]⟩

/-- MOT_SP (R424). -/
def motSpPage : PageDef :=
  ⟨0xA01000, 4, 0x1000, false, false, true,
  [⟨0, .corrected, 1, false⟩ /- OBS_LOST -/, ⟨1, .corrected, 3, false⟩ /- RECATCH_FAIL -/, ⟨2, .discard, 3, false⟩ /- START_FAIL -/, ⟨3, .fence, 2, false⟩ /- STOP_FAIL -/, ⟨4, .fence, 2, false⟩ /- OVERCURRENT -/, ⟨5, .corrected, 1, false⟩ /- DC_LOW -/, ⟨6, .corrected, 0, false⟩ /- DC_HIGH -/, ⟨7, .corrected, 0, false⟩ /- REVERSE -/, ⟨8, .corrected, 0, false⟩ /- NO_WINDOW -/, ⟨9, .discard, 0, false⟩ /- DTC_OVERRUN -/],
  [
   /- SP_CFG R424 -/ ⟨0x100, 1, 0, 1, 0, [⟨31, 28, .rs, 4, 2, 8⟩, fd 27 27 .rs 0, ⟨23, 16, .rs, 20, 4, 100⟩, ⟨8, 0, .rs, 100, 40, 120⟩]⟩,
   /- SP_MOT0 R424 -/ ⟨0x104, 1, 0, 1, 0, [fd 31 16 .rs 0, fd 15 0 .rs 0]⟩,
   /- SP_MOT1 R424 -/ ⟨0x108, 1, 0, 1, 0, [fd 31 16 .rs 0, fd 15 0 .rs 0]⟩,
   /- SP_MOT2 R424 -/ ⟨0x10C, 1, 0, 1, 0, [fd 31 16 .rs 0, fd 15 0 .rs 0]⟩,
   /- SP_DTC R424 -/ ⟨0x110, 1, 0, 1, 0, [⟨31, 23, .rs, 340, 100, 420⟩, ⟨22, 19, .rs, 6, 0, 15⟩, ⟨15, 0, .rs, 1024, 1, 32767⟩]⟩,
   /- SP_FLUX R424 -/ ⟨0x114, 1, 0, 1, 0, [fd 31 16 .rs 16384, fd 15 0 .rs 328]⟩,
   /- SP_OBS R424 -/ ⟨0x118, 1, 0, 1, 0, [fd 31 24 .rs 16, fd 15 0 .rs 600]⟩,
   /- SP_RUN R424 -/ ⟨0x11C, 1, 0, 1, 0, [fd 31 16 .rs 10, ⟨15, 0, .rs, 375, 1, 12000⟩]⟩,
   /- SP_START R424 -/ ⟨0x120, 1, 0, 1, 0, [fd 31 16 .rs 8192, ⟨15, 7, .rs, 200, 40, 420⟩]⟩,
   /- SP_START_TMO R424 -/ ⟨0x124, 1, 0, 1, 0, [fd 31 16 .rs 10000, fd 15 0 .rs 5000]⟩,
   /- SP_STOP R424 -/ ⟨0x128, 1, 0, 1, 0, [fd 31 16 .rs 16384, fd 15 0 .rs 1500]⟩,
   /- SP_STOP2 R424 -/ ⟨0x12C, 1, 0, 1, 0, [fd 31 16 .rs 0, fd 15 0 .rs 0]⟩,
   /- SP_VLIM R424 -/ ⟨0x130, 1, 0, 1, 0, [fd 31 16 .rs 0, fd 15 0 .rs 0]⟩,
   /- SP_STAT R424 -/ ⟨0x134, 1, 0, 1, 0, [fd 31 28 .ro 0, fd 27 27 .ro 0, fd 26 26 .ro 0, fd 25 25 .ro 0]⟩,
   /- SP_SPEED R424 -/ ⟨0x138, 1, 0, 1, 0, [fd 31 0 .ro 0]⟩,
   /- SP_ANGLE R424 -/ ⟨0x13C, 1, 0, 1, 0, [fd 31 16 .ro 0, fd 15 0 .ro 0]⟩,
   /- SP_EST R424 -/ ⟨0x140, 1, 0, 1, 0, [fd 31 16 .ro 0, fd 15 0 .ro 0]⟩,
   /- SP_VDC R424 -/ ⟨0x144, 1, 0, 1, 0, [fd 15 0 .ro 0]⟩,
   /- SP_CNT R424 -/ ⟨0x180, 9, 4, 1, 0, [fd 31 0 .rc 0]⟩,
   /- SP_ADV R424 -/ ⟨0x800, 32, 4, 1, 0, [fd 7 0 .rs 0]⟩]⟩

/-- MOT_ST (R424). -/
def motStPage : PageDef :=
  ⟨0xA08000, 8, 0x1000, false, false, true,
  [⟨0, .discard, 1, false⟩ /- LIMIT_HIT -/, ⟨1, .discard, 1, false⟩ /- STUCK -/, ⟨2, .corrected, 1, false⟩ /- CHATTER -/, ⟨3, .discard, 1, false⟩ /- HOME_FAIL -/, ⟨4, .corrected, 0, false⟩ /- OFS_LIMIT -/, ⟨5, .discard, 0, false⟩ /- STEP_OVERRUN -/],
  [
   /- ST_CFG R424 -/ ⟨0x100, 1, 0, 1, 0, [⟨28, 25, .rs, 4, 0, 8⟩, fd 24 24 .rs 0, fd 23 23 .rs 0, fd 22 22 .rs 0, fd 21 21 .rs 0, fd 20 20 .rs 0, ⟨15, 0, .rs, 200, 1, 65535⟩]⟩,
   /- ST_VMAX R424 -/ ⟨0x104, 1, 0, 1, 0, [⟨18, 0, .rs, 100000, 1, 400000⟩]⟩,
   /- ST_VSTART R424 -/ ⟨0x108, 1, 0, 1, 0, [⟨18, 0, .rs, 1000, 1, 400000⟩]⟩,
   /- ST_ACC R424 -/ ⟨0x10C, 1, 0, 1, 0, [⟨23, 0, .rs, 1000000, 1, 16777215⟩]⟩,
   /- ST_JERK R424 -/ ⟨0x110, 1, 0, 1, 0, [⟨31, 0, .rs, 100000, 1, 4294967295⟩]⟩,
   /- ST_CUR R424 -/ ⟨0x114, 1, 0, 1, 0, [fd 31 22 .rs 512, fd 21 12 .rs 820, fd 11 0 .rs 4000]⟩,
   /- ST_CHOP R424 -/ ⟨0x118, 1, 0, 1, 0, [⟨31, 24, .rs, 16, 2, 255⟩, ⟨23, 16, .rs, 50, 1, 255⟩, fd 15 8 .rs 40, ⟨7, 6, .rs, 2, 0, 2⟩, fd 5 0 .rs 16]⟩,
   /- ST_HOME R424 -/ ⟨0x11C, 1, 0, 1, 0, [fd 31 16 .rs 4000, fd 15 0 .rs 10000]⟩,
   /- ST_CMD R424 -/ ⟨0x120, 1, 0, 1, 0, [fd 31 24 .wo 0, fd 2 0 .wo 0]⟩,
   /- ST_TARGET R424 -/ ⟨0x124, 1, 0, 1, 0, [fd 31 0 .rw 0]⟩,
   /- ST_POS R424 -/ ⟨0x128, 1, 0, 1, 0, [fd 31 0 .ro 0]⟩,
   /- ST_STAT R424 -/ ⟨0x12C, 1, 0, 1, 0, [fd 31 28 .ro 0, fd 27 27 .ro 0, fd 26 26 .ro 0, fd 25 23 .ro 0, fd 22 20 .ro 0, fd 15 8 .ro 0, fd 7 0 .ro 0]⟩,
   /- ST_IVL R424 -/ ⟨0x130, 1, 0, 1, 0, [fd 31 0 .ro 0]⟩,
   /- ST_CNT R424 -/ ⟨0x180, 7, 4, 1, 0, [fd 31 0 .rc 0]⟩]⟩

/-- MOT_LDR (R424). -/
def motLdrPage : PageDef :=
  ⟨0xA10000, 1, 0x1000, false, false, false,
  [],
  [
   /- MOT_LDR_CAR_SLOT0 R424 -/ ⟨0x100, 1, 0, 1, 0, [fd 31 0 .rs 0]⟩,
   /- MOT_LDR_CAR_PITCH R424 -/ ⟨0x104, 1, 0, 1, 0, [fd 31 0 .rs 0]⟩,
   /- MOT_LDR_CAR_BAY R424 -/ ⟨0x108, 1, 0, 1, 0, [fd 31 0 .rs 0]⟩,
   /- MOT_LDR_CAR_DRV R424 -/ ⟨0x10C, 4, 4, 1, 0, [fd 31 0 .rs 0]⟩,
   /- MOT_LDR_LIFT_SLOT R424 -/ ⟨0x11C, 1, 0, 1, 0, [fd 31 0 .rs 0]⟩,
   /- MOT_LDR_LIFT_BAY R424 -/ ⟨0x120, 1, 0, 1, 0, [fd 31 0 .rs 0]⟩,
   /- MOT_LDR_LIFT_DISC0 R424 -/ ⟨0x124, 1, 0, 1, 0, [fd 31 0 .rs 0]⟩,
   /- MOT_LDR_LIFT_PITCH R424 -/ ⟨0x128, 1, 0, 1, 0, [fd 31 0 .rs 0]⟩,
   /- MOT_LDR_LIFT_DRV R424 -/ ⟨0x12C, 4, 4, 1, 0, [fd 31 0 .rs 0]⟩,
   /- MOT_LDR_REACH_OUT R424 -/ ⟨0x13C, 1, 0, 1, 0, [fd 31 0 .rs 0]⟩,
   /- MOT_LDR_REACH_SLOT R424 -/ ⟨0x140, 1, 0, 1, 0, [fd 31 0 .rs 0]⟩,
   /- MOT_LDR_REACH_BAY R424 -/ ⟨0x144, 1, 0, 1, 0, [fd 31 0 .rs 0]⟩,
   /- MOT_LDR_REACH_DRV R424 -/ ⟨0x148, 1, 0, 1, 0, [fd 31 0 .rs 0]⟩,
   /- MOT_LDR_GRIP_OPEN R424 -/ ⟨0x14C, 1, 0, 1, 0, [fd 31 0 .rs 0]⟩,
   /- MOT_LDR_TMO R424 -/ ⟨0x150, 1, 0, 1, 0, [⟨15, 0, .rs, 1400, 1, 15000⟩]⟩,
   /- MOT_LDR_STEP R424 -/ ⟨0x154, 1, 0, 1, 0, [fd 31 24 .ro 0, fd 7 0 .ro 0]⟩]⟩

/-- CAL_REG (R438). -/
def calRegPage : PageDef :=
  ⟨0xB00000, 1, 0x1000, false, false, false,
  [⟨0, .corrected, 1, false⟩ /- REFUSED -/, ⟨1, .corrected, 1, false⟩ /- ABORTED -/, ⟨2, .corrected, 3, false⟩ /- VREF_BAD -/, ⟨3, .corrected, 3, false⟩ /- CERT -/, ⟨4, .corrected, 3, false⟩ /- UNCAL -/, ⟨5, .discard, 0, false⟩ /- TAP_OVERRUN -/],
  [
   /- CAL_RUN R438 -/ ⟨0x100, 1, 0, 1, 0, [fd 31 24 .wo 0, fd 23 20 .wo 0, fd 16 16 .wo 0, fd 6 0 .wo 0]⟩,
   /- CAL_RUN_LAYERS R438 -/ ⟨0x104, 1, 0, 1, 0, [fd 31 0 .rw 4294967295]⟩,
   /- CAL_STAT R438 -/ ⟨0x108, 1, 0, 1, 0, [fd 20 16 .ro 0, fd 3 0 .ro 0]⟩,
   /- CAL_VREF R438 -/ ⟨0x10C, 1, 0, 1, 0, [fd 31 31 .ro 0, fd 15 0 .ro 0]⟩,
   /- CAL_CNT R438 -/ ⟨0x140, 5, 4, 1, 0, [fd 31 0 .rc 0]⟩]⟩

/-- CAL_REC (R438). -/
def calRecPage : PageDef :=
  ⟨0xB01000, 1, 0x1000, false, false, false,
  [],
  [
   /- CAL_REC_STAT R438 -/ ⟨0x100, 80, 32, 1, 0, [fd 31 28 .ro 0, fd 27 24 .ro 0, fd 23 16 .ro 0, fd 15 0 .ro 0]⟩,
   /- CAL_REC_COUNT R438 -/ ⟨0x104, 80, 32, 1, 0, [fd 31 0 .ro 0]⟩,
   /- CAL_REC_TICK_LO R438 -/ ⟨0x108, 80, 32, 1, 0, [fd 31 0 .ro 0]⟩,
   /- CAL_REC_TICK_HI R438 -/ ⟨0x10C, 80, 32, 1, 0, [fd 31 0 .ro 0]⟩,
   /- CAL_REC_TC R438 -/ ⟨0x110, 80, 32, 1, 0, [fd 31 0 .ro 0]⟩,
   /- CAL_REC_CERT_LO R438 -/ ⟨0x114, 80, 32, 1, 0, [fd 31 0 .ro 0]⟩,
   /- CAL_REC_CERT_HI R438 -/ ⟨0x118, 80, 32, 1, 0, [fd 31 0 .ro 0]⟩,
   /- CAL_REC_REQ R438 -/ ⟨0x11C, 80, 32, 1, 0, [fd 0 0 .ro 0]⟩]⟩

/-- CAL_TRIM (R438): the spec gives its fields no reset value; a gain stands at 1.0 until start-up (DESIGN CHOICE, log entry 109). -/
def calTrimPage : PageDef :=
  ⟨0xB02000, 1, 0x1000, false, false, false,
  [],
  [
   /- CAL_SUP_GAIN R438 -/ ⟨0x100, 8, 4, 1, 0, [fd 15 0 .ro 32768]⟩,
   /- CAL_ST_GAIN R438 -/ ⟨0x120, 8, 4, 1, 0, [fd 31 16 .ro 32768, fd 15 0 .ro 32768]⟩,
   /- CAL_HEAD_PPM R438 -/ ⟨0x140, 4, 4, 1, 0, [fd 31 0 .ro 0]⟩,
   /- CAL_SP_GAIN R438 -/ ⟨0x200, 4, 32, 7, 4, [fd 15 0 .ro 32768]⟩,
   /- CAL_SP_OFS R438 -/ ⟨0x280, 4, 32, 7, 4, [fd 11 0 .ro 0]⟩]⟩

/-- The description of a page family. -/
def Kind.desc : Kind → PageDef
  | .pltReg => pltRegPage
  | .pltTick => pltTickPage
  | .pltRst => pltRstPage
  | .pltArb => pltArbPage
  | .pltGrp => pltGrpPage
  | .pltFw => pltFwPage
  | .pltSup => pltSupPage
  | .pltTherm => pltThermPage
  | .pltEvt => pltEvtPage
  | .pltMram => pltMramPage
  | .pltMg0 => pltMg0Page
  | .pltMg1 => pltMg1Page
  | .pltMg2 => pltMg2Page
  | .pltMg3 => pltMg3Page
  | .pltDbg => pltDbgPage
  | .hatReg => hatRegPage
  | .hatAq => hatAqPage
  | .hatDb => hatDbPage
  | .hatMsix => hatMsixPage
  | .seqReg => seqRegPage
  | .seqRl => seqRlPage
  | .seqMc => seqMcPage
  | .ingReg => ingRegPage
  | .ingLane => ingLanePage
  | .ingProc => ingProcPage
  | .ingStr => ingStrPage
  | .ingSes => ingSesPage
  | .cstReg => cstRegPage
  | .cstStk => cstStkPage
  | .bpmReg => bpmRegPage
  | .bpmPool => bpmPoolPage
  | .bpmOwn => bpmOwnPage
  | .sflReg => sflRegPage
  | .sflFc => sflFcPage
  | .sflDie => sflDiePage
  | .sflMap => sflMapPage
  | .sflGc => sflGcPage
  | .sflJrn => sflJrnPage
  | .sflAes => sflAesPage
  | .sflVol => sflVolPage
  | .parReg => parRegPage
  | .parSet => parSetPage
  | .parSj => parSjPage
  | .parDisc => parDiscPage
  | .odrReg => odrRegPage
  | .odrDrv => odrDrvPage
  | .odrLdr => odrLdrPage
  | .odrHl => odrHlPage
  | .odrRc => odrRcPage
  | .odrLdpc => odrLdpcPage
  | .odrTsf => odrTsfPage
  | .odrWr => odrWrPage
  | .srvReg => srvRegPage
  | .srvEng => srvEngPage
  | .srvDrv => srvDrvPage
  | .srvLoop => srvLoopPage
  | .motReg => motRegPage
  | .motSp => motSpPage
  | .motSt => motStPage
  | .motLdr => motLdrPage
  | .calReg => calRegPage
  | .calRec => calRecPage
  | .calTrim => calTrimPage

/-- Every page family. -/
def allKinds : List Kind := [
  .pltReg, .pltTick, .pltRst, .pltArb, .pltGrp, .pltFw, .pltSup, .pltTherm,
  .pltEvt, .pltMram, .pltMg0, .pltMg1, .pltMg2, .pltMg3, .pltDbg, .hatReg,
  .hatAq, .hatDb, .hatMsix, .seqReg, .seqRl, .seqMc, .ingReg, .ingLane,
  .ingProc, .ingStr, .ingSes, .cstReg, .cstStk, .bpmReg, .bpmPool, .bpmOwn,
  .sflReg, .sflFc, .sflDie, .sflMap, .sflGc, .sflJrn, .sflAes, .sflVol,
  .parReg, .parSet, .parSj, .parDisc, .odrReg, .odrDrv, .odrLdr, .odrHl,
  .odrRc, .odrLdpc, .odrTsf, .odrWr, .srvReg, .srvEng, .srvDrv, .srvLoop,
  .motReg, .motSp, .motSt, .motLdr, .calReg, .calRec, .calTrim]

end Sys2Proof.Machine
end

