-- ==== Sys2Proof/Machine/Fields.lean ====
section
/-! DEFINITION. Names for the pages, fields and errors of the register map that the model's rules speak of
(addresses and bits as in RegTable.lean). -/
namespace Sys2Proof.Machine

/-- A field of a register: the register's BAR0 offset, its bits, and whether the field in force lies behind a shadow (RS). -/
structure RegField where
  addr : Nat
  hi : Nat
  lo : Nat
  rs : Bool
  deriving DecidableEq, Repr

/-- Page PLT_REG. -/
def Pg.pltReg : Nat := 0x0
/-- Page PLT_TICK. -/
def Pg.pltTick : Nat := 0x1000
/-- Page PLT_RST. -/
def Pg.pltRst : Nat := 0x2000
/-- Page PLT_ARB. -/
def Pg.pltArb : Nat := 0x3000
/-- Page PLT_GRP. -/
def Pg.pltGrp : Nat := 0x4000
/-- Page PLT_FW. -/
def Pg.pltFw : Nat := 0x5000
/-- Page PLT_SUP. -/
def Pg.pltSup : Nat := 0x6000
/-- Page PLT_THERM. -/
def Pg.pltTherm : Nat := 0x7000
/-- Page PLT_EVT. -/
def Pg.pltEvt : Nat := 0x8000
/-- Page PLT_MRAM. -/
def Pg.pltMram : Nat := 0x9000
/-- Page PLT_MG0. -/
def Pg.pltMg0 : Nat := 0xA000
/-- Page PLT_MG1. -/
def Pg.pltMg1 : Nat := 0xB000
/-- Page PLT_MG2. -/
def Pg.pltMg2 : Nat := 0xC000
/-- Page PLT_MG3. -/
def Pg.pltMg3 : Nat := 0xD000
/-- Page PLT_DBG. -/
def Pg.pltDbg (p : Nat) : Nat := 0x10000 + 0x1000 * p
/-- Page HAT_REG. -/
def Pg.hatReg : Nat := 0x100000
/-- Page HAT_AQ. -/
def Pg.hatAq : Nat := 0x101000
/-- Page HAT_DB. -/
def Pg.hatDb : Nat := 0x102000
/-- Page HAT_MSIX. -/
def Pg.hatMsix : Nat := 0x103000
/-- Page SEQ_REG. -/
def Pg.seqReg : Nat := 0x200000
/-- Page SEQ_RL. -/
def Pg.seqRl : Nat := 0x201000
/-- Page SEQ_MC. -/
def Pg.seqMc : Nat := 0x208000
/-- Page ING_REG. -/
def Pg.ingReg : Nat := 0x300000
/-- Page ING_LANE. -/
def Pg.ingLane (p : Nat) : Nat := 0x301000 + 0x1000 * p
/-- Page ING_PROC. -/
def Pg.ingProc : Nat := 0x308000
/-- Page ING_STR. -/
def Pg.ingStr (p : Nat) : Nat := 0x310000 + 0x1000 * p
/-- Page ING_SES. -/
def Pg.ingSes (p : Nat) : Nat := 0x330000 + 0x1000 * p
/-- Page CST_REG. -/
def Pg.cstReg : Nat := 0x400000
/-- Page CST_STK. -/
def Pg.cstStk (p : Nat) : Nat := 0x401000 + 0x1000 * p
/-- Page BPM_REG. -/
def Pg.bpmReg : Nat := 0x500000
/-- Page BPM_POOL. -/
def Pg.bpmPool (p : Nat) : Nat := 0x501000 + 0x1000 * p
/-- Page BPM_OWN. -/
def Pg.bpmOwn (p : Nat) : Nat := 0x520000 + 0x1000 * p
/-- Page SFL_REG. -/
def Pg.sflReg : Nat := 0x600000
/-- Page SFL_FC. -/
def Pg.sflFc (p : Nat) : Nat := 0x601000 + 0x1000 * p
/-- Page SFL_DIE. -/
def Pg.sflDie (p : Nat) : Nat := 0x640000 + 0x1000 * p
/-- Page SFL_MAP. -/
def Pg.sflMap : Nat := 0x650000
/-- Page SFL_GC. -/
def Pg.sflGc : Nat := 0x651000
/-- Page SFL_JRN. -/
def Pg.sflJrn : Nat := 0x652000
/-- Page SFL_AES. -/
def Pg.sflAes : Nat := 0x653000
/-- Page SFL_VOL. -/
def Pg.sflVol (p : Nat) : Nat := 0x660000 + 0x1000 * p
/-- Page PAR_REG. -/
def Pg.parReg : Nat := 0x700000
/-- Page PAR_SET. -/
def Pg.parSet (p : Nat) : Nat := 0x701000 + 0x1000 * p
/-- Page PAR_SJ. -/
def Pg.parSj : Nat := 0x709000
/-- Page PAR_DISC. -/
def Pg.parDisc : Nat := 0x70A000
/-- Page ODR_REG. -/
def Pg.odrReg : Nat := 0x800000
/-- Page ODR_DRV. -/
def Pg.odrDrv (p : Nat) : Nat := 0x801000 + 0x1000 * p
/-- Page ODR_LDR. -/
def Pg.odrLdr : Nat := 0x808000
/-- Page ODR_HL. -/
def Pg.odrHl (p : Nat) : Nat := 0x810000 + 0x1000 * p
/-- Page ODR_RC. -/
def Pg.odrRc (p : Nat) : Nat := 0x814000 + 0x1000 * p
/-- Page ODR_LDPC. -/
def Pg.odrLdpc : Nat := 0x818000
/-- Page ODR_TSF. -/
def Pg.odrTsf (p : Nat) : Nat := 0x81C000 + 0x1000 * p
/-- Page ODR_WR. -/
def Pg.odrWr (p : Nat) : Nat := 0x820000 + 0x1000 * p
/-- Page SRV_REG. -/
def Pg.srvReg : Nat := 0x900000
/-- Page SRV_ENG. -/
def Pg.srvEng (p : Nat) : Nat := 0x901000 + 0x1000 * p
/-- Page SRV_DRV. -/
def Pg.srvDrv (p : Nat) : Nat := 0x910000 + 0x1000 * p
/-- Page SRV_LOOP. -/
def Pg.srvLoop (p : Nat) : Nat := 0x920000 + 0x1000 * p
/-- Page MOT_REG. -/
def Pg.motReg : Nat := 0xA00000
/-- Page MOT_SP. -/
def Pg.motSp (p : Nat) : Nat := 0xA01000 + 0x1000 * p
/-- Page MOT_ST. -/
def Pg.motSt (p : Nat) : Nat := 0xA08000 + 0x1000 * p
/-- Page MOT_LDR. -/
def Pg.motLdr : Nat := 0xA10000
/-- Page CAL_REG. -/
def Pg.calReg : Nat := 0xB00000
/-- Page CAL_REC. -/
def Pg.calRec : Nat := 0xB01000
/-- Page CAL_TRIM. -/
def Pg.calTrim : Nat := 0xB02000
/-- PLT_STAT.SAFE (R38). -/
def F.pltStat_safe : RegField := ⟨0x100, 8, 8, false⟩
/-- PLT_STAT.PWRFAIL (R38). -/
def F.pltStat_pwrfail : RegField := ⟨0x100, 7, 7, false⟩
/-- PLT_STAT.LINK (R38). -/
def F.pltStat_link : RegField := ⟨0x100, 6, 5, false⟩
/-- PLT_STAT.PROFILE (R38). -/
def F.pltStat_profile : RegField := ⟨0x100, 4, 4, false⟩
/-- PLT_STAT.READY (R38). -/
def F.pltStat_ready : RegField := ⟨0x100, 3, 3, false⟩
/-- PLT_STAT.JDMSEL (R38). -/
def F.pltStat_jdmsel : RegField := ⟨0x100, 2, 2, false⟩
/-- PLT_STAT.REFSEL (R38). -/
def F.pltStat_refsel : RegField := ⟨0x100, 1, 1, false⟩
/-- PLT_STAT.REF_LOST (R38). -/
def F.pltStat_refLost : RegField := ⟨0x100, 0, 0, false⟩
/-- PLT_ERR_SUM.REGION (R38). -/
def F.pltErrSum : RegField := ⟨0x104, 11, 0, false⟩
/-- PLT_SAFE_CAUSE.REGION (R499). -/
def F.pltSafeCause_region : RegField := ⟨0x108, 15, 12, false⟩
/-- PLT_SAFE_CAUSE.CAUSE (R499). -/
def F.pltSafeCause_cause : RegField := ⟨0x108, 3, 0, false⟩
/-- PLT_TICK_LO.LO (R9). -/
def F.pltTickLo : RegField := ⟨0x1100, 31, 0, false⟩
/-- PLT_TICK_HI.HI (R9). -/
def F.pltTickHi : RegField := ⟨0x1104, 31, 0, false⟩
/-- PLT_TICK_PHASE.PHASE (R9). -/
def F.pltTickPhase : RegField := ⟨0x1108, 15, 0, false⟩
/-- PLT_RST_CAUSE.SOFT (R56). -/
def F.pltRstCause_soft : RegField := ⟨0x2100, 2, 2, false⟩
/-- PLT_RST_CAUSE.PIN (R56). -/
def F.pltRstCause_pin : RegField := ⟨0x2100, 1, 1, false⟩
/-- PLT_RST_CAUSE.POWER (R56). -/
def F.pltRstCause_power : RegField := ⟨0x2100, 0, 0, false⟩
/-- PLT_RST_CTRL.KEY (R56). -/
def F.pltRstCtrl_key : RegField := ⟨0x2104, 31, 16, false⟩
/-- PLT_RST_CTRL.CHIP (R56). -/
def F.pltRstCtrl_chip : RegField := ⟨0x2104, 0, 0, false⟩
/-- PLT_ARB_WT.W3 (R25). -/
def F.pltArbWt_w3 : RegField := ⟨0x3100, 29, 24, true⟩
/-- PLT_ARB_WT.W2 (R25). -/
def F.pltArbWt_w2 : RegField := ⟨0x3100, 21, 16, true⟩
/-- PLT_ARB_WT.W1 (R25). -/
def F.pltArbWt_w1 : RegField := ⟨0x3100, 13, 8, true⟩
/-- PLT_ARB_WT.W0 (R25). -/
def F.pltArbWt_w0 : RegField := ⟨0x3100, 5, 0, true⟩
/-- PLT_ARB_PROMO.WAIT (R25). -/
def F.pltArbPromo : RegField := ⟨0x3104, 15, 0, true⟩
/-- PLT_ARB_CNT_PROMO.COUNT (R25). -/
def F.pltArbCntPromo : RegField := ⟨0x3108, 31, 0, false⟩
/-- PLT_GRP_TICK.TICK (R47). -/
def F.pltGrpTick : RegField := ⟨0x4100, 31, 0, false⟩
/-- PLT_GRP_COMMIT.KEY (R47). -/
def F.pltGrpCommit_key : RegField := ⟨0x4104, 15, 8, false⟩
/-- PLT_GRP_COMMIT.GROUP (R47). -/
def F.pltGrpCommit_group : RegField := ⟨0x4104, 5, 0, false⟩
/-- PLT_GRP_STAT.MEMBERS (R47). -/
def F.pltGrpStat_members (i : Nat) : RegField := ⟨0x4200 + 0x4 * i, 27, 16, false⟩
/-- PLT_GRP_STAT.STATE (R47). -/
def F.pltGrpStat_state (i : Nat) : RegField := ⟨0x4200 + 0x4 * i, 1, 0, false⟩
/-- PLT_FW_REG.VERSION (R55). -/
def F.pltFwReg_version (i : Nat) : RegField := ⟨0x5100 + 0x4 * i, 31, 16, false⟩
/-- PLT_FW_REG.STAGED (R55). -/
def F.pltFwReg_staged (i : Nat) : RegField := ⟨0x5100 + 0x4 * i, 9, 8, false⟩
/-- PLT_FW_REG.ACTIVE (R55). -/
def F.pltFwReg_active (i : Nat) : RegField := ⟨0x5100 + 0x4 * i, 5, 4, false⟩
/-- PLT_FW_REG.STATE (R55). -/
def F.pltFwReg_state (i : Nat) : RegField := ⟨0x5100 + 0x4 * i, 1, 0, false⟩
/-- PLT_FW_LAST.HOLD (R55). -/
def F.pltFwLast_hold : RegField := ⟨0x5140, 31, 16, false⟩
/-- PLT_FW_LAST.TOTAL (R55). -/
def F.pltFwLast_total : RegField := ⟨0x5140, 15, 0, false⟩
/-- PLT_SUP_V.STATE (R56). -/
def F.pltSupV_state (i : Nat) : RegField := ⟨0x6100 + 0x4 * i, 17, 16, false⟩
/-- PLT_SUP_V.MV (R56). -/
def F.pltSupV_mv (i : Nat) : RegField := ⟨0x6100 + 0x4 * i, 15, 0, false⟩
/-- PLT_SUP_SEQ.SPREAD (R525). -/
def F.pltSupSeq_spread : RegField := ⟨0x6120, 31, 16, false⟩
/-- PLT_SUP_SEQ.SKEW (R525). -/
def F.pltSupSeq_skew : RegField := ⟨0x6120, 8, 8, false⟩
/-- PLT_SUP_SEQ.LAST (R525). -/
def F.pltSupSeq_last : RegField := ⟨0x6120, 6, 4, false⟩
/-- PLT_SUP_SEQ.FIRST (R525). -/
def F.pltSupSeq_first : RegField := ⟨0x6120, 2, 0, false⟩
/-- PLT_THERM_T.TEMP (R57). -/
def F.pltThermT (i : Nat) : RegField := ⟨0x7100 + 0x4 * i, 15, 0, false⟩
/-- PLT_THERM_LIM.TRIP (R58). -/
def F.pltThermLim_trip : RegField := ⟨0x7140, 23, 16, false⟩
/-- PLT_THERM_LIM.HOST (R58). -/
def F.pltThermLim_host : RegField := ⟨0x7140, 15, 8, false⟩
/-- PLT_THERM_LIM.BG (R58). -/
def F.pltThermLim_bg : RegField := ⟨0x7140, 7, 0, false⟩
/-- PLT_THERM_STAT.HOTTEST (R499). -/
def F.pltThermStat_hottest : RegField := ⟨0x7144, 15, 8, false⟩
/-- PLT_THERM_STAT.SENSOR (R499). -/
def F.pltThermStat_sensor : RegField := ⟨0x7144, 7, 4, false⟩
/-- PLT_THERM_STAT.LEVEL (R499). -/
def F.pltThermStat_level : RegField := ⟨0x7144, 2, 0, false⟩
/-- PLT_THERM_CNT.COUNT (R499). -/
def F.pltThermCnt (i : Nat) : RegField := ⟨0x7180 + 0x4 * i, 31, 0, false⟩
/-- PLT_EVT_ROUTE.EN (R58). -/
def F.pltEvtRoute_en (i : Nat) : RegField := ⟨0x8100 + 0x4 * i, 31, 31, false⟩
/-- PLT_EVT_ROUTE.VECTOR (R58). -/
def F.pltEvtRoute_vector (i : Nat) : RegField := ⟨0x8100 + 0x4 * i, 5, 0, false⟩
/-- PLT_EVT_CAUSE.CAUSE (R58). -/
def F.pltEvtCause : RegField := ⟨0x8140, 15, 0, false⟩
/-- PLT_EVT_HELD.HELD (R58). -/
def F.pltEvtHeld : RegField := ⟨0x8144, 15, 0, false⟩
/-- PLT_MRAM_PROF.NEXT (R484). -/
def F.pltMramProf_next : RegField := ⟨0x9100, 10, 8, false⟩
/-- PLT_MRAM_PROF.VALID (R484). -/
def F.pltMramProf_valid : RegField := ⟨0x9100, 4, 4, false⟩
/-- PLT_MRAM_PROF.ACTIVE (R484). -/
def F.pltMramProf_active : RegField := ⟨0x9100, 2, 0, false⟩
/-- PLT_MRAM_STAT.FALLBACK (R484). -/
def F.pltMramStat_fallback : RegField := ⟨0x9104, 2, 2, false⟩
/-- PLT_MRAM_STAT.KEYS_OK (R484). -/
def F.pltMramStat_keysOk : RegField := ⟨0x9104, 1, 1, false⟩
/-- PLT_MRAM_STAT.READY (R484). -/
def F.pltMramStat_ready : RegField := ⟨0x9104, 0, 0, false⟩
/-- PLT_MRAM_CNT.COUNT (R484). -/
def F.pltMramCnt (i : Nat) : RegField := ⟨0x9140 + 0x4 * i, 31, 0, false⟩
/-- MG0_REFCNT.COUNT (R525). -/
def F.mg0Refcnt : RegField := ⟨0xA100, 31, 0, false⟩
/-- MG0_START.TIME (R525). -/
def F.mg0Start : RegField := ⟨0xA104, 15, 0, false⟩
/-- MG1_CFG.GEN_POL (R525). -/
def F.mg1Cfg_genPol : RegField := ⟨0xB100, 1, 1, false⟩
/-- MG1_CFG.GEN_EN (R525). -/
def F.mg1Cfg_genEn : RegField := ⟨0xB100, 0, 0, false⟩
/-- MG1_GEN_LO.LO (R525). -/
def F.mg1GenLo : RegField := ⟨0xB104, 31, 0, false⟩
/-- MG1_GEN_HI.HI (R525). -/
def F.mg1GenHi : RegField := ⟨0xB108, 31, 0, false⟩
/-- MG1_GEN_SUB.SUB (R525). -/
def F.mg1GenSub : RegField := ⟨0xB10C, 7, 0, false⟩
/-- MG1_GEN_CNT.COUNT (R525). -/
def F.mg1GenCnt : RegField := ⟨0xB140, 31, 0, false⟩
/-- MG2_CFG.CON_EN (R525). -/
def F.mg2Cfg : RegField := ⟨0xC100, 0, 0, false⟩
/-- MG2_IDCODE.IDCODE (R525). -/
def F.mg2Idcode : RegField := ⟨0xC104, 31, 0, false⟩
/-- MG3_PF_LO.LO (R525). -/
def F.mg3PfLo : RegField := ⟨0xD100, 31, 0, false⟩
/-- MG3_PF_HI.HI (R525). -/
def F.mg3PfHi : RegField := ⟨0xD104, 31, 0, false⟩
/-- MG3_PF_CNT.COUNT (R525). -/
def F.mg3PfCnt : RegField := ⟨0xD108, 31, 0, false⟩
/-- HAT_LINK.MODE (R471). -/
def F.hatLink_mode : RegField := ⟨0x100100, 9, 8, false⟩
/-- HAT_LINK.RATE (R471). -/
def F.hatLink_rate : RegField := ⟨0x100100, 5, 4, false⟩
/-- HAT_LINK.WIDTH (R471). -/
def F.hatLink_width : RegField := ⟨0x100100, 3, 0, false⟩
/-- HAT_MEM_CFG.SIZE (R471). -/
def F.hatMemCfg : RegField := ⟨0x100104, 9, 0, false⟩
/-- HAT_CNT.COUNT (R471). -/
def F.hatCnt (i : Nat) : RegField := ⟨0x100140 + 0x4 * i, 31, 0, false⟩
/-- HAT_AQ_CFG.EN (R471). -/
def F.hatAqCfg_en : RegField := ⟨0x101100, 31, 31, false⟩
/-- HAT_AQ_CFG.AGG (R471). -/
def F.hatAqCfg_agg : RegField := ⟨0x101100, 23, 16, false⟩
/-- HAT_AQ_CFG.VEC (R471). -/
def F.hatAqCfg_vec : RegField := ⟨0x101100, 13, 8, false⟩
/-- HAT_AQ_CFG.RSIZE (R471). -/
def F.hatAqCfg_rsize : RegField := ⟨0x101100, 3, 0, false⟩
/-- HAT_AQ_BASE_LO.LO (R471). -/
def F.hatAqBaseLo : RegField := ⟨0x101104, 31, 0, false⟩
/-- HAT_AQ_BASE_HI.HI (R471). -/
def F.hatAqBaseHi : RegField := ⟨0x101108, 31, 0, false⟩
/-- HAT_AQ_TIME.AGG_TIME (R471). -/
def F.hatAqTime : RegField := ⟨0x10110C, 11, 0, false⟩
/-- HAT_SQDB.TAIL (R471). -/
def F.hatSqdb (i : Nat) : RegField := ⟨0x102100 + 0x8 * i, 15, 0, false⟩
/-- HAT_RHDB.HEAD (R471). -/
def F.hatRhdb (i : Nat) : RegField := ⟨0x102104 + 0x8 * i, 12, 0, false⟩
/-- HAT_QSTAT.STATE (R471). -/
def F.hatQstat_state (i : Nat) : RegField := ⟨0x102400 + 0x8 * i, 31, 30, false⟩
/-- HAT_QSTAT.H (R471). -/
def F.hatQstat_h (i : Nat) : RegField := ⟨0x102400 + 0x8 * i, 15, 0, false⟩
/-- HAT_QOUT.XFERS (R471). -/
def F.hatQout_xfers (i : Nat) : RegField := ⟨0x102404 + 0x8 * i, 31, 16, false⟩
/-- HAT_QOUT.CMDS (R471). -/
def F.hatQout_cmds (i : Nat) : RegField := ⟨0x102404 + 0x8 * i, 15, 0, false⟩
/-- MSIX_ADDR_LO.LO (R471). -/
def F.msixAddrLo (i : Nat) : RegField := ⟨0x103800 + 0x10 * i, 31, 0, false⟩
/-- MSIX_ADDR_HI.HI (R471). -/
def F.msixAddrHi (i : Nat) : RegField := ⟨0x103804 + 0x10 * i, 31, 0, false⟩
/-- MSIX_DATA.DATA (R471). -/
def F.msixData (i : Nat) : RegField := ⟨0x103808 + 0x10 * i, 31, 0, false⟩
/-- MSIX_CTRL.MASK (R471). -/
def F.msixCtrl (i : Nat) : RegField := ⟨0x10380C + 0x10 * i, 0, 0, false⟩
/-- MSIX_PBA.PEND (R471). -/
def F.msixPba (i : Nat) : RegField := ⟨0x103C00 + 0x4 * i, 31, 0, false⟩
/-- SEQ_CORE_STAT.FENCED (R471). -/
def F.seqCoreStat_fenced : RegField := ⟨0x200100, 15, 8, false⟩
/-- SEQ_CORE_STAT.BUSY (R471). -/
def F.seqCoreStat_busy : RegField := ⟨0x200100, 7, 0, false⟩
/-- SEQ_RL_STAT.WAITING (R471). -/
def F.seqRlStat_waiting : RegField := ⟨0x201100, 31, 16, false⟩
/-- SEQ_RL_STAT.USED (R471). -/
def F.seqRlStat_used : RegField := ⟨0x201100, 15, 0, false⟩
/-- SEQ_RL_CNT.COUNT (R471). -/
def F.seqRlCnt (i : Nat) : RegField := ⟨0x201140 + 0x4 * i, 31, 0, false⟩
/-- SEQ_MC_STAT.UNCACHED (R160). -/
def F.seqMcStat_uncached : RegField := ⟨0x208100, 8, 8, false⟩
/-- SEQ_MC_STAT.HELD (R160). -/
def F.seqMcStat_held : RegField := ⟨0x208100, 4, 0, false⟩
/-- SEQ_MC_MAINT_ADDR_LO.LO (R160). -/
def F.seqMcMaintAddrLo : RegField := ⟨0x208104, 31, 0, false⟩
/-- SEQ_MC_MAINT_ADDR_HI.HI (R160). -/
def F.seqMcMaintAddrHi : RegField := ⟨0x208108, 31, 0, false⟩
/-- SEQ_MC_MAINT.OP (R160). -/
def F.seqMcMaint_op : RegField := ⟨0x20810C, 31, 30, false⟩
/-- SEQ_MC_MAINT.COUNT (R160). -/
def F.seqMcMaint_count : RegField := ⟨0x20810C, 20, 0, false⟩
/-- SEQ_MC_MAINT_STAT.BUSY (R160). -/
def F.seqMcMaintStat_busy : RegField := ⟨0x208110, 31, 31, false⟩
/-- SEQ_MC_MAINT_STAT.DONE (R160). -/
def F.seqMcMaintStat_done : RegField := ⟨0x208110, 20, 0, false⟩
/-- SEQ_MC_WIN_BASE.BASE (R160). -/
def F.seqMcWinBase (i : Nat) : RegField := ⟨0x208200 + 0x10 * i, 21, 0, true⟩
/-- SEQ_MC_WIN_LIMIT.LIMIT (R160). -/
def F.seqMcWinLimit (i : Nat) : RegField := ⟨0x208204 + 0x10 * i, 21, 0, true⟩
/-- SEQ_MC_WIN_CFG.EN (R160). -/
def F.seqMcWinCfg_en (i : Nat) : RegField := ⟨0x208208 + 0x10 * i, 31, 31, true⟩
/-- SEQ_MC_WIN_CFG.POLICY (R160). -/
def F.seqMcWinCfg_policy (i : Nat) : RegField := ⟨0x208208 + 0x10 * i, 30, 30, true⟩
/-- SEQ_MC_WIN_CFG.STREAM (R160). -/
def F.seqMcWinCfg_stream (i : Nat) : RegField := ⟨0x208208 + 0x10 * i, 29, 29, true⟩
/-- SEQ_MC_WIN_CFG.PF_DEPTH (R160). -/
def F.seqMcWinCfg_pfDepth (i : Nat) : RegField := ⟨0x208208 + 0x10 * i, 19, 16, true⟩
/-- SEQ_MC_WIN_CFG.SEQ_LIMIT (R160). -/
def F.seqMcWinCfg_seqLimit (i : Nat) : RegField := ⟨0x208208 + 0x10 * i, 7, 0, true⟩
/-- SEQ_MC_WIN_STAT.TRIPPED (R160). -/
def F.seqMcWinStat_tripped (i : Nat) : RegField := ⟨0x20820C + 0x10 * i, 1, 1, false⟩
/-- SEQ_MC_WIN_STAT.DRAINING (R160). -/
def F.seqMcWinStat_draining (i : Nat) : RegField := ⟨0x20820C + 0x10 * i, 0, 0, false⟩
/-- SEQ_MC_CNT.COUNT (R161). -/
def F.seqMcCnt (i : Nat) : RegField := ⟨0x208300 + 0x4 * i, 31, 0, false⟩
/-- SEQ_MC_LAST_LO.LO (R161). -/
def F.seqMcLastLo : RegField := ⟨0x208380, 31, 0, false⟩
/-- SEQ_MC_LAST_HI.HI (R161). -/
def F.seqMcLastHi : RegField := ⟨0x208384, 31, 0, false⟩
/-- SEQ_MC_L1_CNT.COUNT (R161). -/
def F.seqMcL1Cnt (i j : Nat) : RegField := ⟨0x208400 + 0x10 * i + 0x4 * j, 31, 0, false⟩
/-- ING_TC.TC (R104). -/
def F.ingTc : RegField := ⟨0x300100, 31, 0, false⟩
/-- ING_TC_STAT.VALID (R104). -/
def F.ingTcStat_valid : RegField := ⟨0x300104, 3, 3, false⟩
/-- ING_TC_STAT.RATE (R104). -/
def F.ingTcStat_rate : RegField := ⟨0x300104, 2, 0, false⟩
/-- ING_REG_MRR_HEAD.HEAD (R104). -/
def F.ingRegMrrHead : RegField := ⟨0x300108, 31, 0, false⟩
/-- ING_LANE_CFG.TX_INV (R104). -/
def F.ingLaneCfg_txInv (p i : Nat) : RegField := ⟨0x301100 + 0x1000 * p + 0x8 * i, 1, 1, true⟩
/-- ING_LANE_CFG.RX_INV (R104). -/
def F.ingLaneCfg_rxInv (p i : Nat) : RegField := ⟨0x301100 + 0x1000 * p + 0x8 * i, 0, 0, true⟩
/-- ING_LANE_STAT.SKEW (R104). -/
def F.ingLaneStat_skew (p i : Nat) : RegField := ⟨0x301104 + 0x1000 * p + 0x8 * i, 31, 24, false⟩
/-- ING_LANE_STAT.EPOCH (R104). -/
def F.ingLaneStat_epoch (p i : Nat) : RegField := ⟨0x301104 + 0x1000 * p + 0x8 * i, 19, 16, false⟩
/-- ING_LANE_STAT.STATE (R104). -/
def F.ingLaneStat_state (p i : Nat) : RegField := ⟨0x301104 + 0x1000 * p + 0x8 * i, 2, 0, false⟩
/-- ING_LANE_ERR.LOCK_LOSS (R104). -/
def F.ingLaneErr_lockLoss (p i : Nat) : RegField := ⟨0x301200 + 0x1000 * p + 0x4 * i, 31, 16, false⟩
/-- ING_LANE_ERR.SYNC_ERR (R104). -/
def F.ingLaneErr_syncErr (p i : Nat) : RegField := ⟨0x301200 + 0x1000 * p + 0x4 * i, 15, 0, false⟩
/-- ING_PROC_BUSY.SHA (R104). -/
def F.ingProcBusy_sha : RegField := ⟨0x308100, 23, 16, false⟩
/-- ING_PROC_BUSY.CODEC (R104). -/
def F.ingProcBusy_codec : RegField := ⟨0x308100, 15, 0, false⟩
/-- ING_PROC_FENCED.SHA (R104). -/
def F.ingProcFenced_sha : RegField := ⟨0x308104, 23, 16, false⟩
/-- ING_PROC_FENCED.CODEC (R104). -/
def F.ingProcFenced_codec : RegField := ⟨0x308104, 15, 0, false⟩
/-- ING_PROC_CNT.COUNT (R104). -/
def F.ingProcCnt (i : Nat) : RegField := ⟨0x308140 + 0x4 * i, 31, 0, false⟩
/-- ING_STR_BOND.DUAL (R104). -/
def F.ingStrBond_dual (p : Nat) : RegField := ⟨0x310100 + 0x1000 * p, 19, 19, true⟩
/-- ING_STR_BOND.WIDTH (R104). -/
def F.ingStrBond_width (p : Nat) : RegField := ⟨0x310100 + 0x1000 * p, 18, 16, true⟩
/-- ING_STR_BOND.FIRST_B (R104). -/
def F.ingStrBond_firstB (p : Nat) : RegField := ⟨0x310100 + 0x1000 * p, 13, 8, true⟩
/-- ING_STR_BOND.RATE (R104). -/
def F.ingStrBond_rate (p : Nat) : RegField := ⟨0x310100 + 0x1000 * p, 7, 6, true⟩
/-- ING_STR_BOND.FIRST_A (R104). -/
def F.ingStrBond_firstA (p : Nat) : RegField := ⟨0x310100 + 0x1000 * p, 5, 0, true⟩
/-- ING_STR_FRAME.META (R104). -/
def F.ingStrFrame_meta (p : Nat) : RegField := ⟨0x310104 + 0x1000 * p, 30, 22, true⟩
/-- ING_STR_FRAME.SIZE (R104). -/
def F.ingStrFrame_size (p : Nat) : RegField := ⟨0x310104 + 0x1000 * p, 21, 0, true⟩
/-- ING_STR_TIME.PAIR_WAIT (R104). -/
def F.ingStrTime_pairWait (p : Nat) : RegField := ⟨0x310108 + 0x1000 * p, 31, 24, true⟩
/-- ING_STR_TIME.TIMEOUT (R104). -/
def F.ingStrTime_timeout (p : Nat) : RegField := ⟨0x310108 + 0x1000 * p, 11, 0, true⟩
/-- ING_STR_FLOW.POOL (R104). -/
def F.ingStrFlow_pool (p : Nat) : RegField := ⟨0x31010C + 0x1000 * p, 31, 28, true⟩
/-- ING_STR_FLOW.CREDITS (R104). -/
def F.ingStrFlow_credits (p : Nat) : RegField := ⟨0x31010C + 0x1000 * p, 9, 0, true⟩
/-- ING_STR_RING.BUFS (R104). -/
def F.ingStrRing (p : Nat) : RegField := ⟨0x310110 + 0x1000 * p, 21, 0, true⟩
/-- ING_STR_FMT.WIDTH (R104). -/
def F.ingStrFmt_width (p : Nat) : RegField := ⟨0x310114 + 0x1000 * p, 31, 16, true⟩
/-- ING_STR_FMT.CFA (R104). -/
def F.ingStrFmt_cfa (p : Nat) : RegField := ⟨0x310114 + 0x1000 * p, 5, 4, true⟩
/-- ING_STR_FMT.BITS (R104). -/
def F.ingStrFmt_bits (p : Nat) : RegField := ⟨0x310114 + 0x1000 * p, 3, 0, true⟩
/-- ING_STR_CODEC.SLICE_ROWS (R104). -/
def F.ingStrCodec_sliceRows (p : Nat) : RegField := ⟨0x310118 + 0x1000 * p, 31, 16, true⟩
/-- ING_STR_CODEC.KEY (R104). -/
def F.ingStrCodec_key (p : Nat) : RegField := ⟨0x310118 + 0x1000 * p, 15, 10, true⟩
/-- ING_STR_CODEC.AES (R104). -/
def F.ingStrCodec_aes (p : Nat) : RegField := ⟨0x310118 + 0x1000 * p, 2, 2, true⟩
/-- ING_STR_CODEC.HASH (R104). -/
def F.ingStrCodec_hash (p : Nat) : RegField := ⟨0x310118 + 0x1000 * p, 1, 1, true⟩
/-- ING_STR_CODEC.CODEC (R104). -/
def F.ingStrCodec_codec (p : Nat) : RegField := ⟨0x310118 + 0x1000 * p, 0, 0, true⟩
/-- ING_STR_STAT.EPOCH (R104). -/
def F.ingStrStat_epoch (p : Nat) : RegField := ⟨0x31011C + 0x1000 * p, 31, 28, false⟩
/-- ING_STR_STAT.OPEN (R104). -/
def F.ingStrStat_open (p : Nat) : RegField := ⟨0x31011C + 0x1000 * p, 19, 16, false⟩
/-- ING_STR_STAT.PATH_B (R104). -/
def F.ingStrStat_pathB (p : Nat) : RegField := ⟨0x31011C + 0x1000 * p, 11, 10, false⟩
/-- ING_STR_STAT.PATH_A (R104). -/
def F.ingStrStat_pathA (p : Nat) : RegField := ⟨0x31011C + 0x1000 * p, 9, 8, false⟩
/-- ING_STR_STAT.GROUP_UP (R104). -/
def F.ingStrStat_groupUp (p : Nat) : RegField := ⟨0x31011C + 0x1000 * p, 0, 0, false⟩
/-- ING_STR_WM_PN.WM_PN (R104). -/
def F.ingStrWmPn (p : Nat) : RegField := ⟨0x310120 + 0x1000 * p, 31, 0, false⟩
/-- ING_STR_WM_FRAME.WM_FRAME (R104). -/
def F.ingStrWmFrame (p : Nat) : RegField := ⟨0x310124 + 0x1000 * p, 31, 0, false⟩
/-- ING_STR_PN.PN (R104). -/
def F.ingStrPn (p : Nat) : RegField := ⟨0x310128 + 0x1000 * p, 31, 0, false⟩
/-- ING_STR_LAST_LO.LAST_LO (R104). -/
def F.ingStrLastLo (p : Nat) : RegField := ⟨0x31012C + 0x1000 * p, 31, 0, false⟩
/-- ING_STR_LAST_HI.LAST_HI (R104). -/
def F.ingStrLastHi (p : Nat) : RegField := ⟨0x310130 + 0x1000 * p, 31, 0, false⟩
/-- ING_STR_CNT.COUNT (R104). -/
def F.ingStrCnt (p i : Nat) : RegField := ⟨0x310140 + 0x1000 * p + 0x4 * i, 31, 0, false⟩
/-- ING_SES_STREAMS.MASK (R104). -/
def F.ingSesStreams (p : Nat) : RegField := ⟨0x330100 + 0x1000 * p, 31, 0, true⟩
/-- ING_SES_CFG.TC_TRIG (R104). -/
def F.ingSesCfg_tcTrig (p : Nat) : RegField := ⟨0x330104 + 0x1000 * p, 31, 31, true⟩
/-- ING_SES_CFG.POD_TRIG (R104). -/
def F.ingSesCfg_podTrig (p : Nat) : RegField := ⟨0x330104 + 0x1000 * p, 30, 30, true⟩
/-- ING_SES_CFG.TRG_EN (R104). -/
def F.ingSesCfg_trgEn (p : Nat) : RegField := ⟨0x330104 + 0x1000 * p, 29, 26, true⟩
/-- ING_SES_CFG.REARM (R104). -/
def F.ingSesCfg_rearm (p : Nat) : RegField := ⟨0x330104 + 0x1000 * p, 25, 25, true⟩
/-- ING_SES_CFG.AUTO_ARM (R104). -/
def F.ingSesCfg_autoArm (p : Nat) : RegField := ⟨0x330104 + 0x1000 * p, 24, 24, false⟩
/-- ING_SES_CFG.POST (R104). -/
def F.ingSesCfg_post (p : Nat) : RegField := ⟨0x330104 + 0x1000 * p, 23, 0, true⟩
/-- ING_SES_VOL.VOLUME (R104). -/
def F.ingSesVol (p : Nat) : RegField := ⟨0x330108 + 0x1000 * p, 5, 0, true⟩
/-- ING_SES_TC.TC (R104). -/
def F.ingSesTc (p : Nat) : RegField := ⟨0x33010C + 0x1000 * p, 31, 0, true⟩
/-- ING_SES_CTRL.ACT (R104). -/
def F.ingSesCtrl (p : Nat) : RegField := ⟨0x330110 + 0x1000 * p, 2, 0, false⟩
/-- ING_SES_STAT.SRC (R104). -/
def F.ingSesStat_src (p : Nat) : RegField := ⟨0x330114 + 0x1000 * p, 10, 8, false⟩
/-- ING_SES_STAT.STATE (R104). -/
def F.ingSesStat_state (p : Nat) : RegField := ⟨0x330114 + 0x1000 * p, 1, 0, false⟩
/-- ING_SES_TAKE.TAKE (R104). -/
def F.ingSesTake (p : Nat) : RegField := ⟨0x330118 + 0x1000 * p, 31, 0, false⟩
/-- ING_SES_TRIG_LO.LO (R104). -/
def F.ingSesTrigLo (p : Nat) : RegField := ⟨0x33011C + 0x1000 * p, 31, 0, false⟩
/-- ING_SES_TRIG_HI.HI (R104). -/
def F.ingSesTrigHi (p : Nat) : RegField := ⟨0x330120 + 0x1000 * p, 31, 0, false⟩
/-- ING_SES_TRIG_SUB.SUB (R104). -/
def F.ingSesTrigSub (p : Nat) : RegField := ⟨0x330124 + 0x1000 * p, 7, 0, false⟩
/-- ING_SES_CNT_IGN.COUNT (R104). -/
def F.ingSesCntIgn (p : Nat) : RegField := ⟨0x330128 + 0x1000 * p, 31, 0, false⟩
/-- CST_SCRUB_CTRL.EN (R141). -/
def F.cstScrubCtrl_en : RegField := ⟨0x400100, 16, 16, false⟩
/-- CST_SCRUB_CTRL.RATE (R141). -/
def F.cstScrubCtrl_rate : RegField := ⟨0x400100, 8, 0, false⟩
/-- CST_SCRUB_PTR.PTR (R141). -/
def F.cstScrubPtr : RegField := ⟨0x400104, 31, 0, false⟩
/-- CST_SCRUB_PASS.PASS (R141). -/
def F.cstScrubPass : RegField := ⟨0x400108, 31, 0, false⟩
/-- CST_MERGE_CFG.WINDOW (R141). -/
def F.cstMergeCfg : RegField := ⟨0x40010C, 5, 0, false⟩
/-- CST_CNT.COUNT (R141). -/
def F.cstCnt (i : Nat) : RegField := ⟨0x400140 + 0x4 * i, 31, 0, false⟩
/-- CST_CNT8.OPEN (R141). -/
def F.cstCnt8 : RegField := ⟨0x400160, 31, 0, false⟩
/-- CST_LAST_UE_LO.LO (R141). -/
def F.cstLastUeLo : RegField := ⟨0x400180, 31, 0, false⟩
/-- CST_LAST_UE_HI.HI (R141). -/
def F.cstLastUeHi : RegField := ⟨0x400184, 31, 0, false⟩
/-- CST_STK_STAT.TEMP (R141). -/
def F.cstStkStat_temp (p : Nat) : RegField := ⟨0x401100 + 0x1000 * p, 23, 16, false⟩
/-- CST_STK_STAT.REF2X (R141). -/
def F.cstStkStat_ref2x (p : Nat) : RegField := ⟨0x401100 + 0x1000 * p, 8, 8, false⟩
/-- CST_STK_STAT.REPAIRED (R141). -/
def F.cstStkStat_repaired (p : Nat) : RegField := ⟨0x401100 + 0x1000 * p, 5, 0, false⟩
/-- CST_STK_TRAIN.STATE (R141). -/
def F.cstStkTrain (p : Nat) : RegField := ⟨0x401104 + 0x1000 * p, 1, 0, false⟩
/-- CST_STK_CNT.COUNT (R141). -/
def F.cstStkCnt (p i : Nat) : RegField := ⟨0x401140 + 0x1000 * p + 0x4 * i, 31, 0, false⟩
/-- BPM_OP.OP (R141). -/
def F.bpmOp_op : RegField := ⟨0x500100, 31, 28, false⟩
/-- BPM_OP.OWNER (R141). -/
def F.bpmOp_owner : RegField := ⟨0x500100, 27, 22, false⟩
/-- BPM_OP.TARGET (R141). -/
def F.bpmOp_target : RegField := ⟨0x500100, 21, 16, false⟩
/-- BPM_OP.ADDR (R141). -/
def F.bpmOp_addr : RegField := ⟨0x500100, 15, 15, false⟩
/-- BPM_OP_HANDLE.HANDLE (R141). -/
def F.bpmOpHandle : RegField := ⟨0x500104, 31, 0, false⟩
/-- BPM_OP_ADDR_LO.ADDR_LO (R141). -/
def F.bpmOpAddrLo : RegField := ⟨0x500108, 31, 0, false⟩
/-- BPM_OP_ADDR_HI.ADDR_HI (R141). -/
def F.bpmOpAddrHi : RegField := ⟨0x50010C, 31, 0, false⟩
/-- BPM_OP_MASK_LO.MASK_LO (R141). -/
def F.bpmOpMaskLo : RegField := ⟨0x500110, 31, 0, false⟩
/-- BPM_OP_MASK_HI.MASK_HI (R141). -/
def F.bpmOpMaskHi : RegField := ⟨0x500114, 31, 0, false⟩
/-- BPM_OP_RESULT.RESULT (R141). -/
def F.bpmOpResult : RegField := ⟨0x500118, 31, 0, false⟩
/-- BPM_OP_STATUS.STATUS (R141). -/
def F.bpmOpStatus : RegField := ⟨0x50011C, 2, 0, false⟩
/-- BPM_STAT.OVERCOMMIT (R141). -/
def F.bpmStat_overcommit : RegField := ⟨0x500120, 24, 24, false⟩
/-- BPM_STAT.FREE (R141). -/
def F.bpmStat_free : RegField := ⟨0x500120, 22, 0, false⟩
/-- BPM_CNT.COUNT (R141). -/
def F.bpmCnt (i : Nat) : RegField := ⟨0x500140 + 0x4 * i, 31, 0, false⟩
/-- BPM_POOL_SIZE.SIZE (R141). -/
def F.bpmPoolSize (p : Nat) : RegField := ⟨0x501100 + 0x1000 * p, 22, 0, true⟩
/-- BPM_POOL_CFG.STACKS (R141). -/
def F.bpmPoolCfg_stacks (p : Nat) : RegField := ⟨0x501104 + 0x1000 * p, 27, 24, true⟩
/-- BPM_POOL_CFG.HYST (R141). -/
def F.bpmPoolCfg_hyst (p : Nat) : RegField := ⟨0x501104 + 0x1000 * p, 22, 0, true⟩
/-- BPM_POOL_WARN.WARN (R141). -/
def F.bpmPoolWarn (p : Nat) : RegField := ⟨0x501108 + 0x1000 * p, 22, 0, true⟩
/-- BPM_POOL_PRESS.PRESS (R141). -/
def F.bpmPoolPress (p : Nat) : RegField := ⟨0x50110C + 0x1000 * p, 22, 0, true⟩
/-- BPM_POOL_CRIT.CRIT (R141). -/
def F.bpmPoolCrit (p : Nat) : RegField := ⟨0x501110 + 0x1000 * p, 22, 0, true⟩
/-- BPM_POOL_USED.USED (R141). -/
def F.bpmPoolUsed (p : Nat) : RegField := ⟨0x501114 + 0x1000 * p, 22, 0, false⟩
/-- BPM_POOL_SPARE.SPARE (R141). -/
def F.bpmPoolSpare (p : Nat) : RegField := ⟨0x501118 + 0x1000 * p, 22, 0, false⟩
/-- BPM_POOL_STAT.BP (R141). -/
def F.bpmPoolStat_bp (p : Nat) : RegField := ⟨0x50111C + 0x1000 * p, 3, 3, false⟩
/-- BPM_POOL_STAT.CRITICAL (R141). -/
def F.bpmPoolStat_critical (p : Nat) : RegField := ⟨0x50111C + 0x1000 * p, 2, 2, false⟩
/-- BPM_POOL_STAT.PRESSURE (R141). -/
def F.bpmPoolStat_pressure (p : Nat) : RegField := ⟨0x50111C + 0x1000 * p, 1, 1, false⟩
/-- BPM_POOL_STAT.WARN (R141). -/
def F.bpmPoolStat_warn (p : Nat) : RegField := ⟨0x50111C + 0x1000 * p, 0, 0, false⟩
/-- BPM_OWN_CFG.REGION (R141). -/
def F.bpmOwnCfg_region (p : Nat) : RegField := ⟨0x520100 + 0x1000 * p, 31, 28, true⟩
/-- BPM_OWN_CFG.POOL (R141). -/
def F.bpmOwnCfg_pool (p : Nat) : RegField := ⟨0x520100 + 0x1000 * p, 27, 24, true⟩
/-- BPM_OWN_CFG.HEIR (R141). -/
def F.bpmOwnCfg_heir (p : Nat) : RegField := ⟨0x520100 + 0x1000 * p, 5, 0, true⟩
/-- BPM_OWN_RSV.RESERVE (R141). -/
def F.bpmOwnRsv (p : Nat) : RegField := ⟨0x520104 + 0x1000 * p, 22, 0, true⟩
/-- BPM_OWN_HELD.HELD (R141). -/
def F.bpmOwnHeld (p : Nat) : RegField := ⟨0x520108 + 0x1000 * p, 22, 0, false⟩
/-- BPM_OWN_GRANTED.GRANTED (R141). -/
def F.bpmOwnGranted (p : Nat) : RegField := ⟨0x52010C + 0x1000 * p, 22, 0, false⟩
/-- SFL_STAT.STATE (R209). -/
def F.sflStat : RegField := ⟨0x600100, 1, 0, false⟩
/-- SFL_SEQ_LO.LO (R209). -/
def F.sflSeqLo : RegField := ⟨0x600104, 31, 0, false⟩
/-- SFL_SEQ_HI.HI (R209). -/
def F.sflSeqHi : RegField := ⟨0x600108, 15, 0, false⟩
/-- SFL_TIME.TIME (R209). -/
def F.sflTime : RegField := ⟨0x60010C, 31, 0, false⟩
/-- SFL_CAP_LO.LO (R209). -/
def F.sflCapLo : RegField := ⟨0x600110, 31, 0, false⟩
/-- SFL_CAP_HI.HI (R209). -/
def F.sflCapHi : RegField := ⟨0x600114, 31, 0, false⟩
/-- SFL_VALID_LO.LO (R209). -/
def F.sflValidLo : RegField := ⟨0x600118, 31, 0, false⟩
/-- SFL_VALID_HI.HI (R209). -/
def F.sflValidHi : RegField := ⟨0x60011C, 31, 0, false⟩
/-- SFL_REBUILD_TIME.TIME (R209). -/
def F.sflRebuildTime : RegField := ⟨0x600120, 31, 0, false⟩
/-- SFL_REBUILD_SCAN.SCAN (R209). -/
def F.sflRebuildScan : RegField := ⟨0x600124, 31, 0, false⟩
/-- SFL_CNT.COUNT (R209). -/
def F.sflCnt (i : Nat) : RegField := ⟨0x600140 + 0x4 * i, 31, 0, false⟩
/-- SFL_FC_CFG.CE_EN (R209). -/
def F.sflFcCfg_ceEn (p : Nat) : RegField := ⟨0x601100 + 0x1000 * p, 23, 16, true⟩
/-- SFL_FC_CFG.BAD_LIMIT (R209). -/
def F.sflFcCfg_badLimit (p : Nat) : RegField := ⟨0x601100 + 0x1000 * p, 15, 8, true⟩
/-- SFL_FC_CFG.ODT (R209). -/
def F.sflFcCfg_odt (p : Nat) : RegField := ⟨0x601100 + 0x1000 * p, 3, 2, true⟩
/-- SFL_FC_CFG.DRV (R209). -/
def F.sflFcCfg_drv (p : Nat) : RegField := ⟨0x601100 + 0x1000 * p, 1, 0, true⟩
/-- SFL_FC_CE.GROWN (R209). -/
def F.sflFcCe_grown (p i : Nat) : RegField := ⟨0x601104 + 0x1000 * p + 0x4 * i, 23, 16, false⟩
/-- SFL_FC_CE.LUNS (R209). -/
def F.sflFcCe_luns (p i : Nat) : RegField := ⟨0x601104 + 0x1000 * p + 0x4 * i, 11, 8, false⟩
/-- SFL_FC_CE.TYPE (R209). -/
def F.sflFcCe_type (p i : Nat) : RegField := ⟨0x601104 + 0x1000 * p + 0x4 * i, 5, 4, false⟩
/-- SFL_FC_CE.STATE (R209). -/
def F.sflFcCe_state (p i : Nat) : RegField := ⟨0x601104 + 0x1000 * p + 0x4 * i, 1, 0, false⟩
/-- SFL_FC_STAT.MTS (R209). -/
def F.sflFcStat_mts (p : Nat) : RegField := ⟨0x601124 + 0x1000 * p, 31, 16, false⟩
/-- SFL_FC_STAT.TRAIN (R209). -/
def F.sflFcStat_train (p : Nat) : RegField := ⟨0x601124 + 0x1000 * p, 1, 0, false⟩
/-- SFL_FC_CNT.COUNT (R209). -/
def F.sflFcCnt (p i : Nat) : RegField := ⟨0x601140 + 0x1000 * p + 0x4 * i, 31, 0, false⟩
/-- SFL_DIE_ID0.ID0 (R209). -/
def F.sflDieId0 (p : Nat) : RegField := ⟨0x640100 + 0x1000 * p, 31, 0, true⟩
/-- SFL_DIE_ID1.ID1 (R209). -/
def F.sflDieId1 (p : Nat) : RegField := ⟨0x640104 + 0x1000 * p, 15, 0, true⟩
/-- SFL_DIE_GEOM.PAGE (R209). -/
def F.sflDieGeom_page (p : Nat) : RegField := ⟨0x640108 + 0x1000 * p, 31, 31, true⟩
/-- SFL_DIE_GEOM.LUNS (R209). -/
def F.sflDieGeom_luns (p : Nat) : RegField := ⟨0x640108 + 0x1000 * p, 30, 28, true⟩
/-- SFL_DIE_GEOM.UNITS (R209). -/
def F.sflDieGeom_units (p : Nat) : RegField := ⟨0x640108 + 0x1000 * p, 27, 16, true⟩
/-- SFL_DIE_GEOM.BLOCKS (R209). -/
def F.sflDieGeom_blocks (p : Nat) : RegField := ⟨0x640108 + 0x1000 * p, 15, 0, true⟩
/-- SFL_DIE_IF.IFACE (R209). -/
def F.sflDieIf_iface (p : Nat) : RegField := ⟨0x64010C + 0x1000 * p, 31, 31, true⟩
/-- SFL_DIE_IF.PARITY (R209). -/
def F.sflDieIf_parity (p : Nat) : RegField := ⟨0x64010C + 0x1000 * p, 30, 28, true⟩
/-- SFL_DIE_IF.RATE (R209). -/
def F.sflDieIf_rate (p : Nat) : RegField := ⟨0x64010C + 0x1000 * p, 21, 16, true⟩
/-- SFL_DIE_IF.SPARE (R209). -/
def F.sflDieIf_spare (p : Nat) : RegField := ⟨0x64010C + 0x1000 * p, 15, 0, true⟩
/-- SFL_DIE_TPROG.TPROG (R209). -/
def F.sflDieTprog (p : Nat) : RegField := ⟨0x640110 + 0x1000 * p, 15, 0, true⟩
/-- SFL_DIE_TBERS.TBERS (R209). -/
def F.sflDieTbers (p : Nat) : RegField := ⟨0x640114 + 0x1000 * p, 15, 0, true⟩
/-- SFL_DIE_TR.TR (R209). -/
def F.sflDieTr (p : Nat) : RegField := ⟨0x640118 + 0x1000 * p, 15, 0, true⟩
/-- SFL_DIE_FEAT.RO_FEAT (R209). -/
def F.sflDieFeat_roFeat (p : Nat) : RegField := ⟨0x64011C + 0x1000 * p, 31, 24, true⟩
/-- SFL_DIE_FEAT.TEMP_FEAT (R209). -/
def F.sflDieFeat_tempFeat (p : Nat) : RegField := ⟨0x64011C + 0x1000 * p, 23, 16, true⟩
/-- SFL_DIE_FEAT.RETRY (R209). -/
def F.sflDieFeat_retry (p : Nat) : RegField := ⟨0x64011C + 0x1000 * p, 15, 12, true⟩
/-- SFL_DIE_FEAT.SOFT_STEP (R209). -/
def F.sflDieFeat_softStep (p : Nat) : RegField := ⟨0x64011C + 0x1000 * p, 7, 0, true⟩
/-- SFL_DIE_THR.P4 (R209). -/
def F.sflDieThr_p4 (p i : Nat) : RegField := ⟨0x640800 + 0x1000 * p + 0x4 * i, 31, 24, true⟩
/-- SFL_DIE_THR.P3 (R209). -/
def F.sflDieThr_p3 (p i : Nat) : RegField := ⟨0x640800 + 0x1000 * p + 0x4 * i, 23, 16, true⟩
/-- SFL_DIE_THR.P2 (R209). -/
def F.sflDieThr_p2 (p i : Nat) : RegField := ⟨0x640800 + 0x1000 * p + 0x4 * i, 15, 8, true⟩
/-- SFL_DIE_THR.P1 (R209). -/
def F.sflDieThr_p1 (p i : Nat) : RegField := ⟨0x640800 + 0x1000 * p + 0x4 * i, 7, 0, true⟩
/-- SFL_MAP_BASE.BASE (R209). -/
def F.sflMapBase : RegField := ⟨0x650100, 31, 0, false⟩
/-- SFL_DIR_BASE.BASE (R209). -/
def F.sflDirBase : RegField := ⟨0x650104, 31, 0, false⟩
/-- SFL_MAP_CFG.PAIR_WAIT (R209). -/
def F.sflMapCfg : RegField := ⟨0x650108, 11, 0, true⟩
/-- SFL_MAP_STAT.PINNED (R209). -/
def F.sflMapStat_pinned : RegField := ⟨0x65010C, 31, 16, false⟩
/-- SFL_MAP_STAT.DIRTY (R209). -/
def F.sflMapStat_dirty : RegField := ⟨0x65010C, 15, 0, false⟩
/-- SFL_GC_CFG.START (R209). -/
def F.sflGcCfg_start : RegField := ⟨0x651100, 31, 24, true⟩
/-- SFL_GC_CFG.URGENT (R209). -/
def F.sflGcCfg_urgent : RegField := ⟨0x651100, 23, 16, true⟩
/-- SFL_GC_CFG.RESERVE (R209). -/
def F.sflGcCfg_reserve : RegField := ⟨0x651100, 15, 8, true⟩
/-- SFL_GC_CFG.SHARE (R209). -/
def F.sflGcCfg_share : RegField := ⟨0x651100, 7, 4, true⟩
/-- SFL_WEAR_CFG.DELTA (R209). -/
def F.sflWearCfg_delta : RegField := ⟨0x651104, 31, 16, true⟩
/-- SFL_WEAR_CFG.REFRESH_BIN (R209). -/
def F.sflWearCfg_refreshBin : RegField := ⟨0x651104, 11, 8, true⟩
/-- SFL_GC_STAT.FREE_MIN (R209). -/
def F.sflGcStat_freeMin : RegField := ⟨0x651108, 23, 16, false⟩
/-- SFL_GC_STAT.MODE (R209). -/
def F.sflGcStat_mode : RegField := ⟨0x651108, 1, 0, false⟩
/-- SFL_GC_SRC.SRC (R209). -/
def F.sflGcSrc : RegField := ⟨0x65110C, 31, 0, false⟩
/-- SFL_GC_DST.DST (R209). -/
def F.sflGcDst : RegField := ⟨0x651110, 31, 0, false⟩
/-- SFL_WEAR_STAT.HIGH (R209). -/
def F.sflWearStat_high : RegField := ⟨0x651114, 31, 16, false⟩
/-- SFL_WEAR_STAT.LOW (R209). -/
def F.sflWearStat_low : RegField := ⟨0x651114, 15, 0, false⟩
/-- SFL_JRN_CFG.INTERVAL (R209). -/
def F.sflJrnCfg : RegField := ⟨0x652100, 11, 0, true⟩
/-- SFL_JRN_STAT.CKPT (R209). -/
def F.sflJrnStat_ckpt : RegField := ⟨0x652104, 31, 31, false⟩
/-- SFL_JRN_STAT.USED (R209). -/
def F.sflJrnStat_used : RegField := ⟨0x652104, 19, 0, false⟩
/-- SFL_JRN_CKPT.NUM (R209). -/
def F.sflJrnCkpt : RegField := ⟨0x652108, 31, 0, false⟩
/-- SFL_JRN_CTRL.KEY (R209). -/
def F.sflJrnCtrl_key : RegField := ⟨0x65210C, 31, 24, false⟩
/-- SFL_JRN_CTRL.CKPT (R209). -/
def F.sflJrnCtrl_ckpt : RegField := ⟨0x65210C, 1, 1, false⟩
/-- SFL_JRN_CTRL.FLUSH (R209). -/
def F.sflJrnCtrl_flush : RegField := ⟨0x65210C, 0, 0, false⟩
/-- SFL_AES_BUSY.BUSY (R209). -/
def F.sflAesBusy : RegField := ⟨0x653100, 7, 0, false⟩
/-- SFL_AES_CNT.COUNT (R209). -/
def F.sflAesCnt (i : Nat) : RegField := ⟨0x653140 + 0x4 * i, 31, 0, false⟩
/-- SFL_AES_KEYID.ID (R209). -/
def F.sflAesKeyid (i : Nat) : RegField := ⟨0x653200 + 0x4 * i, 31, 0, false⟩
/-- SFL_VOL_BASE.BASE (R209). -/
def F.sflVolBase (p : Nat) : RegField := ⟨0x660100 + 0x1000 * p, 21, 0, true⟩
/-- SFL_VOL_SIZE.SIZE (R209). -/
def F.sflVolSize (p : Nat) : RegField := ⟨0x660104 + 0x1000 * p, 22, 0, true⟩
/-- SFL_VOL_CFG.AES (R209). -/
def F.sflVolCfg_aes (p : Nat) : RegField := ⟨0x660108 + 0x1000 * p, 31, 31, true⟩
/-- SFL_VOL_CFG.KEY (R209). -/
def F.sflVolCfg_key (p : Nat) : RegField := ⟨0x660108 + 0x1000 * p, 29, 24, true⟩
/-- SFL_VOL_CFG.IDX (R209). -/
def F.sflVolCfg_idx (p : Nat) : RegField := ⟨0x660108 + 0x1000 * p, 19, 0, true⟩
/-- SFL_VOL_APPEND_LO.LO (R209). -/
def F.sflVolAppendLo (p : Nat) : RegField := ⟨0x66010C + 0x1000 * p, 31, 0, false⟩
/-- SFL_VOL_APPEND_HI.HI (R209). -/
def F.sflVolAppendHi (p : Nat) : RegField := ⟨0x660110 + 0x1000 * p, 15, 0, false⟩
/-- SFL_VOL_IDX_NEXT.NEXT (R209). -/
def F.sflVolIdxNext (p : Nat) : RegField := ⟨0x660114 + 0x1000 * p, 31, 0, false⟩
/-- PAR_REG_CFG.SYS_SET (R246). -/
def F.parRegCfg : RegField := ⟨0x700100, 2, 0, true⟩
/-- PAR_ENG_FENCED.FENCED (R246). -/
def F.parEngFenced : RegField := ⟨0x700104, 15, 0, false⟩
/-- PAR_CNT.COUNT (R246). -/
def F.parCnt (i : Nat) : RegField := ⟨0x700140 + 0x4 * i, 31, 0, false⟩
/-- PAR_SET_MEM.MEMBERS (R246). -/
def F.parSetMem (p : Nat) : RegField := ⟨0x701100 + 0x1000 * p, 31, 0, true⟩
/-- PAR_SET_CFG.EN (R246). -/
def F.parSetCfg_en (p : Nat) : RegField := ⟨0x701104 + 0x1000 * p, 31, 31, true⟩
/-- PAR_SET_CFG.Q (R246). -/
def F.parSetCfg_q (p : Nat) : RegField := ⟨0x701104 + 0x1000 * p, 30, 30, true⟩
/-- PAR_SET_CFG.TARGET (R246). -/
def F.parSetCfg_target (p : Nat) : RegField := ⟨0x701104 + 0x1000 * p, 29, 27, true⟩
/-- PAR_SET_CFG.FILL_WAIT (R246). -/
def F.parSetCfg_fillWait (p : Nat) : RegField := ⟨0x701104 + 0x1000 * p, 11, 0, true⟩
/-- PAR_SET_VOL_LO.LO (R246). -/
def F.parSetVolLo (p : Nat) : RegField := ⟨0x701108 + 0x1000 * p, 31, 0, true⟩
/-- PAR_SET_VOL_HI.HI (R246). -/
def F.parSetVolHi (p : Nat) : RegField := ⟨0x70110C + 0x1000 * p, 31, 0, true⟩
/-- PAR_SET_RATE.RESHAPE (R246). -/
def F.parSetRate_reshape (p : Nat) : RegField := ⟨0x701110 + 0x1000 * p, 31, 16, true⟩
/-- PAR_SET_RATE.REBUILD (R246). -/
def F.parSetRate_rebuild (p : Nat) : RegField := ⟨0x701110 + 0x1000 * p, 15, 0, true⟩
/-- PAR_SET_STAT.PRESENT (R246). -/
def F.parSetStat_present (p : Nat) : RegField := ⟨0x701114 + 0x1000 * p, 23, 16, false⟩
/-- PAR_SET_STAT.REBUILD (R246). -/
def F.parSetStat_rebuild (p : Nat) : RegField := ⟨0x701114 + 0x1000 * p, 8, 8, false⟩
/-- PAR_SET_STAT.RESHAPE (R246). -/
def F.parSetStat_reshape (p : Nat) : RegField := ⟨0x701114 + 0x1000 * p, 5, 4, false⟩
/-- PAR_SET_STAT.STATE (R246). -/
def F.parSetStat_state (p : Nat) : RegField := ⟨0x701114 + 0x1000 * p, 3, 0, false⟩
/-- PAR_SET_LOST.LOST (R246). -/
def F.parSetLost (p : Nat) : RegField := ⟨0x701118 + 0x1000 * p, 31, 0, false⟩
/-- PAR_SET_STALE.STALE (R246). -/
def F.parSetStale (p : Nat) : RegField := ⟨0x70111C + 0x1000 * p, 31, 0, false⟩
/-- PAR_SET_CUR.CUR (R246). -/
def F.parSetCur (p : Nat) : RegField := ⟨0x701120 + 0x1000 * p, 31, 0, false⟩
/-- PAR_SET_CNT.COUNT (R246). -/
def F.parSetCnt (p i : Nat) : RegField := ⟨0x701140 + 0x1000 * p + 0x4 * i, 31, 0, false⟩
/-- PAR_SJ_CFG.JCH (R246). -/
def F.parSjCfg_jch : RegField := ⟨0x709100, 28, 24, true⟩
/-- PAR_SJ_CFG.SHADOW_INT (R246). -/
def F.parSjCfg_shadowInt : RegField := ⟨0x709100, 11, 0, true⟩
/-- PAR_SJ_STAT.BANK_A (R246). -/
def F.parSjStat_bankA : RegField := ⟨0x709104, 31, 31, false⟩
/-- PAR_SJ_STAT.BANK_B (R246). -/
def F.parSjStat_bankB : RegField := ⟨0x709104, 30, 30, false⟩
/-- PAR_SJ_STAT.SHADOW_OK (R246). -/
def F.parSjStat_shadowOk : RegField := ⟨0x709104, 29, 29, false⟩
/-- PAR_SJ_STAT.SCH (R246). -/
def F.parSjStat_sch : RegField := ⟨0x709104, 28, 24, false⟩
/-- PAR_SJ_STAT.USED (R246). -/
def F.parSjStat_used : RegField := ⟨0x709104, 16, 0, false⟩
/-- PAR_SJ_SNAP.SNAP (R246). -/
def F.parSjSnap : RegField := ⟨0x709108, 31, 0, false⟩
/-- PAR_DISC_STAGE.RUNS (R246). -/
def F.parDiscStage_runs : RegField := ⟨0x70A100, 30, 24, true⟩
/-- PAR_DISC_STAGE.BASE (R246). -/
def F.parDiscStage_base : RegField := ⟨0x70A100, 21, 0, true⟩
/-- PAR_DISC_STAT.OPEN (R246). -/
def F.parDiscStat : RegField := ⟨0x70A104, 6, 0, false⟩
/-- PAR_DISC_CNT.COUNT (R246). -/
def F.parDiscCnt (i : Nat) : RegField := ⟨0x70A140 + 0x4 * i, 31, 0, false⟩
/-- ODR_CAT_CFG.EN (R278). -/
def F.odrCatCfg_en : RegField := ⟨0x800100, 31, 31, true⟩
/-- ODR_CAT_CFG.BASE (R278). -/
def F.odrCatCfg_base : RegField := ⟨0x800100, 21, 0, true⟩
/-- ODR_CAT_STAT.USED (R278). -/
def F.odrCatStat : RegField := ⟨0x800104, 16, 0, false⟩
/-- DRV_CTRL.HOLD (R278). -/
def F.drvCtrl_hold (p : Nat) : RegField := ⟨0x801100 + 0x1000 * p, 2, 2, false⟩
/-- DRV_CTRL.REC_EN (R278). -/
def F.drvCtrl_recEn (p : Nat) : RegField := ⟨0x801100 + 0x1000 * p, 1, 1, false⟩
/-- DRV_CTRL.JDM_COMPAT (R278). -/
def F.drvCtrl_jdmCompat (p : Nat) : RegField := ⟨0x801100 + 0x1000 * p, 0, 0, false⟩
/-- DRV_STAT.DISC (R278). -/
def F.drvStat_disc (p : Nat) : RegField := ⟨0x801104 + 0x1000 * p, 19, 16, false⟩
/-- DRV_STAT.FORMAT (R278). -/
def F.drvStat_format (p : Nat) : RegField := ⟨0x801104 + 0x1000 * p, 9, 8, false⟩
/-- DRV_STAT.RDONLY (R278). -/
def F.drvStat_rdonly (p : Nat) : RegField := ⟨0x801104 + 0x1000 * p, 3, 3, false⟩
/-- DRV_STAT.STATE (R278). -/
def F.drvStat_state (p : Nat) : RegField := ⟨0x801104 + 0x1000 * p, 2, 0, false⟩
/-- DRV_SHELL.SHELL (R278). -/
def F.drvShell (p : Nat) : RegField := ⟨0x801108 + 0x1000 * p, 15, 0, false⟩
/-- DRV_NWB.NWB (R278). -/
def F.drvNwb (p : Nat) : RegField := ⟨0x80110C + 0x1000 * p, 25, 0, false⟩
/-- DRV_DDL.BLOCKS (R278). -/
def F.drvDdl_blocks (p : Nat) : RegField := ⟨0x801110 + 0x1000 * p, 27, 16, false⟩
/-- DRV_DDL.PENDING (R278). -/
def F.drvDdl_pending (p : Nat) : RegField := ⟨0x801110 + 0x1000 * p, 12, 0, false⟩
/-- DRV_SPARE.SPARE (R278). -/
def F.drvSpare (p : Nat) : RegField := ⟨0x801114 + 0x1000 * p, 19, 0, false⟩
/-- DRV_SPARE_WARN.WARN (R278). -/
def F.drvSpareWarn (p : Nat) : RegField := ⟨0x801118 + 0x1000 * p, 19, 0, false⟩
/-- DRV_CNT.COUNT (R278). -/
def F.drvCnt (p i : Nat) : RegField := ⟨0x801140 + 0x1000 * p + 0x4 * i, 31, 0, false⟩
/-- LDR_CFG.SITE (R278). -/
def F.ldrCfg_site : RegField := ⟨0x808100, 31, 16, true⟩
/-- LDR_CFG.IO_SLOT (R278). -/
def F.ldrCfg_ioSlot : RegField := ⟨0x808100, 15, 8, true⟩
/-- LDR_CFG.SLOTS (R278). -/
def F.ldrCfg_slots : RegField := ⟨0x808100, 6, 0, true⟩
/-- LDR_CTRL.ACT (R278). -/
def F.ldrCtrl : RegField := ⟨0x808104, 2, 0, false⟩
/-- LDR_STAT.STATE (R278). -/
def F.ldrStat : RegField := ⟨0x808108, 3, 0, false⟩
/-- LDR_BAY.VALID (R278). -/
def F.ldrBay_valid : RegField := ⟨0x80810C, 31, 31, false⟩
/-- LDR_BAY.DISCS (R278). -/
def F.ldrBay_discs : RegField := ⟨0x80810C, 27, 16, false⟩
/-- LDR_BAY.INDEX (R278). -/
def F.ldrBay_index : RegField := ⟨0x80810C, 15, 0, false⟩
/-- LDR_SLOT.OCC (R278). -/
def F.ldrSlot_occ (i : Nat) : RegField := ⟨0x808200 + 0x4 * i, 31, 31, false⟩
/-- LDR_SLOT.KNOWN (R278). -/
def F.ldrSlot_known (i : Nat) : RegField := ⟨0x808200 + 0x4 * i, 30, 30, false⟩
/-- LDR_SLOT.INDEX (R278). -/
def F.ldrSlot_index (i : Nat) : RegField := ⟨0x808200 + 0x4 * i, 15, 0, false⟩
/-- HL_CFG.VER1 (R309). -/
def F.hlCfg_ver1 (p : Nat) : RegField := ⟨0x810100 + 0x1000 * p, 8, 8, false⟩
/-- HL_CFG.TX_INV (R309). -/
def F.hlCfg_txInv (p : Nat) : RegField := ⟨0x810100 + 0x1000 * p, 7, 4, true⟩
/-- HL_CFG.RX_INV (R309). -/
def F.hlCfg_rxInv (p : Nat) : RegField := ⟨0x810100 + 0x1000 * p, 3, 0, true⟩
/-- HL_LANE_STAT.SKEW (R309). -/
def F.hlLaneStat_skew (p i : Nat) : RegField := ⟨0x810104 + 0x1000 * p + 0x4 * i, 31, 24, false⟩
/-- HL_LANE_STAT.STATE (R309). -/
def F.hlLaneStat_state (p i : Nat) : RegField := ⟨0x810104 + 0x1000 * p + 0x4 * i, 2, 0, false⟩
/-- HL_SRATE.KHZ (R309). -/
def F.hlSrate (p : Nat) : RegField := ⟨0x810114 + 0x1000 * p, 31, 0, false⟩
/-- HL_HEAD.ID (R309). -/
def F.hlHead_id (p : Nat) : RegField := ⟨0x810118 + 0x1000 * p, 31, 16, false⟩
/-- HL_HEAD.FW (R309). -/
def F.hlHead_fw (p : Nat) : RegField := ⟨0x810118 + 0x1000 * p, 15, 8, false⟩
/-- HL_HEAD.HSTATE (R309). -/
def F.hlHead_hstate (p : Nat) : RegField := ⟨0x810118 + 0x1000 * p, 7, 0, false⟩
/-- HL_CNT.COUNT (R309). -/
def F.hlCnt (p i : Nat) : RegField := ⟨0x810140 + 0x1000 * p + 0x4 * i, 31, 0, false⟩
/-- RC_CFG.REALLOC_EN (R309). -/
def F.rcCfg_reallocEn (p : Nat) : RegField := ⟨0x814100 + 0x1000 * p, 31, 31, true⟩
/-- RC_CFG.CANC_EN (R309). -/
def F.rcCfg_cancEn (p : Nat) : RegField := ⟨0x814100 + 0x1000 * p, 30, 30, true⟩
/-- RC_CFG.EQ_ADAPT (R309). -/
def F.rcCfg_eqAdapt (p : Nat) : RegField := ⟨0x814100 + 0x1000 * p, 29, 29, true⟩
/-- RC_CFG.LADDER_MAX (R309). -/
def F.rcCfg_ladderMax (p : Nat) : RegField := ⟨0x814100 + 0x1000 * p, 26, 24, true⟩
/-- RC_CFG.RS_THR (R309). -/
def F.rcCfg_rsThr (p : Nat) : RegField := ⟨0x814100 + 0x1000 * p, 21, 20, true⟩
/-- RC_CFG.SYNC_TOL (R309). -/
def F.rcCfg_syncTol (p : Nat) : RegField := ⟨0x814100 + 0x1000 * p, 19, 16, true⟩
/-- RC_CFG.ITER0 (R309). -/
def F.rcCfg_iter0 (p : Nat) : RegField := ⟨0x814100 + 0x1000 * p, 4, 0, true⟩
/-- RC_DEF.DROP (R309). -/
def F.rcDef_drop (p : Nat) : RegField := ⟨0x814104 + 0x1000 * p, 31, 26, true⟩
/-- RC_DEF.RECOVER (R309). -/
def F.rcDef_recover (p : Nat) : RegField := ⟨0x814104 + 0x1000 * p, 25, 20, true⟩
/-- RC_DEF.LEN (R309). -/
def F.rcDef_len (p : Nat) : RegField := ⟨0x814104 + 0x1000 * p, 19, 13, true⟩
/-- RC_DEF.PAD (R309). -/
def F.rcDef_pad (p : Nat) : RegField := ⟨0x814104 + 0x1000 * p, 5, 0, true⟩
/-- RC_LOOP.AGC_MU (R309). -/
def F.rcLoop_agcMu (p : Nat) : RegField := ⟨0x814108 + 0x1000 * p, 31, 28, true⟩
/-- RC_LOOP.OFS_MU (R309). -/
def F.rcLoop_ofsMu (p : Nat) : RegField := ⟨0x814108 + 0x1000 * p, 27, 24, true⟩
/-- RC_LOOP.ASYM_MU (R309). -/
def F.rcLoop_asymMu (p : Nat) : RegField := ⟨0x814108 + 0x1000 * p, 23, 20, true⟩
/-- RC_LOOP.EQ_MU (R309). -/
def F.rcLoop_eqMu (p : Nat) : RegField := ⟨0x814108 + 0x1000 * p, 19, 16, true⟩
/-- RC_LOOP.CANC_MU (R309). -/
def F.rcLoop_cancMu (p : Nat) : RegField := ⟨0x814108 + 0x1000 * p, 15, 12, true⟩
/-- RC_LOOP.TR_KP (R309). -/
def F.rcLoop_trKp (p : Nat) : RegField := ⟨0x814108 + 0x1000 * p, 11, 8, true⟩
/-- RC_LOOP.TR_KI (R309). -/
def F.rcLoop_trKi (p : Nat) : RegField := ⟨0x814108 + 0x1000 * p, 7, 4, true⟩
/-- RC_TARGET.T3 (R309). -/
def F.rcTarget_t3 (p : Nat) : RegField := ⟨0x81410C + 0x1000 * p, 31, 24, true⟩
/-- RC_TARGET.T2 (R309). -/
def F.rcTarget_t2 (p : Nat) : RegField := ⟨0x81410C + 0x1000 * p, 23, 16, true⟩
/-- RC_TARGET.T1 (R309). -/
def F.rcTarget_t1 (p : Nat) : RegField := ⟨0x81410C + 0x1000 * p, 15, 8, true⟩
/-- RC_TARGET.T0 (R309). -/
def F.rcTarget_t0 (p : Nat) : RegField := ⟨0x81410C + 0x1000 * p, 7, 0, true⟩
/-- RC_TARGET4.T4 (R309). -/
def F.rcTarget4 (p : Nat) : RegField := ⟨0x814110 + 0x1000 * p, 7, 0, true⟩
/-- RC_LLR.SCALE (R309). -/
def F.rcLlr (p : Nat) : RegField := ⟨0x814114 + 0x1000 * p, 7, 0, true⟩
/-- RC_OFS.TRK_OFS (R309). -/
def F.rcOfs_trkOfs (p : Nat) : RegField := ⟨0x814118 + 0x1000 * p, 15, 8, true⟩
/-- RC_OFS.FOC_OFS (R309). -/
def F.rcOfs_focOfs (p : Nat) : RegField := ⟨0x814118 + 0x1000 * p, 7, 0, true⟩
/-- RC_AGC.ATGT (R309). -/
def F.rcAgc (p : Nat) : RegField := ⟨0x81411C + 0x1000 * p, 7, 0, true⟩
/-- RC_BEAM_OFF.MASK (R309). -/
def F.rcBeamOff (p : Nat) : RegField := ⟨0x814120 + 0x1000 * p, 17, 0, true⟩
/-- RC_LVL_CNT.COUNT (R309). -/
def F.rcLvlCnt (p i : Nat) : RegField := ⟨0x814140 + 0x1000 * p + 0x4 * i, 31, 0, false⟩
/-- RC_FAIL.COUNT (R309). -/
def F.rcFail (p : Nat) : RegField := ⟨0x814160 + 0x1000 * p, 31, 0, false⟩
/-- RC_FILLS.COUNT (R309). -/
def F.rcFills (p : Nat) : RegField := ⟨0x814164 + 0x1000 * p, 31, 0, false⟩
/-- RC_MISCOR.COUNT (R309). -/
def F.rcMiscor (p : Nat) : RegField := ⟨0x814168 + 0x1000 * p, 31, 0, false⟩
/-- RC_REALLOC.COUNT (R309). -/
def F.rcRealloc (p : Nat) : RegField := ⟨0x81416C + 0x1000 * p, 31, 0, false⟩
/-- RC_SKIPPED.COUNT (R309). -/
def F.rcSkipped (p : Nat) : RegField := ⟨0x814170 + 0x1000 * p, 31, 0, false⟩
/-- RC_LAST.LEVEL (R309). -/
def F.rcLast_level (p : Nat) : RegField := ⟨0x814174 + 0x1000 * p, 31, 29, false⟩
/-- RC_LAST.BROW (R309). -/
def F.rcLast_brow (p : Nat) : RegField := ⟨0x814174 + 0x1000 * p, 25, 0, false⟩
/-- RC_EQ_DEF.TAP (R309). -/
def F.rcEqDef (p i : Nat) : RegField := ⟨0x814180 + 0x1000 * p + 0x4 * i, 11, 0, true⟩
/-- RC_BEAM_STAT.LOCK (R309). -/
def F.rcBeamStat_lock (p i : Nat) : RegField := ⟨0x814200 + 0x1000 * p + 0x4 * i, 31, 31, false⟩
/-- RC_BEAM_STAT.DEFECT (R309). -/
def F.rcBeamStat_defect (p i : Nat) : RegField := ⟨0x814200 + 0x1000 * p + 0x4 * i, 30, 30, false⟩
/-- RC_BEAM_STAT.CODE (R309). -/
def F.rcBeamStat_code (p i : Nat) : RegField := ⟨0x814200 + 0x1000 * p + 0x4 * i, 29, 24, false⟩
/-- RC_BEAM_STAT.FGAIN (R309). -/
def F.rcBeamStat_fgain (p i : Nat) : RegField := ⟨0x814200 + 0x1000 * p + 0x4 * i, 23, 12, false⟩
/-- RC_BEAM_STAT.OFFSET (R309). -/
def F.rcBeamStat_offset (p i : Nat) : RegField := ⟨0x814200 + 0x1000 * p + 0x4 * i, 9, 0, false⟩
/-- RC_BEAM_CNT.COUNT (R309). -/
def F.rcBeamCnt (p i j : Nat) : RegField := ⟨0x814400 + 0x1000 * p + 0x20 * i + 0x4 * j, 31, 0, false⟩
/-- LDPC_STAT.BUSY (R309). -/
def F.ldpcStat_busy : RegField := ⟨0x818100, 20, 16, false⟩
/-- LDPC_STAT.WAITING (R309). -/
def F.ldpcStat_waiting : RegField := ⟨0x818100, 11, 0, false⟩
/-- LDPC_FENCED.FENCED (R309). -/
def F.ldpcFenced : RegField := ⟨0x818104, 23, 0, false⟩
/-- LDPC_CNT.COUNT (R309). -/
def F.ldpcCnt (i : Nat) : RegField := ⟨0x818140 + 0x4 * i, 31, 0, false⟩
/-- LDPC_HIST.COUNT (R309). -/
def F.ldpcHist (i : Nat) : RegField := ⟨0x818200 + 0x4 * i, 31, 0, false⟩
/-- TSF_ENT.GAIN (R309). -/
def F.tsfEnt_gain (p i j : Nat) : RegField := ⟨0x81C800 + 0x1000 * p + 0x40 * i + 0x4 * j, 31, 18, false⟩
/-- TSF_ENT.OFFSET (R309). -/
def F.tsfEnt_offset (p i j : Nat) : RegField := ⟨0x81C800 + 0x1000 * p + 0x40 * i + 0x4 * j, 17, 8, false⟩
/-- TSF_ENT.ASYM (R309). -/
def F.tsfEnt_asym (p i j : Nat) : RegField := ⟨0x81C800 + 0x1000 * p + 0x40 * i + 0x4 * j, 7, 0, false⟩
/-- WR_CFG.RQ_MAX (R335). -/
def F.wrCfg_rqMax (p : Nat) : RegField := ⟨0x820100 + 0x1000 * p, 22, 16, true⟩
/-- WR_CFG.WG_CLEAR (R335). -/
def F.wrCfg_wgClear (p : Nat) : RegField := ⟨0x820100 + 0x1000 * p, 15, 8, true⟩
/-- WR_CFG.SHK_FLT (R335). -/
def F.wrCfg_shkFlt (p : Nat) : RegField := ⟨0x820100 + 0x1000 * p, 3, 0, true⟩
/-- WG_LIM.FOC (R335). -/
def F.wgLim_foc (p : Nat) : RegField := ⟨0x820104 + 0x1000 * p, 31, 16, true⟩
/-- WG_LIM.TRK (R335). -/
def F.wgLim_trk (p : Nat) : RegField := ⟨0x820104 + 0x1000 * p, 15, 0, true⟩
/-- WR_VFY.ITER_MAX (R335). -/
def F.wrVfy_iterMax (p : Nat) : RegField := ⟨0x820108 + 0x1000 * p, 28, 24, true⟩
/-- WR_VFY.SPAN8 (R335). -/
def F.wrVfy_span8 (p : Nat) : RegField := ⟨0x820108 + 0x1000 * p, 23, 16, true⟩
/-- WR_VFY.LAG (R335). -/
def F.wrVfy_lag (p : Nat) : RegField := ⟨0x820108 + 0x1000 * p, 15, 0, true⟩
/-- WR_STAT.STATE (R335). -/
def F.wrStat_state (p : Nat) : RegField := ⟨0x82010C + 0x1000 * p, 31, 28, false⟩
/-- WR_STAT.RQ (R335). -/
def F.wrStat_rq (p : Nat) : RegField := ⟨0x82010C + 0x1000 * p, 22, 16, false⟩
/-- WR_STAT.SHK (R335). -/
def F.wrStat_shk (p : Nat) : RegField := ⟨0x82010C + 0x1000 * p, 2, 2, false⟩
/-- WR_STAT.TRK (R335). -/
def F.wrStat_trk (p : Nat) : RegField := ⟨0x82010C + 0x1000 * p, 1, 1, false⟩
/-- WR_STAT.FOC (R335). -/
def F.wrStat_foc (p : Nat) : RegField := ⟨0x82010C + 0x1000 * p, 0, 0, false⟩
/-- WR_CNT.COUNT (R335). -/
def F.wrCnt (p i : Nat) : RegField := ⟨0x820140 + 0x1000 * p + 0x4 * i, 31, 0, false⟩
/-- WR_PWR.PEAK (R335). -/
def F.wrPwr_peak (p i : Nat) : RegField := ⟨0x820200 + 0x1000 * p + 0x4 * i, 31, 24, true⟩
/-- WR_PWR.COOL (R335). -/
def F.wrPwr_cool (p i : Nat) : RegField := ⟨0x820200 + 0x1000 * p + 0x4 * i, 23, 16, true⟩
/-- WR_PWR.BIAS (R335). -/
def F.wrPwr_bias (p i : Nat) : RegField := ⟨0x820200 + 0x1000 * p + 0x4 * i, 15, 8, true⟩
/-- WR_PWR.READ (R335). -/
def F.wrPwr_read (p i : Nat) : RegField := ⟨0x820200 + 0x1000 * p + 0x4 * i, 7, 0, true⟩
/-- WR_TRIM.TRIM (R335). -/
def F.wrTrim (p i : Nat) : RegField := ⟨0x820280 + 0x1000 * p + 0x4 * i, 7, 0, true⟩
/-- WS_LEAD.S3 (R335). -/
def F.wsLead_s3 (p i j : Nat) : RegField := ⟨0x820400 + 0x1000 * p + 0x20 * i + 0x4 * j, 31, 24, true⟩
/-- WS_LEAD.S2 (R335). -/
def F.wsLead_s2 (p i j : Nat) : RegField := ⟨0x820400 + 0x1000 * p + 0x20 * i + 0x4 * j, 23, 16, true⟩
/-- WS_LEAD.S1 (R335). -/
def F.wsLead_s1 (p i j : Nat) : RegField := ⟨0x820400 + 0x1000 * p + 0x20 * i + 0x4 * j, 15, 8, true⟩
/-- WS_LEAD.S0 (R335). -/
def F.wsLead_s0 (p i j : Nat) : RegField := ⟨0x820400 + 0x1000 * p + 0x20 * i + 0x4 * j, 7, 0, true⟩
/-- WS_TRAIL.S3 (R335). -/
def F.wsTrail_s3 (p i j : Nat) : RegField := ⟨0x820480 + 0x1000 * p + 0x20 * i + 0x4 * j, 31, 24, true⟩
/-- WS_TRAIL.S2 (R335). -/
def F.wsTrail_s2 (p i j : Nat) : RegField := ⟨0x820480 + 0x1000 * p + 0x20 * i + 0x4 * j, 23, 16, true⟩
/-- WS_TRAIL.S1 (R335). -/
def F.wsTrail_s1 (p i j : Nat) : RegField := ⟨0x820480 + 0x1000 * p + 0x20 * i + 0x4 * j, 15, 8, true⟩
/-- WS_TRAIL.S0 (R335). -/
def F.wsTrail_s0 (p i j : Nat) : RegField := ⟨0x820480 + 0x1000 * p + 0x20 * i + 0x4 * j, 7, 0, true⟩
/-- WS_COOL.COOL_LEN (R335). -/
def F.wsCool (p i : Nat) : RegField := ⟨0x820500 + 0x1000 * p + 0x4 * i, 6, 0, true⟩
/-- SRV_RED_CFG.SPROUT_EN (R392). -/
def F.srvRedCfg_sproutEn : RegField := ⟨0x900100, 31, 31, true⟩
/-- SRV_RED_CFG.PERIOD (R392). -/
def F.srvRedCfg_period : RegField := ⟨0x900100, 11, 0, true⟩
/-- SRV_RED_CTRL.KEY (R392). -/
def F.srvRedCtrl_key : RegField := ⟨0x900104, 31, 24, false⟩
/-- SRV_RED_CTRL.SPROUT (R392). -/
def F.srvRedCtrl_sprout : RegField := ⟨0x900104, 3, 0, false⟩
/-- SRV_RED_STAT.SEED (R392). -/
def F.srvRedStat_seed (i : Nat) : RegField := ⟨0x900110 + 0x4 * i, 23, 20, false⟩
/-- SRV_RED_STAT.B (R392). -/
def F.srvRedStat_b (i : Nat) : RegField := ⟨0x900110 + 0x4 * i, 19, 16, false⟩
/-- SRV_RED_STAT.A (R392). -/
def F.srvRedStat_a (i : Nat) : RegField := ⟨0x900110 + 0x4 * i, 15, 12, false⟩
/-- SRV_RED_STAT.SPROUT (R392). -/
def F.srvRedStat_sprout (i : Nat) : RegField := ⟨0x900110 + 0x4 * i, 3, 3, false⟩
/-- SRV_RED_STAT.MODE (R392). -/
def F.srvRedStat_mode (i : Nat) : RegField := ⟨0x900110 + 0x4 * i, 2, 0, false⟩
/-- SRV_RED_NEXT.SECONDS (R392). -/
def F.srvRedNext (i : Nat) : RegField := ⟨0x900120 + 0x4 * i, 11, 0, false⟩
/-- SRV_RED_CNT.COUNT (R392). -/
def F.srvRedCnt (i j : Nat) : RegField := ⟨0x900140 + 0x10 * i + 0x4 * j, 31, 0, false⟩
/-- SRV_ENG_RED.STATE (R392). -/
def F.srvEngRed_state (p : Nat) : RegField := ⟨0x901100 + 0x1000 * p, 26, 24, false⟩
/-- SRV_ENG_RED.ROLE (R392). -/
def F.srvEngRed_role (p : Nat) : RegField := ⟨0x901100 + 0x1000 * p, 17, 16, false⟩
/-- SRV_ENG_RED.RETIRED (R392). -/
def F.srvEngRed_retired (p : Nat) : RegField := ⟨0x901100 + 0x1000 * p, 7, 0, false⟩
/-- SRV_ENG_SIG.SIG (R392). -/
def F.srvEngSig (p : Nat) : RegField := ⟨0x901104 + 0x1000 * p, 31, 0, false⟩
/-- SRV_ENG_DIGEST.DIGEST (R392). -/
def F.srvEngDigest (p : Nat) : RegField := ⟨0x901108 + 0x1000 * p, 31, 0, false⟩
/-- SRV_ENG_RCNT.COUNT (R392). -/
def F.srvEngRcnt (p i : Nat) : RegField := ⟨0x901140 + 0x1000 * p + 0x4 * i, 31, 0, false⟩
/-- SRV_ENG_CYC.PEAK (R372). -/
def F.srvEngCyc_peak (p : Nat) : RegField := ⟨0x901180 + 0x1000 * p, 31, 16, false⟩
/-- SRV_ENG_CYC.LAST (R372). -/
def F.srvEngCyc_last (p : Nat) : RegField := ⟨0x901180 + 0x1000 * p, 15, 0, false⟩
/-- SRV_ENG_CNT.COUNT (R372). -/
def F.srvEngCnt (p i : Nat) : RegField := ⟨0x9011C0 + 0x1000 * p + 0x4 * i, 31, 0, false⟩
/-- SRV_DRV_STAT.SET (R372). -/
def F.srvDrvStat_set (p : Nat) : RegField := ⟨0x910100 + 0x1000 * p, 31, 24, false⟩
/-- SRV_DRV_STAT.REGION (R372). -/
def F.srvDrvStat_region (p : Nat) : RegField := ⟨0x910100 + 0x1000 * p, 23, 13, false⟩
/-- SRV_DRV_STAT.STATE (R372). -/
def F.srvDrvStat_state (p : Nat) : RegField := ⟨0x910100 + 0x1000 * p, 3, 0, false⟩
/-- SRV_DRV_POS.VALID (R372). -/
def F.srvDrvPos_valid (p : Nat) : RegField := ⟨0x910104 + 0x1000 * p, 31, 31, false⟩
/-- SRV_DRV_POS.BAND (R372). -/
def F.srvDrvPos_band (p : Nat) : RegField := ⟨0x910104 + 0x1000 * p, 24, 5, false⟩
/-- SRV_DRV_POS.TRACK (R372). -/
def F.srvDrvPos_track (p : Nat) : RegField := ⟨0x910104 + 0x1000 * p, 4, 0, false⟩
/-- SRV_DRV_TGT.ACTIVE (R372). -/
def F.srvDrvTgt_active (p : Nat) : RegField := ⟨0x910108 + 0x1000 * p, 31, 31, false⟩
/-- SRV_DRV_TGT.LAYER (R372). -/
def F.srvDrvTgt_layer (p : Nat) : RegField := ⟨0x910108 + 0x1000 * p, 29, 25, false⟩
/-- SRV_DRV_TGT.BAND (R372). -/
def F.srvDrvTgt_band (p : Nat) : RegField := ⟨0x910108 + 0x1000 * p, 24, 5, false⟩
/-- SRV_DRV_FIELD.FIELD (R372). -/
def F.srvDrvField (p : Nat) : RegField := ⟨0x91010C + 0x1000 * p, 11, 0, false⟩
/-- SRV_FOC_CFG.CONFIRM (R372). -/
def F.srvFocCfg_confirm (p : Nat) : RegField := ⟨0x910110 + 0x1000 * p, 31, 24, true⟩
/-- SRV_FOC_CFG.RAMP (R372). -/
def F.srvFocCfg_ramp (p : Nat) : RegField := ⟨0x910110 + 0x1000 * p, 23, 16, true⟩
/-- SRV_FOC_CFG.SUM_MIN (R372). -/
def F.srvFocCfg_sumMin (p : Nat) : RegField := ⟨0x910110 + 0x1000 * p, 15, 0, true⟩
/-- SRV_FOC_LIM.LOST_T (R372). -/
def F.srvFocLim_lostT (p : Nat) : RegField := ⟨0x910114 + 0x1000 * p, 31, 24, true⟩
/-- SRV_FOC_LIM.CHAIN (R372). -/
def F.srvFocLim_chain (p : Nat) : RegField := ⟨0x910114 + 0x1000 * p, 23, 16, true⟩
/-- SRV_FOC_LIM.LOCK (R372). -/
def F.srvFocLim_lock (p : Nat) : RegField := ⟨0x910114 + 0x1000 * p, 15, 0, true⟩
/-- SRV_FOC_PARK.RETRACT (R372). -/
def F.srvFocPark (p : Nat) : RegField := ⟨0x910118 + 0x1000 * p, 15, 0, true⟩
/-- SRV_JUMP_CFG.TMO (R372). -/
def F.srvJumpCfg_tmo (p : Nat) : RegField := ⟨0x91011C + 0x1000 * p, 31, 24, true⟩
/-- SRV_JUMP_CFG.BRAKE_T (R372). -/
def F.srvJumpCfg_brakeT (p : Nat) : RegField := ⟨0x91011C + 0x1000 * p, 23, 20, true⟩
/-- SRV_JUMP_CFG.KICK_T (R372). -/
def F.srvJumpCfg_kickT (p : Nat) : RegField := ⟨0x91011C + 0x1000 * p, 19, 16, true⟩
/-- SRV_JUMP_CFG.KICK (R372). -/
def F.srvJumpCfg_kick (p : Nat) : RegField := ⟨0x91011C + 0x1000 * p, 15, 0, true⟩
/-- SRV_SEEK_CFG.SETTLE (R372). -/
def F.srvSeekCfg_settle (p : Nat) : RegField := ⟨0x910120 + 0x1000 * p, 31, 24, true⟩
/-- SRV_SEEK_CFG.VMAX (R372). -/
def F.srvSeekCfg_vmax (p : Nat) : RegField := ⟨0x910120 + 0x1000 * p, 23, 16, true⟩
/-- SRV_SEEK_CFG.ACC (R372). -/
def F.srvSeekCfg_acc (p : Nat) : RegField := ⟨0x910120 + 0x1000 * p, 15, 8, true⟩
/-- SRV_SEEK_SHORT.SHORT (R372). -/
def F.srvSeekShort (p : Nat) : RegField := ⟨0x910124 + 0x1000 * p, 15, 0, true⟩
/-- SRV_TRK_CFG.BURST_MIN (R372). -/
def F.srvTrkCfg_burstMin (p : Nat) : RegField := ⟨0x910128 + 0x1000 * p, 31, 16, true⟩
/-- SRV_TRK_CFG.LOCK (R372). -/
def F.srvTrkCfg_lock (p : Nat) : RegField := ⟨0x910128 + 0x1000 * p, 15, 0, true⟩
/-- SRV_SLED_CFG.DEAD (R372). -/
def F.srvSledCfg_dead (p : Nat) : RegField := ⟨0x91012C + 0x1000 * p, 31, 16, true⟩
/-- SRV_SLED_CFG.USTEP_PER_TRACK (R372). -/
def F.srvSledCfg_ustepPerTrack (p : Nat) : RegField := ⟨0x91012C + 0x1000 * p, 15, 0, true⟩
/-- SRV_ZONE_CFG.SPD_TOL (R372). -/
def F.srvZoneCfg_spdTol (p : Nat) : RegField := ⟨0x910130 + 0x1000 * p, 23, 16, true⟩
/-- SRV_ZONE_CFG.HYST (R372). -/
def F.srvZoneCfg_hyst (p : Nat) : RegField := ⟨0x910130 + 0x1000 * p, 15, 0, true⟩
/-- SRV_SPD_TH0.TH1 (R372). -/
def F.srvSpdTh0_th1 (p : Nat) : RegField := ⟨0x910134 + 0x1000 * p, 31, 16, true⟩
/-- SRV_SPD_TH0.TH0 (R372). -/
def F.srvSpdTh0_th0 (p : Nat) : RegField := ⟨0x910134 + 0x1000 * p, 15, 0, true⟩
/-- SRV_SPD_TH1.HYST (R372). -/
def F.srvSpdTh1_hyst (p : Nat) : RegField := ⟨0x910138 + 0x1000 * p, 31, 16, true⟩
/-- SRV_SPD_TH1.TH2 (R372). -/
def F.srvSpdTh1_th2 (p : Nat) : RegField := ⟨0x910138 + 0x1000 * p, 15, 0, true⟩
/-- SRV_MISS_CFG.HOLD_LIM (R372). -/
def F.srvMissCfg (p : Nat) : RegField := ⟨0x91013C + 0x1000 * p, 7, 0, true⟩
/-- SRV_DRV_CNT.COUNT (R372). -/
def F.srvDrvCnt (p i : Nat) : RegField := ⟨0x910140 + 0x1000 * p + 0x4 * i, 31, 0, false⟩
/-- SRV_CS_ADDR.AUTOINC (R372). -/
def F.srvCsAddr_autoinc (p : Nat) : RegField := ⟨0x910180 + 0x1000 * p, 31, 31, false⟩
/-- SRV_CS_ADDR.SET (R372). -/
def F.srvCsAddr_set (p : Nat) : RegField := ⟨0x910180 + 0x1000 * p, 16, 9, false⟩
/-- SRV_CS_ADDR.CLASS (R372). -/
def F.srvCsAddr_class (p : Nat) : RegField := ⟨0x910180 + 0x1000 * p, 8, 6, false⟩
/-- SRV_CS_ADDR.STAGE (R372). -/
def F.srvCsAddr_stage (p : Nat) : RegField := ⟨0x910180 + 0x1000 * p, 5, 3, false⟩
/-- SRV_CS_ADDR.WORD (R372). -/
def F.srvCsAddr_word (p : Nat) : RegField := ⟨0x910180 + 0x1000 * p, 2, 0, false⟩
/-- SRV_CS_DATA.DATA (R372). -/
def F.srvCsData (p : Nat) : RegField := ⟨0x910184 + 0x1000 * p, 31, 0, false⟩
/-- SRV_RMAP.E3 (R372). -/
def F.srvRmap_e3 (p i : Nat) : RegField := ⟨0x910800 + 0x1000 * p + 0x4 * i, 31, 24, true⟩
/-- SRV_RMAP.E2 (R372). -/
def F.srvRmap_e2 (p i : Nat) : RegField := ⟨0x910800 + 0x1000 * p + 0x4 * i, 23, 16, true⟩
/-- SRV_RMAP.E1 (R372). -/
def F.srvRmap_e1 (p i : Nat) : RegField := ⟨0x910800 + 0x1000 * p + 0x4 * i, 15, 8, true⟩
/-- SRV_RMAP.E0 (R372). -/
def F.srvRmap_e0 (p i : Nat) : RegField := ⟨0x910800 + 0x1000 * p + 0x4 * i, 7, 0, true⟩
/-- SRV_LOOP_CTRL.EN (R372). -/
def F.srvLoopCtrl_en (p : Nat) : RegField := ⟨0x920100 + 0x1000 * p, 31, 31, true⟩
/-- SRV_LOOP_CTRL.IN_SH (R372). -/
def F.srvLoopCtrl_inSh (p : Nat) : RegField := ⟨0x920100 + 0x1000 * p, 18, 16, true⟩
/-- SRV_LOOP_CTRL.OUT_SH (R372). -/
def F.srvLoopCtrl_outSh (p : Nat) : RegField := ⟨0x920100 + 0x1000 * p, 11, 8, true⟩
/-- SRV_LOOP_OFS.SETPT (R372). -/
def F.srvLoopOfs_setpt (p : Nat) : RegField := ⟨0x920104 + 0x1000 * p, 31, 16, true⟩
/-- SRV_LOOP_OFS.OFFSET (R372). -/
def F.srvLoopOfs_offset (p : Nat) : RegField := ⟨0x920104 + 0x1000 * p, 15, 0, true⟩
/-- SRV_LOOP_LIM.HI (R372). -/
def F.srvLoopLim_hi (p : Nat) : RegField := ⟨0x920108 + 0x1000 * p, 31, 16, true⟩
/-- SRV_LOOP_LIM.LO (R372). -/
def F.srvLoopLim_lo (p : Nat) : RegField := ⟨0x920108 + 0x1000 * p, 15, 0, true⟩
/-- SRV_LOOP_STAT.MODE (R372). -/
def F.srvLoopStat_mode (p : Nat) : RegField := ⟨0x92010C + 0x1000 * p, 31, 30, false⟩
/-- SRV_LOOP_STAT.MISS (R372). -/
def F.srvLoopStat_miss (p : Nat) : RegField := ⟨0x92010C + 0x1000 * p, 29, 29, false⟩
/-- SRV_LOOP_STAT.SAT (R372). -/
def F.srvLoopStat_sat (p : Nat) : RegField := ⟨0x92010C + 0x1000 * p, 28, 28, false⟩
/-- SRV_LOOP_STAT.OUT (R372). -/
def F.srvLoopStat_out (p : Nat) : RegField := ⟨0x92010C + 0x1000 * p, 15, 0, false⟩
/-- SRV_LOOP_IN.X (R372). -/
def F.srvLoopIn (p : Nat) : RegField := ⟨0x920110 + 0x1000 * p, 17, 0, false⟩
/-- SRV_LOOP_CNT.COUNT (R372). -/
def F.srvLoopCnt (p i : Nat) : RegField := ⟨0x920140 + 0x1000 * p + 0x4 * i, 31, 0, false⟩
/-- MOT_CTRL.KEY (R424). -/
def F.motCtrl_key : RegField := ⟨0xA00100, 31, 24, false⟩
/-- MOT_CTRL.ESTOP_CLR (R424). -/
def F.motCtrl_estopClr : RegField := ⟨0xA00100, 0, 0, false⟩
/-- MOT_STAT.ESTOP (R424). -/
def F.motStat_estop : RegField := ⟨0xA00104, 31, 31, false⟩
/-- MOT_STAT.PWRFAIL (R424). -/
def F.motStat_pwrfail : RegField := ⟨0xA00104, 30, 30, false⟩
/-- MOT_STAT.SHOCK (R424). -/
def F.motStat_shock : RegField := ⟨0xA00104, 13, 10, false⟩
/-- MOT_STAT.TRG (R424). -/
def F.motStat_trg : RegField := ⟨0xA00104, 9, 6, false⟩
/-- MOT_STAT.ESTOP_N (R424). -/
def F.motStat_estopN : RegField := ⟨0xA00104, 5, 5, false⟩
/-- MOT_STAT.PWRFAIL_N (R424). -/
def F.motStat_pwrfailN : RegField := ⟨0xA00104, 4, 4, false⟩
/-- MOT_IN_CHAT.ESTOP_N (R424). -/
def F.motInChat_estopN : RegField := ⟨0xA00108, 9, 9, false⟩
/-- MOT_IN_CHAT.PWRFAIL_N (R424). -/
def F.motInChat_pwrfailN : RegField := ⟨0xA00108, 8, 8, false⟩
/-- MOT_IN_CHAT.TRG (R424). -/
def F.motInChat_trg : RegField := ⟨0xA00108, 7, 4, false⟩
/-- MOT_IN_CHAT.SHOCK (R424). -/
def F.motInChat_shock : RegField := ⟨0xA00108, 3, 0, false⟩
/-- MOT_IN_DEB.MOTION (R424). -/
def F.motInDeb_motion : RegField := ⟨0xA0010C, 31, 24, true⟩
/-- MOT_IN_DEB.TRG (R424). -/
def F.motInDeb_trg : RegField := ⟨0xA0010C, 23, 16, true⟩
/-- MOT_IN_DEB.PWR (R424). -/
def F.motInDeb_pwr : RegField := ⟨0xA0010C, 15, 8, true⟩
/-- MOT_IN_DEB.ESTOP (R424). -/
def F.motInDeb_estop : RegField := ⟨0xA0010C, 7, 0, true⟩
/-- MOT_IN_CFG.SHOCK_TMO (R424). -/
def F.motInCfg_shockTmo : RegField := ⟨0xA00110, 31, 16, true⟩
/-- MOT_IN_CFG.QUIET (R424). -/
def F.motInCfg_quiet : RegField := ⟨0xA00110, 15, 8, true⟩
/-- MOT_CNT.COUNT (R424). -/
def F.motCnt (i : Nat) : RegField := ⟨0xA00140 + 0x4 * i, 31, 0, false⟩
/-- SP_CFG.POLES (R424). -/
def F.spCfg_poles (p : Nat) : RegField := ⟨0xA01100 + 0x1000 * p, 31, 28, true⟩
/-- SP_CFG.DIR (R424). -/
def F.spCfg_dir (p : Nat) : RegField := ⟨0xA01100 + 0x1000 * p, 27, 27, true⟩
/-- SP_CFG.DEAD (R424). -/
def F.spCfg_dead (p : Nat) : RegField := ⟨0xA01100 + 0x1000 * p, 23, 16, true⟩
/-- SP_CFG.SETTLE (R424). -/
def F.spCfg_settle (p : Nat) : RegField := ⟨0xA01100 + 0x1000 * p, 8, 0, true⟩
/-- SP_MOT0.RES (R424). -/
def F.spMot0_res (p : Nat) : RegField := ⟨0xA01104 + 0x1000 * p, 31, 16, true⟩
/-- SP_MOT0.IND (R424). -/
def F.spMot0_ind (p : Nat) : RegField := ⟨0xA01104 + 0x1000 * p, 15, 0, true⟩
/-- SP_MOT1.PSI (R424). -/
def F.spMot1_psi (p : Nat) : RegField := ⟨0xA01108 + 0x1000 * p, 31, 16, true⟩
/-- SP_MOT1.I_FS (R424). -/
def F.spMot1_iFs (p : Nat) : RegField := ⟨0xA01108 + 0x1000 * p, 15, 0, true⟩
/-- SP_MOT2.V_FS (R424). -/
def F.spMot2_vFs (p : Nat) : RegField := ⟨0xA0110C + 0x1000 * p, 31, 16, true⟩
/-- SP_MOT2.I_TRIP (R424). -/
def F.spMot2_iTrip (p : Nat) : RegField := ⟨0xA0110C + 0x1000 * p, 15, 0, true⟩
/-- SP_DTC.ON (R424). -/
def F.spDtc_on (p : Nat) : RegField := ⟨0xA01110 + 0x1000 * p, 31, 23, true⟩
/-- SP_DTC.BLEND (R424). -/
def F.spDtc_blend (p : Nat) : RegField := ⟨0xA01110 + 0x1000 * p, 22, 19, true⟩
/-- SP_DTC.TQ_BAND (R424). -/
def F.spDtc_tqBand (p : Nat) : RegField := ⟨0xA01110 + 0x1000 * p, 15, 0, true⟩
/-- SP_FLUX.FLUX_REF (R424). -/
def F.spFlux_fluxRef (p : Nat) : RegField := ⟨0xA01114 + 0x1000 * p, 31, 16, true⟩
/-- SP_FLUX.FL_BAND (R424). -/
def F.spFlux_flBand (p : Nat) : RegField := ⟨0xA01114 + 0x1000 * p, 15, 0, true⟩
/-- SP_OBS.ANG_TOL (R424). -/
def F.spObs_angTol (p : Nat) : RegField := ⟨0xA01118 + 0x1000 * p, 31, 24, true⟩
/-- SP_OBS.MIN_RPM (R424). -/
def F.spObs_minRpm (p : Nat) : RegField := ⟨0xA01118 + 0x1000 * p, 15, 0, true⟩
/-- SP_RUN.TOL (R424). -/
def F.spRun_tol (p : Nat) : RegField := ⟨0xA0111C + 0x1000 * p, 31, 16, true⟩
/-- SP_RUN.ADV_STEP (R424). -/
def F.spRun_advStep (p : Nat) : RegField := ⟨0xA0111C + 0x1000 * p, 15, 0, true⟩
/-- SP_START.START_TQ (R424). -/
def F.spStart_startTq (p : Nat) : RegField := ⟨0xA01120 + 0x1000 * p, 31, 16, true⟩
/-- SP_START.PULSE (R424). -/
def F.spStart_pulse (p : Nat) : RegField := ⟨0xA01120 + 0x1000 * p, 15, 7, true⟩
/-- SP_START_TMO.START_TMO (R424). -/
def F.spStartTmo_startTmo (p : Nat) : RegField := ⟨0xA01124 + 0x1000 * p, 31, 16, true⟩
/-- SP_START_TMO.BRAKE_TMO (R424). -/
def F.spStartTmo_brakeTmo (p : Nat) : RegField := ⟨0xA01124 + 0x1000 * p, 15, 0, true⟩
/-- SP_STOP.STOP_TQ (R424). -/
def F.spStop_stopTq (p : Nat) : RegField := ⟨0xA01128 + 0x1000 * p, 31, 16, true⟩
/-- SP_STOP.FOC_RPM (R424). -/
def F.spStop_focRpm (p : Nat) : RegField := ⟨0xA01128 + 0x1000 * p, 15, 0, true⟩
/-- SP_STOP2.STOP_TMO (R424). -/
def F.spStop2_stopTmo (p : Nat) : RegField := ⟨0xA0112C + 0x1000 * p, 31, 16, true⟩
/-- SP_STOP2.IBRK (R424). -/
def F.spStop2_ibrk (p : Nat) : RegField := ⟨0xA0112C + 0x1000 * p, 15, 0, true⟩
/-- SP_VLIM.VDC_MAX (R424). -/
def F.spVlim_vdcMax (p : Nat) : RegField := ⟨0xA01130 + 0x1000 * p, 31, 16, true⟩
/-- SP_VLIM.VDC_MIN (R424). -/
def F.spVlim_vdcMin (p : Nat) : RegField := ⟨0xA01130 + 0x1000 * p, 15, 0, true⟩
/-- SP_STAT.STATE (R424). -/
def F.spStat_state (p : Nat) : RegField := ⟨0xA01134 + 0x1000 * p, 31, 28, false⟩
/-- SP_STAT.AT_SPEED (R424). -/
def F.spStat_atSpeed (p : Nat) : RegField := ⟨0xA01134 + 0x1000 * p, 27, 27, false⟩
/-- SP_STAT.STILL (R424). -/
def F.spStat_still (p : Nat) : RegField := ⟨0xA01134 + 0x1000 * p, 26, 26, false⟩
/-- SP_STAT.SHIFTED (R424). -/
def F.spStat_shifted (p : Nat) : RegField := ⟨0xA01134 + 0x1000 * p, 25, 25, false⟩
/-- SP_SPEED.SPEED (R424). -/
def F.spSpeed (p : Nat) : RegField := ⟨0xA01138 + 0x1000 * p, 31, 0, false⟩
/-- SP_ANGLE.THETA_F (R424). -/
def F.spAngle_thetaF (p : Nat) : RegField := ⟨0xA0113C + 0x1000 * p, 31, 16, false⟩
/-- SP_ANGLE.THETA_E (R424). -/
def F.spAngle_thetaE (p : Nat) : RegField := ⟨0xA0113C + 0x1000 * p, 15, 0, false⟩
/-- SP_EST.TORQUE (R424). -/
def F.spEst_torque (p : Nat) : RegField := ⟨0xA01140 + 0x1000 * p, 31, 16, false⟩
/-- SP_EST.PSI (R424). -/
def F.spEst_psi (p : Nat) : RegField := ⟨0xA01140 + 0x1000 * p, 15, 0, false⟩
/-- SP_VDC.VDC (R424). -/
def F.spVdc (p : Nat) : RegField := ⟨0xA01144 + 0x1000 * p, 15, 0, false⟩
/-- SP_CNT.COUNT (R424). -/
def F.spCnt (p i : Nat) : RegField := ⟨0xA01180 + 0x1000 * p + 0x4 * i, 31, 0, false⟩
/-- SP_ADV.ADV (R424). -/
def F.spAdv (p i : Nat) : RegField := ⟨0xA01800 + 0x1000 * p + 0x4 * i, 7, 0, true⟩
/-- ST_CFG.USTEP (R424). -/
def F.stCfg_ustep (p : Nat) : RegField := ⟨0xA08100 + 0x1000 * p, 28, 25, true⟩
/-- ST_CFG.PROFILE (R424). -/
def F.stCfg_profile (p : Nat) : RegField := ⟨0xA08100 + 0x1000 * p, 24, 24, true⟩
/-- ST_CFG.DIR (R424). -/
def F.stCfg_dir (p : Nat) : RegField := ⟨0xA08100 + 0x1000 * p, 23, 23, true⟩
/-- ST_CFG.POL_HOME (R424). -/
def F.stCfg_polHome (p : Nat) : RegField := ⟨0xA08100 + 0x1000 * p, 22, 22, true⟩
/-- ST_CFG.POL_A (R424). -/
def F.stCfg_polA (p : Nat) : RegField := ⟨0xA08100 + 0x1000 * p, 21, 21, true⟩
/-- ST_CFG.POL_B (R424). -/
def F.stCfg_polB (p : Nat) : RegField := ⟨0xA08100 + 0x1000 * p, 20, 20, true⟩
/-- ST_CFG.STUCK_STEPS (R424). -/
def F.stCfg_stuckSteps (p : Nat) : RegField := ⟨0xA08100 + 0x1000 * p, 15, 0, true⟩
/-- ST_VMAX.VMAX (R424). -/
def F.stVmax (p : Nat) : RegField := ⟨0xA08104 + 0x1000 * p, 18, 0, true⟩
/-- ST_VSTART.VSTART (R424). -/
def F.stVstart (p : Nat) : RegField := ⟨0xA08108 + 0x1000 * p, 18, 0, true⟩
/-- ST_ACC.ACC (R424). -/
def F.stAcc (p : Nat) : RegField := ⟨0xA0810C + 0x1000 * p, 23, 0, true⟩
/-- ST_JERK.JERK (R424). -/
def F.stJerk (p : Nat) : RegField := ⟨0xA08110 + 0x1000 * p, 31, 0, true⟩
/-- ST_CUR.RUN (R424). -/
def F.stCur_run (p : Nat) : RegField := ⟨0xA08114 + 0x1000 * p, 31, 22, true⟩
/-- ST_CUR.HOLD (R424). -/
def F.stCur_hold (p : Nat) : RegField := ⟨0xA08114 + 0x1000 * p, 21, 12, true⟩
/-- ST_CUR.HOLD_T (R424). -/
def F.stCur_holdT (p : Nat) : RegField := ⟨0xA08114 + 0x1000 * p, 11, 0, true⟩
/-- ST_CHOP.HYST (R424). -/
def F.stChop_hyst (p : Nat) : RegField := ⟨0xA08118 + 0x1000 * p, 31, 24, true⟩
/-- ST_CHOP.BLANK (R424). -/
def F.stChop_blank (p : Nat) : RegField := ⟨0xA08118 + 0x1000 * p, 23, 16, true⟩
/-- ST_CHOP.DLY (R424). -/
def F.stChop_dly (p : Nat) : RegField := ⟨0xA08118 + 0x1000 * p, 15, 8, true⟩
/-- ST_CHOP.DECAY (R424). -/
def F.stChop_decay (p : Nat) : RegField := ⟨0xA08118 + 0x1000 * p, 7, 6, true⟩
/-- ST_CHOP.OFS_MAX (R424). -/
def F.stChop_ofsMax (p : Nat) : RegField := ⟨0xA08118 + 0x1000 * p, 5, 0, true⟩
/-- ST_HOME.HOME_V (R424). -/
def F.stHome_homeV (p : Nat) : RegField := ⟨0xA0811C + 0x1000 * p, 31, 16, true⟩
/-- ST_HOME.HOME_TMO (R424). -/
def F.stHome_homeTmo (p : Nat) : RegField := ⟨0xA0811C + 0x1000 * p, 15, 0, true⟩
/-- ST_CMD.KEY (R424). -/
def F.stCmd_key (p : Nat) : RegField := ⟨0xA08120 + 0x1000 * p, 31, 24, false⟩
/-- ST_CMD.CMD (R424). -/
def F.stCmd_cmd (p : Nat) : RegField := ⟨0xA08120 + 0x1000 * p, 2, 0, false⟩
/-- ST_TARGET.TARGET (R424). -/
def F.stTarget (p : Nat) : RegField := ⟨0xA08124 + 0x1000 * p, 31, 0, false⟩
/-- ST_POS.POS (R424). -/
def F.stPos (p : Nat) : RegField := ⟨0xA08128 + 0x1000 * p, 31, 0, false⟩
/-- ST_STAT.STATE (R424). -/
def F.stStat_state (p : Nat) : RegField := ⟨0xA0812C + 0x1000 * p, 31, 28, false⟩
/-- ST_STAT.HOMED (R424). -/
def F.stStat_homed (p : Nat) : RegField := ⟨0xA0812C + 0x1000 * p, 27, 27, false⟩
/-- ST_STAT.STUCK (R424). -/
def F.stStat_stuck (p : Nat) : RegField := ⟨0xA0812C + 0x1000 * p, 26, 26, false⟩
/-- ST_STAT.LEVELS (R424). -/
def F.stStat_levels (p : Nat) : RegField := ⟨0xA0812C + 0x1000 * p, 25, 23, false⟩
/-- ST_STAT.CHAT (R424). -/
def F.stStat_chat (p : Nat) : RegField := ⟨0xA0812C + 0x1000 * p, 22, 20, false⟩
/-- ST_STAT.OA (R424). -/
def F.stStat_oa (p : Nat) : RegField := ⟨0xA0812C + 0x1000 * p, 15, 8, false⟩
/-- ST_STAT.OB (R424). -/
def F.stStat_ob (p : Nat) : RegField := ⟨0xA0812C + 0x1000 * p, 7, 0, false⟩
/-- ST_IVL.IVL (R424). -/
def F.stIvl (p : Nat) : RegField := ⟨0xA08130 + 0x1000 * p, 31, 0, false⟩
/-- ST_CNT.COUNT (R424). -/
def F.stCnt (p i : Nat) : RegField := ⟨0xA08180 + 0x1000 * p + 0x4 * i, 31, 0, false⟩
/-- MOT_LDR_CAR_SLOT0.POS (R424). -/
def F.motLdrCarSlot0 : RegField := ⟨0xA10100, 31, 0, true⟩
/-- MOT_LDR_CAR_PITCH.POS (R424). -/
def F.motLdrCarPitch : RegField := ⟨0xA10104, 31, 0, true⟩
/-- MOT_LDR_CAR_BAY.POS (R424). -/
def F.motLdrCarBay : RegField := ⟨0xA10108, 31, 0, true⟩
/-- MOT_LDR_CAR_DRV.POS (R424). -/
def F.motLdrCarDrv (i : Nat) : RegField := ⟨0xA1010C + 0x4 * i, 31, 0, true⟩
/-- MOT_LDR_LIFT_SLOT.POS (R424). -/
def F.motLdrLiftSlot : RegField := ⟨0xA1011C, 31, 0, true⟩
/-- MOT_LDR_LIFT_BAY.POS (R424). -/
def F.motLdrLiftBay : RegField := ⟨0xA10120, 31, 0, true⟩
/-- MOT_LDR_LIFT_DISC0.POS (R424). -/
def F.motLdrLiftDisc0 : RegField := ⟨0xA10124, 31, 0, true⟩
/-- MOT_LDR_LIFT_PITCH.POS (R424). -/
def F.motLdrLiftPitch : RegField := ⟨0xA10128, 31, 0, true⟩
/-- MOT_LDR_LIFT_DRV.POS (R424). -/
def F.motLdrLiftDrv (i : Nat) : RegField := ⟨0xA1012C + 0x4 * i, 31, 0, true⟩
/-- MOT_LDR_REACH_OUT.POS (R424). -/
def F.motLdrReachOut : RegField := ⟨0xA1013C, 31, 0, true⟩
/-- MOT_LDR_REACH_SLOT.POS (R424). -/
def F.motLdrReachSlot : RegField := ⟨0xA10140, 31, 0, true⟩
/-- MOT_LDR_REACH_BAY.POS (R424). -/
def F.motLdrReachBay : RegField := ⟨0xA10144, 31, 0, true⟩
/-- MOT_LDR_REACH_DRV.POS (R424). -/
def F.motLdrReachDrv : RegField := ⟨0xA10148, 31, 0, true⟩
/-- MOT_LDR_GRIP_OPEN.POS (R424). -/
def F.motLdrGripOpen : RegField := ⟨0xA1014C, 31, 0, true⟩
/-- MOT_LDR_TMO.TMO (R424). -/
def F.motLdrTmo : RegField := ⟨0xA10150, 15, 0, true⟩
/-- MOT_LDR_STEP.SEQUENCE (R424). -/
def F.motLdrStep_sequence : RegField := ⟨0xA10154, 31, 24, false⟩
/-- MOT_LDR_STEP.STEP (R424). -/
def F.motLdrStep_step : RegField := ⟨0xA10154, 7, 0, false⟩
/-- CAL_RUN.KEY (R438). -/
def F.calRun_key : RegField := ⟨0xB00100, 31, 24, false⟩
/-- CAL_RUN.DISC (R438). -/
def F.calRun_disc : RegField := ⟨0xB00100, 23, 20, false⟩
/-- CAL_RUN.ABORT (R438). -/
def F.calRun_abort : RegField := ⟨0xB00100, 16, 16, false⟩
/-- CAL_RUN.ITEM (R438). -/
def F.calRun_item : RegField := ⟨0xB00100, 6, 0, false⟩
/-- CAL_RUN_LAYERS.LAYERS (R438). -/
def F.calRunLayers : RegField := ⟨0xB00104, 31, 0, false⟩
/-- CAL_STAT.QUEUED (R438). -/
def F.calStat_queued : RegField := ⟨0xB00108, 20, 16, false⟩
/-- CAL_STAT.MEASURING (R438). -/
def F.calStat_measuring : RegField := ⟨0xB00108, 3, 0, false⟩
/-- CAL_VREF.VALID (R438). -/
def F.calVref_valid : RegField := ⟨0xB0010C, 31, 31, false⟩
/-- CAL_VREF.MV (R438). -/
def F.calVref_mv : RegField := ⟨0xB0010C, 15, 0, false⟩
/-- CAL_CNT.COUNT (R438). -/
def F.calCnt (i : Nat) : RegField := ⟨0xB00140 + 0x4 * i, 31, 0, false⟩
/-- CAL_REC_STAT.STATE (R438). -/
def F.calRecStat_state (i : Nat) : RegField := ⟨0xB01100 + 0x20 * i, 31, 28, false⟩
/-- CAL_REC_STAT.OUTCOME (R438). -/
def F.calRecStat_outcome (i : Nat) : RegField := ⟨0xB01100 + 0x20 * i, 27, 24, false⟩
/-- CAL_REC_STAT.CAUSE (R438). -/
def F.calRecStat_cause (i : Nat) : RegField := ⟨0xB01100 + 0x20 * i, 23, 16, false⟩
/-- CAL_REC_STAT.TAPS (R438). -/
def F.calRecStat_taps (i : Nat) : RegField := ⟨0xB01100 + 0x20 * i, 15, 0, false⟩
/-- CAL_REC_COUNT.COUNT (R438). -/
def F.calRecCount (i : Nat) : RegField := ⟨0xB01104 + 0x20 * i, 31, 0, false⟩
/-- CAL_REC_TICK_LO.LO (R438). -/
def F.calRecTickLo (i : Nat) : RegField := ⟨0xB01108 + 0x20 * i, 31, 0, false⟩
/-- CAL_REC_TICK_HI.HI (R438). -/
def F.calRecTickHi (i : Nat) : RegField := ⟨0xB0110C + 0x20 * i, 31, 0, false⟩
/-- CAL_REC_TC.TC (R438). -/
def F.calRecTc (i : Nat) : RegField := ⟨0xB01110 + 0x20 * i, 31, 0, false⟩
/-- CAL_REC_CERT_LO.LO (R438). -/
def F.calRecCertLo (i : Nat) : RegField := ⟨0xB01114 + 0x20 * i, 31, 0, false⟩
/-- CAL_REC_CERT_HI.HI (R438). -/
def F.calRecCertHi (i : Nat) : RegField := ⟨0xB01118 + 0x20 * i, 31, 0, false⟩
/-- CAL_REC_REQ.REQUIRED (R438). -/
def F.calRecReq (i : Nat) : RegField := ⟨0xB0111C + 0x20 * i, 0, 0, false⟩
/-- CAL_SUP_GAIN.GAIN (R438). -/
def F.calSupGain (i : Nat) : RegField := ⟨0xB02100 + 0x4 * i, 15, 0, false⟩
/-- CAL_ST_GAIN.B (R438). -/
def F.calStGain_b (i : Nat) : RegField := ⟨0xB02120 + 0x4 * i, 31, 16, false⟩
/-- CAL_ST_GAIN.A (R438). -/
def F.calStGain_a (i : Nat) : RegField := ⟨0xB02120 + 0x4 * i, 15, 0, false⟩
/-- CAL_HEAD_PPM.PPM (R438). -/
def F.calHeadPpm (i : Nat) : RegField := ⟨0xB02140 + 0x4 * i, 31, 0, false⟩
/-- CAL_SP_GAIN.GAIN (R438). -/
def F.calSpGain (i j : Nat) : RegField := ⟨0xB02200 + 0x20 * i + 0x4 * j, 15, 0, false⟩
/-- CAL_SP_OFS.OFS (R438). -/
def F.calSpOfs (i j : Nat) : RegField := ⟨0xB02280 + 0x20 * i + 0x4 * j, 11, 0, false⟩
/-- Error SAFE_STATE of PLT_REG (R500). -/
def Er.pltReg_safeState : Nat := 0
/-- Error THERM_BG of PLT_THERM (R500). -/
def Er.pltTherm_thermBg : Nat := 0
/-- Error THERM_HOST of PLT_THERM (R500). -/
def Er.pltTherm_thermHost : Nat := 1
/-- Error THERM_TRIP of PLT_THERM (R500). -/
def Er.pltTherm_thermTrip : Nat := 2
/-- Error RAIL_WARN of PLT_SUP (R57). -/
def Er.pltSup_railWarn : Nat := 0
/-- Error RAIL_OUT of PLT_SUP (R57). -/
def Er.pltSup_railOut : Nat := 1
/-- Error MRAM_CE of PLT_MRAM (R488). -/
def Er.pltMram_mramCe : Nat := 0
/-- Error MRAM_UE of PLT_MRAM (R488). -/
def Er.pltMram_mramUe : Nat := 1
/-- Error PROFILE_BAD of PLT_MRAM (R488). -/
def Er.pltMram_profileBad : Nat := 2
/-- Error FW_FALLBACK of PLT_MRAM (R488). -/
def Er.pltMram_fwFallback : Nat := 3
/-- Error FW_NONE of PLT_MRAM (R488). -/
def Er.pltMram_fwNone : Nat := 4
/-- Error LINK_DOWN of HAT_REG (R469). -/
def Er.hatReg_linkDown : Nat := 0
/-- Error LINK_DEGRADED of HAT_REG (R469). -/
def Er.hatReg_linkDegraded : Nat := 1
/-- Error FALLBACK of HAT_REG (R469). -/
def Er.hatReg_fallback : Nat := 2
/-- Error POISON_RX of HAT_REG (R469). -/
def Er.hatReg_poisonRx : Nat := 3
/-- Error RING_FULL of HAT_REG (R469). -/
def Er.hatReg_ringFull : Nat := 4
/-- Error CORE_FAIL of SEQ_REG (R469). -/
def Er.seqReg_coreFail : Nat := 0
/-- Error RL_FULL of SEQ_RL (R469). -/
def Er.seqRl_rlFull : Nat := 0
/-- Error CE of SEQ_MC (R159). -/
def Er.seqMc_ce : Nat := 0
/-- Error L1_DUE of SEQ_MC (R159). -/
def Er.seqMc_l1Due : Nat := 1
/-- Error L2_DUE_CLEAN of SEQ_MC (R159). -/
def Er.seqMc_l2DueClean : Nat := 2
/-- Error DIRTY_UE of SEQ_MC (R159). -/
def Er.seqMc_dirtyUe : Nat := 3
/-- Error TAG_PAR of SEQ_MC (R159). -/
def Er.seqMc_tagPar : Nat := 4
/-- Error TAG_UE of SEQ_MC (R159). -/
def Er.seqMc_tagUe : Nat := 5
/-- Error HOLD_FULL of SEQ_MC (R159). -/
def Er.seqMc_holdFull : Nat := 6
/-- Error POISON_FILL of SEQ_MC (R159). -/
def Er.seqMc_poisonFill : Nat := 7
/-- Error HDR_CRC of ING_STR (R103). -/
def Er.ingStr_hdrCrc : Nat := 0
/-- Error PAY_CRC of ING_STR (R103). -/
def Er.ingStr_payCrc : Nat := 1
/-- Error FORMAT of ING_STR (R103). -/
def Er.ingStr_format : Nat := 2
/-- Error LATE of ING_STR (R103). -/
def Er.ingStr_late : Nat := 3
/-- Error OVERRUN of ING_STR (R103). -/
def Er.ingStr_overrun : Nat := 4
/-- Error LANE_LOST of ING_STR (R103). -/
def Er.ingStr_laneLost : Nat := 5
/-- Error SKEW of ING_STR (R103). -/
def Er.ingStr_skew : Nat := 6
/-- Error TIMEOUT of ING_STR (R103). -/
def Er.ingStr_timeout : Nat := 7
/-- Error OPEN_EVICT of ING_STR (R103). -/
def Er.ingStr_openEvict : Nat := 8
/-- Error SES_IGN of ING_STR (R103). -/
def Er.ingStr_sesIgn : Nat := 9
/-- Error MISMATCH of ING_STR (R103). -/
def Er.ingStr_mismatch : Nat := 10
/-- Error PATH_DEGRADED of ING_STR (R103). -/
def Er.ingStr_pathDegraded : Nat := 11
/-- Error CODEC_HOLLOW of ING_STR (R103). -/
def Er.ingStr_codecHollow : Nat := 12
/-- Error NO_BUFFER of ING_STR (R103). -/
def Er.ingStr_noBuffer : Nat := 13
/-- Error ENGINE_FAIL of ING_PROC (R103). -/
def Er.ingProc_engineFail : Nat := 0
/-- Error CE of CST_STK (R138). -/
def Er.cstStk_ce : Nat := 0
/-- Error UE of CST_STK (R138). -/
def Er.cstStk_ue : Nat := 1
/-- Error SCRUB_UE of CST_STK (R138). -/
def Er.cstStk_scrubUe : Nat := 2
/-- Error PARITY_RETRY of CST_STK (R138). -/
def Er.cstStk_parityRetry : Nat := 3
/-- Error ODECC of CST_STK (R138). -/
def Er.cstStk_odecc : Nat := 4
/-- Error REF2X of CST_STK (R138). -/
def Er.cstStk_ref2x : Nat := 5
/-- Error TRAIN_FAIL of CST_STK (R138). -/
def Er.cstStk_trainFail : Nat := 6
/-- Error STACK_FAIL of CST_STK (R138). -/
def Er.cstStk_stackFail : Nat := 7
/-- Error ZT_EVICT of CST_REG (R139). -/
def Er.cstReg_ztEvict : Nat := 0
/-- Error MERGE_HOLLOW of CST_REG (R139). -/
def Er.cstReg_mergeHollow : Nat := 1
/-- Error GVB_UE of CST_REG (R139). -/
def Er.cstReg_gvbUe : Nat := 2
/-- Error HANDLE_FREE of BPM_REG (R140). -/
def Er.bpmReg_handleFree : Nat := 0
/-- Error HANDLE_GEN of BPM_REG (R140). -/
def Er.bpmReg_handleGen : Nat := 1
/-- Error HANDLE_OWNER of BPM_REG (R140). -/
def Er.bpmReg_handleOwner : Nat := 2
/-- Error HANDLE_SHARED of BPM_REG (R140). -/
def Er.bpmReg_handleShared : Nat := 3
/-- Error ADDR of BPM_REG (R140). -/
def Er.bpmReg_addr : Nat := 4
/-- Error FREE_IGNORED of BPM_REG (R140). -/
def Er.bpmReg_freeIgnored : Nat := 5
/-- Error HOSTW_DROP of BPM_REG (R140). -/
def Er.bpmReg_hostwDrop : Nat := 6
/-- Error SHARE_FULL of BPM_REG (R140). -/
def Er.bpmReg_shareFull : Nat := 7
/-- Error BUFTAB_CE of BPM_REG (R140). -/
def Er.bpmReg_buftabCe : Nat := 8
/-- Error BUFTAB_UE of BPM_REG (R140). -/
def Er.bpmReg_buftabUe : Nat := 9
/-- Error REVOKE of BPM_REG (R140). -/
def Er.bpmReg_revoke : Nat := 10
/-- Error WARN of BPM_POOL (R140). -/
def Er.bpmPool_warn : Nat := 0
/-- Error PRESSURE of BPM_POOL (R140). -/
def Er.bpmPool_pressure : Nat := 1
/-- Error CRITICAL of BPM_POOL (R140). -/
def Er.bpmPool_critical : Nat := 2
/-- Error NONE of BPM_POOL (R140). -/
def Er.bpmPool_none : Nat := 3
/-- Error NO_SPACE of BPM_POOL (R140). -/
def Er.bpmPool_noSpace : Nat := 4
/-- Error PROG_FAIL of SFL_FC (R207). -/
def Er.sflFc_progFail : Nat := 0
/-- Error ERASE_FAIL of SFL_FC (R207). -/
def Er.sflFc_eraseFail : Nat := 1
/-- Error READ_RETRY of SFL_FC (R207). -/
def Er.sflFc_readRetry : Nat := 2
/-- Error READ_RECON of SFL_FC (R207). -/
def Er.sflFc_readRecon : Nat := 3
/-- Error READ_LOST of SFL_FC (R207). -/
def Er.sflFc_readLost : Nat := 4
/-- Error TIMEOUT of SFL_FC (R207). -/
def Er.sflFc_timeout : Nat := 5
/-- Error LUN_FAIL of SFL_FC (R207). -/
def Er.sflFc_lunFail : Nat := 6
/-- Error TRAIN_FAIL of SFL_FC (R207). -/
def Er.sflFc_trainFail : Nat := 7
/-- Error BAD_LIMIT of SFL_FC (R207). -/
def Er.sflFc_badLimit : Nat := 8
/-- Error ID_MISMATCH of SFL_FC (R207). -/
def Er.sflFc_idMismatch : Nat := 9
/-- Error SPACE_LOW of SFL_REG (R208). -/
def Er.sflReg_spaceLow : Nat := 0
/-- Error JRN_HIGH of SFL_REG (R208). -/
def Er.sflReg_jrnHigh : Nat := 1
/-- Error CKPT_FAIL of SFL_REG (R208). -/
def Er.sflReg_ckptFail : Nat := 2
/-- Error MAP_LOST of SFL_REG (R208). -/
def Er.sflReg_mapLost : Nat := 3
/-- Error KEY_MISSING of SFL_REG (R208). -/
def Er.sflReg_keyMissing : Nat := 4
/-- Error KEY_MISMATCH of SFL_REG (R208). -/
def Er.sflReg_keyMismatch : Nat := 5
/-- Error SCAN_FOUND of SFL_REG (R208). -/
def Er.sflReg_scanFound : Nat := 6
/-- Error VOL_FULL of SFL_VOL (R208). -/
def Er.sflVol_volFull : Nat := 0
/-- Error MEMBER_LOST of PAR_SET (R244). -/
def Er.parSet_memberLost : Nat := 0
/-- Error SET_CRITICAL of PAR_SET (R244). -/
def Er.parSet_setCritical : Nat := 1
/-- Error RECON of PAR_SET (R244). -/
def Er.parSet_recon : Nat := 2
/-- Error UNCOVERED of PAR_SET (R244). -/
def Er.parSet_uncovered : Nat := 3
/-- Error STRIPE_HOLLOW of PAR_SET (R244). -/
def Er.parSet_stripeHollow : Nat := 4
/-- Error PARITY_MISMATCH of PAR_SET (R244). -/
def Er.parSet_parityMismatch : Nat := 5
/-- Error RESHAPE_ABANDON of PAR_SET (R244). -/
def Er.parSet_reshapeAbandon : Nat := 6
/-- Error ENGINE_FAIL of PAR_REG (R245). -/
def Er.parReg_engineFail : Nat := 0
/-- Error NO_SET of PAR_REG (R245). -/
def Er.parReg_noSet : Nat := 1
/-- Error BANK_FAIL of PAR_SJ (R245). -/
def Er.parSj_bankFail : Nat := 0
/-- Error SHADOW_MOVED of PAR_SJ (R245). -/
def Er.parSj_shadowMoved : Nat := 1
/-- Error SJ_FULL of PAR_SJ (R245). -/
def Er.parSj_sjFull : Nat := 2
/-- Error SHADOW_ONLY of PAR_SJ (R245). -/
def Er.parSj_shadowOnly : Nat := 3
/-- Error STAGE_FULL of PAR_DISC (R245). -/
def Er.parDisc_stageFull : Nat := 0
/-- Error RECOMPUTE of PAR_DISC (R245). -/
def Er.parDisc_recompute : Nat := 1
/-- Error DISC_RECON of PAR_DISC (R245). -/
def Er.parDisc_discRecon : Nat := 2
/-- Error DISC_HOLLOW of PAR_DISC (R245). -/
def Er.parDisc_discHollow : Nat := 3
/-- Error FIB_BAD of ODR_DRV (R276). -/
def Er.odrDrv_fibBad : Nat := 0
/-- Error FORMAT_MISMATCH of ODR_DRV (R276). -/
def Er.odrDrv_formatMismatch : Nat := 1
/-- Error FOREIGN of ODR_DRV (R276). -/
def Er.odrDrv_foreign : Nat := 2
/-- Error DDL_UE of ODR_DRV (R276). -/
def Er.odrDrv_ddlUe : Nat := 3
/-- Error SPARE_LOW of ODR_DRV (R276). -/
def Er.odrDrv_spareLow : Nat := 4
/-- Error SPARE_EXHAUSTED of ODR_DRV (R276). -/
def Er.odrDrv_spareExhausted : Nat := 5
/-- Error DDL_FULL of ODR_DRV (R276). -/
def Er.odrDrv_ddlFull : Nat := 6
/-- Error SPOILT_AT_LOAD of ODR_DRV (R276). -/
def Er.odrDrv_spoiltAtLoad : Nat := 7
/-- Error REALLOC of ODR_DRV (R276). -/
def Er.odrDrv_realloc : Nat := 8
/-- Error NO_SHELL of ODR_LDR (R277). -/
def Er.odrLdr_noShell : Nat := 0
/-- Error WRONG_SHELL of ODR_LDR (R277). -/
def Er.odrLdr_wrongShell : Nat := 1
/-- Error DISC_ABSENT of ODR_LDR (R277). -/
def Er.odrLdr_discAbsent : Nat := 2
/-- Error CAT_FULL of ODR_LDR (R277). -/
def Er.odrLdr_catFull : Nat := 3
/-- Error AXIS_FAIL of ODR_LDR (R277). -/
def Er.odrLdr_axisFail : Nat := 4
/-- Error CAT_LOST of ODR_REG (R277). -/
def Er.odrReg_catLost : Nat := 0
/-- Error HL_CRC of ODR_HL (R306). -/
def Er.odrHl_hlCrc : Nat := 0
/-- Error SAMPLE_GAP of ODR_HL (R306). -/
def Er.odrHl_sampleGap : Nat := 1
/-- Error LINK_LOST of ODR_HL (R306). -/
def Er.odrHl_linkLost : Nat := 2
/-- Error HEAD_FAULT of ODR_HL (R306). -/
def Er.odrHl_headFault : Nat := 3
/-- Error GAIN_ECHO of ODR_HL (R306). -/
def Er.odrHl_gainEcho : Nat := 4
/-- Error VERSION of ODR_HL (R306). -/
def Er.odrHl_version : Nat := 5
/-- Error RETRY of ODR_RC (R307). -/
def Er.odrRc_retry : Nat := 0
/-- Error RECOVERY of ODR_RC (R307). -/
def Er.odrRc_recovery : Nat := 1
/-- Error RECON_L7 of ODR_RC (R307). -/
def Er.odrRc_reconL7 : Nat := 2
/-- Error RS_FILL of ODR_RC (R307). -/
def Er.odrRc_rsFill : Nat := 3
/-- Error MISCORRECT of ODR_RC (R307). -/
def Er.odrRc_miscorrect : Nat := 4
/-- Error TSF_LOST of ODR_RC (R307). -/
def Er.odrRc_tsfLost : Nat := 5
/-- Error ADDR_MISMATCH of ODR_RC (R307). -/
def Er.odrRc_addrMismatch : Nat := 6
/-- Error REALLOC_SKIP of ODR_RC (R307). -/
def Er.odrRc_reallocSkip : Nat := 7
/-- Error UNREADABLE of ODR_RC (R307). -/
def Er.odrRc_unreadable : Nat := 8
/-- Error ENGINE_FAIL of ODR_LDPC (R308). -/
def Er.odrLdpc_engineFail : Nat := 0
/-- Error LATE of ODR_LDPC (R308). -/
def Er.odrLdpc_late : Nat := 1
/-- Error GUARD_FOC of ODR_WR (R334). -/
def Er.odrWr_guardFoc : Nat := 0
/-- Error GUARD_TRK of ODR_WR (R334). -/
def Er.odrWr_guardTrk : Nat := 1
/-- Error GUARD_SHK of ODR_WR (R334). -/
def Er.odrWr_guardShk : Nat := 2
/-- Error VFY_FAIL of ODR_WR (R334). -/
def Er.odrWr_vfyFail : Nat := 3
/-- Error GUARD_REPEAT of ODR_WR (R334). -/
def Er.odrWr_guardRepeat : Nat := 4
/-- Error RESTART of ODR_WR (R334). -/
def Er.odrWr_restart : Nat := 5
/-- Error WRITE_DROP of ODR_WR (R334). -/
def Er.odrWr_writeDrop : Nat := 6
/-- Error FOCUS_FAIL of SRV_DRV (R370). -/
def Er.srvDrv_focusFail : Nat := 0
/-- Error FOCUS_LOST of SRV_DRV (R370). -/
def Er.srvDrv_focusLost : Nat := 1
/-- Error JUMP_FAIL of SRV_DRV (R370). -/
def Er.srvDrv_jumpFail : Nat := 2
/-- Error SEEK_FAIL of SRV_DRV (R370). -/
def Er.srvDrv_seekFail : Nat := 3
/-- Error TRACK_SLIP of SRV_DRV (R370). -/
def Er.srvDrv_trackSlip : Nat := 4
/-- Error SERVO_STALE of SRV_DRV (R370). -/
def Er.srvDrv_servoStale : Nat := 5
/-- Error DEADLINE of SRV_DRV (R370). -/
def Er.srvDrv_deadline : Nat := 6
/-- Error NO_SET of SRV_DRV (R370). -/
def Er.srvDrv_noSet : Nat := 7
/-- Error MISS of SRV_LOOP (R371). -/
def Er.srvLoop_miss : Nat := 0
/-- Error SAT of SRV_LOOP (R371). -/
def Er.srvLoop_sat : Nat := 1
/-- Error DISAGREE of SRV_ENG (R390). -/
def Er.srvEng_disagree : Nat := 0
/-- Error SELFCHECK_FAIL of SRV_ENG (R390). -/
def Er.srvEng_selfcheckFail : Nat := 1
/-- Error SHADOW_MISMATCH of SRV_ENG (R390). -/
def Er.srvEng_shadowMismatch : Nat := 2
/-- Error SELFTEST_FAIL of SRV_ENG (R390). -/
def Er.srvEng_selftestFail : Nat := 3
/-- Error STAMP_LATE of SRV_ENG (R390). -/
def Er.srvEng_stampLate : Nat := 4
/-- Error OVERRUN of SRV_ENG (R390). -/
def Er.srvEng_overrun : Nat := 16
/-- Error CS_CE of SRV_ENG (R390). -/
def Er.srvEng_csCe : Nat := 17
/-- Error CS_UE of SRV_ENG (R390). -/
def Er.srvEng_csUe : Nat := 18
/-- Error NO_SEED of SRV_REG (R391). -/
def Er.srvReg_noSeed : Nat := 0
/-- Error SIMPLEX of SRV_REG (R391). -/
def Er.srvReg_simplex : Nat := 4
/-- Error HALTED of SRV_REG (R391). -/
def Er.srvReg_halted : Nat := 8
/-- Error IMAGE_UE of SRV_REG (R391). -/
def Er.srvReg_imageUe : Nat := 12
/-- Error OBS_LOST of MOT_SP (R422). -/
def Er.motSp_obsLost : Nat := 0
/-- Error RECATCH_FAIL of MOT_SP (R422). -/
def Er.motSp_recatchFail : Nat := 1
/-- Error START_FAIL of MOT_SP (R422). -/
def Er.motSp_startFail : Nat := 2
/-- Error STOP_FAIL of MOT_SP (R422). -/
def Er.motSp_stopFail : Nat := 3
/-- Error OVERCURRENT of MOT_SP (R422). -/
def Er.motSp_overcurrent : Nat := 4
/-- Error DC_LOW of MOT_SP (R422). -/
def Er.motSp_dcLow : Nat := 5
/-- Error DC_HIGH of MOT_SP (R422). -/
def Er.motSp_dcHigh : Nat := 6
/-- Error REVERSE of MOT_SP (R422). -/
def Er.motSp_reverse : Nat := 7
/-- Error NO_WINDOW of MOT_SP (R422). -/
def Er.motSp_noWindow : Nat := 8
/-- Error DTC_OVERRUN of MOT_SP (R422). -/
def Er.motSp_dtcOverrun : Nat := 9
/-- Error LIMIT_HIT of MOT_ST (R423). -/
def Er.motSt_limitHit : Nat := 0
/-- Error STUCK of MOT_ST (R423). -/
def Er.motSt_stuck : Nat := 1
/-- Error CHATTER of MOT_ST (R423). -/
def Er.motSt_chatter : Nat := 2
/-- Error HOME_FAIL of MOT_ST (R423). -/
def Er.motSt_homeFail : Nat := 3
/-- Error OFS_LIMIT of MOT_ST (R423). -/
def Er.motSt_ofsLimit : Nat := 4
/-- Error STEP_OVERRUN of MOT_ST (R423). -/
def Er.motSt_stepOverrun : Nat := 5
/-- Error ESTOP of MOT_REG (R423). -/
def Er.motReg_estop : Nat := 0
/-- Error IN_CHATTER of MOT_REG (R423). -/
def Er.motReg_inChatter : Nat := 1
/-- Error IN_STUCK of MOT_REG (R423). -/
def Er.motReg_inStuck : Nat := 2
/-- Error REFUSED of CAL_REG (R437). -/
def Er.calReg_refused : Nat := 0
/-- Error ABORTED of CAL_REG (R437). -/
def Er.calReg_aborted : Nat := 1
/-- Error VREF_BAD of CAL_REG (R437). -/
def Er.calReg_vrefBad : Nat := 2
/-- Error CERT of CAL_REG (R437). -/
def Er.calReg_cert : Nat := 3
/-- Error UNCAL of CAL_REG (R437). -/
def Er.calReg_uncal : Nat := 4
/-- Error TAP_OVERRUN of CAL_REG (R437). -/
def Er.calReg_tapOverrun : Nat := 5

end Sys2Proof.Machine
end

