-- ==== Sys2Proof/Machine/Sparse.lean ====
section
/-! DEFINITION. Sparse maps from addresses to values: ONE canonical form, keys strictly rising and no entry equal to what
an unlisted key reads as. The memory of the store (a list of address and byte pairs), the register file and every table
of Fradra that is indexed by a number are held this way, so that equal contents are equal data. -/
namespace Sys2Proof.Machine

/-- A sparse map. What an unlisted key reads as is given with each use. -/
abbrev Map (α : Type) := List (Nat × α)

/-- The value at `k`; an unlisted key reads as `dflt`. -/
def Map.get {α : Type} (dflt : α) : Map α → Nat → α
  | [], _ => dflt
  | (k', v) :: m, k => if k' = k then v else Map.get dflt m k

/-- The map without its entry at `k`. -/
def Map.erase {α : Type} : Map α → Nat → Map α
  | [], _ => []
  | (k', v) :: m, k => if k' = k then Map.erase m k else (k', v) :: Map.erase m k

/-- An entry put in its place in the rising order. -/
def Map.insert {α : Type} : Map α → Nat → α → Map α
  | [], k, v => [(k, v)]
  | (k', v') :: m, k, v => if k < k' then (k, v) :: (k', v') :: m else (k', v') :: Map.insert m k v

/-- `k` reads as `v` from now on. Writing the default removes the entry, which keeps the form canonical. -/
def Map.set {α : Type} [DecidableEq α] (dflt : α) (m : Map α) (k : Nat) (v : α) : Map α :=
  if v = dflt then Map.erase m k else Map.insert (Map.erase m k) k v

/-- The keys rise strictly, each above `lo` where one is given. -/
def Map.rising {α : Type} : Option Nat → Map α → Bool
  | _, [] => true
  | none, (k, _) :: m => Map.rising (some k) m
  | some l, (k, _) :: m => decide (l < k) && Map.rising (some k) m

/-- The canonical form: rising keys, no entry with the default value. -/
def Map.wf {α : Type} [DecidableEq α] (dflt : Nat → α) (m : Map α) : Bool :=
  Map.rising none m && m.all (fun e => !decide (e.2 = dflt e.1))

/-- The entries with keys from `lo` up to and not including `hi`. -/
def Map.window {α : Type} (m : Map α) (lo hi : Nat) : Map α :=
  m.filter (fun e => decide (lo ≤ e.1) && decide (e.1 < hi))

/-- The map with its entries of `lo … hi-1` replaced by those of `src`. -/
def Map.replaceWindow {α : Type} (m src : Map α) (lo hi : Nat) : Map α :=
  m.filter (fun e => decide (e.1 < lo)) ++ Map.window src lo hi ++ m.filter (fun e => decide (hi ≤ e.1))

/-- The map without its entries of `lo … hi-1`. -/
def Map.dropWindow {α : Type} (m : Map α) (lo hi : Nat) : Map α := Map.replaceWindow m [] lo hi

/-- The optional reading: an unlisted key holds nothing. -/
def Map.find {α : Type} (m : Map α) (k : Nat) : Option α := (m.find? (fun e => e.1 == k)).map (·.2)

/-- The entry at `k` changed by `f`, the default standing in for an unlisted one. -/
def Map.modify {α : Type} [DecidableEq α] (dflt : α) (m : Map α) (k : Nat) (f : α → α) : Map α :=
  Map.set dflt m k (f (Map.get dflt m k))

/-- A run of values written at rising keys from `k`. -/
def Map.setRun {α : Type} [DecidableEq α] (dflt : α) (m : Map α) : Nat → List α → Map α
  | _, [] => m
  | k, v :: vs => Map.setRun dflt (Map.set dflt m k v) (k + 1) vs

/-- The values at `n` keys from `k` on. -/
def Map.getRun {α : Type} (dflt : α) (m : Map α) (k : Nat) : Nat → List α
  | 0 => []
  | n + 1 => Map.get dflt m k :: Map.getRun dflt m (k + 1) n

/-- A partial map (absent entries hold nothing): `k` holds `v`. -/
def Map.put {α : Type} (m : Map α) (k : Nat) (v : α) : Map α := Map.insert (Map.erase m k) k v

/-- A partial map: the held value at `k` changed by `f`; nothing where `k` holds nothing. -/
def Map.alter {α : Type} (m : Map α) (k : Nat) (f : α → α) : Map α :=
  m.map (fun e => if e.1 = k then (e.1, f e.2) else e)

end Sys2Proof.Machine
end

