-- ==== Sys2Proof/Machine/State.lean ====
section
/-! DEFINITION. The state of Fradra as plain data: the register file and what the rules hold beside it, region by region.
A number that a register shows lives in the register file; the rest lives in the region's record. -/
namespace Sys2Proof.Machine
open Sys2Proof

/-! ## Faults and refusals -/

/-- What stops the block. The spec gives every command an effect (R3: no sequence of accesses leaves Fradra in a state the
manual does not name), so no meaning raises a fault. -/
inductive Fault where
  /-- An access to an address that the spec says does not exist. Raised by no meaning of this model: such accesses are
  ignored and counted (R3, R36, R37). Safe. -/
  | noSuchAddress (addr : Nat)
  deriving DecidableEq, Repr

/-- What the model gives no meaning to. -/
inductive Refusal where
  /-- Raised by Dispatch.lean for a command without a meaning, by its mnemonic. Safe. -/
  | notModelled (mnemonic : String)
  deriving DecidableEq, Repr

/-! ## Platform (R8–R59, R482–R500, R507–R526) -/

/-- The unit states of R52. -/
inductive UnitSt where
  | off | active | quiescing | quiesced | isolated | fenced
  deriving DecidableEq, Repr

/-- A cell that is fenced by its block, without a page of its own (R27, R29): a sequencer core, a codec, SHA-256 or stripe engine, a
decoder, a LUN (channel × 64 + CE × 8 + LUN). -/
inductive Cell where
  | core (i : Nat) | codec (i : Nat) | sha (i : Nat) | stripe (i : Nat) | ldpc (i : Nat) | lun (k : Nat)
  deriving DecidableEq, Repr

/-- A fence between its first step and its confirm (R29, R30): the unit's page, the units within it that are fenced with it, and the error
it was made for, as page and bit. A cell is named by a page above BAR0 that stands for it. -/
structure Fence where
  unit   : Nat
  tick   : Nat
  within : List Nat
  err    : Option (Nat × Nat)
  deriving DecidableEq, Repr

/-- Where a staged set stands (R50): of a single-tick change; of a make-before-break change, where `build` holds the time its build
ended at, if it has; or of a single-tick change that has switched with its group and reads DONE when the group does. -/
inductive MbbSt where
  | single
  | build (ended : Option (Nat × Nat))
  | teardown (since : Nat)
  | switched (since : Nat)
  deriving DecidableEq, Repr

/-- A staged set (R42): the page, its group (0: alone), the target the key named (0: next tick), the first boundary at
which it may apply, and the shadow values copied. -/
structure Staged where
  page    : Nat
  group   : Nat
  target  : Nat
  applyAt : Nat
  since   : Nat
  vals    : Map Word
  mbb     : MbbSt
  deriving DecidableEq, Repr

/-- A log record (R475), with the fields it fills. -/
structure LogRec where
  ty     : Nat
  region : Nat
  slot   : Nat
  bit    : Nat
  level  : Nat
  cont   : Nat
  lseq   : Nat
  tick   : Nat
  time   : Nat
  tc     : Nat
  info   : Nat
  flags  : Nat
  queue  : Nat
  qslot  : Nat
  caps   : List Byte
  deriving DecidableEq, Repr

/-- A log: its records in ring order, oldest first, and how many were written since the MRAM was formatted (R474). -/
structure Log where
  recs    : List LogRec
  written : Nat
  deriving DecidableEq, Repr

/-- A record of the redundancy log (R389). -/
structure RedRec where
  bytes : List Byte
  deriving DecidableEq, Repr

/-- Where Fradra stands between reset and READY (R519, R520). -/
inductive Boot where
  | reset | starting | test | ready
  deriving DecidableEq, Repr

/-- A firmware activation in progress (R55, R482): Ta, Th, the tick in which the regions reached quiesce, and the FW_COMMIT that waits
for it. -/
structure Activation where
  regions : Nat
  slot    : Nat
  boot    : Bool
  lockSvn : Bool
  ta      : Nat
  th      : Option Nat
  quiet   : Option Nat
  arrival : Nat
  deriving DecidableEq, Repr

/-- A request at the arbiters (R18–R23): its region, the slot of its block in the region, its cell in the block, its class, and what it is
for. -/
structure ArbReq where
  region : Nat
  block  : Nat
  cell   : Nat
  cls    : Nat
  key    : Nat
  deriving DecidableEq, Repr

/-- Where the arbiters stand: the cell that a block's next search starts at (key 256 × region + block), the block that a region's next
search in a class starts at (key 4 × region + class), the class and grants left of a region's round, and the region that the fabric's
next search in a class starts at. -/
structure Arb where
  cells  : Map Nat
  blocks : Map Nat
  rounds : Map (Nat × Nat)
  chip   : Map Nat
  deriving DecidableEq, Repr

/-- A key slot (R479): its identifier, Key1, Key2. -/
structure KeySlot where
  id   : Nat
  key1 : List Byte
  key2 : List Byte
  deriving DecidableEq, Repr

/-- What the platform region holds beside its registers: the tick counter; boundaries in a row at which the REFCLK count was good,
whether the tick slews and its phase error (R11, R12); the straps (R504); the chip safe state and the tick of its cause (R493); Tp of
the sequence of R202, whether PWRFAIL_N was accepted, and whether the journals are complete; Tp of a software reset (R56); ticks each
rail was OUT, which rails are valid and the first (R57, R508); the hottest readings of the last 400 ticks, newest first, whether
the level fell at this boundary, and whether the hottest sensor stands at TRIP (R497–R499); whether PERST_N is high (R521); the JTAG instruction in force (R527); the vectors
that sent a message in this tick (R59); the units' states, those that do not answer (PG_STAT.PRESENT), and the tick at which each
began to quiesce (R51); fences (R29); staged sets and what pages and groups show of their commits (R42–R50); the error bits reported at
REGION or above (PLT_ERR_SUM); each block's log of its errors, by page (R28); injected faults not yet met (R41); upper halves of split registers (R9); the activation (R55); where
the arbiters stand (R20–R23); for key slots loaded or cleared in this tick, the key in force until the next boundary (R479). -/
structure Plat where
  tick      : Tick
  okRun     : Nat
  slewing   : Bool
  jdmsel    : Bool
  refsel    : Bool
  testEn    : Bool
  boot      : Boot
  safe      : Bool
  safeAt    : Nat
  tp        : Option Nat
  pfPin     : Bool
  quiet     : Bool
  sjDone    : Bool
  softReset : Option Nat
  railOut   : List Nat
  railValid : List Bool
  railFirst : Option Nat
  hot       : List Int
  fell      : Bool
  tripped   : Bool
  phase     : Int
  perst     : Bool
  tap       : TapInstr
  evtSent   : List Nat
  units     : Map UnitSt
  absent    : List Nat
  quiesceAt : Map Nat
  fences    : List Fence
  staged    : List Staged
  commitSt  : Map Nat
  groupSt   : Map Nat
  errSum    : Map Nat
  blockLog  : Map (List LogRec)
  armed     : List (Nat × Nat)
  hiLive    : Map Nat
  activation : Option Activation
  arb       : Arb
  keysWere  : Map (Option KeySlot)
  deriving DecidableEq, Repr

/-! ## Central store and buffer pools (R105–R141) -/

/-- An open zero-tracker entry (R117): the granule, its map of lines written and the class of the write that opened it. -/
structure ZeroEnt where
  granule : Nat
  written : Nat
  cls     : Nat
  deriving DecidableEq, Repr

/-- An open merge entry (R119): the line, the bytes gathered as (offset, byte) with later ones last, and whether a
poisoned write is among them. -/
structure MergeEnt where
  line   : Nat
  bytes  : List (Nat × Byte)
  hollow : Bool
  cls    : Nat
  deriving DecidableEq, Repr

/-- What waits for a zero fill (R118): a read, with whether the host made it, a write, or the transfer of the buffer by an owner to another,
which comes after that owner's earlier accesses (R133). -/
inductive Waiter where
  | read (rd : LineRead) (host : Bool) | write (wr : LineWrite) | pass (owner index target : Nat)
  deriving DecidableEq, Repr

/-- What the store holds: the bytes as (address, byte) cells, which lines are Hollow, the trackers open and those evicted whose zero fill is
under way, what waits for a fill, and the lines sealed as uncorrectable, oldest first (R112, R444). -/
structure Cst where
  mem      : Map Byte
  hollow   : Map Bool
  stale    : Map Nat
  valid    : Map Bool
  zero     : List ZeroEnt
  filling  : List ZeroEnt
  waiting  : List Waiter
  merge    : List MergeEnt
  sealed   : List Nat
  deriving DecidableEq, Repr

/-- A buffer-table entry (R123). `noOwner`: revoked while owner 63 was fenced (R137). -/
structure BufEnt where
  gen     : Nat
  pool    : Nat
  grantee : Nat
  owner   : Nat
  alloc   : Bool
  shared  : Bool
  hostw   : Bool
  defer   : Bool
  retired : Bool
  noOwner : Bool
  deriving DecidableEq, Repr

/-- A share record (R134): the holders whose share is outstanding, those who have dropped it, LAST_OWNER, and whether that role was revoked
while owner 63 was fenced too (R137). -/
structure Share where
  holders : Nat
  dropped : Nat
  last    : Nat
  noLast  : Bool
  deriving DecidableEq, Repr

/-- What BPM holds beside its registers: the buffer table, share table, FREEs not yet complete, fenced owners, the stack
each pool grants from next, the ages of its cell arbiters, and the stacks that came back from ISOLATED with the tick in which they read
ACTIVE (R109). -/
structure Bpm where
  ents    : Map BufEnt
  shares  : Map Share
  freeing : List (Nat × Nat)
  fenced  : List Nat
  rotate  : Map Nat
  ages    : Map Nat
  back    : Map (Option Nat)
  deriving DecidableEq, Repr

/-! ## Metadata cache (R142–R161) -/

/-- One way of an L2 set (R142, R143, R157): the line, its data, age and presence vector. -/
structure L2Way where
  line    : Nat
  data    : List Byte
  dirty   : Bool
  poison  : Bool
  age     : Nat
  present : Nat
  deriving DecidableEq, Repr

/-- A line held in the victim buffer (R153), with the class of the fill that evicted it (R144). -/
structure Victim where
  line   : Nat
  data   : List Byte
  poison : Bool
  issued : Bool
  cls    : Nat
  deriving DecidableEq, Repr

/-- A write-through merging entry (R152), with the class of the store that opened it (R144). -/
structure WtEnt where
  line   : Nat
  bytes  : List (Nat × Byte)
  poison : Bool
  cls    : Nat
  deriving DecidableEq, Repr

/-- A request that waits for its line (R144, R148, R153, R155): who asked, whether its fill streams, the bytes it stores (none: a load), whether
the line may still be installed, and, once the fill has come and waits for a victim entry, the line as read. -/
structure FillReq where
  line   : Nat
  agent  : Nat
  stream : Bool
  cls    : Nat
  store  : Option (List (Nat × Byte))
  keep   : Bool
  data   : Option (List Byte × Bool)
  deriving DecidableEq, Repr

/-- The metadata cache beside its registers: L1 sets (key agent × 512 + set; the ways' lines) with their pseudo-LRU bits,
L2 sets (16 ways each), retired ways, the three buffers, requests in wait of a fill or of a victim entry, uncached accesses in wait of their
agent's earlier ones, the poison hold, detectors, windows that drain, and the acknowledgements awaited as (operation, line): 0–7 for the drain
of a window, 8 for SEQ_MC_MAINT. -/
structure Mc where
  l1       : Map (List (Option Nat))
  plru     : Map Nat
  l2       : Map (List (Option L2Way))
  retired  : Map Nat
  side     : List (Nat × List Byte × Bool)
  prefetch : List (Nat × Bool)
  victims  : List Victim
  merging  : List WtEnt
  fills    : List FillReq
  stalled  : List FillReq
  later    : List (CacheAcc × Bool)
  hold     : List Nat
  uncached : Bool
  lastLine : Map Nat
  seqCount : Map Nat
  draining : List Nat
  awaited  : List (Nat × Nat)
  deriving DecidableEq, Repr

/-! ## Frame ingest (R60–R104) -/

/-- The lane states of R64, for frame lanes and head-link lanes (R280). -/
inductive LaneSt where
  | off | detect | locking | locked | up
  deriving DecidableEq, Repr

/-- A lane: its state, the last AM seen and how many AMs in a row were outside the skew limit. -/
structure Lane where
  st      : LaneSt
  am      : Option AmBlock
  skewBad : Nat
  deriving DecidableEq, Repr

/-- The path states of R77. -/
inductive PathSt where
  | down | active | degraded
  deriving DecidableEq, Repr

/-- One path of a stream: state, single-copy and paired-close counters (R77), the cumulative count granted, Pods of more
than 4 blocks received since the count restarted, credits held by payload writes not completed, and credits to return
when PRESSURE clears (R71–R73). -/
structure Path where
  st       : PathSt
  wasUp    : Bool
  single   : Nat
  paired   : Nat
  granted  : Nat
  consumed : Nat
  held     : Nat
  owed     : Nat
  deriving DecidableEq, Repr

/-- The record of an accepted Pod kept for its duplicate window (R75, R76). -/
structure PodRec where
  seq     : Nat
  frame   : Nat
  offset  : Nat
  length  : Nat
  flags   : Nat
  crc     : Nat
  path    : Nat
  tick    : Nat
  isOpen  : Bool
  writing : Bool
  pn      : Nat
  deriving DecidableEq, Repr

/-- A placed frame of a stream's chain (R80–R86): `start` is the slot head counted in bytes along the whole chain, `instant` the instant of the
SOP that opened it, in 10 ns steps (R90), `lastMeta` whether its LAST metadata Pod has come (R84). -/
structure FrameRec where
  frame      : Nat
  pn         : Nat
  start      : Nat
  size       : Nat
  meta_      : Nat
  firstTick  : Nat
  instant    : Nat
  senderTime : Nat
  tc         : Nat
  pixels     : Nat
  metas      : Nat
  hollow     : Bool
  incomplete : Bool
  mismatch   : Bool
  srcBad     : Bool
  lastMeta   : Bool
  live       : Bool
  trigger    : Bool
  closed     : Bool
  ranges     : Nat
  endTick    : Nat
  take_      : Option Nat
  session    : Nat
  drained    : Bool
  durable    : Bool
  released   : Bool
  location   : Nat
  deriving DecidableEq, Repr

/-- A stream beside its registers: bond epoch and the old bond during a re-bond (R66), the duplicate window, the last 256
closed FRAME numbers (R70), the frames placed and not yet gone, the chain of buffer handles, and where the chain's first
buffer and its tail lie in bytes counted along the chain (R80), the trigger instant, in 10 ns steps, that the first frame
placed at or after it is to carry (R90), and the newest FRAME completed (R69). -/
structure Stream where
  epoch    : Nat
  oldBond  : Option (Nat × Nat)
  a        : Path
  b        : Path
  newest   : Option Nat
  pods     : List PodRec
  closed   : List Nat
  frames   : List FrameRec
  chain    : List Nat
  chainAt  : Nat
  tail     : Nat
  draining : Option Nat
  trigNext : Option Nat
  newDone  : Nat
  deriving DecidableEq, Repr

/-- An event waiting for a session's next boundary (R89); a trigger with its source, its instant as tick and sub-tick, and the timecode. -/
inductive SesEvent where
  | arm | trigger (src sub tc at_ : Nat) | stop | disarm | post
  deriving DecidableEq, Repr

/-- A session beside its registers: the events of the tick in the order they arrived, the trigger instant's timecode
and tick, and the first PN and count of each member's take frames. -/
structure Session where
  events  : List (Nat × SesEvent)
  trigTc  : Nat
  trigAt  : Nat
  takes   : List (Nat × Nat × Nat)
  deriving DecidableEq, Repr

/-- A drain in progress (R94–R98): the frame, the stored frame as coded, the Hollow blocks of it as byte offsets, and what
its entry will say. -/
structure DrainJob where
  stream : Nat
  pn     : Nat
  stored : List Byte
  hollow : List Nat
  digest : List Byte
  codec  : Bool
  hashed : Bool
  marked : Bool
  slices : Nat
  full   : Bool
  deriving DecidableEq, Repr

/-- The ingest region beside its registers. -/
structure Ing where
  lanes    : Map Lane
  streams  : Map Stream
  sessions : Map Session
  tcLast   : Nat
  takeRecs : Nat
  robin    : Nat
  drains   : List DrainJob
  deriving DecidableEq, Repr

/-! ## Staging flash (R162–R210) and parity (R211–R247) -/

/-- A page tag (R176); 38–59 are zero and the CRC follows. `temp` is the byte as stored. -/
structure Tag where
  ty        : Nat
  flags     : Nat
  hollowMap : Nat
  keyId     : Nat
  key       : Nat
  stream    : Nat
  unit      : Nat
  seq       : Nat
  mapVer    : Nat
  wtime     : Nat
  temp      : Nat
  erases    : Nat
  row       : Nat
  mapVerB   : Nat
  deriving DecidableEq, Repr

/-- A unit as programmed: its tag and its 65,536 bytes, bytes not listed being zero (R166). -/
structure FUnit where
  tag  : Tag
  data : Map Byte
  deriving DecidableEq, Repr

/-- The row states of R168. -/
inductive RowSt where
  | free | opened | closed | source | erasing | retired
  deriving DecidableEq, Repr

/-- A row-table entry (R169), and beside it the reads that needed F1 (R195), the WPTR last journaled (R198) and
the next stripe to start. -/
structure RowEnt where
  st      : RowSt
  role    : Nat
  temp    : Nat
  wtime   : Nat
  bad     : Nat
  erases  : Nat
  valid   : Nat
  wptr    : Nat
  openSeq : Nat
  f1      : Nat
  wptrJ   : Nat
  next    : Nat
  deriving DecidableEq, Repr

/-- A stripe in progress (R218): its OPEN_STRIPE slot, the tick of its first data program, and by position which were
placed, passed and failed; whether its parity programs were placed, and whether it ended without being covered
(R220). `acc` are the buffers of its P and Q accumulators. -/
structure Stripe where
  row    : Nat
  k      : Nat
  slot   : Nat
  tick   : Nat
  placed : Nat
  passed : Nat
  failed : Nat
  parity : Bool
  dead   : Bool
  acc    : List Nat
  deriving DecidableEq, Repr

/-- What a program is for: a copy made by a job, a pad, a parity unit, a map unit (two pages and its SEQ W), part `n` of
the checkpoint taken at SEQ `c` (directory parts 0–511, then the row table), or a root copy. -/
inductive ProgFor where
  | job (id : Nat)
  | pad
  | parity
  | map (a b w : Nat)
  | part (c n : Nat)
  | root
  deriving DecidableEq, Repr

/-- A unit program that has not ended. -/
structure Prog where
  pua  : Nat
  unit : FUnit
  why  : ProgFor
  deriving DecidableEq, Repr

/-- Who writes a logical unit: a host WRITE (arrival number, unit of the command), a drained frame, an index entry, staged disc
parity, a copy out of a source row (GC, rebuild, reshape), a copy written again, or an entry put into the map without a
program (a DISC entry in place of the PUA it must still hold, or an unmap). -/
inductive JobFor where
  | host (arrival unit : Nat)
  | capture (stream pn : Nat)
  | staged (add : Nat)
  | gc (row : Nat)
  | rebuild (row : Nat)
  | reshape (row : Nat)
  | rewrite
  | entry (value : Nat) (expect : Option Nat)
  deriving DecidableEq, Repr

/-- How far a job is: it waits for its GLU's lock, for its map page, for a read of the current copy (from flash, or of the
unit's band-row from disc), for space; its copy is being programmed; its copy passed and the map update waits for the page;
or its MAP entry with this SEQ is made and the lock released (R180, R181). -/
inductive JobSt where
  | lock | look | reading (pua : Nat) | disc (loc : Nat) | space
  | programming (pua : Nat) | update (pua seq : Nat) | settled (pua : Option Nat) (seq : Nat)
  deriving DecidableEq, Repr

/-- Work on one logical unit: the bytes it gives (`ofs`, `len`; with `xor` they are added to the current copy), their Hollow
blocks, the encryption asked for, and for a copy the PUA it must still be mapped to. `buf` is the buffer of its unit, `full` once the whole new unit
stands in it (`ready` then gives its tag), `refused` after a NONE, `low` while it waits for a row. -/
structure Job where
  id     : Nat
  why    : JobFor
  glu    : Nat
  role   : Nat
  ofs    : Nat
  len    : Nat
  data   : Map Byte
  hollow : Nat
  xor    : Bool
  enc    : Bool
  key    : Nat
  stream : Nat
  ready  : Option FUnit
  src    : Option Nat
  st     : JobSt
  buf    : Option Nat
  full   : Bool
  refused : Bool
  low    : Bool
  deriving DecidableEq, Repr

/-- Why a unit is read: for a job, for a map page, for a transfer (the command's arrival number, unit), or for a MIGRATE. -/
inductive ReadFor where
  | job (id : Nat)
  | map (page : Nat)
  | host (arrival unit : Nat)
  | migrate (arrival glu pua : Nat)
  deriving DecidableEq, Repr

/-- A unit read in progress. -/
structure FRead where
  pua : Nat
  why : ReadFor
  deriving DecidableEq, Repr

/-- A journal entry (R196). -/
structure JEnt where
  ty    : Nat
  flags : Nat
  seq   : Nat
  keyf  : Nat
  value : Nat
  dseq  : Nat
  deriving DecidableEq, Repr

/-- A checkpoint root (R199): number, C, SFL_TIME, the PUAs of the parts, the ring tail, and the counter that follows. -/
structure Root where
  num   : Nat
  c     : Nat
  time  : Nat
  parts : List Nat
  tail  : Nat
  deriving DecidableEq, Repr

/-- A slot of the Map Cache Tag Table (R173): the page it holds, its state, age and pins; the tick it became dirty and
the SEQ of its last update; whether a map unit with it is being written, and the result of its load when it has come. -/
structure MSlot where
  page    : Nat
  valid   : Bool
  dirty   : Bool
  loading : Bool
  age     : Nat
  pin     : Nat
  since   : Nat
  updSeq  : Nat
  writing : Bool
  got     : Option Bool
  deriving DecidableEq, Repr

/-- A checkpoint in progress: its number, SEQ C, the PUAs of the parts that passed, whether the
parts were placed, the ring tail it will free up to, and the pages dirty at C that are still to be written. -/
structure Ckpt where
  num    : Nat
  c      : Nat
  parts  : Map Nat
  placed : Bool
  tail   : Nat
  old    : List Nat
  deriving DecidableEq, Repr

/-- The flash translation layer beside its registers. `units` is what the dies hold; the dies keep it without power. `map`
is the map as the MCTT and the map units give it, `lostLuns` (with the SEQ at which each was lost) and
`fencedLuns` name LUNs as channel × 64 + CE × 8 + LUN,
`timeouts` their last timeouts. `frozen` holds from the acceptance of PWRFAIL_N on (R202). `mapBufs`, `dirBufs` and `rowBufs` (by set) are
the buffers of owner 33 that hold the map cache, the directory and the row tables (R169, R172, R173); `lostPages` are map pages whose
entries read LOST (R187); `remap` are pages to be written again; `outs` are the copies of map units out of source rows (row, PUA, SEQ of the
DIR entry) that are not yet safe (R191); `eraseBad` are positions of rows being erased that timed out (R207); `turns` is each channel's
operations in its round of sixteen, and those of GC among them (R188); `offsets` are the P1–P4 last set on a LUN and `tempTick` the tick
of its last temperature read (R186); `low` are system writes that wait for a row, and `parWait` holds while no accumulator is to be had. -/
structure Sfl where
  units      : Map FUnit
  map        : Map Nat
  dir        : Map Nat
  mctt       : Map MSlot
  rows       : Map RowEnt
  stripes    : List Stripe
  progs      : List Prog
  reads      : List FRead
  jobs       : List Job
  got        : List (ReadFor × FUnit × Bool)
  done       : List JobFor
  nextJob    : Nat
  seq        : Nat
  jbuf       : List JEnt
  ckpt       : Option Ckpt
  refresh    : List Nat
  append     : Map Nat
  idxNext    : Map Nat
  encLast    : Map Nat
  temps      : Map Nat
  entrySet   : Map Nat
  timeouts   : List (Nat × Nat)
  fencedLuns : List Nat
  lostLuns   : Map Nat
  zqTick     : Map Nat
  lastFlush  : Nat
  timeTick   : Nat
  frozen     : Bool
  mapBufs    : List Nat
  dirBufs    : List Nat
  rowBufs    : Map (List Nat)
  lostPages  : List Nat
  remap      : List Nat
  outs       : List (Nat × Nat × Nat)
  eraseBad   : Map Nat
  turns      : Map (Nat × Nat)
  offsets    : Map Nat
  tempTick   : Map Nat
  low        : List Nat
  parWait    : Bool
  deriving DecidableEq, Repr

/-- A stripe-journal slot image (R223, R224); `body` is bytes 22–57. -/
structure Slot where
  ty     : Nat
  set    : Nat
  row    : Nat
  stripe : Nat
  mask   : Nat
  seq    : Nat
  body   : List Byte
  deriving DecidableEq, Repr

/-- One shadow unit (R225): its snapshot number, its index in the block, and its up to 1,024 slot images. -/
structure ShadowUnit where
  snap   : Nat
  index  : Nat
  images : List (Nat × Slot)
  deriving DecidableEq, Repr

/-- The shadow (R225): its channel, its two blocks, the units programmed into each of its two blocks, the block in use, the images that
wait with their slot numbers, and the tick of the last shadow program. -/
structure Shadow where
  ch      : Nat
  keys    : List Nat
  blocks  : List (List ShadowUnit)
  current : Nat
  pending : List (Nat × Slot)
  last    : Nat
  deriving DecidableEq, Repr

/-- A band-row being added to staged parity (R236): its run slot, disc, stripe offset and the jobs that are not durable. -/
structure RunAdd where
  id   : Nat
  slot : Nat
  disc : Nat
  x    : Nat
  left : Nat
  deriving DecidableEq, Repr

/-- The parity region beside its registers: the slot images on the die, those that wait to be written, the shadow, the
units moved in the current 256-tick windows (key set: window start, rebuilt, reshaped), reshapes by source set, the units mapped to that set at the commit and
the ticks its build has stood in HOLDING (R491 N5), targets of abandoned reshapes
whose units go back (R243), the adds of
disc parity under way, and the row of each set that rebuild or reshape moves. -/
structure Par where
  slots    : Map Slot
  pending  : List (Nat × Slot)
  shadow   : Option Shadow
  moved    : Map (Nat × Nat × Nat)
  shapes   : Map Nat
  shapeV   : Map Nat
  shapeHeld : Map Nat
  back     : Map Nat
  adds     : List RunAdd
  nextAdd  : Nat
  cur      : Map Nat
  deriving DecidableEq, Repr

/-! ## Host attach (R439–R471) -/

/-- A queue pair (R445–R451): T and H, the capsule window, its settings, the ring's tail and head as entry counts since
creation, the responses held for want of room and since when, the entries not yet signalled and since when, and the arrival
number of the QUEUE_RESET it works for with the commands aborted. -/
structure Queue where
  tail     : Nat
  head     : Nat
  window   : Map Byte
  depth    : Nat
  rdepth   : Nat
  xferMax  : Nat
  base     : Nat
  vec      : Nat
  agg      : Nat
  aggTime  : Nat
  rtail    : Nat
  rhead    : Nat
  held     : List (List Byte)
  heldAt   : Nat
  unsig    : Nat
  unsigAt  : Nat
  nextXid  : Nat
  resetBy  : Option Nat
  aborted  : Nat
  deriving DecidableEq, Repr

/-- A command consumed and not completed (R447, R448, R452): its fields and whole capsule, whether it has started, whether it
has an entry in the range-lock table and the lock, the stage of its work, the next unit to take up of how many, units under
way, units done (durable, delivered, or read by a VERIFY), Hollow blocks delivered, what it has found (Hollow lines of `data`,
units not migrated, band-rows unreadable), data to deliver, the unit to stop at after a reset (for a FLUSH the SEQ to be in
MRAM), the core it runs on, what it waits for (a MIGRATE's entries as GLU and value, a FLUSH's frames as stream and PN, the places of a frame as PN and
LOCATION), whether its last request for a buffer or a run slot was answered with none, results so far, its completion once decided (status and results), and
whether a disc that it brought to a drive does not match the drive's mode (R7). -/
structure Cmd where
  queue   : Nat
  cid     : Nat
  arrival : Nat
  op      : Nat
  flags   : Nat
  vol     : Nat
  args    : List Byte
  started : Bool
  entry   : Bool
  locked  : Bool
  phase   : Nat
  next    : Nat
  units   : Nat
  issued  : List Nat
  done    : List Nat
  hollow  : Nat
  found   : List Nat
  data    : List Byte
  stop    : Option Nat
  core    : Nat
  wait    : List (Nat × Nat)
  refused : Bool
  res     : Nat × Nat × Nat
  verdict : Option (Nat × Nat × Nat × Nat)
  brought : Bool
  deriving DecidableEq, Repr

/-- An outstanding transfer: XFER_RDY without DATA_DONE, or READ_RDY without RELEASE; a command that ended leaves its
transfers until their RELEASE. -/
structure Xfer where
  arrival : Nat
  queue  : Nat
  cid    : Nat
  xid    : Nat
  unit   : Nat
  handle : Nat
  ofs    : Nat
  len    : Nat
  write  : Bool
  deriving DecidableEq, Repr

/-- A pin of a frame (R460, R461): queue and owner, stream and PN, and the buffers that hold its bytes. -/
structure Pin where
  queue  : Nat
  owner  : Nat
  stream : Nat
  pn     : Nat
  bufs   : List Nat
  deriving DecidableEq, Repr

/-- The host attachment beside its registers: queues, commands, transfers, DATA_DONE and RELEASE capsules consumed and not
acted on (queue, KIND, CID, XID), arrivals so far, buffers that SFL writes from (arrival number of the WRITE, unit, handle),
pins oldest first, the committed HDM decoders (first DPA, one past the last), whether the function is in D3hot. -/
structure Hat where
  queues   : Map Queue
  cmds     : List Cmd
  xfers    : List Xfer
  capsules : List (Nat × Nat × Nat × Nat)
  arrivals : Nat
  writing  : List (Nat × Nat × Nat)
  pins     : List Pin
  decoders : List (Option (Nat × Nat))
  d3hot    : Bool
  deriving DecidableEq, Repr

/-! ## Optical data region (R248–R336) -/

/-- A DDL entry (R260). -/
structure DdlEnt where
  ty    : Nat
  shift : Bool
  cause : Nat
  brow  : Nat
  ploc  : Nat
  smask : Nat
  hmap  : Nat
  time  : Nat
  deriving DecidableEq, Repr

/-- A Shell catalogue entry (R269). -/
structure CatEnt where
  shell   : Nat
  st      : Nat
  slot    : Nat
  format  : Nat
  present : Nat
  closed  : Nat
  nwbs    : List Nat
  first   : Nat
  last    : Nat
  deriving DecidableEq, Repr

/-- The disc on a spindle once identified: its zone entries layer after layer, serial, the DDL entries in effect
(recorded blocks, then pending ones), blocks recorded, the lead-in slot of its last identity block, its SHELL_ID, its
reference record, the causes of RDONLY for this load (0 DDL_UE, 1 GUARD_REPEAT, 2 R435), and whether recording on it has
stopped. -/
structure DiscSt where
  ad8     : Bool
  zones   : List ZoneEnt
  serial  : List Byte
  ents    : List DdlEnt
  blocks  : Nat
  dib     : Option Nat
  shell   : Nat
  ref     : List Byte
  rdonly  : List Nat
  stopped : Bool
  deriving DecidableEq, Repr

/-- What a band-row read is for: unit `u` of it for a reader of units; a VERIFY; the reconstruction of a band-row of the
same stripe; the rebuilding of a run's staged parity (slot, disc, offset); a calibration item. -/
inductive BrowFor where
  | unit (why : ReadFor) (u : Nat) (enc : Bool) (key : Nat)
  | verify (arrival : Nat)
  | recon (cat disc brow : Nat)
  | recompute (slot disc x : Nat)
  | cal (item : Nat)
  deriving DecidableEq, Repr

/-- A wish for a band-row of a disc (R273). -/
structure Want where
  cat  : Nat
  disc : Nat
  brow : Nat
  why  : BrowFor
  deriving DecidableEq, Repr

/-- A band-row read on its ladder (R302): its slot as PLOC numbers it, the level, the re-reads of the level still to come, the
sectors not decided in this pass, the sectors known with their bytes and iterations, those that failed at L0, stored and
summed LLRs, whether a stopped re-read was repeated, and whether it waits for the next level to start. `recorded`: it is
the verify read of a band-row just recorded, with its verdict (passed, sectors that failed) once reached. -/
structure BrRead where
  brow     : Nat
  ploc     : Nat
  level    : Nat
  passes   : Nat
  waiting  : List Nat
  known    : Map (Nat × List Byte)
  failed0  : Nat
  llrs     : Map (List Int)
  sums     : Map (List Int)
  repeated : Bool
  idle     : Bool
  recorded : Bool
  why      : List BrowFor
  verdict  : Option (Bool × Nat)
  deriving DecidableEq, Repr

/-- Why a band-row is recorded: units of a MIGRATE as (GLU, PUA read, entry value to put), P or Q of a run slot, a test
band-row of a calibration item, or a band-row recorded again (with whether its REALLOC comes from a verify). -/
inductive RecFor where
  | migrate (arrival : Nat) (units : List (Nat × Nat × Nat))
  | parity (slot p x : Nat)
  | test (item : Nat)
  | again
  deriving DecidableEq, Repr

/-- A band-row to be recorded: its Shell, disc and logical number, its 256 KiB, the map of its Hollow 4 KiB blocks, why,
how often it was stopped, whether its staged parity is durable, and for a band-row recorded again the CAUSE, SMASK
the reason it was first recorded for, and the first row of an AD-8 unit still to be recorded. -/
structure RecRow where
  id     : Nat
  cat    : Nat
  disc   : Nat
  brow   : Nat
  data   : Map Byte
  hmap   : Nat
  why    : RecFor
  first  : RecFor
  stops  : Nat
  staged : Bool
  add    : Option Nat
  cause  : Nat
  smask  : Nat
  from_  : Nat
  deriving DecidableEq, Repr

/-- A committed band-row: its slot, the tick of its commit and the times from it, in ns, at which its first bit, its last
codeword bit and its slot's end pass the beam, and the chunks of each beam sent so far. -/
structure Running where
  row     : RecRow
  ploc    : Nat
  tick    : Nat
  startNs : Nat
  lastNs  : Nat
  endNs   : Nat
  sent    : Nat
  deriving DecidableEq, Repr

/-- The recorder of a drive (R319) beside WR_STAT: the band-row in its slot, the one committed for the next slot, those
recorded that wait for their verdict (with their slots), the reallocation queue, its overflow, ticks the guard has been clear, whether
NWB must be set again before the next commit, and whether the head's tables are to be sent (R317). -/
structure Recorder where
  cur      : Option Running
  next     : Option Running
  verify   : List (RecRow × Nat)
  queue    : List RecRow
  excess   : List RecRow
  clear    : Nat
  recheck  : Bool
  tables   : Bool
  deriving DecidableEq, Repr

/-- A channel bit as the channel keeps it: the hard bit, its 6-bit LLR, whether it is erased, and |y|. -/
structure ChBit where
  hard : Bool
  llr  : Int
  er   : Bool
  y    : Nat
  deriving DecidableEq, Repr

/-- A frame that has passed a beam: where it lies, and its 3,968 data bits. -/
structure BeamFrame where
  layer : Nat
  band  : Nat
  field : Nat
  bits  : List ChBit
  deriving DecidableEq, Repr

/-- A beam channel (R288): the STAMP expected next, the coarse codes in force and sent with the STAMP
the sent one applies at, the data-area values, the conditioned
samples of the last frame, the envelopes (in 1/4,096) with the runs below and above their thresholds, whether a defect lasts and bits still to be erased after
one, the lock and the misses in a row, the bits since the window of the current field opened with the place of that field
in them, the place of the current frame (layer, position number or AD-8 row, field or AD-8 word), the last 39 frames,
the taps, the newest tracking error, and the ODR_TSF entry (GAIN, OFFSET, ASYM) that the current timing servo field uses. -/
structure Beam where
  expect : Option Nat
  code   : Nat
  sent   : Nat
  fgain  : Nat
  offset : Int
  asym   : Int
  y      : List Int
  fast   : Nat
  ref    : Nat
  low    : Nat
  high   : Nat
  defect : Bool
  pad    : Nat
  locked : Bool
  misses : Nat
  codeAt : Nat
  hist   : List ChBit
  start  : Nat
  place  : Option (Nat × Nat × Nat)
  frames : List BeamFrame
  eq     : List Int
  cancL  : List Int
  cancR  : List Int
  trk    : Int
  tsf    : Nat × Int × Int
  deriving DecidableEq, Repr

/-- A request to the decoder pool (R300): drive, slot and sector, the LLRs, the iteration limit, whether it is a first
pass, the time of its last bit, and the decoder that works on it. -/
structure LdpcReq where
  drive   : Nat
  ploc    : Nat
  beam    : Nat
  sector  : Nat
  llrs    : List Int
  limit   : Nat
  first   : Bool
  at_     : Nat
  decoder : Option Nat
  deriving DecidableEq, Repr

/-- The newest SERVO frame of a drive (R283): when it came and its signals. -/
structure ServoIn where
  fe     : Int
  sum    : Nat
  tilt   : Int
  coil   : Int
  mirror : List Int
  power  : List Nat
  deriving DecidableEq, Repr

/-- A drive beside its registers: its disc, when a command last needed it, its beams, band-row reads, recorder, the newest
SERVO frame and whether one came since the last boundary, and the guard conditions present (0 focus error, 1 tracking, 2 SHOCK,
3 stale focus input). -/
structure Drive where
  disc    : Option DiscSt
  used    : Nat
  beams   : Map Beam
  reads   : List BrRead
  rec_    : Recorder
  servo   : ServoIn
  came    : Bool
  guard   : List Nat
  deriving DecidableEq, Repr

/-- A loader sequence (R419, R420): a Shell between slot and bay, the count of the bay's discs, a disc between bay and
drive, homing, and the visit to a slot that INVENTORY makes. -/
inductive LdrOp where
  | toBay (slot : Nat)
  | toSlot (slot : Nat)
  | count
  | toDrive (disc drive : Nat)
  | toDisc (drive disc : Nat)
  | home
  | visit (slot : Nat)
  deriving DecidableEq, Repr

/-- Who a mount or eject is for, and what it is about: the arrival number of the command (0: none), the catalogue entry (none: not known
yet), the slot, and for an eject the slot it returns to. -/
structure ShellMove where
  arrival : Nat
  cat   : Option Nat
  slot  : Nat
  deriving DecidableEq, Repr

/-- The loader: sequences that wait, the one that runs with its step, whether the step homes an axis first, the axes the step
moves, when the step and the sequence began, the discs counted or the place found (1) or found empty (2), and the mount and the
eject in progress. -/
structure Loader where
  ops    : List LdrOp
  cur    : Option LdrOp
  step   : Nat
  homing : Bool
  axes   : List Nat
  stepAt : Nat
  opAt   : Nat
  found  : Nat
  mount  : Option ShellMove
  eject  : Option ShellMove
  deriving DecidableEq, Repr

/-- A band-row that a reconstruction or a recomputation gathered: its data and Hollow map, none where it cannot be read. -/
structure Gathered where
  cat  : Nat
  disc : Nat
  brow : Nat
  data : Option (Map Byte)
  hmap : Nat
  deriving DecidableEq, Repr

/-- Band-row buffers (R127): the drive they are for, the band-row to be recorded that they hold or, with none, the band-row being read, and the
buffers, one for each unit. -/
structure RowBufs where
  drive : Nat
  rec_  : Option Nat
  brow  : Nat
  bufs  : List Nat
  deriving DecidableEq, Repr

/-- The optical region beside its registers: the catalogue, the drives, wishes for band-rows, band-rows to record, LDPC
requests, the loader, the Hollow marks and data of band-rows that reconstructions gathered (Shell, disc, band-row), and what identification
found of each disc in the current mount (key catalogue index × 16 + disc: format, DDL blocks, free spare slots, serial), and the
band-row buffers. -/
structure Odr where
  cat     : Map CatEnt
  drives  : Map Drive
  wants   : List Want
  recs    : List RecRow
  nextRec : Nat
  ldpc    : List LdpcReq
  loader  : Loader
  gathered : List Gathered
  idents  : Map (Nat × Nat × Nat × List Byte)
  rowBufs : List RowBufs
  deriving DecidableEq, Repr

/-- A drive's pending record (R263). -/
structure PendRec where
  shell : Nat
  disc  : Nat
  nwb   : Nat
  ents  : List DdlEnt
  deriving DecidableEq, Repr

/-- A target field of a calibration item with its result (R426, R427): register, bits, whether it is RS, whether it is signed,
the result. -/
structure CalField where
  addr   : Nat
  hi     : Nat
  lo     : Nat
  rs     : Bool
  signed : Bool
  value  : Nat
  deriving DecidableEq, Repr

/-! ## The MRAM -/

/-- What the MRAM keeps for the platform (R474, R484): firmware slots, boot record, profiles, keys, labels and logs. -/
structure Mram where
  fw        : Map Byte
  checked   : List Bool
  bootSlot  : List Nat
  svnFloor  : Nat
  next      : Nat
  profiles  : Map Byte
  keys      : Map KeySlot
  lsa       : Map Byte
  chipLog   : Log
  eventLog  : Log
  accessLog : Log
  redLog    : List RedRec
  redCount  : Nat
  pfCount   : Nat
  pfTick    : Nat
  powerOns  : Nat
  time      : Nat
  ring      : Map JEnt
  ringHead  : Nat
  ringTail  : Nat
  roots     : List Root
  badBlocks : Map Nat
  seenCes   : List Nat
  bankA     : Map Slot
  bankB     : Map Slot
  parRoot   : List (Nat × Nat × Nat)
  parSys    : Nat
  parShapes : List Nat
  pend      : Map PendRec
  calRegs   : Map Word
  calRes    : Map (List CalField)
  deriving DecidableEq, Repr

/-! ## Servo region (R337–R393) -/

/-- A loop's state in an engine (R350–R352): mode (0 OFF, 1 OPEN, 2 HOLD, 3 CLOSED), the value a sequence sets in OPEN, the
last output code and input, whether the last tick saturated, and (s1, s2) of each stage. -/
structure LoopSt where
  mode  : Nat
  open_ : Int
  out   : Int
  x     : Int
  sat   : Bool
  st    : List (Int × Int)
  deriving DecidableEq, Repr

/-- A place a drive's servo is to reach (R358): layer, band, field. -/
structure Place where
  layer : Nat
  band  : Nat
  field : Nat
  deriving DecidableEq, Repr

/-- The drive state of R358 with its timers: state code, layer in focus, target, jump step (0 none, 1 kick, 2 coast, 3 brake,
4 close) with the layer it goes to, ticks in the step and since the kick, ticks the focus error was inside LOCK and the
focus sum below SUM_MIN, sweeps, crossings, the last focus error, whether a crossing came in this tick, the seek phase (0 none, 1 short, 2 long, 3 settle, 4 failed)
with its trajectory (position and goal in 1/1,024 track, speed in tracks per tick), ticks of settle and ticks settled,
settle failures, long seeks and seek failures for this target, ticks of focus losses, stale and fresh ticks in a row, whether the disc is to be
served, whether the approach to the target is still to be made, the zone and speed in force with whether the zone was taken, and the SETPT offsets of R365. -/
structure SeqSt where
  st       : Nat
  layer    : Nat
  goal     : Option Place
  jump     : Nat
  dest     : Nat
  timer    : Nat
  kick     : Nat
  inLock   : Nat
  lowSum   : Nat
  sweeps   : Nat
  crossed  : Nat
  fe       : Int
  hit      : Bool
  phase    : Nat
  pos      : Int
  aim      : Int
  speed    : Nat
  settle   : Nat
  settled  : Nat
  bad      : Nat
  longs    : Nat
  fails    : Nat
  losses   : List Nat
  stale    : Nat
  fresh    : Nat
  serve    : Bool
  due      : Bool
  zone     : Nat
  spd      : Nat
  fresh_   : Bool
  trkOfs   : Int
  focOfs   : Int
  deriving DecidableEq, Repr

/-- An engine's state image (R378): the tick it stands for, set and region in force, the drive state, and the 23 loops. -/
structure Image where
  tick   : Nat
  set    : Nat
  region : Nat
  seq    : SeqSt
  loops  : List LoopSt
  deriving DecidableEq, Repr

/-- An engine (R381): state code 0–6 as SRV_ENG_RED shows it, role 0 none, 1 A, 2 B, the tick since which it holds it, the
image it computes on, bring-up's first tick and the role it is for (0: SHADOW), shadow ticks matched, when its self-test
began, and whether the self-check of the last disagreement passed. -/
structure Eng where
  st    : Nat
  role  : Nat
  since : Nat
  img   : Option Image
  tr    : Nat
  for_  : Nat
  same  : Nat
  test  : Nat
  deriving DecidableEq, Repr

/-- A drive's servo beside its registers: the committed image, the outputs kept for release by loop (code, and whether from one
copy), missed ticks in a row by loop and the loops whose miss of this tick is counted, the copies not finished in their window (engine, loop), loops held by a disagreement
(the tick of it), the field inputs (newest field of beam 0 with its tick), Sprout state: due, last start, the
running one as (Seed, outgoing engine), the modes already raised, and the engine whose image the next boundary commits. -/
structure SrvDrive where
  saved   : Option Image
  kept    : Map (Int × Bool)
  outs    : Map Int
  missed  : Map Nat
  missNow : List Nat
  late    : List (Nat × Nat)
  heldAt  : Option Nat
  field   : Option (Nat × Nat × Nat × Nat × Nat)
  due     : Bool
  lastDue : Nat
  sprout  : Option (Nat × Nat)
  simplex : Bool
  halted  : Bool
  noSeed  : Bool
  pick    : Option Nat
  deriving DecidableEq, Repr

/-- The servo region: engines, drives, and the coefficient copies (key engine × 131,072 + address) with the words that hold an
error (1 single-bit, 2 double-bit). -/
structure Srv where
  engs   : Map Eng
  drives : Map SrvDrive
  coef   : Map Word
  upset  : Map Nat
  deriving DecidableEq, Repr

/-! ## Motion region (R394–R425) -/

/-- A spindle beside its registers (R399–R409): state code as SP_STAT shows it, the tick it was entered (or the measurement in it
began), that of the request and of the last entry into LOST; whether SYNC was entered from LOST; disagreeing and agreeing
ticks in a row; the flux linkage and the last currents (2²⁴ is PSI, and I_FS); the last 17 angles of each model, newest first; τ and φ;
the vector of this tick and of the next; alignments tried, ticks at speed, the ticks with a shunt above I_TRIP, ticks below
VDC_MIN, whether a trip turns the gates off in this tick, whether a stop brakes through DTC, whether it was signalled to SRV,
whether the observer is valid, quiet ticks of the braking current, and the tick of its last zero crossing. -/
structure Spin where
  st      : Nat
  since   : Nat
  reqAt   : Nat
  lostAt  : Nat
  fromLost : Bool
  differ  : Nat
  agree   : Nat
  psiA    : Int
  psiB    : Int
  iA      : Int
  iB      : Int
  angF    : List Nat
  angE    : List Nat
  tau     : Int
  phi     : Int
  vec     : Nat
  nextVec : Nat
  aligns  : Nat
  atSpeed : Nat
  trips   : List Nat
  low     : Nat
  gap     : Bool
  dtc     : Bool
  told    : Bool
  valid   : Bool
  quiet   : Nat
  cross   : Nat
  deriving DecidableEq, Repr

/-- A stepper axis beside its registers (R411–R415): state code as ST_STAT shows it, the target of the move, the speed in
1/2²⁰ steps/s, the S-curve's a, the direction of motion, the interval computed for the step after the next, the tick and
position at which the motion began, ticks since the last step, the homing phase (0 none, 1 search, 2 reversed search,
3 return) with the latched position, inputs active at the start of the motion and still active (bit 0 HOME, 1 A, 2 B),
whether moves are barred until which input changes, whether a park ends the move, the move's reason (0 command, 1 seek,
2 loader), chops of each phase and whether the bridge drives, whether every IN pair is at 00, whether the current is
at HOLD (R413), and speed, a and direction before the tick's computation (R16). -/
structure Axis where
  st     : Nat
  target : Int
  v      : Nat
  a      : Int
  dir    : Int
  next   : Nat
  began  : Nat
  from_  : Int
  idle   : Nat
  home   : Nat
  latch  : Int
  held   : Nat
  barred : Nat
  park   : Bool
  why    : Nat
  chopA  : Nat
  chopB  : Nat
  driveA : Bool
  driveB : Bool
  off    : Bool
  hold   : Bool
  prev   : Nat × Int × Int
  deriving DecidableEq, Repr

/-- The motion region: spindles, axes, accepted levels and CHATTER marks of the inputs by key (R416: HOME, LIMIT_A and
LIMIT_B of axis m at 3m, 3m + 1, 3m + 2; SHOCK at 24–27, TRG at 28–31, PWRFAIL_N at 32, ESTOP_N at 33, GENLOCK at 34). -/
structure Mot where
  spins : Map Spin
  axes  : Map Axis
  level : Map Bool
  chat  : Map Bool
  deriving DecidableEq, Repr

/-! ## Calibration (R426–R438) -/

/-- An entry of CAL_RUN's queue, or a measurement in progress: item, DISC and LAYERS latched, how many of the measurement's points
(reads at one setting, seeks, test band-rows) are past, for WRITE_STRATEGY 8 × group + pass and its trial shifts. -/
structure CalRun where
  item   : Nat
  disc   : Nat
  layers : Nat
  step   : Nat
  trial  : List Int
  deriving DecidableEq, Repr

/-- The calibration region: the queue, the items measuring, the results that items step towards, and the items whose tap
adjuster overran in this tick. -/
structure Cal where
  queue    : List CalRun
  running  : List CalRun
  stepping : Map (List CalField)
  skip     : List Nat
  deriving DecidableEq, Repr

/-! ## The whole -/

/-- What Fradra sends to the outside, in order. -/
inductive OutMsg where
  /-- an MSI-X message: vector, address, data (R59, R450) -/
  | msix (vector addr data : Nat)
  /-- a CREDIT Pod on every lane of a path's group: its header (R67, R69, R72) -/
  | credit (stream path : Nat) (pod : List Byte)
  /-- a grant's answer to its owner: the handle, or NONE (R128) -/
  | granted (owner handle : Nat)
  /-- a line delivered to a reader, with its Hollow mark (R111, R114, R440) -/
  | line (addr : Nat) (data : List Byte) (hollow : Bool)
  /-- a line, poisoned or not, delivered to a cache agent (R143, R157) -/
  | cacheData (agent addr : Nat) (data : List Byte) (poison : Bool)
  /-- a frame sent to a drive's head: GAIN, ACT, WRITE, TABLE or CFG, header to CRC (R282, R283) -/
  | head (drive : Nat) (frame : List Byte)
  /-- a GATE block on every lane of a drive's head link (R281) -/
  | gate (drive mask : Nat) (hold : Bool)
  /-- a lead-in band-row recorded on the disc of a drive (R259, R268) -/
  | leadIn (drive slot : Nat) (data : List Byte)
  /-- a 64-byte entry written to the response ring of a queue (R449) -/
  | response (queue addr : Nat) (entry : List Byte)
  /-- DevLoad of a CXL.mem response: 0 Light, 1 Optimal, 2 Moderate Overload, 3 Severe Overload (R440) -/
  | devLoad (load : Nat)
  /-- what a mailbox command returns: whether it was carried out, and the contents the spec gives its output (R444) -/
  | mailbox (done : Bool) (payload : List Byte)
  deriving DecidableEq, Repr

/-- Fradra but for the commands that wait: the register file (values in force of RW, RO, RC and W1C fields; `force` and
`shadow` hold the RS fields in force and as last written), each region's record, the model's free-value counter, the value
the last read returned, and what was sent. -/
structure Dev where
  regs    : Map Word
  force   : Map Word
  shadow  : Map Word
  plat    : Plat
  mram    : Mram
  cst     : Cst
  bpm     : Bpm
  mc      : Mc
  ing     : Ing
  sfl     : Sfl
  par     : Par
  hat     : Hat
  odr     : Odr
  srv     : Srv
  mot     : Mot
  cal     : Cal
  freeCtr : Nat
  readVal : Nat
  out     : List OutMsg
  deriving DecidableEq, Repr

/-- The whole state: Fradra and the queue of commands that wait, first in, first out. -/
structure State where
  dev     : Dev
  pending : List Instr
  deriving DecidableEq, Repr

/-! ## Reset -/

def Log.empty : Log := ⟨[], 0⟩

def Arb.reset : Arb := ⟨[], [], [], []⟩

def Plat.reset : Plat where
  tick := 0
  okRun := 0
  slewing := false
  jdmsel := false
  refsel := false
  testEn := false
  boot := .reset
  safe := false
  safeAt := 0
  tp := none
  pfPin := false
  quiet := false
  sjDone := false
  softReset := none
  railOut := List.replicate 8 0
  railValid := List.replicate 8 false
  railFirst := none
  hot := []
  fell := false
  tripped := false
  phase := 0
  perst := false
  tap := .idcode
  evtSent := []
  units := []
  absent := []
  quiesceAt := []
  fences := []
  staged := []
  commitSt := []
  groupSt := []
  errSum := []
  blockLog := []
  armed := []
  hiLive := []
  activation := none
  arb := Arb.reset
  keysWere := []

/-- The MRAM as delivered: firmware slot 0 holds the header of an image of every region, and nothing else is stored (log entry 5). -/
def Mram.blank : Mram where
  fw := [(0, 0x10), (1, 0x64), (2, 0xA0), (3, 0xF1), (4, 1), (6, 0xFF), (7, 0x0F), (13, 0x20)]
  checked := List.replicate 4 false
  bootSlot := List.replicate 12 0
  svnFloor := 0
  next := 0
  profiles := []
  keys := []
  lsa := []
  chipLog := Log.empty
  eventLog := Log.empty
  accessLog := Log.empty
  redLog := []
  redCount := 0
  pfCount := 0
  pfTick := 0
  powerOns := 0
  time := 0
  ring := []
  ringHead := 0
  ringTail := 0
  roots := []
  badBlocks := []
  seenCes := []
  bankA := []
  bankB := []
  parRoot := []
  parSys := 8
  parShapes := []
  pend := []
  calRegs := []
  calRes := []

def Cst.reset : Cst := ⟨[], [], [], [], [], [], [], [], []⟩
def BufEnt.reset : BufEnt := ⟨0, 0, 0, 0, false, false, false, false, false, false⟩
def Bpm.reset : Bpm := ⟨[], [], [], [], [], [], []⟩
def Mc.reset : Mc := ⟨[], [], [], [], [], [], [], [], [], [], [], [], false, [], [], [], []⟩
def Lane.reset : Lane := ⟨.off, none, 0⟩
def Path.reset : Path := ⟨.down, false, 0, 0, 0, 0, 0, 0⟩
def Stream.reset : Stream :=
  ⟨0, none, Path.reset, Path.reset, none, [], [], [], [], 0, 0, none, none, 0⟩
def Session.reset : Session := ⟨[], 0xFFFFFFFF, 0, []⟩
def Ing.reset : Ing := ⟨[], [], [], 0, 0, 0, []⟩
def Sfl.reset : Sfl where
  units := []
  map := []
  dir := []
  mctt := []
  rows := []
  stripes := []
  progs := []
  reads := []
  jobs := []
  got := []
  done := []
  nextJob := 0
  seq := 0
  jbuf := []
  ckpt := none
  refresh := []
  append := []
  idxNext := []
  encLast := []
  temps := []
  entrySet := []
  timeouts := []
  fencedLuns := []
  lostLuns := []
  zqTick := []
  lastFlush := 0
  timeTick := 0
  frozen := false
  mapBufs := []
  dirBufs := []
  rowBufs := []
  lostPages := []
  remap := []
  outs := []
  eraseBad := []
  turns := []
  offsets := []
  tempTick := []
  low := []
  parWait := false
def RowEnt.reset : RowEnt := ⟨.free, 0, 0, 0, 0, 0, 0, 0, 0, 0, 0, 0⟩
def MSlot.reset : MSlot := ⟨0, false, false, false, 0, 0, 0, 0, false, none⟩
def Slot.free : Slot := ⟨0, 0, 0, 0, 0, 0, []⟩
def Par.reset : Par := ⟨[], [], none, [], [], [], [], [], [], 0, []⟩
def Queue.reset : Queue := ⟨0, 0, [], 0, 16, 0, 0, 0, 1, 0, 0, 0, [], 0, 0, 0, 0, none, 0⟩
def Hat.reset : Hat := ⟨[], [], [], [], 0, [], [], [none, none], false⟩
def CatEnt.empty : CatEnt := ⟨0, 0, 0, 0, 0, 0, [], 0, 0⟩
def Recorder.reset : Recorder := ⟨none, none, [], [], [], 0, false, false⟩
def Beam.reset : Beam where
  expect := none
  code := 0
  sent := 0
  fgain := 1024
  offset := 0
  asym := 0
  y := []
  fast := 0
  ref := 0
  low := 0
  high := 0
  defect := false
  pad := 0
  locked := false
  misses := 0
  codeAt := 0
  hist := []
  start := 0
  place := none
  frames := []
  eq := (List.replicate 15 0).set 7 1024
  cancL := [0, 0, 0]
  cancR := [0, 0, 0]
  trk := 0
  tsf := (0, 0, 0)
def ServoIn.reset : ServoIn := ⟨0, 0, 0, 0, [], []⟩
def Drive.reset : Drive := ⟨none, 0, [], [], Recorder.reset, ServoIn.reset, false, []⟩
def Loader.reset : Loader := ⟨[], none, 0, false, [], 0, 0, 0, none, none⟩
def Odr.reset : Odr := ⟨[], [], [], [], 0, [], Loader.reset, [], [], []⟩
def LoopSt.reset : LoopSt := ⟨0, 0, 0, 0, false, List.replicate 8 (0, 0)⟩
def SeqSt.reset : SeqSt where
  st := 0
  layer := 0
  goal := none
  jump := 0
  dest := 0
  timer := 0
  kick := 0
  inLock := 0
  lowSum := 0
  sweeps := 0
  crossed := 0
  fe := 0
  hit := false
  phase := 0
  pos := 0
  aim := 0
  speed := 0
  settle := 0
  settled := 0
  bad := 0
  longs := 0
  fails := 0
  losses := []
  stale := 0
  fresh := 0
  serve := false
  due := false
  zone := 0
  spd := 0
  fresh_ := false
  trkOfs := 0
  focOfs := 0
def Image.reset : Image := ⟨0, 0, 0, SeqSt.reset, List.replicate 23 LoopSt.reset⟩
def Eng.reset : Eng := ⟨0, 0, 0, none, 0, 0, 0, 0⟩
def SrvDrive.reset : SrvDrive := ⟨none, [], [], [], [], [], none, none, false, 0, none, false, false, false, none⟩
def Srv.reset : Srv := ⟨[], [], [], []⟩
def Spin.reset : Spin where
  st := 0
  since := 0
  reqAt := 0
  lostAt := 0
  fromLost := false
  differ := 0
  agree := 0
  psiA := 0
  psiB := 0
  iA := 0
  iB := 0
  angF := []
  angE := []
  tau := 0
  phi := 1
  vec := 0
  nextVec := 0
  aligns := 0
  atSpeed := 0
  trips := []
  low := 0
  gap := false
  dtc := false
  told := false
  valid := false
  quiet := 0
  cross := 0
def Axis.reset : Axis where
  st := 0
  target := 0
  v := 0
  a := 0
  dir := 1
  next := 0
  began := 0
  from_ := 0
  idle := 0
  home := 0
  latch := 0
  held := 0
  barred := 0
  park := false
  why := 0
  chopA := 0
  chopB := 0
  driveA := false
  driveB := false
  off := true
  hold := false
  prev := (0, 0, 1)
def Mot.reset : Mot := ⟨[], [], [], []⟩
def Cal.reset : Cal := ⟨[], [], [], []⟩

def Dev.reset : Dev where
  regs := []
  force := []
  shadow := []
  plat := Plat.reset
  mram := Mram.blank
  cst := Cst.reset
  bpm := Bpm.reset
  mc := Mc.reset
  ing := Ing.reset
  sfl := Sfl.reset
  par := Par.reset
  hat := Hat.reset
  odr := Odr.reset
  srv := Srv.reset
  mot := Mot.reset
  cal := Cal.reset
  freeCtr := 0
  readVal := 0
  out := []

/-- The machine right after reset, with no command waiting. -/
def State.reset : State := ⟨Dev.reset, []⟩

end Sys2Proof.Machine
end

