-- ==== Sys2Proof/Machine/Ops.lean ====
section
/-! DEFINITION. The named operations every meaning is written over: register fields, counted accesses, errors and their
reporting, events, logs, time, free values and what is sent. -/
namespace Sys2Proof.Machine
open Sys2Proof

/-! ## The register map -/

/-- The page family and instance that a BAR0 byte address lies in; SRV_LOOP[n][l] has l up to 22 only (R372). -/
def kindAt (a : Nat) : Option (Kind × Nat) :=
  match allKinds.find? (fun k => decide (k.desc.base ≤ a) && decide (a < k.desc.base + k.desc.count * k.desc.stride)) with
  | some k =>
    let i := (a - k.desc.base) / k.desc.stride
    if k = .srvLoop ∧ 22 < i % 32 then none else some (k, i)
  | none => none

/-- The page address of a byte address. -/
def pageOf (a : Nat) : Nat := a - a % 4096

/-- The region number of an address, in R17 order. -/
def regionOf (a : Nat) : Nat := a / 0x100000

/-- The page slot of an address within its region (R37). -/
def slotOf (a : Nat) : Nat := a % 0x100000 / 4096

/-- Whether a register of this description lies at offset `off`. -/
def RegDef.at (r : RegDef) (off : Nat) : Bool :=
  decide (r.off ≤ off) &&
    (let d := off - r.off
     let i := if r.s1 = 0 then 0 else d / r.s1
     let rem := if r.s1 = 0 then d else d % r.s1
     decide (i < r.n1) && (if r.s2 = 0 then decide (rem = 0) else decide (rem % r.s2 = 0) && decide (rem / r.s2 < r.n2)))

/-- The register at a 4-aligned BAR0 address, if its page lists one there (R39). -/
def regAt (a : Nat) : Option RegDef :=
  match kindAt a with
  | none => none
  | some (k, _) =>
    let off := a % 4096
    if off < 0x40 then headerRegs.find? (·.at off) else k.desc.regs.find? (·.at off)

/-- The owner table of R127 at reset: region, pool, heir and BPM port of owner `o`. -/
def ownerReset (o : Nat) : Nat × Nat × Nat × Nat :=
  if o < 32 then (3, 0, 32, 0)
  else if o = 32 then (3, 1, 63, 1)
  else if o = 33 then (6, 15, 63, 2)
  else if o = 34 then (6, 1, 63, 2)
  else if o = 35 then (7, 1, 63, 3)
  else if o < 40 then (8, 1, 63, 4)
  else if o < 48 then (2, 2, 63, 5)
  else if o < 63 then (15, 2, 63, 15)
  else (2, 15, 63, 5)

/-- The default escalation of the page's errors, bits `from_` to `from_ + 15`, as PG_ERR_ESC codes them (R39). -/
def escReset (errs : List ErrDef) (from_ : Nat) : Nat :=
  errs.foldl (fun n e => if from_ ≤ e.bit ∧ e.bit < from_ + 16 then n + (e.level <<< (2 * (e.bit - from_))) else n) 0

/-- What the register at a BAR0 address resets to: the fields of its table, except the registers whose table names another
rule (the escalation defaults of R39, the owners of R127, the equaliser of R309). -/
def resetVal (a : Nat) : Word :=
  match kindAt a with
  | none => 0
  | some (k, i) =>
    if a % 4096 = 0x18 then w32 (escReset k.desc.errs 0)
    else if a % 4096 = 0x30 then w32 (escReset k.desc.errs 16)
    else if k = .bpmOwn ∧ a % 4096 = 0x100 then
      let (r, p, h, _) := ownerReset i
      w32 (r * 2 ^ 28 + p * 2 ^ 24 + h)
    else
      match regAt a with
      | none => 0
      | some r => w32 (r.fields.foldl (fun n f => n + (f.reset <<< f.lo)) 0)

/-- The value a register holds in force, its RS fields aside. -/
def Dev.raw (d : Dev) (a : Nat) : Word := Map.get (resetVal a) d.regs a
/-- The value in force of a register's RS fields. -/
def Dev.forced (d : Dev) (a : Nat) : Word := Map.get (resetVal a) d.force a
/-- The shadow of a register's RS fields. -/
def Dev.shadowed (d : Dev) (a : Nat) : Word := Map.get (resetVal a) d.shadow a

def Dev.setRaw (d : Dev) (a : Nat) (v : Word) : Dev := { d with regs := Map.set (resetVal a) d.regs a v }
def Dev.setForced (d : Dev) (a : Nat) (v : Word) : Dev := { d with force := Map.set (resetVal a) d.force a v }
def Dev.setShadowed (d : Dev) (a : Nat) (v : Word) : Dev := { d with shadow := Map.set (resetVal a) d.shadow a v }

/-- A field's value in force. -/
def Dev.rd (d : Dev) (f : RegField) : Nat :=
  bitsOf (if f.rs then d.forced f.addr else d.raw f.addr).toNat f.hi f.lo

/-- A field's value as the shadow holds it; the value in force of a field without a shadow. -/
def Dev.rdShadow (d : Dev) (f : RegField) : Nat :=
  bitsOf (if f.rs then d.shadowed f.addr else d.raw f.addr).toNat f.hi f.lo

/-- A one-bit field in force. -/
def Dev.flag (d : Dev) (f : RegField) : Bool := decide (d.rd f ≠ 0)

/-- A field takes a value in force (for an RS field the shadow follows). -/
def Dev.wr (d : Dev) (f : RegField) (v : Nat) : Dev :=
  if f.rs then
    (d.setForced f.addr (w32 (putBits (d.forced f.addr).toNat f.hi f.lo v))).setShadowed f.addr
      (w32 (putBits (d.shadowed f.addr).toNat f.hi f.lo v))
  else d.setRaw f.addr (w32 (putBits (d.raw f.addr).toNat f.hi f.lo v))

/-- A flag field takes a value. -/
def Dev.wrB (d : Dev) (f : RegField) (b : Bool) : Dev := d.wr f (b2n b)

/-- A counter increments and saturates (R2, RC counters). -/
def Dev.count (d : Dev) (f : RegField) : Dev := d.wr f (satInc (f.hi + 1 - f.lo) (d.rd f))

/-- A counter increases by `n` and saturates. -/
def Dev.countN (d : Dev) (f : RegField) (n : Nat) : Dev := d.wr f (min (2 ^ (f.hi + 1 - f.lo) - 1) (d.rd f + n))

/-- A split 64-bit status register takes a value: LO shows it at once, HI when LO is next read (R9). -/
def Dev.put64 (d : Dev) (lo hi : RegField) (v : Nat) : Dev :=
  let d := d.wr lo (v % 2 ^ 32)
  { d with plat := { d.plat with hiLive := Map.set 0 d.plat.hiLive hi.addr (v / 2 ^ 32) } }

/-- The value of a split 64-bit status register. -/
def Dev.get64 (d : Dev) (lo hi : RegField) : Nat := d.rd lo + 2 ^ 32 * Map.get 0 d.plat.hiLive hi.addr

/-! ## Region records -/

def Dev.onPlat (d : Dev) (f : Plat → Plat) : Dev := { d with plat := f d.plat }
def Dev.onMram (d : Dev) (f : Mram → Mram) : Dev := { d with mram := f d.mram }
def Dev.onCst (d : Dev) (f : Cst → Cst) : Dev := { d with cst := f d.cst }
def Dev.onBpm (d : Dev) (f : Bpm → Bpm) : Dev := { d with bpm := f d.bpm }
def Dev.onMc (d : Dev) (f : Mc → Mc) : Dev := { d with mc := f d.mc }
def Dev.onIng (d : Dev) (f : Ing → Ing) : Dev := { d with ing := f d.ing }
def Dev.onSfl (d : Dev) (f : Sfl → Sfl) : Dev := { d with sfl := f d.sfl }
def Dev.onPar (d : Dev) (f : Par → Par) : Dev := { d with par := f d.par }
def Dev.onHat (d : Dev) (f : Hat → Hat) : Dev := { d with hat := f d.hat }
def Dev.onOdr (d : Dev) (f : Odr → Odr) : Dev := { d with odr := f d.odr }
def Dev.onSrv (d : Dev) (f : Srv → Srv) : Dev := { d with srv := f d.srv }
def Dev.onMot (d : Dev) (f : Mot → Mot) : Dev := { d with mot := f d.mot }
def Dev.onCal (d : Dev) (f : Cal → Cal) : Dev := { d with cal := f d.cal }

/-- A command's effect as the outcome of its meaning: the next state, the queue untouched. -/
def run (s : State) (f : Dev → Dev) : Host.Outcome State Fault Refusal := .next { s with dev := f s.dev }

/-- `f` if `c` holds; nothing otherwise. -/
def Dev.when (d : Dev) (c : Bool) (f : Dev → Dev) : Dev := if c then f d else d

/-- Fradra sends a message. -/
def Dev.send (d : Dev) (m : OutMsg) : Dev := { d with out := d.out ++ [m] }

/-- A read returned `v`. -/
def Dev.answer (d : Dev) (v : Nat) : Dev := { d with readVal := v }

/-- A value that the spec leaves open, for the use `tag` names (log entry 1). -/
def Dev.free (d : Dev) (tag : Nat) : Nat := Config.freeNat tag d.freeCtr
/-- The next free value is a fresh one. -/
def Dev.stepFree (d : Dev) : Dev := { d with freeCtr := d.freeCtr + 1 }

/-! ## Time (R8, R9, R13, R14) -/

/-- The number of the tick in progress. -/
def Dev.now (d : Dev) : Nat := d.plat.tick.toNat

/-- Ticks passed since tick `t` (the counter wraps, R9). -/
def Dev.since (d : Dev) (t : Nat) : Nat := behind 64 d.now t

/-- The tick sequence number (R9). -/
def Dev.seqNo (d : Dev) : Nat := d.now % 2 ^ 16

/-- Whether a time of `ns` after the boundary lies in the guard phase (R14, R43). -/
def inGuard (ns : Nat) : Bool := decide (2400 ≤ ns)

/-- Whether a 32-bit tick value names a future tick (R13). -/
def Dev.futureTick (d : Dev) (t : Nat) : Bool :=
  let diff := behind 32 t d.now
  decide (1 ≤ diff) && decide (diff ≤ 2 ^ 31 - 1)

/-- The full tick number that a future 32-bit tick value names. -/
def Dev.fullTick (d : Dev) (t : Nat) : Nat := d.now + behind 32 t d.now

/-! ## Unit states (R51, R52) -/

/-- The master page whose state a page shows: its own, or that of the drive it serves (R51). -/
def masterOf (page : Nat) : Nat :=
  match kindAt page with
  | some (.odrHl, i) => 0x801000 + 0x1000 * i
  | some (.odrRc, i) => 0x801000 + 0x1000 * i
  | some (.odrTsf, i) => 0x801000 + 0x1000 * i
  | some (.odrWr, i) => 0x801000 + 0x1000 * i
  | some (.srvEng, i) => 0x801000 + 0x1000 * (i / 3)
  | some (.srvDrv, i) => 0x801000 + 0x1000 * i
  | some (.srvLoop, i) => 0x801000 + 0x1000 * (i / 32)
  | some (.motSp, i) => 0x801000 + 0x1000 * i
  | some (.motSt, i) => if i < 4 then 0x801000 + 0x1000 * i else pageOf page
  | _ => pageOf page

/-- The state of the unit that a page is, or belongs to. A buffer owner is ACTIVE from chip reset (R141). -/
def Dev.unitAt (d : Dev) (page : Nat) : UnitSt :=
  let m := masterOf page
  let dflt := match kindAt m with
    | some (.bpmOwn, _) => UnitSt.active
    | _ => UnitSt.off
  Map.get dflt d.plat.units m

def Dev.setUnit (d : Dev) (page : Nat) (u : UnitSt) : Dev :=
  d.onPlat fun p => { p with units := Map.put p.units (masterOf page) u }

/-- The region is fenced. -/
def Dev.regionFenced (d : Dev) (r : Nat) : Bool := decide (d.unitAt (r * 0x100000) = .fenced)

/-- The pages above BAR0 that stand for the cells, in the order of their kinds. -/
def cellNo : Cell → Nat
  | .core i => i
  | .codec i => 8 + i
  | .sha i => 24 + i
  | .stripe i => 32 + i
  | .ldpc i => 48 + i
  | .lun k => 80 + k
def cellPage (c : Cell) : Nat := 2 ^ 32 + 4096 * cellNo c

/-- The cell that a page stands for. -/
def cellAt (page : Nat) : Option Cell :=
  if page < 2 ^ 32 then none
  else
    let n := (page - 2 ^ 32) / 4096
    if n < 8 then some (.core n) else if n < 24 then some (.codec (n - 8)) else if n < 32 then some (.sha (n - 24))
    else if n < 48 then some (.stripe (n - 32)) else if n < 80 then some (.ldpc (n - 48)) else some (.lun (n - 80))

/-- The page of the block that contains a cell, and fences with it what does not confirm (R30): ING_PROC, PAR_REG, ODR_LDPC, a channel; a
core lies in the SEQ region itself (R470). -/
def cellBlock : Cell → Nat
  | .core _ => 0x200000
  | .codec _ | .sha _ => 0x308000
  | .stripe _ => 0x700000
  | .ldpc _ => 0x818000
  | .lun k => 0x601000 + 0x1000 * (k / 64 % 32)

/-- The block and the region that contain a unit; a unit that is a block lies in itself. -/
def containing (u : Nat) : Nat × Nat :=
  let b := match cellAt u with
    | some c => cellBlock c
    | none => u
  (b, b - b % 0x100000)

/-- A fence has begun on the unit, or on its block or region, or it is confirmed: its ports are closed to new requests (R29). -/
def Dev.closed (d : Dev) (page : Nat) : Bool :=
  let u := masterOf page
  let (b, r) := containing page
  [u, b, r].any fun x => decide (d.unitAt x = .fenced) || d.plat.fences.any (fun f => f.unit == x || f.within.contains x)

/-- A fence of the unit, or of what contains it, has begun and is not confirmed. -/
def Dev.fencing (d : Dev) (page : Nat) : Bool :=
  let u := masterOf page
  let (b, r) := containing page
  d.plat.fences.any (fun f => f.unit == u || f.unit == b || f.unit == r || f.within.contains u)

/-- The cells of a kind that take no work: those their status shows FENCED, and those whose ports are closed. -/
def Dev.cellsOut (d : Dev) (f : RegField) (cell : Nat → Cell) (n : Nat) : Nat :=
  maskOf ((List.range n).map fun i => (d.rd f).testBit i || d.closed (cellPage (cell i)))

/-! ## Logs (R474, R475) -/

/-- A record enters a log of `cap` records; the oldest gives way. -/
def Log.push (l : Log) (cap : Nat) (r : LogRec) : Log :=
  let recs := l.recs ++ [{ r with lseq := l.written }]
  ⟨recs.drop (recs.length - cap), l.written + 1⟩

/-- The timecode that stamps records and frames; 0xFFFF_FFFF while none is valid (R91). -/
def Dev.timecode (d : Dev) : Nat := if d.flag F.ingTcStat_valid then d.rd F.ingTc else 0xFFFFFFFF

/-- A record with the stamps of R475 filled in. -/
def Dev.logRec (d : Dev) (ty page bit level cont info flags : Nat) : LogRec :=
  { ty := ty, region := regionOf page, slot := slotOf page, bit := bit, level := level, cont := cont, lseq := 0,
    tick := d.now, time := d.rd F.sflTime, tc := d.timecode, info := info, flags := flags, queue := 0, qslot := 0, caps := [] }

/-- The MRAM takes new contents; PLT_MRAM_CNT[2] counts the 64-bit words written (R484, log entry 53). -/
def Dev.mramPut (d : Dev) (words : Nat) (f : Mram → Mram) : Dev := (d.onMram f).countN (F.pltMramCnt 2) words

def Dev.logChip (d : Dev) (r : LogRec) : Dev := d.mramPut 8 fun m => { m with chipLog := m.chipLog.push 262144 r }
def Dev.logEvent (d : Dev) (r : LogRec) : Dev := d.mramPut 8 fun m => { m with eventLog := m.eventLog.push 65536 r }
def Dev.logAccess (d : Dev) (r : LogRec) : Dev := d.mramPut 8 fun m => { m with accessLog := m.accessLog.push 131072 r }

/-! ## Events and MSI-X (R58, R59, R450) -/

/-- The host link is up: CXL or PCIe 5.0 fallback (PLT_STAT.LINK). -/
def Dev.linkUp (d : Dev) : Bool := decide (d.rd F.pltStat_link ≠ 0)

/-- A vector's message is sent, or pends in the PBA while its mask bit is set. -/
def Dev.msix (d : Dev) (v : Nat) : Dev :=
  if d.flag (F.msixCtrl v) then d.wr ⟨0x103C00 + 4 * (v / 32), v % 32, v % 32, false⟩ 1
  else d.send (.msix v (d.rd (F.msixAddrLo v) + 2 ^ 32 * d.rd (F.msixAddrHi v)) (d.rd (F.msixData v)))

/-- The message of event `e` on the route now in force; events of one tick on one vector share a message (R59). -/
def Dev.eventMessage (d : Dev) (e : Nat) : Dev :=
  if d.flag (F.pltEvtRoute_en e) then
    let v := d.rd (F.pltEvtRoute_vector e)
    if d.plat.evtSent.contains v then d
    else (d.onPlat fun p => { p with evtSent := v :: p.evtSent }).msix v
  else d

/-- Event `e` is raised: CAUSE, then its message, or HELD while the link is down (R28, R58, R59). -/
def Dev.event (d : Dev) (e : Nat) : Dev :=
  let d := d.wr ⟨F.pltEvtCause.addr, e, e, false⟩ 1
  if d.linkUp then d.eventMessage e else d.wr ⟨F.pltEvtHeld.addr, e, e, false⟩ 1

/-- Events 12–15 are also logged as events (R474). -/
def Dev.chipEvent (d : Dev) (e : Nat) : Dev :=
  (d.logEvent { d.logRec 2 0xFF00000 e 3 0 0 0 with region := 0xFF, slot := 0 }).event e

/-! ## Errors (R27–R31, R39, R40) -/

/-- The description of a page's error bit. -/
def errAt (page bit : Nat) : Option ErrDef :=
  match kindAt page with
  | some (k, _) => k.desc.errs.find? (fun e => e.bit == bit)
  | none => none

/-- The level at which PG_ERR bit `bit` of a page is reported: its escalation, BLOCK where it is masked (R28, R31). -/
def Dev.errLevel (d : Dev) (page bit : Nat) : Nat :=
  let p := pageOf page
  let esc := if bit < 16 then bitsOf (d.raw (p + 0x18)).toNat (2 * bit + 1) (2 * bit)
    else bitsOf (d.raw (p + 0x30)).toNat (2 * (bit - 16) + 1) (2 * (bit - 16))
  let free := match errAt page bit with
    | some e => e.unmaskable
    | none => false
  if (d.raw (p + 0x14)).toNat.testBit bit && !free then 0 else esc

def contCode : Containment → Nat
  | .corrected => 0
  | .hollow => 1
  | .discard => 2
  | .fence => 3

/-- PG_ERR bit `bit` of a page is set and reported at `level`, each level below it recording the error too; `info` is what bytes 32–39 of
its record name (R28, R475). DESIGN CHOICE: a block's log keeps every record since chip reset (log entry 76). -/
def Dev.report (d : Dev) (page bit level info : Nat) : Dev :=
  let p := pageOf page
  let d := d.setRaw (p + 0x10) (d.raw (p + 0x10) ||| w32 (2 ^ bit))
  let d := if 1 ≤ level then
      d.onPlat fun q => { q with errSum := Map.set 0 q.errSum p (Map.get 0 q.errSum p ||| 2 ^ bit) } else d
  let c := match errAt page bit with
    | some e => contCode e.cont
    | none => 0
  let r := d.logRec 1 p bit level c info 0
  let d := d.onPlat fun q => { q with blockLog := Map.set [] q.blockLog p (Map.get [] q.blockLog p ++ [r]) }
  let d := if 2 ≤ level then d.logChip r else d
  if level = 3 then (d.logEvent r).event (regionOf p) else d

/-- An error is raised on a page at the level its escalation gives. -/
def Dev.raise (d : Dev) (page bit : Nat) (info : Nat := 0) : Dev := d.report page bit (d.errLevel page bit) info

/-- An error is raised at least at `level`, whatever its escalation holds (R30, R492). -/
def Dev.raiseAtLeast (d : Dev) (page bit level : Nat) (info : Nat := 0) : Dev :=
  d.report page bit (max level (d.errLevel page bit)) info

/-- An access is counted in a page: PG_CNT_ERR, PG_ERR.ACCESS and the access log (R3, R40, R475 type 3). -/
def Dev.countIgnored (d : Dev) (page : Nat) (info : Nat := 0) (flags : Nat := 1) : Dev :=
  let p := pageOf page
  let d := d.setRaw (p + 0x2C) (w32 (satInc 32 (d.raw (p + 0x2C)).toNat))
  let d := d.logAccess { d.logRec 3 p 31 0 0 info flags with cont := 0 }
  d.raise p 31

/-- Register writes are not taken: in the chip safe state (R494) and while a software reset is under way (R56). -/
def Dev.writesBlocked (d : Dev) : Bool := d.plat.safe || d.plat.softReset.isSome

/-- The effect of a register write on page `page`, ignored and counted while writes are not taken. -/
def Dev.asWrite (d : Dev) (page : Nat) (f : Dev → Dev) : Dev := if d.writesBlocked then d.countIgnored page else f d

/-- A fault that PG_ERR_INJ put into the datapath is met, and gone (R41). -/
def Dev.injected (d : Dev) (page bit : Nat) : Bool := d.plat.armed.contains (pageOf page, bit)
def Dev.takeInjected (d : Dev) (page bit : Nat) : Dev :=
  d.onPlat fun p => { p with armed := p.armed.erase (pageOf page, bit) }

/-! ## Fences (R29, R30, R137) -/

/-- The buffer owners that act for a unit (R137). -/
def Dev.ownersOf (d : Dev) (unit : Nat) : List Nat :=
  match kindAt unit with
  | some (.ingStr, s) => [s]
  | some (.odrDrv, n) => [36 + n]
  | some (k, _) =>
    if k.desc.base % 0x100000 = 0 then
      (List.range 64).filter (fun o => d.rd (F.bpmOwnCfg_region o) == regionOf unit)
    else []
  | none => []

/-- The page that stands for a sequencer core (R470). -/
def corePage (c : Nat) : Nat := cellPage (.core c)

/-- The replaceable units of a region that are not OFF. -/
def Dev.unitsIn (d : Dev) (region : Nat) : List Nat :=
  (d.plat.units.filter (fun e => regionOf e.1 == region && decide (e.2 ≠ .off) && (match kindAt e.1 with
    | some (k, _) => k.desc.isolate || k == .cstStk
    | none => false))).map (·.1)

/-- First step of R29: the unit's ports close to new requests, and the owners that act for it are fenced (R137). A unit that is
OFF is not fenced (R52); the replaceable units of a region are fenced with it. -/
def Dev.fence1 (d : Dev) (unit : Nat) (err : Option (Nat × Nat) := none) : Dev :=
  let u := masterOf unit
  let off := decide (d.unitAt u = .off) && (match kindAt u with
    | some (k, _) => k.desc.isolate
    | none => false)
  if d.closed u || off then d
  else
    let owners := match cellAt u with
      | some (.core c) => [40 + c]
      | some _ => []
      | none => d.ownersOf u
    let within := if u < 2 ^ 32 ∧ u % 0x100000 = 0 then d.unitsIn (regionOf u) else []
    let d := d.onPlat fun p => { p with fences := p.fences.filter (fun f => !within.contains f.unit) ++ [⟨u, d.now, within, err⟩] }
    let d := d.onBpm fun b => { b with fenced := b.fenced ++ owners.filter (fun o => !b.fenced.contains o) }
    owners.foldl (fun d o => d.onPlat fun p => { p with units := Map.put p.units (0x520000 + 0x1000 * o) .fenced }) d

/-- A unit is fenced for an error, given as page and bit where there is one. A fence of stack 3 also fences ING (R108). -/
def Dev.fence (d : Dev) (unit : Nat) (err : Option (Nat × Nat) := none) : Dev :=
  let d := d.fence1 unit err
  if masterOf unit = 0x404000 then d.fence1 0x300000 err else d

end Sys2Proof.Machine
end

