-- ==== Sys2Proof/Machine/Arb.lean ====
section
/-! DEFINITION. Who goes first (R18–R23): the block arbiters, the region arbiters with their rounds over the four traffic classes, and the
chip fabric. Whatever asks for the same resource at once is put in the order in which its requests are granted. -/
namespace Sys2Proof.Machine
open Sys2Proof

/-- The search of a round-robin arbiter: the least number from `start` on, or from 0 where there is none (R20). -/
def robin (start : Nat) (xs : List Nat) : Nat :=
  let least (l : List Nat) : Option Nat := l.foldl (fun (b : Option Nat) x => match b with
    | some y => some (min x y)
    | none => some x) none
  ((least (xs.filter (fun x => decide (start ≤ x)))).or (least xs)).getD 0

/-- The weight of a class (PLT_ARB_WT, R25). -/
def Dev.weight (d : Dev) (cls : Nat) : Nat :=
  match cls with
  | 0 => d.rd F.pltArbWt_w0
  | 1 => d.rd F.pltArbWt_w1
  | 2 => d.rd F.pltArbWt_w2
  | _ => d.rd F.pltArbWt_w3

/-- A region's round moves on until it stands at a class that has a grant left and a request pending: what a class leaves passes to the
classes below it, and after class 3 a new round begins (R21). `at_` is the class and the grants left to it. -/
def roundAt (weight : Nat → Nat) (pending : Nat → Bool) : Nat → Nat × Nat → Nat × Nat
  | 0, at_ => at_
  | fuel + 1, (c, left) =>
    if pending c && decide (0 < left) then (c, left)
    else if c < 3 then roundAt weight pending fuel (c + 1, left + weight (c + 1))
    else roundAt weight pending fuel (0, weight 0)

/-- The request that a region offers to the fabric, and the class and grants left in its round: round-robin among its blocks within the
class, and among a block's cells; two requests of one cell go in the order in which they were made. -/
def Arb.offer (a : Arb) (weight : Nat → Nat) (reqs : List ArbReq) (region : Nat) : Option (ArbReq × Nat) :=
  let mine := reqs.filter (fun r => r.region == region)
  let (c, left) := roundAt weight (fun c => mine.any (·.cls == c)) 8 (Map.get (0, weight 0) a.rounds region)
  let mine := mine.filter (fun r => r.cls == c)
  let b := robin (Map.get 0 a.blocks (4 * region + c)) (mine.map (·.block))
  let mine := mine.filter (fun r => r.block == b)
  let x := robin (Map.get 0 a.cells (256 * region + b)) (mine.map (·.cell))
  (mine.find? (fun r => r.cell == x)).map (·, left)

/-- The request that the fabric grants: of the offers, the first class, and round-robin by region code within it (R23). -/
def Arb.winner (a : Arb) (weight : Nat → Nat) (reqs : List ArbReq) : Option (ArbReq × Nat) :=
  let offers := (List.range 12).filterMap (a.offer weight reqs)
  match [0, 1, 2, 3].find? (fun c => offers.any (fun o => o.1.cls == c)) with
  | none => none
  | some c =>
    let top := offers.filter (fun o => o.1.cls == c)
    let r := robin (Map.get 0 a.chip c) (top.map (·.1.region))
    top.find? (fun o => o.1.region == r)

/-- A grant: the three searches go on from the winner, and its region's round has one grant less. -/
def Arb.granted (a : Arb) (r : ArbReq) (left : Nat) : Arb where
  cells := Map.put a.cells (256 * r.region + r.block) (r.cell + 1)
  blocks := Map.put a.blocks (4 * r.region + r.cls) (r.block + 1)
  rounds := Map.put a.rounds r.region (r.cls, left - 1)
  chip := Map.put a.chip r.cls (r.region + 1)

/-- The keys of requests made at once, in the order of their grants; a request whose region is none comes last. -/
def Arb.order (a : Arb) (weight : Nat → Nat) : Nat → List ArbReq → List Nat × Arb
  | 0, reqs => (reqs.map (·.key), a)
  | fuel + 1, reqs => match a.winner weight reqs with
    | none => (reqs.map (·.key), a)
    | some (r, left) =>
      let (ks, a) := (a.granted r left).order weight fuel (reqs.erase r)
      (r.key :: ks, a)

/-- A traffic class is granted in this tick at the thermal level in force (R24, R497). -/
def Dev.classServed (d : Dev) (cls : Nat) : Bool :=
  let l := d.rd F.pltThermStat_level
  if cls = 3 then decide (l = 0) || (decide (l = 1) && decide (d.now % 2 = 0)) || (decide (l = 2) && decide (d.now % 4 = 0))
  else if cls = 2 then decide (l < 3) || (decide (l = 3) && decide (d.now % 2 = 0)) || (decide (l = 4) && decide (d.now % 4 = 0))
  else true

/-- The order in which what asks at once is served. -/
def Dev.served (d : Dev) (reqs : List ArbReq) : List Nat × Dev :=
  let (ks, a) := d.plat.arb.order d.weight reqs.length reqs
  (ks, d.onPlat fun p => { p with arb := a })

/-- A class 3 request is granted as class 2 for one grant (R23): the searches go on from it, its region's round is untouched. -/
def Dev.promoted (d : Dev) (r : ArbReq) : Dev :=
  d.onPlat fun p => { p with arb := { p.arb.granted { r with cls := 2 } 0 with rounds := p.arb.rounds } }

end Sys2Proof.Machine
end

