-- ==== Sys2Proof/Machine/Crypt.lean ====
section
/-! DEFINITION. The engines of the flash egress and the drain: SHA-256 (R94) and XTS-AES-256 (R204), as the standards the
spec names define them (log entry 10). -/
namespace Sys2Proof.Machine
open Sys2Proof

/-! ## SHA-256 -/

/-- The first primes: `n` numbers from `k` on that no smaller number above 1 divides, found in at most `fuel` steps. -/
def primesFrom : Nat → Nat → Nat → List Nat
  | 0, _, _ => []
  | fuel + 1, k, n =>
    if n = 0 then []
    else if (List.range k).any (fun d => decide (2 ≤ d) && k % d == 0) then primesFrom fuel (k + 1) n
    else k :: primesFrom fuel (k + 1) (n - 1)

/-- The largest `r` below 2^`bits` with r^e ≤ n, bit by bit from the top. -/
def rootBits (e n : Nat) (bits : Nat) : Nat :=
  (List.range bits).foldl (fun r i => let t := r + 2 ^ (bits - 1 - i); if t ^ e ≤ n then t else r) 0

/-- The first 32 bits of the fractional part of the `e`th root of `p`. -/
def rootFrac (e p : Nat) : Nat := rootBits e (p * 2 ^ (32 * e)) 40 % 2 ^ 32

/-- The initial hash value and the round constants of SHA-256. -/
def shaInit : List Nat := (primesFrom 20 2 8).map (rootFrac 2)
def shaK : List Nat := (primesFrom 320 2 64).map (rootFrac 3)

def rotr (n x : Nat) : Nat := (x >>> n) ||| ((x <<< (32 - n)) % 2 ^ 32)

/-- The message schedule: 64 words from 16. -/
def shaSchedule (w : List Nat) : List Nat :=
  (List.range 48).foldl (fun (w : List Nat) i =>
    let x := w.getD (i + 1) 0
    let y := w.getD (i + 14) 0
    let s0 := rotr 7 x ^^^ rotr 18 x ^^^ (x >>> 3)
    let s1 := rotr 17 y ^^^ rotr 19 y ^^^ (y >>> 10)
    w ++ [(w.getD i 0 + s0 + w.getD (i + 9) 0 + s1) % 2 ^ 32]) w

/-- One round on the working variables a … h. -/
def shaRound (v : List Nat) (k w : Nat) : List Nat :=
  let g := fun i => v.getD i 0
  let s1 := rotr 6 (g 4) ^^^ rotr 11 (g 4) ^^^ rotr 25 (g 4)
  let ch := (g 4 &&& g 5) ^^^ ((2 ^ 32 - 1 - g 4) &&& g 6)
  let t1 := g 7 + s1 + ch + k + w
  let s0 := rotr 2 (g 0) ^^^ rotr 13 (g 0) ^^^ rotr 22 (g 0)
  let maj := (g 0 &&& g 1) ^^^ (g 0 &&& g 2) ^^^ (g 1 &&& g 2)
  [(t1 + s0 + maj) % 2 ^ 32, g 0, g 1, g 2, (g 3 + t1) % 2 ^ 32, g 4, g 5, g 6]

/-- One 64-byte block. -/
def shaBlock (ks h : List Nat) (blk : List Byte) : List Nat :=
  let w := shaSchedule ((List.range 16).map (fun i => beNat (slice blk (4 * i) 4)))
  let v := (List.zip ks w).foldl (fun v kw => shaRound v kw.1 kw.2) h
  List.zipWith (fun a b => (a + b) % 2 ^ 32) h v

/-- The 32-byte digest of a message. -/
def sha256 (msg : List Byte) : List Byte :=
  let padLen := (119 - msg.length % 64) % 64
  let full := msg ++ [0x80] ++ zeros padLen ++ beBytes 8 (8 * msg.length)
  let ks := shaK
  let h := (List.range (full.length / 64)).foldl (fun h i => shaBlock ks h (slice full (64 * i) 64)) shaInit
  (h.map (beBytes 4)).flatten

/-! ## AES-256 -/

/-- Product in GF(2⁸) with the AES polynomial 0x11B. -/
def aesMul (a b : Nat) : Nat :=
  (List.range 8).foldl (fun acc i =>
    let dbl := acc * 2
    let red := if dbl < 256 then dbl else (dbl ^^^ 0x11B)
    if b.testBit (7 - i) then red ^^^ a else red) 0

/-- The byte with product 1, or 0 for 0: the 254th power. -/
def aesInv (a : Nat) : Nat := (List.range 253).foldl (fun r _ => aesMul r a) a

def rotl8 (n x : Nat) : Nat := (x <<< n ||| x >>> (8 - n)) % 256

/-- The substitution of one byte. -/
def aesSub (a : Nat) : Nat :=
  let b := aesInv a
  b ^^^ rotl8 1 b ^^^ rotl8 2 b ^^^ rotl8 3 b ^^^ rotl8 4 b ^^^ 0x63

/-- The inverse substitution. -/
def aesUnsub (s : Nat) : Nat :=
  let c := s ^^^ 0x63
  aesInv (rotl8 1 c ^^^ rotl8 3 c ^^^ rotl8 6 c)

/-- The expanded key: 60 words of 4 bytes. -/
def aesExpand (key : List Nat) : List (List Nat) :=
  let first := (List.range 8).map (fun i => (List.range 4).map (fun j => key.getD (4 * i + j) 0))
  (List.range 52).foldl (fun (w : List (List Nat)) n =>
    let i := n + 8
    let t := w.getD (i - 1) []
    let t := if i % 8 = 0 then
        let s := (t.drop 1 ++ t.take 1).map aesSub
        s.set 0 (s.getD 0 0 ^^^ 2 ^ (i / 8 - 1))
      else if i % 8 = 4 then t.map aesSub else t
    w ++ [List.zipWith (fun a b => a ^^^ b) (w.getD (i - 8) []) t]) first

def aesAddKey (w : List (List Nat)) (r : Nat) (s : List Nat) : List Nat :=
  List.zipWith (fun a b => a ^^^ b) s ((w.drop (4 * r)).take 4).flatten

/-- Row `r` of the state (byte r + 4c is row r, column c) moves left by `k r` columns. -/
def aesShift (k : Nat → Nat) (s : List Nat) : List Nat :=
  (List.range 16).map (fun i => s.getD (i % 4 + 4 * ((i / 4 + k (i % 4)) % 4)) 0)

/-- Each column times the circulant matrix whose first row is `m`. -/
def aesMix (m : List Nat) (s : List Nat) : List Nat :=
  (List.range 16).map (fun i => (List.range 4).foldl (fun a j =>
    a ^^^ aesMul (m.getD ((j + 4 - i % 4) % 4) 0) (s.getD (i / 4 * 4 + j) 0)) 0)

/-- One 16-byte block enciphered. -/
def aesEnc (key : List Nat) (blk : List Nat) : List Nat :=
  let w := aesExpand key
  let s := (List.range 13).foldl (fun s i =>
    aesAddKey w (i + 1) (aesMix [2, 3, 1, 1] (aesShift id (s.map aesSub)))) (aesAddKey w 0 blk)
  aesAddKey w 14 (aesShift id (s.map aesSub))

/-- One 16-byte block deciphered. -/
def aesDec (key : List Nat) (blk : List Nat) : List Nat :=
  let w := aesExpand key
  let back := fun r => (4 - r) % 4
  let s := (aesShift back (aesAddKey w 14 blk)).map aesUnsub
  let s := (List.range 13).foldl (fun s i =>
    (aesShift back (aesMix [14, 11, 13, 9] (aesAddKey w (13 - i) s))).map aesUnsub) s
  aesAddKey w 0 s

/-! ## XTS -/

/-- The tweak times x in GF(2¹²⁸): a little-endian shift, 0x87 folded in. -/
def xtsNext (t : Nat) : Nat := if t * 2 < 2 ^ 128 then t * 2 else (t * 2 - 2 ^ 128) ^^^ 0x87

def natsOf (bs : List Byte) : List Nat := bs.map (·.toNat)
def bytesOf (ns : List Nat) : List Byte := ns.map w8

/-- A data unit (a multiple of 16 bytes) under tweak number `tweak`, with keys Key1 and Key2. -/
def xts (enc : Bool) (key1 key2 : List Byte) (tweak : Nat) (data : List Byte) : List Byte :=
  let t0 := leNat (bytesOf (aesEnc (natsOf key2) (natsOf (leBytes 16 tweak))))
  let k1 := natsOf key1
  ((List.range (data.length / 16)).foldl (fun (acc : List Byte × Nat) i =>
    let t := natsOf (leBytes 16 acc.2)
    let x := List.zipWith (fun a b => a ^^^ b) (natsOf (slice data (16 * i) 16)) t
    let y := if enc then aesEnc k1 x else aesDec k1 x
    (acc.1 ++ bytesOf (List.zipWith (fun a b => a ^^^ b) y t), xtsNext acc.2)) ([], t0)).1

/-- The tweak of logical block `lba` of volume `vol` (R204). -/
def xtsTweak (vol lba : Nat) : Nat := lba % 2 ^ 48 + (vol - 1) * 2 ^ 48

end Sys2Proof.Machine
end

