-- ==== Sys2Proof/Machine/Gf.lean ====
section
/-! DEFINITION. The field GF(2⁸) and the codes built on it: the line check of the store (R110, R111), parity P and Q
(R211, R212, R234), RS(18,16) across beams (R301), and the cyclic checks CRC-16 (R67) and CRC-32C. -/
namespace Sys2Proof.Machine
open Sys2Proof

/-- Product in GF(2⁸) with polynomial 0x11D. -/
def gfMul (a b : Nat) : Nat :=
  (List.range 8).foldl (fun acc i =>
    let dbl := acc * 2
    let red := if dbl < 256 then dbl else (dbl ^^^ 0x11D)
    if b.testBit (7 - i) then red ^^^ a else red) 0

/-- `a` to the power `n` in GF(2⁸). -/
def gfPow (a : Nat) : Nat → Nat
  | 0 => 1
  | n + 1 => gfMul a (gfPow a n)

/-- α = 0x02 to the power `n`. -/
def gfAlpha (n : Nat) : Nat := gfPow 2 (n % 255)

/-- The inverse in GF(2⁸). -/
def gfInv (a : Nat) : Nat := gfPow a 254

/-- Sum (exclusive or) of a list of symbols. -/
def gfSum (xs : List Nat) : Nat := xs.foldl (fun a b => a ^^^ b) 0

/-- A codeword evaluated at `x`, highest degree first. -/
def gfEval (x : Nat) (cs : List Nat) : Nat := cs.foldl (fun s c => gfMul s x ^^^ c) 0

/-- The generator (x − α⁰) … (x − αⁿ⁻¹), highest degree first. -/
def rsGen : Nat → List Nat
  | 0 => [1]
  | n + 1 =>
    let g := rsGen n
    let r := gfAlpha n
    List.zipWith (fun x y => x ^^^ gfMul r y) (g ++ [0]) (0 :: g)

/-- The `n` systematic check symbols of a message, highest degree first. -/
def rsCheck (n : Nat) (msg : List Nat) : List Nat :=
  let g := (rsGen n).drop 1
  msg.foldl (fun reg m =>
    let fb := m ^^^ reg.headD 0
    List.zipWith (fun x y => x ^^^ gfMul fb y) (reg.drop 1 ++ [0]) g) (List.replicate n 0)

/-! ## The line check (R110, R111) -/

/-- The four address symbols of a line: store address bits [37:6], most significant byte first. -/
def lineAddrSyms (addr : Nat) : List Nat := (beBytes 4 (addr / 64 % 2 ^ 32)).map (·.toNat)

/-- The check bytes C0–C7 of a line in normal form. -/
def lineCheck (addr : Nat) (data : List Byte) : List Nat :=
  rsCheck 8 (lineAddrSyms addr ++ data.map (·.toNat))

/-- How a line decodes in one form: clean, one stored symbol in error (its index among D0–D63 then C0–C7, and the error),
or not at all. -/
inductive Fit where
  | clean | one (sym err : Nat) | none
  deriving DecidableEq, Repr

/-- Decoding of 64 data and 8 check symbols at an address (R110): a single error located in an address symbol does not fit. -/
def decodeForm (addr : Nat) (data chk : List Nat) : Fit :=
  let word := lineAddrSyms addr ++ data ++ chk
  let syn := (List.range 8).map (fun j => gfEval (gfAlpha j) word)
  if syn.all (· == 0) then .clean
  else
    let s0 := syn.getD 0 0
    if syn.any (· == 0) then .none
    else
      let x := gfMul (syn.getD 1 0) (gfInv s0)
      let geometric := (List.range 7).all (fun j => gfMul (syn.getD j 0) x == syn.getD (j + 1) 0)
      match (List.range 76).find? (fun p => gfAlpha p == x) with
      | some p => if geometric && decide (p < 72) then .one (71 - p) s0 else .none
      | .none => .none

/-- Symbols with errors added. -/
def addErrs (syms : List Nat) (errs : List (Nat × Nat)) : List Nat :=
  errs.foldl (fun l e => l.set e.1 (l.getD e.1 0 ^^^ (e.2 % 256))) syms

/-- What a read of a line shows (R111): the data, whether Hollow, and whether it was corrected or fits no form. -/
structure LineOut where
  data      : List Byte
  hollow    : Bool
  corrected : Bool
  noFit     : Bool
  deriving DecidableEq, Repr

/-- The line whose stored data and form are given, read with `errs` on its symbols. -/
def readForms (addr : Nat) (data : List Byte) (hollow : Bool) (errs : List (Nat × Nat)) : LineOut :=
  if errs.all (fun e => e.2 % 256 == 0) then ⟨data, hollow, false, false⟩
  else
    let chk := (lineCheck addr data).map (fun c => if hollow then c ^^^ 0xA5 else c)
    let word := addErrs (data.map (·.toNat) ++ chk) errs
    let dat := word.take 64
    let raw := word.drop 64
    let out (f : Fit) : List Byte := match f with
      | .one s e => (addErrs dat (if s < 64 then [(s, e)] else [])).map w8
      | _ => dat.map w8
    match decodeForm addr dat raw with
    | .clean => ⟨out .clean, false, false, false⟩
    | .one s e => ⟨out (.one s e), false, true, false⟩
    | .none =>
      match decodeForm addr dat (raw.map (· ^^^ 0xA5)) with
      | .none => ⟨dat.map w8, true, false, true⟩
      | f => ⟨out f, true, false, false⟩

/-! ## Cyclic checks -/

/-- CRC-16 with polynomial 0x1021, initial value 0xFFFF, no reflection (R67). -/
def crc16 (bs : List Byte) : Nat :=
  bs.foldl (fun c b =>
    (List.range 8).foldl (fun c _ => if c.testBit 15 then (c * 2 % 65536) ^^^ 0x1021 else c * 2) (c ^^^ (b.toNat * 256)))
    0xFFFF

/-- The same CRC over bits that make no whole bytes. -/
def crc16Bits (bits : List Bool) : Nat :=
  bits.foldl (fun c b => if c.testBit 15 != b then (c * 2 % 65536) ^^^ 0x1021 else c * 2 % 65536) 0xFFFF

/-- CRC-32C (Castagnoli): reflected polynomial 0x82F63B78, initial value and final exclusive or 0xFFFF_FFFF. -/
def crc32c (bs : List Byte) : Nat :=
  (bs.foldl (fun c b =>
    (List.range 8).foldl (fun c _ => if c % 2 = 1 then (c / 2) ^^^ 0x82F63B78 else c / 2) (c ^^^ b.toNat))
    0xFFFFFFFF) ^^^ 0xFFFFFFFF

end Sys2Proof.Machine
end

