-- ==== Sys2Proof/Machine/Store.lean ====
section
/-! DEFINITION. The central store (R105–R121, R124, R138, R139): lines, the Hollow mark, granules and the zero tracker,
the merge buffer and patrol scrub. -/
namespace Sys2Proof.Machine
open Sys2Proof

/-- The line number of a store address (address bits [37:6]). -/
def lineNo (addr : Nat) : Nat := addr / 64
/-- The granule, and buffer index, of a store address (R105). -/
def granuleOf (addr : Nat) : Nat := addr / 65536
/-- The stack of a store address (R105). -/
def stackOf (addr : Nat) : Nat := addr / 65536 / 2 ^ 20 % 4
/-- A granule of the ING system range (R79). -/
def isSystem (g : Nat) : Bool := decide (Config.systemFirst ≤ g)

/-- The stack serves accesses: it is trained, and not OFF, fenced or isolated (R113, R138). -/
def Dev.stackUp (d : Dev) (n : Nat) : Bool :=
  match d.unitAt (Pg.cstStk n) with
  | .active | .quiescing | .quiesced => !d.closed (Pg.cstStk n) && decide (d.rd (F.cstStkTrain n) = 2)
  | _ => false

/-- The granule-valid bit; the bits of the ING system range are set at reset (R116). -/
def Dev.granuleValid (d : Dev) (g : Nat) : Bool := Map.get (isSystem g) d.cst.valid g

def Dev.setGranuleValid (d : Dev) (g : Nat) (b : Bool) : Dev :=
  d.onCst fun c => { c with valid := Map.set (isSystem g) c.valid g b }

/-- The zero-tracker entry of a granule: open, or evicted with its zero fill under way. -/
def Dev.zeroEnt (d : Dev) (g : Nat) : Option ZeroEnt := (d.cst.zero ++ d.cst.filling).find? (·.granule == g)

/-- A line that reads as zero without a stack access: its granule's bit is clear, or an entry shows it as not yet written (R116, R117). Where
the zero fill is under way it reads as it does once that has completed (R118). -/
def Dev.unwritten (d : Dev) (addr : Nat) : Bool :=
  let g := granuleOf addr
  !d.granuleValid g ||
    (match d.zeroEnt g with
     | some e => !e.written.testBit (lineNo addr % 1024)
     | none => false)

/-- One byte of the store, as memory holds it; a byte never written reads as zero (log entry 3). -/
def Dev.byteAt (d : Dev) (a : Nat) : Byte := Map.get 0 d.cst.mem a

/-- `n` bytes of the store from `a` on. -/
def Dev.bytesAt (d : Dev) (a n : Nat) : List Byte := Map.getRun 0 d.cst.mem a n

/-- The 64 bytes of the line at `addr`. -/
def Dev.lineData (d : Dev) (addr : Nat) : List Byte := d.bytesAt (lineNo addr * 64) 64

/-- Whether the line at `addr` is stored in Hollow form. -/
def Dev.lineHollow (d : Dev) (addr : Nat) : Bool := Map.get false d.cst.hollow (lineNo addr)

/-- Bytes put into memory as they are. -/
def Dev.poke (d : Dev) (a : Nat) (bs : List Byte) : Dev := d.onCst fun c => { c with mem := Map.setRun 0 c.mem a bs }

/-- A line stored: 64 bytes in normal or Hollow form. -/
def Dev.putLine (d : Dev) (addr : Nat) (data : List Byte) (hollow : Bool) : Dev :=
  let d := d.poke (lineNo addr * 64) (padTo 64 data)
  d.onCst fun c => { c with
    hollow := Map.set false c.hollow (lineNo addr) hollow,
    stale := Map.set 0 c.stale (granuleOf addr)
      (setBit (Map.get 0 c.stale (granuleOf addr)) (lineNo addr % 1024) false) }

/-! ## Handle checks (R122–R124) -/

def Dev.bufEnt (d : Dev) (i : Nat) : BufEnt := Map.get BufEnt.reset d.bpm.ents i
def Dev.setBufEnt (d : Dev) (i : Nat) (e : BufEnt) : Dev :=
  d.onBpm fun b => { b with ents := Map.set BufEnt.reset b.ents i e }

/-- The index and generation of a handle (R122). -/
def handleIndex (h : Nat) : Nat := h % 2 ^ 22
def handleGen (h : Nat) : Nat := h / 2 ^ 22 % 1024
def mkHandle (gen i : Nat) : Nat := gen % 1024 * 2 ^ 22 + i
/-- The handle that names no buffer. -/
def handleNone : Nat := 0xFFFFFFFF
/-- First store address of the buffer a handle names. -/
def handleAddr (h : Nat) : Nat := handleIndex h * 65536

/-- The first check of R124 that an access by handle fails. -/
def Dev.handleFault (d : Dev) (by_ : ActBy) (isWrite : Bool) : Option Nat :=
  let i := handleIndex by_.handle
  let e := d.bufEnt i
  let holder := match Map.find d.bpm.shares i with
    | some r => r.holders.testBit by_.owner
    | none => false
  let made := [Er.bpmReg_handleFree, Er.bpmReg_handleGen, Er.bpmReg_handleOwner, Er.bpmReg_handleShared].find? (d.injected Pg.bpmReg)
  if made.isSome then made
  else if !e.alloc || e.retired || isSystem i then some Er.bpmReg_handleFree
  else if handleGen by_.handle ≠ e.gen then some Er.bpmReg_handleGen
  else if by_.region ≠ d.rd (F.bpmOwnCfg_region by_.owner) || !((e.owner == by_.owner && !e.noOwner) || (e.shared && holder))
    then some Er.bpmReg_handleOwner
  else if isWrite && e.shared then some Er.bpmReg_handleShared
  else none

/-- A failed handle check raises its error and increments BPM_CNT[5]. -/
def Dev.handleFail (d : Dev) (bit addr : Nat) : Dev :=
  (((d.takeInjected Pg.bpmReg bit).raise Pg.bpmReg bit addr).count (F.bpmCnt 5))

/-- The buffer-table entry that an access by handle reads (R113, R140): a corrected word is reported; one that cannot be corrected retires its
buffer, whose handle checks fail from then on. -/
def Dev.tableRead (d : Dev) (by_ : Option ActBy) (x : SramRead) : Dev :=
  match by_ with
  | none => d
  | some y =>
    let i := handleIndex y.handle
    if x.tableUe || d.injected Pg.bpmReg Er.bpmReg_buftabUe then
      ((d.takeInjected Pg.bpmReg Er.bpmReg_buftabUe).raise Pg.bpmReg Er.bpmReg_buftabUe (i * 65536)).setBufEnt i
        { d.bufEnt i with retired := true }
    else if x.tableCe then d.raise Pg.bpmReg Er.bpmReg_buftabCe (i * 65536)
    else d

/-- A bitmap word that cannot be corrected (R113, R139): its 64 granules become valid, and every line of them Hollow. What data the lines
then hold is left open (log entry 57). -/
def Dev.bitmapLost (d : Dev) (addr : Nat) : Dev :=
  let first := granuleOf addr / 64 * 64
  let gs := (List.range 64).map (first + ·)
  let d := (d.takeInjected Pg.cstReg Er.cstReg_gvbUe).raise Pg.cstReg Er.cstReg_gvbUe addr
  let d := ((gs.foldl (fun (d : Dev) g => d.setGranuleValid g true) d).poke (first * 65536) (leBytes 4194304 (d.free 10))).stepFree
  let d := d.onCst fun c => { c with
    zero := c.zero.filter fun e => decide (e.granule / 64 ≠ first / 64),
    stale := gs.foldl (fun m g => Map.set 0 m g 0) c.stale,
    hollow := (List.range 65536).foldl (fun m k => Map.set false m (1024 * first + k) true) c.hollow }
  d.wr F.cstCnt8 d.cst.zero.length

def Dev.bitmapRead (d : Dev) (addr : Nat) (x : SramRead) : Dev :=
  if x.bitmapUe || d.injected Pg.cstReg Er.cstReg_gvbUe then d.bitmapLost addr else d

/-! ## The zero tracker (R117, R118) -/

/-- A first write to a clear granule opens an entry, evicting the oldest of 4,096; its zero fill is then under way. -/
def Dev.openZero (d : Dev) (g line cls : Nat) : Dev :=
  let d := d.setGranuleValid g true
  let d := if d.cst.zero.length < 4096 then d
    else match d.cst.zero with
      | [] => d
      | e :: rest =>
        ((d.onCst fun c => { c with zero := rest, filling := c.filling ++ [e] }).count (F.cstCnt 5)).raise
          Pg.cstReg Er.cstReg_ztEvict (e.granule * 65536)
  d.onCst fun c => { c with zero := c.zero ++ [⟨g, 2 ^ (line % 1024), cls⟩] }

/-- The granule of a line being written is made valid and its tracker entry notes the line. -/
def Dev.touch (d : Dev) (addr cls : Nat) : Dev :=
  let g := granuleOf addr
  let d :=
    if !d.granuleValid g then d.openZero g (lineNo addr) cls
    else d.onCst fun c =>
      let noted := c.zero.map fun e =>
        if e.granule = g then { e with written := e.written ||| 2 ^ (lineNo addr % 1024) } else e
      { c with
        zero := noted.filter fun e => !(e.granule == g && e.written == 2 ^ 1024 - 1)
        filling := c.filling.map fun e => if e.granule = g then { e with written := e.written ||| 2 ^ (lineNo addr % 1024) } else e }
  d.wr F.cstCnt8 d.cst.zero.length

/-! ## Parity (R106, R138) -/

/-- An access to a stack meets parity errors: one is repeated once, and a second one fences the stack; whether the access failed. -/
def Dev.parityMet (d : Dev) (addr parity : Nat) : Bool × Dev :=
  let n := stackOf addr
  let d := d.when (decide (1 ≤ parity)) fun d => (d.raise (Pg.cstStk n) Er.cstStk_parityRetry addr).count (F.cstStkCnt n 3)
  if 2 ≤ parity || d.injected (Pg.cstStk n) Er.cstStk_stackFail then
    (true, ((d.takeInjected (Pg.cstStk n) Er.cstStk_stackFail).raise (Pg.cstStk n) Er.cstStk_stackFail addr).fence (Pg.cstStk n)
      (some (Pg.cstStk n, Er.cstStk_stackFail)))
  else (false, d)

/-! ## Writes (R113, R115, R138) -/

/-- A full line is written: it stands in normal form unless the writer sends the Hollow mark; an open merge entry of the
line closes (R120). On a stack that does not serve, or fails the access, the write is dropped. -/
def Dev.writeLine (d : Dev) (addr : Nat) (data : List Byte) (hollow : Bool) (cls : Nat) (parity : Nat := 0) : Dev :=
  if !d.stackUp (stackOf addr) then d
  else
    let (failed, d) := d.parityMet addr parity
    if failed then d else
    let d := d.when hollow (·.count (F.cstCnt 4))
    let d := d.onCst fun c => { c with merge := c.merge.filter (fun m => m.line != lineNo addr) }
    (d.touch addr cls).putLine addr data hollow

/-- Consecutive lines written from a line-aligned address. -/
def Dev.writeLines (d : Dev) (addr : Nat) (data : List Byte) (hollow : Bool) (cls : Nat) : Dev :=
  (List.range (ceilDiv data.length 64)).foldl
    (fun d i => d.writeLine (addr + 64 * i) (slice data (64 * i) 64) hollow cls) d

/-! ## Reads (R111, R112, R114) -/

/-- A line as delivered. -/
structure Delivered where
  data   : List Byte
  hollow : Bool
  deriving DecidableEq, Repr

/-- Every Hollow line delivered is counted (R114). -/
def Dev.deliver (d : Dev) (o : Delivered) : Delivered × Dev := (o, d.when o.hollow (·.count (F.cstCnt 3)))

/-- Bytes gathered by an open merge entry, merged onto a line (R120). -/
def mergeBytes (data : List Byte) (bs : List (Nat × Byte)) : List Byte := bs.foldl (fun l b => l.set b.1 b.2) data

/-- An uncorrectable line is sealed: stored in Hollow form with the data as read, and its address kept (R111, R112). -/
def Dev.seal (d : Dev) (addr : Nat) (data : List Byte) (scrub : Bool) : Dev :=
  let n := stackOf addr
  let d := if scrub then ((d.raise (Pg.cstStk n) Er.cstStk_scrubUe addr).count (F.cstCnt 2)).count (F.cstStkCnt n 2)
    else ((d.raise (Pg.cstStk n) Er.cstStk_ue addr).count (F.cstCnt 1)).count (F.cstStkCnt n 1)
  let a := lineNo addr * 64
  let d := d.onCst fun c => { c with sealed := c.sealed.filter (· != a) ++ [a] }
  (d.put64 F.cstLastUeLo F.cstLastUeHi a).putLine addr data true

/-- The stack access of a read: parity retry, severity report, decoding in both forms, correction or seal. -/
def Dev.stackRead (d : Dev) (rd : LineRead) (scrub : Bool) : Delivered × Dev :=
  let n := stackOf rd.addr
  let d := d.when rd.odecc fun d => (d.raise (Pg.cstStk n) Er.cstStk_odecc rd.addr).count (F.cstStkCnt n 4)
  let (failed, d) := d.parityMet rd.addr rd.parity
  if failed then (⟨zeros 64, true⟩, d)
  else
    let lost := (Map.get 0 d.cst.stale (granuleOf rd.addr)).testBit (lineNo rd.addr % 1024)
    let bad := d.injected (Pg.cstStk n) (if scrub then Er.cstStk_scrubUe else Er.cstStk_ue)
    let d := d.takeInjected (Pg.cstStk n) (if scrub then Er.cstStk_scrubUe else Er.cstStk_ue)
    let r := if lost then ⟨leBytes 64 (d.free 1), true, false, true⟩
      else readForms rd.addr (d.lineData rd.addr) (d.lineHollow rd.addr) rd.errs
    let d := d.when lost (·.stepFree)
    if r.noFit || bad then (⟨r.data, true⟩, d.seal rd.addr r.data scrub)
    else if r.corrected then
      (⟨r.data, false⟩, (((d.raise (Pg.cstStk n) Er.cstStk_ce rd.addr).count (F.cstCnt 0)).count (F.cstStkCnt n 0)).putLine
        rd.addr r.data false)
    else (⟨r.data, r.hollow⟩, d)

/-- A demand read of a line (R111, R113, R116, R117, R120, R138), before any Hollow line is counted as delivered. -/
def Dev.readRaw (d : Dev) (rd : LineRead) : Delivered × Dev :=
  if !d.stackUp (stackOf rd.addr) then (⟨zeros 64, true⟩, d)
  else
    let d := d.bitmapRead rd.addr rd.sram
    let gone := (d.bufEnt (granuleOf rd.addr)).retired
    let (o, d) := if d.unwritten rd.addr then (⟨zeros 64, false⟩, d) else d.stackRead rd false
    match d.cst.merge.find? (·.line == lineNo rd.addr) with
    | some m => (⟨mergeBytes o.data m.bytes, o.hollow || m.hollow || gone⟩, d)
    | none => (⟨o.data, o.hollow || gone⟩, d)

/-- A read of a line that meets no fault of the stack. -/
def cleanRead (addr : Nat) : LineRead := ⟨addr, [], 0, false, none, .good⟩

/-- A demand read: handle check where the reader acts by handle (R124), then the line. -/
def Dev.readLine (d : Dev) (rd : LineRead) : Delivered × Dev :=
  match rd.by_ with
  | none => let (o, d) := d.readRaw rd; d.deliver o
  | some by_ =>
    let d := d.tableRead rd.by_ rd.sram
    match d.handleFault by_ false with
    | some bit => (d.handleFail bit rd.addr).deliver ⟨zeros 64, true⟩
    | none => let (o, d) := d.readRaw rd; d.deliver o

/-- What the lines from a line-aligned address show, and whether any of them is Hollow, as a reader of many lines takes
them, by handle or not; every Hollow line is counted. -/
def Dev.readLines (d : Dev) (addr n : Nat) (by_ : Option ActBy := none) : Delivered × Dev :=
  (List.range n).foldl (fun (acc : Delivered × Dev) i =>
    let (o, d) := acc.2.readLine { cleanRead (addr + 64 * i) with by_ := by_ }
    (⟨acc.1.data ++ o.data, acc.1.hollow || o.hollow⟩, d)) (⟨[], false⟩, d)

/-! ## The merge buffer (R119, R120) -/

/-- An entry's line is read, merged and written with a new check; onto a Hollow or unreadable line the result is Hollow. -/
def Dev.closeMerge (d : Dev) (m : MergeEnt) (rd : LineRead) : Dev :=
  let d := d.onCst fun c => { c with merge := c.merge.filter (fun x => x.line != m.line) }
  let addr := m.line * 64
  if !d.stackUp (stackOf addr) then d
  else
    let d := d.bitmapRead addr rd.sram
    let (failed, o, d) := if d.unwritten addr then
        let (failed, d) := d.parityMet addr rd.parity
        (failed, (⟨zeros 64, false⟩ : Delivered), d)
      else let (o, d) := d.stackRead { rd with addr := addr } false; (false, o, d)
    if failed || !d.stackUp (stackOf addr) then d
    else
      let d := d.count (F.cstCnt 6)
      let met := o.hollow || d.injected Pg.cstReg Er.cstReg_mergeHollow
      let d := d.when met fun d =>
        ((d.takeInjected Pg.cstReg Er.cstReg_mergeHollow).raise Pg.cstReg Er.cstReg_mergeHollow addr).count (F.cstCnt 7)
      (d.touch addr m.cls).putLine addr (mergeBytes o.data m.bytes) (met || m.hollow)

/-- A write narrower than a line joins the open entry of its line, or opens one; with 64 open the oldest closes first. -/
def Dev.narrow (d : Dev) (addr : Nat) (data : List Byte) (hollow : Bool) (cls : Nat) : Dev :=
  let d := d.when hollow (·.count (F.cstCnt 4))
  let bytes := (List.range data.length).map (fun i => (addr % 64 + i, data.getD i 0))
  if d.cst.merge.any (·.line == lineNo addr) then
    d.onCst fun c => { c with merge := c.merge.map (fun m =>
      if m.line = lineNo addr then { m with bytes := m.bytes ++ bytes, hollow := m.hollow || hollow } else m) }
  else
    let d := if d.cst.merge.length < 64 then d
      else match d.cst.merge with
        | [] => d
        | m :: _ => d.closeMerge m (cleanRead (m.line * 64))
    d.onCst fun c => { c with merge := c.merge ++ [⟨lineNo addr, bytes, hollow, cls⟩] }

/-! ## Accesses as commands -/

/-- A granule whose zero fill has not completed: any access to it waits (R118). -/
def Dev.mustWait (d : Dev) (addr : Nat) : Bool := d.cst.filling.any (·.granule == granuleOf addr)

/-- A line read and delivered; a poisoned one delivered to the host is counted (R440, R471). -/
def Dev.storeReadNow (d : Dev) (rd : LineRead) (host : Bool) : Dev :=
  let (o, d) := d.readLine rd
  (d.when (host && o.hollow) (·.count (F.hatCnt 3))).send (.line rd.addr o.data o.hollow)

/-- A write of a whole line or of part of one, by handle or not (R119, R124). -/
def Dev.storeWriteNow (d : Dev) (wr : LineWrite) : Dev :=
  let d := d.tableRead wr.by_ wr.sram
  let fault := match wr.by_ with
    | none => none
    | some by_ => d.handleFault by_ true
  match fault with
  | some bit => d.handleFail bit wr.addr
  | none =>
    let d := d.bitmapRead wr.addr wr.sram
    if wr.data.length = 64 ∧ wr.addr % 64 = 0 then d.writeLine wr.addr wr.data wr.hollow wr.cls wr.parity
    else d.narrow wr.addr wr.data wr.hollow wr.cls

def Dev.storeRead (d : Dev) (rd : LineRead) (host : Bool) : Dev :=
  if d.mustWait rd.addr then d.onCst fun c => { c with waiting := c.waiting ++ [.read rd host] } else d.storeReadNow rd host

def Dev.storeWrite (d : Dev) (wr : LineWrite) : Dev :=
  if d.mustWait wr.addr then d.onCst fun c => { c with waiting := c.waiting ++ [.write wr] } else d.storeWriteNow wr

/-- The buffer that a waiting access is to. -/
def Waiter.granule : Waiter → Nat
  | .read rd _ => granuleOf rd.addr
  | .write wr => granuleOf wr.addr
  | .pass _ i _ => i

/-- The owner that a waiting access acts for, where it is by handle. -/
def Waiter.owner : Waiter → Option Nat
  | .read rd _ => rd.by_.map (·.owner)
  | .write wr => wr.by_.map (·.owner)
  | .pass o _ _ => some o

/-- A buffer passes to another owner (R133). -/
def Dev.passTo (d : Dev) (o i target : Nat) : Dev :=
  let e := d.bufEnt i
  if e.alloc && e.owner == o && !e.noOwner && !e.shared then d.setBufEnt i { e with owner := target % 64 } else d

/-- What waited proceeds. -/
def Dev.proceed (d : Dev) (w : Waiter) : Dev :=
  match w with
  | .read rd host => d.storeReadNow rd host
  | .write wr => d.storeWriteNow wr
  | .pass o i target => d.passTo o i target

/-- Zeros are written to the lines that a tracker entry shows as not yet written; a line that stands Hollow stays Hollow (R113, R118). On a
stack that does not serve, they are dropped. -/
def Dev.zeroFill (d : Dev) (e : ZeroEnt) : Dev :=
  if !d.stackUp (stackOf (e.granule * 65536)) then d
  else (List.range 1024).foldl (fun (d : Dev) i =>
    let a := e.granule * 65536 + 64 * i
    if e.written.testBit i then d else d.putLine a (zeros 64) (d.lineHollow a)) d

/-- R118: the zero fill of an evicted granule completes; what waits for it proceeds in order. -/
def Dev.zeroFillDone (d : Dev) (g : Nat) : Dev :=
  let d := (d.cst.filling.filter (·.granule == g)).foldl (fun (d : Dev) e => d.zeroFill e) d
  let mine := d.cst.waiting.filter (fun w => w.granule == g)
  let d := d.onCst fun c => { c with
    filling := c.filling.filter (·.granule != g),
    waiting := c.waiting.filter (fun w => w.granule != g) }
  mine.foldl (fun d w => d.proceed w) d

/-! ## Patrol scrub (R121, R497) -/

/-- Lines scrubbed per tick: RATE, at most 16 at thermal level 1 and none above (R497). -/
def Dev.scrubRate (d : Dev) : Nat :=
  let rate := d.rd F.cstScrubCtrl_rate
  let level := d.rd F.pltThermStat_level
  if level = 0 then rate else if level = 1 then min rate 16 else 0

/-- One line scrubbed; a line that reads as zero without a stack access is skipped, as is a stack that does not serve. -/
def Dev.scrubLine (d : Dev) (faults : List LineRead) (line : Nat) : Dev :=
  let addr := line * 64
  if !d.stackUp (stackOf addr) || d.unwritten addr then d
  else
    let rd := (faults.find? (fun r => lineNo r.addr == line)).getD (cleanRead addr)
    (d.stackRead rd true).2

/-- A granule a scrub pass takes up: valid, in a serving stack. -/
def Dev.scrubStep (d : Dev) (faults : List LineRead) : Dev :=
  let p := d.rd F.cstScrubPtr
  let d := d.scrubLine faults p
  let d := d.wr F.cstScrubPtr ((p + 1) % 2 ^ 32)
  if p + 1 = 2 ^ 32 then d.wr F.cstScrubPass (d.rd F.cstScrubPass + 1) else d

def Dev.scrub (d : Dev) (faults : List LineRead) : Dev :=
  if d.flag F.cstScrubCtrl_en then (List.range d.scrubRate).foldl (fun d _ => d.scrubStep faults) d else d

/-! ## Training (R106–R109) -/

/-- A stack's training ends: READY, or FAILED and fenced; a stack that returns finds the content of its allocated buffers
lost (R107, R109). -/
def Dev.stackTrained (d : Dev) (n : Nat) (pass : Bool) (repaired : Nat) : Dev :=
  if pass then
    let d := (d.wr (F.cstStkTrain n) 2).wr (F.cstStkStat_repaired n) repaired
    let back := decide (d.unitAt (Pg.cstStk n) = .isolated)
    let lost := d.bpm.ents.filter (fun e => e.2.alloc && decide (e.1 / 2 ^ 20 = n))
    let d := d.when back (·.onCst fun c => { c with stale := lost.foldl (fun m e => Map.set 0 m e.1 (2 ^ 1024 - 1)) c.stale })
    let d := d.when back (·.onBpm fun b => { b with back := Map.put b.back n none })
    if back then d.setUnit (Pg.cstStk n) .quiesced else if d.unitAt (Pg.cstStk n) = .off then d.setUnit (Pg.cstStk n) .active else d
  else
    let d := (d.wr (F.cstStkTrain n) 3).raise (Pg.cstStk n) Er.cstStk_trainFail
    let d := d.setUnit (Pg.cstStk n) .fenced
    if n = 3 then d.fence1 0x300000 else d

/-! ## Meanings -/

/-- STORE_READ (R111). -/
def execStoreRead (rd : LineRead) (s : State) : Host.Outcome State Fault Refusal := run s (·.storeRead rd false)

/-- ZERO_FILL_DONE (R118). -/
def execZeroFillDone (granule : Nat) (s : State) : Host.Outcome State Fault Refusal := run s (·.zeroFillDone granule)

/-- MERGE_CLOSE (R119): the gather window of the line's entry has ended. -/
def execMergeClose (rd : LineRead) (s : State) : Host.Outcome State Fault Refusal :=
  run s fun d => match d.cst.merge.find? (·.line == lineNo rd.addr) with
    | some m => d.closeMerge m rd
    | none => d

/-- SCRUB_TICK (R121). -/
def execScrubTick (faults : List LineRead) (s : State) : Host.Outcome State Fault Refusal := run s (·.scrub faults)

end Sys2Proof.Machine
end

