-- ==== Sys2Proof/Machine/Cache.lean ====
section
/-! DEFINITION. The metadata cache (R142–R161): ten L1s, the shared L2, the prefetch, victim and merging buffers, the
poison hold, and maintenance by address. -/
namespace Sys2Proof.Machine
open Sys2Proof

/-! ## Windows (R145, R160) -/

/-- The enabled policy window that a granule lies in. -/
def Dev.windowOf (d : Dev) (addr : Nat) : Option Nat :=
  (List.range 8).find? fun w =>
    d.flag (F.seqMcWinCfg_en w) && decide (d.rd (F.seqMcWinBase w) ≤ granuleOf addr) &&
      decide (granuleOf addr ≤ d.rd (F.seqMcWinLimit w))

/-- Read-miss fills of the window stream: STREAM = 1 or the detector is tripped (R148). -/
def Dev.streaming (d : Dev) (w : Nat) : Bool := d.flag (F.seqMcWinCfg_stream w) || d.flag (F.seqMcWinStat_tripped w)

/-! ## L1 (R143, R147) -/

def Dev.l1Set (d : Dev) (agent line : Nat) : List (Option Nat) :=
  Map.get (List.replicate 8 none) d.mc.l1 (agent * 512 + line % 512)

def Dev.setL1 (d : Dev) (agent line : Nat) (ways : List (Option Nat)) : Dev :=
  d.onMc fun m => { m with l1 := Map.set (List.replicate 8 none) m.l1 (agent * 512 + line % 512) ways }

def Dev.l1Has (d : Dev) (agent line : Nat) : Bool := (d.l1Set agent line).contains (some line)

/-- The way that a set's 7 tree bits name: bit 0 is the root, bits 1–2 and 3–6 the levels below, 0 names the lower half
(log entry 20). -/
def plruVictim (bits : Nat) : Nat :=
  (List.range 3).foldl (fun n _ => 2 * n + 1 + b2n (bits.testBit n)) 0 - 7

/-- The tree pointed away from a way (R147). -/
def plruTouch (bits way : Nat) : Nat :=
  let n2 := (way + 7 - 1) / 2
  let n1 := (n2 - 1) / 2
  setBit (setBit (setBit bits n2 (decide ((way + 7) % 2 = 1))) n1 (decide (n2 % 2 = 1))) 0 (decide (n1 % 2 = 1))

def Dev.touchL1 (d : Dev) (agent line way : Nat) : Dev :=
  d.onMc fun m => { m with plru := Map.modify 0 m.plru (agent * 512 + line % 512) (plruTouch · way) }

/-! ## L2 (R142, R148) -/

def Dev.l2Set (d : Dev) (line : Nat) : List (Option L2Way) :=
  Map.get (List.replicate 16 none) d.mc.l2 (line % 32768)

def Dev.setL2 (d : Dev) (line : Nat) (ways : List (Option L2Way)) : Dev :=
  d.onMc fun m => { m with l2 := Map.set (List.replicate 16 none) m.l2 (line % 32768) ways }

/-- The way of a set that holds a line. -/
def wayOf (ways : List (Option L2Way)) (line : Nat) : Option Nat :=
  (List.range ways.length).find? fun i => match ways.getD i none with
    | some x => x.line == line
    | none => false

/-- The L2 copy of a line. -/
def Dev.l2Get (d : Dev) (line : Nat) : Option L2Way :=
  match wayOf (d.l2Set line) line with
  | some i => (d.l2Set line).getD i none
  | none => none

/-- The L2 copy of a line changed by `f`. -/
def Dev.onL2 (d : Dev) (line : Nat) (f : L2Way → L2Way) : Dev :=
  d.setL2 line ((d.l2Set line).map fun o => o.map fun x => if x.line = line then f x else x)

/-- Every L1 copy of a line but agent `except_`'s is invalidated (R143). -/
def Dev.invalL1 (d : Dev) (line : Nat) (except_ : Option Nat) : Dev :=
  let d := (List.range 10).foldl (fun d i =>
    if some i = except_ then d
    else if d.l1Has i line then d.setL1 i line ((d.l1Set i line).map fun o => if o = some line then none else o) else d) d
  d.onL2 line fun x => { x with present := match except_ with
    | some i => if x.present.testBit i then 2 ^ i else 0
    | none => 0 }

/-- The line leaves L2, its L1 copies first (R143). -/
def Dev.dropL2 (d : Dev) (line : Nat) : Dev :=
  let d := d.invalL1 line none
  d.setL2 line ((d.l2Set line).map fun o => match o with
    | some x => if x.line = line then none else some x
    | none => none)

/-- A line fills the way that an L1's tree names; the line that leaves loses the agent's presence bit (R143, R147). -/
def Dev.fillL1 (d : Dev) (agent line : Nat) : Dev :=
  let ways := d.l1Set agent line
  match (List.range 8).find? (fun i => ways.getD i none = some line) with
  | some w => d.touchL1 agent line w
  | none =>
    let w := plruVictim (Map.get 0 d.mc.plru (agent * 512 + line % 512))
    let d := match ways.getD w none with
      | some old => d.onL2 old fun x => { x with present := setBit x.present agent false }
      | none => d
    let d := (d.setL1 agent line (ways.set w (some line))).touchL1 agent line w
    d.onL2 line fun x => { x with present := setBit x.present agent true }

/-- Ages raised until a way that may be chosen has age 3 (R148); retired ways and empty ways keep out of it. -/
def ageUp : Nat → List (Option L2Way) → List (Option L2Way)
  | 0, ways => ways
  | n + 1, ways =>
    if ways.any (fun o => match o with
      | some x => x.age == 3
      | none => false) then ways
    else ageUp n (ways.map fun o => o.map fun x => { x with age := min 3 (x.age + 1) })

/-- The way of a line's set that a new line takes: an empty way that is not retired (log entry 20), else the
lowest-numbered way of age 3; with the set as the search leaves it. -/
def Dev.victimWay (d : Dev) (line : Nat) : Option Nat × List (Option L2Way) :=
  let gone := Map.get 0 d.mc.retired (line % 32768)
  let ways := d.l2Set line
  match (List.range 16).find? (fun i => !gone.testBit i && decide (ways.getD i none = none)) with
  | some i => (some i, ways)
  | none =>
    let ways := ageUp 3 ways
    ((List.range 16).find? (fun i => !gone.testBit i && (match ways.getD i none with
      | some x => x.age == 3
      | none => false)), ways)

/-- Every way of a line's set is retired: its lines are no longer cached (log entry 20). -/
def Dev.setDead (d : Dev) (line : Nat) : Bool := decide (Map.get 0 d.mc.retired (line % 32768) % 65536 = 65535)

/-- A line not in L2 put into it for work of class `cls`: a dirty victim moves to the victim buffer with that class, a clean one is dropped
(R144, R153). False where the victim buffer has no free entry, or no way may be chosen. -/
def Dev.install (d : Dev) (x : L2Way) (cls : Nat) : Bool × Dev :=
  let (w, ways) := d.victimWay x.line
  match w with
  | none => (false, d)
  | some i =>
    match ways.getD i none with
    | none => (true, d.setL2 x.line (ways.set i (some x)))
    | some old =>
      if old.dirty && decide (32 ≤ d.mc.victims.length) then (false, d.setL2 x.line ways)
      else
        let d := d.setL2 x.line ways
        let d := d.invalL1 old.line none
        let d := d.when old.dirty (·.onMc fun m => { m with victims := m.victims ++ [⟨old.line, old.data, old.poison, false, cls⟩] })
        (true, d.setL2 x.line ((d.l2Set x.line).set i (some x)))

/-- The newest victim-buffer entry of a line; an older one, whose write-back is issued, may stand before it (R153). -/
def Mc.victimOf (m : Mc) (line : Nat) : Option Victim := (m.victims.filter (·.line == line)).getLast?

/-! ## The merging buffer (R152) -/

/-- An entry drains to the store: a whole line, or as a narrow write (R119). -/
def Dev.drainWt (d : Dev) (e : WtEnt) : Dev :=
  let d := (d.onMc fun m => { m with merging := m.merging.filter (·.line != e.line) }).count (F.seqMcCnt 11)
  let offs := (e.bytes.map (·.1)).eraseDups
  if offs.length = 64 then d.writeLine (e.line * 64) (mergeBytes (zeros 64) e.bytes) e.poison e.cls
  else e.bytes.foldl (fun d b => d.narrow (e.line * 64 + b.1) [b.2] e.poison e.cls) d

/-- Entries drain in the order they were opened (R152): this line's entry and every older one. -/
def Dev.mergeBufDrain (d : Dev) (addr : Nat) : Dev :=
  match d.mc.merging.findIdx? (·.line == lineNo addr) with
  | some i => (d.mc.merging.take (i + 1)).foldl (fun d e => d.drainWt e) d
  | none => d

/-! ## Poisoned fills and the poison hold (R157, R158) -/

/-- The line address of the last DIRTY_UE or POISON_FILL, or a set index (R161). -/
def Dev.mcLast (d : Dev) (v : Nat) : Dev := d.put64 F.seqMcLastLo F.seqMcLastHi v

/-- A line goes to a cache agent; a poisoned one is a poisoned fill. -/
def Dev.toAgent (d : Dev) (agent addr : Nat) (data : List Byte) (poison : Bool) : Dev :=
  let poison := poison || d.injected Pg.seqMc Er.seqMc_poisonFill
  let d := d.takeInjected Pg.seqMc Er.seqMc_poisonFill
  let d := d.when poison fun d => ((d.raise Pg.seqMc Er.seqMc_poisonFill addr).count (F.seqMcCnt 12)).mcLast (addr / 64 * 64)
  d.send (.cacheData agent addr data poison)

/-- Every L2 line, set by set. -/
def Mc.lines (m : Mc) : List L2Way := (m.l2.map (·.2)).flatten.filterMap id

/-- Bytes enter the merging buffer for a store of class `cls`; with 32 entries open the oldest drains, and an entry whose line is whole drains
at once, the older ones first. -/
def Dev.enterWt (d : Dev) (line : Nat) (bs : List (Nat × Byte)) (cls : Nat) : Dev :=
  let d :=
    if d.mc.merging.any (·.line == line) then
      d.onMc fun m => { m with merging := m.merging.map fun e => if e.line = line then { e with bytes := e.bytes ++ bs } else e }
    else
      let d := if d.mc.merging.length < 32 then d else match d.mc.merging with
        | [] => d
        | e :: _ => d.drainWt e
      d.onMc fun m => { m with merging := m.merging ++ [⟨line, bs, false, cls⟩] }
  match d.mc.merging.find? (·.line == line) with
  | some e => if (e.bytes.map (·.1)).eraseDups.length = 64 then d.mergeBufDrain (line * 64) else d
  | none => d

/-- The bytes that an open entry of the merging buffer holds for a line (R152). -/
def Mc.gathered (m : Mc) (line : Nat) : List (Nat × Byte) :=
  match m.merging.find? (·.line == line) with
  | some e => e.bytes
  | none => []

/-- Store bytes as (offset, byte). -/
def storeBytesOf (addr : Nat) (data : List Byte) : List (Nat × Byte) :=
  (List.range data.length).map fun i => (addr % 64 + i, data.getD i 0)

/-- The bytes of a store make a whole line. -/
def wholeLine (bs : List (Nat × Byte)) : Bool := decide ((bs.map (·.1)).eraseDups.length = 64)

/-! ## Requests that wait (R145, R150, R153, R155) -/

/-- A request joins those that wait for a victim entry. -/
def Dev.stall (d : Dev) (f : FillReq) : Dev := d.onMc fun m => { m with stalled := m.stalled ++ [f] }
/-- A request joins those that wait for a fill. -/
def Dev.askFill (d : Dev) (f : FillReq) : Dev := d.onMc fun m => { m with fills := m.fills ++ [f] }

/-- An earlier request for the line still waits. -/
def Mc.waits (m : Mc) (line : Nat) : Bool := (m.fills ++ m.stalled).any (·.line == line)

/-- A request that comes after others for its line waits behind them. -/
def Dev.queueUp (d : Dev) (f : FillReq) : Dev := if d.mc.stalled.any (·.line == f.line) then d.stall f else d.askFill f

/-- A full-line store takes the place of the narrow stores of its line that still wait. -/
def Dev.supersede (d : Dev) (line : Nat) : Dev :=
  let drop (f : FillReq) : FillReq := if f.line = line ∧ f.store.isSome then { f with store := some [] } else f
  d.onMc fun m => { m with fills := m.fills.map drop, stalled := m.stalled.map drop }

/-- A store merged into a line of the victim buffer reinstalls it, dirty, at age 0: a write-back not yet issued is cancelled, an
issued one completes (R153). Where the eviction finds no victim entry free, the store waits; in a set with every way retired the line goes to
the store. -/
def Dev.reinstall (d : Dev) (v : Victim) (f : FillReq) : Dev :=
  let bs := f.store.getD []
  let (data, poison) := (mergeBytes v.data bs, v.poison && !wholeLine bs)
  let without := d.onMc fun m => { m with victims := m.victims.filter (fun x => x.line != v.line || x.issued) }
  if d.setDead v.line then without.writeLine (v.line * 64) data poison f.cls
  else
    let (ok, e) := without.install ⟨v.line, data, true, poison, 0, 0⟩ f.cls
    if ok then e else d.stall { f with data := some (v.data, v.poison) }

/-- One waiting request served, and the line as it then reads: from L2 or the victim buffer where the line has come there since, else from the
data read. A load is delivered and installed, or only delivered where maintenance reached the line (R155) or in UNCACHED mode; a store is
merged and leaves the line dirty (R150), with every other L1 copy invalidated first (R143). Where the eviction finds no victim entry free,
the request waits for one (R153); a request with no data asks for a fill. -/
def Dev.finishFill (d : Dev) (f : FillReq) : (List Byte × Bool) × Dev :=
  let addr := f.line * 64
  let bs := f.store.getD []
  let load := f.store.isNone
  let merged (data : List Byte) (hollow : Bool) : List Byte × Bool := (mergeBytes data bs, hollow && !wholeLine bs)
  if f.store = some [] then (f.data.getD ([], false), d)
  else
    let d := d.when (!load) (·.invalL1 f.line (some f.agent))
    match d.l2Get f.line, d.mc.victimOf f.line with
    | some x, _ =>
      let now := merged x.data x.poison
      (now, if load then (d.when f.keep (·.fillL1 f.agent f.line)).toAgent f.agent addr x.data x.poison
        else d.onL2 f.line fun x => { x with data := now.1, poison := now.2, dirty := true })
    | none, some v => (merged v.data v.poison, if load then d.toAgent f.agent addr v.data v.poison else d.reinstall v f)
    | none, none => match f.data with
      | none => (([], false), d.askFill f)
      | some r =>
        let data := mergeBytes r.1 (d.mc.gathered f.line)
        let now := merged data r.2
        let given (d : Dev) : Dev := if load then d.toAgent f.agent addr data r.2 else d
        if !f.keep || d.mc.uncached || d.setDead f.line then
          let d := (given d).when (!f.keep) (·.count (F.seqMcCnt 6))
          (now, if load then d else d.writeLine addr now.1 now.2 f.cls)
        else
          let (ok, d) := d.install ⟨f.line, now.1, !load, now.2, if f.stream then 3 else 1, 0⟩ f.cls
          (now, if !ok then d.stall f else if load then given (d.fillL1 f.agent f.line) else d)

/-- An uncached access goes to the store (R145, R158); bytes gathered for a line it reads are merged onto it (R152). -/
def Dev.uncachedNow (d : Dev) (acc : CacheAcc) (isWrite : Bool) : Dev :=
  if isWrite then
    if acc.data.length = 64 ∧ acc.addr % 64 = 0 then d.writeLine acc.addr acc.data false acc.cls
    else d.narrow acc.addr acc.data false acc.cls
  else
    let (o, d) := d.readLine (cleanRead acc.addr)
    d.toAgent acc.agent acc.addr (mergeBytes o.data (d.mc.gathered (lineNo acc.addr))) o.hollow

/-- An agent has accesses that wait. -/
def Mc.busy (m : Mc) (agent : Nat) : Bool := (m.fills ++ m.stalled).any (·.agent == agent) || m.later.any (·.1.agent == agent)

/-- An access that is not cached, after every earlier access by its agent (R145). -/
def Dev.uncached (d : Dev) (acc : CacheAcc) (isWrite : Bool) : Dev :=
  if d.mc.busy acc.agent then d.onMc fun m => { m with later := m.later ++ [(acc, isWrite)] } else d.uncachedNow acc isWrite

/-- The uncached accesses whose agents have none in wait before them. -/
def Dev.laterGo (d : Dev) : List (CacheAcc × Bool) → Dev
  | [] => d
  | x :: xs => (d.uncached x.1 x.2).laterGo xs
def Dev.laterDue (d : Dev) : Dev := (d.onMc fun m => { m with later := [] }).laterGo d.mc.later

/-- The requests that wait for a victim entry are tried again in their order, and what waits on them goes on (R145, R153). -/
def Dev.resumeGo (d : Dev) : List FillReq → Dev
  | [] => d
  | f :: fs => (if d.mc.stalled.any (·.line == f.line) then d.stall f else (d.finishFill f).2).resumeGo fs
def Dev.resume (d : Dev) : Dev := ((d.onMc fun m => { m with stalled := [] }).resumeGo d.mc.stalled).laterDue

/-- A line enters the poison hold at an access of class `cls`; when the sixteenth entry fills, every other dirty line is written back, the
merging buffer drains, what waited for a victim entry goes to the store, and UNCACHED mode lasts until chip reset. -/
def Dev.holdLine (d : Dev) (line cls : Nat) : Dev :=
  let d := (d.dropL2 line).onMc fun m => { m with
    hold := m.hold ++ [line],
    victims := m.victims.filter (·.line != line),
    merging := m.merging.filter (·.line != line) }
  let d := d.mcLast (line * 64) |>.raise Pg.seqMc Er.seqMc_dirtyUe (line * 64)
  if d.mc.hold.length = 16 ∧ !d.mc.uncached then
    let d := d.raise Pg.seqMc Er.seqMc_holdFull
    let d := d.mc.victims.foldl (fun d v => (d.writeLine (v.line * 64) v.data v.poison v.cls).count (F.seqMcCnt 8)) d
    let d := (d.mc.lines.filter (·.dirty)).foldl (fun d x => (d.writeLine (x.line * 64) x.data x.poison cls).count (F.seqMcCnt 8)) d
    let d := d.mc.merging.foldl (fun d e => d.drainWt e) d
    (d.onMc fun m => { m with uncached := true, l1 := [], l2 := [], side := [], prefetch := [], victims := [] }).resume
  else d.resume

/-! ## Loads -/

/-- Prefetches after a demand read miss (R149). -/
def Dev.startPrefetch (d : Dev) (w line : Nat) : Dev :=
  (List.range (d.rd (F.seqMcWinCfg_pfDepth w))).foldl (fun d i =>
    let l := line + 1 + i
    if d.windowOf (l * 64) = some w && (d.l2Get l).isNone && !d.mc.side.any (·.1 == l) &&
        !d.mc.victims.any (·.line == l) && !d.mc.prefetch.any (·.1 == l) then
      (d.onMc fun m => { m with prefetch := m.prefetch ++ [(l, true)] }).count (F.seqMcCnt 3)
    else d) d

/-- A side-buffer line moves into L2 at the age of a fill, or at age 3 in a streaming window (R149); with no victim entry free it
stays in the side buffer. -/
def Dev.sideToL2 (d : Dev) (w line : Nat) (data : List Byte) (poison : Bool) (cls : Nat) : Bool × Dev :=
  let (ok, d) := d.install ⟨line, data, false, poison, if d.streaming w then 3 else 1, 0⟩ cls
  (ok, d.when ok (·.onMc fun m => { m with side := m.side.filter (·.1 != line) }))

/-- A demand read miss: a fill is asked for, behind the earlier requests of the line, and prefetches start (R148, R149). -/
def Dev.readMiss (d : Dev) (w : Nat) (acc : CacheAcc) : Dev :=
  let line := lineNo acc.addr
  let st := d.streaming w
  let d := (d.count (F.seqMcCnt 1)).when st (·.count (F.seqMcCnt 2))
  (d.queueUp ⟨line, acc.agent, st, acc.cls, none, true, none⟩).startPrefetch w line

/-- A cached load (R143, R147–R149, R153). -/
def Dev.cachedRead (d : Dev) (w : Nat) (acc : CacheAcc) : Dev :=
  let line := lineNo acc.addr
  let inL1 := d.l1Has acc.agent line
  let d := d.count (F.seqMcL1Cnt acc.agent (if inL1 then 0 else 1))
  if (d.l2Get line).isNone && d.mc.waits line then d.readMiss w acc
  else match d.l2Get line, d.mc.side.find? (·.1 == line) with
  | some x, _ =>
    let d := d.when (!inL1) fun d => (d.count (F.seqMcCnt 0)).onL2 line fun x => { x with age := 0 }
    (d.fillL1 acc.agent line).toAgent acc.agent acc.addr x.data x.poison
  | none, some s =>
    let (ok, d) := (d.count (F.seqMcCnt 4)).sideToL2 w line s.2.1 s.2.2 acc.cls
    (d.when ok (·.fillL1 acc.agent line)).toAgent acc.agent acc.addr s.2.1 s.2.2
  | none, none =>
    match d.mc.victimOf line with
    | some v => (d.count (F.seqMcCnt 7)).toAgent acc.agent acc.addr v.data v.poison
    | none => d.readMiss w acc

/-- What the check bits show, or the fault that PG_ERR_INJ put there (R41). -/
def Dev.shownFault (d : Dev) (f : CacheFault) : CacheFault :=
  if d.injected Pg.seqMc Er.seqMc_tagUe then .l2TagBoth else if d.injected Pg.seqMc Er.seqMc_dirtyUe then .l2Double else f

/-- R156: what the check bits and tags show is handled before the access is made. -/
def Dev.cacheFault (d : Dev) (acc : CacheAcc) : Dev :=
  let line := lineNo acc.addr
  let fault := d.shownFault acc.fault
  let d := (d.takeInjected Pg.seqMc Er.seqMc_tagUe).takeInjected Pg.seqMc Er.seqMc_dirtyUe
  match fault with
  | .none => d
  | .single => (d.raise Pg.seqMc Er.seqMc_ce acc.addr).when (d.l1Has acc.agent line) (·.count (F.seqMcL1Cnt acc.agent 2))
  | .l1Double =>
    if d.l1Has acc.agent line then
      ((d.setL1 acc.agent line ((d.l1Set acc.agent line).map fun o => if o = some line then none else o)).raise
        Pg.seqMc Er.seqMc_l1Due acc.addr).count (F.seqMcL1Cnt acc.agent 3)
    else d
  | .l2Double =>
    match d.l2Get line with
    | some x => if x.dirty then d.holdLine line acc.cls else (d.dropL2 line).raise Pg.seqMc Er.seqMc_l2DueClean acc.addr
    | none => d
  | .bufDouble =>
    if d.mc.victims.any (·.line == line) || d.mc.merging.any (·.line == line) then d.holdLine line acc.cls else d
  | .l1Tag =>
    let gone := (d.l1Set acc.agent line).filterMap id
    let d := gone.foldl (fun d l => d.onL2 l fun x => { x with present := setBit x.present acc.agent false }) d
    (d.setL1 acc.agent line (List.replicate 8 none)).raise Pg.seqMc Er.seqMc_tagPar acc.addr
  | .l2TagOne => d.raise Pg.seqMc Er.seqMc_tagPar acc.addr
  | .l2TagBoth =>
    match wayOf (d.l2Set line) line with
    | some i =>
      let d := d.dropL2 line
      let d := d.onMc fun m => { m with retired := Map.modify 0 m.retired (line % 32768) (setBit · i true) }
      (d.mcLast (line % 32768)).raise Pg.seqMc Er.seqMc_tagUe acc.addr
    | none => d

/-- The victim-buffer entries of a line are written back at once. -/
def Dev.flushVictim (d : Dev) (line : Nat) : Dev :=
  let vs := d.mc.victims.filter (·.line == line)
  let d := vs.foldl (fun (d : Dev) v => (d.writeLine (line * 64) v.data v.poison v.cls).count (F.seqMcCnt 8)) d
  d.onMc fun m => { m with victims := m.victims.filter (·.line != line) }

/-- A load by a cache agent. -/
def Dev.cacheRead (d : Dev) (acc : CacheAcc) : Dev :=
  let d := d.cacheFault acc
  let line := lineNo acc.addr
  if d.mc.hold.contains line then (d.toAgent acc.agent acc.addr (leBytes 64 (d.free 2)) true).stepFree
  else match d.windowOf acc.addr with
    | none => d.uncached acc false
    | some w => if d.mc.uncached || d.setDead line then (d.flushVictim line).uncached acc false else d.cachedRead w acc

/-! ## Stores (R150, R151, R153, R157) -/

/-- A store goes on with the window's run: a full line, one above the previous one (R151). -/
def Dev.inRun (d : Dev) (w line : Nat) (full : Bool) : Bool :=
  full && decide (0 < Map.get 0 d.mc.seqCount w) && decide (Map.get 0 d.mc.lastLine w + 1 = line)

/-- The detector after a store (R151): the window's count, whether it is tripped, and whether it trips now; a store that breaks a tripped run
and reaches a SEQ_LIMIT of 1 trips it anew. -/
def Dev.detect (d : Dev) (w line : Nat) (full : Bool) : Dev :=
  let inRun := d.inRun w line full
  let n := if full then (if inRun then Map.get 0 d.mc.seqCount w + 1 else 1) else 0
  let d := d.onMc fun m => { m with seqCount := Map.set 0 m.seqCount w n, lastLine := Map.set 0 m.lastLine w line }
  let limit := d.rd (F.seqMcWinCfg_seqLimit w)
  let was := d.flag (F.seqMcWinStat_tripped w)
  if limit = 0 then d.wr (F.seqMcWinStat_tripped w) 0
  else if was && inRun then d
  else if n = limit then (d.wr (F.seqMcWinStat_tripped w) 1).count (F.seqMcCnt 9)
  else d.wr (F.seqMcWinStat_tripped w) 0

/-- A full-line store allocated without a store read; with no victim entry free it waits for one (R150, R153). -/
def Dev.allocate (d : Dev) (agent line : Nat) (data : List Byte) (cls age : Nat) : Dev :=
  let (ok, d) := d.install ⟨line, data, true, false, age, 0⟩ cls
  if ok then d else d.stall ⟨line, agent, false, cls, some (storeBytesOf 0 data), true, some (zeros 64, false)⟩

/-- A store that hits its agent's own L1 line points the set's tree away from the way (R147). -/
def Dev.touchOwn (d : Dev) (agent line : Nat) : Dev :=
  match (List.range 8).find? (fun i => (d.l1Set agent line).getD i none = some line) with
  | some w => d.touchL1 agent line w
  | none => d

/-- A cached store under its window's policy. -/
def Dev.cachedWrite (d : Dev) (w : Nat) (acc : CacheAcc) : Dev :=
  let line := lineNo acc.addr
  let full := decide (acc.data.length = 64) && decide (acc.addr % 64 = 0)
  let back := !d.flag (F.seqMcWinCfg_policy w)
  let bs := storeBytesOf acc.addr acc.data
  let f : FillReq := ⟨line, acc.agent, false, acc.cls, some bs, true, none⟩
  let skip := d.flag (F.seqMcWinStat_tripped w) && d.inRun w line full && decide (d.rd (F.seqMcWinCfg_seqLimit w) ≠ 0)
  let d := ((d.when back (·.detect w line full)).touchOwn acc.agent line).invalL1 line (some acc.agent)
  let d := d.onMc fun m => { m with prefetch := m.prefetch.filter (·.1 != line) }
  let d := d.when full (·.supersede line)
  if back && !full && (d.l2Get line).isNone && d.mc.waits line then (d.count (F.seqMcCnt 1)).queueUp f
  else
    let inL2 := (d.l2Get line).isSome
    let d := match inL2, d.mc.side.find? (·.1 == line) with
      | false, some s => ((d.count (F.seqMcCnt 4)).sideToL2 w line s.2.1 s.2.2 acc.cls).2
      | _, _ => d
    let d := d.onMc fun m => { m with side := m.side.filter (·.1 != line) }
    if (d.l2Get line).isSome then
      let d := (d.when inL2 (·.count (F.seqMcCnt 0))).onL2 line fun x => { x with
        data := mergeBytes x.data bs, dirty := x.dirty || back, poison := x.poison && !full, age := if inL2 then 0 else x.age }
      d.when (!back) (·.enterWt line bs acc.cls)
    else match d.mc.victimOf line with
      | some v => (d.count (F.seqMcCnt 7)).reinstall v f
      | none =>
        if !back then (d.count (F.seqMcCnt 1)).enterWt line bs acc.cls
        else if skip then (d.count (F.seqMcCnt 10)).uncached acc true
        else if full then (d.count (F.seqMcCnt 1)).allocate acc.agent line (padTo 64 acc.data) acc.cls 1
        else (d.count (F.seqMcCnt 1)).askFill f

/-- A store to a held line (R158): a full line frees the entry and reinstalls the line as dirty, or goes to the store where the line is not
cached; a narrower one is dropped and counted. Either counts for its window's detector (R151). -/
def Dev.heldWrite (d : Dev) (acc : CacheAcc) : Dev :=
  let line := lineNo acc.addr
  let full := decide (acc.data.length = 64) && decide (acc.addr % 64 = 0)
  let d := match d.windowOf acc.addr with
    | some w => d.when (!d.mc.uncached && !d.flag (F.seqMcWinCfg_policy w)) (·.detect w line full)
    | none => d
  if full then
    let d := d.onMc fun m => { m with hold := m.hold.filter (· != line) }
    if d.mc.uncached || (d.windowOf acc.addr).isNone || d.setDead line then d.uncached acc true
    else d.allocate acc.agent line (padTo 64 acc.data) acc.cls 0
  else d.countIgnored Pg.seqMc acc.addr

/-- A store by a cache agent. -/
def Dev.cacheWrite (d : Dev) (acc : CacheAcc) : Dev :=
  let d := d.cacheFault acc
  let line := lineNo acc.addr
  if d.mc.hold.contains line then d.heldWrite acc
  else match d.windowOf acc.addr with
    | none => d.uncached acc true
    | some w => if d.mc.uncached || d.setDead line then (d.flushVictim line).uncached acc true else (d.cachedWrite w acc).resume

/-! ## Fills, prefetches and write-backs -/

/-- A fill from the store arrives: the requests that wait for it are served in their order. -/
def Dev.fillDone (d : Dev) (rd : LineRead) : Dev :=
  let line := lineNo rd.addr
  let mine := d.mc.fills.filter (·.line == line)
  if mine.isEmpty then d
  else
    let (o, d) := d.readLine { rd with by_ := none }
    let d := d.onMc fun m => { m with fills := m.fills.filter (·.line != line) }
    (mine.foldl (fun (acc : (List Byte × Bool) × Dev) f =>
      if acc.2.mc.stalled.any (·.line == line) then (acc.1, acc.2.stall f)
      else acc.2.finishFill { f with data := some acc.1 }) ((o.data, o.hollow), d)).2.laterDue

/-- A prefetched line arrives in the side buffer of 64 lines; the oldest unused line gives way (R149). -/
def Dev.prefetchArrival (d : Dev) (rd : LineRead) : Dev :=
  let line := lineNo rd.addr
  match d.mc.prefetch.find? (·.1 == line) with
  | none => d
  | some p =>
    let d := d.onMc fun m => { m with prefetch := m.prefetch.filter (·.1 != line) }
    if !p.2 || d.mc.uncached || (d.l2Get line).isSome then d
    else
      let (o, d) := d.readLine { rd with by_ := none }
      let tooMany := decide (64 ≤ d.mc.side.length)
      let d := d.when tooMany fun d => (d.onMc fun m => { m with side := m.side.drop 1 }).count (F.seqMcCnt 5)
      d.onMc fun m => { m with side := m.side ++ [(line, mergeBytes o.data (m.gathered line), o.hollow)] }

/-- An operation ends once every write-back it caused is acknowledged (R154, R161). -/
def Dev.maintProgress (d : Dev) : Dev :=
  let waits (d : Dev) (op : Nat) : Bool := d.mc.awaited.any (·.1 == op)
  let d := (d.mc.draining.filter (fun w => !waits d w)).foldl (fun (d : Dev) w => d.wr (F.seqMcWinStat_draining w) 0) d
  let d := d.onMc fun m => { m with draining := m.draining.filter (fun w => m.awaited.any (·.1 == w)) }
  if waits d 8 then d else d.wr F.seqMcMaintStat_busy 0

/-- CST acknowledges a write-back (R153): the victim's data stands in the store and its entry frees; fills that waited for
an entry are installed. A line whose store has still to be written stays awaited. -/
def Dev.writebackAck (d : Dev) (addr : Nat) : Dev :=
  let line := lineNo addr
  let d := match d.mc.victims.find? (·.line == line) with
    | some v => ((d.writeLine (line * 64) v.data v.poison v.cls).count (F.seqMcCnt 8)).onMc fun m => { m with victims := m.victims.erase v }
    | none => d
  let owed := (d.mc.fills ++ d.mc.stalled).any fun f => f.line == line && !f.keep && f.store.isSome && f.store != some []
  (d.when (!owed) (·.onMc fun m => { m with awaited := m.awaited.filter (·.2 != line) })).resume.maintProgress

/-! ## Writes that do not come from the cache, and frees (R146) -/

/-- The cache's part of a write that CST forwards. -/
def Dev.forward (d : Dev) (wr : LineWrite) : Dev :=
  if (d.windowOf wr.addr).isNone then d
  else
    let line := lineNo wr.addr
    let full := decide (wr.data.length = 64) && decide (wr.addr % 64 = 0)
    let bs := storeBytesOf wr.addr wr.data
    let d := d.onL2 line fun x => { x with data := mergeBytes x.data bs, poison := wr.hollow || (x.poison && !full) }
    let d := d.invalL1 line none
    d.onMc fun m => { m with
      side := m.side.filter (·.1 != line), prefetch := m.prefetch.filter (·.1 != line),
      victims := m.victims.map fun v =>
        if v.line = line then { v with data := mergeBytes v.data bs, poison := wr.hollow || (v.poison && !full) } else v,
      stalled := m.stalled.map fun f =>
        if f.line = line then { f with data := f.data.map fun r => (mergeBytes r.1 bs, wr.hollow || (r.2 && !full)) } else f }

/-- The cache's part of a write that passes its handle check; the buffer table is read once (R124, R146). -/
def Dev.forwardBy (d : Dev) (wr : LineWrite) : LineWrite × Dev :=
  let d := d.tableRead wr.by_ wr.sram
  let wr := { wr with sram := { wr.sram with tableCe := false, tableUe := false } }
  (wr, if (wr.by_.bind (d.handleFault · true)).isSome then d else d.forward wr)

/-- A write that does not come from the cache: the cache's copies first, then the store; one that fails its handle check changes
neither (R124, R146). -/
def Dev.writeThrough (d : Dev) (wr : LineWrite) : Dev := let (wr, d) := d.forwardBy wr; d.storeWrite wr
/-- The same where the writer is Fradra's own and a zero fill under way makes no difference (R118). -/
def Dev.writeNow (d : Dev) (wr : LineWrite) : Dev := let (wr, d) := d.forwardBy wr; d.storeWriteNow wr

/-- Non-cache writes of lines, by handle or not. -/
def Dev.writeFwd (d : Dev) (addr : Nat) (data : List Byte) (hollow : Bool) (cls : Nat) (by_ : Option ActBy := none) : Dev :=
  (List.range (ceilDiv data.length 64)).foldl
    (fun d i => d.writeNow ⟨addr + 64 * i, padTo 64 (slice data (64 * i) 64), hollow, cls, 0, by_, .good⟩) d

/-- FREE of a granule drops every cached copy of its lines, dirty or not (R146, step 1 of R136). -/
def Dev.cacheDropGranule (d : Dev) (g : Nat) : Dev :=
  let mine (l : Nat) : Bool := l / 1024 == g
  Dev.resume <| d.onMc fun m => { m with
    l1 := (m.l1.map fun e => (e.1, e.2.map fun o => match o with
      | some l => if mine l then none else some l
      | none => none)).filter (fun e => !decide (e.2 = List.replicate 8 none)),
    l2 := (m.l2.map fun e => (e.1, e.2.map fun o => match o with
      | some x => if mine x.line then none else some x
      | none => none)).filter (fun e => !decide (e.2 = List.replicate 16 none)),
    side := m.side.filter (fun x => !mine x.1),
    victims := m.victims.filter (fun v => !mine v.line),
    merging := m.merging.filter (fun e => !mine e.line),
    hold := m.hold.filter (fun l => !mine l) }

/-! ## Maintenance (R154, R155) -/

/-- The line range of one operation. -/
def inRange (first count line : Nat) : Bool := decide (first ≤ line) && decide (line < first + count)

/-- What waits in a range when operation `op` reaches it is ordered before it (R154, R155): a prefetch in flight is dropped; a fill in flight
completes to its requester and is not installed; requests that have their data are served without an install. A store among them is
written, its acknowledgement awaited, or, at a DISCARD, dropped. -/
def Dev.mcReach (d : Dev) (op first count : Nat) (discard : Bool) : Dev :=
  let mine (f : FillReq) : Bool := inRange first count f.line
  let met (f : FillReq) : FillReq := { f with keep := false, store := if discard then f.store.map (fun _ => []) else f.store }
  let held := d.mc.stalled.filter mine
  let owed := ((d.mc.fills ++ d.mc.stalled).filter fun f => mine f && f.store.isSome && f.store != some [] && !discard).map fun f => (op, f.line)
  let d := d.onMc fun m => { m with
    prefetch := m.prefetch.filter (fun x => !inRange first count x.1),
    fills := m.fills.map fun f => if mine f then met f else f,
    stalled := m.stalled.filter (fun f => !mine f),
    awaited := m.awaited ++ owed }
  held.foldl (fun (d : Dev) f => (d.finishFill (met f)).2) d

/-- CLEAN over a range for operation `op` at class `cls`: dirty lines and merging entries are written, victims issued, and the
acknowledgements awaited. -/
def Dev.mcCleanRange (d : Dev) (op first count cls : Nat) : Dev :=
  let await (d : Dev) (line : Nat) : Dev := d.onMc fun m => { m with awaited := m.awaited ++ [(op, line)] }
  let dirty := d.mc.lines.filter (fun x => x.dirty && inRange first count x.line)
  let d := dirty.foldl (fun d x =>
    await (((d.writeLine (x.line * 64) x.data x.poison cls).onL2 x.line fun y => { y with dirty := false }).count (F.seqMcCnt 8)) x.line) d
  let vs := d.mc.victims.filter (fun v => inRange first count v.line)
  let d := vs.foldl (fun d v => await d v.line) d
  let d := d.onMc fun m => { m with victims := m.victims.map fun v => if inRange first count v.line then { v with issued := true } else v }
  let es := d.mc.merging.filter (fun e => inRange first count e.line)
  es.foldl (fun d e => await (d.mergeBufDrain (e.line * 64)) e.line) d

/-- Every copy in a range is invalidated. -/
def Dev.mcDropRange (d : Dev) (first count : Nat) : Dev :=
  let gone := d.mc.lines.filter (fun x => inRange first count x.line)
  let d := gone.foldl (fun d x => d.dropL2 x.line) d
  d.onMc fun m => { m with side := m.side.filter (fun x => !inRange first count x.1) }

/-- INV over a range: CLEAN, then every copy is invalidated. -/
def Dev.mcInvRange (d : Dev) (op first count cls : Nat) : Dev :=
  ((d.mcReach op first count false).mcCleanRange op first count cls).mcDropRange first count

/-- DISCARD over a range: every copy goes without a write-back, victim, merging and held entries too; a write-back already
issued completes. -/
def Dev.mcDiscardRange (d : Dev) (first count : Nat) : Dev :=
  let d := (d.mcReach 8 first count true).mcDropRange first count
  d.onMc fun m => { m with
    victims := m.victims.filter (fun v => !inRange first count v.line || v.issued),
    merging := m.merging.filter (fun e => !inRange first count e.line),
    hold := m.hold.filter (fun l => !inRange first count l) }

/-- One maintenance operation; one given while another runs, or with a COUNT outside its range, is ignored and counted. DESIGN CHOICE: its
write-backs are class 2, since R154 names no class (log entry 90). -/
def Dev.maintain (d : Dev) (op addr count : Nat) : Dev :=
  let first := lineNo addr
  if d.flag F.seqMcMaintStat_busy || decide (op = 0) || decide (count < 1) || decide (1048576 < count) then
    d.countIgnored Pg.seqMc 0x20810C
  else
    let d := (d.wr F.seqMcMaintStat_busy 1).wr F.seqMcMaintStat_done count
    let d := d.countN (F.seqMcCnt 13) count
    let d := match op with
      | 1 => (d.mcReach 8 first count false).mcCleanRange 8 first count 2
      | 2 => d.mcInvRange 8 first count 2
      | _ => d.mcDiscardRange first count
    d.resume.maintProgress

/-- A window is disabled by a commit: its lines are cleaned and invalidated at class 3, DRAINING until that ends (R161). -/
def Dev.drainWindow (d : Dev) (w base limit : Nat) : Dev :=
  let d := d.wr (F.seqMcWinStat_draining w) 1
  let d := d.onMc fun m => { m with draining := m.draining ++ [w] }
  (d.mcInvRange w (base * 1024) ((limit + 1 - base) * 1024) 3).resume.maintProgress

/-- Write-backs queued before this tick have been issued (R153, log entry 21). -/
def Dev.issueWritebacks (d : Dev) : Dev :=
  d.onMc fun m => { m with victims := m.victims.map fun v => { v with issued := true } }

/-! ## Meanings -/

/-- CACHE_READ (R143). -/
def execCacheRead (acc : CacheAcc) (s : State) : Host.Outcome State Fault Refusal := run s (·.cacheRead acc)

/-- CACHE_WRITE (R150). -/
def execCacheWrite (acc : CacheAcc) (s : State) : Host.Outcome State Fault Refusal :=
  run s (·.cacheWrite { acc with data := acc.data.take (64 - acc.addr % 64) })

/-- CACHE_FILL_DONE (R155). -/
def execCacheFillDone (rd : LineRead) (s : State) : Host.Outcome State Fault Refusal := run s (·.fillDone rd)

/-- PREFETCH_ARRIVAL (R149). -/
def execPrefetchArrival (rd : LineRead) (s : State) : Host.Outcome State Fault Refusal := run s (·.prefetchArrival rd)

/-- WRITEBACK_ACK (R153). -/
def execWritebackAck (addr : Nat) (s : State) : Host.Outcome State Fault Refusal := run s (·.writebackAck addr)

/-- MERGE_BUF_DRAIN (R152). -/
def execMergeBufDrain (addr : Nat) (s : State) : Host.Outcome State Fault Refusal := run s (·.mergeBufDrain addr)

/-- FORWARDED_WRITE (R146): the cache's copies first, and the write proceeds to the store. -/
def execForwardedWrite (wr : LineWrite) (s : State) : Host.Outcome State Fault Refusal :=
  run s (·.writeThrough { wr with data := wr.data.take (64 - wr.addr % 64) })

/-- STORE_WRITE (R115): a full line, forwarded to the cache where a window holds it (R146). -/
def execStoreWrite (wr : LineWrite) (s : State) : Host.Outcome State Fault Refusal :=
  run s (·.writeThrough { wr with addr := lineNo wr.addr * 64, data := padTo 64 wr.data })

/-- NARROW_WRITE (R119): the bytes that lie in the addressed line, forwarded to the cache where a window holds it (R146). -/
def execNarrowWrite (wr : LineWrite) (s : State) : Host.Outcome State Fault Refusal :=
  run s (·.writeThrough { wr with data := wr.data.take (min 63 (64 - wr.addr % 64)) })

/-- MC_CLEAN (R154). -/
def execMcClean (addr count : Nat) (s : State) : Host.Outcome State Fault Refusal :=
  run s fun d => d.asWrite Pg.seqMc (·.maintain 1 addr count)

/-- MC_INV (R154). -/
def execMcInv (addr count : Nat) (s : State) : Host.Outcome State Fault Refusal :=
  run s fun d => d.asWrite Pg.seqMc (·.maintain 2 addr count)

/-- MC_DISCARD (R154). -/
def execMcDiscard (addr count : Nat) (s : State) : Host.Outcome State Fault Refusal :=
  run s fun d => d.asWrite Pg.seqMc (·.maintain 3 addr count)

end Sys2Proof.Machine
end

