-- ==== Sys2Proof/Machine/Credits.lean ====
section
/-! DEFINITION. Credit accounts of the frame links (R71–R73) and the records of streams, which the buffer pools and the
Pod receiver both act on. -/
namespace Sys2Proof.Machine
open Sys2Proof

def Dev.stream (d : Dev) (s : Nat) : Stream := Map.get Stream.reset d.ing.streams s
def Dev.onStream (d : Dev) (s : Nat) (f : Stream → Stream) : Dev :=
  d.onIng fun i => { i with streams := Map.modify Stream.reset i.streams s f }

/-- The path of a stream: 0 is path A, 1 is path B. -/
def Stream.path (st : Stream) (p : Nat) : Path := if p = 0 then st.a else st.b
def Stream.setPath (st : Stream) (p : Nat) (x : Path) : Stream := if p = 0 then { st with a := x } else { st with b := x }
def Dev.path (d : Dev) (s p : Nat) : Path := (d.stream s).path p
def Dev.onPath (d : Dev) (s p : Nat) (f : Path → Path) : Dev := d.onStream s fun st => st.setPath p (f (st.path p))

def pathCode : PathSt → Nat
  | .down => 0
  | .active => 1
  | .degraded => 2

/-- A path state as ING_STR_STAT shows it (R77). -/
def Dev.setPathSt (d : Dev) (s p : Nat) (st : PathSt) : Dev :=
  (d.onPath s p fun x => { x with st := st }).wr (if p = 0 then F.ingStrStat_pathA s else F.ingStrStat_pathB s) (pathCode st)

/-- A stream is enabled while ENABLE of its page reads 1: while its lane group is not OFF (R52). -/
def Dev.streamEnabled (d : Dev) (s : Nat) : Bool := decide (d.unitAt (Pg.ingStr s) ≠ .off)

/-- An enabled stream serves while its lane group is not isolated or fenced (R51, R52). -/
def Dev.streamOn (d : Dev) (s : Nat) : Bool :=
  match d.unitAt (Pg.ingStr s) with
  | .active | .quiescing | .quiesced => true
  | _ => false

/-- Credit issue is stopped: the chip safe state (R493), a group that is quiescing (R51), or ING fenced (R108). -/
def Dev.creditStopped (d : Dev) (s : Nat) : Bool :=
  d.plat.safe || decide (d.unitAt (Pg.ingStr s) ≠ .active) || d.closed (Pg.ingStr s) || d.regionFenced 3

/-- The stream's pool is at PRESSURE (R73). -/
def Dev.underPressure (d : Dev) (s : Nat) : Bool := d.flag (F.bpmPoolStat_pressure (d.rd (F.ingStrFlow_pool s)))

/-- A CREDIT Pod of a path: its count, the newest frame completed, epoch, width, first lane and path state, and Fradra's tick; COPY_B on
path B (R67–R69). -/
def Dev.creditPod (d : Dev) (s p : Nat) : List Byte :=
  let x := d.path s p
  let st := d.stream s
  let bond := (d.forced (Pg.ingStr s + 0x100)).toNat
  let first := if p = 0 then bitsOf bond 5 0 else bitsOf bond 13 8
  let offset := st.epoch % 16 * 2 ^ 28 + bitsOf bond 18 16 * 2 ^ 25 + first * 2 ^ 19 + pathCode x.st * 2 ^ 17
  let b := leBytes 2 (8 * 4096 + s * 128 + (if p = 0 then 0 else 16)) ++ zeros 2 ++ leBytes 4 x.granted ++ leBytes 4 st.newDone ++
    leBytes 4 offset ++ leBytes 8 d.now ++ zeros 6
  b ++ leBytes 2 (crc16 b)

/-- A CREDIT Pod goes out on every lane of a path's group, while the stream serves (R51, R72). -/
def Dev.sendCredit (d : Dev) (s p : Nat) : Dev := d.when (d.streamOn s) (·.send (.credit s p (d.creditPod s p)))

/-- A Pod's credit comes back: the count is raised, or owed until PRESSURE clears or credit issue goes on (R71, R73). -/
def Dev.returnCredit (d : Dev) (s p : Nat) : Dev :=
  if d.creditStopped s ∨ d.underPressure s then d.onPath s p fun x => { x with owed := x.owed + 1 }
  else (d.onPath s p fun x => { x with granted := x.granted + 1 }).sendCredit s p

/-- What is owed to a stream's paths is granted (R71, R73). -/
def Dev.creditsPaid (d : Dev) (s : Nat) : Dev :=
  (List.range 2).foldl (fun (d : Dev) p =>
    let x := d.path s p
    if x.owed = 0 ∨ d.creditStopped s ∨ d.underPressure s then d
    else (d.onPath s p fun x => { x with granted := x.granted + x.owed, owed := 0 }).sendCredit s p) d

/-- PRESSURE of pool `pool` has cleared: the counts of its streams are raised by what is owed (R71, R73). -/
def Dev.creditsResume (d : Dev) (pool : Nat) : Dev :=
  (List.range 32).foldl (fun (d : Dev) s => if d.rd (F.ingStrFlow_pool s) = pool ∧ d.streamOn s then d.creditsPaid s else d) d

end Sys2Proof.Machine
end

