-- ==== Sys2Proof/Machine/Pools.lean ====
section
/-! DEFINITION. Buffer pools (R122–R137, R140, R547): grants, thresholds, the last buffer, shares, transfer, freeing and
revocation. -/
namespace Sys2Proof.Machine
open Sys2Proof

/-! ## Quantities of R128 -/

/-- The pool an owner's grants are charged to: for a stream's chain, the stream's pool (R127, R141). -/
def Dev.ownerPool (d : Dev) (o : Nat) : Nat := if o < 32 then d.rd (F.ingStrFlow_pool o) else d.rd (F.bpmOwnCfg_pool o)

def Dev.entsWhere (d : Dev) (f : BufEnt → Bool) : Nat := (d.bpm.ents.filter fun e => e.2.alloc && f e.2).length

/-- USED of a pool. -/
def Dev.used (d : Dev) (p : Nat) : Nat := d.entsWhere fun e => e.pool == p
/-- r(o). -/
def Dev.grantedTo (d : Dev) (o : Nat) : Nat := d.entsWhere fun e => e.grantee == o && e.pool == d.ownerPool o
/-- Buffers whose OWNER is o. -/
def Dev.heldBy (d : Dev) (o : Nat) : Nat := d.entsWhere fun e => e.owner == o && !e.noOwner
/-- SPARE of a pool: the reserve not yet taken. -/
def Dev.spare (d : Dev) (p : Nat) : Nat :=
  (List.range 64).foldl (fun n o => if d.ownerPool o = p then n + (d.rd (F.bpmOwnRsv o) - d.grantedTo o) else n) 0

/-- A stack whose buffers count: ACTIVE, no fence begun; before tREADY also one that is still to train (R107, R129; log entry 88). -/
def Dev.stackCounts (d : Dev) (n : Nat) : Bool :=
  (decide (d.unitAt (Pg.cstStk n) = .active) && d.stackUp n) ||
    (decide (d.plat.boot ≠ .ready) && decide (d.unitAt (Pg.cstStk n) = .off) && !d.closed (Pg.cstStk n))

/-- A stack that BPM grants on: ACTIVE, no fence begun (R51); one back from ISOLATED from the boundary after it reads ACTIVE (R109). -/
def Dev.stackGrants (d : Dev) (n : Nat) : Bool :=
  decide (d.unitAt (Pg.cstStk n) = .active) && d.stackUp n && !(Map.find d.bpm.back n == some (some d.now))

/-- The lowest index from `c` on, below `top`, that no entry holds allocated or retired (R130); entries rise. -/
def lowestFree (top : Nat) : Nat → Map BufEnt → Option Nat
  | c, [] => if c < top then some c else none
  | c, (k, e) :: m =>
    if k < c then lowestFree top c m
    else if k = c ∧ (e.alloc || e.retired) then lowestFree top (c + 1) m
    else if c < top then some c else none

/-- The lowest free buffer of a stack (R130); the ING system range is never granted (R122). -/
def Dev.freeOn (d : Dev) (n : Nat) : Option Nat :=
  lowestFree (min ((n + 1) * 2 ^ 20) Config.systemFirst) (n * 2 ^ 20) d.bpm.ents

/-- Free buffers on ACTIVE stacks (BPM_STAT.FREE). -/
def Dev.freeCount (d : Dev) : Nat :=
  (List.range 4).foldl (fun s n => if d.stackCounts n then
      s + (Config.pooled n - (d.bpm.ents.filter fun e => (e.2.alloc || e.2.retired) && decide (e.1 / 2 ^ 20 = n)).length)
    else s) 0

/-- Pooled buffers of the ACTIVE stacks (R129). -/
def Dev.pooledNow (d : Dev) : Nat := (List.range 4).foldl (fun s n => if d.stackCounts n then s + Config.pooled n else s) 0

/-- Sum of SIZE over all pools. -/
def Dev.sizeSum (d : Dev) : Nat := (List.range 16).foldl (fun s p => s + d.rd (F.bpmPoolSize p)) 0

/-! ## Levels (R131) -/

/-- A level with hysteresis: set at its threshold, cleared below threshold − HYST. -/
def levelNext (was : Bool) (used thr hyst : Nat) : Bool := if was then !decide (used + hyst < thr) else decide (thr ≤ used)

/-- The pool's levels and back-pressure evaluated at a change of USED, at a NONE (`none_`) or at a commit. -/
def Dev.poolLevels (d : Dev) (p : Nat) (none_ : Bool) : Dev :=
  let u := d.used p
  let h := d.rd (F.bpmPoolCfg_hyst p)
  let step (d : Dev) (f : RegField) (thr bit : Nat) : Dev :=
    let was := d.flag f
    let now := levelNext was u thr h
    (d.wrB f now).when (now && !was) (·.raise (Pg.bpmPool p) bit)
  let wasPress := d.flag (F.bpmPoolStat_pressure p)
  let d := step d (F.bpmPoolStat_warn p) (d.rd (F.bpmPoolWarn p)) Er.bpmPool_warn
  let d := step d (F.bpmPoolStat_pressure p) (d.rd (F.bpmPoolPress p)) Er.bpmPool_pressure
  let d := step d (F.bpmPoolStat_critical p) (d.rd (F.bpmPoolCrit p)) Er.bpmPool_critical
  let press := d.flag (F.bpmPoolStat_pressure p)
  let bp := if press || none_ then true
    else if u + h < d.rd (F.bpmPoolPress p) ∧ u + d.spare p < d.rd (F.bpmPoolSize p) then false
    else d.flag (F.bpmPoolStat_bp p)
  let d := d.wrB (F.bpmPoolStat_bp p) bp
  d.when (wasPress && !press) (·.creditsResume p)

/-! ## Grants (R128, R130–R132) -/

/-- A request within its owner's reserve. -/
def Dev.withinReserve (d : Dev) (o : Nat) : Bool := decide (d.grantedTo o < d.rd (F.bpmOwnRsv o))

/-- Quota allows owner `o` a buffer for work of class `cls`. -/
def Dev.quotaAllows (d : Dev) (o cls : Nat) : Bool :=
  let p := d.ownerPool o
  d.withinReserve o ||
    (decide (d.used p + d.spare p < d.rd (F.bpmPoolSize p)) && !d.flag (F.bpmPoolStat_critical p) &&
      !(d.flag (F.bpmPoolStat_pressure p) && cls == 3))

/-- W, the bytes of the store that the host's window shows (R440). -/
def Dev.memW (d : Dev) : Nat := d.rd F.hatMemCfg * 2 ^ 28

/-- The stack that the pool's rotation comes to next among those allowed with a free buffer; for owners 40–47 the buffer must
lie below W (R442). -/
def Dev.grantStack (d : Dev) (p o : Nat) : Option Nat :=
  let mask := d.rd (F.bpmPoolCfg_stacks p)
  firstFrom 4 (Map.get 0 d.bpm.rotate p) fun n => mask.testBit n && d.stackGrants n && (match d.freeOn n with
    | some i => !(decide (40 ≤ o) && decide (o < 48)) || decide (i * 65536 < d.memW)
    | none => false)

/-- One request decided: the handle granted, or NONE. -/
def Dev.grant (d : Dev) (o cls : Nat) : Nat × Dev :=
  let p := d.ownerPool o
  let quota := d.quotaAllows o cls && !d.bpm.fenced.contains o
  match (if quota then d.grantStack p o else none) with
  | some n =>
    let i := (d.freeOn n).getD 0
    let e := d.bufEnt i
    let g := (e.gen + 1) % 1024
    let d := d.setBufEnt i ⟨g, p, o, o, true, false, false, false, false, false⟩
    let d := d.onBpm fun b => { b with rotate := Map.set 0 b.rotate p ((n + 1) % 4) }
    (mkHandle g i, (d.count (F.bpmCnt 0)).poolLevels p false)
  | none =>
    let d := (d.count (F.bpmCnt 1)).raise (Pg.bpmPool p) Er.bpmPool_none
    let d := d.when quota (·.raise (Pg.bpmPool p) Er.bpmPool_noSpace)
    (handleNone, d.poolLevels p true)

/-- `n` buffers for owner `o`, or as many as are granted before the first NONE. -/
def Dev.grantMany (d : Dev) (o cls : Nat) : Nat → List Nat × Dev
  | 0 => ([], d)
  | n + 1 =>
    let (h, d) := d.grant o cls
    if h = handleNone then ([], d)
    else let (hs, d) := d.grantMany o cls n; (h :: hs, d)

/-- The BPM port of an owner, its requester number at the allocator's cell arbiter (R127). -/
def portOf (o : Nat) : Nat := (ownerReset o).2.2.2

/-- The cell arbiter of R19: of the requests pending, the highest age wins, and of equal ages the lower port. -/
def cellWinner (ages : Map Nat) (pool : Nat) : List GrantReq → Option GrantReq
  | [] => none
  | r :: rs => some (rs.foldl (fun best x =>
      let a := Map.get 0 ages (pool * 16 + portOf x.owner)
      let b := Map.get 0 ages (pool * 16 + portOf best.owner)
      if b < a ∨ (a = b ∧ portOf x.owner < portOf best.owner) then x else best) r)

/-- Ages after a grant: the winner's becomes 0, every loser's rises by one (R19). -/
def cellAges (ages : Map Nat) (pool : Nat) (win : Nat) (losers : List Nat) : Map Nat :=
  let ages := Map.set 0 ages (pool * 16 + win) 0
  (losers.eraseDups.filter (· != win)).foldl (fun m q => Map.set 0 m (pool * 16 + q) (min 15 (Map.get 0 m (pool * 16 + q) + 1))) ages

/-- A request is answered; an owner that acts through BAR0 reads it in BPM_OP_RESULT and BPM_OP_STATUS (R128, R141). -/
def Dev.answerGrant (d : Dev) (o h : Nat) : Dev :=
  let d := d.send (.granted o h)
  if d.rd (F.bpmOwnCfg_region o) = 15 then (d.wr F.bpmOpResult h).wr F.bpmOpStatus (if h = handleNone then 1 else 0) else d

/-- Requests that reached one pool's allocator in the same cycle, one grant a cycle: the arbiter's winner is decided
first; a beyond-reserve loser that then finds USED + SPARE = SIZE gets NONE and loses the race (R132). -/
def Dev.grantRound (d : Dev) (pool : Nat) : Nat → List GrantReq → Dev
  | 0, _ => d
  | fuel + 1, reqs =>
    match cellWinner d.bpm.ages pool reqs with
    | none => d
    | some r =>
      let rest := reqs.erase r
      let d := d.onBpm fun b => { b with ages := cellAges b.ages pool (portOf r.owner) (rest.map (portOf ·.owner)) }
      let (h, d) := d.grant r.owner r.cls
      let d := d.answerGrant r.owner h
      let lost (x : GrantReq) : Bool :=
        h != handleNone && !d.withinReserve x.owner && decide (d.used pool + d.spare pool = d.rd (F.bpmPoolSize pool))
      let d := (rest.filter lost).foldl (fun d x =>
        ((((d.count (F.bpmCnt 1)).count (F.bpmCnt 8)).raise (Pg.bpmPool pool) Er.bpmPool_none).poolLevels pool true).answerGrant
          x.owner handleNone) d
      d.grantRound pool fuel (rest.filter (!lost ·))

/-! ## Operations by an acting owner -/

/-- The results BPM_OP_STATUS gives (R141). -/
inductive BpmSt where
  | ok | none | ignored | deferred
  deriving DecidableEq, Repr

def bpmStCode : BpmSt → Nat
  | .ok => 0
  | .none => 1
  | .ignored => 2
  | .deferred => 3

/-- The buffer index an operation names, if it names one: a handle of the buffer's generation (R122), or an address that
passes R126. The flag tells a bad address. -/
def Dev.resolve (d : Dev) (buf : BufRef) : Option Nat × Bool :=
  if d.injected Pg.bpmReg Er.bpmReg_freeIgnored then (none, false) else
  match buf with
  | .handle h =>
    let i := handleIndex h
    if isSystem i || decide ((d.bufEnt i).gen ≠ handleGen h) then (none, false) else (some i, false)
  | .addr a =>
    if a % 65536 = 0 ∧ a < Config.storeBytes ∧ isSystem (granuleOf a) = false ∧ d.injected Pg.bpmReg Er.bpmReg_addr = false then
      (some (granuleOf a), false)
    else (none, true)

/-- An operation that is ignored: FREE_IGNORED (or ADDR) is raised and the operation counted (R126, R133–R135, R547). -/
def Dev.opIgnored (d : Dev) (badAddr : Bool) : BpmSt × Dev :=
  let bit := if badAddr then Er.bpmReg_addr else Er.bpmReg_freeIgnored
  let d := (d.takeInjected Pg.bpmReg bit).raise Pg.bpmReg bit
  (.ignored, (d.when (!badAddr) (·.count (F.bpmCnt 4))).countIgnored Pg.bpmReg 0x500100)

/-- A FREE is accepted: it completes after every earlier access (R136, FREE_COMPLETE). -/
def Dev.startFree (d : Dev) (i : Nat) : Dev := d.onBpm fun b => { b with freeing := b.freeing ++ [(i, 0)] }

/-- FREE (R135). DESIGN CHOICE: while an accepted FREE is not yet complete, a second FREE of the unshared buffer by its owner is ignored with
FREE_IGNORED, and TRANSFER, SHARE and HOSTW_SET of it are still accepted (log entry 89). -/
def Dev.bpmFree (d : Dev) (o : Nat) (buf : BufRef) : BpmSt × Dev :=
  match d.resolve buf with
  | (none, bad) => d.opIgnored bad
  | (some i, _) =>
    let e := d.bufEnt i
    if !e.alloc || d.bpm.freeing.any (·.1 == i) then d.opIgnored false
    else if e.shared then
      match Map.find d.bpm.shares i with
      | some r =>
        if r.last = o ∧ !e.defer then (.deferred, (d.setBufEnt i { e with defer := true }).count (F.bpmCnt 3))
        else d.opIgnored false
      | none => d.opIgnored false
    else if e.owner = o ∧ !e.noOwner then (.ok, d.startFree i)
    else d.opIgnored false

/-- A share drops; with no holder but LAST_OWNER left, the record closes and a deferred FREE goes on (R135). -/
def Dev.dropShare (d : Dev) (i o : Nat) : Dev :=
  match Map.find d.bpm.shares i with
  | none => d
  | some r =>
    let r := { r with holders := setBit r.holders o false, dropped := setBit r.dropped o true }
    if setBit r.holders r.last false = 0 then
      let e := d.bufEnt i
      let d := d.onBpm fun b => { b with shares := Map.erase b.shares i }
      let d := d.setBufEnt i { e with shared := false, owner := r.last, noOwner := r.noLast, defer := false }
      if e.defer then d.startFree i else d
    else d.onBpm fun b => { b with shares := Map.put b.shares i r }

/-- RELEASE (R135). -/
def Dev.bpmRelease (d : Dev) (o : Nat) (buf : BufRef) : BpmSt × Dev :=
  match d.resolve buf with
  | (none, bad) => d.opIgnored bad
  | (some i, _) =>
    match Map.find d.bpm.shares i with
    | some r => if r.last ≠ o ∧ r.holders.testBit o then (.ok, d.dropShare i o) else d.opIgnored false
    | none => d.opIgnored false

/-- Owners a holder mask names. -/
def maskCount (mask : Nat) : Nat := ((List.range 64).filter mask.testBit).length

/-- SHARE (R134). -/
def Dev.bpmShare (d : Dev) (o : Nat) (buf : BufRef) (mask last : Nat) : BpmSt × Dev :=
  match d.resolve buf with
  | (none, bad) => d.opIgnored bad
  | (some i, _) =>
    let e := d.bufEnt i
    let n := maskCount mask
    if e.alloc && e.owner == o && !e.noOwner && !e.shared && decide (2 ≤ n) && decide (n ≤ 8) && mask.testBit o && mask.testBit last
        && decide (mask < 2 ^ 64) then
      if 65536 ≤ d.bpm.shares.length ∨ d.injected Pg.bpmReg Er.bpmReg_shareFull then
        (.ignored, ((d.takeInjected Pg.bpmReg Er.bpmReg_shareFull).raise Pg.bpmReg Er.bpmReg_shareFull).countIgnored Pg.bpmReg 0x500100)
      else (.ok, (d.setBufEnt i { e with shared := true }).onBpm fun b => { b with shares := Map.put b.shares i ⟨mask, 0, last, false⟩ })
    else d.opIgnored false

/-- TRANSFER (R133): at once, or after the accesses of the acting owner that wait for the buffer's zero fill. -/
def Dev.bpmTransfer (d : Dev) (o : Nat) (buf : BufRef) (target : Nat) : BpmSt × Dev :=
  match d.resolve buf with
  | (none, bad) => d.opIgnored bad
  | (some i, _) =>
    let e := d.bufEnt i
    if e.alloc && e.owner == o && !e.noOwner && !e.shared then
      (.ok, if d.cst.waiting.any (fun w => w.granule == i && w.owner == some o)
        then d.onCst fun c => { c with waiting := c.waiting ++ [.pass o i target] } else d.passTo o i target)
    else d.opIgnored false

/-- HOSTW_SET and HOSTW_CLR (R547). -/
def Dev.bpmHostw (d : Dev) (o : Nat) (buf : BufRef) (on : Bool) : BpmSt × Dev :=
  match d.resolve buf with
  | (none, bad) => d.opIgnored bad
  | (some i, _) =>
    let e := d.bufEnt i
    if e.alloc && !e.retired && e.owner == o && !e.noOwner && !(on && e.shared) then (.ok, d.setBufEnt i { e with hostw := on })
    else d.opIgnored false

/-- FREE completes (R136), after the accesses that waited for a zero fill: trackers, cached copies and content go, the entry's flags clear,
the pool is uncharged. -/
def Dev.freeNow (d : Dev) (i : Nat) : Dev :=
  let d := d.when (d.cst.waiting.any (·.granule == i)) (·.zeroFillDone i)
  let e := d.bufEnt i
  let d := (d.cacheDropGranule i).onCst fun c => { c with
    zero := c.zero.filter (·.granule != i),
    filling := c.filling.filter (·.granule != i),
    merge := c.merge.filter (fun m => m.line / 1024 != i),
    mem := Map.dropWindow c.mem (i * 65536) ((i + 1) * 65536),
    hollow := Map.dropWindow c.hollow (i * 1024) ((i + 1) * 1024),
    stale := Map.erase c.stale i,
    valid := Map.set (isSystem i) c.valid i false }
  let d := d.wr F.cstCnt8 d.cst.zero.length
  let d := d.onBpm fun b => { b with freeing := b.freeing.filter (·.1 != i), shares := Map.erase b.shares i }
  let d := d.setBufEnt i { e with owner := 0, hostw := false, defer := false, shared := false, alloc := false, noOwner := false, pool := 0, grantee := 0 }
  (d.count (F.bpmCnt 2)).poolLevels e.pool false

/-- FREE_COMPLETE of a buffer whose FREE was accepted. -/
def Dev.freeComplete (d : Dev) (i : Nat) : Dev := if d.bpm.freeing.any (·.1 == i) then d.freeNow i else d

/-- A region frees a buffer it owns by handle, and the FREE completes. -/
def Dev.freeBuf (d : Dev) (o h : Nat) : Dev :=
  let (st, d) := d.bpmFree o (.handle h)
  if st = .ok then d.freeNow (handleIndex h) else d

/-! ## Revocation (R137) -/

/-- The owner to whom the holdings of `o` pass: its heir, owner 63 if the heir is fenced, none if that is fenced too. -/
def Dev.heirOf (d : Dev) (o : Nat) : Option Nat :=
  let h := d.rd (F.bpmOwnCfg_heir o)
  if !d.bpm.fenced.contains h then some h else if !d.bpm.fenced.contains 63 then some 63 else none

/-- The holdings of a fenced owner pass in one pass: buffers, shares, LAST_OWNER roles. -/
def Dev.revokeOwner (d : Dev) (o : Nat) : Dev :=
  let heir := d.heirOf o
  let mine := (d.bpm.ents.filter fun e => e.2.alloc && e.2.owner == o && !e.2.noOwner).map (·.1)
  let d := mine.foldl (fun (d : Dev) i =>
    let e := d.bufEnt i
    d.setBufEnt i (match heir with
      | some h => { e with owner := h }
      | none => { e with noOwner := true })) d
  let d := (d.bpm.shares.map (·.1)).foldl (fun (d : Dev) i => match Map.find d.bpm.shares i with
    | some r =>
      if r.last = o ∧ !r.noLast then
        let rest := setBit r.holders o false
        let r := match heir with
          | some h => { r with last := h, holders := setBit rest h true }
          | none => { r with holders := rest, noLast := true }
        (d.onBpm fun b => { b with shares := Map.put b.shares i r }).dropShare i o
      else if r.holders.testBit o then d.dropShare i o else d
    | none => d) d
  (d.countN (F.bpmCnt 7) (if heir.isSome then mine.length else 0)).raise Pg.bpmReg Er.bpmReg_revoke

/-- A fenced owner returns to ACTIVE; what owner 63 left without an owner passes to it (R137). -/
def Dev.ownerReturns (d : Dev) (o : Nat) : Dev :=
  if !d.bpm.fenced.contains o then d
  else
    let d := (d.onBpm fun b => { b with fenced := b.fenced.filter (· != o) }).setUnit (Pg.bpmOwn o) .active
    if o = 63 then
      let left := (d.bpm.ents.filter fun e => e.2.alloc && e.2.noOwner).length
      (d.onBpm fun b => { b with
        ents := b.ents.map fun e => if e.2.noOwner then (e.1, { e.2 with noOwner := false, owner := 63 }) else e
        shares := b.shares.map fun r =>
          if r.2.noLast then (r.1, { r.2 with noLast := false, last := 63, holders := setBit r.2.holders 63 true }) else r }).countN (F.bpmCnt 7) left
    else d

/-! ## Meanings -/

/-- An operation's result goes to BPM_OP_STATUS where its owner acts through BPM_OP (region 15, R127, R141). -/
def Dev.opResult (d : Dev) (o : Nat) (r : BpmSt × Dev) : Dev :=
  if d.rd (F.bpmOwnCfg_region o) = 15 then r.2.wr F.bpmOpStatus (bpmStCode r.1) else r.2

/-- BPM_GRANT (R128): the requests that reached the pool's allocator in one cycle. -/
def execBpmGrant (pool : Nat) (reqs : List GrantReq) (s : State) : Host.Outcome State Fault Refusal :=
  run s fun d => d.grantRound pool reqs.length (reqs.filter fun r => d.ownerPool r.owner == pool)

/-- BPM_FREE (R135). -/
def execBpmFree (owner : Nat) (buf : BufRef) (s : State) : Host.Outcome State Fault Refusal :=
  run s fun d => d.opResult owner (d.bpmFree owner buf)

/-- FREE_COMPLETE (R136). -/
def execFreeComplete (index : Nat) (s : State) : Host.Outcome State Fault Refusal := run s (·.freeComplete index)

/-- BPM_RELEASE (R135). -/
def execBpmRelease (owner : Nat) (buf : BufRef) (s : State) : Host.Outcome State Fault Refusal :=
  run s fun d => d.opResult owner (d.bpmRelease owner buf)

/-- BPM_SHARE (R134). -/
def execBpmShare (owner : Nat) (buf : BufRef) (mask last : Nat) (s : State) : Host.Outcome State Fault Refusal :=
  run s fun d => d.opResult owner (d.bpmShare owner buf mask last)

/-- BPM_TRANSFER (R133). -/
def execBpmTransfer (owner : Nat) (buf : BufRef) (target : Nat) (s : State) : Host.Outcome State Fault Refusal :=
  run s fun d => d.opResult owner (d.bpmTransfer owner buf target)

/-- BPM_HOSTW_SET (R547). -/
def execBpmHostwSet (owner : Nat) (buf : BufRef) (s : State) : Host.Outcome State Fault Refusal :=
  run s fun d => d.opResult owner (d.bpmHostw owner buf true)

/-- BPM_HOSTW_CLR (R547). -/
def execBpmHostwClr (owner : Nat) (buf : BufRef) (s : State) : Host.Outcome State Fault Refusal :=
  run s fun d => d.opResult owner (d.bpmHostw owner buf false)

end Sys2Proof.Machine
end

