-- ==== Sys2Proof/Machine/Flash.lean ====
section
/-! DEFINITION. The flash translation layer, its parts (R166–R186, R194–R198, R204–R206, R211–R213, R217): addresses, tags,
rows, positions, parity, the journal, the map and its cache, and the keys of the egress. -/
namespace Sys2Proof.Machine
open Sys2Proof

/-! ## Addresses (R167, R168) -/

def unitBytes : Nat := 65536

/-- A physical unit address. -/
def mkPua (ch ce lun block unit : Nat) : Nat := ch * 2 ^ 34 + ce * 2 ^ 31 + lun * 2 ^ 28 + block * 2 ^ 12 + unit
def puaCh (p : Nat) : Nat := p / 2 ^ 34 % 32
def puaCe (p : Nat) : Nat := p / 2 ^ 31 % 8
def puaLun (p : Nat) : Nat := p / 2 ^ 28 % 8
def puaBlock (p : Nat) : Nat := p / 2 ^ 12 % 65536
def puaUnit (p : Nat) : Nat := p % 4096
/-- A LUN, and a block, named by one number. -/
def lunKey (ch ce lun : Nat) : Nat := ch * 64 + ce * 8 + lun
def puaLunKey (p : Nat) : Nat := p / 2 ^ 28
def blockKey (p : Nat) : Nat := p / 2 ^ 12

/-- A row id. -/
def mkRow (set ce lun block : Nat) : Nat := set * 2 ^ 22 + ce * 2 ^ 19 + lun * 2 ^ 16 + block
def rowSet (r : Nat) : Nat := r / 2 ^ 22 % 8
def rowCe (r : Nat) : Nat := r / 2 ^ 19 % 8
def rowLun (r : Nat) : Nat := r / 2 ^ 16 % 8
def rowBlock (r : Nat) : Nat := r % 65536

/-! ## Tags and units (R166, R176, R177) -/

/-- The 64 bytes of a page tag. -/
def Tag.bytes (t : Tag) : List Byte :=
  let b := leBytes 1 t.ty ++ leBytes 1 t.flags ++ leBytes 2 t.hollowMap ++ leBytes 2 t.keyId ++ leBytes 1 t.key ++
    leBytes 1 t.stream ++ leBytes 8 t.unit ++ leBytes 6 t.seq ++ leBytes 2 t.mapVer ++ leBytes 4 t.wtime ++
    leBytes 1 t.temp ++ zeros 1 ++ leBytes 2 t.erases ++ leBytes 4 t.row ++ leBytes 2 t.mapVerB ++ zeros 22
  b ++ leBytes 4 (crc32c b)

def tagHollow : Nat := 1
def tagEnc : Nat := 2
def tagGc : Nat := 4
def tagPartial : Nat := 8
def Tag.enc (t : Tag) : Bool := t.flags.testBit 1

/-- No unit: what a tag of an empty place would be. -/
def Tag.none : Tag := ⟨0, 0, 0, 0, 0, 0xFF, 0, 0, 0, 0, 0, 0, 0, 0⟩

/-- A sparse run of bytes from a list. -/
def mapOfBytes (base : Nat) (bs : List Byte) : Map Byte :=
  ((List.range bs.length).zip bs).filterMap (fun e => if e.2 = 0 then none else some (base + e.1, e.2))

/-- `n` bytes of a sparse run from `base` on. -/
def bytesFrom (m : Map Byte) : Nat → Nat → List Byte
  | _, 0 => []
  | base, n + 1 =>
    match m.dropWhile (fun e => decide (e.1 < base)) with
    | [] => zeros (n + 1)
    | (k, v) :: rest => if k = base then v :: bytesFrom rest (base + 1) n else 0 :: bytesFrom ((k, v) :: rest) (base + 1) n

/-- The 65,536 bytes of a unit. -/
def FUnit.bytes (u : FUnit) : List Byte := bytesFrom u.data 0 unitBytes

/-- A list cut into `n` pieces of `k`. -/
def pieces {α : Type} (k : Nat) : Nat → List α → List (List α)
  | 0, _ => []
  | n + 1, l => l.take k :: pieces k n (l.drop k)

/-- Bytes of a page of a die type, and check bytes of each of its codewords (R166). -/
def pageSize (page : Nat) : Nat := if page = 1 then 32768 else 16384
def checkBytes (parity : Nat) : Nat := nth [256, 384, 512] parity 512
/-- What a page's spare must hold: the tag, and every codeword's check bytes. -/
def spareNeed (page parity : Nat) : Nat := 64 + pageSize page / 4096 * checkBytes parity
/-- The plane and the byte of its page that byte `o` of a unit lies at. -/
def planeOf (page o : Nat) : Nat × Nat := (o / pageSize page, o % pageSize page)

/-- A page as a die holds it: its codewords, each with its check bytes; codeword 0 also carries the tag (R166, R177). -/
structure FlashPage where
  words : List (List Byte)
  check : List (List Byte)
  tag   : List Byte
  deriving DecidableEq, Repr

/-- The pages of a unit, one in each plane. -/
def FUnit.pages (u : FUnit) (page parity : Nat) : List FlashPage :=
  (pieces (pageSize page) (unitBytes / pageSize page) u.bytes).map fun p =>
    let ws := pieces 4096 (pageSize page / 4096) p
    ⟨ws, ((List.range ws.length).zip ws).map (fun w =>
      Config.flashCheck (if w.1 = 0 then w.2 ++ u.tag.bytes else w.2) (checkBytes parity)), u.tag.bytes⟩

/-- Sum of two sparse runs of bytes, byte by byte. -/
def mapXor (a b : Map Byte) : Map Byte := b.foldl (fun m e => Map.set 0 m e.1 (Map.get 0 m e.1 ^^^ e.2)) a

/-- A sparse run of bytes times a constant of GF(2⁸). -/
def mapScale (c : Nat) (a : Map Byte) : Map Byte :=
  if c = 0 then [] else a.map (fun e => (e.1, w8 (gfMul c e.2.toNat)))

/-- `m` with its bytes `ofs … ofs+len-1` replaced by those of `src`. -/
def mapOverlay (m src : Map Byte) (ofs len : Nat) : Map Byte := Map.replaceWindow m src ofs (ofs + len)

/-! ## P and Q (R211, R212) -/

/-- P over the data units of a stripe. -/
def parP (ds : List (Nat × Map Byte)) : Map Byte := ds.foldl (fun m d => mapXor m d.2) []
/-- Q over the data units of a stripe, each with its data index. -/
def parQ (ds : List (Nat × Map Byte)) : Map Byte := ds.foldl (fun m d => mapXor m (mapScale (gfAlpha d.1) d.2)) []

/-- The lost data units of a stripe, by data index, from the data that can be read and the parity that can; nothing where
there are more lost than R212 solves. -/
def parSolve (ds : List (Nat × Map Byte)) (lost : List Nat) (p q : Option (Map Byte)) : Option (List (Nat × Map Byte)) :=
  match lost, p, q with
  | [], _, _ => some []
  | [x], some p, _ => some [(x, mapXor p (parP ds))]
  | [x], none, some q => some [(x, mapScale (gfInv (gfAlpha x)) (mapXor q (parQ ds)))]
  | [x, y], some p, some q =>
    let a := mapXor p (parP ds)
    let b := mapXor q (parQ ds)
    let dx := mapScale (gfInv (gfAlpha x ^^^ gfAlpha y)) (mapXor b (mapScale (gfAlpha y) a))
    some [(x, dx), (y, mapXor a dx)]
  | _, _, _ => none

/-! ## Sets, members and positions (R214–R217) -/

def Dev.setOn (d : Dev) (s : Nat) : Bool := d.flag (F.parSetCfg_en s)
def Dev.setQ (d : Dev) (s : Nat) : Bool := d.flag (F.parSetCfg_q s)
def Dev.setMembers (d : Dev) (s : Nat) : List Nat := (List.range 32).filter (d.rd (F.parSetMem s)).testBit
/-- Parity units of a stripe. -/
def Dev.nPar (d : Dev) (s : Nat) : Nat := if d.setQ s then 2 else 1

/-- The die type of a CE, whether it is READY, and its geometry (R163–R166). -/
def Dev.ceReady (d : Dev) (ch ce : Nat) : Bool := decide (d.rd (F.sflFcCe_state ch ce) = 2)
def Dev.dieOf (d : Dev) (ch ce : Nat) : Nat := d.rd (F.sflFcCe_type ch ce)
def Dev.blocksOf (d : Dev) (ch ce : Nat) : Nat := d.rd (F.sflDieGeom_blocks (d.dieOf ch ce)) + 1
def Dev.unitsOf (d : Dev) (ch ce : Nat) : Nat := d.rd (F.sflDieGeom_units (d.dieOf ch ce)) + 1
def Dev.lunsOf (d : Dev) (ch ce : Nat) : Nat := d.rd (F.sflFcCe_luns ch ce)

/-- (CE, LUN, BLOCK) is present on the channel. -/
def Dev.blockThere (d : Dev) (ch ce lun block : Nat) : Bool :=
  d.ceReady ch ce && decide (lun < d.lunsOf ch ce) && decide (block < d.blocksOf ch ce)

/-- A LUN takes part in new rows: its channel is ACTIVE and trained, and the LUN is not fenced (R163, R216). -/
def Dev.lunAvail (d : Dev) (ch ce lun : Nat) : Bool :=
  decide (d.unitAt (Pg.sflFc ch) = .active) && !d.closed (Pg.sflFc ch) && decide (d.rd (F.sflFcStat_train ch) = 2) &&
    d.ceReady ch ce && decide (lun < d.lunsOf ch ce) && !d.sfl.fencedLuns.contains (lunKey ch ce lun) &&
    !d.closed (cellPage (.lun (lunKey ch ce lun)))

def Dev.rowEnt (d : Dev) (r : Nat) : RowEnt := Map.get RowEnt.reset d.sfl.rows r

/-- The row ids of an enabled set: every (CE, LUN, BLOCK) present on at least one member, ascending. -/
def Dev.rowIds (d : Dev) (s : Nat) : List Nat :=
  ((List.range 8).map (fun ce => ((List.range 8).map (fun lun =>
    let chs := (d.setMembers s).filter (fun ch => d.ceReady ch ce && decide (lun < d.lunsOf ch ce))
    let blocks := chs.foldl (fun n ch => max n (d.blocksOf ch ce)) 0
    (List.range blocks).map (mkRow s ce lun))).flatten)).flatten

/-- The 32 bytes of a row-table entry (R169). -/
def RowEnt.bytes (e : RowEnt) : List Byte :=
  let code := match e.st with
    | .free => 0 | .opened => 1 | .closed => 2 | .source => 3 | .erasing => 4 | .retired => 5
  leBytes 1 code ++ leBytes 1 e.role ++ leBytes 1 e.temp ++ zeros 1 ++ leBytes 4 e.wtime ++ leBytes 4 e.bad ++
    leBytes 2 e.erases ++ zeros 2 ++ leBytes 4 e.valid ++ leBytes 4 e.wptr ++ leBytes 6 e.openSeq ++ zeros 2

/-! ## Tables in the store (R169, R172, R173) -/

/-- Bytes of a table are written at byte `ofs` of a buffer of owner 33, where it was granted. DESIGN CHOICE: the map engine keeps its own
copy of what stands there, and a line of it that is lost does not disturb it (log entry 93). -/
def Dev.putTable (d : Dev) (h : Option Nat) (ofs : Nat) (bs : List Byte) : Dev :=
  match h with
  | none => d
  | some h => d.writeNow ⟨handleAddr h + ofs, bs, false, 2, 0, some ⟨h, 33, 6⟩, .good⟩

/-- The entry of a row as its set's table shows it; the table holds the set's rows by row id. -/
def Dev.showRow (d : Dev) (r : Nat) : Dev :=
  match Map.get [] d.sfl.rowBufs (rowSet r) with
  | [] => d
  | hs =>
    let ids := d.rowIds (rowSet r)
    let n := ids.idxOf r
    if n < ids.length then d.putTable hs[n / 2048]? (32 * (n % 2048)) (d.rowEnt r).bytes else d

def Dev.onRow (d : Dev) (r : Nat) (f : RowEnt → RowEnt) : Dev :=
  (d.onSfl fun s => { s with rows := Map.modify RowEnt.reset s.rows r f }).showRow r

/-- The positions of a row: the members not left out, ascending. -/
def Dev.positions (d : Dev) (r : Nat) : List Nat :=
  let ms := d.setMembers (rowSet r)
  ((List.range ms.length).zip ms).filterMap (fun e => if (d.rowEnt r).bad.testBit e.1 then none else some e.2)

/-- The PUA of position `pos` of stripe `k`. -/
def Dev.puaAt (d : Dev) (r k pos : Nat) : Nat := mkPua ((d.positions r).getD pos 0) (rowCe r) (rowLun r) (rowBlock r) k

/-- The role of a position in a stripe: the P unit, the Q unit, or data with its index (R217). -/
inductive PosRole where
  | p | q | data (i : Nat)
  deriving DecidableEq, Repr

def posRole (isQ : Bool) (m k pos : Nat) : PosRole :=
  let p := (m - 1) - k % m
  let rel := (pos + m - p) % m
  if rel = 0 then .p
  else if isQ then (if rel = 1 then .q else .data (rel - 2))
  else .data (rel - 1)

def Dev.roleAt (d : Dev) (r k pos : Nat) : PosRole := posRole (d.setQ (rowSet r)) (d.positions r).length k pos

/-- The data positions of a stripe in the order of their data index. -/
def Dev.dataPositions (d : Dev) (r k : Nat) : List Nat :=
  let m := (d.positions r).length
  let np := d.nPar (rowSet r)
  let p := (m - 1) - k % m
  (List.range (m - np)).map (fun i => (p + np + i) % m)

def Dev.parityPositions (d : Dev) (r k : Nat) : List Nat :=
  let m := (d.positions r).length
  let p := (m - 1) - k % m
  if d.setQ (rowSet r) then [p, (p + 1) % m] else [p]

/-- Stripes of a row: the fewest units per block among its positions. -/
def Dev.rowStripes (d : Dev) (r : Nat) : Nat :=
  (d.positions r).foldl (fun n ch => min n (d.unitsOf ch (rowCe r))) 4096

/-- The position of a PUA in its row, and the row of a PUA under the set that holds its channel; `none` where no row does.
Two sets share a channel only during a reshape (R240): the unit's own tag then names the row. -/
def Dev.rowOfPua (d : Dev) (pua : Nat) : Option Nat :=
  match Map.find d.sfl.units pua with
  | some u => if u.tag.ty = 0 then none else some u.tag.row
  | none => ((List.range 8).find? (fun s => d.setOn s && (d.setMembers s).contains (puaCh pua))).map
      (fun s => mkRow s (puaCe pua) (puaLun pua) (puaBlock pua))

/-- The members of a row that are left out for as long as the block's state lasts: no block there, a bad block, or a block of the
journal's shadow (R168, R214, R225). -/
def Dev.blockOut (d : Dev) (ch ce lun block : Nat) : Bool :=
  !d.blockThere ch ce lun block || (Map.find d.mram.badBlocks (blockKey (mkPua ch ce lun block 0))).isSome ||
    (match d.par.shadow with
     | some h => h.keys.contains (blockKey (mkPua ch ce lun block 0))
     | none => false)

/-- The members of a row that must be left out now: those, and the members whose LUN is unavailable (R216). -/
def Dev.leftOut (d : Dev) (s ce lun block : Nat) : Nat :=
  maskOf ((d.setMembers s).map (fun ch => d.blockOut ch ce lun block || !d.lunAvail ch ce lun))

/-- The entry of a row that holds nothing: FREE with the members left out whose block is bad, or RETIRED where fewer than 2 data members
remain (R168, R193, R217). -/
def Dev.rowFresh (d : Dev) (r erases : Nat) : RowEnt :=
  let outs := (d.setMembers (rowSet r)).map (fun ch => d.blockOut ch (rowCe r) (rowLun r) (rowBlock r))
  { RowEnt.reset with
    bad := maskOf outs, erases := erases
    st := if 2 + d.nPar (rowSet r) ≤ (outs.filter (!·)).length then .free else .retired }

/-- The row table of a set: its FREE and RETIRED rows as its members' blocks now stand (R168, R169, R233). -/
def Dev.rowsBuild (d : Dev) (s : Nat) : Dev :=
  (d.rowIds s).foldl (fun (d : Dev) r =>
    let e := d.rowEnt r
    if e.st = .free ∨ e.st = .retired then d.onRow r fun e => d.rowFresh r e.erases else d.showRow r) d

/-- A row with fewer than 2 data members cannot be used. -/
def Dev.rowUsable (d : Dev) (r : Nat) : Bool :=
  let s := rowSet r
  let out := d.leftOut s (rowCe r) (rowLun r) (rowBlock r)
  let ms := (d.setMembers s).length
  decide (2 + d.nPar s ≤ ((List.range ms).filter (fun i => !out.testBit i)).length)

/-- The FREE rows of a set that can be opened. During a reshape a row is FREE only while both sets' rows are (R240). -/
def Dev.freeRows (d : Dev) (s : Nat) : List Nat :=
  (d.rowIds s).filter (fun r => decide ((d.rowEnt r).st = .free) && d.rowUsable r &&
    (match d.par.shapes.find? (fun e => e.2 == s) with
     | some (n, _) => decide ((d.rowEnt (mkRow n (rowCe r) (rowLun r) (rowBlock r))).st = .free)
     | none => match Map.find d.par.shapes s with
       | some t => decide ((d.rowEnt (mkRow t (rowCe r) (rowLun r) (rowBlock r))).st = .free)
       | none => true))

/-- The FREE row with the lowest ERASES, the lowest id among equals (R194). -/
def Dev.bestFree (d : Dev) (s : Nat) : Option Nat :=
  (d.freeRows s).foldl (fun best r =>
    match best with
    | none => some r
    | some b => if (d.rowEnt r).erases < (d.rowEnt b).erases then some r else some b) none

/-! ## Counters of the region -/

def Dev.sflCount (d : Dev) (k : Nat) : Dev := d.count (F.sflCnt k)

/-- The registers that show the next SEQ, the units mapped and the capacity (R209). -/
def Dev.showSeq (d : Dev) : Dev := d.put64 F.sflSeqLo F.sflSeqHi (d.sfl.seq % 2 ^ 48)

/-- The next value of the 48-bit counter (R179). -/
def Dev.takeSeq (d : Dev) : Nat × Dev :=
  (d.sfl.seq, (d.onSfl fun s => { s with seq := (s.seq + 1) % 2 ^ 48 }).showSeq)

/-- Copy `a` is newer than copy `b` (R179). -/
def newer (a b : Nat) : Bool :=
  let diff := behind 48 a b
  decide (1 ≤ diff) && decide (diff ≤ 2 ^ 47 - 1)

/-- The die temperature of a LUN: the last read, or the hottest die sensor where its type names none (R186). -/
def Dev.lunTemp (d : Dev) (ch ce lun : Nat) : Int :=
  if d.rd (F.sflDieFeat_tempFeat (d.dieOf ch ce)) = 0 then (List.range 8).foldl (fun (t : Int) i => max t (sgn 16 (d.rd (F.pltThermT i)) / 16)) (-128)
  else sgn 8 (Map.get 0 d.sfl.temps (lunKey ch ce lun))

/-- The bin of a row's age and of the temperature difference: entry 16 × a + d of the threshold table (R186). -/
def Dev.ageBin (d : Dev) (wtime : Nat) : Nat :=
  let h := (d.rd F.sflTime - wtime) / 3600
  if h = 0 then 0 else min 15 (Nat.log2 h + 1)
def tempBin (t temp : Int) : Nat := (min 15 (max 0 ((t - temp + 80) / 10))).toNat
def Dev.thrEntry (d : Dev) (pua : Nat) : Nat :=
  match d.rowOfPua pua with
  | some r =>
    let e := d.rowEnt r
    16 * d.ageBin e.wtime + tempBin (d.lunTemp (puaCh pua) (puaCe pua) (puaLun pua)) (sgn 8 e.temp)
  | none => 0

/-- The entries of the reads of level F1, those outside the table skipped, at most RETRY of them (R187). -/
def Dev.retryEntries (d : Dev) (pua : Nat) : List Nat :=
  let i := d.thrEntry pua
  let (a, t) := ((i / 16 : Nat), (i % 16 : Nat))
  ([((1 : Int), (0 : Int)), (0, 1), (0, -1), (2, 0), (1, 1), (0, 2), (0, -2), (3, 0)].filterMap (fun x =>
    let p : Int × Int := (a + x.1, t + x.2)
    if 0 ≤ p.1 ∧ p.1 ≤ 15 ∧ 0 ≤ p.2 ∧ p.2 ≤ 15 then some (16 * p.1.toNat + p.2.toNat) else none)).take
      (d.rd (F.sflDieFeat_retry (d.dieOf (puaCh pua) (puaCe pua))))

/-- P1–P4 of an entry, with `step` added to each of the four offset codes (R186, R187). -/
def Dev.offsetsOf (d : Dev) (pua entry : Nat) (step : Int) : Nat :=
  let t := d.dieOf (puaCh pua) (puaCe pua)
  let ps := [F.sflDieThr_p1 t entry, F.sflDieThr_p2 t entry, F.sflDieThr_p3 t entry, F.sflDieThr_p4 t entry]
  ((List.range 4).zip ps).foldl (fun n x => n + unsgn 8 (sgn 8 (d.rd x.2) + step) * 2 ^ (8 * x.1)) 0

/-- SET FEATURES at RO_FEAT of a LUN: the entry last set on it, and its P1–P4 (R186). -/
def Dev.setOffsets (d : Dev) (pua entry : Nat) (step : Int) : Dev :=
  d.onSfl fun s => { s with
    entrySet := Map.set 0 s.entrySet (puaLunKey pua) (entry + 1)
    offsets := Map.set 0 s.offsets (puaLunKey pua) (d.offsetsOf pua entry step) }

/-- The SET FEATURES of a read that ended at level `level`, F1 with its `tries`-th read: entry i where another was last set, then the
entries of the F1 reads made, then the three reads of F2 around the last of them. An F2 read leaves no entry of the table set. -/
def Dev.readFeatures (d : Dev) (pua level tries : Nat) : Dev :=
  let i := d.thrEntry pua
  let d := if Map.get 0 d.sfl.entrySet (puaLunKey pua) = i + 1 then d else d.setOffsets pua i 0
  if level = 0 then d
  else
    let es := d.retryEntries pua
    let es := if level = 1 then es.take (max 1 tries) else es
    let d := es.foldl (fun (d : Dev) e => d.setOffsets pua e 0) d
    if level = 1 then d
    else
      let d := d.setOffsets pua (es.getLast?.getD i) (d.rd (F.sflDieFeat_softStep (d.dieOf (puaCh pua) (puaCe pua))))
      d.onSfl fun s => { s with entrySet := Map.set 0 s.entrySet (puaLunKey pua) 0 }

/-! ## The journal (R196–R198) -/

def ringSize : Nat := 524288

/-- The 32 bytes of an entry. -/
def JEnt.bytes (e : JEnt) : List Byte :=
  let b := leBytes 1 e.ty ++ leBytes 1 e.flags ++ leBytes 6 e.seq ++ leBytes 8 e.keyf ++ leBytes 8 e.value ++ leBytes 6 e.dseq
  b ++ leBytes 2 (crc16 b)

/-- Head and tail count to twice the ring's size, so that a full ring differs from an empty one. -/
def Dev.ringUsed (d : Dev) : Nat := (d.mram.ringHead + 2 * ringSize - d.mram.ringTail) % (2 * ringSize)

def Dev.showRing (d : Dev) : Dev :=
  let used := d.ringUsed
  let d := d.wr F.sflJrnStat_used used
  if ringSize * 3 / 4 ≤ used then d.raise Pg.sflReg Er.sflReg_jrnHigh else d

/-- Entries enter the ring while it has room; the head pointer covers what was written. -/
def Dev.ringPut (d : Dev) (es : List JEnt) : List JEnt × Dev :=
  let room := ringSize - d.ringUsed
  let now := es.take room
  let d := d.mramPut (4 * now.length + 1) fun m => { m with
    ring := ((List.range now.length).zip now).foldl (fun r e => Map.put r ((m.ringHead + e.1) % ringSize) e.2) m.ring,
    ringHead := (m.ringHead + now.length) % (2 * ringSize) }
  (es.drop room, d.showRing)

/-- An entry as made, with the next SEQ. -/
def Dev.jmake (d : Dev) (ty flags keyf value dseq : Nat) : JEnt × Dev :=
  let (q, d) := d.takeSeq
  (⟨ty, flags, q, keyf, value, dseq⟩, d)

/-- The buffer goes to MRAM: a WPTR entry for every OPEN row whose value has changed, the buffered entries, the head pointer. -/
def Dev.jflush (d : Dev) : Dev :=
  let changed := d.sfl.rows.filter (fun e => decide (e.2.st = .opened) && decide (e.2.wptr ≠ e.2.wptrJ))
  let (ws, d) := changed.foldl (fun (acc : List JEnt × Dev) e =>
    let (x, d) := acc.2.jmake 5 0 e.1 e.2.wptr 0
    (acc.1 ++ [x], d.onRow e.1 fun r => { r with wptrJ := r.wptr })) ([], d)
  let (left, d) := d.ringPut (ws ++ d.sfl.jbuf)
  d.onSfl fun s => { s with jbuf := left, lastFlush := d.now }

/-- An entry is made and buffered; at 512 buffered entries the journal is flushed at once. -/
def Dev.journal (d : Dev) (ty flags keyf value dseq : Nat) : Nat × Dev :=
  let (e, d) := d.jmake ty flags keyf value dseq
  let d := d.onSfl fun s => { s with jbuf := s.jbuf ++ [e] }
  (e.seq, if 512 ≤ d.sfl.jbuf.length then d.jflush else d)

/-- The entry with this SEQ is in MRAM. -/
def Dev.jIn (d : Dev) (seq : Nat) : Bool := !d.sfl.jbuf.any (fun e => e.seq == seq)

/-! ## The map (R170–R175) -/

def entFlash (pua : Nat) (enc : Bool) (key : Nat) : Nat :=
  1 * 2 ^ 61 + (if enc then 2 ^ 60 + key * 2 ^ 54 else 0) + pua
def entState (e : Nat) : Nat := e / 2 ^ 61
def entEnc (e : Nat) : Bool := e.testBit 60
def entKey (e : Nat) : Nat := e / 2 ^ 54 % 64
def entLoc (e : Nat) : Nat := e % 2 ^ 48
def entLost : Nat := 3 * 2 ^ 61
/-- The PUA a map entry points at, if it is FLASH. -/
def entPua (e : Nat) : Option Nat := if entState e = 1 then some (entLoc e % 2 ^ 39) else none
/-- A DISC entry: Shell catalogue index, disc, band-row, unit of the band-row (AD-8: the unit number, and 0), and the
encryption of the unit (R171, R275). -/
def entDisc (cat disc row u : Nat) (enc : Bool) (key : Nat) : Nat :=
  2 * 2 ^ 61 + (if enc then 2 ^ 60 + key * 2 ^ 54 else 0) + cat * 2 ^ 32 + disc * 2 ^ 28 + row * 4 + u
def locCat (loc : Nat) : Nat := loc / 2 ^ 32 % 65536
def locDisc (loc : Nat) : Nat := loc / 2 ^ 28 % 16
def locBrow (loc : Nat) : Nat := loc / 4 % 2 ^ 26
def locUnit (loc : Nat) : Nat := loc % 4

def mapPage (glu : Nat) : Nat := glu / 4096
/-- The entry of a GLU; those of a lost page read LOST (R187). -/
def Dev.mapEnt (d : Dev) (glu : Nat) : Nat := if d.sfl.lostPages.contains (mapPage glu) then entLost else Map.get 0 d.sfl.map glu

/-- The VALID count of the row that a FLASH entry points into changes by one (R169). -/
def Dev.validBy (d : Dev) (e : Nat) (up : Bool) : Dev :=
  match entPua e with
  | none => d
  | some pua =>
    let v := d.get64 F.sflValidLo F.sflValidHi
    let d := d.put64 F.sflValidLo F.sflValidHi (if up then v + 1 else v - 1)
    match d.rowOfPua pua with
    | some r => d.onRow r fun x => { x with valid := if up then x.valid + 1 else x.valid - 1 }
    | none => d

/-- The slot that holds page `p`. -/
def Dev.slotOfPage (d : Dev) (p : Nat) : Option Nat :=
  (List.range 8).map (fun w => 8 * (p % 4096) + w) |>.find? (fun s =>
    let x := Map.get MSlot.reset d.sfl.mctt s
    (x.valid || x.loading) && x.page == p)

def Dev.mslot (d : Dev) (s : Nat) : MSlot := Map.get MSlot.reset d.sfl.mctt s
def Dev.onMslot (d : Dev) (s : Nat) (f : MSlot → MSlot) : Dev :=
  d.onSfl fun x => { x with mctt := Map.modify MSlot.reset x.mctt s f }

/-- The 32 KiB area of a slot in the map cache: its buffer, and the byte at which it begins (R173). -/
def Dev.slotBuf (d : Dev) (s : Nat) : Option Nat := d.sfl.mapBufs[s / 2]?
def slotOfs (s : Nat) : Nat := s % 2 * 32768

/-- The map entry of a GLU becomes `e`, on its page in the cache too. -/
def Dev.mapSet (d : Dev) (glu e : Nat) : Dev :=
  let d := (d.validBy (d.mapEnt glu) false).validBy e true
  let d := d.onSfl fun s => { s with map := Map.set 0 s.map glu e }
  match d.slotOfPage (mapPage glu) with
  | some s => d.putTable (d.slotBuf s) (slotOfs s + 8 * (glu % 4096)) (leBytes 8 e)
  | none => d

def dirState (x : Nat) : Nat := x / 2 ^ 62
def dirVer (x : Nat) : Nat := x / 2 ^ 40 % 65536
def dirHalf (x : Nat) : Nat := x / 2 ^ 39 % 2
def dirPua (x : Nat) : Nat := x % 2 ^ 39
def mkDir (ver half pua : Nat) : Nat := 2 ^ 62 + ver % 65536 * 2 ^ 40 + half * 2 ^ 39 + pua
def Dev.dirEnt (d : Dev) (p : Nat) : Nat := Map.get 0 d.sfl.dir p
/-- The directory entry of a page becomes `e`, in the directory's buffers too (R172). -/
def Dev.dirSet (d : Dev) (p e : Nat) : Dev :=
  (d.onSfl fun s => { s with dir := Map.set 0 s.dir p e }).putTable d.sfl.dirBufs[p / 8192]? (8 * (p % 8192)) (leBytes 8 e)

/-- The bytes of a map page, from byte `base` on. -/
def pageData (m : Map Nat) (page base : Nat) : Map Byte :=
  (Map.window m (4096 * page) (4096 + 4096 * page)).foldl
    (fun acc e => Map.setRun 0 acc (base + 8 * (e.1 % 4096)) (leBytes 8 e.2)) []

/-- The entries that a map unit's half holds. -/
def pageEntries (u : FUnit) (half page : Nat) : Map Nat :=
  let bytes := bytesFrom u.data (32768 * half) 32768
  (List.range 4096).filterMap (fun i =>
    let v := fieldAt bytes (8 * i) 8
    if v = 0 then none else some (4096 * page + i, v))

/-! ## The Map Cache Tag Table (R173, R174) -/

def Dev.showMap (d : Dev) : Dev :=
  (d.wr F.sflMapStat_dirty (d.sfl.mctt.filter (fun e => e.2.dirty)).length).wr F.sflMapStat_pinned
    (d.sfl.mctt.filter (fun e => decide (0 < e.2.pin))).length

/-- The page is in the cache and loaded. -/
def Dev.pageIn (d : Dev) (p : Nat) : Bool :=
  match d.slotOfPage p with
  | some s => (d.mslot s).valid
  | none => false

/-- The way a miss takes: one that holds no page, else the lowest of the oldest, all ages rising until one is 3 (R148). -/
def Dev.mcttVictim (d : Dev) (p : Nat) : Option Nat :=
  let ways := (List.range 8).map (fun w => 8 * (p % 4096) + w)
  match ways.find? (fun s => !(d.mslot s).valid && !(d.mslot s).loading) with
  | some s => some s
  | none =>
    let open_ := ways.filter (fun s => decide ((d.mslot s).pin = 0) && !(d.mslot s).loading)
    let top := open_.foldl (fun n s => max n (d.mslot s).age) 0
    open_.find? (fun s => decide ((d.mslot s).age = top))

/-- The area of a slot takes the page's bytes; a line that already reads as zero is not written with zeros. -/
def Dev.slotFill (d : Dev) (s p : Nat) : Dev :=
  match d.slotBuf s with
  | none => d
  | some h =>
    let ls := pieces 64 512 (bytesFrom (pageData d.sfl.map p 0) 0 32768)
    ((List.range 512).zip ls).foldl (fun (d : Dev) x =>
      if x.2 = zeros 64 ∧ d.unwritten (handleAddr h + slotOfs s + 64 * x.1) then d
      else d.putTable (some h) (slotOfs s + 64 * x.1) x.2) d

/-- A lost page comes into the cache: its 4,096 entries stand as LOST. -/
def Dev.pageFound (d : Dev) (p : Nat) : Dev :=
  if d.sfl.lostPages.contains p then
    d.onSfl fun s => { s with
      lostPages := s.lostPages.filter (· != p)
      map := (List.range 4096).foldl (fun m i => Map.set 0 m (4096 * p + i) entLost) s.map }
  else d

/-- A lookup or update pins the slot of its page, and unpins it within the 64 fabric cycles of R174. -/
def Dev.pin (d : Dev) (s : Nat) : Dev := d.onMslot s fun x => { x with pin := min 7 (x.pin + 1) }
def Dev.unpin (d : Dev) (s : Nat) : Dev := (d.onMslot s fun x => { x with pin := x.pin - 1 }).showMap

/-- A miss: the victim's slot takes the page, zero-filled where the directory shows NONE, else its load starts. A dirty
victim must first be written back: the miss waits. -/
def Dev.mapMiss (d : Dev) (p : Nat) : Dev :=
  match d.mcttVictim p with
  | none => d
  | some s =>
    let v := d.mslot s
    if v.valid && v.dirty then d
    else
      let up := 3 - v.age
      let d := if !v.valid then d else (List.range 8).foldl (fun d w =>
        d.onMslot (8 * (p % 4096) + w) fun x => if x.valid || x.loading then { x with age := min 3 (x.age + up) } else x) d
      if dirState (d.dirEnt p) = 0 then
        ((d.onMslot s fun _ => { MSlot.reset with page := p, valid := true, age := 1 }).pageFound p).slotFill s p
      else
        let d := d.onMslot s fun _ => { MSlot.reset with page := p, loading := true, age := 1 }
        d.onSfl fun x => { x with reads := x.reads ++ [⟨dirPua (d.dirEnt p), .map p⟩] }

/-- A lookup of a page: a hit sets its age to 0; a miss starts a load. -/
def Dev.mapLook (d : Dev) (p : Nat) : Dev :=
  match d.slotOfPage p with
  | some s => if (d.mslot s).valid then ((d.pin s).onMslot s fun x => { x with age := 0 }).unpin s else d
  | none => d.mapMiss p

/-- An update of a page that is in the cache: its slot is dirty, since this tick if it was clean. -/
def Dev.mapDirty (d : Dev) (p seq : Nat) : Dev :=
  match d.slotOfPage p with
  | some s => (d.onMslot s fun x =>
      { x with dirty := true, since := if x.dirty then x.since else d.now, updSeq := seq, age := 0 })
  | none => d

/-- The MAP update of a GLU: entry, journal, dirty page. Answers the SEQ of the journal entry. -/
def Dev.mapUpdate (d : Dev) (glu e flags dseq : Nat) : Nat × Dev :=
  let (q, d) := d.journal 1 flags glu e dseq
  match d.slotOfPage (mapPage glu) with
  | some s => (q, (((d.pin s).mapSet glu e).mapDirty (mapPage glu) q).unpin s)
  | none => (q, d.mapSet glu e)

/-! ## Volumes and sets (R170, R215) -/

def Dev.volHas (d : Dev) (v p : Nat) : Bool :=
  decide (0 < d.rd (F.sflVolSize v)) && decide (d.rd (F.sflVolBase v) ≤ p) &&
    decide (p < d.rd (F.sflVolBase v) + d.rd (F.sflVolSize v))
/-- The index v − 1 of the volume that covers a map page. -/
def Dev.volOfPage (d : Dev) (p : Nat) : Option Nat := (List.range 64).find? (fun v => d.volHas v p)
def Dev.volBinds (d : Dev) (s v : Nat) : Bool := (d.rd (F.parSetVolLo s) + d.rd (F.parSetVolHi s) * 2 ^ 32).testBit v
/-- The set a volume is bound to. -/
def Dev.setOfVol (d : Dev) (v : Nat) : Option Nat := (List.range 8).find? (fun s => d.setOn s && d.volBinds s v)
def Dev.sysSet (d : Dev) : Option Nat := let s := d.rd F.parRegCfg; if d.setOn s then some s else none
/-- The set that a GLU's copies, and its map page, are written to. -/
def Dev.setOfPage (d : Dev) (p : Nat) : Option Nat :=
  match d.volOfPage p with
  | some v => d.setOfVol v
  | none => d.sysSet

/-- The append points of a volume as its page shows them (R182, R209). -/
def Dev.showAppend (d : Dev) (v : Nat) : Dev :=
  (d.put64 (F.sflVolAppendLo v) (F.sflVolAppendHi v) (Map.get 0 d.sfl.append v)).wr (F.sflVolIdxNext v) (Map.get 0 d.sfl.idxNext v)

/-! ## Keys (R204–R206) -/

/-- The key in force of a slot: one loaded or cleared in this tick takes effect at the next boundary (R479). The identifier 0 means it
is empty. -/
def Dev.keySlot (d : Dev) (k : Nat) : KeySlot :=
  ((Map.find d.plat.keysWere k).getD (Map.find d.mram.keys k)).getD ⟨0, zeros 32, zeros 32⟩
def Dev.keyId (d : Dev) (k : Nat) : Nat :=
  match Map.find d.plat.keysWere k with
  | some was => (was.map (·.id)).getD 0
  | none => d.rd (F.sflAesKeyid k)

/-- One unit through the engines, 16 logical blocks of 4,096 bytes, each under its own tweak; the unit starts at block
`lba` of volume `vol`. -/
def Dev.cipherUnit (d : Dev) (enc : Bool) (key vol lba : Nat) (m : Map Byte) : Map Byte :=
  let k := d.keySlot key
  ((List.range 16).map (fun j =>
    mapOfBytes (4096 * j) (xts enc k.key1 k.key2 (xtsTweak vol (lba + j)) (bytesFrom m (4096 * j) 4096)))).flatten

/-- Volume number and first block of a GLU, as the tweak names them; 0 and the GLU's blocks where no volume covers it. -/
def Dev.gluPlace (d : Dev) (glu : Nat) : Nat × Nat :=
  match d.volOfPage (mapPage glu) with
  | some v => (v + 1, 16 * (glu - 4096 * d.rd (F.sflVolBase v)))
  | none => (1, 16 * glu)

/-- What a reader gets of a unit: plain bytes and the Hollow map, or all Hollow where the key is missing or another (R206). -/
def Dev.plain (d : Dev) (glu : Nat) (u : FUnit) : Map Byte × Nat × Dev :=
  if !u.tag.enc then (u.data, u.tag.hollowMap, d)
  else if d.keyId u.tag.key = 0 ∨ d.injected Pg.sflReg Er.sflReg_keyMissing then
    ([], 0xFFFF, ((d.takeInjected Pg.sflReg Er.sflReg_keyMissing).raise Pg.sflReg Er.sflReg_keyMissing glu).count (F.sflAesCnt 2))
  else if d.keyId u.tag.key % 65536 ≠ u.tag.keyId ∨ d.injected Pg.sflReg Er.sflReg_keyMismatch then
    ([], 0xFFFF, ((d.takeInjected Pg.sflReg Er.sflReg_keyMismatch).raise Pg.sflReg Er.sflReg_keyMismatch glu).count (F.sflAesCnt 3))
  else
    let (v, lba) := d.gluPlace glu
    (d.cipherUnit false u.tag.key v lba u.data, u.tag.hollowMap, d.countN (F.sflAesCnt 1) 16)

/-! ## The stripe journal on the die (R222–R224) -/

/-- The 64 bytes of a slot. -/
def Slot.bytes (n : Nat) (s : Slot) : List Byte :=
  let b := leBytes 1 s.ty ++ leBytes 1 s.set ++ leBytes 2 n ++ leBytes 4 s.row ++ leBytes 4 s.stripe ++ leBytes 4 s.mask ++
    leBytes 6 s.seq ++ padTo 36 s.body ++ zeros 2
  b ++ leBytes 4 (crc32c b)

def Dev.sjSlot (d : Dev) (n : Nat) : Slot := Map.get Slot.free d.par.slots n
def Dev.sjShow (d : Dev) : Dev := d.wr F.parSjStat_used d.par.slots.length

/-! The banks (R222, R226). -/

def Dev.bankOk (d : Dev) (b : Nat) : Bool := if b = 0 then d.flag F.parSjStat_bankA else d.flag F.parSjStat_bankB

/-- A bank fails until chip reset: BANK_FAIL, and SHADOW_ONLY when the other has failed too. -/
def Dev.bankFail (d : Dev) (b : Nat) : Dev :=
  let d := if b = 0 then d.wrB F.parSjStat_bankA false else d.wrB F.parSjStat_bankB false
  let d := d.raise Pg.parSj Er.parSj_bankFail b
  if d.bankOk 0 || d.bankOk 1 then d else d.raise Pg.parSj Er.parSj_shadowOnly

/-- The buffered slot writes go to bank A, then to bank B, each verified; `badA` and `badB` say that a write did not verify. -/
def Dev.sjFlush (d : Dev) (badA badB : Bool) : Dev :=
  if d.par.pending.isEmpty then d
  else
    let ws := d.par.pending
    let inj := d.injected Pg.parSj Er.parSj_bankFail
    let d := d.takeInjected Pg.parSj Er.parSj_bankFail
    let d := if d.bankOk 0 then
        (if badA || inj then d.bankFail 0
         else d.mramPut (8 * ws.length) fun m => { m with bankA := ws.foldl (fun b e => Map.put b e.1 e.2) m.bankA })
      else d
    let d := if d.bankOk 1 then
        (if badB then d.bankFail 1
         else d.mramPut (8 * ws.length) fun m => { m with bankB := ws.foldl (fun b e => Map.put b e.1 e.2) m.bankB })
      else d
    if d.bankOk 0 || d.bankOk 1 then d.onPar fun p => { p with pending := [] } else d

/-- A slot image is written: the die's copy, the buffer to the banks, and the shadow's pending images; at 64 buffered writes they go to the
banks. -/
def Dev.sjPut (d : Dev) (n : Nat) (s : Slot) : Dev :=
  let (q, d) := d.takeSeq
  let s := if s.ty = 0 then Slot.free else { s with seq := q }
  let d := (d.onPar fun p => { p with
    slots := Map.set Slot.free p.slots n s,
    pending := p.pending.filter (fun e => e.1 != n) ++ [(n, { s with seq := q })],
    shadow := p.shadow.map fun h => { h with pending := h.pending ++ [(n, { s with seq := q })] } }).sjShow
  d.when (decide (64 ≤ d.par.pending.length)) (·.sjFlush false false)

/-- The lowest free slot; none where all 65,536 are in use. -/
def Dev.sjFree (d : Dev) : Option Nat :=
  if 65536 ≤ d.par.slots.length then none
  else (List.range (d.par.slots.length + 1)).find? (fun n => decide ((d.sjSlot n).ty = 0))

def Dev.sjClear (d : Dev) (n : Nat) : Dev := d.sjPut n Slot.free

/-- A slot's last image is in both banks that are in service. -/
def Dev.sjIn (d : Dev) (n : Nat) : Bool := !d.par.pending.any (fun e => e.1 == n)

/-- A slot is taken for a record, or SJ_FULL is raised and none is. -/
def Dev.sjNew (d : Dev) (s : Slot) : Option Nat × Dev :=
  match d.sjFree with
  | some n => (some n, d.sjPut n s)
  | none => (none, d.raise Pg.parSj Er.parSj_sjFull)

end Sys2Proof.Machine
end

