-- ==== Sys2Proof/Machine/FlashWork.lean ====
section
/-! DEFINITION. The map engine at work (R174, R175, R178–R184, R187, R192, R194, R195, R199, R212–R220): rows opened, units
placed and programmed, stripes covered, map pages written, and the jobs that write logical units. -/
namespace Sys2Proof.Machine
open Sys2Proof

/-- The flash side takes work: READY, or REBUILD for its own checkpoint, and no power failure (R200, R202). -/
def Dev.flashRuns (d : Dev) : Bool :=
  (decide (d.rd F.sflStat = 2) || decide (d.rd F.sflStat = 1)) && !d.sfl.frozen
def Dev.flashReady (d : Dev) : Bool := decide (d.rd F.sflStat = 2) && !d.sfl.frozen

/-! ## Rows (R168, R178, R184, R192, R194) -/

def Dev.openRow (d : Dev) (s role : Nat) : Option Nat :=
  (d.sfl.rows.find? (fun e => decide (rowSet e.1 = s) && decide (e.2.st = .opened) && decide (e.2.role = role))).map (·.1)

/-- A host or capture writer leaves RESERVE rows; GC and the system role may use them (R184). -/
def Dev.mayOpen (d : Dev) (s role : Nat) : Bool :=
  decide (2 ≤ role) || decide (d.rd F.sflGcCfg_reserve < (d.freeRows s).length)

/-- The next row of a role is opened: ROW_OPEN is journaled; no program starts until it is in MRAM. -/
def Dev.openNew (d : Dev) (s role : Nat) : Option Nat × Dev :=
  if !d.mayOpen s role then (none, d)
  else match d.bestFree s with
    | none => (none, d)
    | some r =>
      let out := d.leftOut s (rowCe r) (rowLun r) (rowBlock r)
      let d := d.onRow r fun e => { e with bad := out }
      let temp := unsgn 8 (d.lunTemp ((d.positions r).getD 0 0) (rowCe r) (rowLun r))
      let time := d.rd F.sflTime
      let (q, d) := d.journal 3 0 r (time * 2 ^ 32 + role * 256 + temp) 0
      let d := d.onRow r fun e => { e with
        st := .opened, role := role, temp := temp, wtime := time, valid := 0, wptr := 0, openSeq := q, f1 := 0, wptrJ := 0, next := 0 }
      (some r, if role = 2 then d.wr F.sflGcDst r else d)

/-- A row is closed: ROW_CLOSE is journaled (R168). -/
def Dev.closeRow (d : Dev) (r : Nat) : Dev :=
  if (d.rowEnt r).st = .opened then
    ((d.onRow r fun e => { e with st := .closed }).journal 4 0 r (d.rowEnt r).next 0).2
  else d

/-- A row leaves CLOSED for SOURCE: GC_SOURCE is journaled (R168). -/
def Dev.sourceRow (d : Dev) (r : Nat) : Dev :=
  if (d.rowEnt r).st = .closed then ((d.onRow r fun e => { e with st := .source }).journal 6 0 r 0 0).2 else d

/-! ## Stripes (R217–R220) -/

def Dev.stripeOf (d : Dev) (r k : Nat) : Option Stripe := d.sfl.stripes.find? (fun x => x.row == r && x.k == k)
def Dev.onStripe (d : Dev) (r k : Nat) (f : Stripe → Stripe) : Dev :=
  d.onSfl fun s => { s with stripes := s.stripes.map (fun x => if x.row = r ∧ x.k = k then f x else x) }
def Dev.dropStripe (d : Dev) (r k : Nat) : Dev :=
  d.onSfl fun s => { s with stripes := s.stripes.filter (fun x => !(x.row == r && x.k == k)) }

/-- A program may start: the row's ROW_OPEN is in MRAM and the stripe's slot is in both banks (R168, R218, R222). -/
def Dev.mayStart (d : Dev) (pua : Nat) : Bool :=
  match d.sfl.progs.find? (fun p => p.pua == pua) with
  | none => false
  | some p =>
    let r := p.unit.tag.row
    d.jIn (d.rowEnt r).openSeq &&
      (match d.stripeOf r (puaUnit pua) with
       | some x => d.sjIn x.slot
       | none => false)

/-- A unit takes the place `pua`: its tag is completed, MAP_VER of a logical unit's with the VER of its map page, and the program is in flight
(R176). -/
def Dev.startProg (d : Dev) (r pua : Nat) (u : FUnit) (why : ProgFor) : Nat × Dev :=
  let (q, d) := d.takeSeq
  let e := d.rowEnt r
  let t := { u.tag with
    seq := q, row := r, erases := e.erases, wtime := d.rd F.sflTime
    mapVer := if u.tag.ty = 1 ∧ u.tag.unit ≠ 2 ^ 64 - 1 then dirVer (d.dirEnt (mapPage u.tag.unit)) else u.tag.mapVer
    temp := unsgn 8 (d.lunTemp (puaCh pua) (puaCe pua) (puaLun pua)) }
  (q, d.onSfl fun s => { s with progs := s.progs ++ [⟨pua, ⟨t, u.data⟩, why⟩] })

/-! ## Unit buffers (R32, R33, R114, R218) -/

/-- A request of owner `o` for a buffer would be granted now. -/
def Dev.canGrant (d : Dev) (o cls : Nat) : Bool :=
  d.quotaAllows o cls && !d.bpm.fenced.contains o && (d.grantStack (d.ownerPool o) o).isSome

/-- `k` buffers of an owner, or none of them: what needs them waits. -/
def Dev.grantAll (d : Dev) (o cls k : Nat) : Option (List Nat) × Dev :=
  let (hs, d) := d.grantMany o cls k
  if hs.length = k then (some hs, d) else (none, hs.foldl (fun (d : Dev) h => d.freeBuf o h) d)

/-- A unit's bytes are written into a buffer by its owner in region `reg`, the lines of a marked 4 KiB block with the Hollow mark; a line that
already reads as zero is not written with zeros. -/
def Dev.bufFill (d : Dev) (o reg h : Nat) (m : Map Byte) (hollow : Nat) (cls : Nat) : Dev :=
  ((List.range 1024).zip (pieces 64 1024 (bytesFrom m 0 unitBytes))).foldl (fun (d : Dev) x =>
    let a := handleAddr h + 64 * x.1
    let mark := hollow.testBit (x.1 / 64)
    if x.2 = zeros 64 ∧ !mark ∧ d.unwritten a then d else d.writeNow ⟨a, x.2, mark, cls, 0, some ⟨h, o, reg⟩, .good⟩) d

/-- The bytes `ofs … ofs+len-1` of a buffer as its owner reads them line by line, with the 4 KiB blocks that hold a Hollow line. -/
def Dev.bufTake (d : Dev) (o reg h ofs len : Nat) : Map Byte × Nat × Dev :=
  let (ls, d) := (List.range (len / 64)).foldl (fun (acc : List (Nat × Delivered) × Dev) i =>
    let at_ := ofs + 64 * i
    let (x, d) := acc.2.readLine { cleanRead (handleAddr h + at_) with by_ := some ⟨h, o, reg⟩ }
    ((at_, x) :: acc.1, d)) ([], d)
  (ls.foldl (fun m l => mapOfBytes l.1 l.2.data ++ m) [], ls.foldl (fun n l => if l.2.hollow then setBit n (l.1 / 4096) true else n) 0, d)

/-- A unit enters an accumulator of its stripe, times `c`, or leaves it again: the lines that hold none of its bytes stay. -/
def Dev.accAdd (d : Dev) (h c : Nat) (m : Map Byte) (cls : Nat) : Dev :=
  (uniq (m.map (fun e => e.1 / 64))).foldl (fun (d : Dev) i =>
    let (x, d) := d.readLine { cleanRead (handleAddr h + 64 * i) with by_ := some ⟨h, 35, 7⟩ }
    let add := (bytesFrom m (64 * i) 64).map (fun b => w8 (gfMul c b.toNat))
    d.writeNow ⟨handleAddr h + 64 * i, (x.data.zip add).map (fun e => e.1 ^^^ e.2), false, cls, 0, some ⟨h, 35, 7⟩, .good⟩) d

/-- The class of the work of a role (R22): capture 1, host and system 2, GC 3. -/
def roleClass : Nat → Nat
  | 1 => 1
  | 2 => 3
  | _ => 2

/-- A data unit enters the P and Q accumulators of its stripe as it is read for programming, or leaves them where it fails (R218, R220). -/
def Dev.stripeAdd (d : Dev) (r k pos : Nat) (m : Map Byte) : Dev :=
  match d.stripeOf r k, d.roleAt r k pos with
  | some x, .data i =>
    let cls := roleClass (d.rowEnt r).role
    ((List.range 2).zip x.acc).foldl (fun (d : Dev) a => d.accAdd a.2 (if a.1 = 0 then 1 else gfAlpha i) m cls) d
  | _, _ => d

/-- The accumulators of a new stripe, buffers of owner 35, or none: the stripe then waits until they can be granted. DESIGN CHOICE: it waits too
while all sixteen stripe engines are fenced (log entry 94). -/
def Dev.newAcc (d : Dev) (s cls : Nat) : Option (List Nat) × Dev :=
  if maskCount (d.cellsOut F.parEngFenced .stripe 16) = 16 ∨ (d.sfl.parWait ∧ !d.canGrant 35 cls) then (none, d)
  else
    let (hs, d) := d.grantAll 35 cls (d.nPar s)
    (hs, d.onSfl fun x => { x with parWait := hs.isNone })

/-- The next place of a role's row in a set: the lowest stripe with a data position left, or a new stripe with its
OPEN_STRIPE slot; nothing where the writer must wait. -/
def Dev.nextPlace (d : Dev) (s role : Nat) : Option (Nat × Nat × Nat) × Dev :=
  let (row, d) := match d.openRow s role with
    | some r => (some r, d)
    | none => d.openNew s role
  match row with
  | none => (none, d)
  | some r =>
    match (d.sfl.stripes.filter (fun x => x.row == r && !x.parity && !x.dead)).findSome?
        (fun x => ((d.dataPositions r x.k).find? (fun p => !x.placed.testBit p)).map (fun p => (x.k, p))) with
    | some (k, p) => (some (r, k, p), d)
    | none =>
      let k := (d.rowEnt r).next
      if d.rowStripes r ≤ k then (none, d)
      else
        let (acc, d) := d.newAcc s (roleClass role)
        match acc with
        | none => (none, d)
        | some hs =>
          let mask := (d.dataPositions r k).foldl (fun n p => n + 2 ^ p) 0
          let (slot, d) := d.sjNew ⟨1, s, r, k, mask, 0, leBytes 4 d.now⟩
          match slot with
          | none => (none, hs.foldl (fun (d : Dev) h => d.freeBuf 35 h) d)
          | some n =>
            let d := d.onRow r fun e => { e with next := k + 1 }
            let d := d.onSfl fun x => { x with stripes := x.stripes ++ [⟨r, k, n, d.now, 0, 0, 0, false, false, hs⟩] }
            ((d.dataPositions r k).head?.map (fun p => (r, k, p)), d)

/-- A unit takes a data position of its stripe: it enters the accumulators, and its program is in flight. Answers the PUA and the SEQ. -/
def Dev.placeAt (d : Dev) (r k p : Nat) (u : FUnit) (why : ProgFor) : Nat × Nat × Dev :=
  let pua := d.puaAt r k p
  let d := (d.onStripe r k fun x => { x with placed := setBit x.placed p true }).stripeAdd r k p u.data
  let (q, d) := d.startProg r pua u why
  (pua, q, d)

/-- A unit is placed at the next data position of its role's row. -/
def Dev.place (d : Dev) (s role : Nat) (u : FUnit) (why : ProgFor) : Option (Nat × Nat) × Dev :=
  let (at_, d) := d.nextPlace s role
  match at_ with
  | none => (none, d)
  | some (r, k, p) =>
    let (pua, q, d) := d.placeAt r k p u why
    (some (pua, q), d)

/-- A pad unit (R219). -/
def padUnit : FUnit := ⟨{ Tag.none with ty := 1, unit := 2 ^ 64 - 1 }, []⟩

/-- The data positions still unfilled take pads (R218). -/
def Dev.padStripe (d : Dev) (r k : Nat) : Dev :=
  match d.stripeOf r k with
  | none => d
  | some x =>
    if x.parity || x.dead || d.sfl.frozen then d
    else
      ((d.dataPositions r k).filter (fun p => !x.placed.testBit p)).foldl (fun d p =>
        let d := d.onStripe r k fun y => { y with placed := setBit y.placed p true }
        ((d.startProg r (d.puaAt r k p) padUnit .pad).2.count (F.parCnt 1)).count (F.parSetCnt (rowSet r) 3)) d

/-- The data units of a stripe that were programmed, with their data indexes. -/
def Dev.stripeData (d : Dev) (r k : Nat) : List (Nat × Nat × FUnit) :=
  let ps := d.dataPositions r k
  ((List.range ps.length).zip ps).filterMap (fun e =>
    (Map.find d.sfl.units (d.puaAt r k e.2)).map (fun u => (e.1, e.2, u)))

/-- The parity unit of position `e.2.1`, P (0) or Q (1) as `e.1` says, starts from its accumulator, which goes to owner 34 (R33, R218). -/
def Dev.parityProg (d : Dev) (r k hol : Nat) (e : Nat × Nat × Nat) : Dev :=
  let t := (d.bpmTransfer 35 (.handle e.2.2) 34).2.bufTake 34 6 e.2.2 0 unitBytes
  (t.2.2.startProg r (t.2.2.puaAt r k e.2.1) ⟨{ Tag.none with ty := 4 + e.1, unit := k, hollowMap := hol ||| t.2.1 }, t.1⟩ .parity).2

/-- Once every data position has passed or failed, the parity programs start: the accumulators hold the data that passed
(R218, R220). From the acceptance of PWRFAIL_N on no program starts (R202). -/
def Dev.startParity (d : Dev) (r k : Nat) : Dev :=
  match d.stripeOf r k with
  | none => d
  | some x =>
    if x.parity || x.dead || d.sfl.frozen || !(d.dataPositions r k).all (fun p => x.passed.testBit p || x.failed.testBit p) then d
    else
      let hol := ((d.stripeData r k).filter (fun e => x.passed.testBit e.2.1)).foldl (fun n e => n ||| e.2.2.tag.hollowMap) 0
      let d := d.onStripe r k fun y => { y with parity := true }
      (((List.range 2).zip ((d.parityPositions r k).zip x.acc)).filter (fun e => !x.failed.testBit e.2.1)).foldl
        (fun (d : Dev) e => d.parityProg r k hol e) d

/-- A stripe ends: its accumulators are freed. -/
def Dev.freeAcc (d : Dev) (r k : Nat) : Dev :=
  match d.stripeOf r k with
  | none => d
  | some x => (x.acc.foldl (fun (d : Dev) h => d.freeBuf (d.bufEnt (handleIndex h)).owner h) d).onStripe r k fun y => { y with acc := [] }

/-- WPTR is the lowest stripe that is not covered. -/
def Dev.showWptr (d : Dev) (r : Nat) : Dev :=
  let low := (d.sfl.stripes.filter (fun x => x.row == r)).foldl (fun n x => min n x.k) (d.rowEnt r).next
  let d := d.onRow r fun e => { e with wptr := low }
  if (d.rowEnt r).st = .opened ∧ d.rowStripes r ≤ (d.rowEnt r).next ∧ !d.sfl.stripes.any (fun x => x.row == r)
  then d.closeRow r else d

/-! ## Copies written again -/

/-- A job enters the list. -/
def Dev.addJob (d : Dev) (j : Job) : Nat × Dev :=
  let id := d.sfl.nextJob
  (id, d.onSfl fun s => { s with jobs := s.jobs ++ [{ j with id := id }], nextJob := id + 1 })

def Dev.onJob (d : Dev) (id : Nat) (f : Job → Job) : Dev :=
  d.onSfl fun s => { s with jobs := s.jobs.map (fun j => if j.id = id then f j else j) }

/-- A job at its start, before it is told what it writes. -/
def newJob (why : JobFor) (glu role : Nat) : Job where
  id := 0
  why := why
  glu := glu
  role := role
  ofs := 0
  len := 0
  data := []
  hollow := 0
  xor := false
  enc := false
  key := 0
  stream := 0xFF
  ready := none
  src := none
  st := .lock
  buf := none
  full := false
  refused := false
  low := false

/-- A job that moves a whole unit as it lies. -/
def copyJob (why : JobFor) (glu role src : Nat) (ready : Option FUnit) : Job :=
  { newJob why glu role with len := unitBytes, ready := ready, src := some src }

/-- The PUA a job's copy stands at, or is being programmed at. -/
def Job.pua (j : Job) : Option Nat :=
  match j.st with
  | .programming p => some p
  | .update p _ => some p
  | .settled p _ => p
  | _ => none

/-- A checkpoint starts where none runs and the flash side takes work (R199): it takes SEQ C; fresh entries of every row and volume still
active are journaled, the first of which is the tail; the pages dirty now are to be written. -/
def Dev.ckptStart (d : Dev) : Dev :=
  if d.sfl.ckpt.isSome || !d.flashRuns then d
  else
    let d := d.jflush
    let (c, d) := d.takeSeq
    let num := (d.mram.roots.foldl (fun n r => max n r.num) 0) + 1
    let tail := d.mram.ringHead
    let d := d.sfl.rows.foldl (fun d e =>
      let d := if e.2.st = .opened then
          let d := (d.journal 3 0 e.1 (e.2.wtime * 2 ^ 32 + e.2.role * 256 + e.2.temp) 0).2
          (d.journal 5 0 e.1 e.2.wptr 0).2
        else d
      if e.2.st = .source then (d.journal 6 0 e.1 0 0).2 else d) d
    let d := d.sfl.append.foldl (fun d e => (d.journal 10 0 e.1 e.2 (Map.get 0 d.sfl.idxNext e.1)).2) d
    let old := (d.sfl.mctt.filter (fun e => e.2.dirty)).map (fun e => e.2.page)
    (d.onSfl fun s => { s with ckpt := some ⟨num, c, [], false, tail, old⟩ }).wrB F.sflJrnStat_ckpt true

/-- Map pages are to be written again, and the parts of a checkpoint that lie at `p` to be placed again; those of the last root by a new
checkpoint. -/
def Dev.rewriteSys (d : Dev) (p : Nat) (t : Tag) : Dev :=
  if t.ty = 2 then
    let mine := [t.unit % 2 ^ 32, t.unit / 2 ^ 32].filter (fun q => dirState (d.dirEnt q) == 1 && dirPua (d.dirEnt q) == p)
    d.onSfl fun s => { s with remap := s.remap ++ mine.filter (fun q => !s.remap.contains q) }
  else if t.ty = 3 ∨ t.ty = 6 then
    let d := d.onSfl fun s => { s with ckpt := s.ckpt.map (fun (c : Ckpt) => { c with parts := c.parts.filter (fun e => e.2 != p) }) }
    if d.mram.roots.getLast?.any (fun r => r.parts.contains p) then d.ckptStart else d
  else d

/-- The copies in the PUAs that `at_` names are written again (R192, R220): a job whose buffer still holds the unit programs it again; a copy
that a source row made comes again from where it stands; a unit that no job holds is read. `failed` is the copy whose program did not pass: no
entry points at it. -/
def Dev.rewrite (d : Dev) (at_ : Nat → Bool) (failed : Option Nat) : Dev :=
  let held := d.sfl.jobs.filter (fun j => match j.pua with
    | some p => at_ p
    | none => false)
  let d := held.foldl (fun d j => d.onJob j.id fun j =>
    match j.st with
    | .settled p _ => { j with st := .lock, src := p }
    | _ => { j with st := .space }) d
  let heldPuas := held.filterMap Job.pua
  let lone := d.sfl.units.filter (fun e => at_ e.1 && some e.1 != failed && !heldPuas.contains e.1)
  lone.foldl (fun d e =>
    if e.2.tag.ty = 1 then
      if entPua (d.mapEnt e.2.tag.unit) = some e.1
      then (d.addJob (copyJob .rewrite e.2.tag.unit (d.rowEnt e.2.tag.row).role e.1 none)).2 else d
    else d.rewriteSys e.1 e.2.tag) d

/-- A LOST slot with cause 3 for a stripe that lost a position through a program failure (R220, R224). -/
def Dev.lostSlot (d : Dev) (set ch ce lun cause row stripe pos : Nat) : Dev :=
  (d.sjNew ⟨2, set, row, stripe, 2 ^ pos, 0, leBytes 1 ch ++ leBytes 1 ce ++ leBytes 1 lun ++ leBytes 1 cause⟩).2

/-- All parity programs of a stripe ended: it is covered, or its data is written again (R218, R220). -/
def Dev.endStripe (d : Dev) (r k : Nat) : Dev :=
  match d.stripeOf r k with
  | none => d
  | some x =>
    let pars := d.parityPositions r k
    if !x.parity || x.dead || !pars.all (fun p => x.passed.testBit p || x.failed.testBit p) then d
    else
      let passed := (pars.filter x.passed.testBit).length
      let lost := ((d.dataPositions r k).filter x.failed.testBit).length
      if 1 ≤ passed ∧ lost < passed then
        (((d.freeAcc r k).dropStripe r k).sjClear x.slot).count (F.parCnt 0) |>.showWptr r
      else
        let d := (d.freeAcc r k).onStripe r k fun y => { y with dead := true }
        let d := ((d.count (F.parCnt 3)).count (F.parSetCnt (rowSet r) 4)).raise (Pg.parSet (rowSet r)) Er.parSet_uncovered r
        d.rewrite (fun p => blockKey p == blockKey (mkPua (puaCh p) (rowCe r) (rowLun r) (rowBlock r) 0) &&
          puaUnit p == k && (d.positions r).contains (puaCh p)) none

/-- A stripe that ended uncovered is let go once no map entry points into it. -/
def Dev.dropDead (d : Dev) : Dev :=
  (d.sfl.stripes.filter (·.dead)).foldl (fun d x =>
    let live := (d.stripeData x.row x.k).any (fun e =>
      let p := d.puaAt x.row x.k e.2.1
      (e.2.2.tag.ty == 1 && entPua (d.mapEnt e.2.2.tag.unit) == some p) ||
        (e.2.2.tag.ty == 2 && d.sfl.dir.any (fun m => dirState m.2 == 1 && dirPua m.2 == p)))
    let busy := d.sfl.jobs.any (fun j => match j.src with
      | some p => puaUnit p == x.k && blockKey p == blockKey (mkPua (puaCh p) (rowCe x.row) (rowLun x.row) (rowBlock x.row) 0)
      | none => false)
    if live || busy then d else ((d.dropStripe x.row x.k).sjClear x.slot).showWptr x.row) d

/-! ## Map units (R175) -/

def absent : Nat := 0xFFFFFFFF

/-- A write of the system role, named by `key`, finds no row: it waits, SPACE_LOW is raised and the wait counted once (R184, R209); or it waits
no more. -/
def Dev.sysWaits (d : Dev) (key s : Nat) : Dev :=
  if d.sfl.low.contains key ∨ (d.openRow s 3).isSome ∨ (d.bestFree s).isSome then d
  else ((d.onSfl fun x => { x with low := x.low ++ [key] }).raise Pg.sflReg Er.sflReg_spaceLow s).count (F.sflCnt 11)
def Dev.sysFound (d : Dev) (key : Nat) : Dev := d.onSfl fun x => { x with low := x.low.filter (· != key) }

/-- A map unit with page `a` and, where given, page `b`, in a system row of the set that takes page `a`. -/
def Dev.mapWrite (d : Dev) (a b : Nat) : Dev :=
  match d.setOfPage a with
  | none => d.raise Pg.parReg Er.parReg_noSet a
  | some s =>
    let ver (p : Nat) : Nat := if p = absent then 0 else (dirVer (d.dirEnt p) + 1) % 65536
    let data := pageData d.sfl.map a 0 ++ (if b = absent then [] else pageData d.sfl.map b 32768)
    let t := { Tag.none with ty := 2, unit := a + b * 2 ^ 32, mapVer := ver a, mapVerB := ver b }
    let w := d.sfl.seq
    let (at_, d) := d.place s 3 ⟨t, data⟩ (.map a b w)
    match at_ with
    | none => d.sysWaits a s
    | some (pua, q) =>
      let d := (d.sysFound a).onSfl fun x => { x with progs := x.progs.map (fun p => if p.pua = pua then { p with why := .map a b q } else p) }
      [a, b].foldl (fun d p => match d.slotOfPage p with
        | some n => if p = absent then d else d.onMslot n fun x => { x with writing := true }
        | none => d) d

/-- Dirty pages that no map unit is being written for, oldest first. -/
def Dev.dirtyPages (d : Dev) : List MSlot :=
  ((d.sfl.mctt.map (·.2)).filter (fun x => x.valid && x.dirty && !x.writing)).mergeSort (fun a b => decide (a.since ≤ b.since))

/-- The dirty page that is written in one map unit with page `p`: the oldest that goes to the same set. -/
def Dev.partner (d : Dev) (p : Nat) : Option Nat :=
  ((d.dirtyPages).find? (fun y => y.page != p && d.setOfPage y.page == d.setOfPage p)).map (·.page)

/-- A page that must be written now goes with a dirty partner, or, where there is none, with an absent half: at once, not after PAIR_WAIT, where
a checkpoint, a victim or a source row needs it (log entry 95). -/
def Dev.mapWriteOut (d : Dev) (p : Nat) : Dev := d.mapWrite p ((d.partner p).getD absent)

/-- Dirty pages that go to one set are written in pairs. -/
def Dev.pairPages (d : Dev) : Dev :=
  (d.dirtyPages).foldl (fun d x =>
    if !d.dirtyPages.any (·.page == x.page) then d
    else match d.partner x.page with
      | some y => d.mapWrite x.page y
      | none => d) d

/-- The system-row unit that a directory entry names is mapped once more, or once less. -/
def Dev.dirValid (d : Dev) (x : Nat) (up : Bool) : Dev :=
  if dirState x = 0 then d
  else match d.rowOfPua (dirPua x) with
    | some r => d.onRow r fun e => { e with valid := if up then e.valid + 1 else e.valid - 1 }
    | none => d

/-- A page's new copy stands in a map unit: VER, the DIR entry, and the slot clean unless updated since W. -/
def Dev.mapWritten (d : Dev) (p half pua w : Nat) : Dev :=
  if p = absent then d
  else
    let x := d.dirEnt p
    let e := mkDir (dirVer x + 1) half pua
    let from_ := if dirState x = 1 then d.rowOfPua (dirPua x) else none
    let d := ((d.dirValid x false).dirValid e true).dirSet p e
    let (q, d) := d.journal 2 0 p e w
    let d := (d.count (F.sflCnt 10)).onSfl fun s => { s with
      remap := s.remap.filter (· != p)
      ckpt := s.ckpt.map (fun (c : Ckpt) => if newer w c.c then { c with old := c.old.filter (· != p) } else c)
      outs := match from_ with
        | some r => if (d.rowEnt r).st = .source then s.outs ++ [(r, pua, q)] else s.outs
        | none => s.outs }
    match d.slotOfPage p with
    | some n => (d.onMslot n fun x => { x with writing := false, dirty := x.dirty && newer x.updSeq w }).showMap
    | none => d

/-! ## Jobs (R180–R183, R190) -/

/-- A job holds its GLU's lock. -/
def Job.holds (j : Job) : Bool :=
  match j.st with
  | .lock | .settled _ _ => false
  | _ => true

/-- The lock of the job's GLU is free for it: nobody holds it and nobody asked before. -/
def Dev.lockFree (d : Dev) (j : Job) : Bool :=
  !d.sfl.jobs.any (fun x => x.glu == j.glu && x.id != j.id &&
    (x.holds || (decide (x.st = .lock) && decide (x.id < j.id))))

/-- A job's buffer is freed; a host WRITE's is freed with its transfer. -/
def Dev.freeUnit (d : Dev) (j : Job) : Dev :=
  match j.why, j.buf with
  | .host _ _, _ => d
  | _, some h => d.freeBuf (d.bufEnt (handleIndex h)).owner h
  | _, none => d

def Dev.endJob (d : Dev) (j : Job) : Dev :=
  (d.freeUnit j).onSfl fun s => { s with jobs := s.jobs.filter (fun x => x.id != j.id), done := s.done ++ [j.why] }

/-- The blocks of 4 KiB that the job's bytes touch, and those they fill. -/
def Job.touched (j : Job) (b : Nat) : Bool := decide (j.ofs < 4096 + 4096 * b) && decide (4096 * b < j.ofs + j.len)
def Job.fills (j : Job) (b : Nat) : Bool := decide (j.ofs ≤ 4096 * b) && decide (4096 + 4096 * b ≤ j.ofs + j.len)

/-- The Hollow map of a merge: a block the new bytes fill takes theirs; one they touch in part keeps either mark. -/
def Job.hollowOver (j : Job) (old : Nat) : Nat :=
  maskOf ((List.range 16).map (fun b =>
    if j.xor then old.testBit b || j.hollow.testBit b
    else if j.fills b then j.hollow.testBit b
    else if j.touched b then old.testBit b || j.hollow.testBit b
    else old.testBit b))

/-- The whole new unit of a job, over the plain bytes and Hollow map of the current copy (R180, R205). -/
def Dev.buildUnit (d : Dev) (j : Job) (old : Map Byte) (oldHollow : Nat) (partial_ : Bool) : FUnit × Dev :=
  let data := if j.xor then mapXor old j.data else mapOverlay old j.data j.ofs j.len
  let hol := j.hollowOver oldHollow
  let (v, lba) := d.gluPlace j.glu
  let stored := if j.enc then d.cipherUnit true j.key v lba data else data
  let d := d.when j.enc (·.countN (F.sflAesCnt 0) 16)
  let flags := (if hol = 0 then 0 else tagHollow) + (if j.enc then tagEnc else 0) + (if partial_ then tagPartial else 0)
  (⟨{ Tag.none with
      ty := 1, flags := flags, hollowMap := hol, keyId := if j.enc then d.keyId j.key % 65536 else 0,
      key := if j.enc then j.key else 0, stream := j.stream, unit := j.glu,
      mapVer := dirVer (d.dirEnt (mapPage j.glu)) }, stored⟩, d)

def Job.whole (j : Job) : Bool := decide (j.ofs = 0) && decide (j.len = unitBytes) && !j.xor

/-- What a job asks of the map engine, with the class of the operation it serves (R22): the core of a host command, the drain of a stream,
the staged parity of a MIGRATE, GC, the rebuild or reshape of a set; a DISC entry is a MIGRATE's, any other entry a host command's. The
cells are this model's (log entry 79). -/
def Dev.jobReq (d : Dev) (j : Job) : ArbReq :=
  let of (page cell cls : Nat) : ArbReq := ⟨regionOf page, slotOf page, cell, cls, j.id⟩
  let core (a : Nat) : Nat := ((d.hat.cmds.find? (fun c => c.arrival == a)).map (·.core)).getD 0
  match j.why with
  | .host a _ => of Pg.seqReg (core a) 2
  | .capture s _ => of Pg.ingProc s 1
  | .staged _ => of Pg.parDisc 0 3
  | .gc row => of Pg.sflGc (rowSet row) 3
  | .rebuild row | .reshape row => of (Pg.parSet 0) (rowSet row) 3
  | .rewrite => of Pg.sflMap 0 (roleClass j.role)
  | .entry v _ => of Pg.seqReg 0 (if v = 0 then 2 else 3)

/-- The stage that makes a job's unit, by its owner and region: the drain's output, the stripe engines' staged parity, else SFL. -/
def Job.maker (j : Job) : Nat × Nat :=
  match j.why with
  | .capture _ _ => (32, 3)
  | .staged _ => (35, 7)
  | _ => (34, 6)

/-- A job has its unit's buffer, or asks for it; after a NONE it asks again once one can be granted. The bytes of another stage are written by
that stage, which then hands the buffer to SFL (R32, R33). -/
def Dev.jobBuf (d : Dev) (j : Job) : Bool × Dev :=
  match j.why, j.buf with
  | .entry _ _, _ => (true, d)
  | _, some _ => (true, d)
  | _, none =>
    let (o, reg) := j.maker
    let cls := (d.jobReq j).cls
    if j.refused && !d.canGrant o cls then (false, d)
    else
      let (h, d) := d.grant o cls
      if h = handleNone then (false, d.onJob j.id fun j => { j with refused := true })
      else
        let d := if o = 34 then d else ((d.bufFill o reg h j.data j.hollow cls).bpmTransfer o (.handle h) 34).2
        (true, d.onJob j.id fun j => { j with buf := some h, refused := false })

/-- The whole new unit stands in the job's buffer, and the job waits for space; `ready` keeps its tag. -/
def Dev.jobReady (d : Dev) (j : Job) (u : FUnit) : Dev :=
  let d := match j.buf with
    | some h => d.bufFill 34 6 h u.data u.tag.hollowMap (d.jobReq j).cls
    | none => d
  d.onJob j.id fun j => { j with ready := some ⟨u.tag, []⟩, full := true, st := .space }

/-- The current copy came in: the merge is made, and the job waits for space. A copy keeps the unit as it lies. -/
def Dev.jobGot (d : Dev) (id : Nat) (u : FUnit) (hollowAll : Bool) : Dev :=
  match d.sfl.jobs.find? (fun j => j.id == id) with
  | none => d
  | some j =>
    let u := if hollowAll then ⟨{ u.tag with hollowMap := 0xFFFF, flags := u.tag.flags ||| tagHollow }, []⟩ else u
    if j.src.isSome then d.jobReady j u
    else
      let (old, hol, d) := if hollowAll then (([] : Map Byte), 0xFFFF, d) else d.plain j.glu u
      let (n, d) := d.buildUnit j old hol (u.tag.flags.testBit 3)
      d.jobReady j n

/-- A job whose map page is in the cache, and which has its buffer, looks at its entry. -/
def Dev.jobLook (d : Dev) (j : Job) : Dev :=
  let e := d.mapEnt j.glu
  match j.why, j.src with
  | .entry value expect, _ =>
    if expect.isNone || entPua e == expect then
      let (q, d) := d.mapUpdate j.glu value 0 0
      d.onJob j.id fun j => { j with st := .settled none q }
    else ((d.endJob j).count (F.sflCnt 12))
  | _, some p =>
    if entPua e ≠ some p then d.endJob j
    else if j.full then d.onJob j.id fun j => { j with st := .space }
    else match j.ready with
      | some u => d.jobReady j u
      | none => (d.onJob j.id fun j => { j with st := .reading p }).onSfl fun s => { s with reads := s.reads ++ [⟨p, .job j.id⟩] }
  | _, none =>
    if j.full then d.onJob j.id fun j => { j with st := .space }
    else if j.whole then
      let (u, d) := d.buildUnit j [] 0 false
      d.jobReady j u
    else match entPua e with
      | some p => (d.onJob j.id fun j => { j with st := .reading p }).onSfl fun s => { s with reads := s.reads ++ [⟨p, .job j.id⟩] }
      | none =>
        if entState e = 2 then d.onJob j.id fun j => { j with st := .disc (entLoc e) }
        else
          let (u, d) := d.buildUnit j [] (if entState e = 3 then 0xFFFF else 0) true
          d.jobReady j u

/-- The set a job's copy goes to: a reshape's go to the target (R240). -/
def Dev.jobSet (d : Dev) (j : Job) : Option Nat :=
  match j.why with
  | .reshape r => Map.find d.par.shapes (rowSet r)
  | .gc r | .rebuild r => match Map.find d.par.back (rowSet r) with
    | some n => some n
    | none => some (rowSet r)
  | _ => d.setOfPage (mapPage j.glu)

/-- A ready unit takes its place: its bytes are read from its buffer for programming. Or it waits: NO_SET where its volume has no set,
SPACE_LOW, raised and counted once, where no row is to be had. -/
def Dev.jobPlace (d : Dev) (j : Job) : Dev :=
  match d.jobSet j, j.ready with
  | none, _ => d.raise Pg.parReg Er.parReg_noSet j.glu
  | some s, some u =>
    let isGc := match j.why with
      | .gc _ | .rebuild _ | .reshape _ => true
      | _ => false
    let (at_, d) := d.nextPlace s j.role
    match at_ with
    | some (r, k, p) =>
      let (m, lost, d) := match j.buf with
        | some h => d.bufTake 34 6 h 0 unitBytes
        | none => ([], 0, d)
      let hol := u.tag.hollowMap ||| lost
      let t := { u.tag with
        flags := u.tag.flags ||| (if isGc then tagGc else 0) ||| (if hol = 0 then 0 else tagHollow), hollowMap := hol }
      let (pua, _, d) := d.placeAt r k p ⟨t, m⟩ (.job j.id)
      d.onJob j.id fun j => { j with st := .programming pua, low := false }
    | none =>
      if !j.low ∧ (d.openRow s j.role).isNone ∧ (!d.mayOpen s j.role ∨ (d.bestFree s).isNone)
      then ((d.raise Pg.sflReg Er.sflReg_spaceLow s).count (F.sflCnt 11)).onJob j.id fun j => { j with low := true } else d
  | _, none => d

/-- A map page is looked up; a dirty victim that stands in its way is written back first. -/
def Dev.lookPage (d : Dev) (p : Nat) : Dev :=
  match d.slotOfPage p with
  | some _ => d.mapLook p
  | none =>
    match d.mcttVictim p with
    | some s =>
      let v := d.mslot s
      if v.valid && v.dirty then (if v.writing then d else d.mapWriteOut v.page) else d.mapLook p
    | none => d

/-- Pages that are to be written again come into the cache and are written (R192, R220, R200). -/
def Dev.remapStep (d : Dev) : Dev :=
  d.sfl.remap.foldl (fun (d : Dev) p =>
    let d := d.lookPage p
    match d.slotOfPage p with
    | none => d
    | some n =>
      let x := d.mslot n
      if !x.valid || x.writing then d
      else (d.when (!x.dirty) fun d => d.mapDirty p d.sfl.seq).mapWriteOut p) d

/-- The RESHAPE slot of a set counts one more unit copied (R224). -/
def Dev.shapeCopied (d : Dev) (s : Nat) : Dev :=
  (d.par.slots.filter (fun e => decide (e.2.ty = 5) && decide (e.2.set = s))).foldl (fun (d : Dev) e =>
    let b := padTo 36 e.2.body
    d.sjPut e.1 { e.2 with body := splice b 2 (leBytes 8 (fieldAt b 2 8 + 1)) }) d

/-- The copy's program passed: the MAP entry is made where the page is in the cache, and the lock is released. A copy out of a row needs its
buffer no more. -/
def Dev.jobUpdate (d : Dev) (j : Job) (p seq : Nat) : Dev :=
  let d := d.lookPage (mapPage j.glu)
  if !d.pageIn (mapPage j.glu) then d
  else match Map.find d.sfl.units p with
    | none => d
    | some u =>
      let flags := (if u.tag.flags.testBit 2 then 1 else 0) + (if u.tag.flags.testBit 0 then 2 else 0)
      let (q, d) := d.mapUpdate j.glu (entFlash p u.tag.enc u.tag.key) flags seq
      let isGc := match j.why with
        | .gc _ => true
        | _ => false
      let d := d.when isGc (·.sflCount 2)
      let d := match j.why with
        | .rebuild r => d.count (F.parSetCnt (rowSet r) 1)
        | .reshape r => (d.count (F.parCnt 5)).shapeCopied (rowSet r)
        | _ => d
      if j.src.isSome then (d.freeUnit j).onJob j.id fun j => { j with st := .settled (some p) q, buf := none, full := false, ready := none }
      else d.onJob j.id fun j => { j with st := .settled (some p) q }

/-- No stripe that holds the unit is still to be covered. -/
def Dev.covered (d : Dev) (p : Nat) : Bool :=
  !d.sfl.stripes.any (fun x => x.k == puaUnit p &&
    blockKey p == blockKey (mkPua (puaCh p) (rowCe x.row) (rowLun x.row) (rowBlock x.row) 0) &&
    (d.positions x.row).contains (puaCh p))

/-- A copy is durable: its stripe is covered and its MAP entry is in MRAM; an entry without a copy once it is in MRAM (R181). -/
def Dev.durable (d : Dev) (p : Option Nat) (seq : Nat) : Bool := d.jIn seq && p.all d.covered

/-- What follows a copy's program goes on: its MAP entry, and its durability (R181). -/
def Dev.jobEnds (d : Dev) (id : Nat) : Dev :=
  let stage (d : Dev) (f : Dev → Job → Dev) : Dev := match d.sfl.jobs.find? (fun j => j.id == id) with
    | some j => f d j
    | none => d
  let d := stage d fun d j => match j.st with
    | .update p q => d.jobUpdate j p q
    | _ => d
  stage d fun d j => match j.st with
    | .settled p q => if d.durable p q then d.endJob j else d
    | _ => d

/-- One look at a job: it moves on as far as what it waits for has come. -/
def Dev.advance (d : Dev) (id : Nat) : Dev :=
  let stage (d : Dev) (f : Dev → Job → Dev) : Dev := match d.sfl.jobs.find? (fun j => j.id == id) with
    | some j => f d j
    | none => d
  let d := stage d fun d j => if j.st = .lock ∧ d.lockFree j then d.onJob id fun j => { j with st := .look } else d
  let d := stage d fun d j =>
    if j.st = .look then
      let d := d.lookPage (mapPage j.glu)
      if !d.pageIn (mapPage j.glu) then d
      else match d.jobBuf j with
        | (true, d) => match d.sfl.jobs.find? (fun x => x.id == j.id) with
          | some j => d.jobLook j
          | none => d
        | (false, d) => d
    else d
  (stage d fun d j => if j.st = .space then d.jobPlace j else d).jobEnds id

/-- Copies of map units out of source rows that are safe are let go (R191). -/
def Dev.outsSafe (d : Dev) : Dev :=
  let left := d.sfl.outs.filter (fun o => !d.durable (some o.2.1) o.2.2)
  d.onSfl fun s => { s with outs := left }

/-- A job that the thermal level does not hold back in this tick: GC, and rebuild on a CRITICAL set, are exempt (R497, R498). -/
def Dev.jobServed (d : Dev) (j : Job) : Bool :=
  (match j.why with
   | .gc _ => true
   | .rebuild r => decide (d.rd (F.parSetStat_state (rowSet r)) = 3)
   | _ => false) || d.classServed (d.jobReq j).cls

/-- Every job moves on, in the order the arbiters grant (R18–R23); then pages that must be written again, dirty pages in pairs, and ended
stripes. Between the acceptance of PWRFAIL_N and Tp what needs no flash command still goes on (R202). -/
def Dev.pump (d : Dev) : Dev :=
  if d.flashReady then
    let (ids, d) := d.served ((d.sfl.jobs.filter d.jobServed).map d.jobReq)
    (ids.foldl (·.advance ·) d).remapStep.pairPages.dropDead.outsSafe
  else if decide (d.rd F.sflStat = 2) && !(match d.plat.tp with
    | some t => decide (d.since t < 2 ^ 63)
    | none => true) then (d.sfl.jobs.map (·.id)).foldl (fun (d : Dev) i => d.jobEnds i) d
  else d

/-- The class 3 job that has waited longest is granted once as class 2 (R23). -/
def Dev.promoteJob (d : Dev) : Dev :=
  if !d.flashReady || !d.classServed 2 then d
  else match (d.sfl.jobs.map d.jobReq).find? (fun r => r.cls == 3) with
    | some r => (d.promoted r).advance r.key
    | none => d

/-! ## Program results (R192, R218–R220) -/

/-- A block is retired as grown-bad: the journal, the bad-block table, the counts and the limit (R192, R193). -/
def Dev.retireBlock (d : Dev) (pua cause : Nat) : Dev :=
  let ch := puaCh pua
  let ce := puaCe pua
  let b := mkPua ch ce (puaLun pua) (puaBlock pua) 0
  if (Map.find d.mram.badBlocks (blockKey b)).isSome then d
  else
    let d := (d.journal 9 0 b cause 0).2
    let d := (d.mramPut 1 fun m => { m with badBlocks := Map.put m.badBlocks (blockKey b) cause }).sflCount 8
    let d := d.count (F.sflFcCe_grown ch ce)
    let grown := (d.mram.badBlocks.filter (fun e => decide (e.1 / 2 ^ 22 = ch) && decide (e.2 ≠ 0))).length
    if grown = 16 * d.rd (F.sflFcCfg_badLimit ch) then d.raise (Pg.sflFc ch) Er.sflFc_badLimit b else d

/-- A program failed: the unit leaves its stripe's sums, the block is retired, the row closes at the failed stripe, the units of the block are
written again; a checkpoint whose part failed starts again (R192, R208, R220). -/
def Dev.progFailed (d : Dev) (p : Prog) : Dev :=
  let r := p.unit.tag.row
  let k := puaUnit p.pua
  let ch := puaCh p.pua
  let pos := (d.positions r).idxOf ch
  let d := (d.raise (Pg.sflFc ch) Er.sflFc_progFail p.pua).count (F.sflFcCnt ch 3)
  let d := d.stripeAdd r k pos p.unit.data
  let d := d.retireBlock p.pua 1
  let d := d.onStripe r k fun x => { x with placed := setBit x.placed pos true, failed := setBit x.failed pos true }
  let d := d.lostSlot (rowSet r) ch (rowCe r) (rowLun r) 3 r k pos
  let d := d.closeRow r
  let d := ((d.sfl.stripes.filter (fun x => x.row == r)).map (·.k)).foldl (fun d k => d.padStripe r k) d
  let d := d.rewrite (fun q => blockKey q == blockKey p.pua) (some p.pua)
  let d := match p.why with
    | .part _ _ => ((d.raise Pg.sflReg Er.sflReg_ckptFail p.pua).onSfl fun s => { s with ckpt := none }).ckptStart
    | .map a b _ => ([a, b].filter (· != absent)).foldl (fun d q => match d.slotOfPage q with
      | some n => (d.onMslot n fun x => { x with writing := false }).onSfl fun s => { s with remap := s.remap.filter (· != q) ++ [q] }
      | none => d) d
    | _ => d
  (d.startParity r k).endStripe r k

/-- A program passed: the unit stands, and the stripe, map page, checkpoint or job it was for goes on. -/
def Dev.progPassed (d : Dev) (p : Prog) : Dev :=
  let r := p.unit.tag.row
  let k := puaUnit p.pua
  let pos := (d.positions r).idxOf (puaCh p.pua)
  let d := d.onSfl fun s => { s with units := Map.put s.units p.pua p.unit }
  let d := d.onStripe r k fun x => { x with passed := setBit x.passed pos true }
  let d := match p.why with
    | .job id => d.onJob id fun j => match j.st with
      | .programming _ => { j with st := .update p.pua p.unit.tag.seq }
      | _ => j
    | .map a b w => (d.mapWritten a 0 p.pua w).mapWritten b 1 p.pua w
    | .part at_ n => d.onSfl fun s => { s with ckpt := s.ckpt.map (fun (c : Ckpt) =>
        if c.c = at_ then { c with parts := Map.put c.parts n p.pua } else c) }
    | _ => d
  (d.startParity r k).endStripe r k

/-- A unit program ends (FLASH_PROGRAM_DONE). -/
def Dev.progDone (d : Dev) (pua : Nat) (pass : Bool) : Dev :=
  match d.sfl.progs.find? (fun p => p.pua == pua) with
  | none => d
  | some p =>
    let d := (d.sflCount 0).count (F.sflFcCnt (puaCh pua) 0)
    let failedNow := !pass || d.injected (Pg.sflFc (puaCh pua)) Er.sflFc_progFail
    let d := d.takeInjected (Pg.sflFc (puaCh pua)) Er.sflFc_progFail
    let drop (d : Dev) : Dev := d.onSfl fun s => { s with progs := s.progs.filter (fun x => x.pua != pua) }
    if failedNow then drop (d.progFailed p) else (drop d).progPassed p

/-! ## Reads (R187, R212, R213, R229) -/

/-- A position of a row is lost: its LUN is LOST, and the row was opened before (R216, R217). -/
def Dev.posLost (d : Dev) (r ch : Nat) : Bool :=
  match Map.find d.sfl.lostLuns (lunKey ch (rowCe r) (rowLun r)) with
  | some q => !newer (d.rowEnt r).openSeq q
  | none => false

/-- The positions of a unit's stripe that count as erased: on a LOST or unavailable LUN, lost to a program failure, or named unreadable
(R216, R229). -/
def Dev.erasedPos (d : Dev) (r k : Nat) (bad : List Nat) : List Nat :=
  let chs := d.positions r
  (List.range chs.length).filter (fun i =>
    let p := d.puaAt r k i
    bad.contains p || d.posLost r (puaCh p) || !d.lunAvail (puaCh p) (rowCe r) (rowLun r) ||
    (Map.find d.sfl.units p).isNone ||
    d.par.slots.any (fun e => decide (e.2.ty = 2) && e.2.row == r && e.2.stripe == k && e.2.mask.testBit i))

/-- A unit rebuilt from the other positions of its stripe, with the OR of the Hollow maps used; none where R212 cannot. -/
def Dev.reconstruct (d : Dev) (pua : Nat) (bad : List Nat) : Option FUnit :=
  match d.rowOfPua pua with
  | none => none
  | some r =>
    let k := puaUnit pua
    let gone := d.erasedPos r k (pua :: bad)
    let get (i : Nat) : Option FUnit := if gone.contains i then none else Map.find d.sfl.units (d.puaAt r k i)
    let ps := d.dataPositions r k
    let idx := (List.range ps.length).zip ps
    let ds := idx.filterMap (fun e => (get e.2).map (fun u => (e.1, u)))
    let lost := idx.filterMap (fun e => if (get e.2).isNone then some e.1 else none)
    let pq := d.parityPositions r k
    let par := pq.map get
    let p := (par.getD 0 none).map (·.data)
    let q := (par.getD 1 none).map (·.data)
    let mine := (d.positions r).idxOf (puaCh pua)
    match idx.find? (fun e => e.2 == mine) with
    | none => none
    | some me =>
      match parSolve (ds.map (fun e => (e.1, e.2.data))) lost p q with
      | none => none
      | some sol =>
        match sol.find? (fun e => e.1 == me.1) with
        | none => none
        | some s =>
          let hol := (ds.map (·.2.tag.hollowMap) ++ par.filterMap (fun u => u.map (·.tag.hollowMap))).foldl (· ||| ·) 0
          let own := match Map.find d.sfl.units pua with
            | some u => u.tag
            | none => { Tag.none with ty := 1 }
          some ⟨{ own with hollowMap := hol, flags := own.flags ||| (if hol = 0 then 0 else tagHollow) }, s.2⟩

/-- A row is queued for refresh; an OPEN one is taken once it closes (R195). -/
def Dev.queueRefresh (d : Dev) (r : Nat) : Dev :=
  if d.sfl.refresh.contains r || !(decide ((d.rowEnt r).st = .closed) || decide ((d.rowEnt r).st = .opened)) then d else d.onSfl fun s => { s with refresh := s.refresh ++ [r] }

/-- How a unit read ended: the level that succeeded (0, 1, 2; above: none), and the units of the stripe unreadable at F2. -/
def Dev.readUnit (d : Dev) (pua level : Nat) (bad : List Nat) : FUnit × Bool × Dev :=
  let ch := puaCh pua
  let d := (d.sflCount 1).count (F.sflFcCnt ch 2)
  let r := d.rowOfPua pua
  let whereRow (d : Dev) (f : Dev → Nat → Dev) : Dev := match r with
    | some r => f d r
    | none => d
  let retry := d.rd (F.sflDieFeat_retry (d.dieOf ch (puaCe pua)))
  let level := if level = 1 ∧ retry = 0 then 2 else level
  let level := if d.injected (Pg.sflFc ch) Er.sflFc_readLost then 4
    else if d.injected (Pg.sflFc ch) Er.sflFc_readRecon then 3 else level
  let d := (d.takeInjected (Pg.sflFc ch) Er.sflFc_readLost).takeInjected (Pg.sflFc ch) Er.sflFc_readRecon
  let lun := !d.lunAvail ch (puaCe pua) (puaLun pua) || (match r with
    | some r => d.posLost r ch
    | none => false)
  let u := Map.find d.sfl.units pua
  let direct := decide (level ≤ 2) && !lun && u.isSome
  let d := if direct && level == 1 then
      let d := ((d.raise (Pg.sflFc ch) Er.sflFc_readRetry pua).sflCount 4).count (F.sflFcCnt ch 5)
      whereRow d fun d r =>
        let d := d.onRow r fun e => { e with f1 := e.f1 + 1 }
        if 16 ≤ (d.rowEnt r).f1 then d.queueRefresh r else d
    else if direct && level == 2 then
      let d := ((d.raise (Pg.sflFc ch) Er.sflFc_readRetry pua).sflCount 5).count (F.sflFcCnt ch 6)
      whereRow d fun d r => d.queueRefresh r
    else d
  match u, direct with
  | some u, true => (u, false, d)
  | _, _ =>
    match (if level ≤ 3 then d.reconstruct pua bad else none) with
    | some u =>
      let d := (d.raise (Pg.sflFc ch) Er.sflFc_readRecon pua).sflCount 6
      let d := whereRow d fun d r => (((d.raise (Pg.parSet (rowSet r)) Er.parSet_recon pua).count (F.parSetCnt (rowSet r) 0)).count
        (F.parCnt 2)).queueRefresh r
      (u, false, d)
    | none =>
      let d := (d.raise (Pg.sflFc ch) Er.sflFc_readLost pua).sflCount 7
      let tag := match u with
        | some u => u.tag
        | none => { Tag.none with ty := 1 }
      (⟨{ tag with hollowMap := 0xFFFF }, []⟩, true, d)

/-- A unit lost at F4 that the map still names is written again as Hollow lines (R187, R232). -/
def Dev.rewriteLost (d : Dev) (pua : Nat) (u : FUnit) : Dev :=
  let mapped := d.sfl.map.filter (fun e => entPua e.2 == some pua)
  mapped.foldl (fun d e =>
    let t := { u.tag with
      ty := 1, unit := e.1, hollowMap := 0xFFFF, flags := tagHollow + (if entEnc e.2 then tagEnc else 0),
      key := entKey e.2, keyId := d.keyId (entKey e.2) % 65536 }
    (d.addJob (copyJob .rewrite e.1 (match d.rowOfPua pua with
      | some r => (d.rowEnt r).role
      | none => 0) pua (some ⟨t, []⟩))).2) d

/-- A map page whose load failed at F4, or whose unit carries another VER: its entries read LOST until written again. -/
def Dev.mapLost (d : Dev) (p : Nat) : Dev :=
  let d := (d.takeInjected Pg.sflReg Er.sflReg_mapLost).raise Pg.sflReg Er.sflReg_mapLost p
  (List.range 4096).foldl (fun d i => d.mapSet (4096 * p + i) entLost) d

/-- FLASH_READ_DONE: the oldest read of this unit ends, and goes to whoever asked for it. -/
def Dev.readDone (d : Dev) (pua level : Nat) (bad : List Nat) : Dev :=
  match d.sfl.reads.find? (fun r => r.pua == pua) with
  | none => d
  | some r =>
    let d := d.onSfl fun s => { s with reads := s.reads.erase r }
    let (u, lost, d) := d.readUnit pua level bad
    let d := d.when (lost && u.tag.ty == 1) (·.rewriteLost pua u)
    match r.why with
    | .job id => d.jobGot id u lost
    | .map p =>
      let x := d.dirEnt p
      let ver := if dirHalf x = 0 then u.tag.mapVer else u.tag.mapVerB
      let ok := !lost && ver == dirVer x
      match d.slotOfPage p with
      | some n => d.onMslot n fun y => { y with got := some ok }
      | none => d
    | _ => d.onSfl fun s => { s with got := s.got ++ [(r.why, u, lost)] }

/-- MAP_PAGE_LOADED: the slot holds the page and the requests that waited for it proceed (R174). -/
def Dev.mapLoaded (d : Dev) (p : Nat) : Dev :=
  match d.slotOfPage p with
  | none => d
  | some n =>
    match (d.mslot n).loading, (d.mslot n).got with
    | true, some ok =>
      let d := (d.onMslot n fun x => { x with valid := true, loading := false, got := none }).sflCount 9
      let d := if ok && !d.injected Pg.sflReg Er.sflReg_mapLost then d else d.mapLost p
      (d.pageFound p).slotFill n p
    | _, _ => d

end Sys2Proof.Machine
end

