-- ==== Sys2Proof/Machine/FlashSys.lean ====
section
/-! DEFINITION. Garbage collection, erase, checkpoints, the availability of LUNs, the redundancy of sets, and the rebuild of
the map after start-up (R163–R165, R188–R193, R199–R201, R207, R216, R221, R230–R233). -/
namespace Sys2Proof.Machine
open Sys2Proof

/-! ## Redundancy states of a set (R216, R230, R233) -/

/-- The rows of a set that hold something. -/
def Dev.liveRows (d : Dev) (s : Nat) : List (Nat × RowEnt) :=
  d.sfl.rows.filter (fun e => decide (rowSet e.1 = s) && decide (e.2.st ≠ .free) && decide (e.2.st ≠ .retired))

/-- The channels of a set with a LOST LUN that some row still holds a position on. -/
def Dev.lostMembers (d : Dev) (s : Nat) : List Nat :=
  (d.setMembers s).filter (fun ch => (d.liveRows s).any (fun e => (d.positions e.1).contains ch && d.posLost e.1 ch))

def rowHasLost (d : Dev) (r : Nat) : Bool := (d.positions r).any (d.posLost r)

/-- An available LUN of a member is left out of the row for a cause other than a bad block (R230). -/
def Dev.rowShort (d : Dev) (r : Nat) : Bool :=
  let ms := d.setMembers (rowSet r)
  (List.range ms.length).any (fun i =>
    let ch := ms.getD i 0
    let b := blockKey (mkPua ch (rowCe r) (rowLun r) (rowBlock r) 0)
    (d.rowEnt r).bad.testBit i && d.blockThere ch (rowCe r) (rowLun r) (rowBlock r) && d.lunAvail ch (rowCe r) (rowLun r) &&
      (Map.find d.mram.badBlocks b).isNone &&
      (match d.par.shadow with
       | some h => !h.keys.contains b
       | none => true))

/-- The stale rows of a set: those with LOST positions first, then the rest, each group by row id (R230). -/
def Dev.staleRows (d : Dev) (s : Nat) : List Nat :=
  let live := (d.liveRows s).map (·.1)
  let lost := live.filter (rowHasLost d)
  lost ++ live.filter (fun r => !lost.contains r && d.rowShort r)

/-- A set's state goes on from the LUNs that have become LOST (R233). -/
def Dev.setDegrade (d : Dev) (s : Nat) (before : List Nat) (ch : Nat) : Dev :=
  let st := d.rd (F.parSetStat_state s)
  if st = 1 then d.wr (F.parSetStat_state s) (if d.setQ s then 2 else 3)
  else if st = 2 ∧ !before.contains ch then
    (d.wr (F.parSetStat_state s) 3).raise (Pg.parSet s) Er.parSet_setCritical ch
  else d

/-- LUNs that no row holds a position on are LOST no more; a set with no LOST position is NORMAL, its LOST slots freed. -/
def Dev.lostClear (d : Dev) : Dev :=
  if d.rd F.sflStat ≠ 2 then d
  else
  let held (k : Nat) : Bool := d.sfl.rows.any (fun e =>
    decide (e.2.st ≠ .free) && decide (e.2.st ≠ .retired) &&
    decide (rowCe e.1 * 8 + rowLun e.1 = k % 64) && (d.positions e.1).contains (k / 64) && d.posLost e.1 (k / 64))
  let d := d.onSfl fun s => { s with lostLuns := s.lostLuns.filter (fun e => held e.1) }
  let d := (d.par.slots.filter (fun e => decide (e.2.ty = 2))).foldl (fun d e =>
    let ch := (e.2.body.getD 0 0).toNat
    let cause := (e.2.body.getD 3 0).toNat
    let done := if cause = 3 then
        decide ((d.rowEnt e.2.row).st = .free) || decide ((d.rowEnt e.2.row).st = .retired)
      else !d.sfl.lostLuns.any (fun x => decide (x.1 / 64 = ch) &&
        (fieldAt e.2.body 1 1 == 0xFF || fieldAt e.2.body 1 1 == x.1 / 8 % 8) && (fieldAt e.2.body 2 1 == 0xFF || fieldAt e.2.body 2 1 == x.1 % 8))
    if done then d.sjClear e.1 else d) d
  (List.range 8).foldl (fun d s =>
    if (d.rd (F.parSetStat_state s) = 2 ∨ d.rd (F.parSetStat_state s) = 3) ∧ (d.lostMembers s).isEmpty
    then d.wr (F.parSetStat_state s) 1 else d) d

/-! ## LUNs that stop being available (R216) -/

/-- Open rows that use one of the LUNs close at the stripe in progress; what was not yet programmed there is written again. With
`keep` the programs in progress on them still end (R51). -/
def Dev.closeUsing (d : Dev) (keys : List Nat) (keep : Bool := false) : Dev :=
  let rows := d.sfl.rows.filter (fun e => decide (e.2.st = .opened) &&
    (d.positions e.1).any (fun ch => keys.contains (lunKey ch (rowCe e.1) (rowLun e.1))))
  rows.foldl (fun d e =>
    let r := e.1
    let gone := (d.positions r).filter (fun ch => keys.contains (lunKey ch (rowCe r) (rowLun r)))
    let d := if keep then d else (d.sfl.progs.filter (fun p => p.unit.tag.row == r && gone.contains (puaCh p.pua))).foldl (fun d p =>
      let d := d.stripeAdd r (puaUnit p.pua) ((d.positions r).idxOf (puaCh p.pua)) p.unit.data
      let d := d.onStripe r (puaUnit p.pua) fun x =>
        { x with failed := setBit x.failed ((d.positions r).idxOf (puaCh p.pua)) true }
      let d := d.rewrite (fun q => q == p.pua) (some p.pua)
      d.onSfl fun s => { s with progs := s.progs.filter (fun x => x.pua != p.pua) }) d
    let d := (d.sfl.stripes.filter (fun x => x.row == r)).foldl (fun d x =>
      let runs (ch : Nat) : Bool := d.sfl.progs.any (fun p => p.pua == d.puaAt r x.k ((d.positions r).idxOf ch))
      d.onStripe r x.k fun y => { y with
        placed := gone.foldl (fun n ch => setBit n ((d.positions r).idxOf ch) true) y.placed
        failed := gone.foldl (fun n ch =>
          let p := (d.positions r).idxOf ch
          if y.passed.testBit p || runs ch then n else setBit n p true) y.failed }) d
    let d := d.closeRow r
    (d.sfl.stripes.filter (fun x => x.row == r)).foldl (fun d x =>
      ((d.padStripe r x.k).startParity r x.k).endStripe r x.k) d) d

/-- Logical units whose map entry points into a set. -/
def Dev.setMapped (d : Dev) (s : Nat) : Nat :=
  (d.sfl.map.filter (fun e => ((entPua e.2).bind d.rowOfPua).any (fun r => decide (rowSet r = s)))).length

/-- A reshape is abandoned (R243): the copies made stay mapped, and their rows go back through GC. -/
def Dev.reshapeAbandon (d : Dev) (n : Nat) : Dev :=
  match Map.find d.par.shapes n with
  | none => d
  | some t =>
    let rows := (d.liveRows t).map (·.1)
    let d := rows.foldl (fun d r => d.closeRow r) d
    let d := d.onSfl fun s => { s with refresh := s.refresh ++ rows.filter (fun r => !s.refresh.contains r) }
    let d := d.onPar fun p => { p with shapes := Map.erase p.shapes n, shapeV := Map.erase p.shapeV n, back := Map.put p.back t n }
    let d := ((d.par.slots.filter (fun e => decide (e.2.ty = 5) && decide (e.2.set = n))).map (·.1)).foldl (·.sjClear ·) d
    let d := (d.wr (F.parSetStat_reshape n) 0).wr (F.parSetStat_reshape t) 0
    d.raise (Pg.parSet n) Er.parSet_reshapeAbandon t

/-- LUNs of a channel become LOST, for the rows opened up to now (R216): LOST slot, MEMBER_LOST, the set's state, and an end to a reshape in BUILD. `ce` and `lun`
are 0xFF where all are meant; `cause` is 1 fenced or 2 isolated. -/
def Dev.lunsLost (d : Dev) (ch ce lun cause : Nat) (keys : List Nat) : Dev :=
  let seq := d.sfl.seq
  let sets := (List.range 8).filter (fun s => d.setOn s && (d.setMembers s).contains ch)
  let before := sets.map (fun s => (s, d.lostMembers s))
  let d := d.closeUsing keys
  let d := d.onSfl fun s => { s with lostLuns := keys.foldl (fun m k => Map.put m k seq) s.lostLuns }
  let d := before.foldl (fun d e =>
    let d := (d.sjNew ⟨2, e.1, 0xFFFFFFFF, 0, 0, 0, leBytes 1 ch ++ leBytes 1 ce ++ leBytes 1 lun ++ leBytes 1 cause⟩).2
    let d := d.raise (Pg.parSet e.1) Er.parSet_memberLost ch
    let d := d.setDegrade e.1 e.2 ch
    let hit := d.par.shapes.filter (fun x => decide (x.1 = e.1) || decide (x.2 = e.1))
    hit.foldl (fun d x => if d.rd (F.parSetStat_reshape x.1) = 1 then d.reshapeAbandon x.1 else d) d) d
  d.lostClear

/-- All LUN keys of a channel that are present. -/
def Dev.channelLuns (d : Dev) (ch : Nat) : List Nat :=
  ((List.range 8).map (fun ce => (List.range (if d.ceReady ch ce then d.lunsOf ch ce else 0)).map (lunKey ch ce))).flatten

/-- A channel stops: fenced (cause 1) or isolated (cause 2). -/
def Dev.channelLost (d : Dev) (ch cause : Nat) : Dev := d.lunsLost ch 0xFF 0xFF cause (d.channelLuns ch)

/-! ## Channels (R163–R165) -/

/-- The lowest die type that a CE matches (R164). -/
def Dev.matchDie (d : Dev) (p : CeProbe) : Option Nat :=
  (List.range 4).find? (fun t =>
    decide (p.id = d.rd (F.sflDieId0 t) + d.rd (F.sflDieId1 t) * 2 ^ 32) && decide (p.page = d.rd (F.sflDieGeom_page t)) &&
    decide (p.luns = d.rd (F.sflDieGeom_luns t) + 1) && decide (p.units = d.rd (F.sflDieGeom_units t) + 1) &&
    decide (p.blocks = d.rd (F.sflDieGeom_blocks t) + 1))

/-- The data capacity of all READY CEs, in units of 64 KiB. -/
def Dev.dataUnits (d : Dev) : Nat :=
  (List.range 32).foldl (fun n ch => (List.range 8).foldl (fun n ce =>
    if d.ceReady ch ce then n + d.lunsOf ch ce * d.blocksOf ch ce * d.unitsOf ch ce else n) n) 0

/-- One CE taken into use, left UNUSED, or fenced where it fails to train. -/
def Dev.bringUpCe (d : Dev) (ch : Nat) (p : CeProbe) : Dev :=
  if !(d.rd (F.sflFcCfg_ceEn ch)).testBit p.ce then d
  else match (if d.injected (Pg.sflFc ch) Er.sflFc_idMismatch then none else d.matchDie p) with
    | none => ((d.takeInjected (Pg.sflFc ch) Er.sflFc_idMismatch).wr (F.sflFcCe_state ch p.ce) 1).raise (Pg.sflFc ch) Er.sflFc_idMismatch p.ce
    | some t =>
      let d := (d.wr (F.sflFcCe_type ch p.ce) t).wr (F.sflFcCe_luns ch p.ce) p.luns
      if 2 ^ 34 < d.dataUnits + p.luns * p.blocks * p.units then d.wr (F.sflFcCe_state ch p.ce) 1
      else
        let key := ch * 8 + p.ce
        let d := if d.mram.seenCes.contains key then d
          else d.mramPut p.bad.length fun m => { m with
            seenCes := m.seenCes ++ [key]
            badBlocks := p.bad.foldl (fun b e => Map.put b (blockKey (mkPua ch p.ce e.1 e.2 0)) 0) m.badBlocks }
        let grown := (d.mram.badBlocks.filter (fun e => decide (e.1 / 2 ^ 19 = key) && decide (e.2 ≠ 0))).length
        (d.wr (F.sflFcCe_grown ch p.ce) (min 255 grown)).wr (F.sflFcCe_state ch p.ce) 2

/-- Buffers of owner 33 up to `need` of them. -/
def Dev.moreBufs (d : Dev) (hs : List Nat) (need : Nat) : List Nat × Dev :=
  let (more, d) := d.grantMany 33 2 (need - hs.length)
  (hs ++ more, d)

/-- Buffers that a set's row table needs. -/
def Dev.rowBufsOf (d : Dev) (s : Nat) : Nat := ceilDiv (32 * (d.rowIds s).length) 65536

/-- Some table of an enabled set lacks a buffer. -/
def Dev.tablesLack (d : Dev) : Bool :=
  let on := (List.range 8).filter d.setOn
  !on.isEmpty && (decide (d.sfl.mapBufs.length < 16384) || decide (d.sfl.dirBufs.length < 512) ||
    on.any (fun s => decide ((Map.get [] d.sfl.rowBufs s).length < d.rowBufsOf s)))

/-- The map cache of 1 GiB, the directory and the row tables of the enabled sets are granted to owner 33, as far as they can be; every row
table shows its rows (R169, R172, R173; log entry 13). -/
def Dev.tablesGrant (d : Dev) : Dev :=
  let on := (List.range 8).filter d.setOn
  if on.isEmpty then d
  else
    let (hs, d) := d.moreBufs d.sfl.mapBufs 16384
    let d := (d.onSfl fun x => { x with mapBufs := hs }).wr F.sflMapBase (hs.headD handleNone)
    let (hs, d) := d.moreBufs d.sfl.dirBufs 512
    let d := (d.onSfl fun x => { x with dirBufs := hs }).wr F.sflDirBase (hs.headD handleNone)
    on.foldl (fun (d : Dev) s =>
      let (hs, d) := d.moreBufs (Map.get [] d.sfl.rowBufs s) (d.rowBufsOf s)
      (d.onSfl fun x => { x with rowBufs := Map.put x.rowBufs s hs }).rowsBuild s) d

/-- What a NONE left open is asked for again once it can be granted (R132). -/
def Dev.tablesRetry (d : Dev) : Dev := if d.tablesLack && d.canGrant 33 2 then d.tablesGrant else d

/-- A set that is OFF gives its row table back (R233). -/
def Dev.tableFree (d : Dev) (s : Nat) : Dev :=
  ((Map.get [] d.sfl.rowBufs s).foldl (fun (d : Dev) h => d.freeBuf 33 h) d).onSfl fun x => { x with rowBufs := Map.erase x.rowBufs s }

/-- Bring-up ends: READY, with the fences of the LUNs on READY CEs cleared where the channel comes back from ISOLATED; or the
channel is fenced with TRAIN_FAIL (R163, R216). MTS is the lowest rate of the CEs in use (log entry 59). -/
def Dev.channelTrained (d : Dev) (ch : Nat) (pass : Bool) (probes : List CeProbe) : Dev :=
  if d.rd (F.sflFcStat_train ch) ≠ 1 then d
  else if !pass || d.injected (Pg.sflFc ch) Er.sflFc_trainFail then
    let d := d.takeInjected (Pg.sflFc ch) Er.sflFc_trainFail
    ((d.wr (F.sflFcStat_train ch) 3).raise (Pg.sflFc ch) Er.sflFc_trainFail ch).fence (Pg.sflFc ch) (some (Pg.sflFc ch, Er.sflFc_trainFail))
  else
    let back := decide (d.unitAt (Pg.sflFc ch) = .isolated)
    let d := (List.range 8).foldl (fun d ce => d.wr (F.sflFcCe_state ch ce) 0) d
    let d := probes.foldl (fun d p => d.bringUpCe ch p) d
    let rate := probes.foldl (fun n p =>
      let r := 100 * d.rd (F.sflDieIf_rate (d.dieOf ch p.ce))
      if !d.ceReady ch p.ce then n else if n = 0 then r else min n r) 0
    let d := (d.wr (F.sflFcStat_train ch) 2).wr (F.sflFcStat_mts ch) rate
    let d := d.when back (·.onSfl fun s => { s with fencedLuns := s.fencedLuns.filter (fun k =>
      !(k / 64 == ch && d.ceReady ch (k / 8 % 8))) })
    let d := if back then d.setUnit (Pg.sflFc ch) .quiesced else if d.unitAt (Pg.sflFc ch) = .off then d.setUnit (Pg.sflFc ch) .active else d
    d.when ((List.range 8).any (fun s => d.setOn s && (d.setMembers s).contains ch)) (·.tablesGrant)

/-- A LUN is fenced: LUN_FAIL after 3 timeouts in 400 ticks (R207). -/
def Dev.lunFail (d : Dev) (ch ce lun : Nat) : Dev :=
  let k := lunKey ch ce lun
  (d.raise (Pg.sflFc ch) Er.sflFc_lunFail k).fence1 (cellPage (.lun k)) (some (Pg.sflFc ch, Er.sflFc_lunFail))

/-- An operation of a LUN that is not done in twice its die-type time is treated as failed; an erase fails on that member when the row's erase
ends (R193, R207). -/
def Dev.flashTimeout (d : Dev) (pua : Nat) : Dev :=
  let ch := puaCh pua
  let k := puaLunKey pua
  let isProg := d.sfl.progs.any (fun p => p.pua == pua)
  let isRead := d.sfl.reads.any (fun r => r.pua == pua)
  let erased := (d.sfl.rows.filter (fun e => decide (e.2.st = .erasing) &&
    (d.positions e.1).any (fun c => puaCh pua == c && blockKey pua == blockKey (mkPua c (rowCe e.1) (rowLun e.1) (rowBlock e.1) 0)))).map (·.1)
  if !isProg && !isRead && erased.isEmpty then d
  else
    let d := ((d.takeInjected (Pg.sflFc ch) Er.sflFc_timeout).raise (Pg.sflFc ch) Er.sflFc_timeout pua).count (F.sflFcCnt ch 7)
    let d := if isProg then d.progDone pua false
      else if isRead then d.readDone pua 3 [pua]
      else d.onSfl fun s => { s with eraseBad := erased.foldl (fun m r =>
        Map.set 0 m r (setBit (Map.get 0 m r) ((d.positions r).idxOf ch) true)) s.eraseBad }
    let d := d.onSfl fun s => { s with timeouts := (s.timeouts ++ [(k, d.now)]).filter (fun e => decide (d.since e.2 < 400)) }
    if 3 ≤ (d.sfl.timeouts.filter (fun e => e.1 == k)).length ∧ !d.sfl.fencedLuns.contains k
    then d.lunFail ch (puaCe pua) (puaLun pua) else d

/-! ## Garbage collection and erase (R188–R193, R230) -/

/-- The source rows that GC, not rebuild or reshape, works on. -/
def Dev.gcSource (d : Dev) (s : Nat) : Option Nat :=
  (d.sfl.rows.find? (fun e => decide (rowSet e.1 = s) && decide (e.2.st = .source) && Map.find d.par.cur s != some e.1)).map (·.1)

/-- The CLOSED row with the fewest VALID units, the lowest OPEN_SEQ among equals. -/
def Dev.fewestValid (d : Dev) (s : Nat) : Option Nat :=
  ((d.liveRows s).filter (fun e => decide (e.2.st = .closed))).foldl (fun best e =>
    match best with
    | none => some e.1
    | some b =>
      let x := d.rowEnt b
      if e.2.valid < x.valid ∨ (e.2.valid = x.valid ∧ newer x.openSeq e.2.openSeq) then some e.1 else best) none

/-- ERASES over the non-RETIRED rows of a set: the highest and the lowest (R194, R209). -/
def Dev.wearSpan (d : Dev) (s : Nat) : Nat × Nat :=
  let es := ((d.rowIds s).filter (fun r => decide ((d.rowEnt r).st ≠ .retired))).map (fun r => (d.rowEnt r).erases)
  match es with
  | [] => (0, 0)
  | e :: rest => (rest.foldl max e, rest.foldl min e)

/-- GC of a set idles while it has more than START FREE rows (R188; log entry 96). -/
def Dev.gcIdle (d : Dev) (s : Nat) : Bool := decide (d.rd F.sflGcCfg_start < (d.freeRows s).length)

/-- The next source of a set (R189, R194): refresh first, oldest first; then a wear-levelling row; then the fewest VALID. -/
def Dev.gcPick (d : Dev) (s : Nat) : Option Nat :=
  let mine (r : Nat) : Bool := decide ((d.rowEnt r).st = .closed) && (rowSet r == s || Map.find d.par.back (rowSet r) == some s)
  if d.gcIdle s then none
  else match d.sfl.refresh.find? mine with
    | some r => some r
    | none =>
      let (hi, lo) := d.wearSpan s
      if d.rd F.sflWearCfg_delta < hi - lo then
        ((d.liveRows s).filter (fun e => decide (e.2.st = .closed))).foldl (fun (best : Option Nat) e =>
          match best with
          | none => some e.1
          | some b => if e.2.erases < (d.rowEnt b).erases then some e.1 else some b) none
      else d.fewestValid s

/-- GC_SOURCE_SELECT: the set's GC takes its next source, unless it still has one. -/
def Dev.gcSelect (d : Dev) (s : Nat) : Dev :=
  if !d.flashReady || !d.setOn s || (d.gcSource s).isSome then d
  else match d.gcPick s with
    | none => d
    | some r => ((d.sourceRow r).onSfl fun x => { x with refresh := x.refresh.filter (· != r) }).wr F.sflGcSrc r

/-- The next unit still mapped to a row that no job is moving, in PUA order. -/
def Dev.nextMapped (d : Dev) (r : Nat) : Option (Nat × FUnit) :=
  d.sfl.units.find? (fun e => e.2.tag.row == r && e.2.tag.ty == 1 && entPua (d.mapEnt e.2.tag.unit) == some e.1 &&
    !d.sfl.jobs.any (fun j => j.src == some e.1))

/-- The next map unit of a row that the directory still names and whose pages are not being written. -/
def Dev.nextMapUnit (d : Dev) (r : Nat) : Option Nat :=
  (d.sfl.dir.find? (fun e => d.rowOfPua (dirPua e.2) == some r && dirState e.2 == 1 &&
    !(match d.slotOfPage e.1 with
      | some n => (d.mslot n).writing || (d.mslot n).loading
      | none => false))).map (·.1)

/-- One unit of a source row set moving by a job of kind `why`; a map unit's page is brought in and written again; the
parts of the last checkpoint move by a new checkpoint. Answers whether anything moved. -/
def Dev.moveNext (d : Dev) (r : Nat) (why : JobFor) : Bool × Dev :=
  match d.nextMapped r with
  | some (p, u) => (true, (d.addJob (copyJob why u.tag.unit 2 p none)).2)
  | none =>
    match d.nextMapUnit r with
    | some p =>
      let d := d.lookPage p
      (true, if d.pageIn p then d.mapWriteOut p else d)
    | none =>
      let parts := match d.mram.roots.getLast? with
        | some x => x.parts
        | none => []
      if parts.any (fun p => d.rowOfPua p == some r) then (true, d.ckptStart) else (false, d)

/-- GC_UNIT_COPY; above START FREE rows GC copies nothing (R188). -/
def Dev.gcCopy (d : Dev) (s : Nat) : Dev :=
  if !d.flashReady || d.gcIdle s then d
  else match d.gcSource s with
    | some r => (d.moveNext r (.gc r)).2
    | none => d

/-- R191: no unit mapped to the row, and every copy out of it, map units too, in MRAM and covered. -/
def Dev.mayErase (d : Dev) (r : Nat) : Bool :=
  decide ((d.rowEnt r).st = .source) && decide ((d.rowEnt r).valid = 0) && (d.nextMapped r).isNone &&
    (d.sfl.outs.filter (fun o => o.1 == r)).all (fun o => d.durable (some o.2.1) o.2.2) &&
    !d.sfl.jobs.any (fun j => match j.why with
      | .gc x | .rebuild x | .reshape x => x == r
      | _ => match j.src with
        | some p => d.rowOfPua p == some r
        | none => false)

def Dev.eraseStart (d : Dev) (r : Nat) : Dev :=
  if d.flashReady ∧ d.mayErase r then ((d.onRow r fun e => { e with st := .erasing }).journal 7 0 r 0 0).2 else d

/-- A set whose reshape was abandoned becomes OFF once it holds no unit (R243). -/
def Dev.dropBack (d : Dev) : Dev :=
  d.par.back.foldl (fun d e =>
    if (d.liveRows e.1).isEmpty then
      ((((d.wr (F.parSetCfg_en e.1) 0).wr (F.parSetMem e.1) 0).wr (F.parSetStat_state e.1) 0)).onPar fun p =>
        { p with back := Map.erase p.back e.1 }
    else d) d

/-- FLASH_ERASE_DONE: the members that failed are retired; the row is FREE, or RETIRED where too few members remain. -/
def Dev.eraseDone (d : Dev) (r failed : Nat) : Dev :=
  if (d.rowEnt r).st ≠ .erasing then d
  else
    let chs := d.positions r
    let d := (List.range chs.length).foldl (fun d i =>
      let ch := chs.getD i 0
      let p := mkPua ch (rowCe r) (rowLun r) (rowBlock r) 0
      let d := d.count (F.sflFcCnt ch 1)
      let d := if failed.testBit i || (Map.get 0 d.sfl.eraseBad r).testBit i || d.injected (Pg.sflFc ch) Er.sflFc_eraseFail then
          (((d.takeInjected (Pg.sflFc ch) Er.sflFc_eraseFail).raise (Pg.sflFc ch) Er.sflFc_eraseFail p).count
            (F.sflFcCnt ch 4)).retireBlock p 2
        else d
      d.onSfl fun s => { s with units := Map.dropWindow s.units p (4096 + p) }) d
    let n := min 0xFFFF ((d.rowEnt r).erases + 1)
    let d := (d.onRow r fun _ => d.rowFresh r n).onSfl fun s => { s with
      refresh := s.refresh.filter (· != r), eraseBad := Map.erase s.eraseBad r }
    let d := ((d.journal 8 0 r n 0).2).sflCount 3
    (d.lostClear).dropBack

/-! ## Rebuild and reshape moves (R230–R232, R240) -/

/-- Whether one more unit may move in this 256-tick window, and the count with it (R231, R240). -/
def Dev.rateOk (d : Dev) (s limit : Nat) (shape : Bool) : Bool × Dev :=
  let (start, a, b) := Map.get (0, 0, 0) d.par.moved s
  let (start, a, b) := if 256 ≤ d.since start then (d.now, 0, 0) else (start, a, b)
  if (if shape then b else a) < limit then
    (true, d.onPar fun p => { p with moved := Map.set (0, 0, 0) p.moved s (if shape then (start, a, b + 1) else (start, a + 1, b)) })
  else (false, d)

/-- The data units of a stripe that more positions are erased of than parity can solve: HOLLOW slot, Hollow copies, the chip
log and STRIPE_HOLLOW (R232). -/
def Dev.stripeHollow (d : Dev) (r k : Nat) (bad : List Nat) : Dev :=
  let s := rowSet r
  let gone := d.erasedPos r k bad
  let mask := gone.foldl (fun n p => n + 2 ^ p) 0
  let d := (d.sjNew ⟨4, s, r, k, mask, 0, []⟩).2
  let d := d.logChip (d.logRec 1 (Pg.parSet s) Er.parSet_stripeHollow 2 1 r k)
  let d := d.raise (Pg.parSet s) Er.parSet_stripeHollow (r * 4096 + k)
  ((d.dataPositions r k).filter gone.contains).foldl (fun d p =>
    let pua := d.puaAt r k p
    let u := match Map.find d.sfl.units pua with
      | some u => u
      | none => ⟨Tag.none, []⟩
    let d := d.count (F.parSetCnt s 2)
    if u.tag.ty = 1 then d.rewriteLost pua u
    else if u.tag.ty = 2 ∨ u.tag.ty = 3 ∨ u.tag.ty = 6 then (d.raise Pg.sflReg Er.sflReg_mapLost pua).rewriteSys pua u.tag
    else d) d

/-- The REBUILD slot of a set names its next row, the units moved and the stale rows left (R224). -/
def Dev.rebuildSlot (d : Dev) (s r : Nat) : Dev :=
  let left := leBytes 4 (d.staleRows s).length
  match d.par.slots.find? (fun e => decide (e.2.ty = 3) && decide (e.2.set = s)) with
  | some (n, x) => d.sjPut n { x with row := r, body := leBytes 8 (fieldAt x.body 0 8 + 1) ++ left }
  | none => (d.sjNew ⟨3, s, r, 0, 0, 0, leBytes 8 1 ++ left⟩).2

/-- The set has no stale row: it rebuilds no more. -/
def Dev.rebuildEnds (d : Dev) (s : Nat) : Dev :=
  let d := (d.par.slots.filter (fun e => decide (e.2.ty = 3) && decide (e.2.set = s))).foldl (fun (d : Dev) e => d.sjClear e.1) d
  (((d.wrB (F.parSetStat_rebuild s) false).wr (F.parSetCur s) 0).onPar fun p => { p with cur := Map.erase p.cur s }).lostClear

/-- HOLLOW slots whose lost units nothing names any more are freed (R224). -/
def Dev.hollowClear (d : Dev) : Dev :=
  (d.par.slots.filter (fun e => decide (e.2.ty = 4))).foldl (fun (d : Dev) e =>
    let lost := ((List.range 32).filter e.2.mask.testBit).map (d.puaAt e.2.row e.2.stripe ·)
    if lost.any (fun p => d.sfl.map.any (fun m => entPua m.2 == some p) || d.sfl.dir.any (fun m => dirState m.2 == 1 && dirPua m.2 == p) ||
        d.sfl.jobs.any (fun j => j.src == some p)) then d
    else d.sjClear e.1) d

/-- Where the next unit of a row stands that `moveNext` moves. -/
def Dev.nextAt (d : Dev) (r : Nat) : Option Nat :=
  match d.nextMapped r with
  | some (p, _) => some p
  | none => (d.nextMapUnit r).map (fun p => dirPua (d.dirEnt p))

/-- A unit's stripe has more erased positions than parity solves, and has no HOLLOW slot yet (R232). -/
def Dev.beyond (d : Dev) (r p : Nat) (bad : List Nat) : Bool :=
  let inj := d.injected (Pg.parSet (rowSet r)) Er.parSet_stripeHollow
  (inj || ((d.posLost r (puaCh p) || bad.contains p) && (d.reconstruct p bad).isNone)) &&
    !d.par.slots.any (fun e => decide (e.2.ty = 4) && decide (e.2.row = r) && decide (e.2.stripe = puaUnit p))

/-- REBUILD_UNIT_MOVE: the next unit of the set's first stale row. `bad` names units of its stripe that cannot be read. -/
def Dev.rebuildMove (d : Dev) (s : Nat) (bad : List Nat) : Dev :=
  if !d.flashReady || !d.setOn s || !(d.classServed 3 || decide (d.rd (F.parSetStat_state s) = 3)) then d
  else match (d.staleRows s).find? (fun r => decide ((d.rowEnt r).st = .closed) || decide ((d.rowEnt r).st = .source)) with
    | none => d.rebuildEnds s
    | some r =>
      let (ok, d) := d.rateOk s (d.rd (F.parSetRate_rebuild s)) false
      if !ok then d
      else
        let d := (((d.sourceRow r).onSfl fun x => { x with refresh := x.refresh.filter (· != r) }).wr (F.parSetCur s) r).wrB
          (F.parSetStat_rebuild s) true
        let d := (d.onPar fun p => { p with cur := Map.put p.cur s r }).rebuildSlot s r
        match d.nextAt r with
        | some p => if d.beyond r p bad then
            (d.takeInjected (Pg.parSet s) Er.parSet_stripeHollow).stripeHollow r (puaUnit p) bad
          else (d.moveNext r (.rebuild r)).2
        | none => (d.moveNext r (.rebuild r)).2

/-- RESHAPE_UNIT_MOVE: the next unit of set n's CLOSED rows goes to the target. -/
def Dev.reshapeMove (d : Dev) (n : Nat) : Dev :=
  if !d.flashReady || (Map.find d.par.shapes n).isNone || !d.classServed 3 then d
  else
    let rows := (d.liveRows n).filter (fun e => decide (e.2.st = .closed) || decide (e.2.st = .source))
    match rows.find? (fun e => (d.nextMapped e.1).isSome || (d.nextMapUnit e.1).isSome ||
        decide (e.2.st = .closed)) with
    | none => d
    | some (r, _) =>
      let (ok, d) := d.rateOk n (d.rd (F.parSetRate_reshape n)) true
      if !ok then d
      else ((((d.sourceRow r).wr (F.parSetCur n) r).onPar fun p => { p with cur := Map.put p.cur n r }).moveNext r (.reshape r)).2

/-! ## Checkpoints (R199) -/

/-- The row-table entry that 32 bytes hold. -/
def rowOfBytes (b : List Byte) : RowEnt :=
  let st := match fieldAt b 0 1 with
    | 1 => RowSt.opened | 2 => .closed | 3 => .source | 4 => .erasing | 5 => .retired | _ => .free
  let w := fieldAt b 20 4
  ⟨st, fieldAt b 1 1, fieldAt b 2 1, fieldAt b 4 4, fieldAt b 8 4, fieldAt b 12 2, fieldAt b 16 4, w, fieldAt b 24 6, 0, w, w⟩

/-- The rows that have an entry, in the table's order: the enabled sets' rows by row id (log entry 12). -/
def Dev.tableRows (d : Dev) : List Nat := (((List.range 8).filter d.setOn).map d.rowIds).flatten

/-- The bytes of part `n` of a checkpoint: 8,192 directory entries, or 2,048 row-table entries. -/
def Dev.partData (d : Dev) (n : Nat) : Map Byte :=
  if n < 512 then
    (Map.window d.sfl.dir (8192 * n) (8192 + 8192 * n)).foldl
      (fun acc e => Map.setRun 0 acc (8 * (e.1 - 8192 * n)) (leBytes 8 e.2)) []
  else
    let rows := (d.tableRows.drop (2048 * (n - 512))).take 2048
    ((List.range rows.length).zip rows).foldl (fun acc e =>
      if (Map.find d.sfl.rows e.2).isSome then Map.setRun 0 acc (32 * e.1) (d.rowEnt e.2).bytes else acc) []

def Dev.partCount (d : Dev) : Nat := 512 + ceilDiv d.tableRows.length 2048

/-- A checkpoint goes on: the pages that were dirty at C first, then the parts that are not yet written. -/
def Dev.ckptStep (d : Dev) : Dev :=
  let d := d.remapStep
  match d.sfl.ckpt with
  | none => d
  | some c =>
    let old := c.old.filter (fun p => d.sfl.mctt.any (fun e => e.2.page == p && (e.2.dirty || e.2.writing)))
    let d := d.onSfl fun x => { x with ckpt := some { c with old := old } }
    if !d.sfl.remap.isEmpty then d
    else if !old.isEmpty then old.foldl (fun (d : Dev) p => if d.dirtyPages.any (·.page == p) then d.mapWriteOut p else d) d
    else match d.sysSet with
      | none => d
      | some s =>
        let d := d.onSfl fun x => { x with ckpt := some { c with old := [], placed := true } }
        (List.range d.partCount).foldl (fun d n =>
          if (Map.find c.parts n).isSome || d.sfl.progs.any (fun p => p.why == .part c.c n) then d
          else
            let (at_, d) := d.place s 3 ⟨{ Tag.none with ty := if n < 512 then 3 else 6, unit := c.num + n * 2 ^ 32 }, d.partData n⟩ (.part c.c n)
            if at_.isSome then d.sysFound (2 ^ 32) else d.sysWaits (2 ^ 32) s) d

/-- Every part has passed and is covered. -/
def Dev.ckptWhole (d : Dev) (c : Ckpt) : Bool :=
  c.placed && decide (c.parts.length = d.partCount) && c.parts.all (fun e => d.covered e.2)

/-- The row sets that hold the units `ps` count them as current, or no longer. -/
def Dev.countParts (d : Dev) (ps : List Nat) (up : Bool) : Dev :=
  ps.foldl (fun (d : Dev) p =>
    match d.rowOfPua p with
    | some r => d.onRow r fun e => { e with valid := if up then e.valid + 1 else e.valid - 1 }
    | none => d) d

/-- A root copy goes to a system row of SYS_SET (R178, R215), where there is room for it. The bytes of a root are free values (log entry 92). -/
def Dev.rootCopy (d : Dev) (c : Ckpt) (parts : List Nat) : Dev :=
  match d.sysSet with
  | none => d
  | some s => (d.place s 3 ⟨{ Tag.none with ty := 7, unit := c.num },
      mapOfBytes 0 ((List.range 4160).map (Config.rootByte c.num c.c (d.rd F.sflTime) (c.tail % ringSize) parts))⟩ .root).2

/-- CHECKPOINT_DONE: the root, the CHECKPOINT entry, and the ring free before the tail. -/
def Dev.ckptDone (d : Dev) : Dev :=
  match d.sfl.ckpt with
  | none => d
  | some c =>
    if !d.ckptWhole c then d
    else
      let parts := c.parts.map (·.2)
      let oldParts := match d.mram.roots.getLast? with
        | some r => r.parts
        | none => []
      let d := (d.countParts parts true).countParts oldParts false
      let d := d.mramPut 520 fun m => { m with
        roots := (m.roots ++ [(⟨c.num, c.c, d.rd F.sflTime, parts, c.tail⟩ : Root)]).drop (m.roots.length - 1)
        time := d.rd F.sflTime, ringTail := c.tail }
      let d := (d.journal 11 0 c.num (c.tail % ringSize) c.c).2
      let d := ((d.onSfl fun s => { s with ckpt := none }).wrB F.sflJrnStat_ckpt false).wr F.sflJrnCkpt c.num
      let d := d.showRing.rootCopy c parts
      if d.rd F.sflStat = 1 then d.wr F.sflStat 2 else d

/-! ## Rebuild after start-up (R200, R201, R221, R227) -/

/-- Slots restored at start-up from the banks, or from the shadow where neither copy passes its CRC; `bad` names (bank, slot)
whose CRC fails. A DISC_RUN from the shadow gets RECOMPUTE. -/
def Dev.sjRestore (d : Dev) (bad : List (Nat × Nat)) : Dev :=
  let keys := uniq (d.mram.bankA.map (·.1) ++ d.mram.bankB.map (·.1) ++ bad.map (·.2))
  let images : List (Nat × Slot) := match d.par.shadow with
    | some h => ((h.blocks.getD h.current []).map ShadowUnit.images).flatten
    | none => []
  let pick (n : Nat) : Slot :=
    let a := if bad.contains (0, n) then none else some (Map.get Slot.free d.mram.bankA n)
    let b := if bad.contains (1, n) then none else some (Map.get Slot.free d.mram.bankB n)
    match a, b with
    | some x, some y => if newer y.seq x.seq then y else x
    | some x, none => x
    | none, some y => y
    | none, none =>
      let mine := (images.filter (fun e => e.1 == n)).map (·.2)
      let best := mine.foldl (fun (best : Option Slot) s => match best with
        | none => some s
        | some b => if newer s.seq b.seq then some s else some b) none
      match best with
      | some s => if s.ty = 6 then { s with body := s.body.set 1 (w8 ((s.body.getD 1 0).toNat ||| 1)) } else s
      | none => Slot.free
  let slots := keys.foldl (fun m n => if (pick n).ty = 0 then m else Map.set Slot.free m n (pick n)) []
  (d.onPar fun p => { p with slots := slots, pending := [] }).sjShow

/-- The unit at a PUA as the rebuild reads it; none where it cannot be read. -/
def Dev.rebuildRead (d : Dev) (unreadable : List Nat) (p : Nat) : Option FUnit :=
  if unreadable.contains p then none else Map.find d.sfl.units p

/-- A root's directory and row table, from the units it names. A directory part that cannot be read makes its pages LOST; a row-table part
that cannot be read leaves its rows CLOSED where they hold units (R187, R200; log entry 97). -/
def Dev.loadRoot (d : Dev) (unreadable : List Nat) (r : Root) : Dev :=
  let part (n : Nat) : Option FUnit := (r.parts[n]?).bind (d.rebuildRead unreadable)
  let lost := (List.range r.parts.length).filter (fun n => (part n).isNone)
  let dir := ((List.range 512).map (fun n =>
    let bytes := bytesFrom (((part n).map (·.data)).getD []) 0 unitBytes
    (List.range 8192).filterMap (fun i =>
      let v := fieldAt bytes (8 * i) 8
      if v = 0 then none else some (8192 * n + i, v)))).flatten
  let rows := d.tableRows
  let ents := ((List.range rows.length).zip rows).filterMap (fun e =>
    let n := 512 + e.1 / 2048
    let x := match part n with
      | some u => rowOfBytes (bytesFrom u.data (32 * (e.1 % 2048)) 32)
      | none => if lost.contains n && d.sfl.units.any (fun u => u.2.tag.row == e.2) then { RowEnt.reset with st := .closed } else RowEnt.reset
    if x = RowEnt.reset then none else some (e.2, x))
  let pages := ((lost.filter (fun n => decide (n < 512))).map (fun n => (List.range 8192).map (8192 * n + ·))).flatten
  let d := lost.foldl (fun (d : Dev) n => d.raise Pg.sflReg Er.sflReg_mapLost (r.parts.getD n 0)) d
  (d.onSfl fun s => { s with dir := dir, rows := ents, seq := (r.c + 1) % 2 ^ 48, lostPages := pages }).wr F.sflJrnCkpt r.num

/-- The ring's entries from its tail to its head; one whose CRC fails, as `bad` names them by their place in the ring, ends the replay (R197). -/
def Dev.ringEntries (d : Dev) (bad : List Nat) : List JEnt :=
  (((List.range d.ringUsed).map (fun i => (d.mram.ringTail + i) % ringSize)).takeWhile (fun i => !bad.contains i)).filterMap (Map.find d.mram.ring)

/-- The members that a row left out when its ROW_OPEN entry with this SEQ was made, which names none (log entry 98): those with no block there,
with a block of the shadow, with a block that was bad before, or on a LUN that was LOST before. -/
def Dev.openOut (d : Dev) (es : List JEnt) (r seq : Nat) : Nat :=
  let lost (ch : Nat) : Bool := d.par.slots.any (fun e => decide (e.2.ty = 2) && fieldAt e.2.body 0 1 == ch && decide (fieldAt e.2.body 3 1 ≠ 3) &&
    (fieldAt e.2.body 1 1 == 0xFF || fieldAt e.2.body 1 1 == rowCe r) && (fieldAt e.2.body 2 1 == 0xFF || fieldAt e.2.body 2 1 == rowLun r) &&
    newer seq e.2.seq)
  maskOf ((d.setMembers (rowSet r)).map (fun ch =>
    let b := blockKey (mkPua ch (rowCe r) (rowLun r) (rowBlock r) 0)
    let later := es.any (fun e => e.ty == 9 && blockKey e.keyf == b && newer e.seq seq)
    (d.blockOut ch (rowCe r) (rowLun r) (rowBlock r) && !later) || lost ch))

/-- The SEQ counter goes on above `q` (R179). -/
def Dev.seqAbove (d : Dev) (q : Nat) : Dev :=
  d.onSfl fun s => { s with seq := if newer (q + 1) s.seq then (q + 1) % 2 ^ 48 else s.seq }

/-- One entry replayed into the directory, the row table, the bad-block tables and the append points. -/
def Dev.replayRow (d : Dev) (es : List JEnt) (e : JEnt) : Dev :=
  let d := d.seqAbove e.seq
  match e.ty with
  | 2 => d.onSfl fun s => { s with dir := Map.set 0 s.dir e.keyf e.value, lostPages := s.lostPages.filter (· != e.keyf) }
  | 3 => d.onRow e.keyf fun r =>
    if r.st = .opened ∧ r.openSeq ≠ 0 then r
    else { r with
      st := .opened, role := e.value / 256 % 256, temp := e.value % 256, wtime := e.value / 2 ^ 32, openSeq := e.seq
      bad := d.openOut es e.keyf e.seq, wptr := 0, next := 0 }
  | 4 => d.onRow e.keyf fun r => { r with st := .closed, next := e.value }
  | 5 => d.onRow e.keyf fun r => { r with wptr := e.value, wptrJ := e.value, next := e.value }
  | 6 => d.onRow e.keyf fun r => { r with st := .source }
  | 7 => d.onRow e.keyf fun r => { r with st := .erasing }
  | 8 => d.onRow e.keyf fun _ => d.rowFresh e.keyf e.value
  | 9 => d.onMram fun m => { m with badBlocks := Map.put m.badBlocks (blockKey e.keyf) e.value }
  | 10 => (d.onSfl fun s => { s with append := Map.set 0 s.append e.keyf e.value, idxNext := Map.set 0 s.idxNext e.keyf e.dseq }).showAppend e.keyf
  | _ => d

/-- The map unit of a directory entry, read and with the VER that the entry gives for its half. -/
def Dev.mapUnit (d : Dev) (unreadable : List Nat) (x : Nat) : Option FUnit :=
  (d.rebuildRead unreadable (dirPua x)).bind fun u => if (if dirHalf x = 0 then u.tag.mapVer else u.tag.mapVerB) = dirVer x then some u else none

/-- The entries of every page the directory names, as its map unit holds them; a page whose unit cannot be read is LOST (R187). -/
def Dev.loadMap (d : Dev) (unreadable : List Nat) : Dev :=
  let named := d.sfl.dir.filter (fun e => decide (dirState e.2 = 1))
  let m := (named.map (fun e => match d.mapUnit unreadable e.2 with
    | some u => pageEntries u (dirHalf e.2) e.1
    | none => [])).flatten
  let lost := (named.filter (fun e => (d.mapUnit unreadable e.2).isNone)).map (·.1)
  let d := lost.foldl (fun (d : Dev) p => d.raise Pg.sflReg Er.sflReg_mapLost p) d
  d.onSfl fun s => { s with map := m.mergeSort (fun a b => decide (a.1 ≤ b.1)), lostPages := s.lostPages ++ lost }

/-- The SEQ of the last map-unit write of a page. -/
def Dev.pageSeq (d : Dev) (p : Nat) : Option Nat :=
  let x := d.dirEnt p
  if dirState x = 0 then none else (Map.find d.sfl.units (dirPua x)).map (·.tag.seq)

/-- A MAP entry replayed: applied unless its SEQ lies below the last map-unit write of its page. -/
def Dev.replayMap (d : Dev) (e : JEnt) : Dev :=
  if e.ty ≠ 1 then d
  else
    let old := match d.pageSeq (mapPage e.keyf) with
      | some w => newer w e.seq
      | none => false
    if old then d else (d.pageFound (mapPage e.keyf)).onSfl fun s => { s with map := Map.set 0 s.map e.keyf e.value }

/-- VALID of every row counted afresh from the map, the directory and the root. -/
def Dev.recount (d : Dev) : Dev :=
  let parts := match d.mram.roots.getLast? with
    | some r => r.parts
    | none => []
  let d := d.onSfl fun s => { s with rows := s.rows.map (fun e => (e.1, { e.2 with valid := 0 })) }
  let d := (d.put64 F.sflValidLo F.sflValidHi 0)
  let d := d.sfl.map.foldl (fun d e => d.validBy e.2 true) d
  let d := d.sfl.dir.foldl (fun d e => d.dirValid e.2 true) d
  parts.foldl (fun d p => match d.rowOfPua p with
    | some r => d.onRow r fun e => { e with valid := e.valid + 1 }
    | none => d) d

/-- The first stripe of an OPEN row from its WPTR on whose positions are all erased. -/
def Dev.firstErased (d : Dev) (r : Nat) : Nat :=
  let w := (d.rowEnt r).wptr
  w + (((List.range (d.rowStripes r - w)).takeWhile (fun i =>
    (d.positions r).any (fun ch => (Map.find d.sfl.units (mkPua ch (rowCe r) (rowLun r) (rowBlock r) (w + i))).isSome))).length)

/-- The tag scan (R200 step 3): the newer of two copies of a GLU wins. `mapped` gives, for GLUs with a replayed MAP entry,
the SEQ of the copy it names, or its own where it names none; `c` is the root's SEQ. -/
def Dev.tagScan (d : Dev) (mapped : Map Nat) (c : Nat) (unreadable : List Nat) : Dev :=
  let rows := d.sfl.rows.filter (fun e => decide (e.2.st = .opened))
  rows.foldl (fun d e =>
    let found := d.sfl.units.filter (fun u => u.2.tag.row == e.1 && u.2.tag.ty == 1 && decide (e.2.wptr ≤ puaUnit u.1) &&
      decide (puaUnit u.1 < d.firstErased e.1) && u.2.tag.unit != 2 ^ 64 - 1 && !unreadable.contains u.1)
    found.foldl (fun d u =>
      let glu := u.2.tag.unit
      let cur := d.mapEnt glu
      let curSeq := match Map.find mapped glu with
        | some q => some q
        | none => match entPua cur with
          | some p => (Map.find d.sfl.units p).map (·.tag.seq)
          | none => some c
      let wins := entPua cur != some u.1 && (match curSeq with
        | some q => newer u.2.tag.seq q
        | none => true)
      if wins then
        let d := (d.pageFound (mapPage glu)).onSfl fun s => { s with map := Map.set 0 s.map glu (entFlash u.1 u.2.tag.enc u.2.tag.key) }
        (d.wr F.sflRebuildScan (d.rd F.sflRebuildScan + 1)).raise Pg.sflReg Er.sflReg_scanFound glu
      else d) d) d

/-- The data units of a stripe are to be written again; its OPEN_STRIPE slot stays until they are (R220, R221, R224). -/
def Dev.stripeAgain (d : Dev) (r k : Nat) (slot : Option Nat) : Dev :=
  let d := match slot with
    | some n => d.onSfl fun x => { x with stripes := x.stripes ++ [(⟨r, k, n, d.now, 0, 0, 0, true, true, []⟩ : Stripe)] }
    | none => d
  let mine := (d.dataPositions r k).map (d.puaAt r k)
  d.rewrite mine.contains none

/-- One stripe examined at the rebuild (R221): a data position that cannot be read is lost as in R220; then the stripe is covered as it stands,
or completed with pads and parity, or its data is written again. A stripe with one parity unit programmed and the other erased is completed
where the one is equal (log entry 99). -/
def Dev.examine (d : Dev) (unreadable : List Nat) (r k : Nat) (slot : Option Nat) : Dev :=
  let there (p : Nat) : Bool := (Map.find d.sfl.units (d.puaAt r k p)).isSome
  let get (p : Nat) : Option FUnit := d.rebuildRead unreadable (d.puaAt r k p)
  let ps := d.dataPositions r k
  let pq := d.parityPositions r k
  let ds := ((List.range ps.length).zip ps).filterMap (fun e => (get e.2).map (fun u => (e.1, u.data)))
  let want := [parP ds, parQ ds].take pq.length
  let lost := ps.filter (fun p => there p && (get p).isNone)
  let d := lost.foldl (fun (d : Dev) p => d.lostSlot (rowSet r) (puaCh (d.puaAt r k p)) (rowCe r) (rowLun r) 3 r k p) d
  let sound := (pq.zip want).all (fun e => !there e.1 || (match get e.1 with
    | some u => u.data == e.2 || !lost.isEmpty
    | none => false))
  let free (d : Dev) : Dev := match slot with
    | some n => d.sjClear n
    | none => d
  if !sound then
    ((d.raise (Pg.parSet (rowSet r)) Er.parSet_parityMismatch (r * 4096 + k)).count (F.parCnt 4)).stripeAgain r k slot
  else if pq.length ≤ lost.length then
    (((d.count (F.parCnt 3)).count (F.parSetCnt (rowSet r) 4)).raise (Pg.parSet (rowSet r)) Er.parSet_uncovered r).stripeAgain r k slot
  else
    let e := d.rowEnt r
    let put (d : Dev) (p : Nat) (u : FUnit) : Dev :=
      let (q, d) := d.takeSeq
      let pua := d.puaAt r k p
      let t := { u.tag with
        seq := q, row := r, erases := e.erases, wtime := d.rd F.sflTime
        temp := unsgn 8 (d.lunTemp (puaCh pua) (puaCe pua) (puaLun pua)) }
      d.onSfl fun s => { s with units := Map.put s.units pua ⟨t, u.data⟩ }
    let bare := pq.any (fun p => !there p)
    let d := if bare then (ps.filter (fun p => !there p)).foldl (fun d p =>
        ((put d p padUnit).count (F.parCnt 1)).count (F.parSetCnt (rowSet r) 3)) d
      else d
    let hol := (d.stripeData r k).foldl (fun n x => n ||| x.2.2.tag.hollowMap) 0
    let d := ((List.range 2).zip (pq.zip want)).foldl (fun d x =>
      if there x.2.1 then d else put d x.2.1 ⟨{ Tag.none with ty := 4 + x.1, unit := k, hollowMap := hol }, x.2.2⟩) d
    free (d.count (F.parCnt 0))

/-- The stripes that the rebuild examines, with their OPEN_STRIPE slots (R221): of each OPEN row those from its WPTR on up to the first with all
positions erased, and every stripe that a slot names. -/
def Dev.toExamine (d : Dev) : List (Nat × Nat × Option Nat) :=
  let slots := d.par.slots.filter (fun e => decide (e.2.ty = 1))
  let opened := ((d.sfl.rows.filter (fun e => decide (e.2.st = .opened))).map (fun e =>
    (List.range (d.firstErased e.1 - e.2.wptr)).map (fun i =>
      (e.1, e.2.wptr + i, (slots.find? (fun x => x.2.row == e.1 && x.2.stripe == e.2.wptr + i)).map (·.1))))).flatten
  opened ++ (slots.filter (fun x => !opened.any (fun o => o.1 == x.2.row && o.2.1 == x.2.stripe))).map (fun x => (x.2.row, x.2.stripe, some x.1))

/-- A channel of an enabled set is in training: its operations, and so the rebuild, wait (R163). -/
def Dev.setsTrain (d : Dev) : Bool :=
  (List.range 8).any (fun s => d.setOn s && (d.setMembers s).any (fun ch => decide (d.rd (F.sflFcStat_train ch) = 1)))

/-- What shows the state restored: the append points, the encryption of the unit each volume fills, the SEQ counter above every SEQ that stands
in flash and in the stripe journal, and the tables in their buffers (R172, R179, R182, R209). -/
def Dev.rebuildShows (d : Dev) : Dev :=
  let d := d.sfl.units.foldl (fun (d : Dev) u => d.seqAbove u.2.tag.seq) d
  let d := d.par.slots.foldl (fun (d : Dev) s => d.seqAbove s.2.seq) d
  let enc (v at_ : Nat) : Option Nat :=
    let e := d.mapEnt (4096 * d.rd (F.sflVolBase v) + at_ / 256)
    if at_ % 256 = 0 ∨ entState e ≠ 1 then none else some (if entEnc e then entKey e + 1 else 0)
  let d := d.onSfl fun s => { s with encLast := s.append.filterMap (fun a => (enc a.1 a.2).map (fun x => (a.1, x))) }
  let d := d.sfl.dir.foldl (fun (d : Dev) e => d.putTable d.sfl.dirBufs[e.1 / 8192]? (8 * (e.1 % 8192)) (leBytes 8 e.2)) d
  let d := d.par.shapes.foldl (fun (d : Dev) e => d.onPar fun p => { p with shapeV := Map.put p.shapeV e.1 (d.setMapped e.1) }) d
  (((List.range 8).filter d.setOn).foldl (fun (d : Dev) s => d.rowsBuild s) d).showSeq.showRing

/-- FLASH_REBUILD: steps 1–4 of R200, then the checkpoint of step 5 starts; STATE becomes READY at its end, or at once where
no system set is enabled and there is nothing to write it to (log entry 13). `unreadable` are units that cannot be read, `badRing` places of
the ring whose entry fails its CRC, and `badRoots` the numbers of roots that are not valid. -/
def Dev.flashRebuild (d : Dev) (ms : Nat) (unreadable badRing badRoots : List Nat) : Dev :=
  if d.rd F.sflStat ≠ 1 || d.sfl.ckpt.isSome || d.setsTrain then d
  else
    let root := (d.mram.roots.filter (fun r => !badRoots.contains r.num)).foldl (fun (best : Option Root) r => match best with
      | none => some r
      | some b => if b.num < r.num then some r else some b) none
    let d := match root with
      | some r => d.loadRoot unreadable r
      | none => d
    let es := d.ringEntries badRing
    let d := es.foldl (fun (d : Dev) e => d.replayRow es e) d
    let d := d.loadMap unreadable
    let d := es.foldl Dev.replayMap d
    let mapped : Map Nat := es.foldl (fun m e => if e.ty = 1 then Map.put m e.keyf (if e.dseq = 0 then e.seq else e.dseq) else m) []
    let d := d.tagScan mapped (match root with
      | some r => r.c
      | none => 0) unreadable
    let d := d.recount
    let d := d.toExamine.foldl (fun (d : Dev) x => d.examine unreadable x.1 x.2.1 x.2.2) d
    let d := (d.sfl.rows.filter (fun e => decide (e.2.st = .opened))).foldl (fun d e =>
      let n := d.firstErased e.1
      d.onRow e.1 fun x => { x with wptr := n, next := n }) d
    let dirty := (uniq (d.sfl.map.map (fun e => mapPage e.1))).filter (fun p =>
      match Map.find d.sfl.units (dirPua (d.dirEnt p)) with
      | some u => pageData d.sfl.map p (32768 * dirHalf (d.dirEnt p)) !=
          Map.window u.data (32768 * dirHalf (d.dirEnt p)) (32768 + 32768 * dirHalf (d.dirEnt p))
      | none => true)
    let d := d.rebuildShows.onSfl fun s => { s with remap := s.remap ++ dirty.filter (fun p => !s.remap.contains p) }
    let d := d.wr F.sflRebuildTime ms
    match d.sysSet with
    | some _ => d.ckptStart.ckptStep
    | none => d.wr F.sflStat 2

end Sys2Proof.Machine
end

