-- ==== Sys2Proof/Machine/Parity.lean ====
section
/-! DEFINITION. The stripe journal's stores, the shadow, reshapes and disc parity runs (R222, R225, R226, R228, R234–R243). -/
namespace Sys2Proof.Machine
open Sys2Proof

/-! ## The banks and the shadow (R222, R225, R226) -/

/-- The set whose member a channel is. -/
def Dev.setOfChannel (d : Dev) (ch : Nat) : Option Nat := (List.range 8).find? (fun s => d.setOn s && (d.setMembers s).contains ch)

/-- Units in one shadow block. -/
def Dev.shadowUnits (d : Dev) (h : Shadow) : Nat :=
  let p := (h.keys.getD 0 0) * 4096
  d.unitsOf (puaCh p) (puaCe p)

/-- The images of a shadow unit in their places; an unused place holds 0xFF bytes, which fail their CRC. -/
def ShadowUnit.bytes (u : ShadowUnit) : List Byte :=
  ((List.range 1024).map (fun i => match u.images[i]? with
    | some e => e.2.bytes e.1
    | none => List.replicate 64 0xFF)).flatten

/-- The 64-byte header of a shadow unit, in place of a page tag. -/
def ShadowUnit.header (u : ShadowUnit) : List Byte :=
  let top := u.images.foldl (fun (q : Nat) e => if newer e.2.seq q then e.2.seq else q) ((u.images.head?.map (·.2.seq)).getD 0)
  let b := leBytes 6 top ++ leBytes 2 u.index ++ leBytes 4 u.snap ++ zeros 48
  b ++ leBytes 4 (crc32c b)

/-- Snapshot `snap` of all slots: 64 units of 1,024 images, those of FREE slots too. -/
def Dev.snapshot (d : Dev) (snap : Nat) : List ShadowUnit :=
  (List.range 64).map (fun u => ⟨snap, u, (List.range 1024).map (fun i => (1024 * u + i, d.sjSlot (1024 * u + i)))⟩)

/-- The SHADOW slot names the shadow and its snapshot number (R224). -/
def Dev.shadowSlot (d : Dev) (ch s : Nat) (keys : List Nat) (snap : Nat) : Dev :=
  let p := keys.headD 0 * 4096
  let body := leBytes 1 ch ++ leBytes 1 (puaCe p) ++ leBytes 1 (puaLun p) ++ leBytes 2 (puaBlock p) ++
    leBytes 2 (puaBlock (keys.getD 1 0 * 4096)) ++ leBytes 4 snap
  match d.par.slots.find? (fun e => decide (e.2.ty = 7)) with
  | some e => d.sjPut e.1 { e.2 with set := s, body := body }
  | none => (d.sjNew ⟨7, s, 0xFFFFFFFF, 0, 0, 0, body⟩).2

/-- The shadow takes two blocks on one LUN of a channel, from two FREE rows of its set, and begins with a snapshot (R225, R226). -/
def Dev.shadowOpen (d : Dev) (ch : Nat) : Dev :=
  match d.setOfChannel ch with
  | none => d
  | some s =>
    let rows := (d.freeRows s).filter (fun r => (d.leftOut s (rowCe r) (rowLun r) (rowBlock r)).testBit ((d.setMembers s).idxOf ch) == false)
    let pair := rows.findSome? (fun r => (rows.find? (fun q => decide (r < q) && decide (rowCe q = rowCe r) && decide (rowLun q = rowLun r))).map (r, ·))
    match pair with
    | some (r1, r2) =>
      let keys := [r1, r2].map (fun r => blockKey (mkPua ch (rowCe r) (rowLun r) (rowBlock r) 0))
      let snap := d.rd F.parSjSnap + 1
      let d := d.wr F.parSjSnap snap
      let d := d.onPar fun p => { p with shadow := some ⟨ch, keys, [d.snapshot snap, []], 0, [], d.now⟩ }
      (((d.shadowSlot ch s keys snap).wrB F.parSjStat_shadowOk true).wr F.parSjStat_sch ch).rowsBuild s
    | none => d

/-- A channel can hold the shadow. -/
def Dev.shadowCan (d : Dev) (ch : Nat) : Bool :=
  (d.channelLuns ch).any (fun k => d.lunAvail ch (k / 8 % 8) (k % 8)) && (d.setOfChannel ch).isSome

/-- The shadow leaves its channel for the lowest available member of the same set, or is given up (R226). -/
def Dev.shadowMove (d : Dev) : Dev :=
  match d.par.shadow with
  | none => d
  | some h =>
    let d := d.onPar fun p => { p with shadow := none }
    let d := (d.par.slots.filter (fun e => decide (e.2.ty = 7))).foldl (fun (d : Dev) e => d.sjClear e.1) d
    let d := d.wrB F.parSjStat_shadowOk false
    let d := match d.setOfChannel h.ch with
      | none => d
      | some s => let d := d.rowsBuild s
        match (d.setMembers s).find? (fun c => c != h.ch && d.shadowCan c) with
        | some c => d.shadowOpen c
        | none => d
    d.raise Pg.parSj Er.parSj_shadowMoved h.ch

/-- SHADOW_PROGRAM: one unit of up to 1,024 images when the interval has passed, 1,024 images wait, or both banks failed. -/
def Dev.shadowProgram (d : Dev) (pass : Bool) : Dev :=
  if d.sfl.frozen then d
  else match d.par.shadow with
    | none => if d.shadowCan (d.rd F.parSjCfg_jch) then d.shadowOpen (d.rd F.parSjCfg_jch) else d
    | some h =>
      let alone := !(d.bankOk 0 || d.bankOk 1)
      let due := decide (d.rd F.parSjCfg_shadowInt ≤ d.since h.last) || decide (1024 ≤ h.pending.length) || alone
      if !d.shadowCan h.ch then d.shadowMove
      else if !due then d
      else if !pass then d.shadowMove
      else
        let imgs := h.pending.take 1024
        let cur := h.blocks.getD h.current []
        let full := decide (d.shadowUnits h ≤ cur.length)
        let snap := d.rd F.parSjSnap + b2n full
        let units := if full then d.snapshot snap else cur
        let h' := { h with
          current := if full then 1 - h.current else h.current
          blocks := h.blocks.set (if full then 1 - h.current else h.current) (units ++ [(⟨snap, units.length, imgs⟩ : ShadowUnit)]) }
        let d := d.when full fun d => (d.wr F.parSjSnap snap).shadowSlot h.ch ((d.setOfChannel h.ch).getD 0) h.keys snap
        let d := d.onPar fun p => { p with shadow := p.shadow.map fun x => { h' with pending := x.pending.drop 1024, last := d.now } }
        if alone then d.onPar fun p => { p with pending := p.pending.filter (fun e => !imgs.any (fun i => i.1 == e.1)) } else d

/-- The chip safe state comes from a fence of region `r` that was not confirmed: its journal takes what has reached MRAM. -/
def Dev.lostFence (d : Dev) (r : Nat) : Bool :=
  d.plat.safe && decide (d.rd F.pltSafeCause_cause = 1) && decide (d.rd F.pltSafeCause_region = r)

/-- At a boundary the buffered slot writes, none of them older than a tick, go to the banks, and a shadow whose channel cannot hold it
moves (R222, R226). -/
def Dev.sjTick (d : Dev) : Dev :=
  let d := if d.plat.sjDone || d.lostFence 7 then d else d.sjFlush false false
  if d.sfl.frozen || !(d.par.shadow.any (fun h => !d.shadowCan h.ch)) then d else d.shadowMove

/-! ## Reshape (R239–R243) -/

/-- The PAR root holds the sets' members, parity and volume bindings, their RESHAPE state (0 none, 1 BUILD, 2 SWITCHED), and the system set (R241). -/
def Dev.parRootWrite (d : Dev) : Dev := d.mramPut 16 fun m => { m with
  parRoot := (List.range 8).map (fun s => (d.rd (F.parSetMem s), b2n (d.setQ s), d.rd (F.parSetVolLo s) + d.rd (F.parSetVolHi s) * 2 ^ 32))
  parShapes := (List.range 8).map (fun s => if (Map.find d.par.shapes s).isNone then 0 else if d.rd (F.parSetStat_reshape s) = 1 then 1 else 2)
  parSys := d.rd F.parRegCfg }

/-- A commit of set `n` with other members or parity starts BUILD on its TARGET `t`, which takes the staged layout. -/
def Dev.reshapeStart (d : Dev) (n t mem q : Nat) : Dev :=
  let d := ((d.wr (F.parSetMem t) mem).wr (F.parSetCfg_q t) q).wr (F.parSetCfg_en t) 1
  let d := d.wr (F.parSetCfg_fillWait t) (d.rd (F.parSetCfg_fillWait n))
  let d := (d.wr (F.parSetStat_state t) 1).wr (F.parSetStat_reshape t) 2
  let d := d.wr (F.parSetStat_reshape n) 1
  let d := (d.sjNew ⟨5, n, 0xFFFFFFFF, 0, 0, 0, leBytes 1 t ++ leBytes 1 1⟩).2
  (d.onPar fun p => { p with shapes := Map.put p.shapes n t, shapeV := Map.put p.shapeV n (d.setMapped n), shapeHeld := Map.erase p.shapeHeld n }).parRootWrite

/-- The build is complete when set n has no CLOSED, SOURCE or ERASING rows left (R240). -/
def Dev.reshapeBuilt (d : Dev) (n : Nat) : Bool :=
  !(d.liveRows n).any (fun e => decide (e.2.st ≠ .opened))

/-- A tick in which PAR or SFL stands in HOLDING does not count towards the build bounds (R491 N5). -/
def Dev.shapesHeld (d : Dev) : Dev :=
  if d.rd (F.pltFwReg_state 6) = 2 ∨ d.rd (F.pltFwReg_state 7) = 2 then
    d.onPar fun p => { p with shapeHeld := p.shapes.foldl (fun (m : Map Nat) e => Map.put m e.1 (Map.get 0 m e.1 + 1)) p.shapeHeld }
  else d

/-- The build bound of a reshape, in ticks, with those spent in HOLDING; none is known from a restart until the map is restored (R240). -/
def Dev.reshapeBound (d : Dev) (n : Nat) : Option Nat :=
  (Map.find d.par.shapeV n).map fun v => ceilDiv (2 * v * 256) (max 1 (d.rd (F.parSetRate_reshape n))) + 40000 + Map.get 0 d.par.shapeHeld n

/-- The RESHAPE slot of set `n` takes the state `code` and the tick of its switch (R224). -/
def Dev.shapeState (d : Dev) (n code : Nat) : Dev :=
  (d.par.slots.filter (fun e => decide (e.2.ty = 5) && decide (e.2.set = n))).foldl (fun d e =>
    d.sjPut e.1 { e.2 with body := splice (splice (padTo 36 e.2.body) 1 (leBytes 1 code)) 10 (leBytes 4 d.now) }) d

/-- The switch, by one update of the PAR root (R241). -/
def Dev.reshapeSwitch (d : Dev) (n : Nat) : Dev :=
  match Map.find d.par.shapes n with
  | none => d
  | some t =>
    let d := (d.wr (F.parSetVolLo t) (d.rd (F.parSetVolLo n))).wr (F.parSetVolHi t) (d.rd (F.parSetVolHi n))
    let d := (d.wr (F.parSetVolLo n) 0).wr (F.parSetVolHi n) 0
    let d := if d.rd F.parRegCfg = n then d.wr F.parRegCfg t else d
    let d := ((d.wr (F.parSetStat_reshape n) 3).wr (F.parSetStat_reshape t) 0).parRootWrite
    (((d.liveRows n).filter (fun e => decide (e.2.st = .opened))).foldl (fun d e => d.closeRow e.1) d).shapeState n 3

/-- Teardown may end: every row of set n has been moved and erased (R242). -/
def Dev.reshapeEmpty (d : Dev) (n : Nat) : Bool := (d.liveRows n).isEmpty

def Dev.reshapeEnd (d : Dev) (n : Nat) : Dev :=
  let d := ((d.wr (F.parSetCfg_en n) 0).wr (F.parSetMem n) 0).wr (F.parSetStat_state n) 0
  let d := (d.wr (F.parSetStat_reshape n) 0).wr (F.parSetCur n) 0
  let d := (d.par.slots.filter (fun e => decide (e.2.ty = 5) && decide (e.2.set = n))).foldl (fun d e => d.sjClear e.1) d
  (d.onPar fun p => { p with shapes := Map.erase p.shapes n, shapeV := Map.erase p.shapeV n }).parRootWrite

/-! ## Disc runs (R234–R236, R238) -/

/-- The body of a DISC_RUN slot, read and put field by field (bytes 22–57 of the slot). -/
def Slot.runSlot (s : Slot) : Nat := fieldAt s.body 0 1
def Slot.runCat (s : Slot) : Nat := s.row % 65536
def Slot.runFlags (s : Slot) : Nat := fieldAt s.body 1 1
def Slot.recompute (s : Slot) : Bool := s.runFlags.testBit 0
def Slot.closing (s : Slot) : Bool := s.runFlags.testBit 1
def Slot.added (s : Slot) (i : Nat) : Nat := fieldAt s.body (2 + 2 * i) 2
def Slot.pDone (s : Slot) : Nat := fieldAt s.body 22 2
def Slot.qDone (s : Slot) : Nat := fieldAt s.body 24 2
def Slot.runCount (s : Slot) : Nat := fieldAt s.body 26 2
def Slot.put16 (s : Slot) (at_ v : Nat) : Slot := { s with body := splice (padTo 36 s.body) at_ (leBytes 2 v) }
def Slot.putFlag (s : Slot) (bit : Nat) (b : Bool) : Slot :=
  { s with body := splice (padTo 36 s.body) 1 (leBytes 1 (setBit s.runFlags bit b)) }

/-- Open runs, as (slot number, slot). -/
def Dev.runs (d : Dev) : List (Nat × Slot) := d.par.slots.filter (fun e => decide (e.2.ty = 6))
def Dev.showRuns (d : Dev) : Dev := d.wr F.parDiscStat d.runs.length
def Dev.runAt (d : Dev) (j : Nat) : Option (Nat × Slot) := d.runs.find? (fun e => e.2.runSlot == j)
/-- The open run of a Shell that covers disc stripe `b`; a closing one covers only the stripes it counts. -/
def Dev.runOf (d : Dev) (cat b : Nat) : Option (Nat × Slot) :=
  d.runs.find? (fun e => decide (e.2.runCat = cat) && decide (e.2.stripe ≤ b) && decide (b < e.2.stripe + if e.2.closing then e.2.runCount else 16384))

/-- A run is opened for a Shell's disc stripes from `first` on in a free run slot; STAGE_FULL where there is none (R235). -/
def Dev.runOpen (d : Dev) (cat first : Nat) : Bool × Dev :=
  let used := d.runs.map (·.2.runSlot)
  match (List.range (d.rd F.parDiscStage_runs)).find? (fun j => !used.contains j) with
  | none => (false, d.raise Pg.parDisc Er.parDisc_stageFull cat)
  | some j =>
    let (n, d) := d.sjNew ⟨6, 0xFF, cat, first, 0, 0, padTo 36 (leBytes 1 j)⟩
    (n.isSome, d.showRuns)

/-- The GLU of staged unit `u` of parity `p` (0 P, 1 Q) at stripe offset `x` of run slot `j` (R235). -/
def Dev.stagedGlu (d : Dev) (j p x u : Nat) : Nat :=
  4096 * d.rd F.parDiscStage_base + 131072 * j + 65536 * p + 4 * x + u

/-- A data band-row of disc `i` at stripe offset `x` enters the staged P and Q (R236). Out of order, or repeated: ignored and
counted. The adds of a run in RECOMPUTE wait. -/
def Dev.discAdd (d : Dev) (j i x : Nat) (units : List (Map Byte)) : Dev :=
  match d.runAt j with
  | none => d.countIgnored Pg.parDisc j
  | some (_, s) =>
    let under := d.par.adds.filter (fun a => a.slot == j && a.disc == i)
    if s.recompute then d
    else if 10 ≤ i ∨ x ≠ s.added i + under.length then d.countIgnored Pg.parDisc j
    else
      let id := d.par.nextAdd
      let d := d.onPar fun p => { p with adds := p.adds ++ [⟨id, j, i, x, 8⟩], nextAdd := id + 1 }
      let job (p u : Nat) (data : Map Byte) : Job :=
        { newJob (.staged id) (d.stagedGlu j p x u) 0 with len := unitBytes, data := data, xor := true }
      (List.range 4).foldl (fun d u =>
        let m := units.getD u []
        let d := (d.addJob (job 0 u m)).2
        (d.addJob (job 1 u (mapScale (gfAlpha i) m))).2) d

/-- An add whose copies are all durable is counted once every earlier band-row of its disc is (R236). -/
def Dev.countAdd (d : Dev) (a : RunAdd) : Dev :=
  match d.runAt a.slot with
  | some (n, s) =>
    if a.left = 0 ∧ s.added a.disc = a.x then
      ((d.onPar fun p => { p with adds := p.adds.filter (fun x => x.id != a.id) }).sjPut n
        ((s.put16 (2 + 2 * a.disc) (a.x + 1)).put16 26 (max s.runCount (a.x + 1)))).count (F.parDiscCnt 0)
    else d
  | none => d.onPar fun p => { p with adds := p.adds.filter (fun x => x.id != a.id) }

/-- One staged copy of an add is durable; with the last, ADDED counts the band-row. -/
def Dev.addDurable (d : Dev) (id : Nat) : Dev :=
  match d.par.adds.find? (fun a => a.id == id) with
  | none => d
  | some a =>
    let d := d.onPar fun p => { p with adds := p.adds.map (fun x => if x.id = id then { x with left := x.left - 1 } else x) }
    (d.par.adds.filter (fun x => x.slot == a.slot && x.disc == a.disc)).foldl (fun (d : Dev) x => d.countAdd x) d

/-- Every stripe of a run is covered: P and Q verified up to its last stripe, which closing or all ten discs fix. -/
def Dev.runCovered (_d : Dev) (s : Slot) : Bool :=
  (s.closing || decide (s.runCount = 16384)) && decide (s.runCount ≤ s.pDone) && decide (s.runCount ≤ s.qDone)

/-- DISC_RUN_COVERED: the staged units are unmapped and the slot is freed (R236). -/
def Dev.runDone (d : Dev) (j : Nat) : Dev :=
  match d.runAt j with
  | none => d
  | some (n, s) =>
    if !d.runCovered s then d
    else
      let lo := d.stagedGlu j 0 0 0
      let mapped := (Map.window d.sfl.map lo (131072 + lo)).map (·.1)
      let d := mapped.foldl (fun d g =>
        (d.addJob (newJob (.entry 0 none) g 0)).2) d
      ((d.sjClear n).countN (F.parDiscCnt 2) s.runCount).showRuns

/-- RECOMPUTE: the staged P and Q of a run are rebuilt from the band-rows that ADDED counts (R238); `rows` gives them as
(disc, stripe offset, the four units). -/
def Dev.runRecompute (d : Dev) (j : Nat) (rows : List (Nat × Nat × List (Map Byte))) : Dev :=
  match d.runAt j with
  | none => d
  | some (n, s) =>
    if !s.recompute then d
    else
      let xs := List.range s.runCount
      let d := xs.foldl (fun d x => (List.range 4).foldl (fun d u =>
        let ds := (rows.filter (fun r => r.2.1 == x && decide (r.2.1 < s.added r.1))).map (fun r => (r.1, r.2.2.getD u []))
        let job (p : Nat) (m : Map Byte) : Job :=
          { newJob .rewrite (d.stagedGlu j p x u) 0 with len := unitBytes, data := m }
        let d := (d.addJob (job 0 (parP ds))).2
        (d.addJob (job 1 (parQ ds))).2) d) d
      ((d.sjPut n (s.putFlag 0 false)).count (F.parDiscCnt 4)).raise Pg.parDisc Er.parDisc_recompute j

end Sys2Proof.Machine
end

