-- ==== Sys2Proof/Machine/Disc.lean ====
section
/-! DEFINITION. Discs, Shells and the catalogue: zones and slots, the defect list with its pending records, spare slots, NWB,
and what a drive shows of its disc (R248–R269, R273–R279). -/
namespace Sys2Proof.Machine
open Sys2Proof

/-! ## Commands of the host that the region works for -/

def Dev.cmdAt (d : Dev) (a : Nat) : Option Cmd := d.hat.cmds.find? (fun c => c.arrival == a)
def Dev.onCmd (d : Dev) (a : Nat) (f : Cmd → Cmd) : Dev :=
  d.onHat fun h => { h with cmds := h.cmds.map (fun c => if c.arrival = a then f c else c) }
/-- A command's completion is decided, if it was not: status and results. -/
def Dev.cmdEnds (d : Dev) (a status r0 r1 r2 : Nat) : Dev :=
  d.onCmd a fun c => { c with verdict := match c.verdict with
    | some v => some v
    | none => some (status, r0, r1, r2) }

/-! ## Drives -/

def Dev.drive (d : Dev) (n : Nat) : Drive := Map.get Drive.reset d.odr.drives n
def Dev.onDrive (d : Dev) (n : Nat) (f : Drive → Drive) : Dev :=
  d.onOdr fun o => { o with drives := Map.set Drive.reset o.drives n (f (Map.get Drive.reset o.drives n)) }
def Dev.onDisc (d : Dev) (n : Nat) (f : DiscSt → DiscSt) : Dev := d.onDrive n fun v => { v with disc := v.disc.map f }
def Dev.onRecorder (d : Dev) (n : Nat) (f : Recorder → Recorder) : Dev := d.onDrive n fun v => { v with rec_ := f v.rec_ }
/-- DRV_STAT.STATE: 0 EMPTY, 1 LOADING, 2 IDENT, 3 READY, 4 UNLOADING. -/
def Dev.drvState (d : Dev) (n : Nat) : Nat := d.rd (F.drvStat_state n)
def Dev.driveOn (d : Dev) (n : Nat) : Bool := decide (d.unitAt (Pg.odrDrv n) = .active)
def Dev.ad8 (d : Dev) (n : Nat) : Bool := d.flag (F.drvCtrl_jdmCompat n)
/-- The drive holds disc `i` of catalogued Shell `c`. -/
def Dev.discOn (d : Dev) (c i : Nat) : Option Nat :=
  (List.range 4).find? (fun n => decide (d.drvState n ≠ 0) && d.rd (F.drvShell n) == c && d.rd (F.drvStat_disc n) == i)
def Dev.discReady (d : Dev) (c i : Nat) : Option Nat :=
  match d.discOn c i with
  | some n => if d.drvState n = 3 then some n else none
  | none => none

/-- A frame to the head: header, payload and CRC (R282). -/
def headFrame (ty beam stamp : Nat) (payload : List Byte) : List Byte :=
  let b := leBytes 2 (ty * 4096 + beam * 128) ++ leBytes 2 payload.length ++ leBytes 4 (stamp % 2 ^ 32) ++ payload
  b ++ leBytes 4 (crc32c b)

/-- GATE with HOLD on a drive's head link (R321, R325); counted. -/
def Dev.hold (d : Dev) (n : Nat) : Dev := (d.send (.gate n 0 true)).count (F.hlCnt n 6)
def Dev.holdAll (d : Dev) : Dev := (List.range 4).foldl (fun d n => d.hold n) d

/-! ## Zones and slots (R250–R252, R257) -/

/-- A zone entry. An AD-8 disc has one, which gives its rates (log entry 39). -/
def DiscSt.zone (k : DiscSt) (layer z : Nat) : ZoneEnt := k.zones.getD (if k.ad8 then 0 else 16 * layer + z) ⟨0, 0, 0, 0, 0, 0⟩
/-- First slot of zone `z`, and first user index. -/
def DiscSt.firstSlot (k : DiscSt) (layer z : Nat) : Nat :=
  (List.range z).foldl (fun n i => n + (k.zone layer i).user + (k.zone layer i).spare) 0
def DiscSt.firstUser (k : DiscSt) (layer z : Nat) : Nat := (List.range z).foldl (fun n i => n + (k.zone layer i).user) 0
/-- The zone of a user index of a layer. -/
def DiscSt.zoneOf (k : DiscSt) (layer u : Nat) : Nat :=
  ((List.range 16).find? (fun z => decide (u < k.firstUser layer z + (k.zone layer z).user))).getD 15
/-- The zone of a slot of a layer. -/
def DiscSt.zoneOfSlot (k : DiscSt) (layer p : Nat) : Nat :=
  ((List.range 16).find? (fun z => decide (p < k.firstSlot layer z + (k.zone layer z).user + (k.zone layer z).spare))).getD 15

/-- A layer and a slot (AD-8: a row) as one number, and as PLOC writes it (R260). -/
def mkPloc (layer slot : Nat) : Nat := layer * 2 ^ 22 + slot
def plocLayer (p : Nat) : Nat := p / 2 ^ 22 % 32
def plocSlot (p : Nat) : Nat := p % 2 ^ 22
def plocBits (p : Nat) : Nat := plocLayer p * 2 ^ 21 + plocSlot p % 2 ^ 21
def plocOfBits (v : Nat) : Nat := mkPloc (v / 2 ^ 21 % 32) (v % 2 ^ 21)
def browLayer (b : Nat) : Nat := b / 2 ^ 20 % 32
def browUser (b : Nat) : Nat := b % 2 ^ 20

/-- SPOILT entries with SHIFT = 1 in a zone of a layer, up to a band-row. -/
def DiscSt.slips (k : DiscSt) (layer z upTo : Nat) : Nat :=
  (k.ents.filter (fun e => decide (e.ty = 2) && e.shift && browLayer e.brow == layer &&
    k.zoneOf layer (browUser e.brow) == z && decide (e.brow ≤ upTo))).length

/-- Rows of an AD-8 layer (R275). -/
def rowsOfLayer : Nat := 3145728
/-- Where the logical row of an AD-8 disc lies: each stopped row up to it moves it one row on (R333). -/
def DiscSt.rowPhys (k : DiscSt) (r : Nat) : Nat :=
  r + (k.ents.filter (fun e => decide (e.ty = 2) && decide (e.brow % 4 = 0) && decide (e.brow / 4 ≤ r))).length
def rowPloc (r : Nat) : Nat := mkPloc (r / rowsOfLayer) (r % rowsOfLayer)
def plocRow (p : Nat) : Nat := plocLayer p * rowsOfLayer + plocSlot p
/-- Where a logical sector of an AD-8 disc lies, replaced sectors apart in their replacement (R275). -/
def DiscSt.sector8 (k : DiscSt) (l : Nat) : Nat :=
  match (k.ents.filter (fun e => decide (e.ty = 1) && e.brow == l)).getLast? with
  | some e => e.ploc
  | none => 4 * k.rowPhys (l / 4) + l % 4

/-- The slot of a logical band-row (R257). An AD-8 unit lies at its first row. -/
def DiscSt.plocOf (k : DiscSt) (b : Nat) : Nat :=
  if k.ad8 then rowPloc (k.rowPhys (2 * b))
  else match (k.ents.filter (fun e => decide (e.ty = 1) && e.brow == b)).getLast? with
    | some e => e.ploc
    | none =>
      let l := browLayer b
      let z := k.zoneOf l (browUser b)
      mkPloc l (k.firstSlot l z + (browUser b - k.firstUser l z) + k.slips l z b)

/-- The slot a band-row has in logical order, whatever REALLOC entries say. -/
def DiscSt.logicalPloc (k : DiscSt) (b : Nat) : Nat := DiscSt.plocOf { k with ents := k.ents.filter (fun e => decide (e.ty ≠ 1)) } b

/-- Where slot `p` of a layer begins: band and field (R252). -/
def DiscSt.slotPlace (k : DiscSt) (layer p : Nat) : Place :=
  if k.ad8 then ⟨layer, p, 0⟩
  else
  let z := k.zoneOfSlot layer p
  let e := k.zone layer z
  let f := 38 * (p - k.firstSlot layer z)
  ⟨layer, e.firstBand + f / e.frames, f % e.frames⟩

/-- A zone's spare slots that are free: slips take the lowest, REALLOC places and spoilt spares are used (R262). -/
def DiscSt.freeSpares (k : DiscSt) (layer z : Nat) : List Nat :=
  let e := k.zone layer z
  let first := k.firstSlot layer z + e.user
  let slipped := k.slips layer z (2 ^ 26)
  ((List.range e.spare).drop slipped).map (first + ·) |>.filter (fun p =>
    !k.ents.any (fun x => (decide (x.ty = 1) || (decide (x.ty = 2) && !x.shift)) && x.ploc == mkPloc layer p))

/-- A slip in the zone finds the next spare slot free. -/
def DiscSt.canSlip (k : DiscSt) (layer z : Nat) : Bool :=
  let e := k.zone layer z
  let p := k.firstSlot layer z + e.user + k.slips layer z (2 ^ 26)
  (k.freeSpares layer z).contains p

def DiscSt.spareLeft (k : DiscSt) : Nat :=
  if k.ad8 then 0
  else (List.range 32).foldl (fun n l => (List.range 16).foldl (fun n z => n + (k.freeSpares l z).length) n) 0

/-- Zones of a layer in the order a REALLOC of zone `z` tries them: itself, then the nearest, the lower on a tie. -/
def zoneOrder (z : Nat) : List Nat :=
  z :: ((List.range 15).map (fun i => (if i + 1 ≤ z then [z - (i + 1)] else []) ++ (if z + i + 1 < 16 then [z + i + 1] else []))).flatten

/-- The spare slot a REALLOC uses (R262). -/
def DiscSt.reallocSpare (k : DiscSt) (b : Nat) : Option Nat :=
  let l := browLayer b
  let z := k.zoneOf l (browUser b)
  let inZone (l z : Nat) : Option Nat := ((k.freeSpares l z).getLast?).map (mkPloc l)
  match (zoneOrder z).findSome? (inZone l) with
  | some p => some p
  | none => (((List.range 32).filter (· ≠ l)).map (fun l => (List.range 16).map (fun z => (l, z)))).flatten.findSome? (fun x => inZone x.1 x.2)

/-- What R251 asks of a disc's zone entries. -/
def zonesOk (zs : List ZoneEnt) : Bool :=
  decide (zs.length = 512) &&
  zs.all (fun e => decide (4096 * e.frames * e.rpm ≤ 320000000 * 60) && decide (0 < e.frames)) &&
  (List.range 32).all (fun l =>
    let row := (zs.drop (16 * l)).take 16
    decide ((row.map (·.user)).foldl (· + ·) 0 = 1048576) &&
    decide (20972 ≤ (row.map (·.spare)).foldl (· + ·) 0) &&
    (List.zip row (row.drop 1)).all (fun p =>
      decide (p.1.firstBand + ceilDiv (38 * (p.1.user + p.1.spare)) p.1.frames ≤ p.2.firstBand)))

/-! ## The catalogue (R267, R269) -/

def CatEnt.bytes (e : CatEnt) : List Byte :=
  let b := leBytes 8 e.shell ++ leBytes 1 e.st ++ leBytes 1 e.slot ++ leBytes 1 e.format ++ zeros 1 ++ leBytes 2 e.present ++
    leBytes 2 e.closed ++ ((List.range 12).map (fun i => leBytes 4 (e.nwbs.getD i 0))).flatten ++ leBytes 4 e.first ++
    leBytes 4 e.last ++ zeros 52
  if e.st = 0 then zeros 128 else b ++ leBytes 4 (crc32c b)

def CatEnt.ofBytes (b : List Byte) : CatEnt :=
  if crc32c (b.take 124) = fieldAt b 124 4 ∧ fieldAt b 8 1 ≠ 0 then
    ⟨fieldAt b 0 8, fieldAt b 8 1, fieldAt b 9 1, fieldAt b 10 1, fieldAt b 12 2, fieldAt b 14 2,
      (List.range 12).map (fun i => fieldAt b (16 + 4 * i) 4), fieldAt b 64 4, fieldAt b 68 4⟩
  else CatEnt.empty

def Dev.catEnt (d : Dev) (c : Nat) : CatEnt := Map.get CatEnt.empty d.odr.cat c
def Dev.catGlu (d : Dev) (c : Nat) : Nat := 4096 * d.rd F.odrCatCfg_base + c / 512

/-- An entry changes: in the catalogue, and on flash as system data (R269). -/
def Dev.setCat (d : Dev) (c : Nat) (e : CatEnt) : Dev :=
  let d := d.onOdr fun o => { o with cat := Map.set CatEnt.empty o.cat c e }
  let d := d.wr F.odrCatStat d.odr.cat.length
  if d.flag F.odrCatCfg_en then
    (d.addJob { newJob .rewrite (d.catGlu c) 3 with ofs := c % 512 * 128, len := 128, data := mapOfBytes (c % 512 * 128) e.bytes }).2
  else d
def Dev.onCat (d : Dev) (c : Nat) (f : CatEnt → CatEnt) : Dev := d.setCat c (f (d.catEnt c))

/-- The catalogue as flash holds it, read when the FTL is ready; a unit lost at F4 reads as EMPTY entries: CAT_LOST (R277). -/
def Dev.catLoad (d : Dev) : Dev :=
  if !d.flag F.odrCatCfg_en then d
  else
    let d := (List.range 128).foldl (fun d g =>
      let glu := d.catGlu (512 * g)
      let lostAll (d : Dev) : Dev := (d.takeInjected Pg.odrReg Er.odrReg_catLost).raise Pg.odrReg Er.odrReg_catLost glu
      if d.injected Pg.odrReg Er.odrReg_catLost then lostAll d
      else match entPua (d.mapEnt glu) with
      | some p =>
        let (u, lost, d) := d.readUnit p 0 []
        if lost then lostAll (d.rewriteLost p u)
        else (List.range 512).foldl (fun d i =>
          d.onOdr fun o => { o with cat := Map.set CatEnt.empty o.cat (512 * g + i) (CatEnt.ofBytes (bytesFrom u.data (128 * i) 128)) }) d
      | none => if entState (d.mapEnt glu) = 3 then lostAll d else d) d
    d.wr F.odrCatStat d.odr.cat.length

/-- The lowest EMPTY entry. -/
def Dev.catFree (d : Dev) : Option Nat := (List.range 65536).find? (fun c => decide ((d.catEnt c).st = 0))
/-- The entry that names a SHELL_ID. -/
def Dev.catFind (d : Dev) (shell : Nat) : Option Nat :=
  (d.odr.cat.find? (fun e => decide (e.2.st ≠ 0) && e.2.shell == shell)).map (·.1)
/-- The entry of the Shell stored in a slot. -/
def Dev.catAtSlot (d : Dev) (slot : Nat) : Option Nat :=
  (d.odr.cat.find? (fun e => (decide (e.2.st = 1) || decide (e.2.st = 2)) && e.2.slot == slot)).map (·.1)
/-- A SHELL_ID for a Shell first catalogued now, which takes the next SEQ. -/
def Dev.newShellId (d : Dev) : Nat × Dev :=
  let (q, d) := d.takeSeq
  (d.rd F.ldrCfg_site * 2 ^ 48 + q, d)

/-! ## The defect list (R259–R263) -/

def DdlEnt.bytes (e : DdlEnt) : List Byte :=
  let b := leBytes 1 e.ty ++ leBytes 1 (b2n e.shift) ++ leBytes 1 e.cause ++ zeros 1 ++ leBytes 4 e.brow ++ leBytes 4 (plocBits e.ploc) ++
    leBytes 4 e.smask ++ leBytes 8 e.hmap ++ leBytes 4 e.time ++ zeros 2
  b ++ leBytes 2 (crc16 b)

def DdlEnt.ofBytes (b : List Byte) : Option DdlEnt :=
  if crc16 (b.take 30) = fieldAt b 30 2 then
    some ⟨fieldAt b 0 1, bitAt (fieldAt b 1 1) 0, fieldAt b 2 1, fieldAt b 4 4, plocOfBits (fieldAt b 8 4), fieldAt b 12 4, fieldAt b 16 8, fieldAt b 24 4⟩
  else none

/-- An AD-8 entry: logical sector, replacement sector, type (R275). -/
def DdlEnt.bytes8 (e : DdlEnt) : List Byte :=
  let b := leBytes 4 e.brow ++ leBytes 4 e.ploc ++ leBytes 1 e.ty ++ zeros 5
  b ++ leBytes 2 (crc16 b)
def DdlEnt.ofBytes8 (b : List Byte) : Option DdlEnt :=
  if crc16 (b.take 14) = fieldAt b 14 2 then some ⟨fieldAt b 8 1, false, 0, fieldAt b 0 4, fieldAt b 4 4, 0, 0, 0⟩ else none

/-- The Hollow entries of a band-row recorded with a map of Hollow blocks: one HOLLOW entry, or in AD-8 one for each sector. -/
def DiscSt.hollowEnts (k : DiscSt) (brow hmap : Nat) : List DdlEnt :=
  if hmap = 0 then []
  else if k.ad8 then ((List.range 8).filter (fun i => decide (bitsOf hmap (2 * i + 1) (2 * i) ≠ 0))).map (fun i => ⟨3, false, 0, 8 * brow + i, 0, 0, 0, 0⟩)
  else [⟨3, false, 0x40, brow, 0, 0, hmap, 0⟩]
/-- The blocks of a band-row that its HOLLOW entries mark. -/
def DiscSt.hmapOf (k : DiscSt) (brow : Nat) : Nat :=
  (k.ents.filter (fun e => decide (e.ty = 3))).foldl (fun m e =>
    if k.ad8 then (if e.brow / 8 = brow then m ||| 3 <<< (2 * (e.brow % 8)) else m)
    else if e.brow = brow then m ||| e.hmap else m) 0

/-- The user bytes of DDL block `n` that a pending record makes. -/
def ddlBlockBytes (ad8 : Bool) (n spare time : Nat) (p : PendRec) : List Byte :=
  let head := leBytes 4 0xDD1B0032 ++ leBytes 4 n ++ leBytes 8 p.shell ++ leBytes 1 p.disc ++ zeros 1 ++ leBytes 2 p.ents.length ++
    leBytes 4 p.nwb ++ leBytes 4 spare ++ leBytes 4 time ++ zeros 28
  let body := (p.ents.map (if ad8 then DdlEnt.bytes8 else DdlEnt.bytes)).flatten
  head ++ leBytes 4 (crc32c (head ++ body)) ++ body

/-- A DDL block as read: valid by its magic, number and CRC; its NWB and entries. -/
def ddlBlockRead (ad8 : Bool) (n : Nat) (b : List Byte) : Option (Nat × List DdlEnt) :=
  let cnt := fieldAt b 18 2
  let w := if ad8 then 16 else 32
  let body := slice b 64 (w * cnt)
  if fieldAt b 0 4 = 0xDD1B0032 ∧ fieldAt b 4 4 = n ∧ crc32c (b.take 60 ++ body) = fieldAt b 60 4 then
    some (fieldAt b 20 4, (List.range cnt).filterMap (fun i => (if ad8 then DdlEnt.ofBytes8 else DdlEnt.ofBytes) (slice body (w * i) w)))
  else none

/-- Recording on the disc of a drive stops (SPARE_EXHAUSTED, DDL_FULL, FULL): the catalogue's CLOSED bit. -/
def Dev.closeDisc (d : Dev) (n : Nat) : Dev :=
  let d := d.onDisc n fun k => { k with stopped := true }
  d.onCat (d.rd (F.drvShell n)) fun e => { e with closed := e.closed ||| 2 ^ d.rd (F.drvStat_disc n) }

def Dev.pendRec (d : Dev) (n : Nat) : PendRec := Map.get ⟨0, 15, 0, []⟩ d.mram.pend n
def Dev.showDisc (d : Dev) (n : Nat) : Dev :=
  match (d.drive n).disc with
  | none => d
  | some k =>
    let was := d.rd (F.drvSpare n)
    let now := k.spareLeft
    let d := ((d.wr (F.drvDdl_blocks n) k.blocks).wr (F.drvDdl_pending n) (d.pendRec n).ents.length).wr (F.drvSpare n) now
    let d := d.wrB (F.drvStat_rdonly n) (!k.rdonly.isEmpty)
    let id := (if k.ad8 then 2 else 1, k.blocks, now, k.serial)
    let key := d.rd (F.drvShell n) * 16 + d.rd (F.drvStat_disc n)
    let d := d.onOdr fun o => { o with idents := Map.put o.idents key id }
    let warn := d.rd (F.drvSpareWarn n)
    if !k.ad8 ∧ warn ≤ was ∧ now < warn then d.raise (Pg.odrDrv n) Er.odrDrv_spareLow now else d

/-- The pending entries of the drive's disc are recorded as a new DDL block, twice, and the record is cleared (R263); on a disc with DDL_UE
nothing is recorded in this load, and they stay (R264). -/
def Dev.ddlRecord (d : Dev) (n : Nat) : Dev :=
  match (d.drive n).disc with
  | none => d
  | some k =>
    let p := d.pendRec n
    if p.ents.isEmpty || k.rdonly.contains 0 then d
    else
      let b := k.blocks + 1
      let bytes := ddlBlockBytes k.ad8 b k.spareLeft (d.rd F.sflTime) p
      let d := (d.send (.leadIn n (78 + 2 * b) bytes)).send (.leadIn n (79 + 2 * b) bytes)
      let d := (d.onDisc n fun k => { k with blocks := b }).mramPut 1 fun m => { m with pend := Map.put m.pend n { p with ents := [] } }
      let d := d.count (F.drvCnt n 5)
      let d := if b = 2008 then (d.raise (Pg.odrDrv n) Er.odrDrv_ddlFull).closeDisc n else d
      d.showDisc n

/-- An entry is made for the disc on a drive: in effect at once, and in the pending record (R261, R263). -/
def Dev.ddlAdd (d : Dev) (n : Nat) (e : DdlEnt) : Dev :=
  let e := { e with time := d.rd F.sflTime }
  let d := d.onDisc n fun k => { k with ents := k.ents ++ [e] }
  let p := d.pendRec n
  let d := d.mramPut 4 fun m => { m with pend := Map.put m.pend n { p with ents := p.ents ++ [e] } }
  let d := d.count (F.drvCnt n e.ty)
  let d := if e.ty = 1 then d.raise (Pg.odrDrv n) Er.odrDrv_realloc e.brow else d
  let d := d.showDisc n
  if 8190 ≤ p.ents.length + 1 then d.ddlRecord n else d

/-- NWB of the disc on a drive changes, in the pending record too. -/
def Dev.setNwb (d : Dev) (n v : Nat) : Dev :=
  let p := d.pendRec n
  let d := (d.wr (F.drvNwb n) v).mramPut 1 fun m => { m with pend := Map.put m.pend n { p with nwb := v } }
  if 2 ^ 25 ≤ v then d.closeDisc n else d

/-- NWB of a disc: as its drive shows it, or as the catalogue saved it. -/
def Dev.nwbOf (d : Dev) (c i : Nat) : Nat :=
  match d.discReady c i with
  | some n => d.rd (F.drvNwb n)
  | none => (d.catEnt c).nwbs.getD i 0

/-- The catalogue takes NWB and the time of the last recording of the disc on a drive. -/
def Dev.saveNwb (d : Dev) (n : Nat) : Dev :=
  let i := d.rd (F.drvStat_disc n)
  d.onCat (d.rd (F.drvShell n)) fun e =>
    { e with nwbs := (e.nwbs ++ List.replicate (12 - e.nwbs.length) 0).set i (d.rd (F.drvNwb n)) }

/-- What waits to be recorded on a disc never will be: units of a MIGRATE stay FLASH; a data band-row whose staged parity
holds it puts RECOMPUTE in its run's slot (R262). -/
def Dev.dropRecs (d : Dev) (c i : Nat) : Dev :=
  let gone := d.odr.recs.filter (fun r => r.cat == c && r.disc == i)
  let d := gone.foldl (fun d r => match r.why with
    | .migrate a us =>
      let d := d.onCmd a fun m => { m with found := m.found ++ us.map (·.1) }
      match d.runOf c r.brow with
      | some (k, s) => if r.staged then d.sjPut k (s.putFlag 0 true) else d
      | none => d
    | _ => d) d
  d.onOdr fun o => { o with recs := o.recs.filter (fun r => !(r.cat == c && r.disc == i)) }

/-- No spare slot is free: SPARE_EXHAUSTED (R262). -/
def Dev.spareExhausted (d : Dev) (n : Nat) : Dev :=
  ((d.raise (Pg.odrDrv n) Er.odrDrv_spareExhausted).closeDisc n).dropRecs (d.rd (F.drvShell n)) (d.rd (F.drvStat_disc n))

/-- A set of RDONLY causes shows as RDONLY. -/
def Dev.setRdonly (d : Dev) (n cause : Nat) : Dev :=
  (d.onDisc n fun k => { k with rdonly := if k.rdonly.contains cause then k.rdonly else k.rdonly ++ [cause] }).wrB (F.drvStat_rdonly n) true

/-! ## Wishes and loads (R273) -/

/-- A wish for a band-row comes to nothing: who made it is told (MEDIA_ERROR, DISC_ABSENT and the like). -/
def Dev.wantFails (d : Dev) (status : Nat) (why : BrowFor) (cat disc brow : Nat) : Dev :=
  match why with
  | .unit (.host a _) .. => d.cmdEnds a status 0 0 0
  | .unit (.job id) .. => d.jobGot id ⟨{ Tag.none with ty := 1 }, []⟩ true
  | .unit w .. => d.onSfl fun s => { s with got := s.got ++ [(w, ⟨{ Tag.none with ty := 1, hollowMap := 0xFFFF }, []⟩, true)] }
  | .verify a => d.onCmd a fun c => { c with done := c.done ++ [brow], found := c.found ++ [brow] }
  | .recon .. | .recompute .. => d.onOdr fun o => { o with gathered := o.gathered ++ [⟨cat, disc, brow, none, 2 ^ 64 - 1⟩] }
  | .cal _ => d

/-- The wishes for a disc, and the reads under way on it, come to nothing. -/
def Dev.dropWants (d : Dev) (c i status : Nat) : Dev :=
  let gone := d.odr.wants.filter (fun w => w.cat == c && w.disc == i)
  let d := d.onOdr fun o => { o with wants := o.wants.filter (fun w => !(w.cat == c && w.disc == i)) }
  let d := gone.foldl (fun d w => d.wantFails status w.why w.cat w.disc w.brow) d
  match d.discOn c i with
  | none => d
  | some n =>
    let rs := (d.drive n).reads.filter (fun r => !r.recorded)
    let d := d.onDrive n fun v => { v with reads := v.reads.filter (·.recorded) }
    rs.foldl (fun d r => r.why.foldl (fun d w => d.wantFails status w c i r.brow) d) d

/-- What the drive's disc is still needed for. -/
def Dev.driveBusy (d : Dev) (n : Nat) : Bool :=
  let v := d.drive n
  let c := d.rd (F.drvShell n)
  let i := d.rd (F.drvStat_disc n)
  !v.reads.isEmpty || v.rec_.cur.isSome || v.rec_.next.isSome || !v.rec_.verify.isEmpty || !v.rec_.queue.isEmpty || !v.rec_.excess.isEmpty ||
    d.odr.wants.any (fun w => w.cat == c && w.disc == i) || d.odr.recs.any (fun r => r.cat == c && r.disc == i)

/-- The drive's disc is to leave it. -/
def Dev.unloadStart (d : Dev) (n : Nat) : Dev :=
  if d.drvState n = 2 ∨ d.drvState n = 3 then d.wr (F.drvStat_state n) 4 else d

/-- Discs that wishes and band-rows to record need, in the order they came. -/
def Dev.needed (d : Dev) : List (Nat × Nat) :=
  let l := d.odr.wants.map (fun w => (w.cat, w.disc)) ++
    (d.odr.recs.filter (fun r => decide (r.disc < 12))).map (fun r => (r.cat, r.disc))
  l.foldl (fun acc x => if acc.contains x then acc else acc ++ [x]) []

/-- A drive that may take a disc of a format: ACTIVE, EMPTY, not on HOLD, its mode and head version right. -/
def Dev.canLoad (d : Dev) (format n : Nat) : Bool :=
  d.driveOn n && decide (d.drvState n = 0) && !d.flag (F.drvCtrl_hold n) && (d.ad8 n == decide (format = 2)) &&
    !(d.raw (Pg.odrHl n + 0x10)).toNat.testBit Er.odrHl_version &&
    !d.odr.loader.ops.any (fun o => match o with
      | .toDrive _ m => m == n
      | _ => false)

/-- Needed discs of the bay Shell are loaded: on the lowest drive that may take one, or a drive idle longest gives its
disc up (R273). -/
def Dev.loads (d : Dev) : Dev :=
  if !d.flag F.ldrBay_valid then d
  else
    let c := d.rd F.ldrBay_index
    let e := d.catEnt c
    if e.st ≠ 2 then d
    else (d.needed.filter (fun x => x.1 == c && (d.discOn c x.2).isNone)).foldl (fun d x =>
      let coming := d.odr.loader.ops.any (fun o => match o with
        | .toDrive i _ => i == x.2
        | _ => false) || (match d.odr.loader.cur with
        | some (.toDrive i _) => i == x.2
        | _ => false)
      if coming then d
      else if !e.present.testBit x.2 then d.dropWants c x.2 0x47
      else match (List.range 4).find? (d.canLoad e.format) with
        | some n =>
          let d := ((d.wr (F.drvStat_state n) 1).wr (F.drvStat_disc n) x.2).wr (F.drvShell n) c
          d.onOdr fun o => { o with loader := { o.loader with ops := o.loader.ops ++ [.toDrive x.2 n] } }
        | none =>
          let free := (List.range 4).filter (fun n => decide (d.drvState n = 3) && !d.driveBusy n && (d.ad8 n == decide (e.format = 2)))
          let best := free.foldl (fun (b : Option Nat) n => match b with
            | none => some n
            | some m => if (d.drive n).used < (d.drive m).used then some n else some m) none
          match best with
          | some n => d.unloadStart n
          | none => d) d

end Sys2Proof.Machine
end

