-- ==== Sys2Proof/Machine/Ldpc.lean ====
section
/-! DEFINITION. The sector's two codes: the quasi-cyclic LDPC code and its decoder (R298, R299, R305), and RS(18,16) across
the beams (R255, R301). `ad8` chooses the AD-8 code. -/
namespace Sys2Proof.Machine
open Sys2Proof

/-- The circulant size of both codes. -/
def ldpcZ : Nat := 4096
def ldpcRows (ad8 : Bool) : Nat := if ad8 then 2 else 4
def ldpcCols (ad8 : Bool) : Nat := if ad8 then 18 else 36
def ldpcDataCols (ad8 : Bool) : Nat := if ad8 then 16 else 32
/-- Bits of a codeword and its payload bytes. -/
def ldpcBits (ad8 : Bool) : Nat := ldpcCols ad8 * ldpcZ
def ldpcPayload (ad8 : Bool) : Nat := ldpcDataCols ad8 * ldpcZ / 8

/-- The shift of the circulant in block row `i` and block column `j`, if there is one (R298, R305). -/
def ldpcShift (ad8 : Bool) (i j : Nat) : Option Nat :=
  if ad8 then
    if j < 16 then some ((211 * (i + 1) * (j + 1) + 31 * i * (j + 1) * (j + 1)) % 4096)
    else match i, j with
      | 0, 16 => some 0
      | 1, 16 => some 1
      | 1, 17 => some 0
      | _, _ => none
  else
    if j < 32 then (if i = j % 4 then none else some ((137 * (i + 1) * (j + 1) + 29 * i * (j + 1) * (j + 1)) % 4096))
    else match i, j with
      | 0, 32 => some 1
      | 2, 32 => some 0
      | 3, 32 => some 1
      | 0, 33 => some 0
      | 1, 33 => some 0
      | 1, 34 => some 0
      | 2, 34 => some 0
      | 2, 35 => some 0
      | 3, 35 => some 0
      | _, _ => none

/-- The codeword bits of check `x` of block row `i`. -/
def ldpcCheckBits (ad8 : Bool) (i x : Nat) : List Nat :=
  (List.range (ldpcCols ad8)).filterMap fun j =>
    match ldpcShift ad8 i j with
    | some s => some (4096 * j + (x + s) % 4096)
    | none => none

/-- Every check is satisfied: H·c = 0. -/
def ldpcChecks (ad8 : Bool) (c : Array Bool) : Bool :=
  (List.range (ldpcRows ad8)).all fun i =>
    (List.range 4096).all fun x => !(ldpcCheckBits ad8 i x).foldl (fun p v => p != c.getD v false) false

/-- The syndrome of block row `i` over the data columns alone. -/
def ldpcDataSyndrome (ad8 : Bool) (data : Array Bool) (i : Nat) : List Bool :=
  (List.range 4096).map fun x =>
    ((ldpcCheckBits ad8 i x).filter (fun v => decide (v < 4096 * ldpcDataCols ad8))).foldl (fun p v => p != data.getD v false) false

/-- A column turned by one place: position x takes what stood at x + 1. -/
def turn1 (p : List Bool) : List Bool := p.drop 1 ++ p.take 1
def xorBits (a b : List Bool) : List Bool := List.zipWith (fun x y => x != y) a b

/-- The parity columns that the data fixes (R298; for AD-8 rows 0 and 1 in order, R305). -/
def ldpcParity (ad8 : Bool) (data : List Bool) : List Bool :=
  let a := data.toArray
  let syn (i : Nat) : List Bool := ldpcDataSyndrome ad8 a i
  if ad8 then
    let p16 := syn 0
    p16 ++ xorBits (syn 1) (turn1 p16)
  else
    let p32 := xorBits (xorBits (syn 0) (syn 1)) (xorBits (syn 2) (syn 3))
    let p33 := xorBits (syn 0) (turn1 p32)
    p32 ++ p33 ++ xorBits (syn 1) p33 ++ xorBits (syn 3) (turn1 p32)

/-- Bytes as bits, each byte's most significant bit first (R253), and back. -/
def bitsOfBytes (bs : List Byte) : List Bool := (bs.map (fun b => (List.range 8).map (fun i => b.toNat.testBit (7 - i)))).flatten
def byteOfBits (bs : List Bool) : Byte := w8 (bs.foldl (fun n b => 2 * n + b2n b) 0)
def bytesOfBits : Nat → List Bool → List Byte
  | 0, _ => []
  | n + 1, bs => byteOfBits (bs.take 8) :: bytesOfBits n (bs.drop 8)
/-- A number as `w` bits, most significant first, and back. -/
def highBits (w n : Nat) : List Bool := (List.range w).map (fun i => n.testBit (w - 1 - i))
def numOfBits (bs : List Bool) : Nat := bs.foldl (fun n b => 2 * n + b2n b) 0

/-- The codeword of a sector's payload bytes. -/
def ldpcEncode (ad8 : Bool) (payload : List Byte) : List Bool :=
  let d := bitsOfBytes (padTo (ldpcPayload ad8) payload)
  d ++ ldpcParity ad8 d

/-! ## The decoder (R299) -/

/-- One check's messages: from what its bits believe without it, the magnitude sent back to each is three quarters of the
least of the others', the sign the product of theirs. -/
def minSum (ts : List Int) : List Int :=
  (List.range ts.length).map fun k =>
    let others := (List.range ts.length).filterMap (fun m => if m = k then none else some (ts.getD m 0))
    let neg := (others.filter (fun t => decide (t < 0))).length % 2 = 1
    let least := others.foldl (fun m t => min m t.natAbs) (others.headD 0).natAbs
    let v : Int := 3 * (least / 4 : Nat)
    if neg then -v else v

/-- One check works on the sums `l`, with its last messages taken back; `r` holds the messages of all checks. -/
def ldpcCheckStep (ad8 : Bool) (i x : Nat) (lr : Array Int × Map (List Int)) : Array Int × Map (List Int) :=
  let vs := ldpcCheckBits ad8 i x
  let key := 4096 * i + x
  let old := Map.get (vs.map (fun _ => 0)) lr.2 key
  let ts := List.zipWith (fun v m => lr.1.getD v 0 - m) vs old
  let new := minSum ts
  let l := (List.zip vs (List.zipWith (· + ·) ts new)).foldl (fun (a : Array Int) e => a.setIfInBounds e.1 e.2) lr.1
  (l, Map.put lr.2 key new)

/-- One iteration: the block rows in order. -/
def ldpcIter (ad8 : Bool) (lr : Array Int × Map (List Int)) : Array Int × Map (List Int) :=
  (List.range (ldpcRows ad8)).foldl (fun lr i => (List.range 4096).foldl (fun lr x => ldpcCheckStep ad8 i x lr) lr) lr

/-- The hard values: a positive sum is bit 0 (R295); a sum of 0 reads as 0 (log entry 30). -/
def ldpcHard (l : Array Int) : Array Bool := l.map (fun v => decide (v < 0))

def ldpcRun (ad8 : Bool) : Nat → Nat → Array Int × Map (List Int) → Option Nat × Array Bool
  | 0, done, lr => if ldpcChecks ad8 (ldpcHard lr.1) then (some done, ldpcHard lr.1) else (none, ldpcHard lr.1)
  | n + 1, done, lr =>
    if ldpcChecks ad8 (ldpcHard lr.1) then (some done, ldpcHard lr.1) else ldpcRun ad8 n (done + 1) (ldpcIter ad8 lr)

/-- A request: the iterations it converged at, if it did, and the payload bytes of its hard values. Sums are kept exactly,
scaled by 4 for every layer the request can run (log entry 30). -/
def ldpcDecode (ad8 : Bool) (llrs : List Int) (limit : Nat) : Option Nat × List Byte :=
  let scale : Int := ((4 ^ (limit * ldpcRows ad8) : Nat) : Int)
  let (r, h) := ldpcRun ad8 limit 0 ((llrs.map (· * scale)).toArray, [])
  (r, bytesOfBits (ldpcPayload ad8) h.toList)

/-! ## Parity across the beams (R255, R301) -/

/-- The symbol position of sector `i` (0–15 data, 16 P0, 17 P1), and the sector at a position. -/
def rsPos (i : Nat) : Nat := 17 - i
def rsSector (pos : Nat) : Nat := 17 - pos

/-- S0 and S1 over the sectors' bytes at one offset; sectors without bytes count as zero. -/
def rsSyndromes (sectors : List (Option (List Byte))) (j : Nat) : Nat × Nat :=
  let at_ (i : Nat) : Nat := match sectors.getD i none with
    | some bs => (bs.getD j 0).toNat
    | none => 0
  (gfSum ((List.range 18).map at_), gfSum ((List.range 18).map (fun i => gfMul (gfAlpha (rsPos i)) (at_ i))))

/-- The bytes of the one or two missing sectors, by erasure decoding. -/
def rsFill (sectors : List (Option (List Byte))) (size : Nat) (missing : List Nat) : List (Nat × List Byte) :=
  let cleared := (List.range 18).map (fun i => if missing.contains i then none else sectors.getD i none)
  let syn := (List.range size).map (rsSyndromes cleared)
  match missing with
  | [i] => [(i, syn.map (fun s => w8 s.1))]
  | [i, k] =>
    let a := gfAlpha (rsPos i)
    let b := gfAlpha (rsPos k)
    let ei := syn.map (fun s => gfMul (s.2 ^^^ gfMul b s.1) (gfInv (a ^^^ b)))
    [(i, ei.map w8), (k, List.zipWith (fun s e => w8 (s.1 ^^^ e)) syn ei)]
  | _ => []

/-- P0 and P1 of 16 data sectors. -/
def rsParity (data : List (List Byte)) (size : Nat) : List (List Byte) :=
  (rsFill (data.map some ++ [none, none]) size [16, 17]).map (·.2)

/-- The place α^n = v names, if v is a power below 18. -/
def rsLocate (v : Nat) : Option Nat := (List.range 18).find? (fun n => gfAlpha n == v)

/-- What the syndromes name when all 18 sectors are known: the sectors located, or all 18 where an offset has no place
(then `true`). -/
def rsLocated (sectors : List (Option (List Byte))) (size : Nat) : List Nat × Bool :=
  let found := (List.range size).map fun j =>
    let (s0, s1) := rsSyndromes sectors j
    if s0 = 0 ∧ s1 = 0 then (([] : List Nat), false)
    else if s0 = 0 then (List.range 18, true)
    else match rsLocate (gfMul s1 (gfInv s0)) with
      | some p => ([rsSector p], false)
      | none => (List.range 18, true)
  (uniq ((found.map (·.1)).flatten), found.any (·.2))

end Sys2Proof.Machine
end

