-- ==== Sys2Proof/Machine/Sector.lean ====
section
/-! DEFINITION. The sector on the disc: sync and address patterns, beams of a slot, the sector's channel bits and the search
for them (R253–R256, R296, R297, R305, R312). -/
namespace Sys2Proof.Machine
open Sys2Proof

/-! ## Layout (R253–R255, R305) -/

def syncBits : List Bool := highBits 64 0x3C5A96E10F87D24B
def resyncBits : List Bool := highBits 64 0xC3A5691EF0782DB4

/-- The sector on beam `b` of slot `p`: 0–15 data, 16 P0, 17 P1; in AD-8 the beam's own. -/
def sectorOf (ad8 : Bool) (p b : Nat) : Nat :=
  let k := p % 9
  if ad8 then b else if b = 2 * k then 16 else if b = 2 * k + 1 then 17 else if b < 2 * k then b else b - 2
/-- The beam of sector `i` of slot `p`. -/
def beamOf (ad8 : Bool) (p i : Nat) : Nat :=
  let k := p % 9
  if ad8 then i else if i = 16 then 2 * k else if i = 17 then 2 * k + 1 else if i < 2 * k then i else i + 2

/-- The 64 bits of an address field (R254). -/
def addressBits (layer slot sector area : Nat) : List Bool :=
  let high := layer % 32 * 2 ^ 43 + slot % 2 ^ 21 * 2 ^ 22 + sector % 32 * 2 ^ 17 + area % 4 * 2 ^ 15
  let b := highBits 48 high
  b ++ highBits 16 (crc16 (bytesOfBits 6 b))
/-- An address field passes its CRC. -/
def addressOk (bits : List Bool) : Bool := numOfBits (bits.drop 48) == crc16 (bytesOfBits 6 (bits.take 48))

/-- Codeword bits before the resync, and where the resync stands from the anchor. -/
def firstHalf (ad8 : Bool) : Nat := if ad8 then 36864 else 73728
def resyncAt (ad8 : Bool) : Nat := 128 + firstHalf ad8
/-- Bits of a sector, its gap apart. -/
def sectorLen (ad8 : Bool) : Nat := resyncAt ad8 + 64 + firstHalf ad8

/-- The data bits of a sector of a slot (or of an AD-8 row), its gap bits zero. -/
def sectorBits (ad8 : Bool) (layer slot sector area : Nat) (payload : List Byte) : List Bool :=
  let c := ldpcEncode ad8 payload
  syncBits ++ addressBits layer slot sector area ++ c.take (firstHalf ad8) ++ resyncBits ++ c.drop (firstHalf ad8) ++
    (if ad8 then [] else List.replicate 3136 false)

/-- Payload bytes of a sector, and data sectors of a band-row (an AD-8 row has 4). -/
def sectorSize (ad8 : Bool) : Nat := ldpcPayload ad8
def dataSectors (ad8 : Bool) : Nat := if ad8 then 4 else 16

/-- The 18 sectors of a band-row's 256 KiB, P0 and P1 computed; the 4 sectors of row `r` of an AD-8 unit (R256, R311). -/
def rowPayloads (ad8 : Bool) (data : Map Byte) (r : Nat) : List (List Byte) :=
  let size := sectorSize ad8
  let n := dataSectors ad8
  let ds := (List.range n).map (fun i => Map.getRun 0 data ((r * n + i) * size) size)
  if ad8 then ds else ds ++ rsParity ds size

/-- Chunk `c` of a sector as 256 bytes (R312): an even chunk is data bits 0–2,047 of its frame, an odd one the rest and 128
zeros. An AD-8 sector is cut as it stands. -/
def chunkBytes (ad8 : Bool) (bits : List Bool) (c : Nat) : List Byte :=
  let from_ := if ad8 then 2048 * c else 3968 * (c / 2) + 2048 * (c % 2)
  let len := if ad8 ∨ c % 2 = 0 then 2048 else 1920
  let piece := (bits.drop from_).take len
  bytesOfBits 256 (piece ++ List.replicate (2048 - piece.length) false)
/-- Chunks of a slot. -/
def chunksOf (ad8 : Bool) : Nat := if ad8 then 37 else 76

/-! ## The search (R296, R297) -/

def bitsDiffer (a b : List Bool) : Nat := ((List.zip a b).filter (fun x => x.1 != x.2)).length + (a.length - b.length)
/-- 64 hard bits at a position of the window's bits. -/
def hardAt (bits : Array Bool) (i : Nat) : List Bool := (List.range 64).map (fun k => bits.getD (i + k) false)

/-- Where a sector was placed: its codeword's two halves, how, and what the search counted. -/
inductive Placed where
  | sync | resync | flywheel | none
  deriving DecidableEq, Repr

structure Anchor where
  how      : Placed
  anchor   : Nat
  resync   : Nat
  rejected : Nat
  mismatch : Bool
  deriving DecidableEq, Repr

/-- The anchor of a sector predicted at bit `p` of the hard bits given. -/
def findAnchor (ad8 : Bool) (tol : Nat) (bits : Array Bool) (p : Nat) (want : List Bool) : Anchor :=
  let cands (pat : List Bool) (at_ : Nat) : List Nat :=
    ((List.range 97).map (fun i => at_ + i)).filterMap (fun i => if 48 ≤ i ∧ bitsDiffer (hardAt bits (i - 48)) pat ≤ tol then some (i - 48) else Option.none)
  let syncs := cands syncBits p
  let ra := resyncAt ad8
  let resyncs := cands resyncBits (p + ra)
  let start : Anchor := ⟨.none, 0, 0, 0, false⟩
  let a := syncs.foldl (fun (a : Anchor) s =>
    if a.how ≠ .none then a
    else
      let f := hardAt bits (s + 64)
      if !addressOk f then { a with rejected := a.rejected + 1 }
      else if f ≠ want then { a with mismatch := true }
      else match resyncs.find? (fun r => decide (r ≤ s + ra + 2) && decide (s + ra ≤ r + 2)) with
        | some r => { a with how := .sync, anchor := s, resync := r }
        | Option.none => if resyncs.isEmpty then { a with how := .sync, anchor := s, resync := s + ra }
          else { a with rejected := a.rejected + 1 }) start
  if a.how ≠ .none ∨ a.mismatch then a
  else
    let near := resyncs.foldl (fun (b : Option Nat) r => match b with
      | Option.none => some r
      | some m => if ((r : Int) - (p + ra : Nat)).natAbs < ((m : Int) - (p + ra : Nat)).natAbs then some r else some m) Option.none
    match near with
    | some r =>
      let f := hardAt bits (r - (ra - 64))
      if addressOk f ∧ f ≠ want then { a with mismatch := true }
      else { a with how := .resync, anchor := r - ra, resync := r }
    | Option.none => { a with how := .flywheel, anchor := p, resync := p + ra }

end Sys2Proof.Machine
end

