-- ==== Sys2Proof/Machine/SrvBase.lean ====
section
/-! DEFINITION. Servo engines and their images: access, loop modes, the coefficient stores, what the servo pages show, and the
retract (R337, R338, R352–R354, R358, R366, R374, R378). -/
namespace Sys2Proof.Machine
open Sys2Proof

/-! ## Loops by name (R337) -/

/-- Signed value of a register field of `w` bits. -/
def Dev.rdS (d : Dev) (w : Nat) (f : RegField) : Int := sgn w (d.rd f)

def loopFocus : Nat := 0
def loopTilt : Nat := 1
def loopFine (b : Nat) : Nat := 2 + b
def loopRadial : Nat := 20
def loopSpin : Nat := 21
def loopSled : Nat := 22
/-- The page index of a loop, and its class (`centre`: RADIAL in CENTRE). -/
def loopPage (n l : Nat) : Nat := 32 * n + l
def loopClass (l : Nat) (centre : Bool) : Nat :=
  if l = 0 then 0 else if l = 1 then 2 else if l < 20 then 3 else if l = 20 then (if centre then 6 else 1)
  else if l = 21 then 5 else 4
/-- Beams of a drive in its mode. -/
def Dev.beamCount (d : Dev) (n : Nat) : Nat := if d.ad8 n then 4 else 18

/-! ## Trial values of calibration items that measure (R434) -/

def calItem (n k : Nat) : Nat := 16 + 16 * n + k
def Dev.calRunning (d : Dev) (item : Nat) : Option CalRun := d.cal.running.find? (fun r => r.item == item)
/-- Bits set, lowest first. -/
def bitList (w v : Nat) : List Nat := (List.range w).filter v.testBit
/-- The strategy groups that LAYERS names: group g by bit 8g + 4. -/
def stratGroups (layers : Nat) : List Nat := (List.range 4).filter (fun g => layers.testBit (8 * g + 4))
/-- What a FOCUS_OFS, TILT_OFS or TRACK_OFS measurement adds to a loop's SETPT at its point. -/
def Dev.trialSetpt (d : Dev) (n l : Nat) : Int :=
  let at_ (k : Nat) (w : Int) : Int := match d.calRunning (calItem n k) with
    | some r => w * ((r.step % 9 : Nat) - 4)
    | none => 0
  if l = 0 then at_ 3 40 else if l = 1 then at_ 4 50 else if l < 20 then at_ 5 8 else 0
/-- PEAK at the point of a LASER_POWER measurement. -/
def Dev.trialPeak (d : Dev) (n v : Nat) : Nat :=
  match d.calRunning (calItem n 7) with
  | some r => (nearest ((v * (32 + r.step % 16) : Nat) : Int) 40).toNat
  | none => v

/-! ## Engines and images -/

def Dev.eng (d : Dev) (e : Nat) : Eng := Map.get Eng.reset d.srv.engs e
/-- An engine changes; SRV_ENG_RED shows its state and role. -/
def Dev.onEng (d : Dev) (e : Nat) (f : Eng → Eng) : Dev :=
  let x := f (d.eng e)
  let d := d.onSrv fun s => { s with engs := Map.set Eng.reset s.engs e x }
  (d.wr (F.srvEngRed_state e) x.st).wr (F.srvEngRed_role e) x.role

def Dev.srvDrive (d : Dev) (n : Nat) : SrvDrive := Map.get SrvDrive.reset d.srv.drives n
def Dev.onSrvDrive (d : Dev) (n : Nat) (f : SrvDrive → SrvDrive) : Dev :=
  d.onSrv fun s => { s with drives := Map.set SrvDrive.reset s.drives n (f (Map.get SrvDrive.reset s.drives n)) }

def engsOf (n : Nat) : List Nat := [3 * n, 3 * n + 1, 3 * n + 2]
/-- The engine in a role (1 A, 2 B). -/
def Dev.inRole (d : Dev) (n role : Nat) : Option Nat := (engsOf n).find? (fun e => decide ((d.eng e).role = role))
/-- Engines that compute: those ACTIVE in a role and those in SHADOW (R338, R381). -/
def Dev.computing (d : Dev) (n : Nat) : List Nat :=
  (engsOf n).filter (fun e => decide ((d.eng e).st = 3) || decide ((d.eng e).st = 2))
/-- Engines in a role that send copies. -/
def Dev.senders (d : Dev) (n : Nat) : List Nat := (engsOf n).filter (fun e => decide ((d.eng e).st = 3) && decide ((d.eng e).role ≠ 0))

/-- The image a drive's servo stands at: role A's, else role B's, else the committed one. -/
def Dev.img (d : Dev) (n : Nat) : Image :=
  let at_ (r : Nat) : Option Image := match d.inRole n r with
    | some e => if (d.eng e).st = 3 then (d.eng e).img else none
    | none => none
  match at_ 1 with
  | some i => i
  | none => match at_ 2 with
    | some i => i
    | none => (d.srvDrive n).saved.getD Image.reset

def Dev.seq (d : Dev) (n : Nat) : SeqSt := (d.img n).seq
def Image.loop (i : Image) (l : Nat) : LoopSt := i.loops.getD l LoopSt.reset
def Image.onLoop (i : Image) (l : Nat) (f : LoopSt → LoopSt) : Image := { i with loops := i.loops.set l (f (i.loop l)) }

/-- What the servo pages show of an image (R372). -/
def Dev.showServo (d : Dev) (n : Nat) : Dev :=
  let i := d.img n
  let d := ((d.wr (F.srvDrvStat_set n) i.set).wr (F.srvDrvStat_region n) i.region).wr (F.srvDrvStat_state n) i.seq.st
  let d := match i.seq.goal with
    | some g => (((d.wr (F.srvDrvTgt_active n) 1).wr (F.srvDrvTgt_layer n) g.layer).wr (F.srvDrvTgt_band n) g.band).wr (F.srvDrvField n) g.field
    | none => d.wr (F.srvDrvTgt_active n) 0
  (List.range 23).foldl (fun d l => d.wr (F.srvLoopStat_mode (loopPage n l)) (i.loop l).mode) d

/-- Every computing engine's image takes the same change; where no engine computes, the committed image does. -/
def Dev.onImgs (d : Dev) (n : Nat) (f : Image → Image) : Dev :=
  let es := d.computing n
  let d := if es.isEmpty then d.onSrvDrive n fun s => { s with saved := some (f (s.saved.getD Image.reset)) }
    else es.foldl (fun d e => d.onEng e fun x => { x with img := some (f (x.img.getD ((d.srvDrive n).saved.getD Image.reset))) }) d
  d.showServo n
def Dev.onSeq (d : Dev) (n : Nat) (f : SeqSt → SeqSt) : Dev := d.onImgs n fun i => { i with seq := f i.seq }

/-! ## Coefficient stores (R353, R354) -/

def csAddr (set cls stage word : Nat) : Nat := set * 512 + cls * 64 + stage * 8 + word
def Dev.csWord (d : Dev) (e addr : Nat) : Word := Map.get 0 d.srv.coef (131072 * e + addr)
def Dev.csSet (d : Dev) (e addr : Nat) (w : Word) : Dev :=
  d.onSrv fun s => { s with coef := Map.set 0 s.coef (131072 * e + addr) w, upset := Map.erase s.upset (131072 * e + addr) }
/-- The lowest-numbered engine of a drive in a role; its lowest engine where none is. -/
def Dev.csEngine (d : Dev) (n : Nat) : Nat := ((engsOf n).find? (fun e => decide ((d.eng e).role ≠ 0))).getD (3 * n)
def Dev.csUse (d : Dev) (e set cls stage : Nat) : Bool := (d.csWord e (csAddr set cls stage 6)).toNat.testBit 0
/-- The stages a loop of a class runs: from stage 0 up to the first not in use. -/
def Dev.csStages (d : Dev) (e set cls : Nat) : List Nat := (List.range 8).takeWhile (d.csUse e set cls)

/-! ## Loop modes (R352) -/

def Dev.loopEn (d : Dev) (n l : Nat) : Bool :=
  d.flag (F.srvLoopCtrl_en (loopPage n l)) && (decide (l < 2) || decide (20 ≤ l) || decide (l - 2 < d.beamCount n))
def Dev.loopOff (d : Dev) (n l : Nat) : Dev := d.onImgs n fun i => i.onLoop l fun _ => LoopSt.reset
/-- OPEN at a value: states zero. -/
def Dev.loopOpen (d : Dev) (n l : Nat) (v : Int) : Dev :=
  if d.loopEn n l then d.onImgs n fun i => i.onLoop l fun x => { x with mode := 1, open_ := v, st := LoopSt.reset.st } else d
/-- HOLD at the present output, or at a value. -/
def Dev.loopHold (d : Dev) (n l : Nat) : Dev :=
  if d.loopEn n l then d.onImgs n fun i => i.onLoop l fun x => { x with mode := 2 } else d
def Dev.loopHoldAt (d : Dev) (n l : Nat) (v : Int) : Dev :=
  if d.loopEn n l then d.onImgs n fun i => i.onLoop l fun x => { x with mode := 2, out := v } else d
/-- CLOSED, with zero states; NO_SET where the class has no stage in use in the set in force. -/
def Dev.loopClose (d : Dev) (n l : Nat) (centre : Bool := false) : Dev :=
  if !d.loopEn n l then d
  else if (d.csStages (d.csEngine n) (d.img n).set (loopClass l centre)).isEmpty || d.injected (Pg.srvDrv n) Er.srvDrv_noSet then
    (d.takeInjected (Pg.srvDrv n) Er.srvDrv_noSet).raise (Pg.srvDrv n) Er.srvDrv_noSet l
  else d.onImgs n fun i => i.onLoop l fun x => { x with mode := 3, st := LoopSt.reset.st }
def Dev.finesHold (d : Dev) (n : Nat) : Dev := (List.range 18).foldl (fun d b => d.loopHoldAt n (loopFine b) 0) d
def Dev.finesClose (d : Dev) (n : Nat) : Dev := (List.range 18).foldl (fun d b => d.loopClose n (loopFine b)) d

/-! ## Targets (R358) -/

/-- ODR sets the target of a drive; another target than before starts its counts of failures and long seeks anew. -/
def Dev.srvTarget (d : Dev) (n : Nat) (g : Place) : Dev :=
  d.onSeq n fun s =>
    if s.goal = some g then { s with due := true, serve := true }
    else { s with goal := some g, due := true, serve := true, fails := 0, longs := 0, bad := 0 }

/-! ## Retract (R366) -/

/-- FOCUS falls to RETRACT; the FINE loops, RADIAL and SLED_POS hold at 0. -/
def Dev.retract (d : Dev) (n : Nat) : Dev :=
  if (d.seq n).st = 0 then d
  else
    let d := d.finesHold n
    let d := (d.loopHoldAt n loopRadial 0).loopHoldAt n loopSled 0
    let at_ := ((d.img n).loop loopFocus).out - d.rdS 16 (F.srvLoopOfs_offset (loopPage n loopFocus))
    let d := if ((d.img n).loop loopFocus).mode = 1 then d else d.loopOpen n loopFocus at_
    d.onSeq n fun s => { s with st := 5, jump := 0, phase := 0, hit := false }

/-- A retract after which the disc is not to be served. -/
def Dev.retractPark (d : Dev) (n : Nat) : Dev := (d.onSeq n fun s => { s with serve := false, goal := none }).retract n

end Sys2Proof.Machine
end

