-- ==== Sys2Proof/Machine/Record.lean ====
section
/-! DEFINITION. Recording: frames and tables for the head, the recorder's states, the write guard, stopped band-rows, and
verdicts (R286, R311–R333). -/
namespace Sys2Proof.Machine
open Sys2Proof

/-! ## To the head (R282, R283, R286, R316, R317) -/

/-- A frame is sent to a drive's head. -/
def Dev.toHead (d : Dev) (n ty beam stamp : Nat) (payload : List Byte) : Dev := d.send (.head n (headFrame ty beam stamp payload))

/-- The head link of a drive is up: every lane of its group is (R280). -/
def Dev.headUp (d : Dev) (n : Nat) : Bool :=
  (List.range (if d.ad8 n then 2 else 4)).all (fun i => decide (d.rd (F.hlLaneStat_state n i) = 4))

/-- A sample count that only the head's clock gives: left open (log entry 34). -/
def Dev.freeStamp (d : Dev) : Nat × Dev := (d.free 3, d.stepFree)

/-- Sample rate of a zone in kHz: 17/16 of its channel rate, rounded up. -/
def sampleRate (frames rpm : Nat) : Nat := ceilDiv (4096 * frames * rpm * 17) (60 * 16 * 1000)

/-- CFG: a sample rate, the beams enabled, the laser at read power or off. -/
def Dev.sendCfg (d : Dev) (n rate stamp : Nat) (laser : Bool) : Dev :=
  d.toHead n 0xC 31 stamp (leBytes 4 rate ++ leBytes 3 (2 ^ d.beamCount n - 1) ++ leBytes 1 (b2n laser) ++ zeros 8)

/-- Bytes S0–S3 of the eight mark classes of a strategy table (R316), edge 0 leading and 1 trailing; a WRITE_STRATEGY
measurement puts its trial shifts in place of those in force (R434). -/
def Dev.strategyRow (d : Dev) (n g edge : Nat) (s0 s1 s2 s3 : Nat → RegField) : List Byte :=
  let trial (m s : Nat) : Option Int := match d.calRunning (calItem n 8) with
    | some r => match (stratGroups r.layers).findIdx? (· == g) with
      | some i => r.trial[64 * i + 32 * edge + 4 * m + s]?
      | none => none
    | none => none
  ((List.range 8).map (fun m => ([s0 m, s1 m, s2 m, s3 m].zipIdx).map (fun (f, s) => match trial m s with
    | some v => w8 (unsgn 8 v)
    | none => w8 (d.rd f)))).flatten

/-- A power level for a beam: trimmed, rounded to 0.25 mW, no more than 63.75 mW. -/
def trimmed (level : Nat) (trim : Int) : Nat := (clampInt 0 255 (nearest ((level : Int) * (512 + trim)) 512)).toNat

/-- The zone entry in force on a drive: that of the band-row's place its servo is at. -/
def Dev.zoneNow (d : Dev) (n : Nat) : ZoneEnt :=
  match (d.drive n).disc with
  | some k => k.zone (d.seq n).layer (d.seq n).zone
  | none => ⟨0, 0, 0, 0, 0, 0⟩

/-- The channel-bit period in 1/2²⁴ sample. -/
def bitPeriod (e : ZoneEnt) : Nat :=
  if e.frames * e.rpm = 0 then 0 else (quot ((sampleRate e.frames e.rpm * 60000 * 2 ^ 24 : Nat) : Int) ((4096 * e.frames * e.rpm : Nat) : Int)).toNat

/-- The tables of R316 go to the head. -/
def Dev.sendTables (d : Dev) (n : Nat) : Dev :=
  let l := (d.seq n).layer
  let g := if d.ad8 n then l / 2 else l / 8
  let d := d.toHead n 0xB 31 0 (d.strategyRow n g 0 (F.wsLead_s0 n g) (F.wsLead_s1 n g) (F.wsLead_s2 n g) (F.wsLead_s3 n g))
  let d := d.toHead n 0xB 31 (2 ^ 24) (d.strategyRow n g 1 (F.wsTrail_s0 n g) (F.wsTrail_s1 n g) (F.wsTrail_s2 n g) (F.wsTrail_s3 n g))
  let d := (List.range (d.beamCount n)).foldl (fun d b =>
    let t := d.rdS 8 (F.wrTrim n b)
    d.toHead n 0xB b (2 * 2 ^ 24) (([d.trialPeak n (d.rd (F.wrPwr_peak n l)), d.rd (F.wrPwr_cool n l), d.rd (F.wrPwr_bias n l),
      d.rd (F.wrPwr_read n l)].map (fun v => w8 (trimmed v t))) ++ zeros 4)) d
  let d := d.toHead n 0xB 31 (3 * 2 ^ 24) (leBytes 4 (bitPeriod (d.zoneNow n)) ++ leBytes 1 (d.rd (F.wsCool n g)) ++ zeros 3)
  d.onRecorder n fun r => { r with tables := false }

/-- The tables are due (a load, a change of layer or zone, a commit or a calibration step). -/
def Dev.tablesDue (d : Dev) (n : Nat) : Dev := d.onRecorder n fun r => { r with tables := true }

/-! ## Taps (R293, R294) -/

/-- Equaliser taps at RC_EQ_DEF on every beam. -/
def Dev.eqReset (d : Dev) (n : Nat) : Dev :=
  let eq := (List.range 15).map (fun t => d.rdS 12 (F.rcEqDef n t))
  d.onDrive n fun v => { v with beams := (List.range 18).foldl (fun m b => Map.put m b { Map.get Beam.reset m b with eq := eq }) v.beams }

/-- Canceller taps at 0, too: a disc load, or L3. -/
def Dev.tapsReset (d : Dev) (n : Nat) : Dev :=
  (d.eqReset n).onDrive n fun v => { v with beams := v.beams.map (fun b => (b.1, { b.2 with cancL := [0, 0, 0], cancR := [0, 0, 0] })) }

/-! ## Band-row buffers (R32, R33, R127, R256) -/

/-- The drive of a Shell, whose owner has the buffers of its band-rows; drive 0 where no drive holds it (log entry 104). -/
def Dev.shellDrive (d : Dev) (cat : Nat) : Nat := ((List.range 4).find? (fun n => decide (d.rd (F.drvShell n) = cat))).getD 0

/-- A band-row's units are written into its buffers by owner `o` in region `reg`. -/
def Dev.rowFill (d : Dev) (o reg : Nat) (hs : List Nat) (data : Map Byte) (hmap cls : Nat) : Dev :=
  ((List.range hs.length).zip hs).foldl (fun (d : Dev) e => d.bufFill o reg e.2
    ((Map.window data (65536 * e.1) (65536 + 65536 * e.1)).map (fun x => (x.1 - 65536 * e.1, x.2))) (hmap >>> (16 * e.1) % 65536) cls) d

/-- A band-row as its buffers hold it: its bytes and its Hollow 4 KiB blocks. -/
def Dev.rowTake (d : Dev) (o reg : Nat) (hs : List Nat) : Map Byte × Nat × Dev :=
  ((List.range hs.length).zip hs).foldl (fun (acc : Map Byte × Nat × Dev) e =>
    let (m, hol, d) := acc.2.2.bufTake o reg e.2 0 unitBytes
    (acc.1 ++ m.map (fun x => (65536 * e.1 + x.1, x.2)), acc.2.1 ||| hol <<< (16 * e.1), d)) ([], 0, d)

/-- The buffers of a band-row to be recorded. -/
def Dev.recBufs (d : Dev) (id : Nat) : Option RowBufs := d.odr.rowBufs.find? (fun b => b.rec_ == some id)
/-- The buffers of a band-row being read on a drive. -/
def Dev.readBufs (d : Dev) (n brow : Nat) : Option RowBufs := d.odr.rowBufs.find? (fun b => b.drive == n && b.rec_.isNone && b.brow == brow)

/-- A band-row's buffers pass from stage to stage (R33). -/
def Dev.recPass (d : Dev) (id from_ heir : Nat) : Dev :=
  match d.recBufs id with
  | some b => b.bufs.foldl (fun (d : Dev) h => (d.bpmTransfer from_ (.handle h) heir).2) d
  | none => d

/-- A band-row to be recorded as the recorder takes it from its buffers. -/
def Dev.recTake (d : Dev) (row : RecRow) : RecRow × Dev :=
  match d.recBufs row.id with
  | some b =>
    let (m, hol, d) := d.rowTake (36 + b.drive) 8 b.bufs
    ({ row with data := m, hmap := row.hmap ||| hol }, d)
  | none => (row, d)

/-! ## The recorder's state (R319) -/

def Dev.recState (d : Dev) (n : Nat) : Nat := d.rd (F.wrStat_state n)
def Dev.setRec (d : Dev) (n st : Nat) : Dev := d.wr (F.wrStat_state n) st
def Dev.rec_ (d : Dev) (n : Nat) : Recorder := (d.drive n).rec_
def Dev.showQueue (d : Dev) (n : Nat) : Dev := d.wr (F.wrStat_rq n) (d.rec_ n).queue.length

/-- Held band-rows enter the reallocation queue as places come free (R330). -/
def Dev.queueFill (d : Dev) (n : Nat) : Dev :=
  (d.onRecorder n fun r =>
    let k := 64 - r.queue.length
    { r with queue := r.queue ++ r.excess.take k, excess := r.excess.drop k }).showQueue n

/-- A band-row enters the reallocation queue, or is held while it is full. -/
def Dev.queueAdd (d : Dev) (n : Nat) (r : RecRow) : Dev :=
  (d.onRecorder n fun q => if q.queue.length < 64 then { q with queue := q.queue ++ [r] } else { q with excess := q.excess ++ [r] }).showQueue n

/-- A band-row whose reallocation failed is first in the queue again. -/
def Dev.queueFront (d : Dev) (n : Nat) (r : RecRow) : Dev :=
  (d.onRecorder n fun q =>
    let l := r :: q.queue
    { q with queue := l.take 64, excess := l.drop 64 ++ q.excess }).showQueue n

/-- Time that has passed since a tick, in ns, at `ns` after the boundary of the tick in progress. -/
def Dev.nsSince (d : Dev) (t ns : Nat) : Nat := d.since t * 2500 + ns

/-- The time that a number of channel bits takes in a zone, in ns rounded up. -/
def bitsNs (e : ZoneEnt) (bits : Nat) : Nat := ceilDiv (bits * 60000000000) (max 1 (4096 * e.frames * e.rpm))

/-- Channel bits from a slot's first data bit to its last codeword bit and to its end; in AD-8 of `rows` rows. -/
def lastBitAt (ad8 : Bool) (rows : Nat) : Nat := if ad8 then (rows - 1) * 81920 + 73920 else 37 * 4096 + 832
def slotBits (ad8 : Bool) (rows : Nat) : Nat := if ad8 then rows * 81920 else 37 * 4096 + 3968

/-! ## Stopped band-rows (R323–R325) -/

/-- A slot is written off for a band-row: a slip where its zone has a free spare slot, else SHIFT = 0 and a REALLOC with CAUSE
0x30 to the spare slot R262 chooses (R261, R323); an AD-8 row gets an entry for each of its sectors (R333). -/
def Dev.spoil (d : Dev) (n brow ploc cause smask : Nat) : Dev :=
  match (d.drive n).disc with
  | none => d
  | some k =>
    if k.ad8 then
      let r := if plocRow ploc = k.rowPhys (2 * brow) then 2 * brow else 2 * brow + 1
      (List.range 4).foldl (fun d b => d.ddlAdd n ⟨2, false, cause, 4 * r + b, 4 * (plocRow ploc + 1) + b, smask, 0, 0⟩) d
    else
      let l := browLayer brow
      if ploc = k.logicalPloc brow ∧ k.canSlip l (k.zoneOf l (browUser brow)) then
        d.ddlAdd n ⟨2, true, cause, brow, ploc, smask, 0, 0⟩
      else
        let d := d.ddlAdd n ⟨2, false, cause, brow, ploc, smask, 0, 0⟩
        match (d.drive n).disc.bind (fun k => k.reallocSpare brow) with
        | some p => d.ddlAdd n ⟨1, false, 0x30, brow, p, smask, 0, 0⟩
        | none => d.spareExhausted n

/-- Reads under way on a slot that recording has left are dropped. -/
def Dev.dropVerify (d : Dev) (n brow ploc : Nat) : Dev :=
  d.onDrive n fun v => { v with reads := v.reads.filter (fun r => !(r.recorded && r.brow == brow && r.ploc == ploc)) }

/-- One committed band-row is stopped: its slot is written off, and it waits to be committed again. -/
def Dev.rowStops (d : Dev) (n cause smask : Nat) (r : Running) : Dev :=
  let row := { r.row with stops := r.row.stops + 1 }
  let d := d.dropVerify n row.brow r.ploc
  let again := decide (row.why = .again)
  let d := if again then d.ddlAdd n ⟨2, false, cause, row.brow, r.ploc, smask, 0, 0⟩ else d.spoil n row.brow r.ploc cause smask
  let d := if again then d.queueFront n row
    else if (match (d.drive n).disc with
      | some k => k.stopped
      | none => true) then d
    else d.onOdr fun o => { o with recs := row :: o.recs }
  if 4 ≤ row.stops then
    let d := (d.setRec n 0).setRdonly n 1
    d.raise (Pg.odrWr n) Er.odrWr_guardRepeat row.brow
  else if d.recState n = 2 then d.setRec n 3 else d

/-- The band-rows of a drive between their commit and their last codeword bit are stopped at `ns` (R322, R323). A second one,
committed for the next slot, finds the first one's slip before it: its slot is then the first one's. -/
def Dev.stopRows (d : Dev) (n ns cause : Nat) (beams : List Nat) : Dev :=
  let q := d.rec_ n
  let hit (r : Running) : Bool := decide (d.nsSince r.tick ns ≤ r.lastNs)
  let at8 (r : Running) : Running :=
    if d.ad8 n ∧ r.row.from_ = 0 ∧ r.startNs + (r.endNs - r.startNs) * 73920 / 163840 < d.nsSince r.tick ns then { r with ploc := rowPloc (plocRow r.ploc + 1), row := { r.row with from_ := 1 } }
    else r
  let smask (p : Nat) : Nat := if cause = 0x21 then (beams.map (fun b => 2 ^ sectorOf (d.ad8 n) p b)).foldl (· ||| ·) 0 else 2 ^ 18 - 1
  let cur := (q.cur.filter hit).map at8
  let next := q.next
  let d := d.onRecorder n fun q => { q with cur := if cur.isSome then none else q.cur, next := none }
  match cur, next with
  | some c, some x =>
    let d := d.rowStops n cause (smask (plocSlot c.ploc)) c
    let d := d.dropVerify n x.row.brow x.ploc
    let d := d.spoil n c.row.brow x.ploc cause (smask (plocSlot x.ploc))
    d.onOdr fun o => match o.recs with
      | r :: rs => { o with recs := r :: x.row :: rs }
      | [] => { o with recs := [x.row] }
  | some c, none => d.rowStops n cause (smask (plocSlot c.ploc)) c
  | none, some x => d.rowStops n cause (smask (plocSlot x.ploc)) x
  | none, none => d

/-- A band-row in progress ends without a DDL entry; NWB is set again before the next commit (R325). -/
def Dev.recAbort (d : Dev) (n : Nat) : Dev :=
  let q := d.rec_ n
  let rows := ([q.cur, q.next].filterMap id).map (·.row)
  if rows.isEmpty then d
  else
    let d := ([q.cur, q.next].filterMap id).foldl (fun d (r : Running) => d.dropVerify n r.row.brow r.ploc) d
    let d := d.onRecorder n fun q => { q with cur := none, next := none, recheck := true }
    let d := (rows.filter (fun r => decide (r.why = .again))).foldl (fun d r => d.queueFront n r) d
    let d := d.onOdr fun o => { o with recs := rows.filter (fun r => decide (r.why ≠ .again)) ++ o.recs }
    d.setRec n 0

/-- HOLD on a drive and its band-row handled as R325 gives. -/
def Dev.holdAbort (d : Dev) (n : Nat) : Dev := (d.hold n).recAbort n
def Dev.holdAbortAll (d : Dev) : Dev := (List.range 4).foldl (fun d n => d.holdAbort n) d

/-- NWB as R265 sets it: the start, the first blank slot from it on, and whether the slot just below that one decodes. -/
def Dev.nwbFrom (d : Dev) (n start blankFrom : Nat) (belowOk restart : Bool) : Dev :=
  let b := max start blankFrom
  if belowOk ∨ b = 0 then d.setNwb n b
  else
    let brow := b - 1
    let p := match (d.drive n).disc with
      | some k => k.plocOf brow
      | none => 0
    let d := (d.setNwb n brow).spoil n brow p 0x23 (2 ^ 18 - 1)
    if restart then d.raise (Pg.odrWr n) Er.odrWr_restart brow else d.raise (Pg.odrDrv n) Er.odrDrv_spoiltAtLoad brow

/-! ## The write guard (R320–R322) -/

def sectorCount (ad8 : Bool) : Nat := if ad8 then 8 else 18
/-- The beam on which a read finds sector `i` of its band-row; in AD-8 sector i is on beam i mod 4. -/
def BrRead.beam (ad8 : Bool) (r : BrRead) (i : Nat) : Nat := if ad8 then i % 4 else beamOf false (plocSlot r.ploc) i
/-- Sectors of a read not known yet, and those of them that are decoded: their beams are not in RC_BEAM_OFF. -/
def BrRead.failed (ad8 : Bool) (r : BrRead) : List Nat := (List.range (sectorCount ad8)).filter (fun i => (Map.find r.known i).isNone)
def Dev.decodable (d : Dev) (n : Nat) (r : BrRead) : List Nat :=
  (r.failed (d.ad8 n)).filter (fun i => !(d.rd (F.rcBeamOff n)).testBit (r.beam (d.ad8 n) i))

/-- A re-read that the guard stops is repeated once at its level (R303). -/
def Dev.rereadStops (d : Dev) (n : Nat) : Dev :=
  d.onDrive n fun v => { v with reads := v.reads.map (fun r =>
    if 2 ≤ r.level ∧ !r.idle ∧ !r.waiting.isEmpty then
      (if r.repeated then { r with waiting := [] } else
        { r with repeated := true, waiting := d.decodable n r })
    else r) }

def Dev.showGuard (d : Dev) (n : Nat) : Dev :=
  let g := (d.drive n).guard
  ((d.wrB (F.wrStat_foc n) (g.contains 0 || g.contains 3)).wrB (F.wrStat_trk n) (g.contains 1)).wrB (F.wrStat_shk n) (g.contains 2)

/-- Beams whose newest tracking error is beyond the limit. -/
def Dev.offTrack (d : Dev) (n : Nat) : List Nat :=
  (List.range (d.beamCount n)).filter (fun b =>
    decide (d.rd (F.wgLim_trk n) < (Map.get Beam.reset (d.drive n).beams b).trk.natAbs))

/-- The guard conditions of a drive are `conds` from `ns` on; a condition that is new trips the guard. -/
def Dev.guard (d : Dev) (n ns : Nat) (conds : List Nat) : Dev :=
  let was := (d.drive n).guard
  let new := conds.filter (fun c => !was.contains c)
  let d := (d.onDrive n fun v => { v with guard := conds }).showGuard n
  if new.isEmpty then d
  else
    let foc := new.contains 0 || new.contains 3
    let d := d.when foc fun d => (d.count (F.wrCnt n 4)).raise (Pg.odrWr n) Er.odrWr_guardFoc
    let d := d.when (new.contains 1) fun d => (d.count (F.wrCnt n 5)).raise (Pg.odrWr n) Er.odrWr_guardTrk
    let d := d.when (new.contains 2) fun d => (d.count (F.wrCnt n 6)).raise (Pg.odrWr n) Er.odrWr_guardShk
    let d := (d.hold n).onRecorder n fun q => { q with clear := 0 }
    let cause := if conds.contains 2 then 0x22 else if conds.contains 0 || conds.contains 3 then 0x20 else 0x21
    let d := (d.stopRows n ns cause (d.offTrack n)).rereadStops n
    if d.recState n = 2 then d.setRec n 3 else d

/-- One condition comes or goes. -/
def Dev.guardSet (d : Dev) (n ns c : Nat) (on : Bool) : Dev :=
  let was := (d.drive n).guard
  d.guard n ns (if on then (if was.contains c then was else was ++ [c]) else was.filter (· != c))

/-! ## Commit (R311–R313, R318, R319) -/

/-- A firmware activation of ODR or SRV reads HOLDING (note N4 of R491). -/
def Dev.holding (d : Dev) (region : Nat) : Bool := decide (d.rd (F.pltFwReg_state region) = 2)

def Dev.beamLocked (d : Dev) (n b : Nat) : Bool := (Map.get Beam.reset (d.drive n).beams b).locked

/-- What R318 asks of the drive, the band-row apart. -/
def Dev.mayCommit (d : Dev) (n : Nat) (test : Bool) : Bool :=
  match (d.drive n).disc with
  | none => false
  | some k =>
    decide (d.drvState n = 3) && (k.rdonly.isEmpty || (test && k.rdonly == [2])) && d.flag (F.drvCtrl_recEn n) && !k.stopped &&
      (List.range (d.beamCount n)).all (d.beamLocked n) && (d.drive n).guard.isEmpty && decide (d.rd (F.wrCfg_wgClear n) ≤ (d.rec_ n).clear) &&
      d.flag (F.spStat_atSpeed n) && decide (d.rd F.pltThermStat_level < 3) && !d.holding 8 && !d.holding 9 && !d.flag F.pltStat_safe &&
      d.driveOn n

/-- The band-row that is next on a drive's disc: the first that waits with this number and, in a disc run, durable staged
parity. A P or Q band-row may leave stripes blank below it (R258). -/
def Dev.nextRow (d : Dev) (n brow : Nat) : Option RecRow :=
  d.odr.recs.find? (fun r => r.cat == d.rd (F.drvShell n) && r.disc == d.rd (F.drvStat_disc n) &&
    (match r.why with
      | .parity .. => decide (brow ≤ r.brow)
      | .test _ => decide (brow ≤ r.brow)
      | _ => r.brow == brow) && r.staged)

/-- A QUIESCE, an EJECT_SHELL or HOLD asks the drive to finish (R319). -/
def Dev.leaving (d : Dev) (n : Nat) : Bool :=
  d.flag (F.drvCtrl_hold n) || decide (d.unitAt (Pg.odrDrv n) = .quiescing) ||
    (match d.odr.loader.eject with
      | some m => decide (m.cat = some (d.rd (F.drvShell n)))
      | none => false)

/-- A DIB is recorded when a blank disc takes its first band-row (R268). -/
def Dev.firstDib (d : Dev) (n : Nat) : Dev :=
  match (d.drive n).disc with
  | some k =>
    if k.dib.isSome ∨ k.ad8 then d
    else
      let b := leBytes 4 0xD1B00032 ++ leBytes 8 k.shell ++ leBytes 1 (d.rd (F.drvStat_disc n)) ++ leBytes 1 1 ++ zeros 2 ++ padTo 16 k.serial ++
        leBytes 4 (d.rd F.sflTime) ++ zeros 24
      (d.send (.leadIn n 16 (b ++ leBytes 4 (crc32c b)))).onDisc n fun k => { k with dib := some 16 }
  | none => d

/-- The chunks of a committed band-row that are due: those whose first bit lies less than 200 µs ahead. -/
def Dev.sendChunks (d : Dev) (n : Nat) (r : Running) : Nat × Dev :=
  let a := d.ad8 n
  let total := if a then (2 - r.row.from_) * chunksOf a else chunksOf a
  let at_ (c : Nat) : Nat := r.startNs + (r.endNs - r.startNs) * c / total
  let due := (List.range total).filter (fun c => decide (r.sent ≤ c) && decide (at_ c < d.nsSince r.tick 0 + 200000))
  if due.isEmpty then (r.sent, d)
  else
    let beams := List.range (d.beamCount n)
    let l := plocLayer r.ploc
    let p := plocSlot r.ploc
    let pay (row : Nat) : List (List Byte) := rowPayloads a r.row.data (row + r.row.from_)
    let bits (row b : Nat) : List Bool := sectorBits a l (p + row) (sectorOf a p b) 0 ((pay row).getD (sectorOf a p b) [])
    let d := due.foldl (fun d c => beams.foldl (fun d b =>
      let (st, d) := d.freeStamp
      ((d.toHead n 0xA b st (chunkBytes a (bits (c / chunksOf a) b) (c % chunksOf a))).count (F.hlCnt n 5))) d) d
    (r.sent + due.length, d)

/-- A band-row is committed in a slot whose first bit comes `lead` ns after this boundary. -/
def Dev.commitRow (d : Dev) (n lead : Nat) (row : RecRow) (ploc : Nat) : Dev :=
  let a := d.ad8 n
  let e := match (d.drive n).disc with
    | some k => k.zone (plocLayer ploc) (k.zoneOfSlot (plocLayer ploc) (plocSlot ploc))
    | none => ⟨0, 0, 0, 0, 0, 0⟩
  let d := (d.send (.gate n 0 false)).count (F.hlCnt n 6)
  let d := d.firstDib n
  let rows := 2 - row.from_
  let run : Running := ⟨row, ploc, d.now, lead, lead + bitsNs e (lastBitAt a rows), lead + bitsNs e (slotBits a rows), 0⟩
  let (sent, d) := d.sendChunks n run
  let run := { run with sent := sent }
  let d := d.onRecorder n fun q => if q.cur.isNone then { q with cur := some run } else { q with next := some run }
  if a then d
  else d.onDrive n fun v => { v with reads := v.reads ++ [⟨row.brow, ploc, 0, 0, List.range 18, [], 0, [], [], false, false, true, [], none⟩] }

/-- BANDROW_COMMIT: the commit boundary of the next slot comes; the recorder commits, leaves the slot blank, or ends the run. -/
def Dev.bandCommit (d : Dev) (c : CommitIn) : Dev :=
  let n := c.drive % 4
  let st := d.recState n
  if st ≠ 1 ∧ st ≠ 2 ∧ st ≠ 3 then d
  else
    let d := if (d.rec_ n).recheck then
        (d.nwbFrom n (max (d.rd (F.drvNwb n)) (d.pendRec n).nwb) c.blankFrom c.belowOk true).onRecorder n fun q => { q with recheck := false }
      else d
    let d := d.when (d.rec_ n).tables (fun d => if (d.rec_ n).cur.isNone then d.sendTables n else d)
    let q := d.rec_ n
    let nwb := d.rd (F.drvNwb n) + b2n q.cur.isSome
    let quits := d.leaving n || decide (64 ≤ q.queue.length) || q.next.isSome
    match d.nextRow n nwb, (d.drive n).disc with
    | some row, some k =>
      let test := match row.why with
        | .test _ => true
        | _ => false
      let ploc := if k.ad8 then rowPloc (k.rowPhys (2 * row.brow + row.from_)) else k.plocOf row.brow
      let follows := match q.cur with
        | some r => decide (ploc = r.ploc + (if k.ad8 then 2 - r.row.from_ else 1)) && decide (k.zoneOfSlot (plocLayer ploc) (plocSlot ploc) = k.zoneOfSlot (plocLayer ploc) (plocSlot r.ploc))
        | none => true
      if d.mayCommit n test && follows && !(quits && decide (st ≠ 1)) && !decide (64 ≤ q.queue.length) then
        let d := d.onOdr fun o => { o with recs := o.recs.filter (fun r => r.id != row.id) }
        let d := if row.brow ≠ nwb then d.setNwb n row.brow else d
        let (row, d) := d.recTake row
        let d := d.commitRow n c.leadNs row ploc
        if st = 1 then (d.setRec n 2).count (F.wrCnt n 7) else d.setRec n 2
      else if st = 3 then d.setRec n 0
      else if st = 1 then d.onSeq n fun s => { s with due := true }
      else d
    | _, _ => if st = 2 then d else d.setRec n 0

/-- REALLOC_RECORD: in REALLOC the first queued band-row is recorded alone in the spare slot that R262 chooses. Which sectors
replace those of an AD-8 unit is left open (log entry 39). -/
def Dev.reallocRecord (d : Dev) (c : CommitIn) : Dev :=
  let n := c.drive % 4
  let q := d.rec_ n
  if d.recState n ≠ 4 ∨ q.cur.isSome then d
  else match q.queue, (d.drive n).disc with
    | row :: rest, some k =>
      if !d.mayCommit n false then d
      else match (if k.ad8 then some (rowPloc (d.free 7 % (8 * rowsOfLayer))) else k.reallocSpare row.brow) with
        | none => d.spareExhausted n
        | some p =>
          let d := (if k.ad8 then d.stepFree else d).when q.tables fun d => d.sendTables n
          let d := (d.onRecorder n fun q => { q with queue := rest }).queueFill n
          let (row, d) := d.recTake row
          d.commitRow n c.leadNs { row with from_ := 0 } p
    | _, _ => d.setRec n 0

/-! ## Verdicts (R326–R331) -/

/-- The units of a verified band-row take their DISC entries, or its run counts it (R183, R236, R328). -/
def Dev.rowSwitch (d : Dev) (why : RecFor) (cat : Nat) : Dev :=
  match why with
  | .migrate a us =>
    let d := us.foldl (fun d u => (d.addJob (newJob (.entry u.2.2 (some u.2.1)) u.1 0)).2) d
    d.onCmd a fun c => { c with wait := c.wait ++ us.map (fun u => (u.1, u.2.2)) }
  | .parity slot p x => match d.runAt slot with
    | some (k, s) =>
      if s.row % 65536 = cat then
        (d.sjPut k (if p = 0 then s.put16 22 (max s.pDone (x + 1)) else s.put16 24 (max s.qDone (x + 1)))).count (F.parDiscCnt 1)
      else d
    | none => d
  | .test _ | .again => d

/-- The Hollow blocks of a band-row recorded get their entries (R261). -/
def Dev.hollowAdd (d : Dev) (n : Nat) (row : RecRow) : Dev :=
  match (d.drive n).disc with
  | some k => (k.hollowEnts row.brow row.hmap).foldl (fun d e => d.ddlAdd n e) d
  | none => d

/-- A band-row passes verify (R328). -/
def Dev.verifyPass (d : Dev) (n : Nat) (row : RecRow) (ploc : Nat) : Dev :=
  let d := (d.count (F.wrCnt n 1)).onRecorder n fun q => { q with verify := q.verify.filter (fun e => e.1.id != row.id) }
  if row.why = .again then
    let d := if d.ad8 n then ((List.range 8).filter row.smask.testBit).foldl (fun d i =>
        d.ddlAdd n ⟨1, false, row.cause, 8 * row.brow + i, 4 * plocRow ploc + i, row.smask, 0, 0⟩) d
      else d.ddlAdd n ⟨1, false, row.cause, row.brow, ploc, row.smask, 0, 0⟩
    let d := d.hollowAdd n row
    let d := (d.count (F.wrCnt n 3)).count (F.rcRealloc n)
    d.rowSwitch row.first row.cat
  else d.rowSwitch row.why row.cat

/-- A band-row fails verify: it is queued for reallocation; a reallocation that fails is tried in another spare slot (R329,
R331). -/
def Dev.verifyFail (d : Dev) (n : Nat) (row : RecRow) (ploc smask : Nat) : Dev :=
  let d := ((d.count (F.wrCnt n 2)).raise (Pg.odrWr n) Er.odrWr_vfyFail row.brow).onRecorder n fun q =>
    { q with verify := q.verify.filter (fun e => e.1.id != row.id) }
  if row.why = .again then
    let d := d.ddlAdd n ⟨2, false, 0x10, row.brow, ploc, smask, 0, 0⟩
    let d := d.queueFront n { row with stops := row.stops + 1 }
    if 4 ≤ row.stops + 1 then ((d.setRec n 0).setRdonly n 1).raise (Pg.odrWr n) Er.odrWr_guardRepeat row.brow else d
  else d.queueAdd n { row with why := .again, first := row.why, cause := 0x10, smask := smask, stops := 0, from_ := 0 }

/-! ## The recorder in a tick (R313, R317, R319, R330) -/

/-- A committed band-row whose slot has passed is recorded: NWB advances (R258), and its Hollow blocks get their entry. -/
def Dev.slotEnds (d : Dev) (n : Nat) : Dev :=
  let q := d.rec_ n
  match q.cur with
  | none => d
  | some r =>
    if d.nsSince r.tick 0 < r.endNs then d
    else
      let d := d.count (F.wrCnt n 0)
      let d := d.onRecorder n fun q => { q with cur := q.next, next := none, verify := q.verify ++ [(r.row, r.ploc)] }
      let d := if r.row.why = .again then d
        else
          let d := d.setNwb n (r.row.brow + 1)
          let d := d.hollowAdd n r.row
          d.onCat r.row.cat fun e => { e with last := d.rd F.sflTime }
      if d.recState n = 2 ∧ (d.rec_ n).cur.isNone then d.setRec n 0 else d

/-- AD-8 rows recorded are read back after SPAN8 rows, or when the run has ended (R333). -/
def Dev.verify8 (d : Dev) (n : Nat) : Dev :=
  let q := d.rec_ n
  let new := q.verify.filter (fun e => !(d.drive n).reads.any (fun r => r.recorded && r.brow == e.1.brow))
  if !d.ad8 n ∨ new.isEmpty ∨ (2 * new.length < d.rd (F.wrVfy_span8 n) ∧ d.recState n = 2) then d
  else d.onDrive n fun v => { v with reads := v.reads ++ new.map (fun e => ⟨e.1.brow, e.2, 0, 0, List.range 8, [], 0, [], [], false, false, true, [], none⟩) }

/-- A band-row read holds the head: a first pass with sectors still to come, or a re-read level begun (R303). -/
def Dev.headBusy (d : Dev) (n : Nat) : Bool :=
  (d.drive n).reads.any (fun r =>
    (!r.recorded && decide (2 ≤ r.level) && decide (r.level ≤ 6)) ||
      (decide (r.level = 0) && !r.idle && (!r.recorded || d.ad8 n) &&
        r.waiting.any (fun i => !d.odr.ldpc.any (fun q => q.drive == n && q.ploc == r.ploc && q.sector == i))))

/-- Verdicts reached on band-rows whose slots have ended take effect. -/
def Dev.verdicts (d : Dev) (n : Nat) : Dev :=
  ((d.drive n).reads.filter (fun r => r.recorded && r.verdict.isSome)).foldl (fun d r =>
    match (d.rec_ n).verify.find? (fun e => e.1.brow == r.brow && e.2 == r.ploc), r.verdict with
    | some (row, ploc), some (ok, smask) =>
      let d := d.dropVerify n r.brow r.ploc
      if ok then d.verifyPass n row ploc else d.verifyFail n row ploc smask
    | _, _ => d) d

/-- The recorder takes up its next work at a boundary. -/
def Dev.recNext (d : Dev) (n : Nat) : Dev :=
  let q := d.rec_ n
  let st := d.recState n
  match (d.drive n).disc with
  | none => d
  | some k =>
    let nwb := d.rd (F.drvNwb n)
    let held := d.headBusy n
    let l := browLayer nwb
    let u := browUser nwb
    let turns := decide (u = 0) || decide (k.zoneOf l u ≠ k.zoneOf l (u - 1))
    let row := d.nextRow n nwb
    if st = 4 ∧ q.queue.isEmpty ∧ q.cur.isNone then d.setRec n 0
    else if st ≠ 0 ∨ q.cur.isSome ∨ held ∨ !d.driveOn n then d
    else if !q.queue.isEmpty ∧ (d.rd (F.wrCfg_rqMax n) ≤ q.queue.length ∨ turns ∨ d.leaving n ∨ d.drvState n = 4) ∧ k.rdonly.isEmpty ∧ !k.stopped ∧ !d.holding 8 then
      let d := d.setRec n 4
      match q.queue.head?.bind (fun r => k.reallocSpare r.brow) with
      | some p => d.srvTarget n (k.slotPlace (plocLayer p) (plocSlot p))
      | none => d
    else if d.drvState n ≠ 3 ∨ d.unitAt (Pg.odrDrv n) = .quiescing ∨ k.stopped ∨ 64 ≤ q.queue.length then d
    else match row with
      | some r =>
        let p := k.plocOf r.brow
        (d.setRec n 1).srvTarget n (k.slotPlace (plocLayer p) (plocSlot p))
      | none => d

/-- The recorder of a drive in a tick: slots that end, chunks due, ticks with the guard clear, tables, new work. -/
def Dev.recTick (d : Dev) (n : Nat) : Dev :=
  let d := (d.slotEnds n).verdicts n
  let d := match (d.rec_ n).cur with
    | some r => let (s, d) := d.sendChunks n r; d.onRecorder n fun q => { q with cur := some { r with sent := s } }
    | none => d
  let d := match (d.rec_ n).next with
    | some r => let (s, d) := d.sendChunks n r; d.onRecorder n fun q => { q with next := some { r with sent := s } }
    | none => d
  let d := d.onRecorder n fun q => { q with clear := min 255 (q.clear + 1) }
  let d := if (d.drive n).guard.isEmpty then d else d.onRecorder n fun q => { q with clear := 0 }
  let free := match (d.rec_ n).cur with
    | some r => decide (r.lastNs < d.nsSince r.tick 0) || decide (d.nsSince r.tick 0 < r.startNs)
    | none => true
  let d := d.when ((d.rec_ n).tables && free && (d.drive n).disc.isSome && d.headUp n) fun d => d.sendTables n
  (d.verify8 n).recNext n

/-! ## Commands -/

/-- BANDROW_COMMIT (R318, R319). -/
def execBandrowCommit (commit : CommitIn) (s : State) : Host.Outcome State Fault Refusal := run s (·.bandCommit commit)

/-- REALLOC_RECORD (R331). -/
def execReallocRecord (commit : CommitIn) (s : State) : Host.Outcome State Fault Refusal := run s (·.reallocRecord commit)

end Sys2Proof.Machine
end

