-- ==== Sys2Proof/Machine/Stepper.lean ====
section
/-! DEFINITION. Inputs as motion reads them, and the stepper axes: moves, homing, limits, intervals, choppers (R394, R395,
R411–R418). -/
namespace Sys2Proof.Machine
open Sys2Proof

/-! ## Inputs (R416, R417) -/

def keyHome (m : Nat) : Nat := 3 * m
def keyA (m : Nat) : Nat := 3 * m + 1
def keyB (m : Nat) : Nat := 3 * m + 2
def keyShock (n : Nat) : Nat := 24 + n
def keyTrg (j : Nat) : Nat := 28 + j
def keyPwr : Nat := 32
def keyEstop : Nat := 33

/-- What an input reads while it is marked CHATTER: HOME inactive, the others active; TRG keeps its level. -/
def safeLevel (key : Nat) (level : Bool) : Bool :=
  if key < 24 then decide (key % 3 ≠ 0) else if 28 ≤ key ∧ key < 32 then level else true

def Dev.level (d : Dev) (key : Nat) : Bool := Map.get false d.mot.level key
def Dev.chats (d : Dev) (key : Nat) : Bool := Map.get false d.mot.chat key
/-- An input as Fradra acts on it. -/
def Dev.active (d : Dev) (key : Nat) : Bool := if d.chats key then safeLevel key (d.level key) else d.level key

/-! ## Axes -/

def Dev.axis (d : Dev) (m : Nat) : Axis := Map.get Axis.reset d.mot.axes m
/-- An axis changes; ST_STAT shows its state and inputs. -/
def Dev.onAxis (d : Dev) (m : Nat) (f : Axis → Axis) : Dev :=
  let x := f (d.axis m)
  let d := d.onMot fun s => { s with axes := Map.set Axis.reset s.axes m x }
  d.wr (F.stStat_state m) x.st
def Dev.showInputs (d : Dev) (m : Nat) : Dev :=
  (d.wr (F.stStat_levels m) (4 * b2n (d.active (keyHome m)) + 2 * b2n (d.active (keyA m)) + b2n (d.active (keyB m)))).wr
    (F.stStat_chat m) (4 * b2n (d.chats (keyHome m)) + 2 * b2n (d.chats (keyA m)) + b2n (d.chats (keyB m)))

def Dev.pos (d : Dev) (m : Nat) : Int := d.rdS 32 (F.stPos m)
def Dev.setPos (d : Dev) (m : Nat) (p : Int) : Dev := d.wr (F.stPos m) (unsgn 32 p)

/-- AXIS_FAIL has fenced the loader. -/
def Dev.loaderFenced (d : Dev) : Bool := decide (d.unitAt Pg.odrLdr = .fenced) || d.closed Pg.odrLdr

/-- Every gate output of an axis is low (R395). -/
def Dev.axisOff (d : Dev) (m : Nat) : Bool :=
  decide (d.unitAt (Pg.motSt m) = .off) || (decide (m < 4) && (decide (d.unitAt (Pg.motSt m) = .isolated) || decide (d.unitAt (Pg.motSt m) = .fenced))) ||
    (decide (4 ≤ m) && d.loaderFenced) || d.flag F.motStat_estop || d.flag F.motStat_pwrfail

/-- No step may be taken in a direction: a limit on that side, or a gripper's limits on its closing side (R415). -/
def Dev.blocked (d : Dev) (m : Nat) (dir : Int) : Bool :=
  if m = 7 then decide (0 < dir) && (d.active (keyA m) || d.active (keyB m))
  else if dir < 0 then d.active (keyA m) else d.active (keyB m)

def vUnit : Nat := 1048576

/-- The square root, rounded down, bit by bit from 2^(k−1). -/
def isqrt (n : Nat) : Nat → Nat → Nat
  | 0, r => r
  | k + 1, r => let t := r + 2 ^ k; isqrt n k (if t * t ≤ n then t else r)
def sqrtNat (n : Nat) : Nat := isqrt n 64 0

/-- Motion inputs active as a motion begins (bit 0 HOME, 1 LIMIT_A, 2 LIMIT_B). -/
def Dev.heldInputs (d : Dev) (m : Nat) : Nat :=
  b2n (d.active (keyHome m)) + 2 * b2n (d.active (keyA m)) + 4 * b2n (d.active (keyB m))

/-- A motion begins towards a target (R411); speed from VSTART. -/
def Dev.begin (d : Dev) (m st : Nat) (target : Int) (why : Nat) (park : Bool) : Dev :=
  d.onAxis m fun x => { x with
    st := st, target := target, v := d.rd (F.stVstart m) * vUnit, a := 0, dir := if target < d.pos m then -1 else 1, next := 0,
    began := d.now, from_ := d.pos m, held := d.heldInputs m, park := park, why := why, off := false, hold := false, idle := 0 }

/-- Homing begins: the search in the negative direction at HOME_V (R415). -/
def Dev.axisHome (d : Dev) (m why : Nat) (park : Bool) : Dev :=
  if (d.axis m).barred ≠ 0 then d.countIgnored (Pg.motSt m)
  else
    let d := d.begin m 3 (d.pos m - 1) why park
    let d := d.onAxis m fun x => { x with home := 1, dir := -1, v := d.rd (F.stHome_homeV m) * vUnit }
    d.count (F.stCnt m 3)

/-- A move to a target; barred while a stuck input has not changed. A park that finds the axis not HOMED homes first. -/
def Dev.axisMove (d : Dev) (m : Nat) (target : Int) (why : Nat) (park : Bool) : Dev :=
  if (d.axis m).barred ≠ 0 then d.countIgnored (Pg.motSt m)
  else if park ∧ d.rd (F.stStat_homed m) = 0 then d.axisHome m why true
  else
    let d := d.count (F.stCnt m 1)
    if target = d.pos m then d.onAxis m fun x => { x with st := 0, why := why, park := park, off := park || x.off } else d.begin m 2 target why park

/-- The axis decelerates to a stop. -/
def Dev.axisStop (d : Dev) (m : Nat) : Dev :=
  if (d.axis m).st = 1 ∨ (d.axis m).st = 2 ∨ (d.axis m).st = 3 then d.onAxis m fun x => { x with st := 4, next := 0, home := 0 } else d

/-- The axis stops where it is, its HOMED bit clears (R410). -/
def Dev.axisKill (d : Dev) (m : Nat) : Dev :=
  (d.onAxis m fun x => { x with st := 0, v := 0, next := 0, home := 0, off := true }).wr (F.stStat_homed m) 0

/-! ## Intervals (R412) -/

/-- The interval of a speed, in 100 MHz counts: round(10⁸ / v), never below 250. -/
def ivlOf (v : Nat) : Nat := if v = 0 then 0 else max 250 ((2 * 100000000 * vUnit / v + 1) / 2)

/-- One step of a profile from speed `v` with `k` steps left: the new speed and a. Speeds are in 1/2²⁰ steps/s (log entry 32). -/
def Dev.profile (d : Dev) (m v : Nat) (a : Int) (k : Nat) : Nat × Int :=
  let acc := d.rd (F.stAcc m)
  let vs := d.rd (F.stVstart m) * vUnit
  let vm := d.rd (F.stVmax m) * vUnit
  let u2 := vUnit * vUnit
  if d.rd (F.stCfg_profile m) = 0 then
    if k ≤ v * v / (2 * acc * u2) + 1 then (sqrtNat (max (v * v - 2 * acc * u2) (vs * vs)), a)
    else (min (sqrtNat (v * v + 2 * acc * u2)) vm, a)
  else
    let jerk := d.rd (F.stJerk m) * 256
    let jt : Int := ((jerk * vUnit / max v 1 : Nat) : Int)
    let lead : Int := ((v * v / (2 * acc * u2) : Nat) : Int) + (v : Int) * a / (2 * (jerk : Int) * vUnit) + 1
    let a' : Int := if (k : Int) ≤ lead then max (a - jt) (-(acc : Int)) else if v < vm then min (a + jt) acc else 0
    let v' : Int := (v : Int) + a' * u2 / max v 1
    ((min (max v' vs) vm).toNat, a')

/-- The step-interval cell of a tick: the interval for the step after the next, once for each step. -/
def Dev.stepInterval (d : Dev) (m : Nat) : Dev :=
  let x := d.axis m
  let left := (x.target - d.pos m).natAbs
  match x.st with
  | 1 =>
    let cmd := (sgn 16 (d.rd (F.srvLoopStat_out (loopPage m loopSled)))) * 25000 * vUnit
    let vm : Int := ((d.rd (F.stVmax m) * vUnit : Nat) : Int)
    let goal := clampInt (-vm) vm cmd
    let now : Int := x.dir * x.v
    let lim : Int := ((d.rd (F.stAcc m) * vUnit / 400000 : Nat) : Int)
    let v := now + clampInt (-lim) lim (goal - now)
    d.onAxis m fun x => { x with v := v.natAbs, dir := if v < 0 then -1 else 1, next := ivlOf v.natAbs }
  | 2 =>
    if x.next ≠ 0 then d
    else
      let (v, a) := d.profile m x.v x.a (left - 1)
      d.onAxis m fun x => { x with v := v, a := a, next := ivlOf v }
  | 3 =>
    let hv := d.rd (F.stHome_homeV m) * vUnit
    if x.home = 3 then
      let away := decide ((0 < x.dir ∧ x.latch < d.pos m) ∨ (x.dir < 0 ∧ d.pos m < x.latch))
      let vs := d.rd (F.stVstart m) * vUnit
      if away then
        if x.v ≤ vs then d.onAxis m fun x => { x with dir := -x.dir, v := hv, next := ivlOf hv }
        else
          let v := sqrtNat (max (x.v * x.v - 2 * d.rd (F.stAcc m) * vUnit * vUnit) (vs * vs))
          d.onAxis m fun x => { x with v := v, next := ivlOf v }
      else d.onAxis m fun x => { x with v := hv, next := ivlOf hv }
    else d.onAxis m fun x => { x with v := hv, next := ivlOf hv }
  | 4 =>
    if x.next ≠ 0 then d
    else
      let vs := d.rd (F.stVstart m) * vUnit
      if x.v ≤ vs then d.onAxis m fun x => { x with st := 0, v := 0 }
      else
        let v := sqrtNat (max (x.v * x.v - 2 * d.rd (F.stAcc m) * vUnit * vUnit) (vs * vs))
        d.onAxis m fun x => { x with v := v, next := ivlOf v }
  | _ => d

/-- An axis in a tick: a sled of an ACTIVE drive follows SLED_POS; one whose drive leaves ACTIVE, or a loader axis whose loader
is fenced, stops; ticks without a step are counted; then the interval. -/
def Dev.axisTick (d : Dev) (m : Nat) : Dev :=
  let d := d.onAxis m fun x => { x with idle := x.idle + 1 }
  let x := d.axis m
  let served := decide (m < 4) && d.driveOn m
  let d := if x.st = 0 ∧ served ∧ !d.axisOff m ∧ !x.park then d.onAxis m fun x => { x with st := 1, v := 0, why := 0, off := false }
    else if (x.st = 1 ∨ x.st = 2) ∧ x.why ≠ 0 ∧ 4 ≤ m ∧ d.loaderFenced then d.axisStop m
    else if x.st = 1 ∧ m < 4 ∧ !served then d.axisStop m
    else if x.st = 2 ∧ m < 4 ∧ x.why = 1 ∧ !served then d.axisStop m
    else d
  let d := d.onAxis m fun x => { x with prev := (x.v, x.a, x.dir) }
  if d.axisOff m then d else d.stepInterval m

/-- The interval was not computed in its window: the timer is reloaded with the previous one (R16, R423). -/
def Dev.stepOverrun (d : Dev) (m : Nat) : Dev :=
  if (d.axis m).st = 0 ∨ d.axisOff m then d
  else
    let d := ((d.count (F.stCnt m 6)).raise (Pg.motSt m) Er.motSt_stepOverrun)
    d.onAxis m fun x => { x with v := x.prev.1, a := x.prev.2.1, dir := x.prev.2.2, next := 0 }

/-! ## Steps (R411, R412, R415, R418) -/

/-- A move's end: a sled goes back to VELOCITY at the next tick, a park turns the bridges off. -/
def Dev.moveEnds (d : Dev) (m : Nat) : Dev := d.onAxis m fun x => { x with st := 0, v := 0, next := 0, off := x.park || x.off }

/-- An input active when the motion began is still active `STUCK_STEPS` full steps away from it. -/
def Dev.isStuck (d : Dev) (m : Nat) : Bool :=
  let x := d.axis m
  let moved := d.pos m - x.from_
  let far := d.rd (F.stCfg_stuckSteps m) * 2 ^ d.rd (F.stCfg_ustep m)
  let held := x.held &&& d.heldInputs m
  decide (far ≤ moved.natAbs) &&
    (if m = 7 then decide (moved < 0) && held.testBit 1
     else held.testBit 0 || (decide (0 < moved) && held.testBit 1) || (decide (moved < 0) && held.testBit 2))

/-- AXIS_FAIL: every loader axis stops and the loader is fenced (R277, R421). -/
def Dev.ldrFails (d : Dev) : Dev :=
  let d := [4, 5, 6, 7].foldl (fun (d : Dev) m => d.axisStop m) d
  (d.raise Pg.odrLdr Er.odrLdr_axisFail).fence Pg.odrLdr (some (Pg.odrLdr, Er.odrLdr_axisFail))
/-- An axis of a running loader sequence raised LIMIT_HIT, STUCK or HOME_FAIL. -/
def Dev.ldrFault (d : Dev) (m : Nat) : Dev := if 4 ≤ m ∧ d.odr.loader.cur.isSome then d.ldrFails else d

def Dev.axisStuck (d : Dev) (m : Nat) : Dev :=
  let x := d.axis m
  let d := (d.raise (Pg.motSt m) Er.motSt_stuck).wr (F.stStat_stuck m) 1
  let d := (d.onAxis m fun y => { y with barred := x.held &&& d.heldInputs m }).count (F.motCnt 3)
  (d.axisStop m).ldrFault m

def Dev.homeFails (d : Dev) (m : Nat) : Dev :=
  let d := (d.raise (Pg.motSt m) Er.motSt_homeFail).onAxis m fun x => { x with st := 0, home := 0, v := 0, next := 0 }
  d.ldrFault m

/-- A limit blocks the next step: LIMIT_HIT, but for a gripper that closes; homing turns at LIMIT_A and fails at
LIMIT_B. -/
def Dev.limitStops (d : Dev) (m : Nat) : Dev :=
  let x := d.axis m
  if x.st = 3 then
    if x.home = 1 ∧ x.dir < 0 then d.onAxis m fun x => { x with home := 2, dir := 1, next := 0 } else d.homeFails m
  else
    let d := d.onAxis m fun x => { x with st := 0, v := 0, next := 0 }
    if m = 7 then d else ((d.raise (Pg.motSt m) Er.motSt_limitHit).count (F.stCnt m 2)).ldrFault m

/-- STEP_TIMER_EXPIRY: the axis takes a step, or a limit blocks it; the timer is reloaded with the interval computed. -/
def Dev.stepExpires (d : Dev) (m : Nat) : Dev :=
  let x := d.axis m
  if x.st = 0 ∨ d.axisOff m ∨ x.v = 0 then d
  else if d.blocked m x.dir then d.limitStops m
  else
    let d := (d.setPos m (d.pos m + x.dir)).count (F.stCnt m 0)
    let d := d.wr (F.stIvl m) (if x.next = 0 then d.rd (F.stIvl m) else x.next)
    let d := d.onAxis m fun x => { x with next := 0, idle := 0, hold := false }
    if d.isStuck m then d.axisStuck m
    else if x.st = 2 ∧ d.pos m = x.target then d.moveEnds m
    else if x.st = 3 ∧ x.home = 3 ∧ d.pos m = x.latch then
      let d := ((d.setPos m 0).wr (F.stStat_homed m) 1).onAxis m fun x => { x with home := 0 }
      d.moveEnds m
    else d

/-- HOME is accepted active during homing: the position is latched and the axis returns to it. -/
def Dev.homeInput (d : Dev) (m : Nat) (on : Bool) : Dev :=
  let d := (d.onMot fun s => { s with level := Map.set false s.level (keyHome m) on }).onAxis m fun x => { x with barred := setBit x.barred 0 false }
  let d := (d.showInputs m).when (decide ((d.axis m).barred = 0)) (fun d => d.wr (F.stStat_stuck m) 0)
  let x := d.axis m
  if on ∧ !d.chats (keyHome m) ∧ x.st = 3 ∧ (x.home = 1 ∨ x.home = 2) then
    d.onAxis m fun x => { x with home := 3, latch := d.pos m, next := 0 }
  else d

/-- A LIMIT input changes its accepted level (side 0 A, 1 B). -/
def Dev.limitInput (d : Dev) (m side : Nat) (on : Bool) : Dev :=
  let d := (d.onMot fun s => { s with level := Map.set false s.level (keyA m + side % 2) on }).onAxis m fun x =>
    { x with barred := setBit x.barred (1 + side % 2) false }
  let d := (d.showInputs m).when (decide ((d.axis m).barred = 0)) (fun d => d.wr (F.stStat_stuck m) 0)
  let x := d.axis m
  if on ∧ (x.st = 2 ∨ x.st = 3 ∨ x.st = 1) ∧ d.blocked m x.dir then d.limitStops m else d

/-! ## Choppers (R413, R414) -/

/-- The fine angle, in 1/1,024 electrical cycle, `since` × 10 ns after the last step: that step's value, then spread evenly over the
last interval up to the next step's value; DIR inverts it (R413). -/
def Dev.fineAngle (d : Dev) (m since : Nat) : Nat :=
  let step : Nat := 256 / 2 ^ d.rd (F.stCfg_ustep m)
  let ivl := d.rd (F.stIvl m)
  let x := d.axis m
  let part := if x.st = 0 ∨ x.v = 0 ∨ ivl = 0 then 0 else min step (step * since / ivl)
  let a : Int := d.pos m * (step : Nat) + x.dir * (part : Nat)
  ((if d.flag (F.stCfg_dir m) then -a else a) % 1024).toNat

/-- CUR: RUN, or HOLD after HOLD_T ticks without a step (R413). -/
def Dev.phaseCurrent (d : Dev) (m : Nat) : Nat := if (d.axis m).hold then d.rd (F.stCur_hold m) else d.rd (F.stCur_run m)

/-- The reference of phase `ph` (0 A by the sine, 1 B by the cosine) in DAC codes; its sign is the drive direction (R413). -/
def Dev.phaseRef (d : Dev) (m ph since : Nat) : Int :=
  let theta := d.fineAngle m since * 64
  let c := Config.cosine ((if ph = 0 then 49152 + theta else theta) % 65536)
  quot ((d.phaseCurrent m : Nat) * c) 16777216

/-- The codes at which the comparator ends a drive and a decay, as CAL_ST_GAIN scales them (R414, R426). -/
def Dev.chopLevels (d : Dev) (m ph since : Nat) : Int × Int :=
  let r : Int := ((d.phaseRef m ph since).natAbs : Int)
  let o := d.rdS 8 (if ph = 0 then F.stStat_oa m else F.stStat_ob m)
  let g : Int := ((d.rd (if ph = 0 then F.calStGain_a m else F.calStGain_b m) : Nat) : Int)
  let h : Int := ((d.rd (F.stChop_hyst m) : Nat) : Int)
  let code (x : Int) : Int := clampInt 0 1023 (quot (x * g) 32768)
  (code (quot (2 * (r - o) + h) 2), code (quot (2 * (r - o) - h) 2))

/-- IN1 and IN2 of phase `ph` (R395): 00 while every gate is held low or a park has turned the bridge off; driving by the
reference's sign; else the decay of ST_CHOP.DECAY, the mixed one fast in its first quarter (`early`). -/
def Dev.bridgePins (d : Dev) (m ph since : Nat) (early : Bool) : Bool × Bool :=
  let x := d.axis m
  if d.axisOff m ∨ x.off then (false, false)
  else if (if ph = 0 then x.driveA else x.driveB) then
    (if 0 ≤ d.phaseRef m ph since then (true, false) else (false, true))
  else
    let fast := match d.rd (F.stChop_decay m) with
      | 0 => false
      | 1 => true
      | _ => early
    (!fast, !fast)

/-- HOLD_T ticks without a step: the phase current goes to HOLD. -/
def Dev.holdCurrent (d : Dev) (m : Nat) : Dev :=
  if d.rd (F.stCur_holdT m) ≤ (d.axis m).idle then d.onAxis m fun x => { x with hold := true } else d

/-- A comparator crossing of phase `ph` (0 A, 1 B), `since` × 5 ns after the last switch: the bridge switches between drive and
decay, but for a crossing within BLANK. Every 64th chop measures t_y, t_r, t_x, t_f in 5 ns and moves O by one code towards
the sign of E. -/
def Dev.chop (d : Dev) (m ph since ty tr tx tf : Nat) : Dev :=
  if d.axisOff m ∨ (d.axis m).off ∨ since * 5 < d.rd (F.stChop_blank m) * 10 then d
  else
    let x := d.axis m
    let driving := if ph = 0 then x.driveA else x.driveB
    let n := if ph = 0 then x.chopA else x.chopB
    let d := d.onAxis m fun x => if ph = 0 then { x with driveA := !driving, chopA := if driving then x.chopA else x.chopA + 1 }
      else { x with driveB := !driving, chopB := if driving then x.chopB else x.chopB + 1 }
    if driving then d
    else
      let d := d.count (F.stCnt m 4)
      if (n + 1) % 64 ≠ 0 then d
      else
        let dly : Int := ((d.rd (F.stChop_dly m) : Nat) : Int)
        let e : Int := ((tx : Int) - dly) * tr - ((ty : Int) - dly) * tf
        let f := if ph = 0 then F.stStat_oa m else F.stStat_ob m
        let o := d.rdS 8 f
        let o' := if 0 < e then o + 1 else if e < 0 then o - 1 else o
        let lim : Int := ((d.rd (F.stChop_ofsMax m) : Nat) : Int)
        if o' = o then d
        else if o' < -lim ∨ lim < o' then d.raise (Pg.motSt m) Er.motSt_ofsLimit
        else (d.wr f (unsgn 8 o')).count (F.stCnt m 5)

end Sys2Proof.Machine
end

