-- ==== Sys2Proof/Machine/Servo.lean ====
section
/-! DEFINITION. The servo's tick: inputs, region and coefficient set, the drive sequences, the loops' arithmetic, and the release
of outputs (R337–R369). -/
namespace Sys2Proof.Machine
open Sys2Proof

/-! ## Arithmetic (R349–R351) -/

/-- v × 2^k; a right shift rounds to nearest, ties upwards. -/
def shiftInt (v k : Int) : Int :=
  if 0 ≤ k then v * ((2 ^ k.toNat : Nat) : Int)
  else
    let r := (-k).toNat
    (v + ((2 ^ (r - 1) : Nat) : Int)) / ((2 ^ r : Nat) : Int)

/-- Saturation to `w` bits: the value, and whether it changed. -/
def satInt (w : Nat) (v : Int) : Int × Bool :=
  let hi : Int := ((2 ^ (w - 1) : Nat) : Int) - 1
  let c := clampInt (-hi - 1) hi v
  (c, decide (c ≠ v))

/-- The coefficients of a stage. -/
structure Biquad where
  b0 : Int
  b1 : Int
  b2 : Int
  a1 : Int
  a2 : Int
  e  : Int

def Dev.biquad (d : Dev) (e set cls stage : Nat) : Biquad :=
  let w (i : Nat) : Nat := (d.csWord e (csAddr set cls stage i)).toNat
  ⟨sgn 18 (w 0), sgn 18 (w 1), sgn 18 (w 2), sgn 18 (w 3), sgn 18 (w 4), sgn 6 (w 5)⟩

/-- One stage (R350): output, new states, whether anything saturated. -/
def biquadStep (q : Biquad) (x s1 s2 : Int) : Int × (Int × Int) × Bool :=
  let (acc, c0) := satInt 40 (q.b0 * x + s1)
  let (y, c1) := satInt 18 (shiftInt acc (q.e - 17))
  let (n1, c2) := satInt 40 (q.b1 * x - q.a1 * y + s2)
  let (n2, c3) := satInt 40 (q.b2 * x - q.a2 * y)
  (y, (n1, n2), c0 || c1 || c2 || c3)

/-! ## Places (R355, R359, R363) -/

/-- The zone entry a band of a layer counts in: bands before an entry's first count in that entry (log entry 35). -/
def DiscSt.zoneOfBand (k : DiscSt) (layer band : Nat) : Nat :=
  ((List.range 16).find? (fun z =>
    let e := k.zone layer z
    decide (band < e.firstBand + ceilDiv (38 * (e.user + e.spare)) (max 1 e.frames)))).getD 15

def isLeadIn (band : Nat) : Bool := decide (0xF0000 ≤ band) && decide (band ≠ 2 ^ 20 - 1)

/-- Signed distance in bands, mod 2²⁰. -/
def bandDiff (a b : Nat) : Int := sgn 20 (behind 20 a b)

/-- The newest field of beam 0: layer, band, track, field and its tick. -/
def Dev.field0 (d : Dev) (n : Nat) : Option (Nat × Nat × Nat × Nat × Nat) := (d.srvDrive n).field

/-- Tracks from beam 0's place to track 0 of the band below the target's (AD-8: words, converted at the words per
revolution, which only the disc shows: log entry 36). -/
def Dev.seekDist (d : Dev) (n : Nat) (g : Place) : Option Int :=
  match d.field0 n with
  | some (_, band, track, _, _) =>
    if d.ad8 n then
      let words : Int := ((g.band : Int) - band) * 10 - track
      some (quot words ((max 1 (d.free 6 % 2 ^ 20) : Nat) : Int))
    else some (18 * bandDiff (2 ^ 20 - 1 + g.band) band - track)
  | none => none

/-- The approach needs no seek: beam 0 is in the band below the target's, or in its band two fields or more before. -/
def Dev.inReach (d : Dev) (n : Nat) (g : Place) : Bool :=
  match d.field0 n with
  | some (_, band, _, field, _) =>
    bandDiff (2 ^ 20 - 1 + g.band) band == 0 || (band == g.band && decide (field + 2 ≤ g.field))
  | none => false

/-- The speed a drive's spindle is to have: its target's zone's, half of it during L6; the lead-in's where no target or zone
is known (R337). -/
def Dev.targetRpm (d : Dev) (n : Nat) : Nat :=
  let slow := (d.drive n).reads.any (fun r => decide (r.level = 6) && !r.idle && !r.recorded)
  let rpm := match (d.drive n).disc, (d.seq n).goal with
    | some k, some g => if isLeadIn g.band ∨ k.zones.isEmpty then 10800 else (k.zone g.layer (k.zoneOfBand g.layer g.band)).rpm
    | some k, none => if k.zones.isEmpty then 10800 else (k.zone (d.seq n).layer (d.seq n).zone).rpm
    | none, _ => 10800
  if slow then rpm / 2 else rpm

/-! ## Region and set (R355–R357) -/

def Dev.rpmNow (d : Dev) (n : Nat) : Int := quot (d.rdS 32 (F.spSpeed n)) 16

/-- Thresholds reached at a speed, from the number reached before. -/
def Dev.thresholds (d : Dev) (n was : Nat) (rpm : Int) : Nat :=
  let hyst : Int := (d.rd (F.srvSpdTh1_hyst n) : Nat)
  let ths := [d.rd (F.srvSpdTh0_th0 n), d.rd (F.srvSpdTh0_th1 n), d.rd (F.srvSpdTh1_th2 n)]
  ((List.range 3).filter (fun i =>
    let t : Int := (ths.getD i 0 : Nat)
    if i < was then decide (t - hyst ≤ rpm) else decide (t ≤ rpm))).length

/-- Zone entry and SPEED of a drive at this boundary. -/
def Dev.zoneSpeed (d : Dev) (n : Nat) : Nat × Nat × Bool :=
  let s := d.seq n
  let rpm := d.rpmNow n
  if d.ad8 n then (0, d.thresholds n s.spd rpm, false)
  else match (d.drive n).disc, d.field0 n with
    | some k, some (_, band, _, _, _) =>
      if isLeadIn band ∨ k.zones.isEmpty then (0, d.thresholds n s.spd rpm, s.fresh_)
      else
        let z' := k.zoneOfBand s.layer band
        let e' := k.zone s.layer z'
        let hyst := d.rd (F.srvZoneCfg_hyst n)
        let deep := if s.zone < z' then decide (e'.firstBand + hyst ≤ band)
          else decide (band + hyst < e'.firstBand + ceilDiv (38 * (e'.user + e'.spare)) (max 1 e'.frames))
        let z := if z' = s.zone ∨ s.fresh_ ∨ deep then z' else s.zone
        let e := k.zone s.layer z
        let off := (rpm - (e.rpm : Nat)).natAbs
        let spd := if off * 1000 ≤ d.rd (F.srvZoneCfg_spdTol n) * e.rpm then e.speed % 4 else d.thresholds n s.spd rpm
        (z, spd, false)
    | _, _ => (s.zone, d.thresholds n s.spd rpm, s.fresh_)

/-- Beam 0's newest field lies in the lead-in, which is ZONE 0 on every layer. -/
def Dev.inLeadIn (d : Dev) (n : Nat) : Bool := match d.field0 n with
  | some (_, band, _, _, _) => isLeadIn band
  | none => false

/-- The set of a region in the map in force. -/
def Dev.mapSet4 (d : Dev) (n region : Nat) : Nat :=
  let i := region / 4
  match region % 4 with
  | 0 => d.rd (F.srvRmap_e0 n i)
  | 1 => d.rd (F.srvRmap_e1 n i)
  | 2 => d.rd (F.srvRmap_e2 n i)
  | _ => d.rd (F.srvRmap_e3 n i)

/-- A loop's states keep the values they stand for as the set changes (R357). -/
def Dev.rescale (d : Dev) (e old new cls : Nat) (x : LoopSt) : LoopSt :=
  if x.mode ≠ 2 ∧ x.mode ≠ 3 then x
  else
    let inOld := (d.csStages e old cls).length
    let inNew := (d.csStages e new cls).length
    { x with st := (List.range 8).map (fun j =>
      let (s1, s2) := x.st.getD j (0, 0)
      if j < inOld ∧ j < inNew then
        let k := (d.biquad e old cls j).e - (d.biquad e new cls j).e
        ((satInt 40 (shiftInt s1 k)).1, (satInt 40 (shiftInt s2 k)).1)
      else (0, 0)) }

/-- RADIAL runs in CENTRE. -/
def SeqSt.centre (s : SeqSt) : Bool := decide (s.phase = 2) && decide (s.st = 4)

/-- The region is evaluated; on a change of set every loop of every image is rescaled. -/
def Dev.regionTick (d : Dev) (n : Nat) : Dev :=
  let s := d.seq n
  let (z, spd, fresh) := d.zoneSpeed n
  let zr := if s.layer % 2 = 0 ∨ d.ad8 n ∨ d.inLeadIn n then z else 15 - z
  let region := 64 * s.layer + 4 * zr + spd
  let set := d.mapSet4 n region
  let old := (d.img n).set
  let zoneNew := decide (z ≠ s.zone) || (s.fresh_ && !fresh)
  let d := d.onSeq n fun s => { s with zone := z, spd := spd, fresh_ := fresh }
  let d := if zoneNew ∧ (d.drive n).disc.isSome then
      let e := d.zoneNow n
      let (st, d) := d.freeStamp
      ((d.sendCfg n (sampleRate e.frames e.rpm) st true).eqReset n).tablesDue n
    else d
  if set = old then d.onImgs n fun i => { i with region := region }
  else
    let d := d.count (F.srvDrvCnt n 7)
    let es := d.computing n
    let f (e : Nat) (i : Image) : Image := { i with
      region := region, set := set
      loops := (List.range 23).map (fun l => d.rescale e old set (loopClass l (l == 20 && i.seq.centre)) (i.loop l)) }
    let d' := if es.isEmpty then d.onSrvDrive n fun v => { v with saved := some (f (3 * n) (v.saved.getD Image.reset)) }
      else es.foldl (fun d' e => d'.onEng e fun x => { x with img := x.img.map (f e) }) d
    d'.showServo n

/-! ## The inputs of the loops (R337, R339, R343) -/

def Dev.beamTrk (d : Dev) (n b : Nat) : Int := (Map.get Beam.reset (d.drive n).beams b).trk
def Dev.lockedBeams (d : Dev) (n : Nat) : List Nat := (List.range (d.beamCount n)).filter (d.beamLocked n)

/-- The trajectory error in 1/1,024 pitch (R363). -/
def Dev.seekError (d : Dev) (n : Nat) (s : SeqSt) : Int :=
  match d.field0 n with
  | some (_, band, track, _, at_) =>
    let dir : Int := if s.pos ≤ s.aim then 1 else -1
    let p : Int := if d.ad8 n then 0 else (18 * sgn 20 band + track) * 1024
    let adv : Int := dir * ((s.speed * d.since at_ : Nat) : Int) * 1024
    (satInt 16 (s.pos - (p + adv))).1
  | none => 0

/-- The input of a loop in an image; the mean of no mirror is left open (log entry 36). -/
def Dev.loopInput (d : Dev) (n l : Nat) (i : Image) : Int :=
  let v := (d.drive n).servo
  if l = 0 then v.fe
  else if l = 1 then v.tilt
  else if l < 20 then d.beamTrk n (l - 2)
  else if l = 20 then
    if i.seq.st = 4 ∧ i.seq.phase = 1 then d.seekError n i.seq
    else if i.seq.centre then v.coil
    else
      let bs := d.lockedBeams n
      if bs.isEmpty then sgn 17 (d.free 5) else quot ((bs.map (fun b => v.mirror.getD b 0)).foldl (· + ·) 0) (bs.length : Nat)
  else if l = 21 then (d.targetRpm n : Int) - d.rpmNow n
  else
    let dead : Int := (d.rd (F.srvSledCfg_dead n) : Nat)
    if dead < v.coil then v.coil - dead else if v.coil < -dead then v.coil + dead else 0

/-! ## One loop of one engine (R350–R352, R354) -/

/-- A loop's tick from its input: OFFSET, limits, stages; whether anything saturated. -/
def Dev.loopStep (d : Dev) (n e l : Nat) (i : Image) : LoopSt :=
  let x := i.loop l
  let pg := loopPage n l
  let lim (v : Int) : Int := min (max v (d.rdS 16 (F.srvLoopLim_lo pg))) (d.rdS 16 (F.srvLoopLim_hi pg))
  let offset := d.rdS 16 (F.srvLoopOfs_offset pg)
  match x.mode with
  | 0 => LoopSt.reset
  | 1 => { x with out := lim (x.open_ + offset), sat := false }
  | 2 => { x with sat := false }
  | _ =>
    let extra := if l = 0 then i.seq.focOfs else if 2 ≤ l ∧ l < 20 then i.seq.trkOfs else 0
    let setpt := d.rdS 16 (F.srvLoopOfs_setpt pg) + extra + d.trialSetpt n l
    let inp := (satInt 17 (d.loopInput n l i)).1
    let (x0, c0) := satInt 18 (shiftInt (inp - (satInt 17 setpt).1) (d.rd (F.srvLoopCtrl_inSh pg) : Nat))
    let cls := loopClass l (l == 20 && i.seq.centre)
    let (y, st, c) := (d.csStages e i.set cls).foldl (fun (acc : Int × List (Int × Int) × Bool) j =>
      let (s1, s2) := acc.2.1.getD j (0, 0)
      let (y, ns, c) := biquadStep (d.biquad e i.set cls j) acc.1 s1 s2
      (y, acc.2.1.set j ns, acc.2.2 || c)) (x0, x.st, c0)
    let (code, c2) := satInt 16 (shiftInt y (-((d.rd (F.srvLoopCtrl_outSh pg) : Nat) : Int)))
    { x with x := x0, st := st, out := lim (code + offset), sat := c || c2 }

/-- Words with errors that an engine meets in a tick: a single-bit error is corrected; a double-bit error fails its loops for
the tick and the word comes from the other role's copy (R354). -/
def Dev.csErrors (d : Dev) (n e : Nat) : List Nat × Dev :=
  let set := (d.img n).set
  let d := if d.injected (Pg.srvEng e) Er.srvEng_csUe then
      (d.takeInjected (Pg.srvEng e) Er.srvEng_csUe).onSrv fun s => { s with upset := Map.put s.upset (131072 * e + 512 * set) 2 } else d
  let here := d.srv.upset.filter (fun u => u.1 / 131072 == e && u.1 % 131072 / 512 == set)
  here.foldl (fun (acc : List Nat × Dev) u =>
    let d := acc.2
    let a := u.1 % 131072
    let cls := a / 64 % 8
    let used := (d.csStages e set cls).length
    if used < a / 8 % 8 then acc
    else
      let clear (d : Dev) : Dev := d.onSrv fun s => { s with upset := Map.erase s.upset u.1 }
      if u.2 = 1 then (acc.1, (clear ((d.raise (Pg.srvEng e) Er.srvEng_csCe a).count (F.srvEngCnt e 1))))
      else
        let from_ := ((engsOf n).find? (fun x => decide (x ≠ e) && decide ((d.eng x).role ≠ 0))).getD e
        let d := (d.raise (Pg.srvEng e) Er.srvEng_csUe a).count (F.srvEngCnt e 2)
        let d := if from_ = e then clear d else d.csSet e a (d.csWord from_ a)
        let ls := (List.range 23).filter (fun l => loopClass l (l == 20 && (d.seq n).centre) == cls)
        (acc.1 ++ ls, d)) ([], d)

/-- Fabric cycles of an engine's tick (R346). -/
def Dev.cycles (d : Dev) (n e : Nat) : Nat :=
  let set := (d.img n).set
  (List.range 23).foldl (fun t l => t + 20 + 10 * (d.csStages e set (loopClass l (l == 20 && (d.seq n).centre))).length) 256

/-- An engine computes the tick: a loop it fails keeps its states, and no copy of it is sent. -/
def Dev.engTick (d : Dev) (n e : Nat) : Dev :=
  let (bad, d) := d.csErrors n e
  let c := d.cycles n e
  let d := (d.wr (F.srvEngCyc_last e) c).wr (F.srvEngCyc_peak e) (max c (d.rd (F.srvEngCyc_peak e)))
  let d := d.onSrvDrive n fun v => { v with late := v.late ++ bad.map (fun l => (e, l)) }
  let d' := d
  d.onEng e fun x => { x with img := x.img.map (fun i =>
    { i with tick := d'.now, loops := (List.range 23).map (fun l => if bad.contains l then i.loop l else d'.loopStep n e l i) }) }

/-- An image as the list of its numbers; what the digest is taken over (its layout is not given: log entry 37). -/
def Image.numbers (i : Image) : List Int :=
  [(i.tick : Int), i.set, i.region, i.seq.st, i.seq.layer, i.seq.timer, i.seq.phase, i.seq.pos, i.seq.aim, i.seq.zone, i.seq.spd] ++
    (i.loops.map (fun x => [(x.mode : Int), x.out] ++ (x.st.map (fun p => [p.1, p.2])).flatten)).flatten

/-- The digest page shows the image as the tick left it. -/
def Dev.showDigest (d : Dev) (e : Nat) : Dev :=
  d.wr (F.srvEngDigest e) (Config.digestOf (((d.eng e).img.map Image.numbers).getD []))

/-! ## Sequences (R358–R366) -/

/-- Fields of the place that was left no longer count. -/
def Dev.clearPlace (d : Dev) (n : Nat) : Dev :=
  let d := d.onDrive n fun v => { v with beams := v.beams.map (fun b => (b.1, { b.2 with place := none })) }
  (d.onSrvDrive n fun v => { v with field := none }).wr (F.srvDrvPos_valid n) 0

/-- ACQUIRE begins: FOCUS at RETRACT, and a sweep (R360). -/
def Dev.acquire (d : Dev) (n sweeps : Nat) : Dev :=
  let d := d.clearPlace n
  let d := d.loopOpen n loopFocus (d.rdS 16 (F.srvFocPark n))
  let d := if sweeps = 0 then d.count (F.srvDrvCnt n 0) else d
  d.onSeq n fun s => { s with st := 1, sweeps := sweeps, crossed := 0, fe := 0, inLock := 0, lowSum := 0, jump := 0, phase := 0, serve := true }

/-- The disc is at speed: a parked servo begins (R358). -/
def Dev.servoStart (d : Dev) (n : Nat) : Dev := if (d.seq n).st = 0 ∧ (d.drive n).disc.isSome then d.acquire n 0 else d

/-- A seek's distance makes the next zone be taken without hysteresis. -/
def Dev.farSeek (d : Dev) (n : Nat) (dist : Int) : Dev :=
  if 18 * d.rd (F.srvZoneCfg_hyst n) < dist.natAbs then d.onSeq n fun s => { s with fresh_ := true } else d

/-- The approach to the drive's target (R363). -/
def Dev.approach (d : Dev) (n : Nat) : Dev :=
  match (d.seq n).goal with
  | none => d.onSeq n fun s => { s with st := 2, phase := 0, due := false }
  | some g =>
    if d.inReach n g then d.onSeq n fun s => { s with st := 2, phase := 0, due := false }
    else match d.seekDist n g with
      | none => d
      | some dist =>
        let d := d.farSeek n dist
        let d := d.finesHold n
        if dist.natAbs ≤ d.rd (F.srvSeekShort n) then
          let p : Int := match d.field0 n with
            | some (_, band, track, _, _) => 18 * sgn 20 band + track
            | none => 0
          let d := (d.wr (F.srvDrvPos_valid n) 0).count (F.srvDrvCnt n 4)
          let d := if ((d.img n).loop loopRadial).mode = 3 then d else d.loopClose n loopRadial
          d.onSeq n fun s => { s with st := 4, phase := 1, pos := p * 1024, aim := (p + dist) * 1024, speed := 0 }
        else if 2 ≤ (d.seq n).longs then d.onSeq n fun s => { s with st := 4, phase := 4 }
        else
          let d := (d.wr (F.srvDrvPos_valid n) 0).count (F.srvDrvCnt n 5)
          let d := d.onSeq n fun s => { s with st := 4, phase := 2, longs := s.longs + 1 }
          let d := (d.loopClose n loopRadial true).loopHold n loopSled
          let steps := nearest (dist * (d.rd (F.srvSledCfg_ustepPerTrack n) : Nat)) 256
          d.axisMove n (d.pos n + steps) 1 false

/-- The sled's move of a long seek has ended: the approach starts again. -/
def Dev.seekMoved (d : Dev) (n : Nat) : Dev := if (d.seq n).st = 4 ∧ (d.seq n).phase = 2 then d.approach n else d

/-- Settle begins: the FINE loops close, RADIAL and SLED_POS follow. -/
def Dev.settle (d : Dev) (n : Nat) : Dev :=
  let radial := decide (((d.img n).loop loopRadial).mode = 3) && decide ((d.seq n).phase = 1)
  let d := d.onSeq n fun s => { s with phase := 3, settle := 0, settled := 0 }
  let d := d.finesClose n
  let d := if radial then d else d.loopClose n loopRadial
  if ((d.img n).loop loopSled).mode = 3 then d else d.loopClose n loopSled

/-- One step of a layer jump begins: the kick (R362); `t` is 1 where the tick in progress is its first. -/
def Dev.jumpKick (d : Dev) (n target t : Nat) : Dev :=
  let s := d.seq n
  let kick : Int := (d.rd (F.srvJumpCfg_kick n) : Nat)
  let d := (d.clearPlace n).count (F.srvDrvCnt n 2)
  let d := d.loopOpen n loopFocus (if s.layer < target then kick else -kick)
  d.onSeq n fun s => { s with st := 3, jump := 1, dest := (if s.layer < target then s.layer + 1 else s.layer - 1), timer := t, kick := t, hit := false, inLock := 0, phase := 0 }

/-- A jump to another layer begins: FINE, RADIAL and SLED_POS hold. -/
def Dev.jumpTo (d : Dev) (n layer t : Nat) : Dev :=
  let d := (List.range 18).foldl (fun d b => d.loopHold n (loopFine b)) d
  ((d.loopHold n loopRadial).loopHold n loopSled).jumpKick n layer t

/-- FOCUS and TILT close on a layer. -/
def Dev.focusOn (d : Dev) (n layer : Nat) : Dev :=
  let d := d.loopClose n loopFocus
  let d := if ((d.img n).loop loopTilt).mode = 3 then d else d.loopClose n loopTilt
  let d := if ((d.img n).loop loopFocus).mode = 3 then d.onSeq n fun s => { s with layer := layer, inLock := 0, fresh_ := true } else d
  if ((d.img n).loop loopFocus).mode = 3 then (d.tablesDue n).showServo n else d

/-- The focus error crosses zero this tick, downwards from positive (`down`) or upwards, with the sum there. -/
def Dev.crossing (d : Dev) (n : Nat) (down : Bool) : Bool :=
  let v := (d.drive n).servo
  let was := (d.seq n).fe
  decide (d.rd (F.srvFocCfg_sumMin n) ≤ v.sum) && (if down then decide (0 < was ∧ v.fe < 0) else decide (was < 0 ∧ 0 < v.fe))

def goalLayer (s : SeqSt) : Nat := match s.goal with
  | some g => g.layer
  | none => 0

/-- The largest speed no more than one ACC above the last and no more than VMAX from which the trajectory, slowing by ACC a
tick, still ends at the target. -/
def trajectorySpeed (acc vmax v remaining : Nat) : Nat :=
  let stop (u : Nat) : Nat := (List.range (u / max 1 acc + 1)).foldl (fun t k => t + (u - k * acc)) 0
  ((List.range (min (v + acc) vmax + 1)).filter (fun u => decide (stop u ≤ remaining))).foldl max 0

/-- The sequence step of a tick. -/
def Dev.seqTick (d : Dev) (n : Nat) : Dev :=
  let v := (d.drive n).servo
  let s := d.seq n
  let inLock := decide (v.fe.natAbs < d.rd (F.srvFocLim_lock n))
  let focusClosed := decide (((d.img n).loop loopFocus).mode = 3)
  let low := focusClosed && decide (v.sum < d.rd (F.srvFocCfg_sumMin n))
  let crossDown := d.crossing n true
  let crossUp := d.crossing n false
  let d := d.onSeq n fun s => { s with
    timer := s.timer + 1, kick := s.kick + 1, inLock := if focusClosed && inLock then s.inLock + 1 else 0
    lowSum := if low then s.lowSum + 1 else 0, fe := if v.fe = 0 then s.fe else v.fe }
  let ramp : Int := (d.rd (F.srvFocCfg_ramp n) : Nat)
  let at_ := ((d.img n).loop loopFocus).open_
  match s.st with
  | 1 =>
    if focusClosed then d
    else
      let crossed := s.crossed + b2n crossDown
      let d := d.onSeq n fun s => { s with crossed := crossed }
      if crossDown ∧ crossed = goalLayer s + 1 then d.focusOn n (goalLayer s)
      else d.loopOpen n loopFocus (min 32767 (at_ + ramp))
  | 2 =>
    let unlocked := d.beamCount n - (d.lockedBeams n).length
    let d := (List.range 18).foldl (fun d b =>
      let m := ((d.img n).loop (loopFine b)).mode
      if m = 3 ∧ !d.beamLocked n b then d.loopHold n (loopFine b)
      else if m = 2 ∧ d.beamLocked n b then d.loopClose n (loopFine b) else d) d
    match s.goal with
    | some g =>
      if s.due ∧ g.layer ≠ s.layer then d.jumpTo n g.layer 1
      else if s.due ∨ 3 ≤ unlocked then d.approach n else d
    | none => d
  | 3 =>
    let kick : Int := (d.rd (F.srvJumpCfg_kick n) : Nat)
    let deeper := decide (s.layer < s.dest)
    match s.jump with
    | 2 =>
      if s.hit then
        (d.loopOpen n loopFocus (if deeper then -kick else kick)).onSeq n fun s => { s with jump := 3, timer := 1, hit := false }
      else if (if deeper then crossDown else crossUp) then d.onSeq n fun s => { s with hit := true } else d
    | 4 =>
      if s.dest ≠ goalLayer s ∧ d.rd (F.srvFocLim_chain n) ≤ (d.seq n).inLock then d.jumpKick n (goalLayer s) 1 else d
    | _ => d
  | 4 =>
    match s.phase with
    | 1 =>
      let rem := (s.aim - s.pos).natAbs / 1024
      let u := trajectorySpeed (d.rd (F.srvSeekCfg_acc n)) (d.rd (F.srvSeekCfg_vmax n)) s.speed rem
      let dir : Int := if s.pos ≤ s.aim then 1 else -1
      d.onSeq n fun s => { s with speed := u, pos := s.pos + dir * (u : Nat) * 1024 }
    | 3 =>
      let lock : Nat := d.rd (F.srvTrkCfg_lock n)
      let ok := (List.range (d.beamCount n)).all (fun b => d.beamLocked n b && decide ((d.beamTrk n b).natAbs < lock))
      d.onSeq n fun s => { s with settle := s.settle + 1, settled := if ok then s.settled + 1 else 0 }
    | _ => d
  | 5 => d.loopOpen n loopFocus (max (d.rdS 16 (F.srvFocPark n)) (at_ - ramp))
  | _ => d

/-! ## Release (R345, R347, R367, R378, R379) -/

/-- A loop's tick is missed. -/
def Dev.loopMiss (d : Dev) (n l : Nat) : Dev :=
  if (d.srvDrive n).missNow.contains l then d
  else
    let pg := loopPage n l
    let d := ((d.wr (F.srvLoopStat_miss pg) 1).count (F.srvLoopCnt pg 0)).raise (Pg.srvLoop pg) Er.srvLoop_miss
    d.onSrvDrive n fun v => { v with missNow := v.missNow ++ [l], missed := Map.set 0 v.missed l (Map.get 0 v.missed l + 1) }

/-- The outputs of the last tick are released: kept ones, held ones for the rest; the ACT frame. -/
def Dev.release (d : Dev) (n : Nat) : Dev :=
  let v := d.srvDrive n
  let d := (List.range 23).foldl (fun d l =>
    let pg := loopPage n l
    match Map.find v.kept l with
    | some (c, single) =>
      let d := d.wr (F.srvLoopStat_out pg) (unsgn 16 c)
      let d := d.when single (·.count (F.srvLoopCnt pg 2))
      d.onSrvDrive n fun v => { v with outs := Map.set 0 v.outs l c, missed := Map.erase v.missed l }
    | none => d.loopMiss n l) d
  let d := d.onSrvDrive n fun v => { v with kept := [], missNow := [], late := [] }
  let out (l : Nat) : List Byte := leBytes 2 (unsgn 16 (Map.get 0 (d.srvDrive n).outs l))
  let head := out 0 ++ out 20 ++ out 1
  let mirrors := ((List.range (d.beamCount n)).map (fun b => out (loopFine b))).flatten
  (d.toHead n 9 31 d.seqNo (head ++ mirrors ++ zeros (if d.ad8 n then 2 else 6))).count (F.hlCnt n 4)

/-- The image that the next boundary commits: role A's where the comparator found agreement, or that of the only sender. -/
def Dev.toCommit (d : Dev) (n : Nat) : Option Image :=
  if (d.srvDrive n).heldAt.isSome then none else (d.srvDrive n).pick.bind (fun e => (d.eng e).img)

/-- At the boundary that image is committed (R378). -/
def Dev.imageCommit (d : Dev) (n : Nat) : Dev :=
  match d.toCommit n with
  | some i => d.onSrvDrive n fun v => { v with saved := some i, pick := none }
  | none => d.onSrvDrive n fun v => { v with pick := none }

/-! ## The servo of a drive in a tick -/

/-- The newest SERVO frame is latched, or the input is stale (R285, R344). -/
def Dev.servoLatch (d : Dev) (n : Nat) : Dev :=
  let came := (d.drive n).came
  let d := d.onDrive n fun v => { v with came := false }
  let d := d.onSeq n fun s => if came then { s with stale := 0, fresh := s.fresh + 1 } else { s with stale := s.stale + 1, fresh := 0 }
  let d := if came then d
    else ([loopFocus, loopTilt, loopRadial, loopSled].foldl (fun d l => d.count (F.srvLoopCnt (loopPage n l) 3)) d).count (F.srvDrvCnt n 8)
  d.guardSet n 0 3 (!came)

/-- What a page shows of a tick's loops. -/
def Dev.showLoops (d : Dev) (n : Nat) : Dev :=
  (List.range 23).foldl (fun d l =>
    let x := (d.img n).loop l
    let pg := loopPage n l
    let d := d.wr (F.srvLoopIn pg) (unsgn 18 x.x)
    if x.sat then ((d.wr (F.srvLoopStat_sat pg) 1).count (F.srvLoopCnt pg 1)).raise (Pg.srvLoop pg) Er.srvLoop_sat else d) d

/-- The servo of an ACTIVE drive in a tick (R346). Engines of a drive that is not ACTIVE compute nothing (R375); a drive that
is quiescing still runs its retract. -/
def Dev.servoOn (d : Dev) (n : Nat) : Bool :=
  d.driveOn n || decide (d.unitAt (Pg.odrDrv n) = .quiescing)

def Dev.servoTick (d : Dev) (n : Nat) : Dev :=
  if !d.servoOn n then d
  else
    let d := d.release n
    let d := d.imageCommit n
    let d := (d.servoLatch n).regionTick n
    let d := (d.seqTick n).showServo n
    let d := (d.computing n).foldl (fun d e => (d.engTick n e).showDigest e) d
    d.showLoops n

/-! ## Events of the sequences -/

/-- The layers that fields accepted since the place was cleared show. -/
def Dev.fieldLayers (d : Dev) (n : Nat) : List Nat :=
  ((d.drive n).beams.filterMap (fun b => b.2.place.map (·.1)))

/-- The drive's work ends with an error: its disc is unloaded, its commands complete with MEDIA_ERROR (R370). -/
def Dev.discFails (d : Dev) (n : Nat) : Dev :=
  let c := d.rd (F.drvShell n)
  let i := d.rd (F.drvStat_disc n)
  (d.dropWants c i 0x40).unloadStart n

/-- Focus is confirmed: on the target's layer the radial loops close and the approach begins; from another layer the drive
jumps (R360, R362). -/
def Dev.focusConfirmed (d : Dev) (n : Nat) : Dev :=
  let s := d.seq n
  let here := (s.st = 1 ∧ ((d.img n).loop loopFocus).mode = 3) ∨ (s.st = 3 ∧ s.jump = 4 ∧ s.dest = goalLayer s)
  match d.fieldLayers n with
  | [] => d
  | ls =>
    if ¬ here ∨ s.inLock < d.rd (F.srvFocCfg_confirm n) then d
    else if ls.contains (goalLayer s) then
      let d := (d.onSeq n fun s => { s with layer := goalLayer s, jump := 0 }).loopClose n loopRadial
      ((d.finesClose n).loopClose n loopSled).approach n
    else
      let d := d.onSeq n fun s => { s with layer := ls.headD 0 }
      d.jumpTo n (goalLayer s) 0

/-- FOCUS_FAIL: the disc is unloaded. -/
def Dev.focusFails (d : Dev) (n : Nat) : Dev := (d.raise (Pg.srvDrv n) Er.srvDrv_focusFail).discFails n

/-- A sweep has reached the top without the target (R360). -/
def Dev.sweepEnd (d : Dev) (n : Nat) : Dev :=
  let s := d.seq n
  let x := (d.img n).loop loopFocus
  if s.st ≠ 1 ∨ x.mode ≠ 1 ∨ x.open_ < 32767 then d
  else if s.sweeps < 2 then d.acquire n (s.sweeps + 1)
  else
    let d := d.loopOpen n loopFocus (d.rdS 16 (F.srvFocPark n))
    let d := d.onSeq n fun s => { s with st := 0, serve := false, goal := none, due := false }
    d.focusFails n

/-- Focus is lost: retract and acquire, at most 3 times in 400,000 ticks (R361). -/
def Dev.focusLost (d : Dev) (n : Nat) : Dev :=
  let s := d.seq n
  if ((d.img n).loop loopFocus).mode ≠ 3 ∨ s.lowSum < d.rd (F.srvFocLim_lostT n) then d
  else
    let recent := s.losses.filter (fun t => decide (d.since t ≤ 400000))
    let d := (d.raise (Pg.srvDrv n) Er.srvDrv_focusLost).count (F.srvDrvCnt n 1)
    let d := d.onSeq n fun s => { s with losses := recent ++ [d.now], lowSum := 0 }
    if 3 ≤ recent.length then (d.retractPark n).focusFails n else d.retract n

def Dev.jumpKickEnd (d : Dev) (n : Nat) : Dev :=
  let s := d.seq n
  if s.st = 3 ∧ s.jump = 1 ∧ d.rd (F.srvJumpCfg_kickT n) ≤ s.timer then
    (d.loopOpen n loopFocus 0).onSeq n fun s => { s with jump := 2, timer := 0, hit := false }
  else d

def Dev.jumpBrakeEnd (d : Dev) (n : Nat) : Dev :=
  let s := d.seq n
  if s.st = 3 ∧ s.jump = 3 ∧ d.rd (F.srvJumpCfg_brakeT n) ≤ s.timer then
    let d := d.onSeq n fun s => { s with jump := 4, timer := 0 }
    d.focusOn n s.dest
  else d

def Dev.jumpFail (d : Dev) (n : Nat) : Dev :=
  let s := d.seq n
  if s.st = 3 ∧ (s.jump = 1 ∨ s.jump = 2) ∧ !s.hit ∧ d.rd (F.srvJumpCfg_tmo n) ≤ s.kick then
    ((d.raise (Pg.srvDrv n) Er.srvDrv_jumpFail).count (F.srvDrvCnt n 3)).retract n
  else d

def Dev.trajectoryEnd (d : Dev) (n : Nat) : Dev :=
  let s := d.seq n
  if s.st = 4 ∧ s.phase = 1 ∧ s.pos = s.aim then d.settle n else d

def Dev.settleComplete (d : Dev) (n : Nat) : Dev :=
  let s := d.seq n
  if s.st = 4 ∧ s.phase = 3 ∧ d.rd (F.srvSeekCfg_settle n) ≤ s.settled then
    d.onSeq n fun s => { s with st := 2, phase := 0, due := false, bad := 0 }
  else d

/-- The approach fails: SEEK_FAIL and a retract; the second on one target ends the commands that need it. -/
def Dev.approachFails (d : Dev) (n : Nat) : Dev :=
  let d := d.raise (Pg.srvDrv n) Er.srvDrv_seekFail
  let fails := (d.seq n).fails + 1
  let d := d.onSeq n fun s => { s with fails := fails, bad := 0, longs := 0 }
  let d := if 2 ≤ fails then d.dropWants (d.rd (F.drvShell n)) (d.rd (F.drvStat_disc n)) 0x40 else d
  d.retract n

/-- A settle of 400 ticks fails; the approach is made again once, or has failed. -/
def Dev.seekFail (d : Dev) (n : Nat) : Dev :=
  let s := d.seq n
  if s.st = 4 ∧ s.phase = 4 then d.approachFails n
  else if s.st = 4 ∧ s.phase = 3 ∧ 400 ≤ s.settle then
    if s.bad = 0 then (d.onSeq n fun s => { s with bad := 1 }).approach n else d.approachFails n
  else d

/-- The retract is complete: acquire again where the disc is to be served and SERVO frames come, else PARKED (R344, R358,
R366). -/
def Dev.retractComplete (d : Dev) (n : Nat) : Dev :=
  let s := d.seq n
  if s.st ≠ 5 ∨ ((d.img n).loop loopFocus).open_ ≠ d.rdS 16 (F.srvFocPark n) then d
  else if s.serve ∧ (d.drive n).disc.isSome then (if 8 ≤ s.fresh then d.acquire n 0 else d)
  else
    let d := d.onSeq n fun s => { s with st := 0, goal := none, due := false }
    let (st, d) := d.freeStamp
    d.sendCfg n (d.rd (F.hlSrate n)) st false

def Dev.servoStale (d : Dev) (n : Nat) : Dev :=
  let s := d.seq n
  if s.st = 0 ∨ s.st = 5 ∨ s.stale < 4 then d else (d.raise (Pg.srvDrv n) Er.srvDrv_servoStale).retract n

/-! ## Coefficient-store access (R354) -/

/-- A write through SRV_CS_DATA: to every engine copy but those of FAILED engines, not to a set in use. -/
def Dev.csWrite (d : Dev) (n v : Nat) : Dev :=
  let set := d.rd (F.srvCsAddr_set n)
  let cls := d.rd (F.srvCsAddr_class n)
  let named := (List.range 512).any (fun i => [F.srvRmap_e0 n i, F.srvRmap_e1 n i, F.srvRmap_e2 n i, F.srvRmap_e3 n i].any (fun f => d.rd f == set))
  if named ∨ cls = 7 then d.countIgnored (Pg.srvDrv n) v
  else
    let word := d.rd (F.srvCsAddr_word n)
    let a := csAddr set cls (d.rd (F.srvCsAddr_stage n)) word
    let m := if word < 5 then v % 2 ^ 18 else if word = 5 then v % 64 else if word = 6 then v % 2 else 0
    (engsOf n).foldl (fun d e => if (d.eng e).st = 6 then d else d.csSet e a (w32 m)) d

/-- After each access the address rises where AUTOINC says so. -/
def Dev.csStep (d : Dev) (n : Nat) : Dev :=
  if d.rd (F.srvCsAddr_autoinc n) = 0 then d
  else
    let pos := d.rd (F.srvCsAddr_set n) * 512 + d.rd (F.srvCsAddr_class n) * 64 + d.rd (F.srvCsAddr_stage n) * 8 + d.rd (F.srvCsAddr_word n) + 1
    (((d.wr (F.srvCsAddr_set n) (pos / 512 % 256)).wr (F.srvCsAddr_class n) (pos / 64 % 8)).wr (F.srvCsAddr_stage n) (pos / 8 % 8)).wr
      (F.srvCsAddr_word n) (pos % 8)

/-- A read through SRV_CS_DATA. -/
def Dev.csRead (d : Dev) (n : Nat) : Nat :=
  if d.rd (F.srvCsAddr_class n) = 7 then 0
  else (d.csWord (d.csEngine n) (csAddr (d.rd (F.srvCsAddr_set n)) (d.rd (F.srvCsAddr_class n)) (d.rd (F.srvCsAddr_stage n)) (d.rd (F.srvCsAddr_word n)))).toNat

/-! ## Commands -/

def execFocusConfirmed (drive : Nat) (s : State) : Host.Outcome State Fault Refusal := run s (·.focusConfirmed (drive % 4))
def execFocusSweepEnd (drive : Nat) (s : State) : Host.Outcome State Fault Refusal := run s (·.sweepEnd (drive % 4))
def execFocusLost (drive : Nat) (s : State) : Host.Outcome State Fault Refusal := run s (·.focusLost (drive % 4))
def execJumpKickEnd (drive : Nat) (s : State) : Host.Outcome State Fault Refusal := run s (·.jumpKickEnd (drive % 4))
def execJumpBrakeEnd (drive : Nat) (s : State) : Host.Outcome State Fault Refusal := run s (·.jumpBrakeEnd (drive % 4))
def execJumpFail (drive : Nat) (s : State) : Host.Outcome State Fault Refusal := run s (·.jumpFail (drive % 4))
def execSeekTrajectoryEnd (drive : Nat) (s : State) : Host.Outcome State Fault Refusal := run s (·.trajectoryEnd (drive % 4))
def execSettleComplete (drive : Nat) (s : State) : Host.Outcome State Fault Refusal := run s (·.settleComplete (drive % 4))
def execSeekFail (drive : Nat) (s : State) : Host.Outcome State Fault Refusal := run s (·.seekFail (drive % 4))
def execRetractComplete (drive : Nat) (s : State) : Host.Outcome State Fault Refusal := run s (·.retractComplete (drive % 4))
def execServoStale (drive : Nat) (s : State) : Host.Outcome State Fault Refusal := run s (·.servoStale (drive % 4))

/-- SRV_CS_DATA_WRITE (R354). -/
def execSrvCsDataWrite (drive value : Nat) (s : State) : Host.Outcome State Fault Refusal :=
  run s fun d => d.asWrite (Pg.srvDrv (drive % 4)) fun d => (d.csWrite (drive % 4) (value % 2 ^ 32)).csStep (drive % 4)

/-- SRV_CS_DATA_READ (R354). -/
def execSrvCsDataRead (drive : Nat) (s : State) : Host.Outcome State Fault Refusal :=
  run s fun d => (d.answer (d.csRead (drive % 4))).csStep (drive % 4)

end Sys2Proof.Machine
end

