-- ==== Sys2Proof/Machine/Spindle.lean ====
section
/-! DEFINITION. The spindles: measurement, estimators and the switching decision, the states from spin-up to standstill
(R394–R410, R422). -/
namespace Sys2Proof.Machine
open Sys2Proof

def Dev.spin (d : Dev) (n : Nat) : Spin := Map.get Spin.reset d.mot.spins n
/-- A spindle changes; SP_STAT shows its state. -/
def Dev.onSpin (d : Dev) (n : Nat) (f : Spin → Spin) : Dev :=
  let x := f (d.spin n)
  let d := d.onMot fun s => { s with spins := Map.set Spin.reset s.spins n x }
  d.wr (F.spStat_state n) x.st

/-- A measured speed, in 1/16 rpm. -/
def Dev.speed16 (d : Dev) (n : Nat) : Int := d.rdS 32 (F.spSpeed n)
def Dev.setSpeed (d : Dev) (n : Nat) (v : Int) : Dev := d.wr (F.spSpeed n) (unsgn 32 v)
/-- The magnitude of the speed in whole rpm. -/
def Dev.absRpm (d : Dev) (n : Nat) : Nat := (d.speed16 n).natAbs / 16

/-- Every gate output of the port is held low (R395). -/
def Dev.gatesHeld (d : Dev) (n : Nat) : Bool :=
  let u := d.unitAt (Pg.odrDrv n)
  decide (u = .off) || decide (u = .isolated) || decide (u = .fenced) || d.flag F.motStat_estop || d.flag F.motStat_pwrfail

/-! ## Starting and stopping (R404, R407, R408) -/

/-- A measurement begins: gates off. -/
def Dev.measure (d : Dev) (n st : Nat) : Dev :=
  d.onSpin n fun x => { x with st := st, since := d.now, vec := 0, nextVec := 0, valid := false, differ := 0, agree := 0 }

/-- MOT signals the controlled stop to SRV once the speed is at FOC_RPM or less. -/
def Dev.tellStop (d : Dev) (n : Nat) : Dev :=
  if (d.spin n).told ∨ d.rd (F.spStop_focRpm n) < d.absRpm n then d
  else (d.onSpin n fun x => { x with told := true }).retractPark n

/-- The controlled stop begins: HOLD, SPIN_SPEED OFF, braking through DTC or by the zero vector. -/
def Dev.stopSpin (d : Dev) (n : Nat) : Dev :=
  let x := d.spin n
  if x.st = 0 ∨ x.st = 8 ∨ x.st = 9 then d
  else
    let d := (d.holdAbort n).loopOff n loopSpin
    let d := (d.wr (F.spStat_atSpeed n) 0).count (F.spCnt n 6)
    let d := d.onSpin n fun x => { x with
      st := 8, since := d.now, dtc := x.st == 4 || x.st == 5 || x.st == 6, told := false, quiet := 0, atSpeed := 0, cross := d.now }
    d.tellStop n

/-- SPIN_SPEED closes and the spindle is in RUN. -/
def Dev.spinRun (d : Dev) (n : Nat) : Dev :=
  (d.onSpin n fun x => { x with st := 6, since := d.now, atSpeed := 0, fromLost := false }).loopClose n loopSpin

/-- The speed is within 2% of the target. -/
def Dev.nearTarget (d : Dev) (n : Nat) : Bool :=
  let t : Int := ((d.targetRpm n * 16 : Nat) : Int)
  decide ((d.speed16 n - t).natAbs * 50 ≤ t.natAbs)

/-- The spindle is left to coast, as ESTOP and PWRFAIL leave it (R410). -/
def Dev.spinKill (d : Dev) (n : Nat) : Dev :=
  let d := d.onSpin n fun x => { x with st := 0, vec := 0, nextVec := 0, valid := false, atSpeed := 0 }
  ((d.wr (F.spStat_atSpeed n) 0).wr (F.spStat_still n) 0).loopOff n loopSpin

/-- A spindle in FAULT is OFF once its drive leaves FENCED or ISOLATED. -/
def Dev.spinUnfault (d : Dev) (n : Nat) : Dev := if (d.spin n).st = 9 then d.onSpin n fun x => { x with st := 0 } else d

/-! ## Estimators (R396–R399) -/

def one24 : Int := 16777216
/-- 32-bit two's complement. -/
def wrap32 (v : Int) : Int := sgn 32 (unsgn 32 v)

/-- A converter's code above its zero in 1/16 code, corrected by its offset and gain (R396, R426). -/
def Dev.corrected (d : Dev) (n c mid : Nat) (code : Int) : Int :=
  quot (((code - mid) * 16 + d.rdS 12 (F.calSpOfs n c)) * (d.rd (F.calSpGain n c) : Nat)) 32768

/-- The link voltage in 10 mV. -/
def Dev.linkMv (d : Dev) (n code : Nat) : Nat := (max 0 (quot (d.corrected n 6 0 (code : Int) * (d.rd (F.spMot2_vFs n) : Nat)) 65536)).toNat

/-- The pulses are shifted to the tick's edges (R397). -/
def Dev.shifted (d : Dev) (n : Nat) : Bool := decide (340 < d.rd (F.spDtc_on n) + 2 * d.rd (F.spCfg_dead n))

/-- Phases that a vector sets high. -/
def highPhases (v : Nat) : Nat := if v = 0 then 0 else if v % 2 = 1 then 1 else 2

/-- Two phases at least were sampled at this boundary (R398; log entry 33). -/
def Dev.complete (d : Dev) (n vec : Nat) : Bool :=
  !d.shifted n || decide (d.now % 2 = 0) || decide (highPhases vec ≤ 1)

/-- A vector of length `amp` along V(k). -/
def vector (k : Nat) (amp : Int) : Int × Int :=
  let h := quot amp 2
  let r := Config.overRoot3 (quot (3 * amp) 2)
  match k with
  | 1 => (amp, 0)
  | 2 => (h, r)
  | 3 => (-h, r)
  | 4 => (-amp, 0)
  | 5 => (-h, -r)
  | 6 => (h, -r)
  | _ => (0, 0)

/-- e^(jθ) with 24 fractional bits. -/
def unit24 (theta : Nat) : Int × Int := (Config.cosine (theta % 65536), Config.cosine ((49152 + theta) % 65536))

/-- The estimators of a tick: flux, currents, the two angles, and the torque in 1/2²⁴ of rated. -/
def Dev.estimate (d : Dev) (n : Nat) (s : SpinSample) : Int × Dev :=
  let x := d.spin n
  let psi := max 1 (d.rd (F.spMot1_psi n))
  let ifs := d.rd (F.spMot1_iFs n)
  let vfs := max 1 (d.rd (F.spMot2_vFs n))
  let res := d.rd (F.spMot0_res n)
  let ind := max 1 (d.rd (F.spMot0_ind n))
  let swap := d.flag (F.spCfg_dir n)
  let ia := quot (d.corrected n 0 2048 s.ia * 512) 1
  let ibRaw := quot (d.corrected n 1 2048 s.ib * 512) 1
  let ib := if swap then -(ia + ibRaw) else ibRaw
  let theta := x.angF.headD 0
  let (ca, cb) := unit24 theta
  let full := d.complete n x.vec
  let d := if full then d else (d.count (F.spCnt n 7)).raise (Pg.motSp n) Er.motSp_noWindow
  let toI (v : Int) : Int := quot (v * 1000 * (psi : Nat)) ((ind * max 1 ifs : Nat) : Int)
  let (iA, iB) := if full then (ia, Config.overRoot3 (ia + 2 * ib)) else (toI (x.psiA - ca), toI (x.psiB - cb))
  let code := d.corrected n 6 0 (s.vdc : Int)
  let amp := quot (2 * code * 256 * (d.rd (F.spDtc_on n) : Nat)) (3 * 500)
  let (vA, vB) := vector x.vec amp
  let flux (v i : Int) : Int := quot (v * (vfs : Nat)) ((40 * psi : Nat) : Int) - quot (i * ((res * ifs : Nat) : Int)) ((40000 * psi : Nat) : Int)
  let li (i : Int) : Int := quot (i * ((ind * ifs : Nat) : Int)) ((1000 * psi : Nat) : Int)
  let blend : Int := ((2 ^ d.rd (F.spDtc_blend n) : Nat) : Int)
  let mix (p v i c : Int) : Int :=
    let vm := p + flux v i
    wrap32 (vm + quot (li i + c - vm) blend)
  let pA := mix x.psiA vA iA ca
  let pB := mix x.psiB vB iB cb
  let thetaF := Config.angleOf (pA - li iA) (pB - li iB) % 65536
  let b (c : Nat) : Int := d.corrected n (3 + c) 0 (s.bemf.getD c 0) * 256
  let bB := if swap then b 2 else b 1
  let bC := if swap then b 1 else b 2
  let tA := quot (2 * b 0 - bB - bC) 3
  let tB := Config.overRoot3 (bB - bC)
  let drop (i was : Int) : Int := quot (i * ((res * ifs : Nat) : Int)) ((1000 * vfs : Nat) : Int) + quot ((i - was) * ((ind * ifs : Nat) : Int)) ((25 * vfs : Nat) : Int)
  let thetaE := (Config.angleOf (wrap32 (tA - drop iA x.iA)) (wrap32 (tB - drop iB x.iB)) + 49152) % 65536
  let pol := d.rd (F.spCfg_poles n)
  let torque := wrap32 (quot (3 * (pol : Nat) * (pA * iB - pB * iA) * ((psi * ifs : Nat) : Int)) (2 * one24 * ((max 1 (Config.ratedTorque n) : Nat) : Int)))
  let d := d.onSpin n fun x => { x with
    psiA := pA, psiB := pB, iA := iA, iB := iB, angF := (thetaF :: x.angF).take 17, angE := (thetaE :: x.angE).take 17 }
  let d := (d.wr (F.spAngle_thetaF n) thetaF).wr (F.spAngle_thetaE n) thetaE
  let mag := sqrtNat (pA * pA + pB * pB).natAbs
  let d := (d.wr (F.spEst_torque n) (unsgn 16 (quot torque 512))).wr (F.spEst_psi n) (mag / 1024)
  (torque, d)

/-- ω over the last 16 ticks, in 1/16 rpm. -/
def omega (angs : List Nat) (poles : Nat) : Int :=
  quot (sgn 16 (angs.headD 0 + 65536 - angs.getD 16 (angs.headD 0)) * 46875) ((128 * max 1 poles : Nat) : Int)

/-! ## The decision (R400–R402) -/

/-- τ after a torque error, and φ after a flux error. -/
def torqueBand (tau err band : Int) : Int :=
  if band ≤ err then 1 else if err ≤ -band then -1 else if tau = 1 ∧ err ≤ 0 then 0 else if tau = -1 ∧ 0 ≤ err then 0 else tau
def fluxBand (phi err band : Int) : Int := if band ≤ 2 * err then 1 else if 2 * err ≤ -band then -1 else phi

/-- The vector that τ, φ and the sector choose. -/
def chooseVector (tau phi : Int) (sector : Nat) : Nat :=
  let k (i : Nat) : Nat := (sector - 1 + i) % 6 + 1
  if tau = 0 then 0 else if tau = 1 then (if phi = 1 then k 1 else k 2) else (if phi = 1 then k 5 else k 4)

/-- The decision of tick Tk for a torque reference in 1/32,768 of rated, from the vector in force in Tk−1: the vector decided in Tk−1 comes into
force in Tk, and the one decided now in Tk+1 (R15, R397, R399). -/
def Dev.decide_ (d : Dev) (n : Nat) (ref : Int) (s : SpinSample) : Dev :=
  let (torque, d) := d.estimate n s
  let x := d.spin n
  let pol := d.rd (F.spCfg_poles n)
  let d := d.setSpeed n (omega x.angF pol)
  let mag : Int := ((sqrtNat (x.psiA * x.psiA + x.psiB * x.psiB).natAbs : Nat) : Int)
  let tau := torqueBand x.tau (ref * 512 - torque) ((d.rd (F.spDtc_tqBand n) * 512 : Nat) : Int)
  let phi := fluxBand x.phi ((d.rd (F.spFlux_fluxRef n) * 1024 : Nat) - mag) ((d.rd (F.spFlux_flBand n) * 1024 : Nat) : Int)
  let adv := d.rd (F.spAdv n (min 31 (d.absRpm n / max 1 (d.rd (F.spRun_advStep n)))))
  let arg := Config.angleOf x.psiA x.psiB
  let sector := ((arg + 256 * adv) * 12 + 65536) % (65536 * 12) / 131072 + 1
  let high := decide (d.rd (F.spVlim_vdcMax n) < d.linkMv n s.vdc)
  let d := d.when (high && decide (tau = -1)) fun d => d.raise (Pg.motSp n) Er.motSp_dcHigh
  let used := if high ∧ tau = -1 then 0 else tau
  let diff := (sgn 16 (x.angF.headD 0 + 65536 - x.angE.headD 0)).natAbs
  let off := decide (d.rd (F.spObs_minRpm n) ≤ d.absRpm n) && decide (256 * d.rd (F.spObs_angTol n) < diff)
  d.onSpin n fun x => { x with
    tau := tau, phi := phi, vec := x.nextVec, nextVec := chooseVector used phi sector
    differ := if off then x.differ + 1 else 0, agree := if off then 0 else x.agree + 1 }

/-! ## The gate outputs (R395, R397, R404–R407) -/

/-- Phase `p` (0 A, 1 B, 2 C) is high in vector `v` (R400). -/
def vectorHigh (v p : Nat) : Bool :=
  ((match v with
    | 1 => [0]
    | 2 => [0, 1]
    | 3 => [1]
    | 4 => [1, 2]
    | 5 => [2]
    | 6 => [0, 2]
    | _ => []) : List Nat).contains p

/-- The vectors of a saliency pulse in direction dir × 30°, and how many 5 ns counts each of them runs (R405). -/
def Dev.alignPulse (d : Dev) (n dir : Nat) : List (Nat × Nat) :=
  let t := d.rd (F.spStart_pulse n)
  if dir % 2 = 0 then [(dir / 2 + 1, t)] else [((dir - 1) / 2 + 1, t / 2), ((dir + 1) / 2 % 6 + 1, t / 2)]

/-- Every gate is off: the port is held, the spindle is OFF, in FAULT or measured, or a shunt has tripped in this tick. -/
def Dev.gatesOff (d : Dev) (n : Nat) : Bool :=
  let x := d.spin n
  d.gatesHeld n || x.st == 0 || x.st == 1 || x.st == 7 || x.st == 9 || x.gap

/-- GH and GL of the port's phase `p` (0 A, 1 B, 2 C), `t` × 5 ns after the tick's start, in a tick that applies `vec`: a high phase
has GH on for ON, centred or shifted to an edge of the tick, and GL on DEAD before and after; DIR swaps B and C. -/
def Dev.gates (d : Dev) (n p t : Nat) : Bool × Bool :=
  if d.gatesOff n then (false, false)
  else
    let q := if d.flag (F.spCfg_dir n) ∧ p ≠ 0 then 3 - p else p
    if !vectorHigh (d.spin n).vec q then (false, true)
    else
      let on := d.rd (F.spDtc_on n)
      let dead := d.rd (F.spCfg_dead n)
      let start := if !d.shifted n then (500 - on) / 2 else if d.now % 2 = 1 then 0 else 500 - on
      (decide (start ≤ t) && decide (t < start + on), decide (t + dead < start) || decide (start + on + dead ≤ t))

/-! ## Braking by the zero vector (R406, R408) -/

/-- The braking current of a tick: its zero crossings give the speed, and quiet ticks are counted. -/
def Dev.brakeTick (d : Dev) (n : Nat) (s : SpinSample) : Dev :=
  let x := d.spin n
  let i := d.corrected n 0 2048 s.ia * 512
  let crossed := decide (x.iA < 0 ∧ 0 ≤ i) || decide (0 ≤ x.iA ∧ i < 0)
  let quiet := !crossed && decide (i.natAbs * 50 < one24.natAbs)
  let gap := d.since x.cross
  let d := if crossed ∧ gap ≠ 0 then d.setSpeed n (quot 192000000 ((gap * max 1 (d.rd (F.spCfg_poles n)) : Nat) : Int)) else d
  let hard := decide (d.rd (F.spStop2_ibrk n) * one24.natAbs < i.natAbs * d.rd (F.spMot1_iFs n))
  d.onSpin n fun x => { x with
    iA := i, vec := 0, nextVec := 0, quiet := if quiet then x.quiet + 1 else 0, cross := if crossed then d.now else x.cross, gap := hard }

/-! ## The spindle in a tick -/

/-- SYNC, ACCEL and RUN after the decision: disagreement, the target reached, AT_SPEED lost. -/
def Dev.spinMoves (d : Dev) (n : Nat) : Dev :=
  let x := d.spin n
  match x.st with
  | 5 => if x.differ ≠ 0 then (if x.fromLost then d.measure n 7 else d.measure n 1) else d
  | 4 => if d.nearTarget n then d.spinRun n else d
  | 6 =>
    let t : Int := ((d.targetRpm n * 16 : Nat) : Int)
    if (d.speed16 n - t).natAbs * 10000 ≤ t.natAbs * d.rd (F.spRun_tol n) then d.onSpin n fun x => { x with atSpeed := x.atSpeed + 1 }
    else (d.onSpin n fun x => { x with atSpeed := 0 }).wr (F.spStat_atSpeed n) 0
  | _ => d

/-- What the drive does with a tick's samples in each state: a torque to decide for, or the brake. -/
def Dev.spinDrive (d : Dev) (n : Nat) (x : Spin) (s : SpinSample) : Dev :=
  match x.st with
  | 4 => d.decide_ n (d.rd (F.spStart_startTq n) : Nat) s
  | 5 => d.decide_ n 0 s
  | 6 => d.decide_ n (Map.get 0 (d.srvDrive n).outs loopSpin) s
  | 8 => if x.dtc then d.decide_ n (-((d.rd (F.spStop_stopTq n) : Nat) : Int)) s else d.brakeTick n s
  | 2 => d.brakeTick n s
  | _ => d

def Dev.spinTick (d : Dev) (n : Nat) (s : SpinSample) : Dev :=
  let d := (d.wrB (F.spStat_shifted n) (d.shifted n)).wr (F.spVdc n) (d.linkMv n s.vdc)
  let x := d.spin n
  if x.st = 0 ∨ x.st = 9 ∨ d.gatesHeld n then d
  else
    let low := decide (d.linkMv n s.vdc < d.rd (F.spVlim_vdcMin n))
    let trips := x.trips.filter (fun t => decide (d.since t < 400))
    let d := d.onSpin n fun x => { x with
      low := if low then x.low + 1 else 0, trips := if s.trip then trips ++ [d.now] else trips, gap := s.trip }
    let d := d.spinDrive n x s
    let d := d.spinMoves n
    let x := d.spin n
    let d := if x.st = 2 ∧ d.absRpm n < 60 then d.measure n 1 else d
    let d := if x.st = 8 ∧ x.dtc ∧ d.absRpm n < d.rd (F.spObs_minRpm n) then
        d.onSpin n fun x => { x with dtc := false, valid := false, cross := d.now } else d
    let d := if (d.spin n).st = 8 then d.tellStop n else d
    d.onSpin n fun x => { x with vec := if x.gap then 0 else x.vec }

/-- The DTC decision did not end in its window: its vector is not released, and the one in force is applied again in Tk+1 (R16, R422). -/
def Dev.dtcOverrun (d : Dev) (n : Nat) : Dev :=
  let d := (d.count (F.spCnt n 8)).raise (Pg.motSp n) Er.motSp_dtcOverrun
  d.onSpin n fun x => { x with nextVec := x.vec }

/-! ## Events (R404–R409, R422) -/

/-- ODR requests spin-up for a loaded disc on an ACTIVE drive. -/
def Dev.spinUp (d : Dev) (n : Nat) : Dev :=
  let loaded := decide (d.drvState n = 1) || decide (d.drvState n = 2) || decide (d.drvState n = 3)
  let moving := (match d.odr.loader.cur with
    | some (.toDrive _ m) => m == n
    | some (.toDisc m _) => m == n
    | _ => false) || d.odr.loader.ops.any (fun o => match o with
    | .toDrive _ m => m == n
    | .toDisc m _ => m == n
    | _ => false)
  if (d.spin n).st ≠ 0 ∨ !d.driveOn n ∨ !loaded ∨ moving ∨ d.gatesHeld n then d
  else
    let d := (d.wr (F.spStat_still n) 0).count (F.spCnt n 0)
    (d.onSpin n fun x => { x with reqAt := d.now, aligns := 0, trips := [], low := 0, told := false }).measure n 1

/-- The estimators are seeded from a rotor angle (R404, R405). -/
def Dev.seed (d : Dev) (n theta : Nat) : Dev :=
  let (a, b) := unit24 theta
  d.onSpin n fun x => { x with
    psiA := a, psiB := b, angF := List.replicate 17 (theta % 65536), angE := List.replicate 17 (theta % 65536), iA := 0, iB := 0,
    tau := 0, phi := 1, differ := 0, agree := 0, valid := true }

/-- A measurement ends (R404). -/
def Dev.measured (d : Dev) (n : Nat) (m : SpinMeas) : Dev :=
  let x := d.spin n
  if (x.st ≠ 1 ∧ x.st ≠ 7) ∨ d.since x.since < 408 then d
  else
    let ok := decide (((m.amp : Int) - (m.speed.natAbs : Nat)).natAbs * 4 ≤ m.speed.natAbs) && decide (960 ≤ m.speed.natAbs)
    let d := d.setSpeed n m.speed
    if x.st = 1 ∧ m.amp < 960 then d.onSpin n fun x => { x with st := 3, since := d.now }
    else if ok ∧ 0 < m.speed then
      let d := if x.st = 7 then d.count (F.spCnt n 5) else d.count (F.spCnt n 1)
      (d.seed n m.theta).onSpin n fun y => { y with st := 5, since := d.now, fromLost := x.st == 7 }
    else if ok ∧ x.st = 1 then
      let d := (d.raise (Pg.motSp n) Er.motSp_reverse).count (F.spCnt n 2)
      d.onSpin n fun x => { x with st := 2, since := d.now, quiet := 0, cross := d.now }
    else d.measure n x.st

/-- START_FAIL: the spin-up is abandoned; the spindle stops, and the disc is unloaded (R404, R422). -/
def Dev.startFails (d : Dev) (n : Nat) : Dev :=
  ((d.raise (Pg.motSp n) Er.motSp_startFail).stopSpin n).discFails n

/-- Saliency pulses find the rotor, or the alignment is made again (R405): the peaks in directions d × 30°, and the peaks along
the axis found and against it. -/
def Dev.aligned (d : Dev) (n : Nat) (peaks : List Nat) (along against : Nat) : Dev :=
  let x := d.spin n
  if x.st ≠ 3 ∨ d.since x.since < 56 ∨ peaks.length ≠ 12 then d
  else
    let d := (d.count (F.spCnt n 3)).onSpin n fun x => { x with aligns := x.aligns + 1 }
    let big := peaks.foldl max 0
    let small := peaks.foldl min big
    if (big - small) * 100 < 3 * big then
      if 3 ≤ (d.spin n).aligns then d.startFails n else d.onSpin n fun x => { x with since := d.now }
    else
      let axis := peaks.idxOf big
      let theta := (axis * 65536 / 12 + (if along < against then 32768 else 0)) % 65536
      (d.seed n theta).onSpin n fun x => { x with st := 4, since := d.now }

/-- 40 ticks without disagreement in SYNC. -/
def Dev.syncOk (d : Dev) (n : Nat) : Dev :=
  let x := d.spin n
  if x.st ≠ 5 ∨ x.agree < 40 then d
  else if d.nearTarget n then d.spinRun n
  else d.onSpin n fun x => { x with st := 4, since := d.now }

/-- 40 ticks at speed: AT_SPEED; a parked servo of a loaded drive begins (R358, R409). -/
def Dev.atSpeed (d : Dev) (n : Nat) : Dev :=
  if (d.spin n).st ≠ 6 ∨ (d.spin n).atSpeed < 40 then d
  else
    let d := d.wr (F.spStat_atSpeed n) 1
    if d.drvState n = 1 ∨ d.drvState n = 2 ∨ d.drvState n = 3 then
      let d := if d.drvState n = 1 then d.wr (F.drvStat_state n) 2 else d
      if (d.seq n).st = 0 then
        let (st, d) := d.freeStamp
        let d := d.sendCfg n (if d.drvState n = 2 then sampleRate 416 10800 else sampleRate (d.zoneNow n).frames (d.zoneNow n).rpm) st true
        d.acquire n 0
      else d
    else d

/-- 8 ticks of disagreement in RUN: HOLD, zero torque, and measurements until the rotor is caught (R407). -/
def Dev.obsLost (d : Dev) (n : Nat) : Dev :=
  let x := d.spin n
  if x.st ≠ 6 ∨ x.differ < 8 then d
  else
    let d := (d.raise (Pg.motSp n) Er.motSp_obsLost).count (F.spCnt n 4)
    let d := ((d.holdAbort n).wr (F.spStat_atSpeed n) 0).onSpin n fun x => { x with lostAt := d.now, atSpeed := 0 }
    d.measure n 7

/-- 20,000 ticks after LOST was entered the spindle is not in RUN. -/
def Dev.recatchFail (d : Dev) (n : Nat) : Dev :=
  let x := d.spin n
  if x.st ≠ 7 ∨ d.since x.lostAt < 20000 then d else (d.raise (Pg.motSp n) Er.motSp_recatchFail).stopSpin n

/-- START_TMO since the request, or BRAKE_TMO since BRAKE was entered. -/
def Dev.startFail (d : Dev) (n : Nat) : Dev :=
  let x := d.spin n
  let late := (x.st = 1 ∨ x.st = 2 ∨ x.st = 3 ∨ x.st = 4) ∧ d.rd (F.spStartTmo_startTmo n) * 400 ≤ d.since x.reqAt
  let brake := x.st = 2 ∧ d.rd (F.spStartTmo_brakeTmo n) * 400 ≤ d.since x.since ∧ 60 ≤ d.absRpm n
  if late ∨ brake then d.startFails n else d

/-- A stop is asked for: the drive is unloading with nothing left to record, or quiescing with its band-row finished. -/
def Dev.stopWanted (d : Dev) (n : Nat) : Bool :=
  let q := d.rec_ n
  (decide (d.drvState n = 4) && (d.pendRec n).ents.isEmpty && q.cur.isNone && q.next.isNone) ||
    (decide (d.unitAt (Pg.odrDrv n) = .quiescing) && q.cur.isNone && q.next.isNone)

def Dev.controlledStop (d : Dev) (n : Nat) : Dev := if d.stopWanted n then d.stopSpin n else d

/-- 400 quiet ticks of the braking current: the disc stands. -/
def Dev.standstill (d : Dev) (n : Nat) : Dev :=
  let x := d.spin n
  if x.st ≠ 8 ∨ x.dtc ∨ x.quiet < 400 then d
  else ((d.setSpeed n 0).wr (F.spStat_still n) 1).onSpin n fun x => { x with st := 0, vec := 0, nextVec := 0, valid := false }

def Dev.stopFail (d : Dev) (n : Nat) : Dev :=
  let x := d.spin n
  if x.st ≠ 8 ∨ d.since x.since < d.rd (F.spStop2_stopTmo n) * 400 then d
  else
    let d := (d.raise (Pg.motSp n) Er.motSp_stopFail).onSpin n fun x => { x with st := 9, vec := 0, nextVec := 0, valid := false }
    d.fence (Pg.odrDrv n) (some (Pg.motSp n, Er.motSp_stopFail))

def Dev.overcurrent (d : Dev) (n : Nat) : Dev :=
  let x := d.spin n
  if x.st = 9 ∨ (x.trips.filter (fun t => decide (d.since t < 400))).length < 16 then d
  else
    let d := (d.raise (Pg.motSp n) Er.motSp_overcurrent).holdAbort n
    let d := (d.wr (F.spStat_atSpeed n) 0).onSpin n fun x => { x with st := 9, vec := 0, nextVec := 0, valid := false, trips := [] }
    d.fence (Pg.odrDrv n) (some (Pg.motSp n, Er.motSp_overcurrent))

def Dev.dcLow (d : Dev) (n : Nat) : Dev :=
  let x := d.spin n
  if x.st = 0 ∨ x.st = 9 ∨ x.low < 4 then d
  else
    let d := d.onSpin n fun x => { x with low := 0 }
    (d.raise (Pg.motSp n) Er.motSp_dcLow).stopSpin n

/-- DEADLINE: a loop missed HOLD_LIM ticks in a row (R368). -/
def Dev.deadline (d : Dev) (n l : Nat) : Dev :=
  if Map.get 0 (d.srvDrive n).missed l < max 1 (d.rd (F.srvMissCfg n)) ∨ 23 ≤ l then d
  else
    let d := (d.raise (Pg.srvDrv n) Er.srvDrv_deadline l).onSrvDrive n fun v => { v with missed := Map.erase v.missed l }
    if l = loopSpin then d.stopSpin n
    else if l = loopSled then (d.axisStop n).retract n
    else d.retract n

/-! ## Commands -/

def execSpinUpRequest (drive : Nat) (s : State) : Host.Outcome State Fault Refusal := run s (·.spinUp (drive % 4))
def execSpindleMeasurementDone (drive : Nat) (meas : SpinMeas) (s : State) : Host.Outcome State Fault Refusal := run s (·.measured (drive % 4) meas)
def execAlignmentDone (drive : Nat) (peaks : List Nat) (along against : Nat) (s : State) : Host.Outcome State Fault Refusal :=
  run s (·.aligned (drive % 4) peaks along against)
def execSyncConfirmed (drive : Nat) (s : State) : Host.Outcome State Fault Refusal := run s (·.syncOk (drive % 4))
def execAtSpeedReached (drive : Nat) (s : State) : Host.Outcome State Fault Refusal := run s (·.atSpeed (drive % 4))
def execObsLost (drive : Nat) (s : State) : Host.Outcome State Fault Refusal := run s (·.obsLost (drive % 4))
def execRecatchFail (drive : Nat) (s : State) : Host.Outcome State Fault Refusal := run s (·.recatchFail (drive % 4))
def execStartFail (drive : Nat) (s : State) : Host.Outcome State Fault Refusal := run s (·.startFail (drive % 4))
def execControlledStop (drive : Nat) (s : State) : Host.Outcome State Fault Refusal := run s (·.controlledStop (drive % 4))
def execStandstill (drive : Nat) (s : State) : Host.Outcome State Fault Refusal := run s (·.standstill (drive % 4))
def execStopFail (drive : Nat) (s : State) : Host.Outcome State Fault Refusal := run s (·.stopFail (drive % 4))
def execOvercurrent (drive : Nat) (s : State) : Host.Outcome State Fault Refusal := run s (·.overcurrent (drive % 4))
def execDcLow (drive : Nat) (s : State) : Host.Outcome State Fault Refusal := run s (·.dcLow (drive % 4))
/-- DEADLINE (R368). -/
def execDeadline (drive loop : Nat) (s : State) : Host.Outcome State Fault Refusal := run s (·.deadline (drive % 4) loop)

end Sys2Proof.Machine
end

