-- ==== Sys2Proof/Machine/Engines.lean ====
section
/-! DEFINITION. Engine pairs, Seeds and Sprouts: copies and their comparison, disagreement, bring-up, self-test and the modes
(R374–R391). A command of this file comes before the boundary at which its action stands in the spec's tables. -/
namespace Sys2Proof.Machine
open Sys2Proof

/-! ## The redundancy log (R389) -/

/-- A record's first 28 bytes with its CRC. -/
def redRec (b : List Byte) : RedRec := ⟨b.take 28 ++ leBytes 4 (crc32c (b.take 28))⟩

def Dev.logRed (d : Dev) (ty n engIn engOut loops digA digB : Nat) : Dev :=
  let b := leBytes 1 ty ++ leBytes 1 n ++ leBytes 1 engIn ++ leBytes 1 engOut ++ leBytes 8 d.now ++ leBytes 4 loops ++ leBytes 4 digA ++
    leBytes 4 digB ++ leBytes 1 0 ++ leBytes 1 (d.rd (F.srvRedStat_mode n)) ++ zeros 2
  d.mramPut 4 fun m =>
    let l := m.redLog ++ [redRec b]
    { m with redLog := l.drop (l.length - 1024), redCount := m.redCount + 1 }

/-- CHECK of a drive's last DISAGREE record takes the outcome of the self-check. -/
def Dev.noteCheck (d : Dev) (n check : Nat) : Dev :=
  d.mramPut 4 fun m =>
    let hit (r : RedRec) : Bool := fieldAt r.bytes 0 1 == 1 && fieldAt r.bytes 1 1 == n
    let i := m.redLog.reverse.findIdx hit
    if i < m.redLog.length then
      let k := m.redLog.length - 1 - i
      { m with redLog := m.redLog.set k (redRec (splice (m.redLog.getD k ⟨[]⟩).bytes 24 (leBytes 1 check))) }
    else m

/-! ## Modes (R383) -/

def Dev.hasRole (d : Dev) (n r : Nat) : Bool := (d.inRole n r).isSome
/-- The engine a drive shows as its Seed: one without a role that is COLD, LOADING or SHADOW. -/
def Dev.seedOf (d : Dev) (n : Nat) : Option Nat := (engsOf n).find? (fun e => decide ((d.eng e).role = 0) && decide ((d.eng e).st ≤ 2))
def Dev.coldSeed (d : Dev) (n : Nat) : Option Nat := (engsOf n).find? (fun e => decide ((d.eng e).role = 0) && decide ((d.eng e).st = 0))

/-- The mode of a drive: 0 DUPLEX, 1 FALLBACK, 2 SIMPLEX, 3 HALTED. -/
def Dev.redMode (d : Dev) (n : Nat) : Nat :=
  let held := b2n (d.hasRole n 1) + b2n (d.hasRole n 2)
  if held = 2 then 0 else if (d.seedOf n).isSome then 1 else if held = 1 then 2 else 3

/-- SRV_RED_STAT shows roles and mode; a mode that is new is counted, logged and raised. -/
def Dev.showRed (d : Dev) (n : Nat) : Dev :=
  let was := d.rd (F.srvRedStat_mode n)
  let m := d.redMode n
  let name (e : Option Nat) : Nat := e.getD 15
  let d := ((d.wr (F.srvRedStat_a n) (name (d.inRole n 1))).wr (F.srvRedStat_b n) (name (d.inRole n 2))).wr (F.srvRedStat_seed n) (name (d.seedOf n))
  let d := d.wr (F.srvRedStat_mode n) m
  let d := d.when (decide (m = 1 ∧ was ≠ 1)) fun d => d.count (F.srvRedCnt n 1)
  let v := d.srvDrive n
  let bare := decide (m = 0) && (d.coldSeed n).isNone
  let d := d.onSrvDrive n fun v => { v with simplex := m == 2, halted := m == 3, noSeed := bare }
  let d := d.when (bare && !v.noSeed) fun d => d.raise Pg.srvReg (Er.srvReg_noSeed + n)
  let d := d.when (decide (m = 2) && !v.simplex) fun d => (d.logRed 7 n 0xFF 0xFF 0 0 0).raise Pg.srvReg (Er.srvReg_simplex + n)
  d.when (decide (m = 3) && !v.halted) fun d => ((d.logRed 8 n 0xFF 0xFF 0 0 0).raise Pg.srvReg (Er.srvReg_halted + n)).fence (Pg.odrDrv n) (some (Pg.srvReg, Er.srvReg_halted + n))

/-- A Sprout is aborted; its Seed goes to state `st`. -/
def Dev.sproutAbort (d : Dev) (n st : Nat) : Dev :=
  match (d.srvDrive n).sprout with
  | none => d
  | some (e, out_) =>
    let d := (d.onSrvDrive n fun v => { v with sprout := none }).wr (F.srvRedStat_sprout n) 0
    let d := (d.onEng e fun x => { x with st := st, for_ := 0, same := 0, img := none }).count (F.srvRedCnt n 3)
    (d.logRed 5 n e out_ 0 0 0).showRed n

/-- A Sprout whose Seed is in SHADOW is aborted; the Seed is COLD. -/
def Dev.sproutShadowEnds (d : Dev) (n : Nat) : Dev :=
  match (d.srvDrive n).sprout with
  | some (s, _) => if (d.eng s).st = 2 then d.sproutAbort n 0 else d
  | none => d

/-! ## Bring-up and roles (R381, R382) -/

/-- An engine takes a role from the next boundary on. -/
def Dev.takeRole (d : Dev) (n e role : Nat) (i : Option Image) : Dev :=
  let d := (d.onEng e fun x => { x with st := 3, role := role, since := d.now + 1, for_ := 0, img := i }).count (F.srvEngRcnt e 4)
  d.showRed n

/-- Empty roles are filled, role A first: by a SHADOW engine, else by bring-up of the Seed; a Seed that was LOADING for a Sprout
starts anew. -/
def Dev.fillRoles (d : Dev) (n : Nat) : Dev :=
  let d := match (d.srvDrive n).sprout with
    | some (s, _) => if ¬ (d.hasRole n 1 ∧ d.hasRole n 2) ∧ (d.eng s).st = 1 then d.sproutAbort n 0 else d
    | none => d
  let d := [1, 2].foldl (fun d r =>
    if d.hasRole n r ∨ (engsOf n).any (fun e => decide ((d.eng e).st = 1) && decide ((d.eng e).for_ = r)) then d
    else match (engsOf n).find? (fun e => decide ((d.eng e).st = 2)) with
      | some e =>
        let d := (d.onSrvDrive n fun v => { v with sprout := none }).wr (F.srvRedStat_sprout n) 0
        (d.takeRole n e r (d.eng e).img).logRed 3 n e 0xFF 0 0 0
      | none => match d.coldSeed n with
        | some e => d.onEng e fun x => { x with st := 1, tr := d.now + 1, for_ := r }
        | none => d) d
  d.showRed n

/-- Words of an engine's copy with errors are corrected or reloaded (R354, R382). -/
def Dev.csCheck (d : Dev) (n e : Nat) : Dev :=
  (d.srv.upset.filter (fun u => u.1 / 131072 == e)).foldl (fun d u =>
    let a := u.1 % 131072
    if u.2 = 1 then
      ((d.raise (Pg.srvEng e) Er.srvEng_csCe a).count (F.srvEngCnt e 1)).onSrv fun s => { s with upset := Map.erase s.upset u.1 }
    else
      let d := (d.raise (Pg.srvEng e) Er.srvEng_csUe a).count (F.srvEngCnt e 2)
      match (engsOf n).find? (fun x => decide (x ≠ e) && decide ((d.eng x).role ≠ 0)) with
      | some x => d.csSet e a (d.csWord x a)
      | none => d.onSrv fun s => { s with upset := Map.erase s.upset u.1 }) d

/-- SEED_BRINGUP_DONE: the copy is checked and the image loads; a load that SECDED cannot correct takes the next image. -/
def Dev.bringupDone (d : Dev) (e : Nat) (unreadable : Bool) : Dev :=
  let x := d.eng e
  let n := e / 3
  if x.st ≠ 1 ∨ d.now + 1 < x.tr + 3 then d
  else if unreadable then
    (d.onEng e fun x => { x with tr := x.tr + 1 }).raise Pg.srvReg (Er.srvReg_imageUe + n)
  else
    let d := d.csCheck n e
    let i := some ((d.toCommit n).getD ((d.srvDrive n).saved.getD Image.reset))
    if x.for_ = 0 then d.onEng e fun x => { x with st := 2, same := 0, img := i }
    else (d.takeRole n e x.for_ i).logRed 3 n e 0xFF 0 0 0

/-! ## Sprouts (R384–R386) -/

/-- A Sprout falls due. -/
def Dev.sproutDue (d : Dev) (n : Nat) : Dev :=
  if d.flag F.srvRedCfg_sproutEn ∧ d.rd F.srvRedCfg_period * 400000 ≤ d.since (d.srvDrive n).lastDue then
    d.onSrvDrive n fun v => { v with due := true } else d

/-- Seconds until the next Sprout falls due, as SRV_RED_NEXT reads. -/
def Dev.redNext (d : Dev) (n : Nat) : Nat :=
  if (d.srvDrive n).due then 0
  else ceilDiv (d.rd F.srvRedCfg_period * 400000 - d.since (d.srvDrive n).lastDue) 400000

/-- SRV_RED_CTRL: the drives named are due; one that is not ACTIVE or has no COLD Seed is ignored and counted. -/
def Dev.sproutAsk (d : Dev) (value : Nat) : Dev :=
  if bitsOf value 31 24 ≠ 0x5B then d.countIgnored Pg.srvReg value
  else ((List.range 4).filter value.testBit).foldl (fun d n =>
    if d.driveOn n ∧ (d.coldSeed n).isSome then d.onSrvDrive n fun v => { v with due := true } else d.countIgnored Pg.srvReg value) d

/-- A due Sprout starts. The outgoing engine is the one that has held its role longer, on a tie role A's (R385). -/
def Dev.sproutStart (d : Dev) (n : Nat) : Dev :=
  match d.coldSeed n, d.inRole n 1, d.inRole n 2 with
  | some s, some a, some b =>
    if !(d.srvDrive n).due ∨ !d.driveOn n ∨ d.rd (F.pltFwReg_state 9) ≠ 0 ∨ (d.srvDrive n).heldAt.isSome then d
    else
      let out_ := if d.since (d.eng a).since < d.since (d.eng b).since then b else a
      let d := d.onEng s fun x => { x with st := 1, tr := d.now + 1, for_ := 0, same := 0 }
      let d := d.onSrvDrive n fun v => { v with due := false, lastDue := d.now + 1, sprout := some (s, out_) }
      (d.wr (F.srvRedStat_sprout n) 1).showRed n
  | _, _, _ => d

/-- After 64 matches the Seed takes the outgoing role; the outgoing engine runs its self-test. -/
def Dev.sproutSwitch (d : Dev) (n : Nat) : Dev :=
  match (d.srvDrive n).sprout with
  | some (s, out_) =>
    if (d.eng s).st ≠ 2 ∨ (d.eng s).same < 64 ∨ (d.eng out_).st ≠ 3 then d
    else
      let role := (d.eng out_).role
      let d := (d.onSrvDrive n fun v => { v with sprout := none, pick := if v.pick = some out_ then some s else v.pick }).wr (F.srvRedStat_sprout n) 0
      let d := d.onEng out_ fun x => { x with st := 5, role := 0, test := d.now + 1, img := none }
      let d := (d.takeRole n s role (d.eng s).img).count (F.srvRedCnt n 2)
      d.logRed 4 n s out_ 0 0 0
  | none => d

/-! ## Dispatch and comparison (R348, R376–R379) -/

/-- What a fault makes of an engine's image. -/
def faulty (f : EngFault) (i : Image) : Image :=
  i.onLoop f.loop fun x => { x with out := f.code.getD x.out, mode := f.mode.getD x.mode }

/-- A drive's dispatch: its copies compared and kept, its image picked, its shadow compared. -/
def Dev.dispatchDrive (d : Dev) (n : Nat) : Dev :=
  let late := (d.srvDrive n).late
  let came (e l : Nat) : Bool := !late.contains (e, l)
  let im (e : Nat) : Image := (d.eng e).img.getD Image.reset
  let any (e : Nat) : Bool := (List.range 23).any (came e)
  let a := (d.inRole n 1).filter (fun e => decide ((d.eng e).st = 3))
  let b := (d.inRole n 2).filter (fun e => decide ((d.eng e).st = 3))
  let both (x y : Nat) : List Nat := (List.range 23).filter (fun l => came x l && came y l &&
    (decide (((im x).loop l).out ≠ ((im y).loop l).out) || decide (((im x).loop l).mode ≠ ((im y).loop l).mode)))
  let bad : Option (Nat × Nat × List Nat) := match a, b with
    | some x, some y =>
      let ls := both x y
      if ¬ ls.isEmpty ∨ (any x ∧ any y ∧ im x ≠ im y) then some (x, y, ls) else none
    | _, _ => none
  match bad with
  | some (x, y, ls) =>
    let d := (d.raise (Pg.srvEng x) Er.srvEng_disagree).raise (Pg.srvEng y) Er.srvEng_disagree
    let d := (d.count (F.srvRedCnt n 0)).logRed 1 n 0xFF 0xFF ((ls.map (2 ^ ·)).foldl (· + ·) 0) (d.rd (F.srvEngDigest x)) (d.rd (F.srvEngDigest y))
    let d := (d.onEng x fun e => { e with st := 4 }).onEng y fun e => { e with st := 4 }
    (d.onSrvDrive n fun v => { v with heldAt := some d.now, kept := [], pick := none }).sproutShadowEnds n
  | none =>
    let senders := [a, b].filterMap id
    let pick := senders.find? any
    let d := (List.range 23).foldl (fun d l =>
      match senders.filter (came · l) with
      | [] => d
      | e :: rest =>
        let single := rest.isEmpty
        let d := (senders.filter (fun x => !came x l)).foldl (fun d x => d.count (F.srvEngCnt x 0)) d
        d.onSrvDrive n fun v => { v with kept := Map.put v.kept l (((im e).loop l).out, single) }) d
    let d := d.onSrvDrive n fun v => { v with pick := pick }
    match (engsOf n).find? (fun e => decide ((d.eng e).st = 2)), pick with
    | some s, some p =>
      if im s = im p then d.onEng s fun x => { x with same := x.same + 1 }
      else (d.raise (Pg.srvEng s) Er.srvEng_shadowMismatch).sproutAbort n 4
    | some s, none => d.onEng s fun x => { x with same := 0 }
    | none, _ => d

/-- An engine's loops that were not finished send no copy, and their states stay those of the tick before. -/
def Dev.servoOverrun (d : Dev) (e : Nat) (loops : List Nat) : Dev :=
  let n := e / 3
  let ls := (uniq loops).filter (· < 23)
  if ls.isEmpty ∨ !d.servoOn n ∨ !(d.computing n).contains e then d
  else
    let saved := (d.srvDrive n).saved
    let d := d.onEng e fun x => { x with img := x.img.map (fun j => ls.foldl (fun i l => match saved with
      | some s => i.onLoop l fun _ => s.loop l
      | none => i) j) }
    let d := d.raise (Pg.srvEng e) Er.srvEng_overrun
    d.onSrvDrive n fun v => { v with late := v.late ++ ls.map (fun l => (e, l)) }

/-- OUTPUT_DISPATCH: in every drive whose engines compute. -/
def Dev.dispatch (d : Dev) (faults : List EngFault) : Dev :=
  (List.range 4).foldl (fun (d : Dev) n =>
    if !d.servoOn n then d
    else
      let d := (d.computing n).foldl (fun (d : Dev) e =>
        if d.injected (Pg.srvEng e) Er.srvEng_overrun then (d.takeInjected (Pg.srvEng e) Er.srvEng_overrun).servoOverrun e [0] else d) d
      let here := faults.filter (fun f => decide (f.engine / 3 = n) && decide (f.loop < 23) && (d.computing n).contains f.engine)
      let d := here.foldl (fun (d : Dev) f =>
        let d := d.onEng f.engine fun x => { x with img := x.img.map (faulty f) }
        if f.late ∧ (d.senders n).contains f.engine then
          (d.raise (Pg.srvEng f.engine) Er.srvEng_stampLate f.loop).onSrvDrive n fun v => { v with late := v.late ++ [(f.engine, f.loop)] }
        else d) d
      let d := (d.senders n).foldl (fun (d : Dev) e =>
        if d.injected (Pg.srvEng e) Er.srvEng_stampLate then
          ((d.takeInjected (Pg.srvEng e) Er.srvEng_stampLate).raise (Pg.srvEng e) Er.srvEng_stampLate).onSrvDrive n fun v => { v with late := v.late ++ [(e, 0)] }
        else d) d
      d.dispatchDrive n) d

/-! ## Verdicts (R379, R381) -/

/-- An engine leaves its role for the self-test. -/
def Dev.retire (d : Dev) (n e : Nat) : Dev :=
  let d := (d.raise (Pg.srvEng e) Er.srvEng_selfcheckFail).count (F.srvEngRcnt e 1)
  let d := d.wr (F.srvEngRed_retired e) (min 255 (d.rd (F.srvEngRed_retired e) + 1))
  (d.onEng e fun x => { x with st := 5, role := 0, for_ := 0, test := d.now + 1, img := none }).logRed 2 n 0xFF e 0 0 0

/-- SELF_CHECK_VERDICT: engines in SELFCHECK resume from the last committed image, return to COLD, or are retired. -/
def Dev.verdict (d : Dev) (n : Nat) (pass : List Bool) : Dev :=
  let es := (engsOf n).filter (fun e => decide ((d.eng e).st = 4))
  let ok (e : Nat) : Bool := pass.getD (e % 3) false
  let held := (d.srvDrive n).heldAt
  if es.isEmpty ∨ held = some d.now then d
  else
    let check := (([1, 2] : List Nat).filter (fun r => match d.inRole n r with
      | some e => (d.eng e).st == 4 && ok e
      | none => false)).foldl (· + ·) 0
    let d := d.when held.isSome fun d => d.noteCheck n check
    let saved := (d.srvDrive n).saved
    let d := es.foldl (fun (d : Dev) e =>
      let d := (d.count (F.srvEngRcnt e 0)).wr (F.srvEngSig e) (Config.signature e (ok e))
      if !ok e then d.retire n e
      else if (d.eng e).role = 0 then d.onEng e fun x => { x with st := 0, img := none }
      else d.onEng e fun x => { x with st := 3, img := some (saved.getD Image.reset) }) d
    let d := d.onSrvDrive n fun v => { v with heldAt := none }
    (d.fillRoles n).showServo n

/-- SELFTEST_DONE: COLD, or FAILED until chip reset; the copy is reloaded from the lowest engine that holds a role. -/
def Dev.selftested (d : Dev) (e : Nat) (pass : Bool) : Dev :=
  let x := d.eng e
  let n := e / 3
  if x.st ≠ 5 ∨ d.now + 1 < 4000 + x.test then d
  else
    let d := d.count (F.srvEngRcnt e 2)
    if pass ∧ d.rd (F.srvEngRed_retired e) < 2 then
      let from_ := d.csEngine n
      let d := if (d.eng from_).role = 0 then d else d.onSrv fun s =>
        { s with
          coef := (s.coef.filter (fun w => w.1 / 131072 != e)) |> fun rest =>
            (s.coef.filter (fun w => w.1 / 131072 == from_)).foldl (fun m w => Map.put m (131072 * e + w.1 % 131072) w.2) rest
          upset := s.upset.filter (fun u => u.1 / 131072 != e) }
      (d.onEng e fun x => { x with st := 0, img := none }).fillRoles n
    else
      let d := (d.raise (Pg.srvEng e) Er.srvEng_selftestFail).count (F.srvEngRcnt e 3)
      ((d.onEng e fun x => { x with st := 6, img := none }).logRed 6 n 0xFF e 0 0 0).showRed n

/-! ## Start-up (R374) and firmware (R388) -/

/-- The engines of a drive after their self-tests: the two lowest that pass take roles A and B, the third becomes the Seed. -/
def Dev.rolesAtStart (d : Dev) (n : Nat) (pass : Nat → Bool) : Dev :=
  let good := (engsOf n).filter pass
  let d := (engsOf n).foldl (fun d e =>
    let d := d.count (F.srvEngRcnt e 2)
    if pass e then
      let r := if good.headD 99 = e then 1 else if good.getD 1 99 = e then 2 else 0
      d.onEng e fun _ => { Eng.reset with st := if r = 0 then 0 else 3, role := r, since := d.now, img := some Image.reset }
    else
      let d := (d.raise (Pg.srvEng e) Er.srvEng_selftestFail).count (F.srvEngRcnt e 3)
      (d.onEng e fun _ => { Eng.reset with st := 6 }).logRed 6 n 0xFF e 0 0 0) d
  d.showRed n

/-- No engine is LOADING, SHADOW or SELFCHECK. -/
def Dev.engsQuiet (d : Dev) : Bool := (List.range 12).all (fun e => !([1, 2, 4] : List Nat).contains (d.eng e).st)
/-- An SRV activation reaches HOLDING: Sprouts in SHADOW are aborted. -/
def Dev.sproutsHold (d : Dev) : Dev :=
  (List.range 4).foldl (fun d n => d.sproutShadowEnds n) d
/-- Self-tests under way start again under the new image. -/
def Dev.engsSwitch (d : Dev) : Dev :=
  (List.range 12).foldl (fun d e => if (d.eng e).st = 5 then d.onEng e fun x => { x with test := d.now } else d) d

/-! ## Commands -/

/-- OUTPUT_DISPATCH (R377). -/
def execOutputDispatch (faults : List EngFault) (s : State) : Host.Outcome State Fault Refusal := run s (·.dispatch faults)
/-- SELF_CHECK_VERDICT (R379). -/
def execSelfCheckVerdict (drive : Nat) (pass : List Bool) (s : State) : Host.Outcome State Fault Refusal := run s (·.verdict (drive % 4) pass)
/-- SEED_BRINGUP_DONE (R381). -/
def execSeedBringupDone (engine : Nat) (unreadable : Bool) (s : State) : Host.Outcome State Fault Refusal := run s (·.bringupDone (engine % 12) unreadable)
/-- SPROUT_DUE (R384). -/
def execSproutDue (drive : Nat) (s : State) : Host.Outcome State Fault Refusal := run s (·.sproutDue (drive % 4))
/-- SRV_RED_CTRL_SPROUT (R384). -/
def execSrvRedCtrlSprout (value : Nat) (s : State) : Host.Outcome State Fault Refusal :=
  run s fun d => d.asWrite Pg.srvReg (·.sproutAsk (value % 2 ^ 32))
/-- SPROUT_START (R386). -/
def execSproutStart (drive : Nat) (s : State) : Host.Outcome State Fault Refusal := run s (·.sproutStart (drive % 4))
/-- SPROUT_SWITCH (R386). -/
def execSproutSwitch (drive : Nat) (s : State) : Host.Outcome State Fault Refusal := run s (·.sproutSwitch (drive % 4))
/-- SELFTEST_DONE (R381). -/
def execSelftestDone (engine : Nat) (pass : Bool) (s : State) : Host.Outcome State Fault Refusal := run s (·.selftested (engine % 12) pass)

end Sys2Proof.Machine
end

