-- ==== Sys2Proof/Machine/Ladder.lean ====
section
/-! DEFINITION. Band-row reads: the decoder pool, the judgement of a level, the recovery ladder, reconstruction from the disc
stripe, delivery, and reallocation (R237, R299–R304, R327). -/
namespace Sys2Proof.Machine
open Sys2Proof

/-! ## Reads of a drive -/

def sameRead (a b : BrRead) : Bool := a.brow == b.brow && a.ploc == b.ploc && a.recorded == b.recorded
def Dev.putRead (d : Dev) (n : Nat) (r : BrRead) : Dev :=
  d.onDrive n fun v => { v with reads := v.reads.map (fun x => if sameRead x r then r else x) }
def Dev.dropRead (d : Dev) (n : Nat) (r : BrRead) : Dev :=
  d.onDrive n fun v => { v with reads := v.reads.filter (fun x => !sameRead x r) }

/-- The servo goes to the slot of a read. -/
def Dev.aimRead (d : Dev) (n : Nat) (r : BrRead) : Dev :=
  match (d.drive n).disc with
  | some k => d.srvTarget n (k.slotPlace (plocLayer r.ploc) (plocSlot r.ploc))
  | none => d

/-! ## What a read delivers (R256, R302) -/

/-- The user bytes of the data sectors known, and the 4 KiB blocks of those that are not. -/
def BrRead.data (ad8 : Bool) (r : BrRead) : Map Byte × Nat :=
  let n := if ad8 then 8 else 16
  let size := sectorSize ad8
  (List.range n).foldl (fun (acc : Map Byte × Nat) i => match Map.find r.known i with
    | some (_, bs) => (Map.setRun 0 acc.1 (i * size) bs, acc.2)
    | none => (acc.1, acc.2 ||| ((2 ^ (size / 4096) - 1) <<< (i * size / 4096)))) ([], 0)

/-- Unit `u` of a band-row's bytes as a flash reader sees it. -/
def Dev.discUnit (d : Dev) (data : Map Byte) (hmap u : Nat) (enc : Bool) (key : Nat) : FUnit :=
  let bytes := ((Map.window data (65536 * u) (65536 + 65536 * u)).map (fun e => (e.1 - 65536 * u, e.2)))
  ⟨{ Tag.none with ty := 1, flags := if enc then tagEnc else 0, key := key, keyId := if enc then d.keyId key % 65536 else 0, hollowMap := hmap >>> (16 * u) % 65536 }, bytes⟩

/-- A band-row read ends for one who asked: its bytes with their Hollow blocks; `lost`: it was UNREADABLE or could not be
reconstructed; `passed`: it passes the test of R327. -/
def Dev.browGot (d : Dev) (cat disc brow : Nat) (data : Map Byte) (hmap : Nat) (lost passed : Bool) (why : BrowFor) : Dev :=
  match why with
  | .unit (.job id) u enc key => d.jobGot id (d.discUnit data hmap u enc key) false
  | .unit w u enc key => d.onSfl fun s => { s with got := s.got ++ [(w, d.discUnit data hmap u enc key, false)] }
  | .verify a =>
    let again := match d.discOn cat disc with
      | some n => ((d.rec_ n).queue ++ (d.rec_ n).excess).any (fun r => r.disc == disc && r.brow == brow)
      | none => false
    d.onCmd a fun c => { c with
      done := c.done ++ [brow]
      found := (if lost then c.found ++ [brow] else c.found)
      res := (c.res.1 + b2n passed, c.res.2.1 + b2n again, c.res.2.2) }
  | .recon .. | .recompute .. => d.onOdr fun o => { o with gathered := o.gathered ++ [⟨cat, disc, brow, if lost then none else some data, hmap⟩] }
  | .cal _ => d

/-- A read is over: all who asked get it, and the read is gone. -/
def Dev.deliverRow (d : Dev) (n : Nat) (r : BrRead) (data : Map Byte) (hmap : Nat) (lost passed : Bool) : Dev :=
  let c := d.rd (F.drvShell n)
  let i := d.rd (F.drvStat_disc n)
  let marks := match (d.drive n).disc with
    | some k => k.hmapOf r.brow
    | none => 0
  let d := (d.dropRead n r).onDrive n fun v => { v with used := d.now }
  r.why.foldl (fun d w => d.browGot c i r.brow data (hmap ||| marks) lost passed w) d

/-- What was decoded of a band-row, or reconstructed, is written into its four buffers, the 4 KiB blocks without data as Hollow lines, and is
delivered from there (R288, R302). -/
def Dev.rowLand (d : Dev) (n : Nat) (r : BrRead) (data : Map Byte) (hmap : Nat) : Map Byte × Nat × Dev :=
  match d.readBufs n r.brow with
  | some b =>
    let d := d.rowFill (36 + n) 8 b.bufs data hmap 2
    let (m, hol, d) := d.rowTake (36 + n) 8 b.bufs
    (m, hmap ||| hol, d)
  | none => (data, hmap, d)

/-! ## Reallocation (R304) -/

/-- A band-row that was hard to read is recorded again, if it may be; else REALLOC_SKIP, and where no spare slot is free a WEAK
entry (R261). -/
def Dev.reallocate (d : Dev) (n : Nat) (r : BrRead) (level : Nat) (data : Map Byte) (hmap : Nat) : Dev :=
  match (d.drive n).disc with
  | none => d
  | some k =>
    let off := d.rd (F.rcBeamOff n)
    let fault := (List.range (sectorCount k.ad8)).any (fun i => r.failed0.testBit i && !off.testBit (r.beam k.ad8 i))
    let cause := if 3 ≤ level then level else 0x10
    if d.flag (F.rcCfg_reallocEn n) ∧ d.flag (F.drvCtrl_recEn n) ∧ k.rdonly.isEmpty ∧ !k.stopped ∧ fault then
      let row : RecRow := ⟨d.odr.nextRec, d.rd (F.drvShell n), d.rd (F.drvStat_disc n), r.brow, data, hmap ||| k.hmapOf r.brow,
        .again, .again, 0, true, none, cause, r.failed0, 0⟩
      (d.onOdr fun o => { o with
        nextRec := o.nextRec + 1
        rowBufs := o.rowBufs.map (fun b => if some b = d.readBufs n r.brow then { b with rec_ := some row.id } else b) }).queueAdd n row
    else
      let weak := !k.ad8 && k.rdonly.isEmpty && decide (k.spareLeft = 0) && !k.ents.any (fun e => decide (e.ty = 4) && e.brow == r.brow)
      let d := d.when weak fun d => d.ddlAdd n ⟨4, false, cause, r.brow, 0, r.failed0, 0, 0⟩
      (d.count (F.rcSkipped n)).raise (Pg.odrRc n) Er.odrRc_reallocSkip r.brow

/-! ## The end of a level (R301, R302, R327) -/

/-- A band-row is complete at the read's level, with `fills` sectors filled by RS. -/
def Dev.readComplete (d : Dev) (n : Nat) (r : BrRead) (fills ldpcFailed : List Nat) : Dev :=
  let a := d.ad8 n
  let l := r.level
  let d := d.count (F.rcLvlCnt n l)
  let d := if l = 1 ∨ l = 2 then d.raise (Pg.odrRc n) Er.odrRc_retry r.brow
    else if 3 ≤ l ∧ l ≤ 6 then d.raise (Pg.odrRc n) Er.odrRc_recovery r.brow
    else if l = 7 then (d.raise (Pg.odrRc n) Er.odrRc_reconL7 r.brow) else d
  let d := if 3 ≤ l then (d.wr (F.rcLast_level n) l).wr (F.rcLast_brow n) r.brow else d
  let rest := (List.range (sectorCount a)).filter (fun i => match Map.find r.known i with
    | some (t, _) => decide (d.rd (F.wrVfy_iterMax n) < t)
    | none => false)
  let thr := d.rd (F.rcCfg_rsThr n)
  let ok := decide (l ≤ 1) && rest.isEmpty && (ldpcFailed.isEmpty || decide (fills.length ≤ thr))
  if r.recorded then
    let smask := (uniq (ldpcFailed ++ rest)).foldl (fun m i => m ||| 2 ^ i) 0
    (d.putRead n { r with verdict := some (ok, smask) }).verdicts n
  else
    let (data, hmap) := r.data a
    let (data, hmap, d) := d.rowLand n r data hmap
    let d := if 3 ≤ l ∨ thr < fills.length then d.reallocate n r l data hmap else d
    d.deliverRow n r data hmap false ok

/-- The last level used did not complete the band-row. -/
def Dev.readFails (d : Dev) (n : Nat) (r : BrRead) (ldpcFailed : List Nat) : Dev :=
  if r.recorded then
    (d.putRead n { r with verdict := some (false, ldpcFailed.foldl (fun m i => m ||| 2 ^ i) 0) }).verdicts n
  else
    let (data, hmap) := r.data (d.ad8 n)
    let (data, hmap, d) := d.rowLand n r data hmap
    let d := (d.count (F.rcFail n)).raise (Pg.odrRc n) Er.odrRc_unreadable r.brow
    d.deliverRow n r data hmap true false

/-- The highest level a read uses; a read for another band-row's reconstruction is not itself reconstructed (log entry 40). -/
def Dev.lastLevel (d : Dev) (n : Nat) (r : BrRead) : Nat :=
  let helper := r.why.all (fun w => match w with
    | .recon .. => true
    | _ => false)
  if r.recorded then 1 else if d.ad8 n ∨ helper then min 6 (d.rd (F.rcCfg_ladderMax n)) else d.rd (F.rcCfg_ladderMax n)

/-- L5 offsets come off, and after L6 the head samples at the zone's rate again. -/
def Dev.levelOff (d : Dev) (n : Nat) (r : BrRead) : Dev :=
  let d := d.onSeq n fun s => { s with trkOfs := 0, focOfs := 0 }
  if r.level = 6 then
    let e := d.zoneNow n
    let (st, d) := d.freeStamp
    d.sendCfg n (sampleRate e.frames e.rpm) st true
  else d

/-- A level ends: the set F of R301 decides. -/
def Dev.levelEnds (d : Dev) (n : Nat) (r : BrRead) : Dev :=
  let a := d.ad8 n
  let size := sectorSize a
  let d := if r.level = 5 ∨ r.level = 6 then d.levelOff n r else d
  let failed := r.failed a
  let all := (List.range 18).map (fun i => (Map.find r.known i).map (·.2))
  let (found, none_) := if a ∨ !failed.isEmpty then (([] : List Nat), false) else rsLocated all size
  let d := d.when none_ fun d => d.raise (Pg.odrRc n) Er.odrRc_miscorrect r.brow
  let d := d.countN (F.rcMiscor n) found.length
  let f := uniq (failed ++ found)
  let next (d : Dev) : Dev := if d.lastLevel n r ≤ r.level then d.readFails n r f else d.putRead n { r with waiting := [], idle := true }
  if !r.recorded && d.injected (Pg.odrRc n) Er.odrRc_unreadable then (d.takeInjected (Pg.odrRc n) Er.odrRc_unreadable).readFails n r f
  else if f.isEmpty then d.readComplete n r [] []
  else if a ∨ (r.level = 0 ∧ !failed.isEmpty) ∨ 2 < f.length then next d
  else
    let known := (rsFill all size f).foldl (fun m e => Map.put m e.1 (0, e.2)) r.known
    let d := (d.countN (F.rcFills n) f.length).raise (Pg.odrRc n) Er.odrRc_rsFill r.brow
    d.readComplete n { r with known := known } f failed

/-- A pass ends: the next re-read of the level, unless nothing is left to decode, or the level's end. -/
def Dev.passEnds (d : Dev) (n : Nat) (r : BrRead) : Dev :=
  let left := d.decodable n r
  if 0 < r.passes ∧ !left.isEmpty then
    let r := { r with passes := r.passes - 1, waiting := left, repeated := false }
    ((d.putRead n r).onSeq n fun s => { s with trkOfs := 0, focOfs := 0 }).aimRead n r
  else d.levelEnds n { r with passes := 0 }

/-- A sector of a pass is decided: decoded with its iterations, or failed. -/
def Dev.sectorDone (d : Dev) (n ploc i : Nat) (res : Option (Nat × List Byte)) : Dev :=
  match (d.drive n).reads.find? (fun r => r.ploc == ploc && r.waiting.contains i && r.verdict.isNone) with
  | none => d
  | some r =>
    let b := r.beam (d.ad8 n) i
    let d := if r.level = 0 then d.count (F.rcBeamCnt n b (if res.isSome then 0 else 1)) else d
    let r := { r with
      waiting := r.waiting.filter (· != i)
      known := match res with
        | some x => Map.put r.known i x
        | none => r.known
      failed0 := if r.level = 0 ∧ res.isNone then r.failed0 ||| 2 ^ i else r.failed0 }
    let d := d.putRead n r
    if r.waiting.isEmpty then d.passEnds n r else d

/-! ## The decoder pool (R299, R300) -/

def Dev.showPool (d : Dev) : Dev :=
  let busy := (d.odr.ldpc.filter (·.decoder.isSome)).length
  (d.wr F.ldpcStat_busy busy).wr F.ldpcStat_waiting (d.odr.ldpc.length - busy)

def Dev.ldpcAsk (d : Dev) (q : LdpcReq) : Dev :=
  ((d.count (F.ldpcCnt 0)).onOdr fun o => { o with ldpc := o.ldpc ++ [q] }).showPool

/-- A request comes before another: first passes, then age, drive and beam. -/
def LdpcReq.before (a b : LdpcReq) : Bool :=
  if a.first != b.first then a.first
  else if a.at_ ≠ b.at_ then decide (a.at_ < b.at_)
  else if a.drive ≠ b.drive then decide (a.drive < b.drive) else decide (a.beam < b.beam)

/-- LDPC_DECODE_START: an idle decoder takes the first request that waits. -/
def Dev.decodeStart (d : Dev) (dec : Nat) : Dev :=
  if 24 ≤ dec ∨ (d.cellsOut F.ldpcFenced .ldpc 24).testBit dec ∨ d.odr.ldpc.any (fun q => q.decoder == some dec) then d
  else
    let free := (List.range d.odr.ldpc.length).filter (fun i => match d.odr.ldpc[i]? with
      | some q => q.decoder.isNone
      | none => false)
    let best := free.foldl (fun (b : Option Nat) i => match b with
      | none => some i
      | some m => match d.odr.ldpc[i]?, d.odr.ldpc[m]? with
        | some x, some y => if x.before y then some i else some m
        | _, _ => some m) none
    match best with
    | none => d
    | some i => (d.onOdr fun o => { o with ldpc := o.ldpc.modify i (fun q => { q with decoder := some dec }) }).showPool

/-- LDPC_DECODE_DONE. -/
def Dev.decodeDone (d : Dev) (dec : Nat) : Dev :=
  match d.odr.ldpc.find? (fun q => q.decoder == some dec) with
  | none => d
  | some q =>
    let d := (d.onOdr fun o => { o with ldpc := o.ldpc.filter (fun x => x.decoder != some dec) }).showPool
    let (t, bytes) := ldpcDecode (d.ad8 q.drive) q.llrs q.limit
    match t with
    | some t =>
      let d := ((d.count (F.ldpcCnt 1)).countN (F.ldpcCnt 3) t).count (F.ldpcHist t)
      d.sectorDone q.drive q.ploc q.sector (some (t, bytes))
    | none => ((d.count (F.ldpcCnt 2)).countN (F.ldpcCnt 3) q.limit).sectorDone q.drive q.ploc q.sector none

/-- A decoder fails its known-answer check, and its fence begins. -/
def Dev.decoderFails (d : Dev) (dec : Nat) (pass : Bool) : Dev :=
  if 24 ≤ dec ∨ (pass ∧ !d.injected Pg.odrLdpc Er.odrLdpc_engineFail) ∨ (d.cellsOut F.ldpcFenced .ldpc 24).testBit dec then d
  else (((d.takeInjected Pg.odrLdpc Er.odrLdpc_engineFail).count (F.ldpcCnt 5)).raise Pg.odrLdpc Er.odrLdpc_engineFail dec).fence1
    (cellPage (.ldpc dec)) (some (Pg.odrLdpc, Er.odrLdpc_engineFail))

/-- A fenced decoder's request waits again (R29). -/
def Dev.decoderFrees (d : Dev) (dec : Nat) : Dev :=
  (d.onOdr fun o => { o with ldpc := o.ldpc.map (fun q => if q.decoder = some dec then { q with decoder := none } else q) }).showPool

/-- A first-pass request whose beam has no place for a fifth codeword is dropped: LATE. -/
def Dev.dropLate (d : Dev) (n b : Nat) : Dev :=
  let mine := d.odr.ldpc.filter (fun q => q.first && q.decoder.isNone && q.drive == n && q.beam == b)
  if mine.length < 4 ∧ !d.injected Pg.odrLdpc Er.odrLdpc_late then d
  else match mine with
    | [] => d
    | q :: _ =>
      let d := (d.onOdr fun o => { o with ldpc := o.ldpc.filter (fun x => !(x.first && x.decoder.isNone && x.drive == n && x.beam == b && x.ploc == q.ploc)) }).showPool
      let d := ((d.takeInjected Pg.odrLdpc Er.odrLdpc_late).count (F.ldpcCnt 4)).raise Pg.odrLdpc Er.odrLdpc_late (32 * n + b)
      let d := d.onDrive n fun v => { v with reads := v.reads.map (fun r =>
        if r.ploc = q.ploc ∧ r.level = 0 then { r with llrs := Map.erase r.llrs q.sector } else r) }
      d.sectorDone n q.ploc q.sector none

/-! ## L7: reconstruction (R212, R237) -/

/-- P and Q of an open run at a stripe offset, from the staged units (read as they stand: log entry 40). -/
def Dev.stagedRow (d : Dev) (j p x : Nat) : Map Byte :=
  (List.range 4).foldl (fun m u => match (entPua (d.mapEnt (d.stagedGlu j p x u))).bind (Map.find d.sfl.units) with
    | some f => (f.data.map (fun e => (65536 * u + e.1, e.2))) ++ m
    | none => m) [] |> fun m => m.foldl (fun a e => Map.set 0 a e.1 e.2) []

/-- What reconstruction of stripe `b` finds for a disc without reading it: band-rows never recorded or added count as zeros, and an
open run's parity is staged. -/
def Dev.stripePart (d : Dev) (cat i b : Nat) : Option (Map Byte) :=
  match d.runOf cat b with
  | some (_, s) =>
    let x := b - s.stripe
    if i = 10 then some (d.stagedRow s.runSlot 0 x) else if i = 11 then some (d.stagedRow s.runSlot 1 x)
    else if s.added i ≤ x then some [] else none
  | none => if i < 10 ∧ d.nwbOf cat i ≤ b then some [] else none

/-- L7 begins: the other discs' band-rows are asked for. -/
def Dev.reconStart (d : Dev) (n : Nat) (r : BrRead) : Dev :=
  let c := d.rd (F.drvShell n)
  let own := d.rd (F.drvStat_disc n)
  ((List.range 12).filter (· != own)).foldl (fun d i => match d.stripePart c i r.brow with
    | some m => d.onOdr fun o => { o with gathered := o.gathered ++ [⟨c, i, r.brow, some m, 0⟩] }
    | none => d.onOdr fun o => { o with wants := o.wants ++ [⟨c, i, r.brow, .recon c own r.brow⟩] }) d

/-- The band-row of disc `own` from what the others gave. -/
def solveStripe (parts : List (Nat × Map Byte)) (own : Nat) : Option (Map Byte) :=
  let ds := parts.filter (fun e => decide (e.1 < 10))
  let lost := (List.range 10).filter (fun i => !ds.any (fun e => e.1 == i))
  match parSolve ds lost (Map.find parts 10) (Map.find parts 11) with
  | none => none
  | some sol =>
    let whole := ds ++ sol
    if own = 10 then some (parP whole) else if own = 11 then some (parQ whole) else Map.find whole own

/-- A reconstruction whose parts are all in ends. -/
def Dev.reconStep (d : Dev) (n : Nat) : Dev :=
  let c := d.rd (F.drvShell n)
  let own := d.rd (F.drvStat_disc n)
  ((d.drive n).reads.filter (fun r => decide (r.level = 7) && !r.idle)).foldl (fun d r =>
    let mine := d.odr.gathered.filter (fun g => g.cat == c && g.brow == r.brow && g.disc != own)
    if !((List.range 12).filter (· != own)).all (fun i => mine.any (fun g => g.disc == i)) then d
    else
      let d := d.onOdr fun o => { o with gathered := o.gathered.filter (fun g => !(g.cat == c && g.brow == r.brow)) }
      let parts := ((List.range 12).filterMap (fun i => ((mine.find? (fun g => g.disc == i)).bind (·.data)).map (fun m => (i, m))))
      let hol := mine.foldl (fun h g => if g.data.isSome then h ||| g.hmap else h) 0
      match (if d.injected Pg.parDisc Er.parDisc_discHollow then none else solveStripe parts own) with
      | some m =>
        let (m, hol, d) := d.rowLand n r m hol
        let d := ((d.count (F.rcLvlCnt n 7)).raise (Pg.odrRc n) Er.odrRc_reconL7 r.brow).count (F.parDiscCnt 3)
        let d := ((d.raise Pg.parDisc Er.parDisc_discRecon r.brow).wr (F.rcLast_level n) 7).wr (F.rcLast_brow n) r.brow
        (d.reallocate n r 7 m hol).deliverRow n r m hol false false
      | none =>
        let (m, hol, d) := d.rowLand n r [] (2 ^ 64 - 1)
        ((d.takeInjected Pg.parDisc Er.parDisc_discHollow).raise Pg.parDisc Er.parDisc_discHollow r.brow).deliverRow n r m hol true false) d

/-! ## Levels (R302, R303) -/

/-- RECOVERY_LEVEL_START: the next level of a band-row that is not complete. -/
def Dev.levelStart (d : Dev) (n brow : Nat) : Dev :=
  match (d.drive n).reads.find? (fun r => r.brow == brow && r.idle && r.verdict.isNone) with
  | none => d
  | some r =>
    let l := r.level + 1
    let other := (d.drive n).reads.any (fun x => !sameRead x r && decide (2 ≤ x.level) && decide (x.level ≤ 6))
    let reread := decide (2 ≤ l) && decide (l ≤ 6)
    if d.holding 8 ∨ d.holding 9 ∨ (reread ∧ (other ∨ (d.rec_ n).cur.isSome ∨ d.drvState n ≠ 3 ∨ !d.servoOn n)) then d
    else if l = 1 then
      let again := (d.decodable n r).filter (fun i => (Map.find r.llrs i).isSome)
      let r := { r with level := 1, idle := false, passes := 0, waiting := again }
      let d := d.putRead n r
      if again.isEmpty then d.passEnds n r
      else again.foldl (fun d i => d.ldpcAsk
        ⟨n, r.ploc, r.beam (d.ad8 n) i, i, Map.get [] r.llrs i, 24, false, d.now * 2500, none⟩) d
    else if reread then
      let left := d.decodable n r
      let r := { r with level := l, idle := false, passes := [0, 0, 0, 1, 1, 3, 1].getD l 0, waiting := left, repeated := false, llrs := [] }
      let d := d.putRead n r
      let d := if l = 3 then d.tapsReset n else d
      let d := if l = 6 then
          let e := d.zoneNow n
          let (st, d) := d.freeStamp
          d.sendCfg n (sampleRate e.frames e.rpm / 2) st true
        else d
      if left.isEmpty then d.levelEnds n { r with passes := 0 } else d.aimRead n r
    else
      let r := { r with level := 7, idle := false, passes := 0, waiting := [] }
      ((d.putRead n r).reconStart n r).reconStep n

/-- Where beam 0 is, in frames (AD-8: words) from the start of a read's slot. -/
def Dev.slotOffset (d : Dev) (n ploc layer p field : Nat) : Option Int :=
  match (d.drive n).disc with
  | none => none
  | some k =>
    if layer ≠ plocLayer ploc then none
    else
      let g := k.slotPlace layer (plocSlot ploc)
      if k.ad8 then some (((p : Int) - g.band) * 10 + field)
      else
        let e := k.zone layer (k.zoneOfSlot layer (plocSlot ploc))
        some (bandDiff (p / 18) g.band * (e.frames : Nat) + field - g.field)
/-- Frames of a slot; words of an AD-8 row or unit. -/
def slotFrames (ad8 : Bool) : Nat := if ad8 then 20 else 38

/-- Reads in a tick: wishes join reads under way, stopped passes end, L5 offsets come and go with the slot (R365), passes that were
missed are made again, and an idle drive begins its next read. -/
def Dev.ladderTick (d : Dev) (n : Nat) : Dev :=
  let c := d.rd (F.drvShell n)
  let i := d.rd (F.drvStat_disc n)
  match (d.drive n).disc with
  | none => d
  | some k =>
    if d.drvState n ≠ 3 ∨ !d.servoOn n then d
    else
      let here (w : Want) : Bool := w.cat == c && w.disc == i
      let d := (d.odr.wants.filter here).foldl (fun d w =>
        match (d.drive n).reads.find? (fun r => r.brow == w.brow && !r.recorded) with
        | some r => (d.putRead n { r with why := r.why ++ [w.why] }).onOdr fun o => { o with wants := o.wants.erase w }
        | none => d) d
      let d := ((d.drive n).reads.filter (fun r => r.waiting.isEmpty && !r.idle && decide (r.level ≤ 6) && r.verdict.isNone)).foldl (fun d r => d.passEnds n r) d
      let d := d.reconStep n
      let pos (r : BrRead) : Option Int := match d.field0 n with
        | some (l, b, t, f, _) => d.slotOffset n r.ploc l (if k.ad8 then b else 18 * b + t) (if k.ad8 then t else f)
        | none => none
      let d := match (d.drive n).reads.find? (fun r => decide (r.level = 5) && !r.idle) with
        | some r =>
          let frame := bitsNs (d.zoneNow n) 4096
          let age := match d.field0 n with
            | some (_, _, _, _, t) => d.since t
            | none => 0
          let on_ := match pos r with
            | some p => (decide (0 ≤ p) && decide (p < 38)) || (decide (p = -1) && decide (frame ≤ (age + 1) * 2500))
            | none => false
          let trk : Int := ((d.rd (F.rcOfs_trkOfs n) * 8 : Nat) : Int)
          let foc : Int := ((d.rd (F.rcOfs_focOfs n) * 40 : Nat) : Int)
          d.onSeq n fun s => { s with
            trkOfs := if !on_ then 0 else if r.passes = 3 then trk else if r.passes = 2 then -trk else 0
            focOfs := if !on_ then 0 else if r.passes = 1 then foc else if r.passes = 0 then -foc else 0 }
        | none => d
      let open_ (r : BrRead) : Bool := !r.idle && (decide (r.level ≠ 1) && decide (r.level ≤ 6)) && (!r.recorded || k.ad8) &&
        r.waiting.any (fun s => !d.odr.ldpc.any (fun q => q.drive == n && q.ploc == r.ploc && q.sector == s))
      match (d.drive n).reads.find? open_ with
      | some r =>
        let goal := k.slotPlace (plocLayer r.ploc) (plocSlot r.ploc)
        let past := match pos r with
          | some p => decide ((slotFrames k.ad8 : Int) ≤ p)
          | none => false
        if (d.rec_ n).cur.isSome ∨ d.recState n ≠ 0 then d
        else if (d.seq n).goal ≠ some goal ∨ (past && decide ((d.seq n).st = 2) && !(d.seq n).due) then d.srvTarget n goal else d
      | none =>
        if d.recState n ≠ 0 ∨ (d.rec_ n).cur.isSome ∨ d.headBusy n ∨ d.holding 8 then d
        else match d.odr.wants.find? here with
          | none => d
          | some w =>
            let whys := ((d.odr.wants.filter (fun x => here x && x.brow == w.brow)).map (·.why))
            let r : BrRead := ⟨w.brow, k.plocOf w.brow, 0, 0, [], [], 0, [], [], false, false, false, whys, none⟩
            let r := { r with waiting := d.decodable n r, failed0 := ((List.range (sectorCount k.ad8)).filter (fun s => !(d.decodable n r).contains s)).foldl (fun m s => m ||| 2 ^ s) 0 }
            let cls := if whys.all (fun y => match y with
              | .verify _ => true
              | _ => false) then 3 else 2
            let (hs, d) := if d.canGrant (36 + n) cls then d.grantAll (36 + n) cls (if k.ad8 then 1 else 4) else (none, d)
            match hs with
            | none => d
            | some hs =>
            let d := d.onOdr fun o => { o with
              wants := o.wants.filter (fun x => !(here x && x.brow == w.brow)), rowBufs := o.rowBufs ++ [⟨n, none, w.brow, hs⟩] }
            (d.onDrive n fun v => { v with reads := v.reads ++ [r], used := d.now }).aimRead n r

/-- Jobs that merge into a unit on disc ask for it, once (R180, R273). -/
def Dev.diskJobs (d : Dev) : Dev :=
  d.sfl.jobs.foldl (fun d j => match j.st with
    | .disc loc =>
      let asked (w : BrowFor) : Bool := match w with
        | .unit (.job id) .. => id == j.id
        | _ => false
      if d.odr.wants.any (fun w => asked w.why) ∨ (List.range 4).any (fun n => (d.drive n).reads.any (fun r => r.why.any asked)) then d
      else
        let e := d.mapEnt j.glu
        let f2 := (d.catEnt (locCat loc)).format == 2
        d.onOdr fun o => { o with wants := o.wants ++ [⟨locCat loc, locDisc loc, locBrow loc,
          .unit (.job j.id) (if f2 then 0 else locUnit loc) (entEnc e) (entKey e)⟩] }
    | _ => d) d

/-! ## Commands -/

/-- LDPC_DECODE_START (R300). -/
def execLdpcDecodeStart (decoder : Nat) (s : State) : Host.Outcome State Fault Refusal := run s (·.decodeStart decoder)
/-- LDPC_DECODE_DONE (R299, R301). -/
def execLdpcDecodeDone (decoder : Nat) (s : State) : Host.Outcome State Fault Refusal := run s (·.decodeDone decoder)
/-- RECOVERY_LEVEL_START (R302). -/
def execRecoveryLevelStart (drive brow : Nat) (s : State) : Host.Outcome State Fault Refusal := run s (·.levelStart (drive % 4) brow)

end Sys2Proof.Machine
end

