-- ==== Sys2Proof/Machine/Beam.lean ====
section
/-! DEFINITION. Frames from the head, the beam channel from conditioning to the placement of the codeword, timing servo fields
and wobble words, and the tracking errors they give (R281–R297, R305, R306, R326, R341, R342, R369). -/
namespace Sys2Proof.Machine
open Sys2Proof

/-! ## Frames (R282, R283, R285, R287) -/

def frameType (b : List Byte) : Nat := fieldAt b 0 2 / 4096
def frameBeam (b : List Byte) : Nat := fieldAt b 0 2 / 128 % 32
def frameFlags (b : List Byte) : Nat := fieldAt b 0 2 % 128
def frameStamp (b : List Byte) : Nat := fieldAt b 4 4
def framePayload (b : List Byte) : List Byte := slice b 8 (b.length - 12)

/-- A frame of type `ty` from the head is well formed and passes its CRC. -/
def headOk (ad8 : Bool) (ty : Nat) (b : List Byte) : Bool :=
  let len := fieldAt b 2 2
  let want := if ty = 1 then 512 else if ty = 2 then (if ad8 then 32 else 64) else 16
  let beam := frameBeam b
  frameType b == ty && len == want && b.length == len + 12 && leNat (b.drop (len + 8)) == crc32c (b.take (len + 8)) &&
    (if ty = 1 then decide (beam < (if ad8 then 4 else 18)) else beam == 31)

/-- A received frame is counted; one that fails its check is discarded: HL_CRC. -/
def Dev.headFrameIn (d : Dev) (ty : Nat) (f : HeadIn) (then_ : Dev → Dev) : Dev :=
  let n := f.drive % 4
  if !d.headUp n then d
  else
    let d := d.count (F.hlCnt n 0)
    let ok := headOk (d.ad8 n) ty f.bytes && !d.injected (Pg.odrHl n) Er.odrHl_hlCrc
    let d := d.takeInjected (Pg.odrHl n) Er.odrHl_hlCrc
    if ok then then_ d else (d.count (F.hlCnt n 1)).raise (Pg.odrHl n) Er.odrHl_hlCrc

/-- A head state with a bit set: HEAD_FAULT fences the drive; a band-row in progress gets no entry (R285, R325). -/
def Dev.headState (d : Dev) (n v : Nat) : Dev :=
  let d := d.wr (F.hlHead_hstate n) v
  if v % 16 = 0 then d else ((d.raise (Pg.odrHl n) Er.odrHl_headFault v).recAbort n).fence (Pg.odrDrv n) (some (Pg.odrHl n, Er.odrHl_headFault))

/-! ## Sectors that fail on a beam -/

/-- The sectors in progress on a beam fail their level. -/
def Dev.beamFails (d : Dev) (n b : Nat) : Dev :=
  let a := d.ad8 n
  match (Map.get Beam.reset (d.drive n).beams b).place with
  | none => d
  | some (l, p, f) =>
    ((d.drive n).reads.filter (fun r => !r.idle && decide (r.level ≠ 1))).foldl (fun d r => match d.slotOffset n r.ploc l p f with
      | some k =>
        if k < 0 ∨ (slotFrames a : Int) ≤ k then d
        else
          let row := k.toNat / 10
          (r.waiting.filter (fun i => r.beam a i == b && (!a || i / 4 == row))).foldl (fun d i => d.sectorDone n r.ploc i none) d
      | none => d) d

/-- Timing is lost on a beam (R292). -/
def Dev.beamLost (d : Dev) (n b : Nat) : Dev :=
  let d := d.beamFails n b
  let was := d.beamLocked n b
  let d := d.onDrive n fun v => { v with beams := Map.modify Beam.reset v.beams b fun x => { x with locked := false, misses := 0, hist := [], start := 0 } }
  let d := d.wr (F.rcBeamStat_lock n b) 0
  d.when was fun d => d.raise (Pg.odrRc n) Er.odrRc_tsfLost b

/-- The head link of a drive leaves UP: LINK_LOST (R306, R325). -/
def Dev.headLost (d : Dev) (n : Nat) : Dev :=
  let d := (List.range 18).foldl (fun d b => (d.beamFails n b).onDrive n fun v =>
    { v with beams := Map.modify Beam.reset v.beams b fun x => { x with locked := false, expect := none, hist := [], place := none } }) d
  let d := (List.range 18).foldl (fun d b => d.wr (F.rcBeamStat_lock n b) 0) d
  ((d.count (F.hlCnt n 7)).raise (Pg.odrHl n) Er.odrHl_linkLost).recAbort n

def Dev.beam (d : Dev) (n b : Nat) : Beam := Map.get Beam.reset (d.drive n).beams b
def Dev.onBeam (d : Dev) (n b : Nat) (f : Beam → Beam) : Dev :=
  d.onDrive n fun v => { v with beams := Map.modify Beam.reset v.beams b f }

/-! ## Conditioning (R289, R290) -/

/-- A sample conditioned, with 4 fractional bits, saturated to 12 bits. -/
def conditioned (x offset asym : Int) (fgain : Nat) : Int :=
  let v := x * 16 - offset * 4
  let w := v - quot (asym * v * v) (32768 * 16)
  clampInt (-2048) 2047 (quot (w * (fgain : Nat)) 1024)

/-- 1,024 × 10^(e/5,120) as FGAIN, saturated: the whole number below it, or the next where it is not whole and is taken upwards
(log entry 38). -/
def gainOfDb (e : Int) : Nat :=
  let up := 10 ^ e.toNat * 1024 ^ 5120
  let of_ (y : Nat) : Nat := 10 ^ (-e).toNat * y ^ 5120
  let y := ([2048, 1024, 512, 256, 128, 64, 32, 16, 8, 4, 2, 1] : List Nat).foldl (fun a b => if of_ (a + b) ≤ up then a + b else a) 0
  if of_ y = up then y else if Config.roundsUp e 5120 then min 4095 (y + 1) else y

/-- FGAIN over the embossed bits, for the GAIN of the entry of ODR_TSF and a coarse code: 1,024 × 10^((GAIN/256 − 0.5 × code)/20). -/
def tsfGain (gain code : Nat) : Nat := gainOfDb ((gain : Int) - (128 * code : Nat))

/-! ## Defects and erasures (R291) -/

/-- The last `k` bits of a channel are erased, back into the frame before. -/
def Beam.erase (x : Beam) (k : Nat) : Beam :=
  let er (c : ChBit) : ChBit := { c with er := true, llr := 0 }
  let m := x.hist.length
  let h := if k ≤ m then x.hist.take (m - k) ++ (x.hist.drop (m - k)).map er else x.hist.map er
  let fs := if k ≤ m then x.frames
    else match x.frames.reverse with
      | f :: rest =>
        let j := f.bits.length - (k - m)
        (rest.reverse ++ [{ f with bits := f.bits.take j ++ (f.bits.drop j).map er }])
      | [] => []
  { x with hist := h, frames := fs }

/-- One channel bit: the envelopes, the defect detector and the erasure span. Erasure of the bits that confirm a defect's end is
taken back beyond PAD. -/
def chBit (drop recover len pad : Nat) (x : Beam) (c : ChBit) : Beam :=
  let fast := max (c.y * 4096) (x.fast - (quot (x.fast : Nat) 64).toNat)
  let under := decide (fast * 100 < x.ref * (100 - drop))
  let good := decide (x.ref * (100 - recover) ≤ fast * 100)
  let ref := if x.defect then x.ref else ((x.ref : Int) + quot ((fast : Int) - (x.ref : Int)) 4096).toNat
  let x := { x with fast := fast, ref := ref }
  if x.defect then
    let high := if good then x.high + 1 else 0
    if high = 16 then
      let keep := { c with er := decide (16 ≤ pad), llr := if 16 ≤ pad then 0 else c.llr }
      let m := x.hist.length
      let fix (i : Nat) (b : ChBit) : ChBit := if i + 15 < m + pad then b else { b with er := false }
      { x with defect := false, high := 0, low := 0, pad := pad - 16, hist := (x.hist.mapIdx fix) ++ [keep] }
    else { x with high := high, hist := x.hist ++ [{ c with er := true }] }
  else
    let low := if under then x.low + 1 else 0
    if low = len then
      { (Beam.erase { x with hist := x.hist ++ [c] } (len + pad)) with defect := true, low := 0, high := 0 }
    else if 0 < x.pad then { x with low := low, pad := x.pad - 1, hist := x.hist ++ [{ c with er := true, llr := 0 }] }
    else { x with low := low, hist := x.hist ++ [c] }

/-- A bit's LLR as it leaves the channel: 0 where the bit is erased. -/
def ChBit.soft (c : ChBit) : Int := if c.er then 0 else c.llr

/-! ## Places (R249, R252, R292, R359) -/

/-- Frames of a revolution at a band of a layer. -/
def DiscSt.framesAt (k : DiscSt) (layer band : Nat) : Nat :=
  if isLeadIn band ∨ k.zones.isEmpty then 416 else (k.zone layer (k.zoneOfBand layer band)).frames

/-- The place after a place: the next field, in the next band after the last of a revolution. -/
def Dev.nextPlace8 (d : Dev) (n : Nat) (x : Nat × Nat × Nat) : Nat × Nat × Nat :=
  let (l, p, f) := x
  if d.ad8 n then (if 9 ≤ f then (l, p + 1, 0) else (l, p, f + 1))
  else match (d.drive n).disc with
    | none => if 415 ≤ f then (l, p + 18, 0) else (l, p, f + 1)
    | some k => if k.framesAt l (p / 18) ≤ f + 1 then (l, (p + 18) % (18 * 2 ^ 20), 0) else (l, p, f + 1)

/-- The servo follows, so that a beam's next place is known. -/
def Dev.following (d : Dev) (n : Nat) : Bool :=
  let s := d.seq n
  decide (s.st = 2) || (decide (s.st = 4) && decide (s.phase = 3))

/-- Beam 0's newest place, for SRV. -/
def Dev.fieldOf0 (d : Dev) (n : Nat) (x : Nat × Nat × Nat) : Dev :=
  let (l, p, f) := x
  let (band, track) := if d.ad8 n then (p, f) else (p / 18, p % 18)
  let d := d.onSrvDrive n fun v => { v with field := some (l, band, track, if d.ad8 n then 0 else f, d.now) }
  ((d.wr (F.srvDrvPos_valid n) 1).wr (F.srvDrvPos_band n) (band % 2 ^ 20)).wr (F.srvDrvPos_track n) track

/-- A beam has a new tracking error; the write guard looks at it (R320, R341). -/
def Dev.trackError (d : Dev) (n b ns : Nat) (e : Int) : Dev :=
  let d := d.onBeam n b fun x => { x with trk := e }
  d.guardSet n ns 1 (!(d.offTrack n).isEmpty)

/-- The tracking error that burst sums give, if they reach BURST_MIN. -/
def Dev.burst (d : Dev) (n b ns a c : Nat) : Dev :=
  if a + c < max 1 (d.rd (F.srvTrkCfg_burstMin n)) then d else d.trackError n b ns (nearest (512 * ((c : Int) - a)) (a + c : Nat))

/-- A place read on a beam: as expected, or not. A place that differs fails the sectors in progress; in another layer, band or
track it is also a track slip (R292, R342). -/
def Dev.placeRead (d : Dev) (n b ns : Nat) (got : Nat × Nat × Nat) (a c : Nat) : Dev :=
  let x := d.beam n b
  let want := x.place.map (d.nextPlace8 n)
  let d := match want with
    | some w =>
      if !d.following n ∨ w = got then d.burst n b ns a c
      else
        let d := d.beamFails n b
        let slip := decide (w.1 ≠ got.1) || decide (w.2.1 ≠ got.2.1) || (d.ad8 n && decide (w.2.2 ≠ got.2.2))
        if slip then
          let p (v : Nat × Nat × Nat) : Int := if d.ad8 n then (v.2.1 * 10 + v.2.2 : Nat) else (v.2.1 : Nat)
          let diff := if d.ad8 n then p got - p w else sgn 20 (behind 20 (got.2.1 / 18) (w.2.1 / 18)) * 18 + ((got.2.1 % 18 : Nat) : Int) - ((w.2.1 % 18 : Nat) : Int)
          let d := (((d.raise (Pg.srvDrv n) Er.srvDrv_trackSlip b).count (F.srvDrvCnt n 6)).onSeq n fun s => { s with due := true })
          d.trackError n b ns (if 0 < diff then 512 else -512)
        else d.burst n b ns a c
    | none => d.burst n b ns a c
  let d := d.onBeam n b fun x => { x with place := some got }
  if b = 0 then d.fieldOf0 n got else d

/-! ## The placement of a codeword (R296, R297) -/

/-- The last frames of a beam that make the slot of a read, with the 48 bits before them; none where one is missing. -/
def Dev.slotBitsOf (d : Dev) (n b ploc frames first : Nat) : Option (List ChBit) :=
  let fs := (d.beam n b).frames
  let last := fs.drop (fs.length - frames)
  let at_ (f : BeamFrame) : Option Int := d.slotOffset n ploc f.layer f.band f.field
  let seq := (last.zipIdx).all (fun e => at_ e.1 == some ((first + e.2 : Nat) : Int))
  if last.length = frames ∧ seq then
    let before := (fs.take (fs.length - frames)).getLast?
    let lead := match before with
      | some f => if at_ f = some ((first : Int) - 1) ∨ first ≠ 0 then f.bits.drop (f.bits.length - 48) else []
      | none => []
    some (List.replicate (48 - lead.length) ⟨false, 0, true, 0⟩ ++ lead ++ (last.map (·.bits)).flatten)
  else none

/-- A sector whose slot has just passed a beam: placed and handed to the pool, or failed. -/
def Dev.sectorPassed (d : Dev) (n b ns : Nat) (r : BrRead) (i frames first row : Nat) : Dev :=
  let a := d.ad8 n
  match d.slotBitsOf n b r.ploc frames first with
  | none => d
  | some bits =>
    let slot := plocSlot r.ploc + row
    let sector := if a then b else sectorOf false slot b
    let hard := (bits.map (·.hard)).toArray
    let soft := (bits.map ChBit.soft).toArray
    let s := findAnchor a (d.rd (F.rcCfg_syncTol n)) hard 48 (addressBits (plocLayer r.ploc) slot sector 0)
    let d := d.countN (F.rcBeamCnt n b 2) s.rejected
    let d := d.when (decide (s.how = .resync)) fun d => d.count (F.rcBeamCnt n b 3)
    let d := d.when (decide (s.how = .flywheel)) fun d => d.count (F.rcBeamCnt n b 4)
    let inj := d.injected (Pg.odrRc n) Er.odrRc_addrMismatch
    let d := d.when (s.mismatch || inj) fun d => (d.takeInjected (Pg.odrRc n) Er.odrRc_addrMismatch).raise (Pg.odrRc n) Er.odrRc_addrMismatch b
    if s.how = .none ∨ inj then d.sectorDone n r.ploc i none
    else
      let half := firstHalf a
      let llrs := (List.range half).map (fun k => soft.getD (s.anchor + 128 + k) 0) ++ (List.range half).map (fun k => soft.getD (s.resync + 64 + k) 0)
      let sat (v : Int) : Int := clampInt (-31) 31 v
      let sum := List.zipWith (fun x y => sat (x + y)) llrs (Map.get (List.replicate (2 * half) 0) r.sums i)
      let d := if r.level = 0 then d.dropLate n b else d
      let d := d.onDrive n fun v => { v with reads := v.reads.map (fun x =>
        if sameRead x r then { x with
          llrs := (if r.level = 0 then Map.put x.llrs i llrs else x.llrs)
          sums := (if 2 ≤ r.level ∧ r.level ≤ 4 then Map.put x.sums i sum else x.sums) } else x) }
      let limit := if r.level = 0 then d.rd (F.rcCfg_iter0 n) else 24
      d.ldpcAsk ⟨n, r.ploc, b, i, if r.level = 4 then sum else llrs, limit, r.level == 0, d.now * 2500 + ns, none⟩

/-- A frame (AD-8: word) of a beam has passed: sectors that end with it. -/
def Dev.framePassed (d : Dev) (n b ns : Nat) (f : BeamFrame) : Dev :=
  let a := d.ad8 n
  let er := (f.bits.filter (·.er)).length
  let d := d.countN (F.rcBeamCnt n b 7) er
  let d := d.onBeam n b fun x => { x with frames := (x.frames ++ [f]).drop (x.frames.length + 1 - 39) }
  if (d.rd (F.rcBeamOff n)).testBit b then d
  else ((d.drive n).reads.filter (fun r => !r.idle && decide (r.level ≠ 1) && decide (r.level ≤ 6))).foldl (fun d r =>
    match d.slotOffset n r.ploc f.layer f.band f.field with
    | some k =>
      let done := if a then decide (k = 9) || decide (k = 19) else decide (k = 37)
      if !done then d
      else
        let row := if a ∧ k = 19 then 1 else 0
        match r.waiting.find? (fun i => r.beam a i == b && (!a || i / 4 == row) &&
            !d.odr.ldpc.any (fun q => q.drive == n && q.ploc == r.ploc && q.sector == i)) with
        | some i => if a then d.sectorPassed n b ns r i 10 (10 * row) row else d.sectorPassed n b ns r i 38 0 0
        | none => d
    | none => d) d

/-! ## Timing servo fields (R249, R292) -/

def preambleBits : List Bool := (List.range 16).map (fun i => decide (i % 2 = 0))
def markBits : List Bool := highBits 8 0x1D
/-- The 128 bits of a field pass its CRC; its layer, position number and field. -/
def fieldOk (h : List Bool) : Bool := numOfBits ((h.drop 66).take 16) == crc16Bits ((h.drop 24).take 42)
def fieldPlace (h : List Bool) : Nat × Nat × Nat :=
  let num (i k : Nat) : Nat := numOfBits ((h.drop i).take k)
  (num 24 5, 18 * num 34 20 + num 29 5, num 54 12)

/-- A field's window is complete: MARK found or missed, the frame before it pushed (R292). -/
def Dev.judgeField (d : Dev) (n b ns : Nat) : Dev :=
  let x := d.beam n b
  let s := 4096 + x.start
  let hard := x.hist.map (·.hard)
  let offs : List Int := ((List.range 9).map (fun (i : Nat) => if i = 0 then [(0 : Int)] else [-(i : Int), (i : Int)])).flatten
  let found := offs.find? (fun o => ((hard.drop ((s : Int) + o + 16).toNat).take 8) == markBits)
  let d := match x.place with
    | some (l, p, f) => d.framePassed n b ns ⟨l, p, f, (x.hist.drop (x.start + 128)).take 3968⟩
    | none => d
  let start := ((8 : Int) + found.getD 0).toNat
  let d := d.onBeam n b fun x => { x with hist := x.hist.drop (s - 8), start := start }
  match found with
  | none =>
    let d := d.count (F.rcBeamCnt n b 5)
    let d := d.onBeam n b fun x => { x with misses := x.misses + 1, place := x.place.map (d.nextPlace8 n) }
    if 4 ≤ x.misses + 1 then d.beamLost n b else d
  | some o =>
    let at_ := ((s : Int) + o).toNat
    let h := (hard.drop at_).take 128
    let d := d.onBeam n b fun x => { x with misses := 0 }
    if !fieldOk h then d.onBeam n b fun x => { x with place := x.place.map (d.nextPlace8 n) }
    else
      let sum (i k : Nat) : Nat := (((x.hist.drop (at_ + i)).take k).map (·.y)).foldl (· + ·) 0
      d.placeRead n b ns (fieldPlace h) (sum 84 14) (sum 102 14)

/-- An unlocked beam looks for two fields 4,096 bits apart that pass their CRC. -/
def Dev.relock (d : Dev) (n b ns : Nat) : Dev :=
  let x := d.beam n b
  let hard := x.hist.map (·.hard)
  let field (i : Nat) : List Bool := (hard.drop i).take 128
  let good (i : Nat) : Bool := (field i).take 24 == preambleBits ++ markBits && fieldOk (field i)
  if x.hist.length < 4224 then d
  else if good 0 && good 4096 then
    let d := d.onBeam n b fun x => { x with locked := true, misses := 0, hist := x.hist.drop 4088, start := 8, place := none }
    let sum (i k : Nat) : Nat := (((x.hist.drop (4096 + i)).take k).map (·.y)).foldl (· + ·) 0
    (d.wr (F.rcBeamStat_lock n b) 1).placeRead n b ns (fieldPlace (field 4096)) (sum 84 14) (sum 102 14)
  else d.onBeam n b fun x => { x with hist := x.hist.drop 1 }

/-- One channel bit of a beam of an AD-32 disc. -/
def Dev.bitIn (d : Dev) (n b ns : Nat) (c : ChBit) : Dev :=
  let was := (d.beam n b).defect
  let drop := d.rd (F.rcDef_drop n)
  let rec_ := d.rd (F.rcDef_recover n)
  let len := d.rd (F.rcDef_len n)
  let pad := d.rd (F.rcDef_pad n)
  let d := d.onBeam n b fun x => chBit drop rec_ len pad x c
  let x := d.beam n b
  let d := d.when (x.defect && !was) fun d => d.count (F.rcBeamCnt n b 6)
  if d.ad8 n then d
  else if x.locked then (if x.hist.length = 4232 + x.start then d.judgeField n b ns else d)
  else d.relock n b ns

/-! ## Wobble words (R369) -/

/-- A wobble address word ends: its place, or a miss. The bits since the last word are its 8,192 channel bits. -/
def Dev.wordIn (d : Dev) (n b ns : Nat) (w : List Bool) : Dev :=
  let num (i k : Nat) : Nat := numOfBits ((w.drop i).take k)
  let x := d.beam n b
  let ok := decide (w.length = 128) && num 0 16 == 0xB38F && num 112 16 == crc16Bits ((w.drop 16).take 96)
  let bits := x.hist.drop (x.hist.length - 8192)
  let d := d.onBeam n b fun x => { x with hist := [] }
  if ok then
    let got := (num 16 3, num 19 24, num 43 4)
    let lock := if x.locked then d else (d.onBeam n b fun x => { x with locked := true, place := none }).wr (F.rcBeamStat_lock n b) 1
    let d := (lock.onBeam n b fun x => { x with misses := 0 }).placeRead n b ns got 0 0
    if bits.length = 8192 then d.framePassed n b ns ⟨got.1, got.2.1, got.2.2, bits⟩ else d
  else
    let d := d.count (F.rcBeamCnt n b 5)
    let d := d.onBeam n b fun x => { x with misses := x.misses + 1, place := x.place.map (d.nextPlace8 n) }
    let d := match (d.beam n b).place with
      | some (l, p, f) => if bits.length = 8192 then d.framePassed n b ns ⟨l, p, f, bits⟩ else d
      | none => d
    if 4 ≤ x.misses + 1 then d.beamLost n b else d

/-! ## The coarse gain (R289) -/

/-- A sector is being read on a beam: a read's pass waits for one. -/
def Dev.beamReads (d : Dev) (n b : Nat) : Bool :=
  (d.drive n).reads.any (fun r => !r.idle && decide (r.level ≠ 1) && decide (r.level ≤ 6) && r.waiting.any (fun i => r.beam (d.ad8 n) i == b))

/-- The code a frame reports is applied; a step of the head's gain is answered in FGAIN; an echo that differs is sent again; the next
step is asked for. To a version 1 head GAIN goes only while the beam reads no sector (R287). -/
def Dev.gainIn (d : Dev) (n b code stamp : Nat) : Dev :=
  let x := d.beam n b
  let due := decide (behind 32 stamp x.codeAt < 2 ^ 31)
  let fg := if code < x.code then (quot ((x.fgain * 105925 : Nat) : Int) 100000).toNat
    else if x.code < code then (quot ((x.fgain * 94406 : Nat) : Int) 100000).toNat else x.fgain
  let d := d.onBeam n b fun x => { x with code := code, fgain := min 4095 fg }
  let send (d : Dev) (c : Nat) : Dev :=
    let at_ := (stamp + 512 * (1 + d.free 8 % 2048)) % 2 ^ 32
    (d.stepFree.toHead n 8 b at_ (leBytes 1 c ++ zeros 7)).onBeam n b fun x => { x with sent := c, codeAt := at_ }
  if d.ad8 n && d.beamReads n b then d
  else if due ∧ code ≠ x.sent then ((send d x.sent).count (F.hlCnt n 3)).raise (Pg.odrHl n) Er.odrHl_gainEcho b
  else if code ≠ x.sent then d
  else if 1290 < min 4095 fg ∧ code < 63 then send d (code + 1)
  else if min 4095 fg < 813 ∧ 0 < code then send d (code - 1) else d

/-! ## SAMPLE, SERVO and STATUS (R285) -/

/-- Missing SAMPLE frames: zero samples, a defect for their whole length; PAD bits on each side are erased with them (R285, R291). -/
def Dev.sampleGap (d : Dev) (n b ns g : Nat) : Dev :=
  let bits := (quot ((512 * g * 16 : Nat) : Int) 17).toNat
  let d := ((d.countN (F.hlCnt n 2) g).raise (Pg.odrHl n) Er.odrHl_sampleGap b).count (F.rcBeamCnt n b 6)
  if !(d.beamLocked n b) ∧ !d.ad8 n then d.onBeam n b fun x => { x with hist := [] }
  else
  let pad := d.rd (F.rcDef_pad n)
  let d := d.onBeam n b fun x => if x.defect then x else x.erase pad
  let d := (List.range bits).foldl (fun d _ =>
    let d := d.onBeam n b fun x => { x with hist := x.hist ++ [⟨false, 0, true, 0⟩] }
    let x := d.beam n b
    if x.locked ∧ !d.ad8 n ∧ x.hist.length = 4232 + x.start then d.judgeField n b ns else d) d
  d.onBeam n b fun x => { x with pad := if x.defect then x.pad else pad }

/-- Where adaptation has come at the end of a frame, with what the registers hold fixed (R290, R293, R294). -/
def Dev.adapt (d : Dev) (n b : Nat) (i : SampleIn) : Dev :=
  let x := d.beam n b
  let off := d.rd (F.rcBeamOff n)
  let side (m : Bool) (new old : List Int) : List Int :=
    if !m ∨ d.ad8 n then [0, 0, 0] else if d.flag (F.rcCfg_cancEn n) then new.map (fun v => (satInt 12 v).1) else old
  if x.defect then d
  else d.onBeam n b fun x => { x with
    fgain := min 4095 i.fgain
    offset := (satInt 10 i.offset).1
    asym := (satInt 8 i.asym).1
    eq := if d.flag (F.rcCfg_eqAdapt n) ∧ i.eq.length = 15 then (i.eq.set 7 (x.eq.getD 7 0)).map (fun v => (satInt 12 v).1) else x.eq
    cancL := side (decide (1 ≤ b) && !off.testBit (b - 1)) i.cancL x.cancL
    cancR := side (decide (b + 1 < 18) && !off.testBit (b + 1)) i.cancR x.cancR }

def Dev.showBeam (d : Dev) (n b : Nat) : Dev :=
  let x := d.beam n b
  (((d.wrB (F.rcBeamStat_defect n b) x.defect).wr (F.rcBeamStat_code n b) x.code).wr (F.rcBeamStat_fgain n b) x.fgain).wr
    (F.rcBeamStat_offset n b) (unsgn 10 x.offset)

/-- A SAMPLE frame: the run of its STAMPs, its gain code, its samples conditioned and its bits taken through the channel. A timing servo field
uses the entry of ODR_TSF that stood at its first bit (R290). -/
def Dev.sampleIn (d : Dev) (i : SampleIn) : Dev :=
  d.headFrameIn 1 i.frame fun d =>
    let n := i.frame.drive % 4
    let ns := i.frame.ns
    let bytes := i.frame.bytes
    let b := frameBeam bytes
    let stamp := frameStamp bytes
    let x := d.beam n b
    let skip := behind 32 stamp (x.expect.getD stamp)
    let d := if d.beamLocked n b && d.injected (Pg.odrRc n) Er.odrRc_tsfLost then (d.takeInjected (Pg.odrRc n) Er.odrRc_tsfLost).beamLost n b else d
    if d.injected (Pg.odrHl n) Er.odrHl_sampleGap then
      ((d.takeInjected (Pg.odrHl n) Er.odrHl_sampleGap).onBeam n b fun x => { x with expect := some ((stamp + 512) % 2 ^ 32) }).sampleGap n b ns 1
    else
    let d := if skip = 0 then d
      else if skip % 512 = 0 ∧ skip / 512 < 2048 then d.sampleGap n b ns (skip / 512)
      else d.beamLost n b
    let d := d.onBeam n b fun x => { x with expect := some ((stamp + 512) % 2 ^ 32) }
    let d := d.gainIn n b (frameFlags bytes % 64) stamp
    let x := d.beam n b
    let s := d.seq n
    let z := s.zone
    let m := max 1 i.bits.length
    let embossed (j : Nat) : Bool := !d.ad8 n && x.locked && decide (x.hist.length + j * m / 512 < x.start + 128 + (if x.hist.length < x.start + 128 then 0 else 4096)) &&
      decide (x.start + (if x.hist.length < x.start + 128 then 0 else 4096) ≤ x.hist.length + j * m / 512)
    let now := (d.rd (F.tsfEnt_gain n s.layer z), d.rdS 10 (F.tsfEnt_offset n s.layer z), d.rdS 8 (F.tsfEnt_asym n s.layer z))
    let first := embossed 0 && decide (x.hist.length ≠ x.start) && decide (x.hist.length ≠ x.start + 4096)
    let (ys, last) := (framePayload bytes).zipIdx.foldl (fun (acc : List Int × (Nat × Int × Int)) e =>
      let v := sgn 8 e.1.toNat
      let old := if e.2 = 0 then first else embossed (e.2 - 1)
      if embossed e.2 then
        let t := if old then acc.2 else now
        (acc.1 ++ [conditioned v t.2.1 t.2.2 (tsfGain t.1 x.code)], t)
      else (acc.1 ++ [conditioned v x.offset x.asym x.fgain], acc.2)) ([], x.tsf)
    let d := d.onBeam n b fun x => { x with y := ys, tsf := last }
    let scale : Int := (d.rd (F.rcLlr n) : Nat)
    let ch (t : SoftBit) : ChBit := ⟨t.hard, clampInt (-31) 31 (nearest (t.ratio * scale) 64), false, t.y.natAbs⟩
    let d := i.groups.foldl (fun d g => if d.ad8 n then d.burst n b ns g.1 g.2 else d) d
    let d := (i.bits.zipIdx).foldl (fun d e =>
      let d := d.bitIn n b ns (ch e.1)
      match i.words.find? (fun w => w.at_ == e.2 + 1 && d.ad8 n) with
      | some w => d.wordIn n b ns w.bits
      | none => d) d
    (d.adapt n b i).showBeam n b

/-- A SERVO frame: the newest servo input, looked at by the write guard, and the head's state. -/
def Dev.servoIn (d : Dev) (f : HeadIn) : Dev :=
  d.headFrameIn 2 f fun d =>
    let n := f.drive % 4
    let p := framePayload f.bytes
    let s (i : Nat) : Int := sgn 16 (fieldAt p i 2)
    let k := if d.ad8 n then 4 else 18
    let v : ServoIn := ⟨s 0, fieldAt p 2 2, s 4, s 6, (List.range k).map (fun b => s (8 + 2 * b)), (List.range k).map (fun b => fieldAt p (8 + 2 * k + b) 1)⟩
    let d := d.onDrive n fun x => { x with servo := v, came := true }
    let d := d.guardSet n f.ns 3 false
    let d := d.guardSet n f.ns 0 (decide (d.rd (F.wgLim_foc n) < v.fe.natAbs))
    d.headState n (fieldAt p (if d.ad8 n then 20 else 62) 1)

/-- A STATUS frame: the head's identity, rate and state, and the frames it discarded. -/
def Dev.statusIn (d : Dev) (f : HeadIn) : Dev :=
  d.headFrameIn 3 f fun d =>
    let n := f.drive % 4
    let p := framePayload f.bytes
    let d := ((d.wr (F.hlHead_id n) (fieldAt p 0 2)).wr (F.hlHead_fw n) (fieldAt p 2 1)).wr (F.hlSrate n) (fieldAt p 4 4)
    let d := d.when (fieldAt p 3 1 != (if d.ad8 n then 1 else 2) || d.injected (Pg.odrHl n) Er.odrHl_version) fun d =>
      (d.takeInjected (Pg.odrHl n) Er.odrHl_version).raise (Pg.odrHl n) Er.odrHl_version (fieldAt p 3 1)
    let d := d.when (fieldAt p 10 2 != 0 && (d.rec_ n).cur.isSome) fun d => d.raise (Pg.odrWr n) Er.odrWr_writeDrop (fieldAt p 10 2)
    d.headState n (fieldAt p 9 1)

/-! ## Commands -/

/-- SAMPLE_FRAME (R285). -/
def execSampleFrame (input : SampleIn) (s : State) : Host.Outcome State Fault Refusal := run s (·.sampleIn input)
/-- SERVO_FRAME (R285, R320). -/
def execServoFrame (frame : HeadIn) (s : State) : Host.Outcome State Fault Refusal := run s (·.servoIn frame)
/-- STATUS_FRAME (R283, R285). -/
def execStatusFrame (frame : HeadIn) (s : State) : Host.Outcome State Fault Refusal := run s (·.statusIn frame)

end Sys2Proof.Machine
end

