-- ==== Sys2Proof/Machine/Inputs.lean ====
section
/-! DEFINITION. The pins that act on motion: SHOCK, HOME, LIMIT, ESTOP_N, PWRFAIL_N, GENLOCK, their chatter and sticking; stepper
commands and timers; and what a power failure stops (R202, R320, R410–R418, R424, R526). -/
namespace Sys2Proof.Machine
open Sys2Proof

/-! ## Levels (R416, R424) -/

def Dev.setLevel (d : Dev) (key : Nat) (on : Bool) : Dev := d.onMot fun s => { s with level := Map.set false s.level key on }
def keyGenlock : Nat := 34

/-- MOT_STAT and MOT_IN_CHAT show the inputs. -/
def Dev.showMot (d : Dev) : Dev :=
  let four (f : Nat → Bool) : Nat := maskOf ((List.range 4).map f)
  let d := ((d.wr F.motStat_shock (four fun n => d.active (keyShock n))).wrB F.motStat_estopN (d.active keyEstop)).wrB
    F.motStat_pwrfailN (d.active keyPwr)
  let d := (d.wr F.motInChat_shock (four fun n => d.chats (keyShock n))).wr F.motInChat_trg (four fun j => d.chats (keyTrg j))
  (d.wrB F.motInChat_estopN (d.chats keyEstop)).wrB F.motInChat_pwrfailN (d.chats keyPwr)

/-- SHOCK[n] reads a level: the guard's condition follows (R320). -/
def Dev.shockNow (d : Dev) (n ns : Nat) : Dev := d.showMot.guardSet n ns 2 (d.active (keyShock n))
def Dev.shock (d : Dev) (n ns : Nat) (on : Bool) : Dev := (d.setLevel (keyShock n) on).shockNow n ns

/-! ## Emergency stop and power failure (R410, R202) -/

/-- What both do to motion: HOLD, retract, spindles coast, axes stop. -/
def Dev.motionStop (d : Dev) : Dev :=
  let d := (List.range 4).foldl (fun (d : Dev) n => ((d.holdAbort n).retractPark n).spinKill n) d
  (List.range 8).foldl (fun (d : Dev) m => d.axisKill m) d

/-- ESTOP latches. -/
def Dev.estop (d : Dev) : Dev :=
  let d := ((d.wr F.motStat_estop 1).count (F.motCnt 0)).motionStop
  (d.raise Pg.motReg Er.motReg_estop).showMot

/-- The flash side stops: from now on no flash command starts; Tp is the next boundary. A sequence once started runs on. -/
def Dev.flashStop (d : Dev) : Dev :=
  if d.plat.tp.isSome then d
  else (d.onPlat fun p => { p with tp := some ((d.now + 1) % 2 ^ 64) }).onSfl fun s => { s with frozen := true }

/-- The sequence of R202 with what it does to motion (R410). -/
def Dev.powerSequence (d : Dev) : Dev := ((d.flashStop.wr F.motStat_pwrfail 1).count (F.motCnt 1)).motionStop

/-- PWRFAIL_N is accepted: the sequence, and the records of PLT_MG[3] (R525). -/
def Dev.powerFail (d : Dev) : Dev :=
  let d := (d.onPlat fun p => { p with pfPin := true }).wr F.pltStat_pwrfail 1
  let d := d.mramPut 1 fun m => { m with pfCount := satInc 32 m.pfCount, pfTick := d.now }
  let d := (d.put64 F.mg3PfLo F.mg3PfHi d.mram.pfTick).wr F.mg3PfCnt d.mram.pfCount
  d.powerSequence.showMot

/-- An ESTOP_CLR write: it clears the latch while ESTOP_N is accepted as inactive. -/
def Dev.estopClr (d : Dev) (v : Nat) : Dev :=
  if bitsOf v 31 24 ≠ 0xE5 then d.countIgnored Pg.motReg
  else if bitsOf v 0 0 = 0 then d
  else if d.active keyEstop then (d.count (F.motCnt 4)).countIgnored Pg.motReg
  else d.wr F.motStat_estop 0

/-! ## Chatter and sticking (R417, R418) -/

/-- An input is marked CHATTER and reads its safe state. -/
def Dev.chatter (d : Dev) (key : Nat) : Dev :=
  if d.chats key ∨ 34 < key then d
  else
    let d := (d.onMot fun s => { s with chat := Map.set false s.chat key true }).count (F.motCnt 2)
    if key < 24 then
      let m := key / 3
      let d := (d.raise (Pg.motSt m) Er.motSt_chatter).showInputs m
      let x := d.axis m
      if key % 3 = 0 then (if x.st = 3 then d.homeFails m else d)
      else if (x.st = 1 ∨ x.st = 2 ∨ x.st = 3) ∧ d.blocked m x.dir then d.limitStops m
      else d
    else if key = keyGenlock then d
    else
      let d := (d.raise Pg.motReg Er.motReg_inChatter key).showMot
      if key < 28 then d.shockNow (key - 24) 0
      else if key = keyPwr then (if d.plat.tp.isSome then d else d.powerFail)
      else if key = keyEstop then (if d.flag F.motStat_estop then d else d.estop)
      else d

/-- CHATTER clears; the input takes its raw level, which is no edge. -/
def Dev.chatterClear (d : Dev) (key : Nat) (level : Bool) : Dev :=
  if !d.chats key then d
  else
    let d := (d.onMot fun s => { s with chat := Map.set false s.chat key false }).setLevel key level
    if key < 24 then d.showInputs (key / 3)
    else if key < 28 then d.shockNow (key - 24) 0
    else if key < 32 then (d.wr ⟨F.motStat_trg.addr, 6 + (key - 28), 6 + (key - 28), false⟩ (b2n level)).showMot
    else d.showMot

/-- SHOCK[n] has stayed active for SHOCK_TMO: IN_STUCK; the input stays active. -/
def Dev.inStuck (d : Dev) (n : Nat) : Dev :=
  if d.active (keyShock n) then (d.raise Pg.motReg Er.motReg_inStuck n).count (F.motCnt 3) else d

/-- An accepted GENLOCK edge of the polarity chosen latches its tick (R526). -/
def Dev.genlock (d : Dev) (rise : Bool) (sub : Nat) : Dev :=
  if d.flag F.mg1Cfg_genEn && (d.flag F.mg1Cfg_genPol != rise) && !d.chats keyGenlock then
    ((d.put64 F.mg1GenLo F.mg1GenHi d.now).wr F.mg1GenSub sub).count F.mg1GenCnt
  else d

/-! ## Stepper commands (R411, R415, R424) -/

/-- ST_CMD is heard: the drive is QUIESCED or OFF, or the loader is idle. -/
def Dev.stCmdOk (d : Dev) (m : Nat) : Bool :=
  if m < 4 then
    let u := d.unitAt (Pg.odrDrv m)
    decide (u = .quiesced) || decide (u = .off)
  else decide (d.rd F.ldrStat = 0)

/-- ST_CMD `cmd` with the right key. -/
def Dev.stCmd (d : Dev) (m cmd : Nat) : Dev :=
  if !d.stCmdOk m then d.countIgnored (Pg.motSt m)
  else match cmd with
    | 1 => if d.flag (F.stStat_homed m) then d.axisMove m (d.rdS 32 (F.stTarget m)) 0 false else d.countIgnored (Pg.motSt m)
    | 2 => d.axisHome m 0 false
    | 3 => d.axisStop m
    | 4 => d.axisMove m 0 0 true
    | _ => d.countIgnored (Pg.motSt m)

/-- STEP_TIMER_EXPIRY; the end of a seek's move is reported to SRV. -/
def Dev.stepTimer (d : Dev) (m : Nat) : Dev :=
  let x := d.axis m
  let d := d.stepExpires m
  if m < 4 ∧ x.st = 2 ∧ x.why = 1 ∧ (d.axis m).st = 0 ∧ d.pos m = x.target then d.seekMoved m else d

/-- HOMING ends without HOME: HOME_TMO passed, LIMIT_B stopped it, or HOME is CHATTER. -/
def Dev.homeTimeout (d : Dev) (m : Nat) : Dev :=
  let x := d.axis m
  if x.st = 3 ∧ (d.rd (F.stHome_homeTmo m) * 400 ≤ d.since x.began ∨ d.active (keyB m) ∨ d.chats (keyHome m)) then d.homeFails m
  else d

/-! ## Meanings -/

/-- SHOCK_INPUT (R320). -/
def execShockInput (drive ns : Nat) (s : State) : Host.Outcome State Fault Refusal := run s (·.shock drive ns true)

/-- SHOCK_RELEASE (R320). -/
def execShockRelease (drive : Nat) (s : State) : Host.Outcome State Fault Refusal := run s (·.shock drive 0 false)

/-- STEP_TIMER_EXPIRY (R412). -/
def execStepTimerExpiry (axis : Nat) (s : State) : Host.Outcome State Fault Refusal := run s (·.stepTimer axis)

/-- HOLD_CURRENT_TIMER (R413). -/
def execHoldCurrentTimer (axis : Nat) (s : State) : Host.Outcome State Fault Refusal := run s (·.holdCurrent axis)

/-- CHOPPER_COMPARATOR (R414). -/
def execChopperComparator (axis phase since ty tr tx tf : Nat) (s : State) : Host.Outcome State Fault Refusal :=
  run s (·.chop axis phase since ty tr tx tf)

/-- ST_CMD_MOVE (R411). -/
def execStCmdMove (axis : Nat) (s : State) : Host.Outcome State Fault Refusal :=
  run s fun d => d.asWrite (Pg.motSt axis) (·.stCmd axis 1)

/-- ST_CMD_HOME (R415). -/
def execStCmdHome (axis : Nat) (s : State) : Host.Outcome State Fault Refusal :=
  run s fun d => d.asWrite (Pg.motSt axis) (·.stCmd axis 2)

/-- ST_CMD_STOP (R411). -/
def execStCmdStop (axis : Nat) (s : State) : Host.Outcome State Fault Refusal :=
  run s fun d => d.asWrite (Pg.motSt axis) (·.stCmd axis 3)

/-- ST_CMD_PARK (R411). -/
def execStCmdPark (axis : Nat) (s : State) : Host.Outcome State Fault Refusal :=
  run s fun d => d.asWrite (Pg.motSt axis) (·.stCmd axis 4)

/-- HOME_INPUT (R415). -/
def execHomeInput (axis : Nat) (on : Bool) (s : State) : Host.Outcome State Fault Refusal := run s (·.homeInput axis on)

/-- HOME_FAIL (R415). -/
def execHomeFail (axis : Nat) (s : State) : Host.Outcome State Fault Refusal := run s (·.homeTimeout axis)

/-- LIMIT_INPUT (R415). -/
def execLimitInput (axis side : Nat) (on : Bool) (s : State) : Host.Outcome State Fault Refusal := run s (·.limitInput axis side on)

/-- ESTOP (R410). -/
def execEstop (s : State) : Host.Outcome State Fault Refusal := run s fun d => (d.setLevel keyEstop true).estop

/-- ESTOP_N_RELEASE (R410). -/
def execEstopNRelease (s : State) : Host.Outcome State Fault Refusal := run s fun d => (d.setLevel keyEstop false).showMot

/-- MOT_CTRL_ESTOP_CLR (R410). -/
def execMotCtrlEstopClr (value : Nat) (s : State) : Host.Outcome State Fault Refusal :=
  run s fun d => d.asWrite Pg.motReg (·.estopClr value)

/-- CHATTER (R417). -/
def execChatter (key : Nat) (s : State) : Host.Outcome State Fault Refusal := run s (·.chatter key)

/-- CHATTER_CLEAR (R417). -/
def execChatterClear (key : Nat) (level : Bool) (s : State) : Host.Outcome State Fault Refusal := run s (·.chatterClear key level)

/-- IN_STUCK (R418). -/
def execInStuck (drive : Nat) (s : State) : Host.Outcome State Fault Refusal := run s (·.inStuck drive)

/-- GENLOCK_EDGE (R526). -/
def execGenlockEdge (rise : Bool) (sub : Nat) (s : State) : Host.Outcome State Fault Refusal := run s (·.genlock rise sub)

end Sys2Proof.Machine
end

