-- ==== Sys2Proof/Machine/Loader.lean ====
section
/-! DEFINITION. The loader's sequences, mounting and ejecting Shells, and identifying and unloading discs (R264, R265, R267–R274,
R277, R419–R421). -/
namespace Sys2Proof.Machine
open Sys2Proof

/-! ## The loader's record -/

def Dev.ldr (d : Dev) : Loader := d.odr.loader
def Dev.onLdr (d : Dev) (f : Loader → Loader) : Dev := d.onOdr fun o => { o with loader := f o.loader }

/-- A field of a command capsule: `k` bytes from byte `i` (R452). -/
def Cmd.arg (c : Cmd) (i k : Nat) : Nat := fieldAt c.args i k

/-! ## Steps (R419, R420) -/

/-- The steps of a sequence: in each, axes with their targets; an axis without a target is the gripper closing. -/
def Dev.ldrSteps (d : Dev) (op : LdrOp) : List (List (Nat × Option Int)) :=
  let r (f : RegField) : Int := d.rdS 32 f
  let out := [(6, some (r F.motLdrReachOut))]
  let opens := [(7, some (r F.motLdrGripOpen))]
  let close : List (Nat × Option Int) := [(7, none)]
  let atSlot (s : Nat) := [(4, some (r F.motLdrCarSlot0 + (s : Int) * r F.motLdrCarPitch)), (5, some (r F.motLdrLiftSlot))]
  let atDisc (i : Nat) := (5, some (r F.motLdrLiftDisc0 + (i : Int) * r F.motLdrLiftPitch))
  let bayShell := [(4, some (r F.motLdrCarBay)), (5, some (r F.motLdrLiftBay))]
  let bayDisc (i : Nat) := [(4, some (r F.motLdrCarBay)), atDisc i]
  let atDrive (n : Nat) := [(4, some (r (F.motLdrCarDrv n))), (5, some (r (F.motLdrLiftDrv n)))]
  let inSlot := [(6, some (r F.motLdrReachSlot))]
  let inBay := [(6, some (r F.motLdrReachBay))]
  let inDrive := [(6, some (r F.motLdrReachDrv))]
  match op with
  | .toBay s => [out, atSlot s, opens, inSlot, close, out, bayShell, inBay, opens, out]
  | .toSlot s => [out, bayShell, opens, inBay, close, out, atSlot s, inSlot, opens, out]
  | .count => ((List.range 12).map (fun i => [out, [atDisc i], opens, inBay, close, opens, out])).flatten
  | .toDrive i n => [out, bayDisc i, opens, inBay, close, out, atDrive n, inDrive, opens, out]
  | .toDisc n i => [out, atDrive n, opens, inDrive, close, out, bayDisc i, inBay, opens, out]
  | .home => []
  | .visit s => [out, atSlot s, opens, inSlot, close, opens, out]

/-- Homing goes gripper, reach, lift, carousel. -/
def ldrHomeOrder : List Nat := [7, 6, 5, 4]

/-- MOT_LDR_STEP's code of a sequence; an inventory has none. -/
def ldrCode : LdrOp → Nat
  | .toBay _ => 1
  | .toSlot _ => 2
  | .count => 3
  | .toDrive .. => 4
  | .toDisc .. => 5
  | .home => 6
  | .visit _ => 0

/-- LDR_STAT.STATE while a sequence runs. -/
def ldrStatCode : LdrOp → Nat
  | .home => 1
  | .visit _ => 2
  | _ => 3

/-- The axis that the step homes: the next one of a homing, or before a sequence one that is not HOMED. -/
def Dev.ldrHomes (d : Dev) (op : LdrOp) : Option Nat :=
  match op with
  | .home => ldrHomeOrder[d.ldr.step]?
  | _ => if d.ldr.step = 0 then ldrHomeOrder.find? (fun m => !d.flag (F.stStat_homed m)) else none

/-- The current step starts: its axes move. Answers whether there was one. -/
def Dev.ldrStep (d : Dev) (op : LdrOp) : Bool × Dev :=
  match d.ldrHomes op with
  | some m =>
    let d := d.onLdr fun l => { l with homing := true, axes := [m], stepAt := d.now }
    let d := (d.wr F.motLdrStep_sequence 6).wr F.motLdrStep_step d.ldr.step
    (true, d.axisHome m 2 false)
  | none =>
    match (d.ldrSteps op)[d.ldr.step]? with
    | none => (false, d)
    | some moves =>
      let d := d.onLdr fun l => { l with homing := false, axes := moves.map (·.1), stepAt := d.now }
      let d := (d.wr F.motLdrStep_sequence (ldrCode op)).wr F.motLdrStep_step d.ldr.step
      (true, moves.foldl (fun (d : Dev) x => d.axisMove x.1 (x.2.getD (2 ^ 31 - 1)) 2 false) d)

/-- Every axis of the step has ended where the step takes it. -/
def Dev.ldrStepOver (d : Dev) (op : LdrOp) : Bool :=
  let l := d.ldr
  if l.homing then l.axes.all (fun m => decide ((d.axis m).st = 0) && d.flag (F.stStat_homed m))
  else match (d.ldrSteps op)[l.step]? with
    | none => false
    | some moves => moves.all (fun x => decide ((d.axis x.1).st = 0) && (match x.2 with
      | some t => decide (d.pos x.1 = t)
      | none => d.active (keyA 7) || d.active (keyB 7)))

/-- The step closes the gripper. -/
def Dev.ldrCloses (d : Dev) (op : LdrOp) : Bool := !d.ldr.homing && (d.ldrSteps op)[d.ldr.step]? == some [(7, none)]

/-- A sequence that may start: a disc leaves a drive only when its spindle is OFF with STILL. -/
def Dev.ldrMayStart (d : Dev) : LdrOp → Bool
  | .toDisc n _ => decide ((d.spin n).st = 0) && d.flag (F.spStat_still n)
  | _ => true

/-- The next sequence that may start is started; none waits: IDLE. -/
def Dev.ldrNext (d : Dev) : Dev :=
  if d.ldr.cur.isSome || d.loaderFenced then d
  else match d.ldr.ops.find? d.ldrMayStart with
    | none => ((d.wr F.ldrStat 0).wr F.motLdrStep_sequence 0).wr F.motLdrStep_step 0
    | some op =>
      let d := d.onLdr fun l => { l with ops := l.ops.erase op, cur := some op, step := 0, found := 0, opAt := d.now }
      ((d.wr F.ldrStat (ldrStatCode op)).ldrStep op).2

def Dev.ldrQueue (d : Dev) (ops : List LdrOp) : Dev := (d.onLdr fun l => { l with ops := l.ops ++ ops }).ldrNext

/-! ## Mounting (R272) -/

/-- The mount's command ends; `back` returns the Shell to its slot, for no command (log entry 41). -/
def Dev.mountEnds (d : Dev) (status : Nat) (cat : Option Nat) (back : Bool) : Dev :=
  match d.ldr.mount with
  | none => d
  | some m =>
    let d := d.cmdEnds m.arrival status (cat.getD 0) 0 0
    d.onLdr fun l => { l with
      mount := none, ops := l.ops.filter (· != .count), eject := if back then some ⟨0, cat, m.slot⟩ else l.eject }

/-- MOUNT_SHELL: by catalogue index or by slot. -/
def Dev.mountStart (d : Dev) (a cat slot : Nat) (bySlot : Bool) : Dev :=
  let l := d.ldr
  let ends (st r : Nat) : Dev := d.cmdEnds a st r 0 0
  let known := if bySlot then d.catAtSlot slot else some cat
  let busy := d.flag F.ldrBay_valid || l.mount.isSome || l.eject.isSome
  let st := (known.map (fun c => (d.catEnt c).st)).getD 1
  if bySlot ∧ d.rd F.ldrCfg_slots ≤ slot then ends 0x22 0
  else if st = 2 ∧ l.eject.isNone then ends 0 (known.getD 0)
  else if busy then ends 0x43 0
  else if st = 0 then ends 0x22 0
  else if st = 3 then ends 0x44 0
  else if d.loaderFenced then ends 0x60 0
  else
    let slot := if bySlot then slot else (d.catEnt cat).slot
    (d.onLdr fun l => { l with mount := some ⟨a, known, slot⟩ }).ldrQueue [.toBay slot, .count]

/-- A drive for the first disc of a Shell that is being mounted; a Shell of unknown format goes to any. -/
def Dev.mountDrive (d : Dev) (cat : Option Nat) : Option Nat :=
  let fmt := (cat.map (fun c => (d.catEnt c).format)).getD 0
  (List.range 4).find? (fun n => if fmt = 0 then d.canLoad 1 n || d.canLoad 2 n else d.canLoad fmt n)

/-- The first present disc of the Shell in the bay is loaded to be identified. -/
def Dev.mountLoads (d : Dev) : Dev :=
  match d.ldr.mount with
  | none => d
  | some m =>
    if !d.flag F.ldrBay_valid || d.ldr.cur.isSome || !d.ldr.ops.isEmpty || (List.range 4).any (fun n => decide (d.drvState n ≠ 0)) then d
    else match (List.range 12).find? (fun i => (d.rd F.ldrBay_discs).testBit i) with
      | none => (d.raise Pg.odrLdr Er.odrLdr_discAbsent).mountEnds 0x47 m.cat true
      | some i =>
        match d.mountDrive m.cat with
        | none => d
        | some n =>
          (((d.wr (F.drvStat_state n) 1).wr (F.drvStat_disc n) i).wr (F.drvShell n) (m.cat.getD 0)).ldrQueue [.toDrive i n]

/-- A Shell is catalogued: its identity in the slot it came from. A Shell first catalogued takes the lowest EMPTY entry (R269). -/
def Dev.catalogue (d : Dev) (shell slot format : Nat) : Option Nat × Dev :=
  match d.catFind shell with
  | some c => (some c, d.onCat c fun e => { e with st := 1, slot := slot })
  | none =>
    match (if d.injected Pg.odrLdr Er.odrLdr_catFull then none else d.catFree) with
    | none => (none, (d.takeInjected Pg.odrLdr Er.odrLdr_catFull).raise Pg.odrLdr Er.odrLdr_catFull)
    | some c => (some c, d.setCat c ⟨shell, 1, slot, format, 0, 0, List.replicate 12 0, d.rd F.sflTime, 0⟩)

/-- The Shell's entry is MOUNTED and the mount's command completes. -/
def Dev.mountDone (d : Dev) (c n : Nat) : Dev :=
  let d := d.onCat c fun e => { e with
    st := 2, present := d.rd F.ldrBay_discs, format := if d.ad8 n then 2 else 1 }
  let d := (d.wr F.ldrBay_index c).wr (F.drvShell n) c
  let shell := (d.catEnt c).shell
  let d := (List.range 4).foldl (fun (d : Dev) x =>
    let kept := decide (x ≠ n) && d.driveOn x && d.flag (F.drvCtrl_hold x) && (match (d.drive x).disc with
      | some k => decide (k.shell = shell)
      | none => false)
    if kept then ((d.wr (F.drvShell x) c).wr (F.drvCtrl_hold x) 0).unloadStart x else d) d
  d.mountEnds 0 (some c) false

/-! ## Ejecting (R272) -/

/-- EJECT_SHELL: the Shell's open runs close. -/
def Dev.ejectStart (d : Dev) (a c : Nat) (toIo : Bool) : Dev :=
  let ends (st : Nat) : Dev := d.cmdEnds a st 0 0 0
  let l := d.ldr
  let here : Option ShellMove → Bool := fun m => (m.map (fun m => m.cat == some c)).getD false
  if here l.mount ∨ here l.eject then ends 0x43
  else if (d.catEnt c).st ≠ 2 then ends 0x42
  else if l.eject.isSome then ends 0x43
  else if d.loaderFenced then ends 0x60
  else
    let slot := if toIo then d.rd F.ldrCfg_ioSlot else (d.catEnt c).slot
    let d := d.onLdr fun l => { l with eject := some ⟨a, some c, slot⟩ }
    (d.runs.filter (fun e => e.2.runCat == c)).foldl (fun (d : Dev) e => d.sjPut e.1 (e.2.putFlag 1 true)) d

/-- Work for a Shell goes on: commands accepted, band-rows wanted or to be recorded, or runs not covered. -/
def Dev.shellBusy (d : Dev) (c : Nat) : Bool :=
  d.odr.wants.any (fun w => w.cat == c) || d.odr.recs.any (fun r => r.cat == c) || d.runs.any (fun e => e.2.runCat == c) ||
    d.hat.cmds.any (fun x => (x.op == 6 || x.op == 7) && x.arg 20 2 == c && x.started && x.verdict.isNone)

/-- An eject goes on: discs leave their drives, then the Shell goes to its slot. -/
def Dev.ejectGoes (d : Dev) : Dev :=
  match d.ldr.eject with
  | none => d
  | some m =>
    if (m.cat.map d.shellBusy).getD false ∧ m.arrival ≠ 0 then d
    else
      let stays (d : Dev) (n : Nat) : Bool := decide (d.unitAt (Pg.odrDrv n) = .fenced)
      let d := (List.range 4).foldl (fun (d : Dev) n => if d.driveBusy n ∨ stays d n then d else d.unloadStart n) d
      if (List.range 4).all (fun n => decide (d.drvState n = 0) || stays d n) && d.ldr.cur.isNone && d.ldr.ops.isEmpty && d.flag F.ldrBay_valid then
        d.ldrQueue [.toSlot m.slot]
      else d

/-- Drives whose disc stays behind when its Shell goes: they are fenced (R496). -/
def Dev.leftBehind (d : Dev) (c : Nat) : List Nat :=
  (List.range 4).filter (fun n => decide (d.drvState n ≠ 0) && d.rd (F.drvShell n) == c && decide (d.unitAt (Pg.odrDrv n) = .fenced))

/-- The drive is ACTIVE again with a disc on it: the disc goes into the Shell in the bay if it is its own, else it is held (R496). -/
def Dev.discReturns (d : Dev) (n : Nat) : Dev :=
  if d.drvState n = 0 then d
  else
    let own := match (d.drive n).disc with
      | some k => d.flag F.ldrBay_valid && decide ((d.catEnt (d.rd F.ldrBay_index)).st = 2) &&
          decide ((d.catEnt (d.rd F.ldrBay_index)).shell = k.shell)
      | none => false
    if own then d.unloadStart n else d.wr (F.drvCtrl_hold n) 1

/-! ## The ends of sequences -/

def Dev.showSlot (d : Dev) (s : Nat) (occ : Bool) (cat : Option Nat) : Dev :=
  ((d.wrB (F.ldrSlot_occ s) occ).wrB (F.ldrSlot_known s) (occ && cat.isSome)).wr (F.ldrSlot_index s) (if occ then cat.getD 0 else 0)

/-- Nothing is on a drive. -/
def Dev.driveEmpty (d : Dev) (n : Nat) : Dev :=
  let d := (((d.wr (F.drvStat_state n) 0).wr (F.drvStat_disc n) 15).wr (F.drvStat_format n) 0).wr (F.drvStat_rdonly n) 0
  let d := (((d.wr (F.drvShell n) 0).wr (F.drvNwb n) 0).wr (F.drvDdl_blocks n) 0).wr (F.drvDdl_pending n) 0
  let d := d.when (decide ((d.pendRec n).disc ≠ 15) && (d.pendRec n).ents.isEmpty) (·.mramPut 1 fun m => { m with pend := Map.erase m.pend n })
  (d.wr (F.drvSpare n) 0).onDrive n fun v => { v with disc := none, reads := [], beams := [], rec_ := Recorder.reset }

/-- A Shell is not where it should be: NO_SHELL; its entry is OFFLINE. -/
def Dev.noShell (d : Dev) (cat : Option Nat) : Dev :=
  let d := d.raise Pg.odrLdr Er.odrLdr_noShell
  match cat with
  | some c => d.onCat c fun e => { e with st := 3 }
  | none => d

/-- What a disc is until its lead-in has been read. -/
def blankDisc (ad8 : Bool) : DiscSt := ⟨ad8, [], [], [], 0, none, 0, [], [], false⟩

/-- A sequence has ended; `empty`: the gripper found nothing. -/
def Dev.ldrEnds (d : Dev) (op : LdrOp) (empty : Bool) : Dev :=
  match op with
  | .toBay s =>
    let cat := d.ldr.mount.bind (·.cat)
    let d := d.showSlot s false none
    if empty then (d.noShell cat).mountEnds 0x44 cat false
    else ((d.wr F.ldrBay_valid 1).wr F.ldrBay_index (cat.getD 0)).wr F.ldrBay_discs 0
  | .count =>
    let d := d.wr F.ldrBay_discs d.ldr.found
    match d.ldr.mount.bind (·.cat) with
    | some c => d.onCat c fun e => { e with present := d.rd F.ldrBay_discs }
    | none => d
  | .toSlot s =>
    let d := ((d.wr F.ldrBay_valid 0).wr F.ldrBay_index 0).wr F.ldrBay_discs 0
    match d.ldr.eject with
    | none => d
    | some m =>
      let d := d.onLdr fun l => { l with eject := none }
      if empty then (d.noShell m.cat).cmdEnds m.arrival 0x44 0 0 0
      else
        let d := d.showSlot s true m.cat
        let left := d.leftBehind (m.cat.getD 65536)
        let d := left.foldl (fun (d : Dev) n =>
          (d.saveNwb n).onCat (m.cat.getD 0) fun e => { e with present := setBit e.present (d.rd (F.drvStat_disc n)) false }) d
        let d := match m.cat with
          | some c => (d.onCat c fun e => { e with st := 1, slot := s }).onOdr fun o =>
            { o with idents := Map.dropWindow o.idents (16 * c) (16 * c + 16) }
          | none => d
        d.cmdEnds m.arrival (if left.isEmpty then 0 else 0x47) 0 0 0
  | .toDrive i n =>
    let c := d.rd (F.drvShell n)
    if empty then
      let d := (d.raise Pg.odrLdr Er.odrLdr_discAbsent i).wr F.ldrBay_discs (setBit (d.rd F.ldrBay_discs) i false)
      let d := (d.dropWants c i 0x47).driveEmpty n
      if d.ldr.mount.isSome then d else (d.onCat c fun e => { e with present := setBit e.present i false }).dropRecs c i
    else
      let d := ((d.wr (F.drvStat_state n) 2).count (F.drvCnt n 0)).onDrive n fun v => { v with disc := some (blankDisc (d.ad8 n)) }
      (d.onLdr fun l => { l with cur := none }).spinUp n
  | .toDisc n i =>
    if empty then (d.raise Pg.odrLdr Er.odrLdr_discAbsent i).driveEmpty n
    else
      let d := d.wr F.ldrBay_discs (setBit (d.rd F.ldrBay_discs) i true)
      (d.onCat (d.rd F.ldrBay_index) fun e => if e.st = 2 then { e with present := setBit e.present i true } else e).driveEmpty n
  | .home => d
  | .visit s =>
    if empty then
      let d := d.showSlot s false none
      match d.catAtSlot s with
      | some c => if (d.catEnt c).st = 1 then d.onCat c fun e => { e with st := 3 } else d
      | none => d
    else d.showSlot s true (d.catAtSlot s)

/-- LOADER_STEP_DONE: every axis of the step has ended; the next step starts, or the sequence ends. -/
def Dev.ldrStepDone (d : Dev) : Dev :=
  match d.ldr.cur with
  | none => d
  | some op =>
    if !d.ldrStepOver op then d
    else
      let held := d.active (keyA 7) && !d.active (keyB 7)
      let last := (d.ldrSteps op).length - 1
      let d := if d.ldr.homing then (if op = .home then d.onLdr fun l => { l with step := l.step + 1 } else d)
        else if d.ldrCloses op then match op with
          | .count => d.onLdr fun l => { l with step := l.step + 1, found := setBit l.found (l.step / 7) held }
          | .visit _ => d.onLdr fun l => { l with step := l.step + 1, found := if held then 1 else 2 }
          | _ => d.onLdr fun l => if held then { l with step := l.step + 1, found := 1 } else { l with step := last, found := 2 }
        else d.onLdr fun l => { l with step := l.step + 1 }
      let (more, d) := d.ldrStep op
      if more then d
      else
        let empty := decide (op ≠ .count) && decide (d.ldr.found = 2)
        ((d.ldrEnds op empty).onLdr fun l => { l with cur := none }).ldrNext

/-- LOADER_STEP_TIMEOUT: a step longer than MOT_LDR_TMO, a Shell's move over 15 s or a disc's over 5 s: AXIS_FAIL. -/
def Dev.ldrTimeout (d : Dev) : Dev :=
  match d.ldr.cur with
  | none => d
  | some op =>
    let bound := match op with
      | .toBay _ => some 6000000
      | .toSlot _ => some 6000000
      | .toDrive .. => some 2000000
      | .toDisc .. => some 2000000
      | _ => none
    let late := match bound with
      | some b => decide (b < d.since d.ldr.opAt)
      | none => false
    if d.rd F.motLdrTmo * 400 < d.since d.ldr.stepAt ∨ late = true then d.ldrFails else d

/-- The loader is fenced: what it was doing is given up; discs on their way to a drive are not served (log entry 41). -/
def Dev.ldrAbandon (d : Dev) : Dev :=
  let l := d.ldr
  let stop : Option ShellMove → Dev → Dev := fun m d => match m with
    | some m => d.cmdEnds m.arrival 0x60 0 0 0
    | none => d
  let d := stop l.eject (stop l.mount d)
  let keep : LdrOp → Bool := fun o => match o with
    | .toDisc .. => true
    | _ => false
  let ops := (l.cur.toList ++ l.ops).filter keep
  let d := d.onLdr fun l => { l with ops := ops, cur := none, axes := [], mount := none, eject := none }
  let d := (List.range 4).foldl (fun (d : Dev) n => if d.drvState n = 1 then d.driveEmpty n else d) d
  let gone := d.needed.filter (fun x => (d.discOn x.1 x.2).isNone)
  let d := gone.foldl (fun (d : Dev) x => (d.dropWants x.1 x.2 0x60).dropRecs x.1 x.2) d
  ((d.wr F.ldrStat 0).wr F.motLdrStep_sequence 0).wr F.motLdrStep_step 0

/-! ## Identifying a disc (R264, R265, R268, R274) -/

/-- A valid identity block. -/
def dibOk (b : List Byte) : Bool := decide (fieldAt b 0 4 = 0xD1B00032) && decide (crc32c (slice b 0 60) = fieldAt b 60 4)

/-- Blocks of the defect list in order: their number, the last NWB, their entries, and whether a block could not be read. -/
def readDdl (ad8 : Bool) : Nat → List (Option (List Byte) × Option (List Byte)) → Nat × Nat × List DdlEnt × Bool
  | n, [] => (n - 1, 0, [], false)
  | n, (a, b) :: rest =>
    let got := match a.bind (ddlBlockRead ad8 n) with
      | some x => some x
      | none => b.bind (ddlBlockRead ad8 n)
    let (blocks, nwb, ents, bad) := readDdl ad8 (n + 1) rest
    match got with
    | some (w, es) => (blocks, max w nwb, es ++ ents, bad)
    | none => (blocks, nwb, ents, true)

/-- Calibrations of a drive that are REQUIRED (R435). -/
def Dev.uncal (d : Dev) (n : Nat) : Bool := (List.range 10).any (fun k => d.flag (F.calRecReq (16 + 16 * n + k)))

/-- The MIGRATE and VERIFY commands that brought a disc of the wrong format to its drive report it in their completion (R7). -/
def Dev.tellMismatch (d : Dev) (c i : Nat) : Dev :=
  let migrates := (d.odr.recs.filter (fun r => r.cat == c && r.disc == i)).filterMap (fun r => match r.why with
    | .migrate a _ => some a
    | _ => none)
  let verifies := (d.odr.wants.filter (fun w => w.cat == c && w.disc == i)).filterMap (fun w => match w.why with
    | .verify a => some a
    | _ => none)
  (uniq (migrates ++ verifies)).foldl (fun (d : Dev) a => d.onCmd a fun x => { x with brought := true }) d

/-- The disc is not to be used: it is unloaded, its commands end, and so does a mount that loaded it. -/
def Dev.refuseDisc (d : Dev) (n status : Nat) : Dev :=
  let c := d.rd (F.drvShell n)
  let i := d.rd (F.drvStat_disc n)
  let d := d.when (decide (status = 0x41)) (·.tellMismatch c i)
  let d := ((d.dropWants c i status).dropRecs c i).unloadStart n
  d.mountEnds status (d.ldr.mount.bind (·.cat)) true

/-- The disc is known to belong to catalogued Shell `c`: its defect list, NWB and read-only causes; READY. -/
def Dev.discReadyNow (d : Dev) (n c shell : Nat) (dib : Option Nat) (blank : Bool) (x : LeadIn) : Dev :=
  let i := d.rd (F.drvStat_disc n)
  let (blocks, ddlNwb, ents, bad) := if blank then (0, 0, [], false) else readDdl x.ad8 1 x.ddl
  let p := d.pendRec n
  let mine := p.shell == shell && p.disc == i
  let p : PendRec := if mine then p else ⟨shell, i, 0, []⟩
  let d := d.mramPut 2 fun m => { m with pend := Map.put m.pend n p }
  let d := d.onDrive n fun v => { v with disc := some ⟨x.ad8, x.zones, x.serial, ents ++ p.ents, blocks, dib, shell, x.ref, [], false⟩ }
  let d := (d.wr (F.drvStat_format n) (if x.ad8 then 2 else 1)).wr (F.drvShell n) c
  let d := d.when bad fun d => (d.raise (Pg.odrDrv n) Er.odrDrv_ddlUe).setRdonly n 0
  let d := d.when (d.uncal n) fun d => (d.raise Pg.calReg Er.calReg_uncal n).setRdonly n 2
  let d := d.when ((d.catEnt c).closed.testBit i) fun d => d.onDisc n fun k => { k with stopped := true }
  let start := max ddlNwb (max ((d.catEnt c).nwbs.getD i 0) p.nwb)
  let d := if blank then d.setNwb n 0 else d.nwbFrom n start x.blankFrom x.belowOk false
  let d := (d.wr (F.drvStat_state n) 3).onDrive n fun v => { v with used := d.now }
  ((d.showDisc n).tapsReset n).tablesDue n

/-- The catalogue entry and Shell a disc is expected to belong to: those of the Shell in the bay; without one, the Shell that the
pending record of a disc found on its drive at start-up names (R263, R486). -/
def Dev.expectedShell (d : Dev) (n : Nat) : Nat × Nat :=
  let c := d.rd (F.drvShell n)
  let p := d.pendRec n
  if d.flag F.ldrBay_valid || p.disc != d.rd (F.drvStat_disc n) then (c, (d.catEnt c).shell)
  else ((d.catFind p.shell).getD c, p.shell)

/-- DISC_IDENTIFY: the checks of R274 in order; the first disc of a Shell that is being mounted says whose the Shell is. -/
def Dev.identify (d : Dev) (n : Nat) (x : LeadIn) : Dev :=
  if d.drvState n ≠ 2 then d
  else if !x.fibOk || (!x.ad8 && !zonesOk x.zones) || d.injected (Pg.odrDrv n) Er.odrDrv_fibBad then
    ((d.takeInjected (Pg.odrDrv n) Er.odrDrv_fibBad).raise (Pg.odrDrv n) Er.odrDrv_fibBad).refuseDisc n 0x40
  else if x.ad8 != d.ad8 n || d.injected (Pg.odrDrv n) Er.odrDrv_formatMismatch then
    ((d.takeInjected (Pg.odrDrv n) Er.odrDrv_formatMismatch).raise (Pg.odrDrv n) Er.odrDrv_formatMismatch).refuseDisc n 0x41
  else
    let best := (x.dibs.filter (fun b => dibOk b.2)).foldl (fun (m : Option (Nat × List Byte)) b => match m with
      | some y => if y.1 < b.1 then some b else some y
      | none => some b) none
    let id := if x.ad8 then some (fieldAt x.serial 0 8) else best.map (fun b => fieldAt b.2 4 8)
    let dib := best.map (·.1)
    let fmt := if x.ad8 then 2 else 1
    match d.ldr.mount with
    | none =>
      let (c, mine) := d.expectedShell n
      match id with
      | some s =>
        if s ≠ mine ∨ d.injected (Pg.odrDrv n) Er.odrDrv_foreign then
          ((d.takeInjected (Pg.odrDrv n) Er.odrDrv_foreign).raise (Pg.odrDrv n) Er.odrDrv_foreign).refuseDisc n 0x40
        else d.discReadyNow n c s dib false x
      | none => d.discReadyNow n c mine none true x
    | some m =>
      match m.cat, id with
      | some c, none => (d.discReadyNow n c (d.catEnt c).shell none true x).mountDone c n
      | some c, some s =>
        if s = (d.catEnt c).shell then (d.discReadyNow n c s dib false x).mountDone c n
        else
          let d := (d.raise Pg.odrLdr Er.odrLdr_wrongShell).onCat c fun e => { e with st := 3 }
          let (c', d) := d.catalogue s m.slot fmt
          (d.unloadStart n).mountEnds (if c'.isSome then 0x45 else 0x46) c' true
      | none, _ =>
        let (shell, d) := match id with
          | some s => (s, d)
          | none => d.newShellId
        match d.catalogue shell m.slot fmt with
        | (none, d) => (d.unloadStart n).mountEnds 0x46 none true
        | (some c, d) => (d.discReadyNow n c shell dib id.isNone x).mountDone c n

/-! ## Unloading (R263, R273) -/

/-- The disc leaves its drive: pending entries recorded, NWB saved, the spindle stopped, then the loader takes it. -/
def Dev.discUnload (d : Dev) (n : Nat) : Dev :=
  let i := d.rd (F.drvStat_disc n)
  if d.drvState n ≠ 4 ∨ d.driveBusy n ∨ (d.ldr.cur.toList ++ d.ldr.ops).contains (.toDisc n i) then d
  else
    let known := match (d.drive n).disc with
      | some k => decide (k.shell ≠ 0)
      | none => false
    let d := d.when known fun d => (d.ddlRecord n).saveNwb n
    (d.stopSpin n).ldrQueue [.toDisc n i]

/-- What the loader and the drives do by themselves in a tick: discs wanted are loaded, an idle drive on HOLD gives its disc up,
servos of discs at speed start, mounts and ejects go on, and sequences that waited start. -/
def Dev.ldrTick (d : Dev) : Dev :=
  let d := (List.range 4).foldl (fun (d : Dev) n =>
    let d := if d.drvState n = 3 ∧ d.flag (F.drvCtrl_hold n) ∧ !d.driveBusy n then d.unloadStart n else d
    if (d.drvState n = 2 ∨ d.drvState n = 3) ∧ d.flag (F.spStat_atSpeed n) then d.servoStart n else d) d
  (d.mountLoads.ejectGoes.loads).ldrNext

/-! ## Meanings -/

/-- DISC_IDENTIFY (R274). -/
def execDiscIdentify (drive : Nat) (lead : LeadIn) (s : State) : Host.Outcome State Fault Refusal := run s (·.identify drive lead)

/-- DISC_UNLOAD (R263). -/
def execDiscUnload (drive : Nat) (s : State) : Host.Outcome State Fault Refusal := run s (·.discUnload drive)

/-- LDR_CTRL.ACT is written: heard only while the loader is IDLE. -/
def Dev.ldrAct (d : Dev) (ops : List LdrOp) : Dev := if d.rd F.ldrStat ≠ 0 then d.countIgnored Pg.odrLdr else d.ldrQueue ops

/-- LDR_INVENTORY (R271). -/
def execLdrInventory (s : State) : Host.Outcome State Fault Refusal :=
  run s fun d => d.asWrite Pg.odrLdr fun d => d.ldrAct ((List.range (d.rd F.ldrCfg_slots)).map .visit)

/-- LDR_HOME (R419). -/
def execLdrHome (s : State) : Host.Outcome State Fault Refusal :=
  run s fun d => d.asWrite Pg.odrLdr fun d => d.ldrAct [.home]

/-- LOADER_STEP_DONE (R420). -/
def execLoaderStepDone (s : State) : Host.Outcome State Fault Refusal := run s (·.ldrStepDone)

/-- LOADER_STEP_TIMEOUT (R421). -/
def execLoaderStepTimeout (s : State) : Host.Outcome State Fault Refusal := run s (·.ldrTimeout)

end Sys2Proof.Machine
end

