-- ==== Sys2Proof/Machine/Calib.lean ====
section
/-! DEFINITION. Calibration: items, their conditions, measurements and results, and stepping by taps (R426–R438). What an item
measures comes with CAL_MEASURE_DONE as the sums the spec averages; the results are computed from them. -/
namespace Sys2Proof.Machine
open Sys2Proof

/-! ## Items (R426) -/

def calExists (i : Nat) : Bool := decide (i ≤ 8) || (decide (16 ≤ i) && decide (i < 80) && decide ((i - 16) % 16 ≤ 9))
/-- The drive of a drive item, and its k. -/
def calDrive (i : Nat) : Option Nat := if 16 ≤ i then some ((i - 16) / 16) else none
def calK (i : Nat) : Nat := (i - 16) % 16
/-- Items that read a reference disc; items that record on one. -/
def calReads (i : Nat) : Bool := decide (16 ≤ i) && decide (2 ≤ calK i) && decide (calK i ≤ 6)
def calWrites (i : Nat) : Bool := decide (16 ≤ i) && decide (7 ≤ calK i)

def calField (f : RegField) (signed : Bool) : CalField := ⟨f.addr, f.hi, f.lo, f.rs, signed, 0⟩

/-- The target fields of an item; the layers and groups it does not use keep their values. -/
def calTargets (item layers : Nat) : List CalField :=
  match calDrive item with
  | none =>
    if item = 0 then (List.range 8).map (fun r => calField (F.calSupGain r) false)
    else [calField (F.calStGain_a (item - 1)) false, calField (F.calStGain_b (item - 1)) false]
  | some n => match calK item with
    | 0 => [calField (F.calHeadPpm n) true]
    | 1 => (List.range 7).map (fun c => calField (F.calSpOfs n c) true) ++ (List.range 7).map (fun c => calField (F.calSpGain n c) false)
    | 2 => ((bitList 32 layers).map (fun l => ((List.range 16).map (fun z =>
        [calField (F.tsfEnt_gain n l z) false, calField (F.tsfEnt_offset n l z) true, calField (F.tsfEnt_asym n l z) true])).flatten)).flatten
    | 3 => [calField (F.srvLoopOfs_setpt (loopPage n 0)) true]
    | 4 => [calField (F.srvLoopOfs_setpt (loopPage n 1)) true]
    | 5 => (List.range 18).map (fun b => calField (F.srvLoopOfs_setpt (loopPage n (loopFine b))) true)
    | 6 => [calField (F.srvSledCfg_ustepPerTrack n) false]
    | 7 => (bitList 32 layers).map (fun l => calField (F.wrPwr_peak n l) false) ++ (List.range 18).map (fun b => calField (F.wrTrim n b) true)
    | 8 => ((stratGroups layers).map (fun g =>
        let row (s0 s1 s2 s3 : Nat → RegField) := ((List.range 8).map (fun m => [s0 m, s1 m, s2 m, s3 m].map (fun f => calField f true))).flatten
        row (F.wsLead_s0 n g) (F.wsLead_s1 n g) (F.wsLead_s2 n g) (F.wsLead_s3 n g) ++
          row (F.wsTrail_s0 n g) (F.wsTrail_s1 n g) (F.wsTrail_s2 n g) (F.wsTrail_s3 n g))).flatten
    | _ => [calField (F.wrVfy_lag n) false]

def CalField.reg (x : CalField) : RegField := ⟨x.addr, x.hi, x.lo, x.rs⟩
def CalField.width (x : CalField) : Nat := x.hi + 1 - x.lo
/-- The number that a raw field value stands for. -/
def CalField.num (x : CalField) (raw : Nat) : Int := if x.signed then sgn x.width raw else (raw : Nat)

/-- A result that lies in its field's range; HEAD_PPM within ±500 ppm. -/
def CalField.fits (x : CalField) (v : Int) : Bool :=
  if x.signed then
    let lim : Int := ((2 ^ (x.width - 1) : Nat) : Int)
    if x.width = 32 then decide (-50000 ≤ v) && decide (v ≤ 50000) else decide (-lim ≤ v) && decide (v < lim)
  else
    let f := match regAt x.addr with
      | some r => (r.fields.find? (fun (f : FieldDef) => f.lo == x.lo)).getD (fd x.hi x.lo .rw 0)
      | none => fd x.hi x.lo .rw 0
    decide (((f.min : Nat) : Int) ≤ v) && decide (v ≤ ((f.max : Nat) : Int))

/-! ## States (R427) -/

def Dev.calQueued (d : Dev) (item : Nat) : Bool := d.cal.queue.any (fun r => r.item == item)
def Dev.calSteps (d : Dev) (item : Nat) : Bool := (Map.find d.cal.stepping item).isSome
/-- CAL_REC_STAT.STATE and CAL_STAT show the items. -/
def Dev.showCal (d : Dev) (item : Nat) : Dev :=
  let st := if (d.calRunning item).isSome then 2 else if d.calSteps item then 3 else if d.calQueued item then 1 else 0
  let left := ((Map.find d.cal.stepping item).getD []).foldl (fun n x => n + (x.num x.value - x.num (d.rd x.reg)).natAbs) 0
  let d := (d.wr (F.calRecStat_state item) st).wr (F.calRecStat_taps item) (min 0xFFFF left)
  let busy := maskOf ((List.range 4).map (fun n => d.cal.running.any (fun r => calDrive r.item == some n)))
  (d.wr F.calStat_queued d.cal.queue.length).wr F.calStat_measuring busy

def Dev.calOutcome (d : Dev) (item outcome cause : Nat) : Dev :=
  ((d.wr (F.calRecStat_outcome item) outcome).wr (F.calRecStat_cause item) cause).showCal item

/-- An item leaves the queue and measuring, refused (outcome 2) or aborted (outcome 3) with a cause (R429, R437). -/
def Dev.calStops (d : Dev) (item outcome cause : Nat) : Dev :=
  let d := d.onCal fun c => { c with
    queue := c.queue.filter (fun r => r.item != item), running := c.running.filter (fun r => r.item != item) }
  let d := d.onOdr fun o => { o with
    wants := o.wants.filter (fun w => w.why != .cal item), recs := o.recs.filter (fun r => r.why != .test item) }
  let d := d.calOutcome item outcome cause
  let d := if outcome = 2 then (d.raise Pg.calReg Er.calReg_refused item).count (F.calCnt 1)
    else (d.raise Pg.calReg Er.calReg_aborted item).count (F.calCnt 2)
  let d := d.when (decide (cause = 2)) (·.raise Pg.calReg Er.calReg_vrefBad item)
  d.when (decide (cause = 4) || decide (cause = 5)) (·.raise Pg.calReg Er.calReg_cert item)

/-- CAL_RUN names an item. -/
def Dev.calQueue (d : Dev) (item disc layers : Nat) : Dev :=
  if 16 ≤ d.cal.queue.length ∨ !calExists item ∨ d.calQueued item ∨ (d.calRunning item).isSome then d.countIgnored Pg.calReg item
  else (d.onCal fun c => { c with queue := c.queue ++ [⟨item, disc, layers, 0, []⟩] }).showCal item

/-- CAL_RUN.ABORT names an item. -/
def Dev.calAbort (d : Dev) (item : Nat) : Dev :=
  if d.calQueued item ∨ (d.calRunning item).isSome then d.calStops item 3 12
  else if calExists item then d else d.countIgnored Pg.calReg item

/-- A CAL_RUN write without ABORT, and with it. -/
def Dev.calRunWrite (d : Dev) (v : Nat) : Dev :=
  if bitsOf v 31 24 ≠ 0xCA then d.countIgnored Pg.calReg else d.calQueue (bitsOf v 6 0) (bitsOf v 23 20) (d.rd F.calRunLayers)
def Dev.calAbortWrite (d : Dev) (v : Nat) : Dev :=
  if bitsOf v 31 24 ≠ 0xCA then d.countIgnored Pg.calReg else d.calAbort (bitsOf v 6 0)

/-! ## Conditions (R429, R432) -/

def refRole (ref : List Byte) : Nat := fieldAt ref 4 1
def refCert (ref : List Byte) : Nat := fieldAt ref 8 8
def refMagic (ref : List Byte) : Bool := decide (fieldAt ref 0 4 = 0xCA1B0032)
def refCrc (ref : List Byte) : Bool := decide (crc32c (slice ref 0 252) = fieldAt ref 252 4)
/-- Certified reflectance and asymmetry target of a layer. -/
def refR (ref : List Byte) (l : Nat) : Int := sgn 16 (fieldAt ref (26 + 4 * l) 2)
def refBeta (ref : List Byte) (l : Nat) : Int := sgn 8 (fieldAt ref (25 + 4 * l) 1)

/-- The layers that an item records on: LAYERS; a strategy group's layer; for VFY_LAG that of the NWB. -/
def Dev.calLayers (d : Dev) (n : Nat) (r : CalRun) : List Nat :=
  match calK r.item with
  | 8 => (stratGroups r.layers).map (fun g => 8 * g + 4)
  | 9 => [browLayer (d.rd (F.drvNwb n))]
  | _ => bitList 32 r.layers

/-- Blank logical band-rows left on a layer. -/
def Dev.blankOn (d : Dev) (n l : Nat) : Nat :=
  let nwb := d.rd (F.drvNwb n)
  if l < browLayer nwb then 0 else if l = browLayer nwb then 1048576 - browUser nwb else 1048576

/-- What stands against an item: the CAUSE of R429, or 0. `starting`: before measurement, blank rows are counted too. -/
def Dev.calCheck (d : Dev) (r : CalRun) (starting : Bool) : Nat :=
  let vref := d.flag F.calVref_valid
  match calDrive r.item with
  | none =>
    if !vref then 2
    else if r.item = 0 then 0
    else
      let m := r.item - 1
      if (d.axis m).st = 0 ∧ ((d.axis m).off ∨ d.axisOff m) then 0 else 7
  | some n =>
    let u := d.unitAt (Pg.odrDrv n)
    if !starting ∧ (u = .quiescing ∨ u = .fenced) then 10
    else match calK r.item with
      | 0 => if d.flag F.pltStat_refLost then 1 else if d.driveOn n ∧ d.headUp n then 0 else 7
      | 1 => if !vref then 2 else if (d.spin n).st = 0 then 0 else 7
      | _ =>
        if d.ad8 n ∨ d.drvState n ≠ 3 ∨ (!starting ∧ 3 ≤ d.rd F.pltThermStat_level) then 7
        else match (d.drive n).disc with
          | none => 3
          | some k =>
            if 12 ≤ r.disc ∨ d.rd (F.drvStat_disc n) ≠ r.disc ∨ !d.flag F.ldrBay_valid ∨ d.rd F.ldrBay_index ≠ d.rd (F.drvShell n) ∨ !refMagic k.ref ∨ refRole k.ref ≠ (if calWrites r.item then 2 else 1) then 3
            else if !refCrc k.ref then 4
            else if fieldAt k.ref 16 4 < d.rd F.sflTime then 5
            else if !calWrites r.item then 0
            else if !d.flag (F.drvCtrl_recEn n) ∨ !(k.rdonly.isEmpty ∨ k.rdonly = [2]) then 9
            else if starting && !(d.calLayers n r).all (fun l => decide (1024 ≤ d.blankOn n l)) then 6
            else 0

/-! ## Measuring (R433, R434) -/

/-- The reference pattern's bits from an LFSR state, and its bytes. -/
def lfsrBits : Nat → Nat → List Bool
  | 0, _ => []
  | k + 1, s =>
    let b := s.testBit 30 != s.testBit 27
    b :: lfsrBits k ((2 * s + b2n b) % 2 ^ 31)
/-- A reference band-row's 256 KiB. -/
def refPattern (layer u : Nat) : List Byte :=
  (bytesOfBits 262144 (lfsrBits 2097152 (0x40000000 ||| (layer * 2 ^ 20 + u))))

/-- How many points a measurement has: settings to read at, seeks, or test band-rows. -/
def calPoints (r : CalRun) : Nat :=
  match calDrive r.item, calK r.item with
  | none, _ => 0
  | some _, 2 => 16 * (bitList 32 r.layers).length
  | some _, 3 => 9 * (bitList 32 r.layers).length
  | some _, 4 => 9 * (bitList 32 r.layers).length
  | some _, 5 => 9 * (bitList 32 r.layers).length
  | some _, 6 => 4
  | some _, 7 => 16 * (bitList 32 r.layers).length
  | some _, 9 => 1
  | some _, _ => 0

/-- Reference band-rows `first … first+count-1` of a zone are wanted. -/
def Dev.calWant (d : Dev) (n item layer zone first count : Nat) : Dev :=
  match (d.drive n).disc with
  | none => d
  | some k =>
    let b0 := layer * 2 ^ 20 + k.firstUser layer zone + first
    let ws : List Want := (List.range count).map (fun i => ⟨d.rd (F.drvShell n), d.rd (F.drvStat_disc n), b0 + i, .cal item⟩)
    d.onOdr fun o => { o with wants := o.wants ++ ws }

/-- Test band-rows on a layer: at NWB, or at the layer's first band-row where NWB has not come to it (log entry 42). -/
def Dev.calRecord (d : Dev) (n item layer count : Nat) : Dev :=
  let mine := d.odr.recs.filter (fun r => r.why == .test item)
  let from_ := mine.foldl (fun m r => max m (r.brow + 1)) (max (d.rd (F.drvNwb n)) (layer * 2 ^ 20))
  (List.range count).foldl (fun (d : Dev) i =>
    let b := from_ + i
    let row : RecRow := ⟨d.odr.nextRec, d.rd (F.drvShell n), d.rd (F.drvStat_disc n), b, mapOfBytes 0 (refPattern (browLayer b) (browUser b)), 0,
      .test item, .test item, 0, true, none, 0, 0, 0⟩
    d.onOdr fun o => { o with recs := o.recs ++ [row], nextRec := o.nextRec + 1 }) d

/-- The work of a measurement's current point begins. -/
def Dev.calPoint (d : Dev) (r : CalRun) : Dev :=
  match calDrive r.item with
  | none => d
  | some n =>
    let layer (per : Nat) : Nat := (bitList 32 r.layers).getD (r.step / per) 0
    match calK r.item with
    | 2 => d.calWant n r.item (layer 16) (r.step % 16) 0 64
    | 3 => d.calWant n r.item (layer 9) 0 (16 * (r.step % 9)) 16
    | 4 => d.calWant n r.item (layer 9) 0 (16 * (r.step % 9)) 16
    | 5 => d.calWant n r.item (layer 9) 0 (16 * (r.step % 9)) 16
    | 6 =>
      let s := d.seq n
      let band := (d.field0 n).map (fun f => f.2.2.1) |>.getD 0
      d.srvTarget n ⟨s.layer, if r.step % 2 = 0 then 3641 + band else band - 3641, 0⟩
    | 7 => (d.calRecord n r.item (layer 16) 1).tablesDue n
    | 8 => (d.calRecord n r.item (8 * (stratGroups r.layers).getD (r.step / 8) 0 + 4) 4).tablesDue n
    | 9 => d.calRecord n r.item (browLayer (d.rd (F.drvNwb n))) 1
    | _ => d

/-- The work of the current point has ended. -/
def Dev.calPointOver (d : Dev) (r : CalRun) : Bool :=
  let item := r.item
  match calDrive item with
  | none => true
  | some n =>
    let v := d.drive n
    let tests := d.odr.recs ++ (v.rec_.cur.map (·.row)).toList ++ (v.rec_.next.map (·.row)).toList ++ v.rec_.verify.map (·.1)
    !d.odr.wants.any (fun w => w.why == .cal item) && !v.reads.any (fun x => x.why.contains (.cal item)) &&
      !tests.any (fun x => x.why == .test item) && (calK item != 6 || (decide ((d.seq n).st = 2) && !(d.seq n).due))

/-- Vertex, in 1/65,536 of a step, of the parabola through the three lowest of nine values; none where they lie on a line. -/
def vertex (ys : List Int) : Option Int :=
  let pts := (ys.zipIdx).map (fun (y, i) => (((i : Nat) : Int) - 4, y))
  let low := (pts.mergeSort (fun a b => decide (a.2 ≤ b.2))).take 3
  match low with
  | [(x1, y1), (x2, y2), (x3, y3)] =>
    let den := 2 * (y1 * (x2 - x3) + y2 * (x3 - x1) + y3 * (x1 - x2))
    let num := y1 * (x2 * x2 - x3 * x3) + y2 * (x3 * x3 - x1 * x1) + y3 * (x1 * x1 - x2 * x2)
    if den = 0 then none else if den < 0 then some (quot (-num * 65536) (-den)) else some (quot (num * 65536) den)
  | _ => none

/-- Where a list of values first crosses a target, as a fraction of 1/40 of PEAK. -/
def betaCross (t : Int) : Nat → List Int → Option (Int × Int)
  | k, y0 :: y1 :: rest =>
    if (y0 ≤ t ∧ t < y1) ∨ (t ≤ y0 ∧ y1 < t) then
      let den := y1 - y0
      let num := ((32 + k : Nat) : Int) * den + (t - y0)
      some (if den < 0 then (-num, -den) else (num, den))
    else betaCross t (k + 1) (y1 :: rest)
  | k, [y0] => if y0 = t then some (((32 + k : Nat) : Int), 1) else none
  | _, [] => none

def sumInt (xs : List Int) : Int := xs.foldl (· + ·) 0

/-- The parabola items: each list of `vals` holds the nine sums of iterations of a layer (and beam). -/
def setptResult (cur w : Int) (vals : List (List Int)) : Option Int :=
  let vs := vals.map vertex
  if vs.isEmpty ∨ vs.any (·.isNone) then none
  else some (cur + nearest (w * sumInt (vs.map (·.getD 0))) (65536 * (vs.length : Nat)))

/-- The result of LASER_POWER: PEAK by layer, then WR_TRIM by beam as the mean over the layers. `vals`: for each layer 16 lists
of 18 values of β. -/
def Dev.powerResult (d : Dev) (n : Nat) (ref : List Byte) (layers : List Nat) (vals : List (List Int)) : Option (List Int) :=
  let one (i l : Nat) : Option (Int × List Int) :=
    let rows := (vals.drop (16 * i)).take 16
    let beta := refBeta ref l
    match betaCross (18 * beta) 0 (rows.map sumInt) with
    | none => none
    | some (num, den) =>
      let trims := (List.range 18).map (fun b => (betaCross beta 0 (rows.map (·.getD b 0))).map (fun x =>
        quot (65536 * 512 * (x.1 * den - x.2 * num)) (x.2 * num)))
      if trims.any (·.isNone) then none
      else some (nearest (((d.rd (F.wrPwr_peak n l) : Nat) : Int) * num) (40 * den), trims.map (·.getD 0))
  let all := (layers.zipIdx).map (fun (l, i) => one i l)
  if all.isEmpty ∨ all.any (·.isNone) then none
  else
    let got := all.map (·.getD (0, []))
    some (got.map (·.1) ++ (List.range 18).map (fun b => nearest (sumInt (got.map (fun x => x.2.getD b 0))) (65536 * (got.length : Nat))))

/-- The results of an item in the order of its target fields, or none where it did not converge (R434). -/
def Dev.calResult (d : Dev) (r : CalRun) (vals : List (List Int)) : Option (List Int) :=
  let v (i j : Nat) : Int := (vals.getD i []).getD j 0
  match calDrive r.item with
  | none =>
    if r.item = 0 then some ((List.range 8).map (fun i => nearest (32768 * 1000 * 256) (v 0 i)))
    else some ((List.range 2).map (fun i => nearest (32768 * 8 * ((Config.nominalTrip : Nat) : Int)) (v 0 i)))
  | some n =>
    let ref := match (d.drive n).disc with
      | some k => k.ref
      | none => []
    let layers := bitList 32 r.layers
    match calK r.item with
    | 0 =>
      let want : Int := ((d.rd (F.hlSrate n) * 100 : Nat) : Int)
      some [nearest ((v 0 0 - want) * 100000000) want]
    | 1 => some ((List.range 7).map (fun c => nearest (-16 * v 0 c) 256) ++
        (List.range 7).map (fun c => nearest (32768 * (if c < 3 then 1024 else 2500) * 256) (v 1 c - v 0 c)))
    | 2 => some ((layers.zipIdx).map (fun (l, i) => ((List.range 16).map (fun z =>
        [v (16 * i + z) 0 - refR ref l, v (16 * i + z) 1, v (16 * i + z) 2])).flatten)).flatten
    | 3 => (setptResult (d.rdS 16 (F.srvLoopOfs_setpt (loopPage n 0))) 40 (vals.take layers.length)).map (fun x => [x])
    | 4 => (setptResult (d.rdS 16 (F.srvLoopOfs_setpt (loopPage n 1))) 50 (vals.take layers.length)).map (fun x => [x])
    | 5 =>
      let beam (b : Nat) := setptResult (d.rdS 16 (F.srvLoopOfs_setpt (loopPage n (loopFine b)))) 8
        ((List.range layers.length).map (fun i => vals.getD (18 * i + b) []))
      let xs := (List.range 18).map beam
      if xs.any (·.isNone) then none else some (xs.map (·.getD 0))
    | 6 => some [nearest (((d.rd (F.srvSledCfg_ustepPerTrack n) : Nat) : Int) * 65536 * 4) (v 0 0)]
    | 7 => d.powerResult n ref layers vals
    | 8 => some r.trial
    | _ => some [v 0 0]

/-- A queued item waits while CAL, or for a drive's item ODR or SRV, is HOLDING (R491 N6). -/
def Dev.calHolds (d : Dev) (item : Nat) : Bool := d.holding 11 || ((calDrive item).isSome && (d.holding 8 || d.holding 9))

/-- CAL_MEASURE_START: the item's turn has come. -/
def Dev.calStart (d : Dev) (item : Nat) : Dev :=
  match d.cal.queue.find? (fun r => r.item == item) with
  | none => d
  | some r =>
    let same (x : CalRun) : Bool := (calDrive item).isSome && calDrive x.item == calDrive item
    let earlier := (d.cal.queue.takeWhile (fun x => x.item != item)).any same
    if d.cal.running.any same || earlier || d.calHolds item then d
    else
      let cause := d.calCheck r true
      if cause ≠ 0 then d.calStops item 2 cause
      else
        let trial := if calWrites item ∧ calK item = 8 then (calTargets item r.layers).map (fun x => x.num (d.rd x.reg)) else []
        let r := { r with step := 0, trial := trial }
        let d := d.onCal fun c => { c with queue := c.queue.filter (fun x => x.item != item), running := c.running ++ [r] }
        (d.calPoint r).showCal item

/-- DONE: the result is saved and stepped towards (R427, R430, R435). -/
def Dev.calDone (d : Dev) (r : CalRun) (fields : List CalField) : Dev :=
  let item := r.item
  let d := d.onCal fun c => { c with running := c.running.filter (fun x => x.item != item) }
  let d := d.mramPut fields.length fun m => { m with calRes := Map.put m.calRes item fields }
  let cert := match calDrive item with
    | some n => if calReads item || calWrites item then (match (d.drive n).disc with
        | some k => refCert k.ref
        | none => 0) else 0
    | none => 0
  let d := d.count (F.calRecCount item)
  let d := (d.put64 (F.calRecTickLo item) (F.calRecTickHi item) d.now).wr (F.calRecTc item) d.timecode
  let d := ((d.wr (F.calRecCertLo item) (cert % 2 ^ 32)).wr (F.calRecCertHi item) (cert / 2 ^ 32)).wr (F.calRecReq item) 0
  let save (d : Dev) (a : Nat) (v : Word) : Dev := d.mramPut 1 fun m => { m with calRegs := Map.set 0 m.calRegs a v }
  let d := [F.calRecCount item, F.calRecTickLo item, F.calRecTc item, F.calRecCertLo item, F.calRecCertHi item, F.calRecReq item].foldl
    (fun (d : Dev) f => save d f.addr (d.raw f.addr)) d
  let d := save d (F.calRecTickHi item).addr (w32 (d.now / 2 ^ 32))
  let left := fields.filter (fun x => decide (d.rd x.reg ≠ x.value))
  let d := d.onCal fun c => { c with stepping := if left.isEmpty then Map.erase c.stepping item else Map.put c.stepping item fields }
  (d.count (F.calCnt 0)).calOutcome item 1 0

/-- The results of an item reach their fields: DONE, or refused where one is out of range. -/
def Dev.calJudge (d : Dev) (r : CalRun) (xs : List Int) : Dev :=
  let ts := List.zip (calTargets r.item r.layers) xs
  if ts.any (fun t => !t.1.fits t.2) then d.calStops r.item 2 8
  else d.calDone r (ts.map (fun t => { t.1 with value := unsgn t.1.width t.2 }))

/-- A pass of WRITE_STRATEGY on its current group: `es` are the mean edge errors in 1/256 tap. The group's shifts move by them;
passes go on, at most 6, until every error is below one tap; then the next group (`step` is 8 × group + pass). -/
def Dev.calPass (d : Dev) (r : CalRun) (es : List Int) : Dev :=
  let base := 64 * (r.step / 8)
  let trial := (r.trial.zipIdx).map (fun (t, i) => if base ≤ i ∧ i < base + 64 then t - nearest (es.getD (i - base) 0) 256 else t)
  let wide := (es.take 64).any (fun e => decide (256 ≤ e.natAbs))
  let next := if wide then r.step + 1 else 8 * (r.step / 8 + 1)
  let r := { r with trial := trial, step := next }
  if wide ∧ next % 8 = 6 then d.calStops r.item 2 11
  else if (stratGroups r.layers).length ≤ next / 8 then d.calJudge r trial
  else (d.onCal fun c => { c with running := c.running.map (fun x => if x.item = r.item then r else x) }).calPoint r

/-- CAL_MEASURE_DONE: what was measured gives the result, or one more pass of WRITE_STRATEGY. -/
def Dev.calMeasured (d : Dev) (item : Nat) (vals : List (List Int)) : Dev :=
  match d.calRunning item with
  | none => d
  | some r =>
    if calWrites item ∧ calK item = 8 then (if d.calPointOver r then d.calPass r (vals.getD 0 []) else d)
    else if r.step < calPoints r then d
    else match d.calResult r vals with
      | none => d.calStops item 2 11
      | some xs => d.calJudge r xs

/-! ## Stepping (R428) -/

/-- One tap of an item: its lowest-addressed field that differs moves by one towards its result. -/
def Dev.calTap (d : Dev) (item : Nat) (fields : List CalField) : Dev :=
  let far := fields.filter (fun x => decide (d.rd x.reg ≠ x.value))
  match (far.mergeSort (fun a b => decide (a.addr < b.addr) || (a.addr == b.addr && decide (a.lo ≤ b.lo)))).head? with
  | none => (d.onCal fun c => { c with stepping := Map.erase c.stepping item }).showCal item
  | some x =>
    let now := x.num (d.rd x.reg)
    let goal := x.num x.value
    let d := (d.wr x.reg (unsgn x.width (if now < goal then now + 1 else now - 1))).count (F.calCnt 3)
    let d := match calDrive item with
      | some n => if calWrites item ∧ calK item ≠ 9 then d.tablesDue n else d
      | none => d
    let d := if far.length = 1 ∧ d.rd x.reg = x.value then d.onCal fun c => { c with stepping := Map.erase c.stepping item } else d
    d.showCal item

/-- The adjuster of an item has not finished in its window: no tap in this tick (R16, R437). -/
def Dev.tapOverrun (d : Dev) (item : Nat) : Dev :=
  if d.calSteps item then
    ((d.onCal fun c => { c with skip := if c.skip.contains item then c.skip else c.skip ++ [item] }).raise
      Pg.calReg Er.calReg_tapOverrun item).count (F.calCnt 4)
  else d

/-- Calibration in a tick: taps; measurements whose conditions fail are aborted; the next points of the others. -/
def Dev.calTick (d : Dev) : Dev :=
  let skip := d.cal.skip
  let d := (d.cal.stepping.filter (fun e => !skip.contains e.1)).foldl (fun (d : Dev) e => d.calTap e.1 e.2) d
  let d := d.onCal fun c => { c with skip := [] }
  d.cal.running.foldl (fun (d : Dev) r =>
    let cause := d.calCheck r false
    if cause ≠ 0 then d.calStops r.item 3 cause
    else if calWrites r.item && decide (calK r.item = 8) then d
    else if r.step < calPoints r ∧ d.calPointOver r then
      let r := { r with step := r.step + 1 }
      let d := d.onCal fun c => { c with running := c.running.map (fun x => if x.item = r.item then r else x) }
      if r.step < calPoints r then d.calPoint r else d
    else d) d

/-- A field that a running item owns: it takes no host write (R428). -/
def Dev.calOwns (d : Dev) (addr hi lo : Nat) : Bool :=
  let hit (x : CalField) : Bool := x.addr == addr && x.hi == hi && x.lo == lo
  (d.cal.queue ++ d.cal.running).any (fun r => (calTargets r.item r.layers).any hit) || d.cal.stepping.any (fun e => e.2.any hit)

/-- VREFCAL as measured against the bandgap: VALID within ±2% of 1.000 V (R430). -/
def Dev.vrefCheck (d : Dev) (mv : Nat) : Dev :=
  (d.wr F.calVref_mv mv).wrB F.calVref_valid (decide (980 ≤ mv) && decide (mv ≤ 1020))

/-- The items a drive needs after it was isolated (R435). -/
def Dev.calRequired (d : Dev) (n : Nat) : Dev :=
  [0, 1, 2, 3, 5, 7, 8, 9].foldl (fun (d : Dev) k =>
    let f := F.calRecReq (calItem n k)
    let d := d.wr f 1
    d.mramPut 1 fun m => { m with calRegs := Map.set 0 m.calRegs f.addr (d.raw f.addr) }) d

/-! ## Meanings -/

/-- CAL_RUN (R427). -/
def execCalRun (value : Nat) (s : State) : Host.Outcome State Fault Refusal := run s fun d => d.asWrite Pg.calReg (·.calRunWrite value)

/-- CAL_RUN_ABORT (R427). -/
def execCalRunAbort (value : Nat) (s : State) : Host.Outcome State Fault Refusal :=
  run s fun d => d.asWrite Pg.calReg (·.calAbortWrite value)

/-- CAL_MEASURE_START (R427). -/
def execCalMeasureStart (item : Nat) (s : State) : Host.Outcome State Fault Refusal := run s (·.calStart item)

/-- CAL_MEASURE_DONE (R434). -/
def execCalMeasureDone (item : Nat) (vals : List (List Int)) (s : State) : Host.Outcome State Fault Refusal :=
  run s (·.calMeasured item vals)

/-- VREFCAL_CHECK (R430). -/
def execVrefcalCheck (mv : Nat) (s : State) : Host.Outcome State Fault Refusal := run s (·.vrefCheck mv)

end Sys2Proof.Machine
end

