-- ==== Sys2Proof/Machine/Codec.lean ====
section
/-! DEFINITION. The Pixel Codec (R95): prediction, adaptive Golomb-Rice coding and its inverse, slice by slice. -/
namespace Sys2Proof.Machine
open Sys2Proof

/-- Samples of `bits` bits from the packed little-endian layout, in raster order. -/
def unpackSamples (bits : Nat) (bs : List Byte) : List Nat :=
  let n := leNat bs
  (List.range (bs.length * 8 / bits)).map (fun i => (n >>> (bits * i)) % 2 ^ bits)

/-- Samples back into the packed layout. -/
def packSamples (bits : Nat) (xs : List Nat) : List Byte :=
  leBytes (xs.length * bits / 8) (((List.range xs.length).zip xs).foldl (fun n e => n + (e.2 <<< (bits * e.1))) 0)

/-- Bits as bytes, the most significant bit first, with zero bits to whole bytes. -/
def bitsToBytes : Nat → List Bool → List Byte
  | 0, _ => []
  | _, [] => []
  | fuel + 1, bs => w8 ((List.range 8).foldl (fun n i => 2 * n + b2n (bs.getD i false)) 0) :: bitsToBytes fuel (bs.drop 8)

def bytesToBits (bs : List Byte) : List Bool := (bs.map (fun b => (List.range 8).map (fun i => b.toNat.testBit (7 - i)))).flatten

/-- The low `w` bits of `n`, the highest first. -/
def bitsHigh (w n : Nat) : List Bool := (List.range w).map (fun i => n.testBit (w - 1 - i))

def median3 (a b c : Int) : Int := max (min a b) (min (max a b) c)

/-- The prediction of the sample at (r, c) of a slice from the samples before it (R95). -/
def predict (width d bits : Nat) (seen : List Nat) (r c : Nat) : Int :=
  let at_ (r c : Nat) : Int := (seen.getD (r * width + c) 0 : Nat)
  let a? := if d ≤ c then some (at_ r (c - d)) else none
  let b? := if d ≤ r then some (at_ (r - d) c) else none
  let cc? := if d ≤ c ∧ d ≤ r then some (at_ (r - d) (c - d)) else none
  match a?, b? with
  | none, none => 2 ^ (bits - 1)
  | _, _ =>
    let a := a?.getD (b?.getD 0)
    let b := b?.getD a
    let cc := cc?.getD a
    median3 a b (a + b - cc)

/-- The sums S of a slice by CFA position: the last 16 values of m, sixteen 4s at its start (R95, log entry 14). -/
abbrev CodecSums := Map (List Nat)
def sumsAt (s : CodecSums) (pos : Nat) : List Nat := Map.get (List.replicate 16 4) s pos
def sumsPush (s : CodecSums) (pos m : Nat) : CodecSums := Map.set (List.replicate 16 4) s pos ((sumsAt s pos).drop 1 ++ [m])
def cfaPos (d r c : Nat) : Nat := r % d * 2 + c % d

/-- The smallest k with 2^(k+4) > S. -/
def riceK (sum : Nat) : Nat := ((List.range 40).find? (fun k => decide (sum < 2 ^ (k + 4)))).getD 40

/-- The code of one value. -/
def riceCode (bits k m : Nat) : List Bool :=
  let q := m >>> k
  if q < 24 then List.replicate q true ++ [false] ++ bitsHigh k m
  else List.replicate 24 true ++ [false] ++ bitsHigh bits m

/-- A slice coded: its bits. -/
def codeSlice (width d bits : Nat) (xs : List Nat) : List Bool :=
  ((List.range xs.length).foldl (fun (acc : List Bool × CodecSums) i =>
    let r := i / width
    let c := i % width
    let e := sgn bits (unsgn bits ((xs.getD i 0 : Nat) - predict width d bits xs r c))
    let m := if 0 ≤ e then (2 * e).toNat else (-2 * e - 1).toNat
    let pos := cfaPos d r c
    let k := riceK ((sumsAt acc.2 pos).foldl (· + ·) 0)
    (acc.1 ++ riceCode bits k m, sumsPush acc.2 pos m)) ([], [])).1

/-- A slice as stored: coded and padded to 256 bytes, or raw where that is not shorter (R95). -/
def storeSlice (width d bits : Nat) (raw : List Byte) : Bool × List Byte :=
  let code := codeSlice width d bits (unpackSamples bits raw)
  let bs := bitsToBytes code.length code
  let coded := padTo (ceilDiv bs.length 256 * 256) bs
  if coded.length < raw.length then (true, coded) else (false, raw)

/-- One value taken from the front of a bit stream. -/
def riceTake (bits k : Nat) (bs : List Bool) : Nat × List Bool :=
  let q := (bs.take 24).takeWhile id |>.length
  let rest := bs.drop (q + 1)
  let num (w : Nat) : Nat := (List.range w).foldl (fun n i => 2 * n + b2n (rest.getD i false)) 0
  if q < 24 then (q * 2 ^ k + num k, rest.drop k) else (num bits, rest.drop bits)

/-- `n` samples decoded from a coded slice. -/
def decodeSlice (width d bits n : Nat) (bs : List Byte) : List Nat :=
  ((List.range n).foldl (fun (acc : List Nat × List Bool × CodecSums) i =>
    let r := i / width
    let c := i % width
    let pos := cfaPos d r c
    let k := riceK ((sumsAt acc.2.2 pos).foldl (· + ·) 0)
    let (m, rest) := riceTake bits k acc.2.1
    let e : Int := if m % 2 = 0 then ((m / 2 : Nat) : Int) else -(((m + 1) / 2 : Nat) : Int)
    let x := unsgn bits (predict width d bits acc.1 r c + e)
    (acc.1 ++ [x], rest, sumsPush acc.2.2 pos m)) ([], bytesToBits bs, [])).1

end Sys2Proof.Machine
end

