-- ==== Sys2Proof/Machine/Frames.lean ====
section
/-! DEFINITION. Frames in the store (R79–R86, R88, R99–R102): the ING system range, the buffer chain of a stream, frame
slots, Frame Index entries, the lookup rings and missing-range records. -/
namespace Sys2Proof.Machine
open Sys2Proof

/-! ## The ING system range (R79) -/

def sysBase : Nat := 0x3FC0000000
def linkAddr (i : Nat) : Nat := sysBase + 4 * i
def takeRecAddr (k : Nat) : Nat := sysBase + 0x1000000 + 512 * (k % 2048)
def mrrAddr (k : Nat) : Nat := sysBase + 0x1100000 + 32 * (k % 524288)
def lookupAddr (s pn : Nat) : Nat := sysBase + 0x20000000 + s * 0x1000000 + 16 * (pn % 1048576)

/-- Bytes split at the lines they fall in, as (address, bytes). -/
def linePieces (a : Nat) (bs : List Byte) : List (Nat × List Byte) :=
  (List.range (ceilDiv (a % 64 + bs.length) 64)).map fun i =>
    let lo := max a (64 * (a / 64 + i))
    let hi := min (a + bs.length) (64 * (a / 64 + i + 1))
    (lo, slice bs (lo - a) (hi - lo))

/-- ING writes its system range without a handle (R124): whole lines at once, parts of lines through the merge buffer (R115, R119). -/
def Dev.sysWrite (d : Dev) (a : Nat) (bs : List Byte) : Dev :=
  (linePieces a bs).foldl (fun d x => d.writeNow ⟨x.1, x.2, false, 1, 0, none, .good⟩) d

/-- ING reads its system range; whether a line read is Hollow, and the count of those delivered (R114). -/
def Dev.sysRead (d : Dev) (a n : Nat) : Delivered × Dev :=
  let (o, d) := d.readLines (64 * (a / 64)) (ceilDiv (a % 64 + n) 64)
  (⟨slice o.data (a % 64) n, o.hollow⟩, d)

/-! ## The chain (R80) -/

/-- The handle of the chain buffer that holds byte `pos`, counted along the whole chain. -/
def Stream.handleAtPos (st : Stream) (pos : Nat) : Nat := st.chain.getD (pos / 65536 - st.chainAt) handleNone

/-- The store address of byte `pos` of a chain. -/
def Stream.addrOf (st : Stream) (pos : Nat) : Nat := handleAddr (st.handleAtPos pos) + pos % 65536

/-- How ING acts on a chain buffer: as owner `s`, or, once that owner is fenced, as the owner that then holds the buffer (R33, R85, R124). -/
def Dev.chainBy (d : Dev) (s h : Nat) : ActBy :=
  let o := if d.bpm.fenced.contains s then (d.bufEnt (handleIndex h)).owner else s
  ⟨h, o, if d.bpm.fenced.contains s then d.rd (F.bpmOwnCfg_region o) else 3⟩

/-- Lines of a chain written. -/
def Dev.chainWrite (d : Dev) (s pos : Nat) (data : List Byte) (hollow : Bool) : Dev :=
  (List.range (ceilDiv data.length 64)).foldl (fun d i =>
    let p := pos + 64 * i
    let by_ := d.chainBy s ((d.stream s).handleAtPos p)
    d.writeNow ⟨(d.stream s).addrOf p, slice data (64 * i) 64, hollow, 1, 0, some by_, .good⟩) d

/-- `n` bytes of a chain as read, and whether any line of them is Hollow. -/
def Dev.chainRead (d : Dev) (s pos n : Nat) : Delivered × Dev :=
  (List.range (ceilDiv n 64)).foldl (fun (acc : Delivered × Dev) i =>
    let p := pos + 64 * i
    let st := acc.2.stream s
    let (o, d) := acc.2.readLine { cleanRead (st.addrOf p) with by_ := some (acc.2.chainBy s (st.handleAtPos p)) }
    (⟨acc.1.data ++ o.data, acc.1.hollow || o.hollow⟩, d)) (⟨[], false⟩, d)

/-- A buffer joins the chain's tail and the link table names it (R79). -/
def Dev.chainPush (d : Dev) (s h : Nat) : Dev :=
  let st := d.stream s
  let d := match st.chain.getLast? with
    | some prev => d.sysWrite (linkAddr (handleIndex prev)) (leBytes 4 h)
    | none => d
  (d.sysWrite (linkAddr (handleIndex h)) (leBytes 4 handleNone)).onStream s fun st => { st with chain := st.chain ++ [h] }

/-- Buffers granted until the chain reaches byte `upto`; false at the first NONE, what was granted staying (R80). -/
def Dev.chainGrow (d : Dev) (s upto : Nat) : Nat → Bool × Dev
  | 0 => (decide (upto ≤ ((d.stream s).chainAt + (d.stream s).chain.length) * 65536), d)
  | n + 1 =>
    if upto ≤ ((d.stream s).chainAt + (d.stream s).chain.length) * 65536 then (true, d)
    else
      let (h, d) := d.grant s 1
      if h = handleNone then (false, d) else (d.chainPush s h).chainGrow s upto n

/-- Bytes of a frame's slot (R80). -/
def slotBytes (size meta_ : Nat) : Nat := 256 + size + meta_

/-! ## Frame records -/

def Dev.frameOf (d : Dev) (s pn : Nat) : Option FrameRec := (d.stream s).frames.find? (·.pn == pn)

def Dev.onFrame (d : Dev) (s pn : Nat) (f : FrameRec → FrameRec) : Dev :=
  d.onStream s fun st => { st with frames := st.frames.map fun x => if x.pn = pn then f x else x }

/-- A frame is open until it closes complete or incomplete. -/
def FrameRec.isOpen (f : FrameRec) : Bool := !f.closed

/-- Chunks of 8 KiB of a length (R81). -/
def chunks (n : Nat) : Nat := ceilDiv n 8192

/-- Open frames of a stream, oldest first, and their number in ING_STR_STAT.OPEN. -/
def Dev.openFrames (d : Dev) (s : Nat) : List FrameRec := (d.stream s).frames.filter (·.isOpen)
def Dev.showOpen (d : Dev) (s : Nat) : Dev := d.wr (F.ingStrStat_open s) (d.openFrames s).length

/-- LOCATION of a slot head in the store (R100). -/
def Dev.storeLocation (d : Dev) (s : Nat) (f : FrameRec) : Nat :=
  (d.stream s).handleAtPos f.start * 2 ^ 16 + f.start % 65536 / 256

/-- The FLAGS of a Frame Index entry (R99). -/
def FrameRec.flags (f : FrameRec) (codec hashed enc : Bool) : Nat :=
  maskOf [f.hollow, f.incomplete, f.mismatch, f.srcBad, codec, hashed, enc, f.live, f.trigger, decide (0 < f.meta_), f.durable]

/-- A Frame Index entry as written at completion, the drain fields zero (R99). -/
def Dev.entryBytes (d : Dev) (s : Nat) (f : FrameRec) : List Byte :=
  leBytes 1 s ++ leBytes 1 1 ++ leBytes 2 (f.flags false false false) ++ leBytes 4 f.frame ++ leBytes 4 f.pn ++
    leBytes 4 (f.take_.getD 0xFFFFFFFF) ++ leBytes 8 f.endTick ++ leBytes 8 f.senderTime ++ leBytes 4 f.tc ++
    leBytes 4 (f.firstTick % 2 ^ 32) ++ leBytes 4 f.size ++ leBytes 4 0 ++ leBytes 8 (d.storeLocation s f) ++ leBytes 2 0 ++
    leBytes 2 (f.meta_ / 256) ++ leBytes 4 f.ranges ++ zeros 32 ++ zeros 32

/-- The entry of a frame stands in bytes 0–127 of its slot, with zeros to byte 255 (R80). -/
def Dev.writeEntry (d : Dev) (s : Nat) (f : FrameRec) : Dev := d.chainWrite s f.start (d.entryBytes s f ++ zeros 128) false

/-- The entry of a frame read, edited and written back; a line read as Hollow stays Hollow (R99, R112). -/
def Dev.editEntry (d : Dev) (s : Nat) (f : FrameRec) (g : List Byte → List Byte) : Dev :=
  let (a, d) := d.chainRead s f.start 64
  let (b, d) := d.chainRead s (f.start + 64) 64
  let new := g (a.data ++ b.data)
  (d.chainWrite s f.start (new.take 64) a.hollow).chainWrite s (f.start + 64) (new.drop 64) b.hollow

/-- A closed frame's entry is rewritten with its present flags and take, the drain fields kept. -/
def Dev.rewriteEntry (d : Dev) (s : Nat) (f : FrameRec) : Dev :=
  d.editEntry s f fun old =>
    let keep := fieldAt old 2 2 &&& 0x70
    splice old 2 (leBytes 2 ((f.flags false false false) ||| keep) ++ slice old 4 8 ++ leBytes 4 (f.take_.getD 0xFFFFFFFF))

/-- The lookup slot of a frame names where its entry is (R102). -/
def Dev.writeLookup (d : Dev) (s : Nat) (f : FrameRec) (loc : Nat) : Dev :=
  d.sysWrite (lookupAddr s f.pn) (leBytes 4 f.frame ++ leBytes 4 f.pn ++ leBytes 8 loc)

/-! ## Releasing frames and buffers (R88, R101) -/

/-- A frame no longer keeps its buffers: durable, or released from a ring. -/
def FrameRec.gone (f : FrameRec) : Bool := f.durable || f.released

/-- A chain buffer that holds bytes of pinned frames goes to the pinning owners in one operation: to the one owner, or to
the owner of the oldest pin and shared at once among all of them (R461). -/
def Dev.handOver (d : Dev) (h : Nat) (owners : List Nat) : Dev :=
  let i := handleIndex h
  let e := d.bufEnt i
  match owners with
  | [] => d
  | [o] => d.setBufEnt i { e with owner := o, noOwner := false }
  | o :: _ =>
    (d.setBufEnt i { e with owner := o, noOwner := false, shared := true }).onBpm fun b =>
      { b with shares := Map.put b.shares i ⟨owners.foldl (fun n x => n ||| 2 ^ x) 0, 0, o, false⟩ }

/-- The owners with a pin on a buffer, the oldest pin first. -/
def Dev.pinOwners (d : Dev) (h : Nat) : List Nat :=
  uniq ((d.hat.pins.filter (fun p => p.bufs.contains (handleIndex h))).map (·.owner))

/-- A buffer leaves a chain: freed, or handed over to the owners whose pins cover it. -/
def Dev.leaveChain (d : Dev) (s h : Nat) : Dev :=
  let os := d.pinOwners h
  if os.isEmpty then d.freeBuf (if d.bpm.fenced.contains s then (d.bufEnt (handleIndex h)).owner else s) h else d.handOver h os

/-- Buffers leave the chain head once every frame with bytes in them is gone; the records of those oldest frames go with them, while one that
is durable before an older frame stays for the watermark (R101). -/
def Dev.reclaim (d : Dev) (s : Nat) : Dev :=
  let st := d.stream s
  let live := st.frames.dropWhile (·.gone)
  let first := match live with
    | f :: _ => f.start
    | [] => st.tail
  let n := first / 65536 - st.chainAt
  let d := (st.chain.take n).foldl (fun d h => d.leaveChain s h) d
  d.onStream s fun st => { st with frames := live, chain := st.chain.drop n, chainAt := st.chainAt + min n st.chain.length }

/-- A frame number enters the stream's last 256 closed ones (R84, R85). -/
def Dev.noteClosed (d : Dev) (s frame : Nat) : Dev :=
  d.onStream s fun st => { st with closed := ((frame :: st.closed).take 256) }

/-! ## Missing ranges (R85, R86) -/

/-- The indices below `n` not set in a coverage map. -/
def uncovered (map n : Nat) : List Nat := (List.range n).filter (fun i => !map.testBit i)

/-- Runs of consecutive chunks as (first, count): a run longer than 256 chunks is recorded as ranges of 256, the last holding the rest. -/
def splitRuns (cs : List Nat) : List (Nat × Nat) :=
  cs.foldl (fun acc c => match acc.getLast? with
    | some (f, n) => if f + n = c ∧ n < 256 then acc.dropLast ++ [(f, n + 1)] else acc ++ [(c, 1)]
    | none => [(c, 1)]) []

/-- A missing-range record is written in the ring and counted (R86). -/
def Dev.writeMrr (d : Dev) (s cause : Nat) (f : FrameRec) (ranges : List (Nat × Nat)) : Dev :=
  let r (i : Nat) : List Byte := match ranges[i]? with
    | some (c, n) => leBytes 4 (c * 256 + (n - 1))
    | none => zeros 4
  let h := d.rd F.ingRegMrrHead
  let d := d.sysWrite (mrrAddr h) (leBytes 1 s ++ leBytes 1 cause ++ leBytes 2 (min 0xFFFF ranges.length) ++ leBytes 4 f.frame ++
    leBytes 4 f.pn ++ leBytes 4 (f.take_.getD 0xFFFFFFFF) ++ r 0 ++ r 1 ++ r 2 ++ r 3)
  d.wr F.ingRegMrrHead (h + 1)

/-- The byte position, along the chain, of a chunk of a frame; metadata chunks are numbered after pixel chunks. -/
def FrameRec.chunkPos (f : FrameRec) (c : Nat) : Nat × Nat :=
  if c < chunks f.size then (f.start + 256 + c * 8192, min 8192 (f.size - c * 8192))
  else
    let m := c - chunks f.size
    (f.start + 256 + f.size + m * 8192, min 8192 (f.meta_ - m * 8192))

/-- Chunks of a frame not covered yet. -/
def FrameRec.missing (f : FrameRec) : List Nat :=
  uncovered f.pixels (chunks f.size) ++ (uncovered f.metas (chunks f.meta_)).map (· + chunks f.size)

/-- A frame closes incomplete (R85): uncovered chunks become Hollow lines of zero data, the entry carries HOLLOW and
INCOMPLETE, one missing-range record is made, and the lookup ring and closed frames follow. -/
def Dev.closeIncomplete (d : Dev) (s pn cause : Nat) : Dev :=
  match d.frameOf s pn with
  | none => d
  | some f =>
    if f.closed then d
    else
      let miss := f.missing
      let d := miss.foldl (fun d c => d.chainWrite s (f.chunkPos c).1 (zeros (f.chunkPos c).2) true) d
      let ranges := splitRuns miss
      let f := { f with hollow := true, incomplete := true, closed := true, ranges := min 0xFFFF ranges.length, endTick := d.now }
      let d := d.onFrame s pn fun _ => f
      let d := (d.writeEntry s f).writeMrr s cause f ranges
      let d := (d.writeLookup s f (d.storeLocation s f)).noteClosed s f.frame
      (d.count (F.ingStrCnt s 11)).showOpen s

/-- Every payload write of the frame has completed (R33, R84). -/
def Dev.allWritten (d : Dev) (s pn : Nat) : Bool := !(d.stream s).pods.any (fun r => r.pn == pn && r.writing && decide (0 < r.length))

/-- A frame whose chunks are all covered, its metadata up to a LAST metadata Pod, and written (R84). -/
def Dev.canComplete (d : Dev) (s : Nat) (f : FrameRec) : Bool :=
  !f.closed && f.missing.isEmpty && (decide (f.meta_ = 0) || f.lastMeta) && d.allWritten s f.pn

/-- A frame of a ring of no buffers: BUFS = 0 and no take has it (R88). -/
def Dev.ringless (d : Dev) (s : Nat) (f : FrameRec) : Bool := decide (d.rd (F.ingStrRing s) = 0) && f.take_.isNone

/-- A closed frame of a ring of no buffers is released (R88). -/
def Dev.fallsOut (d : Dev) (s pn : Nat) : Dev :=
  match d.frameOf s pn with
  | some f => if f.closed && !f.gone && d.ringless s f then (d.onFrame s pn fun f => { f with released := true }).reclaim s else d
  | none => d

/-- A frame completes (R84): entry, lookup slot, ING_STR_LAST and closed frames. -/
def Dev.frameComplete (d : Dev) (s pn : Nat) : Dev :=
  match d.frameOf s pn with
  | none => d
  | some f =>
    if !d.canComplete s f then d
    else
      let f := { f with closed := true, endTick := d.now }
      let d := d.onFrame s pn fun _ => f
      let d := d.writeEntry s f
      let loc := d.storeLocation s f
      let d := ((d.writeLookup s f loc).noteClosed s f.frame).onStream s fun st => { st with newDone := f.frame }
      let d := d.put64 (F.ingStrLastLo s) (F.ingStrLastHi s) loc
      let d := (d.count (F.ingStrCnt s 10)).when f.hollow (·.count (F.ingStrCnt s 11))
      (d.showOpen s).fallsOut s pn

/-- R85: an open frame reaches its incomplete-frame timeout; a frame on a FENCED group does not run (R85). -/
def Dev.frameTimeout (d : Dev) (s pn : Nat) : Dev :=
  match d.frameOf s pn with
  | none => d
  | some f =>
    let made := d.injected (Pg.ingStr s) Er.ingStr_timeout
    if f.closed || !made && decide (d.since f.firstTick < d.rd (F.ingStrTime_timeout s)) || decide (d.unitAt (Pg.ingStr s) = .fenced) then d
    else (((d.takeInjected (Pg.ingStr s) Er.ingStr_timeout).closeIncomplete s pn 1).raise (Pg.ingStr s) Er.ingStr_timeout).fallsOut s pn

/-- A lane group leaves FENCED: every frame still open on it closes with CAUSE 4 STOPPED (R85). -/
def Dev.closeStopped (d : Dev) (s : Nat) : Dev :=
  ((d.openFrames s).map (·.pn)).foldl (fun d pn => (d.closeIncomplete s pn 4).fallsOut s pn) d

end Sys2Proof.Machine
end

