-- ==== Sys2Proof/Machine/Sessions.lean ====
section
/-! DEFINITION. Capture sessions (R87–R93): events, triggers, takes, timecode. -/
namespace Sys2Proof.Machine
open Sys2Proof

/-- The session states of R89. -/
inductive SesSt where
  | off | armed | run | stopping
  deriving DecidableEq, Repr

def sesStOf : Nat → SesSt
  | 0 => .off
  | 1 => .armed
  | 2 => .run
  | _ => .stopping

def sesStCode : SesSt → Nat
  | .off => 0
  | .armed => 1
  | .run => 2
  | .stopping => 3

def Dev.session (d : Dev) (n : Nat) : Session := Map.get Session.reset d.ing.sessions n
def Dev.onSession (d : Dev) (n : Nat) (f : Session → Session) : Dev :=
  d.onIng fun i => { i with sessions := Map.modify Session.reset i.sessions n f }
def Dev.sesSt (d : Dev) (n : Nat) : SesSt := sesStOf (d.rd (F.ingSesStat_state n))

/-- Member streams of a session (R87). -/
def Dev.members (d : Dev) (n : Nat) : List Nat := (List.range 32).filter (d.rd (F.ingSesStreams n)).testBit
/-- The session that a stream belongs to. -/
def Dev.sessionOf (d : Dev) (s : Nat) : Option Nat := (List.range 32).find? fun n => (d.rd (F.ingSesStreams n)).testBit s

/-- The state of a stream's session; a stream in no session behaves as in one that stays OFF (R87). -/
def Dev.streamSes (d : Dev) (s : Nat) : SesSt := match d.sessionOf s with
  | some n => d.sesSt n
  | none => .off

/-! ## Judging events (R89) -/

/-- What the state table makes of an event. -/
inductive SesJudge where
  | goes (s : SesSt) | counted | ignTrigger
  deriving DecidableEq, Repr

/-- The row of R89 that an event meets; `enabled` tells whether every member is enabled, and a trigger's source whether it
came from ING_SES_CTRL or a capsule. -/
def sesJudge (st : SesSt) (ev : SesEvent) (enabled : Bool) : SesJudge :=
  match st, ev with
  | .off, .arm => if enabled then .goes .armed else .counted
  | .off, .trigger src _ _ _ => if src = 1 then .counted else .ignTrigger
  | .off, _ => .counted
  | .armed, .trigger _ _ _ _ => .goes .run
  | .armed, .disarm => .goes .off
  | .armed, _ => .counted
  | .run, .stop => .goes .stopping
  | .run, .post => .goes .stopping
  | .run, .trigger _ _ _ _ => .ignTrigger
  | .run, _ => .counted
  | .stopping, .trigger _ _ _ _ => .ignTrigger
  | .stopping, _ => .counted

def Dev.membersOn (d : Dev) (n : Nat) : Bool := (d.members n).all (d.streamEnabled ·)

/-- The state that the events waiting for the session's next boundary will give: each was accepted when it arrived. -/
def Dev.sesWillBe (d : Dev) (n : Nat) : SesSt :=
  (d.session n).events.foldl (fun st e => match sesJudge st e.2 true with
    | .goes st' => st'
    | _ => st) (d.sesSt n)

/-- SES_IGN on the pages of the member streams (R103). -/
def Dev.sesIgn (d : Dev) (n : Nat) : Dev := (d.members n).foldl (fun d s => d.raise (Pg.ingStr s) Er.ingStr_sesIgn) d

/-- The first frame of a member placed at or after a trigger's instant carries TRIGGER (R90): one placed already, or the next such. A frame
counts as placed at the SOP that opens it (log entry 87). -/
def Dev.markTrigger (d : Dev) (s instant : Nat) : Dev :=
  match (d.stream s).frames.find? (fun f => decide (instant ≤ f.instant) && !f.gone) with
  | some f =>
    let f := { f with trigger := true }
    (d.onFrame s f.pn fun _ => f).when f.closed (·.rewriteEntry s f)
  | none => d.onStream s fun st => { st with trigNext := some instant }

/-- An event reaches a session (R89, R90): judged against the state that the events before it will give; an accepted one
waits for the boundary, and an accepted trigger's instant is recorded. -/
def Dev.sesEvent (d : Dev) (n : Nat) (ev : SesEvent) : Dev :=
  match sesJudge (d.sesWillBe n) ev (d.membersOn n) with
  | .counted => (d.countIgnored (Pg.ingSes n)).sesIgn n
  | .ignTrigger => (d.count (F.ingSesCntIgn n)).sesIgn n
  | .goes _ =>
    let d := d.onSession n fun x => { x with events := x.events ++ [(d.now, ev)] }
    match ev with
    | .trigger src sub tc at_ =>
      let d := (d.put64 (F.ingSesTrigLo n) (F.ingSesTrigHi n) at_).wr (F.ingSesTrigSub n) sub
      let d := (d.wr (F.ingSesStat_src n) src).onSession n fun x => { x with trigTc := tc, trigAt := at_ }
      (d.members n).foldl (fun d s => d.markTrigger s (250 * at_ + sub)) d
    | _ => d

/-! ## Taking effect -/

/-- LIVE set or cleared on the frames of a session's rings, in their entries too (R88). -/
def Dev.setLive (d : Dev) (n : Nat) (live : Bool) : Dev :=
  (d.members n).foldl (fun d s =>
    (d.stream s).frames.foldl (fun d f =>
      if f.gone || f.take_.isSome then d
      else
        let f := { f with live := live }
        (d.onFrame s f.pn fun _ => f).when f.closed (·.rewriteEntry s f)) d) d

/-- Every ring frame of the members joins take `t` (R89). -/
def Dev.joinTake (d : Dev) (n t : Nat) : Dev :=
  let d := (d.members n).foldl (fun d s =>
    (d.stream s).frames.foldl (fun d f =>
      if f.gone || f.take_.isSome then d
      else
        let f := { f with take_ := some t, session := n, live := false }
        (d.onFrame s f.pn fun _ => f).when f.closed (·.rewriteEntry s f)) d) d
  let firsts := (d.members n).map fun s =>
    let mine := (d.stream s).frames.filter fun f => f.take_ == some t && f.session == n
    (s, (match mine with
      | f :: _ => f.pn
      | [] => d.rd (F.ingStrPn s)), mine.length)
  d.onSession n fun x => { x with takes := firsts }

/-- An event that was accepted takes effect at the boundary. -/
def Dev.sesApply1 (d : Dev) (n : Nat) (ev : SesEvent) : Dev :=
  match sesJudge (d.sesSt n) ev true with
  | .goes st =>
    let d := match st with
      | .armed => d.setLive n false
      | .off => d.setLive n true
      | .run => (d.wr (F.ingSesTake n) (d.rd (F.ingSesTake n) + 1)).joinTake n ((d.rd (F.ingSesTake n) + 1) % 2 ^ 32)
      | .stopping => d
    d.wr (F.ingSesStat_state n) (sesStCode st)
  | _ => d

/-- The events of earlier ticks take effect, in the order they arrived. -/
def Dev.sessionApply (d : Dev) (n : Nat) : Dev :=
  let due := (d.session n).events.filter fun e => e.1 != d.now
  let d := d.onSession n fun x => { x with events := x.events.filter fun e => e.1 == d.now }
  due.foldl (fun d e => d.sesApply1 n e.2) d

/-- POST ticks have passed since the trigger (R89). -/
def Dev.postExpiry (d : Dev) (n : Nat) : Dev :=
  if d.sesSt n = .run ∧ d.rd (F.ingSesCfg_post n) ≠ 0 ∧ d.rd (F.ingSesCfg_post n) ≤ d.since (d.session n).trigAt then
    d.sesApply1 n .post
  else d

/-- Frames of a session's take that are still open. -/
def Dev.takeOpen (d : Dev) (n : Nat) : Bool :=
  (d.members n).any fun s => (d.stream s).frames.any fun f => f.take_ == some (d.rd (F.ingSesTake n)) && f.session == n && !f.closed

/-- The take record (R93). -/
def Dev.takeRecord (d : Dev) (n : Nat) : List Byte :=
  let per (s : Nat) : List Byte := match (d.session n).takes.find? (·.1 == s) with
    | some t => leBytes 4 t.2.1 ++ leBytes 4 t.2.2
    | none => zeros 8
  leBytes 4 (d.rd (F.ingSesTake n)) ++ leBytes 1 n ++ leBytes 1 (d.rd (F.ingSesStat_src n)) ++ zeros 2 ++
    leBytes 8 (d.get64 (F.ingSesTrigLo n) (F.ingSesTrigHi n)) ++ leBytes 1 (d.rd (F.ingSesTrigSub n)) ++ zeros 3 ++
    leBytes 4 (d.session n).trigTc ++ leBytes 8 d.now ++ ((List.range 32).map per).flatten ++ zeros 224

/-- Every take frame has closed: the record is sealed and the session goes to ARMED or OFF (R88, R89, R93). -/
def Dev.takeSealed (d : Dev) (n : Nat) : Dev :=
  if d.sesSt n ≠ .stopping ∨ d.takeOpen n then d
  else
    let d := d.sysWrite (takeRecAddr d.ing.takeRecs) (d.takeRecord n)
    let d := d.onIng fun i => { i with takeRecs := i.takeRecs + 1 }
    if d.flag (F.ingSesCfg_rearm n) then (d.setLive n false).wr (F.ingSesStat_state n) 1
    else d.wr (F.ingSesStat_state n) 0

/-! ## Trigger sources (R90, R91) -/

/-- TRG[j] is accepted at a new level: a rising edge triggers; an input marked CHATTER is ignored after its first edge (R90,
R417). -/
def Dev.trgEdge (d : Dev) (j sub : Nat) (rise : Bool) : Dev :=
  let d := d.wr ⟨F.motStat_trg.addr, 6 + j, 6 + j, false⟩ (b2n rise)
  if !rise || (d.rd F.motInChat_trg).testBit j then d
  else (List.range 32).foldl (fun d n =>
    if (d.rd (F.ingSesCfg_trgEn n)).testBit j then d.sesEvent n (.trigger (4 + j) sub d.timecode d.now) else d) d

/-- A trigger from a Pod of a member stream (R90): it reaches the session when its Pod is accepted, and its instant is that of its SOP. -/
def Dev.podTrigger (d : Dev) (s sub at_ : Nat) : Dev :=
  match d.sessionOf s with
  | some n => if d.flag (F.ingSesCfg_podTrig n) then d.sesEvent n (.trigger 2 sub d.timecode at_) else d
  | none => d

/-- A decoded LTC frame: current timecode and rate, and triggers on a match (R90, R91). -/
def Dev.ltcFrame (d : Dev) (tc rate sub : Nat) : Dev :=
  let d := ((d.wr F.ingTc tc).wr F.ingTcStat_rate rate).wr F.ingTcStat_valid 1
  let d := d.onIng fun i => { i with tcLast := d.now }
  (List.range 32).foldl (fun d n =>
    if d.flag (F.ingSesCfg_tcTrig n) && decide (d.rd (F.ingSesTc n) = tc) then d.sesEvent n (.trigger 3 sub tc d.now) else d) d

/-- Ticks of 2 LTC frame periods at the rate shown (R91): 24, 25, 29.97 and 30 frames per second. -/
def ltcTwoFrames : Nat → Nat
  | 1 => 33334
  | 2 => 32000
  | 3 => 26694
  | _ => 26667

/-- No valid LTC for 2 frame periods (R91). -/
def Dev.ltcLoss (d : Dev) : Dev :=
  if d.flag F.ingTcStat_valid && decide (ltcTwoFrames (d.rd F.ingTcStat_rate) ≤ d.since d.ing.tcLast) then
    (d.wr F.ingTcStat_valid 0).wr F.ingTcStat_rate 0
  else d

/-! ## Meanings -/

/-- SES_CTRL_ARM (R89). -/
def execSesCtrlArm (session : Nat) (s : State) : Host.Outcome State Fault Refusal := 
  run s fun d => d.asWrite (Pg.ingSes session) (·.sesEvent session .arm)

/-- SES_CTRL_TRIGGER (R89, R90): timed at the write. -/
def execSesCtrlTrigger (session ns : Nat) (s : State) : Host.Outcome State Fault Refusal :=
  run s fun d => d.asWrite (Pg.ingSes session) (·.sesEvent session (.trigger 1 (ns / 10) d.timecode d.now))

/-- SES_CTRL_STOP (R89). -/
def execSesCtrlStop (session : Nat) (s : State) : Host.Outcome State Fault Refusal := 
  run s fun d => d.asWrite (Pg.ingSes session) (·.sesEvent session .stop)

/-- SES_CTRL_DISARM (R89). -/
def execSesCtrlDisarm (session : Nat) (s : State) : Host.Outcome State Fault Refusal := 
  run s fun d => d.asWrite (Pg.ingSes session) (·.sesEvent session .disarm)

/-- TRG_EDGE (R90). -/
def execTrgEdge (input sub : Nat) (rise : Bool) (s : State) : Host.Outcome State Fault Refusal := run s (·.trgEdge input sub rise)

/-- SESSION_STATE_APPLY (R89). -/
def execSessionStateApply (session : Nat) (s : State) : Host.Outcome State Fault Refusal := run s (·.sessionApply session)

/-- POST_EXPIRY (R89). -/
def execPostExpiry (session : Nat) (s : State) : Host.Outcome State Fault Refusal := run s (·.postExpiry session)

/-- TAKE_SEALED (R93). -/
def execTakeSealed (session : Nat) (s : State) : Host.Outcome State Fault Refusal := run s (·.takeSealed session)

/-- LTC_FRAME_DECODED (R91). -/
def execLtcFrameDecoded (tc rate sub : Nat) (s : State) : Host.Outcome State Fault Refusal := run s (·.ltcFrame tc rate sub)

/-- LTC_LOSS (R91). -/
def execLtcLoss (s : State) : Host.Outcome State Fault Refusal := run s (·.ltcLoss)

/-- FRAME_COMPLETE (R84). -/
def execFrameComplete (stream pn : Nat) (s : State) : Host.Outcome State Fault Refusal := run s (·.frameComplete stream pn)

/-- TIMEOUT (R85). -/
def execTimeout (stream pn : Nat) (s : State) : Host.Outcome State Fault Refusal := run s (·.frameTimeout stream pn)

end Sys2Proof.Machine
end

