-- ==== Sys2Proof/Machine/Drain.lean ====
section
/-! DEFINITION. The drain (R78, R94–R103, R182): the next take frame, the stored frame, its append to a volume and its
durability, and the known-answer checks of the engines. -/
namespace Sys2Proof.Machine
open Sys2Proof

/-! ## The stored frame (R95–R98) -/

def bitsCode : Nat → Nat
  | 0 => 8 | 1 => 10 | 2 => 12 | 3 => 14 | _ => 16

/-- Bytes of a row and of a slice of a stream's frames; a format that gives no whole rows makes one slice (log entry 15). -/
def Dev.rowBytes (d : Dev) (s : Nat) : Nat := d.rd (F.ingStrFmt_width s) * bitsCode (d.rd (F.ingStrFmt_bits s)) / 8
def Dev.sliceBytes (d : Dev) (s size : Nat) : Nat :=
  let row := d.rowBytes s
  if row = 0 ∨ size % row ≠ 0 then size else min size (d.rd (F.ingStrCodec_sliceRows s) * row)
def Dev.cfaDist (d : Dev) (s : Nat) : Nat := if d.rd (F.ingStrFmt_cfa s) = 1 then 2 else 1

/-- The slices of a frame as stored: whether coded, and the bytes. -/
def Dev.slices (d : Dev) (s : Nat) (pixels : List Byte) (codec : Bool) : List (Bool × List Byte) :=
  let len := d.sliceBytes s pixels.length
  let n := if len = 0 then 1 else ceilDiv pixels.length len
  (List.range n).map (fun i =>
    let raw := (pixels.drop (i * len)).take len
    if codec ∧ d.rowBytes s ≠ 0 ∧ pixels.length % d.rowBytes s = 0
    then storeSlice (d.rd (F.ingStrFmt_width s)) (d.cfaDist s) (bitsCode (d.rd (F.ingStrFmt_bits s))) raw
    else (false, raw))

def pad256 (bs : List Byte) : List Byte := padTo (ceilDiv bs.length 256 * 256) bs

/-- The slice table, padded to 256 bytes, and the slices, each padded to 256 bytes. -/
def sliceTable (sl : List (Bool × List Byte)) : List Byte :=
  pad256 ((sl.map (fun x => leBytes 8 (x.2.length * 2 ^ 32 + b2n (!x.1)))).flatten)
def slicesBody (sl : List (Bool × List Byte)) : List Byte := (sl.map (fun x => pad256 x.2)).flatten

/-- The 64-byte header. -/
def storedHeader (n raw total frame stream flags meta_ take : Nat) (digest : List Byte) : List Byte :=
  leBytes 2 1 ++ leBytes 2 n ++ leBytes 4 raw ++ leBytes 4 total ++ leBytes 4 frame ++ leBytes 1 stream ++ leBytes 1 flags ++
    leBytes 2 meta_ ++ leBytes 4 take ++ padTo 32 digest ++ zeros 8

/-- Byte offsets in the stored frame of the Hollow lines of the raw frame (`at_` is a line's offset in pixels then metadata). -/
def hollowOffset (d : Dev) (s size : Nat) (nSlices : Nat) (at_ : Nat) : Nat :=
  let len := d.sliceBytes s size
  let head := 64 + ceilDiv (8 * nSlices) 256 * 256
  if at_ < size then head + at_ / len * (ceilDiv len 256 * 256) + at_ % len
  else
    let last := size - (nSlices - 1) * len
    head + (nSlices - 1) * (ceilDiv len 256 * 256) + ceilDiv last 256 * 256 + (at_ - size)

/-! ## Which frame is next (R78, R94) -/

/-- Every Pod of the frame has closed its pairing, or the stream is on one path (R78). -/
def Dev.paired (d : Dev) (s pn : Nat) : Bool :=
  let st := d.stream s
  decide (st.a.st = .down) || decide (st.b.st = .down) || !st.pods.any (fun r => r.pn == pn && r.isOpen)

/-- The next take frame of a stream in PN order that is closed and not drained. -/
def Dev.nextTake (d : Dev) (s : Nat) : Option FrameRec :=
  match (d.stream s).frames.find? (fun f => f.take_.isSome && !f.drained && !f.released) with
  | some f => if f.closed && d.paired s f.pn && (d.stream s).draining.isNone then some f else none
  | none => none

/-- The volume of a take frame's session, less one (R94). -/
def Dev.frameVol (d : Dev) (f : FrameRec) : Nat := d.rd (F.ingSesVol f.session)

/-- A region of a volume is full: it has no room for one more index entry, its data region has no byte left, or a frame drained to it waits
for room. The drain of the sessions that name it stops (R182). -/
def Dev.volStopped (d : Dev) (v : Nat) : Bool :=
  decide (512 * d.rd (F.sflVolCfg_idx v) ≤ Map.get 0 d.sfl.idxNext v) ||
    decide (d.rd (F.sflVolSize v) * 4096 * 256 ≤ Map.get 0 d.sfl.append v) ||
    d.ing.drains.any (fun j => j.full && (match d.frameOf j.stream j.pn with
      | some f => d.frameVol f == v
      | none => false))
/-- The volume of a stream's session, less one. -/
def Dev.streamVol (d : Dev) (s : Nat) : Nat := match d.sessionOf s with
  | some n => d.rd (F.ingSesVol n)
  | none => 0

/-- Codec and SHA-256 engines that may be used: those not fenced (R103). -/
def Dev.codecsOut (d : Dev) : Nat := d.cellsOut F.ingProcFenced_codec .codec 16
def Dev.shasOut (d : Dev) : Nat := d.cellsOut F.ingProcFenced_sha .sha 8
def Dev.codecEngines (d : Dev) : Nat := 16 - maskCount d.codecsOut
def Dev.shaEngines (d : Dev) : Nat := 8 - maskCount d.shasOut

/-- An engine remains of each kind that the stream's frames need. DESIGN CHOICE: where none remains, the drain of the streams that need one
waits, and that of the others goes on (log entry 83). -/
def Dev.enginesFor (d : Dev) (s : Nat) : Bool :=
  (!d.flag (F.ingStrCodec_codec s) || decide (d.codecEngines ≠ 0)) && (!d.flag (F.ingStrCodec_hash s) || decide (d.shaEngines ≠ 0))

/-- The stream has a take frame that the drain may take now. -/
def Dev.mayDrain (d : Dev) (s : Nat) : Bool := d.enginesFor s && (match d.nextTake s with
  | some f => !d.volStopped (d.frameVol f)
  | none => false)

def lowBits (fenced width n : Nat) : Nat :=
  ((List.range width).filter (fun i => !fenced.testBit i)).take n |>.foldl (fun m i => m + 2 ^ i) 0

/-! ## Draining a frame -/

/-- The frame's payload as read once from the store, line by line, with the offsets of its Hollow lines. -/
def Dev.readFrame (d : Dev) (s : Nat) (f : FrameRec) : List Byte × List Nat × Dev :=
  (List.range ((f.size + f.meta_) / 64)).foldl (fun (acc : List Byte × List Nat × Dev) i =>
    let (o, d) := acc.2.2.chainRead s (f.start + 256 + 64 * i) 64
    (acc.1 ++ o.data, if o.hollow then acc.2.1 ++ [64 * i] else acc.2.1, d)) ([], [], d)

/-- A Hollow line of a frame reaches the codec input (R97). DESIGN CHOICE: only pixel lines do, a Hollow line of the metadata does not (log entry
84). -/
def Dev.codecHollow (d : Dev) (s : Nat) (f : FrameRec) (holes : List Nat) : Bool :=
  d.flag (F.ingStrCodec_codec s) && (holes.any (fun h => decide (h < f.size)) || d.injected (Pg.ingStr s) Er.ingStr_codecHollow)

/-- The stored frame of a frame record, over its bytes and Hollow offsets. -/
def Dev.buildStored (d : Dev) (s : Nat) (f : FrameRec) (bytes : List Byte) (holes : List Nat) : DrainJob :=
  let pixels := bytes.take f.size
  let meta_ := bytes.drop f.size
  let met := d.codecHollow s f holes
  let codec := d.flag (F.ingStrCodec_codec s) && !met
  let hollow := f.hollow || !holes.isEmpty || met
  let hashed := d.flag (F.ingStrCodec_hash s) && !hollow
  let digest := if hashed then sha256 bytes else zeros 32
  let sl := d.slices s pixels codec
  let body := sliceTable sl ++ slicesBody sl ++ pad256 meta_
  let flags := b2n codec + 2 * b2n hollow + 4 * b2n hashed
  let head := storedHeader sl.length f.size (64 + body.length) f.frame s flags (f.meta_ / 256) (f.take_.getD 0xFFFFFFFF) digest
  { stream := s, pn := f.pn, stored := head ++ body, hollow := holes.map (hollowOffset d s f.size sl.length)
    digest := digest, codec := codec, hashed := hashed, marked := hollow, slices := sl.length, full := false }

/-- DRAIN_FRAME_START: the next stream round-robin with a take frame ready gives it to the engines. -/
def Dev.drainStart (d : Dev) : Dev :=
  if !d.flashReady then d
  else match firstFrom 32 d.ing.robin (d.mayDrain ·) with
    | none => d
    | some s => match d.nextTake s with
      | none => d
      | some f =>
        let d := d.onIng fun i => { i with robin := (s + 1) % 32 }
        let (bytes, holes, d) := d.readFrame s f
        let j := d.buildStored s f bytes holes
        let d := d.when (d.codecHollow s f holes) fun d =>
          ((d.takeInjected (Pg.ingStr s) Er.ingStr_codecHollow).count (F.ingProcCnt 2)).raise (Pg.ingStr s) Er.ingStr_codecHollow f.pn
        let sl := d.slices s (bytes.take f.size) j.codec
        let d := if d.flag (F.ingStrCodec_codec s) then
            (d.countN (F.ingProcCnt 0) (sl.filter (·.1)).length).countN (F.ingProcCnt 1) (sl.filter (fun x => !x.1)).length
          else d
        let d := d.when j.hashed (·.count (F.ingProcCnt 3))
        let d := (d.wr F.ingProcBusy_codec (lowBits d.codecsOut 16 (if j.codec then j.slices else 0))).wr
          F.ingProcBusy_sha (lowBits d.shasOut 8 (b2n j.hashed))
        let d := d.onFrame s f.pn fun f => { f with hollow := f.hollow || j.marked }
        (d.onStream s fun st => { st with draining := some f.pn }).onIng fun i => { i with drains := i.drains ++ [j] }

/-! ## The append (R182) -/

/-- Where the next stored frame of `len` bytes goes on a volume, in 256-byte units: the append point, moved to the next unit
boundary where its encryption setting differs from that of the unit being filled. -/
def Dev.appendAt (d : Dev) (v enc : Nat) : Nat :=
  let a := max (Map.get 0 d.sfl.append v) (256 * d.rd (F.sflVolCfg_idx v))
  match Map.find d.sfl.encLast v with
  | some e => if e ≠ enc ∧ a % 256 ≠ 0 then ceilDiv a 256 * 256 else a
  | none => a

/-- Bytes written to a volume from byte `at_` on, one capture job for each unit they touch. -/
def Dev.volWrite (d : Dev) (v at_ : Nat) (bytes : List Byte) (holes : List Nat) (enc : Bool) (key stream pn : Nat) : Dev :=
  let base := 4096 * d.rd (F.sflVolBase v)
  let first := at_ / unitBytes
  let n := ceilDiv (at_ + bytes.length) unitBytes - first
  (List.range n).foldl (fun d i =>
    let lo := max at_ ((first + i) * unitBytes)
    let hi := min (at_ + bytes.length) ((first + i + 1) * unitBytes)
    let ofs := lo % unitBytes
    let piece := mapOfBytes ofs (slice bytes (lo - at_) (hi - lo))
    let hol := holes.foldl (fun m h => if lo ≤ at_ + h ∧ at_ + h < hi then m ||| 2 ^ ((at_ + h) % unitBytes / 4096) else m) 0
    (d.addJob { newJob (.capture stream pn) (base + first + i) 1 with
      ofs := ofs, len := hi - lo, data := piece, hollow := hol, enc := enc, key := key, stream := stream }).2) d

/-- The Frame Index entry of a drained frame, over its entry as it stands (R99). -/
def drainedEntry (old : List Byte) (j : DrainJob) (enc : Bool) (durable : Bool) (loc : Nat) : List Byte :=
  let raw := fieldAt old 40 4
  let len := j.stored.length
  let keep := fieldAt old 2 2 &&& 0xFF8E
  let fl := keep ||| maskOf [j.marked || bitAt (fieldAt old 2 2) 0, false, false, false, j.codec, j.hashed, enc] ||| (if durable then 0x400 else 0)
  let e := splice old 2 (leBytes 2 fl)
  let e := splice e 44 (leBytes 4 len ++ leBytes 8 loc ++ leBytes 2 (if len = 0 then 0xFFFF else min 0xFFFF (raw * 256 / len)))
  splice e 64 (padTo 32 j.digest)

/-- DRAIN_FRAME_END: the stored frame and its index entry are appended to the session's volume, or wait with VOL_FULL, which an
append that fills a region raises too. -/
def Dev.drainEnd (d : Dev) (s pn : Nat) : Dev :=
  match d.ing.drains.find? (fun j => j.stream == s && j.pn == pn), d.frameOf s pn with
  | some j, some f =>
    let v := d.frameVol f
    let enc := d.flag (F.ingStrCodec_aes s)
    let key := d.rd (F.ingStrCodec_key s)
    let at_ := d.appendAt v (if enc then key + 1 else 0)
    let idx := Map.get 0 d.sfl.idxNext v
    let len := ceilDiv j.stored.length 256
    let full := decide (d.rd (F.sflVolSize v) * 4096 * 256 < at_ + len) || decide (512 * d.rd (F.sflVolCfg_idx v) ≤ idx)
    if full then
      if j.full then d
      else (d.raise (Pg.sflVol v) Er.sflVol_volFull v).onIng fun i => { i with
        drains := i.drains.map (fun x => if x.stream = s ∧ x.pn = pn then { x with full := true } else x) }
    else
      let loc := 2 ^ 63 + v * 2 ^ 56 + at_ % 16 * 2 ^ 52 + at_ / 16
      let (old, d) := d.chainRead s f.start 128
      let d := d.volWrite v (256 * at_) j.stored j.hollow enc key s pn
      let d := d.volWrite v (128 * idx) (drainedEntry old.data j enc true loc) (if old.hollow then [0] else []) enc key s pn
      let d := d.onSfl fun x => { x with
        append := Map.set 0 x.append v (at_ + len), idxNext := Map.set 0 x.idxNext v (idx + 1)
        encLast := Map.put x.encLast v (if enc then key + 1 else 0) }
      let d := ((d.journal 10 0 v (at_ + len) (idx + 1)).2).showAppend v
      let d := d.editEntry s f fun old => drainedEntry old j enc false loc
      let d := d.onFrame s pn fun f => { f with drained := true, location := loc }
      let d := (d.wr F.ingProcBusy_codec 0).wr F.ingProcBusy_sha 0
      let d := (d.onStream s fun st => { st with draining := none }).onIng fun i => { i with drains := i.drains.filter (fun x => !(x.stream == s && x.pn == pn)) }
      if 512 * d.rd (F.sflVolCfg_idx v) ≤ idx + 1 ∨ d.rd (F.sflVolSize v) * 4096 * 256 ≤ at_ + len
      then d.raise (Pg.sflVol v) Er.sflVol_volFull v else d
  | _, _ => d

/-! ## Durability (R101, R102) -/

/-- The watermark: one above the highest PN such that it and every earlier take frame are durable. -/
def Dev.showWatermark (d : Dev) (s : Nat) : Dev :=
  let taken := (d.stream s).frames.filter (fun f => f.take_.isSome && !f.released)
  match (taken.takeWhile (·.durable)).getLast? with
  | some f => (d.wr (F.ingStrWmPn s) (f.pn + 1)).wr (F.ingStrWmFrame s) f.frame
  | none => d

/-- FRAME_DURABLE: every unit of the stored frame and of its entry is durable. DESIGN CHOICE: a lookup slot that a newer frame has taken stays
that frame's (log entry 85). ING_STR_LAST follows the newest complete frame to its volume (log entry 86). -/
def Dev.frameDurable (d : Dev) (s pn : Nat) : Dev :=
  match d.frameOf s pn with
  | none => d
  | some f =>
    if !f.drained || f.durable || d.sfl.jobs.any (fun j => j.why == .capture s pn) then d
    else
      let d := d.onFrame s pn fun f => { f with durable := true }
      let was := d.storeLocation s f
      let d := d.editEntry s f fun old => splice (splice old 2 (leBytes 2 (fieldAt old 2 2 ||| 0x400))) 48 (leBytes 8 f.location)
      let (slot, d) := d.sysRead (lookupAddr s f.pn) 16
      let d := d.when (fieldAt slot.data 4 4 == f.pn) (·.writeLookup s f f.location)
      let d := d.when (d.get64 (F.ingStrLastLo s) (F.ingStrLastHi s) == was) (·.put64 (F.ingStrLastLo s) (F.ingStrLastHi s) f.location)
      (d.showWatermark s).reclaim s

/-! ## Known-answer checks (R103, R245, R300) -/

/-- ING is STAGED or HOLDING. -/
def Dev.ingStaged (d : Dev) : Bool := decide (d.rd (F.pltFwReg_state (regionOf Pg.ingProc)) ≠ 0)

/-- A codec, SHA-256 or stripe engine fails its check, or passes: a failed one is fenced. While ING is STAGED or HOLDING its engines make no
check (R491 N2). -/
def Dev.engineFails (d : Dev) (e : EngineRef) (pass : Bool) : Dev :=
  let fails (d : Dev) (page bit info : Nat) (c : Cell) : Dev := (d.raise page bit info).fence1 (cellPage c) (some (page, bit))
  match e with
  | .codec i =>
    if (pass ∧ !d.injected Pg.ingProc Er.ingProc_engineFail) ∨ d.ingStaged ∨ d.codecsOut.testBit (i % 16) then d
    else fails ((d.takeInjected Pg.ingProc Er.ingProc_engineFail).count (F.ingProcCnt 4)) Pg.ingProc Er.ingProc_engineFail (i % 16)
      (.codec (i % 16))
  | .sha i =>
    if pass ∨ d.ingStaged ∨ d.shasOut.testBit (i % 8) then d
    else fails (d.count (F.ingProcCnt 4)) Pg.ingProc Er.ingProc_engineFail (16 + i % 8) (.sha (i % 8))
  | .stripe i =>
    if (pass ∧ !d.injected Pg.parReg Er.parReg_engineFail) ∨ (d.cellsOut F.parEngFenced .stripe 16).testBit (i % 16) then d
    else fails (d.takeInjected Pg.parReg Er.parReg_engineFail) Pg.parReg Er.parReg_engineFail (i % 16) (.stripe (i % 16))
  | .ldpc _ => d

end Sys2Proof.Machine
end

