-- ==== Sys2Proof/Machine/Hat.lean ====
section
/-! DEFINITION. The host attachment's machinery (R439–R452, R457, R458, R467, R470): the memory window, queues and their
response rings, capsules and how they are judged, range locks, transfers, and the cores that serve the queues. -/
namespace Sys2Proof.Machine
open Sys2Proof

/-! ## The memory window (R440, R441, R467) -/

/-- The window is open: the fallback link is up, or the committed decoders together cover 0 to W − 1. -/
def Dev.windowOpen (d : Dev) : Bool :=
  if d.rd F.pltStat_link = 2 then true
  else
    let rs := d.hat.decoders.filterMap id
    let past (a : Nat) : Nat := ((rs.find? (fun r => decide (r.1 ≤ a) && decide (a < r.2))).map (·.2)).getD a
    decide (d.memW ≤ past (past 0))

/-- HDM_DECODER_COMMIT of DPA `first` to `end_` − 1: answers 1 for committed, 0 for Error Not Committed. A decoder whose
commit fails stays uncommitted. -/
def Dev.hdmCommit (d : Dev) (i first end_ : Nat) : Dev :=
  if d.rd F.pltStat_link = 2 ∨ 2 ≤ i then d
  else
    let clash := match d.hat.decoders.getD (1 - i) none with
      | some r => decide (first < r.2) && decide (r.1 < end_)
      | none => false
    let ok := decide (end_ ≤ d.memW) && decide (first < end_) && !clash
    (d.onHat fun h => { h with decoders := h.decoders.set i (if ok then some (first, end_) else none) }).answer (b2n ok)

/-- DevLoad of a response: Light Load while nothing waits at the store. How many requests make it full is left open (log entry
43). -/
def Dev.sendLoad (d : Dev) : Dev :=
  if d.rd F.pltStat_link ≠ 1 then d
  else if d.cst.waiting.isEmpty then d.send (.devLoad 0)
  else (d.send (.devLoad (d.free 9 % 4))).stepFree

/-- An access at W or above: counted in HAT_REG as R3 gives. -/
def Dev.aboveW (d : Dev) (isWrite : Bool) (info : Nat) : Dev :=
  (d.countIgnored Pg.hatReg info (b2n isWrite)).count (F.hatCnt 4)

/-- A host load of a line (R440, R443, R467). -/
def Dev.hostRead (d : Dev) (rd : LineRead) : Dev :=
  if d.rd F.pltStat_link = 0 then d
  else if d.hat.d3hot then d.send (.line rd.addr (zeros 64) false)
  else
    let d := d.count (F.hatCnt 0)
    let d := if rd.addr < d.memW then d.storeRead { rd with by_ := none } true
      else ((d.aboveW false rd.addr).count (F.hatCnt 3)).send (.line rd.addr (zeros 64) true)
    d.sendLoad

/-- A host store of a line or part of one (R113, R119, R125, R440): it lands only in an allocated buffer with HOSTW. -/
def Dev.hostWrite (d : Dev) (wr : LineWrite) : Dev :=
  if d.rd F.pltStat_link = 0 then d
  else
    let d := d.count (F.hatCnt 1)
    let wr := { wr with hollow := wr.hollow || d.injected Pg.hatReg Er.hatReg_poisonRx }
    let d := d.takeInjected Pg.hatReg Er.hatReg_poisonRx
    let d := d.when wr.hollow fun d => (d.count (F.hatCnt 2)).raise Pg.hatReg Er.hatReg_poisonRx wr.addr
    let e := d.bufEnt (granuleOf wr.addr)
    let d := if d.memW ≤ wr.addr then d.aboveW true wr.addr
      else if !(e.alloc && e.hostw) || d.injected Pg.bpmReg Er.bpmReg_hostwDrop then (((d.takeInjected Pg.bpmReg Er.bpmReg_hostwDrop).raise Pg.bpmReg Er.bpmReg_hostwDrop wr.addr).count (F.bpmCnt 6)).countIgnored Pg.bpmReg wr.addr
      else (d.forward wr).storeWrite { wr with by_ := none, cls := 2 }
    d.sendLoad

/-! ## Queues (R445, R446, R451) -/

def Dev.queue (d : Dev) (q : Nat) : Queue := Map.get Queue.reset d.hat.queues q
def Dev.onQueue (d : Dev) (q : Nat) (f : Queue → Queue) : Dev :=
  d.onHat fun h => { h with queues := Map.modify Queue.reset h.queues q f }
/-- HAT_QSTAT.STATE: 0 OFF, 1 ACTIVE, 2 RESETTING. -/
def Dev.qState (d : Dev) (q : Nat) : Nat := d.rd (F.hatQstat_state q)
def Dev.cmdsOf (d : Dev) (q : Nat) : List Cmd := d.hat.cmds.filter (·.queue == q)
def Dev.xfersOf (d : Dev) (q : Nat) : List Xfer := d.hat.xfers.filter (·.queue == q)
def Dev.cmdOf (d : Dev) (q cid : Nat) : Option Cmd := d.hat.cmds.find? (fun c => c.queue == q && c.cid == cid)

/-! ## Cores (R448, R470) -/

def Dev.coreFenced (d : Dev) (c : Nat) : Bool := (d.rd F.seqCoreStat_fenced).testBit c
/-- The core that serves a queue. -/
def Dev.coreOf (d : Dev) (q : Nat) : Nat := (firstFrom 8 (q % 8) (fun c => !d.coreFenced c)).getD (q % 8)

/-- What HAT_QSTAT, HAT_QOUT and SEQ_CORE_STAT show of a queue's work. -/
def Dev.showQ (d : Dev) (q : Nat) : Dev :=
  let d := (d.wr (F.hatQstat_h q) (d.queue q).head).wr (F.hatQout_xfers q) (d.xfersOf q).length
  let d := d.wr (F.hatQout_cmds q) (d.cmdsOf q).length
  d.wr F.seqCoreStat_busy ((d.hat.cmds.filter (·.started)).foldl (fun m c => m ||| 2 ^ d.coreOf c.queue) 0)

/-! ## Response rings (R449, R450) -/

def Queue.full (x : Queue) : Bool := decide ((x.rtail + 1) % x.rdepth = x.rhead % x.rdepth)

/-- An entry is written at the ring tail with H and the phase, counted, and signalled when AGG entries are due. -/
def Dev.ringWrite (d : Dev) (q : Nat) (e : List Byte) : Dev :=
  let x := d.queue q
  let e := splice (splice (padTo 64 e) 6 (leBytes 2 x.head)) 63 [w8 (1 - x.rtail / x.rdepth % 2)]
  let d := (d.send (.response q (x.base + 64 * (x.rtail % x.rdepth)) e)).count (F.hatCnt 7)
  let due := decide (x.agg ≤ x.unsig + 1)
  let d := d.onQueue q fun y => { y with
    rtail := y.rtail + 1
    unsigAt := (if x.unsig = 0 then d.now else y.unsigAt)
    unsig := (if due then 0 else y.unsig + 1) }
  d.when due (·.msix x.vec)

/-- A response: written, or held in order while the ring is full. -/
def Dev.respond (d : Dev) (q : Nat) (e : List Byte) : Dev :=
  let x := d.queue q
  if x.held.isEmpty && !x.full then d.ringWrite q e
  else d.onQueue q fun y => { y with held := y.held ++ [e], heldAt := (if x.held.isEmpty then d.now else y.heldAt) }

/-- Held responses go out while the ring has room. -/
def Dev.flushHeld (d : Dev) (q : Nat) : Dev :=
  (d.queue q).held.foldl (fun (d : Dev) e =>
    if (d.queue q).full then d
    else (d.onQueue q fun y => { y with held := y.held.drop 1, heldAt := d.now }).ringWrite q e) d

/-- HAT_RHDB: a head between the current head and the tail, inclusive, returns entries; any other is ignored and counted. -/
def Dev.rhdb (d : Dev) (q v : Nat) : Dev :=
  let x := d.queue q
  let n := (v + x.rdepth - x.rhead % x.rdepth) % x.rdepth
  if d.qState q = 0 ∨ x.rdepth ≤ v ∨ x.rtail - x.rhead < n then d.countIgnored Pg.hatDb (0x102104 + 8 * q) 5
  else (d.onQueue q fun y => { y with rhead := y.rhead + n }).flushHeld q

/-- AGG_TIME ticks have passed since the first entry not yet signalled. -/
def Dev.aggTimer (d : Dev) (q : Nat) : Dev :=
  let x := d.queue q
  if x.unsig = 0 ∨ d.since x.unsigAt < x.aggTime then d
  else (d.onQueue q fun y => { y with unsig := 0 }).msix x.vec

/-- Responses have been held for 4,000 ticks (R469). -/
def Dev.ringFull (d : Dev) (q : Nat) : Dev :=
  let x := d.queue q
  if x.held.isEmpty ∨ d.since x.heldAt < 4000 then d else d.raise Pg.hatReg Er.hatReg_ringFull q

/-- The completion of a command (R452). -/
def Cmd.completion (c : Cmd) (v : Nat × Nat × Nat × Nat) : List Byte :=
  leBytes 1 0x83 ++ leBytes 1 c.op ++ leBytes 2 c.cid ++ leBytes 2 v.1 ++ zeros 2 ++ leBytes 4 v.2.1 ++ leBytes 4 v.2.2.1 ++
    leBytes 8 v.2.2.2 ++ leBytes 4 c.hollow ++ zeros 36

/-! ## Range locks (R457) -/

/-- The status with which VOL, LBA and NLB do not fit, if they do not: NO_VOLUME, LBA_RANGE. `lim` bounds NLB. -/
def Dev.rangeBad (d : Dev) (c : Cmd) (lim : Nat) : Option Nat :=
  let nlb := c.arg 16 4
  if c.vol = 0 ∨ 64 < c.vol ∨ d.rd (F.sflVolSize (c.vol - 1)) = 0 then some 0x20
  else if nlb = 0 ∨ lim < nlb ∨ d.rd (F.sflVolSize (c.vol - 1)) * 65536 < c.arg 8 8 + nlb then some 0x21
  else none

/-- A WRITE or READ that waits for an entry of the table. -/
def Dev.wantsEntry (d : Dev) (c : Cmd) : Bool :=
  (c.op == 1 || c.op == 2) && !c.started && !c.entry && c.verdict.isNone && (d.rangeBad c 65536).isNone

def Dev.showLocks (d : Dev) : Dev :=
  (d.wr F.seqRlStat_used (d.hat.cmds.filter (·.entry)).length).wr F.seqRlStat_waiting (d.hat.cmds.filter d.wantsEntry).length

/-- Free entries go to the commands that need one, in arrival order. -/
def Dev.rlAssign (d : Dev) : Dev :=
  let free := 8192 - (d.hat.cmds.filter (·.entry)).length
  let give := ((d.hat.cmds.filter d.wantsEntry).take free).map (·.arrival)
  (d.onHat fun h => { h with cmds := h.cmds.map (fun c => if give.contains c.arrival then { c with entry := true } else c) }).showLocks

/-- Two ranges of one volume that overlap, one of them a WRITE's. -/
def Cmd.conflicts (a b : Cmd) : Bool :=
  a.vol == b.vol && (a.op == 1 || b.op == 1) && decide (a.arg 8 6 < b.arg 8 6 + b.arg 16 4) && decide (b.arg 8 6 < a.arg 8 6 + a.arg 16 4)

/-- No entry with a lower arrival number conflicts with the command's. -/
def Dev.rangeFree (d : Dev) (c : Cmd) : Bool :=
  c.entry && !d.hat.cmds.any (fun x => x.entry && decide (x.arrival < c.arrival) && x.conflicts c)

/-- A command's lock and entry are given back. -/
def Dev.unlock (d : Dev) (a : Nat) : Dev := (d.onCmd a fun c => { c with entry := false, locked := false }).rlAssign

/-! ## Starting (R55, R458) -/

/-- ORDERED commands stand alone in their queue. -/
def Dev.orderOk (d : Dev) (c : Cmd) : Bool :=
  let before := (d.cmdsOf c.queue).filter (fun x => decide (x.arrival < c.arrival))
  if c.flags.testBit 0 then before.isEmpty else !before.any (fun x => x.flags.testBit 0)

/-- A firmware activation holds new work (R55). -/
def Dev.holds (d : Dev) : Bool := (List.range 12).any d.holding

def Dev.mayBegin (d : Dev) (c : Cmd) : Bool :=
  !c.started && c.verdict.isNone && d.orderOk c && !d.holds && decide (d.qState c.queue ≠ 0) &&
    !d.closed (corePage (d.coreOf c.queue))

/-! ## Capsules (R447, R452, R453, R472) -/

/-- The ARGS bytes that an opcode lists, as (first, count). -/
def opArgs : Nat → List (Nat × Nat)
  | 0x01 => [(8, 6), (16, 4)]
  | 0x02 => [(8, 6), (16, 4)]
  | 0x04 => [(8, 3), (12, 8)]
  | 0x05 => [(8, 1), (12, 8)]
  | 0x06 => [(8, 8), (16, 4), (20, 4), (24, 2)]
  | 0x07 => [(8, 4), (16, 4), (20, 4)]
  | 0x08 => [(20, 2), (24, 2)]
  | 0x09 => [(20, 2), (25, 1)]
  | 0x0A => [(8, 1)]
  | 0x0B => [(8, 1)]
  | 0x0C => [(8, 1)]
  | 0x81 => [(8, 1), (20, 2)]
  | 0x82 => [(8, 1), (16, 12)]
  | 0x83 => [(8, 3), (12, 4)]
  | 0x84 => [(8, 3)]
  | 0x85 => [(8, 2), (12, 8)]
  | 0x86 => [(8, 1), (10, 3)]
  | 0x87 => [(8, 1), (16, 6), (24, 12)]
  | 0x88 => [(8, 1)]
  | 0x89 => [(8, 1)]
  | 0x8A => [(8, 2), (12, 4)]
  | _ => []

/-- The opcodes that name a volume. -/
def opVol (op : Nat) : Bool := [1, 2, 3, 6, 0x81].contains op
/-- The opcode exists, and its class is that of the queue (R445). -/
def opFits (q op : Nat) : Bool :=
  if q = 0 then decide (0x81 ≤ op) && decide (op ≤ 0x8A) else decide (1 ≤ op) && decide (op ≤ 0x0C)

/-- Every byte outside the ranges is zero. -/
def zeroElse (b : List Byte) (listed : List (Nat × Nat)) : Bool :=
  (List.range 64).all (fun i => listed.any (fun r => decide (r.1 ≤ i) && decide (i < r.1 + r.2)) || (b.getD i 0 == 0))

/-- The frames whose durability a FLUSH with DRAIN waits for: complete frames of the takes of the volume's sessions. -/
def Dev.drainFrames (d : Dev) (vol : Nat) : List (Nat × Nat) :=
  ((List.range 32).map (fun s =>
    ((d.stream s).frames.filter (fun f => f.closed && f.take_.isSome && !f.gone && d.frameVol f + 1 == vol)).map (fun f => (s, f.pn)))).flatten

/-- A capsule that is malformed: ignored, counted in HAT_DB and logged. -/
def Dev.malformed (d : Dev) (q slot : Nat) (b : List Byte) : Dev :=
  let p := Pg.hatDb
  let d := d.setRaw (p + 0x2C) (w32 (satInc 32 (d.raw (p + 0x2C)).toNat))
  let r := d.logRec 4 p 31 0 0 (4096 * q + 64 * slot) 3
  (d.logAccess { r with queue := q, qslot := slot, caps := b.take 16 }).raise p 31

/-- A well-formed command enters the queue's outstanding commands with its arrival number. -/
def Dev.addCmd (d : Dev) (q : Nat) (b : List Byte) : Dev :=
  let a := d.hat.arrivals + 1
  let op := fieldAt b 1 1
  let c : Cmd := {
    queue := q, cid := fieldAt b 2 2, arrival := a, op := op, flags := fieldAt b 4 1, vol := fieldAt b 5 1, args := b
    started := false, entry := false, locked := false, phase := 0, next := 0, units := 0, issued := [], done := [], hollow := 0
    found := [], data := [], stop := none, core := d.coreOf q
    wait := (if op = 3 ∧ bitAt (fieldAt b 4 1) 1 then d.drainFrames (fieldAt b 5 1) else [])
    refused := false, res := (0, 0, 0), verdict := none, brought := false }
  let d := (d.onHat fun h => { h with arrivals := a, cmds := h.cmds ++ [c] }).rlAssign
  if d.hat.cmds.any (fun x => x.arrival == a && d.wantsEntry x) then (d.count (F.seqRlCnt 2)).raise Pg.seqRl Er.seqRl_rlFull q else d

/-- The outstanding transfer that a DATA_DONE (KIND 2) or RELEASE (KIND 3) names. -/
def Dev.xferOf (d : Dev) (q kind cid xid : Nat) : Option Xfer :=
  d.hat.xfers.find? (fun x => x.queue == q && x.cid == cid && x.xid == xid && (x.write == decide (kind = 2)))

/-- The capsule at the window head is consumed. -/
def Dev.consume (d : Dev) (q : Nat) : Dev :=
  let x := d.queue q
  let slot := x.head % 64
  let b := Map.getRun 0 x.window (64 * slot) 64
  let d := (d.onQueue q fun y => { y with head := (y.head + 1) % 65536 }).count (F.hatCnt 5)
  let kind := fieldAt b 0 1
  let op := fieldAt b 1 1
  let cid := fieldAt b 2 2
  let flags := fieldAt b 4 1
  if kind = 1 then
    let ok := opFits q op && zeroElse b ([(0, 5)] ++ (if opVol op then [(5, 1)] else []) ++ opArgs op) &&
      decide (flags < 4) && (!flags.testBit 1 || op == 3) && (d.cmdOf q cid).isNone
    if ok then d.addCmd q b else d.malformed q slot b
  else if kind = 2 ∨ kind = 3 then
    let xid := fieldAt b 4 2
    let ok := zeroElse b [(0, 1), (2, 4)] && (d.xferOf q kind cid xid).isSome && !d.hat.capsules.contains (q, kind, cid, xid)
    if ok then d.onHat fun h => { h with capsules := h.capsules ++ [(q, kind, cid, xid)] } else d.malformed q slot b
  else d.malformed q slot b

/-- What R446 asks of a doorbell: the queue ACTIVE, 1 to 64 capsules in the window, and no more commands than DEPTH. -/
def Dev.doorbellOk (d : Dev) (q n : Nat) : Bool :=
  let x := d.queue q
  let new := behind 16 n x.tail
  let cmds := (List.range new).filter (fun i => Map.get 0 x.window (64 * ((x.tail + i) % 64)) == 1)
  decide (d.qState q = 1) && decide (1 ≤ new) && decide (behind 16 n x.head ≤ 64) &&
    decide (cmds.length + (d.cmdsOf q).length ≤ x.depth)

/-- HAT_SQDB: the doorbell is accepted and capsules T to N − 1 are consumed in order, or it is ignored and counted. -/
def Dev.sqdb (d : Dev) (q n : Nat) : Dev :=
  if d.hat.d3hot then d
  else if !d.doorbellOk q n then (d.countIgnored Pg.hatDb (0x102100 + 8 * q) 5).count (F.hatCnt 6)
  else
    let new := behind 16 n (d.queue q).tail
    let d := d.onQueue q fun y => { y with tail := n }
    ((List.range new).foldl (fun (d : Dev) _ => d.consume q) d).showQ q

/-- A write to a capsule window is stored in its bytes. -/
def Dev.slotWrite (d : Dev) (q ofs : Nat) (bs : List Byte) : Dev :=
  if d.hat.d3hot ∨ 64 ≤ q then d
  else d.onQueue q fun y => { y with window := Map.setRun 0 y.window ofs (bs.take (4096 - ofs)) }

/-! ## Transfers (R442, R452, R454, R455) -/

/-- The next XID that no outstanding transfer of the queue has. -/
def Dev.newXid (d : Dev) (q : Nat) : Nat :=
  let used := (d.xfersOf q).map (·.xid)
  (((List.range (used.length + 1)).map (fun i => ((d.queue q).nextXid + i) % 65536)).find? (fun x => !used.contains x)).getD 0

def Dev.canXfer (d : Dev) (q : Nat) : Bool := decide ((d.xfersOf q).length < (d.queue q).xferMax)

/-- An outstanding transfer and its XFER_RDY or READ_RDY. -/
def Dev.addXfer (d : Dev) (c : Cmd) (unit h ofs len at_ flags entries : Nat) (write : Bool) : Dev :=
  let xid := d.newXid c.queue
  let d := d.onQueue c.queue fun y => { y with nextXid := (xid + 1) % 65536 }
  let d := d.onHat fun s => { s with xfers := s.xfers ++ [⟨c.arrival, c.queue, c.cid, xid, unit, h, ofs, len, write⟩] }
  d.respond c.queue (leBytes 1 (if write then 0x81 else 0x82) ++ leBytes 1 c.op ++ leBytes 2 c.cid ++ leBytes 2 xid ++ zeros 2 ++
    leBytes 8 (if h = handleNone then 0 else handleAddr h) ++ leBytes 4 ofs ++ leBytes 4 len ++ leBytes 8 at_ ++ leBytes 1 flags ++ leBytes 3 entries)

/-- A buffer goes back to its pool, freed by the owner that holds it now. -/
def Dev.freeHandle (d : Dev) (h : Nat) : Dev :=
  if h = handleNone then d else d.freeBuf (d.bufEnt (handleIndex h)).owner h

/-- A transfer ends, and its buffer is freed. -/
def Dev.dropXfer (d : Dev) (x : Xfer) : Dev :=
  (d.onHat fun h => { h with
    xfers := h.xfers.filter (· != x)
    capsules := h.capsules.filter (fun k => !(k.1 == x.queue && k.2.2.1 == x.cid && k.2.2.2 == x.xid)) }).freeHandle x.handle

/-- A buffer for a transfer, or NONE; after a NONE the command asks again once a buffer can be granted (log entry 44). With the
window closed the command ends NO_WINDOW (R441). -/
def Dev.askBuf (d : Dev) (c : Cmd) : Nat × Dev :=
  let o := 40 + d.coreOf c.queue
  let can := d.quotaAllows o 2 && !d.bpm.fenced.contains o && (d.grantStack (d.ownerPool o) o).isSome
  if !d.windowOpen then (handleNone, d.cmdEnds c.arrival 0x23 0 0 0)
  else if !d.canXfer c.queue || (c.refused && !can) then (handleNone, d)
  else
    let (h, d) := d.grant o 2
    (h, d.onCmd c.arrival fun c => { c with refused := decide (h = handleNone) })

/-- SEQ acts on a transfer's buffer as the owner that holds it (R124). -/
def Dev.seqBy (d : Dev) (h : Nat) : ActBy := ⟨h, (d.bufEnt (handleIndex h)).owner, 1⟩

/-- Bytes delivered in a granted buffer, with the lines that carry the Hollow mark given by their offset in the bytes. -/
def Dev.deliverIn (d : Dev) (c : Cmd) (h unit ofs : Nat) (data : List Byte) (holes : List Nat) (at_ flags entries : Nat) : Dev :=
  let a := handleAddr h + ofs
  let d := (List.range (ceilDiv data.length 64)).foldl (fun (d : Dev) i =>
    d.writeFwd (a + 64 * i) (slice data (64 * i) 64) (holes.contains (64 * i)) 2 (some (d.seqBy h))) d
  let bad := (uniq (holes.map (· / 4096))).length
  let d := d.onCmd c.arrival fun c => { c with hollow := c.hollow + bad }
  d.addXfer c unit h ofs data.length at_ (flags ||| b2n (decide (0 < bad))) entries false

/-! ## Pins (R461) -/

/-- The owner in whose name a pin keeps buffers now: owner 63 once its core was fenced (R470). -/
def Dev.pinHolder (d : Dev) (p : Pin) : Nat := if d.bpm.fenced.contains p.owner then 63 else p.owner

/-- A pin has ended: buffers handed over that no pin of the same holder covers are released or freed. -/
def Dev.pinEnd (d : Dev) (p : Pin) : Dev :=
  let d := d.onHat fun h => { h with pins := h.pins.erase p }
  let o := d.pinHolder p
  (p.bufs.filter (fun b => !d.hat.pins.any (fun x => d.pinHolder x == o && x.bufs.contains b))).foldl (fun (d : Dev) b =>
    let e := d.bufEnt b
    let h := mkHandle e.gen b
    let chained := (List.range 32).any (fun s => (d.stream s).chain.contains h)
    if chained then d
    else match Map.find d.bpm.shares b with
      | some r => if r.last = o then (d.bpmFree o (.handle h)).2 else (d.bpmRelease o (.handle h)).2
      | none => if e.alloc ∧ e.owner = o then d.freeBuf o h else d) d

def Dev.pinsEnd (d : Dev) (f : Pin → Bool) : Nat × Dev :=
  let ps := d.hat.pins.filter f
  (ps.length, ps.foldl (fun d p => d.pinEnd p) d)

/-! ## Meanings -/

/-- CXL_MEM_READ (R440). -/
def execCxlMemRead (rd : LineRead) (s : State) : Host.Outcome State Fault Refusal := run s (·.hostRead rd)

/-- CXL_MEM_WRITE (R440): the bytes that lie in the addressed line. -/
def execCxlMemWrite (wr : LineWrite) (s : State) : Host.Outcome State Fault Refusal :=
  run s (·.hostWrite { wr with data := wr.data.take (64 - wr.addr % 64) })

/-- CXL_MEM_SPEC_READ (R439): a hint, which is dropped. -/
def execCxlMemSpecRead (_addr : Nat) (s : State) : Host.Outcome State Fault Refusal := run s fun d => d

/-- CXL_MEM_INV (R439): completed with no effect but the response's DevLoad. -/
def execCxlMemInv (_addr : Nat) (s : State) : Host.Outcome State Fault Refusal := run s (·.sendLoad)

/-- HDM_DECODER_COMMIT (R441). -/
def execHdmDecoderCommit (index first end_ : Nat) (s : State) : Host.Outcome State Fault Refusal :=
  run s (·.hdmCommit index first end_)

/-- CAPSULE_SLOT_WRITE (R445). -/
def execCapsuleSlotWrite (queue offset : Nat) (bytes : List Byte) (s : State) : Host.Outcome State Fault Refusal :=
  run s (·.slotWrite queue offset bytes)

/-- A doorbell is rung: it acts in the chip safe state too, in which R494 lets admin commands run (log entry 52). -/
def Dev.asBell (d : Dev) (f : Dev → Dev) : Dev := if d.plat.softReset.isSome then d.countIgnored Pg.hatDb else f d

/-- HAT_SQDB (R446). -/
def execHatSqdb (queue tail : Nat) (s : State) : Host.Outcome State Fault Refusal :=
  run s fun d => d.asBell (·.sqdb (queue % 64) (tail % 65536))

/-- HAT_RHDB (R449). -/
def execHatRhdb (queue head : Nat) (s : State) : Host.Outcome State Fault Refusal :=
  run s fun d => d.asBell (·.rhdb (queue % 64) (head % 8192))

/-- MSIX_AGG_TIMER (R450). -/
def execMsixAggTimer (queue : Nat) (s : State) : Host.Outcome State Fault Refusal := run s (·.aggTimer queue)

/-- RING_FULL (R469). -/
def execRingFull (queue : Nat) (s : State) : Host.Outcome State Fault Refusal := run s (·.ringFull queue)

/-- D3HOT_TRANSITION (R443). -/
def execD3hotTransition (on : Bool) (s : State) : Host.Outcome State Fault Refusal :=
  run s fun d => d.onHat fun h => { h with d3hot := on }

end Sys2Proof.Machine
end

