-- ==== Sys2Proof/Machine/HostIo.lean ====
section
/-! DEFINITION. I/O commands of the host at work: WRITE, READ, FLUSH, FRAME_READ and pins (R454–R456, R459–R461, R465). -/
namespace Sys2Proof.Machine
open Sys2Proof

/-! ## Ends -/

/-- A command with its status alone, and with results. -/
def Cmd.endsAt (c : Cmd) (d : Dev) (status : Nat) : Dev := d.cmdEnds c.arrival status 0 0 0
def Cmd.delivered (c : Cmd) : Nat := if c.hollow = 0 then 0 else 1

/-- A command starts: its core takes it. -/
def Dev.started (d : Dev) (c : Cmd) : Dev :=
  (d.onCmd c.arrival fun x => { x with started := true, core := d.coreOf c.queue, phase := 0 }).showQ c.queue

/-! ## Units of a command (R454, R455) -/

def Cmd.lba (c : Cmd) : Nat := c.arg 8 8
def Cmd.nlb (c : Cmd) : Nat := c.arg 16 4
/-- Units that [LBA, LBA + NLB) touches, and the GLU of unit `u`. -/
def Cmd.unitCount (c : Cmd) : Nat := (c.lba + c.nlb - 1) / 16 + 1 - c.lba / 16
def Dev.gluOf (d : Dev) (c : Cmd) (u : Nat) : Nat := 4096 * d.rd (F.sflVolBase (c.vol - 1)) + c.lba / 16 + u
/-- First block of the command in unit `u`, and how many. -/
def Cmd.blockFrom (c : Cmd) (u : Nat) : Nat := max c.lba (16 * (c.lba / 16 + u))
def Cmd.blocks (c : Cmd) (u : Nat) : Nat := min (c.lba + c.nlb) (16 * (c.lba / 16 + u + 1)) - c.blockFrom u

/-- Logical blocks, as lines' offsets, that a Hollow map marks among the blocks from `b` on. -/
def hollowLines (map b n : Nat) : List Nat :=
  ((List.range n).filter (fun i => map.testBit (b + i))).map (fun i => (List.range 64).map (fun j => 4096 * i + 64 * j)) |>.flatten

/-! ## WRITE -/

/-- XFER_RDYs go out while transfers, buffers and the pool's level allow. -/
def Dev.xferRdys (d : Dev) (a : Nat) : Nat → Dev
  | 0 => d
  | n + 1 => match d.cmdAt a with
    | none => d
    | some c =>
      let o := 40 + d.coreOf c.queue
      if c.units ≤ c.next ∨ c.stop.isSome ∨ d.flag (F.bpmPoolStat_pressure (d.ownerPool o)) then d
      else
        let (h, d) := d.askBuf c
        if h = handleNone then d
        else
          let d := (d.bpmHostw o (.handle h) true).2
          let d := d.addXfer c c.next h (c.blockFrom c.next % 16 * 4096) (c.blocks c.next * 4096) (c.blockFrom c.next) 0 0 true
          (d.onCmd a fun c => { c with next := c.next + 1 }).xferRdys a n

/-- A unit's data has come: its buffer goes to owner 34 and the unit is written (R180). -/
def Dev.unitWrite (d : Dev) (c : Cmd) (x : Xfer) : Dev :=
  let d := (d.bpmTransfer (d.bufEnt (handleIndex x.handle)).owner (.handle x.handle) 34).2
  let (m, hol, d) := d.bufTake 34 6 x.handle x.ofs x.len
  let d := d.onHat fun s => { s with writing := s.writing ++ [(c.arrival, x.unit, x.handle)] }
  (d.addJob { newJob (.host c.arrival x.unit) (d.gluOf c x.unit) 0 with
    ofs := x.ofs, len := x.len, data := m, hollow := hol, enc := d.flag (F.sflVolCfg_aes (c.vol - 1)), key := d.rd (F.sflVolCfg_key (c.vol - 1))
    stream := 0xFE, buf := some x.handle }).2

/-- A unit is durable: its buffer is free. -/
def Dev.unitDone (d : Dev) (a u : Nat) : Dev :=
  let mine (e : Nat × Nat × Nat) : Bool := e.1 == a && e.2.1 == u
  let d := (d.hat.writing.filter mine).foldl (fun (d : Dev) e => d.freeHandle e.2.2) d
  (d.onHat fun h => { h with writing := h.writing.filter (fun e => !mine e) }).onCmd a fun c => { c with done := c.done ++ [u] }

def Dev.writeStep (d : Dev) (c : Cmd) : Dev :=
  let d := d.xferRdys c.arrival (c.units - c.next)
  match c.stop with
  | some n =>
    let k := (c.done.filter (fun u => decide (u < n))).length
    if k = n then d.cmdEnds c.arrival 0x11 k 0 0 else d
  | none => if c.done.length = c.units then d.cmdEnds c.arrival 0 c.units 0 0 else d

/-! ## Reading logical units -/

/-- Where a unit's current copy is asked for. -/
inductive UnitAt where
  | waits | zero | hollow | asked
  deriving DecidableEq, Repr

/-- The current copy of a GLU is asked for in the name of unit `u` of a command. -/
def Dev.unitAsk (d : Dev) (a u glu : Nat) : UnitAt × Dev :=
  if !d.flashReady then (.waits, d)
  else
    let d := d.lookPage (mapPage glu)
    if !d.pageIn (mapPage glu) then (.waits, d)
    else
      let e := d.mapEnt glu
      match entPua e with
      | some p => (.asked, d.onSfl fun s => { s with reads := s.reads ++ [⟨p, .host a u⟩] })
      | none =>
        if entState e = 0 then (.zero, d)
        else if entState e = 2 then
          let loc := entLoc e
          let k := d.catEnt (locCat loc)
          if k.st ≠ 2 then (.asked, d.cmdEnds a 0x47 0 0 0)
          else (.asked, d.onOdr fun o => { o with wants := o.wants ++
            [(⟨locCat loc, locDisc loc, locBrow loc, .unit (.host a u) (if k.format = 2 then 0 else locUnit loc) (entEnc e) (entKey e)⟩ : Want)] })
        else (.hollow, d)

/-- What came of a unit asked for, if it has come. -/
def Dev.unitGot (d : Dev) (a u : Nat) : Option (FUnit × Bool) := (d.sfl.got.find? (fun g => g.1 == .host a u)).map (·.2)
def Dev.unitTaken (d : Dev) (a u : Nat) : Dev := d.onSfl fun s => { s with got := s.got.filter (fun g => g.1 != .host a u) }
/-- The bytes a reader sees of it, and the map of its Hollow blocks (R206). -/
def Dev.unitPlain (d : Dev) (glu : Nat) (g : FUnit × Bool) : Map Byte × Nat × Dev :=
  if g.2 then ([], 0xFFFF, d) else d.plain glu g.1

/-! ## READ -/

/-- A unit in its buffer goes to the host. -/
def Dev.readOut (d : Dev) (c : Cmd) (h : Nat) (m : Map Byte) (hol : Nat) : Dev :=
  let u := c.next
  let ofs := c.blockFrom u % 16 * 4096
  let d := d.deliverIn c h u ofs (bytesFrom m ofs (c.blocks u * 4096)) (hollowLines hol (c.blockFrom u % 16) (c.blocks u)) (c.blockFrom u) 0 0
  d.onCmd c.arrival fun c => { c with next := c.next + 1, issued := [] }

/-- One look at a READ; answers whether it moved on. -/
def Dev.readMove (d : Dev) (c : Cmd) : Bool × Dev :=
  let u := c.next
  let glu := d.gluOf c u
  let out (f : Dev → Map Byte × Nat × Dev) : Bool × Dev :=
    let (h, d) := d.askBuf c
    if h = handleNone then (false, d) else let (m, hol, d) := f d; (true, d.readOut c h m hol)
  if c.units ≤ u ∨ c.stop.isSome then (false, d)
  else if c.issued.isEmpty then
    let (st, d') := d.unitAsk c.arrival u glu
    match st with
    | .waits => (false, d')
    | .asked => (true, d'.onCmd c.arrival fun c => { c with issued := [u] })
    | .zero =>
      if !d.canXfer c.queue then (false, d)
      else (true, (d.addXfer c u handleNone 0 0 (c.blockFrom u) 4 0 false).onCmd c.arrival fun c => { c with next := c.next + 1 })
    | .hollow => out fun d => ([], 0xFFFF, d)
  else match d.unitGot c.arrival u with
    | none => (false, d)
    | some g => out fun d => (d.unitTaken c.arrival u).unitPlain glu g

def Dev.readMoves (d : Dev) (a : Nat) : Nat → Dev
  | 0 => d
  | n + 1 => match d.cmdAt a with
    | none => d
    | some c => let (more, d) := d.readMove c; if more then d.readMoves a n else d

def Dev.readStep (d : Dev) (c : Cmd) : Dev :=
  let d := d.readMoves c.arrival (2 * (c.units - c.next))
  match d.cmdAt c.arrival with
  | none => d
  | some c => if c.next = c.units then (d.unlock c.arrival).cmdEnds c.arrival c.delivered 0 0 0 else d

/-! ## FLUSH (R218, R465) -/

def Dev.flushStep (d : Dev) (c : Cmd) : Dev :=
  if c.phase = 0 then
    if !d.flashReady then d
    else
      let mine : List Stripe := match d.setOfVol (c.vol - 1) with
        | some s => d.sfl.stripes.filter (fun (x : Stripe) => rowSet x.row == s)
        | none => []
      let d := mine.foldl (fun (d : Dev) (x : Stripe) => d.padStripe x.row x.k) d
      let seq := d.sfl.seq
      d.jflush.onCmd c.arrival fun c => { c with phase := 1, stop := some seq }
  else
    let written := !d.sfl.jbuf.any (fun e => !newer e.seq (c.stop.getD 0) && e.seq != c.stop.getD 0)
    let durable := c.wait.all (fun w => match d.frameOf w.1 w.2 with
      | some f => f.gone
      | none => true)
    if (if c.flags.testBit 1 then durable else written) then c.endsAt d 0 else d

/-! ## FRAME_READ: finding the frame (R459) -/

def Cmd.stream (c : Cmd) : Nat := c.arg 8 1
def Cmd.mode (c : Cmd) : Nat := c.arg 9 1
def Cmd.number (c : Cmd) : Nat := c.arg 12 4
def Cmd.take_ (c : Cmd) : Nat := c.arg 16 4
/-- PN and FRAME fit what KEY names; a TAKE fits. -/
def Cmd.names (c : Cmd) (pn frame : Nat) : Bool := if c.arg 10 1 = 0 then c.number == pn else c.number == frame
def Cmd.inTake (c : Cmd) (take_ : Nat) : Bool := c.take_ == 0xFFFFFFFF || c.take_ == take_

/-- The slots of a stream's lookup ring that name the frame, as (PN, LOCATION), the newest first. -/
def Dev.lookups (d : Dev) (c : Cmd) : List (Nat × Nat) × Dev :=
  let s := c.stream
  let base := lookupAddr s 0
  let slots := if c.arg 10 1 = 0 then [c.number % 1048576]
    else uniq ((Map.window d.cst.mem base (0x1000000 + base)).map (fun e => (e.1 - base) / 16))
  let (found, d) := slots.foldl (fun (acc : List (Nat × Nat) × Dev) i =>
    let (b, d) := acc.2.sysRead (base + 16 * i) 16
    (if fieldAt b.data 8 8 ≠ 0 ∧ c.names (fieldAt b.data 4 4) (fieldAt b.data 0 4)
      then acc.1 ++ [(fieldAt b.data 4 4, fieldAt b.data 8 8)] else acc.1, d)) ([], d)
  let age (pn : Nat) : Nat := behind 32 (d.rd (F.ingStrPn s)) pn
  (found.mergeSort (fun a b => decide (age a.1 ≤ age b.1)), d)

/-- LOCATION of a frame on a volume: the volume's index, and the byte. -/
def locOnVol (loc : Nat) : Bool := loc.testBit 63
def locVol (loc : Nat) : Nat := loc / 2 ^ 56 % 64
def locByte (loc : Nat) : Nat := loc % 2 ^ 48 * 4096 + loc / 2 ^ 52 % 16 * 256

/-! ## FRAME_READ: bytes of a volume -/

/-- The command goes on to gather the bytes `at_ … at_+len-1` of volume `v` in phase `phase`. -/
def Dev.gather (d : Dev) (c : Cmd) (phase v at_ len : Nat) : Dev :=
  d.onCmd c.arrival fun c => { c with
    phase := phase, vol := v + 1, next := at_ / unitBytes, units := ceilDiv (at_ + len) unitBytes, issued := [], data := [], found := [] }

/-- One more unit of the volume is gathered; true when none is left. -/
def Dev.gatherMove (d : Dev) (c : Cmd) : Option Bool × Dev :=
  let u := c.next
  let glu := 4096 * d.rd (F.sflVolBase (c.vol - 1)) + u
  let take (d : Dev) (m : Map Byte) (hol : Nat) : Dev := d.onCmd c.arrival fun c => { c with
    next := c.next + 1
    issued := []
    found := c.found ++ (hollowLines hol 0 16).map (c.data.length + ·)
    data := c.data ++ bytesFrom m 0 unitBytes }
  if c.units ≤ u then (some true, d)
  else if c.issued.isEmpty then
    let (st, d) := d.unitAsk c.arrival u glu
    match st with
    | .waits => (none, d)
    | .asked => (some false, d.onCmd c.arrival fun c => { c with issued := [u] })
    | .zero => (some false, take d [] 0)
    | .hollow => (some false, take d [] 0xFFFF)
  else match d.unitGot c.arrival u with
    | none => (none, d)
    | some g =>
      let (m, hol, d) := (d.unitTaken c.arrival u).unitPlain glu g
      (some false, take d m hol)

/-- Every unit has come. -/
def Dev.gathers (d : Dev) (a : Nat) : Nat → Bool × Dev
  | 0 => (false, d)
  | n + 1 => match d.cmdAt a with
    | none => (false, d)
    | some c => match d.gatherMove c with
      | (some true, d) => (true, d)
      | (some false, d) => d.gathers a n
      | (none, d) => (false, d)

/-! ## FRAME_READ: the frame decoded (R95, R96) -/

/-- The offsets of the lines that touch bytes `lo … lo+n-1`. -/
def linesOf (lo n : Nat) : List Nat := (List.range (ceilDiv (lo + n) 64 - lo / 64)).map (fun i => 64 * (lo / 64 + i))

/-- Pixels and metadata of a stored frame, with the offsets of Hollow lines: a coded slice with one in it is Hollow whole. -/
def Dev.unstore (d : Dev) (s : Nat) (b : List Byte) (holes : List Nat) : List Byte × List Nat :=
  let n := fieldAt b 2 2
  let raw := fieldAt b 4 4
  let len := d.sliceBytes s raw
  let bits := bitsCode (d.rd (F.ingStrFmt_bits s))
  let ext (i : Nat) : Nat := fieldAt b (68 + 8 * i) 4
  let first := 64 + ceilDiv (8 * n) 256 * 256
  let (px, hs, end_) := (List.range n).foldl (fun (acc : List Byte × List Nat × Nat) i =>
    let at_ := acc.2.2
    let size := min len (raw - i * len)
    let mine := holes.filter (fun h => decide (at_ ≤ h) && decide (h < at_ + ext i))
    let isRaw := bitAt (fieldAt b (64 + 8 * i) 4) 0
    let body := slice b at_ (ext i)
    let out := if isRaw then padTo size body
      else padTo size (packSamples bits (decodeSlice (d.rd (F.ingStrFmt_width s)) (d.cfaDist s) bits (size * 8 / bits) body))
    let marks := if isRaw then mine.map (fun h => linesOf (i * len + (h - at_)) 64) |>.flatten
      else if mine.isEmpty then [] else linesOf (i * len) size
    (acc.1 ++ out, acc.2.1 ++ marks, at_ + ceilDiv (ext i) 256 * 256)) ([], [], first)
  let meta_ := slice b end_ (fieldAt b 18 2 * 256)
  let ms := (holes.filter (fun h => decide (end_ ≤ h) && decide (h < end_ + meta_.length))).map (fun h => linesOf (raw + (h - end_)) 64) |>.flatten
  (px ++ meta_, uniq (hs ++ ms))

/-! ## FRAME_READ: delivery -/

/-- The frame's bytes are at hand and go out piece by piece. -/
def Dev.frameOut (d : Dev) (c : Cmd) (bytes : List Byte) (holes : List Nat) (pn frame loc : Nat) : Dev :=
  d.onCmd c.arrival fun c => { c with
    phase := 5, next := 0, units := ceilDiv bytes.length unitBytes, issued := [], data := bytes, found := holes, res := (pn, frame, loc) }

/-- Pieces go out while buffers are to be had; then the command completes. -/
def Dev.pieces (d : Dev) (a flags : Nat) : Nat → Dev
  | 0 => d
  | n + 1 => match d.cmdAt a with
    | none => d
    | some c =>
      if c.stop.isSome then d
      else if c.units ≤ c.next then d.cmdEnds a c.delivered c.res.1 c.res.2.1 c.res.2.2
      else
        let (h, d) := d.askBuf c
        if h = handleNone then d
        else
          let at_ := unitBytes * c.next
          let bytes := (c.data.drop at_).take unitBytes
          let holes := (c.found.filter (fun x => decide (at_ ≤ x) && decide (x < at_ + unitBytes))).map (· - at_)
          let d := d.deliverIn c h c.next 0 bytes holes at_ flags (if flags = 0 then 0 else bytes.length / 8)
          (d.onCmd a fun c => { c with next := c.next + 1 }).pieces a flags n

/-! ## FRAME_READ: PIN (R460) -/

/-- The segment list of a slot: one entry for each buffer it has bytes in. -/
def segments (st : Stream) (start size : Nat) : List Byte :=
  ((List.range ((start + size - 1) / 65536 + 1 - start / 65536)).map (fun i =>
    let b := start / 65536 + i
    let lo := max start (65536 * b)
    let hi := min (start + size) (65536 * (b + 1))
    leBytes 8 (handleIndex (st.handleAtPos lo) * 2 ^ 42 + (hi - lo - 1) * 2 ^ 26 + lo % 65536 * 2 ^ 10))).flatten

def Dev.framePin (d : Dev) (c : Cmd) (f : FrameRec) (loc : Nat) : Dev :=
  let s := c.stream
  let st := d.stream s
  let size := slotBytes f.size f.meta_
  let bufs := (List.range ((f.start + size - 1) / 65536 + 1 - f.start / 65536)).map (fun i => handleIndex (st.handleAtPos (65536 * (f.start / 65536 + i))))
  if bufs.any (fun i => decide (d.memW < (i + 1) * 65536)) then c.endsAt d 0x24
  else if 4096 ≤ d.hat.pins.length then c.endsAt d 0x33
  else
    let d := d.onHat fun h => { h with pins := h.pins ++ [(⟨c.queue, 40 + d.coreOf c.queue, s, f.pn, bufs⟩ : Pin)] }
    (d.frameOut c (segments st f.start size) [] f.pn f.frame loc).onCmd c.arrival fun c => { c with phase := 6 }

/-- A frame in the store, not gone from its chain, is delivered as MODE says. -/
def Dev.frameStore (d : Dev) (c : Cmd) (f : FrameRec) (loc : Nat) : Dev :=
  let s := c.stream
  if c.mode = 1 then d.framePin c f loc
  else
    let (bytes, holes, d) := d.readFrame s f
    if c.mode = 0 then d.frameOut c bytes holes f.pn f.frame loc
    else
      let j := d.buildStored s f bytes holes
      d.frameOut c j.stored j.hollow f.pn f.frame loc

/-- The search starts: an open frame, the lookup ring, and where that holds it no longer the volume's index. -/
def Dev.frameFind (d : Dev) (c : Cmd) : Dev :=
  let s := c.stream
  let fits (f : FrameRec) : Bool := c.names f.pn f.frame && c.inTake (f.take_.getD 0xFFFFFFFF)
  if (d.openFrames s).any fits then c.endsAt d 0x31
  else
    let (ls, d) := d.lookups c
    let here := ls.findSome? (fun e => if locOnVol e.2 then none
      else (d.frameOf s e.1).bind (fun f => if fits f ∧ !f.gone ∧ f.closed then some (f, e.2) else none))
    match here with
    | some (f, loc) => d.frameStore c f loc
    | none =>
      if c.mode = 1 ∧ !ls.isEmpty then c.endsAt d 0x32
      else d.onCmd c.arrival fun c => { c with phase := 1, wait := ls.filter (fun e => locOnVol e.2) }

/-! ## FRAME_READ: on a volume -/

/-- The next place to look: the header of a frame the ring names, or the newest index unit of the stream's volume. -/
def Dev.frameNext (d : Dev) (c : Cmd) : Dev :=
  match c.wait with
  | (_, loc) :: _ => d.gather c 2 (locVol loc) (locByte loc) 64
  | [] => match d.sessionOf c.stream with
    | none => c.endsAt d 0x30
    | some _ =>
      let v := d.streamVol c.stream
      let n := Map.get 0 d.sfl.idxNext v
      if n = 0 then c.endsAt d 0x30 else d.gather c 3 v (128 * (n - 1) / unitBytes * unitBytes) unitBytes

/-- A header has come: the frame, if its TAKE fits; its volume bytes are then gathered whole. -/
def Dev.frameHead (d : Dev) (c : Cmd) : Dev :=
  match c.wait with
  | [] => d
  | (pn, loc) :: rest =>
    let b := slice c.data (locByte loc % unitBytes) 64
    if !c.inTake (fieldAt b 20 4) then d.onCmd c.arrival fun c => { c with phase := 1, wait := rest }
    else if c.mode = 1 then c.endsAt d 0x32
    else (d.gather c 4 (locVol loc) (locByte loc) (fieldAt b 8 4)).onCmd c.arrival fun c => { c with
      wait := [(pn, loc)], res := (pn, fieldAt b 12 4, loc) }

/-- An index unit has come: its newest entry that fits, or the unit before it. -/
def Dev.frameIndex (d : Dev) (c : Cmd) : Dev :=
  let v := c.vol - 1
  let u := c.next - 1
  let fits (i : Nat) : Option (List Byte) :=
    let b := slice c.data (128 * i) 128
    if decide (512 * u + i < Map.get 0 d.sfl.idxNext v) && fieldAt b 1 1 == 1 && fieldAt b 0 1 == c.stream &&
      c.names (fieldAt b 8 4) (fieldAt b 4 4) && c.inTake (fieldAt b 12 4) then some b else none
  match ((List.range 512).reverse).findSome? fits with
  | some b =>
    if c.mode = 1 then c.endsAt d 0x32
    else
      let loc := fieldAt b 48 8
      (d.gather c 4 (locVol loc) (locByte loc) (fieldAt b 44 4)).onCmd c.arrival fun c => { c with
        wait := [(fieldAt b 8 4, loc)], res := (fieldAt b 8 4, fieldAt b 4 4, loc) }
  | none => if u = 0 then c.endsAt d 0x30 else d.gather c 3 v ((u - 1) * unitBytes) unitBytes

/-- The stored frame has come: it goes out as it lies, or decoded. -/
def Dev.frameRead (d : Dev) (c : Cmd) : Dev :=
  match c.wait with
  | [] => d
  | (_, loc) :: _ =>
    let skip := locByte loc % unitBytes
    let len := fieldAt (slice c.data skip 64) 8 4
    let b := slice c.data skip len
    let holes := (c.found.filter (fun h => decide (skip ≤ h) && decide (h < skip + len))).map (· - skip)
    if c.mode = 2 then d.frameOut c b holes c.res.1 c.res.2.1 c.res.2.2
    else
      let (bytes, holes) := d.unstore c.stream b holes
      d.frameOut c bytes holes c.res.1 c.res.2.1 c.res.2.2

/-- One stage of a FRAME_READ. -/
def Dev.frameStage (d : Dev) (c : Cmd) : Dev :=
  let whole (f : Dev → Cmd → Dev) : Dev :=
    let (ok, d) := d.gathers c.arrival (2 * (c.units - c.next) + 1)
    match ok, d.cmdAt c.arrival with
    | true, some c => f d c
    | _, _ => d
  match c.phase with
  | 0 => d.frameFind c
  | 1 => d.frameNext c
  | 2 => whole Dev.frameHead
  | 3 => whole Dev.frameIndex
  | 4 => whole Dev.frameRead
  | 5 => d.pieces c.arrival 0 (c.units - c.next + 1)
  | _ => d.pieces c.arrival 2 (c.units - c.next + 1)

/-- A FRAME_READ goes on until a stage has to wait. -/
def Dev.frameStep (d : Dev) (a : Nat) : Nat → Dev
  | 0 => d
  | n + 1 => match d.cmdAt a with
    | none => d
    | some c =>
      if c.verdict.isSome then d
      else
        let d := d.frameStage c
        match d.cmdAt a with
        | some c' => if c'.phase = c.phase ∧ c'.next = c.next ∧ c'.wait = c.wait then d else d.frameStep a n
        | none => d

end Sys2Proof.Machine
end

