-- ==== Sys2Proof/Machine/HostDisc.lean ====
section
/-! DEFINITION. MIGRATE and VERIFY at work, and the parity band-rows of disc runs (R183, R234–R236, R262, R328, R331, R332, R462, R463). -/
namespace Sys2Proof.Machine
open Sys2Proof

/-! ## Band-rows on their way to a disc -/

/-- Band-rows that wait to be recorded, are committed, or wait for their verdict or reallocation. -/
def Dev.rowsDue (d : Dev) : List RecRow :=
  d.odr.recs ++ ((List.range 4).map (fun n =>
    let r := d.rec_ n
    (r.cur.toList ++ r.next.toList).map (·.row) ++ r.verify.map (·.1) ++ r.queue ++ r.excess)).flatten

/-- Band-row buffers that no band-row to be recorded and no read holds any more are freed. -/
def Dev.rowBufsFree (d : Dev) : Dev :=
  let due := d.rowsDue.map (·.id)
  let used (b : RowBufs) : Bool := match b.rec_ with
    | some id => due.contains id
    | none => (d.drive b.drive).reads.any (fun r => !r.recorded && r.brow == b.brow)
  let gone := d.odr.rowBufs.filter (fun b => !used b)
  let d := d.onOdr fun o => { o with rowBufs := o.rowBufs.filter used }
  gone.foldl (fun (d : Dev) b => b.bufs.foldl (fun (d : Dev) h => d.freeBuf (d.bufEnt (handleIndex h)).owner h) d) d

/-- The first band-row of a disc that nothing is to be recorded in. -/
def Dev.plannedNwb (d : Dev) (cat i : Nat) : Nat :=
  (d.rowsDue.filter (fun r => r.cat == cat && r.disc == i && decide (r.why ≠ .again))).foldl (fun m r => max m (r.brow + 1)) (d.nwbOf cat i)

/-- The disc of a mask that takes the next band-row: not CLOSED, the lowest NWB, the lower disc on a tie. -/
def Dev.discFor (d : Dev) (cat mask : Nat) : Option Nat :=
  let e := d.catEnt cat
  ((List.range 12).filter (fun i => mask.testBit i && e.present.testBit i && !e.closed.testBit i)).foldl (fun (best : Option Nat) i =>
    match best with
    | none => some i
    | some b => if d.plannedNwb cat i < d.plannedNwb cat b then some i else best) none

/-- A band-row read from flash is to be recorded: its bytes stand in buffers that owner 34 was granted, which pass to its drive's owner once
nothing is to be added to staged parity (R32, R33). -/
def Dev.addRec (d : Dev) (cat disc brow : Nat) (data : Map Byte) (hmap : Nat) (why : RecFor) (staged : Bool) (hs : List Nat) : Dev :=
  let id := d.odr.nextRec
  let n := d.shellDrive cat
  let r : RecRow := ⟨id, cat, disc, brow, data, hmap, why, why, 0, staged, none, 0, 0, 0⟩
  let d := d.rowFill 34 6 hs data hmap 3
  let d := d.onOdr fun o => { o with recs := o.recs ++ [r], nextRec := id + 1, rowBufs := o.rowBufs ++ [⟨n, some id, brow, hs⟩] }
  if staged then d.recPass id 34 (36 + n) else d

/-- DISC_PARITY_ADD of stripe offset `x` of disc `i` in run slot `j` (R236): the band-row that waits there is added to the staged
P and Q; where the add is out of order it is ignored and counted, and the band-row is recorded without one (log entry 47). -/
def Dev.parityAdd (d : Dev) (j i x : Nat) : Dev :=
  match d.runAt j with
  | none => d.countIgnored Pg.parDisc j
  | some (_, s) =>
    match d.odr.recs.find? (fun r => r.cat == s.runCat && r.disc == i && r.brow == s.stripe + x && !r.staged && r.add.isNone) with
    | none => d.countIgnored Pg.parDisc j
    | some r =>
      if s.recompute then d
      else
        let id := d.par.nextAdd
        let d := d.recPass r.id 34 35
        let (data, _, d) := match d.recBufs r.id with
          | some b => d.rowTake 35 7 b.bufs
          | none => (r.data, 0, d)
        let d := d.discAdd j i x ((List.range 4).map (fun u =>
          (Map.window data (65536 * u) (65536 + 65536 * u)).map (fun e => (e.1 - 65536 * u, e.2))))
        let d := d.recPass r.id 35 (36 + d.shellDrive r.cat)
        let done := decide (d.par.nextAdd = id)
        d.onOdr fun o => { o with recs := o.recs.map (fun (y : RecRow) =>
          if y.id = r.id then (if done then { y with staged := true } else { y with add := some id }) else y) }

/-- Band-rows whose adds are durable may be recorded. -/
def Dev.rowsStaged (d : Dev) : Dev :=
  d.onOdr fun o => { o with recs := o.recs.map (fun (r : RecRow) => match r.add with
    | some id => if d.par.adds.any (fun a => a.id == id) then r else { r with staged := true, add := none }
    | none => r) }

/-! ## P and Q of a run (R236) -/

/-- Stripe `x` of a run has all the data band-rows it will have. -/
def Dev.stripeFull (d : Dev) (s : Slot) (x : Nat) : Bool :=
  (List.range 10).all (fun i => decide (x < s.added i)) ||
    (s.closing && decide (x < s.runCount) && !d.par.adds.any (fun a => a.slot == s.runSlot) &&
      !d.odr.recs.any (fun r => r.cat == s.runCat && decide (r.disc < 10) && !r.staged))

/-- The next P (0) or Q (1) band-row of a run is given to be recorded; on a disc that has already recorded past it, it counts
as it is (log entry 47). -/
def Dev.parityRow (d : Dev) (n p : Nat) : Dev :=
  let s := d.sjSlot n
  let x := if p = 0 then s.pDone else s.qDone
  let due := d.rowsDue.any (fun r => match r.why, r.first with
    | .parity j q _, _ => j == s.runSlot && q == p
    | _, .parity j q _ => j == s.runSlot && q == p
    | _, _ => false)
  if s.ty ≠ 6 ∨ s.recompute ∨ due ∨ 16384 ≤ x ∨ !d.stripeFull s x then d
  else if s.stripe + x < d.nwbOf s.runCat (10 + p) then d.sjPut n (s.put16 (22 + 2 * p) (x + 1))
  else
    let (hs, d) := if d.canGrant 34 3 then d.grantAll 34 3 4 else (none, d)
    match hs with
    | some hs => d.addRec s.runCat (10 + p) (s.stripe + x) (d.stagedRow s.runSlot p x) 0 (.parity s.runSlot p x) true hs
    | none => d

def Dev.parityRows (d : Dev) : Dev := d.runs.foldl (fun (d : Dev) e => (d.parityRow e.1 0).parityRow e.1 1) d

/-! ## MIGRATE (R462) -/

def Cmd.cat (c : Cmd) : Nat := c.arg 20 2
def Cmd.mask (c : Cmd) : Nat := c.arg 22 2
/-- Units of a band-row: four, or the one of an AD-8 unit. -/
def Dev.rowUnits (d : Dev) (cat : Nat) : Nat := if (d.catEnt cat).format = 2 then 1 else 4

def Dev.migrateOk (d : Dev) (c : Cmd) : Option Nat :=
  match d.rangeBad c (2 ^ 32 - 1) with
  | some st => some st
  | none =>
    if c.lba % 16 ≠ 0 ∨ c.nlb % 16 ≠ 0 ∨ 1024 ≤ c.mask ∨ 64 ≤ c.arg 24 1 ∨ 4 ≤ c.arg 25 1 then some 0x22
    else if (d.catEnt c.cat).st ≠ 2 ∨ ((d.odr.loader.eject.map (fun m => m.cat == some c.cat)).getD false) then some 0x42
    else if (d.discFor c.cat c.mask).isNone then some 0x48
    else none

/-- Units are read until a band-row's worth is asked for; units not on flash are passed over. With no disc left (phase 1) the
rest is not migrated. -/
def Dev.migrateScan (d : Dev) (a : Nat) : Nat → Dev
  | 0 => d
  | n + 1 => match d.cmdAt a with
    | none => d
    | some c =>
      if c.units ≤ c.next ∨ c.stop.isSome ∨ d.rowUnits c.cat ≤ c.issued.length ∨ !d.flashReady then d
      else
        let glu := d.gluOf c c.next
        let d := d.lookPage (mapPage glu)
        if !d.pageIn (mapPage glu) then d
        else
          let d := match entPua (d.mapEnt glu) with
            | none => d
            | some p =>
              if c.phase = 1 then d.onCmd a fun c => { c with found := c.found ++ [glu] }
              else (d.onCmd a fun c => { c with issued := c.issued ++ [glu] }).onSfl fun s =>
                { s with reads := s.reads ++ [(⟨p, .migrate a glu p⟩ : FRead)] }
          (d.onCmd a fun c => { c with next := c.next + 1 }).migrateScan a n

/-- The units read for a MIGRATE, as (GLU, PUA, unit, whether lost). -/
def Dev.migrateGot (d : Dev) (a : Nat) : List (Nat × Nat × FUnit × Bool) :=
  d.sfl.got.filterMap (fun g => match g.1 with
    | .migrate b glu pua => if b = a then some (glu, pua, g.2.1, g.2.2) else none
    | _ => none)

/-- The run that a stripe's parity is staged in; opened where there is none. False while every run slot is in use (STAGE_FULL is
raised once). -/
def Dev.runFor (d : Dev) (c : Cmd) (b : Nat) : Bool × Dev :=
  match d.runOf c.cat b with
  | some (_, s) => (!s.closing && !s.recompute, d)
  | none =>
    let full := decide (d.rd (F.parDiscStage_runs) ≤ d.runs.length)
    if full ∧ c.refused then (false, d)
    else
      let (ok, d) := d.runOpen c.cat b
      (ok, d.onCmd c.arrival fun c => { c with refused := !ok })

/-- The units read become a band-row of the disc whose turn it is (R256, R462). -/
def Dev.migrateRow (d : Dev) (c : Cmd) : Dev :=
  let got := d.migrateGot c.arrival
  let ready := !c.issued.isEmpty && decide (got.length = c.issued.length) &&
    (decide (c.issued.length = d.rowUnits c.cat) || decide (c.units ≤ c.next))
  if !ready then d
  else
    let drop (d : Dev) : Dev := (d.onSfl fun s => { s with got := s.got.filter (fun g => match g.1 with
      | .migrate b _ _ => b != c.arrival
      | _ => true) }).onCmd c.arrival fun c => { c with issued := [] }
    match d.discFor c.cat c.mask with
    | none => (drop d).onCmd c.arrival fun x => { x with phase := 1, found := x.found ++ c.issued }
    | some i =>
      let ad8 := decide ((d.catEnt c.cat).format = 2)
      let b := d.plannedNwb c.cat i
      let (ok, d) := if ad8 then (true, d) else d.runFor c b
      let (hs, d) := if ok && d.canGrant 34 3 then d.grantAll 34 3 (d.rowUnits c.cat) else (none, d)
      match hs with
      | none => d
      | some hs =>
        let key := c.arg 24 1
        let keyed := bitAt (c.arg 25 1) 0
        let units := (List.range c.issued.length).zip (c.issued.filterMap (fun g => got.find? (fun e => e.1 == g)))
        let (data, hmap, us, d) := units.foldl (fun (acc : Map Byte × Nat × List (Nat × Nat × Nat) × Dev) e =>
          let (glu, pua, u, _) := e.2
          let d := acc.2.2.2
          let (v, lba) := d.gluPlace glu
          let fresh := keyed && !u.tag.enc
          let m := if fresh then d.cipherUnit true key v lba u.data else u.data
          let d := d.when fresh (·.countN (F.sflAesCnt 0) 16)
          let value := entDisc c.cat i b (if ad8 then 0 else e.1) (fresh || u.tag.enc) (if fresh then key else u.tag.key)
          (acc.1 ++ m.map (fun x => (65536 * e.1 + x.1, x.2)), acc.2.1 + u.tag.hollowMap * 2 ^ (16 * e.1), acc.2.2.1 ++ [(glu, pua, value)], d))
          ([], 0, [], d)
        (drop d).addRec c.cat i b data hmap (.migrate c.arrival us) ad8 hs

/-- Entries put for the command's units that have come into force, or were dropped (R183). -/
def Dev.migrateEntries (d : Dev) (c : Cmd) : Dev :=
  let busy (w : Nat × Nat) : Bool := d.sfl.jobs.any (fun j => j.glu == w.1 && (match j.why with
    | .entry v (some _) => v == w.2
    | _ => false))
  let settled := c.wait.filter (fun w => !busy w)
  let good := settled.filter (fun w => d.mapEnt w.1 == w.2)
  let bad := settled.filter (fun w => d.mapEnt w.1 != w.2)
  d.onCmd c.arrival fun c => { c with
    wait := c.wait.filter busy, res := (c.res.1 + good.length, c.res.2), found := c.found ++ bad.map (·.1) }

/-- Band-rows of a MIGRATE that are not yet verified. -/
def Dev.migrateRows (d : Dev) (a : Nat) : List RecRow :=
  d.rowsDue.filter (fun r => match r.why, r.first with
    | .migrate b _, _ => b == a
    | _, .migrate b _ => b == a
    | _, _ => false)

/-- CLOSE_RUN: the open runs of a Shell are closed. -/
def Dev.closeRuns (d : Dev) (cat : Nat) : Dev :=
  (d.runs.filter (fun e => e.2.runCat == cat)).foldl (fun (d : Dev) e => d.sjPut e.1 (e.2.putFlag 1 true)) d

def Dev.migrateStep (d : Dev) (c : Cmd) : Dev :=
  let a := c.arrival
  let again (d : Dev) (f : Dev → Cmd → Dev) : Dev := match d.cmdAt a with
    | some c => f d c
    | none => d
  let d := d.migrateScan a (c.units - c.next)
  let d := again d Dev.migrateRow
  let d := again d Dev.migrateEntries
  again d fun d c =>
    let scanned := c.stop.isSome || (decide (c.units ≤ c.next) && c.issued.isEmpty)
    if !scanned || !c.wait.isEmpty || !(d.migrateRows a).isEmpty then d
    else if c.stop.isSome then d.cmdEnds a 0x11 c.res.1 0 0
    else
      let d := if bitAt (c.arg 25 1) 1 then d.closeRuns c.cat else d
      let low := match c.found with
        | [] => 2 ^ 64 - 1
        | g :: gs => gs.foldl min g
      d.cmdEnds a (if c.brought then 0x41 else if c.found.isEmpty then 0 else 2) c.res.1 c.found.length low

/-! ## VERIFY (R332, R463) -/

def Dev.verifyOk (d : Dev) (c : Cmd) : Option Nat :=
  if 2 ^ 26 ≤ c.arg 8 4 ∨ 4096 ≤ c.mask then some 0x22
  else if (d.catEnt c.cat).st ≠ 2 ∨ ((d.odr.loader.eject.map (fun m => m.cat == some c.cat)).getD false) then some 0x42
  else none

/-- The next band-row is asked for: band-rows from the first on, disc after disc; those beyond NWB are passed over. `res`
counts those that pass and those reallocated, `found` names those unreadable; `phase` is the disc, `next` the band-row. -/
def Dev.verifyAsk (d : Dev) (a : Nat) : Nat → Dev
  | 0 => d
  | n + 1 => match d.cmdAt a with
    | none => d
    | some c =>
      if 12 ≤ c.phase ∨ c.units ≠ c.done.length then d
      else if !c.mask.testBit c.phase ∨ c.arg 16 4 ≤ c.next ∨ d.nwbOf c.cat c.phase ≤ c.arg 8 4 + c.next then
        (d.onCmd a fun c => { c with phase := c.phase + 1, next := 0 }).verifyAsk a n
      else
        let d := d.onOdr fun o => { o with wants := o.wants ++ [⟨c.cat, c.phase, c.arg 8 4 + c.next, .verify a⟩] }
        d.onCmd a fun c => { c with next := c.next + 1, units := c.units + 1 }

def Dev.verifyStep (d : Dev) (c : Cmd) : Dev :=
  let d := d.verifyAsk c.arrival 13
  match d.cmdAt c.arrival with
  | none => d
  | some c =>
    if 12 ≤ c.phase ∧ c.units = c.done.length then
      d.cmdEnds c.arrival (if c.brought then 0x41 else if c.found.isEmpty then 0 else 2) c.res.1 c.res.2.1 c.found.length
    else d

end Sys2Proof.Machine
end

