-- ==== Sys2Proof/Machine/Views.lean ====
section
/-! DEFINITION. What a register read shows where the value is not simply held: the page header of R39 with the "per page" values
of R546, and the statuses that are computed from the state (R9, R37–R41, R47, R55, R104, R128, R160, R209, R246, R392). -/
namespace Sys2Proof.Machine
open Sys2Proof

/-! ## The header (R39, R52, R546) -/

def unitBits : UnitSt → Nat
  | .off => 0
  | .active | .fenced => 1
  | .quiescing | .quiesced => 3
  | .isolated => 7

/-- PG_STAT bits 4:0. -/
def unitStat : UnitSt → Nat
  | .off => 0
  | .active => 1
  | .quiescing => 2
  | .quiesced => 4
  | .isolated => 8
  | .fenced => 16

/-- The drive that a page serves, if it serves one: ODR_DRV[n] and the pages that depend on it; the loader axes of MOT_ST serve none
(R546, R372, R424). -/
def driveOf (page : Nat) : Option Nat :=
  match kindAt page with
  | some (k, _) => if k.desc.legacy then (let m := masterOf page; if 0x801000 ≤ m ∧ m < 0x805000 then some ((m - 0x801000) / 0x1000) else none) else none
  | none => none

/-- The page is the master page of a replaceable unit (PG_CAP.ISOLATE, R51); stack 3 is none (R108). -/
def isMaster (page : Nat) : Bool := match kindAt page with
  | some (k, i) => k.desc.isolate && !(k == .cstStk && i == 3)
  | none => false

/-- PG_STAT.PRESENT: the unit of a master page answers; any other page reads 1 (R39). -/
def Dev.answers (d : Dev) (page : Nat) : Bool := !isMaster page || !d.plat.absent.contains (pageOf page)

/-- The make-before-break states of R50. -/
def isTeardown : MbbSt → Bool
  | .teardown _ => true
  | _ => false
def isBuild : MbbSt → Bool
  | .build _ => true
  | _ => false
/-- The staged set has taken effect and waits for its group to read DONE. -/
def isSwitched : MbbSt → Bool
  | .teardown _ | .switched _ => true
  | _ => false

/-- A make-before-break change of the page is in progress: its staged set is built, or its old configuration not yet released. -/
def Dev.inMbb (d : Dev) (page : Nat) : Bool :=
  let own := d.plat.staged.any (fun s => s.page == page && (isBuild s.mbb || isTeardown s.mbb))
  match kindAt page with
  | some (k, i) => k.desc.mbb && (own || (decide (k = .parSet) && d.par.shapes.any (fun e => e.2 == i)) ||
      (decide (k = .pltFw) && d.plat.activation.isSome))
  | none => false

/-- PG_STAT.FW_HOLD of a region's pages (R55). -/
def Dev.fwHold (d : Dev) (r : Nat) : Bool := d.holding r

def pgId (k : Kind) (page : Nat) (i : Nat) : Nat :=
  let base := if k.desc.base = 0xB000 ∨ k.desc.base = 0xC000 ∨ k.desc.base = 0xD000 then 0xA000 else k.desc.base
  (regionOf page * 256 + slotOf base) * 65536 + (if base = 0xA000 then slotOf page - 10 else i) * 256 + 1

def pgCap (k : Kind) (page : Nat) : Nat :=
  b2n (k.desc.errs.any (fun e => decide (e.cont ≠ .corrected))) * 16 + b2n k.desc.mbb * 8 + b2n (driveOf page).isSome * 4 +
    b2n (isMaster page) * 2 + b2n (k.desc.regs.any (fun r => r.fields.any (fun f => decide (f.ty = .rs))))

/-- PG_CTRL.LEGACY: the mode of the drive as the last tick boundary found it (R54), kept in that bit of its master page. -/
def Dev.legacyBit (d : Dev) (page : Nat) : Nat := match driveOf page with
  | some n => bitsOf (d.raw (Pg.odrDrv n + 8)).toNat 3 3
  | none => 0
def Dev.showLegacy (d : Dev) : Dev :=
  (List.range 4).foldl (fun (d : Dev) n => d.setRaw (Pg.odrDrv n + 8) (w32 (8 * b2n (d.ad8 n)))) d

/-- The page has a unit of its own: a master page, stack 3, or a loader axis, which no drive's page rules. -/
def hasUnit (page : Nat) : Bool := match kindAt page with
  | some (k, i) => k.desc.isolate || k == .cstStk || (k == .motSt && decide (4 ≤ i))
  | none => false

/-- The three bits that a page of a unit shows. -/
def Dev.unitCtrl (d : Dev) (page : Nat) : Nat := if hasUnit (masterOf page) then unitBits (d.unitAt page) else (d.raw (page + 8)).toNat % 8

/-- PG_CTRL: the unit's state for a unit's pages, else as last written. -/
def Dev.pgCtrl (d : Dev) (page : Nat) : Nat :=
  d.legacyBit page * 8 + d.unitCtrl page

def Dev.pgStat (d : Dev) (page : Nat) : Nat :=
  b2n (d.fwHold (regionOf page)) * 128 + b2n (d.inMbb page) * 64 + b2n (d.answers page) * 32 + unitStat (d.unitAt page)

/-! ## Computed statuses -/

/-- PLT_ERR_SUM: a region's bit while a page of it holds an error bit reported at REGION or above. -/
def Dev.errSummary (d : Dev) : Nat :=
  maskOf ((List.range 12).map (fun r => d.plat.errSum.any (fun e => decide (regionOf e.1 = r) && decide (e.2 &&& (d.raw (e.1 + 0x10)).toNat ≠ 0))))

/-- The pages of a commit group (R47). -/
def Dev.groupPages (d : Dev) (g : Nat) : List Nat :=
  (d.regs.filter (fun e => decide (e.1 % 4096 = 0x28) && decide (e.2.toNat = g))).map (fun e => e.1 - 0x28)

/-- The pooled buffers fall short of the pool sizes (R107). -/
def Dev.overcommit (d : Dev) : Bool := decide (d.pooledNow < d.sizeSum)

def Dev.setsOn (d : Dev) : List Nat := (List.range 8).filter d.setOn

/-- The fewest FREE rows in an enabled set; 0 where none is enabled. -/
def Dev.freeMin (d : Dev) : Nat := match d.setsOn.map (fun s => (d.freeRows s).length) with
  | [] => 0
  | x :: xs => min 255 (xs.foldl min x)

/-- SFL_GC_STAT.MODE, the most pressing of the sets'; WAIT: GC is due and has neither a source nor a row to take as one
(log entry 49). -/
def Dev.gcMode (d : Dev) : Nat :=
  let of (s : Nat) : Nat :=
    let n := (d.freeRows s).length
    if d.rd F.sflGcCfg_start < n then 0
    else if (d.gcSource s).isNone && (d.gcPick s).isNone then 3
    else if n ≤ d.rd F.sflGcCfg_urgent then 2 else 1
  let ms := d.setsOn.map of
  if ms.contains 2 then 2 else if ms.contains 1 then 1 else if ms.contains 3 then 3 else 0

def Dev.wearStat (d : Dev) : Nat :=
  match d.setsOn.map d.wearSpan with
  | [] => 0
  | x :: xs => (xs.foldl (fun m y => max m y.1) x.1) * 65536 + xs.foldl (fun m y => min m y.2) x.2

/-- Data units in rows that are not RETIRED: those of every stripe's data positions (SFL_CAP). -/
def Dev.capUnits (d : Dev) : Nat :=
  d.setsOn.foldl (fun n s => ((d.rowIds s).filter (fun r => decide ((d.rowEnt r).st ≠ .retired))).foldl (fun n r =>
    n + d.rowStripes r * ((d.positions r).length - d.nPar s)) n) 0

def Dev.setPresent (d : Dev) (s : Nat) : Nat :=
  ((d.setMembers s).filter (fun ch => (List.range 8).any (fun ce => (List.range (d.lunsOf ch ce)).any (fun l => d.lunAvail ch ce l)))).length

def Dev.setLost (d : Dev) (s : Nat) : Nat :=
  ((d.setMembers s).filter (fun ch => d.sfl.lostLuns.any (fun e => decide (e.1 / 64 = ch)))).foldl (fun m ch => m + 2 ^ ch) 0

/-- A READY CE reads FENCED while its channel is FENCED, or all its LUNs are (R209; log entry 101). -/
def Dev.ceFenced (d : Dev) (ch ce : Nat) : Bool :=
  d.ceReady ch ce && (decide (d.unitAt (Pg.sflFc ch) = .fenced) ||
    (List.range (d.lunsOf ch ce)).all (fun l => d.sfl.fencedLuns.contains (lunKey ch ce l)))

/-- What a status register computes, if it does; by its address. -/
def Dev.computed (d : Dev) (k : Kind) (i : Nat) (a : Nat) : Option Nat :=
  match k, a % 4096 with
  | .pltReg, 0x104 => some d.errSummary
  | .pltTick, 0x100 => some (d.now % 2 ^ 32)
  | .seqMc, 0x100 => some (b2n d.mc.uncached * 256 + min 31 d.mc.hold.length)
  | .ingStr, 0x11C => some (putBits (d.raw a).toNat 31 28 (d.stream i).epoch)
  | .bpmReg, 0x120 => some (b2n d.overcommit * 2 ^ 24 + d.freeCount)
  | .bpmPool, 0x114 => some (d.used i)
  | .bpmPool, 0x118 => some (d.spare i)
  | .bpmOwn, 0x100 => if i < 32 then some (putBits (d.shadowed a).toNat 27 24 (d.ownerPool i)) else none
  | .bpmOwn, 0x108 => some (d.heldBy i)
  | .bpmOwn, 0x10C => some (d.grantedTo i)
  | .sflReg, 0x110 => some (d.capUnits % 2 ^ 32)
  | .sflFc, off => if 0x104 ≤ off ∧ off < 0x124 ∧ d.ceFenced i ((off - 0x104) / 4) then some (putBits (d.raw a).toNat 1 0 3) else none
  | .sflGc, 0x108 => some (d.freeMin * 65536 + d.gcMode)
  | .sflGc, 0x114 => some d.wearStat
  | .parSet, 0x114 => some (putBits (d.raw a).toNat 23 16 (d.setPresent i))
  | .parSet, 0x118 => some (d.setLost i)
  | .parSet, 0x11C => some (d.staleRows i).length
  | .odrHl, 0x100 => some (putBits (d.shadowed a).toNat 8 8 (b2n (d.ad8 i)))
  | .pltGrp, off => if 0x200 ≤ off ∧ off < 0x300 then
      (let g := (off - 0x200) / 4
       some ((if g = 0 then 0 else (d.groupPages g).length) * 65536 + Map.get 0 d.plat.groupSt g)) else none
  | .srvReg, off => if 0x120 ≤ off ∧ off < 0x130 then some (min 4095 (d.redNext ((off - 0x120) / 4))) else none
  | _, _ => none

/-! ## A register as a read shows it -/

def fieldMask (f : FieldDef) : Nat := (2 ^ (f.hi + 1 - f.lo) - 1) * 2 ^ f.lo

/-- A register of the table: an RS field reads as its shadow holds it, a WO field as 0, the rest as held (R2). -/
def Dev.held (d : Dev) (r : RegDef) (a : Nat) : Nat :=
  r.fields.foldl (fun n f => n + (match f.ty with
    | .rs => (d.shadowed a).toNat &&& fieldMask f
    | .wo => 0
    | _ => (d.raw a).toNat &&& fieldMask f)) 0

/-- What a read of the 4-aligned BAR0 address shows, before any effect it has; zero where no register lies. -/
def Dev.view (d : Dev) (a : Nat) : Nat :=
  match kindAt a, regAt a with
  | some (k, i), some r =>
    match a % 4096 with
    | 0x00 => pgId k (pageOf a) i
    | 0x04 => pgCap k (pageOf a)
    | 0x08 => d.pgCtrl (pageOf a)
    | 0x0C => d.pgStat (pageOf a)
    | 0x20 => Map.get 0 d.plat.commitSt (pageOf a)
    | _ => (d.computed k i a).getD (d.held r a)
  | _, _ => 0

end Sys2Proof.Machine
end

