-- ==== Sys2Proof/Machine/AdminData.lean ====
section
/-! DEFINITION. What admin and mailbox commands read and write in the MRAM and the registers: profiles, features, firmware images
and slots, keys, IDENTIFY structures, log pages and the mailbox contents (R444, R472–R485). -/
namespace Sys2Proof.Machine
open Sys2Proof

/-! ## Profiles (R484, R485) -/

def profileAt (p : Nat) : Nat := 131072 * p
def Dev.profBytes (d : Dev) (p ofs n : Nat) : List Byte := Map.getRun 0 d.mram.profiles (profileAt p + ofs) n
def Dev.profPut (d : Dev) (p ofs : Nat) (bs : List Byte) : Dev :=
  d.mramPut (ceilDiv bs.length 8) fun m => { m with profiles := Map.setRun 0 m.profiles (profileAt p + ofs) bs }
def Dev.profCount (d : Dev) (p : Nat) : Nat := leNat (d.profBytes p 8 4)
/-- The CRC of a profile: its header and records, the CRC's own bytes taken as zero (log entry 50). -/
def Dev.profCrc (d : Dev) (p : Nat) : Nat := crc32c (d.profBytes p 0 60 ++ zeros 4 ++ d.profBytes p 64 (8 * d.profCount p))
def Dev.profSeal (d : Dev) (p : Nat) : Dev := d.profPut p 60 (leBytes 4 (d.profCrc p))
def Dev.profValid (d : Dev) (p : Nat) : Bool :=
  decide (leNat (d.profBytes p 0 4) = 0xF1A09F01) && decide (leNat (d.profBytes p 4 1) = p) && decide (d.profCount p ≤ 16376) &&
    decide (leNat (d.profBytes p 60 4) = d.profCrc p)
/-- Record `i` of a profile: BAR0 offset, COMMIT, value. -/
def Dev.profRec (d : Dev) (p i : Nat) : Nat × Bool × Nat :=
  let n := leNat (d.profBytes p (64 + 8 * i) 8)
  (n / 2 ^ 40, n.testBit 32, n % 2 ^ 32)
def Dev.profFind (d : Dev) (p addr : Nat) : Option Nat := (List.range (d.profCount p)).find? (fun i => (d.profRec p i).1 == addr)
def Dev.activeProf (d : Dev) : Option Nat := if d.flag F.pltMramProf_valid then some (d.rd F.pltMramProf_active) else none

/-- SAVE: the record with the same offset is replaced, or one appended; it commits where the register has RS fields. -/
def Dev.profSave (d : Dev) (p addr value : Nat) (commit : Bool) : Dev :=
  let rec_ := leBytes 8 (addr * 2 ^ 40 + b2n commit * 2 ^ 32 + value % 2 ^ 32)
  let n := d.profCount p
  let d := match d.profFind p addr with
    | some i => d.profPut p (64 + 8 * i) rec_
    | none => (d.profPut p (64 + 8 * n) rec_).profPut p 8 (leBytes 4 (n + 1))
  d.profSeal p

/-- There is room to save a value for the register. -/
def Dev.profRoom (d : Dev) (p addr : Nat) : Bool := (d.profFind p addr).isSome || decide (d.profCount p < 16376)

/-! ## Features (R477, R478) -/

/-- The register of a feature, the bits of it that VALUE holds, and whether they are RS. -/
def featureReg (fid index : Nat) : Option (Nat × Nat × Bool) :=
  match fid with
  | 0x01 => some (F.sflTime.addr, 32, false)
  | 0x02 => some (F.pltThermLim_bg.addr, 24, false)
  | 0x03 => some (F.hatMemCfg.addr, 10, false)
  | 0x04 => some (F.cstScrubCtrl_en.addr, 17, false)
  | 0x05 => some (F.sflJrnCfg.addr, 12, true)
  | 0x06 => some (F.srvRedCfg_period.addr, 32, true)
  | 0x07 => some (F.pltArbWt_w0.addr, 32, true)
  | 0x08 => some ((F.pltEvtRoute_vector index).addr, 32, false)
  | _ => none

/-- FID and INDEX name a feature. -/
def featureOk (fid index : Nat) : Bool :=
  decide (1 ≤ fid) && decide (fid ≤ 0x0B) && (decide (index = 0) || (decide (fid = 0x08) && decide (index < 16)))

/-- A register's value in force. -/
def Dev.inForce (d : Dev) (addr : Nat) : Nat := match regAt addr with
  | some r => r.fields.foldl (fun n f => n + (match f.ty with
      | .rs => (d.forced addr).toNat &&& fieldMask f
      | .wo => 0
      | _ => (d.raw addr).toNat &&& fieldMask f)) 0
  | none => 0

/-- GET_FEATURE: the value in force, or the one saved in the active profile; none: PROFILE_BAD. -/
def Dev.featureGet (d : Dev) (fid index : Nat) (saved : Bool) : Option Nat :=
  match featureReg fid index with
  | some (a, _, _) =>
    let kept := if saved then d.activeProf.bind (fun p => (d.profFind p a).map (fun i => (d.profRec p i).2.2)) else none
    some (kept.getD (d.inForce a))
  | none =>
    if fid = 0x0B then some d.mram.next
    else d.activeProf.map (fun p => if fid = 0x09 then leNat (d.profBytes p 12 4) else leNat (d.profBytes p 16 1) % 16)

/-! ## Firmware images (R480–R483) -/

def fwAt (slot : Nat) : Nat := 16777216 * slot
def Dev.fwBytes (d : Dev) (slot ofs n : Nat) : List Byte := Map.getRun 0 d.mram.fw (fwAt slot + ofs) n
def Dev.fwNat (d : Dev) (slot ofs n : Nat) : Nat := leNat (d.fwBytes slot ofs n)
def Dev.fwRegions (d : Dev) (slot : Nat) : Nat := d.fwNat slot 6 2 % 4096
def Dev.fwIface (d : Dev) (slot : Nat) : Nat := d.fwNat slot 8 2
def Dev.fwSvn (d : Dev) (slot : Nat) : Nat := d.fwNat slot 10 2
def Dev.fwLength (d : Dev) (slot : Nat) : Nat := d.fwNat slot 12 4
def Dev.fwVersion (d : Dev) (slot r : Nat) : Nat := d.fwNat slot (64 + 16 * r) 2

/-- MAGIC, FORMAT and lengths pass. -/
def Dev.fwFormOk (d : Dev) (slot : Nat) : Bool :=
  let len := d.fwLength slot
  let fits (r : Nat) : Bool :=
    !(d.fwRegions slot).testBit r || decide (d.fwNat slot (64 + 16 * r + 4) 4 + d.fwNat slot (64 + 16 * r + 8) 4 ≤ len)
  decide (d.fwNat slot 0 4 = 0xF1A06410) && decide (d.fwNat slot 4 2 = 1) && decide (8192 ≤ len) && decide (len ≤ 16777216) &&
    (List.range 12).all fits && !d.injected Pg.pltMram Er.pltMram_mramUe
/-- MAGIC, FORMAT, lengths and signature pass. -/
def Dev.fwImageOk (d : Dev) (slot : Nat) : Bool := d.fwFormOk slot && Config.signatureOk (d.fwBytes slot 0 (d.fwLength slot))

def Dev.setChecked (d : Dev) (slot : Nat) (ok : Bool) : Dev := d.onMram fun m => { m with checked := m.checked.set slot ok }

/-- The checks of FW_COMMIT in their order; none where they pass (R482). -/
def Dev.fwCheck (d : Dev) (slot regions action : Nat) : Option Nat :=
  let acts := action.testBit 0
  let busy := (List.range 12).any (fun r => decide (d.rd (F.pltFwReg_state r) ≠ 0))
  let mixed := (List.range 12).any (fun r => !regions.testBit r && decide (d.fwIface (d.rd (F.pltFwReg_active r)) ≠ d.fwIface slot))
  if !d.fwImageOk slot then some 0x81
  else if d.fwSvn slot < d.mram.svnFloor then some 0x82
  else if (List.range 12).any (fun r => regions.testBit r && !(d.fwRegions slot).testBit r) then some 0x83
  else if acts ∧ busy then some 0x84
  else if (acts ∨ action.testBit 1) ∧ mixed then some 0x86
  else none

/-- A slot that FW_DOWNLOAD may not touch: the active, staged or boot slot of any region. -/
def Dev.fwSlotBusy (d : Dev) (slot : Nat) : Bool :=
  (List.range 12).any (fun r => decide (d.rd (F.pltFwReg_active r) = slot) || decide (d.mram.bootSlot.getD r 0 = slot) ||
    (decide (d.rd (F.pltFwReg_state r) ≠ 0) && decide (d.rd (F.pltFwReg_staged r) = slot)))

/-- BOOT and LOCK_SVN of an image that passed. -/
def Dev.fwBoot (d : Dev) (slot regions : Nat) : Dev :=
  d.mramPut 2 fun m => { m with bootSlot := (List.range 12).map (fun r => if regions.testBit r then slot else m.bootSlot.getD r 0) }
def Dev.fwLock (d : Dev) (slot : Nat) : Dev := d.mramPut 2 fun m => { m with svnFloor := max m.svnFloor (d.fwSvn slot) }
/-- What PLT_FW_LAST reads. -/
def Dev.fwLast (d : Dev) : Nat := d.rd F.pltFwLast_hold * 65536 + d.rd F.pltFwLast_total

/-! ## Keys (R479) -/

/-- The outcome of KEY_LOAD, but for the key's own form: none where the slot may change. -/
def Dev.keyRefused (d : Dev) (slot id : Nat) (clear replace : Bool) : Option Nat :=
  let used := (List.range 64).any (fun v => decide (d.rd (F.sflVolSize v) ≠ 0) && d.flag (F.sflVolCfg_aes v) && d.rd (F.sflVolCfg_key v) == slot) ||
    (List.range 32).any (fun s => decide (d.unitAt (Pg.ingStr s) ≠ .off) && d.flag (F.ingStrCodec_aes s) && d.rd (F.ingStrCodec_key s) == slot)
  if id = 0 ∧ !clear then some 0x8D
  else if clear then (if used then some 0x8C else none)
  else if d.rd (F.sflAesKeyid slot) ≠ 0 ∧ !replace then some 0x8C
  else none

/-- A key and its identifier are stored, or both cleared; the key that was in force stays so until the next boundary. -/
def Dev.keyStore (d : Dev) (slot : Nat) (k : KeySlot) : Dev :=
  let d := if (Map.find d.plat.keysWere slot).isSome then d
    else d.onPlat fun p => { p with keysWere := Map.put p.keysWere slot (Map.find d.mram.keys slot) }
  (d.mramPut 9 fun m => { m with keys := if k.id = 0 then Map.erase m.keys slot else Map.put m.keys slot k }).wr (F.sflAesKeyid slot) k.id

/-! ## IDENTIFY (R473) -/

def padAscii (n : Nat) (bs : List Byte) : List Byte := (bs ++ List.replicate n 0x20).take n
/-- "FRD-6410" (R473). -/
def partNumber : List Byte := [0x46, 0x52, 0x44, 0x2D, 0x36, 0x34, 0x31, 0x30]

def Dev.identController (d : Dev) : List Byte :=
  let region (r : Nat) : List Byte :=
    leBytes 4 (d.rd (F.pltFwReg_version r) * 65536 + d.rd (F.pltFwReg_active r) * 16 + d.mram.bootSlot.getD r 0)
  let ready := maskOf ((List.range 32).map (fun ch => decide (d.unitAt (Pg.sflFc ch) = .active) && decide (d.rd (F.sflFcStat_train ch) = 2)))
  let drives := maskOf ((List.range 4).map d.driveOn)
  leBytes 2 0x1D5C ++ leBytes 2 0x6410 ++ (List.range 20).map Config.serialByte ++ padAscii 16 partNumber ++ leBytes 1 0x11 ++
    leBytes 1 (b2n d.plat.jdmsel + 2 * b2n d.plat.refsel) ++ leBytes 2 (d.rd F.hatLink_mode * 256 + d.rd F.hatLink_rate * 16 + d.rd F.hatLink_width) ++
    leBytes 4 (d.rd F.hatMemCfg) ++ ((List.range 12).map region).flatten ++ leBytes 4 ready ++ leBytes 1 drives ++ leBytes 1 64 ++
    leBytes 2 4096 ++ leBytes 2 1024 ++ leBytes 2 8192 ++ leBytes 2 8192 ++ leBytes 2 4096 ++ leBytes 8 d.capUnits ++ leBytes 8 Config.storeBytes ++
    leBytes 1 64 ++ leBytes 1 (d.activeProf.getD 0xFF) ++ leBytes 2 (d.fwIface (d.rd (F.pltFwReg_active 0))) ++ leBytes 2 d.mram.svnFloor

/-- Units of a volume mapped in a state of R171. -/
def Dev.volMapped (d : Dev) (v st : Nat) : Nat :=
  let lo := 4096 * d.rd (F.sflVolBase v)
  ((Map.window d.sfl.map lo (lo + 4096 * d.rd (F.sflVolSize v))).filter (fun e => decide (entState e.2 = st))).length

def Dev.identVolume (d : Dev) (vol : Nat) : List Byte :=
  let v := vol - 1
  let size := d.rd (F.sflVolSize v)
  leBytes 1 vol ++ leBytes 1 (b2n (d.flag (F.sflVolCfg_aes v)) + 2 * b2n (decide (0 < d.rd (F.sflVolCfg_idx v)))) ++
    leBytes 1 (d.rd (F.sflVolCfg_key v)) ++ leBytes 1 ((d.setOfVol v).getD 0xFF) ++ leBytes 4 (d.rd (F.sflVolBase v)) ++ leBytes 4 size ++
    leBytes 8 (size * 65536) ++ leBytes 4 4096 ++ leBytes 4 (d.rd (F.sflVolCfg_idx v)) ++ leBytes 4 (d.rd (F.sflAesKeyid (d.rd (F.sflVolCfg_key v)))) ++
    leBytes 8 (d.volMapped v 1) ++ leBytes 8 (d.volMapped v 2) ++ leBytes 8 (d.volMapped v 3) ++
    leBytes 8 (d.get64 (F.sflVolAppendLo v) (F.sflVolAppendHi v)) ++ leBytes 4 (d.rd (F.sflVolIdxNext v))

def Dev.identDisc (d : Dev) (c i : Nat) : List Byte :=
  let e := d.catEnt c
  let nwb := leBytes 4 (d.nwbOf c i)
  let closed := b2n (e.closed.testBit i)
  match Map.find d.odr.idents (16 * c + i) with
  | none => leBytes 1 (2 * closed) ++ zeros 3 ++ nwb ++ zeros 24
  | some (fmt, blocks, spare, serial) =>
    leBytes 1 (1 + 2 * closed) ++ leBytes 1 fmt ++ leBytes 2 blocks ++ nwb ++ leBytes 4 spare ++ padTo 16 serial ++ zeros 4

def Dev.identShell (d : Dev) (c : Nat) : List Byte := (d.catEnt c).bytes ++ ((List.range 12).map (d.identDisc c)).flatten

/-- The structure that CNS, VOL and the catalogue index name, or the status that refuses it. -/
def Dev.identData (d : Dev) (cns vol c : Nat) : Except Nat (List Byte) :=
  if cns = 0 then .ok (padTo 4096 d.identController)
  else if cns = 1 then
    (if vol = 0 ∨ 64 < vol ∨ d.rd (F.sflVolSize (vol - 1)) = 0 then .error 0x20 else .ok (padTo 4096 (d.identVolume vol)))
  else if cns = 2 then (if (d.catEnt c).st = 0 then .error 0x22 else .ok (padTo 4096 (d.identShell c)))
  else .error 0x22

/-! ## Log pages (R474–R476) -/

def LogRec.bytes (r : LogRec) : List Byte :=
  let b := leBytes 1 r.ty ++ leBytes 1 r.region ++ leBytes 1 r.slot ++ leBytes 1 r.bit ++ leBytes 1 (r.level + 4 * r.cont) ++ zeros 3 ++
    leBytes 8 r.lseq ++ leBytes 8 r.tick ++ leBytes 4 r.time ++ leBytes 4 r.tc ++ leBytes 8 r.info ++ leBytes 1 r.flags ++ leBytes 1 r.queue ++
    leBytes 2 r.qslot ++ padTo 16 r.caps
  b ++ leBytes 4 (crc32c b)

/-- Record size and capacity of the pages that have a header. -/
def logShape : Nat → Option (Nat × Nat)
  | 0x01 => some (64, 262144)
  | 0x02 => some (64, 65536)
  | 0x03 => some (64, 131072)
  | 0x04 => some (32, 1024)
  | 0x06 => some (128, 4)
  | 0x07 => some (512, 2048)
  | 0x08 => some (32, 524288)
  | 0x09 => some (32, 80)
  | _ => none

/-- Records written since the MRAM was formatted. -/
def Dev.logWritten (d : Dev) : Nat → Nat
  | 0x01 => d.mram.chipLog.written
  | 0x02 => d.mram.eventLog.written
  | 0x03 => d.mram.accessLog.written
  | 0x04 => d.mram.redCount
  | 0x06 => 4
  | 0x07 => d.ing.takeRecs
  | 0x08 => d.rd F.ingRegMrrHead
  | 0x09 => 80
  | _ => 0

/-- What a log's ring holds now in the place of record number `i`: it, or the newer one that has overwritten it. -/
def ringRec {α : Type} (recs : List α) (written cap i : Nat) : Option α :=
  let first := written - recs.length
  recs[i + cap * ceilDiv (first - i) cap - first]?

/-- Record number `i` of a page as it lies in its ring, those of takes and missing ranges read from the store. -/
def Dev.logRecord (d : Dev) (lid i : Nat) : List Byte × Dev :=
  let stored (a n : Nat) : List Byte × Dev :=
    let (o, d) := d.sysRead a n
    (o.data, d)
  let of (l : Log) (cap : Nat) : List Byte := ((ringRec l.recs l.written cap i).map LogRec.bytes).getD []
  match lid with
  | 0x01 => (of d.mram.chipLog 262144, d)
  | 0x02 => (of d.mram.eventLog 65536, d)
  | 0x03 => (of d.mram.accessLog 131072, d)
  | 0x04 => (((ringRec d.mram.redLog d.mram.redCount 1024 i).map (·.bytes)).getD [], d)
  | 0x06 => ((d.fwBytes i 0 127) ++ leBytes 1 (b2n (d.mram.checked.getD i false)), d)
  | 0x07 => stored (takeRecAddr i) 512
  | 0x08 => stored (mrrAddr i) 32
  | 0x09 => (((List.range 8).map (fun w => leBytes 4 (d.view (0xB01100 + 32 * i + 4 * w)))).flatten, d)
  | _ => ([], d)

def Dev.maxErases (d : Dev) : Nat := d.wearStat / 65536

/-- The health page (R476). -/
def Dev.healthPage (d : Dev) : List Byte :=
  let sum (k : Nat) : Nat := d.rd (F.cstCnt k)
  let rails := (List.range 8).foldl (fun n i => n + d.rd (F.pltSupV_state i) * 4 ^ i) 0
  let therm (i : Nat) : List Byte := leBytes 1 (unsgn 8 (sgn 16 (d.rd (F.pltThermT i)) / 16))
  padTo 512 (((List.range 13).map therm).flatten ++ zeros 3 ++ leBytes 2 rails ++ zeros 6 ++ leBytes 8 d.now ++ leBytes 4 d.mram.powerOns ++
    leBytes 4 d.mram.pfCount ++ leBytes 8 (sum 0) ++ leBytes 8 (sum 1 + sum 2) ++ leBytes 8 (sum 3) ++ leBytes 8 d.capUnits ++
    leBytes 8 (d.get64 F.sflValidLo F.sflValidHi) ++ leBytes 2 (d.wearStat / 65536) ++ leBytes 2 (d.wearStat % 65536) ++
    leBytes 1 d.freeMin ++ zeros 3 ++ ((List.range 4).map (fun n => leBytes 4 (d.rd (F.drvSpare n)))).flatten ++
    ((List.range 8).map (fun s => leBytes 4 (d.view (Pg.parSet s + 0x114)))).flatten ++
    ((List.range 16).map (fun p => leBytes 4 (d.used p))).flatten)

/-- Bytes `ofs … ofs+len-1` of a page's image, with the records that had been written when the command started (`n0`). -/
def Dev.logData (d : Dev) (lid n0 ofs len : Nat) : List Byte × Dev :=
  match logShape lid with
  | some (size, cap) =>
    let count := min n0 cap
    let old := n0 - count
    let b := leBytes 4 lid ++ leBytes 4 size ++ leBytes 4 cap ++ leBytes 8 n0 ++ leBytes 4 (old % cap) ++
      leBytes 4 (if n0 = 0 then 0 else (n0 - 1) % cap) ++ zeros 32
    let hdr := b ++ leBytes 4 (crc32c b)
    let first := (ofs - 64) / size
    let (body, d) := ((List.range (ceilDiv (len + size) size + 1)).filter (fun k => decide (first + k < count))).foldl
      (fun (acc : List Byte × Dev) k =>
        let (b, d) := acc.2.logRecord lid (old + first + k)
        (acc.1 ++ b, d)) ([], d)
    (padTo len (if ofs < 64 then (hdr ++ body).drop ofs else body.drop (ofs - 64 - first * size)), d)
  | none =>
    (if lid = 0x05 then padTo len (d.healthPage.drop ofs)
      else if 131072 ≤ ofs then zeros len
      else padTo len (d.profBytes (lid - 0x10) ofs (min len (131072 - ofs))), d)

def logExists (lid : Nat) : Bool := (logShape lid).isSome || decide (lid = 5) || (decide (0x10 ≤ lid) && decide (lid ≤ 0x17))

/-! ## The mailbox (R444) -/

/-- The mailbox answers while the link is up in CXL; `payload` holds the contents R444 gives, in its order (log entry 51). -/
def Dev.mailbox (d : Dev) (done : Bool) (payload : List Byte) : Dev := if d.rd F.pltStat_link = 1 then d.send (.mailbox done payload) else d

/-- IDENTIFY_MEMORY_DEVICE: total and volatile capacity, persistent capacity, LSA size, poison list size. -/
def execIdentifyMemoryDevice (s : State) : Host.Outcome State Fault Refusal :=
  run s fun d => d.mailbox true (leBytes 8 d.memW ++ leBytes 8 d.memW ++ leBytes 8 0 ++ leBytes 4 131072 ++ leBytes 4 256)

/-- GET_HEALTH_INFO: stack states, life used, temperature, dirty shutdowns. -/
def execGetHealthInfo (s : State) : Host.Outcome State Fault Refusal := run s fun d =>
  let stk := ((List.range 4).map (fun n => leBytes 1 (unitStat (d.unitAt (Pg.cstStk n))))).flatten
  let worst := (d.sfl.rows.find? (fun e => e.2.erases == d.maxErases && decide (e.2.st ≠ .retired))).map (·.1)
  let ty := match worst with
    | some r => d.dieOf ((d.positions r).getD 0 0) (rowCe r)
    | none => 0
  d.mailbox true (stk ++ leBytes 4 (Config.lifeUsed d.maxErases ty) ++ leBytes 1 (d.rd F.pltThermStat_hottest) ++ leBytes 4 d.mram.pfCount)

/-- GET_POISON_LIST: up to 256 sealed lines of the window, oldest first, behind the overflow flag and their number. -/
def execGetPoisonList (s : State) : Host.Outcome State Fault Refusal := run s fun d =>
  let all := d.cst.sealed.filter (fun a => decide (a < d.memW))
  d.mailbox true (leBytes 1 (b2n (decide (256 < all.length))) ++ leBytes 2 (min 256 all.length) ++ ((all.take 256).map (leBytes 8)).flatten)

/-- GET_LSA: bytes of the label area. -/
def execGetLsa (offset length : Nat) (s : State) : Host.Outcome State Fault Refusal := run s fun d =>
  if 131072 < offset + length then d.mailbox false [] else d.mailbox true (Map.getRun 0 d.mram.lsa offset length)

/-- SET_LSA: bytes of the label area are written. -/
def execSetLsa (offset : Nat) (bytes : List Byte) (s : State) : Host.Outcome State Fault Refusal := run s fun d =>
  if d.rd F.pltStat_link ≠ 1 then d
  else if 131072 < offset + bytes.length then d.mailbox false []
  else (d.mramPut (ceilDiv bytes.length 8) fun m => { m with lsa := Map.setRun 0 m.lsa offset bytes }).mailbox true []

/-- GET_FW_INFO: the slots and versions of PLT_FW. -/
def execGetFwInfo (s : State) : Host.Outcome State Fault Refusal := run s fun d =>
  d.mailbox true (((List.range 12).map (fun r => leBytes 4 (d.view (F.pltFwReg_version r).addr))).flatten)

/-- TRANSFER_FW: Unsupported. -/
def execTransferFw (s : State) : Host.Outcome State Fault Refusal := run s fun d => d.mailbox false []

/-- ACTIVATE_FW: Unsupported. -/
def execActivateFw (s : State) : Host.Outcome State Fault Refusal := run s fun d => d.mailbox false []

/-- GET_EVENT_RECORDS: one record for each error reported at HOST that the event log holds. -/
def execGetEventRecords (s : State) : Host.Outcome State Fault Refusal := run s fun d =>
  d.mailbox true (((d.mram.eventLog.recs.filter (fun r => decide (r.ty = 1))).map LogRec.bytes).flatten)

end Sys2Proof.Machine
end

