-- ==== Sys2Proof/Machine/HostStep.lean ====
section
/-! DEFINITION. The host's commands step by step: beginning, transfers that end, completions, and the queues' own commands, resets
and the link (R441, R445, R448, R451–R466, R469, R472, R479, R481). -/
namespace Sys2Proof.Machine
open Sys2Proof

/-! ## Completions (R452, R468) -/

/-- The commands that run in the chip safe state (R494). -/
def safeRuns (op : Nat) : Bool := [0x81, 0x82, 0x84, 0x85, 0x86].contains op

/-- A decided command completes: its lock and its XFER_RDYs without DATA_DONE end, and its completion is written. A command whose
queue was reset by FLR stands in no queue (its number is 64 above) and completes in silence (R465). -/
def Dev.cmdComplete (d : Dev) (c : Cmd) : Dev :=
  match c.verdict with
  | none => d
  | some v =>
    let d := d.onHat fun h => { h with cmds := h.cmds.filter (fun x => x.arrival != c.arrival) }
    let d := (d.hat.xfers.filter (fun x => x.arrival == c.arrival && x.write)).foldl (fun (d : Dev) x => d.dropXfer x) d
    let d := d.rlAssign
    if c.queue < 64 then (d.respond c.queue (c.completion v)).showQ c.queue else d

/-! ## Delivered logs (R474) -/

/-- Pieces of a log with records go out as the ring holds them now; `wait` holds the records written when the command started. -/
def Dev.logPieces (d : Dev) (a : Nat) : Nat → Dev
  | 0 => d
  | n + 1 => match d.cmdAt a with
    | none => d
    | some c =>
      if c.stop.isSome then d
      else if c.units ≤ c.next then d.cmdEnds a 0 c.res.1 0 0
      else
        let (h, d) := d.askBuf c
        if h = handleNone then d
        else
          let at_ := unitBytes * c.next
          let n0 := ((c.wait.head?).map (·.1)).getD 0
          let (bytes, d) := d.logData (c.arg 8 1) n0 (c.arg 16 8 + at_) (min unitBytes (c.arg 24 4 - at_))
          let d := d.deliverIn c h c.next 0 bytes [] at_ 0 0
          (d.onCmd a fun c => { c with next := c.next + 1 }).logPieces a n

/-- The one XFER_RDY of a command that takes data. -/
def Dev.askData (d : Dev) (c : Cmd) (len : Nat) : Dev :=
  let o := 40 + d.coreOf c.queue
  if 0 < c.next ∨ c.stop.isSome ∨ d.flag (F.bpmPoolStat_pressure (d.ownerPool o)) then d
  else
    let (h, d) := d.askBuf c
    if h = handleNone then d
    else
      let d := (d.bpmHostw o (.handle h) true).2
      (d.addXfer c 0 h 0 len 0 0 0 true).onCmd c.arrival fun c => { c with next := 1 }

/-- SET_FEATURE of RS fields waits for its commit (R478); `wait` names the page. -/
def Dev.featureStep (d : Dev) (c : Cmd) : Dev :=
  match c.wait with
  | (page, _) :: _ =>
    if Map.get 0 d.plat.commitSt page = 1 then d
    else match featureReg (c.arg 8 1) (c.arg 9 1) with
      | some (a, _, _) => d.cmdEnds c.arrival 0 (d.inForce a) 0 0
      | none => d
  | [] => d

/-! ## One step of every command, and of all of them -/

def Dev.cmdStep (d : Dev) (c : Cmd) : Dev :=
  if d.plat.safe && !safeRuns c.op then c.endsAt d 0x60
  else if c.op = 1 then d.writeStep c
  else if c.op = 2 then d.readStep c
  else if c.op = 3 then d.flushStep c
  else if c.op = 4 then d.frameStep c.arrival 100000
  else if c.op = 6 then (if 3 ≤ d.rd F.pltThermStat_level then d else d.migrateStep c)
  else if c.op = 7 then (if 3 ≤ d.rd F.pltThermStat_level then d else d.verifyStep c)
  else if c.op = 0x81 then d.pieces c.arrival 0 (c.units - c.next + 1)
  else if c.op = 0x82 then (if c.phase = 7 then d.logPieces c.arrival (c.units - c.next + 1) else d.pieces c.arrival 0 (c.units - c.next + 1))
  else if c.op = 0x83 then d.featureStep c
  else if c.op = 0x85 then d.askData c (c.arg 16 4)
  else if c.op = 0x8A then d.askData c 64
  else d

/-- What the flash region has finished for commands and for staged parity. -/
def Dev.hostDone (d : Dev) : Dev :=
  let es := d.sfl.done
  es.foldl (fun (d : Dev) e => match e with
    | .host a u => d.unitDone a u
    | .staged id => d.addDurable id
    | _ => d) (d.onSfl fun s => { s with done := [] })

/-- The class of a command's requests: MIGRATE and VERIFY are background, the others host traffic (R22). -/
def Cmd.cls (c : Cmd) : Nat := if c.op = 6 ∨ c.op = 7 then 3 else 2

/-- What a command in progress asks for: the cells of its block are the sequencer cores. -/
def Cmd.req (c : Cmd) : ArbReq := ⟨2, 0, c.core, c.cls, c.arrival⟩

/-- Commands in progress move on as far as they can, in the order the arbiters grant (R18–R23), and those decided complete in arrival
order. While an activation holds new work a command with further units waits (R55). -/
def Dev.hatPump (d : Dev) : Dev :=
  let d := d.hostDone.rowsStaged.parityRows
  let (order, d) := if d.holds then ([], d) else d.served ((d.hat.cmds.filter (fun c => c.started && c.verdict.isNone && d.classServed c.cls)).map Cmd.req)
  let d := order.foldl (fun (d : Dev) a => match d.cmdAt a with
    | some x => if x.started && x.verdict.isNone then d.cmdStep x else d
    | none => d) d
  let d := (d.hat.cmds.filter (fun c => c.verdict.isSome)).foldl (fun (d : Dev) c => d.cmdComplete c) d
  (uniq (d.hat.cmds.map (·.queue % 64))).foldl (fun (d : Dev) q => d.showQ q) d

/-! ## Beginning (R448, R455, R457, R458) -/

/-- The command that a queue and a CID name, if it stands under this opcode and may begin. -/
def Dev.toBegin (d : Dev) (q cid op : Nat) : Option Cmd :=
  (d.cmdOf q cid).bind fun c => if c.op = op ∧ d.mayBegin c then some c else none

/-- A command that needs no lock begins, with `f` as its first step. -/
def Dev.begins (d : Dev) (q cid op : Nat) (f : Dev → Cmd → Dev) : Dev :=
  match d.toBegin q cid op with
  | none => d
  | some c =>
    let d := d.started c
    (if d.plat.safe && !safeRuns op then c.endsAt d 0x60
     else match d.cmdAt c.arrival with
       | some c => f d c
       | none => d).hatPump

/-- A WRITE or READ is granted its lock and starts. -/
def Dev.lockStarts (d : Dev) (c : Cmd) : Dev :=
  ((d.started c).onCmd c.arrival fun c => { c with locked := true, units := c.unitCount }).count (F.seqRlCnt 0)

/-- A WRITE or READ begins: its fields are judged, and it starts if no earlier entry conflicts; else it waits (R457). -/
def Dev.beginsLocked (d : Dev) (q cid op : Nat) : Dev :=
  match d.toBegin q cid op with
  | none => d
  | some c =>
    (if d.plat.safe then c.endsAt (d.started c) 0x60
     else match d.rangeBad c 65536 with
       | some st => c.endsAt (d.started c) st
       | none =>
         if d.rangeFree c then d.lockStarts c
         else if c.entry && c.phase == 0 then (d.count (F.seqRlCnt 1)).onCmd c.arrival fun c => { c with phase := 1 }
         else d).hatPump

/-- A waiting WRITE or READ is granted its lock. -/
def Dev.lockGranted (d : Dev) (q cid : Nat) : Dev :=
  match d.cmdOf q cid with
  | some c => if (c.op = 1 ∨ c.op = 2) ∧ d.mayBegin c ∧ d.rangeFree c ∧ !d.plat.safe then (d.lockStarts c).hatPump else d
  | none => d

/-! ## DATA_DONE and RELEASE (R454, R455, R479, R481) -/

/-- The key a KEY_LOAD brought; its whole buffer is overwritten with zeros. -/
def Dev.keyTake (d : Dev) (c : Cmd) (x : Xfer) : Dev :=
  let (o, d) := d.readLines (handleAddr x.handle) 1 (some (d.seqBy x.handle))
  let d := (List.range 1024).foldl (fun (d : Dev) i => d.writeFwd (handleAddr x.handle + 64 * i) (zeros 64) false 2 (some (d.seqBy x.handle))) d
  let (k1, k2) := (slice o.data 0 32, slice o.data 32 32)
  if k1 = k2 then c.endsAt d 0x8D
  else match d.keyRefused (c.arg 8 1) (c.arg 12 4) false ((c.arg 9 1).testBit 1) with
    | some st => c.endsAt d st
    | none => c.endsAt (d.keyStore (c.arg 8 1) ⟨c.arg 12 4, k1, k2⟩) 0

/-- The bytes a FW_DOWNLOAD brought. -/
def Dev.fwTake (d : Dev) (c : Cmd) (x : Xfer) : Dev :=
  let (o, d) := d.readLines (handleAddr x.handle) (ceilDiv x.len 64) (some (d.seqBy x.handle))
  let bytes := o.data.take x.len
  let slot := c.arg 9 1
  let d := if c.arg 8 1 = 0 then
      (d.mramPut (ceilDiv x.len 8) fun m => { m with fw := Map.setRun 0 m.fw (fwAt slot + c.arg 12 4) bytes }).setChecked slot false
    else d.profPut slot (c.arg 12 4) bytes
  c.endsAt d 0

/-- The host has filled a buffer: its stores are dropped from now on, and its command takes what it holds. -/
def Dev.dataIn (d : Dev) (x : Xfer) : Dev :=
  let d := (d.bpmHostw (d.bufEnt (handleIndex x.handle)).owner (.handle x.handle) false).2
  let d := d.onHat fun h => { h with xfers := h.xfers.filter (· != x) }
  match d.cmdAt x.arrival with
  | none => d.freeHandle x.handle
  | some c =>
    if c.op = 1 then d.unitWrite c x
    else if c.op = 0x8A then (d.keyTake c x).freeHandle x.handle
    else (d.fwTake c x).freeHandle x.handle

/-- A consumed DATA_DONE or RELEASE is acted on; where its transfer has ended since, it does nothing. -/
def Dev.capsuleAct (d : Dev) (k : Nat × Nat × Nat × Nat) : Dev :=
  let d' := d.onHat fun h => { h with capsules := h.capsules.erase k }
  match d.xferOf k.1 k.2.1 k.2.2.1 k.2.2.2 with
  | none => d'
  | some x => if k.2.1 = 3 then d'.dropXfer x else d'.dataIn x

/-- The capsule is taken from the queue unless an activation holds capsules (R491, N3). -/
def Dev.capsuleTake (d : Dev) (k : Nat × Nat × Nat × Nat) : Dev :=
  if d.holds || !d.hat.capsules.contains k then d else ((d.capsuleAct k).hatPump).showQ k.1

/-! ## Queue reset, FLR and OFF (R451, R465, R466) -/

/-- Units of a WRITE beyond its stop that are not durable are not written. -/
def Dev.cancelUnits (d : Dev) (a stop : Nat) : Dev :=
  let beyond (j : Job) : Bool := match j.why, j.st with
    | .host _ _, .settled _ _ => false
    | .host b u, _ => b == a && decide (stop ≤ u)
    | _, _ => false
  let units := (d.sfl.jobs.filter beyond).filterMap (fun j => match j.why with
    | .host _ u => some u
    | _ => none)
  let d := d.onSfl fun s => { s with
    jobs := s.jobs.filter (fun j => !beyond j)
    reads := s.reads.filter (fun r => match r.why with
      | .job id => s.jobs.any (fun j => j.id == id && !beyond j)
      | _ => true) }
  units.foldl (fun (d : Dev) u => d.unitDone a u) d

/-- Band-rows of a MIGRATE that are not committed are not recorded; one whose staged parity holds it puts RECOMPUTE in its run. -/
def Dev.cancelRows (d : Dev) (a : Nat) : Dev :=
  let mine (r : RecRow) : Bool := match r.why with
    | .migrate b _ => b == a
    | _ => false
  let d := (d.odr.recs.filter mine).foldl (fun (d : Dev) r => match d.runOf r.cat r.brow with
    | some (k, s) => if r.staged || r.add.isSome then d.sjPut k (s.putFlag 0 true) else d
    | none => d) d
  let d := d.onOdr fun o => { o with recs := o.recs.filter (fun r => !mine r) }
  let other (w : ReadFor) : Bool := match w with
    | .migrate b _ _ => b != a
    | _ => true
  d.onSfl fun s => { s with got := s.got.filter (fun g => other g.1), reads := s.reads.filter (fun r => other r.why) }

/-- A command of a queue that is reset: aborted, stopped, or left to finish (R465). -/
def Dev.resetCmd (d : Dev) (c : Cmd) : Dev :=
  let abort (d : Dev) : Dev := d.onQueue c.queue fun y => { y with aborted := y.aborted + 1 }
  if c.verdict.isSome then d
  else if !c.started then abort (c.endsAt d 0x10)
  else if c.op = 1 then
    let gap := (d.hat.xfers.filter (fun x => x.arrival == c.arrival)).foldl (fun m x => min m x.unit) c.next
    if c.units ≤ gap then d else abort ((d.cancelUnits c.arrival gap).onCmd c.arrival fun c => { c with stop := some gap })
  else if c.op = 6 then abort ((d.cancelRows c.arrival).onCmd c.arrival fun c => { c with stop := some 0, issued := [] })
  else if c.op = 2 ∨ c.op = 0x81 ∨ c.op = 0x82 then abort (d.cmdEnds c.arrival 0x11 c.next 0 0)
  else if c.op = 4 then abort (d.cmdEnds c.arrival 0x11 (if 5 ≤ c.phase then c.next else 0) 0 0)
  else if c.op = 0x85 ∨ c.op = 0x8A then abort (d.cmdEnds c.arrival 0x11 0 0 0)
  else d

/-- The commands, pins, locks and buffers of a queue on its reset. -/
def Dev.resetQueue (d : Dev) (q : Nat) : Dev :=
  let d := (d.hat.capsules.filter (fun k => k.1 == q)).foldl (fun (d : Dev) k => d.capsuleAct k) d
  let d := d.onQueue q fun y => { y with aborted := 0 }
  let d := (d.cmdsOf q).foldl (fun (d : Dev) c => d.resetCmd c) d
  let d := (d.pinsEnd (fun p => p.queue == q)).2
  (d.xfersOf q).foldl (fun (d : Dev) x => d.dropXfer x) d

/-- A queue goes OFF without a response; started commands that finish stand in no queue from now on. -/
def Dev.queueOff (d : Dev) (q : Nat) : Dev :=
  let d := if d.qState q = 0 then d else d.resetQueue q
  let d := d.onHat fun h => { h with cmds := h.cmds.map (fun c => if c.queue = q then { c with queue := q + 64 } else c) }
  let d := d.onQueue q fun y => { Queue.reset with window := y.window }
  (d.wr (F.hatQstat_state q) 0).showQ q

/-- FLR: every queue as on its reset, in silence; the admin queue is OFF (R465). -/
def Dev.flr (d : Dev) : Dev :=
  (((List.range 64).foldl (fun (d : Dev) q => d.queueOff q) d).wr F.hatAqCfg_en 0).hatPump

/-! ## Queues made and deleted (R451) -/

def isRingSize (n : Nat) : Bool := (List.range 10).any (fun k => n == 2 ^ (k + 4))

/-- A queue is made: T = H = 0, ring tail 0, phase 1, ACTIVE. -/
def Dev.queueOn (d : Dev) (q depth rdepth xferMax base vec agg aggTime : Nat) : Dev :=
  let d := d.onQueue q fun y => { Queue.reset with
    window := y.window, depth := depth, rdepth := rdepth, xferMax := xferMax, base := base, vec := vec, agg := agg, aggTime := aggTime }
  (d.wr (F.hatQstat_state q) 1).showQ q

def Dev.queueCreate (d : Dev) (c : Cmd) : Dev :=
  let q := c.arg 8 1
  let bad := decide (63 < q) || decide (c.arg 16 2 = 0) || decide (4096 < c.arg 16 2) || !isRingSize (c.arg 18 2) || decide (c.arg 20 2 = 0) ||
    decide (1024 < c.arg 20 2) || decide (c.arg 24 8 % 64 ≠ 0) || decide (63 < c.arg 32 1) || decide (c.arg 33 1 = 0) ||
    decide (c.arg 34 2 = 0) || decide (4000 < c.arg 34 2)
  if q = 0 then c.endsAt d 0x50
  else if bad then c.endsAt d 0x22
  else if d.qState q ≠ 0 then c.endsAt d 0x50
  else c.endsAt (d.queueOn q (c.arg 16 2) (c.arg 18 2) (c.arg 20 2) (c.arg 24 8) (c.arg 32 1) (c.arg 33 1) (c.arg 34 2)) 0

def Dev.queueDelete (d : Dev) (c : Cmd) : Dev :=
  let q := c.arg 8 1
  if q = 0 then c.endsAt d 0x50
  else if 63 < q then c.endsAt d 0x22
  else if d.qState q = 0 then c.endsAt d 0x50
  else if d.qState q = 2 ∨ !(d.cmdsOf q).isEmpty then c.endsAt d 0x51
  else c.endsAt (d.queueOff q) 0

def Dev.queueResets (d : Dev) (c : Cmd) : Dev :=
  let q := c.arg 8 1
  if q = 0 then c.endsAt d 0x50
  else if 63 < q then c.endsAt d 0x22
  else if d.qState q = 0 then c.endsAt d 0x50
  else if d.qState q = 2 then c.endsAt d 0x51
  else ((d.wr (F.hatQstat_state q) 2).resetQueue q).onQueue q fun y => { y with resetBy := some c.arrival }

/-- Every command of a resetting queue has its completion written. -/
def Dev.queueResetDone (d : Dev) (q : Nat) : Dev :=
  let x := d.queue q
  if d.qState q ≠ 2 ∨ !(d.cmdsOf q).isEmpty ∨ !x.held.isEmpty then d
  else
    let d := ((d.onQueue q fun y => { y with head := y.tail, resetBy := none }).wr (F.hatQstat_state q) 1).showQ q
    (match x.resetBy with
      | some a => d.cmdEnds a 0 x.aborted 0 0
      | none => d).hatPump

/-! ## The admin queue (R471) -/

/-- A write to HAT_AQ_CFG; while EN = 1 only one with EN ← 0 is taken. -/
def Dev.aqWrite (d : Dev) (v : Nat) : Dev :=
  let on := d.flag F.hatAqCfg_en
  let agg := v / 2 ^ 16 % 256
  let rs := v % 16
  if (on ∧ v.testBit 31) ∨ agg = 0 ∨ rs < 4 ∨ 13 < rs then d.countIgnored Pg.hatAq F.hatAqCfg_en.addr
  else
    let d := (((d.wr F.hatAqCfg_en (b2n (v.testBit 31))).wr F.hatAqCfg_agg agg).wr F.hatAqCfg_vec (v / 256 % 64)).wr F.hatAqCfg_rsize rs
    if on then (d.queueOff 0).hatPump
    else if v.testBit 31 then
      d.queueOn 0 64 (2 ^ rs) 64 ((d.rd F.hatAqBaseLo + 2 ^ 32 * d.rd F.hatAqBaseHi) / 64 * 64) (v / 256 % 64) agg (d.rd F.hatAqTime)
    else d

/-! ## The link (R439, R466, R469) -/

def Dev.setLink (d : Dev) (mode rate width : Nat) : Dev :=
  (((d.wr F.hatLink_mode mode).wr F.hatLink_rate rate).wr F.hatLink_width width).wr F.pltStat_link mode

/-- The host link goes down: LINK_DOWN, and Fradra acts as on FLR. -/
def Dev.linkDown (d : Dev) : Dev :=
  if !d.linkUp then d else ((d.setLink 0 0 0).raise Pg.hatReg Er.hatReg_linkDown).flr

/-- Held events go out in ascending order on the routes now in force (R59). -/
def Dev.sendHeld (d : Dev) : Dev :=
  let held := d.rd F.pltEvtHeld
  let d := d.wr F.pltEvtHeld 0
  ((List.range 16).filter held.testBit).foldl (fun (d : Dev) e => d.eventMessage e) d

/-- The link trains: mode 1 CXL or 2 PCIe 5.0, rate code and width of HAT_LINK. -/
def Dev.linkTrained (d : Dev) (mode rate width : Nat) : Dev :=
  if d.linkUp ∨ d.plat.boot ≠ .ready ∨ !d.plat.perst ∨ !([1, 2].contains mode) ∨ !([1, 2, 3].contains rate) ∨ !([1, 2, 4, 8].contains width) then d
  else
    let d := d.setLink mode rate width
    let d := d.when (decide (width ≠ 8) || decide (rate ≠ 3)) (·.raise Pg.hatReg Er.hatReg_linkDegraded)
    (d.when (decide (mode = 2)) (·.raise Pg.hatReg Er.hatReg_fallback)).sendHeld

/-- A conventional reset, PERST_N low: the link goes down, and decoders, W and every queue are as at chip reset (R466, R516). -/
def Dev.conventionalReset (d : Dev) : Dev :=
  let d := if d.linkUp then d.linkDown else d.flr
  let d := d.onPlat fun p => { p with perst := false }
  let d := d.onHat fun h => { h with queues := [], decoders := [none, none], d3hot := false }
  [F.hatMemCfg.addr, F.hatAqCfg_en.addr, F.hatAqBaseLo.addr, F.hatAqBaseHi.addr, F.hatAqTime.addr].foldl
    (fun (d : Dev) a => d.setRaw a (resetVal a)) d

/-! ## Meanings -/

/-- WRITE (R454). -/
def execWrite (queue cid : Nat) (s : State) : Host.Outcome State Fault Refusal := run s (·.beginsLocked queue cid 1)

/-- READ (R455). -/
def execRead (queue cid : Nat) (s : State) : Host.Outcome State Fault Refusal := run s (·.beginsLocked queue cid 2)

/-- FLUSH (R465). -/
def execFlush (queue cid : Nat) (s : State) : Host.Outcome State Fault Refusal := run s fun d =>
  d.begins queue cid 3 fun d c => if c.vol = 0 ∨ 64 < c.vol ∨ d.rd (F.sflVolSize (c.vol - 1)) = 0 then c.endsAt d 0x20 else d

/-- FRAME_READ (R459, R460). -/
def execFrameRead (queue cid : Nat) (s : State) : Host.Outcome State Fault Refusal := run s fun d =>
  d.begins queue cid 4 fun d c => if 31 < c.stream ∨ 2 < c.mode ∨ 1 < c.arg 10 1 then c.endsAt d 0x22 else d

/-- RANGE_RELEASE (R461): pins of the queue on the PNs from the first to the last, counted modulo 2³² (log entry 45). -/
def execRangeRelease (queue cid : Nat) (s : State) : Host.Outcome State Fault Refusal := run s fun d =>
  d.begins queue cid 5 fun d c =>
    if 31 < c.stream then c.endsAt d 0x22
    else
      let inIt (pn : Nat) : Bool := decide (behind 32 pn (c.arg 12 4) ≤ behind 32 (c.arg 16 4) (c.arg 12 4))
      let (n, d) := d.pinsEnd (fun p => p.queue == queue && p.stream == c.stream && inIt p.pn)
      d.cmdEnds c.arrival 0 n 0 0

/-- MIGRATE (R462). -/
def execMigrate (queue cid : Nat) (s : State) : Host.Outcome State Fault Refusal := run s fun d =>
  d.begins queue cid 6 fun d c => match d.migrateOk c with
    | some st => c.endsAt d st
    | none => d.onCmd c.arrival fun c => { c with units := c.unitCount }

/-- VERIFY (R463). -/
def execVerify (queue cid : Nat) (s : State) : Host.Outcome State Fault Refusal := run s fun d =>
  d.begins queue cid 7 fun d c => match d.verifyOk c with
    | some st => c.endsAt d st
    | none => d

/-- MOUNT_SHELL (R272, R464). -/
def execMountShell (queue cid : Nat) (s : State) : Host.Outcome State Fault Refusal := run s fun d =>
  d.begins queue cid 8 fun d c =>
    if 2 ≤ c.arg 25 1 then c.endsAt d 0x22 else d.mountStart c.arrival (c.arg 20 2) (c.arg 24 1) (decide (c.arg 25 1 = 1))

/-- EJECT_SHELL (R272, R464, R496). -/
def execEjectShell (queue cid : Nat) (s : State) : Host.Outcome State Fault Refusal := run s fun d =>
  d.begins queue cid 9 fun d c =>
    if c.arg 25 1 ≠ 0 ∧ c.arg 25 1 ≠ 2 then c.endsAt d 0x22 else d.ejectStart c.arrival (c.arg 20 2) (decide (c.arg 25 1 = 2))

/-- A session event that a capsule brings: IGNORED where R89 ignores it; a TRIGGER answers its TAKE. -/
def Dev.capsuleEvent (d : Dev) (c : Cmd) (ev : SesEvent) (trigger : Bool) : Dev :=
  let n := c.arg 8 1
  if 31 < n then c.endsAt d 0x22
  else
    let ok : Bool := match sesJudge (d.sesWillBe n) ev (d.membersOn n) with
      | .goes _ => true
      | _ => false
    let r := if ok && trigger then d.rd (F.ingSesTake n) + 1 else 0
    (d.sesEvent n ev).cmdEnds c.arrival (if ok then 0 else 0x34) r 0 0

/-- ARM (R464). -/
def execArm (queue cid : Nat) (s : State) : Host.Outcome State Fault Refusal := run s fun d =>
  d.begins queue cid 0x0A fun d c => d.capsuleEvent c .arm false

/-- TRIGGER (R464): at `ns` after the boundary. -/
def execTrigger (queue cid ns : Nat) (s : State) : Host.Outcome State Fault Refusal := run s fun d =>
  d.begins queue cid 0x0B fun d c => d.capsuleEvent c (.trigger 1 (ns / 10) d.timecode d.now) true

/-- STOP (R464). -/
def execStop (queue cid : Nat) (s : State) : Host.Outcome State Fault Refusal := run s fun d =>
  d.begins queue cid 0x0C fun d c => d.capsuleEvent c .stop false

/-- DATA_DONE (R454, R479, R481). -/
def execDataDone (queue cid xid : Nat) (s : State) : Host.Outcome State Fault Refusal := run s (·.capsuleTake (queue, 2, cid, xid))

/-- RELEASE (R455). -/
def execRelease (queue cid xid : Nat) (s : State) : Host.Outcome State Fault Refusal := run s (·.capsuleTake (queue, 3, cid, xid))

/-- RANGE_LOCK_GRANTED (R457). -/
def execRangeLockGranted (queue cid : Nat) (s : State) : Host.Outcome State Fault Refusal := run s (·.lockGranted queue cid)

/-- QUEUE_CREATE (R451). -/
def execQueueCreate (cid : Nat) (s : State) : Host.Outcome State Fault Refusal := run s (·.begins 0 cid 0x87 Dev.queueCreate)

/-- QUEUE_DELETE (R451). -/
def execQueueDelete (cid : Nat) (s : State) : Host.Outcome State Fault Refusal := run s (·.begins 0 cid 0x88 Dev.queueDelete)

/-- QUEUE_RESET (R451, R465). -/
def execQueueReset (cid : Nat) (s : State) : Host.Outcome State Fault Refusal := run s (·.begins 0 cid 0x89 Dev.queueResets)

/-- QUEUE_RESET_DONE (R451). -/
def execQueueResetDone (queue : Nat) (s : State) : Host.Outcome State Fault Refusal := run s (·.queueResetDone (queue % 64))

/-- HAT_AQ_ENABLE (R451, R471): the value written holds EN = 1. -/
def execHatAqEnable (value : Nat) (s : State) : Host.Outcome State Fault Refusal :=
  run s fun d => d.asWrite Pg.hatAq (·.aqWrite (setBit value 31 true))

/-- HAT_AQ_DISABLE (R451, R471): the value written holds EN = 0. -/
def execHatAqDisable (value : Nat) (s : State) : Host.Outcome State Fault Refusal :=
  run s fun d => d.asWrite Pg.hatAq (·.aqWrite (setBit value 31 false))

/-- FLR (R465). -/
def execFlr (s : State) : Host.Outcome State Fault Refusal := run s (·.flr)

/-- LINK_DOWN (R466). -/
def execLinkDown (s : State) : Host.Outcome State Fault Refusal := run s (·.linkDown)

/-- LINK_TRAINED (R439, R59, R469). -/
def execLinkTrained (mode rate width : Nat) (s : State) : Host.Outcome State Fault Refusal := run s (·.linkTrained mode rate width)

/-- CONVENTIONAL_RESET (R466). -/
def execConventionalReset (s : State) : Host.Outcome State Fault Refusal := run s (·.conventionalReset)

end Sys2Proof.Machine
end

