-- ==== Sys2Proof/Machine/Pods.lean ====
section
/-! DEFINITION. Lane groups, Pods and dual-path pairing (R60–R78, R80–R83). -/
namespace Sys2Proof.Machine
open Sys2Proof

/-! ## Lanes and groups (R60–R66) -/

def Dev.lane (d : Dev) (l : Nat) : Lane := Map.get Lane.reset d.ing.lanes l
def Dev.onLane (d : Dev) (l : Nat) (f : Lane → Lane) : Dev :=
  d.onIng fun i => { i with lanes := Map.modify Lane.reset i.lanes l f }

def laneCode : LaneSt → Nat
  | .off => 0
  | .detect => 1
  | .locking => 2
  | .locked => 3
  | .up => 4

/-- A frame lane takes a state, as ING_LANE_STAT shows it, and an exit from UP is counted (R104; head-link lanes are lanes 64 and up, R280). -/
def Dev.setLaneSt (d : Dev) (l : Nat) (st : LaneSt) : Dev :=
  let d := d.when (decide (l < 64) && decide ((d.lane l).st = .up) && decide (st ≠ .up)) (·.count (F.ingLaneErr_lockLoss (l / 16) (l % 16)))
  let d := d.onLane l fun x => { x with st := st, skewBad := 0 }
  if l < 64 then d.wr (F.ingLaneStat_state (l / 16) (l % 16)) (laneCode st)
  else d.wr (F.hlLaneStat_state ((l - 64) / 4) ((l - 64) % 4)) (laneCode st)

/-- The fields of a bond word: width in lanes, first lane of a path, dual path (R61, R104). -/
def bondWidth (bond : Nat) : Nat := 2 ^ bitsOf bond 18 16
def bondDual (bond : Nat) : Bool := bond.testBit 19
def bondFirst (bond p : Nat) : Nat := if p = 0 then bitsOf bond 5 0 else bitsOf bond 13 8
def bondPaths (bond : Nat) : List Nat := if bondDual bond then [0, 1] else [0]
/-- The lanes of a path's group, in group order. -/
def bondLanes (bond p : Nat) : List Nat := (List.range (bondWidth bond)).map (bondFirst bond p + ·)
def bondAll (bond : Nat) : List Nat := ((bondPaths bond).map (bondLanes bond)).flatten

/-- The bond in force of a stream. -/
def Dev.bond (d : Dev) (s : Nat) : Nat := (d.forced (Pg.ingStr s + 0x100)).toNat

/-- The bond being built for a stream by a make-before-break commit (R50, R66). -/
def Dev.buildingBond (d : Dev) (s : Nat) : Option Nat :=
  match d.plat.staged.find? (fun g => g.page == Pg.ingStr s && (match g.mbb with
    | .build _ => true
    | _ => false)) with
  | some g => some (Map.get (resetVal (Pg.ingStr s + 0x100)) g.vals (Pg.ingStr s + 0x100)).toNat
  | none => none

/-- The rules of R61 on a bond alone: a legal width and aligned groups; the two paths of a dual bond do not share lanes. -/
def bondLegal (bond : Nat) : Bool :=
  decide (bitsOf bond 18 16 ≤ 4) && (bondPaths bond).all (fun p => bondFirst bond p % bondWidth bond == 0 &&
    decide (bondFirst bond p + bondWidth bond ≤ 64)) &&
  (!bondDual bond || (bondLanes bond 0).all fun l => !(bondLanes bond 1).contains l)

/-- Lanes that other enabled streams hold, in force, being built, or not yet released. -/
def Dev.lanesOfOthers (d : Dev) (s : Nat) : List Nat :=
  ((List.range 32).filter (fun t => t != s && d.streamEnabled t)).flatMap fun t =>
    bondAll (d.bond t) ++ (match d.buildingBond t with
      | some b => bondAll b
      | none => []) ++ (match (d.stream t).oldBond with
      | some o => bondAll o.1
      | none => [])

/-- The bond of a stream breaks no rule of R61. -/
def Dev.bondAllowed (d : Dev) (s bond : Nat) : Bool :=
  bondLegal bond && (bondAll bond).all fun l => !(d.lanesOfOthers s).contains l

/-- The stream, path and bond whose group a lane belongs to: the bond in force first, then one being built. -/
def Dev.groupsOf (d : Dev) (l : Nat) : List (Nat × Nat × Nat) :=
  ((List.range 32).filter (d.streamEnabled ·)).flatMap fun s =>
    let bonds := d.bond s :: (match d.buildingBond s with
      | some b => [b]
      | none => [])
    bonds.flatMap fun b => ((bondPaths b).filter (fun p => (bondLanes b p).contains l)).map (s, ·, b)

/-- The enabled streams that a lane serves, by the bond in force, one being built or one not yet released. -/
def Dev.streamsAt (d : Dev) (l : Nat) : List Nat :=
  (List.range 32).filter fun s => d.streamEnabled s && ((bondAll (d.bond s)).contains l || (match d.buildingBond s with
    | some b => (bondAll b).contains l
    | none => false) || (match (d.stream s).oldBond with
    | some o => (bondAll o.1).contains l
    | none => false))

/-- A path's group is UP while all its lanes are UP (R64). -/
def Dev.groupUp (d : Dev) (bond p : Nat) : Bool := (bondLanes bond p).all fun l => decide ((d.lane l).st = .up)

/-- The path's credit count restarts (R71): CREDITS less the credits still held; 0 with the rest owed under PRESSURE; and a
CREDIT Pod tells the sender. -/
def Dev.creditRestart (d : Dev) (s p : Nat) : Dev :=
  let n := d.rd (F.ingStrFlow_credits s) - (d.path s p).held
  let held := d.underPressure s || d.creditStopped s
  (d.onPath s p fun x => { x with granted := if held then 0 else n, owed := if held then n else 0, consumed := 0 }).sendCredit s p

/-- A path's group reaches UP (R77); its credit count restarts where it has been UP before (R71). -/
def Dev.pathUp (d : Dev) (s p : Nat) : Dev :=
  let x := d.path s p
  let st := if bondDual (d.bond s) && x.wasUp then PathSt.degraded else .active
  let d := (d.onPath s p fun x => { x with wasUp := true, single := 0, paired := 0 }).setPathSt s p st
  (d.when (decide (p = 0)) (·.wr (F.ingStrStat_groupUp s) 1)).when x.wasUp (·.creditRestart s p)

/-- A path's group leaves UP: partial Pods discarded, the path DOWN (R64, R77). -/
def Dev.pathDown (d : Dev) (s p : Nat) : Dev :=
  (d.setPathSt s p .down).when (decide (p = 0)) (·.wr (F.ingStrStat_groupUp s) 0)

/-- A lane has left UP (R64): LANE_LOST on every stream it serves; the paths whose groups in force it belongs to go DOWN. -/
def Dev.lanesDown (d : Dev) (l : Nat) : Dev :=
  let d := (d.streamsAt l).foldl (fun (d : Dev) s => d.raise (Pg.ingStr s) Er.ingStr_laneLost) d
  (d.groupsOf l).foldl (fun d g => if g.2.2 = d.bond g.1 ∧ (d.path g.1 g.2.1).st ≠ .down then d.pathDown g.1 g.2.1 else d) d

/-- Invalid sync headers received on a frame lane (R62, R104). -/
def Dev.badHeaders (d : Dev) (l bad : Nat) : Dev := d.when (decide (l < 64)) (·.countN (F.ingLaneErr_syncErr (l / 16) (l % 16)) bad)

/-- R64, frame lanes: 16 invalid sync headers among the last 64 blocks of an UP lane. -/
def Dev.flLost (d : Dev) (l bad : Nat) : Dev :=
  let d := d.badHeaders l bad
  if (d.lane l).st ≠ .up then d else (d.setLaneSt l .locking).lanesDown l

/-- R64, frame lanes: clock recovery loses lock, or the signal is lost. -/
def Dev.flSignalLoss (d : Dev) (l bad : Nat) : Dev :=
  let d := d.badHeaders l bad
  match (d.lane l).st with
  | .up => (d.setLaneSt l .detect).lanesDown l
  | .locking | .locked => d.setLaneSt l .detect
  | _ => d

/-- A lane joins a bond that is being built or enabled: OFF to DETECT (R64). -/
def Dev.laneJoin (d : Dev) (l : Nat) : Dev := if (d.lane l).st = .off then d.setLaneSt l .detect else d
/-- A lane leaves its bond, or its stream is disabled: OFF (R64). -/
def Dev.laneLeave (d : Dev) (l : Nat) : Dev := (d.onLane l fun x => { x with am := none }).setLaneSt l .off

/-- The AMs of a group, if every lane has one with the epoch in force, the group's width and the same marker count. DESIGN CHOICE: during a
build this is asked of the new bond's groups too, so the lanes they share with the bond in force must send AMs with the new groups' width
code and lane index; R64 and R66 name only the epoch, the position and the skew (log entry 80). -/
def Dev.groupAms (d : Dev) (epoch bond p : Nat) : Option (List AmBlock) :=
  let lanes := bondLanes bond p
  let ams := lanes.filterMap fun l => (d.lane l).am
  let good := (List.range lanes.length).all fun i => match (d.lane (lanes.getD i 0)).am with
    | some a => a.index == i && a.width == bitsOf bond 18 16 && a.epoch == epoch &&
        a.count == (ams.headD ⟨0, 0, 0, 0, 0, 0⟩).count
    | none => false
  if good then some ams else none

/-- Skew of a set of AMs in ns: latest less earliest arrival. -/
def amSkew (ams : List AmBlock) : Nat :=
  let t := ams.map (·.ns)
  t.foldl max 0 - t.foldl min (t.headD 0)

/-- Blocks of 66 bits that pass in `ns` at a RATE code (R60). -/
def blocksIn (rate ns : Nat) : Nat := ns * (nth [8, 16, 25, 32] rate 32) / 66

/-- A group's AMs of one marker count have all arrived: deskew and UP, or one more count outside the skew limit (R64). -/
def Dev.judgeGroup (d : Dev) (s p bond : Nat) : Dev :=
  let lanes := bondLanes bond p
  let ready := lanes.all fun l => decide ((d.lane l).st = .locked) || decide ((d.lane l).st = .up)
  match d.groupAms (d.stream s).epoch bond p with
  | none => d
  | some ams =>
    let first := (ams.map (·.ns)).foldl min ((ams.map (·.ns)).headD 0)
    let d := lanes.foldl (fun d l => match (d.lane l).am with
      | some a => d.wr (F.ingLaneStat_skew (l / 16) (l % 16)) (min 255 (blocksIn (bitsOf bond 7 6) (a.ns - first)))
      | none => d) d
    let allUp := lanes.all fun l => decide ((d.lane l).st = .up)
    let made := d.injected (Pg.ingStr s) Er.ingStr_skew
    if !ready || (allUp && decide (160 < amSkew ams)) then d
    else if amSkew ams ≤ 160 ∧ (allUp ∨ !made) then
      let was := d.groupUp bond p
      let d := lanes.foldl (fun d l => d.setLaneSt l .up) d
      if was ∨ bond ≠ d.bond s then d else d.pathUp s p
    else
      let d := lanes.foldl (fun d l => d.onLane l fun x => { x with skewBad := x.skewBad + 1 }) d
      if made || lanes.all fun l => decide (4 ≤ (d.lane l).skewBad) then
        lanes.foldl (fun d l => d.onLane l fun x => { x with skewBad := 0 })
          ((d.takeInjected (Pg.ingStr s) Er.ingStr_skew).raise (Pg.ingStr s) Er.ingStr_skew)
      else d

/-- An AM arrives on a frame lane (R63, R64). -/
def Dev.flAm (d : Dev) (l : Nat) (am : AmBlock) : Dev :=
  let d := d.badHeaders l am.bad
  let st := (d.lane l).st
  if st ≠ .locked ∧ st ≠ .up then d
  else
    let d := (d.onLane l fun x => { x with am := some am }).wr (F.ingLaneStat_epoch (l / 16) (l % 16)) am.epoch
    (d.groupsOf l).foldl (fun d g => d.judgeGroup g.1 g.2.1 g.2.2) d

/-! ## The Pod (R67–R70) -/

/-- The header of a Pod. -/
structure PodHdr where
  ty     : Nat
  stream : Nat
  flags  : Nat
  length : Nat
  seq    : Nat
  frame  : Nat
  offset : Nat
  time   : Nat
  crcOk  : Bool
  rsvOk  : Bool
  deriving DecidableEq, Repr

def podHdr (b : List Byte) : PodHdr :=
  let w := fieldAt b 0 2
  { ty := w / 4096, stream := w / 128 % 32, flags := w % 128, length := fieldAt b 2 2, seq := fieldAt b 4 4,
    frame := fieldAt b 8 4, offset := fieldAt b 12 4, time := fieldAt b 16 8,
    crcOk := crc16 (slice b 0 30) == fieldAt b 30 2, rsvOk := fieldAt b 24 6 == 0 && w % 2 == 0 }

def PodHdr.isData (h : PodHdr) : Bool := h.ty == 1
def PodHdr.first (h : PodHdr) : Bool := h.flags.testBit 6
def PodHdr.last (h : PodHdr) : Bool := h.flags.testBit 5
def PodHdr.isMeta (h : PodHdr) : Bool := h.flags.testBit 3
def PodHdr.trig (h : PodHdr) : Bool := h.flags.testBit 2
def PodHdr.srcBad (h : PodHdr) : Bool := h.flags.testBit 1

/-- LENGTH is one that the Pod's type allows (R67, R69). -/
def PodHdr.lengthOk (h : PodHdr) : Bool :=
  if h.isData then decide (256 ≤ h.length) && decide (h.length ≤ 8192) && h.length % 256 == 0 else h.length == 0

/-- The FORMAT row of R70 (second check). -/
def podFormatOk (h : PodHdr) (b : List Byte) (stream : Nat) : Bool :=
  (h.ty == 1 || h.ty == 2 || h.ty == 15) && h.rsvOk && h.stream == stream && h.lengthOk &&
    b.length == (if h.length = 0 then 32 else h.length + 40) && (h.length == 0 || fieldAt b (h.length + 36) 4 == 0)

/-- The CRC-32C trailer of a Pod, 0 for a header alone. -/
def podTrailer (h : PodHdr) (b : List Byte) : Nat := if h.length = 0 then 0 else fieldAt b (32 + h.length) 4

/-- The outcomes of R70 and R76. -/
inductive PodOut where
  | hdrCrc | format | overrun | payCrc | late | dup | pair | accept
  deriving DecidableEq, Repr

/-- Distance of a SEQ behind the newest accepted (R75). -/
def seqBehind (n s : Nat) : Nat := behind 32 n s

/-- R75: older than the duplicate window. -/
def Stream.tooOld (st : Stream) (seq : Nat) : Bool :=
  match st.newest with
  | none => false
  | some n => !decide (seqBehind n seq < 4096) && !(decide (1 ≤ seqBehind seq n) && decide (seqBehind seq n < 2 ^ 31))

/-- A DATA Pod's range is one that R81 allows in a frame of `size` and `meta_` bytes. -/
def rangeOk (h : PodHdr) (size meta_ : Nat) : Bool :=
  let total := if h.isMeta then meta_ else size
  let e := h.offset + h.length
  h.offset % 8192 == 0 && decide (e ≤ total) && (h.length == 8192 || e == total) &&
    (!h.first || h.offset == 0) && (!h.last || e == total)

/-- The frame shape in force of a stream, in bytes (R80). -/
def Dev.frameSize (d : Dev) (s : Nat) : Nat := d.rd (F.ingStrFrame_size s) * 256
def Dev.metaSize (d : Dev) (s : Nat) : Nat := d.rd (F.ingStrFrame_meta s) * 256

/-- The chunk of a DATA Pod is one its frame, or the shape in force, allows and is not yet covered (R70, R81). -/
def Dev.chunkOk (d : Dev) (s : Nat) (h : PodHdr) : Bool :=
  match (d.openFrames s).find? (·.frame == h.frame) with
  | some f => rangeOk h f.size f.meta_ && !(if h.isMeta then f.metas else f.pixels).testBit (h.offset / 8192)
  | none => rangeOk h (d.frameSize s) (d.metaSize s)

/-- The path epochs that a block run may carry: the one in force, and until its release the old bond's (R66). -/
def Dev.epochOk (d : Dev) (s epoch : Nat) : Bool :=
  epoch == (d.stream s).epoch || (match (d.stream s).oldBond with
    | some o => epoch == o.2
    | none => false)

/-- The first outcome of R70 that matches, and, for a copy of an accepted SEQ, whether it is the other path's (R76). -/
def Dev.judgePod (d : Dev) (pod : PodArrival) (h : PodHdr) : PodOut :=
  let s := pod.stream
  let st := d.stream s
  let x := d.path s pod.path
  let pg := Pg.ingStr s
  if !h.crcOk || decide (pod.bytes.length < 32) || d.injected pg Er.ingStr_hdrCrc then .hdrCrc
  else if !podFormatOk h pod.bytes s || !d.epochOk s pod.epoch || d.injected pg Er.ingStr_format then .format
  else if decide (32 < pod.bytes.length) && decide (x.granted ≤ x.consumed) || d.injected pg Er.ingStr_overrun then .overrun
  else if decide (0 < h.length) && crc32c (slice pod.bytes 32 h.length) != podTrailer h pod.bytes ||
      d.injected pg Er.ingStr_payCrc then .payCrc
  else if st.tooOld h.seq || (h.isData && st.closed.contains h.frame) || d.injected pg Er.ingStr_late then .late
  else match st.pods.find? (·.seq == h.seq) with
    | some r => if bondDual (d.bond s) && r.path != pod.path then .pair else .dup
    | none => if h.isData && !d.chunkOk s h then .format else .accept

/-! ## Pairing (R76, R77) -/

/-- A pairing closes with one copy: against the other path (R77). -/
def Dev.singleClose (d : Dev) (s : Nat) (r : PodRec) : Dev :=
  if !bondDual (d.bond s) then d
  else
    let q := 1 - r.path
    let d := (d.count (F.ingStrCnt s (8 + q))).onPath s q fun x => { x with single := x.single + 1, paired := 0 }
    let x := d.path s q
    if x.st = .active ∧ 64 ≤ x.single then (d.setPathSt s q .degraded).raise (Pg.ingStr s) Er.ingStr_pathDegraded else d

/-- A pairing closes with two copies, the second on path `q`: a DEGRADED path returns after 1,024 in a row (R77). -/
def Dev.pairedClose (d : Dev) (s q : Nat) : Dev :=
  let d := d.onPath s q fun x => { x with single := 0 }
  [0, 1].foldl (fun d p =>
    let d := d.onPath s p fun x => { x with paired := x.paired + 1 }
    let x := d.path s p
    if x.st = .degraded ∧ 1024 ≤ x.paired then (d.onPath s p fun x => { x with single := 0, paired := 0 }).setPathSt s p .active
    else d) d

def Dev.onPod (d : Dev) (s seq : Nat) (f : PodRec → PodRec) : Dev :=
  d.onStream s fun st => { st with pods := st.pods.map fun r => if r.seq = seq then f r else r }

/-- The newest SEQ moves the window; records that leave it close their pairings with one copy, and go once their payload is written
(R71, R75, R76). -/
def Dev.slideWindow (d : Dev) (s n : Nat) : Dev :=
  let within (r : PodRec) : Bool := decide (seqBehind n r.seq < 4096)
  let gone := (d.stream s).pods.filter fun r => !within r
  let d := (gone.filter (·.isOpen)).foldl (fun d r => d.singleClose s r) d
  d.onStream s fun st => { st with
    newest := some n, pods := (st.pods.filter fun r => within r || r.writing).map fun r => { r with isOpen := r.isOpen && within r } }

/-- PAIR_WAIT ticks after a first copy its pairing closes (R76). -/
def Dev.pairingTimeout (d : Dev) (s seq : Nat) : Dev :=
  match (d.stream s).pods.find? (·.seq == seq) with
  | some r =>
    if r.isOpen && decide (d.rd (F.ingStrTime_pairWait s) ≤ d.since r.tick) then
      (d.onPod s seq fun r => { r with isOpen := false }).singleClose s r
    else d
  | none => d

/-- The second copy of a Pod (R76): compared while its pairing is open. A frame that the drain has taken is changed no more (R78). DESIGN
CHOICE: of two header-only Pods, whose FRAME, OFFSET and FLAGS are not interpreted (R70), only the length is compared (log entry 81). -/
def Dev.secondCopy (d : Dev) (pod : PodArrival) (h : PodHdr) (r : PodRec) : Dev :=
  let s := pod.stream
  if !r.isOpen then (d.count (F.ingStrCnt s 5)).raise (Pg.ingStr s) Er.ingStr_late
  else
    let d := (d.onPod s h.seq fun r => { r with isOpen := false }).pairedClose s pod.path
    let same := r.length == h.length && r.crc == podTrailer h pod.bytes &&
      (decide (h.length = 0) || (r.frame == h.frame && r.offset == h.offset && r.flags == setBit h.flags 4 false))
    if same && !d.injected (Pg.ingStr s) Er.ingStr_mismatch then d.count (F.ingStrCnt s 6)
    else
      let d := ((d.takeInjected (Pg.ingStr s) Er.ingStr_mismatch).count (F.ingStrCnt s 7)).raise (Pg.ingStr s) Er.ingStr_mismatch
      match (d.stream s).frames.find? (·.pn == r.pn) with
      | some f =>
        if f.drained || (d.stream s).draining == some f.pn || f.gone || decide (r.length = 0) then d
        else
          let c := r.offset / 8192 + (if r.flags.testBit 3 then chunks f.size else 0)
          let (o, d) := d.chainRead s (f.chunkPos c).1 r.length
          let d := d.chainWrite s (f.chunkPos c).1 o.data true
          let f := { f with hollow := true, mismatch := true }
          let d := (d.onFrame s r.pn fun _ => f).writeMrr s 3 f [(c, 1)]
          d.when f.closed (·.rewriteEntry s f)
      | none => d

/-! ## Placing a frame (R80, R83, R88) -/

/-- The ring frames of a stream, oldest first. -/
def Dev.ringFrames (d : Dev) (s : Nat) : List FrameRec := (d.stream s).frames.filter fun f => !f.gone && f.take_.isNone

/-- Buffers spanned from the first buffer of the oldest ring frame to the last buffer of a slot at the tail (R88). -/
def Dev.ringSpan (d : Dev) (s slot : Nat) : Nat :=
  let st := d.stream s
  let first := match d.ringFrames s with
    | f :: _ => f.start
    | [] => st.tail
  (st.tail + slot - 1) / 65536 + 1 - first / 65536

/-- The oldest ring frame is released, closed as incomplete first if it is still open (R88). -/
def Dev.releaseOldest (d : Dev) (s : Nat) : Dev :=
  match d.ringFrames s with
  | [] => d
  | f :: _ =>
    let d := d.when f.isOpen fun d => (d.closeIncomplete s f.pn 2).raise (Pg.ingStr s) Er.ingStr_openEvict
    d.onFrame s f.pn fun f => { f with released := true }

/-- Ring frames released until the budget holds (R88). DESIGN CHOICE: a slot that alone spans more buffers than the budget is placed once the
ring is empty (log entry 82). -/
def Dev.ringRelease (d : Dev) (s slot : Nat) : Nat → Dev
  | 0 => d
  | n + 1 =>
    if d.rd (F.ingStrRing s) = 0 ∨ d.ringSpan s slot ≤ d.rd (F.ingStrRing s) ∨ d.ringFrames s = [] then d
    else (d.releaseOldest s).ringRelease s slot n

/-- A frame is placed at the chain's tail (R80, R88, R90); `none` where BPM does not grant every buffer its slot needs. -/
def Dev.placeSlot (d : Dev) (s : Nat) (h : PodHdr) (instant : Nat) : Option Nat × Dev :=
  let slot := slotBytes (d.frameSize s) (d.metaSize s)
  let inTake := decide (d.streamSes s = .run)
  let d := d.when (!inTake) fun d => (d.ringRelease s slot (d.ringFrames s).length).reclaim s
  let st := d.stream s
  let (ok, d) := d.chainGrow s (st.tail + slot) (slot / 65536 + 2)
  if !ok then (none, d)
  else
    let pn := d.rd (F.ingStrPn s)
    let n := (d.sessionOf s).getD 0
    let take_ := if inTake then some (d.rd (F.ingSesTake n)) else none
    let trig := match (d.stream s).trigNext with
      | some a => decide (a ≤ instant)
      | none => false
    let f : FrameRec := {
      frame := h.frame, pn := pn, start := (d.stream s).tail, size := d.frameSize s, meta_ := d.metaSize s, firstTick := d.now, instant := instant,
      senderTime := h.time, tc := d.timecode, pixels := 0, metas := 0, hollow := false,
      incomplete := false, mismatch := false, srcBad := false, lastMeta := false,
      live := !inTake && !decide (d.streamSes s = .armed), trigger := trig, closed := false, ranges := 0,
      endTick := 0, take_ := take_, session := n, drained := false, durable := false, released := false, location := 0 }
    let d := d.onStream s fun st => { st with frames := st.frames ++ [f], tail := st.tail + slot, trigNext := if trig then none else st.trigNext }
    let d := d.when inTake (·.onSession n fun x => { x with takes := x.takes.map fun t => if t.1 = s then (t.1, t.2.1, t.2.2 + 1) else t })
    (some pn, (d.wr (F.ingStrPn s) ((pn + 1) % 2 ^ 32)).showOpen s)

/-- A frame is opened: with 8 open the oldest closes first (R83). A stream that takes no new frames places none (R51, R89). -/
def Dev.placeFrame (d : Dev) (s : Nat) (h : PodHdr) (instant : Nat) : Option Nat × Dev :=
  let page := Pg.ingStr s
  if d.unitAt page ≠ .active ∨ d.injected page Er.ingStr_noBuffer then (none, d)
  else
    let d := match d.openFrames s with
      | f :: _ => if 8 ≤ (d.openFrames s).length ∨ d.injected page Er.ingStr_openEvict then
          (((d.takeInjected page Er.ingStr_openEvict).closeIncomplete s f.pn 2).raise page Er.ingStr_openEvict).fallsOut s f.pn
        else d
      | [] => d
    d.placeSlot s h instant

/-- The frame a DATA Pod belongs to: open already, or placed now. -/
def Dev.frameFor (d : Dev) (s : Nat) (h : PodHdr) (instant : Nat) : Option Nat × Dev :=
  match (d.openFrames s).find? (·.frame == h.frame) with
  | some f => (some f.pn, d)
  | none => d.placeFrame s h instant

/-- A DATA Pod's chunk covered and its payload on its way to the store. -/
def Dev.takeChunk (d : Dev) (s pn : Nat) (h : PodHdr) (payload : List Byte) : Dev :=
  let c := h.offset / 8192
  let d := d.onFrame s pn fun f =>
    let f := { f with srcBad := f.srcBad || h.srcBad }
    if h.isMeta then { f with metas := f.metas ||| 2 ^ c, lastMeta := f.lastMeta || h.last }
    else { f with pixels := f.pixels ||| 2 ^ c }
  match d.frameOf s pn with
  | some f => d.chainWrite s (f.start + 256 + (if h.isMeta then f.size else 0) + h.offset) payload false
  | none => d

/-- An accepted Pod: counted, recorded for its window, and, for DATA, its chunk taken. -/
def Dev.acceptPod (d : Dev) (pod : PodArrival) (h : PodHdr) (pn : Nat) : Dev :=
  let s := pod.stream
  let d := d.count (F.ingStrCnt s 0)
  let newer := match (d.stream s).newest with
    | none => true
    | some n => decide (1 ≤ seqBehind h.seq n) && decide (seqBehind h.seq n < 2 ^ 31)
  let d := d.when newer (·.slideWindow s h.seq)
  let r : PodRec := ⟨h.seq, h.frame, h.offset, h.length, setBit h.flags 4 false, podTrailer h pod.bytes, pod.path, d.now,
    bondDual (d.bond s), h.isData, pn⟩
  let d := d.onStream s fun st => { st with pods := st.pods ++ [r] }
  let d := d.when h.isData fun d =>
    (d.takeChunk s pn h (slice pod.bytes 32 h.length)).onPath s pod.path fun x => { x with held := x.held + 1 }
  d.when (h.ty == 2 || (h.isData && h.trig)) (·.podTrigger s (pod.ns / 10) (d.now - pod.ago))

/-- A discarded Pod: its counter and error, and its credit returned (R70, R71). -/
def Dev.discardPod (d : Dev) (pod : PodArrival) (cnt : Nat) (bit : Option Nat) : Dev :=
  let s := pod.stream
  let d := d.count (F.ingStrCnt s cnt)
  let d := match bit with
    | some b => (d.takeInjected (Pg.ingStr s) b).raise (Pg.ingStr s) b
    | none => d
  d.when (decide (32 < pod.bytes.length)) (·.returnCredit s pod.path)

/-- POD_RECEIVED (R70–R84): the path must be UP for a Pod to arrive whole. -/
def Dev.podReceived (d : Dev) (pod : PodArrival) : Dev :=
  let s := pod.stream
  if (d.path s pod.path).st = .down ∨ !d.streamOn s ∨ d.closed (Pg.ingStr s) ∨ d.regionFenced 3 then d
  else
    let h := podHdr pod.bytes
    let out := d.judgePod pod h
    let old := (d.stream s).pods.find? (·.seq == h.seq)
    let d := d.when (decide (32 < pod.bytes.length)) (·.onPath s pod.path fun x => { x with consumed := x.consumed + 1 })
    match out with
    | .hdrCrc => d.discardPod pod 1 (some Er.ingStr_hdrCrc)
    | .format => d.discardPod pod 3 (some Er.ingStr_format)
    | .overrun => d.discardPod pod 4 (some Er.ingStr_overrun)
    | .payCrc => d.discardPod pod 2 (some Er.ingStr_payCrc)
    | .late => d.discardPod pod 5 (some Er.ingStr_late)
    | .dup => d.discardPod pod 6 none
    | .pair => match old with
      | some r => (d.secondCopy pod h r).when (decide (32 < pod.bytes.length)) (·.returnCredit s pod.path)
      | none => d
    | .accept =>
      if h.isData then
        match d.frameFor s h (250 * (d.now - pod.ago) + pod.ns / 10) with
        | (some pn, d) => d.acceptPod pod h pn
        | (none, d) => d.discardPod pod 12 (some Er.ingStr_noBuffer)
      else d.acceptPod pod h 0

/-- POD_PAYLOAD_WRITTEN (R71): the payload of an accepted DATA Pod stands in the store and its credit is returned. -/
def Dev.payloadWritten (d : Dev) (s p seq : Nat) : Dev :=
  if (d.stream s).pods.any (fun r => r.seq == seq && r.path == p && r.writing) then
    let d := d.onPod s seq fun r => { r with writing := false }
    let d := d.onStream s fun st => { st with pods := st.pods.filter fun r => r.writing || (match st.newest with
      | some n => decide (seqBehind n r.seq < 4096)
      | none => true) }
    (d.onPath s p fun x => { x with held := x.held - 1 }).returnCredit s p
  else d

/-- A CREDIT Pod goes out at least once per tick while the stream is enabled (R72). -/
def Dev.creditPeriodic (d : Dev) (s p : Nat) : Dev :=
  if d.streamOn s && (bondPaths (d.bond s)).contains p then d.sendCredit s p else d

/-! ## Enable and disable of a lane group (R61, R64, R72, R77, R82, R85) -/

/-- Coverage bits that a frame shape takes (R82). -/
def shapeCost (size meta_ : Nat) : Nat := 8 * (chunks size + chunks meta_)

/-- The coverage store holds the enabled streams and `s` with its new shape (R82). -/
def Dev.coverageFits (d : Dev) (s size meta_ : Nat) : Bool :=
  decide (((List.range 32).filter (fun t => t != s && d.streamEnabled t)).foldl
    (fun n t => n + shapeCost (d.frameSize t) (d.metaSize t)) (shapeCost size meta_) ≤ 16777216)

/-- R61, R82: what ENABLE ← 1 of a stream is checked for. -/
def Dev.streamMayEnable (d : Dev) (s : Nat) : Bool :=
  d.bondAllowed s (d.bond s) && d.coverageFits s (d.frameSize s) (d.metaSize s)

/-- The lanes that a stream's bonds name: the one in force and one being built. -/
def Dev.streamLanes (d : Dev) (s : Nat) : List Nat := bondAll (d.bond s) ++ (match d.buildingBond s with
  | some b => bondAll b
  | none => [])

/-- The stream starts: its lanes leave OFF, both paths read DOWN, the duplicate window is empty, and the count granted is told to the sender
(R64, R72, R75, R77). -/
def Dev.streamStart (d : Dev) (s : Nat) : Dev :=
  let fresh : Path := { Path.reset with granted := d.rd (F.ingStrFlow_credits s) }
  let d := d.onStream s fun st => { st with a := fresh, b := fresh, newest := none, pods := [] }
  let d := (d.setPathSt s 0 .down).setPathSt s 1 .down
  let d := (d.streamLanes s).foldl (fun d l => d.laneJoin l) d
  (bondPaths (d.bond s)).foldl (fun d p => d.sendCredit s p) d

/-- The stream stops: its lanes go OFF and its paths DOWN (R64). -/
def Dev.streamStop (d : Dev) (s : Nat) : Dev :=
  let lanes := d.streamLanes s ++ (match (d.stream s).oldBond with
    | some o => bondAll o.1
    | none => [])
  let d := lanes.foldl (fun d l => d.laneLeave l) d
  (((d.setPathSt s 0 .down).setPathSt s 1 .down).wr (F.ingStrStat_groupUp s) 0).onStream s fun st => { st with oldBond := none }

/-! ## Meanings -/

/-- POD_RECEIVED (R70). -/
def execPodReceived (pod : PodArrival) (s : State) : Host.Outcome State Fault Refusal := run s (·.podReceived pod)

/-- POD_PAYLOAD_WRITTEN (R71). -/
def execPodPayloadWritten (stream path seq : Nat) (s : State) : Host.Outcome State Fault Refusal :=
  run s (·.payloadWritten stream path seq)

/-- CREDIT_POD_PERIODIC (R72). -/
def execCreditPodPeriodic (stream path : Nat) (s : State) : Host.Outcome State Fault Refusal :=
  run s (·.creditPeriodic stream path)

/-- PAIRING_TIMEOUT (R76). -/
def execPairingTimeout (stream seq : Nat) (s : State) : Host.Outcome State Fault Refusal := run s (·.pairingTimeout stream seq)

end Sys2Proof.Machine
end

