-- ==== Sys2Proof/Machine/Commit.lean ====
section
/-! DEFINITION. Commits at a tick, commit groups and make-before-break (R42–R50, R66, R548), with what each chapter refuses (R61, R82,
R87, R95, R129, R161, R166, R206, R210, R247, R279, R310, R336, R373, R393, R398, R425). -/
namespace Sys2Proof.Machine
open Sys2Proof

/-! ## What a commit refuses -/

/-- The addresses of a register of a page. -/
def RegDef.addrs (r : RegDef) (page : Nat) : List Nat :=
  ((List.range r.n1).map (fun i => (List.range r.n2).map (fun j => page + r.off + r.s1 * i + r.s2 * j))).flatten

/-- Some RS field of the page, with the values of `n`, lies outside the range its table states (R548). -/
def Dev.outOfRange (n : Dev) (page : Nat) : Bool :=
  match kindAt page with
  | none => false
  | some (k, _) => k.desc.regs.any (fun r =>
      let fs := r.fields.filter (fun f => decide (f.ty = .rs) && (decide (0 < f.min) || decide (f.max + 1 < 2 ^ (f.hi + 1 - f.lo))))
      !fs.isEmpty && (r.addrs page).any (fun a => fs.any (fun f =>
        let v := bitsOf (n.forced a).toNat f.hi f.lo
        decide (v < f.min) || decide (f.max < v))))

/-- Two runs of map pages that share one. -/
def overlap (a na b nb : Nat) : Bool := decide (0 < na) && decide (0 < nb) && decide (a < b + nb) && decide (b < a + na)

def Dev.volsHit (n : Dev) (base len : Nat) (except_ : Nat) : Bool :=
  (List.range 64).any (fun v => v != except_ && overlap base len (n.rd (F.sflVolBase v)) (n.rd (F.sflVolSize v)))

def Dev.stagingPages (n : Dev) : Nat × Nat := (n.rd F.parDiscStage_base, 32 * n.rd F.parDiscStage_runs)

/-- The ring budgets of a session's members (R87). -/
def Dev.ringSum (n : Dev) (ses : Nat) : Nat := (n.members ses).foldl (fun k s => k + n.rd (F.ingStrRing s)) 0

def Dev.strRefused (d n : Dev) (s : Nat) : Bool :=
  let b := n.bond s
  let bits := bitsCode (n.rd (F.ingStrFmt_bits s))
  let width := n.rd (F.ingStrFmt_width s)
  (decide (b ≠ d.bond s) && !(d.bondAllowed s b && n.bondAllowed s b)) ||
    !n.coverageFits s (n.frameSize s) (n.metaSize s) ||
    (match n.sessionOf s with
      | some x => decide (3145728 < n.ringSum x)
      | none => false) ||
    (n.flag (F.ingStrCodec_codec s) && (decide (width = 0) || decide (width * bits % 8 ≠ 0) || decide (n.frameSize s * 8 % (width * bits) ≠ 0))) ||
    (n.flag (F.ingStrCodec_aes s) && decide (d.rd (F.sflAesKeyid (n.rd (F.ingStrCodec_key s))) = 0))

def Dev.sesRefused (d n : Dev) (x : Nat) : Bool :=
  (List.range 32).any (fun y => y != x && decide (n.rd (F.ingSesStreams y) &&& n.rd (F.ingSesStreams x) ≠ 0)) ||
    (decide (n.rd (F.ingSesStreams x) ≠ d.rd (F.ingSesStreams x)) && decide (d.sesSt x ≠ .off)) || decide (3145728 < n.ringSum x)

/-- A pool short of what is used and reserved; checked again at the boundary (R129). -/
def Dev.poolShort (d n : Dev) (p : Nat) : Bool := decide (n.rd (F.bpmPoolSize p) < d.used p + n.spare p)

def Dev.poolRefused (d n : Dev) (p : Nat) : Bool :=
  let size := n.rd (F.bpmPoolSize p)
  let rsv := (List.range 64).foldl (fun k o => if n.ownerPool o = p then k + n.rd (F.bpmOwnRsv o) else k) 0
  let pooled := if d.plat.boot = .ready then d.pooledNow else (List.range 4).foldl (fun k s => k + Config.pooled s) 0
  !(decide (n.rd (F.bpmPoolWarn p) ≤ n.rd (F.bpmPoolPress p)) && decide (n.rd (F.bpmPoolPress p) ≤ n.rd (F.bpmPoolCrit p)) &&
      decide (n.rd (F.bpmPoolCrit p) ≤ size)) ||
    decide (n.rd (F.bpmPoolPress p) ≤ n.rd (F.bpmPoolCfg_hyst p)) || decide (size < rsv) || d.poolShort n p ||
    (decide (d.sizeSum < n.sizeSum) && decide (pooled < n.sizeSum))

def Dev.ownRefused (d n : Dev) (o : Nat) : Bool :=
  [12, 13, 14].contains (n.rd (F.bpmOwnCfg_region o)) || d.poolRefused n (n.ownerPool o)

def Dev.windowRefused (d n : Dev) (w : Nat) : Bool :=
  let (b, l) := (n.rd (F.seqMcWinBase w), n.rd (F.seqMcWinLimit w))
  let same := decide (d.rd (F.seqMcWinBase w) = b) && decide (d.rd (F.seqMcWinLimit w) = l) &&
    decide (d.rd (F.seqMcWinCfg_policy w) = n.rd (F.seqMcWinCfg_policy w))
  let on := n.flag (F.seqMcWinCfg_en w)
  decide (l < b) || decide (Config.systemFirst ≤ l) || decide (8 < n.rd (F.seqMcWinCfg_pfDepth w)) ||
    (on && (List.range 8).any (fun v => v != w && n.flag (F.seqMcWinCfg_en v) && decide (n.rd (F.seqMcWinBase v) ≤ l) &&
      decide (b ≤ n.rd (F.seqMcWinLimit v)))) ||
    (on && d.flag (F.seqMcWinCfg_en w) && !same) || (on && !d.flag (F.seqMcWinCfg_en w) && d.flag (F.seqMcWinStat_draining w))

/-- Some register of the page changes its values in force. -/
def Dev.changes (d n : Dev) (page : Nat) : Bool := decide (Map.window d.force page (4096 + page) ≠ Map.window n.force page (4096 + page))

def Dev.dieRefused (d n : Dev) (t : Nat) : Bool :=
  let inUse := (List.range 32).any (fun ch => (List.range 8).any (fun ce => d.ceReady ch ce && d.dieOf ch ce == t))
  decide (n.rd (F.sflDieIf_spare t) < spareNeed (n.rd (F.sflDieGeom_page t)) (n.rd (F.sflDieIf_parity t))) || (inUse && d.changes n (Pg.sflDie t))

def Dev.volRefused (d n : Dev) (v : Nat) : Bool :=
  let (b, sz) := (n.rd (F.sflVolBase v), n.rd (F.sflVolSize v))
  let (ob, osz) := (d.rd (F.sflVolBase v), d.rd (F.sflVolSize v))
  let mapped := !(Map.window d.sfl.map (4096 * ob) (4096 * (ob + osz))).isEmpty
  let (sb, sn) := n.stagingPages
  decide (4194304 < b + sz) || n.volsHit b sz v || overlap b sz sb sn ||
    (mapped && (decide (b ≠ ob) || decide (n.rd (F.sflVolCfg_idx v) ≠ d.rd (F.sflVolCfg_idx v)) || decide (sz < osz))) ||
    (n.flag (F.sflVolCfg_aes v) && decide (d.rd (F.sflAesKeyid (n.rd (F.sflVolCfg_key v))) = 0))

def Dev.setRefused (d n : Dev) (s : Nat) : Bool :=
  let ms := n.setMembers s
  let pair (x : Nat) : Bool := d.par.shapes.any (fun e => (e.1 == s && e.2 == x) || (e.1 == x && e.2 == s))
  let shape := d.setOn s && n.setOn s && (decide (n.rd (F.parSetMem s) ≠ d.rd (F.parSetMem s)) || (n.setQ s != d.setQ s))
  let t := n.rd (F.parSetCfg_target s)
  let bound (m : Dev) (x : Nat) : Nat := m.rd (F.parSetVolLo x) + 2 ^ 32 * m.rd (F.parSetVolHi x)
  (n.setOn s && (decide (ms.length < 4) || decide (32 < ms.length) ||
      (List.range 8).any (fun x => x != s && n.setOn x && !pair x && ms.any (fun ch => (n.setMembers x).contains ch)))) ||
    (shape && (decide (t = s) || decide (7 < t) || d.setOn t || decide (d.rd (F.parSetStat_state s) ≠ 1) ||
      (List.range 8).any (fun x => d.flag (F.parSetStat_rebuild x)) || !d.par.shapes.isEmpty)) ||
    (d.setOn s && !n.setOn s && (decide (bound d s ≠ 0) || !(d.liveRows s).isEmpty)) ||
    (List.range 8).any (fun x => x != s && decide (bound n x &&& bound n s ≠ 0))

def Dev.stageRefused (d n : Dev) : Bool :=
  let (b, len) := n.stagingPages
  decide (4194304 < b + len) || (!d.runs.isEmpty && n.stagingPages != d.stagingPages) || n.volsHit b len 64

def Dev.catRefused (d n : Dev) : Bool :=
  let b := n.rd F.odrCatCfg_base
  let (sb, sn) := n.stagingPages
  (n.flag F.odrCatCfg_en && (n.volsHit b 1 64 || overlap b 1 sb sn)) ||
    (decide (b ≠ d.rd F.odrCatCfg_base) && d.odr.cat.any (fun e => decide (e.2.st ≠ 0)))

def Dev.rcRefused (d n : Dev) (x : Nat) : Bool :=
  let off := maskCount (n.rd (F.rcBeamOff x))
  decide (n.rd (F.rcCfg_rsThr x) = 3) || decide (n.rd (F.rcDef_drop x) ≤ n.rd (F.rcDef_recover x)) || (if d.ad8 x then decide (0 < off) else decide (2 < off)) ||
    ([F.rcTarget_t0 x, F.rcTarget_t1 x, F.rcTarget_t2 x, F.rcTarget_t3 x, F.rcTarget4 x].all (fun f => decide (n.rd f = 0)))

def Dev.wrRefused (n : Dev) (x : Nat) : Bool :=
  (List.range 32).any (fun l => !(decide (n.rd (F.wrPwr_read x l) < n.rd (F.wrPwr_bias x l)) &&
      decide (n.rd (F.wrPwr_bias x l) < n.rd (F.wrPwr_peak x l)) && decide (n.rd (F.wrPwr_cool x l) ≤ n.rd (F.wrPwr_bias x l)))) ||
    decide (n.rd (F.wgLim_foc x) = 0) || decide (n.rd (F.wgLim_trk x) = 0)

def Dev.srvRefused (d n : Dev) (x : Nat) : Bool :=
  let e := d.csEngine x
  let sets := uniq ((List.range 2048).map (n.mapSet4 x))
  !(decide (n.rd (F.srvSpdTh0_th0 x) < n.rd (F.srvSpdTh0_th1 x)) && decide (n.rd (F.srvSpdTh0_th1 x) < n.rd (F.srvSpdTh1_th2 x)) &&
      decide (n.rd (F.srvSpdTh1_hyst x) < n.rd (F.srvSpdTh0_th0 x))) || decide (n.rd (F.srvSeekCfg_vmax x) < n.rd (F.srvSeekCfg_acc x)) ||
    sets.any (fun s => (d.csStages e s 0).isEmpty)

def Dev.loopRefused (n : Dev) (page : Nat) : Bool :=
  let lim := (n.forced (page + 0x108)).toNat
  decide (sgn 16 (bitsOf lim 31 16) < sgn 16 (bitsOf lim 15 0))

def Dev.spRefused (d n : Dev) (x : Nat) : Bool :=
  let moved := ([F.spCfg_poles x, F.spCfg_dir x, F.spMot0_res x, F.spMot0_ind x, F.spMot1_psi x, F.spMot1_iFs x, F.spMot2_vFs x,
    F.spMot2_iTrip x]).any (fun f => decide (n.rd f ≠ d.rd f))
  decide (420 < n.rd (F.spDtc_on x) + n.rd (F.spCfg_dead x)) || decide (n.rd (F.spVlim_vdcMax x) ≤ n.rd (F.spVlim_vdcMin x)) ||
    (moved && decide ((d.spin x).st ≠ 0))

def Dev.stRefused (d n : Dev) (m : Nat) : Bool :=
  decide (n.rd (F.stVmax m) < n.rd (F.stVstart m)) ||
    ((decide (n.rd (F.stCfg_ustep m) ≠ d.rd (F.stCfg_ustep m)) || decide (n.rd (F.stCfg_dir m) ≠ d.rd (F.stCfg_dir m))) &&
      decide ((d.axis m).st ≠ 0))

/-- What the page's chapter refuses of a commit that would put the values of `n` in force. -/
def Dev.chapterRefuses (d n : Dev) (page : Nat) : Bool :=
  match kindAt page with
  | none => false
  | some (k, i) =>
    match k with
    | .ingStr => d.strRefused n i
    | .ingSes => d.sesRefused n i
    | .bpmPool => d.poolRefused n i
    | .bpmOwn => d.ownRefused n i
    | .seqMc => (List.range 8).any (d.windowRefused n)
    | .sflDie => d.dieRefused n i
    | .sflGc => !(decide (1 ≤ n.rd F.sflGcCfg_reserve) && decide (n.rd F.sflGcCfg_reserve < n.rd F.sflGcCfg_urgent) &&
        decide (n.rd F.sflGcCfg_urgent < n.rd F.sflGcCfg_start))
    | .sflVol => d.volRefused n i
    | .parReg => !n.setOn (n.rd F.parRegCfg)
    | .parSet => d.setRefused n i
    | .parSj => !(List.range 8).any (fun s => n.setOn s && (n.setMembers s).contains (n.rd F.parSjCfg_jch))
    | .parDisc => d.stageRefused n
    | .odrReg => d.catRefused n
    | .odrLdr => decide (n.rd F.ldrCfg_slots ≤ n.rd F.ldrCfg_ioSlot) || d.flag F.ldrBay_valid
    | .odrRc => d.rcRefused n i
    | .odrWr => n.wrRefused i
    | .srvDrv => d.srvRefused n i
    | .srvLoop => n.loopRefused page
    | .motSp => d.spRefused n i
    | .motSt => d.stRefused n i
    | .motLdr => d.changes n page && decide (d.rd F.ldrStat ≠ 0)
    | _ => false

/-- Fradra with the shadows of the pages in force. -/
def Dev.asStaged (d : Dev) (pages : List Nat) : Dev :=
  { d with force := pages.foldl (fun f p => Map.replaceWindow f d.shadow p (4096 + p)) d.force }

def Dev.refuses (d : Dev) (pages : List Nat) (page : Nat) : Bool :=
  let n := d.asStaged pages
  n.outOfRange page || d.chapterRefuses n page

/-! ## Staging (R42–R44, R48) -/

def Dev.commitState (d : Dev) (page v : Nat) : Dev := d.onPlat fun p => { p with commitSt := Map.set 0 p.commitSt page v }
def Dev.groupState (d : Dev) (g v : Nat) : Dev := d.onPlat fun p => { p with groupSt := Map.set 0 p.groupSt g v }
def Dev.pendingPage (d : Dev) (page : Nat) : Bool := decide (Map.get 0 d.plat.commitSt page = 1)

/-- The first boundary a key write at `ns` can apply at, and the boundary for its target (R43). -/
def Dev.applyTick (d : Dev) (ns target : Nat) : Nat :=
  let first := d.now + (if inGuard ns then 2 else 1)
  if target = 0 then first else max first (d.fullTick target)

/-- A bond commit changes a field of ING_STR_BOND; a reshape changes members or parity of an enabled set (R49, R66, R239). -/
def Dev.isMbb (d n : Dev) (page : Nat) : Bool :=
  match kindAt page with
  | some (.ingStr, s) => decide (n.bond s ≠ d.bond s)
  | some (.parSet, s) => d.setOn s && n.setOn s && (decide (n.rd (F.parSetMem s) ≠ d.rd (F.parSetMem s)) || (n.setQ s != d.setQ s))
  | _ => false

def Dev.addStaged (d : Dev) (s : Staged) : Dev := d.onPlat fun p => { p with staged := p.staged ++ [s] }

/-- What building starts: lanes of the new bond leave OFF; the new layout is built as the target set (R64, R239). -/
def Dev.buildStart (d n : Dev) (page : Nat) : Dev :=
  match kindAt page with
  | some (.ingStr, s) => d.when (d.streamOn s) fun d => (bondAll (n.bond s)).foldl (fun (d : Dev) l => d.laneJoin l) d
  | some (.parSet, s) => d.reshapeStart s (n.rd (F.parSetCfg_target s)) (n.rd (F.parSetMem s)) (b2n (n.setQ s))
  | _ => d

/-- A page's shadows are copied into a staged set and it reads PENDING. The other fields of a reshape's commit apply at the next
boundary (R239). -/
def Dev.stagePage (d : Dev) (group target ns : Nat) (pages : List Nat) (page : Nat) : Dev :=
  let n := d.asStaged pages
  let vals := Map.window n.force page (4096 + page)
  let full := if target = 0 then 0 else d.fullTick target
  let s : Staged := ⟨page, group, full, d.applyTick ns target, d.now, vals, .single⟩
  let d := d.commitState page 1
  if d.isMbb n page then
    let d := (d.addStaged { s with mbb := .build none }).buildStart n page
    match kindAt page with
    | some (.parSet, x) =>
      let keep := ((n.wr (F.parSetMem x) (d.rd (F.parSetMem x))).wr (F.parSetCfg_q x) (b2n (d.setQ x)))
      d.addStaged { s with group := 0, target := 0, applyAt := d.applyTick ns 0, vals := Map.window keep.force page (4096 + page) }
    | _ => d
  else d.addStaged s

/-- A commit is refused: nothing is staged, the page reads IDLE and PG_ERR.COMMIT is set (R44). -/
def Dev.commitRefused (d : Dev) (page : Nat) : Dev := (d.commitState page 0).raise page 30

/-- 0xC0 written to PG_COMMIT at `ns` (R42–R45, R47). -/
def Dev.commitKey (d : Dev) (page ns : Nat) : Dev :=
  let target := (d.raw (page + 0x24)).toNat
  if (kindAt page).isNone ∨ (d.raw (page + 0x28)).toNat ≠ 0 ∨ d.pendingPage page then d.countIgnored page (page + 0x20)
  else if (target ≠ 0 ∧ !d.futureTick target) ∨ d.refuses [page] page then (d.commitRefused page).countIgnored page (page + 0x20)
  else d.stagePage 0 target ns [page] page

/-- A group commit: every member is staged for one boundary, or every one is refused (R48). -/
def Dev.groupKey (d : Dev) (g ns : Nat) : Dev :=
  let pages := d.groupPages g
  let target := d.rd F.pltGrpTick
  if g = 0 ∨ pages.isEmpty ∨ Map.get 0 d.plat.groupSt g = 1 then d.countIgnored Pg.pltGrp F.pltGrpCommit_key.addr
  else if (target ≠ 0 ∧ !d.futureTick target) ∨ pages.any (d.refuses pages) then
    ((pages.foldl (fun (d : Dev) p => d.commitRefused p) d).groupState g 0).countIgnored Pg.pltGrp F.pltGrpCommit_key.addr
  else (pages.foldl (fun (d : Dev) p => d.stagePage g target ns pages p) d).groupState g 1

/-! ## Boundaries (R43, R48, R50) -/

/-- The staged sets that switch together with one: its group, or itself. -/
def Dev.together (d : Dev) (s : Staged) : List Staged :=
  if s.group = 0 then [s] else d.plat.staged.filter (fun x => x.group == s.group)

/-- The boundary at which a staged set applies, once every build it waits for has ended. -/
def Dev.dueAt (d : Dev) (s : Staged) : Option Nat :=
  (d.together s).foldl (fun (b : Option Nat) x => match b, x.mbb with
    | some b, .build (some (t, ns)) => some (max (max b x.applyAt) (t + if inGuard ns then 2 else 1))
    | _, .build none => none
    | some b, _ => some (max b x.applyAt)
    | none, _ => none) (some 0)

/-- Staged sets leave without effect; what was built for them is discarded (R46, R50, R243). -/
def Dev.unstage (d : Dev) (ss : List Staged) : Dev :=
  let d := d.onPlat fun p => { p with staged := p.staged.filter (fun x => !ss.any (fun s => s.page == x.page)) }
  ss.foldl (fun (d : Dev) s =>
    let d := d.commitState s.page 0
    match kindAt s.page, s.mbb with
    | some (.ingStr, i), .build _ =>
      let new := (Map.get (resetVal (s.page + 0x100)) s.vals (s.page + 0x100)).toNat
      ((bondAll new).filter (fun l => !(bondAll (d.bond i)).contains l && !(d.lanesOfOthers i).contains l)).foldl
        (fun (d : Dev) l => d.laneLeave l) d
    | some (.parSet, i), .build _ => d.reshapeAbandon i
    | _, _ => d) d

/-- 0x3C written to PG_COMMIT at `ns` (R46, R47, R50). -/
def Dev.cancelKey (d : Dev) (page ns : Nat) : Dev :=
  let ss := d.plat.staged.filter (fun s => s.page == page)
  let late (s : Staged) : Bool := match d.dueAt s with
    | some b => decide (b < d.now + (if inGuard ns then 2 else 1))
    | none => false
  if (d.raw (page + 0x28)).toNat ≠ 0 ∨ ss.isEmpty ∨ ss.any (fun s => isSwitched s.mbb || late s) then d.countIgnored page (page + 0x20)
  else d.unstage ss

/-- 0x3C written to PLT_GRP_COMMIT: every member is cancelled, or none (R46). -/
def Dev.groupCancel (d : Dev) (g ns : Nat) : Dev :=
  let ss := d.plat.staged.filter (fun s => s.group == g)
  let late (s : Staged) : Bool := match d.dueAt s with
    | some b => decide (b < d.now + (if inGuard ns then 2 else 1))
    | none => false
  if g = 0 ∨ ss.isEmpty ∨ Map.get 0 d.plat.groupSt g ≠ 1 ∨ ss.any (fun s => isSwitched s.mbb || late s) then
    d.countIgnored Pg.pltGrp F.pltGrpCommit_key.addr
  else (d.unstage ss).groupState g 0

/-! ## Taking effect -/

/-- A re-bond serves from the switch boundary: next epoch, the old bond still accepted, paths as the new groups stand (R66, R71). -/
def Dev.rebond (d : Dev) (s old : Nat) : Dev :=
  let e := (d.stream s).epoch
  let on := d.streamOn s
  let d := d.onStream s fun st => { st with epoch := (e + 1) % 16, oldBond := if on then some (old, e) else none }
  if !on then d
  else [0, 1].foldl (fun (d : Dev) p =>
    if !(bondPaths (d.bond s)).contains p ∨ !d.groupUp (d.bond s) p then
      (if (d.path s p).st = .down then d else d.setPathSt s p .down)
    else if (d.path s p).st = .down then d.pathUp s p
    else d.sendCredit s p) d

/-- What a page's new values in force set going; `o` is Fradra before them. -/
def Dev.applied (d o : Dev) (page : Nat) : Dev :=
  match kindAt page with
  | some (.ingStr, s) =>
    let d := if d.bond s ≠ o.bond s then d.rebond s (o.bond s) else d
    (d.ringFrames s).foldl (fun (d : Dev) f => d.fallsOut s f.pn) d
  | some (.bpmPool, p) => d.poolLevels p false
  | some (.seqMc, _) => (List.range 8).foldl (fun (d : Dev) w =>
      if o.flag (F.seqMcWinCfg_en w) && !d.flag (F.seqMcWinCfg_en w) then d.drainWindow w (o.rd (F.seqMcWinBase w)) (o.rd (F.seqMcWinLimit w))
      else d) d
  | some (.parSet, s) =>
    (if d.setOn s && !o.setOn s then (d.wr (F.parSetStat_state s) 1).tablesGrant
     else if o.setOn s && !d.setOn s then (d.wr (F.parSetStat_state s) 0).tableFree s else d).parRootWrite
  | some (.odrWr, n) => d.when (decide (Map.window d.force (page + 0x200) (page + 0x600) ≠ Map.window o.force (page + 0x200) (page + 0x600))) (·.tablesDue n)
  | some (.srvLoop, i) => d.when (o.flag (F.srvLoopCtrl_en i) && !d.flag (F.srvLoopCtrl_en i)) (·.loopOff (i / 32) (i % 32))
  | _ => d

/-- The sets of one group, or one set alone, take effect at the boundary of `tick` (R42, R48, R50, R129). -/
def Dev.switch (d : Dev) (ss : List Staged) (tick : Nat) : Dev :=
  let shape (s : Staged) : Bool := match kindAt s.page, s.mbb with
    | some (.parSet, _), .build _ => true
    | _, _ => false
  let n : Dev := { d with force := ss.foldl (fun f s => if shape s then f else Map.replaceWindow f s.vals s.page (4096 + s.page)) d.force }
  let short := ss.filter (fun s => match kindAt s.page with
    | some (.bpmPool, p) => d.poolShort n p
    | some (.bpmOwn, o) => d.poolShort n (n.ownerPool o)
    | _ => false)
  let g : Nat := ((ss.head?).map (·.group)).getD 0
  if !short.isEmpty then
    (short.foldl (fun (d : Dev) s => d.raise s.page 30) (d.unstage ss)).when (decide (g ≠ 0)) (·.groupState g 0)
  else
    let mbb := ss.any (fun s => isBuild s.mbb)
    let left := if mbb then n.plat.staged.map (fun (x : Staged) =>
        if ss.contains x then { x with mbb := (if isBuild x.mbb then .teardown tick else .switched tick) } else x)
      else n.plat.staged.filter (fun x => !ss.contains x)
    let d' := n.onPlat fun p => { p with staged := left }
    let d' := ss.foldl (fun (e : Dev) s => (match kindAt s.page with
      | some (.parSet, i) => if shape s then e.reshapeSwitch i else e.applied d s.page
      | _ => e.applied d s.page).when (decide (s.target ≠ 0) && decide (s.target < tick)) (·.raise s.page 30)) d'
    if mbb then d'
    else
      let d' := ss.foldl (fun (e : Dev) s => if e.plat.staged.any (fun x => x.page == s.page) then e else e.commitState s.page 2) d'
      if g = 0 then d' else (d'.groupState g 2).chipEvent 15

/-- Everything due at the boundary of `tick` takes effect. -/
def Dev.commitsDue (d : Dev) (tick : Nat) (which : Staged → Bool) : Dev :=
  d.plat.staged.foldl (fun (d : Dev) s =>
    if d.plat.staged.contains s && !isSwitched s.mbb && which s && (match d.dueAt s with
      | some b => decide (b ≤ tick)
      | none => false) then d.switch (d.together s) tick else d) d

/-! ## Make-before-break (R50, R66, R240–R242) -/

/-- The new configuration of a page is built. -/
def Dev.built (d : Dev) (page : Nat) : Bool :=
  match kindAt page with
  | some (.ingStr, s) => !d.streamOn s || (match d.buildingBond s with
    | some b => (bondAll b).all (fun l => decide ((d.lane l).st = .up))
    | none => false)
  | some (.parSet, s) => (Map.find d.par.shapes s).isSome && d.reshapeBuilt s
  | _ => true

/-- MBB_BUILD_COMPLETE at `ns`. -/
def Dev.buildComplete (d : Dev) (page ns : Nat) : Dev :=
  if !d.built page then d
  else d.onPlat fun p => { p with staged := p.staged.map (fun (s : Staged) =>
    if s.page = page ∧ s.mbb = .build none then { s with mbb := .build (some (d.now, ns)) } else s) }

/-- A build of a page fails: it and its group are discarded, with PG_ERR.COMMIT on the page concerned. -/
def Dev.buildFails (d : Dev) (page : Nat) (concerned : Nat := page) : Dev :=
  match d.plat.staged.find? (fun s => s.page == page && isBuild s.mbb) with
  | none => d
  | some s =>
    let d := (d.unstage (d.together s)).raise concerned 30
    d.when (decide (s.group ≠ 0)) (·.groupState s.group 0)

/-- The old bond is released: its lanes that serve no bond go OFF. -/
def Dev.oldBondGoes (d : Dev) (s : Nat) : Dev :=
  match (d.stream s).oldBond with
  | none => d
  | some o =>
    let d := d.onStream s fun st => { st with oldBond := none }
    ((bondAll o.1).filter (fun l => !(bondAll (d.bond s)).contains l && !(d.lanesOfOthers s).contains l)).foldl
      (fun (d : Dev) l => d.laneLeave l) d

/-- The old configuration of a switched set can be released: 4 ticks after the switch of a re-bond, and when a reshape has moved
every row. -/
def Dev.mayRelease (d : Dev) (s : Staged) (tick : Nat) : Bool :=
  match s.mbb, kindAt s.page with
  | .teardown t, some (.ingStr, i) => (d.stream i).oldBond.isNone || decide (t + 4 ≤ tick)
  | .teardown _, some (.parSet, i) => (Map.find d.par.shapes i).isNone || d.reshapeEmpty i
  | .teardown _, _ | .switched _, _ => true
  | _, _ => false

/-- The old configurations are released, and the page or group reads DONE. -/
def Dev.teardownDone (d : Dev) (page tick : Nat) : Dev :=
  match d.plat.staged.find? (fun s => s.page == page && isTeardown s.mbb) with
  | none => d
  | some s =>
    let ss := d.together s
    if !ss.all (fun x => d.mayRelease x tick) then d
    else
      let d := d.onPlat fun p => { p with staged := p.staged.filter (fun x => !ss.contains x) }
      let d := ss.foldl (fun (d : Dev) x =>
        let d := d.commitState x.page 2
        match kindAt x.page with
        | some (.ingStr, i) => d.oldBondGoes i
        | some (.parSet, i) => match Map.find d.par.shapes i with
          | some t => (d.reshapeEnd i).commitState (Pg.parSet t) 2
          | none => d
        | _ => d) d
      if s.group = 0 then d else (d.groupState s.group 2).chipEvent 15

/-- The page whose trouble ends a build: a fenced member of its group, or the page itself when its reshape was abandoned or passed
its bound (R240), or a re-bond was not built within 4,000 ticks (R49, R50; log entry 73). -/
def Dev.buildLost (d : Dev) (s : Staged) : Option Nat :=
  match (d.together s).find? (fun x => decide (d.unitAt x.page = .fenced) || d.regionFenced (regionOf x.page)) with
  | some x => some x.page
  | none =>
    let own : Bool := match kindAt s.page with
      | some (.parSet, i) => (Map.find d.par.shapes i).isNone ||
        (decide (s.mbb = .build none) && (d.reshapeBound i).any (fun b => decide (b < d.since s.since)))
      | some (.ingStr, _) => decide (s.mbb = .build none) && decide (4000 < d.since s.since)
      | _ => false
    if own then some s.page else none

/-- At a boundary: builds that cannot go on fail, and old configurations whose time has come go. -/
def Dev.mbbTick (d : Dev) (tick : Nat) : Dev :=
  let d := (d.plat.staged.filter (fun s => isBuild s.mbb)).foldl (fun (d : Dev) s => match d.buildLost s with
    | some p => d.buildFails s.page p
    | none => d) d
  (d.plat.staged.filter (fun s => isTeardown s.mbb)).foldl (fun (d : Dev) s => d.teardownDone s.page tick) d

/-! ## Meanings -/

/-- PG_COMMIT_KEY (R42): 0xC0 at `ns` after the boundary. -/
def execPgCommitKey (page ns : Nat) (s : State) : Host.Outcome State Fault Refusal :=
  run s fun d => d.asWrite (pageOf page) (·.commitKey (pageOf page) ns)

/-- PG_COMMIT_CANCEL (R46): 0x3C at `ns` after the boundary. -/
def execPgCommitCancel (page ns : Nat) (s : State) : Host.Outcome State Fault Refusal :=
  run s fun d => d.asWrite (pageOf page) (·.cancelKey (pageOf page) ns)

/-- GROUP_COMMIT (R48). -/
def execGroupCommit (group ns : Nat) (s : State) : Host.Outcome State Fault Refusal :=
  run s fun d => d.asWrite Pg.pltGrp (·.groupKey (group % 64) ns)

/-- GROUP_CANCEL (R46). -/
def execGroupCancel (group ns : Nat) (s : State) : Host.Outcome State Fault Refusal :=
  run s fun d => d.asWrite Pg.pltGrp (·.groupCancel (group % 64) ns)

/-- COMMIT_APPLY (R42): the page's staged set, with its group, applies at the boundary that comes, if it is due there. -/
def execCommitApply (page : Nat) (s : State) : Host.Outcome State Fault Refusal :=
  run s fun d => d.commitsDue (d.now + 1) (fun x => x.page == pageOf page)

/-- MBB_BUILD_COMPLETE (R50). -/
def execMbbBuildComplete (page ns : Nat) (s : State) : Host.Outcome State Fault Refusal := run s (·.buildComplete (pageOf page) ns)

/-- MBB_SWITCH (R50): the built configuration serves from the boundary that comes, if it is due there. -/
def execMbbSwitch (page : Nat) (s : State) : Host.Outcome State Fault Refusal :=
  run s fun d => d.commitsDue (d.now + 1) (fun x => x.page == pageOf page && isBuild x.mbb)

/-- MBB_BUILD_FAIL (R50). -/
def execMbbBuildFail (page : Nat) (s : State) : Host.Outcome State Fault Refusal := run s (·.buildFails (pageOf page))

/-- MBB_TEARDOWN_DONE (R50). -/
def execMbbTeardownDone (page : Nat) (s : State) : Host.Outcome State Fault Refusal := run s fun d => d.teardownDone (pageOf page) d.now

end Sys2Proof.Machine
end

