-- ==== Sys2Proof/Machine/Safe.lean ====
section
/-! DEFINITION. The chip safe state (R492–R494) and the fences that lead to it: their confirms, timeouts and what is revoked
(R29, R30, R107, R108, R137, R331, R395, R470, R495). -/
namespace Sys2Proof.Machine
open Sys2Proof

/-! ## The chip safe state (R492, R493) -/

/-- The chip safe state is entered for `cause`, with the region of a fence timeout (15: none). A further cause is only logged. What
the state does in its next tick is TICK_BOUNDARY's. -/
def Dev.safeState (d : Dev) (cause region : Nat) : Dev :=
  if d.plat.safe then d.logChip (d.logRec 1 Pg.pltReg Er.pltReg_safeState 3 3 cause 0)
  else
    let d := d.onPlat fun p => { p with safe := true, safeAt := d.now }
    let d := ((d.wr F.pltStat_safe 1).wr F.pltSafeCause_cause cause).wr F.pltSafeCause_region region
    let d := (d.raiseAtLeast Pg.pltReg Er.pltReg_safeState 3 cause).holdAbortAll
    let d := if d.plat.tp.isSome then d
      else (d.onPlat fun p => { p with tp := some d.now }).onSfl fun s => { s with frozen := true, reads := [] }
    d.wr F.sflStat 3

/-- The tick after the cause: spindles make a controlled stop, axes stop. -/
def Dev.safeStops (d : Dev) : Dev :=
  let d := (List.range 4).foldl (fun (d : Dev) n => (d.stopSpin n).retractPark n) d
  (List.range 8).foldl (fun (d : Dev) m => d.axisStop m) d

/-! ## What a fence revokes (R29, R137) -/

/-- What is queued or awaits its verdict at a drive's recorder is dropped: its units stay FLASH, and their MIGRATE reports them as not
migrated (R331). -/
def Dev.dropRecorder (d : Dev) (n : Nat) : Dev :=
  let q := d.rec_ n
  let rows := q.queue ++ q.excess ++ q.verify.map (·.1)
  let d := rows.foldl (fun (d : Dev) r => match r.first with
    | .migrate a us => d.onCmd a fun m => { m with found := m.found ++ us.map (·.1) }
    | _ => d) d
  (d.onRecorder n fun q => { q with verify := [], queue := [], excess := [], recheck := true }).showQueue n

/-- Commands that need the disc of a fenced drive, or discs that a fenced loader cannot bring, complete with UNIT_FENCED (R495). -/
def Dev.fencedDiscs (d : Dev) : Dev :=
  let verifies (d : Dev) (c i : Nat) : List Nat :=
    (d.odr.wants.filter (fun w => w.cat == c && w.disc == i)).filterMap (fun w => match w.why with
      | .verify a => some a
      | _ => none)
  let d := (List.range 4).foldl (fun (d : Dev) n =>
    if d.unitAt (Pg.odrDrv n) = .fenced ∧ d.drvState n ≠ 0 then
      let c := d.rd (F.drvShell n)
      let i := d.rd (F.drvStat_disc n)
      let d := (verifies d c i).foldl (fun (d : Dev) a => d.cmdEnds a 0x60 0 0 0) d
      (d.dropWants c i 0x60).dropRecs c i
    else d) d
  if d.loaderFenced then
    (d.needed.filter (fun x => (d.discOn x.1 x.2).isNone)).foldl (fun (d : Dev) x => (d.dropWants x.1 x.2 0x60).dropRecs x.1 x.2) d
  else d

/-- A drive's fence is confirmed: what it recorded stops, its gates are low and its disc coasts (R331, R395). -/
def Dev.driveFenced (d : Dev) (n : Nat) : Dev :=
  let d := (d.recAbort n).dropRecorder n
  let d := if (d.spin n).st = 9 then d else d.spinKill n
  (d.axisKill n).fencedDiscs

/-- A core's fence is confirmed: its commands in progress complete with UNIT_FENCED; their buffers, which owner 63 holds now, are
freed, and what was revoked takes no host store (R470). -/
def Dev.coreGone (d : Dev) (c : Nat) : Dev :=
  let held := (d.bpm.ents.filter (fun e => e.2.owner == 40 + c)).map (·.1)
  let d := d.wr F.seqCoreStat_fenced (setBit (d.rd F.seqCoreStat_fenced) c true)
  let d := d.revokeOwner (40 + c)
  let d := held.foldl (fun (d : Dev) i => d.setBufEnt i { d.bufEnt i with hostw := false }) d
  let dead := d.hat.cmds.filter (fun x => x.started && x.core == c)
  dead.foldl (fun (d : Dev) x =>
    let d := d.cmdEnds x.arrival 0x60 0 0 0
    let d := match d.cmdAt x.arrival with
      | some y => d.cmdComplete y
      | none => d
    (d.hat.xfers.filter (fun y => y.arrival == x.arrival)).foldl (fun (d : Dev) y => d.dropXfer y) d) d

/-- A LUN's fence is confirmed: it is LOST (R216), with all LUNs of its channel when it was the last. -/
def Dev.lunGone (d : Dev) (k : Nat) : Dev :=
  let d := d.onSfl fun s => { s with fencedLuns := uniq (s.fencedLuns ++ [k]) }
  let ch := k / 64
  if (d.channelLuns ch).all d.sfl.fencedLuns.contains then d.lunsLost ch 0xFF 0xFF 1 (d.channelLuns ch)
  else d.lunsLost ch (k / 8 % 8) (k % 8) 1 [k]

/-- A cell's fence is confirmed: its status shows it, and what it held is revoked. When no core is left the SEQ region is fenced
(R470). -/
def Dev.cellGone (d : Dev) (c : Cell) (err : Option (Nat × Nat)) : Dev :=
  let bit (f : RegField) (i : Nat) : Dev := d.wr f (d.rd f ||| 2 ^ i)
  match c with
  | .core i =>
    let d := (d.setUnit (corePage i) .fenced).coreGone i
    if d.rd F.seqCoreStat_fenced = 255 then d.fence1 Pg.seqReg err else d
  | .codec i => bit F.ingProcFenced_codec i
  | .sha i => bit F.ingProcFenced_sha i
  | .stripe i => bit F.parEngFenced i
  | .ldpc i => (bit F.ldpcFenced i).decoderFrees i
  | .lun k => d.lunGone k

/-- What a fenced unit held is revoked. -/
def Dev.revokeWork (d : Dev) (u : Nat) : Dev :=
  let d := (d.ownersOf u).foldl (fun (d : Dev) o => d.revokeOwner o) d
  match kindAt u with
  | some (.odrDrv, n) => d.driveFenced n
  | some (.sflFc, ch) => d.channelLost ch 1
  | some (.odrLdr, _) => d.ldrAbandon
  | _ => d

/-- A unit shows FENCED, and only then what it held is revoked. -/
def Dev.unitFenced (d : Dev) (u : Nat) (err : Option (Nat × Nat)) : Dev := match cellAt u with
  | some c => d.cellGone c err
  | none => (d.setUnit u .fenced).revokeWork u

/-- A fence is confirmed (R29): the unit shows FENCED, then its holdings are revoked; with it the units it contains that are fenced with
it. -/
def Dev.fenceConfirmed (d : Dev) (f : Fence) : Dev :=
  let d := (d.onPlat fun p => { p with fences := p.fences.erase f }).unitFenced f.unit f.err
  let d := f.within.foldl (fun (d : Dev) u =>
    (d.when (isMaster u) (·.onPlat fun p => { p with absent := uniq (u :: p.absent) })).unitFenced u f.err) d
  d.hatPump

/-- A fence is not confirmed within 4 ticks (R30): the unit that contains it is fenced with it, a cell's block by its region and a block's
region by the chip; a region's fence leads to the chip safe state. The error is reported at the level that now fences, or above. -/
def Dev.fenceLate (d : Dev) (f : Fence) : Dev :=
  if d.since f.tick < 4 then d
  else
    let again (d : Dev) (level : Nat) : Dev := match f.err with
      | some (p, b) => d.raiseAtLeast p b level
      | none => d
    let (b, r) := containing f.unit
    let outer := if b = f.unit then r else b
    if f.unit = r then
      let d := (again d 3).safeState 1 (regionOf r)
      (d.onPlat fun p => { p with fences := p.fences.map (fun (g : Fence) => if g = f then { g with tick := d.now } else g) }).hatPump
    else
      let d := d.onPlat fun p => { p with fences := p.fences.erase f }
      let d := (again d (if outer = r then 2 else 1)).fence1 outer f.err
      d.onPlat fun p => { p with fences := p.fences.map (fun (g : Fence) =>
        if g.unit = outer then { g with within := g.within ++ (f.unit :: f.within).filter (fun u => !g.within.contains u) } else g) }

/-! ## Meanings -/

/-- The unit that an operand names: a page, or the page that stands for a cell. -/
def fenceUnit (unit : Nat) : Nat := if 2 ^ 32 ≤ unit then unit - unit % 4096 else masterOf unit

/-- FENCE_CONFIRM (R29). -/
def execFenceConfirm (unit : Nat) (s : State) : Host.Outcome State Fault Refusal :=
  run s fun d => match d.plat.fences.find? (fun f => f.unit == fenceUnit unit) with
    | some f => d.fenceConfirmed f
    | none => d

/-- FENCE_TIMEOUT (R30). -/
def execFenceTimeout (unit : Nat) (s : State) : Host.Outcome State Fault Refusal :=
  run s fun d => match d.plat.fences.find? (fun f => f.unit == fenceUnit unit) with
    | some f => d.fenceLate f
    | none => d

end Sys2Proof.Machine
end

