-- ==== Sys2Proof/Machine/Units.lean ====
section
/-! DEFINITION. The unit states and what each of their events does to a lane group, a flash channel, a drive, a stack or a loader
axis (R51–R53, R61, R64, R82, R107–R109, R163, R280, R395, R435, R496). -/
namespace Sys2Proof.Machine
open Sys2Proof

/-! ## Units (R51) -/

/-- The unit may be quiesced and isolated: it is replaceable (R108). -/
def replaceable (page : Nat) : Bool := isMaster page

/-- The lanes of a drive's head link, numbered after the frame lanes: 4 of version 2 or 2 of version 1 (R280). -/
def Dev.headLanes (d : Dev) (n : Nat) : List Nat := (List.range (if d.ad8 n then 2 else 4)).map (64 + 4 * n + ·)

/-- The head link of a drive starts, or goes idle. -/
def Dev.headStart (d : Dev) (n : Nat) : Dev := (d.headLanes n).foldl (fun (d : Dev) l => d.laneJoin l) d
def Dev.headStop (d : Dev) (n : Nat) : Dev := [0, 1, 2, 3].foldl (fun (d : Dev) i => d.laneLeave (64 + 4 * n + i)) d

/-- What a unit that reads ACTIVE sets going: the owners fenced with it return (R137); a drive's disc is dealt with as R496 gives, its sled
is taken up. -/
def Dev.activeWork (d : Dev) (page : Nat) : Dev :=
  let d := (d.ownersOf page).foldl (fun (d : Dev) o => d.ownerReturns o) d
  match kindAt page with
  | some (.odrDrv, n) => (d.onAxis n fun x => { x with park := false }).discReturns n
  | some (.ingStr, s) => d.creditsPaid s
  | _ => d

/-- A unit reads ACTIVE; a stack back from ISOLATED grants from the next boundary on (R109). -/
def Dev.unitActive (d : Dev) (page : Nat) : Dev :=
  let d := match kindAt page with
    | some (.cstStk, n) => d.when (Map.find d.bpm.back n == some none) (·.onBpm fun b => { b with back := Map.put b.back n (some d.now) })
    | _ => d
  (d.setUnit page .active).activeWork page

/-- A drive leaves FENCED or ISOLATED: FAULT ends (R404); after ISOLATED its calibrations are due (R435). -/
def Dev.driveLeaves (d : Dev) (n : Nat) (was : UnitSt) : Dev :=
  (d.spinUnfault n).when (decide (was = .isolated)) (·.calRequired n)

/-! ## Events (R52)

DESIGN CHOICE: an event written while a fence of the unit or of its region has begun and is not confirmed, of which the spec says nothing,
is ignored and counted (log entry 77). -/

/-- A write that R52 does not list for the state is ignored and counted. -/
def Dev.unitIgnored (d : Dev) (page : Nat) : Dev := d.countIgnored page (page + 8)

/-- ENABLE ← 1. -/
def Dev.unitOn (d : Dev) (page : Nat) : Dev :=
  if d.unitAt page ≠ .off ∨ !d.answers page ∨ d.closed page then d.unitIgnored page
  else match kindAt page with
    | some (.ingStr, s) => if d.streamMayEnable s then (d.setUnit page .active).streamStart s |>.unitActive page else d.unitIgnored page
    | some (.sflFc, ch) => (d.unitActive page).wr (F.sflFcStat_train ch) 1
    | some (.odrDrv, n) => (d.headStart n).unitActive page
    | some (.cstStk, n) => (d.unitActive page).wr (F.cstStkTrain n) 1
    | _ => d.unitActive page

/-- A group that leaves FENCED closes its open frames, with CAUSE STOPPED (R85); its lanes go OFF. -/
def Dev.groupOff (d : Dev) (s : Nat) (was : UnitSt) : Dev :=
  let d := d.when (decide (was = .fenced)) (·.closeStopped s)
  d.streamStop s

/-- What a unit that goes OFF stops. -/
def Dev.offWork (d : Dev) (page : Nat) (was : UnitSt) : Dev :=
  match kindAt page with
  | some (.ingStr, s) => d.groupOff s was
  | some (.sflFc, ch) => d.wr (F.sflFcStat_train ch) 0
  | some (.odrDrv, n) => (d.headStop n).driveLeaves n was
  | some (.cstStk, n) => d.wr (F.cstStkTrain n) 0
  | _ => d

/-- ENABLE ← 0. -/
def Dev.unitOff (d : Dev) (page : Nat) : Dev :=
  let was := d.unitAt page
  if !(was = .quiesced ∨ was = .isolated ∨ was = .fenced) ∨ !replaceable page ∨ d.fencing page then d.unitIgnored page
  else (d.setUnit page .off).offWork page was

/-- What a unit that begins to quiesce sets going. -/
def Dev.quiesceWork (d : Dev) (page : Nat) : Dev :=
  match kindAt page with
  | some (.sflFc, ch) => d.closeUsing (d.channelLuns ch) true
  | some (.odrDrv, n) => if (d.spin n).st = 0 then d.retractPark n else d
  | _ => d

/-- QUIESCE ← 1: new work is routed elsewhere or held. -/
def Dev.unitQuiesce (d : Dev) (page : Nat) : Dev :=
  let short : Bool := match kindAt page with
    | some (.cstStk, n) => decide (d.pooledNow < d.sizeSum + (if d.stackCounts n then Config.pooled n else 0))
    | _ => false
  if d.unitAt page ≠ .active ∨ !replaceable page ∨ short ∨ d.closed page then d.unitIgnored page
  else ((d.setUnit page .quiescing).onPlat fun p => { p with quiesceAt := Map.put p.quiesceAt page d.now }).quiesceWork page

/-- QUIESCE ← 0: the unit accepts work again. -/
def Dev.unitResume (d : Dev) (page : Nat) : Dev :=
  if !(d.unitAt page = .quiescing ∨ d.unitAt page = .quiesced) ∨ !replaceable page ∨ d.closed page then d.unitIgnored page
  else d.unitActive page

/-- An HDM decoder maps a granule of the stack (R53). -/
def Dev.stackMapped (d : Dev) (n : Nat) : Bool :=
  (d.hat.decoders.filterMap id).any fun r => decide (r.1 < (n + 1) * 2 ^ 36) && decide (n * 2 ^ 36 < r.2)

/-- A disc is on the drive's spindle: from the end of the step of LOADING in which the gripper opens there (R420) until it has been unloaded. -/
def Dev.discOnSpindle (d : Dev) (n : Nat) : Bool :=
  decide (2 ≤ d.drvState n) || (decide (9 ≤ d.odr.loader.step) && (match d.odr.loader.cur with
    | some (.toDrive _ m) => m == n
    | _ => false))

/-- The ports of a unit that is isolated (R51). -/
def Dev.isolateWork (d : Dev) (page : Nat) (was : UnitSt) : Dev :=
  match kindAt page with
  | some (.ingStr, s) => d.groupOff s was
  | some (.sflFc, ch) => (d.wr (F.sflFcStat_train ch) 0).channelLost ch 2
  | some (.odrDrv, n) => d.headStop n
  | some (.cstStk, n) => d.wr (F.cstStkTrain n) 0
  | _ => d

/-- ISOLATE ← 1: the ports are set as R51 gives. -/
def Dev.unitIsolate (d : Dev) (page : Nat) : Dev :=
  let was := d.unitAt page
  let barred : Bool := match kindAt page with
    | some (.odrDrv, n) => d.discOnSpindle n
    | some (.cstStk, n) => d.stackMapped n
    | _ => false
  if !(was = .quiesced ∨ was = .fenced) ∨ barred ∨ !replaceable page ∨ d.fencing page then d.unitIgnored page
  else (d.setUnit page .isolated).isolateWork page was

/-- ISOLATE ← 0: the unit is identified, then trained or initialised. A channel and a stack read QUIESCED once trained. -/
def Dev.unitDeisolate (d : Dev) (page : Nat) : Dev :=
  if d.unitAt page ≠ .isolated ∨ !d.answers page ∨ !replaceable page ∨ d.fencing page then d.unitIgnored page
  else match kindAt page with
    | some (.ingStr, s) => (d.streamLanes s).foldl (fun (d : Dev) l => d.laneJoin l) (d.setUnit page .quiesced)
    | some (.sflFc, ch) => d.wr (F.sflFcStat_train ch) 1
    | some (.odrDrv, n) => ((d.setUnit page .quiesced).headStart n).driveLeaves n .isolated
    | some (.cstStk, n) => d.wr (F.cstStkTrain n) 1
    | _ => d.setUnit page .quiesced

/-! ## Quiesce (R51) -/

/-- The last work in progress of a unit has ended. -/
def Dev.unitIdle (d : Dev) (page : Nat) : Bool :=
  match kindAt page with
  | some (.ingStr, s) => (d.openFrames s).isEmpty
  | some (.sflFc, ch) => !d.sfl.progs.any (fun p => puaCh p.pua == ch) && !d.sfl.reads.any (fun r => puaCh r.pua == ch) &&
      !d.sfl.rows.any (fun e => decide (e.2.st = .erasing) && (d.positions e.1).contains ch)
  | some (.odrDrv, n) => (d.rec_ n).cur.isNone && (d.rec_ n).next.isNone && decide ((d.seq n).st = 0) && decide ((d.spin n).st = 0) &&
      decide ((d.axis n).st = 0) && ((d.axis n).park || d.axisOff n)
  | some (.cstStk, n) => !d.bpm.ents.any (fun e => e.2.alloc && decide (e.1 / 2 ^ 20 = n))
  | _ => true

/-- The ticks within which a unit must read QUIESCED; none for a stack. -/
def Dev.quiesceBound (d : Dev) (page : Nat) : Option Nat :=
  match kindAt page with
  | some (.ingStr, s) => some (d.rd (F.ingStrTime_timeout s) + 2)
  | some (.sflFc, _) => some 8000
  | some (.odrDrv, _) => some 1200000
  | _ => none

/-- A quiescing drive whose spindle stands parks its sled. -/
def Dev.parkTick (d : Dev) (n : Nat) : Dev :=
  if d.unitAt (Pg.odrDrv n) = .quiescing ∧ (d.seq n).st = 0 ∧ (d.spin n).st = 0 ∧ (d.axis n).st = 0 ∧ !(d.axis n).park ∧ !d.axisOff n then
    d.axisMove n 0 0 true
  else d

/-! ## PG_CTRL (R52) -/

/-- A write of ISOLATE, QUIESCE and ENABLE: an event where exactly one bit changes. A page without a unit holds the bits; a
dependent page takes no change (R51). -/
def Dev.ctrlWrite (d : Dev) (page v : Nat) : Dev :=
  let was := d.unitCtrl page
  let v := v % 8
  if v = was then d
  else if masterOf page ≠ page then d.unitIgnored page
  else if !hasUnit page then d.setRaw (page + 8) (w32 v)
  else if v ^^^ was = 1 then (if v.testBit 0 then d.unitOn page else d.unitOff page)
  else if v ^^^ was = 2 then (if v.testBit 1 then d.unitQuiesce page else d.unitResume page)
  else if v ^^^ was = 4 then (if v.testBit 2 then d.unitIsolate page else d.unitDeisolate page)
  else d.unitIgnored page

/-! ## Meanings: a command names the page written; the effect is that of the write at a page of that unit -/

/-- A write of one of the three bits, the other two as they read. -/
def Dev.asEvent (d : Dev) (page bit : Nat) (on : Bool) : Dev :=
  d.asWrite (pageOf page) fun d => d.ctrlWrite (pageOf page) (setBit (d.unitCtrl (pageOf page)) bit on)

/-- Whether the unit of a page answers from now on. -/
def Dev.present (d : Dev) (page : Nat) (yes : Bool) : Dev :=
  let m := masterOf (pageOf page)
  d.onPlat fun p => { p with absent := if yes then p.absent.filter (· != m) else uniq (m :: p.absent) }

/-- UNIT_ENABLE (R52). -/
def execUnitEnable (page : Nat) (present : Bool) (s : State) : Host.Outcome State Fault Refusal :=
  run s fun d => (((d.present page present).asEvent page 0 true).hatPump)

/-- UNIT_DISABLE (R52). -/
def execUnitDisable (page : Nat) (s : State) : Host.Outcome State Fault Refusal :=
  run s fun d => (d.asEvent page 0 false).hatPump

/-- UNIT_QUIESCE (R51, R52). -/
def execUnitQuiesce (page : Nat) (s : State) : Host.Outcome State Fault Refusal :=
  run s fun d => (d.asEvent page 1 true).hatPump

/-- UNIT_RESUME (R52). -/
def execUnitResume (page : Nat) (s : State) : Host.Outcome State Fault Refusal :=
  run s fun d => (d.asEvent page 1 false).hatPump

/-- UNIT_ISOLATE (R51–R53). -/
def execUnitIsolate (page : Nat) (s : State) : Host.Outcome State Fault Refusal :=
  run s fun d => (d.asEvent page 2 true).hatPump

/-- UNIT_DEISOLATE (R52). -/
def execUnitDeisolate (page : Nat) (present : Bool) (s : State) : Host.Outcome State Fault Refusal :=
  run s fun d => (((d.present page present).asEvent page 2 false).hatPump)

/-- QUIESCE_COMPLETE (R52): the last work in progress ends. -/
def execQuiesceComplete (page : Nat) (s : State) : Host.Outcome State Fault Refusal :=
  run s fun d =>
    let p := masterOf (pageOf page)
    if d.unitAt p = .quiescing ∧ d.unitIdle p ∧ !d.closed p then d.setUnit p .quiesced else d

/-- QUIESCE_TIMEOUT (R52): the bound of R51 has passed; the unit is fenced. -/
def execQuiesceTimeout (page : Nat) (s : State) : Host.Outcome State Fault Refusal :=
  run s fun d =>
    let p := masterOf (pageOf page)
    match d.quiesceBound p with
    | some b => if d.unitAt p = .quiescing ∧ b ≤ d.since (Map.get 0 d.plat.quiesceAt p) then d.fence p else d
    | none => d

/-- DRV_CTRL.JDM_COMPAT is written (R6, R54): a change waits for no disc on the spindle; the head link starts anew in its version. -/
def Dev.jdmWrite (d : Dev) (n : Nat) (on : Bool) : Dev :=
  if d.ad8 n = on then d
  else if d.discOnSpindle n then d.countIgnored (Pg.odrDrv n) (F.drvCtrl_jdmCompat n).addr
  else
    let d := d.wrB (F.drvCtrl_jdmCompat n) on
    if d.unitAt (Pg.odrDrv n) = .off ∨ d.unitAt (Pg.odrDrv n) = .isolated then d else (d.headStop n).headStart n

/-- JDM_COMPAT_WRITE (R6, R54). -/
def execJdmCompatWrite (drive : Nat) (on : Bool) (s : State) : Host.Outcome State Fault Refusal :=
  run s fun d => d.asWrite (Pg.odrDrv (drive % 4)) (·.jdmWrite (drive % 4) on)

end Sys2Proof.Machine
end

