-- ==== Sys2Proof/Machine/Access.lean ====
section
/-! DEFINITION. Accesses to BAR0: what a write does to each field of a register, the writes that are ignored and counted, the
registers whose write is an action, reads and what they clear or latch (R2, R3, R9, R17, R23, R26, R31, R36–R41, R45, R54, R56, R58,
R141, R185, R198, R428, R471, R484, R548). -/
namespace Sys2Proof.Machine
open Sys2Proof

/-! ## Where an access lies (R17, R36, R37) -/

/-- The page that an access is counted in: that of the addressed byte, the region page where its slot holds none, PLT_ARB above the
regions. -/
def countedAt (a : Nat) : Nat :=
  if 0xC00000 ≤ a then Pg.pltArb else if (kindAt a).isSome then pageOf a else regionOf a * 0x100000

def Dev.accessLost (d : Dev) (a : Nat) : Dev := d.countIgnored (countedAt a) a

/-- The bits of a register that its fields of some access types take. -/
def RegDef.mask (r : RegDef) (p : Access → Bool) : Nat := (r.fields.filter (fun f => p f.ty)).foldl (fun n f => n ||| fieldMask f) 0

def Access.takes : Access → Bool
  | .rw | .rs | .w1c | .wo => true
  | .ro | .rc => false

/-! ## Writes that are an action -/

/-- PLT_RST_CTRL (R56): the flash side's power-fail sequence, then the reset. -/
def Dev.resetWrite (d : Dev) (v : Nat) : Dev :=
  if d.plat.softReset.isSome ∨ bitsOf v 31 16 ≠ 0x5AFE then d.countIgnored Pg.pltRst (F.pltRstCtrl_chip).addr
  else if !v.testBit 0 then d
  else (d.onPlat fun p => { p with softReset := some ((d.now + 1) % 2 ^ 64) }).flashStop

/-- PLT_GRP_COMMIT (R46–R48). DESIGN CHOICE: any other KEY, for which the spec gives no effect, makes the write ignored and counted in
PLT_GRP (log entry 74). -/
def Dev.grpWrite (d : Dev) (v ns : Nat) : Dev :=
  if bitsOf v 15 8 = 0xC0 then d.groupKey (bitsOf v 5 0) ns
  else if bitsOf v 15 8 = 0x3C then d.groupCancel (bitsOf v 5 0) ns
  else d.countIgnored Pg.pltGrp F.pltGrpCommit_key.addr

/-- PG_COMMIT (R42, R45, R46). -/
def Dev.commitWrite (d : Dev) (page v ns : Nat) : Dev :=
  if bitsOf v 7 0 = 0xC0 then d.commitKey page ns
  else if bitsOf v 7 0 = 0x3C then d.cancelKey page ns
  else d.countIgnored page (page + 0x20)

/-- ING_SES_CTRL at `ns` (R89, R104). DESIGN CHOICE: a write with ACT 0 or 5–7 is counted and raises no SES_IGN (log entry 75). -/
def Dev.sesWrite (d : Dev) (n v ns : Nat) : Dev :=
  match bitsOf v 2 0 with
  | 1 => d.sesEvent n .arm
  | 2 => d.sesEvent n (.trigger 1 (ns / 10) d.timecode d.now)
  | 3 => d.sesEvent n .stop
  | 4 => d.sesEvent n .disarm
  | _ => d.countIgnored (Pg.ingSes n) (F.ingSesCtrl n).addr

/-- BPM_OP (R126, R141): the owner must act through BAR0. -/
def Dev.opWrite (d : Dev) (v : Nat) : Dev :=
  let o := bitsOf v 27 22
  let buf : BufRef := if v.testBit 15 then .addr (d.rd F.bpmOpAddrLo + 2 ^ 32 * d.rd F.bpmOpAddrHi) else .handle (d.rd F.bpmOpHandle)
  if d.rd (F.bpmOwnCfg_region o) ≠ 15 then d.countIgnored Pg.bpmReg (F.bpmOp_op).addr
  else match bitsOf v 31 28 with
    | 1 => let (h, d) := d.grant o 2; d.answerGrant o h
    | 2 => d.opResult o (d.bpmFree o buf)
    | 3 => d.opResult o (d.bpmRelease o buf)
    | 4 => d.opResult o (d.bpmShare o buf (d.rd F.bpmOpMaskLo + 2 ^ 32 * d.rd F.bpmOpMaskHi) (bitsOf v 21 16))
    | 5 => d.opResult o (d.bpmTransfer o buf (bitsOf v 21 16))
    | 6 => d.opResult o (d.bpmHostw o buf true)
    | 7 => d.opResult o (d.bpmHostw o buf false)
    | _ => d.countIgnored Pg.bpmReg (F.bpmOp_op).addr

/-- SFL_TIME (R185): only forward. -/
def Dev.timeWrite (d : Dev) (v : Nat) : Dev :=
  if v ≤ d.rd F.sflTime then d.countIgnored Pg.sflReg F.sflTime.addr else d.wr F.sflTime v

/-- SFL_JRN_CTRL (R198, R199). -/
def Dev.jrnWrite (d : Dev) (v : Nat) : Dev :=
  if bitsOf v 31 24 ≠ 0xF1 then d.countIgnored Pg.sflJrn (F.sflJrnCtrl_key).addr
  else
    let d := d.when (v.testBit 0 && d.flashRuns) (·.jflush)
    (d.when (v.testBit 1) (·.ckptStart)).pump

/-- DRV_CTRL (R6, R54): a change of JDM_COMPAT that R6 does not allow makes the whole write ignored. -/
def Dev.drvWrite (d : Dev) (n v : Nat) : Dev :=
  if d.ad8 n ≠ v.testBit 0 ∧ d.discOnSpindle n then d.countIgnored (Pg.odrDrv n) (F.drvCtrl_jdmCompat n).addr
  else (((d.wr (F.drvCtrl_hold n) (bitsOf v 2 2)).wr (F.drvCtrl_recEn n) (bitsOf v 1 1)).jdmWrite n (v.testBit 0))

/-- LDR_CTRL (R278). -/
def Dev.ldrWrite (d : Dev) (v : Nat) : Dev :=
  match bitsOf v 2 0 with
  | 1 => d.ldrAct ((List.range (d.rd F.ldrCfg_slots)).map .visit)
  | 2 => d.ldrAct [.home]
  | _ => d.countIgnored Pg.odrLdr (F.ldrCtrl).addr

/-- PLT_MRAM_PROF.NEXT: the boot record is updated (R484). -/
def Dev.nextWrite (d : Dev) (v : Nat) : Dev :=
  let n := bitsOf v 10 8
  (d.wr F.pltMramProf_next n).mramPut 2 fun m => { m with next := n }

/-- MSIX_CTRL[v]: a vector unmasked while its message pends sends it. -/
def Dev.maskWrite (d : Dev) (vec v : Nat) : Dev :=
  let d := d.wr (F.msixCtrl vec) (v % 2)
  let pba : RegField := ⟨0x103C00 + 4 * (vec / 32), vec % 32, vec % 32, false⟩
  if v.testBit 0 ∨ !d.flag pba then d else (d.wr pba 0).msix vec

/-! ## Error injection (R41) -/

/-- A fault put into the datapath: one with an event of its own happens at once; any other waits there for the access or
operation that meets it. -/
def Dev.faultEnters (d : Dev) (page bit : Nat) : Dev :=
  let waits : Dev := d.onPlat fun p => { p with armed := uniq2 p.armed (pageOf page, bit) }
  match kindAt page with
  | some (.pltReg, _) => d.safeState 0 15
  | some (.pltTherm, _) => d.safeState 2 15
  | some (.hatReg, _) => if bit = Er.hatReg_linkDown then d.linkDown else waits
  | some (.seqReg, _) => match (List.range 8).find? (fun c => !d.closed (corePage c)) with
    | some c => d.fence1 (corePage c) (some (page, bit))
    | none => d
  | some (.ingStr, s) => if bit = Er.ingStr_laneLost then d.flLost (bondFirst (d.bond s) 0) 16 else waits
  | some (.sflFc, ch) =>
    if bit = Er.sflFc_lunFail then
      match (d.channelLuns ch).find? (fun k => !d.sfl.fencedLuns.contains k && !d.closed (cellPage (.lun k))) with
      | some k => d.lunFail ch (k / 8 % 8) (k % 8)
      | none => d
    else waits
  | some (.odrLdr, _) => if bit = Er.odrLdr_axisFail then d.ldrFails else waits
  | some (.odrHl, n) =>
    if bit = Er.odrHl_linkLost then d.headLost n
    else if bit = Er.odrHl_headFault then (d.recAbort n).fence (Pg.odrDrv n) (some (page, bit)) else waits
  | some (.odrWr, n) => if bit ≤ 2 ∧ !(d.drive n).guard.contains bit then (d.guardSet n 0 bit true).guardSet n 0 bit false else waits
  | some (.srvReg, _) => if 8 ≤ bit ∧ bit < 12 then d.fence (Pg.odrDrv (bit - 8)) (some (page, bit)) else waits
  | some (.srvEng, e) => if bit = Er.srvEng_selfcheckFail ∨ bit = Er.srvEng_selftestFail then d.retire (e / 3) e else waits
  | some (.srvDrv, n) => if bit = Er.srvDrv_focusFail ∧ (d.seq n).st ≠ 0 then d.focusFails n else waits
  | some (.motReg, _) => if bit = Er.motReg_estop then d.estop else waits
  | some (.motSp, n) =>
    if bit = Er.motSp_startFail ∧ (d.spin n).st ≠ 0 then d.startFails n
    else if bit = Er.motSp_dtcOverrun then d.dtcOverrun n
    else if bit = Er.motSp_stopFail ∨ bit = Er.motSp_overcurrent then
      ((d.holdAbort n).onSpin n fun x => { x with st := 9, vec := 0, nextVec := 0, valid := false }).fence (Pg.odrDrv n) (some (page, bit))
    else waits
  | some (.motSt, m) =>
    if bit = Er.motSt_limitHit then d.limitStops m
    else if bit = Er.motSt_stuck then d.axisStuck m
    else if bit = Er.motSt_homeFail ∧ (d.axis m).st = 3 then d.homeFails m
    else if bit = Er.motSt_stepOverrun then d.stepOverrun m else waits
  | some (.calReg, _) => if bit = Er.calReg_tapOverrun then (d.cal.stepping.map (·.1)).head?.elim d (fun i => d.tapOverrun i) else waits
  | _ => waits
where
  uniq2 (l : List (Nat × Nat)) (x : Nat × Nat) : List (Nat × Nat) := if l.contains x then l else l ++ [x]

/-- PG_ERR_INJ: the bit is raised; with DATA the fault enters the datapath. -/
def Dev.injectWrite (d : Dev) (page v : Nat) : Dev :=
  let p := pageOf page
  let bit := bitsOf v 4 0
  let inj : Bool := match kindAt p with
    | some (k, _) => (pgCap k p).testBit 4
    | none => false
  if bitsOf v 31 24 ≠ 0xE1 ∨ (v.testBit 8 ∧ !inj) then d.countIgnored p (p + 0x1C)
  else
    let d := d.raise p bit
    match errAt p bit with
    | some e => d.when (v.testBit 8 && decide (e.cont ≠ .corrected)) (·.faultEnters p bit)
    | none => d

/-! ## A write of 32 bits -/

/-- The action of a register whose write is one. -/
def Dev.writeAct (d : Dev) (k : Kind) (i a v ns : Nat) : Option Dev :=
  let page := pageOf a
  if a % 4096 < 0x100 then
    match a % 4096 with
    | 0x08 => some (d.ctrlWrite page v)
    | 0x1C => some (d.injectWrite page v)
    | 0x20 => some (d.commitWrite page v ns)
    | _ => none
  else match k, a % 4096 with
    | .pltRst, 0x104 => some (d.resetWrite v)
    | .pltGrp, 0x104 => some (d.grpWrite v ns)
    | .pltMram, 0x100 => some (d.nextWrite v)
    | .hatAq, 0x100 => some (d.aqWrite v)
    | .hatDb, off =>
      let q := (off - 0x100) / 8
      some (if off % 8 = 0 then d.sqdb q (bitsOf v 15 0) else d.rhdb q (bitsOf v 12 0))
    | .hatMsix, off => if off % 16 = 12 then some (d.maskWrite ((off - 0x800) / 16) v) else none
    | .seqMc, 0x10C => some (d.maintain (bitsOf v 31 30) (d.rd F.seqMcMaintAddrLo + 2 ^ 32 * d.rd F.seqMcMaintAddrHi) (bitsOf v 20 0))
    | .ingSes, 0x110 => some (d.sesWrite i v ns)
    | .bpmReg, 0x100 => some (d.opWrite v)
    | .sflReg, 0x10C => some (d.timeWrite v)
    | .sflJrn, 0x10C => some (d.jrnWrite v)
    | .odrDrv, 0x100 => some (d.drvWrite i v)
    | .odrLdr, 0x104 => some (d.ldrWrite v)
    | .srvReg, 0x104 => some (d.sproutAsk v)
    | .srvDrv, 0x184 => some ((d.csWrite i v).csStep i)
    | .motReg, 0x100 => some (d.estopClr v)
    | .motSt, 0x120 => some (if bitsOf v 31 24 = 0x57 then d.stCmd i (bitsOf v 2 0) else d.countIgnored page a)
    | .calReg, 0x100 => some (if v.testBit 16 then d.calAbortWrite v else d.calRunWrite v)
    | _, _ => none

/-- A write with this value is ignored as a whole. -/
def Dev.writeBarred (d : Dev) (k : Kind) (a v : Nat) (r : RegDef) : Bool :=
  let p := pageOf a
  let f (hi lo : Nat) : Nat := bitsOf v hi lo
  r.fields.any (fun x => x.ty == .rw && (decide (bitsOf v x.hi x.lo < x.min) || decide (x.max < bitsOf v x.hi x.lo))) ||
    r.fields.any (fun x => d.calOwns a x.hi x.lo) ||
    (match a % 4096 with
      | 0x14 => k.desc.errs.any (fun e => e.unmaskable && v.testBit e.bit)
      | 0x24 | 0x28 => d.pendingPage p
      | _ => false) ||
    (match k, a % 4096 with
      | .pltArb, 0x100 => decide (f 29 24 = 0) || decide (f 21 16 = 0) || decide (f 13 8 = 0) || decide (f 5 0 = 0)
      | .pltArb, 0x104 => decide (f 15 0 < 400)
      | .pltTherm, 0x140 => !(decide (f 7 0 < f 15 8) && decide (f 15 8 < f 23 16) && decide (f 23 16 ≤ 125))
      | .hatReg, 0x104 => d.hat.decoders.any (·.isSome)
      | .hatAq, 0x104 | .hatAq, 0x108 | .hatAq, 0x10C => d.flag F.hatAqCfg_en
      | _, _ => false)

/-- The fields of a register act on the value written, as their types give (R2). Owners 0–31 take their pool from their stream. -/
def Dev.fieldsWrite (d : Dev) (r : RegDef) (a v : Nat) : Dev :=
  r.fields.foldl (fun (d : Dev) f =>
    let x := bitsOf v f.hi f.lo
    match f.ty with
    | .rw => d.setRaw a (w32 (putBits (d.raw a).toNat f.hi f.lo x))
    | .rs =>
      let fixed : Bool := match kindAt a with
        | some (.bpmOwn, i) => decide (i < 32) && f.hi == 27
        | _ => false
      if fixed then d
      else d.setShadowed a (w32 (putBits (d.shadowed a).toNat f.hi f.lo x))
    | .w1c =>
      let d := d.setRaw a (w32 (putBits (d.raw a).toNat f.hi f.lo (bitsOf (d.raw a).toNat f.hi f.lo &&& (2 ^ 32 - 1 - x))))
      if a % 4096 = 0x10 then
        d.onPlat fun p => { p with errSum := Map.set 0 p.errSum (pageOf a) (Map.get 0 p.errSum (pageOf a) &&& (d.raw a).toNat) }
      else d
    | _ => d) d

/-- Register writes are taken at this address: not during a software reset, and in the chip safe state only at PLT_RST_CTRL and the
doorbells (R56, R494; log entry 52). -/
def Dev.takesWrite (d : Dev) (k : Kind) (a : Nat) : Bool :=
  d.plat.softReset.isNone && (!d.plat.safe || k == .hatDb || (k == .pltRst && decide (a % 4096 = 0x104)))

/-- How many of the records that a log holds were there when its first `n` were written. -/
def Log.heldBefore (l : Log) (n : Nat) : Nat := l.recs.length - (l.written - n)

/-- A record of the access log written after the first `n` tells of the access at `a`. -/
def Dev.countedSince (d : Dev) (n a : Nat) : Bool :=
  (d.mram.accessLog.recs.drop (d.mram.accessLog.heldBefore n)).any (fun r => decide (r.ty = 3) && decide (r.info = a))

/-- What the access log records of the access at `a` since its first `n` records names the data written (R475 bytes 36–39). -/
def Dev.stampData (d : Dev) (n a v : Nat) : Dev :=
  if v = 0 ∨ !d.countedSince n a then d
  else d.onMram fun m =>
    let k := m.accessLog.heldBefore n
    { m with accessLog := { m.accessLog with recs := m.accessLog.recs.take k ++ (m.accessLog.recs.drop k).map (fun (r : LogRec) =>
      if r.ty = 3 ∧ r.info = a then { r with info := a + 2 ^ 32 * v } else r) } }

/-- A 32-bit write of `v` at `ns` after the boundary: an access that its action ignores is counted once; one with a nonzero bit in an
RZ field is counted although its other fields act (R2). -/
def Dev.write32 (d : Dev) (a v ns : Nat) : Dev :=
  let v := v % 2 ^ 32
  let n := d.mram.accessLog.written
  let e : Dev := match kindAt a, regAt a with
    | some (k, i), some r =>
      if r.mask Access.takes = 0 ∨ !d.takesWrite k a ∨ d.writeBarred k a v r then d.accessLost a
      else
        let e := (d.writeAct k i a v ns).getD (d.fieldsWrite r a v)
        if v &&& r.mask (fun _ => true) ≠ v ∧ !e.countedSince n a then e.accessLost a else e
    | _, _ => d.accessLost a
  e.stampData n a v

/-- A write as BAR0 takes it (R36). -/
def Dev.barWrite (d : Dev) (x : RegAccess) : Dev :=
  if x.bytes = 4 ∧ x.addr % 4 = 0 then d.write32 x.addr x.value x.ns
  else if x.bytes = 8 ∧ x.addr % 8 = 0 then (d.write32 x.addr x.value x.ns).write32 (x.addr + 4) (x.value / 2 ^ 32) x.ns
  else d.accessLost x.addr

/-! ## Reads (R2, R9) -/

/-- A read clears the RC fields of its register. -/
def Dev.readClear (d : Dev) (a : Nat) : Dev :=
  match regAt a with
  | some r => d.setRaw a (d.raw a &&& ~~~ w32 (r.mask (· == .rc)))
  | none => d

/-- The LO registers whose read latches the register after them. -/
def latchesHi (a : Nat) : Bool :=
  match kindAt a, a % 4096 with
  | some (.pltMg1, _), 0x104 | some (.pltMg3, _), 0x100 | some (.cstReg, _), 0x180 | some (.seqMc, _), 0x380 => true
  | some (.ingStr, _), 0x12C | some (.ingSes, _), 0x11C | some (.sflVol, _), 0x10C => true
  | some (.sflReg, _), 0x104 | some (.sflReg, _), 0x110 | some (.sflReg, _), 0x118 => true
  | some (.calRec, _), off => decide (off % 32 = 8)
  | _, _ => false

/-- The HI register takes the upper half that belongs to what LO shows. -/
def Dev.latchHi (d : Dev) (a : Nat) : Dev :=
  let hi : Nat := if a = F.sflCapLo.addr then d.capUnits / 2 ^ 32 else Map.get 0 d.plat.hiLive (a + 4)
  d.setRaw (a + 4) (w32 hi)

/-- PLT_TICK_LO and PLT_TICK_HI form one value. -/
def Dev.latchTick (d : Dev) : Dev := d.wr F.pltTickHi (d.now / 2 ^ 32)

/-- A 32-bit read: the value shown, and what the read changes. -/
def Dev.read32 (d : Dev) (a : Nat) : Dev :=
  let d := d.answer (d.view a)
  match kindAt a with
  | some (.srvDrv, n) => if a % 4096 = 0x184 then (d.answer (d.csRead n)).csStep n else d.readClear a
  | some (.pltTick, _) => if a % 4096 = 0x100 then d.latchTick else d
  | _ => if latchesHi a then d.latchHi a else d.readClear a

/-- A read as BAR0 takes it (R36): of 64 bits as two of 32, the lower address first; any other width or alignment returns zero and is
counted. -/
def Dev.barRead (d : Dev) (a bytes : Nat) : Dev :=
  if bytes = 4 ∧ a % 4 = 0 then d.read32 a
  else if bytes = 8 ∧ a % 8 = 0 then
    let lo := d.read32 a
    let hi := lo.read32 (a + 4)
    hi.answer (lo.readVal + 2 ^ 32 * hi.readVal)
  else (d.answer 0).countIgnored (countedAt a) a 0

/-! ## Meanings -/

/-- REGISTER_WRITE (R2, R3, R36). -/
def execRegisterWrite (a : RegAccess) (s : State) : Host.Outcome State Fault Refusal := run s fun d => (d.barWrite a).hatPump

/-- READ_CLEAR_READ (R2, R36). -/
def execReadClearRead (r : RegRead) (s : State) : Host.Outcome State Fault Refusal := run s (·.barRead r.addr r.bytes)

/-- PLT_TICK_LO_READ (R9). -/
def execPltTickLoRead (s : State) : Host.Outcome State Fault Refusal := run s fun d => d.read32 F.pltTickLo.addr

/-- LATCHED_LO_READ (R9): the read of the LO word of a split register; at any other address the read it is. -/
def execLatchedLoRead (r : RegRead) (s : State) : Host.Outcome State Fault Refusal := run s (·.barRead r.addr r.bytes)

/-- ERROR_INJECT (R41): a write of `value` to the page's PG_ERR_INJ. -/
def execErrorInject (page value : Nat) (s : State) : Host.Outcome State Fault Refusal :=
  run s fun d => (d.write32 (pageOf page + 0x1C) value 0).hatPump

/-- PROFILE_NEXT_WRITE (R484): a write of `value` to PLT_MRAM_PROF. -/
def execProfileNextWrite (value : Nat) (s : State) : Host.Outcome State Fault Refusal :=
  run s fun d => d.write32 F.pltMramProf_next.addr value 0

/-- CLASS3_PROMOTION (R23): a class 3 request that has waited PLT_ARB_PROMO.WAIT fabric cycles is granted as class 2 once. -/
def execClass3Promotion (waited : Nat) (s : State) : Host.Outcome State Fault Refusal :=
  run s fun d => if waited < d.rd F.pltArbPromo then d else (d.count F.pltArbCntPromo).promoteJob

/-- PLT_RST_CTRL_CHIP (R56): the keyed write. -/
def execPltRstCtrlChip (s : State) : Host.Outcome State Fault Refusal :=
  run s fun d => d.write32 F.pltRstCtrl_chip.addr 0x5AFE0001 0

/-- SFL_JRN_FLUSH (R198): a write of `value`, with FLUSH set, to SFL_JRN_CTRL. -/
def execSflJrnFlush (value : Nat) (s : State) : Host.Outcome State Fault Refusal :=
  run s fun d => (d.write32 F.sflJrnCtrl_flush.addr (setBit (value % 2 ^ 32) 0 true) 0).hatPump

/-- SFL_JRN_CKPT (R199): a write of `value`, with CKPT set, to SFL_JRN_CTRL. -/
def execSflJrnCkpt (value : Nat) (s : State) : Host.Outcome State Fault Refusal :=
  run s fun d => (d.write32 F.sflJrnCtrl_ckpt.addr (setBit (value % 2 ^ 32) 1 true) 0).hatPump

/-- SFL_TIME_WRITE (R185). -/
def execSflTimeWrite (value : Nat) (s : State) : Host.Outcome State Fault Refusal :=
  run s fun d => d.write32 F.sflTime.addr value 0

end Sys2Proof.Machine
end

