-- ==== Sys2Proof/Machine/Admin.lean ====
section
/-! DEFINITION. The admin commands: IDENTIFY, logs, features, downloads, keys, and firmware commits with their activation
(R55, R472–R482, R491, R494). -/
namespace Sys2Proof.Machine
open Sys2Proof

/-! ## Data delivered (R473, R474) -/

/-- The bytes go out in pieces of one buffer; the command completes after the last. -/
def Dev.delivers (d : Dev) (c : Cmd) (bytes : List Byte) (r0 : Nat) : Dev :=
  d.onCmd c.arrival fun c => { c with phase := 5, next := 0, units := ceilDiv bytes.length unitBytes, data := bytes, res := (r0, 0, 0) }

def Dev.identifyBegins (d : Dev) (c : Cmd) : Dev :=
  match d.identData (c.arg 8 1) c.vol (c.arg 20 2) with
  | .ok b => d.delivers c b 0
  | .error st => c.endsAt d st

/-- GET_LOG: a page of records is read as its ring stands when a piece goes out; a page without is taken at the start. -/
def Dev.logBegins (d : Dev) (c : Cmd) : Dev :=
  let lid := c.arg 8 1
  let len := c.arg 24 4
  let n := d.logWritten lid
  if !logExists lid then c.endsAt d 0x88
  else if len < 64 ∨ 16777216 < len ∨ len % 64 ≠ 0 then c.endsAt d 0x22
  else if (logShape lid).isSome then
    d.onCmd c.arrival fun c => { c with phase := 7, next := 0, units := ceilDiv len unitBytes, wait := [(n, 0)], res := (n % 2 ^ 32, 0, 0) }
  else
    let (b, d) := d.logData lid 0 (c.arg 16 8) len
    d.delivers c b (n % 2 ^ 32)

/-! ## Features (R477, R478) -/

/-- A write of `v` at `a` would be ignored. -/
def Dev.writeIgnored (d : Dev) (a v : Nat) : Bool :=
  match kindAt a, regAt a with
  | some (k, _), some r => !d.takesWrite k a || d.writeBarred k a v r || (a == F.sflTime.addr && decide (v ≤ d.rd F.sflTime))
  | _, _ => true

/-- The page may not be written through SET_FEATURE now. -/
def Dev.featureBusy (d : Dev) (page : Nat) : Bool :=
  decide ((d.raw (page + 0x28)).toNat ≠ 0) || d.pendingPage page ||
    (d.cal.queue ++ d.cal.running).any (fun r => (calTargets r.item r.layers).any (fun x => pageOf x.addr == page)) ||
    d.cal.stepping.any (fun e => e.2.any (fun x => pageOf x.addr == page))

/-- FIDs 0x09 to 0x0B: the header of the active profile, and the boot record. -/
def Dev.featureKept (d : Dev) (c : Cmd) (fid v : Nat) : Dev :=
  if fid = 0x0B then (if 7 < v then c.endsAt d 0x22 else (d.nextWrite (v * 256)).cmdEnds c.arrival 0 v 0 0)
  else match d.activeProf with
    | none => c.endsAt d 0x8F
    | some p =>
      if fid = 0x09 then ((d.profPut p 12 (leBytes 4 v)).profSeal p).cmdEnds c.arrival 0 v 0 0
      else if 15 < v then c.endsAt d 0x22
      else ((d.profPut p 16 (leBytes 1 v)).profSeal p).cmdEnds c.arrival 0 v 0 0

/-- SET_FEATURE: the write and, for RS fields, its commit at the next boundary; SAVE also keeps the value. -/
def Dev.featureSet (d : Dev) (c : Cmd) : Dev :=
  let fid := c.arg 8 1
  let save := (c.arg 10 1).testBit 0
  let v := c.arg 12 4
  if !featureOk fid (c.arg 9 1) then c.endsAt d 0x89
  else match featureReg fid (c.arg 9 1) with
    | none => d.featureKept c fid v
    | some (a, bits, rs) =>
      let page := pageOf a
      let room : Bool := match d.activeProf with
        | some p => d.profRoom p a
        | none => true
      if 2 ^ bits ≤ v then c.endsAt d 0x22
      else if d.featureBusy page then c.endsAt d 0x8A
      else if save ∧ d.activeProf.isNone then c.endsAt d 0x8F
      else if save ∧ !room then c.endsAt d 0x8E
      else if d.writeIgnored a v then c.endsAt (d.write32 a v 0) 0x22
      else
        let d := d.write32 a v 0
        let keep (d : Dev) : Dev := match d.activeProf with
          | some p => d.when save (·.profSave p a v rs)
          | none => d
        if !rs then (let d := keep d; d.cmdEnds c.arrival 0 (d.inForce a) 0 0)
        else if d.refuses [page] page then c.endsAt ((d.commitRefused page).countIgnored page (page + 0x20)) 0x22
        else ((keep d).stagePage 0 0 0 [page] page).onCmd c.arrival fun c => { c with wait := [(page, 0)] }

def Dev.featureRead (d : Dev) (c : Cmd) : Dev :=
  let fid := c.arg 8 1
  let index := c.arg 9 1
  if !featureOk fid index then c.endsAt d 0x89
  else match d.featureGet fid index ((c.arg 10 1).testBit 0) with
    | some v => d.cmdEnds c.arrival 0 v 0 0
    | none => c.endsAt d 0x8F

/-! ## Data taken (R479, R481) -/

def Dev.downloadBegins (d : Dev) (c : Cmd) : Dev :=
  let prof := decide (c.arg 8 1 = 1)
  let i := c.arg 9 1
  let ofs := c.arg 12 4
  let len := c.arg 16 4
  let size := if prof then 131072 else 16777216
  if 1 < c.arg 8 1 ∨ (if prof then 7 else 3) < i ∨ ofs % 4096 ≠ 0 ∨ len % 4096 ≠ 0 ∨ len < 4096 ∨ 65536 < len ∨ size < ofs + len then c.endsAt d 0x22
  else if (if prof then d.activeProf == some i else d.fwSlotBusy i) then c.endsAt d 0x80
  else d

/-- KEY_LOAD: a CLEAR acts at once; a key is judged when it has come. -/
def Dev.keyBegins (d : Dev) (c : Cmd) : Dev :=
  let slot := c.arg 8 1
  let clear := (c.arg 9 1).testBit 0
  if 63 < slot ∨ 3 < c.arg 9 1 then c.endsAt d 0x22
  else if !clear then d
  else match d.keyRefused slot (c.arg 12 4) true ((c.arg 9 1).testBit 1) with
    | some st => c.endsAt d st
    | none => c.endsAt (d.keyStore slot ⟨0, [], []⟩) 0

/-! ## Firmware commits (R55, R482) -/

def Cmd.fwSlot (c : Cmd) : Nat := c.arg 8 1
def Cmd.fwRegs (c : Cmd) : Nat := c.arg 10 2
def Cmd.fwAction (c : Cmd) : Nat := c.arg 12 1

/-- FW_COMMIT begins its check; in the chip safe state nothing is activated (R494). -/
def Dev.fwBegins (d : Dev) (c : Cmd) : Dev :=
  if 3 < c.fwSlot ∨ 4095 < c.fwRegs ∨ 7 < c.fwAction then c.endsAt d 0x22
  else if d.plat.safe ∧ c.fwAction.testBit 0 then c.endsAt d 0x84
  else d.onCmd c.arrival fun c => { c with phase := 1 }

def regionsOf (mask : Nat) : List Nat := (List.range 12).filter mask.testBit

/-- A region's PLT_FW_REG field takes a value in each region named. -/
def Dev.fwEach (d : Dev) (mask : Nat) (f : Nat → RegField) (v : Nat) : Dev :=
  (regionsOf mask).foldl (fun (d : Dev) r => d.wr (f r) v) d

/-- The actions of a commit without an activation, or of one whose regions have switched. -/
def Dev.fwDone (d : Dev) (slot regions : Nat) (boot lock : Bool) : Dev :=
  (d.when boot (·.fwBoot slot regions)).when lock (·.fwLock slot)

/-- The check of a FW_COMMIT ends: the first status that applies, or the actions; with ACTIVATE the regions read STAGED. -/
def Dev.fwChecked (d : Dev) (c : Cmd) : Dev :=
  let slot := c.fwSlot
  let act := c.fwAction
  let result := d.fwCheck slot c.fwRegs act
  let d := (d.when (d.injected Pg.pltMram Er.pltMram_mramUe) (·.count (F.pltMramCnt 1))).takeInjected Pg.pltMram Er.pltMram_mramUe
  let d := (d.setChecked slot result.isNone).onCmd c.arrival fun c => { c with phase := 2 }
  match result with
  | some st => c.endsAt d st
  | none =>
    if c.fwRegs = 0 ∨ act = 0 then d.cmdEnds c.arrival 0 d.fwLast 0 0
    else if act.testBit 0 then
      let d := (d.fwEach c.fwRegs F.pltFwReg_staged slot).fwEach c.fwRegs F.pltFwReg_state 1
      d.onPlat fun p => { p with activation := some ⟨c.fwRegs, slot, act.testBit 1, act.testBit 2, d.now, none, none, c.arrival⟩ }
    else (d.fwDone slot c.fwRegs (act.testBit 1) (act.testBit 2)).cmdEnds c.arrival 0 d.fwLast 0 0

/-- The new image has loaded: HOLDING (R55), with the items and Sprouts that stop there (R491 N6, N7). -/
def Dev.fwLoaded (d : Dev) : Dev :=
  match d.plat.activation with
  | some a =>
    if a.th.isSome ∨ a.ta + 120 < d.now then d
    else
      let d := d.onPlat fun p => { p with activation := some { a with th := some d.now } }
      let d := d.fwEach a.regions F.pltFwReg_state 2
      let hit (r : CalRun) : Bool := a.regions.testBit 11 || ((a.regions.testBit 8 || a.regions.testBit 9) && (calDrive r.item).isSome)
      let d := (d.cal.running.filter hit).foldl (fun (d : Dev) r => d.calStops r.item 3 10) d
      d.when (a.regions.testBit 9) (·.sproutsHold)
  | none => d

/-- What the named regions have in flight has ended: engines are at rest, and no band-row is recorded, verified or at a ladder
level; units that are fenced or isolated do not count (R55, R491 N4, N8). -/
def Dev.fwQuiet (d : Dev) (regions : Nat) : Bool :=
  (!regions.testBit 9 || d.engsQuiet) &&
    (!(regions.testBit 8 || regions.testBit 9) || (List.range 4).all (fun n =>
      decide (d.unitAt (Pg.odrDrv n) = .fenced) || decide (d.unitAt (Pg.odrDrv n) = .isolated) ||
        ((d.rec_ n).cur.isNone && (d.rec_ n).next.isNone && (d.rec_ n).verify.isEmpty && (d.drive n).reads.all (·.idle))))

/-- The regions reach quiesce, in time for the boundary that comes to be their switch. -/
def Dev.fwQuiesced (d : Dev) : Dev :=
  match d.plat.activation with
  | some a => match a.th with
    | some th =>
      let t := d.now + 1
      if a.quiet.isSome ∨ th + 80 < t ∨ a.ta + 200 < t ∨ !d.fwQuiet a.regions then d
      else d.onPlat fun p => { p with activation := some { a with quiet := some d.now } }
    | none => d
  | none => d

/-- At the boundary after the tick of quiesce the regions switch; the commit completes and held capsules proceed. -/
def Dev.fwSwitch (d : Dev) : Dev :=
  match d.plat.activation with
  | some a => match a.th, a.quiet with
    | some th, some _ =>
      let t := d.now
      let d := d.onPlat fun p => { p with activation := none }
      let d := (d.fwEach a.regions F.pltFwReg_active a.slot).fwEach a.regions F.pltFwReg_state 0
      let d := (regionsOf a.regions).foldl (fun (d : Dev) r => d.wr (F.pltFwReg_version r) (d.fwVersion a.slot r)) d
      let d := d.when (a.regions.testBit 9) (·.engsSwitch)
      let d := (d.wr F.pltFwLast_hold (t - th)).wr F.pltFwLast_total (t - a.ta)
      let d := (d.fwDone a.slot a.regions a.boot a.lockSvn).chipEvent 15
      (d.cmdEnds a.arrival 0 d.fwLast 0 0).hatPump
    | _, _ => d
  | none => d

/-- Quiesce was not reached by Th + 79, or the image not loaded by Ta + 120: the old images run on. -/
def Dev.fwAbandon (d : Dev) : Dev :=
  match d.plat.activation with
  | some a =>
    let late : Bool := match a.th with
      | some th => a.quiet.isNone && (decide (th + 79 ≤ d.now) || decide (a.ta + 199 ≤ d.now))
      | none => decide (a.ta + 120 ≤ d.now)
    if !late then d
    else
      let d := (d.onPlat fun p => { p with activation := none }).fwEach a.regions F.pltFwReg_state 0
      let d := (regionsOf a.regions).foldl (fun (d : Dev) r => d.raise (r * 0x100000) 30) d
      ((d.chipEvent 15).cmdEnds a.arrival 0x85 d.fwLast 0 0).hatPump
  | none => d

/-! ## Meanings: each command begins under its CID on queue 0 -/

/-- IDENTIFY (R473). -/
def execIdentify (cid : Nat) (s : State) : Host.Outcome State Fault Refusal := run s fun d => d.begins 0 cid 0x81 Dev.identifyBegins

/-- GET_LOG (R474). -/
def execGetLog (cid : Nat) (s : State) : Host.Outcome State Fault Refusal := run s fun d => d.begins 0 cid 0x82 Dev.logBegins

/-- SET_FEATURE (R478). -/
def execSetFeature (cid : Nat) (s : State) : Host.Outcome State Fault Refusal := run s fun d => d.begins 0 cid 0x83 Dev.featureSet

/-- GET_FEATURE (R478). -/
def execGetFeature (cid : Nat) (s : State) : Host.Outcome State Fault Refusal := run s fun d => d.begins 0 cid 0x84 Dev.featureRead

/-- FW_DOWNLOAD (R481). -/
def execFwDownload (cid : Nat) (s : State) : Host.Outcome State Fault Refusal := run s fun d => d.begins 0 cid 0x85 Dev.downloadBegins

/-- FW_COMMIT (R482). -/
def execFwCommit (cid : Nat) (s : State) : Host.Outcome State Fault Refusal := run s fun d => d.begins 0 cid 0x86 Dev.fwBegins

/-- KEY_LOAD (R479). -/
def execKeyLoad (cid : Nat) (s : State) : Host.Outcome State Fault Refusal := run s fun d => d.begins 0 cid 0x8A Dev.keyBegins

/-- FW_COMMIT_CHECK_END (R482). -/
def execFwCommitCheckEnd (cid : Nat) (s : State) : Host.Outcome State Fault Refusal :=
  run s fun d => match d.cmdOf 0 cid with
    | some c => if c.op = 0x86 ∧ c.started ∧ c.phase = 1 ∧ c.verdict.isNone then (d.fwChecked c).hatPump else d
    | none => d

/-- FW_IMAGE_LOADED (R55). -/
def execFwImageLoaded (s : State) : Host.Outcome State Fault Refusal := run s (·.fwLoaded)

/-- FW_QUIESCE_REACHED (R55). -/
def execFwQuiesceReached (s : State) : Host.Outcome State Fault Refusal := run s (·.fwQuiesced)

/-- FW_ACTIVATION_ABANDON (R55). -/
def execFwActivationAbandon (s : State) : Host.Outcome State Fault Refusal := run s (·.fwAbandon)

end Sys2Proof.Machine
end

