-- ==== Sys2Proof/Machine/FlashCmds.lean ====
section
/-! DEFINITION. The commands of the flash channels, the flash translation, the parity sets, the stripe journal, the drain and the
engines' checks (R94, R101, R103, R107, R162–R247). -/
namespace Sys2Proof.Machine
open Sys2Proof

/-! ## What waits moves on -/

/-- The flash side, a checkpoint in progress, and the commands that wait for them move on. -/
def Dev.flashMoves (d : Dev) : Dev := (d.when d.flashRuns (·.ckptStep)).pump.hollowClear.hatPump.rowBufsFree

/-- The catalogue is read once flash reads run (R277). -/
def Dev.catWhenReady (d : Dev) (before : Nat) : Dev := if before ≠ 2 ∧ d.rd F.sflStat = 2 then d.catLoad else d

/-- At least `k` ticks of the sequence of R202 have passed. -/
def Dev.pastTp (d : Dev) (k : Nat) : Bool :=
  match d.plat.tp with
  | some t => decide (k ≤ d.since t) && decide (d.since t < 2 ^ 63)
  | none => false

/-! ## Channels -/

/-- An operation of a channel may end: the channel is trained and not closed. -/
def Dev.chRuns (d : Dev) (ch : Nat) : Bool := decide (d.rd (F.sflFcStat_train ch) = 2) && !d.closed (Pg.sflFc ch)

/-- ZQ short calibration of a trained channel, at most every 40,000 ticks (R162). -/
def Dev.zqCal (d : Dev) (ch : Nat) : Dev :=
  if d.chRuns ch ∧ 40000 ≤ d.since (Map.get 0 d.sfl.zqTick ch) then d.onSfl fun s => { s with zqTick := Map.set 0 s.zqTick ch d.now } else d

/-- The class of what a program, or a read, is for, and whether it is GC's, or the rebuild of a CRITICAL set's (R22, R188, R231). -/
def Dev.jobOp (d : Dev) (id : Nat) : Nat × Bool :=
  match d.sfl.jobs.find? (fun j => j.id == id) with
  | some j => ((d.jobReq j).cls, match j.why with
    | .gc r => decide ((d.freeRows (rowSet r)).length ≤ d.rd F.sflGcCfg_urgent)
    | .rebuild r => decide (d.rd (F.parSetStat_state (rowSet r)) = 3)
    | _ => false)
  | none => (2, false)
def Dev.progOp (d : Dev) (p : Prog) : Nat × Bool :=
  match p.why with
  | .job id => d.jobOp id
  | _ => (roleClass (d.rowEnt p.unit.tag.row).role, false)
def Dev.readOp (d : Dev) (r : FRead) : Nat × Bool :=
  match r.why with
  | .job id => d.jobOp id
  | .migrate _ _ _ => (3, false)
  | _ => (2, false)

/-- The operations that wait for a LUN and could start. -/
def Dev.lunOps (d : Dev) (k : Nat) : List (Nat × Bool) :=
  (d.sfl.progs.filter (fun p => puaLunKey p.pua == k && d.mayStart p.pua)).map d.progOp ++
    (d.sfl.reads.filter (fun r => puaLunKey r.pua == k)).map d.readOp

/-- The channel serves an operation of a LUN next: class 1, then 2, then 3; but of each sixteen operations of the channel SHARE go to GC at
URGENT, or to the rebuild of a CRITICAL set, as long as some wait (R188, R231; log entry 100). -/
def Dev.chServes (d : Dev) (k : Nat) (op : Nat × Bool) : Bool :=
  let ops := d.lunOps k
  let (n, g) := Map.get (0, 0) d.sfl.turns (k / 64)
  if ops.any (·.2) && decide (16 - n ≤ d.rd F.sflGcCfg_share - g) then op.2 else !ops.any (fun x => decide (x.1 < op.1))

/-- One more operation of the channel was served. -/
def Dev.chServed (d : Dev) (ch : Nat) (op : Nat × Bool) : Dev :=
  let (n, g) := Map.get (0, 0) d.sfl.turns ch
  d.onSfl fun s => { s with turns := Map.set (0, 0) s.turns ch (if n = 15 then (0, 0) else (n + 1, if op.2 then g + 1 else g)) }

/-- The temperature of a die is read every 4,000 ticks where its type names the feature (R186). -/
def Dev.dieTemp (d : Dev) (ch ce lun : Nat) (temp : Int) : Dev :=
  let k := lunKey ch ce lun
  let due : Bool := match Map.find d.sfl.tempTick k with
    | some t => decide (4000 ≤ d.since t)
    | none => true
  if d.chRuns ch ∧ d.ceReady ch ce ∧ lun < d.lunsOf ch ce ∧ d.rd (F.sflDieFeat_tempFeat (d.dieOf ch ce)) ≠ 0 ∧ due then
    d.onSfl fun s => { s with temps := Map.set 0 s.temps k (unsgn 8 temp), tempTick := Map.put s.tempTick k d.now }
  else d

/-- A program that ends after Tp: the unit stands in flash, and nothing acknowledges it (R202). -/
def Dev.lateProgram (d : Dev) (pua : Nat) (pass : Bool) : Dev :=
  match d.sfl.progs.find? (fun p => p.pua == pua) with
  | some p => d.onSfl fun s => { s with
      units := (if pass then Map.put s.units pua p.unit else s.units)
      progs := s.progs.filter (fun x => x.pua != pua) }
  | none => d

/-- Operations of a channel in training wait (R163). -/
def Dev.chTrains (d : Dev) (ch : Nat) : Bool := decide (d.rd (F.sflFcStat_train ch) = 1)

/-- FLASH_PROGRAM_DONE: a program ends that could start and that its channel served (R168, R188, R218). -/
def Dev.programEnds (d : Dev) (pua : Nat) (pass : Bool) : Dev :=
  match d.sfl.progs.find? (fun p => p.pua == pua) with
  | none => d
  | some p =>
    let op := d.progOp p
    if !d.mayStart pua ∨ d.chTrains (puaCh pua) ∨ !d.chServes (puaLunKey pua) op then d
    else if d.pastTp 0 then d.lateProgram pua pass
    else if d.injected (Pg.sflFc (puaCh pua)) Er.sflFc_timeout then (d.chServed (puaCh pua) op).flashTimeout pua
    else (d.chServed (puaCh pua) op).progDone pua pass

/-- FLASH_ERASE_DONE; after Tp the blocks are erased and nothing records it. -/
def Dev.eraseEnds (d : Dev) (row failed : Nat) : Dev :=
  if (d.rowEnt row).st ≠ .erasing ∨ (d.positions row).any d.chTrains then d
  else if d.pastTp 0 then
    (d.positions row).foldl (fun (d : Dev) ch =>
      let p := mkPua ch (rowCe row) (rowLun row) (rowBlock row) 0
      d.onSfl fun s => { s with units := Map.dropWindow s.units p (4096 + p) }) d
  else d.eraseDone row failed

/-- FLASH_READ_DONE: a read ends that its channel served, with the SET FEATURES of its levels (R186–R188). -/
def Dev.readEnds (d : Dev) (pua level tries : Nat) (bad : List Nat) : Dev :=
  match d.sfl.reads.find? (fun r => r.pua == pua) with
  | none => d
  | some r =>
    let op := d.readOp r
    if d.chTrains (puaCh pua) ∨ !d.chServes (puaLunKey pua) op then d
    else if d.injected (Pg.sflFc (puaCh pua)) Er.sflFc_timeout then (d.chServed (puaCh pua) op).flashTimeout pua
    else ((d.chServed (puaCh pua) op).readFeatures pua level tries).readDone pua level bad

/-- FLASH_OP_TIMEOUT of an operation in progress. -/
def Dev.opTimesOut (d : Dev) (pua : Nat) : Dev :=
  if d.pastTp 0 ∨ d.chTrains (puaCh pua) ∨ (d.sfl.progs.any (fun p => p.pua == pua) ∧ !d.mayStart pua) then d else d.flashTimeout pua

/-! ## Map and journal -/

/-- MAP_PAIR_WAIT: a page dirty for PAIR_WAIT ticks without a partner goes with an absent half (R175). -/
def Dev.pairWait (d : Dev) (p : Nat) : Dev :=
  match d.slotOfPage p with
  | some n =>
    let x := d.mslot n
    if d.flashReady ∧ x.valid ∧ x.dirty ∧ !x.writing ∧ d.rd F.sflMapCfg ≤ d.since x.since then d.mapWrite p absent else d
  | none => d

/-- Rows whose age has come are queued for refresh: their age bin, or an OPEN_SEQ more than 2⁴⁶ behind (R195). -/
def Dev.refreshByAge (d : Dev) : Dev :=
  (d.sfl.rows.filter (fun e => decide (e.2.st = .closed) &&
    (decide (d.rd F.sflWearCfg_refreshBin ≤ d.ageBin e.2.wtime) ||
      decide (2 ^ 46 < behind 48 d.sfl.seq e.2.openSeq)))).foldl (fun (d : Dev) e => d.queueRefresh e.1) d

/-- SFL_TIME_ADVANCE: one second in 400,000 ticks (R185). -/
def Dev.secondPasses (d : Dev) : Dev :=
  if d.since d.sfl.timeTick < 400000 then d
  else
    let d := d.onSfl fun s => { s with timeTick := (400000 + s.timeTick) % 2 ^ 64 }
    (d.wr F.sflTime (d.rd F.sflTime + 1)).refreshByAge

/-! ## Power failure (R202, R228, R493) -/

/-- PWRFAIL_N is accepted as low. -/
def Dev.pinFails (d : Dev) : Dev :=
  let d := d.setLevel keyPwr true
  if d.plat.pfPin then d.showMot else d.powerFail

/-- Tp+8: of the programs in progress those confirmed will stand; the journal buffer, SFL_TIME and the head pointer are in MRAM. -/
def Dev.flashQuiet (d : Dev) (confirmed : List Nat) : Dev :=
  if !d.pastTp 8 ∨ d.plat.quiet then d
  else
    let sure := d.sfl.progs.filter (fun p => confirmed.contains p.pua && d.mayStart p.pua)
    let d := d.onSfl fun s => { s with units := sure.foldl (fun m p => Map.put m p.pua p.unit) s.units, progs := [] }
    let d := if d.lostFence 6 then d else d.jflush.mramPut 1 fun m => { m with time := d.rd F.sflTime }
    d.onPlat fun p => { p with quiet := true }

/-- Tp+20: the stripe journal's buffered slots are in both banks. -/
def Dev.sjQuiet (d : Dev) : Dev :=
  if !d.pastTp 20 ∨ d.plat.sjDone then d
  else
    let d := if d.lostFence 7 then d else d.sjFlush false false
    d.onPlat fun p => { p with sjDone := true }

/-! ## Stripes, rebuild, reshape, disc runs -/

/-- FILL_WAIT ticks have passed since the stripe's first program: pads, then parity (R218). -/
def Dev.fillExpires (d : Dev) (r k : Nat) : Dev :=
  match d.stripeOf r k with
  | some x => if d.flashReady ∧ d.rd (F.parSetCfg_fillWait (rowSet r)) ≤ d.since x.tick then (d.padStripe r k).startParity r k else d
  | none => d

/-- PAR or SFL is HOLDING: rebuild and reshape stop at the unit boundary (R491 N5). -/
def Dev.movesHeld (d : Dev) : Bool := d.holding 6 || d.holding 7

/-- The data band-rows that a run's ADDED counts, as (disc, offset). -/
def Slot.counted (s : Slot) : List (Nat × Nat) := ((List.range 10).map (fun i => (List.range (s.added i)).map (fun x => (i, x)))).flatten

/-- The data of a counted band-row for RECOMPUTE: as a drive read it (lost bytes count as zeros), of a band-row still to be
recorded, or from the flash units named for it; none while it must still be read from its disc (R238). -/
def Dev.countedRow (d : Dev) (s : Slot) (flash : List (Nat × Nat × List Nat)) (i x : Nat) : Option (Map Byte) :=
  let b := s.stripe + x
  match d.odr.gathered.find? (fun g => g.cat == s.runCat && g.disc == i && g.brow == b) with
  | some g => some (g.data.getD [])
  | none => match d.rowsDue.find? (fun r => r.cat == s.runCat && r.disc == i && r.brow == b) with
    | some r => some r.data
    | none => match flash.find? (fun f => f.1 == i && f.2.1 == x) with
      | some f => some (((List.range 4).map (fun u =>
          match (entPua (d.mapEnt (f.2.2.getD u (2 ^ 64 - 1)))).bind (Map.find d.sfl.units) with
          | some y => y.data.map (fun e => (65536 * u + e.1, e.2))
          | none => [])).flatten)
      | none => if b < d.nwbOf s.runCat i then none else some []

/-- RECOMPUTE: the band-rows that ADDED counts are asked for from their discs; once all are in, the staged P and Q are rebuilt. -/
def Dev.recomputeRun (d : Dev) (j : Nat) (flash : List (Nat × Nat × List Nat)) : Dev :=
  match d.runAt j with
  | none => d
  | some (_, s) =>
    if !s.recompute ∨ !d.flashReady then d
    else
      let parts := s.counted.map (fun c => (c, d.countedRow s flash c.1 c.2))
      let missing := (parts.filter (fun e => e.2.isNone)).map (·.1)
      if missing.isEmpty then
        let rows := parts.map (fun e =>
          let m := e.2.getD []
          (e.1.1, e.1.2, (List.range 4).map (fun u => (Map.window m (65536 * u) (65536 + 65536 * u)).map (fun b => (b.1 - 65536 * u, b.2)))))
        let d := d.onOdr fun o => { o with
          gathered := o.gathered.filter (fun g => !(g.cat == s.runCat && decide (s.stripe ≤ g.brow) && decide (g.brow < s.stripe + s.runCount))) }
        d.runRecompute j rows
      else
        missing.foldl (fun (d : Dev) c =>
          let w : Want := ⟨s.runCat, c.1, s.stripe + c.2, .recompute j c.1 c.2⟩
          if d.odr.wants.contains w then d else d.onOdr fun o => { o with wants := o.wants ++ [w] }) d

/-! ## Engines and stacks -/

/-- An engine's known-answer check ends. -/
def Dev.engineCheck (d : Dev) (e : EngineRef) (pass : Bool) : Dev :=
  match e with
  | .ldpc i => d.decoderFails i pass
  | .codec i => d.engineFails (.codec i) pass
  | .sha i => d.engineFails (.sha i) pass
  | .stripe i => d.engineFails (.stripe i) pass

/-- A stack that trains ends its training. -/
def Dev.trainingEnds (d : Dev) (n : Nat) (pass : Bool) (repaired : Nat) : Dev :=
  if d.rd (F.cstStkTrain n) ≠ 1 then d
  else
    let inj := d.injected (Pg.cstStk n) Er.cstStk_trainFail
    (d.takeInjected (Pg.cstStk n) Er.cstStk_trainFail).stackTrained n (pass && !inj) repaired

/-! ## Meanings: the drain and the engines -/

/-- DRAIN_FRAME_START (R94). -/
def execDrainFrameStart (s : State) : Host.Outcome State Fault Refusal := run s (·.drainStart)

/-- DRAIN_FRAME_END (R95–R99, R182). -/
def execDrainFrameEnd (stream pn : Nat) (s : State) : Host.Outcome State Fault Refusal :=
  run s fun d => if d.flashReady then (d.drainEnd stream pn).flashMoves else d

/-- FRAME_DURABLE (R101). -/
def execFrameDurable (stream pn : Nat) (s : State) : Host.Outcome State Fault Refusal := run s (·.frameDurable stream pn)

/-- ENGINE_KNOWN_ANSWER_CHECK (R103, R245, R300). -/
def execEngineKnownAnswerCheck (engine : EngineRef) (pass : Bool) (s : State) : Host.Outcome State Fault Refusal :=
  run s (·.engineCheck engine pass)

/-- STACK_TRAINED (R107, R109). -/
def execStackTrained (stack : Nat) (pass : Bool) (repaired : Nat) (s : State) : Host.Outcome State Fault Refusal :=
  run s fun d => (d.trainingEnds (stack % 4) pass repaired).hatPump

/-! ## Meanings: channels -/

/-- CHANNEL_TRAINED (R163–R165). -/
def execChannelTrained (ch : Nat) (pass : Bool) (probes : List CeProbe) (s : State) : Host.Outcome State Fault Refusal :=
  run s fun d => (d.channelTrained (ch % 32) pass probes).flashMoves

/-- ZQ_CAL_TIMER (R162). -/
def execZqCalTimer (ch : Nat) (s : State) : Host.Outcome State Fault Refusal := run s (·.zqCal (ch % 32))

/-- DIE_TEMP_READ (R186). -/
def execDieTempRead (ch ce lun : Nat) (temp : Int) (s : State) : Host.Outcome State Fault Refusal :=
  run s (·.dieTemp (ch % 32) ce lun temp)

/-- FLASH_PROGRAM_DONE (R192, R218–R220). -/
def execFlashProgramDone (pua : Nat) (pass : Bool) (s : State) : Host.Outcome State Fault Refusal :=
  run s fun d => (d.programEnds pua pass).flashMoves

/-- FLASH_ERASE_DONE (R193). -/
def execFlashEraseDone (row failed : Nat) (s : State) : Host.Outcome State Fault Refusal :=
  run s fun d => (d.eraseEnds row failed).flashMoves

/-- FLASH_READ_DONE (R187). -/
def execFlashReadDone (pua : Nat) (how : ReadEnd) (bad : List Nat) (s : State) : Host.Outcome State Fault Refusal :=
  run s fun d => (d.readEnds pua how.level how.tries bad).flashMoves

/-- FLASH_OP_TIMEOUT (R207). -/
def execFlashOpTimeout (pua : Nat) (s : State) : Host.Outcome State Fault Refusal := run s fun d => (d.opTimesOut pua).flashMoves

/-! ## Meanings: map, journal, garbage collection -/

/-- MAP_PAGE_LOADED (R174). -/
def execMapPageLoaded (page : Nat) (s : State) : Host.Outcome State Fault Refusal := run s fun d => (d.mapLoaded page).flashMoves

/-- MAP_PAIR_WAIT (R175). -/
def execMapPairWait (page : Nat) (s : State) : Host.Outcome State Fault Refusal := run s fun d => (d.pairWait page).flashMoves

/-- JOURNAL_FLUSH (R198): the interval has passed. -/
def execJournalFlush (s : State) : Host.Outcome State Fault Refusal :=
  run s fun d => if d.flashRuns ∧ d.rd F.sflJrnCfg ≤ d.since d.sfl.lastFlush then d.jflush.flashMoves else d

/-- CHECKPOINT_START (R199): the ring is half full. -/
def execCheckpointStart (s : State) : Host.Outcome State Fault Refusal :=
  run s fun d => if ringSize / 2 ≤ d.ringUsed then d.ckptStart.flashMoves else d

/-- CHECKPOINT_DONE (R199, R200). -/
def execCheckpointDone (s : State) : Host.Outcome State Fault Refusal :=
  run s fun d => (d.ckptDone.catWhenReady (d.rd F.sflStat)).flashMoves

/-- SFL_TIME_ADVANCE (R185). -/
def execSflTimeAdvance (s : State) : Host.Outcome State Fault Refusal := run s (·.secondPasses)

/-- GC_SOURCE_SELECT (R189). -/
def execGcSourceSelect (set : Nat) (s : State) : Host.Outcome State Fault Refusal := run s fun d => (d.gcSelect (set % 8)).flashMoves

/-- GC_UNIT_COPY (R190). -/
def execGcUnitCopy (set : Nat) (s : State) : Host.Outcome State Fault Refusal := run s fun d => (d.gcCopy (set % 8)).flashMoves

/-- ERASE_START (R191). -/
def execEraseStart (row : Nat) (s : State) : Host.Outcome State Fault Refusal := run s fun d => (d.eraseStart row).flashMoves

/-- FLASH_REBUILD (R200, R221). -/
def execFlashRebuild (ms : Nat) (lost : Unreadable) (s : State) : Host.Outcome State Fault Refusal :=
  run s fun d => ((d.flashRebuild ms lost.units lost.ring lost.roots).catWhenReady (d.rd F.sflStat)).flashMoves

/-! ## Meanings: power failure -/

/-- PWRFAIL (R202, R410, R525). -/
def execPwrfail (s : State) : Host.Outcome State Fault Refusal := run s (·.pinFails)

/-- PWRFAIL_FLASH_QUIET (R202). -/
def execPwrfailFlashQuiet (confirmed : List Nat) (s : State) : Host.Outcome State Fault Refusal := run s (·.flashQuiet confirmed)

/-- SJ_COMPLETE_AT_POWERFAIL (R228). -/
def execSjCompleteAtPowerfail (s : State) : Host.Outcome State Fault Refusal := run s (·.sjQuiet)

/-! ## Meanings: stripes, the stripe journal, rebuild, reshape, disc runs -/

/-- FILL_WAIT_EXPIRY (R218). -/
def execFillWaitExpiry (row k : Nat) (s : State) : Host.Outcome State Fault Refusal := run s fun d => (d.fillExpires row k).flashMoves

/-- SJ_SLOT_FLUSH (R222, R226). -/
def execSjSlotFlush (badA badB : Bool) (s : State) : Host.Outcome State Fault Refusal := run s fun d => (d.sjFlush badA badB).flashMoves

/-- SHADOW_PROGRAM (R225, R226). -/
def execShadowProgram (pass : Bool) (s : State) : Host.Outcome State Fault Refusal := run s fun d => (d.shadowProgram pass).flashMoves

/-- REBUILD_UNIT_MOVE (R230–R232). -/
def execRebuildUnitMove (set : Nat) (bad : List Nat) (s : State) : Host.Outcome State Fault Refusal :=
  run s fun d => if d.movesHeld then d else (d.rebuildMove (set % 8) bad).flashMoves

/-- RESHAPE_UNIT_MOVE (R240). -/
def execReshapeUnitMove (set : Nat) (s : State) : Host.Outcome State Fault Refusal :=
  run s fun d => if d.movesHeld then d else (d.reshapeMove (set % 8)).flashMoves

/-- DISC_PARITY_ADD (R236). -/
def execDiscParityAdd (slot disc x : Nat) (s : State) : Host.Outcome State Fault Refusal :=
  run s fun d => (d.parityAdd slot disc x).flashMoves

/-- RECOMPUTE (R238). -/
def execRecompute (slot : Nat) (flash : List (Nat × Nat × List Nat)) (s : State) : Host.Outcome State Fault Refusal :=
  run s fun d => (d.recomputeRun slot flash).flashMoves

/-- DISC_RUN_COVERED (R236). -/
def execDiscRunCovered (slot : Nat) (s : State) : Host.Outcome State Fault Refusal := run s fun d => (d.runDone slot).flashMoves

end Sys2Proof.Machine
end

