-- ==== Sys2Proof/Machine/Lanes.lean ====
section
/-! DEFINITION. The lane states of R64, for frame lanes 0–63 and for the head-link lanes, numbered 64 + 4n + i for lane i of drive n
(R62–R66, R280, R306, R515). -/
namespace Sys2Proof.Machine
open Sys2Proof

/-- A lane number of a frame lane or a head-link lane. -/
def laneOk (l : Nat) : Bool := decide (l < 80)

/-- Clock recovery locks: DETECT to LOCKING. -/
def Dev.cdrLock (d : Dev) (l : Nat) : Dev := if laneOk l && decide ((d.lane l).st = .detect) then d.setLaneSt l .locking else d

/-- 64 consecutive valid sync headers: LOCKING to LOCKED. -/
def Dev.syncLock (d : Dev) (l bad : Nat) : Dev :=
  let d := d.badHeaders l bad
  if laneOk l && decide ((d.lane l).st = .locking) then d.setLaneSt l .locked else d

/-- The AMs of a drive's head-link group, if every lane has one of the group's width, epoch 0 and the same marker count (R280). -/
def Dev.headAms (d : Dev) (n : Nat) : Option (List AmBlock) :=
  let lanes := d.headLanes n
  let ams := lanes.filterMap fun l => (d.lane l).am
  let good := (List.range lanes.length).all fun i => match (d.lane (lanes.getD i 0)).am with
    | some a => a.index == i && a.width == (if d.ad8 n then 1 else 2) && a.epoch == 0 && a.count == (ams.headD ⟨0, 0, 0, 0, 0, 0⟩).count
    | none => false
  if good then some ams else none

/-- An AM arrives on a head-link lane: the skew is shown, and with an AM on every lane within 160 ns the group is UP. -/
def Dev.headAm (d : Dev) (l : Nat) (am : AmBlock) : Dev :=
  let n := (l - 64) / 4
  if (d.lane l).st ≠ .locked ∧ (d.lane l).st ≠ .up then d
  else
    let d := d.onLane l fun x => { x with am := some am }
    match d.headAms n with
    | none => d
    | some ams =>
      let lanes := d.headLanes n
      let first := (ams.map (·.ns)).foldl min ((ams.map (·.ns)).headD 0)
      let d := lanes.foldl (fun (d : Dev) k => match (d.lane k).am with
        | some a => d.wr (F.hlLaneStat_skew n (k - 64 - 4 * n)) (min 255 (blocksIn (if d.ad8 n then 0 else 1) (a.ns - first)))
        | none => d) d
      let ready := lanes.all fun k => decide ((d.lane k).st = .locked) || decide ((d.lane k).st = .up)
      if ready && decide (amSkew ams ≤ 160) then lanes.foldl (fun (d : Dev) k => d.setLaneSt k .up) d else d

/-- A head-link lane leaves UP, or returns to DETECT: LINK_LOST when the group was UP (R306). -/
def Dev.headLaneTo (d : Dev) (l : Nat) (st : LaneSt) : Dev :=
  let n := (l - 64) / 4
  let was := d.headUp n
  (d.setLaneSt l st).when was (·.headLost n)

/-- 16 invalid sync headers among the last 64 blocks of an UP lane. -/
def Dev.laneLostAt (d : Dev) (l bad : Nat) : Dev :=
  if l < 64 then d.flLost l bad
  else if laneOk l && decide ((d.lane l).st = .up) then d.headLaneTo l .locking else d

/-- Clock recovery loses lock, or the signal is lost. -/
def Dev.laneSilent (d : Dev) (l bad : Nat) : Dev :=
  if l < 64 then d.flSignalLoss l bad
  else if !laneOk l then d
  else match (d.lane l).st with
    | .locking | .locked | .up => d.headLaneTo l .detect
    | _ => d

/-! ## Meanings -/

/-- LANE_CDR_LOCK (R64). -/
def execLaneCdrLock (lane : Nat) (s : State) : Host.Outcome State Fault Refusal := run s (·.cdrLock lane)

/-- LANE_SYNC_LOCK (R64). -/
def execLaneSyncLock (e : LaneEvent) (s : State) : Host.Outcome State Fault Refusal := run s (·.syncLock e.lane e.bad)

/-- AM_RECEIVED (R63, R64). -/
def execAmReceived (lane : Nat) (am : AmBlock) (s : State) : Host.Outcome State Fault Refusal :=
  run s fun d => if lane < 64 then d.flAm lane am else if laneOk lane then d.headAm lane am else d

/-- LANE_LOST (R64). -/
def execLaneLost (e : LaneEvent) (s : State) : Host.Outcome State Fault Refusal := run s (·.laneLostAt e.lane e.bad)

/-- LANE_SIGNAL_LOSS (R64). -/
def execLaneSignalLoss (e : LaneEvent) (s : State) : Host.Outcome State Fault Refusal := run s (·.laneSilent e.lane e.bad)

end Sys2Proof.Machine
end

