-- ==== Sys2Proof/Machine/Tick.lean ====
section
/-! DEFINITION. The tick boundary and the compute window (R14–R16), the timebase (R11, R12), the supplies (R57), the sensors and
throttling (R497–R499), and what each region does in a tick. -/
namespace Sys2Proof.Machine
open Sys2Proof

/-! ## The timebase (R11, R12) -/

/-- REFCLK edges in 400 ticks at the strapped frequency. -/
def Dev.refNominal (d : Dev) : Nat := if d.plat.refsel then 25000 else 10000
/-- The count lies within 500 ppm of it. -/
def Dev.refGood (d : Dev) (count : Nat) : Bool :=
  decide (((count : Int) - (d.refNominal : Int)).natAbs * 1000000 ≤ 500 * d.refNominal)

/-- REFCLK is lost: the timebase is the internal oscillator, and REF_LOST is set. -/
def Dev.refLost (d : Dev) : Dev :=
  if d.flag F.pltStat_refLost then d
  else ((d.wr F.pltStat_refLost 1).onPlat fun p => { p with okRun := 0, slewing := false }).chipEvent 12

/-- PLT_TICK_PHASE shows the phase error; it holds its value while REF_LOST = 1. -/
def Dev.showPhase (d : Dev) : Dev := if d.flag F.pltStat_refLost then d else d.wr F.pltTickPhase (unsgn 16 d.plat.phase)

/-- One tick of slew: at most 1 ns towards the reference. -/
def slew (p : Int) : Int := if 0 < p then p - 1 else if p < 0 then p + 1 else 0

/-- The check of the edge count at a boundary, and the tick's phase. -/
def Dev.refTick (d : Dev) (count : Nat) (phase : Int) : Dev :=
  let good := d.refGood count
  let d := (d.wr F.mg0Refcnt count).onPlat fun p => { p with
    okRun := (if good then p.okRun + 1 else 0)
    slewing := p.slewing && good && (decide (p.phase ≠ 0) || d.flag F.pltStat_refLost)
    phase := (if p.slewing && good then slew p.phase else phase) }
  (if good then d else d.refLost).showPhase

/-- REFCLK counts as returned after 400 good boundaries: the tick slews towards it. -/
def Dev.refReturned (d : Dev) : Dev :=
  if d.flag F.pltStat_refLost ∧ 400 ≤ d.plat.okRun ∧ !d.plat.slewing then d.onPlat fun p => { p with slewing := true } else d

/-- The phase error is below 10 ns: REF_LOST clears. -/
def Dev.slewEnds (d : Dev) : Dev :=
  if d.flag F.pltStat_refLost ∧ d.plat.slewing ∧ d.plat.phase.natAbs < 10 then ((d.wr F.pltStat_refLost 0).chipEvent 12).showPhase else d

/-- REFCLK's phase steps by `ns` while the tick follows it. -/
def Dev.phaseStep (d : Dev) (ns : Int) : Dev :=
  if d.flag F.pltStat_refLost then d else (d.onPlat fun p => { p with phase := p.phase + ns, slewing := true }).showPhase

/-! ## Supplies (R57) -/

/-- 0 OK, 1 WARN, 2 OUT, by the distance from nominal. -/
def railState (rail mv : Nat) : Nat :=
  let nom := Config.railMv rail
  let diff := ((mv : Int) - (nom : Int)).natAbs * 100
  if diff ≤ 3 * nom then 0 else if diff ≤ 5 * nom then 1 else 2

/-- What a rail monitor measured, in mV, as CAL_SUP_GAIN scales it (R426). -/
def Dev.supplyMv (d : Dev) (rail raw : Nat) : Nat := min 65535 ((raw * d.rd (F.calSupGain rail) + 16384) / 32768)

/-- A rail's reading: MV and STATE; entering WARN or OUT is an error, and event 13. -/
def Dev.railReads (d : Dev) (rail raw : Nat) : Dev :=
  if 8 ≤ rail then d
  else
    let mv := d.supplyMv rail raw
    let old := d.rd (F.pltSupV_state rail)
    let st := railState rail mv
    let d := (d.wr (F.pltSupV_mv rail) mv).wr (F.pltSupV_state rail) st
    if st = old ∨ st = 0 then d
    else (d.raise Pg.pltSup (if st = 1 then Er.pltSup_railWarn else Er.pltSup_railOut) rail).chipEvent 13

/-- The consecutive ticks that each rail was OUT. -/
def Dev.railsTick (d : Dev) : Dev :=
  d.onPlat fun p => { p with railOut := (List.range 8).map (fun i =>
    if d.rd (F.pltSupV_state i) = 2 then p.railOut.getD i 0 + 1 else 0) }

/-- A rail OUT for 4 consecutive ticks starts the sequence of PWRFAIL_N. -/
def Dev.railTimeout (d : Dev) (rail : Nat) : Dev :=
  if 4 ≤ d.plat.railOut.getD rail 0 ∧ d.plat.tp.isNone then d.powerSequence.showMot else d

/-! ## Sensors and throttling (R497–R499, R524) -/

/-- Entry thresholds of levels 1–4, and TRIP, in 1/16 °C. -/
def Dev.thermAt (d : Dev) (level : Nat) : Int :=
  let bg := d.rd F.pltThermLim_bg
  let host := d.rd F.pltThermLim_host
  (([0, bg, bg + 2, host, host + 3, d.rd F.pltThermLim_trip].getD level 0 : Nat) : Int) * 16
/-- A level whose threshold is not below the next one's is skipped. -/
def Dev.thermHas (d : Dev) (level : Nat) : Bool := decide (d.thermAt level < d.thermAt (level + 1))

/-- The sensor's reading. -/
def Dev.sensor (d : Dev) (i : Nat) : Int := sgn 16 (d.rd (F.pltThermT i))
/-- The hottest sensor, the lowest of equals. -/
def Dev.hottest (d : Dev) : Nat := (List.range 13).foldl (fun (b : Nat) i => if d.sensor b < d.sensor i then i else b) 0

/-- The highest level whose entry condition holds. -/
def Dev.thermRise (d : Dev) : Nat :=
  ([1, 2, 3, 4].filter (fun l => d.thermHas l && decide (d.thermAt l ≤ d.sensor d.hottest))).foldl max 0

/-- The level becomes `new`. -/
def Dev.thermLevel (d : Dev) (new : Nat) : Dev :=
  let old := d.rd F.pltThermStat_level
  let d := d.wr F.pltThermStat_level new
  let d := d.when (decide (old = 0)) (·.raise Pg.pltTherm Er.pltTherm_thermBg new)
  let d := d.when (decide (old < 3) && decide (3 ≤ new)) (·.raise Pg.pltTherm Er.pltTherm_thermHost new)
  (d.when (decide (0 < new)) (·.count (F.pltThermCnt (new - 1)))).chipEvent 14

/-- The level falls by one, passing over a skipped level, after 400 readings below its entry threshold minus 2 °C; once in a boundary. -/
def Dev.thermFall (d : Dev) : Dev :=
  let l := d.rd F.pltThermStat_level
  if l = 0 ∨ d.plat.fell ∨ d.plat.hot.length < 400 ∨ !d.plat.hot.all (fun t => decide (t < d.thermAt l - 32)) ∨ l ≤ d.thermRise then d
  else (d.onPlat fun p => { p with fell := true }).thermLevel (([1, 2, 3].filter (fun x => decide (x < l) && d.thermHas x)).foldl max 0)

/-- A sensor's reading is taken up at this tick: die sensors at each, stacks at every 400th, MRAM at every 40th. -/
def Dev.sensorDue (d : Dev) (i : Nat) : Bool :=
  decide (i < 8) || (decide (i < 12) && decide (d.now % 400 = 0)) || (decide (i = 12) && decide (d.now % 40 = 0))

/-- A stack's reading in 1/16 °C, as its page shows it; at 85 °C and more its refresh rate doubles (R106, R138, R524). -/
def Dev.stackReads (d : Dev) (n : Nat) (temp : Int) : Dev :=
  let hot := decide (85 * 16 ≤ temp)
  let was := d.flag (F.cstStkStat_ref2x n)
  let d := (d.wr (F.cstStkStat_temp n) (unsgn 8 (temp / 16))).wrB (F.cstStkStat_ref2x n) hot
  if hot && !was then d.raise (Pg.cstStk n) Er.cstStk_ref2x else d

/-- The sensors at a boundary: the level rises at once, or falls; TRIP is the chip safe state. -/
def Dev.thermTick (d : Dev) (temps : List Int) : Dev :=
  let d := d.onPlat fun p => { p with hot := (d.sensor d.hottest :: p.hot).take 400, fell := false }
  let d := ((List.range temps.length).zip temps).foldl (fun (d : Dev) e =>
    if e.1 < 13 ∧ d.sensorDue e.1 then
      (d.wr (F.pltThermT e.1) (unsgn 16 e.2)).when (decide (8 ≤ e.1) && decide (e.1 < 12)) (·.stackReads (e.1 - 8) e.2)
    else d) d
  let h := d.hottest
  let d := (d.wr F.pltThermStat_hottest (unsgn 8 (d.sensor h / 16))).wr F.pltThermStat_sensor h
  let trip := decide (d.thermAt 5 ≤ d.sensor h)
  let was := d.plat.tripped
  let d := d.onPlat fun p => { p with tripped := trip }
  let d := if trip && !was then ((d.raise Pg.pltTherm Er.pltTherm_thermTrip h).chipEvent 14).safeState 2 15 else d
  if d.rd F.pltThermStat_level < d.thermRise then d.thermLevel d.thermRise else d.thermFall

/-! ## The boundary -/

/-- What the sequence of R202 and the chip safe state do at a boundary (R202, R493). -/
def Dev.stopsDue (d : Dev) : Dev :=
  let d := if d.plat.tp = some d.now then (d.onSfl fun s => { s with reads := [] }).wr F.sflStat 3 else d
  if d.plat.safe ∧ d.since d.plat.safeAt = 1 then d.safeStops else d

/-- Upsets strike words of the engines' coefficient stores. -/
def Dev.upsetsIn (d : Dev) (us : List CsUpset) : Dev :=
  us.foldl (fun (d : Dev) u =>
    if u.engine < 12 ∧ u.addr < 131072 then
      d.onSrv fun s => { s with upset := Map.set 0 s.upset (131072 * u.engine + u.addr) (if u.double then 2 else 1) }
    else d) d

def SpinSample.zero : SpinSample := ⟨0, 0, 0, [], false⟩

/-- One drive in a tick: its servo, recorder, reads and spindle. -/
def Dev.driveTick (d : Dev) (n : Nat) (s : SpinSample) : Dev := ((((d.servoTick n).recTick n).ladderTick n).parkTick n).spinTick n s

/-- The next tick begins: time, commits, session events (R89), the timebase, supplies and sensors. -/
def Dev.boundary (d : Dev) (env : TickEnv) : Dev :=
  let d := d.onPlat fun p => { p with tick := p.tick + 1, evtSent := [], keysWere := [] }
  let d := ((d.shapesHeld.commitsDue d.now (fun _ => true)).mbbTick d.now).fwSwitch.showLegacy
  let d := (List.range 32).foldl (fun (d : Dev) n => d.sessionApply n) d
  let d := d.refTick env.refEdges env.phase
  let d := ((List.range env.rails.length).zip env.rails).foldl (fun (d : Dev) e => d.railReads e.1 e.2) d
  let d := (List.range 8).foldl (fun (d : Dev) i => d.railTimeout i) d.railsTick
  (d.thermTick env.temps).stopsDue

/-- TICK_BOUNDARY: the boundary, then the work of the tick. -/
def Dev.tickBegins (d : Dev) (env : TickEnv) : Dev :=
  let d := (d.boundary env).upsetsIn env.upsets
  let d := (List.range 4).foldl (fun (d : Dev) n => d.driveTick n (env.spindles.getD n SpinSample.zero)) d
  let d := (List.range 8).foldl (fun (d : Dev) m => d.axisTick m) d
  (d.diskJobs.fencedDiscs.ldrTick.calTick.issueWritebacks.tablesRetry.sjTick).flashMoves

/-! ## Meanings -/

/-- TICK_BOUNDARY (R14). -/
def execTickBoundary (env : TickEnv) (s : State) : Host.Outcome State Fault Refusal := run s (·.tickBegins env)

/-- COMPUTE_WINDOW_CLOSE (R16): the cell was not finished. -/
def execComputeWindowClose (cell : TickCell) (s : State) : Host.Outcome State Fault Refusal :=
  run s fun d => match cell with
    | .servo e loops => d.servoOverrun (e % 12) loops
    | .dtc n => d.dtcOverrun (n % 4)
    | .step m => d.stepOverrun (m % 8)
    | .tap item => d.tapOverrun item

/-- REFCLK_LOST (R11): for want of an edge for 1 µs, or by its count. -/
def execRefclkLost (noEdge : Bool) (s : State) : Host.Outcome State Fault Refusal :=
  run s fun d => if noEdge then (d.onPlat fun p => { p with okRun := 0, slewing := false }).refLost else d.refLost

/-- REFCLK_RETURNED (R12). -/
def execRefclkReturned (s : State) : Host.Outcome State Fault Refusal := run s (·.refReturned)

/-- PHASE_SLEW_END (R12). -/
def execPhaseSlewEnd (s : State) : Host.Outcome State Fault Refusal := run s (·.slewEnds)

/-- REFCLK_PHASE_STEP (R12). -/
def execRefclkPhaseStep (ns : Int) (s : State) : Host.Outcome State Fault Refusal := run s (·.phaseStep ns)

/-- RAIL_STATE_CHANGE (R57). -/
def execRailStateChange (rail mv : Nat) (s : State) : Host.Outcome State Fault Refusal := run s (·.railReads rail mv)

/-- RAIL_OUT_TIMEOUT (R57). -/
def execRailOutTimeout (rail : Nat) (s : State) : Host.Outcome State Fault Refusal := run s (·.railTimeout rail)

/-- THERMAL_LEVEL_FALL (R499). -/
def execThermalLevelFall (s : State) : Host.Outcome State Fault Refusal := run s fun d => d.thermFall.flashMoves

end Sys2Proof.Machine
end

