-- ==== Sys2Proof/Machine/Startup.lean ====
section
/-! DEFINITION. Resets, start-up and READY (R56, R483, R486, R504, R508, R509, R516–R523), and the JTAG port (R516, R527). -/
namespace Sys2Proof.Machine
open Sys2Proof

/-! ## Resets (R56, R516, R517) -/

/-- Programs confirmed to the dies end although Fradra no longer waits for them (R56, R202). -/
def Dev.confirmedEnd (d : Dev) (confirmed : List Nat) : Map FUnit :=
  (d.sfl.progs.filter (fun p => confirmed.contains p.pua)).foldl (fun (m : Map FUnit) p => Map.put m p.pua p.unit) d.sfl.units

/-- What a chip reset leaves: the MRAM, what the flash dies hold, the units that do not answer, the accepted levels of the inputs, and the
record of how the rails rose; all else is as at reset. -/
def Dev.chipReset (d : Dev) (confirmed : List Nat) : Dev :=
  let units := d.confirmedEnd confirmed
  let e : Dev := { Dev.reset with mram := d.mram, out := d.out, readVal := d.readVal, freeCtr := d.freeCtr }
  let e := e.setRaw F.pltSupSeq_first.addr (d.raw F.pltSupSeq_first.addr)
  let e := e.onPlat fun p => { p with absent := d.plat.absent, railValid := d.plat.railValid, railFirst := d.plat.railFirst }
  let e := (e.onSfl fun s => { s with units := units }).onPar fun p => { p with shadow := d.par.shadow.map fun h => { h with pending := [] } }
  e.onMot fun m => { m with level := d.mot.level.filter (fun x => x.1 != keyPwr) }

/-- The software reset is due: at Tp+21 or later once every ACTIVE channel's R/B_N reads ready, and at the latest when, after Tp+8,
twice the longest program or erase of the die types in use has passed (R56). -/
def Dev.softResetDue (d : Dev) (ready : Bool) : Bool :=
  match d.plat.softReset with
  | none => false
  | some t =>
    let used := (List.range 4).filter (fun k => (List.range 32).any (fun ch => (List.range 8).any (fun ce => d.ceReady ch ce && d.dieOf ch ce == k)))
    let us := used.foldl (fun m k => max m (max (d.rd (F.sflDieTprog k)) (d.rd (F.sflDieTbers k)))) 0
    let past := if d.since t < 2 ^ 63 then d.since t else 0
    (ready && decide (21 ≤ past)) || decide (8 + ceilDiv (4 * us) 5 < past)

/-! ## Images (R483) -/

/-- The image in a slot passes the checks of R482 for a region, its signature as start-up finds it. -/
def Dev.imageLoads (d : Dev) (sigs : List Bool) (slot r : Nat) : Bool :=
  d.fwFormOk slot && sigs.getD slot false && decide (d.mram.svnFloor ≤ d.fwSvn slot) && (d.fwRegions slot).testBit r

/-- The slots with the IFACE of the regions already loaded, highest version of the region first among those that load. -/
def Dev.fallbackSlot (d : Dev) (sigs : List Bool) (iface : Option Nat) (r : Nat) : Option Nat :=
  ((List.range 4).filter (fun s => d.imageLoads sigs s r && (match iface with
    | some i => d.fwIface s == i
    | none => true))).foldl (fun (b : Option Nat) s => match b with
    | some x => if d.fwVersion x r < d.fwVersion s r then some s else b
    | none => some s) none

/-- Each region loads its boot slot, or another that qualifies, or stays OFF. -/
def Dev.imagesLoad (d : Dev) (sigs : List Bool) : Dev :=
  ((List.range 12).foldl (fun (acc : Dev × Option Nat) r =>
    let d := acc.1
    let boot := d.mram.bootSlot.getD r 0
    let (slot, d) : Option Nat × Dev :=
      if d.imageLoads sigs boot r then (some boot, d)
      else match d.fallbackSlot sigs acc.2 r with
        | some s => (some s, (d.raise Pg.pltMram Er.pltMram_fwFallback r).wr F.pltMramStat_fallback 1)
        | none => (none, d)
    match slot with
    | some s => ((d.wr (F.pltFwReg_version r) (d.fwVersion s r)).wr (F.pltFwReg_active r) s, some (acc.2.getD (d.fwIface s)))
    | none => (((d.raise Pg.pltMram Er.pltMram_fwNone r).setUnit (r * 0x100000) .fenced).safeState 3 15, acc.2)) (d, none)).1

/-! ## What the MRAM gives back -/

/-- The registers whose values the MRAM saves (R484, R525). -/
def Dev.savedRegs (d : Dev) : Dev :=
  let d := (d.put64 F.mg3PfLo F.mg3PfHi d.mram.pfTick).wr F.mg3PfCnt d.mram.pfCount
  let d := (d.wr F.pltMramProf_next d.mram.next).wr F.sflTime d.mram.time
  let d := d.mram.keys.foldl (fun (d : Dev) e => d.wr (F.sflAesKeyid e.1) e.2.id) d
  d.mram.calRegs.foldl (fun (d : Dev) e =>
    let hi := decide (e.1 % 0x20 = 0x0C)
    (d.setRaw e.1 e.2).when hi (·.onPlat fun p => { p with hiLive := Map.set 0 p.hiLive e.1 e.2.toNat })) d

/-- Target fields take the saved results of their items (R430). -/
def Dev.savedResults (d : Dev) : Dev :=
  d.mram.calRes.foldl (fun (d : Dev) e => e.2.foldl (fun (d : Dev) x => d.wr x.reg x.value) d) d

/-- The LUNs that restored LOST slots name, and the states of their sets (R216, R233). -/
def Dev.lostRestored (d : Dev) : Dev :=
  let lost := d.par.slots.filter (fun e => decide (e.2.ty = 2) && decide (fieldAt e.2.body 3 1 ≠ 3))
  let keys (s : Slot) : List Nat :=
    let ch := fieldAt s.body 0 1
    if fieldAt s.body 1 1 = 0xFF then (List.range 64).map (64 * ch + ·) else [lunKey ch (fieldAt s.body 1 1) (fieldAt s.body 2 1)]
  let d := lost.foldl (fun (d : Dev) e => d.onSfl fun s => { s with
    lostLuns := (keys e.2).foldl (fun (m : Map Nat) k => Map.put m k e.2.seq) s.lostLuns }) d
  (List.range 8).foldl (fun (d : Dev) s =>
    let chs := uniq ((lost.filter (fun e => e.2.set == s)).map (fun e => fieldAt e.2.body 0 1))
    if chs.isEmpty || !d.setOn s then d
    else d.wr (F.parSetStat_state s) (if chs.length = 1 ∧ d.setQ s then 2 else 3)) d

/-- The PAR root's layout stands where a profile says otherwise (R241): its sets are in use, and a set of the profile whose channels
the root gives to others is not. -/
def Dev.rootApply (d : Dev) (root : List (Nat × Nat × Nat)) (sys : Nat) : Dev :=
  let mem (s : Nat) : Nat := (root.getD s (0, 0, 0)).1
  if (List.range 8).all (fun s => decide (mem s = 0)) then d
  else
    let d := (List.range 8).foldl (fun (d : Dev) s =>
      let (m, q, v) := root.getD s (0, 0, 0)
      if m ≠ 0 then
        let on := d.setOn s
        let d := ((d.wr (F.parSetMem s) m).wr (F.parSetCfg_q s) q).wr (F.parSetCfg_en s) 1
        let d := (d.wr (F.parSetVolLo s) (v % 2 ^ 32)).wr (F.parSetVolHi s) (v / 2 ^ 32)
        if on then d else (d.wr (F.parSetStat_state s) 1).tablesGrant
      else if d.setOn s ∧ (List.range 8).any (fun t => decide (mem t &&& d.rd (F.parSetMem s) ≠ 0)) then
        ((d.wr (F.parSetCfg_en s) 0).wr (F.parSetMem s) 0).wr (F.parSetStat_state s) 0
      else d) d
    (d.when (decide (sys < 8)) (·.wr F.parRegCfg sys)).parRootWrite

/-- Reshapes that RESHAPE slots name go on (R224, R239, R241): the PAR root says whether the switch was made: a build is staged again, a teardown waits for its end. -/
def Dev.shapesRestored (d : Dev) : Dev :=
  (d.par.slots.filter (fun e => decide (e.2.ty = 5))).foldl (fun (d : Dev) e =>
    let n := e.2.set % 8
    let t := fieldAt e.2.body 0 1 % 8
    let built := decide (fieldAt e.2.body 1 1 ≠ 1) || decide (d.mram.parShapes.getD n 0 = 2)
    let d := d.onPar fun p => { p with shapes := Map.put p.shapes n t }
    let d := ((d.wr (F.parSetStat_reshape n) (if built then 3 else 1)).wr (F.parSetStat_reshape t) (if built then 0 else 2)).when built
      fun d => (d.wr (F.parSetCfg_en n) 1).wr (F.parSetStat_state n) 1
    let p := Pg.parSet n
    (d.addStaged ⟨p, 0, 0, 0, d.now, Map.window d.force p (4096 + p), if built then .teardown d.now else .build none⟩).commitState p 1) d

/-! ## The profile (R486) -/

/-- The profile to apply: NEXT, or the valid one with the lowest number. -/
def Dev.startProfile (d : Dev) : Option Nat :=
  if d.profValid d.mram.next then some d.mram.next else (List.range 8).find? (d.profValid ·)

/-- One record: a host write, and a commit where it says so, which takes effect before the next record. -/
def Dev.profApply (d : Dev) (x : Nat × Bool × Nat) : Dev :=
  let d := d.write32 x.1 x.2.2 0
  if x.2.1 then ((d.write32 (pageOf x.1 + 0x20) 0xC0 0).commitsDue (d.now + 1) (fun _ => true)) else d

/-- Profile NEXT, or its fallback, is applied. -/
def Dev.profileLoads (d : Dev) : Dev :=
  let p := d.startProfile
  let d := if p = some d.mram.next then d
    else (d.raise Pg.pltMram Er.pltMram_profileBad d.mram.next).when p.isSome (·.wr F.pltMramStat_fallback 1)
  match p with
  | none => d
  | some p =>
    let d := ((d.wr F.pltMramProf_valid 1).wr F.pltMramProf_active p).wr F.pltStat_profile 1
    let arm := leNat (d.profBytes p 12 4)
    let d := (List.range 32).foldl (fun (d : Dev) n => d.wrB (F.ingSesCfg_autoArm n) (arm.testBit n)) d
    (List.range (d.profCount p)).foldl (fun (d : Dev) i => d.profApply (d.profRec p i)) d

/-! ## Start-up (R519) -/

/-- Straps, time, and the reference (R9, R11, R504). -/
def Dev.strapsLatch (d : Dev) (x : StartIn) : Dev :=
  let d := d.onPlat fun p => { p with
    jdmsel := x.jdmsel, refsel := x.refsel, testEn := x.testEn, perst := x.perst, railValid := List.replicate 8 true, tick := 0 }
  let d := (d.wrB F.pltStat_jdmsel x.jdmsel).wrB F.pltStat_refsel x.refsel
  let d := (List.range 4).foldl (fun (d : Dev) n => d.wrB (F.drvCtrl_jdmCompat n) x.jdmsel) d
  let cold := !d.flag F.pltRstCause_pin && !d.flag F.pltRstCause_soft
  d.when cold fun d => (d.wr F.pltRstCause_power 1).mramPut 1 fun m => { m with powerOns := satInc 32 m.powerOns }

/-- Stacks train, the stripe journal is restored, the roots are read (R107, R200, R227). -/
def Dev.storesStart (d : Dev) (x : StartIn) : Dev :=
  let d := (List.range 4).foldl (fun (d : Dev) n =>
    let (pass, repaired) := x.stk.getD n (false, 0)
    (d.wr (F.cstStkTrain n) 1).stackTrained n pass repaired) d
  let d := (d.sjRestore x.banks).showRing
  let d := match d.par.shadow with
    | some h => ((d.wrB F.parSjStat_shadowOk true).wr F.parSjStat_sch h.ch).wr F.parSjSnap (((h.blocks.getD h.current []).getLast?.map ShadowUnit.snap).getD 0)
    | none => d
  (d.wr F.sflStat 1).showRuns

/-- The steps of R519 from the reference to the calibrations of start-up. -/
def Dev.startWork (d : Dev) (x : StartIn) : Dev :=
  let d := d.when (!x.refOk) (·.refLost)
  let d := d.when x.estop fun d => (d.setLevel keyEstop true).estop
  let d := ((d.wr F.pltMramStat_ready 1).wr F.pltMramStat_keysOk 1).savedRegs
  let d := (d.imagesLoad x.sigs).storesStart x
  let d := (List.range 4).foldl (fun (d : Dev) n => d.rolesAtStart n (fun e => x.engines.getD e false)) d
  let (root, sys) := (d.mram.parRoot, d.mram.parSys)
  let d := (d.profileLoads.commitsDue (d.now + 1) (fun _ => true)).rootApply root sys
  let d := d.lostRestored.shapesRestored.savedResults
  let d := (List.range 9).foldl (fun (d : Dev) i => d.calQueue i 0 0) d
  (List.range 4).foldl (fun (d : Dev) n => d.calQueue (16 + 16 * n + 1) 0 0) d

/-- The steps of R519 up to READY; in test mode, none. -/
def Dev.startUp (d : Dev) (x : StartIn) : Dev :=
  if d.plat.boot ≠ .reset then d
  else if x.testEn then (d.strapsLatch x).onPlat fun p => { p with boot := .test }
  else ((d.strapsLatch x).onPlat fun p => { p with boot := .starting }).startWork x

/-! ## READY (R519, R520) -/

/-- A drive named in SPIN is enabled, and the disc that its pending record names is spun up (R486). -/
def Dev.spinNamed (d : Dev) (n : Nat) : Dev :=
  let d := d.when (decide (d.unitAt (Pg.odrDrv n) = .off)) (·.unitOn (Pg.odrDrv n))
  let p := d.pendRec n
  if 11 < p.disc then d
  else
    let d := ((d.wr (F.drvStat_state n) 2).wr (F.drvStat_disc n) p.disc).onDrive n fun v => { v with disc := some (blankDisc (d.ad8 n)) }
    d.spinUp n

/-- READY: sessions of AUTO_ARM are armed, drives of SPIN are enabled. A power failure before READY stops start-up (R523); in the chip
safe state nothing is armed or enabled (R522). -/
def Dev.becomesReady (d : Dev) (us10 : Nat) : Dev :=
  if d.plat.boot ≠ .starting ∨ d.plat.pfPin ∨ d.plat.softReset.isSome then d
  else
    let d := ((d.onPlat fun p => { p with boot := .ready }).wr F.pltStat_ready 1).wr F.mg0Start us10
    match d.activeProf with
    | none => d
    | some p =>
      if d.plat.safe then d
      else
        let d := ((List.range 32).filter (leNat (d.profBytes p 12 4)).testBit).foldl (fun (d : Dev) s => d.sesEvent s .arm) d
        ((List.range 4).filter (leNat (d.profBytes p 16 1)).testBit).foldl (fun (d : Dev) n => d.spinNamed n) d

/-! ## Rails (R508, R509) -/

/-- A rail becomes valid, `tenths` of 0.1 ms after the first did. -/
def Dev.railUp (d : Dev) (rail tenths : Nat) : Dev :=
  if 8 ≤ rail ∨ d.plat.railValid.getD rail true then d
  else
    let first := d.plat.railFirst.isNone
    let spread := if first then 0 else tenths
    let d := d.onPlat fun p => { p with railValid := p.railValid.set rail true, railFirst := some (p.railFirst.getD rail) }
    let d := d.when first (·.wr F.pltSupSeq_first rail)
    ((d.wr F.pltSupSeq_last rail).wr F.pltSupSeq_spread (min 0xFFFF spread)).wrB F.pltSupSeq_skew (decide (500 < spread))

/-! ## The JTAG port (R527) -/

/-- An instruction enters the TAP; one that drives or samples pins is BYPASS while TEST_EN is low. IDCODE's register is read out, and
BYPASS's 0. -/
def Dev.tapTakes (d : Dev) (i : TapInstr) : Dev :=
  let i := if i = .pins ∧ !d.plat.testEn then TapInstr.bypass else i
  let d := d.onPlat fun p => { p with tap := i }
  match i with
  | .idcode => d.answer (resetVal F.mg2Idcode.addr).toNat
  | .bypass => d.answer 0
  | _ => d

/-! ## Meanings -/

/-- RAIL_VALID (R508, R509). -/
def execRailValid (rail tenths : Nat) (s : State) : Host.Outcome State Fault Refusal := run s (·.railUp rail tenths)

/-- RESET_N_ASSERT (R517); `confirmed` are the programs in progress that are confirmed to their dies. -/
def execResetNAssert (confirmed : List Nat) (s : State) : Host.Outcome State Fault Refusal :=
  run s fun d => (d.chipReset confirmed).wr F.pltRstCause_pin 1

/-- SOFT_RESET_TAKES_EFFECT (R56). -/
def execSoftResetTakesEffect (ready : Bool) (s : State) : Host.Outcome State Fault Refusal :=
  run s fun d => if d.softResetDue ready then (((d.flashQuiet []).sjQuiet).chipReset []).wr F.pltRstCause_soft 1 else d

/-- STARTUP (R519). -/
def execStartup (x : StartIn) (s : State) : Host.Outcome State Fault Refusal := run s (·.startUp x)

/-- READY (R520). -/
def execReady (us10 : Nat) (s : State) : Host.Outcome State Fault Refusal := run s (·.becomesReady us10)

/-- PERST_N_RELEASE (R521). -/
def execPerstNRelease (s : State) : Host.Outcome State Fault Refusal := run s (·.onPlat fun p => { p with perst := true })

/-- JTAG_RESET (R516). -/
def execJtagReset (s : State) : Host.Outcome State Fault Refusal := run s (·.onPlat fun p => { p with tap := .idcode })

/-- TAP_INSTRUCTION (R527). -/
def execTapInstruction (i : TapInstr) (s : State) : Host.Outcome State Fault Refusal := run s (·.tapTakes i)

end Sys2Proof.Machine
end

