-- ==== Sys2Proof/Machine/Dispatch.lean ====
section
/-! DEFINITION. The meaning of each command: one arm per row of the opcode table. -/
namespace Sys2Proof.Machine
open Sys2Proof

def exec (i : Instr) (s : State) : Host.Outcome State Fault Refusal :=
  match i with
  | .tickBoundary env => Sys2Proof.Machine.execTickBoundary env s
  | .computeWindowClose cell => Sys2Proof.Machine.execComputeWindowClose cell s
  | .outputDispatch faults => Sys2Proof.Machine.execOutputDispatch faults s
  | .selfCheckVerdict drive pass => Sys2Proof.Machine.execSelfCheckVerdict drive pass s
  | .refclkLost noEdge => Sys2Proof.Machine.execRefclkLost noEdge s
  | .refclkReturned => Sys2Proof.Machine.execRefclkReturned s
  | .phaseSlewEnd => Sys2Proof.Machine.execPhaseSlewEnd s
  | .refclkPhaseStep ns => Sys2Proof.Machine.execRefclkPhaseStep ns s
  | .class3Promotion waited => Sys2Proof.Machine.execClass3Promotion waited s
  | .registerWrite a => Sys2Proof.Machine.execRegisterWrite a s
  | .readClearRead r => Sys2Proof.Machine.execReadClearRead r s
  | .pltTickLoRead => Sys2Proof.Machine.execPltTickLoRead s
  | .latchedLoRead r => Sys2Proof.Machine.execLatchedLoRead r s
  | .errorInject page value => Sys2Proof.Machine.execErrorInject page value s
  | .fenceConfirm unit => Sys2Proof.Machine.execFenceConfirm unit s
  | .fenceTimeout unit => Sys2Proof.Machine.execFenceTimeout unit s
  | .pgCommitKey page ns => Sys2Proof.Machine.execPgCommitKey page ns s
  | .pgCommitCancel page ns => Sys2Proof.Machine.execPgCommitCancel page ns s
  | .groupCommit group ns => Sys2Proof.Machine.execGroupCommit group ns s
  | .groupCancel group ns => Sys2Proof.Machine.execGroupCancel group ns s
  | .commitApply page => Sys2Proof.Machine.execCommitApply page s
  | .mbbBuildComplete page ns => Sys2Proof.Machine.execMbbBuildComplete page ns s
  | .mbbSwitch page => Sys2Proof.Machine.execMbbSwitch page s
  | .mbbBuildFail page => Sys2Proof.Machine.execMbbBuildFail page s
  | .mbbTeardownDone page => Sys2Proof.Machine.execMbbTeardownDone page s
  | .unitEnable page present => Sys2Proof.Machine.execUnitEnable page present s
  | .unitDisable page => Sys2Proof.Machine.execUnitDisable page s
  | .unitQuiesce page => Sys2Proof.Machine.execUnitQuiesce page s
  | .unitResume page => Sys2Proof.Machine.execUnitResume page s
  | .unitIsolate page => Sys2Proof.Machine.execUnitIsolate page s
  | .unitDeisolate page present => Sys2Proof.Machine.execUnitDeisolate page present s
  | .quiesceComplete page => Sys2Proof.Machine.execQuiesceComplete page s
  | .quiesceTimeout page => Sys2Proof.Machine.execQuiesceTimeout page s
  | .jdmCompatWrite drive on => Sys2Proof.Machine.execJdmCompatWrite drive on s
  | .fwImageLoaded => Sys2Proof.Machine.execFwImageLoaded s
  | .fwQuiesceReached => Sys2Proof.Machine.execFwQuiesceReached s
  | .fwActivationAbandon => Sys2Proof.Machine.execFwActivationAbandon s
  | .pltRstCtrlChip => Sys2Proof.Machine.execPltRstCtrlChip s
  | .softResetTakesEffect ready => Sys2Proof.Machine.execSoftResetTakesEffect ready s
  | .railStateChange rail mv => Sys2Proof.Machine.execRailStateChange rail mv s
  | .railOutTimeout rail => Sys2Proof.Machine.execRailOutTimeout rail s
  | .laneCdrLock lane => Sys2Proof.Machine.execLaneCdrLock lane s
  | .laneSyncLock e => Sys2Proof.Machine.execLaneSyncLock e s
  | .amReceived lane am => Sys2Proof.Machine.execAmReceived lane am s
  | .laneLost e => Sys2Proof.Machine.execLaneLost e s
  | .laneSignalLoss e => Sys2Proof.Machine.execLaneSignalLoss e s
  | .podReceived pod => Sys2Proof.Machine.execPodReceived pod s
  | .podPayloadWritten stream path seq => Sys2Proof.Machine.execPodPayloadWritten stream path seq s
  | .creditPodPeriodic stream path => Sys2Proof.Machine.execCreditPodPeriodic stream path s
  | .pairingTimeout stream seq => Sys2Proof.Machine.execPairingTimeout stream seq s
  | .frameComplete stream pn => Sys2Proof.Machine.execFrameComplete stream pn s
  | .timeout stream pn => Sys2Proof.Machine.execTimeout stream pn s
  | .sesCtrlArm session => Sys2Proof.Machine.execSesCtrlArm session s
  | .sesCtrlTrigger session ns => Sys2Proof.Machine.execSesCtrlTrigger session ns s
  | .sesCtrlStop session => Sys2Proof.Machine.execSesCtrlStop session s
  | .sesCtrlDisarm session => Sys2Proof.Machine.execSesCtrlDisarm session s
  | .trgEdge input sub rise => Sys2Proof.Machine.execTrgEdge input sub rise s
  | .sessionStateApply session => Sys2Proof.Machine.execSessionStateApply session s
  | .postExpiry session => Sys2Proof.Machine.execPostExpiry session s
  | .takeSealed session => Sys2Proof.Machine.execTakeSealed session s
  | .ltcFrameDecoded tc rate sub => Sys2Proof.Machine.execLtcFrameDecoded tc rate sub s
  | .ltcLoss => Sys2Proof.Machine.execLtcLoss s
  | .drainFrameStart => Sys2Proof.Machine.execDrainFrameStart s
  | .drainFrameEnd stream pn => Sys2Proof.Machine.execDrainFrameEnd stream pn s
  | .frameDurable stream pn => Sys2Proof.Machine.execFrameDurable stream pn s
  | .engineKnownAnswerCheck engine pass => Sys2Proof.Machine.execEngineKnownAnswerCheck engine pass s
  | .stackTrained stack pass repaired => Sys2Proof.Machine.execStackTrained stack pass repaired s
  | .storeRead rd => Sys2Proof.Machine.execStoreRead rd s
  | .storeWrite wr => Sys2Proof.Machine.execStoreWrite wr s
  | .zeroFillDone granule => Sys2Proof.Machine.execZeroFillDone granule s
  | .narrowWrite wr => Sys2Proof.Machine.execNarrowWrite wr s
  | .mergeClose rd => Sys2Proof.Machine.execMergeClose rd s
  | .scrubTick faults => Sys2Proof.Machine.execScrubTick faults s
  | .bpmGrant pool reqs => Sys2Proof.Machine.execBpmGrant pool reqs s
  | .bpmFree owner buf => Sys2Proof.Machine.execBpmFree owner buf s
  | .freeComplete index => Sys2Proof.Machine.execFreeComplete index s
  | .bpmRelease owner buf => Sys2Proof.Machine.execBpmRelease owner buf s
  | .bpmShare owner buf mask last => Sys2Proof.Machine.execBpmShare owner buf mask last s
  | .bpmTransfer owner buf target => Sys2Proof.Machine.execBpmTransfer owner buf target s
  | .bpmHostwSet owner buf => Sys2Proof.Machine.execBpmHostwSet owner buf s
  | .bpmHostwClr owner buf => Sys2Proof.Machine.execBpmHostwClr owner buf s
  | .cacheRead acc => Sys2Proof.Machine.execCacheRead acc s
  | .cacheWrite acc => Sys2Proof.Machine.execCacheWrite acc s
  | .cacheFillDone rd => Sys2Proof.Machine.execCacheFillDone rd s
  | .prefetchArrival rd => Sys2Proof.Machine.execPrefetchArrival rd s
  | .writebackAck addr => Sys2Proof.Machine.execWritebackAck addr s
  | .mergeBufDrain addr => Sys2Proof.Machine.execMergeBufDrain addr s
  | .forwardedWrite wr => Sys2Proof.Machine.execForwardedWrite wr s
  | .mcClean addr count => Sys2Proof.Machine.execMcClean addr count s
  | .mcInv addr count => Sys2Proof.Machine.execMcInv addr count s
  | .mcDiscard addr count => Sys2Proof.Machine.execMcDiscard addr count s
  | .channelTrained ch pass probes => Sys2Proof.Machine.execChannelTrained ch pass probes s
  | .zqCalTimer ch => Sys2Proof.Machine.execZqCalTimer ch s
  | .dieTempRead ch ce lun temp => Sys2Proof.Machine.execDieTempRead ch ce lun temp s
  | .flashProgramDone pua pass => Sys2Proof.Machine.execFlashProgramDone pua pass s
  | .flashEraseDone row failed => Sys2Proof.Machine.execFlashEraseDone row failed s
  | .flashReadDone pua how bad => Sys2Proof.Machine.execFlashReadDone pua how bad s
  | .flashOpTimeout pua => Sys2Proof.Machine.execFlashOpTimeout pua s
  | .mapPageLoaded page => Sys2Proof.Machine.execMapPageLoaded page s
  | .mapPairWait page => Sys2Proof.Machine.execMapPairWait page s
  | .journalFlush => Sys2Proof.Machine.execJournalFlush s
  | .sflJrnFlush value => Sys2Proof.Machine.execSflJrnFlush value s
  | .sflJrnCkpt value => Sys2Proof.Machine.execSflJrnCkpt value s
  | .checkpointStart => Sys2Proof.Machine.execCheckpointStart s
  | .checkpointDone => Sys2Proof.Machine.execCheckpointDone s
  | .sflTimeAdvance => Sys2Proof.Machine.execSflTimeAdvance s
  | .sflTimeWrite value => Sys2Proof.Machine.execSflTimeWrite value s
  | .gcSourceSelect set => Sys2Proof.Machine.execGcSourceSelect set s
  | .gcUnitCopy set => Sys2Proof.Machine.execGcUnitCopy set s
  | .eraseStart row => Sys2Proof.Machine.execEraseStart row s
  | .flashRebuild ms lost => Sys2Proof.Machine.execFlashRebuild ms lost s
  | .pwrfail => Sys2Proof.Machine.execPwrfail s
  | .pwrfailFlashQuiet confirmed => Sys2Proof.Machine.execPwrfailFlashQuiet confirmed s
  | .sjCompleteAtPowerfail => Sys2Proof.Machine.execSjCompleteAtPowerfail s
  | .fillWaitExpiry row k => Sys2Proof.Machine.execFillWaitExpiry row k s
  | .sjSlotFlush badA badB => Sys2Proof.Machine.execSjSlotFlush badA badB s
  | .shadowProgram pass => Sys2Proof.Machine.execShadowProgram pass s
  | .rebuildUnitMove set bad => Sys2Proof.Machine.execRebuildUnitMove set bad s
  | .reshapeUnitMove set => Sys2Proof.Machine.execReshapeUnitMove set s
  | .discParityAdd slot disc x => Sys2Proof.Machine.execDiscParityAdd slot disc x s
  | .recompute slot flash => Sys2Proof.Machine.execRecompute slot flash s
  | .discRunCovered slot => Sys2Proof.Machine.execDiscRunCovered slot s
  | .discIdentify drive lead => Sys2Proof.Machine.execDiscIdentify drive lead s
  | .discUnload drive => Sys2Proof.Machine.execDiscUnload drive s
  | .ldrInventory => Sys2Proof.Machine.execLdrInventory s
  | .ldrHome => Sys2Proof.Machine.execLdrHome s
  | .loaderStepDone => Sys2Proof.Machine.execLoaderStepDone s
  | .loaderStepTimeout => Sys2Proof.Machine.execLoaderStepTimeout s
  | .sampleFrame input => Sys2Proof.Machine.execSampleFrame input s
  | .servoFrame frame => Sys2Proof.Machine.execServoFrame frame s
  | .statusFrame frame => Sys2Proof.Machine.execStatusFrame frame s
  | .ldpcDecodeStart decoder => Sys2Proof.Machine.execLdpcDecodeStart decoder s
  | .ldpcDecodeDone decoder => Sys2Proof.Machine.execLdpcDecodeDone decoder s
  | .recoveryLevelStart drive brow => Sys2Proof.Machine.execRecoveryLevelStart drive brow s
  | .bandrowCommit commit => Sys2Proof.Machine.execBandrowCommit commit s
  | .shockInput drive ns => Sys2Proof.Machine.execShockInput drive ns s
  | .reallocRecord commit => Sys2Proof.Machine.execReallocRecord commit s
  | .focusConfirmed drive => Sys2Proof.Machine.execFocusConfirmed drive s
  | .focusSweepEnd drive => Sys2Proof.Machine.execFocusSweepEnd drive s
  | .focusLost drive => Sys2Proof.Machine.execFocusLost drive s
  | .jumpKickEnd drive => Sys2Proof.Machine.execJumpKickEnd drive s
  | .jumpBrakeEnd drive => Sys2Proof.Machine.execJumpBrakeEnd drive s
  | .jumpFail drive => Sys2Proof.Machine.execJumpFail drive s
  | .seekTrajectoryEnd drive => Sys2Proof.Machine.execSeekTrajectoryEnd drive s
  | .settleComplete drive => Sys2Proof.Machine.execSettleComplete drive s
  | .seekFail drive => Sys2Proof.Machine.execSeekFail drive s
  | .retractComplete drive => Sys2Proof.Machine.execRetractComplete drive s
  | .servoStale drive => Sys2Proof.Machine.execServoStale drive s
  | .deadline drive loop => Sys2Proof.Machine.execDeadline drive loop s
  | .srvCsDataWrite drive value => Sys2Proof.Machine.execSrvCsDataWrite drive value s
  | .srvCsDataRead drive => Sys2Proof.Machine.execSrvCsDataRead drive s
  | .seedBringupDone engine unreadable => Sys2Proof.Machine.execSeedBringupDone engine unreadable s
  | .sproutDue drive => Sys2Proof.Machine.execSproutDue drive s
  | .srvRedCtrlSprout value => Sys2Proof.Machine.execSrvRedCtrlSprout value s
  | .sproutStart drive => Sys2Proof.Machine.execSproutStart drive s
  | .sproutSwitch drive => Sys2Proof.Machine.execSproutSwitch drive s
  | .selftestDone engine pass => Sys2Proof.Machine.execSelftestDone engine pass s
  | .spinUpRequest drive => Sys2Proof.Machine.execSpinUpRequest drive s
  | .spindleMeasurementDone drive meas => Sys2Proof.Machine.execSpindleMeasurementDone drive meas s
  | .alignmentDone drive peaks along against => Sys2Proof.Machine.execAlignmentDone drive peaks along against s
  | .syncConfirmed drive => Sys2Proof.Machine.execSyncConfirmed drive s
  | .atSpeedReached drive => Sys2Proof.Machine.execAtSpeedReached drive s
  | .obsLost drive => Sys2Proof.Machine.execObsLost drive s
  | .recatchFail drive => Sys2Proof.Machine.execRecatchFail drive s
  | .startFail drive => Sys2Proof.Machine.execStartFail drive s
  | .controlledStop drive => Sys2Proof.Machine.execControlledStop drive s
  | .standstill drive => Sys2Proof.Machine.execStandstill drive s
  | .stopFail drive => Sys2Proof.Machine.execStopFail drive s
  | .overcurrent drive => Sys2Proof.Machine.execOvercurrent drive s
  | .dcLow drive => Sys2Proof.Machine.execDcLow drive s
  | .stepTimerExpiry axis => Sys2Proof.Machine.execStepTimerExpiry axis s
  | .holdCurrentTimer axis => Sys2Proof.Machine.execHoldCurrentTimer axis s
  | .chopperComparator axis phase since ty tr tx tf => Sys2Proof.Machine.execChopperComparator axis phase since ty tr tx tf s
  | .stCmdMove axis => Sys2Proof.Machine.execStCmdMove axis s
  | .stCmdHome axis => Sys2Proof.Machine.execStCmdHome axis s
  | .stCmdStop axis => Sys2Proof.Machine.execStCmdStop axis s
  | .stCmdPark axis => Sys2Proof.Machine.execStCmdPark axis s
  | .homeInput axis on => Sys2Proof.Machine.execHomeInput axis on s
  | .homeFail axis => Sys2Proof.Machine.execHomeFail axis s
  | .limitInput axis side on => Sys2Proof.Machine.execLimitInput axis side on s
  | .estop => Sys2Proof.Machine.execEstop s
  | .motCtrlEstopClr value => Sys2Proof.Machine.execMotCtrlEstopClr value s
  | .chatter key => Sys2Proof.Machine.execChatter key s
  | .chatterClear key level => Sys2Proof.Machine.execChatterClear key level s
  | .inStuck drive => Sys2Proof.Machine.execInStuck drive s
  | .genlockEdge rise sub => Sys2Proof.Machine.execGenlockEdge rise sub s
  | .calRun value => Sys2Proof.Machine.execCalRun value s
  | .calRunAbort value => Sys2Proof.Machine.execCalRunAbort value s
  | .calMeasureStart item => Sys2Proof.Machine.execCalMeasureStart item s
  | .calMeasureDone item vals => Sys2Proof.Machine.execCalMeasureDone item vals s
  | .vrefcalCheck mv => Sys2Proof.Machine.execVrefcalCheck mv s
  | .cxlMemRead rd => Sys2Proof.Machine.execCxlMemRead rd s
  | .cxlMemWrite wr => Sys2Proof.Machine.execCxlMemWrite wr s
  | .cxlMemSpecRead addr => Sys2Proof.Machine.execCxlMemSpecRead addr s
  | .cxlMemInv addr => Sys2Proof.Machine.execCxlMemInv addr s
  | .hdmDecoderCommit index first end_ => Sys2Proof.Machine.execHdmDecoderCommit index first end_ s
  | .capsuleSlotWrite queue offset bytes => Sys2Proof.Machine.execCapsuleSlotWrite queue offset bytes s
  | .hatSqdb queue tail => Sys2Proof.Machine.execHatSqdb queue tail s
  | .hatRhdb queue head => Sys2Proof.Machine.execHatRhdb queue head s
  | .msixAggTimer queue => Sys2Proof.Machine.execMsixAggTimer queue s
  | .hatAqEnable value => Sys2Proof.Machine.execHatAqEnable value s
  | .hatAqDisable value => Sys2Proof.Machine.execHatAqDisable value s
  | .write queue cid => Sys2Proof.Machine.execWrite queue cid s
  | .read queue cid => Sys2Proof.Machine.execRead queue cid s
  | .flush queue cid => Sys2Proof.Machine.execFlush queue cid s
  | .frameRead queue cid => Sys2Proof.Machine.execFrameRead queue cid s
  | .rangeRelease queue cid => Sys2Proof.Machine.execRangeRelease queue cid s
  | .migrate queue cid => Sys2Proof.Machine.execMigrate queue cid s
  | .verify queue cid => Sys2Proof.Machine.execVerify queue cid s
  | .mountShell queue cid => Sys2Proof.Machine.execMountShell queue cid s
  | .ejectShell queue cid => Sys2Proof.Machine.execEjectShell queue cid s
  | .arm queue cid => Sys2Proof.Machine.execArm queue cid s
  | .trigger queue cid ns => Sys2Proof.Machine.execTrigger queue cid ns s
  | .stop queue cid => Sys2Proof.Machine.execStop queue cid s
  | .dataDone queue cid xid => Sys2Proof.Machine.execDataDone queue cid xid s
  | .release queue cid xid => Sys2Proof.Machine.execRelease queue cid xid s
  | .rangeLockGranted queue cid => Sys2Proof.Machine.execRangeLockGranted queue cid s
  | .queueCreate cid => Sys2Proof.Machine.execQueueCreate cid s
  | .queueDelete cid => Sys2Proof.Machine.execQueueDelete cid s
  | .queueReset cid => Sys2Proof.Machine.execQueueReset cid s
  | .queueResetDone queue => Sys2Proof.Machine.execQueueResetDone queue s
  | .flr => Sys2Proof.Machine.execFlr s
  | .linkDown => Sys2Proof.Machine.execLinkDown s
  | .linkTrained mode rate width => Sys2Proof.Machine.execLinkTrained mode rate width s
  | .conventionalReset => Sys2Proof.Machine.execConventionalReset s
  | .identifyMemoryDevice => Sys2Proof.Machine.execIdentifyMemoryDevice s
  | .getHealthInfo => Sys2Proof.Machine.execGetHealthInfo s
  | .getPoisonList => Sys2Proof.Machine.execGetPoisonList s
  | .getLsa offset length => Sys2Proof.Machine.execGetLsa offset length s
  | .setLsa offset bytes => Sys2Proof.Machine.execSetLsa offset bytes s
  | .getFwInfo => Sys2Proof.Machine.execGetFwInfo s
  | .transferFw => Sys2Proof.Machine.execTransferFw s
  | .activateFw => Sys2Proof.Machine.execActivateFw s
  | .identify cid => Sys2Proof.Machine.execIdentify cid s
  | .getLog cid => Sys2Proof.Machine.execGetLog cid s
  | .setFeature cid => Sys2Proof.Machine.execSetFeature cid s
  | .getFeature cid => Sys2Proof.Machine.execGetFeature cid s
  | .fwDownload cid => Sys2Proof.Machine.execFwDownload cid s
  | .fwCommit cid => Sys2Proof.Machine.execFwCommit cid s
  | .keyLoad cid => Sys2Proof.Machine.execKeyLoad cid s
  | .profileNextWrite value => Sys2Proof.Machine.execProfileNextWrite value s
  | .thermalLevelFall => Sys2Proof.Machine.execThermalLevelFall s
  | .railValid rail tenths => Sys2Proof.Machine.execRailValid rail tenths s
  | .resetNAssert confirmed => Sys2Proof.Machine.execResetNAssert confirmed s
  | .startup x => Sys2Proof.Machine.execStartup x s
  | .ready us10 => Sys2Proof.Machine.execReady us10 s
  | .jtagReset => Sys2Proof.Machine.execJtagReset s
  | .perstNRelease => Sys2Proof.Machine.execPerstNRelease s
  | .fwCommitCheckEnd cid => Sys2Proof.Machine.execFwCommitCheckEnd cid s
  | .ringFull queue => Sys2Proof.Machine.execRingFull queue s
  | .estopNRelease => Sys2Proof.Machine.execEstopNRelease s
  | .shockRelease drive => Sys2Proof.Machine.execShockRelease drive s
  | .d3hotTransition on => Sys2Proof.Machine.execD3hotTransition on s
  | .getEventRecords => Sys2Proof.Machine.execGetEventRecords s
  | .tapInstruction instr => Sys2Proof.Machine.execTapInstruction instr s

end Sys2Proof.Machine
end

