-- ==== Sys2Proof/Safety.lean ====
section
/-! DEFINITION. What a safe run is, and the words in which the statements speak: what a command's completion is, which error bits and event
causes show, which fields error reporting does not touch, and what every step keeps. -/
namespace Sys2Proof.Machine
open Sys2Proof

/-- The step from `s` answers a next state. -/
def advances (s : State) : Prop := ∃ t, step s = .next t

/-- The command answers a next state in which the queue is as it was and the device satisfies `Q`. -/
def completes (c : Instr) (s : State) (Q : Dev → Prop) : Prop := ∃ e, exec c s = .next { s with dev := e } ∧ Q e

/-- PG_ERR bit `bit` of a page is set. -/
def Dev.errorShows (d : Dev) (page bit : Nat) : Prop := (d.raw (pageOf page + 0x10)).toNat.testBit bit = true

/-- PG_CNT_ERR of a page. -/
def Dev.ignoredCount (d : Dev) (page : Nat) : Nat := (d.raw (pageOf page + 0x2C)).toNat

/-- PLT_EVT_CAUSE shows event `e`. -/
def Dev.causeShows (d : Dev) (e : Nat) : Prop := (d.raw F.pltEvtCause.addr).toNat.testBit e = true

/-- A field that reporting an error does not touch: no header register, no event register, no MRAM word count, no pending bit of MSI-X. -/
abbrev RegField.steady (f : RegField) : Prop :=
  256 ≤ f.addr % 4096 ∧ f.addr ≠ 0x8140 ∧ f.addr ≠ 0x8144 ∧ f.addr ≠ 0x9148 ∧ (f.addr < 0x103C00 ∨ 0x104000 ≤ f.addr)

/-- The records of the regions are the same: only registers, the platform's record, the MRAM and what is sent may differ. -/
def Dev.sameRegions (d e : Dev) : Prop :=
  e.cst = d.cst ∧ e.bpm = d.bpm ∧ e.mc = d.mc ∧ e.ing = d.ing ∧ e.sfl = d.sfl ∧ e.par = d.par ∧ e.hat = d.hat ∧ e.odr = d.odr ∧
    e.srv = d.srv ∧ e.mot = d.mot ∧ e.cal = d.cal

/-- The command that queue `q` and `cid` name is `c`, of opcode `op`, alone under its arrival number; it may begin, and the chip is not in the
safe state (R448, R494). -/
def Dev.readyFor (d : Dev) (q cid op : Nat) (c : Cmd) : Prop :=
  d.cmdOf q cid = some c ∧ d.cmdAt c.arrival = some c ∧ c.op = op ∧ d.mayBegin c = true ∧ d.plat.safe = false

/-- A command that has begun: its core has taken it. -/
def Cmd.begun (c : Cmd) (d : Dev) : Cmd := { c with started := true, core := d.coreOf c.queue, phase := 0 }

/-- The store, the register file and the shadows have their canonical form (Sparse.lean). -/
def State.wf (s : State) : Bool :=
  Map.wf (fun _ => 0) s.dev.cst.mem && Map.wf resetVal s.dev.regs && Map.wf resetVal s.dev.shadow

end Sys2Proof.Machine
end

