-- ==== Sys2Proof/Certificates/Slice0/Obligations.lean ====
section
/-! DEFINITION. The statements for the provers. `completes c s Q` (Safety.lean): the command answers a next state, the queue as it was, and the
device satisfies `Q`. Each family's statements say what its commands do where they act; the operations named in them (an error raised, an
event, a counted access) have statements of their own. -/
open Sys2Proof Sys2Proof.Machine

/-- The command at the front of the queue is taken with the queue's rest; an empty queue idles, which is the model's choice (log entry 2). -/
def Obligations.StepTakesFront : Prop :=
  (∀ (c : Instr) (s : State) (rest : List Instr), s.pending = c :: rest → step s = exec c { s with pending := rest }) ∧
    ∀ s : State, s.pending = [] → step s = .next s

/-- Every command answers a next state, and none touches the queue: no sequence of accesses leads to a state without a name (R3). -/
def Obligations.EveryCommandAnswers : Prop := ∀ (c : Instr) (s : State), completes c s fun _ => True

/-! ## The tick, the supplies and the sensors -/

/-- REFCLK_LOST, REFCLK_RETURNED, PHASE_SLEW_END and REFCLK_PHASE_STEP (R11, R12): REF_LOST is set and event 12 raised; the reference counts as
returned after 400 good boundaries, and the tick slews from then on; REF_LOST clears, with event 12, below 10 ns, and PLT_TICK_PHASE shows the
error again; a step in phase while REF_LOST = 0 starts a slew and shows in PLT_TICK_PHASE, REF_LOST staying 0.
CLASS3_PROMOTION (R23): a request that has waited PLT_ARB_PROMO.WAIT cycles is counted and the first class 3 job of the map engine that waits is
granted as class 2: the fabric's search within class 2 goes on behind its region, no region's round has a grant less, and the job does its
step; with no class 3 job only the count changes, and before WAIT nothing.
That the requests are the jobs of the map engine is the model's reading (log entry 79). -/
def Obligations.TimebaseCommands : Prop :=
  (∀ s : State,
    (∀ noEdge, s.dev.flag F.pltStat_refLost = false →
      completes (.refclkLost noEdge) s fun e => e.flag F.pltStat_refLost = true ∧ e.causeShows 12 ∧
        ∃ m : Dev, e = m.chipEvent 12 ∧ m.flag F.pltStat_refLost = true ∧ (∀ f : RegField, f.addr ≠ F.pltStat_refLost.addr → m.rd f = s.dev.rd f) ∧
          m.plat = { s.dev.plat with okRun := 0, slewing := false } ∧ m.mram = s.dev.mram ∧ s.dev.sameRegions m) ∧
    (s.dev.flag F.pltStat_refLost = true → 400 ≤ s.dev.plat.okRun → s.dev.plat.slewing = false →
      completes .refclkReturned s fun e => e = { s.dev with plat := { s.dev.plat with slewing := true } }) ∧
    (s.dev.flag F.pltStat_refLost = true → s.dev.plat.slewing = true → s.dev.plat.phase.natAbs < 10 →
      completes .phaseSlewEnd s fun e => e.flag F.pltStat_refLost = false ∧ e.rd F.pltTickPhase = unsgn 16 s.dev.plat.phase ∧ e.causeShows 12 ∧
        ∃ m : Dev, e = (m.chipEvent 12).wr F.pltTickPhase (unsgn 16 s.dev.plat.phase) ∧ m.flag F.pltStat_refLost = false ∧
          (∀ f : RegField, f.addr ≠ F.pltStat_refLost.addr → m.rd f = s.dev.rd f) ∧ m.plat = s.dev.plat ∧ m.mram = s.dev.mram ∧
          s.dev.sameRegions m) ∧
    (∀ ns, s.dev.flag F.pltStat_refLost = false →
      completes (.refclkPhaseStep ns) s fun e =>
        e.plat = { s.dev.plat with phase := s.dev.plat.phase + ns, slewing := true } ∧
        e.rd F.pltTickPhase = unsgn 16 (s.dev.plat.phase + ns) ∧ e.flag F.pltStat_refLost = false ∧
        (∀ f : RegField, f.addr ≠ F.pltTickPhase.addr → e.rd f = s.dev.rd f) ∧ e.mram = s.dev.mram ∧ s.dev.sameRegions e)) ∧
  (∀ (s : State) (waited : Nat),
    (s.dev.rd F.pltArbPromo ≤ waited →
      completes (.class3Promotion waited) s fun e => ∃ m : Dev, m.rd F.pltArbCntPromo = satInc 32 (s.dev.rd F.pltArbCntPromo) ∧
        (∀ f : RegField, f.addr ≠ F.pltArbCntPromo.addr → m.rd f = s.dev.rd f) ∧ m.plat = s.dev.plat ∧ m.mram = s.dev.mram ∧
        s.dev.sameRegions m ∧
        (∀ r, s.dev.flashReady = true → s.dev.classServed 2 = true → (s.dev.sfl.jobs.map s.dev.jobReq).find? (fun r => r.cls == 3) = some r →
          ∃ p : Dev, e = p.advance r.key ∧ Map.get 0 p.plat.arb.chip 2 = r.region + 1 ∧ p.plat.arb.rounds = m.plat.arb.rounds ∧
            (∀ f : RegField, p.rd f = m.rd f) ∧ p.mram = m.mram ∧ m.sameRegions p) ∧
        ((∀ j ∈ s.dev.sfl.jobs, (s.dev.jobReq j).cls ≠ 3) → e = m)) ∧
    (waited < s.dev.rd F.pltArbPromo → completes (.class3Promotion waited) s fun e => e = s.dev))

/-- RAIL_STATE_CHANGE, RAIL_OUT_TIMEOUT and RAIL_VALID (R57, R508): a rail's reading and its state, with the error and event 13 on entering
WARN or OUT (the reading is the operand scaled by CAL_SUP_GAIN, R426); after 4 ticks OUT the sequence of PWRFAIL_N starts; a rail that becomes valid is recorded in PLT_SUP_SEQ.
THERMAL_LEVEL_FALL (R499): after 400 readings 2 °C below the entry threshold, once in a boundary, the level falls to the next one that
is not skipped, and event 14 is raised. -/
def Obligations.SupplyCommands : Prop :=
  (∀ s : State,
    (∀ rail mv, rail < 8 →
      completes (.railStateChange rail mv) s fun e => ∃ m : Dev, m.rd (F.pltSupV_mv rail) = s.dev.supplyMv rail mv ∧
        m.rd (F.pltSupV_state rail) = railState rail (s.dev.supplyMv rail mv) ∧ m.plat = s.dev.plat ∧ s.dev.sameRegions m ∧
        e = (let st := railState rail (s.dev.supplyMv rail mv)
          if st = s.dev.rd (F.pltSupV_state rail) ∨ st = 0 then m
          else (m.raise Pg.pltSup (if st = 1 then Er.pltSup_railWarn else Er.pltSup_railOut) rail).chipEvent 13)) ∧
    (∀ rail, 4 ≤ s.dev.plat.railOut.getD rail 0 → s.dev.plat.tp = none →
      completes (.railOutTimeout rail) s fun e => ∃ m : Dev, m.plat = { s.dev.plat with tp := some ((s.dev.now + 1) % 2 ^ 64) } ∧
        m.sfl = { s.dev.sfl with frozen := true } ∧ m.flag F.motStat_pwrfail = true ∧
        m.rd (F.motCnt 1) = satInc 32 (s.dev.rd (F.motCnt 1)) ∧ e = m.motionStop.showMot) ∧
    (∀ rail tenths, rail < 8 → s.dev.plat.railValid.getD rail true = false →
      completes (.railValid rail tenths) s fun e =>
        e.plat.railValid = s.dev.plat.railValid.set rail true ∧ e.plat.railFirst = some (s.dev.plat.railFirst.getD rail) ∧
        e.rd F.pltSupSeq_last = rail ∧
        (s.dev.plat.railFirst = none → e.rd F.pltSupSeq_first = rail ∧ e.rd F.pltSupSeq_spread = 0 ∧ e.flag F.pltSupSeq_skew = false) ∧
        (s.dev.plat.railFirst ≠ none → e.rd F.pltSupSeq_first = s.dev.rd F.pltSupSeq_first ∧
          e.rd F.pltSupSeq_spread = min 65535 tenths ∧ e.flag F.pltSupSeq_skew = decide (500 < tenths)))) ∧
  (∀ s : State, s.dev.rd F.pltThermStat_level ≠ 0 → s.dev.rd F.pltThermStat_level ≤ 4 → s.dev.plat.fell = false → 400 ≤ s.dev.plat.hot.length →
    (∀ t ∈ s.dev.plat.hot, t < s.dev.thermAt (s.dev.rd F.pltThermStat_level) - 32) → s.dev.thermRise < s.dev.rd F.pltThermStat_level →
    completes .thermalLevelFall s fun e => ∃ m : Dev, m.plat = { s.dev.plat with fell := true } ∧ s.dev.sameRegions m ∧
      m.rd F.pltThermStat_level < s.dev.rd F.pltThermStat_level ∧
      (∀ l, l < s.dev.rd F.pltThermStat_level → 1 ≤ l → s.dev.thermHas l = true → l ≤ m.rd F.pltThermStat_level) ∧
      e = (m.chipEvent 14).flashMoves)

/-! ## Register accesses -/

/-- A write that a register takes (R2), of 32 bits and without nonzero reserved bits, at a register whose write is no action: each RW field
takes the value's bits, each RS field's shadow takes them and its value in force stays, each W1C bit written 1 clears, RO and RC bits stay, and
no other register changes. The pool bit of owners 0-31 follows its stream (R127). -/
def Obligations.WriteTakesFields : Prop :=
  ∀ (s : State) (a v ns : Nat) (k : Kind) (i : Nat) (r : RegDef),
    a % 4 = 0 → v < 2 ^ 32 → kindAt a = some (k, i) → regAt a = some r → r.mask Access.takes ≠ 0 → s.dev.takesWrite k a = true →
    s.dev.writeBarred k a v r = false → s.dev.writeAct k i a v ns = none → v &&& r.mask (fun _ => true) = v →
    completes (.registerWrite ⟨a, v, 4, ns⟩) s fun e => ∃ m : Dev, e = m.hatPump ∧
      (∀ f ∈ r.fields, f.ty = .rw → bitsOf (m.raw a).toNat f.hi f.lo = bitsOf v f.hi f.lo) ∧
      (∀ f ∈ r.fields, f.ty = .rs → ¬ (k = .bpmOwn ∧ i < 32 ∧ f.hi = 27) → bitsOf (m.shadowed a).toNat f.hi f.lo = bitsOf v f.hi f.lo) ∧
      (∀ f ∈ r.fields, f.ty = .w1c →
        bitsOf (m.raw a).toNat f.hi f.lo = bitsOf (s.dev.raw a).toNat f.hi f.lo &&& (2 ^ 32 - 1 - bitsOf v f.hi f.lo)) ∧
      (∀ f ∈ r.fields, f.ty = .ro ∨ f.ty = .rc → bitsOf (m.raw a).toNat f.hi f.lo = bitsOf (s.dev.raw a).toNat f.hi f.lo) ∧
      m.force = s.dev.force ∧ (∀ b, b ≠ a → m.raw b = s.dev.raw b ∧ m.shadowed b = s.dev.shadowed b) ∧ s.dev.sameRegions m

/-- An access that is ignored as a whole (R2, R3, R36, R40): a write where no register lies, to one that holds no field a write can change, one
that is barred, or one of a width or alignment that BAR0 does not take. PG_CNT_ERR of the page concerned increments and saturates,
PG_ERR.ACCESS is set, and every field of every page outside the headers' error registers is as it was. -/
def Obligations.IgnoredAccess : Prop :=
  ∀ (s : State) (a v n ns : Nat),
    ((n = 4 ∧ a % 4 = 0 ∧ (regAt a = none ∨ ∃ k i r, kindAt a = some (k, i) ∧ regAt a = some r ∧
        (r.mask Access.takes = 0 ∨ s.dev.takesWrite k a = false ∨ s.dev.writeBarred k a (v % 2 ^ 32) r = true))) ∨
      (n ≠ 4 ∧ n ≠ 8) ∨ (n = 4 ∧ a % 4 ≠ 0) ∨ (n = 8 ∧ a % 8 ≠ 0)) →
    completes (.registerWrite ⟨a, v, n, ns⟩) s fun e => ∃ m : Dev, e = m.hatPump ∧
      m.ignoredCount (countedAt a) = satInc 32 (s.dev.ignoredCount (countedAt a)) ∧ m.errorShows (countedAt a) 31 ∧
      m.mram.accessLog.written = s.dev.mram.accessLog.written + 1 ∧ m.force = s.dev.force ∧ m.shadow = s.dev.shadow ∧
      (∀ f : RegField, f.steady → m.rd f = s.dev.rd f) ∧ s.dev.sameRegions m

/-- A read of 32 bits (R2, R9): what it shows is what the register holds; RC fields clear and all else stays; PLT_TICK_LO latches the upper
half of the tick counter into PLT_TICK_HI; the LO word of any other split register latches its HI word; SRV_CS_DATA answers the coefficient
word addressed and steps the address (R354). A read of 64 bits is two of 32, the lower address first (R36); one of any other width, or not
aligned, returns zero and is counted, and no field outside the headers changes.
A write to PG_ERR_INJ with the key and DATA = 0 (R41): the bit is raised at the level PG_ERR_ESC gives, which the summary, the chip's log and
the event show, and there is no containment action. -/
def Obligations.ReadsAndInjection : Prop :=
  (∀ s : State,
    (∀ (a : Nat) (k : Kind) (i : Nat) (r : RegDef), a % 4 = 0 → kindAt a = some (k, i) → regAt a = some r → latchesHi a = false →
      k ≠ .pltTick → ¬ (k = .srvDrv ∧ a % 4096 = 0x184) →
      completes (.readClearRead ⟨a, 4⟩) s fun e => e.readVal = s.dev.view a ∧
        (∀ f ∈ r.fields, f.ty = .rc → bitsOf (e.raw a).toNat f.hi f.lo = 0) ∧
        (∀ f ∈ r.fields, f.ty ≠ .rc → bitsOf (e.raw a).toNat f.hi f.lo = bitsOf (s.dev.raw a).toNat f.hi f.lo) ∧
        (∀ b, b ≠ a → e.raw b = s.dev.raw b) ∧ e.force = s.dev.force ∧ e.shadow = s.dev.shadow ∧ e.plat = s.dev.plat ∧ e.mram = s.dev.mram ∧
        e.out = s.dev.out ∧ s.dev.sameRegions e) ∧
    (completes .pltTickLoRead s fun e => e.readVal = s.dev.now % 2 ^ 32 ∧ e.rd F.pltTickHi = s.dev.now / 2 ^ 32 ∧
      (∀ f : RegField, f.addr ≠ F.pltTickHi.addr → e.rd f = s.dev.rd f) ∧ e.plat = s.dev.plat) ∧
    (∀ a, a % 4 = 0 → latchesHi a = true →
      completes (.latchedLoRead ⟨a, 4⟩) s fun e => e.readVal = s.dev.view a ∧
        e.raw (a + 4) = w32 (if a = F.sflCapLo.addr then s.dev.capUnits / 2 ^ 32 else Map.get 0 s.dev.plat.hiLive (a + 4)) ∧
        (∀ b, b ≠ a + 4 → e.raw b = s.dev.raw b) ∧ e.plat = s.dev.plat) ∧
    (∀ a n, a % 4 = 0 → kindAt a = some (.srvDrv, n) → a % 4096 = 0x184 →
      completes (.readClearRead ⟨a, 4⟩) s fun e => e = (s.dev.answer (s.dev.csRead n)).csStep n) ∧
    (∀ a, a % 8 = 0 → (completes (.readClearRead ⟨a, 8⟩) s fun e => e = ((s.dev.read32 a).read32 (a + 4)).answer
        ((s.dev.read32 a).readVal + 2 ^ 32 * ((s.dev.read32 a).read32 (a + 4)).readVal)) ∧
      (completes (.latchedLoRead ⟨a, 8⟩) s fun e => e = ((s.dev.read32 a).read32 (a + 4)).answer
        ((s.dev.read32 a).readVal + 2 ^ 32 * ((s.dev.read32 a).read32 (a + 4)).readVal))) ∧
    (∀ a n, ¬ (n = 4 ∧ a % 4 = 0) → ¬ (n = 8 ∧ a % 8 = 0) → completes (.readClearRead ⟨a, n⟩) s fun e => e.readVal = 0 ∧
      e.ignoredCount (countedAt a) = satInc 32 (s.dev.ignoredCount (countedAt a)) ∧ e.errorShows (countedAt a) 31 ∧
      (∀ f : RegField, f.steady → e.rd f = s.dev.rd f) ∧ s.dev.sameRegions e)) ∧
  (∀ (s : State) (page bit : Nat) (k : Kind) (i : Nat), page % 4096 = 0 → bit < 32 → kindAt (page + 0x1C) = some (k, i) →
    s.dev.takesWrite k (page + 0x1C) = true → (∀ hi lo, s.dev.calOwns (page + 0x1C) hi lo = false) →
    completes (.errorInject page (0xE1000000 + bit)) s fun e => ∃ m : Dev, e = m.hatPump ∧ m.errorShows page bit ∧
      (∀ b, b < 32 → s.dev.errorShows page b → m.errorShows page b) ∧ (∀ f : RegField, f.steady → m.rd f = s.dev.rd f) ∧
      (1 ≤ s.dev.errLevel page bit → (Map.get 0 m.plat.errSum page).testBit bit = true) ∧
      m.mram.chipLog.written = s.dev.mram.chipLog.written + (if 2 ≤ s.dev.errLevel page bit then 1 else 0) ∧
      (s.dev.errLevel page bit = 3 → m.causeShows (regionOf page)) ∧
      m.plat.fences = s.dev.plat.fences ∧ m.plat.safe = s.dev.plat.safe ∧ m.plat.armed = s.dev.plat.armed ∧ s.dev.sameRegions m)

/-- PLT_RST_CTRL, SFL_TIME, PLT_MRAM_PROF, SFL_JRN_CTRL and MOT_CTRL (R56, R185, R198, R199, R410, R484): the writes of these registers that
act; what an access that is counted leaves in the access log names the data written (R475). -/
def Obligations.KeyedWrites : Prop :=
  ∀ s : State,
    (s.dev.plat.softReset = none → s.dev.calOwns 0x2104 31 16 = false → s.dev.calOwns 0x2104 0 0 = false → s.dev.plat.tp = none →
      completes .pltRstCtrlChip s fun e => e.plat.softReset = some ((s.dev.now + 1) % 2 ^ 64) ∧ e.plat.tp = some ((s.dev.now + 1) % 2 ^ 64) ∧
        e.sfl.frozen = true ∧ e.regs = s.dev.regs ∧ e.mram = s.dev.mram) ∧
    (∀ v, s.dev.writesBlocked = false → s.dev.calOwns F.sflTime.addr 31 0 = false → s.dev.rd F.sflTime < v → v < 2 ^ 32 →
      completes (.sflTimeWrite v) s fun e => e.rd F.sflTime = v ∧ (∀ f : RegField, f.addr ≠ F.sflTime.addr → e.rd f = s.dev.rd f) ∧
        e.plat = s.dev.plat ∧ e.mram = s.dev.mram ∧ s.dev.sameRegions e) ∧
    (∀ n, s.dev.writesBlocked = false → (∀ hi lo, s.dev.calOwns F.pltMramProf_next.addr hi lo = false) → n < 8 →
      completes (.profileNextWrite (256 * n)) s fun e => e.mram = { s.dev.mram with next := n } ∧ e.rd F.pltMramProf_next = n ∧
        e.plat = s.dev.plat ∧ s.dev.sameRegions e) ∧
    (s.dev.writesBlocked = false → (∀ hi lo, s.dev.calOwns F.sflJrnCtrl_flush.addr hi lo = false) →
      (completes (.sflJrnFlush 0xF1000001) s fun e => e = ((((if s.dev.flashRuns then s.dev.jflush else s.dev).pump).stampData
        s.dev.mram.accessLog.written F.sflJrnCtrl_flush.addr 0xF1000001).hatPump)) ∧
      (completes (.sflJrnCkpt 0xF1000002) s fun e => e = (((s.dev.ckptStart.pump).stampData
        s.dev.mram.accessLog.written F.sflJrnCtrl_ckpt.addr 0xF1000002).hatPump))) ∧
    (s.dev.writesBlocked = false → s.dev.active keyEstop = false →
      completes (.motCtrlEstopClr 0xE5000001) s fun e => e.flag F.motStat_estop = false ∧
        (∀ f : RegField, f.addr ≠ F.motStat_estop.addr → e.rd f = s.dev.rd f) ∧ e.plat = s.dev.plat ∧ s.dev.sameRegions e)

/-! ## Commits, groups and make-before-break -/

/-- PG_COMMIT and its cancel (R42–R46): a key write copies every shadow of the page into a staged set for the boundary that R43 gives, and the
page reads PENDING; nothing in force changes. A target that is no future tick is refused and counted, with PG_ERR.COMMIT. A cancel in time
discards the staged set, and the page reads IDLE.
PLT_GRP_COMMIT (R46–R48): every member page of a group commit that is not refused reads PENDING and is staged for the group's boundary, with
nothing in force changed; a cancel in time returns every member and the group to IDLE. -/
def Obligations.CommitsStage : Prop :=
  (∀ (s : State) (p ns : Nat), p % 4096 = 0 → s.dev.writesBlocked = false →
    let d := s.dev
    let target := (d.raw (p + 0x24)).toNat
    ((kindAt p).isSome = true → (d.raw (p + 0x28)).toNat = 0 → d.pendingPage p = false → target = 0 ∨ d.futureTick target = true →
      d.refuses [p] p = false → d.isMbb (d.asStaged [p]) p = false →
      completes (.pgCommitKey p ns) s fun e =>
        e = { d with plat := { d.plat with
          commitSt := Map.set 0 d.plat.commitSt p 1
          staged := d.plat.staged ++ [⟨p, 0, if target = 0 then 0 else d.fullTick target,
            if target = 0 then d.now + (if 2400 ≤ ns then 2 else 1) else max (d.now + (if 2400 ≤ ns then 2 else 1)) (d.fullTick target),
            d.now, Map.window (Map.replaceWindow d.force d.shadow p (4096 + p)) p (4096 + p), .single⟩] } }) ∧
    ((kindAt p).isSome = true → (d.raw (p + 0x28)).toNat = 0 → d.pendingPage p = false → target ≠ 0 → d.futureTick target = false →
      completes (.pgCommitKey p ns) s fun e => e.plat.staged = d.plat.staged ∧ Map.get 0 e.plat.commitSt p = 0 ∧ e.errorShows p 30 ∧
        e.ignoredCount p = satInc 32 (d.ignoredCount p) ∧ e.force = d.force ∧ e.shadow = d.shadow ∧ d.sameRegions e) ∧
    (∀ x, d.plat.staged.filter (fun y => y.page == p) = [x] → x.mbb = .single → x.group = 0 → (d.raw (p + 0x28)).toNat = 0 →
      d.now + (if 2400 ≤ ns then 2 else 1) ≤ x.applyAt →
      completes (.pgCommitCancel p ns) s fun e =>
        e = { d with plat := { d.plat with
          commitSt := Map.set 0 d.plat.commitSt p 0
          staged := d.plat.staged.filter (fun y => y.page != p) } })) ∧
  (∀ (s : State) (g ns : Nat), g < 64 → g ≠ 0 → s.dev.writesBlocked = false →
    let d := s.dev
    let target := d.rd F.pltGrpTick
    (d.groupPages g ≠ [] → Map.get 0 d.plat.groupSt g ≠ 1 → target = 0 ∨ d.futureTick target = true →
      (∀ p ∈ d.groupPages g, d.refuses (d.groupPages g) p = false ∧ d.isMbb (d.asStaged (d.groupPages g)) p = false) →
      completes (.groupCommit g ns) s fun e => Map.get 0 e.plat.groupSt g = 1 ∧ (∀ p ∈ d.groupPages g, Map.get 0 e.plat.commitSt p = 1) ∧
        e.plat.staged.length = d.plat.staged.length + (d.groupPages g).length ∧
        (∀ p ∈ d.groupPages g, ∃ x ∈ e.plat.staged, x.page = p ∧ x.group = g) ∧
        (∀ x ∈ e.plat.staged, x ∈ d.plat.staged ∨ x.group = g ∧ x.page ∈ d.groupPages g ∧
          x.applyAt = if target = 0 then d.now + (if 2400 ≤ ns then 2 else 1)
            else max (d.now + (if 2400 ≤ ns then 2 else 1)) (d.fullTick target)) ∧
        e.force = d.force ∧ e.shadow = d.shadow ∧ d.sameRegions e) ∧
    (Map.get 0 d.plat.groupSt g = 1 → d.plat.staged.filter (fun x => x.group == g) ≠ [] →
      (∀ x ∈ d.plat.staged, x.group = g → x.mbb = .single ∧ d.now + (if 2400 ≤ ns then 2 else 1) ≤ x.applyAt) →
      completes (.groupCancel g ns) s fun e => Map.get 0 e.plat.groupSt g = 0 ∧
        (∀ x ∈ d.plat.staged, x.group = g → Map.get 0 e.plat.commitSt x.page = 0 ∧ ∀ y ∈ e.plat.staged, y.page ≠ x.page) ∧
        e.regs = d.regs ∧ e.force = d.force ∧ e.shadow = d.shadow ∧ e.mram = d.mram ∧ d.sameRegions e))

/-- COMMIT_APPLY (R42, R43): at its boundary the whole staged set of a page takes effect at once; where that is after a target named,
PG_ERR.COMMIT is set; on the pages whose chapters set nothing else going the page reads DONE, and on the others what their chapter sets
going comes first. A pool, or an owner's pool, that is short at the boundary abandons the commit with PG_ERR.COMMIT (R129).
MBB_BUILD_COMPLETE, MBB_SWITCH, MBB_BUILD_FAIL and MBB_TEARDOWN_DONE (R50, R66), for a re-bond of a stream: the end of the build is noted; at
its boundary the page's new values are in force and the stream re-bonds from the old bond, and frames outside the new ring leave it; a build
that fails is discarded with PG_ERR.COMMIT; four ticks after the switch the old bond is released and the page reads DONE. -/
def Obligations.CommitsTakeEffect : Prop :=
  (∀ (s : State) (p target at_ since : Nat) (vals : Map Word) (k : Kind) (i : Nat), p % 4096 = 0 → kindAt p = some (k, i) →
    k ≠ .ingStr ∧ k ≠ .bpmPool ∧ k ≠ .bpmOwn ∧ k ≠ .seqMc ∧ k ≠ .parSet ∧ k ≠ .odrWr ∧ k ≠ .srvLoop →
    s.dev.plat.staged = [⟨p, 0, target, at_, since, vals, .single⟩] → at_ ≤ s.dev.now + 1 →
    completes (.commitApply p) s fun e =>
      e.force = Map.replaceWindow s.dev.force vals p (4096 + p) ∧ e.plat.staged = [] ∧ Map.get 0 e.plat.commitSt p = 2 ∧
      e.shadow = s.dev.shadow ∧ (target ≠ 0 ∧ target < s.dev.now + 1 → e.errorShows p 30) ∧ s.dev.sameRegions e) ∧
  (∀ (s : State) (p target at_ since : Nat) (vals : Map Word), p % 4096 = 0 →
    s.dev.plat.staged = [⟨p, 0, target, at_, since, vals, .single⟩] → at_ ≤ s.dev.now + 1 →
    let n : Dev := { s.dev with force := Map.replaceWindow s.dev.force vals p (4096 + p) }
    let short := (∃ i, kindAt p = some (.bpmPool, i) ∧ s.dev.poolShort n i = true) ∨
      ∃ o, kindAt p = some (.bpmOwn, o) ∧ s.dev.poolShort n (n.ownerPool o) = true
    (¬ short → completes (.commitApply p) s fun e => ∃ m : Dev,
      m = (({ n with plat := { n.plat with staged := [] } } : Dev).applied s.dev p).when (decide (target ≠ 0) && decide (target < s.dev.now + 1))
        (·.raise p 30) ∧
      e = if m.plat.staged.any (fun x => x.page == p) then m else { m with plat := { m.plat with commitSt := Map.set 0 m.plat.commitSt p 2 } }) ∧
    (short → completes (.commitApply p) s fun e => e.errorShows p 30 ∧ ∃ m : Dev, e = m.raise p 30 ∧
      m = { s.dev with plat := { s.dev.plat with staged := [], commitSt := Map.set 0 s.dev.plat.commitSt p 0 } })) ∧
  (∀ (s : State) (p ns i : Nat) (x : Staged), p % 4096 = 0 → kindAt p = some (.ingStr, i) → s.dev.plat.staged = [x] → x.page = p → x.group = 0 →
    let d := s.dev
    (x.mbb = .build none → d.built p = true →
      completes (.mbbBuildComplete p ns) s fun e =>
        e = { d with plat := { d.plat with staged := [{ x with mbb := .build (some (d.now, ns)) }] } }) ∧
    (∀ t u, x.mbb = .build (some (t, u)) → max x.applyAt (t + if 2400 ≤ u then 2 else 1) ≤ d.now + 1 → x.target = 0 →
      completes (.mbbSwitch p) s fun e => ∃ m : Dev, m.force = Map.replaceWindow d.force x.vals p (4096 + p) ∧
        m.plat = { d.plat with staged := [{ x with mbb := .teardown (d.now + 1) }] } ∧ d.sameRegions m ∧
        ∃ r : Dev, r = (if m.bond i ≠ d.bond i then m.rebond i (d.bond i) else m) ∧
          e = (r.ringFrames i).foldl (fun (x : Dev) f => x.fallsOut i f.pn) r) ∧
    (∀ b, x.mbb = .build b → completes (.mbbBuildFail p) s fun e => e = (d.unstage [x]).raise p 30 ∧ e.errorShows p 30) ∧
    (∀ t, x.mbb = .teardown t → (d.stream i).oldBond = none ∨ t + 4 ≤ d.now →
      completes (.mbbTeardownDone p) s fun e => ∃ m : Dev,
        m = { d with plat := { d.plat with staged := [], commitSt := Map.set 0 d.plat.commitSt p 2 } } ∧ e = m.oldBondGoes i))

/-! ## Units, fences and resets -/

/-- The unit states (R52): setting a unit's state sets it for the unit's page and every page that depends on it, and for no other unit.
UNIT_ENABLE, UNIT_DISABLE, UNIT_QUIESCE, UNIT_RESUME, UNIT_ISOLATE, UNIT_DEISOLATE, QUIESCE_COMPLETE and QUIESCE_TIMEOUT (R51, R52) on a
unit's own page: the transitions of R52, each followed by what the unit's kind does in the new state, the unit reading ACTIVE through
`unitActive`, which sets that state. A stack is quiesced only while the other pooled stacks hold the pools (R108). QUIESCE, ISOLATE and
ENABLE ← 0 on stack 3, which is not replaceable, are ignored and counted (R108).
Each is stated with no fence of the unit under way; what an event does during one is the model's choice (log entry 77). -/
def Obligations.UnitStates : Prop :=
  (∀ (d : Dev) (p q : Nat) (u : UnitSt), (masterOf q = masterOf p → (d.setUnit p u).unitAt q = u) ∧
    (masterOf q ≠ masterOf p → (d.setUnit p u).unitAt q = d.unitAt q)) ∧
  (∀ (s : State) (p : Nat), p % 4096 = 0 → masterOf p = p → hasUnit p = true → s.dev.writesBlocked = false →
    let d := s.dev
    let here : Dev := { d with plat := { d.plat with absent := d.plat.absent.filter (· != p) } }
    (d.unitAt p = .off → d.closed p = false →
      (∀ ch, kindAt p = some (.sflFc, ch) → completes (.unitEnable p true) s fun e =>
        e = (((here.setUnit p .active).activeWork p).wr (F.sflFcStat_train ch) 1).hatPump) ∧
      (∀ n, kindAt p = some (.cstStk, n) → completes (.unitEnable p true) s fun e =>
        e = ((here.unitActive p).wr (F.cstStkTrain n) 1).hatPump) ∧
      (∀ n, kindAt p = some (.odrDrv, n) → completes (.unitEnable p true) s fun e =>
        e = (((here.headStart n).setUnit p .active).activeWork p).hatPump) ∧
      (∀ n, kindAt p = some (.motSt, n) → completes (.unitEnable p true) s fun e => e = ((here.setUnit p .active).activeWork p).hatPump) ∧
      (∀ i, kindAt p = some (.ingStr, i) → here.streamMayEnable i = true → completes (.unitEnable p true) s fun e =>
        e = ((((here.setUnit p .active).streamStart i).setUnit p .active).activeWork p).hatPump)) ∧
    (replaceable p = true →
      (d.unitAt p = .quiesced ∨ d.unitAt p = .isolated ∨ d.unitAt p = .fenced → d.fencing p = false →
        completes (.unitDisable p) s fun e => e = ((d.setUnit p .off).offWork p (d.unitAt p)).hatPump) ∧
      (d.unitAt p = .active → d.closed p = false → (∀ n, kindAt p = some (.cstStk, n) →
          d.sizeSum + (if d.stackCounts n then Config.pooled n else 0) ≤ d.pooledNow) →
        completes (.unitQuiesce p) s fun e => e = (({ d with plat := { d.plat with
          units := Map.put d.plat.units p .quiescing, quiesceAt := Map.put d.plat.quiesceAt p d.now } } : Dev).quiesceWork p).hatPump) ∧
      (d.unitAt p = .quiescing ∨ d.unitAt p = .quiesced → d.closed p = false →
        completes (.unitResume p) s fun e => e = (d.unitActive p).hatPump) ∧
      (d.unitAt p = .quiesced ∨ d.unitAt p = .fenced → d.fencing p = false → (∀ n, kindAt p = some (.odrDrv, n) → d.discOnSpindle n = false) →
        (∀ n, kindAt p = some (.cstStk, n) → d.stackMapped n = false) →
        completes (.unitIsolate p) s fun e => e = ((d.setUnit p .isolated).isolateWork p (d.unitAt p)).hatPump) ∧
      (d.unitAt p = .isolated → d.fencing p = false →
        (∀ ch, kindAt p = some (.sflFc, ch) → completes (.unitDeisolate p true) s fun e => e = (here.wr (F.sflFcStat_train ch) 1).hatPump) ∧
        (∀ n, kindAt p = some (.cstStk, n) → completes (.unitDeisolate p true) s fun e => e = (here.wr (F.cstStkTrain n) 1).hatPump) ∧
        (∀ n, kindAt p = some (.odrDrv, n) → completes (.unitDeisolate p true) s fun e =>
          e = (((here.setUnit p .quiesced).headStart n).driveLeaves n .isolated).hatPump) ∧
        (∀ i, kindAt p = some (.ingStr, i) → completes (.unitDeisolate p true) s fun e =>
          e = ((here.streamLanes i).foldl (fun (x : Dev) l => x.laneJoin l) (here.setUnit p .quiesced)).hatPump)) ∧
      (d.unitAt p = .quiescing → d.unitIdle p = true → d.closed p = false →
        completes (.quiesceComplete p) s fun e => e = { d with plat := { d.plat with units := Map.put d.plat.units p .quiesced } }) ∧
      (∀ b, d.unitAt p = .quiescing → d.quiesceBound p = some b → b ≤ d.since (Map.get 0 d.plat.quiesceAt p) → d.closed p = false →
        completes (.quiesceTimeout p) s fun e => e.closed p = true ∧ ∃ f ∈ e.plat.fences, f.unit = p ∧ f.tick = d.now)) ∧
    (kindAt p = some (.cstStk, 3) → d.unitAt p = .active →
      (completes (.unitQuiesce p) s fun e => ∃ m : Dev, e = m.hatPump ∧ m.unitAt p = .active ∧
        m.ignoredCount p = satInc 32 (d.ignoredCount p) ∧ m.errorShows p 31 ∧ d.sameRegions m) ∧
      (completes (.unitIsolate p) s fun e => ∃ m : Dev, e = m.hatPump ∧ m.unitAt p = .active ∧
        m.ignoredCount p = satInc 32 (d.ignoredCount p) ∧ m.errorShows p 31 ∧ d.sameRegions m) ∧
      completes (.unitDisable p) s fun e => ∃ m : Dev, e = m.hatPump ∧ m.unitAt p = .active ∧
        m.ignoredCount p = satInc 32 (d.ignoredCount p) ∧ m.errorShows p 31 ∧ d.sameRegions m))

/-- A drive that holds a disc on its spindle, and a stack while an HDM decoder maps any granule of it, are not isolated (R53): ISOLATE ← 1 is
ignored and counted, in every unit state but ISOLATED, where the write changes no bit.
JDM_COMPAT_WRITE (R6, R54): with no disc on the spindle the mode changes at once, and a head link in use starts anew in its version; with a
disc on it the change is ignored and counted, and the mode stays. -/
def Obligations.DiscCompatibility : Prop :=
  (∀ (s : State) (p n : Nat), p % 4096 = 0 → s.dev.writesBlocked = false → s.dev.unitAt p ≠ .isolated →
    (kindAt p = some (.odrDrv, n) ∧ s.dev.discOnSpindle n = true) ∨
      (kindAt p = some (.cstStk, n) ∧ ∃ r, some r ∈ s.dev.hat.decoders ∧ r.1 < (n + 1) * 2 ^ 36 ∧ n * 2 ^ 36 < r.2) →
    completes (.unitIsolate p) s fun e => ∃ m : Dev, e = m.hatPump ∧ m.unitAt p = s.dev.unitAt p ∧
      m.ignoredCount p = satInc 32 (s.dev.ignoredCount p) ∧ m.errorShows p 31 ∧ s.dev.sameRegions m) ∧
  (∀ (s : State) (n : Nat) (on : Bool), n < 4 → s.dev.writesBlocked = false → s.dev.ad8 n ≠ on → s.dev.discOnSpindle n = true →
    completes (.jdmCompatWrite n on) s fun e => e.ad8 n = s.dev.ad8 n ∧ e.ignoredCount (Pg.odrDrv n) = satInc 32 (s.dev.ignoredCount (Pg.odrDrv n)) ∧
      e.errorShows (Pg.odrDrv n) 31 ∧ s.dev.sameRegions e) ∧
  (∀ (s : State) (n : Nat) (on : Bool), n < 4 → s.dev.writesBlocked = false → s.dev.ad8 n ≠ on → s.dev.discOnSpindle n = false →
    completes (.jdmCompatWrite n on) s fun e => ∃ m : Dev, m = s.dev.wrB (F.drvCtrl_jdmCompat n) on ∧ m.ad8 n = on ∧
      e = if s.dev.unitAt (Pg.odrDrv n) = .off ∨ s.dev.unitAt (Pg.odrDrv n) = .isolated then m else (m.headStop n).headStart n)

/-- FENCE_CONFIRM and FENCE_TIMEOUT (R29, R30): a unit whose fence is confirmed shows FENCED, and only then what it held is revoked; a cell of
ING_PROC, PAR_REG or ODR_LDPC shows FENCED in its block's status, and a LUN is lost. A fence that is not confirmed within 4 ticks gives way
to a fence of what contains the unit, a cell's block or a block's region, which takes the unit in, with what was fenced with it; the error
behind it shows.
A region's fence that is not confirmed within 4 ticks leads to the chip safe state (R30, R493): PLT_STAT.SAFE is set, the cause is 1 with the
region's number, PLT_REG's error shows, and then the recorders, the power-failure sequence and the flash are halted.
Which block contains a cell is the model's reading (log entry 78). -/
def Obligations.FenceSteps : Prop :=
  (∀ (s : State) (f : Fence), s.dev.plat.fences = [f] → fenceUnit f.unit = f.unit →
    let d := s.dev
    let open_ : Dev := { d with plat := { d.plat with fences := [] } }
    let outer := if (containing f.unit).1 = f.unit then (containing f.unit).2 else (containing f.unit).1
    (f.within = [] → f.unit < 2 ^ 32 → completes (.fenceConfirm f.unit) s fun e => ∃ m : Dev, m.unitAt f.unit = .fenced ∧ m.plat.fences = [] ∧
      m.regs = d.regs ∧ d.sameRegions m ∧ m = open_.setUnit f.unit .fenced ∧ e = (m.revokeWork f.unit).hatPump) ∧
    (f.within = [] →
      (∀ i, cellAt f.unit = some (.codec i) → completes (.fenceConfirm f.unit) s fun e =>
        e = (open_.wr F.ingProcFenced_codec (d.rd F.ingProcFenced_codec ||| 2 ^ i)).hatPump) ∧
      (∀ i, cellAt f.unit = some (.sha i) → completes (.fenceConfirm f.unit) s fun e =>
        e = (open_.wr F.ingProcFenced_sha (d.rd F.ingProcFenced_sha ||| 2 ^ i)).hatPump) ∧
      (∀ i, cellAt f.unit = some (.stripe i) → completes (.fenceConfirm f.unit) s fun e =>
        e = (open_.wr F.parEngFenced (d.rd F.parEngFenced ||| 2 ^ i)).hatPump) ∧
      (∀ i, cellAt f.unit = some (.ldpc i) → completes (.fenceConfirm f.unit) s fun e =>
        e = ((open_.wr F.ldpcFenced (d.rd F.ldpcFenced ||| 2 ^ i)).decoderFrees i).hatPump) ∧
      (∀ k, cellAt f.unit = some (.lun k) → completes (.fenceConfirm f.unit) s fun e => e = (open_.lunGone k).hatPump) ∧
      (∀ i, cellAt f.unit = some (.core i) → completes (.fenceConfirm f.unit) s fun e => ∃ m : Dev,
        m = (open_.setUnit (corePage i) .fenced).coreGone i ∧ e = (if m.rd F.seqCoreStat_fenced = 255 then m.fence1 Pg.seqReg f.err else m).hatPump)) ∧
    (4 ≤ d.since f.tick → f.unit ≠ (containing f.unit).2 → masterOf outer = outer → containing outer = (outer, (containing f.unit).2) →
      d.unitAt outer ≠ .fenced → d.unitAt (containing f.unit).2 ≠ .fenced → masterOf (containing f.unit).2 = (containing f.unit).2 →
      (d.unitAt outer = .off → ∀ k i, kindAt outer = some (k, i) → k.desc.isolate = false) →
      completes (.fenceTimeout f.unit) s fun e => (∀ p b, f.err = some (p, b) → b < 32 → e.errorShows p b) ∧
        ∃ g ∈ e.plat.fences, g.unit = outer ∧ g.tick = d.now ∧ f.unit ∈ g.within ∧ ∀ u ∈ f.within, u ∈ g.within)) ∧
  (∀ (s : State) (f : Fence) (r : Nat), s.dev.plat.fences = [f] → f.unit = r * 0x100000 → r < 12 → fenceUnit f.unit = f.unit →
    4 ≤ s.dev.since f.tick → s.dev.plat.safe = false →
    completes (.fenceTimeout f.unit) s fun e => e.plat.safe = true ∧ ∃ m n : Dev, m.plat.safe = true ∧ m.flag F.pltStat_safe = true ∧
      m.rd F.pltSafeCause_cause = 1 ∧ m.rd F.pltSafeCause_region = r ∧ m.errorShows Pg.pltReg Er.pltReg_safeState ∧
      (∀ p b, f.err = some (p, b) → b < 32 → m.errorShows p b) ∧ s.dev.sameRegions m ∧
      n = (if m.holdAbortAll.plat.tp.isSome then m.holdAbortAll else (m.holdAbortAll.onPlat fun p => { p with
        tp := some m.holdAbortAll.now }).onSfl fun x => { x with frozen := true, reads := [] }).wr F.sflStat 3 ∧
      e = ({ n with plat := { n.plat with fences := n.plat.fences.map (fun g => if g = f then { g with tick := n.now } else g) } } : Dev).hatPump)

/-- RESET_N_ASSERT, SOFT_RESET_TAKES_EFFECT, STARTUP, READY, JTAG_RESET, PERST_N_RELEASE and TAP_INSTRUCTION (R56, R516–R521, R527): what a chip
reset leaves, and the steps that lead from it to READY. -/
def Obligations.ResetCommands : Prop :=
  ∀ s : State,
    (∀ confirmed, completes (.resetNAssert confirmed) s fun e => e.flag F.pltRstCause_pin = true ∧ e.mram = s.dev.mram ∧
      e.plat.boot = .reset ∧ e.plat.safe = false ∧ e.plat.tick = 0 ∧ e.cst = Dev.reset.cst ∧ e.bpm = Dev.reset.bpm ∧ e.hat = Dev.reset.hat ∧
      e.force = Dev.reset.force ∧ e.shadow = Dev.reset.shadow ∧ e.plat.absent = s.dev.plat.absent ∧
      e.sfl.units = s.dev.confirmedEnd confirmed) ∧
    (∀ ready, s.dev.softResetDue ready = true → completes (.softResetTakesEffect ready) s fun e => e.flag F.pltRstCause_soft = true ∧
      e.plat.boot = .reset ∧ e.plat.softReset = none ∧ e.plat.tick = 0 ∧ e.cst = Dev.reset.cst ∧ e.bpm = Dev.reset.bpm) ∧
    (∀ x : StartIn, x.testEn = true → s.dev.plat.boot = .reset →
      completes (.startup x) s fun e => e.plat.boot = .test ∧ e.plat.testEn = true ∧ e.plat.tick = 0 ∧ e.plat.jdmsel = x.jdmsel ∧
        e.plat.refsel = x.refsel ∧ s.dev.sameRegions e) ∧
    (∀ x : StartIn, x.testEn = false → s.dev.plat.boot = .reset →
      completes (.startup x) s fun e => e.plat.tick = 0 ∧ e.plat.jdmsel = x.jdmsel ∧ e.plat.refsel = x.refsel ∧ e.plat.testEn = false ∧
        ∃ m : Dev, m.plat.boot = .starting ∧ m.plat.tick = 0 ∧ m.plat.perst = x.perst ∧ m.flag F.pltStat_jdmsel = x.jdmsel ∧
          m.flag F.pltStat_refsel = x.refsel ∧ (∀ n, n < 4 → m.ad8 n = x.jdmsel) ∧ s.dev.sameRegions m ∧ e = m.startWork x) ∧
    (∀ us10, s.dev.plat.boot = .starting → s.dev.plat.pfPin = false → s.dev.plat.softReset = none → s.dev.plat.safe = true →
      completes (.ready us10) s fun e => e.plat = { s.dev.plat with boot := .ready } ∧ e.flag F.pltStat_ready = true ∧
        e.rd F.mg0Start = us10 % 65536 ∧ e.mram = s.dev.mram ∧ s.dev.sameRegions e) ∧
    (∀ us10, s.dev.plat.boot = .starting → s.dev.plat.pfPin = false → s.dev.plat.softReset = none → s.dev.activeProf = none →
      completes (.ready us10) s fun e => e.plat = { s.dev.plat with boot := .ready } ∧ e.flag F.pltStat_ready = true ∧
        e.rd F.mg0Start = us10 % 65536 ∧ e.mram = s.dev.mram ∧ s.dev.sameRegions e) ∧
    (∀ us10 p, s.dev.plat.boot = .starting → s.dev.plat.pfPin = false → s.dev.plat.softReset = none → s.dev.plat.safe = false →
      s.dev.activeProf = some p → completes (.ready us10) s fun e => ∃ m : Dev, m.plat = { s.dev.plat with boot := .ready } ∧
        m.flag F.pltStat_ready = true ∧ m.rd F.mg0Start = us10 % 65536 ∧ m.mram = s.dev.mram ∧ s.dev.sameRegions m ∧
        e = ((List.range 4).filter (leNat (m.profBytes p 16 1)).testBit).foldl (fun (x : Dev) n => x.spinNamed n)
          (((List.range 32).filter (leNat (m.profBytes p 12 4)).testBit).foldl (fun (x : Dev) n => x.sesEvent n .arm) m)) ∧
    (completes .jtagReset s fun e => e = { s.dev with plat := { s.dev.plat with tap := .idcode } }) ∧
    (completes .perstNRelease s fun e => e = { s.dev with plat := { s.dev.plat with perst := true } }) ∧
    (∀ i, (i = .pins → s.dev.plat.testEn = true) → completes (.tapInstruction i) s fun e => e.plat = { s.dev.plat with tap := i } ∧
      (i = .idcode → e.readVal = 0x16410B47) ∧ (i = .bypass → e.readVal = 0) ∧ e.regs = s.dev.regs ∧ s.dev.sameRegions e)

/-! ## The tick and the engines -/

/-- TICK_BOUNDARY and time (R9, R14): outside chip reset the tick counter increments by one at each tick boundary, and no command but
TICK_BOUNDARY, STARTUP and the two resets moves it, or the pins latched at start-up. -/
def Obligations.TimePasses : Prop :=
  ∀ s : State, s.dev.plat.boot ≠ .reset →
    (∀ env, completes (.tickBoundary env) s fun e => e.plat.tick = s.dev.plat.tick + 1 ∧ e.plat.jdmsel = s.dev.plat.jdmsel ∧
      e.plat.refsel = s.dev.plat.refsel ∧ e.plat.testEn = s.dev.plat.testEn) ∧
    (∀ c, (∀ env, c ≠ .tickBoundary env) → (∀ x, c ≠ .startup x) → (∀ l, c ≠ .resetNAssert l) → (∀ r, c ≠ .softResetTakesEffect r) →
      completes c s fun e => e.plat.tick = s.dev.plat.tick ∧ e.plat.jdmsel = s.dev.plat.jdmsel ∧
        e.plat.refsel = s.dev.plat.refsel ∧ e.plat.testEn = s.dev.plat.testEn)

/-- COMPUTE_WINDOW_CLOSE (R16): the cell that was not finished holds its output, and its block's flag and counter show the overrun: a spindle's
vector, a stepper's speed, an adjustment tap, and an engine's loops, whose copies do not arrive. -/
def Obligations.OverrunsHold : Prop :=
  ∀ s : State,
    (∀ n, n < 4 → completes (.computeWindowClose (.dtc n)) s fun e => e.rd (F.spCnt n 8) = satInc 32 (s.dev.rd (F.spCnt n 8)) ∧
      e.errorShows (Pg.motSp n) Er.motSp_dtcOverrun ∧
      e = ((s.dev.count (F.spCnt n 8)).raise (Pg.motSp n) Er.motSp_dtcOverrun).onSpin n fun x => { x with nextVec := x.vec }) ∧
    (∀ a, a < 8 → (s.dev.axis a).st ≠ 0 → s.dev.axisOff a = false →
      completes (.computeWindowClose (.step a)) s fun e => e.rd (F.stCnt a 6) = satInc 32 (s.dev.rd (F.stCnt a 6)) ∧
        e.errorShows (Pg.motSt a) Er.motSt_stepOverrun ∧
        e = ((s.dev.count (F.stCnt a 6)).raise (Pg.motSt a) Er.motSt_stepOverrun).onAxis a fun x =>
          { x with v := x.prev.1, a := x.prev.2.1, dir := x.prev.2.2, next := 0 }) ∧
    (∀ i, s.dev.calSteps i = true → s.dev.cal.skip.contains i = false →
      completes (.computeWindowClose (.tap i)) s fun e => e.cal = { s.dev.cal with skip := s.dev.cal.skip ++ [i] } ∧
        e.errorShows Pg.calReg Er.calReg_tapOverrun ∧ e.rd (F.calCnt 4) = satInc 32 (s.dev.rd (F.calCnt 4))) ∧
    (∀ g l i, g < 12 → l < 23 → s.dev.servoOn (g / 3) = true → (s.dev.computing (g / 3)).contains g = true →
      (s.dev.srvDrive (g / 3)).saved = some i →
      completes (.computeWindowClose (.servo g [l])) s fun e =>
        (e.eng g).img = (s.dev.eng g).img.map (fun j => j.onLoop l fun _ => i.loop l) ∧ e.errorShows (Pg.srvEng g) Er.srvEng_overrun ∧
        (e.srvDrive (g / 3)).late = (s.dev.srvDrive (g / 3)).late ++ [(g, l)])

/-- OUTPUT_DISPATCH (R348, R376–R379), in the one drive whose engines compute, with both roles held, no copy late and no fault injected: copies
that agree are kept, and role A's image is the one to commit; where images differ, DISAGREE is raised on both engines' pages, both go to
SELFCHECK, the tick is held and no image is committed.
SELF_CHECK_VERDICT (R379, R381), of an engine in SELFCHECK: its signature is shown and counted, and the hold ends; an engine of a role whose
signature matches resumes it with the last committed image, one without a role is COLD where others hold both roles, and one whose
signature differs is retired: it leaves its role and starts the self-test. -/
def Obligations.DispatchAndVerdict : Prop :=
  (∀ (s : State) (n a b : Nat) (i j : Image), n < 4 → (∀ k, k < 4 → (s.dev.servoOn k = true ↔ k = n)) →
    s.dev.inRole n 1 = some a → s.dev.inRole n 2 = some b → (s.dev.eng a).st = 3 → (s.dev.eng b).st = 3 →
    (s.dev.eng a).img = some i → (s.dev.eng b).img = some j → (s.dev.srvDrive n).late = [] → (s.dev.srvDrive n).sprout = none →
    (∀ g ∈ engsOf n, (s.dev.eng g).st ≠ 2) → s.dev.plat.armed = [] →
    (i = j → completes (.outputDispatch []) s fun e => (e.srvDrive n).pick = some a ∧ e.toCommit n = (if (s.dev.srvDrive n).heldAt.isSome
        then none else some i) ∧ (∀ l, l < 23 → (e.srvDrive n).kept.lookup l = some ((i.loop l).out, false)) ∧ e.regs = s.dev.regs) ∧
    (i ≠ j → completes (.outputDispatch []) s fun e => (e.eng a).st = 4 ∧ (e.eng b).st = 4 ∧
      e.errorShows (Pg.srvEng a) Er.srvEng_disagree ∧ e.errorShows (Pg.srvEng b) Er.srvEng_disagree ∧
      (e.srvDrive n).heldAt = some s.dev.now ∧ (e.srvDrive n).kept = [] ∧ e.toCommit n = none ∧
      e.mram.redCount = s.dev.mram.redCount + 1)) ∧
  (∀ (s : State) (n g : Nat) (i : Image), n < 4 → g ∈ engsOf n → (s.dev.eng g).st = 4 → (s.dev.srvDrive n).heldAt ≠ some s.dev.now →
    (s.dev.srvDrive n).saved = some i →
    ∀ pass : List Bool, completes (.selfCheckVerdict n pass) s fun e => (e.srvDrive n).heldAt = none ∧
      e.rd (F.srvEngRcnt g 0) = satInc 32 (s.dev.rd (F.srvEngRcnt g 0)) ∧
      e.rd (F.srvEngSig g) = Config.signature g (pass.getD (g % 3) false) % 2 ^ 32 ∧
      (pass.getD (g % 3) false = true → (s.dev.eng g).role ≠ 0 → e.eng g = { s.dev.eng g with st := 3, img := some i }) ∧
      (pass.getD (g % 3) false = true → (s.dev.eng g).role = 0 →
        (∀ r, r = 1 ∨ r = 2 → ∃ k, s.dev.inRole n r = some k ∧ (s.dev.eng k).st ≠ 4) → e.eng g = { s.dev.eng g with st := 0, img := none }) ∧
      (pass.getD (g % 3) false = false →
        e.eng g = { s.dev.eng g with st := 5, role := 0, for_ := 0, test := s.dev.now + 1, img := none } ∧
        e.errorShows (Pg.srvEng g) Er.srvEng_selfcheckFail ∧
        e.rd (F.srvEngRed_retired g) = min 255 (s.dev.rd (F.srvEngRed_retired g) + 1)))

/-- SEED_BRINGUP_DONE and SELFTEST_DONE (R381, R382): after three ticks of LOADING the engine's copy has been checked and it holds the last
committed image, in SHADOW for a Sprout, or it takes the role it was brought up for; a load that SECDED cannot correct takes one tick more,
with IMAGE_UE. After the 4,000 ticks of its self-test an engine that fails is FAILED, and one that passes, with fewer than two retirements,
is COLD where others hold both roles.
SPROUT_DUE, SRV_RED_CTRL_SPROUT, SPROUT_START and SPROUT_SWITCH (R384–R386): a Sprout falls due PERIOD seconds after the last one started,
or when SRV_RED_CTRL names a drive that is ACTIVE with a COLD Seed; it starts with the bring-up of the Seed, against the engine that has
held its role longer, role A's on a tie; after 64 matches the Seed takes that role and the outgoing engine starts its self-test. -/
def Obligations.SproutRuns : Prop :=
  (∀ (s : State) (g : Nat), g < 12 →
    let d := s.dev
    ((d.eng g).st = 1 → (d.eng g).tr + 2 ≤ d.now →
      (completes (.seedBringupDone g true) s fun e => e.eng g = { d.eng g with tr := (d.eng g).tr + 1 } ∧
        e.errorShows Pg.srvReg (Er.srvReg_imageUe + g / 3)) ∧
      ((d.eng g).for_ = 0 → completes (.seedBringupDone g false) s fun e => ∃ m : Dev, m = d.csCheck (g / 3) g ∧ e = m.onEng g fun x =>
        { x with st := 2, same := 0, img := some ((m.toCommit (g / 3)).getD ((m.srvDrive (g / 3)).saved.getD Image.reset)) }) ∧
      ((d.eng g).for_ ≠ 0 → completes (.seedBringupDone g false) s fun e => ∃ m : Dev, m = d.csCheck (g / 3) g ∧
        e = (m.takeRole (g / 3) g (d.eng g).for_ (some ((m.toCommit (g / 3)).getD ((m.srvDrive (g / 3)).saved.getD Image.reset)))).logRed 3 (g / 3) g
          0xFF 0 0 0 ∧ (e.eng g).st = 3 ∧ (e.eng g).role = (d.eng g).for_)) ∧
    ((d.eng g).st = 5 → (d.eng g).test + 3999 ≤ d.now →
      (completes (.selftestDone g false) s fun e => e.errorShows (Pg.srvEng g) Er.srvEng_selftestFail ∧
        e.eng g = { d.eng g with st := 6, img := none } ∧ e.rd (F.srvEngRcnt g 2) = satInc 32 (d.rd (F.srvEngRcnt g 2)) ∧
        e.rd (F.srvEngRcnt g 3) = satInc 32 (d.rd (F.srvEngRcnt g 3)) ∧ ∀ k, k ≠ g → e.eng k = d.eng k) ∧
      (d.rd (F.srvEngRed_retired g) < 2 → d.hasRole (g / 3) 1 = true → d.hasRole (g / 3) 2 = true →
        completes (.selftestDone g true) s fun e => e.eng g = { d.eng g with st := 0, img := none } ∧
          e.rd (F.srvEngRcnt g 2) = satInc 32 (d.rd (F.srvEngRcnt g 2)) ∧ ∀ k, k ≠ g → e.eng k = d.eng k))) ∧
  (∀ (s : State) (n : Nat), n < 4 →
    let d := s.dev
    (d.flag F.srvRedCfg_sproutEn = true → d.rd F.srvRedCfg_period * 400000 ≤ d.since (d.srvDrive n).lastDue →
      completes (.sproutDue n) s fun e => e = d.onSrvDrive n fun v => { v with due := true }) ∧
    (d.writesBlocked = false → d.driveOn n = true → (d.coldSeed n).isSome = true →
      completes (.srvRedCtrlSprout (0x5B000000 + 2 ^ n)) s fun e => e = d.onSrvDrive n fun v => { v with due := true }) ∧
    (∀ g a b, d.coldSeed n = some g → d.inRole n 1 = some a → d.inRole n 2 = some b → (d.srvDrive n).due = true → d.driveOn n = true →
      d.rd (F.pltFwReg_state 9) = 0 → (d.srvDrive n).heldAt = none →
      completes (.sproutStart n) s fun e => ∃ m : Dev,
        m = ((d.onEng g fun x => { x with st := 1, tr := d.now + 1, for_ := 0, same := 0 }).onSrvDrive n fun v => { v with
          due := false, lastDue := d.now + 1, sprout := some (g, if d.since (d.eng a).since < d.since (d.eng b).since then b else a) }).wr (F.srvRedStat_sprout n) 1 ∧
        m.eng g = { d.eng g with st := 1, tr := d.now + 1, for_ := 0, same := 0 } ∧ (m.srvDrive n).due = false ∧ (m.srvDrive n).lastDue = d.now + 1 ∧
        (m.srvDrive n).sprout = some (g, if d.since (d.eng a).since < d.since (d.eng b).since then b else a) ∧
        m.rd (F.srvRedStat_sprout n) = 1 ∧ e = m.showRed n) ∧
    (∀ g o, g ∈ engsOf n → o ∈ engsOf n → (d.srvDrive n).sprout = some (g, o) → (d.eng g).st = 2 → 64 ≤ (d.eng g).same → (d.eng o).st = 3 →
      completes (.sproutSwitch n) s fun e => ∃ m : Dev,
        m = ((d.onSrvDrive n fun v => { v with sprout := none, pick := if v.pick = some o then some g else v.pick }).wr
          (F.srvRedStat_sprout n) 0).onEng o (fun x => { x with st := 5, role := 0, test := d.now + 1, img := none }) ∧
        (m.srvDrive n).sprout = none ∧ m.rd (F.srvRedStat_sprout n) = 0 ∧
        m.eng o = { d.eng o with st := 5, role := 0, test := d.now + 1, img := none } ∧ m.eng g = d.eng g ∧
        e = ((m.takeRole n g (d.eng o).role (d.eng g).img).count (F.srvRedCnt n 2)).logRed 4 n g o 0 0 0))

/-! ## Lanes, Pods, frames and sessions -/

/-- LANE_CDR_LOCK, LANE_SYNC_LOCK, LANE_LOST and LANE_SIGNAL_LOSS (R64, R104): the lane's next state, as its status register shows it, with the
invalid sync headers received counted; an exit from UP is counted, sets LANE_LOST on every stream that the lane serves and takes DOWN the path of
a stream's group; a head link whose lane leaves UP is lost. No other lane changes before that.
AM_RECEIVED (R63, R64, R280): when every lane of a stream's group, or of a head link, has an AM of one marker count with the epoch in force and
the skew is at most 160 ns, the lanes are UP and the path serves. -/
def Obligations.LanesComeUp : Prop :=
  (∀ (s : State) (l bad : Nat), l < 80 →
    let d := s.dev
    let now (e : Dev) (st : LaneSt) (code : Nat) : Prop := (e.lane l).st = st ∧ (∀ k, k ≠ l → e.lane k = d.lane k) ∧
      (l < 64 → e.rd (F.ingLaneStat_state (l / 16) (l % 16)) = code) ∧
      (64 ≤ l → e.rd (F.hlLaneStat_state ((l - 64) / 4) ((l - 64) % 4)) = code) ∧ e.plat = d.plat ∧ e.cst = d.cst ∧ e.bpm = d.bpm ∧
      e.mram = d.mram ∧ e.ing.streams = d.ing.streams
    let heard (e : Dev) : Prop := l < 64 → e.rd (F.ingLaneErr_syncErr (l / 16) (l % 16)) =
      min 65535 (d.rd (F.ingLaneErr_syncErr (l / 16) (l % 16)) + bad)
    let left (e : Dev) : Prop := e.rd (F.ingLaneErr_lockLoss (l / 16) (l % 16)) = satInc 16 (d.rd (F.ingLaneErr_lockLoss (l / 16) (l % 16)))
    ((d.lane l).st = .detect → completes (.laneCdrLock l) s fun e => now e .locking 2) ∧
    ((d.lane l).st = .locking → completes (.laneSyncLock ⟨l, bad⟩) s fun e => now e .locked 3 ∧ heard e) ∧
    ((d.lane l).st = .locking ∨ (d.lane l).st = .locked → l < 64 → completes (.laneSignalLoss ⟨l, bad⟩) s fun e => now e .detect 1 ∧ heard e) ∧
    ((d.lane l).st = .up → l < 64 →
      (completes (.laneLost ⟨l, bad⟩) s fun e => ∃ m : Dev, now m .locking 2 ∧ heard m ∧ left m ∧ e = m.lanesDown l) ∧
      (completes (.laneSignalLoss ⟨l, bad⟩) s fun e => ∃ m : Dev, now m .detect 1 ∧ heard m ∧ left m ∧ e = m.lanesDown l) ∧
      (∀ g ∈ d.streamsAt l, completes (.laneLost ⟨l, bad⟩) s fun e => e.errorShows (Pg.ingStr g) Er.ingStr_laneLost)) ∧
    ((d.lane l).st = .up → 64 ≤ l →
      (completes (.laneLost ⟨l, bad⟩) s fun e => ∃ m : Dev, now m .locking 2 ∧
        e = if d.headUp ((l - 64) / 4) then m.headLost ((l - 64) / 4) else m) ∧
      (completes (.laneSignalLoss ⟨l, bad⟩) s fun e => ∃ m : Dev, now m .detect 1 ∧
        e = if d.headUp ((l - 64) / 4) then m.headLost ((l - 64) / 4) else m)) ∧
    (∀ g p, (d.lane l).st = .up → l < 64 → d.groupsOf l = [(g, p, d.bond g)] → (d.path g p).st ≠ .down →
      completes (.laneLost ⟨l, bad⟩) s fun e => (e.path g p).st = .down ∧ e.errorShows (Pg.ingStr g) Er.ingStr_laneLost)) ∧
  (∀ (s : State) (l g p : Nat) (am : AmBlock) (ams : List AmBlock), l < 64 →
    let d := s.dev
    let m := ((d.badHeaders l am.bad).onLane l fun x => { x with am := some am }).wr (F.ingLaneStat_epoch (l / 16) (l % 16)) am.epoch
    (d.lane l).st = .locked → d.groupsOf l = [(g, p, d.bond g)] → m.groupAms (d.stream g).epoch (d.bond g) p = some ams → amSkew ams ≤ 160 →
    (∀ k ∈ bondLanes (d.bond g) p, (d.lane k).st = .locked ∨ (d.lane k).st = .up) → d.groupUp (d.bond g) p = false →
    d.injected (Pg.ingStr g) Er.ingStr_skew = false →
    completes (.amReceived l am) s fun e => (e.path g p).st ≠ .down ∧ ∃ n : Dev, (∀ k ∈ bondLanes (d.bond g) p, (n.lane k).st = .up) ∧
      n.rd (F.ingLaneStat_epoch (l / 16) (l % 16)) = am.epoch % 16 ∧ n.plat = d.plat ∧ n.ing.streams = d.ing.streams ∧ e = n.pathUp g p) ∧
  (∀ (s : State) (l : Nat) (am : AmBlock) (ams : List AmBlock), 64 ≤ l → l < 80 →
    let d := s.dev
    let n := (l - 64) / 4
    (d.lane l).st = .locked → (d.onLane l fun x => { x with am := some am }).headAms n = some ams → amSkew ams ≤ 160 →
    (∀ k ∈ d.headLanes n, (d.lane k).st = .locked ∨ (d.lane k).st = .up) →
    completes (.amReceived l am) s fun e => (∀ k ∈ d.headLanes n, (e.lane k).st = .up) ∧ e.plat = d.plat ∧ e.ing.streams = d.ing.streams)

/-- POD_RECEIVED, discards (R70, R71): the checks in their order. The first that matches counts in its ING_STR_CNT register and raises its
error (DUP raises none); a Pod of more than 4 blocks has consumed one credit, which comes back.
POD_RECEIVED, accepted Pods (R70, R75, R80): an IDLE_POD becomes the newest SEQ of a stream that had none, with its record in the
window; a DATA Pod of an open frame is accepted into it. -/
def Obligations.PodsChecked : Prop :=
  (∀ (s : State) (pod : PodArrival),
    let d := s.dev
    let g := pod.stream
    let h := podHdr pod.bytes
    let long := decide (32 < pod.bytes.length)
    let taken : Dev := if long then d.onPath g pod.path fun x => { x with consumed := x.consumed + 1 } else d
    let gone (cnt : Nat) (bit : Option Nat) : Prop := completes (.podReceived pod) s fun e => ∃ m : Dev,
      m.rd (F.ingStrCnt g cnt) = satInc 32 (d.rd (F.ingStrCnt g cnt)) ∧
      (∀ k, k < 13 → k ≠ cnt → m.rd (F.ingStrCnt g k) = d.rd (F.ingStrCnt g k)) ∧ (∀ b, bit = some b → m.errorShows (Pg.ingStr g) b) ∧
      m.ing = taken.ing ∧ m.cst = d.cst ∧ e = if long then m.returnCredit g pod.path else m
    (d.path g pod.path).st ≠ .down → d.streamOn g = true → d.closed (Pg.ingStr g) = false → d.regionFenced 3 = false →
    (∀ b, d.injected (Pg.ingStr g) b = false) →
    (h.crcOk = false ∨ pod.bytes.length < 32 → gone 1 (some Er.ingStr_hdrCrc)) ∧
    (h.crcOk = true → 32 ≤ pod.bytes.length →
      (podFormatOk h pod.bytes g = false ∨ d.epochOk g pod.epoch = false → gone 3 (some Er.ingStr_format)) ∧
      (podFormatOk h pod.bytes g = true → d.epochOk g pod.epoch = true →
        (long = true → (d.path g pod.path).granted ≤ (d.path g pod.path).consumed → gone 4 (some Er.ingStr_overrun)) ∧
        (long = false ∨ (d.path g pod.path).consumed < (d.path g pod.path).granted →
          (0 < h.length → crc32c (slice pod.bytes 32 h.length) ≠ fieldAt pod.bytes (32 + h.length) 4 → gone 2 (some Er.ingStr_payCrc)) ∧
          (h.length = 0 ∨ crc32c (slice pod.bytes 32 h.length) = fieldAt pod.bytes (32 + h.length) 4 →
            ((d.stream g).tooOld h.seq = true ∨ (h.ty = 1 ∧ (d.stream g).closed.contains h.frame = true) → gone 5 (some Er.ingStr_late)) ∧
            ((d.stream g).tooOld h.seq = false → ¬ (h.ty = 1 ∧ (d.stream g).closed.contains h.frame = true) →
              (∀ r, (d.stream g).pods.find? (·.seq == h.seq) = some r → bondDual (d.bond g) = false ∨ r.path = pod.path → gone 6 none) ∧
              ((d.stream g).pods.find? (·.seq == h.seq) = none → h.ty = 1 → d.chunkOk g h = false → gone 3 (some Er.ingStr_format)))))))) ∧
  (∀ (s : State) (pod : PodArrival),
    let d := s.dev
    let g := pod.stream
    let h := podHdr pod.bytes
    (d.path g pod.path).st ≠ .down → d.streamOn g = true → d.closed (Pg.ingStr g) = false → d.regionFenced 3 = false →
    d.judgePod pod h = .accept →
    (h.ty = 15 → h.length = 0 → pod.bytes.length = 32 → (d.stream g).newest = none → (d.stream g).pods = [] →
      completes (.podReceived pod) s fun e => e.rd (F.ingStrCnt g 0) = satInc 32 (d.rd (F.ingStrCnt g 0)) ∧
        (e.stream g).newest = some h.seq ∧ (e.stream g).frames = (d.stream g).frames ∧ (∀ k, k ≠ g → e.stream k = d.stream k) ∧
        (e.stream g).pods = [⟨h.seq, h.frame, h.offset, 0, setBit h.flags 4 false, 0, pod.path, d.now, bondDual (d.bond g), false, 0⟩] ∧
        e.cst = d.cst ∧ e.plat = d.plat ∧ e.mram = d.mram) ∧
    (∀ f, h.ty = 1 → pod.bytes.length = h.length + 40 → 256 ≤ h.length → (d.openFrames g).find? (·.frame == h.frame) = some f →
      completes (.podReceived pod) s fun e =>
        e = (d.onPath g pod.path fun x => { x with consumed := x.consumed + 1 }).acceptPod pod h f.pn))

/-- FRAME_COMPLETE and TIMEOUT (R84, R85): a frame whose chunks are all covered and written, its metadata up to a LAST metadata Pod, closes
complete: its entry and lookup slot are written, it is counted, ING_STR_LAST names it and its number is the newest of the stream's last 256;
one still open after its timeout closes incomplete, with TIMEOUT. A closed frame of no take falls out of a ring of no buffers at once.
POD_PAYLOAD_WRITTEN, CREDIT_POD_PERIODIC and PAIRING_TIMEOUT (R69, R71, R72, R76, R77): a payload that stands in the store gives its credit
back; a CREDIT Pod goes out; a pairing that closes with one copy counts against the other path, which is DEGRADED at 64 in a row.
That all chunks and a LAST metadata Pod are asked for is the model's reading (log entry 22), and so is what falls out of a ring of no
buffers (log entry 24). -/
def Obligations.FramesAndCredits : Prop :=
  (∀ (s : State) (g pn : Nat) (f : FrameRec),
    let d := s.dev
    d.frameOf g pn = some f →
    (d.canComplete g f = true → completes (.frameComplete g pn) s fun e => ∃ (m n : Dev) (x : FrameRec),
      x = { f with closed := true, endTick := d.now } ∧ m = (d.onFrame g pn fun _ => x).writeEntry g x ∧
      n = ((((((m.writeLookup g x (m.storeLocation g x)).noteClosed g f.frame).onStream g fun st => { st with newDone := f.frame }).put64
        (F.ingStrLastLo g) (F.ingStrLastHi g) (m.storeLocation g x)).count (F.ingStrCnt g 10)).when x.hollow (·.count (F.ingStrCnt g 11))).showOpen g ∧
      n.rd (F.ingStrCnt g 10) = satInc 32 (m.rd (F.ingStrCnt g 10)) ∧
      n.rd (F.ingStrLastLo g) = m.storeLocation g x % 2 ^ 32 ∧ Map.get 0 n.plat.hiLive (F.ingStrLastHi g).addr = m.storeLocation g x / 2 ^ 32 ∧
      (n.stream g).closed = (f.frame :: (m.stream g).closed).take 256 ∧ (n.stream g).newDone = f.frame ∧ e = n.fallsOut g pn) ∧
    (f.closed = false → d.rd (F.ingStrTime_timeout g) ≤ d.since f.firstTick → d.unitAt (Pg.ingStr g) ≠ .fenced →
      completes (.timeout g pn) s fun e => ∃ m : Dev,
        m = ((d.takeInjected (Pg.ingStr g) Er.ingStr_timeout).closeIncomplete g pn 1).raise (Pg.ingStr g) Er.ingStr_timeout ∧
        m.errorShows (Pg.ingStr g) Er.ingStr_timeout ∧ e = m.fallsOut g pn)) ∧
  (∀ (d : Dev) (g pn : Nat) (f : FrameRec), d.frameOf g pn = some f → f.closed = true → f.gone = false →
    d.fallsOut g pn = if d.rd (F.ingStrRing g) = 0 ∧ f.take_ = none then (d.onFrame g pn fun y => { y with released := true }).reclaim g else d) ∧
  (∀ (s : State) (g p q : Nat),
    let d := s.dev
    (∀ r, r ∈ (d.stream g).pods → r.seq = q → r.path = p → r.writing = true →
      completes (.podPayloadWritten g p q) s fun e => ∃ m : Dev, (m.path g p).held = (d.path g p).held - 1 ∧
        (∀ x ∈ (m.stream g).pods, x.seq = q → x.writing = false) ∧ m.regs = d.regs ∧ e = m.returnCredit g p ∧
        (d.creditStopped g = false → d.underPressure g = false → (e.path g p).granted = (d.path g p).granted + 1)) ∧
    (d.streamOn g = true → p ∈ bondPaths (d.bond g) → completes (.creditPodPeriodic g p) s fun e =>
      e = { d with out := d.out ++ [.credit g p (d.creditPod g p)] }) ∧
    (∀ r, (d.stream g).pods.find? (·.seq == q) = some r → r.isOpen = true → d.rd (F.ingStrTime_pairWait g) ≤ d.since r.tick →
      bondDual (d.bond g) = true → r.path < 2 →
      completes (.pairingTimeout g q) s fun e => e.rd (F.ingStrCnt g (8 + (1 - r.path))) = satInc 32 (d.rd (F.ingStrCnt g (8 + (1 - r.path)))) ∧
        (∀ x ∈ (e.stream g).pods, x.seq = q → x.isOpen = false) ∧ (e.path g (1 - r.path)).single = (d.path g (1 - r.path)).single + 1 ∧
        ((d.path g (1 - r.path)).st = .active → 63 ≤ (d.path g (1 - r.path)).single →
          (e.path g (1 - r.path)).st = .degraded ∧ e.errorShows (Pg.ingStr g) Er.ingStr_pathDegraded)))

/-- SES_CTRL_ARM, SES_CTRL_TRIGGER, SES_CTRL_STOP, SES_CTRL_DISARM and TRG_EDGE (R89, R90): an event that the state table accepts waits for the
boundary, a trigger with its instant, which marks the first frame of each member placed at or after it; one that it does not is counted, and
nothing else of the session changes.
SESSION_STATE_APPLY, POST_EXPIRY and TAKE_SEALED (R88, R89, R93): an event waits out its tick; at the boundary after it an ARM arms the session and clears LIVE on its ring
frames, a trigger starts a take that every ring frame joins, a STOP or the end of POST stops it; when every take frame has closed
the take record is sealed and the session is ARMED again where REARM is set, else OFF.
LTC_FRAME_DECODED and LTC_LOSS (R90, R91): a decoded frame is the current timecode, valid, and triggers the sessions whose ING_SES_TC it
equals; after two frame periods without one VALID clears.
That a frame counts as placed at the SOP that opens it, and that a member counts as enabled while its group is FENCED, are the model's
readings (log entries 87 and 28). -/
def Obligations.SessionStates : Prop :=
  (∀ (s : State) (n : Nat), n < 32 → s.dev.writesBlocked = false →
    let d := s.dev
    let waits (e : Dev) (ev : SesEvent) : Prop := e.session n = { d.session n with events := (d.session n).events ++ [(d.now, ev)] } ∧
      e.sesSt n = d.sesSt n ∧ (∀ k, k ≠ n → e.session k = d.session k) ∧ e.plat = d.plat ∧ e.cst = d.cst
    let counted (e : Dev) : Prop := (e.session n) = d.session n ∧ e.sesSt n = d.sesSt n ∧ e.ing = d.ing ∧ e.cst = d.cst ∧
      ∃ m : Dev, m.ignoredCount (Pg.ingSes n) = satInc 32 (d.ignoredCount (Pg.ingSes n)) ∧ e = m.sesIgn n
    (d.sesWillBe n = .off → d.membersOn n = true → completes (.sesCtrlArm n) s fun e => waits e .arm) ∧
    (d.sesWillBe n = .off → d.membersOn n = false → completes (.sesCtrlArm n) s counted) ∧
    (d.sesWillBe n = .armed → completes (.sesCtrlDisarm n) s fun e => waits e .disarm) ∧
    (d.sesWillBe n = .run → completes (.sesCtrlStop n) s fun e => waits e .stop) ∧
    (d.sesWillBe n ≠ .run → completes (.sesCtrlStop n) s counted) ∧
    (d.sesWillBe n ≠ .armed → completes (.sesCtrlDisarm n) s counted) ∧
    (∀ ns, d.sesWillBe n = .off → completes (.sesCtrlTrigger n ns) s counted) ∧
    (∀ ns, d.sesWillBe n = .run ∨ d.sesWillBe n = .stopping → completes (.sesCtrlTrigger n ns) s fun e => e.session n = d.session n ∧
      e.sesSt n = d.sesSt n ∧ e.ing = d.ing ∧ e.cst = d.cst ∧ e = (d.count (F.ingSesCntIgn n)).sesIgn n) ∧
    (∀ ns, d.sesWillBe n = .armed → ns < 2500 → completes (.sesCtrlTrigger n ns) s fun e => ∃ m : Dev,
      (m.session n).events = (d.session n).events ++ [(d.now, .trigger 1 (ns / 10) d.timecode d.now)] ∧ m.sesSt n = d.sesSt n ∧
      (m.session n).trigAt = d.now ∧ (m.session n).trigTc = d.timecode ∧ m.ing.streams = d.ing.streams ∧ m.cst = d.cst ∧
      m.get64 (F.ingSesTrigLo n) (F.ingSesTrigHi n) = d.now ∧ m.rd (F.ingSesTrigSub n) = ns / 10 ∧ m.rd (F.ingSesStat_src n) = 1 ∧
      e = (d.members n).foldl (fun (x : Dev) g => x.markTrigger g (250 * d.now + ns / 10)) m ∧
      ((∀ g ∈ d.members n, ∀ f ∈ (d.stream g).frames, f.instant < 250 * d.now + ns / 10 ∨ f.gone = true) →
        ∀ g ∈ d.members n, (e.stream g).trigNext = some (250 * d.now + ns / 10))) ∧
    (∀ j sub, j < 4 → completes (.trgEdge j sub false) s fun e => e = d.wr ⟨F.motStat_trg.addr, 6 + j, 6 + j, false⟩ 0) ∧
    (∀ j sub, j < 4 → (d.rd F.motInChat_trg).testBit j = false → (∀ k, k < 32 → ((d.rd (F.ingSesCfg_trgEn k)).testBit j = true ↔ k = n)) →
      completes (.trgEdge j sub true) s fun e => ∃ m : Dev, m = d.wr ⟨F.motStat_trg.addr, 6 + j, 6 + j, false⟩ 1 ∧
        e = m.sesEvent n (.trigger (4 + j) sub d.timecode d.now))) ∧
  (∀ (s : State) (n : Nat), n < 32 →
    let d := s.dev
    let done : Dev := d.onSession n fun x => { x with events := [] }
    (∀ ev, (d.session n).events = [(d.now, ev)] → completes (.sessionStateApply n) s fun e => e.session n = d.session n ∧ e.regs = d.regs ∧
      e.plat = d.plat ∧ e.cst = d.cst) ∧
    (∀ t, (d.session n).events = [(t, .arm)] → t ≠ d.now → d.sesSt n = .off →
      completes (.sessionStateApply n) s fun e => e.sesSt n = .armed ∧ e = (done.setLive n false).wr (F.ingSesStat_state n) 1) ∧
    (∀ t src sub tc at_, (d.session n).events = [(t, .trigger src sub tc at_)] → t ≠ d.now → d.sesSt n = .armed →
      completes (.sessionStateApply n) s fun e => e.sesSt n = .run ∧ ∃ m : Dev, m.rd (F.ingSesTake n) = (d.rd (F.ingSesTake n) + 1) % 2 ^ 32 ∧
        m.plat = d.plat ∧ m.cst = d.cst ∧ e = (m.joinTake n ((d.rd (F.ingSesTake n) + 1) % 2 ^ 32)).wr (F.ingSesStat_state n) 2) ∧
    (∀ t, (d.session n).events = [(t, .disarm)] → t ≠ d.now → d.sesSt n = .armed →
      completes (.sessionStateApply n) s fun e => e.sesSt n = .off ∧ e = (done.setLive n true).wr (F.ingSesStat_state n) 0) ∧
    (∀ t, (d.session n).events = [(t, .stop)] → t ≠ d.now → d.sesSt n = .run →
      completes (.sessionStateApply n) s fun e => e = done.wr (F.ingSesStat_state n) 3 ∧ e.sesSt n = .stopping) ∧
    (d.sesSt n = .run → d.rd (F.ingSesCfg_post n) ≠ 0 → d.rd (F.ingSesCfg_post n) ≤ d.since (d.session n).trigAt →
      completes (.postExpiry n) s fun e => e = d.wr (F.ingSesStat_state n) 3 ∧ e.sesSt n = .stopping) ∧
    (d.sesSt n = .stopping → d.takeOpen n = false →
      completes (.takeSealed n) s fun e => ∃ m : Dev, m = ((d.sysWrite (takeRecAddr d.ing.takeRecs) (d.takeRecord n)).onIng fun i =>
        { i with takeRecs := i.takeRecs + 1 }) ∧ (d.flag (F.ingSesCfg_rearm n) = false → e = m.wr (F.ingSesStat_state n) 0 ∧ e.sesSt n = .off) ∧
        (d.flag (F.ingSesCfg_rearm n) = true → e = (m.setLive n false).wr (F.ingSesStat_state n) 1 ∧ e.sesSt n = .armed))) ∧
  (∀ s : State,
    (∀ tc rate sub, (∀ n, n < 32 → s.dev.flag (F.ingSesCfg_tcTrig n) = true → s.dev.rd (F.ingSesTc n) ≠ tc) →
      completes (.ltcFrameDecoded tc rate sub) s fun e => e.rd F.ingTc = tc % 2 ^ 32 ∧ e.rd F.ingTcStat_rate = rate % 8 ∧
        e.flag F.ingTcStat_valid = true ∧ e.ing = { s.dev.ing with tcLast := s.dev.now } ∧ e.plat = s.dev.plat ∧ e.cst = s.dev.cst) ∧
    (s.dev.flag F.ingTcStat_valid = true → ltcTwoFrames (s.dev.rd F.ingTcStat_rate) ≤ s.dev.since s.dev.ing.tcLast →
      completes .ltcLoss s fun e => e.flag F.ingTcStat_valid = false ∧ e.timecode = 0xFFFFFFFF ∧ e.plat = s.dev.plat ∧
        s.dev.sameRegions e))

/-- DRAIN_FRAME_START, DRAIN_FRAME_END and FRAME_DURABLE (R94, R97, R101, R102, R104, R182): the drain takes the next take frame of the streams
in turn and reads it once; its end appends the stored frame and its index entry to the volume of the session whose take the frame is in, or,
where the volume has no room, raises VOL_FULL once and the frame waits; an append that fills either region raises VOL_FULL too; a frame whose
units are durable carries DURABLE and its volume LOCATION in its entry, and the watermark follows. That a lookup slot which a newer frame has
taken stays that frame's is the model's choice (log entry 85), and so is that ING_STR_LAST follows where it names the frame (log entry 86). -/
def Obligations.DrainSteps : Prop :=
  ∀ (s : State) (g pn : Nat) (f : FrameRec),
    let d := s.dev
    (∀ bytes holes m, d.flashReady = true → firstFrom 32 d.ing.robin (fun k => d.mayDrain k) = some g → d.nextTake g = some f →
      (d.onIng fun i => { i with robin := (g + 1) % 32 }).readFrame g f = (bytes, holes, m) →
      completes .drainFrameStart s fun e => e.ing.drains = m.ing.drains ++ [m.buildStored g f bytes holes] ∧
        (e.stream g).draining = some f.pn ∧ e.ing.robin = m.ing.robin ∧ e.cst = m.cst ∧
        (m.codecHollow g f holes = true → e.errorShows (Pg.ingStr g) Er.ingStr_codecHollow)) ∧
    (∀ j, d.flashReady = true → d.ing.drains.find? (fun j => j.stream == g && j.pn == pn) = some j → d.frameOf g pn = some f →
      let v := d.frameVol f
      let idx := Map.get 0 d.sfl.idxNext v
      let key := d.rd (F.ingStrCodec_key g)
      let enc := d.flag (F.ingStrCodec_aes g)
      let to_ := d.appendAt v (if enc then key + 1 else 0)
      let len := ceilDiv j.stored.length 256
      let loc := 2 ^ 63 + v * 2 ^ 56 + to_ % 16 * 2 ^ 52 + to_ / 16
      (512 * d.rd (F.sflVolCfg_idx v) ≤ idx ∨ d.rd (F.sflVolSize v) * 4096 * 256 < to_ + len →
        completes (.drainFrameEnd g pn) s fun e => e = (if j.full then d else (d.raise (Pg.sflVol v) Er.sflVol_volFull v).onIng fun i => { i with
          drains := i.drains.map (fun x => if x.stream = g ∧ x.pn = pn then { x with full := true } else x) }).flashMoves) ∧
      (∀ old r, idx < 512 * d.rd (F.sflVolCfg_idx v) → to_ + len ≤ d.rd (F.sflVolSize v) * 4096 * 256 → d.chainRead g f.start 128 = (old, r) →
        completes (.drainFrameEnd g pn) s fun e => ∃ m n : Dev,
          m = ((r.volWrite v (256 * to_) j.stored j.hollow enc key g pn).volWrite v (128 * idx) (drainedEntry old.data j enc true loc)
            (if old.hollow then [0] else []) enc key g pn) ∧
          n = (((((m.onSfl fun x => { x with
            append := Map.set 0 x.append v (to_ + len), idxNext := Map.set 0 x.idxNext v (idx + 1),
            encLast := Map.put x.encLast v (if enc then key + 1 else 0) }).journal 10 0 v (to_ + len) (idx + 1)).2.showAppend v).editEntry g f
              fun b => drainedEntry b j enc false loc).onFrame g pn fun y => { y with drained := true, location := loc }) ∧
          let last := (((n.wr F.ingProcBusy_codec 0).wr F.ingProcBusy_sha 0).onStream g fun st => { st with draining := none }).onIng fun i =>
            { i with drains := i.drains.filter (fun x => !(x.stream == g && x.pn == pn)) }
          e = (if 512 * last.rd (F.sflVolCfg_idx v) ≤ idx + 1 ∨ last.rd (F.sflVolSize v) * 4096 * 256 ≤ to_ + len
            then last.raise (Pg.sflVol v) Er.sflVol_volFull v else last).flashMoves)) ∧
    (d.frameOf g pn = some f → f.drained = true → f.durable = false → (∀ j ∈ d.sfl.jobs, j.why ≠ .capture g pn) →
      completes (.frameDurable g pn) s fun e => ∃ (m n k r w : Dev) (slot : Delivered), m = (d.onFrame g pn fun x => { x with durable := true }) ∧
        n = m.editEntry g f (fun b => splice (splice b 2 (leBytes 2 (fieldAt b 2 2 ||| 0x400))) 48 (leBytes 8 f.location)) ∧
        n.sysRead (lookupAddr g f.pn) 16 = (slot, k) ∧ r = (if fieldAt slot.data 4 4 = f.pn then k.writeLookup g f f.location else k) ∧
        w = (if r.get64 (F.ingStrLastLo g) (F.ingStrLastHi g) = m.storeLocation g f
          then r.put64 (F.ingStrLastLo g) (F.ingStrLastHi g) f.location else r) ∧
        e = (w.showWatermark g).reclaim g)

/-- ENGINE_KNOWN_ANSWER_CHECK (R29, R103, R245, R300): an engine that fails its check is counted and reported, and its fence begins, which closes
it to work; one that passes changes nothing. While ING is STAGED or HOLDING its engines make no check (R491). -/
def Obligations.EngineChecks : Prop :=
  ∀ (s : State) (i : Nat),
    let began (e : Dev) (c : Cell) (page bit : Nat) : Prop := e.plat.fences = s.dev.plat.fences ++ [⟨cellPage c, s.dev.now, [], some (page, bit)⟩] ∧
      e.closed (cellPage c) = true ∧ e.errorShows page bit ∧ s.dev.sameRegions e
    (i < 16 → s.dev.injected Pg.ingProc Er.ingProc_engineFail = false →
      (completes (.engineKnownAnswerCheck (.codec i) true) s fun e => e = s.dev) ∧
      (s.dev.ingStaged = true → completes (.engineKnownAnswerCheck (.codec i) false) s fun e => e = s.dev) ∧
      (s.dev.ingStaged = false → s.dev.codecsOut.testBit i = false →
        completes (.engineKnownAnswerCheck (.codec i) false) s fun e => began e (.codec i) Pg.ingProc Er.ingProc_engineFail ∧
          e.codecsOut.testBit i = true ∧ (∀ k, k < 16 → k ≠ i → e.codecsOut.testBit k = s.dev.codecsOut.testBit k) ∧
          e.rd (F.ingProcCnt 4) = satInc 32 (s.dev.rd (F.ingProcCnt 4)))) ∧
    (i < 8 → s.dev.ingStaged = false → s.dev.shasOut.testBit i = false →
      completes (.engineKnownAnswerCheck (.sha i) false) s fun e => began e (.sha i) Pg.ingProc Er.ingProc_engineFail ∧
        e.shasOut.testBit i = true ∧ e.rd (F.ingProcCnt 4) = satInc 32 (s.dev.rd (F.ingProcCnt 4))) ∧
    (i < 16 → s.dev.injected Pg.parReg Er.parReg_engineFail = false → (s.dev.cellsOut F.parEngFenced .stripe 16).testBit i = false →
      completes (.engineKnownAnswerCheck (.stripe i) false) s fun e => began e (.stripe i) Pg.parReg Er.parReg_engineFail ∧
        (e.cellsOut F.parEngFenced .stripe 16).testBit i = true) ∧
    (i < 24 → s.dev.injected Pg.odrLdpc Er.odrLdpc_engineFail = false → (s.dev.cellsOut F.ldpcFenced .ldpc 24).testBit i = false →
      completes (.engineKnownAnswerCheck (.ldpc i) false) s fun e => began e (.ldpc i) Pg.odrLdpc Er.odrLdpc_engineFail ∧
        e.rd (F.ldpcCnt 5) = satInc 32 (s.dev.rd (F.ldpcCnt 5)))

/-! ## The central store and the buffer pools -/

/-- The line check (R110, R111): one symbol in error among the 64 data and 8 check bytes of a line, with any error, is corrected, in normal
form and in Hollow form. -/
def Obligations.LineCheckCorrects : Prop :=
  ∀ (addr sym err : Nat) (data : List Byte) (hollow : Bool), data.length = 64 → sym < 72 → 0 < err → err < 256 →
    readForms addr data hollow [(sym, err)] = ⟨data, hollow, !hollow, false⟩

/-- STORE_READ (R106, R111, R114, R116, R117, R138): zeros with a good check from a line not yet written, Hollow zeros from a stack that does not
serve, else what the decoder finds: data, data corrected with CE, or, where no form fits, data as read with the mark, UE raised, the line sealed
and its address kept. An access that fails parity is repeated once; where it fails again the stack is fenced and the reader gets Hollow zeros.
Every Hollow line delivered counts. An access of a granule whose zero fill is under way waits.
A bitmap word that cannot be corrected makes its 64 granules valid and their lines Hollow (R113, R139); a buffer-table entry that cannot be
corrected retires its buffer, and the read by handle returns a Hollow zero line (R124, R140).
That a stack which is OFF or in training reads as a fenced one is the model's reading (log entry 11). -/
def Obligations.StoreReads : Prop :=
  (∀ (s : State) (rd : LineRead), rd.by_ = none → rd.sram = .good → s.dev.injected Pg.cstReg Er.cstReg_gvbUe = false →
    (s.dev.bufEnt (granuleOf rd.addr)).retired = false →
    let d := s.dev
    let a := rd.addr
    let n := stackOf a
    let given (m : Dev) (data : List Byte) (hollow : Bool) : Dev := (m.when hollow (·.count (F.cstCnt 3))).send (.line a data hollow)
    let elsewhere (e : Dev) : Prop := e.bpm = d.bpm ∧ ∀ b, lineNo b ≠ lineNo a → e.byteAt b = d.byteAt b ∧ e.lineHollow b = d.lineHollow b
    (d.mustWait a = true → completes (.storeRead rd) s fun e => e = d.onCst fun c => { c with waiting := c.waiting ++ [.read rd false] }) ∧
    (d.mustWait a = false → d.cst.merge.find? (·.line == lineNo a) = none →
      (d.stackUp n = false → completes (.storeRead rd) s fun e => e = given d (zeros 64) true) ∧
      (d.stackUp n = true → d.unwritten a = true → completes (.storeRead rd) s fun e => e = given d (zeros 64) false) ∧
      (d.stackUp n = true → d.unwritten a = false → rd.odecc = false → d.plat.armed = [] →
        let retried := (d.raise (Pg.cstStk n) Er.cstStk_parityRetry a).count (F.cstStkCnt n 3)
        let r := readForms a (d.lineData a) (d.lineHollow a) rd.errs
        ((Map.get 0 d.cst.stale (granuleOf a)).testBit (lineNo a % 1024) = false →
          (rd.parity = 0 → r.noFit = false → r.corrected = false → completes (.storeRead rd) s fun e => e = given d r.data r.hollow) ∧
          (rd.parity = 1 → r.noFit = false → r.corrected = false → completes (.storeRead rd) s fun e => e = given retried r.data r.hollow) ∧
          (rd.parity = 0 → r.noFit = false → r.corrected = true → completes (.storeRead rd) s fun e => e.errorShows (Pg.cstStk n) Er.cstStk_ce ∧
            e.rd (F.cstCnt 0) = satInc 32 (d.rd (F.cstCnt 0)) ∧ e.rd (F.cstStkCnt n 0) = satInc 32 (d.rd (F.cstStkCnt n 0)) ∧
            e.lineData a = padTo 64 r.data ∧ e.lineHollow a = false ∧ .line a r.data false ∈ e.out ∧ elsewhere e) ∧
          (rd.parity = 0 → r.noFit = true → completes (.storeRead rd) s fun e => e.errorShows (Pg.cstStk n) Er.cstStk_ue ∧
            e.rd (F.cstCnt 1) = satInc 32 (d.rd (F.cstCnt 1)) ∧ e.rd (F.cstStkCnt n 1) = satInc 32 (d.rd (F.cstStkCnt n 1)) ∧
            e.get64 F.cstLastUeLo F.cstLastUeHi = lineNo a * 64 ∧ e.lineData a = padTo 64 r.data ∧ e.lineHollow a = true ∧
            e.rd (F.cstCnt 3) = satInc 32 (d.rd (F.cstCnt 3)) ∧ .line a r.data true ∈ e.out ∧ elsewhere e)) ∧
        (2 ≤ rd.parity → completes (.storeRead rd) s fun e => e.errorShows (Pg.cstStk n) Er.cstStk_parityRetry ∧
          e.errorShows (Pg.cstStk n) Er.cstStk_stackFail ∧ e.closed (Pg.cstStk n) = true ∧ .line a (zeros 64) true ∈ e.out ∧
          e.rd (F.cstCnt 3) = satInc 32 (d.rd (F.cstCnt 3)) ∧ e.cst = d.cst)))) ∧
  (∀ (s : State) (rd : LineRead), s.dev.mustWait rd.addr = false → s.dev.stackUp (stackOf rd.addr) = true →
    (rd.by_ = none → rd.sram.bitmapUe = true → completes (.storeRead rd) s fun e => e.errorShows Pg.cstReg Er.cstReg_gvbUe ∧
      ∀ b, granuleOf b / 64 = granuleOf rd.addr / 64 → e.granuleValid (granuleOf b) = true ∧ (s.dev.mustWait b = false → e.unwritten b = false) ∧
        (lineNo b ≠ lineNo rd.addr → e.lineHollow b = true)) ∧
    (∀ y, rd.by_ = some y → rd.sram.tableUe = true → s.dev.plat.armed = [] → completes (.storeRead rd) s fun e =>
      e.errorShows Pg.bpmReg Er.bpmReg_buftabUe ∧ e.errorShows Pg.bpmReg Er.bpmReg_handleFree ∧
        e.bufEnt (handleIndex y.handle) = { s.dev.bufEnt (handleIndex y.handle) with retired := true } ∧
        .line rd.addr (zeros 64) true ∈ e.out ∧ e.cst = s.dev.cst ∧
        e.rd (F.bpmCnt 5) = satInc 32 (s.dev.rd (F.bpmCnt 5))))

/-- STORE_WRITE, NARROW_WRITE and MERGE_CLOSE (R113, R115, R117, R119, R120): a full line stands in normal form, or Hollow where its writer says
so; a narrow write joins the entry of its line, or opens one where fewer than 64 are open; an entry that closes is merged onto its line, which
stays Hollow if it was. No other line changes. A full-line write that fails parity twice is dropped and fences the stack (R106, R138).
ZERO_FILL_DONE, SCRUB_TICK and STACK_TRAINED (R107, R109, R118, R121): a fill puts zeros into the lines not yet written, and what waits for its
granule goes on; a scrub tick takes RATE lines, its pointer with them, and does nothing with EN clear; a stack trains READY, one that was
ISOLATED with the content of its allocated buffers lost, or FAILED and fenced, with ING where it is stack 3.
That a scrub tick counts the lines it skips is the model's reading (log entry 46). -/
def Obligations.StoreWrites : Prop :=
  (∀ (s : State) (wr : LineWrite) (rd : LineRead),
    let d := s.dev
    let a := wr.addr
    let n := stackOf (lineNo a * 64)
    let cut := wr.data.take (min 63 (64 - a % 64))
    let bytes := (List.range cut.length).map fun i => (a % 64 + i, cut.getD i 0)
    let elsewhere (e : Dev) (line : Nat) : Prop := ∀ b, lineNo b ≠ line → e.byteAt b = d.byteAt b ∧ e.lineHollow b = d.lineHollow b
    wr.sram = .good → rd.sram = .good → d.plat.armed = [] →
    (wr.by_ = none → d.mustWait a = false → d.stackUp n = true →
      (wr.parity = 0 → (d.granuleValid (granuleOf a) = false → d.zeroEnt (granuleOf a) = none) →
        completes (.storeWrite wr) s fun e => e.lineData a = padTo 64 wr.data ∧ e.lineHollow a = wr.hollow ∧ e.unwritten a = false ∧
          (∀ m ∈ e.cst.merge, m.line ≠ lineNo a) ∧ elsewhere e (lineNo a) ∧ e.bpm = d.bpm) ∧
      (2 ≤ wr.parity → completes (.storeWrite wr) s fun e => e.cst = d.cst ∧ e.closed (Pg.cstStk n) = true ∧
        e.errorShows (Pg.cstStk n) Er.cstStk_parityRetry ∧ e.errorShows (Pg.cstStk n) Er.cstStk_stackFail)) ∧
    (wr.by_ = none → d.mustWait a = false →
      (d.cst.merge.any (·.line == lineNo a) = true → completes (.narrowWrite wr) s fun e => e.cst.mem = d.cst.mem ∧
        e.cst.merge = d.cst.merge.map fun x => if x.line = lineNo a then { x with bytes := x.bytes ++ bytes, hollow := x.hollow || wr.hollow } else x) ∧
      (d.cst.merge.any (·.line == lineNo a) = false → d.cst.merge.length < 64 → completes (.narrowWrite wr) s fun e =>
        e.cst.mem = d.cst.mem ∧ e.cst.merge = d.cst.merge ++ [⟨lineNo a, bytes, wr.hollow, wr.cls⟩])) ∧
    (∀ m, d.cst.merge.find? (·.line == lineNo rd.addr) = some m → d.stackUp (stackOf (m.line * 64)) = true → rd.parity = 0 →
      (d.unwritten (m.line * 64) = true → completes (.mergeClose rd) s fun e =>
        e.lineData (m.line * 64) = mergeBytes (zeros 64) m.bytes ∧ e.lineHollow (m.line * 64) = m.hollow ∧
        e.rd (F.cstCnt 6) = satInc 32 (d.rd (F.cstCnt 6)) ∧ elsewhere e m.line) ∧
      (d.unwritten (m.line * 64) = false → rd.errs = [] → rd.odecc = false →
        (Map.get 0 d.cst.stale (granuleOf (m.line * 64))).testBit (m.line % 1024) = false → completes (.mergeClose rd) s fun e =>
        e.lineData (m.line * 64) = mergeBytes (d.lineData (m.line * 64)) m.bytes ∧
        e.lineHollow (m.line * 64) = (d.lineHollow (m.line * 64) || m.hollow) ∧
        (d.lineHollow (m.line * 64) = true → e.errorShows Pg.cstReg Er.cstReg_mergeHollow ∧
          e.rd (F.cstCnt 7) = satInc 32 (d.rd (F.cstCnt 7))) ∧ elsewhere e m.line))) ∧
  (∀ s : State,
    let d := s.dev
    let filled (g : Nat) : Dev := ((d.cst.filling.filter (·.granule == g)).foldl (fun (m : Dev) x => m.zeroFill x) d).onCst fun c => { c with
      filling := c.filling.filter (·.granule != g), waiting := [] }
    (∀ g rd, d.cst.waiting = [.read rd false] → granuleOf rd.addr = g → completes (.zeroFillDone g) s fun e => e = (filled g).storeReadNow rd false) ∧
    (∀ g wr, d.cst.waiting = [.write wr] → granuleOf wr.addr = g → completes (.zeroFillDone g) s fun e => e = (filled g).storeWriteNow wr) ∧
    (∀ g, d.cst.waiting = [] → completes (.zeroFillDone g) s fun e => e = filled g ∧
      ∀ x, d.cst.filling.filter (·.granule == g) = [x] → d.stackUp (stackOf (g * 65536)) = true →
        (∀ i, i < 1024 → e.lineData (g * 65536 + 64 * i) = if x.written.testBit i then d.lineData (g * 65536 + 64 * i) else zeros 64) ∧
        ∀ b, (granuleOf b ≠ g → e.byteAt b = d.byteAt b) ∧ e.lineHollow b = d.lineHollow b) ∧
    (∀ faults, d.flag F.cstScrubCtrl_en = false → completes (.scrubTick faults) s fun e => e = d) ∧
    (∀ faults, d.flag F.cstScrubCtrl_en = true → d.rd F.pltThermStat_level = 0 → d.rd F.cstScrubCtrl_rate = 1 →
      d.stackUp (stackOf (d.rd F.cstScrubPtr * 64)) = true → d.unwritten (d.rd F.cstScrubPtr * 64) = false → d.rd F.cstScrubPtr + 1 < 2 ^ 32 →
      completes (.scrubTick faults) s fun e => e =
        (d.stackRead ((faults.find? (fun r => lineNo r.addr == d.rd F.cstScrubPtr)).getD (cleanRead (d.rd F.cstScrubPtr * 64))) true).2.wr
          F.cstScrubPtr (d.rd F.cstScrubPtr + 1)) ∧
    (∀ n repaired, n < 4 → d.rd (F.cstStkTrain n) = 1 → d.plat.armed = [] →
      let ready := (d.wr (F.cstStkTrain n) 2).wr (F.cstStkStat_repaired n) repaired
      let failed := ((d.wr (F.cstStkTrain n) 3).raise (Pg.cstStk n) Er.cstStk_trainFail).setUnit (Pg.cstStk n) .fenced
      (d.unitAt (Pg.cstStk n) = .active → completes (.stackTrained n true repaired) s fun e => e = ready.hatPump) ∧
      (d.unitAt (Pg.cstStk n) = .off → completes (.stackTrained n true repaired) s fun e => e = (ready.setUnit (Pg.cstStk n) .active).hatPump) ∧
      (d.unitAt (Pg.cstStk n) = .isolated → completes (.stackTrained n true repaired) s fun e =>
        let held := d.bpm.ents.filter fun x => x.2.alloc && decide (x.1 / 2 ^ 20 = n)
        e = (((ready.onCst fun c => { c with stale := held.foldl (fun m x => Map.set 0 m x.1 (2 ^ 1024 - 1)) c.stale }).onBpm fun b => { b with
          back := Map.put b.back n none }).setUnit (Pg.cstStk n) .quiesced).hatPump) ∧
      completes (.stackTrained n false repaired) s fun e => e = (if n = 3 then failed.fence1 0x300000 else failed).hatPump))

/-- BPM_GRANT (R19, R122, R128, R130): a request that quota allows takes the lowest free buffer of the next allowed stack, under a new generation,
charged to the owner and its pool; one that quota forbids gets NONE, and one that no stack can serve NONE with NO_SPACE; of two in one cycle
the lower port wins at equal ages. -/
def Obligations.Grants : Prop :=
  ∀ (s : State) (o cls : Nat),
    let d := s.dev
    let p := d.ownerPool o
    let aged := d.onBpm fun b => { b with ages := cellAges b.ages p (portOf o) [] }
    let none_ := (aged.count (F.bpmCnt 1)).raise (Pg.bpmPool p) Er.bpmPool_none
    d.bpm.fenced.contains o = false → d.rd (F.bpmOwnCfg_region o) ≠ 15 →
    (∀ n i, d.quotaAllows o cls = true → d.grantStack p o = some n → d.freeOn n = some i → i < 2 ^ 22 →
      let g := ((d.bufEnt i).gen + 1) % 1024
      completes (.bpmGrant p [⟨o, cls⟩]) s fun e => e = ((((aged.setBufEnt i ⟨g, p, o, o, true, false, false, false, false, false⟩).onBpm fun b =>
        { b with rotate := Map.set 0 b.rotate p ((n + 1) % 4) }).count (F.bpmCnt 0)).poolLevels p false).send (.granted o (mkHandle g i))) ∧
    (d.quotaAllows o cls = true → d.grantStack p o = none → completes (.bpmGrant p [⟨o, cls⟩]) s fun e =>
      e = ((none_.raise (Pg.bpmPool p) Er.bpmPool_noSpace).poolLevels p true).send (.granted o handleNone)) ∧
    (d.quotaAllows o cls = false → completes (.bpmGrant p [⟨o, cls⟩]) s fun e => e = (none_.poolLevels p true).send (.granted o handleNone)) ∧
    (∀ q, Map.get 0 d.bpm.ages (p * 16 + portOf o) = Map.get 0 d.bpm.ages (p * 16 + portOf q) → portOf o < portOf q →
      cellWinner d.bpm.ages p [⟨q, cls⟩, ⟨o, cls⟩] = some ⟨o, cls⟩ ∧ cellWinner d.bpm.ages p [⟨o, cls⟩, ⟨q, cls⟩] = some ⟨o, cls⟩)

/-- BPM_FREE, FREE_COMPLETE, BPM_RELEASE, BPM_SHARE, BPM_TRANSFER, BPM_HOSTW_SET and BPM_HOSTW_CLR of a buffer by handle (R133–R136, R547): each
has its effect where its conditions hold. A FREE that completes clears the entry, the granule-valid bit and every tracker entry of the buffer;
a TRANSFER waits behind the acting owner's accesses that wait for a zero fill. -/
def Obligations.BufferOperations : Prop :=
  ∀ (s : State) (i o : Nat), i < Config.systemFirst → o < 64 →
    let d := s.dev
    let b := d.bufEnt i
    let h := BufRef.handle (mkHandle b.gen i)
    let others (e : Dev) : Prop := (∀ k, k ≠ i → e.bufEnt k = d.bufEnt k) ∧ e.cst = d.cst ∧ e.bpm.freeing = d.bpm.freeing
    b.gen < 1024 → b.alloc = true → b.noOwner = false → d.rd (F.bpmOwnCfg_region o) ≠ 15 → d.plat.armed = [] →
    (b.owner = o → b.shared = false → d.bpm.freeing.any (·.1 == i) = false → completes (.bpmFree o h) s fun e => e = d.startFree i) ∧
    (∀ r, b.shared = true → Map.find d.bpm.shares i = some r → r.last = o → b.defer = false → d.bpm.freeing.any (·.1 == i) = false →
      completes (.bpmFree o h) s fun e => e.bufEnt i = { b with defer := true } ∧ e.rd (F.bpmCnt 3) = satInc 32 (d.rd (F.bpmCnt 3)) ∧ others e) ∧
    (d.bpm.freeing.any (·.1 == i) = true → d.cst.waiting = [] → d.mc.stalled = [] → d.mc.later = [] → completes (.freeComplete i) s fun e =>
      e.bufEnt i = { b with owner := 0, hostw := false, defer := false, shared := false, alloc := false, noOwner := false, pool := 0, grantee := 0 } ∧
      e.granuleValid i = false ∧ e.zeroEnt i = none ∧ (∀ x ∈ e.cst.merge, x.line / 1024 ≠ i) ∧ (∀ k, k ≠ i → e.bufEnt k = d.bufEnt k) ∧
      (∀ a, e.byteAt a = if granuleOf a = i then 0 else d.byteAt a) ∧ e.bpm.freeing.any (·.1 == i) = false ∧
      e.rd (F.bpmCnt 2) = satInc 32 (d.rd (F.bpmCnt 2))) ∧
    (∀ r, Map.find d.bpm.shares i = some r → r.last ≠ o → r.holders.testBit o = true →
      let left := setBit r.holders o false
      (setBit left r.last false ≠ 0 → completes (.bpmRelease o h) s fun e => others e ∧ e.bufEnt i = b ∧
        Map.find e.bpm.shares i = some { r with holders := left, dropped := setBit r.dropped o true }) ∧
      (setBit left r.last false = 0 → b.defer = false → completes (.bpmRelease o h) s fun e => others e ∧
        e.bufEnt i = { b with shared := false, owner := r.last, noOwner := r.noLast, defer := false } ∧ Map.find e.bpm.shares i = none)) ∧
    (b.owner = o → b.shared = false →
      (∀ mask last, 2 ≤ maskCount mask → maskCount mask ≤ 8 → mask.testBit o = true → mask.testBit last = true → mask < 2 ^ 64 →
        (d.bpm.shares.length < 65536 → completes (.bpmShare o h mask last) s fun e => others e ∧ e.bufEnt i = { b with shared := true } ∧
          Map.find e.bpm.shares i = some ⟨mask, 0, last, false⟩) ∧
        (65536 ≤ d.bpm.shares.length → completes (.bpmShare o h mask last) s fun e => e.bpm = d.bpm ∧ e.errorShows Pg.bpmReg Er.bpmReg_shareFull)) ∧
      (∀ k,
        (d.cst.waiting.any (fun w => w.granule == i && w.owner == some o) = false → completes (.bpmTransfer o h k) s fun e =>
          others e ∧ e.bufEnt i = { b with owner := k % 64 }) ∧
        (d.cst.waiting.any (fun w => w.granule == i && w.owner == some o) = true → completes (.bpmTransfer o h k) s fun e =>
          e = d.onCst fun c => { c with waiting := c.waiting ++ [.pass o i k] })) ∧
      (b.retired = false → (completes (.bpmHostwSet o h) s fun e => others e ∧ e.bufEnt i = { b with hostw := true }) ∧
        (completes (.bpmHostwClr o h) s fun e => others e ∧ e.bufEnt i = { b with hostw := false }))) ∧
    (b.owner ≠ o → b.shared = false → ∀ k, completes (.bpmTransfer o h k) s fun e => e.bpm = d.bpm ∧ e.cst = d.cst ∧
      e.errorShows Pg.bpmReg Er.bpmReg_freeIgnored ∧ e.rd (F.bpmCnt 4) = satInc 32 (d.rd (F.bpmCnt 4)))

/-! ## The metadata cache -/

/-- CACHE_READ (R143, R145, R147–R149, R153, R157, R158): a load in no window goes to the store uncached, after every earlier access of its
agent; a held line is a poisoned fill of no stated data; a hit in L2 delivers its data, and takes age 0 where the L1 missed; one in the side
buffer moves into L2, one in the victim buffer is served from there, and a miss starts a fill, with the prefetches of its window. -/
def Obligations.CacheLoads : Prop :=
  ∀ (s : State) (acc : CacheAcc), acc.fault = .none → s.dev.plat.armed = [] → acc.agent < 10 →
    let d := s.dev
    let line := lineNo acc.addr
    let read := d.readLine (cleanRead acc.addr)
    (d.mc.hold.contains line = true → completes (.cacheRead acc) s fun e =>
      e = (d.toAgent acc.agent acc.addr (leBytes 64 (d.free 2)) true).stepFree) ∧
    (d.mc.hold.contains line = false → d.windowOf acc.addr = none →
      (d.mc.busy acc.agent = false → completes (.cacheRead acc) s fun e =>
        e = read.2.toAgent acc.agent acc.addr (mergeBytes read.1.data (d.mc.gathered line)) read.1.hollow) ∧
      (d.mc.busy acc.agent = true → completes (.cacheRead acc) s fun e => e = d.onMc fun m => { m with later := m.later ++ [(acc, false)] })) ∧
    (∀ w, d.mc.hold.contains line = false → d.windowOf acc.addr = some w → d.mc.uncached = true ∨ d.setDead line = true →
      completes (.cacheRead acc) s fun e => e = (d.flushVictim line).uncached acc false) ∧
    (∀ w, d.mc.hold.contains line = false → d.windowOf acc.addr = some w → d.mc.uncached = false → d.setDead line = false →
      (d.l1Set acc.agent line).length = 8 →
      let at_ (hit : Bool) : RegField := F.seqMcL1Cnt acc.agent (if hit then 0 else 1)
      (∀ x, d.l2Get line = some x → d.l1Has acc.agent line = true → completes (.cacheRead acc) s fun e =>
        e.rd (at_ true) = satInc 32 (d.rd (at_ true)) ∧ e.rd (F.seqMcCnt 0) = d.rd (F.seqMcCnt 0) ∧ e.l2Get line = some x ∧ e.cst = d.cst ∧
        .cacheData acc.agent acc.addr x.data x.poison ∈ e.out) ∧
      (∀ x, d.l2Get line = some x → d.l1Has acc.agent line = false → completes (.cacheRead acc) s fun e =>
        e.rd (at_ false) = satInc 32 (d.rd (at_ false)) ∧ e.rd (F.seqMcCnt 0) = satInc 32 (d.rd (F.seqMcCnt 0)) ∧ e.cst = d.cst ∧
        e.l2Get line = some { x with age := 0, present := setBit x.present acc.agent true } ∧ .cacheData acc.agent acc.addr x.data x.poison ∈ e.out) ∧
      (∀ data poison, d.l2Get line = none → d.mc.waits line = false → d.l1Has acc.agent line = false →
        d.mc.side.find? (·.1 == line) = some (line, data, poison) → completes (.cacheRead acc) s fun e =>
          let moved := ((d.count (at_ false)).count (F.seqMcCnt 4)).sideToL2 w line data poison acc.cls
          e = (moved.2.when moved.1 (·.fillL1 acc.agent line)).toAgent acc.agent acc.addr data poison) ∧
      (∀ v, d.l2Get line = none → d.mc.waits line = false → d.mc.side.find? (·.1 == line) = none → d.mc.victimOf line = some v →
        completes (.cacheRead acc) s fun e => e.rd (F.seqMcCnt 7) = satInc 32 (d.rd (F.seqMcCnt 7)) ∧ e.mc = d.mc ∧ e.cst = d.cst ∧
          .cacheData acc.agent acc.addr v.data v.poison ∈ e.out) ∧
      (d.l2Get line = none → d.mc.waits line = true ∨ d.mc.side.find? (·.1 == line) = none ∧ d.mc.victimOf line = none →
        d.mc.stalled.any (·.line == line) = false → completes (.cacheRead acc) s fun e =>
        e.mc.fills = d.mc.fills ++ [⟨line, acc.agent, d.streaming w, acc.cls, none, true, none⟩] ∧
        e.rd (F.seqMcCnt 1) = satInc 32 (d.rd (F.seqMcCnt 1)) ∧
        e.out = d.out ∧ e.cst = d.cst ∧ e.mc.l2 = d.mc.l2 ∧ (d.rd (F.seqMcWinCfg_pfDepth w) = 0 → e.mc.prefetch = d.mc.prefetch) ∧
        (d.rd (F.seqMcWinCfg_pfDepth w) = 1 → d.mc.prefetch = [] → d.mc.victims = [] → d.mc.side = [] →
          d.windowOf ((line + 1) * 64) = some w → d.l2Get (line + 1) = none →
          e.mc.prefetch = [(line + 1, true)] ∧ e.rd (F.seqMcCnt 3) = satInc 32 (d.rd (F.seqMcCnt 3)))))

/-- CACHE_WRITE (R143, R145, R150–R152, R158): a store to a line in L2 updates it, dirty in a write-back window and clean in a write-through one,
and leaves no other L1 copy; a full-line miss of a write-back window is allocated without a read, a narrow one waits for its fill, and a
tripped detector sends full lines to the store; a write-through miss enters the merging buffer; a store in no window goes to the store, after
every earlier access of its agent; a full-line store to a held line frees the entry, and a narrow one is dropped and counted. -/
def Obligations.CacheStores : Prop :=
  ∀ (s : State) (acc : CacheAcc), acc.fault = .none → s.dev.plat.armed = [] → acc.agent < 10 → acc.data.length + acc.addr % 64 ≤ 64 →
    let d := s.dev
    let line := lineNo acc.addr
    let full := decide (acc.data.length = 64) && decide (acc.addr % 64 = 0)
    let bs := storeBytesOf acc.addr acc.data
    let toStore (m : Dev) : Dev := if full then m.writeLine acc.addr acc.data false acc.cls else m.narrow acc.addr acc.data false acc.cls
    (d.mc.hold.contains line = true →
      let freed (m : Dev) : Dev := m.onMc fun m => { m with hold := m.hold.filter (· != line) }
      (d.windowOf acc.addr = none → full = false → completes (.cacheWrite acc) s fun e => e = d.countIgnored Pg.seqMc acc.addr) ∧
      (d.windowOf acc.addr = none → full = true → d.mc.busy acc.agent = false → completes (.cacheWrite acc) s fun e => e = toStore (freed d)) ∧
      (∀ w, d.windowOf acc.addr = some w → d.mc.uncached = false → d.setDead line = false →
        let seen := d.when (!d.flag (F.seqMcWinCfg_policy w)) (·.detect w line full)
        (full = false → completes (.cacheWrite acc) s fun e => e = seen.countIgnored Pg.seqMc acc.addr) ∧
        (full = true → completes (.cacheWrite acc) s fun e => e = (freed seen).allocate acc.agent line acc.data acc.cls 0))) ∧
    (d.mc.hold.contains line = false → d.windowOf acc.addr = none →
      (d.mc.busy acc.agent = false → completes (.cacheWrite acc) s fun e => e = toStore d) ∧
      (d.mc.busy acc.agent = true → completes (.cacheWrite acc) s fun e => e = d.onMc fun m => { m with later := m.later ++ [(acc, true)] })) ∧
    (∀ w, w < 8 → d.mc.hold.contains line = false → d.windowOf acc.addr = some w → d.mc.uncached = false → d.setDead line = false →
      d.mc.side.find? (·.1 == line) = none → d.mc.waits line = false → d.mc.stalled = [] → d.mc.later = [] →
      let back := !d.flag (F.seqMcWinCfg_policy w)
      let n := if full then (if 0 < Map.get 0 d.mc.seqCount w ∧ Map.get 0 d.mc.lastLine w + 1 = line then Map.get 0 d.mc.seqCount w + 1 else 1) else 0
      (∀ x, d.l2Get line = some x → completes (.cacheWrite acc) s fun e =>
        e.l2Get line = some { x with
          data := mergeBytes x.data bs, dirty := x.dirty || back, poison := x.poison && !full, age := 0,
          present := if x.present.testBit acc.agent then 2 ^ acc.agent else 0 } ∧
        (∀ i, i < 10 → i ≠ acc.agent → e.l1Has i line = false) ∧ e.rd (F.seqMcCnt 0) = satInc 32 (d.rd (F.seqMcCnt 0)) ∧
        (back = true → e.cst = d.cst ∧ Map.get 0 e.mc.seqCount w = n)) ∧
      (d.l2Get line = none → d.mc.victimOf line = none → back = true → d.flag (F.seqMcWinStat_tripped w) = false →
        (full = false → completes (.cacheWrite acc) s fun e => e.mc.fills = d.mc.fills ++ [⟨line, acc.agent, false, acc.cls, some bs, true, none⟩] ∧
          e.rd (F.seqMcCnt 1) = satInc 32 (d.rd (F.seqMcCnt 1)) ∧ e.cst = d.cst) ∧
        (full = true → (d.l2Set line).length = 16 → (d.l2Set line).getD 0 none = none → (Map.get 0 d.mc.retired (line % 32768)).testBit 0 = false →
          completes (.cacheWrite acc) s fun e => e.l2Get line = some ⟨line, acc.data, true, false, 1, 0⟩ ∧ e.cst = d.cst ∧
            (n = d.rd (F.seqMcWinCfg_seqLimit w) → e.flag (F.seqMcWinStat_tripped w) = true ∧
              e.rd (F.seqMcCnt 9) = satInc 32 (d.rd (F.seqMcCnt 9))))) ∧
      (d.l2Get line = none → d.mc.victimOf line = none → back = true → d.flag (F.seqMcWinStat_tripped w) = true → full = true → 1 < n →
        d.rd (F.seqMcWinCfg_seqLimit w) ≠ 0 → d.mc.busy acc.agent = false → d.stackUp (stackOf (line * 64)) = true →
        completes (.cacheWrite acc) s fun e => e.rd (F.seqMcCnt 10) = satInc 32 (d.rd (F.seqMcCnt 10)) ∧ (∀ l, e.l2Get l = d.l2Get l) ∧
          e.lineData (line * 64) = acc.data ∧ e.lineHollow (line * 64) = false) ∧
      (d.l2Get line = none → d.mc.victimOf line = none → back = false → full = false → d.mc.merging.any (·.line == line) = false →
        d.mc.merging.length < 32 → wholeLine bs = false → completes (.cacheWrite acc) s fun e =>
          e.mc.merging = d.mc.merging ++ [⟨line, bs, false, acc.cls⟩] ∧ e.rd (F.seqMcCnt 1) = satInc 32 (d.rd (F.seqMcCnt 1)) ∧ e.cst = d.cst))

/-- CACHE_FILL_DONE, PREFETCH_ARRIVAL, WRITEBACK_ACK, MERGE_BUF_DRAIN and FORWARDED_WRITE (R146, R149, R152, R153, R155): a fill is delivered and
installed, but not where maintenance reached its line; a prefetched line stands in the side buffer; an acknowledged write-back frees its
entry; a whole gathered line is written; a write that is not the cache's updates the L2 copy and takes the L1 copies.
MC_CLEAN, MC_INV and MC_DISCARD (R154): CLEAN writes the dirty lines of its range and keeps them clean, BUSY until they are acknowledged;
INV drops them too; DISCARD drops every copy without a write. One given while another runs, or with a count outside 1 to
1,048,576, is ignored and counted.
The class of the write-backs of maintenance is the model's choice (log entry 90). -/
def Obligations.CacheTraffic : Prop :=
  (∀ (s : State) (rd : LineRead) (f : FillReq) (v : Victim) (m : WtEnt) (wr : LineWrite),
    let d := s.dev
    let line := lineNo rd.addr
    let got := d.readLine { rd with by_ := none }
    d.plat.armed = [] → d.mc.stalled = [] → d.mc.later = [] →
    (d.mc.fills = [f] → f.line = line → f.store = none → d.l2Get line = none → d.mc.victims = [] → d.mc.merging = [] → f.agent < 10 →
      (f.keep = false → completes (.cacheFillDone rd) s fun e =>
        e = ((got.2.onMc fun c => { c with fills := [] }).toAgent f.agent (line * 64) got.1.data got.1.hollow).count (F.seqMcCnt 6)) ∧
      (f.keep = true → d.mc.uncached = false → (d.l2Set line).length = 16 → (d.l2Set line).getD 0 none = none →
        (Map.get 0 d.mc.retired (line % 32768)).testBit 0 = false → completes (.cacheFillDone rd) s fun e =>
          e = (((got.2.onMc fun c => { c with fills := [] }).setL2 line ((d.l2Set line).set 0 (some
            ⟨line, got.1.data, false, got.1.hollow, if f.stream then 3 else 1, 0⟩))).fillL1 f.agent line).toAgent f.agent (line * 64)
              got.1.data got.1.hollow)) ∧
    (d.mc.prefetch = [(line, true)] → d.mc.uncached = false → d.l2Get line = none → d.mc.merging = [] → d.mc.side.length < 64 →
      completes (.prefetchArrival rd) s fun e => e.mc.prefetch = [] ∧ e.mc.side = d.mc.side ++ [(line, got.1.data, got.1.hollow)] ∧
        e.cst = got.2.cst) ∧
    (d.mc.victims = [v] → d.mc.fills = [] → d.stackUp (stackOf (v.line * 64)) = true → ∀ a, lineNo a = v.line →
      completes (.writebackAck a) s fun e => e.mc.victims = [] ∧ e.lineData (v.line * 64) = padTo 64 v.data ∧
        e.lineHollow (v.line * 64) = v.poison ∧ e.rd (F.seqMcCnt 8) = satInc 32 (d.rd (F.seqMcCnt 8)) ∧
        (d.mc.awaited = [(8, v.line)] → e.mc.awaited = [] ∧ e.flag F.seqMcMaintStat_busy = false)) ∧
    (d.mc.merging = [m] → (m.bytes.map (·.1)).eraseDups.length = 64 → d.stackUp (stackOf (m.line * 64)) = true → ∀ a, lineNo a = m.line →
      completes (.mergeBufDrain a) s fun e => e.mc.merging = [] ∧ e.lineData (m.line * 64) = padTo 64 (mergeBytes (zeros 64) m.bytes) ∧
        e.lineHollow (m.line * 64) = m.poison ∧ e.rd (F.seqMcCnt 11) = satInc 32 (d.rd (F.seqMcCnt 11))) ∧
    (∀ x, wr.by_ = none → wr.sram = .good → (d.windowOf wr.addr).isSome = true → wr.data.length + wr.addr % 64 ≤ 64 →
      d.l2Get (lineNo wr.addr) = some x →
      let full := decide (wr.data.length = 64) && decide (wr.addr % 64 = 0)
      completes (.forwardedWrite wr) s fun e => e = (d.forward wr).storeWrite wr ∧
        e.l2Get (lineNo wr.addr) = some { x with
          data := mergeBytes x.data (storeBytesOf wr.addr wr.data), poison := wr.hollow || (x.poison && !full), present := 0 } ∧
        (∀ i, i < 10 → e.l1Has i (lineNo wr.addr) = false))) ∧
  (∀ (s : State) (a count : Nat), s.dev.writesBlocked = false →
    let d := s.dev
    let first := lineNo a
    let asked (l : Nat) : Prop := first ≤ l ∧ l < first + count
    let counted (e : Dev) : Prop := e.rd (F.seqMcCnt 13) = min (2 ^ 32 - 1) (d.rd (F.seqMcCnt 13) + count) ∧ e.rd F.seqMcMaintStat_done = count
    (d.flag F.seqMcMaintStat_busy = true ∨ count = 0 ∨ 1048576 < count →
      completes (.mcClean a count) s (fun e => e = d.countIgnored Pg.seqMc 0x20810C) ∧
      completes (.mcInv a count) s (fun e => e = d.countIgnored Pg.seqMc 0x20810C) ∧
      completes (.mcDiscard a count) s (fun e => e = d.countIgnored Pg.seqMc 0x20810C)) ∧
    (d.flag F.seqMcMaintStat_busy = false → 0 < count → count ≤ 1048576 → d.mc.stalled = [] → d.mc.later = [] →
      (completes (.mcDiscard a count) s fun e => counted e ∧ e.cst = d.cst ∧ (∀ l, asked l → e.l2Get l = none) ∧
        (∀ v ∈ e.mc.victims, asked v.line → v.issued = true) ∧ (∀ m ∈ e.mc.merging, ¬ asked m.line) ∧ (∀ l ∈ e.mc.hold, ¬ asked l)) ∧
      (∀ x, d.mc.lines.filter (fun y => y.dirty && inRange first count y.line) = [x] → d.l2Get x.line = some x → d.plat.armed = [] →
        d.mc.fills = [] → (∀ v ∈ d.mc.victims, ¬ asked v.line) → (∀ m ∈ d.mc.merging, ¬ asked m.line) → d.stackUp (stackOf (x.line * 64)) = true →
        (completes (.mcClean a count) s fun e => counted e ∧ e.lineData (x.line * 64) = padTo 64 x.data ∧
          e.lineHollow (x.line * 64) = x.poison ∧ e.l2Get x.line = some { x with dirty := false } ∧
          e.mc.awaited = d.mc.awaited ++ [(8, x.line)] ∧ e.flag F.seqMcMaintStat_busy = true) ∧
        (completes (.mcInv a count) s fun e => counted e ∧ e.lineData (x.line * 64) = padTo 64 x.data ∧ (∀ l, asked l → e.l2Get l = none) ∧
          e.mc.awaited = d.mc.awaited ++ [(8, x.line)] ∧ e.flag F.seqMcMaintStat_busy = true))))

/-! ## Flash and parity -/

/-- CHANNEL_TRAINED, ZQ_CAL_TIMER, DIE_TEMP_READ (R162–R165, R186): a channel that trains is READY with its CEs matched to the lowest die type that
fits, one that matches none UNUSED with ID_MISMATCH; one that fails to train is fenced; its die temperatures are kept, at most every 4,000 ticks. -/
def Obligations.ChannelsTrain : Prop :=
  ∀ (s : State) (ch : Nat), ch < 32 →
    let d := s.dev
    (∀ probes, d.rd (F.sflFcStat_train ch) = 1 → d.plat.armed = [] →
      let m := d.channelTrained ch true probes
      (probes = [] → completes (.channelTrained ch true probes) s fun e => e = m.flashMoves ∧ m.rd (F.sflFcStat_train ch) = 2 ∧
        m.rd (F.sflFcStat_mts ch) = 0 ∧ (∀ ce, ce < 8 → m.rd (F.sflFcCe_state ch ce) = 0) ∧
        (d.unitAt (Pg.sflFc ch) = .active → m.unitAt (Pg.sflFc ch) = .active) ∧ (d.unitAt (Pg.sflFc ch) = .off → m.unitAt (Pg.sflFc ch) = .active) ∧
        (d.unitAt (Pg.sflFc ch) = .isolated → m.unitAt (Pg.sflFc ch) = .quiesced)) ∧
      (∀ p t, probes = [p] → p.ce < 8 → (d.rd (F.sflFcCfg_ceEn ch)).testBit p.ce = true → d.matchDie p = some t →
        (∀ k ce, k < 32 → ce < 8 → k ≠ ch → d.ceReady k ce = false) → p.luns < 16 → p.luns * p.blocks * p.units ≤ 2 ^ 34 →
        completes (.channelTrained ch true probes) s fun e => e = m.flashMoves ∧ m.rd (F.sflFcStat_train ch) = 2 ∧
          m.rd (F.sflFcCe_state ch p.ce) = 2 ∧ m.rd (F.sflFcCe_type ch p.ce) = t ∧ m.rd (F.sflFcCe_luns ch p.ce) = p.luns ∧
          m.mram.seenCes.contains (ch * 8 + p.ce) = true) ∧
      (∀ p, probes = [p] → p.ce < 8 → (d.rd (F.sflFcCfg_ceEn ch)).testBit p.ce = true → d.matchDie p = none →
        completes (.channelTrained ch true probes) s fun e => e = m.flashMoves ∧ m.rd (F.sflFcStat_train ch) = 2 ∧
          m.rd (F.sflFcCe_state ch p.ce) = 1 ∧ m.errorShows (Pg.sflFc ch) Er.sflFc_idMismatch) ∧
      (completes (.channelTrained ch false probes) s fun e => e = (((d.wr (F.sflFcStat_train ch) 3).raise (Pg.sflFc ch) Er.sflFc_trainFail ch).fence
        (Pg.sflFc ch) (some (Pg.sflFc ch, Er.sflFc_trainFail))).flashMoves)) ∧
    (d.chRuns ch = true → 40000 ≤ d.since (Map.get 0 d.sfl.zqTick ch) → completes (.zqCalTimer ch) s fun e =>
      e = d.onSfl fun x => { x with zqTick := Map.set 0 x.zqTick ch d.now }) ∧
    (∀ ce lun temp, d.chRuns ch = true → d.ceReady ch ce = true → lun < d.lunsOf ch ce → d.rd (F.sflDieFeat_tempFeat (d.dieOf ch ce)) ≠ 0 →
      let last := Map.find d.sfl.tempTick (lunKey ch ce lun)
      ((∀ t, last = some t → 4000 ≤ d.since t) → completes (.dieTempRead ch ce lun temp) s fun e => e = d.onSfl fun x => { x with
        temps := Map.set 0 x.temps (lunKey ch ce lun) (unsgn 8 temp), tempTick := Map.put x.tempTick (lunKey ch ce lun) d.now }) ∧
      (∀ t, last = some t → d.since t < 4000 → completes (.dieTempRead ch ce lun temp) s fun e => e = d))

/-- FLASH_PROGRAM_DONE, FLASH_ERASE_DONE, FLASH_READ_DONE and FLASH_OP_TIMEOUT (R187, R192, R193, R202, R207): a program that passed stands as its
unit, one that failed goes the way of R192, and one that ends after Tp only stands in flash; an erased row is FREE, or RETIRED with too few
members left, with ERASES one higher and no unit in it; a read delivers its unit at F0, F1 or F2, and one that nothing can solve as Hollow, with
READ_LOST; an operation that timed out is treated as failed. Which operation a channel serves next is the model's choice (log entry 100). -/
def Obligations.FlashOperations : Prop :=
  ∀ (s : State) (pua : Nat), s.dev.plat.armed = [] → s.dev.chTrains (puaCh pua) = false →
    let d := s.dev
    let ch := puaCh pua
    let drop (m : Dev) : Dev := m.onSfl fun x => { x with progs := x.progs.filter (fun y => y.pua != pua) }
    (∀ p, d.sfl.progs.find? (fun y => y.pua == pua) = some p → d.mayStart pua = true → d.chServes (puaLunKey pua) (d.progOp p) = true →
      let n := ((d.chServed ch (d.progOp p)).sflCount 0).count (F.sflFcCnt ch 0)
      (d.plat.tp = none →
        (completes (.flashProgramDone pua true) s fun e => e = ((drop n).progPassed p).flashMoves ∧
          Map.find ((drop n).progPassed p).sfl.units pua = some p.unit) ∧
        (completes (.flashProgramDone pua false) s fun e => e = (drop (n.progFailed p)).flashMoves ∧
          (n.progFailed p).errorShows (Pg.sflFc ch) Er.sflFc_progFail)) ∧
      (d.pastTp 0 = true → completes (.flashProgramDone pua true) s fun e => e =
        (d.onSfl fun x => { x with units := Map.put x.units pua p.unit, progs := x.progs.filter (fun y => y.pua != pua) }).flashMoves)) ∧
    (∀ r, (d.rowEnt r).st = .erasing → d.plat.tp = none → (d.positions r).any d.chTrains = false → Map.get 0 d.sfl.eraseBad r = 0 →
      let m := d.eraseDone r 0
      completes (.flashEraseDone r 0) s fun e => e = m.flashMoves ∧ m.rowEnt r = d.rowFresh r (min 0xFFFF ((d.rowEnt r).erases + 1)) ∧
        (∀ c ∈ d.positions r, ∀ k, k < 4096 → Map.find m.sfl.units (mkPua c (rowCe r) (rowLun r) (rowBlock r) k) = none) ∧
        m.rd (F.sflCnt 3) = satInc 32 (d.rd (F.sflCnt 3)) ∧ m.sfl.map = d.sfl.map) ∧
    (∀ r id, d.sfl.reads = [r] → r.pua = pua → r.why = .job id → d.chServes (puaLunKey pua) (d.readOp r) = true →
      let n (level tries : Nat) : Dev := ((((d.chServed ch (d.readOp r)).readFeatures pua level tries).onSfl fun x => { x with reads := [] }).sflCount 1).count
        (F.sflFcCnt ch 2)
      let there := d.lunAvail ch (puaCe pua) (puaLun pua) = true ∧ ∀ x, d.rowOfPua pua = some x → d.posLost x ch = false
      (∀ u tries bad, Map.find d.sfl.units pua = some u → there →
        completes (.flashReadDone pua ⟨0, tries⟩ bad) s fun e => e = ((n 0 tries).jobGot id u false).flashMoves) ∧
      (∀ u x tries bad, Map.find d.sfl.units pua = some u → there → d.rowOfPua pua = some x →
        (d.rd (F.sflDieFeat_retry (d.dieOf ch (puaCe pua))) ≠ 0 → completes (.flashReadDone pua ⟨1, tries⟩ bad) s fun e =>
          let m := ((((n 1 tries).raise (Pg.sflFc ch) Er.sflFc_readRetry pua).sflCount 4).count (F.sflFcCnt ch 5)).onRow x fun y => { y with f1 := y.f1 + 1 }
          e = ((if 16 ≤ (m.rowEnt x).f1 then m.queueRefresh x else m).jobGot id u false).flashMoves) ∧
        (completes (.flashReadDone pua ⟨2, tries⟩ bad) s fun e =>
          let m := (((n 2 tries).raise (Pg.sflFc ch) Er.sflFc_readRetry pua).sflCount 5).count (F.sflFcCnt ch 6)
          e = ((m.queueRefresh x).jobGot id u false).flashMoves)) ∧
      (∀ u tries bad, Map.find d.sfl.units pua = some u → completes (.flashReadDone pua ⟨4, tries⟩ bad) s fun e =>
        let m := ((n 4 tries).raise (Pg.sflFc ch) Er.sflFc_readLost pua).sflCount 7
        let lost : FUnit := ⟨{ u.tag with hollowMap := 0xFFFF }, []⟩
        e = ((if u.tag.ty = 1 then m.rewriteLost pua lost else m).jobGot id lost true).flashMoves) ∧
      (d.sfl.progs = [] → d.plat.tp = none → completes (.flashOpTimeout pua) s fun e =>
        let m := ((d.raise (Pg.sflFc ch) Er.sflFc_timeout pua).count (F.sflFcCnt ch 7)).readDone pua 3 [pua]
        let n := m.onSfl fun x => { x with timeouts := (x.timeouts ++ [(puaLunKey pua, m.now)]).filter fun y => decide (m.since y.2 < 400) }
        e = (if 3 ≤ (n.sfl.timeouts.filter (fun y => y.1 == puaLunKey pua)).length ∧ n.sfl.fencedLuns.contains (puaLunKey pua) = false
          then n.lunFail ch (puaCe pua) (puaLun pua) else n).flashMoves))

/-- MAP_PAGE_LOADED, MAP_PAIR_WAIT, JOURNAL_FLUSH, CHECKPOINT_START, CHECKPOINT_DONE and SFL_TIME_ADVANCE (R174, R175, R185, R198, R199): a page whose
load succeeded is VALID, and one whose load failed reads LOST with MAP_LOST; a page that has waited for a partner is written alone; the buffered
entries go to the ring with its head pointer; a checkpoint starts with its SEQ once the ring is half full, and at its end frees the ring
before its tail; SFL_TIME counts a second every 400,000 ticks. -/
def Obligations.MapAndJournal : Prop :=
  ∀ s : State,
    let d := s.dev
    (∀ p n, d.slotOfPage p = some n → (d.mslot n).loading = true → d.plat.armed = [] →
      let m := (d.onMslot n fun x => { x with valid := true, loading := false, got := none }).sflCount 9
      ((d.mslot n).got = some true → completes (.mapPageLoaded p) s fun e => e = ((m.pageFound p).slotFill n p).flashMoves) ∧
      ((d.mslot n).got = some false → completes (.mapPageLoaded p) s fun e => e = (((m.mapLost p).pageFound p).slotFill n p).flashMoves ∧
        (m.mapLost p).errorShows Pg.sflReg Er.sflReg_mapLost ∧ ∀ i, i < 4096 → (m.mapLost p).mapEnt (4096 * p + i) = entLost)) ∧
    (∀ p n, d.slotOfPage p = some n → d.flashReady = true → (d.mslot n).valid = true → (d.mslot n).dirty = true → (d.mslot n).writing = false →
      d.rd F.sflMapCfg ≤ d.since (d.mslot n).since → completes (.mapPairWait p) s fun e => e = (d.mapWrite p absent).flashMoves) ∧
    (d.flashRuns = true → d.rd F.sflJrnCfg ≤ d.since d.sfl.lastFlush → completes .journalFlush s fun e => e = d.jflush.flashMoves) ∧
    ((∀ x ∈ d.sfl.rows, x.2.st ≠ .opened) → d.sfl.jbuf.length + d.ringUsed ≤ ringSize → d.jflush.sfl.jbuf = [] ∧
      d.jflush.mram.ringHead = (d.mram.ringHead + d.sfl.jbuf.length) % (2 * ringSize) ∧ d.jflush.sfl.lastFlush = d.now ∧
      (∀ x, d.sfl.jbuf = [x] → Map.find d.jflush.mram.ring (d.mram.ringHead % ringSize) = some x)) ∧
    (ringSize / 2 ≤ d.ringUsed → completes .checkpointStart s fun e => e = d.ckptStart.flashMoves) ∧
    (d.sfl.ckpt = none → d.flashRuns = true → ∃ num tail, d.ckptStart.sfl.ckpt = some ⟨num, d.jflush.sfl.seq, [], false, tail,
        (d.sfl.mctt.filter (fun x => x.2.dirty)).map (fun x => x.2.page)⟩ ∧ (∀ r ∈ d.mram.roots, r.num < num) ∧ tail = d.jflush.mram.ringHead ∧
      d.ckptStart.flag F.sflJrnStat_ckpt = true) ∧
    (∀ c, d.sfl.ckpt = some c → d.ckptWhole c = true → d.rd F.sflStat = 2 → completes .checkpointDone s fun e => e = d.ckptDone.flashMoves ∧
      d.ckptDone.sfl.ckpt = none ∧ d.ckptDone.mram.ringTail = c.tail ∧
      d.ckptDone.mram.roots.getLast? = some ⟨c.num, c.c, d.rd F.sflTime, c.parts.map (·.2), c.tail⟩ ∧
      d.ckptDone.flag F.sflJrnStat_ckpt = false ∧ d.ckptDone.rd F.sflJrnCkpt = c.num % 2 ^ 32 ∧ d.ckptDone.rd F.sflStat = 2) ∧
    (400000 ≤ d.since d.sfl.timeTick → completes .sflTimeAdvance s fun e =>
      e = ((d.onSfl fun x => { x with timeTick := (400000 + x.timeTick) % 2 ^ 64 }).wr F.sflTime (d.rd F.sflTime + 1)).refreshByAge)

/-- GC_SOURCE_SELECT, GC_UNIT_COPY, ERASE_START, FLASH_REBUILD, PWRFAIL and PWRFAIL_FLASH_QUIET (R188–R191, R200, R202): the source that R189
names is journaled; a unit of it is copied while the set has no more than START FREE rows; a row is erased only where R191 lets it be; a MAP entry
of the ring is replayed at the rebuild, which then is over; after a power failure the confirmed programs stand and the journal is in
MRAM.
That GC is idle for copies too while the set has more FREE rows is the model's reading (log entry 96). -/
def Obligations.FlashUpkeep : Prop :=
  ∀ s : State,
    let d := s.dev
    (∀ k r, k < 8 → d.flashReady = true → d.setOn k = true → d.gcSource k = none → d.gcPick k = some r →
      completes (.gcSourceSelect k) s fun e =>
        e = (((d.sourceRow r).onSfl fun x => { x with refresh := x.refresh.filter (· != r) }).wr F.sflGcSrc r).flashMoves ∧
          ((d.rowEnt r).st = .closed → ((d.sourceRow r).rowEnt r).st = .source)) ∧
    (∀ k r p u, k < 8 → d.flashReady = true → d.gcIdle k = false → d.gcSource k = some r → d.nextMapped r = some (p, u) →
      completes (.gcUnitCopy k) s fun e => e = (d.addJob (copyJob (.gc r) u.tag.unit 2 p none)).2.flashMoves) ∧
    (∀ r, d.flashReady = true →
      (d.mayErase r = true → completes (.eraseStart r) s fun e =>
        e = ((d.onRow r fun x => { x with st := .erasing }).journal 7 0 r 0 0).2.flashMoves) ∧
      (d.mayErase r = false → completes (.eraseStart r) s fun e => e = d.flashMoves)) ∧
    (∀ ms unreadable badRing badRoots, d.rd F.sflStat = 1 → d.sfl.ckpt = none → d.setsTrain = false → d.sysSet = none → ms < 2 ^ 32 →
      let m := d.flashRebuild ms unreadable badRing badRoots
      completes (.flashRebuild ms ⟨unreadable, badRing, badRoots⟩) s fun e => e = m.catLoad.flashMoves ∧ m.rd F.sflStat = 2 ∧
        m.rd F.sflRebuildTime = ms ∧
        (∀ x, d.ringEntries badRing = [x] → x.ty = 1 → d.mram.roots = [] → d.sfl.dir = [] → d.sfl.lostPages = [] →
          (∀ r ∈ d.sfl.rows, r.2.st ≠ .opened) → (∀ y ∈ d.par.slots, y.2.ty ≠ 1) → m.sfl.map = Map.set 0 [] x.keyf x.value)) ∧
    (d.plat.pfPin = false → completes .pwrfail s fun e => e = (d.setLevel keyPwr true).powerFail) ∧
    (∀ sure, d.pastTp 8 = true → d.plat.quiet = false → completes (.pwrfailFlashQuiet sure) s fun e => e.plat.quiet = true ∧ e.sfl.progs = [] ∧
      (∀ p, d.sfl.progs = [p] → sure.contains p.pua = true → d.mayStart p.pua = true → Map.find e.sfl.units p.pua = some p.unit) ∧
      (d.lostFence 6 = false → e.mram.time = d.rd F.sflTime ∧
        ((∀ x ∈ d.sfl.rows, x.2.st ≠ .opened) → d.sfl.jbuf.length + d.ringUsed ≤ ringSize → e.sfl.jbuf = [])))

/-- SJ_SLOT_FLUSH, SJ_COMPLETE_AT_POWERFAIL, SHADOW_PROGRAM, FILL_WAIT_EXPIRY, REBUILD_UNIT_MOVE, RESHAPE_UNIT_MOVE, DISC_PARITY_ADD, RECOMPUTE and
DISC_RUN_COVERED (R218, R222, R225, R226, R228, R230, R231, R236, R238, R240): the buffered slots go to both banks, a bank that does not
verify fails; the shadow takes up to 1,024 images, after a new snapshot where its block is full; a stripe that waited is padded; stale rows and
reshaped rows move a unit within their rate; disc runs are added to, rebuilt and closed. -/
def Obligations.ParityCommands : Prop :=
  ∀ (s : State), s.dev.plat.armed = [] →
    let d := s.dev
    let ws := d.par.pending
    (∀ x, ws = [x] → d.bankOk 0 = true → d.bankOk 1 = true →
      (completes (.sjSlotFlush false false) s fun e => e = (d.sjFlush false false).flashMoves ∧ (d.sjFlush false false).par = { d.par with pending := [] } ∧
        Map.find (d.sjFlush false false).mram.bankA x.1 = some x.2 ∧ Map.find (d.sjFlush false false).mram.bankB x.1 = some x.2) ∧
      (completes (.sjSlotFlush true false) s fun e =>
        let m := d.sjFlush true false
        e = m.flashMoves ∧ m.mram.bankA = d.mram.bankA ∧ Map.find m.mram.bankB x.1 = some x.2 ∧
        m.bankOk 0 = false ∧ m.bankOk 1 = true ∧ m.errorShows Pg.parSj Er.parSj_bankFail ∧ m.par = { d.par with pending := [] }) ∧
      (d.pastTp 20 = true → d.plat.sjDone = false → d.lostFence 7 = false → completes .sjCompleteAtPowerfail s fun e =>
        e.plat.sjDone = true ∧ Map.find e.mram.bankA x.1 = some x.2 ∧ Map.find e.mram.bankB x.1 = some x.2 ∧ e.par.pending = [])) ∧
    (∀ h, d.sfl.frozen = false → d.par.shadow = some h → d.shadowCan h.ch = true → d.bankOk 0 = true →
      d.rd (F.parSjCfg_shadowInt) ≤ d.since h.last →
      let cur := h.blocks.getD h.current []
      let snap := d.rd F.parSjSnap + 1
      (cur.length < d.shadowUnits h → completes (.shadowProgram true) s fun e => e = (d.onPar fun p => { p with
        shadow := some { h with
          blocks := h.blocks.set h.current (cur ++ [⟨d.rd F.parSjSnap, cur.length, h.pending.take 1024⟩])
          pending := h.pending.drop 1024, last := d.now } }).flashMoves) ∧
      (d.shadowUnits h ≤ cur.length → completes (.shadowProgram true) s fun e =>
        let m := (d.wr F.parSjSnap snap).shadowSlot h.ch ((d.setOfChannel h.ch).getD 0) h.keys snap
        e = (m.onPar fun p => { p with
          shadow := p.shadow.map fun x => { h with
            current := 1 - h.current
            blocks := h.blocks.set (1 - h.current) (d.snapshot snap ++ [⟨snap, (d.snapshot snap).length, h.pending.take 1024⟩])
            pending := x.pending.drop 1024, last := m.now } }).flashMoves) ∧
      (completes (.shadowProgram false) s fun e => e = d.shadowMove.flashMoves)) ∧
    (∀ r k x, d.stripeOf r k = some x → d.flashReady = true → d.rd (F.parSetCfg_fillWait (rowSet r)) ≤ d.since x.tick →
      completes (.fillWaitExpiry r k) s fun e => e = ((d.padStripe r k).startParity r k).flashMoves) ∧
    (∀ n bad r p u, n < 8 → d.movesHeld = false → d.flashReady = true → d.setOn n = true →
      d.classServed 3 = true ∨ d.rd (F.parSetStat_state n) = 3 →
      (d.staleRows n).find? (fun r => decide ((d.rowEnt r).st = .closed) || decide ((d.rowEnt r).st = .source)) = some r →
      256 ≤ d.since (Map.get (0, 0, 0) d.par.moved n).1 → 0 < d.rd (F.parSetRate_rebuild n) →
      let m := (((((d.rateOk n (d.rd (F.parSetRate_rebuild n)) false).2.sourceRow r).onSfl fun x => { x with refresh := x.refresh.filter (· != r) }).wr
        (F.parSetCur n) r).wrB (F.parSetStat_rebuild n) true |>.onPar fun p => { p with cur := Map.put p.cur n r }) |>.rebuildSlot n r
      m.nextMapped r = some (p, u) → (m.posLost r (puaCh p) || bad.contains p) = false →
      completes (.rebuildUnitMove n bad) s fun e => e = (m.addJob (copyJob (.rebuild r) u.tag.unit 2 p none)).2.flashMoves) ∧
    (∀ n bad, n < 8 → d.movesHeld = false → d.flashReady = true → d.setOn n = true →
      d.classServed 3 = true ∨ d.rd (F.parSetStat_state n) = 3 → d.staleRows n = [] →
      completes (.rebuildUnitMove n bad) s fun e => e = (d.rebuildEnds n).flashMoves) ∧
    (∀ n t r x, n < 8 → d.movesHeld = false → d.flashReady = true → d.classServed 3 = true → Map.find d.par.shapes n = some t →
      d.liveRows n = [(r, x)] → x.st = .closed → 256 ≤ d.since (Map.get (0, 0, 0) d.par.moved n).1 → 0 < d.rd (F.parSetRate_reshape n) →
      completes (.reshapeUnitMove n) s fun e => e =
        (((((d.rateOk n (d.rd (F.parSetRate_reshape n)) true).2.sourceRow r).wr (F.parSetCur n) r).onPar fun p => { p with
          cur := Map.put p.cur n r }).moveNext r (.reshape r)).2.flashMoves) ∧
    (∀ j i x n t (r : RecRow), d.runAt j = some (n, t) → t.recompute = false → i < 10 → d.par.adds = [] → x = t.added i → d.odr.recs = [r] →
      r.cat = t.runCat → r.disc = i → r.brow = t.stripe + x → r.staged = false → r.add = none →
      completes (.discParityAdd j i x) s fun e =>
        let m := d.parityAdd j i x
        e = m.flashMoves ∧ m.par.adds = [⟨d.par.nextAdd, j, i, x, 8⟩] ∧ m.odr.recs = [{ r with add := some d.par.nextAdd }] ∧
          m.sfl.jobs.length = d.sfl.jobs.length + 8) ∧
    (∀ j n t, d.runAt j = some (n, t) → t.recompute = true → d.flashReady = true → t.counted = [] → d.odr.gathered = [] →
      completes (.recompute j []) s fun e => e = (d.runRecompute j []).flashMoves ∧
        (d.runRecompute j []).errorShows Pg.parDisc Er.parDisc_recompute) ∧
    (∀ j n t, d.runAt j = some (n, t) → d.runCovered t = true →
      Map.window d.sfl.map (d.stagedGlu j 0 0 0) (131072 + d.stagedGlu j 0 0 0) = [] → completes (.discRunCovered j) s fun e =>
        e = ((d.sjClear n).countN (F.parDiscCnt 2) t.runCount).showRuns.flashMoves)

/-! ## The loader and the drives -/

/-- DISC_IDENTIFY (R263-R265, R272-R274): a lead-in that does not check, a disc of the other format and a disc of another Shell are refused;
a blank disc and an identified one become READY with their catalogue entry, defect list and NWB; the first disc of a catalogued Shell that
is being mounted completes the mount, and one of another Shell ends it with WRONG_SHELL. -/
def Obligations.DiscIdentified : Prop :=
  ∀ (s : State) (n : Nat) (x : LeadIn), n < 4 → s.dev.drvState n = 2 → s.dev.plat.armed = [] →
    let d := s.dev
    let c := (d.expectedShell n).1
    let mine := (d.expectedShell n).2
    let ok := x.fibOk && (x.ad8 || zonesOk x.zones)
    (ok = false → completes (.discIdentify n x) s fun e => e = (d.raise (Pg.odrDrv n) Er.odrDrv_fibBad).refuseDisc n 0x40) ∧
    (ok = true → x.ad8 ≠ d.ad8 n → completes (.discIdentify n x) s fun e =>
      e = (d.raise (Pg.odrDrv n) Er.odrDrv_formatMismatch).refuseDisc n 0x41) ∧
    (ok = true → x.ad8 = d.ad8 n → x.ad8 = false → d.ldr.mount = none →
      (x.dibs = [] → c < 65536 → completes (.discIdentify n x) s fun e => e.drvState n = 3 ∧ e.rd (F.drvShell n) = c ∧
        e.rd (F.drvStat_format n) = 1 ∧ e.rd (F.drvNwb n) = 0 ∧
        ∃ k, (e.drive n).disc = some k ∧ k.zones = x.zones ∧ k.serial = x.serial ∧ k.shell = mine ∧ k.dib = none ∧ k.blocks = 0) ∧
      (∀ b, x.dibs = [b] → dibOk b.2 = true → fieldAt b.2 4 8 ≠ mine → completes (.discIdentify n x) s fun e =>
        e = (d.raise (Pg.odrDrv n) Er.odrDrv_foreign).refuseDisc n 0x40) ∧
      (∀ b, x.dibs = [b] → dibOk b.2 = true → fieldAt b.2 4 8 = mine → c < 65536 → x.belowOk = true →
        (d.pendRec n).shell = mine → (d.pendRec n).disc = d.rd (F.drvStat_disc n) →
        let ddl := readDdl false 1 x.ddl
        let nwb := max (max ddl.2.1 (max ((d.catEnt c).nwbs.getD (d.rd (F.drvStat_disc n)) 0) (d.pendRec n).nwb)) x.blankFrom
        nwb < 2 ^ 25 → completes (.discIdentify n x) s fun e => e.drvState n = 3 ∧ e.rd (F.drvShell n) = c ∧ e.rd (F.drvNwb n) = nwb ∧
          ∃ k, (e.drive n).disc = some k ∧ k.zones = x.zones ∧ k.shell = mine ∧ k.dib = some b.1 ∧ k.blocks = ddl.1 ∧
            k.ents = ddl.2.2.1 ++ (d.pendRec n).ents)) ∧
    (∀ m cat, ok = true → x.ad8 = d.ad8 n → x.ad8 = false → d.ldr.mount = some m → m.cat = some cat →
      (x.dibs = [] → completes (.discIdentify n x) s fun e =>
        e = (d.discReadyNow n cat (d.catEnt cat).shell none true x).mountDone cat n) ∧
      (∀ b, x.dibs = [b] → dibOk b.2 = true → fieldAt b.2 4 8 = (d.catEnt cat).shell → completes (.discIdentify n x) s fun e =>
        e = (d.discReadyNow n cat (d.catEnt cat).shell (some b.1) false x).mountDone cat n) ∧
      (∀ b, x.dibs = [b] → dibOk b.2 = true → fieldAt b.2 4 8 ≠ (d.catEnt cat).shell → completes (.discIdentify n x) s fun e =>
        let w := (d.raise Pg.odrLdr Er.odrLdr_wrongShell).onCat cat fun y => { y with st := 3 }
        let c := w.catalogue (fieldAt b.2 4 8) m.slot 1
        e = (c.2.unloadStart n).mountEnds (if c.1.isSome then 0x45 else 0x46) c.1 true))

/-- DISC_UNLOAD, LDR_INVENTORY, LDR_HOME, LOADER_STEP_DONE and LOADER_STEP_TIMEOUT (R258, R263, R271, R419-R421): a disc leaves with its
pending entries recorded and its NWB saved; LDR_CTRL.ACT is heard only in IDLE; a sequence takes its steps in order; a step that takes too
long is AXIS_FAIL. -/
def Obligations.LoaderCommands : Prop :=
  ∀ s : State,
    let d := s.dev
    (∀ n k, n < 4 → d.drvState n = 4 → d.driveBusy n = false → (d.drive n).disc = some k → k.shell ≠ 0 →
      (d.ldr.cur.toList ++ d.ldr.ops).contains (.toDisc n (d.rd (F.drvStat_disc n))) = false →
      completes (.discUnload n) s fun e =>
        let m := (d.ddlRecord n).saveNwb n
        (k.rdonly.contains 0 = false → (m.pendRec n).ents = [] ∧
          ((d.pendRec n).ents ≠ [] → m.rd (F.drvDdl_blocks n) = (k.blocks + 1) % 2048 ∧
            m.rd (F.drvCnt n 5) = satInc 32 (d.rd (F.drvCnt n 5)))) ∧
        (k.rdonly.contains 0 = true → m.pendRec n = d.pendRec n) ∧
        (d.rd (F.drvStat_disc n) < 12 → (m.catEnt (d.rd (F.drvShell n))).nwbs.getD (d.rd (F.drvStat_disc n)) 0 = d.rd (F.drvNwb n)) ∧
        e = (m.stopSpin n).ldrQueue [.toDisc n (d.rd (F.drvStat_disc n))]) ∧
    (d.writesBlocked = false → d.rd F.ldrStat ≠ 0 →
      completes .ldrInventory s (fun e => e = d.countIgnored Pg.odrLdr) ∧ completes .ldrHome s (fun e => e = d.countIgnored Pg.odrLdr)) ∧
    (d.writesBlocked = false → d.rd F.ldrStat = 0 → d.ldr.cur = none → d.ldr.ops = [] → d.loaderFenced = false →
      (completes .ldrHome s fun e => e.ldr.cur = some .home ∧ e.ldr.ops = [] ∧ e.ldr.axes = [7] ∧ e.ldr.step = 0 ∧ e.rd F.ldrStat = 1) ∧
      (0 < d.rd F.ldrCfg_slots → completes .ldrInventory s fun e => e.ldr.cur = some (.visit 0) ∧ e.ldr.step = 0 ∧ e.rd F.ldrStat = 2 ∧
        e.ldr.ops = ((List.range (d.rd F.ldrCfg_slots)).map LdrOp.visit).erase (.visit 0))) ∧
    (∀ k m, d.ldr.cur = some .home → d.ldr.homing = true → d.ldr.axes = [m] → d.ldr.step = k → k < 3 → (d.axis m).st = 0 →
      d.flag (F.stStat_homed m) = true → completes .loaderStepDone s fun e =>
        let next := ldrHomeOrder.getD (k + 1) 0
        e = (((d.onLdr fun l => { l with step := k + 1, axes := [next], stepAt := d.now }).wr F.motLdrStep_sequence 6).wr F.motLdrStep_step
          (k + 1)).axisHome next 2 false) ∧
    (∀ op moves, d.ldr.cur = some op → op ≠ .home → d.ldr.homing = false → d.ldrStepOver op = true → d.ldrCloses op = false →
      (d.ldrSteps op)[d.ldr.step + 1]? = some moves → completes .loaderStepDone s fun e =>
        e = moves.foldl (fun (f : Dev) x => f.axisMove x.1 (x.2.getD (2 ^ 31 - 1)) 2 false)
          (((d.onLdr fun l => { l with step := l.step + 1, axes := moves.map (·.1), stepAt := d.now }).wr F.motLdrStep_sequence
            (ldrCode op)).wr F.motLdrStep_step (d.ldr.step + 1))) ∧
    (∀ slot, d.ldr.cur = some (.toBay slot) → d.ldr.homing = false → d.ldrStepOver (.toBay slot) = true → d.ldr.step = 9 →
      d.ldr.found = 1 → slot < 64 → completes .loaderStepDone s fun e =>
        let cat := (d.ldr.mount.bind (·.cat)).getD 0
        e = ((((((d.onLdr fun l => { l with step := 10 }).showSlot slot false none).wr F.ldrBay_valid 1).wr F.ldrBay_index cat).wr
          F.ldrBay_discs 0).onLdr fun l => { l with cur := none }).ldrNext) ∧
    (d.ldr.cur ≠ none → d.rd F.motLdrTmo * 400 < d.since d.ldr.stepAt → completes .loaderStepTimeout s fun e => e = d.ldrFails)

/-- SAMPLE_FRAME, SERVO_FRAME and STATUS_FRAME (R285, R289, R309): a frame that fails its check is discarded and counted; a SAMPLE frame in
its place is conditioned, one g frames later is a gap of g frames; SERVO gives the servo input, the focus condition of the write guard and
the head's state; STATUS the head's identity and rate. -/
def Obligations.HeadFrames : Prop :=
  ∀ (s : State) (i : SampleIn) (f : HeadIn), s.dev.plat.armed = [] → i.frame = f → f.drive < 4 → s.dev.headUp f.drive = true →
    let d := s.dev
    let n := f.drive
    let p := framePayload f.bytes
    let bad := ((d.count (F.hlCnt n 0)).count (F.hlCnt n 1)).raise (Pg.odrHl n) Er.odrHl_hlCrc
    let b := frameBeam f.bytes
    let x := d.beam n b
    (headOk (d.ad8 n) 1 f.bytes = false → completes (.sampleFrame i) s fun e => e = bad) ∧
    (headOk (d.ad8 n) 2 f.bytes = false → completes (.servoFrame f) s fun e => e = bad) ∧
    (headOk (d.ad8 n) 3 f.bytes = false → completes (.statusFrame f) s fun e => e = bad) ∧
    (headOk (d.ad8 n) 1 f.bytes = true → d.ad8 n = false → x.locked = false → i.bits = [] → i.groups = [] →
      frameFlags f.bytes % 64 = x.code → x.sent = x.code → 813 ≤ x.fgain → x.fgain ≤ 1290 →
      (x.expect.getD (frameStamp f.bytes) = frameStamp f.bytes → completes (.sampleFrame i) s fun e =>
        (e.beam n b).expect = some ((frameStamp f.bytes + 512) % 2 ^ 32) ∧ e.rd (F.hlCnt n 0) = satInc 32 (d.rd (F.hlCnt n 0)) ∧
        (e.beam n b).y = p.map (fun v => conditioned (sgn 8 v.toNat) x.offset x.asym x.fgain) ∧ e.out = d.out ∧ e.srv = d.srv) ∧
      (∀ g at_, x.expect = some at_ → at_ < 2 ^ 32 → 1 ≤ g → g < 2048 → frameStamp f.bytes = (at_ + 512 * g) % 2 ^ 32 →
        completes (.sampleFrame i) s fun e => e.rd (F.hlCnt n 2) = min (2 ^ 32 - 1) (d.rd (F.hlCnt n 2) + g) ∧
          e.errorShows (Pg.odrHl n) Er.odrHl_sampleGap ∧ (e.beam n b).expect = some ((frameStamp f.bytes + 512) % 2 ^ 32))) ∧
    (headOk (d.ad8 n) 2 f.bytes = true → d.ad8 n = false → completes (.servoFrame f) s fun e =>
      let word (k : Nat) : Int := sgn 16 (fieldAt p k 2)
      let v : ServoIn := ⟨word 0, fieldAt p 2 2, word 4, word 6, (List.range 18).map (fun k => word (8 + 2 * k)),
        (List.range 18).map (fun k => fieldAt p (44 + k) 1)⟩
      let m := ((d.count (F.hlCnt n 0)).onDrive n fun y => { y with servo := v, came := true }).guardSet n f.ns 3 false
      e = (m.guardSet n f.ns 0 (decide (m.rd (F.wgLim_foc n) < (word 0).natAbs))).headState n (fieldAt p 62 1)) ∧
    (headOk (d.ad8 n) 3 f.bytes = true → fieldAt p 3 1 = (if d.ad8 n then 1 else 2) → fieldAt p 10 2 = 0 → fieldAt p 9 1 = 0 →
      completes (.statusFrame f) s fun e => e.rd (F.hlHead_id n) = fieldAt p 0 2 ∧ e.rd (F.hlHead_fw n) = fieldAt p 2 1 ∧
        e.rd (F.hlSrate n) = fieldAt p 4 4 ∧ e.rd (F.hlHead_hstate n) = 0 ∧ s.dev.sameRegions e ∧ e.out = d.out)

/-- LDPC_DECODE_START, LDPC_DECODE_DONE and RECOVERY_LEVEL_START (R299-R302): an idle decoder takes the request that is served first; a
request's outcome is counted and decides its sector; one sector still failed after L1 is filled across the beams; L1 decodes again from
the stored values, and a re-read level reads the slot again on every beam that is decoded, L3 with the taps at their reset and L6 with the
head sampling at half the rate. -/
def Obligations.BandrowReads : Prop :=
  ∀ (s : State) (n dec brow : Nat), n < 4 → dec < 24 →
    let d := s.dev
    let reqs := d.odr.ldpc
    ((d.cellsOut F.ldpcFenced .ldpc 24).testBit dec = false → (∀ q ∈ reqs, q.decoder ≠ some dec) → (∃ q ∈ reqs, q.decoder = none) →
      completes (.ldpcDecodeStart dec) s fun e => ∃ i q, reqs[i]? = some q ∧ q.decoder = none ∧
        (∀ r ∈ reqs, r.decoder = none → r.before q = false) ∧ e.odr = { d.odr with ldpc := reqs.set i { q with decoder := some dec } }) ∧
    (∀ q bytes, reqs.find? (fun r => r.decoder == some dec) = some q →
      let m := (d.onOdr fun o => { o with ldpc := reqs.filter (fun r => r.decoder != some dec) }).showPool
      (∀ t, ldpcDecode (d.ad8 q.drive) q.llrs q.limit = (some t, bytes) → completes (.ldpcDecodeDone dec) s fun e =>
        e = (((m.count (F.ldpcCnt 1)).countN (F.ldpcCnt 3) t).count (F.ldpcHist t)).sectorDone q.drive q.ploc q.sector (some (t, bytes))) ∧
      (ldpcDecode (d.ad8 q.drive) q.llrs q.limit = (none, bytes) → completes (.ldpcDecodeDone dec) s fun e =>
        e = ((m.count (F.ldpcCnt 2)).countN (F.ldpcCnt 3) q.limit).sectorDone q.drive q.ploc q.sector none) ∧
      (∀ r i, ldpcDecode false q.llrs q.limit = (none, bytes) → d.plat.armed = [] → q.drive = n → q.sector = i → d.ad8 n = false →
        (d.drive n).reads = [r] → r.ploc = q.ploc → r.waiting = [i] → r.verdict = none → r.level = 1 → r.passes = 0 → r.failed false = [i] →
        completes (.ldpcDecodeDone dec) s fun e =>
          let w := ((((m.count (F.ldpcCnt 2)).countN (F.ldpcCnt 3) q.limit).putRead n { r with waiting := [] }).countN (F.rcMiscor n) 0).countN
            (F.rcFills n) 1
          let filled := rsFill ((List.range 18).map fun k => (Map.find r.known k).map (·.2)) 16384 [i]
          e = (w.raise (Pg.odrRc n) Er.odrRc_rsFill r.brow).readComplete n
            { r with waiting := [], known := filled.foldl (fun m e => Map.put m e.1 (0, e.2)) r.known } [i] [i])) ∧
    (∀ r, (d.drive n).reads.find? (fun r => r.brow == brow && r.idle && r.verdict.isNone) = some r → d.holding 8 = false → d.holding 9 = false →
      (let again := (d.decodable n r).filter fun i => (Map.find r.llrs i).isSome
       r.level = 0 → again ≠ [] → completes (.recoveryLevelStart n brow) s fun e =>
        (e.drive n).reads = (d.drive n).reads.map (fun y =>
          if sameRead y r then { r with level := 1, idle := false, passes := 0, waiting := again } else y) ∧
        e.odr.ldpc = reqs ++ again.map (fun i => ⟨n, r.ploc, r.beam (d.ad8 n) i, i, Map.get [] r.llrs i, 24, false, d.now * 2500, none⟩)) ∧
      (1 ≤ r.level → r.level ≤ 5 → (d.rec_ n).cur = none → d.drvState n = 3 → d.servoOn n = true → d.decodable n r ≠ [] →
        (∀ y ∈ (d.drive n).reads, sameRead y r = true ∨ y.level < 2 ∨ 6 < y.level) →
        let r' := { r with
          level := r.level + 1, idle := false, passes := [0, 1, 1, 3, 1].getD (r.level - 1) 0, waiting := d.decodable n r, repeated := false, llrs := [] }
        let m := d.putRead n r'
        completes (.recoveryLevelStart n brow) s fun e =>
          e = (if r.level = 2 then m.tapsReset n
            else if r.level = 5 then
              m.freeStamp.2.sendCfg n (sampleRate (m.zoneNow n).frames (m.zoneNow n).rpm / 2) m.freeStamp.1 true
            else m).aimRead n r' ∧
          (r.level = 2 → ∀ b, b < 18 → ((m.tapsReset n).beam n b).eq = (List.range 15).map (fun t => d.rdS 12 (F.rcEqDef n t)) ∧
            ((m.tapsReset n).beam n b).cancL = [0, 0, 0] ∧ ((m.tapsReset n).beam n b).cancR = [0, 0, 0])))

/-- BANDROW_COMMIT, REALLOC_RECORD, SHOCK_INPUT and SHOCK_RELEASE (R318-R323, R331): a band-row is committed where R318 holds, and else its slot
stays blank; a queued band-row is recorded in the spare slot, each as its buffers hold it; SHOCK trips the guard, which sends HOLD and stops the committed band-row with
a slip. -/
def Obligations.RecorderCommands : Prop :=
  ∀ (s : State) (c : CommitIn) (n : Nat) (k : DiscSt), n < 4 → c.drive = n → (s.dev.drive n).disc = some k → k.ad8 = false → s.dev.ad8 n = false →
    let d := s.dev
    let q := d.rec_ n
    (d.recState n = 1 → q.recheck = false → q.tables = false → q.cur = none → q.next = none → q.queue.length < 64 → k.dib.isSome = true →
      ∀ row, d.nextRow n (d.rd (F.drvNwb n)) = some row → row.brow = d.rd (F.drvNwb n) →
      (d.mayCommit n false = true →
        let t := (d.onOdr fun o => { o with recs := o.recs.filter (fun r => r.id != row.id) }).recTake row
        let p := k.plocOf row.brow
        let z := k.zone (plocLayer p) (k.zoneOfSlot (plocLayer p) (plocSlot p))
        (completes (.bandrowCommit c) s fun e => e = ((t.2.commitRow n c.leadNs t.1 p).setRec n 2).count (F.wrCnt n 7)) ∧
        (d.recBufs row.id = none → completes (.bandrowCommit c) s fun e => e.recState n = 2 ∧
          e.rd (F.wrCnt n 7) = satInc 32 (d.rd (F.wrCnt n 7)) ∧ OutMsg.gate n 0 false ∈ e.out ∧
          e.odr.recs = d.odr.recs.filter (fun r => r.id != row.id) ∧
          (e.rec_ n).cur.map (fun r => (r.row, r.ploc, r.tick, r.startNs, r.lastNs, r.endNs)) = some (row, p, d.now, c.leadNs,
            c.leadNs + bitsNs z (lastBitAt false (2 - row.from_)), c.leadNs + bitsNs z (slotBits false (2 - row.from_))))) ∧
      (d.mayCommit n true = false → completes (.bandrowCommit c) s fun e => e = d.onSeq n fun s => { s with due := true })) ∧
    (∀ row rest p, d.recState n = 4 → q.cur = none → q.tables = false → q.queue = row :: rest → rest.length < 64 → q.excess = [] → k.dib.isSome = true →
      d.mayCommit n false = true → k.reallocSpare row.brow = some p →
      let t := ((d.onRecorder n fun y => { y with queue := rest }).queueFill n).recTake row
      (completes (.reallocRecord c) s fun e => e = t.2.commitRow n c.leadNs { t.1 with from_ := 0 } p) ∧
      (d.recBufs row.id = none → completes (.reallocRecord c) s fun e =>
        (e.rec_ n).queue = rest ∧ OutMsg.gate n 0 false ∈ e.out ∧
        (e.rec_ n).cur.map (fun r => (r.row, r.ploc, r.tick, r.startNs)) = some ({ row with from_ := 0 }, p, d.now, c.leadNs))) ∧
    (∀ ns, d.chats (keyShock n) = false → (d.drive n).guard.contains 2 = false → completes (.shockInput n ns) s fun e =>
      (e.drive n).guard = (d.drive n).guard ++ [2] ∧ OutMsg.gate n 0 true ∈ e.out ∧ e.flag (F.wrStat_shk n) = true ∧
      e.rd (F.wrCnt n 6) = satInc 32 (d.rd (F.wrCnt n 6)) ∧ e.errorShows (Pg.odrWr n) Er.odrWr_guardShk ∧
      (q.cur = none → q.next = none → (e.pendRec n) = d.pendRec n ∧ e.odr.recs = d.odr.recs) ∧
      (∀ r, q.cur = some r → q.next = none → d.nsSince r.tick ns ≤ r.lastNs → r.row.why ≠ .again → r.row.stops < 3 → k.stopped = false →
        r.ploc = k.logicalPloc r.row.brow → k.canSlip (browLayer r.row.brow) (k.zoneOf (browLayer r.row.brow) (browUser r.row.brow)) = true →
        (d.pendRec n).ents.length < 8189 → d.recState n = 2 →
        (e.pendRec n).ents = (d.pendRec n).ents ++ [⟨2, true, 0x22, r.row.brow, r.ploc, 2 ^ 18 - 1, 0, d.rd F.sflTime⟩] ∧
        (e.rec_ n).cur = none ∧ e.recState n = 3 ∧ e.odr.recs = { r.row with stops := r.row.stops + 1 } :: d.odr.recs)) ∧
    (d.chats (keyShock n) = false → completes (.shockRelease n) s fun e =>
      (e.drive n).guard = (d.drive n).guard.filter (· != 2) ∧ e.flag (F.wrStat_shk n) = false ∧ e.out = d.out)

/-! ## Servo sequences, spindles, steppers and inputs -/

/-- FOCUS_CONFIRMED, FOCUS_SWEEP_END, FOCUS_LOST, RETRACT_COMPLETE and SERVO_STALE (R344, R358, R360, R361, R366), of a drive whose role A computes:
confirmed on the target's layer the radial loops close and the approach begins, and from another layer the drive jumps; a sweep without the
target is made again, twice; a loss of focus retracts, and the fourth within 400,000 ticks fails; a retract's end acquires again or parks. -/
def Obligations.FocusIsKept : Prop :=
  ∀ (s : State) (n a : Nat) (i : Image), n < 4 → s.dev.inRole n 1 = some a → (s.dev.eng a).st = 3 → (s.dev.eng a).img = some i →
    let d := s.dev
    let q := i.seq
    let focus := i.loop loopFocus
    let recent := q.losses.filter fun t => decide (d.since t ≤ 400000)
    (q.st = 1 → focus.mode = 3 → d.rd (F.srvFocCfg_confirm n) ≤ q.inLock → d.fieldLayers n ≠ [] →
      (goalLayer q ∈ d.fieldLayers n → completes (.focusConfirmed n) s fun e =>
        let m := d.onSeq n fun y => { y with layer := goalLayer q, jump := 0 }
        m.seq n = { q with layer := goalLayer q, jump := 0 } ∧
        e = (((m.loopClose n loopRadial).finesClose n).loopClose n loopSled).approach n) ∧
      (goalLayer q ∉ d.fieldLayers n → completes (.focusConfirmed n) s fun e =>
        let m := d.onSeq n fun y => { y with layer := (d.fieldLayers n).headD 0 }
        m.seq n = { q with layer := (d.fieldLayers n).headD 0 } ∧ e = m.jumpTo n (goalLayer q) 0)) ∧
    (q.st = 1 → focus.mode = 1 → 32767 ≤ focus.open_ →
      (q.sweeps < 2 → completes (.focusSweepEnd n) s fun e => e = d.acquire n (q.sweeps + 1) ∧ e.rd (F.srvDrvPos_valid n) = 0 ∧
        (d.flag (F.srvLoopCtrl_en (loopPage n loopFocus)) = true → ((e.img n).loop loopFocus).open_ = d.rdS 16 (F.srvFocPark n)) ∧
        e.seq n = { q with
          st := 1, sweeps := q.sweeps + 1, crossed := 0, fe := 0, inLock := 0, lowSum := 0, jump := 0, phase := 0, serve := true }) ∧
      (2 ≤ q.sweeps → completes (.focusSweepEnd n) s fun e =>
        let m := ((d.loopOpen n loopFocus (d.rdS 16 (F.srvFocPark n))).onSeq n fun y =>
          { y with st := 0, serve := false, goal := none, due := false }).raise (Pg.srvDrv n) Er.srvDrv_focusFail
        m.errorShows (Pg.srvDrv n) Er.srvDrv_focusFail ∧
        m.seq n = { q with st := 0, serve := false, goal := none, due := false } ∧ e = m.discFails n)) ∧
    (focus.mode = 3 → d.rd (F.srvFocLim_lostT n) ≤ q.lowSum → completes (.focusLost n) s fun e =>
      let m := ((d.raise (Pg.srvDrv n) Er.srvDrv_focusLost).count (F.srvDrvCnt n 1)).onSeq n fun y =>
        { y with losses := recent ++ [d.now], lowSum := 0 }
      m.errorShows (Pg.srvDrv n) Er.srvDrv_focusLost ∧ m.rd (F.srvDrvCnt n 1) = satInc 32 (d.rd (F.srvDrvCnt n 1)) ∧
      m.seq n = { q with losses := recent ++ [d.now], lowSum := 0 } ∧
      e = if 3 ≤ recent.length then ((m.retractPark n).raise (Pg.srvDrv n) Er.srvDrv_focusFail).discFails n else m.retract n) ∧
    (q.st = 5 → focus.open_ = d.rdS 16 (F.srvFocPark n) →
      (q.serve = true → (d.drive n).disc.isSome = true → 8 ≤ q.fresh → completes (.retractComplete n) s fun e => e = d.acquire n 0 ∧
        (e.seq n).st = 1 ∧ (e.seq n).sweeps = 0 ∧ e.rd (F.srvDrvCnt n 0) = satInc 32 (d.rd (F.srvDrvCnt n 0))) ∧
      (q.serve = true → (d.drive n).disc.isSome = true → q.fresh < 8 → completes (.retractComplete n) s fun e => e = d) ∧
      (q.serve = false ∨ (d.drive n).disc = none → completes (.retractComplete n) s fun e =>
        let m := d.onSeq n fun y => { y with st := 0, goal := none, due := false }
        m.seq n = { q with st := 0, goal := none, due := false } ∧
        e = m.stepFree.sendCfg n (m.rd (F.hlSrate n)) (m.free 3) false)) ∧
    (q.st ≠ 0 → q.st ≠ 5 → 4 ≤ q.stale → completes (.servoStale n) s fun e =>
      let m := d.raise (Pg.srvDrv n) Er.srvDrv_servoStale
      m.errorShows (Pg.srvDrv n) Er.srvDrv_servoStale ∧ e = m.retract n) ∧
    (q.st ≠ 0 → (d.retract n).seq n = { q with st := 5, jump := 0, phase := 0, hit := false } ∧ (d.retract n).mram = d.mram ∧
      (d.retract n).out = d.out)

/-- JUMP_KICK_END, JUMP_BRAKE_END, JUMP_FAIL, SEEK_TRAJECTORY_END, SETTLE_COMPLETE and SEEK_FAIL (R362, R363), of a drive whose role A computes:
a jump's step goes from kick to coast and from brake to close; a crossing that does not come fails it and retracts; a trajectory at its target
settles; a settled drive follows; a settle of 400 ticks is followed by one more approach, and then has failed. -/
def Obligations.JumpsAndSeeks : Prop :=
  ∀ (s : State) (n a : Nat) (i : Image), n < 4 → s.dev.inRole n 1 = some a → (s.dev.eng a).st = 3 → (s.dev.eng a).img = some i →
    let d := s.dev
    let q := i.seq
    let r := (d.raise (Pg.srvDrv n) Er.srvDrv_seekFail).onSeq n fun y => { y with fails := q.fails + 1, bad := 0, longs := 0 }
    let failed (e : Dev) : Prop := r.errorShows (Pg.srvDrv n) Er.srvDrv_seekFail ∧
      r.seq n = { q with fails := q.fails + 1, bad := 0, longs := 0 } ∧
      e = (if 1 ≤ q.fails then r.dropWants (r.rd (F.drvShell n)) (r.rd (F.drvStat_disc n)) 0x40 else r).retract n
    (q.st = 3 → q.jump = 1 → d.rd (F.srvJumpCfg_kickT n) ≤ q.timer → completes (.jumpKickEnd n) s fun e =>
      e = ((d.loopOpen n loopFocus 0).onSeq n fun y => { y with jump := 2, timer := 0, hit := false }) ∧
      e.seq n = { q with jump := 2, timer := 0, hit := false }) ∧
    (q.st = 3 → q.jump = 3 → d.rd (F.srvJumpCfg_brakeT n) ≤ q.timer → completes (.jumpBrakeEnd n) s fun e =>
      let m := d.onSeq n fun y => { y with jump := 4, timer := 0 }
      m.seq n = { q with jump := 4, timer := 0 } ∧ e = m.focusOn n q.dest) ∧
    (q.st = 3 → q.jump = 1 ∨ q.jump = 2 → q.hit = false → d.rd (F.srvJumpCfg_tmo n) ≤ q.kick → completes (.jumpFail n) s fun e =>
      let m := (d.raise (Pg.srvDrv n) Er.srvDrv_jumpFail).count (F.srvDrvCnt n 3)
      m.errorShows (Pg.srvDrv n) Er.srvDrv_jumpFail ∧ m.rd (F.srvDrvCnt n 3) = satInc 32 (d.rd (F.srvDrvCnt n 3)) ∧ e = m.retract n) ∧
    (q.st = 4 → q.phase = 1 → q.pos = q.aim → completes (.seekTrajectoryEnd n) s fun e =>
      e = d.settle n ∧ e.seq n = { q with phase := 3, settle := 0, settled := 0 }) ∧
    (q.st = 4 → q.phase = 3 → d.rd (F.srvSeekCfg_settle n) ≤ q.settled → completes (.settleComplete n) s fun e =>
      e = (d.onSeq n fun y => { y with st := 2, phase := 0, due := false, bad := 0 }) ∧
      e.seq n = { q with st := 2, phase := 0, due := false, bad := 0 }) ∧
    (q.st = 4 → q.phase = 3 → 400 ≤ q.settle →
      (q.bad = 0 → completes (.seekFail n) s fun e =>
        let m := d.onSeq n fun y => { y with bad := 1 }
        m.seq n = { q with bad := 1 } ∧ e = m.approach n) ∧
      (q.bad ≠ 0 → completes (.seekFail n) s failed)) ∧
    (q.st = 4 → q.phase = 4 → completes (.seekFail n) s failed)

/-- SRV_CS_DATA_WRITE, SRV_CS_DATA_READ and DEADLINE (R354, R368): a word written reaches every engine's copy but a FAILED engine's, and no other
word; a set that the region map names is not written; a read returns the word of the lowest engine in a role; the address rises where AUTOINC is
set. A loop missed HOLD_LIM ticks in a row retracts, or stops the spindle or the sled. -/
def Obligations.CoefficientAccess : Prop :=
  ∀ (s : State) (n : Nat), n < 4 →
    let d := s.dev
    let set := d.rd (F.srvCsAddr_set n)
    let cls := d.rd (F.srvCsAddr_class n)
    let word := d.rd (F.srvCsAddr_word n)
    let a := csAddr set cls (d.rd (F.srvCsAddr_stage n)) word
    let moved (e : Dev) : Prop := (d.rd (F.srvCsAddr_autoinc n) = 0 → e.regs = d.regs) ∧ (d.rd (F.srvCsAddr_autoinc n) ≠ 0 →
      csAddr (e.rd (F.srvCsAddr_set n)) (e.rd (F.srvCsAddr_class n)) (e.rd (F.srvCsAddr_stage n)) (e.rd (F.srvCsAddr_word n)) = (a + 1) % 131072)
    (∀ v, v < 2 ^ 32 → d.writesBlocked = false → cls ≠ 7 → (∀ r, r < 2048 → d.mapSet4 n r ≠ set) →
      completes (.srvCsDataWrite n v) s fun e => moved e ∧ e.mram = d.mram ∧ e.plat = d.plat ∧
        (∀ g ∈ engsOf n, e.csWord g a = if (d.eng g).st = 6 then d.csWord g a
          else w32 (if word < 5 then v % 2 ^ 18 else if word = 5 then v % 64 else if word = 6 then v % 2 else 0)) ∧
        (∀ g b, b < 131072 → b ≠ a ∨ g ∉ engsOf n → e.csWord g b = d.csWord g b)) ∧
    (∀ v, v < 2 ^ 32 → d.writesBlocked = false → (∃ r, r < 2048 ∧ d.mapSet4 n r = set) →
      completes (.srvCsDataWrite n v) s fun e => e.srv = d.srv ∧ e.errorShows (Pg.srvDrv n) 31 ∧
        e.ignoredCount (Pg.srvDrv n) = satInc 32 (d.ignoredCount (Pg.srvDrv n))) ∧
    (completes (.srvCsDataRead n) s fun e => moved e ∧ e.srv = d.srv ∧ e.plat = d.plat ∧ e.mram = d.mram ∧
      e.readVal = if cls = 7 then 0 else (d.csWord (d.csEngine n) a).toNat) ∧
    (∀ l, l < 23 → max 1 (d.rd (F.srvMissCfg n)) ≤ Map.get 0 (d.srvDrive n).missed l → completes (.deadline n l) s fun e =>
      let m := (d.raise (Pg.srvDrv n) Er.srvDrv_deadline l).onSrvDrive n fun v => { v with missed := Map.erase v.missed l }
      m.errorShows (Pg.srvDrv n) Er.srvDrv_deadline ∧ Map.get 0 (m.srvDrive n).missed l = 0 ∧
      e = if l = loopSpin then m.stopSpin n else if l = loopSled then (m.axisStop n).retract n else m.retract n)

/-- SPIN_UP_REQUEST, SPINDLE_MEASUREMENT_DONE, ALIGNMENT_DONE, SYNC_CONFIRMED, AT_SPEED_REACHED and START_FAIL (R404, R405, R409): the spindle of a
loaded ACTIVE drive measures; standing it aligns, turning forwards it synchronises and turning backwards it brakes; it accelerates from the
rotor angle found; 40 ticks of agreement and 40 ticks at speed take it on; START_TMO stops it. -/
def Obligations.SpindleStarts : Prop :=
  ∀ (s : State) (n : Nat), n < 4 →
    let d := s.dev
    let x := d.spin n
    let seeded (y : Spin) (theta : Nat) : Prop := (y.psiA, y.psiB) = unit24 theta ∧ y.angF = List.replicate 17 (theta % 65536) ∧
      y.angE = y.angF ∧ y.valid = true ∧ y.differ = 0 ∧ y.agree = 0
    (x.st = 0 → d.driveOn n = true → d.drvState n = 1 ∨ d.drvState n = 2 ∨ d.drvState n = 3 → d.ldr.cur = none → d.ldr.ops = [] →
      d.gatesHeld n = false → completes (.spinUpRequest n) s fun e => e.rd (F.spStat_state n) = 1 ∧ e.flag (F.spStat_still n) = false ∧
        e.rd (F.spCnt n 0) = satInc 32 (d.rd (F.spCnt n 0)) ∧ e.plat = d.plat ∧ e.mram = d.mram ∧ e.out = d.out ∧ e.spin n = { x with
          st := 1, since := d.now, reqAt := d.now, aligns := 0, trips := [], low := 0, told := false, vec := 0, nextVec := 0, valid := false,
          differ := 0, agree := 0 }) ∧
    (∀ m : SpinMeas, 408 ≤ d.since x.since →
      (x.st = 1 → m.amp < 960 → completes (.spindleMeasurementDone n m) s fun e => e.spin n = { x with st := 3, since := d.now } ∧
        e.rd (F.spSpeed n) = unsgn 32 m.speed ∧ e.out = d.out) ∧
      (x.st = 1 ∨ x.st = 7 → 960 ≤ m.amp → 960 ≤ m.speed → ((m.amp : Int) - m.speed).natAbs * 4 ≤ m.speed.natAbs →
        completes (.spindleMeasurementDone n m) s fun e => (e.spin n).st = 5 ∧ (e.spin n).since = d.now ∧
          (e.spin n).fromLost = decide (x.st = 7) ∧ seeded (e.spin n) m.theta ∧ e.rd (F.spSpeed n) = unsgn 32 m.speed ∧
          e.rd (F.spCnt n (if x.st = 7 then 5 else 1)) = satInc 32 (d.rd (F.spCnt n (if x.st = 7 then 5 else 1))) ∧ e.out = d.out) ∧
      (x.st = 1 → 960 ≤ m.amp → m.speed ≤ -960 → ((m.amp : Int) + m.speed).natAbs * 4 ≤ m.speed.natAbs →
        completes (.spindleMeasurementDone n m) s fun e => e.errorShows (Pg.motSp n) Er.motSp_reverse ∧
          e.rd (F.spCnt n 2) = satInc 32 (d.rd (F.spCnt n 2)) ∧
          e.spin n = { x with st := 2, since := d.now, quiet := 0, cross := d.now })) ∧
    (∀ peaks along against, x.st = 3 → 56 ≤ d.since x.since → peaks.length = 12 →
      let big := peaks.foldl max 0
      let small := peaks.foldl min big
      let theta := (peaks.idxOf big * 65536 / 12 + (if along < against then 32768 else 0)) % 65536
      (3 * big ≤ (big - small) * 100 → completes (.alignmentDone n peaks along against) s fun e => (e.spin n).st = 4 ∧
        (e.spin n).since = d.now ∧ (e.spin n).aligns = x.aligns + 1 ∧ seeded (e.spin n) theta ∧
        e.rd (F.spCnt n 3) = satInc 32 (d.rd (F.spCnt n 3))) ∧
      ((big - small) * 100 < 3 * big → x.aligns + 1 < 3 → completes (.alignmentDone n peaks along against) s fun e =>
        e.spin n = { x with aligns := x.aligns + 1, since := d.now }) ∧
      ((big - small) * 100 < 3 * big → 3 ≤ x.aligns + 1 → completes (.alignmentDone n peaks along against) s fun e =>
        let m := ((d.count (F.spCnt n 3)).onSpin n fun y => { y with aligns := y.aligns + 1 }).raise (Pg.motSp n) Er.motSp_startFail
        m.errorShows (Pg.motSp n) Er.motSp_startFail ∧ m.spin n = { x with aligns := x.aligns + 1 } ∧ e = (m.stopSpin n).discFails n)) ∧
    (x.st = 5 → 40 ≤ x.agree →
      (d.nearTarget n = true → completes (.syncConfirmed n) s fun e =>
        e.spin n = { x with st := 6, since := d.now, atSpeed := 0, fromLost := false }) ∧
      (d.nearTarget n = false → completes (.syncConfirmed n) s fun e => e.spin n = { x with st := 4, since := d.now } ∧ e.out = d.out)) ∧
    (x.st = 6 → 40 ≤ x.atSpeed →
      (d.drvState n = 0 ∨ d.drvState n = 4 ∨ ((d.drvState n = 2 ∨ d.drvState n = 3) ∧ (d.seq n).st ≠ 0) →
        completes (.atSpeedReached n) s fun e => e = d.wr (F.spStat_atSpeed n) 1 ∧ e.flag (F.spStat_atSpeed n) = true) ∧
      (1 ≤ d.drvState n → d.drvState n ≤ 3 → (d.seq n).st = 0 → completes (.atSpeedReached n) s fun e =>
        let m := if d.drvState n = 1 then (d.wr (F.spStat_atSpeed n) 1).wr (F.drvStat_state n) 2 else d.wr (F.spStat_atSpeed n) 1
        let rate := if d.drvState n = 3 then sampleRate (d.zoneNow n).frames (d.zoneNow n).rpm else sampleRate 416 10800
        m.flag (F.spStat_atSpeed n) = true ∧ m.drvState n = (if d.drvState n = 3 then 3 else 2) ∧
        e = (m.stepFree.sendCfg n rate (m.free 3) true).acquire n 0)) ∧
    (1 ≤ x.st → x.st ≤ 4 → d.rd (F.spStartTmo_startTmo n) * 400 ≤ d.since x.reqAt → completes (.startFail n) s fun e =>
      let m := d.raise (Pg.motSp n) Er.motSp_startFail
      m.errorShows (Pg.motSp n) Er.motSp_startFail ∧ e = (m.stopSpin n).discFails n)

/-- OBS_LOST, RECATCH_FAIL, CONTROLLED_STOP, STANDSTILL, STOP_FAIL, OVERCURRENT and DC_LOW (R404, R407, R408, R422): a lost observer sends HOLD and
measures again; a rotor not caught, a stop asked for and a low link begin the controlled stop; 400 quiet ticks are standstill; a stop that takes
too long and 16 trips in 400 ticks fence the drive. -/
def Obligations.SpindleStops : Prop :=
  ∀ (s : State) (n : Nat), n < 4 →
    let d := s.dev
    let x := d.spin n
    (x.st = 6 → 8 ≤ x.differ → completes (.obsLost n) s fun e =>
      let m := (d.raise (Pg.motSp n) Er.motSp_obsLost).count (F.spCnt n 4)
      m.errorShows (Pg.motSp n) Er.motSp_obsLost ∧ m.rd (F.spCnt n 4) = satInc 32 (d.rd (F.spCnt n 4)) ∧
      e = (((m.holdAbort n).wr (F.spStat_atSpeed n) 0).onSpin n fun y => { y with lostAt := d.now, atSpeed := 0 }).measure n 7) ∧
    (x.st = 7 → 20000 ≤ d.since x.lostAt → completes (.recatchFail n) s fun e =>
      let m := d.raise (Pg.motSp n) Er.motSp_recatchFail
      m.errorShows (Pg.motSp n) Er.motSp_recatchFail ∧ e = m.stopSpin n) ∧
    (d.stopWanted n = false → completes (.controlledStop n) s fun e => e = d) ∧
    (d.stopWanted n = true → x.st ≠ 0 → x.st ≠ 8 → x.st ≠ 9 → completes (.controlledStop n) s fun e =>
      let dtc := x.st == 4 || x.st == 5 || x.st == 6
      let m := (((((d.holdAbort n).loopOff n loopSpin).wr (F.spStat_atSpeed n) 0).count (F.spCnt n 6)).onSpin n fun y =>
        { y with st := 8, since := d.now, dtc := dtc, told := false, quiet := 0, atSpeed := 0, cross := d.now })
      m.spin n = { x with st := 8, since := d.now, dtc := dtc, told := false, quiet := 0, atSpeed := 0, cross := d.now } ∧
      m.flag (F.spStat_atSpeed n) = false ∧ m.rd (F.spCnt n 6) = satInc 32 (d.rd (F.spCnt n 6)) ∧
      e = if d.rd (F.spStop_focRpm n) < d.absRpm n then m else (m.onSpin n fun y => { y with told := true }).retractPark n) ∧
    (x.st = 8 → x.dtc = false → 400 ≤ x.quiet → completes (.standstill n) s fun e =>
      e.spin n = { x with st := 0, vec := 0, nextVec := 0, valid := false } ∧ e.rd (F.spSpeed n) = 0 ∧ e.flag (F.spStat_still n) = true ∧
      e.plat = d.plat ∧ e.mram = d.mram ∧ e.out = d.out ∧ e.srv = d.srv ∧ e.odr = d.odr) ∧
    (x.st = 8 → d.rd (F.spStop2_stopTmo n) * 400 ≤ d.since x.since → completes (.stopFail n) s fun e =>
      let m := (d.raise (Pg.motSp n) Er.motSp_stopFail).onSpin n fun y => { y with st := 9, vec := 0, nextVec := 0, valid := false }
      m.errorShows (Pg.motSp n) Er.motSp_stopFail ∧ m.spin n = { x with st := 9, vec := 0, nextVec := 0, valid := false } ∧
      e = m.fence (Pg.odrDrv n) (some (Pg.motSp n, Er.motSp_stopFail))) ∧
    (x.st ≠ 9 → 16 ≤ (x.trips.filter fun t => decide (d.since t < 400)).length → completes (.overcurrent n) s fun e =>
      let m := (((d.raise (Pg.motSp n) Er.motSp_overcurrent).holdAbort n).wr (F.spStat_atSpeed n) 0).onSpin n fun y =>
        { y with st := 9, vec := 0, nextVec := 0, valid := false, trips := [] }
      m.errorShows (Pg.motSp n) Er.motSp_overcurrent ∧ m.flag (F.spStat_atSpeed n) = false ∧
      m.spin n = { x with st := 9, vec := 0, nextVec := 0, valid := false, trips := [] } ∧
      e = m.fence (Pg.odrDrv n) (some (Pg.motSp n, Er.motSp_overcurrent))) ∧
    (x.st ≠ 0 → x.st ≠ 9 → 4 ≤ x.low → completes (.dcLow n) s fun e =>
      let m := (d.onSpin n fun y => { y with low := 0 }).raise (Pg.motSp n) Er.motSp_dcLow
      m.errorShows (Pg.motSp n) Er.motSp_dcLow ∧ m.spin n = { x with low := 0 } ∧ e = m.stopSpin n)

/-- ST_CMD_MOVE, ST_CMD_HOME, ST_CMD_STOP, ST_CMD_PARK, STEP_TIMER_EXPIRY, HOLD_CURRENT_TIMER and CHOPPER_COMPARATOR (R411–R415): a command that is
heard moves a homed axis, homes it, stops it or parks it; one that is not heard is ignored and counted; a step moves the position by
one and ends the move at its target; a limit in the way stops the axis; the current falls to HOLD; the bridge switches between drive and decay. -/
def Obligations.SteppersMove : Prop :=
  ∀ (s : State) (m : Nat), m < 8 →
    let d := s.dev
    let x := d.axis m
    let begun (st : Nat) (target : Int) (park : Bool) : Axis := { x with
      st := st, target := target, v := d.rd (F.stVstart m) * vUnit, a := 0, dir := if target < d.pos m then -1 else 1, next := 0,
      began := d.now, from_ := d.pos m, held := d.heldInputs m, park := park, why := 0, off := false, hold := false, idle := 0 }
    let homing (park : Bool) (e : Dev) : Prop := e.rd (F.stCnt m 3) = satInc 32 (d.rd (F.stCnt m 3)) ∧ e.rd (F.stStat_state m) = 3 ∧
      e.axis m = { begun 3 (d.pos m - 1) park with home := 1, dir := -1, v := d.rd (F.stHome_homeV m) * vUnit }
    let heard : Prop := d.writesBlocked = false ∧ d.stCmdOk m = true
    (d.writesBlocked = false → d.stCmdOk m = false → ∀ c ∈ [Instr.stCmdMove m, .stCmdHome m, .stCmdStop m, .stCmdPark m],
      completes c s fun e => e = d.countIgnored (Pg.motSt m)) ∧
    (heard → d.flag (F.stStat_homed m) = false → completes (.stCmdMove m) s fun e => e = d.countIgnored (Pg.motSt m)) ∧
    (heard → x.barred = 0 →
      (d.flag (F.stStat_homed m) = true → d.rdS 32 (F.stTarget m) ≠ d.pos m → completes (.stCmdMove m) s fun e =>
        e.axis m = begun 2 (d.rdS 32 (F.stTarget m)) false ∧ e.rd (F.stCnt m 1) = satInc 32 (d.rd (F.stCnt m 1)) ∧ e.rd (F.stStat_state m) = 2 ∧
        e.out = d.out) ∧
      (completes (.stCmdHome m) s fun e => homing false e ∧ e.out = d.out) ∧
      (d.flag (F.stStat_homed m) = false → completes (.stCmdPark m) s fun e => homing true e) ∧
      (d.flag (F.stStat_homed m) = true → d.pos m ≠ 0 → completes (.stCmdPark m) s fun e => e.axis m = begun 2 0 true)) ∧
    (heard → (1 ≤ x.st ∧ x.st ≤ 3 → completes (.stCmdStop m) s fun e => e.axis m = { x with st := 4, next := 0, home := 0 }) ∧
      (x.st = 0 → completes (.stCmdStop m) s fun e => e = d)) ∧
    (x.st = 2 → x.why ≠ 1 → d.axisOff m = false → x.v ≠ 0 →
      let p := d.pos m + x.dir
      (d.blocked m x.dir = false → x.held = 0 → -2 ^ 31 ≤ p → p < 2 ^ 31 → completes (.stepTimerExpiry m) s fun e => e.pos m = p ∧
        e.rd (F.stCnt m 0) = satInc 32 (d.rd (F.stCnt m 0)) ∧ (x.next ≠ 0 → e.rd (F.stIvl m) = x.next % 2 ^ 32) ∧
        e.axis m = (if p = x.target then { x with st := 0, v := 0, next := 0, idle := 0, hold := false, off := x.park || x.off }
          else { x with next := 0, idle := 0, hold := false }) ∧ e.plat = d.plat ∧ e.mram = d.mram ∧ e.out = d.out) ∧
      (d.blocked m x.dir = true → m ≠ 7 → completes (.stepTimerExpiry m) s fun e =>
        let k := ((d.onAxis m fun y => { y with st := 0, v := 0, next := 0 }).raise (Pg.motSt m) Er.motSt_limitHit).count (F.stCnt m 2)
        k.pos m = d.pos m ∧ k.errorShows (Pg.motSt m) Er.motSt_limitHit ∧ k.rd (F.stCnt m 2) = satInc 32 (d.rd (F.stCnt m 2)) ∧
        k.axis m = { x with st := 0, v := 0, next := 0 } ∧ e = k.ldrFault m)) ∧
    (d.rd (F.stCur_holdT m) ≤ x.idle → completes (.holdCurrentTimer m) s fun e => e.axis m = { x with hold := true } ∧ e.pos m = d.pos m) ∧
    (∀ since ty tr tx tf, d.axisOff m = false → x.off = false →
      (since * 5 < d.rd (F.stChop_blank m) * 10 → completes (.chopperComparator m 0 since ty tr tx tf) s fun e => e = d) ∧
      (d.rd (F.stChop_blank m) * 10 ≤ since * 5 →
        (x.driveA = true → completes (.chopperComparator m 0 since ty tr tx tf) s fun e => e.axis m = { x with driveA := false }) ∧
        (x.driveA = false → (x.chopA + 1) % 64 ≠ 0 → completes (.chopperComparator m 0 since ty tr tx tf) s fun e =>
          e.axis m = { x with driveA := true, chopA := x.chopA + 1 } ∧ e.rd (F.stCnt m 4) = satInc 32 (d.rd (F.stCnt m 4)))))

/-- HOME_INPUT, HOME_FAIL, LIMIT_INPUT, ESTOP, ESTOP_N_RELEASE, CHATTER, CHATTER_CLEAR, IN_STUCK and GENLOCK_EDGE (R410, R415–R418, R526): HOME
latches the position of a homing axis; homing that takes too long fails; a limit in the direction of motion stops the axis; ESTOP latches and
stops all motion, and outlasts its pin; an input marked CHATTER reads its safe state until it is quiet; a GENLOCK edge latches its tick. -/
def Obligations.InputsAct : Prop :=
  ∀ s : State,
    let d := s.dev
    (∀ m, m < 8 →
      let x := d.axis m
      (x.st = 3 → x.home = 1 ∨ x.home = 2 → d.chats (keyHome m) = false → completes (.homeInput m true) s fun e =>
        e.active (keyHome m) = true ∧ e.axis m = { x with barred := setBit x.barred 0 false, home := 3, latch := d.pos m, next := 0 } ∧
        e.plat = d.plat ∧ e.out = d.out) ∧
      (x.st = 3 → d.rd (F.stHome_homeTmo m) * 400 ≤ d.since x.began → completes (.homeFail m) s fun e =>
        let k := (d.raise (Pg.motSt m) Er.motSt_homeFail).onAxis m fun y => { y with st := 0, home := 0, v := 0, next := 0 }
        k.errorShows (Pg.motSt m) Er.motSt_homeFail ∧ k.axis m = { x with st := 0, home := 0, v := 0, next := 0 } ∧ e = k.ldrFault m) ∧
      (∀ side, side < 2 → completes (.limitInput m side false) s fun e => e.level (keyA m + side) = false ∧
        e.axis m = { x with barred := setBit x.barred (1 + side) false } ∧ e.plat = d.plat ∧ e.out = d.out) ∧
      (m ≠ 7 → x.st = 2 → x.dir < 0 → d.chats (keyA m) = false → completes (.limitInput m 0 true) s fun e =>
        let h := ((d.setLevel (keyA m) true).onAxis m fun y => { y with barred := setBit y.barred 1 false }).showInputs m
        let h := h.when (decide (setBit x.barred 1 false = 0)) (·.wr (F.stStat_stuck m) 0)
        let k := ((h.onAxis m fun y => { y with st := 0, v := 0, next := 0 }).raise (Pg.motSt m) Er.motSt_limitHit).count (F.stCnt m 2)
        k.level (keyA m) = true ∧ k.errorShows (Pg.motSt m) Er.motSt_limitHit ∧ k.rd (F.stCnt m 2) = satInc 32 (d.rd (F.stCnt m 2)) ∧
        k.axis m = { x with barred := setBit x.barred 1 false, st := 0, v := 0, next := 0 } ∧ e = k.ldrFault m)) ∧
    (completes .estop s fun e =>
      let m := ((d.setLevel keyEstop true).wr F.motStat_estop 1).count (F.motCnt 0)
      m.flag F.motStat_estop = true ∧ m.rd (F.motCnt 0) = satInc 32 (d.rd (F.motCnt 0)) ∧ m.level keyEstop = true ∧
      e = (m.motionStop.raise Pg.motReg Er.motReg_estop).showMot) ∧
    (completes .estopNRelease s fun e => e.level keyEstop = false ∧ e.flag F.motStat_estop = d.flag F.motStat_estop ∧
      (d.chats keyEstop = false → e.flag F.motStat_estopN = false) ∧ e.plat = d.plat ∧ e.srv = d.srv ∧ e.odr = d.odr ∧ e.out = d.out) ∧
    (∀ key, key ≤ 34 → d.chats key = true → completes (.chatter key) s fun e => e = d) ∧
    (∀ n, n < 4 → d.chats (keyShock n) = false → completes (.chatter (keyShock n)) s fun e =>
      let m := ((d.onMot fun y => { y with chat := Map.set false y.chat (keyShock n) true }).count (F.motCnt 2)).raise Pg.motReg
        Er.motReg_inChatter (keyShock n)
      m.chats (keyShock n) = true ∧ m.active (keyShock n) = true ∧ m.rd (F.motCnt 2) = satInc 32 (d.rd (F.motCnt 2)) ∧
      m.errorShows Pg.motReg Er.motReg_inChatter ∧ e = m.showMot.showMot.guardSet n 0 2 true) ∧
    (∀ j, j < 4 → d.chats (keyTrg j) = false → completes (.chatter (keyTrg j)) s fun e => e.chats (keyTrg j) = true ∧
      e.active (keyTrg j) = d.level (keyTrg j) ∧ e.rd (F.motCnt 2) = satInc 32 (d.rd (F.motCnt 2)) ∧
      e.errorShows Pg.motReg Er.motReg_inChatter ∧ e.odr = d.odr ∧ e.srv = d.srv) ∧
    (∀ key level, d.chats key = false → completes (.chatterClear key level) s fun e => e = d) ∧
    (∀ key level, key < 24 ∨ 28 ≤ key → d.chats key = true → completes (.chatterClear key level) s fun e => e.chats key = false ∧
      e.active key = level ∧ e.plat = d.plat ∧ e.odr = d.odr ∧ e.srv = d.srv ∧ e.out = d.out) ∧
    (∀ n, n < 4 → d.active (keyShock n) = true → completes (.inStuck n) s fun e => e.errorShows Pg.motReg Er.motReg_inStuck ∧
      e.rd (F.motCnt 3) = satInc 32 (d.rd (F.motCnt 3)) ∧ d.sameRegions e) ∧
    (∀ n, d.active (keyShock n) = false → completes (.inStuck n) s fun e => e = d) ∧
    (∀ rise sub, d.flag F.mg1Cfg_genEn = true → d.flag F.mg1Cfg_genPol = !rise → d.chats keyGenlock = false → sub < 256 →
      completes (.genlockEdge rise sub) s fun e => e.get64 F.mg1GenLo F.mg1GenHi = d.now ∧ e.rd F.mg1GenSub = sub ∧
        e.rd F.mg1GenCnt = satInc 32 (d.rd F.mg1GenCnt) ∧ e.mram = d.mram ∧ e.out = d.out ∧ d.sameRegions e) ∧
    (∀ rise sub, d.flag F.mg1Cfg_genEn = false ∨ d.flag F.mg1Cfg_genPol = rise → completes (.genlockEdge rise sub) s fun e => e = d)

/-! ## Calibration -/

/-- CAL_RUN, CAL_RUN_ABORT, CAL_MEASURE_START, CAL_MEASURE_DONE and VREFCAL_CHECK (R426, R427, R429, R430, R434): an item is queued once, and
a 17th is ignored; an abort takes it off; its turn starts the measurement or refuses it with its cause, and does not come while its core is
HOLDING; SUP_GAIN's results are saved and
stepped towards, and one out of range refuses the item; a measurement that gives no result did not converge. -/
def Obligations.Calibration : Prop :=
  ∀ s : State,
    let d := s.dev
    let gone (item : Nat) (e : Dev) : Prop := e.cal = { d.cal with
      queue := d.cal.queue.filter (fun r => r.item != item), running := d.cal.running.filter (fun r => r.item != item) }
    let refused (item cause : Nat) (e : Dev) : Prop := gone item e ∧ e.rd (F.calRecStat_outcome item) = 2 ∧
      e.rd (F.calRecStat_cause item) = cause ∧ e.rd (F.calCnt 1) = satInc 32 (d.rd (F.calCnt 1)) ∧ e.errorShows Pg.calReg Er.calReg_refused
    (∀ v, d.writesBlocked = false → bitsOf v 31 24 = 0xCA →
      let item := bitsOf v 6 0
      (calExists item = true → d.cal.queue.length < 16 → d.calQueued item = false → d.calRunning item = none →
        completes (.calRun v) s fun e => e.rd F.calStat_queued = d.cal.queue.length + 1 ∧ e.plat = d.plat ∧ e.mram = d.mram ∧ e.out = d.out ∧
          e.cal = { d.cal with queue := d.cal.queue ++ [⟨item, bitsOf v 23 20, d.rd F.calRunLayers, 0, []⟩] } ∧
          (d.calSteps item = false → e.rd (F.calRecStat_state item) = 1)) ∧
      (16 ≤ d.cal.queue.length ∨ calExists item = false ∨ d.calQueued item = true ∨ (d.calRunning item).isSome = true → completes (.calRun v) s fun e =>
        e = d.countIgnored Pg.calReg item) ∧
      (d.calQueued item = true → completes (.calRunAbort v) s fun e => gone item e ∧ e.rd (F.calRecStat_outcome item) = 3 ∧
        e.rd (F.calRecStat_cause item) = 12 ∧ e.rd (F.calCnt 2) = satInc 32 (d.rd (F.calCnt 2)) ∧
        e.errorShows Pg.calReg Er.calReg_aborted)) ∧
    (∀ v, d.writesBlocked = false → bitsOf v 31 24 ≠ 0xCA → ∀ c ∈ [Instr.calRun v, .calRunAbort v], completes c s fun e =>
      e = d.countIgnored Pg.calReg) ∧
    (∀ r rest, d.cal.queue = r :: rest → d.cal.running = [] → r.item < 80 → d.calHolds r.item = false →
      (d.calCheck r true = 0 → completes (.calMeasureStart r.item) s fun e =>
        let trial := if calWrites r.item ∧ calK r.item = 8 then (calTargets r.item r.layers).map (fun y => y.num (d.rd y.reg)) else []
        let x : CalRun := { r with step := 0, trial := trial }
        e = ({ d with cal := { d.cal with queue := rest.filter (fun y => y.item != r.item), running := [x] } }.calPoint x).showCal r.item) ∧
      (d.calCheck r true ≠ 0 → completes (.calMeasureStart r.item) s (refused r.item (d.calCheck r true)))) ∧
    (∀ item, d.calHolds item = true → completes (.calMeasureStart item) s fun e => e = d) ∧
    (∀ r vals, d.calRunning 0 = some r →
      let xs := (List.range 8).map fun i => nearest (32768 * 1000 * 256) ((vals.getD 0 []).getD i 0)
      let ts := List.zip (calTargets 0 r.layers) xs
      ((∀ t ∈ ts, t.1.fits t.2 = true) → completes (.calMeasureDone 0 vals) s fun e =>
        Map.find e.mram.calRes 0 = some (ts.map fun t => { t.1 with value := unsgn t.1.width t.2 }) ∧ e.rd (F.calRecStat_outcome 0) = 1 ∧
        e.rd (F.calRecStat_cause 0) = 0 ∧ e.rd (F.calRecCount 0) = satInc 32 (d.rd (F.calRecCount 0)) ∧ e.rd (F.calRecReq 0) = 0 ∧
        e.rd (F.calCnt 0) = satInc 32 (d.rd (F.calCnt 0)) ∧ e.cal.running = d.cal.running.filter (fun y => y.item != 0) ∧ e.out = d.out) ∧
      ((∃ t ∈ ts, t.1.fits t.2 = false) → completes (.calMeasureDone 0 vals) s (refused 0 8))) ∧
    (∀ item r vals, item < 80 → d.calRunning item = some r → (calWrites item = true → calK item ≠ 8) → calPoints r ≤ r.step →
      d.calResult r vals = none → completes (.calMeasureDone item vals) s (refused item 11)) ∧
    (∀ mv, mv < 2 ^ 16 → completes (.vrefcalCheck mv) s fun e => e.rd F.calVref_mv = mv ∧
      e.flag F.calVref_valid = decide (980 ≤ mv ∧ mv ≤ 1020) ∧ (∀ f : RegField, f.addr ≠ F.calVref_mv.addr → e.rd f = d.rd f) ∧
      e.plat = d.plat ∧ e.mram = d.mram ∧ e.out = d.out ∧ d.sameRegions e)

/-! ## The host attachment -/

/-- CXL_MEM_READ, CXL_MEM_WRITE, CXL_MEM_SPEC_READ, CXL_MEM_INV and HDM_DECODER_COMMIT (R439–R441, R443, R467): below W a load is a store read
and a store into an allocated HOSTW buffer a store write; any other store is dropped; an access at W or above is counted, and a load there
brings a poisoned line; a hint is dropped; a decoder commits within W and apart from the other.
That an access is checked against W only is the model's reading (log entry 72). -/
def Obligations.CxlMemory : Prop :=
  ∀ s : State,
    let d := s.dev
    (d.rd F.pltStat_link = 0 → ∀ r w, (completes (.cxlMemRead r) s fun e => e = d) ∧ completes (.cxlMemWrite w) s fun e => e = d) ∧
    (d.rd F.pltStat_link ≠ 0 →
      (∀ r, d.hat.d3hot = true → completes (.cxlMemRead r) s fun e => e = d.send (.line r.addr (zeros 64) false)) ∧
      (∀ r, d.hat.d3hot = false → r.addr < d.memW → completes (.cxlMemRead r) s fun e =>
        e = ((d.count (F.hatCnt 0)).storeRead { r with by_ := none } true).sendLoad) ∧
      (∀ r, d.hat.d3hot = false → d.memW ≤ r.addr → completes (.cxlMemRead r) s fun e => OutMsg.line r.addr (zeros 64) true ∈ e.out ∧
        (∀ k ∈ [0, 3, 4], e.rd (F.hatCnt k) = satInc 32 (d.rd (F.hatCnt k))) ∧ e.errorShows Pg.hatReg 31 ∧
        e.ignoredCount Pg.hatReg = satInc 32 (d.ignoredCount Pg.hatReg) ∧ d.sameRegions e) ∧
      (∀ w : LineWrite, d.injected Pg.hatReg Er.hatReg_poisonRx = false →
        let v := { w with data := w.data.take (64 - w.addr % 64) }
        let b := d.bufEnt (granuleOf w.addr)
        let c := (d.count (F.hatCnt 1)).takeInjected Pg.hatReg Er.hatReg_poisonRx
        let m := if w.hollow = true then (c.count (F.hatCnt 2)).raise Pg.hatReg Er.hatReg_poisonRx w.addr else c
        (w.addr < d.memW → b.alloc = true → b.hostw = true → d.injected Pg.bpmReg Er.bpmReg_hostwDrop = false →
          completes (.cxlMemWrite w) s fun e => e = ((m.forward v).storeWrite { v with by_ := none, cls := 2 }).sendLoad) ∧
        d.sameRegions m ∧ m.rd (F.hatCnt 1) = satInc 32 (d.rd (F.hatCnt 1)) ∧
        (w.hollow = true → m.errorShows Pg.hatReg Er.hatReg_poisonRx ∧ m.rd (F.hatCnt 2) = satInc 32 (d.rd (F.hatCnt 2))) ∧
        (w.addr < d.memW → b.alloc = false ∨ b.hostw = false → completes (.cxlMemWrite w) s fun e =>
          e.errorShows Pg.bpmReg Er.bpmReg_hostwDrop ∧ e.ignoredCount Pg.bpmReg = satInc 32 (d.ignoredCount Pg.bpmReg) ∧
          e.rd (F.bpmCnt 6) = satInc 32 (d.rd (F.bpmCnt 6)) ∧
          e.rd (F.hatCnt 1) = satInc 32 (d.rd (F.hatCnt 1)) ∧ d.sameRegions e) ∧
        (d.memW ≤ w.addr → completes (.cxlMemWrite w) s fun e => (∀ k ∈ [1, 4], e.rd (F.hatCnt k) = satInc 32 (d.rd (F.hatCnt k))) ∧
          e.errorShows Pg.hatReg 31 ∧ e.ignoredCount Pg.hatReg = satInc 32 (d.ignoredCount Pg.hatReg) ∧ d.sameRegions e))) ∧
    (∀ a, completes (.cxlMemSpecRead a) s fun e => e = d) ∧
    (∀ a, completes (.cxlMemInv a) s fun e =>
      (d.rd F.pltStat_link ≠ 1 → e = d) ∧ (d.rd F.pltStat_link = 1 → d.cst.waiting = [] → e = d.send (.devLoad 0)) ∧
      (d.rd F.pltStat_link = 1 → ∃ l, l < 4 ∧ e.out = d.out ++ [.devLoad l])) ∧
    (∀ i first end_, d.rd F.pltStat_link ≠ 2 → i < 2 →
      let other := d.hat.decoders.getD (1 - i) none
      let made (r : Option (Nat × Nat)) (v : Nat) (e : Dev) : Prop :=
        e = { d with hat := { d.hat with decoders := d.hat.decoders.set i r }, readVal := v }
      (end_ ≤ d.memW → first < end_ → (∀ r, other = some r → end_ ≤ r.1 ∨ r.2 ≤ first) → completes (.hdmDecoderCommit i first end_) s
        (made (some (first, end_)) 1)) ∧
      (d.memW < end_ → completes (.hdmDecoderCommit i first end_) s (made none 0)) ∧
      (∀ r, other = some r → first < r.2 → r.1 < end_ → completes (.hdmDecoderCommit i first end_) s (made none 0)))

/-- CAPSULE_SLOT_WRITE, HAT_SQDB, HAT_RHDB, MSIX_AGG_TIMER, RING_FULL, HAT_AQ_ENABLE and HAT_AQ_DISABLE (R445–R447, R449–R451, R469, R471): a
window holds the bytes written; a doorbell that is accepted consumes its capsules in order, and a malformed one is counted; entries
return to the ring's head; the aggregation time signals what is not yet signalled; the admin queue is made with the values written. -/
def Obligations.QueueBells : Prop :=
  ∀ (s : State) (q : Nat), q < 64 →
    let d := s.dev
    let x := d.queue q
    (∀ ofs bs, d.hat.d3hot = true → completes (.capsuleSlotWrite q ofs bs) s fun e => e = d) ∧
    (∀ ofs bs, d.hat.d3hot = false → completes (.capsuleSlotWrite q ofs bs) s fun e => e.regs = d.regs ∧ e.plat = d.plat ∧ e.out = d.out ∧
      e.hat.cmds = d.hat.cmds ∧ (∀ p, p ≠ q → e.queue p = d.queue p) ∧ e.queue q = { x with window := (e.queue q).window } ∧
      ∀ k, Map.get 0 (e.queue q).window k =
        if ofs ≤ k ∧ k < ofs + bs.length ∧ k < 4096 then bs.getD (k - ofs) 0 else Map.get 0 x.window k) ∧
    (∀ n, n < 2 ^ 16 → d.plat.softReset = none → d.hat.d3hot = false →
      (d.doorbellOk q n = false → completes (.hatSqdb q n) s fun e => e.hat = d.hat ∧ e.errorShows Pg.hatDb 31 ∧
        e.ignoredCount Pg.hatDb = satInc 32 (d.ignoredCount Pg.hatDb) ∧ e.rd (F.hatCnt 6) = satInc 32 (d.rd (F.hatCnt 6))) ∧
      (d.doorbellOk q n = true → n = (x.tail + 1) % 65536 → x.tail < 65536 →
        let b := Map.getRun 0 x.window (64 * (x.head % 64)) 64
        let op := fieldAt b 1 1
        let cid := fieldAt b 2 2
        let good := opFits q op && zeroElse b ([(0, 5)] ++ (if opVol op then [(5, 1)] else []) ++ opArgs op) &&
          decide (fieldAt b 4 1 < 4) && (!(fieldAt b 4 1).testBit 1 || op == 3) && (d.cmdOf q cid).isNone
        let taken (e : Dev) : Prop := (e.queue q).tail = n ∧ (e.queue q).head = (x.head + 1) % 65536 ∧
          e.rd (F.hatCnt 5) = satInc 32 (d.rd (F.hatCnt 5)) ∧ e.hat.xfers = d.hat.xfers
        (fieldAt b 0 1 = 1 → good = true → completes (.hatSqdb q n) s fun e => taken e ∧ e.hat.arrivals = d.hat.arrivals + 1 ∧
          e.hat.cmds.length = d.hat.cmds.length + 1 ∧ ∃ c ∈ e.hat.cmds, c.queue = q ∧ c.cid = cid ∧ c.op = op ∧ c.args = b ∧
            c.arrival = d.hat.arrivals + 1 ∧ c.started = false ∧ c.verdict = none) ∧
        ((fieldAt b 0 1 = 1 ∧ good = false) ∨ fieldAt b 0 1 = 0 ∨ 3 < fieldAt b 0 1 → completes (.hatSqdb q n) s fun e => taken e ∧
          e.hat.cmds = d.hat.cmds ∧ e.errorShows Pg.hatDb 31 ∧ e.ignoredCount Pg.hatDb = satInc 32 (d.ignoredCount Pg.hatDb)))) ∧
    (∀ v, v < 8192 → d.plat.softReset = none →
      let n := (v + x.rdepth - x.rhead % x.rdepth) % x.rdepth
      (d.qState q = 0 ∨ x.rdepth ≤ v ∨ x.rtail - x.rhead < n → completes (.hatRhdb q v) s fun e => e.hat = d.hat ∧ e.errorShows Pg.hatDb 31 ∧
        e.ignoredCount Pg.hatDb = satInc 32 (d.ignoredCount Pg.hatDb)) ∧
      (d.qState q ≠ 0 → v < x.rdepth → n ≤ x.rtail - x.rhead → x.held = [] → completes (.hatRhdb q v) s fun e =>
        e.queue q = { x with rhead := x.rhead + n } ∧ (∀ p, p ≠ q → e.queue p = d.queue p) ∧ e.regs = d.regs ∧ e.out = d.out)) ∧
    (x.unsig = 0 ∨ d.since x.unsigAt < x.aggTime → completes (.msixAggTimer q) s fun e => e = d) ∧
    (x.unsig ≠ 0 → x.aggTime ≤ d.since x.unsigAt → d.flag (F.msixCtrl x.vec) = false → completes (.msixAggTimer q) s fun e =>
      e.queue q = { x with unsig := 0 } ∧ e.regs = d.regs ∧
      e.out = d.out ++ [.msix x.vec (d.rd (F.msixAddrLo x.vec) + 2 ^ 32 * d.rd (F.msixAddrHi x.vec)) (d.rd (F.msixData x.vec))]) ∧
    (x.unsig ≠ 0 → x.aggTime ≤ d.since x.unsigAt → d.flag (F.msixCtrl x.vec) = true → x.vec < 64 → completes (.msixAggTimer q) s fun e =>
      e.queue q = { x with unsig := 0 } ∧ e.rd ⟨0x103C00 + 4 * (x.vec / 32), x.vec % 32, x.vec % 32, false⟩ = 1 ∧ e.out = d.out) ∧
    (x.held = [] ∨ d.since x.heldAt < 4000 → completes (.ringFull q) s fun e => e = d) ∧
    (x.held ≠ [] → 4000 ≤ d.since x.heldAt → completes (.ringFull q) s fun e => e.errorShows Pg.hatReg Er.hatReg_ringFull ∧ d.sameRegions e) ∧
    (∀ v, d.writesBlocked = false → d.flag F.hatAqCfg_en = false →
      let agg := v / 2 ^ 16 % 256
      let rs := v % 16
      (agg = 0 ∨ rs < 4 ∨ 13 < rs → completes (.hatAqEnable v) s fun e => e = d.countIgnored Pg.hatAq F.hatAqCfg_en.addr) ∧
      (agg ≠ 0 → 4 ≤ rs → rs ≤ 13 → completes (.hatAqEnable v) s fun e => e.flag F.hatAqCfg_en = true ∧ e.qState 0 = 1 ∧
        e.queue 0 = { Queue.reset with
          window := (d.queue 0).window, depth := 64, rdepth := 2 ^ rs, xferMax := 64, vec := v / 256 % 64, agg := agg,
          base := (d.rd F.hatAqBaseLo + 2 ^ 32 * d.rd F.hatAqBaseHi) / 64 * 64, aggTime := d.rd F.hatAqTime } ∧
        (∀ p, p ≠ 0 → e.queue p = d.queue p) ∧ e.out = d.out ∧ e.plat = d.plat ∧ e.mram = d.mram)) ∧
    (∀ v, d.writesBlocked = false → d.flag F.hatAqCfg_en = true →
      (completes (.hatAqEnable v) s fun e => e = d.countIgnored Pg.hatAq F.hatAqCfg_en.addr) ∧
      (v / 2 ^ 16 % 256 ≠ 0 → 4 ≤ v % 16 → v % 16 ≤ 13 → completes (.hatAqDisable v) s fun e =>
        let m := (((d.wr F.hatAqCfg_en 0).wr F.hatAqCfg_agg (v / 2 ^ 16 % 256)).wr F.hatAqCfg_vec (v / 256 % 64)).wr F.hatAqCfg_rsize (v % 16)
        e = (m.queueOff 0).hatPump ∧ m.flag F.hatAqCfg_en = false ∧ m.hat = d.hat ∧ m.plat = d.plat ∧ m.out = d.out)) ∧
    (d.qState q ≠ 0 → (d.queueOff q).qState q = 0 ∧ ∀ c ∈ (d.queueOff q).hat.cmds, c.queue ≠ q)

/-- WRITE, READ, FLUSH, FRAME_READ, RANGE_RELEASE, MIGRATE, VERIFY, MOUNT_SHELL, EJECT_SHELL, RANGE_LOCK_GRANTED, DATA_DONE and RELEASE
(R454, R455, R457–R459, R461–R465): a command that stands and may begin is judged and starts; a range that does not fit ends it; a range in
conflict makes it wait; what no command or transfer bears has no effect. Work then goes on as far as it can (`hatPump`). -/
def Obligations.HostCommands : Prop :=
  ∀ (s : State) (q cid : Nat),
    let d := s.dev
    (d.cmdOf q cid = none → ∀ c ∈ [Instr.write q cid, .read q cid, .flush q cid, .frameRead q cid, .rangeRelease q cid, .migrate q cid,
      .verify q cid, .mountShell q cid, .ejectShell q cid, .rangeLockGranted q cid], completes c s fun e => e = d) ∧
    (∀ op c i, (op, i) ∈ [(1, Instr.write q cid), (2, .read q cid)] → d.readyFor q cid op c →
      (∀ st, d.rangeBad c 65536 = some st → completes i s fun e => e = (c.endsAt (d.started c) st).hatPump) ∧
      (d.rangeBad c 65536 = none → d.rangeFree c = true → completes i s fun e => e = (d.lockStarts c).hatPump) ∧
      (d.rangeBad c 65536 = none → d.rangeFree c = false → c.entry = true → c.phase = 0 → completes i s fun e =>
        let m := (d.count (F.seqRlCnt 1)).onCmd c.arrival fun x => { x with phase := 1 }
        e = m.hatPump ∧ m.cmdAt c.arrival = some { c with phase := 1 } ∧ m.rd (F.seqRlCnt 1) = satInc 32 (d.rd (F.seqRlCnt 1)))) ∧
    (∀ c, d.cmdAt c.arrival = some c → c.queue < 64 →
      (d.lockStarts c).cmdAt c.arrival = some { c.begun d with locked := true, units := c.unitCount } ∧
      (d.lockStarts c).rd (F.seqRlCnt 0) = satInc 32 (d.rd (F.seqRlCnt 0)) ∧ (d.lockStarts c).hat.xfers = d.hat.xfers ∧
      (d.lockStarts c).out = d.out) ∧
    (∀ op c, op ∈ [1, 2] → d.readyFor q cid op c →
      (d.rangeFree c = false → completes (.rangeLockGranted q cid) s fun e => e = d) ∧
      (d.rangeFree c = true → completes (.rangeLockGranted q cid) s fun e => e = (d.lockStarts c).hatPump)) ∧
    (∀ c, d.readyFor q cid 3 c →
      let none_ := c.vol = 0 ∨ 64 < c.vol ∨ d.rd (F.sflVolSize (c.vol - 1)) = 0
      (none_ → completes (.flush q cid) s fun e => e = ((c.begun d).endsAt (d.started c) 0x20).hatPump) ∧
      (¬ none_ → completes (.flush q cid) s fun e => e = (d.started c).hatPump)) ∧
    (∀ c, d.readyFor q cid 4 c →
      (31 < c.stream ∨ 2 < c.mode ∨ 1 < c.arg 10 1 → completes (.frameRead q cid) s fun e =>
        e = ((c.begun d).endsAt (d.started c) 0x22).hatPump) ∧
      (c.stream ≤ 31 → c.mode ≤ 2 → c.arg 10 1 ≤ 1 → completes (.frameRead q cid) s fun e => e = (d.started c).hatPump)) ∧
    (∀ c, d.readyFor q cid 5 c →
      (31 < c.stream → completes (.rangeRelease q cid) s fun e => e = ((c.begun d).endsAt (d.started c) 0x22).hatPump) ∧
      (c.stream ≤ 31 →
        let mine (p : Pin) : Bool :=
          p.queue == q && p.stream == c.stream && decide (behind 32 p.pn (c.arg 12 4) ≤ behind 32 (c.arg 16 4) (c.arg 12 4))
        completes (.rangeRelease q cid) s fun e => e = (((d.started c).pinsEnd mine).2.cmdEnds c.arrival 0 (d.hat.pins.filter mine).length 0 0).hatPump)) ∧
    (∀ c, d.readyFor q cid 6 c →
      (∀ st, d.migrateOk c = some st → completes (.migrate q cid) s fun e => e = ((c.begun d).endsAt (d.started c) st).hatPump) ∧
      (d.migrateOk c = none → completes (.migrate q cid) s fun e =>
        let m := (d.started c).onCmd c.arrival fun x => { x with units := c.unitCount }
        e = m.hatPump ∧ m.cmdAt c.arrival = some { c.begun d with units := c.unitCount })) ∧
    (∀ c, d.readyFor q cid 7 c →
      (∀ st, d.verifyOk c = some st → completes (.verify q cid) s fun e => e = ((c.begun d).endsAt (d.started c) st).hatPump) ∧
      (d.verifyOk c = none → completes (.verify q cid) s fun e => e = (d.started c).hatPump)) ∧
    (∀ c, d.readyFor q cid 8 c →
      (2 ≤ c.arg 25 1 → completes (.mountShell q cid) s fun e => e = ((c.begun d).endsAt (d.started c) 0x22).hatPump) ∧
      (c.arg 25 1 < 2 → completes (.mountShell q cid) s fun e =>
        e = ((d.started c).mountStart c.arrival (c.arg 20 2) (c.arg 24 1) (decide (c.arg 25 1 = 1))).hatPump)) ∧
    (∀ c, d.readyFor q cid 9 c →
      (c.arg 25 1 ≠ 0 → c.arg 25 1 ≠ 2 → completes (.ejectShell q cid) s fun e => e = ((c.begun d).endsAt (d.started c) 0x22).hatPump) ∧
      (c.arg 25 1 = 0 ∨ c.arg 25 1 = 2 → completes (.ejectShell q cid) s fun e =>
        e = ((d.started c).ejectStart c.arrival (c.arg 20 2) (decide (c.arg 25 1 = 2))).hatPump)) ∧
    (∀ xid kind c, (kind, c) ∈ [(2, Instr.dataDone q cid xid), (3, .release q cid xid)] →
      let k := (q, kind, cid, xid)
      let f : Dev := { d with hat := { d.hat with capsules := d.hat.capsules.erase k } }
      (d.holds = true ∨ k ∉ d.hat.capsules → completes c s fun e => e = d) ∧
      (d.holds = false → k ∈ d.hat.capsules → d.xferOf q kind cid xid = none → completes c s fun e => e = f.hatPump.showQ q)) ∧
    (∀ xid x, d.holds = false →
      let taken (k : Nat) : Dev := { d with hat := { d.hat with capsules := d.hat.capsules.erase (q, k, cid, xid) } }
      (d.xferOf q 3 cid xid = some x → (q, 3, cid, xid) ∈ d.hat.capsules → completes (.release q cid xid) s fun e =>
        e = (((taken 3).dropXfer x).hatPump).showQ q) ∧
      (d.xferOf q 2 cid xid = some x → (q, 2, cid, xid) ∈ d.hat.capsules →
        let m := ((taken 2).bpmHostw (d.bufEnt (handleIndex x.handle)).owner (.handle x.handle) false).2
        let n : Dev := { m with hat := { m.hat with xfers := m.hat.xfers.filter (· != x) } }
        (d.cmdAt x.arrival = none → completes (.dataDone q cid xid) s fun e => e = ((n.freeHandle x.handle).hatPump).showQ q) ∧
        ∀ c, d.cmdAt x.arrival = some c →
          (c.op = 1 → completes (.dataDone q cid xid) s fun e => e = ((n.unitWrite c x).hatPump).showQ q) ∧
          (c.op = 0x8A → completes (.dataDone q cid xid) s fun e => e = (((n.keyTake c x).freeHandle x.handle).hatPump).showQ q) ∧
          (c.op ≠ 1 → c.op ≠ 0x8A → completes (.dataDone q cid xid) s fun e => e = (((n.fwTake c x).freeHandle x.handle).hatPump).showQ q)))

/-- QUEUE_CREATE, QUEUE_DELETE, QUEUE_RESET, QUEUE_RESET_DONE, FLR, LINK_DOWN, LINK_TRAINED, CONVENTIONAL_RESET and D3HOT_TRANSITION (R439,
R443, R451, R465, R466): a queue is made ACTIVE and empty with its settings, and deleted only when it holds no command; a reset aborts what has not
started; FLR puts every queue OFF; the link's states show; a conventional reset leaves queues, decoders and W as at chip reset.
That a RESETTING queue is busy is the model's reading (log entry 71). -/
def Obligations.QueueAdmin : Prop :=
  ∀ s : State,
    let d := s.dev
    (∀ cid c, d.readyFor 0 cid 0x87 c →
      let m := d.started c
      let ends (st : Nat) (e : Dev) : Prop := e = ((c.begun d).endsAt m st).hatPump
      let p := c.arg 8 1
      let fits := p ≤ 63 ∧ c.arg 16 2 ≠ 0 ∧ c.arg 16 2 ≤ 4096 ∧ isRingSize (c.arg 18 2) = true ∧ c.arg 20 2 ≠ 0 ∧ c.arg 20 2 ≤ 1024 ∧
        c.arg 24 8 % 64 = 0 ∧ c.arg 32 1 ≤ 63 ∧ c.arg 33 1 ≠ 0 ∧ c.arg 34 2 ≠ 0 ∧ c.arg 34 2 ≤ 4000
      (p = 0 → completes (.queueCreate cid) s (ends 0x50)) ∧ (p ≠ 0 → ¬ fits → completes (.queueCreate cid) s (ends 0x22)) ∧
      (p ≠ 0 → fits → d.qState p ≠ 0 → completes (.queueCreate cid) s (ends 0x50)) ∧
      (p ≠ 0 → fits → d.qState p = 0 → completes (.queueCreate cid) s fun e =>
        let f := m.queueOn p (c.arg 16 2) (c.arg 18 2) (c.arg 20 2) (c.arg 24 8) (c.arg 32 1) (c.arg 33 1) (c.arg 34 2)
        e = ((c.begun d).endsAt f 0).hatPump ∧
        f.qState p = 1 ∧ f.hat.cmds = m.hat.cmds ∧ f.out = d.out ∧ (∀ k, k ≠ p → f.queue k = d.queue k) ∧ f.queue p = { Queue.reset with
          window := (d.queue p).window, depth := c.arg 16 2, rdepth := c.arg 18 2, xferMax := c.arg 20 2, base := c.arg 24 8,
          vec := c.arg 32 1, agg := c.arg 33 1, aggTime := c.arg 34 2 })) ∧
    (∀ cid c, d.readyFor 0 cid 0x88 c →
      let m := d.started c
      let ends (st : Nat) (e : Dev) : Prop := e = ((c.begun d).endsAt m st).hatPump
      let p := c.arg 8 1
      (p = 0 ∨ (p ≤ 63 ∧ d.qState p = 0) → completes (.queueDelete cid) s (ends 0x50)) ∧
      (63 < p → completes (.queueDelete cid) s (ends 0x22)) ∧
      (p ≠ 0 → p ≤ 63 → d.qState p ≠ 0 → d.qState p = 2 ∨ d.cmdsOf p ≠ [] → completes (.queueDelete cid) s (ends 0x51)) ∧
      (p ≠ 0 → p ≤ 63 → d.qState p = 1 → d.cmdsOf p = [] → completes (.queueDelete cid) s fun e =>
        e = ((c.begun d).endsAt (m.queueOff p) 0).hatPump)) ∧
    (∀ cid c, d.readyFor 0 cid 0x89 c →
      let m := d.started c
      let ends (st : Nat) (e : Dev) : Prop := e = ((c.begun d).endsAt m st).hatPump
      let p := c.arg 8 1
      (p = 0 ∨ (p ≤ 63 ∧ d.qState p = 0) → completes (.queueReset cid) s (ends 0x50)) ∧
      (63 < p → completes (.queueReset cid) s (ends 0x22)) ∧
      (p ≠ 0 → p ≤ 63 → d.qState p = 2 → completes (.queueReset cid) s (ends 0x51)) ∧
      (p ≠ 0 → p ≤ 63 → d.qState p = 1 → completes (.queueReset cid) s fun e =>
        let f := m.wr (F.hatQstat_state p) 2
        e = ((f.resetQueue p).onQueue p fun y => { y with resetBy := some c.arrival }).hatPump ∧ f.qState p = 2 ∧ f.hat = m.hat)) ∧
    (∀ c, c ∈ d.hat.cmds → c.started = false → c.verdict = none → ∃ x ∈ (d.resetCmd c).hat.cmds, x.arrival = c.arrival ∧
      x.verdict = some (0x10, 0, 0, 0)) ∧
    (∀ q, q < 64 →
      let x := d.queue q
      (d.qState q ≠ 2 ∨ d.cmdsOf q ≠ [] ∨ x.held ≠ [] → completes (.queueResetDone q) s fun e => e = d) ∧
      (d.qState q = 2 → d.cmdsOf q = [] → x.held = [] → completes (.queueResetDone q) s fun e =>
        let f := ((d.onQueue q fun y => { y with head := y.tail, resetBy := none }).wr (F.hatQstat_state q) 1).showQ q
        e = (x.resetBy.elim f fun a => f.cmdEnds a 0 x.aborted 0 0).hatPump ∧ f.qState q = 1 ∧
        f.queue q = { x with head := x.tail, resetBy := none } ∧ f.hat.cmds = d.hat.cmds ∧ f.out = d.out)) ∧
    (completes .flr s fun e => e = (((List.range 64).foldl (fun (f : Dev) q => f.queueOff q) d).wr F.hatAqCfg_en 0).hatPump) ∧
    (d.rd F.pltStat_link = 0 → completes .linkDown s fun e => e = d) ∧
    (d.rd F.pltStat_link ≠ 0 → completes .linkDown s fun e =>
      let f := (d.setLink 0 0 0).raise Pg.hatReg Er.hatReg_linkDown
      e = f.flr ∧ f.rd F.pltStat_link = 0 ∧ f.rd F.hatLink_mode = 0 ∧ f.errorShows Pg.hatReg Er.hatReg_linkDown ∧ d.sameRegions f) ∧
    (∀ mode rate width,
      let may := d.rd F.pltStat_link = 0 ∧ d.plat.boot = .ready ∧ d.plat.perst = true ∧ mode ∈ [1, 2] ∧ rate ∈ [1, 2, 3] ∧
        width ∈ [1, 2, 4, 8]
      (¬ may → completes (.linkTrained mode rate width) s fun e => e = d) ∧
      (may → completes (.linkTrained mode rate width) s fun e =>
        let g := d.setLink mode rate width
        let h := if width ≠ 8 ∨ rate ≠ 3 then g.raise Pg.hatReg Er.hatReg_linkDegraded else g
        let f := if mode = 2 then h.raise Pg.hatReg Er.hatReg_fallback else h
        e = f.sendHeld ∧ f.rd F.pltStat_link = mode ∧ f.rd F.hatLink_mode = mode ∧
        f.rd F.hatLink_rate = rate ∧ f.rd F.hatLink_width = width ∧ (width ≠ 8 ∨ rate ≠ 3 → f.errorShows Pg.hatReg Er.hatReg_linkDegraded) ∧
        (mode = 2 → f.errorShows Pg.hatReg Er.hatReg_fallback) ∧ d.sameRegions f)) ∧
    (completes .conventionalReset s fun e => e.plat.perst = false ∧ e.hat.queues = [] ∧ e.hat.decoders = [none, none] ∧ e.hat.d3hot = false ∧
      e.rd F.hatMemCfg = bitsOf (resetVal F.hatMemCfg.addr).toNat F.hatMemCfg.hi F.hatMemCfg.lo ∧ e.flag F.hatAqCfg_en = false) ∧
    (∀ on, completes (.d3hotTransition on) s fun e => e = { d with hat := { d.hat with d3hot := on } })

/-- The mailbox (R444): over CXL each command answers with the contents the manual gives it; the label area holds what was written; TRANSFER_FW
and ACTIVATE_FW are not carried out; and without a CXL link nothing answers.
The order of an answer's contents is the model's choice (log entry 51). -/
def Obligations.Mailbox : Prop :=
  ∀ s : State,
    let d := s.dev
    let answers (c : Instr) (done : Bool) (p : List Byte) : Prop := completes c s fun e => e = d.send (.mailbox done p)
    (d.rd F.pltStat_link ≠ 1 → ∀ ofs n bs, ∀ c ∈ [Instr.identifyMemoryDevice, .getHealthInfo, .getPoisonList, .getLsa ofs n, .setLsa ofs bs,
      .getFwInfo, .transferFw, .activateFw, .getEventRecords], completes c s fun e => e = d) ∧
    (d.rd F.pltStat_link = 1 →
      answers .identifyMemoryDevice true (leBytes 8 d.memW ++ leBytes 8 d.memW ++ leBytes 8 0 ++ leBytes 4 131072 ++ leBytes 4 256) ∧
      (let worst := (d.sfl.rows.find? fun x => x.2.erases == d.maxErases && decide (x.2.st ≠ .retired)).map (·.1)
       let die := worst.elim 0 fun r => d.dieOf ((d.positions r).getD 0 0) (rowCe r)
       answers .getHealthInfo true ((((List.range 4).map fun n => leBytes 1 (unitStat (d.unitAt (Pg.cstStk n)))).flatten) ++
         leBytes 4 (Config.lifeUsed d.maxErases die) ++ leBytes 1 (d.rd F.pltThermStat_hottest) ++ leBytes 4 d.mram.pfCount)) ∧
      (let all := d.cst.sealed.filter fun a => decide (a < d.memW)
       (all.length ≤ 256 → answers .getPoisonList true (leBytes 1 0 ++ leBytes 2 all.length ++ (all.map (leBytes 8)).flatten)) ∧
       (256 < all.length → answers .getPoisonList true (leBytes 1 1 ++ leBytes 2 256 ++ ((all.take 256).map (leBytes 8)).flatten))) ∧
      (∀ ofs n, ofs + n ≤ 131072 → answers (.getLsa ofs n) true (Map.getRun 0 d.mram.lsa ofs n)) ∧
      (∀ ofs n, 131072 < ofs + n → answers (.getLsa ofs n) false []) ∧
      (∀ ofs bs, ofs + bs.length ≤ 131072 → completes (.setLsa ofs bs) s fun e => e.out = d.out ++ [.mailbox true []] ∧
        Map.getRun 0 e.mram.lsa ofs bs.length = bs ∧ e.mram = { d.mram with lsa := e.mram.lsa } ∧ e.plat = d.plat ∧ d.sameRegions e ∧
        ∀ k, k < ofs ∨ ofs + bs.length ≤ k → Map.get 0 e.mram.lsa k = Map.get 0 d.mram.lsa k) ∧
      (∀ ofs bs, 131072 < ofs + bs.length → answers (.setLsa ofs bs) false []) ∧
      answers .getFwInfo true (((List.range 12).map fun r => leBytes 4 (d.view (F.pltFwReg_version r).addr)).flatten) ∧
      answers .transferFw false [] ∧ answers .activateFw false [] ∧
      answers .getEventRecords true (((d.mram.eventLog.recs.filter fun r => decide (r.ty = 1)).map LogRec.bytes).flatten))

/-- IDENTIFY, GET_LOG, SET_FEATURE, GET_FEATURE, FW_DOWNLOAD, FW_COMMIT and KEY_LOAD (R473, R474, R478, R479, R481, R482): an admin command that
begins is refused with the status the manual gives, or delivers its data, sets or reads its feature, waits for its data or for its check, or
clears its key slot. -/
def Obligations.AdminCommands : Prop :=
  ∀ (s : State) (cid : Nat),
    let d := s.dev
    let ends (c : Cmd) (st : Nat) (e : Dev) : Prop := e = ((c.begun d).endsAt (d.started c) st).hatPump
    (d.cmdOf 0 cid = none → ∀ c ∈ [Instr.identify cid, .getLog cid, .setFeature cid, .getFeature cid, .fwDownload cid, .fwCommit cid,
      .keyLoad cid], completes c s fun e => e = d) ∧
    (∀ c, d.readyFor 0 cid 0x81 c →
      (∀ st, d.identData (c.arg 8 1) c.vol (c.arg 20 2) = .error st → completes (.identify cid) s (ends c st)) ∧
      (∀ b, d.identData (c.arg 8 1) c.vol (c.arg 20 2) = .ok b → completes (.identify cid) s fun e =>
        let m := (d.started c).delivers c b 0
        e = m.hatPump ∧ m.cmdAt c.arrival = some { c.begun d with
          phase := 5, next := 0, units := ceilDiv b.length unitBytes, data := b, res := (0, 0, 0) })) ∧
    (∃ b, d.identData 0 0 0 = .ok b ∧ b.length = 4096 ∧ fieldAt b 0 2 = 0x1D5C ∧ fieldAt b 2 2 = 0x6410) ∧
    (∀ c, d.readyFor 0 cid 0x82 c →
      let len := c.arg 24 4
      (logExists (c.arg 8 1) = false → completes (.getLog cid) s (ends c 0x88)) ∧
      (logExists (c.arg 8 1) = true → len < 64 ∨ 16777216 < len ∨ len % 64 ≠ 0 → completes (.getLog cid) s (ends c 0x22)) ∧
      ((logShape (c.arg 8 1)).isSome = true → 64 ≤ len → len ≤ 16777216 → len % 64 = 0 → completes (.getLog cid) s fun e =>
        let n := d.logWritten (c.arg 8 1)
        let m := (d.started c).onCmd c.arrival fun x => { x with
          phase := 7, next := 0, units := ceilDiv len unitBytes, wait := [(n, 0)], res := (n % 2 ^ 32, 0, 0) }
        e = m.hatPump ∧ m.cmdAt c.arrival = some { c.begun d with
          phase := 7, next := 0, units := ceilDiv len unitBytes, wait := [(n, 0)], res := (n % 2 ^ 32, 0, 0) }) ∧
      (logExists (c.arg 8 1) = true → logShape (c.arg 8 1) = none → 64 ≤ len → len ≤ 16777216 → len % 64 = 0 → completes (.getLog cid) s fun e =>
        e = ((d.started c).delivers c ((d.started c).logData (c.arg 8 1) 0 (c.arg 16 8) len).1 0).hatPump)) ∧
    (∀ c, d.readyFor 0 cid 0x83 c →
      let v := c.arg 12 4
      (featureOk (c.arg 8 1) (c.arg 9 1) = false → completes (.setFeature cid) s (ends c 0x89)) ∧
      (∀ a bits rs, featureOk (c.arg 8 1) (c.arg 9 1) = true → featureReg (c.arg 8 1) (c.arg 9 1) = some (a, bits, rs) →
        (2 ^ bits ≤ v → completes (.setFeature cid) s (ends c 0x22)) ∧
        (v < 2 ^ bits → d.featureBusy (pageOf a) = true → completes (.setFeature cid) s (ends c 0x8A))) ∧
      (c.arg 8 1 = 1 → c.arg 9 1 = 0 → (c.arg 10 1).testBit 0 = false → d.featureBusy (pageOf F.sflTime.addr) = false →
        d.plat.softReset = none → d.rd F.sflTime < v → completes (.setFeature cid) s fun e =>
          let m := (d.started c).write32 F.sflTime.addr v 0
          e = (m.cmdEnds c.arrival 0 v 0 0).hatPump ∧ m.rd F.sflTime = v ∧ m.out = d.out ∧ m.hat = (d.started c).hat)) ∧
    (∀ c, d.readyFor 0 cid 0x84 c →
      (featureOk (c.arg 8 1) (c.arg 9 1) = false → completes (.getFeature cid) s (ends c 0x89)) ∧
      (∀ v, featureOk (c.arg 8 1) (c.arg 9 1) = true → d.featureGet (c.arg 8 1) (c.arg 9 1) ((c.arg 10 1).testBit 0) = some v →
        completes (.getFeature cid) s fun e => e = ((d.started c).cmdEnds c.arrival 0 v 0 0).hatPump) ∧
      (featureOk (c.arg 8 1) (c.arg 9 1) = true → d.featureGet (c.arg 8 1) (c.arg 9 1) ((c.arg 10 1).testBit 0) = none →
        completes (.getFeature cid) s (ends c 0x8F))) ∧
    (∀ c, d.readyFor 0 cid 0x85 c →
      let prof : Bool := decide (c.arg 8 1 = 1)
      let fits := c.arg 8 1 ≤ 1 ∧ c.arg 9 1 ≤ (if prof then 7 else 3) ∧ c.arg 12 4 % 4096 = 0 ∧ c.arg 16 4 % 4096 = 0 ∧ 4096 ≤ c.arg 16 4 ∧
        c.arg 16 4 ≤ 65536 ∧ c.arg 12 4 + c.arg 16 4 ≤ (if prof then 131072 else 16777216)
      let inUse := (prof = true ∧ d.activeProf = some (c.arg 9 1)) ∨ (prof = false ∧ d.fwSlotBusy (c.arg 9 1) = true)
      (¬ fits → completes (.fwDownload cid) s (ends c 0x22)) ∧ (fits → inUse → completes (.fwDownload cid) s (ends c 0x80)) ∧
      (fits → ¬ inUse → completes (.fwDownload cid) s fun e => e = (d.started c).hatPump)) ∧
    (∀ c, d.readyFor 0 cid 0x86 c →
      (3 < c.fwSlot ∨ 4095 < c.fwRegs ∨ 7 < c.fwAction → completes (.fwCommit cid) s (ends c 0x22)) ∧
      (c.fwSlot ≤ 3 → c.fwRegs ≤ 4095 → c.fwAction ≤ 7 → completes (.fwCommit cid) s fun e =>
        let m := (d.started c).onCmd c.arrival fun x => { x with phase := 1 }
        e = m.hatPump ∧ m.cmdAt c.arrival = some { c.begun d with phase := 1 })) ∧
    (∀ c, d.readyFor 0 cid 0x8A c →
      let slot := c.arg 8 1
      (63 < slot ∨ 3 < c.arg 9 1 → completes (.keyLoad cid) s (ends c 0x22)) ∧
      (slot ≤ 63 → c.arg 9 1 ≤ 3 → (c.arg 9 1).testBit 0 = false → completes (.keyLoad cid) s fun e => e = (d.started c).hatPump) ∧
      (slot ≤ 63 → c.arg 9 1 ≤ 3 → (c.arg 9 1).testBit 0 = true →
        (∀ st, d.keyRefused slot (c.arg 12 4) true ((c.arg 9 1).testBit 1) = some st → completes (.keyLoad cid) s (ends c st)) ∧
        (d.keyRefused slot (c.arg 12 4) true ((c.arg 9 1).testBit 1) = none → completes (.keyLoad cid) s fun e =>
          let m := (d.started c).keyStore slot ⟨0, [], []⟩
          e = ((c.begun d).endsAt m 0).hatPump ∧ m.mram.keys = Map.erase d.mram.keys slot ∧ m.rd (F.sflAesKeyid slot) = 0 ∧
          m.hat = (d.started c).hat)))

/-- FW_COMMIT_CHECK_END, FW_IMAGE_LOADED, FW_QUIESCE_REACHED and FW_ACTIVATION_ABANDON (R55, R482): the check's first failing status ends the
command; ACTIVATE stages the regions named, and BOOT and LOCK_SVN without it act at once; loaded, the regions hold; quiescent within
their times they switch at the next boundary; too late, they keep their images and the command ends ABANDONED. -/
def Obligations.FirmwareActivates : Prop :=
  ∀ s : State,
    let d := s.dev
    let hit (mask r : Nat) : Prop := r < 12 ∧ mask.testBit r = true
    (∀ cid c, d.cmdOf 0 cid = some c → d.cmdAt c.arrival = some c → c.op = 0x86 → c.started = true → c.phase = 1 → c.verdict = none →
      c.fwSlot < 4 →
      let k := if d.injected Pg.pltMram Er.pltMram_mramUe = true then d.count (F.pltMramCnt 1) else d
      let m (ok : Bool) : Dev := ((k.takeInjected Pg.pltMram Er.pltMram_mramUe).setChecked c.fwSlot ok).onCmd c.arrival fun x => { x with phase := 2 }
      (∀ ok, (m ok).mram = { d.mram with checked := d.mram.checked.set c.fwSlot ok } ∧
        (∀ f : RegField, f.addr ≠ (F.pltMramCnt 1).addr → (m ok).rd f = d.rd f)) ∧
      (∀ st, d.fwCheck c.fwSlot c.fwRegs c.fwAction = some st → completes (.fwCommitCheckEnd cid) s fun e => e = (c.endsAt (m false) st).hatPump) ∧
      (d.fwCheck c.fwSlot c.fwRegs c.fwAction = none → c.fwRegs = 0 ∨ c.fwAction = 0 → completes (.fwCommitCheckEnd cid) s fun e =>
        e = ((m true).cmdEnds c.arrival 0 d.fwLast 0 0).hatPump) ∧
      (d.fwCheck c.fwSlot c.fwRegs c.fwAction = none → c.fwRegs ≠ 0 → c.fwAction.testBit 0 = true → completes (.fwCommitCheckEnd cid) s fun e =>
        let n := ((m true).fwEach c.fwRegs F.pltFwReg_staged c.fwSlot).fwEach c.fwRegs F.pltFwReg_state 1
        let act : Activation := ⟨c.fwRegs, c.fwSlot, c.fwAction.testBit 1, c.fwAction.testBit 2, d.now, none, none, c.arrival⟩
        e = ({ n with plat := { n.plat with activation := some act } } : Dev).hatPump ∧
        (∀ r, hit c.fwRegs r → n.rd (F.pltFwReg_staged r) = c.fwSlot ∧ n.rd (F.pltFwReg_state r) = 1) ∧
        ∀ r, r < 12 → n.rd (F.pltFwReg_active r) = d.rd (F.pltFwReg_active r)) ∧
      (d.fwCheck c.fwSlot c.fwRegs c.fwAction = none → c.fwRegs ≠ 0 → c.fwAction ≠ 0 → c.fwAction.testBit 0 = false →
        completes (.fwCommitCheckEnd cid) s fun e =>
          let n := (m true).fwDone c.fwSlot c.fwRegs (c.fwAction.testBit 1) (c.fwAction.testBit 2)
          e = (n.cmdEnds c.arrival 0 d.fwLast 0 0).hatPump ∧ n.plat.activation = d.plat.activation ∧
          (∀ r, r < 12 → n.rd (F.pltFwReg_active r) = d.rd (F.pltFwReg_active r)) ∧
          (c.fwAction.testBit 1 = true → ∀ r, r < 12 →
            n.mram.bootSlot.getD r 0 = if c.fwRegs.testBit r then c.fwSlot else d.mram.bootSlot.getD r 0) ∧
          n.mram.svnFloor = if c.fwAction.testBit 2 then max d.mram.svnFloor (d.fwSvn c.fwSlot) else d.mram.svnFloor)) ∧
    (d.plat.activation = none → (∀ c ∈ [Instr.fwImageLoaded, .fwQuiesceReached, .fwActivationAbandon], completes c s fun e => e = d) ∧
      d.fwSwitch = d) ∧
    (∀ a, d.plat.activation = some a →
      let ended : Dev := { d with plat := { d.plat with activation := none } }
      (a.th = none → d.now ≤ a.ta + 120 → completes .fwImageLoaded s fun e => e.plat.activation = some { a with th := some d.now } ∧
        (∀ r, hit a.regions r → e.rd (F.pltFwReg_state r) = 2)) ∧
      (a.th.isSome = true ∨ a.ta + 120 < d.now → completes .fwImageLoaded s fun e => e = d) ∧
      (∀ th, a.th = some th → a.quiet = none → d.now + 1 ≤ th + 80 → d.now + 1 ≤ a.ta + 200 → d.fwQuiet a.regions = true →
        completes .fwQuiesceReached s fun e => e = { d with plat := { d.plat with activation := some { a with quiet := some d.now } } }) ∧
      (∀ th, a.th = some th → a.quiet.isSome = true ∨ th + 80 < d.now + 1 ∨ a.ta + 200 < d.now + 1 ∨ d.fwQuiet a.regions = false →
        completes .fwQuiesceReached s fun e => e = d) ∧
      (a.th = none → (completes .fwQuiesceReached s fun e => e = d)) ∧
      (a.th = none ∨ a.quiet = none → d.fwSwitch = d) ∧
      (∀ th t, a.th = some th → a.quiet = some t → a.slot < 4 →
        let f := (ended.fwEach a.regions F.pltFwReg_active a.slot).fwEach a.regions F.pltFwReg_state 0
        let g := (regionsOf a.regions).foldl (fun (x : Dev) r => x.wr (F.pltFwReg_version r) (d.fwVersion a.slot r)) f
        let h := if a.regions.testBit 9 then g.engsSwitch else g
        let m := (((h.wr F.pltFwLast_hold (d.now - th)).wr F.pltFwLast_total (d.now - a.ta)).fwDone a.slot a.regions a.boot a.lockSvn).chipEvent 15
        d.fwSwitch = (m.cmdEnds a.arrival 0 m.fwLast 0 0).hatPump ∧ m.plat.activation = none ∧ m.causeShows 15 ∧
          (d.now - th < 65536 → m.rd F.pltFwLast_hold = d.now - th) ∧ (d.now - a.ta < 65536 → m.rd F.pltFwLast_total = d.now - a.ta) ∧
          ∀ r, hit a.regions r → m.rd (F.pltFwReg_active r) = a.slot ∧ m.rd (F.pltFwReg_state r) = 0 ∧
            m.rd (F.pltFwReg_version r) = d.fwVersion a.slot r % 65536) ∧
      ((∃ th, a.th = some th ∧ a.quiet = none ∧ (th + 79 ≤ d.now ∨ a.ta + 199 ≤ d.now)) ∨ (a.th = none ∧ a.ta + 120 ≤ d.now) →
        completes .fwActivationAbandon s fun e =>
          let m := ((regionsOf a.regions).foldl (fun (x : Dev) r => x.raise (r * 0x100000) 30) (ended.fwEach a.regions F.pltFwReg_state 0)).chipEvent 15
          e = (m.cmdEnds a.arrival 0x85 m.fwLast 0 0).hatPump ∧ m.plat.activation = none ∧ m.causeShows 15 ∧
          (∀ r, hit a.regions r → m.rd (F.pltFwReg_state r) = 0 ∧ m.errorShows (r * 0x100000) 30) ∧
          ∀ r, r < 12 → m.rd (F.pltFwReg_active r) = d.rd (F.pltFwReg_active r)) ∧
      ((∃ th, a.th = some th ∧ (a.quiet.isSome = true ∨ (d.now < th + 79 ∧ d.now < a.ta + 199))) ∨ (a.th = none ∧ d.now < a.ta + 120) →
        completes .fwActivationAbandon s fun e => e = d))

/-! ## What every step keeps -/

/-- Every step keeps the canonical form of the store, the registers and the shadows, so that equal contents stay equal data. -/
def Obligations.EveryStepKeepsForm : Prop := ∀ s t : State, s.wf = true → step s = .next t → t.wf = true

/-- The state after reset has the canonical form, and in it every register holds its reset value, no command waits, nothing is sent, and the chip is in reset and
not in the safe state. -/
def Obligations.ResetIsCanonical : Prop :=
  State.reset.wf = true ∧ State.reset.pending = [] ∧ State.reset.dev.out = [] ∧ State.reset.dev.plat.boot = .reset ∧
    State.reset.dev.plat.safe = false ∧ ∀ a, State.reset.dev.raw a = resetVal a ∧ State.reset.dev.forced a = resetVal a ∧
      State.reset.dev.shadowed a = resetVal a

/-- Whole-machine rules (R8, R482, R494): only a chip reset leaves the chip safe state; no command lowers the SVN floor; what was sent is never taken
back; and outside chip reset the tick moves by one at TICK_BOUNDARY and at nothing else but a reset. -/
def Obligations.EveryStepHolds : Prop :=
  ∀ (c : Instr) (s t : State), exec c s = .next t →
    s.dev.mram.svnFloor ≤ t.dev.mram.svnFloor ∧ s.dev.out <+: t.dev.out ∧
    ((∀ l, c ≠ .resetNAssert l) → (∀ r, c ≠ .softResetTakesEffect r) →
      (s.dev.plat.safe = true → t.dev.plat.safe = true) ∧
      (s.dev.plat.boot ≠ .reset → (∀ x, c = .tickBoundary x → t.dev.plat.tick = s.dev.plat.tick + 1) ∧
        ((∀ x, c ≠ .tickBoundary x) → t.dev.plat.tick = s.dev.plat.tick)))
end

