-- ==== Sys2Proof/Laws/Map.lean ====
section
/-! SUPPORT. What the operations of a sparse map do: a write is read back, nothing else is changed, and the canonical form is kept. -/
namespace Sys2Proof.Machine
open Sys2Proof

variable {α : Type}

theorem Map.get_erase (dflt : α) (m : Map α) (k j : Nat) :
    Map.get dflt (Map.erase m k) j = if j = k then dflt else Map.get dflt m j := by
  induction m with
  | nil => simp [Map.erase, Map.get]
  | cons e m ih =>
    obtain ⟨k', v⟩ := e
    simp only [Map.erase]
    by_cases h : k' = k
    · subst h
      simp only [if_true, ih]
      by_cases hj : j = k'
      · simp [hj]
      · have hj' : ¬ k' = j := fun h => hj h.symm
        simp [hj, hj', Map.get]
    · by_cases hj : k' = j
      · subst hj
        simp [h, Map.get]
      · by_cases hk : j = k
        · subst hk
          simp [h, Map.get, ih]
        · simp [h, Map.get, ih, hj, hk]

theorem Map.get_insert (dflt : α) (m : Map α) (k j : Nat) (v : α) (h : ∀ e ∈ m, e.1 ≠ k) :
    Map.get dflt (Map.insert m k v) j = if j = k then v else Map.get dflt m j := by
  induction m with
  | nil =>
    by_cases hj : j = k
    · simp [Map.insert, Map.get, hj]
    · have hj' : ¬ k = j := fun h => hj h.symm
      simp [Map.insert, Map.get, hj, hj']
  | cons e m ih =>
    obtain ⟨k', v'⟩ := e
    have hk : k' ≠ k := h (k', v') (by simp)
    have hm : ∀ e ∈ m, e.1 ≠ k := fun e he => h e (by simp [he])
    simp only [Map.insert]
    by_cases hlt : k < k'
    · by_cases hj : j = k
      · simp [hlt, Map.get, hj]
      · have hj' : ¬ k = j := fun h => hj h.symm
        simp [hlt, Map.get, hj, hj']
    · by_cases hj : k' = j
      · subst hj
        simp [hlt, Map.get, hk]
      · simp [hlt, Map.get, ih hm, hj]

theorem Map.erase_keys (m : Map α) (k : Nat) : ∀ e ∈ Map.erase m k, e.1 ≠ k := by
  induction m with
  | nil => simp [Map.erase]
  | cons e m ih =>
    obtain ⟨k', v⟩ := e
    simp only [Map.erase]
    by_cases h : k' = k
    · simpa [h] using ih
    · intro e he
      simp only [h, if_false, List.mem_cons] at he
      rcases he with rfl | he
      · exact h
      · exact ih e he

/-- A write is read back, and every other key reads as before. -/
theorem Map.get_set [DecidableEq α] (dflt : α) (m : Map α) (k j : Nat) (v : α) :
    Map.get dflt (Map.set dflt m k v) j = if j = k then v else Map.get dflt m j := by
  unfold Map.set
  by_cases h : v = dflt
  · simp [h, Map.get_erase]
  · simp only [h, if_false, Map.get_insert _ _ _ _ _ (Map.erase_keys m k), Map.get_erase]
    by_cases hj : j = k <;> simp [hj]

@[simp] theorem Map.get_set_same [DecidableEq α] (dflt : α) (m : Map α) (k : Nat) (v : α) :
    Map.get dflt (Map.set dflt m k v) k = v := by simp [Map.get_set]

/-- Another key reads as before, whatever its default. -/
theorem Map.get_set_other [DecidableEq α] (dflt dflt' : α) (m : Map α) (k j : Nat) (v : α) (h : j ≠ k) :
    Map.get dflt' (Map.set dflt m k v) j = Map.get dflt' m j := by
  unfold Map.set
  by_cases hv : v = dflt
  · simp [hv, Map.get_erase, h]
  · simp only [hv, if_false, Map.get_insert _ _ _ _ _ (Map.erase_keys m k), Map.get_erase, h]

/-! ## The canonical form -/

/-- All keys of a map lie above `l`. -/
def Map.above (l : Option Nat) (m : Map α) : Prop := ∀ e ∈ m, ∀ x ∈ l, x < e.1

theorem Map.rising_iff (l : Option Nat) (m : Map α) :
    Map.rising l m = true ↔ Map.above l m ∧ m.Pairwise (fun a b => a.1 < b.1) := by
  induction m generalizing l with
  | nil => cases l <;> simp [Map.rising, Map.above]
  | cons e m ih =>
    obtain ⟨k, v⟩ := e
    have key : Map.rising (some k) m = true ↔ (∀ e ∈ m, k < e.1) ∧ m.Pairwise (fun a b => a.1 < b.1) := by
      rw [ih]; simp [Map.above]
    cases l with
    | none => simp [Map.rising, key, Map.above, List.pairwise_cons]
    | some l =>
      simp only [Map.rising, Bool.and_eq_true, decide_eq_true_eq, key, Map.above, List.pairwise_cons, List.mem_cons]
      constructor
      · rintro ⟨hl, hk, hp⟩
        refine ⟨?_, hk, hp⟩
        rintro e (rfl | he) x hx
        · simp at hx; omega
        · have := hk e he; simp at hx; omega
      · rintro ⟨ha, hk, hp⟩
        exact ⟨ha (k, v) (.inl rfl) l (by simp), hk, hp⟩

theorem Map.erase_subset (m : Map α) (k : Nat) : ∀ e ∈ Map.erase m k, e ∈ m := by
  induction m with
  | nil => simp [Map.erase]
  | cons e m ih =>
    obtain ⟨k', v⟩ := e
    simp only [Map.erase]
    by_cases h : k' = k
    · intro e he; simp only [h, if_true] at he; exact List.mem_cons_of_mem _ (ih e he)
    · intro e he
      simp only [h, if_false, List.mem_cons] at he
      rcases he with rfl | he
      · simp
      · exact List.mem_cons_of_mem _ (ih e he)

theorem Map.erase_pairwise (m : Map α) (k : Nat) (h : m.Pairwise (fun a b => a.1 < b.1)) :
    (Map.erase m k).Pairwise (fun a b => a.1 < b.1) := by
  induction m with
  | nil => simp [Map.erase]
  | cons e m ih =>
    obtain ⟨k', v⟩ := e
    rw [List.pairwise_cons] at h
    simp only [Map.erase]
    by_cases hk : k' = k
    · simpa [hk] using ih h.2
    · simp only [hk, if_false, List.pairwise_cons]
      exact ⟨fun e he => h.1 e (Map.erase_subset m k e he), ih h.2⟩

theorem Map.mem_insert (m : Map α) (k : Nat) (v : α) (e : Nat × α) : e ∈ Map.insert m k v ↔ e = (k, v) ∨ e ∈ m := by
  induction m with
  | nil => simp [Map.insert]
  | cons x m ih =>
    obtain ⟨k', v'⟩ := x
    simp only [Map.insert]
    by_cases h : k < k'
    · simp [h]
    · simp only [h, if_false, List.mem_cons, ih]; tauto

theorem Map.insert_pairwise (m : Map α) (k : Nat) (v : α) (h : m.Pairwise (fun a b => a.1 < b.1)) (hk : ∀ e ∈ m, e.1 ≠ k) :
    (Map.insert m k v).Pairwise (fun a b => a.1 < b.1) := by
  induction m with
  | nil => simp [Map.insert]
  | cons x m ih =>
    obtain ⟨k', v'⟩ := x
    rw [List.pairwise_cons] at h
    simp only [Map.insert]
    have hne : k' ≠ k := hk (k', v') (by simp)
    by_cases hlt : k < k'
    · simp only [hlt, if_true, List.pairwise_cons, List.mem_cons]
      refine ⟨?_, h.1, h.2⟩
      rintro e (rfl | he)
      · exact hlt
      · exact lt_trans hlt (h.1 e he)
    · simp only [hlt, if_false, List.pairwise_cons]
      refine ⟨fun e he => ?_, ih h.2 (fun e he => hk e (List.mem_cons_of_mem _ he))⟩
      rcases (Map.mem_insert m k v e).1 he with rfl | he
      · simp only; omega
      · exact h.1 e he

/-- A write keeps the canonical form. -/
theorem Map.set_wf [DecidableEq α] (dflt : Nat → α) (m : Map α) (k : Nat) (v : α) (h : Map.wf dflt m = true) :
    Map.wf dflt (Map.set (dflt k) m k v) = true := by
  simp only [Map.wf, Bool.and_eq_true, Map.rising_iff, List.all_eq_true, Bool.not_eq_true', decide_eq_false_iff_not] at h ⊢
  obtain ⟨⟨-, hp⟩, hd⟩ := h
  have he := Map.erase_pairwise m k hp
  have hde : ∀ e ∈ Map.erase m k, ¬ e.2 = dflt e.1 := fun e h => hd e (Map.erase_subset m k e h)
  unfold Map.set
  by_cases hv : v = dflt k
  · simp only [hv, if_true]
    exact ⟨⟨by simp [Map.above], he⟩, hde⟩
  · simp only [hv, if_false]
    refine ⟨⟨by simp [Map.above], Map.insert_pairwise _ _ _ he (Map.erase_keys m k)⟩, ?_⟩
    intro e hm
    rcases (Map.mem_insert _ k v e).1 hm with rfl | hm
    · exact hv
    · exact hde e hm

/-- A run of writes keeps the canonical form. -/
theorem Map.setRun_wf [DecidableEq α] (dflt : α) (m : Map α) (k : Nat) (vs : List α) (h : Map.wf (fun _ => dflt) m = true) :
    Map.wf (fun _ => dflt) (Map.setRun dflt m k vs) = true := by
  induction vs generalizing m k with
  | nil => simpa [Map.setRun] using h
  | cons v vs ih => exact ih _ _ (Map.set_wf (fun _ => dflt) m k v h)

/-- A run of writes is read back, and every other key reads as before. -/
theorem Map.get_setRun [DecidableEq α] (dflt : α) (m : Map α) (k j : Nat) (vs : List α) :
    Map.get dflt (Map.setRun dflt m k vs) j = if k ≤ j ∧ j < k + vs.length then vs.getD (j - k) dflt else Map.get dflt m j := by
  induction vs generalizing m k with
  | nil => simp [Map.setRun]
  | cons v vs ih =>
    simp only [Map.setRun, ih, Map.get_set, List.length_cons]
    by_cases h1 : k + 1 ≤ j ∧ j < k + 1 + vs.length
    · have h2 : k ≤ j ∧ j < k + (vs.length + 1) := by omega
      have h3 : j - k = (j - (k + 1)) + 1 := by omega
      rw [if_pos h1, if_pos h2, h3, List.getD_cons_succ]
    · by_cases h2 : j = k
      · subst h2
        simp
      · have h3 : ¬ (k ≤ j ∧ j < k + (vs.length + 1)) := by omega
        rw [if_neg h1, if_neg h3, if_neg h2]

/-- Emptying a window keeps the canonical form. -/
theorem Map.dropWindow_wf [DecidableEq α] (dflt : Nat → α) (m : Map α) (lo hi : Nat) (hl : lo ≤ hi) (h : Map.wf dflt m = true) :
    Map.wf dflt (Map.dropWindow m lo hi) = true := by
  simp only [Map.wf, Bool.and_eq_true, Map.rising_iff, List.all_eq_true, Bool.not_eq_true', decide_eq_false_iff_not] at h ⊢
  obtain ⟨⟨-, hp⟩, hd⟩ := h
  have e : Map.dropWindow m lo hi = m.filter (fun e => decide (e.1 < lo)) ++ m.filter (fun e => decide (hi ≤ e.1)) := by
    simp [Map.dropWindow, Map.replaceWindow, Map.window]
  rw [e]
  refine ⟨⟨by simp [Map.above], List.pairwise_append.2 ⟨hp.filter _, hp.filter _, ?_⟩⟩, ?_⟩
  · intro a ha b hb
    simp only [List.mem_filter, decide_eq_true_eq] at ha hb
    omega
  · intro a ha
    simp only [List.mem_append, List.mem_filter] at ha
    rcases ha with ha | ha
    · exact hd a ha.1
    · exact hd a ha.1

end Sys2Proof.Machine
end

