-- ==== Sys2Proof/Laws/State.lean ====
section
/-! SUPPORT. What each update of one part of Fradra leaves and what it changes: one lemma per field per update. -/
namespace Sys2Proof.Machine
open Sys2Proof

/-! ## onPlat -/

@[simp] theorem Dev.onPlat_regs (d : Dev) (f : Plat → Plat) : (d.onPlat f).regs = d.regs := rfl
@[simp] theorem Dev.onPlat_force (d : Dev) (f : Plat → Plat) : (d.onPlat f).force = d.force := rfl
@[simp] theorem Dev.onPlat_shadow (d : Dev) (f : Plat → Plat) : (d.onPlat f).shadow = d.shadow := rfl
@[simp] theorem Dev.onPlat_plat (d : Dev) (f : Plat → Plat) : (d.onPlat f).plat = f d.plat := rfl
@[simp] theorem Dev.onPlat_mram (d : Dev) (f : Plat → Plat) : (d.onPlat f).mram = d.mram := rfl
@[simp] theorem Dev.onPlat_cst (d : Dev) (f : Plat → Plat) : (d.onPlat f).cst = d.cst := rfl
@[simp] theorem Dev.onPlat_bpm (d : Dev) (f : Plat → Plat) : (d.onPlat f).bpm = d.bpm := rfl
@[simp] theorem Dev.onPlat_mc (d : Dev) (f : Plat → Plat) : (d.onPlat f).mc = d.mc := rfl
@[simp] theorem Dev.onPlat_ing (d : Dev) (f : Plat → Plat) : (d.onPlat f).ing = d.ing := rfl
@[simp] theorem Dev.onPlat_sfl (d : Dev) (f : Plat → Plat) : (d.onPlat f).sfl = d.sfl := rfl
@[simp] theorem Dev.onPlat_par (d : Dev) (f : Plat → Plat) : (d.onPlat f).par = d.par := rfl
@[simp] theorem Dev.onPlat_hat (d : Dev) (f : Plat → Plat) : (d.onPlat f).hat = d.hat := rfl
@[simp] theorem Dev.onPlat_odr (d : Dev) (f : Plat → Plat) : (d.onPlat f).odr = d.odr := rfl
@[simp] theorem Dev.onPlat_srv (d : Dev) (f : Plat → Plat) : (d.onPlat f).srv = d.srv := rfl
@[simp] theorem Dev.onPlat_mot (d : Dev) (f : Plat → Plat) : (d.onPlat f).mot = d.mot := rfl
@[simp] theorem Dev.onPlat_cal (d : Dev) (f : Plat → Plat) : (d.onPlat f).cal = d.cal := rfl
@[simp] theorem Dev.onPlat_freeCtr (d : Dev) (f : Plat → Plat) : (d.onPlat f).freeCtr = d.freeCtr := rfl
@[simp] theorem Dev.onPlat_readVal (d : Dev) (f : Plat → Plat) : (d.onPlat f).readVal = d.readVal := rfl
@[simp] theorem Dev.onPlat_out (d : Dev) (f : Plat → Plat) : (d.onPlat f).out = d.out := rfl

/-! ## onMram -/

@[simp] theorem Dev.onMram_regs (d : Dev) (f : Mram → Mram) : (d.onMram f).regs = d.regs := rfl
@[simp] theorem Dev.onMram_force (d : Dev) (f : Mram → Mram) : (d.onMram f).force = d.force := rfl
@[simp] theorem Dev.onMram_shadow (d : Dev) (f : Mram → Mram) : (d.onMram f).shadow = d.shadow := rfl
@[simp] theorem Dev.onMram_plat (d : Dev) (f : Mram → Mram) : (d.onMram f).plat = d.plat := rfl
@[simp] theorem Dev.onMram_mram (d : Dev) (f : Mram → Mram) : (d.onMram f).mram = f d.mram := rfl
@[simp] theorem Dev.onMram_cst (d : Dev) (f : Mram → Mram) : (d.onMram f).cst = d.cst := rfl
@[simp] theorem Dev.onMram_bpm (d : Dev) (f : Mram → Mram) : (d.onMram f).bpm = d.bpm := rfl
@[simp] theorem Dev.onMram_mc (d : Dev) (f : Mram → Mram) : (d.onMram f).mc = d.mc := rfl
@[simp] theorem Dev.onMram_ing (d : Dev) (f : Mram → Mram) : (d.onMram f).ing = d.ing := rfl
@[simp] theorem Dev.onMram_sfl (d : Dev) (f : Mram → Mram) : (d.onMram f).sfl = d.sfl := rfl
@[simp] theorem Dev.onMram_par (d : Dev) (f : Mram → Mram) : (d.onMram f).par = d.par := rfl
@[simp] theorem Dev.onMram_hat (d : Dev) (f : Mram → Mram) : (d.onMram f).hat = d.hat := rfl
@[simp] theorem Dev.onMram_odr (d : Dev) (f : Mram → Mram) : (d.onMram f).odr = d.odr := rfl
@[simp] theorem Dev.onMram_srv (d : Dev) (f : Mram → Mram) : (d.onMram f).srv = d.srv := rfl
@[simp] theorem Dev.onMram_mot (d : Dev) (f : Mram → Mram) : (d.onMram f).mot = d.mot := rfl
@[simp] theorem Dev.onMram_cal (d : Dev) (f : Mram → Mram) : (d.onMram f).cal = d.cal := rfl
@[simp] theorem Dev.onMram_freeCtr (d : Dev) (f : Mram → Mram) : (d.onMram f).freeCtr = d.freeCtr := rfl
@[simp] theorem Dev.onMram_readVal (d : Dev) (f : Mram → Mram) : (d.onMram f).readVal = d.readVal := rfl
@[simp] theorem Dev.onMram_out (d : Dev) (f : Mram → Mram) : (d.onMram f).out = d.out := rfl

/-! ## onCst -/

@[simp] theorem Dev.onCst_regs (d : Dev) (f : Cst → Cst) : (d.onCst f).regs = d.regs := rfl
@[simp] theorem Dev.onCst_force (d : Dev) (f : Cst → Cst) : (d.onCst f).force = d.force := rfl
@[simp] theorem Dev.onCst_shadow (d : Dev) (f : Cst → Cst) : (d.onCst f).shadow = d.shadow := rfl
@[simp] theorem Dev.onCst_plat (d : Dev) (f : Cst → Cst) : (d.onCst f).plat = d.plat := rfl
@[simp] theorem Dev.onCst_mram (d : Dev) (f : Cst → Cst) : (d.onCst f).mram = d.mram := rfl
@[simp] theorem Dev.onCst_cst (d : Dev) (f : Cst → Cst) : (d.onCst f).cst = f d.cst := rfl
@[simp] theorem Dev.onCst_bpm (d : Dev) (f : Cst → Cst) : (d.onCst f).bpm = d.bpm := rfl
@[simp] theorem Dev.onCst_mc (d : Dev) (f : Cst → Cst) : (d.onCst f).mc = d.mc := rfl
@[simp] theorem Dev.onCst_ing (d : Dev) (f : Cst → Cst) : (d.onCst f).ing = d.ing := rfl
@[simp] theorem Dev.onCst_sfl (d : Dev) (f : Cst → Cst) : (d.onCst f).sfl = d.sfl := rfl
@[simp] theorem Dev.onCst_par (d : Dev) (f : Cst → Cst) : (d.onCst f).par = d.par := rfl
@[simp] theorem Dev.onCst_hat (d : Dev) (f : Cst → Cst) : (d.onCst f).hat = d.hat := rfl
@[simp] theorem Dev.onCst_odr (d : Dev) (f : Cst → Cst) : (d.onCst f).odr = d.odr := rfl
@[simp] theorem Dev.onCst_srv (d : Dev) (f : Cst → Cst) : (d.onCst f).srv = d.srv := rfl
@[simp] theorem Dev.onCst_mot (d : Dev) (f : Cst → Cst) : (d.onCst f).mot = d.mot := rfl
@[simp] theorem Dev.onCst_cal (d : Dev) (f : Cst → Cst) : (d.onCst f).cal = d.cal := rfl
@[simp] theorem Dev.onCst_freeCtr (d : Dev) (f : Cst → Cst) : (d.onCst f).freeCtr = d.freeCtr := rfl
@[simp] theorem Dev.onCst_readVal (d : Dev) (f : Cst → Cst) : (d.onCst f).readVal = d.readVal := rfl
@[simp] theorem Dev.onCst_out (d : Dev) (f : Cst → Cst) : (d.onCst f).out = d.out := rfl

/-! ## onBpm -/

@[simp] theorem Dev.onBpm_regs (d : Dev) (f : Bpm → Bpm) : (d.onBpm f).regs = d.regs := rfl
@[simp] theorem Dev.onBpm_force (d : Dev) (f : Bpm → Bpm) : (d.onBpm f).force = d.force := rfl
@[simp] theorem Dev.onBpm_shadow (d : Dev) (f : Bpm → Bpm) : (d.onBpm f).shadow = d.shadow := rfl
@[simp] theorem Dev.onBpm_plat (d : Dev) (f : Bpm → Bpm) : (d.onBpm f).plat = d.plat := rfl
@[simp] theorem Dev.onBpm_mram (d : Dev) (f : Bpm → Bpm) : (d.onBpm f).mram = d.mram := rfl
@[simp] theorem Dev.onBpm_cst (d : Dev) (f : Bpm → Bpm) : (d.onBpm f).cst = d.cst := rfl
@[simp] theorem Dev.onBpm_bpm (d : Dev) (f : Bpm → Bpm) : (d.onBpm f).bpm = f d.bpm := rfl
@[simp] theorem Dev.onBpm_mc (d : Dev) (f : Bpm → Bpm) : (d.onBpm f).mc = d.mc := rfl
@[simp] theorem Dev.onBpm_ing (d : Dev) (f : Bpm → Bpm) : (d.onBpm f).ing = d.ing := rfl
@[simp] theorem Dev.onBpm_sfl (d : Dev) (f : Bpm → Bpm) : (d.onBpm f).sfl = d.sfl := rfl
@[simp] theorem Dev.onBpm_par (d : Dev) (f : Bpm → Bpm) : (d.onBpm f).par = d.par := rfl
@[simp] theorem Dev.onBpm_hat (d : Dev) (f : Bpm → Bpm) : (d.onBpm f).hat = d.hat := rfl
@[simp] theorem Dev.onBpm_odr (d : Dev) (f : Bpm → Bpm) : (d.onBpm f).odr = d.odr := rfl
@[simp] theorem Dev.onBpm_srv (d : Dev) (f : Bpm → Bpm) : (d.onBpm f).srv = d.srv := rfl
@[simp] theorem Dev.onBpm_mot (d : Dev) (f : Bpm → Bpm) : (d.onBpm f).mot = d.mot := rfl
@[simp] theorem Dev.onBpm_cal (d : Dev) (f : Bpm → Bpm) : (d.onBpm f).cal = d.cal := rfl
@[simp] theorem Dev.onBpm_freeCtr (d : Dev) (f : Bpm → Bpm) : (d.onBpm f).freeCtr = d.freeCtr := rfl
@[simp] theorem Dev.onBpm_readVal (d : Dev) (f : Bpm → Bpm) : (d.onBpm f).readVal = d.readVal := rfl
@[simp] theorem Dev.onBpm_out (d : Dev) (f : Bpm → Bpm) : (d.onBpm f).out = d.out := rfl

/-! ## onMc -/

@[simp] theorem Dev.onMc_regs (d : Dev) (f : Mc → Mc) : (d.onMc f).regs = d.regs := rfl
@[simp] theorem Dev.onMc_force (d : Dev) (f : Mc → Mc) : (d.onMc f).force = d.force := rfl
@[simp] theorem Dev.onMc_shadow (d : Dev) (f : Mc → Mc) : (d.onMc f).shadow = d.shadow := rfl
@[simp] theorem Dev.onMc_plat (d : Dev) (f : Mc → Mc) : (d.onMc f).plat = d.plat := rfl
@[simp] theorem Dev.onMc_mram (d : Dev) (f : Mc → Mc) : (d.onMc f).mram = d.mram := rfl
@[simp] theorem Dev.onMc_cst (d : Dev) (f : Mc → Mc) : (d.onMc f).cst = d.cst := rfl
@[simp] theorem Dev.onMc_bpm (d : Dev) (f : Mc → Mc) : (d.onMc f).bpm = d.bpm := rfl
@[simp] theorem Dev.onMc_mc (d : Dev) (f : Mc → Mc) : (d.onMc f).mc = f d.mc := rfl
@[simp] theorem Dev.onMc_ing (d : Dev) (f : Mc → Mc) : (d.onMc f).ing = d.ing := rfl
@[simp] theorem Dev.onMc_sfl (d : Dev) (f : Mc → Mc) : (d.onMc f).sfl = d.sfl := rfl
@[simp] theorem Dev.onMc_par (d : Dev) (f : Mc → Mc) : (d.onMc f).par = d.par := rfl
@[simp] theorem Dev.onMc_hat (d : Dev) (f : Mc → Mc) : (d.onMc f).hat = d.hat := rfl
@[simp] theorem Dev.onMc_odr (d : Dev) (f : Mc → Mc) : (d.onMc f).odr = d.odr := rfl
@[simp] theorem Dev.onMc_srv (d : Dev) (f : Mc → Mc) : (d.onMc f).srv = d.srv := rfl
@[simp] theorem Dev.onMc_mot (d : Dev) (f : Mc → Mc) : (d.onMc f).mot = d.mot := rfl
@[simp] theorem Dev.onMc_cal (d : Dev) (f : Mc → Mc) : (d.onMc f).cal = d.cal := rfl
@[simp] theorem Dev.onMc_freeCtr (d : Dev) (f : Mc → Mc) : (d.onMc f).freeCtr = d.freeCtr := rfl
@[simp] theorem Dev.onMc_readVal (d : Dev) (f : Mc → Mc) : (d.onMc f).readVal = d.readVal := rfl
@[simp] theorem Dev.onMc_out (d : Dev) (f : Mc → Mc) : (d.onMc f).out = d.out := rfl

/-! ## onIng -/

@[simp] theorem Dev.onIng_regs (d : Dev) (f : Ing → Ing) : (d.onIng f).regs = d.regs := rfl
@[simp] theorem Dev.onIng_force (d : Dev) (f : Ing → Ing) : (d.onIng f).force = d.force := rfl
@[simp] theorem Dev.onIng_shadow (d : Dev) (f : Ing → Ing) : (d.onIng f).shadow = d.shadow := rfl
@[simp] theorem Dev.onIng_plat (d : Dev) (f : Ing → Ing) : (d.onIng f).plat = d.plat := rfl
@[simp] theorem Dev.onIng_mram (d : Dev) (f : Ing → Ing) : (d.onIng f).mram = d.mram := rfl
@[simp] theorem Dev.onIng_cst (d : Dev) (f : Ing → Ing) : (d.onIng f).cst = d.cst := rfl
@[simp] theorem Dev.onIng_bpm (d : Dev) (f : Ing → Ing) : (d.onIng f).bpm = d.bpm := rfl
@[simp] theorem Dev.onIng_mc (d : Dev) (f : Ing → Ing) : (d.onIng f).mc = d.mc := rfl
@[simp] theorem Dev.onIng_ing (d : Dev) (f : Ing → Ing) : (d.onIng f).ing = f d.ing := rfl
@[simp] theorem Dev.onIng_sfl (d : Dev) (f : Ing → Ing) : (d.onIng f).sfl = d.sfl := rfl
@[simp] theorem Dev.onIng_par (d : Dev) (f : Ing → Ing) : (d.onIng f).par = d.par := rfl
@[simp] theorem Dev.onIng_hat (d : Dev) (f : Ing → Ing) : (d.onIng f).hat = d.hat := rfl
@[simp] theorem Dev.onIng_odr (d : Dev) (f : Ing → Ing) : (d.onIng f).odr = d.odr := rfl
@[simp] theorem Dev.onIng_srv (d : Dev) (f : Ing → Ing) : (d.onIng f).srv = d.srv := rfl
@[simp] theorem Dev.onIng_mot (d : Dev) (f : Ing → Ing) : (d.onIng f).mot = d.mot := rfl
@[simp] theorem Dev.onIng_cal (d : Dev) (f : Ing → Ing) : (d.onIng f).cal = d.cal := rfl
@[simp] theorem Dev.onIng_freeCtr (d : Dev) (f : Ing → Ing) : (d.onIng f).freeCtr = d.freeCtr := rfl
@[simp] theorem Dev.onIng_readVal (d : Dev) (f : Ing → Ing) : (d.onIng f).readVal = d.readVal := rfl
@[simp] theorem Dev.onIng_out (d : Dev) (f : Ing → Ing) : (d.onIng f).out = d.out := rfl

/-! ## onSfl -/

@[simp] theorem Dev.onSfl_regs (d : Dev) (f : Sfl → Sfl) : (d.onSfl f).regs = d.regs := rfl
@[simp] theorem Dev.onSfl_force (d : Dev) (f : Sfl → Sfl) : (d.onSfl f).force = d.force := rfl
@[simp] theorem Dev.onSfl_shadow (d : Dev) (f : Sfl → Sfl) : (d.onSfl f).shadow = d.shadow := rfl
@[simp] theorem Dev.onSfl_plat (d : Dev) (f : Sfl → Sfl) : (d.onSfl f).plat = d.plat := rfl
@[simp] theorem Dev.onSfl_mram (d : Dev) (f : Sfl → Sfl) : (d.onSfl f).mram = d.mram := rfl
@[simp] theorem Dev.onSfl_cst (d : Dev) (f : Sfl → Sfl) : (d.onSfl f).cst = d.cst := rfl
@[simp] theorem Dev.onSfl_bpm (d : Dev) (f : Sfl → Sfl) : (d.onSfl f).bpm = d.bpm := rfl
@[simp] theorem Dev.onSfl_mc (d : Dev) (f : Sfl → Sfl) : (d.onSfl f).mc = d.mc := rfl
@[simp] theorem Dev.onSfl_ing (d : Dev) (f : Sfl → Sfl) : (d.onSfl f).ing = d.ing := rfl
@[simp] theorem Dev.onSfl_sfl (d : Dev) (f : Sfl → Sfl) : (d.onSfl f).sfl = f d.sfl := rfl
@[simp] theorem Dev.onSfl_par (d : Dev) (f : Sfl → Sfl) : (d.onSfl f).par = d.par := rfl
@[simp] theorem Dev.onSfl_hat (d : Dev) (f : Sfl → Sfl) : (d.onSfl f).hat = d.hat := rfl
@[simp] theorem Dev.onSfl_odr (d : Dev) (f : Sfl → Sfl) : (d.onSfl f).odr = d.odr := rfl
@[simp] theorem Dev.onSfl_srv (d : Dev) (f : Sfl → Sfl) : (d.onSfl f).srv = d.srv := rfl
@[simp] theorem Dev.onSfl_mot (d : Dev) (f : Sfl → Sfl) : (d.onSfl f).mot = d.mot := rfl
@[simp] theorem Dev.onSfl_cal (d : Dev) (f : Sfl → Sfl) : (d.onSfl f).cal = d.cal := rfl
@[simp] theorem Dev.onSfl_freeCtr (d : Dev) (f : Sfl → Sfl) : (d.onSfl f).freeCtr = d.freeCtr := rfl
@[simp] theorem Dev.onSfl_readVal (d : Dev) (f : Sfl → Sfl) : (d.onSfl f).readVal = d.readVal := rfl
@[simp] theorem Dev.onSfl_out (d : Dev) (f : Sfl → Sfl) : (d.onSfl f).out = d.out := rfl

/-! ## onPar -/

@[simp] theorem Dev.onPar_regs (d : Dev) (f : Par → Par) : (d.onPar f).regs = d.regs := rfl
@[simp] theorem Dev.onPar_force (d : Dev) (f : Par → Par) : (d.onPar f).force = d.force := rfl
@[simp] theorem Dev.onPar_shadow (d : Dev) (f : Par → Par) : (d.onPar f).shadow = d.shadow := rfl
@[simp] theorem Dev.onPar_plat (d : Dev) (f : Par → Par) : (d.onPar f).plat = d.plat := rfl
@[simp] theorem Dev.onPar_mram (d : Dev) (f : Par → Par) : (d.onPar f).mram = d.mram := rfl
@[simp] theorem Dev.onPar_cst (d : Dev) (f : Par → Par) : (d.onPar f).cst = d.cst := rfl
@[simp] theorem Dev.onPar_bpm (d : Dev) (f : Par → Par) : (d.onPar f).bpm = d.bpm := rfl
@[simp] theorem Dev.onPar_mc (d : Dev) (f : Par → Par) : (d.onPar f).mc = d.mc := rfl
@[simp] theorem Dev.onPar_ing (d : Dev) (f : Par → Par) : (d.onPar f).ing = d.ing := rfl
@[simp] theorem Dev.onPar_sfl (d : Dev) (f : Par → Par) : (d.onPar f).sfl = d.sfl := rfl
@[simp] theorem Dev.onPar_par (d : Dev) (f : Par → Par) : (d.onPar f).par = f d.par := rfl
@[simp] theorem Dev.onPar_hat (d : Dev) (f : Par → Par) : (d.onPar f).hat = d.hat := rfl
@[simp] theorem Dev.onPar_odr (d : Dev) (f : Par → Par) : (d.onPar f).odr = d.odr := rfl
@[simp] theorem Dev.onPar_srv (d : Dev) (f : Par → Par) : (d.onPar f).srv = d.srv := rfl
@[simp] theorem Dev.onPar_mot (d : Dev) (f : Par → Par) : (d.onPar f).mot = d.mot := rfl
@[simp] theorem Dev.onPar_cal (d : Dev) (f : Par → Par) : (d.onPar f).cal = d.cal := rfl
@[simp] theorem Dev.onPar_freeCtr (d : Dev) (f : Par → Par) : (d.onPar f).freeCtr = d.freeCtr := rfl
@[simp] theorem Dev.onPar_readVal (d : Dev) (f : Par → Par) : (d.onPar f).readVal = d.readVal := rfl
@[simp] theorem Dev.onPar_out (d : Dev) (f : Par → Par) : (d.onPar f).out = d.out := rfl

/-! ## onHat -/

@[simp] theorem Dev.onHat_regs (d : Dev) (f : Hat → Hat) : (d.onHat f).regs = d.regs := rfl
@[simp] theorem Dev.onHat_force (d : Dev) (f : Hat → Hat) : (d.onHat f).force = d.force := rfl
@[simp] theorem Dev.onHat_shadow (d : Dev) (f : Hat → Hat) : (d.onHat f).shadow = d.shadow := rfl
@[simp] theorem Dev.onHat_plat (d : Dev) (f : Hat → Hat) : (d.onHat f).plat = d.plat := rfl
@[simp] theorem Dev.onHat_mram (d : Dev) (f : Hat → Hat) : (d.onHat f).mram = d.mram := rfl
@[simp] theorem Dev.onHat_cst (d : Dev) (f : Hat → Hat) : (d.onHat f).cst = d.cst := rfl
@[simp] theorem Dev.onHat_bpm (d : Dev) (f : Hat → Hat) : (d.onHat f).bpm = d.bpm := rfl
@[simp] theorem Dev.onHat_mc (d : Dev) (f : Hat → Hat) : (d.onHat f).mc = d.mc := rfl
@[simp] theorem Dev.onHat_ing (d : Dev) (f : Hat → Hat) : (d.onHat f).ing = d.ing := rfl
@[simp] theorem Dev.onHat_sfl (d : Dev) (f : Hat → Hat) : (d.onHat f).sfl = d.sfl := rfl
@[simp] theorem Dev.onHat_par (d : Dev) (f : Hat → Hat) : (d.onHat f).par = d.par := rfl
@[simp] theorem Dev.onHat_hat (d : Dev) (f : Hat → Hat) : (d.onHat f).hat = f d.hat := rfl
@[simp] theorem Dev.onHat_odr (d : Dev) (f : Hat → Hat) : (d.onHat f).odr = d.odr := rfl
@[simp] theorem Dev.onHat_srv (d : Dev) (f : Hat → Hat) : (d.onHat f).srv = d.srv := rfl
@[simp] theorem Dev.onHat_mot (d : Dev) (f : Hat → Hat) : (d.onHat f).mot = d.mot := rfl
@[simp] theorem Dev.onHat_cal (d : Dev) (f : Hat → Hat) : (d.onHat f).cal = d.cal := rfl
@[simp] theorem Dev.onHat_freeCtr (d : Dev) (f : Hat → Hat) : (d.onHat f).freeCtr = d.freeCtr := rfl
@[simp] theorem Dev.onHat_readVal (d : Dev) (f : Hat → Hat) : (d.onHat f).readVal = d.readVal := rfl
@[simp] theorem Dev.onHat_out (d : Dev) (f : Hat → Hat) : (d.onHat f).out = d.out := rfl

/-! ## onOdr -/

@[simp] theorem Dev.onOdr_regs (d : Dev) (f : Odr → Odr) : (d.onOdr f).regs = d.regs := rfl
@[simp] theorem Dev.onOdr_force (d : Dev) (f : Odr → Odr) : (d.onOdr f).force = d.force := rfl
@[simp] theorem Dev.onOdr_shadow (d : Dev) (f : Odr → Odr) : (d.onOdr f).shadow = d.shadow := rfl
@[simp] theorem Dev.onOdr_plat (d : Dev) (f : Odr → Odr) : (d.onOdr f).plat = d.plat := rfl
@[simp] theorem Dev.onOdr_mram (d : Dev) (f : Odr → Odr) : (d.onOdr f).mram = d.mram := rfl
@[simp] theorem Dev.onOdr_cst (d : Dev) (f : Odr → Odr) : (d.onOdr f).cst = d.cst := rfl
@[simp] theorem Dev.onOdr_bpm (d : Dev) (f : Odr → Odr) : (d.onOdr f).bpm = d.bpm := rfl
@[simp] theorem Dev.onOdr_mc (d : Dev) (f : Odr → Odr) : (d.onOdr f).mc = d.mc := rfl
@[simp] theorem Dev.onOdr_ing (d : Dev) (f : Odr → Odr) : (d.onOdr f).ing = d.ing := rfl
@[simp] theorem Dev.onOdr_sfl (d : Dev) (f : Odr → Odr) : (d.onOdr f).sfl = d.sfl := rfl
@[simp] theorem Dev.onOdr_par (d : Dev) (f : Odr → Odr) : (d.onOdr f).par = d.par := rfl
@[simp] theorem Dev.onOdr_hat (d : Dev) (f : Odr → Odr) : (d.onOdr f).hat = d.hat := rfl
@[simp] theorem Dev.onOdr_odr (d : Dev) (f : Odr → Odr) : (d.onOdr f).odr = f d.odr := rfl
@[simp] theorem Dev.onOdr_srv (d : Dev) (f : Odr → Odr) : (d.onOdr f).srv = d.srv := rfl
@[simp] theorem Dev.onOdr_mot (d : Dev) (f : Odr → Odr) : (d.onOdr f).mot = d.mot := rfl
@[simp] theorem Dev.onOdr_cal (d : Dev) (f : Odr → Odr) : (d.onOdr f).cal = d.cal := rfl
@[simp] theorem Dev.onOdr_freeCtr (d : Dev) (f : Odr → Odr) : (d.onOdr f).freeCtr = d.freeCtr := rfl
@[simp] theorem Dev.onOdr_readVal (d : Dev) (f : Odr → Odr) : (d.onOdr f).readVal = d.readVal := rfl
@[simp] theorem Dev.onOdr_out (d : Dev) (f : Odr → Odr) : (d.onOdr f).out = d.out := rfl

/-! ## onSrv -/

@[simp] theorem Dev.onSrv_regs (d : Dev) (f : Srv → Srv) : (d.onSrv f).regs = d.regs := rfl
@[simp] theorem Dev.onSrv_force (d : Dev) (f : Srv → Srv) : (d.onSrv f).force = d.force := rfl
@[simp] theorem Dev.onSrv_shadow (d : Dev) (f : Srv → Srv) : (d.onSrv f).shadow = d.shadow := rfl
@[simp] theorem Dev.onSrv_plat (d : Dev) (f : Srv → Srv) : (d.onSrv f).plat = d.plat := rfl
@[simp] theorem Dev.onSrv_mram (d : Dev) (f : Srv → Srv) : (d.onSrv f).mram = d.mram := rfl
@[simp] theorem Dev.onSrv_cst (d : Dev) (f : Srv → Srv) : (d.onSrv f).cst = d.cst := rfl
@[simp] theorem Dev.onSrv_bpm (d : Dev) (f : Srv → Srv) : (d.onSrv f).bpm = d.bpm := rfl
@[simp] theorem Dev.onSrv_mc (d : Dev) (f : Srv → Srv) : (d.onSrv f).mc = d.mc := rfl
@[simp] theorem Dev.onSrv_ing (d : Dev) (f : Srv → Srv) : (d.onSrv f).ing = d.ing := rfl
@[simp] theorem Dev.onSrv_sfl (d : Dev) (f : Srv → Srv) : (d.onSrv f).sfl = d.sfl := rfl
@[simp] theorem Dev.onSrv_par (d : Dev) (f : Srv → Srv) : (d.onSrv f).par = d.par := rfl
@[simp] theorem Dev.onSrv_hat (d : Dev) (f : Srv → Srv) : (d.onSrv f).hat = d.hat := rfl
@[simp] theorem Dev.onSrv_odr (d : Dev) (f : Srv → Srv) : (d.onSrv f).odr = d.odr := rfl
@[simp] theorem Dev.onSrv_srv (d : Dev) (f : Srv → Srv) : (d.onSrv f).srv = f d.srv := rfl
@[simp] theorem Dev.onSrv_mot (d : Dev) (f : Srv → Srv) : (d.onSrv f).mot = d.mot := rfl
@[simp] theorem Dev.onSrv_cal (d : Dev) (f : Srv → Srv) : (d.onSrv f).cal = d.cal := rfl
@[simp] theorem Dev.onSrv_freeCtr (d : Dev) (f : Srv → Srv) : (d.onSrv f).freeCtr = d.freeCtr := rfl
@[simp] theorem Dev.onSrv_readVal (d : Dev) (f : Srv → Srv) : (d.onSrv f).readVal = d.readVal := rfl
@[simp] theorem Dev.onSrv_out (d : Dev) (f : Srv → Srv) : (d.onSrv f).out = d.out := rfl

/-! ## onMot -/

@[simp] theorem Dev.onMot_regs (d : Dev) (f : Mot → Mot) : (d.onMot f).regs = d.regs := rfl
@[simp] theorem Dev.onMot_force (d : Dev) (f : Mot → Mot) : (d.onMot f).force = d.force := rfl
@[simp] theorem Dev.onMot_shadow (d : Dev) (f : Mot → Mot) : (d.onMot f).shadow = d.shadow := rfl
@[simp] theorem Dev.onMot_plat (d : Dev) (f : Mot → Mot) : (d.onMot f).plat = d.plat := rfl
@[simp] theorem Dev.onMot_mram (d : Dev) (f : Mot → Mot) : (d.onMot f).mram = d.mram := rfl
@[simp] theorem Dev.onMot_cst (d : Dev) (f : Mot → Mot) : (d.onMot f).cst = d.cst := rfl
@[simp] theorem Dev.onMot_bpm (d : Dev) (f : Mot → Mot) : (d.onMot f).bpm = d.bpm := rfl
@[simp] theorem Dev.onMot_mc (d : Dev) (f : Mot → Mot) : (d.onMot f).mc = d.mc := rfl
@[simp] theorem Dev.onMot_ing (d : Dev) (f : Mot → Mot) : (d.onMot f).ing = d.ing := rfl
@[simp] theorem Dev.onMot_sfl (d : Dev) (f : Mot → Mot) : (d.onMot f).sfl = d.sfl := rfl
@[simp] theorem Dev.onMot_par (d : Dev) (f : Mot → Mot) : (d.onMot f).par = d.par := rfl
@[simp] theorem Dev.onMot_hat (d : Dev) (f : Mot → Mot) : (d.onMot f).hat = d.hat := rfl
@[simp] theorem Dev.onMot_odr (d : Dev) (f : Mot → Mot) : (d.onMot f).odr = d.odr := rfl
@[simp] theorem Dev.onMot_srv (d : Dev) (f : Mot → Mot) : (d.onMot f).srv = d.srv := rfl
@[simp] theorem Dev.onMot_mot (d : Dev) (f : Mot → Mot) : (d.onMot f).mot = f d.mot := rfl
@[simp] theorem Dev.onMot_cal (d : Dev) (f : Mot → Mot) : (d.onMot f).cal = d.cal := rfl
@[simp] theorem Dev.onMot_freeCtr (d : Dev) (f : Mot → Mot) : (d.onMot f).freeCtr = d.freeCtr := rfl
@[simp] theorem Dev.onMot_readVal (d : Dev) (f : Mot → Mot) : (d.onMot f).readVal = d.readVal := rfl
@[simp] theorem Dev.onMot_out (d : Dev) (f : Mot → Mot) : (d.onMot f).out = d.out := rfl

/-! ## onCal -/

@[simp] theorem Dev.onCal_regs (d : Dev) (f : Cal → Cal) : (d.onCal f).regs = d.regs := rfl
@[simp] theorem Dev.onCal_force (d : Dev) (f : Cal → Cal) : (d.onCal f).force = d.force := rfl
@[simp] theorem Dev.onCal_shadow (d : Dev) (f : Cal → Cal) : (d.onCal f).shadow = d.shadow := rfl
@[simp] theorem Dev.onCal_plat (d : Dev) (f : Cal → Cal) : (d.onCal f).plat = d.plat := rfl
@[simp] theorem Dev.onCal_mram (d : Dev) (f : Cal → Cal) : (d.onCal f).mram = d.mram := rfl
@[simp] theorem Dev.onCal_cst (d : Dev) (f : Cal → Cal) : (d.onCal f).cst = d.cst := rfl
@[simp] theorem Dev.onCal_bpm (d : Dev) (f : Cal → Cal) : (d.onCal f).bpm = d.bpm := rfl
@[simp] theorem Dev.onCal_mc (d : Dev) (f : Cal → Cal) : (d.onCal f).mc = d.mc := rfl
@[simp] theorem Dev.onCal_ing (d : Dev) (f : Cal → Cal) : (d.onCal f).ing = d.ing := rfl
@[simp] theorem Dev.onCal_sfl (d : Dev) (f : Cal → Cal) : (d.onCal f).sfl = d.sfl := rfl
@[simp] theorem Dev.onCal_par (d : Dev) (f : Cal → Cal) : (d.onCal f).par = d.par := rfl
@[simp] theorem Dev.onCal_hat (d : Dev) (f : Cal → Cal) : (d.onCal f).hat = d.hat := rfl
@[simp] theorem Dev.onCal_odr (d : Dev) (f : Cal → Cal) : (d.onCal f).odr = d.odr := rfl
@[simp] theorem Dev.onCal_srv (d : Dev) (f : Cal → Cal) : (d.onCal f).srv = d.srv := rfl
@[simp] theorem Dev.onCal_mot (d : Dev) (f : Cal → Cal) : (d.onCal f).mot = d.mot := rfl
@[simp] theorem Dev.onCal_cal (d : Dev) (f : Cal → Cal) : (d.onCal f).cal = f d.cal := rfl
@[simp] theorem Dev.onCal_freeCtr (d : Dev) (f : Cal → Cal) : (d.onCal f).freeCtr = d.freeCtr := rfl
@[simp] theorem Dev.onCal_readVal (d : Dev) (f : Cal → Cal) : (d.onCal f).readVal = d.readVal := rfl
@[simp] theorem Dev.onCal_out (d : Dev) (f : Cal → Cal) : (d.onCal f).out = d.out := rfl

/-! ## setRaw -/

@[simp] theorem Dev.setRaw_regs (d : Dev) (a : Nat) (v : Word) : (d.setRaw a v).regs = Map.set (resetVal a) d.regs a v := rfl
@[simp] theorem Dev.setRaw_force (d : Dev) (a : Nat) (v : Word) : (d.setRaw a v).force = d.force := rfl
@[simp] theorem Dev.setRaw_shadow (d : Dev) (a : Nat) (v : Word) : (d.setRaw a v).shadow = d.shadow := rfl
@[simp] theorem Dev.setRaw_plat (d : Dev) (a : Nat) (v : Word) : (d.setRaw a v).plat = d.plat := rfl
@[simp] theorem Dev.setRaw_mram (d : Dev) (a : Nat) (v : Word) : (d.setRaw a v).mram = d.mram := rfl
@[simp] theorem Dev.setRaw_cst (d : Dev) (a : Nat) (v : Word) : (d.setRaw a v).cst = d.cst := rfl
@[simp] theorem Dev.setRaw_bpm (d : Dev) (a : Nat) (v : Word) : (d.setRaw a v).bpm = d.bpm := rfl
@[simp] theorem Dev.setRaw_mc (d : Dev) (a : Nat) (v : Word) : (d.setRaw a v).mc = d.mc := rfl
@[simp] theorem Dev.setRaw_ing (d : Dev) (a : Nat) (v : Word) : (d.setRaw a v).ing = d.ing := rfl
@[simp] theorem Dev.setRaw_sfl (d : Dev) (a : Nat) (v : Word) : (d.setRaw a v).sfl = d.sfl := rfl
@[simp] theorem Dev.setRaw_par (d : Dev) (a : Nat) (v : Word) : (d.setRaw a v).par = d.par := rfl
@[simp] theorem Dev.setRaw_hat (d : Dev) (a : Nat) (v : Word) : (d.setRaw a v).hat = d.hat := rfl
@[simp] theorem Dev.setRaw_odr (d : Dev) (a : Nat) (v : Word) : (d.setRaw a v).odr = d.odr := rfl
@[simp] theorem Dev.setRaw_srv (d : Dev) (a : Nat) (v : Word) : (d.setRaw a v).srv = d.srv := rfl
@[simp] theorem Dev.setRaw_mot (d : Dev) (a : Nat) (v : Word) : (d.setRaw a v).mot = d.mot := rfl
@[simp] theorem Dev.setRaw_cal (d : Dev) (a : Nat) (v : Word) : (d.setRaw a v).cal = d.cal := rfl
@[simp] theorem Dev.setRaw_freeCtr (d : Dev) (a : Nat) (v : Word) : (d.setRaw a v).freeCtr = d.freeCtr := rfl
@[simp] theorem Dev.setRaw_readVal (d : Dev) (a : Nat) (v : Word) : (d.setRaw a v).readVal = d.readVal := rfl
@[simp] theorem Dev.setRaw_out (d : Dev) (a : Nat) (v : Word) : (d.setRaw a v).out = d.out := rfl

/-! ## setForced -/

@[simp] theorem Dev.setForced_regs (d : Dev) (a : Nat) (v : Word) : (d.setForced a v).regs = d.regs := rfl
@[simp] theorem Dev.setForced_force (d : Dev) (a : Nat) (v : Word) : (d.setForced a v).force = Map.set (resetVal a) d.force a v := rfl
@[simp] theorem Dev.setForced_shadow (d : Dev) (a : Nat) (v : Word) : (d.setForced a v).shadow = d.shadow := rfl
@[simp] theorem Dev.setForced_plat (d : Dev) (a : Nat) (v : Word) : (d.setForced a v).plat = d.plat := rfl
@[simp] theorem Dev.setForced_mram (d : Dev) (a : Nat) (v : Word) : (d.setForced a v).mram = d.mram := rfl
@[simp] theorem Dev.setForced_cst (d : Dev) (a : Nat) (v : Word) : (d.setForced a v).cst = d.cst := rfl
@[simp] theorem Dev.setForced_bpm (d : Dev) (a : Nat) (v : Word) : (d.setForced a v).bpm = d.bpm := rfl
@[simp] theorem Dev.setForced_mc (d : Dev) (a : Nat) (v : Word) : (d.setForced a v).mc = d.mc := rfl
@[simp] theorem Dev.setForced_ing (d : Dev) (a : Nat) (v : Word) : (d.setForced a v).ing = d.ing := rfl
@[simp] theorem Dev.setForced_sfl (d : Dev) (a : Nat) (v : Word) : (d.setForced a v).sfl = d.sfl := rfl
@[simp] theorem Dev.setForced_par (d : Dev) (a : Nat) (v : Word) : (d.setForced a v).par = d.par := rfl
@[simp] theorem Dev.setForced_hat (d : Dev) (a : Nat) (v : Word) : (d.setForced a v).hat = d.hat := rfl
@[simp] theorem Dev.setForced_odr (d : Dev) (a : Nat) (v : Word) : (d.setForced a v).odr = d.odr := rfl
@[simp] theorem Dev.setForced_srv (d : Dev) (a : Nat) (v : Word) : (d.setForced a v).srv = d.srv := rfl
@[simp] theorem Dev.setForced_mot (d : Dev) (a : Nat) (v : Word) : (d.setForced a v).mot = d.mot := rfl
@[simp] theorem Dev.setForced_cal (d : Dev) (a : Nat) (v : Word) : (d.setForced a v).cal = d.cal := rfl
@[simp] theorem Dev.setForced_freeCtr (d : Dev) (a : Nat) (v : Word) : (d.setForced a v).freeCtr = d.freeCtr := rfl
@[simp] theorem Dev.setForced_readVal (d : Dev) (a : Nat) (v : Word) : (d.setForced a v).readVal = d.readVal := rfl
@[simp] theorem Dev.setForced_out (d : Dev) (a : Nat) (v : Word) : (d.setForced a v).out = d.out := rfl

/-! ## setShadowed -/

@[simp] theorem Dev.setShadowed_regs (d : Dev) (a : Nat) (v : Word) : (d.setShadowed a v).regs = d.regs := rfl
@[simp] theorem Dev.setShadowed_force (d : Dev) (a : Nat) (v : Word) : (d.setShadowed a v).force = d.force := rfl
@[simp] theorem Dev.setShadowed_shadow (d : Dev) (a : Nat) (v : Word) : (d.setShadowed a v).shadow = Map.set (resetVal a) d.shadow a v := rfl
@[simp] theorem Dev.setShadowed_plat (d : Dev) (a : Nat) (v : Word) : (d.setShadowed a v).plat = d.plat := rfl
@[simp] theorem Dev.setShadowed_mram (d : Dev) (a : Nat) (v : Word) : (d.setShadowed a v).mram = d.mram := rfl
@[simp] theorem Dev.setShadowed_cst (d : Dev) (a : Nat) (v : Word) : (d.setShadowed a v).cst = d.cst := rfl
@[simp] theorem Dev.setShadowed_bpm (d : Dev) (a : Nat) (v : Word) : (d.setShadowed a v).bpm = d.bpm := rfl
@[simp] theorem Dev.setShadowed_mc (d : Dev) (a : Nat) (v : Word) : (d.setShadowed a v).mc = d.mc := rfl
@[simp] theorem Dev.setShadowed_ing (d : Dev) (a : Nat) (v : Word) : (d.setShadowed a v).ing = d.ing := rfl
@[simp] theorem Dev.setShadowed_sfl (d : Dev) (a : Nat) (v : Word) : (d.setShadowed a v).sfl = d.sfl := rfl
@[simp] theorem Dev.setShadowed_par (d : Dev) (a : Nat) (v : Word) : (d.setShadowed a v).par = d.par := rfl
@[simp] theorem Dev.setShadowed_hat (d : Dev) (a : Nat) (v : Word) : (d.setShadowed a v).hat = d.hat := rfl
@[simp] theorem Dev.setShadowed_odr (d : Dev) (a : Nat) (v : Word) : (d.setShadowed a v).odr = d.odr := rfl
@[simp] theorem Dev.setShadowed_srv (d : Dev) (a : Nat) (v : Word) : (d.setShadowed a v).srv = d.srv := rfl
@[simp] theorem Dev.setShadowed_mot (d : Dev) (a : Nat) (v : Word) : (d.setShadowed a v).mot = d.mot := rfl
@[simp] theorem Dev.setShadowed_cal (d : Dev) (a : Nat) (v : Word) : (d.setShadowed a v).cal = d.cal := rfl
@[simp] theorem Dev.setShadowed_freeCtr (d : Dev) (a : Nat) (v : Word) : (d.setShadowed a v).freeCtr = d.freeCtr := rfl
@[simp] theorem Dev.setShadowed_readVal (d : Dev) (a : Nat) (v : Word) : (d.setShadowed a v).readVal = d.readVal := rfl
@[simp] theorem Dev.setShadowed_out (d : Dev) (a : Nat) (v : Word) : (d.setShadowed a v).out = d.out := rfl

/-! ## send -/

@[simp] theorem Dev.send_regs (d : Dev) (m : OutMsg) : (d.send m).regs = d.regs := rfl
@[simp] theorem Dev.send_force (d : Dev) (m : OutMsg) : (d.send m).force = d.force := rfl
@[simp] theorem Dev.send_shadow (d : Dev) (m : OutMsg) : (d.send m).shadow = d.shadow := rfl
@[simp] theorem Dev.send_plat (d : Dev) (m : OutMsg) : (d.send m).plat = d.plat := rfl
@[simp] theorem Dev.send_mram (d : Dev) (m : OutMsg) : (d.send m).mram = d.mram := rfl
@[simp] theorem Dev.send_cst (d : Dev) (m : OutMsg) : (d.send m).cst = d.cst := rfl
@[simp] theorem Dev.send_bpm (d : Dev) (m : OutMsg) : (d.send m).bpm = d.bpm := rfl
@[simp] theorem Dev.send_mc (d : Dev) (m : OutMsg) : (d.send m).mc = d.mc := rfl
@[simp] theorem Dev.send_ing (d : Dev) (m : OutMsg) : (d.send m).ing = d.ing := rfl
@[simp] theorem Dev.send_sfl (d : Dev) (m : OutMsg) : (d.send m).sfl = d.sfl := rfl
@[simp] theorem Dev.send_par (d : Dev) (m : OutMsg) : (d.send m).par = d.par := rfl
@[simp] theorem Dev.send_hat (d : Dev) (m : OutMsg) : (d.send m).hat = d.hat := rfl
@[simp] theorem Dev.send_odr (d : Dev) (m : OutMsg) : (d.send m).odr = d.odr := rfl
@[simp] theorem Dev.send_srv (d : Dev) (m : OutMsg) : (d.send m).srv = d.srv := rfl
@[simp] theorem Dev.send_mot (d : Dev) (m : OutMsg) : (d.send m).mot = d.mot := rfl
@[simp] theorem Dev.send_cal (d : Dev) (m : OutMsg) : (d.send m).cal = d.cal := rfl
@[simp] theorem Dev.send_freeCtr (d : Dev) (m : OutMsg) : (d.send m).freeCtr = d.freeCtr := rfl
@[simp] theorem Dev.send_readVal (d : Dev) (m : OutMsg) : (d.send m).readVal = d.readVal := rfl
@[simp] theorem Dev.send_out (d : Dev) (m : OutMsg) : (d.send m).out = d.out ++ [m] := rfl

/-! ## answer -/

@[simp] theorem Dev.answer_regs (d : Dev) (v : Nat) : (d.answer v).regs = d.regs := rfl
@[simp] theorem Dev.answer_force (d : Dev) (v : Nat) : (d.answer v).force = d.force := rfl
@[simp] theorem Dev.answer_shadow (d : Dev) (v : Nat) : (d.answer v).shadow = d.shadow := rfl
@[simp] theorem Dev.answer_plat (d : Dev) (v : Nat) : (d.answer v).plat = d.plat := rfl
@[simp] theorem Dev.answer_mram (d : Dev) (v : Nat) : (d.answer v).mram = d.mram := rfl
@[simp] theorem Dev.answer_cst (d : Dev) (v : Nat) : (d.answer v).cst = d.cst := rfl
@[simp] theorem Dev.answer_bpm (d : Dev) (v : Nat) : (d.answer v).bpm = d.bpm := rfl
@[simp] theorem Dev.answer_mc (d : Dev) (v : Nat) : (d.answer v).mc = d.mc := rfl
@[simp] theorem Dev.answer_ing (d : Dev) (v : Nat) : (d.answer v).ing = d.ing := rfl
@[simp] theorem Dev.answer_sfl (d : Dev) (v : Nat) : (d.answer v).sfl = d.sfl := rfl
@[simp] theorem Dev.answer_par (d : Dev) (v : Nat) : (d.answer v).par = d.par := rfl
@[simp] theorem Dev.answer_hat (d : Dev) (v : Nat) : (d.answer v).hat = d.hat := rfl
@[simp] theorem Dev.answer_odr (d : Dev) (v : Nat) : (d.answer v).odr = d.odr := rfl
@[simp] theorem Dev.answer_srv (d : Dev) (v : Nat) : (d.answer v).srv = d.srv := rfl
@[simp] theorem Dev.answer_mot (d : Dev) (v : Nat) : (d.answer v).mot = d.mot := rfl
@[simp] theorem Dev.answer_cal (d : Dev) (v : Nat) : (d.answer v).cal = d.cal := rfl
@[simp] theorem Dev.answer_freeCtr (d : Dev) (v : Nat) : (d.answer v).freeCtr = d.freeCtr := rfl
@[simp] theorem Dev.answer_readVal (d : Dev) (v : Nat) : (d.answer v).readVal = v := rfl
@[simp] theorem Dev.answer_out (d : Dev) (v : Nat) : (d.answer v).out = d.out := rfl

/-! ## stepFree -/

@[simp] theorem Dev.stepFree_regs (d : Dev)  : (d.stepFree).regs = d.regs := rfl
@[simp] theorem Dev.stepFree_force (d : Dev)  : (d.stepFree).force = d.force := rfl
@[simp] theorem Dev.stepFree_shadow (d : Dev)  : (d.stepFree).shadow = d.shadow := rfl
@[simp] theorem Dev.stepFree_plat (d : Dev)  : (d.stepFree).plat = d.plat := rfl
@[simp] theorem Dev.stepFree_mram (d : Dev)  : (d.stepFree).mram = d.mram := rfl
@[simp] theorem Dev.stepFree_cst (d : Dev)  : (d.stepFree).cst = d.cst := rfl
@[simp] theorem Dev.stepFree_bpm (d : Dev)  : (d.stepFree).bpm = d.bpm := rfl
@[simp] theorem Dev.stepFree_mc (d : Dev)  : (d.stepFree).mc = d.mc := rfl
@[simp] theorem Dev.stepFree_ing (d : Dev)  : (d.stepFree).ing = d.ing := rfl
@[simp] theorem Dev.stepFree_sfl (d : Dev)  : (d.stepFree).sfl = d.sfl := rfl
@[simp] theorem Dev.stepFree_par (d : Dev)  : (d.stepFree).par = d.par := rfl
@[simp] theorem Dev.stepFree_hat (d : Dev)  : (d.stepFree).hat = d.hat := rfl
@[simp] theorem Dev.stepFree_odr (d : Dev)  : (d.stepFree).odr = d.odr := rfl
@[simp] theorem Dev.stepFree_srv (d : Dev)  : (d.stepFree).srv = d.srv := rfl
@[simp] theorem Dev.stepFree_mot (d : Dev)  : (d.stepFree).mot = d.mot := rfl
@[simp] theorem Dev.stepFree_cal (d : Dev)  : (d.stepFree).cal = d.cal := rfl
@[simp] theorem Dev.stepFree_freeCtr (d : Dev)  : (d.stepFree).freeCtr = d.freeCtr + 1 := rfl
@[simp] theorem Dev.stepFree_readVal (d : Dev)  : (d.stepFree).readVal = d.readVal := rfl
@[simp] theorem Dev.stepFree_out (d : Dev)  : (d.stepFree).out = d.out := rfl

/-! ## The file of RS fields: a write reaches the values in force and the shadow; any other field's write reaches the rest -/

@[simp] theorem Dev.wr_plat (d : Dev) (f : RegField) (v : Nat) : (d.wr f v).plat = d.plat := by
  unfold Dev.wr; split <;> rfl
@[simp] theorem Dev.wr_mram (d : Dev) (f : RegField) (v : Nat) : (d.wr f v).mram = d.mram := by
  unfold Dev.wr; split <;> rfl
@[simp] theorem Dev.wr_cst (d : Dev) (f : RegField) (v : Nat) : (d.wr f v).cst = d.cst := by
  unfold Dev.wr; split <;> rfl
@[simp] theorem Dev.wr_bpm (d : Dev) (f : RegField) (v : Nat) : (d.wr f v).bpm = d.bpm := by
  unfold Dev.wr; split <;> rfl
@[simp] theorem Dev.wr_mc (d : Dev) (f : RegField) (v : Nat) : (d.wr f v).mc = d.mc := by
  unfold Dev.wr; split <;> rfl
@[simp] theorem Dev.wr_ing (d : Dev) (f : RegField) (v : Nat) : (d.wr f v).ing = d.ing := by
  unfold Dev.wr; split <;> rfl
@[simp] theorem Dev.wr_sfl (d : Dev) (f : RegField) (v : Nat) : (d.wr f v).sfl = d.sfl := by
  unfold Dev.wr; split <;> rfl
@[simp] theorem Dev.wr_par (d : Dev) (f : RegField) (v : Nat) : (d.wr f v).par = d.par := by
  unfold Dev.wr; split <;> rfl
@[simp] theorem Dev.wr_hat (d : Dev) (f : RegField) (v : Nat) : (d.wr f v).hat = d.hat := by
  unfold Dev.wr; split <;> rfl
@[simp] theorem Dev.wr_odr (d : Dev) (f : RegField) (v : Nat) : (d.wr f v).odr = d.odr := by
  unfold Dev.wr; split <;> rfl
@[simp] theorem Dev.wr_srv (d : Dev) (f : RegField) (v : Nat) : (d.wr f v).srv = d.srv := by
  unfold Dev.wr; split <;> rfl
@[simp] theorem Dev.wr_mot (d : Dev) (f : RegField) (v : Nat) : (d.wr f v).mot = d.mot := by
  unfold Dev.wr; split <;> rfl
@[simp] theorem Dev.wr_cal (d : Dev) (f : RegField) (v : Nat) : (d.wr f v).cal = d.cal := by
  unfold Dev.wr; split <;> rfl
@[simp] theorem Dev.wr_freeCtr (d : Dev) (f : RegField) (v : Nat) : (d.wr f v).freeCtr = d.freeCtr := by
  unfold Dev.wr; split <;> rfl
@[simp] theorem Dev.wr_readVal (d : Dev) (f : RegField) (v : Nat) : (d.wr f v).readVal = d.readVal := by
  unfold Dev.wr; split <;> rfl
@[simp] theorem Dev.wr_out (d : Dev) (f : RegField) (v : Nat) : (d.wr f v).out = d.out := by
  unfold Dev.wr; split <;> rfl

@[simp] theorem run_eq (s : State) (f : Dev → Dev) : run s f = .next { s with dev := f s.dev } := rfl

end Sys2Proof.Machine
end

