-- ==== Sys2Proof/Laws/Ops.lean ====
section
/-! SUPPORT. What the shared operations over registers, errors, events and logs do: a field written is read back, another register reads as
before, and what raising an error touches. -/
namespace Sys2Proof.Machine
open Sys2Proof

/-! ## Bit fields -/

theorem bitsOf_lt (n hi lo : Nat) : bitsOf n hi lo < 2 ^ (hi + 1 - lo) := Nat.mod_lt _ (by positivity)

theorem bitsOf_putBits (n hi lo v : Nat) : bitsOf (putBits n hi lo v) hi lo = v % 2 ^ (hi + 1 - lo) := by
  set w := 2 ^ (hi + 1 - lo) with hw
  have wpos : 0 < w := by positivity
  have ppos : 0 < 2 ^ lo := by positivity
  have h1 : n = n % 2 ^ lo + 2 ^ lo * (n / 2 ^ lo) := (Nat.mod_add_div n _).symm
  have h2 : n / 2 ^ lo = (n / 2 ^ lo) % w + w * (n / 2 ^ lo / w) := (Nat.mod_add_div _ _).symm
  have key : putBits n hi lo v = n % 2 ^ lo + 2 ^ lo * (v % w + w * (n / 2 ^ lo / w)) := by
    simp only [putBits, bitsOf, Nat.shiftRight_eq_div_pow, Nat.shiftLeft_eq, ← hw]
    have h3 : n - n / 2 ^ lo % w * 2 ^ lo = n % 2 ^ lo + 2 ^ lo * (w * (n / 2 ^ lo / w)) := by
      have : n = n % 2 ^ lo + 2 ^ lo * ((n / 2 ^ lo) % w + w * (n / 2 ^ lo / w)) := by rw [← h2]; exact h1
      have e : n = (n % 2 ^ lo + 2 ^ lo * (w * (n / 2 ^ lo / w))) + n / 2 ^ lo % w * 2 ^ lo := by
        conv_lhs => rw [this]
        ring
      omega
    rw [h3]; ring
  rw [key]
  simp only [bitsOf, Nat.shiftRight_eq_div_pow, ← hw]
  rw [Nat.add_mul_div_left _ _ ppos, Nat.div_eq_of_lt (Nat.mod_lt _ ppos), Nat.zero_add, Nat.add_mul_mod_self_left, Nat.mod_mod]

theorem putBits_lt (n hi lo v k : Nat) (hn : n < 2 ^ k) (hlo : lo ≤ hi) (hk : hi < k) : putBits n hi lo v < 2 ^ k := by
  set w := 2 ^ (hi + 1 - lo) with hw
  have wpos : 0 < w := by positivity
  have ppos : 0 < 2 ^ lo := by positivity
  have e1 : 2 ^ k = 2 ^ lo * (w * 2 ^ (k - (hi + 1))) := by
    rw [hw, ← Nat.pow_add, ← Nat.pow_add]; congr 1; omega
  have h2 : n / 2 ^ lo = (n / 2 ^ lo) % w + w * (n / 2 ^ lo / w) := (Nat.mod_add_div _ _).symm
  have key : putBits n hi lo v = n % 2 ^ lo + 2 ^ lo * (v % w + w * (n / 2 ^ lo / w)) := by
    simp only [putBits, bitsOf, Nat.shiftRight_eq_div_pow, Nat.shiftLeft_eq, ← hw]
    have h1 : n = n % 2 ^ lo + 2 ^ lo * (n / 2 ^ lo) := (Nat.mod_add_div n _).symm
    have : n = n % 2 ^ lo + 2 ^ lo * ((n / 2 ^ lo) % w + w * (n / 2 ^ lo / w)) := by rw [← h2]; exact h1
    have e : n = (n % 2 ^ lo + 2 ^ lo * (w * (n / 2 ^ lo / w))) + n / 2 ^ lo % w * 2 ^ lo := by
      conv_lhs => rw [this]
      ring
    have h3 : n - n / 2 ^ lo % w * 2 ^ lo = n % 2 ^ lo + 2 ^ lo * (w * (n / 2 ^ lo / w)) := by omega
    rw [h3]; ring
  have hq : n / 2 ^ lo / w < 2 ^ (k - (hi + 1)) := by
    rw [Nat.div_div_eq_div_mul]
    apply Nat.div_lt_of_lt_mul
    calc n < 2 ^ k := hn
      _ = 2 ^ lo * w * 2 ^ (k - (hi + 1)) := by rw [e1]; ring
  have hv := Nat.mod_lt v wpos
  have hr := Nat.mod_lt n ppos
  rw [key, e1]
  have : v % w + w * (n / 2 ^ lo / w) < w * 2 ^ (k - (hi + 1)) := by
    calc v % w + w * (n / 2 ^ lo / w) < w + w * (n / 2 ^ lo / w) := by omega
      _ = w * (n / 2 ^ lo / w + 1) := by ring
      _ ≤ w * 2 ^ (k - (hi + 1)) := Nat.mul_le_mul_left _ hq
  calc n % 2 ^ lo + 2 ^ lo * (v % w + w * (n / 2 ^ lo / w)) < 2 ^ lo + 2 ^ lo * (v % w + w * (n / 2 ^ lo / w)) := by omega
    _ = 2 ^ lo * (v % w + w * (n / 2 ^ lo / w) + 1) := by ring
    _ ≤ 2 ^ lo * (w * 2 ^ (k - (hi + 1))) := Nat.mul_le_mul_left _ this

/-- A field below a written one, or above it, keeps its value. -/
theorem bitsOf_putBits_disjoint (n hi lo v h l : Nat) (hlh : l ≤ h) (hdis : h < lo ∨ hi < l) (hlo : lo ≤ hi) :
    bitsOf (putBits n hi lo v) h l = bitsOf n h l := by
  set w := 2 ^ (hi + 1 - lo) with hw
  have wpos : 0 < w := by positivity
  have ppos : 0 < 2 ^ lo := by positivity
  have h1 : n = n % 2 ^ lo + 2 ^ lo * (n / 2 ^ lo) := (Nat.mod_add_div n _).symm
  have h2 : n / 2 ^ lo = (n / 2 ^ lo) % w + w * (n / 2 ^ lo / w) := (Nat.mod_add_div _ _).symm
  have hn : n = n % 2 ^ lo + 2 ^ lo * ((n / 2 ^ lo) % w + w * (n / 2 ^ lo / w)) := by rw [← h2]; exact h1
  have key : putBits n hi lo v = n % 2 ^ lo + 2 ^ lo * (v % w + w * (n / 2 ^ lo / w)) := by
    simp only [putBits, bitsOf, Nat.shiftRight_eq_div_pow, Nat.shiftLeft_eq, ← hw]
    have e : n = (n % 2 ^ lo + 2 ^ lo * (w * (n / 2 ^ lo / w))) + n / 2 ^ lo % w * 2 ^ lo := by
      conv_lhs => rw [hn]
      ring
    have h3 : n - n / 2 ^ lo % w * 2 ^ lo = n % 2 ^ lo + 2 ^ lo * (w * (n / 2 ^ lo / w)) := by omega
    rw [h3]; ring
  simp only [bitsOf, Nat.shiftRight_eq_div_pow]
  rcases hdis with hd | hd
  · -- the field lies below: both sides agree modulo 2 ^ lo
    have hm : putBits n hi lo v % 2 ^ lo = n % 2 ^ lo := by
      rw [key, Nat.add_mul_mod_self_left, Nat.mod_mod]
    have cut : ∀ a : Nat, a / 2 ^ l % 2 ^ (h + 1 - l) = (a % 2 ^ lo) / 2 ^ l % 2 ^ (h + 1 - l) := by
      intro a
      have e : 2 ^ lo = 2 ^ l * 2 ^ (lo - l) := by rw [← Nat.pow_add]; congr 1; omega
      rw [e, Nat.mod_mul_right_div_self]
      have : 2 ^ (lo - l) = 2 ^ (h + 1 - l) * 2 ^ (lo - (h + 1)) := by rw [← Nat.pow_add]; congr 1; omega
      rw [this, Nat.mod_mul_right_mod]
    rw [cut, hm, ← cut]
  · have e : 2 ^ l = 2 ^ lo * (w * 2 ^ (l - (hi + 1))) := by
      rw [hw, ← Nat.pow_add, ← Nat.pow_add]; congr 1; omega
    have up : ∀ x, x < w → (n % 2 ^ lo + 2 ^ lo * (x + w * (n / 2 ^ lo / w))) / 2 ^ l = n / 2 ^ lo / w / 2 ^ (l - (hi + 1)) := by
      intro x hx
      rw [e, ← Nat.div_div_eq_div_mul, ← Nat.div_div_eq_div_mul, Nat.add_mul_div_left _ _ ppos,
        Nat.div_eq_of_lt (Nat.mod_lt _ ppos), Nat.zero_add, Nat.add_mul_div_left _ _ wpos, Nat.div_eq_of_lt hx, Nat.zero_add]
    rw [key, up _ (Nat.mod_lt _ wpos)]
    conv_rhs => rw [hn]
    rw [up _ (Nat.mod_lt _ wpos)]

/-! ## Reading what was written -/

/-- A field whose bits make sense. -/
abbrev RegField.ok (f : RegField) : Prop := f.lo ≤ f.hi ∧ f.hi < 32

theorem word_putBits (x : Word) (f : RegField) (h : f.ok) (v : Nat) :
    (w32 (putBits x.toNat f.hi f.lo v)).toNat = putBits x.toNat f.hi f.lo v := by
  have := putBits_lt x.toNat f.hi f.lo v 32 x.isLt h.1 h.2
  simp only [w32, BitVec.toNat_ofNat]
  exact Nat.mod_eq_of_lt this

/-- A field that is written reads as the value written, cut to its width. -/
theorem Dev.rd_wr_same (d : Dev) (f : RegField) (h : f.ok) (v : Nat) : (d.wr f v).rd f = v % 2 ^ (f.hi + 1 - f.lo) := by
  unfold Dev.wr Dev.rd Dev.forced Dev.raw Dev.setRaw Dev.setForced Dev.setShadowed
  by_cases hr : f.rs = true
  · simp only [hr, if_true, Map.get_set_same]
    rw [word_putBits _ _ h, bitsOf_putBits]
  · simp only [Bool.not_eq_true] at hr
    simp only [hr, if_false, Map.get_set_same, Bool.false_eq_true]
    rw [word_putBits _ _ h, bitsOf_putBits]

/-- A field of another register reads as before. -/
theorem Dev.rd_wr_other (d : Dev) (f g : RegField) (v : Nat) (h : g.addr ≠ f.addr) : (d.wr f v).rd g = d.rd g := by
  unfold Dev.wr Dev.rd Dev.forced Dev.raw Dev.setRaw Dev.setForced Dev.setShadowed
  by_cases hr : f.rs = true <;> by_cases hg : g.rs = true <;>
    simp [hr, hg, Map.get_set_other _ _ _ _ _ _ h]

/-- Another field of the same register reads as before where the two share no bit. -/
theorem Dev.rd_wr_beside (d : Dev) (f g : RegField) (v : Nat) (hf : f.ok) (hg : g.ok) (hd : g.hi < f.lo ∨ f.hi < g.lo) :
    (d.wr f v).rd g = d.rd g := by
  by_cases ha : g.addr = f.addr
  · unfold Dev.wr Dev.rd Dev.forced Dev.raw Dev.setRaw Dev.setForced Dev.setShadowed
    by_cases hr : f.rs = true <;> by_cases hs : g.rs = true <;>
      simp [hr, hs, ha, word_putBits _ _ hf, bitsOf_putBits_disjoint _ _ _ _ _ _ hg.1 hd hf.1]
  · exact d.rd_wr_other f g v ha

theorem Dev.flag_wr_same (d : Dev) (f : RegField) (h : f.ok) (h1 : f.hi = f.lo) (v : Nat) : (d.wr f v).flag f = decide (v % 2 = 1) := by
  unfold Dev.flag
  rw [Dev.rd_wr_same d f h, h1]
  have : v % 2 ^ (f.lo + 1 - f.lo) = v % 2 := by rw [Nat.add_sub_cancel_left]; norm_num
  rw [this]
  have := Nat.mod_two_eq_zero_or_one v
  rcases this with h | h <;> simp [h]

/-- A counter counts one and stops at its highest value. -/
theorem Dev.rd_count (d : Dev) (f : RegField) (h : f.ok) : (d.count f).rd f = satInc (f.hi + 1 - f.lo) (d.rd f) := by
  unfold Dev.count
  rw [Dev.rd_wr_same d f h, Nat.mod_eq_of_lt]
  unfold satInc
  split
  · assumption
  · have : 0 < 2 ^ (f.hi + 1 - f.lo) := by positivity
    omega

/-! ## What raising an error touches: registers, the platform's record, the logs and what is sent -/

theorem Dev.msix_eq (d : Dev) (v : Nat) :
    (d.msix v).cst = d.cst ∧ (d.msix v).bpm = d.bpm ∧ (d.msix v).mc = d.mc ∧ (d.msix v).ing = d.ing ∧ (d.msix v).sfl = d.sfl ∧
    (d.msix v).par = d.par ∧ (d.msix v).hat = d.hat ∧ (d.msix v).odr = d.odr ∧ (d.msix v).srv = d.srv ∧ (d.msix v).mot = d.mot ∧
    (d.msix v).cal = d.cal ∧ (d.msix v).mram = d.mram ∧ (d.msix v).plat = d.plat := by
  unfold Dev.msix; split <;> simp

theorem Dev.eventMessage_eq (d : Dev) (e : Nat) :
    (d.eventMessage e).cst = d.cst ∧ (d.eventMessage e).bpm = d.bpm ∧ (d.eventMessage e).mc = d.mc ∧ (d.eventMessage e).ing = d.ing ∧
    (d.eventMessage e).sfl = d.sfl ∧ (d.eventMessage e).par = d.par ∧ (d.eventMessage e).hat = d.hat ∧ (d.eventMessage e).odr = d.odr ∧
    (d.eventMessage e).srv = d.srv ∧ (d.eventMessage e).mot = d.mot ∧ (d.eventMessage e).cal = d.cal ∧ (d.eventMessage e).mram = d.mram := by
  unfold Dev.eventMessage
  split
  · simp only []
    split
    · simp
    · simp [Dev.msix_eq]
  · simp

theorem Dev.event_eq (d : Dev) (e : Nat) :
    (d.event e).cst = d.cst ∧ (d.event e).bpm = d.bpm ∧ (d.event e).mc = d.mc ∧ (d.event e).ing = d.ing ∧ (d.event e).sfl = d.sfl ∧
    (d.event e).par = d.par ∧ (d.event e).hat = d.hat ∧ (d.event e).odr = d.odr ∧ (d.event e).srv = d.srv ∧ (d.event e).mot = d.mot ∧
    (d.event e).cal = d.cal := by
  unfold Dev.event
  simp only []
  split <;> simp [Dev.eventMessage_eq]

/-- What an error report leaves alone. -/
theorem Dev.report_eq (d : Dev) (page bit level info : Nat) :
    (d.report page bit level info).cst = d.cst ∧ (d.report page bit level info).bpm = d.bpm ∧ (d.report page bit level info).mc = d.mc ∧
    (d.report page bit level info).ing = d.ing ∧ (d.report page bit level info).sfl = d.sfl ∧ (d.report page bit level info).par = d.par ∧
    (d.report page bit level info).hat = d.hat ∧ (d.report page bit level info).odr = d.odr ∧ (d.report page bit level info).srv = d.srv ∧
    (d.report page bit level info).mot = d.mot ∧ (d.report page bit level info).cal = d.cal := by
  unfold Dev.report Dev.logEvent Dev.logChip Dev.mramPut Dev.countN
  simp only []
  by_cases h1 : 1 ≤ level <;> by_cases h2 : 2 ≤ level <;> by_cases h3 : level = 3 <;>
    simp [h1, h2, h3, Dev.event_eq]

theorem Dev.raise_eq (d : Dev) (page bit info : Nat) :
    (d.raise page bit info).cst = d.cst ∧ (d.raise page bit info).bpm = d.bpm ∧ (d.raise page bit info).mc = d.mc ∧
    (d.raise page bit info).ing = d.ing ∧ (d.raise page bit info).sfl = d.sfl ∧ (d.raise page bit info).par = d.par ∧
    (d.raise page bit info).hat = d.hat ∧ (d.raise page bit info).odr = d.odr ∧ (d.raise page bit info).srv = d.srv ∧
    (d.raise page bit info).mot = d.mot ∧ (d.raise page bit info).cal = d.cal := Dev.report_eq d page bit _ info

end Sys2Proof.Machine
end

