-- ==== Sys2Proof/Laws/Frames.lean ====
section
/-! SUPPORT. What raising an error, an event or a counted access leaves as it was: every field of a register outside the pages' headers, the
event page, the MRAM counters and the pending bits of MSI-X (a steady field), and the platform's record but for its error
summary, the blocks' logs and the vectors that have sent. -/
namespace Sys2Proof.Machine
open Sys2Proof

theorem Dev.rd_setRaw (d : Dev) (f : RegField) (a : Nat) (v : Word) (h : f.addr ≠ a) : (d.setRaw a v).rd f = d.rd f := by
  unfold Dev.rd Dev.forced Dev.raw Dev.setRaw
  split
  · rfl
  · simp [Map.get_set_other _ _ _ _ _ _ h]

@[simp] theorem Dev.rd_onPlat (d : Dev) (f : RegField) (g : Plat → Plat) : (d.onPlat g).rd f = d.rd f := rfl
@[simp] theorem Dev.rd_onMram (d : Dev) (f : RegField) (g : Mram → Mram) : (d.onMram g).rd f = d.rd f := rfl
@[simp] theorem Dev.rd_onCst (d : Dev) (f : RegField) (g : Cst → Cst) : (d.onCst g).rd f = d.rd f := rfl
@[simp] theorem Dev.rd_onBpm (d : Dev) (f : RegField) (g : Bpm → Bpm) : (d.onBpm g).rd f = d.rd f := rfl
@[simp] theorem Dev.rd_onMc (d : Dev) (f : RegField) (g : Mc → Mc) : (d.onMc g).rd f = d.rd f := rfl
@[simp] theorem Dev.rd_onIng (d : Dev) (f : RegField) (g : Ing → Ing) : (d.onIng g).rd f = d.rd f := rfl
@[simp] theorem Dev.rd_onSfl (d : Dev) (f : RegField) (g : Sfl → Sfl) : (d.onSfl g).rd f = d.rd f := rfl
@[simp] theorem Dev.rd_onPar (d : Dev) (f : RegField) (g : Par → Par) : (d.onPar g).rd f = d.rd f := rfl
@[simp] theorem Dev.rd_onHat (d : Dev) (f : RegField) (g : Hat → Hat) : (d.onHat g).rd f = d.rd f := rfl
@[simp] theorem Dev.rd_onOdr (d : Dev) (f : RegField) (g : Odr → Odr) : (d.onOdr g).rd f = d.rd f := rfl
@[simp] theorem Dev.rd_onSrv (d : Dev) (f : RegField) (g : Srv → Srv) : (d.onSrv g).rd f = d.rd f := rfl
@[simp] theorem Dev.rd_onMot (d : Dev) (f : RegField) (g : Mot → Mot) : (d.onMot g).rd f = d.rd f := rfl
@[simp] theorem Dev.rd_onCal (d : Dev) (f : RegField) (g : Cal → Cal) : (d.onCal g).rd f = d.rd f := rfl
@[simp] theorem Dev.rd_send (d : Dev) (f : RegField) (m : OutMsg) : (d.send m).rd f = d.rd f := rfl
@[simp] theorem Dev.rd_answer (d : Dev) (f : RegField) (v : Nat) : (d.answer v).rd f = d.rd f := rfl
@[simp] theorem Dev.rd_stepFree (d : Dev) (f : RegField) : d.stepFree.rd f = d.rd f := rfl

variable {d : Dev} {f : RegField}

theorem Dev.rd_msix (h : f.steady) {v : Nat} (hv : v < 64) : (d.msix v).rd f = d.rd f := by
  unfold Dev.msix
  split
  · apply Dev.rd_wr_other
    unfold RegField.steady at h
    simp only
    omega
  · rfl

theorem Dev.vector_lt (d : Dev) (e : Nat) : d.rd (F.pltEvtRoute_vector e) < 64 := by
  have h := bitsOf_lt (if (F.pltEvtRoute_vector e).rs then d.forced (F.pltEvtRoute_vector e).addr
    else d.raw (F.pltEvtRoute_vector e).addr).toNat (F.pltEvtRoute_vector e).hi (F.pltEvtRoute_vector e).lo
  exact h

theorem Dev.rd_eventMessage (h : f.steady) (e : Nat) : (d.eventMessage e).rd f = d.rd f := by
  unfold Dev.eventMessage
  split
  · simp only []
    split
    · rfl
    · rw [Dev.rd_msix h (Dev.vector_lt d e)]; rfl
  · rfl

theorem Dev.rd_event (h : f.steady) (e : Nat) : (d.event e).rd f = d.rd f := by
  have hc : f.addr ≠ 0x8140 := h.2.1
  have hh : f.addr ≠ 0x8144 := h.2.2.1
  unfold Dev.event
  simp only []
  split
  · rw [Dev.rd_eventMessage h, Dev.rd_wr_other _ _ _ _ (by simpa [F.pltEvtCause] using hc)]
  · rw [Dev.rd_wr_other _ _ _ _ (by simpa [F.pltEvtHeld] using hh), Dev.rd_wr_other _ _ _ _ (by simpa [F.pltEvtCause] using hc)]

theorem Dev.rd_mramPut (h : f.steady) (n : Nat) (g : Mram → Mram) : (d.mramPut n g).rd f = d.rd f := by
  unfold Dev.mramPut Dev.countN
  rw [Dev.rd_wr_other _ _ _ _ (by simpa [F.pltMramCnt] using h.2.2.2.1)]
  rfl

theorem Dev.rd_chipEvent (h : f.steady) (e : Nat) : (d.chipEvent e).rd f = d.rd f := by
  unfold Dev.chipEvent Dev.logEvent
  rw [Dev.rd_event h, Dev.rd_mramPut h]

theorem steady_ne (h : f.steady) (p k : Nat) (hk : k < 256) : f.addr ≠ pageOf p + k := by
  have := h.1
  unfold pageOf
  omega

theorem Dev.rd_report (h : f.steady) (page bit level info : Nat) : (d.report page bit level info).rd f = d.rd f := by
  unfold Dev.report Dev.logEvent Dev.logChip
  have hp : f.addr ≠ pageOf page + 0x10 := steady_ne h page 0x10 (by omega)
  simp only []
  by_cases h1 : 1 ≤ level <;> by_cases h2 : 2 ≤ level <;> by_cases h3 : level = 3 <;>
    simp [h1, h2, h3, Dev.rd_event h, Dev.rd_mramPut h, Dev.rd_setRaw _ _ _ _ hp]

theorem Dev.rd_raise (h : f.steady) (page bit info : Nat) : (d.raise page bit info).rd f = d.rd f := Dev.rd_report h page bit _ info

theorem Dev.rd_raiseAtLeast (h : f.steady) (page bit level info : Nat) : (d.raiseAtLeast page bit level info).rd f = d.rd f :=
  Dev.rd_report h page bit _ info

theorem Dev.rd_countIgnored (h : f.steady) (page info flags : Nat) : (d.countIgnored page info flags).rd f = d.rd f := by
  unfold Dev.countIgnored Dev.logAccess
  have hp : f.addr ≠ pageOf page + 0x2C := steady_ne h page 0x2C (by omega)
  simp only []
  rw [Dev.rd_raise h, Dev.rd_mramPut h, Dev.rd_setRaw _ _ _ _ hp]

/-! ## The platform's record -/

/-- Two records that agree but for the error summary, the blocks' logs and the vectors that have sent. -/
def Plat.alike (p q : Plat) : Prop := { p with evtSent := q.evtSent, errSum := q.errSum, blockLog := q.blockLog } = q

theorem Plat.alike_refl (p : Plat) : p.alike p := rfl
theorem Plat.alike_trans {p q r : Plat} (h : p.alike q) (k : q.alike r) : p.alike r := by
  unfold Plat.alike at *
  rw [← k, ← h]

theorem Dev.msix_plat (d : Dev) (v : Nat) : (d.msix v).plat = d.plat := by
  unfold Dev.msix; split
  · exact Dev.wr_plat _ _ _
  · rfl

theorem Dev.eventMessage_plat (d : Dev) (e : Nat) : d.plat.alike (d.eventMessage e).plat := by
  unfold Dev.eventMessage
  split
  · simp only []
    split
    · rfl
    · rw [Dev.msix_plat]; rfl
  · rfl

theorem Dev.event_plat (d : Dev) (e : Nat) : d.plat.alike (d.event e).plat := by
  unfold Dev.event
  simp only []
  split
  · have := Dev.eventMessage_plat (d.wr ⟨F.pltEvtCause.addr, e, e, false⟩ 1) e
    rwa [Dev.wr_plat] at this
  · rw [Dev.wr_plat, Dev.wr_plat]; rfl

theorem Dev.mramPut_plat (d : Dev) (n : Nat) (g : Mram → Mram) : (d.mramPut n g).plat = d.plat := by
  unfold Dev.mramPut Dev.countN; rw [Dev.wr_plat]; rfl

theorem Dev.chipEvent_plat (d : Dev) (e : Nat) : d.plat.alike (d.chipEvent e).plat := by
  unfold Dev.chipEvent Dev.logEvent
  have := Dev.event_plat (d.mramPut 8 fun m => { m with
    eventLog := m.eventLog.push 65536 { d.logRec 2 0xFF00000 e 3 0 0 0 with region := 0xFF, slot := 0 } }) e
  rwa [Dev.mramPut_plat] at this

theorem Dev.report_plat (d : Dev) (page bit level info : Nat) : d.plat.alike (d.report page bit level info).plat := by
  unfold Dev.report
  extract_lets p a b c r g e
  have h1 : d.plat.alike b.plat := by
    unfold b; split <;> rfl
  have h2 : b.plat.alike e.plat := by
    refine Plat.alike_trans (q := g.plat) rfl ?_
    unfold e; split
    · unfold Dev.logChip; rw [Dev.mramPut_plat]; exact Plat.alike_refl _
    · exact Plat.alike_refl _
  split
  · refine Plat.alike_trans (Plat.alike_trans h1 h2) ?_
    have := Dev.event_plat (e.logEvent r) (regionOf p)
    rwa [Dev.logEvent, Dev.mramPut_plat] at this
  · exact Plat.alike_trans h1 h2

theorem Dev.raise_plat (d : Dev) (page bit info : Nat) : d.plat.alike (d.raise page bit info).plat := Dev.report_plat _ _ _ _ _

theorem Dev.countIgnored_plat (d : Dev) (page info flags : Nat) : d.plat.alike (d.countIgnored page info flags).plat := by
  unfold Dev.countIgnored
  extract_lets p a r b
  have : d.plat = b.plat := by unfold b Dev.logAccess; rw [Dev.mramPut_plat]; rfl
  rw [this]
  exact Dev.raise_plat _ _ _ _

theorem Plat.alike.tick {p q : Plat} (h : p.alike q) : q.tick = p.tick := by rw [← h]
theorem Plat.alike.okRun {p q : Plat} (h : p.alike q) : q.okRun = p.okRun := by rw [← h]
theorem Plat.alike.slewing {p q : Plat} (h : p.alike q) : q.slewing = p.slewing := by rw [← h]
theorem Plat.alike.phase {p q : Plat} (h : p.alike q) : q.phase = p.phase := by rw [← h]
theorem Plat.alike.safe {p q : Plat} (h : p.alike q) : q.safe = p.safe := by rw [← h]
theorem Plat.alike.tp {p q : Plat} (h : p.alike q) : q.tp = p.tp := by rw [← h]
theorem Plat.alike.units {p q : Plat} (h : p.alike q) : q.units = p.units := by rw [← h]
theorem Plat.alike.fences {p q : Plat} (h : p.alike q) : q.fences = p.fences := by rw [← h]
theorem Plat.alike.staged {p q : Plat} (h : p.alike q) : q.staged = p.staged := by rw [← h]
theorem Plat.alike.commitSt {p q : Plat} (h : p.alike q) : q.commitSt = p.commitSt := by rw [← h]
theorem Plat.alike.groupSt {p q : Plat} (h : p.alike q) : q.groupSt = p.groupSt := by rw [← h]

/-! ## The regions' records -/

theorem Dev.sameRegions_refl (d : Dev) : d.sameRegions d := ⟨rfl, rfl, rfl, rfl, rfl, rfl, rfl, rfl, rfl, rfl, rfl⟩

theorem Dev.sameRegions_trans {a b c : Dev} (h : a.sameRegions b) (k : b.sameRegions c) : a.sameRegions c := by
  obtain ⟨h1, h2, h3, h4, h5, h6, h7, h8, h9, h10, h11⟩ := h
  obtain ⟨k1, k2, k3, k4, k5, k6, k7, k8, k9, k10, k11⟩ := k
  exact ⟨k1.trans h1, k2.trans h2, k3.trans h3, k4.trans h4, k5.trans h5, k6.trans h6, k7.trans h7, k8.trans h8, k9.trans h9,
    k10.trans h10, k11.trans h11⟩

theorem Dev.wr_sameRegions (d : Dev) (f : RegField) (v : Nat) : d.sameRegions (d.wr f v) := by
  unfold Dev.wr Dev.setRaw Dev.setForced Dev.setShadowed; split <;> exact Dev.sameRegions_refl _

theorem Dev.setRaw_sameRegions (d : Dev) (a : Nat) (v : Word) : d.sameRegions (d.setRaw a v) := Dev.sameRegions_refl _

theorem Dev.onPlat_sameRegions (d : Dev) (g : Plat → Plat) : d.sameRegions (d.onPlat g) := Dev.sameRegions_refl _

theorem Dev.event_sameRegions (d : Dev) (e : Nat) : d.sameRegions (d.event e) := Dev.event_eq d e

theorem Dev.mramPut_sameRegions (d : Dev) (n : Nat) (g : Mram → Mram) : d.sameRegions (d.mramPut n g) :=
  Dev.wr_sameRegions (d.onMram g) _ _

theorem Dev.chipEvent_sameRegions (d : Dev) (e : Nat) : d.sameRegions (d.chipEvent e) :=
  Dev.sameRegions_trans (Dev.mramPut_sameRegions d 8 _) (Dev.event_sameRegions _ e)

theorem Dev.report_sameRegions (d : Dev) (page bit level info : Nat) : d.sameRegions (d.report page bit level info) :=
  Dev.report_eq d page bit level info

theorem Dev.raise_sameRegions (d : Dev) (page bit info : Nat) : d.sameRegions (d.raise page bit info) := Dev.raise_eq d page bit info

theorem Dev.countIgnored_sameRegions (d : Dev) (page info flags : Nat) : d.sameRegions (d.countIgnored page info flags) := by
  unfold Dev.countIgnored Dev.logAccess
  exact Dev.sameRegions_trans (Dev.sameRegions_trans (Dev.setRaw_sameRegions _ _ _) (Dev.mramPut_sameRegions _ 8 _))
    (Dev.raise_sameRegions _ _ _ _)

/-! ## The cause register and the error bits -/

theorem Dev.raw_wr_same (d : Dev) (f : RegField) (h : f.rs = false) (v : Nat) :
    (d.wr f v).raw f.addr = w32 (putBits (d.raw f.addr).toNat f.hi f.lo v) := by
  unfold Dev.wr Dev.raw Dev.setRaw; simp [h]

theorem Dev.raw_wr_other (d : Dev) (f : RegField) (v a : Nat) (h : a ≠ f.addr) : (d.wr f v).raw a = d.raw a := by
  unfold Dev.wr Dev.raw Dev.setRaw Dev.setForced Dev.setShadowed
  split
  · rfl
  · simp [Map.get_set_other _ _ _ _ _ _ h]

@[simp] theorem Dev.raw_setRaw_same (d : Dev) (a : Nat) (v : Word) : (d.setRaw a v).raw a = v := by
  unfold Dev.raw Dev.setRaw; simp

theorem Dev.raw_setRaw_other (d : Dev) (a b : Nat) (v : Word) (h : b ≠ a) : (d.setRaw a v).raw b = d.raw b := by
  unfold Dev.raw Dev.setRaw; simp [Map.get_set_other _ _ _ _ _ _ h]

theorem testBit_putBit (n e : Nat) : (putBits n e e 1).testBit e = true := by
  have h := bitsOf_putBits n e e 1
  simp only [bitsOf, Nat.add_sub_cancel_left, Nat.pow_one, Nat.reduceMod] at h
  rw [Nat.testBit_eq_decide_div_mod_eq, ← Nat.shiftRight_eq_div_pow, h]
  rfl

theorem Dev.raw_msix (d : Dev) (v a : Nat) (h : a ≠ 0x103C00 + 4 * (v / 32)) : (d.msix v).raw a = d.raw a := by
  unfold Dev.msix
  split
  · exact Dev.raw_wr_other _ _ _ _ h
  · rfl

theorem Dev.raw_eventMessage (d : Dev) (e a : Nat) (h : a < 0x103C00) : (d.eventMessage e).raw a = d.raw a := by
  unfold Dev.eventMessage
  split
  · simp only []
    split
    · rfl
    · rw [Dev.raw_msix _ _ _ (by omega)]; rfl
  · rfl

theorem Dev.event_causeShows (d : Dev) (e : Nat) (he : e < 32) : (d.event e).causeShows e := by
  unfold Dev.event Dev.causeShows
  simp only []
  have key : ((d.wr ⟨F.pltEvtCause.addr, e, e, false⟩ 1).raw F.pltEvtCause.addr).toNat.testBit e = true := by
    rw [Dev.raw_wr_same d ⟨F.pltEvtCause.addr, e, e, false⟩ rfl 1]
    rw [word_putBits (d.raw F.pltEvtCause.addr) ⟨F.pltEvtCause.addr, e, e, false⟩ ⟨le_refl _, he⟩]
    exact testBit_putBit _ _
  split
  · rw [Dev.raw_eventMessage _ _ _ (by decide)]; exact key
  · rw [Dev.raw_wr_other _ _ _ _ (by show (0x8140 : Nat) ≠ 0x8144; decide)]; exact key

theorem Dev.chipEvent_causeShows (d : Dev) (e : Nat) (he : e < 32) : (d.chipEvent e).causeShows e := Dev.event_causeShows _ e he

theorem Dev.flag_steady {a b : Dev} (h : b.rd f = a.rd f) : b.flag f = a.flag f := by unfold Dev.flag; rw [h]


theorem Dev.flag_wr_other (d : Dev) (f g : RegField) (v : Nat) (h : g.addr ≠ f.addr) : (d.wr f v).flag g = d.flag g :=
  Dev.flag_steady (Dev.rd_wr_other d f g v h)

theorem Dev.flag_wr_beside (d : Dev) (f g : RegField) (v : Nat) (hf : f.ok) (hg : g.ok) (hd : g.hi < f.lo ∨ f.hi < g.lo) :
    (d.wr f v).flag g = d.flag g := Dev.flag_steady (Dev.rd_wr_beside d f g v hf hg hd)

theorem Dev.flag_one (d : Dev) (f : RegField) (h : f.ok) (h1 : f.hi = f.lo) : (d.wr f 1).flag f = true := Dev.flag_wr_same d f h h1 1
theorem Dev.flag_zero (d : Dev) (f : RegField) (h : f.ok) (h1 : f.hi = f.lo) : (d.wr f 0).flag f = false := Dev.flag_wr_same d f h h1 0
@[simp] theorem Dev.flag_onPlat (d : Dev) (f : RegField) (g : Plat → Plat) : (d.onPlat g).flag f = d.flag f := rfl

end Sys2Proof.Machine
end

