-- ==== Sys2Proof/Laws/Keeps/Base.lean ====
section
/-! SUPPORT. The relation `Keeps b d`: what no operation of the machine undoes on its way from the device `b` to the device `d`. Each
operation that the meanings are written over has one lemma: from a device that keeps, it makes a device that keeps. -/
namespace Sys2Proof.Machine
open Sys2Proof

/-- The parts of a device that the relation looks at. -/
structure Kept (b : Dev) (mem : Map Byte) (regs shadow : Map Word) (safe : Bool) (tick : Tick) (jdmsel refsel testEn : Bool) (svn : Nat)
    (out : List OutMsg) : Prop where
  mem : Map.wf (fun _ => 0) b.cst.mem = true → Map.wf (fun _ => 0) mem = true
  regs : Map.wf resetVal b.regs = true → Map.wf resetVal regs = true
  shadow : Map.wf resetVal b.shadow = true → Map.wf resetVal shadow = true
  safe : b.plat.safe = true → safe = true
  time : b.plat.boot ≠ .reset → tick = b.plat.tick ∧ jdmsel = b.plat.jdmsel ∧ refsel = b.plat.refsel ∧ testEn = b.plat.testEn
  svn : b.mram.svnFloor ≤ svn
  sent : b.out <+: out

/-- Memory, registers and shadows stay in canonical form, the safe state stays, the security floor does not fall, what was sent stays
sent, and outside chip reset the time and the latched pins stay. -/
def Keeps (b d : Dev) : Prop :=
  Kept b d.cst.mem d.regs d.shadow d.plat.safe d.plat.tick d.plat.jdmsel d.plat.refsel d.plat.testEn d.mram.svnFloor d.out

/-- The device in chip reset and outside the safe state: what a chip reset keeps is told from there. -/
def Dev.awake (d : Dev) : Dev := { d with plat := { d.plat with safe := false, boot := .reset } }

/-- The device in chip reset: what start-up keeps is told from there. -/
def Dev.unstarted (d : Dev) : Dev := { d with plat := { d.plat with boot := .reset } }

/-- The device one tick on: what a boundary keeps is told from there. -/
def Dev.later (d : Dev) : Dev := { d with plat := { d.plat with tick := d.plat.tick + 1 } }

/-- The same of an operation that also returns a value. -/
def KeepsP {α : Type} (b : Dev) (p : α × Dev) : Prop := Keeps b p.2

/-- The same of an operation that also returns two values. -/
def KeepsT {α β : Type} (b : Dev) (p : α × β × Dev) : Prop := Keeps b p.2.2

/-- The same of an operation that may do nothing. -/
def KeepsO (b : Dev) (o : Option Dev) : Prop := ∀ d, o = some d → Keeps b d

theorem Keeps.rfl' (b : Dev) : Keeps b b := ⟨id, id, id, id, fun _ => ⟨rfl, rfl, rfl, rfl⟩, Nat.le_refl _, List.prefix_refl _⟩

/-- A meaning answers a next state, the queue untouched, and keeps what `b` held. -/
def Steps (b : Dev) (s : State) (o : Host.Outcome State Fault Refusal) : Prop :=
  ∃ e, o = .next { s with dev := e } ∧ Keeps b e

section
variable {α β γ : Type} {b d : Dev}

theorem keeps_pair {p : α × Dev} {x : α} (h : KeepsP b p) (e : p = (x, d)) : Keeps b d := by
  rw [e] at h; exact h

theorem keepsT_pair {p : α × β × Dev} {x : α} {y : β} (h : KeepsT b p) (e : p = (x, y, d)) : Keeps b d := by
  rw [e] at h; exact h

theorem keeps_snd {p : α × Dev} (h : KeepsP b p) : Keeps b p.2 := h

theorem keepsT_snd {p : α × β × Dev} (h : KeepsT b p) : Keeps b p.2.2 := h

theorem keepsP_gen {p q : α × Dev} (e : q = p) (h : KeepsP b q) : KeepsP b p := e ▸ h

theorem keepsT_gen {p q : α × β × Dev} (e : q = p) (h : KeepsT b q) : KeepsT b p := e ▸ h

theorem keepsP_mk {x : α} (h : Keeps b d) : KeepsP b (x, d) := h

theorem keepsT_mk {x : α} {y : β} (h : Keeps b d) : KeepsT b (x, y, d) := h

theorem keepsO_some (h : Keeps b d) : KeepsO b (some d) := fun e he => by cases he; exact h

theorem keepsO_none : KeepsO b none := fun e he => by cases he

theorem keeps_ite {c : Prop} [Decidable c] {x y : Dev} (hx : c → Keeps b x) (hy : ¬ c → Keeps b y) : Keeps b (if c then x else y) := by
  split
  · exact hx ‹_›
  · exact hy ‹_›

theorem keepsP_ite {c : Prop} [Decidable c] {x y : α × Dev} (hx : c → KeepsP b x) (hy : ¬ c → KeepsP b y) :
    KeepsP b (if c then x else y) := by
  split
  · exact hx ‹_›
  · exact hy ‹_›

theorem keepsT_ite {c : Prop} [Decidable c] {x y : α × β × Dev} (hx : c → KeepsT b x) (hy : ¬ c → KeepsT b y) :
    KeepsT b (if c then x else y) := by
  split
  · exact hx ‹_›
  · exact hy ‹_›

theorem keeps_elim {o : Option γ} {f : γ → Dev} (h : Keeps b d) (k : ∀ x, Keeps b (f x)) : Keeps b (o.elim d f) := by
  cases o
  · exact h
  · exact k _

theorem keepsO_getD {o : Option Dev} (k : KeepsO b o) (h : Keeps b d) : Keeps b (o.getD d) := by
  cases o
  · exact h
  · exact k _ rfl

theorem keeps_foldl {f : Dev → γ → Dev} {l : List γ} (h : Keeps b d) (k : ∀ d x, Keeps b d → Keeps b (f d x)) :
    Keeps b (l.foldl f d) := by
  induction l generalizing d with
  | nil => exact h
  | cons x l ih => exact ih (k _ _ h)

theorem keepsP_foldl {f : α × Dev → γ → α × Dev} {p : α × Dev} {l : List γ} (h : KeepsP b p)
    (k : ∀ d x, KeepsP b d → KeepsP b (f d x)) : KeepsP b (l.foldl f p) := by
  induction l generalizing p with
  | nil => exact h
  | cons x l ih => exact ih (k _ _ h)

theorem keepsT_foldl {f : α × β × Dev → γ → α × β × Dev} {p : α × β × Dev} {l : List γ} (h : KeepsT b p)
    (k : ∀ d x, KeepsT b d → KeepsT b (f d x)) : KeepsT b (l.foldl f p) := by
  induction l generalizing p with
  | nil => exact h
  | cons x l ih => exact ih (k _ _ h)

theorem kept_of (h : Keeps b d) : Kept b d.cst.mem d.regs d.shadow d.plat.safe d.plat.tick d.plat.jdmsel d.plat.refsel d.plat.testEn d.mram.svnFloor
      d.out := h

theorem keeps_mk {regs force shadow plat mram cst bpm mc ing sfl par hat odr srv mot cal freeCtr readVal out}
    (h : Kept b cst.mem regs shadow plat.safe plat.tick plat.jdmsel plat.refsel plat.testEn mram.svnFloor out) :
    Keeps b (Dev.mk regs force shadow plat mram cst bpm mc ing sfl par hat odr srv mot cal freeCtr readVal out) := h

/-- A fold whose accumulator carries the device in front. -/
theorem keeps_fst_foldl {f : Dev × α → γ → Dev × α} {p : Dev × α} {l : List γ} (h : Keeps b p.1)
    (k : ∀ p x, Keeps b p.1 → Keeps b (f p x).1) : Keeps b (l.foldl f p).1 := by
  induction l generalizing p with
  | nil => exact h
  | cons x l ih => exact ih (k _ _ h)

/-- A fold whose accumulator carries the device after three values. -/
theorem keeps_foldl3 {ε : Type} {f : α × β × ε × Dev → γ → α × β × ε × Dev} {p : α × β × ε × Dev} {l : List γ}
    (h : Keeps b p.2.2.2) (k : ∀ p x, Keeps b p.2.2.2 → Keeps b (f p x).2.2.2) : Keeps b (l.foldl f p).2.2.2 := by
  induction l generalizing p with
  | nil => exact h
  | cons x l ih => exact ih (k _ _ h)

theorem keeps_awake (h : Keeps b d) : Keeps b.awake d := ⟨h.mem, h.regs, h.shadow, (by intro w; cases w), fun w => absurd rfl w, h.svn, h.sent⟩

theorem keeps_unstarted (h : Keeps b d) : Keeps b.unstarted d := ⟨h.mem, h.regs, h.shadow, h.safe, fun w => absurd rfl w, h.svn, h.sent⟩

theorem keeps_later_unstarted (h : Keeps b.later d) : Keeps b.unstarted d :=
  ⟨h.mem, h.regs, h.shadow, h.safe, fun w => absurd rfl w, h.svn, h.sent⟩

theorem keeps_unstarted_awake (h : Keeps b.unstarted d) : Keeps b.awake d :=
  ⟨h.mem, h.regs, h.shadow, (by intro w; cases w), fun w => absurd rfl w, h.svn, h.sent⟩

/-- The time moves by one and the latched pins stay. -/
theorem keeps_later {f : Plat → Plat} (h : Keeps b d) (k : d.plat.safe = true → (f d.plat).safe = true)
    (k1 : (f d.plat).tick = d.plat.tick + 1) (k2 : (f d.plat).jdmsel = d.plat.jdmsel) (k3 : (f d.plat).refsel = d.plat.refsel)
    (k4 : (f d.plat).testEn = d.plat.testEn) : Keeps b.later (d.onPlat f) :=
  ⟨h.mem, h.regs, h.shadow, fun w => k (h.safe w), fun w => ⟨k1.trans (congrArg (· + 1) (h.time w).1), k2.trans (h.time w).2.1,
    k3.trans (h.time w).2.2.1, k4.trans (h.time w).2.2.2⟩, h.svn, h.sent⟩

/-- In chip reset the pins are latched. -/
theorem keeps_latch {f : Plat → Plat} (h : Keeps b d) (k : d.plat.safe = true → (f d.plat).safe = true) :
    Keeps b.unstarted (d.onPlat f) :=
  ⟨h.mem, h.regs, h.shadow, fun w => k (h.safe w), fun w => absurd rfl w, h.svn, h.sent⟩

theorem setRaw_keeps {a : Nat} {v : Word} (h : Keeps b d) : Keeps b (d.setRaw a v) :=
  ⟨h.mem, fun w => Map.set_wf resetVal _ _ _ (h.regs w), h.shadow, h.safe, h.time, h.svn, h.sent⟩

theorem setForced_keeps {a : Nat} {v : Word} (h : Keeps b d) : Keeps b (d.setForced a v) :=
  h

theorem setShadowed_keeps {a : Nat} {v : Word} (h : Keeps b d) : Keeps b (d.setShadowed a v) :=
  ⟨h.mem, h.regs, fun w => Map.set_wf resetVal _ _ _ (h.shadow w), h.safe, h.time, h.svn, h.sent⟩

theorem send_keeps {m : OutMsg} (h : Keeps b d) : Keeps b (d.send m) :=
  ⟨h.mem, h.regs, h.shadow, h.safe, h.time, h.svn, h.sent.trans (List.prefix_append _ _)⟩

theorem keeps_reset (h : Keeps b d) {freeCtr readVal : Nat} :
    Keeps b.awake { Dev.reset with mram := d.mram, out := d.out, readVal := readVal, freeCtr := freeCtr } :=
  ⟨fun _ => rfl, fun _ => rfl, fun _ => rfl, (by intro w; cases w), fun w => absurd rfl w, h.svn, h.sent⟩

theorem steps_run {s : State} {f : Dev → Dev} (k : ∀ d, Keeps s.dev d → Keeps s.dev (f d)) : Steps s.dev s (run s f) :=
  ⟨_, rfl, k _ (Keeps.rfl' _)⟩

theorem steps_awake {s : State} {o : Host.Outcome State Fault Refusal} (h : Steps s.dev s o) : Steps s.dev.awake s o :=
  let ⟨e, h1, h2⟩ := h
  ⟨e, h1, keeps_awake h2⟩

theorem steps_unstarted {s : State} {o : Host.Outcome State Fault Refusal} (h : Steps s.dev s o) : Steps s.dev.unstarted s o :=
  let ⟨e, h1, h2⟩ := h
  ⟨e, h1, keeps_unstarted h2⟩

theorem steps_later {s : State} {o : Host.Outcome State Fault Refusal} (h : Steps s.dev.later s o) : Steps s.dev.unstarted s o :=
  let ⟨e, h1, h2⟩ := h
  ⟨e, h1, keeps_later_unstarted h2⟩

theorem steps_unstarted_awake {s : State} {o : Host.Outcome State Fault Refusal} (h : Steps s.dev.unstarted s o) : Steps s.dev.awake s o :=
  let ⟨e, h1, h2⟩ := h
  ⟨e, h1, keeps_unstarted_awake h2⟩

theorem onPlat_keeps {f : Plat → Plat} (h : Keeps b d) (k : d.plat.safe = true → (f d.plat).safe = true)
    (k1 : (f d.plat).tick = d.plat.tick) (k2 : (f d.plat).jdmsel = d.plat.jdmsel) (k3 : (f d.plat).refsel = d.plat.refsel)
    (k4 : (f d.plat).testEn = d.plat.testEn) : Keeps b (d.onPlat f) :=
  ⟨h.mem, h.regs, h.shadow, fun w => k (h.safe w), fun w => ⟨k1.trans (h.time w).1, k2.trans (h.time w).2.1, k3.trans (h.time w).2.2.1,
    k4.trans (h.time w).2.2.2⟩, h.svn, h.sent⟩

theorem onMram_keeps {f : Mram → Mram} (h : Keeps b d) (k : d.mram.svnFloor ≤ (f d.mram).svnFloor) : Keeps b (d.onMram f) :=
  ⟨h.mem, h.regs, h.shadow, h.safe, h.time, Nat.le_trans h.svn k, h.sent⟩

theorem onCst_keeps {f : Cst → Cst} (h : Keeps b d) (k : Map.wf (fun _ => 0) d.cst.mem = true → Map.wf (fun _ => 0) (f d.cst).mem = true) :
    Keeps b (d.onCst f) :=
  ⟨fun w => k (h.mem w), h.regs, h.shadow, h.safe, h.time, h.svn, h.sent⟩

theorem onBpm_keeps {f : Bpm → Bpm} (h : Keeps b d) : Keeps b (d.onBpm f) := h
theorem onMc_keeps {f : Mc → Mc} (h : Keeps b d) : Keeps b (d.onMc f) := h
theorem onIng_keeps {f : Ing → Ing} (h : Keeps b d) : Keeps b (d.onIng f) := h
theorem onSfl_keeps {f : Sfl → Sfl} (h : Keeps b d) : Keeps b (d.onSfl f) := h
theorem onPar_keeps {f : Par → Par} (h : Keeps b d) : Keeps b (d.onPar f) := h
theorem onHat_keeps {f : Hat → Hat} (h : Keeps b d) : Keeps b (d.onHat f) := h
theorem onOdr_keeps {f : Odr → Odr} (h : Keeps b d) : Keeps b (d.onOdr f) := h
theorem onSrv_keeps {f : Srv → Srv} (h : Keeps b d) : Keeps b (d.onSrv f) := h
theorem onMot_keeps {f : Mot → Mot} (h : Keeps b d) : Keeps b (d.onMot f) := h
theorem onCal_keeps {f : Cal → Cal} (h : Keeps b d) : Keeps b (d.onCal f) := h

theorem when_keeps {c : Bool} {f : Dev → Dev} (h : Keeps b d) (k : ∀ d, Keeps b d → Keeps b (f d)) : Keeps b (d.when c f) := by
  unfold Dev.when; split
  · exact k _ h
  · exact h
end

end Sys2Proof.Machine
end

