-- ==== Sys2Proof/Laws/Keeps/Ops.lean ====
section
/-! SUPPORT. What every operation of Machine/Ops.lean keeps. -/
namespace Sys2Proof.Machine
open Sys2Proof

set_option linter.unusedTactic false
set_option linter.unreachableTactic false
set_option linter.tactic.unusedName false

theorem wr_keeps {b : Dev} {x0 : Dev} {x1 : RegField} {x2 : Nat} (hx0 : Keeps b x0) : Keeps b (Dev.wr x0 x1 x2) := by
  unfold Dev.wr
  repeat' first
   | with_reducible assumption
   | extract_lets +onlyGivenNames x
   | with_reducible apply setForced_keeps
   | with_reducible apply setRaw_keeps
   | with_reducible apply setShadowed_keeps
   | with_reducible refine keeps_ite (fun _ => ?_) (fun _ => ?_)

theorem wrB_keeps {b : Dev} {x0 : Dev} {x1 : RegField} {x2 : Bool} (hx0 : Keeps b x0) : Keeps b (Dev.wrB x0 x1 x2) := by
  unfold Dev.wrB
  repeat' first
   | with_reducible assumption
   | with_reducible apply wr_keeps

theorem count_keeps {b : Dev} {x0 : Dev} {x1 : RegField} (hx0 : Keeps b x0) : Keeps b (Dev.count x0 x1) := by
  unfold Dev.count
  repeat' first
   | with_reducible assumption
   | with_reducible apply wr_keeps

theorem countN_keeps {b : Dev} {x0 : Dev} {x1 : RegField} {x2 : Nat} (hx0 : Keeps b x0) : Keeps b (Dev.countN x0 x1 x2) := by
  unfold Dev.countN
  repeat' first
   | with_reducible assumption
   | with_reducible apply wr_keeps

theorem put64_keeps {b : Dev} {x0 : Dev} {x1 : RegField} {x2 : RegField} {x3 : Nat} (hx0 : Keeps b x0) : Keeps b (Dev.put64 x0 x1 x2 x3) := by
  unfold Dev.put64
  repeat' first
   | with_reducible assumption
   | with_reducible exact keeps_mk (kept_of ‹Keeps b _›)
   | (extract_lets +onlyGivenNames x; guard_hyp x : Dev := _; refine (fun (hx : Keeps b x) => ?_) ?_; rotate_left; unfold x; clear x; rotate_right; clear_value x)
   | with_reducible apply wr_keeps

theorem answer_keeps {b : Dev} {x0 : Dev} {x1 : Nat} (hx0 : Keeps b x0) : Keeps b (Dev.answer x0 x1) := by
  unfold Dev.answer
  repeat' first
   | with_reducible exact keeps_mk (kept_of ‹Keeps b _›)

theorem stepFree_keeps {b : Dev} {x0 : Dev} (hx0 : Keeps b x0) : Keeps b (Dev.stepFree x0) := by
  unfold Dev.stepFree
  repeat' first
   | with_reducible exact keeps_mk (kept_of ‹Keeps b _›)

theorem setUnit_keeps {b : Dev} {x0 : Dev} {x1 : Nat} {x2 : UnitSt} (hx0 : Keeps b x0) : Keeps b (Dev.setUnit x0 x1 x2) := by
  unfold Dev.setUnit
  repeat' first
   | with_reducible assumption
   | with_reducible exact fun h => h
   | with_reducible exact rfl
   | with_reducible apply onPlat_keeps

theorem mramPut_keeps {b : Dev} {x0 : Dev} {x1 : Nat} {x2 : Mram → Mram} (hx0 : Keeps b x0) (hx2 : ∀ m, m.svnFloor ≤ (x2 m).svnFloor) : Keeps b (Dev.mramPut x0 x1 x2) := by
  unfold Dev.mramPut
  repeat' first
   | with_reducible assumption
   | extract_lets +onlyGivenNames x
   | with_reducible apply countN_keeps
   | with_reducible apply onMram_keeps
   | with_reducible exact hx2 _

theorem logChip_keeps {b : Dev} {x0 : Dev} {x1 : LogRec} (hx0 : Keeps b x0) : Keeps b (Dev.logChip x0 x1) := by
  unfold Dev.logChip
  repeat' first
   | with_reducible assumption
   | with_reducible exact fun _ => Nat.le_refl _
   | with_reducible apply mramPut_keeps

theorem logEvent_keeps {b : Dev} {x0 : Dev} {x1 : LogRec} (hx0 : Keeps b x0) : Keeps b (Dev.logEvent x0 x1) := by
  unfold Dev.logEvent
  repeat' first
   | with_reducible assumption
   | with_reducible exact fun _ => Nat.le_refl _
   | with_reducible apply mramPut_keeps

theorem logAccess_keeps {b : Dev} {x0 : Dev} {x1 : LogRec} (hx0 : Keeps b x0) : Keeps b (Dev.logAccess x0 x1) := by
  unfold Dev.logAccess
  repeat' first
   | with_reducible assumption
   | with_reducible exact fun _ => Nat.le_refl _
   | with_reducible apply mramPut_keeps

theorem msix_keeps {b : Dev} {x0 : Dev} {x1 : Nat} (hx0 : Keeps b x0) : Keeps b (Dev.msix x0 x1) := by
  unfold Dev.msix
  repeat' first
   | with_reducible assumption
   | extract_lets +onlyGivenNames x
   | with_reducible apply send_keeps
   | with_reducible apply wr_keeps
   | with_reducible refine keeps_ite (fun _ => ?_) (fun _ => ?_)

theorem eventMessage_keeps {b : Dev} {x0 : Dev} {x1 : Nat} (hx0 : Keeps b x0) : Keeps b (Dev.eventMessage x0 x1) := by
  unfold Dev.eventMessage
  repeat' first
   | with_reducible assumption
   | with_reducible exact fun h => h
   | with_reducible exact rfl
   | (extract_lets +onlyGivenNames x; clear_value x)
   | extract_lets +onlyGivenNames x
   | with_reducible apply msix_keeps
   | with_reducible apply onPlat_keeps
   | with_reducible refine keeps_ite (fun _ => ?_) (fun _ => ?_)

theorem event_keeps {b : Dev} {x0 : Dev} {x1 : Nat} (hx0 : Keeps b x0) : Keeps b (Dev.event x0 x1) := by
  unfold Dev.event
  repeat' first
   | with_reducible assumption
   | (extract_lets +onlyGivenNames x; guard_hyp x : Dev := _; refine (fun (hx : Keeps b x) => ?_) ?_; rotate_left; unfold x; clear x; rotate_right; clear_value x)
   | extract_lets +onlyGivenNames x
   | with_reducible apply eventMessage_keeps
   | with_reducible apply wr_keeps
   | with_reducible refine keeps_ite (fun _ => ?_) (fun _ => ?_)

theorem chipEvent_keeps {b : Dev} {x0 : Dev} {x1 : Nat} (hx0 : Keeps b x0) : Keeps b (Dev.chipEvent x0 x1) := by
  unfold Dev.chipEvent
  repeat' first
   | with_reducible assumption
   | (extract_lets +onlyGivenNames x; clear_value x)
   | extract_lets +onlyGivenNames x
   | with_reducible apply event_keeps
   | with_reducible apply logEvent_keeps

theorem report_keeps {b : Dev} {x0 : Dev} {x1 : Nat} {x2 : Nat} {x3 : Nat} {x4 : Nat} (hx0 : Keeps b x0) : Keeps b (Dev.report x0 x1 x2 x3 x4) := by
  unfold Dev.report
  repeat' first
   | with_reducible assumption
   | with_reducible exact fun h => h
   | with_reducible exact rfl
   | (extract_lets +onlyGivenNames x; guard_hyp x : Dev := _; refine (fun (hx : Keeps b x) => ?_) ?_; rotate_left; unfold x; clear x; rotate_right; clear_value x)
   | (extract_lets +onlyGivenNames x; clear_value x)
   | extract_lets +onlyGivenNames x
   | with_reducible apply event_keeps
   | with_reducible apply logChip_keeps
   | with_reducible apply logEvent_keeps
   | with_reducible apply onPlat_keeps
   | with_reducible apply setRaw_keeps
   | with_reducible refine keeps_ite (fun _ => ?_) (fun _ => ?_)

theorem raise_keeps {b : Dev} {x0 : Dev} {x1 : Nat} {x2 : Nat} {x3 : optParam Nat 0} (hx0 : Keeps b x0) : Keeps b (Dev.raise x0 x1 x2 x3) := by
  unfold Dev.raise
  repeat' first
   | with_reducible assumption
   | with_reducible apply report_keeps

theorem raiseAtLeast_keeps {b : Dev} {x0 : Dev} {x1 : Nat} {x2 : Nat} {x3 : Nat} {x4 : optParam Nat 0} (hx0 : Keeps b x0) : Keeps b (Dev.raiseAtLeast x0 x1 x2 x3 x4) := by
  unfold Dev.raiseAtLeast
  repeat' first
   | with_reducible assumption
   | with_reducible apply report_keeps

theorem countIgnored_keeps {b : Dev} {x0 : Dev} {x1 : Nat} {x2 : optParam Nat 0} {x3 : optParam Nat 1} (hx0 : Keeps b x0) : Keeps b (Dev.countIgnored x0 x1 x2 x3) := by
  unfold Dev.countIgnored
  repeat' first
   | with_reducible assumption
   | (extract_lets +onlyGivenNames x; guard_hyp x : Dev := _; refine (fun (hx : Keeps b x) => ?_) ?_; rotate_left; unfold x; clear x; rotate_right; clear_value x)
   | (extract_lets +onlyGivenNames x; clear_value x)
   | with_reducible apply logAccess_keeps
   | with_reducible apply raise_keeps
   | with_reducible apply setRaw_keeps

theorem asWrite_keeps {b : Dev} {x0 : Dev} {x1 : Nat} {x2 : Dev → Dev} (hx0 : Keeps b x0) (hx2 : ∀ d, Keeps b d → Keeps b (x2 d)) : Keeps b (Dev.asWrite x0 x1 x2) := by
  unfold Dev.asWrite
  repeat' first
   | with_reducible assumption
   | extract_lets +onlyGivenNames x
   | with_reducible apply countIgnored_keeps
   | with_reducible refine hx2 _ ?_
   | with_reducible refine keeps_ite (fun _ => ?_) (fun _ => ?_)

theorem takeInjected_keeps {b : Dev} {x0 : Dev} {x1 : Nat} {x2 : Nat} (hx0 : Keeps b x0) : Keeps b (Dev.takeInjected x0 x1 x2) := by
  unfold Dev.takeInjected
  repeat' first
   | with_reducible assumption
   | with_reducible exact fun h => h
   | with_reducible exact rfl
   | with_reducible apply onPlat_keeps

theorem fence1_keeps {b : Dev} {x0 : Dev} {x1 : Nat} {x2 : optParam (Option (Nat × Nat)) Option.none} (hx0 : Keeps b x0) : Keeps b (Dev.fence1 x0 x1 x2) := by
  unfold Dev.fence1
  repeat' first
   | with_reducible assumption
   | with_reducible exact fun h => h
   | with_reducible exact rfl
   | (extract_lets +onlyGivenNames x; guard_hyp x : Dev := _; refine (fun (hx : Keeps b x) => ?_) ?_; rotate_left; unfold x; clear x; rotate_right; clear_value x)
   | (extract_lets +onlyGivenNames x; clear_value x)
   | extract_lets +onlyGivenNames x
   | with_reducible apply onBpm_keeps
   | with_reducible apply onPlat_keeps
   | with_reducible refine keeps_foldl ?_ (fun d x h => ?_)
   | with_reducible refine keeps_ite (fun _ => ?_) (fun _ => ?_)

theorem fence_keeps {b : Dev} {x0 : Dev} {x1 : Nat} {x2 : optParam (Option (Nat × Nat)) Option.none} (hx0 : Keeps b x0) : Keeps b (Dev.fence x0 x1 x2) := by
  unfold Dev.fence
  repeat' first
   | with_reducible assumption
   | (extract_lets +onlyGivenNames x; guard_hyp x : Dev := _; refine (fun (hx : Keeps b x) => ?_) ?_; rotate_left; unfold x; clear x; rotate_right; clear_value x)
   | extract_lets +onlyGivenNames x
   | with_reducible apply fence1_keeps
   | with_reducible refine keeps_ite (fun _ => ?_) (fun _ => ?_)

end Sys2Proof.Machine
end

