-- ==== Sys2Proof/Laws/Keeps/Store.lean ====
section
/-! SUPPORT. What every operation of Machine/Store.lean keeps. -/
namespace Sys2Proof.Machine
open Sys2Proof

set_option linter.unusedTactic false
set_option linter.unreachableTactic false
set_option linter.tactic.unusedName false

theorem setGranuleValid_keeps {b : Dev} {x0 : Dev} {x1 : Nat} {x2 : Bool} (hx0 : Keeps b x0) : Keeps b (Dev.setGranuleValid x0 x1 x2) := by
  unfold Dev.setGranuleValid
  repeat' first
   | with_reducible assumption
   | with_reducible exact fun h => h
   | with_reducible apply onCst_keeps

theorem poke_keeps {b : Dev} {x0 : Dev} {x1 : Nat} {x2 : List Byte} (hx0 : Keeps b x0) : Keeps b (Dev.poke x0 x1 x2) := by
  unfold Dev.poke
  exact ⟨fun w => Map.setRun_wf 0 _ _ _ (hx0.mem w), hx0.regs, hx0.shadow, hx0.safe, hx0.time, hx0.svn, hx0.sent⟩

theorem putLine_keeps {b : Dev} {x0 : Dev} {x1 : Nat} {x2 : List Byte} {x3 : Bool} (hx0 : Keeps b x0) : Keeps b (Dev.putLine x0 x1 x2 x3) := by
  unfold Dev.putLine
  repeat' first
   | with_reducible assumption
   | with_reducible exact fun h => h
   | (extract_lets +onlyGivenNames x; guard_hyp x : Dev := _; refine (fun (hx : Keeps b x) => ?_) ?_; rotate_left; unfold x; clear x; rotate_right; clear_value x)
   | with_reducible apply onCst_keeps
   | with_reducible apply poke_keeps

theorem setBufEnt_keeps {b : Dev} {x0 : Dev} {x1 : Nat} {x2 : BufEnt} (hx0 : Keeps b x0) : Keeps b (Dev.setBufEnt x0 x1 x2) := by
  unfold Dev.setBufEnt
  repeat' first
   | with_reducible assumption
   | with_reducible apply onBpm_keeps

theorem handleFail_keeps {b : Dev} {x0 : Dev} {x1 : Nat} {x2 : Nat} (hx0 : Keeps b x0) : Keeps b (Dev.handleFail x0 x1 x2) := by
  unfold Dev.handleFail
  repeat' first
   | with_reducible assumption
   | extract_lets +onlyGivenNames x
   | with_reducible apply count_keeps
   | with_reducible apply raise_keeps
   | with_reducible apply takeInjected_keeps

theorem tableRead_keeps {b : Dev} {x0 : Dev} {x1 : Option ActBy} {x2 : SramRead} (hx0 : Keeps b x0) : Keeps b (Dev.tableRead x0 x1 x2) := by
  unfold Dev.tableRead
  repeat' first
   | with_reducible assumption
   | (extract_lets +onlyGivenNames x; clear_value x)
   | extract_lets +onlyGivenNames x
   | with_reducible apply setBufEnt_keeps
   | with_reducible apply raise_keeps
   | with_reducible apply takeInjected_keeps
   | with_reducible refine keeps_ite (fun _ => ?_) (fun _ => ?_)
   | split

theorem bitmapLost_keeps {b : Dev} {x0 : Dev} {x1 : Nat} (hx0 : Keeps b x0) : Keeps b (Dev.bitmapLost x0 x1) := by
  unfold Dev.bitmapLost
  repeat' first
   | with_reducible assumption
   | with_reducible exact fun h => h
   | (extract_lets +onlyGivenNames x; guard_hyp x : Dev := _; refine (fun (hx : Keeps b x) => ?_) ?_; rotate_left; unfold x; clear x; rotate_right; clear_value x)
   | (extract_lets +onlyGivenNames x; clear_value x)
   | extract_lets +onlyGivenNames x
   | with_reducible apply wr_keeps
   | with_reducible apply onCst_keeps
   | with_reducible apply stepFree_keeps
   | with_reducible apply poke_keeps
   | with_reducible apply setGranuleValid_keeps
   | with_reducible apply raise_keeps
   | with_reducible apply takeInjected_keeps
   | with_reducible refine keeps_foldl ?_ (fun d x h => ?_)

theorem bitmapRead_keeps {b : Dev} {x0 : Dev} {x1 : Nat} {x2 : SramRead} (hx0 : Keeps b x0) : Keeps b (Dev.bitmapRead x0 x1 x2) := by
  unfold Dev.bitmapRead
  exact keeps_ite (fun _ => bitmapLost_keeps hx0) (fun _ => hx0)

theorem openZero_keeps {b : Dev} {x0 : Dev} {x1 : Nat} {x2 : Nat} {x3 : Nat} (hx0 : Keeps b x0) : Keeps b (Dev.openZero x0 x1 x2 x3) := by
  unfold Dev.openZero
  repeat' first
   | with_reducible assumption
   | with_reducible exact fun h => h
   | (extract_lets +onlyGivenNames x; guard_hyp x : Dev := _; refine (fun (hx : Keeps b x) => ?_) ?_; rotate_left; unfold x; clear x; rotate_right; clear_value x)
   | extract_lets +onlyGivenNames x
   | with_reducible apply count_keeps
   | with_reducible apply onCst_keeps
   | with_reducible apply raise_keeps
   | with_reducible apply setGranuleValid_keeps
   | with_reducible refine keeps_ite (fun _ => ?_) (fun _ => ?_)
   | split

theorem touch_keeps {b : Dev} {x0 : Dev} {x1 : Nat} {x2 : Nat} (hx0 : Keeps b x0) : Keeps b (Dev.touch x0 x1 x2) := by
  unfold Dev.touch
  repeat' first
   | with_reducible assumption
   | with_reducible exact fun h => h
   | (extract_lets +onlyGivenNames x; guard_hyp x : Dev := _; refine (fun (hx : Keeps b x) => ?_) ?_; rotate_left; unfold x; clear x; rotate_right; clear_value x)
   | (extract_lets +onlyGivenNames x; clear_value x)
   | extract_lets +onlyGivenNames x
   | with_reducible apply onCst_keeps
   | with_reducible apply openZero_keeps
   | with_reducible apply wr_keeps
   | with_reducible refine keeps_ite (fun _ => ?_) (fun _ => ?_)

theorem parityMet_keeps {b : Dev} {x0 : Dev} {x1 : Nat} {x2 : Nat} (hx0 : Keeps b x0) : KeepsP b (Dev.parityMet x0 x1 x2) := by
  unfold Dev.parityMet
  repeat' first
   | with_reducible assumption
   | with_reducible refine fun (d : Dev) (h : Keeps b d) => ?_
   | (extract_lets +onlyGivenNames x; guard_hyp x : Dev := _; refine (fun (hx : Keeps b x) => ?_) ?_; rotate_left; unfold x; clear x; rotate_right; clear_value x)
   | (extract_lets +onlyGivenNames x; clear_value x)
   | extract_lets +onlyGivenNames x
   | with_reducible apply count_keeps
   | with_reducible apply fence_keeps
   | with_reducible apply raise_keeps
   | with_reducible apply takeInjected_keeps
   | with_reducible apply when_keeps
   | with_reducible refine keepsP_ite (fun _ => ?_) (fun _ => ?_)
   | with_reducible refine keepsP_mk ?_

theorem writeLine_keeps {b : Dev} {x0 : Dev} {x1 : Nat} {x2 : List Byte} {x3 : Bool} {x4 : Nat} {x5 : optParam Nat 0} (hx0 : Keeps b x0) : Keeps b (Dev.writeLine x0 x1 x2 x3 x4 x5) := by
  unfold Dev.writeLine
  repeat' first
   | with_reducible assumption
   | with_reducible exact fun h => h
   | with_reducible refine fun (d : Dev) (h : Keeps b d) => ?_
   | (generalize hp : Dev.parityMet _ _ _ = p; refine (fun (hk : KeepsP b p) => ?_) (keepsP_gen hp (parityMet_keeps ?_)); rotate_left; clear hp; clear p; rotate_right; clear hp; obtain ⟨y, z⟩ := p; replace hk : Keeps b z := hk; try dsimp -zeta only)
   | (extract_lets +onlyGivenNames x; guard_hyp x : Dev := _; refine (fun (hx : Keeps b x) => ?_) ?_; rotate_left; unfold x; clear x; rotate_right; clear_value x)
   | extract_lets +onlyGivenNames x
   | with_reducible apply count_keeps
   | with_reducible apply onCst_keeps
   | with_reducible apply putLine_keeps
   | with_reducible apply touch_keeps
   | with_reducible apply when_keeps
   | with_reducible refine keeps_ite (fun _ => ?_) (fun _ => ?_)

theorem writeLines_keeps {b : Dev} {x0 : Dev} {x1 : Nat} {x2 : List Byte} {x3 : Bool} {x4 : Nat} (hx0 : Keeps b x0) : Keeps b (Dev.writeLines x0 x1 x2 x3 x4) := by
  unfold Dev.writeLines
  repeat' first
   | with_reducible assumption
   | extract_lets +onlyGivenNames x
   | with_reducible apply writeLine_keeps
   | with_reducible refine keeps_foldl ?_ (fun d x h => ?_)

theorem deliver_keeps {b : Dev} {x0 : Dev} {x1 : Delivered} (hx0 : Keeps b x0) : KeepsP b (Dev.deliver x0 x1) := by
  unfold Dev.deliver
  repeat' first
   | with_reducible assumption
   | with_reducible refine fun (d : Dev) (h : Keeps b d) => ?_
   | extract_lets +onlyGivenNames x
   | with_reducible apply count_keeps
   | with_reducible apply when_keeps
   | with_reducible refine keepsP_mk ?_

theorem seal_keeps {b : Dev} {x0 : Dev} {x1 : Nat} {x2 : List Byte} {x3 : Bool} (hx0 : Keeps b x0) : Keeps b (Dev.seal x0 x1 x2 x3) := by
  unfold Dev.seal
  repeat' first
   | with_reducible assumption
   | with_reducible exact fun h => h
   | (extract_lets +onlyGivenNames x; guard_hyp x : Dev := _; refine (fun (hx : Keeps b x) => ?_) ?_; rotate_left; unfold x; clear x; rotate_right; clear_value x)
   | (extract_lets +onlyGivenNames x; clear_value x)
   | extract_lets +onlyGivenNames x
   | with_reducible apply count_keeps
   | with_reducible apply onCst_keeps
   | with_reducible apply put64_keeps
   | with_reducible apply putLine_keeps
   | with_reducible apply raise_keeps
   | with_reducible refine keeps_ite (fun _ => ?_) (fun _ => ?_)

theorem stackRead_keeps {b : Dev} {x0 : Dev} {x1 : LineRead} {x2 : Bool} (hx0 : Keeps b x0) : KeepsP b (Dev.stackRead x0 x1 x2) := by
  unfold Dev.stackRead
  repeat' first
   | with_reducible assumption
   | with_reducible refine fun (d : Dev) (h : Keeps b d) => ?_
   | (generalize hp : Dev.parityMet _ _ _ = p; refine (fun (hk : KeepsP b p) => ?_) (keepsP_gen hp (parityMet_keeps ?_)); rotate_left; clear hp; clear p; rotate_right; clear hp; obtain ⟨y, z⟩ := p; replace hk : Keeps b z := hk; try dsimp -zeta only)
   | (extract_lets +onlyGivenNames x; guard_hyp x : Dev := _; refine (fun (hx : Keeps b x) => ?_) ?_; rotate_left; unfold x; clear x; rotate_right; clear_value x)
   | (extract_lets +onlyGivenNames x; clear_value x)
   | extract_lets +onlyGivenNames x
   | with_reducible apply count_keeps
   | with_reducible apply putLine_keeps
   | with_reducible apply raise_keeps
   | with_reducible apply seal_keeps
   | with_reducible apply stepFree_keeps
   | with_reducible apply takeInjected_keeps
   | with_reducible apply when_keeps
   | with_reducible refine keepsP_ite (fun _ => ?_) (fun _ => ?_)
   | with_reducible refine keepsP_mk ?_

theorem readRaw_keeps {b : Dev} {x0 : Dev} {x1 : LineRead} (hx0 : Keeps b x0) : KeepsP b (Dev.readRaw x0 x1) := by
  unfold Dev.readRaw
  repeat' first
   | with_reducible assumption
   | (extract_lets +onlyGivenNames x; guard_hyp x : Dev := _; refine (fun (hx : Keeps b x) => ?_) ?_; rotate_left; unfold x; clear x; rotate_right; clear_value x)
   | with_reducible apply bitmapRead_keeps
   | (extract_lets +onlyGivenNames x; clear_value x)
   | (generalize hp : Dev.stackRead _ _ _ = p; refine (fun (hk : KeepsP b p) => ?_) (keepsP_gen hp (stackRead_keeps ?_)); rotate_left; clear hp; clear p; rotate_right; clear hp; obtain ⟨y, z⟩ := p; replace hk : Keeps b z := hk; try dsimp -zeta only)
   | extract_lets +onlyGivenNames x
   | with_reducible refine keepsP_ite (fun _ => ?_) (fun _ => ?_)
   | split
   | with_reducible refine keepsP_mk ?_

theorem readLine_keeps {b : Dev} {x0 : Dev} {x1 : LineRead} (hx0 : Keeps b x0) : KeepsP b (Dev.readLine x0 x1) := by
  unfold Dev.readLine
  repeat' first
   | with_reducible assumption
   | (extract_lets +onlyGivenNames x; guard_hyp x : Dev := _; refine (fun (hx : Keeps b x) => ?_) ?_; rotate_left; unfold x; clear x; rotate_right; clear_value x)
   | with_reducible apply tableRead_keeps
   | (generalize hp : Dev.deliver _ _ = p; refine (fun (hk : KeepsP b p) => ?_) (keepsP_gen hp (deliver_keeps ?_)); rotate_left; clear hp; clear p; rotate_right; clear hp; obtain ⟨y, z⟩ := p; replace hk : Keeps b z := hk; try dsimp -zeta only)
   | (generalize hp : Dev.readRaw _ _ = p; refine (fun (hk : KeepsP b p) => ?_) (keepsP_gen hp (readRaw_keeps ?_)); rotate_left; clear hp; clear p; rotate_right; clear hp; obtain ⟨y, z⟩ := p; replace hk : Keeps b z := hk; try dsimp -zeta only)
   | extract_lets +onlyGivenNames x
   | with_reducible apply handleFail_keeps
   | split
   | with_reducible refine keepsP_mk ?_

theorem readLines_keeps {b : Dev} {x0 : Dev} {x1 : Nat} {x2 : Nat} {x3 : optParam (Option ActBy) none} (hx0 : Keeps b x0) : KeepsP b (Dev.readLines x0 x1 x2 x3) := by
  unfold Dev.readLines
  repeat' first
   | with_reducible assumption
   | (generalize hp : Dev.readLine _ _ = p; refine (fun (hk : KeepsP b p) => ?_) (keepsP_gen hp (readLine_keeps ?_)); rotate_left; clear hp; clear p; rotate_right; clear hp; obtain ⟨y, z⟩ := p; replace hk : Keeps b z := hk; try dsimp -zeta only)
   | extract_lets +onlyGivenNames x
   | with_reducible refine keepsP_foldl ?_ (fun d x h => ?_)
   | with_reducible refine keepsP_mk ?_
   | with_reducible exact keeps_snd ‹KeepsP b _›

theorem closeMerge_keeps {b : Dev} {x0 : Dev} {x1 : MergeEnt} {x2 : LineRead} (hx0 : Keeps b x0) : Keeps b (Dev.closeMerge x0 x1 x2) := by
  unfold Dev.closeMerge
  repeat' first
   | with_reducible assumption
   | with_reducible exact fun h => h
   | with_reducible refine fun (d : Dev) (h : Keeps b d) => ?_
   | (generalize hp : Dev.parityMet _ _ _ = p; refine (fun (hk : KeepsP b p) => ?_) (keepsP_gen hp (parityMet_keeps ?_)); rotate_left; clear hp; clear p; rotate_right; clear hp; obtain ⟨y, z⟩ := p; replace hk : Keeps b z := hk; try dsimp -zeta only)
   | (generalize hp : Dev.stackRead _ _ _ = p; refine (fun (hk : KeepsP b p) => ?_) (keepsP_gen hp (stackRead_keeps ?_)); rotate_left; clear hp; clear p; rotate_right; clear hp; obtain ⟨y, z⟩ := p; replace hk : Keeps b z := hk; try dsimp -zeta only)
   | (extract_lets +onlyGivenNames x; guard_hyp x : Dev := _; refine (fun (hx : Keeps b x) => ?_) ?_; rotate_left; unfold x; clear x; rotate_right; clear_value x)
   | (extract_lets +onlyGivenNames x; clear_value x)
   | extract_lets +onlyGivenNames x
   | with_reducible apply bitmapRead_keeps
   | with_reducible apply count_keeps
   | with_reducible apply onCst_keeps
   | with_reducible apply putLine_keeps
   | with_reducible apply raise_keeps
   | with_reducible apply takeInjected_keeps
   | with_reducible apply touch_keeps
   | with_reducible apply when_keeps
   | with_reducible refine keeps_ite (fun _ => ?_) (fun _ => ?_)
   | split

theorem narrow_keeps {b : Dev} {x0 : Dev} {x1 : Nat} {x2 : List Byte} {x3 : Bool} {x4 : Nat} (hx0 : Keeps b x0) : Keeps b (Dev.narrow x0 x1 x2 x3 x4) := by
  unfold Dev.narrow
  repeat' first
   | with_reducible assumption
   | with_reducible exact fun h => h
   | with_reducible refine fun (d : Dev) (h : Keeps b d) => ?_
   | (extract_lets +onlyGivenNames x; guard_hyp x : Dev := _; refine (fun (hx : Keeps b x) => ?_) ?_; rotate_left; unfold x; clear x; rotate_right; clear_value x)
   | (extract_lets +onlyGivenNames x; clear_value x)
   | extract_lets +onlyGivenNames x
   | with_reducible apply closeMerge_keeps
   | with_reducible apply count_keeps
   | with_reducible apply onCst_keeps
   | with_reducible apply when_keeps
   | with_reducible refine keeps_ite (fun _ => ?_) (fun _ => ?_)
   | split

theorem storeReadNow_keeps {b : Dev} {x0 : Dev} {x1 : LineRead} {x2 : Bool} (hx0 : Keeps b x0) : Keeps b (Dev.storeReadNow x0 x1 x2) := by
  unfold Dev.storeReadNow
  repeat' first
   | with_reducible assumption
   | with_reducible refine fun (d : Dev) (h : Keeps b d) => ?_
   | (generalize hp : Dev.readLine _ _ = p; refine (fun (hk : KeepsP b p) => ?_) (keepsP_gen hp (readLine_keeps ?_)); rotate_left; clear hp; clear p; rotate_right; clear hp; obtain ⟨y, z⟩ := p; replace hk : Keeps b z := hk; try dsimp -zeta only)
   | extract_lets +onlyGivenNames x
   | with_reducible apply count_keeps
   | with_reducible apply send_keeps
   | with_reducible apply when_keeps

theorem storeWriteNow_keeps {b : Dev} {x0 : Dev} {x1 : LineWrite} (hx0 : Keeps b x0) : Keeps b (Dev.storeWriteNow x0 x1) := by
  unfold Dev.storeWriteNow
  repeat' first
   | with_reducible assumption
   | (extract_lets +onlyGivenNames x; guard_hyp x : Dev := _; refine (fun (hx : Keeps b x) => ?_) ?_; rotate_left; unfold x; clear x; rotate_right; clear_value x)
   | (extract_lets +onlyGivenNames x; clear_value x)
   | extract_lets +onlyGivenNames x
   | with_reducible apply bitmapRead_keeps
   | with_reducible apply handleFail_keeps
   | with_reducible apply narrow_keeps
   | with_reducible apply tableRead_keeps
   | with_reducible apply writeLine_keeps
   | with_reducible refine keeps_ite (fun _ => ?_) (fun _ => ?_)
   | split

theorem storeRead_keeps {b : Dev} {x0 : Dev} {x1 : LineRead} {x2 : Bool} (hx0 : Keeps b x0) : Keeps b (Dev.storeRead x0 x1 x2) := by
  unfold Dev.storeRead
  repeat' first
   | with_reducible assumption
   | with_reducible exact fun h => h
   | extract_lets +onlyGivenNames x
   | with_reducible apply onCst_keeps
   | with_reducible apply storeReadNow_keeps
   | with_reducible refine keeps_ite (fun _ => ?_) (fun _ => ?_)

theorem storeWrite_keeps {b : Dev} {x0 : Dev} {x1 : LineWrite} (hx0 : Keeps b x0) : Keeps b (Dev.storeWrite x0 x1) := by
  unfold Dev.storeWrite
  repeat' first
   | with_reducible assumption
   | with_reducible exact fun h => h
   | extract_lets +onlyGivenNames x
   | with_reducible apply onCst_keeps
   | with_reducible apply storeWriteNow_keeps
   | with_reducible refine keeps_ite (fun _ => ?_) (fun _ => ?_)

theorem passTo_keeps {b : Dev} {x0 : Dev} {x1 : Nat} {x2 : Nat} {x3 : Nat} (hx0 : Keeps b x0) : Keeps b (Dev.passTo x0 x1 x2 x3) := by
  unfold Dev.passTo
  repeat' first
   | with_reducible assumption
   | (extract_lets +onlyGivenNames x; clear_value x)
   | extract_lets +onlyGivenNames x
   | with_reducible apply setBufEnt_keeps
   | with_reducible refine keeps_ite (fun _ => ?_) (fun _ => ?_)

theorem proceed_keeps {b : Dev} {x0 : Dev} {x1 : Waiter} (hx0 : Keeps b x0) : Keeps b (Dev.proceed x0 x1) := by
  unfold Dev.proceed
  repeat' first
   | with_reducible assumption
   | with_reducible apply passTo_keeps
   | with_reducible apply storeReadNow_keeps
   | with_reducible apply storeWriteNow_keeps
   | split

theorem zeroFill_keeps {b : Dev} {x0 : Dev} {x1 : ZeroEnt} (hx0 : Keeps b x0) : Keeps b (Dev.zeroFill x0 x1) := by
  unfold Dev.zeroFill
  repeat' first
   | with_reducible assumption
   | (extract_lets +onlyGivenNames x; clear_value x)
   | extract_lets +onlyGivenNames x
   | with_reducible apply putLine_keeps
   | with_reducible refine keeps_foldl ?_ (fun d x h => ?_)
   | with_reducible refine keeps_ite (fun _ => ?_) (fun _ => ?_)

theorem zeroFillDone_keeps {b : Dev} {x0 : Dev} {x1 : Nat} (hx0 : Keeps b x0) : Keeps b (Dev.zeroFillDone x0 x1) := by
  unfold Dev.zeroFillDone
  repeat' first
   | with_reducible assumption
   | with_reducible exact fun h => h
   | (extract_lets +onlyGivenNames x; guard_hyp x : Dev := _; refine (fun (hx : Keeps b x) => ?_) ?_; rotate_left; unfold x; clear x; rotate_right; clear_value x)
   | (extract_lets +onlyGivenNames x; clear_value x)
   | extract_lets +onlyGivenNames x
   | with_reducible apply onCst_keeps
   | with_reducible apply proceed_keeps
   | with_reducible apply zeroFill_keeps
   | with_reducible refine keeps_foldl ?_ (fun d x h => ?_)

theorem scrubLine_keeps {b : Dev} {x0 : Dev} {x1 : List LineRead} {x2 : Nat} (hx0 : Keeps b x0) : Keeps b (Dev.scrubLine x0 x1 x2) := by
  unfold Dev.scrubLine
  repeat' first
   | with_reducible assumption
   | (generalize hp : Dev.stackRead _ _ _ = p; refine (fun (hk : KeepsP b p) => ?_) (keepsP_gen hp (stackRead_keeps ?_)); rotate_left; clear hp; clear p; rotate_right; clear hp; obtain ⟨y, z⟩ := p; replace hk : Keeps b z := hk; try dsimp -zeta only)
   | (extract_lets +onlyGivenNames x; clear_value x)
   | with_reducible refine keeps_ite (fun _ => ?_) (fun _ => ?_)

theorem scrubStep_keeps {b : Dev} {x0 : Dev} {x1 : List LineRead} (hx0 : Keeps b x0) : Keeps b (Dev.scrubStep x0 x1) := by
  unfold Dev.scrubStep
  repeat' first
   | with_reducible assumption
   | (extract_lets +onlyGivenNames x; guard_hyp x : Dev := _; refine (fun (hx : Keeps b x) => ?_) ?_; rotate_left; unfold x; clear x; rotate_right; clear_value x)
   | (extract_lets +onlyGivenNames x; clear_value x)
   | extract_lets +onlyGivenNames x
   | with_reducible apply scrubLine_keeps
   | with_reducible apply wr_keeps
   | with_reducible refine keeps_ite (fun _ => ?_) (fun _ => ?_)

theorem scrub_keeps {b : Dev} {x0 : Dev} {x1 : List LineRead} (hx0 : Keeps b x0) : Keeps b (Dev.scrub x0 x1) := by
  unfold Dev.scrub
  repeat' first
   | with_reducible assumption
   | extract_lets +onlyGivenNames x
   | with_reducible apply scrubStep_keeps
   | with_reducible refine keeps_foldl ?_ (fun d x h => ?_)
   | with_reducible refine keeps_ite (fun _ => ?_) (fun _ => ?_)

theorem stackTrained_keeps {b : Dev} {x0 : Dev} {x1 : Nat} {x2 : Bool} {x3 : Nat} (hx0 : Keeps b x0) : Keeps b (Dev.stackTrained x0 x1 x2 x3) := by
  unfold Dev.stackTrained
  repeat' first
   | with_reducible assumption
   | with_reducible exact fun h => h
   | with_reducible refine fun (d : Dev) (h : Keeps b d) => ?_
   | (extract_lets +onlyGivenNames x; guard_hyp x : Dev := _; refine (fun (hx : Keeps b x) => ?_) ?_; rotate_left; unfold x; clear x; rotate_right; clear_value x)
   | (extract_lets +onlyGivenNames x; clear_value x)
   | extract_lets +onlyGivenNames x
   | with_reducible apply fence1_keeps
   | with_reducible apply onBpm_keeps
   | with_reducible apply onCst_keeps
   | with_reducible apply raise_keeps
   | with_reducible apply setUnit_keeps
   | with_reducible apply when_keeps
   | with_reducible apply wr_keeps
   | with_reducible refine keeps_ite (fun _ => ?_) (fun _ => ?_)

theorem execStoreRead_keeps {x0 : LineRead} {x1 : State}  : Steps x1.dev x1 (execStoreRead x0 x1) := by
  unfold execStoreRead
  refine steps_run (fun d h => ?_)
  repeat' first
   | with_reducible assumption
   | extract_lets +onlyGivenNames x
   | with_reducible apply storeRead_keeps

theorem execZeroFillDone_keeps {x0 : Nat} {x1 : State}  : Steps x1.dev x1 (execZeroFillDone x0 x1) := by
  unfold execZeroFillDone
  refine steps_run (fun d h => ?_)
  repeat' first
   | with_reducible assumption
   | extract_lets +onlyGivenNames x
   | with_reducible apply zeroFillDone_keeps

theorem execMergeClose_keeps {x0 : LineRead} {x1 : State}  : Steps x1.dev x1 (execMergeClose x0 x1) := by
  unfold execMergeClose
  refine steps_run (fun d h => ?_)
  repeat' first
   | with_reducible assumption
   | extract_lets +onlyGivenNames x
   | with_reducible apply closeMerge_keeps
   | split

theorem execScrubTick_keeps {x0 : List LineRead} {x1 : State}  : Steps x1.dev x1 (execScrubTick x0 x1) := by
  unfold execScrubTick
  refine steps_run (fun d h => ?_)
  repeat' first
   | with_reducible assumption
   | extract_lets +onlyGivenNames x
   | with_reducible apply scrub_keeps

end Sys2Proof.Machine
end

