-- ==== Sys2Proof/Laws/Keeps/Cache.lean ====
section
/-! SUPPORT. What every operation of Machine/Cache.lean keeps. -/
namespace Sys2Proof.Machine
open Sys2Proof

set_option linter.unusedTactic false
set_option linter.unreachableTactic false
set_option linter.tactic.unusedName false

theorem setL1_keeps {b : Dev} {x0 : Dev} {x1 : Nat} {x2 : Nat} {x3 : List (Option Nat)} (hx0 : Keeps b x0) : Keeps b (Dev.setL1 x0 x1 x2 x3) := by
  unfold Dev.setL1
  repeat' first
   | with_reducible assumption
   | with_reducible apply onMc_keeps

theorem touchL1_keeps {b : Dev} {x0 : Dev} {x1 : Nat} {x2 : Nat} {x3 : Nat} (hx0 : Keeps b x0) : Keeps b (Dev.touchL1 x0 x1 x2 x3) := by
  unfold Dev.touchL1
  repeat' first
   | with_reducible assumption
   | with_reducible apply onMc_keeps

theorem setL2_keeps {b : Dev} {x0 : Dev} {x1 : Nat} {x2 : List (Option L2Way)} (hx0 : Keeps b x0) : Keeps b (Dev.setL2 x0 x1 x2) := by
  unfold Dev.setL2
  repeat' first
   | with_reducible assumption
   | with_reducible apply onMc_keeps

theorem onL2_keeps {b : Dev} {x0 : Dev} {x1 : Nat} {x2 : L2Way → L2Way} (hx0 : Keeps b x0) : Keeps b (Dev.onL2 x0 x1 x2) := by
  unfold Dev.onL2
  repeat' first
   | with_reducible assumption
   | with_reducible apply setL2_keeps

theorem invalL1_keeps {b : Dev} {x0 : Dev} {x1 : Nat} {x2 : Option Nat} (hx0 : Keeps b x0) : Keeps b (Dev.invalL1 x0 x1 x2) := by
  unfold Dev.invalL1
  repeat' first
   | with_reducible assumption
   | (extract_lets +onlyGivenNames x; guard_hyp x : Dev := _; refine (fun (hx : Keeps b x) => ?_) ?_; rotate_left; unfold x; clear x; rotate_right; clear_value x)
   | extract_lets +onlyGivenNames x
   | with_reducible apply onL2_keeps
   | with_reducible apply setL1_keeps
   | with_reducible refine keeps_foldl ?_ (fun d x h => ?_)
   | with_reducible refine keeps_ite (fun _ => ?_) (fun _ => ?_)

theorem dropL2_keeps {b : Dev} {x0 : Dev} {x1 : Nat} (hx0 : Keeps b x0) : Keeps b (Dev.dropL2 x0 x1) := by
  unfold Dev.dropL2
  repeat' first
   | with_reducible assumption
   | (extract_lets +onlyGivenNames x; guard_hyp x : Dev := _; refine (fun (hx : Keeps b x) => ?_) ?_; rotate_left; unfold x; clear x; rotate_right; clear_value x)
   | with_reducible apply invalL1_keeps
   | with_reducible apply setL2_keeps

theorem fillL1_keeps {b : Dev} {x0 : Dev} {x1 : Nat} {x2 : Nat} (hx0 : Keeps b x0) : Keeps b (Dev.fillL1 x0 x1 x2) := by
  unfold Dev.fillL1
  repeat' first
   | with_reducible assumption
   | (extract_lets +onlyGivenNames x; guard_hyp x : Dev := _; refine (fun (hx : Keeps b x) => ?_) ?_; rotate_left; unfold x; clear x; rotate_right; clear_value x)
   | (extract_lets +onlyGivenNames x; clear_value x)
   | extract_lets +onlyGivenNames x
   | with_reducible apply onL2_keeps
   | with_reducible apply setL1_keeps
   | with_reducible apply touchL1_keeps
   | split

theorem install_keeps {b : Dev} {x0 : Dev} {x1 : L2Way} {x2 : Nat} (hx0 : Keeps b x0) : KeepsP b (Dev.install x0 x1 x2) := by
  unfold Dev.install
  repeat' first
   | with_reducible assumption
   | with_reducible refine fun (d : Dev) (h : Keeps b d) => ?_
   | (extract_lets +onlyGivenNames x; guard_hyp x : Dev := _; refine (fun (hx : Keeps b x) => ?_) ?_; rotate_left; unfold x; clear x; rotate_right; clear_value x)
   | extract_lets +onlyGivenNames x
   | with_reducible apply invalL1_keeps
   | with_reducible apply onMc_keeps
   | with_reducible apply setL2_keeps
   | with_reducible apply when_keeps
   | with_reducible refine keepsP_ite (fun _ => ?_) (fun _ => ?_)
   | split
   | with_reducible refine keepsP_mk ?_

theorem drainWt_keeps {b : Dev} {x0 : Dev} {x1 : WtEnt} (hx0 : Keeps b x0) : Keeps b (Dev.drainWt x0 x1) := by
  unfold Dev.drainWt
  repeat' first
   | with_reducible assumption
   | (extract_lets +onlyGivenNames x; guard_hyp x : Dev := _; refine (fun (hx : Keeps b x) => ?_) ?_; rotate_left; unfold x; clear x; rotate_right; clear_value x)
   | (extract_lets +onlyGivenNames x; clear_value x)
   | extract_lets +onlyGivenNames x
   | with_reducible apply count_keeps
   | with_reducible apply narrow_keeps
   | with_reducible apply onMc_keeps
   | with_reducible apply writeLine_keeps
   | with_reducible refine keeps_foldl ?_ (fun d x h => ?_)
   | with_reducible refine keeps_ite (fun _ => ?_) (fun _ => ?_)

theorem mergeBufDrain_keeps {b : Dev} {x0 : Dev} {x1 : Nat} (hx0 : Keeps b x0) : Keeps b (Dev.mergeBufDrain x0 x1) := by
  unfold Dev.mergeBufDrain
  repeat' first
   | with_reducible assumption
   | extract_lets +onlyGivenNames x
   | with_reducible apply drainWt_keeps
   | with_reducible refine keeps_foldl ?_ (fun d x h => ?_)
   | split

theorem mcLast_keeps {b : Dev} {x0 : Dev} {x1 : Nat} (hx0 : Keeps b x0) : Keeps b (Dev.mcLast x0 x1) := by
  unfold Dev.mcLast
  repeat' first
   | with_reducible assumption
   | with_reducible apply put64_keeps

theorem toAgent_keeps {b : Dev} {x0 : Dev} {x1 : Nat} {x2 : Nat} {x3 : List Byte} {x4 : Bool} (hx0 : Keeps b x0) : Keeps b (Dev.toAgent x0 x1 x2 x3 x4) := by
  unfold Dev.toAgent
  repeat' first
   | with_reducible assumption
   | with_reducible refine fun (d : Dev) (h : Keeps b d) => ?_
   | (extract_lets +onlyGivenNames x; guard_hyp x : Dev := _; refine (fun (hx : Keeps b x) => ?_) ?_; rotate_left; unfold x; clear x; rotate_right; clear_value x)
   | (extract_lets +onlyGivenNames x; clear_value x)
   | extract_lets +onlyGivenNames x
   | with_reducible apply count_keeps
   | with_reducible apply mcLast_keeps
   | with_reducible apply raise_keeps
   | with_reducible apply send_keeps
   | with_reducible apply takeInjected_keeps
   | with_reducible apply when_keeps

theorem enterWt_keeps {b : Dev} {x0 : Dev} {x1 : Nat} {x2 : List (Nat × Byte)} {x3 : Nat} (hx0 : Keeps b x0) : Keeps b (Dev.enterWt x0 x1 x2 x3) := by
  unfold Dev.enterWt
  repeat' first
   | with_reducible assumption
   | (extract_lets +onlyGivenNames x; guard_hyp x : Dev := _; refine (fun (hx : Keeps b x) => ?_) ?_; rotate_left; unfold x; clear x; rotate_right; clear_value x)
   | extract_lets +onlyGivenNames x
   | with_reducible apply drainWt_keeps
   | with_reducible apply mergeBufDrain_keeps
   | with_reducible apply onMc_keeps
   | with_reducible refine keeps_ite (fun _ => ?_) (fun _ => ?_)
   | split

theorem stall_keeps {b : Dev} {x0 : Dev} {x1 : FillReq} (hx0 : Keeps b x0) : Keeps b (Dev.stall x0 x1) := by
  unfold Dev.stall
  repeat' first
   | with_reducible assumption
   | with_reducible apply onMc_keeps

theorem askFill_keeps {b : Dev} {x0 : Dev} {x1 : FillReq} (hx0 : Keeps b x0) : Keeps b (Dev.askFill x0 x1) := by
  unfold Dev.askFill
  repeat' first
   | with_reducible assumption
   | with_reducible apply onMc_keeps

theorem queueUp_keeps {b : Dev} {x0 : Dev} {x1 : FillReq} (hx0 : Keeps b x0) : Keeps b (Dev.queueUp x0 x1) := by
  unfold Dev.queueUp
  repeat' first
   | with_reducible assumption
   | extract_lets +onlyGivenNames x
   | with_reducible apply askFill_keeps
   | with_reducible apply stall_keeps
   | with_reducible refine keeps_ite (fun _ => ?_) (fun _ => ?_)

theorem supersede_keeps {b : Dev} {x0 : Dev} {x1 : Nat} (hx0 : Keeps b x0) : Keeps b (Dev.supersede x0 x1) := by
  unfold Dev.supersede
  repeat' first
   | with_reducible assumption
   | (extract_lets +onlyGivenNames x; clear_value x)
   | with_reducible apply onMc_keeps

theorem reinstall_keeps {b : Dev} {x0 : Dev} {x1 : Victim} {x2 : FillReq} (hx0 : Keeps b x0) : Keeps b (Dev.reinstall x0 x1 x2) := by
  unfold Dev.reinstall
  repeat' first
   | with_reducible assumption
   | (generalize hp : Dev.install _ _ _ = p; refine (fun (hk : KeepsP b p) => ?_) (keepsP_gen hp (install_keeps ?_)); rotate_left; clear hp; clear p; rotate_right; clear hp; obtain ⟨y, z⟩ := p; replace hk : Keeps b z := hk; try dsimp -zeta only)
   | (extract_lets +onlyGivenNames x; guard_hyp x : Dev := _; refine (fun (hx : Keeps b x) => ?_) ?_; rotate_left; unfold x; clear x; rotate_right; clear_value x)
   | (extract_lets +onlyGivenNames x; clear_value x)
   | extract_lets +onlyGivenNames x
   | with_reducible apply onMc_keeps
   | with_reducible apply stall_keeps
   | with_reducible apply writeLine_keeps
   | with_reducible refine keeps_ite (fun _ => ?_) (fun _ => ?_)

theorem finishFill_keeps {b : Dev} {x0 : Dev} {x1 : FillReq} (hx0 : Keeps b x0) : KeepsP b (Dev.finishFill x0 x1) := by
  unfold Dev.finishFill
  repeat' first
   | with_reducible assumption
   | with_reducible refine fun (d : Dev) (h : Keeps b d) => ?_
   | (generalize hp : Dev.install _ _ _ = p; refine (fun (hk : KeepsP b p) => ?_) (keepsP_gen hp (install_keeps ?_)); rotate_left; clear hp; clear p; rotate_right; clear hp; obtain ⟨y, z⟩ := p; replace hk : Keeps b z := hk; try dsimp -zeta only)
   | (extract_lets +onlyGivenNames x; guard_hyp x : Dev := _; refine (fun (hx : Keeps b x) => ?_) ?_; rotate_left; unfold x; clear x; rotate_right; clear_value x)
   | (extract_lets +onlyGivenNames x; guard_hyp x : _ → _ := _; refine (fun (hl1 : ∀ (d0 : Dev), Keeps b d0 → Keeps b (x d0)) => ?_) ?_; rotate_left; unfold x; clear x; intro d0 hd0; beta_reduce; rotate_right; clear_value x)
   | (extract_lets +onlyGivenNames x; clear_value x)
   | extract_lets +onlyGivenNames x
   | with_reducible apply askFill_keeps
   | with_reducible apply count_keeps
   | with_reducible apply fillL1_keeps
   | with_reducible apply invalL1_keeps
   | with_reducible apply onL2_keeps
   | with_reducible apply reinstall_keeps
   | with_reducible apply stall_keeps
   | with_reducible apply toAgent_keeps
   | with_reducible apply when_keeps
   | with_reducible apply writeLine_keeps
   | with_reducible refine hl1 _ ?_
   | with_reducible refine keeps_ite (fun _ => ?_) (fun _ => ?_)
   | with_reducible refine keepsP_ite (fun _ => ?_) (fun _ => ?_)
   | split
   | with_reducible refine keepsP_mk ?_

theorem uncachedNow_keeps {b : Dev} {x0 : Dev} {x1 : CacheAcc} {x2 : Bool} (hx0 : Keeps b x0) : Keeps b (Dev.uncachedNow x0 x1 x2) := by
  unfold Dev.uncachedNow
  repeat' first
   | with_reducible assumption
   | (generalize hp : Dev.readLine _ _ = p; refine (fun (hk : KeepsP b p) => ?_) (keepsP_gen hp (readLine_keeps ?_)); rotate_left; clear hp; clear p; rotate_right; clear hp; obtain ⟨y, z⟩ := p; replace hk : Keeps b z := hk; try dsimp -zeta only)
   | extract_lets +onlyGivenNames x
   | with_reducible apply narrow_keeps
   | with_reducible apply toAgent_keeps
   | with_reducible apply writeLine_keeps
   | with_reducible refine keeps_ite (fun _ => ?_) (fun _ => ?_)

theorem uncached_keeps {b : Dev} {x0 : Dev} {x1 : CacheAcc} {x2 : Bool} (hx0 : Keeps b x0) : Keeps b (Dev.uncached x0 x1 x2) := by
  unfold Dev.uncached
  repeat' first
   | with_reducible assumption
   | extract_lets +onlyGivenNames x
   | with_reducible apply onMc_keeps
   | with_reducible apply uncachedNow_keeps
   | with_reducible refine keeps_ite (fun _ => ?_) (fun _ => ?_)

theorem laterGo_keeps {b : Dev} {x0 : Dev} {x1 : List (CacheAcc × Bool)} (hx0 : Keeps b x0) : Keeps b (Dev.laterGo x0 x1) := by
  induction x1 generalizing x0 with
  | nil =>
    unfold Dev.laterGo
    repeat' first
     | with_reducible assumption
  | cons y l ih =>
    unfold Dev.laterGo
    repeat' first
     | with_reducible assumption
     | with_reducible apply ih
     | extract_lets +onlyGivenNames x
     | with_reducible apply uncached_keeps

theorem laterDue_keeps {b : Dev} {x0 : Dev} (hx0 : Keeps b x0) : Keeps b (Dev.laterDue x0) := by
  unfold Dev.laterDue
  repeat' first
   | with_reducible assumption
   | extract_lets +onlyGivenNames x
   | with_reducible apply laterGo_keeps
   | with_reducible apply onMc_keeps

theorem resumeGo_keeps {b : Dev} {x0 : Dev} {x1 : List FillReq} (hx0 : Keeps b x0) : Keeps b (Dev.resumeGo x0 x1) := by
  induction x1 generalizing x0 with
  | nil =>
    unfold Dev.resumeGo
    repeat' first
     | with_reducible assumption
  | cons y l ih =>
    unfold Dev.resumeGo
    repeat' first
     | with_reducible assumption
     | with_reducible apply ih
     | (generalize hp : Dev.finishFill _ _ = p; refine (fun (hk : KeepsP b p) => ?_) (keepsP_gen hp (finishFill_keeps ?_)); rotate_left; clear hp; clear p; rotate_right; clear hp; obtain ⟨y, z⟩ := p; replace hk : Keeps b z := hk; try dsimp -zeta only)
     | extract_lets +onlyGivenNames x
     | with_reducible apply stall_keeps
     | with_reducible refine keeps_ite (fun _ => ?_) (fun _ => ?_)

theorem resume_keeps {b : Dev} {x0 : Dev} (hx0 : Keeps b x0) : Keeps b (Dev.resume x0) := by
  unfold Dev.resume
  repeat' first
   | with_reducible assumption
   | extract_lets +onlyGivenNames x
   | with_reducible apply laterDue_keeps
   | with_reducible apply onMc_keeps
   | with_reducible apply resumeGo_keeps

theorem holdLine_keeps {b : Dev} {x0 : Dev} {x1 : Nat} {x2 : Nat} (hx0 : Keeps b x0) : Keeps b (Dev.holdLine x0 x1 x2) := by
  unfold Dev.holdLine
  repeat' first
   | with_reducible assumption
   | (extract_lets +onlyGivenNames x; guard_hyp x : Dev := _; refine (fun (hx : Keeps b x) => ?_) ?_; rotate_left; unfold x; clear x; rotate_right; clear_value x)
   | extract_lets +onlyGivenNames x
   | with_reducible apply count_keeps
   | with_reducible apply drainWt_keeps
   | with_reducible apply dropL2_keeps
   | with_reducible apply mcLast_keeps
   | with_reducible apply onMc_keeps
   | with_reducible apply raise_keeps
   | with_reducible apply resume_keeps
   | with_reducible apply writeLine_keeps
   | with_reducible refine keeps_foldl ?_ (fun d x h => ?_)
   | with_reducible refine keeps_ite (fun _ => ?_) (fun _ => ?_)

theorem startPrefetch_keeps {b : Dev} {x0 : Dev} {x1 : Nat} {x2 : Nat} (hx0 : Keeps b x0) : Keeps b (Dev.startPrefetch x0 x1 x2) := by
  unfold Dev.startPrefetch
  repeat' first
   | with_reducible assumption
   | (extract_lets +onlyGivenNames x; clear_value x)
   | extract_lets +onlyGivenNames x
   | with_reducible apply count_keeps
   | with_reducible apply onMc_keeps
   | with_reducible refine keeps_foldl ?_ (fun d x h => ?_)
   | with_reducible refine keeps_ite (fun _ => ?_) (fun _ => ?_)

theorem sideToL2_keeps {b : Dev} {x0 : Dev} {x1 : Nat} {x2 : Nat} {x3 : List Byte} {x4 : Bool} {x5 : Nat} (hx0 : Keeps b x0) : KeepsP b (Dev.sideToL2 x0 x1 x2 x3 x4 x5) := by
  unfold Dev.sideToL2
  repeat' first
   | with_reducible assumption
   | with_reducible refine fun (d : Dev) (h : Keeps b d) => ?_
   | (generalize hp : Dev.install _ _ _ = p; refine (fun (hk : KeepsP b p) => ?_) (keepsP_gen hp (install_keeps ?_)); rotate_left; clear hp; clear p; rotate_right; clear hp; obtain ⟨y, z⟩ := p; replace hk : Keeps b z := hk; try dsimp -zeta only)
   | extract_lets +onlyGivenNames x
   | with_reducible apply onMc_keeps
   | with_reducible apply when_keeps
   | with_reducible refine keepsP_mk ?_

theorem readMiss_keeps {b : Dev} {x0 : Dev} {x1 : Nat} {x2 : CacheAcc} (hx0 : Keeps b x0) : Keeps b (Dev.readMiss x0 x1 x2) := by
  unfold Dev.readMiss
  repeat' first
   | with_reducible assumption
   | with_reducible refine fun (d : Dev) (h : Keeps b d) => ?_
   | (extract_lets +onlyGivenNames x; guard_hyp x : Dev := _; refine (fun (hx : Keeps b x) => ?_) ?_; rotate_left; unfold x; clear x; rotate_right; clear_value x)
   | (extract_lets +onlyGivenNames x; clear_value x)
   | extract_lets +onlyGivenNames x
   | with_reducible apply count_keeps
   | with_reducible apply queueUp_keeps
   | with_reducible apply startPrefetch_keeps
   | with_reducible apply when_keeps

theorem cachedRead_keeps {b : Dev} {x0 : Dev} {x1 : Nat} {x2 : CacheAcc} (hx0 : Keeps b x0) : Keeps b (Dev.cachedRead x0 x1 x2) := by
  unfold Dev.cachedRead
  repeat' first
   | with_reducible assumption
   | with_reducible refine fun (d : Dev) (h : Keeps b d) => ?_
   | (generalize hp : Dev.sideToL2 _ _ _ _ _ _ = p; refine (fun (hk : KeepsP b p) => ?_) (keepsP_gen hp (sideToL2_keeps ?_)); rotate_left; clear hp; clear p; rotate_right; clear hp; obtain ⟨y, z⟩ := p; replace hk : Keeps b z := hk; try dsimp -zeta only)
   | (extract_lets +onlyGivenNames x; guard_hyp x : Dev := _; refine (fun (hx : Keeps b x) => ?_) ?_; rotate_left; unfold x; clear x; rotate_right; clear_value x)
   | (extract_lets +onlyGivenNames x; clear_value x)
   | extract_lets +onlyGivenNames x
   | with_reducible apply count_keeps
   | with_reducible apply fillL1_keeps
   | with_reducible apply onL2_keeps
   | with_reducible apply readMiss_keeps
   | with_reducible apply toAgent_keeps
   | with_reducible apply when_keeps
   | with_reducible refine keeps_ite (fun _ => ?_) (fun _ => ?_)
   | split

theorem cacheFault_keeps {b : Dev} {x0 : Dev} {x1 : CacheAcc} (hx0 : Keeps b x0) : Keeps b (Dev.cacheFault x0 x1) := by
  unfold Dev.cacheFault
  repeat' first
   | with_reducible assumption
   | with_reducible refine fun (d : Dev) (h : Keeps b d) => ?_
   | (extract_lets +onlyGivenNames x; guard_hyp x : Dev := _; refine (fun (hx : Keeps b x) => ?_) ?_; rotate_left; unfold x; clear x; rotate_right; clear_value x)
   | (extract_lets +onlyGivenNames x; clear_value x)
   | extract_lets +onlyGivenNames x
   | with_reducible apply count_keeps
   | with_reducible apply dropL2_keeps
   | with_reducible apply holdLine_keeps
   | with_reducible apply mcLast_keeps
   | with_reducible apply onL2_keeps
   | with_reducible apply onMc_keeps
   | with_reducible apply raise_keeps
   | with_reducible apply setL1_keeps
   | with_reducible apply takeInjected_keeps
   | with_reducible apply when_keeps
   | with_reducible refine keeps_foldl ?_ (fun d x h => ?_)
   | with_reducible refine keeps_ite (fun _ => ?_) (fun _ => ?_)
   | split

theorem flushVictim_keeps {b : Dev} {x0 : Dev} {x1 : Nat} (hx0 : Keeps b x0) : Keeps b (Dev.flushVictim x0 x1) := by
  unfold Dev.flushVictim
  repeat' first
   | with_reducible assumption
   | (extract_lets +onlyGivenNames x; guard_hyp x : Dev := _; refine (fun (hx : Keeps b x) => ?_) ?_; rotate_left; unfold x; clear x; rotate_right; clear_value x)
   | (extract_lets +onlyGivenNames x; clear_value x)
   | extract_lets +onlyGivenNames x
   | with_reducible apply count_keeps
   | with_reducible apply onMc_keeps
   | with_reducible apply writeLine_keeps
   | with_reducible refine keeps_foldl ?_ (fun d x h => ?_)

theorem cacheRead_keeps {b : Dev} {x0 : Dev} {x1 : CacheAcc} (hx0 : Keeps b x0) : Keeps b (Dev.cacheRead x0 x1) := by
  unfold Dev.cacheRead
  repeat' first
   | with_reducible assumption
   | (extract_lets +onlyGivenNames x; guard_hyp x : Dev := _; refine (fun (hx : Keeps b x) => ?_) ?_; rotate_left; unfold x; clear x; rotate_right; clear_value x)
   | (extract_lets +onlyGivenNames x; clear_value x)
   | extract_lets +onlyGivenNames x
   | with_reducible apply cacheFault_keeps
   | with_reducible apply cachedRead_keeps
   | with_reducible apply flushVictim_keeps
   | with_reducible apply stepFree_keeps
   | with_reducible apply toAgent_keeps
   | with_reducible apply uncached_keeps
   | with_reducible refine keeps_ite (fun _ => ?_) (fun _ => ?_)
   | split

theorem detect_keeps {b : Dev} {x0 : Dev} {x1 : Nat} {x2 : Nat} {x3 : Bool} (hx0 : Keeps b x0) : Keeps b (Dev.detect x0 x1 x2 x3) := by
  unfold Dev.detect
  repeat' first
   | with_reducible assumption
   | (extract_lets +onlyGivenNames x; guard_hyp x : Dev := _; refine (fun (hx : Keeps b x) => ?_) ?_; rotate_left; unfold x; clear x; rotate_right; clear_value x)
   | (extract_lets +onlyGivenNames x; clear_value x)
   | extract_lets +onlyGivenNames x
   | with_reducible apply count_keeps
   | with_reducible apply onMc_keeps
   | with_reducible apply wr_keeps
   | with_reducible refine keeps_ite (fun _ => ?_) (fun _ => ?_)

theorem allocate_keeps {b : Dev} {x0 : Dev} {x1 x2 : Nat} {x3 : List Byte} {x4 x5 : Nat} (hx0 : Keeps b x0) : Keeps b (Dev.allocate x0 x1 x2 x3 x4 x5) := by
  unfold Dev.allocate
  repeat' first
   | with_reducible assumption
   | (generalize hp : Dev.install _ _ _ = p; refine (fun (hk : KeepsP b p) => ?_) (keepsP_gen hp (install_keeps ?_)); rotate_left; clear hp; clear p; rotate_right; clear hp; obtain ⟨y, z⟩ := p; replace hk : Keeps b z := hk; try dsimp -zeta only)
   | extract_lets +onlyGivenNames x
   | with_reducible apply stall_keeps
   | with_reducible refine keeps_ite (fun _ => ?_) (fun _ => ?_)

theorem touchOwn_keeps {b : Dev} {x0 : Dev} {x1 : Nat} {x2 : Nat} (hx0 : Keeps b x0) : Keeps b (Dev.touchOwn x0 x1 x2) := by
  unfold Dev.touchOwn
  repeat' first
   | with_reducible assumption
   | with_reducible apply touchL1_keeps
   | split

theorem cachedWrite_keeps {b : Dev} {x0 : Dev} {x1 : Nat} {x2 : CacheAcc} (hx0 : Keeps b x0) : Keeps b (Dev.cachedWrite x0 x1 x2) := by
  unfold Dev.cachedWrite
  repeat' first
   | with_reducible assumption
   | with_reducible refine fun (d : Dev) (h : Keeps b d) => ?_
   | (generalize hp : Dev.sideToL2 _ _ _ _ _ _ = p; refine (fun (hk : KeepsP b p) => ?_) (keepsP_gen hp (sideToL2_keeps ?_)); rotate_left; clear hp; clear p; rotate_right; clear hp; obtain ⟨y, z⟩ := p; replace hk : Keeps b z := hk; try dsimp -zeta only)
   | (extract_lets +onlyGivenNames x; guard_hyp x : Dev := _; refine (fun (hx : Keeps b x) => ?_) ?_; rotate_left; unfold x; clear x; rotate_right; clear_value x)
   | (extract_lets +onlyGivenNames x; clear_value x)
   | extract_lets +onlyGivenNames x
   | with_reducible apply allocate_keeps
   | with_reducible apply askFill_keeps
   | with_reducible apply count_keeps
   | with_reducible apply detect_keeps
   | with_reducible apply enterWt_keeps
   | with_reducible apply invalL1_keeps
   | with_reducible apply onL2_keeps
   | with_reducible apply onMc_keeps
   | with_reducible apply queueUp_keeps
   | with_reducible apply reinstall_keeps
   | with_reducible apply supersede_keeps
   | with_reducible apply touchOwn_keeps
   | with_reducible apply uncached_keeps
   | with_reducible apply when_keeps
   | with_reducible refine keeps_ite (fun _ => ?_) (fun _ => ?_)
   | split

theorem heldWrite_keeps {b : Dev} {x0 : Dev} {x1 : CacheAcc} (hx0 : Keeps b x0) : Keeps b (Dev.heldWrite x0 x1) := by
  unfold Dev.heldWrite
  repeat' first
   | with_reducible assumption
   | with_reducible refine fun (d : Dev) (h : Keeps b d) => ?_
   | (extract_lets +onlyGivenNames x; guard_hyp x : Dev := _; refine (fun (hx : Keeps b x) => ?_) ?_; rotate_left; unfold x; clear x; rotate_right; clear_value x)
   | (extract_lets +onlyGivenNames x; clear_value x)
   | extract_lets +onlyGivenNames x
   | with_reducible apply allocate_keeps
   | with_reducible apply countIgnored_keeps
   | with_reducible apply detect_keeps
   | with_reducible apply onMc_keeps
   | with_reducible apply uncached_keeps
   | with_reducible apply when_keeps
   | with_reducible refine keeps_ite (fun _ => ?_) (fun _ => ?_)
   | split

theorem cacheWrite_keeps {b : Dev} {x0 : Dev} {x1 : CacheAcc} (hx0 : Keeps b x0) : Keeps b (Dev.cacheWrite x0 x1) := by
  unfold Dev.cacheWrite
  repeat' first
   | with_reducible assumption
   | (extract_lets +onlyGivenNames x; guard_hyp x : Dev := _; refine (fun (hx : Keeps b x) => ?_) ?_; rotate_left; unfold x; clear x; rotate_right; clear_value x)
   | (extract_lets +onlyGivenNames x; clear_value x)
   | extract_lets +onlyGivenNames x
   | with_reducible apply cacheFault_keeps
   | with_reducible apply cachedWrite_keeps
   | with_reducible apply flushVictim_keeps
   | with_reducible apply heldWrite_keeps
   | with_reducible apply resume_keeps
   | with_reducible apply uncached_keeps
   | with_reducible refine keeps_ite (fun _ => ?_) (fun _ => ?_)
   | split

theorem fillDone_keeps {b : Dev} {x0 : Dev} {x1 : LineRead} (hx0 : Keeps b x0) : Keeps b (Dev.fillDone x0 x1) := by
  unfold Dev.fillDone
  repeat' first
   | with_reducible assumption
   | (generalize hp : Dev.finishFill _ _ = p; refine (fun (hk : KeepsP b p) => ?_) (keepsP_gen hp (finishFill_keeps ?_)); rotate_left; clear hp; clear p; rotate_right; clear hp; obtain ⟨y, z⟩ := p; replace hk : Keeps b z := hk; try dsimp -zeta only)
   | (generalize hp : Dev.readLine _ _ = p; refine (fun (hk : KeepsP b p) => ?_) (keepsP_gen hp (readLine_keeps ?_)); rotate_left; clear hp; clear p; rotate_right; clear hp; obtain ⟨y, z⟩ := p; replace hk : Keeps b z := hk; try dsimp -zeta only)
   | (extract_lets +onlyGivenNames x; guard_hyp x : Dev := _; refine (fun (hx : Keeps b x) => ?_) ?_; rotate_left; unfold x; clear x; rotate_right; clear_value x)
   | (extract_lets +onlyGivenNames x; clear_value x)
   | extract_lets +onlyGivenNames x
   | with_reducible apply laterDue_keeps
   | with_reducible apply onMc_keeps
   | with_reducible apply stall_keeps
   | with_reducible refine keeps_snd (keepsP_foldl ?_ (fun d x h => ?_))
   | with_reducible refine keeps_ite (fun _ => ?_) (fun _ => ?_)
   | with_reducible refine keepsP_ite (fun _ => ?_) (fun _ => ?_)
   | with_reducible refine keepsP_mk ?_
   | with_reducible exact keeps_snd ‹KeepsP b _›

theorem prefetchArrival_keeps {b : Dev} {x0 : Dev} {x1 : LineRead} (hx0 : Keeps b x0) : Keeps b (Dev.prefetchArrival x0 x1) := by
  unfold Dev.prefetchArrival
  repeat' first
   | with_reducible assumption
   | with_reducible refine fun (d : Dev) (h : Keeps b d) => ?_
   | (generalize hp : Dev.readLine _ _ = p; refine (fun (hk : KeepsP b p) => ?_) (keepsP_gen hp (readLine_keeps ?_)); rotate_left; clear hp; clear p; rotate_right; clear hp; obtain ⟨y, z⟩ := p; replace hk : Keeps b z := hk; try dsimp -zeta only)
   | (extract_lets +onlyGivenNames x; guard_hyp x : Dev := _; refine (fun (hx : Keeps b x) => ?_) ?_; rotate_left; unfold x; clear x; rotate_right; clear_value x)
   | (extract_lets +onlyGivenNames x; clear_value x)
   | extract_lets +onlyGivenNames x
   | with_reducible apply count_keeps
   | with_reducible apply onMc_keeps
   | with_reducible apply when_keeps
   | with_reducible refine keeps_ite (fun _ => ?_) (fun _ => ?_)
   | split

theorem maintProgress_keeps {b : Dev} {x0 : Dev} (hx0 : Keeps b x0) : Keeps b (Dev.maintProgress x0) := by
  unfold Dev.maintProgress
  repeat' first
   | with_reducible assumption
   | (extract_lets +onlyGivenNames x; guard_hyp x : Dev := _; refine (fun (hx : Keeps b x) => ?_) ?_; rotate_left; unfold x; clear x; rotate_right; clear_value x)
   | (extract_lets +onlyGivenNames x; clear_value x)
   | extract_lets +onlyGivenNames x
   | with_reducible apply onMc_keeps
   | with_reducible apply wr_keeps
   | with_reducible refine keeps_foldl ?_ (fun d x h => ?_)
   | with_reducible refine keeps_ite (fun _ => ?_) (fun _ => ?_)

theorem writebackAck_keeps {b : Dev} {x0 : Dev} {x1 : Nat} (hx0 : Keeps b x0) : Keeps b (Dev.writebackAck x0 x1) := by
  unfold Dev.writebackAck
  repeat' first
   | with_reducible assumption
   | with_reducible refine fun (d : Dev) (h : Keeps b d) => ?_
   | (extract_lets +onlyGivenNames x; guard_hyp x : Dev := _; refine (fun (hx : Keeps b x) => ?_) ?_; rotate_left; unfold x; clear x; rotate_right; clear_value x)
   | (extract_lets +onlyGivenNames x; clear_value x)
   | extract_lets +onlyGivenNames x
   | with_reducible apply count_keeps
   | with_reducible apply maintProgress_keeps
   | with_reducible apply onMc_keeps
   | with_reducible apply resume_keeps
   | with_reducible apply when_keeps
   | with_reducible apply writeLine_keeps
   | split

theorem forward_keeps {b : Dev} {x0 : Dev} {x1 : LineWrite} (hx0 : Keeps b x0) : Keeps b (Dev.forward x0 x1) := by
  unfold Dev.forward
  repeat' first
   | with_reducible assumption
   | (extract_lets +onlyGivenNames x; guard_hyp x : Dev := _; refine (fun (hx : Keeps b x) => ?_) ?_; rotate_left; unfold x; clear x; rotate_right; clear_value x)
   | (extract_lets +onlyGivenNames x; clear_value x)
   | extract_lets +onlyGivenNames x
   | with_reducible apply invalL1_keeps
   | with_reducible apply onL2_keeps
   | with_reducible apply onMc_keeps
   | with_reducible refine keeps_ite (fun _ => ?_) (fun _ => ?_)

theorem forwardBy_keeps {b : Dev} {x0 : Dev} {x1 : LineWrite} (hx0 : Keeps b x0) : KeepsP b (Dev.forwardBy x0 x1) := by
  unfold Dev.forwardBy
  repeat' first
   | with_reducible assumption
   | (extract_lets +onlyGivenNames x; guard_hyp x : Dev := _; refine (fun (hx : Keeps b x) => ?_) ?_; rotate_left; unfold x; clear x; rotate_right; clear_value x)
   | (extract_lets +onlyGivenNames x; clear_value x)
   | extract_lets +onlyGivenNames x
   | with_reducible apply forward_keeps
   | with_reducible apply tableRead_keeps
   | split
   | with_reducible refine keepsP_mk ?_

theorem writeThrough_keeps {b : Dev} {x0 : Dev} {x1 : LineWrite} (hx0 : Keeps b x0) : Keeps b (Dev.writeThrough x0 x1) := by
  unfold Dev.writeThrough
  repeat' first
   | with_reducible assumption
   | (generalize hp : Dev.forwardBy _ _ = p; refine (fun (hk : KeepsP b p) => ?_) (keepsP_gen hp (forwardBy_keeps ?_)); rotate_left; clear hp; clear p; rotate_right; clear hp; obtain ⟨y, z⟩ := p; replace hk : Keeps b z := hk; try dsimp -zeta only)
   | with_reducible apply storeWrite_keeps

theorem writeNow_keeps {b : Dev} {x0 : Dev} {x1 : LineWrite} (hx0 : Keeps b x0) : Keeps b (Dev.writeNow x0 x1) := by
  unfold Dev.writeNow
  repeat' first
   | with_reducible assumption
   | (generalize hp : Dev.forwardBy _ _ = p; refine (fun (hk : KeepsP b p) => ?_) (keepsP_gen hp (forwardBy_keeps ?_)); rotate_left; clear hp; clear p; rotate_right; clear hp; obtain ⟨y, z⟩ := p; replace hk : Keeps b z := hk; try dsimp -zeta only)
   | with_reducible apply storeWriteNow_keeps

theorem writeFwd_keeps {b : Dev} {x0 : Dev} {x1 : Nat} {x2 : List Byte} {x3 : Bool} {x4 : Nat} {x5 : optParam (Option ActBy) none} (hx0 : Keeps b x0) : Keeps b (Dev.writeFwd x0 x1 x2 x3 x4 x5) := by
  unfold Dev.writeFwd
  repeat' first
   | with_reducible assumption
   | extract_lets +onlyGivenNames x
   | with_reducible apply writeNow_keeps
   | with_reducible refine keeps_foldl ?_ (fun d x h => ?_)

theorem cacheDropGranule_keeps {b : Dev} {x0 : Dev} {x1 : Nat} (hx0 : Keeps b x0) : Keeps b (Dev.cacheDropGranule x0 x1) := by
  unfold Dev.cacheDropGranule
  repeat' first
   | with_reducible assumption
   | (extract_lets +onlyGivenNames x; clear_value x)
   | extract_lets +onlyGivenNames x
   | with_reducible apply onMc_keeps
   | with_reducible apply resume_keeps

theorem mcReach_keeps {b : Dev} {x0 : Dev} {x1 : Nat} {x2 : Nat} {x3 : Nat} {x4 : Bool} (hx0 : Keeps b x0) : Keeps b (Dev.mcReach x0 x1 x2 x3 x4) := by
  unfold Dev.mcReach
  repeat' first
   | with_reducible assumption
   | (generalize hp : Dev.finishFill _ _ = p; refine (fun (hk : KeepsP b p) => ?_) (keepsP_gen hp (finishFill_keeps ?_)); rotate_left; clear hp; clear p; rotate_right; clear hp; obtain ⟨y, z⟩ := p; replace hk : Keeps b z := hk; try dsimp -zeta only)
   | (extract_lets +onlyGivenNames x; guard_hyp x : Dev := _; refine (fun (hx : Keeps b x) => ?_) ?_; rotate_left; unfold x; clear x; rotate_right; clear_value x)
   | (extract_lets +onlyGivenNames x; clear_value x)
   | with_reducible apply onMc_keeps
   | with_reducible refine keeps_foldl ?_ (fun d x h => ?_)

theorem mcCleanRange_keeps {b : Dev} {x0 : Dev} {x1 : Nat} {x2 : Nat} {x3 : Nat} {x4 : Nat} (hx0 : Keeps b x0) : Keeps b (Dev.mcCleanRange x0 x1 x2 x3 x4) := by
  unfold Dev.mcCleanRange
  repeat' first
   | with_reducible assumption
   | (extract_lets +onlyGivenNames x; guard_hyp x : Dev := _; refine (fun (hx : Keeps b x) => ?_) ?_; rotate_left; unfold x; clear x; rotate_right; clear_value x)
   | (extract_lets +onlyGivenNames x; guard_hyp x : _ → _ := _; refine (fun (hl0 : ∀ (d0 : Dev) y1, Keeps b d0 → Keeps b (x d0 y1)) => ?_) ?_; rotate_left; unfold x; clear x; intro d0 y1 hd0; beta_reduce; rotate_right; clear_value x)
   | (extract_lets +onlyGivenNames x; clear_value x)
   | extract_lets +onlyGivenNames x
   | with_reducible apply count_keeps
   | with_reducible apply mergeBufDrain_keeps
   | with_reducible apply onL2_keeps
   | with_reducible apply onMc_keeps
   | with_reducible apply writeLine_keeps
   | with_reducible refine hl0 _ _ ?_
   | with_reducible refine keeps_foldl ?_ (fun d x h => ?_)

theorem mcDropRange_keeps {b : Dev} {x0 : Dev} {x1 : Nat} {x2 : Nat} (hx0 : Keeps b x0) : Keeps b (Dev.mcDropRange x0 x1 x2) := by
  unfold Dev.mcDropRange
  repeat' first
   | with_reducible assumption
   | (extract_lets +onlyGivenNames x; guard_hyp x : Dev := _; refine (fun (hx : Keeps b x) => ?_) ?_; rotate_left; unfold x; clear x; rotate_right; clear_value x)
   | (extract_lets +onlyGivenNames x; clear_value x)
   | extract_lets +onlyGivenNames x
   | with_reducible apply dropL2_keeps
   | with_reducible apply onMc_keeps
   | with_reducible refine keeps_foldl ?_ (fun d x h => ?_)

theorem mcInvRange_keeps {b : Dev} {x0 : Dev} {x1 : Nat} {x2 : Nat} {x3 : Nat} {x4 : Nat} (hx0 : Keeps b x0) : Keeps b (Dev.mcInvRange x0 x1 x2 x3 x4) := by
  unfold Dev.mcInvRange
  repeat' first
   | with_reducible assumption
   | extract_lets +onlyGivenNames x
   | with_reducible apply mcCleanRange_keeps
   | with_reducible apply mcDropRange_keeps
   | with_reducible apply mcReach_keeps

theorem mcDiscardRange_keeps {b : Dev} {x0 : Dev} {x1 : Nat} {x2 : Nat} (hx0 : Keeps b x0) : Keeps b (Dev.mcDiscardRange x0 x1 x2) := by
  unfold Dev.mcDiscardRange
  repeat' first
   | with_reducible assumption
   | (extract_lets +onlyGivenNames x; guard_hyp x : Dev := _; refine (fun (hx : Keeps b x) => ?_) ?_; rotate_left; unfold x; clear x; rotate_right; clear_value x)
   | extract_lets +onlyGivenNames x
   | with_reducible apply mcDropRange_keeps
   | with_reducible apply mcReach_keeps
   | with_reducible apply onMc_keeps

theorem maintain_keeps {b : Dev} {x0 : Dev} {x1 : Nat} {x2 : Nat} {x3 : Nat} (hx0 : Keeps b x0) : Keeps b (Dev.maintain x0 x1 x2 x3) := by
  unfold Dev.maintain
  repeat' first
   | with_reducible assumption
   | (extract_lets +onlyGivenNames x; guard_hyp x : Dev := _; refine (fun (hx : Keeps b x) => ?_) ?_; rotate_left; unfold x; clear x; rotate_right; clear_value x)
   | (extract_lets +onlyGivenNames x; clear_value x)
   | extract_lets +onlyGivenNames x
   | with_reducible apply countIgnored_keeps
   | with_reducible apply countN_keeps
   | with_reducible apply maintProgress_keeps
   | with_reducible apply mcCleanRange_keeps
   | with_reducible apply mcDiscardRange_keeps
   | with_reducible apply mcInvRange_keeps
   | with_reducible apply mcReach_keeps
   | with_reducible apply resume_keeps
   | with_reducible apply wr_keeps
   | with_reducible refine keeps_ite (fun _ => ?_) (fun _ => ?_)
   | split

theorem drainWindow_keeps {b : Dev} {x0 : Dev} {x1 : Nat} {x2 : Nat} {x3 : Nat} (hx0 : Keeps b x0) : Keeps b (Dev.drainWindow x0 x1 x2 x3) := by
  unfold Dev.drainWindow
  repeat' first
   | with_reducible assumption
   | (extract_lets +onlyGivenNames x; guard_hyp x : Dev := _; refine (fun (hx : Keeps b x) => ?_) ?_; rotate_left; unfold x; clear x; rotate_right; clear_value x)
   | extract_lets +onlyGivenNames x
   | with_reducible apply maintProgress_keeps
   | with_reducible apply mcInvRange_keeps
   | with_reducible apply onMc_keeps
   | with_reducible apply resume_keeps
   | with_reducible apply wr_keeps

theorem issueWritebacks_keeps {b : Dev} {x0 : Dev} (hx0 : Keeps b x0) : Keeps b (Dev.issueWritebacks x0) := by
  unfold Dev.issueWritebacks
  repeat' first
   | with_reducible assumption
   | with_reducible apply onMc_keeps

theorem execCacheRead_keeps {x0 : CacheAcc} {x1 : State}  : Steps x1.dev x1 (execCacheRead x0 x1) := by
  unfold execCacheRead
  refine steps_run (fun d h => ?_)
  repeat' first
   | with_reducible assumption
   | extract_lets +onlyGivenNames x
   | with_reducible apply cacheRead_keeps

theorem execCacheWrite_keeps {x0 : CacheAcc} {x1 : State}  : Steps x1.dev x1 (execCacheWrite x0 x1) := by
  unfold execCacheWrite
  refine steps_run (fun d h => ?_)
  repeat' first
   | with_reducible assumption
   | extract_lets +onlyGivenNames x
   | with_reducible apply cacheWrite_keeps

theorem execCacheFillDone_keeps {x0 : LineRead} {x1 : State}  : Steps x1.dev x1 (execCacheFillDone x0 x1) := by
  unfold execCacheFillDone
  refine steps_run (fun d h => ?_)
  repeat' first
   | with_reducible assumption
   | extract_lets +onlyGivenNames x
   | with_reducible apply fillDone_keeps

theorem execPrefetchArrival_keeps {x0 : LineRead} {x1 : State}  : Steps x1.dev x1 (execPrefetchArrival x0 x1) := by
  unfold execPrefetchArrival
  refine steps_run (fun d h => ?_)
  repeat' first
   | with_reducible assumption
   | extract_lets +onlyGivenNames x
   | with_reducible apply prefetchArrival_keeps

theorem execWritebackAck_keeps {x0 : Nat} {x1 : State}  : Steps x1.dev x1 (execWritebackAck x0 x1) := by
  unfold execWritebackAck
  refine steps_run (fun d h => ?_)
  repeat' first
   | with_reducible assumption
   | extract_lets +onlyGivenNames x
   | with_reducible apply writebackAck_keeps

theorem execMergeBufDrain_keeps {x0 : Nat} {x1 : State}  : Steps x1.dev x1 (execMergeBufDrain x0 x1) := by
  unfold execMergeBufDrain
  refine steps_run (fun d h => ?_)
  repeat' first
   | with_reducible assumption
   | extract_lets +onlyGivenNames x
   | with_reducible apply mergeBufDrain_keeps

theorem execForwardedWrite_keeps {x0 : LineWrite} {x1 : State}  : Steps x1.dev x1 (execForwardedWrite x0 x1) := by
  unfold execForwardedWrite
  refine steps_run (fun d h => ?_)
  repeat' first
   | with_reducible assumption
   | extract_lets +onlyGivenNames x
   | with_reducible apply writeThrough_keeps

theorem execStoreWrite_keeps {x0 : LineWrite} {x1 : State} : Steps x1.dev x1 (execStoreWrite x0 x1) := by
  unfold execStoreWrite
  refine steps_run (fun d h => ?_)
  repeat' first
   | with_reducible assumption
   | extract_lets +onlyGivenNames x
   | with_reducible apply writeThrough_keeps

theorem execNarrowWrite_keeps {x0 : LineWrite} {x1 : State} : Steps x1.dev x1 (execNarrowWrite x0 x1) := by
  unfold execNarrowWrite
  refine steps_run (fun d h => ?_)
  repeat' first
   | with_reducible assumption
   | extract_lets +onlyGivenNames x
   | with_reducible apply writeThrough_keeps

theorem execMcClean_keeps {x0 : Nat} {x1 : Nat} {x2 : State}  : Steps x2.dev x2 (execMcClean x0 x1 x2) := by
  unfold execMcClean
  refine steps_run (fun d h => ?_)
  repeat' first
   | with_reducible assumption
   | extract_lets +onlyGivenNames x
   | with_reducible apply asWrite_keeps
   | with_reducible apply maintain_keeps
   | intro m

theorem execMcInv_keeps {x0 : Nat} {x1 : Nat} {x2 : State}  : Steps x2.dev x2 (execMcInv x0 x1 x2) := by
  unfold execMcInv
  refine steps_run (fun d h => ?_)
  repeat' first
   | with_reducible assumption
   | extract_lets +onlyGivenNames x
   | with_reducible apply asWrite_keeps
   | with_reducible apply maintain_keeps
   | intro m

theorem execMcDiscard_keeps {x0 : Nat} {x1 : Nat} {x2 : State}  : Steps x2.dev x2 (execMcDiscard x0 x1 x2) := by
  unfold execMcDiscard
  refine steps_run (fun d h => ?_)
  repeat' first
   | with_reducible assumption
   | extract_lets +onlyGivenNames x
   | with_reducible apply asWrite_keeps
   | with_reducible apply maintain_keeps
   | intro m

end Sys2Proof.Machine
end

