-- ==== Sys2Proof/Laws/Keeps/Flash.lean ====
section
/-! SUPPORT. What every operation of Machine/Flash.lean keeps. -/
namespace Sys2Proof.Machine
open Sys2Proof

set_option linter.unusedTactic false
set_option linter.unreachableTactic false
set_option linter.tactic.unusedName false

theorem putTable_keeps {b : Dev} {x0 : Dev} {x1 : Option Nat} {x2 : Nat} {x3 : List Byte} (hx0 : Keeps b x0) : Keeps b (Dev.putTable x0 x1 x2 x3) := by
  unfold Dev.putTable
  repeat' first
   | with_reducible assumption
   | with_reducible apply writeNow_keeps
   | split

theorem showRow_keeps {b : Dev} {x0 : Dev} {x1 : Nat} (hx0 : Keeps b x0) : Keeps b (Dev.showRow x0 x1) := by
  unfold Dev.showRow
  repeat' first
   | with_reducible assumption
   | (extract_lets +onlyGivenNames x; clear_value x)
   | extract_lets +onlyGivenNames x
   | with_reducible apply putTable_keeps
   | with_reducible refine keeps_ite (fun _ => ?_) (fun _ => ?_)
   | split

theorem onRow_keeps {b : Dev} {x0 : Dev} {x1 : Nat} {x2 : RowEnt → RowEnt} (hx0 : Keeps b x0) : Keeps b (Dev.onRow x0 x1 x2) := by
  unfold Dev.onRow
  repeat' first
   | with_reducible assumption
   | extract_lets +onlyGivenNames x
   | with_reducible apply onSfl_keeps
   | with_reducible apply showRow_keeps

theorem rowsBuild_keeps {b : Dev} {x0 : Dev} {x1 : Nat} (hx0 : Keeps b x0) : Keeps b (Dev.rowsBuild x0 x1) := by
  unfold Dev.rowsBuild
  repeat' first
   | with_reducible assumption
   | (extract_lets +onlyGivenNames x; clear_value x)
   | extract_lets +onlyGivenNames x
   | with_reducible apply onRow_keeps
   | with_reducible apply showRow_keeps
   | with_reducible refine keeps_foldl ?_ (fun d x h => ?_)
   | with_reducible refine keeps_ite (fun _ => ?_) (fun _ => ?_)

theorem sflCount_keeps {b : Dev} {x0 : Dev} {x1 : Nat} (hx0 : Keeps b x0) : Keeps b (Dev.sflCount x0 x1) := by
  unfold Dev.sflCount
  repeat' first
   | with_reducible assumption
   | with_reducible apply count_keeps

theorem showSeq_keeps {b : Dev} {x0 : Dev} (hx0 : Keeps b x0) : Keeps b (Dev.showSeq x0) := by
  unfold Dev.showSeq
  repeat' first
   | with_reducible assumption
   | with_reducible apply put64_keeps

theorem takeSeq_keeps {b : Dev} {x0 : Dev} (hx0 : Keeps b x0) : KeepsP b (Dev.takeSeq x0) := by
  unfold Dev.takeSeq
  repeat' first
   | with_reducible assumption
   | extract_lets +onlyGivenNames x
   | with_reducible apply onSfl_keeps
   | with_reducible apply showSeq_keeps
   | with_reducible refine keepsP_mk ?_

theorem setOffsets_keeps {b : Dev} {x0 : Dev} {x1 : Nat} {x2 : Nat} {x3 : Int} (hx0 : Keeps b x0) : Keeps b (Dev.setOffsets x0 x1 x2 x3) := by
  unfold Dev.setOffsets
  repeat' first
   | with_reducible assumption
   | with_reducible apply onSfl_keeps

theorem readFeatures_keeps {b : Dev} {x0 : Dev} {x1 : Nat} {x2 : Nat} {x3 : Nat} (hx0 : Keeps b x0) : Keeps b (Dev.readFeatures x0 x1 x2 x3) := by
  unfold Dev.readFeatures
  repeat' first
   | with_reducible assumption
   | (extract_lets +onlyGivenNames x; guard_hyp x : Dev := _; refine (fun (hx : Keeps b x) => ?_) ?_; rotate_left; unfold x; clear x; rotate_right; clear_value x)
   | (extract_lets +onlyGivenNames x; clear_value x)
   | extract_lets +onlyGivenNames x
   | with_reducible apply onSfl_keeps
   | with_reducible apply setOffsets_keeps
   | with_reducible refine keeps_foldl ?_ (fun d x h => ?_)
   | with_reducible refine keeps_ite (fun _ => ?_) (fun _ => ?_)

theorem showRing_keeps {b : Dev} {x0 : Dev} (hx0 : Keeps b x0) : Keeps b (Dev.showRing x0) := by
  unfold Dev.showRing
  repeat' first
   | with_reducible assumption
   | (extract_lets +onlyGivenNames x; guard_hyp x : Dev := _; refine (fun (hx : Keeps b x) => ?_) ?_; rotate_left; unfold x; clear x; rotate_right; clear_value x)
   | (extract_lets +onlyGivenNames x; clear_value x)
   | extract_lets +onlyGivenNames x
   | with_reducible apply raise_keeps
   | with_reducible apply wr_keeps
   | with_reducible refine keeps_ite (fun _ => ?_) (fun _ => ?_)

theorem ringPut_keeps {b : Dev} {x0 : Dev} {x1 : List JEnt} (hx0 : Keeps b x0) : KeepsP b (Dev.ringPut x0 x1) := by
  unfold Dev.ringPut
  repeat' first
   | with_reducible assumption
   | with_reducible exact fun _ => Nat.le_refl _
   | (extract_lets +onlyGivenNames x; guard_hyp x : Dev := _; refine (fun (hx : Keeps b x) => ?_) ?_; rotate_left; unfold x; clear x; rotate_right; clear_value x)
   | (extract_lets +onlyGivenNames x; clear_value x)
   | extract_lets +onlyGivenNames x
   | with_reducible apply mramPut_keeps
   | with_reducible apply showRing_keeps
   | with_reducible refine keepsP_mk ?_

theorem jmake_keeps {b : Dev} {x0 : Dev} {x1 : Nat} {x2 : Nat} {x3 : Nat} {x4 : Nat} {x5 : Nat} (hx0 : Keeps b x0) : KeepsP b (Dev.jmake x0 x1 x2 x3 x4 x5) := by
  unfold Dev.jmake
  repeat' first
   | with_reducible assumption
   | (generalize hp : Dev.takeSeq _ = p; refine (fun (hk : KeepsP b p) => ?_) (keepsP_gen hp (takeSeq_keeps ?_)); rotate_left; clear hp; clear p; rotate_right; clear hp; obtain ⟨y, z⟩ := p; replace hk : Keeps b z := hk; try dsimp -zeta only)
   | with_reducible refine keepsP_mk ?_

theorem jflush_keeps {b : Dev} {x0 : Dev} (hx0 : Keeps b x0) : Keeps b (Dev.jflush x0) := by
  unfold Dev.jflush
  repeat' first
   | with_reducible assumption
   | (generalize hp : Dev.jmake _ _ _ _ _ _ = p; refine (fun (hk : KeepsP b p) => ?_) (keepsP_gen hp (jmake_keeps ?_)); rotate_left; clear hp; clear p; rotate_right; clear hp; obtain ⟨y, z⟩ := p; replace hk : Keeps b z := hk; try dsimp -zeta only)
   | (generalize hp : Dev.ringPut _ _ = p; refine (fun (hk : KeepsP b p) => ?_) (keepsP_gen hp (ringPut_keeps ?_)); rotate_left; clear hp; clear p; rotate_right; clear hp; obtain ⟨y, z⟩ := p; replace hk : Keeps b z := hk; try dsimp -zeta only)
   | (extract_lets +onlyGivenNames x; clear_value x)
   | extract_lets +onlyGivenNames x
   | with_reducible apply onRow_keeps
   | with_reducible apply onSfl_keeps
   | with_reducible refine keeps_snd (keepsP_foldl ?_ (fun d x h => ?_))
   | with_reducible refine keepsP_mk ?_
   | with_reducible exact keeps_snd ‹KeepsP b _›

theorem journal_keeps {b : Dev} {x0 : Dev} {x1 : Nat} {x2 : Nat} {x3 : Nat} {x4 : Nat} {x5 : Nat} (hx0 : Keeps b x0) : KeepsP b (Dev.journal x0 x1 x2 x3 x4 x5) := by
  unfold Dev.journal
  repeat' first
   | with_reducible assumption
   | (generalize hp : Dev.jmake _ _ _ _ _ _ = p; refine (fun (hk : KeepsP b p) => ?_) (keepsP_gen hp (jmake_keeps ?_)); rotate_left; clear hp; clear p; rotate_right; clear hp; obtain ⟨y, z⟩ := p; replace hk : Keeps b z := hk; try dsimp -zeta only)
   | (extract_lets +onlyGivenNames x; guard_hyp x : Dev := _; refine (fun (hx : Keeps b x) => ?_) ?_; rotate_left; unfold x; clear x; rotate_right; clear_value x)
   | extract_lets +onlyGivenNames x
   | with_reducible apply jflush_keeps
   | with_reducible apply onSfl_keeps
   | split
   | with_reducible refine keepsP_mk ?_

theorem validBy_keeps {b : Dev} {x0 : Dev} {x1 : Nat} {x2 : Bool} (hx0 : Keeps b x0) : Keeps b (Dev.validBy x0 x1 x2) := by
  unfold Dev.validBy
  repeat' first
   | with_reducible assumption
   | (extract_lets +onlyGivenNames x; guard_hyp x : Dev := _; refine (fun (hx : Keeps b x) => ?_) ?_; rotate_left; unfold x; clear x; rotate_right; clear_value x)
   | (extract_lets +onlyGivenNames x; clear_value x)
   | with_reducible apply onRow_keeps
   | with_reducible apply put64_keeps
   | split

theorem onMslot_keeps {b : Dev} {x0 : Dev} {x1 : Nat} {x2 : MSlot → MSlot} (hx0 : Keeps b x0) : Keeps b (Dev.onMslot x0 x1 x2) := by
  unfold Dev.onMslot
  repeat' first
   | with_reducible assumption
   | with_reducible apply onSfl_keeps

theorem mapSet_keeps {b : Dev} {x0 : Dev} {x1 : Nat} {x2 : Nat} (hx0 : Keeps b x0) : Keeps b (Dev.mapSet x0 x1 x2) := by
  unfold Dev.mapSet
  repeat' first
   | with_reducible assumption
   | (extract_lets +onlyGivenNames x; guard_hyp x : Dev := _; refine (fun (hx : Keeps b x) => ?_) ?_; rotate_left; unfold x; clear x; rotate_right; clear_value x)
   | extract_lets +onlyGivenNames x
   | with_reducible apply onSfl_keeps
   | with_reducible apply putTable_keeps
   | with_reducible apply validBy_keeps
   | split

theorem dirSet_keeps {b : Dev} {x0 : Dev} {x1 : Nat} {x2 : Nat} (hx0 : Keeps b x0) : Keeps b (Dev.dirSet x0 x1 x2) := by
  unfold Dev.dirSet
  repeat' first
   | with_reducible assumption
   | extract_lets +onlyGivenNames x
   | with_reducible apply onSfl_keeps
   | with_reducible apply putTable_keeps

theorem showMap_keeps {b : Dev} {x0 : Dev} (hx0 : Keeps b x0) : Keeps b (Dev.showMap x0) := by
  unfold Dev.showMap
  repeat' first
   | with_reducible assumption
   | extract_lets +onlyGivenNames x
   | with_reducible apply wr_keeps

theorem slotFill_keeps {b : Dev} {x0 : Dev} {x1 : Nat} {x2 : Nat} (hx0 : Keeps b x0) : Keeps b (Dev.slotFill x0 x1 x2) := by
  unfold Dev.slotFill
  repeat' first
   | with_reducible assumption
   | (extract_lets +onlyGivenNames x; clear_value x)
   | extract_lets +onlyGivenNames x
   | with_reducible apply putTable_keeps
   | with_reducible refine keeps_foldl ?_ (fun d x h => ?_)
   | with_reducible refine keeps_ite (fun _ => ?_) (fun _ => ?_)
   | split

theorem pageFound_keeps {b : Dev} {x0 : Dev} {x1 : Nat} (hx0 : Keeps b x0) : Keeps b (Dev.pageFound x0 x1) := by
  unfold Dev.pageFound
  repeat' first
   | with_reducible assumption
   | extract_lets +onlyGivenNames x
   | with_reducible apply onSfl_keeps
   | with_reducible refine keeps_ite (fun _ => ?_) (fun _ => ?_)

theorem pin_keeps {b : Dev} {x0 : Dev} {x1 : Nat} (hx0 : Keeps b x0) : Keeps b (Dev.pin x0 x1) := by
  unfold Dev.pin
  repeat' first
   | with_reducible assumption
   | with_reducible apply onMslot_keeps

theorem unpin_keeps {b : Dev} {x0 : Dev} {x1 : Nat} (hx0 : Keeps b x0) : Keeps b (Dev.unpin x0 x1) := by
  unfold Dev.unpin
  repeat' first
   | with_reducible assumption
   | extract_lets +onlyGivenNames x
   | with_reducible apply onMslot_keeps
   | with_reducible apply showMap_keeps

theorem mapMiss_keeps {b : Dev} {x0 : Dev} {x1 : Nat} (hx0 : Keeps b x0) : Keeps b (Dev.mapMiss x0 x1) := by
  unfold Dev.mapMiss
  repeat' first
   | with_reducible assumption
   | (extract_lets +onlyGivenNames x; guard_hyp x : Dev := _; refine (fun (hx : Keeps b x) => ?_) ?_; rotate_left; unfold x; clear x; rotate_right; clear_value x)
   | (extract_lets +onlyGivenNames x; clear_value x)
   | extract_lets +onlyGivenNames x
   | with_reducible apply onMslot_keeps
   | with_reducible apply onSfl_keeps
   | with_reducible apply pageFound_keeps
   | with_reducible apply slotFill_keeps
   | with_reducible refine keeps_foldl ?_ (fun d x h => ?_)
   | with_reducible refine keeps_ite (fun _ => ?_) (fun _ => ?_)
   | split

theorem mapLook_keeps {b : Dev} {x0 : Dev} {x1 : Nat} (hx0 : Keeps b x0) : Keeps b (Dev.mapLook x0 x1) := by
  unfold Dev.mapLook
  repeat' first
   | with_reducible assumption
   | extract_lets +onlyGivenNames x
   | with_reducible apply mapMiss_keeps
   | with_reducible apply onMslot_keeps
   | with_reducible apply pin_keeps
   | with_reducible apply unpin_keeps
   | with_reducible refine keeps_ite (fun _ => ?_) (fun _ => ?_)
   | split

theorem mapDirty_keeps {b : Dev} {x0 : Dev} {x1 : Nat} {x2 : Nat} (hx0 : Keeps b x0) : Keeps b (Dev.mapDirty x0 x1 x2) := by
  unfold Dev.mapDirty
  repeat' first
   | with_reducible assumption
   | with_reducible apply onMslot_keeps
   | split

theorem mapUpdate_keeps {b : Dev} {x0 : Dev} {x1 : Nat} {x2 : Nat} {x3 : Nat} {x4 : Nat} (hx0 : Keeps b x0) : KeepsP b (Dev.mapUpdate x0 x1 x2 x3 x4) := by
  unfold Dev.mapUpdate
  repeat' first
   | with_reducible assumption
   | (generalize hp : Dev.journal _ _ _ _ _ _ = p; refine (fun (hk : KeepsP b p) => ?_) (keepsP_gen hp (journal_keeps ?_)); rotate_left; clear hp; clear p; rotate_right; clear hp; obtain ⟨y, z⟩ := p; replace hk : Keeps b z := hk; try dsimp -zeta only)
   | extract_lets +onlyGivenNames x
   | with_reducible apply mapDirty_keeps
   | with_reducible apply mapSet_keeps
   | with_reducible apply pin_keeps
   | with_reducible apply unpin_keeps
   | split
   | with_reducible refine keepsP_mk ?_

theorem showAppend_keeps {b : Dev} {x0 : Dev} {x1 : Nat} (hx0 : Keeps b x0) : Keeps b (Dev.showAppend x0 x1) := by
  unfold Dev.showAppend
  repeat' first
   | with_reducible assumption
   | extract_lets +onlyGivenNames x
   | with_reducible apply put64_keeps
   | with_reducible apply wr_keeps

theorem plain_keeps {b : Dev} {x0 : Dev} {x1 : Nat} {x2 : FUnit} (hx0 : Keeps b x0) : KeepsT b (Dev.plain x0 x1 x2) := by
  unfold Dev.plain
  repeat' first
   | with_reducible assumption
   | extract_lets +onlyGivenNames x
   | with_reducible apply countN_keeps
   | with_reducible apply count_keeps
   | with_reducible apply raise_keeps
   | with_reducible apply takeInjected_keeps
   | with_reducible refine keepsT_ite (fun _ => ?_) (fun _ => ?_)
   | split
   | with_reducible refine keepsT_mk ?_

theorem sjShow_keeps {b : Dev} {x0 : Dev} (hx0 : Keeps b x0) : Keeps b (Dev.sjShow x0) := by
  unfold Dev.sjShow
  repeat' first
   | with_reducible assumption
   | with_reducible apply wr_keeps

theorem bankFail_keeps {b : Dev} {x0 : Dev} {x1 : Nat} (hx0 : Keeps b x0) : Keeps b (Dev.bankFail x0 x1) := by
  unfold Dev.bankFail
  repeat' first
   | with_reducible assumption
   | (extract_lets +onlyGivenNames x; guard_hyp x : Dev := _; refine (fun (hx : Keeps b x) => ?_) ?_; rotate_left; unfold x; clear x; rotate_right; clear_value x)
   | extract_lets +onlyGivenNames x
   | with_reducible apply raise_keeps
   | with_reducible apply wrB_keeps
   | with_reducible refine keeps_ite (fun _ => ?_) (fun _ => ?_)

theorem sjFlush_keeps {b : Dev} {x0 : Dev} {x1 : Bool} {x2 : Bool} (hx0 : Keeps b x0) : Keeps b (Dev.sjFlush x0 x1 x2) := by
  unfold Dev.sjFlush
  repeat' first
   | with_reducible assumption
   | with_reducible exact fun _ => Nat.le_refl _
   | (extract_lets +onlyGivenNames x; guard_hyp x : Dev := _; refine (fun (hx : Keeps b x) => ?_) ?_; rotate_left; unfold x; clear x; rotate_right; clear_value x)
   | (extract_lets +onlyGivenNames x; clear_value x)
   | extract_lets +onlyGivenNames x
   | with_reducible apply bankFail_keeps
   | with_reducible apply mramPut_keeps
   | with_reducible apply onPar_keeps
   | with_reducible apply takeInjected_keeps
   | with_reducible refine keeps_ite (fun _ => ?_) (fun _ => ?_)

theorem sjPut_keeps {b : Dev} {x0 : Dev} {x1 : Nat} {x2 : Slot} (hx0 : Keeps b x0) : Keeps b (Dev.sjPut x0 x1 x2) := by
  unfold Dev.sjPut
  repeat' first
   | with_reducible assumption
   | with_reducible refine fun (d : Dev) (h : Keeps b d) => ?_
   | (generalize hp : Dev.takeSeq _ = p; refine (fun (hk : KeepsP b p) => ?_) (keepsP_gen hp (takeSeq_keeps ?_)); rotate_left; clear hp; clear p; rotate_right; clear hp; obtain ⟨y, z⟩ := p; replace hk : Keeps b z := hk; try dsimp -zeta only)
   | (extract_lets +onlyGivenNames x; guard_hyp x : Dev := _; refine (fun (hx : Keeps b x) => ?_) ?_; rotate_left; unfold x; clear x; rotate_right; clear_value x)
   | (extract_lets +onlyGivenNames x; clear_value x)
   | extract_lets +onlyGivenNames x
   | with_reducible apply onPar_keeps
   | with_reducible apply sjFlush_keeps
   | with_reducible apply sjShow_keeps
   | with_reducible apply when_keeps

theorem sjClear_keeps {b : Dev} {x0 : Dev} {x1 : Nat} (hx0 : Keeps b x0) : Keeps b (Dev.sjClear x0 x1) := by
  unfold Dev.sjClear
  repeat' first
   | with_reducible assumption
   | with_reducible apply sjPut_keeps

theorem sjNew_keeps {b : Dev} {x0 : Dev} {x1 : Slot} (hx0 : Keeps b x0) : KeepsP b (Dev.sjNew x0 x1) := by
  unfold Dev.sjNew
  repeat' first
   | with_reducible assumption
   | extract_lets +onlyGivenNames x
   | with_reducible apply raise_keeps
   | with_reducible apply sjPut_keeps
   | split
   | with_reducible refine keepsP_mk ?_

end Sys2Proof.Machine
end

