-- ==== Sys2Proof/Laws/Keeps/Arb.lean ====
section
/-! SUPPORT. What every operation of Machine/Arb.lean keeps. -/
namespace Sys2Proof.Machine
open Sys2Proof

set_option linter.unusedTactic false
set_option linter.unreachableTactic false
set_option linter.tactic.unusedName false

theorem served_keeps {b : Dev} {x0 : Dev} {x1 : List ArbReq} (hx0 : Keeps b x0) : KeepsP b (Dev.served x0 x1) := by
  unfold Dev.served
  repeat' first
   | with_reducible assumption
   | with_reducible exact fun h => h
   | with_reducible exact rfl
   | extract_lets +onlyGivenNames x
   | with_reducible apply onPlat_keeps
   | split
   | with_reducible refine keepsP_mk ?_

theorem promoted_keeps {b : Dev} {x0 : Dev} {x1 : ArbReq} (hx0 : Keeps b x0) : Keeps b (Dev.promoted x0 x1) := by
  unfold Dev.promoted
  repeat' first
   | with_reducible assumption
   | with_reducible exact fun h => h
   | with_reducible exact rfl
   | with_reducible apply onPlat_keeps

end Sys2Proof.Machine
end

