-- ==== Sys2Proof/Laws/Keeps/Credits.lean ====
section
/-! SUPPORT. What every operation of Machine/Credits.lean keeps. -/
namespace Sys2Proof.Machine
open Sys2Proof

set_option linter.unusedTactic false
set_option linter.unreachableTactic false
set_option linter.tactic.unusedName false

theorem onStream_keeps {b : Dev} {x0 : Dev} {x1 : Nat} {x2 : Stream → Stream} (hx0 : Keeps b x0) : Keeps b (Dev.onStream x0 x1 x2) := by
  unfold Dev.onStream
  repeat' first
   | with_reducible assumption
   | with_reducible apply onIng_keeps

theorem onPath_keeps {b : Dev} {x0 : Dev} {x1 : Nat} {x2 : Nat} {x3 : Path → Path} (hx0 : Keeps b x0) : Keeps b (Dev.onPath x0 x1 x2 x3) := by
  unfold Dev.onPath
  repeat' first
   | with_reducible assumption
   | with_reducible apply onStream_keeps

theorem setPathSt_keeps {b : Dev} {x0 : Dev} {x1 : Nat} {x2 : Nat} {x3 : PathSt} (hx0 : Keeps b x0) : Keeps b (Dev.setPathSt x0 x1 x2 x3) := by
  unfold Dev.setPathSt
  repeat' first
   | with_reducible assumption
   | extract_lets +onlyGivenNames x
   | with_reducible apply onPath_keeps
   | with_reducible apply wr_keeps

theorem sendCredit_keeps {b : Dev} {x0 : Dev} {x1 : Nat} {x2 : Nat} (hx0 : Keeps b x0) : Keeps b (Dev.sendCredit x0 x1 x2) := by
  unfold Dev.sendCredit
  repeat' first
   | with_reducible assumption
   | with_reducible refine fun (d : Dev) (h : Keeps b d) => ?_
   | with_reducible apply send_keeps
   | with_reducible apply when_keeps

theorem returnCredit_keeps {b : Dev} {x0 : Dev} {x1 : Nat} {x2 : Nat} (hx0 : Keeps b x0) : Keeps b (Dev.returnCredit x0 x1 x2) := by
  unfold Dev.returnCredit
  repeat' first
   | with_reducible assumption
   | extract_lets +onlyGivenNames x
   | with_reducible apply onPath_keeps
   | with_reducible apply sendCredit_keeps
   | with_reducible refine keeps_ite (fun _ => ?_) (fun _ => ?_)

theorem creditsPaid_keeps {b : Dev} {x0 : Dev} {x1 : Nat} (hx0 : Keeps b x0) : Keeps b (Dev.creditsPaid x0 x1) := by
  unfold Dev.creditsPaid
  repeat' first
   | with_reducible assumption
   | (extract_lets +onlyGivenNames x; clear_value x)
   | extract_lets +onlyGivenNames x
   | with_reducible apply onPath_keeps
   | with_reducible apply sendCredit_keeps
   | with_reducible refine keeps_foldl ?_ (fun d x h => ?_)
   | with_reducible refine keeps_ite (fun _ => ?_) (fun _ => ?_)

theorem creditsResume_keeps {b : Dev} {x0 : Dev} {x1 : Nat} (hx0 : Keeps b x0) : Keeps b (Dev.creditsResume x0 x1) := by
  unfold Dev.creditsResume
  repeat' first
   | with_reducible assumption
   | extract_lets +onlyGivenNames x
   | with_reducible apply creditsPaid_keeps
   | with_reducible refine keeps_foldl ?_ (fun d x h => ?_)
   | with_reducible refine keeps_ite (fun _ => ?_) (fun _ => ?_)

end Sys2Proof.Machine
end

