-- ==== Sys2Proof/Laws/Keeps/Pools.lean ====
section
/-! SUPPORT. What every operation of Machine/Pools.lean keeps. -/
namespace Sys2Proof.Machine
open Sys2Proof

set_option linter.unusedTactic false
set_option linter.unreachableTactic false
set_option linter.tactic.unusedName false

theorem poolLevels_keeps {b : Dev} {x0 : Dev} {x1 : Nat} {x2 : Bool} (hx0 : Keeps b x0) : Keeps b (Dev.poolLevels x0 x1 x2) := by
  unfold Dev.poolLevels
  repeat' first
   | with_reducible assumption
   | with_reducible refine fun (d : Dev) (h : Keeps b d) => ?_
   | (extract_lets +onlyGivenNames x; guard_hyp x : Dev := _; refine (fun (hx : Keeps b x) => ?_) ?_; rotate_left; unfold x; clear x; rotate_right; clear_value x)
   | (extract_lets +onlyGivenNames x; guard_hyp x : _ → _ := _; refine (fun (hf : ∀ d y0 y1 y2, Keeps b d → Keeps b (x d y0 y1 y2)) => ?_) ?_; rotate_left; unfold x; clear x; intro d y0 y1 y2 h; beta_reduce; rotate_right; clear_value x)
   | (extract_lets +onlyGivenNames x; clear_value x)
   | extract_lets +onlyGivenNames x
   | with_reducible apply creditsResume_keeps
   | with_reducible apply raise_keeps
   | with_reducible apply when_keeps
   | with_reducible apply wrB_keeps
   | with_reducible refine hf _ _ _ _ ?_

theorem grant_keeps {b : Dev} {x0 : Dev} {x1 : Nat} {x2 : Nat} (hx0 : Keeps b x0) : KeepsP b (Dev.grant x0 x1 x2) := by
  unfold Dev.grant
  repeat' first
   | with_reducible assumption
   | with_reducible refine fun (d : Dev) (h : Keeps b d) => ?_
   | (extract_lets +onlyGivenNames x; guard_hyp x : Dev := _; refine (fun (hx : Keeps b x) => ?_) ?_; rotate_left; unfold x; clear x; rotate_right; clear_value x)
   | (extract_lets +onlyGivenNames x; clear_value x)
   | extract_lets +onlyGivenNames x
   | with_reducible apply count_keeps
   | with_reducible apply onBpm_keeps
   | with_reducible apply poolLevels_keeps
   | with_reducible apply raise_keeps
   | with_reducible apply setBufEnt_keeps
   | with_reducible apply when_keeps
   | split
   | with_reducible refine keepsP_mk ?_

theorem grantMany_keeps {b : Dev} {x0 : Dev} {x1 : Nat} {x2 : Nat} {x3 : Nat} (hx0 : Keeps b x0) : KeepsP b (Dev.grantMany x0 x1 x2 x3) := by
  induction x3 generalizing x0 x1 x2 with
  | zero =>
    unfold Dev.grantMany
    repeat' first
     | with_reducible assumption
     | with_reducible refine keepsP_mk ?_
  | succ n ih =>
    unfold Dev.grantMany
    repeat' first
     | with_reducible assumption
     | with_reducible refine keeps_snd (ih ?_)
     | (generalize hp : Dev.grant _ _ _ = p; refine (fun (hk : KeepsP b p) => ?_) (keepsP_gen hp (grant_keeps ?_)); rotate_left; clear hp; clear p; rotate_right; clear hp; obtain ⟨y, z⟩ := p; replace hk : Keeps b z := hk; try dsimp -zeta only)
     | extract_lets +onlyGivenNames x
     | with_reducible refine keepsP_ite (fun _ => ?_) (fun _ => ?_)
     | with_reducible refine keepsP_mk ?_

theorem answerGrant_keeps {b : Dev} {x0 : Dev} {x1 : Nat} {x2 : Nat} (hx0 : Keeps b x0) : Keeps b (Dev.answerGrant x0 x1 x2) := by
  unfold Dev.answerGrant
  repeat' first
   | with_reducible assumption
   | (extract_lets +onlyGivenNames x; guard_hyp x : Dev := _; refine (fun (hx : Keeps b x) => ?_) ?_; rotate_left; unfold x; clear x; rotate_right; clear_value x)
   | extract_lets +onlyGivenNames x
   | with_reducible apply send_keeps
   | with_reducible apply wr_keeps
   | with_reducible refine keeps_ite (fun _ => ?_) (fun _ => ?_)

theorem grantRound_keeps {b : Dev} {x0 : Dev} {x1 : Nat} {x2 : Nat} {x3 : List GrantReq} (hx0 : Keeps b x0) : Keeps b (Dev.grantRound x0 x1 x2 x3) := by
  induction x2 generalizing x0 x1 x3 with
  | zero =>
    unfold Dev.grantRound
    repeat' first
     | with_reducible assumption
  | succ n ih =>
    unfold Dev.grantRound
    repeat' first
     | with_reducible assumption
     | with_reducible apply ih
     | (generalize hp : Dev.grant _ _ _ = p; refine (fun (hk : KeepsP b p) => ?_) (keepsP_gen hp (grant_keeps ?_)); rotate_left; clear hp; clear p; rotate_right; clear hp; obtain ⟨y, z⟩ := p; replace hk : Keeps b z := hk; try dsimp -zeta only)
     | extract_lets +onlyGivenNames x
     | with_reducible apply answerGrant_keeps
     | with_reducible apply count_keeps
     | with_reducible apply onBpm_keeps
     | with_reducible apply poolLevels_keeps
     | with_reducible apply raise_keeps
     | with_reducible refine keeps_foldl ?_ (fun d x h => ?_)
     | split

theorem opIgnored_keeps {b : Dev} {x0 : Dev} {x1 : Bool} (hx0 : Keeps b x0) : KeepsP b (Dev.opIgnored x0 x1) := by
  unfold Dev.opIgnored
  repeat' first
   | with_reducible assumption
   | with_reducible refine fun (d : Dev) (h : Keeps b d) => ?_
   | (extract_lets +onlyGivenNames x; guard_hyp x : Dev := _; refine (fun (hx : Keeps b x) => ?_) ?_; rotate_left; unfold x; clear x; rotate_right; clear_value x)
   | (extract_lets +onlyGivenNames x; clear_value x)
   | extract_lets +onlyGivenNames x
   | with_reducible apply countIgnored_keeps
   | with_reducible apply count_keeps
   | with_reducible apply raise_keeps
   | with_reducible apply takeInjected_keeps
   | with_reducible apply when_keeps
   | with_reducible refine keepsP_mk ?_

theorem startFree_keeps {b : Dev} {x0 : Dev} {x1 : Nat} (hx0 : Keeps b x0) : Keeps b (Dev.startFree x0 x1) := by
  unfold Dev.startFree
  repeat' first
   | with_reducible assumption
   | with_reducible apply onBpm_keeps

theorem bpmFree_keeps {b : Dev} {x0 : Dev} {x1 : Nat} {x2 : BufRef} (hx0 : Keeps b x0) : KeepsP b (Dev.bpmFree x0 x1 x2) := by
  unfold Dev.bpmFree
  repeat' first
   | with_reducible assumption
   | (generalize hp : Dev.opIgnored _ _ = p; refine (fun (hk : KeepsP b p) => ?_) (keepsP_gen hp (opIgnored_keeps ?_)); rotate_left; clear hp; clear p; rotate_right; clear hp; obtain ⟨y, z⟩ := p; replace hk : Keeps b z := hk; try dsimp -zeta only)
   | (extract_lets +onlyGivenNames x; clear_value x)
   | extract_lets +onlyGivenNames x
   | with_reducible apply count_keeps
   | with_reducible apply setBufEnt_keeps
   | with_reducible apply startFree_keeps
   | with_reducible refine keepsP_ite (fun _ => ?_) (fun _ => ?_)
   | split
   | with_reducible refine keepsP_mk ?_

theorem dropShare_keeps {b : Dev} {x0 : Dev} {x1 : Nat} {x2 : Nat} (hx0 : Keeps b x0) : Keeps b (Dev.dropShare x0 x1 x2) := by
  unfold Dev.dropShare
  repeat' first
   | with_reducible assumption
   | (extract_lets +onlyGivenNames x; guard_hyp x : Dev := _; refine (fun (hx : Keeps b x) => ?_) ?_; rotate_left; unfold x; clear x; rotate_right; clear_value x)
   | (extract_lets +onlyGivenNames x; clear_value x)
   | extract_lets +onlyGivenNames x
   | with_reducible apply onBpm_keeps
   | with_reducible apply setBufEnt_keeps
   | with_reducible apply startFree_keeps
   | with_reducible refine keeps_ite (fun _ => ?_) (fun _ => ?_)
   | split

theorem bpmRelease_keeps {b : Dev} {x0 : Dev} {x1 : Nat} {x2 : BufRef} (hx0 : Keeps b x0) : KeepsP b (Dev.bpmRelease x0 x1 x2) := by
  unfold Dev.bpmRelease
  repeat' first
   | with_reducible assumption
   | (generalize hp : Dev.opIgnored _ _ = p; refine (fun (hk : KeepsP b p) => ?_) (keepsP_gen hp (opIgnored_keeps ?_)); rotate_left; clear hp; clear p; rotate_right; clear hp; obtain ⟨y, z⟩ := p; replace hk : Keeps b z := hk; try dsimp -zeta only)
   | extract_lets +onlyGivenNames x
   | with_reducible apply dropShare_keeps
   | with_reducible refine keepsP_ite (fun _ => ?_) (fun _ => ?_)
   | split
   | with_reducible refine keepsP_mk ?_

theorem bpmShare_keeps {b : Dev} {x0 : Dev} {x1 : Nat} {x2 : BufRef} {x3 : Nat} {x4 : Nat} (hx0 : Keeps b x0) : KeepsP b (Dev.bpmShare x0 x1 x2 x3 x4) := by
  unfold Dev.bpmShare
  repeat' first
   | with_reducible assumption
   | (generalize hp : Dev.opIgnored _ _ = p; refine (fun (hk : KeepsP b p) => ?_) (keepsP_gen hp (opIgnored_keeps ?_)); rotate_left; clear hp; clear p; rotate_right; clear hp; obtain ⟨y, z⟩ := p; replace hk : Keeps b z := hk; try dsimp -zeta only)
   | (extract_lets +onlyGivenNames x; clear_value x)
   | extract_lets +onlyGivenNames x
   | with_reducible apply countIgnored_keeps
   | with_reducible apply onBpm_keeps
   | with_reducible apply raise_keeps
   | with_reducible apply setBufEnt_keeps
   | with_reducible apply takeInjected_keeps
   | with_reducible refine keepsP_ite (fun _ => ?_) (fun _ => ?_)
   | split
   | with_reducible refine keepsP_mk ?_

theorem bpmTransfer_keeps {b : Dev} {x0 : Dev} {x1 : Nat} {x2 : BufRef} {x3 : Nat} (hx0 : Keeps b x0) : KeepsP b (Dev.bpmTransfer x0 x1 x2 x3) := by
  unfold Dev.bpmTransfer
  repeat' first
   | with_reducible assumption
   | with_reducible exact fun h => h
   | (generalize hp : Dev.opIgnored _ _ = p; refine (fun (hk : KeepsP b p) => ?_) (keepsP_gen hp (opIgnored_keeps ?_)); rotate_left; clear hp; clear p; rotate_right; clear hp; obtain ⟨y, z⟩ := p; replace hk : Keeps b z := hk; try dsimp -zeta only)
   | (extract_lets +onlyGivenNames x; clear_value x)
   | extract_lets +onlyGivenNames x
   | with_reducible apply onCst_keeps
   | with_reducible apply passTo_keeps
   | with_reducible refine keepsP_ite (fun _ => ?_) (fun _ => ?_)
   | split
   | with_reducible refine keepsP_mk ?_

theorem bpmHostw_keeps {b : Dev} {x0 : Dev} {x1 : Nat} {x2 : BufRef} {x3 : Bool} (hx0 : Keeps b x0) : KeepsP b (Dev.bpmHostw x0 x1 x2 x3) := by
  unfold Dev.bpmHostw
  repeat' first
   | with_reducible assumption
   | (generalize hp : Dev.opIgnored _ _ = p; refine (fun (hk : KeepsP b p) => ?_) (keepsP_gen hp (opIgnored_keeps ?_)); rotate_left; clear hp; clear p; rotate_right; clear hp; obtain ⟨y, z⟩ := p; replace hk : Keeps b z := hk; try dsimp -zeta only)
   | (extract_lets +onlyGivenNames x; clear_value x)
   | extract_lets +onlyGivenNames x
   | with_reducible apply setBufEnt_keeps
   | with_reducible refine keepsP_ite (fun _ => ?_) (fun _ => ?_)
   | split
   | with_reducible refine keepsP_mk ?_

theorem freeNow_keeps {b : Dev} {x0 : Dev} {x1 : Nat} (hx0 : Keeps b x0) : Keeps b (Dev.freeNow x0 x1) := by
  unfold Dev.freeNow
  repeat' first
   | with_reducible assumption
   | with_reducible exact fun h => Map.dropWindow_wf _ _ _ _ (by omega) h
   | with_reducible refine fun (d : Dev) (h : Keeps b d) => ?_
   | (extract_lets +onlyGivenNames x; guard_hyp x : Dev := _; refine (fun (hx : Keeps b x) => ?_) ?_; rotate_left; unfold x; clear x; rotate_right; clear_value x)
   | (extract_lets +onlyGivenNames x; clear_value x)
   | extract_lets +onlyGivenNames x
   | with_reducible apply cacheDropGranule_keeps
   | with_reducible apply count_keeps
   | with_reducible apply onBpm_keeps
   | with_reducible apply onCst_keeps
   | with_reducible apply poolLevels_keeps
   | with_reducible apply setBufEnt_keeps
   | with_reducible apply when_keeps
   | with_reducible apply wr_keeps
   | with_reducible apply zeroFillDone_keeps

theorem freeComplete_keeps {b : Dev} {x0 : Dev} {x1 : Nat} (hx0 : Keeps b x0) : Keeps b (Dev.freeComplete x0 x1) := by
  unfold Dev.freeComplete
  repeat' first
   | with_reducible assumption
   | extract_lets +onlyGivenNames x
   | with_reducible apply freeNow_keeps
   | with_reducible refine keeps_ite (fun _ => ?_) (fun _ => ?_)

theorem freeBuf_keeps {b : Dev} {x0 : Dev} {x1 : Nat} {x2 : Nat} (hx0 : Keeps b x0) : Keeps b (Dev.freeBuf x0 x1 x2) := by
  unfold Dev.freeBuf
  repeat' first
   | with_reducible assumption
   | (generalize hp : Dev.bpmFree _ _ _ = p; refine (fun (hk : KeepsP b p) => ?_) (keepsP_gen hp (bpmFree_keeps ?_)); rotate_left; clear hp; clear p; rotate_right; clear hp; obtain ⟨y, z⟩ := p; replace hk : Keeps b z := hk; try dsimp -zeta only)
   | extract_lets +onlyGivenNames x
   | with_reducible apply freeNow_keeps
   | with_reducible refine keeps_ite (fun _ => ?_) (fun _ => ?_)

theorem revokeOwner_keeps {b : Dev} {x0 : Dev} {x1 : Nat} (hx0 : Keeps b x0) : Keeps b (Dev.revokeOwner x0 x1) := by
  unfold Dev.revokeOwner
  repeat' first
   | with_reducible assumption
   | (extract_lets +onlyGivenNames x; guard_hyp x : Dev := _; refine (fun (hx : Keeps b x) => ?_) ?_; rotate_left; unfold x; clear x; rotate_right; clear_value x)
   | (extract_lets +onlyGivenNames x; clear_value x)
   | extract_lets +onlyGivenNames x
   | with_reducible apply countN_keeps
   | with_reducible apply dropShare_keeps
   | with_reducible apply onBpm_keeps
   | with_reducible apply raise_keeps
   | with_reducible apply setBufEnt_keeps
   | with_reducible refine keeps_foldl ?_ (fun d x h => ?_)
   | with_reducible refine keeps_ite (fun _ => ?_) (fun _ => ?_)
   | split

theorem ownerReturns_keeps {b : Dev} {x0 : Dev} {x1 : Nat} (hx0 : Keeps b x0) : Keeps b (Dev.ownerReturns x0 x1) := by
  unfold Dev.ownerReturns
  repeat' first
   | with_reducible assumption
   | (extract_lets +onlyGivenNames x; guard_hyp x : Dev := _; refine (fun (hx : Keeps b x) => ?_) ?_; rotate_left; unfold x; clear x; rotate_right; clear_value x)
   | (extract_lets +onlyGivenNames x; clear_value x)
   | extract_lets +onlyGivenNames x
   | with_reducible apply countN_keeps
   | with_reducible apply onBpm_keeps
   | with_reducible apply setUnit_keeps
   | with_reducible refine keeps_ite (fun _ => ?_) (fun _ => ?_)

theorem opResult_keeps {b : Dev} {x0 : Dev} {x1 : Nat} {x2 : BpmSt × Dev} (hx0 : Keeps b x0) (hx2 : KeepsP b x2) : Keeps b (Dev.opResult x0 x1 x2) := by
  unfold Dev.opResult
  repeat' first
   | extract_lets +onlyGivenNames x
   | with_reducible apply wr_keeps
   | with_reducible refine keeps_ite (fun _ => ?_) (fun _ => ?_)
   | with_reducible exact keeps_snd ‹KeepsP b _›

theorem execBpmGrant_keeps {x0 : Nat} {x1 : List GrantReq} {x2 : State}  : Steps x2.dev x2 (execBpmGrant x0 x1 x2) := by
  unfold execBpmGrant
  refine steps_run (fun d h => ?_)
  repeat' first
   | with_reducible assumption
   | extract_lets +onlyGivenNames x
   | with_reducible apply grantRound_keeps

theorem execBpmFree_keeps {x0 : Nat} {x1 : BufRef} {x2 : State}  : Steps x2.dev x2 (execBpmFree x0 x1 x2) := by
  unfold execBpmFree
  refine steps_run (fun d h => ?_)
  repeat' first
   | with_reducible assumption
   | extract_lets +onlyGivenNames x
   | with_reducible apply bpmFree_keeps
   | with_reducible apply opResult_keeps

theorem execFreeComplete_keeps {x0 : Nat} {x1 : State}  : Steps x1.dev x1 (execFreeComplete x0 x1) := by
  unfold execFreeComplete
  refine steps_run (fun d h => ?_)
  repeat' first
   | with_reducible assumption
   | extract_lets +onlyGivenNames x
   | with_reducible apply freeComplete_keeps

theorem execBpmRelease_keeps {x0 : Nat} {x1 : BufRef} {x2 : State}  : Steps x2.dev x2 (execBpmRelease x0 x1 x2) := by
  unfold execBpmRelease
  refine steps_run (fun d h => ?_)
  repeat' first
   | with_reducible assumption
   | extract_lets +onlyGivenNames x
   | with_reducible apply bpmRelease_keeps
   | with_reducible apply opResult_keeps

theorem execBpmShare_keeps {x0 : Nat} {x1 : BufRef} {x2 : Nat} {x3 : Nat} {x4 : State}  : Steps x4.dev x4 (execBpmShare x0 x1 x2 x3 x4) := by
  unfold execBpmShare
  refine steps_run (fun d h => ?_)
  repeat' first
   | with_reducible assumption
   | extract_lets +onlyGivenNames x
   | with_reducible apply bpmShare_keeps
   | with_reducible apply opResult_keeps

theorem execBpmTransfer_keeps {x0 : Nat} {x1 : BufRef} {x2 : Nat} {x3 : State}  : Steps x3.dev x3 (execBpmTransfer x0 x1 x2 x3) := by
  unfold execBpmTransfer
  refine steps_run (fun d h => ?_)
  repeat' first
   | with_reducible assumption
   | extract_lets +onlyGivenNames x
   | with_reducible apply bpmTransfer_keeps
   | with_reducible apply opResult_keeps

theorem execBpmHostwSet_keeps {x0 : Nat} {x1 : BufRef} {x2 : State}  : Steps x2.dev x2 (execBpmHostwSet x0 x1 x2) := by
  unfold execBpmHostwSet
  refine steps_run (fun d h => ?_)
  repeat' first
   | with_reducible assumption
   | extract_lets +onlyGivenNames x
   | with_reducible apply bpmHostw_keeps
   | with_reducible apply opResult_keeps

theorem execBpmHostwClr_keeps {x0 : Nat} {x1 : BufRef} {x2 : State}  : Steps x2.dev x2 (execBpmHostwClr x0 x1 x2) := by
  unfold execBpmHostwClr
  refine steps_run (fun d h => ?_)
  repeat' first
   | with_reducible assumption
   | extract_lets +onlyGivenNames x
   | with_reducible apply bpmHostw_keeps
   | with_reducible apply opResult_keeps

end Sys2Proof.Machine
end

