-- ==== Sys2Proof/Laws/Keeps/FlashWork.lean ====
section
/-! SUPPORT. What every operation of Machine/FlashWork.lean keeps. -/
namespace Sys2Proof.Machine
open Sys2Proof

set_option linter.unusedTactic false
set_option linter.unreachableTactic false
set_option linter.tactic.unusedName false

theorem openNew_keeps {b : Dev} {x0 : Dev} {x1 : Nat} {x2 : Nat} (hx0 : Keeps b x0) : KeepsP b (Dev.openNew x0 x1 x2) := by
  unfold Dev.openNew
  repeat' first
   | with_reducible assumption
   | (generalize hp : Dev.journal _ _ _ _ _ _ = p; refine (fun (hk : KeepsP b p) => ?_) (keepsP_gen hp (journal_keeps ?_)); rotate_left; clear hp; clear p; rotate_right; clear hp; obtain ⟨y, z⟩ := p; replace hk : Keeps b z := hk; try dsimp -zeta only)
   | (extract_lets +onlyGivenNames x; guard_hyp x : Dev := _; refine (fun (hx : Keeps b x) => ?_) ?_; rotate_left; unfold x; clear x; rotate_right; clear_value x)
   | (extract_lets +onlyGivenNames x; clear_value x)
   | extract_lets +onlyGivenNames x
   | with_reducible apply onRow_keeps
   | with_reducible apply wr_keeps
   | with_reducible refine keepsP_ite (fun _ => ?_) (fun _ => ?_)
   | split
   | with_reducible refine keepsP_mk ?_

theorem closeRow_keeps {b : Dev} {x0 : Dev} {x1 : Nat} (hx0 : Keeps b x0) : Keeps b (Dev.closeRow x0 x1) := by
  unfold Dev.closeRow
  repeat' first
   | with_reducible assumption
   | (generalize hp : Dev.journal _ _ _ _ _ _ = p; refine (fun (hk : KeepsP b p) => ?_) (keepsP_gen hp (journal_keeps ?_)); rotate_left; clear hp; clear p; rotate_right; clear hp; obtain ⟨y, z⟩ := p; replace hk : Keeps b z := hk; try dsimp -zeta only)
   | extract_lets +onlyGivenNames x
   | with_reducible apply onRow_keeps
   | with_reducible refine keeps_ite (fun _ => ?_) (fun _ => ?_)

theorem sourceRow_keeps {b : Dev} {x0 : Dev} {x1 : Nat} (hx0 : Keeps b x0) : Keeps b (Dev.sourceRow x0 x1) := by
  unfold Dev.sourceRow
  repeat' first
   | with_reducible assumption
   | (generalize hp : Dev.journal _ _ _ _ _ _ = p; refine (fun (hk : KeepsP b p) => ?_) (keepsP_gen hp (journal_keeps ?_)); rotate_left; clear hp; clear p; rotate_right; clear hp; obtain ⟨y, z⟩ := p; replace hk : Keeps b z := hk; try dsimp -zeta only)
   | extract_lets +onlyGivenNames x
   | with_reducible apply onRow_keeps
   | with_reducible refine keeps_ite (fun _ => ?_) (fun _ => ?_)

theorem onStripe_keeps {b : Dev} {x0 : Dev} {x1 : Nat} {x2 : Nat} {x3 : Stripe → Stripe} (hx0 : Keeps b x0) : Keeps b (Dev.onStripe x0 x1 x2 x3) := by
  unfold Dev.onStripe
  repeat' first
   | with_reducible assumption
   | with_reducible apply onSfl_keeps

theorem dropStripe_keeps {b : Dev} {x0 : Dev} {x1 : Nat} {x2 : Nat} (hx0 : Keeps b x0) : Keeps b (Dev.dropStripe x0 x1 x2) := by
  unfold Dev.dropStripe
  repeat' first
   | with_reducible assumption
   | with_reducible apply onSfl_keeps

theorem startProg_keeps {b : Dev} {x0 : Dev} {x1 : Nat} {x2 : Nat} {x3 : FUnit} {x4 : ProgFor} (hx0 : Keeps b x0) : KeepsP b (Dev.startProg x0 x1 x2 x3 x4) := by
  unfold Dev.startProg
  repeat' first
   | with_reducible assumption
   | (generalize hp : Dev.takeSeq _ = p; refine (fun (hk : KeepsP b p) => ?_) (keepsP_gen hp (takeSeq_keeps ?_)); rotate_left; clear hp; clear p; rotate_right; clear hp; obtain ⟨y, z⟩ := p; replace hk : Keeps b z := hk; try dsimp -zeta only)
   | (extract_lets +onlyGivenNames x; clear_value x)
   | extract_lets +onlyGivenNames x
   | with_reducible apply onSfl_keeps
   | with_reducible refine keepsP_mk ?_

theorem grantAll_keeps {b : Dev} {x0 : Dev} {x1 : Nat} {x2 : Nat} {x3 : Nat} (hx0 : Keeps b x0) : KeepsP b (Dev.grantAll x0 x1 x2 x3) := by
  unfold Dev.grantAll
  repeat' first
   | with_reducible assumption
   | (generalize hp : Dev.grantMany _ _ _ _ = p; refine (fun (hk : KeepsP b p) => ?_) (keepsP_gen hp (grantMany_keeps ?_)); rotate_left; clear hp; clear p; rotate_right; clear hp; obtain ⟨y, z⟩ := p; replace hk : Keeps b z := hk; try dsimp -zeta only)
   | extract_lets +onlyGivenNames x
   | with_reducible apply freeBuf_keeps
   | with_reducible refine keeps_foldl ?_ (fun d x h => ?_)
   | with_reducible refine keepsP_ite (fun _ => ?_) (fun _ => ?_)
   | with_reducible refine keepsP_mk ?_

theorem bufFill_keeps {b : Dev} {x0 : Dev} {x1 : Nat} {x2 : Nat} {x3 : Nat} {x4 : Map Byte} {x5 : Nat} {x6 : Nat} (hx0 : Keeps b x0) : Keeps b (Dev.bufFill x0 x1 x2 x3 x4 x5 x6) := by
  unfold Dev.bufFill
  repeat' first
   | with_reducible assumption
   | (extract_lets +onlyGivenNames x; clear_value x)
   | extract_lets +onlyGivenNames x
   | with_reducible apply writeNow_keeps
   | with_reducible refine keeps_foldl ?_ (fun d x h => ?_)
   | with_reducible refine keeps_ite (fun _ => ?_) (fun _ => ?_)

theorem bufTake_keeps {b : Dev} {x0 : Dev} {x1 : Nat} {x2 : Nat} {x3 : Nat} {x4 : Nat} {x5 : Nat} (hx0 : Keeps b x0) : KeepsT b (Dev.bufTake x0 x1 x2 x3 x4 x5) := by
  unfold Dev.bufTake
  repeat' first
   | with_reducible assumption
   | (generalize hp : Dev.readLine _ _ = p; refine (fun (hk : KeepsP b p) => ?_) (keepsP_gen hp (readLine_keeps ?_)); rotate_left; clear hp; clear p; rotate_right; clear hp; obtain ⟨y, z⟩ := p; replace hk : Keeps b z := hk; try dsimp -zeta only)
   | (extract_lets +onlyGivenNames x; clear_value x)
   | extract_lets +onlyGivenNames x
   | with_reducible refine keepsP_foldl ?_ (fun d x h => ?_)
   | split
   | with_reducible refine keepsP_mk ?_
   | with_reducible refine keepsT_mk ?_
   | with_reducible exact keeps_snd ‹KeepsP b _›
   | with_reducible refine keeps_pair ?_ ‹_ = (_, _)›

theorem accAdd_keeps {b : Dev} {x0 : Dev} {x1 : Nat} {x2 : Nat} {x3 : Map Byte} {x4 : Nat} (hx0 : Keeps b x0) : Keeps b (Dev.accAdd x0 x1 x2 x3 x4) := by
  unfold Dev.accAdd
  repeat' first
   | with_reducible assumption
   | (generalize hp : Dev.readLine _ _ = p; refine (fun (hk : KeepsP b p) => ?_) (keepsP_gen hp (readLine_keeps ?_)); rotate_left; clear hp; clear p; rotate_right; clear hp; obtain ⟨y, z⟩ := p; replace hk : Keeps b z := hk; try dsimp -zeta only)
   | (extract_lets +onlyGivenNames x; clear_value x)
   | with_reducible apply writeNow_keeps
   | with_reducible refine keeps_foldl ?_ (fun d x h => ?_)

theorem stripeAdd_keeps {b : Dev} {x0 : Dev} {x1 : Nat} {x2 : Nat} {x3 : Nat} {x4 : Map Byte} (hx0 : Keeps b x0) : Keeps b (Dev.stripeAdd x0 x1 x2 x3 x4) := by
  unfold Dev.stripeAdd
  repeat' first
   | with_reducible assumption
   | (extract_lets +onlyGivenNames x; clear_value x)
   | extract_lets +onlyGivenNames x
   | with_reducible apply accAdd_keeps
   | with_reducible refine keeps_foldl ?_ (fun d x h => ?_)
   | split

theorem newAcc_keeps {b : Dev} {x0 : Dev} {x1 : Nat} {x2 : Nat} (hx0 : Keeps b x0) : KeepsP b (Dev.newAcc x0 x1 x2) := by
  unfold Dev.newAcc
  repeat' first
   | with_reducible assumption
   | (generalize hp : Dev.grantAll _ _ _ _ = p; refine (fun (hk : KeepsP b p) => ?_) (keepsP_gen hp (grantAll_keeps ?_)); rotate_left; clear hp; clear p; rotate_right; clear hp; obtain ⟨y, z⟩ := p; replace hk : Keeps b z := hk; try dsimp -zeta only)
   | extract_lets +onlyGivenNames x
   | with_reducible apply onSfl_keeps
   | with_reducible refine keepsP_ite (fun _ => ?_) (fun _ => ?_)
   | with_reducible refine keepsP_mk ?_

theorem nextPlace_keeps {b : Dev} {x0 : Dev} {x1 : Nat} {x2 : Nat} (hx0 : Keeps b x0) : KeepsP b (Dev.nextPlace x0 x1 x2) := by
  unfold Dev.nextPlace
  repeat' first
   | with_reducible assumption
   | (generalize hp : Dev.newAcc _ _ _ = p; refine (fun (hk : KeepsP b p) => ?_) (keepsP_gen hp (newAcc_keeps ?_)); rotate_left; clear hp; clear p; rotate_right; clear hp; obtain ⟨y, z⟩ := p; replace hk : Keeps b z := hk; try dsimp -zeta only)
   | (generalize hp : Dev.openNew _ _ _ = p; refine (fun (hk : KeepsP b p) => ?_) (keepsP_gen hp (openNew_keeps ?_)); rotate_left; clear hp; clear p; rotate_right; clear hp; obtain ⟨y, z⟩ := p; replace hk : Keeps b z := hk; try dsimp -zeta only)
   | (generalize hp : Dev.sjNew _ _ = p; refine (fun (hk : KeepsP b p) => ?_) (keepsP_gen hp (sjNew_keeps ?_)); rotate_left; clear hp; clear p; rotate_right; clear hp; obtain ⟨y, z⟩ := p; replace hk : Keeps b z := hk; try dsimp -zeta only)
   | (extract_lets +onlyGivenNames x; guard_hyp x : Dev := _; refine (fun (hx : Keeps b x) => ?_) ?_; rotate_left; unfold x; clear x; rotate_right; clear_value x)
   | (extract_lets +onlyGivenNames x; clear_value x)
   | extract_lets +onlyGivenNames x
   | with_reducible apply freeBuf_keeps
   | with_reducible apply onRow_keeps
   | with_reducible apply onSfl_keeps
   | with_reducible refine keeps_foldl ?_ (fun d x h => ?_)
   | with_reducible refine keepsP_ite (fun _ => ?_) (fun _ => ?_)
   | split
   | with_reducible refine keepsP_mk ?_

theorem placeAt_keeps {b : Dev} {x0 : Dev} {x1 : Nat} {x2 : Nat} {x3 : Nat} {x4 : FUnit} {x5 : ProgFor} (hx0 : Keeps b x0) : KeepsT b (Dev.placeAt x0 x1 x2 x3 x4 x5) := by
  unfold Dev.placeAt
  repeat' first
   | with_reducible assumption
   | (generalize hp : Dev.startProg _ _ _ _ _ = p; refine (fun (hk : KeepsP b p) => ?_) (keepsP_gen hp (startProg_keeps ?_)); rotate_left; clear hp; clear p; rotate_right; clear hp; obtain ⟨y, z⟩ := p; replace hk : Keeps b z := hk; try dsimp -zeta only)
   | (extract_lets +onlyGivenNames x; guard_hyp x : Dev := _; refine (fun (hx : Keeps b x) => ?_) ?_; rotate_left; unfold x; clear x; rotate_right; clear_value x)
   | (extract_lets +onlyGivenNames x; clear_value x)
   | extract_lets +onlyGivenNames x
   | with_reducible apply onStripe_keeps
   | with_reducible apply stripeAdd_keeps
   | with_reducible refine keepsT_mk ?_

theorem place_keeps {b : Dev} {x0 : Dev} {x1 : Nat} {x2 : Nat} {x3 : FUnit} {x4 : ProgFor} (hx0 : Keeps b x0) : KeepsP b (Dev.place x0 x1 x2 x3 x4) := by
  unfold Dev.place
  repeat' first
   | with_reducible assumption
   | (generalize hp : Dev.nextPlace _ _ _ = p; refine (fun (hk : KeepsP b p) => ?_) (keepsP_gen hp (nextPlace_keeps ?_)); rotate_left; clear hp; clear p; rotate_right; clear hp; obtain ⟨y, z⟩ := p; replace hk : Keeps b z := hk; try dsimp -zeta only)
   | (generalize hp : Dev.placeAt _ _ _ _ _ _ = p; refine (fun (hk : KeepsT b p) => ?_) (keepsT_gen hp (placeAt_keeps ?_)); rotate_left; clear hp; clear p; rotate_right; clear hp; obtain ⟨y, w, z⟩ := p; replace hk : Keeps b z := hk; try dsimp -zeta only)
   | split
   | with_reducible refine keepsP_mk ?_

theorem padStripe_keeps {b : Dev} {x0 : Dev} {x1 : Nat} {x2 : Nat} (hx0 : Keeps b x0) : Keeps b (Dev.padStripe x0 x1 x2) := by
  unfold Dev.padStripe
  repeat' first
   | with_reducible assumption
   | (generalize hp : Dev.startProg _ _ _ _ _ = p; refine (fun (hk : KeepsP b p) => ?_) (keepsP_gen hp (startProg_keeps ?_)); rotate_left; clear hp; clear p; rotate_right; clear hp; obtain ⟨y, z⟩ := p; replace hk : Keeps b z := hk; try dsimp -zeta only)
   | (extract_lets +onlyGivenNames x; guard_hyp x : Dev := _; refine (fun (hx : Keeps b x) => ?_) ?_; rotate_left; unfold x; clear x; rotate_right; clear_value x)
   | extract_lets +onlyGivenNames x
   | with_reducible apply count_keeps
   | with_reducible apply onStripe_keeps
   | with_reducible refine keeps_foldl ?_ (fun d x h => ?_)
   | with_reducible refine keeps_ite (fun _ => ?_) (fun _ => ?_)
   | split

theorem parityProg_keeps {b : Dev} {x0 : Dev} {x1 : Nat} {x2 : Nat} {x3 : Nat} {x4 : Nat × Nat × Nat} (hx0 : Keeps b x0) : Keeps b (Dev.parityProg x0 x1 x2 x3 x4) := by
  unfold Dev.parityProg
  repeat' first
   | with_reducible assumption
   | (generalize hp : Dev.bpmTransfer _ _ _ _ = p; refine (fun (hk : KeepsP b p) => ?_) (keepsP_gen hp (bpmTransfer_keeps ?_)); rotate_left; clear hp; clear p; rotate_right; clear hp; obtain ⟨y, z⟩ := p; replace hk : Keeps b z := hk; try dsimp -zeta only)
   | (generalize hp : Dev.bufTake _ _ _ _ _ _ = p; refine (fun (hk : KeepsT b p) => ?_) (keepsT_gen hp (bufTake_keeps ?_)); rotate_left; clear hp; clear p; rotate_right; clear hp; obtain ⟨y, w, z⟩ := p; replace hk : Keeps b z := hk; try dsimp -zeta only)
   | (generalize hp : Dev.startProg _ _ _ _ _ = p; refine (fun (hk : KeepsP b p) => ?_) (keepsP_gen hp (startProg_keeps ?_)); rotate_left; clear hp; clear p; rotate_right; clear hp; obtain ⟨y, z⟩ := p; replace hk : Keeps b z := hk; try dsimp -zeta only)
   | (extract_lets +onlyGivenNames x; guard_hyp x : _ × _ × Dev := _; refine (fun (hx : KeepsT b x) => ?_) ?_; rotate_left; unfold x; clear x; rotate_right; clear_value x)
   | extract_lets +onlyGivenNames x
   | with_reducible refine keepsT_mk ?_
   | with_reducible exact keepsT_snd ‹KeepsT b _›

theorem startParity_keeps {b : Dev} {x0 : Dev} {x1 : Nat} {x2 : Nat} (hx0 : Keeps b x0) : Keeps b (Dev.startParity x0 x1 x2) := by
  unfold Dev.startParity
  repeat' first
   | with_reducible assumption
   | (extract_lets +onlyGivenNames x; guard_hyp x : Dev := _; refine (fun (hx : Keeps b x) => ?_) ?_; rotate_left; unfold x; clear x; rotate_right; clear_value x)
   | (extract_lets +onlyGivenNames x; clear_value x)
   | extract_lets +onlyGivenNames x
   | with_reducible apply onStripe_keeps
   | with_reducible apply parityProg_keeps
   | with_reducible refine keeps_foldl ?_ (fun d x h => ?_)
   | with_reducible refine keeps_ite (fun _ => ?_) (fun _ => ?_)
   | split

theorem freeAcc_keeps {b : Dev} {x0 : Dev} {x1 : Nat} {x2 : Nat} (hx0 : Keeps b x0) : Keeps b (Dev.freeAcc x0 x1 x2) := by
  unfold Dev.freeAcc
  repeat' first
   | with_reducible assumption
   | extract_lets +onlyGivenNames x
   | with_reducible apply freeBuf_keeps
   | with_reducible apply onStripe_keeps
   | with_reducible refine keeps_foldl ?_ (fun d x h => ?_)
   | split

theorem showWptr_keeps {b : Dev} {x0 : Dev} {x1 : Nat} (hx0 : Keeps b x0) : Keeps b (Dev.showWptr x0 x1) := by
  unfold Dev.showWptr
  repeat' first
   | with_reducible assumption
   | (extract_lets +onlyGivenNames x; guard_hyp x : Dev := _; refine (fun (hx : Keeps b x) => ?_) ?_; rotate_left; unfold x; clear x; rotate_right; clear_value x)
   | (extract_lets +onlyGivenNames x; clear_value x)
   | extract_lets +onlyGivenNames x
   | with_reducible apply closeRow_keeps
   | with_reducible apply onRow_keeps
   | with_reducible refine keeps_ite (fun _ => ?_) (fun _ => ?_)

theorem addJob_keeps {b : Dev} {x0 : Dev} {x1 : Job} (hx0 : Keeps b x0) : KeepsP b (Dev.addJob x0 x1) := by
  unfold Dev.addJob
  repeat' first
   | with_reducible assumption
   | (extract_lets +onlyGivenNames x; clear_value x)
   | extract_lets +onlyGivenNames x
   | with_reducible apply onSfl_keeps
   | with_reducible refine keepsP_mk ?_

theorem onJob_keeps {b : Dev} {x0 : Dev} {x1 : Nat} {x2 : Job → Job} (hx0 : Keeps b x0) : Keeps b (Dev.onJob x0 x1 x2) := by
  unfold Dev.onJob
  repeat' first
   | with_reducible assumption
   | with_reducible apply onSfl_keeps

theorem ckptStart_keeps {b : Dev} {x0 : Dev} (hx0 : Keeps b x0) : Keeps b (Dev.ckptStart x0) := by
  unfold Dev.ckptStart
  repeat' first
   | with_reducible assumption
   | (generalize hp : Dev.journal _ _ _ _ _ _ = p; refine (fun (hk : KeepsP b p) => ?_) (keepsP_gen hp (journal_keeps ?_)); rotate_left; clear hp; clear p; rotate_right; clear hp; obtain ⟨y, z⟩ := p; replace hk : Keeps b z := hk; try dsimp -zeta only)
   | (generalize hp : Dev.takeSeq _ = p; refine (fun (hk : KeepsP b p) => ?_) (keepsP_gen hp (takeSeq_keeps ?_)); rotate_left; clear hp; clear p; rotate_right; clear hp; obtain ⟨y, z⟩ := p; replace hk : Keeps b z := hk; try dsimp -zeta only)
   | (extract_lets +onlyGivenNames x; guard_hyp x : Dev := _; refine (fun (hx : Keeps b x) => ?_) ?_; rotate_left; unfold x; clear x; rotate_right; clear_value x)
   | (extract_lets +onlyGivenNames x; clear_value x)
   | extract_lets +onlyGivenNames x
   | with_reducible apply jflush_keeps
   | with_reducible apply onSfl_keeps
   | with_reducible apply wrB_keeps
   | with_reducible refine keeps_foldl ?_ (fun d x h => ?_)
   | with_reducible refine keeps_ite (fun _ => ?_) (fun _ => ?_)

theorem rewriteSys_keeps {b : Dev} {x0 : Dev} {x1 : Nat} {x2 : Tag} (hx0 : Keeps b x0) : Keeps b (Dev.rewriteSys x0 x1 x2) := by
  unfold Dev.rewriteSys
  repeat' first
   | with_reducible assumption
   | (extract_lets +onlyGivenNames x; guard_hyp x : Dev := _; refine (fun (hx : Keeps b x) => ?_) ?_; rotate_left; unfold x; clear x; rotate_right; clear_value x)
   | (extract_lets +onlyGivenNames x; clear_value x)
   | extract_lets +onlyGivenNames x
   | with_reducible apply ckptStart_keeps
   | with_reducible apply onSfl_keeps
   | with_reducible refine keeps_ite (fun _ => ?_) (fun _ => ?_)

theorem rewrite_keeps {b : Dev} {x0 : Dev} {x1 : Nat → Bool} {x2 : Option Nat} (hx0 : Keeps b x0) : Keeps b (Dev.rewrite x0 x1 x2) := by
  unfold Dev.rewrite
  repeat' first
   | with_reducible assumption
   | (generalize hp : Dev.addJob _ _ = p; refine (fun (hk : KeepsP b p) => ?_) (keepsP_gen hp (addJob_keeps ?_)); rotate_left; clear hp; clear p; rotate_right; clear hp; obtain ⟨y, z⟩ := p; replace hk : Keeps b z := hk; try dsimp -zeta only)
   | (extract_lets +onlyGivenNames x; guard_hyp x : Dev := _; refine (fun (hx : Keeps b x) => ?_) ?_; rotate_left; unfold x; clear x; rotate_right; clear_value x)
   | (extract_lets +onlyGivenNames x; clear_value x)
   | extract_lets +onlyGivenNames x
   | with_reducible apply onJob_keeps
   | with_reducible apply rewriteSys_keeps
   | with_reducible refine keeps_foldl ?_ (fun d x h => ?_)
   | with_reducible refine keeps_ite (fun _ => ?_) (fun _ => ?_)

theorem lostSlot_keeps {b : Dev} {x0 : Dev} {x1 : Nat} {x2 : Nat} {x3 : Nat} {x4 : Nat} {x5 : Nat} {x6 : Nat} {x7 : Nat} {x8 : Nat} (hx0 : Keeps b x0) : Keeps b (Dev.lostSlot x0 x1 x2 x3 x4 x5 x6 x7 x8) := by
  unfold Dev.lostSlot
  repeat' first
   | with_reducible assumption
   | (generalize hp : Dev.sjNew _ _ = p; refine (fun (hk : KeepsP b p) => ?_) (keepsP_gen hp (sjNew_keeps ?_)); rotate_left; clear hp; clear p; rotate_right; clear hp; obtain ⟨y, z⟩ := p; replace hk : Keeps b z := hk; try dsimp -zeta only)

theorem endStripe_keeps {b : Dev} {x0 : Dev} {x1 : Nat} {x2 : Nat} (hx0 : Keeps b x0) : Keeps b (Dev.endStripe x0 x1 x2) := by
  unfold Dev.endStripe
  repeat' first
   | with_reducible assumption
   | (extract_lets +onlyGivenNames x; guard_hyp x : Dev := _; refine (fun (hx : Keeps b x) => ?_) ?_; rotate_left; unfold x; clear x; rotate_right; clear_value x)
   | (extract_lets +onlyGivenNames x; clear_value x)
   | extract_lets +onlyGivenNames x
   | with_reducible apply count_keeps
   | with_reducible apply dropStripe_keeps
   | with_reducible apply freeAcc_keeps
   | with_reducible apply onStripe_keeps
   | with_reducible apply raise_keeps
   | with_reducible apply rewrite_keeps
   | with_reducible apply showWptr_keeps
   | with_reducible apply sjClear_keeps
   | with_reducible refine keeps_ite (fun _ => ?_) (fun _ => ?_)
   | split

theorem dropDead_keeps {b : Dev} {x0 : Dev} (hx0 : Keeps b x0) : Keeps b (Dev.dropDead x0) := by
  unfold Dev.dropDead
  repeat' first
   | with_reducible assumption
   | (extract_lets +onlyGivenNames x; clear_value x)
   | extract_lets +onlyGivenNames x
   | with_reducible apply dropStripe_keeps
   | with_reducible apply showWptr_keeps
   | with_reducible apply sjClear_keeps
   | with_reducible refine keeps_foldl ?_ (fun d x h => ?_)
   | with_reducible refine keeps_ite (fun _ => ?_) (fun _ => ?_)

theorem sysWaits_keeps {b : Dev} {x0 : Dev} {x1 : Nat} {x2 : Nat} (hx0 : Keeps b x0) : Keeps b (Dev.sysWaits x0 x1 x2) := by
  unfold Dev.sysWaits
  repeat' first
   | with_reducible assumption
   | extract_lets +onlyGivenNames x
   | with_reducible apply count_keeps
   | with_reducible apply onSfl_keeps
   | with_reducible apply raise_keeps
   | with_reducible refine keeps_ite (fun _ => ?_) (fun _ => ?_)

theorem sysFound_keeps {b : Dev} {x0 : Dev} {x1 : Nat} (hx0 : Keeps b x0) : Keeps b (Dev.sysFound x0 x1) := by
  unfold Dev.sysFound
  repeat' first
   | with_reducible assumption
   | with_reducible apply onSfl_keeps

theorem mapWrite_keeps {b : Dev} {x0 : Dev} {x1 : Nat} {x2 : Nat} (hx0 : Keeps b x0) : Keeps b (Dev.mapWrite x0 x1 x2) := by
  unfold Dev.mapWrite
  repeat' first
   | with_reducible assumption
   | (generalize hp : Dev.place _ _ _ _ _ = p; refine (fun (hk : KeepsP b p) => ?_) (keepsP_gen hp (place_keeps ?_)); rotate_left; clear hp; clear p; rotate_right; clear hp; obtain ⟨y, z⟩ := p; replace hk : Keeps b z := hk; try dsimp -zeta only)
   | (extract_lets +onlyGivenNames x; guard_hyp x : Dev := _; refine (fun (hx : Keeps b x) => ?_) ?_; rotate_left; unfold x; clear x; rotate_right; clear_value x)
   | (extract_lets +onlyGivenNames x; clear_value x)
   | extract_lets +onlyGivenNames x
   | with_reducible apply onMslot_keeps
   | with_reducible apply onSfl_keeps
   | with_reducible apply raise_keeps
   | with_reducible apply sysFound_keeps
   | with_reducible apply sysWaits_keeps
   | with_reducible refine keeps_foldl ?_ (fun d x h => ?_)
   | with_reducible refine keeps_ite (fun _ => ?_) (fun _ => ?_)
   | split

theorem mapWriteOut_keeps {b : Dev} {x0 : Dev} {x1 : Nat} (hx0 : Keeps b x0) : Keeps b (Dev.mapWriteOut x0 x1) := by
  unfold Dev.mapWriteOut
  repeat' first
   | with_reducible assumption
   | with_reducible apply mapWrite_keeps

theorem pairPages_keeps {b : Dev} {x0 : Dev} (hx0 : Keeps b x0) : Keeps b (Dev.pairPages x0) := by
  unfold Dev.pairPages
  repeat' first
   | with_reducible assumption
   | extract_lets +onlyGivenNames x
   | with_reducible apply mapWrite_keeps
   | with_reducible refine keeps_foldl ?_ (fun d x h => ?_)
   | with_reducible refine keeps_ite (fun _ => ?_) (fun _ => ?_)
   | split

theorem dirValid_keeps {b : Dev} {x0 : Dev} {x1 : Nat} {x2 : Bool} (hx0 : Keeps b x0) : Keeps b (Dev.dirValid x0 x1 x2) := by
  unfold Dev.dirValid
  repeat' first
   | with_reducible assumption
   | extract_lets +onlyGivenNames x
   | with_reducible apply onRow_keeps
   | with_reducible refine keeps_ite (fun _ => ?_) (fun _ => ?_)
   | split

theorem mapWritten_keeps {b : Dev} {x0 : Dev} {x1 : Nat} {x2 : Nat} {x3 : Nat} {x4 : Nat} (hx0 : Keeps b x0) : Keeps b (Dev.mapWritten x0 x1 x2 x3 x4) := by
  unfold Dev.mapWritten
  repeat' first
   | with_reducible assumption
   | (generalize hp : Dev.journal _ _ _ _ _ _ = p; refine (fun (hk : KeepsP b p) => ?_) (keepsP_gen hp (journal_keeps ?_)); rotate_left; clear hp; clear p; rotate_right; clear hp; obtain ⟨y, z⟩ := p; replace hk : Keeps b z := hk; try dsimp -zeta only)
   | (extract_lets +onlyGivenNames x; guard_hyp x : Dev := _; refine (fun (hx : Keeps b x) => ?_) ?_; rotate_left; unfold x; clear x; rotate_right; clear_value x)
   | (extract_lets +onlyGivenNames x; clear_value x)
   | extract_lets +onlyGivenNames x
   | with_reducible apply count_keeps
   | with_reducible apply dirSet_keeps
   | with_reducible apply dirValid_keeps
   | with_reducible apply onMslot_keeps
   | with_reducible apply onSfl_keeps
   | with_reducible apply showMap_keeps
   | with_reducible refine keeps_ite (fun _ => ?_) (fun _ => ?_)
   | split

theorem freeUnit_keeps {b : Dev} {x0 : Dev} {x1 : Job} (hx0 : Keeps b x0) : Keeps b (Dev.freeUnit x0 x1) := by
  unfold Dev.freeUnit
  repeat' first
   | with_reducible assumption
   | with_reducible apply freeBuf_keeps
   | split

theorem endJob_keeps {b : Dev} {x0 : Dev} {x1 : Job} (hx0 : Keeps b x0) : Keeps b (Dev.endJob x0 x1) := by
  unfold Dev.endJob
  repeat' first
   | with_reducible assumption
   | extract_lets +onlyGivenNames x
   | with_reducible apply freeUnit_keeps
   | with_reducible apply onSfl_keeps

theorem buildUnit_keeps {b : Dev} {x0 : Dev} {x1 : Job} {x2 : Map Byte} {x3 : Nat} {x4 : Bool} (hx0 : Keeps b x0) : KeepsP b (Dev.buildUnit x0 x1 x2 x3 x4) := by
  unfold Dev.buildUnit
  repeat' first
   | with_reducible assumption
   | with_reducible refine fun (d : Dev) (h : Keeps b d) => ?_
   | (extract_lets +onlyGivenNames x; guard_hyp x : Dev := _; refine (fun (hx : Keeps b x) => ?_) ?_; rotate_left; unfold x; clear x; rotate_right; clear_value x)
   | (extract_lets +onlyGivenNames x; clear_value x)
   | with_reducible apply countN_keeps
   | with_reducible apply when_keeps
   | split
   | with_reducible refine keepsP_mk ?_

theorem jobBuf_keeps {b : Dev} {x0 : Dev} {x1 : Job} (hx0 : Keeps b x0) : KeepsP b (Dev.jobBuf x0 x1) := by
  unfold Dev.jobBuf
  repeat' first
   | with_reducible assumption
   | (generalize hp : Dev.bpmTransfer _ _ _ _ = p; refine (fun (hk : KeepsP b p) => ?_) (keepsP_gen hp (bpmTransfer_keeps ?_)); rotate_left; clear hp; clear p; rotate_right; clear hp; obtain ⟨y, z⟩ := p; replace hk : Keeps b z := hk; try dsimp -zeta only)
   | (generalize hp : Dev.grant _ _ _ = p; refine (fun (hk : KeepsP b p) => ?_) (keepsP_gen hp (grant_keeps ?_)); rotate_left; clear hp; clear p; rotate_right; clear hp; obtain ⟨y, z⟩ := p; replace hk : Keeps b z := hk; try dsimp -zeta only)
   | (extract_lets +onlyGivenNames x; guard_hyp x : Dev := _; refine (fun (hx : Keeps b x) => ?_) ?_; rotate_left; unfold x; clear x; rotate_right; clear_value x)
   | (extract_lets +onlyGivenNames x; clear_value x)
   | extract_lets +onlyGivenNames x
   | with_reducible apply bufFill_keeps
   | with_reducible apply onJob_keeps
   | with_reducible refine keeps_ite (fun _ => ?_) (fun _ => ?_)
   | with_reducible refine keepsP_ite (fun _ => ?_) (fun _ => ?_)
   | split
   | with_reducible refine keepsP_mk ?_

theorem jobReady_keeps {b : Dev} {x0 : Dev} {x1 : Job} {x2 : FUnit} (hx0 : Keeps b x0) : Keeps b (Dev.jobReady x0 x1 x2) := by
  unfold Dev.jobReady
  repeat' first
   | with_reducible assumption
   | (extract_lets +onlyGivenNames x; guard_hyp x : Dev := _; refine (fun (hx : Keeps b x) => ?_) ?_; rotate_left; unfold x; clear x; rotate_right; clear_value x)
   | with_reducible apply bufFill_keeps
   | with_reducible apply onJob_keeps
   | split

theorem jobGot_keeps {b : Dev} {x0 : Dev} {x1 : Nat} {x2 : FUnit} {x3 : Bool} (hx0 : Keeps b x0) : Keeps b (Dev.jobGot x0 x1 x2 x3) := by
  unfold Dev.jobGot
  repeat' first
   | with_reducible assumption
   | (generalize hp : Dev.buildUnit _ _ _ _ _ = p; refine (fun (hk : KeepsP b p) => ?_) (keepsP_gen hp (buildUnit_keeps ?_)); rotate_left; clear hp; clear p; rotate_right; clear hp; obtain ⟨y, z⟩ := p; replace hk : Keeps b z := hk; try dsimp -zeta only)
   | (generalize hp : Dev.plain _ _ _ = p; refine (fun (hk : KeepsT b p) => ?_) (keepsT_gen hp (plain_keeps ?_)); rotate_left; clear hp; clear p; rotate_right; clear hp; obtain ⟨y, w, z⟩ := p; replace hk : Keeps b z := hk; try dsimp -zeta only)
   | (extract_lets +onlyGivenNames x; clear_value x)
   | extract_lets +onlyGivenNames x
   | with_reducible apply jobReady_keeps
   | with_reducible refine keeps_ite (fun _ => ?_) (fun _ => ?_)
   | split

theorem jobLook_keeps {b : Dev} {x0 : Dev} {x1 : Job} (hx0 : Keeps b x0) : Keeps b (Dev.jobLook x0 x1) := by
  unfold Dev.jobLook
  repeat' first
   | with_reducible assumption
   | (generalize hp : Dev.buildUnit _ _ _ _ _ = p; refine (fun (hk : KeepsP b p) => ?_) (keepsP_gen hp (buildUnit_keeps ?_)); rotate_left; clear hp; clear p; rotate_right; clear hp; obtain ⟨y, z⟩ := p; replace hk : Keeps b z := hk; try dsimp -zeta only)
   | (generalize hp : Dev.mapUpdate _ _ _ _ _ = p; refine (fun (hk : KeepsP b p) => ?_) (keepsP_gen hp (mapUpdate_keeps ?_)); rotate_left; clear hp; clear p; rotate_right; clear hp; obtain ⟨y, z⟩ := p; replace hk : Keeps b z := hk; try dsimp -zeta only)
   | (extract_lets +onlyGivenNames x; clear_value x)
   | extract_lets +onlyGivenNames x
   | with_reducible apply count_keeps
   | with_reducible apply endJob_keeps
   | with_reducible apply jobReady_keeps
   | with_reducible apply onJob_keeps
   | with_reducible apply onSfl_keeps
   | with_reducible refine keeps_ite (fun _ => ?_) (fun _ => ?_)
   | split

theorem jobPlace_keeps {b : Dev} {x0 : Dev} {x1 : Job} (hx0 : Keeps b x0) : Keeps b (Dev.jobPlace x0 x1) := by
  unfold Dev.jobPlace
  repeat' first
   | with_reducible assumption
   | (generalize hp : Dev.bufTake _ _ _ _ _ _ = p; refine (fun (hk : KeepsT b p) => ?_) (keepsT_gen hp (bufTake_keeps ?_)); rotate_left; clear hp; clear p; rotate_right; clear hp; obtain ⟨y, w, z⟩ := p; replace hk : Keeps b z := hk; try dsimp -zeta only)
   | (generalize hp : Dev.nextPlace _ _ _ = p; refine (fun (hk : KeepsP b p) => ?_) (keepsP_gen hp (nextPlace_keeps ?_)); rotate_left; clear hp; clear p; rotate_right; clear hp; obtain ⟨y, z⟩ := p; replace hk : Keeps b z := hk; try dsimp -zeta only)
   | (generalize hp : Dev.placeAt _ _ _ _ _ _ = p; refine (fun (hk : KeepsT b p) => ?_) (keepsT_gen hp (placeAt_keeps ?_)); rotate_left; clear hp; clear p; rotate_right; clear hp; obtain ⟨y, w, z⟩ := p; replace hk : Keeps b z := hk; try dsimp -zeta only)
   | (extract_lets +onlyGivenNames x; clear_value x)
   | extract_lets +onlyGivenNames x
   | with_reducible apply count_keeps
   | with_reducible apply onJob_keeps
   | with_reducible apply raise_keeps
   | with_reducible refine keeps_ite (fun _ => ?_) (fun _ => ?_)
   | split

theorem lookPage_keeps {b : Dev} {x0 : Dev} {x1 : Nat} (hx0 : Keeps b x0) : Keeps b (Dev.lookPage x0 x1) := by
  unfold Dev.lookPage
  repeat' first
   | with_reducible assumption
   | (extract_lets +onlyGivenNames x; clear_value x)
   | extract_lets +onlyGivenNames x
   | with_reducible apply mapLook_keeps
   | with_reducible apply mapWriteOut_keeps
   | with_reducible refine keeps_ite (fun _ => ?_) (fun _ => ?_)
   | split

theorem remapStep_keeps {b : Dev} {x0 : Dev} (hx0 : Keeps b x0) : Keeps b (Dev.remapStep x0) := by
  unfold Dev.remapStep
  repeat' first
   | with_reducible assumption
   | with_reducible refine fun (d : Dev) (h : Keeps b d) => ?_
   | (extract_lets +onlyGivenNames x; guard_hyp x : Dev := _; refine (fun (hx : Keeps b x) => ?_) ?_; rotate_left; unfold x; clear x; rotate_right; clear_value x)
   | (extract_lets +onlyGivenNames x; clear_value x)
   | extract_lets +onlyGivenNames x
   | with_reducible apply lookPage_keeps
   | with_reducible apply mapDirty_keeps
   | with_reducible apply mapWriteOut_keeps
   | with_reducible apply when_keeps
   | with_reducible refine keeps_foldl ?_ (fun d x h => ?_)
   | with_reducible refine keeps_ite (fun _ => ?_) (fun _ => ?_)
   | split

theorem shapeCopied_keeps {b : Dev} {x0 : Dev} {x1 : Nat} (hx0 : Keeps b x0) : Keeps b (Dev.shapeCopied x0 x1) := by
  unfold Dev.shapeCopied
  repeat' first
   | with_reducible assumption
   | (extract_lets +onlyGivenNames x; clear_value x)
   | with_reducible apply sjPut_keeps
   | with_reducible refine keeps_foldl ?_ (fun d x h => ?_)

theorem jobUpdate_keeps {b : Dev} {x0 : Dev} {x1 : Job} {x2 : Nat} {x3 : Nat} (hx0 : Keeps b x0) : Keeps b (Dev.jobUpdate x0 x1 x2 x3) := by
  unfold Dev.jobUpdate
  repeat' first
   | with_reducible assumption
   | with_reducible refine fun (d : Dev) (h : Keeps b d) => ?_
   | (generalize hp : Dev.mapUpdate _ _ _ _ _ = p; refine (fun (hk : KeepsP b p) => ?_) (keepsP_gen hp (mapUpdate_keeps ?_)); rotate_left; clear hp; clear p; rotate_right; clear hp; obtain ⟨y, z⟩ := p; replace hk : Keeps b z := hk; try dsimp -zeta only)
   | (extract_lets +onlyGivenNames x; guard_hyp x : Dev := _; refine (fun (hx : Keeps b x) => ?_) ?_; rotate_left; unfold x; clear x; rotate_right; clear_value x)
   | (extract_lets +onlyGivenNames x; clear_value x)
   | extract_lets +onlyGivenNames x
   | with_reducible apply count_keeps
   | with_reducible apply freeUnit_keeps
   | with_reducible apply lookPage_keeps
   | with_reducible apply onJob_keeps
   | with_reducible apply sflCount_keeps
   | with_reducible apply shapeCopied_keeps
   | with_reducible apply when_keeps
   | with_reducible refine keeps_ite (fun _ => ?_) (fun _ => ?_)
   | split

theorem jobEnds_keeps {b : Dev} {x0 : Dev} {x1 : Nat} (hx0 : Keeps b x0) : Keeps b (Dev.jobEnds x0 x1) := by
  unfold Dev.jobEnds
  repeat' first
   | with_reducible assumption
   | (extract_lets +onlyGivenNames x; guard_hyp x : Dev := _; refine (fun (hx : Keeps b x) => ?_) ?_; rotate_left; unfold x; clear x; rotate_right; clear_value x)
   | (extract_lets +onlyGivenNames x; guard_hyp x : _ → _ := _; refine (fun (hl0 : ∀ (d0 : Dev) (f1 : Dev → _ → Dev), Keeps b d0 → (∀ d y, Keeps b d → Keeps b (f1 d y)) → Keeps b (x d0 f1)) => ?_) ?_; rotate_left; unfold x; clear x; intro d0 f1 hd0 hf1; beta_reduce; rotate_right; clear_value x)
   | extract_lets +onlyGivenNames x
   | with_reducible apply endJob_keeps
   | with_reducible apply jobUpdate_keeps
   | with_reducible refine hl0 _ _ ?_ (fun d y h => ?_)
   | with_reducible refine hf1 _ _ ?_
   | with_reducible refine keeps_ite (fun _ => ?_) (fun _ => ?_)
   | split

theorem advance_keeps {b : Dev} {x0 : Dev} {x1 : Nat} (hx0 : Keeps b x0) : Keeps b (Dev.advance x0 x1) := by
  unfold Dev.advance
  repeat' first
   | with_reducible assumption
   | (generalize hp : Dev.jobBuf _ _ = p; refine (fun (hk : KeepsP b p) => ?_) (keepsP_gen hp (jobBuf_keeps ?_)); rotate_left; clear hp; clear p; rotate_right; clear hp; obtain ⟨y, z⟩ := p; replace hk : Keeps b z := hk; try dsimp -zeta only)
   | (extract_lets +onlyGivenNames x; guard_hyp x : Dev := _; refine (fun (hx : Keeps b x) => ?_) ?_; rotate_left; unfold x; clear x; rotate_right; clear_value x)
   | (extract_lets +onlyGivenNames x; guard_hyp x : _ → _ := _; refine (fun (hl0 : ∀ (d0 : Dev) (f1 : Dev → _ → Dev), Keeps b d0 → (∀ d y, Keeps b d → Keeps b (f1 d y)) → Keeps b (x d0 f1)) => ?_) ?_; rotate_left; unfold x; clear x; intro d0 f1 hd0 hf1; beta_reduce; rotate_right; clear_value x)
   | extract_lets +onlyGivenNames x
   | with_reducible apply jobEnds_keeps
   | with_reducible apply jobLook_keeps
   | with_reducible apply jobPlace_keeps
   | with_reducible apply lookPage_keeps
   | with_reducible apply onJob_keeps
   | with_reducible refine hl0 _ _ ?_ (fun d y h => ?_)
   | with_reducible refine hf1 _ _ ?_
   | with_reducible refine keeps_ite (fun _ => ?_) (fun _ => ?_)
   | split
   | with_reducible refine keepsP_mk ?_
   | with_reducible refine keeps_pair ?_ ‹_ = (_, _)›

theorem outsSafe_keeps {b : Dev} {x0 : Dev} (hx0 : Keeps b x0) : Keeps b (Dev.outsSafe x0) := by
  unfold Dev.outsSafe
  repeat' first
   | with_reducible assumption
   | (extract_lets +onlyGivenNames x; clear_value x)
   | with_reducible apply onSfl_keeps

theorem pump_keeps {b : Dev} {x0 : Dev} (hx0 : Keeps b x0) : Keeps b (Dev.pump x0) := by
  unfold Dev.pump
  repeat' first
   | with_reducible assumption
   | (generalize hp : Dev.served _ _ = p; refine (fun (hk : KeepsP b p) => ?_) (keepsP_gen hp (served_keeps ?_)); rotate_left; clear hp; clear p; rotate_right; clear hp; obtain ⟨y, z⟩ := p; replace hk : Keeps b z := hk; try dsimp -zeta only)
   | extract_lets +onlyGivenNames x
   | with_reducible apply advance_keeps
   | with_reducible apply dropDead_keeps
   | with_reducible apply jobEnds_keeps
   | with_reducible apply outsSafe_keeps
   | with_reducible apply pairPages_keeps
   | with_reducible apply remapStep_keeps
   | with_reducible refine keeps_foldl ?_ (fun d x h => ?_)
   | with_reducible refine keeps_ite (fun _ => ?_) (fun _ => ?_)

theorem promoteJob_keeps {b : Dev} {x0 : Dev} (hx0 : Keeps b x0) : Keeps b (Dev.promoteJob x0) := by
  unfold Dev.promoteJob
  repeat' first
   | with_reducible assumption
   | extract_lets +onlyGivenNames x
   | with_reducible apply advance_keeps
   | with_reducible apply promoted_keeps
   | with_reducible refine keeps_ite (fun _ => ?_) (fun _ => ?_)
   | split

theorem retireBlock_keeps {b : Dev} {x0 : Dev} {x1 : Nat} {x2 : Nat} (hx0 : Keeps b x0) : Keeps b (Dev.retireBlock x0 x1 x2) := by
  unfold Dev.retireBlock
  repeat' first
   | with_reducible assumption
   | with_reducible exact fun _ => Nat.le_refl _
   | (generalize hp : Dev.journal _ _ _ _ _ _ = p; refine (fun (hk : KeepsP b p) => ?_) (keepsP_gen hp (journal_keeps ?_)); rotate_left; clear hp; clear p; rotate_right; clear hp; obtain ⟨y, z⟩ := p; replace hk : Keeps b z := hk; try dsimp -zeta only)
   | (extract_lets +onlyGivenNames x; guard_hyp x : Dev := _; refine (fun (hx : Keeps b x) => ?_) ?_; rotate_left; unfold x; clear x; rotate_right; clear_value x)
   | (extract_lets +onlyGivenNames x; clear_value x)
   | extract_lets +onlyGivenNames x
   | with_reducible apply count_keeps
   | with_reducible apply mramPut_keeps
   | with_reducible apply raise_keeps
   | with_reducible apply sflCount_keeps
   | with_reducible refine keeps_ite (fun _ => ?_) (fun _ => ?_)

theorem progFailed_keeps {b : Dev} {x0 : Dev} {x1 : Prog} (hx0 : Keeps b x0) : Keeps b (Dev.progFailed x0 x1) := by
  unfold Dev.progFailed
  repeat' first
   | with_reducible assumption
   | (extract_lets +onlyGivenNames x; guard_hyp x : Dev := _; refine (fun (hx : Keeps b x) => ?_) ?_; rotate_left; unfold x; clear x; rotate_right; clear_value x)
   | (extract_lets +onlyGivenNames x; clear_value x)
   | extract_lets +onlyGivenNames x
   | with_reducible apply ckptStart_keeps
   | with_reducible apply closeRow_keeps
   | with_reducible apply count_keeps
   | with_reducible apply endStripe_keeps
   | with_reducible apply lostSlot_keeps
   | with_reducible apply onMslot_keeps
   | with_reducible apply onSfl_keeps
   | with_reducible apply onStripe_keeps
   | with_reducible apply padStripe_keeps
   | with_reducible apply raise_keeps
   | with_reducible apply retireBlock_keeps
   | with_reducible apply rewrite_keeps
   | with_reducible apply startParity_keeps
   | with_reducible apply stripeAdd_keeps
   | with_reducible refine keeps_foldl ?_ (fun d x h => ?_)
   | split

theorem progPassed_keeps {b : Dev} {x0 : Dev} {x1 : Prog} (hx0 : Keeps b x0) : Keeps b (Dev.progPassed x0 x1) := by
  unfold Dev.progPassed
  repeat' first
   | with_reducible assumption
   | (extract_lets +onlyGivenNames x; guard_hyp x : Dev := _; refine (fun (hx : Keeps b x) => ?_) ?_; rotate_left; unfold x; clear x; rotate_right; clear_value x)
   | (extract_lets +onlyGivenNames x; clear_value x)
   | extract_lets +onlyGivenNames x
   | with_reducible apply endStripe_keeps
   | with_reducible apply mapWritten_keeps
   | with_reducible apply onJob_keeps
   | with_reducible apply onSfl_keeps
   | with_reducible apply onStripe_keeps
   | with_reducible apply startParity_keeps
   | split

theorem progDone_keeps {b : Dev} {x0 : Dev} {x1 : Nat} {x2 : Bool} (hx0 : Keeps b x0) : Keeps b (Dev.progDone x0 x1 x2) := by
  unfold Dev.progDone
  repeat' first
   | with_reducible assumption
   | (extract_lets +onlyGivenNames x; guard_hyp x : Dev := _; refine (fun (hx : Keeps b x) => ?_) ?_; rotate_left; unfold x; clear x; rotate_right; clear_value x)
   | (extract_lets +onlyGivenNames x; guard_hyp x : _ → _ := _; refine (fun (hf : ∀ d, Keeps b d → Keeps b (x d)) => ?_) ?_; rotate_left; unfold x; clear x; intro d h; beta_reduce; rotate_right; clear_value x)
   | (extract_lets +onlyGivenNames x; clear_value x)
   | extract_lets +onlyGivenNames x
   | with_reducible apply count_keeps
   | with_reducible apply onSfl_keeps
   | with_reducible apply progFailed_keeps
   | with_reducible apply progPassed_keeps
   | with_reducible apply sflCount_keeps
   | with_reducible apply takeInjected_keeps
   | with_reducible refine hf _ ?_
   | with_reducible refine keeps_ite (fun _ => ?_) (fun _ => ?_)
   | split

theorem queueRefresh_keeps {b : Dev} {x0 : Dev} {x1 : Nat} (hx0 : Keeps b x0) : Keeps b (Dev.queueRefresh x0 x1) := by
  unfold Dev.queueRefresh
  repeat' first
   | with_reducible assumption
   | extract_lets +onlyGivenNames x
   | with_reducible apply onSfl_keeps
   | with_reducible refine keeps_ite (fun _ => ?_) (fun _ => ?_)

theorem readUnit_keeps {b : Dev} {x0 : Dev} {x1 : Nat} {x2 : Nat} {x3 : List Nat} (hx0 : Keeps b x0) : KeepsT b (Dev.readUnit x0 x1 x2 x3) := by
  unfold Dev.readUnit
  repeat' first
   | with_reducible assumption
   | (extract_lets +onlyGivenNames x; guard_hyp x : Dev := _; refine (fun (hx : Keeps b x) => ?_) ?_; rotate_left; unfold x; clear x; rotate_right; clear_value x)
   | (extract_lets +onlyGivenNames x; guard_hyp x : _ → _ := _; refine (fun (hl0 : ∀ (d0 : Dev) (f1 : Dev → _ → Dev), Keeps b d0 → (∀ d y, Keeps b d → Keeps b (f1 d y)) → Keeps b (x d0 f1)) => ?_) ?_; rotate_left; unfold x; clear x; intro d0 f1 hd0 hf1; beta_reduce; rotate_right; clear_value x)
   | (extract_lets +onlyGivenNames x; clear_value x)
   | extract_lets +onlyGivenNames x
   | with_reducible apply count_keeps
   | with_reducible apply onRow_keeps
   | with_reducible apply queueRefresh_keeps
   | with_reducible apply raise_keeps
   | with_reducible apply sflCount_keeps
   | with_reducible apply takeInjected_keeps
   | with_reducible refine hl0 _ _ ?_ (fun d y h => ?_)
   | with_reducible refine hf1 _ _ ?_
   | with_reducible refine keeps_ite (fun _ => ?_) (fun _ => ?_)
   | split
   | with_reducible refine keepsT_mk ?_

theorem rewriteLost_keeps {b : Dev} {x0 : Dev} {x1 : Nat} {x2 : FUnit} (hx0 : Keeps b x0) : Keeps b (Dev.rewriteLost x0 x1 x2) := by
  unfold Dev.rewriteLost
  repeat' first
   | with_reducible assumption
   | (generalize hp : Dev.addJob _ _ = p; refine (fun (hk : KeepsP b p) => ?_) (keepsP_gen hp (addJob_keeps ?_)); rotate_left; clear hp; clear p; rotate_right; clear hp; obtain ⟨y, z⟩ := p; replace hk : Keeps b z := hk; try dsimp -zeta only)
   | (extract_lets +onlyGivenNames x; clear_value x)
   | with_reducible refine keeps_foldl ?_ (fun d x h => ?_)

theorem mapLost_keeps {b : Dev} {x0 : Dev} {x1 : Nat} (hx0 : Keeps b x0) : Keeps b (Dev.mapLost x0 x1) := by
  unfold Dev.mapLost
  repeat' first
   | with_reducible assumption
   | (extract_lets +onlyGivenNames x; guard_hyp x : Dev := _; refine (fun (hx : Keeps b x) => ?_) ?_; rotate_left; unfold x; clear x; rotate_right; clear_value x)
   | extract_lets +onlyGivenNames x
   | with_reducible apply mapSet_keeps
   | with_reducible apply raise_keeps
   | with_reducible apply takeInjected_keeps
   | with_reducible refine keeps_foldl ?_ (fun d x h => ?_)

theorem readDone_keeps {b : Dev} {x0 : Dev} {x1 : Nat} {x2 : Nat} {x3 : List Nat} (hx0 : Keeps b x0) : Keeps b (Dev.readDone x0 x1 x2 x3) := by
  unfold Dev.readDone
  repeat' first
   | with_reducible assumption
   | with_reducible refine fun (d : Dev) (h : Keeps b d) => ?_
   | (generalize hp : Dev.readUnit _ _ _ _ = p; refine (fun (hk : KeepsT b p) => ?_) (keepsT_gen hp (readUnit_keeps ?_)); rotate_left; clear hp; clear p; rotate_right; clear hp; obtain ⟨y, w, z⟩ := p; replace hk : Keeps b z := hk; try dsimp -zeta only)
   | (extract_lets +onlyGivenNames x; guard_hyp x : Dev := _; refine (fun (hx : Keeps b x) => ?_) ?_; rotate_left; unfold x; clear x; rotate_right; clear_value x)
   | (extract_lets +onlyGivenNames x; clear_value x)
   | with_reducible apply jobGot_keeps
   | with_reducible apply onMslot_keeps
   | with_reducible apply onSfl_keeps
   | with_reducible apply rewriteLost_keeps
   | with_reducible apply when_keeps
   | split

theorem mapLoaded_keeps {b : Dev} {x0 : Dev} {x1 : Nat} (hx0 : Keeps b x0) : Keeps b (Dev.mapLoaded x0 x1) := by
  unfold Dev.mapLoaded
  repeat' first
   | with_reducible assumption
   | (extract_lets +onlyGivenNames x; guard_hyp x : Dev := _; refine (fun (hx : Keeps b x) => ?_) ?_; rotate_left; unfold x; clear x; rotate_right; clear_value x)
   | extract_lets +onlyGivenNames x
   | with_reducible apply mapLost_keeps
   | with_reducible apply onMslot_keeps
   | with_reducible apply pageFound_keeps
   | with_reducible apply sflCount_keeps
   | with_reducible apply slotFill_keeps
   | with_reducible refine keeps_ite (fun _ => ?_) (fun _ => ?_)
   | split

end Sys2Proof.Machine
end

