-- ==== Sys2Proof/Laws/Keeps/Disc.lean ====
section
/-! SUPPORT. What every operation of Machine/Disc.lean keeps. -/
namespace Sys2Proof.Machine
open Sys2Proof

set_option linter.unusedTactic false
set_option linter.unreachableTactic false
set_option linter.tactic.unusedName false

theorem onCmd_keeps {b : Dev} {x0 : Dev} {x1 : Nat} {x2 : Cmd → Cmd} (hx0 : Keeps b x0) : Keeps b (Dev.onCmd x0 x1 x2) := by
  unfold Dev.onCmd
  repeat' first
   | with_reducible assumption
   | with_reducible apply onHat_keeps

theorem cmdEnds_keeps {b : Dev} {x0 : Dev} {x1 : Nat} {x2 : Nat} {x3 : Nat} {x4 : Nat} {x5 : Nat} (hx0 : Keeps b x0) : Keeps b (Dev.cmdEnds x0 x1 x2 x3 x4 x5) := by
  unfold Dev.cmdEnds
  repeat' first
   | with_reducible assumption
   | with_reducible apply onCmd_keeps

theorem onDrive_keeps {b : Dev} {x0 : Dev} {x1 : Nat} {x2 : Drive → Drive} (hx0 : Keeps b x0) : Keeps b (Dev.onDrive x0 x1 x2) := by
  unfold Dev.onDrive
  repeat' first
   | with_reducible assumption
   | with_reducible apply onOdr_keeps

theorem onDisc_keeps {b : Dev} {x0 : Dev} {x1 : Nat} {x2 : DiscSt → DiscSt} (hx0 : Keeps b x0) : Keeps b (Dev.onDisc x0 x1 x2) := by
  unfold Dev.onDisc
  repeat' first
   | with_reducible assumption
   | with_reducible apply onDrive_keeps

theorem onRecorder_keeps {b : Dev} {x0 : Dev} {x1 : Nat} {x2 : Recorder → Recorder} (hx0 : Keeps b x0) : Keeps b (Dev.onRecorder x0 x1 x2) := by
  unfold Dev.onRecorder
  repeat' first
   | with_reducible assumption
   | with_reducible apply onDrive_keeps

theorem hold_keeps {b : Dev} {x0 : Dev} {x1 : Nat} (hx0 : Keeps b x0) : Keeps b (Dev.hold x0 x1) := by
  unfold Dev.hold
  repeat' first
   | with_reducible assumption
   | extract_lets +onlyGivenNames x
   | with_reducible apply count_keeps
   | with_reducible apply send_keeps

theorem holdAll_keeps {b : Dev} {x0 : Dev} (hx0 : Keeps b x0) : Keeps b (Dev.holdAll x0) := by
  unfold Dev.holdAll
  repeat' first
   | with_reducible assumption
   | extract_lets +onlyGivenNames x
   | with_reducible apply hold_keeps
   | with_reducible refine keeps_foldl ?_ (fun d x h => ?_)

theorem setCat_keeps {b : Dev} {x0 : Dev} {x1 : Nat} {x2 : CatEnt} (hx0 : Keeps b x0) : Keeps b (Dev.setCat x0 x1 x2) := by
  unfold Dev.setCat
  repeat' first
   | with_reducible assumption
   | (generalize hp : Dev.addJob _ _ = p; refine (fun (hk : KeepsP b p) => ?_) (keepsP_gen hp (addJob_keeps ?_)); rotate_left; clear hp; clear p; rotate_right; clear hp; obtain ⟨y, z⟩ := p; replace hk : Keeps b z := hk; try dsimp -zeta only)
   | (extract_lets +onlyGivenNames x; guard_hyp x : Dev := _; refine (fun (hx : Keeps b x) => ?_) ?_; rotate_left; unfold x; clear x; rotate_right; clear_value x)
   | with_reducible apply onOdr_keeps
   | with_reducible apply wr_keeps
   | with_reducible refine keeps_ite (fun _ => ?_) (fun _ => ?_)

theorem onCat_keeps {b : Dev} {x0 : Dev} {x1 : Nat} {x2 : CatEnt → CatEnt} (hx0 : Keeps b x0) : Keeps b (Dev.onCat x0 x1 x2) := by
  unfold Dev.onCat
  repeat' first
   | with_reducible assumption
   | with_reducible apply setCat_keeps

theorem catLoad_keeps {b : Dev} {x0 : Dev} (hx0 : Keeps b x0) : Keeps b (Dev.catLoad x0) := by
  unfold Dev.catLoad
  repeat' first
   | with_reducible assumption
   | (generalize hp : Dev.readUnit _ _ _ _ = p; refine (fun (hk : KeepsT b p) => ?_) (keepsT_gen hp (readUnit_keeps ?_)); rotate_left; clear hp; clear p; rotate_right; clear hp; obtain ⟨y, w, z⟩ := p; replace hk : Keeps b z := hk; try dsimp -zeta only)
   | (extract_lets +onlyGivenNames x; guard_hyp x : Dev := _; refine (fun (hx : Keeps b x) => ?_) ?_; rotate_left; unfold x; clear x; rotate_right; clear_value x)
   | (extract_lets +onlyGivenNames x; guard_hyp x : _ → _ := _; refine (fun (hl0 : ∀ (d0 : Dev), Keeps b d0 → Keeps b (x d0)) => ?_) ?_; rotate_left; unfold x; clear x; intro d0 hd0; beta_reduce; rotate_right; clear_value x)
   | (extract_lets +onlyGivenNames x; clear_value x)
   | extract_lets +onlyGivenNames x
   | with_reducible apply onOdr_keeps
   | with_reducible apply raise_keeps
   | with_reducible apply rewriteLost_keeps
   | with_reducible apply takeInjected_keeps
   | with_reducible apply wr_keeps
   | with_reducible refine hl0 _ ?_
   | with_reducible refine keeps_foldl ?_ (fun d x h => ?_)
   | with_reducible refine keeps_ite (fun _ => ?_) (fun _ => ?_)
   | split

theorem newShellId_keeps {b : Dev} {x0 : Dev} (hx0 : Keeps b x0) : KeepsP b (Dev.newShellId x0) := by
  unfold Dev.newShellId
  repeat' first
   | with_reducible assumption
   | (generalize hp : Dev.takeSeq _ = p; refine (fun (hk : KeepsP b p) => ?_) (keepsP_gen hp (takeSeq_keeps ?_)); rotate_left; clear hp; clear p; rotate_right; clear hp; obtain ⟨y, z⟩ := p; replace hk : Keeps b z := hk; try dsimp -zeta only)
   | with_reducible refine keepsP_mk ?_

theorem closeDisc_keeps {b : Dev} {x0 : Dev} {x1 : Nat} (hx0 : Keeps b x0) : Keeps b (Dev.closeDisc x0 x1) := by
  unfold Dev.closeDisc
  repeat' first
   | with_reducible assumption
   | (extract_lets +onlyGivenNames x; guard_hyp x : Dev := _; refine (fun (hx : Keeps b x) => ?_) ?_; rotate_left; unfold x; clear x; rotate_right; clear_value x)
   | with_reducible apply onCat_keeps
   | with_reducible apply onDisc_keeps

theorem showDisc_keeps {b : Dev} {x0 : Dev} {x1 : Nat} (hx0 : Keeps b x0) : Keeps b (Dev.showDisc x0 x1) := by
  unfold Dev.showDisc
  repeat' first
   | with_reducible assumption
   | (extract_lets +onlyGivenNames x; guard_hyp x : Dev := _; refine (fun (hx : Keeps b x) => ?_) ?_; rotate_left; unfold x; clear x; rotate_right; clear_value x)
   | (extract_lets +onlyGivenNames x; clear_value x)
   | extract_lets +onlyGivenNames x
   | with_reducible apply onOdr_keeps
   | with_reducible apply raise_keeps
   | with_reducible apply wr_keeps
   | with_reducible apply wrB_keeps
   | with_reducible refine keeps_ite (fun _ => ?_) (fun _ => ?_)
   | split

theorem ddlRecord_keeps {b : Dev} {x0 : Dev} {x1 : Nat} (hx0 : Keeps b x0) : Keeps b (Dev.ddlRecord x0 x1) := by
  unfold Dev.ddlRecord
  repeat' first
   | with_reducible assumption
   | with_reducible exact fun _ => Nat.le_refl _
   | (extract_lets +onlyGivenNames x; guard_hyp x : Dev := _; refine (fun (hx : Keeps b x) => ?_) ?_; rotate_left; unfold x; clear x; rotate_right; clear_value x)
   | (extract_lets +onlyGivenNames x; clear_value x)
   | extract_lets +onlyGivenNames x
   | with_reducible apply closeDisc_keeps
   | with_reducible apply count_keeps
   | with_reducible apply mramPut_keeps
   | with_reducible apply onDisc_keeps
   | with_reducible apply raise_keeps
   | with_reducible apply send_keeps
   | with_reducible apply showDisc_keeps
   | with_reducible refine keeps_ite (fun _ => ?_) (fun _ => ?_)
   | split

theorem ddlAdd_keeps {b : Dev} {x0 : Dev} {x1 : Nat} {x2 : DdlEnt} (hx0 : Keeps b x0) : Keeps b (Dev.ddlAdd x0 x1 x2) := by
  unfold Dev.ddlAdd
  repeat' first
   | with_reducible assumption
   | with_reducible exact fun _ => Nat.le_refl _
   | (extract_lets +onlyGivenNames x; guard_hyp x : Dev := _; refine (fun (hx : Keeps b x) => ?_) ?_; rotate_left; unfold x; clear x; rotate_right; clear_value x)
   | (extract_lets +onlyGivenNames x; clear_value x)
   | extract_lets +onlyGivenNames x
   | with_reducible apply count_keeps
   | with_reducible apply ddlRecord_keeps
   | with_reducible apply mramPut_keeps
   | with_reducible apply onDisc_keeps
   | with_reducible apply raise_keeps
   | with_reducible apply showDisc_keeps
   | with_reducible refine keeps_ite (fun _ => ?_) (fun _ => ?_)

theorem setNwb_keeps {b : Dev} {x0 : Dev} {x1 : Nat} {x2 : Nat} (hx0 : Keeps b x0) : Keeps b (Dev.setNwb x0 x1 x2) := by
  unfold Dev.setNwb
  repeat' first
   | with_reducible assumption
   | with_reducible exact fun _ => Nat.le_refl _
   | (extract_lets +onlyGivenNames x; guard_hyp x : Dev := _; refine (fun (hx : Keeps b x) => ?_) ?_; rotate_left; unfold x; clear x; rotate_right; clear_value x)
   | (extract_lets +onlyGivenNames x; clear_value x)
   | extract_lets +onlyGivenNames x
   | with_reducible apply closeDisc_keeps
   | with_reducible apply mramPut_keeps
   | with_reducible apply wr_keeps
   | with_reducible refine keeps_ite (fun _ => ?_) (fun _ => ?_)

theorem saveNwb_keeps {b : Dev} {x0 : Dev} {x1 : Nat} (hx0 : Keeps b x0) : Keeps b (Dev.saveNwb x0 x1) := by
  unfold Dev.saveNwb
  repeat' first
   | with_reducible assumption
   | (extract_lets +onlyGivenNames x; clear_value x)
   | with_reducible apply onCat_keeps

theorem dropRecs_keeps {b : Dev} {x0 : Dev} {x1 : Nat} {x2 : Nat} (hx0 : Keeps b x0) : Keeps b (Dev.dropRecs x0 x1 x2) := by
  unfold Dev.dropRecs
  repeat' first
   | with_reducible assumption
   | (extract_lets +onlyGivenNames x; guard_hyp x : Dev := _; refine (fun (hx : Keeps b x) => ?_) ?_; rotate_left; unfold x; clear x; rotate_right; clear_value x)
   | (extract_lets +onlyGivenNames x; clear_value x)
   | extract_lets +onlyGivenNames x
   | with_reducible apply onCmd_keeps
   | with_reducible apply onOdr_keeps
   | with_reducible apply sjPut_keeps
   | with_reducible refine keeps_foldl ?_ (fun d x h => ?_)
   | with_reducible refine keeps_ite (fun _ => ?_) (fun _ => ?_)
   | split

theorem spareExhausted_keeps {b : Dev} {x0 : Dev} {x1 : Nat} (hx0 : Keeps b x0) : Keeps b (Dev.spareExhausted x0 x1) := by
  unfold Dev.spareExhausted
  repeat' first
   | with_reducible assumption
   | extract_lets +onlyGivenNames x
   | with_reducible apply closeDisc_keeps
   | with_reducible apply dropRecs_keeps
   | with_reducible apply raise_keeps

theorem setRdonly_keeps {b : Dev} {x0 : Dev} {x1 : Nat} {x2 : Nat} (hx0 : Keeps b x0) : Keeps b (Dev.setRdonly x0 x1 x2) := by
  unfold Dev.setRdonly
  repeat' first
   | with_reducible assumption
   | extract_lets +onlyGivenNames x
   | with_reducible apply onDisc_keeps
   | with_reducible apply wrB_keeps

theorem wantFails_keeps {b : Dev} {x0 : Dev} {x1 : Nat} {x2 : BrowFor} {x3 : Nat} {x4 : Nat} {x5 : Nat} (hx0 : Keeps b x0) : Keeps b (Dev.wantFails x0 x1 x2 x3 x4 x5) := by
  unfold Dev.wantFails
  repeat' first
   | with_reducible assumption
   | (extract_lets +onlyGivenNames x; clear_value x)
   | with_reducible apply cmdEnds_keeps
   | with_reducible apply jobGot_keeps
   | with_reducible apply onCmd_keeps
   | with_reducible apply onOdr_keeps
   | with_reducible apply onSfl_keeps
   | split

theorem dropWants_keeps {b : Dev} {x0 : Dev} {x1 : Nat} {x2 : Nat} {x3 : Nat} (hx0 : Keeps b x0) : Keeps b (Dev.dropWants x0 x1 x2 x3) := by
  unfold Dev.dropWants
  repeat' first
   | with_reducible assumption
   | (extract_lets +onlyGivenNames x; guard_hyp x : Dev := _; refine (fun (hx : Keeps b x) => ?_) ?_; rotate_left; unfold x; clear x; rotate_right; clear_value x)
   | (extract_lets +onlyGivenNames x; clear_value x)
   | extract_lets +onlyGivenNames x
   | with_reducible apply onDrive_keeps
   | with_reducible apply onOdr_keeps
   | with_reducible apply wantFails_keeps
   | with_reducible refine keeps_foldl ?_ (fun d x h => ?_)
   | split

theorem unloadStart_keeps {b : Dev} {x0 : Dev} {x1 : Nat} (hx0 : Keeps b x0) : Keeps b (Dev.unloadStart x0 x1) := by
  unfold Dev.unloadStart
  repeat' first
   | with_reducible assumption
   | extract_lets +onlyGivenNames x
   | with_reducible apply wr_keeps
   | with_reducible refine keeps_ite (fun _ => ?_) (fun _ => ?_)

theorem loads_keeps {b : Dev} {x0 : Dev} (hx0 : Keeps b x0) : Keeps b (Dev.loads x0) := by
  unfold Dev.loads
  repeat' first
   | with_reducible assumption
   | (extract_lets +onlyGivenNames x; guard_hyp x : Dev := _; refine (fun (hx : Keeps b x) => ?_) ?_; rotate_left; unfold x; clear x; rotate_right; clear_value x)
   | (extract_lets +onlyGivenNames x; clear_value x)
   | extract_lets +onlyGivenNames x
   | with_reducible apply dropWants_keeps
   | with_reducible apply onOdr_keeps
   | with_reducible apply unloadStart_keeps
   | with_reducible apply wr_keeps
   | with_reducible refine keeps_foldl ?_ (fun d x h => ?_)
   | with_reducible refine keeps_ite (fun _ => ?_) (fun _ => ?_)
   | split

end Sys2Proof.Machine
end

