-- ==== Sys2Proof/Laws/Keeps/SrvBase.lean ====
section
/-! SUPPORT. What every operation of Machine/SrvBase.lean keeps. -/
namespace Sys2Proof.Machine
open Sys2Proof

set_option linter.unusedTactic false
set_option linter.unreachableTactic false
set_option linter.tactic.unusedName false

theorem onEng_keeps {b : Dev} {x0 : Dev} {x1 : Nat} {x2 : Eng → Eng} (hx0 : Keeps b x0) : Keeps b (Dev.onEng x0 x1 x2) := by
  unfold Dev.onEng
  repeat' first
   | with_reducible assumption
   | (extract_lets +onlyGivenNames x; guard_hyp x : Dev := _; refine (fun (hx : Keeps b x) => ?_) ?_; rotate_left; unfold x; clear x; rotate_right; clear_value x)
   | (extract_lets +onlyGivenNames x; clear_value x)
   | extract_lets +onlyGivenNames x
   | with_reducible apply onSrv_keeps
   | with_reducible apply wr_keeps

theorem onSrvDrive_keeps {b : Dev} {x0 : Dev} {x1 : Nat} {x2 : SrvDrive → SrvDrive} (hx0 : Keeps b x0) : Keeps b (Dev.onSrvDrive x0 x1 x2) := by
  unfold Dev.onSrvDrive
  repeat' first
   | with_reducible assumption
   | with_reducible apply onSrv_keeps

theorem showServo_keeps {b : Dev} {x0 : Dev} {x1 : Nat} (hx0 : Keeps b x0) : Keeps b (Dev.showServo x0 x1) := by
  unfold Dev.showServo
  repeat' first
   | with_reducible assumption
   | (extract_lets +onlyGivenNames x; guard_hyp x : Dev := _; refine (fun (hx : Keeps b x) => ?_) ?_; rotate_left; unfold x; clear x; rotate_right; clear_value x)
   | (extract_lets +onlyGivenNames x; clear_value x)
   | extract_lets +onlyGivenNames x
   | with_reducible apply wr_keeps
   | with_reducible refine keeps_foldl ?_ (fun d x h => ?_)
   | split

theorem onImgs_keeps {b : Dev} {x0 : Dev} {x1 : Nat} {x2 : Image → Image} (hx0 : Keeps b x0) : Keeps b (Dev.onImgs x0 x1 x2) := by
  unfold Dev.onImgs
  repeat' first
   | with_reducible assumption
   | (extract_lets +onlyGivenNames x; guard_hyp x : Dev := _; refine (fun (hx : Keeps b x) => ?_) ?_; rotate_left; unfold x; clear x; rotate_right; clear_value x)
   | (extract_lets +onlyGivenNames x; clear_value x)
   | extract_lets +onlyGivenNames x
   | with_reducible apply onEng_keeps
   | with_reducible apply onSrvDrive_keeps
   | with_reducible apply showServo_keeps
   | with_reducible refine keeps_foldl ?_ (fun d x h => ?_)
   | with_reducible refine keeps_ite (fun _ => ?_) (fun _ => ?_)

theorem onSeq_keeps {b : Dev} {x0 : Dev} {x1 : Nat} {x2 : SeqSt → SeqSt} (hx0 : Keeps b x0) : Keeps b (Dev.onSeq x0 x1 x2) := by
  unfold Dev.onSeq
  repeat' first
   | with_reducible assumption
   | with_reducible apply onImgs_keeps

theorem csSet_keeps {b : Dev} {x0 : Dev} {x1 : Nat} {x2 : Nat} {x3 : Word} (hx0 : Keeps b x0) : Keeps b (Dev.csSet x0 x1 x2 x3) := by
  unfold Dev.csSet
  repeat' first
   | with_reducible assumption
   | with_reducible apply onSrv_keeps

theorem loopOff_keeps {b : Dev} {x0 : Dev} {x1 : Nat} {x2 : Nat} (hx0 : Keeps b x0) : Keeps b (Dev.loopOff x0 x1 x2) := by
  unfold Dev.loopOff
  repeat' first
   | with_reducible assumption
   | with_reducible apply onImgs_keeps

theorem loopOpen_keeps {b : Dev} {x0 : Dev} {x1 : Nat} {x2 : Nat} {x3 : Int} (hx0 : Keeps b x0) : Keeps b (Dev.loopOpen x0 x1 x2 x3) := by
  unfold Dev.loopOpen
  repeat' first
   | with_reducible assumption
   | extract_lets +onlyGivenNames x
   | with_reducible apply onImgs_keeps
   | with_reducible refine keeps_ite (fun _ => ?_) (fun _ => ?_)

theorem loopHold_keeps {b : Dev} {x0 : Dev} {x1 : Nat} {x2 : Nat} (hx0 : Keeps b x0) : Keeps b (Dev.loopHold x0 x1 x2) := by
  unfold Dev.loopHold
  repeat' first
   | with_reducible assumption
   | extract_lets +onlyGivenNames x
   | with_reducible apply onImgs_keeps
   | with_reducible refine keeps_ite (fun _ => ?_) (fun _ => ?_)

theorem loopHoldAt_keeps {b : Dev} {x0 : Dev} {x1 : Nat} {x2 : Nat} {x3 : Int} (hx0 : Keeps b x0) : Keeps b (Dev.loopHoldAt x0 x1 x2 x3) := by
  unfold Dev.loopHoldAt
  repeat' first
   | with_reducible assumption
   | extract_lets +onlyGivenNames x
   | with_reducible apply onImgs_keeps
   | with_reducible refine keeps_ite (fun _ => ?_) (fun _ => ?_)

theorem loopClose_keeps {b : Dev} {x0 : Dev} {x1 : Nat} {x2 : Nat} {x3 : optParam Bool Bool.false} (hx0 : Keeps b x0) : Keeps b (Dev.loopClose x0 x1 x2 x3) := by
  unfold Dev.loopClose
  repeat' first
   | with_reducible assumption
   | extract_lets +onlyGivenNames x
   | with_reducible apply onImgs_keeps
   | with_reducible apply raise_keeps
   | with_reducible apply takeInjected_keeps
   | with_reducible refine keeps_ite (fun _ => ?_) (fun _ => ?_)

theorem finesHold_keeps {b : Dev} {x0 : Dev} {x1 : Nat} (hx0 : Keeps b x0) : Keeps b (Dev.finesHold x0 x1) := by
  unfold Dev.finesHold
  repeat' first
   | with_reducible assumption
   | extract_lets +onlyGivenNames x
   | with_reducible apply loopHoldAt_keeps
   | with_reducible refine keeps_foldl ?_ (fun d x h => ?_)

theorem finesClose_keeps {b : Dev} {x0 : Dev} {x1 : Nat} (hx0 : Keeps b x0) : Keeps b (Dev.finesClose x0 x1) := by
  unfold Dev.finesClose
  repeat' first
   | with_reducible assumption
   | extract_lets +onlyGivenNames x
   | with_reducible apply loopClose_keeps
   | with_reducible refine keeps_foldl ?_ (fun d x h => ?_)

theorem srvTarget_keeps {b : Dev} {x0 : Dev} {x1 : Nat} {x2 : Place} (hx0 : Keeps b x0) : Keeps b (Dev.srvTarget x0 x1 x2) := by
  unfold Dev.srvTarget
  repeat' first
   | with_reducible assumption
   | with_reducible apply onSeq_keeps

theorem retract_keeps {b : Dev} {x0 : Dev} {x1 : Nat} (hx0 : Keeps b x0) : Keeps b (Dev.retract x0 x1) := by
  unfold Dev.retract
  repeat' first
   | with_reducible assumption
   | (extract_lets +onlyGivenNames x; guard_hyp x : Dev := _; refine (fun (hx : Keeps b x) => ?_) ?_; rotate_left; unfold x; clear x; rotate_right; clear_value x)
   | (extract_lets +onlyGivenNames x; clear_value x)
   | extract_lets +onlyGivenNames x
   | with_reducible apply finesHold_keeps
   | with_reducible apply loopHoldAt_keeps
   | with_reducible apply loopOpen_keeps
   | with_reducible apply onSeq_keeps
   | with_reducible refine keeps_ite (fun _ => ?_) (fun _ => ?_)

theorem retractPark_keeps {b : Dev} {x0 : Dev} {x1 : Nat} (hx0 : Keeps b x0) : Keeps b (Dev.retractPark x0 x1) := by
  unfold Dev.retractPark
  repeat' first
   | with_reducible assumption
   | extract_lets +onlyGivenNames x
   | with_reducible apply onSeq_keeps
   | with_reducible apply retract_keeps

end Sys2Proof.Machine
end

