-- ==== Sys2Proof/Laws/Keeps/Record.lean ====
section
/-! SUPPORT. What every operation of Machine/Record.lean keeps. -/
namespace Sys2Proof.Machine
open Sys2Proof

set_option linter.unusedTactic false
set_option linter.unreachableTactic false
set_option linter.tactic.unusedName false

theorem toHead_keeps {b : Dev} {x0 : Dev} {x1 : Nat} {x2 : Nat} {x3 : Nat} {x4 : Nat} {x5 : List Byte} (hx0 : Keeps b x0) : Keeps b (Dev.toHead x0 x1 x2 x3 x4 x5) := by
  unfold Dev.toHead
  repeat' first
   | with_reducible assumption
   | with_reducible apply send_keeps

theorem freeStamp_keeps {b : Dev} {x0 : Dev} (hx0 : Keeps b x0) : KeepsP b (Dev.freeStamp x0) := by
  unfold Dev.freeStamp
  repeat' first
   | with_reducible assumption
   | extract_lets +onlyGivenNames x
   | with_reducible apply stepFree_keeps
   | with_reducible refine keepsP_mk ?_

theorem sendCfg_keeps {b : Dev} {x0 : Dev} {x1 : Nat} {x2 : Nat} {x3 : Nat} {x4 : Bool} (hx0 : Keeps b x0) : Keeps b (Dev.sendCfg x0 x1 x2 x3 x4) := by
  unfold Dev.sendCfg
  repeat' first
   | with_reducible assumption
   | with_reducible apply toHead_keeps

theorem sendTables_keeps {b : Dev} {x0 : Dev} {x1 : Nat} (hx0 : Keeps b x0) : Keeps b (Dev.sendTables x0 x1) := by
  unfold Dev.sendTables
  repeat' first
   | with_reducible assumption
   | (extract_lets +onlyGivenNames x; guard_hyp x : Dev := _; refine (fun (hx : Keeps b x) => ?_) ?_; rotate_left; unfold x; clear x; rotate_right; clear_value x)
   | (extract_lets +onlyGivenNames x; clear_value x)
   | with_reducible apply onRecorder_keeps
   | with_reducible apply toHead_keeps
   | with_reducible refine keeps_foldl ?_ (fun d x h => ?_)

theorem tablesDue_keeps {b : Dev} {x0 : Dev} {x1 : Nat} (hx0 : Keeps b x0) : Keeps b (Dev.tablesDue x0 x1) := by
  unfold Dev.tablesDue
  repeat' first
   | with_reducible assumption
   | with_reducible apply onRecorder_keeps

theorem eqReset_keeps {b : Dev} {x0 : Dev} {x1 : Nat} (hx0 : Keeps b x0) : Keeps b (Dev.eqReset x0 x1) := by
  unfold Dev.eqReset
  repeat' first
   | with_reducible assumption
   | (extract_lets +onlyGivenNames x; clear_value x)
   | with_reducible apply onDrive_keeps

theorem tapsReset_keeps {b : Dev} {x0 : Dev} {x1 : Nat} (hx0 : Keeps b x0) : Keeps b (Dev.tapsReset x0 x1) := by
  unfold Dev.tapsReset
  repeat' first
   | with_reducible assumption
   | extract_lets +onlyGivenNames x
   | with_reducible apply eqReset_keeps
   | with_reducible apply onDrive_keeps

theorem rowFill_keeps {b : Dev} {x0 : Dev} {x1 : Nat} {x2 : Nat} {x3 : List Nat} {x4 : Map Byte} {x5 : Nat} {x6 : Nat} (hx0 : Keeps b x0) : Keeps b (Dev.rowFill x0 x1 x2 x3 x4 x5 x6) := by
  unfold Dev.rowFill
  repeat' first
   | with_reducible assumption
   | extract_lets +onlyGivenNames x
   | with_reducible apply bufFill_keeps
   | with_reducible refine keeps_foldl ?_ (fun d x h => ?_)

theorem rowTake_keeps {b : Dev} {x0 : Dev} {x1 : Nat} {x2 : Nat} {x3 : List Nat} (hx0 : Keeps b x0) : KeepsT b (Dev.rowTake x0 x1 x2 x3) := by
  unfold Dev.rowTake
  repeat' first
   | with_reducible assumption
   | (generalize hp : Dev.bufTake _ _ _ _ _ _ = p; refine (fun (hk : KeepsT b p) => ?_) (keepsT_gen hp (bufTake_keeps ?_)); rotate_left; clear hp; clear p; rotate_right; clear hp; obtain ⟨y, w, z⟩ := p; replace hk : Keeps b z := hk; try dsimp -zeta only)
   | extract_lets +onlyGivenNames x
   | with_reducible refine keepsT_snd (keepsT_foldl ?_ (fun d x h => ?_))
   | with_reducible refine keepsT_mk ?_
   | with_reducible exact keepsT_snd ‹KeepsT b _›

theorem recPass_keeps {b : Dev} {x0 : Dev} {x1 : Nat} {x2 : Nat} {x3 : Nat} (hx0 : Keeps b x0) : Keeps b (Dev.recPass x0 x1 x2 x3) := by
  unfold Dev.recPass
  repeat' first
   | with_reducible assumption
   | (generalize hp : Dev.bpmTransfer _ _ _ _ = p; refine (fun (hk : KeepsP b p) => ?_) (keepsP_gen hp (bpmTransfer_keeps ?_)); rotate_left; clear hp; clear p; rotate_right; clear hp; obtain ⟨y, z⟩ := p; replace hk : Keeps b z := hk; try dsimp -zeta only)
   | with_reducible refine keeps_foldl ?_ (fun d x h => ?_)
   | split

theorem recTake_keeps {b : Dev} {x0 : Dev} {x1 : RecRow} (hx0 : Keeps b x0) : KeepsP b (Dev.recTake x0 x1) := by
  unfold Dev.recTake
  repeat' first
   | with_reducible assumption
   | (generalize hp : Dev.rowTake _ _ _ _ = p; refine (fun (hk : KeepsT b p) => ?_) (keepsT_gen hp (rowTake_keeps ?_)); rotate_left; clear hp; clear p; rotate_right; clear hp; obtain ⟨y, w, z⟩ := p; replace hk : Keeps b z := hk; try dsimp -zeta only)
   | split
   | with_reducible refine keepsP_mk ?_

theorem setRec_keeps {b : Dev} {x0 : Dev} {x1 : Nat} {x2 : Nat} (hx0 : Keeps b x0) : Keeps b (Dev.setRec x0 x1 x2) := by
  unfold Dev.setRec
  repeat' first
   | with_reducible assumption
   | with_reducible apply wr_keeps

theorem showQueue_keeps {b : Dev} {x0 : Dev} {x1 : Nat} (hx0 : Keeps b x0) : Keeps b (Dev.showQueue x0 x1) := by
  unfold Dev.showQueue
  repeat' first
   | with_reducible assumption
   | with_reducible apply wr_keeps

theorem queueFill_keeps {b : Dev} {x0 : Dev} {x1 : Nat} (hx0 : Keeps b x0) : Keeps b (Dev.queueFill x0 x1) := by
  unfold Dev.queueFill
  repeat' first
   | with_reducible assumption
   | extract_lets +onlyGivenNames x
   | with_reducible apply onRecorder_keeps
   | with_reducible apply showQueue_keeps

theorem queueAdd_keeps {b : Dev} {x0 : Dev} {x1 : Nat} {x2 : RecRow} (hx0 : Keeps b x0) : Keeps b (Dev.queueAdd x0 x1 x2) := by
  unfold Dev.queueAdd
  repeat' first
   | with_reducible assumption
   | extract_lets +onlyGivenNames x
   | with_reducible apply onRecorder_keeps
   | with_reducible apply showQueue_keeps

theorem queueFront_keeps {b : Dev} {x0 : Dev} {x1 : Nat} {x2 : RecRow} (hx0 : Keeps b x0) : Keeps b (Dev.queueFront x0 x1 x2) := by
  unfold Dev.queueFront
  repeat' first
   | with_reducible assumption
   | extract_lets +onlyGivenNames x
   | with_reducible apply onRecorder_keeps
   | with_reducible apply showQueue_keeps

theorem spoil_keeps {b : Dev} {x0 : Dev} {x1 : Nat} {x2 : Nat} {x3 : Nat} {x4 : Nat} {x5 : Nat} (hx0 : Keeps b x0) : Keeps b (Dev.spoil x0 x1 x2 x3 x4 x5) := by
  unfold Dev.spoil
  repeat' first
   | with_reducible assumption
   | (extract_lets +onlyGivenNames x; guard_hyp x : Dev := _; refine (fun (hx : Keeps b x) => ?_) ?_; rotate_left; unfold x; clear x; rotate_right; clear_value x)
   | (extract_lets +onlyGivenNames x; clear_value x)
   | extract_lets +onlyGivenNames x
   | with_reducible apply ddlAdd_keeps
   | with_reducible apply spareExhausted_keeps
   | with_reducible refine keeps_foldl ?_ (fun d x h => ?_)
   | with_reducible refine keeps_ite (fun _ => ?_) (fun _ => ?_)
   | split

theorem dropVerify_keeps {b : Dev} {x0 : Dev} {x1 : Nat} {x2 : Nat} {x3 : Nat} (hx0 : Keeps b x0) : Keeps b (Dev.dropVerify x0 x1 x2 x3) := by
  unfold Dev.dropVerify
  repeat' first
   | with_reducible assumption
   | with_reducible apply onDrive_keeps

theorem rowStops_keeps {b : Dev} {x0 : Dev} {x1 : Nat} {x2 : Nat} {x3 : Nat} {x4 : Running} (hx0 : Keeps b x0) : Keeps b (Dev.rowStops x0 x1 x2 x3 x4) := by
  unfold Dev.rowStops
  repeat' first
   | with_reducible assumption
   | (extract_lets +onlyGivenNames x; guard_hyp x : Dev := _; refine (fun (hx : Keeps b x) => ?_) ?_; rotate_left; unfold x; clear x; rotate_right; clear_value x)
   | (extract_lets +onlyGivenNames x; clear_value x)
   | extract_lets +onlyGivenNames x
   | with_reducible apply ddlAdd_keeps
   | with_reducible apply dropVerify_keeps
   | with_reducible apply onOdr_keeps
   | with_reducible apply queueFront_keeps
   | with_reducible apply raise_keeps
   | with_reducible apply setRdonly_keeps
   | with_reducible apply setRec_keeps
   | with_reducible apply spoil_keeps
   | with_reducible refine keeps_ite (fun _ => ?_) (fun _ => ?_)

theorem stopRows_keeps {b : Dev} {x0 : Dev} {x1 : Nat} {x2 : Nat} {x3 : Nat} {x4 : List Nat} (hx0 : Keeps b x0) : Keeps b (Dev.stopRows x0 x1 x2 x3 x4) := by
  unfold Dev.stopRows
  repeat' first
   | with_reducible assumption
   | (extract_lets +onlyGivenNames x; guard_hyp x : Dev := _; refine (fun (hx : Keeps b x) => ?_) ?_; rotate_left; unfold x; clear x; rotate_right; clear_value x)
   | (extract_lets +onlyGivenNames x; clear_value x)
   | with_reducible apply dropVerify_keeps
   | with_reducible apply onOdr_keeps
   | with_reducible apply onRecorder_keeps
   | with_reducible apply rowStops_keeps
   | with_reducible apply spoil_keeps
   | split

theorem recAbort_keeps {b : Dev} {x0 : Dev} {x1 : Nat} (hx0 : Keeps b x0) : Keeps b (Dev.recAbort x0 x1) := by
  unfold Dev.recAbort
  repeat' first
   | with_reducible assumption
   | (extract_lets +onlyGivenNames x; guard_hyp x : Dev := _; refine (fun (hx : Keeps b x) => ?_) ?_; rotate_left; unfold x; clear x; rotate_right; clear_value x)
   | (extract_lets +onlyGivenNames x; clear_value x)
   | extract_lets +onlyGivenNames x
   | with_reducible apply dropVerify_keeps
   | with_reducible apply onOdr_keeps
   | with_reducible apply onRecorder_keeps
   | with_reducible apply queueFront_keeps
   | with_reducible apply setRec_keeps
   | with_reducible refine keeps_foldl ?_ (fun d x h => ?_)
   | with_reducible refine keeps_ite (fun _ => ?_) (fun _ => ?_)

theorem holdAbort_keeps {b : Dev} {x0 : Dev} {x1 : Nat} (hx0 : Keeps b x0) : Keeps b (Dev.holdAbort x0 x1) := by
  unfold Dev.holdAbort
  repeat' first
   | with_reducible assumption
   | extract_lets +onlyGivenNames x
   | with_reducible apply hold_keeps
   | with_reducible apply recAbort_keeps

theorem holdAbortAll_keeps {b : Dev} {x0 : Dev} (hx0 : Keeps b x0) : Keeps b (Dev.holdAbortAll x0) := by
  unfold Dev.holdAbortAll
  repeat' first
   | with_reducible assumption
   | extract_lets +onlyGivenNames x
   | with_reducible apply holdAbort_keeps
   | with_reducible refine keeps_foldl ?_ (fun d x h => ?_)

theorem nwbFrom_keeps {b : Dev} {x0 : Dev} {x1 : Nat} {x2 : Nat} {x3 : Nat} {x4 : Bool} {x5 : Bool} (hx0 : Keeps b x0) : Keeps b (Dev.nwbFrom x0 x1 x2 x3 x4 x5) := by
  unfold Dev.nwbFrom
  repeat' first
   | with_reducible assumption
   | (extract_lets +onlyGivenNames x; guard_hyp x : Dev := _; refine (fun (hx : Keeps b x) => ?_) ?_; rotate_left; unfold x; clear x; rotate_right; clear_value x)
   | (extract_lets +onlyGivenNames x; clear_value x)
   | extract_lets +onlyGivenNames x
   | with_reducible apply raise_keeps
   | with_reducible apply setNwb_keeps
   | with_reducible apply spoil_keeps
   | with_reducible refine keeps_ite (fun _ => ?_) (fun _ => ?_)

theorem rereadStops_keeps {b : Dev} {x0 : Dev} {x1 : Nat} (hx0 : Keeps b x0) : Keeps b (Dev.rereadStops x0 x1) := by
  unfold Dev.rereadStops
  repeat' first
   | with_reducible assumption
   | with_reducible apply onDrive_keeps

theorem showGuard_keeps {b : Dev} {x0 : Dev} {x1 : Nat} (hx0 : Keeps b x0) : Keeps b (Dev.showGuard x0 x1) := by
  unfold Dev.showGuard
  repeat' first
   | with_reducible assumption
   | (extract_lets +onlyGivenNames x; clear_value x)
   | extract_lets +onlyGivenNames x
   | with_reducible apply wrB_keeps

theorem guard_keeps {b : Dev} {x0 : Dev} {x1 : Nat} {x2 : Nat} {x3 : List Nat} (hx0 : Keeps b x0) : Keeps b (Dev.guard x0 x1 x2 x3) := by
  unfold Dev.guard
  repeat' first
   | with_reducible assumption
   | with_reducible refine fun (d : Dev) (h : Keeps b d) => ?_
   | (extract_lets +onlyGivenNames x; guard_hyp x : Dev := _; refine (fun (hx : Keeps b x) => ?_) ?_; rotate_left; unfold x; clear x; rotate_right; clear_value x)
   | (extract_lets +onlyGivenNames x; clear_value x)
   | extract_lets +onlyGivenNames x
   | with_reducible apply count_keeps
   | with_reducible apply hold_keeps
   | with_reducible apply onDrive_keeps
   | with_reducible apply onRecorder_keeps
   | with_reducible apply raise_keeps
   | with_reducible apply rereadStops_keeps
   | with_reducible apply setRec_keeps
   | with_reducible apply showGuard_keeps
   | with_reducible apply stopRows_keeps
   | with_reducible apply when_keeps
   | with_reducible refine keeps_ite (fun _ => ?_) (fun _ => ?_)

theorem guardSet_keeps {b : Dev} {x0 : Dev} {x1 : Nat} {x2 : Nat} {x3 : Nat} {x4 : Bool} (hx0 : Keeps b x0) : Keeps b (Dev.guardSet x0 x1 x2 x3 x4) := by
  unfold Dev.guardSet
  repeat' first
   | with_reducible assumption
   | (extract_lets +onlyGivenNames x; clear_value x)
   | with_reducible apply guard_keeps

theorem firstDib_keeps {b : Dev} {x0 : Dev} {x1 : Nat} (hx0 : Keeps b x0) : Keeps b (Dev.firstDib x0 x1) := by
  unfold Dev.firstDib
  repeat' first
   | with_reducible assumption
   | (extract_lets +onlyGivenNames x; clear_value x)
   | extract_lets +onlyGivenNames x
   | with_reducible apply onDisc_keeps
   | with_reducible apply send_keeps
   | with_reducible refine keeps_ite (fun _ => ?_) (fun _ => ?_)
   | split

theorem sendChunks_keeps {b : Dev} {x0 : Dev} {x1 : Nat} {x2 : Running} (hx0 : Keeps b x0) : KeepsP b (Dev.sendChunks x0 x1 x2) := by
  unfold Dev.sendChunks
  repeat' first
   | with_reducible assumption
   | (generalize hp : Dev.freeStamp _ = p; refine (fun (hk : KeepsP b p) => ?_) (keepsP_gen hp (freeStamp_keeps ?_)); rotate_left; clear hp; clear p; rotate_right; clear hp; obtain ⟨y, z⟩ := p; replace hk : Keeps b z := hk; try dsimp -zeta only)
   | (extract_lets +onlyGivenNames x; guard_hyp x : Dev := _; refine (fun (hx : Keeps b x) => ?_) ?_; rotate_left; unfold x; clear x; rotate_right; clear_value x)
   | (extract_lets +onlyGivenNames x; clear_value x)
   | extract_lets +onlyGivenNames x
   | with_reducible apply count_keeps
   | with_reducible apply toHead_keeps
   | with_reducible refine keeps_foldl ?_ (fun d x h => ?_)
   | with_reducible refine keepsP_ite (fun _ => ?_) (fun _ => ?_)
   | with_reducible refine keepsP_mk ?_

theorem commitRow_keeps {b : Dev} {x0 : Dev} {x1 : Nat} {x2 : Nat} {x3 : RecRow} {x4 : Nat} (hx0 : Keeps b x0) : Keeps b (Dev.commitRow x0 x1 x2 x3 x4) := by
  unfold Dev.commitRow
  repeat' first
   | with_reducible assumption
   | (generalize hp : Dev.sendChunks _ _ _ = p; refine (fun (hk : KeepsP b p) => ?_) (keepsP_gen hp (sendChunks_keeps ?_)); rotate_left; clear hp; clear p; rotate_right; clear hp; obtain ⟨y, z⟩ := p; replace hk : Keeps b z := hk; try dsimp -zeta only)
   | (extract_lets +onlyGivenNames x; guard_hyp x : Dev := _; refine (fun (hx : Keeps b x) => ?_) ?_; rotate_left; unfold x; clear x; rotate_right; clear_value x)
   | (extract_lets +onlyGivenNames x; clear_value x)
   | extract_lets +onlyGivenNames x
   | with_reducible apply count_keeps
   | with_reducible apply firstDib_keeps
   | with_reducible apply onDrive_keeps
   | with_reducible apply onRecorder_keeps
   | with_reducible apply send_keeps
   | with_reducible refine keeps_ite (fun _ => ?_) (fun _ => ?_)

theorem bandCommit_keeps {b : Dev} {x0 : Dev} {x1 : CommitIn} (hx0 : Keeps b x0) : Keeps b (Dev.bandCommit x0 x1) := by
  unfold Dev.bandCommit
  repeat' first
   | with_reducible assumption
   | with_reducible refine fun (d : Dev) (h : Keeps b d) => ?_
   | (generalize hp : Dev.recTake _ _ = p; refine (fun (hk : KeepsP b p) => ?_) (keepsP_gen hp (recTake_keeps ?_)); rotate_left; clear hp; clear p; rotate_right; clear hp; obtain ⟨y, z⟩ := p; replace hk : Keeps b z := hk; try dsimp -zeta only)
   | (extract_lets +onlyGivenNames x; guard_hyp x : Dev := _; refine (fun (hx : Keeps b x) => ?_) ?_; rotate_left; unfold x; clear x; rotate_right; clear_value x)
   | (extract_lets +onlyGivenNames x; clear_value x)
   | extract_lets +onlyGivenNames x
   | with_reducible apply commitRow_keeps
   | with_reducible apply count_keeps
   | with_reducible apply nwbFrom_keeps
   | with_reducible apply onOdr_keeps
   | with_reducible apply onRecorder_keeps
   | with_reducible apply onSeq_keeps
   | with_reducible apply sendTables_keeps
   | with_reducible apply setNwb_keeps
   | with_reducible apply setRec_keeps
   | with_reducible apply when_keeps
   | with_reducible refine keeps_ite (fun _ => ?_) (fun _ => ?_)
   | split

theorem reallocRecord_keeps {b : Dev} {x0 : Dev} {x1 : CommitIn} (hx0 : Keeps b x0) : Keeps b (Dev.reallocRecord x0 x1) := by
  unfold Dev.reallocRecord
  repeat' first
   | with_reducible assumption
   | with_reducible refine fun (d : Dev) (h : Keeps b d) => ?_
   | (generalize hp : Dev.recTake _ _ = p; refine (fun (hk : KeepsP b p) => ?_) (keepsP_gen hp (recTake_keeps ?_)); rotate_left; clear hp; clear p; rotate_right; clear hp; obtain ⟨y, z⟩ := p; replace hk : Keeps b z := hk; try dsimp -zeta only)
   | (extract_lets +onlyGivenNames x; guard_hyp x : Dev := _; refine (fun (hx : Keeps b x) => ?_) ?_; rotate_left; unfold x; clear x; rotate_right; clear_value x)
   | (extract_lets +onlyGivenNames x; clear_value x)
   | extract_lets +onlyGivenNames x
   | with_reducible apply commitRow_keeps
   | with_reducible apply onRecorder_keeps
   | with_reducible apply queueFill_keeps
   | with_reducible apply sendTables_keeps
   | with_reducible apply setRec_keeps
   | with_reducible apply spareExhausted_keeps
   | with_reducible apply stepFree_keeps
   | with_reducible apply when_keeps
   | with_reducible refine keeps_ite (fun _ => ?_) (fun _ => ?_)
   | split

theorem rowSwitch_keeps {b : Dev} {x0 : Dev} {x1 : RecFor} {x2 : Nat} (hx0 : Keeps b x0) : Keeps b (Dev.rowSwitch x0 x1 x2) := by
  unfold Dev.rowSwitch
  repeat' first
   | with_reducible assumption
   | (generalize hp : Dev.addJob _ _ = p; refine (fun (hk : KeepsP b p) => ?_) (keepsP_gen hp (addJob_keeps ?_)); rotate_left; clear hp; clear p; rotate_right; clear hp; obtain ⟨y, z⟩ := p; replace hk : Keeps b z := hk; try dsimp -zeta only)
   | (extract_lets +onlyGivenNames x; guard_hyp x : Dev := _; refine (fun (hx : Keeps b x) => ?_) ?_; rotate_left; unfold x; clear x; rotate_right; clear_value x)
   | extract_lets +onlyGivenNames x
   | with_reducible apply count_keeps
   | with_reducible apply onCmd_keeps
   | with_reducible apply sjPut_keeps
   | with_reducible refine keeps_foldl ?_ (fun d x h => ?_)
   | with_reducible refine keeps_ite (fun _ => ?_) (fun _ => ?_)
   | split

theorem hollowAdd_keeps {b : Dev} {x0 : Dev} {x1 : Nat} {x2 : RecRow} (hx0 : Keeps b x0) : Keeps b (Dev.hollowAdd x0 x1 x2) := by
  unfold Dev.hollowAdd
  repeat' first
   | with_reducible assumption
   | extract_lets +onlyGivenNames x
   | with_reducible apply ddlAdd_keeps
   | with_reducible refine keeps_foldl ?_ (fun d x h => ?_)
   | split

theorem verifyPass_keeps {b : Dev} {x0 : Dev} {x1 : Nat} {x2 : RecRow} {x3 : Nat} (hx0 : Keeps b x0) : Keeps b (Dev.verifyPass x0 x1 x2 x3) := by
  unfold Dev.verifyPass
  repeat' first
   | with_reducible assumption
   | (extract_lets +onlyGivenNames x; guard_hyp x : Dev := _; refine (fun (hx : Keeps b x) => ?_) ?_; rotate_left; unfold x; clear x; rotate_right; clear_value x)
   | extract_lets +onlyGivenNames x
   | with_reducible apply count_keeps
   | with_reducible apply ddlAdd_keeps
   | with_reducible apply hollowAdd_keeps
   | with_reducible apply onRecorder_keeps
   | with_reducible apply rowSwitch_keeps
   | with_reducible refine keeps_foldl ?_ (fun d x h => ?_)
   | with_reducible refine keeps_ite (fun _ => ?_) (fun _ => ?_)

theorem verifyFail_keeps {b : Dev} {x0 : Dev} {x1 : Nat} {x2 : RecRow} {x3 : Nat} {x4 : Nat} (hx0 : Keeps b x0) : Keeps b (Dev.verifyFail x0 x1 x2 x3 x4) := by
  unfold Dev.verifyFail
  repeat' first
   | with_reducible assumption
   | (extract_lets +onlyGivenNames x; guard_hyp x : Dev := _; refine (fun (hx : Keeps b x) => ?_) ?_; rotate_left; unfold x; clear x; rotate_right; clear_value x)
   | extract_lets +onlyGivenNames x
   | with_reducible apply count_keeps
   | with_reducible apply ddlAdd_keeps
   | with_reducible apply onRecorder_keeps
   | with_reducible apply queueAdd_keeps
   | with_reducible apply queueFront_keeps
   | with_reducible apply raise_keeps
   | with_reducible apply setRdonly_keeps
   | with_reducible apply setRec_keeps
   | with_reducible refine keeps_ite (fun _ => ?_) (fun _ => ?_)

theorem slotEnds_keeps {b : Dev} {x0 : Dev} {x1 : Nat} (hx0 : Keeps b x0) : Keeps b (Dev.slotEnds x0 x1) := by
  unfold Dev.slotEnds
  repeat' first
   | with_reducible assumption
   | (extract_lets +onlyGivenNames x; guard_hyp x : Dev := _; refine (fun (hx : Keeps b x) => ?_) ?_; rotate_left; unfold x; clear x; rotate_right; clear_value x)
   | (extract_lets +onlyGivenNames x; clear_value x)
   | extract_lets +onlyGivenNames x
   | with_reducible apply count_keeps
   | with_reducible apply hollowAdd_keeps
   | with_reducible apply onCat_keeps
   | with_reducible apply onRecorder_keeps
   | with_reducible apply setNwb_keeps
   | with_reducible apply setRec_keeps
   | with_reducible refine keeps_ite (fun _ => ?_) (fun _ => ?_)
   | split

theorem verify8_keeps {b : Dev} {x0 : Dev} {x1 : Nat} (hx0 : Keeps b x0) : Keeps b (Dev.verify8 x0 x1) := by
  unfold Dev.verify8
  repeat' first
   | with_reducible assumption
   | (extract_lets +onlyGivenNames x; clear_value x)
   | extract_lets +onlyGivenNames x
   | with_reducible apply onDrive_keeps
   | with_reducible refine keeps_ite (fun _ => ?_) (fun _ => ?_)

theorem verdicts_keeps {b : Dev} {x0 : Dev} {x1 : Nat} (hx0 : Keeps b x0) : Keeps b (Dev.verdicts x0 x1) := by
  unfold Dev.verdicts
  repeat' first
   | with_reducible assumption
   | (extract_lets +onlyGivenNames x; guard_hyp x : Dev := _; refine (fun (hx : Keeps b x) => ?_) ?_; rotate_left; unfold x; clear x; rotate_right; clear_value x)
   | extract_lets +onlyGivenNames x
   | with_reducible apply dropVerify_keeps
   | with_reducible apply verifyFail_keeps
   | with_reducible apply verifyPass_keeps
   | with_reducible refine keeps_foldl ?_ (fun d x h => ?_)
   | with_reducible refine keeps_ite (fun _ => ?_) (fun _ => ?_)
   | split

theorem recNext_keeps {b : Dev} {x0 : Dev} {x1 : Nat} (hx0 : Keeps b x0) : Keeps b (Dev.recNext x0 x1) := by
  unfold Dev.recNext
  repeat' first
   | with_reducible assumption
   | (extract_lets +onlyGivenNames x; guard_hyp x : Dev := _; refine (fun (hx : Keeps b x) => ?_) ?_; rotate_left; unfold x; clear x; rotate_right; clear_value x)
   | (extract_lets +onlyGivenNames x; clear_value x)
   | extract_lets +onlyGivenNames x
   | with_reducible apply setRec_keeps
   | with_reducible apply srvTarget_keeps
   | with_reducible refine keeps_ite (fun _ => ?_) (fun _ => ?_)
   | split

theorem recTick_keeps {b : Dev} {x0 : Dev} {x1 : Nat} (hx0 : Keeps b x0) : Keeps b (Dev.recTick x0 x1) := by
  unfold Dev.recTick
  repeat' first
   | with_reducible assumption
   | with_reducible refine fun (d : Dev) (h : Keeps b d) => ?_
   | (generalize hp : Dev.sendChunks _ _ _ = p; refine (fun (hk : KeepsP b p) => ?_) (keepsP_gen hp (sendChunks_keeps ?_)); rotate_left; clear hp; clear p; rotate_right; clear hp; obtain ⟨y, z⟩ := p; replace hk : Keeps b z := hk; try dsimp -zeta only)
   | (extract_lets +onlyGivenNames x; guard_hyp x : Dev := _; refine (fun (hx : Keeps b x) => ?_) ?_; rotate_left; unfold x; clear x; rotate_right; clear_value x)
   | (extract_lets +onlyGivenNames x; clear_value x)
   | extract_lets +onlyGivenNames x
   | with_reducible apply onRecorder_keeps
   | with_reducible apply recNext_keeps
   | with_reducible apply sendTables_keeps
   | with_reducible apply slotEnds_keeps
   | with_reducible apply verdicts_keeps
   | with_reducible apply verify8_keeps
   | with_reducible apply when_keeps
   | with_reducible refine keeps_ite (fun _ => ?_) (fun _ => ?_)
   | split

theorem execBandrowCommit_keeps {x0 : CommitIn} {x1 : State}  : Steps x1.dev x1 (execBandrowCommit x0 x1) := by
  unfold execBandrowCommit
  refine steps_run (fun d h => ?_)
  repeat' first
   | with_reducible assumption
   | extract_lets +onlyGivenNames x
   | with_reducible apply bandCommit_keeps

theorem execReallocRecord_keeps {x0 : CommitIn} {x1 : State}  : Steps x1.dev x1 (execReallocRecord x0 x1) := by
  unfold execReallocRecord
  refine steps_run (fun d h => ?_)
  repeat' first
   | with_reducible assumption
   | extract_lets +onlyGivenNames x
   | with_reducible apply reallocRecord_keeps

end Sys2Proof.Machine
end

