-- ==== Sys2Proof/Laws/Keeps/Ladder.lean ====
section
/-! SUPPORT. What every operation of Machine/Ladder.lean keeps. -/
namespace Sys2Proof.Machine
open Sys2Proof

set_option linter.unusedTactic false
set_option linter.unreachableTactic false
set_option linter.tactic.unusedName false

theorem putRead_keeps {b : Dev} {x0 : Dev} {x1 : Nat} {x2 : BrRead} (hx0 : Keeps b x0) : Keeps b (Dev.putRead x0 x1 x2) := by
  unfold Dev.putRead
  repeat' first
   | with_reducible assumption
   | with_reducible apply onDrive_keeps

theorem dropRead_keeps {b : Dev} {x0 : Dev} {x1 : Nat} {x2 : BrRead} (hx0 : Keeps b x0) : Keeps b (Dev.dropRead x0 x1 x2) := by
  unfold Dev.dropRead
  repeat' first
   | with_reducible assumption
   | with_reducible apply onDrive_keeps

theorem aimRead_keeps {b : Dev} {x0 : Dev} {x1 : Nat} {x2 : BrRead} (hx0 : Keeps b x0) : Keeps b (Dev.aimRead x0 x1 x2) := by
  unfold Dev.aimRead
  repeat' first
   | with_reducible assumption
   | with_reducible apply srvTarget_keeps
   | split

theorem browGot_keeps {b : Dev} {x0 : Dev} {x1 : Nat} {x2 : Nat} {x3 : Nat} {x4 : Map Byte} {x5 : Nat} {x6 : Bool} {x7 : Bool} {x8 : BrowFor} (hx0 : Keeps b x0) : Keeps b (Dev.browGot x0 x1 x2 x3 x4 x5 x6 x7 x8) := by
  unfold Dev.browGot
  repeat' first
   | with_reducible assumption
   | (extract_lets +onlyGivenNames x; clear_value x)
   | with_reducible apply jobGot_keeps
   | with_reducible apply onCmd_keeps
   | with_reducible apply onOdr_keeps
   | with_reducible apply onSfl_keeps
   | split

theorem deliverRow_keeps {b : Dev} {x0 : Dev} {x1 : Nat} {x2 : BrRead} {x3 : Map Byte} {x4 : Nat} {x5 : Bool} {x6 : Bool} (hx0 : Keeps b x0) : Keeps b (Dev.deliverRow x0 x1 x2 x3 x4 x5 x6) := by
  unfold Dev.deliverRow
  repeat' first
   | with_reducible assumption
   | (extract_lets +onlyGivenNames x; guard_hyp x : Dev := _; refine (fun (hx : Keeps b x) => ?_) ?_; rotate_left; unfold x; clear x; rotate_right; clear_value x)
   | (extract_lets +onlyGivenNames x; clear_value x)
   | extract_lets +onlyGivenNames x
   | with_reducible apply browGot_keeps
   | with_reducible apply dropRead_keeps
   | with_reducible apply onDrive_keeps
   | with_reducible refine keeps_foldl ?_ (fun d x h => ?_)

theorem rowLand_keeps {b : Dev} {x0 : Dev} {x1 : Nat} {x2 : BrRead} {x3 : Map Byte} {x4 : Nat} (hx0 : Keeps b x0) : KeepsT b (Dev.rowLand x0 x1 x2 x3 x4) := by
  unfold Dev.rowLand
  repeat' first
   | with_reducible assumption
   | (generalize hp : Dev.rowTake _ _ _ _ = p; refine (fun (hk : KeepsT b p) => ?_) (keepsT_gen hp (rowTake_keeps ?_)); rotate_left; clear hp; clear p; rotate_right; clear hp; obtain ⟨y, w, z⟩ := p; replace hk : Keeps b z := hk; try dsimp -zeta only)
   | (extract_lets +onlyGivenNames x; guard_hyp x : Dev := _; refine (fun (hx : Keeps b x) => ?_) ?_; rotate_left; unfold x; clear x; rotate_right; clear_value x)
   | with_reducible apply rowFill_keeps
   | split
   | with_reducible refine keepsT_mk ?_

theorem reallocate_keeps {b : Dev} {x0 : Dev} {x1 : Nat} {x2 : BrRead} {x3 : Nat} {x4 : Map Byte} {x5 : Nat} (hx0 : Keeps b x0) : Keeps b (Dev.reallocate x0 x1 x2 x3 x4 x5) := by
  unfold Dev.reallocate
  repeat' first
   | with_reducible assumption
   | with_reducible refine fun (d : Dev) (h : Keeps b d) => ?_
   | (extract_lets +onlyGivenNames x; guard_hyp x : Dev := _; refine (fun (hx : Keeps b x) => ?_) ?_; rotate_left; unfold x; clear x; rotate_right; clear_value x)
   | (extract_lets +onlyGivenNames x; clear_value x)
   | extract_lets +onlyGivenNames x
   | with_reducible apply count_keeps
   | with_reducible apply ddlAdd_keeps
   | with_reducible apply onOdr_keeps
   | with_reducible apply queueAdd_keeps
   | with_reducible apply raise_keeps
   | with_reducible apply when_keeps
   | with_reducible refine keeps_ite (fun _ => ?_) (fun _ => ?_)
   | split

theorem readComplete_keeps {b : Dev} {x0 : Dev} {x1 : Nat} {x2 : BrRead} {x3 : List Nat} {x4 : List Nat} (hx0 : Keeps b x0) : Keeps b (Dev.readComplete x0 x1 x2 x3 x4) := by
  unfold Dev.readComplete
  repeat' first
   | with_reducible assumption
   | (generalize hp : Dev.rowLand _ _ _ _ _ = p; refine (fun (hk : KeepsT b p) => ?_) (keepsT_gen hp (rowLand_keeps ?_)); rotate_left; clear hp; clear p; rotate_right; clear hp; obtain ⟨y, w, z⟩ := p; replace hk : Keeps b z := hk; try dsimp -zeta only)
   | (extract_lets +onlyGivenNames x; guard_hyp x : Dev := _; refine (fun (hx : Keeps b x) => ?_) ?_; rotate_left; unfold x; clear x; rotate_right; clear_value x)
   | (extract_lets +onlyGivenNames x; clear_value x)
   | extract_lets +onlyGivenNames x
   | with_reducible apply count_keeps
   | with_reducible apply deliverRow_keeps
   | with_reducible apply putRead_keeps
   | with_reducible apply raise_keeps
   | with_reducible apply reallocate_keeps
   | with_reducible apply verdicts_keeps
   | with_reducible apply wr_keeps
   | with_reducible refine keeps_ite (fun _ => ?_) (fun _ => ?_)

theorem readFails_keeps {b : Dev} {x0 : Dev} {x1 : Nat} {x2 : BrRead} {x3 : List Nat} (hx0 : Keeps b x0) : Keeps b (Dev.readFails x0 x1 x2 x3) := by
  unfold Dev.readFails
  repeat' first
   | with_reducible assumption
   | (generalize hp : Dev.rowLand _ _ _ _ _ = p; refine (fun (hk : KeepsT b p) => ?_) (keepsT_gen hp (rowLand_keeps ?_)); rotate_left; clear hp; clear p; rotate_right; clear hp; obtain ⟨y, w, z⟩ := p; replace hk : Keeps b z := hk; try dsimp -zeta only)
   | extract_lets +onlyGivenNames x
   | with_reducible apply count_keeps
   | with_reducible apply deliverRow_keeps
   | with_reducible apply putRead_keeps
   | with_reducible apply raise_keeps
   | with_reducible apply verdicts_keeps
   | with_reducible refine keeps_ite (fun _ => ?_) (fun _ => ?_)

theorem levelOff_keeps {b : Dev} {x0 : Dev} {x1 : Nat} {x2 : BrRead} (hx0 : Keeps b x0) : Keeps b (Dev.levelOff x0 x1 x2) := by
  unfold Dev.levelOff
  repeat' first
   | with_reducible assumption
   | (generalize hp : Dev.freeStamp _ = p; refine (fun (hk : KeepsP b p) => ?_) (keepsP_gen hp (freeStamp_keeps ?_)); rotate_left; clear hp; clear p; rotate_right; clear hp; obtain ⟨y, z⟩ := p; replace hk : Keeps b z := hk; try dsimp -zeta only)
   | (extract_lets +onlyGivenNames x; guard_hyp x : Dev := _; refine (fun (hx : Keeps b x) => ?_) ?_; rotate_left; unfold x; clear x; rotate_right; clear_value x)
   | (extract_lets +onlyGivenNames x; clear_value x)
   | extract_lets +onlyGivenNames x
   | with_reducible apply onSeq_keeps
   | with_reducible apply sendCfg_keeps
   | with_reducible refine keeps_ite (fun _ => ?_) (fun _ => ?_)

theorem levelEnds_keeps {b : Dev} {x0 : Dev} {x1 : Nat} {x2 : BrRead} (hx0 : Keeps b x0) : Keeps b (Dev.levelEnds x0 x1 x2) := by
  unfold Dev.levelEnds
  repeat' first
   | with_reducible assumption
   | with_reducible refine fun (d : Dev) (h : Keeps b d) => ?_
   | (extract_lets +onlyGivenNames x; guard_hyp x : Dev := _; refine (fun (hx : Keeps b x) => ?_) ?_; rotate_left; unfold x; clear x; rotate_right; clear_value x)
   | (extract_lets +onlyGivenNames x; clear_value x)
   | extract_lets +onlyGivenNames x
   | with_reducible apply countN_keeps
   | with_reducible apply levelOff_keeps
   | with_reducible apply putRead_keeps
   | with_reducible apply raise_keeps
   | with_reducible apply readComplete_keeps
   | with_reducible apply readFails_keeps
   | with_reducible apply takeInjected_keeps
   | with_reducible apply when_keeps
   | with_reducible refine keeps_ite (fun _ => ?_) (fun _ => ?_)

theorem passEnds_keeps {b : Dev} {x0 : Dev} {x1 : Nat} {x2 : BrRead} (hx0 : Keeps b x0) : Keeps b (Dev.passEnds x0 x1 x2) := by
  unfold Dev.passEnds
  repeat' first
   | with_reducible assumption
   | (extract_lets +onlyGivenNames x; clear_value x)
   | extract_lets +onlyGivenNames x
   | with_reducible apply aimRead_keeps
   | with_reducible apply levelEnds_keeps
   | with_reducible apply onSeq_keeps
   | with_reducible apply putRead_keeps
   | with_reducible refine keeps_ite (fun _ => ?_) (fun _ => ?_)

theorem sectorDone_keeps {b : Dev} {x0 : Dev} {x1 : Nat} {x2 : Nat} {x3 : Nat} {x4 : Option (Nat × List Byte)} (hx0 : Keeps b x0) : Keeps b (Dev.sectorDone x0 x1 x2 x3 x4) := by
  unfold Dev.sectorDone
  repeat' first
   | with_reducible assumption
   | (extract_lets +onlyGivenNames x; guard_hyp x : Dev := _; refine (fun (hx : Keeps b x) => ?_) ?_; rotate_left; unfold x; clear x; rotate_right; clear_value x)
   | (extract_lets +onlyGivenNames x; clear_value x)
   | extract_lets +onlyGivenNames x
   | with_reducible apply count_keeps
   | with_reducible apply passEnds_keeps
   | with_reducible apply putRead_keeps
   | with_reducible refine keeps_ite (fun _ => ?_) (fun _ => ?_)
   | split

theorem showPool_keeps {b : Dev} {x0 : Dev} (hx0 : Keeps b x0) : Keeps b (Dev.showPool x0) := by
  unfold Dev.showPool
  repeat' first
   | with_reducible assumption
   | (extract_lets +onlyGivenNames x; clear_value x)
   | extract_lets +onlyGivenNames x
   | with_reducible apply wr_keeps

theorem ldpcAsk_keeps {b : Dev} {x0 : Dev} {x1 : LdpcReq} (hx0 : Keeps b x0) : Keeps b (Dev.ldpcAsk x0 x1) := by
  unfold Dev.ldpcAsk
  repeat' first
   | with_reducible assumption
   | extract_lets +onlyGivenNames x
   | with_reducible apply count_keeps
   | with_reducible apply onOdr_keeps
   | with_reducible apply showPool_keeps

theorem decodeStart_keeps {b : Dev} {x0 : Dev} {x1 : Nat} (hx0 : Keeps b x0) : Keeps b (Dev.decodeStart x0 x1) := by
  unfold Dev.decodeStart
  repeat' first
   | with_reducible assumption
   | (extract_lets +onlyGivenNames x; clear_value x)
   | extract_lets +onlyGivenNames x
   | with_reducible apply onOdr_keeps
   | with_reducible apply showPool_keeps
   | with_reducible refine keeps_ite (fun _ => ?_) (fun _ => ?_)
   | split

theorem decodeDone_keeps {b : Dev} {x0 : Dev} {x1 : Nat} (hx0 : Keeps b x0) : Keeps b (Dev.decodeDone x0 x1) := by
  unfold Dev.decodeDone
  repeat' first
   | with_reducible assumption
   | (extract_lets +onlyGivenNames x; guard_hyp x : Dev := _; refine (fun (hx : Keeps b x) => ?_) ?_; rotate_left; unfold x; clear x; rotate_right; clear_value x)
   | extract_lets +onlyGivenNames x
   | with_reducible apply count_keeps
   | with_reducible apply countN_keeps
   | with_reducible apply onOdr_keeps
   | with_reducible apply sectorDone_keeps
   | with_reducible apply showPool_keeps
   | split

theorem decoderFails_keeps {b : Dev} {x0 : Dev} {x1 : Nat} {x2 : Bool} (hx0 : Keeps b x0) : Keeps b (Dev.decoderFails x0 x1 x2) := by
  unfold Dev.decoderFails
  repeat' first
   | with_reducible assumption
   | extract_lets +onlyGivenNames x
   | with_reducible apply count_keeps
   | with_reducible apply fence1_keeps
   | with_reducible apply raise_keeps
   | with_reducible apply takeInjected_keeps
   | with_reducible refine keeps_ite (fun _ => ?_) (fun _ => ?_)

theorem decoderFrees_keeps {b : Dev} {x0 : Dev} {x1 : Nat} (hx0 : Keeps b x0) : Keeps b (Dev.decoderFrees x0 x1) := by
  unfold Dev.decoderFrees
  repeat' first
   | with_reducible assumption
   | extract_lets +onlyGivenNames x
   | with_reducible apply onOdr_keeps
   | with_reducible apply showPool_keeps

theorem dropLate_keeps {b : Dev} {x0 : Dev} {x1 : Nat} {x2 : Nat} (hx0 : Keeps b x0) : Keeps b (Dev.dropLate x0 x1 x2) := by
  unfold Dev.dropLate
  repeat' first
   | with_reducible assumption
   | (extract_lets +onlyGivenNames x; guard_hyp x : Dev := _; refine (fun (hx : Keeps b x) => ?_) ?_; rotate_left; unfold x; clear x; rotate_right; clear_value x)
   | (extract_lets +onlyGivenNames x; clear_value x)
   | extract_lets +onlyGivenNames x
   | with_reducible apply count_keeps
   | with_reducible apply onDrive_keeps
   | with_reducible apply onOdr_keeps
   | with_reducible apply raise_keeps
   | with_reducible apply sectorDone_keeps
   | with_reducible apply showPool_keeps
   | with_reducible apply takeInjected_keeps
   | with_reducible refine keeps_ite (fun _ => ?_) (fun _ => ?_)
   | split

theorem reconStart_keeps {b : Dev} {x0 : Dev} {x1 : Nat} {x2 : BrRead} (hx0 : Keeps b x0) : Keeps b (Dev.reconStart x0 x1 x2) := by
  unfold Dev.reconStart
  repeat' first
   | with_reducible assumption
   | (extract_lets +onlyGivenNames x; clear_value x)
   | extract_lets +onlyGivenNames x
   | with_reducible apply onOdr_keeps
   | with_reducible refine keeps_foldl ?_ (fun d x h => ?_)
   | split

theorem reconStep_keeps {b : Dev} {x0 : Dev} {x1 : Nat} (hx0 : Keeps b x0) : Keeps b (Dev.reconStep x0 x1) := by
  unfold Dev.reconStep
  repeat' first
   | with_reducible assumption
   | (generalize hp : Dev.rowLand _ _ _ _ _ = p; refine (fun (hk : KeepsT b p) => ?_) (keepsT_gen hp (rowLand_keeps ?_)); rotate_left; clear hp; clear p; rotate_right; clear hp; obtain ⟨y, w, z⟩ := p; replace hk : Keeps b z := hk; try dsimp -zeta only)
   | (extract_lets +onlyGivenNames x; guard_hyp x : Dev := _; refine (fun (hx : Keeps b x) => ?_) ?_; rotate_left; unfold x; clear x; rotate_right; clear_value x)
   | (extract_lets +onlyGivenNames x; clear_value x)
   | extract_lets +onlyGivenNames x
   | with_reducible apply count_keeps
   | with_reducible apply deliverRow_keeps
   | with_reducible apply onOdr_keeps
   | with_reducible apply raise_keeps
   | with_reducible apply reallocate_keeps
   | with_reducible apply takeInjected_keeps
   | with_reducible apply wr_keeps
   | with_reducible refine keeps_foldl ?_ (fun d x h => ?_)
   | with_reducible refine keeps_ite (fun _ => ?_) (fun _ => ?_)
   | split

theorem levelStart_keeps {b : Dev} {x0 : Dev} {x1 : Nat} {x2 : Nat} (hx0 : Keeps b x0) : Keeps b (Dev.levelStart x0 x1 x2) := by
  unfold Dev.levelStart
  repeat' first
   | with_reducible assumption
   | (generalize hp : Dev.freeStamp _ = p; refine (fun (hk : KeepsP b p) => ?_) (keepsP_gen hp (freeStamp_keeps ?_)); rotate_left; clear hp; clear p; rotate_right; clear hp; obtain ⟨y, z⟩ := p; replace hk : Keeps b z := hk; try dsimp -zeta only)
   | (extract_lets +onlyGivenNames x; guard_hyp x : Dev := _; refine (fun (hx : Keeps b x) => ?_) ?_; rotate_left; unfold x; clear x; rotate_right; clear_value x)
   | (extract_lets +onlyGivenNames x; clear_value x)
   | extract_lets +onlyGivenNames x
   | with_reducible apply aimRead_keeps
   | with_reducible apply ldpcAsk_keeps
   | with_reducible apply levelEnds_keeps
   | with_reducible apply passEnds_keeps
   | with_reducible apply putRead_keeps
   | with_reducible apply reconStart_keeps
   | with_reducible apply reconStep_keeps
   | with_reducible apply sendCfg_keeps
   | with_reducible apply tapsReset_keeps
   | with_reducible refine keeps_foldl ?_ (fun d x h => ?_)
   | with_reducible refine keeps_ite (fun _ => ?_) (fun _ => ?_)
   | split

theorem ladderTick_keeps {b : Dev} {x0 : Dev} {x1 : Nat} (hx0 : Keeps b x0) : Keeps b (Dev.ladderTick x0 x1) := by
  unfold Dev.ladderTick
  repeat' first
   | with_reducible assumption
   | (generalize hp : Dev.grantAll _ _ _ _ = p; refine (fun (hk : KeepsP b p) => ?_) (keepsP_gen hp (grantAll_keeps ?_)); rotate_left; clear hp; clear p; rotate_right; clear hp; obtain ⟨y, z⟩ := p; replace hk : Keeps b z := hk; try dsimp -zeta only)
   | (extract_lets +onlyGivenNames x; guard_hyp x : Dev := _; refine (fun (hx : Keeps b x) => ?_) ?_; rotate_left; unfold x; clear x; rotate_right; clear_value x)
   | (extract_lets +onlyGivenNames x; clear_value x)
   | extract_lets +onlyGivenNames x
   | with_reducible apply aimRead_keeps
   | with_reducible apply onDrive_keeps
   | with_reducible apply onOdr_keeps
   | with_reducible apply onSeq_keeps
   | with_reducible apply passEnds_keeps
   | with_reducible apply putRead_keeps
   | with_reducible apply reconStep_keeps
   | with_reducible apply srvTarget_keeps
   | with_reducible refine keeps_foldl ?_ (fun d x h => ?_)
   | with_reducible refine keeps_ite (fun _ => ?_) (fun _ => ?_)
   | split

theorem diskJobs_keeps {b : Dev} {x0 : Dev} (hx0 : Keeps b x0) : Keeps b (Dev.diskJobs x0) := by
  unfold Dev.diskJobs
  repeat' first
   | with_reducible assumption
   | (extract_lets +onlyGivenNames x; clear_value x)
   | extract_lets +onlyGivenNames x
   | with_reducible apply onOdr_keeps
   | with_reducible refine keeps_foldl ?_ (fun d x h => ?_)
   | with_reducible refine keeps_ite (fun _ => ?_) (fun _ => ?_)
   | split

theorem execLdpcDecodeStart_keeps {x0 : Nat} {x1 : State}  : Steps x1.dev x1 (execLdpcDecodeStart x0 x1) := by
  unfold execLdpcDecodeStart
  refine steps_run (fun d h => ?_)
  repeat' first
   | with_reducible assumption
   | extract_lets +onlyGivenNames x
   | with_reducible apply decodeStart_keeps

theorem execLdpcDecodeDone_keeps {x0 : Nat} {x1 : State}  : Steps x1.dev x1 (execLdpcDecodeDone x0 x1) := by
  unfold execLdpcDecodeDone
  refine steps_run (fun d h => ?_)
  repeat' first
   | with_reducible assumption
   | extract_lets +onlyGivenNames x
   | with_reducible apply decodeDone_keeps

theorem execRecoveryLevelStart_keeps {x0 : Nat} {x1 : Nat} {x2 : State}  : Steps x2.dev x2 (execRecoveryLevelStart x0 x1 x2) := by
  unfold execRecoveryLevelStart
  refine steps_run (fun d h => ?_)
  repeat' first
   | with_reducible assumption
   | extract_lets +onlyGivenNames x
   | with_reducible apply levelStart_keeps

end Sys2Proof.Machine
end

