-- ==== Sys2Proof/Laws/Keeps/Beam.lean ====
section
/-! SUPPORT. What every operation of Machine/Beam.lean keeps. -/
namespace Sys2Proof.Machine
open Sys2Proof

set_option linter.unusedTactic false
set_option linter.unreachableTactic false
set_option linter.tactic.unusedName false

theorem headFrameIn_keeps {b : Dev} {x0 : Dev} {x1 : Nat} {x2 : HeadIn} {x3 : Dev → Dev} (hx0 : Keeps b x0) (hx3 : ∀ d, Keeps b d → Keeps b (x3 d)) : Keeps b (Dev.headFrameIn x0 x1 x2 x3) := by
  unfold Dev.headFrameIn
  repeat' first
   | with_reducible assumption
   | (extract_lets +onlyGivenNames x; guard_hyp x : Dev := _; refine (fun (hx : Keeps b x) => ?_) ?_; rotate_left; unfold x; clear x; rotate_right; clear_value x)
   | (extract_lets +onlyGivenNames x; clear_value x)
   | extract_lets +onlyGivenNames x
   | with_reducible apply count_keeps
   | with_reducible apply raise_keeps
   | with_reducible apply takeInjected_keeps
   | with_reducible refine hx3 _ ?_
   | with_reducible refine keeps_ite (fun _ => ?_) (fun _ => ?_)

theorem headState_keeps {b : Dev} {x0 : Dev} {x1 : Nat} {x2 : Nat} (hx0 : Keeps b x0) : Keeps b (Dev.headState x0 x1 x2) := by
  unfold Dev.headState
  repeat' first
   | with_reducible assumption
   | (extract_lets +onlyGivenNames x; guard_hyp x : Dev := _; refine (fun (hx : Keeps b x) => ?_) ?_; rotate_left; unfold x; clear x; rotate_right; clear_value x)
   | extract_lets +onlyGivenNames x
   | with_reducible apply fence_keeps
   | with_reducible apply raise_keeps
   | with_reducible apply recAbort_keeps
   | with_reducible apply wr_keeps
   | with_reducible refine keeps_ite (fun _ => ?_) (fun _ => ?_)

theorem beamFails_keeps {b : Dev} {x0 : Dev} {x1 : Nat} {x2 : Nat} (hx0 : Keeps b x0) : Keeps b (Dev.beamFails x0 x1 x2) := by
  unfold Dev.beamFails
  repeat' first
   | with_reducible assumption
   | (extract_lets +onlyGivenNames x; clear_value x)
   | extract_lets +onlyGivenNames x
   | with_reducible apply sectorDone_keeps
   | with_reducible refine keeps_foldl ?_ (fun d x h => ?_)
   | with_reducible refine keeps_ite (fun _ => ?_) (fun _ => ?_)
   | split

theorem beamLost_keeps {b : Dev} {x0 : Dev} {x1 : Nat} {x2 : Nat} (hx0 : Keeps b x0) : Keeps b (Dev.beamLost x0 x1 x2) := by
  unfold Dev.beamLost
  repeat' first
   | with_reducible assumption
   | with_reducible refine fun (d : Dev) (h : Keeps b d) => ?_
   | (extract_lets +onlyGivenNames x; guard_hyp x : Dev := _; refine (fun (hx : Keeps b x) => ?_) ?_; rotate_left; unfold x; clear x; rotate_right; clear_value x)
   | (extract_lets +onlyGivenNames x; clear_value x)
   | with_reducible apply beamFails_keeps
   | with_reducible apply onDrive_keeps
   | with_reducible apply raise_keeps
   | with_reducible apply when_keeps
   | with_reducible apply wr_keeps

theorem headLost_keeps {b : Dev} {x0 : Dev} {x1 : Nat} (hx0 : Keeps b x0) : Keeps b (Dev.headLost x0 x1) := by
  unfold Dev.headLost
  repeat' first
   | with_reducible assumption
   | (extract_lets +onlyGivenNames x; guard_hyp x : Dev := _; refine (fun (hx : Keeps b x) => ?_) ?_; rotate_left; unfold x; clear x; rotate_right; clear_value x)
   | extract_lets +onlyGivenNames x
   | with_reducible apply beamFails_keeps
   | with_reducible apply count_keeps
   | with_reducible apply onDrive_keeps
   | with_reducible apply raise_keeps
   | with_reducible apply recAbort_keeps
   | with_reducible apply wr_keeps
   | with_reducible refine keeps_foldl ?_ (fun d x h => ?_)

theorem onBeam_keeps {b : Dev} {x0 : Dev} {x1 : Nat} {x2 : Nat} {x3 : Beam → Beam} (hx0 : Keeps b x0) : Keeps b (Dev.onBeam x0 x1 x2 x3) := by
  unfold Dev.onBeam
  repeat' first
   | with_reducible assumption
   | with_reducible apply onDrive_keeps

theorem fieldOf0_keeps {b : Dev} {x0 : Dev} {x1 : Nat} {x2 : Nat × Nat × Nat} (hx0 : Keeps b x0) : Keeps b (Dev.fieldOf0 x0 x1 x2) := by
  unfold Dev.fieldOf0
  repeat' first
   | with_reducible assumption
   | extract_lets +onlyGivenNames x
   | with_reducible apply onSrvDrive_keeps
   | with_reducible apply wr_keeps

theorem trackError_keeps {b : Dev} {x0 : Dev} {x1 : Nat} {x2 : Nat} {x3 : Nat} {x4 : Int} (hx0 : Keeps b x0) : Keeps b (Dev.trackError x0 x1 x2 x3 x4) := by
  unfold Dev.trackError
  repeat' first
   | with_reducible assumption
   | (extract_lets +onlyGivenNames x; guard_hyp x : Dev := _; refine (fun (hx : Keeps b x) => ?_) ?_; rotate_left; unfold x; clear x; rotate_right; clear_value x)
   | with_reducible apply guardSet_keeps
   | with_reducible apply onBeam_keeps

theorem burst_keeps {b : Dev} {x0 : Dev} {x1 : Nat} {x2 : Nat} {x3 : Nat} {x4 : Nat} {x5 : Nat} (hx0 : Keeps b x0) : Keeps b (Dev.burst x0 x1 x2 x3 x4 x5) := by
  unfold Dev.burst
  repeat' first
   | with_reducible assumption
   | extract_lets +onlyGivenNames x
   | with_reducible apply trackError_keeps
   | with_reducible refine keeps_ite (fun _ => ?_) (fun _ => ?_)

theorem placeRead_keeps {b : Dev} {x0 : Dev} {x1 : Nat} {x2 : Nat} {x3 : Nat} {x4 : Nat × Nat × Nat} {x5 : Nat} {x6 : Nat} (hx0 : Keeps b x0) : Keeps b (Dev.placeRead x0 x1 x2 x3 x4 x5 x6) := by
  unfold Dev.placeRead
  repeat' first
   | with_reducible assumption
   | (extract_lets +onlyGivenNames x; guard_hyp x : Dev := _; refine (fun (hx : Keeps b x) => ?_) ?_; rotate_left; unfold x; clear x; rotate_right; clear_value x)
   | (extract_lets +onlyGivenNames x; clear_value x)
   | extract_lets +onlyGivenNames x
   | with_reducible apply beamFails_keeps
   | with_reducible apply burst_keeps
   | with_reducible apply count_keeps
   | with_reducible apply fieldOf0_keeps
   | with_reducible apply onBeam_keeps
   | with_reducible apply onSeq_keeps
   | with_reducible apply raise_keeps
   | with_reducible apply trackError_keeps
   | with_reducible refine keeps_ite (fun _ => ?_) (fun _ => ?_)
   | split

theorem sectorPassed_keeps {b : Dev} {x0 : Dev} {x1 : Nat} {x2 : Nat} {x3 : Nat} {x4 : BrRead} {x5 : Nat} {x6 : Nat} {x7 : Nat} {x8 : Nat} (hx0 : Keeps b x0) : Keeps b (Dev.sectorPassed x0 x1 x2 x3 x4 x5 x6 x7 x8) := by
  unfold Dev.sectorPassed
  repeat' first
   | with_reducible assumption
   | with_reducible refine fun (d : Dev) (h : Keeps b d) => ?_
   | (extract_lets +onlyGivenNames x; guard_hyp x : Dev := _; refine (fun (hx : Keeps b x) => ?_) ?_; rotate_left; unfold x; clear x; rotate_right; clear_value x)
   | (extract_lets +onlyGivenNames x; clear_value x)
   | extract_lets +onlyGivenNames x
   | with_reducible apply countN_keeps
   | with_reducible apply count_keeps
   | with_reducible apply dropLate_keeps
   | with_reducible apply ldpcAsk_keeps
   | with_reducible apply onDrive_keeps
   | with_reducible apply raise_keeps
   | with_reducible apply sectorDone_keeps
   | with_reducible apply takeInjected_keeps
   | with_reducible apply when_keeps
   | with_reducible refine keeps_ite (fun _ => ?_) (fun _ => ?_)
   | split

theorem framePassed_keeps {b : Dev} {x0 : Dev} {x1 : Nat} {x2 : Nat} {x3 : Nat} {x4 : BeamFrame} (hx0 : Keeps b x0) : Keeps b (Dev.framePassed x0 x1 x2 x3 x4) := by
  unfold Dev.framePassed
  repeat' first
   | with_reducible assumption
   | (extract_lets +onlyGivenNames x; guard_hyp x : Dev := _; refine (fun (hx : Keeps b x) => ?_) ?_; rotate_left; unfold x; clear x; rotate_right; clear_value x)
   | (extract_lets +onlyGivenNames x; clear_value x)
   | extract_lets +onlyGivenNames x
   | with_reducible apply countN_keeps
   | with_reducible apply onBeam_keeps
   | with_reducible apply sectorPassed_keeps
   | with_reducible refine keeps_foldl ?_ (fun d x h => ?_)
   | with_reducible refine keeps_ite (fun _ => ?_) (fun _ => ?_)
   | split

theorem judgeField_keeps {b : Dev} {x0 : Dev} {x1 : Nat} {x2 : Nat} {x3 : Nat} (hx0 : Keeps b x0) : Keeps b (Dev.judgeField x0 x1 x2 x3) := by
  unfold Dev.judgeField
  repeat' first
   | with_reducible assumption
   | (extract_lets +onlyGivenNames x; guard_hyp x : Dev := _; refine (fun (hx : Keeps b x) => ?_) ?_; rotate_left; unfold x; clear x; rotate_right; clear_value x)
   | (extract_lets +onlyGivenNames x; clear_value x)
   | extract_lets +onlyGivenNames x
   | with_reducible apply beamLost_keeps
   | with_reducible apply count_keeps
   | with_reducible apply framePassed_keeps
   | with_reducible apply onBeam_keeps
   | with_reducible apply placeRead_keeps
   | with_reducible refine keeps_ite (fun _ => ?_) (fun _ => ?_)
   | split

theorem relock_keeps {b : Dev} {x0 : Dev} {x1 : Nat} {x2 : Nat} {x3 : Nat} (hx0 : Keeps b x0) : Keeps b (Dev.relock x0 x1 x2 x3) := by
  unfold Dev.relock
  repeat' first
   | with_reducible assumption
   | (extract_lets +onlyGivenNames x; guard_hyp x : Dev := _; refine (fun (hx : Keeps b x) => ?_) ?_; rotate_left; unfold x; clear x; rotate_right; clear_value x)
   | (extract_lets +onlyGivenNames x; clear_value x)
   | extract_lets +onlyGivenNames x
   | with_reducible apply onBeam_keeps
   | with_reducible apply placeRead_keeps
   | with_reducible apply wr_keeps
   | with_reducible refine keeps_ite (fun _ => ?_) (fun _ => ?_)

theorem bitIn_keeps {b : Dev} {x0 : Dev} {x1 : Nat} {x2 : Nat} {x3 : Nat} {x4 : ChBit} (hx0 : Keeps b x0) : Keeps b (Dev.bitIn x0 x1 x2 x3 x4) := by
  unfold Dev.bitIn
  repeat' first
   | with_reducible assumption
   | with_reducible refine fun (d : Dev) (h : Keeps b d) => ?_
   | (extract_lets +onlyGivenNames x; guard_hyp x : Dev := _; refine (fun (hx : Keeps b x) => ?_) ?_; rotate_left; unfold x; clear x; rotate_right; clear_value x)
   | (extract_lets +onlyGivenNames x; clear_value x)
   | extract_lets +onlyGivenNames x
   | with_reducible apply count_keeps
   | with_reducible apply judgeField_keeps
   | with_reducible apply onBeam_keeps
   | with_reducible apply relock_keeps
   | with_reducible apply when_keeps
   | with_reducible refine keeps_ite (fun _ => ?_) (fun _ => ?_)

theorem wordIn_keeps {b : Dev} {x0 : Dev} {x1 : Nat} {x2 : Nat} {x3 : Nat} {x4 : List Bool} (hx0 : Keeps b x0) : Keeps b (Dev.wordIn x0 x1 x2 x3 x4) := by
  unfold Dev.wordIn
  repeat' first
   | with_reducible assumption
   | (extract_lets +onlyGivenNames x; guard_hyp x : Dev := _; refine (fun (hx : Keeps b x) => ?_) ?_; rotate_left; unfold x; clear x; rotate_right; clear_value x)
   | (extract_lets +onlyGivenNames x; clear_value x)
   | extract_lets +onlyGivenNames x
   | with_reducible apply beamLost_keeps
   | with_reducible apply count_keeps
   | with_reducible apply framePassed_keeps
   | with_reducible apply onBeam_keeps
   | with_reducible apply placeRead_keeps
   | with_reducible apply wr_keeps
   | with_reducible refine keeps_ite (fun _ => ?_) (fun _ => ?_)
   | split

theorem gainIn_keeps {b : Dev} {x0 : Dev} {x1 : Nat} {x2 : Nat} {x3 : Nat} {x4 : Nat} (hx0 : Keeps b x0) : Keeps b (Dev.gainIn x0 x1 x2 x3 x4) := by
  unfold Dev.gainIn
  repeat' first
   | with_reducible assumption
   | (extract_lets +onlyGivenNames x; guard_hyp x : Dev := _; refine (fun (hx : Keeps b x) => ?_) ?_; rotate_left; unfold x; clear x; rotate_right; clear_value x)
   | (extract_lets +onlyGivenNames x; guard_hyp x : _ → _ := _; refine (fun (hl0 : ∀ (d0 : Dev) y1, Keeps b d0 → Keeps b (x d0 y1)) => ?_) ?_; rotate_left; unfold x; clear x; intro d0 y1 hd0; beta_reduce; rotate_right; clear_value x)
   | (extract_lets +onlyGivenNames x; clear_value x)
   | extract_lets +onlyGivenNames x
   | with_reducible apply count_keeps
   | with_reducible apply onBeam_keeps
   | with_reducible apply raise_keeps
   | with_reducible apply stepFree_keeps
   | with_reducible apply toHead_keeps
   | with_reducible refine hl0 _ _ ?_
   | with_reducible refine keeps_ite (fun _ => ?_) (fun _ => ?_)

theorem sampleGap_keeps {b : Dev} {x0 : Dev} {x1 : Nat} {x2 : Nat} {x3 : Nat} {x4 : Nat} (hx0 : Keeps b x0) : Keeps b (Dev.sampleGap x0 x1 x2 x3 x4) := by
  unfold Dev.sampleGap
  repeat' first
   | with_reducible assumption
   | (extract_lets +onlyGivenNames x; guard_hyp x : Dev := _; refine (fun (hx : Keeps b x) => ?_) ?_; rotate_left; unfold x; clear x; rotate_right; clear_value x)
   | (extract_lets +onlyGivenNames x; clear_value x)
   | extract_lets +onlyGivenNames x
   | with_reducible apply countN_keeps
   | with_reducible apply count_keeps
   | with_reducible apply judgeField_keeps
   | with_reducible apply onBeam_keeps
   | with_reducible apply raise_keeps
   | with_reducible refine keeps_foldl ?_ (fun d x h => ?_)
   | with_reducible refine keeps_ite (fun _ => ?_) (fun _ => ?_)

theorem adapt_keeps {b : Dev} {x0 : Dev} {x1 : Nat} {x2 : Nat} {x3 : SampleIn} (hx0 : Keeps b x0) : Keeps b (Dev.adapt x0 x1 x2 x3) := by
  unfold Dev.adapt
  repeat' first
   | with_reducible assumption
   | (extract_lets +onlyGivenNames x; clear_value x)
   | extract_lets +onlyGivenNames x
   | with_reducible apply onBeam_keeps
   | with_reducible refine keeps_ite (fun _ => ?_) (fun _ => ?_)

theorem showBeam_keeps {b : Dev} {x0 : Dev} {x1 : Nat} {x2 : Nat} (hx0 : Keeps b x0) : Keeps b (Dev.showBeam x0 x1 x2) := by
  unfold Dev.showBeam
  repeat' first
   | with_reducible assumption
   | (extract_lets +onlyGivenNames x; clear_value x)
   | extract_lets +onlyGivenNames x
   | with_reducible apply wr_keeps
   | with_reducible apply wrB_keeps

theorem sampleIn_keeps {b : Dev} {x0 : Dev} {x1 : SampleIn} (hx0 : Keeps b x0) : Keeps b (Dev.sampleIn x0 x1) := by
  unfold Dev.sampleIn
  repeat' first
   | with_reducible assumption
   | with_reducible refine fun (d : Dev) (h : Keeps b d) => ?_
   | (extract_lets +onlyGivenNames x; guard_hyp x : Dev := _; refine (fun (hx : Keeps b x) => ?_) ?_; rotate_left; unfold x; clear x; rotate_right; clear_value x)
   | (extract_lets +onlyGivenNames x; clear_value x)
   | extract_lets +onlyGivenNames x
   | with_reducible apply adapt_keeps
   | with_reducible apply beamLost_keeps
   | with_reducible apply bitIn_keeps
   | with_reducible apply burst_keeps
   | with_reducible apply gainIn_keeps
   | with_reducible apply headFrameIn_keeps
   | with_reducible apply onBeam_keeps
   | with_reducible apply sampleGap_keeps
   | with_reducible apply showBeam_keeps
   | with_reducible apply takeInjected_keeps
   | with_reducible apply wordIn_keeps
   | with_reducible refine keeps_foldl ?_ (fun d x h => ?_)
   | with_reducible refine keeps_ite (fun _ => ?_) (fun _ => ?_)
   | split

theorem servoIn_keeps {b : Dev} {x0 : Dev} {x1 : HeadIn} (hx0 : Keeps b x0) : Keeps b (Dev.servoIn x0 x1) := by
  unfold Dev.servoIn
  repeat' first
   | with_reducible assumption
   | with_reducible refine fun (d : Dev) (h : Keeps b d) => ?_
   | (extract_lets +onlyGivenNames x; guard_hyp x : Dev := _; refine (fun (hx : Keeps b x) => ?_) ?_; rotate_left; unfold x; clear x; rotate_right; clear_value x)
   | (extract_lets +onlyGivenNames x; clear_value x)
   | with_reducible apply guardSet_keeps
   | with_reducible apply headFrameIn_keeps
   | with_reducible apply headState_keeps
   | with_reducible apply onDrive_keeps

theorem statusIn_keeps {b : Dev} {x0 : Dev} {x1 : HeadIn} (hx0 : Keeps b x0) : Keeps b (Dev.statusIn x0 x1) := by
  unfold Dev.statusIn
  repeat' first
   | with_reducible assumption
   | with_reducible refine fun (d : Dev) (h : Keeps b d) => ?_
   | (extract_lets +onlyGivenNames x; guard_hyp x : Dev := _; refine (fun (hx : Keeps b x) => ?_) ?_; rotate_left; unfold x; clear x; rotate_right; clear_value x)
   | (extract_lets +onlyGivenNames x; clear_value x)
   | extract_lets +onlyGivenNames x
   | with_reducible apply headFrameIn_keeps
   | with_reducible apply headState_keeps
   | with_reducible apply raise_keeps
   | with_reducible apply takeInjected_keeps
   | with_reducible apply when_keeps
   | with_reducible apply wr_keeps

theorem execSampleFrame_keeps {x0 : SampleIn} {x1 : State}  : Steps x1.dev x1 (execSampleFrame x0 x1) := by
  unfold execSampleFrame
  refine steps_run (fun d h => ?_)
  repeat' first
   | with_reducible assumption
   | extract_lets +onlyGivenNames x
   | with_reducible apply sampleIn_keeps

theorem execServoFrame_keeps {x0 : HeadIn} {x1 : State}  : Steps x1.dev x1 (execServoFrame x0 x1) := by
  unfold execServoFrame
  refine steps_run (fun d h => ?_)
  repeat' first
   | with_reducible assumption
   | extract_lets +onlyGivenNames x
   | with_reducible apply servoIn_keeps

theorem execStatusFrame_keeps {x0 : HeadIn} {x1 : State}  : Steps x1.dev x1 (execStatusFrame x0 x1) := by
  unfold execStatusFrame
  refine steps_run (fun d h => ?_)
  repeat' first
   | with_reducible assumption
   | extract_lets +onlyGivenNames x
   | with_reducible apply statusIn_keeps

end Sys2Proof.Machine
end

