-- ==== Sys2Proof/Laws/Keeps/Calib.lean ====
section
/-! SUPPORT. What every operation of Machine/Calib.lean keeps. -/
namespace Sys2Proof.Machine
open Sys2Proof

set_option linter.unusedTactic false
set_option linter.unreachableTactic false
set_option linter.tactic.unusedName false

theorem showCal_keeps {b : Dev} {x0 : Dev} {x1 : Nat} (hx0 : Keeps b x0) : Keeps b (Dev.showCal x0 x1) := by
  unfold Dev.showCal
  repeat' first
   | with_reducible assumption
   | (extract_lets +onlyGivenNames x; guard_hyp x : Dev := _; refine (fun (hx : Keeps b x) => ?_) ?_; rotate_left; unfold x; clear x; rotate_right; clear_value x)
   | (extract_lets +onlyGivenNames x; clear_value x)
   | extract_lets +onlyGivenNames x
   | with_reducible apply wr_keeps

theorem calOutcome_keeps {b : Dev} {x0 : Dev} {x1 : Nat} {x2 : Nat} {x3 : Nat} (hx0 : Keeps b x0) : Keeps b (Dev.calOutcome x0 x1 x2 x3) := by
  unfold Dev.calOutcome
  repeat' first
   | with_reducible assumption
   | extract_lets +onlyGivenNames x
   | with_reducible apply showCal_keeps
   | with_reducible apply wr_keeps

theorem calStops_keeps {b : Dev} {x0 : Dev} {x1 : Nat} {x2 : Nat} {x3 : Nat} (hx0 : Keeps b x0) : Keeps b (Dev.calStops x0 x1 x2 x3) := by
  unfold Dev.calStops
  repeat' first
   | with_reducible assumption
   | with_reducible refine fun (d : Dev) (h : Keeps b d) => ?_
   | (extract_lets +onlyGivenNames x; guard_hyp x : Dev := _; refine (fun (hx : Keeps b x) => ?_) ?_; rotate_left; unfold x; clear x; rotate_right; clear_value x)
   | extract_lets +onlyGivenNames x
   | with_reducible apply calOutcome_keeps
   | with_reducible apply count_keeps
   | with_reducible apply onCal_keeps
   | with_reducible apply onOdr_keeps
   | with_reducible apply raise_keeps
   | with_reducible apply when_keeps
   | with_reducible refine keeps_ite (fun _ => ?_) (fun _ => ?_)

theorem calQueue_keeps {b : Dev} {x0 : Dev} {x1 : Nat} {x2 : Nat} {x3 : Nat} (hx0 : Keeps b x0) : Keeps b (Dev.calQueue x0 x1 x2 x3) := by
  unfold Dev.calQueue
  repeat' first
   | with_reducible assumption
   | extract_lets +onlyGivenNames x
   | with_reducible apply countIgnored_keeps
   | with_reducible apply onCal_keeps
   | with_reducible apply showCal_keeps
   | with_reducible refine keeps_ite (fun _ => ?_) (fun _ => ?_)

theorem calAbort_keeps {b : Dev} {x0 : Dev} {x1 : Nat} (hx0 : Keeps b x0) : Keeps b (Dev.calAbort x0 x1) := by
  unfold Dev.calAbort
  repeat' first
   | with_reducible assumption
   | extract_lets +onlyGivenNames x
   | with_reducible apply calStops_keeps
   | with_reducible apply countIgnored_keeps
   | with_reducible refine keeps_ite (fun _ => ?_) (fun _ => ?_)

theorem calRunWrite_keeps {b : Dev} {x0 : Dev} {x1 : Nat} (hx0 : Keeps b x0) : Keeps b (Dev.calRunWrite x0 x1) := by
  unfold Dev.calRunWrite
  repeat' first
   | with_reducible assumption
   | extract_lets +onlyGivenNames x
   | with_reducible apply calQueue_keeps
   | with_reducible apply countIgnored_keeps
   | with_reducible refine keeps_ite (fun _ => ?_) (fun _ => ?_)

theorem calAbortWrite_keeps {b : Dev} {x0 : Dev} {x1 : Nat} (hx0 : Keeps b x0) : Keeps b (Dev.calAbortWrite x0 x1) := by
  unfold Dev.calAbortWrite
  repeat' first
   | with_reducible assumption
   | extract_lets +onlyGivenNames x
   | with_reducible apply calAbort_keeps
   | with_reducible apply countIgnored_keeps
   | with_reducible refine keeps_ite (fun _ => ?_) (fun _ => ?_)

theorem calWant_keeps {b : Dev} {x0 : Dev} {x1 : Nat} {x2 : Nat} {x3 : Nat} {x4 : Nat} {x5 : Nat} {x6 : Nat} (hx0 : Keeps b x0) : Keeps b (Dev.calWant x0 x1 x2 x3 x4 x5 x6) := by
  unfold Dev.calWant
  repeat' first
   | with_reducible assumption
   | (extract_lets +onlyGivenNames x; clear_value x)
   | with_reducible apply onOdr_keeps
   | split

theorem calRecord_keeps {b : Dev} {x0 : Dev} {x1 : Nat} {x2 : Nat} {x3 : Nat} {x4 : Nat} (hx0 : Keeps b x0) : Keeps b (Dev.calRecord x0 x1 x2 x3 x4) := by
  unfold Dev.calRecord
  repeat' first
   | with_reducible assumption
   | (extract_lets +onlyGivenNames x; clear_value x)
   | with_reducible apply onOdr_keeps
   | with_reducible refine keeps_foldl ?_ (fun d x h => ?_)

theorem calPoint_keeps {b : Dev} {x0 : Dev} {x1 : CalRun} (hx0 : Keeps b x0) : Keeps b (Dev.calPoint x0 x1) := by
  unfold Dev.calPoint
  repeat' first
   | with_reducible assumption
   | (extract_lets +onlyGivenNames x; clear_value x)
   | extract_lets +onlyGivenNames x
   | with_reducible apply calRecord_keeps
   | with_reducible apply calWant_keeps
   | with_reducible apply srvTarget_keeps
   | with_reducible apply tablesDue_keeps
   | split

theorem calStart_keeps {b : Dev} {x0 : Dev} {x1 : Nat} (hx0 : Keeps b x0) : Keeps b (Dev.calStart x0 x1) := by
  unfold Dev.calStart
  repeat' first
   | with_reducible assumption
   | (extract_lets +onlyGivenNames x; guard_hyp x : Dev := _; refine (fun (hx : Keeps b x) => ?_) ?_; rotate_left; unfold x; clear x; rotate_right; clear_value x)
   | (extract_lets +onlyGivenNames x; clear_value x)
   | extract_lets +onlyGivenNames x
   | with_reducible apply calPoint_keeps
   | with_reducible apply calStops_keeps
   | with_reducible apply onCal_keeps
   | with_reducible apply showCal_keeps
   | with_reducible refine keeps_ite (fun _ => ?_) (fun _ => ?_)
   | split

theorem calDone_keeps {b : Dev} {x0 : Dev} {x1 : CalRun} {x2 : List CalField} (hx0 : Keeps b x0) : Keeps b (Dev.calDone x0 x1 x2) := by
  unfold Dev.calDone
  repeat' first
   | with_reducible assumption
   | with_reducible exact fun _ => Nat.le_refl _
   | (extract_lets +onlyGivenNames x; guard_hyp x : Dev := _; refine (fun (hx : Keeps b x) => ?_) ?_; rotate_left; unfold x; clear x; rotate_right; clear_value x)
   | (extract_lets +onlyGivenNames x; guard_hyp x : _ → _ := _; refine (fun (hf : ∀ d y0 y1, Keeps b d → Keeps b (x d y0 y1)) => ?_) ?_; rotate_left; unfold x; clear x; intro d y0 y1 h; beta_reduce; rotate_right; clear_value x)
   | (extract_lets +onlyGivenNames x; clear_value x)
   | extract_lets +onlyGivenNames x
   | with_reducible apply calOutcome_keeps
   | with_reducible apply count_keeps
   | with_reducible apply mramPut_keeps
   | with_reducible apply onCal_keeps
   | with_reducible apply put64_keeps
   | with_reducible apply wr_keeps
   | with_reducible refine hf _ _ _ ?_
   | with_reducible refine keeps_foldl ?_ (fun d x h => ?_)

theorem calJudge_keeps {b : Dev} {x0 : Dev} {x1 : CalRun} {x2 : List Int} (hx0 : Keeps b x0) : Keeps b (Dev.calJudge x0 x1 x2) := by
  unfold Dev.calJudge
  repeat' first
   | with_reducible assumption
   | (extract_lets +onlyGivenNames x; clear_value x)
   | extract_lets +onlyGivenNames x
   | with_reducible apply calDone_keeps
   | with_reducible apply calStops_keeps
   | with_reducible refine keeps_ite (fun _ => ?_) (fun _ => ?_)

theorem calPass_keeps {b : Dev} {x0 : Dev} {x1 : CalRun} {x2 : List Int} (hx0 : Keeps b x0) : Keeps b (Dev.calPass x0 x1 x2) := by
  unfold Dev.calPass
  repeat' first
   | with_reducible assumption
   | (extract_lets +onlyGivenNames x; clear_value x)
   | extract_lets +onlyGivenNames x
   | with_reducible apply calJudge_keeps
   | with_reducible apply calPoint_keeps
   | with_reducible apply calStops_keeps
   | with_reducible apply onCal_keeps
   | with_reducible refine keeps_ite (fun _ => ?_) (fun _ => ?_)

theorem calMeasured_keeps {b : Dev} {x0 : Dev} {x1 : Nat} {x2 : List (List Int)} (hx0 : Keeps b x0) : Keeps b (Dev.calMeasured x0 x1 x2) := by
  unfold Dev.calMeasured
  repeat' first
   | with_reducible assumption
   | extract_lets +onlyGivenNames x
   | with_reducible apply calJudge_keeps
   | with_reducible apply calPass_keeps
   | with_reducible apply calStops_keeps
   | with_reducible refine keeps_ite (fun _ => ?_) (fun _ => ?_)
   | split

theorem calTap_keeps {b : Dev} {x0 : Dev} {x1 : Nat} {x2 : List CalField} (hx0 : Keeps b x0) : Keeps b (Dev.calTap x0 x1 x2) := by
  unfold Dev.calTap
  repeat' first
   | with_reducible assumption
   | (extract_lets +onlyGivenNames x; guard_hyp x : Dev := _; refine (fun (hx : Keeps b x) => ?_) ?_; rotate_left; unfold x; clear x; rotate_right; clear_value x)
   | (extract_lets +onlyGivenNames x; clear_value x)
   | extract_lets +onlyGivenNames x
   | with_reducible apply count_keeps
   | with_reducible apply onCal_keeps
   | with_reducible apply showCal_keeps
   | with_reducible apply tablesDue_keeps
   | with_reducible apply wr_keeps
   | with_reducible refine keeps_ite (fun _ => ?_) (fun _ => ?_)
   | split

theorem tapOverrun_keeps {b : Dev} {x0 : Dev} {x1 : Nat} (hx0 : Keeps b x0) : Keeps b (Dev.tapOverrun x0 x1) := by
  unfold Dev.tapOverrun
  repeat' first
   | with_reducible assumption
   | extract_lets +onlyGivenNames x
   | with_reducible apply count_keeps
   | with_reducible apply onCal_keeps
   | with_reducible apply raise_keeps
   | with_reducible refine keeps_ite (fun _ => ?_) (fun _ => ?_)

theorem calTick_keeps {b : Dev} {x0 : Dev} (hx0 : Keeps b x0) : Keeps b (Dev.calTick x0) := by
  unfold Dev.calTick
  repeat' first
   | with_reducible assumption
   | (extract_lets +onlyGivenNames x; guard_hyp x : Dev := _; refine (fun (hx : Keeps b x) => ?_) ?_; rotate_left; unfold x; clear x; rotate_right; clear_value x)
   | (extract_lets +onlyGivenNames x; clear_value x)
   | extract_lets +onlyGivenNames x
   | with_reducible apply calPoint_keeps
   | with_reducible apply calStops_keeps
   | with_reducible apply calTap_keeps
   | with_reducible apply onCal_keeps
   | with_reducible refine keeps_foldl ?_ (fun d x h => ?_)
   | with_reducible refine keeps_ite (fun _ => ?_) (fun _ => ?_)

theorem vrefCheck_keeps {b : Dev} {x0 : Dev} {x1 : Nat} (hx0 : Keeps b x0) : Keeps b (Dev.vrefCheck x0 x1) := by
  unfold Dev.vrefCheck
  repeat' first
   | with_reducible assumption
   | extract_lets +onlyGivenNames x
   | with_reducible apply wr_keeps
   | with_reducible apply wrB_keeps

theorem calRequired_keeps {b : Dev} {x0 : Dev} {x1 : Nat} (hx0 : Keeps b x0) : Keeps b (Dev.calRequired x0 x1) := by
  unfold Dev.calRequired
  repeat' first
   | with_reducible assumption
   | with_reducible exact fun _ => Nat.le_refl _
   | (extract_lets +onlyGivenNames x; guard_hyp x : Dev := _; refine (fun (hx : Keeps b x) => ?_) ?_; rotate_left; unfold x; clear x; rotate_right; clear_value x)
   | (extract_lets +onlyGivenNames x; clear_value x)
   | with_reducible apply mramPut_keeps
   | with_reducible apply wr_keeps
   | with_reducible refine keeps_foldl ?_ (fun d x h => ?_)

theorem execCalRun_keeps {x0 : Nat} {x1 : State}  : Steps x1.dev x1 (execCalRun x0 x1) := by
  unfold execCalRun
  refine steps_run (fun d h => ?_)
  repeat' first
   | with_reducible assumption
   | extract_lets +onlyGivenNames x
   | with_reducible apply asWrite_keeps
   | with_reducible apply calRunWrite_keeps
   | intro m

theorem execCalRunAbort_keeps {x0 : Nat} {x1 : State}  : Steps x1.dev x1 (execCalRunAbort x0 x1) := by
  unfold execCalRunAbort
  refine steps_run (fun d h => ?_)
  repeat' first
   | with_reducible assumption
   | extract_lets +onlyGivenNames x
   | with_reducible apply asWrite_keeps
   | with_reducible apply calAbortWrite_keeps
   | intro m

theorem execCalMeasureStart_keeps {x0 : Nat} {x1 : State}  : Steps x1.dev x1 (execCalMeasureStart x0 x1) := by
  unfold execCalMeasureStart
  refine steps_run (fun d h => ?_)
  repeat' first
   | with_reducible assumption
   | extract_lets +onlyGivenNames x
   | with_reducible apply calStart_keeps

theorem execCalMeasureDone_keeps {x0 : Nat} {x1 : List (List Int)} {x2 : State}  : Steps x2.dev x2 (execCalMeasureDone x0 x1 x2) := by
  unfold execCalMeasureDone
  refine steps_run (fun d h => ?_)
  repeat' first
   | with_reducible assumption
   | extract_lets +onlyGivenNames x
   | with_reducible apply calMeasured_keeps

theorem execVrefcalCheck_keeps {x0 : Nat} {x1 : State}  : Steps x1.dev x1 (execVrefcalCheck x0 x1) := by
  unfold execVrefcalCheck
  refine steps_run (fun d h => ?_)
  repeat' first
   | with_reducible assumption
   | extract_lets +onlyGivenNames x
   | with_reducible apply vrefCheck_keeps

end Sys2Proof.Machine
end

