-- ==== Sys2Proof/Laws/Keeps/FlashSys.lean ====
section
/-! SUPPORT. What every operation of Machine/FlashSys.lean keeps. -/
namespace Sys2Proof.Machine
open Sys2Proof

set_option linter.unusedTactic false
set_option linter.unreachableTactic false
set_option linter.tactic.unusedName false

theorem setDegrade_keeps {b : Dev} {x0 : Dev} {x1 : Nat} {x2 : List Nat} {x3 : Nat} (hx0 : Keeps b x0) : Keeps b (Dev.setDegrade x0 x1 x2 x3) := by
  unfold Dev.setDegrade
  repeat' first
   | with_reducible assumption
   | (extract_lets +onlyGivenNames x; clear_value x)
   | extract_lets +onlyGivenNames x
   | with_reducible apply raise_keeps
   | with_reducible apply wr_keeps
   | with_reducible refine keeps_ite (fun _ => ?_) (fun _ => ?_)

theorem lostClear_keeps {b : Dev} {x0 : Dev} (hx0 : Keeps b x0) : Keeps b (Dev.lostClear x0) := by
  unfold Dev.lostClear
  repeat' first
   | with_reducible assumption
   | (extract_lets +onlyGivenNames x; guard_hyp x : Dev := _; refine (fun (hx : Keeps b x) => ?_) ?_; rotate_left; unfold x; clear x; rotate_right; clear_value x)
   | (extract_lets +onlyGivenNames x; clear_value x)
   | extract_lets +onlyGivenNames x
   | with_reducible apply onSfl_keeps
   | with_reducible apply sjClear_keeps
   | with_reducible apply wr_keeps
   | with_reducible refine keeps_foldl ?_ (fun d x h => ?_)
   | with_reducible refine keeps_ite (fun _ => ?_) (fun _ => ?_)

theorem closeUsing_keeps {b : Dev} {x0 : Dev} {x1 : List Nat} {x2 : optParam Bool Bool.false} (hx0 : Keeps b x0) : Keeps b (Dev.closeUsing x0 x1 x2) := by
  unfold Dev.closeUsing
  repeat' first
   | with_reducible assumption
   | (extract_lets +onlyGivenNames x; guard_hyp x : Dev := _; refine (fun (hx : Keeps b x) => ?_) ?_; rotate_left; unfold x; clear x; rotate_right; clear_value x)
   | (extract_lets +onlyGivenNames x; clear_value x)
   | extract_lets +onlyGivenNames x
   | with_reducible apply closeRow_keeps
   | with_reducible apply endStripe_keeps
   | with_reducible apply onSfl_keeps
   | with_reducible apply onStripe_keeps
   | with_reducible apply padStripe_keeps
   | with_reducible apply rewrite_keeps
   | with_reducible apply startParity_keeps
   | with_reducible apply stripeAdd_keeps
   | with_reducible refine keeps_foldl ?_ (fun d x h => ?_)
   | with_reducible refine keeps_ite (fun _ => ?_) (fun _ => ?_)

theorem reshapeAbandon_keeps {b : Dev} {x0 : Dev} {x1 : Nat} (hx0 : Keeps b x0) : Keeps b (Dev.reshapeAbandon x0 x1) := by
  unfold Dev.reshapeAbandon
  repeat' first
   | with_reducible assumption
   | (extract_lets +onlyGivenNames x; guard_hyp x : Dev := _; refine (fun (hx : Keeps b x) => ?_) ?_; rotate_left; unfold x; clear x; rotate_right; clear_value x)
   | (extract_lets +onlyGivenNames x; clear_value x)
   | extract_lets +onlyGivenNames x
   | with_reducible apply closeRow_keeps
   | with_reducible apply onPar_keeps
   | with_reducible apply onSfl_keeps
   | with_reducible apply raise_keeps
   | with_reducible apply sjClear_keeps
   | with_reducible apply wr_keeps
   | with_reducible refine keeps_foldl ?_ (fun d x h => ?_)
   | split

theorem lunsLost_keeps {b : Dev} {x0 : Dev} {x1 : Nat} {x2 : Nat} {x3 : Nat} {x4 : Nat} {x5 : List Nat} (hx0 : Keeps b x0) : Keeps b (Dev.lunsLost x0 x1 x2 x3 x4 x5) := by
  unfold Dev.lunsLost
  repeat' first
   | with_reducible assumption
   | (generalize hp : Dev.sjNew _ _ = p; refine (fun (hk : KeepsP b p) => ?_) (keepsP_gen hp (sjNew_keeps ?_)); rotate_left; clear hp; clear p; rotate_right; clear hp; obtain ⟨y, z⟩ := p; replace hk : Keeps b z := hk; try dsimp -zeta only)
   | (extract_lets +onlyGivenNames x; guard_hyp x : Dev := _; refine (fun (hx : Keeps b x) => ?_) ?_; rotate_left; unfold x; clear x; rotate_right; clear_value x)
   | (extract_lets +onlyGivenNames x; clear_value x)
   | extract_lets +onlyGivenNames x
   | with_reducible apply closeUsing_keeps
   | with_reducible apply lostClear_keeps
   | with_reducible apply onSfl_keeps
   | with_reducible apply raise_keeps
   | with_reducible apply reshapeAbandon_keeps
   | with_reducible apply setDegrade_keeps
   | with_reducible refine keeps_foldl ?_ (fun d x h => ?_)
   | with_reducible refine keeps_ite (fun _ => ?_) (fun _ => ?_)

theorem channelLost_keeps {b : Dev} {x0 : Dev} {x1 : Nat} {x2 : Nat} (hx0 : Keeps b x0) : Keeps b (Dev.channelLost x0 x1 x2) := by
  unfold Dev.channelLost
  repeat' first
   | with_reducible assumption
   | with_reducible apply lunsLost_keeps

theorem bringUpCe_keeps {b : Dev} {x0 : Dev} {x1 : Nat} {x2 : CeProbe} (hx0 : Keeps b x0) : Keeps b (Dev.bringUpCe x0 x1 x2) := by
  unfold Dev.bringUpCe
  repeat' first
   | with_reducible assumption
   | with_reducible exact fun _ => Nat.le_refl _
   | (extract_lets +onlyGivenNames x; guard_hyp x : Dev := _; refine (fun (hx : Keeps b x) => ?_) ?_; rotate_left; unfold x; clear x; rotate_right; clear_value x)
   | (extract_lets +onlyGivenNames x; clear_value x)
   | extract_lets +onlyGivenNames x
   | with_reducible apply mramPut_keeps
   | with_reducible apply raise_keeps
   | with_reducible apply takeInjected_keeps
   | with_reducible apply wr_keeps
   | with_reducible refine keeps_ite (fun _ => ?_) (fun _ => ?_)
   | split

theorem moreBufs_keeps {b : Dev} {x0 : Dev} {x1 : List Nat} {x2 : Nat} (hx0 : Keeps b x0) : KeepsP b (Dev.moreBufs x0 x1 x2) := by
  unfold Dev.moreBufs
  repeat' first
   | with_reducible assumption
   | (generalize hp : Dev.grantMany _ _ _ _ = p; refine (fun (hk : KeepsP b p) => ?_) (keepsP_gen hp (grantMany_keeps ?_)); rotate_left; clear hp; clear p; rotate_right; clear hp; obtain ⟨y, z⟩ := p; replace hk : Keeps b z := hk; try dsimp -zeta only)
   | with_reducible refine keepsP_mk ?_

theorem tablesGrant_keeps {b : Dev} {x0 : Dev} (hx0 : Keeps b x0) : Keeps b (Dev.tablesGrant x0) := by
  unfold Dev.tablesGrant
  repeat' first
   | with_reducible assumption
   | (generalize hp : Dev.moreBufs _ _ _ = p; refine (fun (hk : KeepsP b p) => ?_) (keepsP_gen hp (moreBufs_keeps ?_)); rotate_left; clear hp; clear p; rotate_right; clear hp; obtain ⟨y, z⟩ := p; replace hk : Keeps b z := hk; try dsimp -zeta only)
   | (extract_lets +onlyGivenNames x; guard_hyp x : Dev := _; refine (fun (hx : Keeps b x) => ?_) ?_; rotate_left; unfold x; clear x; rotate_right; clear_value x)
   | (extract_lets +onlyGivenNames x; clear_value x)
   | extract_lets +onlyGivenNames x
   | with_reducible apply onSfl_keeps
   | with_reducible apply rowsBuild_keeps
   | with_reducible apply wr_keeps
   | with_reducible refine keeps_foldl ?_ (fun d x h => ?_)
   | with_reducible refine keeps_ite (fun _ => ?_) (fun _ => ?_)

theorem tablesRetry_keeps {b : Dev} {x0 : Dev} (hx0 : Keeps b x0) : Keeps b (Dev.tablesRetry x0) := by
  unfold Dev.tablesRetry
  repeat' first
   | with_reducible assumption
   | extract_lets +onlyGivenNames x
   | with_reducible apply tablesGrant_keeps
   | with_reducible refine keeps_ite (fun _ => ?_) (fun _ => ?_)

theorem tableFree_keeps {b : Dev} {x0 : Dev} {x1 : Nat} (hx0 : Keeps b x0) : Keeps b (Dev.tableFree x0 x1) := by
  unfold Dev.tableFree
  repeat' first
   | with_reducible assumption
   | extract_lets +onlyGivenNames x
   | with_reducible apply freeBuf_keeps
   | with_reducible apply onSfl_keeps
   | with_reducible refine keeps_foldl ?_ (fun d x h => ?_)

theorem channelTrained_keeps {b : Dev} {x0 : Dev} {x1 : Nat} {x2 : Bool} {x3 : List CeProbe} (hx0 : Keeps b x0) : Keeps b (Dev.channelTrained x0 x1 x2 x3) := by
  unfold Dev.channelTrained
  repeat' first
   | with_reducible assumption
   | with_reducible refine fun (d : Dev) (h : Keeps b d) => ?_
   | (extract_lets +onlyGivenNames x; guard_hyp x : Dev := _; refine (fun (hx : Keeps b x) => ?_) ?_; rotate_left; unfold x; clear x; rotate_right; clear_value x)
   | (extract_lets +onlyGivenNames x; clear_value x)
   | extract_lets +onlyGivenNames x
   | with_reducible apply bringUpCe_keeps
   | with_reducible apply fence_keeps
   | with_reducible apply onSfl_keeps
   | with_reducible apply raise_keeps
   | with_reducible apply setUnit_keeps
   | with_reducible apply tablesGrant_keeps
   | with_reducible apply takeInjected_keeps
   | with_reducible apply when_keeps
   | with_reducible apply wr_keeps
   | with_reducible refine keeps_foldl ?_ (fun d x h => ?_)
   | with_reducible refine keeps_ite (fun _ => ?_) (fun _ => ?_)

theorem lunFail_keeps {b : Dev} {x0 : Dev} {x1 : Nat} {x2 : Nat} {x3 : Nat} (hx0 : Keeps b x0) : Keeps b (Dev.lunFail x0 x1 x2 x3) := by
  unfold Dev.lunFail
  repeat' first
   | with_reducible assumption
   | (extract_lets +onlyGivenNames x; clear_value x)
   | extract_lets +onlyGivenNames x
   | with_reducible apply fence1_keeps
   | with_reducible apply raise_keeps

theorem flashTimeout_keeps {b : Dev} {x0 : Dev} {x1 : Nat} (hx0 : Keeps b x0) : Keeps b (Dev.flashTimeout x0 x1) := by
  unfold Dev.flashTimeout
  repeat' first
   | with_reducible assumption
   | (extract_lets +onlyGivenNames x; guard_hyp x : Dev := _; refine (fun (hx : Keeps b x) => ?_) ?_; rotate_left; unfold x; clear x; rotate_right; clear_value x)
   | (extract_lets +onlyGivenNames x; clear_value x)
   | extract_lets +onlyGivenNames x
   | with_reducible apply count_keeps
   | with_reducible apply lunFail_keeps
   | with_reducible apply onSfl_keeps
   | with_reducible apply progDone_keeps
   | with_reducible apply raise_keeps
   | with_reducible apply readDone_keeps
   | with_reducible apply takeInjected_keeps
   | with_reducible refine keeps_ite (fun _ => ?_) (fun _ => ?_)

theorem gcSelect_keeps {b : Dev} {x0 : Dev} {x1 : Nat} (hx0 : Keeps b x0) : Keeps b (Dev.gcSelect x0 x1) := by
  unfold Dev.gcSelect
  repeat' first
   | with_reducible assumption
   | extract_lets +onlyGivenNames x
   | with_reducible apply onSfl_keeps
   | with_reducible apply sourceRow_keeps
   | with_reducible apply wr_keeps
   | with_reducible refine keeps_ite (fun _ => ?_) (fun _ => ?_)
   | split

theorem moveNext_keeps {b : Dev} {x0 : Dev} {x1 : Nat} {x2 : JobFor} (hx0 : Keeps b x0) : KeepsP b (Dev.moveNext x0 x1 x2) := by
  unfold Dev.moveNext
  repeat' first
   | with_reducible assumption
   | (generalize hp : Dev.addJob _ _ = p; refine (fun (hk : KeepsP b p) => ?_) (keepsP_gen hp (addJob_keeps ?_)); rotate_left; clear hp; clear p; rotate_right; clear hp; obtain ⟨y, z⟩ := p; replace hk : Keeps b z := hk; try dsimp -zeta only)
   | (extract_lets +onlyGivenNames x; guard_hyp x : Dev := _; refine (fun (hx : Keeps b x) => ?_) ?_; rotate_left; unfold x; clear x; rotate_right; clear_value x)
   | (extract_lets +onlyGivenNames x; clear_value x)
   | extract_lets +onlyGivenNames x
   | with_reducible apply ckptStart_keeps
   | with_reducible apply lookPage_keeps
   | with_reducible apply mapWriteOut_keeps
   | with_reducible refine keepsP_ite (fun _ => ?_) (fun _ => ?_)
   | split
   | with_reducible refine keepsP_mk ?_

theorem gcCopy_keeps {b : Dev} {x0 : Dev} {x1 : Nat} (hx0 : Keeps b x0) : Keeps b (Dev.gcCopy x0 x1) := by
  unfold Dev.gcCopy
  repeat' first
   | with_reducible assumption
   | (generalize hp : Dev.moveNext _ _ _ = p; refine (fun (hk : KeepsP b p) => ?_) (keepsP_gen hp (moveNext_keeps ?_)); rotate_left; clear hp; clear p; rotate_right; clear hp; obtain ⟨y, z⟩ := p; replace hk : Keeps b z := hk; try dsimp -zeta only)
   | extract_lets +onlyGivenNames x
   | with_reducible refine keeps_ite (fun _ => ?_) (fun _ => ?_)
   | split

theorem eraseStart_keeps {b : Dev} {x0 : Dev} {x1 : Nat} (hx0 : Keeps b x0) : Keeps b (Dev.eraseStart x0 x1) := by
  unfold Dev.eraseStart
  repeat' first
   | with_reducible assumption
   | (generalize hp : Dev.journal _ _ _ _ _ _ = p; refine (fun (hk : KeepsP b p) => ?_) (keepsP_gen hp (journal_keeps ?_)); rotate_left; clear hp; clear p; rotate_right; clear hp; obtain ⟨y, z⟩ := p; replace hk : Keeps b z := hk; try dsimp -zeta only)
   | extract_lets +onlyGivenNames x
   | with_reducible apply onRow_keeps
   | with_reducible refine keeps_ite (fun _ => ?_) (fun _ => ?_)

theorem dropBack_keeps {b : Dev} {x0 : Dev} (hx0 : Keeps b x0) : Keeps b (Dev.dropBack x0) := by
  unfold Dev.dropBack
  repeat' first
   | with_reducible assumption
   | extract_lets +onlyGivenNames x
   | with_reducible apply onPar_keeps
   | with_reducible apply wr_keeps
   | with_reducible refine keeps_foldl ?_ (fun d x h => ?_)
   | with_reducible refine keeps_ite (fun _ => ?_) (fun _ => ?_)

theorem eraseDone_keeps {b : Dev} {x0 : Dev} {x1 : Nat} {x2 : Nat} (hx0 : Keeps b x0) : Keeps b (Dev.eraseDone x0 x1 x2) := by
  unfold Dev.eraseDone
  repeat' first
   | with_reducible assumption
   | (generalize hp : Dev.journal _ _ _ _ _ _ = p; refine (fun (hk : KeepsP b p) => ?_) (keepsP_gen hp (journal_keeps ?_)); rotate_left; clear hp; clear p; rotate_right; clear hp; obtain ⟨y, z⟩ := p; replace hk : Keeps b z := hk; try dsimp -zeta only)
   | (extract_lets +onlyGivenNames x; guard_hyp x : Dev := _; refine (fun (hx : Keeps b x) => ?_) ?_; rotate_left; unfold x; clear x; rotate_right; clear_value x)
   | (extract_lets +onlyGivenNames x; clear_value x)
   | extract_lets +onlyGivenNames x
   | with_reducible apply count_keeps
   | with_reducible apply dropBack_keeps
   | with_reducible apply lostClear_keeps
   | with_reducible apply onRow_keeps
   | with_reducible apply onSfl_keeps
   | with_reducible apply raise_keeps
   | with_reducible apply retireBlock_keeps
   | with_reducible apply sflCount_keeps
   | with_reducible apply takeInjected_keeps
   | with_reducible refine keeps_foldl ?_ (fun d x h => ?_)
   | with_reducible refine keeps_ite (fun _ => ?_) (fun _ => ?_)

theorem rateOk_keeps {b : Dev} {x0 : Dev} {x1 : Nat} {x2 : Nat} {x3 : Bool} (hx0 : Keeps b x0) : KeepsP b (Dev.rateOk x0 x1 x2 x3) := by
  unfold Dev.rateOk
  repeat' first
   | with_reducible assumption
   | extract_lets +onlyGivenNames x
   | with_reducible apply onPar_keeps
   | with_reducible refine keepsP_ite (fun _ => ?_) (fun _ => ?_)
   | split
   | with_reducible refine keepsP_mk ?_

theorem stripeHollow_keeps {b : Dev} {x0 : Dev} {x1 : Nat} {x2 : Nat} {x3 : List Nat} (hx0 : Keeps b x0) : Keeps b (Dev.stripeHollow x0 x1 x2 x3) := by
  unfold Dev.stripeHollow
  repeat' first
   | with_reducible assumption
   | (generalize hp : Dev.sjNew _ _ = p; refine (fun (hk : KeepsP b p) => ?_) (keepsP_gen hp (sjNew_keeps ?_)); rotate_left; clear hp; clear p; rotate_right; clear hp; obtain ⟨y, z⟩ := p; replace hk : Keeps b z := hk; try dsimp -zeta only)
   | (extract_lets +onlyGivenNames x; guard_hyp x : Dev := _; refine (fun (hx : Keeps b x) => ?_) ?_; rotate_left; unfold x; clear x; rotate_right; clear_value x)
   | (extract_lets +onlyGivenNames x; clear_value x)
   | extract_lets +onlyGivenNames x
   | with_reducible apply count_keeps
   | with_reducible apply logChip_keeps
   | with_reducible apply raise_keeps
   | with_reducible apply rewriteLost_keeps
   | with_reducible apply rewriteSys_keeps
   | with_reducible refine keeps_foldl ?_ (fun d x h => ?_)
   | with_reducible refine keeps_ite (fun _ => ?_) (fun _ => ?_)

theorem rebuildSlot_keeps {b : Dev} {x0 : Dev} {x1 : Nat} {x2 : Nat} (hx0 : Keeps b x0) : Keeps b (Dev.rebuildSlot x0 x1 x2) := by
  unfold Dev.rebuildSlot
  repeat' first
   | with_reducible assumption
   | (generalize hp : Dev.sjNew _ _ = p; refine (fun (hk : KeepsP b p) => ?_) (keepsP_gen hp (sjNew_keeps ?_)); rotate_left; clear hp; clear p; rotate_right; clear hp; obtain ⟨y, z⟩ := p; replace hk : Keeps b z := hk; try dsimp -zeta only)
   | (extract_lets +onlyGivenNames x; clear_value x)
   | with_reducible apply sjPut_keeps
   | split

theorem rebuildEnds_keeps {b : Dev} {x0 : Dev} {x1 : Nat} (hx0 : Keeps b x0) : Keeps b (Dev.rebuildEnds x0 x1) := by
  unfold Dev.rebuildEnds
  repeat' first
   | with_reducible assumption
   | (extract_lets +onlyGivenNames x; guard_hyp x : Dev := _; refine (fun (hx : Keeps b x) => ?_) ?_; rotate_left; unfold x; clear x; rotate_right; clear_value x)
   | extract_lets +onlyGivenNames x
   | with_reducible apply lostClear_keeps
   | with_reducible apply onPar_keeps
   | with_reducible apply sjClear_keeps
   | with_reducible apply wrB_keeps
   | with_reducible apply wr_keeps
   | with_reducible refine keeps_foldl ?_ (fun d x h => ?_)

theorem hollowClear_keeps {b : Dev} {x0 : Dev} (hx0 : Keeps b x0) : Keeps b (Dev.hollowClear x0) := by
  unfold Dev.hollowClear
  repeat' first
   | with_reducible assumption
   | (extract_lets +onlyGivenNames x; clear_value x)
   | extract_lets +onlyGivenNames x
   | with_reducible apply sjClear_keeps
   | with_reducible refine keeps_foldl ?_ (fun d x h => ?_)
   | with_reducible refine keeps_ite (fun _ => ?_) (fun _ => ?_)

theorem rebuildMove_keeps {b : Dev} {x0 : Dev} {x1 : Nat} {x2 : List Nat} (hx0 : Keeps b x0) : Keeps b (Dev.rebuildMove x0 x1 x2) := by
  unfold Dev.rebuildMove
  repeat' first
   | with_reducible assumption
   | (generalize hp : Dev.moveNext _ _ _ = p; refine (fun (hk : KeepsP b p) => ?_) (keepsP_gen hp (moveNext_keeps ?_)); rotate_left; clear hp; clear p; rotate_right; clear hp; obtain ⟨y, z⟩ := p; replace hk : Keeps b z := hk; try dsimp -zeta only)
   | (generalize hp : Dev.rateOk _ _ _ _ = p; refine (fun (hk : KeepsP b p) => ?_) (keepsP_gen hp (rateOk_keeps ?_)); rotate_left; clear hp; clear p; rotate_right; clear hp; obtain ⟨y, z⟩ := p; replace hk : Keeps b z := hk; try dsimp -zeta only)
   | (extract_lets +onlyGivenNames x; guard_hyp x : Dev := _; refine (fun (hx : Keeps b x) => ?_) ?_; rotate_left; unfold x; clear x; rotate_right; clear_value x)
   | extract_lets +onlyGivenNames x
   | with_reducible apply onPar_keeps
   | with_reducible apply onSfl_keeps
   | with_reducible apply rebuildEnds_keeps
   | with_reducible apply rebuildSlot_keeps
   | with_reducible apply sourceRow_keeps
   | with_reducible apply stripeHollow_keeps
   | with_reducible apply takeInjected_keeps
   | with_reducible apply wrB_keeps
   | with_reducible apply wr_keeps
   | with_reducible refine keeps_ite (fun _ => ?_) (fun _ => ?_)
   | split

theorem reshapeMove_keeps {b : Dev} {x0 : Dev} {x1 : Nat} (hx0 : Keeps b x0) : Keeps b (Dev.reshapeMove x0 x1) := by
  unfold Dev.reshapeMove
  repeat' first
   | with_reducible assumption
   | (generalize hp : Dev.moveNext _ _ _ = p; refine (fun (hk : KeepsP b p) => ?_) (keepsP_gen hp (moveNext_keeps ?_)); rotate_left; clear hp; clear p; rotate_right; clear hp; obtain ⟨y, z⟩ := p; replace hk : Keeps b z := hk; try dsimp -zeta only)
   | (generalize hp : Dev.rateOk _ _ _ _ = p; refine (fun (hk : KeepsP b p) => ?_) (keepsP_gen hp (rateOk_keeps ?_)); rotate_left; clear hp; clear p; rotate_right; clear hp; obtain ⟨y, z⟩ := p; replace hk : Keeps b z := hk; try dsimp -zeta only)
   | (extract_lets +onlyGivenNames x; clear_value x)
   | extract_lets +onlyGivenNames x
   | with_reducible apply onPar_keeps
   | with_reducible apply sourceRow_keeps
   | with_reducible apply wr_keeps
   | with_reducible refine keeps_ite (fun _ => ?_) (fun _ => ?_)
   | split

theorem ckptStep_keeps {b : Dev} {x0 : Dev} (hx0 : Keeps b x0) : Keeps b (Dev.ckptStep x0) := by
  unfold Dev.ckptStep
  repeat' first
   | with_reducible assumption
   | (generalize hp : Dev.place _ _ _ _ _ = p; refine (fun (hk : KeepsP b p) => ?_) (keepsP_gen hp (place_keeps ?_)); rotate_left; clear hp; clear p; rotate_right; clear hp; obtain ⟨y, z⟩ := p; replace hk : Keeps b z := hk; try dsimp -zeta only)
   | (extract_lets +onlyGivenNames x; guard_hyp x : Dev := _; refine (fun (hx : Keeps b x) => ?_) ?_; rotate_left; unfold x; clear x; rotate_right; clear_value x)
   | (extract_lets +onlyGivenNames x; clear_value x)
   | extract_lets +onlyGivenNames x
   | with_reducible apply mapWriteOut_keeps
   | with_reducible apply onSfl_keeps
   | with_reducible apply remapStep_keeps
   | with_reducible apply sysFound_keeps
   | with_reducible apply sysWaits_keeps
   | with_reducible refine keeps_foldl ?_ (fun d x h => ?_)
   | with_reducible refine keeps_ite (fun _ => ?_) (fun _ => ?_)
   | split

theorem countParts_keeps {b : Dev} {x0 : Dev} {x1 : List Nat} {x2 : Bool} (hx0 : Keeps b x0) : Keeps b (Dev.countParts x0 x1 x2) := by
  unfold Dev.countParts
  repeat' first
   | with_reducible assumption
   | extract_lets +onlyGivenNames x
   | with_reducible apply onRow_keeps
   | with_reducible refine keeps_foldl ?_ (fun d x h => ?_)
   | split

theorem rootCopy_keeps {b : Dev} {x0 : Dev} {x1 : Ckpt} {x2 : List Nat} (hx0 : Keeps b x0) : Keeps b (Dev.rootCopy x0 x1 x2) := by
  unfold Dev.rootCopy
  repeat' first
   | with_reducible assumption
   | (generalize hp : Dev.place _ _ _ _ _ = p; refine (fun (hk : KeepsP b p) => ?_) (keepsP_gen hp (place_keeps ?_)); rotate_left; clear hp; clear p; rotate_right; clear hp; obtain ⟨y, z⟩ := p; replace hk : Keeps b z := hk; try dsimp -zeta only)
   | (extract_lets +onlyGivenNames x; clear_value x)
   | split

theorem ckptDone_keeps {b : Dev} {x0 : Dev} (hx0 : Keeps b x0) : Keeps b (Dev.ckptDone x0) := by
  unfold Dev.ckptDone
  repeat' first
   | with_reducible assumption
   | with_reducible exact fun _ => Nat.le_refl _
   | (generalize hp : Dev.journal _ _ _ _ _ _ = p; refine (fun (hk : KeepsP b p) => ?_) (keepsP_gen hp (journal_keeps ?_)); rotate_left; clear hp; clear p; rotate_right; clear hp; obtain ⟨y, z⟩ := p; replace hk : Keeps b z := hk; try dsimp -zeta only)
   | (extract_lets +onlyGivenNames x; guard_hyp x : Dev := _; refine (fun (hx : Keeps b x) => ?_) ?_; rotate_left; unfold x; clear x; rotate_right; clear_value x)
   | (extract_lets +onlyGivenNames x; clear_value x)
   | extract_lets +onlyGivenNames x
   | with_reducible apply countParts_keeps
   | with_reducible apply mramPut_keeps
   | with_reducible apply onSfl_keeps
   | with_reducible apply rootCopy_keeps
   | with_reducible apply showRing_keeps
   | with_reducible apply wrB_keeps
   | with_reducible apply wr_keeps
   | with_reducible refine keeps_ite (fun _ => ?_) (fun _ => ?_)
   | split

theorem sjRestore_keeps {b : Dev} {x0 : Dev} {x1 : List (Nat × Nat)} (hx0 : Keeps b x0) : Keeps b (Dev.sjRestore x0 x1) := by
  unfold Dev.sjRestore
  repeat' first
   | with_reducible assumption
   | (extract_lets +onlyGivenNames x; clear_value x)
   | extract_lets +onlyGivenNames x
   | with_reducible apply onPar_keeps
   | with_reducible apply sjShow_keeps

theorem loadRoot_keeps {b : Dev} {x0 : Dev} {x1 : List Nat} {x2 : Root} (hx0 : Keeps b x0) : Keeps b (Dev.loadRoot x0 x1 x2) := by
  unfold Dev.loadRoot
  repeat' first
   | with_reducible assumption
   | (extract_lets +onlyGivenNames x; guard_hyp x : Dev := _; refine (fun (hx : Keeps b x) => ?_) ?_; rotate_left; unfold x; clear x; rotate_right; clear_value x)
   | (extract_lets +onlyGivenNames x; clear_value x)
   | extract_lets +onlyGivenNames x
   | with_reducible apply onSfl_keeps
   | with_reducible apply raise_keeps
   | with_reducible apply wr_keeps
   | with_reducible refine keeps_foldl ?_ (fun d x h => ?_)

theorem seqAbove_keeps {b : Dev} {x0 : Dev} {x1 : Nat} (hx0 : Keeps b x0) : Keeps b (Dev.seqAbove x0 x1) := by
  unfold Dev.seqAbove
  repeat' first
   | with_reducible assumption
   | with_reducible apply onSfl_keeps

theorem replayRow_keeps {b : Dev} {x0 : Dev} {x1 : List JEnt} {x2 : JEnt} (hx0 : Keeps b x0) : Keeps b (Dev.replayRow x0 x1 x2) := by
  unfold Dev.replayRow
  repeat' first
   | with_reducible assumption
   | with_reducible exact Nat.le_refl _
   | (extract_lets +onlyGivenNames x; guard_hyp x : Dev := _; refine (fun (hx : Keeps b x) => ?_) ?_; rotate_left; unfold x; clear x; rotate_right; clear_value x)
   | extract_lets +onlyGivenNames x
   | with_reducible apply onMram_keeps
   | with_reducible apply onRow_keeps
   | with_reducible apply onSfl_keeps
   | with_reducible apply seqAbove_keeps
   | with_reducible apply showAppend_keeps
   | split

theorem loadMap_keeps {b : Dev} {x0 : Dev} {x1 : List Nat} (hx0 : Keeps b x0) : Keeps b (Dev.loadMap x0 x1) := by
  unfold Dev.loadMap
  repeat' first
   | with_reducible assumption
   | (extract_lets +onlyGivenNames x; guard_hyp x : Dev := _; refine (fun (hx : Keeps b x) => ?_) ?_; rotate_left; unfold x; clear x; rotate_right; clear_value x)
   | (extract_lets +onlyGivenNames x; clear_value x)
   | extract_lets +onlyGivenNames x
   | with_reducible apply onSfl_keeps
   | with_reducible apply raise_keeps
   | with_reducible refine keeps_foldl ?_ (fun d x h => ?_)

theorem replayMap_keeps {b : Dev} {x0 : Dev} {x1 : JEnt} (hx0 : Keeps b x0) : Keeps b (Dev.replayMap x0 x1) := by
  unfold Dev.replayMap
  repeat' first
   | with_reducible assumption
   | (extract_lets +onlyGivenNames x; clear_value x)
   | extract_lets +onlyGivenNames x
   | with_reducible apply onSfl_keeps
   | with_reducible apply pageFound_keeps
   | with_reducible refine keeps_ite (fun _ => ?_) (fun _ => ?_)

theorem recount_keeps {b : Dev} {x0 : Dev} (hx0 : Keeps b x0) : Keeps b (Dev.recount x0) := by
  unfold Dev.recount
  repeat' first
   | with_reducible assumption
   | (extract_lets +onlyGivenNames x; guard_hyp x : Dev := _; refine (fun (hx : Keeps b x) => ?_) ?_; rotate_left; unfold x; clear x; rotate_right; clear_value x)
   | (extract_lets +onlyGivenNames x; clear_value x)
   | extract_lets +onlyGivenNames x
   | with_reducible apply dirValid_keeps
   | with_reducible apply onRow_keeps
   | with_reducible apply onSfl_keeps
   | with_reducible apply put64_keeps
   | with_reducible apply validBy_keeps
   | with_reducible refine keeps_foldl ?_ (fun d x h => ?_)
   | split

theorem tagScan_keeps {b : Dev} {x0 : Dev} {x1 : Map Nat} {x2 : Nat} {x3 : List Nat} (hx0 : Keeps b x0) : Keeps b (Dev.tagScan x0 x1 x2 x3) := by
  unfold Dev.tagScan
  repeat' first
   | with_reducible assumption
   | (extract_lets +onlyGivenNames x; guard_hyp x : Dev := _; refine (fun (hx : Keeps b x) => ?_) ?_; rotate_left; unfold x; clear x; rotate_right; clear_value x)
   | (extract_lets +onlyGivenNames x; clear_value x)
   | extract_lets +onlyGivenNames x
   | with_reducible apply onSfl_keeps
   | with_reducible apply pageFound_keeps
   | with_reducible apply raise_keeps
   | with_reducible apply wr_keeps
   | with_reducible refine keeps_foldl ?_ (fun d x h => ?_)
   | with_reducible refine keeps_ite (fun _ => ?_) (fun _ => ?_)

theorem stripeAgain_keeps {b : Dev} {x0 : Dev} {x1 : Nat} {x2 : Nat} {x3 : Option Nat} (hx0 : Keeps b x0) : Keeps b (Dev.stripeAgain x0 x1 x2 x3) := by
  unfold Dev.stripeAgain
  repeat' first
   | with_reducible assumption
   | (extract_lets +onlyGivenNames x; guard_hyp x : Dev := _; refine (fun (hx : Keeps b x) => ?_) ?_; rotate_left; unfold x; clear x; rotate_right; clear_value x)
   | (extract_lets +onlyGivenNames x; clear_value x)
   | with_reducible apply onSfl_keeps
   | with_reducible apply rewrite_keeps
   | split

theorem examine_keeps {b : Dev} {x0 : Dev} {x1 : List Nat} {x2 : Nat} {x3 : Nat} {x4 : Option Nat} (hx0 : Keeps b x0) : Keeps b (Dev.examine x0 x1 x2 x3 x4) := by
  unfold Dev.examine
  repeat' first
   | with_reducible assumption
   | (generalize hp : Dev.takeSeq _ = p; refine (fun (hk : KeepsP b p) => ?_) (keepsP_gen hp (takeSeq_keeps ?_)); rotate_left; clear hp; clear p; rotate_right; clear hp; obtain ⟨y, z⟩ := p; replace hk : Keeps b z := hk; try dsimp -zeta only)
   | (extract_lets +onlyGivenNames x; guard_hyp x : Dev := _; refine (fun (hx : Keeps b x) => ?_) ?_; rotate_left; unfold x; clear x; rotate_right; clear_value x)
   | (extract_lets +onlyGivenNames x; guard_hyp x : _ → _ := _; refine (fun (hl2 : ∀ (d0 : Dev), Keeps b d0 → Keeps b (x d0)) => ?_) ?_; rotate_left; unfold x; clear x; intro d0 hd0; beta_reduce; rotate_right; clear_value x)
   | (extract_lets +onlyGivenNames x; guard_hyp x : _ → _ := _; refine (fun (hl3 : ∀ (d0 : Dev) y1 y2, Keeps b d0 → Keeps b (x d0 y1 y2)) => ?_) ?_; rotate_left; unfold x; clear x; intro d0 y1 y2 hd0; beta_reduce; rotate_right; clear_value x)
   | (extract_lets +onlyGivenNames x; clear_value x)
   | extract_lets +onlyGivenNames x
   | with_reducible apply count_keeps
   | with_reducible apply lostSlot_keeps
   | with_reducible apply onSfl_keeps
   | with_reducible apply raise_keeps
   | with_reducible apply sjClear_keeps
   | with_reducible apply stripeAgain_keeps
   | with_reducible refine hl2 _ ?_
   | with_reducible refine hl3 _ _ _ ?_
   | with_reducible refine keeps_foldl ?_ (fun d x h => ?_)
   | with_reducible refine keeps_ite (fun _ => ?_) (fun _ => ?_)
   | split

theorem rebuildShows_keeps {b : Dev} {x0 : Dev} (hx0 : Keeps b x0) : Keeps b (Dev.rebuildShows x0) := by
  unfold Dev.rebuildShows
  repeat' first
   | with_reducible assumption
   | (extract_lets +onlyGivenNames x; guard_hyp x : Dev := _; refine (fun (hx : Keeps b x) => ?_) ?_; rotate_left; unfold x; clear x; rotate_right; clear_value x)
   | (extract_lets +onlyGivenNames x; clear_value x)
   | extract_lets +onlyGivenNames x
   | with_reducible apply onPar_keeps
   | with_reducible apply onSfl_keeps
   | with_reducible apply putTable_keeps
   | with_reducible apply rowsBuild_keeps
   | with_reducible apply seqAbove_keeps
   | with_reducible apply showRing_keeps
   | with_reducible apply showSeq_keeps
   | with_reducible refine keeps_foldl ?_ (fun d x h => ?_)

theorem flashRebuild_keeps {b : Dev} {x0 : Dev} {x1 : Nat} {x2 : List Nat} {x3 : List Nat} {x4 : List Nat} (hx0 : Keeps b x0) : Keeps b (Dev.flashRebuild x0 x1 x2 x3 x4) := by
  unfold Dev.flashRebuild
  repeat' first
   | with_reducible assumption
   | (extract_lets +onlyGivenNames x; guard_hyp x : Dev := _; refine (fun (hx : Keeps b x) => ?_) ?_; rotate_left; unfold x; clear x; rotate_right; clear_value x)
   | (extract_lets +onlyGivenNames x; clear_value x)
   | extract_lets +onlyGivenNames x
   | with_reducible apply ckptStart_keeps
   | with_reducible apply ckptStep_keeps
   | with_reducible apply examine_keeps
   | with_reducible apply loadMap_keeps
   | with_reducible apply loadRoot_keeps
   | with_reducible apply onRow_keeps
   | with_reducible apply onSfl_keeps
   | with_reducible apply rebuildShows_keeps
   | with_reducible apply recount_keeps
   | with_reducible apply replayMap_keeps
   | with_reducible apply replayRow_keeps
   | with_reducible apply tagScan_keeps
   | with_reducible apply wr_keeps
   | with_reducible refine keeps_foldl ?_ (fun d x h => ?_)
   | with_reducible refine keeps_ite (fun _ => ?_) (fun _ => ?_)
   | split

end Sys2Proof.Machine
end

