-- ==== Sys2Proof/Laws/Keeps/Frames.lean ====
section
/-! SUPPORT. What every operation of Machine/Frames.lean keeps. -/
namespace Sys2Proof.Machine
open Sys2Proof

set_option linter.unusedTactic false
set_option linter.unreachableTactic false
set_option linter.tactic.unusedName false

theorem sysWrite_keeps {b : Dev} {x0 : Dev} {x1 : Nat} {x2 : List Byte} (hx0 : Keeps b x0) : Keeps b (Dev.sysWrite x0 x1 x2) := by
  unfold Dev.sysWrite
  repeat' first
   | with_reducible assumption
   | extract_lets +onlyGivenNames x
   | with_reducible apply writeNow_keeps
   | with_reducible refine keeps_foldl ?_ (fun d x h => ?_)

theorem sysRead_keeps {b : Dev} {x0 : Dev} {x1 : Nat} {x2 : Nat} (hx0 : Keeps b x0) : KeepsP b (Dev.sysRead x0 x1 x2) := by
  unfold Dev.sysRead
  repeat' first
   | with_reducible assumption
   | (generalize hp : Dev.readLines _ _ _ _ = p; refine (fun (hk : KeepsP b p) => ?_) (keepsP_gen hp (readLines_keeps ?_)); rotate_left; clear hp; clear p; rotate_right; clear hp; obtain ⟨y, z⟩ := p; replace hk : Keeps b z := hk; try dsimp -zeta only)
   | with_reducible refine keepsP_mk ?_

theorem chainWrite_keeps {b : Dev} {x0 : Dev} {x1 : Nat} {x2 : Nat} {x3 : List Byte} {x4 : Bool} (hx0 : Keeps b x0) : Keeps b (Dev.chainWrite x0 x1 x2 x3 x4) := by
  unfold Dev.chainWrite
  repeat' first
   | with_reducible assumption
   | (extract_lets +onlyGivenNames x; clear_value x)
   | with_reducible apply writeNow_keeps
   | with_reducible refine keeps_foldl ?_ (fun d x h => ?_)

theorem chainRead_keeps {b : Dev} {x0 : Dev} {x1 : Nat} {x2 : Nat} {x3 : Nat} (hx0 : Keeps b x0) : KeepsP b (Dev.chainRead x0 x1 x2 x3) := by
  unfold Dev.chainRead
  repeat' first
   | with_reducible assumption
   | (generalize hp : Dev.readLine _ _ = p; refine (fun (hk : KeepsP b p) => ?_) (keepsP_gen hp (readLine_keeps ?_)); rotate_left; clear hp; clear p; rotate_right; clear hp; obtain ⟨y, z⟩ := p; replace hk : Keeps b z := hk; try dsimp -zeta only)
   | (extract_lets +onlyGivenNames x; clear_value x)
   | extract_lets +onlyGivenNames x
   | with_reducible refine keepsP_foldl ?_ (fun d x h => ?_)
   | with_reducible refine keepsP_mk ?_
   | with_reducible exact keeps_snd ‹KeepsP b _›

theorem chainPush_keeps {b : Dev} {x0 : Dev} {x1 : Nat} {x2 : Nat} (hx0 : Keeps b x0) : Keeps b (Dev.chainPush x0 x1 x2) := by
  unfold Dev.chainPush
  repeat' first
   | with_reducible assumption
   | (extract_lets +onlyGivenNames x; guard_hyp x : Dev := _; refine (fun (hx : Keeps b x) => ?_) ?_; rotate_left; unfold x; clear x; rotate_right; clear_value x)
   | (extract_lets +onlyGivenNames x; clear_value x)
   | extract_lets +onlyGivenNames x
   | with_reducible apply onStream_keeps
   | with_reducible apply sysWrite_keeps
   | split

theorem chainGrow_keeps {b : Dev} {x0 : Dev} {x1 : Nat} {x2 : Nat} {x3 : Nat} (hx0 : Keeps b x0) : KeepsP b (Dev.chainGrow x0 x1 x2 x3) := by
  induction x3 generalizing x0 x1 x2 with
  | zero =>
    unfold Dev.chainGrow
    repeat' first
     | with_reducible assumption
     | with_reducible refine keepsP_mk ?_
  | succ n ih =>
    unfold Dev.chainGrow
    repeat' first
     | with_reducible assumption
     | with_reducible apply ih
     | (generalize hp : Dev.grant _ _ _ = p; refine (fun (hk : KeepsP b p) => ?_) (keepsP_gen hp (grant_keeps ?_)); rotate_left; clear hp; clear p; rotate_right; clear hp; obtain ⟨y, z⟩ := p; replace hk : Keeps b z := hk; try dsimp -zeta only)
     | extract_lets +onlyGivenNames x
     | with_reducible apply chainPush_keeps
     | with_reducible refine keepsP_ite (fun _ => ?_) (fun _ => ?_)
     | with_reducible refine keepsP_mk ?_

theorem onFrame_keeps {b : Dev} {x0 : Dev} {x1 : Nat} {x2 : Nat} {x3 : FrameRec → FrameRec} (hx0 : Keeps b x0) : Keeps b (Dev.onFrame x0 x1 x2 x3) := by
  unfold Dev.onFrame
  repeat' first
   | with_reducible assumption
   | with_reducible apply onStream_keeps

theorem showOpen_keeps {b : Dev} {x0 : Dev} {x1 : Nat} (hx0 : Keeps b x0) : Keeps b (Dev.showOpen x0 x1) := by
  unfold Dev.showOpen
  repeat' first
   | with_reducible assumption
   | with_reducible apply wr_keeps

theorem writeEntry_keeps {b : Dev} {x0 : Dev} {x1 : Nat} {x2 : FrameRec} (hx0 : Keeps b x0) : Keeps b (Dev.writeEntry x0 x1 x2) := by
  unfold Dev.writeEntry
  repeat' first
   | with_reducible assumption
   | with_reducible apply chainWrite_keeps

theorem editEntry_keeps {b : Dev} {x0 : Dev} {x1 : Nat} {x2 : FrameRec} {x3 : List Byte → List Byte} (hx0 : Keeps b x0) : Keeps b (Dev.editEntry x0 x1 x2 x3) := by
  unfold Dev.editEntry
  repeat' first
   | with_reducible assumption
   | (generalize hp : Dev.chainRead _ _ _ _ = p; refine (fun (hk : KeepsP b p) => ?_) (keepsP_gen hp (chainRead_keeps ?_)); rotate_left; clear hp; clear p; rotate_right; clear hp; obtain ⟨y, z⟩ := p; replace hk : Keeps b z := hk; try dsimp -zeta only)
   | (extract_lets +onlyGivenNames x; clear_value x)
   | extract_lets +onlyGivenNames x
   | with_reducible apply chainWrite_keeps

theorem rewriteEntry_keeps {b : Dev} {x0 : Dev} {x1 : Nat} {x2 : FrameRec} (hx0 : Keeps b x0) : Keeps b (Dev.rewriteEntry x0 x1 x2) := by
  unfold Dev.rewriteEntry
  repeat' first
   | with_reducible assumption
   | with_reducible apply editEntry_keeps

theorem writeLookup_keeps {b : Dev} {x0 : Dev} {x1 : Nat} {x2 : FrameRec} {x3 : Nat} (hx0 : Keeps b x0) : Keeps b (Dev.writeLookup x0 x1 x2 x3) := by
  unfold Dev.writeLookup
  repeat' first
   | with_reducible assumption
   | with_reducible apply sysWrite_keeps

theorem handOver_keeps {b : Dev} {x0 : Dev} {x1 : Nat} {x2 : List Nat} (hx0 : Keeps b x0) : Keeps b (Dev.handOver x0 x1 x2) := by
  unfold Dev.handOver
  repeat' first
   | with_reducible assumption
   | (extract_lets +onlyGivenNames x; clear_value x)
   | extract_lets +onlyGivenNames x
   | with_reducible apply onBpm_keeps
   | with_reducible apply setBufEnt_keeps
   | split

theorem leaveChain_keeps {b : Dev} {x0 : Dev} {x1 : Nat} {x2 : Nat} (hx0 : Keeps b x0) : Keeps b (Dev.leaveChain x0 x1 x2) := by
  unfold Dev.leaveChain
  repeat' first
   | with_reducible assumption
   | (extract_lets +onlyGivenNames x; clear_value x)
   | extract_lets +onlyGivenNames x
   | with_reducible apply freeBuf_keeps
   | with_reducible apply handOver_keeps
   | with_reducible refine keeps_ite (fun _ => ?_) (fun _ => ?_)

theorem reclaim_keeps {b : Dev} {x0 : Dev} {x1 : Nat} (hx0 : Keeps b x0) : Keeps b (Dev.reclaim x0 x1) := by
  unfold Dev.reclaim
  repeat' first
   | with_reducible assumption
   | (extract_lets +onlyGivenNames x; guard_hyp x : Dev := _; refine (fun (hx : Keeps b x) => ?_) ?_; rotate_left; unfold x; clear x; rotate_right; clear_value x)
   | (extract_lets +onlyGivenNames x; clear_value x)
   | extract_lets +onlyGivenNames x
   | with_reducible apply leaveChain_keeps
   | with_reducible apply onStream_keeps
   | with_reducible refine keeps_foldl ?_ (fun d x h => ?_)

theorem noteClosed_keeps {b : Dev} {x0 : Dev} {x1 : Nat} {x2 : Nat} (hx0 : Keeps b x0) : Keeps b (Dev.noteClosed x0 x1 x2) := by
  unfold Dev.noteClosed
  repeat' first
   | with_reducible assumption
   | with_reducible apply onStream_keeps

theorem writeMrr_keeps {b : Dev} {x0 : Dev} {x1 : Nat} {x2 : Nat} {x3 : FrameRec} {x4 : List (Nat × Nat)} (hx0 : Keeps b x0) : Keeps b (Dev.writeMrr x0 x1 x2 x3 x4) := by
  unfold Dev.writeMrr
  repeat' first
   | with_reducible assumption
   | (extract_lets +onlyGivenNames x; guard_hyp x : Dev := _; refine (fun (hx : Keeps b x) => ?_) ?_; rotate_left; unfold x; clear x; rotate_right; clear_value x)
   | (extract_lets +onlyGivenNames x; clear_value x)
   | with_reducible apply sysWrite_keeps
   | with_reducible apply wr_keeps

theorem closeIncomplete_keeps {b : Dev} {x0 : Dev} {x1 : Nat} {x2 : Nat} {x3 : Nat} (hx0 : Keeps b x0) : Keeps b (Dev.closeIncomplete x0 x1 x2 x3) := by
  unfold Dev.closeIncomplete
  repeat' first
   | with_reducible assumption
   | (extract_lets +onlyGivenNames x; guard_hyp x : Dev := _; refine (fun (hx : Keeps b x) => ?_) ?_; rotate_left; unfold x; clear x; rotate_right; clear_value x)
   | (extract_lets +onlyGivenNames x; clear_value x)
   | extract_lets +onlyGivenNames x
   | with_reducible apply chainWrite_keeps
   | with_reducible apply count_keeps
   | with_reducible apply noteClosed_keeps
   | with_reducible apply onFrame_keeps
   | with_reducible apply showOpen_keeps
   | with_reducible apply writeEntry_keeps
   | with_reducible apply writeLookup_keeps
   | with_reducible apply writeMrr_keeps
   | with_reducible refine keeps_foldl ?_ (fun d x h => ?_)
   | with_reducible refine keeps_ite (fun _ => ?_) (fun _ => ?_)
   | split

theorem fallsOut_keeps {b : Dev} {x0 : Dev} {x1 : Nat} {x2 : Nat} (hx0 : Keeps b x0) : Keeps b (Dev.fallsOut x0 x1 x2) := by
  unfold Dev.fallsOut
  repeat' first
   | with_reducible assumption
   | extract_lets +onlyGivenNames x
   | with_reducible apply onFrame_keeps
   | with_reducible apply reclaim_keeps
   | with_reducible refine keeps_ite (fun _ => ?_) (fun _ => ?_)
   | split

theorem frameComplete_keeps {b : Dev} {x0 : Dev} {x1 : Nat} {x2 : Nat} (hx0 : Keeps b x0) : Keeps b (Dev.frameComplete x0 x1 x2) := by
  unfold Dev.frameComplete
  repeat' first
   | with_reducible assumption
   | with_reducible refine fun (d : Dev) (h : Keeps b d) => ?_
   | (extract_lets +onlyGivenNames x; guard_hyp x : Dev := _; refine (fun (hx : Keeps b x) => ?_) ?_; rotate_left; unfold x; clear x; rotate_right; clear_value x)
   | (extract_lets +onlyGivenNames x; clear_value x)
   | extract_lets +onlyGivenNames x
   | with_reducible apply count_keeps
   | with_reducible apply fallsOut_keeps
   | with_reducible apply noteClosed_keeps
   | with_reducible apply onFrame_keeps
   | with_reducible apply onStream_keeps
   | with_reducible apply put64_keeps
   | with_reducible apply showOpen_keeps
   | with_reducible apply when_keeps
   | with_reducible apply writeEntry_keeps
   | with_reducible apply writeLookup_keeps
   | with_reducible refine keeps_ite (fun _ => ?_) (fun _ => ?_)
   | split

theorem frameTimeout_keeps {b : Dev} {x0 : Dev} {x1 : Nat} {x2 : Nat} (hx0 : Keeps b x0) : Keeps b (Dev.frameTimeout x0 x1 x2) := by
  unfold Dev.frameTimeout
  repeat' first
   | with_reducible assumption
   | (extract_lets +onlyGivenNames x; clear_value x)
   | extract_lets +onlyGivenNames x
   | with_reducible apply closeIncomplete_keeps
   | with_reducible apply fallsOut_keeps
   | with_reducible apply raise_keeps
   | with_reducible apply takeInjected_keeps
   | with_reducible refine keeps_ite (fun _ => ?_) (fun _ => ?_)
   | split

theorem closeStopped_keeps {b : Dev} {x0 : Dev} {x1 : Nat} (hx0 : Keeps b x0) : Keeps b (Dev.closeStopped x0 x1) := by
  unfold Dev.closeStopped
  repeat' first
   | with_reducible assumption
   | extract_lets +onlyGivenNames x
   | with_reducible apply closeIncomplete_keeps
   | with_reducible apply fallsOut_keeps
   | with_reducible refine keeps_foldl ?_ (fun d x h => ?_)

end Sys2Proof.Machine
end

