-- ==== Sys2Proof/Laws/Keeps/Parity.lean ====
section
/-! SUPPORT. What every operation of Machine/Parity.lean keeps. -/
namespace Sys2Proof.Machine
open Sys2Proof

set_option linter.unusedTactic false
set_option linter.unreachableTactic false
set_option linter.tactic.unusedName false

theorem shadowSlot_keeps {b : Dev} {x0 : Dev} {x1 : Nat} {x2 : Nat} {x3 : List Nat} {x4 : Nat} (hx0 : Keeps b x0) : Keeps b (Dev.shadowSlot x0 x1 x2 x3 x4) := by
  unfold Dev.shadowSlot
  repeat' first
   | with_reducible assumption
   | (generalize hp : Dev.sjNew _ _ = p; refine (fun (hk : KeepsP b p) => ?_) (keepsP_gen hp (sjNew_keeps ?_)); rotate_left; clear hp; clear p; rotate_right; clear hp; obtain ⟨y, z⟩ := p; replace hk : Keeps b z := hk; try dsimp -zeta only)
   | (extract_lets +onlyGivenNames x; clear_value x)
   | with_reducible apply sjPut_keeps
   | split

theorem shadowOpen_keeps {b : Dev} {x0 : Dev} {x1 : Nat} (hx0 : Keeps b x0) : Keeps b (Dev.shadowOpen x0 x1) := by
  unfold Dev.shadowOpen
  repeat' first
   | with_reducible assumption
   | (extract_lets +onlyGivenNames x; guard_hyp x : Dev := _; refine (fun (hx : Keeps b x) => ?_) ?_; rotate_left; unfold x; clear x; rotate_right; clear_value x)
   | (extract_lets +onlyGivenNames x; clear_value x)
   | extract_lets +onlyGivenNames x
   | with_reducible apply onPar_keeps
   | with_reducible apply rowsBuild_keeps
   | with_reducible apply shadowSlot_keeps
   | with_reducible apply wrB_keeps
   | with_reducible apply wr_keeps
   | split

theorem shadowMove_keeps {b : Dev} {x0 : Dev} (hx0 : Keeps b x0) : Keeps b (Dev.shadowMove x0) := by
  unfold Dev.shadowMove
  repeat' first
   | with_reducible assumption
   | (extract_lets +onlyGivenNames x; guard_hyp x : Dev := _; refine (fun (hx : Keeps b x) => ?_) ?_; rotate_left; unfold x; clear x; rotate_right; clear_value x)
   | extract_lets +onlyGivenNames x
   | with_reducible apply onPar_keeps
   | with_reducible apply raise_keeps
   | with_reducible apply rowsBuild_keeps
   | with_reducible apply shadowOpen_keeps
   | with_reducible apply sjClear_keeps
   | with_reducible apply wrB_keeps
   | with_reducible refine keeps_foldl ?_ (fun d x h => ?_)
   | split

theorem shadowProgram_keeps {b : Dev} {x0 : Dev} {x1 : Bool} (hx0 : Keeps b x0) : Keeps b (Dev.shadowProgram x0 x1) := by
  unfold Dev.shadowProgram
  repeat' first
   | with_reducible assumption
   | with_reducible refine fun (d : Dev) (h : Keeps b d) => ?_
   | (extract_lets +onlyGivenNames x; guard_hyp x : Dev := _; refine (fun (hx : Keeps b x) => ?_) ?_; rotate_left; unfold x; clear x; rotate_right; clear_value x)
   | (extract_lets +onlyGivenNames x; clear_value x)
   | extract_lets +onlyGivenNames x
   | with_reducible apply onPar_keeps
   | with_reducible apply shadowMove_keeps
   | with_reducible apply shadowOpen_keeps
   | with_reducible apply shadowSlot_keeps
   | with_reducible apply when_keeps
   | with_reducible apply wr_keeps
   | with_reducible refine keeps_ite (fun _ => ?_) (fun _ => ?_)
   | split

theorem sjTick_keeps {b : Dev} {x0 : Dev} (hx0 : Keeps b x0) : Keeps b (Dev.sjTick x0) := by
  unfold Dev.sjTick
  repeat' first
   | with_reducible assumption
   | (extract_lets +onlyGivenNames x; guard_hyp x : Dev := _; refine (fun (hx : Keeps b x) => ?_) ?_; rotate_left; unfold x; clear x; rotate_right; clear_value x)
   | extract_lets +onlyGivenNames x
   | with_reducible apply shadowMove_keeps
   | with_reducible apply sjFlush_keeps
   | with_reducible refine keeps_ite (fun _ => ?_) (fun _ => ?_)

theorem parRootWrite_keeps {b : Dev} {x0 : Dev} (hx0 : Keeps b x0) : Keeps b (Dev.parRootWrite x0) := by
  unfold Dev.parRootWrite
  repeat' first
   | with_reducible assumption
   | with_reducible exact fun _ => Nat.le_refl _
   | with_reducible apply mramPut_keeps

theorem reshapeStart_keeps {b : Dev} {x0 : Dev} {x1 : Nat} {x2 : Nat} {x3 : Nat} {x4 : Nat} (hx0 : Keeps b x0) : Keeps b (Dev.reshapeStart x0 x1 x2 x3 x4) := by
  unfold Dev.reshapeStart
  repeat' first
   | with_reducible assumption
   | (generalize hp : Dev.sjNew _ _ = p; refine (fun (hk : KeepsP b p) => ?_) (keepsP_gen hp (sjNew_keeps ?_)); rotate_left; clear hp; clear p; rotate_right; clear hp; obtain ⟨y, z⟩ := p; replace hk : Keeps b z := hk; try dsimp -zeta only)
   | (extract_lets +onlyGivenNames x; guard_hyp x : Dev := _; refine (fun (hx : Keeps b x) => ?_) ?_; rotate_left; unfold x; clear x; rotate_right; clear_value x)
   | extract_lets +onlyGivenNames x
   | with_reducible apply onPar_keeps
   | with_reducible apply parRootWrite_keeps
   | with_reducible apply wr_keeps

theorem shapesHeld_keeps {b : Dev} {x0 : Dev} (hx0 : Keeps b x0) : Keeps b (Dev.shapesHeld x0) := by
  unfold Dev.shapesHeld
  repeat' first
   | with_reducible assumption
   | extract_lets +onlyGivenNames x
   | with_reducible apply onPar_keeps
   | with_reducible refine keeps_ite (fun _ => ?_) (fun _ => ?_)

theorem shapeState_keeps {b : Dev} {x0 : Dev} {x1 : Nat} {x2 : Nat} (hx0 : Keeps b x0) : Keeps b (Dev.shapeState x0 x1 x2) := by
  unfold Dev.shapeState
  repeat' first
   | with_reducible assumption
   | (extract_lets +onlyGivenNames x; clear_value x)
   | with_reducible apply sjPut_keeps
   | with_reducible refine keeps_foldl ?_ (fun d x h => ?_)

theorem reshapeSwitch_keeps {b : Dev} {x0 : Dev} {x1 : Nat} (hx0 : Keeps b x0) : Keeps b (Dev.reshapeSwitch x0 x1) := by
  unfold Dev.reshapeSwitch
  repeat' first
   | with_reducible assumption
   | (extract_lets +onlyGivenNames x; guard_hyp x : Dev := _; refine (fun (hx : Keeps b x) => ?_) ?_; rotate_left; unfold x; clear x; rotate_right; clear_value x)
   | extract_lets +onlyGivenNames x
   | with_reducible apply closeRow_keeps
   | with_reducible apply parRootWrite_keeps
   | with_reducible apply shapeState_keeps
   | with_reducible apply wr_keeps
   | with_reducible refine keeps_foldl ?_ (fun d x h => ?_)
   | with_reducible refine keeps_ite (fun _ => ?_) (fun _ => ?_)
   | split

theorem reshapeEnd_keeps {b : Dev} {x0 : Dev} {x1 : Nat} (hx0 : Keeps b x0) : Keeps b (Dev.reshapeEnd x0 x1) := by
  unfold Dev.reshapeEnd
  repeat' first
   | with_reducible assumption
   | (extract_lets +onlyGivenNames x; guard_hyp x : Dev := _; refine (fun (hx : Keeps b x) => ?_) ?_; rotate_left; unfold x; clear x; rotate_right; clear_value x)
   | extract_lets +onlyGivenNames x
   | with_reducible apply onPar_keeps
   | with_reducible apply parRootWrite_keeps
   | with_reducible apply sjClear_keeps
   | with_reducible apply wr_keeps
   | with_reducible refine keeps_foldl ?_ (fun d x h => ?_)

theorem showRuns_keeps {b : Dev} {x0 : Dev} (hx0 : Keeps b x0) : Keeps b (Dev.showRuns x0) := by
  unfold Dev.showRuns
  repeat' first
   | with_reducible assumption
   | with_reducible apply wr_keeps

theorem runOpen_keeps {b : Dev} {x0 : Dev} {x1 : Nat} {x2 : Nat} (hx0 : Keeps b x0) : KeepsP b (Dev.runOpen x0 x1 x2) := by
  unfold Dev.runOpen
  repeat' first
   | with_reducible assumption
   | (generalize hp : Dev.sjNew _ _ = p; refine (fun (hk : KeepsP b p) => ?_) (keepsP_gen hp (sjNew_keeps ?_)); rotate_left; clear hp; clear p; rotate_right; clear hp; obtain ⟨y, z⟩ := p; replace hk : Keeps b z := hk; try dsimp -zeta only)
   | (extract_lets +onlyGivenNames x; clear_value x)
   | extract_lets +onlyGivenNames x
   | with_reducible apply raise_keeps
   | with_reducible apply showRuns_keeps
   | split
   | with_reducible refine keepsP_mk ?_

theorem discAdd_keeps {b : Dev} {x0 : Dev} {x1 : Nat} {x2 : Nat} {x3 : Nat} {x4 : List (Map Byte)} (hx0 : Keeps b x0) : Keeps b (Dev.discAdd x0 x1 x2 x3 x4) := by
  unfold Dev.discAdd
  repeat' first
   | with_reducible assumption
   | (generalize hp : Dev.addJob _ _ = p; refine (fun (hk : KeepsP b p) => ?_) (keepsP_gen hp (addJob_keeps ?_)); rotate_left; clear hp; clear p; rotate_right; clear hp; obtain ⟨y, z⟩ := p; replace hk : Keeps b z := hk; try dsimp -zeta only)
   | (extract_lets +onlyGivenNames x; guard_hyp x : Dev := _; refine (fun (hx : Keeps b x) => ?_) ?_; rotate_left; unfold x; clear x; rotate_right; clear_value x)
   | (extract_lets +onlyGivenNames x; clear_value x)
   | extract_lets +onlyGivenNames x
   | with_reducible apply countIgnored_keeps
   | with_reducible apply onPar_keeps
   | with_reducible refine keeps_foldl ?_ (fun d x h => ?_)
   | with_reducible refine keeps_ite (fun _ => ?_) (fun _ => ?_)
   | split

theorem countAdd_keeps {b : Dev} {x0 : Dev} {x1 : RunAdd} (hx0 : Keeps b x0) : Keeps b (Dev.countAdd x0 x1) := by
  unfold Dev.countAdd
  repeat' first
   | with_reducible assumption
   | extract_lets +onlyGivenNames x
   | with_reducible apply count_keeps
   | with_reducible apply onPar_keeps
   | with_reducible apply sjPut_keeps
   | with_reducible refine keeps_ite (fun _ => ?_) (fun _ => ?_)
   | split

theorem addDurable_keeps {b : Dev} {x0 : Dev} {x1 : Nat} (hx0 : Keeps b x0) : Keeps b (Dev.addDurable x0 x1) := by
  unfold Dev.addDurable
  repeat' first
   | with_reducible assumption
   | (extract_lets +onlyGivenNames x; guard_hyp x : Dev := _; refine (fun (hx : Keeps b x) => ?_) ?_; rotate_left; unfold x; clear x; rotate_right; clear_value x)
   | extract_lets +onlyGivenNames x
   | with_reducible apply countAdd_keeps
   | with_reducible apply onPar_keeps
   | with_reducible refine keeps_foldl ?_ (fun d x h => ?_)
   | split

theorem runDone_keeps {b : Dev} {x0 : Dev} {x1 : Nat} (hx0 : Keeps b x0) : Keeps b (Dev.runDone x0 x1) := by
  unfold Dev.runDone
  repeat' first
   | with_reducible assumption
   | (generalize hp : Dev.addJob _ _ = p; refine (fun (hk : KeepsP b p) => ?_) (keepsP_gen hp (addJob_keeps ?_)); rotate_left; clear hp; clear p; rotate_right; clear hp; obtain ⟨y, z⟩ := p; replace hk : Keeps b z := hk; try dsimp -zeta only)
   | (extract_lets +onlyGivenNames x; guard_hyp x : Dev := _; refine (fun (hx : Keeps b x) => ?_) ?_; rotate_left; unfold x; clear x; rotate_right; clear_value x)
   | (extract_lets +onlyGivenNames x; clear_value x)
   | extract_lets +onlyGivenNames x
   | with_reducible apply countN_keeps
   | with_reducible apply showRuns_keeps
   | with_reducible apply sjClear_keeps
   | with_reducible refine keeps_foldl ?_ (fun d x h => ?_)
   | with_reducible refine keeps_ite (fun _ => ?_) (fun _ => ?_)
   | split

theorem runRecompute_keeps {b : Dev} {x0 : Dev} {x1 : Nat} {x2 : List (Nat × Nat × List (Map Byte))} (hx0 : Keeps b x0) : Keeps b (Dev.runRecompute x0 x1 x2) := by
  unfold Dev.runRecompute
  repeat' first
   | with_reducible assumption
   | (generalize hp : Dev.addJob _ _ = p; refine (fun (hk : KeepsP b p) => ?_) (keepsP_gen hp (addJob_keeps ?_)); rotate_left; clear hp; clear p; rotate_right; clear hp; obtain ⟨y, z⟩ := p; replace hk : Keeps b z := hk; try dsimp -zeta only)
   | (extract_lets +onlyGivenNames x; guard_hyp x : Dev := _; refine (fun (hx : Keeps b x) => ?_) ?_; rotate_left; unfold x; clear x; rotate_right; clear_value x)
   | (extract_lets +onlyGivenNames x; clear_value x)
   | extract_lets +onlyGivenNames x
   | with_reducible apply count_keeps
   | with_reducible apply raise_keeps
   | with_reducible apply sjPut_keeps
   | with_reducible refine keeps_foldl ?_ (fun d x h => ?_)
   | with_reducible refine keeps_ite (fun _ => ?_) (fun _ => ?_)
   | split

end Sys2Proof.Machine
end

