-- ==== Sys2Proof/Laws/Keeps/Sessions.lean ====
section
/-! SUPPORT. What every operation of Machine/Sessions.lean keeps. -/
namespace Sys2Proof.Machine
open Sys2Proof

set_option linter.unusedTactic false
set_option linter.unreachableTactic false
set_option linter.tactic.unusedName false

theorem onSession_keeps {b : Dev} {x0 : Dev} {x1 : Nat} {x2 : Session → Session} (hx0 : Keeps b x0) : Keeps b (Dev.onSession x0 x1 x2) := by
  unfold Dev.onSession
  repeat' first
   | with_reducible assumption
   | with_reducible apply onIng_keeps

theorem sesIgn_keeps {b : Dev} {x0 : Dev} {x1 : Nat} (hx0 : Keeps b x0) : Keeps b (Dev.sesIgn x0 x1) := by
  unfold Dev.sesIgn
  repeat' first
   | with_reducible assumption
   | extract_lets +onlyGivenNames x
   | with_reducible apply raise_keeps
   | with_reducible refine keeps_foldl ?_ (fun d x h => ?_)

theorem markTrigger_keeps {b : Dev} {x0 : Dev} {x1 : Nat} {x2 : Nat} (hx0 : Keeps b x0) : Keeps b (Dev.markTrigger x0 x1 x2) := by
  unfold Dev.markTrigger
  repeat' first
   | with_reducible assumption
   | with_reducible refine fun (d : Dev) (h : Keeps b d) => ?_
   | (extract_lets +onlyGivenNames x; clear_value x)
   | extract_lets +onlyGivenNames x
   | with_reducible apply onFrame_keeps
   | with_reducible apply onStream_keeps
   | with_reducible apply rewriteEntry_keeps
   | with_reducible apply when_keeps
   | split

theorem sesEvent_keeps {b : Dev} {x0 : Dev} {x1 : Nat} {x2 : SesEvent} (hx0 : Keeps b x0) : Keeps b (Dev.sesEvent x0 x1 x2) := by
  unfold Dev.sesEvent
  repeat' first
   | with_reducible assumption
   | (extract_lets +onlyGivenNames x; guard_hyp x : Dev := _; refine (fun (hx : Keeps b x) => ?_) ?_; rotate_left; unfold x; clear x; rotate_right; clear_value x)
   | extract_lets +onlyGivenNames x
   | with_reducible apply countIgnored_keeps
   | with_reducible apply count_keeps
   | with_reducible apply markTrigger_keeps
   | with_reducible apply onSession_keeps
   | with_reducible apply put64_keeps
   | with_reducible apply sesIgn_keeps
   | with_reducible apply wr_keeps
   | with_reducible refine keeps_foldl ?_ (fun d x h => ?_)
   | split

theorem setLive_keeps {b : Dev} {x0 : Dev} {x1 : Nat} {x2 : Bool} (hx0 : Keeps b x0) : Keeps b (Dev.setLive x0 x1 x2) := by
  unfold Dev.setLive
  repeat' first
   | with_reducible assumption
   | with_reducible refine fun (d : Dev) (h : Keeps b d) => ?_
   | (extract_lets +onlyGivenNames x; clear_value x)
   | extract_lets +onlyGivenNames x
   | with_reducible apply onFrame_keeps
   | with_reducible apply rewriteEntry_keeps
   | with_reducible apply when_keeps
   | with_reducible refine keeps_foldl ?_ (fun d x h => ?_)
   | with_reducible refine keeps_ite (fun _ => ?_) (fun _ => ?_)

theorem joinTake_keeps {b : Dev} {x0 : Dev} {x1 : Nat} {x2 : Nat} (hx0 : Keeps b x0) : Keeps b (Dev.joinTake x0 x1 x2) := by
  unfold Dev.joinTake
  repeat' first
   | with_reducible assumption
   | with_reducible refine fun (d : Dev) (h : Keeps b d) => ?_
   | (extract_lets +onlyGivenNames x; guard_hyp x : Dev := _; refine (fun (hx : Keeps b x) => ?_) ?_; rotate_left; unfold x; clear x; rotate_right; clear_value x)
   | (extract_lets +onlyGivenNames x; clear_value x)
   | extract_lets +onlyGivenNames x
   | with_reducible apply onFrame_keeps
   | with_reducible apply onSession_keeps
   | with_reducible apply rewriteEntry_keeps
   | with_reducible apply when_keeps
   | with_reducible refine keeps_foldl ?_ (fun d x h => ?_)
   | with_reducible refine keeps_ite (fun _ => ?_) (fun _ => ?_)

theorem sesApply1_keeps {b : Dev} {x0 : Dev} {x1 : Nat} {x2 : SesEvent} (hx0 : Keeps b x0) : Keeps b (Dev.sesApply1 x0 x1 x2) := by
  unfold Dev.sesApply1
  repeat' first
   | with_reducible assumption
   | (extract_lets +onlyGivenNames x; guard_hyp x : Dev := _; refine (fun (hx : Keeps b x) => ?_) ?_; rotate_left; unfold x; clear x; rotate_right; clear_value x)
   | extract_lets +onlyGivenNames x
   | with_reducible apply joinTake_keeps
   | with_reducible apply setLive_keeps
   | with_reducible apply wr_keeps
   | split

theorem sessionApply_keeps {b : Dev} {x0 : Dev} {x1 : Nat} (hx0 : Keeps b x0) : Keeps b (Dev.sessionApply x0 x1) := by
  unfold Dev.sessionApply
  repeat' first
   | with_reducible assumption
   | (extract_lets +onlyGivenNames x; guard_hyp x : Dev := _; refine (fun (hx : Keeps b x) => ?_) ?_; rotate_left; unfold x; clear x; rotate_right; clear_value x)
   | (extract_lets +onlyGivenNames x; clear_value x)
   | extract_lets +onlyGivenNames x
   | with_reducible apply onSession_keeps
   | with_reducible apply sesApply1_keeps
   | with_reducible refine keeps_foldl ?_ (fun d x h => ?_)

theorem postExpiry_keeps {b : Dev} {x0 : Dev} {x1 : Nat} (hx0 : Keeps b x0) : Keeps b (Dev.postExpiry x0 x1) := by
  unfold Dev.postExpiry
  repeat' first
   | with_reducible assumption
   | extract_lets +onlyGivenNames x
   | with_reducible apply sesApply1_keeps
   | with_reducible refine keeps_ite (fun _ => ?_) (fun _ => ?_)

theorem takeSealed_keeps {b : Dev} {x0 : Dev} {x1 : Nat} (hx0 : Keeps b x0) : Keeps b (Dev.takeSealed x0 x1) := by
  unfold Dev.takeSealed
  repeat' first
   | with_reducible assumption
   | (extract_lets +onlyGivenNames x; guard_hyp x : Dev := _; refine (fun (hx : Keeps b x) => ?_) ?_; rotate_left; unfold x; clear x; rotate_right; clear_value x)
   | extract_lets +onlyGivenNames x
   | with_reducible apply onIng_keeps
   | with_reducible apply setLive_keeps
   | with_reducible apply sysWrite_keeps
   | with_reducible apply wr_keeps
   | with_reducible refine keeps_ite (fun _ => ?_) (fun _ => ?_)

theorem trgEdge_keeps {b : Dev} {x0 : Dev} {x1 : Nat} {x2 : Nat} {x3 : Bool} (hx0 : Keeps b x0) : Keeps b (Dev.trgEdge x0 x1 x2 x3) := by
  unfold Dev.trgEdge
  repeat' first
   | with_reducible assumption
   | (extract_lets +onlyGivenNames x; guard_hyp x : Dev := _; refine (fun (hx : Keeps b x) => ?_) ?_; rotate_left; unfold x; clear x; rotate_right; clear_value x)
   | extract_lets +onlyGivenNames x
   | with_reducible apply sesEvent_keeps
   | with_reducible apply wr_keeps
   | with_reducible refine keeps_foldl ?_ (fun d x h => ?_)
   | with_reducible refine keeps_ite (fun _ => ?_) (fun _ => ?_)

theorem podTrigger_keeps {b : Dev} {x0 : Dev} {x1 : Nat} {x2 : Nat} {x3 : Nat} (hx0 : Keeps b x0) : Keeps b (Dev.podTrigger x0 x1 x2 x3) := by
  unfold Dev.podTrigger
  repeat' first
   | with_reducible assumption
   | extract_lets +onlyGivenNames x
   | with_reducible apply sesEvent_keeps
   | with_reducible refine keeps_ite (fun _ => ?_) (fun _ => ?_)
   | split

theorem ltcFrame_keeps {b : Dev} {x0 : Dev} {x1 : Nat} {x2 : Nat} {x3 : Nat} (hx0 : Keeps b x0) : Keeps b (Dev.ltcFrame x0 x1 x2 x3) := by
  unfold Dev.ltcFrame
  repeat' first
   | with_reducible assumption
   | (extract_lets +onlyGivenNames x; guard_hyp x : Dev := _; refine (fun (hx : Keeps b x) => ?_) ?_; rotate_left; unfold x; clear x; rotate_right; clear_value x)
   | extract_lets +onlyGivenNames x
   | with_reducible apply onIng_keeps
   | with_reducible apply sesEvent_keeps
   | with_reducible apply wr_keeps
   | with_reducible refine keeps_foldl ?_ (fun d x h => ?_)
   | with_reducible refine keeps_ite (fun _ => ?_) (fun _ => ?_)

theorem ltcLoss_keeps {b : Dev} {x0 : Dev} (hx0 : Keeps b x0) : Keeps b (Dev.ltcLoss x0) := by
  unfold Dev.ltcLoss
  repeat' first
   | with_reducible assumption
   | extract_lets +onlyGivenNames x
   | with_reducible apply wr_keeps
   | with_reducible refine keeps_ite (fun _ => ?_) (fun _ => ?_)

theorem execSesCtrlArm_keeps {x0 : Nat} {x1 : State}  : Steps x1.dev x1 (execSesCtrlArm x0 x1) := by
  unfold execSesCtrlArm
  refine steps_run (fun d h => ?_)
  repeat' first
   | with_reducible assumption
   | extract_lets +onlyGivenNames x
   | with_reducible apply asWrite_keeps
   | with_reducible apply sesEvent_keeps
   | intro m

theorem execSesCtrlTrigger_keeps {x0 : Nat} {x1 : Nat} {x2 : State}  : Steps x2.dev x2 (execSesCtrlTrigger x0 x1 x2) := by
  unfold execSesCtrlTrigger
  refine steps_run (fun d h => ?_)
  repeat' first
   | with_reducible assumption
   | extract_lets +onlyGivenNames x
   | with_reducible apply asWrite_keeps
   | with_reducible apply sesEvent_keeps
   | intro m

theorem execSesCtrlStop_keeps {x0 : Nat} {x1 : State}  : Steps x1.dev x1 (execSesCtrlStop x0 x1) := by
  unfold execSesCtrlStop
  refine steps_run (fun d h => ?_)
  repeat' first
   | with_reducible assumption
   | extract_lets +onlyGivenNames x
   | with_reducible apply asWrite_keeps
   | with_reducible apply sesEvent_keeps
   | intro m

theorem execSesCtrlDisarm_keeps {x0 : Nat} {x1 : State}  : Steps x1.dev x1 (execSesCtrlDisarm x0 x1) := by
  unfold execSesCtrlDisarm
  refine steps_run (fun d h => ?_)
  repeat' first
   | with_reducible assumption
   | extract_lets +onlyGivenNames x
   | with_reducible apply asWrite_keeps
   | with_reducible apply sesEvent_keeps
   | intro m

theorem execTrgEdge_keeps {x0 : Nat} {x1 : Nat} {x2 : Bool} {x3 : State}  : Steps x3.dev x3 (execTrgEdge x0 x1 x2 x3) := by
  unfold execTrgEdge
  refine steps_run (fun d h => ?_)
  repeat' first
   | with_reducible assumption
   | extract_lets +onlyGivenNames x
   | with_reducible apply trgEdge_keeps

theorem execSessionStateApply_keeps {x0 : Nat} {x1 : State}  : Steps x1.dev x1 (execSessionStateApply x0 x1) := by
  unfold execSessionStateApply
  refine steps_run (fun d h => ?_)
  repeat' first
   | with_reducible assumption
   | extract_lets +onlyGivenNames x
   | with_reducible apply sessionApply_keeps

theorem execPostExpiry_keeps {x0 : Nat} {x1 : State}  : Steps x1.dev x1 (execPostExpiry x0 x1) := by
  unfold execPostExpiry
  refine steps_run (fun d h => ?_)
  repeat' first
   | with_reducible assumption
   | extract_lets +onlyGivenNames x
   | with_reducible apply postExpiry_keeps

theorem execTakeSealed_keeps {x0 : Nat} {x1 : State}  : Steps x1.dev x1 (execTakeSealed x0 x1) := by
  unfold execTakeSealed
  refine steps_run (fun d h => ?_)
  repeat' first
   | with_reducible assumption
   | extract_lets +onlyGivenNames x
   | with_reducible apply takeSealed_keeps

theorem execLtcFrameDecoded_keeps {x0 : Nat} {x1 : Nat} {x2 : Nat} {x3 : State}  : Steps x3.dev x3 (execLtcFrameDecoded x0 x1 x2 x3) := by
  unfold execLtcFrameDecoded
  refine steps_run (fun d h => ?_)
  repeat' first
   | with_reducible assumption
   | extract_lets +onlyGivenNames x
   | with_reducible apply ltcFrame_keeps

theorem execLtcLoss_keeps {x0 : State}  : Steps x0.dev x0 (execLtcLoss x0) := by
  unfold execLtcLoss
  refine steps_run (fun d h => ?_)
  repeat' first
   | with_reducible assumption
   | extract_lets +onlyGivenNames x
   | with_reducible apply ltcLoss_keeps

theorem execFrameComplete_keeps {x0 : Nat} {x1 : Nat} {x2 : State}  : Steps x2.dev x2 (execFrameComplete x0 x1 x2) := by
  unfold execFrameComplete
  refine steps_run (fun d h => ?_)
  repeat' first
   | with_reducible assumption
   | extract_lets +onlyGivenNames x
   | with_reducible apply frameComplete_keeps

theorem execTimeout_keeps {x0 : Nat} {x1 : Nat} {x2 : State}  : Steps x2.dev x2 (execTimeout x0 x1 x2) := by
  unfold execTimeout
  refine steps_run (fun d h => ?_)
  repeat' first
   | with_reducible assumption
   | extract_lets +onlyGivenNames x
   | with_reducible apply frameTimeout_keeps

end Sys2Proof.Machine
end

