-- ==== Sys2Proof/Laws/Keeps/Pods.lean ====
section
/-! SUPPORT. What every operation of Machine/Pods.lean keeps. -/
namespace Sys2Proof.Machine
open Sys2Proof

set_option linter.unusedTactic false
set_option linter.unreachableTactic false
set_option linter.tactic.unusedName false

theorem onLane_keeps {b : Dev} {x0 : Dev} {x1 : Nat} {x2 : Lane → Lane} (hx0 : Keeps b x0) : Keeps b (Dev.onLane x0 x1 x2) := by
  unfold Dev.onLane
  repeat' first
   | with_reducible assumption
   | with_reducible apply onIng_keeps

theorem setLaneSt_keeps {b : Dev} {x0 : Dev} {x1 : Nat} {x2 : LaneSt} (hx0 : Keeps b x0) : Keeps b (Dev.setLaneSt x0 x1 x2) := by
  unfold Dev.setLaneSt
  repeat' first
   | with_reducible assumption
   | with_reducible refine fun (d : Dev) (h : Keeps b d) => ?_
   | (extract_lets +onlyGivenNames x; guard_hyp x : Dev := _; refine (fun (hx : Keeps b x) => ?_) ?_; rotate_left; unfold x; clear x; rotate_right; clear_value x)
   | extract_lets +onlyGivenNames x
   | with_reducible apply count_keeps
   | with_reducible apply onLane_keeps
   | with_reducible apply when_keeps
   | with_reducible apply wr_keeps
   | with_reducible refine keeps_ite (fun _ => ?_) (fun _ => ?_)

theorem creditRestart_keeps {b : Dev} {x0 : Dev} {x1 : Nat} {x2 : Nat} (hx0 : Keeps b x0) : Keeps b (Dev.creditRestart x0 x1 x2) := by
  unfold Dev.creditRestart
  repeat' first
   | with_reducible assumption
   | (extract_lets +onlyGivenNames x; clear_value x)
   | extract_lets +onlyGivenNames x
   | with_reducible apply onPath_keeps
   | with_reducible apply sendCredit_keeps

theorem pathUp_keeps {b : Dev} {x0 : Dev} {x1 : Nat} {x2 : Nat} (hx0 : Keeps b x0) : Keeps b (Dev.pathUp x0 x1 x2) := by
  unfold Dev.pathUp
  repeat' first
   | with_reducible assumption
   | with_reducible refine fun (d : Dev) (h : Keeps b d) => ?_
   | (extract_lets +onlyGivenNames x; guard_hyp x : Dev := _; refine (fun (hx : Keeps b x) => ?_) ?_; rotate_left; unfold x; clear x; rotate_right; clear_value x)
   | (extract_lets +onlyGivenNames x; clear_value x)
   | extract_lets +onlyGivenNames x
   | with_reducible apply creditRestart_keeps
   | with_reducible apply onPath_keeps
   | with_reducible apply setPathSt_keeps
   | with_reducible apply when_keeps
   | with_reducible apply wr_keeps

theorem pathDown_keeps {b : Dev} {x0 : Dev} {x1 : Nat} {x2 : Nat} (hx0 : Keeps b x0) : Keeps b (Dev.pathDown x0 x1 x2) := by
  unfold Dev.pathDown
  repeat' first
   | with_reducible assumption
   | with_reducible refine fun (d : Dev) (h : Keeps b d) => ?_
   | extract_lets +onlyGivenNames x
   | with_reducible apply setPathSt_keeps
   | with_reducible apply when_keeps
   | with_reducible apply wr_keeps

theorem lanesDown_keeps {b : Dev} {x0 : Dev} {x1 : Nat} (hx0 : Keeps b x0) : Keeps b (Dev.lanesDown x0 x1) := by
  unfold Dev.lanesDown
  repeat' first
   | with_reducible assumption
   | (extract_lets +onlyGivenNames x; guard_hyp x : Dev := _; refine (fun (hx : Keeps b x) => ?_) ?_; rotate_left; unfold x; clear x; rotate_right; clear_value x)
   | extract_lets +onlyGivenNames x
   | with_reducible apply pathDown_keeps
   | with_reducible apply raise_keeps
   | with_reducible refine keeps_foldl ?_ (fun d x h => ?_)
   | with_reducible refine keeps_ite (fun _ => ?_) (fun _ => ?_)

theorem badHeaders_keeps {b : Dev} {x0 : Dev} {x1 : Nat} {x2 : Nat} (hx0 : Keeps b x0) : Keeps b (Dev.badHeaders x0 x1 x2) := by
  unfold Dev.badHeaders
  repeat' first
   | with_reducible assumption
   | with_reducible refine fun (d : Dev) (h : Keeps b d) => ?_
   | with_reducible apply countN_keeps
   | with_reducible apply when_keeps

theorem flLost_keeps {b : Dev} {x0 : Dev} {x1 : Nat} {x2 : Nat} (hx0 : Keeps b x0) : Keeps b (Dev.flLost x0 x1 x2) := by
  unfold Dev.flLost
  repeat' first
   | with_reducible assumption
   | (extract_lets +onlyGivenNames x; guard_hyp x : Dev := _; refine (fun (hx : Keeps b x) => ?_) ?_; rotate_left; unfold x; clear x; rotate_right; clear_value x)
   | extract_lets +onlyGivenNames x
   | with_reducible apply badHeaders_keeps
   | with_reducible apply lanesDown_keeps
   | with_reducible apply setLaneSt_keeps
   | with_reducible refine keeps_ite (fun _ => ?_) (fun _ => ?_)

theorem flSignalLoss_keeps {b : Dev} {x0 : Dev} {x1 : Nat} {x2 : Nat} (hx0 : Keeps b x0) : Keeps b (Dev.flSignalLoss x0 x1 x2) := by
  unfold Dev.flSignalLoss
  repeat' first
   | with_reducible assumption
   | (extract_lets +onlyGivenNames x; guard_hyp x : Dev := _; refine (fun (hx : Keeps b x) => ?_) ?_; rotate_left; unfold x; clear x; rotate_right; clear_value x)
   | extract_lets +onlyGivenNames x
   | with_reducible apply badHeaders_keeps
   | with_reducible apply lanesDown_keeps
   | with_reducible apply setLaneSt_keeps
   | split

theorem laneJoin_keeps {b : Dev} {x0 : Dev} {x1 : Nat} (hx0 : Keeps b x0) : Keeps b (Dev.laneJoin x0 x1) := by
  unfold Dev.laneJoin
  repeat' first
   | with_reducible assumption
   | extract_lets +onlyGivenNames x
   | with_reducible apply setLaneSt_keeps
   | with_reducible refine keeps_ite (fun _ => ?_) (fun _ => ?_)

theorem laneLeave_keeps {b : Dev} {x0 : Dev} {x1 : Nat} (hx0 : Keeps b x0) : Keeps b (Dev.laneLeave x0 x1) := by
  unfold Dev.laneLeave
  repeat' first
   | with_reducible assumption
   | extract_lets +onlyGivenNames x
   | with_reducible apply onLane_keeps
   | with_reducible apply setLaneSt_keeps

theorem judgeGroup_keeps {b : Dev} {x0 : Dev} {x1 : Nat} {x2 : Nat} {x3 : Nat} (hx0 : Keeps b x0) : Keeps b (Dev.judgeGroup x0 x1 x2 x3) := by
  unfold Dev.judgeGroup
  repeat' first
   | with_reducible assumption
   | (extract_lets +onlyGivenNames x; guard_hyp x : Dev := _; refine (fun (hx : Keeps b x) => ?_) ?_; rotate_left; unfold x; clear x; rotate_right; clear_value x)
   | (extract_lets +onlyGivenNames x; clear_value x)
   | extract_lets +onlyGivenNames x
   | with_reducible apply onLane_keeps
   | with_reducible apply pathUp_keeps
   | with_reducible apply raise_keeps
   | with_reducible apply setLaneSt_keeps
   | with_reducible apply takeInjected_keeps
   | with_reducible apply wr_keeps
   | with_reducible refine keeps_foldl ?_ (fun d x h => ?_)
   | with_reducible refine keeps_ite (fun _ => ?_) (fun _ => ?_)
   | split

theorem flAm_keeps {b : Dev} {x0 : Dev} {x1 : Nat} {x2 : AmBlock} (hx0 : Keeps b x0) : Keeps b (Dev.flAm x0 x1 x2) := by
  unfold Dev.flAm
  repeat' first
   | with_reducible assumption
   | (extract_lets +onlyGivenNames x; guard_hyp x : Dev := _; refine (fun (hx : Keeps b x) => ?_) ?_; rotate_left; unfold x; clear x; rotate_right; clear_value x)
   | (extract_lets +onlyGivenNames x; clear_value x)
   | extract_lets +onlyGivenNames x
   | with_reducible apply badHeaders_keeps
   | with_reducible apply judgeGroup_keeps
   | with_reducible apply onLane_keeps
   | with_reducible apply wr_keeps
   | with_reducible refine keeps_foldl ?_ (fun d x h => ?_)
   | with_reducible refine keeps_ite (fun _ => ?_) (fun _ => ?_)

theorem singleClose_keeps {b : Dev} {x0 : Dev} {x1 : Nat} {x2 : PodRec} (hx0 : Keeps b x0) : Keeps b (Dev.singleClose x0 x1 x2) := by
  unfold Dev.singleClose
  repeat' first
   | with_reducible assumption
   | (extract_lets +onlyGivenNames x; guard_hyp x : Dev := _; refine (fun (hx : Keeps b x) => ?_) ?_; rotate_left; unfold x; clear x; rotate_right; clear_value x)
   | (extract_lets +onlyGivenNames x; clear_value x)
   | extract_lets +onlyGivenNames x
   | with_reducible apply count_keeps
   | with_reducible apply onPath_keeps
   | with_reducible apply raise_keeps
   | with_reducible apply setPathSt_keeps
   | with_reducible refine keeps_ite (fun _ => ?_) (fun _ => ?_)

theorem pairedClose_keeps {b : Dev} {x0 : Dev} {x1 : Nat} {x2 : Nat} (hx0 : Keeps b x0) : Keeps b (Dev.pairedClose x0 x1 x2) := by
  unfold Dev.pairedClose
  repeat' first
   | with_reducible assumption
   | (extract_lets +onlyGivenNames x; guard_hyp x : Dev := _; refine (fun (hx : Keeps b x) => ?_) ?_; rotate_left; unfold x; clear x; rotate_right; clear_value x)
   | (extract_lets +onlyGivenNames x; clear_value x)
   | extract_lets +onlyGivenNames x
   | with_reducible apply onPath_keeps
   | with_reducible apply setPathSt_keeps
   | with_reducible refine keeps_foldl ?_ (fun d x h => ?_)
   | with_reducible refine keeps_ite (fun _ => ?_) (fun _ => ?_)

theorem onPod_keeps {b : Dev} {x0 : Dev} {x1 : Nat} {x2 : Nat} {x3 : PodRec → PodRec} (hx0 : Keeps b x0) : Keeps b (Dev.onPod x0 x1 x2 x3) := by
  unfold Dev.onPod
  repeat' first
   | with_reducible assumption
   | with_reducible apply onStream_keeps

theorem slideWindow_keeps {b : Dev} {x0 : Dev} {x1 : Nat} {x2 : Nat} (hx0 : Keeps b x0) : Keeps b (Dev.slideWindow x0 x1 x2) := by
  unfold Dev.slideWindow
  repeat' first
   | with_reducible assumption
   | (extract_lets +onlyGivenNames x; guard_hyp x : Dev := _; refine (fun (hx : Keeps b x) => ?_) ?_; rotate_left; unfold x; clear x; rotate_right; clear_value x)
   | (extract_lets +onlyGivenNames x; clear_value x)
   | extract_lets +onlyGivenNames x
   | with_reducible apply onStream_keeps
   | with_reducible apply singleClose_keeps
   | with_reducible refine keeps_foldl ?_ (fun d x h => ?_)

theorem pairingTimeout_keeps {b : Dev} {x0 : Dev} {x1 : Nat} {x2 : Nat} (hx0 : Keeps b x0) : Keeps b (Dev.pairingTimeout x0 x1 x2) := by
  unfold Dev.pairingTimeout
  repeat' first
   | with_reducible assumption
   | extract_lets +onlyGivenNames x
   | with_reducible apply onPod_keeps
   | with_reducible apply singleClose_keeps
   | with_reducible refine keeps_ite (fun _ => ?_) (fun _ => ?_)
   | split

theorem secondCopy_keeps {b : Dev} {x0 : Dev} {x1 : PodArrival} {x2 : PodHdr} {x3 : PodRec} (hx0 : Keeps b x0) : Keeps b (Dev.secondCopy x0 x1 x2 x3) := by
  unfold Dev.secondCopy
  repeat' first
   | with_reducible assumption
   | with_reducible refine fun (d : Dev) (h : Keeps b d) => ?_
   | (generalize hp : Dev.chainRead _ _ _ _ = p; refine (fun (hk : KeepsP b p) => ?_) (keepsP_gen hp (chainRead_keeps ?_)); rotate_left; clear hp; clear p; rotate_right; clear hp; obtain ⟨y, z⟩ := p; replace hk : Keeps b z := hk; try dsimp -zeta only)
   | (extract_lets +onlyGivenNames x; guard_hyp x : Dev := _; refine (fun (hx : Keeps b x) => ?_) ?_; rotate_left; unfold x; clear x; rotate_right; clear_value x)
   | (extract_lets +onlyGivenNames x; clear_value x)
   | extract_lets +onlyGivenNames x
   | with_reducible apply chainWrite_keeps
   | with_reducible apply count_keeps
   | with_reducible apply onFrame_keeps
   | with_reducible apply onPod_keeps
   | with_reducible apply pairedClose_keeps
   | with_reducible apply raise_keeps
   | with_reducible apply rewriteEntry_keeps
   | with_reducible apply takeInjected_keeps
   | with_reducible apply when_keeps
   | with_reducible apply writeMrr_keeps
   | with_reducible refine keeps_ite (fun _ => ?_) (fun _ => ?_)
   | split

theorem releaseOldest_keeps {b : Dev} {x0 : Dev} {x1 : Nat} (hx0 : Keeps b x0) : Keeps b (Dev.releaseOldest x0 x1) := by
  unfold Dev.releaseOldest
  repeat' first
   | with_reducible assumption
   | with_reducible refine fun (d : Dev) (h : Keeps b d) => ?_
   | (extract_lets +onlyGivenNames x; guard_hyp x : Dev := _; refine (fun (hx : Keeps b x) => ?_) ?_; rotate_left; unfold x; clear x; rotate_right; clear_value x)
   | extract_lets +onlyGivenNames x
   | with_reducible apply closeIncomplete_keeps
   | with_reducible apply onFrame_keeps
   | with_reducible apply raise_keeps
   | with_reducible apply when_keeps
   | split

theorem ringRelease_keeps {b : Dev} {x0 : Dev} {x1 : Nat} {x2 : Nat} {x3 : Nat} (hx0 : Keeps b x0) : Keeps b (Dev.ringRelease x0 x1 x2 x3) := by
  induction x3 generalizing x0 x1 x2 with
  | zero =>
    unfold Dev.ringRelease
    repeat' first
     | with_reducible assumption
  | succ n ih =>
    unfold Dev.ringRelease
    repeat' first
     | with_reducible assumption
     | with_reducible apply ih
     | extract_lets +onlyGivenNames x
     | with_reducible apply releaseOldest_keeps
     | with_reducible refine keeps_ite (fun _ => ?_) (fun _ => ?_)

theorem placeSlot_keeps {b : Dev} {x0 : Dev} {x1 : Nat} {x2 : PodHdr} {x3 : Nat} (hx0 : Keeps b x0) : KeepsP b (Dev.placeSlot x0 x1 x2 x3) := by
  unfold Dev.placeSlot
  repeat' first
   | with_reducible assumption
   | with_reducible refine fun (d : Dev) (h : Keeps b d) => ?_
   | (generalize hp : Dev.chainGrow _ _ _ _ = p; refine (fun (hk : KeepsP b p) => ?_) (keepsP_gen hp (chainGrow_keeps ?_)); rotate_left; clear hp; clear p; rotate_right; clear hp; obtain ⟨y, z⟩ := p; replace hk : Keeps b z := hk; try dsimp -zeta only)
   | (extract_lets +onlyGivenNames x; guard_hyp x : Dev := _; refine (fun (hx : Keeps b x) => ?_) ?_; rotate_left; unfold x; clear x; rotate_right; clear_value x)
   | (extract_lets +onlyGivenNames x; clear_value x)
   | extract_lets +onlyGivenNames x
   | with_reducible apply onSession_keeps
   | with_reducible apply onStream_keeps
   | with_reducible apply reclaim_keeps
   | with_reducible apply ringRelease_keeps
   | with_reducible apply showOpen_keeps
   | with_reducible apply when_keeps
   | with_reducible apply wr_keeps
   | with_reducible refine keepsP_ite (fun _ => ?_) (fun _ => ?_)
   | with_reducible refine keepsP_mk ?_

theorem placeFrame_keeps {b : Dev} {x0 : Dev} {x1 : Nat} {x2 : PodHdr} {x3 : Nat} (hx0 : Keeps b x0) : KeepsP b (Dev.placeFrame x0 x1 x2 x3) := by
  unfold Dev.placeFrame
  repeat' first
   | with_reducible assumption
   | (generalize hp : Dev.placeSlot _ _ _ _ = p; refine (fun (hk : KeepsP b p) => ?_) (keepsP_gen hp (placeSlot_keeps ?_)); rotate_left; clear hp; clear p; rotate_right; clear hp; obtain ⟨y, z⟩ := p; replace hk : Keeps b z := hk; try dsimp -zeta only)
   | (extract_lets +onlyGivenNames x; clear_value x)
   | extract_lets +onlyGivenNames x
   | with_reducible apply closeIncomplete_keeps
   | with_reducible apply fallsOut_keeps
   | with_reducible apply raise_keeps
   | with_reducible apply takeInjected_keeps
   | with_reducible refine keeps_ite (fun _ => ?_) (fun _ => ?_)
   | with_reducible refine keepsP_ite (fun _ => ?_) (fun _ => ?_)
   | split
   | with_reducible refine keepsP_mk ?_

theorem frameFor_keeps {b : Dev} {x0 : Dev} {x1 : Nat} {x2 : PodHdr} {x3 : Nat} (hx0 : Keeps b x0) : KeepsP b (Dev.frameFor x0 x1 x2 x3) := by
  unfold Dev.frameFor
  repeat' first
   | with_reducible assumption
   | (generalize hp : Dev.placeFrame _ _ _ _ = p; refine (fun (hk : KeepsP b p) => ?_) (keepsP_gen hp (placeFrame_keeps ?_)); rotate_left; clear hp; clear p; rotate_right; clear hp; obtain ⟨y, z⟩ := p; replace hk : Keeps b z := hk; try dsimp -zeta only)
   | split
   | with_reducible refine keepsP_mk ?_

theorem takeChunk_keeps {b : Dev} {x0 : Dev} {x1 : Nat} {x2 : Nat} {x3 : PodHdr} {x4 : List Byte} (hx0 : Keeps b x0) : Keeps b (Dev.takeChunk x0 x1 x2 x3 x4) := by
  unfold Dev.takeChunk
  repeat' first
   | with_reducible assumption
   | (extract_lets +onlyGivenNames x; guard_hyp x : Dev := _; refine (fun (hx : Keeps b x) => ?_) ?_; rotate_left; unfold x; clear x; rotate_right; clear_value x)
   | (extract_lets +onlyGivenNames x; clear_value x)
   | with_reducible apply chainWrite_keeps
   | with_reducible apply onFrame_keeps
   | split

theorem acceptPod_keeps {b : Dev} {x0 : Dev} {x1 : PodArrival} {x2 : PodHdr} {x3 : Nat} (hx0 : Keeps b x0) : Keeps b (Dev.acceptPod x0 x1 x2 x3) := by
  unfold Dev.acceptPod
  repeat' first
   | with_reducible assumption
   | with_reducible refine fun (d : Dev) (h : Keeps b d) => ?_
   | (extract_lets +onlyGivenNames x; guard_hyp x : Dev := _; refine (fun (hx : Keeps b x) => ?_) ?_; rotate_left; unfold x; clear x; rotate_right; clear_value x)
   | (extract_lets +onlyGivenNames x; clear_value x)
   | extract_lets +onlyGivenNames x
   | with_reducible apply count_keeps
   | with_reducible apply onPath_keeps
   | with_reducible apply onStream_keeps
   | with_reducible apply podTrigger_keeps
   | with_reducible apply slideWindow_keeps
   | with_reducible apply takeChunk_keeps
   | with_reducible apply when_keeps

theorem discardPod_keeps {b : Dev} {x0 : Dev} {x1 : PodArrival} {x2 : Nat} {x3 : Option Nat} (hx0 : Keeps b x0) : Keeps b (Dev.discardPod x0 x1 x2 x3) := by
  unfold Dev.discardPod
  repeat' first
   | with_reducible assumption
   | with_reducible refine fun (d : Dev) (h : Keeps b d) => ?_
   | (extract_lets +onlyGivenNames x; guard_hyp x : Dev := _; refine (fun (hx : Keeps b x) => ?_) ?_; rotate_left; unfold x; clear x; rotate_right; clear_value x)
   | (extract_lets +onlyGivenNames x; clear_value x)
   | extract_lets +onlyGivenNames x
   | with_reducible apply count_keeps
   | with_reducible apply raise_keeps
   | with_reducible apply returnCredit_keeps
   | with_reducible apply takeInjected_keeps
   | with_reducible apply when_keeps
   | split

theorem podReceived_keeps {b : Dev} {x0 : Dev} {x1 : PodArrival} (hx0 : Keeps b x0) : Keeps b (Dev.podReceived x0 x1) := by
  unfold Dev.podReceived
  repeat' first
   | with_reducible assumption
   | with_reducible refine fun (d : Dev) (h : Keeps b d) => ?_
   | (generalize hp : Dev.frameFor _ _ _ _ = p; refine (fun (hk : KeepsP b p) => ?_) (keepsP_gen hp (frameFor_keeps ?_)); rotate_left; clear hp; clear p; rotate_right; clear hp; obtain ⟨y, z⟩ := p; replace hk : Keeps b z := hk; try dsimp -zeta only)
   | (extract_lets +onlyGivenNames x; guard_hyp x : Dev := _; refine (fun (hx : Keeps b x) => ?_) ?_; rotate_left; unfold x; clear x; rotate_right; clear_value x)
   | (extract_lets +onlyGivenNames x; clear_value x)
   | extract_lets +onlyGivenNames x
   | with_reducible apply acceptPod_keeps
   | with_reducible apply discardPod_keeps
   | with_reducible apply onPath_keeps
   | with_reducible apply returnCredit_keeps
   | with_reducible apply secondCopy_keeps
   | with_reducible apply when_keeps
   | with_reducible refine keeps_ite (fun _ => ?_) (fun _ => ?_)
   | split
   | with_reducible refine keepsP_mk ?_
   | with_reducible refine keeps_pair ?_ ‹_ = (_, _)›

theorem payloadWritten_keeps {b : Dev} {x0 : Dev} {x1 : Nat} {x2 : Nat} {x3 : Nat} (hx0 : Keeps b x0) : Keeps b (Dev.payloadWritten x0 x1 x2 x3) := by
  unfold Dev.payloadWritten
  repeat' first
   | with_reducible assumption
   | (extract_lets +onlyGivenNames x; guard_hyp x : Dev := _; refine (fun (hx : Keeps b x) => ?_) ?_; rotate_left; unfold x; clear x; rotate_right; clear_value x)
   | extract_lets +onlyGivenNames x
   | with_reducible apply onPath_keeps
   | with_reducible apply onPod_keeps
   | with_reducible apply onStream_keeps
   | with_reducible apply returnCredit_keeps
   | with_reducible refine keeps_ite (fun _ => ?_) (fun _ => ?_)

theorem creditPeriodic_keeps {b : Dev} {x0 : Dev} {x1 : Nat} {x2 : Nat} (hx0 : Keeps b x0) : Keeps b (Dev.creditPeriodic x0 x1 x2) := by
  unfold Dev.creditPeriodic
  repeat' first
   | with_reducible assumption
   | extract_lets +onlyGivenNames x
   | with_reducible apply sendCredit_keeps
   | with_reducible refine keeps_ite (fun _ => ?_) (fun _ => ?_)

theorem streamStart_keeps {b : Dev} {x0 : Dev} {x1 : Nat} (hx0 : Keeps b x0) : Keeps b (Dev.streamStart x0 x1) := by
  unfold Dev.streamStart
  repeat' first
   | with_reducible assumption
   | (extract_lets +onlyGivenNames x; guard_hyp x : Dev := _; refine (fun (hx : Keeps b x) => ?_) ?_; rotate_left; unfold x; clear x; rotate_right; clear_value x)
   | (extract_lets +onlyGivenNames x; clear_value x)
   | extract_lets +onlyGivenNames x
   | with_reducible apply laneJoin_keeps
   | with_reducible apply onStream_keeps
   | with_reducible apply sendCredit_keeps
   | with_reducible apply setPathSt_keeps
   | with_reducible refine keeps_foldl ?_ (fun d x h => ?_)

theorem streamStop_keeps {b : Dev} {x0 : Dev} {x1 : Nat} (hx0 : Keeps b x0) : Keeps b (Dev.streamStop x0 x1) := by
  unfold Dev.streamStop
  repeat' first
   | with_reducible assumption
   | (extract_lets +onlyGivenNames x; guard_hyp x : Dev := _; refine (fun (hx : Keeps b x) => ?_) ?_; rotate_left; unfold x; clear x; rotate_right; clear_value x)
   | (extract_lets +onlyGivenNames x; clear_value x)
   | extract_lets +onlyGivenNames x
   | with_reducible apply laneLeave_keeps
   | with_reducible apply onStream_keeps
   | with_reducible apply setPathSt_keeps
   | with_reducible apply wr_keeps
   | with_reducible refine keeps_foldl ?_ (fun d x h => ?_)

theorem execPodReceived_keeps {x0 : PodArrival} {x1 : State}  : Steps x1.dev x1 (execPodReceived x0 x1) := by
  unfold execPodReceived
  refine steps_run (fun d h => ?_)
  repeat' first
   | with_reducible assumption
   | extract_lets +onlyGivenNames x
   | with_reducible apply podReceived_keeps

theorem execPodPayloadWritten_keeps {x0 : Nat} {x1 : Nat} {x2 : Nat} {x3 : State}  : Steps x3.dev x3 (execPodPayloadWritten x0 x1 x2 x3) := by
  unfold execPodPayloadWritten
  refine steps_run (fun d h => ?_)
  repeat' first
   | with_reducible assumption
   | extract_lets +onlyGivenNames x
   | with_reducible apply payloadWritten_keeps

theorem execCreditPodPeriodic_keeps {x0 : Nat} {x1 : Nat} {x2 : State}  : Steps x2.dev x2 (execCreditPodPeriodic x0 x1 x2) := by
  unfold execCreditPodPeriodic
  refine steps_run (fun d h => ?_)
  repeat' first
   | with_reducible assumption
   | extract_lets +onlyGivenNames x
   | with_reducible apply creditPeriodic_keeps

theorem execPairingTimeout_keeps {x0 : Nat} {x1 : Nat} {x2 : State}  : Steps x2.dev x2 (execPairingTimeout x0 x1 x2) := by
  unfold execPairingTimeout
  refine steps_run (fun d h => ?_)
  repeat' first
   | with_reducible assumption
   | extract_lets +onlyGivenNames x
   | with_reducible apply pairingTimeout_keeps

end Sys2Proof.Machine
end

