-- ==== Sys2Proof/Laws/Keeps/Commit.lean ====
section
/-! SUPPORT. What every operation of Machine/Commit.lean keeps. -/
namespace Sys2Proof.Machine
open Sys2Proof

set_option linter.unusedTactic false
set_option linter.unreachableTactic false
set_option linter.tactic.unusedName false

theorem asStaged_keeps {b : Dev} {x0 : Dev} {x1 : List Nat} (hx0 : Keeps b x0) : Keeps b (Dev.asStaged x0 x1) := by
  unfold Dev.asStaged
  repeat' first
   | with_reducible exact keeps_mk (kept_of ‹Keeps b _›)

theorem commitState_keeps {b : Dev} {x0 : Dev} {x1 : Nat} {x2 : Nat} (hx0 : Keeps b x0) : Keeps b (Dev.commitState x0 x1 x2) := by
  unfold Dev.commitState
  repeat' first
   | with_reducible assumption
   | with_reducible exact fun h => h
   | with_reducible exact rfl
   | with_reducible apply onPlat_keeps

theorem groupState_keeps {b : Dev} {x0 : Dev} {x1 : Nat} {x2 : Nat} (hx0 : Keeps b x0) : Keeps b (Dev.groupState x0 x1 x2) := by
  unfold Dev.groupState
  repeat' first
   | with_reducible assumption
   | with_reducible exact fun h => h
   | with_reducible exact rfl
   | with_reducible apply onPlat_keeps

theorem addStaged_keeps {b : Dev} {x0 : Dev} {x1 : Staged} (hx0 : Keeps b x0) : Keeps b (Dev.addStaged x0 x1) := by
  unfold Dev.addStaged
  repeat' first
   | with_reducible assumption
   | with_reducible exact fun h => h
   | with_reducible exact rfl
   | with_reducible apply onPlat_keeps

theorem buildStart_keeps {b : Dev} {x0 : Dev} {x1 : Dev} {x2 : Nat} (hx0 : Keeps b x0) (hx1 : Keeps b x1) : Keeps b (Dev.buildStart x0 x1 x2) := by
  unfold Dev.buildStart
  repeat' first
   | with_reducible assumption
   | with_reducible refine fun (d : Dev) (h : Keeps b d) => ?_
   | extract_lets +onlyGivenNames x
   | with_reducible apply laneJoin_keeps
   | with_reducible apply reshapeStart_keeps
   | with_reducible apply when_keeps
   | with_reducible refine keeps_foldl ?_ (fun d x h => ?_)
   | split

theorem stagePage_keeps {b : Dev} {x0 : Dev} {x1 : Nat} {x2 : Nat} {x3 : Nat} {x4 : List Nat} {x5 : Nat} (hx0 : Keeps b x0) : Keeps b (Dev.stagePage x0 x1 x2 x3 x4 x5) := by
  unfold Dev.stagePage
  repeat' first
   | with_reducible assumption
   | (extract_lets +onlyGivenNames x; guard_hyp x : Dev := _; refine (fun (hx : Keeps b x) => ?_) ?_; rotate_left; unfold x; clear x; rotate_right; clear_value x)
   | (extract_lets +onlyGivenNames x; clear_value x)
   | extract_lets +onlyGivenNames x
   | with_reducible apply addStaged_keeps
   | with_reducible apply asStaged_keeps
   | with_reducible apply buildStart_keeps
   | with_reducible apply commitState_keeps
   | with_reducible apply wr_keeps
   | with_reducible refine keeps_ite (fun _ => ?_) (fun _ => ?_)
   | split

theorem commitRefused_keeps {b : Dev} {x0 : Dev} {x1 : Nat} (hx0 : Keeps b x0) : Keeps b (Dev.commitRefused x0 x1) := by
  unfold Dev.commitRefused
  repeat' first
   | with_reducible assumption
   | extract_lets +onlyGivenNames x
   | with_reducible apply commitState_keeps
   | with_reducible apply raise_keeps

theorem commitKey_keeps {b : Dev} {x0 : Dev} {x1 : Nat} {x2 : Nat} (hx0 : Keeps b x0) : Keeps b (Dev.commitKey x0 x1 x2) := by
  unfold Dev.commitKey
  repeat' first
   | with_reducible assumption
   | (extract_lets +onlyGivenNames x; clear_value x)
   | extract_lets +onlyGivenNames x
   | with_reducible apply commitRefused_keeps
   | with_reducible apply countIgnored_keeps
   | with_reducible apply stagePage_keeps
   | with_reducible refine keeps_ite (fun _ => ?_) (fun _ => ?_)

theorem groupKey_keeps {b : Dev} {x0 : Dev} {x1 : Nat} {x2 : Nat} (hx0 : Keeps b x0) : Keeps b (Dev.groupKey x0 x1 x2) := by
  unfold Dev.groupKey
  repeat' first
   | with_reducible assumption
   | (extract_lets +onlyGivenNames x; clear_value x)
   | extract_lets +onlyGivenNames x
   | with_reducible apply commitRefused_keeps
   | with_reducible apply countIgnored_keeps
   | with_reducible apply groupState_keeps
   | with_reducible apply stagePage_keeps
   | with_reducible refine keeps_foldl ?_ (fun d x h => ?_)
   | with_reducible refine keeps_ite (fun _ => ?_) (fun _ => ?_)

theorem unstage_keeps {b : Dev} {x0 : Dev} {x1 : List Staged} (hx0 : Keeps b x0) : Keeps b (Dev.unstage x0 x1) := by
  unfold Dev.unstage
  repeat' first
   | with_reducible assumption
   | with_reducible exact fun h => h
   | with_reducible exact rfl
   | (extract_lets +onlyGivenNames x; guard_hyp x : Dev := _; refine (fun (hx : Keeps b x) => ?_) ?_; rotate_left; unfold x; clear x; rotate_right; clear_value x)
   | (extract_lets +onlyGivenNames x; clear_value x)
   | extract_lets +onlyGivenNames x
   | with_reducible apply commitState_keeps
   | with_reducible apply laneLeave_keeps
   | with_reducible apply onPlat_keeps
   | with_reducible apply reshapeAbandon_keeps
   | with_reducible refine keeps_foldl ?_ (fun d x h => ?_)
   | split

theorem cancelKey_keeps {b : Dev} {x0 : Dev} {x1 : Nat} {x2 : Nat} (hx0 : Keeps b x0) : Keeps b (Dev.cancelKey x0 x1 x2) := by
  unfold Dev.cancelKey
  repeat' first
   | with_reducible assumption
   | (extract_lets +onlyGivenNames x; clear_value x)
   | extract_lets +onlyGivenNames x
   | with_reducible apply countIgnored_keeps
   | with_reducible apply unstage_keeps
   | with_reducible refine keeps_ite (fun _ => ?_) (fun _ => ?_)

theorem groupCancel_keeps {b : Dev} {x0 : Dev} {x1 : Nat} {x2 : Nat} (hx0 : Keeps b x0) : Keeps b (Dev.groupCancel x0 x1 x2) := by
  unfold Dev.groupCancel
  repeat' first
   | with_reducible assumption
   | (extract_lets +onlyGivenNames x; clear_value x)
   | extract_lets +onlyGivenNames x
   | with_reducible apply countIgnored_keeps
   | with_reducible apply groupState_keeps
   | with_reducible apply unstage_keeps
   | with_reducible refine keeps_ite (fun _ => ?_) (fun _ => ?_)

theorem rebond_keeps {b : Dev} {x0 : Dev} {x1 : Nat} {x2 : Nat} (hx0 : Keeps b x0) : Keeps b (Dev.rebond x0 x1 x2) := by
  unfold Dev.rebond
  repeat' first
   | with_reducible assumption
   | (extract_lets +onlyGivenNames x; guard_hyp x : Dev := _; refine (fun (hx : Keeps b x) => ?_) ?_; rotate_left; unfold x; clear x; rotate_right; clear_value x)
   | (extract_lets +onlyGivenNames x; clear_value x)
   | extract_lets +onlyGivenNames x
   | with_reducible apply onStream_keeps
   | with_reducible apply pathUp_keeps
   | with_reducible apply sendCredit_keeps
   | with_reducible apply setPathSt_keeps
   | with_reducible refine keeps_foldl ?_ (fun d x h => ?_)
   | with_reducible refine keeps_ite (fun _ => ?_) (fun _ => ?_)

theorem applied_keeps {b : Dev} {x0 : Dev} {x1 : Dev} {x2 : Nat} (hx0 : Keeps b x0) (hx1 : Keeps b x1) : Keeps b (Dev.applied x0 x1 x2) := by
  unfold Dev.applied
  repeat' first
   | with_reducible assumption
   | with_reducible refine fun (d : Dev) (h : Keeps b d) => ?_
   | (extract_lets +onlyGivenNames x; guard_hyp x : Dev := _; refine (fun (hx : Keeps b x) => ?_) ?_; rotate_left; unfold x; clear x; rotate_right; clear_value x)
   | extract_lets +onlyGivenNames x
   | with_reducible apply drainWindow_keeps
   | with_reducible apply fallsOut_keeps
   | with_reducible apply loopOff_keeps
   | with_reducible apply parRootWrite_keeps
   | with_reducible apply poolLevels_keeps
   | with_reducible apply rebond_keeps
   | with_reducible apply tableFree_keeps
   | with_reducible apply tablesDue_keeps
   | with_reducible apply tablesGrant_keeps
   | with_reducible apply when_keeps
   | with_reducible apply wr_keeps
   | with_reducible refine keeps_foldl ?_ (fun d x h => ?_)
   | with_reducible refine keeps_ite (fun _ => ?_) (fun _ => ?_)
   | split

theorem switch_keeps {b : Dev} {x0 : Dev} {x1 : List Staged} {x2 : Nat} (hx0 : Keeps b x0) : Keeps b (Dev.switch x0 x1 x2) := by
  unfold Dev.switch
  repeat' first
   | with_reducible assumption
   | with_reducible exact keeps_mk (kept_of ‹Keeps b _›)
   | with_reducible exact fun h => h
   | with_reducible exact rfl
   | with_reducible refine fun (d : Dev) (h : Keeps b d) => ?_
   | (extract_lets +onlyGivenNames x; guard_hyp x : Dev := _; refine (fun (hx : Keeps b x) => ?_) ?_; rotate_left; unfold x; clear x; rotate_right; clear_value x)
   | (extract_lets +onlyGivenNames x; clear_value x)
   | extract_lets +onlyGivenNames x
   | with_reducible apply applied_keeps
   | with_reducible apply chipEvent_keeps
   | with_reducible apply commitState_keeps
   | with_reducible apply groupState_keeps
   | with_reducible apply onPlat_keeps
   | with_reducible apply raise_keeps
   | with_reducible apply reshapeSwitch_keeps
   | with_reducible apply unstage_keeps
   | with_reducible apply when_keeps
   | with_reducible refine keeps_foldl ?_ (fun d x h => ?_)
   | with_reducible refine keeps_ite (fun _ => ?_) (fun _ => ?_)
   | split

theorem commitsDue_keeps {b : Dev} {x0 : Dev} {x1 : Nat} {x2 : Staged → Bool} (hx0 : Keeps b x0) : Keeps b (Dev.commitsDue x0 x1 x2) := by
  unfold Dev.commitsDue
  repeat' first
   | with_reducible assumption
   | extract_lets +onlyGivenNames x
   | with_reducible apply switch_keeps
   | with_reducible refine keeps_foldl ?_ (fun d x h => ?_)
   | with_reducible refine keeps_ite (fun _ => ?_) (fun _ => ?_)

theorem buildComplete_keeps {b : Dev} {x0 : Dev} {x1 : Nat} {x2 : Nat} (hx0 : Keeps b x0) : Keeps b (Dev.buildComplete x0 x1 x2) := by
  unfold Dev.buildComplete
  repeat' first
   | with_reducible assumption
   | with_reducible exact fun h => h
   | with_reducible exact rfl
   | extract_lets +onlyGivenNames x
   | with_reducible apply onPlat_keeps
   | with_reducible refine keeps_ite (fun _ => ?_) (fun _ => ?_)

theorem buildFails_keeps {b : Dev} {x0 : Dev} {x1 : Nat} {x2 : optParam Nat page} (hx0 : Keeps b x0) : Keeps b (Dev.buildFails x0 x1 x2) := by
  unfold Dev.buildFails
  repeat' first
   | with_reducible assumption
   | with_reducible refine fun (d : Dev) (h : Keeps b d) => ?_
   | (extract_lets +onlyGivenNames x; guard_hyp x : Dev := _; refine (fun (hx : Keeps b x) => ?_) ?_; rotate_left; unfold x; clear x; rotate_right; clear_value x)
   | extract_lets +onlyGivenNames x
   | with_reducible apply groupState_keeps
   | with_reducible apply raise_keeps
   | with_reducible apply unstage_keeps
   | with_reducible apply when_keeps
   | split

theorem oldBondGoes_keeps {b : Dev} {x0 : Dev} {x1 : Nat} (hx0 : Keeps b x0) : Keeps b (Dev.oldBondGoes x0 x1) := by
  unfold Dev.oldBondGoes
  repeat' first
   | with_reducible assumption
   | (extract_lets +onlyGivenNames x; guard_hyp x : Dev := _; refine (fun (hx : Keeps b x) => ?_) ?_; rotate_left; unfold x; clear x; rotate_right; clear_value x)
   | extract_lets +onlyGivenNames x
   | with_reducible apply laneLeave_keeps
   | with_reducible apply onStream_keeps
   | with_reducible refine keeps_foldl ?_ (fun d x h => ?_)
   | split

theorem teardownDone_keeps {b : Dev} {x0 : Dev} {x1 : Nat} {x2 : Nat} (hx0 : Keeps b x0) : Keeps b (Dev.teardownDone x0 x1 x2) := by
  unfold Dev.teardownDone
  repeat' first
   | with_reducible assumption
   | with_reducible exact fun h => h
   | with_reducible exact rfl
   | (extract_lets +onlyGivenNames x; guard_hyp x : Dev := _; refine (fun (hx : Keeps b x) => ?_) ?_; rotate_left; unfold x; clear x; rotate_right; clear_value x)
   | (extract_lets +onlyGivenNames x; clear_value x)
   | extract_lets +onlyGivenNames x
   | with_reducible apply chipEvent_keeps
   | with_reducible apply commitState_keeps
   | with_reducible apply groupState_keeps
   | with_reducible apply oldBondGoes_keeps
   | with_reducible apply onPlat_keeps
   | with_reducible apply reshapeEnd_keeps
   | with_reducible refine keeps_foldl ?_ (fun d x h => ?_)
   | with_reducible refine keeps_ite (fun _ => ?_) (fun _ => ?_)
   | split

theorem mbbTick_keeps {b : Dev} {x0 : Dev} {x1 : Nat} (hx0 : Keeps b x0) : Keeps b (Dev.mbbTick x0 x1) := by
  unfold Dev.mbbTick
  repeat' first
   | with_reducible assumption
   | (extract_lets +onlyGivenNames x; guard_hyp x : Dev := _; refine (fun (hx : Keeps b x) => ?_) ?_; rotate_left; unfold x; clear x; rotate_right; clear_value x)
   | extract_lets +onlyGivenNames x
   | with_reducible apply buildFails_keeps
   | with_reducible apply teardownDone_keeps
   | with_reducible refine keeps_foldl ?_ (fun d x h => ?_)
   | split

theorem execPgCommitKey_keeps {x0 : Nat} {x1 : Nat} {x2 : State}  : Steps x2.dev x2 (execPgCommitKey x0 x1 x2) := by
  unfold execPgCommitKey
  refine steps_run (fun d h => ?_)
  repeat' first
   | with_reducible assumption
   | extract_lets +onlyGivenNames x
   | with_reducible apply asWrite_keeps
   | with_reducible apply commitKey_keeps
   | intro m

theorem execPgCommitCancel_keeps {x0 : Nat} {x1 : Nat} {x2 : State}  : Steps x2.dev x2 (execPgCommitCancel x0 x1 x2) := by
  unfold execPgCommitCancel
  refine steps_run (fun d h => ?_)
  repeat' first
   | with_reducible assumption
   | extract_lets +onlyGivenNames x
   | with_reducible apply asWrite_keeps
   | with_reducible apply cancelKey_keeps
   | intro m

theorem execGroupCommit_keeps {x0 : Nat} {x1 : Nat} {x2 : State}  : Steps x2.dev x2 (execGroupCommit x0 x1 x2) := by
  unfold execGroupCommit
  refine steps_run (fun d h => ?_)
  repeat' first
   | with_reducible assumption
   | extract_lets +onlyGivenNames x
   | with_reducible apply asWrite_keeps
   | with_reducible apply groupKey_keeps
   | intro m

theorem execGroupCancel_keeps {x0 : Nat} {x1 : Nat} {x2 : State}  : Steps x2.dev x2 (execGroupCancel x0 x1 x2) := by
  unfold execGroupCancel
  refine steps_run (fun d h => ?_)
  repeat' first
   | with_reducible assumption
   | extract_lets +onlyGivenNames x
   | with_reducible apply asWrite_keeps
   | with_reducible apply groupCancel_keeps
   | intro m

theorem execCommitApply_keeps {x0 : Nat} {x1 : State}  : Steps x1.dev x1 (execCommitApply x0 x1) := by
  unfold execCommitApply
  refine steps_run (fun d h => ?_)
  repeat' first
   | with_reducible assumption
   | extract_lets +onlyGivenNames x
   | with_reducible apply commitsDue_keeps

theorem execMbbBuildComplete_keeps {x0 : Nat} {x1 : Nat} {x2 : State}  : Steps x2.dev x2 (execMbbBuildComplete x0 x1 x2) := by
  unfold execMbbBuildComplete
  refine steps_run (fun d h => ?_)
  repeat' first
   | with_reducible assumption
   | extract_lets +onlyGivenNames x
   | with_reducible apply buildComplete_keeps

theorem execMbbSwitch_keeps {x0 : Nat} {x1 : State}  : Steps x1.dev x1 (execMbbSwitch x0 x1) := by
  unfold execMbbSwitch
  refine steps_run (fun d h => ?_)
  repeat' first
   | with_reducible assumption
   | extract_lets +onlyGivenNames x
   | with_reducible apply commitsDue_keeps

theorem execMbbBuildFail_keeps {x0 : Nat} {x1 : State}  : Steps x1.dev x1 (execMbbBuildFail x0 x1) := by
  unfold execMbbBuildFail
  refine steps_run (fun d h => ?_)
  repeat' first
   | with_reducible assumption
   | extract_lets +onlyGivenNames x
   | with_reducible apply buildFails_keeps

theorem execMbbTeardownDone_keeps {x0 : Nat} {x1 : State}  : Steps x1.dev x1 (execMbbTeardownDone x0 x1) := by
  unfold execMbbTeardownDone
  refine steps_run (fun d h => ?_)
  repeat' first
   | with_reducible assumption
   | extract_lets +onlyGivenNames x
   | with_reducible apply teardownDone_keeps

end Sys2Proof.Machine
end

