-- ==== Sys2Proof/Laws/Keeps/Engines.lean ====
section
/-! SUPPORT. What every operation of Machine/Engines.lean keeps. -/
namespace Sys2Proof.Machine
open Sys2Proof

set_option linter.unusedTactic false
set_option linter.unreachableTactic false
set_option linter.tactic.unusedName false

theorem logRed_keeps {b : Dev} {x0 : Dev} {x1 : Nat} {x2 : Nat} {x3 : Nat} {x4 : Nat} {x5 : Nat} {x6 : Nat} {x7 : Nat} (hx0 : Keeps b x0) : Keeps b (Dev.logRed x0 x1 x2 x3 x4 x5 x6 x7) := by
  unfold Dev.logRed
  repeat' first
   | with_reducible assumption
   | with_reducible exact fun _ => Nat.le_refl _
   | (extract_lets +onlyGivenNames x; clear_value x)
   | with_reducible apply mramPut_keeps

theorem noteCheck_keeps {b : Dev} {x0 : Dev} {x1 : Nat} {x2 : Nat} (hx0 : Keeps b x0) : Keeps b (Dev.noteCheck x0 x1 x2) := by
  unfold Dev.noteCheck
  repeat' first
   | with_reducible assumption
   | with_reducible exact Nat.le_refl _
   | (extract_lets +onlyGivenNames x; clear_value x)
   | extract_lets +onlyGivenNames x
   | with_reducible apply mramPut_keeps
   | split
   | intro m

theorem showRed_keeps {b : Dev} {x0 : Dev} {x1 : Nat} (hx0 : Keeps b x0) : Keeps b (Dev.showRed x0 x1) := by
  unfold Dev.showRed
  repeat' first
   | with_reducible assumption
   | with_reducible refine fun (d : Dev) (h : Keeps b d) => ?_
   | (extract_lets +onlyGivenNames x; guard_hyp x : Dev := _; refine (fun (hx : Keeps b x) => ?_) ?_; rotate_left; unfold x; clear x; rotate_right; clear_value x)
   | (extract_lets +onlyGivenNames x; clear_value x)
   | extract_lets +onlyGivenNames x
   | with_reducible apply count_keeps
   | with_reducible apply fence_keeps
   | with_reducible apply logRed_keeps
   | with_reducible apply onSrvDrive_keeps
   | with_reducible apply raise_keeps
   | with_reducible apply when_keeps
   | with_reducible apply wr_keeps

theorem sproutAbort_keeps {b : Dev} {x0 : Dev} {x1 : Nat} {x2 : Nat} (hx0 : Keeps b x0) : Keeps b (Dev.sproutAbort x0 x1 x2) := by
  unfold Dev.sproutAbort
  repeat' first
   | with_reducible assumption
   | (extract_lets +onlyGivenNames x; guard_hyp x : Dev := _; refine (fun (hx : Keeps b x) => ?_) ?_; rotate_left; unfold x; clear x; rotate_right; clear_value x)
   | extract_lets +onlyGivenNames x
   | with_reducible apply count_keeps
   | with_reducible apply logRed_keeps
   | with_reducible apply onEng_keeps
   | with_reducible apply onSrvDrive_keeps
   | with_reducible apply showRed_keeps
   | with_reducible apply wr_keeps
   | split

theorem sproutShadowEnds_keeps {b : Dev} {x0 : Dev} {x1 : Nat} (hx0 : Keeps b x0) : Keeps b (Dev.sproutShadowEnds x0 x1) := by
  unfold Dev.sproutShadowEnds
  repeat' first
   | with_reducible assumption
   | extract_lets +onlyGivenNames x
   | with_reducible apply sproutAbort_keeps
   | with_reducible refine keeps_ite (fun _ => ?_) (fun _ => ?_)
   | split

theorem takeRole_keeps {b : Dev} {x0 : Dev} {x1 : Nat} {x2 : Nat} {x3 : Nat} {x4 : Option Image} (hx0 : Keeps b x0) : Keeps b (Dev.takeRole x0 x1 x2 x3 x4) := by
  unfold Dev.takeRole
  repeat' first
   | with_reducible assumption
   | (extract_lets +onlyGivenNames x; guard_hyp x : Dev := _; refine (fun (hx : Keeps b x) => ?_) ?_; rotate_left; unfold x; clear x; rotate_right; clear_value x)
   | extract_lets +onlyGivenNames x
   | with_reducible apply count_keeps
   | with_reducible apply onEng_keeps
   | with_reducible apply showRed_keeps

theorem fillRoles_keeps {b : Dev} {x0 : Dev} {x1 : Nat} (hx0 : Keeps b x0) : Keeps b (Dev.fillRoles x0 x1) := by
  unfold Dev.fillRoles
  repeat' first
   | with_reducible assumption
   | (extract_lets +onlyGivenNames x; guard_hyp x : Dev := _; refine (fun (hx : Keeps b x) => ?_) ?_; rotate_left; unfold x; clear x; rotate_right; clear_value x)
   | extract_lets +onlyGivenNames x
   | with_reducible apply logRed_keeps
   | with_reducible apply onEng_keeps
   | with_reducible apply onSrvDrive_keeps
   | with_reducible apply showRed_keeps
   | with_reducible apply sproutAbort_keeps
   | with_reducible apply takeRole_keeps
   | with_reducible apply wr_keeps
   | with_reducible refine keeps_foldl ?_ (fun d x h => ?_)
   | with_reducible refine keeps_ite (fun _ => ?_) (fun _ => ?_)
   | split

theorem csCheck_keeps {b : Dev} {x0 : Dev} {x1 : Nat} {x2 : Nat} (hx0 : Keeps b x0) : Keeps b (Dev.csCheck x0 x1 x2) := by
  unfold Dev.csCheck
  repeat' first
   | with_reducible assumption
   | (extract_lets +onlyGivenNames x; guard_hyp x : Dev := _; refine (fun (hx : Keeps b x) => ?_) ?_; rotate_left; unfold x; clear x; rotate_right; clear_value x)
   | (extract_lets +onlyGivenNames x; clear_value x)
   | extract_lets +onlyGivenNames x
   | with_reducible apply count_keeps
   | with_reducible apply csSet_keeps
   | with_reducible apply onSrv_keeps
   | with_reducible apply raise_keeps
   | with_reducible refine keeps_foldl ?_ (fun d x h => ?_)
   | with_reducible refine keeps_ite (fun _ => ?_) (fun _ => ?_)
   | split

theorem bringupDone_keeps {b : Dev} {x0 : Dev} {x1 : Nat} {x2 : Bool} (hx0 : Keeps b x0) : Keeps b (Dev.bringupDone x0 x1 x2) := by
  unfold Dev.bringupDone
  repeat' first
   | with_reducible assumption
   | (extract_lets +onlyGivenNames x; guard_hyp x : Dev := _; refine (fun (hx : Keeps b x) => ?_) ?_; rotate_left; unfold x; clear x; rotate_right; clear_value x)
   | (extract_lets +onlyGivenNames x; clear_value x)
   | extract_lets +onlyGivenNames x
   | with_reducible apply csCheck_keeps
   | with_reducible apply logRed_keeps
   | with_reducible apply onEng_keeps
   | with_reducible apply raise_keeps
   | with_reducible apply takeRole_keeps
   | with_reducible refine keeps_ite (fun _ => ?_) (fun _ => ?_)

theorem sproutDue_keeps {b : Dev} {x0 : Dev} {x1 : Nat} (hx0 : Keeps b x0) : Keeps b (Dev.sproutDue x0 x1) := by
  unfold Dev.sproutDue
  repeat' first
   | with_reducible assumption
   | extract_lets +onlyGivenNames x
   | with_reducible apply onSrvDrive_keeps
   | with_reducible refine keeps_ite (fun _ => ?_) (fun _ => ?_)

theorem sproutAsk_keeps {b : Dev} {x0 : Dev} {x1 : Nat} (hx0 : Keeps b x0) : Keeps b (Dev.sproutAsk x0 x1) := by
  unfold Dev.sproutAsk
  repeat' first
   | with_reducible assumption
   | extract_lets +onlyGivenNames x
   | with_reducible apply countIgnored_keeps
   | with_reducible apply onSrvDrive_keeps
   | with_reducible refine keeps_foldl ?_ (fun d x h => ?_)
   | with_reducible refine keeps_ite (fun _ => ?_) (fun _ => ?_)

theorem sproutStart_keeps {b : Dev} {x0 : Dev} {x1 : Nat} (hx0 : Keeps b x0) : Keeps b (Dev.sproutStart x0 x1) := by
  unfold Dev.sproutStart
  repeat' first
   | with_reducible assumption
   | (extract_lets +onlyGivenNames x; guard_hyp x : Dev := _; refine (fun (hx : Keeps b x) => ?_) ?_; rotate_left; unfold x; clear x; rotate_right; clear_value x)
   | (extract_lets +onlyGivenNames x; clear_value x)
   | extract_lets +onlyGivenNames x
   | with_reducible apply onEng_keeps
   | with_reducible apply onSrvDrive_keeps
   | with_reducible apply showRed_keeps
   | with_reducible apply wr_keeps
   | with_reducible refine keeps_ite (fun _ => ?_) (fun _ => ?_)
   | split

theorem sproutSwitch_keeps {b : Dev} {x0 : Dev} {x1 : Nat} (hx0 : Keeps b x0) : Keeps b (Dev.sproutSwitch x0 x1) := by
  unfold Dev.sproutSwitch
  repeat' first
   | with_reducible assumption
   | (extract_lets +onlyGivenNames x; guard_hyp x : Dev := _; refine (fun (hx : Keeps b x) => ?_) ?_; rotate_left; unfold x; clear x; rotate_right; clear_value x)
   | (extract_lets +onlyGivenNames x; clear_value x)
   | extract_lets +onlyGivenNames x
   | with_reducible apply count_keeps
   | with_reducible apply logRed_keeps
   | with_reducible apply onEng_keeps
   | with_reducible apply onSrvDrive_keeps
   | with_reducible apply takeRole_keeps
   | with_reducible apply wr_keeps
   | with_reducible refine keeps_ite (fun _ => ?_) (fun _ => ?_)
   | split

theorem dispatchDrive_keeps {b : Dev} {x0 : Dev} {x1 : Nat} (hx0 : Keeps b x0) : Keeps b (Dev.dispatchDrive x0 x1) := by
  unfold Dev.dispatchDrive
  repeat' first
   | with_reducible assumption
   | (extract_lets +onlyGivenNames x; guard_hyp x : Dev := _; refine (fun (hx : Keeps b x) => ?_) ?_; rotate_left; unfold x; clear x; rotate_right; clear_value x)
   | (extract_lets +onlyGivenNames x; clear_value x)
   | extract_lets +onlyGivenNames x
   | with_reducible apply count_keeps
   | with_reducible apply logRed_keeps
   | with_reducible apply onEng_keeps
   | with_reducible apply onSrvDrive_keeps
   | with_reducible apply raise_keeps
   | with_reducible apply sproutAbort_keeps
   | with_reducible apply sproutShadowEnds_keeps
   | with_reducible refine keeps_foldl ?_ (fun d x h => ?_)
   | with_reducible refine keeps_ite (fun _ => ?_) (fun _ => ?_)
   | split

theorem servoOverrun_keeps {b : Dev} {x0 : Dev} {x1 : Nat} {x2 : List Nat} (hx0 : Keeps b x0) : Keeps b (Dev.servoOverrun x0 x1 x2) := by
  unfold Dev.servoOverrun
  repeat' first
   | with_reducible assumption
   | (extract_lets +onlyGivenNames x; guard_hyp x : Dev := _; refine (fun (hx : Keeps b x) => ?_) ?_; rotate_left; unfold x; clear x; rotate_right; clear_value x)
   | (extract_lets +onlyGivenNames x; clear_value x)
   | extract_lets +onlyGivenNames x
   | with_reducible apply onEng_keeps
   | with_reducible apply onSrvDrive_keeps
   | with_reducible apply raise_keeps
   | with_reducible refine keeps_ite (fun _ => ?_) (fun _ => ?_)

theorem dispatch_keeps {b : Dev} {x0 : Dev} {x1 : List EngFault} (hx0 : Keeps b x0) : Keeps b (Dev.dispatch x0 x1) := by
  unfold Dev.dispatch
  repeat' first
   | with_reducible assumption
   | (extract_lets +onlyGivenNames x; guard_hyp x : Dev := _; refine (fun (hx : Keeps b x) => ?_) ?_; rotate_left; unfold x; clear x; rotate_right; clear_value x)
   | (extract_lets +onlyGivenNames x; clear_value x)
   | extract_lets +onlyGivenNames x
   | with_reducible apply dispatchDrive_keeps
   | with_reducible apply onEng_keeps
   | with_reducible apply onSrvDrive_keeps
   | with_reducible apply raise_keeps
   | with_reducible apply servoOverrun_keeps
   | with_reducible apply takeInjected_keeps
   | with_reducible refine keeps_foldl ?_ (fun d x h => ?_)
   | with_reducible refine keeps_ite (fun _ => ?_) (fun _ => ?_)

theorem retire_keeps {b : Dev} {x0 : Dev} {x1 : Nat} {x2 : Nat} (hx0 : Keeps b x0) : Keeps b (Dev.retire x0 x1 x2) := by
  unfold Dev.retire
  repeat' first
   | with_reducible assumption
   | (extract_lets +onlyGivenNames x; guard_hyp x : Dev := _; refine (fun (hx : Keeps b x) => ?_) ?_; rotate_left; unfold x; clear x; rotate_right; clear_value x)
   | extract_lets +onlyGivenNames x
   | with_reducible apply count_keeps
   | with_reducible apply logRed_keeps
   | with_reducible apply onEng_keeps
   | with_reducible apply raise_keeps
   | with_reducible apply wr_keeps

theorem verdict_keeps {b : Dev} {x0 : Dev} {x1 : Nat} {x2 : List Bool} (hx0 : Keeps b x0) : Keeps b (Dev.verdict x0 x1 x2) := by
  unfold Dev.verdict
  repeat' first
   | with_reducible assumption
   | with_reducible refine fun (d : Dev) (h : Keeps b d) => ?_
   | (extract_lets +onlyGivenNames x; guard_hyp x : Dev := _; refine (fun (hx : Keeps b x) => ?_) ?_; rotate_left; unfold x; clear x; rotate_right; clear_value x)
   | (extract_lets +onlyGivenNames x; clear_value x)
   | extract_lets +onlyGivenNames x
   | with_reducible apply count_keeps
   | with_reducible apply fillRoles_keeps
   | with_reducible apply noteCheck_keeps
   | with_reducible apply onEng_keeps
   | with_reducible apply onSrvDrive_keeps
   | with_reducible apply retire_keeps
   | with_reducible apply showServo_keeps
   | with_reducible apply when_keeps
   | with_reducible apply wr_keeps
   | with_reducible refine keeps_foldl ?_ (fun d x h => ?_)
   | with_reducible refine keeps_ite (fun _ => ?_) (fun _ => ?_)

theorem selftested_keeps {b : Dev} {x0 : Dev} {x1 : Nat} {x2 : Bool} (hx0 : Keeps b x0) : Keeps b (Dev.selftested x0 x1 x2) := by
  unfold Dev.selftested
  repeat' first
   | with_reducible assumption
   | (extract_lets +onlyGivenNames x; guard_hyp x : Dev := _; refine (fun (hx : Keeps b x) => ?_) ?_; rotate_left; unfold x; clear x; rotate_right; clear_value x)
   | (extract_lets +onlyGivenNames x; clear_value x)
   | extract_lets +onlyGivenNames x
   | with_reducible apply count_keeps
   | with_reducible apply fillRoles_keeps
   | with_reducible apply logRed_keeps
   | with_reducible apply onEng_keeps
   | with_reducible apply onSrv_keeps
   | with_reducible apply raise_keeps
   | with_reducible apply showRed_keeps
   | with_reducible refine keeps_ite (fun _ => ?_) (fun _ => ?_)

theorem rolesAtStart_keeps {b : Dev} {x0 : Dev} {x1 : Nat} {x2 : Nat → Bool} (hx0 : Keeps b x0) : Keeps b (Dev.rolesAtStart x0 x1 x2) := by
  unfold Dev.rolesAtStart
  repeat' first
   | with_reducible assumption
   | (extract_lets +onlyGivenNames x; guard_hyp x : Dev := _; refine (fun (hx : Keeps b x) => ?_) ?_; rotate_left; unfold x; clear x; rotate_right; clear_value x)
   | (extract_lets +onlyGivenNames x; clear_value x)
   | extract_lets +onlyGivenNames x
   | with_reducible apply count_keeps
   | with_reducible apply logRed_keeps
   | with_reducible apply onEng_keeps
   | with_reducible apply raise_keeps
   | with_reducible apply showRed_keeps
   | with_reducible refine keeps_foldl ?_ (fun d x h => ?_)
   | with_reducible refine keeps_ite (fun _ => ?_) (fun _ => ?_)

theorem sproutsHold_keeps {b : Dev} {x0 : Dev} (hx0 : Keeps b x0) : Keeps b (Dev.sproutsHold x0) := by
  unfold Dev.sproutsHold
  repeat' first
   | with_reducible assumption
   | extract_lets +onlyGivenNames x
   | with_reducible apply sproutShadowEnds_keeps
   | with_reducible refine keeps_foldl ?_ (fun d x h => ?_)

theorem engsSwitch_keeps {b : Dev} {x0 : Dev} (hx0 : Keeps b x0) : Keeps b (Dev.engsSwitch x0) := by
  unfold Dev.engsSwitch
  repeat' first
   | with_reducible assumption
   | extract_lets +onlyGivenNames x
   | with_reducible apply onEng_keeps
   | with_reducible refine keeps_foldl ?_ (fun d x h => ?_)
   | with_reducible refine keeps_ite (fun _ => ?_) (fun _ => ?_)

theorem execOutputDispatch_keeps {x0 : List EngFault} {x1 : State}  : Steps x1.dev x1 (execOutputDispatch x0 x1) := by
  unfold execOutputDispatch
  refine steps_run (fun d h => ?_)
  repeat' first
   | with_reducible assumption
   | extract_lets +onlyGivenNames x
   | with_reducible apply dispatch_keeps

theorem execSelfCheckVerdict_keeps {x0 : Nat} {x1 : List Bool} {x2 : State}  : Steps x2.dev x2 (execSelfCheckVerdict x0 x1 x2) := by
  unfold execSelfCheckVerdict
  refine steps_run (fun d h => ?_)
  repeat' first
   | with_reducible assumption
   | extract_lets +onlyGivenNames x
   | with_reducible apply verdict_keeps

theorem execSeedBringupDone_keeps {x0 : Nat} {x1 : Bool} {x2 : State}  : Steps x2.dev x2 (execSeedBringupDone x0 x1 x2) := by
  unfold execSeedBringupDone
  refine steps_run (fun d h => ?_)
  repeat' first
   | with_reducible assumption
   | extract_lets +onlyGivenNames x
   | with_reducible apply bringupDone_keeps

theorem execSproutDue_keeps {x0 : Nat} {x1 : State}  : Steps x1.dev x1 (execSproutDue x0 x1) := by
  unfold execSproutDue
  refine steps_run (fun d h => ?_)
  repeat' first
   | with_reducible assumption
   | extract_lets +onlyGivenNames x
   | with_reducible apply sproutDue_keeps

theorem execSrvRedCtrlSprout_keeps {x0 : Nat} {x1 : State}  : Steps x1.dev x1 (execSrvRedCtrlSprout x0 x1) := by
  unfold execSrvRedCtrlSprout
  refine steps_run (fun d h => ?_)
  repeat' first
   | with_reducible assumption
   | extract_lets +onlyGivenNames x
   | with_reducible apply asWrite_keeps
   | with_reducible apply sproutAsk_keeps
   | intro m

theorem execSproutStart_keeps {x0 : Nat} {x1 : State}  : Steps x1.dev x1 (execSproutStart x0 x1) := by
  unfold execSproutStart
  refine steps_run (fun d h => ?_)
  repeat' first
   | with_reducible assumption
   | extract_lets +onlyGivenNames x
   | with_reducible apply sproutStart_keeps

theorem execSproutSwitch_keeps {x0 : Nat} {x1 : State}  : Steps x1.dev x1 (execSproutSwitch x0 x1) := by
  unfold execSproutSwitch
  refine steps_run (fun d h => ?_)
  repeat' first
   | with_reducible assumption
   | extract_lets +onlyGivenNames x
   | with_reducible apply sproutSwitch_keeps

theorem execSelftestDone_keeps {x0 : Nat} {x1 : Bool} {x2 : State}  : Steps x2.dev x2 (execSelftestDone x0 x1 x2) := by
  unfold execSelftestDone
  refine steps_run (fun d h => ?_)
  repeat' first
   | with_reducible assumption
   | extract_lets +onlyGivenNames x
   | with_reducible apply selftested_keeps

end Sys2Proof.Machine
end

