-- ==== Sys2Proof/Laws/Keeps/Hat.lean ====
section
/-! SUPPORT. What every operation of Machine/Hat.lean keeps. -/
namespace Sys2Proof.Machine
open Sys2Proof

set_option linter.unusedTactic false
set_option linter.unreachableTactic false
set_option linter.tactic.unusedName false

theorem hdmCommit_keeps {b : Dev} {x0 : Dev} {x1 : Nat} {x2 : Nat} {x3 : Nat} (hx0 : Keeps b x0) : Keeps b (Dev.hdmCommit x0 x1 x2 x3) := by
  unfold Dev.hdmCommit
  repeat' first
   | with_reducible assumption
   | (extract_lets +onlyGivenNames x; clear_value x)
   | extract_lets +onlyGivenNames x
   | with_reducible apply answer_keeps
   | with_reducible apply onHat_keeps
   | with_reducible refine keeps_ite (fun _ => ?_) (fun _ => ?_)

theorem sendLoad_keeps {b : Dev} {x0 : Dev} (hx0 : Keeps b x0) : Keeps b (Dev.sendLoad x0) := by
  unfold Dev.sendLoad
  repeat' first
   | with_reducible assumption
   | extract_lets +onlyGivenNames x
   | with_reducible apply send_keeps
   | with_reducible apply stepFree_keeps
   | with_reducible refine keeps_ite (fun _ => ?_) (fun _ => ?_)

theorem aboveW_keeps {b : Dev} {x0 : Dev} {x1 : Bool} {x2 : Nat} (hx0 : Keeps b x0) : Keeps b (Dev.aboveW x0 x1 x2) := by
  unfold Dev.aboveW
  repeat' first
   | with_reducible assumption
   | extract_lets +onlyGivenNames x
   | with_reducible apply count_keeps
   | with_reducible apply countIgnored_keeps

theorem hostRead_keeps {b : Dev} {x0 : Dev} {x1 : LineRead} (hx0 : Keeps b x0) : Keeps b (Dev.hostRead x0 x1) := by
  unfold Dev.hostRead
  repeat' first
   | with_reducible assumption
   | (extract_lets +onlyGivenNames x; guard_hyp x : Dev := _; refine (fun (hx : Keeps b x) => ?_) ?_; rotate_left; unfold x; clear x; rotate_right; clear_value x)
   | extract_lets +onlyGivenNames x
   | with_reducible apply aboveW_keeps
   | with_reducible apply count_keeps
   | with_reducible apply send_keeps
   | with_reducible apply sendLoad_keeps
   | with_reducible apply storeRead_keeps
   | with_reducible refine keeps_ite (fun _ => ?_) (fun _ => ?_)

theorem hostWrite_keeps {b : Dev} {x0 : Dev} {x1 : LineWrite} (hx0 : Keeps b x0) : Keeps b (Dev.hostWrite x0 x1) := by
  unfold Dev.hostWrite
  repeat' first
   | with_reducible assumption
   | with_reducible refine fun (d : Dev) (h : Keeps b d) => ?_
   | (extract_lets +onlyGivenNames x; guard_hyp x : Dev := _; refine (fun (hx : Keeps b x) => ?_) ?_; rotate_left; unfold x; clear x; rotate_right; clear_value x)
   | (extract_lets +onlyGivenNames x; clear_value x)
   | extract_lets +onlyGivenNames x
   | with_reducible apply aboveW_keeps
   | with_reducible apply countIgnored_keeps
   | with_reducible apply count_keeps
   | with_reducible apply forward_keeps
   | with_reducible apply raise_keeps
   | with_reducible apply sendLoad_keeps
   | with_reducible apply storeWrite_keeps
   | with_reducible apply takeInjected_keeps
   | with_reducible apply when_keeps
   | with_reducible refine keeps_ite (fun _ => ?_) (fun _ => ?_)

theorem onQueue_keeps {b : Dev} {x0 : Dev} {x1 : Nat} {x2 : Queue → Queue} (hx0 : Keeps b x0) : Keeps b (Dev.onQueue x0 x1 x2) := by
  unfold Dev.onQueue
  repeat' first
   | with_reducible assumption
   | with_reducible apply onHat_keeps

theorem showQ_keeps {b : Dev} {x0 : Dev} {x1 : Nat} (hx0 : Keeps b x0) : Keeps b (Dev.showQ x0 x1) := by
  unfold Dev.showQ
  repeat' first
   | with_reducible assumption
   | (extract_lets +onlyGivenNames x; guard_hyp x : Dev := _; refine (fun (hx : Keeps b x) => ?_) ?_; rotate_left; unfold x; clear x; rotate_right; clear_value x)
   | extract_lets +onlyGivenNames x
   | with_reducible apply wr_keeps

theorem ringWrite_keeps {b : Dev} {x0 : Dev} {x1 : Nat} {x2 : List Byte} (hx0 : Keeps b x0) : Keeps b (Dev.ringWrite x0 x1 x2) := by
  unfold Dev.ringWrite
  repeat' first
   | with_reducible assumption
   | with_reducible refine fun (d : Dev) (h : Keeps b d) => ?_
   | (extract_lets +onlyGivenNames x; guard_hyp x : Dev := _; refine (fun (hx : Keeps b x) => ?_) ?_; rotate_left; unfold x; clear x; rotate_right; clear_value x)
   | (extract_lets +onlyGivenNames x; clear_value x)
   | extract_lets +onlyGivenNames x
   | with_reducible apply count_keeps
   | with_reducible apply msix_keeps
   | with_reducible apply onQueue_keeps
   | with_reducible apply send_keeps
   | with_reducible apply when_keeps

theorem respond_keeps {b : Dev} {x0 : Dev} {x1 : Nat} {x2 : List Byte} (hx0 : Keeps b x0) : Keeps b (Dev.respond x0 x1 x2) := by
  unfold Dev.respond
  repeat' first
   | with_reducible assumption
   | (extract_lets +onlyGivenNames x; clear_value x)
   | extract_lets +onlyGivenNames x
   | with_reducible apply onQueue_keeps
   | with_reducible apply ringWrite_keeps
   | with_reducible refine keeps_ite (fun _ => ?_) (fun _ => ?_)

theorem flushHeld_keeps {b : Dev} {x0 : Dev} {x1 : Nat} (hx0 : Keeps b x0) : Keeps b (Dev.flushHeld x0 x1) := by
  unfold Dev.flushHeld
  repeat' first
   | with_reducible assumption
   | extract_lets +onlyGivenNames x
   | with_reducible apply onQueue_keeps
   | with_reducible apply ringWrite_keeps
   | with_reducible refine keeps_foldl ?_ (fun d x h => ?_)
   | with_reducible refine keeps_ite (fun _ => ?_) (fun _ => ?_)

theorem rhdb_keeps {b : Dev} {x0 : Dev} {x1 : Nat} {x2 : Nat} (hx0 : Keeps b x0) : Keeps b (Dev.rhdb x0 x1 x2) := by
  unfold Dev.rhdb
  repeat' first
   | with_reducible assumption
   | (extract_lets +onlyGivenNames x; clear_value x)
   | extract_lets +onlyGivenNames x
   | with_reducible apply countIgnored_keeps
   | with_reducible apply flushHeld_keeps
   | with_reducible apply onQueue_keeps
   | with_reducible refine keeps_ite (fun _ => ?_) (fun _ => ?_)

theorem aggTimer_keeps {b : Dev} {x0 : Dev} {x1 : Nat} (hx0 : Keeps b x0) : Keeps b (Dev.aggTimer x0 x1) := by
  unfold Dev.aggTimer
  repeat' first
   | with_reducible assumption
   | (extract_lets +onlyGivenNames x; clear_value x)
   | extract_lets +onlyGivenNames x
   | with_reducible apply msix_keeps
   | with_reducible apply onQueue_keeps
   | with_reducible refine keeps_ite (fun _ => ?_) (fun _ => ?_)

theorem ringFull_keeps {b : Dev} {x0 : Dev} {x1 : Nat} (hx0 : Keeps b x0) : Keeps b (Dev.ringFull x0 x1) := by
  unfold Dev.ringFull
  repeat' first
   | with_reducible assumption
   | (extract_lets +onlyGivenNames x; clear_value x)
   | extract_lets +onlyGivenNames x
   | with_reducible apply raise_keeps
   | with_reducible refine keeps_ite (fun _ => ?_) (fun _ => ?_)

theorem showLocks_keeps {b : Dev} {x0 : Dev} (hx0 : Keeps b x0) : Keeps b (Dev.showLocks x0) := by
  unfold Dev.showLocks
  repeat' first
   | with_reducible assumption
   | extract_lets +onlyGivenNames x
   | with_reducible apply wr_keeps

theorem rlAssign_keeps {b : Dev} {x0 : Dev} (hx0 : Keeps b x0) : Keeps b (Dev.rlAssign x0) := by
  unfold Dev.rlAssign
  repeat' first
   | with_reducible assumption
   | (extract_lets +onlyGivenNames x; clear_value x)
   | extract_lets +onlyGivenNames x
   | with_reducible apply onHat_keeps
   | with_reducible apply showLocks_keeps

theorem unlock_keeps {b : Dev} {x0 : Dev} {x1 : Nat} (hx0 : Keeps b x0) : Keeps b (Dev.unlock x0 x1) := by
  unfold Dev.unlock
  repeat' first
   | with_reducible assumption
   | extract_lets +onlyGivenNames x
   | with_reducible apply onCmd_keeps
   | with_reducible apply rlAssign_keeps

theorem malformed_keeps {b : Dev} {x0 : Dev} {x1 : Nat} {x2 : Nat} {x3 : List Byte} (hx0 : Keeps b x0) : Keeps b (Dev.malformed x0 x1 x2 x3) := by
  unfold Dev.malformed
  repeat' first
   | with_reducible assumption
   | (extract_lets +onlyGivenNames x; guard_hyp x : Dev := _; refine (fun (hx : Keeps b x) => ?_) ?_; rotate_left; unfold x; clear x; rotate_right; clear_value x)
   | (extract_lets +onlyGivenNames x; clear_value x)
   | extract_lets +onlyGivenNames x
   | with_reducible apply logAccess_keeps
   | with_reducible apply raise_keeps
   | with_reducible apply setRaw_keeps

theorem addCmd_keeps {b : Dev} {x0 : Dev} {x1 : Nat} {x2 : List Byte} (hx0 : Keeps b x0) : Keeps b (Dev.addCmd x0 x1 x2) := by
  unfold Dev.addCmd
  repeat' first
   | with_reducible assumption
   | (extract_lets +onlyGivenNames x; guard_hyp x : Dev := _; refine (fun (hx : Keeps b x) => ?_) ?_; rotate_left; unfold x; clear x; rotate_right; clear_value x)
   | (extract_lets +onlyGivenNames x; clear_value x)
   | extract_lets +onlyGivenNames x
   | with_reducible apply count_keeps
   | with_reducible apply onHat_keeps
   | with_reducible apply raise_keeps
   | with_reducible apply rlAssign_keeps
   | with_reducible refine keeps_ite (fun _ => ?_) (fun _ => ?_)

theorem consume_keeps {b : Dev} {x0 : Dev} {x1 : Nat} (hx0 : Keeps b x0) : Keeps b (Dev.consume x0 x1) := by
  unfold Dev.consume
  repeat' first
   | with_reducible assumption
   | (extract_lets +onlyGivenNames x; guard_hyp x : Dev := _; refine (fun (hx : Keeps b x) => ?_) ?_; rotate_left; unfold x; clear x; rotate_right; clear_value x)
   | (extract_lets +onlyGivenNames x; clear_value x)
   | extract_lets +onlyGivenNames x
   | with_reducible apply addCmd_keeps
   | with_reducible apply count_keeps
   | with_reducible apply malformed_keeps
   | with_reducible apply onHat_keeps
   | with_reducible apply onQueue_keeps
   | with_reducible refine keeps_ite (fun _ => ?_) (fun _ => ?_)

theorem sqdb_keeps {b : Dev} {x0 : Dev} {x1 : Nat} {x2 : Nat} (hx0 : Keeps b x0) : Keeps b (Dev.sqdb x0 x1 x2) := by
  unfold Dev.sqdb
  repeat' first
   | with_reducible assumption
   | (extract_lets +onlyGivenNames x; guard_hyp x : Dev := _; refine (fun (hx : Keeps b x) => ?_) ?_; rotate_left; unfold x; clear x; rotate_right; clear_value x)
   | (extract_lets +onlyGivenNames x; clear_value x)
   | extract_lets +onlyGivenNames x
   | with_reducible apply consume_keeps
   | with_reducible apply count_keeps
   | with_reducible apply countIgnored_keeps
   | with_reducible apply onQueue_keeps
   | with_reducible apply showQ_keeps
   | with_reducible refine keeps_foldl ?_ (fun d x h => ?_)
   | with_reducible refine keeps_ite (fun _ => ?_) (fun _ => ?_)

theorem slotWrite_keeps {b : Dev} {x0 : Dev} {x1 : Nat} {x2 : Nat} {x3 : List Byte} (hx0 : Keeps b x0) : Keeps b (Dev.slotWrite x0 x1 x2 x3) := by
  unfold Dev.slotWrite
  repeat' first
   | with_reducible assumption
   | extract_lets +onlyGivenNames x
   | with_reducible apply onQueue_keeps
   | with_reducible refine keeps_ite (fun _ => ?_) (fun _ => ?_)

theorem addXfer_keeps {b : Dev} {x0 : Dev} {x1 : Cmd} {x2 : Nat} {x3 : Nat} {x4 : Nat} {x5 : Nat} {x6 : Nat} {x7 : Nat} {x8 : Nat} {x9 : Bool} (hx0 : Keeps b x0) : Keeps b (Dev.addXfer x0 x1 x2 x3 x4 x5 x6 x7 x8 x9) := by
  unfold Dev.addXfer
  repeat' first
   | with_reducible assumption
   | (extract_lets +onlyGivenNames x; guard_hyp x : Dev := _; refine (fun (hx : Keeps b x) => ?_) ?_; rotate_left; unfold x; clear x; rotate_right; clear_value x)
   | (extract_lets +onlyGivenNames x; clear_value x)
   | with_reducible apply onHat_keeps
   | with_reducible apply onQueue_keeps
   | with_reducible apply respond_keeps

theorem freeHandle_keeps {b : Dev} {x0 : Dev} {x1 : Nat} (hx0 : Keeps b x0) : Keeps b (Dev.freeHandle x0 x1) := by
  unfold Dev.freeHandle
  repeat' first
   | with_reducible assumption
   | extract_lets +onlyGivenNames x
   | with_reducible apply freeBuf_keeps
   | with_reducible refine keeps_ite (fun _ => ?_) (fun _ => ?_)

theorem dropXfer_keeps {b : Dev} {x0 : Dev} {x1 : Xfer} (hx0 : Keeps b x0) : Keeps b (Dev.dropXfer x0 x1) := by
  unfold Dev.dropXfer
  repeat' first
   | with_reducible assumption
   | extract_lets +onlyGivenNames x
   | with_reducible apply freeHandle_keeps
   | with_reducible apply onHat_keeps

theorem askBuf_keeps {b : Dev} {x0 : Dev} {x1 : Cmd} (hx0 : Keeps b x0) : KeepsP b (Dev.askBuf x0 x1) := by
  unfold Dev.askBuf
  repeat' first
   | with_reducible assumption
   | (generalize hp : Dev.grant _ _ _ = p; refine (fun (hk : KeepsP b p) => ?_) (keepsP_gen hp (grant_keeps ?_)); rotate_left; clear hp; clear p; rotate_right; clear hp; obtain ⟨y, z⟩ := p; replace hk : Keeps b z := hk; try dsimp -zeta only)
   | (extract_lets +onlyGivenNames x; clear_value x)
   | extract_lets +onlyGivenNames x
   | with_reducible apply cmdEnds_keeps
   | with_reducible apply onCmd_keeps
   | with_reducible refine keepsP_ite (fun _ => ?_) (fun _ => ?_)
   | with_reducible refine keepsP_mk ?_

theorem deliverIn_keeps {b : Dev} {x0 : Dev} {x1 : Cmd} {x2 : Nat} {x3 : Nat} {x4 : Nat} {x5 : List Byte} {x6 : List Nat} {x7 : Nat} {x8 : Nat} {x9 : Nat} (hx0 : Keeps b x0) : Keeps b (Dev.deliverIn x0 x1 x2 x3 x4 x5 x6 x7 x8 x9) := by
  unfold Dev.deliverIn
  repeat' first
   | with_reducible assumption
   | (extract_lets +onlyGivenNames x; guard_hyp x : Dev := _; refine (fun (hx : Keeps b x) => ?_) ?_; rotate_left; unfold x; clear x; rotate_right; clear_value x)
   | (extract_lets +onlyGivenNames x; clear_value x)
   | extract_lets +onlyGivenNames x
   | with_reducible apply addXfer_keeps
   | with_reducible apply onCmd_keeps
   | with_reducible apply writeFwd_keeps
   | with_reducible refine keeps_foldl ?_ (fun d x h => ?_)

theorem pinEnd_keeps {b : Dev} {x0 : Dev} {x1 : Pin} (hx0 : Keeps b x0) : Keeps b (Dev.pinEnd x0 x1) := by
  unfold Dev.pinEnd
  repeat' first
   | with_reducible assumption
   | (generalize hp : Dev.bpmFree _ _ _ = p; refine (fun (hk : KeepsP b p) => ?_) (keepsP_gen hp (bpmFree_keeps ?_)); rotate_left; clear hp; clear p; rotate_right; clear hp; obtain ⟨y, z⟩ := p; replace hk : Keeps b z := hk; try dsimp -zeta only)
   | (generalize hp : Dev.bpmRelease _ _ _ = p; refine (fun (hk : KeepsP b p) => ?_) (keepsP_gen hp (bpmRelease_keeps ?_)); rotate_left; clear hp; clear p; rotate_right; clear hp; obtain ⟨y, z⟩ := p; replace hk : Keeps b z := hk; try dsimp -zeta only)
   | (extract_lets +onlyGivenNames x; guard_hyp x : Dev := _; refine (fun (hx : Keeps b x) => ?_) ?_; rotate_left; unfold x; clear x; rotate_right; clear_value x)
   | (extract_lets +onlyGivenNames x; clear_value x)
   | extract_lets +onlyGivenNames x
   | with_reducible apply freeBuf_keeps
   | with_reducible apply onHat_keeps
   | with_reducible refine keeps_foldl ?_ (fun d x h => ?_)
   | with_reducible refine keeps_ite (fun _ => ?_) (fun _ => ?_)
   | split

theorem pinsEnd_keeps {b : Dev} {x0 : Dev} {x1 : Pin → Bool} (hx0 : Keeps b x0) : KeepsP b (Dev.pinsEnd x0 x1) := by
  unfold Dev.pinsEnd
  repeat' first
   | with_reducible assumption
   | (extract_lets +onlyGivenNames x; clear_value x)
   | extract_lets +onlyGivenNames x
   | with_reducible apply pinEnd_keeps
   | with_reducible refine keeps_foldl ?_ (fun d x h => ?_)
   | with_reducible refine keepsP_mk ?_

theorem execCxlMemRead_keeps {x0 : LineRead} {x1 : State}  : Steps x1.dev x1 (execCxlMemRead x0 x1) := by
  unfold execCxlMemRead
  refine steps_run (fun d h => ?_)
  repeat' first
   | with_reducible assumption
   | extract_lets +onlyGivenNames x
   | with_reducible apply hostRead_keeps

theorem execCxlMemWrite_keeps {x0 : LineWrite} {x1 : State}  : Steps x1.dev x1 (execCxlMemWrite x0 x1) := by
  unfold execCxlMemWrite
  refine steps_run (fun d h => ?_)
  repeat' first
   | with_reducible assumption
   | extract_lets +onlyGivenNames x
   | with_reducible apply hostWrite_keeps

theorem execCxlMemSpecRead_keeps {x0 : Nat} {x1 : State}  : Steps x1.dev x1 (execCxlMemSpecRead x0 x1) := by
  unfold execCxlMemSpecRead
  refine steps_run (fun d h => ?_)
  repeat' first
   | with_reducible assumption

theorem execCxlMemInv_keeps {x0 : Nat} {x1 : State}  : Steps x1.dev x1 (execCxlMemInv x0 x1) := by
  unfold execCxlMemInv
  refine steps_run (fun d h => ?_)
  repeat' first
   | with_reducible assumption
   | extract_lets +onlyGivenNames x
   | with_reducible apply sendLoad_keeps

theorem execHdmDecoderCommit_keeps {x0 : Nat} {x1 : Nat} {x2 : Nat} {x3 : State}  : Steps x3.dev x3 (execHdmDecoderCommit x0 x1 x2 x3) := by
  unfold execHdmDecoderCommit
  refine steps_run (fun d h => ?_)
  repeat' first
   | with_reducible assumption
   | extract_lets +onlyGivenNames x
   | with_reducible apply hdmCommit_keeps

theorem execCapsuleSlotWrite_keeps {x0 : Nat} {x1 : Nat} {x2 : List Byte} {x3 : State}  : Steps x3.dev x3 (execCapsuleSlotWrite x0 x1 x2 x3) := by
  unfold execCapsuleSlotWrite
  refine steps_run (fun d h => ?_)
  repeat' first
   | with_reducible assumption
   | extract_lets +onlyGivenNames x
   | with_reducible apply slotWrite_keeps

theorem asBell_keeps {b : Dev} {x0 : Dev} {x1 : Dev → Dev} (hx0 : Keeps b x0) (hx1 : ∀ d, Keeps b d → Keeps b (x1 d)) : Keeps b (Dev.asBell x0 x1) := by
  unfold Dev.asBell
  repeat' first
   | with_reducible assumption
   | extract_lets +onlyGivenNames x
   | with_reducible apply countIgnored_keeps
   | with_reducible refine hx1 _ ?_
   | with_reducible refine keeps_ite (fun _ => ?_) (fun _ => ?_)

theorem execHatSqdb_keeps {x0 : Nat} {x1 : Nat} {x2 : State}  : Steps x2.dev x2 (execHatSqdb x0 x1 x2) := by
  unfold execHatSqdb
  refine steps_run (fun d h => ?_)
  repeat' first
   | with_reducible assumption
   | extract_lets +onlyGivenNames x
   | with_reducible apply asBell_keeps
   | with_reducible apply sqdb_keeps
   | intro m

theorem execHatRhdb_keeps {x0 : Nat} {x1 : Nat} {x2 : State}  : Steps x2.dev x2 (execHatRhdb x0 x1 x2) := by
  unfold execHatRhdb
  refine steps_run (fun d h => ?_)
  repeat' first
   | with_reducible assumption
   | extract_lets +onlyGivenNames x
   | with_reducible apply asBell_keeps
   | with_reducible apply rhdb_keeps
   | intro m

theorem execMsixAggTimer_keeps {x0 : Nat} {x1 : State}  : Steps x1.dev x1 (execMsixAggTimer x0 x1) := by
  unfold execMsixAggTimer
  refine steps_run (fun d h => ?_)
  repeat' first
   | with_reducible assumption
   | extract_lets +onlyGivenNames x
   | with_reducible apply aggTimer_keeps

theorem execRingFull_keeps {x0 : Nat} {x1 : State}  : Steps x1.dev x1 (execRingFull x0 x1) := by
  unfold execRingFull
  refine steps_run (fun d h => ?_)
  repeat' first
   | with_reducible assumption
   | extract_lets +onlyGivenNames x
   | with_reducible apply ringFull_keeps

theorem execD3hotTransition_keeps {x0 : Bool} {x1 : State}  : Steps x1.dev x1 (execD3hotTransition x0 x1) := by
  unfold execD3hotTransition
  refine steps_run (fun d h => ?_)
  repeat' first
   | with_reducible assumption
   | extract_lets +onlyGivenNames x
   | with_reducible apply onHat_keeps

end Sys2Proof.Machine
end

