-- ==== Sys2Proof/Laws/Keeps/AdminData.lean ====
section
/-! SUPPORT. What every operation of Machine/AdminData.lean keeps. -/
namespace Sys2Proof.Machine
open Sys2Proof

set_option linter.unusedTactic false
set_option linter.unreachableTactic false
set_option linter.tactic.unusedName false

theorem profPut_keeps {b : Dev} {x0 : Dev} {x1 : Nat} {x2 : Nat} {x3 : List Byte} (hx0 : Keeps b x0) : Keeps b (Dev.profPut x0 x1 x2 x3) := by
  unfold Dev.profPut
  repeat' first
   | with_reducible assumption
   | with_reducible exact fun _ => Nat.le_refl _
   | with_reducible apply mramPut_keeps

theorem profSeal_keeps {b : Dev} {x0 : Dev} {x1 : Nat} (hx0 : Keeps b x0) : Keeps b (Dev.profSeal x0 x1) := by
  unfold Dev.profSeal
  repeat' first
   | with_reducible assumption
   | with_reducible apply profPut_keeps

theorem profSave_keeps {b : Dev} {x0 : Dev} {x1 : Nat} {x2 : Nat} {x3 : Nat} {x4 : Bool} (hx0 : Keeps b x0) : Keeps b (Dev.profSave x0 x1 x2 x3 x4) := by
  unfold Dev.profSave
  repeat' first
   | with_reducible assumption
   | (extract_lets +onlyGivenNames x; guard_hyp x : Dev := _; refine (fun (hx : Keeps b x) => ?_) ?_; rotate_left; unfold x; clear x; rotate_right; clear_value x)
   | (extract_lets +onlyGivenNames x; clear_value x)
   | extract_lets +onlyGivenNames x
   | with_reducible apply profPut_keeps
   | with_reducible apply profSeal_keeps
   | split

theorem setChecked_keeps {b : Dev} {x0 : Dev} {x1 : Nat} {x2 : Bool} (hx0 : Keeps b x0) : Keeps b (Dev.setChecked x0 x1 x2) := by
  unfold Dev.setChecked
  repeat' first
   | with_reducible assumption
   | with_reducible exact Nat.le_refl _
   | with_reducible apply onMram_keeps

theorem fwBoot_keeps {b : Dev} {x0 : Dev} {x1 : Nat} {x2 : Nat} (hx0 : Keeps b x0) : Keeps b (Dev.fwBoot x0 x1 x2) := by
  unfold Dev.fwBoot
  repeat' first
   | with_reducible assumption
   | with_reducible exact fun _ => Nat.le_refl _
   | with_reducible apply mramPut_keeps

theorem fwLock_keeps {b : Dev} {x0 : Dev} {x1 : Nat} (hx0 : Keeps b x0) : Keeps b (Dev.fwLock x0 x1) := by
  unfold Dev.fwLock
  repeat' first
   | with_reducible assumption
   | with_reducible exact fun _ => Nat.le_max_left _ _
   | with_reducible apply mramPut_keeps

theorem keyStore_keeps {b : Dev} {x0 : Dev} {x1 : Nat} {x2 : KeySlot} (hx0 : Keeps b x0) : Keeps b (Dev.keyStore x0 x1 x2) := by
  unfold Dev.keyStore
  repeat' first
   | with_reducible assumption
   | with_reducible exact fun h => h
   | with_reducible exact fun _ => Nat.le_refl _
   | with_reducible exact rfl
   | (extract_lets +onlyGivenNames x; guard_hyp x : Dev := _; refine (fun (hx : Keeps b x) => ?_) ?_; rotate_left; unfold x; clear x; rotate_right; clear_value x)
   | extract_lets +onlyGivenNames x
   | with_reducible apply mramPut_keeps
   | with_reducible apply onPlat_keeps
   | with_reducible apply wr_keeps
   | with_reducible refine keeps_ite (fun _ => ?_) (fun _ => ?_)

theorem logRecord_keeps {b : Dev} {x0 : Dev} {x1 : Nat} {x2 : Nat} (hx0 : Keeps b x0) : KeepsP b (Dev.logRecord x0 x1 x2) := by
  unfold Dev.logRecord
  repeat' first
   | with_reducible assumption
   | (generalize hp : Dev.sysRead _ _ _ = p; refine (fun (hk : KeepsP b p) => ?_) (keepsP_gen hp (sysRead_keeps ?_)); rotate_left; clear hp; clear p; rotate_right; clear hp; obtain ⟨y, z⟩ := p; replace hk : Keeps b z := hk; try dsimp -zeta only)
   | (extract_lets +onlyGivenNames x; guard_hyp x : _ → _ := _; refine (fun (hl0 : ∀ y0 y1, KeepsP b (x y0 y1)) => ?_) ?_; rotate_left; unfold x; clear x; intro y0 y1 ; beta_reduce; rotate_right; clear_value x)
   | (extract_lets +onlyGivenNames x; clear_value x)
   | with_reducible exact hl0 _ _ 
   | split
   | with_reducible refine keepsP_mk ?_

theorem logData_keeps {b : Dev} {x0 : Dev} {x1 : Nat} {x2 : Nat} {x3 : Nat} {x4 : Nat} (hx0 : Keeps b x0) : KeepsP b (Dev.logData x0 x1 x2 x3 x4) := by
  unfold Dev.logData
  repeat' first
   | with_reducible assumption
   | (generalize hp : Dev.logRecord _ _ _ = p; refine (fun (hk : KeepsP b p) => ?_) (keepsP_gen hp (logRecord_keeps ?_)); rotate_left; clear hp; clear p; rotate_right; clear hp; obtain ⟨y, z⟩ := p; replace hk : Keeps b z := hk; try dsimp -zeta only)
   | (extract_lets +onlyGivenNames x; clear_value x)
   | extract_lets +onlyGivenNames x
   | with_reducible refine keepsP_foldl ?_ (fun d x h => ?_)
   | split
   | with_reducible refine keepsP_mk ?_
   | with_reducible exact keeps_snd ‹KeepsP b _›
   | with_reducible refine keeps_pair ?_ ‹_ = (_, _)›

theorem mailbox_keeps {b : Dev} {x0 : Dev} {x1 : Bool} {x2 : List Byte} (hx0 : Keeps b x0) : Keeps b (Dev.mailbox x0 x1 x2) := by
  unfold Dev.mailbox
  repeat' first
   | with_reducible assumption
   | extract_lets +onlyGivenNames x
   | with_reducible apply send_keeps
   | with_reducible refine keeps_ite (fun _ => ?_) (fun _ => ?_)

theorem execIdentifyMemoryDevice_keeps {x0 : State}  : Steps x0.dev x0 (execIdentifyMemoryDevice x0) := by
  unfold execIdentifyMemoryDevice
  refine steps_run (fun d h => ?_)
  repeat' first
   | with_reducible assumption
   | extract_lets +onlyGivenNames x
   | with_reducible apply mailbox_keeps

theorem execGetHealthInfo_keeps {x0 : State}  : Steps x0.dev x0 (execGetHealthInfo x0) := by
  unfold execGetHealthInfo
  refine steps_run (fun d h => ?_)
  repeat' first
   | with_reducible assumption
   | (extract_lets +onlyGivenNames x; clear_value x)
   | with_reducible apply mailbox_keeps

theorem execGetPoisonList_keeps {x0 : State}  : Steps x0.dev x0 (execGetPoisonList x0) := by
  unfold execGetPoisonList
  refine steps_run (fun d h => ?_)
  repeat' first
   | with_reducible assumption
   | (extract_lets +onlyGivenNames x; clear_value x)
   | with_reducible apply mailbox_keeps

theorem execGetLsa_keeps {x0 : Nat} {x1 : Nat} {x2 : State}  : Steps x2.dev x2 (execGetLsa x0 x1 x2) := by
  unfold execGetLsa
  refine steps_run (fun d h => ?_)
  repeat' first
   | with_reducible assumption
   | extract_lets +onlyGivenNames x
   | with_reducible apply mailbox_keeps
   | with_reducible refine keeps_ite (fun _ => ?_) (fun _ => ?_)

theorem execSetLsa_keeps {x0 : Nat} {x1 : List Byte} {x2 : State}  : Steps x2.dev x2 (execSetLsa x0 x1 x2) := by
  unfold execSetLsa
  refine steps_run (fun d h => ?_)
  repeat' first
   | with_reducible assumption
   | with_reducible exact fun _ => Nat.le_refl _
   | extract_lets +onlyGivenNames x
   | with_reducible apply mailbox_keeps
   | with_reducible apply mramPut_keeps
   | with_reducible refine keeps_ite (fun _ => ?_) (fun _ => ?_)

theorem execGetFwInfo_keeps {x0 : State}  : Steps x0.dev x0 (execGetFwInfo x0) := by
  unfold execGetFwInfo
  refine steps_run (fun d h => ?_)
  repeat' first
   | with_reducible assumption
   | extract_lets +onlyGivenNames x
   | with_reducible apply mailbox_keeps

theorem execTransferFw_keeps {x0 : State}  : Steps x0.dev x0 (execTransferFw x0) := by
  unfold execTransferFw
  refine steps_run (fun d h => ?_)
  repeat' first
   | with_reducible assumption
   | extract_lets +onlyGivenNames x
   | with_reducible apply mailbox_keeps

theorem execActivateFw_keeps {x0 : State}  : Steps x0.dev x0 (execActivateFw x0) := by
  unfold execActivateFw
  refine steps_run (fun d h => ?_)
  repeat' first
   | with_reducible assumption
   | extract_lets +onlyGivenNames x
   | with_reducible apply mailbox_keeps

theorem execGetEventRecords_keeps {x0 : State}  : Steps x0.dev x0 (execGetEventRecords x0) := by
  unfold execGetEventRecords
  refine steps_run (fun d h => ?_)
  repeat' first
   | with_reducible assumption
   | extract_lets +onlyGivenNames x
   | with_reducible apply mailbox_keeps

end Sys2Proof.Machine
end

