-- ==== Sys2Proof/Laws/Keeps/HostDisc.lean ====
section
/-! SUPPORT. What every operation of Machine/HostDisc.lean keeps. -/
namespace Sys2Proof.Machine
open Sys2Proof

set_option linter.unusedTactic false
set_option linter.unreachableTactic false
set_option linter.tactic.unusedName false

theorem rowBufsFree_keeps {b : Dev} {x0 : Dev} (hx0 : Keeps b x0) : Keeps b (Dev.rowBufsFree x0) := by
  unfold Dev.rowBufsFree
  repeat' first
   | with_reducible assumption
   | (extract_lets +onlyGivenNames x; guard_hyp x : Dev := _; refine (fun (hx : Keeps b x) => ?_) ?_; rotate_left; unfold x; clear x; rotate_right; clear_value x)
   | (extract_lets +onlyGivenNames x; clear_value x)
   | extract_lets +onlyGivenNames x
   | with_reducible apply freeBuf_keeps
   | with_reducible apply onOdr_keeps
   | with_reducible refine keeps_foldl ?_ (fun d x h => ?_)

theorem addRec_keeps {b : Dev} {x0 : Dev} {x1 : Nat} {x2 : Nat} {x3 : Nat} {x4 : Map Byte} {x5 : Nat} {x6 : RecFor} {x7 : Bool} {x8 : List Nat} (hx0 : Keeps b x0) : Keeps b (Dev.addRec x0 x1 x2 x3 x4 x5 x6 x7 x8) := by
  unfold Dev.addRec
  repeat' first
   | with_reducible assumption
   | (extract_lets +onlyGivenNames x; guard_hyp x : Dev := _; refine (fun (hx : Keeps b x) => ?_) ?_; rotate_left; unfold x; clear x; rotate_right; clear_value x)
   | (extract_lets +onlyGivenNames x; clear_value x)
   | extract_lets +onlyGivenNames x
   | with_reducible apply onOdr_keeps
   | with_reducible apply recPass_keeps
   | with_reducible apply rowFill_keeps
   | with_reducible refine keeps_ite (fun _ => ?_) (fun _ => ?_)

theorem parityAdd_keeps {b : Dev} {x0 : Dev} {x1 : Nat} {x2 : Nat} {x3 : Nat} (hx0 : Keeps b x0) : Keeps b (Dev.parityAdd x0 x1 x2 x3) := by
  unfold Dev.parityAdd
  repeat' first
   | with_reducible assumption
   | (generalize hp : Dev.rowTake _ _ _ _ = p; refine (fun (hk : KeepsT b p) => ?_) (keepsT_gen hp (rowTake_keeps ?_)); rotate_left; clear hp; clear p; rotate_right; clear hp; obtain ⟨y, w, z⟩ := p; replace hk : Keeps b z := hk; try dsimp -zeta only)
   | (extract_lets +onlyGivenNames x; guard_hyp x : Dev := _; refine (fun (hx : Keeps b x) => ?_) ?_; rotate_left; unfold x; clear x; rotate_right; clear_value x)
   | (extract_lets +onlyGivenNames x; clear_value x)
   | extract_lets +onlyGivenNames x
   | with_reducible apply countIgnored_keeps
   | with_reducible apply discAdd_keeps
   | with_reducible apply onOdr_keeps
   | with_reducible apply recPass_keeps
   | with_reducible refine keeps_ite (fun _ => ?_) (fun _ => ?_)
   | split

theorem rowsStaged_keeps {b : Dev} {x0 : Dev} (hx0 : Keeps b x0) : Keeps b (Dev.rowsStaged x0) := by
  unfold Dev.rowsStaged
  repeat' first
   | with_reducible assumption
   | with_reducible apply onOdr_keeps

theorem parityRow_keeps {b : Dev} {x0 : Dev} {x1 : Nat} {x2 : Nat} (hx0 : Keeps b x0) : Keeps b (Dev.parityRow x0 x1 x2) := by
  unfold Dev.parityRow
  repeat' first
   | with_reducible assumption
   | (generalize hp : Dev.grantAll _ _ _ _ = p; refine (fun (hk : KeepsP b p) => ?_) (keepsP_gen hp (grantAll_keeps ?_)); rotate_left; clear hp; clear p; rotate_right; clear hp; obtain ⟨y, z⟩ := p; replace hk : Keeps b z := hk; try dsimp -zeta only)
   | (extract_lets +onlyGivenNames x; clear_value x)
   | extract_lets +onlyGivenNames x
   | with_reducible apply addRec_keeps
   | with_reducible apply sjPut_keeps
   | with_reducible refine keeps_ite (fun _ => ?_) (fun _ => ?_)
   | split

theorem parityRows_keeps {b : Dev} {x0 : Dev} (hx0 : Keeps b x0) : Keeps b (Dev.parityRows x0) := by
  unfold Dev.parityRows
  repeat' first
   | with_reducible assumption
   | extract_lets +onlyGivenNames x
   | with_reducible apply parityRow_keeps
   | with_reducible refine keeps_foldl ?_ (fun d x h => ?_)

theorem migrateScan_keeps {b : Dev} {x0 : Dev} {x1 : Nat} {x2 : Nat} (hx0 : Keeps b x0) : Keeps b (Dev.migrateScan x0 x1 x2) := by
  induction x2 generalizing x0 x1 with
  | zero =>
    unfold Dev.migrateScan
    repeat' first
     | with_reducible assumption
  | succ n ih =>
    unfold Dev.migrateScan
    repeat' first
     | with_reducible assumption
     | with_reducible apply ih
     | (extract_lets +onlyGivenNames x; guard_hyp x : Dev := _; refine (fun (hx : Keeps b x) => ?_) ?_; rotate_left; unfold x; clear x; rotate_right; clear_value x)
     | (extract_lets +onlyGivenNames x; clear_value x)
     | extract_lets +onlyGivenNames x
     | with_reducible apply lookPage_keeps
     | with_reducible apply onCmd_keeps
     | with_reducible apply onSfl_keeps
     | with_reducible refine keeps_ite (fun _ => ?_) (fun _ => ?_)
     | split

theorem runFor_keeps {b : Dev} {x0 : Dev} {x1 : Cmd} {x2 : Nat} (hx0 : Keeps b x0) : KeepsP b (Dev.runFor x0 x1 x2) := by
  unfold Dev.runFor
  repeat' first
   | with_reducible assumption
   | (generalize hp : Dev.runOpen _ _ _ = p; refine (fun (hk : KeepsP b p) => ?_) (keepsP_gen hp (runOpen_keeps ?_)); rotate_left; clear hp; clear p; rotate_right; clear hp; obtain ⟨y, z⟩ := p; replace hk : Keeps b z := hk; try dsimp -zeta only)
   | (extract_lets +onlyGivenNames x; clear_value x)
   | extract_lets +onlyGivenNames x
   | with_reducible apply onCmd_keeps
   | with_reducible refine keepsP_ite (fun _ => ?_) (fun _ => ?_)
   | split
   | with_reducible refine keepsP_mk ?_

theorem migrateRow_keeps {b : Dev} {x0 : Dev} {x1 : Cmd} (hx0 : Keeps b x0) : Keeps b (Dev.migrateRow x0 x1) := by
  unfold Dev.migrateRow
  repeat' first
   | with_reducible assumption
   | with_reducible refine fun (d : Dev) (h : Keeps b d) => ?_
   | (generalize hp : Dev.grantAll _ _ _ _ = p; refine (fun (hk : KeepsP b p) => ?_) (keepsP_gen hp (grantAll_keeps ?_)); rotate_left; clear hp; clear p; rotate_right; clear hp; obtain ⟨y, z⟩ := p; replace hk : Keeps b z := hk; try dsimp -zeta only)
   | (generalize hp : Dev.runFor _ _ _ = p; refine (fun (hk : KeepsP b p) => ?_) (keepsP_gen hp (runFor_keeps ?_)); rotate_left; clear hp; clear p; rotate_right; clear hp; obtain ⟨y, z⟩ := p; replace hk : Keeps b z := hk; try dsimp -zeta only)
   | (extract_lets +onlyGivenNames x; guard_hyp x : Dev := _; refine (fun (hx : Keeps b x) => ?_) ?_; rotate_left; unfold x; clear x; rotate_right; clear_value x)
   | (extract_lets +onlyGivenNames x; guard_hyp x : _ → _ := _; refine (fun (hl0 : ∀ (d0 : Dev), Keeps b d0 → Keeps b (x d0)) => ?_) ?_; rotate_left; unfold x; clear x; intro d0 hd0; beta_reduce; rotate_right; clear_value x)
   | (extract_lets +onlyGivenNames x; clear_value x)
   | extract_lets +onlyGivenNames x
   | with_reducible apply addRec_keeps
   | with_reducible apply countN_keeps
   | with_reducible apply onCmd_keeps
   | with_reducible apply onSfl_keeps
   | with_reducible apply when_keeps
   | with_reducible refine hl0 _ ?_
   | with_reducible refine keeps_foldl3 ?_ (fun p x h => ?_)
   | with_reducible refine keeps_ite (fun _ => ?_) (fun _ => ?_)
   | split

theorem migrateEntries_keeps {b : Dev} {x0 : Dev} {x1 : Cmd} (hx0 : Keeps b x0) : Keeps b (Dev.migrateEntries x0 x1) := by
  unfold Dev.migrateEntries
  repeat' first
   | with_reducible assumption
   | (extract_lets +onlyGivenNames x; clear_value x)
   | with_reducible apply onCmd_keeps

theorem closeRuns_keeps {b : Dev} {x0 : Dev} {x1 : Nat} (hx0 : Keeps b x0) : Keeps b (Dev.closeRuns x0 x1) := by
  unfold Dev.closeRuns
  repeat' first
   | with_reducible assumption
   | extract_lets +onlyGivenNames x
   | with_reducible apply sjPut_keeps
   | with_reducible refine keeps_foldl ?_ (fun d x h => ?_)

theorem migrateStep_keeps {b : Dev} {x0 : Dev} {x1 : Cmd} (hx0 : Keeps b x0) : Keeps b (Dev.migrateStep x0 x1) := by
  unfold Dev.migrateStep
  repeat' first
   | with_reducible assumption
   | (extract_lets +onlyGivenNames x; guard_hyp x : Dev := _; refine (fun (hx : Keeps b x) => ?_) ?_; rotate_left; unfold x; clear x; rotate_right; clear_value x)
   | (extract_lets +onlyGivenNames x; guard_hyp x : _ → _ := _; refine (fun (hl0 : ∀ (d0 : Dev) (f1 : Dev → _ → Dev), Keeps b d0 → (∀ d y, Keeps b d → Keeps b (f1 d y)) → Keeps b (x d0 f1)) => ?_) ?_; rotate_left; unfold x; clear x; intro d0 f1 hd0 hf1; beta_reduce; rotate_right; clear_value x)
   | (extract_lets +onlyGivenNames x; clear_value x)
   | extract_lets +onlyGivenNames x
   | with_reducible apply closeRuns_keeps
   | with_reducible apply cmdEnds_keeps
   | with_reducible apply migrateEntries_keeps
   | with_reducible apply migrateRow_keeps
   | with_reducible apply migrateScan_keeps
   | with_reducible refine hl0 _ _ ?_ (fun d y h => ?_)
   | with_reducible refine hf1 _ _ ?_
   | with_reducible refine keeps_ite (fun _ => ?_) (fun _ => ?_)
   | split

theorem verifyAsk_keeps {b : Dev} {x0 : Dev} {x1 : Nat} {x2 : Nat} (hx0 : Keeps b x0) : Keeps b (Dev.verifyAsk x0 x1 x2) := by
  induction x2 generalizing x0 x1 with
  | zero =>
    unfold Dev.verifyAsk
    repeat' first
     | with_reducible assumption
  | succ n ih =>
    unfold Dev.verifyAsk
    repeat' first
     | with_reducible assumption
     | with_reducible apply ih
     | (extract_lets +onlyGivenNames x; guard_hyp x : Dev := _; refine (fun (hx : Keeps b x) => ?_) ?_; rotate_left; unfold x; clear x; rotate_right; clear_value x)
     | extract_lets +onlyGivenNames x
     | with_reducible apply onCmd_keeps
     | with_reducible apply onOdr_keeps
     | with_reducible refine keeps_ite (fun _ => ?_) (fun _ => ?_)
     | split

theorem verifyStep_keeps {b : Dev} {x0 : Dev} {x1 : Cmd} (hx0 : Keeps b x0) : Keeps b (Dev.verifyStep x0 x1) := by
  unfold Dev.verifyStep
  repeat' first
   | with_reducible assumption
   | (extract_lets +onlyGivenNames x; guard_hyp x : Dev := _; refine (fun (hx : Keeps b x) => ?_) ?_; rotate_left; unfold x; clear x; rotate_right; clear_value x)
   | extract_lets +onlyGivenNames x
   | with_reducible apply cmdEnds_keeps
   | with_reducible apply verifyAsk_keeps
   | with_reducible refine keeps_ite (fun _ => ?_) (fun _ => ?_)
   | split

end Sys2Proof.Machine
end

