-- ==== Sys2Proof/Laws/Keeps/Drain.lean ====
section
/-! SUPPORT. What every operation of Machine/Drain.lean keeps. -/
namespace Sys2Proof.Machine
open Sys2Proof

set_option linter.unusedTactic false
set_option linter.unreachableTactic false
set_option linter.tactic.unusedName false

theorem readFrame_keeps {b : Dev} {x0 : Dev} {x1 : Nat} {x2 : FrameRec} (hx0 : Keeps b x0) : KeepsT b (Dev.readFrame x0 x1 x2) := by
  unfold Dev.readFrame
  repeat' first
   | with_reducible assumption
   | (generalize hp : Dev.chainRead _ _ _ _ = p; refine (fun (hk : KeepsP b p) => ?_) (keepsP_gen hp (chainRead_keeps ?_)); rotate_left; clear hp; clear p; rotate_right; clear hp; obtain ⟨y, z⟩ := p; replace hk : Keeps b z := hk; try dsimp -zeta only)
   | extract_lets +onlyGivenNames x
   | with_reducible refine keepsT_snd (keepsT_foldl ?_ (fun d x h => ?_))
   | split
   | with_reducible refine keepsT_mk ?_
   | with_reducible exact keepsT_snd ‹KeepsT b _›

theorem drainStart_keeps {b : Dev} {x0 : Dev} (hx0 : Keeps b x0) : Keeps b (Dev.drainStart x0) := by
  unfold Dev.drainStart
  repeat' first
   | with_reducible assumption
   | with_reducible refine fun (d : Dev) (h : Keeps b d) => ?_
   | (generalize hp : Dev.readFrame _ _ _ = p; refine (fun (hk : KeepsT b p) => ?_) (keepsT_gen hp (readFrame_keeps ?_)); rotate_left; clear hp; clear p; rotate_right; clear hp; obtain ⟨y, w, z⟩ := p; replace hk : Keeps b z := hk; try dsimp -zeta only)
   | (extract_lets +onlyGivenNames x; guard_hyp x : Dev := _; refine (fun (hx : Keeps b x) => ?_) ?_; rotate_left; unfold x; clear x; rotate_right; clear_value x)
   | (extract_lets +onlyGivenNames x; clear_value x)
   | extract_lets +onlyGivenNames x
   | with_reducible apply countN_keeps
   | with_reducible apply count_keeps
   | with_reducible apply onFrame_keeps
   | with_reducible apply onIng_keeps
   | with_reducible apply onStream_keeps
   | with_reducible apply raise_keeps
   | with_reducible apply takeInjected_keeps
   | with_reducible apply when_keeps
   | with_reducible apply wr_keeps
   | with_reducible refine keeps_ite (fun _ => ?_) (fun _ => ?_)
   | split

theorem volWrite_keeps {b : Dev} {x0 : Dev} {x1 : Nat} {x2 : Nat} {x3 : List Byte} {x4 : List Nat} {x5 : Bool} {x6 : Nat} {x7 : Nat} {x8 : Nat} (hx0 : Keeps b x0) : Keeps b (Dev.volWrite x0 x1 x2 x3 x4 x5 x6 x7 x8) := by
  unfold Dev.volWrite
  repeat' first
   | with_reducible assumption
   | (generalize hp : Dev.addJob _ _ = p; refine (fun (hk : KeepsP b p) => ?_) (keepsP_gen hp (addJob_keeps ?_)); rotate_left; clear hp; clear p; rotate_right; clear hp; obtain ⟨y, z⟩ := p; replace hk : Keeps b z := hk; try dsimp -zeta only)
   | (extract_lets +onlyGivenNames x; clear_value x)
   | with_reducible refine keeps_foldl ?_ (fun d x h => ?_)

theorem drainEnd_keeps {b : Dev} {x0 : Dev} {x1 : Nat} {x2 : Nat} (hx0 : Keeps b x0) : Keeps b (Dev.drainEnd x0 x1 x2) := by
  unfold Dev.drainEnd
  repeat' first
   | with_reducible assumption
   | (generalize hp : Dev.chainRead _ _ _ _ = p; refine (fun (hk : KeepsP b p) => ?_) (keepsP_gen hp (chainRead_keeps ?_)); rotate_left; clear hp; clear p; rotate_right; clear hp; obtain ⟨y, z⟩ := p; replace hk : Keeps b z := hk; try dsimp -zeta only)
   | (generalize hp : Dev.journal _ _ _ _ _ _ = p; refine (fun (hk : KeepsP b p) => ?_) (keepsP_gen hp (journal_keeps ?_)); rotate_left; clear hp; clear p; rotate_right; clear hp; obtain ⟨y, z⟩ := p; replace hk : Keeps b z := hk; try dsimp -zeta only)
   | (extract_lets +onlyGivenNames x; guard_hyp x : Dev := _; refine (fun (hx : Keeps b x) => ?_) ?_; rotate_left; unfold x; clear x; rotate_right; clear_value x)
   | (extract_lets +onlyGivenNames x; clear_value x)
   | extract_lets +onlyGivenNames x
   | with_reducible apply editEntry_keeps
   | with_reducible apply onFrame_keeps
   | with_reducible apply onIng_keeps
   | with_reducible apply onSfl_keeps
   | with_reducible apply onStream_keeps
   | with_reducible apply raise_keeps
   | with_reducible apply showAppend_keeps
   | with_reducible apply volWrite_keeps
   | with_reducible apply wr_keeps
   | with_reducible refine keeps_ite (fun _ => ?_) (fun _ => ?_)
   | split

theorem showWatermark_keeps {b : Dev} {x0 : Dev} {x1 : Nat} (hx0 : Keeps b x0) : Keeps b (Dev.showWatermark x0 x1) := by
  unfold Dev.showWatermark
  repeat' first
   | with_reducible assumption
   | (extract_lets +onlyGivenNames x; clear_value x)
   | extract_lets +onlyGivenNames x
   | with_reducible apply wr_keeps
   | split

theorem frameDurable_keeps {b : Dev} {x0 : Dev} {x1 : Nat} {x2 : Nat} (hx0 : Keeps b x0) : Keeps b (Dev.frameDurable x0 x1 x2) := by
  unfold Dev.frameDurable
  repeat' first
   | with_reducible assumption
   | with_reducible refine fun (d : Dev) (h : Keeps b d) => ?_
   | (generalize hp : Dev.sysRead _ _ _ = p; refine (fun (hk : KeepsP b p) => ?_) (keepsP_gen hp (sysRead_keeps ?_)); rotate_left; clear hp; clear p; rotate_right; clear hp; obtain ⟨y, z⟩ := p; replace hk : Keeps b z := hk; try dsimp -zeta only)
   | (extract_lets +onlyGivenNames x; guard_hyp x : Dev := _; refine (fun (hx : Keeps b x) => ?_) ?_; rotate_left; unfold x; clear x; rotate_right; clear_value x)
   | (extract_lets +onlyGivenNames x; clear_value x)
   | extract_lets +onlyGivenNames x
   | with_reducible apply editEntry_keeps
   | with_reducible apply onFrame_keeps
   | with_reducible apply put64_keeps
   | with_reducible apply reclaim_keeps
   | with_reducible apply showWatermark_keeps
   | with_reducible apply when_keeps
   | with_reducible apply writeLookup_keeps
   | with_reducible refine keeps_ite (fun _ => ?_) (fun _ => ?_)
   | split

theorem engineFails_keeps {b : Dev} {x0 : Dev} {x1 : EngineRef} {x2 : Bool} (hx0 : Keeps b x0) : Keeps b (Dev.engineFails x0 x1 x2) := by
  unfold Dev.engineFails
  repeat' first
   | with_reducible assumption
   | (extract_lets +onlyGivenNames x; guard_hyp x : _ → _ := _; refine (fun (hl0 : ∀ (d0 : Dev) y1 y2 y3 y4, Keeps b d0 → Keeps b (x d0 y1 y2 y3 y4)) => ?_) ?_; rotate_left; unfold x; clear x; intro d0 y1 y2 y3 y4 hd0; beta_reduce; rotate_right; clear_value x)
   | extract_lets +onlyGivenNames x
   | with_reducible apply count_keeps
   | with_reducible apply fence1_keeps
   | with_reducible apply raise_keeps
   | with_reducible apply takeInjected_keeps
   | with_reducible refine hl0 _ _ _ _ _ ?_
   | with_reducible refine keeps_ite (fun _ => ?_) (fun _ => ?_)
   | split

end Sys2Proof.Machine
end

