-- ==== Sys2Proof/Laws/Keeps/HostIo.lean ====
section
/-! SUPPORT. What every operation of Machine/HostIo.lean keeps. -/
namespace Sys2Proof.Machine
open Sys2Proof

set_option linter.unusedTactic false
set_option linter.unreachableTactic false
set_option linter.tactic.unusedName false

theorem Cmd_endsAt_keeps {b : Dev} {x0 : Cmd} {x1 : Dev} {x2 : Nat} (hx1 : Keeps b x1) : Keeps b (Cmd.endsAt x0 x1 x2) := by
  unfold Cmd.endsAt
  repeat' first
   | with_reducible assumption
   | with_reducible apply cmdEnds_keeps

theorem started_keeps {b : Dev} {x0 : Dev} {x1 : Cmd} (hx0 : Keeps b x0) : Keeps b (Dev.started x0 x1) := by
  unfold Dev.started
  repeat' first
   | with_reducible assumption
   | extract_lets +onlyGivenNames x
   | with_reducible apply onCmd_keeps
   | with_reducible apply showQ_keeps

theorem xferRdys_keeps {b : Dev} {x0 : Dev} {x1 : Nat} {x2 : Nat} (hx0 : Keeps b x0) : Keeps b (Dev.xferRdys x0 x1 x2) := by
  induction x2 generalizing x0 x1 with
  | zero =>
    unfold Dev.xferRdys
    repeat' first
     | with_reducible assumption
  | succ n ih =>
    unfold Dev.xferRdys
    repeat' first
     | with_reducible assumption
     | with_reducible apply ih
     | (generalize hp : Dev.askBuf _ _ = p; refine (fun (hk : KeepsP b p) => ?_) (keepsP_gen hp (askBuf_keeps ?_)); rotate_left; clear hp; clear p; rotate_right; clear hp; obtain ⟨y, z⟩ := p; replace hk : Keeps b z := hk; try dsimp -zeta only)
     | (generalize hp : Dev.bpmHostw _ _ _ _ = p; refine (fun (hk : KeepsP b p) => ?_) (keepsP_gen hp (bpmHostw_keeps ?_)); rotate_left; clear hp; clear p; rotate_right; clear hp; obtain ⟨y, z⟩ := p; replace hk : Keeps b z := hk; try dsimp -zeta only)
     | (extract_lets +onlyGivenNames x; guard_hyp x : Dev := _; refine (fun (hx : Keeps b x) => ?_) ?_; rotate_left; unfold x; clear x; rotate_right; clear_value x)
     | (extract_lets +onlyGivenNames x; clear_value x)
     | extract_lets +onlyGivenNames x
     | with_reducible apply addXfer_keeps
     | with_reducible apply onCmd_keeps
     | with_reducible refine keeps_ite (fun _ => ?_) (fun _ => ?_)
     | split

theorem unitWrite_keeps {b : Dev} {x0 : Dev} {x1 : Cmd} {x2 : Xfer} (hx0 : Keeps b x0) : Keeps b (Dev.unitWrite x0 x1 x2) := by
  unfold Dev.unitWrite
  repeat' first
   | with_reducible assumption
   | (generalize hp : Dev.addJob _ _ = p; refine (fun (hk : KeepsP b p) => ?_) (keepsP_gen hp (addJob_keeps ?_)); rotate_left; clear hp; clear p; rotate_right; clear hp; obtain ⟨y, z⟩ := p; replace hk : Keeps b z := hk; try dsimp -zeta only)
   | (generalize hp : Dev.bpmTransfer _ _ _ _ = p; refine (fun (hk : KeepsP b p) => ?_) (keepsP_gen hp (bpmTransfer_keeps ?_)); rotate_left; clear hp; clear p; rotate_right; clear hp; obtain ⟨y, z⟩ := p; replace hk : Keeps b z := hk; try dsimp -zeta only)
   | (generalize hp : Dev.bufTake _ _ _ _ _ _ = p; refine (fun (hk : KeepsT b p) => ?_) (keepsT_gen hp (bufTake_keeps ?_)); rotate_left; clear hp; clear p; rotate_right; clear hp; obtain ⟨y, w, z⟩ := p; replace hk : Keeps b z := hk; try dsimp -zeta only)
   | (extract_lets +onlyGivenNames x; guard_hyp x : Dev := _; refine (fun (hx : Keeps b x) => ?_) ?_; rotate_left; unfold x; clear x; rotate_right; clear_value x)
   | with_reducible apply onHat_keeps

theorem unitDone_keeps {b : Dev} {x0 : Dev} {x1 : Nat} {x2 : Nat} (hx0 : Keeps b x0) : Keeps b (Dev.unitDone x0 x1 x2) := by
  unfold Dev.unitDone
  repeat' first
   | with_reducible assumption
   | (extract_lets +onlyGivenNames x; guard_hyp x : Dev := _; refine (fun (hx : Keeps b x) => ?_) ?_; rotate_left; unfold x; clear x; rotate_right; clear_value x)
   | (extract_lets +onlyGivenNames x; clear_value x)
   | extract_lets +onlyGivenNames x
   | with_reducible apply freeHandle_keeps
   | with_reducible apply onCmd_keeps
   | with_reducible apply onHat_keeps
   | with_reducible refine keeps_foldl ?_ (fun d x h => ?_)

theorem writeStep_keeps {b : Dev} {x0 : Dev} {x1 : Cmd} (hx0 : Keeps b x0) : Keeps b (Dev.writeStep x0 x1) := by
  unfold Dev.writeStep
  repeat' first
   | with_reducible assumption
   | (extract_lets +onlyGivenNames x; guard_hyp x : Dev := _; refine (fun (hx : Keeps b x) => ?_) ?_; rotate_left; unfold x; clear x; rotate_right; clear_value x)
   | (extract_lets +onlyGivenNames x; clear_value x)
   | extract_lets +onlyGivenNames x
   | with_reducible apply cmdEnds_keeps
   | with_reducible apply xferRdys_keeps
   | with_reducible refine keeps_ite (fun _ => ?_) (fun _ => ?_)
   | split

theorem unitAsk_keeps {b : Dev} {x0 : Dev} {x1 : Nat} {x2 : Nat} {x3 : Nat} (hx0 : Keeps b x0) : KeepsP b (Dev.unitAsk x0 x1 x2 x3) := by
  unfold Dev.unitAsk
  repeat' first
   | with_reducible assumption
   | (extract_lets +onlyGivenNames x; guard_hyp x : Dev := _; refine (fun (hx : Keeps b x) => ?_) ?_; rotate_left; unfold x; clear x; rotate_right; clear_value x)
   | (extract_lets +onlyGivenNames x; clear_value x)
   | extract_lets +onlyGivenNames x
   | with_reducible apply cmdEnds_keeps
   | with_reducible apply lookPage_keeps
   | with_reducible apply onOdr_keeps
   | with_reducible apply onSfl_keeps
   | with_reducible refine keepsP_ite (fun _ => ?_) (fun _ => ?_)
   | split
   | with_reducible refine keepsP_mk ?_

theorem unitTaken_keeps {b : Dev} {x0 : Dev} {x1 : Nat} {x2 : Nat} (hx0 : Keeps b x0) : Keeps b (Dev.unitTaken x0 x1 x2) := by
  unfold Dev.unitTaken
  repeat' first
   | with_reducible assumption
   | with_reducible apply onSfl_keeps

theorem unitPlain_keeps {b : Dev} {x0 : Dev} {x1 : Nat} {x2 : FUnit × Bool} (hx0 : Keeps b x0) : KeepsT b (Dev.unitPlain x0 x1 x2) := by
  unfold Dev.unitPlain
  repeat' first
   | with_reducible assumption
   | (generalize hp : Dev.plain _ _ _ = p; refine (fun (hk : KeepsT b p) => ?_) (keepsT_gen hp (plain_keeps ?_)); rotate_left; clear hp; clear p; rotate_right; clear hp; obtain ⟨y, w, z⟩ := p; replace hk : Keeps b z := hk; try dsimp -zeta only)
   | extract_lets +onlyGivenNames x
   | with_reducible refine keepsT_ite (fun _ => ?_) (fun _ => ?_)
   | with_reducible refine keepsT_mk ?_

theorem readOut_keeps {b : Dev} {x0 : Dev} {x1 : Cmd} {x2 : Nat} {x3 : Map Byte} {x4 : Nat} (hx0 : Keeps b x0) : Keeps b (Dev.readOut x0 x1 x2 x3 x4) := by
  unfold Dev.readOut
  repeat' first
   | with_reducible assumption
   | (extract_lets +onlyGivenNames x; guard_hyp x : Dev := _; refine (fun (hx : Keeps b x) => ?_) ?_; rotate_left; unfold x; clear x; rotate_right; clear_value x)
   | (extract_lets +onlyGivenNames x; clear_value x)
   | with_reducible apply deliverIn_keeps
   | with_reducible apply onCmd_keeps

theorem readMove_keeps {b : Dev} {x0 : Dev} {x1 : Cmd} (hx0 : Keeps b x0) : KeepsP b (Dev.readMove x0 x1) := by
  unfold Dev.readMove
  repeat' first
   | with_reducible assumption
   | (extract_lets +onlyGivenNames x; guard_hyp x : _ → _ := _; refine (fun (hf : ∀ (f : Dev → Map Byte × Nat × Dev), (∀ d, Keeps b d → KeepsT b (f d)) → KeepsP b (x f)) => ?_) ?_; rotate_left; unfold x; clear x; intro f hg; beta_reduce; rotate_right; clear_value x)
   | with_reducible refine hf _ (fun d h => ?_)
   | (generalize hp : f _ = p; refine (fun (hk : KeepsT b p) => ?_) (keepsT_gen hp (hg _ ?_)); rotate_left; clear hp; clear p; rotate_right; clear hp; obtain ⟨y, w, z⟩ := p; replace hk : Keeps b z := hk; try dsimp -zeta only)
   | (generalize hp : Dev.askBuf _ _ = p; refine (fun (hk : KeepsP b p) => ?_) (keepsP_gen hp (askBuf_keeps ?_)); rotate_left; clear hp; clear p; rotate_right; clear hp; obtain ⟨y, z⟩ := p; replace hk : Keeps b z := hk; try dsimp -zeta only)
   | (generalize hp : Dev.unitAsk _ _ _ _ = p; refine (fun (hk : KeepsP b p) => ?_) (keepsP_gen hp (unitAsk_keeps ?_)); rotate_left; clear hp; clear p; rotate_right; clear hp; obtain ⟨y, z⟩ := p; replace hk : Keeps b z := hk; try dsimp -zeta only)
   | (generalize hp : Dev.unitPlain _ _ _ = p; refine (fun (hk : KeepsT b p) => ?_) (keepsT_gen hp (unitPlain_keeps ?_)); rotate_left; clear hp; clear p; rotate_right; clear hp; obtain ⟨y, w, z⟩ := p; replace hk : Keeps b z := hk; try dsimp -zeta only)
   | (extract_lets +onlyGivenNames x; clear_value x)
   | extract_lets +onlyGivenNames x
   | with_reducible apply addXfer_keeps
   | with_reducible apply onCmd_keeps
   | with_reducible apply readOut_keeps
   | with_reducible apply unitTaken_keeps
   | with_reducible refine keepsP_ite (fun _ => ?_) (fun _ => ?_)
   | split
   | with_reducible refine keepsP_mk ?_
   | with_reducible refine keepsT_mk ?_

theorem readMoves_keeps {b : Dev} {x0 : Dev} {x1 : Nat} {x2 : Nat} (hx0 : Keeps b x0) : Keeps b (Dev.readMoves x0 x1 x2) := by
  induction x2 generalizing x0 x1 with
  | zero =>
    unfold Dev.readMoves
    repeat' first
     | with_reducible assumption
  | succ n ih =>
    unfold Dev.readMoves
    repeat' first
     | with_reducible assumption
     | with_reducible apply ih
     | (generalize hp : Dev.readMove _ _ = p; refine (fun (hk : KeepsP b p) => ?_) (keepsP_gen hp (readMove_keeps ?_)); rotate_left; clear hp; clear p; rotate_right; clear hp; obtain ⟨y, z⟩ := p; replace hk : Keeps b z := hk; try dsimp -zeta only)
     | with_reducible refine keeps_ite (fun _ => ?_) (fun _ => ?_)
     | split

theorem readStep_keeps {b : Dev} {x0 : Dev} {x1 : Cmd} (hx0 : Keeps b x0) : Keeps b (Dev.readStep x0 x1) := by
  unfold Dev.readStep
  repeat' first
   | with_reducible assumption
   | (extract_lets +onlyGivenNames x; guard_hyp x : Dev := _; refine (fun (hx : Keeps b x) => ?_) ?_; rotate_left; unfold x; clear x; rotate_right; clear_value x)
   | extract_lets +onlyGivenNames x
   | with_reducible apply cmdEnds_keeps
   | with_reducible apply readMoves_keeps
   | with_reducible apply unlock_keeps
   | with_reducible refine keeps_ite (fun _ => ?_) (fun _ => ?_)
   | split

theorem flushStep_keeps {b : Dev} {x0 : Dev} {x1 : Cmd} (hx0 : Keeps b x0) : Keeps b (Dev.flushStep x0 x1) := by
  unfold Dev.flushStep
  repeat' first
   | with_reducible assumption
   | (extract_lets +onlyGivenNames x; guard_hyp x : Dev := _; refine (fun (hx : Keeps b x) => ?_) ?_; rotate_left; unfold x; clear x; rotate_right; clear_value x)
   | (extract_lets +onlyGivenNames x; clear_value x)
   | extract_lets +onlyGivenNames x
   | with_reducible apply Cmd_endsAt_keeps
   | with_reducible apply jflush_keeps
   | with_reducible apply onCmd_keeps
   | with_reducible apply padStripe_keeps
   | with_reducible refine keeps_foldl ?_ (fun d x h => ?_)
   | with_reducible refine keeps_ite (fun _ => ?_) (fun _ => ?_)

theorem lookups_keeps {b : Dev} {x0 : Dev} {x1 : Cmd} (hx0 : Keeps b x0) : KeepsP b (Dev.lookups x0 x1) := by
  unfold Dev.lookups
  repeat' first
   | with_reducible assumption
   | (generalize hp : Dev.sysRead _ _ _ = p; refine (fun (hk : KeepsP b p) => ?_) (keepsP_gen hp (sysRead_keeps ?_)); rotate_left; clear hp; clear p; rotate_right; clear hp; obtain ⟨y, z⟩ := p; replace hk : Keeps b z := hk; try dsimp -zeta only)
   | (extract_lets +onlyGivenNames x; clear_value x)
   | extract_lets +onlyGivenNames x
   | with_reducible refine keepsP_foldl ?_ (fun d x h => ?_)
   | split
   | with_reducible refine keepsP_mk ?_
   | with_reducible exact keeps_snd ‹KeepsP b _›
   | with_reducible refine keeps_pair ?_ ‹_ = (_, _)›

theorem gather_keeps {b : Dev} {x0 : Dev} {x1 : Cmd} {x2 : Nat} {x3 : Nat} {x4 : Nat} {x5 : Nat} (hx0 : Keeps b x0) : Keeps b (Dev.gather x0 x1 x2 x3 x4 x5) := by
  unfold Dev.gather
  repeat' first
   | with_reducible assumption
   | with_reducible apply onCmd_keeps

theorem gatherMove_keeps {b : Dev} {x0 : Dev} {x1 : Cmd} (hx0 : Keeps b x0) : KeepsP b (Dev.gatherMove x0 x1) := by
  unfold Dev.gatherMove
  repeat' first
   | with_reducible assumption
   | (generalize hp : Dev.unitAsk _ _ _ _ = p; refine (fun (hk : KeepsP b p) => ?_) (keepsP_gen hp (unitAsk_keeps ?_)); rotate_left; clear hp; clear p; rotate_right; clear hp; obtain ⟨y, z⟩ := p; replace hk : Keeps b z := hk; try dsimp -zeta only)
   | (generalize hp : Dev.unitPlain _ _ _ = p; refine (fun (hk : KeepsT b p) => ?_) (keepsT_gen hp (unitPlain_keeps ?_)); rotate_left; clear hp; clear p; rotate_right; clear hp; obtain ⟨y, w, z⟩ := p; replace hk : Keeps b z := hk; try dsimp -zeta only)
   | (extract_lets +onlyGivenNames x; guard_hyp x : _ → _ := _; refine (fun (hf : ∀ d y0 y1, Keeps b d → Keeps b (x d y0 y1)) => ?_) ?_; rotate_left; unfold x; clear x; intro d y0 y1 h; beta_reduce; rotate_right; clear_value x)
   | (extract_lets +onlyGivenNames x; clear_value x)
   | extract_lets +onlyGivenNames x
   | with_reducible apply onCmd_keeps
   | with_reducible apply unitTaken_keeps
   | with_reducible refine hf _ _ _ ?_
   | with_reducible refine keepsP_ite (fun _ => ?_) (fun _ => ?_)
   | split
   | with_reducible refine keepsP_mk ?_

theorem gathers_keeps {b : Dev} {x0 : Dev} {x1 : Nat} {x2 : Nat} (hx0 : Keeps b x0) : KeepsP b (Dev.gathers x0 x1 x2) := by
  induction x2 generalizing x0 x1 with
  | zero =>
    unfold Dev.gathers
    repeat' first
     | with_reducible assumption
     | with_reducible refine keepsP_mk ?_
  | succ n ih =>
    unfold Dev.gathers
    repeat' first
     | with_reducible assumption
     | with_reducible apply ih
     | (generalize hp : Dev.gatherMove _ _ = p; refine (fun (hk : KeepsP b p) => ?_) (keepsP_gen hp (gatherMove_keeps ?_)); rotate_left; clear hp; clear p; rotate_right; clear hp; obtain ⟨y, z⟩ := p; replace hk : Keeps b z := hk; try dsimp -zeta only)
     | extract_lets +onlyGivenNames x
     | split
     | with_reducible refine keepsP_mk ?_
     | with_reducible refine keeps_pair ?_ ‹_ = (_, _)›

theorem frameOut_keeps {b : Dev} {x0 : Dev} {x1 : Cmd} {x2 : List Byte} {x3 : List Nat} {x4 : Nat} {x5 : Nat} {x6 : Nat} (hx0 : Keeps b x0) : Keeps b (Dev.frameOut x0 x1 x2 x3 x4 x5 x6) := by
  unfold Dev.frameOut
  repeat' first
   | with_reducible assumption
   | with_reducible apply onCmd_keeps

theorem pieces_keeps {b : Dev} {x0 : Dev} {x1 : Nat} {x2 : Nat} {x3 : Nat} (hx0 : Keeps b x0) : Keeps b (Dev.pieces x0 x1 x2 x3) := by
  induction x3 generalizing x0 x1 x2 with
  | zero =>
    unfold Dev.pieces
    repeat' first
     | with_reducible assumption
  | succ n ih =>
    unfold Dev.pieces
    repeat' first
     | with_reducible assumption
     | with_reducible apply ih
     | (generalize hp : Dev.askBuf _ _ = p; refine (fun (hk : KeepsP b p) => ?_) (keepsP_gen hp (askBuf_keeps ?_)); rotate_left; clear hp; clear p; rotate_right; clear hp; obtain ⟨y, z⟩ := p; replace hk : Keeps b z := hk; try dsimp -zeta only)
     | (extract_lets +onlyGivenNames x; guard_hyp x : Dev := _; refine (fun (hx : Keeps b x) => ?_) ?_; rotate_left; unfold x; clear x; rotate_right; clear_value x)
     | (extract_lets +onlyGivenNames x; clear_value x)
     | extract_lets +onlyGivenNames x
     | with_reducible apply cmdEnds_keeps
     | with_reducible apply deliverIn_keeps
     | with_reducible apply onCmd_keeps
     | with_reducible refine keeps_ite (fun _ => ?_) (fun _ => ?_)
     | split

theorem framePin_keeps {b : Dev} {x0 : Dev} {x1 : Cmd} {x2 : FrameRec} {x3 : Nat} (hx0 : Keeps b x0) : Keeps b (Dev.framePin x0 x1 x2 x3) := by
  unfold Dev.framePin
  repeat' first
   | with_reducible assumption
   | (extract_lets +onlyGivenNames x; guard_hyp x : Dev := _; refine (fun (hx : Keeps b x) => ?_) ?_; rotate_left; unfold x; clear x; rotate_right; clear_value x)
   | (extract_lets +onlyGivenNames x; clear_value x)
   | extract_lets +onlyGivenNames x
   | with_reducible apply Cmd_endsAt_keeps
   | with_reducible apply frameOut_keeps
   | with_reducible apply onCmd_keeps
   | with_reducible apply onHat_keeps
   | with_reducible refine keeps_ite (fun _ => ?_) (fun _ => ?_)

theorem frameStore_keeps {b : Dev} {x0 : Dev} {x1 : Cmd} {x2 : FrameRec} {x3 : Nat} (hx0 : Keeps b x0) : Keeps b (Dev.frameStore x0 x1 x2 x3) := by
  unfold Dev.frameStore
  repeat' first
   | with_reducible assumption
   | (generalize hp : Dev.readFrame _ _ _ = p; refine (fun (hk : KeepsT b p) => ?_) (keepsT_gen hp (readFrame_keeps ?_)); rotate_left; clear hp; clear p; rotate_right; clear hp; obtain ⟨y, w, z⟩ := p; replace hk : Keeps b z := hk; try dsimp -zeta only)
   | (extract_lets +onlyGivenNames x; clear_value x)
   | extract_lets +onlyGivenNames x
   | with_reducible apply frameOut_keeps
   | with_reducible apply framePin_keeps
   | with_reducible refine keeps_ite (fun _ => ?_) (fun _ => ?_)

theorem frameFind_keeps {b : Dev} {x0 : Dev} {x1 : Cmd} (hx0 : Keeps b x0) : Keeps b (Dev.frameFind x0 x1) := by
  unfold Dev.frameFind
  repeat' first
   | with_reducible assumption
   | (generalize hp : Dev.lookups _ _ = p; refine (fun (hk : KeepsP b p) => ?_) (keepsP_gen hp (lookups_keeps ?_)); rotate_left; clear hp; clear p; rotate_right; clear hp; obtain ⟨y, z⟩ := p; replace hk : Keeps b z := hk; try dsimp -zeta only)
   | (extract_lets +onlyGivenNames x; clear_value x)
   | extract_lets +onlyGivenNames x
   | with_reducible apply Cmd_endsAt_keeps
   | with_reducible apply frameStore_keeps
   | with_reducible apply onCmd_keeps
   | with_reducible refine keeps_ite (fun _ => ?_) (fun _ => ?_)
   | split

theorem frameNext_keeps {b : Dev} {x0 : Dev} {x1 : Cmd} (hx0 : Keeps b x0) : Keeps b (Dev.frameNext x0 x1) := by
  unfold Dev.frameNext
  repeat' first
   | with_reducible assumption
   | (extract_lets +onlyGivenNames x; clear_value x)
   | extract_lets +onlyGivenNames x
   | with_reducible apply Cmd_endsAt_keeps
   | with_reducible apply gather_keeps
   | with_reducible refine keeps_ite (fun _ => ?_) (fun _ => ?_)
   | split

theorem frameHead_keeps {b : Dev} {x0 : Dev} {x1 : Cmd} (hx0 : Keeps b x0) : Keeps b (Dev.frameHead x0 x1) := by
  unfold Dev.frameHead
  repeat' first
   | with_reducible assumption
   | (extract_lets +onlyGivenNames x; clear_value x)
   | extract_lets +onlyGivenNames x
   | with_reducible apply Cmd_endsAt_keeps
   | with_reducible apply gather_keeps
   | with_reducible apply onCmd_keeps
   | with_reducible refine keeps_ite (fun _ => ?_) (fun _ => ?_)
   | split

theorem frameIndex_keeps {b : Dev} {x0 : Dev} {x1 : Cmd} (hx0 : Keeps b x0) : Keeps b (Dev.frameIndex x0 x1) := by
  unfold Dev.frameIndex
  repeat' first
   | with_reducible assumption
   | (extract_lets +onlyGivenNames x; clear_value x)
   | extract_lets +onlyGivenNames x
   | with_reducible apply Cmd_endsAt_keeps
   | with_reducible apply gather_keeps
   | with_reducible apply onCmd_keeps
   | with_reducible refine keeps_ite (fun _ => ?_) (fun _ => ?_)
   | split

theorem frameRead_keeps {b : Dev} {x0 : Dev} {x1 : Cmd} (hx0 : Keeps b x0) : Keeps b (Dev.frameRead x0 x1) := by
  unfold Dev.frameRead
  repeat' first
   | with_reducible assumption
   | (extract_lets +onlyGivenNames x; clear_value x)
   | extract_lets +onlyGivenNames x
   | with_reducible apply frameOut_keeps
   | with_reducible refine keeps_ite (fun _ => ?_) (fun _ => ?_)
   | split

theorem frameStage_keeps {b : Dev} {x0 : Dev} {x1 : Cmd} (hx0 : Keeps b x0) : Keeps b (Dev.frameStage x0 x1) := by
  unfold Dev.frameStage
  repeat' first
   | with_reducible assumption
   | (generalize hp : Dev.gathers _ _ _ = p; refine (fun (hk : KeepsP b p) => ?_) (keepsP_gen hp (gathers_keeps ?_)); rotate_left; clear hp; clear p; rotate_right; clear hp; obtain ⟨y, z⟩ := p; replace hk : Keeps b z := hk; try dsimp -zeta only)
   | (extract_lets +onlyGivenNames x; guard_hyp x : _ → _ := _; refine (fun (hf : ∀ (f : Dev → _ → Dev), (∀ d y, Keeps b d → Keeps b (f d y)) → Keeps b (x f)) => ?_) ?_; rotate_left; unfold x; clear x; intro f hg; beta_reduce; rotate_right; clear_value x)
   | extract_lets +onlyGivenNames x
   | with_reducible apply frameFind_keeps
   | with_reducible apply frameHead_keeps
   | with_reducible apply frameIndex_keeps
   | with_reducible apply frameNext_keeps
   | with_reducible apply frameRead_keeps
   | with_reducible apply pieces_keeps
   | with_reducible refine hf _ (fun d y h => ?_)
   | with_reducible refine hg _ _ ?_
   | split

theorem frameStep_keeps {b : Dev} {x0 : Dev} {x1 : Nat} {x2 : Nat} (hx0 : Keeps b x0) : Keeps b (Dev.frameStep x0 x1 x2) := by
  induction x2 generalizing x0 x1 with
  | zero =>
    unfold Dev.frameStep
    repeat' first
     | with_reducible assumption
  | succ n ih =>
    unfold Dev.frameStep
    repeat' first
     | with_reducible assumption
     | with_reducible apply ih
     | (extract_lets +onlyGivenNames x; guard_hyp x : Dev := _; refine (fun (hx : Keeps b x) => ?_) ?_; rotate_left; unfold x; clear x; rotate_right; clear_value x)
     | extract_lets +onlyGivenNames x
     | with_reducible apply frameStage_keeps
     | with_reducible refine keeps_ite (fun _ => ?_) (fun _ => ?_)
     | split

end Sys2Proof.Machine
end

