-- ==== Sys2Proof/Laws/Keeps/Stepper.lean ====
section
/-! SUPPORT. What every operation of Machine/Stepper.lean keeps. -/
namespace Sys2Proof.Machine
open Sys2Proof

set_option linter.unusedTactic false
set_option linter.unreachableTactic false
set_option linter.tactic.unusedName false

theorem onAxis_keeps {b : Dev} {x0 : Dev} {x1 : Nat} {x2 : Axis → Axis} (hx0 : Keeps b x0) : Keeps b (Dev.onAxis x0 x1 x2) := by
  unfold Dev.onAxis
  repeat' first
   | with_reducible assumption
   | (extract_lets +onlyGivenNames x; guard_hyp x : Dev := _; refine (fun (hx : Keeps b x) => ?_) ?_; rotate_left; unfold x; clear x; rotate_right; clear_value x)
   | (extract_lets +onlyGivenNames x; clear_value x)
   | with_reducible apply onMot_keeps
   | with_reducible apply wr_keeps

theorem showInputs_keeps {b : Dev} {x0 : Dev} {x1 : Nat} (hx0 : Keeps b x0) : Keeps b (Dev.showInputs x0 x1) := by
  unfold Dev.showInputs
  repeat' first
   | with_reducible assumption
   | extract_lets +onlyGivenNames x
   | with_reducible apply wr_keeps

theorem setPos_keeps {b : Dev} {x0 : Dev} {x1 : Nat} {x2 : Int} (hx0 : Keeps b x0) : Keeps b (Dev.setPos x0 x1 x2) := by
  unfold Dev.setPos
  repeat' first
   | with_reducible assumption
   | with_reducible apply wr_keeps

theorem begin_keeps {b : Dev} {x0 : Dev} {x1 : Nat} {x2 : Nat} {x3 : Int} {x4 : Nat} {x5 : Bool} (hx0 : Keeps b x0) : Keeps b (Dev.begin x0 x1 x2 x3 x4 x5) := by
  unfold Dev.begin
  repeat' first
   | with_reducible assumption
   | with_reducible apply onAxis_keeps

theorem axisHome_keeps {b : Dev} {x0 : Dev} {x1 : Nat} {x2 : Nat} {x3 : Bool} (hx0 : Keeps b x0) : Keeps b (Dev.axisHome x0 x1 x2 x3) := by
  unfold Dev.axisHome
  repeat' first
   | with_reducible assumption
   | (extract_lets +onlyGivenNames x; guard_hyp x : Dev := _; refine (fun (hx : Keeps b x) => ?_) ?_; rotate_left; unfold x; clear x; rotate_right; clear_value x)
   | extract_lets +onlyGivenNames x
   | with_reducible apply begin_keeps
   | with_reducible apply count_keeps
   | with_reducible apply countIgnored_keeps
   | with_reducible apply onAxis_keeps
   | with_reducible refine keeps_ite (fun _ => ?_) (fun _ => ?_)

theorem axisMove_keeps {b : Dev} {x0 : Dev} {x1 : Nat} {x2 : Int} {x3 : Nat} {x4 : Bool} (hx0 : Keeps b x0) : Keeps b (Dev.axisMove x0 x1 x2 x3 x4) := by
  unfold Dev.axisMove
  repeat' first
   | with_reducible assumption
   | (extract_lets +onlyGivenNames x; guard_hyp x : Dev := _; refine (fun (hx : Keeps b x) => ?_) ?_; rotate_left; unfold x; clear x; rotate_right; clear_value x)
   | extract_lets +onlyGivenNames x
   | with_reducible apply axisHome_keeps
   | with_reducible apply begin_keeps
   | with_reducible apply count_keeps
   | with_reducible apply countIgnored_keeps
   | with_reducible apply onAxis_keeps
   | with_reducible refine keeps_ite (fun _ => ?_) (fun _ => ?_)

theorem axisStop_keeps {b : Dev} {x0 : Dev} {x1 : Nat} (hx0 : Keeps b x0) : Keeps b (Dev.axisStop x0 x1) := by
  unfold Dev.axisStop
  repeat' first
   | with_reducible assumption
   | extract_lets +onlyGivenNames x
   | with_reducible apply onAxis_keeps
   | with_reducible refine keeps_ite (fun _ => ?_) (fun _ => ?_)

theorem axisKill_keeps {b : Dev} {x0 : Dev} {x1 : Nat} (hx0 : Keeps b x0) : Keeps b (Dev.axisKill x0 x1) := by
  unfold Dev.axisKill
  repeat' first
   | with_reducible assumption
   | extract_lets +onlyGivenNames x
   | with_reducible apply onAxis_keeps
   | with_reducible apply wr_keeps

theorem stepInterval_keeps {b : Dev} {x0 : Dev} {x1 : Nat} (hx0 : Keeps b x0) : Keeps b (Dev.stepInterval x0 x1) := by
  unfold Dev.stepInterval
  repeat' first
   | with_reducible assumption
   | (extract_lets +onlyGivenNames x; clear_value x)
   | extract_lets +onlyGivenNames x
   | with_reducible apply onAxis_keeps
   | with_reducible refine keeps_ite (fun _ => ?_) (fun _ => ?_)
   | split

theorem axisTick_keeps {b : Dev} {x0 : Dev} {x1 : Nat} (hx0 : Keeps b x0) : Keeps b (Dev.axisTick x0 x1) := by
  unfold Dev.axisTick
  repeat' first
   | with_reducible assumption
   | (extract_lets +onlyGivenNames x; guard_hyp x : Dev := _; refine (fun (hx : Keeps b x) => ?_) ?_; rotate_left; unfold x; clear x; rotate_right; clear_value x)
   | (extract_lets +onlyGivenNames x; clear_value x)
   | extract_lets +onlyGivenNames x
   | with_reducible apply axisStop_keeps
   | with_reducible apply onAxis_keeps
   | with_reducible apply stepInterval_keeps
   | with_reducible refine keeps_ite (fun _ => ?_) (fun _ => ?_)

theorem stepOverrun_keeps {b : Dev} {x0 : Dev} {x1 : Nat} (hx0 : Keeps b x0) : Keeps b (Dev.stepOverrun x0 x1) := by
  unfold Dev.stepOverrun
  repeat' first
   | with_reducible assumption
   | (extract_lets +onlyGivenNames x; guard_hyp x : Dev := _; refine (fun (hx : Keeps b x) => ?_) ?_; rotate_left; unfold x; clear x; rotate_right; clear_value x)
   | extract_lets +onlyGivenNames x
   | with_reducible apply count_keeps
   | with_reducible apply onAxis_keeps
   | with_reducible apply raise_keeps
   | with_reducible refine keeps_ite (fun _ => ?_) (fun _ => ?_)

theorem moveEnds_keeps {b : Dev} {x0 : Dev} {x1 : Nat} (hx0 : Keeps b x0) : Keeps b (Dev.moveEnds x0 x1) := by
  unfold Dev.moveEnds
  repeat' first
   | with_reducible assumption
   | with_reducible apply onAxis_keeps

theorem ldrFails_keeps {b : Dev} {x0 : Dev} (hx0 : Keeps b x0) : Keeps b (Dev.ldrFails x0) := by
  unfold Dev.ldrFails
  repeat' first
   | with_reducible assumption
   | (extract_lets +onlyGivenNames x; guard_hyp x : Dev := _; refine (fun (hx : Keeps b x) => ?_) ?_; rotate_left; unfold x; clear x; rotate_right; clear_value x)
   | extract_lets +onlyGivenNames x
   | with_reducible apply axisStop_keeps
   | with_reducible apply fence_keeps
   | with_reducible apply raise_keeps
   | with_reducible refine keeps_foldl ?_ (fun d x h => ?_)

theorem ldrFault_keeps {b : Dev} {x0 : Dev} {x1 : Nat} (hx0 : Keeps b x0) : Keeps b (Dev.ldrFault x0 x1) := by
  unfold Dev.ldrFault
  repeat' first
   | with_reducible assumption
   | extract_lets +onlyGivenNames x
   | with_reducible apply ldrFails_keeps
   | with_reducible refine keeps_ite (fun _ => ?_) (fun _ => ?_)

theorem axisStuck_keeps {b : Dev} {x0 : Dev} {x1 : Nat} (hx0 : Keeps b x0) : Keeps b (Dev.axisStuck x0 x1) := by
  unfold Dev.axisStuck
  repeat' first
   | with_reducible assumption
   | (extract_lets +onlyGivenNames x; guard_hyp x : Dev := _; refine (fun (hx : Keeps b x) => ?_) ?_; rotate_left; unfold x; clear x; rotate_right; clear_value x)
   | (extract_lets +onlyGivenNames x; clear_value x)
   | extract_lets +onlyGivenNames x
   | with_reducible apply axisStop_keeps
   | with_reducible apply count_keeps
   | with_reducible apply ldrFault_keeps
   | with_reducible apply onAxis_keeps
   | with_reducible apply raise_keeps
   | with_reducible apply wr_keeps

theorem homeFails_keeps {b : Dev} {x0 : Dev} {x1 : Nat} (hx0 : Keeps b x0) : Keeps b (Dev.homeFails x0 x1) := by
  unfold Dev.homeFails
  repeat' first
   | with_reducible assumption
   | (extract_lets +onlyGivenNames x; guard_hyp x : Dev := _; refine (fun (hx : Keeps b x) => ?_) ?_; rotate_left; unfold x; clear x; rotate_right; clear_value x)
   | extract_lets +onlyGivenNames x
   | with_reducible apply ldrFault_keeps
   | with_reducible apply onAxis_keeps
   | with_reducible apply raise_keeps

theorem limitStops_keeps {b : Dev} {x0 : Dev} {x1 : Nat} (hx0 : Keeps b x0) : Keeps b (Dev.limitStops x0 x1) := by
  unfold Dev.limitStops
  repeat' first
   | with_reducible assumption
   | (extract_lets +onlyGivenNames x; guard_hyp x : Dev := _; refine (fun (hx : Keeps b x) => ?_) ?_; rotate_left; unfold x; clear x; rotate_right; clear_value x)
   | (extract_lets +onlyGivenNames x; clear_value x)
   | extract_lets +onlyGivenNames x
   | with_reducible apply count_keeps
   | with_reducible apply homeFails_keeps
   | with_reducible apply ldrFault_keeps
   | with_reducible apply onAxis_keeps
   | with_reducible apply raise_keeps
   | with_reducible refine keeps_ite (fun _ => ?_) (fun _ => ?_)

theorem stepExpires_keeps {b : Dev} {x0 : Dev} {x1 : Nat} (hx0 : Keeps b x0) : Keeps b (Dev.stepExpires x0 x1) := by
  unfold Dev.stepExpires
  repeat' first
   | with_reducible assumption
   | (extract_lets +onlyGivenNames x; guard_hyp x : Dev := _; refine (fun (hx : Keeps b x) => ?_) ?_; rotate_left; unfold x; clear x; rotate_right; clear_value x)
   | (extract_lets +onlyGivenNames x; clear_value x)
   | extract_lets +onlyGivenNames x
   | with_reducible apply axisStuck_keeps
   | with_reducible apply count_keeps
   | with_reducible apply limitStops_keeps
   | with_reducible apply moveEnds_keeps
   | with_reducible apply onAxis_keeps
   | with_reducible apply setPos_keeps
   | with_reducible apply wr_keeps
   | with_reducible refine keeps_ite (fun _ => ?_) (fun _ => ?_)

theorem homeInput_keeps {b : Dev} {x0 : Dev} {x1 : Nat} {x2 : Bool} (hx0 : Keeps b x0) : Keeps b (Dev.homeInput x0 x1 x2) := by
  unfold Dev.homeInput
  repeat' first
   | with_reducible assumption
   | with_reducible refine fun (d : Dev) (h : Keeps b d) => ?_
   | (extract_lets +onlyGivenNames x; guard_hyp x : Dev := _; refine (fun (hx : Keeps b x) => ?_) ?_; rotate_left; unfold x; clear x; rotate_right; clear_value x)
   | (extract_lets +onlyGivenNames x; clear_value x)
   | extract_lets +onlyGivenNames x
   | with_reducible apply onAxis_keeps
   | with_reducible apply onMot_keeps
   | with_reducible apply showInputs_keeps
   | with_reducible apply when_keeps
   | with_reducible apply wr_keeps
   | with_reducible refine keeps_ite (fun _ => ?_) (fun _ => ?_)

theorem limitInput_keeps {b : Dev} {x0 : Dev} {x1 : Nat} {x2 : Nat} {x3 : Bool} (hx0 : Keeps b x0) : Keeps b (Dev.limitInput x0 x1 x2 x3) := by
  unfold Dev.limitInput
  repeat' first
   | with_reducible assumption
   | with_reducible refine fun (d : Dev) (h : Keeps b d) => ?_
   | (extract_lets +onlyGivenNames x; guard_hyp x : Dev := _; refine (fun (hx : Keeps b x) => ?_) ?_; rotate_left; unfold x; clear x; rotate_right; clear_value x)
   | (extract_lets +onlyGivenNames x; clear_value x)
   | extract_lets +onlyGivenNames x
   | with_reducible apply limitStops_keeps
   | with_reducible apply onAxis_keeps
   | with_reducible apply onMot_keeps
   | with_reducible apply showInputs_keeps
   | with_reducible apply when_keeps
   | with_reducible apply wr_keeps
   | with_reducible refine keeps_ite (fun _ => ?_) (fun _ => ?_)

theorem holdCurrent_keeps {b : Dev} {x0 : Dev} {x1 : Nat} (hx0 : Keeps b x0) : Keeps b (Dev.holdCurrent x0 x1) := by
  unfold Dev.holdCurrent
  repeat' first
   | with_reducible assumption
   | extract_lets +onlyGivenNames x
   | with_reducible apply onAxis_keeps
   | with_reducible refine keeps_ite (fun _ => ?_) (fun _ => ?_)

theorem chop_keeps {b : Dev} {x0 : Dev} {x1 : Nat} {x2 : Nat} {x3 : Nat} {x4 : Nat} {x5 : Nat} {x6 : Nat} {x7 : Nat} (hx0 : Keeps b x0) : Keeps b (Dev.chop x0 x1 x2 x3 x4 x5 x6 x7) := by
  unfold Dev.chop
  repeat' first
   | with_reducible assumption
   | (extract_lets +onlyGivenNames x; guard_hyp x : Dev := _; refine (fun (hx : Keeps b x) => ?_) ?_; rotate_left; unfold x; clear x; rotate_right; clear_value x)
   | (extract_lets +onlyGivenNames x; clear_value x)
   | extract_lets +onlyGivenNames x
   | with_reducible apply count_keeps
   | with_reducible apply onAxis_keeps
   | with_reducible apply raise_keeps
   | with_reducible apply wr_keeps
   | with_reducible refine keeps_ite (fun _ => ?_) (fun _ => ?_)

end Sys2Proof.Machine
end

