-- ==== Sys2Proof/Laws/Keeps/Servo.lean ====
section
/-! SUPPORT. What every operation of Machine/Servo.lean keeps. -/
namespace Sys2Proof.Machine
open Sys2Proof

set_option linter.unusedTactic false
set_option linter.unreachableTactic false
set_option linter.tactic.unusedName false

theorem regionTick_keeps {b : Dev} {x0 : Dev} {x1 : Nat} (hx0 : Keeps b x0) : Keeps b (Dev.regionTick x0 x1) := by
  unfold Dev.regionTick
  repeat' first
   | with_reducible assumption
   | (generalize hp : Dev.freeStamp _ = p; refine (fun (hk : KeepsP b p) => ?_) (keepsP_gen hp (freeStamp_keeps ?_)); rotate_left; clear hp; clear p; rotate_right; clear hp; obtain ⟨y, z⟩ := p; replace hk : Keeps b z := hk; try dsimp -zeta only)
   | (extract_lets +onlyGivenNames x; guard_hyp x : Dev := _; refine (fun (hx : Keeps b x) => ?_) ?_; rotate_left; unfold x; clear x; rotate_right; clear_value x)
   | (extract_lets +onlyGivenNames x; clear_value x)
   | extract_lets +onlyGivenNames x
   | with_reducible apply count_keeps
   | with_reducible apply eqReset_keeps
   | with_reducible apply onEng_keeps
   | with_reducible apply onImgs_keeps
   | with_reducible apply onSeq_keeps
   | with_reducible apply onSrvDrive_keeps
   | with_reducible apply sendCfg_keeps
   | with_reducible apply showServo_keeps
   | with_reducible apply tablesDue_keeps
   | with_reducible refine keeps_foldl ?_ (fun d x h => ?_)
   | with_reducible refine keeps_ite (fun _ => ?_) (fun _ => ?_)

theorem csErrors_keeps {b : Dev} {x0 : Dev} {x1 : Nat} {x2 : Nat} (hx0 : Keeps b x0) : KeepsP b (Dev.csErrors x0 x1 x2) := by
  unfold Dev.csErrors
  repeat' first
   | with_reducible assumption
   | (extract_lets +onlyGivenNames x; guard_hyp x : Dev := _; refine (fun (hx : Keeps b x) => ?_) ?_; rotate_left; unfold x; clear x; rotate_right; clear_value x)
   | (extract_lets +onlyGivenNames x; guard_hyp x : _ → _ := _; refine (fun (hl0 : ∀ (d0 : Dev), Keeps b d0 → Keeps b (x d0)) => ?_) ?_; rotate_left; unfold x; clear x; intro d0 hd0; beta_reduce; rotate_right; clear_value x)
   | (extract_lets +onlyGivenNames x; clear_value x)
   | extract_lets +onlyGivenNames x
   | with_reducible apply count_keeps
   | with_reducible apply csSet_keeps
   | with_reducible apply onSrv_keeps
   | with_reducible apply raise_keeps
   | with_reducible apply takeInjected_keeps
   | with_reducible refine hl0 _ ?_
   | with_reducible refine keepsP_foldl ?_ (fun d x h => ?_)
   | with_reducible refine keeps_ite (fun _ => ?_) (fun _ => ?_)
   | with_reducible refine keepsP_ite (fun _ => ?_) (fun _ => ?_)
   | with_reducible refine keepsP_mk ?_
   | with_reducible exact keeps_snd ‹KeepsP b _›

theorem engTick_keeps {b : Dev} {x0 : Dev} {x1 : Nat} {x2 : Nat} (hx0 : Keeps b x0) : Keeps b (Dev.engTick x0 x1 x2) := by
  unfold Dev.engTick
  repeat' first
   | with_reducible assumption
   | (generalize hp : Dev.csErrors _ _ _ = p; refine (fun (hk : KeepsP b p) => ?_) (keepsP_gen hp (csErrors_keeps ?_)); rotate_left; clear hp; clear p; rotate_right; clear hp; obtain ⟨y, z⟩ := p; replace hk : Keeps b z := hk; try dsimp -zeta only)
   | (extract_lets +onlyGivenNames x; guard_hyp x : Dev := _; refine (fun (hx : Keeps b x) => ?_) ?_; rotate_left; unfold x; clear x; rotate_right; clear_value x)
   | (extract_lets +onlyGivenNames x; clear_value x)
   | extract_lets +onlyGivenNames x
   | with_reducible apply onEng_keeps
   | with_reducible apply onSrvDrive_keeps
   | with_reducible apply wr_keeps

theorem showDigest_keeps {b : Dev} {x0 : Dev} {x1 : Nat} (hx0 : Keeps b x0) : Keeps b (Dev.showDigest x0 x1) := by
  unfold Dev.showDigest
  repeat' first
   | with_reducible assumption
   | with_reducible apply wr_keeps

theorem clearPlace_keeps {b : Dev} {x0 : Dev} {x1 : Nat} (hx0 : Keeps b x0) : Keeps b (Dev.clearPlace x0 x1) := by
  unfold Dev.clearPlace
  repeat' first
   | with_reducible assumption
   | (extract_lets +onlyGivenNames x; guard_hyp x : Dev := _; refine (fun (hx : Keeps b x) => ?_) ?_; rotate_left; unfold x; clear x; rotate_right; clear_value x)
   | extract_lets +onlyGivenNames x
   | with_reducible apply onDrive_keeps
   | with_reducible apply onSrvDrive_keeps
   | with_reducible apply wr_keeps

theorem acquire_keeps {b : Dev} {x0 : Dev} {x1 : Nat} {x2 : Nat} (hx0 : Keeps b x0) : Keeps b (Dev.acquire x0 x1 x2) := by
  unfold Dev.acquire
  repeat' first
   | with_reducible assumption
   | (extract_lets +onlyGivenNames x; guard_hyp x : Dev := _; refine (fun (hx : Keeps b x) => ?_) ?_; rotate_left; unfold x; clear x; rotate_right; clear_value x)
   | extract_lets +onlyGivenNames x
   | with_reducible apply clearPlace_keeps
   | with_reducible apply count_keeps
   | with_reducible apply loopOpen_keeps
   | with_reducible apply onSeq_keeps
   | with_reducible refine keeps_ite (fun _ => ?_) (fun _ => ?_)

theorem servoStart_keeps {b : Dev} {x0 : Dev} {x1 : Nat} (hx0 : Keeps b x0) : Keeps b (Dev.servoStart x0 x1) := by
  unfold Dev.servoStart
  repeat' first
   | with_reducible assumption
   | extract_lets +onlyGivenNames x
   | with_reducible apply acquire_keeps
   | with_reducible refine keeps_ite (fun _ => ?_) (fun _ => ?_)

theorem farSeek_keeps {b : Dev} {x0 : Dev} {x1 : Nat} {x2 : Int} (hx0 : Keeps b x0) : Keeps b (Dev.farSeek x0 x1 x2) := by
  unfold Dev.farSeek
  repeat' first
   | with_reducible assumption
   | extract_lets +onlyGivenNames x
   | with_reducible apply onSeq_keeps
   | with_reducible refine keeps_ite (fun _ => ?_) (fun _ => ?_)

theorem approach_keeps {b : Dev} {x0 : Dev} {x1 : Nat} (hx0 : Keeps b x0) : Keeps b (Dev.approach x0 x1) := by
  unfold Dev.approach
  repeat' first
   | with_reducible assumption
   | (extract_lets +onlyGivenNames x; guard_hyp x : Dev := _; refine (fun (hx : Keeps b x) => ?_) ?_; rotate_left; unfold x; clear x; rotate_right; clear_value x)
   | (extract_lets +onlyGivenNames x; clear_value x)
   | extract_lets +onlyGivenNames x
   | with_reducible apply axisMove_keeps
   | with_reducible apply count_keeps
   | with_reducible apply farSeek_keeps
   | with_reducible apply finesHold_keeps
   | with_reducible apply loopClose_keeps
   | with_reducible apply loopHold_keeps
   | with_reducible apply onSeq_keeps
   | with_reducible apply wr_keeps
   | with_reducible refine keeps_ite (fun _ => ?_) (fun _ => ?_)
   | split

theorem seekMoved_keeps {b : Dev} {x0 : Dev} {x1 : Nat} (hx0 : Keeps b x0) : Keeps b (Dev.seekMoved x0 x1) := by
  unfold Dev.seekMoved
  repeat' first
   | with_reducible assumption
   | extract_lets +onlyGivenNames x
   | with_reducible apply approach_keeps
   | with_reducible refine keeps_ite (fun _ => ?_) (fun _ => ?_)

theorem settle_keeps {b : Dev} {x0 : Dev} {x1 : Nat} (hx0 : Keeps b x0) : Keeps b (Dev.settle x0 x1) := by
  unfold Dev.settle
  repeat' first
   | with_reducible assumption
   | (extract_lets +onlyGivenNames x; guard_hyp x : Dev := _; refine (fun (hx : Keeps b x) => ?_) ?_; rotate_left; unfold x; clear x; rotate_right; clear_value x)
   | (extract_lets +onlyGivenNames x; clear_value x)
   | extract_lets +onlyGivenNames x
   | with_reducible apply finesClose_keeps
   | with_reducible apply loopClose_keeps
   | with_reducible apply onSeq_keeps
   | with_reducible refine keeps_ite (fun _ => ?_) (fun _ => ?_)

theorem jumpKick_keeps {b : Dev} {x0 : Dev} {x1 : Nat} {x2 : Nat} {x3 : Nat} (hx0 : Keeps b x0) : Keeps b (Dev.jumpKick x0 x1 x2 x3) := by
  unfold Dev.jumpKick
  repeat' first
   | with_reducible assumption
   | (extract_lets +onlyGivenNames x; guard_hyp x : Dev := _; refine (fun (hx : Keeps b x) => ?_) ?_; rotate_left; unfold x; clear x; rotate_right; clear_value x)
   | (extract_lets +onlyGivenNames x; clear_value x)
   | extract_lets +onlyGivenNames x
   | with_reducible apply clearPlace_keeps
   | with_reducible apply count_keeps
   | with_reducible apply loopOpen_keeps
   | with_reducible apply onSeq_keeps

theorem jumpTo_keeps {b : Dev} {x0 : Dev} {x1 : Nat} {x2 : Nat} {x3 : Nat} (hx0 : Keeps b x0) : Keeps b (Dev.jumpTo x0 x1 x2 x3) := by
  unfold Dev.jumpTo
  repeat' first
   | with_reducible assumption
   | (extract_lets +onlyGivenNames x; guard_hyp x : Dev := _; refine (fun (hx : Keeps b x) => ?_) ?_; rotate_left; unfold x; clear x; rotate_right; clear_value x)
   | extract_lets +onlyGivenNames x
   | with_reducible apply jumpKick_keeps
   | with_reducible apply loopHold_keeps
   | with_reducible refine keeps_foldl ?_ (fun d x h => ?_)

theorem focusOn_keeps {b : Dev} {x0 : Dev} {x1 : Nat} {x2 : Nat} (hx0 : Keeps b x0) : Keeps b (Dev.focusOn x0 x1 x2) := by
  unfold Dev.focusOn
  repeat' first
   | with_reducible assumption
   | (extract_lets +onlyGivenNames x; guard_hyp x : Dev := _; refine (fun (hx : Keeps b x) => ?_) ?_; rotate_left; unfold x; clear x; rotate_right; clear_value x)
   | extract_lets +onlyGivenNames x
   | with_reducible apply loopClose_keeps
   | with_reducible apply onSeq_keeps
   | with_reducible apply showServo_keeps
   | with_reducible apply tablesDue_keeps
   | with_reducible refine keeps_ite (fun _ => ?_) (fun _ => ?_)

theorem seqTick_keeps {b : Dev} {x0 : Dev} {x1 : Nat} (hx0 : Keeps b x0) : Keeps b (Dev.seqTick x0 x1) := by
  unfold Dev.seqTick
  repeat' first
   | with_reducible assumption
   | (extract_lets +onlyGivenNames x; guard_hyp x : Dev := _; refine (fun (hx : Keeps b x) => ?_) ?_; rotate_left; unfold x; clear x; rotate_right; clear_value x)
   | (extract_lets +onlyGivenNames x; clear_value x)
   | extract_lets +onlyGivenNames x
   | with_reducible apply approach_keeps
   | with_reducible apply focusOn_keeps
   | with_reducible apply jumpKick_keeps
   | with_reducible apply jumpTo_keeps
   | with_reducible apply loopClose_keeps
   | with_reducible apply loopHold_keeps
   | with_reducible apply loopOpen_keeps
   | with_reducible apply onSeq_keeps
   | with_reducible refine keeps_foldl ?_ (fun d x h => ?_)
   | with_reducible refine keeps_ite (fun _ => ?_) (fun _ => ?_)
   | split

theorem loopMiss_keeps {b : Dev} {x0 : Dev} {x1 : Nat} {x2 : Nat} (hx0 : Keeps b x0) : Keeps b (Dev.loopMiss x0 x1 x2) := by
  unfold Dev.loopMiss
  repeat' first
   | with_reducible assumption
   | (extract_lets +onlyGivenNames x; guard_hyp x : Dev := _; refine (fun (hx : Keeps b x) => ?_) ?_; rotate_left; unfold x; clear x; rotate_right; clear_value x)
   | (extract_lets +onlyGivenNames x; clear_value x)
   | extract_lets +onlyGivenNames x
   | with_reducible apply count_keeps
   | with_reducible apply onSrvDrive_keeps
   | with_reducible apply raise_keeps
   | with_reducible apply wr_keeps
   | with_reducible refine keeps_ite (fun _ => ?_) (fun _ => ?_)

theorem release_keeps {b : Dev} {x0 : Dev} {x1 : Nat} (hx0 : Keeps b x0) : Keeps b (Dev.release x0 x1) := by
  unfold Dev.release
  repeat' first
   | with_reducible assumption
   | with_reducible refine fun (d : Dev) (h : Keeps b d) => ?_
   | (extract_lets +onlyGivenNames x; guard_hyp x : Dev := _; refine (fun (hx : Keeps b x) => ?_) ?_; rotate_left; unfold x; clear x; rotate_right; clear_value x)
   | (extract_lets +onlyGivenNames x; clear_value x)
   | extract_lets +onlyGivenNames x
   | with_reducible apply count_keeps
   | with_reducible apply loopMiss_keeps
   | with_reducible apply onSrvDrive_keeps
   | with_reducible apply toHead_keeps
   | with_reducible apply when_keeps
   | with_reducible apply wr_keeps
   | with_reducible refine keeps_foldl ?_ (fun d x h => ?_)
   | split

theorem imageCommit_keeps {b : Dev} {x0 : Dev} {x1 : Nat} (hx0 : Keeps b x0) : Keeps b (Dev.imageCommit x0 x1) := by
  unfold Dev.imageCommit
  repeat' first
   | with_reducible assumption
   | with_reducible apply onSrvDrive_keeps
   | split

theorem servoLatch_keeps {b : Dev} {x0 : Dev} {x1 : Nat} (hx0 : Keeps b x0) : Keeps b (Dev.servoLatch x0 x1) := by
  unfold Dev.servoLatch
  repeat' first
   | with_reducible assumption
   | (extract_lets +onlyGivenNames x; guard_hyp x : Dev := _; refine (fun (hx : Keeps b x) => ?_) ?_; rotate_left; unfold x; clear x; rotate_right; clear_value x)
   | (extract_lets +onlyGivenNames x; clear_value x)
   | extract_lets +onlyGivenNames x
   | with_reducible apply count_keeps
   | with_reducible apply guardSet_keeps
   | with_reducible apply onDrive_keeps
   | with_reducible apply onSeq_keeps
   | with_reducible refine keeps_foldl ?_ (fun d x h => ?_)
   | with_reducible refine keeps_ite (fun _ => ?_) (fun _ => ?_)

theorem showLoops_keeps {b : Dev} {x0 : Dev} {x1 : Nat} (hx0 : Keeps b x0) : Keeps b (Dev.showLoops x0 x1) := by
  unfold Dev.showLoops
  repeat' first
   | with_reducible assumption
   | (extract_lets +onlyGivenNames x; guard_hyp x : Dev := _; refine (fun (hx : Keeps b x) => ?_) ?_; rotate_left; unfold x; clear x; rotate_right; clear_value x)
   | (extract_lets +onlyGivenNames x; clear_value x)
   | extract_lets +onlyGivenNames x
   | with_reducible apply count_keeps
   | with_reducible apply raise_keeps
   | with_reducible apply wr_keeps
   | with_reducible refine keeps_foldl ?_ (fun d x h => ?_)
   | with_reducible refine keeps_ite (fun _ => ?_) (fun _ => ?_)

theorem servoTick_keeps {b : Dev} {x0 : Dev} {x1 : Nat} (hx0 : Keeps b x0) : Keeps b (Dev.servoTick x0 x1) := by
  unfold Dev.servoTick
  repeat' first
   | with_reducible assumption
   | (extract_lets +onlyGivenNames x; guard_hyp x : Dev := _; refine (fun (hx : Keeps b x) => ?_) ?_; rotate_left; unfold x; clear x; rotate_right; clear_value x)
   | extract_lets +onlyGivenNames x
   | with_reducible apply engTick_keeps
   | with_reducible apply imageCommit_keeps
   | with_reducible apply regionTick_keeps
   | with_reducible apply release_keeps
   | with_reducible apply seqTick_keeps
   | with_reducible apply servoLatch_keeps
   | with_reducible apply showDigest_keeps
   | with_reducible apply showLoops_keeps
   | with_reducible apply showServo_keeps
   | with_reducible refine keeps_foldl ?_ (fun d x h => ?_)
   | with_reducible refine keeps_ite (fun _ => ?_) (fun _ => ?_)

theorem discFails_keeps {b : Dev} {x0 : Dev} {x1 : Nat} (hx0 : Keeps b x0) : Keeps b (Dev.discFails x0 x1) := by
  unfold Dev.discFails
  repeat' first
   | with_reducible assumption
   | (extract_lets +onlyGivenNames x; clear_value x)
   | extract_lets +onlyGivenNames x
   | with_reducible apply dropWants_keeps
   | with_reducible apply unloadStart_keeps

theorem focusConfirmed_keeps {b : Dev} {x0 : Dev} {x1 : Nat} (hx0 : Keeps b x0) : Keeps b (Dev.focusConfirmed x0 x1) := by
  unfold Dev.focusConfirmed
  repeat' first
   | with_reducible assumption
   | (extract_lets +onlyGivenNames x; guard_hyp x : Dev := _; refine (fun (hx : Keeps b x) => ?_) ?_; rotate_left; unfold x; clear x; rotate_right; clear_value x)
   | (extract_lets +onlyGivenNames x; clear_value x)
   | extract_lets +onlyGivenNames x
   | with_reducible apply approach_keeps
   | with_reducible apply finesClose_keeps
   | with_reducible apply jumpTo_keeps
   | with_reducible apply loopClose_keeps
   | with_reducible apply onSeq_keeps
   | with_reducible refine keeps_ite (fun _ => ?_) (fun _ => ?_)
   | split

theorem focusFails_keeps {b : Dev} {x0 : Dev} {x1 : Nat} (hx0 : Keeps b x0) : Keeps b (Dev.focusFails x0 x1) := by
  unfold Dev.focusFails
  repeat' first
   | with_reducible assumption
   | extract_lets +onlyGivenNames x
   | with_reducible apply discFails_keeps
   | with_reducible apply raise_keeps

theorem sweepEnd_keeps {b : Dev} {x0 : Dev} {x1 : Nat} (hx0 : Keeps b x0) : Keeps b (Dev.sweepEnd x0 x1) := by
  unfold Dev.sweepEnd
  repeat' first
   | with_reducible assumption
   | (extract_lets +onlyGivenNames x; guard_hyp x : Dev := _; refine (fun (hx : Keeps b x) => ?_) ?_; rotate_left; unfold x; clear x; rotate_right; clear_value x)
   | (extract_lets +onlyGivenNames x; clear_value x)
   | extract_lets +onlyGivenNames x
   | with_reducible apply acquire_keeps
   | with_reducible apply focusFails_keeps
   | with_reducible apply loopOpen_keeps
   | with_reducible apply onSeq_keeps
   | with_reducible refine keeps_ite (fun _ => ?_) (fun _ => ?_)

theorem focusLost_keeps {b : Dev} {x0 : Dev} {x1 : Nat} (hx0 : Keeps b x0) : Keeps b (Dev.focusLost x0 x1) := by
  unfold Dev.focusLost
  repeat' first
   | with_reducible assumption
   | (extract_lets +onlyGivenNames x; guard_hyp x : Dev := _; refine (fun (hx : Keeps b x) => ?_) ?_; rotate_left; unfold x; clear x; rotate_right; clear_value x)
   | (extract_lets +onlyGivenNames x; clear_value x)
   | extract_lets +onlyGivenNames x
   | with_reducible apply count_keeps
   | with_reducible apply focusFails_keeps
   | with_reducible apply onSeq_keeps
   | with_reducible apply raise_keeps
   | with_reducible apply retract_keeps
   | with_reducible apply retractPark_keeps
   | with_reducible refine keeps_ite (fun _ => ?_) (fun _ => ?_)

theorem jumpKickEnd_keeps {b : Dev} {x0 : Dev} {x1 : Nat} (hx0 : Keeps b x0) : Keeps b (Dev.jumpKickEnd x0 x1) := by
  unfold Dev.jumpKickEnd
  repeat' first
   | with_reducible assumption
   | (extract_lets +onlyGivenNames x; clear_value x)
   | extract_lets +onlyGivenNames x
   | with_reducible apply loopOpen_keeps
   | with_reducible apply onSeq_keeps
   | with_reducible refine keeps_ite (fun _ => ?_) (fun _ => ?_)

theorem jumpBrakeEnd_keeps {b : Dev} {x0 : Dev} {x1 : Nat} (hx0 : Keeps b x0) : Keeps b (Dev.jumpBrakeEnd x0 x1) := by
  unfold Dev.jumpBrakeEnd
  repeat' first
   | with_reducible assumption
   | (extract_lets +onlyGivenNames x; guard_hyp x : Dev := _; refine (fun (hx : Keeps b x) => ?_) ?_; rotate_left; unfold x; clear x; rotate_right; clear_value x)
   | (extract_lets +onlyGivenNames x; clear_value x)
   | extract_lets +onlyGivenNames x
   | with_reducible apply focusOn_keeps
   | with_reducible apply onSeq_keeps
   | with_reducible refine keeps_ite (fun _ => ?_) (fun _ => ?_)

theorem jumpFail_keeps {b : Dev} {x0 : Dev} {x1 : Nat} (hx0 : Keeps b x0) : Keeps b (Dev.jumpFail x0 x1) := by
  unfold Dev.jumpFail
  repeat' first
   | with_reducible assumption
   | (extract_lets +onlyGivenNames x; clear_value x)
   | extract_lets +onlyGivenNames x
   | with_reducible apply count_keeps
   | with_reducible apply raise_keeps
   | with_reducible apply retract_keeps
   | with_reducible refine keeps_ite (fun _ => ?_) (fun _ => ?_)

theorem trajectoryEnd_keeps {b : Dev} {x0 : Dev} {x1 : Nat} (hx0 : Keeps b x0) : Keeps b (Dev.trajectoryEnd x0 x1) := by
  unfold Dev.trajectoryEnd
  repeat' first
   | with_reducible assumption
   | (extract_lets +onlyGivenNames x; clear_value x)
   | extract_lets +onlyGivenNames x
   | with_reducible apply settle_keeps
   | with_reducible refine keeps_ite (fun _ => ?_) (fun _ => ?_)

theorem settleComplete_keeps {b : Dev} {x0 : Dev} {x1 : Nat} (hx0 : Keeps b x0) : Keeps b (Dev.settleComplete x0 x1) := by
  unfold Dev.settleComplete
  repeat' first
   | with_reducible assumption
   | (extract_lets +onlyGivenNames x; clear_value x)
   | extract_lets +onlyGivenNames x
   | with_reducible apply onSeq_keeps
   | with_reducible refine keeps_ite (fun _ => ?_) (fun _ => ?_)

theorem approachFails_keeps {b : Dev} {x0 : Dev} {x1 : Nat} (hx0 : Keeps b x0) : Keeps b (Dev.approachFails x0 x1) := by
  unfold Dev.approachFails
  repeat' first
   | with_reducible assumption
   | (extract_lets +onlyGivenNames x; guard_hyp x : Dev := _; refine (fun (hx : Keeps b x) => ?_) ?_; rotate_left; unfold x; clear x; rotate_right; clear_value x)
   | (extract_lets +onlyGivenNames x; clear_value x)
   | extract_lets +onlyGivenNames x
   | with_reducible apply dropWants_keeps
   | with_reducible apply onSeq_keeps
   | with_reducible apply raise_keeps
   | with_reducible apply retract_keeps
   | with_reducible refine keeps_ite (fun _ => ?_) (fun _ => ?_)

theorem seekFail_keeps {b : Dev} {x0 : Dev} {x1 : Nat} (hx0 : Keeps b x0) : Keeps b (Dev.seekFail x0 x1) := by
  unfold Dev.seekFail
  repeat' first
   | with_reducible assumption
   | (extract_lets +onlyGivenNames x; clear_value x)
   | extract_lets +onlyGivenNames x
   | with_reducible apply approach_keeps
   | with_reducible apply approachFails_keeps
   | with_reducible apply onSeq_keeps
   | with_reducible refine keeps_ite (fun _ => ?_) (fun _ => ?_)

theorem retractComplete_keeps {b : Dev} {x0 : Dev} {x1 : Nat} (hx0 : Keeps b x0) : Keeps b (Dev.retractComplete x0 x1) := by
  unfold Dev.retractComplete
  repeat' first
   | with_reducible assumption
   | (generalize hp : Dev.freeStamp _ = p; refine (fun (hk : KeepsP b p) => ?_) (keepsP_gen hp (freeStamp_keeps ?_)); rotate_left; clear hp; clear p; rotate_right; clear hp; obtain ⟨y, z⟩ := p; replace hk : Keeps b z := hk; try dsimp -zeta only)
   | (extract_lets +onlyGivenNames x; guard_hyp x : Dev := _; refine (fun (hx : Keeps b x) => ?_) ?_; rotate_left; unfold x; clear x; rotate_right; clear_value x)
   | (extract_lets +onlyGivenNames x; clear_value x)
   | extract_lets +onlyGivenNames x
   | with_reducible apply acquire_keeps
   | with_reducible apply onSeq_keeps
   | with_reducible apply sendCfg_keeps
   | with_reducible refine keeps_ite (fun _ => ?_) (fun _ => ?_)

theorem servoStale_keeps {b : Dev} {x0 : Dev} {x1 : Nat} (hx0 : Keeps b x0) : Keeps b (Dev.servoStale x0 x1) := by
  unfold Dev.servoStale
  repeat' first
   | with_reducible assumption
   | (extract_lets +onlyGivenNames x; clear_value x)
   | extract_lets +onlyGivenNames x
   | with_reducible apply raise_keeps
   | with_reducible apply retract_keeps
   | with_reducible refine keeps_ite (fun _ => ?_) (fun _ => ?_)

theorem csWrite_keeps {b : Dev} {x0 : Dev} {x1 : Nat} {x2 : Nat} (hx0 : Keeps b x0) : Keeps b (Dev.csWrite x0 x1 x2) := by
  unfold Dev.csWrite
  repeat' first
   | with_reducible assumption
   | (extract_lets +onlyGivenNames x; clear_value x)
   | extract_lets +onlyGivenNames x
   | with_reducible apply countIgnored_keeps
   | with_reducible apply csSet_keeps
   | with_reducible refine keeps_foldl ?_ (fun d x h => ?_)
   | with_reducible refine keeps_ite (fun _ => ?_) (fun _ => ?_)

theorem csStep_keeps {b : Dev} {x0 : Dev} {x1 : Nat} (hx0 : Keeps b x0) : Keeps b (Dev.csStep x0 x1) := by
  unfold Dev.csStep
  repeat' first
   | with_reducible assumption
   | (extract_lets +onlyGivenNames x; clear_value x)
   | extract_lets +onlyGivenNames x
   | with_reducible apply wr_keeps
   | with_reducible refine keeps_ite (fun _ => ?_) (fun _ => ?_)

theorem execFocusConfirmed_keeps {x0 : Nat} {x1 : State}  : Steps x1.dev x1 (execFocusConfirmed x0 x1) := by
  unfold execFocusConfirmed
  refine steps_run (fun d h => ?_)
  repeat' first
   | with_reducible assumption
   | extract_lets +onlyGivenNames x
   | with_reducible apply focusConfirmed_keeps

theorem execFocusSweepEnd_keeps {x0 : Nat} {x1 : State}  : Steps x1.dev x1 (execFocusSweepEnd x0 x1) := by
  unfold execFocusSweepEnd
  refine steps_run (fun d h => ?_)
  repeat' first
   | with_reducible assumption
   | extract_lets +onlyGivenNames x
   | with_reducible apply sweepEnd_keeps

theorem execFocusLost_keeps {x0 : Nat} {x1 : State}  : Steps x1.dev x1 (execFocusLost x0 x1) := by
  unfold execFocusLost
  refine steps_run (fun d h => ?_)
  repeat' first
   | with_reducible assumption
   | extract_lets +onlyGivenNames x
   | with_reducible apply focusLost_keeps

theorem execJumpKickEnd_keeps {x0 : Nat} {x1 : State}  : Steps x1.dev x1 (execJumpKickEnd x0 x1) := by
  unfold execJumpKickEnd
  refine steps_run (fun d h => ?_)
  repeat' first
   | with_reducible assumption
   | extract_lets +onlyGivenNames x
   | with_reducible apply jumpKickEnd_keeps

theorem execJumpBrakeEnd_keeps {x0 : Nat} {x1 : State}  : Steps x1.dev x1 (execJumpBrakeEnd x0 x1) := by
  unfold execJumpBrakeEnd
  refine steps_run (fun d h => ?_)
  repeat' first
   | with_reducible assumption
   | extract_lets +onlyGivenNames x
   | with_reducible apply jumpBrakeEnd_keeps

theorem execJumpFail_keeps {x0 : Nat} {x1 : State}  : Steps x1.dev x1 (execJumpFail x0 x1) := by
  unfold execJumpFail
  refine steps_run (fun d h => ?_)
  repeat' first
   | with_reducible assumption
   | extract_lets +onlyGivenNames x
   | with_reducible apply jumpFail_keeps

theorem execSeekTrajectoryEnd_keeps {x0 : Nat} {x1 : State}  : Steps x1.dev x1 (execSeekTrajectoryEnd x0 x1) := by
  unfold execSeekTrajectoryEnd
  refine steps_run (fun d h => ?_)
  repeat' first
   | with_reducible assumption
   | extract_lets +onlyGivenNames x
   | with_reducible apply trajectoryEnd_keeps

theorem execSettleComplete_keeps {x0 : Nat} {x1 : State}  : Steps x1.dev x1 (execSettleComplete x0 x1) := by
  unfold execSettleComplete
  refine steps_run (fun d h => ?_)
  repeat' first
   | with_reducible assumption
   | extract_lets +onlyGivenNames x
   | with_reducible apply settleComplete_keeps

theorem execSeekFail_keeps {x0 : Nat} {x1 : State}  : Steps x1.dev x1 (execSeekFail x0 x1) := by
  unfold execSeekFail
  refine steps_run (fun d h => ?_)
  repeat' first
   | with_reducible assumption
   | extract_lets +onlyGivenNames x
   | with_reducible apply seekFail_keeps

theorem execRetractComplete_keeps {x0 : Nat} {x1 : State}  : Steps x1.dev x1 (execRetractComplete x0 x1) := by
  unfold execRetractComplete
  refine steps_run (fun d h => ?_)
  repeat' first
   | with_reducible assumption
   | extract_lets +onlyGivenNames x
   | with_reducible apply retractComplete_keeps

theorem execServoStale_keeps {x0 : Nat} {x1 : State}  : Steps x1.dev x1 (execServoStale x0 x1) := by
  unfold execServoStale
  refine steps_run (fun d h => ?_)
  repeat' first
   | with_reducible assumption
   | extract_lets +onlyGivenNames x
   | with_reducible apply servoStale_keeps

theorem execSrvCsDataWrite_keeps {x0 : Nat} {x1 : Nat} {x2 : State}  : Steps x2.dev x2 (execSrvCsDataWrite x0 x1 x2) := by
  unfold execSrvCsDataWrite
  refine steps_run (fun d h => ?_)
  repeat' first
   | with_reducible assumption
   | extract_lets +onlyGivenNames x
   | with_reducible apply asWrite_keeps
   | with_reducible apply csStep_keeps
   | with_reducible apply csWrite_keeps
   | intro m

theorem execSrvCsDataRead_keeps {x0 : Nat} {x1 : State}  : Steps x1.dev x1 (execSrvCsDataRead x0 x1) := by
  unfold execSrvCsDataRead
  refine steps_run (fun d h => ?_)
  repeat' first
   | with_reducible assumption
   | extract_lets +onlyGivenNames x
   | with_reducible apply answer_keeps
   | with_reducible apply csStep_keeps

end Sys2Proof.Machine
end

