-- ==== Sys2Proof/Laws/Keeps/Spindle.lean ====
section
/-! SUPPORT. What every operation of Machine/Spindle.lean keeps. -/
namespace Sys2Proof.Machine
open Sys2Proof

set_option linter.unusedTactic false
set_option linter.unreachableTactic false
set_option linter.tactic.unusedName false

theorem onSpin_keeps {b : Dev} {x0 : Dev} {x1 : Nat} {x2 : Spin → Spin} (hx0 : Keeps b x0) : Keeps b (Dev.onSpin x0 x1 x2) := by
  unfold Dev.onSpin
  repeat' first
   | with_reducible assumption
   | (extract_lets +onlyGivenNames x; guard_hyp x : Dev := _; refine (fun (hx : Keeps b x) => ?_) ?_; rotate_left; unfold x; clear x; rotate_right; clear_value x)
   | (extract_lets +onlyGivenNames x; clear_value x)
   | with_reducible apply onMot_keeps
   | with_reducible apply wr_keeps

theorem setSpeed_keeps {b : Dev} {x0 : Dev} {x1 : Nat} {x2 : Int} (hx0 : Keeps b x0) : Keeps b (Dev.setSpeed x0 x1 x2) := by
  unfold Dev.setSpeed
  repeat' first
   | with_reducible assumption
   | with_reducible apply wr_keeps

theorem measure_keeps {b : Dev} {x0 : Dev} {x1 : Nat} {x2 : Nat} (hx0 : Keeps b x0) : Keeps b (Dev.measure x0 x1 x2) := by
  unfold Dev.measure
  repeat' first
   | with_reducible assumption
   | with_reducible apply onSpin_keeps

theorem tellStop_keeps {b : Dev} {x0 : Dev} {x1 : Nat} (hx0 : Keeps b x0) : Keeps b (Dev.tellStop x0 x1) := by
  unfold Dev.tellStop
  repeat' first
   | with_reducible assumption
   | extract_lets +onlyGivenNames x
   | with_reducible apply onSpin_keeps
   | with_reducible apply retractPark_keeps
   | with_reducible refine keeps_ite (fun _ => ?_) (fun _ => ?_)

theorem stopSpin_keeps {b : Dev} {x0 : Dev} {x1 : Nat} (hx0 : Keeps b x0) : Keeps b (Dev.stopSpin x0 x1) := by
  unfold Dev.stopSpin
  repeat' first
   | with_reducible assumption
   | (extract_lets +onlyGivenNames x; guard_hyp x : Dev := _; refine (fun (hx : Keeps b x) => ?_) ?_; rotate_left; unfold x; clear x; rotate_right; clear_value x)
   | (extract_lets +onlyGivenNames x; clear_value x)
   | extract_lets +onlyGivenNames x
   | with_reducible apply count_keeps
   | with_reducible apply holdAbort_keeps
   | with_reducible apply loopOff_keeps
   | with_reducible apply onSpin_keeps
   | with_reducible apply tellStop_keeps
   | with_reducible apply wr_keeps
   | with_reducible refine keeps_ite (fun _ => ?_) (fun _ => ?_)

theorem spinRun_keeps {b : Dev} {x0 : Dev} {x1 : Nat} (hx0 : Keeps b x0) : Keeps b (Dev.spinRun x0 x1) := by
  unfold Dev.spinRun
  repeat' first
   | with_reducible assumption
   | extract_lets +onlyGivenNames x
   | with_reducible apply loopClose_keeps
   | with_reducible apply onSpin_keeps

theorem spinKill_keeps {b : Dev} {x0 : Dev} {x1 : Nat} (hx0 : Keeps b x0) : Keeps b (Dev.spinKill x0 x1) := by
  unfold Dev.spinKill
  repeat' first
   | with_reducible assumption
   | (extract_lets +onlyGivenNames x; guard_hyp x : Dev := _; refine (fun (hx : Keeps b x) => ?_) ?_; rotate_left; unfold x; clear x; rotate_right; clear_value x)
   | extract_lets +onlyGivenNames x
   | with_reducible apply loopOff_keeps
   | with_reducible apply onSpin_keeps
   | with_reducible apply wr_keeps

theorem spinUnfault_keeps {b : Dev} {x0 : Dev} {x1 : Nat} (hx0 : Keeps b x0) : Keeps b (Dev.spinUnfault x0 x1) := by
  unfold Dev.spinUnfault
  repeat' first
   | with_reducible assumption
   | extract_lets +onlyGivenNames x
   | with_reducible apply onSpin_keeps
   | with_reducible refine keeps_ite (fun _ => ?_) (fun _ => ?_)

theorem estimate_keeps {b : Dev} {x0 : Dev} {x1 : Nat} {x2 : SpinSample} (hx0 : Keeps b x0) : KeepsP b (Dev.estimate x0 x1 x2) := by
  unfold Dev.estimate
  repeat' first
   | with_reducible assumption
   | (extract_lets +onlyGivenNames x; guard_hyp x : Dev := _; refine (fun (hx : Keeps b x) => ?_) ?_; rotate_left; unfold x; clear x; rotate_right; clear_value x)
   | (extract_lets +onlyGivenNames x; clear_value x)
   | extract_lets +onlyGivenNames x
   | with_reducible apply count_keeps
   | with_reducible apply onSpin_keeps
   | with_reducible apply raise_keeps
   | with_reducible apply wr_keeps
   | with_reducible refine keeps_ite (fun _ => ?_) (fun _ => ?_)
   | split
   | with_reducible refine keepsP_mk ?_

theorem decide__keeps {b : Dev} {x0 : Dev} {x1 : Nat} {x2 : Int} {x3 : SpinSample} (hx0 : Keeps b x0) : Keeps b (Dev.decide_ x0 x1 x2 x3) := by
  unfold Dev.decide_
  repeat' first
   | with_reducible assumption
   | with_reducible refine fun (d : Dev) (h : Keeps b d) => ?_
   | (generalize hp : Dev.estimate _ _ _ = p; refine (fun (hk : KeepsP b p) => ?_) (keepsP_gen hp (estimate_keeps ?_)); rotate_left; clear hp; clear p; rotate_right; clear hp; obtain ⟨y, z⟩ := p; replace hk : Keeps b z := hk; try dsimp -zeta only)
   | (extract_lets +onlyGivenNames x; guard_hyp x : Dev := _; refine (fun (hx : Keeps b x) => ?_) ?_; rotate_left; unfold x; clear x; rotate_right; clear_value x)
   | (extract_lets +onlyGivenNames x; clear_value x)
   | with_reducible apply onSpin_keeps
   | with_reducible apply raise_keeps
   | with_reducible apply setSpeed_keeps
   | with_reducible apply when_keeps

theorem brakeTick_keeps {b : Dev} {x0 : Dev} {x1 : Nat} {x2 : SpinSample} (hx0 : Keeps b x0) : Keeps b (Dev.brakeTick x0 x1 x2) := by
  unfold Dev.brakeTick
  repeat' first
   | with_reducible assumption
   | (extract_lets +onlyGivenNames x; guard_hyp x : Dev := _; refine (fun (hx : Keeps b x) => ?_) ?_; rotate_left; unfold x; clear x; rotate_right; clear_value x)
   | (extract_lets +onlyGivenNames x; clear_value x)
   | extract_lets +onlyGivenNames x
   | with_reducible apply onSpin_keeps
   | with_reducible apply setSpeed_keeps
   | with_reducible refine keeps_ite (fun _ => ?_) (fun _ => ?_)

theorem spinMoves_keeps {b : Dev} {x0 : Dev} {x1 : Nat} (hx0 : Keeps b x0) : Keeps b (Dev.spinMoves x0 x1) := by
  unfold Dev.spinMoves
  repeat' first
   | with_reducible assumption
   | (extract_lets +onlyGivenNames x; clear_value x)
   | extract_lets +onlyGivenNames x
   | with_reducible apply measure_keeps
   | with_reducible apply onSpin_keeps
   | with_reducible apply spinRun_keeps
   | with_reducible apply wr_keeps
   | with_reducible refine keeps_ite (fun _ => ?_) (fun _ => ?_)
   | split

theorem spinDrive_keeps {b : Dev} {x0 : Dev} {x1 : Nat} {x2 : Spin} {x3 : SpinSample} (hx0 : Keeps b x0) : Keeps b (Dev.spinDrive x0 x1 x2 x3) := by
  unfold Dev.spinDrive
  repeat' first
   | with_reducible assumption
   | extract_lets +onlyGivenNames x
   | with_reducible apply brakeTick_keeps
   | with_reducible apply decide__keeps
   | with_reducible refine keeps_ite (fun _ => ?_) (fun _ => ?_)
   | split

theorem spinTick_keeps {b : Dev} {x0 : Dev} {x1 : Nat} {x2 : SpinSample} (hx0 : Keeps b x0) : Keeps b (Dev.spinTick x0 x1 x2) := by
  unfold Dev.spinTick
  repeat' first
   | with_reducible assumption
   | (extract_lets +onlyGivenNames x; guard_hyp x : Dev := _; refine (fun (hx : Keeps b x) => ?_) ?_; rotate_left; unfold x; clear x; rotate_right; clear_value x)
   | (extract_lets +onlyGivenNames x; clear_value x)
   | extract_lets +onlyGivenNames x
   | with_reducible apply measure_keeps
   | with_reducible apply onSpin_keeps
   | with_reducible apply spinDrive_keeps
   | with_reducible apply spinMoves_keeps
   | with_reducible apply tellStop_keeps
   | with_reducible apply wrB_keeps
   | with_reducible apply wr_keeps
   | with_reducible refine keeps_ite (fun _ => ?_) (fun _ => ?_)

theorem dtcOverrun_keeps {b : Dev} {x0 : Dev} {x1 : Nat} (hx0 : Keeps b x0) : Keeps b (Dev.dtcOverrun x0 x1) := by
  unfold Dev.dtcOverrun
  repeat' first
   | with_reducible assumption
   | (extract_lets +onlyGivenNames x; guard_hyp x : Dev := _; refine (fun (hx : Keeps b x) => ?_) ?_; rotate_left; unfold x; clear x; rotate_right; clear_value x)
   | extract_lets +onlyGivenNames x
   | with_reducible apply count_keeps
   | with_reducible apply onSpin_keeps
   | with_reducible apply raise_keeps

theorem spinUp_keeps {b : Dev} {x0 : Dev} {x1 : Nat} (hx0 : Keeps b x0) : Keeps b (Dev.spinUp x0 x1) := by
  unfold Dev.spinUp
  repeat' first
   | with_reducible assumption
   | (extract_lets +onlyGivenNames x; guard_hyp x : Dev := _; refine (fun (hx : Keeps b x) => ?_) ?_; rotate_left; unfold x; clear x; rotate_right; clear_value x)
   | (extract_lets +onlyGivenNames x; clear_value x)
   | extract_lets +onlyGivenNames x
   | with_reducible apply count_keeps
   | with_reducible apply measure_keeps
   | with_reducible apply onSpin_keeps
   | with_reducible apply wr_keeps
   | with_reducible refine keeps_ite (fun _ => ?_) (fun _ => ?_)

theorem seed_keeps {b : Dev} {x0 : Dev} {x1 : Nat} {x2 : Nat} (hx0 : Keeps b x0) : Keeps b (Dev.seed x0 x1 x2) := by
  unfold Dev.seed
  repeat' first
   | with_reducible assumption
   | with_reducible apply onSpin_keeps

theorem measured_keeps {b : Dev} {x0 : Dev} {x1 : Nat} {x2 : SpinMeas} (hx0 : Keeps b x0) : Keeps b (Dev.measured x0 x1 x2) := by
  unfold Dev.measured
  repeat' first
   | with_reducible assumption
   | (extract_lets +onlyGivenNames x; guard_hyp x : Dev := _; refine (fun (hx : Keeps b x) => ?_) ?_; rotate_left; unfold x; clear x; rotate_right; clear_value x)
   | (extract_lets +onlyGivenNames x; clear_value x)
   | extract_lets +onlyGivenNames x
   | with_reducible apply count_keeps
   | with_reducible apply measure_keeps
   | with_reducible apply onSpin_keeps
   | with_reducible apply raise_keeps
   | with_reducible apply seed_keeps
   | with_reducible apply setSpeed_keeps
   | with_reducible refine keeps_ite (fun _ => ?_) (fun _ => ?_)

theorem startFails_keeps {b : Dev} {x0 : Dev} {x1 : Nat} (hx0 : Keeps b x0) : Keeps b (Dev.startFails x0 x1) := by
  unfold Dev.startFails
  repeat' first
   | with_reducible assumption
   | extract_lets +onlyGivenNames x
   | with_reducible apply discFails_keeps
   | with_reducible apply raise_keeps
   | with_reducible apply stopSpin_keeps

theorem aligned_keeps {b : Dev} {x0 : Dev} {x1 : Nat} {x2 : List Nat} {x3 : Nat} {x4 : Nat} (hx0 : Keeps b x0) : Keeps b (Dev.aligned x0 x1 x2 x3 x4) := by
  unfold Dev.aligned
  repeat' first
   | with_reducible assumption
   | (extract_lets +onlyGivenNames x; guard_hyp x : Dev := _; refine (fun (hx : Keeps b x) => ?_) ?_; rotate_left; unfold x; clear x; rotate_right; clear_value x)
   | (extract_lets +onlyGivenNames x; clear_value x)
   | extract_lets +onlyGivenNames x
   | with_reducible apply count_keeps
   | with_reducible apply onSpin_keeps
   | with_reducible apply seed_keeps
   | with_reducible apply startFails_keeps
   | with_reducible refine keeps_ite (fun _ => ?_) (fun _ => ?_)

theorem syncOk_keeps {b : Dev} {x0 : Dev} {x1 : Nat} (hx0 : Keeps b x0) : Keeps b (Dev.syncOk x0 x1) := by
  unfold Dev.syncOk
  repeat' first
   | with_reducible assumption
   | (extract_lets +onlyGivenNames x; clear_value x)
   | extract_lets +onlyGivenNames x
   | with_reducible apply onSpin_keeps
   | with_reducible apply spinRun_keeps
   | with_reducible refine keeps_ite (fun _ => ?_) (fun _ => ?_)

theorem atSpeed_keeps {b : Dev} {x0 : Dev} {x1 : Nat} (hx0 : Keeps b x0) : Keeps b (Dev.atSpeed x0 x1) := by
  unfold Dev.atSpeed
  repeat' first
   | with_reducible assumption
   | (generalize hp : Dev.freeStamp _ = p; refine (fun (hk : KeepsP b p) => ?_) (keepsP_gen hp (freeStamp_keeps ?_)); rotate_left; clear hp; clear p; rotate_right; clear hp; obtain ⟨y, z⟩ := p; replace hk : Keeps b z := hk; try dsimp -zeta only)
   | (extract_lets +onlyGivenNames x; guard_hyp x : Dev := _; refine (fun (hx : Keeps b x) => ?_) ?_; rotate_left; unfold x; clear x; rotate_right; clear_value x)
   | extract_lets +onlyGivenNames x
   | with_reducible apply acquire_keeps
   | with_reducible apply sendCfg_keeps
   | with_reducible apply wr_keeps
   | with_reducible refine keeps_ite (fun _ => ?_) (fun _ => ?_)

theorem obsLost_keeps {b : Dev} {x0 : Dev} {x1 : Nat} (hx0 : Keeps b x0) : Keeps b (Dev.obsLost x0 x1) := by
  unfold Dev.obsLost
  repeat' first
   | with_reducible assumption
   | (extract_lets +onlyGivenNames x; guard_hyp x : Dev := _; refine (fun (hx : Keeps b x) => ?_) ?_; rotate_left; unfold x; clear x; rotate_right; clear_value x)
   | (extract_lets +onlyGivenNames x; clear_value x)
   | extract_lets +onlyGivenNames x
   | with_reducible apply count_keeps
   | with_reducible apply holdAbort_keeps
   | with_reducible apply measure_keeps
   | with_reducible apply onSpin_keeps
   | with_reducible apply raise_keeps
   | with_reducible apply wr_keeps
   | with_reducible refine keeps_ite (fun _ => ?_) (fun _ => ?_)

theorem recatchFail_keeps {b : Dev} {x0 : Dev} {x1 : Nat} (hx0 : Keeps b x0) : Keeps b (Dev.recatchFail x0 x1) := by
  unfold Dev.recatchFail
  repeat' first
   | with_reducible assumption
   | (extract_lets +onlyGivenNames x; clear_value x)
   | extract_lets +onlyGivenNames x
   | with_reducible apply raise_keeps
   | with_reducible apply stopSpin_keeps
   | with_reducible refine keeps_ite (fun _ => ?_) (fun _ => ?_)

theorem startFail_keeps {b : Dev} {x0 : Dev} {x1 : Nat} (hx0 : Keeps b x0) : Keeps b (Dev.startFail x0 x1) := by
  unfold Dev.startFail
  repeat' first
   | with_reducible assumption
   | (extract_lets +onlyGivenNames x; clear_value x)
   | extract_lets +onlyGivenNames x
   | with_reducible apply startFails_keeps
   | with_reducible refine keeps_ite (fun _ => ?_) (fun _ => ?_)

theorem controlledStop_keeps {b : Dev} {x0 : Dev} {x1 : Nat} (hx0 : Keeps b x0) : Keeps b (Dev.controlledStop x0 x1) := by
  unfold Dev.controlledStop
  repeat' first
   | with_reducible assumption
   | extract_lets +onlyGivenNames x
   | with_reducible apply stopSpin_keeps
   | with_reducible refine keeps_ite (fun _ => ?_) (fun _ => ?_)

theorem standstill_keeps {b : Dev} {x0 : Dev} {x1 : Nat} (hx0 : Keeps b x0) : Keeps b (Dev.standstill x0 x1) := by
  unfold Dev.standstill
  repeat' first
   | with_reducible assumption
   | (extract_lets +onlyGivenNames x; clear_value x)
   | extract_lets +onlyGivenNames x
   | with_reducible apply onSpin_keeps
   | with_reducible apply setSpeed_keeps
   | with_reducible apply wr_keeps
   | with_reducible refine keeps_ite (fun _ => ?_) (fun _ => ?_)

theorem stopFail_keeps {b : Dev} {x0 : Dev} {x1 : Nat} (hx0 : Keeps b x0) : Keeps b (Dev.stopFail x0 x1) := by
  unfold Dev.stopFail
  repeat' first
   | with_reducible assumption
   | (extract_lets +onlyGivenNames x; guard_hyp x : Dev := _; refine (fun (hx : Keeps b x) => ?_) ?_; rotate_left; unfold x; clear x; rotate_right; clear_value x)
   | (extract_lets +onlyGivenNames x; clear_value x)
   | extract_lets +onlyGivenNames x
   | with_reducible apply fence_keeps
   | with_reducible apply onSpin_keeps
   | with_reducible apply raise_keeps
   | with_reducible refine keeps_ite (fun _ => ?_) (fun _ => ?_)

theorem overcurrent_keeps {b : Dev} {x0 : Dev} {x1 : Nat} (hx0 : Keeps b x0) : Keeps b (Dev.overcurrent x0 x1) := by
  unfold Dev.overcurrent
  repeat' first
   | with_reducible assumption
   | (extract_lets +onlyGivenNames x; guard_hyp x : Dev := _; refine (fun (hx : Keeps b x) => ?_) ?_; rotate_left; unfold x; clear x; rotate_right; clear_value x)
   | (extract_lets +onlyGivenNames x; clear_value x)
   | extract_lets +onlyGivenNames x
   | with_reducible apply fence_keeps
   | with_reducible apply holdAbort_keeps
   | with_reducible apply onSpin_keeps
   | with_reducible apply raise_keeps
   | with_reducible apply wr_keeps
   | with_reducible refine keeps_ite (fun _ => ?_) (fun _ => ?_)

theorem dcLow_keeps {b : Dev} {x0 : Dev} {x1 : Nat} (hx0 : Keeps b x0) : Keeps b (Dev.dcLow x0 x1) := by
  unfold Dev.dcLow
  repeat' first
   | with_reducible assumption
   | (extract_lets +onlyGivenNames x; guard_hyp x : Dev := _; refine (fun (hx : Keeps b x) => ?_) ?_; rotate_left; unfold x; clear x; rotate_right; clear_value x)
   | (extract_lets +onlyGivenNames x; clear_value x)
   | extract_lets +onlyGivenNames x
   | with_reducible apply onSpin_keeps
   | with_reducible apply raise_keeps
   | with_reducible apply stopSpin_keeps
   | with_reducible refine keeps_ite (fun _ => ?_) (fun _ => ?_)

theorem deadline_keeps {b : Dev} {x0 : Dev} {x1 : Nat} {x2 : Nat} (hx0 : Keeps b x0) : Keeps b (Dev.deadline x0 x1 x2) := by
  unfold Dev.deadline
  repeat' first
   | with_reducible assumption
   | (extract_lets +onlyGivenNames x; guard_hyp x : Dev := _; refine (fun (hx : Keeps b x) => ?_) ?_; rotate_left; unfold x; clear x; rotate_right; clear_value x)
   | extract_lets +onlyGivenNames x
   | with_reducible apply axisStop_keeps
   | with_reducible apply onSrvDrive_keeps
   | with_reducible apply raise_keeps
   | with_reducible apply retract_keeps
   | with_reducible apply stopSpin_keeps
   | with_reducible refine keeps_ite (fun _ => ?_) (fun _ => ?_)

theorem execSpinUpRequest_keeps {x0 : Nat} {x1 : State}  : Steps x1.dev x1 (execSpinUpRequest x0 x1) := by
  unfold execSpinUpRequest
  refine steps_run (fun d h => ?_)
  repeat' first
   | with_reducible assumption
   | extract_lets +onlyGivenNames x
   | with_reducible apply spinUp_keeps

theorem execSpindleMeasurementDone_keeps {x0 : Nat} {x1 : SpinMeas} {x2 : State}  : Steps x2.dev x2 (execSpindleMeasurementDone x0 x1 x2) := by
  unfold execSpindleMeasurementDone
  refine steps_run (fun d h => ?_)
  repeat' first
   | with_reducible assumption
   | extract_lets +onlyGivenNames x
   | with_reducible apply measured_keeps

theorem execAlignmentDone_keeps {x0 : Nat} {x1 : List Nat} {x2 : Nat} {x3 : Nat} {x4 : State}  : Steps x4.dev x4 (execAlignmentDone x0 x1 x2 x3 x4) := by
  unfold execAlignmentDone
  refine steps_run (fun d h => ?_)
  repeat' first
   | with_reducible assumption
   | extract_lets +onlyGivenNames x
   | with_reducible apply aligned_keeps

theorem execSyncConfirmed_keeps {x0 : Nat} {x1 : State}  : Steps x1.dev x1 (execSyncConfirmed x0 x1) := by
  unfold execSyncConfirmed
  refine steps_run (fun d h => ?_)
  repeat' first
   | with_reducible assumption
   | extract_lets +onlyGivenNames x
   | with_reducible apply syncOk_keeps

theorem execAtSpeedReached_keeps {x0 : Nat} {x1 : State}  : Steps x1.dev x1 (execAtSpeedReached x0 x1) := by
  unfold execAtSpeedReached
  refine steps_run (fun d h => ?_)
  repeat' first
   | with_reducible assumption
   | extract_lets +onlyGivenNames x
   | with_reducible apply atSpeed_keeps

theorem execObsLost_keeps {x0 : Nat} {x1 : State}  : Steps x1.dev x1 (execObsLost x0 x1) := by
  unfold execObsLost
  refine steps_run (fun d h => ?_)
  repeat' first
   | with_reducible assumption
   | extract_lets +onlyGivenNames x
   | with_reducible apply obsLost_keeps

theorem execRecatchFail_keeps {x0 : Nat} {x1 : State}  : Steps x1.dev x1 (execRecatchFail x0 x1) := by
  unfold execRecatchFail
  refine steps_run (fun d h => ?_)
  repeat' first
   | with_reducible assumption
   | extract_lets +onlyGivenNames x
   | with_reducible apply recatchFail_keeps

theorem execStartFail_keeps {x0 : Nat} {x1 : State}  : Steps x1.dev x1 (execStartFail x0 x1) := by
  unfold execStartFail
  refine steps_run (fun d h => ?_)
  repeat' first
   | with_reducible assumption
   | extract_lets +onlyGivenNames x
   | with_reducible apply startFail_keeps

theorem execControlledStop_keeps {x0 : Nat} {x1 : State}  : Steps x1.dev x1 (execControlledStop x0 x1) := by
  unfold execControlledStop
  refine steps_run (fun d h => ?_)
  repeat' first
   | with_reducible assumption
   | extract_lets +onlyGivenNames x
   | with_reducible apply controlledStop_keeps

theorem execStandstill_keeps {x0 : Nat} {x1 : State}  : Steps x1.dev x1 (execStandstill x0 x1) := by
  unfold execStandstill
  refine steps_run (fun d h => ?_)
  repeat' first
   | with_reducible assumption
   | extract_lets +onlyGivenNames x
   | with_reducible apply standstill_keeps

theorem execStopFail_keeps {x0 : Nat} {x1 : State}  : Steps x1.dev x1 (execStopFail x0 x1) := by
  unfold execStopFail
  refine steps_run (fun d h => ?_)
  repeat' first
   | with_reducible assumption
   | extract_lets +onlyGivenNames x
   | with_reducible apply stopFail_keeps

theorem execOvercurrent_keeps {x0 : Nat} {x1 : State}  : Steps x1.dev x1 (execOvercurrent x0 x1) := by
  unfold execOvercurrent
  refine steps_run (fun d h => ?_)
  repeat' first
   | with_reducible assumption
   | extract_lets +onlyGivenNames x
   | with_reducible apply overcurrent_keeps

theorem execDcLow_keeps {x0 : Nat} {x1 : State}  : Steps x1.dev x1 (execDcLow x0 x1) := by
  unfold execDcLow
  refine steps_run (fun d h => ?_)
  repeat' first
   | with_reducible assumption
   | extract_lets +onlyGivenNames x
   | with_reducible apply dcLow_keeps

theorem execDeadline_keeps {x0 : Nat} {x1 : Nat} {x2 : State}  : Steps x2.dev x2 (execDeadline x0 x1 x2) := by
  unfold execDeadline
  refine steps_run (fun d h => ?_)
  repeat' first
   | with_reducible assumption
   | extract_lets +onlyGivenNames x
   | with_reducible apply deadline_keeps

end Sys2Proof.Machine
end

