-- ==== Sys2Proof/Laws/Keeps/Loader.lean ====
section
/-! SUPPORT. What every operation of Machine/Loader.lean keeps. -/
namespace Sys2Proof.Machine
open Sys2Proof

set_option linter.unusedTactic false
set_option linter.unreachableTactic false
set_option linter.tactic.unusedName false

theorem onLdr_keeps {b : Dev} {x0 : Dev} {x1 : Loader → Loader} (hx0 : Keeps b x0) : Keeps b (Dev.onLdr x0 x1) := by
  unfold Dev.onLdr
  repeat' first
   | with_reducible assumption
   | with_reducible apply onOdr_keeps

theorem ldrStep_keeps {b : Dev} {x0 : Dev} {x1 : LdrOp} (hx0 : Keeps b x0) : KeepsP b (Dev.ldrStep x0 x1) := by
  unfold Dev.ldrStep
  repeat' first
   | with_reducible assumption
   | (extract_lets +onlyGivenNames x; guard_hyp x : Dev := _; refine (fun (hx : Keeps b x) => ?_) ?_; rotate_left; unfold x; clear x; rotate_right; clear_value x)
   | extract_lets +onlyGivenNames x
   | with_reducible apply axisHome_keeps
   | with_reducible apply axisMove_keeps
   | with_reducible apply onLdr_keeps
   | with_reducible apply wr_keeps
   | with_reducible refine keeps_foldl ?_ (fun d x h => ?_)
   | split
   | with_reducible refine keepsP_mk ?_

theorem ldrNext_keeps {b : Dev} {x0 : Dev} (hx0 : Keeps b x0) : Keeps b (Dev.ldrNext x0) := by
  unfold Dev.ldrNext
  repeat' first
   | with_reducible assumption
   | (generalize hp : Dev.ldrStep _ _ = p; refine (fun (hk : KeepsP b p) => ?_) (keepsP_gen hp (ldrStep_keeps ?_)); rotate_left; clear hp; clear p; rotate_right; clear hp; obtain ⟨y, z⟩ := p; replace hk : Keeps b z := hk; try dsimp -zeta only)
   | (extract_lets +onlyGivenNames x; guard_hyp x : Dev := _; refine (fun (hx : Keeps b x) => ?_) ?_; rotate_left; unfold x; clear x; rotate_right; clear_value x)
   | extract_lets +onlyGivenNames x
   | with_reducible apply onLdr_keeps
   | with_reducible apply wr_keeps
   | with_reducible refine keeps_ite (fun _ => ?_) (fun _ => ?_)
   | split

theorem ldrQueue_keeps {b : Dev} {x0 : Dev} {x1 : List LdrOp} (hx0 : Keeps b x0) : Keeps b (Dev.ldrQueue x0 x1) := by
  unfold Dev.ldrQueue
  repeat' first
   | with_reducible assumption
   | extract_lets +onlyGivenNames x
   | with_reducible apply ldrNext_keeps
   | with_reducible apply onLdr_keeps

theorem mountEnds_keeps {b : Dev} {x0 : Dev} {x1 : Nat} {x2 : Option Nat} {x3 : Bool} (hx0 : Keeps b x0) : Keeps b (Dev.mountEnds x0 x1 x2 x3) := by
  unfold Dev.mountEnds
  repeat' first
   | with_reducible assumption
   | (extract_lets +onlyGivenNames x; guard_hyp x : Dev := _; refine (fun (hx : Keeps b x) => ?_) ?_; rotate_left; unfold x; clear x; rotate_right; clear_value x)
   | with_reducible apply cmdEnds_keeps
   | with_reducible apply onLdr_keeps
   | split

theorem mountStart_keeps {b : Dev} {x0 : Dev} {x1 : Nat} {x2 : Nat} {x3 : Nat} {x4 : Bool} (hx0 : Keeps b x0) : Keeps b (Dev.mountStart x0 x1 x2 x3 x4) := by
  unfold Dev.mountStart
  repeat' first
   | with_reducible assumption
   | (extract_lets +onlyGivenNames x; guard_hyp x : _ → _ := _; refine (fun (hf : ∀ y z, Keeps b (x y z)) => ?_) ?_; rotate_left; unfold x; clear x; intro y z; beta_reduce; rotate_right; clear_value x)
   | (extract_lets +onlyGivenNames x; clear_value x)
   | extract_lets +onlyGivenNames x
   | with_reducible apply cmdEnds_keeps
   | with_reducible apply ldrQueue_keeps
   | with_reducible apply onLdr_keeps
   | with_reducible refine hf _ ?_
   | with_reducible refine keeps_ite (fun _ => ?_) (fun _ => ?_)

theorem mountLoads_keeps {b : Dev} {x0 : Dev} (hx0 : Keeps b x0) : Keeps b (Dev.mountLoads x0) := by
  unfold Dev.mountLoads
  repeat' first
   | with_reducible assumption
   | extract_lets +onlyGivenNames x
   | with_reducible apply ldrQueue_keeps
   | with_reducible apply mountEnds_keeps
   | with_reducible apply raise_keeps
   | with_reducible apply wr_keeps
   | with_reducible refine keeps_ite (fun _ => ?_) (fun _ => ?_)
   | split

theorem catalogue_keeps {b : Dev} {x0 : Dev} {x1 : Nat} {x2 : Nat} {x3 : Nat} (hx0 : Keeps b x0) : KeepsP b (Dev.catalogue x0 x1 x2 x3) := by
  unfold Dev.catalogue
  repeat' first
   | with_reducible assumption
   | extract_lets +onlyGivenNames x
   | with_reducible apply onCat_keeps
   | with_reducible apply raise_keeps
   | with_reducible apply setCat_keeps
   | with_reducible apply takeInjected_keeps
   | split
   | with_reducible refine keepsP_mk ?_

theorem mountDone_keeps {b : Dev} {x0 : Dev} {x1 : Nat} {x2 : Nat} (hx0 : Keeps b x0) : Keeps b (Dev.mountDone x0 x1 x2) := by
  unfold Dev.mountDone
  repeat' first
   | with_reducible assumption
   | (extract_lets +onlyGivenNames x; guard_hyp x : Dev := _; refine (fun (hx : Keeps b x) => ?_) ?_; rotate_left; unfold x; clear x; rotate_right; clear_value x)
   | (extract_lets +onlyGivenNames x; clear_value x)
   | extract_lets +onlyGivenNames x
   | with_reducible apply mountEnds_keeps
   | with_reducible apply onCat_keeps
   | with_reducible apply unloadStart_keeps
   | with_reducible apply wr_keeps
   | with_reducible refine keeps_foldl ?_ (fun d x h => ?_)
   | with_reducible refine keeps_ite (fun _ => ?_) (fun _ => ?_)

theorem ejectStart_keeps {b : Dev} {x0 : Dev} {x1 : Nat} {x2 : Nat} {x3 : Bool} (hx0 : Keeps b x0) : Keeps b (Dev.ejectStart x0 x1 x2 x3) := by
  unfold Dev.ejectStart
  repeat' first
   | with_reducible assumption
   | (extract_lets +onlyGivenNames x; guard_hyp x : Dev := _; refine (fun (hx : Keeps b x) => ?_) ?_; rotate_left; unfold x; clear x; rotate_right; clear_value x)
   | (extract_lets +onlyGivenNames x; guard_hyp x : _ → _ := _; refine (fun (hf : ∀ y, Keeps b (x y)) => ?_) ?_; rotate_left; unfold x; clear x; intro y; beta_reduce; rotate_right; clear_value x)
   | (extract_lets +onlyGivenNames x; clear_value x)
   | extract_lets +onlyGivenNames x
   | with_reducible apply cmdEnds_keeps
   | with_reducible apply onLdr_keeps
   | with_reducible apply sjPut_keeps
   | with_reducible exact hf _
   | with_reducible refine keeps_foldl ?_ (fun d x h => ?_)
   | with_reducible refine keeps_ite (fun _ => ?_) (fun _ => ?_)

theorem ejectGoes_keeps {b : Dev} {x0 : Dev} (hx0 : Keeps b x0) : Keeps b (Dev.ejectGoes x0) := by
  unfold Dev.ejectGoes
  repeat' first
   | with_reducible assumption
   | (extract_lets +onlyGivenNames x; guard_hyp x : Dev := _; refine (fun (hx : Keeps b x) => ?_) ?_; rotate_left; unfold x; clear x; rotate_right; clear_value x)
   | (extract_lets +onlyGivenNames x; clear_value x)
   | extract_lets +onlyGivenNames x
   | with_reducible apply ldrQueue_keeps
   | with_reducible apply unloadStart_keeps
   | with_reducible refine keeps_foldl ?_ (fun d x h => ?_)
   | with_reducible refine keeps_ite (fun _ => ?_) (fun _ => ?_)
   | split

theorem discReturns_keeps {b : Dev} {x0 : Dev} {x1 : Nat} (hx0 : Keeps b x0) : Keeps b (Dev.discReturns x0 x1) := by
  unfold Dev.discReturns
  repeat' first
   | with_reducible assumption
   | (extract_lets +onlyGivenNames x; clear_value x)
   | extract_lets +onlyGivenNames x
   | with_reducible apply unloadStart_keeps
   | with_reducible apply wr_keeps
   | with_reducible refine keeps_ite (fun _ => ?_) (fun _ => ?_)

theorem showSlot_keeps {b : Dev} {x0 : Dev} {x1 : Nat} {x2 : Bool} {x3 : Option Nat} (hx0 : Keeps b x0) : Keeps b (Dev.showSlot x0 x1 x2 x3) := by
  unfold Dev.showSlot
  repeat' first
   | with_reducible assumption
   | extract_lets +onlyGivenNames x
   | with_reducible apply wr_keeps
   | with_reducible apply wrB_keeps

theorem driveEmpty_keeps {b : Dev} {x0 : Dev} {x1 : Nat} (hx0 : Keeps b x0) : Keeps b (Dev.driveEmpty x0 x1) := by
  unfold Dev.driveEmpty
  repeat' first
   | with_reducible assumption
   | with_reducible refine fun (d : Dev) (h : Keeps b d) => ?_
   | with_reducible exact fun _ => Nat.le_refl _
   | (extract_lets +onlyGivenNames x; guard_hyp x : Dev := _; refine (fun (hx : Keeps b x) => ?_) ?_; rotate_left; unfold x; clear x; rotate_right; clear_value x)
   | extract_lets +onlyGivenNames x
   | with_reducible apply mramPut_keeps
   | with_reducible apply onDrive_keeps
   | with_reducible apply when_keeps
   | with_reducible apply wr_keeps

theorem noShell_keeps {b : Dev} {x0 : Dev} {x1 : Option Nat} (hx0 : Keeps b x0) : Keeps b (Dev.noShell x0 x1) := by
  unfold Dev.noShell
  repeat' first
   | with_reducible assumption
   | (extract_lets +onlyGivenNames x; guard_hyp x : Dev := _; refine (fun (hx : Keeps b x) => ?_) ?_; rotate_left; unfold x; clear x; rotate_right; clear_value x)
   | with_reducible apply onCat_keeps
   | with_reducible apply raise_keeps
   | split

theorem ldrEnds_keeps {b : Dev} {x0 : Dev} {x1 : LdrOp} {x2 : Bool} (hx0 : Keeps b x0) : Keeps b (Dev.ldrEnds x0 x1 x2) := by
  unfold Dev.ldrEnds
  repeat' first
   | with_reducible assumption
   | (extract_lets +onlyGivenNames x; guard_hyp x : Dev := _; refine (fun (hx : Keeps b x) => ?_) ?_; rotate_left; unfold x; clear x; rotate_right; clear_value x)
   | (extract_lets +onlyGivenNames x; clear_value x)
   | extract_lets +onlyGivenNames x
   | with_reducible apply cmdEnds_keeps
   | with_reducible apply count_keeps
   | with_reducible apply driveEmpty_keeps
   | with_reducible apply dropRecs_keeps
   | with_reducible apply dropWants_keeps
   | with_reducible apply mountEnds_keeps
   | with_reducible apply noShell_keeps
   | with_reducible apply onCat_keeps
   | with_reducible apply onDrive_keeps
   | with_reducible apply onLdr_keeps
   | with_reducible apply onOdr_keeps
   | with_reducible apply raise_keeps
   | with_reducible apply saveNwb_keeps
   | with_reducible apply showSlot_keeps
   | with_reducible apply spinUp_keeps
   | with_reducible apply wr_keeps
   | with_reducible refine keeps_foldl ?_ (fun d x h => ?_)
   | with_reducible refine keeps_ite (fun _ => ?_) (fun _ => ?_)
   | split

theorem ldrStepDone_keeps {b : Dev} {x0 : Dev} (hx0 : Keeps b x0) : Keeps b (Dev.ldrStepDone x0) := by
  unfold Dev.ldrStepDone
  repeat' first
   | with_reducible assumption
   | (generalize hp : Dev.ldrStep _ _ = p; refine (fun (hk : KeepsP b p) => ?_) (keepsP_gen hp (ldrStep_keeps ?_)); rotate_left; clear hp; clear p; rotate_right; clear hp; obtain ⟨y, z⟩ := p; replace hk : Keeps b z := hk; try dsimp -zeta only)
   | (extract_lets +onlyGivenNames x; guard_hyp x : Dev := _; refine (fun (hx : Keeps b x) => ?_) ?_; rotate_left; unfold x; clear x; rotate_right; clear_value x)
   | (extract_lets +onlyGivenNames x; clear_value x)
   | extract_lets +onlyGivenNames x
   | with_reducible apply ldrEnds_keeps
   | with_reducible apply ldrNext_keeps
   | with_reducible apply onLdr_keeps
   | with_reducible refine keeps_ite (fun _ => ?_) (fun _ => ?_)
   | split

theorem ldrTimeout_keeps {b : Dev} {x0 : Dev} (hx0 : Keeps b x0) : Keeps b (Dev.ldrTimeout x0) := by
  unfold Dev.ldrTimeout
  repeat' first
   | with_reducible assumption
   | (extract_lets +onlyGivenNames x; clear_value x)
   | extract_lets +onlyGivenNames x
   | with_reducible apply ldrFails_keeps
   | with_reducible refine keeps_ite (fun _ => ?_) (fun _ => ?_)
   | split

theorem ldrAbandon_keeps {b : Dev} {x0 : Dev} (hx0 : Keeps b x0) : Keeps b (Dev.ldrAbandon x0) := by
  unfold Dev.ldrAbandon
  repeat' first
   | with_reducible assumption
   | (extract_lets +onlyGivenNames x; guard_hyp x : Dev := _; refine (fun (hx : Keeps b x) => ?_) ?_; rotate_left; unfold x; clear x; rotate_right; clear_value x)
   | (extract_lets +onlyGivenNames x; guard_hyp x : _ → _ := _; refine (fun (hf : ∀ y d, Keeps b d → Keeps b (x y d)) => ?_) ?_; rotate_left; unfold x; clear x; intro y d h; beta_reduce; rotate_right; clear_value x)
   | (extract_lets +onlyGivenNames x; clear_value x)
   | extract_lets +onlyGivenNames x
   | with_reducible apply cmdEnds_keeps
   | with_reducible apply driveEmpty_keeps
   | with_reducible apply dropRecs_keeps
   | with_reducible apply dropWants_keeps
   | with_reducible apply onLdr_keeps
   | with_reducible apply wr_keeps
   | with_reducible refine hf _ _ ?_
   | with_reducible refine keeps_foldl ?_ (fun d x h => ?_)
   | with_reducible refine keeps_ite (fun _ => ?_) (fun _ => ?_)
   | split

theorem tellMismatch_keeps {b : Dev} {x0 : Dev} {x1 : Nat} {x2 : Nat} (hx0 : Keeps b x0) : Keeps b (Dev.tellMismatch x0 x1 x2) := by
  unfold Dev.tellMismatch
  repeat' first
   | with_reducible assumption
   | (extract_lets +onlyGivenNames x; clear_value x)
   | extract_lets +onlyGivenNames x
   | with_reducible apply onCmd_keeps
   | with_reducible refine keeps_foldl ?_ (fun d x h => ?_)

theorem refuseDisc_keeps {b : Dev} {x0 : Dev} {x1 : Nat} {x2 : Nat} (hx0 : Keeps b x0) : Keeps b (Dev.refuseDisc x0 x1 x2) := by
  unfold Dev.refuseDisc
  repeat' first
   | with_reducible assumption
   | with_reducible refine fun (d : Dev) (h : Keeps b d) => ?_
   | (extract_lets +onlyGivenNames x; guard_hyp x : Dev := _; refine (fun (hx : Keeps b x) => ?_) ?_; rotate_left; unfold x; clear x; rotate_right; clear_value x)
   | (extract_lets +onlyGivenNames x; clear_value x)
   | extract_lets +onlyGivenNames x
   | with_reducible apply dropRecs_keeps
   | with_reducible apply dropWants_keeps
   | with_reducible apply mountEnds_keeps
   | with_reducible apply tellMismatch_keeps
   | with_reducible apply unloadStart_keeps
   | with_reducible apply when_keeps

theorem discReadyNow_keeps {b : Dev} {x0 : Dev} {x1 : Nat} {x2 : Nat} {x3 : Nat} {x4 : Option Nat} {x5 : Bool} {x6 : LeadIn} (hx0 : Keeps b x0) : Keeps b (Dev.discReadyNow x0 x1 x2 x3 x4 x5 x6) := by
  unfold Dev.discReadyNow
  repeat' first
   | with_reducible assumption
   | with_reducible exact fun _ => Nat.le_refl _
   | with_reducible refine fun (d : Dev) (h : Keeps b d) => ?_
   | (extract_lets +onlyGivenNames x; guard_hyp x : Dev := _; refine (fun (hx : Keeps b x) => ?_) ?_; rotate_left; unfold x; clear x; rotate_right; clear_value x)
   | (extract_lets +onlyGivenNames x; clear_value x)
   | extract_lets +onlyGivenNames x
   | with_reducible apply mramPut_keeps
   | with_reducible apply nwbFrom_keeps
   | with_reducible apply onDisc_keeps
   | with_reducible apply onDrive_keeps
   | with_reducible apply raise_keeps
   | with_reducible apply setNwb_keeps
   | with_reducible apply setRdonly_keeps
   | with_reducible apply showDisc_keeps
   | with_reducible apply tablesDue_keeps
   | with_reducible apply tapsReset_keeps
   | with_reducible apply when_keeps
   | with_reducible apply wr_keeps
   | with_reducible refine keeps_ite (fun _ => ?_) (fun _ => ?_)

theorem identify_keeps {b : Dev} {x0 : Dev} {x1 : Nat} {x2 : LeadIn} (hx0 : Keeps b x0) : Keeps b (Dev.identify x0 x1 x2) := by
  unfold Dev.identify
  repeat' first
   | with_reducible assumption
   | (generalize hp : Dev.catalogue _ _ _ _ = p; refine (fun (hk : KeepsP b p) => ?_) (keepsP_gen hp (catalogue_keeps ?_)); rotate_left; clear hp; clear p; rotate_right; clear hp; obtain ⟨y, z⟩ := p; replace hk : Keeps b z := hk; try dsimp -zeta only)
   | (generalize hp : Dev.newShellId _ = p; refine (fun (hk : KeepsP b p) => ?_) (keepsP_gen hp (newShellId_keeps ?_)); rotate_left; clear hp; clear p; rotate_right; clear hp; obtain ⟨y, z⟩ := p; replace hk : Keeps b z := hk; try dsimp -zeta only)
   | (extract_lets +onlyGivenNames x; guard_hyp x : Dev := _; refine (fun (hx : Keeps b x) => ?_) ?_; rotate_left; unfold x; clear x; rotate_right; clear_value x)
   | (extract_lets +onlyGivenNames x; clear_value x)
   | extract_lets +onlyGivenNames x
   | with_reducible apply discReadyNow_keeps
   | with_reducible apply mountDone_keeps
   | with_reducible apply mountEnds_keeps
   | with_reducible apply onCat_keeps
   | with_reducible apply raise_keeps
   | with_reducible apply refuseDisc_keeps
   | with_reducible apply takeInjected_keeps
   | with_reducible apply unloadStart_keeps
   | with_reducible refine keeps_ite (fun _ => ?_) (fun _ => ?_)
   | split
   | with_reducible refine keepsP_mk ?_
   | with_reducible refine keeps_pair ?_ ‹_ = (_, _)›

theorem discUnload_keeps {b : Dev} {x0 : Dev} {x1 : Nat} (hx0 : Keeps b x0) : Keeps b (Dev.discUnload x0 x1) := by
  unfold Dev.discUnload
  repeat' first
   | with_reducible assumption
   | with_reducible refine fun (d : Dev) (h : Keeps b d) => ?_
   | (extract_lets +onlyGivenNames x; guard_hyp x : Dev := _; refine (fun (hx : Keeps b x) => ?_) ?_; rotate_left; unfold x; clear x; rotate_right; clear_value x)
   | (extract_lets +onlyGivenNames x; clear_value x)
   | extract_lets +onlyGivenNames x
   | with_reducible apply ddlRecord_keeps
   | with_reducible apply ldrQueue_keeps
   | with_reducible apply saveNwb_keeps
   | with_reducible apply stopSpin_keeps
   | with_reducible apply when_keeps
   | with_reducible refine keeps_ite (fun _ => ?_) (fun _ => ?_)

theorem ldrTick_keeps {b : Dev} {x0 : Dev} (hx0 : Keeps b x0) : Keeps b (Dev.ldrTick x0) := by
  unfold Dev.ldrTick
  repeat' first
   | with_reducible assumption
   | (extract_lets +onlyGivenNames x; guard_hyp x : Dev := _; refine (fun (hx : Keeps b x) => ?_) ?_; rotate_left; unfold x; clear x; rotate_right; clear_value x)
   | extract_lets +onlyGivenNames x
   | with_reducible apply ejectGoes_keeps
   | with_reducible apply ldrNext_keeps
   | with_reducible apply loads_keeps
   | with_reducible apply mountLoads_keeps
   | with_reducible apply servoStart_keeps
   | with_reducible apply unloadStart_keeps
   | with_reducible refine keeps_foldl ?_ (fun d x h => ?_)
   | with_reducible refine keeps_ite (fun _ => ?_) (fun _ => ?_)

theorem execDiscIdentify_keeps {x0 : Nat} {x1 : LeadIn} {x2 : State}  : Steps x2.dev x2 (execDiscIdentify x0 x1 x2) := by
  unfold execDiscIdentify
  refine steps_run (fun d h => ?_)
  repeat' first
   | with_reducible assumption
   | extract_lets +onlyGivenNames x
   | with_reducible apply identify_keeps

theorem execDiscUnload_keeps {x0 : Nat} {x1 : State}  : Steps x1.dev x1 (execDiscUnload x0 x1) := by
  unfold execDiscUnload
  refine steps_run (fun d h => ?_)
  repeat' first
   | with_reducible assumption
   | extract_lets +onlyGivenNames x
   | with_reducible apply discUnload_keeps

theorem ldrAct_keeps {b : Dev} {x0 : Dev} {x1 : List LdrOp} (hx0 : Keeps b x0) : Keeps b (Dev.ldrAct x0 x1) := by
  unfold Dev.ldrAct
  repeat' first
   | with_reducible assumption
   | extract_lets +onlyGivenNames x
   | with_reducible apply countIgnored_keeps
   | with_reducible apply ldrQueue_keeps
   | with_reducible refine keeps_ite (fun _ => ?_) (fun _ => ?_)

theorem execLdrInventory_keeps {x0 : State}  : Steps x0.dev x0 (execLdrInventory x0) := by
  unfold execLdrInventory
  refine steps_run (fun d h => ?_)
  repeat' first
   | with_reducible assumption
   | extract_lets +onlyGivenNames x
   | with_reducible apply asWrite_keeps
   | with_reducible apply ldrAct_keeps
   | intro m

theorem execLdrHome_keeps {x0 : State}  : Steps x0.dev x0 (execLdrHome x0) := by
  unfold execLdrHome
  refine steps_run (fun d h => ?_)
  repeat' first
   | with_reducible assumption
   | extract_lets +onlyGivenNames x
   | with_reducible apply asWrite_keeps
   | with_reducible apply ldrAct_keeps
   | intro m

theorem execLoaderStepDone_keeps {x0 : State}  : Steps x0.dev x0 (execLoaderStepDone x0) := by
  unfold execLoaderStepDone
  refine steps_run (fun d h => ?_)
  repeat' first
   | with_reducible assumption
   | extract_lets +onlyGivenNames x
   | with_reducible apply ldrStepDone_keeps

theorem execLoaderStepTimeout_keeps {x0 : State}  : Steps x0.dev x0 (execLoaderStepTimeout x0) := by
  unfold execLoaderStepTimeout
  refine steps_run (fun d h => ?_)
  repeat' first
   | with_reducible assumption
   | extract_lets +onlyGivenNames x
   | with_reducible apply ldrTimeout_keeps

end Sys2Proof.Machine
end

