-- ==== Sys2Proof/Laws/Keeps/HostStep.lean ====
section
/-! SUPPORT. What every operation of Machine/HostStep.lean keeps. -/
namespace Sys2Proof.Machine
open Sys2Proof

set_option linter.unusedTactic false
set_option linter.unreachableTactic false
set_option linter.tactic.unusedName false

theorem cmdComplete_keeps {b : Dev} {x0 : Dev} {x1 : Cmd} (hx0 : Keeps b x0) : Keeps b (Dev.cmdComplete x0 x1) := by
  unfold Dev.cmdComplete
  repeat' first
   | with_reducible assumption
   | (extract_lets +onlyGivenNames x; guard_hyp x : Dev := _; refine (fun (hx : Keeps b x) => ?_) ?_; rotate_left; unfold x; clear x; rotate_right; clear_value x)
   | extract_lets +onlyGivenNames x
   | with_reducible apply dropXfer_keeps
   | with_reducible apply onHat_keeps
   | with_reducible apply respond_keeps
   | with_reducible apply rlAssign_keeps
   | with_reducible apply showQ_keeps
   | with_reducible refine keeps_foldl ?_ (fun d x h => ?_)
   | with_reducible refine keeps_ite (fun _ => ?_) (fun _ => ?_)
   | split

theorem logPieces_keeps {b : Dev} {x0 : Dev} {x1 : Nat} {x2 : Nat} (hx0 : Keeps b x0) : Keeps b (Dev.logPieces x0 x1 x2) := by
  induction x2 generalizing x0 x1 with
  | zero =>
    unfold Dev.logPieces
    repeat' first
     | with_reducible assumption
  | succ n ih =>
    unfold Dev.logPieces
    repeat' first
     | with_reducible assumption
     | with_reducible apply ih
     | (generalize hp : Dev.askBuf _ _ = p; refine (fun (hk : KeepsP b p) => ?_) (keepsP_gen hp (askBuf_keeps ?_)); rotate_left; clear hp; clear p; rotate_right; clear hp; obtain ⟨y, z⟩ := p; replace hk : Keeps b z := hk; try dsimp -zeta only)
     | (generalize hp : Dev.logData _ _ _ _ _ = p; refine (fun (hk : KeepsP b p) => ?_) (keepsP_gen hp (logData_keeps ?_)); rotate_left; clear hp; clear p; rotate_right; clear hp; obtain ⟨y, z⟩ := p; replace hk : Keeps b z := hk; try dsimp -zeta only)
     | (extract_lets +onlyGivenNames x; guard_hyp x : Dev := _; refine (fun (hx : Keeps b x) => ?_) ?_; rotate_left; unfold x; clear x; rotate_right; clear_value x)
     | (extract_lets +onlyGivenNames x; clear_value x)
     | extract_lets +onlyGivenNames x
     | with_reducible apply cmdEnds_keeps
     | with_reducible apply deliverIn_keeps
     | with_reducible apply onCmd_keeps
     | with_reducible refine keeps_ite (fun _ => ?_) (fun _ => ?_)
     | split

theorem askData_keeps {b : Dev} {x0 : Dev} {x1 : Cmd} {x2 : Nat} (hx0 : Keeps b x0) : Keeps b (Dev.askData x0 x1 x2) := by
  unfold Dev.askData
  repeat' first
   | with_reducible assumption
   | (generalize hp : Dev.askBuf _ _ = p; refine (fun (hk : KeepsP b p) => ?_) (keepsP_gen hp (askBuf_keeps ?_)); rotate_left; clear hp; clear p; rotate_right; clear hp; obtain ⟨y, z⟩ := p; replace hk : Keeps b z := hk; try dsimp -zeta only)
   | (generalize hp : Dev.bpmHostw _ _ _ _ = p; refine (fun (hk : KeepsP b p) => ?_) (keepsP_gen hp (bpmHostw_keeps ?_)); rotate_left; clear hp; clear p; rotate_right; clear hp; obtain ⟨y, z⟩ := p; replace hk : Keeps b z := hk; try dsimp -zeta only)
   | (extract_lets +onlyGivenNames x; guard_hyp x : Dev := _; refine (fun (hx : Keeps b x) => ?_) ?_; rotate_left; unfold x; clear x; rotate_right; clear_value x)
   | (extract_lets +onlyGivenNames x; clear_value x)
   | extract_lets +onlyGivenNames x
   | with_reducible apply addXfer_keeps
   | with_reducible apply onCmd_keeps
   | with_reducible refine keeps_ite (fun _ => ?_) (fun _ => ?_)

theorem featureStep_keeps {b : Dev} {x0 : Dev} {x1 : Cmd} (hx0 : Keeps b x0) : Keeps b (Dev.featureStep x0 x1) := by
  unfold Dev.featureStep
  repeat' first
   | with_reducible assumption
   | extract_lets +onlyGivenNames x
   | with_reducible apply cmdEnds_keeps
   | with_reducible refine keeps_ite (fun _ => ?_) (fun _ => ?_)
   | split

theorem cmdStep_keeps {b : Dev} {x0 : Dev} {x1 : Cmd} (hx0 : Keeps b x0) : Keeps b (Dev.cmdStep x0 x1) := by
  unfold Dev.cmdStep
  repeat' first
   | with_reducible assumption
   | extract_lets +onlyGivenNames x
   | with_reducible apply Cmd_endsAt_keeps
   | with_reducible apply askData_keeps
   | with_reducible apply featureStep_keeps
   | with_reducible apply flushStep_keeps
   | with_reducible apply frameStep_keeps
   | with_reducible apply logPieces_keeps
   | with_reducible apply migrateStep_keeps
   | with_reducible apply pieces_keeps
   | with_reducible apply readStep_keeps
   | with_reducible apply verifyStep_keeps
   | with_reducible apply writeStep_keeps
   | with_reducible refine keeps_ite (fun _ => ?_) (fun _ => ?_)

theorem hostDone_keeps {b : Dev} {x0 : Dev} (hx0 : Keeps b x0) : Keeps b (Dev.hostDone x0) := by
  unfold Dev.hostDone
  repeat' first
   | with_reducible assumption
   | (extract_lets +onlyGivenNames x; clear_value x)
   | extract_lets +onlyGivenNames x
   | with_reducible apply addDurable_keeps
   | with_reducible apply onSfl_keeps
   | with_reducible apply unitDone_keeps
   | with_reducible refine keeps_foldl ?_ (fun d x h => ?_)
   | split

theorem hatPump_keeps {b : Dev} {x0 : Dev} (hx0 : Keeps b x0) : Keeps b (Dev.hatPump x0) := by
  unfold Dev.hatPump
  repeat' first
   | with_reducible assumption
   | (generalize hp : Dev.served _ _ = p; refine (fun (hk : KeepsP b p) => ?_) (keepsP_gen hp (served_keeps ?_)); rotate_left; clear hp; clear p; rotate_right; clear hp; obtain ⟨y, z⟩ := p; replace hk : Keeps b z := hk; try dsimp -zeta only)
   | (extract_lets +onlyGivenNames x; guard_hyp x : Dev := _; refine (fun (hx : Keeps b x) => ?_) ?_; rotate_left; unfold x; clear x; rotate_right; clear_value x)
   | extract_lets +onlyGivenNames x
   | with_reducible apply cmdComplete_keeps
   | with_reducible apply cmdStep_keeps
   | with_reducible apply hostDone_keeps
   | with_reducible apply parityRows_keeps
   | with_reducible apply rowsStaged_keeps
   | with_reducible apply showQ_keeps
   | with_reducible refine keeps_foldl ?_ (fun d x h => ?_)
   | with_reducible refine keeps_ite (fun _ => ?_) (fun _ => ?_)
   | split

theorem begins_keeps {b : Dev} {x0 : Dev} {x1 : Nat} {x2 : Nat} {x3 : Nat} {x4 : Dev → Cmd → Dev} (hx0 : Keeps b x0) (hx4 : ∀ d y, Keeps b d → Keeps b (x4 d y)) : Keeps b (Dev.begins x0 x1 x2 x3 x4) := by
  unfold Dev.begins
  repeat' first
   | with_reducible assumption
   | (extract_lets +onlyGivenNames x; guard_hyp x : Dev := _; refine (fun (hx : Keeps b x) => ?_) ?_; rotate_left; unfold x; clear x; rotate_right; clear_value x)
   | extract_lets +onlyGivenNames x
   | with_reducible apply Cmd_endsAt_keeps
   | with_reducible apply hatPump_keeps
   | with_reducible apply started_keeps
   | with_reducible refine hx4 _ _ ?_
   | with_reducible refine keeps_ite (fun _ => ?_) (fun _ => ?_)
   | split

theorem lockStarts_keeps {b : Dev} {x0 : Dev} {x1 : Cmd} (hx0 : Keeps b x0) : Keeps b (Dev.lockStarts x0 x1) := by
  unfold Dev.lockStarts
  repeat' first
   | with_reducible assumption
   | extract_lets +onlyGivenNames x
   | with_reducible apply count_keeps
   | with_reducible apply onCmd_keeps
   | with_reducible apply started_keeps

theorem beginsLocked_keeps {b : Dev} {x0 : Dev} {x1 : Nat} {x2 : Nat} {x3 : Nat} (hx0 : Keeps b x0) : Keeps b (Dev.beginsLocked x0 x1 x2 x3) := by
  unfold Dev.beginsLocked
  repeat' first
   | with_reducible assumption
   | extract_lets +onlyGivenNames x
   | with_reducible apply Cmd_endsAt_keeps
   | with_reducible apply count_keeps
   | with_reducible apply hatPump_keeps
   | with_reducible apply lockStarts_keeps
   | with_reducible apply onCmd_keeps
   | with_reducible apply started_keeps
   | with_reducible refine keeps_ite (fun _ => ?_) (fun _ => ?_)
   | split

theorem lockGranted_keeps {b : Dev} {x0 : Dev} {x1 : Nat} {x2 : Nat} (hx0 : Keeps b x0) : Keeps b (Dev.lockGranted x0 x1 x2) := by
  unfold Dev.lockGranted
  repeat' first
   | with_reducible assumption
   | extract_lets +onlyGivenNames x
   | with_reducible apply hatPump_keeps
   | with_reducible apply lockStarts_keeps
   | with_reducible refine keeps_ite (fun _ => ?_) (fun _ => ?_)
   | split

theorem keyTake_keeps {b : Dev} {x0 : Dev} {x1 : Cmd} {x2 : Xfer} (hx0 : Keeps b x0) : Keeps b (Dev.keyTake x0 x1 x2) := by
  unfold Dev.keyTake
  repeat' first
   | with_reducible assumption
   | (generalize hp : Dev.readLines _ _ _ _ = p; refine (fun (hk : KeepsP b p) => ?_) (keepsP_gen hp (readLines_keeps ?_)); rotate_left; clear hp; clear p; rotate_right; clear hp; obtain ⟨y, z⟩ := p; replace hk : Keeps b z := hk; try dsimp -zeta only)
   | (extract_lets +onlyGivenNames x; guard_hyp x : Dev := _; refine (fun (hx : Keeps b x) => ?_) ?_; rotate_left; unfold x; clear x; rotate_right; clear_value x)
   | extract_lets +onlyGivenNames x
   | with_reducible apply Cmd_endsAt_keeps
   | with_reducible apply keyStore_keeps
   | with_reducible apply writeFwd_keeps
   | with_reducible refine keeps_foldl ?_ (fun d x h => ?_)
   | with_reducible refine keeps_ite (fun _ => ?_) (fun _ => ?_)
   | split

theorem fwTake_keeps {b : Dev} {x0 : Dev} {x1 : Cmd} {x2 : Xfer} (hx0 : Keeps b x0) : Keeps b (Dev.fwTake x0 x1 x2) := by
  unfold Dev.fwTake
  repeat' first
   | with_reducible assumption
   | with_reducible exact fun _ => Nat.le_refl _
   | (generalize hp : Dev.readLines _ _ _ _ = p; refine (fun (hk : KeepsP b p) => ?_) (keepsP_gen hp (readLines_keeps ?_)); rotate_left; clear hp; clear p; rotate_right; clear hp; obtain ⟨y, z⟩ := p; replace hk : Keeps b z := hk; try dsimp -zeta only)
   | (extract_lets +onlyGivenNames x; guard_hyp x : Dev := _; refine (fun (hx : Keeps b x) => ?_) ?_; rotate_left; unfold x; clear x; rotate_right; clear_value x)
   | (extract_lets +onlyGivenNames x; clear_value x)
   | extract_lets +onlyGivenNames x
   | with_reducible apply Cmd_endsAt_keeps
   | with_reducible apply mramPut_keeps
   | with_reducible apply profPut_keeps
   | with_reducible apply setChecked_keeps
   | with_reducible refine keeps_ite (fun _ => ?_) (fun _ => ?_)

theorem dataIn_keeps {b : Dev} {x0 : Dev} {x1 : Xfer} (hx0 : Keeps b x0) : Keeps b (Dev.dataIn x0 x1) := by
  unfold Dev.dataIn
  repeat' first
   | with_reducible assumption
   | (generalize hp : Dev.bpmHostw _ _ _ _ = p; refine (fun (hk : KeepsP b p) => ?_) (keepsP_gen hp (bpmHostw_keeps ?_)); rotate_left; clear hp; clear p; rotate_right; clear hp; obtain ⟨y, z⟩ := p; replace hk : Keeps b z := hk; try dsimp -zeta only)
   | (extract_lets +onlyGivenNames x; guard_hyp x : Dev := _; refine (fun (hx : Keeps b x) => ?_) ?_; rotate_left; unfold x; clear x; rotate_right; clear_value x)
   | extract_lets +onlyGivenNames x
   | with_reducible apply freeHandle_keeps
   | with_reducible apply fwTake_keeps
   | with_reducible apply keyTake_keeps
   | with_reducible apply onHat_keeps
   | with_reducible apply unitWrite_keeps
   | with_reducible refine keeps_ite (fun _ => ?_) (fun _ => ?_)
   | split

theorem capsuleAct_keeps {b : Dev} {x0 : Dev} {x1 : Nat × Nat × Nat × Nat} (hx0 : Keeps b x0) : Keeps b (Dev.capsuleAct x0 x1) := by
  unfold Dev.capsuleAct
  repeat' first
   | with_reducible assumption
   | (extract_lets +onlyGivenNames x; guard_hyp x : Dev := _; refine (fun (hx : Keeps b x) => ?_) ?_; rotate_left; unfold x; clear x; rotate_right; clear_value x)
   | extract_lets +onlyGivenNames x
   | with_reducible apply dataIn_keeps
   | with_reducible apply dropXfer_keeps
   | with_reducible apply onHat_keeps
   | with_reducible refine keeps_ite (fun _ => ?_) (fun _ => ?_)
   | split

theorem capsuleTake_keeps {b : Dev} {x0 : Dev} {x1 : Nat × Nat × Nat × Nat} (hx0 : Keeps b x0) : Keeps b (Dev.capsuleTake x0 x1) := by
  unfold Dev.capsuleTake
  repeat' first
   | with_reducible assumption
   | extract_lets +onlyGivenNames x
   | with_reducible apply capsuleAct_keeps
   | with_reducible apply hatPump_keeps
   | with_reducible apply showQ_keeps
   | with_reducible refine keeps_ite (fun _ => ?_) (fun _ => ?_)

theorem cancelUnits_keeps {b : Dev} {x0 : Dev} {x1 : Nat} {x2 : Nat} (hx0 : Keeps b x0) : Keeps b (Dev.cancelUnits x0 x1 x2) := by
  unfold Dev.cancelUnits
  repeat' first
   | with_reducible assumption
   | (extract_lets +onlyGivenNames x; guard_hyp x : Dev := _; refine (fun (hx : Keeps b x) => ?_) ?_; rotate_left; unfold x; clear x; rotate_right; clear_value x)
   | (extract_lets +onlyGivenNames x; clear_value x)
   | extract_lets +onlyGivenNames x
   | with_reducible apply onSfl_keeps
   | with_reducible apply unitDone_keeps
   | with_reducible refine keeps_foldl ?_ (fun d x h => ?_)

theorem cancelRows_keeps {b : Dev} {x0 : Dev} {x1 : Nat} (hx0 : Keeps b x0) : Keeps b (Dev.cancelRows x0 x1) := by
  unfold Dev.cancelRows
  repeat' first
   | with_reducible assumption
   | (extract_lets +onlyGivenNames x; guard_hyp x : Dev := _; refine (fun (hx : Keeps b x) => ?_) ?_; rotate_left; unfold x; clear x; rotate_right; clear_value x)
   | (extract_lets +onlyGivenNames x; clear_value x)
   | extract_lets +onlyGivenNames x
   | with_reducible apply onOdr_keeps
   | with_reducible apply onSfl_keeps
   | with_reducible apply sjPut_keeps
   | with_reducible refine keeps_foldl ?_ (fun d x h => ?_)
   | with_reducible refine keeps_ite (fun _ => ?_) (fun _ => ?_)
   | split

theorem resetCmd_keeps {b : Dev} {x0 : Dev} {x1 : Cmd} (hx0 : Keeps b x0) : Keeps b (Dev.resetCmd x0 x1) := by
  unfold Dev.resetCmd
  repeat' first
   | with_reducible assumption
   | (extract_lets +onlyGivenNames x; guard_hyp x : _ → _ := _; refine (fun (hf : ∀ d, Keeps b d → Keeps b (x d)) => ?_) ?_; rotate_left; unfold x; clear x; intro d h; beta_reduce; rotate_right; clear_value x)
   | (extract_lets +onlyGivenNames x; clear_value x)
   | extract_lets +onlyGivenNames x
   | with_reducible apply Cmd_endsAt_keeps
   | with_reducible apply cancelRows_keeps
   | with_reducible apply cancelUnits_keeps
   | with_reducible apply cmdEnds_keeps
   | with_reducible apply onCmd_keeps
   | with_reducible apply onQueue_keeps
   | with_reducible refine hf _ ?_
   | with_reducible refine keeps_ite (fun _ => ?_) (fun _ => ?_)

theorem resetQueue_keeps {b : Dev} {x0 : Dev} {x1 : Nat} (hx0 : Keeps b x0) : Keeps b (Dev.resetQueue x0 x1) := by
  unfold Dev.resetQueue
  repeat' first
   | with_reducible assumption
   | (generalize hp : Dev.pinsEnd _ _ = p; refine (fun (hk : KeepsP b p) => ?_) (keepsP_gen hp (pinsEnd_keeps ?_)); rotate_left; clear hp; clear p; rotate_right; clear hp; obtain ⟨y, z⟩ := p; replace hk : Keeps b z := hk; try dsimp -zeta only)
   | (extract_lets +onlyGivenNames x; guard_hyp x : Dev := _; refine (fun (hx : Keeps b x) => ?_) ?_; rotate_left; unfold x; clear x; rotate_right; clear_value x)
   | extract_lets +onlyGivenNames x
   | with_reducible apply capsuleAct_keeps
   | with_reducible apply dropXfer_keeps
   | with_reducible apply onQueue_keeps
   | with_reducible apply resetCmd_keeps
   | with_reducible refine keeps_foldl ?_ (fun d x h => ?_)

theorem queueOff_keeps {b : Dev} {x0 : Dev} {x1 : Nat} (hx0 : Keeps b x0) : Keeps b (Dev.queueOff x0 x1) := by
  unfold Dev.queueOff
  repeat' first
   | with_reducible assumption
   | (extract_lets +onlyGivenNames x; guard_hyp x : Dev := _; refine (fun (hx : Keeps b x) => ?_) ?_; rotate_left; unfold x; clear x; rotate_right; clear_value x)
   | (extract_lets +onlyGivenNames x; clear_value x)
   | extract_lets +onlyGivenNames x
   | with_reducible apply onHat_keeps
   | with_reducible apply onQueue_keeps
   | with_reducible apply resetQueue_keeps
   | with_reducible apply showQ_keeps
   | with_reducible apply wr_keeps
   | with_reducible refine keeps_ite (fun _ => ?_) (fun _ => ?_)

theorem flr_keeps {b : Dev} {x0 : Dev} (hx0 : Keeps b x0) : Keeps b (Dev.flr x0) := by
  unfold Dev.flr
  repeat' first
   | with_reducible assumption
   | extract_lets +onlyGivenNames x
   | with_reducible apply hatPump_keeps
   | with_reducible apply queueOff_keeps
   | with_reducible apply wr_keeps
   | with_reducible refine keeps_foldl ?_ (fun d x h => ?_)

theorem queueOn_keeps {b : Dev} {x0 : Dev} {x1 : Nat} {x2 : Nat} {x3 : Nat} {x4 : Nat} {x5 : Nat} {x6 : Nat} {x7 : Nat} {x8 : Nat} (hx0 : Keeps b x0) : Keeps b (Dev.queueOn x0 x1 x2 x3 x4 x5 x6 x7 x8) := by
  unfold Dev.queueOn
  repeat' first
   | with_reducible assumption
   | (extract_lets +onlyGivenNames x; guard_hyp x : Dev := _; refine (fun (hx : Keeps b x) => ?_) ?_; rotate_left; unfold x; clear x; rotate_right; clear_value x)
   | (extract_lets +onlyGivenNames x; clear_value x)
   | extract_lets +onlyGivenNames x
   | with_reducible apply onQueue_keeps
   | with_reducible apply showQ_keeps
   | with_reducible apply wr_keeps

theorem queueCreate_keeps {b : Dev} {x0 : Dev} {x1 : Cmd} (hx0 : Keeps b x0) : Keeps b (Dev.queueCreate x0 x1) := by
  unfold Dev.queueCreate
  repeat' first
   | with_reducible assumption
   | (extract_lets +onlyGivenNames x; clear_value x)
   | extract_lets +onlyGivenNames x
   | with_reducible apply Cmd_endsAt_keeps
   | with_reducible apply queueOn_keeps
   | with_reducible refine keeps_ite (fun _ => ?_) (fun _ => ?_)

theorem queueDelete_keeps {b : Dev} {x0 : Dev} {x1 : Cmd} (hx0 : Keeps b x0) : Keeps b (Dev.queueDelete x0 x1) := by
  unfold Dev.queueDelete
  repeat' first
   | with_reducible assumption
   | (extract_lets +onlyGivenNames x; clear_value x)
   | extract_lets +onlyGivenNames x
   | with_reducible apply Cmd_endsAt_keeps
   | with_reducible apply queueOff_keeps
   | with_reducible refine keeps_ite (fun _ => ?_) (fun _ => ?_)

theorem queueResets_keeps {b : Dev} {x0 : Dev} {x1 : Cmd} (hx0 : Keeps b x0) : Keeps b (Dev.queueResets x0 x1) := by
  unfold Dev.queueResets
  repeat' first
   | with_reducible assumption
   | (extract_lets +onlyGivenNames x; clear_value x)
   | extract_lets +onlyGivenNames x
   | with_reducible apply Cmd_endsAt_keeps
   | with_reducible apply onQueue_keeps
   | with_reducible apply resetQueue_keeps
   | with_reducible apply wr_keeps
   | with_reducible refine keeps_ite (fun _ => ?_) (fun _ => ?_)

theorem queueResetDone_keeps {b : Dev} {x0 : Dev} {x1 : Nat} (hx0 : Keeps b x0) : Keeps b (Dev.queueResetDone x0 x1) := by
  unfold Dev.queueResetDone
  repeat' first
   | with_reducible assumption
   | (extract_lets +onlyGivenNames x; guard_hyp x : Dev := _; refine (fun (hx : Keeps b x) => ?_) ?_; rotate_left; unfold x; clear x; rotate_right; clear_value x)
   | (extract_lets +onlyGivenNames x; clear_value x)
   | extract_lets +onlyGivenNames x
   | with_reducible apply cmdEnds_keeps
   | with_reducible apply hatPump_keeps
   | with_reducible apply onQueue_keeps
   | with_reducible apply showQ_keeps
   | with_reducible apply wr_keeps
   | with_reducible refine keeps_ite (fun _ => ?_) (fun _ => ?_)
   | split

theorem aqWrite_keeps {b : Dev} {x0 : Dev} {x1 : Nat} (hx0 : Keeps b x0) : Keeps b (Dev.aqWrite x0 x1) := by
  unfold Dev.aqWrite
  repeat' first
   | with_reducible assumption
   | (extract_lets +onlyGivenNames x; guard_hyp x : Dev := _; refine (fun (hx : Keeps b x) => ?_) ?_; rotate_left; unfold x; clear x; rotate_right; clear_value x)
   | (extract_lets +onlyGivenNames x; clear_value x)
   | extract_lets +onlyGivenNames x
   | with_reducible apply countIgnored_keeps
   | with_reducible apply hatPump_keeps
   | with_reducible apply queueOff_keeps
   | with_reducible apply queueOn_keeps
   | with_reducible apply wr_keeps
   | with_reducible refine keeps_ite (fun _ => ?_) (fun _ => ?_)

theorem setLink_keeps {b : Dev} {x0 : Dev} {x1 : Nat} {x2 : Nat} {x3 : Nat} (hx0 : Keeps b x0) : Keeps b (Dev.setLink x0 x1 x2 x3) := by
  unfold Dev.setLink
  repeat' first
   | with_reducible assumption
   | extract_lets +onlyGivenNames x
   | with_reducible apply wr_keeps

theorem linkDown_keeps {b : Dev} {x0 : Dev} (hx0 : Keeps b x0) : Keeps b (Dev.linkDown x0) := by
  unfold Dev.linkDown
  repeat' first
   | with_reducible assumption
   | extract_lets +onlyGivenNames x
   | with_reducible apply flr_keeps
   | with_reducible apply raise_keeps
   | with_reducible apply setLink_keeps
   | with_reducible refine keeps_ite (fun _ => ?_) (fun _ => ?_)

theorem sendHeld_keeps {b : Dev} {x0 : Dev} (hx0 : Keeps b x0) : Keeps b (Dev.sendHeld x0) := by
  unfold Dev.sendHeld
  repeat' first
   | with_reducible assumption
   | (extract_lets +onlyGivenNames x; guard_hyp x : Dev := _; refine (fun (hx : Keeps b x) => ?_) ?_; rotate_left; unfold x; clear x; rotate_right; clear_value x)
   | (extract_lets +onlyGivenNames x; clear_value x)
   | extract_lets +onlyGivenNames x
   | with_reducible apply eventMessage_keeps
   | with_reducible apply wr_keeps
   | with_reducible refine keeps_foldl ?_ (fun d x h => ?_)

theorem linkTrained_keeps {b : Dev} {x0 : Dev} {x1 : Nat} {x2 : Nat} {x3 : Nat} (hx0 : Keeps b x0) : Keeps b (Dev.linkTrained x0 x1 x2 x3) := by
  unfold Dev.linkTrained
  repeat' first
   | with_reducible assumption
   | with_reducible refine fun (d : Dev) (h : Keeps b d) => ?_
   | (extract_lets +onlyGivenNames x; guard_hyp x : Dev := _; refine (fun (hx : Keeps b x) => ?_) ?_; rotate_left; unfold x; clear x; rotate_right; clear_value x)
   | extract_lets +onlyGivenNames x
   | with_reducible apply raise_keeps
   | with_reducible apply sendHeld_keeps
   | with_reducible apply setLink_keeps
   | with_reducible apply when_keeps
   | with_reducible refine keeps_ite (fun _ => ?_) (fun _ => ?_)

theorem conventionalReset_keeps {b : Dev} {x0 : Dev} (hx0 : Keeps b x0) : Keeps b (Dev.conventionalReset x0) := by
  unfold Dev.conventionalReset
  repeat' first
   | with_reducible assumption
   | with_reducible exact fun h => h
   | with_reducible exact rfl
   | (extract_lets +onlyGivenNames x; guard_hyp x : Dev := _; refine (fun (hx : Keeps b x) => ?_) ?_; rotate_left; unfold x; clear x; rotate_right; clear_value x)
   | extract_lets +onlyGivenNames x
   | with_reducible apply flr_keeps
   | with_reducible apply linkDown_keeps
   | with_reducible apply onHat_keeps
   | with_reducible apply onPlat_keeps
   | with_reducible apply setRaw_keeps
   | with_reducible refine keeps_foldl ?_ (fun d x h => ?_)
   | with_reducible refine keeps_ite (fun _ => ?_) (fun _ => ?_)

theorem execWrite_keeps {x0 : Nat} {x1 : Nat} {x2 : State}  : Steps x2.dev x2 (execWrite x0 x1 x2) := by
  unfold execWrite
  refine steps_run (fun d h => ?_)
  repeat' first
   | with_reducible assumption
   | extract_lets +onlyGivenNames x
   | with_reducible apply beginsLocked_keeps

theorem execRead_keeps {x0 : Nat} {x1 : Nat} {x2 : State}  : Steps x2.dev x2 (execRead x0 x1 x2) := by
  unfold execRead
  refine steps_run (fun d h => ?_)
  repeat' first
   | with_reducible assumption
   | extract_lets +onlyGivenNames x
   | with_reducible apply beginsLocked_keeps

theorem execFlush_keeps {x0 : Nat} {x1 : Nat} {x2 : State}  : Steps x2.dev x2 (execFlush x0 x1 x2) := by
  unfold execFlush
  refine steps_run (fun d h => ?_)
  repeat' first
   | with_reducible assumption
   | with_reducible exact fun h => h
   | extract_lets +onlyGivenNames x
   | with_reducible apply Cmd_endsAt_keeps
   | with_reducible apply begins_keeps
   | split
   | intro m

theorem execFrameRead_keeps {x0 : Nat} {x1 : Nat} {x2 : State}  : Steps x2.dev x2 (execFrameRead x0 x1 x2) := by
  unfold execFrameRead
  refine steps_run (fun d h => ?_)
  repeat' first
   | with_reducible assumption
   | with_reducible exact fun h => h
   | extract_lets +onlyGivenNames x
   | with_reducible apply Cmd_endsAt_keeps
   | with_reducible apply begins_keeps
   | split
   | intro m

theorem execRangeRelease_keeps {x0 : Nat} {x1 : Nat} {x2 : State}  : Steps x2.dev x2 (execRangeRelease x0 x1 x2) := by
  unfold execRangeRelease
  refine steps_run (fun d h => ?_)
  repeat' first
   | with_reducible assumption
   | (extract_lets +onlyGivenNames x; clear_value x)
   | extract_lets +onlyGivenNames x
   | with_reducible apply Cmd_endsAt_keeps
   | with_reducible apply begins_keeps
   | with_reducible apply cmdEnds_keeps
   | with_reducible apply pinsEnd_keeps
   | split
   | with_reducible refine keeps_pair ?_ ‹_ = (_, _)›
   | intro m

theorem execMigrate_keeps {x0 : Nat} {x1 : Nat} {x2 : State}  : Steps x2.dev x2 (execMigrate x0 x1 x2) := by
  unfold execMigrate
  refine steps_run (fun d h => ?_)
  repeat' first
   | with_reducible assumption
   | extract_lets +onlyGivenNames x
   | with_reducible apply Cmd_endsAt_keeps
   | with_reducible apply begins_keeps
   | with_reducible apply onCmd_keeps
   | split
   | intro m

theorem execVerify_keeps {x0 : Nat} {x1 : Nat} {x2 : State}  : Steps x2.dev x2 (execVerify x0 x1 x2) := by
  unfold execVerify
  refine steps_run (fun d h => ?_)
  repeat' first
   | with_reducible assumption
   | with_reducible exact fun h => h
   | extract_lets +onlyGivenNames x
   | with_reducible apply Cmd_endsAt_keeps
   | with_reducible apply begins_keeps
   | split
   | intro m

theorem execMountShell_keeps {x0 : Nat} {x1 : Nat} {x2 : State}  : Steps x2.dev x2 (execMountShell x0 x1 x2) := by
  unfold execMountShell
  refine steps_run (fun d h => ?_)
  repeat' first
   | with_reducible assumption
   | extract_lets +onlyGivenNames x
   | with_reducible apply Cmd_endsAt_keeps
   | with_reducible apply begins_keeps
   | with_reducible apply mountStart_keeps
   | split
   | intro m

theorem execEjectShell_keeps {x0 : Nat} {x1 : Nat} {x2 : State}  : Steps x2.dev x2 (execEjectShell x0 x1 x2) := by
  unfold execEjectShell
  refine steps_run (fun d h => ?_)
  repeat' first
   | with_reducible assumption
   | extract_lets +onlyGivenNames x
   | with_reducible apply Cmd_endsAt_keeps
   | with_reducible apply begins_keeps
   | with_reducible apply ejectStart_keeps
   | split
   | intro m

theorem capsuleEvent_keeps {b : Dev} {x0 : Dev} {x1 : Cmd} {x2 : SesEvent} {x3 : Bool} (hx0 : Keeps b x0) : Keeps b (Dev.capsuleEvent x0 x1 x2 x3) := by
  unfold Dev.capsuleEvent
  repeat' first
   | with_reducible assumption
   | (extract_lets +onlyGivenNames x; clear_value x)
   | extract_lets +onlyGivenNames x
   | with_reducible apply Cmd_endsAt_keeps
   | with_reducible apply cmdEnds_keeps
   | with_reducible apply sesEvent_keeps
   | with_reducible refine keeps_ite (fun _ => ?_) (fun _ => ?_)

theorem execArm_keeps {x0 : Nat} {x1 : Nat} {x2 : State}  : Steps x2.dev x2 (execArm x0 x1 x2) := by
  unfold execArm
  refine steps_run (fun d h => ?_)
  repeat' first
   | with_reducible assumption
   | extract_lets +onlyGivenNames x
   | with_reducible apply begins_keeps
   | with_reducible apply capsuleEvent_keeps
   | intro m

theorem execTrigger_keeps {x0 : Nat} {x1 : Nat} {x2 : Nat} {x3 : State}  : Steps x3.dev x3 (execTrigger x0 x1 x2 x3) := by
  unfold execTrigger
  refine steps_run (fun d h => ?_)
  repeat' first
   | with_reducible assumption
   | extract_lets +onlyGivenNames x
   | with_reducible apply begins_keeps
   | with_reducible apply capsuleEvent_keeps
   | intro m

theorem execStop_keeps {x0 : Nat} {x1 : Nat} {x2 : State}  : Steps x2.dev x2 (execStop x0 x1 x2) := by
  unfold execStop
  refine steps_run (fun d h => ?_)
  repeat' first
   | with_reducible assumption
   | extract_lets +onlyGivenNames x
   | with_reducible apply begins_keeps
   | with_reducible apply capsuleEvent_keeps
   | intro m

theorem execDataDone_keeps {x0 : Nat} {x1 : Nat} {x2 : Nat} {x3 : State}  : Steps x3.dev x3 (execDataDone x0 x1 x2 x3) := by
  unfold execDataDone
  refine steps_run (fun d h => ?_)
  repeat' first
   | with_reducible assumption
   | extract_lets +onlyGivenNames x
   | with_reducible apply capsuleTake_keeps

theorem execRelease_keeps {x0 : Nat} {x1 : Nat} {x2 : Nat} {x3 : State}  : Steps x3.dev x3 (execRelease x0 x1 x2 x3) := by
  unfold execRelease
  refine steps_run (fun d h => ?_)
  repeat' first
   | with_reducible assumption
   | extract_lets +onlyGivenNames x
   | with_reducible apply capsuleTake_keeps

theorem execRangeLockGranted_keeps {x0 : Nat} {x1 : Nat} {x2 : State}  : Steps x2.dev x2 (execRangeLockGranted x0 x1 x2) := by
  unfold execRangeLockGranted
  refine steps_run (fun d h => ?_)
  repeat' first
   | with_reducible assumption
   | extract_lets +onlyGivenNames x
   | with_reducible apply lockGranted_keeps

theorem execQueueCreate_keeps {x0 : Nat} {x1 : State}  : Steps x1.dev x1 (execQueueCreate x0 x1) := by
  unfold execQueueCreate
  refine steps_run (fun d h => ?_)
  repeat' first
   | with_reducible assumption
   | extract_lets +onlyGivenNames x
   | with_reducible apply begins_keeps
   | with_reducible apply queueCreate_keeps

theorem execQueueDelete_keeps {x0 : Nat} {x1 : State}  : Steps x1.dev x1 (execQueueDelete x0 x1) := by
  unfold execQueueDelete
  refine steps_run (fun d h => ?_)
  repeat' first
   | with_reducible assumption
   | extract_lets +onlyGivenNames x
   | with_reducible apply begins_keeps
   | with_reducible apply queueDelete_keeps

theorem execQueueReset_keeps {x0 : Nat} {x1 : State}  : Steps x1.dev x1 (execQueueReset x0 x1) := by
  unfold execQueueReset
  refine steps_run (fun d h => ?_)
  repeat' first
   | with_reducible assumption
   | extract_lets +onlyGivenNames x
   | with_reducible apply begins_keeps
   | with_reducible apply queueResets_keeps

theorem execQueueResetDone_keeps {x0 : Nat} {x1 : State}  : Steps x1.dev x1 (execQueueResetDone x0 x1) := by
  unfold execQueueResetDone
  refine steps_run (fun d h => ?_)
  repeat' first
   | with_reducible assumption
   | extract_lets +onlyGivenNames x
   | with_reducible apply queueResetDone_keeps

theorem execHatAqEnable_keeps {x0 : Nat} {x1 : State}  : Steps x1.dev x1 (execHatAqEnable x0 x1) := by
  unfold execHatAqEnable
  refine steps_run (fun d h => ?_)
  repeat' first
   | with_reducible assumption
   | extract_lets +onlyGivenNames x
   | with_reducible apply aqWrite_keeps
   | with_reducible apply asWrite_keeps
   | intro m

theorem execHatAqDisable_keeps {x0 : Nat} {x1 : State}  : Steps x1.dev x1 (execHatAqDisable x0 x1) := by
  unfold execHatAqDisable
  refine steps_run (fun d h => ?_)
  repeat' first
   | with_reducible assumption
   | extract_lets +onlyGivenNames x
   | with_reducible apply aqWrite_keeps
   | with_reducible apply asWrite_keeps
   | intro m

theorem execFlr_keeps {x0 : State}  : Steps x0.dev x0 (execFlr x0) := by
  unfold execFlr
  refine steps_run (fun d h => ?_)
  repeat' first
   | with_reducible assumption
   | extract_lets +onlyGivenNames x
   | with_reducible apply flr_keeps

theorem execLinkDown_keeps {x0 : State}  : Steps x0.dev x0 (execLinkDown x0) := by
  unfold execLinkDown
  refine steps_run (fun d h => ?_)
  repeat' first
   | with_reducible assumption
   | extract_lets +onlyGivenNames x
   | with_reducible apply linkDown_keeps

theorem execLinkTrained_keeps {x0 : Nat} {x1 : Nat} {x2 : Nat} {x3 : State}  : Steps x3.dev x3 (execLinkTrained x0 x1 x2 x3) := by
  unfold execLinkTrained
  refine steps_run (fun d h => ?_)
  repeat' first
   | with_reducible assumption
   | extract_lets +onlyGivenNames x
   | with_reducible apply linkTrained_keeps

theorem execConventionalReset_keeps {x0 : State}  : Steps x0.dev x0 (execConventionalReset x0) := by
  unfold execConventionalReset
  refine steps_run (fun d h => ?_)
  repeat' first
   | with_reducible assumption
   | extract_lets +onlyGivenNames x
   | with_reducible apply conventionalReset_keeps

end Sys2Proof.Machine
end

