-- ==== Sys2Proof/Laws/Keeps/Inputs.lean ====
section
/-! SUPPORT. What every operation of Machine/Inputs.lean keeps. -/
namespace Sys2Proof.Machine
open Sys2Proof

set_option linter.unusedTactic false
set_option linter.unreachableTactic false
set_option linter.tactic.unusedName false

theorem setLevel_keeps {b : Dev} {x0 : Dev} {x1 : Nat} {x2 : Bool} (hx0 : Keeps b x0) : Keeps b (Dev.setLevel x0 x1 x2) := by
  unfold Dev.setLevel
  repeat' first
   | with_reducible assumption
   | with_reducible apply onMot_keeps

theorem showMot_keeps {b : Dev} {x0 : Dev} (hx0 : Keeps b x0) : Keeps b (Dev.showMot x0) := by
  unfold Dev.showMot
  repeat' first
   | with_reducible assumption
   | (extract_lets +onlyGivenNames x; guard_hyp x : Dev := _; refine (fun (hx : Keeps b x) => ?_) ?_; rotate_left; unfold x; clear x; rotate_right; clear_value x)
   | (extract_lets +onlyGivenNames x; clear_value x)
   | extract_lets +onlyGivenNames x
   | with_reducible apply wr_keeps
   | with_reducible apply wrB_keeps

theorem shockNow_keeps {b : Dev} {x0 : Dev} {x1 : Nat} {x2 : Nat} (hx0 : Keeps b x0) : Keeps b (Dev.shockNow x0 x1 x2) := by
  unfold Dev.shockNow
  repeat' first
   | with_reducible assumption
   | extract_lets +onlyGivenNames x
   | with_reducible apply guardSet_keeps
   | with_reducible apply showMot_keeps

theorem shock_keeps {b : Dev} {x0 : Dev} {x1 : Nat} {x2 : Nat} {x3 : Bool} (hx0 : Keeps b x0) : Keeps b (Dev.shock x0 x1 x2 x3) := by
  unfold Dev.shock
  repeat' first
   | with_reducible assumption
   | extract_lets +onlyGivenNames x
   | with_reducible apply setLevel_keeps
   | with_reducible apply shockNow_keeps

theorem motionStop_keeps {b : Dev} {x0 : Dev} (hx0 : Keeps b x0) : Keeps b (Dev.motionStop x0) := by
  unfold Dev.motionStop
  repeat' first
   | with_reducible assumption
   | (extract_lets +onlyGivenNames x; guard_hyp x : Dev := _; refine (fun (hx : Keeps b x) => ?_) ?_; rotate_left; unfold x; clear x; rotate_right; clear_value x)
   | extract_lets +onlyGivenNames x
   | with_reducible apply axisKill_keeps
   | with_reducible apply holdAbort_keeps
   | with_reducible apply retractPark_keeps
   | with_reducible apply spinKill_keeps
   | with_reducible refine keeps_foldl ?_ (fun d x h => ?_)

theorem estop_keeps {b : Dev} {x0 : Dev} (hx0 : Keeps b x0) : Keeps b (Dev.estop x0) := by
  unfold Dev.estop
  repeat' first
   | with_reducible assumption
   | (extract_lets +onlyGivenNames x; guard_hyp x : Dev := _; refine (fun (hx : Keeps b x) => ?_) ?_; rotate_left; unfold x; clear x; rotate_right; clear_value x)
   | extract_lets +onlyGivenNames x
   | with_reducible apply count_keeps
   | with_reducible apply motionStop_keeps
   | with_reducible apply raise_keeps
   | with_reducible apply showMot_keeps
   | with_reducible apply wr_keeps

theorem flashStop_keeps {b : Dev} {x0 : Dev} (hx0 : Keeps b x0) : Keeps b (Dev.flashStop x0) := by
  unfold Dev.flashStop
  repeat' first
   | with_reducible assumption
   | with_reducible exact fun h => h
   | with_reducible exact rfl
   | extract_lets +onlyGivenNames x
   | with_reducible apply onPlat_keeps
   | with_reducible apply onSfl_keeps
   | with_reducible refine keeps_ite (fun _ => ?_) (fun _ => ?_)

theorem powerSequence_keeps {b : Dev} {x0 : Dev} (hx0 : Keeps b x0) : Keeps b (Dev.powerSequence x0) := by
  unfold Dev.powerSequence
  repeat' first
   | with_reducible assumption
   | extract_lets +onlyGivenNames x
   | with_reducible apply count_keeps
   | with_reducible apply flashStop_keeps
   | with_reducible apply motionStop_keeps
   | with_reducible apply wr_keeps

theorem powerFail_keeps {b : Dev} {x0 : Dev} (hx0 : Keeps b x0) : Keeps b (Dev.powerFail x0) := by
  unfold Dev.powerFail
  repeat' first
   | with_reducible assumption
   | with_reducible exact fun h => h
   | with_reducible exact fun _ => Nat.le_refl _
   | with_reducible exact rfl
   | (extract_lets +onlyGivenNames x; guard_hyp x : Dev := _; refine (fun (hx : Keeps b x) => ?_) ?_; rotate_left; unfold x; clear x; rotate_right; clear_value x)
   | extract_lets +onlyGivenNames x
   | with_reducible apply mramPut_keeps
   | with_reducible apply onPlat_keeps
   | with_reducible apply powerSequence_keeps
   | with_reducible apply put64_keeps
   | with_reducible apply showMot_keeps
   | with_reducible apply wr_keeps

theorem estopClr_keeps {b : Dev} {x0 : Dev} {x1 : Nat} (hx0 : Keeps b x0) : Keeps b (Dev.estopClr x0 x1) := by
  unfold Dev.estopClr
  repeat' first
   | with_reducible assumption
   | extract_lets +onlyGivenNames x
   | with_reducible apply count_keeps
   | with_reducible apply countIgnored_keeps
   | with_reducible apply wr_keeps
   | with_reducible refine keeps_ite (fun _ => ?_) (fun _ => ?_)

theorem chatter_keeps {b : Dev} {x0 : Dev} {x1 : Nat} (hx0 : Keeps b x0) : Keeps b (Dev.chatter x0 x1) := by
  unfold Dev.chatter
  repeat' first
   | with_reducible assumption
   | (extract_lets +onlyGivenNames x; guard_hyp x : Dev := _; refine (fun (hx : Keeps b x) => ?_) ?_; rotate_left; unfold x; clear x; rotate_right; clear_value x)
   | (extract_lets +onlyGivenNames x; clear_value x)
   | extract_lets +onlyGivenNames x
   | with_reducible apply count_keeps
   | with_reducible apply estop_keeps
   | with_reducible apply homeFails_keeps
   | with_reducible apply limitStops_keeps
   | with_reducible apply onMot_keeps
   | with_reducible apply powerFail_keeps
   | with_reducible apply raise_keeps
   | with_reducible apply shockNow_keeps
   | with_reducible apply showInputs_keeps
   | with_reducible apply showMot_keeps
   | with_reducible refine keeps_ite (fun _ => ?_) (fun _ => ?_)

theorem chatterClear_keeps {b : Dev} {x0 : Dev} {x1 : Nat} {x2 : Bool} (hx0 : Keeps b x0) : Keeps b (Dev.chatterClear x0 x1 x2) := by
  unfold Dev.chatterClear
  repeat' first
   | with_reducible assumption
   | (extract_lets +onlyGivenNames x; guard_hyp x : Dev := _; refine (fun (hx : Keeps b x) => ?_) ?_; rotate_left; unfold x; clear x; rotate_right; clear_value x)
   | extract_lets +onlyGivenNames x
   | with_reducible apply onMot_keeps
   | with_reducible apply setLevel_keeps
   | with_reducible apply shockNow_keeps
   | with_reducible apply showInputs_keeps
   | with_reducible apply showMot_keeps
   | with_reducible apply wr_keeps
   | with_reducible refine keeps_ite (fun _ => ?_) (fun _ => ?_)

theorem inStuck_keeps {b : Dev} {x0 : Dev} {x1 : Nat} (hx0 : Keeps b x0) : Keeps b (Dev.inStuck x0 x1) := by
  unfold Dev.inStuck
  repeat' first
   | with_reducible assumption
   | extract_lets +onlyGivenNames x
   | with_reducible apply count_keeps
   | with_reducible apply raise_keeps
   | with_reducible refine keeps_ite (fun _ => ?_) (fun _ => ?_)

theorem genlock_keeps {b : Dev} {x0 : Dev} {x1 : Bool} {x2 : Nat} (hx0 : Keeps b x0) : Keeps b (Dev.genlock x0 x1 x2) := by
  unfold Dev.genlock
  repeat' first
   | with_reducible assumption
   | extract_lets +onlyGivenNames x
   | with_reducible apply count_keeps
   | with_reducible apply put64_keeps
   | with_reducible apply wr_keeps
   | with_reducible refine keeps_ite (fun _ => ?_) (fun _ => ?_)

theorem stCmd_keeps {b : Dev} {x0 : Dev} {x1 : Nat} {x2 : Nat} (hx0 : Keeps b x0) : Keeps b (Dev.stCmd x0 x1 x2) := by
  unfold Dev.stCmd
  repeat' first
   | with_reducible assumption
   | extract_lets +onlyGivenNames x
   | with_reducible apply axisHome_keeps
   | with_reducible apply axisMove_keeps
   | with_reducible apply axisStop_keeps
   | with_reducible apply countIgnored_keeps
   | with_reducible refine keeps_ite (fun _ => ?_) (fun _ => ?_)
   | split

theorem stepTimer_keeps {b : Dev} {x0 : Dev} {x1 : Nat} (hx0 : Keeps b x0) : Keeps b (Dev.stepTimer x0 x1) := by
  unfold Dev.stepTimer
  repeat' first
   | with_reducible assumption
   | (extract_lets +onlyGivenNames x; guard_hyp x : Dev := _; refine (fun (hx : Keeps b x) => ?_) ?_; rotate_left; unfold x; clear x; rotate_right; clear_value x)
   | (extract_lets +onlyGivenNames x; clear_value x)
   | extract_lets +onlyGivenNames x
   | with_reducible apply seekMoved_keeps
   | with_reducible apply stepExpires_keeps
   | with_reducible refine keeps_ite (fun _ => ?_) (fun _ => ?_)

theorem homeTimeout_keeps {b : Dev} {x0 : Dev} {x1 : Nat} (hx0 : Keeps b x0) : Keeps b (Dev.homeTimeout x0 x1) := by
  unfold Dev.homeTimeout
  repeat' first
   | with_reducible assumption
   | (extract_lets +onlyGivenNames x; clear_value x)
   | extract_lets +onlyGivenNames x
   | with_reducible apply homeFails_keeps
   | with_reducible refine keeps_ite (fun _ => ?_) (fun _ => ?_)

theorem execShockInput_keeps {x0 : Nat} {x1 : Nat} {x2 : State}  : Steps x2.dev x2 (execShockInput x0 x1 x2) := by
  unfold execShockInput
  refine steps_run (fun d h => ?_)
  repeat' first
   | with_reducible assumption
   | extract_lets +onlyGivenNames x
   | with_reducible apply shock_keeps

theorem execShockRelease_keeps {x0 : Nat} {x1 : State}  : Steps x1.dev x1 (execShockRelease x0 x1) := by
  unfold execShockRelease
  refine steps_run (fun d h => ?_)
  repeat' first
   | with_reducible assumption
   | extract_lets +onlyGivenNames x
   | with_reducible apply shock_keeps

theorem execStepTimerExpiry_keeps {x0 : Nat} {x1 : State}  : Steps x1.dev x1 (execStepTimerExpiry x0 x1) := by
  unfold execStepTimerExpiry
  refine steps_run (fun d h => ?_)
  repeat' first
   | with_reducible assumption
   | extract_lets +onlyGivenNames x
   | with_reducible apply stepTimer_keeps

theorem execHoldCurrentTimer_keeps {x0 : Nat} {x1 : State}  : Steps x1.dev x1 (execHoldCurrentTimer x0 x1) := by
  unfold execHoldCurrentTimer
  refine steps_run (fun d h => ?_)
  repeat' first
   | with_reducible assumption
   | extract_lets +onlyGivenNames x
   | with_reducible apply holdCurrent_keeps

theorem execChopperComparator_keeps {x0 : Nat} {x1 : Nat} {x2 : Nat} {x3 : Nat} {x4 : Nat} {x5 : Nat} {x6 : Nat} {x7 : State}  : Steps x7.dev x7 (execChopperComparator x0 x1 x2 x3 x4 x5 x6 x7) := by
  unfold execChopperComparator
  refine steps_run (fun d h => ?_)
  repeat' first
   | with_reducible assumption
   | extract_lets +onlyGivenNames x
   | with_reducible apply chop_keeps

theorem execStCmdMove_keeps {x0 : Nat} {x1 : State}  : Steps x1.dev x1 (execStCmdMove x0 x1) := by
  unfold execStCmdMove
  refine steps_run (fun d h => ?_)
  repeat' first
   | with_reducible assumption
   | extract_lets +onlyGivenNames x
   | with_reducible apply asWrite_keeps
   | with_reducible apply stCmd_keeps
   | intro m

theorem execStCmdHome_keeps {x0 : Nat} {x1 : State}  : Steps x1.dev x1 (execStCmdHome x0 x1) := by
  unfold execStCmdHome
  refine steps_run (fun d h => ?_)
  repeat' first
   | with_reducible assumption
   | extract_lets +onlyGivenNames x
   | with_reducible apply asWrite_keeps
   | with_reducible apply stCmd_keeps
   | intro m

theorem execStCmdStop_keeps {x0 : Nat} {x1 : State}  : Steps x1.dev x1 (execStCmdStop x0 x1) := by
  unfold execStCmdStop
  refine steps_run (fun d h => ?_)
  repeat' first
   | with_reducible assumption
   | extract_lets +onlyGivenNames x
   | with_reducible apply asWrite_keeps
   | with_reducible apply stCmd_keeps
   | intro m

theorem execStCmdPark_keeps {x0 : Nat} {x1 : State}  : Steps x1.dev x1 (execStCmdPark x0 x1) := by
  unfold execStCmdPark
  refine steps_run (fun d h => ?_)
  repeat' first
   | with_reducible assumption
   | extract_lets +onlyGivenNames x
   | with_reducible apply asWrite_keeps
   | with_reducible apply stCmd_keeps
   | intro m

theorem execHomeInput_keeps {x0 : Nat} {x1 : Bool} {x2 : State}  : Steps x2.dev x2 (execHomeInput x0 x1 x2) := by
  unfold execHomeInput
  refine steps_run (fun d h => ?_)
  repeat' first
   | with_reducible assumption
   | extract_lets +onlyGivenNames x
   | with_reducible apply homeInput_keeps

theorem execHomeFail_keeps {x0 : Nat} {x1 : State}  : Steps x1.dev x1 (execHomeFail x0 x1) := by
  unfold execHomeFail
  refine steps_run (fun d h => ?_)
  repeat' first
   | with_reducible assumption
   | extract_lets +onlyGivenNames x
   | with_reducible apply homeTimeout_keeps

theorem execLimitInput_keeps {x0 : Nat} {x1 : Nat} {x2 : Bool} {x3 : State}  : Steps x3.dev x3 (execLimitInput x0 x1 x2 x3) := by
  unfold execLimitInput
  refine steps_run (fun d h => ?_)
  repeat' first
   | with_reducible assumption
   | extract_lets +onlyGivenNames x
   | with_reducible apply limitInput_keeps

theorem execEstop_keeps {x0 : State}  : Steps x0.dev x0 (execEstop x0) := by
  unfold execEstop
  refine steps_run (fun d h => ?_)
  repeat' first
   | with_reducible assumption
   | extract_lets +onlyGivenNames x
   | with_reducible apply estop_keeps
   | with_reducible apply setLevel_keeps

theorem execEstopNRelease_keeps {x0 : State}  : Steps x0.dev x0 (execEstopNRelease x0) := by
  unfold execEstopNRelease
  refine steps_run (fun d h => ?_)
  repeat' first
   | with_reducible assumption
   | extract_lets +onlyGivenNames x
   | with_reducible apply setLevel_keeps
   | with_reducible apply showMot_keeps

theorem execMotCtrlEstopClr_keeps {x0 : Nat} {x1 : State}  : Steps x1.dev x1 (execMotCtrlEstopClr x0 x1) := by
  unfold execMotCtrlEstopClr
  refine steps_run (fun d h => ?_)
  repeat' first
   | with_reducible assumption
   | extract_lets +onlyGivenNames x
   | with_reducible apply asWrite_keeps
   | with_reducible apply estopClr_keeps
   | intro m

theorem execChatter_keeps {x0 : Nat} {x1 : State}  : Steps x1.dev x1 (execChatter x0 x1) := by
  unfold execChatter
  refine steps_run (fun d h => ?_)
  repeat' first
   | with_reducible assumption
   | extract_lets +onlyGivenNames x
   | with_reducible apply chatter_keeps

theorem execChatterClear_keeps {x0 : Nat} {x1 : Bool} {x2 : State}  : Steps x2.dev x2 (execChatterClear x0 x1 x2) := by
  unfold execChatterClear
  refine steps_run (fun d h => ?_)
  repeat' first
   | with_reducible assumption
   | extract_lets +onlyGivenNames x
   | with_reducible apply chatterClear_keeps

theorem execInStuck_keeps {x0 : Nat} {x1 : State}  : Steps x1.dev x1 (execInStuck x0 x1) := by
  unfold execInStuck
  refine steps_run (fun d h => ?_)
  repeat' first
   | with_reducible assumption
   | extract_lets +onlyGivenNames x
   | with_reducible apply inStuck_keeps

theorem execGenlockEdge_keeps {x0 : Bool} {x1 : Nat} {x2 : State}  : Steps x2.dev x2 (execGenlockEdge x0 x1 x2) := by
  unfold execGenlockEdge
  refine steps_run (fun d h => ?_)
  repeat' first
   | with_reducible assumption
   | extract_lets +onlyGivenNames x
   | with_reducible apply genlock_keeps

end Sys2Proof.Machine
end

