-- ==== Sys2Proof/Laws/Keeps/Safe.lean ====
section
/-! SUPPORT. What every operation of Machine/Safe.lean keeps. -/
namespace Sys2Proof.Machine
open Sys2Proof

set_option linter.unusedTactic false
set_option linter.unreachableTactic false
set_option linter.tactic.unusedName false

theorem safeState_keeps {b : Dev} {x0 : Dev} {x1 : Nat} {x2 : Nat} (hx0 : Keeps b x0) : Keeps b (Dev.safeState x0 x1 x2) := by
  unfold Dev.safeState
  repeat' first
   | with_reducible assumption
   | with_reducible exact fun h => h
   | with_reducible exact rfl
   | (extract_lets +onlyGivenNames x; guard_hyp x : Dev := _; refine (fun (hx : Keeps b x) => ?_) ?_; rotate_left; unfold x; clear x; rotate_right; clear_value x)
   | extract_lets +onlyGivenNames x
   | with_reducible apply holdAbortAll_keeps
   | with_reducible apply logChip_keeps
   | with_reducible apply onPlat_keeps
   | with_reducible apply onSfl_keeps
   | with_reducible apply raiseAtLeast_keeps
   | with_reducible apply wr_keeps
   | with_reducible refine keeps_ite (fun _ => ?_) (fun _ => ?_)
   | intro m

theorem safeStops_keeps {b : Dev} {x0 : Dev} (hx0 : Keeps b x0) : Keeps b (Dev.safeStops x0) := by
  unfold Dev.safeStops
  repeat' first
   | with_reducible assumption
   | (extract_lets +onlyGivenNames x; guard_hyp x : Dev := _; refine (fun (hx : Keeps b x) => ?_) ?_; rotate_left; unfold x; clear x; rotate_right; clear_value x)
   | extract_lets +onlyGivenNames x
   | with_reducible apply axisStop_keeps
   | with_reducible apply retractPark_keeps
   | with_reducible apply stopSpin_keeps
   | with_reducible refine keeps_foldl ?_ (fun d x h => ?_)

theorem dropRecorder_keeps {b : Dev} {x0 : Dev} {x1 : Nat} (hx0 : Keeps b x0) : Keeps b (Dev.dropRecorder x0 x1) := by
  unfold Dev.dropRecorder
  repeat' first
   | with_reducible assumption
   | (extract_lets +onlyGivenNames x; guard_hyp x : Dev := _; refine (fun (hx : Keeps b x) => ?_) ?_; rotate_left; unfold x; clear x; rotate_right; clear_value x)
   | (extract_lets +onlyGivenNames x; clear_value x)
   | extract_lets +onlyGivenNames x
   | with_reducible apply onCmd_keeps
   | with_reducible apply onRecorder_keeps
   | with_reducible apply showQueue_keeps
   | with_reducible refine keeps_foldl ?_ (fun d x h => ?_)
   | split

theorem fencedDiscs_keeps {b : Dev} {x0 : Dev} (hx0 : Keeps b x0) : Keeps b (Dev.fencedDiscs x0) := by
  unfold Dev.fencedDiscs
  repeat' first
   | with_reducible assumption
   | (extract_lets +onlyGivenNames x; guard_hyp x : Dev := _; refine (fun (hx : Keeps b x) => ?_) ?_; rotate_left; unfold x; clear x; rotate_right; clear_value x)
   | (extract_lets +onlyGivenNames x; clear_value x)
   | extract_lets +onlyGivenNames x
   | with_reducible apply cmdEnds_keeps
   | with_reducible apply dropRecs_keeps
   | with_reducible apply dropWants_keeps
   | with_reducible refine keeps_foldl ?_ (fun d x h => ?_)
   | with_reducible refine keeps_ite (fun _ => ?_) (fun _ => ?_)

theorem driveFenced_keeps {b : Dev} {x0 : Dev} {x1 : Nat} (hx0 : Keeps b x0) : Keeps b (Dev.driveFenced x0 x1) := by
  unfold Dev.driveFenced
  repeat' first
   | with_reducible assumption
   | (extract_lets +onlyGivenNames x; guard_hyp x : Dev := _; refine (fun (hx : Keeps b x) => ?_) ?_; rotate_left; unfold x; clear x; rotate_right; clear_value x)
   | extract_lets +onlyGivenNames x
   | with_reducible apply axisKill_keeps
   | with_reducible apply dropRecorder_keeps
   | with_reducible apply fencedDiscs_keeps
   | with_reducible apply recAbort_keeps
   | with_reducible apply spinKill_keeps
   | with_reducible refine keeps_ite (fun _ => ?_) (fun _ => ?_)

theorem coreGone_keeps {b : Dev} {x0 : Dev} {x1 : Nat} (hx0 : Keeps b x0) : Keeps b (Dev.coreGone x0 x1) := by
  unfold Dev.coreGone
  repeat' first
   | with_reducible assumption
   | (extract_lets +onlyGivenNames x; guard_hyp x : Dev := _; refine (fun (hx : Keeps b x) => ?_) ?_; rotate_left; unfold x; clear x; rotate_right; clear_value x)
   | (extract_lets +onlyGivenNames x; clear_value x)
   | extract_lets +onlyGivenNames x
   | with_reducible apply cmdComplete_keeps
   | with_reducible apply cmdEnds_keeps
   | with_reducible apply dropXfer_keeps
   | with_reducible apply revokeOwner_keeps
   | with_reducible apply setBufEnt_keeps
   | with_reducible apply wr_keeps
   | with_reducible refine keeps_foldl ?_ (fun d x h => ?_)
   | split

theorem lunGone_keeps {b : Dev} {x0 : Dev} {x1 : Nat} (hx0 : Keeps b x0) : Keeps b (Dev.lunGone x0 x1) := by
  unfold Dev.lunGone
  repeat' first
   | with_reducible assumption
   | (extract_lets +onlyGivenNames x; guard_hyp x : Dev := _; refine (fun (hx : Keeps b x) => ?_) ?_; rotate_left; unfold x; clear x; rotate_right; clear_value x)
   | (extract_lets +onlyGivenNames x; clear_value x)
   | extract_lets +onlyGivenNames x
   | with_reducible apply lunsLost_keeps
   | with_reducible apply onSfl_keeps
   | with_reducible refine keeps_ite (fun _ => ?_) (fun _ => ?_)

theorem cellGone_keeps {b : Dev} {x0 : Dev} {x1 : Cell} {x2 : Option (Nat × Nat)} (hx0 : Keeps b x0) : Keeps b (Dev.cellGone x0 x1 x2) := by
  unfold Dev.cellGone
  repeat' first
   | with_reducible assumption
   | (extract_lets +onlyGivenNames x; guard_hyp x : Dev := _; refine (fun (hx : Keeps b x) => ?_) ?_; rotate_left; unfold x; clear x; rotate_right; clear_value x)
   | (extract_lets +onlyGivenNames x; guard_hyp x : _ → _ := _; refine (fun (hl0 : ∀ y0 y1, Keeps b (x y0 y1)) => ?_) ?_; rotate_left; unfold x; clear x; intro y0 y1 ; beta_reduce; rotate_right; clear_value x)
   | extract_lets +onlyGivenNames x
   | with_reducible apply coreGone_keeps
   | with_reducible apply decoderFrees_keeps
   | with_reducible apply fence1_keeps
   | with_reducible apply lunGone_keeps
   | with_reducible apply setUnit_keeps
   | with_reducible apply wr_keeps
   | with_reducible exact hl0 _ _ 
   | with_reducible refine keeps_ite (fun _ => ?_) (fun _ => ?_)
   | split

theorem revokeWork_keeps {b : Dev} {x0 : Dev} {x1 : Nat} (hx0 : Keeps b x0) : Keeps b (Dev.revokeWork x0 x1) := by
  unfold Dev.revokeWork
  repeat' first
   | with_reducible assumption
   | (extract_lets +onlyGivenNames x; guard_hyp x : Dev := _; refine (fun (hx : Keeps b x) => ?_) ?_; rotate_left; unfold x; clear x; rotate_right; clear_value x)
   | extract_lets +onlyGivenNames x
   | with_reducible apply channelLost_keeps
   | with_reducible apply driveFenced_keeps
   | with_reducible apply ldrAbandon_keeps
   | with_reducible apply revokeOwner_keeps
   | with_reducible refine keeps_foldl ?_ (fun d x h => ?_)
   | split

theorem unitFenced_keeps {b : Dev} {x0 : Dev} {x1 : Nat} {x2 : Option (Nat × Nat)} (hx0 : Keeps b x0) : Keeps b (Dev.unitFenced x0 x1 x2) := by
  unfold Dev.unitFenced
  repeat' first
   | with_reducible assumption
   | extract_lets +onlyGivenNames x
   | with_reducible apply cellGone_keeps
   | with_reducible apply revokeWork_keeps
   | with_reducible apply setUnit_keeps
   | split

theorem fenceConfirmed_keeps {b : Dev} {x0 : Dev} {x1 : Fence} (hx0 : Keeps b x0) : Keeps b (Dev.fenceConfirmed x0 x1) := by
  unfold Dev.fenceConfirmed
  repeat' first
   | with_reducible assumption
   | with_reducible exact fun h => h
   | with_reducible exact rfl
   | with_reducible refine fun (d : Dev) (h : Keeps b d) => ?_
   | (extract_lets +onlyGivenNames x; guard_hyp x : Dev := _; refine (fun (hx : Keeps b x) => ?_) ?_; rotate_left; unfold x; clear x; rotate_right; clear_value x)
   | extract_lets +onlyGivenNames x
   | with_reducible apply hatPump_keeps
   | with_reducible apply onPlat_keeps
   | with_reducible apply unitFenced_keeps
   | with_reducible apply when_keeps
   | with_reducible refine keeps_foldl ?_ (fun d x h => ?_)

theorem fenceLate_keeps {b : Dev} {x0 : Dev} {x1 : Fence} (hx0 : Keeps b x0) : Keeps b (Dev.fenceLate x0 x1) := by
  unfold Dev.fenceLate
  repeat' first
   | with_reducible assumption
   | with_reducible exact fun h => h
   | with_reducible exact rfl
   | (extract_lets +onlyGivenNames x; guard_hyp x : Dev := _; refine (fun (hx : Keeps b x) => ?_) ?_; rotate_left; unfold x; clear x; rotate_right; clear_value x)
   | (extract_lets +onlyGivenNames x; guard_hyp x : _ → _ := _; refine (fun (hl0 : ∀ (d0 : Dev) y1, Keeps b d0 → Keeps b (x d0 y1)) => ?_) ?_; rotate_left; unfold x; clear x; intro d0 y1 hd0; beta_reduce; rotate_right; clear_value x)
   | extract_lets +onlyGivenNames x
   | with_reducible apply fence1_keeps
   | with_reducible apply hatPump_keeps
   | with_reducible apply onPlat_keeps
   | with_reducible apply raiseAtLeast_keeps
   | with_reducible apply safeState_keeps
   | with_reducible refine hl0 _ _ ?_
   | with_reducible refine keeps_ite (fun _ => ?_) (fun _ => ?_)
   | split

theorem execFenceConfirm_keeps {x0 : Nat} {x1 : State}  : Steps x1.dev x1 (execFenceConfirm x0 x1) := by
  unfold execFenceConfirm
  refine steps_run (fun d h => ?_)
  repeat' first
   | with_reducible assumption
   | extract_lets +onlyGivenNames x
   | with_reducible apply fenceConfirmed_keeps
   | split

theorem execFenceTimeout_keeps {x0 : Nat} {x1 : State}  : Steps x1.dev x1 (execFenceTimeout x0 x1) := by
  unfold execFenceTimeout
  refine steps_run (fun d h => ?_)
  repeat' first
   | with_reducible assumption
   | extract_lets +onlyGivenNames x
   | with_reducible apply fenceLate_keeps
   | split

end Sys2Proof.Machine
end

