-- ==== Sys2Proof/Laws/Keeps/Units.lean ====
section
/-! SUPPORT. What every operation of Machine/Units.lean keeps. -/
namespace Sys2Proof.Machine
open Sys2Proof

set_option linter.unusedTactic false
set_option linter.unreachableTactic false
set_option linter.tactic.unusedName false

theorem headStart_keeps {b : Dev} {x0 : Dev} {x1 : Nat} (hx0 : Keeps b x0) : Keeps b (Dev.headStart x0 x1) := by
  unfold Dev.headStart
  repeat' first
   | with_reducible assumption
   | extract_lets +onlyGivenNames x
   | with_reducible apply laneJoin_keeps
   | with_reducible refine keeps_foldl ?_ (fun d x h => ?_)

theorem headStop_keeps {b : Dev} {x0 : Dev} {x1 : Nat} (hx0 : Keeps b x0) : Keeps b (Dev.headStop x0 x1) := by
  unfold Dev.headStop
  repeat' first
   | with_reducible assumption
   | extract_lets +onlyGivenNames x
   | with_reducible apply laneLeave_keeps
   | with_reducible refine keeps_foldl ?_ (fun d x h => ?_)

theorem activeWork_keeps {b : Dev} {x0 : Dev} {x1 : Nat} (hx0 : Keeps b x0) : Keeps b (Dev.activeWork x0 x1) := by
  unfold Dev.activeWork
  repeat' first
   | with_reducible assumption
   | (extract_lets +onlyGivenNames x; guard_hyp x : Dev := _; refine (fun (hx : Keeps b x) => ?_) ?_; rotate_left; unfold x; clear x; rotate_right; clear_value x)
   | extract_lets +onlyGivenNames x
   | with_reducible apply creditsPaid_keeps
   | with_reducible apply discReturns_keeps
   | with_reducible apply onAxis_keeps
   | with_reducible apply ownerReturns_keeps
   | with_reducible refine keeps_foldl ?_ (fun d x h => ?_)
   | split

theorem unitActive_keeps {b : Dev} {x0 : Dev} {x1 : Nat} (hx0 : Keeps b x0) : Keeps b (Dev.unitActive x0 x1) := by
  unfold Dev.unitActive
  repeat' first
   | with_reducible assumption
   | with_reducible refine fun (d : Dev) (h : Keeps b d) => ?_
   | (extract_lets +onlyGivenNames x; guard_hyp x : Dev := _; refine (fun (hx : Keeps b x) => ?_) ?_; rotate_left; unfold x; clear x; rotate_right; clear_value x)
   | extract_lets +onlyGivenNames x
   | with_reducible apply activeWork_keeps
   | with_reducible apply onBpm_keeps
   | with_reducible apply setUnit_keeps
   | with_reducible apply when_keeps
   | split

theorem driveLeaves_keeps {b : Dev} {x0 : Dev} {x1 : Nat} {x2 : UnitSt} (hx0 : Keeps b x0) : Keeps b (Dev.driveLeaves x0 x1 x2) := by
  unfold Dev.driveLeaves
  repeat' first
   | with_reducible assumption
   | with_reducible refine fun (d : Dev) (h : Keeps b d) => ?_
   | extract_lets +onlyGivenNames x
   | with_reducible apply calRequired_keeps
   | with_reducible apply spinUnfault_keeps
   | with_reducible apply when_keeps

theorem unitIgnored_keeps {b : Dev} {x0 : Dev} {x1 : Nat} (hx0 : Keeps b x0) : Keeps b (Dev.unitIgnored x0 x1) := by
  unfold Dev.unitIgnored
  repeat' first
   | with_reducible assumption
   | with_reducible apply countIgnored_keeps

theorem unitOn_keeps {b : Dev} {x0 : Dev} {x1 : Nat} (hx0 : Keeps b x0) : Keeps b (Dev.unitOn x0 x1) := by
  unfold Dev.unitOn
  repeat' first
   | with_reducible assumption
   | extract_lets +onlyGivenNames x
   | with_reducible apply headStart_keeps
   | with_reducible apply setUnit_keeps
   | with_reducible apply streamStart_keeps
   | with_reducible apply unitActive_keeps
   | with_reducible apply unitIgnored_keeps
   | with_reducible apply wr_keeps
   | with_reducible refine keeps_ite (fun _ => ?_) (fun _ => ?_)
   | split

theorem groupOff_keeps {b : Dev} {x0 : Dev} {x1 : Nat} {x2 : UnitSt} (hx0 : Keeps b x0) : Keeps b (Dev.groupOff x0 x1 x2) := by
  unfold Dev.groupOff
  repeat' first
   | with_reducible assumption
   | with_reducible refine fun (d : Dev) (h : Keeps b d) => ?_
   | (extract_lets +onlyGivenNames x; guard_hyp x : Dev := _; refine (fun (hx : Keeps b x) => ?_) ?_; rotate_left; unfold x; clear x; rotate_right; clear_value x)
   | with_reducible apply closeStopped_keeps
   | with_reducible apply streamStop_keeps
   | with_reducible apply when_keeps

theorem offWork_keeps {b : Dev} {x0 : Dev} {x1 : Nat} {x2 : UnitSt} (hx0 : Keeps b x0) : Keeps b (Dev.offWork x0 x1 x2) := by
  unfold Dev.offWork
  repeat' first
   | with_reducible assumption
   | extract_lets +onlyGivenNames x
   | with_reducible apply driveLeaves_keeps
   | with_reducible apply groupOff_keeps
   | with_reducible apply headStop_keeps
   | with_reducible apply wr_keeps
   | split

theorem unitOff_keeps {b : Dev} {x0 : Dev} {x1 : Nat} (hx0 : Keeps b x0) : Keeps b (Dev.unitOff x0 x1) := by
  unfold Dev.unitOff
  repeat' first
   | with_reducible assumption
   | (extract_lets +onlyGivenNames x; clear_value x)
   | extract_lets +onlyGivenNames x
   | with_reducible apply offWork_keeps
   | with_reducible apply setUnit_keeps
   | with_reducible apply unitIgnored_keeps
   | with_reducible refine keeps_ite (fun _ => ?_) (fun _ => ?_)

theorem quiesceWork_keeps {b : Dev} {x0 : Dev} {x1 : Nat} (hx0 : Keeps b x0) : Keeps b (Dev.quiesceWork x0 x1) := by
  unfold Dev.quiesceWork
  repeat' first
   | with_reducible assumption
   | extract_lets +onlyGivenNames x
   | with_reducible apply closeUsing_keeps
   | with_reducible apply retractPark_keeps
   | with_reducible refine keeps_ite (fun _ => ?_) (fun _ => ?_)
   | split

theorem unitQuiesce_keeps {b : Dev} {x0 : Dev} {x1 : Nat} (hx0 : Keeps b x0) : Keeps b (Dev.unitQuiesce x0 x1) := by
  unfold Dev.unitQuiesce
  repeat' first
   | with_reducible assumption
   | with_reducible exact fun h => h
   | with_reducible exact rfl
   | (extract_lets +onlyGivenNames x; clear_value x)
   | extract_lets +onlyGivenNames x
   | with_reducible apply onPlat_keeps
   | with_reducible apply quiesceWork_keeps
   | with_reducible apply setUnit_keeps
   | with_reducible apply unitIgnored_keeps
   | with_reducible refine keeps_ite (fun _ => ?_) (fun _ => ?_)

theorem unitResume_keeps {b : Dev} {x0 : Dev} {x1 : Nat} (hx0 : Keeps b x0) : Keeps b (Dev.unitResume x0 x1) := by
  unfold Dev.unitResume
  repeat' first
   | with_reducible assumption
   | extract_lets +onlyGivenNames x
   | with_reducible apply unitActive_keeps
   | with_reducible apply unitIgnored_keeps
   | with_reducible refine keeps_ite (fun _ => ?_) (fun _ => ?_)

theorem isolateWork_keeps {b : Dev} {x0 : Dev} {x1 : Nat} {x2 : UnitSt} (hx0 : Keeps b x0) : Keeps b (Dev.isolateWork x0 x1 x2) := by
  unfold Dev.isolateWork
  repeat' first
   | with_reducible assumption
   | extract_lets +onlyGivenNames x
   | with_reducible apply channelLost_keeps
   | with_reducible apply groupOff_keeps
   | with_reducible apply headStop_keeps
   | with_reducible apply wr_keeps
   | split

theorem unitIsolate_keeps {b : Dev} {x0 : Dev} {x1 : Nat} (hx0 : Keeps b x0) : Keeps b (Dev.unitIsolate x0 x1) := by
  unfold Dev.unitIsolate
  repeat' first
   | with_reducible assumption
   | (extract_lets +onlyGivenNames x; clear_value x)
   | extract_lets +onlyGivenNames x
   | with_reducible apply isolateWork_keeps
   | with_reducible apply setUnit_keeps
   | with_reducible apply unitIgnored_keeps
   | with_reducible refine keeps_ite (fun _ => ?_) (fun _ => ?_)

theorem unitDeisolate_keeps {b : Dev} {x0 : Dev} {x1 : Nat} (hx0 : Keeps b x0) : Keeps b (Dev.unitDeisolate x0 x1) := by
  unfold Dev.unitDeisolate
  repeat' first
   | with_reducible assumption
   | extract_lets +onlyGivenNames x
   | with_reducible apply driveLeaves_keeps
   | with_reducible apply headStart_keeps
   | with_reducible apply laneJoin_keeps
   | with_reducible apply setUnit_keeps
   | with_reducible apply unitIgnored_keeps
   | with_reducible apply wr_keeps
   | with_reducible refine keeps_foldl ?_ (fun d x h => ?_)
   | with_reducible refine keeps_ite (fun _ => ?_) (fun _ => ?_)
   | split

theorem parkTick_keeps {b : Dev} {x0 : Dev} {x1 : Nat} (hx0 : Keeps b x0) : Keeps b (Dev.parkTick x0 x1) := by
  unfold Dev.parkTick
  repeat' first
   | with_reducible assumption
   | extract_lets +onlyGivenNames x
   | with_reducible apply axisMove_keeps
   | with_reducible refine keeps_ite (fun _ => ?_) (fun _ => ?_)

theorem ctrlWrite_keeps {b : Dev} {x0 : Dev} {x1 : Nat} {x2 : Nat} (hx0 : Keeps b x0) : Keeps b (Dev.ctrlWrite x0 x1 x2) := by
  unfold Dev.ctrlWrite
  repeat' first
   | with_reducible assumption
   | (extract_lets +onlyGivenNames x; clear_value x)
   | extract_lets +onlyGivenNames x
   | with_reducible apply setRaw_keeps
   | with_reducible apply unitDeisolate_keeps
   | with_reducible apply unitIgnored_keeps
   | with_reducible apply unitIsolate_keeps
   | with_reducible apply unitOff_keeps
   | with_reducible apply unitOn_keeps
   | with_reducible apply unitQuiesce_keeps
   | with_reducible apply unitResume_keeps
   | with_reducible refine keeps_ite (fun _ => ?_) (fun _ => ?_)

theorem asEvent_keeps {b : Dev} {x0 : Dev} {x1 : Nat} {x2 : Nat} {x3 : Bool} (hx0 : Keeps b x0) : Keeps b (Dev.asEvent x0 x1 x2 x3) := by
  unfold Dev.asEvent
  repeat' first
   | with_reducible assumption
   | with_reducible refine fun (d : Dev) (h : Keeps b d) => ?_
   | with_reducible apply asWrite_keeps
   | with_reducible apply ctrlWrite_keeps

theorem present_keeps {b : Dev} {x0 : Dev} {x1 : Nat} {x2 : Bool} (hx0 : Keeps b x0) : Keeps b (Dev.present x0 x1 x2) := by
  unfold Dev.present
  repeat' first
   | with_reducible assumption
   | with_reducible exact fun h => h
   | with_reducible exact rfl
   | (extract_lets +onlyGivenNames x; clear_value x)
   | with_reducible apply onPlat_keeps

theorem execUnitEnable_keeps {x0 : Nat} {x1 : Bool} {x2 : State}  : Steps x2.dev x2 (execUnitEnable x0 x1 x2) := by
  unfold execUnitEnable
  refine steps_run (fun d h => ?_)
  repeat' first
   | with_reducible assumption
   | extract_lets +onlyGivenNames x
   | with_reducible apply asEvent_keeps
   | with_reducible apply hatPump_keeps
   | with_reducible apply present_keeps

theorem execUnitDisable_keeps {x0 : Nat} {x1 : State}  : Steps x1.dev x1 (execUnitDisable x0 x1) := by
  unfold execUnitDisable
  refine steps_run (fun d h => ?_)
  repeat' first
   | with_reducible assumption
   | extract_lets +onlyGivenNames x
   | with_reducible apply asEvent_keeps
   | with_reducible apply hatPump_keeps

theorem execUnitQuiesce_keeps {x0 : Nat} {x1 : State}  : Steps x1.dev x1 (execUnitQuiesce x0 x1) := by
  unfold execUnitQuiesce
  refine steps_run (fun d h => ?_)
  repeat' first
   | with_reducible assumption
   | extract_lets +onlyGivenNames x
   | with_reducible apply asEvent_keeps
   | with_reducible apply hatPump_keeps

theorem execUnitResume_keeps {x0 : Nat} {x1 : State}  : Steps x1.dev x1 (execUnitResume x0 x1) := by
  unfold execUnitResume
  refine steps_run (fun d h => ?_)
  repeat' first
   | with_reducible assumption
   | extract_lets +onlyGivenNames x
   | with_reducible apply asEvent_keeps
   | with_reducible apply hatPump_keeps

theorem execUnitIsolate_keeps {x0 : Nat} {x1 : State}  : Steps x1.dev x1 (execUnitIsolate x0 x1) := by
  unfold execUnitIsolate
  refine steps_run (fun d h => ?_)
  repeat' first
   | with_reducible assumption
   | extract_lets +onlyGivenNames x
   | with_reducible apply asEvent_keeps
   | with_reducible apply hatPump_keeps

theorem execUnitDeisolate_keeps {x0 : Nat} {x1 : Bool} {x2 : State}  : Steps x2.dev x2 (execUnitDeisolate x0 x1 x2) := by
  unfold execUnitDeisolate
  refine steps_run (fun d h => ?_)
  repeat' first
   | with_reducible assumption
   | extract_lets +onlyGivenNames x
   | with_reducible apply asEvent_keeps
   | with_reducible apply hatPump_keeps
   | with_reducible apply present_keeps

theorem execQuiesceComplete_keeps {x0 : Nat} {x1 : State}  : Steps x1.dev x1 (execQuiesceComplete x0 x1) := by
  unfold execQuiesceComplete
  refine steps_run (fun d h => ?_)
  repeat' first
   | with_reducible assumption
   | (extract_lets +onlyGivenNames x; clear_value x)
   | extract_lets +onlyGivenNames x
   | with_reducible apply setUnit_keeps
   | with_reducible refine keeps_ite (fun _ => ?_) (fun _ => ?_)

theorem execQuiesceTimeout_keeps {x0 : Nat} {x1 : State}  : Steps x1.dev x1 (execQuiesceTimeout x0 x1) := by
  unfold execQuiesceTimeout
  refine steps_run (fun d h => ?_)
  repeat' first
   | with_reducible assumption
   | (extract_lets +onlyGivenNames x; clear_value x)
   | extract_lets +onlyGivenNames x
   | with_reducible apply fence_keeps
   | with_reducible refine keeps_ite (fun _ => ?_) (fun _ => ?_)
   | split

theorem jdmWrite_keeps {b : Dev} {x0 : Dev} {x1 : Nat} {x2 : Bool} (hx0 : Keeps b x0) : Keeps b (Dev.jdmWrite x0 x1 x2) := by
  unfold Dev.jdmWrite
  repeat' first
   | with_reducible assumption
   | (extract_lets +onlyGivenNames x; guard_hyp x : Dev := _; refine (fun (hx : Keeps b x) => ?_) ?_; rotate_left; unfold x; clear x; rotate_right; clear_value x)
   | extract_lets +onlyGivenNames x
   | with_reducible apply countIgnored_keeps
   | with_reducible apply headStart_keeps
   | with_reducible apply headStop_keeps
   | with_reducible apply wrB_keeps
   | with_reducible refine keeps_ite (fun _ => ?_) (fun _ => ?_)

theorem execJdmCompatWrite_keeps {x0 : Nat} {x1 : Bool} {x2 : State}  : Steps x2.dev x2 (execJdmCompatWrite x0 x1 x2) := by
  unfold execJdmCompatWrite
  refine steps_run (fun d h => ?_)
  repeat' first
   | with_reducible assumption
   | extract_lets +onlyGivenNames x
   | with_reducible apply asWrite_keeps
   | with_reducible apply jdmWrite_keeps
   | intro m

end Sys2Proof.Machine
end

