-- ==== Sys2Proof/Laws/Keeps/Access.lean ====
section
/-! SUPPORT. What every operation of Machine/Access.lean keeps. -/
namespace Sys2Proof.Machine
open Sys2Proof

set_option linter.unusedTactic false
set_option linter.unreachableTactic false
set_option linter.tactic.unusedName false

theorem accessLost_keeps {b : Dev} {x0 : Dev} {x1 : Nat} (hx0 : Keeps b x0) : Keeps b (Dev.accessLost x0 x1) := by
  unfold Dev.accessLost
  repeat' first
   | with_reducible assumption
   | with_reducible apply countIgnored_keeps

theorem resetWrite_keeps {b : Dev} {x0 : Dev} {x1 : Nat} (hx0 : Keeps b x0) : Keeps b (Dev.resetWrite x0 x1) := by
  unfold Dev.resetWrite
  repeat' first
   | with_reducible assumption
   | with_reducible exact fun h => h
   | with_reducible exact rfl
   | extract_lets +onlyGivenNames x
   | with_reducible apply countIgnored_keeps
   | with_reducible apply flashStop_keeps
   | with_reducible apply onPlat_keeps
   | with_reducible refine keeps_ite (fun _ => ?_) (fun _ => ?_)

theorem grpWrite_keeps {b : Dev} {x0 : Dev} {x1 : Nat} {x2 : Nat} (hx0 : Keeps b x0) : Keeps b (Dev.grpWrite x0 x1 x2) := by
  unfold Dev.grpWrite
  repeat' first
   | with_reducible assumption
   | extract_lets +onlyGivenNames x
   | with_reducible apply countIgnored_keeps
   | with_reducible apply groupCancel_keeps
   | with_reducible apply groupKey_keeps
   | with_reducible refine keeps_ite (fun _ => ?_) (fun _ => ?_)

theorem commitWrite_keeps {b : Dev} {x0 : Dev} {x1 : Nat} {x2 : Nat} {x3 : Nat} (hx0 : Keeps b x0) : Keeps b (Dev.commitWrite x0 x1 x2 x3) := by
  unfold Dev.commitWrite
  repeat' first
   | with_reducible assumption
   | extract_lets +onlyGivenNames x
   | with_reducible apply cancelKey_keeps
   | with_reducible apply commitKey_keeps
   | with_reducible apply countIgnored_keeps
   | with_reducible refine keeps_ite (fun _ => ?_) (fun _ => ?_)

theorem sesWrite_keeps {b : Dev} {x0 : Dev} {x1 : Nat} {x2 : Nat} {x3 : Nat} (hx0 : Keeps b x0) : Keeps b (Dev.sesWrite x0 x1 x2 x3) := by
  unfold Dev.sesWrite
  repeat' first
   | with_reducible assumption
   | with_reducible apply countIgnored_keeps
   | with_reducible apply sesEvent_keeps
   | split

theorem opWrite_keeps {b : Dev} {x0 : Dev} {x1 : Nat} (hx0 : Keeps b x0) : Keeps b (Dev.opWrite x0 x1) := by
  unfold Dev.opWrite
  repeat' first
   | with_reducible assumption
   | (generalize hp : Dev.bpmFree _ _ _ = p; refine (fun (hk : KeepsP b p) => ?_) (keepsP_gen hp (bpmFree_keeps ?_)); rotate_left; clear hp; clear p; rotate_right; clear hp; obtain ⟨y, z⟩ := p; replace hk : Keeps b z := hk; try dsimp -zeta only)
   | (generalize hp : Dev.bpmHostw _ _ _ _ = p; refine (fun (hk : KeepsP b p) => ?_) (keepsP_gen hp (bpmHostw_keeps ?_)); rotate_left; clear hp; clear p; rotate_right; clear hp; obtain ⟨y, z⟩ := p; replace hk : Keeps b z := hk; try dsimp -zeta only)
   | (generalize hp : Dev.bpmRelease _ _ _ = p; refine (fun (hk : KeepsP b p) => ?_) (keepsP_gen hp (bpmRelease_keeps ?_)); rotate_left; clear hp; clear p; rotate_right; clear hp; obtain ⟨y, z⟩ := p; replace hk : Keeps b z := hk; try dsimp -zeta only)
   | (generalize hp : Dev.bpmShare _ _ _ _ _ = p; refine (fun (hk : KeepsP b p) => ?_) (keepsP_gen hp (bpmShare_keeps ?_)); rotate_left; clear hp; clear p; rotate_right; clear hp; obtain ⟨y, z⟩ := p; replace hk : Keeps b z := hk; try dsimp -zeta only)
   | (generalize hp : Dev.bpmTransfer _ _ _ _ = p; refine (fun (hk : KeepsP b p) => ?_) (keepsP_gen hp (bpmTransfer_keeps ?_)); rotate_left; clear hp; clear p; rotate_right; clear hp; obtain ⟨y, z⟩ := p; replace hk : Keeps b z := hk; try dsimp -zeta only)
   | (generalize hp : Dev.grant _ _ _ = p; refine (fun (hk : KeepsP b p) => ?_) (keepsP_gen hp (grant_keeps ?_)); rotate_left; clear hp; clear p; rotate_right; clear hp; obtain ⟨y, z⟩ := p; replace hk : Keeps b z := hk; try dsimp -zeta only)
   | (extract_lets +onlyGivenNames x; clear_value x)
   | extract_lets +onlyGivenNames x
   | with_reducible apply answerGrant_keeps
   | with_reducible apply countIgnored_keeps
   | with_reducible apply opResult_keeps
   | with_reducible refine keeps_ite (fun _ => ?_) (fun _ => ?_)
   | split
   | with_reducible refine keepsP_mk ?_

theorem timeWrite_keeps {b : Dev} {x0 : Dev} {x1 : Nat} (hx0 : Keeps b x0) : Keeps b (Dev.timeWrite x0 x1) := by
  unfold Dev.timeWrite
  repeat' first
   | with_reducible assumption
   | extract_lets +onlyGivenNames x
   | with_reducible apply countIgnored_keeps
   | with_reducible apply wr_keeps
   | with_reducible refine keeps_ite (fun _ => ?_) (fun _ => ?_)

theorem jrnWrite_keeps {b : Dev} {x0 : Dev} {x1 : Nat} (hx0 : Keeps b x0) : Keeps b (Dev.jrnWrite x0 x1) := by
  unfold Dev.jrnWrite
  repeat' first
   | with_reducible assumption
   | with_reducible refine fun (d : Dev) (h : Keeps b d) => ?_
   | (extract_lets +onlyGivenNames x; guard_hyp x : Dev := _; refine (fun (hx : Keeps b x) => ?_) ?_; rotate_left; unfold x; clear x; rotate_right; clear_value x)
   | extract_lets +onlyGivenNames x
   | with_reducible apply ckptStart_keeps
   | with_reducible apply countIgnored_keeps
   | with_reducible apply jflush_keeps
   | with_reducible apply pump_keeps
   | with_reducible apply when_keeps
   | with_reducible refine keeps_ite (fun _ => ?_) (fun _ => ?_)

theorem drvWrite_keeps {b : Dev} {x0 : Dev} {x1 : Nat} {x2 : Nat} (hx0 : Keeps b x0) : Keeps b (Dev.drvWrite x0 x1 x2) := by
  unfold Dev.drvWrite
  repeat' first
   | with_reducible assumption
   | extract_lets +onlyGivenNames x
   | with_reducible apply countIgnored_keeps
   | with_reducible apply jdmWrite_keeps
   | with_reducible apply wr_keeps
   | with_reducible refine keeps_ite (fun _ => ?_) (fun _ => ?_)

theorem ldrWrite_keeps {b : Dev} {x0 : Dev} {x1 : Nat} (hx0 : Keeps b x0) : Keeps b (Dev.ldrWrite x0 x1) := by
  unfold Dev.ldrWrite
  repeat' first
   | with_reducible assumption
   | with_reducible apply countIgnored_keeps
   | with_reducible apply ldrAct_keeps
   | split

theorem nextWrite_keeps {b : Dev} {x0 : Dev} {x1 : Nat} (hx0 : Keeps b x0) : Keeps b (Dev.nextWrite x0 x1) := by
  unfold Dev.nextWrite
  repeat' first
   | with_reducible assumption
   | with_reducible exact fun _ => Nat.le_refl _
   | (extract_lets +onlyGivenNames x; clear_value x)
   | extract_lets +onlyGivenNames x
   | with_reducible apply mramPut_keeps
   | with_reducible apply wr_keeps

theorem maskWrite_keeps {b : Dev} {x0 : Dev} {x1 : Nat} {x2 : Nat} (hx0 : Keeps b x0) : Keeps b (Dev.maskWrite x0 x1 x2) := by
  unfold Dev.maskWrite
  repeat' first
   | with_reducible assumption
   | (extract_lets +onlyGivenNames x; guard_hyp x : Dev := _; refine (fun (hx : Keeps b x) => ?_) ?_; rotate_left; unfold x; clear x; rotate_right; clear_value x)
   | (extract_lets +onlyGivenNames x; clear_value x)
   | extract_lets +onlyGivenNames x
   | with_reducible apply msix_keeps
   | with_reducible apply wr_keeps
   | with_reducible refine keeps_ite (fun _ => ?_) (fun _ => ?_)

theorem faultEnters_keeps {b : Dev} {x0 : Dev} {x1 : Nat} {x2 : Nat} (hx0 : Keeps b x0) : Keeps b (Dev.faultEnters x0 x1 x2) := by
  unfold Dev.faultEnters
  repeat' first
   | with_reducible assumption
   | with_reducible exact fun h => h
   | with_reducible exact rfl
   | (extract_lets +onlyGivenNames x; guard_hyp x : Dev := _; refine (fun (hx : Keeps b x) => ?_) ?_; rotate_left; unfold x; clear x; rotate_right; clear_value x)
   | extract_lets +onlyGivenNames x
   | with_reducible apply axisStuck_keeps
   | with_reducible apply dtcOverrun_keeps
   | with_reducible apply estop_keeps
   | with_reducible apply fence1_keeps
   | with_reducible apply fence_keeps
   | with_reducible apply flLost_keeps
   | with_reducible apply focusFails_keeps
   | with_reducible apply guardSet_keeps
   | with_reducible apply headLost_keeps
   | with_reducible apply holdAbort_keeps
   | with_reducible apply homeFails_keeps
   | with_reducible apply ldrFails_keeps
   | with_reducible apply limitStops_keeps
   | with_reducible apply linkDown_keeps
   | with_reducible apply lunFail_keeps
   | with_reducible apply onPlat_keeps
   | with_reducible apply onSpin_keeps
   | with_reducible apply recAbort_keeps
   | with_reducible apply retire_keeps
   | with_reducible apply safeState_keeps
   | with_reducible apply startFails_keeps
   | with_reducible apply stepOverrun_keeps
   | with_reducible apply tapOverrun_keeps
   | with_reducible refine keeps_elim ?_ (fun x => ?_)
   | with_reducible refine keeps_ite (fun _ => ?_) (fun _ => ?_)
   | split

theorem injectWrite_keeps {b : Dev} {x0 : Dev} {x1 : Nat} {x2 : Nat} (hx0 : Keeps b x0) : Keeps b (Dev.injectWrite x0 x1 x2) := by
  unfold Dev.injectWrite
  repeat' first
   | with_reducible assumption
   | with_reducible refine fun (d : Dev) (h : Keeps b d) => ?_
   | (extract_lets +onlyGivenNames x; guard_hyp x : Dev := _; refine (fun (hx : Keeps b x) => ?_) ?_; rotate_left; unfold x; clear x; rotate_right; clear_value x)
   | (extract_lets +onlyGivenNames x; clear_value x)
   | extract_lets +onlyGivenNames x
   | with_reducible apply countIgnored_keeps
   | with_reducible apply faultEnters_keeps
   | with_reducible apply raise_keeps
   | with_reducible apply when_keeps
   | with_reducible refine keeps_ite (fun _ => ?_) (fun _ => ?_)
   | split

theorem writeAct_keeps {b : Dev} {x0 : Dev} {x1 : Kind} {x2 : Nat} {x3 : Nat} {x4 : Nat} {x5 : Nat} (hx0 : Keeps b x0) : KeepsO b (Dev.writeAct x0 x1 x2 x3 x4 x5) := by
  unfold Dev.writeAct
  repeat' first
   | with_reducible assumption
   | (extract_lets +onlyGivenNames x; clear_value x)
   | extract_lets +onlyGivenNames x
   | with_reducible apply aqWrite_keeps
   | with_reducible apply calAbortWrite_keeps
   | with_reducible apply calRunWrite_keeps
   | with_reducible apply commitWrite_keeps
   | with_reducible apply countIgnored_keeps
   | with_reducible apply csStep_keeps
   | with_reducible apply csWrite_keeps
   | with_reducible apply ctrlWrite_keeps
   | with_reducible apply drvWrite_keeps
   | with_reducible apply estopClr_keeps
   | with_reducible apply grpWrite_keeps
   | with_reducible apply injectWrite_keeps
   | with_reducible apply jrnWrite_keeps
   | with_reducible apply ldrWrite_keeps
   | with_reducible apply maintain_keeps
   | with_reducible apply maskWrite_keeps
   | with_reducible apply nextWrite_keeps
   | with_reducible apply opWrite_keeps
   | with_reducible apply resetWrite_keeps
   | with_reducible apply rhdb_keeps
   | with_reducible apply sesWrite_keeps
   | with_reducible apply sproutAsk_keeps
   | with_reducible apply sqdb_keeps
   | with_reducible apply stCmd_keeps
   | with_reducible apply timeWrite_keeps
   | split
   | exact keepsO_none
   | with_reducible refine keepsO_some ?_

theorem fieldsWrite_keeps {b : Dev} {x0 : Dev} {x1 : RegDef} {x2 : Nat} {x3 : Nat} (hx0 : Keeps b x0) : Keeps b (Dev.fieldsWrite x0 x1 x2 x3) := by
  unfold Dev.fieldsWrite
  repeat' first
   | with_reducible assumption
   | with_reducible exact fun h => h
   | with_reducible exact rfl
   | (extract_lets +onlyGivenNames x; guard_hyp x : Dev := _; refine (fun (hx : Keeps b x) => ?_) ?_; rotate_left; unfold x; clear x; rotate_right; clear_value x)
   | (extract_lets +onlyGivenNames x; clear_value x)
   | extract_lets +onlyGivenNames x
   | with_reducible apply onPlat_keeps
   | with_reducible apply setRaw_keeps
   | with_reducible apply setShadowed_keeps
   | with_reducible refine keeps_foldl ?_ (fun d x h => ?_)
   | with_reducible refine keeps_ite (fun _ => ?_) (fun _ => ?_)
   | split

theorem stampData_keeps {b : Dev} {x0 : Dev} {x1 : Nat} {x2 : Nat} {x3 : Nat} (hx0 : Keeps b x0) : Keeps b (Dev.stampData x0 x1 x2 x3) := by
  unfold Dev.stampData
  repeat' first
   | with_reducible assumption
   | with_reducible exact Nat.le_refl _
   | extract_lets +onlyGivenNames x
   | with_reducible apply onMram_keeps
   | with_reducible refine keeps_ite (fun _ => ?_) (fun _ => ?_)

theorem write32_keeps {b : Dev} {x0 : Dev} {x1 : Nat} {x2 : Nat} {x3 : Nat} (hx0 : Keeps b x0) : Keeps b (Dev.write32 x0 x1 x2 x3) := by
  unfold Dev.write32
  repeat' first
   | with_reducible assumption
   | (extract_lets +onlyGivenNames x; guard_hyp x : Dev := _; refine (fun (hx : Keeps b x) => ?_) ?_; rotate_left; unfold x; clear x; rotate_right; clear_value x)
   | (extract_lets +onlyGivenNames x; clear_value x)
   | extract_lets +onlyGivenNames x
   | with_reducible apply accessLost_keeps
   | with_reducible apply fieldsWrite_keeps
   | with_reducible apply stampData_keeps
   | with_reducible apply writeAct_keeps
   | with_reducible refine keepsO_getD ?_ ?_
   | with_reducible refine keeps_ite (fun _ => ?_) (fun _ => ?_)
   | split

theorem barWrite_keeps {b : Dev} {x0 : Dev} {x1 : RegAccess} (hx0 : Keeps b x0) : Keeps b (Dev.barWrite x0 x1) := by
  unfold Dev.barWrite
  repeat' first
   | with_reducible assumption
   | extract_lets +onlyGivenNames x
   | with_reducible apply accessLost_keeps
   | with_reducible apply write32_keeps
   | with_reducible refine keeps_ite (fun _ => ?_) (fun _ => ?_)

theorem readClear_keeps {b : Dev} {x0 : Dev} {x1 : Nat} (hx0 : Keeps b x0) : Keeps b (Dev.readClear x0 x1) := by
  unfold Dev.readClear
  repeat' first
   | with_reducible assumption
   | with_reducible apply setRaw_keeps
   | split

theorem latchHi_keeps {b : Dev} {x0 : Dev} {x1 : Nat} (hx0 : Keeps b x0) : Keeps b (Dev.latchHi x0 x1) := by
  unfold Dev.latchHi
  repeat' first
   | with_reducible assumption
   | (extract_lets +onlyGivenNames x; clear_value x)
   | with_reducible apply setRaw_keeps

theorem latchTick_keeps {b : Dev} {x0 : Dev} (hx0 : Keeps b x0) : Keeps b (Dev.latchTick x0) := by
  unfold Dev.latchTick
  repeat' first
   | with_reducible assumption
   | with_reducible apply wr_keeps

theorem read32_keeps {b : Dev} {x0 : Dev} {x1 : Nat} (hx0 : Keeps b x0) : Keeps b (Dev.read32 x0 x1) := by
  unfold Dev.read32
  repeat' first
   | with_reducible assumption
   | (extract_lets +onlyGivenNames x; guard_hyp x : Dev := _; refine (fun (hx : Keeps b x) => ?_) ?_; rotate_left; unfold x; clear x; rotate_right; clear_value x)
   | extract_lets +onlyGivenNames x
   | with_reducible apply answer_keeps
   | with_reducible apply csStep_keeps
   | with_reducible apply latchHi_keeps
   | with_reducible apply latchTick_keeps
   | with_reducible apply readClear_keeps
   | with_reducible refine keeps_ite (fun _ => ?_) (fun _ => ?_)
   | split

theorem barRead_keeps {b : Dev} {x0 : Dev} {x1 : Nat} {x2 : Nat} (hx0 : Keeps b x0) : Keeps b (Dev.barRead x0 x1 x2) := by
  unfold Dev.barRead
  repeat' first
   | with_reducible assumption
   | (extract_lets +onlyGivenNames x; guard_hyp x : Dev := _; refine (fun (hx : Keeps b x) => ?_) ?_; rotate_left; unfold x; clear x; rotate_right; clear_value x)
   | extract_lets +onlyGivenNames x
   | with_reducible apply answer_keeps
   | with_reducible apply countIgnored_keeps
   | with_reducible apply read32_keeps
   | with_reducible refine keeps_ite (fun _ => ?_) (fun _ => ?_)

theorem execRegisterWrite_keeps {x0 : RegAccess} {x1 : State}  : Steps x1.dev x1 (execRegisterWrite x0 x1) := by
  unfold execRegisterWrite
  refine steps_run (fun d h => ?_)
  repeat' first
   | with_reducible assumption
   | extract_lets +onlyGivenNames x
   | with_reducible apply barWrite_keeps
   | with_reducible apply hatPump_keeps

theorem execReadClearRead_keeps {x0 : RegRead} {x1 : State}  : Steps x1.dev x1 (execReadClearRead x0 x1) := by
  unfold execReadClearRead
  refine steps_run (fun d h => ?_)
  repeat' first
   | with_reducible assumption
   | extract_lets +onlyGivenNames x
   | with_reducible apply barRead_keeps

theorem execPltTickLoRead_keeps {x0 : State}  : Steps x0.dev x0 (execPltTickLoRead x0) := by
  unfold execPltTickLoRead
  refine steps_run (fun d h => ?_)
  repeat' first
   | with_reducible assumption
   | extract_lets +onlyGivenNames x
   | with_reducible apply read32_keeps

theorem execLatchedLoRead_keeps {x0 : RegRead} {x1 : State}  : Steps x1.dev x1 (execLatchedLoRead x0 x1) := by
  unfold execLatchedLoRead
  refine steps_run (fun d h => ?_)
  repeat' first
   | with_reducible assumption
   | extract_lets +onlyGivenNames x
   | with_reducible apply barRead_keeps

theorem execErrorInject_keeps {x0 : Nat} {x1 : Nat} {x2 : State}  : Steps x2.dev x2 (execErrorInject x0 x1 x2) := by
  unfold execErrorInject
  refine steps_run (fun d h => ?_)
  repeat' first
   | with_reducible assumption
   | extract_lets +onlyGivenNames x
   | with_reducible apply hatPump_keeps
   | with_reducible apply write32_keeps

theorem execProfileNextWrite_keeps {x0 : Nat} {x1 : State}  : Steps x1.dev x1 (execProfileNextWrite x0 x1) := by
  unfold execProfileNextWrite
  refine steps_run (fun d h => ?_)
  repeat' first
   | with_reducible assumption
   | extract_lets +onlyGivenNames x
   | with_reducible apply write32_keeps

theorem execClass3Promotion_keeps {x0 : Nat} {x1 : State}  : Steps x1.dev x1 (execClass3Promotion x0 x1) := by
  unfold execClass3Promotion
  refine steps_run (fun d h => ?_)
  repeat' first
   | with_reducible assumption
   | extract_lets +onlyGivenNames x
   | with_reducible apply count_keeps
   | with_reducible apply promoteJob_keeps
   | with_reducible refine keeps_ite (fun _ => ?_) (fun _ => ?_)

theorem execPltRstCtrlChip_keeps {x0 : State}  : Steps x0.dev x0 (execPltRstCtrlChip x0) := by
  unfold execPltRstCtrlChip
  refine steps_run (fun d h => ?_)
  repeat' first
   | with_reducible assumption
   | extract_lets +onlyGivenNames x
   | with_reducible apply write32_keeps

theorem execSflJrnFlush_keeps {x0 : Nat} {x1 : State}  : Steps x1.dev x1 (execSflJrnFlush x0 x1) := by
  unfold execSflJrnFlush
  refine steps_run (fun d h => ?_)
  repeat' first
   | with_reducible assumption
   | extract_lets +onlyGivenNames x
   | with_reducible apply hatPump_keeps
   | with_reducible apply write32_keeps

theorem execSflJrnCkpt_keeps {x0 : Nat} {x1 : State}  : Steps x1.dev x1 (execSflJrnCkpt x0 x1) := by
  unfold execSflJrnCkpt
  refine steps_run (fun d h => ?_)
  repeat' first
   | with_reducible assumption
   | extract_lets +onlyGivenNames x
   | with_reducible apply hatPump_keeps
   | with_reducible apply write32_keeps

theorem execSflTimeWrite_keeps {x0 : Nat} {x1 : State}  : Steps x1.dev x1 (execSflTimeWrite x0 x1) := by
  unfold execSflTimeWrite
  refine steps_run (fun d h => ?_)
  repeat' first
   | with_reducible assumption
   | extract_lets +onlyGivenNames x
   | with_reducible apply write32_keeps

end Sys2Proof.Machine
end

