-- ==== Sys2Proof/Laws/Keeps/Admin.lean ====
section
/-! SUPPORT. What every operation of Machine/Admin.lean keeps. -/
namespace Sys2Proof.Machine
open Sys2Proof

set_option linter.unusedTactic false
set_option linter.unreachableTactic false
set_option linter.tactic.unusedName false

theorem delivers_keeps {b : Dev} {x0 : Dev} {x1 : Cmd} {x2 : List Byte} {x3 : Nat} (hx0 : Keeps b x0) : Keeps b (Dev.delivers x0 x1 x2 x3) := by
  unfold Dev.delivers
  repeat' first
   | with_reducible assumption
   | with_reducible apply onCmd_keeps

theorem identifyBegins_keeps {b : Dev} {x0 : Dev} {x1 : Cmd} (hx0 : Keeps b x0) : Keeps b (Dev.identifyBegins x0 x1) := by
  unfold Dev.identifyBegins
  repeat' first
   | with_reducible assumption
   | with_reducible apply Cmd_endsAt_keeps
   | with_reducible apply delivers_keeps
   | split

theorem logBegins_keeps {b : Dev} {x0 : Dev} {x1 : Cmd} (hx0 : Keeps b x0) : Keeps b (Dev.logBegins x0 x1) := by
  unfold Dev.logBegins
  repeat' first
   | with_reducible assumption
   | (generalize hp : Dev.logData _ _ _ _ _ = p; refine (fun (hk : KeepsP b p) => ?_) (keepsP_gen hp (logData_keeps ?_)); rotate_left; clear hp; clear p; rotate_right; clear hp; obtain ⟨y, z⟩ := p; replace hk : Keeps b z := hk; try dsimp -zeta only)
   | (extract_lets +onlyGivenNames x; clear_value x)
   | extract_lets +onlyGivenNames x
   | with_reducible apply Cmd_endsAt_keeps
   | with_reducible apply delivers_keeps
   | with_reducible apply onCmd_keeps
   | with_reducible refine keeps_ite (fun _ => ?_) (fun _ => ?_)

theorem featureKept_keeps {b : Dev} {x0 : Dev} {x1 : Cmd} {x2 : Nat} {x3 : Nat} (hx0 : Keeps b x0) : Keeps b (Dev.featureKept x0 x1 x2 x3) := by
  unfold Dev.featureKept
  repeat' first
   | with_reducible assumption
   | extract_lets +onlyGivenNames x
   | with_reducible apply Cmd_endsAt_keeps
   | with_reducible apply cmdEnds_keeps
   | with_reducible apply nextWrite_keeps
   | with_reducible apply profPut_keeps
   | with_reducible apply profSeal_keeps
   | with_reducible refine keeps_ite (fun _ => ?_) (fun _ => ?_)
   | split

theorem featureSet_keeps {b : Dev} {x0 : Dev} {x1 : Cmd} (hx0 : Keeps b x0) : Keeps b (Dev.featureSet x0 x1) := by
  unfold Dev.featureSet
  repeat' first
   | with_reducible assumption
   | with_reducible refine fun (d : Dev) (h : Keeps b d) => ?_
   | (extract_lets +onlyGivenNames x; guard_hyp x : Dev := _; refine (fun (hx : Keeps b x) => ?_) ?_; rotate_left; unfold x; clear x; rotate_right; clear_value x)
   | (extract_lets +onlyGivenNames x; guard_hyp x : _ → _ := _; refine (fun (hf : ∀ d, Keeps b d → Keeps b (x d)) => ?_) ?_; rotate_left; unfold x; clear x; intro d h; beta_reduce; rotate_right; clear_value x)
   | (extract_lets +onlyGivenNames x; clear_value x)
   | extract_lets +onlyGivenNames x
   | with_reducible apply Cmd_endsAt_keeps
   | with_reducible apply cmdEnds_keeps
   | with_reducible apply commitRefused_keeps
   | with_reducible apply countIgnored_keeps
   | with_reducible apply featureKept_keeps
   | with_reducible apply onCmd_keeps
   | with_reducible apply profSave_keeps
   | with_reducible apply stagePage_keeps
   | with_reducible apply when_keeps
   | with_reducible apply write32_keeps
   | with_reducible refine hf _ ?_
   | with_reducible refine keeps_ite (fun _ => ?_) (fun _ => ?_)
   | split

theorem featureRead_keeps {b : Dev} {x0 : Dev} {x1 : Cmd} (hx0 : Keeps b x0) : Keeps b (Dev.featureRead x0 x1) := by
  unfold Dev.featureRead
  repeat' first
   | with_reducible assumption
   | (extract_lets +onlyGivenNames x; clear_value x)
   | extract_lets +onlyGivenNames x
   | with_reducible apply Cmd_endsAt_keeps
   | with_reducible apply cmdEnds_keeps
   | with_reducible refine keeps_ite (fun _ => ?_) (fun _ => ?_)
   | split

theorem downloadBegins_keeps {b : Dev} {x0 : Dev} {x1 : Cmd} (hx0 : Keeps b x0) : Keeps b (Dev.downloadBegins x0 x1) := by
  unfold Dev.downloadBegins
  repeat' first
   | with_reducible assumption
   | (extract_lets +onlyGivenNames x; clear_value x)
   | extract_lets +onlyGivenNames x
   | with_reducible apply Cmd_endsAt_keeps
   | with_reducible refine keeps_ite (fun _ => ?_) (fun _ => ?_)

theorem keyBegins_keeps {b : Dev} {x0 : Dev} {x1 : Cmd} (hx0 : Keeps b x0) : Keeps b (Dev.keyBegins x0 x1) := by
  unfold Dev.keyBegins
  repeat' first
   | with_reducible assumption
   | (extract_lets +onlyGivenNames x; clear_value x)
   | extract_lets +onlyGivenNames x
   | with_reducible apply Cmd_endsAt_keeps
   | with_reducible apply keyStore_keeps
   | with_reducible refine keeps_ite (fun _ => ?_) (fun _ => ?_)
   | split

theorem fwBegins_keeps {b : Dev} {x0 : Dev} {x1 : Cmd} (hx0 : Keeps b x0) : Keeps b (Dev.fwBegins x0 x1) := by
  unfold Dev.fwBegins
  repeat' first
   | with_reducible assumption
   | extract_lets +onlyGivenNames x
   | with_reducible apply Cmd_endsAt_keeps
   | with_reducible apply onCmd_keeps
   | with_reducible refine keeps_ite (fun _ => ?_) (fun _ => ?_)

theorem fwEach_keeps {b : Dev} {x0 : Dev} {x1 : Nat} {x2 : Nat → RegField} {x3 : Nat} (hx0 : Keeps b x0) : Keeps b (Dev.fwEach x0 x1 x2 x3) := by
  unfold Dev.fwEach
  repeat' first
   | with_reducible assumption
   | extract_lets +onlyGivenNames x
   | with_reducible apply wr_keeps
   | with_reducible refine keeps_foldl ?_ (fun d x h => ?_)

theorem fwDone_keeps {b : Dev} {x0 : Dev} {x1 : Nat} {x2 : Nat} {x3 : Bool} {x4 : Bool} (hx0 : Keeps b x0) : Keeps b (Dev.fwDone x0 x1 x2 x3 x4) := by
  unfold Dev.fwDone
  repeat' first
   | with_reducible assumption
   | with_reducible refine fun (d : Dev) (h : Keeps b d) => ?_
   | extract_lets +onlyGivenNames x
   | with_reducible apply fwBoot_keeps
   | with_reducible apply fwLock_keeps
   | with_reducible apply when_keeps

theorem fwChecked_keeps {b : Dev} {x0 : Dev} {x1 : Cmd} (hx0 : Keeps b x0) : Keeps b (Dev.fwChecked x0 x1) := by
  unfold Dev.fwChecked
  repeat' first
   | with_reducible assumption
   | with_reducible exact fun h => h
   | with_reducible exact rfl
   | with_reducible refine fun (d : Dev) (h : Keeps b d) => ?_
   | (extract_lets +onlyGivenNames x; guard_hyp x : Dev := _; refine (fun (hx : Keeps b x) => ?_) ?_; rotate_left; unfold x; clear x; rotate_right; clear_value x)
   | (extract_lets +onlyGivenNames x; clear_value x)
   | extract_lets +onlyGivenNames x
   | with_reducible apply Cmd_endsAt_keeps
   | with_reducible apply cmdEnds_keeps
   | with_reducible apply count_keeps
   | with_reducible apply fwDone_keeps
   | with_reducible apply fwEach_keeps
   | with_reducible apply onCmd_keeps
   | with_reducible apply onPlat_keeps
   | with_reducible apply setChecked_keeps
   | with_reducible apply takeInjected_keeps
   | with_reducible apply when_keeps
   | with_reducible refine keeps_ite (fun _ => ?_) (fun _ => ?_)
   | split

theorem fwLoaded_keeps {b : Dev} {x0 : Dev} (hx0 : Keeps b x0) : Keeps b (Dev.fwLoaded x0) := by
  unfold Dev.fwLoaded
  repeat' first
   | with_reducible assumption
   | with_reducible exact fun h => h
   | with_reducible refine fun (d : Dev) (h : Keeps b d) => ?_
   | with_reducible exact rfl
   | (extract_lets +onlyGivenNames x; guard_hyp x : Dev := _; refine (fun (hx : Keeps b x) => ?_) ?_; rotate_left; unfold x; clear x; rotate_right; clear_value x)
   | (extract_lets +onlyGivenNames x; clear_value x)
   | extract_lets +onlyGivenNames x
   | with_reducible apply calStops_keeps
   | with_reducible apply fwEach_keeps
   | with_reducible apply onPlat_keeps
   | with_reducible apply sproutsHold_keeps
   | with_reducible apply when_keeps
   | with_reducible refine keeps_foldl ?_ (fun d x h => ?_)
   | with_reducible refine keeps_ite (fun _ => ?_) (fun _ => ?_)
   | split

theorem fwQuiesced_keeps {b : Dev} {x0 : Dev} (hx0 : Keeps b x0) : Keeps b (Dev.fwQuiesced x0) := by
  unfold Dev.fwQuiesced
  repeat' first
   | with_reducible assumption
   | with_reducible exact fun h => h
   | with_reducible exact rfl
   | (extract_lets +onlyGivenNames x; clear_value x)
   | extract_lets +onlyGivenNames x
   | with_reducible apply onPlat_keeps
   | with_reducible refine keeps_ite (fun _ => ?_) (fun _ => ?_)
   | split

theorem fwSwitch_keeps {b : Dev} {x0 : Dev} (hx0 : Keeps b x0) : Keeps b (Dev.fwSwitch x0) := by
  unfold Dev.fwSwitch
  repeat' first
   | with_reducible assumption
   | with_reducible exact fun h => h
   | with_reducible exact rfl
   | with_reducible refine fun (d : Dev) (h : Keeps b d) => ?_
   | (extract_lets +onlyGivenNames x; guard_hyp x : Dev := _; refine (fun (hx : Keeps b x) => ?_) ?_; rotate_left; unfold x; clear x; rotate_right; clear_value x)
   | (extract_lets +onlyGivenNames x; clear_value x)
   | extract_lets +onlyGivenNames x
   | with_reducible apply chipEvent_keeps
   | with_reducible apply cmdEnds_keeps
   | with_reducible apply engsSwitch_keeps
   | with_reducible apply fwDone_keeps
   | with_reducible apply fwEach_keeps
   | with_reducible apply hatPump_keeps
   | with_reducible apply onPlat_keeps
   | with_reducible apply when_keeps
   | with_reducible apply wr_keeps
   | with_reducible refine keeps_foldl ?_ (fun d x h => ?_)
   | split

theorem fwAbandon_keeps {b : Dev} {x0 : Dev} (hx0 : Keeps b x0) : Keeps b (Dev.fwAbandon x0) := by
  unfold Dev.fwAbandon
  repeat' first
   | with_reducible assumption
   | with_reducible exact fun h => h
   | with_reducible exact rfl
   | (extract_lets +onlyGivenNames x; guard_hyp x : Dev := _; refine (fun (hx : Keeps b x) => ?_) ?_; rotate_left; unfold x; clear x; rotate_right; clear_value x)
   | (extract_lets +onlyGivenNames x; clear_value x)
   | extract_lets +onlyGivenNames x
   | with_reducible apply chipEvent_keeps
   | with_reducible apply cmdEnds_keeps
   | with_reducible apply fwEach_keeps
   | with_reducible apply hatPump_keeps
   | with_reducible apply onPlat_keeps
   | with_reducible apply raise_keeps
   | with_reducible refine keeps_foldl ?_ (fun d x h => ?_)
   | with_reducible refine keeps_ite (fun _ => ?_) (fun _ => ?_)
   | split

theorem execIdentify_keeps {x0 : Nat} {x1 : State}  : Steps x1.dev x1 (execIdentify x0 x1) := by
  unfold execIdentify
  refine steps_run (fun d h => ?_)
  repeat' first
   | with_reducible assumption
   | extract_lets +onlyGivenNames x
   | with_reducible apply begins_keeps
   | with_reducible apply identifyBegins_keeps

theorem execGetLog_keeps {x0 : Nat} {x1 : State}  : Steps x1.dev x1 (execGetLog x0 x1) := by
  unfold execGetLog
  refine steps_run (fun d h => ?_)
  repeat' first
   | with_reducible assumption
   | extract_lets +onlyGivenNames x
   | with_reducible apply begins_keeps
   | with_reducible apply logBegins_keeps

theorem execSetFeature_keeps {x0 : Nat} {x1 : State}  : Steps x1.dev x1 (execSetFeature x0 x1) := by
  unfold execSetFeature
  refine steps_run (fun d h => ?_)
  repeat' first
   | with_reducible assumption
   | extract_lets +onlyGivenNames x
   | with_reducible apply begins_keeps
   | with_reducible apply featureSet_keeps

theorem execGetFeature_keeps {x0 : Nat} {x1 : State}  : Steps x1.dev x1 (execGetFeature x0 x1) := by
  unfold execGetFeature
  refine steps_run (fun d h => ?_)
  repeat' first
   | with_reducible assumption
   | extract_lets +onlyGivenNames x
   | with_reducible apply begins_keeps
   | with_reducible apply featureRead_keeps

theorem execFwDownload_keeps {x0 : Nat} {x1 : State}  : Steps x1.dev x1 (execFwDownload x0 x1) := by
  unfold execFwDownload
  refine steps_run (fun d h => ?_)
  repeat' first
   | with_reducible assumption
   | extract_lets +onlyGivenNames x
   | with_reducible apply begins_keeps
   | with_reducible apply downloadBegins_keeps

theorem execFwCommit_keeps {x0 : Nat} {x1 : State}  : Steps x1.dev x1 (execFwCommit x0 x1) := by
  unfold execFwCommit
  refine steps_run (fun d h => ?_)
  repeat' first
   | with_reducible assumption
   | extract_lets +onlyGivenNames x
   | with_reducible apply begins_keeps
   | with_reducible apply fwBegins_keeps

theorem execKeyLoad_keeps {x0 : Nat} {x1 : State}  : Steps x1.dev x1 (execKeyLoad x0 x1) := by
  unfold execKeyLoad
  refine steps_run (fun d h => ?_)
  repeat' first
   | with_reducible assumption
   | extract_lets +onlyGivenNames x
   | with_reducible apply begins_keeps
   | with_reducible apply keyBegins_keeps

theorem execFwCommitCheckEnd_keeps {x0 : Nat} {x1 : State}  : Steps x1.dev x1 (execFwCommitCheckEnd x0 x1) := by
  unfold execFwCommitCheckEnd
  refine steps_run (fun d h => ?_)
  repeat' first
   | with_reducible assumption
   | extract_lets +onlyGivenNames x
   | with_reducible apply fwChecked_keeps
   | with_reducible apply hatPump_keeps
   | with_reducible refine keeps_ite (fun _ => ?_) (fun _ => ?_)
   | split

theorem execFwImageLoaded_keeps {x0 : State}  : Steps x0.dev x0 (execFwImageLoaded x0) := by
  unfold execFwImageLoaded
  refine steps_run (fun d h => ?_)
  repeat' first
   | with_reducible assumption
   | extract_lets +onlyGivenNames x
   | with_reducible apply fwLoaded_keeps

theorem execFwQuiesceReached_keeps {x0 : State}  : Steps x0.dev x0 (execFwQuiesceReached x0) := by
  unfold execFwQuiesceReached
  refine steps_run (fun d h => ?_)
  repeat' first
   | with_reducible assumption
   | extract_lets +onlyGivenNames x
   | with_reducible apply fwQuiesced_keeps

theorem execFwActivationAbandon_keeps {x0 : State}  : Steps x0.dev x0 (execFwActivationAbandon x0) := by
  unfold execFwActivationAbandon
  refine steps_run (fun d h => ?_)
  repeat' first
   | with_reducible assumption
   | extract_lets +onlyGivenNames x
   | with_reducible apply fwAbandon_keeps

end Sys2Proof.Machine
end

