-- ==== Sys2Proof/Laws/Keeps/FlashCmds.lean ====
section
/-! SUPPORT. What every operation of Machine/FlashCmds.lean keeps. -/
namespace Sys2Proof.Machine
open Sys2Proof

set_option linter.unusedTactic false
set_option linter.unreachableTactic false
set_option linter.tactic.unusedName false

theorem flashMoves_keeps {b : Dev} {x0 : Dev} (hx0 : Keeps b x0) : Keeps b (Dev.flashMoves x0) := by
  unfold Dev.flashMoves
  repeat' first
   | with_reducible assumption
   | with_reducible refine fun (d : Dev) (h : Keeps b d) => ?_
   | extract_lets +onlyGivenNames x
   | with_reducible apply ckptStep_keeps
   | with_reducible apply hatPump_keeps
   | with_reducible apply hollowClear_keeps
   | with_reducible apply pump_keeps
   | with_reducible apply rowBufsFree_keeps
   | with_reducible apply when_keeps

theorem catWhenReady_keeps {b : Dev} {x0 : Dev} {x1 : Nat} (hx0 : Keeps b x0) : Keeps b (Dev.catWhenReady x0 x1) := by
  unfold Dev.catWhenReady
  repeat' first
   | with_reducible assumption
   | extract_lets +onlyGivenNames x
   | with_reducible apply catLoad_keeps
   | with_reducible refine keeps_ite (fun _ => ?_) (fun _ => ?_)

theorem zqCal_keeps {b : Dev} {x0 : Dev} {x1 : Nat} (hx0 : Keeps b x0) : Keeps b (Dev.zqCal x0 x1) := by
  unfold Dev.zqCal
  repeat' first
   | with_reducible assumption
   | extract_lets +onlyGivenNames x
   | with_reducible apply onSfl_keeps
   | with_reducible refine keeps_ite (fun _ => ?_) (fun _ => ?_)

theorem chServed_keeps {b : Dev} {x0 : Dev} {x1 : Nat} {x2 : Nat × Bool} (hx0 : Keeps b x0) : Keeps b (Dev.chServed x0 x1 x2) := by
  unfold Dev.chServed
  repeat' first
   | with_reducible assumption
   | with_reducible apply onSfl_keeps

theorem dieTemp_keeps {b : Dev} {x0 : Dev} {x1 : Nat} {x2 : Nat} {x3 : Nat} {x4 : Int} (hx0 : Keeps b x0) : Keeps b (Dev.dieTemp x0 x1 x2 x3 x4) := by
  unfold Dev.dieTemp
  repeat' first
   | with_reducible assumption
   | (extract_lets +onlyGivenNames x; clear_value x)
   | extract_lets +onlyGivenNames x
   | with_reducible apply onSfl_keeps
   | with_reducible refine keeps_ite (fun _ => ?_) (fun _ => ?_)

theorem lateProgram_keeps {b : Dev} {x0 : Dev} {x1 : Nat} {x2 : Bool} (hx0 : Keeps b x0) : Keeps b (Dev.lateProgram x0 x1 x2) := by
  unfold Dev.lateProgram
  repeat' first
   | with_reducible assumption
   | with_reducible apply onSfl_keeps
   | split

theorem programEnds_keeps {b : Dev} {x0 : Dev} {x1 : Nat} {x2 : Bool} (hx0 : Keeps b x0) : Keeps b (Dev.programEnds x0 x1 x2) := by
  unfold Dev.programEnds
  repeat' first
   | with_reducible assumption
   | (extract_lets +onlyGivenNames x; clear_value x)
   | extract_lets +onlyGivenNames x
   | with_reducible apply chServed_keeps
   | with_reducible apply flashTimeout_keeps
   | with_reducible apply lateProgram_keeps
   | with_reducible apply progDone_keeps
   | with_reducible refine keeps_ite (fun _ => ?_) (fun _ => ?_)
   | split

theorem eraseEnds_keeps {b : Dev} {x0 : Dev} {x1 : Nat} {x2 : Nat} (hx0 : Keeps b x0) : Keeps b (Dev.eraseEnds x0 x1 x2) := by
  unfold Dev.eraseEnds
  repeat' first
   | with_reducible assumption
   | (extract_lets +onlyGivenNames x; clear_value x)
   | extract_lets +onlyGivenNames x
   | with_reducible apply eraseDone_keeps
   | with_reducible apply onSfl_keeps
   | with_reducible refine keeps_foldl ?_ (fun d x h => ?_)
   | with_reducible refine keeps_ite (fun _ => ?_) (fun _ => ?_)

theorem readEnds_keeps {b : Dev} {x0 : Dev} {x1 : Nat} {x2 : Nat} {x3 : Nat} {x4 : List Nat} (hx0 : Keeps b x0) : Keeps b (Dev.readEnds x0 x1 x2 x3 x4) := by
  unfold Dev.readEnds
  repeat' first
   | with_reducible assumption
   | (extract_lets +onlyGivenNames x; clear_value x)
   | extract_lets +onlyGivenNames x
   | with_reducible apply chServed_keeps
   | with_reducible apply flashTimeout_keeps
   | with_reducible apply readDone_keeps
   | with_reducible apply readFeatures_keeps
   | with_reducible refine keeps_ite (fun _ => ?_) (fun _ => ?_)
   | split

theorem opTimesOut_keeps {b : Dev} {x0 : Dev} {x1 : Nat} (hx0 : Keeps b x0) : Keeps b (Dev.opTimesOut x0 x1) := by
  unfold Dev.opTimesOut
  repeat' first
   | with_reducible assumption
   | extract_lets +onlyGivenNames x
   | with_reducible apply flashTimeout_keeps
   | with_reducible refine keeps_ite (fun _ => ?_) (fun _ => ?_)

theorem pairWait_keeps {b : Dev} {x0 : Dev} {x1 : Nat} (hx0 : Keeps b x0) : Keeps b (Dev.pairWait x0 x1) := by
  unfold Dev.pairWait
  repeat' first
   | with_reducible assumption
   | (extract_lets +onlyGivenNames x; clear_value x)
   | extract_lets +onlyGivenNames x
   | with_reducible apply mapWrite_keeps
   | with_reducible refine keeps_ite (fun _ => ?_) (fun _ => ?_)
   | split

theorem refreshByAge_keeps {b : Dev} {x0 : Dev} (hx0 : Keeps b x0) : Keeps b (Dev.refreshByAge x0) := by
  unfold Dev.refreshByAge
  repeat' first
   | with_reducible assumption
   | extract_lets +onlyGivenNames x
   | with_reducible apply queueRefresh_keeps
   | with_reducible refine keeps_foldl ?_ (fun d x h => ?_)

theorem secondPasses_keeps {b : Dev} {x0 : Dev} (hx0 : Keeps b x0) : Keeps b (Dev.secondPasses x0) := by
  unfold Dev.secondPasses
  repeat' first
   | with_reducible assumption
   | (extract_lets +onlyGivenNames x; guard_hyp x : Dev := _; refine (fun (hx : Keeps b x) => ?_) ?_; rotate_left; unfold x; clear x; rotate_right; clear_value x)
   | extract_lets +onlyGivenNames x
   | with_reducible apply onSfl_keeps
   | with_reducible apply refreshByAge_keeps
   | with_reducible apply wr_keeps
   | with_reducible refine keeps_ite (fun _ => ?_) (fun _ => ?_)

theorem pinFails_keeps {b : Dev} {x0 : Dev} (hx0 : Keeps b x0) : Keeps b (Dev.pinFails x0) := by
  unfold Dev.pinFails
  repeat' first
   | with_reducible assumption
   | (extract_lets +onlyGivenNames x; guard_hyp x : Dev := _; refine (fun (hx : Keeps b x) => ?_) ?_; rotate_left; unfold x; clear x; rotate_right; clear_value x)
   | extract_lets +onlyGivenNames x
   | with_reducible apply powerFail_keeps
   | with_reducible apply setLevel_keeps
   | with_reducible apply showMot_keeps
   | with_reducible refine keeps_ite (fun _ => ?_) (fun _ => ?_)

theorem flashQuiet_keeps {b : Dev} {x0 : Dev} {x1 : List Nat} (hx0 : Keeps b x0) : Keeps b (Dev.flashQuiet x0 x1) := by
  unfold Dev.flashQuiet
  repeat' first
   | with_reducible assumption
   | with_reducible exact fun h => h
   | with_reducible exact fun _ => Nat.le_refl _
   | with_reducible exact rfl
   | (extract_lets +onlyGivenNames x; guard_hyp x : Dev := _; refine (fun (hx : Keeps b x) => ?_) ?_; rotate_left; unfold x; clear x; rotate_right; clear_value x)
   | (extract_lets +onlyGivenNames x; clear_value x)
   | extract_lets +onlyGivenNames x
   | with_reducible apply jflush_keeps
   | with_reducible apply mramPut_keeps
   | with_reducible apply onPlat_keeps
   | with_reducible apply onSfl_keeps
   | with_reducible refine keeps_ite (fun _ => ?_) (fun _ => ?_)

theorem sjQuiet_keeps {b : Dev} {x0 : Dev} (hx0 : Keeps b x0) : Keeps b (Dev.sjQuiet x0) := by
  unfold Dev.sjQuiet
  repeat' first
   | with_reducible assumption
   | with_reducible exact fun h => h
   | with_reducible exact rfl
   | (extract_lets +onlyGivenNames x; guard_hyp x : Dev := _; refine (fun (hx : Keeps b x) => ?_) ?_; rotate_left; unfold x; clear x; rotate_right; clear_value x)
   | extract_lets +onlyGivenNames x
   | with_reducible apply onPlat_keeps
   | with_reducible apply sjFlush_keeps
   | with_reducible refine keeps_ite (fun _ => ?_) (fun _ => ?_)

theorem fillExpires_keeps {b : Dev} {x0 : Dev} {x1 : Nat} {x2 : Nat} (hx0 : Keeps b x0) : Keeps b (Dev.fillExpires x0 x1 x2) := by
  unfold Dev.fillExpires
  repeat' first
   | with_reducible assumption
   | extract_lets +onlyGivenNames x
   | with_reducible apply padStripe_keeps
   | with_reducible apply startParity_keeps
   | with_reducible refine keeps_ite (fun _ => ?_) (fun _ => ?_)
   | split

theorem recomputeRun_keeps {b : Dev} {x0 : Dev} {x1 : Nat} {x2 : List (Nat × Nat × List Nat)} (hx0 : Keeps b x0) : Keeps b (Dev.recomputeRun x0 x1 x2) := by
  unfold Dev.recomputeRun
  repeat' first
   | with_reducible assumption
   | (extract_lets +onlyGivenNames x; guard_hyp x : Dev := _; refine (fun (hx : Keeps b x) => ?_) ?_; rotate_left; unfold x; clear x; rotate_right; clear_value x)
   | (extract_lets +onlyGivenNames x; clear_value x)
   | extract_lets +onlyGivenNames x
   | with_reducible apply onOdr_keeps
   | with_reducible apply runRecompute_keeps
   | with_reducible refine keeps_foldl ?_ (fun d x h => ?_)
   | with_reducible refine keeps_ite (fun _ => ?_) (fun _ => ?_)
   | split

theorem engineCheck_keeps {b : Dev} {x0 : Dev} {x1 : EngineRef} {x2 : Bool} (hx0 : Keeps b x0) : Keeps b (Dev.engineCheck x0 x1 x2) := by
  unfold Dev.engineCheck
  repeat' first
   | with_reducible assumption
   | with_reducible apply decoderFails_keeps
   | with_reducible apply engineFails_keeps
   | split

theorem trainingEnds_keeps {b : Dev} {x0 : Dev} {x1 : Nat} {x2 : Bool} {x3 : Nat} (hx0 : Keeps b x0) : Keeps b (Dev.trainingEnds x0 x1 x2 x3) := by
  unfold Dev.trainingEnds
  repeat' first
   | with_reducible assumption
   | (extract_lets +onlyGivenNames x; clear_value x)
   | extract_lets +onlyGivenNames x
   | with_reducible apply stackTrained_keeps
   | with_reducible apply takeInjected_keeps
   | with_reducible refine keeps_ite (fun _ => ?_) (fun _ => ?_)

theorem execDrainFrameStart_keeps {x0 : State}  : Steps x0.dev x0 (execDrainFrameStart x0) := by
  unfold execDrainFrameStart
  refine steps_run (fun d h => ?_)
  repeat' first
   | with_reducible assumption
   | extract_lets +onlyGivenNames x
   | with_reducible apply drainStart_keeps

theorem execDrainFrameEnd_keeps {x0 : Nat} {x1 : Nat} {x2 : State}  : Steps x2.dev x2 (execDrainFrameEnd x0 x1 x2) := by
  unfold execDrainFrameEnd
  refine steps_run (fun d h => ?_)
  repeat' first
   | with_reducible assumption
   | extract_lets +onlyGivenNames x
   | with_reducible apply drainEnd_keeps
   | with_reducible apply flashMoves_keeps
   | with_reducible refine keeps_ite (fun _ => ?_) (fun _ => ?_)

theorem execFrameDurable_keeps {x0 : Nat} {x1 : Nat} {x2 : State}  : Steps x2.dev x2 (execFrameDurable x0 x1 x2) := by
  unfold execFrameDurable
  refine steps_run (fun d h => ?_)
  repeat' first
   | with_reducible assumption
   | extract_lets +onlyGivenNames x
   | with_reducible apply frameDurable_keeps

theorem execEngineKnownAnswerCheck_keeps {x0 : EngineRef} {x1 : Bool} {x2 : State}  : Steps x2.dev x2 (execEngineKnownAnswerCheck x0 x1 x2) := by
  unfold execEngineKnownAnswerCheck
  refine steps_run (fun d h => ?_)
  repeat' first
   | with_reducible assumption
   | extract_lets +onlyGivenNames x
   | with_reducible apply engineCheck_keeps

theorem execStackTrained_keeps {x0 : Nat} {x1 : Bool} {x2 : Nat} {x3 : State}  : Steps x3.dev x3 (execStackTrained x0 x1 x2 x3) := by
  unfold execStackTrained
  refine steps_run (fun d h => ?_)
  repeat' first
   | with_reducible assumption
   | extract_lets +onlyGivenNames x
   | with_reducible apply hatPump_keeps
   | with_reducible apply trainingEnds_keeps

theorem execChannelTrained_keeps {x0 : Nat} {x1 : Bool} {x2 : List CeProbe} {x3 : State}  : Steps x3.dev x3 (execChannelTrained x0 x1 x2 x3) := by
  unfold execChannelTrained
  refine steps_run (fun d h => ?_)
  repeat' first
   | with_reducible assumption
   | extract_lets +onlyGivenNames x
   | with_reducible apply channelTrained_keeps
   | with_reducible apply flashMoves_keeps

theorem execZqCalTimer_keeps {x0 : Nat} {x1 : State}  : Steps x1.dev x1 (execZqCalTimer x0 x1) := by
  unfold execZqCalTimer
  refine steps_run (fun d h => ?_)
  repeat' first
   | with_reducible assumption
   | extract_lets +onlyGivenNames x
   | with_reducible apply zqCal_keeps

theorem execDieTempRead_keeps {x0 : Nat} {x1 : Nat} {x2 : Nat} {x3 : Int} {x4 : State}  : Steps x4.dev x4 (execDieTempRead x0 x1 x2 x3 x4) := by
  unfold execDieTempRead
  refine steps_run (fun d h => ?_)
  repeat' first
   | with_reducible assumption
   | extract_lets +onlyGivenNames x
   | with_reducible apply dieTemp_keeps

theorem execFlashProgramDone_keeps {x0 : Nat} {x1 : Bool} {x2 : State}  : Steps x2.dev x2 (execFlashProgramDone x0 x1 x2) := by
  unfold execFlashProgramDone
  refine steps_run (fun d h => ?_)
  repeat' first
   | with_reducible assumption
   | extract_lets +onlyGivenNames x
   | with_reducible apply flashMoves_keeps
   | with_reducible apply programEnds_keeps

theorem execFlashEraseDone_keeps {x0 : Nat} {x1 : Nat} {x2 : State}  : Steps x2.dev x2 (execFlashEraseDone x0 x1 x2) := by
  unfold execFlashEraseDone
  refine steps_run (fun d h => ?_)
  repeat' first
   | with_reducible assumption
   | extract_lets +onlyGivenNames x
   | with_reducible apply eraseEnds_keeps
   | with_reducible apply flashMoves_keeps

theorem execFlashReadDone_keeps {x0 : Nat} {x1 : ReadEnd} {x2 : List Nat} {x3 : State}  : Steps x3.dev x3 (execFlashReadDone x0 x1 x2 x3) := by
  unfold execFlashReadDone
  refine steps_run (fun d h => ?_)
  repeat' first
   | with_reducible assumption
   | extract_lets +onlyGivenNames x
   | with_reducible apply flashMoves_keeps
   | with_reducible apply readEnds_keeps

theorem execFlashOpTimeout_keeps {x0 : Nat} {x1 : State}  : Steps x1.dev x1 (execFlashOpTimeout x0 x1) := by
  unfold execFlashOpTimeout
  refine steps_run (fun d h => ?_)
  repeat' first
   | with_reducible assumption
   | extract_lets +onlyGivenNames x
   | with_reducible apply flashMoves_keeps
   | with_reducible apply opTimesOut_keeps

theorem execMapPageLoaded_keeps {x0 : Nat} {x1 : State}  : Steps x1.dev x1 (execMapPageLoaded x0 x1) := by
  unfold execMapPageLoaded
  refine steps_run (fun d h => ?_)
  repeat' first
   | with_reducible assumption
   | extract_lets +onlyGivenNames x
   | with_reducible apply flashMoves_keeps
   | with_reducible apply mapLoaded_keeps

theorem execMapPairWait_keeps {x0 : Nat} {x1 : State}  : Steps x1.dev x1 (execMapPairWait x0 x1) := by
  unfold execMapPairWait
  refine steps_run (fun d h => ?_)
  repeat' first
   | with_reducible assumption
   | extract_lets +onlyGivenNames x
   | with_reducible apply flashMoves_keeps
   | with_reducible apply pairWait_keeps

theorem execJournalFlush_keeps {x0 : State}  : Steps x0.dev x0 (execJournalFlush x0) := by
  unfold execJournalFlush
  refine steps_run (fun d h => ?_)
  repeat' first
   | with_reducible assumption
   | extract_lets +onlyGivenNames x
   | with_reducible apply flashMoves_keeps
   | with_reducible apply jflush_keeps
   | with_reducible refine keeps_ite (fun _ => ?_) (fun _ => ?_)

theorem execCheckpointStart_keeps {x0 : State}  : Steps x0.dev x0 (execCheckpointStart x0) := by
  unfold execCheckpointStart
  refine steps_run (fun d h => ?_)
  repeat' first
   | with_reducible assumption
   | extract_lets +onlyGivenNames x
   | with_reducible apply ckptStart_keeps
   | with_reducible apply flashMoves_keeps
   | with_reducible refine keeps_ite (fun _ => ?_) (fun _ => ?_)

theorem execCheckpointDone_keeps {x0 : State}  : Steps x0.dev x0 (execCheckpointDone x0) := by
  unfold execCheckpointDone
  refine steps_run (fun d h => ?_)
  repeat' first
   | with_reducible assumption
   | extract_lets +onlyGivenNames x
   | with_reducible apply catWhenReady_keeps
   | with_reducible apply ckptDone_keeps
   | with_reducible apply flashMoves_keeps

theorem execSflTimeAdvance_keeps {x0 : State}  : Steps x0.dev x0 (execSflTimeAdvance x0) := by
  unfold execSflTimeAdvance
  refine steps_run (fun d h => ?_)
  repeat' first
   | with_reducible assumption
   | extract_lets +onlyGivenNames x
   | with_reducible apply secondPasses_keeps

theorem execGcSourceSelect_keeps {x0 : Nat} {x1 : State}  : Steps x1.dev x1 (execGcSourceSelect x0 x1) := by
  unfold execGcSourceSelect
  refine steps_run (fun d h => ?_)
  repeat' first
   | with_reducible assumption
   | extract_lets +onlyGivenNames x
   | with_reducible apply flashMoves_keeps
   | with_reducible apply gcSelect_keeps

theorem execGcUnitCopy_keeps {x0 : Nat} {x1 : State}  : Steps x1.dev x1 (execGcUnitCopy x0 x1) := by
  unfold execGcUnitCopy
  refine steps_run (fun d h => ?_)
  repeat' first
   | with_reducible assumption
   | extract_lets +onlyGivenNames x
   | with_reducible apply flashMoves_keeps
   | with_reducible apply gcCopy_keeps

theorem execEraseStart_keeps {x0 : Nat} {x1 : State}  : Steps x1.dev x1 (execEraseStart x0 x1) := by
  unfold execEraseStart
  refine steps_run (fun d h => ?_)
  repeat' first
   | with_reducible assumption
   | extract_lets +onlyGivenNames x
   | with_reducible apply eraseStart_keeps
   | with_reducible apply flashMoves_keeps

theorem execFlashRebuild_keeps {x0 : Nat} {x1 : Unreadable} {x2 : State}  : Steps x2.dev x2 (execFlashRebuild x0 x1 x2) := by
  unfold execFlashRebuild
  refine steps_run (fun d h => ?_)
  repeat' first
   | with_reducible assumption
   | extract_lets +onlyGivenNames x
   | with_reducible apply catWhenReady_keeps
   | with_reducible apply flashMoves_keeps
   | with_reducible apply flashRebuild_keeps

theorem execPwrfail_keeps {x0 : State}  : Steps x0.dev x0 (execPwrfail x0) := by
  unfold execPwrfail
  refine steps_run (fun d h => ?_)
  repeat' first
   | with_reducible assumption
   | extract_lets +onlyGivenNames x
   | with_reducible apply pinFails_keeps

theorem execPwrfailFlashQuiet_keeps {x0 : List Nat} {x1 : State}  : Steps x1.dev x1 (execPwrfailFlashQuiet x0 x1) := by
  unfold execPwrfailFlashQuiet
  refine steps_run (fun d h => ?_)
  repeat' first
   | with_reducible assumption
   | extract_lets +onlyGivenNames x
   | with_reducible apply flashQuiet_keeps

theorem execSjCompleteAtPowerfail_keeps {x0 : State}  : Steps x0.dev x0 (execSjCompleteAtPowerfail x0) := by
  unfold execSjCompleteAtPowerfail
  refine steps_run (fun d h => ?_)
  repeat' first
   | with_reducible assumption
   | extract_lets +onlyGivenNames x
   | with_reducible apply sjQuiet_keeps

theorem execFillWaitExpiry_keeps {x0 : Nat} {x1 : Nat} {x2 : State}  : Steps x2.dev x2 (execFillWaitExpiry x0 x1 x2) := by
  unfold execFillWaitExpiry
  refine steps_run (fun d h => ?_)
  repeat' first
   | with_reducible assumption
   | extract_lets +onlyGivenNames x
   | with_reducible apply fillExpires_keeps
   | with_reducible apply flashMoves_keeps

theorem execSjSlotFlush_keeps {x0 : Bool} {x1 : Bool} {x2 : State}  : Steps x2.dev x2 (execSjSlotFlush x0 x1 x2) := by
  unfold execSjSlotFlush
  refine steps_run (fun d h => ?_)
  repeat' first
   | with_reducible assumption
   | extract_lets +onlyGivenNames x
   | with_reducible apply flashMoves_keeps
   | with_reducible apply sjFlush_keeps

theorem execShadowProgram_keeps {x0 : Bool} {x1 : State}  : Steps x1.dev x1 (execShadowProgram x0 x1) := by
  unfold execShadowProgram
  refine steps_run (fun d h => ?_)
  repeat' first
   | with_reducible assumption
   | extract_lets +onlyGivenNames x
   | with_reducible apply flashMoves_keeps
   | with_reducible apply shadowProgram_keeps

theorem execRebuildUnitMove_keeps {x0 : Nat} {x1 : List Nat} {x2 : State}  : Steps x2.dev x2 (execRebuildUnitMove x0 x1 x2) := by
  unfold execRebuildUnitMove
  refine steps_run (fun d h => ?_)
  repeat' first
   | with_reducible assumption
   | extract_lets +onlyGivenNames x
   | with_reducible apply flashMoves_keeps
   | with_reducible apply rebuildMove_keeps
   | with_reducible refine keeps_ite (fun _ => ?_) (fun _ => ?_)

theorem execReshapeUnitMove_keeps {x0 : Nat} {x1 : State}  : Steps x1.dev x1 (execReshapeUnitMove x0 x1) := by
  unfold execReshapeUnitMove
  refine steps_run (fun d h => ?_)
  repeat' first
   | with_reducible assumption
   | extract_lets +onlyGivenNames x
   | with_reducible apply flashMoves_keeps
   | with_reducible apply reshapeMove_keeps
   | with_reducible refine keeps_ite (fun _ => ?_) (fun _ => ?_)

theorem execDiscParityAdd_keeps {x0 : Nat} {x1 : Nat} {x2 : Nat} {x3 : State}  : Steps x3.dev x3 (execDiscParityAdd x0 x1 x2 x3) := by
  unfold execDiscParityAdd
  refine steps_run (fun d h => ?_)
  repeat' first
   | with_reducible assumption
   | extract_lets +onlyGivenNames x
   | with_reducible apply flashMoves_keeps
   | with_reducible apply parityAdd_keeps

theorem execRecompute_keeps {x0 : Nat} {x1 : List (Nat × Nat × List Nat)} {x2 : State}  : Steps x2.dev x2 (execRecompute x0 x1 x2) := by
  unfold execRecompute
  refine steps_run (fun d h => ?_)
  repeat' first
   | with_reducible assumption
   | extract_lets +onlyGivenNames x
   | with_reducible apply flashMoves_keeps
   | with_reducible apply recomputeRun_keeps

theorem execDiscRunCovered_keeps {x0 : Nat} {x1 : State}  : Steps x1.dev x1 (execDiscRunCovered x0 x1) := by
  unfold execDiscRunCovered
  refine steps_run (fun d h => ?_)
  repeat' first
   | with_reducible assumption
   | extract_lets +onlyGivenNames x
   | with_reducible apply flashMoves_keeps
   | with_reducible apply runDone_keeps

end Sys2Proof.Machine
end

