-- ==== Sys2Proof/Laws/Keeps/Lanes.lean ====
section
/-! SUPPORT. What every operation of Machine/Lanes.lean keeps. -/
namespace Sys2Proof.Machine
open Sys2Proof

set_option linter.unusedTactic false
set_option linter.unreachableTactic false
set_option linter.tactic.unusedName false

theorem cdrLock_keeps {b : Dev} {x0 : Dev} {x1 : Nat} (hx0 : Keeps b x0) : Keeps b (Dev.cdrLock x0 x1) := by
  unfold Dev.cdrLock
  repeat' first
   | with_reducible assumption
   | extract_lets +onlyGivenNames x
   | with_reducible apply setLaneSt_keeps
   | with_reducible refine keeps_ite (fun _ => ?_) (fun _ => ?_)

theorem syncLock_keeps {b : Dev} {x0 : Dev} {x1 : Nat} {x2 : Nat} (hx0 : Keeps b x0) : Keeps b (Dev.syncLock x0 x1 x2) := by
  unfold Dev.syncLock
  repeat' first
   | with_reducible assumption
   | (extract_lets +onlyGivenNames x; guard_hyp x : Dev := _; refine (fun (hx : Keeps b x) => ?_) ?_; rotate_left; unfold x; clear x; rotate_right; clear_value x)
   | extract_lets +onlyGivenNames x
   | with_reducible apply badHeaders_keeps
   | with_reducible apply setLaneSt_keeps
   | with_reducible refine keeps_ite (fun _ => ?_) (fun _ => ?_)

theorem headAm_keeps {b : Dev} {x0 : Dev} {x1 : Nat} {x2 : AmBlock} (hx0 : Keeps b x0) : Keeps b (Dev.headAm x0 x1 x2) := by
  unfold Dev.headAm
  repeat' first
   | with_reducible assumption
   | (extract_lets +onlyGivenNames x; guard_hyp x : Dev := _; refine (fun (hx : Keeps b x) => ?_) ?_; rotate_left; unfold x; clear x; rotate_right; clear_value x)
   | (extract_lets +onlyGivenNames x; clear_value x)
   | extract_lets +onlyGivenNames x
   | with_reducible apply onLane_keeps
   | with_reducible apply setLaneSt_keeps
   | with_reducible apply wr_keeps
   | with_reducible refine keeps_foldl ?_ (fun d x h => ?_)
   | with_reducible refine keeps_ite (fun _ => ?_) (fun _ => ?_)
   | split

theorem headLaneTo_keeps {b : Dev} {x0 : Dev} {x1 : Nat} {x2 : LaneSt} (hx0 : Keeps b x0) : Keeps b (Dev.headLaneTo x0 x1 x2) := by
  unfold Dev.headLaneTo
  repeat' first
   | with_reducible assumption
   | with_reducible refine fun (d : Dev) (h : Keeps b d) => ?_
   | (extract_lets +onlyGivenNames x; clear_value x)
   | extract_lets +onlyGivenNames x
   | with_reducible apply headLost_keeps
   | with_reducible apply setLaneSt_keeps
   | with_reducible apply when_keeps

theorem laneLostAt_keeps {b : Dev} {x0 : Dev} {x1 : Nat} {x2 : Nat} (hx0 : Keeps b x0) : Keeps b (Dev.laneLostAt x0 x1 x2) := by
  unfold Dev.laneLostAt
  repeat' first
   | with_reducible assumption
   | extract_lets +onlyGivenNames x
   | with_reducible apply flLost_keeps
   | with_reducible apply headLaneTo_keeps
   | with_reducible refine keeps_ite (fun _ => ?_) (fun _ => ?_)

theorem laneSilent_keeps {b : Dev} {x0 : Dev} {x1 : Nat} {x2 : Nat} (hx0 : Keeps b x0) : Keeps b (Dev.laneSilent x0 x1 x2) := by
  unfold Dev.laneSilent
  repeat' first
   | with_reducible assumption
   | extract_lets +onlyGivenNames x
   | with_reducible apply flSignalLoss_keeps
   | with_reducible apply headLaneTo_keeps
   | with_reducible refine keeps_ite (fun _ => ?_) (fun _ => ?_)
   | split

theorem execLaneCdrLock_keeps {x0 : Nat} {x1 : State}  : Steps x1.dev x1 (execLaneCdrLock x0 x1) := by
  unfold execLaneCdrLock
  refine steps_run (fun d h => ?_)
  repeat' first
   | with_reducible assumption
   | extract_lets +onlyGivenNames x
   | with_reducible apply cdrLock_keeps

theorem execLaneSyncLock_keeps {x0 : LaneEvent} {x1 : State}  : Steps x1.dev x1 (execLaneSyncLock x0 x1) := by
  unfold execLaneSyncLock
  refine steps_run (fun d h => ?_)
  repeat' first
   | with_reducible assumption
   | extract_lets +onlyGivenNames x
   | with_reducible apply syncLock_keeps

theorem execAmReceived_keeps {x0 : Nat} {x1 : AmBlock} {x2 : State}  : Steps x2.dev x2 (execAmReceived x0 x1 x2) := by
  unfold execAmReceived
  refine steps_run (fun d h => ?_)
  repeat' first
   | with_reducible assumption
   | extract_lets +onlyGivenNames x
   | with_reducible apply flAm_keeps
   | with_reducible apply headAm_keeps
   | with_reducible refine keeps_ite (fun _ => ?_) (fun _ => ?_)

theorem execLaneLost_keeps {x0 : LaneEvent} {x1 : State}  : Steps x1.dev x1 (execLaneLost x0 x1) := by
  unfold execLaneLost
  refine steps_run (fun d h => ?_)
  repeat' first
   | with_reducible assumption
   | extract_lets +onlyGivenNames x
   | with_reducible apply laneLostAt_keeps

theorem execLaneSignalLoss_keeps {x0 : LaneEvent} {x1 : State}  : Steps x1.dev x1 (execLaneSignalLoss x0 x1) := by
  unfold execLaneSignalLoss
  refine steps_run (fun d h => ?_)
  repeat' first
   | with_reducible assumption
   | extract_lets +onlyGivenNames x
   | with_reducible apply laneSilent_keeps

end Sys2Proof.Machine
end

