-- ==== Sys2Proof/Laws/Keeps/Views.lean ====
section
/-! SUPPORT. What every operation of Machine/Views.lean keeps. -/
namespace Sys2Proof.Machine
open Sys2Proof

set_option linter.unusedTactic false
set_option linter.unreachableTactic false
set_option linter.tactic.unusedName false

theorem showLegacy_keeps {b : Dev} {x0 : Dev} (hx0 : Keeps b x0) : Keeps b (Dev.showLegacy x0) := by
  unfold Dev.showLegacy
  repeat' first
   | with_reducible assumption
   | extract_lets +onlyGivenNames x
   | with_reducible apply setRaw_keeps
   | with_reducible refine keeps_foldl ?_ (fun d x h => ?_)

end Sys2Proof.Machine
end

