-- ==== Sys2Proof/Laws/Keeps/Tick.lean ====
section
/-! SUPPORT. What every operation of Machine/Tick.lean keeps. -/
namespace Sys2Proof.Machine
open Sys2Proof

set_option linter.unusedTactic false
set_option linter.unreachableTactic false
set_option linter.tactic.unusedName false

theorem refLost_keeps {b : Dev} {x0 : Dev} (hx0 : Keeps b x0) : Keeps b (Dev.refLost x0) := by
  unfold Dev.refLost
  repeat' first
   | with_reducible assumption
   | with_reducible exact fun h => h
   | with_reducible exact rfl
   | extract_lets +onlyGivenNames x
   | with_reducible apply chipEvent_keeps
   | with_reducible apply onPlat_keeps
   | with_reducible apply wr_keeps
   | with_reducible refine keeps_ite (fun _ => ?_) (fun _ => ?_)

theorem showPhase_keeps {b : Dev} {x0 : Dev} (hx0 : Keeps b x0) : Keeps b (Dev.showPhase x0) := by
  unfold Dev.showPhase
  repeat' first
   | with_reducible assumption
   | extract_lets +onlyGivenNames x
   | with_reducible apply wr_keeps
   | with_reducible refine keeps_ite (fun _ => ?_) (fun _ => ?_)

theorem refTick_keeps {b : Dev} {x0 : Dev} {x1 : Nat} {x2 : Int} (hx0 : Keeps b x0) : Keeps b (Dev.refTick x0 x1 x2) := by
  unfold Dev.refTick
  repeat' first
   | with_reducible assumption
   | with_reducible exact fun h => h
   | with_reducible exact rfl
   | (extract_lets +onlyGivenNames x; guard_hyp x : Dev := _; refine (fun (hx : Keeps b x) => ?_) ?_; rotate_left; unfold x; clear x; rotate_right; clear_value x)
   | (extract_lets +onlyGivenNames x; clear_value x)
   | extract_lets +onlyGivenNames x
   | with_reducible apply onPlat_keeps
   | with_reducible apply refLost_keeps
   | with_reducible apply showPhase_keeps
   | with_reducible apply wr_keeps
   | with_reducible refine keeps_ite (fun _ => ?_) (fun _ => ?_)

theorem refReturned_keeps {b : Dev} {x0 : Dev} (hx0 : Keeps b x0) : Keeps b (Dev.refReturned x0) := by
  unfold Dev.refReturned
  repeat' first
   | with_reducible assumption
   | with_reducible exact fun h => h
   | with_reducible exact rfl
   | extract_lets +onlyGivenNames x
   | with_reducible apply onPlat_keeps
   | with_reducible refine keeps_ite (fun _ => ?_) (fun _ => ?_)

theorem slewEnds_keeps {b : Dev} {x0 : Dev} (hx0 : Keeps b x0) : Keeps b (Dev.slewEnds x0) := by
  unfold Dev.slewEnds
  repeat' first
   | with_reducible assumption
   | extract_lets +onlyGivenNames x
   | with_reducible apply chipEvent_keeps
   | with_reducible apply showPhase_keeps
   | with_reducible apply wr_keeps
   | with_reducible refine keeps_ite (fun _ => ?_) (fun _ => ?_)

theorem phaseStep_keeps {b : Dev} {x0 : Dev} {x1 : Int} (hx0 : Keeps b x0) : Keeps b (Dev.phaseStep x0 x1) := by
  unfold Dev.phaseStep
  repeat' first
   | with_reducible assumption
   | with_reducible exact fun h => h
   | with_reducible exact rfl
   | extract_lets +onlyGivenNames x
   | with_reducible apply onPlat_keeps
   | with_reducible apply showPhase_keeps
   | with_reducible refine keeps_ite (fun _ => ?_) (fun _ => ?_)

theorem railReads_keeps {b : Dev} {x0 : Dev} {x1 : Nat} {x2 : Nat} (hx0 : Keeps b x0) : Keeps b (Dev.railReads x0 x1 x2) := by
  unfold Dev.railReads
  repeat' first
   | with_reducible assumption
   | (extract_lets +onlyGivenNames x; guard_hyp x : Dev := _; refine (fun (hx : Keeps b x) => ?_) ?_; rotate_left; unfold x; clear x; rotate_right; clear_value x)
   | (extract_lets +onlyGivenNames x; clear_value x)
   | extract_lets +onlyGivenNames x
   | with_reducible apply chipEvent_keeps
   | with_reducible apply raise_keeps
   | with_reducible apply wr_keeps
   | with_reducible refine keeps_ite (fun _ => ?_) (fun _ => ?_)

theorem railsTick_keeps {b : Dev} {x0 : Dev} (hx0 : Keeps b x0) : Keeps b (Dev.railsTick x0) := by
  unfold Dev.railsTick
  repeat' first
   | with_reducible assumption
   | with_reducible exact fun h => h
   | with_reducible exact rfl
   | with_reducible apply onPlat_keeps

theorem railTimeout_keeps {b : Dev} {x0 : Dev} {x1 : Nat} (hx0 : Keeps b x0) : Keeps b (Dev.railTimeout x0 x1) := by
  unfold Dev.railTimeout
  repeat' first
   | with_reducible assumption
   | extract_lets +onlyGivenNames x
   | with_reducible apply powerSequence_keeps
   | with_reducible apply showMot_keeps
   | with_reducible refine keeps_ite (fun _ => ?_) (fun _ => ?_)

theorem thermLevel_keeps {b : Dev} {x0 : Dev} {x1 : Nat} (hx0 : Keeps b x0) : Keeps b (Dev.thermLevel x0 x1) := by
  unfold Dev.thermLevel
  repeat' first
   | with_reducible assumption
   | with_reducible refine fun (d : Dev) (h : Keeps b d) => ?_
   | (extract_lets +onlyGivenNames x; guard_hyp x : Dev := _; refine (fun (hx : Keeps b x) => ?_) ?_; rotate_left; unfold x; clear x; rotate_right; clear_value x)
   | (extract_lets +onlyGivenNames x; clear_value x)
   | extract_lets +onlyGivenNames x
   | with_reducible apply chipEvent_keeps
   | with_reducible apply count_keeps
   | with_reducible apply raise_keeps
   | with_reducible apply when_keeps
   | with_reducible apply wr_keeps

theorem thermFall_keeps {b : Dev} {x0 : Dev} (hx0 : Keeps b x0) : Keeps b (Dev.thermFall x0) := by
  unfold Dev.thermFall
  repeat' first
   | with_reducible assumption
   | with_reducible exact fun h => h
   | with_reducible exact rfl
   | (extract_lets +onlyGivenNames x; clear_value x)
   | extract_lets +onlyGivenNames x
   | with_reducible apply onPlat_keeps
   | with_reducible apply thermLevel_keeps
   | with_reducible refine keeps_ite (fun _ => ?_) (fun _ => ?_)

theorem stackReads_keeps {b : Dev} {x0 : Dev} {x1 : Nat} {x2 : Int} (hx0 : Keeps b x0) : Keeps b (Dev.stackReads x0 x1 x2) := by
  unfold Dev.stackReads
  repeat' first
   | with_reducible assumption
   | (extract_lets +onlyGivenNames x; guard_hyp x : Dev := _; refine (fun (hx : Keeps b x) => ?_) ?_; rotate_left; unfold x; clear x; rotate_right; clear_value x)
   | (extract_lets +onlyGivenNames x; clear_value x)
   | extract_lets +onlyGivenNames x
   | with_reducible apply wrB_keeps
   | with_reducible apply wr_keeps
   | with_reducible apply raise_keeps
   | with_reducible refine keeps_ite (fun _ => ?_) (fun _ => ?_)

theorem thermTick_keeps {b : Dev} {x0 : Dev} {x1 : List Int} (hx0 : Keeps b x0) : Keeps b (Dev.thermTick x0 x1) := by
  unfold Dev.thermTick
  repeat' first
   | with_reducible assumption
   | with_reducible apply when_keeps
   | with_reducible apply stackReads_keeps
   | with_reducible refine fun (d : Dev) (h : Keeps b d) => ?_
   | with_reducible exact fun h => h
   | with_reducible exact rfl
   | (extract_lets +onlyGivenNames x; guard_hyp x : Dev := _; refine (fun (hx : Keeps b x) => ?_) ?_; rotate_left; unfold x; clear x; rotate_right; clear_value x)
   | (extract_lets +onlyGivenNames x; clear_value x)
   | extract_lets +onlyGivenNames x
   | with_reducible apply chipEvent_keeps
   | with_reducible apply onPlat_keeps
   | with_reducible apply raise_keeps
   | with_reducible apply safeState_keeps
   | with_reducible apply thermFall_keeps
   | with_reducible apply thermLevel_keeps
   | with_reducible apply wr_keeps
   | with_reducible refine keeps_foldl ?_ (fun d x h => ?_)
   | with_reducible refine keeps_ite (fun _ => ?_) (fun _ => ?_)

theorem stopsDue_keeps {b : Dev} {x0 : Dev} (hx0 : Keeps b x0) : Keeps b (Dev.stopsDue x0) := by
  unfold Dev.stopsDue
  repeat' first
   | with_reducible assumption
   | (extract_lets +onlyGivenNames x; guard_hyp x : Dev := _; refine (fun (hx : Keeps b x) => ?_) ?_; rotate_left; unfold x; clear x; rotate_right; clear_value x)
   | extract_lets +onlyGivenNames x
   | with_reducible apply onSfl_keeps
   | with_reducible apply safeStops_keeps
   | with_reducible apply wr_keeps
   | with_reducible refine keeps_ite (fun _ => ?_) (fun _ => ?_)

theorem upsetsIn_keeps {b : Dev} {x0 : Dev} {x1 : List CsUpset} (hx0 : Keeps b x0) : Keeps b (Dev.upsetsIn x0 x1) := by
  unfold Dev.upsetsIn
  repeat' first
   | with_reducible assumption
   | extract_lets +onlyGivenNames x
   | with_reducible apply onSrv_keeps
   | with_reducible refine keeps_foldl ?_ (fun d x h => ?_)
   | with_reducible refine keeps_ite (fun _ => ?_) (fun _ => ?_)

theorem driveTick_keeps {b : Dev} {x0 : Dev} {x1 : Nat} {x2 : SpinSample} (hx0 : Keeps b x0) : Keeps b (Dev.driveTick x0 x1 x2) := by
  unfold Dev.driveTick
  repeat' first
   | with_reducible assumption
   | extract_lets +onlyGivenNames x
   | with_reducible apply ladderTick_keeps
   | with_reducible apply parkTick_keeps
   | with_reducible apply recTick_keeps
   | with_reducible apply servoTick_keeps
   | with_reducible apply spinTick_keeps

theorem boundary_keeps {b : Dev} {x0 : Dev} {x1 : TickEnv} (hx0 : Keeps b x0) : Keeps b.later (Dev.boundary x0 x1) := by
  unfold Dev.boundary
  have h := keeps_later hx0 (f := fun p => { p with tick := p.tick + 1, evtSent := [], keysWere := [] }) (fun w => w) rfl rfl rfl rfl
  generalize x0.onPlat (fun p => { p with tick := p.tick + 1, evtSent := [], keysWere := [] }) = y at h
  extract_lets
  exact stopsDue_keeps (thermTick_keeps (keeps_foldl (railsTick_keeps (keeps_foldl (refTick_keeps (keeps_foldl (showLegacy_keeps (fwSwitch_keeps
    (mbbTick_keeps (commitsDue_keeps (shapesHeld_keeps h))))) (fun d n h => sessionApply_keeps h))) (fun d e h => railReads_keeps h)))
    (fun d i h => railTimeout_keeps h)))

theorem tickBegins_keeps {b : Dev} {x0 : Dev} {x1 : TickEnv} (hx0 : Keeps b x0) : Keeps b.later (Dev.tickBegins x0 x1) := by
  unfold Dev.tickBegins
  repeat' first
   | with_reducible assumption
   | (extract_lets +onlyGivenNames x; guard_hyp x : Dev := _; refine (fun (hx : Keeps b.later x) => ?_) ?_; rotate_left; unfold x; clear x; rotate_right; clear_value x)
   | extract_lets +onlyGivenNames x
   | with_reducible apply axisTick_keeps
   | with_reducible apply boundary_keeps
   | with_reducible apply calTick_keeps
   | with_reducible apply diskJobs_keeps
   | with_reducible apply driveTick_keeps
   | with_reducible apply fencedDiscs_keeps
   | with_reducible apply flashMoves_keeps
   | with_reducible apply issueWritebacks_keeps
   | with_reducible apply ldrTick_keeps
   | with_reducible apply sjTick_keeps
   | with_reducible apply tablesRetry_keeps
   | with_reducible apply upsetsIn_keeps
   | with_reducible refine keeps_foldl ?_ (fun d x h => ?_)

theorem execTickBoundary_keeps {x0 : TickEnv} {x1 : State}  : Steps x1.dev.later x1 (execTickBoundary x0 x1) := by
  exact ⟨_, rfl, tickBegins_keeps (Keeps.rfl' _)⟩

theorem execComputeWindowClose_keeps {x0 : TickCell} {x1 : State}  : Steps x1.dev x1 (execComputeWindowClose x0 x1) := by
  unfold execComputeWindowClose
  refine steps_run (fun d h => ?_)
  repeat' first
   | with_reducible assumption
   | extract_lets +onlyGivenNames x
   | with_reducible apply dtcOverrun_keeps
   | with_reducible apply servoOverrun_keeps
   | with_reducible apply stepOverrun_keeps
   | with_reducible apply tapOverrun_keeps
   | split

theorem execRefclkLost_keeps {x0 : Bool} {x1 : State}  : Steps x1.dev x1 (execRefclkLost x0 x1) := by
  unfold execRefclkLost
  refine steps_run (fun d h => ?_)
  repeat' first
   | with_reducible assumption
   | with_reducible exact fun h => h
   | with_reducible exact rfl
   | extract_lets +onlyGivenNames x
   | with_reducible apply onPlat_keeps
   | with_reducible apply refLost_keeps
   | with_reducible refine keeps_ite (fun _ => ?_) (fun _ => ?_)

theorem execRefclkReturned_keeps {x0 : State}  : Steps x0.dev x0 (execRefclkReturned x0) := by
  unfold execRefclkReturned
  refine steps_run (fun d h => ?_)
  repeat' first
   | with_reducible assumption
   | extract_lets +onlyGivenNames x
   | with_reducible apply refReturned_keeps

theorem execPhaseSlewEnd_keeps {x0 : State}  : Steps x0.dev x0 (execPhaseSlewEnd x0) := by
  unfold execPhaseSlewEnd
  refine steps_run (fun d h => ?_)
  repeat' first
   | with_reducible assumption
   | extract_lets +onlyGivenNames x
   | with_reducible apply slewEnds_keeps

theorem execRefclkPhaseStep_keeps {x0 : Int} {x1 : State}  : Steps x1.dev x1 (execRefclkPhaseStep x0 x1) := by
  unfold execRefclkPhaseStep
  refine steps_run (fun d h => ?_)
  repeat' first
   | with_reducible assumption
   | extract_lets +onlyGivenNames x
   | with_reducible apply phaseStep_keeps

theorem execRailStateChange_keeps {x0 : Nat} {x1 : Nat} {x2 : State}  : Steps x2.dev x2 (execRailStateChange x0 x1 x2) := by
  unfold execRailStateChange
  refine steps_run (fun d h => ?_)
  repeat' first
   | with_reducible assumption
   | extract_lets +onlyGivenNames x
   | with_reducible apply railReads_keeps

theorem execRailOutTimeout_keeps {x0 : Nat} {x1 : State}  : Steps x1.dev x1 (execRailOutTimeout x0 x1) := by
  unfold execRailOutTimeout
  refine steps_run (fun d h => ?_)
  repeat' first
   | with_reducible assumption
   | extract_lets +onlyGivenNames x
   | with_reducible apply railTimeout_keeps

theorem execThermalLevelFall_keeps {x0 : State}  : Steps x0.dev x0 (execThermalLevelFall x0) := by
  unfold execThermalLevelFall
  refine steps_run (fun d h => ?_)
  repeat' first
   | with_reducible assumption
   | extract_lets +onlyGivenNames x
   | with_reducible apply flashMoves_keeps
   | with_reducible apply thermFall_keeps

end Sys2Proof.Machine
end

