-- ==== Sys2Proof/Laws/Keeps/Startup.lean ====
section
/-! SUPPORT. What every operation of Machine/Startup.lean keeps. -/
namespace Sys2Proof.Machine
open Sys2Proof

set_option linter.unusedTactic false
set_option linter.unreachableTactic false
set_option linter.tactic.unusedName false

theorem chipReset_keeps {b : Dev} {x0 : Dev} {x1 : List Nat} (hx0 : Keeps b x0) : Keeps b.awake (Dev.chipReset x0 x1) := by
  have h := keeps_reset (freeCtr := x0.freeCtr) (readVal := x0.readVal) hx0
  exact onMot_keeps (onPar_keeps (onSfl_keeps (onPlat_keeps (setRaw_keeps h) (fun w => w) rfl rfl rfl rfl)))

theorem imagesLoad_keeps {b : Dev} {x0 : Dev} {x1 : List Bool} (hx0 : Keeps b x0) : Keeps b (Dev.imagesLoad x0 x1) := by
  unfold Dev.imagesLoad
  repeat' first
   | with_reducible assumption
   | with_reducible refine keeps_fst_foldl ?_ (fun p x h => ?_)
   | (extract_lets +onlyGivenNames x; guard_hyp x : Dev := _; refine (fun (hx : Keeps b x) => ?_) ?_; rotate_left; unfold x; clear x; rotate_right; clear_value x)
   | (extract_lets +onlyGivenNames x; clear_value x)
   | extract_lets +onlyGivenNames x
   | with_reducible apply raise_keeps
   | with_reducible apply safeState_keeps
   | with_reducible apply setUnit_keeps
   | with_reducible apply wr_keeps
   | split
   | with_reducible refine keepsP_mk ?_
   | with_reducible refine keeps_pair ?_ ‹_ = (_, _)›

theorem savedRegs_keeps {b : Dev} {x0 : Dev} (hx0 : Keeps b x0) : Keeps b (Dev.savedRegs x0) := by
  unfold Dev.savedRegs
  repeat' first
   | with_reducible assumption
   | with_reducible exact fun h => h
   | with_reducible refine fun (d : Dev) (h : Keeps b d) => ?_
   | with_reducible exact rfl
   | (extract_lets +onlyGivenNames x; guard_hyp x : Dev := _; refine (fun (hx : Keeps b x) => ?_) ?_; rotate_left; unfold x; clear x; rotate_right; clear_value x)
   | (extract_lets +onlyGivenNames x; clear_value x)
   | extract_lets +onlyGivenNames x
   | with_reducible apply onPlat_keeps
   | with_reducible apply put64_keeps
   | with_reducible apply setRaw_keeps
   | with_reducible apply when_keeps
   | with_reducible apply wr_keeps
   | with_reducible refine keeps_foldl ?_ (fun d x h => ?_)

theorem savedResults_keeps {b : Dev} {x0 : Dev} (hx0 : Keeps b x0) : Keeps b (Dev.savedResults x0) := by
  unfold Dev.savedResults
  repeat' first
   | with_reducible assumption
   | extract_lets +onlyGivenNames x
   | with_reducible apply wr_keeps
   | with_reducible refine keeps_foldl ?_ (fun d x h => ?_)

theorem lostRestored_keeps {b : Dev} {x0 : Dev} (hx0 : Keeps b x0) : Keeps b (Dev.lostRestored x0) := by
  unfold Dev.lostRestored
  repeat' first
   | with_reducible assumption
   | (extract_lets +onlyGivenNames x; guard_hyp x : Dev := _; refine (fun (hx : Keeps b x) => ?_) ?_; rotate_left; unfold x; clear x; rotate_right; clear_value x)
   | (extract_lets +onlyGivenNames x; clear_value x)
   | extract_lets +onlyGivenNames x
   | with_reducible apply onSfl_keeps
   | with_reducible apply wr_keeps
   | with_reducible refine keeps_foldl ?_ (fun d x h => ?_)
   | with_reducible refine keeps_ite (fun _ => ?_) (fun _ => ?_)

theorem rootApply_keeps {b : Dev} {x0 : Dev} {x1 : List (Nat × Nat × Nat)} {x2 : Nat} (hx0 : Keeps b x0) : Keeps b (Dev.rootApply x0 x1 x2) := by
  unfold Dev.rootApply
  repeat' first
   | with_reducible assumption
   | with_reducible refine fun (d : Dev) (h : Keeps b d) => ?_
   | (extract_lets +onlyGivenNames x; guard_hyp x : Dev := _; refine (fun (hx : Keeps b x) => ?_) ?_; rotate_left; unfold x; clear x; rotate_right; clear_value x)
   | (extract_lets +onlyGivenNames x; clear_value x)
   | extract_lets +onlyGivenNames x
   | with_reducible apply parRootWrite_keeps
   | with_reducible apply tablesGrant_keeps
   | with_reducible apply when_keeps
   | with_reducible apply wr_keeps
   | with_reducible refine keeps_foldl ?_ (fun d x h => ?_)
   | with_reducible refine keeps_ite (fun _ => ?_) (fun _ => ?_)

theorem shapesRestored_keeps {b : Dev} {x0 : Dev} (hx0 : Keeps b x0) : Keeps b (Dev.shapesRestored x0) := by
  unfold Dev.shapesRestored
  repeat' first
   | with_reducible assumption
   | with_reducible refine fun (d : Dev) (h : Keeps b d) => ?_
   | (extract_lets +onlyGivenNames x; guard_hyp x : Dev := _; refine (fun (hx : Keeps b x) => ?_) ?_; rotate_left; unfold x; clear x; rotate_right; clear_value x)
   | (extract_lets +onlyGivenNames x; clear_value x)
   | extract_lets +onlyGivenNames x
   | with_reducible apply addStaged_keeps
   | with_reducible apply commitState_keeps
   | with_reducible apply onPar_keeps
   | with_reducible apply when_keeps
   | with_reducible apply wr_keeps
   | with_reducible refine keeps_foldl ?_ (fun d x h => ?_)

theorem profApply_keeps {b : Dev} {x0 : Dev} {x1 : Nat × Bool × Nat} (hx0 : Keeps b x0) : Keeps b (Dev.profApply x0 x1) := by
  unfold Dev.profApply
  repeat' first
   | with_reducible assumption
   | (extract_lets +onlyGivenNames x; guard_hyp x : Dev := _; refine (fun (hx : Keeps b x) => ?_) ?_; rotate_left; unfold x; clear x; rotate_right; clear_value x)
   | extract_lets +onlyGivenNames x
   | with_reducible apply commitsDue_keeps
   | with_reducible apply write32_keeps
   | with_reducible refine keeps_ite (fun _ => ?_) (fun _ => ?_)

theorem profileLoads_keeps {b : Dev} {x0 : Dev} (hx0 : Keeps b x0) : Keeps b (Dev.profileLoads x0) := by
  unfold Dev.profileLoads
  repeat' first
   | with_reducible assumption
   | with_reducible apply wrB_keeps
   | with_reducible refine fun (d : Dev) (h : Keeps b d) => ?_
   | (extract_lets +onlyGivenNames x; guard_hyp x : Dev := _; refine (fun (hx : Keeps b x) => ?_) ?_; rotate_left; unfold x; clear x; rotate_right; clear_value x)
   | (extract_lets +onlyGivenNames x; clear_value x)
   | extract_lets +onlyGivenNames x
   | with_reducible apply profApply_keeps
   | with_reducible apply raise_keeps
   | with_reducible apply when_keeps
   | with_reducible apply wr_keeps
   | with_reducible refine keeps_foldl ?_ (fun d x h => ?_)
   | with_reducible refine keeps_ite (fun _ => ?_) (fun _ => ?_)
   | split

theorem strapsLatch_keeps {b : Dev} {x0 : Dev} {x1 : StartIn} (hx0 : Keeps b x0) : Keeps b.unstarted (Dev.strapsLatch x0 x1) := by
  unfold Dev.strapsLatch
  have h := keeps_latch hx0 (f := fun p => { p with
    jdmsel := x1.jdmsel, refsel := x1.refsel, testEn := x1.testEn, perst := x1.perst,
    railValid := List.replicate 8 true, tick := 0 }) (fun w => w)
  extract_lets
  refine when_keeps (keeps_foldl (wrB_keeps (wrB_keeps h)) (fun d e h => wrB_keeps h)) (fun d h => ?_)
  exact mramPut_keeps (wr_keeps h) (fun m => Nat.le_refl _)

theorem storesStart_keeps {b : Dev} {x0 : Dev} {x1 : StartIn} (hx0 : Keeps b x0) : Keeps b (Dev.storesStart x0 x1) := by
  unfold Dev.storesStart
  repeat' first
   | with_reducible assumption
   | (extract_lets +onlyGivenNames x; guard_hyp x : Dev := _; refine (fun (hx : Keeps b x) => ?_) ?_; rotate_left; unfold x; clear x; rotate_right; clear_value x)
   | extract_lets +onlyGivenNames x
   | with_reducible apply showRing_keeps
   | with_reducible apply showRuns_keeps
   | with_reducible apply sjRestore_keeps
   | with_reducible apply stackTrained_keeps
   | with_reducible apply wrB_keeps
   | with_reducible apply wr_keeps
   | with_reducible refine keeps_foldl ?_ (fun d x h => ?_)
   | split

theorem startWork_keeps {b : Dev} {x0 : Dev} {x1 : StartIn} (hx0 : Keeps b x0) : Keeps b (Dev.startWork x0 x1) := by
  unfold Dev.startWork
  repeat' first
   | with_reducible assumption
   | with_reducible refine fun (d : Dev) (h : Keeps b d) => ?_
   | (extract_lets +onlyGivenNames x; guard_hyp x : Dev := _; refine (fun (hx : Keeps b x) => ?_) ?_; rotate_left; unfold x; clear x; rotate_right; clear_value x)
   | extract_lets +onlyGivenNames x
   | with_reducible apply calQueue_keeps
   | with_reducible apply commitsDue_keeps
   | with_reducible apply estop_keeps
   | with_reducible apply imagesLoad_keeps
   | with_reducible apply lostRestored_keeps
   | with_reducible apply profileLoads_keeps
   | with_reducible apply refLost_keeps
   | with_reducible apply rolesAtStart_keeps
   | with_reducible apply rootApply_keeps
   | with_reducible apply savedRegs_keeps
   | with_reducible apply savedResults_keeps
   | with_reducible apply setLevel_keeps
   | with_reducible apply shapesRestored_keeps
   | with_reducible apply storesStart_keeps
   | with_reducible apply when_keeps
   | with_reducible apply wr_keeps
   | with_reducible refine keeps_foldl ?_ (fun d x h => ?_)

theorem startUp_keeps {b : Dev} {x0 : Dev} {x1 : StartIn} (hx0 : Keeps b x0) : Keeps b.unstarted (Dev.startUp x0 x1) := by
  unfold Dev.startUp
  have h := strapsLatch_keeps (x1 := x1) hx0
  exact keeps_ite (fun _ => keeps_unstarted hx0) (fun _ => keeps_ite (fun _ => onPlat_keeps h (fun w => w) rfl rfl rfl rfl)
    (fun _ => startWork_keeps (onPlat_keeps h (fun w => w) rfl rfl rfl rfl)))

theorem spinNamed_keeps {b : Dev} {x0 : Dev} {x1 : Nat} (hx0 : Keeps b x0) : Keeps b (Dev.spinNamed x0 x1) := by
  unfold Dev.spinNamed
  repeat' first
   | with_reducible assumption
   | with_reducible refine fun (d : Dev) (h : Keeps b d) => ?_
   | (extract_lets +onlyGivenNames x; guard_hyp x : Dev := _; refine (fun (hx : Keeps b x) => ?_) ?_; rotate_left; unfold x; clear x; rotate_right; clear_value x)
   | (extract_lets +onlyGivenNames x; clear_value x)
   | extract_lets +onlyGivenNames x
   | with_reducible apply onDrive_keeps
   | with_reducible apply spinUp_keeps
   | with_reducible apply unitOn_keeps
   | with_reducible apply when_keeps
   | with_reducible apply wr_keeps
   | with_reducible refine keeps_ite (fun _ => ?_) (fun _ => ?_)

theorem becomesReady_keeps {b : Dev} {x0 : Dev} {x1 : Nat} (hx0 : Keeps b x0) : Keeps b (Dev.becomesReady x0 x1) := by
  unfold Dev.becomesReady
  repeat' first
   | with_reducible assumption
   | with_reducible exact fun h => h
   | with_reducible exact rfl
   | (extract_lets +onlyGivenNames x; guard_hyp x : Dev := _; refine (fun (hx : Keeps b x) => ?_) ?_; rotate_left; unfold x; clear x; rotate_right; clear_value x)
   | extract_lets +onlyGivenNames x
   | with_reducible apply onPlat_keeps
   | with_reducible apply sesEvent_keeps
   | with_reducible apply spinNamed_keeps
   | with_reducible apply wr_keeps
   | with_reducible refine keeps_foldl ?_ (fun d x h => ?_)
   | with_reducible refine keeps_ite (fun _ => ?_) (fun _ => ?_)
   | split

theorem railUp_keeps {b : Dev} {x0 : Dev} {x1 : Nat} {x2 : Nat} (hx0 : Keeps b x0) : Keeps b (Dev.railUp x0 x1 x2) := by
  unfold Dev.railUp
  repeat' first
   | with_reducible assumption
   | with_reducible exact fun h => h
   | with_reducible refine fun (d : Dev) (h : Keeps b d) => ?_
   | with_reducible exact rfl
   | (extract_lets +onlyGivenNames x; guard_hyp x : Dev := _; refine (fun (hx : Keeps b x) => ?_) ?_; rotate_left; unfold x; clear x; rotate_right; clear_value x)
   | (extract_lets +onlyGivenNames x; clear_value x)
   | extract_lets +onlyGivenNames x
   | with_reducible apply onPlat_keeps
   | with_reducible apply when_keeps
   | with_reducible apply wr_keeps
   | with_reducible apply wrB_keeps
   | with_reducible refine keeps_ite (fun _ => ?_) (fun _ => ?_)

theorem tapTakes_keeps {b : Dev} {x0 : Dev} {x1 : TapInstr} (hx0 : Keeps b x0) : Keeps b (Dev.tapTakes x0 x1) := by
  unfold Dev.tapTakes
  repeat' first
   | with_reducible assumption
   | with_reducible exact fun h => h
   | with_reducible exact rfl
   | (extract_lets +onlyGivenNames x; guard_hyp x : Dev := _; refine (fun (hx : Keeps b x) => ?_) ?_; rotate_left; unfold x; clear x; rotate_right; clear_value x)
   | (extract_lets +onlyGivenNames x; clear_value x)
   | with_reducible apply answer_keeps
   | with_reducible apply onPlat_keeps
   | split

theorem execRailValid_keeps {x0 : Nat} {x1 : Nat} {x2 : State}  : Steps x2.dev x2 (execRailValid x0 x1 x2) := by
  unfold execRailValid
  refine steps_run (fun d h => ?_)
  repeat' first
   | with_reducible assumption
   | extract_lets +onlyGivenNames x
   | with_reducible apply railUp_keeps

theorem execResetNAssert_keeps {x0 : List Nat} {x1 : State}  : Steps x1.dev.awake x1 (execResetNAssert x0 x1) := by
  exact ⟨_, rfl, wr_keeps (chipReset_keeps (Keeps.rfl' _))⟩

theorem execSoftResetTakesEffect_keeps {x0 : Bool} {x1 : State}  : Steps x1.dev.awake x1 (execSoftResetTakesEffect x0 x1) := by
  refine ⟨_, rfl, ?_⟩
  have h := Keeps.rfl' x1.dev
  exact keeps_ite (fun _ => wr_keeps (chipReset_keeps (sjQuiet_keeps (flashQuiet_keeps h)))) (fun _ => keeps_awake h)

theorem execStartup_keeps {x0 : StartIn} {x1 : State}  : Steps x1.dev.unstarted x1 (execStartup x0 x1) := by
  exact ⟨_, rfl, startUp_keeps (Keeps.rfl' _)⟩

theorem execReady_keeps {x0 : Nat} {x1 : State}  : Steps x1.dev x1 (execReady x0 x1) := by
  unfold execReady
  refine steps_run (fun d h => ?_)
  repeat' first
   | with_reducible assumption
   | extract_lets +onlyGivenNames x
   | with_reducible apply becomesReady_keeps

theorem execPerstNRelease_keeps {x0 : State}  : Steps x0.dev x0 (execPerstNRelease x0) := by
  unfold execPerstNRelease
  refine steps_run (fun d h => ?_)
  repeat' first
   | with_reducible assumption
   | with_reducible exact fun h => h
   | with_reducible exact rfl
   | extract_lets +onlyGivenNames x
   | with_reducible apply onPlat_keeps

theorem execJtagReset_keeps {x0 : State}  : Steps x0.dev x0 (execJtagReset x0) := by
  unfold execJtagReset
  refine steps_run (fun d h => ?_)
  repeat' first
   | with_reducible assumption
   | with_reducible exact fun h => h
   | with_reducible exact rfl
   | extract_lets +onlyGivenNames x
   | with_reducible apply onPlat_keeps

theorem execTapInstruction_keeps {x0 : TapInstr} {x1 : State}  : Steps x1.dev x1 (execTapInstruction x0 x1) := by
  unfold execTapInstruction
  refine steps_run (fun d h => ?_)
  repeat' first
   | with_reducible assumption
   | extract_lets +onlyGivenNames x
   | with_reducible apply tapTakes_keeps

end Sys2Proof.Machine
end

