-- ==== Sys2Proof/Laws/Keeps/Exec.lean ====
section
/-! SUPPORT. What every command, and so every step, keeps. -/
namespace Sys2Proof.Machine
open Sys2Proof

/-- Every command but the two resets answers a next state with the queue untouched, and keeps all but the time. -/
theorem exec_keeps (c : Instr) (s : State) (h : ∀ l, c ≠ .resetNAssert l) (h' : ∀ r, c ≠ .softResetTakesEffect r) :
    Steps s.dev.unstarted s (exec c s) := by
  cases c with
  | tickBoundary a0 => exact steps_later (execTickBoundary_keeps (x0 := a0))
  | computeWindowClose a0 => exact steps_unstarted (execComputeWindowClose_keeps (x0 := a0))
  | outputDispatch a0 => exact steps_unstarted (execOutputDispatch_keeps (x0 := a0))
  | selfCheckVerdict a0 a1 => exact steps_unstarted (execSelfCheckVerdict_keeps (x0 := a0) (x1 := a1))
  | refclkLost a0 => exact steps_unstarted (execRefclkLost_keeps (x0 := a0))
  | refclkReturned => exact steps_unstarted execRefclkReturned_keeps
  | phaseSlewEnd => exact steps_unstarted execPhaseSlewEnd_keeps
  | refclkPhaseStep a0 => exact steps_unstarted (execRefclkPhaseStep_keeps (x0 := a0))
  | class3Promotion a0 => exact steps_unstarted (execClass3Promotion_keeps (x0 := a0))
  | registerWrite a0 => exact steps_unstarted (execRegisterWrite_keeps (x0 := a0))
  | readClearRead a0 => exact steps_unstarted (execReadClearRead_keeps (x0 := a0))
  | pltTickLoRead => exact steps_unstarted execPltTickLoRead_keeps
  | latchedLoRead a0 => exact steps_unstarted (execLatchedLoRead_keeps (x0 := a0))
  | errorInject a0 a1 => exact steps_unstarted (execErrorInject_keeps (x0 := a0) (x1 := a1))
  | fenceConfirm a0 => exact steps_unstarted (execFenceConfirm_keeps (x0 := a0))
  | fenceTimeout a0 => exact steps_unstarted (execFenceTimeout_keeps (x0 := a0))
  | pgCommitKey a0 a1 => exact steps_unstarted (execPgCommitKey_keeps (x0 := a0) (x1 := a1))
  | pgCommitCancel a0 a1 => exact steps_unstarted (execPgCommitCancel_keeps (x0 := a0) (x1 := a1))
  | groupCommit a0 a1 => exact steps_unstarted (execGroupCommit_keeps (x0 := a0) (x1 := a1))
  | groupCancel a0 a1 => exact steps_unstarted (execGroupCancel_keeps (x0 := a0) (x1 := a1))
  | commitApply a0 => exact steps_unstarted (execCommitApply_keeps (x0 := a0))
  | mbbBuildComplete a0 a1 => exact steps_unstarted (execMbbBuildComplete_keeps (x0 := a0) (x1 := a1))
  | mbbSwitch a0 => exact steps_unstarted (execMbbSwitch_keeps (x0 := a0))
  | mbbBuildFail a0 => exact steps_unstarted (execMbbBuildFail_keeps (x0 := a0))
  | mbbTeardownDone a0 => exact steps_unstarted (execMbbTeardownDone_keeps (x0 := a0))
  | unitEnable a0 a1 => exact steps_unstarted (execUnitEnable_keeps (x0 := a0) (x1 := a1))
  | unitDisable a0 => exact steps_unstarted (execUnitDisable_keeps (x0 := a0))
  | unitQuiesce a0 => exact steps_unstarted (execUnitQuiesce_keeps (x0 := a0))
  | unitResume a0 => exact steps_unstarted (execUnitResume_keeps (x0 := a0))
  | unitIsolate a0 => exact steps_unstarted (execUnitIsolate_keeps (x0 := a0))
  | unitDeisolate a0 a1 => exact steps_unstarted (execUnitDeisolate_keeps (x0 := a0) (x1 := a1))
  | quiesceComplete a0 => exact steps_unstarted (execQuiesceComplete_keeps (x0 := a0))
  | quiesceTimeout a0 => exact steps_unstarted (execQuiesceTimeout_keeps (x0 := a0))
  | jdmCompatWrite a0 a1 => exact steps_unstarted (execJdmCompatWrite_keeps (x0 := a0) (x1 := a1))
  | fwImageLoaded => exact steps_unstarted execFwImageLoaded_keeps
  | fwQuiesceReached => exact steps_unstarted execFwQuiesceReached_keeps
  | fwActivationAbandon => exact steps_unstarted execFwActivationAbandon_keeps
  | pltRstCtrlChip => exact steps_unstarted execPltRstCtrlChip_keeps
  | softResetTakesEffect l => exact absurd rfl (h' l)
  | railStateChange a0 a1 => exact steps_unstarted (execRailStateChange_keeps (x0 := a0) (x1 := a1))
  | railOutTimeout a0 => exact steps_unstarted (execRailOutTimeout_keeps (x0 := a0))
  | laneCdrLock a0 => exact steps_unstarted (execLaneCdrLock_keeps (x0 := a0))
  | laneSyncLock a0 => exact steps_unstarted (execLaneSyncLock_keeps (x0 := a0))
  | amReceived a0 a1 => exact steps_unstarted (execAmReceived_keeps (x0 := a0) (x1 := a1))
  | laneLost a0 => exact steps_unstarted (execLaneLost_keeps (x0 := a0))
  | laneSignalLoss a0 => exact steps_unstarted (execLaneSignalLoss_keeps (x0 := a0))
  | podReceived a0 => exact steps_unstarted (execPodReceived_keeps (x0 := a0))
  | podPayloadWritten a0 a1 a2 => exact steps_unstarted (execPodPayloadWritten_keeps (x0 := a0) (x1 := a1) (x2 := a2))
  | creditPodPeriodic a0 a1 => exact steps_unstarted (execCreditPodPeriodic_keeps (x0 := a0) (x1 := a1))
  | pairingTimeout a0 a1 => exact steps_unstarted (execPairingTimeout_keeps (x0 := a0) (x1 := a1))
  | frameComplete a0 a1 => exact steps_unstarted (execFrameComplete_keeps (x0 := a0) (x1 := a1))
  | timeout a0 a1 => exact steps_unstarted (execTimeout_keeps (x0 := a0) (x1 := a1))
  | sesCtrlArm a0 => exact steps_unstarted (execSesCtrlArm_keeps (x0 := a0))
  | sesCtrlTrigger a0 a1 => exact steps_unstarted (execSesCtrlTrigger_keeps (x0 := a0) (x1 := a1))
  | sesCtrlStop a0 => exact steps_unstarted (execSesCtrlStop_keeps (x0 := a0))
  | sesCtrlDisarm a0 => exact steps_unstarted (execSesCtrlDisarm_keeps (x0 := a0))
  | trgEdge a0 a1 a2 => exact steps_unstarted (execTrgEdge_keeps (x0 := a0) (x1 := a1) (x2 := a2))
  | sessionStateApply a0 => exact steps_unstarted (execSessionStateApply_keeps (x0 := a0))
  | postExpiry a0 => exact steps_unstarted (execPostExpiry_keeps (x0 := a0))
  | takeSealed a0 => exact steps_unstarted (execTakeSealed_keeps (x0 := a0))
  | ltcFrameDecoded a0 a1 a2 => exact steps_unstarted (execLtcFrameDecoded_keeps (x0 := a0) (x1 := a1) (x2 := a2))
  | ltcLoss => exact steps_unstarted execLtcLoss_keeps
  | drainFrameStart => exact steps_unstarted execDrainFrameStart_keeps
  | drainFrameEnd a0 a1 => exact steps_unstarted (execDrainFrameEnd_keeps (x0 := a0) (x1 := a1))
  | frameDurable a0 a1 => exact steps_unstarted (execFrameDurable_keeps (x0 := a0) (x1 := a1))
  | engineKnownAnswerCheck a0 a1 => exact steps_unstarted (execEngineKnownAnswerCheck_keeps (x0 := a0) (x1 := a1))
  | stackTrained a0 a1 a2 => exact steps_unstarted (execStackTrained_keeps (x0 := a0) (x1 := a1) (x2 := a2))
  | storeRead a0 => exact steps_unstarted (execStoreRead_keeps (x0 := a0))
  | storeWrite a0 => exact steps_unstarted (execStoreWrite_keeps (x0 := a0))
  | zeroFillDone a0 => exact steps_unstarted (execZeroFillDone_keeps (x0 := a0))
  | narrowWrite a0 => exact steps_unstarted (execNarrowWrite_keeps (x0 := a0))
  | mergeClose a0 => exact steps_unstarted (execMergeClose_keeps (x0 := a0))
  | scrubTick a0 => exact steps_unstarted (execScrubTick_keeps (x0 := a0))
  | bpmGrant a0 a1 => exact steps_unstarted (execBpmGrant_keeps (x0 := a0) (x1 := a1))
  | bpmFree a0 a1 => exact steps_unstarted (execBpmFree_keeps (x0 := a0) (x1 := a1))
  | freeComplete a0 => exact steps_unstarted (execFreeComplete_keeps (x0 := a0))
  | bpmRelease a0 a1 => exact steps_unstarted (execBpmRelease_keeps (x0 := a0) (x1 := a1))
  | bpmShare a0 a1 a2 a3 => exact steps_unstarted (execBpmShare_keeps (x0 := a0) (x1 := a1) (x2 := a2) (x3 := a3))
  | bpmTransfer a0 a1 a2 => exact steps_unstarted (execBpmTransfer_keeps (x0 := a0) (x1 := a1) (x2 := a2))
  | bpmHostwSet a0 a1 => exact steps_unstarted (execBpmHostwSet_keeps (x0 := a0) (x1 := a1))
  | bpmHostwClr a0 a1 => exact steps_unstarted (execBpmHostwClr_keeps (x0 := a0) (x1 := a1))
  | cacheRead a0 => exact steps_unstarted (execCacheRead_keeps (x0 := a0))
  | cacheWrite a0 => exact steps_unstarted (execCacheWrite_keeps (x0 := a0))
  | cacheFillDone a0 => exact steps_unstarted (execCacheFillDone_keeps (x0 := a0))
  | prefetchArrival a0 => exact steps_unstarted (execPrefetchArrival_keeps (x0 := a0))
  | writebackAck a0 => exact steps_unstarted (execWritebackAck_keeps (x0 := a0))
  | mergeBufDrain a0 => exact steps_unstarted (execMergeBufDrain_keeps (x0 := a0))
  | forwardedWrite a0 => exact steps_unstarted (execForwardedWrite_keeps (x0 := a0))
  | mcClean a0 a1 => exact steps_unstarted (execMcClean_keeps (x0 := a0) (x1 := a1))
  | mcInv a0 a1 => exact steps_unstarted (execMcInv_keeps (x0 := a0) (x1 := a1))
  | mcDiscard a0 a1 => exact steps_unstarted (execMcDiscard_keeps (x0 := a0) (x1 := a1))
  | channelTrained a0 a1 a2 => exact steps_unstarted (execChannelTrained_keeps (x0 := a0) (x1 := a1) (x2 := a2))
  | zqCalTimer a0 => exact steps_unstarted (execZqCalTimer_keeps (x0 := a0))
  | dieTempRead a0 a1 a2 a3 => exact steps_unstarted (execDieTempRead_keeps (x0 := a0) (x1 := a1) (x2 := a2) (x3 := a3))
  | flashProgramDone a0 a1 => exact steps_unstarted (execFlashProgramDone_keeps (x0 := a0) (x1 := a1))
  | flashEraseDone a0 a1 => exact steps_unstarted (execFlashEraseDone_keeps (x0 := a0) (x1 := a1))
  | flashReadDone a0 a1 a2 => exact steps_unstarted (execFlashReadDone_keeps (x0 := a0) (x1 := a1) (x2 := a2))
  | flashOpTimeout a0 => exact steps_unstarted (execFlashOpTimeout_keeps (x0 := a0))
  | mapPageLoaded a0 => exact steps_unstarted (execMapPageLoaded_keeps (x0 := a0))
  | mapPairWait a0 => exact steps_unstarted (execMapPairWait_keeps (x0 := a0))
  | journalFlush => exact steps_unstarted execJournalFlush_keeps
  | sflJrnFlush a0 => exact steps_unstarted (execSflJrnFlush_keeps (x0 := a0))
  | sflJrnCkpt a0 => exact steps_unstarted (execSflJrnCkpt_keeps (x0 := a0))
  | checkpointStart => exact steps_unstarted execCheckpointStart_keeps
  | checkpointDone => exact steps_unstarted execCheckpointDone_keeps
  | sflTimeAdvance => exact steps_unstarted execSflTimeAdvance_keeps
  | sflTimeWrite a0 => exact steps_unstarted (execSflTimeWrite_keeps (x0 := a0))
  | gcSourceSelect a0 => exact steps_unstarted (execGcSourceSelect_keeps (x0 := a0))
  | gcUnitCopy a0 => exact steps_unstarted (execGcUnitCopy_keeps (x0 := a0))
  | eraseStart a0 => exact steps_unstarted (execEraseStart_keeps (x0 := a0))
  | flashRebuild a0 a1 => exact steps_unstarted (execFlashRebuild_keeps (x0 := a0) (x1 := a1))
  | pwrfail => exact steps_unstarted execPwrfail_keeps
  | pwrfailFlashQuiet a0 => exact steps_unstarted (execPwrfailFlashQuiet_keeps (x0 := a0))
  | sjCompleteAtPowerfail => exact steps_unstarted execSjCompleteAtPowerfail_keeps
  | fillWaitExpiry a0 a1 => exact steps_unstarted (execFillWaitExpiry_keeps (x0 := a0) (x1 := a1))
  | sjSlotFlush a0 a1 => exact steps_unstarted (execSjSlotFlush_keeps (x0 := a0) (x1 := a1))
  | shadowProgram a0 => exact steps_unstarted (execShadowProgram_keeps (x0 := a0))
  | rebuildUnitMove a0 a1 => exact steps_unstarted (execRebuildUnitMove_keeps (x0 := a0) (x1 := a1))
  | reshapeUnitMove a0 => exact steps_unstarted (execReshapeUnitMove_keeps (x0 := a0))
  | discParityAdd a0 a1 a2 => exact steps_unstarted (execDiscParityAdd_keeps (x0 := a0) (x1 := a1) (x2 := a2))
  | recompute a0 a1 => exact steps_unstarted (execRecompute_keeps (x0 := a0) (x1 := a1))
  | discRunCovered a0 => exact steps_unstarted (execDiscRunCovered_keeps (x0 := a0))
  | discIdentify a0 a1 => exact steps_unstarted (execDiscIdentify_keeps (x0 := a0) (x1 := a1))
  | discUnload a0 => exact steps_unstarted (execDiscUnload_keeps (x0 := a0))
  | ldrInventory => exact steps_unstarted execLdrInventory_keeps
  | ldrHome => exact steps_unstarted execLdrHome_keeps
  | loaderStepDone => exact steps_unstarted execLoaderStepDone_keeps
  | loaderStepTimeout => exact steps_unstarted execLoaderStepTimeout_keeps
  | sampleFrame a0 => exact steps_unstarted (execSampleFrame_keeps (x0 := a0))
  | servoFrame a0 => exact steps_unstarted (execServoFrame_keeps (x0 := a0))
  | statusFrame a0 => exact steps_unstarted (execStatusFrame_keeps (x0 := a0))
  | ldpcDecodeStart a0 => exact steps_unstarted (execLdpcDecodeStart_keeps (x0 := a0))
  | ldpcDecodeDone a0 => exact steps_unstarted (execLdpcDecodeDone_keeps (x0 := a0))
  | recoveryLevelStart a0 a1 => exact steps_unstarted (execRecoveryLevelStart_keeps (x0 := a0) (x1 := a1))
  | bandrowCommit a0 => exact steps_unstarted (execBandrowCommit_keeps (x0 := a0))
  | shockInput a0 a1 => exact steps_unstarted (execShockInput_keeps (x0 := a0) (x1 := a1))
  | reallocRecord a0 => exact steps_unstarted (execReallocRecord_keeps (x0 := a0))
  | focusConfirmed a0 => exact steps_unstarted (execFocusConfirmed_keeps (x0 := a0))
  | focusSweepEnd a0 => exact steps_unstarted (execFocusSweepEnd_keeps (x0 := a0))
  | focusLost a0 => exact steps_unstarted (execFocusLost_keeps (x0 := a0))
  | jumpKickEnd a0 => exact steps_unstarted (execJumpKickEnd_keeps (x0 := a0))
  | jumpBrakeEnd a0 => exact steps_unstarted (execJumpBrakeEnd_keeps (x0 := a0))
  | jumpFail a0 => exact steps_unstarted (execJumpFail_keeps (x0 := a0))
  | seekTrajectoryEnd a0 => exact steps_unstarted (execSeekTrajectoryEnd_keeps (x0 := a0))
  | settleComplete a0 => exact steps_unstarted (execSettleComplete_keeps (x0 := a0))
  | seekFail a0 => exact steps_unstarted (execSeekFail_keeps (x0 := a0))
  | retractComplete a0 => exact steps_unstarted (execRetractComplete_keeps (x0 := a0))
  | servoStale a0 => exact steps_unstarted (execServoStale_keeps (x0 := a0))
  | deadline a0 a1 => exact steps_unstarted (execDeadline_keeps (x0 := a0) (x1 := a1))
  | srvCsDataWrite a0 a1 => exact steps_unstarted (execSrvCsDataWrite_keeps (x0 := a0) (x1 := a1))
  | srvCsDataRead a0 => exact steps_unstarted (execSrvCsDataRead_keeps (x0 := a0))
  | seedBringupDone a0 a1 => exact steps_unstarted (execSeedBringupDone_keeps (x0 := a0) (x1 := a1))
  | sproutDue a0 => exact steps_unstarted (execSproutDue_keeps (x0 := a0))
  | srvRedCtrlSprout a0 => exact steps_unstarted (execSrvRedCtrlSprout_keeps (x0 := a0))
  | sproutStart a0 => exact steps_unstarted (execSproutStart_keeps (x0 := a0))
  | sproutSwitch a0 => exact steps_unstarted (execSproutSwitch_keeps (x0 := a0))
  | selftestDone a0 a1 => exact steps_unstarted (execSelftestDone_keeps (x0 := a0) (x1 := a1))
  | spinUpRequest a0 => exact steps_unstarted (execSpinUpRequest_keeps (x0 := a0))
  | spindleMeasurementDone a0 a1 => exact steps_unstarted (execSpindleMeasurementDone_keeps (x0 := a0) (x1 := a1))
  | alignmentDone a0 a1 a2 a3 => exact steps_unstarted (execAlignmentDone_keeps (x0 := a0) (x1 := a1) (x2 := a2) (x3 := a3))
  | syncConfirmed a0 => exact steps_unstarted (execSyncConfirmed_keeps (x0 := a0))
  | atSpeedReached a0 => exact steps_unstarted (execAtSpeedReached_keeps (x0 := a0))
  | obsLost a0 => exact steps_unstarted (execObsLost_keeps (x0 := a0))
  | recatchFail a0 => exact steps_unstarted (execRecatchFail_keeps (x0 := a0))
  | startFail a0 => exact steps_unstarted (execStartFail_keeps (x0 := a0))
  | controlledStop a0 => exact steps_unstarted (execControlledStop_keeps (x0 := a0))
  | standstill a0 => exact steps_unstarted (execStandstill_keeps (x0 := a0))
  | stopFail a0 => exact steps_unstarted (execStopFail_keeps (x0 := a0))
  | overcurrent a0 => exact steps_unstarted (execOvercurrent_keeps (x0 := a0))
  | dcLow a0 => exact steps_unstarted (execDcLow_keeps (x0 := a0))
  | stepTimerExpiry a0 => exact steps_unstarted (execStepTimerExpiry_keeps (x0 := a0))
  | holdCurrentTimer a0 => exact steps_unstarted (execHoldCurrentTimer_keeps (x0 := a0))
  | chopperComparator a0 a1 a2 a3 a4 a5 a6 => exact steps_unstarted (execChopperComparator_keeps (x0 := a0) (x1 := a1) (x2 := a2) (x3 := a3) (x4 := a4) (x5 := a5) (x6 := a6))
  | stCmdMove a0 => exact steps_unstarted (execStCmdMove_keeps (x0 := a0))
  | stCmdHome a0 => exact steps_unstarted (execStCmdHome_keeps (x0 := a0))
  | stCmdStop a0 => exact steps_unstarted (execStCmdStop_keeps (x0 := a0))
  | stCmdPark a0 => exact steps_unstarted (execStCmdPark_keeps (x0 := a0))
  | homeInput a0 a1 => exact steps_unstarted (execHomeInput_keeps (x0 := a0) (x1 := a1))
  | homeFail a0 => exact steps_unstarted (execHomeFail_keeps (x0 := a0))
  | limitInput a0 a1 a2 => exact steps_unstarted (execLimitInput_keeps (x0 := a0) (x1 := a1) (x2 := a2))
  | estop => exact steps_unstarted execEstop_keeps
  | motCtrlEstopClr a0 => exact steps_unstarted (execMotCtrlEstopClr_keeps (x0 := a0))
  | chatter a0 => exact steps_unstarted (execChatter_keeps (x0 := a0))
  | chatterClear a0 a1 => exact steps_unstarted (execChatterClear_keeps (x0 := a0) (x1 := a1))
  | inStuck a0 => exact steps_unstarted (execInStuck_keeps (x0 := a0))
  | genlockEdge a0 a1 => exact steps_unstarted (execGenlockEdge_keeps (x0 := a0) (x1 := a1))
  | calRun a0 => exact steps_unstarted (execCalRun_keeps (x0 := a0))
  | calRunAbort a0 => exact steps_unstarted (execCalRunAbort_keeps (x0 := a0))
  | calMeasureStart a0 => exact steps_unstarted (execCalMeasureStart_keeps (x0 := a0))
  | calMeasureDone a0 a1 => exact steps_unstarted (execCalMeasureDone_keeps (x0 := a0) (x1 := a1))
  | vrefcalCheck a0 => exact steps_unstarted (execVrefcalCheck_keeps (x0 := a0))
  | cxlMemRead a0 => exact steps_unstarted (execCxlMemRead_keeps (x0 := a0))
  | cxlMemWrite a0 => exact steps_unstarted (execCxlMemWrite_keeps (x0 := a0))
  | cxlMemSpecRead a0 => exact steps_unstarted (execCxlMemSpecRead_keeps (x0 := a0))
  | cxlMemInv a0 => exact steps_unstarted (execCxlMemInv_keeps (x0 := a0))
  | hdmDecoderCommit a0 a1 a2 => exact steps_unstarted (execHdmDecoderCommit_keeps (x0 := a0) (x1 := a1) (x2 := a2))
  | capsuleSlotWrite a0 a1 a2 => exact steps_unstarted (execCapsuleSlotWrite_keeps (x0 := a0) (x1 := a1) (x2 := a2))
  | hatSqdb a0 a1 => exact steps_unstarted (execHatSqdb_keeps (x0 := a0) (x1 := a1))
  | hatRhdb a0 a1 => exact steps_unstarted (execHatRhdb_keeps (x0 := a0) (x1 := a1))
  | msixAggTimer a0 => exact steps_unstarted (execMsixAggTimer_keeps (x0 := a0))
  | hatAqEnable a0 => exact steps_unstarted (execHatAqEnable_keeps (x0 := a0))
  | hatAqDisable a0 => exact steps_unstarted (execHatAqDisable_keeps (x0 := a0))
  | write a0 a1 => exact steps_unstarted (execWrite_keeps (x0 := a0) (x1 := a1))
  | read a0 a1 => exact steps_unstarted (execRead_keeps (x0 := a0) (x1 := a1))
  | flush a0 a1 => exact steps_unstarted (execFlush_keeps (x0 := a0) (x1 := a1))
  | frameRead a0 a1 => exact steps_unstarted (execFrameRead_keeps (x0 := a0) (x1 := a1))
  | rangeRelease a0 a1 => exact steps_unstarted (execRangeRelease_keeps (x0 := a0) (x1 := a1))
  | migrate a0 a1 => exact steps_unstarted (execMigrate_keeps (x0 := a0) (x1 := a1))
  | verify a0 a1 => exact steps_unstarted (execVerify_keeps (x0 := a0) (x1 := a1))
  | mountShell a0 a1 => exact steps_unstarted (execMountShell_keeps (x0 := a0) (x1 := a1))
  | ejectShell a0 a1 => exact steps_unstarted (execEjectShell_keeps (x0 := a0) (x1 := a1))
  | arm a0 a1 => exact steps_unstarted (execArm_keeps (x0 := a0) (x1 := a1))
  | trigger a0 a1 a2 => exact steps_unstarted (execTrigger_keeps (x0 := a0) (x1 := a1) (x2 := a2))
  | stop a0 a1 => exact steps_unstarted (execStop_keeps (x0 := a0) (x1 := a1))
  | dataDone a0 a1 a2 => exact steps_unstarted (execDataDone_keeps (x0 := a0) (x1 := a1) (x2 := a2))
  | release a0 a1 a2 => exact steps_unstarted (execRelease_keeps (x0 := a0) (x1 := a1) (x2 := a2))
  | rangeLockGranted a0 a1 => exact steps_unstarted (execRangeLockGranted_keeps (x0 := a0) (x1 := a1))
  | queueCreate a0 => exact steps_unstarted (execQueueCreate_keeps (x0 := a0))
  | queueDelete a0 => exact steps_unstarted (execQueueDelete_keeps (x0 := a0))
  | queueReset a0 => exact steps_unstarted (execQueueReset_keeps (x0 := a0))
  | queueResetDone a0 => exact steps_unstarted (execQueueResetDone_keeps (x0 := a0))
  | flr => exact steps_unstarted execFlr_keeps
  | linkDown => exact steps_unstarted execLinkDown_keeps
  | linkTrained a0 a1 a2 => exact steps_unstarted (execLinkTrained_keeps (x0 := a0) (x1 := a1) (x2 := a2))
  | conventionalReset => exact steps_unstarted execConventionalReset_keeps
  | identifyMemoryDevice => exact steps_unstarted execIdentifyMemoryDevice_keeps
  | getHealthInfo => exact steps_unstarted execGetHealthInfo_keeps
  | getPoisonList => exact steps_unstarted execGetPoisonList_keeps
  | getLsa a0 a1 => exact steps_unstarted (execGetLsa_keeps (x0 := a0) (x1 := a1))
  | setLsa a0 a1 => exact steps_unstarted (execSetLsa_keeps (x0 := a0) (x1 := a1))
  | getFwInfo => exact steps_unstarted execGetFwInfo_keeps
  | transferFw => exact steps_unstarted execTransferFw_keeps
  | activateFw => exact steps_unstarted execActivateFw_keeps
  | identify a0 => exact steps_unstarted (execIdentify_keeps (x0 := a0))
  | getLog a0 => exact steps_unstarted (execGetLog_keeps (x0 := a0))
  | setFeature a0 => exact steps_unstarted (execSetFeature_keeps (x0 := a0))
  | getFeature a0 => exact steps_unstarted (execGetFeature_keeps (x0 := a0))
  | fwDownload a0 => exact steps_unstarted (execFwDownload_keeps (x0 := a0))
  | fwCommit a0 => exact steps_unstarted (execFwCommit_keeps (x0 := a0))
  | keyLoad a0 => exact steps_unstarted (execKeyLoad_keeps (x0 := a0))
  | profileNextWrite a0 => exact steps_unstarted (execProfileNextWrite_keeps (x0 := a0))
  | thermalLevelFall => exact steps_unstarted execThermalLevelFall_keeps
  | railValid a0 a1 => exact steps_unstarted (execRailValid_keeps (x0 := a0) (x1 := a1))
  | resetNAssert l => exact absurd rfl (h l)
  | startup a0 => exact execStartup_keeps (x0 := a0)
  | ready a0 => exact steps_unstarted (execReady_keeps (x0 := a0))
  | jtagReset => exact steps_unstarted execJtagReset_keeps
  | perstNRelease => exact steps_unstarted execPerstNRelease_keeps
  | fwCommitCheckEnd a0 => exact steps_unstarted (execFwCommitCheckEnd_keeps (x0 := a0))
  | ringFull a0 => exact steps_unstarted (execRingFull_keeps (x0 := a0))
  | estopNRelease => exact steps_unstarted execEstopNRelease_keeps
  | shockRelease a0 => exact steps_unstarted (execShockRelease_keeps (x0 := a0))
  | d3hotTransition a0 => exact steps_unstarted (execD3hotTransition_keeps (x0 := a0))
  | getEventRecords => exact steps_unstarted execGetEventRecords_keeps
  | tapInstruction a0 => exact steps_unstarted (execTapInstruction_keeps (x0 := a0))

/-- Every command answers a next state with the queue untouched, and keeps all but the time and the safe state. -/
theorem exec_keeps_awake (c : Instr) (s : State) : Steps s.dev.awake s (exec c s) := by
  by_cases h : ∃ l, c = .resetNAssert l
  · obtain ⟨l, rfl⟩ := h
    exact execResetNAssert_keeps (x0 := l)
  by_cases h' : ∃ r, c = .softResetTakesEffect r
  · obtain ⟨r, rfl⟩ := h'
    exact execSoftResetTakesEffect_keeps (x0 := r)
  exact steps_unstarted_awake (exec_keeps c s (fun l e => h ⟨l, e⟩) (fun r e => h' ⟨r, e⟩))

/-- A command other than TICK_BOUNDARY, STARTUP and the two resets keeps the time and the latched pins too. -/
theorem exec_keeps_time (c : Instr) (s : State) (h : ∀ l, c ≠ .resetNAssert l) (h' : ∀ r, c ≠ .softResetTakesEffect r)
    (ht : ∀ t, c ≠ .tickBoundary t) (hs : ∀ x, c ≠ .startup x) : Steps s.dev s (exec c s) := by
  cases c with
  | tickBoundary l => exact absurd rfl (ht l)
  | computeWindowClose a0 => exact execComputeWindowClose_keeps (x0 := a0)
  | outputDispatch a0 => exact execOutputDispatch_keeps (x0 := a0)
  | selfCheckVerdict a0 a1 => exact execSelfCheckVerdict_keeps (x0 := a0) (x1 := a1)
  | refclkLost a0 => exact execRefclkLost_keeps (x0 := a0)
  | refclkReturned => exact execRefclkReturned_keeps
  | phaseSlewEnd => exact execPhaseSlewEnd_keeps
  | refclkPhaseStep a0 => exact execRefclkPhaseStep_keeps (x0 := a0)
  | class3Promotion a0 => exact execClass3Promotion_keeps (x0 := a0)
  | registerWrite a0 => exact execRegisterWrite_keeps (x0 := a0)
  | readClearRead a0 => exact execReadClearRead_keeps (x0 := a0)
  | pltTickLoRead => exact execPltTickLoRead_keeps
  | latchedLoRead a0 => exact execLatchedLoRead_keeps (x0 := a0)
  | errorInject a0 a1 => exact execErrorInject_keeps (x0 := a0) (x1 := a1)
  | fenceConfirm a0 => exact execFenceConfirm_keeps (x0 := a0)
  | fenceTimeout a0 => exact execFenceTimeout_keeps (x0 := a0)
  | pgCommitKey a0 a1 => exact execPgCommitKey_keeps (x0 := a0) (x1 := a1)
  | pgCommitCancel a0 a1 => exact execPgCommitCancel_keeps (x0 := a0) (x1 := a1)
  | groupCommit a0 a1 => exact execGroupCommit_keeps (x0 := a0) (x1 := a1)
  | groupCancel a0 a1 => exact execGroupCancel_keeps (x0 := a0) (x1 := a1)
  | commitApply a0 => exact execCommitApply_keeps (x0 := a0)
  | mbbBuildComplete a0 a1 => exact execMbbBuildComplete_keeps (x0 := a0) (x1 := a1)
  | mbbSwitch a0 => exact execMbbSwitch_keeps (x0 := a0)
  | mbbBuildFail a0 => exact execMbbBuildFail_keeps (x0 := a0)
  | mbbTeardownDone a0 => exact execMbbTeardownDone_keeps (x0 := a0)
  | unitEnable a0 a1 => exact execUnitEnable_keeps (x0 := a0) (x1 := a1)
  | unitDisable a0 => exact execUnitDisable_keeps (x0 := a0)
  | unitQuiesce a0 => exact execUnitQuiesce_keeps (x0 := a0)
  | unitResume a0 => exact execUnitResume_keeps (x0 := a0)
  | unitIsolate a0 => exact execUnitIsolate_keeps (x0 := a0)
  | unitDeisolate a0 a1 => exact execUnitDeisolate_keeps (x0 := a0) (x1 := a1)
  | quiesceComplete a0 => exact execQuiesceComplete_keeps (x0 := a0)
  | quiesceTimeout a0 => exact execQuiesceTimeout_keeps (x0 := a0)
  | jdmCompatWrite a0 a1 => exact execJdmCompatWrite_keeps (x0 := a0) (x1 := a1)
  | fwImageLoaded => exact execFwImageLoaded_keeps
  | fwQuiesceReached => exact execFwQuiesceReached_keeps
  | fwActivationAbandon => exact execFwActivationAbandon_keeps
  | pltRstCtrlChip => exact execPltRstCtrlChip_keeps
  | softResetTakesEffect l => exact absurd rfl (h' l)
  | railStateChange a0 a1 => exact execRailStateChange_keeps (x0 := a0) (x1 := a1)
  | railOutTimeout a0 => exact execRailOutTimeout_keeps (x0 := a0)
  | laneCdrLock a0 => exact execLaneCdrLock_keeps (x0 := a0)
  | laneSyncLock a0 => exact execLaneSyncLock_keeps (x0 := a0)
  | amReceived a0 a1 => exact execAmReceived_keeps (x0 := a0) (x1 := a1)
  | laneLost a0 => exact execLaneLost_keeps (x0 := a0)
  | laneSignalLoss a0 => exact execLaneSignalLoss_keeps (x0 := a0)
  | podReceived a0 => exact execPodReceived_keeps (x0 := a0)
  | podPayloadWritten a0 a1 a2 => exact execPodPayloadWritten_keeps (x0 := a0) (x1 := a1) (x2 := a2)
  | creditPodPeriodic a0 a1 => exact execCreditPodPeriodic_keeps (x0 := a0) (x1 := a1)
  | pairingTimeout a0 a1 => exact execPairingTimeout_keeps (x0 := a0) (x1 := a1)
  | frameComplete a0 a1 => exact execFrameComplete_keeps (x0 := a0) (x1 := a1)
  | timeout a0 a1 => exact execTimeout_keeps (x0 := a0) (x1 := a1)
  | sesCtrlArm a0 => exact execSesCtrlArm_keeps (x0 := a0)
  | sesCtrlTrigger a0 a1 => exact execSesCtrlTrigger_keeps (x0 := a0) (x1 := a1)
  | sesCtrlStop a0 => exact execSesCtrlStop_keeps (x0 := a0)
  | sesCtrlDisarm a0 => exact execSesCtrlDisarm_keeps (x0 := a0)
  | trgEdge a0 a1 a2 => exact execTrgEdge_keeps (x0 := a0) (x1 := a1) (x2 := a2)
  | sessionStateApply a0 => exact execSessionStateApply_keeps (x0 := a0)
  | postExpiry a0 => exact execPostExpiry_keeps (x0 := a0)
  | takeSealed a0 => exact execTakeSealed_keeps (x0 := a0)
  | ltcFrameDecoded a0 a1 a2 => exact execLtcFrameDecoded_keeps (x0 := a0) (x1 := a1) (x2 := a2)
  | ltcLoss => exact execLtcLoss_keeps
  | drainFrameStart => exact execDrainFrameStart_keeps
  | drainFrameEnd a0 a1 => exact execDrainFrameEnd_keeps (x0 := a0) (x1 := a1)
  | frameDurable a0 a1 => exact execFrameDurable_keeps (x0 := a0) (x1 := a1)
  | engineKnownAnswerCheck a0 a1 => exact execEngineKnownAnswerCheck_keeps (x0 := a0) (x1 := a1)
  | stackTrained a0 a1 a2 => exact execStackTrained_keeps (x0 := a0) (x1 := a1) (x2 := a2)
  | storeRead a0 => exact execStoreRead_keeps (x0 := a0)
  | storeWrite a0 => exact execStoreWrite_keeps (x0 := a0)
  | zeroFillDone a0 => exact execZeroFillDone_keeps (x0 := a0)
  | narrowWrite a0 => exact execNarrowWrite_keeps (x0 := a0)
  | mergeClose a0 => exact execMergeClose_keeps (x0 := a0)
  | scrubTick a0 => exact execScrubTick_keeps (x0 := a0)
  | bpmGrant a0 a1 => exact execBpmGrant_keeps (x0 := a0) (x1 := a1)
  | bpmFree a0 a1 => exact execBpmFree_keeps (x0 := a0) (x1 := a1)
  | freeComplete a0 => exact execFreeComplete_keeps (x0 := a0)
  | bpmRelease a0 a1 => exact execBpmRelease_keeps (x0 := a0) (x1 := a1)
  | bpmShare a0 a1 a2 a3 => exact execBpmShare_keeps (x0 := a0) (x1 := a1) (x2 := a2) (x3 := a3)
  | bpmTransfer a0 a1 a2 => exact execBpmTransfer_keeps (x0 := a0) (x1 := a1) (x2 := a2)
  | bpmHostwSet a0 a1 => exact execBpmHostwSet_keeps (x0 := a0) (x1 := a1)
  | bpmHostwClr a0 a1 => exact execBpmHostwClr_keeps (x0 := a0) (x1 := a1)
  | cacheRead a0 => exact execCacheRead_keeps (x0 := a0)
  | cacheWrite a0 => exact execCacheWrite_keeps (x0 := a0)
  | cacheFillDone a0 => exact execCacheFillDone_keeps (x0 := a0)
  | prefetchArrival a0 => exact execPrefetchArrival_keeps (x0 := a0)
  | writebackAck a0 => exact execWritebackAck_keeps (x0 := a0)
  | mergeBufDrain a0 => exact execMergeBufDrain_keeps (x0 := a0)
  | forwardedWrite a0 => exact execForwardedWrite_keeps (x0 := a0)
  | mcClean a0 a1 => exact execMcClean_keeps (x0 := a0) (x1 := a1)
  | mcInv a0 a1 => exact execMcInv_keeps (x0 := a0) (x1 := a1)
  | mcDiscard a0 a1 => exact execMcDiscard_keeps (x0 := a0) (x1 := a1)
  | channelTrained a0 a1 a2 => exact execChannelTrained_keeps (x0 := a0) (x1 := a1) (x2 := a2)
  | zqCalTimer a0 => exact execZqCalTimer_keeps (x0 := a0)
  | dieTempRead a0 a1 a2 a3 => exact execDieTempRead_keeps (x0 := a0) (x1 := a1) (x2 := a2) (x3 := a3)
  | flashProgramDone a0 a1 => exact execFlashProgramDone_keeps (x0 := a0) (x1 := a1)
  | flashEraseDone a0 a1 => exact execFlashEraseDone_keeps (x0 := a0) (x1 := a1)
  | flashReadDone a0 a1 a2 => exact execFlashReadDone_keeps (x0 := a0) (x1 := a1) (x2 := a2)
  | flashOpTimeout a0 => exact execFlashOpTimeout_keeps (x0 := a0)
  | mapPageLoaded a0 => exact execMapPageLoaded_keeps (x0 := a0)
  | mapPairWait a0 => exact execMapPairWait_keeps (x0 := a0)
  | journalFlush => exact execJournalFlush_keeps
  | sflJrnFlush a0 => exact execSflJrnFlush_keeps (x0 := a0)
  | sflJrnCkpt a0 => exact execSflJrnCkpt_keeps (x0 := a0)
  | checkpointStart => exact execCheckpointStart_keeps
  | checkpointDone => exact execCheckpointDone_keeps
  | sflTimeAdvance => exact execSflTimeAdvance_keeps
  | sflTimeWrite a0 => exact execSflTimeWrite_keeps (x0 := a0)
  | gcSourceSelect a0 => exact execGcSourceSelect_keeps (x0 := a0)
  | gcUnitCopy a0 => exact execGcUnitCopy_keeps (x0 := a0)
  | eraseStart a0 => exact execEraseStart_keeps (x0 := a0)
  | flashRebuild a0 a1 => exact execFlashRebuild_keeps (x0 := a0) (x1 := a1)
  | pwrfail => exact execPwrfail_keeps
  | pwrfailFlashQuiet a0 => exact execPwrfailFlashQuiet_keeps (x0 := a0)
  | sjCompleteAtPowerfail => exact execSjCompleteAtPowerfail_keeps
  | fillWaitExpiry a0 a1 => exact execFillWaitExpiry_keeps (x0 := a0) (x1 := a1)
  | sjSlotFlush a0 a1 => exact execSjSlotFlush_keeps (x0 := a0) (x1 := a1)
  | shadowProgram a0 => exact execShadowProgram_keeps (x0 := a0)
  | rebuildUnitMove a0 a1 => exact execRebuildUnitMove_keeps (x0 := a0) (x1 := a1)
  | reshapeUnitMove a0 => exact execReshapeUnitMove_keeps (x0 := a0)
  | discParityAdd a0 a1 a2 => exact execDiscParityAdd_keeps (x0 := a0) (x1 := a1) (x2 := a2)
  | recompute a0 a1 => exact execRecompute_keeps (x0 := a0) (x1 := a1)
  | discRunCovered a0 => exact execDiscRunCovered_keeps (x0 := a0)
  | discIdentify a0 a1 => exact execDiscIdentify_keeps (x0 := a0) (x1 := a1)
  | discUnload a0 => exact execDiscUnload_keeps (x0 := a0)
  | ldrInventory => exact execLdrInventory_keeps
  | ldrHome => exact execLdrHome_keeps
  | loaderStepDone => exact execLoaderStepDone_keeps
  | loaderStepTimeout => exact execLoaderStepTimeout_keeps
  | sampleFrame a0 => exact execSampleFrame_keeps (x0 := a0)
  | servoFrame a0 => exact execServoFrame_keeps (x0 := a0)
  | statusFrame a0 => exact execStatusFrame_keeps (x0 := a0)
  | ldpcDecodeStart a0 => exact execLdpcDecodeStart_keeps (x0 := a0)
  | ldpcDecodeDone a0 => exact execLdpcDecodeDone_keeps (x0 := a0)
  | recoveryLevelStart a0 a1 => exact execRecoveryLevelStart_keeps (x0 := a0) (x1 := a1)
  | bandrowCommit a0 => exact execBandrowCommit_keeps (x0 := a0)
  | shockInput a0 a1 => exact execShockInput_keeps (x0 := a0) (x1 := a1)
  | reallocRecord a0 => exact execReallocRecord_keeps (x0 := a0)
  | focusConfirmed a0 => exact execFocusConfirmed_keeps (x0 := a0)
  | focusSweepEnd a0 => exact execFocusSweepEnd_keeps (x0 := a0)
  | focusLost a0 => exact execFocusLost_keeps (x0 := a0)
  | jumpKickEnd a0 => exact execJumpKickEnd_keeps (x0 := a0)
  | jumpBrakeEnd a0 => exact execJumpBrakeEnd_keeps (x0 := a0)
  | jumpFail a0 => exact execJumpFail_keeps (x0 := a0)
  | seekTrajectoryEnd a0 => exact execSeekTrajectoryEnd_keeps (x0 := a0)
  | settleComplete a0 => exact execSettleComplete_keeps (x0 := a0)
  | seekFail a0 => exact execSeekFail_keeps (x0 := a0)
  | retractComplete a0 => exact execRetractComplete_keeps (x0 := a0)
  | servoStale a0 => exact execServoStale_keeps (x0 := a0)
  | deadline a0 a1 => exact execDeadline_keeps (x0 := a0) (x1 := a1)
  | srvCsDataWrite a0 a1 => exact execSrvCsDataWrite_keeps (x0 := a0) (x1 := a1)
  | srvCsDataRead a0 => exact execSrvCsDataRead_keeps (x0 := a0)
  | seedBringupDone a0 a1 => exact execSeedBringupDone_keeps (x0 := a0) (x1 := a1)
  | sproutDue a0 => exact execSproutDue_keeps (x0 := a0)
  | srvRedCtrlSprout a0 => exact execSrvRedCtrlSprout_keeps (x0 := a0)
  | sproutStart a0 => exact execSproutStart_keeps (x0 := a0)
  | sproutSwitch a0 => exact execSproutSwitch_keeps (x0 := a0)
  | selftestDone a0 a1 => exact execSelftestDone_keeps (x0 := a0) (x1 := a1)
  | spinUpRequest a0 => exact execSpinUpRequest_keeps (x0 := a0)
  | spindleMeasurementDone a0 a1 => exact execSpindleMeasurementDone_keeps (x0 := a0) (x1 := a1)
  | alignmentDone a0 a1 a2 a3 => exact execAlignmentDone_keeps (x0 := a0) (x1 := a1) (x2 := a2) (x3 := a3)
  | syncConfirmed a0 => exact execSyncConfirmed_keeps (x0 := a0)
  | atSpeedReached a0 => exact execAtSpeedReached_keeps (x0 := a0)
  | obsLost a0 => exact execObsLost_keeps (x0 := a0)
  | recatchFail a0 => exact execRecatchFail_keeps (x0 := a0)
  | startFail a0 => exact execStartFail_keeps (x0 := a0)
  | controlledStop a0 => exact execControlledStop_keeps (x0 := a0)
  | standstill a0 => exact execStandstill_keeps (x0 := a0)
  | stopFail a0 => exact execStopFail_keeps (x0 := a0)
  | overcurrent a0 => exact execOvercurrent_keeps (x0 := a0)
  | dcLow a0 => exact execDcLow_keeps (x0 := a0)
  | stepTimerExpiry a0 => exact execStepTimerExpiry_keeps (x0 := a0)
  | holdCurrentTimer a0 => exact execHoldCurrentTimer_keeps (x0 := a0)
  | chopperComparator a0 a1 a2 a3 a4 a5 a6 => exact execChopperComparator_keeps (x0 := a0) (x1 := a1) (x2 := a2) (x3 := a3) (x4 := a4) (x5 := a5) (x6 := a6)
  | stCmdMove a0 => exact execStCmdMove_keeps (x0 := a0)
  | stCmdHome a0 => exact execStCmdHome_keeps (x0 := a0)
  | stCmdStop a0 => exact execStCmdStop_keeps (x0 := a0)
  | stCmdPark a0 => exact execStCmdPark_keeps (x0 := a0)
  | homeInput a0 a1 => exact execHomeInput_keeps (x0 := a0) (x1 := a1)
  | homeFail a0 => exact execHomeFail_keeps (x0 := a0)
  | limitInput a0 a1 a2 => exact execLimitInput_keeps (x0 := a0) (x1 := a1) (x2 := a2)
  | estop => exact execEstop_keeps
  | motCtrlEstopClr a0 => exact execMotCtrlEstopClr_keeps (x0 := a0)
  | chatter a0 => exact execChatter_keeps (x0 := a0)
  | chatterClear a0 a1 => exact execChatterClear_keeps (x0 := a0) (x1 := a1)
  | inStuck a0 => exact execInStuck_keeps (x0 := a0)
  | genlockEdge a0 a1 => exact execGenlockEdge_keeps (x0 := a0) (x1 := a1)
  | calRun a0 => exact execCalRun_keeps (x0 := a0)
  | calRunAbort a0 => exact execCalRunAbort_keeps (x0 := a0)
  | calMeasureStart a0 => exact execCalMeasureStart_keeps (x0 := a0)
  | calMeasureDone a0 a1 => exact execCalMeasureDone_keeps (x0 := a0) (x1 := a1)
  | vrefcalCheck a0 => exact execVrefcalCheck_keeps (x0 := a0)
  | cxlMemRead a0 => exact execCxlMemRead_keeps (x0 := a0)
  | cxlMemWrite a0 => exact execCxlMemWrite_keeps (x0 := a0)
  | cxlMemSpecRead a0 => exact execCxlMemSpecRead_keeps (x0 := a0)
  | cxlMemInv a0 => exact execCxlMemInv_keeps (x0 := a0)
  | hdmDecoderCommit a0 a1 a2 => exact execHdmDecoderCommit_keeps (x0 := a0) (x1 := a1) (x2 := a2)
  | capsuleSlotWrite a0 a1 a2 => exact execCapsuleSlotWrite_keeps (x0 := a0) (x1 := a1) (x2 := a2)
  | hatSqdb a0 a1 => exact execHatSqdb_keeps (x0 := a0) (x1 := a1)
  | hatRhdb a0 a1 => exact execHatRhdb_keeps (x0 := a0) (x1 := a1)
  | msixAggTimer a0 => exact execMsixAggTimer_keeps (x0 := a0)
  | hatAqEnable a0 => exact execHatAqEnable_keeps (x0 := a0)
  | hatAqDisable a0 => exact execHatAqDisable_keeps (x0 := a0)
  | write a0 a1 => exact execWrite_keeps (x0 := a0) (x1 := a1)
  | read a0 a1 => exact execRead_keeps (x0 := a0) (x1 := a1)
  | flush a0 a1 => exact execFlush_keeps (x0 := a0) (x1 := a1)
  | frameRead a0 a1 => exact execFrameRead_keeps (x0 := a0) (x1 := a1)
  | rangeRelease a0 a1 => exact execRangeRelease_keeps (x0 := a0) (x1 := a1)
  | migrate a0 a1 => exact execMigrate_keeps (x0 := a0) (x1 := a1)
  | verify a0 a1 => exact execVerify_keeps (x0 := a0) (x1 := a1)
  | mountShell a0 a1 => exact execMountShell_keeps (x0 := a0) (x1 := a1)
  | ejectShell a0 a1 => exact execEjectShell_keeps (x0 := a0) (x1 := a1)
  | arm a0 a1 => exact execArm_keeps (x0 := a0) (x1 := a1)
  | trigger a0 a1 a2 => exact execTrigger_keeps (x0 := a0) (x1 := a1) (x2 := a2)
  | stop a0 a1 => exact execStop_keeps (x0 := a0) (x1 := a1)
  | dataDone a0 a1 a2 => exact execDataDone_keeps (x0 := a0) (x1 := a1) (x2 := a2)
  | release a0 a1 a2 => exact execRelease_keeps (x0 := a0) (x1 := a1) (x2 := a2)
  | rangeLockGranted a0 a1 => exact execRangeLockGranted_keeps (x0 := a0) (x1 := a1)
  | queueCreate a0 => exact execQueueCreate_keeps (x0 := a0)
  | queueDelete a0 => exact execQueueDelete_keeps (x0 := a0)
  | queueReset a0 => exact execQueueReset_keeps (x0 := a0)
  | queueResetDone a0 => exact execQueueResetDone_keeps (x0 := a0)
  | flr => exact execFlr_keeps
  | linkDown => exact execLinkDown_keeps
  | linkTrained a0 a1 a2 => exact execLinkTrained_keeps (x0 := a0) (x1 := a1) (x2 := a2)
  | conventionalReset => exact execConventionalReset_keeps
  | identifyMemoryDevice => exact execIdentifyMemoryDevice_keeps
  | getHealthInfo => exact execGetHealthInfo_keeps
  | getPoisonList => exact execGetPoisonList_keeps
  | getLsa a0 a1 => exact execGetLsa_keeps (x0 := a0) (x1 := a1)
  | setLsa a0 a1 => exact execSetLsa_keeps (x0 := a0) (x1 := a1)
  | getFwInfo => exact execGetFwInfo_keeps
  | transferFw => exact execTransferFw_keeps
  | activateFw => exact execActivateFw_keeps
  | identify a0 => exact execIdentify_keeps (x0 := a0)
  | getLog a0 => exact execGetLog_keeps (x0 := a0)
  | setFeature a0 => exact execSetFeature_keeps (x0 := a0)
  | getFeature a0 => exact execGetFeature_keeps (x0 := a0)
  | fwDownload a0 => exact execFwDownload_keeps (x0 := a0)
  | fwCommit a0 => exact execFwCommit_keeps (x0 := a0)
  | keyLoad a0 => exact execKeyLoad_keeps (x0 := a0)
  | profileNextWrite a0 => exact execProfileNextWrite_keeps (x0 := a0)
  | thermalLevelFall => exact execThermalLevelFall_keeps
  | railValid a0 a1 => exact execRailValid_keeps (x0 := a0) (x1 := a1)
  | resetNAssert l => exact absurd rfl (h l)
  | startup l => exact absurd rfl (hs l)
  | ready a0 => exact execReady_keeps (x0 := a0)
  | jtagReset => exact execJtagReset_keeps
  | perstNRelease => exact execPerstNRelease_keeps
  | fwCommitCheckEnd a0 => exact execFwCommitCheckEnd_keeps (x0 := a0)
  | ringFull a0 => exact execRingFull_keeps (x0 := a0)
  | estopNRelease => exact execEstopNRelease_keeps
  | shockRelease a0 => exact execShockRelease_keeps (x0 := a0)
  | d3hotTransition a0 => exact execD3hotTransition_keeps (x0 := a0)
  | getEventRecords => exact execGetEventRecords_keeps
  | tapInstruction a0 => exact execTapInstruction_keeps (x0 := a0)

end Sys2Proof.Machine
end

