-- ==== Sys2Proof/Laws/Keeps/State.lean ====
section
/-! SUPPORT. What every operation of Machine/State.lean keeps. -/
namespace Sys2Proof.Machine
open Sys2Proof

set_option linter.unusedTactic false
set_option linter.unreachableTactic false
set_option linter.tactic.unusedName false

end Sys2Proof.Machine
end

