-- ==== Sys2Proof/Machine/Electrical.lean ====
section
/-! DEFINITION. Figures that no command reads: the package, pins and supplies (R501–R511), ratings, levels and timing of the inputs
(R528–R542), power (R510) and the reservations of the store (R34). Voltages are in mV, currents in mA, temperatures in 1/16 °C, times in ns. -/
namespace Sys2Proof.Machine
open Sys2Proof

/-! ## The package (R501, R502) -/

def ballRows : Nat := 71
def ballColumns : Nat := 72

/-- The groups of balls with their numbers. -/
inductive BallGroup where
  | frameLink | headLink | host | flash | spindle | stepper | management | straps | sense | supply | ground | reserved
  deriving DecidableEq, Repr

def BallGroup.balls : BallGroup → Nat
  | .frameLink => 256
  | .headLink => 64
  | .host => 35
  | .flash => 800
  | .spindle => 64
  | .stepper => 72
  | .management => 22
  | .straps => 4
  | .sense => 2
  | .supply => 1020
  | .ground => 2732
  | .reserved => 41

def BallGroup.all : List BallGroup :=
  [.frameLink, .headLink, .host, .flash, .spindle, .stepper, .management, .straps, .sense, .supply, .ground, .reserved]

/-! ## Supplies (R507, R508, R510) -/

/-- A rail: nominal voltage, rated current, balls, and its current at 138 W and at 182 W. -/
structure Rail where
  mv     : Nat
  rated  : Nat
  balls  : Nat
  full   : Nat
  most   : Nat
  deriving DecidableEq, Repr

/-- The rails as PLT_SUP_V numbers them. -/
def rails : List Rail :=
  [⟨900, 160000, 420, 112000, 146000⟩, ⟨950, 12000, 96, 8000, 10000⟩, ⟨900, 14000, 120, 10000, 12000⟩, ⟨1200, 4000, 64, 3000, 3500⟩,
   ⟨1100, 22000, 160, 12000, 18000⟩, ⟨1200, 6000, 96, 2500, 3900⟩, ⟨1800, 1500, 48, 300, 500⟩, ⟨1800, 800, 16, 150, 400⟩]

/-- A voltage lies within `pct` % of nominal, bounds included. -/
def within (mv nominal pct : Nat) : Bool := decide (((mv : Int) - (nominal : Int)).natAbs * 100 ≤ pct * nominal)

/-- A rail is valid once readings within ±5 % span 100 µs without a break; readings are (time, voltage), in order (R508). -/
def railBecomesValid (nominal : Nat) (readings : List (Nat × Nat)) : Bool :=
  let good := (readings.reverse.takeWhile (fun r => within r.2 nominal 5)).map (·.1)
  match good.head?, good.getLast? with
  | some newest, some oldest => decide (100000 ≤ newest - oldest)
  | _, _ => false

/-- The cases of R510 in W. -/
inductive PowerCase where
  | resetLow | safeState | idle | archiveIngest | fullIngest | maximum
  deriving DecidableEq, Repr
def PowerCase.watts : PowerCase → Nat
  | .resetLow => 9
  | .safeState => 31
  | .idle => 46
  | .archiveIngest => 79
  | .fullIngest => 138
  | .maximum => 182

/-! ## Clock domains (R511) -/

/-- The domains with their counts; frequency in kHz where it is fixed. -/
def clockDomains : List (Nat × Option Nat) :=
  [(1, none), (1, some 1600000), (1, some 2000000), (1, some 100000), (4, some 800000), (1, some 1000000), (1, some 1000000), (64, none), (32, none),
   (4, none), (4, some 200000), (1, some 200000), (1, some 100000)]

/-! ## Ratings and operating conditions (R528, R529) -/

/-- The highest voltage each rail may ever have, by number. -/
def railCeiling (rail : Nat) : Int := ([1050, 1100, 1050, 1400, 1300, 1400, 2100, 2100] : List Int).getD rail 0
def railWithinRatings (rail : Nat) (mv : Int) : Bool := decide (-300 ≤ mv) && decide (mv ≤ railCeiling rail)
/-- A CMOS18 or ANALOG18 pin; `io18` is VDD_IO18. -/
def pinWithinRatings (mv io18 : Int) : Bool := decide (-300 ≤ mv) && decide (mv ≤ min (io18 + 300) 2100)
/-- A fail-safe input of R506. -/
def failSafeWithinRatings (mv : Int) (io18Valid : Bool) : Bool := decide (-300 ≤ mv) && decide (mv ≤ if io18Valid then 2100 else 1980)
def onfiWithinRatings (mv io12 : Int) : Bool := decide (-300 ≤ mv) && decide (mv ≤ io12 + 300)
def junctionWithinRatings (t : Int) : Bool := decide (t ≤ 125 * 16)
def storageWithinRatings (t : Int) : Bool := decide (-55 * 16 ≤ t) && decide (t ≤ 125 * 16)

/-- The recommended conditions: every rail within ±3 %, and the hottest die sensor between −20 °C and 105 °C. -/
def operating (mvs : List Nat) (hottestDie : Int) : Bool :=
  (List.range 8).all (fun i => within (mvs.getD i 0) ((rails.map (·.mv)).getD i 0) 3) && decide (-20 * 16 ≤ hottestDie) && decide (hottestDie ≤ 105 * 16)

/-! ## Logic levels (R530, R531) -/

/-- The level that a CMOS18 input surely reads. -/
def cmosLevel (mv : Int) : Option Bool := if 1170 ≤ mv then some true else if mv ≤ 630 then some false else none
/-- The lowest high and the highest low that a CMOS18 output drives at 8 mA. -/
def cmosHigh (io18 : Int) : Int := io18 - 350
def cmosLow : Int := 350
/-- What PWRFAIL_N and ESTOP_N read when open: low, by their pull-downs. -/
def openReads : Bool := false

/-! ## Converters (R533, R534) -/

/-- The code of a shunt converter: ±0.5 V about 2,048. -/
def shuntCode (uv : Int) : Int := clampInt 0 4095 (2048 + uv * 2048 / 500000)
/-- The code of a BEMF or VDC converter: 0.4 mV per code. -/
def bemfCode (uv : Int) : Int := clampInt 0 4095 (uv / 400)
/-- The threshold in µV of a chopper DAC code: 10 bits over 0.5 V. -/
def dacMicrovolts (code : Nat) : Nat := code * 500000 / 1024

/-- VREFCAL reads VALID at 1.000 V ± 2 %; the input range in mV that surely does (R430, R535). -/
def vrefSurely (mv : Int) : Bool := decide (985 ≤ mv) && decide (mv ≤ 1015)

/-! ## REFCLK and the sampled inputs (R540, R542) -/

/-- A REFCLK frequency in Hz whose offset from the strapped value is accepted. -/
def refclkAccepted (refsel : Bool) (hz : Nat) : Bool :=
  let nominal := if refsel then 25000000 else 10000000
  decide (((hz : Int) - (nominal : Int)).natAbs * 1000000 ≤ 500 * nominal)

/-- The inputs of R542. -/
inductive SampledInput where
  | trg | genlock | shock | pwrfail | estop | axis
  deriving DecidableEq, Repr

/-- The shortest pulse each accepts at default settings. -/
def SampledInput.minPulse : SampledInput → Nat
  | .trg => 40
  | .genlock => 40
  | .shock => 20
  | .pwrfail => 500
  | .estop => 1000
  | .axis => 500000

/-- An edge is accepted no later than one sample after that. -/
def SampledInput.acceptedWithin (i : SampledInput) : Nat :=
  i.minPulse + match i with
    | .axis => 10000
    | _ => 10

/-! ## The store's reservations (R34) -/

/-- Read and write in GB/s of each line of R34, in its order. -/
def storeReservations : List (Nat × Nat) :=
  [(0, 240), (2, 4), (256, 0), (0, 256), (115, 16), (115, 0), (0, 115), (32, 32), (16, 16), (3, 3), (8, 0)]

/-- The bytes that a rate in GB/s moves in a tick of 2.5 µs. -/
def bytesPerTick (gbps : Nat) : Nat := gbps * 2500

end Sys2Proof.Machine
end

