-- ==== Sys2Proof/WellFormed.lean ====
section
/-! DEFINITION. Which commands name things that exist: pages, lines, lanes, drives, queues and the like within their ranges. The meanings
are total on ill-formed commands too (log entry 54). -/
namespace Sys2Proof

/-- A page address of BAR0 below the end of the last region (R17). -/
def isPage (a : Nat) : Bool := decide (a % 4096 = 0) && decide (a < 0xC00000)
/-- An access of BAR0 (R17, R36). -/
def isBar (a bytes : Nat) : Bool := decide (a < 0x1000000) && decide (0 < bytes) && decide (bytes ≤ 8)
/-- An address of the store (R105). -/
def isLine (a : Nat) : Bool := decide (a < 2 ^ 38)
/-- A calibration item (R426). -/
def itemOk (i : Nat) : Bool := decide (i ≤ 8) || (decide (16 ≤ i) && decide (i < 80) && decide ((i - 16) % 16 ≤ 9))

def RegAccess.ok (a : RegAccess) : Bool :=
  isBar a.addr a.bytes && decide (a.value < 2 ^ (8 * a.bytes)) && decide (a.ns < 2500)
def TickEnv.ok (e : TickEnv) : Bool :=
  decide (e.rails.length ≤ 8) && decide (e.temps.length ≤ 13) && decide (e.spindles.length ≤ 4) &&
    e.upsets.all (fun u => decide (u.engine < 12) && decide (u.addr < 131072))
def TickCell.ok : TickCell → Bool
  | .servo e ls => decide (e < 12) && ls.all fun l => decide (l < 23)
  | .dtc n => decide (n < 4)
  | .step m => decide (m < 8)
  | .tap i => itemOk i
def StartIn.ok (x : StartIn) : Bool :=
  decide (x.stk.length = 4) && decide (x.engines.length = 12) && decide (x.sigs.length = 4) &&
    x.banks.all fun b => decide (b.1 < 2) && decide (b.2 < 65536)
def AmBlock.ok (a : AmBlock) : Bool :=
  decide (a.index < 16) && decide (a.width ≤ 4) && decide (a.epoch < 16) && decide (a.count < 2 ^ 24) && decide (a.bad < 2 ^ 32)
def PodArrival.ok (p : PodArrival) : Bool :=
  decide (p.stream < 32) && decide (p.path < 2) && decide (p.epoch < 16) && decide (p.ns < 2500) && decide (p.ago < 16)
def EngineRef.ok : EngineRef → Bool
  | .codec i => decide (i < 16)
  | .sha i => decide (i < 8)
  | .stripe i => decide (i < 16)
  | .ldpc i => decide (i < 24)
def BufRef.ok : BufRef → Bool
  | .handle h => decide (h < 2 ^ 32)
  | .addr a => isLine a
def LineRead.ok (r : LineRead) : Bool := isLine r.addr && r.errs.all fun e => decide (e.1 < 72) && decide (e.2 < 256)
def LineWrite.ok (w : LineWrite) : Bool := isLine w.addr && decide (w.data.length ≤ 64) && decide (w.addr % 64 + w.data.length ≤ 64) && decide (w.cls ≤ 3)
def CacheAcc.ok (c : CacheAcc) : Bool := isLine c.addr && decide (c.agent < 10) && decide (c.addr % 64 + c.data.length ≤ 64)
def HeadIn.ok (f : HeadIn) : Bool := decide (f.drive < 4) && decide (f.ns < 2500)
def SampleIn.ok (s : SampleIn) : Bool := s.frame.ok && decide (s.eq.length ≤ 15) && decide (s.cancL.length ≤ 3) && decide (s.cancR.length ≤ 3)
def CommitIn.ok (c : CommitIn) : Bool := decide (c.drive < 4)
def LeadIn.ok (l : LeadIn) : Bool := l.dibs.all fun b => decide (b.2.length = 64)
def SpinMeas.ok (m : SpinMeas) : Bool := decide (m.theta < 65536)

/-- The command names things that exist. -/
def Instr.wf : Instr → Bool
  | .tickBoundary env => env.ok
  | .computeWindowClose cell => cell.ok
  | .outputDispatch faults => (faults.all fun f => decide (f.engine < 12) && decide (f.loop < 23))
  | .selfCheckVerdict drive pass => decide (drive < 4) && decide (pass.length ≤ 3)
  | .refclkLost _ => true
  | .refclkReturned => true
  | .phaseSlewEnd => true
  | .refclkPhaseStep ns => decide (ns < 2500)
  | .class3Promotion _ => true
  | .registerWrite a => a.ok
  | .readClearRead r => isBar r.addr r.bytes
  | .pltTickLoRead => true
  | .latchedLoRead r => isBar r.addr r.bytes
  | .errorInject page value => isPage page && decide (value < 2 ^ 32)
  | .fenceConfirm unit => decide (isPage unit ∨ (2 ^ 32 ≤ unit ∧ unit < 2 ^ 32 + 2128 * 4096 ∧ unit % 4096 = 0))
  | .fenceTimeout unit => decide (isPage unit ∨ (2 ^ 32 ≤ unit ∧ unit < 2 ^ 32 + 2128 * 4096 ∧ unit % 4096 = 0))
  | .pgCommitKey page ns => isPage page && decide (ns < 2500)
  | .pgCommitCancel page ns => isPage page && decide (ns < 2500)
  | .groupCommit group ns => decide (group < 64) && decide (ns < 2500)
  | .groupCancel group ns => decide (group < 64) && decide (ns < 2500)
  | .commitApply page => isPage page
  | .mbbBuildComplete page ns => isPage page && decide (ns < 2500)
  | .mbbSwitch page => isPage page
  | .mbbBuildFail page => isPage page
  | .mbbTeardownDone page => isPage page
  | .unitEnable page _ => isPage page
  | .unitDisable page => isPage page
  | .unitQuiesce page => isPage page
  | .unitResume page => isPage page
  | .unitIsolate page => isPage page
  | .unitDeisolate page _ => isPage page
  | .quiesceComplete page => isPage page
  | .quiesceTimeout page => isPage page
  | .jdmCompatWrite drive _ => decide (drive < 4)
  | .fwImageLoaded => true
  | .fwQuiesceReached => true
  | .fwActivationAbandon => true
  | .pltRstCtrlChip => true
  | .softResetTakesEffect _ => true
  | .railStateChange rail mv => decide (rail < 8) && decide (mv < 2 ^ 16)
  | .railOutTimeout rail => decide (rail < 8)
  | .laneCdrLock lane => decide (lane < 80)
  | .laneSyncLock e => decide (e.lane < 80) && decide (e.bad < 2 ^ 32)
  | .amReceived lane am => decide (lane < 80) && am.ok
  | .laneLost e => decide (e.lane < 80) && decide (e.bad < 2 ^ 32)
  | .laneSignalLoss e => decide (e.lane < 80) && decide (e.bad < 2 ^ 32)
  | .podReceived pod => pod.ok
  | .podPayloadWritten stream path seq => decide (stream < 32) && decide (path < 2) && decide (seq < 2 ^ 32)
  | .creditPodPeriodic stream path => decide (stream < 32) && decide (path < 2)
  | .pairingTimeout stream seq => decide (stream < 32) && decide (seq < 2 ^ 32)
  | .frameComplete stream pn => decide (stream < 32) && decide (pn < 2 ^ 32)
  | .timeout stream pn => decide (stream < 32) && decide (pn < 2 ^ 32)
  | .sesCtrlArm session => decide (session < 32)
  | .sesCtrlTrigger session ns => decide (session < 32) && decide (ns < 2500)
  | .sesCtrlStop session => decide (session < 32)
  | .sesCtrlDisarm session => decide (session < 32)
  | .trgEdge input sub _ => decide (input < 4) && decide (sub < 250)
  | .sessionStateApply session => decide (session < 32)
  | .postExpiry session => decide (session < 32)
  | .takeSealed session => decide (session < 32)
  | .ltcFrameDecoded tc rate sub => decide (tc < 2 ^ 32) && decide (1 ≤ rate ∧ rate ≤ 4) && decide (sub < 250)
  | .ltcLoss => true
  | .drainFrameStart => true
  | .drainFrameEnd stream pn => decide (stream < 32) && decide (pn < 2 ^ 32)
  | .frameDurable stream pn => decide (stream < 32) && decide (pn < 2 ^ 32)
  | .engineKnownAnswerCheck engine _ => engine.ok
  | .stackTrained stack _ _ => decide (stack < 4)
  | .storeRead rd => rd.ok
  | .storeWrite wr => wr.ok
  | .zeroFillDone granule => decide (granule < 2 ^ 22)
  | .narrowWrite wr => wr.ok
  | .mergeClose rd => rd.ok
  | .scrubTick faults => (faults.all (·.ok))
  | .bpmGrant pool reqs => decide (pool < 16) && (reqs.all fun r => decide (r.owner < 64) && decide (r.cls ≤ 3))
  | .bpmFree owner buf => decide (owner < 64) && buf.ok
  | .freeComplete index => decide (index < 2 ^ 22)
  | .bpmRelease owner buf => decide (owner < 64) && buf.ok
  | .bpmShare owner buf mask last => decide (owner < 64) && buf.ok && decide (mask < 2 ^ 64) && decide (last < 64)
  | .bpmTransfer owner buf target => decide (owner < 64) && buf.ok && decide (target < 64)
  | .bpmHostwSet owner buf => decide (owner < 64) && buf.ok
  | .bpmHostwClr owner buf => decide (owner < 64) && buf.ok
  | .cacheRead acc => acc.ok
  | .cacheWrite acc => acc.ok
  | .cacheFillDone rd => rd.ok
  | .prefetchArrival rd => rd.ok
  | .writebackAck addr => isLine addr
  | .mergeBufDrain addr => isLine addr
  | .forwardedWrite wr => wr.ok
  | .mcClean addr count => isLine addr && decide (count < 2 ^ 32)
  | .mcInv addr count => isLine addr && decide (count < 2 ^ 32)
  | .mcDiscard addr count => isLine addr && decide (count < 2 ^ 32)
  | .channelTrained ch _ probes => decide (ch < 32) && (probes.all fun p => decide (p.ce < 8))
  | .zqCalTimer ch => decide (ch < 32)
  | .dieTempRead ch ce lun temp => decide (ch < 32) && decide (ce < 8) && decide (lun < 8) && decide (-128 ≤ temp ∧ temp < 128)
  | .flashProgramDone pua _ => decide (pua < 2 ^ 39)
  | .flashEraseDone row failed => decide (row < 2 ^ 25) && decide (failed < 2 ^ 32)
  | .flashReadDone pua how _ => decide (pua < 2 ^ 39) && decide (how.level ≤ 4) && decide (how.tries ≤ 8)
  | .flashOpTimeout pua => decide (pua < 2 ^ 39)
  | .mapPageLoaded page => decide (page < 2 ^ 22)
  | .mapPairWait page => decide (page < 2 ^ 22)
  | .journalFlush => true
  | .sflJrnFlush value => decide (value < 2 ^ 32)
  | .sflJrnCkpt value => decide (value < 2 ^ 32)
  | .checkpointStart => true
  | .checkpointDone => true
  | .sflTimeAdvance => true
  | .sflTimeWrite value => decide (value < 2 ^ 32)
  | .gcSourceSelect set => decide (set < 8)
  | .gcUnitCopy set => decide (set < 8)
  | .eraseStart row => decide (row < 2 ^ 25)
  | .flashRebuild _ _ => true
  | .pwrfail => true
  | .pwrfailFlashQuiet _ => true
  | .sjCompleteAtPowerfail => true
  | .fillWaitExpiry row k => decide (row < 2 ^ 25) && decide (k < 4096)
  | .sjSlotFlush _ _ => true
  | .shadowProgram _ => true
  | .rebuildUnitMove set _ => decide (set < 8)
  | .reshapeUnitMove set => decide (set < 8)
  | .discParityAdd slot disc x => decide (slot < 16) && decide (disc < 10) && decide (x < 16384)
  | .recompute slot _ => decide (slot < 16)
  | .discRunCovered slot => decide (slot < 16)
  | .discIdentify drive lead => decide (drive < 4) && lead.ok
  | .discUnload drive => decide (drive < 4)
  | .ldrInventory => true
  | .ldrHome => true
  | .loaderStepDone => true
  | .loaderStepTimeout => true
  | .sampleFrame input => input.ok
  | .servoFrame frame => frame.ok
  | .statusFrame frame => frame.ok
  | .ldpcDecodeStart decoder => decide (decoder < 24)
  | .ldpcDecodeDone decoder => decide (decoder < 24)
  | .recoveryLevelStart drive brow => decide (drive < 4) && decide (brow < 2 ^ 32)
  | .bandrowCommit commit => commit.ok
  | .shockInput drive ns => decide (drive < 4) && decide (ns < 2500)
  | .reallocRecord commit => commit.ok
  | .focusConfirmed drive => decide (drive < 4)
  | .focusSweepEnd drive => decide (drive < 4)
  | .focusLost drive => decide (drive < 4)
  | .jumpKickEnd drive => decide (drive < 4)
  | .jumpBrakeEnd drive => decide (drive < 4)
  | .jumpFail drive => decide (drive < 4)
  | .seekTrajectoryEnd drive => decide (drive < 4)
  | .settleComplete drive => decide (drive < 4)
  | .seekFail drive => decide (drive < 4)
  | .retractComplete drive => decide (drive < 4)
  | .servoStale drive => decide (drive < 4)
  | .deadline drive loop => decide (drive < 4) && decide (loop < 23)
  | .srvCsDataWrite drive value => decide (drive < 4) && decide (value < 2 ^ 32)
  | .srvCsDataRead drive => decide (drive < 4)
  | .seedBringupDone engine _ => decide (engine < 12)
  | .sproutDue drive => decide (drive < 4)
  | .srvRedCtrlSprout value => decide (value < 2 ^ 32)
  | .sproutStart drive => decide (drive < 4)
  | .sproutSwitch drive => decide (drive < 4)
  | .selftestDone engine _ => decide (engine < 12)
  | .spinUpRequest drive => decide (drive < 4)
  | .spindleMeasurementDone drive meas => decide (drive < 4) && meas.ok
  | .alignmentDone drive _ _ _ => decide (drive < 4)
  | .syncConfirmed drive => decide (drive < 4)
  | .atSpeedReached drive => decide (drive < 4)
  | .obsLost drive => decide (drive < 4)
  | .recatchFail drive => decide (drive < 4)
  | .startFail drive => decide (drive < 4)
  | .controlledStop drive => decide (drive < 4)
  | .standstill drive => decide (drive < 4)
  | .stopFail drive => decide (drive < 4)
  | .overcurrent drive => decide (drive < 4)
  | .dcLow drive => decide (drive < 4)
  | .stepTimerExpiry axis => decide (axis < 8)
  | .holdCurrentTimer axis => decide (axis < 8)
  | .chopperComparator axis phase _ _ _ _ _ => decide (axis < 8) && decide (phase < 2)
  | .stCmdMove axis => decide (axis < 8)
  | .stCmdHome axis => decide (axis < 8)
  | .stCmdStop axis => decide (axis < 8)
  | .stCmdPark axis => decide (axis < 8)
  | .homeInput axis _ => decide (axis < 8)
  | .homeFail axis => decide (axis < 8)
  | .limitInput axis side _ => decide (axis < 8) && decide (side < 2)
  | .estop => true
  | .motCtrlEstopClr value => decide (value < 2 ^ 32)
  | .chatter key => decide (key ≤ 34)
  | .chatterClear key _ => decide (key ≤ 34)
  | .inStuck drive => decide (drive < 4)
  | .genlockEdge _ sub => decide (sub < 250)
  | .calRun value => decide (value < 2 ^ 32)
  | .calRunAbort value => decide (value < 2 ^ 32)
  | .calMeasureStart item => itemOk item
  | .calMeasureDone item _ => itemOk item
  | .vrefcalCheck mv => decide (mv < 2 ^ 16)
  | .cxlMemRead rd => rd.ok
  | .cxlMemWrite wr => wr.ok
  | .cxlMemSpecRead addr => isLine addr
  | .cxlMemInv addr => isLine addr
  | .hdmDecoderCommit index _ _ => decide (index < 2)
  | .capsuleSlotWrite queue offset bytes => decide (queue < 64) && decide (bytes.length ≤ 64) && decide (offset + bytes.length ≤ 2 ^ 18)
  | .hatSqdb queue tail => decide (queue < 64) && decide (tail < 2 ^ 32)
  | .hatRhdb queue head => decide (queue < 64) && decide (head < 2 ^ 32)
  | .msixAggTimer queue => decide (queue < 64)
  | .hatAqEnable value => decide (value < 2 ^ 32)
  | .hatAqDisable value => decide (value < 2 ^ 32)
  | .write queue cid => decide (queue < 64) && decide (cid < 2 ^ 16)
  | .read queue cid => decide (queue < 64) && decide (cid < 2 ^ 16)
  | .flush queue cid => decide (queue < 64) && decide (cid < 2 ^ 16)
  | .frameRead queue cid => decide (queue < 64) && decide (cid < 2 ^ 16)
  | .rangeRelease queue cid => decide (queue < 64) && decide (cid < 2 ^ 16)
  | .migrate queue cid => decide (queue < 64) && decide (cid < 2 ^ 16)
  | .verify queue cid => decide (queue < 64) && decide (cid < 2 ^ 16)
  | .mountShell queue cid => decide (queue < 64) && decide (cid < 2 ^ 16)
  | .ejectShell queue cid => decide (queue < 64) && decide (cid < 2 ^ 16)
  | .arm queue cid => decide (queue < 64) && decide (cid < 2 ^ 16)
  | .trigger queue cid ns => decide (queue < 64) && decide (cid < 2 ^ 16) && decide (ns < 2500)
  | .stop queue cid => decide (queue < 64) && decide (cid < 2 ^ 16)
  | .dataDone queue cid xid => decide (queue < 64) && decide (cid < 2 ^ 16) && decide (xid < 2 ^ 16)
  | .release queue cid xid => decide (queue < 64) && decide (cid < 2 ^ 16) && decide (xid < 2 ^ 16)
  | .rangeLockGranted queue cid => decide (queue < 64) && decide (cid < 2 ^ 16)
  | .queueCreate cid => decide (cid < 2 ^ 16)
  | .queueDelete cid => decide (cid < 2 ^ 16)
  | .queueReset cid => decide (cid < 2 ^ 16)
  | .queueResetDone queue => decide (queue < 64)
  | .flr => true
  | .linkDown => true
  | .linkTrained mode rate width => decide (mode = 1 ∨ mode = 2) && decide (1 ≤ rate ∧ rate ≤ 3) && decide (width = 1 ∨ width = 2 ∨ width = 4 ∨ width = 8)
  | .conventionalReset => true
  | .identifyMemoryDevice => true
  | .getHealthInfo => true
  | .getPoisonList => true
  | .getLsa offset length => decide (offset < 2 ^ 32) && decide (length < 2 ^ 32)
  | .setLsa offset _ => decide (offset < 2 ^ 32)
  | .getFwInfo => true
  | .transferFw => true
  | .activateFw => true
  | .identify cid => decide (cid < 2 ^ 16)
  | .getLog cid => decide (cid < 2 ^ 16)
  | .setFeature cid => decide (cid < 2 ^ 16)
  | .getFeature cid => decide (cid < 2 ^ 16)
  | .fwDownload cid => decide (cid < 2 ^ 16)
  | .fwCommit cid => decide (cid < 2 ^ 16)
  | .keyLoad cid => decide (cid < 2 ^ 16)
  | .profileNextWrite value => decide (value < 2 ^ 32)
  | .thermalLevelFall => true
  | .railValid rail _ => decide (rail < 8)
  | .resetNAssert _ => true
  | .startup x => x.ok
  | .ready us10 => decide (us10 < 2 ^ 16)
  | .jtagReset => true
  | .perstNRelease => true
  | .fwCommitCheckEnd cid => decide (cid < 2 ^ 16)
  | .ringFull queue => decide (queue < 64)
  | .estopNRelease => true
  | .shockRelease drive => decide (drive < 4)
  | .d3hotTransition _ => true
  | .getEventRecords => true
  | .tapInstruction _ => true

end Sys2Proof
end

