-- ==== Sys2Proof/Tests/Slice0.lean ====
section
/-! SUPPORT. Tests: what WellFormed refuses, single steps with results worked out from the manual, and for each statement with hypotheses a
state and operands that meet them, clause by clause and at the boundaries of their ranges. -/
namespace Sys2Proof.Tests
open Sys2Proof Sys2Proof.Machine
set_option Elab.async false

/-- A state made from the one after reset. -/
def mk (f : Dev → Dev) : State := ⟨f Dev.reset, []⟩
/-- The same with a change of the platform's record. -/
def plat (f : Plat → Plat) : State := mk (·.onPlat f)
/-- A fence that began at tick 0. -/
def fenceOf (u : Nat) : Fence := ⟨u, 0, [], none⟩
/-- A staged set of a page with nothing in it. -/
def stagedOf (p at_ : Nat) (m : MbbSt) : Staged := ⟨p, 0, 0, at_, 0, [], m⟩
/-- A command of queue `q` under CID 1, consumed and not begun. -/
def cmdOf (q op vol : Nat) (b : List Byte) : Cmd := {
  queue := q, cid := 1, arrival := 1, op := op, flags := 0, vol := vol, args := b, started := false, entry := false, locked := false, phase := 0
  next := 0, units := 0, issued := [], done := [], hollow := 0, found := [], data := [], stop := none, core := q % 8, wait := [], refused := false
  res := (0, 0, 0), verdict := none, brought := false }
/-- A capsule with bytes set. -/
def capsule (xs : List (Nat × Nat)) : List Byte := (List.range 64).map fun i => w8 ((xs.lookup i).getD 0)

/-! ## The queue, the tick, supplies and sensors -/

theorem witness_StepTakesFront : (⟨Dev.reset, [.flr, .linkDown]⟩ : State).pending = .flr :: [.linkDown] ∧ State.reset.pending = [] := by decide

theorem witness_TimebaseCommands :
    (mk id).dev.flag F.pltStat_refLost = false ∧
    (let d := (mk fun d => (d.wr F.pltStat_refLost 1).onPlat fun p => { p with okRun := 400 }).dev
     d.flag F.pltStat_refLost = true ∧ 400 ≤ d.plat.okRun ∧ d.plat.slewing = false) ∧
    (let d := (mk fun d => (d.wr F.pltStat_refLost 1).onPlat fun p => { p with slewing := true, phase := -9 }).dev
     d.flag F.pltStat_refLost = true ∧ d.plat.slewing = true ∧ d.plat.phase.natAbs < 10) ∧
    (let d := (mk fun d => (d.wr F.sflStat 2).onSfl fun x => { x with jobs := [newJob (.gc 0) 0 0] }).dev
     d.rd F.pltArbPromo ≤ d.rd F.pltArbPromo ∧ d.flashReady = true ∧ d.classServed 2 = true ∧
      (d.sfl.jobs.map d.jobReq).find? (fun r => r.cls == 3) = some (d.jobReq (newJob (.gc 0) 0 0))) ∧
    (let d := (mk fun d => d.onSfl fun x => { x with jobs := [newJob (.host 1 0) 0 0] }).dev
     ∀ j ∈ d.sfl.jobs, (d.jobReq j).cls ≠ 3) ∧
    (mk id).dev.rd F.pltArbPromo - 1 < (mk id).dev.rd F.pltArbPromo := by decide

theorem witness_SupplyCommands :
    7 < 8 ∧
    (let d := (plat fun p => { p with railOut := [0, 0, 0, 0, 0, 0, 0, 4] }).dev
     4 ≤ d.plat.railOut.getD 7 0 ∧ d.plat.tp = none) ∧
    ((mk id).dev.plat.railValid.getD 7 true = false ∧ (mk id).dev.plat.railFirst = none) ∧
    ((plat fun p => { p with railFirst := some 0 }).dev.plat.railValid.getD 7 true = false ∧
      (plat fun p => { p with railFirst := some 0 }).dev.plat.railFirst ≠ none) := by decide

set_option maxRecDepth 20000 in
theorem witness_ThermalFall :
    let d := (mk fun d => (d.wr F.pltThermStat_level 4).onPlat fun p => { p with hot := List.replicate 400 (-2000) }).dev
    d.rd F.pltThermStat_level ≠ 0 ∧ d.rd F.pltThermStat_level ≤ 4 ∧ d.plat.fell = false ∧ 400 ≤ d.plat.hot.length ∧
      (∀ t ∈ d.plat.hot, t < d.thermAt (d.rd F.pltThermStat_level) - 32) ∧ d.thermRise < d.rd F.pltThermStat_level := by decide

/-! ## Register accesses -/

/-- What a write at `a` of `v` meets where the register takes it. -/
def takes (d : Dev) (a v : Nat) : Bool :=
  match kindAt a, regAt a with
  | some (k, i), some r => decide (a % 4 = 0 ∧ v < 2 ^ 32 ∧ r.mask Access.takes ≠ 0 ∧ d.takesWrite k a = true ∧ d.writeBarred k a v r = false ∧
      (d.writeAct k i a v 0).isNone = true ∧ v &&& r.mask (fun _ => true) = v)
  | _, _ => false
/-- What it meets where the register does not. -/
def refuses (d : Dev) (a v : Nat) : Bool :=
  match kindAt a, regAt a with
  | some (k, _), some r => decide (r.mask Access.takes = 0) || !d.takesWrite k a || d.writeBarred k a v r
  | _, _ => false

theorem witness_WriteTakesFields : takes (mk id).dev 0x7140 0x7D3020 = true ∧ takes (mk id).dev 0x10 (2 ^ 31) = true ∧
    takes (mk id).dev 0x520100 0x18000000 = true := by decide

theorem witness_IgnoredAccess :
    regAt 0xFFFFFC = none ∧ refuses (mk id).dev 0x3100 0 = true ∧ refuses (plat fun p => { p with safe := true }).dev 0x7140 0x7D3020 = true ∧
      refuses (mk id).dev 0x7140 0x7E3020 = true ∧ (2 ≠ 4 ∧ 2 ≠ 8) ∧ 0x7142 % 4 ≠ 0 ∧ 0x7144 % 8 ≠ 0 := by decide

/-- What a read at `a` meets. -/
def reads (a : Nat) : Bool :=
  match kindAt a, regAt a with
  | some (k, _), some _ => decide (a % 4 = 0 ∧ latchesHi a = false ∧ k ≠ .pltTick ∧ ¬ (k = .srvDrv ∧ a % 4096 = 0x184))
  | _, _ => false

theorem witness_ReadsAndInjection : reads (F.pltMramCnt 2).addr = true ∧ reads 0 = true ∧ latchesHi F.mg3PfLo.addr = true ∧
    F.mg3PfLo.addr ≠ F.sflCapLo.addr ∧ (0xB00000 % 4096 = 0 ∧ kindAt (0xB00000 + 0x1C) = some (.calReg, 0)) ∧
    (mk id).dev.takesWrite .calReg (0xB00000 + 0x1C) = true ∧
    (let a := Pg.srvDrv 3 + 0x184
     a % 4 = 0 ∧ kindAt a = some (.srvDrv, 3) ∧ a % 4096 = 0x184) ∧
    0x7FFFF8 % 8 = 0 ∧ (¬ (3 = 4 ∧ 0 % 4 = 0) ∧ ¬ (3 = 8 ∧ 0 % 8 = 0)) ∧ (¬ (4 = 4 ∧ 2 % 4 = 0) ∧ ¬ (4 = 8 ∧ 2 % 8 = 0)) ∧
    (¬ (8 = 4 ∧ 4 % 4 = 0) ∧ ¬ (8 = 8 ∧ 4 % 8 = 0)) := by decide

theorem witness_calOwns (a hi lo : Nat) : (mk id).dev.calOwns a hi lo = false := rfl

theorem witness_KeyedWrites :
    (let d := (mk id).dev
     d.plat.softReset = none ∧ d.plat.tp = none ∧ d.writesBlocked = false ∧ d.rd F.sflTime < 2 ^ 32 - 1 ∧ d.active keyEstop = false) := by decide

/-! ## Commits, groups and make-before-break -/

theorem witness_CommitsStage :
    (let d := (mk fun d => d.setRaw 0x7024 1).dev
     let e := (mk id).dev
     0x7000 % 4096 = 0 ∧ d.writesBlocked = false ∧ (kindAt 0x7000).isSome = true ∧ (d.raw 0x7028).toNat = 0 ∧ d.pendingPage 0x7000 = false ∧
      (d.raw 0x7024).toNat ≠ 0 ∧ d.futureTick (d.raw 0x7024).toNat = true ∧ d.refuses [0x7000] 0x7000 = false ∧
      d.isMbb (d.asStaged [0x7000]) 0x7000 = false ∧ (e.raw 0x7024).toNat = 0) ∧
    (let d := (mk fun d => d.setRaw 0x7024 0x80000000).dev
     (d.raw 0x7024).toNat ≠ 0 ∧ d.futureTick (d.raw 0x7024).toNat = false ∧ d.pendingPage 0x7000 = false ∧ (d.raw 0x7028).toNat = 0) ∧
    (let d := (plat fun p => { p with staged := [stagedOf 0x7000 1 .single] }).dev
     d.plat.staged.filter (fun y => y.page == 0x7000) = [stagedOf 0x7000 1 .single] ∧ (d.raw 0x7028).toNat = 0 ∧
      d.now + (if 2400 ≤ 2399 then 2 else 1) ≤ 1) := by decide

theorem witness_GroupCommits :
    (let d := (mk fun d => d.setRaw 0x7028 63).dev
     d.writesBlocked = false ∧ d.groupPages 63 ≠ [] ∧ Map.get 0 d.plat.groupSt 63 ≠ 1 ∧ d.rd F.pltGrpTick = 0 ∧
      ∀ p ∈ d.groupPages 63, d.refuses (d.groupPages 63) p = false ∧ d.isMbb (d.asStaged (d.groupPages 63)) p = false) ∧
    (let x : Staged := ⟨0x7000, 63, 0, 1, 0, [], .single⟩
     let d := (plat fun p => { p with staged := [x], groupSt := [(63, 1)] }).dev
     Map.get 0 d.plat.groupSt 63 = 1 ∧ d.plat.staged.filter (fun x => x.group == 63) ≠ [] ∧
      ∀ x ∈ d.plat.staged, x.group = 63 → x.mbb = .single ∧ d.now + (if 2400 ≤ 0 then 2 else 1) ≤ x.applyAt) := by decide

theorem witness_CommitsTakeEffect :
    (let d := (plat fun p => { p with staged := [stagedOf 0x7000 1 .single] }).dev
     kindAt 0x7000 = some (.pltTherm, 0) ∧ d.plat.staged = [⟨0x7000, 0, 0, 1, 0, [], .single⟩] ∧ 1 ≤ d.now + 1 ∧
      Kind.pltTherm ≠ .ingStr ∧ Kind.pltTherm ≠ .bpmPool ∧ Kind.pltTherm ≠ .bpmOwn ∧ Kind.pltTherm ≠ .seqMc ∧ Kind.pltTherm ≠ .parSet ∧
      Kind.pltTherm ≠ .odrWr ∧ Kind.pltTherm ≠ .srvLoop) ∧
    kindAt 0x310000 = some (.ingStr, 0) ∧
    (let d := (plat fun p => { p with staged := [stagedOf 0x310000 1 (.build none)] }).dev
     d.plat.staged = [stagedOf 0x310000 1 (.build none)] ∧ d.built 0x310000 = true) ∧
    (let d := (plat fun p => { p with staged := [stagedOf 0x310000 1 (.build (some (0, 2399)))] }).dev
     max 1 (0 + if 2400 ≤ 2399 then 2 else 1) ≤ d.now + 1 ∧ d.plat.staged = [stagedOf 0x310000 1 (.build (some (0, 2399)))]) ∧
    (let d := (plat fun p => { p with tick := 4, staged := [stagedOf 0x310000 1 (.teardown 0)] }).dev
     (d.stream 0).oldBond = none ∧ 0 + 4 ≤ d.now ∧ d.plat.staged = [stagedOf 0x310000 1 (.teardown 0)]) := by decide

/-- A pool's page, and an owner's of it, whose SIZE is not short and is, with one buffer of reserve left to be granted. -/
theorem witness_CommitsTakeEffect_pools :
    (let d (rsv page : Nat) := (mk fun d => (d.wr (F.bpmOwnRsv 63) rsv).onPlat fun p => { p with staged := [stagedOf page 1 .single] }).dev
     let n (rsv page : Nat) : Dev := { d rsv page with force := Map.replaceWindow (d rsv page).force [] page (4096 + page) }
     let pool := (mk id).dev.ownerPool 63
     kindAt (Pg.bpmPool pool) = some (.bpmPool, pool) ∧ kindAt (Pg.bpmOwn 33) = some (.bpmOwn, 33) ∧
      (d 0 (Pg.bpmPool pool)).poolShort (n 0 (Pg.bpmPool pool)) pool = false ∧ (d 1 (Pg.bpmPool pool)).poolShort (n 1 (Pg.bpmPool pool)) pool = true ∧
      (d 0 (Pg.bpmOwn 33)).poolShort (n 0 (Pg.bpmOwn 33)) ((n 0 (Pg.bpmOwn 33)).ownerPool 33) = false ∧
      (d 1 (Pg.bpmOwn 33)).poolShort (n 1 (Pg.bpmOwn 33)) ((n 1 (Pg.bpmOwn 33)).ownerPool 33) = true ∧
      (d 1 (Pg.bpmOwn 33)).plat.staged = [⟨Pg.bpmOwn 33, 0, 0, 1, 0, [], .single⟩] ∧ 1 ≤ (d 1 (Pg.bpmOwn 33)).now + 1) := by decide

/-! ## Units, fences, resets, the tick and the engines -/

/-- A state with units in the states given. -/
def units (us : List (Nat × UnitSt)) : State := plat fun p => { p with units := us }

theorem witness_UnitStates :
    (∀ p ∈ [Pg.sflFc 31, Pg.cstStk 0, Pg.odrDrv 3, Pg.ingStr 31, Pg.motSt 7, Pg.cstStk 3],
      p % 4096 = 0 ∧ masterOf p = p ∧ hasUnit p = true ∧ (mk id).dev.unitAt p = .off ∧ (mk id).dev.closed p = false ∧ (kindAt p).isSome = true) ∧
    (∀ p ∈ [Pg.sflFc 31, Pg.cstStk 0, Pg.odrDrv 3, Pg.ingStr 31], replaceable p = true) ∧
    (mk id).dev.writesBlocked = false ∧ masterOf (Pg.srvEng 11) = Pg.odrDrv 3 ∧ masterOf 0x7000 ≠ Pg.odrDrv 3 ∧
    (∀ u ∈ [UnitSt.quiesced, .isolated, .fenced], (units [(Pg.odrDrv 3, u)]).dev.unitAt (Pg.odrDrv 3) = u ∧
      (units [(Pg.odrDrv 3, u)]).dev.fencing (Pg.odrDrv 3) = false) ∧
    ((units [(Pg.sflFc 31, .active)]).dev.unitAt (Pg.sflFc 31) = .active ∧ (units [(Pg.sflFc 31, .active)]).dev.closed (Pg.sflFc 31) = false) ∧
    (∀ u ∈ [UnitSt.quiescing, .quiesced], (units [(Pg.ingStr 31, u)]).dev.unitAt (Pg.ingStr 31) = u ∧
      (units [(Pg.ingStr 31, u)]).dev.closed (Pg.ingStr 31) = false) ∧
    ((units [(Pg.odrDrv 3, .quiesced)]).dev.discOnSpindle 3 = false ∧ (units [(Pg.cstStk 0, .fenced)]).dev.stackMapped 0 = false) ∧
    (∀ p ∈ [Pg.sflFc 31, Pg.cstStk 0, Pg.odrDrv 3, Pg.ingStr 31], (units [(p, .isolated)]).dev.unitAt p = .isolated ∧
      (units [(p, .isolated)]).dev.fencing p = false) ∧
    ((units [(Pg.cstStk 3, .active)]).dev.unitAt (Pg.cstStk 3) = .active ∧ kindAt (Pg.cstStk 3) = some (.cstStk, 3)) ∧
    ((units [(Pg.sflFc 31, .quiescing)]).dev.unitIdle (Pg.sflFc 31) = true ∧ (units [(Pg.sflFc 31, .quiescing)]).dev.closed (Pg.sflFc 31) = false) ∧
    (let d := (plat fun p => { p with tick := 8000, units := [(Pg.sflFc 31, .quiescing)] }).dev
     d.unitAt (Pg.sflFc 31) = .quiescing ∧ d.quiesceBound (Pg.sflFc 31) = some 8000 ∧ 8000 ≤ d.since (Map.get 0 d.plat.quiesceAt (Pg.sflFc 31)) ∧
      d.closed (Pg.sflFc 31) = false) := by decide

/-- A stack that counts, quiesced with the pools held to the last buffer by the others. -/
theorem witness_UnitStates_stack :
    let d := (mk fun d => ((d.setUnit (Pg.cstStk 0) .active).wr (F.cstStkTrain 0) 2).onPlat fun p => { p with boot := .ready }).dev
    d.stackCounts 0 = true ∧ d.unitAt (Pg.cstStk 0) = .active ∧ d.sizeSum + (if d.stackCounts 0 then Config.pooled 0 else 0) ≤ d.pooledNow := by
  decide

theorem witness_UnitEnable_stream : ∃ d : Dev, d.unitAt (Pg.ingStr 31) = .off ∧ d.closed (Pg.ingStr 31) = false ∧
    ({ d with plat := { d.plat with absent := d.plat.absent.filter (· != Pg.ingStr 31) } } : Dev).streamMayEnable 31 = true :=
  ⟨Dev.reset, by decide⟩

theorem witness_DiscCompatibility :
    (let d := (mk fun d => (d.wr (F.drvStat_state 3) 2).onPlat fun p => { p with units := [(Pg.odrDrv 3, .fenced)] }).dev
     Pg.odrDrv 3 % 4096 = 0 ∧ kindAt (Pg.odrDrv 3) = some (.odrDrv, 3) ∧ d.writesBlocked = false ∧ d.unitAt (Pg.odrDrv 3) ≠ .isolated ∧
      d.discOnSpindle 3 = true ∧ d.ad8 3 ≠ true) ∧
    (let d := (mk fun d => (d.wr (F.drvStat_state 3) 1).onOdr fun o => { o with loader := { o.loader with step := 9, cur := some (.toDrive 0 3) } }).dev
     d.discOnSpindle 3 = true ∧ (d.onOdr fun o => { o with loader := { o.loader with step := 8 } }).discOnSpindle 3 = false) ∧
    (let d := (mk fun d => (d.onPlat fun p => { p with units := [(Pg.cstStk 3, .active)] }).onHat fun h =>
        { h with decoders := [none, some (3 * 2 ^ 36, 3 * 2 ^ 36 + 2 ^ 28)] }).dev
     Pg.cstStk 3 % 4096 = 0 ∧ kindAt (Pg.cstStk 3) = some (.cstStk, 3) ∧ d.writesBlocked = false ∧ d.unitAt (Pg.cstStk 3) ≠ .isolated ∧
      d.hat.decoders = [none, some (3 * 2 ^ 36, 3 * 2 ^ 36 + 2 ^ 28)] ∧ 3 * 2 ^ 36 < (3 + 1) * 2 ^ 36 ∧ 3 * 2 ^ 36 < 3 * 2 ^ 36 + 2 ^ 28) ∧
    ((mk id).dev.ad8 3 ≠ true ∧ (mk id).dev.discOnSpindle 3 = false ∧ (mk id).dev.unitAt (Pg.odrDrv 3) = .off ∧
      (units [(Pg.odrDrv 3, .active)]).dev.discOnSpindle 3 = false ∧ (units [(Pg.odrDrv 3, .active)]).dev.unitAt (Pg.odrDrv 3) = .active) := by decide

/-- A drive that holds a disc and a drive that a disc is on its way to: only the second is isolated; a repeated ISOLATE changes nothing. -/
theorem test_isolate_disc :
    (match exec (.unitIsolate (Pg.odrDrv 3)) (mk fun d => (d.wr (F.drvStat_state 3) 2).onPlat fun p =>
        { p with units := [(Pg.odrDrv 3, .fenced)] }) with
     | .next t => decide (t.dev.unitAt (Pg.odrDrv 3) = .fenced ∧ t.dev.ignoredCount (Pg.odrDrv 3) = 1)
     | _ => false) = true ∧
    (match exec (.unitIsolate (Pg.odrDrv 3)) (mk fun d => (d.wr (F.drvStat_state 3) 1).onPlat fun p =>
        { p with units := [(Pg.odrDrv 3, .fenced)] }) with
     | .next t => decide (t.dev.unitAt (Pg.odrDrv 3) = .isolated ∧ t.dev.ignoredCount (Pg.odrDrv 3) = 0)
     | _ => false) = true ∧
    (match exec (.unitIsolate (Pg.odrDrv 3)) (mk fun d => d.onPlat fun p => { p with units := [(Pg.odrDrv 3, .isolated)] }) with
     | .next t => decide (t.dev.unitAt (Pg.odrDrv 3) = .isolated ∧ t.dev.ignoredCount (Pg.odrDrv 3) = 0)
     | _ => false) = true := by decide +kernel

/-- What FENCE_TIMEOUT's second clause asks of a fence that nothing lies in, begun at tick 0, with the error given. -/
def lateFence (u : Nat) (err : Option (Nat × Nat)) : Bool :=
  let d := (plat fun p => { p with tick := 4, fences := [⟨u, 0, [], err⟩] }).dev
  let r := (containing u).2
  let outer := if (containing u).1 = u then r else (containing u).1
  decide (fenceUnit u = u ∧ 4 ≤ d.since 0 ∧ u ≠ r ∧ masterOf outer = outer ∧ containing outer = (outer, r) ∧ d.unitAt outer ≠ .fenced ∧
    d.unitAt r ≠ .fenced ∧ masterOf r = r) && (kindAt outer).all fun x => !x.1.desc.isolate

theorem witness_FenceSteps :
    (let d := (plat fun p => { p with fences := [fenceOf (Pg.odrDrv 3)] }).dev
     d.plat.fences = [fenceOf (Pg.odrDrv 3)] ∧ Pg.odrDrv 3 < 2 ^ 32 ∧ fenceUnit (Pg.odrDrv 3) = Pg.odrDrv 3 ∧ (fenceOf (Pg.odrDrv 3)).within = []) ∧
    (∀ c ∈ [Cell.codec 15, .sha 7, .stripe 15, .ldpc 23, .lun 2047, .core 7], cellAt (cellPage c) = some c ∧ fenceUnit (cellPage c) = cellPage c ∧
      (plat fun p => { p with fences := [fenceOf (cellPage c)] }).dev.plat.fences = [fenceOf (cellPage c)] ∧ (fenceOf (cellPage c)).within = []) ∧
    lateFence (Pg.odrDrv 3) (some (Pg.odrDrv 3, 31)) = true ∧ lateFence (cellPage (.codec 15)) none = true ∧ lateFence (cellPage (.core 7)) none = true ∧
    (let d := (plat fun p => { p with tick := 4, fences := [fenceOf (11 * 0x100000)] }).dev
     d.plat.fences = [fenceOf (11 * 0x100000)] ∧ 11 < 12 ∧ fenceUnit (11 * 0x100000) = 11 * 0x100000 ∧ 4 ≤ d.since 0 ∧ d.plat.safe = false) := by
  decide

/-- What start-up finds. -/
def startIn (testEn : Bool) : StartIn := ⟨true, false, testEn, true, true, false, [], [], [], []⟩

theorem witness_ResetCommands :
    ((plat fun p => { p with softReset := some 0, tick := 21 }).dev.softResetDue true = true ∧
      (plat fun p => { p with softReset := some 0, tick := 9 }).dev.softResetDue false = true ∧
      (plat fun p => { p with softReset := some 0, tick := 8 }).dev.softResetDue false = false) ∧
    ((mk id).dev.plat.boot = .reset ∧ (startIn true).testEn = true ∧ (startIn false).testEn = false) ∧
    (let d := (plat fun p => { p with boot := .starting, safe := true }).dev
     d.plat.boot = .starting ∧ d.plat.pfPin = false ∧ d.plat.softReset = none ∧ d.plat.safe = true) ∧
    (plat fun p => { p with boot := .starting }).dev.activeProf = none ∧ (mk fun d => (d.wr F.pltMramProf_valid 1).onPlat fun p => { p with boot := .starting }).dev.activeProf = some 0 ∧
    (plat fun p => { p with testEn := true }).dev.plat.testEn = true := by
  decide

theorem witness_TimePasses : (plat fun p => { p with boot := .ready }).dev.plat.boot ≠ .reset ∧ (∀ env, Instr.flr ≠ .tickBoundary env) ∧
    (∀ x, Instr.flr ≠ .startup x) ∧ (∀ l, Instr.flr ≠ .resetNAssert l) ∧ ∀ r, Instr.flr ≠ .softResetTakesEffect r := by
  refine ⟨by decide, ?_, ?_, ?_, ?_⟩ <;> intro x h <;> cases h

/-- Drive 3 ACTIVE, with engines 9 and 10 ACTIVE in roles A and B at the images given. -/
def duplex (i j : Image) : State := mk fun d =>
  ((d.setUnit (Pg.odrDrv 3) .active).onEng 9 fun x => { x with st := 3, role := 1, img := some i }).onEng 10 fun x =>
    { x with st := 3, role := 2, img := some j }

theorem witness_OverrunsHold :
    (let d := (mk fun d => (d.setUnit (Pg.motSt 7) .active).onAxis 7 fun x => { x with st := 2 }).dev
     (d.axis 7).st ≠ 0 ∧ d.axisOff 7 = false) ∧
    (let d := (mk fun d => d.onCal fun c => { c with stepping := [(0, [])] }).dev
     d.calSteps 0 = true ∧ d.cal.skip.contains 0 = false) ∧
    (let d := ((duplex Image.reset Image.reset).dev.onSrvDrive 3 fun v => { v with saved := some Image.reset })
     d.servoOn (9 / 3) = true ∧ (d.computing (9 / 3)).contains 9 = true ∧ (d.srvDrive (9 / 3)).saved = some Image.reset) := by decide

theorem witness_DispatchAndVerdict :
    (let d := (duplex Image.reset { Image.reset with set := 1 }).dev
     (∀ k ∈ [0, 1, 2, 3], (d.servoOn k = true ↔ k = 3)) ∧ d.inRole 3 1 = some 9 ∧ d.inRole 3 2 = some 10 ∧ (d.eng 9).st = 3 ∧ (d.eng 10).st = 3 ∧
      (d.eng 9).img = some Image.reset ∧ (d.eng 10).img = some { Image.reset with set := 1 } ∧ (d.srvDrive 3).late = [] ∧
      (d.srvDrive 3).sprout = none ∧ d.plat.armed = [] ∧ ∀ g ∈ engsOf 3, (d.eng g).st ≠ 2) ∧
    ((duplex Image.reset Image.reset).dev.eng 10).img = some Image.reset ∧
    (let d := ((duplex Image.reset Image.reset).dev.onEng 9 fun x => { x with st := 4 }).onSrvDrive 3 fun v => { v with saved := some Image.reset }
     9 ∈ engsOf 3 ∧ (d.eng 9).st = 4 ∧ (d.eng 9).role ≠ 0 ∧ (d.srvDrive 3).heldAt ≠ some d.now ∧ (d.srvDrive 3).saved = some Image.reset ∧
      [true].getD (9 % 3) false = true ∧ ([] : List Bool).getD (9 % 3) false = false) ∧
    (let d := ((duplex Image.reset Image.reset).dev.onEng 11 fun x => { x with st := 4 }).onSrvDrive 3 fun v => { v with saved := some Image.reset, heldAt := some 1 }
     11 ∈ engsOf 3 ∧ (d.eng 11).st = 4 ∧ (d.eng 11).role = 0 ∧ (d.srvDrive 3).heldAt ≠ some d.now ∧ d.inRole 3 1 = some 9 ∧ d.inRole 3 2 = some 10 ∧
      (d.eng 9).st ≠ 4 ∧ (d.eng 10).st ≠ 4) := by decide

theorem witness_SproutRuns :
    (let d := (mk fun d => (d.onEng 11 fun x => { x with st := 1 }).onPlat fun p => { p with tick := 2 }).dev
     (d.eng 11).st = 1 ∧ (d.eng 11).tr + 2 ≤ d.now ∧ (d.eng 11).for_ = 0) ∧
    (let d := (mk fun d => (d.onEng 11 fun x => { x with st := 5 }).onPlat fun p => { p with tick := 3999 }).dev
     (d.eng 11).st = 5 ∧ (d.eng 11).test + 3999 ≤ d.now) ∧
    (let d := ((duplex Image.reset Image.reset).dev.onEng 11 fun x => { x with st := 5 }).onPlat fun p => { p with tick := 3999 }
     (d.eng 11).st = 5 ∧ (d.eng 11).test + 3999 ≤ d.now ∧ d.rd (F.srvEngRed_retired 11) < 2 ∧ d.hasRole (11 / 3) 1 = true ∧ d.hasRole (11 / 3) 2 = true) ∧
    (let d := (mk fun d => (d.onEng 11 fun x => { x with st := 1, for_ := 2 }).onPlat fun p => { p with tick := 2 }).dev
     (d.eng 11).st = 1 ∧ (d.eng 11).tr + 2 ≤ d.now ∧ (d.eng 11).for_ ≠ 0) ∧
    (let d := (mk fun d => (d.wr F.srvRedCfg_sproutEn 1).wr F.srvRedCfg_period 0).dev
     d.flag F.srvRedCfg_sproutEn = true ∧ d.rd F.srvRedCfg_period * 400000 ≤ d.since (d.srvDrive 3).lastDue) ∧
    (let d := (duplex Image.reset Image.reset).dev.onSrvDrive 3 fun v => { v with due := true }
     d.writesBlocked = false ∧ d.driveOn 3 = true ∧ d.coldSeed 3 = some 11 ∧ d.inRole 3 1 = some 9 ∧ d.inRole 3 2 = some 10 ∧
      (d.srvDrive 3).due = true ∧ d.rd (F.pltFwReg_state 9) = 0 ∧ (d.srvDrive 3).heldAt = none) ∧
    (let d := ((duplex Image.reset Image.reset).dev.onSrvDrive 3 fun v => { v with sprout := some (11, 9) }).onEng 11 fun x =>
        { x with st := 2, same := 64 }
     11 ∈ engsOf 3 ∧ 9 ∈ engsOf 3 ∧ (d.srvDrive 3).sprout = some (11, 9) ∧ (d.eng 11).st = 2 ∧ 64 ≤ (d.eng 11).same ∧ (d.eng 9).st = 3) := by
  decide

/-! ## Lanes, Pods, frames and sessions -/

/-- A state with lane `l` in a state of R64, unit ING_STR[31] ACTIVE where `on`. -/
def laneAt (l : Nat) (st : LaneSt) (on : Bool) : State := mk fun d =>
  (d.onLane l fun x => { x with st := st }).when on (·.setUnit (Pg.ingStr 31) .active)
/-- Lane 0's AM as the first of a bond of one lane. -/
def amOf (d : Dev) : AmBlock := ⟨0, bitsOf (d.bond 31) 18 16, (d.stream 31).epoch, 0, 160, 0⟩
/-- A head lane's AM, of a link of the version given. -/
def headAmOf (i : Nat) (ad8 : Bool) (ns : Nat) : AmBlock := ⟨i, if ad8 then 1 else 2, 0, 7, ns, 0⟩

theorem witness_LanesComeUp :
    ((laneAt 79 .detect false).dev.lane 79).st = .detect ∧ ((laneAt 63 .locking false).dev.lane 63).st = .locking ∧
    ((laneAt 63 .locked false).dev.lane 63).st = .locked ∧ ((laneAt 63 .up false).dev.lane 63).st = .up ∧
    ((laneAt 64 .up false).dev.lane 64).st = .up ∧
    (let d := (laneAt 0 .up true).dev.onPath 31 0 fun x => { x with st := .active }
     (d.lane 0).st = .up ∧ 31 ∈ d.streamsAt 0 ∧ d.groupsOf 0 = [(31, 0, d.bond 31)] ∧ (d.path 31 0).st ≠ .down) ∧
    (let d := (laneAt 0 .locked true).dev
     let m := ((d.badHeaders 0 (amOf d).bad).onLane 0 fun x => { x with am := some (amOf d) }).wr (F.ingLaneStat_epoch 0 0) (amOf d).epoch
     (d.lane 0).st = .locked ∧ d.groupsOf 0 = [(31, 0, d.bond 31)] ∧ m.groupAms (d.stream 31).epoch (d.bond 31) 0 = some [amOf d] ∧
      amSkew [amOf d] ≤ 160 ∧ (∀ k ∈ bondLanes (d.bond 31) 0, (d.lane k).st = .locked ∨ (d.lane k).st = .up) ∧ d.groupUp (d.bond 31) 0 = false ∧
      d.injected (Pg.ingStr 31) Er.ingStr_skew = false) ∧
    (∀ ad8 ∈ [false, true],
      let d := (mk fun d => (List.range 4).foldl (fun d i => d.onLane (76 + i) fun x => { x with st := .locked, am := some (headAmOf i ad8 0) })
        (d.wrB (F.drvCtrl_jdmCompat 3) ad8)).dev
      let ams := (List.range (if ad8 then 2 else 4)).map fun i => headAmOf i ad8 (if i = 1 then 160 else 0)
      (d.lane 77).st = .locked ∧ (d.onLane 77 fun x => { x with am := some (headAmOf 1 ad8 160) }).headAms 3 = some ams ∧ amSkew ams ≤ 160 ∧
        ∀ k ∈ d.headLanes 3, (d.lane k).st = .locked ∨ (d.lane k).st = .up) := by decide

/-- The sum that CRC-32C carries over bytes. -/
def crcFrom (c : Nat) (bs : List Byte) : Nat := bs.foldl (fun c b =>
  (List.range 8).foldl (fun c _ => if c % 2 = 1 then (c / 2) ^^^ 0x82F63B78 else c / 2) (c ^^^ b.toNat)) c
theorem crcFrom_append (c : Nat) (a b : List Byte) : crcFrom c (a ++ b) = crcFrom (crcFrom c a) b := List.foldl_append
theorem crcFrom_32 : crcFrom 4294967295 (zeros 32) = 1970194773 ∧ crcFrom 1970194773 (zeros 32) = 4231468184 ∧
    crcFrom 4231468184 (zeros 32) = 2920151892 ∧ crcFrom 2920151892 (zeros 32) = 4158167844 ∧ crcFrom 4158167844 (zeros 32) = 475290725 ∧
    crcFrom 475290725 (zeros 32) = 2345306063 ∧ crcFrom 2345306063 (zeros 32) = 3070562025 ∧ crcFrom 3070562025 (zeros 32) = 1200442991 := by
  decide +kernel
/-- CRC-32C of 256 zero bytes. -/
theorem test_crc32c_zeros : crc32c (zeros 256) = 3094524304 := by
  have h : zeros 256 = zeros 32 ++ (zeros 32 ++ (zeros 32 ++ (zeros 32 ++ (zeros 32 ++ (zeros 32 ++ (zeros 32 ++ zeros 32)))))) := by decide +kernel
  have e : crc32c (zeros 256) = crcFrom 4294967295 (zeros 256) ^^^ 0xFFFFFFFF := by rw [crc32c, crcFrom]
  rw [e, h]
  simp only [crcFrom_append, crcFrom_32]
  decide

/-- The bytes of a Pod of stream 31: type, payload of zeros, SEQ, FRAME, with an error in the header's CRC where `bad`, and a trailer. -/
def podBytes (ty len seq frame : Nat) (bad : Bool) (trailer : Nat) : List Byte :=
  let h := leBytes 2 (ty * 4096 + 31 * 128) ++ leBytes 2 len ++ leBytes 4 seq ++ leBytes 4 frame ++ zeros 18
  h ++ leBytes 2 (crc16 h ^^^ b2n bad) ++ (if len = 0 then [] else zeros len ++ leBytes 4 trailer ++ zeros 4)
/-- Stream 31 ACTIVE, path A up with `credits`, and the frame shape of one 256-byte chunk. -/
def podState (credits : Nat) (f : Stream → Stream) : State := mk fun d =>
  (((d.setUnit (Pg.ingStr 31) .active).wr (F.ingStrFrame_size 31) 1).onPath 31 0 fun x => { x with st := .active, granted := credits }).onStream 31 f
def arrival (b : List Byte) : PodArrival := ⟨31, 0, 0, b, 0, 0⟩
def podRec (seq path : Nat) (open_ : Bool) : PodRec := ⟨seq, 0, 0, 0, 0, 0, path, 0, open_, true, 0⟩

theorem witness_PodsChecked_state (b : Nat) :
    let d := (podState 1 id).dev
    (d.path 31 0).st ≠ .down ∧ d.streamOn 31 = true ∧ d.closed (Pg.ingStr 31) = false ∧ d.regionFenced 3 = false ∧
      d.injected (Pg.ingStr 31) b = false := by
  refine ⟨by decide, by decide, by decide, by decide, rfl⟩

theorem witness_PodsChecked :
    (podHdr (podBytes 15 0 7 0 true 0)).crcOk = false ∧
    (let b := podBytes 3 0 7 0 false 0
     (podHdr b).crcOk = true ∧ 32 ≤ b.length ∧ podFormatOk (podHdr b) b 31 = false) ∧
    (let b := podBytes 1 256 7 0 false 3094524304
     let d := (podState 0 id).dev
     (podHdr b).crcOk = true ∧ podFormatOk (podHdr b) b 31 = true ∧ d.epochOk 31 0 = true ∧ 32 < b.length ∧
      (d.path 31 0).granted ≤ (d.path 31 0).consumed) ∧
    (let b := podBytes 1 256 7 0 false 3094524305
     let d := (podState 1 id).dev
     podFormatOk (podHdr b) b 31 = true ∧ (d.path 31 0).consumed < (d.path 31 0).granted ∧ (podHdr b).length = 256 ∧
      slice b 32 256 = zeros 256 ∧ fieldAt b (32 + 256) 4 = 3094524305) ∧
    (let b := podBytes 15 0 7 0 false 0
     let d := (podState 1 fun x => { x with newest := some 4103 }).dev
     podFormatOk (podHdr b) b 31 = true ∧ (podHdr b).length = 0 ∧ (d.stream 31).tooOld (podHdr b).seq = true) ∧
    (let b := podBytes 1 256 7 9 false 3094524304
     let d := (podState 1 fun x => { x with closed := [9] }).dev
     podFormatOk (podHdr b) b 31 = true ∧ (podHdr b).length = 256 ∧ slice b 32 256 = zeros 256 ∧ fieldAt b (32 + 256) 4 = 3094524304 ∧
      (podHdr b).ty = 1 ∧ (d.stream 31).closed.contains (podHdr b).frame = true) ∧
    (let b := podBytes 15 0 7 0 false 0
     let d := (podState 1 fun x => { x with pods := [podRec 7 0 true] }).dev
     (d.stream 31).tooOld (podHdr b).seq = false ∧ (d.stream 31).pods.find? (·.seq == (podHdr b).seq) = some (podRec 7 0 true) ∧
      bondDual (d.bond 31) = false) ∧
    (let b := podBytes 1 256 7 0 false 3094524304
     let d := (podState 1 id).dev.wr (F.ingStrFrame_size 31) 0
     podFormatOk (podHdr b) b 31 = true ∧ (d.stream 31).pods.find? (·.seq == (podHdr b).seq) = none ∧ (podHdr b).ty = 1 ∧
      d.chunkOk 31 (podHdr b) = false) := by decide +kernel

/-- Frame record of FRAME 0 as PN `pn`. -/
def frameRec (pn : Nat) (take_ : Option Nat) (closed : Bool) : FrameRec :=
  ⟨0, pn, 0, 256, 0, 0, 0, 0, 0, 0, 0, false, false, false, false, false, false, false, closed, 0, 0, take_, 0, false, false, false, 0⟩

theorem witness_PodsAccepted_idle :
    (let b := podBytes 15 0 7 0 false 0
     let d := (podState 1 id).dev
     d.judgePod (arrival b) (podHdr b) = .accept ∧ (podHdr b).ty = 15 ∧ (podHdr b).length = 0 ∧ (arrival b).bytes.length = 32 ∧
      (d.stream 31).newest = none ∧ (d.stream 31).pods = []) := by decide +kernel

/-- The DATA Pod's state and bytes. -/
def dataState : Dev := (podState 1 fun x => { x with frames := [frameRec 0 none false] }).dev
def dataBytes : List Byte := podBytes 1 256 7 0 false 3094524304

theorem witness_PodsAccepted_data :
    dataState.judgePod (arrival dataBytes) (podHdr dataBytes) = .accept ∧ (podHdr dataBytes).ty = 1 ∧
      (arrival dataBytes).bytes.length = (podHdr dataBytes).length + 40 ∧ 256 ≤ (podHdr dataBytes).length ∧
      (dataState.openFrames 31).find? (·.frame == (podHdr dataBytes).frame) = some (frameRec 0 none false) := by
  refine ⟨?_, by decide +kernel⟩
  have h : slice dataBytes 32 256 = zeros 256 ∧ (podHdr dataBytes).crcOk = true ∧ dataBytes.length = 296 ∧ podFormatOk (podHdr dataBytes) dataBytes 31 = true ∧
      dataState.epochOk 31 0 = true ∧ (podHdr dataBytes).length = 256 ∧ podTrailer (podHdr dataBytes) dataBytes = 3094524304 ∧
      (dataState.stream 31).tooOld (podHdr dataBytes).seq = false ∧ ((podHdr dataBytes).isData && (dataState.stream 31).closed.contains (podHdr dataBytes).frame) = false ∧
      (dataState.stream 31).pods.find? (·.seq == (podHdr dataBytes).seq) = none ∧ dataState.chunkOk 31 (podHdr dataBytes) = true ∧
      (dataState.path 31 0).granted = 1 ∧ (dataState.path 31 0).consumed = 0 := by decide +kernel
  have k (b : Nat) : dataState.injected (Pg.ingStr 31) b = false := rfl
  obtain ⟨h1, h2, h3, h4, h5, h6, h7, h8, h9, h10, h11, h12, h13⟩ := h
  simp only [Dev.judgePod, arrival, h1, h2, h3, h4, h5, h6, h7, h8, h9, h10, h11, h12, h13, k, test_crc32c_zeros]
  decide

theorem witness_FramesAndCredits :
    (let d := (podState 1 fun x => { x with frames := [{ frameRec 5 none false with pixels := 1 }] }).dev
     d.frameOf 31 5 = some { frameRec 5 none false with pixels := 1 } ∧ d.canComplete 31 { frameRec 5 none false with pixels := 1 } = true) ∧
    (let d := ((podState 1 fun x => { x with frames := [frameRec 5 none false] }).dev.onPlat fun p => { p with tick := 4095 })
     d.frameOf 31 5 = some (frameRec 5 none false) ∧ (frameRec 5 none false).closed = false ∧
      d.rd (F.ingStrTime_timeout 31) ≤ d.since (frameRec 5 none false).firstTick ∧ d.unitAt (Pg.ingStr 31) ≠ .fenced) ∧
    (let d := (podState 1 fun x => { x with pods := [podRec 7 0 true] }).dev
     podRec 7 0 true ∈ (d.stream 31).pods ∧ (podRec 7 0 true).writing = true ∧ d.creditStopped 31 = false ∧ d.underPressure 31 = false ∧
      d.streamOn 31 = true ∧ 0 ∈ bondPaths (d.bond 31)) ∧
    (let d := ((podState 1 fun x => { x with pods := [podRec 7 0 true], b := { x.b with st := .active, single := 63 } }).dev.wr
        (F.ingStrBond_dual 31) 1).onPlat fun p => { p with tick := 255 }
     (d.stream 31).pods.find? (·.seq == 7) = some (podRec 7 0 true) ∧ (podRec 7 0 true).isOpen = true ∧
      d.rd (F.ingStrTime_pairWait 31) ≤ d.since 0 ∧ bondDual (d.bond 31) = true ∧ (d.path 31 (1 - 0)).st = .active ∧
      63 ≤ (d.path 31 (1 - 0)).single) := by decide

/-- A closed frame that a ring of no buffers lets go, and one that it does not. -/
theorem witness_FramesAndCredits_ring :
    (let d := (podState 1 fun x => { x with frames := [frameRec 5 none true] }).dev
     d.frameOf 31 5 = some (frameRec 5 none true) ∧ (frameRec 5 none true).closed = true ∧ (frameRec 5 none true).gone = false ∧
      d.rd (F.ingStrRing 31) = 0 ∧ (d.wr (F.ingStrRing 31) 1).rd (F.ingStrRing 31) ≠ 0) := by decide

/-- Session 31 in a state with events waiting, at tick 1. -/
def sesState (st : Nat) (es : List (Nat × SesEvent)) : State := mk fun d =>
  ((d.wr (F.ingSesStat_state 31) st).onSession 31 fun x => { x with events := es }).onPlat fun p => { p with tick := 1 }

theorem witness_SessionStates :
    ((sesState 0 []).dev.writesBlocked = false ∧ (sesState 0 []).dev.sesWillBe 31 = .off ∧ (sesState 0 []).dev.membersOn 31 = true) ∧
    (let d := (sesState 0 []).dev.wr (F.ingSesStreams 31) (2 ^ 31)
     d.sesWillBe 31 = .off ∧ d.membersOn 31 = false) ∧
    ((sesState 1 []).dev.sesWillBe 31 = .armed ∧ 2499 < 2500 ∧ (sesState 1 []).dev.sesWillBe 31 ≠ .run) ∧ (sesState 2 []).dev.sesWillBe 31 = .run ∧
    (sesState 3 []).dev.sesWillBe 31 = .stopping ∧ (sesState 2 []).dev.sesWillBe 31 ≠ .armed ∧
    (let d := ((sesState 1 []).dev.wr (F.ingSesStreams 31) (2 ^ 31)).onStream 31 fun x => { x with frames := [{ frameRec 5 none false with instant := 249 }] }
     d.sesWillBe 31 = .armed ∧ ∀ g ∈ d.members 31, ∀ f ∈ (d.stream g).frames, f.instant < 250 * d.now + 0 / 10 ∨ f.gone = true) ∧
    ((sesState 0 []).dev.rd F.motInChat_trg).testBit 3 = false ∧
    (let d := (sesState 0 []).dev.wr (F.ingSesCfg_trgEn 31) 8
     ∀ k ∈ List.range 32, ((d.rd (F.ingSesCfg_trgEn k)).testBit 3 = true ↔ k = 31)) ∧
    (let d := (sesState 0 [(1, .arm)]).dev
     (d.session 31).events = [(d.now, .arm)]) ∧
    (let d := (sesState 0 [(0, .arm)]).dev
     (d.session 31).events = [(0, .arm)] ∧ 0 ≠ d.now ∧ d.sesSt 31 = .off) ∧
    (let d := (sesState 1 [(0, .trigger 1 249 5 0)]).dev
     (d.session 31).events = [(0, .trigger 1 249 5 0)] ∧ 0 ≠ d.now ∧ d.sesSt 31 = .armed) ∧
    (let d := (sesState 1 [(0, .disarm)]).dev
     (d.session 31).events = [(0, .disarm)] ∧ 0 ≠ d.now ∧ d.sesSt 31 = .armed) ∧
    (let d := (sesState 2 [(0, .stop)]).dev
     (d.session 31).events = [(0, .stop)] ∧ 0 ≠ d.now ∧ d.sesSt 31 = .run) ∧
    (let d := (sesState 2 []).dev.wr (F.ingSesCfg_post 31) 1
     d.sesSt 31 = .run ∧ d.rd (F.ingSesCfg_post 31) ≠ 0 ∧ d.rd (F.ingSesCfg_post 31) ≤ d.since (d.session 31).trigAt) ∧
    ((sesState 3 []).dev.sesSt 31 = .stopping ∧ (sesState 3 []).dev.takeOpen 31 = false ∧ (sesState 3 []).dev.flag (F.ingSesCfg_rearm 31) = false ∧
      ((sesState 3 []).dev.wr (F.ingSesCfg_rearm 31) 1).flag (F.ingSesCfg_rearm 31) = true) ∧
    (∀ n ∈ List.range 32, (mk id).dev.flag (F.ingSesCfg_tcTrig n) = true → (mk id).dev.rd (F.ingSesTc n) ≠ 1) ∧
    (let d := (mk fun d => (d.wr F.ingTcStat_valid 1).onPlat fun p => { p with tick := 26667 }).dev
     d.flag F.ingTcStat_valid = true ∧ ltcTwoFrames (d.rd F.ingTcStat_rate) ≤ d.since d.ing.tcLast) := by decide

/-! ## The drain and its engines -/

/-- A closed take frame of stream 31 of one line, PN 5. -/
def takeFrame : FrameRec := { frameRec 5 (some 0) true with size := 64 }
/-- Stream 31 in session 0 of volume 0, the flash serving, with one frame. -/
def drainState (f : FrameRec) (js : List DrainJob) : State := mk fun d =>
  (((d.wr F.sflStat 2).wr (F.ingSesStreams 0) (2 ^ 31)).wr (F.sflVolCfg_idx 0) 1).onStream 31 (fun x => { x with frames := [f] }) |>.onIng fun i =>
    { i with drains := js }
def jobOf : DrainJob := ⟨31, 5, zeros 256, [], [], false, false, false, 0, false⟩

theorem witness_DrainSteps :
    (let d := (drainState takeFrame []).dev.wr (F.sflVolSize 0) 1
     d.flashReady = true ∧ firstFrom 32 d.ing.robin (fun k => d.mayDrain k) = some 31 ∧ d.nextTake 31 = some takeFrame ∧
      ((d.onIng fun i => { i with robin := (31 + 1) % 32 }).readFrame 31 takeFrame).1.length = 64 ∧
      (let m := ((d.onIng fun i => { i with robin := (31 + 1) % 32 }).readFrame 31 takeFrame).2.2.wr (F.ingStrCodec_codec 31) 1
       m.codecHollow 31 takeFrame [0] = true)) ∧
    (let d := (drainState takeFrame [jobOf]).dev
     d.flashReady = true ∧ d.ing.drains.find? (fun j => j.stream == 31 && j.pn == 5) = some jobOf ∧ d.frameOf 31 5 = some takeFrame ∧
      d.rd (F.sflVolSize (d.frameVol takeFrame)) * 4096 * 256 < d.appendAt (d.frameVol takeFrame) 0 + ceilDiv jobOf.stored.length 256) ∧
    (let d := (drainState takeFrame [jobOf]).dev.wr (F.sflVolSize 0) 1
     let v := d.frameVol takeFrame
     d.flashReady = true ∧ d.ing.drains.find? (fun j => j.stream == 31 && j.pn == 5) = some jobOf ∧ d.frameOf 31 5 = some takeFrame ∧
      Map.get 0 d.sfl.idxNext v < 512 * d.rd (F.sflVolCfg_idx v) ∧
      d.appendAt v 0 + ceilDiv jobOf.stored.length 256 ≤ d.rd (F.sflVolSize v) * 4096 * 256) ∧
    (let f := { takeFrame with drained := true }
     let d := (drainState f []).dev
     d.frameOf 31 5 = some f ∧ f.drained = true ∧ f.durable = false ∧ ∀ j ∈ d.sfl.jobs, j.why ≠ .capture 31 5) := by decide +kernel

theorem witness_EngineChecks :
    let d := (mk id).dev
    15 < 16 ∧ 7 < 8 ∧ 23 < 24 ∧ d.ingStaged = false ∧ (d.wr (F.pltFwReg_state 3) 1).ingStaged = true ∧
      d.injected Pg.ingProc Er.ingProc_engineFail = false ∧ d.injected Pg.parReg Er.parReg_engineFail = false ∧
      d.injected Pg.odrLdpc Er.odrLdpc_engineFail = false ∧ d.codecsOut.testBit 15 = false ∧ d.shasOut.testBit 7 = false ∧
      (d.cellsOut F.parEngFenced .stripe 16).testBit 15 = false ∧ (d.cellsOut F.ldpcFenced .ldpc 24).testBit 23 = false := by decide

/-! ## The central store -/

theorem witness_LineCheckCorrects : (zeros 64).length = 64 ∧ 71 < 72 ∧ 0 < 255 ∧ 255 < 256 := by decide

/-- Stack 3 ACTIVE and trained, its first granule's bit set where `v`. -/
def storeState (v : Bool) (f : Cst → Cst) : State := mk fun d =>
  (((d.setUnit (Pg.cstStk 3) .active).wr (F.cstStkTrain 3) 2).setGranuleValid (3 * 2 ^ 20) v).onCst f
/-- The last line of that granule. -/
def lastLine : Nat := 3 * 2 ^ 36 + 65535 - 63

theorem witness_StoreReads :
    (storeState true fun c => { c with filling := [⟨3 * 2 ^ 20, 0, 0⟩] }).dev.mustWait lastLine = true ∧
    ((mk id).dev.mustWait lastLine = false ∧ (mk id).dev.cst.merge.find? (·.line == lineNo lastLine) = none ∧
      (mk id).dev.stackUp (stackOf lastLine) = false) ∧
    ((storeState false id).dev.mustWait lastLine = false ∧ (storeState false id).dev.stackUp (stackOf lastLine) = true ∧
      (storeState false id).dev.unwritten lastLine = true) ∧
    (let d := (storeState true id).dev
     d.mustWait lastLine = false ∧ d.cst.merge.find? (·.line == lineNo lastLine) = none ∧ d.stackUp (stackOf lastLine) = true ∧
      d.unwritten lastLine = false ∧ d.plat.armed = [] ∧ (Map.get 0 d.cst.stale (granuleOf lastLine)).testBit (lineNo lastLine % 1024) = false) := by
  decide

theorem witness_StoreReads_good : (storeState true id).dev.injected Pg.cstReg Er.cstReg_gvbUe = false ∧
    ((storeState true id).dev.bufEnt (granuleOf lastLine)).retired = false ∧ (cleanRead lastLine).by_ = none ∧ (cleanRead lastLine).sram = .good ∧
    (⟨lastLine, [], 0, false, none, ⟨true, false, false⟩⟩ : LineRead).sram.bitmapUe = true ∧
    (⟨lastLine, [], 0, false, some ⟨0, 32, 1⟩, ⟨false, false, true⟩⟩ : LineRead).sram.tableUe = true := by decide

/-- A buffer-table entry that cannot be corrected: the buffer is retired, and the read by handle returns a Hollow zero line. -/
theorem test_table_ue :
    (match exec (.storeRead ⟨lastLine, [], 0, false, some ⟨mkHandle 5 7, 32, 1⟩, ⟨false, false, true⟩⟩) (storeState true id) with
     | .next t => decide ((t.dev.bufEnt 7).retired = true ∧ t.dev.out = [.line lastLine (zeros 64) true] ∧ t.dev.rd (F.bpmCnt 5) = 1)
     | _ => false) = true := by decide +kernel

/-- A stack at 85 °C refreshes at the double rate, and at 84 15/16 °C it does not (R106). -/
theorem test_stack_hot :
    (let e := (mk id).dev.stackReads 2 1360
     e.rd (F.cstStkStat_temp 2) = 85 ∧ e.flag (F.cstStkStat_ref2x 2) = true ∧ (e.stackReads 2 1359).flag (F.cstStkStat_ref2x 2) = false ∧
      (e.stackReads 2 (-16)).rd (F.cstStkStat_temp 2) = 255) := by decide +kernel

theorem witness_StoreReads_forms :
    (let r := readForms lastLine (zeros 64) false []
     r.noFit = false ∧ r.corrected = false) ∧
    (let r := readForms lastLine (zeros 64) false [(71, 255)]
     r.noFit = false ∧ r.corrected = true) ∧
    (readForms lastLine (zeros 64) false [(0, 1), (1, 2), (2, 3), (3, 4), (4, 5), (5, 6)]).noFit = true := by decide +kernel

/-- A write of the last line by nobody's handle. -/
def lineWrite (data : List Byte) (parity : Nat) : LineWrite := ⟨lastLine, data, false, 2, parity, none, .good⟩

theorem witness_StoreWrites :
    ((lineWrite (zeros 64) 2).sram = .good ∧ (lineWrite (zeros 64) 2).by_ = none ∧ (storeState false id).dev.plat.armed = []) ∧
    ((storeState false id).dev.mustWait lastLine = false ∧ (storeState false id).dev.stackUp (stackOf (lineNo lastLine * 64)) = true ∧
      (storeState false id).dev.granuleValid (granuleOf lastLine) = false ∧ (storeState false id).dev.zeroEnt (granuleOf lastLine) = none) ∧
    ((storeState true fun c => { c with merge := [⟨lineNo lastLine, [], false, 0⟩] }).dev.cst.merge.any (·.line == lineNo lastLine) = true) ∧
    ((storeState true fun c => { c with merge := (List.range 63).map fun k => ⟨k, [], false, 0⟩ }).dev.cst.merge.any (·.line == lineNo lastLine) = false ∧
      (storeState true fun c => { c with merge := (List.range 63).map fun k => ⟨k, [], false, 0⟩ }).dev.cst.merge.length < 64) ∧
    (let m : MergeEnt := ⟨lineNo lastLine, [(63, 5)], false, 0⟩
     let d (v : Bool) := (storeState v fun c => { c with merge := [m], hollow := [(lineNo lastLine, true)] }).dev
     (∀ v, (d v).cst.merge.find? (·.line == lineNo lastLine) = some m ∧ (d v).stackUp (stackOf (m.line * 64)) = true) ∧
      (d false).unwritten (m.line * 64) = true ∧ (d true).unwritten (m.line * 64) = false ∧ (d true).plat.armed = [] ∧
      (Map.get 0 (d true).cst.stale (granuleOf (m.line * 64))).testBit (m.line % 1024) = false ∧ (d true).lineHollow (m.line * 64) = true ∧
      (cleanRead lastLine).parity = 0 ∧ (cleanRead lastLine).errs = [] ∧ (cleanRead lastLine).odecc = false ∧ (cleanRead lastLine).sram = .good) := by
  decide +kernel

theorem witness_StoreUpkeep :
    (storeState true fun c => { c with waiting := [.read (cleanRead lastLine) false] }).dev.cst.waiting = [.read (cleanRead lastLine) false] ∧
    (storeState true fun c => { c with waiting := [.write (lineWrite [] 0)] }).dev.cst.waiting = [.write (lineWrite [] 0)] ∧
    granuleOf (cleanRead lastLine).addr = 3 * 2 ^ 20 ∧ granuleOf (lineWrite [] 0).addr = 3 * 2 ^ 20 ∧
    (let d := (storeState true fun c => { c with filling := [⟨3 * 2 ^ 20, 1, 0⟩] }).dev
     d.cst.waiting = [] ∧ d.cst.filling.filter (·.granule == 3 * 2 ^ 20) = [⟨3 * 2 ^ 20, 1, 0⟩] ∧ d.stackUp (stackOf (3 * 2 ^ 20 * 65536)) = true) ∧
    ((storeState true id).dev.wr F.cstScrubCtrl_en 0).flag F.cstScrubCtrl_en = false ∧
    (let d := (((storeState true id).dev.wr F.cstScrubCtrl_en 1).wr F.cstScrubCtrl_rate 1).wr F.cstScrubPtr (lineNo lastLine)
     d.flag F.cstScrubCtrl_en = true ∧ d.rd F.pltThermStat_level = 0 ∧ d.rd F.cstScrubCtrl_rate = 1 ∧
      d.stackUp (stackOf (d.rd F.cstScrubPtr * 64)) = true ∧ d.unwritten (d.rd F.cstScrubPtr * 64) = false ∧ d.rd F.cstScrubPtr + 1 < 2 ^ 32) ∧
    (∀ u ∈ [UnitSt.active, .off, .isolated],
      let d := ((storeState true id).dev.wr (F.cstStkTrain 3) 1).setUnit (Pg.cstStk 3) u
      d.rd (F.cstStkTrain 3) = 1 ∧ d.plat.armed = [] ∧ d.unitAt (Pg.cstStk 3) = u) ∧
    ((mk id).dev.wr (F.cstStkTrain 2) 1).rd (F.cstStkTrain 2) = 1 := by decide

/-- All stacks ACTIVE and trained, pool `p` of `o` of size `n`. -/
def poolState (o n : Nat) (f : Dev → Dev) : State := mk fun d =>
  f (((List.range 4).foldl (fun d k => (d.setUnit (Pg.cstStk k) .active).wr (F.cstStkTrain k) 2) d).wr (F.bpmPoolSize (d.ownerPool o)) n)

theorem witness_Grants :
    (let d := (poolState 32 1 fun d => d.wr (F.bpmOwnRsv 32) 1).dev
     d.bpm.fenced.contains 32 = false ∧ d.quotaAllows 32 3 = true ∧ (d.grantStack (d.ownerPool 32) 32).isSome = true ∧
      ((d.grantStack (d.ownerPool 32) 32).bind d.freeOn) = some 0 ∧ 0 < 2 ^ 22 ∧ d.rd (F.bpmOwnCfg_region 32) ≠ 15) ∧
    (let d := (poolState 32 0 fun d => d.wr (F.bpmOwnRsv 32) 0).dev
     d.bpm.fenced.contains 32 = false ∧ d.quotaAllows 32 3 = false ∧ d.rd (F.bpmOwnCfg_region 32) ≠ 15) ∧
    (let d := (mk fun d => (d.wr (F.bpmOwnRsv 32) 1).wr (F.bpmPoolSize (d.ownerPool 32)) 1).dev
     d.bpm.fenced.contains 32 = false ∧ d.quotaAllows 32 3 = true ∧ d.grantStack (d.ownerPool 32) 32 = none ∧ d.rd (F.bpmOwnCfg_region 32) ≠ 15) ∧
    portOf 0 < portOf 63 ∧ Map.get 0 (mk id).dev.bpm.ages (0 * 16 + portOf 0) = Map.get 0 (mk id).dev.bpm.ages (0 * 16 + portOf 63) := by
  decide +kernel

/-- A buffer of owner 32, generation 1023. -/
def bufOf (o : Nat) (shared : Bool) : BufEnt := ⟨1023, 0, 32, o, true, shared, false, false, false, false⟩
def bufState (b : BufEnt) (r : List (Nat × Share)) (fr : List (Nat × Nat)) : Dev :=
  ((mk id).dev.setBufEnt (Config.systemFirst - 1) b).onBpm fun x => { x with shares := r, freeing := fr }
def lastBuf : Nat := Config.systemFirst - 1

theorem witness_BufferOperations :
    lastBuf < Config.systemFirst ∧
    (let d := bufState (bufOf 32 false) [] []
     (d.bufEnt lastBuf).gen < 1024 ∧ (d.bufEnt lastBuf).alloc = true ∧ (d.bufEnt lastBuf).noOwner = false ∧ d.rd (F.bpmOwnCfg_region 32) ≠ 15 ∧
      d.plat.armed = [] ∧
      (d.bufEnt lastBuf).owner = 32 ∧ (d.bufEnt lastBuf).shared = false ∧ d.bpm.freeing.any (·.1 == lastBuf) = false ∧
      (d.bufEnt lastBuf).retired = false ∧ d.bpm.shares.length < 65536 ∧ maskCount (2 ^ 32 + 2 ^ 63) = 2 ∧ (2 ^ 32 + 2 ^ 63).testBit 32 = true ∧
      (2 ^ 32 + 2 ^ 63).testBit 63 = true ∧ 2 ^ 32 + 2 ^ 63 < 2 ^ 64 ∧ d.cst.waiting.any (fun w => w.granule == lastBuf && w.owner == some 32) = false ∧
      (let w : Waiter := .read { cleanRead (lastBuf * 65536) with by_ := some ⟨0, 32, 1⟩ } false
       (d.onCst fun c => { c with waiting := [w] }).cst.waiting.any (fun w => w.granule == lastBuf && w.owner == some 32) = true)) ∧
    (let d := bufState (bufOf 0 true) [(lastBuf, ⟨2 ^ 32 + 2 ^ 33, 0, 32, false⟩)] []
     (d.bufEnt lastBuf).shared = true ∧ Map.find d.bpm.shares lastBuf = some ⟨2 ^ 32 + 2 ^ 33, 0, 32, false⟩ ∧ (d.bufEnt lastBuf).defer = false ∧
      d.bpm.freeing.any (·.1 == lastBuf) = false ∧ setBit (setBit (2 ^ 32 + 2 ^ 33) 33 false) 32 false = 0 ∧ (2 ^ 32 + 2 ^ 33).testBit 33 = true ∧ 32 ≠ 33) ∧
    setBit (setBit (2 ^ 32 + 2 ^ 33 + 2 ^ 34) 33 false) 32 false ≠ 0 ∧
    (let d := bufState (bufOf 32 false) [] [(lastBuf, 0)]
     d.bpm.freeing.any (·.1 == lastBuf) = true ∧ d.cst.waiting = [] ∧ d.mc.stalled = [] ∧ d.mc.later = []) ∧
    (bufState (bufOf 33 false) [] []).bufEnt lastBuf = bufOf 33 false ∧ (bufOf 33 false).owner ≠ 32 ∧
    (bufState (bufOf 32 false) (List.replicate 65536 (0, ⟨0, 0, 0, false⟩)) []).bpm.shares.length = 65536 := by
  refine ⟨by decide +kernel, by decide +kernel, by decide +kernel, by decide +kernel, by decide +kernel, by decide +kernel, by decide +kernel, ?_⟩
  exact List.length_replicate ..

/-! ## The metadata cache -/

/-- The store of `storeState` with window 7 over its granule, in `policy`. -/
def cacheState (thru : Bool) (f : Mc → Mc) : Dev :=
  ((((storeState true id).dev.wr (F.seqMcWinCfg_en 7) 1).wr (F.seqMcWinCfg_policy 7) (b2n thru)).wr (F.seqMcWinBase 7) (3 * 2 ^ 20)).wr
    (F.seqMcWinLimit 7) (3 * 2 ^ 20) |>.onMc f
/-- A clean copy of the line of `lastLine`, held by agent 1. -/
def wayL : L2Way := ⟨lineNo lastLine, zeros 64, false, false, 3, 2⟩
/-- L2 with one line in way 15 of its set. -/
def inL2 (x : L2Way) (m : Mc) : Mc := { m with l2 := [(x.line % 32768, List.replicate 15 none ++ [some x])] }
def accOf (agent : Nat) (data : List Byte) : CacheAcc := ⟨agent, lastLine, data, 0, .none⟩
def victimL : Victim := ⟨lineNo lastLine, zeros 64, true, false, 0⟩
/-- A request of agent 9 that waits for a fill of another line. -/
def otherFill : FillReq := ⟨0, 9, false, 0, none, true, none⟩
def lineFill (k : Bool) : FillReq := ⟨lineNo lastLine, 9, false, 0, none, k, none⟩

theorem witness_CacheLoads :
    (accOf 9 []).fault = .none ∧ (accOf 9 []).agent < 10 ∧ (cacheState false id).plat.armed = [] ∧
    ((cacheState false fun m => { m with hold := [lineNo lastLine] }).mc.hold.contains (lineNo lastLine) = true) ∧
    ((mk id).dev.mc.hold.contains (lineNo lastLine) = false ∧ (mk id).dev.windowOf lastLine = none ∧ (mk id).dev.mc.busy 9 = false ∧
      ((mk id).dev.onMc fun m => { m with fills := [otherFill] }).mc.busy 9 = true) ∧
    (let d := cacheState false fun m => { m with uncached := true }
     d.windowOf lastLine = some 7 ∧ d.mc.uncached = true ∧ (cacheState false fun m => { m with retired := [(lineNo lastLine % 32768, 65535)] }).setDead
      (lineNo lastLine) = true) ∧
    (let d := cacheState false id
     d.mc.hold.contains (lineNo lastLine) = false ∧ d.windowOf lastLine = some 7 ∧ d.mc.uncached = false ∧ d.setDead (lineNo lastLine) = false ∧
      (d.l1Set 9 (lineNo lastLine)).length = 8 ∧ d.l2Get (lineNo lastLine) = none ∧ d.mc.stalled.any (·.line == lineNo lastLine) = false ∧
      (d.onMc fun m => { m with fills := [lineFill true] }).mc.waits (lineNo lastLine) = true ∧ d.mc.side = [] ∧ d.mc.victimOf (lineNo lastLine) = none) ∧
    (let d := cacheState false fun m => { inL2 wayL m with l1 := [(9 * 512 + lineNo lastLine % 512, some (lineNo lastLine) :: List.replicate 7 none)] }
     d.windowOf lastLine = some 7 ∧ d.l2Get (lineNo lastLine) = some wayL ∧ (d.l1Set 9 (lineNo lastLine)).length = 8 ∧
      d.l1Has 9 (lineNo lastLine) = true ∧ d.l1Has 0 (lineNo lastLine) = false) ∧
    (let d := cacheState false fun m => { m with side := [(lineNo lastLine, zeros 64, true)] }
     d.windowOf lastLine = some 7 ∧ d.l2Get (lineNo lastLine) = none ∧ d.mc.waits (lineNo lastLine) = false ∧ d.l1Has 9 (lineNo lastLine) = false ∧
      d.mc.side.find? (·.1 == lineNo lastLine) = some (lineNo lastLine, zeros 64, true)) ∧
    (let d := cacheState false fun m => { m with victims := [victimL] }
     d.windowOf lastLine = some 7 ∧ d.l2Get (lineNo lastLine) = none ∧ d.mc.waits (lineNo lastLine) = false ∧ d.mc.side = [] ∧ d.mc.victimOf (lineNo lastLine) = some victimL) ∧
    (let d := (cacheState false id).wr (F.seqMcWinCfg_pfDepth 7) 1
     d.rd (F.seqMcWinCfg_pfDepth 7) = 1 ∧ d.mc.prefetch = [] ∧ d.mc.victims = [] ∧ d.mc.side = [] ∧
      d.windowOf ((lineNo (lastLine - 64) + 1) * 64) = some 7 ∧
      d.l2Get (lineNo (lastLine - 64) + 1) = none) := by decide +kernel

theorem witness_CacheStores :
    (∀ n ∈ [0, 64], (accOf 9 (zeros n)).data.length + (accOf 9 (zeros n)).addr % 64 ≤ 64) ∧
    (let d := cacheState false fun m => { m with hold := [lineNo lastLine] }
     d.mc.hold.contains (lineNo lastLine) = true ∧ d.windowOf lastLine = some 7 ∧ d.mc.uncached = false ∧ d.setDead (lineNo lastLine) = false) ∧
    ((mk fun d => d.onMc fun m => { m with hold := [lineNo lastLine] }).dev.windowOf lastLine = none ∧
      (mk fun d => d.onMc fun m => { m with hold := [lineNo lastLine] }).dev.mc.busy 9 = false) ∧
    ((mk id).dev.windowOf lastLine = none ∧ (mk id).dev.mc.hold.contains (lineNo lastLine) = false ∧ (mk id).dev.mc.busy 9 = false ∧
      ((mk id).dev.onMc fun m => { m with fills := [otherFill] }).mc.busy 9 = true) ∧
    (∀ thru, (cacheState thru (inL2 wayL)).windowOf lastLine = some 7 ∧ (cacheState thru (inL2 wayL)).l2Get (lineNo lastLine) = some wayL ∧
      (cacheState thru (inL2 wayL)).mc.waits (lineNo lastLine) = false) ∧
    (let d := cacheState false id
     d.mc.hold.contains (lineNo lastLine) = false ∧ d.windowOf lastLine = some 7 ∧ d.mc.uncached = false ∧ d.setDead (lineNo lastLine) = false ∧ d.mc.side = [] ∧
      d.mc.waits (lineNo lastLine) = false ∧ d.mc.stalled = [] ∧ d.mc.later = [] ∧ d.l2Get (lineNo lastLine) = none ∧ d.mc.victims = [] ∧ (!d.flag (F.seqMcWinCfg_policy 7)) = true ∧
      d.flag (F.seqMcWinStat_tripped 7) = false ∧ (d.l2Set (lineNo lastLine)).length = 16 ∧ (d.l2Set (lineNo lastLine)).getD 0 none = none ∧
      (Map.get 0 d.mc.retired (lineNo lastLine % 32768)).testBit 0 = false) ∧
    (let d := (cacheState false fun m => { m with seqCount := [(7, 15)], lastLine := [(7, lineNo lastLine - 1)] }).wr (F.seqMcWinCfg_seqLimit 7) 16
     0 < Map.get 0 d.mc.seqCount 7 ∧ Map.get 0 d.mc.lastLine 7 + 1 = lineNo lastLine ∧ Map.get 0 d.mc.seqCount 7 + 1 = d.rd (F.seqMcWinCfg_seqLimit 7)) ∧
    (let d := ((cacheState false fun m => { m with seqCount := [(7, 1)], lastLine := [(7, lineNo lastLine - 1)] }).wr (F.seqMcWinCfg_seqLimit 7) 1).wr
        (F.seqMcWinStat_tripped 7) 1
     d.windowOf lastLine = some 7 ∧ d.flag (F.seqMcWinStat_tripped 7) = true ∧ 1 < Map.get 0 d.mc.seqCount 7 + 1 ∧
      d.rd (F.seqMcWinCfg_seqLimit 7) ≠ 0 ∧ d.l2Get (lineNo lastLine) = none ∧ d.mc.victims = [] ∧ d.mc.side = [] ∧ d.mc.busy 9 = false ∧
      d.stackUp (stackOf (lineNo lastLine * 64)) = true) ∧
    (let d := cacheState true fun m => { m with merging := (List.range 31).map fun k => ⟨k, [], false, 0⟩ }
     d.windowOf lastLine = some 7 ∧ d.l2Get (lineNo lastLine) = none ∧ d.mc.victimOf (lineNo lastLine) = none ∧ (!d.flag (F.seqMcWinCfg_policy 7)) = false ∧
      d.mc.merging.any (·.line == lineNo lastLine) = false ∧ d.mc.merging.length < 32 ∧ wholeLine (storeBytesOf lastLine (zeros 63)) = false) := by
  decide +kernel

theorem witness_CacheTraffic :
    (let f := lineFill
     ∀ k, let d := cacheState false fun m => { m with fills := [f k] }
      d.plat.armed = [] ∧ d.mc.stalled = [] ∧ d.mc.later = [] ∧
        d.mc.fills = [f k] ∧ (f k).line = lineNo (cleanRead lastLine).addr ∧ (f k).store = none ∧ d.l2Get (lineNo lastLine) = none ∧ d.mc.victims = [] ∧
        d.mc.merging = [] ∧ (f k).agent < 10 ∧ (f k).keep = k ∧ d.mc.uncached = false ∧ (d.l2Set (lineNo lastLine)).length = 16 ∧
        (d.l2Set (lineNo lastLine)).getD 0 none = none ∧ (Map.get 0 d.mc.retired (lineNo lastLine % 32768)).testBit 0 = false) ∧
    (let d := cacheState false fun m => { m with prefetch := [(lineNo lastLine, true)], side := List.replicate 63 (0, [], false) }
     d.mc.prefetch = [(lineNo lastLine, true)] ∧ d.mc.uncached = false ∧ d.l2Get (lineNo lastLine) = none ∧ d.mc.merging = [] ∧ d.mc.side.length < 64) ∧
    (let d := cacheState false fun m => { m with victims := [victimL], awaited := [(8, lineNo lastLine)] }
     d.mc.victims = [victimL] ∧ d.mc.fills = [] ∧ d.stackUp (stackOf (victimL.line * 64)) = true ∧ lineNo lastLine = victimL.line ∧
      d.mc.awaited = [(8, victimL.line)]) ∧
    (let m : WtEnt := ⟨lineNo lastLine, storeBytesOf 0 (zeros 64), false, 0⟩
     let d := cacheState true fun x => { x with merging := [m] }
     d.mc.merging = [m] ∧ (m.bytes.map (·.1)).eraseDups.length = 64 ∧ d.stackUp (stackOf (m.line * 64)) = true ∧ lineNo lastLine = m.line) ∧
    (let wr : LineWrite := ⟨lastLine, zeros 64, false, 0, 0, none, .good⟩
     wr.by_ = none ∧ wr.sram = .good ∧ ((cacheState false (inL2 wayL)).windowOf wr.addr).isSome = true ∧ wr.data.length + wr.addr % 64 ≤ 64 ∧
      (cacheState false (inL2 wayL)).l2Get (lineNo wr.addr) = some wayL) := by decide +kernel

theorem witness_CacheMaintenance :
    ((cacheState false id).wr F.seqMcMaintStat_busy 1).flag F.seqMcMaintStat_busy = true ∧ 1048576 < 1048577 ∧
    (cacheState false id).writesBlocked = false ∧ (cacheState false id).flag F.seqMcMaintStat_busy = false ∧ 0 < 1048576 ∧
    (let x := { wayL with dirty := true }
     let d := cacheState false (inL2 x)
     d.mc.lines.filter (fun y => y.dirty && inRange (lineNo lastLine) 1 y.line) = [x] ∧ d.l2Get x.line = some x ∧ d.plat.armed = [] ∧ d.mc.fills = [] ∧
      d.mc.stalled = [] ∧ d.mc.later = [] ∧ d.mc.victims = [] ∧
      d.mc.merging = [] ∧ d.stackUp (stackOf (x.line * 64)) = true) := by decide +kernel

/-! ## Flash and parity -/

/-- Set 7 of channels 28 to 31: CE 7 of each READY with 8 LUNs of one block, of type 3; the flash serves. -/
def flashState (f : Sfl → Sfl) : Dev :=
  ((List.range 4).foldl (fun d i => ((((d.setUnit (Pg.sflFc (28 + i)) .active).wr (F.sflFcStat_train (28 + i)) 2).wr
      (F.sflFcCe_state (28 + i) 7) 2).wr (F.sflFcCe_luns (28 + i) 7) 8).wr (F.sflFcCe_type (28 + i) 7) 3)
    (((((mk id).dev.wr F.sflStat 2).wr (F.parSetMem 7) 0xF0000000).wr (F.parSetCfg_en 7) 1).wr (F.sflDieGeom_units 3) 4095 |>.wr
      (F.sflDieGeom_blocks 3) 0)) |>.onSfl f
/-- Its last row, a unit of that row on channel 31, and their tag. -/
def rowL : Nat := mkRow 7 7 7 0
def puaL : Nat := mkPua 31 7 7 0 4095
def unitL (row : Nat) : FUnit := ⟨⟨1, 0, 0, 0, 0, 0, 5, 0, 0, 0, 0, 0, row, 0⟩, []⟩
def rowIn (st : RowSt) (valid : Nat) : Nat × RowEnt := (rowL, { RowEnt.reset with st := st, valid := valid })
/-- GLU 5 mapped to that unit. -/
def mapped (m : Sfl) : Sfl := { m with units := [(puaL, unitL rowL)], map := [(5, 2 ^ 61 + puaL)] }
def progL : Prog := ⟨puaL, unitL rowL, .pad⟩
def programming (m : Sfl) : Sfl := { m with progs := [progL], stripes := [⟨rowL, 4095, 9, 0, 15, 0, 0, false, false, []⟩] }

theorem witness_ChannelsTrain :
    let d := (flashState id).wr (F.sflFcStat_train 31) 1
    let p : CeProbe := ⟨7, d.rd (F.sflDieId0 0) + d.rd (F.sflDieId1 0) * 2 ^ 32, d.rd (F.sflDieGeom_page 0), d.rd (F.sflDieGeom_luns 0) + 1,
      d.rd (F.sflDieGeom_units 0) + 1, d.rd (F.sflDieGeom_blocks 0) + 1, []⟩
    let e := (mk fun d => ((d.setUnit (Pg.sflFc 31) .active).wr (F.sflFcStat_train 31) 1).wr (F.sflFcCfg_ceEn 31) 0x80).dev
    (e.rd (F.sflFcStat_train 31) = 1 ∧ e.plat.armed = [] ∧ e.unitAt (Pg.sflFc 31) = .active ∧ p.ce < 8 ∧
      (e.rd (F.sflFcCfg_ceEn 31)).testBit p.ce = true ∧ e.matchDie p = some 0 ∧ (∀ k ∈ List.range 32, ∀ c ∈ List.range 8, e.ceReady k c = false) ∧
      p.luns < 16 ∧ p.luns * p.blocks * p.units ≤ 2 ^ 34 ∧ e.matchDie { p with luns := p.luns + 8 } = none) ∧
    (let d := (flashState id).onPlat fun p => { p with tick := 40000 }
     d.chRuns 31 = true ∧ 40000 ≤ d.since (Map.get 0 d.sfl.zqTick 31)) ∧
    (let d := (flashState id).wr (F.sflDieFeat_tempFeat 3) 0xE7
     d.chRuns 31 = true ∧ d.ceReady 31 7 = true ∧ 7 < d.lunsOf 31 7 ∧ d.rd (F.sflDieFeat_tempFeat (d.dieOf 31 7)) ≠ 0 ∧
      Map.find d.sfl.tempTick (lunKey 31 7 7) = none ∧
      (let e := (d.onSfl fun x => { x with tempTick := [(lunKey 31 7 7, 0)] }).onPlat fun p => { p with tick := 3999 }
       Map.find e.sfl.tempTick (lunKey 31 7 7) = some 0 ∧ e.since 0 < 4000 ∧ 4000 ≤ (e.onPlat fun p => { p with tick := 4000 }).since 0)) ∧
    (∀ u ∈ [UnitSt.off, .isolated], (d.setUnit (Pg.sflFc 31) u).unitAt (Pg.sflFc 31) = u) := by decide +kernel

theorem witness_FlashOperations :
    (let d := flashState programming
     d.plat.armed = [] ∧ d.chTrains (puaCh puaL) = false ∧ d.sfl.progs.find? (fun y => y.pua == puaL) = some progL ∧ d.mayStart puaL = true ∧
      d.chServes (puaLunKey puaL) (d.progOp progL) = true ∧ d.plat.tp = none ∧ (d.onPlat fun p => { p with tp := some 0 }).pastTp 0 = true) ∧
    (let d := flashState fun m => { m with rows := [rowIn .erasing 0] }
     (d.rowEnt rowL).st = .erasing ∧ d.plat.tp = none ∧ (d.positions rowL).any d.chTrains = false ∧ Map.get 0 d.sfl.eraseBad rowL = 0) ∧
    (let r : FRead := ⟨puaL, .job 0⟩
     let d := (flashState fun m => { m with units := [(puaL, unitL rowL)], reads := [r] }).wr (F.sflDieFeat_retry 3) 1
     d.sfl.reads = [r] ∧ r.pua = puaL ∧ r.why = .job 0 ∧ d.chServes (puaLunKey puaL) (d.readOp r) = true ∧
      d.lunAvail (puaCh puaL) (puaCe puaL) (puaLun puaL) = true ∧ Map.find d.sfl.units puaL = some (unitL rowL) ∧ d.rowOfPua puaL = some rowL ∧
      d.posLost rowL (puaCh puaL) = false ∧ d.rd (F.sflDieFeat_retry (d.dieOf (puaCh puaL) (puaCe puaL))) ≠ 0 ∧ d.sfl.progs = [] ∧
      d.plat.tp = none) := by decide +kernel

/-- Page 4095 in the last of its eight slots. -/
def pageIn (x : MSlot) (m : Sfl) : Sfl := { m with mctt := [(32767, { x with page := 4095 })] }

theorem witness_MapAndJournal :
    (∀ b, let d := flashState (pageIn { MSlot.reset with loading := true, got := some b })
      d.slotOfPage 4095 = some 32767 ∧ (d.mslot 32767).loading = true ∧ (d.mslot 32767).got = some b) ∧
    (let d := ((flashState (pageIn { MSlot.reset with valid := true, dirty := true })).wr F.sflMapCfg 9).onPlat fun p => { p with tick := 9 }
     d.slotOfPage 4095 = some 32767 ∧ d.flashReady = true ∧ (d.mslot 32767).valid = true ∧ (d.mslot 32767).dirty = true ∧
      (d.mslot 32767).writing = false ∧ d.rd F.sflMapCfg ≤ d.since (d.mslot 32767).since) ∧
    (let x : JEnt := ⟨10, 0, 1, 0, 0, 0⟩
     let d := ((flashState fun m => { m with jbuf := [x] }).onMram fun m => { m with ringHead := ringSize - 2 }).wr F.sflJrnCfg 0
     d.flashRuns = true ∧ d.rd F.sflJrnCfg ≤ d.since d.sfl.lastFlush ∧ d.sfl.rows = [] ∧ d.sfl.jbuf = [x] ∧
      d.sfl.jbuf.length + d.ringUsed ≤ ringSize) ∧
    (let d := (flashState id).onMram fun m => { m with ringHead := 5, ringTail := 5 + ringSize / 2 }
     ringSize / 2 ≤ d.ringUsed ∧ d.sfl.ckpt = none ∧ d.flashRuns = true) ∧
    (let c : Ckpt := ⟨1, 0, (List.range 513).map fun i => (i, 0), true, 0, []⟩
     let d := flashState fun m => { m with ckpt := some c }
     d.sfl.ckpt = some c ∧ d.ckptWhole c = true ∧ d.rd F.sflStat = 2) ∧
    (let d := ((flashState id).wr F.sflTime (2 ^ 32 - 2)).onPlat fun p => { p with tick := 400000 }
     400000 ≤ d.since d.sfl.timeTick ∧ d.rd F.sflTime + 1 < 2 ^ 32) := by decide +kernel

theorem witness_FlashUpkeep :
    (let d := flashState fun m => { m with rows := [rowIn .closed 0], refresh := [rowL] }
     d.flashReady = true ∧ d.setOn 7 = true ∧ d.gcSource 7 = none ∧ d.gcPick 7 = some rowL) ∧
    (let d := flashState fun m => mapped { m with rows := [rowIn .source 1] }
     d.flashReady = true ∧ d.gcIdle 7 = false ∧ d.gcSource 7 = some rowL ∧ d.nextMapped rowL = some (puaL, unitL rowL)) ∧
    (let d := flashState fun m => { m with rows := [rowIn .source 0] }
     d.flashReady = true ∧ d.mayErase rowL = true ∧ (flashState fun m => { m with rows := [rowIn .closed 0] }).mayErase rowL = false) ∧
    (let x : JEnt := ⟨1, 0, 1, 5, 0, 0⟩
     let d := (mk fun d => (d.wr F.sflStat 1).onMram fun m => { m with ring := [(0, x)], ringHead := 1 }).dev
     d.rd F.sflStat = 1 ∧ d.sfl.ckpt = none ∧ d.setsTrain = false ∧ d.sysSet = none ∧ 2 ^ 32 - 1 < 2 ^ 32 ∧ d.ringEntries [] = [x] ∧ x.ty = 1 ∧
      d.mram.roots = [] ∧ d.sfl.dir = [] ∧ d.sfl.lostPages = [] ∧ d.sfl.rows = [] ∧ d.par.slots = []) ∧
    (mk id).dev.plat.pfPin = false ∧
    (let d := (flashState programming).onPlat fun p => { p with tp := some 0, tick := 8 }
     d.pastTp 8 = true ∧ d.plat.quiet = false ∧ d.sfl.progs = [progL] ∧ [puaL].contains progL.pua = true ∧ d.mayStart progL.pua = true ∧
      d.lostFence 6 = false ∧ d.sfl.rows = [] ∧ d.sfl.jbuf.length + d.ringUsed ≤ ringSize) := by decide +kernel

/-- A RUN slot with flags and the counts of R223. -/
def runOf (flags a9 p q n : Nat) : Slot := ⟨6, 0, 3, 7, 0, 0, [0x0F, w8 flags] ++ zeros 18 ++ leBytes 2 a9 ++ leBytes 2 p ++ leBytes 2 q ++ leBytes 2 n⟩
def shadowL (n : Nat) : Shadow := ⟨31, [puaL / 4096, puaL / 4096], [[], List.replicate n ⟨0, 0, []⟩], 1, [(5, Slot.free)], 0⟩

def shadowState : Dev := ((((flashState id).onPar fun p => { p with shadow := some (shadowL 4095) }).wr F.parSjStat_bankA 1).wr F.parSjCfg_shadowInt 3).onPlat
  fun p => { p with tick := 3 }
theorem witness_shadowState : shadowState.par.shadow = some (shadowL 4095) ∧ ((shadowL 4095).blocks.getD (shadowL 4095).current []).length = 4095 :=
  ⟨rfl, List.length_replicate ..⟩
theorem witness_ShadowProgram : shadowState.sfl.frozen = false ∧ shadowState.shadowCan (shadowL 4095).ch = true ∧ shadowState.bankOk 0 = true ∧
    shadowState.rd F.parSjCfg_shadowInt ≤ shadowState.since (shadowL 4095).last ∧ 4095 < shadowState.shadowUnits (shadowL 4095) ∧
    shadowState.shadowUnits (shadowL 4096) ≤ 4096 := by decide +kernel

theorem witness_ParityCommands :
    (let d := (((flashState id).onPar fun p => { p with pending := [(16383, Slot.free)] }).wr F.parSjStat_bankA 1).wr F.parSjStat_bankB 1
     d.plat.armed = [] ∧ d.par.pending = [(16383, Slot.free)] ∧ d.bankOk 0 = true ∧ d.bankOk 1 = true ∧
      (d.onPlat fun p => { p with tp := some 0, tick := 20 }).pastTp 20 = true ∧ d.plat.sjDone = false ∧ d.lostFence 7 = false) ∧
    (let x : Stripe := ⟨rowL, 4095, 9, 0, 1, 1, 0, false, false, []⟩
     let d := ((flashState fun m => { m with stripes := [x] }).wr (F.parSetCfg_fillWait 7) 4).onPlat fun p => { p with tick := 4 }
     d.stripeOf rowL 4095 = some x ∧ d.flashReady = true ∧ d.rd (F.parSetCfg_fillWait (rowSet rowL)) ≤ d.since x.tick) ∧
    (let d := ((flashState fun m => mapped { m with rows := [rowIn .closed 1], lostLuns := [(lunKey 28 7 7, 0)] }).wr (F.parSetRate_rebuild 7) 1).onPlat
        fun p => { p with tick := 256 }
     d.movesHeld = false ∧ d.flashReady = true ∧ d.setOn 7 = true ∧ d.classServed 3 = true ∧
      (d.staleRows 7).find? (fun r => decide ((d.rowEnt r).st = .closed) || decide ((d.rowEnt r).st = .source)) = some rowL ∧
      256 ≤ d.since (Map.get (0, 0, 0) d.par.moved 7).1 ∧ 0 < d.rd (F.parSetRate_rebuild 7) ∧
      (let m := (((((d.rateOk 7 (d.rd (F.parSetRate_rebuild 7)) false).2.sourceRow rowL).onSfl fun x => { x with refresh := x.refresh.filter (· != rowL) }).wr
        (F.parSetCur 7) rowL).wrB (F.parSetStat_rebuild 7) true |>.onPar fun p => { p with cur := Map.put p.cur 7 rowL }) |>.rebuildSlot 7 rowL
       m.nextMapped rowL = some (puaL, unitL rowL) ∧ (m.posLost rowL (puaCh puaL) || ([] : List Nat).contains puaL) = false)) ∧
    (flashState id).staleRows 7 = [] ∧
    (let d := (((flashState fun m => { m with rows := [rowIn .closed 1] }).onPar fun p => { p with shapes := [(7, 0)] }).wr
        (F.parSetRate_reshape 7) 1).onPlat fun p => { p with tick := 256 }
     Map.find d.par.shapes 7 = some 0 ∧ d.liveRows 7 = [rowIn .closed 1] ∧ 0 < d.rd (F.parSetRate_reshape 7)) ∧
    (let t := runOf 0 5 0 0 5
     let r : RecRow := ⟨0, 3, 9, 12, [], 0, .test 0, .test 0, 0, false, none, 0, 0, 0⟩
     let d := ((flashState id).onPar fun p => { p with slots := [(7, t)] }).onOdr fun o => { o with recs := [r] }
     d.runAt 15 = some (7, t) ∧ t.recompute = false ∧ d.par.adds = [] ∧ 5 = t.added 9 ∧ d.odr.recs = [r] ∧ r.cat = t.runCat ∧ r.disc = 9 ∧
      r.brow = t.stripe + 5 ∧ r.staged = false ∧ r.add = none) ∧
    (let t := runOf 1 0 0 0 0
     let d := (flashState id).onPar fun p => { p with slots := [(7, t)] }
     d.runAt 15 = some (7, t) ∧ t.recompute = true ∧ t.counted = [] ∧ d.odr.gathered = []) ∧
    (let t := runOf 0 0 16384 16384 16384
     let d := (flashState id).onPar fun p => { p with slots := [(7, t)] }
     d.runAt 15 = some (7, t) ∧ d.runCovered t = true ∧
      Map.window d.sfl.map (d.stagedGlu 15 0 0 0) (131072 + d.stagedGlu 15 0 0 0) = []) := by decide +kernel

/-! ## The loader and the drives -/

/-- A factory information block's zones: 32 layers of 16 zones of 65,536 band-rows and 1,311 spare slots. -/
def zonesL : List ZoneEnt := ((List.range 32).map fun _ => (List.range 16).map fun z => ⟨39 * z, 0, 1, 65535, 65536, 1311⟩).flatten
theorem witness_zonesOk : zonesOk zonesL = true := by decide +kernel
/-- An identity block of Shell 5. -/
def dibL : List Byte :=
  let b := leBytes 4 0xD1B00032 ++ leBytes 8 5 ++ zeros 48
  b ++ leBytes 4 (crc32c b)
def leadIn (fib : Bool) (dibs : List (Nat × List Byte)) : LeadIn := ⟨fib, false, zonesL, [], [], dibs, [], 0, true⟩
/-- Drive 3 identifying disc 11 of a Shell, with a pending record of Shell 5. -/
def idState (f : Loader → Loader) : Dev :=
  ((((mk id).dev.wr (F.drvStat_state 3) 2).wr (F.drvStat_disc 3) 11).wr (F.drvShell 3) 65535).onMram (fun m =>
    { m with pend := [(3, ⟨5, 11, 2 ^ 25 - 1, []⟩)] }) |>.onLdr f

theorem witness_dib : dibOk dibL = true ∧ fieldAt dibL 4 8 = 5 := by decide +kernel

theorem witness_DiscIdentified :
    (let d := idState id
     d.drvState 3 = 2 ∧ d.plat.armed = [] ∧ (leadIn false []).fibOk = false ∧ d.ad8 3 = false ∧ (d.wr (F.drvCtrl_jdmCompat 3) 1).ad8 3 = true ∧
      (leadIn true []).ad8 = false ∧ d.ldr.mount = none ∧ d.expectedShell 3 = (65535, 5) ∧ (d.pendRec 3).shell = 5 ∧
      (d.pendRec 3).disc = d.rd (F.drvStat_disc 3) ∧ (leadIn true [(0, dibL)]).belowOk = true ∧
      max (max (readDdl false 1 (leadIn true []).ddl).2.1 (max ((d.catEnt 65535).nwbs.getD 11 0) (d.pendRec 3).nwb)) 0 < 2 ^ 25) ∧
    ((idState id).wrB F.ldrBay_valid true).expectedShell 3 = (65535, 0) ∧
    (let m : ShellMove := ⟨0, some 7, 0⟩
     let d := (idState fun l => { l with mount := some m }).onOdr fun o => { o with cat := [(7, { CatEnt.empty with shell := 5 })] }
     d.ldr.mount = some m ∧ m.cat = some 7 ∧ (d.catEnt 7).shell = 5) := by decide +kernel

/-- A blank-format disc of Shell 5 with one zone of one band-row and one spare slot. -/
def discL : DiscSt := ⟨false, [⟨0, 0, 1, 65535, 1, 1⟩], [], [], 0, some 0, 5, [], [], false⟩
/-- Drive 3 with that disc, in a state, under `f`. -/
def driveState (st : Nat) (f : Drive → Drive) : Dev :=
  (((mk fun d => (d.setUnit (Pg.odrDrv 3) .active).wr (F.drvStat_state 3) st).dev.wr (F.drvStat_disc 3) 11).onDrive 3 fun v =>
    f { v with disc := some discL })
def ldrState (f : Loader → Loader) : Dev := (mk fun d => d.onLdr f).dev

theorem witness_LoaderCommands :
    (let d := (driveState 4 id).onMram fun m => { m with pend := [(3, ⟨5, 11, 0, [⟨2, false, 0, 0, 0, 0, 0, 0⟩]⟩)] }
     d.drvState 3 = 4 ∧ d.driveBusy 3 = false ∧ (d.drive 3).disc = some discL ∧ discL.shell ≠ 0 ∧ (d.pendRec 3).ents ≠ [] ∧
      discL.rdonly.contains 0 = false ∧ { discL with rdonly := [0] }.rdonly.contains 0 = true ∧ d.rd (F.drvStat_disc 3) < 12 ∧ (d.ldr.cur.toList ++ d.ldr.ops).contains (.toDisc 3 (d.rd (F.drvStat_disc 3))) = false) ∧
    (((mk id).dev.wr F.ldrStat 1).writesBlocked = false ∧ ((mk id).dev.wr F.ldrStat 1).rd F.ldrStat ≠ 0) ∧
    (let d := ((mk id).dev.wr F.ldrCfg_slots 1)
     d.writesBlocked = false ∧ d.rd F.ldrStat = 0 ∧ d.ldr.cur = none ∧ d.ldr.ops = [] ∧ d.loaderFenced = false ∧ 0 < d.rd F.ldrCfg_slots) ∧
    (let d := (ldrState fun l => { l with cur := some .home, homing := true, axes := [5], step := 2 }).wr (F.stStat_homed 5) 1
     d.ldr.cur = some .home ∧ d.ldr.homing = true ∧ d.ldr.axes = [5] ∧ d.ldr.step = 2 ∧ (d.axis 5).st = 0 ∧ d.flag (F.stStat_homed 5) = true) ∧
    (let d := ldrState fun l => { l with cur := some (.toBay 63), step := 0 }
     d.ldr.cur = some (.toBay 63) ∧ d.ldr.homing = false ∧ d.ldrStepOver (.toBay 63) = true ∧ d.ldrCloses (.toBay 63) = false ∧
      ((d.ldrSteps (.toBay 63))[d.ldr.step + 1]?).isSome = true) ∧
    (let d := ldrState fun l => { l with cur := some (.toBay 63), step := 9, found := 1 }
     d.ldr.cur = some (.toBay 63) ∧ d.ldr.homing = false ∧ d.ldrStepOver (.toBay 63) = true ∧ d.ldr.step = 9 ∧ d.ldr.found = 1) ∧
    (let d := ((ldrState fun l => { l with cur := some .count }).wr F.motLdrTmo 1).onPlat fun p => { p with tick := 401 }
     d.ldr.cur ≠ none ∧ d.rd F.motLdrTmo * 400 < d.since d.ldr.stepAt) := by decide

/-- Drive 3 with its head link up. -/
def headState (f : Drive → Drive) : Dev := (List.range 4).foldl (fun d i => d.wr (F.hlLaneStat_state 3 i) 4) ((mk id).dev.onDrive 3 f)
/-- A frame of 64 or 16 payload bytes, with its CRC. -/
def frameL (ty : Nat) (payload : List Byte) : List Byte := headFrame ty 31 0 payload
def statusL : List Byte := leBytes 2 0xABCD ++ leBytes 1 7 ++ leBytes 1 2 ++ zeros 12
/-- A SAMPLE frame of beam 17 with code 63, of zeros. -/
def sampleHead : List Byte := leBytes 2 (1 * 4096 + 17 * 128 + 63) ++ leBytes 2 512 ++ leBytes 4 0
def sampleL : List Byte := sampleHead ++ zeros 512 ++ leBytes 4 2499247711
def beamL (expect : Option Nat) : Beam := { Beam.reset with expect := expect, code := 63, sent := 63, locked := false, fgain := 1290 }

theorem crcFrom_sample :
    crcFrom 4294967295 sampleHead = 3566628431 ∧
    crcFrom 3566628431 (zeros 32) = 2239884672 ∧ crcFrom 2239884672 (zeros 32) = 2674005547 ∧
    crcFrom 2674005547 (zeros 32) = 473497933 ∧ crcFrom 473497933 (zeros 32) = 1673645769 ∧
    crcFrom 1673645769 (zeros 32) = 370745790 ∧ crcFrom 370745790 (zeros 32) = 1851911256 ∧
    crcFrom 1851911256 (zeros 32) = 1450687864 ∧ crcFrom 1450687864 (zeros 32) = 220149506 ∧
    crcFrom 220149506 (zeros 32) = 3193280119 ∧ crcFrom 3193280119 (zeros 32) = 3942602671 ∧
    crcFrom 3942602671 (zeros 32) = 4069605564 ∧ crcFrom 4069605564 (zeros 32) = 1630882350 ∧
    crcFrom 1630882350 (zeros 32) = 1582502979 ∧ crcFrom 1582502979 (zeros 32) = 2393320206 ∧
    crcFrom 2393320206 (zeros 32) = 3845821518 ∧ crcFrom 3845821518 (zeros 32) = 1795719584 := by
  decide +kernel
theorem crc32c_sample : crc32c (sampleHead ++ zeros 512) = 2499247711 := by
  have h : zeros 512 = zeros 32 ++ (zeros 32 ++ (zeros 32 ++ (zeros 32 ++ (zeros 32 ++ (zeros 32 ++ (zeros 32 ++ (zeros 32 ++ (zeros 32 ++ (zeros 32 ++
      (zeros 32 ++ (zeros 32 ++ (zeros 32 ++ (zeros 32 ++ (zeros 32 ++ zeros 32)))))))))))))) := by decide +kernel
  have e (x : List Byte) : crc32c x = crcFrom 4294967295 x ^^^ 0xFFFFFFFF := by rw [crc32c, crcFrom]
  rw [e, h]
  simp only [crcFrom_append, crcFrom_sample]
  decide
theorem witness_sampleFrame : headOk false 1 sampleL = true := by
  have h : sampleL.take 520 = sampleHead ++ zeros 512 ∧ leNat (sampleL.drop 520) = 2499247711 ∧ fieldAt sampleL 2 2 = 512 ∧ frameType sampleL = 1 ∧
      sampleL.length = 524 ∧ frameBeam sampleL = 17 := by decide +kernel
  obtain ⟨h1, h2, h3, h4, h5, h6⟩ := h
  simp only [headOk, h1, h2, h3, h4, h5, h6, crc32c_sample]
  decide

theorem witness_HeadFrames :
    (let d := headState id
     d.plat.armed = [] ∧ d.headUp 3 = true ∧ d.ad8 3 = false ∧ headOk (d.ad8 3) 1 [] = false ∧ headOk (d.ad8 3) 2 [] = false ∧
      headOk (d.ad8 3) 3 [] = false ∧ headOk false 2 (frameL 2 (zeros 64)) = true ∧ headOk false 3 (frameL 3 statusL) = true ∧
      (let p := framePayload (frameL 3 statusL)
       fieldAt p 3 1 = 2 ∧ fieldAt p 10 2 = 0 ∧ fieldAt p 9 1 = 0 ∧ fieldAt p 0 2 = 0xABCD)) ∧
    (∀ x ∈ [beamL none, beamL (some (2 ^ 32 - 512 * 2047))],
      let d := headState fun v => { v with beams := [(17, x)] }
      d.beam 3 (frameBeam sampleL) = x ∧ x.locked = false ∧ frameFlags sampleL % 64 = x.code ∧ x.sent = x.code ∧ 813 ≤ x.fgain ∧ x.fgain ≤ 1290) ∧
    frameStamp sampleL = 0 ∧ (2 ^ 32 - 512 * 2047 + 512 * 2047) % 2 ^ 32 = 0 ∧ 2047 < 2048 ∧ 2 ^ 32 - 512 * 2047 < 2 ^ 32 := by decide +kernel

def readL (level : Nat) (w : List Nat) (k : Nat) (idle : Bool) (llrs : Map (List Int)) : BrRead :=
  ⟨9, 8, level, 0, w, (List.range k).map fun i => (i, (0, [])), 0, llrs, [], false, idle, false, [], none⟩
def reqL (dec : Option Nat) : LdpcReq := ⟨3, 8, 17, 17, [-1], 0, true, 0, dec⟩

/-- A codeword of zeros with its first bit wrong does not check. -/
theorem witness_undecoded : (ldpcDecode false (reqL (some 23)).llrs (reqL (some 23)).limit).1 = none := by
  have r : ((List.range 4096).all fun x => !(ldpcCheckBits false 1 x).foldl (fun p v => p != (#[true] : Array Bool).getD v false) false) = false :=
    List.all_eq_false.2 ⟨3793, by simp, by decide +kernel⟩
  have k : ldpcChecks false #[true] = false := List.all_eq_false.2 ⟨1, by decide, fun h => Bool.false_ne_true (r.symm.trans h)⟩
  have e : ldpcHard (([-1].map (· * (((4 ^ (0 * ldpcRows false) : Nat) : Int)))).toArray) = #[true] := by decide +kernel
  have g (l : Array Int) (h : ldpcHard l = #[true]) : (ldpcRun false 0 0 (l, [])).1 = none := by
    rw [ldpcRun, h, k]
    simp
  have f (ad8 : Bool) (l : List Int) (n : Nat) :
      (ldpcDecode ad8 l n).1 = (ldpcRun ad8 n 0 ((l.map (· * (((4 ^ (n * ldpcRows ad8) : Nat) : Int)))).toArray, [])).1 := rfl
  rw [reqL, f]
  exact g _ e

theorem witness_BandrowReads :
    (let d := (mk fun d => d.onOdr fun o => { o with ldpc := [reqL none] }).dev
     (d.cellsOut F.ldpcFenced .ldpc 24).testBit 23 = false ∧ (∀ q ∈ d.odr.ldpc, q.decoder ≠ some 23) ∧ ∃ q ∈ d.odr.ldpc, q.decoder = none) ∧
    (let d := (driveState 3 fun v => { v with reads := [readL 1 [17] 17 false []] }).onOdr fun o => { o with ldpc := [reqL (some 23)] }
     let r := readL 1 [17] 17 false []
     d.odr.ldpc.find? (fun r => r.decoder == some 23) = some (reqL (some 23)) ∧
      (none : Option Nat).getD 0 ≤ 24 ∧ d.ad8 (reqL (some 23)).drive = false ∧ (reqL none).drive = 3 ∧ (reqL none).sector = 17 ∧
      (d.drive 3).reads = [r] ∧ r.ploc = (reqL none).ploc ∧ r.waiting = [17] ∧ r.verdict = none ∧ r.level = 1 ∧ r.passes = 0 ∧ r.failed false = [17]) ∧
    (let r := readL 0 [] 17 true [(17, [])]
     let d := driveState 3 fun v => { v with reads := [r] }
     (d.drive 3).reads.find? (fun r => r.brow == 9 && r.idle && r.verdict.isNone) = some r ∧ d.holding 8 = false ∧ d.holding 9 = false ∧ r.level = 0 ∧
      ((d.decodable 3 r).filter fun i => (Map.find r.llrs i).isSome) ≠ []) ∧
    (let r := readL 5 [] 17 true []
     let d := driveState 3 fun v => { v with reads := [r] }
     (d.drive 3).reads.find? (fun r => r.brow == 9 && r.idle && r.verdict.isNone) = some r ∧ (d.rec_ 3).cur = none ∧ d.drvState 3 = 3 ∧
      d.servoOn 3 = true ∧ d.decodable 3 r ≠ [] ∧ ∀ y ∈ (d.drive 3).reads, sameRead y r = true) := by decide +kernel

/-- Band-row 0 to be recorded, and a commit of it. -/
def rowR : RecRow := ⟨0, 0, 11, 0, [], 0, .test 0, .test 0, 2, true, none, 0, 0, 0⟩
def runR (ns : Nat) : Running := ⟨rowR, 0, 0, 0, ns, ns, 0⟩
/-- A drive on which a commit may start, with a recorder. -/
def recDrive (st : Nat) (q : Recorder) : Dev :=
  ((((driveState 3 fun v => { v with rec_ := { q with clear := 255 }, beams := (List.range 18).map fun b => (b, { Beam.reset with locked := true }) }).wr
    (F.drvCtrl_recEn 3) 1).wr (F.spStat_atSpeed 3) 1).wr (F.wrStat_state 3) st).onOdr fun o => { o with recs := [rowR] }

theorem witness_RecorderCommands :
    (let d := recDrive 1 Recorder.reset
     (d.drive 3).disc = some discL ∧ discL.ad8 = false ∧ d.ad8 3 = false ∧ d.recState 3 = 1 ∧ (d.rec_ 3).recheck = false ∧ (d.rec_ 3).tables = false ∧
      (d.rec_ 3).cur = none ∧ (d.rec_ 3).next = none ∧ (d.rec_ 3).queue.length < 64 ∧ discL.dib.isSome = true ∧
      d.nextRow 3 (d.rd (F.drvNwb 3)) = some rowR ∧ rowR.brow = d.rd (F.drvNwb 3) ∧ d.mayCommit 3 false = true ∧ d.recBufs rowR.id = none ∧
      (d.wr (F.spStat_atSpeed 3) 0).mayCommit 3 true = false) ∧
    (let d := recDrive 4 { Recorder.reset with queue := rowR :: List.replicate 63 rowR }
     d.recState 3 = 4 ∧ (d.rec_ 3).cur = none ∧ (d.rec_ 3).tables = false ∧ (d.rec_ 3).queue = rowR :: List.replicate 63 rowR ∧
      (List.replicate 63 rowR).length < 64 ∧ (d.rec_ 3).excess = [] ∧ d.mayCommit 3 false = true ∧ discL.reallocSpare rowR.brow = some 1) ∧
    (let d := (recDrive 2 { Recorder.reset with cur := some (runR 2499) }).onMram fun m =>
      { m with pend := [(3, ⟨5, 11, 0, List.replicate 8188 ⟨2, false, 0, 0, 0, 0, 0, 0⟩⟩)] }
     d.chats (keyShock 3) = false ∧ (d.drive 3).guard.contains 2 = false ∧ (d.rec_ 3).cur = some (runR 2499) ∧ (d.rec_ 3).next = none ∧
      d.nsSince (runR 2499).tick 2499 ≤ (runR 2499).lastNs ∧ rowR.why ≠ .again ∧ rowR.stops < 3 ∧ discL.stopped = false ∧
      (runR 2499).ploc = discL.logicalPloc rowR.brow ∧
      discL.canSlip (browLayer rowR.brow) (discL.zoneOf (browLayer rowR.brow) (browUser rowR.brow)) = true ∧
      (d.pendRec 3).ents.length < 8189 ∧ d.recState 3 = 2) ∧
    (recDrive 1 Recorder.reset).chats (keyShock 3) = false := by decide +kernel

/-! ## Servo sequences, spindles, steppers and inputs -/

/-- Drive 3 with a loaded disc and engine 11 in role A computing on drive state `q` and focus loop `l`. -/
def seqState (q : SeqSt) (l : LoopSt) : Dev :=
  (((mk fun d => (d.setUnit (Pg.odrDrv 3) .active)).dev.onEng 11 fun x =>
    { x with st := 3, role := 1, img := some { Image.reset with seq := q, loops := l :: List.replicate 22 LoopSt.reset } }).onDrive 3 fun v =>
      { v with disc := some discL, beams := [(0, { Beam.reset with place := some (31, 0, 0) })] })
def closedL : LoopSt := { LoopSt.reset with mode := 3 }
def openL (v : Int) : LoopSt := { LoopSt.reset with mode := 1, open_ := v }
def seqL (st : Nat) : SeqSt := { SeqSt.reset with st := st }

theorem witness_seqState (q : SeqSt) (l : LoopSt) : (seqState q l).inRole 3 1 = some 11 ∧ ((seqState q l).eng 11).st = 3 ∧
    ((seqState q l).eng 11).img = some { Image.reset with seq := q, loops := l :: List.replicate 22 LoopSt.reset } ∧
    ({ Image.reset with seq := q, loops := l :: List.replicate 22 LoopSt.reset } : Image).loop loopFocus = l := ⟨rfl, rfl, rfl, rfl⟩

theorem witness_FocusIsKept :
    (let d (g : Nat) := (seqState { seqL 1 with goal := some ⟨g, 0, 0⟩, inLock := 255 } closedL).wr (F.srvFocCfg_confirm 3) 255
     closedL.mode = 3 ∧ (d 0).rd (F.srvFocCfg_confirm 3) ≤ 255 ∧ (d 0).fieldLayers 3 = [31] ∧ goalLayer { seqL 1 with goal := some ⟨31, 0, 0⟩ } = 31 ∧
      goalLayer { seqL 1 with goal := some ⟨0, 0, 0⟩ } ∉ (d 0).fieldLayers 3) ∧
    ((openL 32767).mode = 1 ∧ 32767 ≤ (openL 32767).open_ ∧ ({ seqL 1 with sweeps := 1 }).sweeps < 2 ∧ 2 ≤ ({ seqL 1 with sweeps := 2 }).sweeps ∧
      ((mk id).dev.wr (F.srvLoopCtrl_en (loopPage 3 loopFocus)) 1).flag (F.srvLoopCtrl_en (loopPage 3 loopFocus)) = true) ∧
    (let q := { seqL 2 with lowSum := 15 }
     let d := (seqState q closedL).wr (F.srvFocLim_lostT 3) 15
     closedL.mode = 3 ∧ d.rd (F.srvFocLim_lostT 3) ≤ q.lowSum) ∧
    (let q := { seqL 5 with serve := true, fresh := 8 }
     let d := (seqState q (openL (-32768))).wr (F.srvFocPark 3) 0x8000
     q.st = 5 ∧ (openL (-32768)).open_ = d.rdS 16 (F.srvFocPark 3) ∧ q.serve = true ∧ (d.drive 3).disc.isSome = true ∧ 8 ≤ q.fresh ∧ ({ q with fresh := 7 }).fresh < 8 ∧
      ({ q with serve := false }).serve = false) ∧
    (let q := { seqL 2 with stale := 4 }
     q.st ≠ 0 ∧ q.st ≠ 5 ∧ 4 ≤ q.stale) := by decide

theorem witness_JumpsAndSeeks :
    (let q := { seqL 3 with jump := 1, timer := 9, kick := 99 }
     let d := ((seqState q closedL).wr (F.srvJumpCfg_kickT 3) 9).wr (F.srvJumpCfg_tmo 3) 99
     q.st = 3 ∧ q.jump = 1 ∧ d.rd (F.srvJumpCfg_kickT 3) ≤ q.timer ∧ q.hit = false ∧ d.rd (F.srvJumpCfg_tmo 3) ≤ q.kick) ∧
    (let q := { seqL 3 with jump := 3, timer := 9 }
     let d := (seqState q closedL).wr (F.srvJumpCfg_brakeT 3) 9
     q.st = 3 ∧ q.jump = 3 ∧ d.rd (F.srvJumpCfg_brakeT 3) ≤ q.timer) ∧
    (let q := { seqL 4 with phase := 1, pos := -1024, aim := -1024 }
     q.st = 4 ∧ q.phase = 1 ∧ q.pos = q.aim) ∧
    (let q := { seqL 4 with phase := 3, settled := 4 }
     let d := (seqState q closedL).wr (F.srvSeekCfg_settle 3) 4
     q.st = 4 ∧ q.phase = 3 ∧ d.rd (F.srvSeekCfg_settle 3) ≤ q.settled) ∧
    (∀ b ∈ [0, 1], let q := { seqL 4 with phase := 3, settle := 400, bad := b }
     q.st = 4 ∧ q.phase = 3 ∧ 400 ≤ q.settle ∧ q.bad = b) ∧ ({ seqL 4 with phase := 4 }).phase = 4 := by decide

theorem get_const (dflt v : Word) (m : Map Word) (k : Nat) (h : ∀ e ∈ m, e.2 = v) (hk : ∃ e ∈ m, e.1 = k) : Map.get dflt m k = v := by
  induction m with
  | nil => obtain ⟨e, he, -⟩ := hk; cases he
  | cons x m ih =>
    obtain ⟨a, b⟩ := x
    by_cases e : a = k
    · simpa [Map.get, e] using h _ (List.mem_cons_self ..)
    · refine (by simp [Map.get, e] : Map.get dflt ((a, b) :: m) k = Map.get dflt m k).trans
        (ih (fun y hy => h y (List.mem_cons_of_mem _ hy)) ?_)
      obtain ⟨y, hy, rfl⟩ := hk
      rcases List.mem_cons.1 hy with rfl | hy
      · exact absurd rfl e
      · exact ⟨y, hy, rfl⟩
/-- Drive 3 with set 1 in every entry of its region map and another set addressed. -/
def mapForce : Map Word := (List.range 512).map fun i => (0x913800 + 4 * i, 0x01010101)
theorem mapForce_get (dflt : Word) (i : Nat) (hi : i < 512) : Map.get dflt mapForce (0x913800 + 4 * i) = 0x01010101 := by
  refine get_const _ _ _ _ (fun e he => ?_) ⟨(0x913800 + 4 * i, 0x01010101), List.mem_map.2 ⟨i, List.mem_range.2 hi, rfl⟩, rfl⟩
  obtain ⟨j, -, rfl⟩ := List.mem_map.1 he
  rfl
def mapState : Dev := { ((mk id).dev.wr (F.srvCsAddr_set 3) 255).wr (F.srvCsAddr_class 3) 6 with force := mapForce }
theorem mapState_forced (a : Nat) : mapState.forced a = Map.get (resetVal a) mapForce a := by simp only [Dev.forced, mapState]

theorem witness_regionMap : ∀ r, r < 2048 → mapState.mapSet4 3 r ≠ mapState.rd (F.srvCsAddr_set 3) := by
  intro r hr
  have s : mapState.rd (F.srvCsAddr_set 3) = 255 := by decide +kernel
  have h : mapState.forced (0x913800 + 4 * (r / 4)) = 0x01010101 := by rw [mapState_forced, mapForce_get _ _ (by omega)]
  rw [s]
  unfold Dev.mapSet4
  split <;> simp only [Dev.rd, F.srvRmap_e0, F.srvRmap_e1, F.srvRmap_e2, F.srvRmap_e3, Nat.reduceMul, Nat.reduceAdd, if_true, h] <;> decide

theorem witness_CoefficientAccess :
    (2 ^ 32 - 1 < 2 ^ 32 ∧ mapState.writesBlocked = false ∧ mapState.rd (F.srvCsAddr_class 3) ≠ 7) ∧
    (let d := (mk id).dev.wr (F.srvCsAddr_set 3) 0
     d.mapSet4 3 2047 = d.rd (F.srvCsAddr_set 3)) ∧
    (let d := ((mk id).dev.wr (F.srvMissCfg 3) 8).onSrvDrive 3 fun v => { v with missed := [(22, 8)] }
     22 < 23 ∧ max 1 (d.rd (F.srvMissCfg 3)) ≤ Map.get 0 (d.srvDrive 3).missed 22) := by decide +kernel

/-- Spindle 3 in a state, at tick `t`. -/
def spinState (t : Nat) (x : Spin) : Dev := ((mk fun d => d.onSpin 3 fun _ => x).dev.onPlat fun p => { p with tick := t })
def spinL (st : Nat) : Spin := { Spin.reset with st := st }
def peaksL (top : Nat) : List Nat := List.replicate 11 970 ++ [top]

theorem witness_SpindleStarts :
    (let d := ((spinState 0 (spinL 0)).setUnit (Pg.odrDrv 3) .active).wr (F.drvStat_state 3) 1
     (d.spin 3).st = 0 ∧ d.driveOn 3 = true ∧ d.drvState 3 = 1 ∧ d.ldr.cur = none ∧ d.ldr.ops = [] ∧ d.gatesHeld 3 = false) ∧
    (∀ st ∈ [1, 7], let d := spinState 408 (spinL st)
      408 ≤ d.since (d.spin 3).since ∧ (d.spin 3).st = st) ∧
    (959 < 960 ∧ 960 ≤ 1200 ∧ (960 : Int) ≤ 960 ∧ (((1200 : Nat) : Int) - 960).natAbs * 4 ≤ (960 : Int).natAbs ∧ (-960 : Int) ≤ -960 ∧
      (((1200 : Nat) : Int) + -960).natAbs * 4 ≤ (-960 : Int).natAbs) ∧
    (∀ k ∈ [1, 2], let d := spinState 56 { spinL 3 with aligns := k }
      (d.spin 3).st = 3 ∧ 56 ≤ d.since (d.spin 3).since ∧ (d.spin 3).aligns = k) ∧
    (∀ top ∈ [999, 1000], (peaksL top).length = 12 ∧ (peaksL top).foldl max 0 = top ∧ (peaksL top).foldl min top = 970) ∧
    (3 * 1000 ≤ (1000 - 970) * 100 ∧ (999 - 970) * 100 < 3 * 999 ∧ 1 + 1 < 3 ∧ 3 ≤ 2 + 1) ∧
    (let d (v : Nat) := (spinState 0 { spinL 5 with agree := 40 }).wr (F.spSpeed 3) v
     ((d 0).spin 3).st = 5 ∧ 40 ≤ ((d 0).spin 3).agree ∧ (d (10800 * 16)).nearTarget 3 = true ∧ (d 0).nearTarget 3 = false) ∧
    (∀ st ∈ [0, 1, 4], let d := (spinState 0 { spinL 6 with atSpeed := 40 }).wr (F.drvStat_state 3) st
      (d.spin 3).st = 6 ∧ 40 ≤ (d.spin 3).atSpeed ∧ d.drvState 3 = st ∧ (d.seq 3).st = 0) ∧
    (∀ st ∈ [1, 4], let d := (spinState 400 (spinL st)).wr (F.spStartTmo_startTmo 3) 1
      1 ≤ (d.spin 3).st ∧ (d.spin 3).st ≤ 4 ∧ d.rd (F.spStartTmo_startTmo 3) * 400 ≤ d.since (d.spin 3).reqAt) := by decide

theorem witness_SpindleStops :
    (8 ≤ ({ spinL 6 with differ := 8 }).differ ∧ (spinState 20000 (spinL 7)).since ((spinState 20000 (spinL 7)).spin 3).lostAt = 20000) ∧
    (spinState 0 (spinL 6)).stopWanted 3 = false ∧
    (let d := (spinState 0 (spinL 6)).wr (F.drvStat_state 3) 4
     d.stopWanted 3 = true ∧ (d.spin 3).st = 6) ∧
    (let x := { spinL 8 with quiet := 400 }
     x.st = 8 ∧ x.dtc = false ∧ 400 ≤ x.quiet) ∧
    (let d := (spinState 400 (spinL 8)).wr (F.spStop2_stopTmo 3) 1
     (d.spin 3).st = 8 ∧ d.rd (F.spStop2_stopTmo 3) * 400 ≤ d.since (d.spin 3).since) ∧
    (let d := spinState 399 { spinL 6 with trips := List.replicate 16 0 }
     (d.spin 3).st ≠ 9 ∧ 16 ≤ ((d.spin 3).trips.filter fun t => decide (d.since t < 400)).length) ∧
    4 ≤ ({ spinL 6 with low := 4 }).low := by decide

/-- Axis 7 in a state. -/
def axisState (x : Axis) : Dev := (mk fun d => (d.onAxis 7 fun _ => x).setUnit (Pg.motSt 7) .active).dev
def axisL (st : Nat) : Axis := { Axis.reset with st := st, driveA := true, off := false }

theorem witness_SteppersMove :
    (let d := (mk id).dev.wr F.ldrStat 1
     d.writesBlocked = false ∧ d.stCmdOk 7 = false) ∧
    (let d := axisState (axisL 0)
     d.writesBlocked = false ∧ d.stCmdOk 7 = true ∧ d.flag (F.stStat_homed 7) = false ∧ (d.axis 7).barred = 0 ∧ (d.axis 7).st = 0) ∧
    (let d := (((axisState (axisL 1)).wr (F.stStat_homed 7) 1).wr (F.stTarget 7) 0x80000000).wr (F.stPos 7) 0x7FFFFFFF
     d.stCmdOk 7 = true ∧ d.flag (F.stStat_homed 7) = true ∧ d.rdS 32 (F.stTarget 7) ≠ d.pos 7 ∧ d.pos 7 ≠ 0 ∧ (d.axis 7).st = 1) ∧
    (let x := { axisL 2 with v := 1, dir := 1, target := 2147483647 }
     let d := (axisState x).wr (F.stPos 7) 0x7FFFFFFE
     (d.axis 7).st = 2 ∧ x.why ≠ 1 ∧ d.axisOff 7 = false ∧ x.v ≠ 0 ∧ d.blocked 7 x.dir = false ∧ x.held = 0 ∧ -2 ^ 31 ≤ d.pos 7 + x.dir ∧
      d.pos 7 + x.dir < 2 ^ 31) ∧
    (let x := { axisL 2 with v := 1, dir := -1 }
     let d := (mk fun d => ((d.onAxis 6 fun _ => x).setUnit (Pg.motSt 6) .active).onMot fun m => { m with level := [(keyA 6, true)] }).dev
     (d.axis 6) = x ∧ x.why ≠ 1 ∧ d.axisOff 6 = false ∧ d.blocked 6 x.dir = true) ∧
    (let d := (axisState { axisL 0 with idle := 9 }).wr (F.stCur_holdT 7) 9
     d.rd (F.stCur_holdT 7) ≤ (d.axis 7).idle) ∧
    (let d := (axisState { axisL 2 with chopA := 62 }).wr (F.stChop_blank 7) 1
     d.axisOff 7 = false ∧ (d.axis 7).off = false ∧ 1 * 5 < d.rd (F.stChop_blank 7) * 10 ∧ d.rd (F.stChop_blank 7) * 10 ≤ 2 * 5 ∧
      (d.axis 7).driveA = true ∧ ({ d.axis 7 with driveA := false }).driveA = false ∧ ((d.axis 7).chopA + 1) % 64 ≠ 0) := by decide

theorem witness_InputsAct :
    (∀ h ∈ [1, 2], let x := { axisL 3 with home := h }
      let d := axisState x
      (d.axis 7).st = 3 ∧ (d.axis 7).home = h ∧ d.chats (keyHome 7) = false) ∧
    (let d := ((axisState (axisL 3)).wr (F.stHome_homeTmo 7) 1).onPlat fun p => { p with tick := 400 }
     (d.axis 7).st = 3 ∧ d.rd (F.stHome_homeTmo 7) * 400 ≤ d.since (d.axis 7).began) ∧
    (let x := { axisL 2 with dir := -1 }
     x.st = 2 ∧ x.dir < 0 ∧ (mk id).dev.chats (keyA 6) = false) ∧
    (∀ k ∈ [0, 34, keyShock 3, keyTrg 3], let d := (mk fun d => d.onMot fun m => { m with chat := [(k, true)] }).dev
      k ≤ 34 ∧ d.chats k = true ∧ (mk id).dev.chats k = false) ∧
    (mk fun d => d.onMot fun m => { m with level := [(keyShock 3, true)] }).dev.active (keyShock 3) = true ∧ (mk id).dev.active (keyShock 3) = false ∧
    (let d := ((mk id).dev.wr F.mg1Cfg_genEn 1).wr F.mg1Cfg_genPol 0
     d.flag F.mg1Cfg_genEn = true ∧ d.flag F.mg1Cfg_genPol = !true ∧ d.chats keyGenlock = false ∧ 255 < 256 ∧
      d.flag F.mg1Cfg_genPol = false) := by decide

/-! ## Calibration -/

/-- A calibration with a queue and items measuring. -/
def calState (qs rs : List CalRun) : Dev := (mk fun d => d.onCal fun c => { c with queue := qs, running := rs }).dev
def calL (item : Nat) : CalRun := ⟨item, 0, 0, 0, []⟩

theorem witness_Calibration :
    (let v := 0xCA000000 + 73
     (mk id).dev.writesBlocked = false ∧ bitsOf v 31 24 = 0xCA ∧ bitsOf v 6 0 = 73 ∧ calExists 73 = true ∧ (mk id).dev.cal.queue.length < 16 ∧
      (mk id).dev.calQueued 73 = false ∧ (mk id).dev.calRunning 73 = none ∧ (mk id).dev.calSteps 73 = false) ∧
    (16 ≤ (calState (List.replicate 16 (calL 0)) []).cal.queue.length ∧ (calState (List.replicate 16 (calL 0)) []).calQueued 0 = true ∧
      calExists 74 = false ∧ bitsOf 0xCB000000 31 24 ≠ 0xCA) ∧
    (let d := (calState [calL 0] []).wr F.calVref_valid 1
     d.cal.queue = [calL 0] ∧ d.cal.running = [] ∧ (calL 0).item < 80 ∧ d.calHolds 0 = false ∧ d.calCheck (calL 0) true = 0 ∧
      (d.wr F.calVref_valid 0).calCheck (calL 0) true ≠ 0) ∧
    (let d := calState [] [calL 0]
     d.calRunning 0 = some (calL 0) ∧
      (let xs := (List.range 8).map fun i => nearest (32768 * 1000 * 256) (((List.replicate 8 256000)).getD i 0)
       ∀ t ∈ List.zip (calTargets 0 (calL 0).layers) xs, t.1.fits t.2 = true) ∧
      (let xs := (List.range 8).map fun i => nearest (32768 * 1000 * 256) (((List.replicate 8 1)).getD i 0)
       ∃ t ∈ List.zip (calTargets 0 (calL 0).layers) xs, t.1.fits t.2 = false)) ∧
    (let d := calState [] [calL 67]
     67 < 80 ∧ d.calRunning 67 = some (calL 67) ∧ calWrites 67 = false ∧ calPoints (calL 67) ≤ (calL 67).step ∧ d.calResult (calL 67) [] = none) ∧
    65535 < 2 ^ 16 := by decide

/-! ## The host attachment -/

/-- The link in a mode, W in units of 256 MiB. -/
def linkState (mode w : Nat) (f : Hat → Hat) : Dev := ((mk fun d => d.onHat f).dev.wr F.pltStat_link mode).wr F.hatMemCfg w

theorem witness_CxlMemory :
    (mk id).dev.rd F.pltStat_link = 0 ∧
    ((linkState 1 1 fun h => { h with d3hot := true }).rd F.pltStat_link ≠ 0 ∧ (linkState 1 1 fun h => { h with d3hot := true }).hat.d3hot = true) ∧
    (let d := linkState 1 1 id
     d.rd F.pltStat_link = 1 ∧ d.hat.d3hot = false ∧ 2 ^ 28 - 1 < d.memW ∧ d.memW ≤ 2 ^ 28 ∧ d.injected Pg.hatReg Er.hatReg_poisonRx = false ∧
      d.injected Pg.bpmReg Er.bpmReg_hostwDrop = false ∧
      d.cst.waiting = [] ∧ (d.bufEnt (granuleOf (2 ^ 28 - 1))).alloc = false) ∧
    (let d := (linkState 1 1 id).setBufEnt 4095 { bufOf 32 false with hostw := true }
     (d.bufEnt (granuleOf (2 ^ 28 - 1))).alloc = true ∧ (d.bufEnt (granuleOf (2 ^ 28 - 1))).hostw = true) ∧
    (let d := linkState 1 1 fun h => { h with decoders := [some (0, 2 ^ 27), none] }
     d.rd F.pltStat_link ≠ 2 ∧ d.hat.decoders.getD (1 - 1) none = some (0, 2 ^ 27) ∧ 2 ^ 28 ≤ d.memW ∧ 2 ^ 27 < 2 ^ 28 ∧ d.memW < 2 ^ 28 + 1 ∧
      2 ^ 27 - 1 < 2 ^ 27 ∧ 0 < 2 ^ 28) := by decide

/-- Queue 63 in a state with a window of one capsule at slot 0. -/
def queueState (st : Nat) (x : Queue) : Dev := (mk fun d => d.onHat fun h => { h with queues := [(63, x)] }).dev.wr (F.hatQstat_state 63) st
def bytesMap (xs : List (Nat × Nat)) : Map Byte := xs.map fun e => (e.1, w8 e.2)
def queueL (xs : List (Nat × Nat)) : Queue := { Queue.reset with window := bytesMap xs, depth := 64, rdepth := 8192, tail := 65535, head := 65535 }

theorem witness_QueueBells :
    (linkState 1 1 fun h => { h with d3hot := true }).hat.d3hot = true ∧ (mk id).dev.hat.d3hot = false ∧ (mk id).dev.plat.softReset = none ∧
    (mk id).dev.doorbellOk 63 1 = false ∧
    (let x := queueL [(4032, 1), (4033, 3), (4034, 7), (4037, 1)]
     let d := queueState 1 x
     let b := Map.getRun 0 x.window (64 * (x.head % 64)) 64
     d.doorbellOk 63 0 = true ∧ 0 = (x.tail + 1) % 65536 ∧ x.tail < 65536 ∧ d.queue 63 = x ∧ fieldAt b 0 1 = 1 ∧
      (opFits 63 (fieldAt b 1 1) && zeroElse b ([(0, 5)] ++ (if opVol (fieldAt b 1 1) then [(5, 1)] else []) ++ opArgs (fieldAt b 1 1)) &&
          decide (fieldAt b 4 1 < 4) && (!(fieldAt b 4 1).testBit 1 || fieldAt b 1 1 == 3) && (d.cmdOf 63 (fieldAt b 2 2)).isNone) = true) ∧
    (∀ k ∈ [0, 4, 1], let x := queueL [(4032, k), (4033, 255)]
      let b := Map.getRun 0 x.window (64 * (x.head % 64)) 64
      (queueState 1 x).doorbellOk 63 0 = true ∧ fieldAt b 0 1 = k ∧ opFits 63 (fieldAt b 1 1) = false) ∧
    (let x := { queueL [] with rtail := 8192, rhead := 1 }
     let d := queueState 1 x
     let n := (0 + x.rdepth - x.rhead % x.rdepth) % x.rdepth
     d.qState 63 ≠ 0 ∧ 0 < x.rdepth ∧ n ≤ x.rtail - x.rhead ∧ x.held = [] ∧ 8192 ≤ 8192 ∧
      ({ x with rtail := 1 }).rtail - x.rhead < n) ∧ (mk id).dev.qState 63 = 0 ∧
    (let x := { queueL [] with unsig := 1, aggTime := 4000, vec := 63, held := [[]] }
     let d (t : Nat) := (queueState 1 x).onPlat fun p => { p with tick := t }
     ((d 0).queue 63).unsig ≠ 0 ∧ (d 0).since x.unsigAt < x.aggTime ∧ x.aggTime ≤ (d 4000).since x.unsigAt ∧ x.vec < 64 ∧ x.held ≠ [] ∧
      4000 ≤ (d 4000).since x.heldAt ∧ (d 0).since x.heldAt < 4000 ∧ ((d 0).wr (F.msixCtrl 63) 1).flag (F.msixCtrl x.vec) = true ∧
      ((d 0).wr (F.msixCtrl 63) 0).flag (F.msixCtrl x.vec) = false) ∧
    (∀ e ∈ [0, 1], let d := (mk id).dev.wr F.hatAqCfg_en e
      d.writesBlocked = false ∧ d.flag F.hatAqCfg_en = decide (e = 1)) ∧
    (∀ rs ∈ [4, 13], let v := 2 ^ 16 + rs
      v / 2 ^ 16 % 256 ≠ 0 ∧ 4 ≤ v % 16 ∧ v % 16 ≤ 13) ∧ (0 / 2 ^ 16 % 256 = 0 ∧ (2 ^ 16 + 3) % 16 < 4 ∧ 13 < (2 ^ 16 + 14) % 16) := by decide

/-- The chip with one command consumed in its queue, which is ACTIVE. -/
def hostState (c : Cmd) : Dev := ((mk fun d => d.onHat fun h => { h with cmds := [c] }).dev.wr (F.hatQstat_state c.queue) 1)
/-- What `Dev.readyFor` asks of it. -/
def ready (d : Dev) (c : Cmd) : Bool := decide (d.cmdOf c.queue c.cid = some c) && decide (d.cmdAt c.arrival = some c) && d.mayBegin c && !d.plat.safe
theorem ready_readyFor (d : Dev) (c : Cmd) (h : ready d c = true) : d.readyFor c.queue c.cid c.op c := by
  simpa [ready, Dev.readyFor, and_assoc] using h
/-- A command of queue 63 on volume 1 with its opcode and bytes. -/
def ioCmd (op : Nat) (xs : List (Nat × Nat)) : Cmd := cmdOf 63 op 1 (capsule xs)
def volState (c : Cmd) : Dev := (hostState c).wr (F.sflVolSize 0) 1
/-- Shell 7 mounted, with disc 0 present. -/
def shellState (c : Cmd) : Dev := (volState c).onOdr fun o => { o with cat := [(7, { CatEnt.empty with st := 2, present := 1 })] }

theorem witness_HostCommands_io :
    ((mk id).dev.cmdOf 63 1 = none) ∧
    (∀ op ∈ [1, 2],
      (let c := ioCmd op [(16, 1)]
       ready (hostState c) c = true ∧ (hostState c).rangeBad c 65536 = some 0x20 ∧ (hostState c).rangeFree c = false) ∧
      (let c := { ioCmd op [(18, 1)] with entry := true }
       let d := volState c
       ready d c = true ∧ c.op = op ∧ d.rangeBad c 65536 = none ∧ d.rangeFree c = true) ∧
      (let c := { ioCmd op [(16, 1)] with entry := true, arrival := 2 }
       let d := (volState c).onHat fun h => { h with cmds := [c, { ioCmd 1 [(16, 1)] with entry := true, cid := 2 }] }
       ready d c = true ∧ d.rangeBad c 65536 = none ∧ d.rangeFree c = false ∧ c.entry = true ∧ c.phase = 0)) ∧
    (let c := ioCmd 3 []
     ready (hostState c) c = true ∧ (hostState c).rd (F.sflVolSize (c.vol - 1)) = 0 ∧ ready (volState c) c = true ∧
      ¬ (c.vol = 0 ∨ 64 < c.vol ∨ (volState c).rd (F.sflVolSize (c.vol - 1)) = 0)) ∧
    (∀ xs ∈ [[(8, 32)], [(9, 3)], [(10, 2)]], let c := ioCmd 4 xs
      ready (hostState c) c = true ∧ (31 < c.stream ∨ 2 < c.mode ∨ 1 < c.arg 10 1)) ∧
    (let c := ioCmd 4 [(8, 31), (9, 2), (10, 1)]
     ready (hostState c) c = true ∧ c.stream ≤ 31 ∧ c.mode ≤ 2 ∧ c.arg 10 1 ≤ 1) ∧
    (∀ k ∈ [31, 32], let c := ioCmd 5 [(8, k)]
      ready (hostState c) c = true ∧ c.stream = k) := by decide

theorem witness_HostCommands_disc :
    (let c := ioCmd 6 [(16, 16), (20, 7), (22, 1)]
     ready (hostState c) c = true ∧ (hostState c).migrateOk c = some 0x20 ∧ ready (shellState c) c = true ∧ (shellState c).migrateOk c = none) ∧
    (let c := ioCmd 7 [(20, 7)]
     ready (hostState c) c = true ∧ (hostState c).verifyOk c = some 0x42 ∧ ready (shellState c) c = true ∧ (shellState c).verifyOk c = none) ∧
    (∀ k ∈ [1, 2], let c := ioCmd 8 [(25, k)]
      ready (hostState c) c = true ∧ c.arg 25 1 = k) ∧
    (∀ k ∈ [0, 1, 2, 3], let c := ioCmd 9 [(25, k)]
      ready (hostState c) c = true ∧ c.arg 25 1 = k) ∧
    (let d := (mk fun d => d.onHat fun h => { h with capsules := [(63, 2, 1, 5)] }).dev
     d.holds = false ∧ (63, 2, 1, 5) ∈ d.hat.capsules ∧ (63, 3, 1, 5) ∉ d.hat.capsules ∧ d.xferOf 63 2 1 5 = none) ∧
    (∀ w : Bool, let x : Xfer := ⟨1, 63, 1, 5, 0, 0, 0, 0, w⟩
      let k := if w then 2 else 3
      let c := { ioCmd 1 [] with started := true }
      let d := (hostState c).onHat fun h => { h with capsules := [(63, k, 1, 5)], xfers := [x] }
      d.holds = false ∧ d.xferOf 63 k 1 5 = some x ∧ (63, k, 1, 5) ∈ d.hat.capsules ∧ d.cmdAt x.arrival = some c ∧ c.op = 1) := by decide

/-- A command of the admin queue. -/
def aqCmd (op : Nat) (xs : List (Nat × Nat)) : Cmd := cmdOf 0 op 0 (capsule xs)

theorem witness_QueueAdmin :
    (let c := aqCmd 0x87 []
     ready (hostState c) c = true ∧ c.arg 8 1 = 0) ∧
    (let c := aqCmd 0x87 [(8, 64)]
     ready (hostState c) c = true ∧ c.arg 8 1 ≠ 0 ∧ ¬ c.arg 8 1 ≤ 63) ∧
    (let c := aqCmd 0x87 [(8, 63), (17, 16), (19, 32), (21, 4), (24, 64), (32, 63), (33, 1), (34, 160), (35, 15)]
     ready (hostState c) c = true ∧ (c.arg 8 1 ≤ 63 ∧ c.arg 16 2 ≠ 0 ∧ c.arg 16 2 ≤ 4096 ∧ isRingSize (c.arg 18 2) = true ∧ c.arg 20 2 ≠ 0 ∧
        c.arg 20 2 ≤ 1024 ∧ c.arg 24 8 % 64 = 0 ∧ c.arg 32 1 ≤ 63 ∧ c.arg 33 1 ≠ 0 ∧ c.arg 34 2 ≠ 0 ∧ c.arg 34 2 ≤ 4000) ∧
      (hostState c).qState (c.arg 8 1) = 0 ∧ ready ((hostState c).wr (F.hatQstat_state 63) 1) c = true ∧
      ((hostState c).wr (F.hatQstat_state 63) 1).qState (c.arg 8 1) ≠ 0) ∧
    (∀ op ∈ [0x88, 0x89], ∀ k ∈ [0, 63, 64], let c := aqCmd op [(8, k)]
      ready (hostState c) c = true ∧ c.op = op ∧ c.arg 8 1 = k ∧ (hostState c).qState 63 = 0 ∧ ∀ st ∈ [1, 2],
        ready ((hostState c).wr (F.hatQstat_state 63) st) c = true ∧ ((hostState c).wr (F.hatQstat_state 63) st).qState 63 = st ∧
        ((hostState c).wr (F.hatQstat_state 63) st).cmdsOf 63 = []) ∧
    (let c := ioCmd 1 []
     c ∈ (hostState c).hat.cmds ∧ c.started = false ∧ c.verdict = none) ∧
    (let d := queueState 2 (queueL [])
     d.qState 63 = 2 ∧ d.cmdsOf 63 = [] ∧ (d.queue 63).held = []) ∧
    ((mk id).dev.rd F.pltStat_link = 0 ∧ (linkState 1 0 id).rd F.pltStat_link ≠ 0) ∧
    (let d := (plat fun p => { p with boot := .ready, perst := true }).dev
     d.rd F.pltStat_link = 0 ∧ d.plat.boot = .ready ∧ d.plat.perst = true ∧ 2 ∈ [1, 2] ∧ 3 ∈ [1, 2, 3] ∧ 8 ∈ [1, 2, 4, 8]) ∧
    ¬ (linkState 1 0 id).rd F.pltStat_link = 0 := by decide +kernel

theorem witness_Mailbox :
    (mk id).dev.rd F.pltStat_link ≠ 1 ∧
    (let d := (linkState 1 1 id).onCst fun c => { c with sealed := List.replicate 257 64 }
     d.rd F.pltStat_link = 1 ∧ (d.cst.sealed.filter fun a => decide (a < d.memW)).length = 257 ∧
      ((linkState 1 1 id).cst.sealed.filter fun a => decide (a < d.memW)).length ≤ 256) ∧
    131071 + 1 ≤ 131072 ∧ 131072 < 131072 + 1 := by decide +kernel

theorem witness_AdminCommands :
    (mk id).dev.cmdOf 0 1 = none ∧
    (let c := aqCmd 0x81 [(8, 3)]
     ready (hostState c) c = true ∧ (match (hostState c).identData (c.arg 8 1) c.vol (c.arg 20 2) with
      | .error st => decide (st = 0x22)
      | .ok _ => false) = true) ∧
    (let c := aqCmd 0x81 []
     ready (hostState c) c = true ∧ (match (hostState c).identData (c.arg 8 1) c.vol (c.arg 20 2) with
      | .error _ => false
      | .ok _ => true) = true) ∧
    (let c := aqCmd 0x82 [(8, 5), (24, 64)]
     ready (hostState c) c = true ∧ logExists (c.arg 8 1) = true ∧ logShape (c.arg 8 1) = none ∧ 64 ≤ c.arg 24 4 ∧ c.arg 24 4 ≤ 16777216 ∧
      c.arg 24 4 % 64 = 0) ∧
    (∀ xs ∈ [[(8, 10), (24, 64)], [(8, 9), (24, 32)], [(8, 9), (27, 2)], [(8, 9), (24, 64)], [(8, 9), (27, 1)]], let c := aqCmd 0x82 xs
      ready (hostState c) c = true ∧ ((logExists (c.arg 8 1) = false) ∨ (logExists (c.arg 8 1) = true ∧
        (c.arg 24 4 < 64 ∨ 16777216 < c.arg 24 4 ∨ c.arg 24 4 % 64 ≠ 0)) ∨
        ((logShape (c.arg 8 1)).isSome = true ∧ 64 ≤ c.arg 24 4 ∧ c.arg 24 4 ≤ 16777216 ∧ c.arg 24 4 % 64 = 0))) ∧
    (let c := aqCmd 0x83 [(8, 12)]
     ready (hostState c) c = true ∧ featureOk (c.arg 8 1) (c.arg 9 1) = false) ∧
    (∀ k ∈ [0, 4], let c := aqCmd 0x83 [(8, 3), (13, k)]
      let d := (hostState c).setRaw (pageOf F.hatMemCfg.addr + 0x28) 1
      ready d c = true ∧ featureOk (c.arg 8 1) (c.arg 9 1) = true ∧ featureReg (c.arg 8 1) (c.arg 9 1) = some (F.hatMemCfg.addr, 10, false) ∧
        (if k = 4 then 2 ^ 10 ≤ c.arg 12 4 else c.arg 12 4 < 2 ^ 10 ∧ d.featureBusy (pageOf F.hatMemCfg.addr) = true)) ∧
    (let c := aqCmd 0x83 [(8, 1), (12, 1)]
     let d := hostState c
     ready d c = true ∧ c.arg 8 1 = 1 ∧ c.arg 9 1 = 0 ∧ (c.arg 10 1).testBit 0 = false ∧ d.featureBusy (pageOf F.sflTime.addr) = false ∧
      d.plat.softReset = none ∧ d.rd F.sflTime < c.arg 12 4) ∧
    (let c := aqCmd 0x84 [(8, 0)]
     ready (hostState c) c = true ∧ featureOk (c.arg 8 1) (c.arg 9 1) = false) ∧
    (let c := aqCmd 0x84 [(8, 11)]
     ready (hostState c) c = true ∧ (hostState c).featureGet (c.arg 8 1) (c.arg 9 1) ((c.arg 10 1).testBit 0) = some 0) ∧
    (let c := aqCmd 0x84 [(8, 9)]
     ready (hostState c) c = true ∧ featureOk (c.arg 8 1) (c.arg 9 1) = true ∧
      (hostState c).featureGet (c.arg 8 1) (c.arg 9 1) ((c.arg 10 1).testBit 0) = none) := by decide +kernel

theorem witness_AdminImages :
    (let c := aqCmd 0x85 [(8, 2), (17, 16)]
     ready (hostState c) c = true ∧ ¬ c.arg 8 1 ≤ 1) ∧
    (∀ k ∈ [0, 3], let c := aqCmd 0x85 [(9, k), (17, 16)]
      ready (hostState c) c = true ∧ c.arg 8 1 ≤ 1 ∧ c.arg 9 1 ≤ 3 ∧ c.arg 12 4 % 4096 = 0 ∧ c.arg 16 4 % 4096 = 0 ∧ 4096 ≤ c.arg 16 4 ∧
        c.arg 16 4 ≤ 65536 ∧ c.arg 12 4 + c.arg 16 4 ≤ 16777216 ∧ (hostState c).fwSlotBusy (c.arg 9 1) = decide (k = 0)) ∧
    (∀ k ∈ [3, 4], let c := aqCmd 0x86 [(8, k), (10, 255), (11, 15), (12, 7)]
      ready (hostState c) c = true ∧ c.fwSlot = k ∧ c.fwRegs ≤ 4095 ∧ c.fwAction ≤ 7) ∧
    (∀ e ∈ [0, 1, 2, 3, 4], let c := aqCmd 0x8A [(8, 63), (9, e)]
      ready (hostState c) c = true ∧ c.arg 8 1 ≤ 63 ∧ c.arg 9 1 = e) ∧
    (let c := aqCmd 0x8A [(8, 63), (9, 1)]
     (hostState c).keyRefused (c.arg 8 1) (c.arg 12 4) true ((c.arg 9 1).testBit 1) = none ∧
      (((hostState c).wr (F.sflVolSize 63) 1).wr (F.sflVolCfg_aes 63) 1 |>.wr (F.sflVolCfg_key 63) 63).keyRefused (c.arg 8 1) (c.arg 12 4) true
        ((c.arg 9 1).testBit 1) = some 0x8C) ∧
    (let c := aqCmd 0x8A [(8, 64), (9, 1)]
     ready (hostState c) c = true ∧ 63 < c.arg 8 1) := by decide +kernel

/-- FW_COMMIT of the blank part's slot 0 for every region, in its check. -/
def fwCmd (slot action : Nat) : Cmd := { aqCmd 0x86 [(8, slot), (10, 255), (11, 15), (12, action)] with started := true, phase := 1 }

theorem witness_FirmwareChecks :
    (let c := fwCmd 3 1
     let d := hostState c
     d.cmdOf 0 1 = some c ∧ d.cmdAt c.arrival = some c ∧ c.op = 0x86 ∧ c.verdict = none ∧ c.fwSlot < 4 ∧ d.fwFormOk 3 = false) ∧
    (∀ a ∈ [1, 2, 4, 6], let c := fwCmd 0 a
      let d := hostState c
      d.cmdOf 0 1 = some c ∧ d.cmdAt c.arrival = some c ∧ c.fwSlot < 4 ∧ c.fwRegs ≠ 0 ∧ c.fwAction = a ∧ d.fwFormOk 0 = true ∧
        ¬ d.fwSvn 0 < d.mram.svnFloor) := by decide +kernel
theorem witness_fwCheck_refused : (hostState (fwCmd 3 1)).fwCheck 3 0xFFF 1 = some 0x81 := by
  have h : (hostState (fwCmd 3 1)).fwFormOk 3 = false := by decide +kernel
  simp [Dev.fwCheck, Dev.fwImageOk, h]
/-- Whether an image's signature passes is a free value: where it does, the check passes. -/
theorem witness_fwCheck_passes (h : (hostState (fwCmd 0 1)).fwImageOk 0 = true) (a : Nat) (ha : a ∈ [1, 2, 4, 6]) :
    (hostState (fwCmd 0 1)).fwCheck 0 0xFFF a = none := by
  have k (act : Nat) (hact : act ∈ [1, 2, 4, 6]) :
      decide ((hostState (fwCmd 0 1)).fwSvn 0 < (hostState (fwCmd 0 1)).mram.svnFloor) = false ∧
      ((List.range 12).any (fun r => (0xFFF).testBit r && !((hostState (fwCmd 0 1)).fwRegions 0).testBit r)) = false ∧
      (List.range 12).any (fun r => decide ((hostState (fwCmd 0 1)).rd (F.pltFwReg_state r) ≠ 0)) = false ∧
      (List.range 12).any (fun r => !(0xFFF).testBit r &&
        decide ((hostState (fwCmd 0 1)).fwIface ((hostState (fwCmd 0 1)).rd (F.pltFwReg_active r)) ≠ (hostState (fwCmd 0 1)).fwIface 0)) = false := by
    decide +kernel +revert
  obtain ⟨k1, k2, k3, k4⟩ := k a ha
  simp only [Dev.fwCheck, h, k2, k3, k4, of_decide_eq_false k1]
  simp

theorem witness_FirmwareActivates :
    (mk id).dev.plat.activation = none ∧
    (let a : Activation := ⟨0xFFF, 3, true, true, 0, none, none, 1⟩
     let d (t : Nat) := (plat fun p => { p with activation := some a, tick := t }).dev
     (d 120).plat.activation = some a ∧ a.th = none ∧ (d 120).now ≤ a.ta + 120 ∧ a.ta + 120 < (d 121).now ∧ a.ta + 120 ≤ (d 120).now ∧
      (d 119).now < a.ta + 120) ∧
    (let a : Activation := ⟨0xFFF, 3, true, true, 0, some 120, some 199, 1⟩
     a.th = some 120 ∧ a.quiet = some 199 ∧ a.slot < 4 ∧ (plat fun p => { p with activation := some a }).dev.plat.activation = some a) ∧
    (let a : Activation := ⟨0xFFF, 3, true, true, 0, some 120, none, 1⟩
     let d (t : Nat) := (plat fun p => { p with activation := some a, tick := t }).dev
     a.th = some 120 ∧ a.quiet = none ∧ (d 199).now + 1 ≤ 120 + 80 ∧ (d 199).now + 1 ≤ a.ta + 200 ∧ (d 199).fwQuiet a.regions = true ∧
      120 + 80 < (d 200).now + 1 ∧ 120 + 79 ≤ (d 199).now ∧ (d 198).now < 120 + 79 ∧ (d 198).now < a.ta + 199) := by decide

/-! ## What every step keeps -/

theorem witness_EveryStepKeepsForm : State.reset.wf = true ∧ step State.reset = .next State.reset :=
  ⟨by decide, rfl⟩

theorem witness_EveryStepHolds :
    (∃ t, exec (.tickBoundary ⟨0, 0, [], [], [], []⟩) (plat fun p => { p with boot := .ready }) = .next t) ∧
    (plat fun p => { p with boot := .ready, safe := true }).dev.plat.safe = true ∧
    (plat fun p => { p with boot := .ready, safe := true }).dev.plat.boot ≠ .reset := ⟨⟨_, rfl⟩, by decide, by decide⟩

/-! ## What WellFormed refuses -/

/-- A term that each check refuses. -/
theorem test_wf_refuses_1 : ∀ c ∈ (
    [.tickBoundary ⟨0, 0, List.replicate 9 0, [], [], []⟩, .tickBoundary ⟨0, 0, [], List.replicate 14 0, [], []⟩,
      .tickBoundary ⟨0, 0, [], [], List.replicate 5 ⟨0, 0, 0, [], false⟩, []⟩, .tickBoundary ⟨0, 0, [], [], [], [⟨12, 0, false⟩]⟩,
      .tickBoundary ⟨0, 0, [], [], [], [⟨0, 131072, false⟩]⟩, .computeWindowClose (.servo 12 []), .computeWindowClose (.servo 0 [23]),
      .computeWindowClose (.dtc 4), .computeWindowClose (.step 8), .computeWindowClose (.tap 9), .selfCheckVerdict 4 [], .refclkPhaseStep 2500,
      .registerWrite ⟨0x1000000, 0, 4, 0⟩, .registerWrite ⟨0, 0, 9, 0⟩, .registerWrite ⟨0, 2 ^ 32, 4, 0⟩, .registerWrite ⟨0, 0, 4, 2500⟩,
      .readClearRead ⟨0x1000000, 4⟩, .readClearRead ⟨0, 0⟩, .latchedLoRead ⟨0x1000000, 8⟩, .latchedLoRead ⟨0, 9⟩, .errorInject 0xC00000 0, .errorInject 1 0,
      .errorInject 0 (2 ^ 32), .fenceConfirm 0xC00000, .fenceConfirm 1, .fenceTimeout 0xC00000, .fenceTimeout 1, .pgCommitKey 0xC00000 0,
      .pgCommitKey 1 0, .pgCommitKey 0 2500, .pgCommitCancel 0xC00000 0, .pgCommitCancel 1 0, .pgCommitCancel 0 2500, .groupCommit 64 0,
      .groupCommit 0 2500, .groupCancel 64 0, .groupCancel 0 2500, .commitApply 0xC00000, .commitApply 1, .mbbBuildComplete 0xC00000 0,
      .mbbBuildComplete 1 0, .mbbBuildComplete 0 2500, .mbbSwitch 0xC00000, .mbbSwitch 1,
      .mbbBuildFail 0xC00000] : List Instr), c.wf = false := by decide
/-- A term that each check refuses. -/
theorem test_wf_refuses_2 : ∀ c ∈ (
    [.mbbBuildFail 1, .mbbTeardownDone 0xC00000, .mbbTeardownDone 1, .unitEnable 0xC00000 false, .unitEnable 1 false, .unitDisable 0xC00000,
      .unitDisable 1, .unitQuiesce 0xC00000, .unitQuiesce 1, .unitResume 0xC00000, .unitResume 1, .unitIsolate 0xC00000, .unitIsolate 1,
      .unitDeisolate 0xC00000 false, .unitDeisolate 1 false, .quiesceComplete 0xC00000, .quiesceComplete 1, .quiesceTimeout 0xC00000,
      .quiesceTimeout 1, .jdmCompatWrite 4 false, .railStateChange 8 0, .railStateChange 0 (2 ^ 16), .railOutTimeout 8, .laneCdrLock 80,
      .laneSyncLock ⟨80, 0⟩, .amReceived 80 ⟨0, 0, 0, 0, 0, 0⟩, .amReceived 0 ⟨16, 0, 0, 0, 0, 0⟩, .amReceived 0 ⟨0, 5, 0, 0, 0, 0⟩,
      .amReceived 0 ⟨0, 0, 16, 0, 0, 0⟩, .amReceived 0 ⟨0, 0, 0, 2 ^ 24, 0, 0⟩, .amReceived 0 ⟨0, 0, 0, 0, 0, 2 ^ 32⟩, .laneSyncLock ⟨0, (2 ^ 32)⟩, .laneLost ⟨0, (2 ^ 32)⟩,
      .laneSignalLoss ⟨0, (2 ^ 32)⟩, .laneLost ⟨80, 0⟩, .laneSignalLoss ⟨80, 0⟩, .podReceived ⟨32, 0, 0, [], 0, 0⟩,
      .podReceived ⟨0, 2, 0, [], 0, 0⟩, .podReceived ⟨0, 0, 16, [], 0, 0⟩, .podReceived ⟨0, 0, 0, [], 2500, 0⟩, .podReceived ⟨0, 0, 0, [], 0, 16⟩, .podPayloadWritten 32 0 0,
      .podPayloadWritten 0 2 0, .podPayloadWritten 0 0 (2 ^ 32), .creditPodPeriodic 32 0, .creditPodPeriodic 0 2, .pairingTimeout 32 0,
      .pairingTimeout 0 (2 ^ 32), .frameComplete 32 0, .frameComplete 0 (2 ^ 32)] : List Instr), c.wf = false := by decide
/-- A term that each check refuses. -/
theorem test_wf_refuses_3 : ∀ c ∈ (
    [.timeout 32 0, .timeout 0 (2 ^ 32), .sesCtrlArm 32, .sesCtrlTrigger 32 0, .sesCtrlTrigger 0 2500, .sesCtrlStop 32, .sesCtrlDisarm 32,
      .trgEdge 4 0 false, .trgEdge 0 250 false, .sessionStateApply 32, .postExpiry 32, .takeSealed 32, .ltcFrameDecoded (2 ^ 32) 1 0,
      .ltcFrameDecoded 0 5 0, .ltcFrameDecoded 0 1 250, .drainFrameEnd 32 0, .drainFrameEnd 0 (2 ^ 32), .frameDurable 32 0,
      .frameDurable 0 (2 ^ 32), .engineKnownAnswerCheck (.codec 16) false, .engineKnownAnswerCheck (.sha 8) false,
      .engineKnownAnswerCheck (.stripe 16) false, .engineKnownAnswerCheck (.ldpc 24) false, .stackTrained 4 false 0,
      .storeRead ⟨2 ^ 38, [], 0, false, none, .good⟩, .storeRead ⟨0, [(72, 1)], 0, false, none, .good⟩, .storeRead ⟨0, [(0, 256)], 0, false, none, .good⟩,
      .storeWrite ⟨2 ^ 38, [], false, 0, 0, none, .good⟩, .storeWrite ⟨0, zeros 65, false, 0, 0, none, .good⟩, .storeWrite ⟨1, zeros 64, false, 0, 0, none, .good⟩,
      .storeWrite ⟨0, [], false, 4, 0, none, .good⟩, .zeroFillDone (2 ^ 22), .narrowWrite ⟨2 ^ 38, [], false, 0, 0, none, .good⟩,
      .narrowWrite ⟨0, zeros 65, false, 0, 0, none, .good⟩, .narrowWrite ⟨1, zeros 64, false, 0, 0, none, .good⟩, .narrowWrite ⟨0, [], false, 4, 0, none, .good⟩,
      .mergeClose ⟨2 ^ 38, [], 0, false, none, .good⟩, .mergeClose ⟨0, [(72, 1)], 0, false, none, .good⟩, .mergeClose ⟨0, [(0, 256)], 0, false, none, .good⟩,
      .bpmGrant 16 [], .bpmFree 64 (.handle 0), .bpmFree 0 (.handle (2 ^ 32)), .bpmFree 0 (.addr (2 ^ 38)), .freeComplete (2 ^ 22),
      .bpmRelease 64 (.handle 0)] : List Instr), c.wf = false := by decide
/-- A term that each check refuses. -/
theorem test_wf_refuses_4 : ∀ c ∈ (
    [.bpmRelease 0 (.handle (2 ^ 32)), .bpmRelease 0 (.addr (2 ^ 38)), .bpmShare 64 (.handle 0) 0 0, .bpmShare 0 (.handle (2 ^ 32)) 0 0,
      .bpmShare 0 (.addr (2 ^ 38)) 0 0, .bpmShare 0 (.handle 0) (2 ^ 64) 0, .bpmShare 0 (.handle 0) 0 64, .bpmTransfer 64 (.handle 0) 0,
      .bpmTransfer 0 (.handle (2 ^ 32)) 0, .bpmTransfer 0 (.addr (2 ^ 38)) 0, .bpmTransfer 0 (.handle 0) 64, .bpmHostwSet 64 (.handle 0),
      .bpmHostwSet 0 (.handle (2 ^ 32)), .bpmHostwSet 0 (.addr (2 ^ 38)), .bpmHostwClr 64 (.handle 0), .bpmHostwClr 0 (.handle (2 ^ 32)),
      .bpmHostwClr 0 (.addr (2 ^ 38)), .cacheRead ⟨10, 0, [], 0, .none⟩, .cacheRead ⟨0, 2 ^ 38, [], 0, .none⟩,
      .cacheRead ⟨0, 1, zeros 64, 0, .none⟩, .cacheWrite ⟨10, 0, [], 0, .none⟩, .cacheWrite ⟨0, 2 ^ 38, [], 0, .none⟩,
      .cacheWrite ⟨0, 1, zeros 64, 0, .none⟩, .cacheFillDone ⟨2 ^ 38, [], 0, false, none, .good⟩, .cacheFillDone ⟨0, [(72, 1)], 0, false, none, .good⟩,
      .cacheFillDone ⟨0, [(0, 256)], 0, false, none, .good⟩, .prefetchArrival ⟨2 ^ 38, [], 0, false, none, .good⟩,
      .prefetchArrival ⟨0, [(72, 1)], 0, false, none, .good⟩, .prefetchArrival ⟨0, [(0, 256)], 0, false, none, .good⟩, .writebackAck (2 ^ 38),
      .mergeBufDrain (2 ^ 38), .forwardedWrite ⟨2 ^ 38, [], false, 0, 0, none, .good⟩, .forwardedWrite ⟨0, zeros 65, false, 0, 0, none, .good⟩,
      .forwardedWrite ⟨1, zeros 64, false, 0, 0, none, .good⟩, .forwardedWrite ⟨0, [], false, 4, 0, none, .good⟩, .mcClean (2 ^ 38) 0, .mcClean 0 (2 ^ 32),
      .mcInv (2 ^ 38) 0, .mcInv 0 (2 ^ 32), .mcDiscard (2 ^ 38) 0, .mcDiscard 0 (2 ^ 32), .channelTrained 32 false [], .zqCalTimer 32,
      .dieTempRead 32 0 0 0, .dieTempRead 0 8 0 0] : List Instr), c.wf = false := by decide
/-- A term that each check refuses. -/
theorem test_wf_refuses_5 : ∀ c ∈ (
    [.dieTempRead 0 0 8 0, .dieTempRead 0 0 0 128, .flashProgramDone (2 ^ 39) false, .flashEraseDone (2 ^ 25) 0, .flashEraseDone 0 (2 ^ 32),
      .flashReadDone (2 ^ 39) ⟨0, 0⟩ [], .flashReadDone 0 ⟨5, 0⟩ [], .flashReadDone 0 ⟨0, 9⟩ [], .flashOpTimeout (2 ^ 39), .mapPageLoaded (2 ^ 22), .mapPairWait (2 ^ 22),
      .sflJrnFlush (2 ^ 32), .sflJrnCkpt (2 ^ 32), .sflTimeWrite (2 ^ 32), .gcSourceSelect 8, .gcUnitCopy 8, .eraseStart (2 ^ 25),
      .fillWaitExpiry (2 ^ 25) 0, .fillWaitExpiry 0 4096, .rebuildUnitMove 8 [], .reshapeUnitMove 8, .discParityAdd 16 0 0, .discParityAdd 0 10 0,
      .discParityAdd 0 0 16384, .discRunCovered 16, .discIdentify 4 ⟨true, false, [], [], [], [], [], 0, true⟩,
      .discIdentify 0 ⟨true, false, [], [], [], [(0, [])], [], 0, true⟩, .discUnload 4, .sampleFrame ⟨⟨4, [], 0⟩, [], 0, 0, 0, [], [], [], [], []⟩,
      .sampleFrame ⟨⟨0, [], 0⟩, [], 0, 0, 0, List.replicate 16 0, [], [], [], []⟩,
      .sampleFrame ⟨⟨0, [], 0⟩, [], 0, 0, 0, [], List.replicate 4 0, [], [], []⟩,
      .sampleFrame ⟨⟨0, [], 0⟩, [], 0, 0, 0, [], [], List.replicate 4 0, [], []⟩, .servoFrame ⟨4, [], 0⟩, .servoFrame ⟨0, [], 2500⟩,
      .statusFrame ⟨4, [], 0⟩, .statusFrame ⟨0, [], 2500⟩, .ldpcDecodeStart 24, .ldpcDecodeDone 24, .recoveryLevelStart 4 0,
      .recoveryLevelStart 0 (2 ^ 32), .bandrowCommit ⟨4, 0, 0, true⟩, .shockInput 4 0, .shockInput 0 2500, .reallocRecord ⟨4, 0, 0, true⟩,
      .focusConfirmed 4, .focusSweepEnd 4] : List Instr), c.wf = false := by decide
/-- A term that each check refuses. -/
theorem test_wf_refuses_6 : ∀ c ∈ (
    [.focusLost 4, .jumpKickEnd 4, .jumpBrakeEnd 4, .jumpFail 4, .seekTrajectoryEnd 4, .settleComplete 4, .seekFail 4, .retractComplete 4,
      .servoStale 4, .deadline 4 0, .deadline 0 23, .srvCsDataWrite 4 0, .srvCsDataWrite 0 (2 ^ 32), .srvCsDataRead 4, .seedBringupDone 12 false,
      .sproutDue 4, .srvRedCtrlSprout (2 ^ 32), .sproutStart 4, .sproutSwitch 4, .selftestDone 12 false, .spinUpRequest 4,
      .spindleMeasurementDone 4 ⟨0, 0, 0⟩, .spindleMeasurementDone 0 ⟨65536, 0, 0⟩, .alignmentDone 4 [] 0 0, .syncConfirmed 4, .atSpeedReached 4,
      .obsLost 4, .recatchFail 4, .startFail 4, .controlledStop 4, .standstill 4, .stopFail 4, .overcurrent 4, .dcLow 4, .stepTimerExpiry 8,
      .holdCurrentTimer 8, .chopperComparator 8 0 0 0 0 0 0, .chopperComparator 0 2 0 0 0 0 0, .stCmdMove 8, .stCmdHome 8, .stCmdStop 8,
      .stCmdPark 8, .homeInput 8 false, .homeFail 8, .limitInput 8 0 false] : List Instr), c.wf = false := by decide
/-- A term that each check refuses. -/
theorem test_wf_refuses_7 : ∀ c ∈ (
    [.limitInput 0 2 false, .motCtrlEstopClr (2 ^ 32), .chatter 35, .chatterClear 35 false, .inStuck 4, .genlockEdge false 250, .calRun (2 ^ 32),
      .calRunAbort (2 ^ 32), .calMeasureStart 9, .vrefcalCheck (2 ^ 16), .cxlMemRead ⟨2 ^ 38, [], 0, false, none, .good⟩,
      .cxlMemRead ⟨0, [(72, 1)], 0, false, none, .good⟩, .cxlMemRead ⟨0, [(0, 256)], 0, false, none, .good⟩, .cxlMemWrite ⟨2 ^ 38, [], false, 0, 0, none, .good⟩,
      .cxlMemWrite ⟨0, zeros 65, false, 0, 0, none, .good⟩, .cxlMemWrite ⟨1, zeros 64, false, 0, 0, none, .good⟩, .cxlMemWrite ⟨0, [], false, 4, 0, none, .good⟩,
      .cxlMemSpecRead (2 ^ 38), .cxlMemInv (2 ^ 38), .hdmDecoderCommit 2 0 0, .capsuleSlotWrite 64 0 [], .hatSqdb 64 0, .hatSqdb 0 (2 ^ 32),
      .hatRhdb 64 0, .hatRhdb 0 (2 ^ 32), .msixAggTimer 64, .hatAqEnable (2 ^ 32), .hatAqDisable (2 ^ 32), .write 64 0, .write 0 (2 ^ 16),
      .read 64 0, .read 0 (2 ^ 16), .flush 64 0, .flush 0 (2 ^ 16), .frameRead 64 0, .frameRead 0 (2 ^ 16), .rangeRelease 64 0,
      .rangeRelease 0 (2 ^ 16), .migrate 64 0, .migrate 0 (2 ^ 16), .verify 64 0, .verify 0 (2 ^ 16), .mountShell 64 0, .mountShell 0 (2 ^ 16),
      .ejectShell 64 0] : List Instr), c.wf = false := by decide
/-- A term that each check refuses. -/
theorem test_wf_refuses_8 : ∀ c ∈ (
    [.ejectShell 0 (2 ^ 16), .arm 64 0, .arm 0 (2 ^ 16), .trigger 64 0 0, .trigger 0 (2 ^ 16) 0, .trigger 0 0 2500, .stop 64 0, .stop 0 (2 ^ 16),
      .dataDone 64 0 0, .dataDone 0 (2 ^ 16) 0, .dataDone 0 0 (2 ^ 16), .release 64 0 0, .release 0 (2 ^ 16) 0, .release 0 0 (2 ^ 16),
      .rangeLockGranted 64 0, .rangeLockGranted 0 (2 ^ 16), .queueCreate (2 ^ 16), .queueDelete (2 ^ 16), .queueReset (2 ^ 16), .queueResetDone 64,
      .linkTrained 1 4 1, .getLsa (2 ^ 32) 0, .getLsa 0 (2 ^ 32), .setLsa (2 ^ 32) [], .identify (2 ^ 16), .getLog (2 ^ 16), .setFeature (2 ^ 16),
      .getFeature (2 ^ 16), .fwDownload (2 ^ 16), .fwCommit (2 ^ 16), .keyLoad (2 ^ 16), .profileNextWrite (2 ^ 32), .railValid 8 0,
      .startup ⟨false, false, false, false, false, false, [], [], List.replicate 12 true, List.replicate 4 true⟩,
      .startup ⟨false, false, false, false, false, false, List.replicate 4 (true, 0), [(2, 0)], List.replicate 12 true, List.replicate 4 true⟩,
      .startup ⟨false, false, false, false, false, false, List.replicate 4 (true, 0), [(0, 65536)], List.replicate 12 true, List.replicate 4 true⟩,
      .startup ⟨false, false, false, false, false, false, List.replicate 4 (true, 0), [], [], List.replicate 4 true⟩,
      .startup ⟨false, false, false, false, false, false, List.replicate 4 (true, 0), [], List.replicate 12 true, []⟩, .ready (2 ^ 16),
      .fwCommitCheckEnd (2 ^ 16), .ringFull 64, .shockRelease 4, .outputDispatch [⟨12, 0, none, none, false⟩],
      .outputDispatch [⟨0, 23, none, none, false⟩], .selfCheckVerdict 0 (List.replicate 4 true)] : List Instr), c.wf = false := by decide
/-- A term that each check refuses. -/
theorem test_wf_refuses_9 : ∀ c ∈ (
    [.ltcFrameDecoded 0 0 0, .bpmGrant 0 [⟨64, 0⟩], .bpmGrant 0 [⟨0, 4⟩], .scrubTick [⟨2 ^ 38, [], 0, false, none, .good⟩],
      .channelTrained 0 true [⟨8, 0, 0, 0, 0, 0, []⟩], .dieTempRead 0 0 0 (-129), .capsuleSlotWrite 0 0 (zeros 65),
      .capsuleSlotWrite 0 (2 ^ 18) (zeros 1), .linkTrained 0 1 1, .linkTrained 1 0 1, .linkTrained 1 1 3, .fenceConfirm (2 ^ 32 + 2128 * 4096),
      .fenceConfirm (2 ^ 32 + 1), .fenceTimeout (2 ^ 32 + 2128 * 4096)] : List Instr), c.wf = false := by decide
/-- The same commands with operands in range. -/
theorem test_wf_accepts_1 : ∀ c ∈ (
    [.tickBoundary ⟨0, 0, [], [], [], []⟩, .computeWindowClose (.dtc 0), .outputDispatch [], .selfCheckVerdict 0 [], .refclkPhaseStep 0,
      .registerWrite ⟨0, 0, 4, 0⟩, .readClearRead ⟨0, 4⟩, .latchedLoRead ⟨0, 8⟩, .errorInject 0 0, .fenceConfirm 0, .fenceTimeout 0, .pgCommitKey 0 0,
      .pgCommitCancel 0 0, .groupCommit 0 0, .groupCancel 0 0, .commitApply 0, .mbbBuildComplete 0 0, .mbbSwitch 0, .mbbBuildFail 0,
      .mbbTeardownDone 0, .unitEnable 0 false, .unitDisable 0, .unitQuiesce 0, .unitResume 0, .unitIsolate 0, .unitDeisolate 0 false,
      .quiesceComplete 0, .quiesceTimeout 0, .jdmCompatWrite 0 false, .railStateChange 0 0, .railOutTimeout 0, .laneCdrLock 0, .laneSyncLock ⟨0, 0⟩,
      .amReceived 0 ⟨0, 0, 0, 0, 0, 0⟩, .laneLost ⟨0, 0⟩, .laneSignalLoss ⟨0, 0⟩, .podReceived ⟨0, 0, 0, [], 0, 0⟩, .podPayloadWritten 0 0 0,
      .creditPodPeriodic 0 0, .pairingTimeout 0 0, .frameComplete 0 0, .timeout 0 0, .sesCtrlArm 0, .sesCtrlTrigger 0 0,
      .sesCtrlStop 0] : List Instr), c.wf = true := by decide
/-- The same commands with operands in range. -/
theorem test_wf_accepts_2 : ∀ c ∈ (
    [.sesCtrlDisarm 0, .trgEdge 0 0 false, .sessionStateApply 0, .postExpiry 0, .takeSealed 0, .ltcFrameDecoded 0 1 0, .drainFrameEnd 0 0,
      .frameDurable 0 0, .engineKnownAnswerCheck (.codec 0) false, .stackTrained 0 false 0, .storeRead ⟨0, [], 0, false, none, .good⟩,
      .storeWrite ⟨0, [], false, 0, 0, none, .good⟩, .zeroFillDone 0, .narrowWrite ⟨0, [], false, 0, 0, none, .good⟩, .mergeClose ⟨0, [], 0, false, none, .good⟩,
      .scrubTick [], .bpmGrant 0 [], .bpmFree 0 (.handle 0), .freeComplete 0, .bpmRelease 0 (.handle 0), .bpmShare 0 (.handle 0) 0 0,
      .bpmTransfer 0 (.handle 0) 0, .bpmHostwSet 0 (.handle 0), .bpmHostwClr 0 (.handle 0), .cacheRead ⟨0, 0, [], 0, .none⟩,
      .cacheWrite ⟨0, 0, [], 0, .none⟩, .cacheFillDone ⟨0, [], 0, false, none, .good⟩, .prefetchArrival ⟨0, [], 0, false, none, .good⟩, .writebackAck 0,
      .mergeBufDrain 0, .forwardedWrite ⟨0, [], false, 0, 0, none, .good⟩, .mcClean 0 0, .mcInv 0 0, .mcDiscard 0 0, .channelTrained 0 false [],
      .zqCalTimer 0, .dieTempRead 0 0 0 0, .flashProgramDone 0 false, .flashEraseDone 0 0, .flashReadDone 0 ⟨0, 0⟩ [], .flashOpTimeout 0,
      .mapPageLoaded 0, .mapPairWait 0, .sflJrnFlush 0, .sflJrnCkpt 0] : List Instr), c.wf = true := by decide
/-- The same commands with operands in range. -/
theorem test_wf_accepts_3 : ∀ c ∈ (
    [.sflTimeWrite 0, .gcSourceSelect 0, .gcUnitCopy 0, .eraseStart 0, .fillWaitExpiry 0 0, .rebuildUnitMove 0 [], .reshapeUnitMove 0,
      .discParityAdd 0 0 0, .discRunCovered 0, .discIdentify 0 ⟨true, false, [], [], [], [], [], 0, true⟩, .discUnload 0,
      .sampleFrame ⟨⟨0, [], 0⟩, [], 0, 0, 0, [], [], [], [], []⟩, .servoFrame ⟨0, [], 0⟩, .statusFrame ⟨0, [], 0⟩, .ldpcDecodeStart 0,
      .ldpcDecodeDone 0, .recoveryLevelStart 0 0, .bandrowCommit ⟨0, 0, 0, true⟩, .shockInput 0 0, .reallocRecord ⟨0, 0, 0, true⟩,
      .focusConfirmed 0, .focusSweepEnd 0, .focusLost 0, .jumpKickEnd 0, .jumpBrakeEnd 0, .jumpFail 0, .seekTrajectoryEnd 0, .settleComplete 0,
      .seekFail 0, .retractComplete 0, .servoStale 0, .deadline 0 0, .srvCsDataWrite 0 0, .srvCsDataRead 0, .seedBringupDone 0 false, .sproutDue 0,
      .srvRedCtrlSprout 0, .sproutStart 0, .sproutSwitch 0, .selftestDone 0 false, .spinUpRequest 0, .spindleMeasurementDone 0 ⟨0, 0, 0⟩,
      .alignmentDone 0 [] 0 0, .syncConfirmed 0, .atSpeedReached 0] : List Instr), c.wf = true := by decide
/-- The same commands with operands in range. -/
theorem test_wf_accepts_4 : ∀ c ∈ (
    [.obsLost 0, .recatchFail 0, .startFail 0, .controlledStop 0, .standstill 0, .stopFail 0, .overcurrent 0, .dcLow 0, .stepTimerExpiry 0,
      .holdCurrentTimer 0, .chopperComparator 0 0 0 0 0 0 0, .stCmdMove 0, .stCmdHome 0, .stCmdStop 0, .stCmdPark 0, .homeInput 0 false,
      .homeFail 0, .limitInput 0 0 false, .motCtrlEstopClr 0, .chatter 0, .chatterClear 0 false, .inStuck 0, .genlockEdge false 0, .calRun 0,
      .calRunAbort 0, .calMeasureStart 0, .vrefcalCheck 0, .cxlMemRead ⟨0, [], 0, false, none, .good⟩, .cxlMemWrite ⟨0, [], false, 0, 0, none, .good⟩,
      .cxlMemSpecRead 0, .cxlMemInv 0, .hdmDecoderCommit 0 0 0, .capsuleSlotWrite 0 0 [], .hatSqdb 0 0, .hatRhdb 0 0, .msixAggTimer 0,
      .hatAqEnable 0, .hatAqDisable 0, .write 0 0, .read 0 0, .flush 0 0, .frameRead 0 0, .rangeRelease 0 0, .migrate 0 0,
      .verify 0 0] : List Instr), c.wf = true := by decide
/-- The same commands with operands in range. -/
theorem test_wf_accepts_5 : ∀ c ∈ (
    [.mountShell 0 0, .ejectShell 0 0, .arm 0 0, .trigger 0 0 0, .stop 0 0, .dataDone 0 0 0, .release 0 0 0, .rangeLockGranted 0 0, .queueCreate 0,
      .queueDelete 0, .queueReset 0, .queueResetDone 0, .linkTrained 1 1 1, .getLsa 0 0, .setLsa 0 [], .identify 0, .getLog 0, .setFeature 0,
      .getFeature 0, .fwDownload 0, .fwCommit 0, .keyLoad 0, .profileNextWrite 0, .railValid 0 0,
      .startup ⟨false, false, false, false, false, false, List.replicate 4 (true, 0), [], List.replicate 12 true, List.replicate 4 true⟩, .ready 0,
      .fwCommitCheckEnd 0, .ringFull 0, .shockRelease 0] : List Instr), c.wf = true := by decide

/-! ## Results that the manual works out

Each value is one that the named section of spec/ states, or a sum done by hand from a rule named. -/

/-- "Archive discs", Example: unit 3 of band-row 5 on disc 2 of catalogue index 0x002A. -/
theorem test_disc_entry : entDisc 0x2A 2 5 3 false 0 = 0x4000002A20000017 := by decide
/-- The same example's disc: 65,536 user and 1,312 spare slots in each zone, zone 4 at band 11,520 with 560 frames. -/
def discE (ents : List DdlEnt) : DiscSt :=
  { discL with zones := List.replicate 16 ⟨11520, 2, 8300, 560, 65536, 1312⟩, ents := ents }
theorem test_slot_of_brow : (discE []).plocOf 300000 = 305248 ∧ (discE []).slotPlace 0 305248 = ⟨0, 14088, 448⟩ ∧
    (discE []).slotPlace 0 305249 = ⟨0, 14088, 486⟩ := by decide +kernel
/-- After the slip of band-row 300,000, band-row 300,010 lies at slot 305,259, and 327,680 of zone 5 where it lay. -/
theorem test_slot_after_slip :
    (discE [⟨2, true, 0x22, 300000, 305248, 0, 0, 0⟩]).plocOf 300010 = 305259 ∧
    (discE [⟨2, true, 0x22, 300000, 305248, 0, 0, 0⟩]).plocOf 327680 = (discE []).plocOf 327680 := by decide +kernel
/-- "The read channel", Example: 640 frames at 7,000 rpm; P0 of slot 412,357 on beam 8, P1 on 9, sectors 3 and 10 on beams 3 and 12. -/
theorem test_sample_rate : sampleRate 640 7000 = 324950 := by decide
theorem test_beams_of_slot : [16, 17, 3, 10].map (beamOf false 412357) = [8, 9, 3, 12] := by decide
/-- CRC-32C of the nine digits, the check value that the polynomial is published with. -/
theorem test_crc32c_digits : crc32c ([0x31, 0x32, 0x33, 0x34, 0x35, 0x36, 0x37, 0x38, 0x39]) = 0xE3069283 := by decide +kernel

/-! ## Single steps -/

/-- What a single command leaves, read through `f`. -/
def after {α : Type} (c : Instr) (s : State) (f : Dev → α) : Option α :=
  match exec c s with
  | .next t => some (f t.dev)
  | _ => none

/-- R14: a boundary advances the tick by one, R8: through 32 bits. -/
theorem test_tick : after (.tickBoundary ⟨400, 0, [], [], [], []⟩) (plat fun p => { p with boot := .ready, tick := 0xFFFFFFFF })
    (fun d => d.plat.tick.toNat) = some 0x100000000 := by decide +kernel
/-- R9: a read of LO holds HI for the read that follows. -/
theorem test_lo_then_hi : after .pltTickLoRead (plat fun p => { p with tick := 0x500000007 }) (fun d => (d.readVal, d.raw F.pltTickHi.addr)) =
    some (7, 5) := by decide +kernel
/-- R36: an access that is not 4-aligned is ignored and counted in the page's PG_CNT_ERR. -/
theorem test_unaligned_write : after (.registerWrite ⟨0x7142, 1, 4, 0⟩) (mk id) (fun d => (d.ignoredCount 0x7000, d.raw 0x7140 == resetVal 0x7140)) =
    some (1, true) := by decide +kernel
/-- R113: a read of a stack that does not serve delivers zeros, Hollow. -/
theorem test_store_read_off : after (.storeRead (cleanRead 128)) (mk id) (·.out) = some [.line 128 (zeros 64) true] := by decide +kernel
/-- R110: a symbol in error is corrected, whatever the error. -/
theorem test_line_corrected : readForms 64 (zeros 64) false [(63, 0x80)] = ⟨zeros 64, false, true, false⟩ := by decide +kernel
/-- R447, R448: a queue that holds no command of that CID is unchanged. -/
theorem test_no_command : after (.write 63 65535) (mk id) (fun d => d == Dev.reset) = some true := by decide +kernel
/-- R444: the label area reads as written, and not past its 131,072 bytes. -/
theorem test_label_area : after (.setLsa 131070 [5, 6]) ⟨linkState 1 0 id, []⟩ (fun d => Map.getRun 0 d.mram.lsa 131069 3) = some [0, 5, 6] ∧
    after (.setLsa 131071 [5, 6]) ⟨linkState 1 0 id, []⟩ (fun d => (d.mram.lsa.length, d.out.length)) = some (0, 1) := by decide +kernel
/-- R410: ESTOP latches, and the release of the pin does not clear it. -/
theorem test_estop_latches : after .estop (mk id) (·.flag F.motStat_estop) = some true ∧
    after .estopNRelease (mk fun d => d.wr F.motStat_estop 1) (·.flag F.motStat_estop) = some true := by decide +kernel

end Sys2Proof.Tests
end

section
/-! SUPPORT. Bit fields bit by bit, the registers of the table, and where a page can lie. -/
namespace Sys2Proof.Machine
open Sys2Proof

/-! ## Bit fields -/

theorem testBit_bitsOf (n hi lo i : Nat) : (bitsOf n hi lo).testBit i = (decide (i < hi + 1 - lo) && n.testBit (lo + i)) := by
  simp [bitsOf, Nat.testBit_mod_two_pow, Nat.testBit_shiftRight]

/-- A field reads the same in two numbers that agree on its bits. -/
theorem bitsOf_congr {m n hi lo : Nat} (h : ∀ i, lo ≤ i → i ≤ hi → m.testBit i = n.testBit i) : bitsOf m hi lo = bitsOf n hi lo := by
  refine Nat.eq_of_testBit_eq fun i => ?_
  rw [testBit_bitsOf, testBit_bitsOf]
  by_cases hi' : i < hi + 1 - lo
  · rw [h (lo + i) (by omega) (by omega)]
  · simp [hi']

theorem bitsOf_zero (hi lo : Nat) : bitsOf 0 hi lo = 0 := by simp [bitsOf]

/-- A field that is written back as it can be held needs no cut. -/
theorem bitsOf_putBits_of_lt {n hi lo v : Nat} (h : v < 2 ^ (hi + 1 - lo)) : bitsOf (putBits n hi lo v) hi lo = v := by
  rw [bitsOf_putBits, Nat.mod_eq_of_lt h]

theorem testBit_clear (x : Word) (n i : Nat) (hi : i < 32) : (x &&& ~~~ w32 n).toNat.testBit i = (x.toNat.testBit i && !n.testBit i) := by
  simp only [BitVec.testBit_toNat, BitVec.getLsbD_and, BitVec.getLsbD_not, BitVec.getLsbD_ofNat, hi, decide_true, Bool.true_and]

theorem testBit_or_pow (x : Word) (bit b : Nat) (hb : b < 32) :
    (x ||| w32 (2 ^ bit)).toNat.testBit b = (x.toNat.testBit b || decide (bit = b)) := by
  simp only [BitVec.testBit_toNat, BitVec.getLsbD_or, BitVec.getLsbD_ofNat, Nat.testBit_two_pow, hb, decide_true, Bool.true_and]

theorem testBit_fieldMask (f : FieldDef) (i : Nat) : (fieldMask f).testBit i = decide (f.lo ≤ i ∧ i ≤ f.hi) := by
  rw [fieldMask, Nat.testBit_mul_two_pow, Nat.testBit_two_pow_sub_one, ← Bool.decide_and, decide_eq_decide]
  omega

/-- The mask of some access types holds the bits of the fields of these types. -/
theorem testBit_mask (r : RegDef) (p : Access → Bool) (i : Nat) :
    (r.mask p).testBit i = r.fields.any fun f => p f.ty && decide (f.lo ≤ i ∧ i ≤ f.hi) := by
  have fold : ∀ (l : List FieldDef) (n : Nat),
      (l.foldl (fun n f => n ||| fieldMask f) n).testBit i = (n.testBit i || l.any fun f => decide (f.lo ≤ i ∧ i ≤ f.hi)) := by
    intro l
    induction l with
    | nil => simp
    | cons f l ih => intro n; rw [List.foldl_cons, ih, Nat.testBit_or, testBit_fieldMask, List.any_cons, Bool.or_assoc]
  rw [RegDef.mask, fold, Nat.zero_testBit, Bool.false_or, List.any_filter]

/-! ## The register table -/

/-- Two fields that share no bit. -/
abbrev FieldDef.apart (f g : FieldDef) : Prop := f.hi < g.lo ∨ g.hi < f.lo

/-- The fields of a register lie within its 32 bits, and no two share a bit. -/
def RegDef.tidy (r : RegDef) : Bool :=
  r.fields.all (fun f => decide (f.lo ≤ f.hi) && decide (f.hi < 32)) &&
    decide (r.fields.Pairwise FieldDef.apart)

theorem headerRegs_tidy : ∀ r ∈ headerRegs, r.tidy = true := by decide +kernel

theorem pageRegs_tidy : ∀ k ∈ allKinds, ∀ r ∈ k.desc.regs, r.tidy = true := by decide +kernel

theorem kindAt_some {a i : Nat} {k : Kind} (h : kindAt a = some (k, i)) :
    k ∈ allKinds ∧ a < k.desc.base + k.desc.count * k.desc.stride := by
  unfold kindAt at h
  split at h
  case h_1 k' hf =>
    have hk : k' = k := by
      simp only at h
      split at h
      · cases h
      · exact congrArg Prod.fst (Option.some.inj h)
    have hin := List.find?_some hf
    simp only [Bool.and_eq_true, decide_eq_true_eq] at hin
    exact hk ▸ ⟨List.mem_of_find?_eq_some hf, hin.2⟩
  case h_2 => cases h

/-- Every page lies in one of the twelve regions (R17). -/
theorem kindAt_lt {a i : Nat} {k : Kind} (h : kindAt a = some (k, i)) : a < 0xC00000 := by
  have ends : ∀ k ∈ allKinds, k.desc.base + k.desc.count * k.desc.stride ≤ 0xC00000 := by decide +kernel
  obtain ⟨hk, ha⟩ := kindAt_some h
  exact lt_of_lt_of_le ha (ends k hk)

theorem regAt_tidy {a : Nat} {r : RegDef} (h : regAt a = some r) : r.tidy = true := by
  unfold regAt at h
  split at h
  case h_1 => cases h
  case h_2 k i hk =>
    simp only at h
    split at h
    · exact headerRegs_tidy r (List.mem_of_find?_eq_some h)
    · exact pageRegs_tidy k (kindAt_some hk).1 r (List.mem_of_find?_eq_some h)

theorem RegDef.tidy_bounds {r : RegDef} (h : r.tidy = true) {f : FieldDef} (hf : f ∈ r.fields) : f.lo ≤ f.hi ∧ f.hi < 32 := by
  simp only [RegDef.tidy, Bool.and_eq_true, List.all_eq_true, decide_eq_true_eq] at h
  exact h.1 f hf

theorem RegDef.tidy_pairwise {r : RegDef} (h : r.tidy = true) : r.fields.Pairwise FieldDef.apart := by
  simp only [RegDef.tidy, Bool.and_eq_true, decide_eq_true_eq] at h
  exact h.2

/-- Two fields of a register that share a bit are one field. -/
theorem RegDef.tidy_eq {r : RegDef} (h : r.tidy = true) {f g : FieldDef} (hf : f ∈ r.fields) (hg : g ∈ r.fields) {i : Nat}
    (hfi : f.lo ≤ i ∧ i ≤ f.hi) (hgi : g.lo ≤ i ∧ i ≤ g.hi) : f = g := by
  by_contra hne
  have : Std.Symm FieldDef.apart := ⟨fun _ _ => Or.symm⟩
  have := (RegDef.tidy_pairwise h).forall hf hg hne
  omega

/-- On the bits of a field, the mask of some access types holds all of them or none, as the field's own type is one of these. -/
theorem RegDef.testBit_mask_field {r : RegDef} (h : r.tidy = true) {f : FieldDef} (hf : f ∈ r.fields) (p : Access → Bool) {i : Nat}
    (hi : f.lo ≤ i ∧ i ≤ f.hi) : (r.mask p).testBit i = p f.ty := by
  rw [testBit_mask, Bool.eq_iff_iff, List.any_eq_true]
  constructor
  · rintro ⟨g, hg, hp⟩
    simp only [Bool.and_eq_true, decide_eq_true_eq] at hp
    rw [RegDef.tidy_eq h hf hg hi hp.2]
    exact hp.1
  · exact fun hp => ⟨f, hf, by simp [hp, hi]⟩

end Sys2Proof.Machine
end

section
/-! SUPPORT. What an error report and a counted access do to the pages' headers, the shadows, the logs and the value read. -/
namespace Sys2Proof.Machine
open Sys2Proof

/-! ## Fields without a shadow -/

theorem Dev.wr_force {f : RegField} (h : f.rs = false) (d : Dev) (v : Nat) : (d.wr f v).force = d.force := by simp [Dev.wr, h]

theorem Dev.wr_shadow {f : RegField} (h : f.rs = false) (d : Dev) (v : Nat) : (d.wr f v).shadow = d.shadow := by simp [Dev.wr, h]

/-- What a message, an event and a log record leave alone beside the regions' records. -/
structure Dev.Beside (d e : Dev) : Prop where
  force : e.force = d.force
  shadow : e.shadow = d.shadow
  readVal : e.readVal = d.readVal

theorem Dev.Beside.refl (d : Dev) : d.Beside d := ⟨rfl, rfl, rfl⟩

theorem Dev.Beside.trans {a b c : Dev} (h : a.Beside b) (k : b.Beside c) : a.Beside c :=
  ⟨k.force.trans h.force, k.shadow.trans h.shadow, k.readVal.trans h.readVal⟩

theorem Dev.wr_beside {f : RegField} (h : f.rs = false) (d : Dev) (v : Nat) : d.Beside (d.wr f v) :=
  ⟨Dev.wr_force h d v, Dev.wr_shadow h d v, Dev.wr_readVal d f v⟩

theorem Dev.onPlat_beside (d : Dev) (g : Plat → Plat) : d.Beside (d.onPlat g) := ⟨rfl, rfl, rfl⟩

theorem Dev.setRaw_beside (d : Dev) (a : Nat) (v : Word) : d.Beside (d.setRaw a v) := ⟨rfl, rfl, rfl⟩

theorem Dev.onMram_beside (d : Dev) (g : Mram → Mram) : d.Beside (d.onMram g) := ⟨rfl, rfl, rfl⟩

theorem Dev.msix_beside (d : Dev) (v : Nat) : d.Beside (d.msix v) := by
  unfold Dev.msix
  split
  · exact Dev.wr_beside rfl d 1
  · exact ⟨rfl, rfl, rfl⟩

theorem Dev.eventMessage_beside (d : Dev) (e : Nat) : d.Beside (d.eventMessage e) := by
  unfold Dev.eventMessage
  split
  · simp only []
    split
    · exact .refl d
    · exact .trans (Dev.onPlat_beside d _) (Dev.msix_beside _ _)
  · exact .refl d

theorem Dev.event_beside (d : Dev) (e : Nat) : d.Beside (d.event e) := by
  unfold Dev.event
  simp only []
  split
  · exact .trans (Dev.wr_beside rfl d 1) (Dev.eventMessage_beside _ e)
  · exact .trans (Dev.wr_beside rfl d 1) (Dev.wr_beside rfl _ 1)

theorem Dev.mramPut_beside (d : Dev) (n : Nat) (g : Mram → Mram) : d.Beside (d.mramPut n g) := by
  unfold Dev.mramPut Dev.countN
  exact .trans (Dev.onMram_beside d g) (Dev.wr_beside rfl _ _)

theorem Dev.event_mram (d : Dev) (e : Nat) : (d.event e).mram = d.mram := by
  unfold Dev.event
  simp only []
  split
  · rw [(Dev.eventMessage_eq _ _).2.2.2.2.2.2.2.2.2.2.2, Dev.wr_mram]
  · rw [Dev.wr_mram, Dev.wr_mram]

@[simp] theorem Dev.mramPut_mram (d : Dev) (n : Nat) (g : Mram → Mram) : (d.mramPut n g).mram = g d.mram := by
  unfold Dev.mramPut Dev.countN
  rw [Dev.wr_mram, Dev.onMram_mram]

/-! ## The pages' headers -/

theorem Dev.raw_msix_header {a : Nat} (h : a % 4096 < 256) (d : Dev) {v : Nat} (hv : v < 64) : (d.msix v).raw a = d.raw a :=
  Dev.raw_msix d v a (by omega)

theorem Dev.raw_eventMessage_header {a : Nat} (h : a % 4096 < 256) (d : Dev) (e : Nat) : (d.eventMessage e).raw a = d.raw a := by
  unfold Dev.eventMessage
  split
  · simp only []
    split
    · rfl
    · rw [Dev.raw_msix_header h _ (Dev.vector_lt d e)]; rfl
  · rfl

theorem Dev.raw_event_header {a : Nat} (h : a % 4096 < 256) (d : Dev) (e : Nat) : (d.event e).raw a = d.raw a := by
  have hc : a ≠ 0x8140 := by omega
  have hh : a ≠ 0x8144 := by omega
  unfold Dev.event
  simp only []
  split
  · rw [Dev.raw_eventMessage_header h, Dev.raw_wr_other _ _ _ _ hc]
  · rw [Dev.raw_wr_other _ _ _ _ hh, Dev.raw_wr_other _ _ _ _ hc]

theorem Dev.raw_mramPut_header {a : Nat} (h : a % 4096 < 256) (d : Dev) (n : Nat) (g : Mram → Mram) :
    (d.mramPut n g).raw a = d.raw a := by
  unfold Dev.mramPut Dev.countN
  have hc : a ≠ (F.pltMramCnt 2).addr := by
    have : (F.pltMramCnt 2).addr = 0x9148 := rfl
    omega
  rw [Dev.raw_wr_other _ _ _ _ hc]
  rfl

theorem pageOf_mod (a : Nat) : pageOf a % 4096 = 0 := by unfold pageOf; omega

@[simp] theorem pageOf_pageOf (a : Nat) : pageOf (pageOf a) = pageOf a := by unfold pageOf; omega

theorem Dev.raw_setRaw (d : Dev) (a b : Nat) (v : Word) : (d.setRaw a v).raw b = if b = a then v else d.raw b := by
  split
  case isTrue h => rw [h, Dev.raw_setRaw_same]
  case isFalse h => exact Dev.raw_setRaw_other d a b v h

/-- What a report does, in the order of its steps: the error bit, the summary, the block's log, the chip's log, the event. -/
theorem Dev.report_steps (d : Dev) (page bit level info : Nat) : ∃ (r : LogRec) (e : Dev),
    (∀ a, e.raw a = if a = pageOf page + 0x10 then d.raw (pageOf page + 0x10) ||| w32 (2 ^ bit) else d.raw a) ∧ d.Beside e ∧ e.mram = d.mram ∧
      (1 ≤ level → e.plat.errSum = Map.set 0 d.plat.errSum (pageOf page) (Map.get 0 d.plat.errSum (pageOf page) ||| 2 ^ bit)) ∧
      d.report page bit level info =
        (let e := if 2 ≤ level then e.logChip r else e
         if level = 3 then (e.logEvent r).event (regionOf (pageOf page)) else e) := by
  unfold Dev.report
  extract_lets p a b c r g
  have ha : d.Beside a ∧ a.mram = d.mram := ⟨⟨rfl, rfl, rfl⟩, rfl⟩
  refine ⟨r, g, ?_, ?_, ?_, ?_, rfl⟩
  · intro x
    rw [← Dev.raw_setRaw]
    show b.raw x = a.raw x
    unfold b; split <;> rfl
  · show Dev.Beside d (Dev.onPlat b _)
    unfold b; split <;> exact ⟨rfl, rfl, rfl⟩
  · show b.mram = _
    unfold b; split <;> rfl
  · intro hl
    show b.plat.errSum = _
    unfold b; rw [if_pos hl]; rfl

theorem Dev.raw_report_header {a : Nat} (h : a % 4096 < 256) (d : Dev) (page bit level info : Nat) :
    (d.report page bit level info).raw a =
      if a = pageOf page + 0x10 then d.raw (pageOf page + 0x10) ||| w32 (2 ^ bit) else d.raw a := by
  obtain ⟨r, e, he, -, -, -, heq⟩ := d.report_steps page bit level info
  rw [heq, ← he]
  by_cases h2 : 2 ≤ level <;> by_cases h3 : level = 3 <;>
    simp [h2, h3, Dev.logEvent, Dev.logChip, Dev.raw_event_header h, Dev.raw_mramPut_header h]

theorem Dev.report_beside (d : Dev) (page bit level info : Nat) : d.Beside (d.report page bit level info) := by
  obtain ⟨r, e, -, hb, -, -, heq⟩ := d.report_steps page bit level info
  have hc : d.Beside (if 2 ≤ level then e.logChip r else e) := by
    split
    · exact hb.trans (Dev.mramPut_beside e 8 _)
    · exact hb
  rw [heq]
  simp only
  split
  · exact (hc.trans (Dev.mramPut_beside _ 8 _)).trans (Dev.event_beside _ _)
  · exact hc

/-- A report at chip level or above enters one record in the chip's log, and none in the access log. -/
theorem Dev.report_logs (d : Dev) (page bit level info : Nat) :
    (d.report page bit level info).mram.accessLog = d.mram.accessLog ∧
      (d.report page bit level info).mram.chipLog.written = d.mram.chipLog.written + if 2 ≤ level then 1 else 0 := by
  obtain ⟨r, e, -, -, hm, -, heq⟩ := d.report_steps page bit level info
  rw [heq]
  by_cases h2 : 2 ≤ level <;> by_cases h3 : level = 3 <;>
    simp [h2, h3, Dev.logEvent, Dev.logChip, Dev.event_mram, Log.push, hm]

theorem Dev.eventMessage_errSum (d : Dev) (e : Nat) : (d.eventMessage e).plat.errSum = d.plat.errSum := by
  unfold Dev.eventMessage
  split
  · simp only []
    split
    · rfl
    · rw [Dev.msix_plat]; rfl
  · rfl

theorem Dev.event_errSum (d : Dev) (e : Nat) : (d.event e).plat.errSum = d.plat.errSum := by
  unfold Dev.event
  simp only []
  split
  · rw [Dev.eventMessage_errSum, Dev.wr_plat]
  · rw [Dev.wr_plat, Dev.wr_plat]

/-- A report at region level or above shows in the summary. -/
theorem Dev.report_errSum (d : Dev) (page bit info : Nat) {level : Nat} (h : 1 ≤ level) :
    (Map.get 0 (d.report page bit level info).plat.errSum (pageOf page)).testBit bit = true := by
  obtain ⟨r, e, -, -, -, hs, heq⟩ := d.report_steps page bit level info
  have he : (d.report page bit level info).plat.errSum = e.plat.errSum := by
    rw [heq]
    by_cases h2 : 2 ≤ level <;> by_cases h3 : level = 3 <;>
      simp [h2, h3, Dev.logEvent, Dev.logChip, Dev.event_errSum, Dev.mramPut_plat]
  rw [he, hs h, Map.get_set_same, Nat.testBit_or, Nat.testBit_two_pow_self, Bool.or_true]

/-- A report at system level raises the event of its region. -/
theorem Dev.report_causeShows (d : Dev) (page bit info : Nat) (h : regionOf (pageOf page) < 32) :
    (d.report page bit 3 info).causeShows (regionOf (pageOf page)) := by
  obtain ⟨r, e, -, -, -, -, heq⟩ := d.report_steps page bit 3 info
  rw [heq]
  exact Dev.event_causeShows _ _ h

theorem Dev.errorShows_pageOf (d : Dev) (page bit : Nat) : d.errorShows (pageOf page) bit ↔ d.errorShows page bit := by
  rw [Dev.errorShows, Dev.errorShows, pageOf_pageOf]

theorem Dev.report_errorShows (d : Dev) (page bit level info : Nat) {b : Nat} (hb : b < 32) (h : b = bit ∨ d.errorShows page b) :
    (d.report page bit level info).errorShows page b := by
  unfold Dev.errorShows at h ⊢
  have hp := pageOf_mod page
  rw [Dev.raw_report_header (by omega), if_pos rfl, testBit_or_pow _ _ _ hb]
  rcases h with rfl | h
  · simp
  · simp [h]

/-! ## A counted access (R3, R40) -/

theorem Dev.countIgnored_steps (d : Dev) (page info flags : Nat) : ∃ r : LogRec, d.countIgnored page info flags =
    ((d.setRaw (pageOf page + 0x2C) (w32 (satInc 32 (d.ignoredCount page)))).logAccess r).raise (pageOf page) 31 := ⟨_, rfl⟩

theorem Dev.countIgnored_beside (d : Dev) (page info flags : Nat) : d.Beside (d.countIgnored page info flags) := by
  obtain ⟨r, h⟩ := d.countIgnored_steps page info flags
  rw [h]
  exact .trans (.trans (Dev.setRaw_beside d _ _) (Dev.mramPut_beside _ 8 _)) (Dev.report_beside _ _ _ _ _)

theorem Dev.ignoredCount_countIgnored (d : Dev) (page info flags : Nat) :
    (d.countIgnored page info flags).ignoredCount page = satInc 32 (d.ignoredCount page) := by
  have hp := pageOf_mod page
  have fits : satInc 32 (d.ignoredCount page) < 2 ^ 32 := by unfold satInc; split <;> omega
  obtain ⟨r, h⟩ := d.countIgnored_steps page info flags
  rw [h, Dev.raise, Dev.ignoredCount, Dev.raw_report_header (by omega), if_neg (by simp), Dev.logAccess,
    Dev.raw_mramPut_header (by omega), Dev.raw_setRaw_same, BitVec.toNat_ofNat, Nat.mod_eq_of_lt fits]

theorem Dev.errorShows_countIgnored (d : Dev) (page info flags : Nat) : (d.countIgnored page info flags).errorShows page 31 := by
  obtain ⟨r, h⟩ := d.countIgnored_steps page info flags
  rw [h, ← Dev.errorShows_pageOf]
  exact Dev.report_errorShows _ _ _ _ _ (by omega) (.inl rfl)

theorem Dev.accessLog_countIgnored (d : Dev) (page info flags : Nat) :
    (d.countIgnored page info flags).mram.accessLog.written = d.mram.accessLog.written + 1 := by
  obtain ⟨r, h⟩ := d.countIgnored_steps page info flags
  rw [h, Dev.raise, (Dev.report_logs _ _ _ _ _).1, Dev.logAccess, Dev.mramPut_mram]
  rfl

/-! ## The platform's record -/

theorem Plat.alike.armed {p q : Plat} (h : p.alike q) : q.armed = p.armed := by rw [← h]

end Sys2Proof.Machine
end

section
/-! SUPPORT. What a write of 32 bits does: to each field of a register that takes it, and where it is ignored. -/
namespace Sys2Proof.Machine
open Sys2Proof

/-! ## One field -/

/-- Owners 0–31 take their pool from their stream (R127). -/
def poolFixed (a : Nat) (f : FieldDef) : Bool :=
  match kindAt a with
  | some (.bpmOwn, i) => decide (i < 32) && f.hi == 27
  | _ => false

theorem poolFixed_eq {a i : Nat} {k : Kind} (h : kindAt a = some (k, i)) (f : FieldDef) :
    poolFixed a f = decide (k = .bpmOwn ∧ i < 32 ∧ f.hi = 27) := by
  unfold poolFixed
  rw [h]
  by_cases hk : k = .bpmOwn
  · subst hk
    simp [Bool.beq_eq_decide_eq]
  · simp [hk]

/-- A field of the register at `a` acts on the value written. -/
def Dev.fieldTakes (a v : Nat) (d : Dev) (f : FieldDef) : Dev :=
  let x := bitsOf v f.hi f.lo
  match f.ty with
  | .rw => d.setRaw a (w32 (putBits (d.raw a).toNat f.hi f.lo x))
  | .rs => if poolFixed a f then d else d.setShadowed a (w32 (putBits (d.shadowed a).toNat f.hi f.lo x))
  | .w1c =>
    let d := d.setRaw a (w32 (putBits (d.raw a).toNat f.hi f.lo (bitsOf (d.raw a).toNat f.hi f.lo &&& (2 ^ 32 - 1 - x))))
    if a % 4096 = 0x10 then
      d.onPlat fun p => { p with errSum := Map.set 0 p.errSum (pageOf a) (Map.get 0 p.errSum (pageOf a) &&& (d.raw a).toNat) }
    else d
  | _ => d

/-- The fields act one after the other. -/
theorem Dev.fieldsWrite_eq_foldl (d : Dev) (r : RegDef) (a v : Nat) : d.fieldsWrite r a v = r.fields.foldl (Dev.fieldTakes a v) d := by
  unfold Dev.fieldsWrite Dev.fieldTakes poolFixed
  rfl

/-- What the fields of a register at `a` leave alone: what is in force of RS fields, every other register, the regions' records, the MRAM. -/
structure Dev.OnlyAt (a : Nat) (d e : Dev) : Prop where
  force : e.force = d.force
  other : ∀ b, b ≠ a → e.raw b = d.raw b ∧ e.shadowed b = d.shadowed b
  regions : d.sameRegions e
  mram : e.mram = d.mram

theorem Dev.OnlyAt.refl (a : Nat) (d : Dev) : Dev.OnlyAt a d d := ⟨rfl, fun _ _ => ⟨rfl, rfl⟩, d.sameRegions_refl, rfl⟩

theorem Dev.OnlyAt.trans {a : Nat} {d e g : Dev} (h : Dev.OnlyAt a d e) (k : Dev.OnlyAt a e g) : Dev.OnlyAt a d g where
  force := k.force.trans h.force
  other b hb := ⟨(k.other b hb).1.trans (h.other b hb).1, (k.other b hb).2.trans (h.other b hb).2⟩
  regions := Dev.sameRegions_trans h.regions k.regions
  mram := k.mram.trans h.mram

theorem Dev.setRaw_onlyAt (d : Dev) (a : Nat) (v : Word) : Dev.OnlyAt a d (d.setRaw a v) :=
  ⟨rfl, fun b hb => ⟨Dev.raw_setRaw_other d a b v hb, rfl⟩, d.setRaw_sameRegions a v, rfl⟩

theorem Dev.shadowed_setShadowed_other (d : Dev) (a b : Nat) (v : Word) (h : b ≠ a) :
    (d.setShadowed a v).shadowed b = d.shadowed b := by
  unfold Dev.shadowed
  rw [Dev.setShadowed_shadow, Map.get_set_other _ _ _ _ _ _ h]

@[simp] theorem Dev.shadowed_setShadowed_same (d : Dev) (a : Nat) (v : Word) : (d.setShadowed a v).shadowed a = v := by
  unfold Dev.shadowed
  rw [Dev.setShadowed_shadow, Map.get_set_same]

theorem Dev.setShadowed_onlyAt (d : Dev) (a : Nat) (v : Word) : Dev.OnlyAt a d (d.setShadowed a v) :=
  ⟨rfl, fun b hb => ⟨rfl, Dev.shadowed_setShadowed_other d a b v hb⟩, d.sameRegions_refl, rfl⟩

theorem Dev.fieldTakes_onlyAt (a v : Nat) (d : Dev) (f : FieldDef) : Dev.OnlyAt a d (d.fieldTakes a v f) := by
  unfold Dev.fieldTakes
  cases f.ty <;> simp only
  case rw => exact Dev.setRaw_onlyAt _ _ _
  case rs =>
    split
    · exact .refl a d
    · exact Dev.setShadowed_onlyAt _ _ _
  case w1c =>
    split
    · exact (Dev.setRaw_onlyAt _ _ _).trans ⟨rfl, fun _ _ => ⟨rfl, rfl⟩, Dev.onPlat_sameRegions _ _, rfl⟩
    · exact Dev.setRaw_onlyAt _ _ _
  all_goals exact .refl a d

/-- What the bits `held` of a field become when it acts on `v`: an RW field takes the bits of `v`, a W1C field keeps those that `v` does not
clear, any other keeps what it held. -/
def FieldDef.taken (f : FieldDef) (v held : Nat) : Nat :=
  match f.ty with
  | .rw => bitsOf v f.hi f.lo
  | .w1c => held &&& (2 ^ 32 - 1 - bitsOf v f.hi f.lo)
  | _ => held

theorem FieldDef.taken_rw {f : FieldDef} (h : f.ty = .rw) (v held : Nat) : f.taken v held = bitsOf v f.hi f.lo := by
  simp only [FieldDef.taken, h]

theorem FieldDef.taken_w1c {f : FieldDef} (h : f.ty = .w1c) (v held : Nat) :
    f.taken v held = held &&& (2 ^ 32 - 1 - bitsOf v f.hi f.lo) := by
  simp only [FieldDef.taken, h]

theorem FieldDef.taken_kept {f : FieldDef} (h : f.ty ≠ .rw) (h' : f.ty ≠ .w1c) (v held : Nat) : f.taken v held = held := by
  unfold FieldDef.taken
  cases hf : f.ty <;> simp_all

theorem FieldDef.taken_lt (f : FieldDef) (v n : Nat) : f.taken v (bitsOf n f.hi f.lo) < 2 ^ (f.hi + 1 - f.lo) := by
  unfold FieldDef.taken
  split
  · exact bitsOf_lt v f.hi f.lo
  · exact lt_of_le_of_lt Nat.and_le_left (bitsOf_lt n f.hi f.lo)
  · exact bitsOf_lt n f.hi f.lo

theorem Dev.raw_fieldTakes (a v : Nat) (d : Dev) (f : FieldDef) :
    (d.fieldTakes a v f).raw a = if f.ty = .rw ∨ f.ty = .w1c
      then w32 (putBits (d.raw a).toNat f.hi f.lo (f.taken v (bitsOf (d.raw a).toNat f.hi f.lo))) else d.raw a := by
  unfold Dev.fieldTakes FieldDef.taken
  cases f.ty <;> simp only [reduceCtorEq, or_self, or_true, true_or, if_true, if_false]
  case rw => exact Dev.raw_setRaw_same _ _ _
  case rs => split <;> rfl
  case w1c =>
    split
    · exact Dev.raw_setRaw_same _ _ _
    · exact Dev.raw_setRaw_same _ _ _

theorem Dev.shadowed_fieldTakes (a v : Nat) (d : Dev) (f : FieldDef) :
    (d.fieldTakes a v f).shadowed a = if f.ty = .rs ∧ poolFixed a f = false
      then w32 (putBits (d.shadowed a).toNat f.hi f.lo (bitsOf v f.hi f.lo)) else d.shadowed a := by
  unfold Dev.fieldTakes
  cases f.ty <;> simp only [reduceCtorEq, false_and, if_false, true_and]
  case rs =>
    cases poolFixed a f
    · exact Dev.shadowed_setShadowed_same _ _ _
    · rfl
  case w1c => split <;> rfl
  all_goals rfl

/-- A field's bits of a word, after another field of the word was replaced. -/
theorem bitsOf_word_apart (x : Word) {f g : FieldDef} (v : Nat) (hf : f.lo ≤ f.hi ∧ f.hi < 32) (hg : g.lo ≤ g.hi ∧ g.hi < 32)
    (h : f.apart g) : bitsOf (w32 (putBits x.toNat g.hi g.lo v)).toNat f.hi f.lo = bitsOf x.toNat f.hi f.lo := by
  rw [word_putBits x ⟨0, g.hi, g.lo, false⟩ hg, bitsOf_putBits_disjoint _ _ _ _ _ _ hf.1 h hg.1]

theorem bitsOf_word_same (x : Word) {f : FieldDef} {v : Nat} (hf : f.lo ≤ f.hi ∧ f.hi < 32) (h : v < 2 ^ (f.hi + 1 - f.lo)) :
    bitsOf (w32 (putBits x.toNat f.hi f.lo v)).toNat f.hi f.lo = v := by
  rw [word_putBits x ⟨0, f.hi, f.lo, false⟩ hf, bitsOf_putBits_of_lt h]

theorem Dev.raw_fieldTakes_same (a v : Nat) (d : Dev) {f : FieldDef} (hf : f.lo ≤ f.hi ∧ f.hi < 32) :
    bitsOf ((d.fieldTakes a v f).raw a).toNat f.hi f.lo = f.taken v (bitsOf (d.raw a).toNat f.hi f.lo) := by
  rw [Dev.raw_fieldTakes]
  split
  · exact bitsOf_word_same _ hf (f.taken_lt v _)
  case isFalse h => exact (FieldDef.taken_kept (fun e => h (.inl e)) (fun e => h (.inr e)) v _).symm

theorem Dev.raw_fieldTakes_apart (a v : Nat) (d : Dev) {f g : FieldDef} (hf : f.lo ≤ f.hi ∧ f.hi < 32) (hg : g.lo ≤ g.hi ∧ g.hi < 32)
    (h : f.apart g) : bitsOf ((d.fieldTakes a v g).raw a).toNat f.hi f.lo = bitsOf (d.raw a).toNat f.hi f.lo := by
  rw [Dev.raw_fieldTakes]
  split
  · exact bitsOf_word_apart _ _ hf hg h
  · rfl

theorem Dev.shadowed_fieldTakes_apart (a v : Nat) (d : Dev) {f g : FieldDef} (hf : f.lo ≤ f.hi ∧ f.hi < 32)
    (hg : g.lo ≤ g.hi ∧ g.hi < 32) (h : f.apart g) :
    bitsOf ((d.fieldTakes a v g).shadowed a).toNat f.hi f.lo = bitsOf (d.shadowed a).toNat f.hi f.lo := by
  rw [Dev.shadowed_fieldTakes]
  split
  · exact bitsOf_word_apart _ _ hf hg h
  · rfl

/-! ## All fields of a register -/

/-- Where the fields of a register act one after the other and each leaves what `get` reads of the others, what `get` reads of a field after
all of them is what that field makes of what was there. -/
theorem foldl_field {α : Type} {step : Dev → FieldDef → Dev} {get : Dev → FieldDef → α} {own : FieldDef → α → α} {l : List FieldDef}
    (hl : l.Pairwise FieldDef.apart) (hother : ∀ d, ∀ f ∈ l, ∀ g ∈ l, f.apart g → get (step d g) f = get d f)
    (hown : ∀ d, ∀ f ∈ l, get (step d f) f = own f (get d f)) (d : Dev) {f : FieldDef} (hf : f ∈ l) :
    get (l.foldl step d) f = own f (get d f) := by
  have rest : ∀ (t : List FieldDef) (d : Dev), (∀ g ∈ t, g ∈ l ∧ f.apart g) → get (t.foldl step d) f = get d f := by
    intro t
    induction t with
    | nil => intro d _; rfl
    | cons g t ih =>
      intro d ht
      obtain ⟨⟨hg, hfg⟩, ht⟩ := List.forall_mem_cons.1 ht
      rw [List.foldl_cons, ih _ ht, hother d f hf g hg hfg]
  obtain ⟨s, t, rfl⟩ := List.append_of_mem hf
  obtain ⟨-, hft, hs⟩ := List.pairwise_append.1 hl
  rw [List.foldl_append, List.foldl_cons, rest t _ fun g hg => ⟨by simp [hg], List.rel_of_pairwise_cons hft hg⟩, hown _ f hf,
    rest s _ fun g hg => ⟨by simp [hg], (hs g hg f (by simp)).symm⟩]

theorem Dev.fieldsWrite_onlyAt (r : RegDef) (d : Dev) (a v : Nat) : Dev.OnlyAt a d (d.fieldsWrite r a v) := by
  rw [Dev.fieldsWrite_eq_foldl]
  induction r.fields generalizing d with
  | nil => exact .refl a d
  | cons f l ih => exact (Dev.fieldTakes_onlyAt a v d f).trans (ih _)

/-- Each field of a register that is written holds what its type leaves in it. -/
theorem Dev.raw_fieldsWrite {r : RegDef} (ht : r.tidy = true) {f : FieldDef} (hf : f ∈ r.fields) (d : Dev) (a v : Nat) :
    bitsOf ((d.fieldsWrite r a v).raw a).toNat f.hi f.lo = f.taken v (bitsOf (d.raw a).toNat f.hi f.lo) := by
  rw [Dev.fieldsWrite_eq_foldl]
  exact foldl_field (get := fun d f => bitsOf (d.raw a).toNat f.hi f.lo) (own := fun f => f.taken v) (RegDef.tidy_pairwise ht)
    (fun d f hf g hg => Dev.raw_fieldTakes_apart a v d (RegDef.tidy_bounds ht hf) (RegDef.tidy_bounds ht hg))
    (fun d f hf => Dev.raw_fieldTakes_same a v d (RegDef.tidy_bounds ht hf)) d hf

/-- The shadow of an RS field takes the bits written. -/
theorem Dev.shadowed_fieldsWrite {r : RegDef} (ht : r.tidy = true) {f : FieldDef} (hf : f ∈ r.fields) (d : Dev) (a v : Nat)
    (hrs : f.ty = .rs) (hp : poolFixed a f = false) :
    bitsOf ((d.fieldsWrite r a v).shadowed a).toNat f.hi f.lo = bitsOf v f.hi f.lo := by
  rw [Dev.fieldsWrite_eq_foldl]
  have h := foldl_field (step := Dev.fieldTakes a v) (get := fun d f => bitsOf (d.shadowed a).toNat f.hi f.lo)
    (own := fun f x => if f.ty = .rs ∧ poolFixed a f = false then bitsOf v f.hi f.lo else x) (RegDef.tidy_pairwise ht)
    (fun d f hf g hg => Dev.shadowed_fieldTakes_apart a v d (RegDef.tidy_bounds ht hf) (RegDef.tidy_bounds ht hg))
    (fun d f hf => by
      rw [Dev.shadowed_fieldTakes]
      split
      · exact bitsOf_word_same _ (RegDef.tidy_bounds ht hf) (bitsOf_lt v f.hi f.lo)
      · rfl) d hf
  rw [h, if_pos ⟨hrs, hp⟩]

/-! ## A write of 32 bits (R2, R36) -/

/-- The access log's record of a write takes the data written; nothing else changes (R475). -/
theorem Dev.stampData_onMram (d : Dev) (n a v : Nat) : ∃ g : Mram → Mram, d.stampData n a v = d.onMram g ∧
    (g d.mram).chipLog = d.mram.chipLog ∧ (g d.mram).accessLog.written = d.mram.accessLog.written := by
  unfold Dev.stampData
  split
  · exact ⟨id, rfl, rfl, rfl⟩
  · exact ⟨_, rfl, rfl, rfl⟩

/-- No register takes the write of `v` at `a`: none lies there, it holds no field that a write can change, or it is barred. -/
def Dev.ignores (d : Dev) (a v : Nat) : Prop :=
  regAt a = none ∨ ∃ k i r, kindAt a = some (k, i) ∧ regAt a = some r ∧
    (r.mask Access.takes = 0 ∨ d.takesWrite k a = false ∨ d.writeBarred k a v r = true)

theorem Dev.write32_ignored {d : Dev} {a v : Nat} (h : d.ignores a (v % 2 ^ 32)) (ns : Nat) :
    d.write32 a v ns = (d.accessLost a).stampData d.mram.accessLog.written a (v % 2 ^ 32) := by
  unfold Dev.write32
  rcases h with hr | ⟨k, i, r, hk, hr, hb⟩
  · simp only [hr]
    cases kindAt a <;> rfl
  · have : r.mask Access.takes = 0 ∨ (!d.takesWrite k a) = true ∨ d.writeBarred k a (v % 2 ^ 32) r = true := by simpa using hb
    simp only [hk, hr, if_pos this]

/-- A register takes the write of `v`, which has no nonzero bit outside its fields. -/
theorem Dev.write32_taken {d : Dev} {a v i : Nat} {k : Kind} {r : RegDef} (hk : kindAt a = some (k, i)) (hr : regAt a = some r)
    (hm : r.mask Access.takes ≠ 0) (ht : d.takesWrite k a = true) (hb : d.writeBarred k a v r = false) (hv : v < 2 ^ 32)
    (hz : v &&& r.mask (fun _ => true) = v) (ns : Nat) :
    d.write32 a v ns = ((d.writeAct k i a v ns).getD (d.fieldsWrite r a v)).stampData d.mram.accessLog.written a v := by
  unfold Dev.write32
  have : ¬ (r.mask Access.takes = 0 ∨ (!d.takesWrite k a) = true ∨ d.writeBarred k a v r = true) := by simp [hm, ht, hb]
  simp only [Nat.mod_eq_of_lt hv, hk, hr, if_neg this, hz, ne_eq, not_true_eq_false, false_and, if_false]

theorem Dev.barWrite_word {d : Dev} {a : Nat} (h : a % 4 = 0) (v ns : Nat) : d.barWrite ⟨a, v, 4, ns⟩ = d.write32 a v ns := by
  simp [Dev.barWrite, h]

/-- BAR0 takes accesses of 4 and 8 bytes, aligned (R36). -/
theorem Dev.barWrite_lost {a n : Nat} (h4 : ¬ (n = 4 ∧ a % 4 = 0)) (h8 : ¬ (n = 8 ∧ a % 8 = 0)) (d : Dev) (v ns : Nat) :
    d.barWrite ⟨a, v, n, ns⟩ = d.accessLost a := by
  simp only [Dev.barWrite, if_neg h4, if_neg h8]

/-- An access that is ignored as a whole is counted, and its record in the access log takes the data written. -/
theorem Dev.barWrite_ignored {d : Dev} {a v n : Nat}
    (h : (n = 4 ∧ a % 4 = 0 ∧ d.ignores a (v % 2 ^ 32)) ∨ (n ≠ 4 ∧ n ≠ 8) ∨ (n = 4 ∧ a % 4 ≠ 0) ∨ (n = 8 ∧ a % 8 ≠ 0)) (ns : Nat) :
    ∃ g : Mram → Mram, d.barWrite ⟨a, v, n, ns⟩ = (d.accessLost a).onMram g ∧
      (g (d.accessLost a).mram).accessLog.written = (d.accessLost a).mram.accessLog.written := by
  rcases h with ⟨rfl, ha, hi⟩ | h
  · obtain ⟨g, hg, -, hw⟩ := (d.accessLost a).stampData_onMram d.mram.accessLog.written a (v % 2 ^ 32)
    exact ⟨g, by rw [Dev.barWrite_word ha, Dev.write32_ignored hi, hg], hw⟩
  · exact ⟨id, Dev.barWrite_lost (by omega) (by omega) d v ns, rfl⟩

/-! ## PG_ERR_INJ (R41) -/

/-- The register at 0x1C of a page's header is PG_ERR_INJ. -/
theorem regAt_errInj {a i : Nat} {k : Kind} (hk : kindAt a = some (k, i)) (ha : a % 4096 = 0x1C) :
    regAt a = some ⟨0x1C, 1, 0, 1, 0, [fd 31 24 .wo 0, fd 8 8 .wo 0, fd 4 0 .wo 0]⟩ := by
  unfold regAt
  simp only [hk, ha, Nat.reduceLT, if_true]
  decide +kernel

/-- A write of PG_ERR_INJ is barred only while a calibration owns one of its fields. -/
theorem Dev.writeBarred_errInj {d : Dev} {a : Nat} (ha : a % 4096 = 0x1C) (hc : ∀ hi lo, d.calOwns a hi lo = false) (k : Kind) (v : Nat) :
    d.writeBarred k a v ⟨0x1C, 1, 0, 1, 0, [fd 31 24 .wo 0, fd 8 8 .wo 0, fd 4 0 .wo 0]⟩ = false := by
  unfold Dev.writeBarred
  simp [ha, hc, fd]

theorem Dev.writeAct_errInj {a : Nat} (ha : a % 4096 = 0x1C) (d : Dev) (k : Kind) (i v ns : Nat) :
    d.writeAct k i a v ns = some (d.injectWrite (pageOf a) v) := by
  unfold Dev.writeAct
  simp [ha]

/-- With the key and DATA = 0 the bit is raised, and nothing enters the datapath. -/
theorem Dev.injectWrite_raise (d : Dev) (page : Nat) {bit : Nat} (h : bit < 32) :
    d.injectWrite page (0xE1000000 + bit) = d.raise (pageOf page) bit := by
  have hkey : bitsOf (0xE1000000 + bit) 31 24 = 0xE1 := by simp only [bitsOf, Nat.shiftRight_eq_div_pow]; omega
  have hbit : bitsOf (0xE1000000 + bit) 4 0 = bit := by simp only [bitsOf, Nat.shiftRight_eq_div_pow]; omega
  have hdata : (0xE1000000 + bit).testBit 8 = false := by rw [Nat.testBit_eq_decide_div_mod_eq, decide_eq_false_iff_not]; omega
  unfold Dev.injectWrite
  simp only [hkey, hbit, hdata, ne_eq, not_true_eq_false, Bool.false_eq_true, false_and, or_self, if_false, Bool.false_and]
  split <;> rfl

end Sys2Proof.Machine
end

section
/-! SUPPORT. What a read of 32 bits does, register by register (R2, R9, R36). -/
namespace Sys2Proof.Machine
open Sys2Proof

theorem Dev.readClear_of_regAt {a : Nat} {r : RegDef} (h : regAt a = some r) (d : Dev) :
    d.readClear a = d.setRaw a (d.raw a &&& ~~~ w32 (r.mask (· == .rc))) := by
  unfold Dev.readClear
  simp only [h]

/-- A register that neither latches another nor is an action when it is read: its RC fields clear. -/
theorem Dev.read32_plain {a i : Nat} {k : Kind} (hk : kindAt a = some (k, i)) (hl : latchesHi a = false) (ht : k ≠ .pltTick)
    (hc : ¬ (k = .srvDrv ∧ a % 4096 = 0x184)) (d : Dev) : d.read32 a = (d.answer (d.view a)).readClear a := by
  unfold Dev.read32
  simp only [hk]
  split
  case h_1 n h =>
    obtain ⟨rfl, rfl⟩ := Prod.mk.inj (Option.some.inj h)
    rw [if_neg fun ha => hc ⟨rfl, ha⟩]
  case h_2 h => exact absurd (Prod.mk.inj (Option.some.inj h)).1 ht
  case h_3 => rw [if_neg (by simp [hl])]

/-- The LO word of a split register latches its HI word. -/
theorem Dev.read32_latches {a : Nat} (h : latchesHi a = true) (d : Dev) : d.read32 a = (d.answer (d.view a)).latchHi a := by
  unfold Dev.read32
  simp only
  split
  case h_1 n hk => simp [latchesHi, hk] at h
  case h_2 i hk => simp [latchesHi, hk] at h
  case h_3 => rw [if_pos h]

/-- SRV_CS_DATA answers the coefficient word addressed and steps the address (R354). -/
theorem Dev.read32_csData {a n : Nat} (hk : kindAt a = some (.srvDrv, n)) (ha : a % 4096 = 0x184) (d : Dev) :
    d.read32 a = (d.answer (d.csRead n)).csStep n := by
  unfold Dev.read32
  simp only [hk, if_pos ha]
  rfl

theorem Dev.now_lt (d : Dev) : d.now < 2 ^ 64 := d.plat.tick.isLt

theorem Dev.view_tickLo (d : Dev) : d.view F.pltTickLo.addr = d.now % 2 ^ 32 := rfl

theorem Dev.read32_tickLo (d : Dev) : d.read32 F.pltTickLo.addr = (d.answer (d.view F.pltTickLo.addr)).latchTick := by
  have hk : kindAt F.pltTickLo.addr = some (.pltTick, 0) := by decide +kernel
  unfold Dev.read32
  simp only [hk]
  rfl

section
variable {r : RegDef} (ht : r.tidy = true) {f : FieldDef} (hf : f ∈ r.fields) (x : Word)
include ht hf

/-- On the bits of a field, a read clears an RC field and leaves any other. -/
theorem bitsOf_readClear :
    bitsOf (x &&& ~~~ w32 (r.mask (· == .rc))).toNat f.hi f.lo = if f.ty = .rc then 0 else bitsOf x.toNat f.hi f.lo := by
  have hb := RegDef.tidy_bounds ht hf
  split
  case isTrue h =>
    rw [← bitsOf_zero f.hi f.lo]
    refine bitsOf_congr fun i hlo hhi => ?_
    rw [testBit_clear _ _ _ (by omega), RegDef.testBit_mask_field ht hf _ ⟨hlo, hhi⟩]
    simp [h]
  case isFalse h =>
    refine bitsOf_congr fun i hlo hhi => ?_
    rw [testBit_clear _ _ _ (by omega), RegDef.testBit_mask_field ht hf _ ⟨hlo, hhi⟩]
    simp [h]
end

theorem Dev.barRead_word {a : Nat} (h : a % 4 = 0) (d : Dev) : d.barRead a 4 = d.read32 a := by
  simp [Dev.barRead, h]

theorem Dev.barRead_double {a : Nat} (h : a % 8 = 0) (d : Dev) : d.barRead a 8 =
    ((d.read32 a).read32 (a + 4)).answer ((d.read32 a).readVal + 2 ^ 32 * ((d.read32 a).read32 (a + 4)).readVal) := by
  simp [Dev.barRead, h]

theorem Dev.barRead_lost {a n : Nat} (h4 : ¬ (n = 4 ∧ a % 4 = 0)) (h8 : ¬ (n = 8 ∧ a % 8 = 0)) (d : Dev) :
    d.barRead a n = (d.answer 0).countIgnored (countedAt a) a 0 := by
  simp only [Dev.barRead, if_neg h4, if_neg h8]

end Sys2Proof.Machine
end

section
/-! The statements of the model's scope: what every step keeps, that every command answers, and what the accesses of BAR0 do. -/
namespace Sys2Proof.Machine
open Sys2Proof

/-! ## What every step keeps -/

theorem State.wf_iff (s : State) : s.wf = true ↔
    Map.wf (fun _ => 0) s.dev.cst.mem = true ∧ Map.wf resetVal s.dev.regs = true ∧ Map.wf resetVal s.dev.shadow = true := by
  rw [State.wf, Bool.and_eq_true, Bool.and_eq_true, and_assoc]

/-- Every command keeps the canonical form. -/
theorem exec_keeps_wf (c : Instr) {s t : State} (h : s.wf = true) (ht : exec c s = .next t) : t.wf = true := by
  obtain ⟨e, he, hk⟩ := exec_keeps_awake c s
  obtain ⟨hmem, hregs, hshadow⟩ := s.wf_iff.1 h
  obtain rfl : { s with dev := e } = t := by rw [he] at ht; exact Host.Outcome.next.inj ht
  exact (State.wf_iff _).2 ⟨hk.mem hmem, hk.regs hregs, hk.shadow hshadow⟩

/-- Settles O58: a step is the idle of an empty queue or one command, and every command keeps the canonical form. -/
theorem everyStepKeepsForm : Obligations.EveryStepKeepsForm := by
  unfold Obligations.EveryStepKeepsForm
  intro s t h ht
  unfold step at ht
  split at ht
  case h_1 => exact Host.Outcome.next.inj ht ▸ h
  case h_2 c rest _ => exact exec_keeps_wf c (s := { s with pending := rest }) h ht

/-- Settles O2: no meaning faults or refuses, and none touches the queue. -/
theorem everyCommandAnswers : Obligations.EveryCommandAnswers := by
  unfold Obligations.EveryCommandAnswers
  intro c s
  obtain ⟨e, he, -⟩ := exec_keeps_awake c s
  exact ⟨e, he, trivial⟩

/-- Settles O59: the maps of the reset state are empty, so that every register reads its reset value. -/
theorem resetIsCanonical : Obligations.ResetIsCanonical := by
  unfold Obligations.ResetIsCanonical
  exact ⟨rfl, rfl, rfl, rfl, rfl, fun _ => ⟨rfl, rfl, rfl⟩⟩

/-! ## Writes -/

theorem completes_registerWrite {x : RegAccess} {s : State} {Q : Dev → Prop} (h : Q (s.dev.barWrite x).hatPump) :
    completes (.registerWrite x) s Q := ⟨_, rfl, h⟩

/-- Settles O5: the fields of a register share no bit, so that each holds at the end what its own type makes of the bits written to it. -/
theorem writeTakesFields : Obligations.WriteTakesFields := by
  unfold Obligations.WriteTakesFields
  intro s a v ns k i r ha hv hk hr hm ht hb hact hz
  have tidy := regAt_tidy hr
  have raw (f) (hf : f ∈ r.fields) := Dev.raw_fieldsWrite tidy hf s.dev a v
  have only := Dev.fieldsWrite_onlyAt r s.dev a v
  obtain ⟨g, hg, -⟩ := (s.dev.fieldsWrite r a v).stampData_onMram s.dev.mram.accessLog.written a v
  have hw : s.dev.barWrite ⟨a, v, 4, ns⟩ = (s.dev.fieldsWrite r a v).onMram g := by
    rw [Dev.barWrite_word ha, Dev.write32_taken hk hr hm ht hb hv hz, hact, Option.getD_none, hg]
  refine completes_registerWrite ⟨_, congrArg Dev.hatPump hw, fun f hf hty => ?_, fun f hf hty hp => ?_, fun f hf hty => ?_,
    fun f hf hty => ?_, only.force, only.other, only.regions⟩
  · exact (raw f hf).trans (FieldDef.taken_rw hty v _)
  · exact Dev.shadowed_fieldsWrite tidy hf s.dev a v hty (by rw [poolFixed_eq hk]; exact decide_eq_false hp)
  · exact (raw f hf).trans (FieldDef.taken_w1c hty v _)
  · exact (raw f hf).trans (FieldDef.taken_kept (by rcases hty with h | h <;> simp [h]) (by rcases hty with h | h <;> simp [h]) v _)

/-- Settles O6: an access that is ignored is one counted access. -/
theorem ignoredAccess : Obligations.IgnoredAccess := by
  unfold Obligations.IgnoredAccess
  intro s a v n ns h
  obtain ⟨g, hg, hw⟩ := Dev.barWrite_ignored h ns
  have beside := s.dev.countIgnored_beside (countedAt a) a 1
  exact completes_registerWrite ⟨_, congrArg Dev.hatPump hg, s.dev.ignoredCount_countIgnored _ _ _, s.dev.errorShows_countIgnored _ _ _,
    hw.trans (s.dev.accessLog_countIgnored _ _ _), beside.force, beside.shadow, fun f hf => Dev.rd_countIgnored hf _ _ _,
    s.dev.countIgnored_sameRegions _ _ _⟩

/-! ## Reads -/

theorem completes_readClearRead {a n : Nat} {s : State} {Q : Dev → Prop} (h : Q (s.dev.barRead a n)) :
    completes (.readClearRead ⟨a, n⟩) s Q := ⟨_, rfl, h⟩

theorem completes_latchedLoRead {a n : Nat} {s : State} {Q : Dev → Prop} (h : Q (s.dev.barRead a n)) :
    completes (.latchedLoRead ⟨a, n⟩) s Q := ⟨_, rfl, h⟩

theorem completes_pltTickLoRead {s : State} {Q : Dev → Prop} (h : Q (s.dev.read32 F.pltTickLo.addr)) :
    completes .pltTickLoRead s Q := ⟨_, rfl, h⟩

theorem completes_errorInject {page value : Nat} {s : State} {Q : Dev → Prop}
    (h : Q (s.dev.write32 (pageOf page + 0x1C) value 0).hatPump) : completes (.errorInject page value) s Q := ⟨_, rfl, h⟩

/-- What a 32-bit read does at a register whose read neither latches nor steps another. -/
theorem readClearRead_plain {s : State} {a i : Nat} {k : Kind} {r : RegDef} (ha : a % 4 = 0) (hk : kindAt a = some (k, i))
    (hr : regAt a = some r) (hl : latchesHi a = false) (ht : k ≠ .pltTick) (hc : ¬ (k = .srvDrv ∧ a % 4096 = 0x184)) :
    completes (.readClearRead ⟨a, 4⟩) s fun e => e.readVal = s.dev.view a ∧
        (∀ f ∈ r.fields, f.ty = .rc → bitsOf (e.raw a).toNat f.hi f.lo = 0) ∧
        (∀ f ∈ r.fields, f.ty ≠ .rc → bitsOf (e.raw a).toNat f.hi f.lo = bitsOf (s.dev.raw a).toNat f.hi f.lo) ∧
        (∀ b, b ≠ a → e.raw b = s.dev.raw b) ∧ e.force = s.dev.force ∧ e.shadow = s.dev.shadow ∧ e.plat = s.dev.plat ∧ e.mram = s.dev.mram ∧
        e.out = s.dev.out ∧ s.dev.sameRegions e := by
  have tidy := regAt_tidy hr
  apply completes_readClearRead
  rw [Dev.barRead_word ha, Dev.read32_plain hk hl ht hc, Dev.readClear_of_regAt hr]
  refine ⟨rfl, fun f hf hty => ?_, fun f hf hty => ?_, fun b hb => Dev.raw_setRaw_other _ _ _ _ hb, rfl, rfl, rfl, rfl, rfl,
    Dev.sameRegions_refl _⟩
  · rw [Dev.raw_setRaw_same, bitsOf_readClear tidy hf, if_pos hty]
  · rw [Dev.raw_setRaw_same, bitsOf_readClear tidy hf, if_neg hty]
    rfl

/-- PLT_TICK_LO latches the upper half of the tick counter (R9). -/
theorem pltTickLoRead_latches (s : State) :
    completes .pltTickLoRead s fun e => e.readVal = s.dev.now % 2 ^ 32 ∧ e.rd F.pltTickHi = s.dev.now / 2 ^ 32 ∧
      (∀ f : RegField, f.addr ≠ F.pltTickHi.addr → e.rd f = s.dev.rd f) ∧ e.plat = s.dev.plat := by
  have hlt := s.dev.now_lt
  apply completes_pltTickLoRead
  rw [Dev.read32_tickLo, Dev.latchTick]
  refine ⟨?_, ?_, fun f hf => Dev.rd_wr_other _ _ _ _ hf, Dev.wr_plat _ _ _⟩
  · rw [Dev.wr_readVal, Dev.answer_readVal, Dev.view_tickLo]
  · rw [Dev.rd_wr_same _ _ (by decide)]
    show s.dev.now / 2 ^ 32 % 2 ^ 32 = s.dev.now / 2 ^ 32
    omega

/-- The LO word of a split register latches its HI word (R9). -/
theorem latchedLoRead_latches (s : State) {a : Nat} (ha : a % 4 = 0) (h : latchesHi a = true) :
    completes (.latchedLoRead ⟨a, 4⟩) s fun e => e.readVal = s.dev.view a ∧
      e.raw (a + 4) = w32 (if a = F.sflCapLo.addr then s.dev.capUnits / 2 ^ 32 else Map.get 0 s.dev.plat.hiLive (a + 4)) ∧
      (∀ b, b ≠ a + 4 → e.raw b = s.dev.raw b) ∧ e.plat = s.dev.plat := by
  apply completes_latchedLoRead
  rw [Dev.barRead_word ha, Dev.read32_latches h, Dev.latchHi]
  exact ⟨rfl, Dev.raw_setRaw_same _ _ _, fun b hb => Dev.raw_setRaw_other _ _ _ _ hb, rfl⟩

/-- A read of another width, or one that is not aligned, returns zero and is counted (R36). -/
theorem readClearRead_lost (s : State) {a n : Nat} (h4 : ¬ (n = 4 ∧ a % 4 = 0)) (h8 : ¬ (n = 8 ∧ a % 8 = 0)) :
    completes (.readClearRead ⟨a, n⟩) s fun e => e.readVal = 0 ∧
      e.ignoredCount (countedAt a) = satInc 32 (s.dev.ignoredCount (countedAt a)) ∧ e.errorShows (countedAt a) 31 ∧
      (∀ f : RegField, f.steady → e.rd f = s.dev.rd f) ∧ s.dev.sameRegions e := by
  apply completes_readClearRead
  rw [Dev.barRead_lost h4 h8]
  exact ⟨(Dev.countIgnored_beside _ _ _ _).readVal, Dev.ignoredCount_countIgnored _ _ _ _, Dev.errorShows_countIgnored _ _ _ _,
    fun f hf => Dev.rd_countIgnored hf _ _ _, Dev.countIgnored_sameRegions (s.dev.answer 0) _ _ _⟩

/-! ## Error injection -/

/-- The write to PG_ERR_INJ with the key and DATA = 0 is the report of its bit, and no more (R41). -/
theorem Dev.write32_errInj {d : Dev} {page bit i : Nat} {k : Kind} (hp : page % 4096 = 0) (hbit : bit < 32)
    (hk : kindAt (page + 0x1C) = some (k, i)) (ht : d.takesWrite k (page + 0x1C) = true)
    (hc : ∀ hi lo, d.calOwns (page + 0x1C) hi lo = false) :
    ∃ g : Mram → Mram, d.write32 (page + 0x1C) (0xE1000000 + bit) 0 = (d.raise page bit).onMram g ∧
      (g (d.raise page bit).mram).chipLog = (d.raise page bit).mram.chipLog := by
  have ha : (page + 0x1C) % 4096 = 0x1C := by omega
  have hpage : pageOf (page + 0x1C) = page := by unfold pageOf; omega
  have hpage' : pageOf page = page := by unfold pageOf; omega
  have hz : ∀ b < 32, (0xE1000000 + b) &&& 0xFF00011F = 0xE1000000 + b := by decide
  obtain ⟨g, hg, hlog, -⟩ := (d.raise page bit).stampData_onMram d.mram.accessLog.written (page + 0x1C) (0xE1000000 + bit)
  refine ⟨g, ?_, hlog⟩
  rw [Dev.write32_taken hk (regAt_errInj hk ha) (by decide) ht (Dev.writeBarred_errInj ha hc k _) (by omega) (hz bit hbit),
    Dev.writeAct_errInj ha, Option.getD_some, hpage, Dev.injectWrite_raise d page hbit, hpage', hg]

/-- PG_ERR_INJ with the key and DATA = 0 (R41). -/
theorem errorInject_raises (s : State) (page bit : Nat) (k : Kind) (i : Nat) (hp : page % 4096 = 0) (hbit : bit < 32)
    (hk : kindAt (page + 0x1C) = some (k, i)) (ht : s.dev.takesWrite k (page + 0x1C) = true)
    (hc : ∀ hi lo, s.dev.calOwns (page + 0x1C) hi lo = false) :
    completes (.errorInject page (0xE1000000 + bit)) s fun e => ∃ m : Dev, e = m.hatPump ∧ m.errorShows page bit ∧
      (∀ b, b < 32 → s.dev.errorShows page b → m.errorShows page b) ∧ (∀ f : RegField, f.steady → m.rd f = s.dev.rd f) ∧
      (1 ≤ s.dev.errLevel page bit → (Map.get 0 m.plat.errSum page).testBit bit = true) ∧
      m.mram.chipLog.written = s.dev.mram.chipLog.written + (if 2 ≤ s.dev.errLevel page bit then 1 else 0) ∧
      (s.dev.errLevel page bit = 3 → m.causeShows (regionOf page)) ∧
      m.plat.fences = s.dev.plat.fences ∧ m.plat.safe = s.dev.plat.safe ∧ m.plat.armed = s.dev.plat.armed ∧ s.dev.sameRegions m := by
  have hpage : pageOf page = page := by unfold pageOf; omega
  have hregion : regionOf page < 32 := by have := kindAt_lt hk; unfold regionOf; omega
  have alike := s.dev.raise_plat page bit 0
  obtain ⟨g, hw, hlog⟩ := Dev.write32_errInj hp hbit hk ht hc
  rw [← hpage] at hw
  refine completes_errorInject ⟨_, congrArg Dev.hatPump hw, ?_⟩
  rw [hpage]
  refine ⟨Dev.report_errorShows _ _ _ _ _ hbit (.inl rfl), fun b hb h => Dev.report_errorShows _ _ _ _ _ hb (.inr h),
    fun f hf => Dev.rd_raise hf page bit 0, fun h => ?_, ?_, fun h => ?_, alike.fences, alike.safe, alike.armed, s.dev.raise_sameRegions page bit 0⟩
  · have := s.dev.report_errSum page bit 0 h
    rwa [hpage] at this
  · exact (congrArg Log.written hlog).trans (s.dev.report_logs page bit _ 0).2
  · have := s.dev.report_causeShows page bit 0 (by rwa [hpage])
    rw [hpage, ← h] at this
    exact this

/-- Settles O7: a read shows the register's view and then clears or latches what its register names; an injection without DATA is a report. -/
theorem readsAndInjection : Obligations.ReadsAndInjection := by
  unfold Obligations.ReadsAndInjection
  refine ⟨fun s => ⟨fun a k i r => readClearRead_plain, pltTickLoRead_latches s, fun a => latchedLoRead_latches s, fun a n ha hk h => ?_,
    fun a ha => ⟨?_, ?_⟩, fun a n => readClearRead_lost s⟩, errorInject_raises⟩
  · exact completes_readClearRead ((Dev.barRead_word ha _).trans (Dev.read32_csData hk h _))
  · exact completes_readClearRead (Dev.barRead_double ha _)
  · exact completes_latchedLoRead (Dev.barRead_double ha _)

end Sys2Proof.Machine
end

section
/-! What no command undoes: the safe state, the security floor, what was sent, and the time between two tick boundaries. -/
namespace Sys2Proof.Machine
open Sys2Proof

/-- What a command keeps, told of any next state it answers. -/
theorem Steps.of_next {b : Dev} {s t : State} {o : Host.Outcome State Fault Refusal} (h : Steps b s o) (ht : o = .next t) : Keeps b t.dev := by
  obtain ⟨e, he, hk⟩ := h
  obtain rfl : { s with dev := e } = t := Host.Outcome.next.inj (he.symm.trans ht)
  exact hk

/-- A command that keeps, as a completion. -/
theorem Steps.completes {b : Dev} {s : State} {c : Instr} {Q : Dev → Prop} (h : Steps b s (exec c s)) (hQ : ∀ e, Keeps b e → Q e) :
    completes c s Q := by
  obtain ⟨e, he, hk⟩ := h
  exact ⟨e, he, hQ e hk⟩

/-- Start-up begins in chip reset only (R519). -/
theorem Dev.startUp_of_ne_reset {d : Dev} (h : d.plat.boot ≠ .reset) (x : StartIn) : d.startUp x = d := if_pos h

/-- TICK_BOUNDARY keeps what the device one tick on holds. -/
theorem exec_tickBoundary_keeps_later (x : TickEnv) (s : State) : Steps s.dev.later s (exec (.tickBoundary x) s) := execTickBoundary_keeps

/-- Outside chip reset STARTUP too keeps the time, since it does nothing. -/
theorem exec_keeps_time_outside_reset {c : Instr} {s : State} (hb : s.dev.plat.boot ≠ .reset) (h : ∀ l, c ≠ .resetNAssert l)
    (h' : ∀ r, c ≠ .softResetTakesEffect r) (ht : ∀ x, c ≠ .tickBoundary x) : Steps s.dev s (exec c s) := by
  by_cases hs : ∃ x, c = .startup x
  · obtain ⟨x, rfl⟩ := hs
    have : Keeps s.dev (s.dev.startUp x) := by rw [Dev.startUp_of_ne_reset hb x]; exact Keeps.rfl' s.dev
    exact ⟨_, rfl, this⟩
  · exact exec_keeps_time c s h h' ht fun x e => hs ⟨x, e⟩

/-- Settles O60: the security floor and what was sent are kept by every command, the safe state by all but the resets, and the time by
all but these and TICK_BOUNDARY, which moves it by one. -/
theorem everyStepHolds : Obligations.EveryStepHolds := by
  unfold Obligations.EveryStepHolds
  intro c s t hst
  have always := (exec_keeps_awake c s).of_next hst
  refine ⟨always.svn, always.sent, fun h h' => ⟨((exec_keeps c s h h').of_next hst).safe, fun hb => ⟨?_, fun ht => ?_⟩⟩⟩
  · rintro x rfl
    exact (((exec_tickBoundary_keeps_later x s).of_next hst).time hb).1
  · exact (((exec_keeps_time_outside_reset hb h h' ht).of_next hst).time hb).1

/-- Settles O15: TICK_BOUNDARY keeps what the device one tick on holds, every other command what the device itself holds. -/
theorem timePasses : Obligations.TimePasses := by
  unfold Obligations.TimePasses
  intro s hb
  refine ⟨fun env => (exec_tickBoundary_keeps_later env s).completes fun e hk => hk.time hb, fun c ht hs h h' => ?_⟩
  exact (exec_keeps_time c s h h' ht hs).completes fun e hk => hk.time hb

end Sys2Proof.Machine
end

section
/-! SUPPORT. Errors and counters side by side: what a raised error shows and leaves, seen from the field or the page that a statement names. -/
namespace Sys2Proof.Machine
open Sys2Proof

theorem Dev.errorShows_wr (d : Dev) {f : RegField} (h : 256 ≤ f.addr % 4096) (v page bit : Nat) :
    (d.wr f v).errorShows page bit ↔ d.errorShows page bit := by
  have : pageOf page + 0x10 ≠ f.addr := by unfold pageOf; omega
  rw [Dev.errorShows, Dev.errorShows, Dev.raw_wr_other _ _ _ _ this]

theorem Dev.raise_errorShows (d : Dev) (page info : Nat) {bit : Nat} (h : bit < 32) : (d.raise page bit info).errorShows page bit :=
  d.report_errorShows page bit _ info h (.inl rfl)

/-- A counter that is counted beside an error reads one more. -/
theorem Dev.rd_count_raise (d : Dev) {f : RegField} (h : f.ok) (hs : f.steady) (page bit info : Nat) :
    ((d.count f).raise page bit info).rd f = satInc (f.hi + 1 - f.lo) (d.rd f) := by
  rw [Dev.rd_raise hs, Dev.rd_count _ _ h]

@[simp] theorem Dev.raise_srv (d : Dev) (page bit info : Nat) : (d.raise page bit info).srv = d.srv := by
  obtain ⟨-, -, -, -, -, -, -, -, h, -, -⟩ := d.raise_sameRegions page bit info
  exact h

@[simp] theorem Dev.raise_cal (d : Dev) (page bit info : Nat) : (d.raise page bit info).cal = d.cal := by
  obtain ⟨-, -, -, -, -, -, -, -, -, -, h⟩ := d.raise_sameRegions page bit info
  exact h

end Sys2Proof.Machine
end

section
/-! Cells that were not finished in their compute window (R16). -/
namespace Sys2Proof.Machine
open Sys2Proof

/-! ## What an engine, a drive of the servo, a spindle and an axis hold -/

theorem Dev.eng_onEng (d : Dev) (e : Nat) (f : Eng → Eng) : (d.onEng e f).eng e = f (d.eng e) := by
  simp [Dev.onEng, Dev.eng]

theorem Dev.srvDrive_onEng (d : Dev) (e n : Nat) (f : Eng → Eng) : (d.onEng e f).srvDrive n = d.srvDrive n := by
  simp [Dev.onEng, Dev.srvDrive]

theorem Dev.srvDrive_onSrvDrive (d : Dev) (n : Nat) (f : SrvDrive → SrvDrive) : (d.onSrvDrive n f).srvDrive n = f (d.srvDrive n) := by
  simp [Dev.onSrvDrive, Dev.srvDrive]

theorem Dev.eng_onSrvDrive (d : Dev) (n e : Nat) (f : SrvDrive → SrvDrive) : (d.onSrvDrive n f).eng e = d.eng e := rfl

theorem Dev.eng_raise (d : Dev) (page bit info e : Nat) : (d.raise page bit info).eng e = d.eng e := by simp [Dev.eng]

theorem Dev.srvDrive_raise (d : Dev) (page bit info n : Nat) : (d.raise page bit info).srvDrive n = d.srvDrive n := by simp [Dev.srvDrive]

/-- A spindle's record shows in one register beyond the pages' headers. -/
theorem Dev.errorShows_onSpin (d : Dev) (n : Nat) (f : Spin → Spin) (page bit : Nat) :
    (d.onSpin n f).errorShows page bit ↔ d.errorShows page bit := by
  unfold Dev.onSpin
  exact Dev.errorShows_wr _ (by simp only [F.spStat_state]; omega) _ _ _

theorem Dev.rd_onSpin (d : Dev) (n : Nat) (f : Spin → Spin) {g : RegField} (h : g.addr ≠ (F.spStat_state n).addr) :
    (d.onSpin n f).rd g = d.rd g := Dev.rd_wr_other _ _ _ _ h

theorem Dev.errorShows_onAxis (d : Dev) (m : Nat) (f : Axis → Axis) (page bit : Nat) :
    (d.onAxis m f).errorShows page bit ↔ d.errorShows page bit := by
  unfold Dev.onAxis
  exact Dev.errorShows_wr _ (by simp only [F.stStat_state]; omega) _ _ _

theorem Dev.rd_onAxis (d : Dev) (m : Nat) (f : Axis → Axis) {g : RegField} (h : g.addr ≠ (F.stStat_state m).addr) :
    (d.onAxis m f).rd g = d.rd g := Dev.rd_wr_other _ _ _ _ h

/-! ## The four kinds of cell -/

theorem completes_computeWindowClose {c : TickCell} {s : State} {Q : Dev → Prop}
    (h : Q (match c with
      | .servo e loops => s.dev.servoOverrun (e % 12) loops
      | .dtc n => s.dev.dtcOverrun (n % 4)
      | .step m => s.dev.stepOverrun (m % 8)
      | .tap item => s.dev.tapOverrun item)) : completes (.computeWindowClose c) s Q := ⟨_, rfl, h⟩

theorem Dev.dtcOverrun_shows (d : Dev) {n : Nat} (hn : n < 4) :
    (d.dtcOverrun n).rd (F.spCnt n 8) = satInc 32 (d.rd (F.spCnt n 8)) ∧ (d.dtcOverrun n).errorShows (Pg.motSp n) Er.motSp_dtcOverrun := by
  have steady : (F.spCnt n 8).steady := by simp only [RegField.steady, F.spCnt]; omega
  have apart : (F.spCnt n 8).addr ≠ (F.spStat_state n).addr := by simp only [F.spCnt, F.spStat_state]; omega
  unfold Dev.dtcOverrun
  refine ⟨?_, ?_⟩
  · rw [Dev.rd_onSpin _ _ _ apart]
    exact Dev.rd_count_raise _ ⟨Nat.zero_le _, Nat.lt_succ_self 31⟩ steady _ _ _
  · exact (Dev.errorShows_onSpin _ _ _ _ _).2 (Dev.raise_errorShows _ _ _ (by decide))

theorem Dev.stepOverrun_eq {d : Dev} {a : Nat} (h : (d.axis a).st ≠ 0) (ho : d.axisOff a = false) :
    d.stepOverrun a = ((d.count (F.stCnt a 6)).raise (Pg.motSt a) Er.motSt_stepOverrun).onAxis a fun x =>
      { x with v := x.prev.1, a := x.prev.2.1, dir := x.prev.2.2, next := 0 } := by
  unfold Dev.stepOverrun
  exact if_neg (by simp [h, ho])

theorem Dev.stepOverrun_shows {d : Dev} {a : Nat} (ha : a < 8) (h : (d.axis a).st ≠ 0) (ho : d.axisOff a = false) :
    (d.stepOverrun a).rd (F.stCnt a 6) = satInc 32 (d.rd (F.stCnt a 6)) ∧ (d.stepOverrun a).errorShows (Pg.motSt a) Er.motSt_stepOverrun := by
  have steady : (F.stCnt a 6).steady := by simp only [RegField.steady, F.stCnt]; omega
  have apart : (F.stCnt a 6).addr ≠ (F.stStat_state a).addr := by simp only [F.stCnt, F.stStat_state]; omega
  rw [Dev.stepOverrun_eq h ho]
  refine ⟨?_, ?_⟩
  · rw [Dev.rd_onAxis _ _ _ apart]
    exact Dev.rd_count_raise _ ⟨Nat.zero_le _, Nat.lt_succ_self 31⟩ steady _ _ _
  · exact (Dev.errorShows_onAxis _ _ _ _ _).2 (Dev.raise_errorShows _ _ _ (by decide))

theorem Dev.tapOverrun_shows {d : Dev} {i : Nat} (h : d.calSteps i = true) (hs : d.cal.skip.contains i = false) :
    (d.tapOverrun i).cal = { d.cal with skip := d.cal.skip ++ [i] } ∧ (d.tapOverrun i).errorShows Pg.calReg Er.calReg_tapOverrun ∧
      (d.tapOverrun i).rd (F.calCnt 4) = satInc 32 (d.rd (F.calCnt 4)) := by
  have steady : (F.calCnt 4).steady := by decide
  unfold Dev.tapOverrun
  simp only [if_pos h]
  refine ⟨?_, ?_, ?_⟩
  · have : i ∉ d.cal.skip := by simpa using hs
    simp [Dev.count, this]
  · exact (Dev.errorShows_wr _ (by decide) _ _ _).2 (Dev.raise_errorShows _ _ _ (by decide))
  · rw [Dev.rd_count _ _ (by decide), Dev.rd_raise steady]
    rfl

/-- One loop of a computing engine stays as it was committed, its copy is late, and the overrun shows. -/
theorem Dev.servoOverrun_holds {d : Dev} {g l : Nat} {i : Image} (hl : l < 23) (hon : d.servoOn (g / 3) = true)
    (hc : (d.computing (g / 3)).contains g = true) (hi : (d.srvDrive (g / 3)).saved = some i) :
    ((d.servoOverrun g [l]).eng g).img = (d.eng g).img.map (fun j => j.onLoop l fun _ => i.loop l) ∧
      (d.servoOverrun g [l]).errorShows (Pg.srvEng g) Er.srvEng_overrun ∧
      ((d.servoOverrun g [l]).srvDrive (g / 3)).late = (d.srvDrive (g / 3)).late ++ [(g, l)] := by
  have one : (uniq [l]).filter (· < 23) = [l] := by simp [uniq, hl]
  unfold Dev.servoOverrun
  simp only [one, hi, hon, hc, List.isEmpty_cons, Bool.not_true, Bool.false_eq_true, or_self, if_false]
  refine ⟨?_, ?_, ?_⟩
  · rw [Dev.eng_onSrvDrive, Dev.eng_raise, Dev.eng_onEng]
    rfl
  · exact Dev.raise_errorShows _ _ _ (by decide)
  · rw [Dev.srvDrive_onSrvDrive, Dev.srvDrive_raise, Dev.srvDrive_onEng]
    rfl

/-- Settles O16: each kind of cell counts, raises its error, and goes on with what it held. -/
theorem overrunsHold : Obligations.OverrunsHold := by
  unfold Obligations.OverrunsHold
  intro s
  refine ⟨fun n hn => completes_computeWindowClose ?_, fun a ha h ho => completes_computeWindowClose ?_,
    fun i h hs => completes_computeWindowClose (Dev.tapOverrun_shows h hs), fun g l i hg hl hon hc hi => completes_computeWindowClose ?_⟩
  · obtain ⟨hcnt, herr⟩ := s.dev.dtcOverrun_shows hn
    simp only [Nat.mod_eq_of_lt hn]
    exact ⟨hcnt, herr, rfl⟩
  · obtain ⟨hcnt, herr⟩ := Dev.stepOverrun_shows ha h ho
    simp only [Nat.mod_eq_of_lt ha]
    exact ⟨hcnt, herr, Dev.stepOverrun_eq h ho⟩
  · simp only [Nat.mod_eq_of_lt hg]
    exact Dev.servoOverrun_holds hl hon hc hi

end Sys2Proof.Machine
end

section
/-! SUPPORT. What a map reads as after an entry is put. -/
namespace Sys2Proof.Machine
open Sys2Proof

theorem Map.get_put {α : Type} (dflt : α) (m : Map α) (k j : Nat) (v : α) :
    Map.get dflt (Map.put m k v) j = if j = k then v else Map.get dflt m j := by
  rw [Map.put, Map.get_insert _ _ _ _ _ (Map.erase_keys m k), Map.get_erase]
  split <;> rfl

end Sys2Proof.Machine
end

section
/-! The timebase (R11, R12) and the promotion of class 3 (R23). -/
namespace Sys2Proof.Machine
open Sys2Proof

/-! ## Loss of the reference -/

theorem Dev.wr_onPlat (d : Dev) (f : RegField) (v : Nat) (g : Plat → Plat) : (d.onPlat g).wr f v = (d.wr f v).onPlat g := by
  unfold Dev.wr
  split <;> rfl

/-- The device on the internal oscillator: the chip event follows. -/
def Dev.refGone (d : Dev) : Dev := (d.wr F.pltStat_refLost 1).onPlat fun p => { p with okRun := 0, slewing := false }

theorem Dev.refLost_eq {d : Dev} (h : d.flag F.pltStat_refLost = false) : d.refLost = d.refGone.chipEvent 12 := by
  unfold Dev.refLost
  exact if_neg (by simp [h])

theorem Dev.refGone_onPlat (d : Dev) : (d.onPlat fun p => { p with okRun := 0, slewing := false }).refGone = d.refGone := by
  rw [Dev.refGone, Dev.wr_onPlat]
  rfl

theorem Dev.flag_chipEvent {f : RegField} (h : f.steady) (d : Dev) (e : Nat) : (d.chipEvent e).flag f = d.flag f :=
  Dev.flag_steady (Dev.rd_chipEvent h e)

theorem refLost_steady : F.pltStat_refLost.steady := by decide

theorem Dev.refGone_flag (d : Dev) : d.refGone.flag F.pltStat_refLost = true :=
  Dev.flag_one d F.pltStat_refLost (by decide) rfl

theorem refclkLost_completes (s : State) (noEdge : Bool) (h : s.dev.flag F.pltStat_refLost = false) :
    completes (.refclkLost noEdge) s fun e => e = s.dev.refGone.chipEvent 12 := by
  refine ⟨_, rfl, ?_⟩
  show (if noEdge then _ else s.dev.refLost) = _
  cases noEdge
  case false => exact Dev.refLost_eq h
  case true =>
    exact (Dev.refLost_eq (d := s.dev.onPlat fun p => { p with okRun := 0, slewing := false }) h).trans
      (congrArg (Dev.chipEvent · 12) s.dev.refGone_onPlat)

/-! ## Its return -/

theorem unsgn_lt (w : Nat) (i : Int) : unsgn w i < 2 ^ w := by
  have h : (0 : Int) < ((2 ^ w : Nat) : Int) := by positivity
  have := Int.emod_lt_of_pos i h
  have := Int.emod_nonneg i (ne_of_gt h)
  unfold unsgn
  omega

theorem Dev.showPhase_eq {d : Dev} (h : d.flag F.pltStat_refLost = false) :
    d.showPhase = d.wr F.pltTickPhase (unsgn 16 d.plat.phase) := by
  unfold Dev.showPhase
  exact if_neg (by simp [h])

theorem Dev.rd_tickPhase (d : Dev) (i : Int) : (d.wr F.pltTickPhase (unsgn 16 i)).rd F.pltTickPhase = unsgn 16 i :=
  (Dev.rd_wr_same d F.pltTickPhase (by decide) _).trans (Nat.mod_eq_of_lt (unsgn_lt 16 i))

theorem Dev.slewEnds_eq {d : Dev} (h : d.flag F.pltStat_refLost = true) (hs : d.plat.slewing = true) (hp : d.plat.phase.natAbs < 10) :
    d.slewEnds = ((d.wr F.pltStat_refLost 0).chipEvent 12).wr F.pltTickPhase (unsgn 16 d.plat.phase) := by
  have clear : ((d.wr F.pltStat_refLost 0).chipEvent 12).flag F.pltStat_refLost = false :=
    (Dev.flag_chipEvent refLost_steady _ 12).trans (Dev.flag_zero d F.pltStat_refLost (by decide) rfl)
  unfold Dev.slewEnds
  rw [if_pos ⟨h, hs, hp⟩, Dev.showPhase_eq clear, ((d.wr F.pltStat_refLost 0).chipEvent_plat 12).phase, Dev.wr_plat]

theorem Dev.phaseStep_eq {d : Dev} (h : d.flag F.pltStat_refLost = false) (ns : Int) :
    d.phaseStep ns = (d.onPlat fun p => { p with phase := p.phase + ns, slewing := true }).wr F.pltTickPhase (unsgn 16 (d.plat.phase + ns)) := by
  unfold Dev.phaseStep
  exact (if_neg (by simp [h])).trans (Dev.showPhase_eq h)

theorem Dev.causeShows_wr (d : Dev) {f : RegField} (h : f.addr ≠ F.pltEvtCause.addr) (v e : Nat) :
    (d.wr f v).causeShows e ↔ d.causeShows e := by
  rw [Dev.causeShows, Dev.causeShows, Dev.raw_wr_other _ _ _ _ h.symm]

/-! ## Promotion -/

theorem Dev.jobReq_congr {d e : Dev} (h : e.hat = d.hat) : e.jobReq = d.jobReq := by
  funext j
  unfold Dev.jobReq
  rw [h]

theorem Dev.flashReady_congr {d e : Dev} (h : e.rd F.sflStat = d.rd F.sflStat) (hs : e.sfl = d.sfl) : e.flashReady = d.flashReady := by
  rw [Dev.flashReady, Dev.flashReady, h, hs]

theorem Dev.classServed_congr {d e : Dev} (h : e.rd F.pltThermStat_level = d.rd F.pltThermStat_level) (hp : e.plat = d.plat) (cls : Nat) :
    e.classServed cls = d.classServed cls := by
  unfold Dev.classServed Dev.now
  rw [h, hp]

theorem Dev.promoteJob_grants {d : Dev} {r : ArbReq} (hf : d.flashReady = true) (hc : d.classServed 2 = true)
    (hr : (d.sfl.jobs.map d.jobReq).find? (fun r => r.cls == 3) = some r) : d.promoteJob = (d.promoted r).advance r.key := by
  unfold Dev.promoteJob
  simp only [hf, hc, hr, Bool.not_true, Bool.or_self, Bool.false_eq_true, if_false]

theorem Dev.promoteJob_idle {d : Dev} (h : ∀ j ∈ d.sfl.jobs, (d.jobReq j).cls ≠ 3) : d.promoteJob = d := by
  have : (d.sfl.jobs.map d.jobReq).find? (fun r => r.cls == 3) = none := by
    simpa [List.find?_eq_none] using h
  unfold Dev.promoteJob
  simp only [this, ite_self]

/-- A promotion moves the fabric's search within class 2 and no region's round. -/
theorem Dev.promoted_arb (d : Dev) (r : ArbReq) :
    Map.get 0 (d.promoted r).plat.arb.chip 2 = r.region + 1 ∧ (d.promoted r).plat.arb.rounds = d.plat.arb.rounds :=
  ⟨(Map.get_put 0 d.plat.arb.chip 2 2 (r.region + 1)).trans (if_pos rfl), rfl⟩

/-- The device whose promotion is counted. -/
def Dev.promoCounted (d : Dev) : Dev := d.count F.pltArbCntPromo

theorem Dev.rd_promoCounted (d : Dev) {f : RegField} (h : f.addr ≠ F.pltArbCntPromo.addr) : d.promoCounted.rd f = d.rd f :=
  Dev.rd_wr_other _ _ _ _ h

theorem Dev.promoCounted_plat (d : Dev) : d.promoCounted.plat = d.plat := Dev.wr_plat _ _ _

theorem Dev.promoCounted_sfl (d : Dev) : d.promoCounted.sfl = d.sfl := Dev.wr_sfl _ _ _

theorem Dev.promoCounted_jobReq (d : Dev) : d.promoCounted.jobReq = d.jobReq := Dev.jobReq_congr (Dev.wr_hat _ _ _)

theorem class3Promotion_completes (s : State) {waited : Nat} (h : s.dev.rd F.pltArbPromo ≤ waited) :
    completes (.class3Promotion waited) s fun e => e = s.dev.promoCounted.promoteJob := ⟨_, rfl, if_neg (Nat.not_lt.2 h)⟩

/-- Settles O3: each command is an equation over the field it writes, the event it raises and the timebase's record; a promotion counts and
moves the searches before its job goes on. -/
theorem timebaseCommands : Obligations.TimebaseCommands := by
  unfold Obligations.TimebaseCommands
  refine ⟨fun s => ⟨fun noEdge h => ?lost, fun h hok hs => ?returned, fun h hs hp => ?slewed, fun ns h => ?stepped⟩,
    fun s waited => ⟨fun h => ?promoted, fun h => ⟨_, rfl, if_pos h⟩⟩⟩
  case lost =>
    obtain ⟨e, he, rfl⟩ := refclkLost_completes s noEdge h
    refine ⟨_, he, ?_, Dev.chipEvent_causeShows _ 12 (by decide), s.dev.refGone, rfl, s.dev.refGone_flag, fun f hf => Dev.rd_wr_other _ _ _ _ hf,
      ?_, ?_, Dev.wr_sameRegions _ _ _⟩
    · exact (Dev.flag_chipEvent refLost_steady _ 12).trans s.dev.refGone_flag
    · rw [Dev.refGone, Dev.onPlat_plat, Dev.wr_plat]
    · exact Dev.wr_mram _ _ _
  case returned => exact ⟨_, rfl, if_pos ⟨h, hok, by simp [hs]⟩⟩
  case slewed =>
    have clear := Dev.flag_zero s.dev F.pltStat_refLost (by decide) rfl
    refine ⟨_, rfl, ?_⟩
    simp only [Dev.slewEnds_eq h hs hp]
    refine ⟨?_, Dev.rd_tickPhase _ _, (Dev.causeShows_wr _ (by decide) _ _).2 (Dev.chipEvent_causeShows _ 12 (by decide)), _, rfl, clear,
      fun f hf => Dev.rd_wr_other _ _ _ _ hf, Dev.wr_plat _ _ _, Dev.wr_mram _ _ _, Dev.wr_sameRegions _ _ _⟩
    rw [Dev.flag_wr_other _ _ _ _ (by decide), Dev.flag_chipEvent refLost_steady, clear]
  case stepped =>
    refine ⟨_, rfl, ?_⟩
    simp only [Dev.phaseStep_eq h]
    refine ⟨Dev.wr_plat _ _ _, Dev.rd_tickPhase _ _, ?_, fun f hf => Dev.rd_wr_other _ _ _ _ hf, Dev.wr_mram _ _ _, Dev.wr_sameRegions _ _ _⟩
    rw [Dev.flag_wr_other _ _ _ _ (by decide), Dev.flag_onPlat, h]
  case promoted =>
    obtain ⟨e, he, rfl⟩ := class3Promotion_completes s h
    refine ⟨_, he, s.dev.promoCounted, Dev.rd_count _ _ (by decide), fun f hf => Dev.rd_promoCounted _ hf, s.dev.promoCounted_plat,
      Dev.wr_mram _ _ _, Dev.wr_sameRegions _ _ _, fun r hf hc hr => ⟨s.dev.promoCounted.promoted r, ?_, (Dev.promoted_arb _ r).1, (Dev.promoted_arb _ r).2,
        fun f => rfl, rfl, Dev.sameRegions_refl _⟩, fun h => ?_⟩
    · refine Dev.promoteJob_grants ?_ ?_ ?_
      · rwa [Dev.flashReady_congr (Dev.rd_promoCounted _ (by decide)) s.dev.promoCounted_sfl]
      · rwa [Dev.classServed_congr (Dev.rd_promoCounted _ (by decide)) s.dev.promoCounted_plat]
      · rwa [s.dev.promoCounted_sfl, s.dev.promoCounted_jobReq]
    · refine Dev.promoteJob_idle ?_
      rw [s.dev.promoCounted_sfl, s.dev.promoCounted_jobReq]
      exact h

end Sys2Proof.Machine
end

section
/-! SUPPORT. Fences: which pages a fence closes, the pages of cells, and the first step of R29 as one equation. -/
namespace Sys2Proof.Machine
open Sys2Proof

/-! ## Units -/

theorem Dev.unitAt_congr {d e : Dev} (h : e.plat.units = d.plat.units) (page : Nat) : e.unitAt page = d.unitAt page := by
  unfold Dev.unitAt
  rw [h]

theorem Dev.unitAt_setUnit (d : Dev) (page : Nat) (u : UnitSt) : (d.setUnit page u).unitAt page = u :=
  (Map.get_put _ _ _ _ _).trans (if_pos rfl)

/-! ## Closed ports -/

/-- The pages whose fence closes a page: its unit, and the block and the region that contain it. -/
def enclosing (page : Nat) : List Nat := [masterOf page, (containing page).1, (containing page).2]

theorem Dev.closed_iff (d : Dev) (page : Nat) : d.closed page = true ↔
    ∃ x ∈ enclosing page, d.unitAt x = .fenced ∨ ∃ f ∈ d.plat.fences, f.unit = x ∨ x ∈ f.within := by
  simp only [Dev.closed, enclosing, List.any_eq_true, Bool.or_eq_true, decide_eq_true_eq, beq_iff_eq, List.contains_iff_mem]

theorem Dev.closed_congr {d e : Dev} (hu : e.plat.units = d.plat.units) (hf : e.plat.fences = d.plat.fences) (page : Nat) :
    e.closed page = d.closed page := by
  rw [Bool.eq_iff_iff, Dev.closed_iff, Dev.closed_iff, hf]
  simp only [Dev.unitAt_congr hu]

/-- A page is closed by one more fence just where that fence is of the page's unit or of what contains it. -/
theorem Dev.closed_of_fences_append {d e : Dev} {g : Fence} (hu : e.plat.units = d.plat.units) (hf : e.plat.fences = d.plat.fences ++ [g])
    (hw : g.within = []) (page : Nat) : e.closed page = true ↔ d.closed page = true ∨ g.unit ∈ enclosing page := by
  rw [Dev.closed_iff, Dev.closed_iff, hf]
  simp only [Dev.unitAt_congr hu, List.mem_append, List.mem_singleton, or_and_right, exists_or, exists_eq_left, hw, List.not_mem_nil, or_false]
  constructor
  · rintro ⟨x, hx, h | h | h⟩
    · exact .inl ⟨x, hx, .inl h⟩
    · exact .inl ⟨x, hx, .inr h⟩
    · exact .inr (h ▸ hx)
  · rintro (⟨x, hx, h | h⟩ | h)
    · exact ⟨x, hx, .inl h⟩
    · exact ⟨x, hx, .inr (.inl h)⟩
    · exact ⟨g.unit, h, .inr (.inr rfl)⟩

/-! ## The pages of cells -/

/-- The cells that there are: cores, codecs, hashers, stripe engines and decoders by their numbers, and any LUN. -/
def Cell.inRange : Cell → Prop
  | .core i => i < 8
  | .codec i => i < 16
  | .sha i => i < 8
  | .stripe i => i < 16
  | .ldpc i => i < 32
  | .lun _ => True

theorem kindAt_cellPage (c : Cell) : kindAt (cellPage c) = none := by
  cases h : kindAt (cellPage c) with
  | none => rfl
  | some x =>
    have := kindAt_lt h
    unfold cellPage at this
    omega

theorem masterOf_cellPage (c : Cell) : masterOf (cellPage c) = cellPage c := by
  unfold masterOf
  rw [kindAt_cellPage]
  show cellPage c - cellPage c % 4096 = cellPage c
  unfold cellPage
  omega

theorem cellAt_eq_none {page : Nat} (h : page < 2 ^ 32) : cellAt page = none := if_pos h

theorem cellAt_of_num {page n : Nat} (hp : 2 ^ 32 ≤ page) (hn : (page - 2 ^ 32) / 4096 = n) :
    cellAt page = if n < 8 then some (.core n) else if n < 24 then some (.codec (n - 8)) else if n < 32 then some (.sha (n - 24))
      else if n < 48 then some (.stripe (n - 32)) else if n < 80 then some (.ldpc (n - 48)) else some (.lun (n - 80)) := by
  subst hn
  exact if_neg (Nat.not_lt.2 hp)

/-- The number of a cell names its kind and its place in it. -/
theorem cellAt_cellPage {c : Cell} (h : c.inRange) : cellAt (cellPage c) = some c := by
  have num : (cellPage c - 2 ^ 32) / 4096 = cellNo c := by unfold cellPage; omega
  have hn := cellAt_of_num (page := cellPage c) (Nat.le_add_right _ _) num
  cases c with
  | core i =>
    have h : i < 8 := h
    exact hn.trans (if_pos h)
  | codec i =>
    have h : i < 16 := h
    rw [hn, show cellNo (.codec i) = 8 + i from rfl, if_neg (by omega), if_pos (by omega), Nat.add_sub_cancel_left]
  | sha i =>
    have h : i < 8 := h
    rw [hn, show cellNo (.sha i) = 24 + i from rfl, if_neg (by omega), if_neg (by omega), if_pos (by omega), Nat.add_sub_cancel_left]
  | stripe i =>
    have h : i < 16 := h
    rw [hn, show cellNo (.stripe i) = 32 + i from rfl, if_neg (by omega), if_neg (by omega), if_neg (by omega), if_pos (by omega),
      Nat.add_sub_cancel_left]
  | ldpc i =>
    have h : i < 32 := h
    rw [hn, show cellNo (.ldpc i) = 48 + i from rfl, if_neg (by omega), if_neg (by omega), if_neg (by omega), if_neg (by omega),
      if_pos (by omega), Nat.add_sub_cancel_left]
  | lun k =>
    rw [hn, show cellNo (.lun k) = 80 + k from rfl, if_neg (by omega), if_neg (by omega), if_neg (by omega), if_neg (by omega),
      if_neg (by omega), Nat.add_sub_cancel_left]

theorem testBit_maskOf (l : List Bool) (i : Nat) : (maskOf l).testBit i = l.getD i false := by
  induction l generalizing i with
  | nil => simp [maskOf]
  | cons b l ih =>
    have : maskOf (b :: l) = 2 * maskOf l + b2n b := Nat.add_comm _ _
    rw [this]
    cases i with
    | zero => cases b <;> simp [b2n, Nat.testBit_zero, Nat.add_mod]
    | succ i =>
      rw [List.getD_cons_succ, ← ih, Nat.testBit_succ]
      congr 1
      have : b2n b < 2 := by cases b <;> decide
      omega

theorem Dev.testBit_cellsOut (d : Dev) (f : RegField) (cell : Nat → Cell) {n i : Nat} (h : i < n) :
    (d.cellsOut f cell n).testBit i = ((d.rd f).testBit i || d.closed (cellPage (cell i))) := by
  rw [Dev.cellsOut, testBit_maskOf]
  simp [List.getD, h]

/-! ## The first step of a fence (R29) -/

/-- The owners that act for a unit or a cell, and are fenced with it. -/
def Dev.fenceOwners (d : Dev) (u : Nat) : List Nat :=
  match cellAt u with
  | some (.core c) => [40 + c]
  | some _ => []
  | none => d.ownersOf u

/-- The units that a region's fence takes in. -/
def Dev.fenceWithin (d : Dev) (u : Nat) : List Nat := if u < 2 ^ 32 ∧ u % 0x100000 = 0 then d.unitsIn (regionOf u) else []

/-- The owners' units read FENCED. -/
def ownersFenced (units : Map UnitSt) (owners : List Nat) : Map UnitSt :=
  owners.foldl (fun m o => Map.put m (0x520000 + 0x1000 * o) .fenced) units

theorem Dev.onPlat_ownersFenced (d : Dev) (owners : List Nat) :
    owners.foldl (fun (d : Dev) o => d.onPlat fun p => { p with units := Map.put p.units (0x520000 + 0x1000 * o) .fenced }) d =
      d.onPlat fun p => { p with units := ownersFenced p.units owners } := by
  induction owners generalizing d with
  | nil => rfl
  | cons o owners ih => rw [List.foldl_cons, ih]; rfl

/-- The device in which the fence of unit `u` has begun. -/
def Dev.fenceBegun (d : Dev) (u : Nat) (err : Option (Nat × Nat)) : Dev :=
  ((d.onPlat fun p => { p with
      fences := p.fences.filter (fun f => !(d.fenceWithin u).contains f.unit) ++ [⟨u, d.now, d.fenceWithin u, err⟩] }).onBpm fun b =>
    { b with fenced := b.fenced ++ (d.fenceOwners u).filter (fun o => !b.fenced.contains o) }).onPlat fun p =>
    { p with units := ownersFenced p.units (d.fenceOwners u) }

/-- A unit whose ports are open, and which is not a replaceable unit that is OFF, begins its fence. -/
theorem Dev.fence1_eq {d : Dev} {unit : Nat} (err : Option (Nat × Nat)) (hc : d.closed (masterOf unit) = false)
    (hoff : d.unitAt (masterOf unit) = .off → ∀ k i, kindAt (masterOf unit) = some (k, i) → k.desc.isolate = false) :
    d.fence1 unit err = d.fenceBegun (masterOf unit) err := by
  unfold Dev.fence1
  refine (if_neg fun h => ?_).trans (Dev.onPlat_ownersFenced _ _)
  rw [hc, Bool.false_or, Bool.and_eq_true, decide_eq_true_eq] at h
  obtain ⟨ho, hi⟩ := h
  cases hk : kindAt (masterOf unit) with
  | none => simp [hk] at hi
  | some x => simp [hk, hoff ho x.1 x.2 hk] at hi

/-- The fence of a cell that is no core touches nothing but the list of fences. -/
theorem Dev.fenceBegun_cell {d : Dev} {c : Cell} (h : c.inRange) (hcore : ∀ i, c ≠ .core i) (err : Option (Nat × Nat)) :
    d.fenceBegun (cellPage c) err = d.onPlat fun p => { p with fences := p.fences ++ [⟨cellPage c, d.now, [], err⟩] } := by
  have within : d.fenceWithin (cellPage c) = [] := if_neg (by unfold cellPage; omega)
  have owners : d.fenceOwners (cellPage c) = [] := by
    unfold Dev.fenceOwners
    rw [cellAt_cellPage h]
    cases c with
    | core i => exact absurd rfl (hcore i)
    | _ => rfl
  rw [Dev.fenceBegun, within, owners]
  simp [Dev.onPlat, Dev.onBpm, ownersFenced]

theorem Dev.fence1_cell {d : Dev} {c : Cell} (h : c.inRange) (hcore : ∀ i, c ≠ .core i) (hc : d.closed (cellPage c) = false)
    (err : Option (Nat × Nat)) :
    d.fence1 (cellPage c) err = d.onPlat fun p => { p with fences := p.fences ++ [⟨cellPage c, d.now, [], err⟩] } := by
  have m := masterOf_cellPage c
  rw [Dev.fence1_eq err (by rwa [m]) (fun _ k i hk => absurd (m ▸ hk) (by simp [kindAt_cellPage])), m, Dev.fenceBegun_cell h hcore]

end Sys2Proof.Machine
end

section
/-! Known-answer checks (R29, R103, R245, R300, R491). -/
namespace Sys2Proof.Machine
open Sys2Proof

/-! ## A failed engine's fence -/

/-- An engine of a page's block is reported there, and its fence begins. -/
def Dev.engineFenced (d : Dev) (c : Cell) (page bit info : Nat) : Dev :=
  (d.raise page bit info).fence1 (cellPage c) (some (page, bit))

section
variable {d : Dev} {c : Cell} (h : c.inRange) (hcore : ∀ i, c ≠ .core i) (hc : d.closed (cellPage c) = false) (page bit info : Nat)
include h hcore hc

theorem Dev.engineFenced_eq : d.engineFenced c page bit info = (d.raise page bit info).onPlat fun p =>
    { p with fences := p.fences ++ [⟨cellPage c, (d.raise page bit info).now, [], some (page, bit)⟩] } := by
  refine Dev.fence1_cell h hcore ?_ _
  rwa [Dev.closed_congr (d.raise_plat page bit info).units (d.raise_plat page bit info).fences]

theorem Dev.engineFenced_fences :
    (d.engineFenced c page bit info).plat.fences = d.plat.fences ++ [⟨cellPage c, d.now, [], some (page, bit)⟩] := by
  have now : (d.raise page bit info).now = d.now := congrArg BitVec.toNat (d.raise_plat page bit info).tick
  rw [Dev.engineFenced_eq h hcore hc, Dev.onPlat_plat, (d.raise_plat page bit info).fences, now]

theorem Dev.engineFenced_units : (d.engineFenced c page bit info).plat.units = d.plat.units := by
  rw [Dev.engineFenced_eq h hcore hc]
  exact (d.raise_plat page bit info).units

theorem Dev.rd_engineFenced {f : RegField} (hf : f.steady) : (d.engineFenced c page bit info).rd f = d.rd f := by
  rw [Dev.engineFenced_eq h hcore hc]
  exact Dev.rd_raise hf page bit info

theorem Dev.engineFenced_sameRegions : d.sameRegions (d.engineFenced c page bit info) := by
  rw [Dev.engineFenced_eq h hcore hc]
  exact d.raise_sameRegions page bit info

theorem Dev.engineFenced_errorShows (hb : bit < 32) : (d.engineFenced c page bit info).errorShows page bit := by
  rw [Dev.engineFenced_eq h hcore hc]
  exact d.raise_errorShows page info hb

/-- The fence of a cell closes the pages that lie in it, and no other. -/
theorem Dev.engineFenced_closed (x : Nat) :
    (d.engineFenced c page bit info).closed x = true ↔ d.closed x = true ∨ cellPage c ∈ enclosing x :=
  Dev.closed_of_fences_append (Dev.engineFenced_units h hcore hc page bit info) (Dev.engineFenced_fences h hcore hc page bit info) rfl x
end

theorem cellPage_mem_enclosing (c : Cell) : cellPage c ∈ enclosing (cellPage c) := by
  simp [enclosing, masterOf_cellPage]

theorem cellBlock_lt (c : Cell) : cellBlock c < 2 ^ 32 := by
  cases c with
  | lun k => show 0x601000 + 0x1000 * (k / 64 % 32) < _; omega
  | _ => simp [cellBlock]

/-- A cell does not lie in another cell. -/
theorem cellPage_mem_enclosing_iff {b c : Cell} (hc : c.inRange) : cellPage b ∈ enclosing (cellPage c) ↔ cellNo b = cellNo c := by
  have block : (containing (cellPage c)).1 < 2 ^ 32 := by
    simp only [containing, cellAt_cellPage hc]
    exact cellBlock_lt c
  have region : (containing (cellPage c)).2 ≤ (containing (cellPage c)).1 := Nat.sub_le _ _
  simp only [enclosing, masterOf_cellPage, List.mem_cons, List.not_mem_nil, or_false]
  unfold cellPage at *
  omega

/-! ## What goes before the report -/

/-- Two devices that hold the same time, units and fences, and the same records of the regions. -/
structure Dev.SameFences (d e : Dev) : Prop where
  tick : e.plat.tick = d.plat.tick
  units : e.plat.units = d.plat.units
  fences : e.plat.fences = d.plat.fences
  regions : d.sameRegions e

theorem Dev.SameFences.refl (d : Dev) : d.SameFences d := ⟨rfl, rfl, rfl, d.sameRegions_refl⟩

theorem Dev.SameFences.closed {d e : Dev} (h : d.SameFences e) (page : Nat) : e.closed page = d.closed page :=
  Dev.closed_congr h.units h.fences page

theorem Dev.SameFences.count {d e : Dev} (h : d.SameFences e) (f : RegField) : d.SameFences (e.count f) :=
  have p : (e.count f).plat = e.plat := Dev.wr_plat _ _ _
  ⟨p ▸ h.tick, p ▸ h.units, p ▸ h.fences, Dev.sameRegions_trans h.regions (e.wr_sameRegions f _)⟩

theorem Dev.takeInjected_sameFences (d : Dev) (page bit : Nat) : d.SameFences (d.takeInjected page bit) := ⟨rfl, rfl, rfl, d.sameRegions_refl⟩

section
variable {d e : Dev} {c : Cell} (hs : d.SameFences e) (hr : c.inRange) (hcore : ∀ i, c ≠ .core i) (hc : d.closed (cellPage c) = false)
include hs hr hcore hc

/-- A failed engine's fence has begun, its port is closed, and the failure shows. -/
theorem Dev.engineFenced_begins (page info : Nat) {bit : Nat} (hb : bit < 32) :
    (e.engineFenced c page bit info).plat.fences = d.plat.fences ++ [⟨cellPage c, d.now, [], some (page, bit)⟩] ∧
      (e.engineFenced c page bit info).closed (cellPage c) = true ∧ (e.engineFenced c page bit info).errorShows page bit ∧
      d.sameRegions (e.engineFenced c page bit info) := by
  have hc' : e.closed (cellPage c) = false := (hs.closed _).trans hc
  have now : e.now = d.now := congrArg BitVec.toNat hs.tick
  refine ⟨?_, ?_, Dev.engineFenced_errorShows hr hcore hc' page bit info hb,
    Dev.sameRegions_trans hs.regions (Dev.engineFenced_sameRegions hr hcore hc' page bit info)⟩
  · rw [Dev.engineFenced_fences hr hcore hc', hs.fences, now]
  · exact (Dev.engineFenced_closed hr hcore hc' page bit info _).2 (.inr (cellPage_mem_enclosing c))

/-- Whether another cell is closed stays as it was. -/
theorem Dev.engineFenced_closed_other (page bit info : Nat) {b : Cell} (hb : b.inRange) (hne : cellNo c ≠ cellNo b) :
    (e.engineFenced c page bit info).closed (cellPage b) = d.closed (cellPage b) := by
  have hc' : e.closed (cellPage c) = false := (hs.closed _).trans hc
  rw [Bool.eq_iff_iff, Dev.engineFenced_closed hr hcore hc', cellPage_mem_enclosing_iff hb, hs.closed]
  simp [hne]
end

theorem Dev.testBit_cellsOut_of_closed {d : Dev} {cell : Nat → Cell} {n i : Nat} (h : i < n) (hc : d.closed (cellPage (cell i)) = true)
    (f : RegField) : (d.cellsOut f cell n).testBit i = true := by
  rw [Dev.testBit_cellsOut _ _ _ h, hc, Bool.or_true]

theorem Dev.closed_of_testBit_cellsOut {d : Dev} {f : RegField} {cell : Nat → Cell} {n i : Nat} (h : i < n)
    (ho : (d.cellsOut f cell n).testBit i = false) : d.closed (cellPage (cell i)) = false := by
  rw [Dev.testBit_cellsOut _ _ _ h, Bool.or_eq_false_iff] at ho
  exact ho.2

/-! ## The engines that fail -/

section
variable {d : Dev} {i : Nat}

theorem Dev.engineCheck_codec_idle {pass : Bool} (hi : d.injected Pg.ingProc Er.ingProc_engineFail = false)
    (h : pass = true ∨ d.ingStaged = true) : d.engineCheck (.codec i) pass = d :=
  if_pos (by rcases h with h | h <;> simp [h, hi])

theorem Dev.engineCheck_codec (hi : i < 16) (hs : d.ingStaged = false) (ho : d.codecsOut.testBit i = false) :
    d.engineCheck (.codec i) false = ((d.takeInjected Pg.ingProc Er.ingProc_engineFail).count (F.ingProcCnt 4)).engineFenced (.codec i)
      Pg.ingProc Er.ingProc_engineFail i := by
  unfold Dev.engineCheck Dev.engineFails
  simp only [Nat.mod_eq_of_lt hi]
  exact if_neg (by simp [hs, ho])

theorem Dev.engineCheck_sha (hi : i < 8) (hs : d.ingStaged = false) (ho : d.shasOut.testBit i = false) :
    d.engineCheck (.sha i) false = (d.count (F.ingProcCnt 4)).engineFenced (.sha i) Pg.ingProc Er.ingProc_engineFail (16 + i) := by
  unfold Dev.engineCheck Dev.engineFails
  simp only [Nat.mod_eq_of_lt hi]
  exact if_neg (by simp [hs, ho])

theorem Dev.engineCheck_stripe (hi : i < 16) (ho : (d.cellsOut F.parEngFenced .stripe 16).testBit i = false) :
    d.engineCheck (.stripe i) false = (d.takeInjected Pg.parReg Er.parReg_engineFail).engineFenced (.stripe i) Pg.parReg Er.parReg_engineFail i := by
  unfold Dev.engineCheck Dev.engineFails
  simp only [Nat.mod_eq_of_lt hi]
  exact if_neg (by simp [ho])

theorem Dev.engineCheck_ldpc (hi : i < 24) (ho : (d.cellsOut F.ldpcFenced .ldpc 24).testBit i = false) :
    d.engineCheck (.ldpc i) false = ((d.takeInjected Pg.odrLdpc Er.odrLdpc_engineFail).count (F.ldpcCnt 5)).engineFenced (.ldpc i)
      Pg.odrLdpc Er.odrLdpc_engineFail i :=
  if_neg (by simp [ho, hi])
end

theorem completes_engineKnownAnswerCheck {c : EngineRef} {pass : Bool} {s : State} {Q : Dev → Prop} {e : Dev}
    (he : s.dev.engineCheck c pass = e) (h : Q e) : completes (.engineKnownAnswerCheck c pass) s Q := by
  subst he
  exact ⟨_, rfl, h⟩

/-- A failure counted before the fence reads one more after it. -/
theorem Dev.rd_count_engineFenced {d e : Dev} {c : Cell} {f : RegField} (hs : d.SameFences e) (hr : c.inRange) (hcore : ∀ i, c ≠ .core i)
    (hc : d.closed (cellPage c) = false) (page bit info : Nat) (hf : f.steady) (hok : f.ok) :
    ((e.count f).engineFenced c page bit info).rd f = satInc (f.hi + 1 - f.lo) (e.rd f) := by
  have hs' := hs.count f
  rw [Dev.rd_engineFenced hr hcore ((hs'.closed _).trans hc) page bit info hf, Dev.rd_count _ _ hok]

/-- Settles O24: an engine that fails is counted, reported and fenced; the other engines are as they were. -/
theorem engineChecks : Obligations.EngineChecks := by
  unfold Obligations.EngineChecks
  intro s i
  refine ⟨fun hi hj => ⟨completes_engineKnownAnswerCheck (Dev.engineCheck_codec_idle hj (.inl rfl)) rfl,
      fun hs => completes_engineKnownAnswerCheck (Dev.engineCheck_codec_idle hj (.inr hs)) rfl,
      fun hs ho => completes_engineKnownAnswerCheck (Dev.engineCheck_codec hi hs ho) ?codec⟩,
    fun hi hs ho => completes_engineKnownAnswerCheck (Dev.engineCheck_sha hi hs ho) ?sha,
    fun hi hj ho => completes_engineKnownAnswerCheck (Dev.engineCheck_stripe hi ho) ?stripe,
    fun hi hj ho => completes_engineKnownAnswerCheck (Dev.engineCheck_ldpc hi ho) ?ldpc⟩
  case codec =>
    have core : ∀ j, Cell.codec i ≠ .core j := by simp
    have hr : (Cell.codec i).inRange := hi
    have open_ := Dev.closed_of_testBit_cellsOut hi ho
    have met := s.dev.takeInjected_sameFences Pg.ingProc Er.ingProc_engineFail
    have begins := Dev.engineFenced_begins (met.count (F.ingProcCnt 4)) hr core open_ Pg.ingProc i (bit := Er.ingProc_engineFail) (by decide)
    refine ⟨begins, Dev.testBit_cellsOut_of_closed hi begins.2.1 _, fun k hk hne => ?_,
      Dev.rd_count_engineFenced met hr core open_ _ _ _ (by decide) (by decide)⟩
    have apart : cellNo (.codec i) ≠ cellNo (.codec k) := by simp only [cellNo]; omega
    have counted : ((s.dev.takeInjected Pg.ingProc Er.ingProc_engineFail).count (F.ingProcCnt 4)).rd F.ingProcFenced_codec =
      s.dev.rd F.ingProcFenced_codec := Dev.rd_wr_other _ _ _ _ (by decide)
    have met' := met.count (F.ingProcCnt 4)
    rw [Dev.codecsOut, Dev.codecsOut, Dev.testBit_cellsOut _ _ _ hk, Dev.testBit_cellsOut _ _ _ hk,
      Dev.engineFenced_closed_other met' hr core open_ _ _ _ (b := .codec k) hk apart,
      Dev.rd_engineFenced hr core ((met'.closed _).trans open_) _ _ _ (by decide), counted]
  case sha =>
    have core : ∀ j, Cell.sha i ≠ .core j := by simp
    have hr : (Cell.sha i).inRange := hi
    have open_ := Dev.closed_of_testBit_cellsOut hi ho
    have begins := Dev.engineFenced_begins ((Dev.SameFences.refl s.dev).count (F.ingProcCnt 4)) hr core open_ Pg.ingProc (16 + i)
      (bit := Er.ingProc_engineFail) (by decide)
    exact ⟨begins, Dev.testBit_cellsOut_of_closed hi begins.2.1 _,
      Dev.rd_count_engineFenced (.refl s.dev) hr core open_ _ _ _ (by decide) (by decide)⟩
  case stripe =>
    have begins := Dev.engineFenced_begins (s.dev.takeInjected_sameFences Pg.parReg Er.parReg_engineFail) (c := .stripe i) hi (by simp)
      (Dev.closed_of_testBit_cellsOut hi ho) Pg.parReg i (bit := Er.parReg_engineFail) (by decide)
    exact ⟨begins, Dev.testBit_cellsOut_of_closed hi begins.2.1 _⟩
  case ldpc =>
    have core : ∀ j, Cell.ldpc i ≠ .core j := by simp
    have hr : (Cell.ldpc i).inRange := Nat.lt_of_lt_of_le hi (by decide)
    have open_ := Dev.closed_of_testBit_cellsOut hi ho
    have met := s.dev.takeInjected_sameFences Pg.odrLdpc Er.odrLdpc_engineFail
    exact ⟨Dev.engineFenced_begins (met.count (F.ldpcCnt 5)) hr core open_ Pg.odrLdpc i (bit := Er.odrLdpc_engineFail) (by decide),
      Dev.rd_count_engineFenced met hr core open_ _ _ _ (by decide) (by decide)⟩

end Sys2Proof.Machine
end

section
/-! The fences of R29 and R30 that are confirmed, and those that are late, up to the chip safe state (R493). -/
namespace Sys2Proof.Machine
open Sys2Proof

/-! ## The fence that a command names -/

/-- The device without its one fence. -/
def Dev.unfenced (d : Dev) : Dev := { d with plat := { d.plat with fences := [] } }

theorem Dev.erase_only {d : Dev} {f : Fence} (h : d.plat.fences = [f]) :
    d.onPlat (fun p => { p with fences := p.fences.erase f }) = d.unfenced := by
  have : d.plat.fences.erase f = [] := by rw [h, List.erase_cons_head]
  simp only [Dev.onPlat, Dev.unfenced, this]

section
variable {s : State} {f : Fence} (h : s.dev.plat.fences = [f]) (hu : fenceUnit f.unit = f.unit)
include h hu

theorem find_only_fence : s.dev.plat.fences.find? (fun g => g.unit == fenceUnit f.unit) = some f := by
  simp [h, hu]

theorem fenceConfirm_completes (hw : f.within = []) {Q : Dev → Prop} (hQ : Q (s.dev.unfenced.unitFenced f.unit f.err).hatPump) :
    completes (.fenceConfirm f.unit) s Q := by
  have confirmed : s.dev.fenceConfirmed f = (s.dev.unfenced.unitFenced f.unit f.err).hatPump := by
    unfold Dev.fenceConfirmed
    rw [hw, Dev.erase_only h]
    rfl
  refine ⟨_, rfl, ?_⟩
  simp only [find_only_fence h hu, confirmed]
  exact hQ

theorem fenceTimeout_completes {Q : Dev → Prop} (hQ : Q (s.dev.fenceLate f)) : completes (.fenceTimeout f.unit) s Q := by
  refine ⟨_, rfl, ?_⟩
  simp only [find_only_fence h hu]
  exact hQ
end

theorem Dev.unitFenced_cell {u : Nat} {c : Cell} (h : cellAt u = some c) (d : Dev) (err : Option (Nat × Nat)) :
    d.unitFenced u err = d.cellGone c err := by
  unfold Dev.unitFenced
  rw [h]

theorem Dev.unitFenced_page {u : Nat} (h : u < 2 ^ 32) (d : Dev) (err : Option (Nat × Nat)) :
    d.unitFenced u err = (d.setUnit u .fenced).revokeWork u := by
  unfold Dev.unitFenced
  rw [cellAt_eq_none h]

/-! ## A fence that is late -/

/-- The error behind a late fence is reported again, at least at the level that now fences. -/
def Dev.againAt (d : Dev) (err : Option (Nat × Nat)) (level : Nat) : Dev :=
  match err with
  | some (p, b) => d.raiseAtLeast p b level
  | none => d

theorem Dev.againAt_plat (d : Dev) (err : Option (Nat × Nat)) (level : Nat) : d.plat.alike (d.againAt err level).plat := by
  cases err with
  | none => exact Plat.alike_refl _
  | some x => exact d.report_plat _ _ _ _

theorem Dev.againAt_sameRegions (d : Dev) (err : Option (Nat × Nat)) (level : Nat) : d.sameRegions (d.againAt err level) := by
  cases err with
  | none => exact d.sameRegions_refl
  | some x => exact d.report_sameRegions _ _ _ _

theorem Dev.againAt_errorShows (d : Dev) {err : Option (Nat × Nat)} (level : Nat) {p b : Nat} (h : err = some (p, b)) (hb : b < 32) :
    (d.againAt err level).errorShows p b := by
  subst h
  exact d.report_errorShows p b _ 0 hb (.inl rfl)

/-- What fences a late unit: the block that contains it, or the region where it is a block itself. -/
def outerOf (u : Nat) : Nat := if (containing u).1 = u then (containing u).2 else (containing u).1

/-- A late fence of a unit gives way to a fence of what contains it, which takes the unit in. -/
theorem Dev.fenceLate_outer {d : Dev} {f : Fence} (h : d.plat.fences = [f]) (ht : 4 ≤ d.since f.tick) (hr : f.unit ≠ (containing f.unit).2) :
    d.fenceLate f = ((d.unfenced.againAt f.err (if outerOf f.unit = (containing f.unit).2 then 2 else 1)).fence1 (outerOf f.unit) f.err).onPlat
      fun p => { p with fences := p.fences.map (fun (g : Fence) => if g.unit = outerOf f.unit then
        { g with within := g.within ++ (f.unit :: f.within).filter (fun u => !g.within.contains u) } else g) } := by
  unfold Dev.fenceLate
  rw [if_neg (Nat.not_lt.2 ht)]
  simp only [if_neg hr, Dev.erase_only h]
  rfl

/-- A late fence of a region leads to the chip safe state. -/
theorem Dev.fenceLate_region {d : Dev} {f : Fence} (ht : 4 ≤ d.since f.tick) (hr : f.unit = (containing f.unit).2) :
    d.fenceLate f = (((d.againAt f.err 3).safeState 1 (regionOf f.unit)).onPlat fun p => { p with fences := p.fences.map (fun (g : Fence) =>
      if g = f then { g with tick := ((d.againAt f.err 3).safeState 1 (regionOf f.unit)).now } else g) }).hatPump := by
  unfold Dev.fenceLate
  rw [if_neg (Nat.not_lt.2 ht)]
  simp only [← hr]
  rfl

theorem mem_within_append (xs within : List Nat) {u : Nat} (h : u ∈ xs) : u ∈ within ++ xs.filter (fun u => !within.contains u) := by
  by_cases hw : u ∈ within
  · exact List.mem_append_left _ hw
  · exact List.mem_append_right _ (List.mem_filter.2 ⟨h, by simpa using hw⟩)

theorem Dev.fenceLate_takesIn {d : Dev} {f : Fence} (h : d.plat.fences = [f]) (ht : 4 ≤ d.since f.tick) (hr : f.unit ≠ (containing f.unit).2)
    (hm : masterOf (outerOf f.unit) = outerOf f.unit) (hc : containing (outerOf f.unit) = (outerOf f.unit, (containing f.unit).2))
    (ho : d.unitAt (outerOf f.unit) ≠ .fenced) (hor : d.unitAt (containing f.unit).2 ≠ .fenced)
    (hoff : d.unitAt (outerOf f.unit) = .off → ∀ k i, kindAt (outerOf f.unit) = some (k, i) → k.desc.isolate = false) :
    (∀ p b, f.err = some (p, b) → b < 32 → (d.fenceLate f).errorShows p b) ∧
      ∃ g ∈ (d.fenceLate f).plat.fences, g.unit = outerOf f.unit ∧ g.tick = d.now ∧ f.unit ∈ g.within ∧ ∀ u ∈ f.within, u ∈ g.within := by
  rw [Dev.fenceLate_outer h ht hr]
  generalize (if outerOf f.unit = (containing f.unit).2 then 2 else 1) = level
  have alike := d.unfenced.againAt_plat f.err level
  have shows (p b) := d.unfenced.againAt_errorShows (err := f.err) (p := p) (b := b) level
  generalize d.unfenced.againAt f.err level = m at alike shows ⊢
  have units : m.plat.units = d.plat.units := alike.units
  have fences : m.plat.fences = [] := alike.fences
  have now : m.now = d.now := congrArg BitVec.toNat alike.tick
  generalize outerOf f.unit = o at *
  have open_ : m.closed (masterOf o) = false := by
    rw [Bool.eq_false_iff, Ne, Dev.closed_iff]
    simp [enclosing, hm, hc, fences, Dev.unitAt_congr units, ho, hor]
  rw [Dev.fence1_eq f.err open_ (by rwa [hm, Dev.unitAt_congr units]), hm]
  refine ⟨fun p b he hb => shows p b he hb, ?_⟩
  simp only [Dev.onPlat_plat, Dev.fenceBegun, Dev.onBpm_plat, fences, List.filter_nil, List.nil_append, List.map_cons, List.map_nil, if_true,
    List.mem_singleton, exists_eq_left]
  exact ⟨trivial, now, mem_within_append _ _ (List.mem_cons_self ..), fun u hu => mem_within_append _ _ (List.mem_cons_of_mem _ hu)⟩

/-! ## The chip safe state (R493) -/

/-- The chip safe state is entered: it shows with its cause, and its error is reported. -/
def Dev.safeShown (d : Dev) (cause region : Nat) : Dev :=
  ((((d.onPlat fun p => { p with safe := true, safeAt := d.now }).wr F.pltStat_safe 1).wr F.pltSafeCause_cause cause).wr
    F.pltSafeCause_region region).raiseAtLeast Pg.pltReg Er.pltReg_safeState 3 cause

/-- The recorders, the power-failure sequence and the flash are halted. -/
def Dev.safeHalted (m : Dev) : Dev :=
  (if m.holdAbortAll.plat.tp.isSome then m.holdAbortAll
    else (m.holdAbortAll.onPlat fun p => { p with tp := some m.holdAbortAll.now }).onSfl fun x => { x with frozen := true, reads := [] }).wr
    F.sflStat 3

theorem Dev.safeState_eq {d : Dev} (h : d.plat.safe = false) (cause region : Nat) :
    d.safeState cause region = (d.safeShown cause region).safeHalted := by
  unfold Dev.safeState
  rw [if_neg (by simp [h])]
  unfold Dev.safeShown Dev.safeHalted
  rfl

theorem Dev.safeHalted_keeps (m : Dev) : Keeps m m.safeHalted := by
  have h := holdAbortAll_keeps (Keeps.rfl' m)
  unfold Dev.safeHalted
  generalize m.holdAbortAll = a at h
  exact wr_keeps (keeps_ite (fun _ => h) fun _ => onSfl_keeps (onPlat_keeps h id rfl rfl rfl rfl))

theorem Dev.safeShown_safe (d : Dev) (cause region : Nat) : (d.safeShown cause region).plat.safe = true := by
  unfold Dev.safeShown Dev.raiseAtLeast
  rw [(Dev.report_plat _ _ _ _ _).safe, Dev.wr_plat, Dev.wr_plat, Dev.wr_plat, Dev.onPlat_plat]

theorem Dev.safeShown_flag (d : Dev) (cause region : Nat) : (d.safeShown cause region).flag F.pltStat_safe = true := by
  rw [Dev.safeShown, Dev.flag_steady (Dev.rd_raiseAtLeast (by decide) _ _ _ _), Dev.flag_wr_other _ _ _ _ (by decide),
    Dev.flag_wr_other _ _ _ _ (by decide)]
  exact Dev.flag_one _ _ (by decide) rfl

theorem Dev.safeShown_cause (d : Dev) (cause region : Nat) : (d.safeShown cause region).rd F.pltSafeCause_cause = cause % 16 := by
  rw [Dev.safeShown, Dev.rd_raiseAtLeast (by decide), Dev.rd_wr_beside _ _ _ _ (by decide) (by decide) (by decide)]
  exact Dev.rd_wr_same _ _ (by decide) _

theorem Dev.safeShown_region (d : Dev) (cause region : Nat) : (d.safeShown cause region).rd F.pltSafeCause_region = region % 16 := by
  rw [Dev.safeShown, Dev.rd_raiseAtLeast (by decide)]
  exact Dev.rd_wr_same _ _ (by decide) _

theorem Dev.safeShown_errorShows (d : Dev) (cause region : Nat) : (d.safeShown cause region).errorShows Pg.pltReg Er.pltReg_safeState :=
  Dev.report_errorShows _ _ _ _ _ (by decide) (.inl rfl)

/-- An error that showed before a report still shows, on whatever page. -/
theorem Dev.report_errorShows_still (d : Dev) (page bit level info : Nat) {p b : Nat} (hb : b < 32) (h : d.errorShows p b) :
    (d.report page bit level info).errorShows p b := by
  have hp := pageOf_mod p
  unfold Dev.errorShows at h ⊢
  rw [Dev.raw_report_header (by omega)]
  split
  case isTrue ha => rw [testBit_or_pow _ _ _ hb, ← ha, h, Bool.true_or]
  case isFalse => exact h

theorem Dev.safeShown_errorShows_still (d : Dev) (cause region : Nat) {p b : Nat} (hb : b < 32) (h : d.errorShows p b) :
    (d.safeShown cause region).errorShows p b := by
  refine Dev.report_errorShows_still _ _ _ _ _ hb ?_
  rw [Dev.errorShows_wr _ (by decide), Dev.errorShows_wr _ (by decide), Dev.errorShows_wr _ (by decide)]
  exact h

theorem Dev.safeShown_sameRegions (d : Dev) (cause region : Nat) : d.sameRegions (d.safeShown cause region) :=
  Dev.sameRegions_trans (Dev.sameRegions_trans (Dev.sameRegions_trans (Dev.sameRegions_trans (Dev.onPlat_sameRegions d _)
    (Dev.wr_sameRegions _ _ _)) (Dev.wr_sameRegions _ _ _)) (Dev.wr_sameRegions _ _ _)) (Dev.report_sameRegions _ _ _ _ _)

/-! ## The steps of a fence -/

theorem containing_region {u r : Nat} (h : u = r * 0x100000) (hr : r < 12) : (containing u).2 = u := by
  subst h
  simp only [containing, cellAt_eq_none (show r * 0x100000 < 2 ^ 32 by omega)]
  rw [Nat.mul_mod_left, Nat.sub_zero]

/-- Settles O13: a confirmed fence is the unit's new state before its revocations, a late one the fence of what contains it, and a region's
late one the safe state before its halts. -/
theorem fenceSteps : Obligations.FenceSteps := by
  unfold Obligations.FenceSteps
  refine ⟨fun s f h hu => ⟨fun hw hp => fenceConfirm_completes h hu hw ?page, fun hw => ?cells, ?late⟩,
    fun s f r h hf hr hu ht hs => fenceTimeout_completes h hu ?region⟩
  case page =>
    exact ⟨s.dev.unfenced.setUnit f.unit .fenced, Dev.unitAt_setUnit _ _ _, rfl, rfl, Dev.sameRegions_refl _, rfl,
      congrArg Dev.hatPump (Dev.unitFenced_page hp _ _)⟩
  case cells =>
    have gone {c : Cell} (hc : cellAt f.unit = some c) : completes (.fenceConfirm f.unit) s fun e => e = (s.dev.unfenced.cellGone c f.err).hatPump :=
      fenceConfirm_completes h hu hw (congrArg Dev.hatPump (Dev.unitFenced_cell hc _ _))
    refine ⟨fun i => gone, fun i => gone, fun i => gone, fun i => gone, fun k => gone, fun i hc => ?_⟩
    obtain ⟨e, he, hg⟩ := gone hc
    exact ⟨e, he, _, rfl, hg⟩
  case late =>
    exact fun ht hr hm hc ho hor _ hoff => fenceTimeout_completes h hu (Dev.fenceLate_takesIn h ht hr hm hc ho hor hoff)
  case region =>
    have hc := containing_region hf hr
    have hreg : regionOf f.unit = r := by unfold regionOf; omega
    have alike := s.dev.againAt_plat f.err 3
    have late := Dev.fenceLate_region (d := s.dev) ht hc.symm
    rw [Dev.safeState_eq (alike.safe.trans hs), hreg] at late
    generalize hm : (s.dev.againAt f.err 3).safeShown 1 r = m at late
    have safe : m.plat.safe = true := by rw [← hm]; exact Dev.safeShown_safe _ _ _
    have kept : Keeps m (s.dev.fenceLate f) := by
      rw [late]
      exact hatPump_keeps (onPlat_keeps m.safeHalted_keeps id rfl rfl rfl rfl)
    refine ⟨kept.safe safe, m, m.safeHalted, safe, ?_, ?_, ?_, ?_, fun p b he hb => ?_, ?_, rfl, late⟩
    · rw [← hm]; exact Dev.safeShown_flag _ _ _
    · rw [← hm]; exact Dev.safeShown_cause _ _ _
    · rw [← hm, Dev.safeShown_region]; omega
    · rw [← hm]; exact Dev.safeShown_errorShows _ _ _
    · rw [← hm]; exact Dev.safeShown_errorShows_still _ _ _ hb (s.dev.againAt_errorShows 3 he hb)
    · rw [← hm]; exact Dev.sameRegions_trans (s.dev.againAt_sameRegions _ _) (Dev.safeShown_sameRegions _ _ _)

end Sys2Proof.Machine
end

section
/-! Grants of buffers (R19, R122, R128, R130). -/
namespace Sys2Proof.Machine
open Sys2Proof

/-! ## What a change of a pool's levels leaves alone -/

theorem Dev.wrB_beside {f : RegField} (h : f.rs = false) (d : Dev) (b : Bool) : d.Beside (d.wrB f b) := Dev.wr_beside h d _

theorem Dev.count_beside {f : RegField} (h : f.rs = false) (d : Dev) : d.Beside (d.count f) := Dev.wr_beside h d _

theorem Dev.raise_beside (d : Dev) (page bit info : Nat) : d.Beside (d.raise page bit info) := d.report_beside page bit _ info

theorem Dev.when_beside {f : Dev → Dev} (hf : ∀ d : Dev, d.Beside (f d)) (d : Dev) (c : Bool) : d.Beside (d.when c f) := by
  unfold Dev.when
  split
  · exact hf d
  · exact .refl d

theorem Dev.foldl_beside {α : Type} {f : Dev → α → Dev} (hf : ∀ (d : Dev) (x : α), d.Beside (f d x)) (l : List α) (d : Dev) :
    d.Beside (l.foldl f d) := by
  induction l generalizing d with
  | nil => exact .refl d
  | cons x l ih => exact (hf d x).trans (ih _)

theorem Dev.sendCredit_beside (d : Dev) (s p : Nat) : d.Beside (d.sendCredit s p) :=
  Dev.when_beside (f := (·.send (.credit s p (d.creditPod s p)))) (fun _ => ⟨rfl, rfl, rfl⟩) d _

theorem Dev.creditsPaid_beside (d : Dev) (s : Nat) : d.Beside (d.creditsPaid s) := by
  refine Dev.foldl_beside (fun d p => ?_) _ _
  simp only
  split
  · exact .refl d
  · refine Dev.Beside.trans ?_ (Dev.sendCredit_beside _ s p)
    exact ⟨rfl, rfl, rfl⟩

theorem Dev.creditsResume_beside (d : Dev) (pool : Nat) : d.Beside (d.creditsResume pool) := by
  refine Dev.foldl_beside (fun d s => ?_) _ _
  split
  · exact d.creditsPaid_beside s
  · exact .refl d

/-- One level's flag, and its error where it rises. -/
theorem Dev.levelFlag_beside {f : RegField} (h : f.rs = false) (d : Dev) (now rises : Bool) (page bit : Nat) :
    d.Beside ((d.wrB f now).when rises (·.raise page bit)) :=
  (Dev.wrB_beside h d now).trans (Dev.when_beside (fun d => d.raise_beside page bit 0) _ _)

theorem Dev.poolLevels_beside (d : Dev) (p : Nat) (none_ : Bool) : d.Beside (d.poolLevels p none_) := by
  unfold Dev.poolLevels
  exact (((Dev.levelFlag_beside rfl d _ _ _ _).trans (Dev.levelFlag_beside rfl _ _ _ _ _)).trans (Dev.levelFlag_beside rfl _ _ _ _ _)).trans
    ((Dev.wrB_beside rfl _ _).trans (Dev.when_beside (fun d => d.creditsResume_beside p) _ _))

/-- A field behind a shadow reads the same beside. -/
theorem Dev.Beside.rd {d e : Dev} (h : d.Beside e) {f : RegField} (hf : f.rs = true) : e.rd f = d.rd f := by
  unfold Dev.rd Dev.forced
  rw [if_pos hf, if_pos hf, h.force]

/-! ## One request -/

/-- The request's age is 0 from its grant on (R19). -/
def Dev.aged (d : Dev) (p o : Nat) : Dev := d.onBpm fun b => { b with ages := cellAges b.ages p (portOf o) [] }

/-- The device in which buffer `i` of stack `n` is granted. -/
def Dev.bufGranted (d : Dev) (o n i : Nat) : Dev :=
  (((d.setBufEnt i ⟨((d.bufEnt i).gen + 1) % 1024, d.ownerPool o, o, o, true, false, false, false, false, false⟩).onBpm fun b =>
    { b with rotate := Map.set 0 b.rotate (d.ownerPool o) ((n + 1) % 4) }).count (F.bpmCnt 0)).poolLevels (d.ownerPool o) false

theorem Dev.grant_some {d : Dev} {o cls n i : Nat} (hf : d.bpm.fenced.contains o = false) (hq : d.quotaAllows o cls = true)
    (hs : d.grantStack (d.ownerPool o) o = some n) (hi : d.freeOn n = some i) :
    d.grant o cls = (mkHandle (((d.bufEnt i).gen + 1) % 1024) i, d.bufGranted o n i) := by
  unfold Dev.grant
  simp only [hf, hq, hs, hi, Bool.not_false, Bool.and_self, if_true, Option.getD_some]
  rfl

/-- A request that got no buffer. -/
def Dev.noneGiven (d : Dev) (o : Nat) : Dev := (d.count (F.bpmCnt 1)).raise (Pg.bpmPool (d.ownerPool o)) Er.bpmPool_none

theorem Dev.grant_noSpace {d : Dev} {o cls : Nat} (hf : d.bpm.fenced.contains o = false) (hq : d.quotaAllows o cls = true)
    (hs : d.grantStack (d.ownerPool o) o = none) : d.grant o cls =
      (handleNone, ((d.noneGiven o).raise (Pg.bpmPool (d.ownerPool o)) Er.bpmPool_noSpace).poolLevels (d.ownerPool o) true) := by
  unfold Dev.grant
  simp only [hf, hq, hs, Bool.not_false, Bool.and_self, if_true]
  rfl

theorem Dev.grant_noQuota {d : Dev} {o cls : Nat} (hq : d.quotaAllows o cls = false) :
    d.grant o cls = (handleNone, (d.noneGiven o).poolLevels (d.ownerPool o) true) := by
  unfold Dev.grant
  simp only [hq, Bool.false_and, Bool.false_eq_true, if_false]
  rfl

theorem Dev.bufGranted_beside (d : Dev) (o n i : Nat) : d.Beside (d.bufGranted o n i) := by
  unfold Dev.bufGranted
  refine Dev.Beside.trans (Dev.Beside.trans ?_ (Dev.count_beside rfl _)) (Dev.poolLevels_beside _ _ _)
  exact ⟨rfl, rfl, rfl⟩

theorem Dev.noneGiven_beside (d : Dev) (o : Nat) : d.Beside (d.noneGiven o) :=
  (Dev.count_beside rfl d).trans (Dev.raise_beside _ _ _ _)

/-- A request alone in its cycle, of an owner that does not act through BAR0: its grant is its answer. -/
theorem bpmGrant_completes {s : State} {o cls h : Nat} {e : Dev} (hr : s.dev.rd (F.bpmOwnCfg_region o) ≠ 15)
    (hg : (s.dev.aged (s.dev.ownerPool o) o).grant o cls = (h, e)) (hb : (s.dev.aged (s.dev.ownerPool o) o).Beside e) :
    completes (.bpmGrant (s.dev.ownerPool o) [⟨o, cls⟩]) s fun x => x = e.send (.granted o h) := by
  refine ⟨_, rfl, ?_⟩
  have mine : [(⟨o, cls⟩ : GrantReq)].filter (fun r => s.dev.ownerPool r.owner == s.dev.ownerPool o) = [⟨o, cls⟩] := by simp
  have region : (e.send (.granted o h)).rd (F.bpmOwnCfg_region o) ≠ 15 := by
    rw [Dev.rd_send, hb.rd rfl]
    exact hr
  have aged : (s.dev.onBpm fun b => { b with ages := cellAges b.ages (s.dev.ownerPool o) (portOf o) [] }).grant o cls = (h, e) := hg
  simp only [mine, List.length_cons, List.length_nil, Dev.grantRound, cellWinner, List.foldl_nil, List.erase_cons_head, List.map_nil, aged,
    List.filter_nil]
  exact if_neg region

/-! ## Two requests in a cycle -/

/-- Of two requests of equal age the one of the lower port wins, in whatever order they came (R19). -/
theorem cellWinner_of_port_lt {ages : Map Nat} {p o q cls : Nat} (ha : Map.get 0 ages (p * 16 + portOf o) = Map.get 0 ages (p * 16 + portOf q))
    (hp : portOf o < portOf q) :
    cellWinner ages p [⟨q, cls⟩, ⟨o, cls⟩] = some ⟨o, cls⟩ ∧ cellWinner ages p [⟨o, cls⟩, ⟨q, cls⟩] = some ⟨o, cls⟩ := by
  simp [cellWinner, ha, hp, Nat.lt_asymm hp]

/-- Settles O28: the age moves first, then the request is decided by quota and by the stacks, and the answer is sent. -/
theorem grants : Obligations.Grants := by
  unfold Obligations.Grants
  intro s o cls
  refine fun hf hr => ⟨fun n i hq hs hi _ => ?_, fun hq hs => ?_, fun hq => ?_, fun q => cellWinner_of_port_lt⟩
  · exact bpmGrant_completes hr (Dev.grant_some (d := s.dev.aged _ o) hf hq hs hi) (Dev.bufGranted_beside _ _ _ _)
  · exact bpmGrant_completes hr (Dev.grant_noSpace (d := s.dev.aged _ o) hf hq hs)
      (((Dev.noneGiven_beside _ _).trans (Dev.raise_beside _ _ _ _)).trans (Dev.poolLevels_beside _ _ _))
  · exact bpmGrant_completes hr (Dev.grant_noQuota (d := s.dev.aged _ o) hq) ((Dev.noneGiven_beside _ _).trans (Dev.poolLevels_beside _ _ _))

end Sys2Proof.Machine
end

section
/-! The supplies (R57, R508) and the fall of the throttling level (R499). -/
namespace Sys2Proof.Machine
open Sys2Proof

/-! ## A rail's reading -/

/-- The rail's reading and its state are shown; the error and the event of WARN or OUT follow. -/
def Dev.railShown (d : Dev) (rail raw : Nat) : Dev :=
  (d.wr (F.pltSupV_mv rail) (d.supplyMv rail raw)).wr (F.pltSupV_state rail) (railState rail (d.supplyMv rail raw))

theorem Dev.railReads_eq {d : Dev} {rail : Nat} (h : rail < 8) (raw : Nat) :
    d.railReads rail raw = (let st := railState rail (d.supplyMv rail raw)
      if st = d.rd (F.pltSupV_state rail) ∨ st = 0 then d.railShown rail raw
      else ((d.railShown rail raw).raise Pg.pltSup (if st = 1 then Er.pltSup_railWarn else Er.pltSup_railOut) rail).chipEvent 13) :=
  if_neg (Nat.not_le.2 h)

theorem railState_lt (rail mv : Nat) : railState rail mv < 2 ^ 2 := by
  unfold railState
  simp only
  split
  · decide
  · split <;> decide

theorem Dev.supplyMv_lt (d : Dev) (rail raw : Nat) : d.supplyMv rail raw < 2 ^ 16 := by
  unfold Dev.supplyMv
  omega

theorem Dev.rd_railShown_mv (d : Dev) (rail raw : Nat) : (d.railShown rail raw).rd (F.pltSupV_mv rail) = d.supplyMv rail raw := by
  have mv : (F.pltSupV_mv rail).ok := by simp [RegField.ok, F.pltSupV_mv]
  have state : (F.pltSupV_state rail).ok := by simp [RegField.ok, F.pltSupV_state]
  rw [Dev.railShown, Dev.rd_wr_beside _ _ _ _ state mv (.inl (by simp [F.pltSupV_mv, F.pltSupV_state])), Dev.rd_wr_same _ _ mv]
  exact Nat.mod_eq_of_lt (d.supplyMv_lt rail raw)

theorem Dev.rd_railShown_state (d : Dev) (rail raw : Nat) :
    (d.railShown rail raw).rd (F.pltSupV_state rail) = railState rail (d.supplyMv rail raw) := by
  rw [Dev.railShown, Dev.rd_wr_same _ _ (by simp [RegField.ok, F.pltSupV_state])]
  exact Nat.mod_eq_of_lt (railState_lt _ _)

theorem Dev.railShown_plat (d : Dev) (rail raw : Nat) : (d.railShown rail raw).plat = d.plat := by
  rw [Dev.railShown, Dev.wr_plat, Dev.wr_plat]

theorem Dev.railShown_sameRegions (d : Dev) (rail raw : Nat) : d.sameRegions (d.railShown rail raw) :=
  Dev.sameRegions_trans (Dev.wr_sameRegions _ _ _) (Dev.wr_sameRegions _ _ _)

/-! ## A rail OUT for 4 ticks -/

/-- The start of the power-failure sequence, before motion stops. -/
def Dev.powerStart (d : Dev) : Dev := (d.flashStop.wr F.motStat_pwrfail 1).count (F.motCnt 1)

theorem Dev.flashStop_eq {d : Dev} (h : d.plat.tp = none) :
    d.flashStop = (d.onPlat fun p => { p with tp := some ((d.now + 1) % 2 ^ 64) }).onSfl fun s => { s with frozen := true } :=
  if_neg (by simp [h])

theorem Dev.railTimeout_eq {d : Dev} {rail : Nat} (ho : 4 ≤ d.plat.railOut.getD rail 0) (h : d.plat.tp = none) :
    d.railTimeout rail = d.powerStart.motionStop.showMot := if_pos ⟨ho, by simp [h]⟩

theorem Dev.powerStart_shows {d : Dev} (h : d.plat.tp = none) :
    d.powerStart.plat = { d.plat with tp := some ((d.now + 1) % 2 ^ 64) } ∧ d.powerStart.sfl = { d.sfl with frozen := true } ∧
      d.powerStart.flag F.motStat_pwrfail = true ∧ d.powerStart.rd (F.motCnt 1) = satInc 32 (d.rd (F.motCnt 1)) := by
  have cnt := Dev.rd_count (d.flashStop.wr F.motStat_pwrfail 1) (F.motCnt 1) (by decide)
  refine ⟨?_, ?_, ?_, cnt.trans ?_⟩
  · rw [Dev.powerStart, Dev.count, Dev.wr_plat, Dev.wr_plat, Dev.flashStop_eq h]
    rfl
  · rw [Dev.powerStart, Dev.count, Dev.wr_sfl, Dev.wr_sfl, Dev.flashStop_eq h]
    rfl
  · rw [Dev.powerStart, Dev.count, Dev.flag_wr_other _ _ _ _ (by decide), Dev.flag_one _ _ (by decide) rfl]
  · rw [Dev.rd_wr_other _ _ _ _ (by decide), Dev.flashStop_eq h]
    rfl

/-! ## A rail that becomes valid -/

/-- PLT_SUP_SEQ records the rail as the last so far, `spread` after the first. -/
def Dev.railLast (d : Dev) (rail spread : Nat) : Dev :=
  ((d.wr F.pltSupSeq_last rail).wr F.pltSupSeq_spread (min 65535 spread)).wrB F.pltSupSeq_skew (decide (500 < spread))

theorem Dev.railUp_eq {d : Dev} {rail : Nat} (h : rail < 8) (hv : d.plat.railValid.getD rail true = false) (tenths : Nat) :
    d.railUp rail tenths =
      (((d.onPlat fun p => { p with railValid := p.railValid.set rail true, railFirst := some (p.railFirst.getD rail) }).when
        d.plat.railFirst.isNone (·.wr F.pltSupSeq_first rail)).railLast rail (if d.plat.railFirst.isNone then 0 else tenths)) :=
  if_neg (not_or.2 ⟨Nat.not_le.2 h, by simp only [hv, Bool.false_eq_true, not_false_iff]⟩)

theorem Dev.railLast_shows (d : Dev) {rail : Nat} (h : rail < 8) (spread : Nat) :
    (d.railLast rail spread).rd F.pltSupSeq_last = rail ∧ (d.railLast rail spread).rd F.pltSupSeq_spread = min 65535 spread ∧
      (d.railLast rail spread).flag F.pltSupSeq_skew = decide (500 < spread) ∧
      (d.railLast rail spread).rd F.pltSupSeq_first = d.rd F.pltSupSeq_first ∧ (d.railLast rail spread).plat = d.plat := by
  unfold Dev.railLast Dev.wrB
  refine ⟨?_, ?_, ?_, ?_, ?_⟩
  · rw [Dev.rd_wr_beside _ _ _ _ (by decide) (by decide) (by decide), Dev.rd_wr_beside _ _ _ _ (by decide) (by decide) (by decide),
      Dev.rd_wr_same _ _ (by decide)]
    exact Nat.mod_eq_of_lt h
  · rw [Dev.rd_wr_beside _ _ _ _ (by decide) (by decide) (by decide), Dev.rd_wr_same _ _ (by decide)]
    exact Nat.mod_eq_of_lt (lt_of_le_of_lt (Nat.min_le_left _ _) (by decide))
  · rw [Dev.flag_wr_same _ _ (by decide) rfl]
    cases decide (500 < spread) <;> rfl
  · rw [Dev.rd_wr_beside _ _ _ _ (by decide) (by decide) (by decide), Dev.rd_wr_beside _ _ _ _ (by decide) (by decide) (by decide),
      Dev.rd_wr_beside _ _ _ _ (by decide) (by decide) (by decide)]
  · rw [Dev.wr_plat, Dev.wr_plat, Dev.wr_plat]

/-! ## The throttling level falls -/

/-- The level that a fall from `l` comes to: the highest below it that is not skipped. -/
def Dev.fallTo (d : Dev) (l : Nat) : Nat := ([1, 2, 3].filter (fun x => decide (x < l) && d.thermHas x)).foldl max 0

theorem foldl_max_le {l : List Nat} {a b : Nat} : l.foldl max a ≤ b ↔ a ≤ b ∧ ∀ x ∈ l, x ≤ b := by
  induction l generalizing a with
  | nil => simp
  | cons x l ih => rw [List.foldl_cons, ih, List.forall_mem_cons, Nat.max_le, and_assoc]

theorem Dev.fallTo_le {d : Dev} {l b : Nat} : d.fallTo l ≤ b ↔ ∀ x ∈ [1, 2, 3], x < l → d.thermHas x = true → x ≤ b := by
  rw [Dev.fallTo, foldl_max_le]
  simp only [Nat.zero_le, true_and, List.mem_filter, Bool.and_eq_true, decide_eq_true_eq, and_imp]

theorem Dev.fallTo_lt (d : Dev) {l : Nat} (h : l ≠ 0) : d.fallTo l < l := by
  have : d.fallTo l ≤ l - 1 := Dev.fallTo_le.2 fun x _ hx _ => by omega
  omega

theorem Dev.le_fallTo {d : Dev} {l x : Nat} (hl : l ≤ 4) (hx : x < l) (h1 : 1 ≤ x) (hh : d.thermHas x = true) : x ≤ d.fallTo l := by
  have mem : x ∈ [1, 2, 3] := by
    have : x = 1 ∨ x = 2 ∨ x = 3 := by omega
    simpa using this
  exact Dev.fallTo_le.1 (Nat.le_refl _) x mem hx hh

/-- The device that shows the level fallen to, its entry counted; the event follows. -/
def Dev.levelFallen (d : Dev) (new : Nat) : Dev :=
  (d.wr F.pltThermStat_level new).when (decide (0 < new)) (·.count (F.pltThermCnt (new - 1)))

/-- A level that falls raises no error: THERM_BG and THERM_HOST are raised on the way up. -/
theorem Dev.thermLevel_falls {d : Dev} {new : Nat} (h : new < d.rd F.pltThermStat_level) :
    d.thermLevel new = (d.levelFallen new).chipEvent 14 := by
  have low : decide (d.rd F.pltThermStat_level = 0) = false := decide_eq_false (Nat.ne_of_gt (Nat.zero_lt_of_lt h))
  have up : (decide (d.rd F.pltThermStat_level < 3) && decide (3 ≤ new)) = false := by
    rw [Bool.and_eq_false_iff, decide_eq_false_iff_not, decide_eq_false_iff_not]
    omega
  unfold Dev.thermLevel Dev.levelFallen
  simp only [up, low, Dev.when, Bool.false_eq_true, if_false]

theorem Dev.thermFall_eq {d : Dev} (h0 : d.rd F.pltThermStat_level ≠ 0) (hf : d.plat.fell = false) (hn : 400 ≤ d.plat.hot.length)
    (hot : ∀ t ∈ d.plat.hot, t < d.thermAt (d.rd F.pltThermStat_level) - 32) (hr : d.thermRise < d.rd F.pltThermStat_level) :
    d.thermFall =
      ((d.onPlat fun p => { p with fell := true }).levelFallen (d.fallTo (d.rd F.pltThermStat_level))).chipEvent 14 := by
  have cool : d.plat.hot.all (fun t => decide (t < d.thermAt (d.rd F.pltThermStat_level) - 32)) = true := by simpa using hot
  unfold Dev.thermFall
  simp only
  rw [if_neg (by simp [h0, hf, Nat.not_lt.2 hn, cool, Nat.not_le.2 hr])]
  exact Dev.thermLevel_falls (d.fallTo_lt h0)

theorem Dev.levelFallen_shows (d : Dev) {new : Nat} (h : new < 8) :
    (d.levelFallen new).plat = d.plat ∧ d.sameRegions (d.levelFallen new) ∧ (d.levelFallen new).rd F.pltThermStat_level = new := by
  have level : (d.wr F.pltThermStat_level new).rd F.pltThermStat_level = new :=
    (Dev.rd_wr_same _ _ (by decide) _).trans (Nat.mod_eq_of_lt h)
  have apart : F.pltThermStat_level.addr ≠ (F.pltThermCnt (new - 1)).addr := by
    simp only [F.pltThermStat_level, F.pltThermCnt]
    omega
  unfold Dev.levelFallen Dev.when
  split
  · exact ⟨(Dev.wr_plat _ _ _).trans (Dev.wr_plat _ _ _), Dev.sameRegions_trans (Dev.wr_sameRegions _ _ _) (Dev.wr_sameRegions _ _ _),
      (Dev.rd_wr_other _ _ _ _ apart).trans level⟩
  · exact ⟨Dev.wr_plat _ _ _, Dev.wr_sameRegions _ _ _, level⟩

/-- Settles O4: each command is an equation over what it shows, before the error, the stop of motion or the event that follows. -/
theorem supplyCommands : Obligations.SupplyCommands := by
  unfold Obligations.SupplyCommands
  refine ⟨fun s => ⟨fun rail mv h => ?reads, fun rail ho h => ?out, fun rail tenths h hv => ?valid⟩, fun s h0 h4 hf hn hot hr => ?falls⟩
  case reads =>
    exact ⟨_, rfl, s.dev.railShown rail mv, s.dev.rd_railShown_mv rail mv, s.dev.rd_railShown_state rail mv, s.dev.railShown_plat rail mv,
      s.dev.railShown_sameRegions rail mv, Dev.railReads_eq h mv⟩
  case out =>
    obtain ⟨hplat, hsfl, hflag, hcnt⟩ := Dev.powerStart_shows h
    exact ⟨_, rfl, s.dev.powerStart, hplat, hsfl, hflag, hcnt, Dev.railTimeout_eq ho h⟩
  case valid =>
    refine ⟨_, rfl, ?_⟩
    simp only [Dev.railUp_eq h hv]
    cases hfirst : s.dev.plat.railFirst with
    | none =>
      obtain ⟨hlast, hspread, hskew, hkeep, hplat⟩ := Dev.railLast_shows
        ((s.dev.onPlat fun p => { p with railValid := p.railValid.set rail true, railFirst := some (p.railFirst.getD rail) }).wr
          F.pltSupSeq_first rail) h 0
      have first := (hkeep.trans (Dev.rd_wr_same _ _ (by decide) _)).trans (Nat.mod_eq_of_lt h)
      rw [Dev.wr_plat] at hplat
      refine ⟨congrArg Plat.railValid hplat, ?_, hlast, fun _ => ⟨first, hspread, hskew⟩, fun h => absurd rfl h⟩
      exact (congrArg Plat.railFirst hplat).trans (by simp [hfirst])
    | some r =>
      obtain ⟨hlast, hspread, hskew, hkeep, hplat⟩ := Dev.railLast_shows
        (s.dev.onPlat fun p => { p with railValid := p.railValid.set rail true, railFirst := some (p.railFirst.getD rail) }) h tenths
      refine ⟨congrArg Plat.railValid hplat, ?_, hlast, fun h => (by cases h), fun _ => ⟨hkeep, hspread, hskew⟩⟩
      exact (congrArg Plat.railFirst hplat).trans (by simp [hfirst])
  case falls =>
    have lt := s.dev.fallTo_lt h0
    obtain ⟨hplat, hregions, hlevel⟩ := (s.dev.onPlat fun p => { p with fell := true }).levelFallen_shows (lt.trans_le (h4.trans (by decide)))
    refine ⟨_, rfl, (s.dev.onPlat fun p => { p with fell := true }).levelFallen (s.dev.fallTo (s.dev.rd F.pltThermStat_level)), hplat, hregions, hlevel.symm ▸ lt, fun l hl h1 hh => ?_,
      congrArg Dev.flashMoves (Dev.thermFall_eq h0 hf hn hot hr)⟩
    rw [hlevel]
    exact Dev.le_fallTo h4 hl h1 hh

end Sys2Proof.Machine
end

section
/-! Writes that are an action: reset control, the wall clock, the next profile, the journal's checkpoint and the emergency stop
(R56, R185, R198, R199, R410, R484). -/
namespace Sys2Proof.Machine
open Sys2Proof

/-! ## The write of a register that acts -/

/-- A write that no access counted leaves nothing to stamp. -/
theorem Dev.stampData_of_sameLog {d e : Dev} (h : e.mram.accessLog = d.mram.accessLog) (a v : Nat) :
    e.stampData d.mram.accessLog.written a v = e := by
  have none_ : e.countedSince d.mram.accessLog.written a = false := by
    rw [Dev.countedSince, h, Log.heldBefore, Nat.sub_self, Nat.sub_zero, List.drop_length, List.any_nil]
  exact if_pos (.inr (by rw [none_]; rfl))

theorem Dev.writesBlocked_eq_false {d : Dev} (h : d.writesBlocked = false) : d.plat.safe = false ∧ d.plat.softReset = none := by
  simpa [Dev.writesBlocked] using h

theorem Dev.takesWrite_of_writesBlocked {d : Dev} (h : d.writesBlocked = false) (k : Kind) (a : Nat) : d.takesWrite k a = true := by
  obtain ⟨hs, hr⟩ := Dev.writesBlocked_eq_false h
  simp [Dev.takesWrite, hs, hr]

theorem Dev.asWrite_of_writesBlocked {d : Dev} (h : d.writesBlocked = false) (page : Nat) (f : Dev → Dev) : d.asWrite page f = f d :=
  if_neg (by simp [h])

/-- The registers whose writes are barred by what their page holds, beside ranges and calibrations. -/
def barredByPage (k : Kind) (off : Nat) : Bool :=
  [0x14, 0x24, 0x28].contains off || [Kind.pltArb, .pltTherm, .hatReg, .hatAq].contains k

theorem Dev.writeBarred_eq {k : Kind} {a : Nat} (h : barredByPage k (a % 4096) = false) (d : Dev) (v : Nat) (r : RegDef) :
    d.writeBarred k a v r =
      (r.fields.any (fun x => x.ty == .rw && (decide (bitsOf v x.hi x.lo < x.min) || decide (x.max < bitsOf v x.hi x.lo))) ||
        r.fields.any (fun x => d.calOwns a x.hi x.lo)) := by
  simp only [barredByPage, Bool.or_eq_false_iff, List.contains_eq_mem, decide_eq_false_iff_not, List.mem_cons, List.not_mem_nil, or_false,
    not_or] at h
  obtain ⟨⟨h1, h2, h3⟩, ha, ht, hr, hq⟩ := h
  unfold Dev.writeBarred
  split <;> split <;> simp_all

/-- The write of an action register is its action, stamped where the action counts the access. -/
theorem Dev.write32_acts {d e : Dev} {a v i ns : Nat} {k : Kind} {r : RegDef} (hk : kindAt a = some (k, i)) (hr : regAt a = some r)
    (hm : r.mask Access.takes ≠ 0) (ht : d.takesWrite k a = true) (hb : d.writeBarred k a v r = false) (hv : v < 2 ^ 32)
    (hz : v &&& r.mask (fun _ => true) = v) (he : d.writeAct k i a v ns = some e) :
    d.write32 a v ns = e.stampData d.mram.accessLog.written a v := by
  rw [Dev.write32_taken hk hr hm ht hb hv hz, he, Option.getD_some]

/-! ## PLT_RST_CTRL (R56) -/

theorem Dev.resetWrite_keyed {d : Dev} (h : d.plat.softReset = none) :
    d.resetWrite 0x5AFE0001 = (d.onPlat fun p => { p with softReset := some ((d.now + 1) % 2 ^ 64) }).flashStop := by
  have key : bitsOf 0x5AFE0001 31 16 = 0x5AFE := by decide
  have chip : Nat.testBit 0x5AFE0001 0 = true := by decide
  simp [Dev.resetWrite, h, key, chip]

theorem Dev.write32_rstCtrl {d : Dev} (h : d.plat.softReset = none) (hkey : d.calOwns 0x2104 31 16 = false)
    (hchip : d.calOwns 0x2104 0 0 = false) (ht : d.plat.tp = none) : d.write32 F.pltRstCtrl_chip.addr 0x5AFE0001 0 =
      (d.onPlat fun p => { p with softReset := some ((d.now + 1) % 2 ^ 64), tp := some ((d.now + 1) % 2 ^ 64) }).onSfl fun x =>
        { x with frozen := true } := by
  have hk : kindAt 0x2104 = some (.pltRst, 0) := by decide +kernel
  have hr : regAt 0x2104 = some ⟨0x104, 1, 0, 1, 0, [fd 31 16 .wo 0, fd 0 0 .wo 0]⟩ := by decide +kernel
  have takes : d.takesWrite .pltRst 0x2104 = true := by simp [Dev.takesWrite, h]
  have barred : d.writeBarred .pltRst 0x2104 0x5AFE0001 ⟨0x104, 1, 0, 1, 0, [fd 31 16 .wo 0, fd 0 0 .wo 0]⟩ = false := by
    rw [Dev.writeBarred_eq (by decide)]
    simp [fd, hkey, hchip]
  have act : d.writeAct .pltRst 0 0x2104 0x5AFE0001 0 =
      some ((d.onPlat fun p => { p with softReset := some ((d.now + 1) % 2 ^ 64), tp := some ((d.now + 1) % 2 ^ 64) }).onSfl fun x =>
        { x with frozen := true }) := congrArg some ((Dev.resetWrite_keyed h).trans (Dev.flashStop_eq ht))
  exact (Dev.write32_acts hk hr (by decide) takes barred (by decide) (by decide) act).trans (Dev.stampData_of_sameLog rfl _ _)

/-! ## SFL_TIME (R185) -/

theorem Dev.write32_sflTime {d : Dev} {v : Nat} (h : d.writesBlocked = false) (hc : d.calOwns F.sflTime.addr 31 0 = false)
    (hlt : d.rd F.sflTime < v) (hv : v < 2 ^ 32) : d.write32 F.sflTime.addr v 0 = d.wr F.sflTime v := by
  have hk : kindAt F.sflTime.addr = some (.sflReg, 0) := by decide +kernel
  have hr : regAt F.sflTime.addr = some ⟨0x10C, 1, 0, 1, 0, [fd 31 0 .rw 0]⟩ := by decide +kernel
  have whole : bitsOf v 31 0 = v := by simp only [bitsOf, Nat.shiftRight_zero]; exact Nat.mod_eq_of_lt hv
  have barred : d.writeBarred .sflReg F.sflTime.addr v ⟨0x10C, 1, 0, 1, 0, [fd 31 0 .rw 0]⟩ = false := by
    rw [Dev.writeBarred_eq (by decide)]
    simp [fd, hc, whole]
    omega
  have fits : v &&& RegDef.mask ⟨0x10C, 1, 0, 1, 0, [fd 31 0 .rw 0]⟩ (fun _ => true) = v := by
    show v &&& 2 ^ 32 - 1 = v
    rw [Nat.and_two_pow_sub_one_eq_mod, Nat.mod_eq_of_lt hv]
  have act : d.writeAct .sflReg 0 F.sflTime.addr v 0 = some (d.wr F.sflTime v) := congrArg some (if_neg (Nat.not_le.2 hlt))
  exact (Dev.write32_acts hk hr (by decide) (Dev.takesWrite_of_writesBlocked h _ _) barred hv fits act).trans
    (Dev.stampData_of_sameLog (congrArg Mram.accessLog (Dev.wr_mram _ _ _)) _ _)

/-! ## PLT_MRAM_PROF (R484) -/

theorem bitsOf_next {n : Nat} (h : n < 8) : bitsOf (256 * n) 10 8 = n := by
  simp only [bitsOf, Nat.shiftRight_eq_div_pow]
  omega

/-- The boot record names the next profile. -/
def Dev.nextSet (d : Dev) (n : Nat) : Dev := (d.wr F.pltMramProf_next n).mramPut 2 fun m => { m with next := n }

theorem Dev.write32_mramProf {d : Dev} {n : Nat} (h : d.writesBlocked = false) (hc : ∀ hi lo, d.calOwns F.pltMramProf_next.addr hi lo = false)
    (hn : n < 8) : d.write32 F.pltMramProf_next.addr (256 * n) 0 = d.nextSet n := by
  have hk : kindAt F.pltMramProf_next.addr = some (.pltMram, 0) := by decide +kernel
  have hr : regAt F.pltMramProf_next.addr = some ⟨0x100, 1, 0, 1, 0, [fd 10 8 .rw 0, fd 4 4 .ro 0, fd 2 0 .ro 0]⟩ := by decide +kernel
  have barred : d.writeBarred .pltMram F.pltMramProf_next.addr (256 * n) ⟨0x100, 1, 0, 1, 0, [fd 10 8 .rw 0, fd 4 4 .ro 0, fd 2 0 .ro 0]⟩ =
      false := by
    rw [Dev.writeBarred_eq (by decide)]
    simp [fd, hc, bitsOf_next hn]
    omega
  have fits : ∀ m < 8, 256 * m &&& RegDef.mask ⟨0x100, 1, 0, 1, 0, [fd 10 8 .rw 0, fd 4 4 .ro 0, fd 2 0 .ro 0]⟩ (fun _ => true) = 256 * m := by
    decide
  have act : d.writeAct .pltMram 0 F.pltMramProf_next.addr (256 * n) 0 = some (d.nextSet n) := by
    show some (d.nextWrite (256 * n)) = _
    rw [Dev.nextWrite, bitsOf_next hn]
    rfl
  refine (Dev.write32_acts hk hr (by decide) (Dev.takesWrite_of_writesBlocked h _ _) barred (by omega) (fits n hn) act).trans
    (Dev.stampData_of_sameLog ?_ _ _)
  rw [Dev.nextSet, Dev.mramPut_mram, Dev.wr_mram]

theorem Dev.nextSet_shows (d : Dev) {n : Nat} (h : n < 8) : (d.nextSet n).mram = { d.mram with next := n } ∧
    (d.nextSet n).rd F.pltMramProf_next = n ∧ (d.nextSet n).plat = d.plat ∧ d.sameRegions (d.nextSet n) := by
  refine ⟨?_, ?_, ?_, Dev.sameRegions_trans (Dev.wr_sameRegions _ _ _) (Dev.mramPut_sameRegions _ _ _)⟩
  · rw [Dev.nextSet, Dev.mramPut_mram, Dev.wr_mram]
  · rw [Dev.nextSet, Dev.rd_mramPut (by decide), Dev.rd_wr_same _ _ (by decide)]
    exact Nat.mod_eq_of_lt h
  · rw [Dev.nextSet, Dev.mramPut_plat, Dev.wr_plat]

/-! ## SFL_JRN_CTRL (R198, R199) -/

theorem Dev.write32_jrnCtrl {d : Dev} {v : Nat} (h : d.writesBlocked = false)
    (hc : ∀ hi lo, d.calOwns F.sflJrnCtrl_flush.addr hi lo = false) (hv : v ∈ [0xF1000001, 0xF1000002]) :
    d.write32 F.sflJrnCtrl_flush.addr v 0 = (d.jrnWrite v).stampData d.mram.accessLog.written F.sflJrnCtrl_flush.addr v := by
  have hk : kindAt F.sflJrnCtrl_flush.addr = some (.sflJrn, 0) := by decide +kernel
  have hr : regAt F.sflJrnCtrl_flush.addr = some ⟨0x10C, 1, 0, 1, 0, [fd 31 24 .wo 0, fd 1 1 .wo 0, fd 0 0 .wo 0]⟩ := by decide +kernel
  have barred : d.writeBarred .sflJrn F.sflJrnCtrl_flush.addr v ⟨0x10C, 1, 0, 1, 0, [fd 31 24 .wo 0, fd 1 1 .wo 0, fd 0 0 .wo 0]⟩ = false := by
    rw [Dev.writeBarred_eq (by decide)]
    simp [fd, hc]
  have fits : ∀ w ∈ [0xF1000001, 0xF1000002], w < 2 ^ 32 ∧
      w &&& RegDef.mask ⟨0x10C, 1, 0, 1, 0, [fd 31 24 .wo 0, fd 1 1 .wo 0, fd 0 0 .wo 0]⟩ (fun _ => true) = w := by decide
  exact Dev.write32_acts hk hr (by decide) (Dev.takesWrite_of_writesBlocked h _ _) barred (fits v hv).1 (fits v hv).2 rfl

theorem Dev.jrnWrite_flush (d : Dev) : d.jrnWrite 0xF1000001 = (if d.flashRuns then d.jflush else d).pump := by
  have key : bitsOf 0xF1000001 31 24 = 0xF1 := by decide
  have flush : Nat.testBit 0xF1000001 0 = true := by decide
  have ckpt : Nat.testBit 0xF1000001 1 = false := by decide
  simp [Dev.jrnWrite, key, flush, ckpt, Dev.when]

theorem Dev.jrnWrite_ckpt (d : Dev) : d.jrnWrite 0xF1000002 = d.ckptStart.pump := by
  have key : bitsOf 0xF1000002 31 24 = 0xF1 := by decide
  have flush : Nat.testBit 0xF1000002 0 = false := by decide
  have ckpt : Nat.testBit 0xF1000002 1 = true := by decide
  simp [Dev.jrnWrite, key, flush, ckpt, Dev.when]

/-! ## MOT_CTRL (R410) -/

theorem Dev.estopClr_keyed {d : Dev} (h : d.active keyEstop = false) : d.estopClr 0xE5000001 = d.wr F.motStat_estop 0 := by
  have key : bitsOf 0xE5000001 31 24 = 0xE5 := by decide
  have clr : bitsOf 0xE5000001 0 0 = 1 := by decide
  simp [Dev.estopClr, key, clr, h]

/-- Settles O8: each register takes the write with its key, and its action is the effect. -/
theorem keyedWrites : Obligations.KeyedWrites := by
  unfold Obligations.KeyedWrites
  intro s
  refine ⟨fun hr hkey hchip htp => ?reset, fun v hw hc hlt hv => ?time, fun n hw hc hn => ?next, fun hw hc => ⟨?flush, ?ckpt⟩, fun hw he => ?estop⟩
  case reset =>
    refine ⟨_, rfl, ?_⟩
    simp only [Dev.write32_rstCtrl hr hkey hchip htp]
    exact ⟨rfl, rfl, rfl, rfl, rfl⟩
  case time =>
    refine ⟨_, rfl, ?_⟩
    simp only [Dev.write32_sflTime hw hc hlt hv]
    exact ⟨(Dev.rd_wr_same _ _ (by decide) _).trans (Nat.mod_eq_of_lt hv), fun f hf => Dev.rd_wr_other _ _ _ _ hf, Dev.wr_plat _ _ _,
      Dev.wr_mram _ _ _, Dev.wr_sameRegions _ _ _⟩
  case next =>
    refine ⟨_, rfl, ?_⟩
    simp only [Dev.write32_mramProf hw hc hn]
    exact s.dev.nextSet_shows hn
  case flush =>
    have value : setBit (0xF1000001 % 2 ^ 32) 0 true = 0xF1000001 := by decide
    refine ⟨_, rfl, congrArg Dev.hatPump ?_⟩
    rw [value, Dev.write32_jrnCtrl hw hc (by decide), Dev.jrnWrite_flush]
  case ckpt =>
    have value : setBit (0xF1000002 % 2 ^ 32) 1 true = 0xF1000002 := by decide
    have addr : F.sflJrnCtrl_ckpt.addr = F.sflJrnCtrl_flush.addr := rfl
    refine ⟨_, rfl, congrArg Dev.hatPump ?_⟩
    rw [value, addr, Dev.write32_jrnCtrl hw hc (by decide), Dev.jrnWrite_ckpt]
  case estop =>
    refine ⟨_, rfl, ?_⟩
    simp only [Dev.asWrite_of_writesBlocked hw, Dev.estopClr_keyed he]
    exact ⟨Dev.flag_zero _ _ (by decide) rfl, fun f hf => Dev.rd_wr_other _ _ _ _ hf, Dev.wr_plat _ _ _, Dev.wr_sameRegions _ _ _⟩

end Sys2Proof.Machine
end

section
/-! Commits: staging, the refusal of a target, and cancels (R42–R48). -/
namespace Sys2Proof.Machine
open Sys2Proof

section
variable {s : State} {page g ns : Nat} {Q : Dev → Prop}

theorem completes_pgCommitKey (h : Q (s.dev.asWrite (pageOf page) (·.commitKey (pageOf page) ns))) : completes (.pgCommitKey page ns) s Q :=
  ⟨_, rfl, h⟩

theorem completes_pgCommitCancel (h : Q (s.dev.asWrite (pageOf page) (·.cancelKey (pageOf page) ns))) :
    completes (.pgCommitCancel page ns) s Q := ⟨_, rfl, h⟩

theorem completes_groupCommit (h : Q (s.dev.asWrite Pg.pltGrp (·.groupKey (g % 64) ns))) : completes (.groupCommit g ns) s Q := ⟨_, rfl, h⟩

theorem completes_groupCancel (h : Q (s.dev.asWrite Pg.pltGrp (·.groupCancel (g % 64) ns))) : completes (.groupCancel g ns) s Q := ⟨_, rfl, h⟩

end

theorem pageOf_of_mod {p : Nat} (h : p % 4096 = 0) : pageOf p = p := by
  unfold pageOf
  omega

/-! ## The platform's record of commits -/

/-- The device with another list of staged sets and other commit states. -/
def Dev.staging (d : Dev) (st : List Staged) (cs : Map Nat) : Dev := d.onPlat fun p => { p with commitSt := cs, staged := st }

theorem Dev.commitState_eq (d : Dev) (p v : Nat) : d.commitState p v = d.staging d.plat.staged (Map.set 0 d.plat.commitSt p v) := rfl

theorem Dev.staging_staging (d : Dev) (st st' : List Staged) (cs cs' : Map Nat) : (d.staging st cs).staging st' cs' = d.staging st' cs' := rfl

theorem Dev.staging_self (d : Dev) : d.staging d.plat.staged d.plat.commitSt = d := rfl

/-- The commit states with `v` at every page of a list. -/
def pagesSet (cs : Map Nat) (pages : List Nat) (v : Nat) : Map Nat := pages.foldl (fun m p => Map.set 0 m p v) cs

theorem get_pagesSet_of_mem {pages : List Nat} {p : Nat} (h : p ∈ pages) (cs : Map Nat) (v : Nat) :
    Map.get 0 (pagesSet cs pages v) p = v := by
  have kept : ∀ (l : List Nat) (m : Map Nat), Map.get 0 m p = v → Map.get 0 (pagesSet m l v) p = v := by
    intro l
    induction l with
    | nil => exact fun m hm => hm
    | cons q l ih =>
      refine fun m hm => ih _ ?_
      rw [Map.get_set]
      split
      · rfl
      · exact hm
  obtain ⟨l, r, rfl⟩ := List.append_of_mem h
  rw [pagesSet, List.foldl_append, List.foldl_cons]
  exact kept r _ (Map.get_set_same _ _ _ _)

/-! ## Staging (R42, R43) -/

/-- The staged set that a key write makes of a page's shadows. -/
def Dev.stagedFor (d : Dev) (group target ns : Nat) (pages : List Nat) (page : Nat) : Staged :=
  ⟨page, group, if target = 0 then 0 else d.fullTick target, d.applyTick ns target, d.now,
    Map.window (d.asStaged pages).force page (4096 + page), .single⟩

theorem Dev.applyTick_eq (d : Dev) (ns target : Nat) : d.applyTick ns target = if target = 0 then d.now + (if 2400 ≤ ns then 2 else 1)
    else max (d.now + (if 2400 ≤ ns then 2 else 1)) (d.fullTick target) := by
  simp only [Dev.applyTick, inGuard, decide_eq_true_eq]

theorem Dev.stagePage_single {d : Dev} {pages : List Nat} {page : Nat} (h : d.isMbb (d.asStaged pages) page = false) (group target ns : Nat) :
    d.stagePage group target ns pages page = d.staging (d.plat.staged ++ [d.stagedFor group target ns pages page])
      (Map.set 0 d.plat.commitSt page 1) := by
  have : (d.commitState page 1).isMbb (d.asStaged pages) page = false := h
  unfold Dev.stagePage
  simp only [this, Bool.false_eq_true, if_false]
  rfl

theorem Dev.stagePages_single {d : Dev} {pages l : List Nat} (h : ∀ p ∈ l, d.isMbb (d.asStaged pages) p = false) (group target ns : Nat)
    (st : List Staged) (cs : Map Nat) : l.foldl (fun (e : Dev) p => e.stagePage group target ns pages p) (d.staging st cs) =
      d.staging (st ++ l.map (d.stagedFor group target ns pages)) (pagesSet cs l 1) := by
  induction l generalizing st cs with
  | nil => rw [List.map_nil, List.append_nil]; rfl
  | cons p l ih =>
    obtain ⟨hp, hl⟩ := List.forall_mem_cons.1 h
    have one : (d.staging st cs).stagePage group target ns pages p =
        d.staging (st ++ [d.stagedFor group target ns pages p]) (Map.set 0 cs p 1) :=
      Dev.stagePage_single (d := d.staging st cs) hp group target ns
    rw [List.foldl_cons, one, ih hl, List.map_cons, List.append_assoc]
    rfl

theorem Dev.commitKey_stages {d : Dev} {p : Nat} (hk : (kindAt p).isSome = true) (hg : (d.raw (p + 0x28)).toNat = 0)
    (hp : d.pendingPage p = false) (ht : (d.raw (p + 0x24)).toNat = 0 ∨ d.futureTick (d.raw (p + 0x24)).toNat = true)
    (hr : d.refuses [p] p = false) (ns : Nat) : d.commitKey p ns = d.stagePage 0 (d.raw (p + 0x24)).toNat ns [p] p := by
  have known : (kindAt p).isNone = false := by rw [← Option.not_isSome, hk]; rfl
  unfold Dev.commitKey
  rw [if_neg (by simp [known, hg, hp]), if_neg]
  rintro (⟨h0, hf⟩ | h)
  · rcases ht with ht | ht
    · exact h0 ht
    · simp [ht] at hf
  · simp [hr] at h

/-! ## A target that is no future tick (R44) -/

theorem Dev.commitKey_refused {d : Dev} {p : Nat} (hk : (kindAt p).isSome = true) (hg : (d.raw (p + 0x28)).toNat = 0)
    (hp : d.pendingPage p = false) (h0 : (d.raw (p + 0x24)).toNat ≠ 0) (hf : d.futureTick (d.raw (p + 0x24)).toNat = false) (ns : Nat) :
    d.commitKey p ns = (d.commitRefused p).countIgnored p (p + 0x20) := by
  have known : (kindAt p).isNone = false := by rw [← Option.not_isSome, hk]; rfl
  unfold Dev.commitKey
  rw [if_neg (by simp [known, hg, hp]), if_pos (.inl ⟨h0, by simp [hf]⟩)]

theorem Dev.ignoredCount_raise (d : Dev) (page bit info p : Nat) : (d.raise page bit info).ignoredCount p = d.ignoredCount p := by
  have h1 := pageOf_mod page
  have h2 := pageOf_mod p
  rw [Dev.ignoredCount, Dev.ignoredCount, Dev.raise, Dev.raw_report_header (by omega), if_neg (by omega)]

theorem Dev.errorShows_countIgnored_still {d : Dev} {page bit : Nat} (hb : bit < 32) (h : d.errorShows page bit) (info flags : Nat) :
    (d.countIgnored page info flags).errorShows page bit := by
  have hp := pageOf_mod page
  obtain ⟨r, hr⟩ := d.countIgnored_steps page info flags
  rw [hr, ← Dev.errorShows_pageOf]
  refine Dev.report_errorShows _ _ _ _ _ hb (.inr ?_)
  rw [Dev.errorShows_pageOf, Dev.errorShows, Dev.logAccess, Dev.raw_mramPut_header (by omega), Dev.raw_setRaw_other _ _ _ _ (by omega)]
  exact h

theorem Dev.commitRefused_counted_shows (d : Dev) (p info : Nat) :
    let e := (d.commitRefused p).countIgnored p info
    e.plat.staged = d.plat.staged ∧ Map.get 0 e.plat.commitSt p = 0 ∧ e.errorShows p 30 ∧
      e.ignoredCount p = satInc 32 (d.ignoredCount p) ∧ e.force = d.force ∧ e.shadow = d.shadow ∧ d.sameRegions e := by
  have alike : (d.commitState p 0).plat.alike ((d.commitRefused p).countIgnored p info).plat :=
    Plat.alike_trans (Dev.raise_plat _ _ _ _) (Dev.countIgnored_plat _ _ _ _)
  have beside : d.Beside ((d.commitRefused p).countIgnored p info) :=
    .trans (.trans (Dev.onPlat_beside d _) (Dev.raise_beside _ _ _ _)) (Dev.countIgnored_beside _ _ _ _)
  refine ⟨alike.staged, ?_, Dev.errorShows_countIgnored_still (by decide) (Dev.raise_errorShows _ _ _ (by decide)) _ _, ?_, beside.force,
    beside.shadow, Dev.sameRegions_trans (Dev.raise_sameRegions (d.commitState p 0) _ _ _) (Dev.countIgnored_sameRegions _ _ _ _)⟩
  · rw [alike.commitSt]
    exact Map.get_set_same 0 d.plat.commitSt p 0
  · rw [Dev.ignoredCount_countIgnored, Dev.commitRefused, Dev.ignoredCount_raise]
    rfl

/-! ## Cancels (R46) -/

/-- The staged sets that leave with those of a list: all of their pages. -/
def Dev.stagedBut (d : Dev) (ss : List Staged) : List Staged := d.plat.staged.filter (fun x => !ss.any (fun s => s.page == x.page))

/-- One staged set leaves without effect. -/
def Dev.setLeaves (d : Dev) (s : Staged) : Dev :=
  let d := d.commitState s.page 0
  match kindAt s.page, s.mbb with
  | some (.ingStr, i), .build _ =>
    let new := (Map.get (resetVal (s.page + 0x100)) s.vals (s.page + 0x100)).toNat
    ((bondAll new).filter (fun l => !(bondAll (d.bond i)).contains l && !(d.lanesOfOthers i).contains l)).foldl
      (fun (d : Dev) l => d.laneLeave l) d
  | some (.parSet, i), .build _ => d.reshapeAbandon i
  | _, _ => d

theorem Dev.unstage_eq_foldl (d : Dev) (ss : List Staged) :
    d.unstage ss = ss.foldl Dev.setLeaves (d.staging (d.stagedBut ss) d.plat.commitSt) := rfl

/-- A single-tick set has nothing built for it. -/
theorem Dev.setLeaves_single {s : Staged} (h : s.mbb = .single) (d : Dev) : d.setLeaves s = d.commitState s.page 0 := by
  unfold Dev.setLeaves
  rw [h]
  split
  case h_1 hm => cases hm
  case h_2 hm => cases hm
  case h_3 => rfl

theorem Dev.unstage_single {ss : List Staged} (h : ∀ s ∈ ss, s.mbb = .single) (d : Dev) :
    d.unstage ss = d.staging (d.stagedBut ss) (pagesSet d.plat.commitSt (ss.map (·.page)) 0) := by
  have fold : ∀ (l : List Staged) (st : List Staged) (cs : Map Nat), (∀ s ∈ l, s.mbb = .single) →
      l.foldl Dev.setLeaves (d.staging st cs) = d.staging st (pagesSet cs (l.map (·.page)) 0) := by
    intro l
    induction l with
    | nil => exact fun st cs _ => rfl
    | cons s l ih =>
      intro st cs hl
      obtain ⟨hs, hl⟩ := List.forall_mem_cons.1 hl
      rw [List.foldl_cons, Dev.setLeaves_single hs]
      exact ih st _ hl
  exact fold ss _ _ h

/-- How a staged set moves the boundary at which those it switches with are due. -/
def Staged.due (b : Option Nat) (x : Staged) : Option Nat :=
  match b, x.mbb with
  | some b, .build (some (t, ns)) => some (max (max b x.applyAt) (t + if inGuard ns then 2 else 1))
  | _, .build none => none
  | some b, _ => some (max b x.applyAt)
  | none, _ => none

theorem Dev.dueAt_eq_foldl (d : Dev) (s : Staged) : d.dueAt s = (d.together s).foldl Staged.due (some 0) := rfl

theorem Staged.due_single {x : Staged} (h : x.mbb = .single) (b : Nat) : Staged.due (some b) x = some (max b x.applyAt) := by
  unfold Staged.due
  rw [h]

/-- Staged sets of the single-tick kind are due at the latest of their boundaries. -/
theorem Dev.dueAt_single {d : Dev} {s : Staged} (h : ∀ x ∈ d.together s, x.mbb = .single) :
    ∃ b, d.dueAt s = some b ∧ ∀ x ∈ d.together s, x.applyAt ≤ b := by
  have fold : ∀ (l : List Staged) (a : Nat), (∀ x ∈ l, x.mbb = .single) →
      ∃ b, l.foldl Staged.due (some a) = some b ∧ a ≤ b ∧ ∀ x ∈ l, x.applyAt ≤ b := by
    intro l
    induction l with
    | nil => exact fun a _ => ⟨a, rfl, Nat.le_refl a, fun x hx => absurd hx List.not_mem_nil⟩
    | cons x l ih =>
      intro a hl
      obtain ⟨hx, hl⟩ := List.forall_mem_cons.1 hl
      obtain ⟨b, hb, hab, hle⟩ := ih (max a x.applyAt) hl
      refine ⟨b, ?_, by omega, List.forall_mem_cons.2 ⟨by omega, hle⟩⟩
      rw [List.foldl_cons, Staged.due_single hx, hb]
  obtain ⟨b, hb, -, hle⟩ := fold (d.together s) 0 h
  exact ⟨b, hb, hle⟩

/-- A cancel at `ns` comes after the last boundary that could still be called off. -/
def Dev.tooLate (d : Dev) (ns : Nat) (s : Staged) : Bool :=
  match d.dueAt s with
  | some b => decide (b < d.now + (if inGuard ns then 2 else 1))
  | none => false

theorem Dev.tooLate_single {d : Dev} {s : Staged} {ns : Nat} (h : ∀ x ∈ d.together s, x.mbb = .single) (hs : s ∈ d.together s)
    (ht : d.now + (if 2400 ≤ ns then 2 else 1) ≤ s.applyAt) : d.tooLate ns s = false := by
  obtain ⟨b, hb, hle⟩ := Dev.dueAt_single h
  unfold Dev.tooLate
  rw [hb]
  simp only [inGuard, decide_eq_true_eq, decide_eq_false_iff_not, Nat.not_lt]
  exact ht.trans (hle s hs)

theorem Dev.cancelKey_eq (d : Dev) (page ns : Nat) : d.cancelKey page ns =
    (let ss := d.plat.staged.filter (fun s => s.page == page)
     if (d.raw (page + 0x28)).toNat ≠ 0 ∨ ss.isEmpty ∨ ss.any (fun s => isSwitched s.mbb || d.tooLate ns s) then d.countIgnored page (page + 0x20)
     else d.unstage ss) := rfl

theorem Dev.groupCancel_eq (d : Dev) (g ns : Nat) : d.groupCancel g ns =
    (let ss := d.plat.staged.filter (fun s => s.group == g)
     if g = 0 ∨ ss.isEmpty ∨ Map.get 0 d.plat.groupSt g ≠ 1 ∨ ss.any (fun s => isSwitched s.mbb || d.tooLate ns s) then
       d.countIgnored Pg.pltGrp F.pltGrpCommit_key.addr
     else (d.unstage ss).groupState g 0) := rfl

theorem Dev.cancelKey_cancels {d : Dev} {p ns : Nat} {x : Staged} (hx : d.plat.staged.filter (fun y => y.page == p) = [x])
    (hm : x.mbb = .single) (hg : x.group = 0) (hr : (d.raw (p + 0x28)).toNat = 0)
    (ht : d.now + (if 2400 ≤ ns then 2 else 1) ≤ x.applyAt) :
    d.cancelKey p ns = d.staging (d.plat.staged.filter (fun y => y.page != p)) (Map.set 0 d.plat.commitSt p 0) := by
  have page : x.page = p := by
    have : x ∈ d.plat.staged.filter (fun y => y.page == p) := hx ▸ List.mem_singleton_self x
    simpa using (List.mem_filter.1 this).2
  have alone : d.together x = [x] := if_pos hg
  have due : d.tooLate ns x = false := Dev.tooLate_single (by simp [alone, hm]) (by simp [alone]) ht
  rw [Dev.cancelKey_eq]
  simp only [hx]
  rw [if_neg (by simp [hr, hm, isSwitched, due]), Dev.unstage_single (by simp [hm]), List.map_singleton, page]
  have others : d.stagedBut [x] = d.plat.staged.filter (fun y => y.page != p) := by
    refine List.filter_congr fun y _ => ?_
    rw [List.any_cons, List.any_nil, Bool.or_false, page, bne, BEq.comm]
  rw [others]
  rfl

theorem Dev.groupCancel_cancels {d : Dev} {g ns : Nat} (h0 : g ≠ 0) (hst : Map.get 0 d.plat.groupSt g = 1)
    (hss : d.plat.staged.filter (fun x => x.group == g) ≠ [])
    (h : ∀ x ∈ d.plat.staged, x.group = g → x.mbb = .single ∧ d.now + (if 2400 ≤ ns then 2 else 1) ≤ x.applyAt) :
    d.groupCancel g ns = (d.staging (d.stagedBut (d.plat.staged.filter (fun x => x.group == g)))
      (pagesSet d.plat.commitSt ((d.plat.staged.filter (fun x => x.group == g)).map (·.page)) 0)).groupState g 0 := by
  have member : ∀ x ∈ d.plat.staged.filter (fun x => x.group == g),
      x.group = g ∧ x.mbb = .single ∧ d.now + (if 2400 ≤ ns then 2 else 1) ≤ x.applyAt := by
    intro x hx
    obtain ⟨hmem, hgrp⟩ := List.mem_filter.1 hx
    exact ⟨by simpa using hgrp, h x hmem (by simpa using hgrp)⟩
  have due : ∀ x ∈ d.plat.staged.filter (fun x => x.group == g), d.tooLate ns x = false := by
    intro x hx
    obtain ⟨hgrp, -, ht⟩ := member x hx
    have all : d.together x = d.plat.staged.filter (fun x => x.group == g) := by rw [Dev.together, hgrp, if_neg h0]
    exact Dev.tooLate_single (by rw [all]; exact fun y hy => (member y hy).2.1) (by rw [all]; exact hx) ht
  have going : (d.plat.staged.filter (fun x => x.group == g)).any (fun s => isSwitched s.mbb || d.tooLate ns s) = false := by
    rw [List.any_eq_false]
    intro x hx
    rw [(member x hx).2.1, due x hx]
    decide
  rw [Dev.groupCancel_eq]
  simp only
  rw [if_neg (by rw [going]; simp only [h0, List.isEmpty_iff, hss, hst, ne_eq, not_true_eq_false, Bool.false_eq_true, or_self, not_false_iff]),
    Dev.unstage_single fun s hs => (member s hs).2.1]

/-! ## Groups (R46–R48) -/

theorem Dev.groupKey_stages {d : Dev} {g : Nat} (h0 : g ≠ 0) (hp : d.groupPages g ≠ []) (hst : Map.get 0 d.plat.groupSt g ≠ 1)
    (ht : d.rd F.pltGrpTick = 0 ∨ d.futureTick (d.rd F.pltGrpTick) = true)
    (h : ∀ p ∈ d.groupPages g, d.refuses (d.groupPages g) p = false ∧ d.isMbb (d.asStaged (d.groupPages g)) p = false) (ns : Nat) :
    d.groupKey g ns =
      (d.staging (d.plat.staged ++ (d.groupPages g).map (d.stagedFor g (d.rd F.pltGrpTick) ns (d.groupPages g)))
        (pagesSet d.plat.commitSt (d.groupPages g) 1)).groupState g 1 := by
  have accepted : (d.groupPages g).any (d.refuses (d.groupPages g)) = false := by
    rw [List.any_eq_false]
    exact fun p hp => by simp [(h p hp).1]
  unfold Dev.groupKey
  simp only
  rw [if_neg (by simp [h0, hp, hst]), if_neg]
  · exact congrArg (Dev.groupState · g 1)
      (Dev.stagePages_single (fun p hp => (h p hp).2) g (d.rd F.pltGrpTick) ns d.plat.staged d.plat.commitSt)
  · rintro (⟨hne, hf⟩ | hr)
    · rcases ht with ht | ht
      · exact hne ht
      · simp [ht] at hf
    · rw [accepted] at hr
      cases hr

/-- Settles O9: a key stages the page or refuses it, a group key stages each of its pages, and a cancel takes the staged sets away. -/
theorem commitsStage : Obligations.CommitsStage := by
  unfold Obligations.CommitsStage
  refine ⟨fun s p ns hp hw => ⟨fun hk hg hpend ht hr hm => ?staged, fun hk hg hpend h0 hf => ?refused, fun x hx hm hg hr ht => ?cancelled⟩,
    fun s g ns hg h0 hw => ⟨fun hpages hst ht h => ?groupStaged, fun hst hss h => ?groupCancelled⟩⟩
  case staged =>
    refine completes_pgCommitKey ?_
    rw [pageOf_of_mod hp, Dev.asWrite_of_writesBlocked hw, Dev.commitKey_stages hk hg hpend ht hr, Dev.stagePage_single hm, Dev.stagedFor,
      Dev.applyTick_eq]
    rfl
  case refused =>
    refine completes_pgCommitKey ?_
    rw [pageOf_of_mod hp, Dev.asWrite_of_writesBlocked hw, Dev.commitKey_refused hk hg hpend h0 hf]
    exact s.dev.commitRefused_counted_shows p _
  case cancelled =>
    refine completes_pgCommitCancel ?_
    rw [pageOf_of_mod hp, Dev.asWrite_of_writesBlocked hw, Dev.cancelKey_cancels hx hm hg hr ht]
    rfl
  case groupStaged =>
    refine completes_groupCommit ?_
    rw [Nat.mod_eq_of_lt hg, Dev.asWrite_of_writesBlocked hw, Dev.groupKey_stages h0 hpages hst ht h]
    refine ⟨Map.get_set_same 0 s.dev.plat.groupSt g 1, fun p hp => get_pagesSet_of_mem hp _ _, ?_, fun p hp => ⟨_, List.mem_append_right _ (List.mem_map_of_mem hp), rfl, rfl⟩,
      fun x hx => ?_, rfl, rfl, Dev.sameRegions_refl _⟩
    · exact (List.length_append ..).trans (by rw [List.length_map])
    · rcases List.mem_append.1 hx with hx | hx
      · exact .inl hx
      · obtain ⟨p, hp, rfl⟩ := List.mem_map.1 hx
        exact .inr ⟨rfl, hp, Dev.applyTick_eq _ _ _⟩
  case groupCancelled =>
    refine completes_groupCancel ?_
    rw [Nat.mod_eq_of_lt hg, Dev.asWrite_of_writesBlocked hw, Dev.groupCancel_cancels h0 hst hss h]
    refine ⟨Map.get_set_same 0 s.dev.plat.groupSt g 0, fun x hx hgrp => ?_, rfl, rfl, rfl, rfl, Dev.sameRegions_refl _⟩
    have mem : x ∈ s.dev.plat.staged.filter (fun x => x.group == g) := List.mem_filter.2 ⟨hx, by simp [hgrp]⟩
    refine ⟨get_pagesSet_of_mem (List.mem_map_of_mem mem) _ _, fun y hy hyx => ?_⟩
    have left := (List.mem_filter.1 hy).2
    simp only [Bool.not_eq_true', List.any_eq_false, beq_iff_eq] at left
    exact left x mem hyx.symm

end Sys2Proof.Machine
end

section
/-! SUPPORT. The unit states of R52: what setting one reads as, and which event a write of one of the three bits of PG_CTRL is. -/
namespace Sys2Proof.Machine
open Sys2Proof

/-! ## Setting a state -/

theorem Dev.unitAt_setUnit_of_master {p q : Nat} (h : masterOf q = masterOf p) (d : Dev) (u : UnitSt) : (d.setUnit p u).unitAt q = u := by
  show Map.get _ (Map.put d.plat.units (masterOf p) u) (masterOf q) = u
  rw [Map.get_put, if_pos h]

theorem Dev.unitAt_setUnit_other {p q : Nat} (h : masterOf q ≠ masterOf p) (d : Dev) (u : UnitSt) :
    (d.setUnit p u).unitAt q = d.unitAt q := by
  show Map.get _ (Map.put d.plat.units (masterOf p) u) (masterOf q) = _
  rw [Map.get_put, if_neg h]
  rfl

/-! ## The bits of PG_CTRL -/

/-- A bit that changes is the only one, and reads as written. -/
theorem setBit_unitBits (u : UnitSt) {bit : Nat} {on : Bool} (hb : bit < 3) (h : (unitBits u).testBit bit ≠ on) :
    setBit (unitBits u) bit on % 8 ≠ unitBits u ∧ (setBit (unitBits u) bit on % 8) ^^^ unitBits u = 2 ^ bit ∧
      (setBit (unitBits u) bit on % 8).testBit bit = on := by
  have all : ∀ b < 3, ∀ o : Bool, (unitBits u).testBit b ≠ o → setBit (unitBits u) b o % 8 ≠ unitBits u ∧
      (setBit (unitBits u) b o % 8) ^^^ unitBits u = 2 ^ b ∧ (setBit (unitBits u) b o % 8).testBit b = o := by
    cases u <;> decide
  exact all bit hb on h

/-- The page is a unit's own. -/
structure OwnPage (p : Nat) : Prop where
  aligned : p % 4096 = 0
  master : masterOf p = p
  unit : hasUnit p = true

section
variable {d : Dev} {p : Nat} (hp : OwnPage p) (hw : d.writesBlocked = false)
include hp

theorem OwnPage.unitCtrl : d.unitCtrl p = unitBits (d.unitAt p) := by
  rw [Dev.unitCtrl, hp.master, hp.unit, if_pos rfl]

/-- The event that a write of one bit is. -/
def Dev.unitEvent (d : Dev) (p bit : Nat) (on : Bool) : Dev :=
  match bit, on with
  | 0, true => d.unitOn p
  | 0, false => d.unitOff p
  | 1, true => d.unitQuiesce p
  | 1, false => d.unitResume p
  | _, true => d.unitIsolate p
  | _, false => d.unitDeisolate p

include hw in
theorem OwnPage.asEvent {bit : Nat} {on : Bool} (hb : bit < 3) (h : (unitBits (d.unitAt p)).testBit bit ≠ on) :
    d.asEvent p bit on = d.unitEvent p bit on := by
  obtain ⟨hne, hxor, hbit⟩ := setBit_unitBits (d.unitAt p) hb h
  rw [Dev.asEvent, Dev.asWrite_of_writesBlocked hw, pageOf_of_mod hp.aligned]
  unfold Dev.ctrlWrite
  simp only [hp.unitCtrl, hp.master, hp.unit, hne, hxor, ne_eq, not_true_eq_false, Bool.not_true, Bool.false_eq_true, if_false]
  have cases3 : bit = 0 ∨ bit = 1 ∨ bit = 2 := by omega
  obtain rfl | rfl | rfl := cases3
  · rw [if_pos (by decide), hbit]
    cases on <;> rfl
  · rw [if_neg (by decide), if_pos (by decide), hbit]
    cases on <;> rfl
  · rw [if_neg (by decide), if_neg (by decide), if_pos (by decide), hbit]
    cases on <;> rfl

end

/-! ## An event that is ignored -/

theorem Dev.unitIgnored_shows (d : Dev) (p : Nat) : (d.unitIgnored p).unitAt p = d.unitAt p ∧
    (d.unitIgnored p).ignoredCount p = satInc 32 (d.ignoredCount p) ∧ (d.unitIgnored p).errorShows p 31 ∧ d.sameRegions (d.unitIgnored p) :=
  ⟨Dev.unitAt_congr (Dev.countIgnored_plat _ _ _ _).units p, Dev.ignoredCount_countIgnored _ _ _ _, Dev.errorShows_countIgnored _ _ _ _,
    Dev.countIgnored_sameRegions _ _ _ _⟩

section
variable {s : State} {p : Nat} {Q : Dev → Prop}

theorem completes_unitEnable {present : Bool} (h : Q ((s.dev.present p present).asEvent p 0 true).hatPump) :
    completes (.unitEnable p present) s Q := ⟨_, rfl, h⟩

theorem completes_unitDisable (h : Q (s.dev.asEvent p 0 false).hatPump) : completes (.unitDisable p) s Q := ⟨_, rfl, h⟩

theorem completes_unitQuiesce (h : Q (s.dev.asEvent p 1 true).hatPump) : completes (.unitQuiesce p) s Q := ⟨_, rfl, h⟩

theorem completes_unitResume (h : Q (s.dev.asEvent p 1 false).hatPump) : completes (.unitResume p) s Q := ⟨_, rfl, h⟩

theorem completes_unitIsolate (h : Q (s.dev.asEvent p 2 true).hatPump) : completes (.unitIsolate p) s Q := ⟨_, rfl, h⟩

theorem completes_unitDeisolate {present : Bool} (h : Q ((s.dev.present p present).asEvent p 2 false).hatPump) :
    completes (.unitDeisolate p present) s Q := ⟨_, rfl, h⟩

end

end Sys2Proof.Machine
end

section
/-! ISOLATE and the mode of a drive (R6, R53, R54). -/
namespace Sys2Proof.Machine
open Sys2Proof

/-! ## What bars ISOLATE (R53) -/

theorem ownPage_drive {p n : Nat} (h : p % 4096 = 0) (hk : kindAt p = some (.odrDrv, n)) : OwnPage p where
  aligned := h
  master := by rw [masterOf, hk]; exact pageOf_of_mod h
  unit := by rw [hasUnit, hk]; rfl

theorem ownPage_stack {p n : Nat} (h : p % 4096 = 0) (hk : kindAt p = some (.cstStk, n)) : OwnPage p where
  aligned := h
  master := by rw [masterOf, hk]; exact pageOf_of_mod h
  unit := by rw [hasUnit, hk]; rfl

/-- The two cases of R53 at a page. -/
def Dev.isolateBarred (d : Dev) (page : Nat) : Bool :=
  match kindAt page with
  | some (.odrDrv, n) => d.discOnSpindle n
  | some (.cstStk, n) => d.stackMapped n
  | _ => false

theorem Dev.unitIsolate_eq (d : Dev) (page : Nat) : d.unitIsolate page =
    if !(d.unitAt page = .quiesced ∨ d.unitAt page = .fenced) ∨ d.isolateBarred page ∨ !replaceable page ∨ d.fencing page then d.unitIgnored page
    else (d.setUnit page .isolated).isolateWork page (d.unitAt page) := rfl

theorem Dev.stackMapped_of_decoder {d : Dev} {n : Nat} {r : Nat × Nat} (hr : some r ∈ d.hat.decoders) (hl : r.1 < (n + 1) * 2 ^ 36)
    (hh : n * 2 ^ 36 < r.2) : d.stackMapped n = true :=
  List.any_eq_true.2 ⟨r, List.mem_filterMap.2 ⟨some r, hr, rfl⟩, by rw [decide_eq_true hl, decide_eq_true hh]; rfl⟩

theorem unitBits_isolate {u : UnitSt} (h : u ≠ .isolated) : (unitBits u).testBit 2 = false := by
  cases u with
  | isolated => exact absurd rfl h
  | _ => rfl

theorem unitIsolate_ignored {s : State} {p : Nat} (hp : OwnPage p) (hw : s.dev.writesBlocked = false) (hu : s.dev.unitAt p ≠ .isolated)
    (hb : s.dev.isolateBarred p = true) : completes (.unitIsolate p) s fun e => e = (s.dev.unitIgnored p).hatPump := by
  apply completes_unitIsolate
  rw [hp.asEvent hw (by decide) (by rw [unitBits_isolate hu]; decide)]
  exact congrArg Dev.hatPump (if_pos (.inr (.inl hb)))

/-! ## JDM_COMPAT (R6, R54) -/

theorem completes_jdmCompatWrite {s : State} {n : Nat} {on : Bool} {Q : Dev → Prop} (hn : n < 4) (hw : s.dev.writesBlocked = false)
    (h : Q (s.dev.jdmWrite n on)) : completes (.jdmCompatWrite n on) s Q := by
  refine ⟨_, rfl, ?_⟩
  show Q (s.dev.asWrite (Pg.odrDrv (n % 4)) (·.jdmWrite (n % 4) on))
  rw [Nat.mod_eq_of_lt hn, Dev.asWrite_of_writesBlocked hw]
  exact h

theorem Dev.ad8_wrB (d : Dev) (n : Nat) (on : Bool) : (d.wrB (F.drvCtrl_jdmCompat n) on).ad8 n = on := by
  refine (Dev.flag_wr_same d (F.drvCtrl_jdmCompat n) (by simp [RegField.ok, F.drvCtrl_jdmCompat]) rfl (b2n on)).trans ?_
  cases on <;> rfl

theorem jdmCompat_steady {n : Nat} (h : n < 4) : (F.drvCtrl_jdmCompat n).steady := by
  simp only [RegField.steady, F.drvCtrl_jdmCompat]
  omega

/-- Settles O12: a disc or a decoder bars ISOLATE, and a disc bars a change of mode. -/
theorem discCompatibility : Obligations.DiscCompatibility := by
  unfold Obligations.DiscCompatibility
  refine ⟨fun s p n hp hw hu h => ?isolate, fun s n on hn hw hne hd => ?disc, fun s n on hn hw hne hd => ?empty⟩
  case isolate =>
    have barred : OwnPage p ∧ s.dev.isolateBarred p = true := by
      rcases h with ⟨hk, hd⟩ | ⟨hk, r, hr, hl, hh⟩
      · exact ⟨ownPage_drive hp hk, by rw [Dev.isolateBarred, hk]; exact hd⟩
      · exact ⟨ownPage_stack hp hk, by rw [Dev.isolateBarred, hk]; exact Dev.stackMapped_of_decoder hr hl hh⟩
    obtain ⟨e, he, heq⟩ := unitIsolate_ignored barred.1 hw hu barred.2
    exact ⟨e, he, _, heq, s.dev.unitIgnored_shows p⟩
  case disc =>
    have ignored : s.dev.jdmWrite n on = s.dev.countIgnored (Pg.odrDrv n) (F.drvCtrl_jdmCompat n).addr := by
      rw [Dev.jdmWrite, if_neg hne, if_pos hd]
    apply completes_jdmCompatWrite hn hw
    rw [ignored]
    exact ⟨Dev.flag_steady (Dev.rd_countIgnored (jdmCompat_steady hn) _ _ _), Dev.ignoredCount_countIgnored _ _ _ _,
      Dev.errorShows_countIgnored _ _ _ _, Dev.countIgnored_sameRegions _ _ _ _⟩
  case empty =>
    apply completes_jdmCompatWrite hn hw
    refine ⟨s.dev.wrB (F.drvCtrl_jdmCompat n) on, rfl, Dev.ad8_wrB _ _ _, ?_⟩
    have off : s.dev.discOnSpindle n ≠ true := by simp [hd]
    rw [Dev.jdmWrite, if_neg hne, if_neg off]
    simp only [Dev.unitAt_congr (congrArg Plat.units (Dev.wr_plat s.dev (F.drvCtrl_jdmCompat n) (b2n on))), Dev.wrB]

end Sys2Proof.Machine
end

section
/-! The transitions of R52 (R51, R52, R108). -/
namespace Sys2Proof.Machine
open Sys2Proof

/-! ## A unit that answers -/

/-- The device to which a unit's page is known to answer. -/
def Dev.here (d : Dev) (p : Nat) : Dev := { d with plat := { d.plat with absent := d.plat.absent.filter (· != p) } }

theorem OwnPage.present {p : Nat} (hp : OwnPage p) (d : Dev) : d.present p true = d.here p := by
  unfold Dev.present
  simp only [pageOf_of_mod hp.aligned, hp.master, if_true]
  rfl

theorem Dev.answers_here {p : Nat} (h : p % 4096 = 0) (d : Dev) : (d.here p).answers p = true := by
  have : p ∉ d.plat.absent.filter (· != p) := fun hm => by simpa using (List.mem_filter.1 hm).2
  have gone : (d.here p).plat.absent.contains (pageOf p) = false := by
    rw [pageOf_of_mod h, ← Bool.not_eq_true, List.contains_iff_mem]
    exact this
  rw [Dev.answers, gone, Bool.not_false, Bool.or_true]

/-! ## ENABLE -/

theorem Dev.unitActive_plain {p : Nat} (h : ∀ n, kindAt p ≠ some (.cstStk, n)) (d : Dev) :
    d.unitActive p = (d.setUnit p .active).activeWork p := by
  unfold Dev.unitActive
  split
  case h_1 n hk => exact absurd hk (h n)
  case h_2 => rfl

/-- What ENABLE ← 1 sets going on a unit that may be enabled. -/
def Dev.onWork (d : Dev) (page : Nat) : Dev :=
  match kindAt page with
  | some (.ingStr, s) => if d.streamMayEnable s then (d.setUnit page .active).streamStart s |>.unitActive page else d.unitIgnored page
  | some (.sflFc, ch) => (d.unitActive page).wr (F.sflFcStat_train ch) 1
  | some (.odrDrv, n) => (d.headStart n).unitActive page
  | some (.cstStk, n) => (d.unitActive page).wr (F.cstStkTrain n) 1
  | _ => d.unitActive page

theorem Dev.unitOn_eq (d : Dev) (page : Nat) : d.unitOn page =
    if d.unitAt page ≠ .off ∨ !d.answers page ∨ d.closed page then d.unitIgnored page else d.onWork page := rfl

/-- ENABLE ← 1 on a unit that is OFF and answers. -/
theorem unitEnable_completes {s : State} {p : Nat} (hp : OwnPage p) (hw : s.dev.writesBlocked = false) (hu : s.dev.unitAt p = .off)
    (hc : s.dev.closed p = false) : completes (.unitEnable p true) s fun e => e = ((s.dev.here p).onWork p).hatPump := by
  have off : (s.dev.here p).unitAt p = .off := hu
  have open_ : (s.dev.here p).closed p = false := hc
  apply completes_unitEnable
  rw [hp.present, hp.asEvent (d := s.dev.here p) hw (by decide) (by rw [off]; decide)]
  refine congrArg Dev.hatPump (if_neg ?_)
  simp [off, open_, Dev.answers_here hp.aligned]

/-! ## The other events -/

/-- The pools would not hold without the stack (R108). -/
def Dev.poolsShort (d : Dev) (page : Nat) : Bool :=
  match kindAt page with
  | some (.cstStk, n) => decide (d.pooledNow < d.sizeSum + (if d.stackCounts n then Config.pooled n else 0))
  | _ => false

theorem Dev.unitQuiesce_eq (d : Dev) (page : Nat) : d.unitQuiesce page =
    if d.unitAt page ≠ .active ∨ !replaceable page ∨ d.poolsShort page ∨ d.closed page then d.unitIgnored page
    else ((d.setUnit page .quiescing).onPlat fun p => { p with quiesceAt := Map.put p.quiesceAt page d.now }).quiesceWork page := rfl

theorem Dev.poolsShort_eq_false {d : Dev} {page : Nat}
    (h : ∀ n, kindAt page = some (.cstStk, n) → d.sizeSum + (if d.stackCounts n then Config.pooled n else 0) ≤ d.pooledNow) :
    d.poolsShort page = false := by
  unfold Dev.poolsShort
  split
  case h_1 n hk => exact decide_eq_false (Nat.not_lt.2 (h n hk))
  case h_2 => rfl

/-- What ISOLATE ← 0 sets going on a unit that answers. -/
def Dev.deisolateWork (d : Dev) (page : Nat) : Dev :=
  match kindAt page with
  | some (.ingStr, s) => (d.streamLanes s).foldl (fun (d : Dev) l => d.laneJoin l) (d.setUnit page .quiesced)
  | some (.sflFc, ch) => d.wr (F.sflFcStat_train ch) 1
  | some (.odrDrv, n) => ((d.setUnit page .quiesced).headStart n).driveLeaves n .isolated
  | some (.cstStk, n) => d.wr (F.cstStkTrain n) 1
  | _ => d.setUnit page .quiesced

theorem Dev.unitDeisolate_eq (d : Dev) (page : Nat) : d.unitDeisolate page =
    if d.unitAt page ≠ .isolated ∨ !d.answers page ∨ !replaceable page ∨ d.fencing page then d.unitIgnored page else d.deisolateWork page := rfl

section
variable {s : State} {p : Nat} (hp : OwnPage p) (hw : s.dev.writesBlocked = false) (hr : replaceable p = true)
include hp hw hr

theorem unitDisable_completes (hu : s.dev.unitAt p = .quiesced ∨ s.dev.unitAt p = .isolated ∨ s.dev.unitAt p = .fenced)
    (hf : s.dev.fencing p = false) :
    completes (.unitDisable p) s fun e => e = ((s.dev.setUnit p .off).offWork p (s.dev.unitAt p)).hatPump := by
  have bit : (unitBits (s.dev.unitAt p)).testBit 0 ≠ false := by
    rcases hu with h | h | h <;> rw [h] <;> decide
  apply completes_unitDisable
  rw [hp.asEvent hw (by decide) bit]
  exact congrArg Dev.hatPump (if_neg (by simp [hu, hr, hf]))

theorem unitQuiesce_completes (hu : s.dev.unitAt p = .active) (hs : s.dev.poolsShort p = false) (hc : s.dev.closed p = false) :
    completes (.unitQuiesce p) s fun e => e = (({ s.dev with plat := { s.dev.plat with
      units := Map.put s.dev.plat.units p .quiescing, quiesceAt := Map.put s.dev.plat.quiesceAt p s.dev.now } } : Dev).quiesceWork p).hatPump := by
  apply completes_unitQuiesce
  rw [hp.asEvent hw (by decide) (by rw [hu]; decide)]
  refine congrArg Dev.hatPump ((s.dev.unitQuiesce_eq p).trans ((if_neg ?_).trans ?_))
  · simp [hu, hr, hs, hc]
  · rw [Dev.setUnit, hp.master]
    rfl

theorem unitResume_completes (hu : s.dev.unitAt p = .quiescing ∨ s.dev.unitAt p = .quiesced) (hc : s.dev.closed p = false) :
    completes (.unitResume p) s fun e => e = (s.dev.unitActive p).hatPump := by
  have bit : (unitBits (s.dev.unitAt p)).testBit 1 ≠ false := by
    rcases hu with h | h <;> rw [h] <;> decide
  apply completes_unitResume
  rw [hp.asEvent hw (by decide) bit]
  exact congrArg Dev.hatPump (if_neg (by simp [hu, hr, hc]))

theorem unitIsolate_completes (hu : s.dev.unitAt p = .quiesced ∨ s.dev.unitAt p = .fenced) (hb : s.dev.isolateBarred p = false)
    (hf : s.dev.fencing p = false) :
    completes (.unitIsolate p) s fun e => e = ((s.dev.setUnit p .isolated).isolateWork p (s.dev.unitAt p)).hatPump := by
  have bit : (unitBits (s.dev.unitAt p)).testBit 2 ≠ true := by
    rcases hu with h | h <;> rw [h] <;> decide
  apply completes_unitIsolate
  rw [hp.asEvent hw (by decide) bit]
  exact congrArg Dev.hatPump ((s.dev.unitIsolate_eq p).trans (if_neg (by simp [hu, hr, hb, hf])))

theorem unitDeisolate_completes (hu : s.dev.unitAt p = .isolated) (hf : s.dev.fencing p = false) :
    completes (.unitDeisolate p true) s fun e => e = ((s.dev.here p).deisolateWork p).hatPump := by
  have isolated : (s.dev.here p).unitAt p = .isolated := hu
  have free : (s.dev.here p).fencing p = false := hf
  apply completes_unitDeisolate
  rw [hp.present, hp.asEvent (d := s.dev.here p) hw (by decide) (by rw [isolated]; decide)]
  exact congrArg Dev.hatPump (if_neg (by simp [isolated, free, hr, Dev.answers_here hp.aligned]))

end

/-! ## The end of quiescing -/

section
variable {s : State} {p : Nat} (hp : OwnPage p) (hu : s.dev.unitAt p = .quiescing) (hc : s.dev.closed p = false)
include hp hu hc

theorem quiesceComplete_completes (hi : s.dev.unitIdle p = true) :
    completes (.quiesceComplete p) s fun e => e = { s.dev with plat := { s.dev.plat with units := Map.put s.dev.plat.units p .quiesced } } := by
  refine ⟨_, rfl, ?_⟩
  show (if s.dev.unitAt (masterOf (pageOf p)) = .quiescing ∧ s.dev.unitIdle (masterOf (pageOf p)) ∧ !s.dev.closed (masterOf (pageOf p)) then
    s.dev.setUnit (masterOf (pageOf p)) .quiesced else s.dev) = _
  rw [pageOf_of_mod hp.aligned, hp.master, if_pos ⟨hu, hi, by simp [hc]⟩, Dev.setUnit, hp.master]
  rfl

/-- A unit other than stack 3 that quiesces is fenced alone. -/
theorem fence_quiescing (h3 : p ≠ 0x404000) : s.dev.fence p = s.dev.fenceBegun p none := by
  have one : s.dev.fence1 p none = s.dev.fenceBegun p none := by
    rw [Dev.fence1_eq none (by rwa [hp.master]) (by rw [hp.master, hu]; exact fun h => by cases h), hp.master]
  unfold Dev.fence
  simp only [hp.master, if_neg h3, one]

theorem quiesceTimeout_completes {b : Nat} (hb : s.dev.quiesceBound p = some b) (ht : b ≤ s.dev.since (Map.get 0 s.dev.plat.quiesceAt p)) :
    completes (.quiesceTimeout p) s fun e => e = s.dev.fenceBegun p none := by
  have h3 : p ≠ 0x404000 := by
    rintro rfl
    have hk : kindAt 0x404000 = some (.cstStk, 3) := by decide +kernel
    simp [Dev.quiesceBound, hk] at hb
  refine ⟨_, rfl, ?_⟩
  simp only [pageOf_of_mod hp.aligned, hp.master, hb]
  rw [if_pos ⟨hu, ht⟩, fence_quiescing hp hu hc h3]

end

theorem Dev.fenceBegun_mem (d : Dev) (u : Nat) (err : Option (Nat × Nat)) :
    (⟨u, d.now, d.fenceWithin u, err⟩ : Fence) ∈ (d.fenceBegun u err).plat.fences :=
  List.mem_append_right _ (List.mem_singleton_self _)

theorem Dev.fenceBegun_closed (d : Dev) {u : Nat} (h : masterOf u = u) (err : Option (Nat × Nat)) : (d.fenceBegun u err).closed u = true :=
  (Dev.closed_iff _ _).2 ⟨u, by simp [enclosing, h], .inr ⟨_, d.fenceBegun_mem u err, .inl rfl⟩⟩

/-! ## Events that a unit's state or kind does not take (R52, R108) -/

theorem replaceable_stack3 {p : Nat} (h : kindAt p = some (.cstStk, 3)) : replaceable p = false := by
  rw [replaceable, isMaster, h]
  rfl

section
variable {s : State} {p : Nat} (hp : OwnPage p) (hw : s.dev.writesBlocked = false) (hu : s.dev.unitAt p = .active)
include hp hw hu

theorem stack3_unitQuiesce (hk : kindAt p = some (.cstStk, 3)) : completes (.unitQuiesce p) s fun e => e = (s.dev.unitIgnored p).hatPump := by
  apply completes_unitQuiesce
  rw [hp.asEvent hw (by decide) (by rw [hu]; decide)]
  exact congrArg Dev.hatPump (if_pos (.inr (.inl (by simp [replaceable_stack3 hk]))))

theorem active_unitIsolate : completes (.unitIsolate p) s fun e => e = (s.dev.unitIgnored p).hatPump := by
  apply completes_unitIsolate
  rw [hp.asEvent hw (by decide) (by rw [hu]; decide)]
  exact congrArg Dev.hatPump (if_pos (.inl (by simp [hu])))

theorem active_unitDisable : completes (.unitDisable p) s fun e => e = (s.dev.unitIgnored p).hatPump := by
  apply completes_unitDisable
  rw [hp.asEvent hw (by decide) (by rw [hu]; decide)]
  exact congrArg Dev.hatPump (if_pos (.inl (by simp [hu])))

end

/-- An event that an ACTIVE unit ignores leaves it ACTIVE and is counted. -/
theorem ignored_while_active {c : Instr} {s : State} {p : Nat} (hu : s.dev.unitAt p = .active)
    (h : completes c s fun e => e = (s.dev.unitIgnored p).hatPump) :
    completes c s fun e => ∃ m : Dev, e = m.hatPump ∧ m.unitAt p = .active ∧ m.ignoredCount p = satInc 32 (s.dev.ignoredCount p) ∧
      m.errorShows p 31 ∧ s.dev.sameRegions m := by
  obtain ⟨e, he, heq⟩ := h
  obtain ⟨hunit, hcount, herr, hregions⟩ := s.dev.unitIgnored_shows p
  exact ⟨e, he, _, heq, hunit.trans hu, hcount, herr, hregions⟩

theorem completes_congr {c : Instr} {s : State} {a b : Dev} (h : completes c s fun e => e = a) (hab : a = b) : completes c s fun e => e = b :=
  hab ▸ h

/-- Settles O11: a write of one bit is the event of R52 on the unit's own page, and each event that its state takes sets the new state. -/
theorem unitStates : Obligations.UnitStates := by
  unfold Obligations.UnitStates
  refine ⟨fun d p q u => ⟨fun h => Dev.unitAt_setUnit_of_master h d u, fun h => Dev.unitAt_setUnit_other h d u⟩, fun s p ha hm hh hw => ?_⟩
  have hp : OwnPage p := ⟨ha, hm, hh⟩
  refine ⟨fun hu hc => ?enable, fun hr => ⟨unitDisable_completes hp hw hr, fun hu hc hs => ?quiesce, unitResume_completes hp hw hr,
    fun hu hf hd hst => ?isolate, fun hu hf => ?deisolate, fun hu hi hc => quiesceComplete_completes hp hu hc hi, fun b hu hb ht hc => ?timeout⟩,
    fun hk hu => ⟨ignored_while_active hu (stack3_unitQuiesce hp hw hu hk), ignored_while_active hu (active_unitIsolate hp hw hu),
      ignored_while_active hu (active_unitDisable hp hw hu)⟩⟩
  case enable =>
    have on := unitEnable_completes hp hw hu hc
    refine ⟨fun ch hk => ?_, fun n hk => ?_, fun n hk => ?_, fun n hk => ?_, fun i hk hmay => ?_⟩
    all_goals
      refine completes_congr on (congrArg Dev.hatPump ?_)
      simp only [Dev.onWork, hk]
    · rw [Dev.unitActive_plain (by simp [hk])]
      rfl
    · rfl
    · rw [Dev.unitActive_plain (by simp [hk])]
      rfl
    · rw [Dev.unitActive_plain (by simp [hk])]
      rfl
    · have may : (s.dev.here p).streamMayEnable i = true := hmay
      rw [if_pos may, Dev.unitActive_plain (by simp [hk])]
      rfl
  case isolate =>
    refine unitIsolate_completes hp hw hr hu ?_ hf
    unfold Dev.isolateBarred
    split
    case h_1 n hk => exact hd n hk
    case h_2 n hk => exact hst n hk
    case h_3 => rfl
  case deisolate =>
    have off := unitDeisolate_completes hp hw hr hu hf
    refine ⟨fun ch hk => ?_, fun n hk => ?_, fun n hk => ?_, fun i hk => ?_⟩
    all_goals
      refine completes_congr off (congrArg Dev.hatPump ?_)
      simp only [Dev.deisolateWork, hk]
      rfl
  case timeout =>
    obtain ⟨e, he, rfl⟩ := quiesceTimeout_completes hp hu hc hb ht
    exact ⟨_, he, s.dev.fenceBegun_closed hm none, _, s.dev.fenceBegun_mem p none, rfl, rfl⟩
  case quiesce => exact unitQuiesce_completes hp hw hr hu (Dev.poolsShort_eq_false hs) hc

end Sys2Proof.Machine
end

section
/-! Resets and the steps to READY (R56, R486, R516–R521, R527). -/
namespace Sys2Proof.Machine
open Sys2Proof

/-! ## Resets (R56, R517) -/

/-- What the record of a chip reset's cause leaves of the reset. -/
theorem Dev.chipReset_wr (d : Dev) (confirmed : List Nat) {f : RegField} (h : f.rs = false) (v : Nat) :
    let e := (d.chipReset confirmed).wr f v
    e.mram = d.mram ∧ e.plat.boot = .reset ∧ e.plat.safe = false ∧ e.plat.tick = 0 ∧ e.cst = Dev.reset.cst ∧ e.bpm = Dev.reset.bpm ∧
      e.hat = Dev.reset.hat ∧ e.force = Dev.reset.force ∧ e.shadow = Dev.reset.shadow ∧ e.plat.absent = d.plat.absent ∧
      e.sfl.units = d.confirmedEnd confirmed ∧ e.plat.softReset = none := by
  simp only [Dev.wr_mram, Dev.wr_plat, Dev.wr_cst, Dev.wr_bpm, Dev.wr_hat, Dev.wr_sfl, Dev.wr_force h, Dev.wr_shadow h]
  exact ⟨rfl, rfl, rfl, rfl, rfl, rfl, rfl, rfl, rfl, rfl, rfl, rfl⟩

/-! ## Start-up (R519) -/

/-- Writing the modes of the drives to `on` one after the other. -/
def Dev.modesLatch (d : Dev) (on : Bool) : Dev := (List.range 4).foldl (fun (d : Dev) n => d.wrB (F.drvCtrl_jdmCompat n) on) d

theorem Dev.modesLatch_eq (d : Dev) (on : Bool) : d.modesLatch on = (((d.wrB (F.drvCtrl_jdmCompat 0) on).wrB (F.drvCtrl_jdmCompat 1) on).wrB
    (F.drvCtrl_jdmCompat 2) on).wrB (F.drvCtrl_jdmCompat 3) on := rfl

theorem Dev.ad8_wrB_other {n k : Nat} (h : n ≠ k) (d : Dev) (on : Bool) : (d.wrB (F.drvCtrl_jdmCompat k) on).ad8 n = d.ad8 n :=
  Dev.flag_wr_other _ _ _ _ (by simp only [F.drvCtrl_jdmCompat]; omega)

theorem Dev.modesLatch_ad8 (d : Dev) (on : Bool) {n : Nat} (h : n < 4) : (d.modesLatch on).ad8 n = on := by
  rw [Dev.modesLatch_eq]
  obtain rfl | rfl | rfl | rfl : n = 0 ∨ n = 1 ∨ n = 2 ∨ n = 3 := by omega
  · rw [Dev.ad8_wrB_other (by decide), Dev.ad8_wrB_other (by decide), Dev.ad8_wrB_other (by decide), Dev.ad8_wrB]
  · rw [Dev.ad8_wrB_other (by decide), Dev.ad8_wrB_other (by decide), Dev.ad8_wrB]
  · rw [Dev.ad8_wrB_other (by decide), Dev.ad8_wrB]
  · rw [Dev.ad8_wrB]

/-- The latched pins, as the platform's record and PLT_STAT hold them. -/
def Dev.pinsLatch (d : Dev) (x : StartIn) : Dev :=
  ((d.onPlat fun p => { p with
    jdmsel := x.jdmsel, refsel := x.refsel, testEn := x.testEn, perst := x.perst, railValid := List.replicate 8 true,
    tick := 0 }).wrB F.pltStat_jdmsel x.jdmsel).wrB F.pltStat_refsel x.refsel

/-- A power-up is counted where no other cause of the reset shows. -/
def Dev.powerOnCounted (d : Dev) : Dev :=
  d.when (!d.flag F.pltRstCause_pin && !d.flag F.pltRstCause_soft) fun d =>
    (d.wr F.pltRstCause_power 1).mramPut 1 fun m => { m with powerOns := satInc 32 m.powerOns }

theorem Dev.strapsLatch_eq (d : Dev) (x : StartIn) : d.strapsLatch x = ((d.pinsLatch x).modesLatch x.jdmsel).powerOnCounted := rfl

theorem Dev.powerOnCounted_plat (d : Dev) : d.powerOnCounted.plat = d.plat := by
  unfold Dev.powerOnCounted Dev.when
  split
  · rw [Dev.mramPut_plat, Dev.wr_plat]
  · rfl

theorem Dev.powerOnCounted_sameRegions (d : Dev) : d.sameRegions d.powerOnCounted := by
  unfold Dev.powerOnCounted Dev.when
  split
  · exact Dev.sameRegions_trans (Dev.wr_sameRegions _ _ _) (Dev.mramPut_sameRegions _ _ _)
  · exact d.sameRegions_refl

theorem Dev.flag_powerOnCounted {f : RegField} (h : f.steady) (hne : f.addr ≠ F.pltRstCause_power.addr) (d : Dev) :
    d.powerOnCounted.flag f = d.flag f := by
  unfold Dev.powerOnCounted Dev.when
  split
  · exact Dev.flag_steady ((Dev.rd_mramPut h _ _).trans (Dev.rd_wr_other _ _ _ _ hne))
  · rfl

theorem Dev.modesLatch_plat (d : Dev) (on : Bool) : (d.modesLatch on).plat = d.plat := by
  simp only [Dev.modesLatch_eq, Dev.wrB, Dev.wr_plat]

theorem Dev.modesLatch_sameRegions (d : Dev) (on : Bool) : d.sameRegions (d.modesLatch on) := by
  rw [Dev.modesLatch_eq]
  exact Dev.sameRegions_trans (Dev.sameRegions_trans (Dev.wr_sameRegions _ _ _) (Dev.wr_sameRegions _ _ _))
    (Dev.sameRegions_trans (Dev.wr_sameRegions _ _ _) (Dev.wr_sameRegions _ _ _))

theorem Dev.flag_modesLatch {f : RegField} (h : ∀ n, f.addr ≠ (F.drvCtrl_jdmCompat n).addr) (d : Dev) (on : Bool) :
    (d.modesLatch on).flag f = d.flag f := by
  simp only [Dev.modesLatch_eq, Dev.wrB, Dev.flag_wr_other _ _ _ _ (h _)]

theorem b2n_flag (b : Bool) : decide (b2n b % 2 = 1) = b := by
  cases b <;> rfl

theorem Dev.pinsLatch_shows (d : Dev) (x : StartIn) :
    (d.pinsLatch x).flag F.pltStat_jdmsel = x.jdmsel ∧ (d.pinsLatch x).flag F.pltStat_refsel = x.refsel := by
  unfold Dev.pinsLatch Dev.wrB
  refine ⟨?_, ?_⟩
  · rw [Dev.flag_wr_beside _ _ _ _ (by decide) (by decide) (by decide), Dev.flag_wr_same _ _ (by decide) rfl, b2n_flag]
  · rw [Dev.flag_wr_same _ _ (by decide) rfl, b2n_flag]

/-- What the straps leave: time, pins, and the drives' modes. -/
theorem Dev.strapsLatch_shows (d : Dev) (x : StartIn) :
    (d.strapsLatch x).plat = { d.plat with
      jdmsel := x.jdmsel, refsel := x.refsel, testEn := x.testEn, perst := x.perst, railValid := List.replicate 8 true,
      tick := 0 } ∧ (d.strapsLatch x).flag F.pltStat_jdmsel = x.jdmsel ∧
      (d.strapsLatch x).flag F.pltStat_refsel = x.refsel ∧ (∀ n, n < 4 → (d.strapsLatch x).ad8 n = x.jdmsel) ∧
      d.sameRegions (d.strapsLatch x) := by
  have apart : ∀ n, 0x100 ≠ (F.drvCtrl_jdmCompat n).addr := fun n => by simp only [F.drvCtrl_jdmCompat]; omega
  obtain ⟨hj, hr⟩ := d.pinsLatch_shows x
  rw [Dev.strapsLatch_eq]
  refine ⟨?_, ?_, ?_, fun n hn => ?_, ?_⟩
  · rw [Dev.powerOnCounted_plat, Dev.modesLatch_plat, Dev.pinsLatch, Dev.wrB, Dev.wr_plat, Dev.wrB, Dev.wr_plat]
    rfl
  · rw [Dev.flag_powerOnCounted (by decide) (by decide), Dev.flag_modesLatch apart, hj]
  · rw [Dev.flag_powerOnCounted (by decide) (by decide), Dev.flag_modesLatch apart, hr]
  · exact (Dev.flag_powerOnCounted (jdmCompat_steady hn) (by simp only [F.drvCtrl_jdmCompat, F.pltRstCause_power]; omega) _).trans
      (Dev.modesLatch_ad8 _ _ hn)
  · exact Dev.sameRegions_trans (Dev.sameRegions_trans (Dev.sameRegions_trans (Dev.wr_sameRegions (d.onPlat _) _ _) (Dev.wr_sameRegions _ _ _))
      (Dev.modesLatch_sameRegions _ _)) (Dev.powerOnCounted_sameRegions _)

/-- The device whose straps are latched and that starts up. -/
def Dev.starts (d : Dev) (x : StartIn) : Dev := (d.strapsLatch x).onPlat fun p => { p with boot := .starting }

theorem Dev.starts_shows (d : Dev) (x : StartIn) : let m := d.starts x
    m.plat.boot = .starting ∧ m.plat.tick = 0 ∧ m.plat.perst = x.perst ∧ m.flag F.pltStat_jdmsel = x.jdmsel ∧
      m.flag F.pltStat_refsel = x.refsel ∧ (∀ n, n < 4 → m.ad8 n = x.jdmsel) ∧ d.sameRegions m := by
  obtain ⟨hplat, hj, hr, had8, hregions⟩ := d.strapsLatch_shows x
  exact ⟨rfl, congrArg Plat.tick hplat, congrArg Plat.perst hplat, hj, hr, had8, hregions⟩

/-- What the work of start-up keeps. -/
theorem Dev.startWork_time (d : Dev) (x : StartIn) : let e := (d.starts x).startWork x
    e.plat.tick = 0 ∧ e.plat.jdmsel = x.jdmsel ∧ e.plat.refsel = x.refsel ∧ e.plat.testEn = x.testEn := by
  obtain ⟨hplat, -⟩ := d.strapsLatch_shows x
  obtain ⟨htick, hjdm, href, htest⟩ := (startWork_keeps (x1 := x) (Keeps.rfl' (d.starts x))).time (fun h => by cases h)
  exact ⟨htick.trans (congrArg Plat.tick hplat), hjdm.trans (congrArg Plat.jdmsel hplat), href.trans (congrArg Plat.refsel hplat),
    htest.trans (congrArg Plat.testEn hplat)⟩

theorem Dev.startUp_eq {d : Dev} (h : d.plat.boot = .reset) (x : StartIn) : d.startUp x =
    if x.testEn then (d.strapsLatch x).onPlat fun p => { p with boot := .test } else (d.starts x).startWork x :=
  if_neg (by simp [h])

theorem completes_startup {s : State} {x : StartIn} {Q : Dev → Prop} {d : Dev} (h : s.dev.startUp x = d) (hq : Q d) :
    completes (.startup x) s Q := by
  subst h
  exact ⟨_, rfl, hq⟩

/-! ## READY (R486, R520) -/

/-- The device that is READY: what a profile names comes after. -/
def Dev.readyShown (d : Dev) (us10 : Nat) : Dev := ((d.onPlat fun p => { p with boot := .ready }).wr F.pltStat_ready 1).wr F.mg0Start us10

theorem Dev.readyShown_shows (d : Dev) (us10 : Nat) : (d.readyShown us10).plat = { d.plat with boot := .ready } ∧
    (d.readyShown us10).flag F.pltStat_ready = true ∧ (d.readyShown us10).rd F.mg0Start = us10 % 65536 ∧
    (d.readyShown us10).mram = d.mram ∧ d.sameRegions (d.readyShown us10) := by
  unfold Dev.readyShown
  refine ⟨by rw [Dev.wr_plat, Dev.wr_plat]; rfl, ?_, Dev.rd_wr_same _ _ (by decide) _, by rw [Dev.wr_mram, Dev.wr_mram]; rfl,
    Dev.sameRegions_trans (Dev.wr_sameRegions (d.onPlat _) _ _) (Dev.wr_sameRegions _ _ _)⟩
  rw [Dev.flag_wr_other _ _ _ _ (by decide), Dev.flag_one _ _ (by decide) rfl]

theorem Dev.readyShown_activeProf (d : Dev) (us10 : Nat) : (d.readyShown us10).activeProf = d.activeProf := by
  unfold Dev.activeProf Dev.readyShown
  rw [Dev.flag_wr_other _ _ _ _ (by decide), Dev.flag_wr_other _ _ _ _ (by decide), Dev.rd_wr_other _ _ _ _ (by decide),
    Dev.rd_wr_other _ _ _ _ (by decide)]
  rfl

/-- The sessions of AUTO_ARM are armed. -/
def Dev.autoArmed (d : Dev) (p : Nat) : Dev :=
  ((List.range 32).filter (leNat (d.profBytes p 12 4)).testBit).foldl (fun (d : Dev) s => d.sesEvent s .arm) d

/-- The drives of SPIN are enabled. -/
def Dev.spinsNamed (d : Dev) (p : Nat) : Dev :=
  ((List.range 4).filter (leNat (d.profBytes p 16 1)).testBit).foldl (fun (d : Dev) n => d.spinNamed n) d

theorem completes_ready {s : State} {us10 : Nat} {Q : Dev → Prop} {d : Dev} (h : s.dev.becomesReady us10 = d) (hq : Q d) :
    completes (.ready us10) s Q := by
  subst h
  exact ⟨_, rfl, hq⟩

theorem Dev.becomesReady_eq {d : Dev} (hb : d.plat.boot = .starting) (hp : d.plat.pfPin = false) (hr : d.plat.softReset = none) (us10 : Nat) :
    d.becomesReady us10 = match (d.readyShown us10).activeProf with
      | none => d.readyShown us10
      | some p => if (d.readyShown us10).plat.safe then d.readyShown us10 else ((d.readyShown us10).autoArmed p).spinsNamed p := by
  refine (if_neg (by simp [hb, hp, hr])).trans ?_
  rfl

/-! Arming a session leaves the profiles of the MRAM. -/

theorem Dev.report_profiles (d : Dev) (page bit level info : Nat) : (d.report page bit level info).mram.profiles = d.mram.profiles := by
  obtain ⟨r, e, -, -, hm, -, heq⟩ := d.report_steps page bit level info
  rw [heq]
  by_cases h2 : 2 ≤ level <;> by_cases h3 : level = 3 <;>
    simp [h2, h3, Dev.logEvent, Dev.logChip, Dev.event_mram, hm]

theorem Dev.countIgnored_profiles (d : Dev) (page info flags : Nat) : (d.countIgnored page info flags).mram.profiles = d.mram.profiles := by
  obtain ⟨r, h⟩ := d.countIgnored_steps page info flags
  rw [h, Dev.raise, Dev.report_profiles, Dev.logAccess, Dev.mramPut_mram]
  rfl

theorem Dev.foldl_profiles {α : Type} {f : Dev → α → Dev} (hf : ∀ (d : Dev) (x : α), (f d x).mram.profiles = d.mram.profiles) (l : List α)
    (d : Dev) : (l.foldl f d).mram.profiles = d.mram.profiles := by
  induction l generalizing d with
  | nil => rfl
  | cons x l ih => rw [List.foldl_cons, ih, hf]

theorem Dev.sesIgn_profiles (d : Dev) (n : Nat) : (d.sesIgn n).mram.profiles = d.mram.profiles :=
  Dev.foldl_profiles (fun d _ => Dev.report_profiles d _ _ _ _) _ d

theorem Dev.profiles_sesEvent_arm (d : Dev) (n : Nat) : (d.sesEvent n .arm).mram.profiles = d.mram.profiles := by
  unfold Dev.sesEvent
  split
  case h_1 => rw [Dev.sesIgn_profiles, Dev.countIgnored_profiles]
  case h_2 => rw [Dev.sesIgn_profiles, Dev.count, Dev.wr_mram]
  case h_3 => rfl

theorem Dev.autoArmed_profBytes (d : Dev) (p q ofs n : Nat) : (d.autoArmed p).profBytes q ofs n = d.profBytes q ofs n := by
  rw [Dev.profBytes, Dev.autoArmed, Dev.foldl_profiles Dev.profiles_sesEvent_arm]
  rfl

/-! ## The JTAG port (R527) -/

theorem idcode_resetVal : (resetVal F.mg2Idcode.addr).toNat = 0x16410B47 := by decide +kernel

theorem Dev.tapTakes_shows {d : Dev} {i : TapInstr} (h : i = .pins → d.plat.testEn = true) : (d.tapTakes i).plat = { d.plat with tap := i } ∧
    (i = .idcode → (d.tapTakes i).readVal = 0x16410B47) ∧ (i = .bypass → (d.tapTakes i).readVal = 0) ∧ (d.tapTakes i).regs = d.regs ∧
    d.sameRegions (d.tapTakes i) := by
  cases i with
  | idcode => exact ⟨rfl, fun _ => idcode_resetVal, (fun h => by cases h), rfl, d.sameRegions_refl⟩
  | bypass => exact ⟨rfl, (fun h => by cases h), fun _ => rfl, rfl, d.sameRegions_refl⟩
  | debug => exact ⟨rfl, (fun h => by cases h), (fun h => by cases h), rfl, d.sameRegions_refl⟩
  | pins =>
    have takes : d.tapTakes .pins = d.onPlat fun p => { p with tap := .pins } := by
      simp [Dev.tapTakes, h rfl]
    rw [takes]
    exact ⟨rfl, (fun h => by cases h), (fun h => by cases h), rfl, d.sameRegions_refl⟩

/-- Settles O14: a reset leaves its cause over the reset state, start-up works from the latched straps, and READY arms and spins up what the
profile names. -/
theorem resetCommands : Obligations.ResetCommands := by
  unfold Obligations.ResetCommands
  intro s
  refine ⟨fun confirmed => ⟨_, rfl, ?pin⟩, fun ready hdue => ?soft, fun x ht hb => ?test, fun x ht hb => ?start,
    fun us10 hb hp hr hs => ?safe, fun us10 hb hp hr hprof => ?noProfile, fun us10 p hb hp hr hs hprof => ?profile,
    ⟨_, rfl, rfl⟩, ⟨_, rfl, rfl⟩, fun i h => ⟨_, rfl, Dev.tapTakes_shows h⟩⟩
  case pin =>
    obtain ⟨hmram, hboot, hsafe, htick, hcst, hbpm, hhat, hforce, hshadow, habsent, hunits, -⟩ :=
      s.dev.chipReset_wr confirmed (f := F.pltRstCause_pin) rfl 1
    exact ⟨Dev.flag_one _ _ (by decide) rfl, hmram, hboot, hsafe, htick, hcst, hbpm, hhat, hforce, hshadow, habsent, hunits⟩
  case soft =>
    refine ⟨_, rfl, ?_⟩
    simp only [if_pos hdue]
    obtain ⟨-, hboot, -, htick, hcst, hbpm, -, -, -, -, -, hsoft⟩ :=
      ((s.dev.flashQuiet []).sjQuiet).chipReset_wr [] (f := F.pltRstCause_soft) rfl 1
    exact ⟨Dev.flag_one _ _ (by decide) rfl, hboot, hsoft, htick, hcst, hbpm⟩
  case test =>
    obtain ⟨hplat, -, -, -, hregions⟩ := s.dev.strapsLatch_shows x
    exact completes_startup ((Dev.startUp_eq hb x).trans (if_pos ht)) ⟨rfl, (congrArg Plat.testEn hplat).trans ht, congrArg Plat.tick hplat, congrArg Plat.jdmsel hplat,
      congrArg Plat.refsel hplat, hregions⟩
  case start =>
    obtain ⟨htick, hjdm, href, htest⟩ := s.dev.startWork_time x
    obtain ⟨hboot, hzero, hperst, hj, hr, had8, hregions⟩ := s.dev.starts_shows x
    exact completes_startup ((Dev.startUp_eq hb x).trans (if_neg (by simp [ht]))) ⟨htick, hjdm, href, htest.trans ht, s.dev.starts x,
      hboot, hzero, hperst, hj, hr, had8, hregions, rfl⟩
  case safe =>
    have safe : (s.dev.readyShown us10).plat.safe = true := (congrArg Plat.safe (s.dev.readyShown_shows us10).1).trans hs
    have eq : s.dev.becomesReady us10 = s.dev.readyShown us10 := by
      rw [Dev.becomesReady_eq hb hp hr, safe]
      split <;> rfl
    exact completes_ready eq (s.dev.readyShown_shows us10)
  case noProfile =>
    have eq : s.dev.becomesReady us10 = s.dev.readyShown us10 := by
      rw [Dev.becomesReady_eq hb hp hr, Dev.readyShown_activeProf, hprof]
    exact completes_ready eq (s.dev.readyShown_shows us10)
  case profile =>
    obtain ⟨hplat, hready, hstart, hmram, hregions⟩ := s.dev.readyShown_shows us10
    have awake : (s.dev.readyShown us10).plat.safe = false := by rw [hplat]; exact hs
    have eq : s.dev.becomesReady us10 = ((s.dev.readyShown us10).autoArmed p).spinsNamed p := by
      rw [Dev.becomesReady_eq hb hp hr, Dev.readyShown_activeProf, hprof, awake]
      rfl
    refine completes_ready eq ⟨s.dev.readyShown us10, hplat, hready, hstart, hmram, hregions, ?_⟩
    rw [Dev.spinsNamed, Dev.autoArmed_profBytes]
    rfl

end Sys2Proof.Machine
end

section
/-! Staged sets that take effect: COMMIT_APPLY and make-before-break (R42, R43, R50, R66, R129). -/
namespace Sys2Proof.Machine
open Sys2Proof

/-! ## A boundary's switch (R42, R129) -/

/-- The staged set of a reshape: its fields apply when the new layout serves. -/
def Staged.reshapes (s : Staged) : Bool := match kindAt s.page, s.mbb with
  | some (.parSet, _), .build _ => true
  | _, _ => false

/-- The values in force once the staged sets' are. -/
def Dev.withValues (d : Dev) (ss : List Staged) : Dev :=
  { d with force := ss.foldl (fun f s => if s.reshapes then f else Map.replaceWindow f s.vals s.page (4096 + s.page)) d.force }

/-- A pool, or an owner's pool, would be short under the values of `n` (R129). -/
def Dev.fallsShort (d n : Dev) (page : Nat) : Bool := match kindAt page with
  | some (.bpmPool, p) => d.poolShort n p
  | some (.bpmOwn, o) => d.poolShort n (n.ownerPool o)
  | _ => false

/-- What a staged set sets going; `o` is Fradra before it. -/
def Dev.takesEffect (d o : Dev) (s : Staged) : Dev := match kindAt s.page with
  | some (.parSet, i) => if s.reshapes then d.reshapeSwitch i else d.applied o s.page
  | _ => d.applied o s.page

/-- The staged sets left after the switch at `tick`: what was built waits for its teardown. -/
def stagedLeft (l ss : List Staged) (tick : Nat) : List Staged :=
  if ss.any (fun s => isBuild s.mbb) then
    l.map (fun (x : Staged) => if ss.contains x then { x with mbb := (if isBuild x.mbb then .teardown tick else .switched tick) } else x)
  else l.filter (fun x => !ss.contains x)

/-- The device over staged sets `l`. -/
def Dev.withStaged (d : Dev) (l : List Staged) : Dev := d.onPlat fun p => { p with staged := l }

/-- The target that a staged set missed is reported. -/
def Dev.targetChecked (d : Dev) (s : Staged) (tick : Nat) : Dev :=
  d.when (decide (s.target ≠ 0) && decide (s.target < tick)) (·.raise s.page 30)

/-- A page whose last staged set took effect reads DONE. -/
def Dev.doneShown (d : Dev) (page : Nat) : Dev := if d.plat.staged.any (fun x => x.page == page) then d else d.commitState page 2

theorem Dev.switch_eq (d : Dev) (ss : List Staged) (tick : Nat) : d.switch ss tick =
    let short := ss.filter fun s => d.fallsShort (d.withValues ss) s.page
    let g : Nat := ((ss.head?).map (·.group)).getD 0
    if !short.isEmpty then (short.foldl (fun (d : Dev) s => d.raise s.page 30) (d.unstage ss)).when (decide (g ≠ 0)) (·.groupState g 0)
    else
      let e := ss.foldl (fun (e : Dev) s => (e.takesEffect d s).targetChecked s tick)
        ((d.withValues ss).withStaged (stagedLeft d.plat.staged ss tick))
      if ss.any (fun s => isBuild s.mbb) then e
      else
        let e := ss.foldl (fun (e : Dev) s => e.doneShown s.page) e
        if g = 0 then e else (e.groupState g 2).chipEvent 15 := rfl

/-- The switch of one staged set of no group. -/
theorem Dev.switch_single {d : Dev} {x : Staged} (hg : x.group = 0) (tick : Nat) : d.switch [x] tick =
    if d.fallsShort (d.withValues [x]) x.page then (d.unstage [x]).raise x.page 30
    else
      let e := (((d.withValues [x]).withStaged (stagedLeft d.plat.staged [x] tick)).takesEffect d x).targetChecked x tick
      if isBuild x.mbb then e else e.doneShown x.page := by
  rw [Dev.switch_eq]
  by_cases short : d.fallsShort (d.withValues [x]) x.page = true
  · simp [short, hg, Dev.when]
  · simp [short, hg]

/-- The staged set that stands alone is what a boundary takes up. -/
theorem Dev.commitsDue_single {d : Dev} {x : Staged} {tick b : Nat} {which : Staged → Bool} (hs : d.plat.staged = [x]) (hg : x.group = 0)
    (hm : isSwitched x.mbb = false) (hw : which x = true) (hd : d.dueAt x = some b) (hb : b ≤ tick) :
    d.commitsDue tick which = d.switch [x] tick := by
  simp [Dev.commitsDue, hs, hm, hw, hd, hb, Dev.together, hg]

/-! ## COMMIT_APPLY (R42, R43, R129) -/

theorem Staged.reshapes_single {x : Staged} (h : x.mbb = .single) : x.reshapes = false := by
  unfold Staged.reshapes
  split
  case h_1 hb => cases h.symm.trans hb
  case h_2 => rfl

/-- The device with the values of one staged set in force. -/
def Dev.withWindow (d : Dev) (x : Staged) : Dev := { d with force := Map.replaceWindow d.force x.vals x.page (4096 + x.page) }

theorem Dev.withValues_one {x : Staged} (h : x.reshapes = false) (d : Dev) : d.withValues [x] = d.withWindow x := by
  rw [Dev.withValues, List.foldl_cons, h]
  rfl

theorem Dev.takesEffect_of_not_reshapes {x : Staged} (h : x.reshapes = false) (d o : Dev) : d.takesEffect o x = d.applied o x.page := by
  unfold Dev.takesEffect
  rw [h]
  split <;> rfl

theorem Dev.fallsShort_iff (d n : Dev) (p : Nat) : d.fallsShort n p = true ↔
    (∃ i, kindAt p = some (.bpmPool, i) ∧ d.poolShort n i = true) ∨ ∃ o, kindAt p = some (.bpmOwn, o) ∧ d.poolShort n (n.ownerPool o) = true := by
  unfold Dev.fallsShort
  split
  case h_1 i hk => simp [hk]
  case h_2 o hk => simp [hk]
  case h_3 hpool hown =>
    refine ⟨(fun h => by cases h), fun h => ?_⟩
    obtain ⟨i, hk, -⟩ | ⟨o, hk, -⟩ := h
    · exact absurd hk (hpool i)
    · exact absurd hk (hown o)

theorem completes_commitApply {s : State} {p : Nat} {Q : Dev → Prop} {d : Dev}
    (h : s.dev.commitsDue (s.dev.now + 1) (fun x => x.page == pageOf p) = d) (hq : Q d) : completes (.commitApply p) s Q := by
  subst h
  exact ⟨_, rfl, hq⟩

/-- The one staged set of a page at its boundary. -/
structure Dev.DuePage (d : Dev) (x : Staged) (tick : Nat) : Prop where
  staged : d.plat.staged = [x]
  page : x.page % 4096 = 0
  group : x.group = 0
  single : x.mbb = .single
  due : x.applyAt ≤ tick

section
variable {d : Dev} {x : Staged} {tick : Nat}

theorem Dev.DuePage.switches (h : d.DuePage x tick) : d.commitsDue tick (fun y => y.page == pageOf x.page) =
    if d.fallsShort (d.withWindow x) x.page then (d.unstage [x]).raise x.page 30
    else ((((d.withWindow x).withStaged []).applied d x.page).targetChecked x tick).doneShown x.page := by
  obtain ⟨hs, hp, hg, hm, ht⟩ := h
  have alone : d.together x = [x] := if_pos hg
  have due : d.dueAt x = some (max 0 x.applyAt) := by
    rw [Dev.dueAt_eq_foldl, alone]
    exact Staged.due_single hm 0
  have still : isBuild x.mbb = false := by rw [hm]; rfl
  have left : stagedLeft d.plat.staged [x] tick = [] := by simp [stagedLeft, still, hs]
  have values := Dev.withValues_one (Staged.reshapes_single hm) d
  rw [Dev.commitsDue_single hs hg (by rw [hm]; rfl) (by simp [pageOf_of_mod hp]) due (by omega), Dev.switch_single hg, left, values,
    Dev.takesEffect_of_not_reshapes (Staged.reshapes_single hm)]
  simp only [still, Bool.false_eq_true, if_false]

theorem Dev.DuePage.takesEffect (h : d.DuePage x tick) (hn : d.fallsShort (d.withWindow x) x.page = false) :
    d.commitsDue tick (fun y => y.page == pageOf x.page) =
      ((((d.withWindow x).withStaged []).applied d x.page).targetChecked x tick).doneShown x.page :=
  h.switches.trans (if_neg (by simp [hn]))

theorem Dev.DuePage.abandons (h : d.DuePage x tick) (hn : d.fallsShort (d.withWindow x) x.page = true) :
    d.commitsDue tick (fun y => y.page == pageOf x.page) = ((d.withStaged []).commitState x.page 0).raise x.page 30 := by
  have leaves : d.unstage [x] = (d.withStaged []).commitState x.page 0 := by
    rw [Dev.unstage_single (by simp [h.single]), Dev.stagedBut, h.staged]
    simp [Dev.staging, Dev.commitState, Dev.withStaged, Dev.onPlat, pagesSet]
  rw [h.switches, if_pos hn, leaves]

end

/-- On the pages whose chapters set nothing going, the values in force are all. -/
theorem Dev.applied_still {p : Nat} {k : Kind} {i : Nat} (hk : kindAt p = some (k, i))
    (h : k ≠ .ingStr ∧ k ≠ .bpmPool ∧ k ≠ .bpmOwn ∧ k ≠ .seqMc ∧ k ≠ .parSet ∧ k ≠ .odrWr ∧ k ≠ .srvLoop) (d o : Dev) :
    d.applied o p = d := by
  obtain ⟨ingStr, bpmPool, -, seqMc, parSet, odrWr, srvLoop⟩ := h
  unfold Dev.applied
  rw [hk]
  split
  case h_1 he => cases he; exact absurd rfl ingStr
  case h_2 he => cases he; exact absurd rfl bpmPool
  case h_3 he => cases he; exact absurd rfl seqMc
  case h_4 he => cases he; exact absurd rfl parSet
  case h_5 he => cases he; exact absurd rfl odrWr
  case h_6 he => cases he; exact absurd rfl srvLoop
  case h_7 => rfl

theorem Dev.fallsShort_still {p : Nat} {k : Kind} {i : Nat} (hk : kindAt p = some (k, i)) (hpool : k ≠ .bpmPool) (hown : k ≠ .bpmOwn)
    (d n : Dev) : d.fallsShort n p = false := by
  unfold Dev.fallsShort
  rw [hk]
  split
  case h_1 he => cases he; exact absurd rfl hpool
  case h_2 he => cases he; exact absurd rfl hown
  case h_3 => rfl

theorem Dev.targetChecked_shows (d : Dev) (x : Staged) (tick : Nat) : let e := d.targetChecked x tick
    d.Beside e ∧ e.plat.staged = d.plat.staged ∧ d.sameRegions e ∧ (x.target ≠ 0 ∧ x.target < tick → e.errorShows x.page 30) := by
  unfold Dev.targetChecked Dev.when
  split
  case isTrue =>
    exact ⟨Dev.raise_beside _ _ _ _, (congrArg Plat.staged (Dev.raise_plat d x.page 30 0)).symm, Dev.raise_sameRegions _ _ _ _,
      fun _ => Dev.raise_errorShows _ _ _ (by decide)⟩
  case isFalse h => exact ⟨.refl d, rfl, d.sameRegions_refl, fun ht => absurd (by simp [ht]) h⟩

theorem Dev.doneShown_of_none {d : Dev} {page : Nat} (h : d.plat.staged = []) : d.doneShown page = d.commitState page 2 := by
  rw [Dev.doneShown, h]
  rfl

/-! ## Make-before-break (R50, R66) -/

/-- Frames outside the ring of a stream's new values leave it. -/
def Dev.ringNarrowed (d : Dev) (i : Nat) : Dev := (d.ringFrames i).foldl (fun (x : Dev) f => x.fallsOut i f.pn) d

theorem Dev.applied_ingStr {p i : Nat} (hk : kindAt p = some (.ingStr, i)) (d o : Dev) :
    d.applied o p = (if d.bond i ≠ o.bond i then d.rebond i (o.bond i) else d).ringNarrowed i := by
  unfold Dev.applied
  rw [hk]
  rfl

theorem completes_mbbSwitch {s : State} {p : Nat} {Q : Dev → Prop} {d : Dev}
    (h : s.dev.commitsDue (s.dev.now + 1) (fun x => x.page == pageOf p && isBuild x.mbb) = d) (hq : Q d) : completes (.mbbSwitch p) s Q := by
  subst h
  exact ⟨_, rfl, hq⟩

theorem completes_mbbBuildComplete {s : State} {p ns : Nat} {Q : Dev → Prop} {d : Dev} (h : s.dev.buildComplete (pageOf p) ns = d) (hq : Q d) :
    completes (.mbbBuildComplete p ns) s Q := by
  subst h
  exact ⟨_, rfl, hq⟩

theorem completes_mbbBuildFail {s : State} {p : Nat} {Q : Dev → Prop} {d : Dev} (h : s.dev.buildFails (pageOf p) (pageOf p) = d) (hq : Q d) :
    completes (.mbbBuildFail p) s Q := by
  subst h
  exact ⟨_, rfl, hq⟩

theorem completes_mbbTeardownDone {s : State} {p : Nat} {Q : Dev → Prop} {d : Dev} (h : s.dev.teardownDone (pageOf p) s.dev.now = d) (hq : Q d) :
    completes (.mbbTeardownDone p) s Q := by
  subst h
  exact ⟨_, rfl, hq⟩

/-- The page of the one staged set is a stream's. -/
structure Dev.Rebonds (d : Dev) (x : Staged) (i : Nat) : Prop where
  page : x.page % 4096 = 0
  kind : kindAt x.page = some (.ingStr, i)
  staged : d.plat.staged = [x]
  group : x.group = 0

theorem Staged.due_built {x : Staged} {t u : Nat} (h : x.mbb = .build (some (t, u))) (b : Nat) :
    Staged.due (some b) x = some (max (max b x.applyAt) (t + if 2400 ≤ u then 2 else 1)) := by
  unfold Staged.due
  rw [h]
  simp only [inGuard, decide_eq_true_eq]

section
variable {d : Dev} {x : Staged} {i : Nat}

theorem Dev.Rebonds.not_reshapes (h : d.Rebonds x i) : x.reshapes = false := by
  rw [Staged.reshapes, h.kind]

theorem Dev.Rebonds.buildComplete (h : d.Rebonds x i) (hm : x.mbb = .build none) (hb : d.built x.page = true) (ns : Nat) :
    d.buildComplete x.page ns = d.withStaged [{ x with mbb := .build (some (d.now, ns)) }] := by
  simp [Dev.buildComplete, hb, Dev.withStaged, Dev.onPlat, h.staged, hm]

theorem Dev.Rebonds.switches (h : d.Rebonds x i) {t u tick : Nat} (hm : x.mbb = .build (some (t, u)))
    (ht : max x.applyAt (t + if 2400 ≤ u then 2 else 1) ≤ tick) (htarget : x.target = 0) :
    d.commitsDue tick (fun y => y.page == pageOf x.page && isBuild y.mbb) =
      ((d.withWindow x).withStaged [{ x with mbb := .teardown tick }]).applied d x.page := by
  have builds : isBuild x.mbb = true := by rw [hm]; rfl
  have due : d.dueAt x = some (max (max 0 x.applyAt) (t + if 2400 ≤ u then 2 else 1)) := by
    rw [Dev.dueAt_eq_foldl, Dev.together, if_pos h.group, List.foldl_cons, List.foldl_nil, Staged.due_built hm]
  have left : stagedLeft d.plat.staged [x] tick = [{ x with mbb := .teardown tick }] := by simp [stagedLeft, builds, h.staged]
  have enough : d.fallsShort (d.withWindow x) x.page = false := Dev.fallsShort_still h.kind (by decide) (by decide) _ _
  rw [Dev.commitsDue_single h.staged h.group (by rw [hm]; rfl) (by simp [pageOf_of_mod h.page, builds]) due (by omega),
    Dev.switch_single h.group, left, Dev.withValues_one h.not_reshapes, enough, Dev.takesEffect_of_not_reshapes h.not_reshapes]
  simp [builds, Dev.targetChecked, htarget, Dev.when]

theorem Dev.Rebonds.buildFails (h : d.Rebonds x i) {b : Option (Nat × Nat)} (hm : x.mbb = .build b) :
    d.buildFails x.page x.page = (d.unstage [x]).raise x.page 30 := by
  simp [Dev.buildFails, h.staged, hm, isBuild, Dev.together, h.group, Dev.when]

theorem Dev.Rebonds.teardownDone (h : d.Rebonds x i) {t : Nat} (hm : x.mbb = .teardown t)
    (ht : (d.stream i).oldBond = none ∨ t + 4 ≤ d.now) :
    d.teardownDone x.page d.now = ((d.withStaged []).commitState x.page 2).oldBondGoes i := by
  have may : d.mayRelease x d.now = true := by simpa [Dev.mayRelease, hm, h.kind] using ht
  simp [Dev.teardownDone, h.staged, hm, isTeardown, Dev.together, h.group, may, h.kind, Dev.withStaged, Dev.onPlat]

end

/-- Settles O10: a boundary takes up the staged set whose time has come, and what its page's chapter sets going comes with it. -/
theorem commitsTakeEffect : Obligations.CommitsTakeEffect := by
  unfold Obligations.CommitsTakeEffect
  refine ⟨fun s p target at_ since vals k i hp hk hkinds hs ht => ?still, fun s p target at_ since vals hp hs ht => ?pools,
    fun s p ns i x hp hk hs hx hg => ?mbb⟩
  case still =>
    let x : Staged := ⟨p, 0, target, at_, since, vals, .single⟩
    have applies := (Dev.DuePage.mk (x := x) hs hp rfl rfl ht).takesEffect (Dev.fallsShort_still hk hkinds.2.1 hkinds.2.2.1 _ _)
    obtain ⟨beside, staged, regions, missed⟩ := ((s.dev.withWindow x).withStaged []).targetChecked_shows x (s.dev.now + 1)
    rw [Dev.applied_still hk hkinds, Dev.doneShown_of_none staged] at applies
    have done := Map.get_set_same 0 (((s.dev.withWindow x).withStaged []).targetChecked x (s.dev.now + 1)).plat.commitSt p 2
    exact completes_commitApply applies ⟨beside.force, staged, done, beside.shadow, missed, regions⟩
  case pools =>
    have due : s.dev.DuePage ⟨p, 0, target, at_, since, vals, .single⟩ (s.dev.now + 1) := ⟨hs, hp, rfl, rfl, ht⟩
    refine ⟨fun hn => ?_, fun hn => ?_⟩
    · have enough := Bool.eq_false_iff.mpr (mt (Dev.fallsShort_iff _ _ _).mp hn)
      exact completes_commitApply (due.takesEffect enough) ⟨_, rfl, rfl⟩
    · exact completes_commitApply (due.abandons ((Dev.fallsShort_iff _ _ _).mpr hn)) ⟨Dev.raise_errorShows _ _ _ (by decide), _, rfl, rfl⟩
  case mbb =>
    subst hx
    have rebonds : s.dev.Rebonds x i := ⟨hp, hk, hs, hg⟩
    have page := pageOf_of_mod hp
    refine ⟨fun hm hb => ?complete, fun t u hm ht htarget => ?switch, fun b hm => ?fail, fun t hm ht => ?teardown⟩
    case complete => exact completes_mbbBuildComplete (page.symm ▸ rebonds.buildComplete hm hb ns) rfl
    case switch =>
      have switched := rebonds.switches hm ht htarget
      rw [Dev.applied_ingStr hk] at switched
      exact completes_mbbSwitch switched ⟨(s.dev.withWindow x).withStaged [{ x with mbb := .teardown (s.dev.now + 1) }], rfl, rfl,
        s.dev.sameRegions_refl, _, rfl, rfl⟩
    case fail => exact completes_mbbBuildFail (page.symm ▸ rebonds.buildFails hm) ⟨rfl, Dev.raise_errorShows _ _ _ (by decide)⟩
    case teardown => exact completes_mbbTeardownDone (page.symm ▸ rebonds.teardownDone hm ht) ⟨_, rfl, rfl⟩

end Sys2Proof.Machine
end

section
/-! Firmware commits and their activation (R55, R482). -/
namespace Sys2Proof.Machine
open Sys2Proof

/-! ## What leaves PLT_FW_REG, PLT_FW_LAST and the activation alone -/

/-- PLT_FW_REG, PLT_FW_LAST and the activation in progress stand in `e` as in `d`. -/
structure Dev.SameFirmware (d e : Dev) : Prop where
  rd : ∀ f : RegField, 0x5100 ≤ f.addr → f.addr ≤ 0x5140 → e.rd f = d.rd f
  activation : e.plat.activation = d.plat.activation

namespace Dev.SameFirmware

theorem refl (d : Dev) : d.SameFirmware d := ⟨fun _ _ _ => rfl, rfl⟩

theorem trans {a b c : Dev} (h : a.SameFirmware b) (k : b.SameFirmware c) : a.SameFirmware c :=
  ⟨fun f hlo hhi => (k.rd f hlo hhi).trans (h.rd f hlo hhi), k.activation.trans h.activation⟩

/-- Where neither the registers nor the values in force are written. -/
theorem unwritten {d e : Dev} (hr : e.regs = d.regs) (hf : e.force = d.force) (ha : e.plat.activation = d.plat.activation) : d.SameFirmware e :=
  ⟨fun f _ _ => by rw [Dev.rd, Dev.rd, Dev.forced, Dev.forced, Dev.raw, Dev.raw, hr, hf], ha⟩

theorem wr {g : RegField} (h : 0x5140 < g.addr) (d : Dev) (v : Nat) : d.SameFirmware (d.wr g v) :=
  ⟨fun f _ hhi => Dev.rd_wr_other _ _ _ _ (by omega), by rw [Dev.wr_plat]⟩

theorem report (d : Dev) (page bit level info : Nat) : d.SameFirmware (d.report page bit level info) :=
  ⟨fun f hlo hhi => Dev.rd_report (by simp only [RegField.steady]; omega) _ _ _ _,
    (congrArg Plat.activation (Dev.report_plat d page bit level info)).symm⟩

theorem raise (d : Dev) (page bit info : Nat) : d.SameFirmware (d.raise page bit info) := report d _ _ _ _

theorem chipEvent (d : Dev) (e : Nat) : d.SameFirmware (d.chipEvent e) :=
  ⟨fun f hlo hhi => Dev.rd_chipEvent (by simp only [RegField.steady]; omega) _, (congrArg Plat.activation (d.chipEvent_plat e)).symm⟩

theorem mramPut (d : Dev) (n : Nat) (g : Mram → Mram) : d.SameFirmware (d.mramPut n g) :=
  ⟨fun f hlo hhi => Dev.rd_mramPut (by simp only [RegField.steady]; omega) _ _, by rw [Dev.mramPut_plat]⟩

/-- A field of PLT_FW_REG. -/
theorem region {d e : Dev} (h : d.SameFirmware e) {f : RegField} {r : Nat} (hr : r < 12) (hf : f.addr = 0x5100 + 4 * r) : e.rd f = d.rd f :=
  h.rd f (by omega) (by omega)

theorem when {f : Dev → Dev} (hf : ∀ d : Dev, d.SameFirmware (f d)) (d : Dev) (c : Bool) : d.SameFirmware (d.when c f) := by
  unfold Dev.when
  split
  · exact hf d
  · exact refl d

theorem foldl {α : Type} {f : Dev → α → Dev} (hf : ∀ (d : Dev) (x : α), d.SameFirmware (f d x)) (l : List α) (d : Dev) :
    d.SameFirmware (l.foldl f d) := by
  induction l generalizing d with
  | nil => exact refl d
  | cons x l ih => exact (hf d x).trans (ih _)

theorem count {g : RegField} (h : 0x5140 < g.addr) (d : Dev) : d.SameFirmware (d.count g) := wr h d _

theorem fence1 (d : Dev) (u : Nat) (err : Option (Nat × Nat)) : d.SameFirmware (d.fence1 u err) := by
  unfold Dev.fence1
  extract_lets u off owners within fenced revoked
  split
  · exact refl d
  · have begun : d.SameFirmware revoked := unwritten rfl rfl rfl
    refine begun.trans (foldl (fun _ _ => ?_) _ _)
    exact unwritten rfl rfl rfl

theorem fence (d : Dev) (u : Nat) (err : Option (Nat × Nat)) : d.SameFirmware (d.fence u err) := by
  unfold Dev.fence
  split
  · exact (fence1 d u err).trans (fence1 _ _ _)
  · exact fence1 d u err

theorem onSrv (d : Dev) (f : Srv → Srv) : d.SameFirmware (d.onSrv f) := unwritten rfl rfl rfl

theorem onEng (d : Dev) (e : Nat) (f : Eng → Eng) : d.SameFirmware (d.onEng e f) := by
  unfold Dev.onEng
  exact ((onSrv d _).trans (wr (by simp only [F.srvEngRed_state]; omega) _ _)).trans (wr (by simp only [F.srvEngRed_role]; omega) _ _)

theorem engsSwitch (d : Dev) : d.SameFirmware d.engsSwitch := by
  refine foldl (fun d e => ?_) _ d
  split
  · exact onEng d e _
  · exact refl d

theorem fwDone (d : Dev) (slot regions : Nat) (boot lock : Bool) : d.SameFirmware (d.fwDone slot regions boot lock) :=
  (when (fun d => mramPut d 2 _) d boot).trans (when (fun d => mramPut d 2 _) _ lock)

end Dev.SameFirmware

/-! ### HOLDING: items and Sprouts that stop (R491) -/

namespace Dev.SameFirmware

theorem showCal (d : Dev) (item : Nat) : d.SameFirmware (d.showCal item) :=
  (((wr (by simp only [F.calRecStat_state]; omega) d _).trans (wr (by simp only [F.calRecStat_taps]; omega) _ _)).trans
    (wr (by decide) _ _)).trans (wr (by decide) _ _)

theorem calOutcome (d : Dev) (item outcome cause : Nat) : d.SameFirmware (d.calOutcome item outcome cause) :=
  ((wr (by simp only [F.calRecStat_outcome]; omega) d _).trans (wr (by simp only [F.calRecStat_cause]; omega) _ _)).trans (showCal _ _)

theorem calStops (d : Dev) (item outcome cause : Nat) : d.SameFirmware (d.calStops item outcome cause) := by
  unfold Dev.calStops
  extract_lets unqueued dropped ended reported blamed
  have hd : d.SameFirmware dropped := unwritten rfl rfl rfl
  have h : d.SameFirmware ended := hd.trans (calOutcome _ _ _ _)
  have hr : ended.SameFirmware reported := by
    unfold reported
    split
    · exact (raise ended _ _ _).trans (count (by decide) _)
    · exact (raise ended _ _ _).trans (count (by decide) _)
  exact ((h.trans hr).trans (when (fun d => raise d _ _ _) reported _)).trans (when (fun d => raise d _ _ _) blamed _)

theorem logRed (d : Dev) (ty n engIn engOut loops digA digB : Nat) : d.SameFirmware (d.logRed ty n engIn engOut loops digA digB) :=
  mramPut d 4 _

theorem showRed (d : Dev) (n : Nat) : d.SameFirmware (d.showRed n) := by
  unfold Dev.showRed
  extract_lets was m name named shown counted v bare noted bared lone
  have h : d.SameFirmware shown := (((wr (by simp only [F.srvRedStat_a]; omega) d _).trans (wr (by simp only [F.srvRedStat_b]; omega) _ _)).trans
    (wr (by simp only [F.srvRedStat_seed]; omega) _ _)).trans (wr (by simp only [F.srvRedStat_mode]; omega) named m)
  have hc : shown.SameFirmware counted := when (count (by simp only [F.srvRedCnt]; omega)) shown _
  have hn : counted.SameFirmware noted := onSrv counted _
  have hb : noted.SameFirmware bared := when (fun d => raise d _ _ _) noted _
  have hl : bared.SameFirmware lone := when (fun d => (logRed d _ _ _ _ _ _ _).trans (raise _ _ _ _)) bared _
  exact ((((h.trans hc).trans hn).trans hb).trans hl).trans
    (when (fun d => ((logRed d _ _ _ _ _ _ _).trans (raise _ _ _ _)).trans (fence _ _ _)) lone _)

theorem sproutAbort (d : Dev) (n st : Nat) : d.SameFirmware (d.sproutAbort n st) := by
  unfold Dev.sproutAbort
  split
  case h_1 => exact refl d
  case h_2 e out_ _ =>
    extract_lets ended idle
    have h : d.SameFirmware ended := (onSrv d _).trans (wr (by simp only [F.srvRedStat_sprout]; omega) _ 0)
    have hi : ended.SameFirmware idle := (onEng ended e _).trans (count (by simp only [F.srvRedCnt]; omega) _)
    exact ((h.trans hi).trans (logRed idle _ _ _ _ _ _ _)).trans (showRed _ _)

theorem sproutsHold (d : Dev) : d.SameFirmware d.sproutsHold := by
  refine foldl (fun d n => ?_) _ d
  unfold Dev.sproutShadowEnds
  split
  case h_1 s _ _ =>
    split
    · exact sproutAbort d n 0
    · exact refl d
  case h_2 => exact refl d

end Dev.SameFirmware

/-! ## Fields of the named regions -/

theorem mem_regionsOf {mask r : Nat} : r ∈ regionsOf mask ↔ r < 12 ∧ mask.testBit r = true := by
  simp [regionsOf]

/-- A field of each region named takes the region's value. -/
def Dev.fieldsTake (d : Dev) (l : List Nat) (f : Nat → RegField) (v : Nat → Nat) : Dev := l.foldl (fun (d : Dev) r => d.wr (f r) (v r)) d

theorem Dev.fwEach_eq (d : Dev) (mask : Nat) (f : Nat → RegField) (v : Nat) : d.fwEach mask f v = d.fieldsTake (regionsOf mask) f fun _ => v := rfl

/-- A family of fields, one to a register. -/
structure Apart (f : Nat → RegField) : Prop where
  ok : ∀ r, (f r).ok
  addr : ∀ r k, r ≠ k → (f r).addr ≠ (f k).addr

theorem Dev.fieldsTake_plat (d : Dev) (l : List Nat) (f : Nat → RegField) (v : Nat → Nat) : (d.fieldsTake l f v).plat = d.plat := by
  induction l generalizing d with
  | nil => rfl
  | cons k l ih => exact (ih _).trans (Dev.wr_plat _ _ _)

theorem Dev.fieldsTake_mram (d : Dev) (l : List Nat) (f : Nat → RegField) (v : Nat → Nat) : (d.fieldsTake l f v).mram = d.mram := by
  induction l generalizing d with
  | nil => rfl
  | cons k l ih => exact (ih _).trans (Dev.wr_mram _ _ _)

theorem Dev.rd_fieldsTake_beside {f : Nat → RegField} {g : RegField} (h : ∀ r, (f r).ok ∧ g.ok ∧ (g.hi < (f r).lo ∨ (f r).hi < g.lo)) (d : Dev)
    (l : List Nat) (v : Nat → Nat) : (d.fieldsTake l f v).rd g = d.rd g := by
  induction l generalizing d with
  | nil => rfl
  | cons k l ih =>
    obtain ⟨hf, hg, apart⟩ := h k
    exact (ih _).trans (Dev.rd_wr_beside _ _ _ _ hf hg apart)

theorem Dev.rd_fieldsTake_unnamed {f : Nat → RegField} (hf : Apart f) (d : Dev) {l : List Nat} {r : Nat} (h : r ∉ l) (v : Nat → Nat) :
    (d.fieldsTake l f v).rd (f r) = d.rd (f r) := by
  induction l generalizing d with
  | nil => rfl
  | cons k l ih =>
    obtain ⟨hk, hl⟩ := not_or.mp (mt List.mem_cons.mpr h)
    exact (ih _ hl).trans (Dev.rd_wr_other _ _ _ _ (hf.addr _ _ hk))

theorem Dev.rd_fieldsTake {f : Nat → RegField} (hf : Apart f) (d : Dev) {l : List Nat} {r : Nat} (h : r ∈ l) (v : Nat → Nat) :
    (d.fieldsTake l f v).rd (f r) = v r % 2 ^ ((f r).hi + 1 - (f r).lo) := by
  induction l generalizing d with
  | nil => cases h
  | cons k l ih =>
    by_cases hl : r ∈ l
    · exact ih _ hl
    · obtain rfl : r = k := (List.mem_cons.mp h).resolve_right hl
      exact (Dev.rd_fieldsTake_unnamed hf _ hl v).trans (Dev.rd_wr_same _ _ (hf.ok _) _)

theorem apart_staged : Apart F.pltFwReg_staged := ⟨fun r => by simp [RegField.ok, F.pltFwReg_staged], fun r k h => by
  simp only [F.pltFwReg_staged]; omega⟩
theorem apart_active : Apart F.pltFwReg_active := ⟨fun r => by simp [RegField.ok, F.pltFwReg_active], fun r k h => by
  simp only [F.pltFwReg_active]; omega⟩
theorem apart_state : Apart F.pltFwReg_state := ⟨fun r => by simp [RegField.ok, F.pltFwReg_state], fun r k h => by
  simp only [F.pltFwReg_state]; omega⟩
theorem apart_version : Apart F.pltFwReg_version := ⟨fun r => by simp [RegField.ok, F.pltFwReg_version], fun r k h => by
  simp only [F.pltFwReg_version]; omega⟩

/-! ## The check of FW_COMMIT (R482) -/

/-- A fault injected on the MRAM is taken up and counted. -/
def Dev.faultTaken (d : Dev) : Dev :=
  (d.when (d.injected Pg.pltMram Er.pltMram_mramUe) (·.count (F.pltMramCnt 1))).takeInjected Pg.pltMram Er.pltMram_mramUe

/-- The check of `c` has ended, with `ok` where it passed. -/
def Dev.checkEnds (d : Dev) (c : Cmd) (ok : Bool) : Dev :=
  (d.faultTaken.setChecked c.fwSlot ok).onCmd c.arrival fun x => { x with phase := 2 }

theorem Dev.faultTaken_shows (d : Dev) : d.faultTaken.mram = d.mram ∧ d.faultTaken.plat.activation = d.plat.activation ∧
    d.faultTaken.plat.tick = d.plat.tick ∧ ∀ f : RegField, f.addr ≠ (F.pltMramCnt 1).addr → d.faultTaken.rd f = d.rd f := by
  unfold Dev.faultTaken Dev.when
  split
  · have hp : (d.count (F.pltMramCnt 1)).plat = d.plat := Dev.wr_plat _ _ _
    exact ⟨Dev.wr_mram _ _ _, (congrArg Plat.activation hp :), (congrArg Plat.tick hp :), fun f h => Dev.rd_wr_other d _ _ _ h⟩
  · exact ⟨rfl, rfl, rfl, fun _ _ => rfl⟩

theorem Dev.checkEnds_shows (d : Dev) (c : Cmd) (ok : Bool) : let m := d.checkEnds c ok
    m.mram = { d.mram with checked := d.mram.checked.set c.fwSlot ok } ∧ m.plat.activation = d.plat.activation ∧ m.now = d.now ∧
      ∀ f : RegField, f.addr ≠ (F.pltMramCnt 1).addr → m.rd f = d.rd f := by
  obtain ⟨hm, ha, ht, hr⟩ := d.faultTaken_shows
  exact ⟨congrArg (fun m : Mram => { m with checked := m.checked.set c.fwSlot ok }) hm, ha, congrArg BitVec.toNat ht, hr⟩

theorem Dev.checkEnds_fwLast (d : Dev) (c : Cmd) (ok : Bool) : (d.checkEnds c ok).fwLast = d.fwLast := by
  obtain ⟨-, -, -, hr⟩ := d.checkEnds_shows c ok
  rw [Dev.fwLast, Dev.fwLast, hr _ (by decide), hr _ (by decide)]

theorem Dev.fwChecked_eq (d : Dev) (c : Cmd) : d.fwChecked c =
    let m := d.checkEnds c (d.fwCheck c.fwSlot c.fwRegs c.fwAction).isNone
    match d.fwCheck c.fwSlot c.fwRegs c.fwAction with
    | some st => c.endsAt m st
    | none =>
      if c.fwRegs = 0 ∨ c.fwAction = 0 then m.cmdEnds c.arrival 0 m.fwLast 0 0
      else if c.fwAction.testBit 0 then
        ((m.fwEach c.fwRegs F.pltFwReg_staged c.fwSlot).fwEach c.fwRegs F.pltFwReg_state 1).onPlat fun p => { p with
          activation := some ⟨c.fwRegs, c.fwSlot, c.fwAction.testBit 1, c.fwAction.testBit 2,
            ((m.fwEach c.fwRegs F.pltFwReg_staged c.fwSlot).fwEach c.fwRegs F.pltFwReg_state 1).now, none, none, c.arrival⟩ }
      else (m.fwDone c.fwSlot c.fwRegs (c.fwAction.testBit 1) (c.fwAction.testBit 2)).cmdEnds c.arrival 0 m.fwLast 0 0 := rfl

/-- What BOOT and LOCK_SVN leave. -/
theorem Dev.fwDone_mram (d : Dev) (slot regions : Nat) (boot lock : Bool) : (d.fwDone slot regions boot lock).mram = { d.mram with
    bootSlot := if boot then (List.range 12).map (fun r => if regions.testBit r then slot else d.mram.bootSlot.getD r 0) else d.mram.bootSlot
    svnFloor := if lock then max d.mram.svnFloor (d.fwSvn slot) else d.mram.svnFloor } := by
  cases boot <;> cases lock <;> simp [Dev.fwDone, Dev.when, Dev.fwBoot, Dev.fwLock, Dev.fwSvn, Dev.fwNat, Dev.fwBytes]

theorem fwCommitCheckEnd_completes {s : State} {cid : Nat} {c : Cmd} {Q : Dev → Prop} {e : Dev} (hc : s.dev.cmdOf 0 cid = some c)
    (hop : c.op = 0x86) (hs : c.started = true) (hp : c.phase = 1) (hv : c.verdict = none) (he : s.dev.fwChecked c = e) (hq : Q e.hatPump) :
    completes (.fwCommitCheckEnd cid) s Q := by
  refine ⟨_, rfl, ?_⟩
  simpa only [hc, hop, hs, hp, hv, Option.isNone_none, and_self, if_true, he] using hq

/-! ## The steps of an activation (R55) -/

theorem completes_fwImageLoaded {s : State} {Q : Dev → Prop} {d : Dev} (h : s.dev.fwLoaded = d) (hq : Q d) : completes .fwImageLoaded s Q := by
  subst h
  exact ⟨_, rfl, hq⟩

theorem completes_fwQuiesceReached {s : State} {Q : Dev → Prop} {d : Dev} (h : s.dev.fwQuiesced = d) (hq : Q d) :
    completes .fwQuiesceReached s Q := by
  subst h
  exact ⟨_, rfl, hq⟩

theorem completes_fwActivationAbandon {s : State} {Q : Dev → Prop} {d : Dev} (h : s.dev.fwAbandon = d) (hq : Q d) :
    completes .fwActivationAbandon s Q := by
  subst h
  exact ⟨_, rfl, hq⟩

/-- The regions named take slot and state. -/
theorem Dev.regionsStaged_shows (d : Dev) (mask : Nat) {slot : Nat} (h : slot < 4) :
    let n := (d.fwEach mask F.pltFwReg_staged slot).fwEach mask F.pltFwReg_state 1
    (∀ r, r < 12 ∧ mask.testBit r = true → n.rd (F.pltFwReg_staged r) = slot ∧ n.rd (F.pltFwReg_state r) = 1) ∧
      (∀ r, n.rd (F.pltFwReg_active r) = d.rd (F.pltFwReg_active r)) ∧ n.plat = d.plat := by
  refine ⟨fun r hr => ⟨?staged, ?state⟩, fun r => ?active, (Dev.fieldsTake_plat _ _ _ _).trans (Dev.fieldsTake_plat _ _ _ _)⟩
  case staged =>
    rw [Dev.fwEach_eq, Dev.rd_fieldsTake_beside (fun k => ⟨apart_state.ok k, apart_staged.ok r, by simp [F.pltFwReg_state, F.pltFwReg_staged]⟩),
      Dev.fwEach_eq, Dev.rd_fieldsTake apart_staged _ (mem_regionsOf.mpr hr)]
    exact Nat.mod_eq_of_lt h
  case state =>
    rw [Dev.fwEach_eq, Dev.rd_fieldsTake apart_state _ (mem_regionsOf.mpr hr)]
    rfl
  case active =>
    rw [Dev.fwEach_eq, Dev.rd_fieldsTake_beside (fun k => ⟨apart_state.ok k, apart_active.ok r, by simp [F.pltFwReg_state, F.pltFwReg_active]⟩),
      Dev.fwEach_eq, Dev.rd_fieldsTake_beside (fun k => ⟨apart_staged.ok k, apart_active.ok r, by simp [F.pltFwReg_staged, F.pltFwReg_active]⟩)]

/-- The image has loaded: the activation holds, and what stops at HOLDING follows. -/
def Dev.imageHeld (d : Dev) (a : Activation) : Dev :=
  (d.onPlat fun p => { p with activation := some { a with th := some d.now } }).fwEach a.regions F.pltFwReg_state 2

/-- The calibration items of the regions `mask` stop. -/
def Dev.itemsStop (d : Dev) (mask : Nat) : Dev :=
  (d.cal.running.filter fun r => mask.testBit 11 || ((mask.testBit 8 || mask.testBit 9) && (calDrive r.item).isSome)).foldl
    (fun (d : Dev) r => d.calStops r.item 3 10) d

/-- What stops when the regions `mask` reach HOLDING: items, and Sprouts in SHADOW. -/
def Dev.holdingWork (d : Dev) (mask : Nat) : Dev := (d.itemsStop mask).when (mask.testBit 9) (·.sproutsHold)

theorem Dev.holdingWork_sameFirmware (d : Dev) (mask : Nat) : d.SameFirmware (d.holdingWork mask) := by
  have items : d.SameFirmware (d.itemsStop mask) := by
    unfold Dev.itemsStop
    refine Dev.SameFirmware.foldl (fun d r => ?_) _ d
    exact Dev.SameFirmware.calStops d r.item 3 10
  exact items.trans (Dev.SameFirmware.when Dev.SameFirmware.sproutsHold _ _)

theorem Dev.imageHeld_shows (d : Dev) (a : Activation) : (d.imageHeld a).plat.activation = some { a with th := some d.now } ∧
    ∀ r, r < 12 ∧ a.regions.testBit r = true → (d.imageHeld a).rd (F.pltFwReg_state r) = 2 := by
  refine ⟨(congrArg Plat.activation (Dev.fieldsTake_plat _ _ _ _) :), fun r hr => ?_⟩
  rw [Dev.imageHeld, Dev.fwEach_eq, Dev.rd_fieldsTake apart_state _ (mem_regionsOf.mpr hr)]
  rfl

section
variable {d : Dev} {a : Activation}

theorem Dev.fwLoaded_eq (ha : d.plat.activation = some a) :
    d.fwLoaded = if a.th.isSome ∨ a.ta + 120 < d.now then d else (d.imageHeld a).holdingWork a.regions := by
  simp only [Dev.fwLoaded, ha]
  rfl

theorem Dev.fwQuiesced_eq {th : Nat} (ha : d.plat.activation = some a) (ht : a.th = some th) : d.fwQuiesced =
    if a.quiet.isSome ∨ th + 80 < d.now + 1 ∨ a.ta + 200 < d.now + 1 ∨ !d.fwQuiet a.regions then d
    else d.onPlat fun p => { p with activation := some { a with quiet := some d.now } } := by
  simp only [Dev.fwQuiesced, ha, ht]

theorem Dev.fwQuiesced_loading (ha : d.plat.activation = some a) (ht : a.th = none) : d.fwQuiesced = d := by
  simp only [Dev.fwQuiesced, ha, ht]

theorem Dev.fwSwitch_waits (ha : d.plat.activation = some a) (h : a.th = none ∨ a.quiet = none) : d.fwSwitch = d := by
  unfold Dev.fwSwitch
  rw [ha]
  obtain ht | hq := h
  · simp only [ht]
  · cases ht : a.th <;> simp only [hq, ht]

/-- The activation is over. -/
def Dev.notActivating (d : Dev) : Dev := d.onPlat fun p => { p with activation := none }

/-- The regions switch to the image of slot `slot`. -/
def Dev.regionsSwitch (d : Dev) (mask slot : Nat) : Dev :=
  ((d.fwEach mask F.pltFwReg_active slot).fwEach mask F.pltFwReg_state 0).fieldsTake (regionsOf mask) F.pltFwReg_version (d.fwVersion slot)

/-- What PLT_FW_LAST and the actions of the commit show after the switch. -/
def Dev.switchShown (d : Dev) (a : Activation) (th : Nat) (now : Nat) : Dev :=
  (((d.wr F.pltFwLast_hold (now - th)).wr F.pltFwLast_total (now - a.ta)).fwDone a.slot a.regions a.boot a.lockSvn).chipEvent 15

theorem Dev.fwVersion_congr {e : Dev} (h : e.mram = d.mram) (slot r : Nat) : e.fwVersion slot r = d.fwVersion slot r := by
  rw [Dev.fwVersion, Dev.fwVersion, Dev.fwNat, Dev.fwNat, Dev.fwBytes, Dev.fwBytes, h]

/-- The versions are those of the images as the switch finds them. -/
theorem Dev.versions_foldl {e : Dev} (h : e.mram = d.mram) (l : List Nat) (slot : Nat) :
    l.foldl (fun (e : Dev) r => e.wr (F.pltFwReg_version r) (e.fwVersion slot r)) e =
      e.fieldsTake l F.pltFwReg_version (d.fwVersion slot) := by
  unfold Dev.fieldsTake
  induction l generalizing e with
  | nil => rw [List.foldl_nil, List.foldl_nil]
  | cons r l ih => rw [List.foldl_cons, List.foldl_cons, Dev.fwVersion_congr h, ih ((Dev.wr_mram _ _ _).trans h)]

theorem Dev.fwSwitch_eq {th t : Nat} (ha : d.plat.activation = some a) (ht : a.th = some th) (hq : a.quiet = some t) :
    let m := ((d.notActivating.regionsSwitch a.regions a.slot).when (a.regions.testBit 9) (·.engsSwitch)).switchShown a th d.now
    d.fwSwitch = (m.cmdEnds a.arrival 0 m.fwLast 0 0).hatPump := by
  unfold Dev.fwSwitch Dev.regionsSwitch
  simp only [ha, ht, hq]
  rw [Dev.versions_foldl (d := d.notActivating)]
  · rfl
  · exact (Dev.fieldsTake_mram _ _ _ _).trans (Dev.fieldsTake_mram _ _ _ _)

end

/-- The fields that a switch writes. -/
theorem Dev.regionsSwitch_shows (d : Dev) (mask : Nat) {slot : Nat} (h : slot < 4) : let e := d.regionsSwitch mask slot
    e.plat = d.plat ∧ ∀ r, r < 12 ∧ mask.testBit r = true → e.rd (F.pltFwReg_active r) = slot ∧ e.rd (F.pltFwReg_state r) = 0 ∧
      e.rd (F.pltFwReg_version r) = d.fwVersion slot r % 65536 := by
  refine ⟨(Dev.fieldsTake_plat _ _ _ _).trans ((Dev.fieldsTake_plat _ _ _ _).trans (Dev.fieldsTake_plat _ _ _ _)), fun r hr => ⟨?active, ?state, ?version⟩⟩
  case active =>
    rw [Dev.regionsSwitch,
      Dev.rd_fieldsTake_beside (fun k => ⟨apart_version.ok k, apart_active.ok r, by simp [F.pltFwReg_version, F.pltFwReg_active]⟩), Dev.fwEach_eq,
      Dev.rd_fieldsTake_beside (fun k => ⟨apart_state.ok k, apart_active.ok r, by simp [F.pltFwReg_state, F.pltFwReg_active]⟩), Dev.fwEach_eq,
      Dev.rd_fieldsTake apart_active _ (mem_regionsOf.mpr hr)]
    exact Nat.mod_eq_of_lt h
  case state =>
    rw [Dev.regionsSwitch,
      Dev.rd_fieldsTake_beside (fun k => ⟨apart_version.ok k, apart_state.ok r, by simp [F.pltFwReg_version, F.pltFwReg_state]⟩), Dev.fwEach_eq,
      Dev.rd_fieldsTake apart_state _ (mem_regionsOf.mpr hr), Nat.zero_mod]
  case version => exact Dev.rd_fieldsTake apart_version _ (mem_regionsOf.mpr hr) _

theorem Dev.switchShown_shows (d : Dev) (a : Activation) (th now : Nat) : let m := d.switchShown a th now
    m.plat.activation = d.plat.activation ∧ m.causeShows 15 ∧ (now - th < 65536 → m.rd F.pltFwLast_hold = now - th) ∧
      (now - a.ta < 65536 → m.rd F.pltFwLast_total = now - a.ta) ∧
      ∀ (f : RegField) (r : Nat), r < 12 → f.addr = 0x5100 + 4 * r → m.rd f = d.rd f := by
  unfold Dev.switchShown
  have last := (Dev.SameFirmware.fwDone ((d.wr F.pltFwLast_hold (now - th)).wr F.pltFwLast_total (now - a.ta)) a.slot a.regions a.boot a.lockSvn).trans
    (Dev.SameFirmware.chipEvent _ 15)
  refine ⟨last.activation.trans (by rw [Dev.wr_plat, Dev.wr_plat]), Dev.chipEvent_causeShows _ _ (by decide), fun h => ?hold, fun h => ?total,
    fun f r hr hf => ?apart⟩
  case hold =>
    rw [last.rd _ (by decide) (by decide), Dev.rd_wr_beside _ _ _ _ (by decide) (by decide) (by decide), Dev.rd_wr_same _ _ (by decide)]
    exact Nat.mod_eq_of_lt h
  case total =>
    rw [last.rd _ (by decide) (by decide), Dev.rd_wr_same _ _ (by decide)]
    exact Nat.mod_eq_of_lt h
  case apart =>
    rw [last.region hr hf, Dev.rd_wr_other _ _ _ _ (by simp only [F.pltFwLast_total]; omega),
      Dev.rd_wr_other _ _ _ _ (by simp only [F.pltFwLast_hold]; omega)]

/-! ### An activation abandoned -/

/-- The regions' errors show that the activation was abandoned. -/
def Dev.regionsBlamed (d : Dev) (mask : Nat) : Dev := (regionsOf mask).foldl (fun (d : Dev) r => d.raise (r * 0x100000) 30) d

theorem Dev.regionsBlamed_sameFirmware (d : Dev) (mask : Nat) : d.SameFirmware (d.regionsBlamed mask) := by
  unfold Dev.regionsBlamed
  refine Dev.SameFirmware.foldl (fun d r => ?_) _ d
  exact Dev.SameFirmware.raise d _ _ _

theorem raises_errorShows_still (l : List Nat) {d : Dev} {page : Nat} (h : d.errorShows page 30) :
    (l.foldl (fun (d : Dev) r => d.raise (r * 0x100000) 30) d).errorShows page 30 := by
  induction l generalizing d with
  | nil => exact h
  | cons r l ih => exact ih (Dev.report_errorShows_still _ _ _ _ _ (by decide) h)

theorem raises_errorShows {l : List Nat} {r : Nat} (hr : r ∈ l) (d : Dev) :
    (l.foldl (fun (d : Dev) r => d.raise (r * 0x100000) 30) d).errorShows (r * 0x100000) 30 := by
  induction l generalizing d with
  | nil => cases hr
  | cons k l ih =>
    obtain rfl | hl := List.mem_cons.mp hr
    · exact raises_errorShows_still l (Dev.raise_errorShows _ _ _ (by decide))
    · exact ih hl _

theorem chipEvent_errorShows_still {d : Dev} {page bit : Nat} (h : d.errorShows page bit) (e : Nat) : (d.chipEvent e).errorShows page bit := by
  have hp := pageOf_mod page
  unfold Dev.errorShows at h ⊢
  rw [Dev.chipEvent, Dev.logEvent, Dev.raw_event_header (by omega), Dev.raw_mramPut_header (by omega)]
  exact h

/-- The activation is abandoned: the old images run on. -/
def Dev.abandoned (d : Dev) (a : Activation) : Dev :=
  ((d.notActivating.fwEach a.regions F.pltFwReg_state 0).regionsBlamed a.regions).chipEvent 15

/-- Quiescence, or the image, is late. -/
def Activation.late (a : Activation) (now : Nat) : Bool := match a.th with
  | some th => a.quiet.isNone && (decide (th + 79 ≤ now) || decide (a.ta + 199 ≤ now))
  | none => decide (a.ta + 120 ≤ now)

theorem Activation.late_iff (a : Activation) (now : Nat) : a.late now = true ↔
    (∃ th, a.th = some th ∧ a.quiet = none ∧ (th + 79 ≤ now ∨ a.ta + 199 ≤ now)) ∨ (a.th = none ∧ a.ta + 120 ≤ now) := by
  unfold Activation.late
  cases a.th <;> simp

theorem Dev.abandoned_sameFirmware (d : Dev) (a : Activation) :
    (d.notActivating.fwEach a.regions F.pltFwReg_state 0).SameFirmware (d.abandoned a) :=
  (Dev.regionsBlamed_sameFirmware _ a.regions).trans (Dev.SameFirmware.chipEvent _ 15)

theorem Dev.SameFirmware.fwLast {d e : Dev} (h : d.SameFirmware e) : e.fwLast = d.fwLast := by
  rw [Dev.fwLast, Dev.fwLast, h.rd _ (by decide) (by decide), h.rd _ (by decide) (by decide)]

theorem Dev.fwAbandon_eq {d : Dev} {a : Activation} (ha : d.plat.activation = some a) : d.fwAbandon =
    if !a.late d.now then d else ((d.abandoned a).cmdEnds a.arrival 0x85 (d.abandoned a).fwLast 0 0).hatPump := by
  have last : (d.abandoned a).fwLast = ((d.notActivating.fwEach a.regions F.pltFwReg_state 0).regionsBlamed a.regions).fwLast :=
    (Dev.SameFirmware.chipEvent _ 15).fwLast
  rw [last]
  simp only [Dev.fwAbandon, ha]
  rfl

theorem Dev.abandoned_shows (d : Dev) (a : Activation) : (d.abandoned a).plat.activation = none ∧ (d.abandoned a).causeShows 15 ∧
    (∀ r, r < 12 ∧ a.regions.testBit r = true → (d.abandoned a).rd (F.pltFwReg_state r) = 0 ∧ (d.abandoned a).errorShows (r * 0x100000) 30) ∧
    ∀ r, r < 12 → (d.abandoned a).rd (F.pltFwReg_active r) = d.rd (F.pltFwReg_active r) := by
  have same := d.abandoned_sameFirmware a
  refine ⟨same.activation.trans (congrArg Plat.activation (Dev.fieldsTake_plat d.notActivating _ _ _)), Dev.chipEvent_causeShows _ _ (by decide),
    fun r hr => ⟨?state, ?error⟩, fun r hr => ?active⟩
  case state =>
    rw [same.region (f := F.pltFwReg_state r) hr.1 rfl, Dev.fwEach_eq,
      Dev.rd_fieldsTake apart_state _ (mem_regionsOf.mpr hr), Nat.zero_mod]
  case error => exact chipEvent_errorShows_still (raises_errorShows (mem_regionsOf.mpr hr) _) 15
  case active =>
    rw [same.region (f := F.pltFwReg_active r) hr rfl, Dev.fwEach_eq,
      Dev.rd_fieldsTake_beside (fun k => ⟨apart_state.ok k, apart_active.ok r, by simp [F.pltFwReg_state, F.pltFwReg_active]⟩)]
    rfl

/-! ## The verdict of the check -/

section
variable {d : Dev} {c : Cmd}

theorem Dev.fwChecked_fails {st : Nat} (h : d.fwCheck c.fwSlot c.fwRegs c.fwAction = some st) : d.fwChecked c = c.endsAt (d.checkEnds c false) st := by
  rw [Dev.fwChecked_eq, h]
  rfl

theorem Dev.fwChecked_nothing (h : d.fwCheck c.fwSlot c.fwRegs c.fwAction = none) (hn : c.fwRegs = 0 ∨ c.fwAction = 0) :
    d.fwChecked c = (d.checkEnds c true).cmdEnds c.arrival 0 d.fwLast 0 0 := by
  rw [Dev.fwChecked_eq, h, ← d.checkEnds_fwLast c true]
  exact if_pos hn

theorem Dev.fwChecked_acts (h : d.fwCheck c.fwSlot c.fwRegs c.fwAction = none) (hr : c.fwRegs ≠ 0) (ha : c.fwAction ≠ 0)
    (h0 : c.fwAction.testBit 0 = false) : d.fwChecked c =
      ((d.checkEnds c true).fwDone c.fwSlot c.fwRegs (c.fwAction.testBit 1) (c.fwAction.testBit 2)).cmdEnds c.arrival 0 d.fwLast 0 0 := by
  rw [Dev.fwChecked_eq, h, ← d.checkEnds_fwLast c true]
  exact (if_neg (not_or.mpr ⟨hr, ha⟩)).trans (if_neg (by simp [h0]))

/-- The regions named are staged for the slot of `c`. -/
def Dev.regionsStaged (d : Dev) (c : Cmd) : Dev := (d.fwEach c.fwRegs F.pltFwReg_staged c.fwSlot).fwEach c.fwRegs F.pltFwReg_state 1

theorem Dev.fwChecked_activates (h : d.fwCheck c.fwSlot c.fwRegs c.fwAction = none) (hr : c.fwRegs ≠ 0) (h0 : c.fwAction.testBit 0 = true) :
    d.fwChecked c = ((d.checkEnds c true).regionsStaged c).onPlat fun p => { p with
      activation := some ⟨c.fwRegs, c.fwSlot, c.fwAction.testBit 1, c.fwAction.testBit 2, d.now, none, none, c.arrival⟩ } := by
  obtain ⟨-, -, hnow, -⟩ := d.checkEnds_shows c true
  have plat : ((d.checkEnds c true).regionsStaged c).plat = (d.checkEnds c true).plat :=
    (Dev.fieldsTake_plat _ _ _ _).trans (Dev.fieldsTake_plat _ _ _ _)
  have now : ((d.checkEnds c true).regionsStaged c).now = d.now := (congrArg (fun p : Plat => p.tick.toNat) plat).trans hnow
  have acts : c.fwAction ≠ 0 := fun hz => by
    rw [hz, Nat.zero_testBit] at h0
    cases h0
  rw [Dev.fwChecked_eq, h, ← now]
  exact (if_neg (not_or.mpr ⟨hr, acts⟩)).trans (if_pos h0)

/-- BOOT and LOCK_SVN of a commit without ACTIVATE. -/
theorem Dev.actsDone_shows (d : Dev) (c : Cmd) :
    let n := (d.checkEnds c true).fwDone c.fwSlot c.fwRegs (c.fwAction.testBit 1) (c.fwAction.testBit 2)
    n.plat.activation = d.plat.activation ∧ (∀ r, r < 12 → n.rd (F.pltFwReg_active r) = d.rd (F.pltFwReg_active r)) ∧
      (c.fwAction.testBit 1 = true → ∀ r, r < 12 →
        n.mram.bootSlot.getD r 0 = if c.fwRegs.testBit r then c.fwSlot else d.mram.bootSlot.getD r 0) ∧
      n.mram.svnFloor = if c.fwAction.testBit 2 then max d.mram.svnFloor (d.fwSvn c.fwSlot) else d.mram.svnFloor := by
  obtain ⟨hm, hact, -, hr⟩ := d.checkEnds_shows c true
  have same := Dev.SameFirmware.fwDone (d.checkEnds c true) c.fwSlot c.fwRegs (c.fwAction.testBit 1) (c.fwAction.testBit 2)
  have done := Dev.fwDone_mram (d.checkEnds c true) c.fwSlot c.fwRegs (c.fwAction.testBit 1) (c.fwAction.testBit 2)
  have svn : (d.checkEnds c true).fwSvn c.fwSlot = d.fwSvn c.fwSlot := by
    rw [Dev.fwSvn, Dev.fwSvn, Dev.fwNat, Dev.fwNat, Dev.fwBytes, Dev.fwBytes, hm]
  refine ⟨same.activation.trans hact, fun r h => ?active, fun hboot r h => ?boot, ?svn⟩
  case active =>
    exact (same.region h rfl).trans
      (hr _ (by simp only [F.pltFwReg_active, F.pltMramCnt]; omega))
  case boot =>
    rw [done, hm]
    simp [hboot, h]
  case svn => rw [done, svn, hm]

end

/-- Settles O57: the check's verdict decides, and the activation steps as its times allow. -/
theorem firmwareActivates : Obligations.FirmwareActivates := by
  unfold Obligations.FirmwareActivates
  intro s
  refine ⟨fun cid c hc hat hop hs hp hv hslot => ⟨fun ok => ?shows, fun st hst => ?fails, fun hok hnone => ?nothing,
    fun hok hregs hact => ?activates, fun hok hregs hact hnot => ?acts⟩, fun ha => ?idle, fun a ha => ?going⟩
  case shows =>
    obtain ⟨hm, -, -, hr⟩ := s.dev.checkEnds_shows c ok
    exact ⟨hm, hr⟩
  case fails => exact fwCommitCheckEnd_completes hc hop hs hp hv (Dev.fwChecked_fails hst) rfl
  case nothing => exact fwCommitCheckEnd_completes hc hop hs hp hv (Dev.fwChecked_nothing hok hnone) rfl
  case activates =>
    obtain ⟨-, -, -, hr⟩ := s.dev.checkEnds_shows c true
    obtain ⟨named, active, -⟩ := (s.dev.checkEnds c true).regionsStaged_shows c.fwRegs hslot
    exact fwCommitCheckEnd_completes hc hop hs hp hv (Dev.fwChecked_activates hok hregs hact)
      ⟨rfl, named, fun r h => (active r).trans (hr _ (by simp only [F.pltFwReg_active, F.pltMramCnt]; omega))⟩
  case acts => exact fwCommitCheckEnd_completes hc hop hs hp hv (Dev.fwChecked_acts hok hregs hact hnot) ⟨rfl, s.dev.actsDone_shows c⟩
  case idle =>
    refine ⟨fun c hc => ?_, by simp only [Dev.fwSwitch, ha]⟩
    obtain rfl | rfl | rfl : c = .fwImageLoaded ∨ c = .fwQuiesceReached ∨ c = .fwActivationAbandon := by simpa using hc
    · exact completes_fwImageLoaded (by simp only [Dev.fwLoaded, ha]) rfl
    · exact completes_fwQuiesceReached (by simp only [Dev.fwQuiesced, ha]) rfl
    · exact completes_fwActivationAbandon (by simp only [Dev.fwAbandon, ha]) rfl
  case going =>
    refine ⟨fun ht hin => ?holds, fun hnot => ?tooLate, fun th ht hq h80 h200 hquiet => ?quiesced, fun th ht hnot => ?restless, fun ht => ?loading,
      Dev.fwSwitch_waits ha, fun th t ht hq hslot => ?switches, fun hlate => ?abandons, fun hwait => ?runsOn⟩
    case holds =>
      obtain ⟨hact, hstate⟩ := s.dev.imageHeld_shows a
      have same := (s.dev.imageHeld a).holdingWork_sameFirmware a.regions
      refine completes_fwImageLoaded ((Dev.fwLoaded_eq ha).trans (if_neg (by simp [ht]; omega))) ⟨same.activation.trans hact, fun r hr => ?_⟩
      exact (same.region hr.1 rfl).trans (hstate r hr)
    case tooLate => exact completes_fwImageLoaded ((Dev.fwLoaded_eq ha).trans (if_pos hnot)) rfl
    case quiesced =>
      refine completes_fwQuiesceReached ((Dev.fwQuiesced_eq ha ht).trans (if_neg ?_)) rfl
      simp [hq, hquiet]
      omega
    case restless => exact completes_fwQuiesceReached ((Dev.fwQuiesced_eq ha ht).trans (if_pos (by simpa using hnot))) rfl
    case loading => exact completes_fwQuiesceReached (Dev.fwQuiesced_loading ha ht) rfl
    case switches =>
      obtain ⟨plat, named⟩ := s.dev.notActivating.regionsSwitch_shows a.regions hslot
      have resting := Dev.SameFirmware.when Dev.SameFirmware.engsSwitch (s.dev.notActivating.regionsSwitch a.regions a.slot) (a.regions.testBit 9)
      obtain ⟨hact, hcause, hhold, htotal, apart⟩ := Dev.switchShown_shows
        ((s.dev.notActivating.regionsSwitch a.regions a.slot).when (a.regions.testBit 9) (·.engsSwitch)) a th s.dev.now
      refine ⟨Dev.fwSwitch_eq ha ht hq, hact.trans (resting.activation.trans (congrArg Plat.activation plat)), hcause, hhold, htotal, fun r hr => ?_⟩
      have kept : ∀ f : RegField, f.addr = 0x5100 + 4 * r → _ := fun f hf => (apart f r hr.1 hf).trans (resting.region hr.1 hf)
      obtain ⟨hactive, hstate, hversion⟩ := named r hr
      exact ⟨(kept (F.pltFwReg_active r) rfl).trans hactive, (kept (F.pltFwReg_state r) rfl).trans hstate,
        (kept (F.pltFwReg_version r) rfl).trans hversion⟩
    case abandons =>
      have late : a.late s.dev.now = true := (Activation.late_iff _ _).mpr hlate
      exact completes_fwActivationAbandon ((Dev.fwAbandon_eq ha).trans (if_neg (by simp [late]))) ⟨rfl, s.dev.abandoned_shows a⟩
    case runsOn =>
      have timely : a.late s.dev.now = false := by
        rw [Bool.eq_false_iff, ne_eq, Activation.late_iff]
        obtain ⟨th, ht, hw⟩ | ⟨ht, hw⟩ := hwait
        · simp only [ht]
          grind
        · simp [ht, hw]
      exact completes_fwActivationAbandon ((Dev.fwAbandon_eq ha).trans (if_pos (by simp [timely]))) rfl

end Sys2Proof.Machine
end

section
/-! SUPPORT. The records of ING: what a lane, a stream, a path, a frame and a session hold after one of them is changed. -/
namespace Sys2Proof.Machine
open Sys2Proof

theorem Map.get_modify {α : Type} [DecidableEq α] (dflt : α) (m : Map α) (k j : Nat) (f : α → α) :
    Map.get dflt (Map.modify dflt m k f) j = if j = k then f (Map.get dflt m k) else Map.get dflt m j := Map.get_set _ _ _ _ _

theorem Dev.when_eq_or (d : Dev) (c : Bool) (f : Dev → Dev) : d.when c f = d ∨ d.when c f = f d := by
  cases c
  · exact .inl rfl
  · exact .inr rfl

/-! ## Lanes -/

@[simp] theorem Dev.lane_onLane (d : Dev) (l : Nat) (f : Lane → Lane) : (d.onLane l f).lane l = f (d.lane l) :=
  (Map.get_modify _ _ _ _ _).trans (if_pos rfl)

theorem Dev.lane_onLane_other {k l : Nat} (h : k ≠ l) (d : Dev) (f : Lane → Lane) : (d.onLane l f).lane k = d.lane k :=
  (Map.get_modify _ _ _ _ _).trans (if_neg h)

@[simp] theorem Dev.lane_wr (d : Dev) (f : RegField) (v k : Nat) : (d.wr f v).lane k = d.lane k := by simp [Dev.lane]

/-! ## Streams and their paths -/

@[simp] theorem Dev.stream_onStream (d : Dev) (g : Nat) (f : Stream → Stream) : (d.onStream g f).stream g = f (d.stream g) :=
  (Map.get_modify _ _ _ _ _).trans (if_pos rfl)

theorem Dev.stream_onStream_other {g k : Nat} (h : k ≠ g) (d : Dev) (f : Stream → Stream) : (d.onStream g f).stream k = d.stream k :=
  (Map.get_modify _ _ _ _ _).trans (if_neg h)

theorem Dev.stream_congr {d e : Dev} (h : e.ing.streams = d.ing.streams) (g : Nat) : e.stream g = d.stream g :=
  congrArg (Map.get Stream.reset · g) h

@[simp] theorem Dev.stream_wr (d : Dev) (f : RegField) (v k : Nat) : (d.wr f v).stream k = d.stream k := by simp [Dev.stream]

@[simp] theorem Stream.path_setPath (st : Stream) (p : Nat) (x : Path) : (st.setPath p x).path p = x := by
  unfold Stream.setPath Stream.path
  split <;> rfl

@[simp] theorem Stream.setPath_oldBond (st : Stream) (p : Nat) (x : Path) : (st.setPath p x).oldBond = st.oldBond := by
  unfold Stream.setPath
  split <;> rfl

@[simp] theorem Dev.path_onPath (d : Dev) (g p : Nat) (f : Path → Path) : (d.onPath g p f).path g p = f (d.path g p) := by
  unfold Dev.path Dev.onPath
  rw [Dev.stream_onStream, Stream.path_setPath]

@[simp] theorem Dev.path_wr (d : Dev) (f : RegField) (v g p : Nat) : (d.wr f v).path g p = d.path g p := by simp [Dev.path]

@[simp] theorem Dev.ing_sendCredit (d : Dev) (g p : Nat) : (d.sendCredit g p).ing = d.ing := by
  obtain h | h : d.sendCredit g p = d ∨ d.sendCredit g p = d.send _ := d.when_eq_or _ _ <;> rw [h]
  rfl

@[simp] theorem Dev.stream_sendCredit (d : Dev) (g p k : Nat) : (d.sendCredit g p).stream k = d.stream k := by simp [Dev.stream]

@[simp] theorem Dev.path_sendCredit (d : Dev) (g p k q : Nat) : (d.sendCredit g p).path k q = d.path k q := by simp [Dev.path]

/-- A path's state is changed, and shown, alone. -/
theorem Dev.path_setPathSt (d : Dev) (g p : Nat) (st : PathSt) : (d.setPathSt g p st).path g p = { d.path g p with st := st } := by
  unfold Dev.setPathSt
  rw [Dev.path_wr, Dev.path_onPath]

/-! ## Errors -/

@[simp] theorem Dev.raise_ing (d : Dev) (page bit info : Nat) : (d.raise page bit info).ing = d.ing := by
  obtain ⟨-, -, -, h, -⟩ := d.raise_sameRegions page bit info
  exact h

@[simp] theorem Dev.raise_cst (d : Dev) (page bit info : Nat) : (d.raise page bit info).cst = d.cst := by
  obtain ⟨h, -⟩ := d.raise_sameRegions page bit info
  exact h

@[simp] theorem Dev.stream_raise (d : Dev) (page bit info g : Nat) : (d.raise page bit info).stream g = d.stream g := by simp [Dev.stream]

@[simp] theorem Dev.path_raise (d : Dev) (page bit info g p : Nat) : (d.raise page bit info).path g p = d.path g p := by simp [Dev.path]

/-- An error that shows stays when another is raised. -/
theorem Dev.raise_errorShows_still (d : Dev) (page bit info : Nat) {p b : Nat} (hb : b < 32) (h : d.errorShows p b) :
    (d.raise page bit info).errorShows p b := Dev.report_errorShows_still _ _ _ _ _ hb h

theorem Dev.errorShows_setPathSt (d : Dev) (g p : Nat) (st : PathSt) (page bit : Nat) :
    (d.setPathSt g p st).errorShows page bit ↔ d.errorShows page bit := by
  unfold Dev.setPathSt
  split
  · exact Dev.errorShows_wr _ (by simp only [F.ingStrStat_pathA]; omega) _ _ _
  · exact Dev.errorShows_wr _ (by simp only [F.ingStrStat_pathB]; omega) _ _ _

end Sys2Proof.Machine
end

section
/-! Lanes and the groups that they bring up (R63, R64, R104, R280). -/
namespace Sys2Proof.Machine
open Sys2Proof

/-! ## What the lanes of a stream's groups are read from -/

theorem Dev.bond_congr {d e : Dev} (h : e.force = d.force) (g : Nat) : e.bond g = d.bond g := by
  unfold Dev.bond Dev.forced
  rw [h]

/-- The bonds of the streams and which streams are enabled stand in `e` as in `d`. -/
structure Dev.SameGroups (d e : Dev) : Prop where
  force : e.force = d.force
  units : e.plat.units = d.plat.units
  staged : e.plat.staged = d.plat.staged
  oldBond : ∀ g, (e.stream g).oldBond = (d.stream g).oldBond

namespace Dev.SameGroups

variable {d e : Dev}

theorem refl (d : Dev) : d.SameGroups d := ⟨rfl, rfl, rfl, fun _ => rfl⟩

theorem trans {a b c : Dev} (h : a.SameGroups b) (k : b.SameGroups c) : a.SameGroups c :=
  ⟨k.force.trans h.force, k.units.trans h.units, k.staged.trans h.staged, fun g => (k.oldBond g).trans (h.oldBond g)⟩

theorem wr {f : RegField} (h : f.rs = false) (d : Dev) (v : Nat) : d.SameGroups (d.wr f v) :=
  ⟨Dev.wr_force h d v, by rw [Dev.wr_plat], by rw [Dev.wr_plat], fun g => by rw [Dev.stream_wr]⟩

theorem raise (d : Dev) (page bit info : Nat) : d.SameGroups (d.raise page bit info) :=
  ⟨(d.raise_beside page bit info).force, (d.raise_plat page bit info).units, (d.raise_plat page bit info).staged,
    fun g => by rw [Dev.stream_raise]⟩

theorem onLane (d : Dev) (l : Nat) (f : Lane → Lane) : d.SameGroups (d.onLane l f) := ⟨rfl, rfl, rfl, fun _ => rfl⟩

theorem onPath (d : Dev) (g p : Nat) (f : Path → Path) : d.SameGroups (d.onPath g p f) := by
  refine ⟨rfl, rfl, rfl, fun k => ?_⟩
  by_cases h : k = g
  · subst h
    rw [Dev.onPath, Dev.stream_onStream, Stream.setPath_oldBond]
  · rw [Dev.onPath, Dev.stream_onStream_other h]

theorem when {f : Dev → Dev} (hf : ∀ d : Dev, d.SameGroups (f d)) (d : Dev) (c : Bool) : d.SameGroups (d.when c f) := by
  unfold Dev.when
  split
  · exact hf d
  · exact refl d

theorem foldl {α : Type} {f : Dev → α → Dev} (hf : ∀ (d : Dev) (x : α), d.SameGroups (f d x)) (l : List α) (d : Dev) :
    d.SameGroups (l.foldl f d) := by
  induction l generalizing d with
  | nil => exact refl d
  | cons x l ih => exact (hf d x).trans (ih _)

theorem bond (h : d.SameGroups e) (g : Nat) : e.bond g = d.bond g := Dev.bond_congr h.force g

theorem streamEnabled (h : d.SameGroups e) (g : Nat) : e.streamEnabled g = d.streamEnabled g := by
  unfold Dev.streamEnabled
  rw [Dev.unitAt_congr h.units]

theorem buildingBond (h : d.SameGroups e) (g : Nat) : e.buildingBond g = d.buildingBond g := by
  unfold Dev.buildingBond
  rw [h.staged]

theorem groupsOf (h : d.SameGroups e) (l : Nat) : e.groupsOf l = d.groupsOf l := by
  unfold Dev.groupsOf
  simp only [h.streamEnabled, h.bond, h.buildingBond]

theorem streamsAt (h : d.SameGroups e) (l : Nat) : e.streamsAt l = d.streamsAt l := by
  unfold Dev.streamsAt
  simp only [h.streamEnabled, h.bond, h.buildingBond, h.oldBond]

theorem setPathSt (d : Dev) (g p : Nat) (st : PathSt) : d.SameGroups (d.setPathSt g p st) := by
  unfold Dev.setPathSt
  split
  · exact (onPath d g p _).trans (wr rfl _ _)
  · exact (onPath d g p _).trans (wr rfl _ _)

theorem pathDown (d : Dev) (g p : Nat) : d.SameGroups (d.pathDown g p) :=
  (setPathSt d g p .down).trans (when (fun d => wr rfl d 0) _ _)

end Dev.SameGroups

/-- A lane of a group in force serves the group's stream. -/
theorem Dev.mem_streamsAt_of_groupsOf {d : Dev} {l g p : Nat} (h : (g, p, d.bond g) ∈ d.groupsOf l) : g ∈ d.streamsAt l := by
  simp only [Dev.groupsOf, List.mem_flatMap, List.mem_map, List.mem_filter] at h
  obtain ⟨s, ⟨hs, he⟩, b, -, q, ⟨hq, hl⟩, heq⟩ := h
  obtain ⟨rfl, rfl, rfl⟩ : s = g ∧ q = p ∧ b = d.bond g := by simpa using heq
  have all : (bondAll (d.bond s)).contains l = true := by
    simp only [bondAll, List.contains_iff_mem, List.mem_flatten, List.mem_map] at hl ⊢
    exact ⟨_, ⟨q, hq, rfl⟩, hl⟩
  simp only [Dev.streamsAt, List.mem_filter]
  exact ⟨hs, by simp only [he, all, Bool.true_or, Bool.and_self]⟩

/-! ## A lane takes a state -/

/-- The field that shows a lane's state: of a frame lane, or of a head link's. -/
def laneStateField (l : Nat) : RegField :=
  if l < 64 then F.ingLaneStat_state (l / 16) (l % 16) else F.hlLaneStat_state ((l - 64) / 4) ((l - 64) % 4)

theorem laneStateField_shape (l : Nat) : (laneStateField l).rs = false ∧ (laneStateField l).hi = 2 ∧ (laneStateField l).lo = 0 := by
  unfold laneStateField
  split <;> exact ⟨rfl, rfl, rfl⟩

theorem laneStateField_ok (l : Nat) : (laneStateField l).ok := by
  obtain ⟨-, hhi, hlo⟩ := laneStateField_shape l
  simp only [RegField.ok, hhi, hlo]
  decide

/-- The exit of a frame lane from UP is counted. -/
def Dev.exitCounted (d : Dev) (l : Nat) (st : LaneSt) : Dev :=
  d.when (decide (l < 64) && decide ((d.lane l).st = .up) && decide (st ≠ .up)) (·.count (F.ingLaneErr_lockLoss (l / 16) (l % 16)))

theorem Dev.setLaneSt_eq (d : Dev) (l : Nat) (st : LaneSt) : d.setLaneSt l st =
    ((d.exitCounted l st).onLane l fun x => { x with st := st, skewBad := 0 }).wr (laneStateField l) (laneCode st) := by
  unfold Dev.setLaneSt Dev.exitCounted laneStateField
  split <;> rfl

/-- A lane's state is `st`, and shows; no other lane, no stream and no other region is touched. -/
structure Dev.LaneNow (d e : Dev) (l : Nat) (st : LaneSt) : Prop where
  lane : (e.lane l).st = st
  others : ∀ k, k ≠ l → e.lane k = d.lane k
  shown : e.rd (laneStateField l) = laneCode st
  plat : e.plat = d.plat
  cst : e.cst = d.cst
  bpm : e.bpm = d.bpm
  mram : e.mram = d.mram
  streams : e.ing.streams = d.ing.streams

theorem Dev.LaneNow.afterWr {d e : Dev} {l : Nat} {st : LaneSt} {f : RegField} {v : Nat} (h : (d.wr f v).LaneNow e l st) : d.LaneNow e l st :=
  ⟨h.lane, fun k hk => (h.others k hk).trans (d.lane_wr f v k), h.shown, h.plat.trans (d.wr_plat f v), h.cst.trans (d.wr_cst f v),
    h.bpm.trans (d.wr_bpm f v), h.mram.trans (d.wr_mram f v), h.streams.trans (congrArg Ing.streams (d.wr_ing f v))⟩

theorem Dev.setLaneSt_laneNow (d : Dev) (l : Nat) (st : LaneSt) : d.LaneNow (d.setLaneSt l st) l st := by
  have taken (b : Dev) : b.LaneNow ((b.onLane l fun x => { x with st := st, skewBad := 0 }).wr (laneStateField l) (laneCode st)) l st := by
    obtain ⟨-, hhi, hlo⟩ := laneStateField_shape l
    refine ⟨by simp, fun k hk => by rw [Dev.lane_wr, Dev.lane_onLane_other hk], ?_, by simp [Dev.onLane], by simp [Dev.onLane],
      by simp [Dev.onLane], by simp [Dev.onLane], by simp [Dev.onLane]⟩
    rw [Dev.rd_wr_same _ _ (laneStateField_ok l), hhi, hlo]
    cases st <;> rfl
  rw [Dev.setLaneSt_eq]
  obtain h | h : d.exitCounted l st = d ∨ d.exitCounted l st = d.count _ := d.when_eq_or _ _
  · rw [h]
    exact taken d
  · rw [h]
    exact (taken _).afterWr

/-- A lane takes a state after the invalid headers that came with the event are counted. -/
theorem Dev.setLaneSt_badHeaders (d : Dev) (l bad : Nat) (st : LaneSt) : d.LaneNow ((d.badHeaders l bad).setLaneSt l st) l st := by
  obtain h | h : d.badHeaders l bad = d ∨ d.badHeaders l bad = d.countN _ bad := d.when_eq_or _ _
  · rw [h]
    exact d.setLaneSt_laneNow l st
  · rw [h]
    exact (Dev.setLaneSt_laneNow _ l st).afterWr

theorem Dev.badHeaders_sameGroups (d : Dev) (l bad : Nat) : d.SameGroups (d.badHeaders l bad) :=
  Dev.SameGroups.when (fun d => .wr rfl d _) d _

theorem Dev.setLaneSt_sameGroups (d : Dev) (l : Nat) (st : LaneSt) : d.SameGroups (d.setLaneSt l st) := by
  rw [Dev.setLaneSt_eq]
  have counted : d.SameGroups (d.exitCounted l st) := Dev.SameGroups.when (fun d => .wr rfl d _) d _
  exact (counted.trans (.onLane _ l _)).trans (.wr (laneStateField_shape l).1 _ _)

theorem Dev.badHeaders_ing (d : Dev) (l bad : Nat) : (d.badHeaders l bad).ing = d.ing := by
  obtain h | h : d.badHeaders l bad = d ∨ d.badHeaders l bad = d.countN _ bad := d.when_eq_or _ _
  · rw [h]
  · rw [h, Dev.countN, Dev.wr_ing]

theorem Dev.badHeaders_plat (d : Dev) (l bad : Nat) : (d.badHeaders l bad).plat = d.plat := by
  obtain h | h : d.badHeaders l bad = d ∨ d.badHeaders l bad = d.countN _ bad := d.when_eq_or _ _
  · rw [h]
  · rw [h, Dev.countN, Dev.wr_plat]

theorem Dev.lane_badHeaders (d : Dev) (l bad k : Nat) : (d.badHeaders l bad).lane k = d.lane k := by
  rw [Dev.lane, Dev.lane, Dev.badHeaders_ing]

theorem Dev.LaneNow.shows {d e : Dev} {l : Nat} {st : LaneSt} (h : d.LaneNow e l st) :
    (e.lane l).st = st ∧ (∀ k, k ≠ l → e.lane k = d.lane k) ∧
      (l < 64 → e.rd (F.ingLaneStat_state (l / 16) (l % 16)) = laneCode st) ∧
      (64 ≤ l → e.rd (F.hlLaneStat_state ((l - 64) / 4) ((l - 64) % 4)) = laneCode st) ∧ e.plat = d.plat ∧ e.cst = d.cst ∧ e.bpm = d.bpm ∧
      e.mram = d.mram ∧ e.ing.streams = d.ing.streams := by
  obtain ⟨lane, others, shown, plat, cst, bpm, mram, streams⟩ := h
  refine ⟨lane, others, fun hl => ?_, fun hl => ?_, plat, cst, bpm, mram, streams⟩
  · rwa [laneStateField, if_pos hl] at shown
  · rwa [laneStateField, if_neg (by omega)] at shown

/-! ## The counters of a frame lane -/

theorem laneStateField_addr (l : Nat) : (laneStateField l).addr % 4096 < 0x180 := by
  unfold laneStateField
  split
  · simp only [F.ingLaneStat_state]; omega
  · simp only [F.hlLaneStat_state]; omega

theorem syncErr_ok (p i : Nat) : (F.ingLaneErr_syncErr p i).ok := ⟨Nat.zero_le _, Nat.lt_of_sub_eq_succ rfl⟩

theorem lockLoss_ok (p i : Nat) : (F.ingLaneErr_lockLoss p i).ok := ⟨Nat.le_of_sub_eq_zero rfl, Nat.lt_of_sub_eq_succ rfl⟩

theorem Dev.rd_setLaneSt {f : RegField} (hf : 0x180 ≤ f.addr % 4096) (d : Dev) (l : Nat) (st : LaneSt) :
    (d.setLaneSt l st).rd f = (d.exitCounted l st).rd f := by
  have apart : f.addr ≠ (laneStateField l).addr := by
    have := laneStateField_addr l
    omega
  rw [Dev.setLaneSt_eq, Dev.rd_wr_other _ _ _ _ apart]
  rfl

/-- The invalid headers that come with an event of a frame lane are counted, whatever state the lane then takes. -/
theorem Dev.rd_syncErr_setLaneSt {l : Nat} (hl : l < 64) (d : Dev) (bad : Nat) (st : LaneSt) :
    ((d.badHeaders l bad).setLaneSt l st).rd (F.ingLaneErr_syncErr (l / 16) (l % 16)) =
      min 65535 (d.rd (F.ingLaneErr_syncErr (l / 16) (l % 16)) + bad) := by
  have counted : d.badHeaders l bad = d.countN (F.ingLaneErr_syncErr (l / 16) (l % 16)) bad := by simp [Dev.badHeaders, Dev.when, hl]
  have exited (b : Dev) : (b.exitCounted l st).rd (F.ingLaneErr_syncErr (l / 16) (l % 16)) = b.rd (F.ingLaneErr_syncErr (l / 16) (l % 16)) := by
    obtain h | h : b.exitCounted l st = b ∨ b.exitCounted l st = b.count _ := b.when_eq_or _ _
    · rw [h]
    · rw [h, Dev.count, Dev.rd_wr_beside _ _ _ _ (lockLoss_ok _ _) (syncErr_ok _ _) (.inl (Nat.lt_succ_self 15))]
  rw [Dev.rd_setLaneSt (by simp only [F.ingLaneErr_syncErr]; omega), exited, counted, Dev.countN, Dev.rd_wr_same _ _ (syncErr_ok _ _)]
  exact Nat.mod_eq_of_lt (by simp only [F.ingLaneErr_syncErr]; omega)

/-- The exit of a frame lane from UP is counted. -/
theorem Dev.rd_lockLoss_setLaneSt {l : Nat} (hl : l < 64) {d : Dev} (hu : (d.lane l).st = .up) (bad : Nat) {st : LaneSt} (hst : st ≠ .up) :
    ((d.badHeaders l bad).setLaneSt l st).rd (F.ingLaneErr_lockLoss (l / 16) (l % 16)) =
      satInc 16 (d.rd (F.ingLaneErr_lockLoss (l / 16) (l % 16))) := by
  have exited : (d.badHeaders l bad).exitCounted l st = (d.badHeaders l bad).count (F.ingLaneErr_lockLoss (l / 16) (l % 16)) := by
    simp [Dev.exitCounted, Dev.when, hl, hst, Dev.lane_badHeaders, hu]
  have heard : (d.badHeaders l bad).rd (F.ingLaneErr_lockLoss (l / 16) (l % 16)) = d.rd (F.ingLaneErr_lockLoss (l / 16) (l % 16)) := by
    obtain h | h : d.badHeaders l bad = d ∨ d.badHeaders l bad = d.countN _ bad := d.when_eq_or _ _
    · rw [h]
    · rw [h, Dev.countN, Dev.rd_wr_beside _ _ _ _ (syncErr_ok _ _) (lockLoss_ok _ _) (.inr (Nat.lt_succ_self 15))]
  rw [Dev.rd_setLaneSt (by simp only [F.ingLaneErr_lockLoss]; omega), exited, Dev.rd_count _ _ (lockLoss_ok _ _), heard]
  rfl

/-! ## A lane leaves UP -/

theorem foldl_errorShows_still {α : Type} {f : Dev → α → Dev} {page bit : Nat}
    (hf : ∀ (d : Dev) (x : α), d.errorShows page bit → (f d x).errorShows page bit)
    (l : List α) {d : Dev} (h : d.errorShows page bit) : (l.foldl f d).errorShows page bit := by
  induction l generalizing d with
  | nil => exact h
  | cons x l ih => exact ih (hf d x h)

/-- Where an error is raised on each of several pages, it shows on each. -/
theorem foldl_raise_errorShows {l : List Nat} {page : Nat → Nat} {bit g : Nat} (hb : bit < 32) (hg : g ∈ l) (d : Dev) :
    (l.foldl (fun (d : Dev) s => d.raise (page s) bit) d).errorShows (page g) bit := by
  induction l generalizing d with
  | nil => cases hg
  | cons k l ih =>
    obtain rfl | hl := List.mem_cons.mp hg
    · exact foldl_errorShows_still (fun d s => d.raise_errorShows_still (page s) bit 0 hb) l (d.raise_errorShows _ _ hb)
    · exact ih hl _

/-- LANE_LOST on every stream that a lane serves. -/
def Dev.lanesBlamed (d : Dev) (l : Nat) : Dev := (d.streamsAt l).foldl (fun (d : Dev) s => d.raise (Pg.ingStr s) Er.ingStr_laneLost) d

theorem Dev.lanesDown_eq (d : Dev) (l : Nat) : d.lanesDown l = ((d.lanesBlamed l).groupsOf l).foldl
    (fun d g => if g.2.2 = d.bond g.1 ∧ (d.path g.1 g.2.1).st ≠ .down then d.pathDown g.1 g.2.1 else d) (d.lanesBlamed l) := rfl

theorem Dev.lanesBlamed_sameGroups (d : Dev) (l : Nat) : d.SameGroups (d.lanesBlamed l) :=
  Dev.SameGroups.foldl (fun d s => .raise d (Pg.ingStr s) Er.ingStr_laneLost 0) _ d

theorem Dev.lanesBlamed_ing (d : Dev) (l : Nat) : (d.lanesBlamed l).ing = d.ing := by
  unfold Dev.lanesBlamed
  generalize d.streamsAt l = ss
  induction ss generalizing d with
  | nil => rfl
  | cons s ss ih => exact (ih _).trans (d.raise_ing _ _ _)

theorem Dev.errorShows_pathDown (d : Dev) (g p page bit : Nat) : (d.pathDown g p).errorShows page bit ↔ d.errorShows page bit := by
  unfold Dev.pathDown Dev.when
  split
  · rw [Dev.errorShows_wr _ (by simp only [F.ingStrStat_groupUp]; omega), Dev.errorShows_setPathSt]
  · exact d.errorShows_setPathSt g p _ page bit

theorem Dev.lanesDown_errorShows {d : Dev} {l g : Nat} (hg : g ∈ d.streamsAt l) :
    (d.lanesDown l).errorShows (Pg.ingStr g) Er.ingStr_laneLost := by
  rw [Dev.lanesDown_eq]
  refine foldl_errorShows_still (fun d x h => ?_) _ (foldl_raise_errorShows (by decide) hg d)
  split
  · exact (d.errorShows_pathDown _ _ _ _).2 h
  · exact h

/-- The one group in force that a lane belongs to goes DOWN. -/
theorem Dev.lanesDown_path {d : Dev} {l g p : Nat} (hg : d.groupsOf l = [(g, p, d.bond g)]) (hp : (d.path g p).st ≠ .down) :
    ((d.lanesDown l).path g p).st = .down := by
  have same := d.lanesBlamed_sameGroups l
  have path : (d.lanesBlamed l).path g p = d.path g p := congrArg (fun i : Ing => (Map.get Stream.reset i.streams g).path p) (d.lanesBlamed_ing l)
  have goes : d.lanesDown l = (d.lanesBlamed l).pathDown g p := by
    rw [Dev.lanesDown_eq, same.groupsOf, hg]
    exact if_pos ⟨(same.bond g).symm, path ▸ hp⟩
  rw [goes, Dev.pathDown]
  obtain h | h := ((d.lanesBlamed l).setPathSt g p .down).when_eq_or (decide (p = 0)) (·.wr (F.ingStrStat_groupUp g) 0)
  · rw [h, Dev.path_setPathSt]
  · rw [h, Dev.path_wr, Dev.path_setPathSt]

/-! ## A group's lanes come up -/

/-- The skew of each of several lanes shows. -/
def Dev.skewShown (d : Dev) (lanes : List Nat) (f : Nat → RegField) (v : Dev → AmBlock → Nat) : Dev :=
  lanes.foldl (fun d l => match (d.lane l).am with
    | some a => d.wr (f l) (v d a)
    | none => d) d

/-- Several lanes reach UP. -/
def Dev.lanesUp (d : Dev) (lanes : List Nat) : Dev := lanes.foldl (fun d l => d.setLaneSt l .up) d

/-- Fields that show states and skews of lanes aside, `e` is `d` but for its lanes. -/
structure Dev.LanesMove (d e : Dev) : Prop where
  plat : e.plat = d.plat
  streams : e.ing.streams = d.ing.streams
  force : e.force = d.force
  rd : ∀ f : RegField, f.ok → 2 < f.lo → f.hi < 24 → e.rd f = d.rd f

namespace Dev.LanesMove

theorem refl (d : Dev) : d.LanesMove d := ⟨rfl, rfl, rfl, fun _ _ _ _ => rfl⟩

theorem trans {a b c : Dev} (h : a.LanesMove b) (k : b.LanesMove c) : a.LanesMove c :=
  ⟨k.plat.trans h.plat, k.streams.trans h.streams, k.force.trans h.force, fun f hf hlo hhi => (k.rd f hf hlo hhi).trans (h.rd f hf hlo hhi)⟩

theorem wr {g : RegField} (hr : g.rs = false) (hg : g.ok) (h : g.hi ≤ 2 ∨ 24 ≤ g.lo) (d : Dev) (v : Nat) : d.LanesMove (d.wr g v) :=
  ⟨d.wr_plat g v, congrArg Ing.streams (d.wr_ing g v), Dev.wr_force hr d v, fun f hf hlo hhi => Dev.rd_wr_beside d g f v hg hf (by omega)⟩

theorem foldl {α : Type} {f : Dev → α → Dev} (hf : ∀ (d : Dev) (x : α), d.LanesMove (f d x)) (l : List α) (d : Dev) : d.LanesMove (l.foldl f d) := by
  induction l generalizing d with
  | nil => exact refl d
  | cons x l ih => exact (hf d x).trans (ih _)

theorem skewShown {f : Nat → RegField} (hf : ∀ l, (f l).rs = false ∧ (f l).hi = 31 ∧ (f l).lo = 24) (d : Dev) (lanes : List Nat)
    (v : Dev → AmBlock → Nat) :
    d.LanesMove (d.skewShown lanes f v) := by
  refine foldl (fun d l => ?_) lanes d
  obtain ⟨hr, hhi, hlo⟩ := hf l
  split
  · exact wr hr (by simp only [RegField.ok, hhi, hlo]; decide) (.inr hlo.ge) d _
  · exact refl d

theorem laneUp (d : Dev) (l : Nat) : d.LanesMove (d.setLaneSt l .up) := by
  obtain ⟨hr, hhi, -⟩ := laneStateField_shape l
  have uncounted : d.exitCounted l .up = d := by simp [Dev.exitCounted, Dev.when]
  rw [Dev.setLaneSt_eq, uncounted]
  exact trans (b := d.onLane l _) ⟨rfl, rfl, rfl, fun _ _ _ _ => rfl⟩ (wr hr (laneStateField_ok l) (.inl hhi.le) _ _)

theorem lanesUp (d : Dev) (lanes : List Nat) : d.LanesMove (d.lanesUp lanes) := foldl laneUp lanes d

end Dev.LanesMove

theorem Dev.lane_skewShown (d : Dev) (lanes : List Nat) (f : Nat → RegField) (v : Dev → AmBlock → Nat) (k : Nat) :
    (d.skewShown lanes f v).lane k = d.lane k := by
  unfold Dev.skewShown
  induction lanes generalizing d with
  | nil => rfl
  | cons l ls ih =>
    refine (ih _).trans ?_
    beta_reduce
    split
    · exact d.lane_wr _ _ k
    · rfl

theorem Dev.lanesUp_still {lanes : List Nat} {d : Dev} {k : Nat} (h : (d.lane k).st = .up) : ((d.lanesUp lanes).lane k).st = .up := by
  unfold Dev.lanesUp
  induction lanes generalizing d with
  | nil => exact h
  | cons l ls ih =>
    refine ih ?_
    by_cases hk : k = l
    · subst hk
      exact (d.setLaneSt_laneNow k .up).lane
    · rw [(d.setLaneSt_laneNow l .up).others k hk, h]

theorem Dev.lanesUp_up {lanes : List Nat} {k : Nat} (hk : k ∈ lanes) (d : Dev) : ((d.lanesUp lanes).lane k).st = .up := by
  induction lanes generalizing d with
  | nil => cases hk
  | cons l ls ih =>
    obtain rfl | hk := List.mem_cons.mp hk
    · exact Dev.lanesUp_still (d := d.setLaneSt k .up) (d.setLaneSt_laneNow k .up).lane
    · exact ih hk _

/-! ## A group reaches UP -/

theorem Dev.path_creditRestart (d : Dev) (g p : Nat) : ((d.creditRestart g p).path g p).st = (d.path g p).st := by
  unfold Dev.creditRestart
  rw [Dev.path_sendCredit, Dev.path_onPath]

theorem Dev.pathUp_serves (d : Dev) (g p : Nat) : ((d.pathUp g p).path g p).st ≠ .down := by
  unfold Dev.pathUp Dev.when
  extract_lets x st e
  have serves : (e.path g p).st ≠ .down := by
    unfold e
    rw [Dev.path_setPathSt]
    show st ≠ .down
    unfold st
    split <;> decide
  split <;> split <;> simpa [Dev.path_creditRestart] using serves

/-! ## An AM of a frame lane -/

/-- The least arrival of several AMs. -/
def firstAm (ams : List AmBlock) : Nat := (ams.map (·.ns)).foldl min ((ams.map (·.ns)).headD 0)

/-- The skew of a group's lanes shows. -/
def Dev.groupSkewShown (d : Dev) (bond p : Nat) (ams : List AmBlock) : Dev :=
  d.skewShown (bondLanes bond p) (fun l => F.ingLaneStat_skew (l / 16) (l % 16)) fun _ a => min 255 (blocksIn (bitsOf bond 7 6) (a.ns - firstAm ams))

theorem Dev.groupSkewShown_lanesMove (d : Dev) (bond p : Nat) (ams : List AmBlock) : d.LanesMove (d.groupSkewShown bond p ams) :=
  .skewShown (fun _ => ⟨rfl, rfl, rfl⟩) d _ _

theorem Dev.groupUp_congr {d e : Dev} (h : ∀ k, (e.lane k).st = (d.lane k).st) (bond p : Nat) : e.groupUp bond p = d.groupUp bond p := by
  unfold Dev.groupUp
  simp only [h]

/-- A group whose AMs stand within the skew limit, its lanes LOCKED or UP but not all UP, comes up. -/
theorem Dev.judgeGroup_up {d : Dev} {g p bond : Nat} {ams : List AmBlock} (hb : d.bond g = bond)
    (ha : d.groupAms (d.stream g).epoch bond p = some ams) (hs : amSkew ams ≤ 160)
    (hr : ∀ k ∈ bondLanes bond p, (d.lane k).st = .locked ∨ (d.lane k).st = .up) (hu : d.groupUp bond p = false)
    (hi : d.injected (Pg.ingStr g) Er.ingStr_skew = false) :
    d.judgeGroup g p bond = ((d.groupSkewShown bond p ams).lanesUp (bondLanes bond p)).pathUp g p := by
  have moved := d.groupSkewShown_lanesMove bond p ams
  have up := moved.trans (.lanesUp _ (bondLanes bond p))
  unfold Dev.judgeGroup
  extract_lets lanes ready
  rw [ha]
  dsimp -zeta only
  extract_lets first shown allUp made was raised missed
  have isReady : ready = true := by simpa [ready, List.all_eq_true] using hr
  have notUp : allUp = false := (Dev.groupUp_congr (fun k => congrArg Lane.st (d.lane_skewShown _ _ _ k)) bond p).trans hu
  have unmade : made = false := (congrArg (fun q : Plat => q.armed.contains (pageOf (Pg.ingStr g), Er.ingStr_skew)) moved.plat).trans hi
  have inForce : bond = (shown.lanesUp lanes).bond g := hb.symm.trans (Dev.bond_congr up.force g).symm
  rw [if_neg (by simp [isReady, notUp]), if_pos ⟨hs, .inr (by rw [unmade]; rfl)⟩]
  exact if_neg (not_or.mpr ⟨by rw [show was = false from notUp]; decide, not_not.mpr inForce⟩)

theorem Dev.flAm_locked {d : Dev} {l g p bond : Nat} {am : AmBlock} (hl : (d.lane l).st = .locked) (hg : d.groupsOf l = [(g, p, bond)]) :
    d.flAm l am = (((d.badHeaders l am.bad).onLane l fun x => { x with am := some am }).wr (F.ingLaneStat_epoch (l / 16) (l % 16))
      am.epoch).judgeGroup g p bond := by
  have same := ((d.badHeaders_sameGroups l am.bad).trans (.onLane _ l fun x => { x with am := some am })).trans
    (.wr (f := F.ingLaneStat_epoch (l / 16) (l % 16)) rfl _ am.epoch)
  unfold Dev.flAm
  extract_lets b st taken
  have locked : st = .locked := (congrArg Lane.st (d.lane_badHeaders l am.bad l)).trans hl
  rw [if_neg (by simp [locked]), same.groupsOf l, hg]
  rfl

/-! ## An AM of a head link's lane -/

/-- The skew of a head link's lanes shows. -/
def Dev.headSkewShown (d : Dev) (n : Nat) (lanes : List Nat) (ams : List AmBlock) : Dev :=
  d.skewShown lanes (fun k => F.hlLaneStat_skew n (k - 64 - 4 * n)) fun d a => min 255 (blocksIn (if d.ad8 n then 0 else 1) (a.ns - firstAm ams))

theorem Dev.headSkewShown_lanesMove (d : Dev) (n : Nat) (lanes : List Nat) (ams : List AmBlock) : d.LanesMove (d.headSkewShown n lanes ams) :=
  .skewShown (fun _ => ⟨rfl, rfl, rfl⟩) d _ _

/-- An AM taken on a lane leaves every lane's state. -/
theorem Dev.laneSt_onLane_am (d : Dev) (l k : Nat) (am : AmBlock) : ((d.onLane l fun x => { x with am := some am }).lane k).st = (d.lane k).st := by
  by_cases h : k = l
  · subst h
    rw [Dev.lane_onLane]
  · rw [Dev.lane_onLane_other h]

theorem Dev.headAm_up {d : Dev} {l : Nat} {am : AmBlock} {ams : List AmBlock} (hl : (d.lane l).st = .locked)
    (ha : (d.onLane l fun x => { x with am := some am }).headAms ((l - 64) / 4) = some ams) (hs : amSkew ams ≤ 160)
    (hr : ∀ k ∈ d.headLanes ((l - 64) / 4), (d.lane k).st = .locked ∨ (d.lane k).st = .up) :
    d.headAm l am = ((d.onLane l fun x => { x with am := some am }).headSkewShown ((l - 64) / 4) (d.headLanes ((l - 64) / 4)) ams).lanesUp
      (d.headLanes ((l - 64) / 4)) := by
  unfold Dev.headAm
  extract_lets n taken lanes
  rw [if_neg (by simp [hl]), ha]
  dsimp -zeta only
  extract_lets first shown ready
  have lane (k : Nat) : (shown.lane k).st = (d.lane k).st := (congrArg Lane.st (taken.lane_skewShown _ _ _ k)).trans (d.laneSt_onLane_am l k am)
  have isReady : ready = true := by
    unfold ready
    simp only [List.all_eq_true, Bool.or_eq_true, decide_eq_true_eq, lane]
    exact hr
  exact if_pos (by rw [isReady, decide_eq_true hs]; rfl)

/-! ## The events of lanes as commands -/

section
variable {s : State} {Q : Dev → Prop} {l bad : Nat}

theorem completes_laneCdrLock (h : Q (s.dev.cdrLock l)) : completes (.laneCdrLock l) s Q := ⟨_, rfl, h⟩

theorem completes_laneSyncLock (h : Q (s.dev.syncLock l bad)) : completes (.laneSyncLock ⟨l, bad⟩) s Q := ⟨_, rfl, h⟩

theorem completes_laneLost (h : Q (s.dev.laneLostAt l bad)) : completes (.laneLost ⟨l, bad⟩) s Q := ⟨_, rfl, h⟩

theorem completes_laneSignalLoss (h : Q (s.dev.laneSilent l bad)) : completes (.laneSignalLoss ⟨l, bad⟩) s Q := ⟨_, rfl, h⟩

theorem completes_amReceived_frame {am : AmBlock} (hl : l < 64) (h : Q (s.dev.flAm l am)) : completes (.amReceived l am) s Q :=
  ⟨_, rfl, by beta_reduce; rwa [if_pos hl]⟩

theorem completes_amReceived_head {am : AmBlock} (hl : 64 ≤ l) (hl' : l < 80) (h : Q (s.dev.headAm l am)) : completes (.amReceived l am) s Q :=
  ⟨_, rfl, by beta_reduce; rwa [if_neg (by omega), laneOk, if_pos (decide_eq_true hl')]⟩

end

section
variable {d : Dev} {l : Nat} (hl : l < 64) (bad : Nat)
include hl

theorem Dev.laneLostAt_up (hu : (d.lane l).st = .up) : d.laneLostAt l bad = ((d.badHeaders l bad).setLaneSt l .locking).lanesDown l := by
  rw [Dev.laneLostAt, if_pos hl, Dev.flLost]
  exact if_neg (by simp [Dev.lane_badHeaders, hu])

theorem Dev.laneSilent_up (hu : (d.lane l).st = .up) : d.laneSilent l bad = ((d.badHeaders l bad).setLaneSt l .detect).lanesDown l := by
  rw [Dev.laneSilent, if_pos hl, Dev.flSignalLoss]
  simp only [Dev.lane_badHeaders, hu]

theorem Dev.laneSilent_training (hu : (d.lane l).st = .locking ∨ (d.lane l).st = .locked) :
    d.laneSilent l bad = (d.badHeaders l bad).setLaneSt l .detect := by
  rw [Dev.laneSilent, if_pos hl, Dev.flSignalLoss]
  rcases hu with hu | hu <;> simp only [Dev.lane_badHeaders, hu]

end

section
variable {d : Dev} {l : Nat} (hl : 64 ≤ l) (hl' : l < 80) (hu : (d.lane l).st = .up)
include hl hl' hu

/-- A head link whose lane leaves UP is lost, where it was up. -/
theorem Dev.laneLostAt_head (bad : Nat) : d.laneLostAt l bad =
    if d.headUp ((l - 64) / 4) then (d.setLaneSt l .locking).headLost ((l - 64) / 4) else d.setLaneSt l .locking := by
  rw [Dev.laneLostAt, if_neg (by omega)]
  exact if_pos (by simp [laneOk, hl', hu])

theorem Dev.laneSilent_head (bad : Nat) : d.laneSilent l bad =
    if d.headUp ((l - 64) / 4) then (d.setLaneSt l .detect).headLost ((l - 64) / 4) else d.setLaneSt l .detect := by
  rw [Dev.laneSilent, if_neg (by omega), if_neg (by simp [laneOk, hl']), hu]
  rfl

end

theorem Dev.cdrLock_detect {d : Dev} {l : Nat} (hl : l < 80) (hd : (d.lane l).st = .detect) : d.cdrLock l = d.setLaneSt l .locking :=
  if_pos (by simp [laneOk, hl, hd])

theorem Dev.syncLock_locking {d : Dev} {l : Nat} (hl : l < 80) (hd : (d.lane l).st = .locking) (bad : Nat) :
    d.syncLock l bad = (d.badHeaders l bad).setLaneSt l .locked :=
  if_pos (by simp [laneOk, hl, Dev.lane_badHeaders, hd])

/-- Settles O19: each event moves its lane alone, an exit from UP is followed by its streams' errors and their paths' fall, and the AM that
completes a group within the skew limit brings its lanes and its path up. -/
theorem lanesComeUp : Obligations.LanesComeUp := by
  unfold Obligations.LanesComeUp
  refine ⟨fun s l bad hl80 => ?events, fun s l g p am ams hl => ?frame, fun s l am ams hl hl80 => ?head⟩
  case events =>
    have took (st : LaneSt) := (s.dev.setLaneSt_badHeaders l bad st).shows
    have same (st : LaneSt) := (s.dev.badHeaders_sameGroups l bad).trans (Dev.setLaneSt_sameGroups _ l st)
    have heard (st : LaneSt) (hl : l < 64) := s.dev.rd_syncErr_setLaneSt hl bad st
    refine ⟨fun hd => ?_, fun hd => ?_, fun hd hl => ?_, fun hu hl => ⟨?_, ?_, fun g hg => ?_⟩, fun hu hl => ⟨?_, ?_⟩, fun g p hu hl hg hp => ?_⟩
    · exact completes_laneCdrLock (Dev.cdrLock_detect hl80 hd ▸ (s.dev.setLaneSt_laneNow l .locking).shows)
    · exact completes_laneSyncLock (Dev.syncLock_locking hl80 hd bad ▸ ⟨took .locked, heard .locked⟩)
    · exact completes_laneSignalLoss (Dev.laneSilent_training hl bad hd ▸ ⟨took .detect, heard .detect⟩)
    · exact completes_laneLost ⟨_, took .locking, heard .locking, Dev.rd_lockLoss_setLaneSt hl hu bad (by decide), Dev.laneLostAt_up hl bad hu⟩
    · exact completes_laneSignalLoss ⟨_, took .detect, heard .detect, Dev.rd_lockLoss_setLaneSt hl hu bad (by decide), Dev.laneSilent_up hl bad hu⟩
    · refine completes_laneLost (Dev.laneLostAt_up hl bad hu ▸ Dev.lanesDown_errorShows ?_)
      rwa [(same .locking).streamsAt]
    · exact completes_laneLost ⟨_, (s.dev.setLaneSt_laneNow l .locking).shows, Dev.laneLostAt_head hl hl80 hu bad⟩
    · exact completes_laneSignalLoss ⟨_, (s.dev.setLaneSt_laneNow l .detect).shows, Dev.laneSilent_head hl hl80 hu bad⟩
    · refine completes_laneLost (Dev.laneLostAt_up hl bad hu ▸ ⟨Dev.lanesDown_path ?_ ?_, Dev.lanesDown_errorShows ?_⟩)
      · rw [(same .locking).groupsOf, hg, (same .locking).bond]
      · rwa [Dev.path, Dev.stream_congr (s.dev.setLaneSt_badHeaders l bad .locking).streams]
      · rw [(same .locking).streamsAt]
        exact Dev.mem_streamsAt_of_groupsOf (by rw [hg]; exact List.mem_singleton_self _)
  case frame =>
    intro d m hst hg ha hs hr hu hi
    have lane (k : Nat) : (m.lane k).st = (d.lane k).st := by
      rw [Dev.lane_wr, Dev.laneSt_onLane_am, Dev.lane_badHeaders]
    have same : d.SameGroups m := ((d.badHeaders_sameGroups l am.bad).trans (.onLane _ l _)).trans (.wr rfl _ _)
    have streams : m.ing.streams = d.ing.streams := by
      rw [Dev.wr_ing, Dev.onLane, Dev.onIng_ing, Dev.badHeaders_ing]
    have plat : m.plat = d.plat := by
      rw [Dev.wr_plat, Dev.onLane, Dev.onIng_plat, Dev.badHeaders_plat]
    have up := (m.groupSkewShown_lanesMove (d.bond g) p ams).trans (.lanesUp _ (bondLanes (d.bond g) p))
    have comes : m.judgeGroup g p (d.bond g) = _ :=
      Dev.judgeGroup_up (same.bond g) (by rwa [Dev.stream_congr streams g]) hs (fun k hk => by rw [lane k]; exact hr k hk)
        ((Dev.groupUp_congr lane _ _).trans hu) (by rw [Dev.injected, plat]; exact hi)
    refine completes_amReceived_frame hl ?_
    rw [Dev.flAm_locked hst hg, comes]
    refine ⟨Dev.pathUp_serves _ g p, _, fun k hk => Dev.lanesUp_up hk _, ?_, up.plat.trans plat, up.streams.trans streams, rfl⟩
    obtain ⟨hok, hlo, hhi⟩ : (F.ingLaneStat_epoch (l / 16) (l % 16)).ok ∧ 2 < (F.ingLaneStat_epoch (l / 16) (l % 16)).lo ∧
        (F.ingLaneStat_epoch (l / 16) (l % 16)).hi < 24 := by simp [RegField.ok, F.ingLaneStat_epoch]
    rw [up.rd _ hok hlo hhi, Dev.rd_wr_same _ _ hok]
    rfl
  case head =>
    intro d n hst ha hs hr
    refine completes_amReceived_head hl hl80 ?_
    rw [Dev.headAm_up hst ha hs hr]
    have up := ((d.onLane l fun x => { x with am := some am }).headSkewShown_lanesMove n (d.headLanes n) ams).trans (.lanesUp _ (d.headLanes n))
    exact ⟨fun k hk => Dev.lanesUp_up hk _, up.plat, up.streams⟩

end Sys2Proof.Machine
end

section
/-! The checks of a Pod, and accepted Pods (R70, R71, R75, R80). -/
namespace Sys2Proof.Machine
open Sys2Proof

@[simp] theorem Stream.setPath_frames (st : Stream) (p : Nat) (x : Path) : (st.setPath p x).frames = st.frames := by
  unfold Stream.setPath
  split <;> rfl

/-! ## A Pod on a path that is up -/

/-- The Pod's stream serves, and its path is up: the Pod arrives whole. -/
structure Dev.HearsPod (d : Dev) (pod : PodArrival) : Prop where
  up : (d.path pod.stream pod.path).st ≠ .down
  on : d.streamOn pod.stream = true
  unclosed : d.closed (Pg.ingStr pod.stream) = false
  unfenced : d.regionFenced 3 = false

/-- A Pod of more than 4 blocks has consumed one credit. -/
def Dev.podTaken (d : Dev) (pod : PodArrival) : Dev :=
  d.when (decide (32 < pod.bytes.length)) (·.onPath pod.stream pod.path fun x => { x with consumed := x.consumed + 1 })

/-- The counter of ING_STR_CNT and the error of an outcome that discards its Pod (R70). -/
def PodOut.discards : PodOut → Option (Nat × Option Nat)
  | .hdrCrc => some (1, some Er.ingStr_hdrCrc)
  | .format => some (3, some Er.ingStr_format)
  | .overrun => some (4, some Er.ingStr_overrun)
  | .payCrc => some (2, some Er.ingStr_payCrc)
  | .late => some (5, some Er.ingStr_late)
  | .dup => some (6, none)
  | .pair | .accept => none

theorem PodOut.discards_lt {out : PodOut} {cnt : Nat} {bit : Option Nat} (h : out.discards = some (cnt, bit)) :
    cnt < 13 ∧ ∀ b, bit = some b → b < 32 := by
  cases out <;> cases h <;> exact ⟨by decide, by decide⟩

section
variable {d : Dev} {pod : PodArrival} (hears : d.HearsPod pod)
include hears

theorem Dev.podReceived_discarded {cnt : Nat} {bit : Option Nat} (h : (d.judgePod pod (podHdr pod.bytes)).discards = some (cnt, bit)) :
    d.podReceived pod = (d.podTaken pod).discardPod pod cnt bit := by
  obtain ⟨up, on, unclosed, unfenced⟩ := hears
  unfold Dev.podReceived
  rw [if_neg (by simp [up, on, unclosed, unfenced])]
  extract_lets hdr out old taken
  change out.discards = _ at h
  clear_value out
  cases out <;> simp only [PodOut.discards, Option.some.injEq, Prod.mk.injEq, reduceCtorEq] at h <;> obtain ⟨rfl, rfl⟩ := h <;> rfl

theorem Dev.podReceived_idle (h : d.judgePod pod (podHdr pod.bytes) = .accept) (hd : (podHdr pod.bytes).isData = false) :
    d.podReceived pod = (d.podTaken pod).acceptPod pod (podHdr pod.bytes) 0 := by
  obtain ⟨up, on, unclosed, unfenced⟩ := hears
  unfold Dev.podReceived
  rw [if_neg (by simp [up, on, unclosed, unfenced])]
  extract_lets hdr out old taken
  have accepted : out = .accept := h
  rw [accepted]
  exact if_neg (by simp [hdr, hd])

theorem Dev.podReceived_data {f : FrameRec} (h : d.judgePod pod (podHdr pod.bytes) = .accept) (hd : (podHdr pod.bytes).isData = true)
    (hf : ((d.podTaken pod).openFrames pod.stream).find? (·.frame == (podHdr pod.bytes).frame) = some f) :
    d.podReceived pod = (d.podTaken pod).acceptPod pod (podHdr pod.bytes) f.pn := by
  obtain ⟨up, on, unclosed, unfenced⟩ := hears
  have known (instant : Nat) : (d.podTaken pod).frameFor pod.stream (podHdr pod.bytes) instant = (some f.pn, d.podTaken pod) := by
    rw [Dev.frameFor, hf]
  unfold Dev.podReceived
  rw [if_neg (by simp [up, on, unclosed, unfenced])]
  extract_lets hdr out old taken
  have accepted : out = .accept := h
  rw [accepted]
  dsimp only
  rw [if_pos hd, show taken.frameFor pod.stream hdr _ = _ from known _]

end

/-! ## A discarded Pod -/

/-- A discarded Pod counts and raises its error. -/
def Dev.podCounted (d : Dev) (g cnt : Nat) (bit : Option Nat) : Dev :=
  match bit with
  | some b => ((d.count (F.ingStrCnt g cnt)).takeInjected (Pg.ingStr g) b).raise (Pg.ingStr g) b
  | none => d.count (F.ingStrCnt g cnt)

theorem Dev.discardPod_eq (d : Dev) (pod : PodArrival) (cnt : Nat) (bit : Option Nat) : d.discardPod pod cnt bit =
    if decide (32 < pod.bytes.length) = true then (d.podCounted pod.stream cnt bit).returnCredit pod.stream pod.path
    else d.podCounted pod.stream cnt bit := by
  cases bit <;> rfl

theorem ingStrCnt_ok (g i : Nat) : (F.ingStrCnt g i).ok := by simp [RegField.ok, F.ingStrCnt]

/-- The counters of a stream lie beyond its page's header, in ING's region or above. -/
theorem ingStrCnt_steady (g : Nat) {i : Nat} (hi : i < 13) : (F.ingStrCnt g i).steady := by
  simp only [RegField.steady, F.ingStrCnt]
  omega

theorem ingStrCnt_addr_ne (g : Nat) {i k : Nat} (h : i ≠ k) : (F.ingStrCnt g i).addr ≠ (F.ingStrCnt g k).addr := by
  simp only [F.ingStrCnt]
  omega

theorem Dev.podCounted_shows (d : Dev) (g : Nat) {cnt : Nat} {bit : Option Nat} (hc : cnt < 13) (hb : ∀ b, bit = some b → b < 32) :
    (d.podCounted g cnt bit).rd (F.ingStrCnt g cnt) = satInc 32 (d.rd (F.ingStrCnt g cnt)) ∧
      (∀ k, k < 13 → k ≠ cnt → (d.podCounted g cnt bit).rd (F.ingStrCnt g k) = d.rd (F.ingStrCnt g k)) ∧
      (∀ b, bit = some b → (d.podCounted g cnt bit).errorShows (Pg.ingStr g) b) ∧ (d.podCounted g cnt bit).ing = d.ing ∧
      (d.podCounted g cnt bit).cst = d.cst := by
  have counted : (d.count (F.ingStrCnt g cnt)).rd (F.ingStrCnt g cnt) = satInc 32 (d.rd (F.ingStrCnt g cnt)) := d.rd_count _ (ingStrCnt_ok g cnt)
  have other (k : Nat) (hk : k ≠ cnt) : (d.count (F.ingStrCnt g cnt)).rd (F.ingStrCnt g k) = d.rd (F.ingStrCnt g k) :=
    d.rd_wr_other _ _ _ (ingStrCnt_addr_ne g hk)
  cases bit with
  | none => exact ⟨counted, fun k _ => other k, (fun b h => by cases h), d.wr_ing _ _, d.wr_cst _ _⟩
  | some b =>
    refine ⟨?_, fun k hk hne => ?_, fun _ h => ?_, ?_, ?_⟩
    · exact (Dev.rd_raise (ingStrCnt_steady g hc) _ _ _).trans counted
    · exact (Dev.rd_raise (ingStrCnt_steady g hk) _ _ _).trans (other k hne)
    · cases h
      exact Dev.raise_errorShows _ _ _ (hb b rfl)
    · exact (Dev.raise_ing _ _ _ _).trans (d.wr_ing _ _)
    · exact (Dev.raise_cst _ _ _ _).trans (d.wr_cst _ _)

/-- The chip's registers and records outside ING stand as they were when a credit is consumed. -/
theorem Dev.rd_podTaken (d : Dev) (pod : PodArrival) (f : RegField) : (d.podTaken pod).rd f = d.rd f := by
  obtain h | h := d.when_eq_or (decide (32 < pod.bytes.length)) (·.onPath pod.stream pod.path fun x => { x with consumed := x.consumed + 1 })
  · rw [Dev.podTaken, h]
  · rw [Dev.podTaken, h]
    rfl

theorem Dev.podTaken_cst (d : Dev) (pod : PodArrival) : (d.podTaken pod).cst = d.cst := by
  obtain h | h := d.when_eq_or (decide (32 < pod.bytes.length)) (·.onPath pod.stream pod.path fun x => { x with consumed := x.consumed + 1 })
  · rw [Dev.podTaken, h]
  · rw [Dev.podTaken, h]
    rfl

/-! ## The checks in their order -/

/-- What the record of a Pod's SEQ makes of a Pod that passes the checks of its bytes, its credit and its age (R70, R76). -/
def Dev.recordOut (d : Dev) (pod : PodArrival) (h : PodHdr) : PodOut :=
  match (d.stream pod.stream).pods.find? (·.seq == h.seq) with
  | some r => if bondDual (d.bond pod.stream) = true ∧ r.path ≠ pod.path then .pair else .dup
  | none => if h.ty = 1 ∧ d.chunkOk pod.stream h = false then .format else .accept

section
variable {d : Dev} {pod : PodArrival} (hi : ∀ b, d.injected (Pg.ingStr pod.stream) b = false)
include hi

theorem Dev.judgePod_eq : d.judgePod pod (podHdr pod.bytes) =
    (let h := podHdr pod.bytes
     let g := pod.stream
     if h.crcOk = false ∨ pod.bytes.length < 32 then .hdrCrc
     else if podFormatOk h pod.bytes g = false ∨ d.epochOk g pod.epoch = false then .format
     else if 32 < pod.bytes.length ∧ (d.path g pod.path).granted ≤ (d.path g pod.path).consumed then .overrun
     else if 0 < h.length ∧ crc32c (slice pod.bytes 32 h.length) ≠ fieldAt pod.bytes (32 + h.length) 4 then .payCrc
     else if (d.stream g).tooOld h.seq = true ∨ (h.ty = 1 ∧ (d.stream g).closed.contains h.frame = true) then .late
     else d.recordOut pod h) := by
  have trailer : (decide (0 < (podHdr pod.bytes).length) && crc32c (slice pod.bytes 32 (podHdr pod.bytes).length) !=
        podTrailer (podHdr pod.bytes) pod.bytes) = decide (0 < (podHdr pod.bytes).length ∧
        crc32c (slice pod.bytes 32 (podHdr pod.bytes).length) ≠ fieldAt pod.bytes (32 + (podHdr pod.bytes).length) 4) := by
    by_cases h : (podHdr pod.bytes).length = 0
    · simp [h]
    · simp [podTrailer, h, Nat.pos_of_ne_zero h, bne, Bool.beq_eq_decide_eq]
  unfold Dev.judgePod
  simp only [hi, trailer, Bool.or_false, Bool.or_eq_true, Bool.and_eq_true, Bool.not_eq_true', decide_eq_true_eq, PodHdr.isData,
    beq_iff_eq, bne_iff_ne, Dev.recordOut] <;> rfl

end

theorem Dev.recordOut_dup {d : Dev} {pod : PodArrival} {h : PodHdr} {r : PodRec} (hr : (d.stream pod.stream).pods.find? (·.seq == h.seq) = some r)
    (hs : bondDual (d.bond pod.stream) = false ∨ r.path = pod.path) : d.recordOut pod h = .dup := by
  unfold Dev.recordOut
  rw [hr]
  refine if_neg fun ⟨hdual, hpath⟩ => ?_
  rcases hs with hs | hs
  · simp [hs] at hdual
  · exact hpath hs

theorem Dev.recordOut_format {d : Dev} {pod : PodArrival} {h : PodHdr} (hr : (d.stream pod.stream).pods.find? (·.seq == h.seq) = none)
    (ht : h.ty = 1) (hc : d.chunkOk pod.stream h = false) : d.recordOut pod h = .format := by
  unfold Dev.recordOut
  rw [hr]
  exact if_pos ⟨ht, hc⟩

/-! ## An accepted Pod -/

/-- A header alone that is no TRIGGER Pod, on a stream that had no Pod: only the window moves, and the Pod's record enters it. -/
theorem Dev.acceptPod_first {d : Dev} {pod : PodArrival} {h : PodHdr} (pn : Nat) (hd : h.isData = false) (ht : h.ty ≠ 2)
    (hn : (d.stream pod.stream).newest = none) : d.acceptPod pod h pn =
      ((d.count (F.ingStrCnt pod.stream 0)).slideWindow pod.stream h.seq).onStream pod.stream fun st => { st with pods := st.pods ++
        [⟨h.seq, h.frame, h.offset, h.length, setBit h.flags 4 false, podTrailer h pod.bytes, pod.path,
          ((d.count (F.ingStrCnt pod.stream 0)).slideWindow pod.stream h.seq).now,
          bondDual (((d.count (F.ingStrCnt pod.stream 0)).slideWindow pod.stream h.seq).bond pod.stream), false, pn⟩] } := by
  have newer : ((d.count (F.ingStrCnt pod.stream 0)).stream pod.stream).newest = none := by rw [Dev.count, Dev.stream_wr, hn]
  unfold Dev.acceptPod
  simp [newer, hd, ht, Dev.when]

/-- A window without records slides: nothing leaves it. -/
theorem Dev.slideWindow_empty {d : Dev} {g : Nat} (hp : (d.stream g).pods = []) (n : Nat) :
    ∃ f : Stream → Stream, d.slideWindow g n = d.onStream g f ∧
    (f (d.stream g)).newest = some n ∧ (f (d.stream g)).pods = [] ∧ (f (d.stream g)).frames = (d.stream g).frames := by
  unfold Dev.slideWindow
  simp only [hp, List.filter_nil, List.foldl_nil]
  exact ⟨_, rfl, rfl, by simp [hp], rfl⟩

theorem Dev.acceptPod_first_shows {d : Dev} {pod : PodArrival} {h : PodHdr} (pn : Nat) (hd : h.isData = false) (ht : h.ty ≠ 2)
    (hn : (d.stream pod.stream).newest = none) (hp : (d.stream pod.stream).pods = []) :
    let e := d.acceptPod pod h pn
    e.rd (F.ingStrCnt pod.stream 0) = satInc 32 (d.rd (F.ingStrCnt pod.stream 0)) ∧ (e.stream pod.stream).newest = some h.seq ∧
      (e.stream pod.stream).frames = (d.stream pod.stream).frames ∧ (∀ k, k ≠ pod.stream → e.stream k = d.stream k) ∧
      (e.stream pod.stream).pods = [⟨h.seq, h.frame, h.offset, h.length, setBit h.flags 4 false, podTrailer h pod.bytes, pod.path, d.now,
        bondDual (d.bond pod.stream), false, pn⟩] ∧ e.cst = d.cst ∧ e.plat = d.plat ∧ e.mram = d.mram := by
  intro e
  have stream : (d.count (F.ingStrCnt pod.stream 0)).stream pod.stream = d.stream pod.stream := d.stream_wr _ _ _
  obtain ⟨f, slid, newest, pods, frames⟩ := Dev.slideWindow_empty (d := d.count (F.ingStrCnt pod.stream 0)) (stream ▸ hp) h.seq
  rw [stream] at newest pods frames
  have made : e = _ := Dev.acceptPod_first pn hd ht hn
  rw [slid] at made
  have plat : (d.count (F.ingStrCnt pod.stream 0)).plat = d.plat := d.wr_plat _ _
  have bond : (d.count (F.ingStrCnt pod.stream 0)).bond pod.stream = d.bond pod.stream := Dev.bond_congr (Dev.wr_force rfl _ _) _
  rw [made]
  refine ⟨d.rd_count _ (ingStrCnt_ok _ _), ?_, ?_, fun k hk => ?_, ?_, d.wr_cst _ _, plat, d.wr_mram _ _⟩
  · rw [Dev.stream_onStream, Dev.stream_onStream, stream]
    exact newest
  · rw [Dev.stream_onStream, Dev.stream_onStream, stream]
    exact frames
  · rw [Dev.stream_onStream_other hk, Dev.stream_onStream_other hk]
    exact d.stream_wr _ _ _
  · rw [Dev.stream_onStream, Dev.stream_onStream, stream]
    simp only [pods, List.nil_append, Dev.now, Dev.onStream, Dev.onIng_plat, plat]
    rw [← bond]
    rfl

theorem completes_podReceived {s : State} {pod : PodArrival} {Q : Dev → Prop} (h : Q (s.dev.podReceived pod)) : completes (.podReceived pod) s Q :=
  ⟨_, rfl, h⟩

/-- Settles O20: the first check that a Pod fails is its outcome, which discards it; an accepted Pod is taken up. -/
theorem podsChecked : Obligations.PodsChecked := by
  unfold Obligations.PodsChecked
  refine ⟨fun s pod => ?discarded, fun s pod => ?accepted⟩
  case discarded =>
    intro d g h long taken gone up on unclosed unfenced hi
    have hears : d.HearsPod pod := ⟨up, on, unclosed, unfenced⟩
    have goes {cnt : Nat} {bit : Option Nat} (h : (d.judgePod pod (podHdr pod.bytes)).discards = some (cnt, bit)) :
        gone cnt bit := by
      obtain ⟨hc, hb⟩ := PodOut.discards_lt h
      obtain ⟨counted, other, shows, ing, cst⟩ := (d.podTaken pod).podCounted_shows g hc hb
      refine completes_podReceived ⟨(d.podTaken pod).podCounted g cnt bit, ?_, ?_, shows, ing, cst.trans (d.podTaken_cst pod), ?_⟩
      · rw [counted, Dev.rd_podTaken]
      · intro k hk hne
        rw [other k hk hne, Dev.rd_podTaken]
      · rw [Dev.podReceived_discarded hears h, Dev.discardPod_eq]
    have judged := Dev.judgePod_eq hi
    dsimp only at judged
    refine ⟨fun hcrc => ?_, fun hcrc hlen => ?_⟩
    · exact goes (by rw [judged, if_pos hcrc]; rfl)
    rw [if_neg (not_or.mpr ⟨ne_false_of_eq_true hcrc, Nat.not_lt.mpr hlen⟩)] at judged
    refine ⟨fun hfmt => ?_, fun hfmt hepoch => ?_⟩
    · exact goes (by rw [judged, if_pos hfmt]; rfl)
    rw [if_neg (not_or.mpr ⟨ne_false_of_eq_true hfmt, ne_false_of_eq_true hepoch⟩)] at judged
    refine ⟨fun hlong hcredit => ?_, fun hcredit => ?_⟩
    · exact goes (by rw [judged, if_pos ⟨of_decide_eq_true hlong, hcredit⟩]; rfl)
    rw [if_neg (fun ⟨hlong, hspent⟩ => hcredit.elim (ne_false_of_eq_true (decide_eq_true hlong)) (Nat.not_lt.mpr hspent))] at judged
    refine ⟨fun hpos hpay => ?_, fun hpay => ?_⟩
    · exact goes (by rw [judged, if_pos ⟨hpos, hpay⟩]; rfl)
    rw [if_neg (fun ⟨hpos, hne⟩ => hpay.elim (Nat.ne_of_gt hpos) hne)] at judged
    refine ⟨fun hlate => ?_, fun hold hopen => ?_⟩
    · exact goes (by rw [judged, if_pos hlate]; rfl)
    rw [if_neg (fun hlate => hlate.elim (ne_true_of_eq_false hold) hopen)] at judged
    refine ⟨fun r hr hs => ?_, fun hr ht hc => ?_⟩
    · exact goes (by rw [judged, Dev.recordOut_dup hr hs]; rfl)
    · exact goes (by rw [judged, Dev.recordOut_format hr ht hc]; rfl)
  case accepted =>
    intro d g h up on unclosed unfenced accept
    have hears : d.HearsPod pod := ⟨up, on, unclosed, unfenced⟩
    refine ⟨fun ht hz hlen hn hp => ?_, fun f ht hlen hbig hf => ?_⟩
    · have short : d.podTaken pod = d := by simp [Dev.podTaken, hlen, Dev.when]
      have trailer : podTrailer h pod.bytes = 0 := by simp [podTrailer, hz]
      have shows := Dev.acceptPod_first_shows (d := d) (pod := pod) (h := h) 0 (by simp [PodHdr.isData, ht]) (by simp [ht]) hn hp
      refine completes_podReceived ?_
      rw [Dev.podReceived_idle hears accept (by simp [PodHdr.isData, ht, h]), short]
      simpa only [trailer, hz] using shows
    · have long : d.podTaken pod = d.onPath g pod.path fun x => { x with consumed := x.consumed + 1 } := by
        rw [Dev.podTaken, decide_eq_true (by omega)]
        rfl
      have still : (d.podTaken pod).openFrames g = d.openFrames g := by
        obtain h | h : d.podTaken pod = d ∨ d.podTaken pod = d.onPath pod.stream pod.path _ := d.when_eq_or _ _ <;> rw [h]
        rw [Dev.openFrames, Dev.onPath, Dev.stream_onStream, Stream.setPath_frames, Dev.openFrames]
      refine completes_podReceived ?_
      rw [Dev.podReceived_data hears accept (by simp [PodHdr.isData, ht, h]) (by rw [still]; exact hf), long]

end Sys2Proof.Machine
end

section
/-! The drain of a frame (R94, R97, R101, R102, R182). -/
namespace Sys2Proof.Machine
open Sys2Proof

/-! ## The start -/

/-- A codec that meets a Hollow line says so. -/
def Dev.hollowMet (d : Dev) (g : Nat) (f : FrameRec) (holes : List Nat) : Dev :=
  d.when (d.codecHollow g f holes) fun d =>
    ((d.takeInjected (Pg.ingStr g) Er.ingStr_codecHollow).count (F.ingProcCnt 2)).raise (Pg.ingStr g) Er.ingStr_codecHollow f.pn

/-- The engines count the slices of a job and show what they work on. -/
def Dev.enginesShown (d : Dev) (g : Nat) (f : FrameRec) (bytes : List Byte) (j : DrainJob) : Dev :=
  let sl := d.slices g (bytes.take f.size) j.codec
  let d := if d.flag (F.ingStrCodec_codec g) then
      (d.countN (F.ingProcCnt 0) (sl.filter (·.1)).length).countN (F.ingProcCnt 1) (sl.filter (fun x => !x.1)).length
    else d
  let d := d.when j.hashed (·.count (F.ingProcCnt 3))
  (d.wr F.ingProcBusy_codec (lowBits d.codecsOut 16 (if j.codec then j.slices else 0))).wr
    F.ingProcBusy_sha (lowBits d.shasOut 8 (b2n j.hashed))

/-- A job stands with its stream, which drains its frame. -/
def Dev.jobTaken (d : Dev) (g pn : Nat) (j : DrainJob) : Dev :=
  ((d.onFrame g pn fun f => { f with hollow := f.hollow || j.marked }).onStream g fun st => { st with draining := some pn }).onIng fun i =>
    { i with drains := i.drains ++ [j] }

theorem Dev.drainStart_eq {d m : Dev} {g : Nat} {f : FrameRec} {bytes : List Byte} {holes : List Nat} (hr : d.flashReady = true)
    (hg : firstFrom 32 d.ing.robin (fun k => d.mayDrain k) = some g) (hf : d.nextTake g = some f)
    (hb : (d.onIng fun i => { i with robin := (g + 1) % 32 }).readFrame g f = (bytes, holes, m)) :
    d.drainStart = ((m.hollowMet g f holes).enginesShown g f bytes (m.buildStored g f bytes holes)).jobTaken g f.pn
      (m.buildStored g f bytes holes) := by
  unfold Dev.drainStart
  simp only [hr, hg, hf, hb, Bool.not_true, Bool.false_eq_true, if_false]
  rfl

/-- Only registers that lie beyond their page's error register are written: ING's records and the store stand, and so do the errors shown. -/
structure Dev.OnlyShows (d e : Dev) : Prop where
  ing : e.ing = d.ing
  cst : e.cst = d.cst
  errors : ∀ page bit, e.errorShows page bit ↔ d.errorShows page bit

namespace Dev.OnlyShows

variable {d e : Dev}

theorem refl (d : Dev) : d.OnlyShows d := ⟨rfl, rfl, fun _ _ => .rfl⟩

theorem trans {a b c : Dev} (h : a.OnlyShows b) (k : b.OnlyShows c) : a.OnlyShows c :=
  ⟨k.ing.trans h.ing, k.cst.trans h.cst, fun page bit => (k.errors page bit).trans (h.errors page bit)⟩

theorem wr {f : RegField} (h : 256 ≤ f.addr % 4096) (d : Dev) (v : Nat) : d.OnlyShows (d.wr f v) :=
  ⟨d.wr_ing f v, d.wr_cst f v, fun page bit => Dev.errorShows_wr d h v page bit⟩

theorem when {f : Dev → Dev} (hf : ∀ d : Dev, d.OnlyShows (f d)) (d : Dev) (c : Bool) : d.OnlyShows (d.when c f) := by
  unfold Dev.when
  split
  · exact hf d
  · exact refl d

theorem enginesShown (d : Dev) (g : Nat) (f : FrameRec) (bytes : List Byte) (j : DrainJob) : d.OnlyShows (d.enginesShown g f bytes j) := by
  unfold Dev.enginesShown
  extract_lets sl counted hashed
  have slices : d.OnlyShows counted := by
    unfold counted
    split
    · exact (wr (by decide) d _).trans (wr (by decide) _ _)
    · exact refl d
  have engines : counted.OnlyShows hashed := when (fun d => wr (by decide) d _) counted _
  exact ((slices.trans engines).trans (wr (by decide) _ _)).trans (wr (by decide) _ _)

end Dev.OnlyShows

theorem Dev.hollowMet_ing (d : Dev) (g : Nat) (f : FrameRec) (holes : List Nat) : (d.hollowMet g f holes).ing = d.ing := by
  unfold Dev.hollowMet Dev.when
  split
  · exact (Dev.raise_ing _ _ _ _).trans (Dev.wr_ing _ _ _)
  · rfl

theorem Dev.hollowMet_cst (d : Dev) (g : Nat) (f : FrameRec) (holes : List Nat) : (d.hollowMet g f holes).cst = d.cst := by
  unfold Dev.hollowMet Dev.when
  split
  · exact (Dev.raise_cst _ _ _ _).trans (Dev.wr_cst _ _ _)
  · rfl

theorem Dev.hollowMet_errorShows {d : Dev} {g : Nat} {f : FrameRec} {holes : List Nat} (h : d.codecHollow g f holes = true) :
    (d.hollowMet g f holes).errorShows (Pg.ingStr g) Er.ingStr_codecHollow := by
  unfold Dev.hollowMet Dev.when
  rw [if_pos h]
  exact Dev.raise_errorShows _ _ _ (by decide)

theorem Dev.jobTaken_draining (d : Dev) (g pn : Nat) (j : DrainJob) : ((d.jobTaken g pn j).stream g).draining = some pn :=
  congrArg Stream.draining (Dev.stream_onStream (d.onFrame g pn fun f => { f with hollow := f.hollow || j.marked }) g fun st =>
    { st with draining := some pn })

theorem Dev.jobTaken_shows (d : Dev) (g pn : Nat) (j : DrainJob) : (d.jobTaken g pn j).ing.drains = d.ing.drains ++ [j] ∧
    (d.jobTaken g pn j).ing.robin = d.ing.robin ∧ (d.jobTaken g pn j).cst = d.cst ∧
    ∀ page bit, (d.jobTaken g pn j).errorShows page bit ↔ d.errorShows page bit :=
  ⟨rfl, rfl, rfl, fun _ _ => .rfl⟩

/-! ## The end -/

theorem Dev.when_beq (d : Dev) (a b : Nat) (f : Dev → Dev) : d.when (a == b) f = if a = b then f d else d := by
  simp only [Dev.when, beq_iff_eq]

section
variable {d : Dev} {g pn : Nat} {f : FrameRec} {j : DrainJob} (hj : d.ing.drains.find? (fun j => j.stream == g && j.pn == pn) = some j)
  (hf : d.frameOf g pn = some f)
include hj hf

/-- A frame for which its volume has no room, of index entries or of bytes, waits. -/
theorem Dev.drainEnd_waits (hroom : 512 * d.rd (F.sflVolCfg_idx (d.frameVol f)) ≤ Map.get 0 d.sfl.idxNext (d.frameVol f) ∨
      d.rd (F.sflVolSize (d.frameVol f)) * 4096 * 256 <
        d.appendAt (d.frameVol f) (if d.flag (F.ingStrCodec_aes g) then d.rd (F.ingStrCodec_key g) + 1 else 0) + ceilDiv j.stored.length 256) :
    d.drainEnd g pn = if j.full then d else (d.raise (Pg.sflVol (d.frameVol f)) Er.sflVol_volFull (d.frameVol f)).onIng fun i => { i with
      drains := i.drains.map (fun x => if x.stream = g ∧ x.pn = pn then { x with full := true } else x) } := by
  unfold Dev.drainEnd
  rw [hj, hf]
  dsimp -zeta only
  extract_lets v enc key at_ idx len full
  exact if_pos (by simpa only [full, Bool.or_eq_true, decide_eq_true_eq] using hroom.symm)

/-- A frame for which there is room is appended with its entry, and its job is done. -/
theorem Dev.drainEnd_appends {old : Delivered} {r : Dev} :
    let v := d.frameVol f
    let idx := Map.get 0 d.sfl.idxNext v
    let key := d.rd (F.ingStrCodec_key g)
    let enc := d.flag (F.ingStrCodec_aes g)
    let to_ := d.appendAt v (if enc then key + 1 else 0)
    let len := ceilDiv j.stored.length 256
    let loc := 2 ^ 63 + v * 2 ^ 56 + to_ % 16 * 2 ^ 52 + to_ / 16
    idx < 512 * d.rd (F.sflVolCfg_idx v) → to_ + len ≤ d.rd (F.sflVolSize v) * 4096 * 256 → d.chainRead g f.start 128 = (old, r) →
    d.drainEnd g pn =
      (let m := (r.volWrite v (256 * to_) j.stored j.hollow enc key g pn).volWrite v (128 * idx) (drainedEntry old.data j enc true loc)
        (if old.hollow then [0] else []) enc key g pn
      let n := ((((m.onSfl fun x => { x with
        append := Map.set 0 x.append v (to_ + len), idxNext := Map.set 0 x.idxNext v (idx + 1),
        encLast := Map.put x.encLast v (if enc then key + 1 else 0) }).journal 10 0 v (to_ + len) (idx + 1)).2.showAppend v).editEntry g f
          fun b => drainedEntry b j enc false loc).onFrame g pn fun y => { y with drained := true, location := loc }
      let last := (((n.wr F.ingProcBusy_codec 0).wr F.ingProcBusy_sha 0).onStream g fun st => { st with draining := none }).onIng fun i =>
        { i with drains := i.drains.filter (fun x => !(x.stream == g && x.pn == pn)) }
      if 512 * last.rd (F.sflVolCfg_idx v) ≤ idx + 1 ∨ last.rd (F.sflVolSize v) * 4096 * 256 ≤ to_ + len
      then last.raise (Pg.sflVol v) Er.sflVol_volFull v else last) := by
  intro v idx key enc to_ len loc hidx hbytes hold
  obtain rfl : old = _ := (congrArg Prod.fst hold).symm
  obtain rfl : r = _ := (congrArg Prod.snd hold).symm
  unfold Dev.drainEnd
  rw [hj, hf]
  exact if_neg (ne_true_of_eq_false (by
    simp only [Bool.or_eq_false_iff, decide_eq_false_iff_not]
    exact ⟨Nat.not_lt.mpr hbytes, Nat.not_le.mpr hidx⟩))

end

/-- A frame whose units are durable carries DURABLE and its volume LOCATION in its entry; its lookup slot and ING_STR_LAST follow where they
name it. -/
theorem Dev.frameDurable_marks {d k : Dev} {g pn : Nat} {f : FrameRec} {slot : Delivered} (hf : d.frameOf g pn = some f)
    (hdrained : f.drained = true) (hdurable : f.durable = false) (hjobs : ∀ j ∈ d.sfl.jobs, j.why ≠ .capture g pn) :
    let m := d.onFrame g pn fun x => { x with durable := true }
    let n := m.editEntry g f fun b => splice (splice b 2 (leBytes 2 (fieldAt b 2 2 ||| 0x400))) 48 (leBytes 8 f.location)
    n.sysRead (lookupAddr g f.pn) 16 = (slot, k) →
    let r := if fieldAt slot.data 4 4 = f.pn then k.writeLookup g f f.location else k
    let w := if r.get64 (F.ingStrLastLo g) (F.ingStrLastHi g) = m.storeLocation g f
      then r.put64 (F.ingStrLastLo g) (F.ingStrLastHi g) f.location else r
    d.frameDurable g pn = (w.showWatermark g).reclaim g := by
  intro m n hs r w
  have follows : r = k.when (fieldAt slot.data 4 4 == f.pn) (·.writeLookup g f f.location) := by rw [Dev.when_beq]
  have last : w = r.when (r.get64 (F.ingStrLastLo g) (F.ingStrLastHi g) == m.storeLocation g f)
      (·.put64 (F.ingStrLastLo g) (F.ingStrLastHi g) f.location) := by rw [Dev.when_beq]
  unfold Dev.frameDurable
  rw [hf]
  refine (if_neg (by simpa [hdrained, hdurable] using hjobs)).trans ?_
  rw [last, follows]
  extract_lets m' was n'
  have hs' : n'.sysRead (lookupAddr g f.pn) 16 = (slot, k) := hs
  rw [hs']

section
variable {s : State} {Q : Dev → Prop} {g pn : Nat}

theorem completes_drainFrameStart (h : Q s.dev.drainStart) : completes .drainFrameStart s Q := ⟨_, rfl, h⟩

theorem completes_drainFrameEnd (hr : s.dev.flashReady = true) (h : Q (s.dev.drainEnd g pn).flashMoves) : completes (.drainFrameEnd g pn) s Q :=
  ⟨_, rfl, by beta_reduce; rwa [if_pos hr]⟩

theorem completes_frameDurable (h : Q (s.dev.frameDurable g pn)) : completes (.frameDurable g pn) s Q := ⟨_, rfl, h⟩

end

/-- Settles O23: the drain's start, its end with and without room, and the durable frame, each along the branch that its conditions choose. -/
theorem drainSteps : Obligations.DrainSteps := by
  unfold Obligations.DrainSteps
  intro s g pn f d
  refine ⟨fun bytes holes m hr hg hf hb => ?start, fun j hr hj hf => ?ends, fun hf hdrained hdurable hjobs => ?durable⟩
  case start =>
    have shown := Dev.OnlyShows.enginesShown (m.hollowMet g f holes) g f bytes (m.buildStored g f bytes holes)
    have ing := shown.ing.trans (m.hollowMet_ing g f holes)
    refine completes_drainFrameStart ?_
    rw [Dev.drainStart_eq hr hg hf hb]
    obtain ⟨drains, robin, cst, errors⟩ := Dev.jobTaken_shows ((m.hollowMet g f holes).enginesShown g f bytes (m.buildStored g f bytes holes))
      g f.pn (m.buildStored g f bytes holes)
    exact ⟨by rw [drains, ing], Dev.jobTaken_draining _ g f.pn _, by rw [robin, ing], cst.trans (shown.cst.trans (m.hollowMet_cst g f holes)),
      fun h => (errors _ _).mpr ((shown.errors _ _).mpr (Dev.hollowMet_errorShows h))⟩
  case ends =>
    intro v idx key enc to_ len loc
    refine ⟨fun hroom => completes_drainFrameEnd hr (by rw [Dev.drainEnd_waits hj hf hroom]), fun old r hidx hbytes hold => ?_⟩
    exact completes_drainFrameEnd hr ⟨_, _, rfl, rfl, congrArg Dev.flashMoves (Dev.drainEnd_appends hj hf hidx hbytes hold)⟩
  case durable =>
    exact completes_frameDurable ⟨_, _, _, _, _, _, rfl, rfl, Prod.mk.eta.symm, rfl, rfl,
      Dev.frameDurable_marks hf hdrained hdurable hjobs Prod.mk.eta.symm⟩

end Sys2Proof.Machine
end

section
/-! SUPPORT. What work in the store leaves alone: the records of ING, the values in force, and every register beyond the counters that reads,
writes and merges of lines keep (R111–R120, R124). -/
namespace Sys2Proof.Machine
open Sys2Proof

/-- A register that work in the store writes: a counter of CST, of a stack or of BPM, or the address of the last uncorrectable line. -/
def RegField.storeShown (f : RegField) : Prop := f.rs = false ∧ (f.addr % 4096 < 0x164 ∨ f.addr % 4096 = 0x180)

/-- A register that work in the store leaves alone. -/
def RegField.storeSteady (f : RegField) : Prop := f.steady ∧ 0x164 ≤ f.addr % 4096 ∧ f.addr % 4096 ≠ 0x180

theorem cstStkCnt_storeShown (n : Nat) {i : Nat} (hi : i < 9) : (F.cstStkCnt n i).storeShown :=
  ⟨rfl, .inl (by simp only [F.cstStkCnt]; omega)⟩

theorem cstCnt_storeShown {i : Nat} (hi : i < 9) : (F.cstCnt i).storeShown := ⟨rfl, .inl (by simp only [F.cstCnt]; omega)⟩

/-- Between `d` and `e` there is work in the store alone. -/
structure Dev.StoreWork (d e : Dev) : Prop where
  ing : e.ing = d.ing
  force : e.force = d.force
  rd : ∀ f : RegField, f.storeSteady → e.rd f = d.rd f

namespace Dev.StoreWork

variable {b d e : Dev}

theorem refl (d : Dev) : d.StoreWork d := ⟨rfl, rfl, fun _ _ => rfl⟩

theorem trans (h : b.StoreWork d) (k : d.StoreWork e) : b.StoreWork e :=
  ⟨k.ing.trans h.ing, k.force.trans h.force, fun f hf => (k.rd f hf).trans (h.rd f hf)⟩

/-- Records outside ING are no registers. -/
theorem records (h : b.StoreWork d) (hi : e.ing = d.ing) (hf : e.force = d.force) (hr : e.regs = d.regs) : b.StoreWork e :=
  h.trans ⟨hi, hf, fun f _ => by simp only [Dev.rd, Dev.forced, Dev.raw, hf, hr]⟩

theorem onCst (h : b.StoreWork d) {f : Cst → Cst} : b.StoreWork (d.onCst f) := h.records rfl rfl rfl
theorem onMc (h : b.StoreWork d) {f : Mc → Mc} : b.StoreWork (d.onMc f) := h.records rfl rfl rfl
theorem onL2 (h : b.StoreWork d) {line : Nat} {f : L2Way → L2Way} : b.StoreWork (d.onL2 line f) := h.records rfl rfl rfl
theorem setBufEnt (h : b.StoreWork d) {i : Nat} {x : BufEnt} : b.StoreWork (d.setBufEnt i x) := h.records rfl rfl rfl
theorem stepFree (h : b.StoreWork d) : b.StoreWork d.stepFree := h.records rfl rfl rfl
theorem poke (h : b.StoreWork d) {a : Nat} {bs : List Byte} : b.StoreWork (d.poke a bs) := h.records rfl rfl rfl
theorem putLine (h : b.StoreWork d) {a : Nat} {bs : List Byte} {hollow : Bool} : b.StoreWork (d.putLine a bs hollow) := h.records rfl rfl rfl
theorem setGranuleValid (h : b.StoreWork d) {g : Nat} {v : Bool} : b.StoreWork (d.setGranuleValid g v) := h.records rfl rfl rfl
theorem takeInjected (h : b.StoreWork d) {page bit : Nat} : b.StoreWork (d.takeInjected page bit) := h.records rfl rfl rfl

theorem wr (h : b.StoreWork d) {g : RegField} (hg : g.storeShown) {v : Nat} : b.StoreWork (d.wr g v) := by
  obtain ⟨hrs, haddr⟩ := hg
  refine h.trans ⟨d.wr_ing g v, Dev.wr_force hrs d v, fun f hf => d.rd_wr_other g f v fun same => ?_⟩
  obtain ⟨-, hlo, hne⟩ := hf
  rw [same] at hlo hne
  omega

theorem count (h : b.StoreWork d) {g : RegField} (hg : g.storeShown) : b.StoreWork (d.count g) := h.wr hg

theorem put64 (h : b.StoreWork d) {lo hi : RegField} (hlo : lo.storeShown) {v : Nat} : b.StoreWork (d.put64 lo hi v) :=
  (h.wr hlo).records rfl rfl rfl

theorem raise (h : b.StoreWork d) {page bit info : Nat} : b.StoreWork (d.raise page bit info) :=
  h.trans ⟨d.raise_ing page bit info, (d.raise_beside page bit info).force, fun _ hf => Dev.rd_raise hf.1 page bit info⟩

theorem when (h : b.StoreWork d) {c : Bool} {f : Dev → Dev} (hf : ∀ d, b.StoreWork d → b.StoreWork (f d)) : b.StoreWork (d.when c f) := by
  unfold Dev.when
  split
  · exact hf d h
  · exact h

theorem foldl {α : Type} (h : b.StoreWork d) {f : Dev → α → Dev} (hf : ∀ d x, b.StoreWork d → b.StoreWork (f d x)) {l : List α} :
    b.StoreWork (l.foldl f d) := by
  induction l generalizing d with
  | nil => exact h
  | cons x l ih => exact ih (hf d x h)

/-- The same of a fold that carries a value along. -/
theorem foldl_snd {α β : Type} {p : β × Dev} (h : b.StoreWork p.2) {f : β × Dev → α → β × Dev}
    (hf : ∀ p x, b.StoreWork p.2 → b.StoreWork (f p x).2) {l : List α} : b.StoreWork (l.foldl f p).2 := by
  induction l generalizing p with
  | nil => exact h
  | cons x l ih => exact ih (hf p x h)

theorem fence1 (h : b.StoreWork d) {u : Nat} {err : Option (Nat × Nat)} : b.StoreWork (d.fence1 u err) := by
  unfold Dev.fence1
  extract_lets v off owners within noted fenced
  split
  · exact h
  · have noted' : b.StoreWork fenced := h.records rfl rfl rfl
    refine noted'.foldl fun d o h => ?_
    exact h.records rfl rfl rfl

theorem fence (h : b.StoreWork d) {u : Nat} {err : Option (Nat × Nat)} : b.StoreWork (d.fence u err) := by
  unfold Dev.fence
  extract_lets fenced
  split
  · exact h.fence1.fence1
  · exact h.fence1

/-! ## Lines -/

theorem bitmapLost (h : b.StoreWork d) {a : Nat} : b.StoreWork (d.bitmapLost a) := by
  unfold Dev.bitmapLost
  exact ((StoreWork.foldl h.takeInjected.raise fun _ _ h => h.setGranuleValid).poke.stepFree.onCst).wr ⟨rfl, .inl (by decide)⟩

theorem bitmapRead (h : b.StoreWork d) {a : Nat} {x : SramRead} : b.StoreWork (d.bitmapRead a x) := by
  unfold Dev.bitmapRead
  split
  · exact h.bitmapLost
  · exact h

theorem openZero (h : b.StoreWork d) {g line cls : Nat} : b.StoreWork (d.openZero g line cls) := by
  unfold Dev.openZero
  extract_lets valid made
  refine StoreWork.onCst ?_
  unfold made
  split
  · exact h.setGranuleValid
  · split
    · exact h.setGranuleValid
    · exact (h.setGranuleValid.onCst.count (cstCnt_storeShown (by decide))).raise

theorem touch (h : b.StoreWork d) {a cls : Nat} : b.StoreWork (d.touch a cls) := by
  unfold Dev.touch
  extract_lets g made
  refine StoreWork.wr ?_ ⟨rfl, .inl (by decide)⟩
  unfold made
  split
  · exact h.openZero
  · exact h.onCst

theorem parityMet (h : b.StoreWork d) {a parity : Nat} : b.StoreWork (d.parityMet a parity).2 := by
  unfold Dev.parityMet
  extract_lets n retried
  have tried : b.StoreWork retried := h.when fun _ h => h.raise.count (cstStkCnt_storeShown _ (by decide))
  split
  · exact tried.takeInjected.raise.fence
  · exact tried

theorem writeLine (h : b.StoreWork d) {a : Nat} {data : List Byte} {hollow : Bool} {cls parity : Nat} :
    b.StoreWork (d.writeLine a data hollow cls parity) := by
  unfold Dev.writeLine
  split
  · exact h
  · have met : b.StoreWork (d.parityMet a parity).2 := h.parityMet
    generalize d.parityMet a parity = p at met ⊢
    obtain ⟨failed, e⟩ := p
    dsimp -zeta only at met ⊢
    split
    · exact met
    · exact (met.when fun _ h => h.count (cstCnt_storeShown (by decide))).onCst.touch.putLine

theorem sealLine (h : b.StoreWork d) {a : Nat} {data : List Byte} {scrub : Bool} : b.StoreWork (d.seal a data scrub) := by
  unfold Dev.seal
  extract_lets n told at_ noted
  have said : b.StoreWork told := by
    unfold told
    split
    · exact (h.raise.count (cstCnt_storeShown (by decide))).count (cstStkCnt_storeShown _ (by decide))
    · exact (h.raise.count (cstCnt_storeShown (by decide))).count (cstStkCnt_storeShown _ (by decide))
  exact (said.onCst.put64 ⟨rfl, .inr (by decide)⟩).putLine

theorem deliver (h : b.StoreWork d) {o : Delivered} : b.StoreWork (d.deliver o).2 := h.when fun _ h => h.count (cstCnt_storeShown (by decide))

theorem stackRead (h : b.StoreWork d) {rd : LineRead} {scrub : Bool} : b.StoreWork (d.stackRead rd scrub).2 := by
  unfold Dev.stackRead
  extract_lets n told
  have met : b.StoreWork (told.parityMet rd.addr rd.parity).2 :=
    StoreWork.parityMet (h.when fun _ h => h.raise.count (cstStkCnt_storeShown _ (by decide)))
  generalize told.parityMet rd.addr rd.parity = p at met ⊢
  obtain ⟨failed, e⟩ := p
  dsimp -zeta only at met ⊢
  split
  · exact met
  · extract_lets lost bad taken r freed
    have read : b.StoreWork freed := met.takeInjected.when fun _ h => h.stepFree
    split
    · exact read.sealLine
    · split
      · exact ((read.raise.count (cstCnt_storeShown (by decide))).count (cstStkCnt_storeShown _ (by decide))).putLine
      · exact read

theorem readRaw (h : b.StoreWork d) {rd : LineRead} : b.StoreWork (d.readRaw rd).2 := by
  unfold Dev.readRaw
  split
  · exact h
  · extract_lets mapped gone
    split
    next o e hp =>
    have read : b.StoreWork e := by
      split at hp
      · cases hp
        exact h.bitmapRead
      · have got : b.StoreWork (mapped.stackRead rd false).2 := h.bitmapRead.stackRead
        rw [hp] at got
        exact got
    split <;> exact read

/-! ## Handles -/

theorem tableRead (h : b.StoreWork d) {by_ : Option ActBy} {x : SramRead} : b.StoreWork (d.tableRead by_ x) := by
  unfold Dev.tableRead
  split
  · exact h
  · extract_lets i
    split
    · exact h.takeInjected.raise.setBufEnt
    · split
      · exact h.raise
      · exact h

theorem handleFail (h : b.StoreWork d) {bit a : Nat} : b.StoreWork (d.handleFail bit a) := h.takeInjected.raise.count ⟨rfl, .inl (by decide)⟩

theorem readLine (h : b.StoreWork d) {rd : LineRead} : b.StoreWork (d.readLine rd).2 := by
  unfold Dev.readLine
  split
  · exact h.readRaw.deliver
  · extract_lets read
    split
    · exact h.tableRead.handleFail.deliver
    · exact h.tableRead.readRaw.deliver

theorem readLines (h : b.StoreWork d) {a n : Nat} {by_ : Option ActBy} : b.StoreWork (d.readLines a n by_).2 := by
  unfold Dev.readLines
  refine StoreWork.foldl_snd h fun p i h => ?_
  exact h.readLine

/-! ## Writes -/

theorem closeMerge (h : b.StoreWork d) {m : MergeEnt} {rd : LineRead} : b.StoreWork (d.closeMerge m rd) := by
  unfold Dev.closeMerge
  extract_lets taken a mapped
  split
  · exact h.onCst
  · have mapped' : b.StoreWork mapped := h.onCst.bitmapRead
    split
    next failed o e hp =>
    have read : b.StoreWork e := by
      split at hp
      · have met : b.StoreWork (mapped.parityMet a rd.parity).2 := mapped'.parityMet
        generalize mapped.parityMet a rd.parity = p at hp met
        cases hp
        exact met
      · have got : b.StoreWork (mapped.stackRead { rd with addr := a } false).2 := mapped'.stackRead
        generalize mapped.stackRead _ false = p at hp got
        cases hp
        exact got
    split
    · exact read
    · exact (StoreWork.when (read.count (cstCnt_storeShown (by decide))) fun _ h =>
        h.takeInjected.raise.count (cstCnt_storeShown (by decide))).touch.putLine

theorem narrow (h : b.StoreWork d) {a : Nat} {data : List Byte} {hollow : Bool} {cls : Nat} : b.StoreWork (d.narrow a data hollow cls) := by
  unfold Dev.narrow
  extract_lets counted bytes made
  have said : b.StoreWork counted := h.when fun _ h => h.count (cstCnt_storeShown (by decide))
  split
  · exact said.onCst
  · refine StoreWork.onCst ?_
    unfold made
    split
    · exact said
    · split
      · exact said
      · exact said.closeMerge

theorem storeWriteNow (h : b.StoreWork d) {wr : LineWrite} : b.StoreWork (d.storeWriteNow wr) := by
  unfold Dev.storeWriteNow
  extract_lets read fault mapped
  have read' : b.StoreWork read := h.tableRead
  clear_value read fault
  cases fault with
  | some bit => exact read'.handleFail
  | none =>
    dsimp only
    split
    · exact read'.bitmapRead.writeLine
    · exact read'.bitmapRead.narrow

theorem invalL1 (h : b.StoreWork d) {line : Nat} {x : Option Nat} : b.StoreWork (d.invalL1 line x) := by
  unfold Dev.invalL1
  extract_lets shot
  refine StoreWork.onL2 (d := shot) (h.foldl fun d i h => ?_)
  split
  · exact h
  · split
    · exact h.onMc
    · exact h

theorem forward (h : b.StoreWork d) {wr : LineWrite} : b.StoreWork (d.forward wr) := by
  unfold Dev.forward
  split
  · exact h
  · exact h.onL2.invalL1.onMc

theorem writeNow (h : b.StoreWork d) {wr : LineWrite} : b.StoreWork (d.writeNow wr) := by
  have forwarded : b.StoreWork (d.forwardBy wr).2 := by
    unfold Dev.forwardBy
    extract_lets read clean
    dsimp -zeta only
    split
    · exact h.tableRead
    · exact h.tableRead.forward
  unfold Dev.writeNow
  generalize d.forwardBy wr = p at forwarded ⊢
  exact forwarded.storeWriteNow

/-! ## The ranges of ING -/

theorem sysWrite (h : b.StoreWork d) {a : Nat} {bs : List Byte} : b.StoreWork (d.sysWrite a bs) := h.foldl fun _ _ h => h.writeNow

theorem writeLookup (h : b.StoreWork d) {g : Nat} {f : FrameRec} {loc : Nat} : b.StoreWork (d.writeLookup g f loc) := h.sysWrite

theorem chainWrite (h : b.StoreWork d) {g pos : Nat} {data : List Byte} {hollow : Bool} : b.StoreWork (d.chainWrite g pos data hollow) :=
  h.foldl fun _ _ h => h.writeNow

theorem chainRead (h : b.StoreWork d) {g pos n : Nat} : b.StoreWork (d.chainRead g pos n).2 := by
  unfold Dev.chainRead
  refine StoreWork.foldl_snd h fun p i h => ?_
  exact h.readLine

theorem editEntry (h : b.StoreWork d) {g : Nat} {f : FrameRec} {edit : List Byte → List Byte} : b.StoreWork (d.editEntry g f edit) := by
  unfold Dev.editEntry
  have head : b.StoreWork (d.chainRead g f.start 64).2 := h.chainRead
  generalize d.chainRead g f.start 64 = p at head ⊢
  obtain ⟨x, d₁⟩ := p
  dsimp -zeta only at head ⊢
  have tail : b.StoreWork (d₁.chainRead g (f.start + 64) 64).2 := head.chainRead
  generalize d₁.chainRead g (f.start + 64) 64 = p at tail ⊢
  obtain ⟨y, d₂⟩ := p
  exact (StoreWork.chainWrite tail).chainWrite

theorem rewriteEntry (h : b.StoreWork d) {g : Nat} {f : FrameRec} : b.StoreWork (d.rewriteEntry g f) := h.editEntry

end Dev.StoreWork

end Sys2Proof.Machine
end

section
/-! Frames that close, credits and pairings (R69, R71, R72, R76, R77, R84, R85). -/
namespace Sys2Proof.Machine
open Sys2Proof

/-! ## A split register -/

theorem Dev.stream_put64 (d : Dev) (lo hi : RegField) (v g : Nat) : (d.put64 lo hi v).stream g = d.stream g := d.stream_wr _ _ _

theorem Dev.rd_put64_other {f lo : RegField} (h : f.addr ≠ lo.addr) (d : Dev) (hi : RegField) (v : Nat) : (d.put64 lo hi v).rd f = d.rd f :=
  d.rd_wr_other _ _ _ h

theorem Dev.rd_put64_lo {lo : RegField} (hlo : lo.lo = 0) (hhi : lo.hi = 31) (d : Dev) (hi : RegField) (v : Nat) :
    (d.put64 lo hi v).rd lo = v % 2 ^ 32 := by
  refine (d.rd_wr_same lo (by simp [RegField.ok, hlo, hhi]) _).trans ?_
  simp [hlo, hhi]

theorem Dev.hiLive_put64 (d : Dev) (lo hi : RegField) (v : Nat) : Map.get 0 (d.put64 lo hi v).plat.hiLive hi.addr = v / 2 ^ 32 :=
  (Map.get_set _ _ _ _ _).trans (if_pos rfl)

theorem Dev.rd_onStream (d : Dev) (g : Nat) (f : Stream → Stream) (r : RegField) : (d.onStream g f).rd r = d.rd r := rfl

/-! ## A complete frame -/

theorem ingStrCnt_storeSteady (g : Nat) {i : Nat} (hi : i < 13) (h : 9 ≤ i) : (F.ingStrCnt g i).storeSteady := by
  refine ⟨ingStrCnt_steady g hi, ?_⟩
  simp only [F.ingStrCnt]
  omega

/-- A complete frame is counted, as hollow too where it is, and the open frames show. -/
def Dev.completionShown (d : Dev) (g : Nat) (hollow : Bool) : Dev :=
  ((d.count (F.ingStrCnt g 10)).when hollow (·.count (F.ingStrCnt g 11))).showOpen g

theorem Dev.rd_completionShown {f : RegField} {g : Nat} (h10 : f.addr ≠ (F.ingStrCnt g 10).addr) (h11 : f.addr ≠ (F.ingStrCnt g 11).addr)
    (ho : f.addr ≠ (F.ingStrStat_open g).addr) (d : Dev) (hollow : Bool) : (d.completionShown g hollow).rd f = d.rd f := by
  unfold Dev.completionShown Dev.showOpen Dev.when
  rw [Dev.rd_wr_other _ _ _ _ ho]
  split
  · exact (Dev.rd_wr_other _ _ _ _ h11).trans (Dev.rd_wr_other _ _ _ _ h10)
  · exact Dev.rd_wr_other _ _ _ _ h10

theorem Dev.completionShown_counts (d : Dev) (g : Nat) (hollow : Bool) :
    (d.completionShown g hollow).rd (F.ingStrCnt g 10) = satInc 32 (d.rd (F.ingStrCnt g 10)) := by
  have counted : (d.count (F.ingStrCnt g 10)).rd (F.ingStrCnt g 10) = satInc 32 (d.rd (F.ingStrCnt g 10)) := d.rd_count _ (ingStrCnt_ok g 10)
  unfold Dev.completionShown Dev.showOpen Dev.when
  rw [Dev.rd_wr_other _ _ _ _ (by simp only [F.ingStrCnt, F.ingStrStat_open]; omega)]
  split
  · exact (Dev.rd_wr_other _ _ _ _ (ingStrCnt_addr_ne g (by decide))).trans counted
  · exact counted

theorem Dev.completionShown_ing (d : Dev) (g : Nat) (hollow : Bool) : (d.completionShown g hollow).ing = d.ing := by
  unfold Dev.completionShown Dev.showOpen Dev.when
  rw [Dev.wr_ing]
  split
  · exact (Dev.wr_ing _ _ _).trans (Dev.wr_ing _ _ _)
  · exact Dev.wr_ing _ _ _

theorem Dev.completionShown_plat (d : Dev) (g : Nat) (hollow : Bool) : (d.completionShown g hollow).plat = d.plat := by
  unfold Dev.completionShown Dev.showOpen Dev.when
  rw [Dev.wr_plat]
  split
  · exact (Dev.wr_plat _ _ _).trans (Dev.wr_plat _ _ _)
  · exact Dev.wr_plat _ _ _

/-- The records of a complete frame, as its stream and ING_STR_LAST then name it. -/
def Dev.completionNoted (d : Dev) (g : Nat) (x : FrameRec) (loc : Nat) : Dev :=
  (((d.writeLookup g x loc).noteClosed g x.frame).onStream g fun st => { st with newDone := x.frame }).put64 (F.ingStrLastLo g)
    (F.ingStrLastHi g) loc

theorem Dev.completionNoted_stream (d : Dev) (g : Nat) (x : FrameRec) (loc : Nat) : (d.completionNoted g x loc).stream g =
    { d.stream g with closed := (x.frame :: (d.stream g).closed).take 256, newDone := x.frame } := by
  have same : (d.writeLookup g x loc).stream g = d.stream g := Dev.stream_congr (congrArg Ing.streams (Dev.StoreWork.refl d).writeLookup.ing) g
  rw [Dev.completionNoted, Dev.stream_put64, Dev.stream_onStream, Dev.noteClosed, Dev.stream_onStream, same]

theorem Dev.completionNoted_last (d : Dev) (g : Nat) (x : FrameRec) (loc : Nat) :
    (d.completionNoted g x loc).rd (F.ingStrLastLo g) = loc % 2 ^ 32 ∧
      Map.get 0 (d.completionNoted g x loc).plat.hiLive (F.ingStrLastHi g).addr = loc / 2 ^ 32 := by
  unfold Dev.completionNoted
  exact ⟨Dev.rd_put64_lo rfl rfl _ _ _, Dev.hiLive_put64 _ _ _ _⟩

theorem Dev.completionNoted_rd {f : RegField} {g : Nat} (hf : f.storeSteady) (hl : f.addr ≠ (F.ingStrLastLo g).addr) (d : Dev) (x : FrameRec)
    (loc : Nat) : (d.completionNoted g x loc).rd f = d.rd f := by
  rw [Dev.completionNoted, Dev.rd_put64_other hl, Dev.rd_onStream, Dev.noteClosed, Dev.rd_onStream]
  exact (Dev.StoreWork.refl d).writeLookup.rd f hf

/-- What a frame's completion shows after its entry is written. -/
theorem Dev.completion_shows (m : Dev) (g : Nat) (x : FrameRec) :
    let n := (m.completionNoted g x (m.storeLocation g x)).completionShown g x.hollow
    n.rd (F.ingStrCnt g 10) = satInc 32 (m.rd (F.ingStrCnt g 10)) ∧ n.rd (F.ingStrLastLo g) = m.storeLocation g x % 2 ^ 32 ∧
      Map.get 0 n.plat.hiLive (F.ingStrLastHi g).addr = m.storeLocation g x / 2 ^ 32 ∧
      (n.stream g).closed = (x.frame :: (m.stream g).closed).take 256 ∧ (n.stream g).newDone = x.frame := by
  intro n
  obtain ⟨last, lastHi⟩ := m.completionNoted_last g x (m.storeLocation g x)
  have stream : n.stream g = _ := (Dev.stream_congr (congrArg Ing.streams (Dev.completionShown_ing _ g x.hollow)) g).trans
    (m.completionNoted_stream g x (m.storeLocation g x))
  refine ⟨?_, ?_, ?_, congrArg Stream.closed stream, congrArg Stream.newDone stream⟩
  · rw [Dev.completionShown_counts, Dev.completionNoted_rd (ingStrCnt_storeSteady g (by decide) (by decide))
      (by simp only [F.ingStrCnt, F.ingStrLastLo]; omega)]
  · refine (Dev.rd_completionShown ?_ ?_ ?_ _ _).trans last <;> simp only [F.ingStrCnt, F.ingStrLastLo, F.ingStrStat_open] <;> omega
  · rw [Dev.completionShown_plat]
    exact lastHi

theorem Dev.frameComplete_closes {d : Dev} {g pn : Nat} {f : FrameRec} (hf : d.frameOf g pn = some f) (hc : d.canComplete g f = true) :
    let x := { f with closed := true, endTick := d.now }
    let m := (d.onFrame g pn fun _ => x).writeEntry g x
    d.frameComplete g pn = ((m.completionNoted g x (m.storeLocation g x)).completionShown g x.hollow).fallsOut g pn := by
  intro x m
  unfold Dev.frameComplete
  rw [hf]
  exact if_neg (by simp [hc])

/-! ## A frame that times out, and a ring of no buffers -/

theorem Dev.frameTimeout_closes {d : Dev} {g pn : Nat} {f : FrameRec} (hf : d.frameOf g pn = some f) (ho : f.closed = false)
    (ht : d.rd (F.ingStrTime_timeout g) ≤ d.since f.firstTick) (hu : d.unitAt (Pg.ingStr g) ≠ .fenced) :
    d.frameTimeout g pn = (((d.takeInjected (Pg.ingStr g) Er.ingStr_timeout).closeIncomplete g pn 1).raise (Pg.ingStr g)
      Er.ingStr_timeout).fallsOut g pn := by
  unfold Dev.frameTimeout
  rw [hf]
  exact if_neg (by simp [ho, hu, ht])

theorem Dev.fallsOut_closed {d : Dev} {g pn : Nat} {f : FrameRec} (hf : d.frameOf g pn = some f) (hc : f.closed = true) (hg : f.gone = false) :
    d.fallsOut g pn =
      if d.rd (F.ingStrRing g) = 0 ∧ f.take_ = none then (d.onFrame g pn fun y => { y with released := true }).reclaim g else d := by
  unfold Dev.fallsOut
  rw [hf]
  simp [hc, hg, Dev.ringless]

/-! ## Payloads and credits -/

@[simp] theorem Stream.setPath_pods (st : Stream) (p : Nat) (x : Path) : (st.setPath p x).pods = st.pods := by
  unfold Stream.setPath
  split <;> rfl

/-- The payload of a Pod stands: it is written no more, and its path holds one credit less. -/
def Dev.payloadStands (d : Dev) (g p q : Nat) : Dev :=
  ((d.onPod g q fun r => { r with writing := false }).onStream g fun st => { st with pods := st.pods.filter fun r => r.writing ||
    (match st.newest with
      | some n => decide (seqBehind n r.seq < 4096)
      | none => true) }).onPath g p fun x => { x with held := x.held - 1 }

theorem Dev.path_payloadStands (d : Dev) (g p q : Nat) : (d.payloadStands g p q).path g p = { d.path g p with held := (d.path g p).held - 1 } := by
  unfold Dev.payloadStands
  rw [Dev.path_onPath, Dev.path, Dev.stream_onStream, Dev.onPod, Dev.stream_onStream]
  rfl

theorem Dev.payloadStands_credits (d : Dev) (g p q : Nat) :
    (d.payloadStands g p q).creditStopped g = d.creditStopped g ∧ (d.payloadStands g p q).underPressure g = d.underPressure g := ⟨rfl, rfl⟩

theorem Dev.payloadStands_written (d : Dev) (g p q : Nat) : ∀ x ∈ ((d.payloadStands g p q).stream g).pods, x.seq = q → x.writing = false := by
  intro x hx hq
  unfold Dev.payloadStands Dev.onPath Dev.onPod at hx
  rw [Dev.stream_onStream, Stream.setPath_pods, Dev.stream_onStream, Dev.stream_onStream] at hx
  obtain ⟨r, -, rfl⟩ := List.mem_map.mp (List.mem_filter.mp hx).1
  split at hq
  · rw [if_pos ‹_›]
  · exact absurd hq ‹_›

theorem Dev.returnCredit_grants {d : Dev} {g : Nat} (hs : d.creditStopped g = false) (hp : d.underPressure g = false) (p : Nat) :
    (d.returnCredit g p).path g p = { d.path g p with granted := (d.path g p).granted + 1 } := by
  unfold Dev.returnCredit
  rw [if_neg (by simp [hs, hp]), Dev.path_sendCredit, Dev.path_onPath]

theorem Dev.payloadWritten_stands {d : Dev} {g p : Nat} {r : PodRec} (hr : r ∈ (d.stream g).pods) (hp : r.path = p) (hw : r.writing = true) :
    d.payloadWritten g p r.seq = (d.payloadStands g p r.seq).returnCredit g p := by
  unfold Dev.payloadWritten
  exact if_pos (List.any_eq_true.mpr ⟨r, hr, by simp [hp, hw]⟩)

theorem Dev.creditPeriodic_goes {d : Dev} {g p : Nat} (hs : d.streamOn g = true) (hp : p ∈ bondPaths (d.bond g)) :
    d.creditPeriodic g p = d.send (.credit g p (d.creditPod g p)) := by
  unfold Dev.creditPeriodic Dev.sendCredit
  rw [if_pos (by simp [hs, hp]), hs]
  rfl

/-! ## A pairing that closes with one copy -/

/-- A copy that came alone counts against path `q`. -/
def Dev.singleCounted (d : Dev) (g q : Nat) : Dev :=
  (d.count (F.ingStrCnt g (8 + q))).onPath g q fun x => { x with single := x.single + 1, paired := 0 }

theorem Dev.singleClose_dual {d : Dev} {g : Nat} {r : PodRec} (hb : bondDual (d.bond g) = true) : d.singleClose g r =
    if (d.path g (1 - r.path)).st = .active ∧ 64 ≤ (d.path g (1 - r.path)).single + 1 then
      ((d.singleCounted g (1 - r.path)).setPathSt g (1 - r.path) .degraded).raise (Pg.ingStr g) Er.ingStr_pathDegraded
    else d.singleCounted g (1 - r.path) := by
  have path : (d.singleCounted g (1 - r.path)).path g (1 - r.path) = { d.path g (1 - r.path) with
      single := (d.path g (1 - r.path)).single + 1, paired := 0 } := by
    rw [Dev.singleCounted, Dev.path_onPath, Dev.count, Dev.path_wr]
  unfold Dev.singleClose
  rw [if_neg (by simp [hb])]
  show (if ((d.singleCounted g (1 - r.path)).path g (1 - r.path)).st = .active ∧
    64 ≤ ((d.singleCounted g (1 - r.path)).path g (1 - r.path)).single then _ else _) = _
  rw [path]
  rfl

theorem Dev.singleCounted_shows (d : Dev) (g q : Nat) :
    (d.singleCounted g q).rd (F.ingStrCnt g (8 + q)) = satInc 32 (d.rd (F.ingStrCnt g (8 + q))) ∧
      ((d.singleCounted g q).stream g).pods = (d.stream g).pods ∧
      ((d.singleCounted g q).path g q).single = (d.path g q).single + 1 := by
  refine ⟨d.rd_count _ (ingStrCnt_ok g _), ?_, ?_⟩
  · rw [Dev.singleCounted, Dev.onPath, Dev.stream_onStream, Stream.setPath_pods, Dev.count, Dev.stream_wr]
  · rw [Dev.singleCounted, Dev.path_onPath, Dev.count, Dev.path_wr]

/-- A path is marked DEGRADED, and its stream says so. -/
def Dev.degrade (d : Dev) (g q : Nat) : Dev := (d.setPathSt g q .degraded).raise (Pg.ingStr g) Er.ingStr_pathDegraded

theorem Dev.rd_degrade (d : Dev) (g q : Nat) {i : Nat} (hi : i < 13) : (d.degrade g q).rd (F.ingStrCnt g i) = d.rd (F.ingStrCnt g i) := by
  refine (Dev.rd_raise (ingStrCnt_steady g hi) _ _ _).trans (Dev.rd_wr_other _ _ _ _ ?_)
  split
  · simp only [F.ingStrCnt, F.ingStrStat_pathA]
    omega
  · simp only [F.ingStrCnt, F.ingStrStat_pathB]
    omega

theorem Dev.degrade_pods (d : Dev) (g q : Nat) : ((d.degrade g q).stream g).pods = (d.stream g).pods := by
  rw [Dev.degrade, Dev.stream_raise, Dev.setPathSt, Dev.stream_wr, Dev.onPath, Dev.stream_onStream, Stream.setPath_pods]

theorem Dev.path_degrade (d : Dev) (g q : Nat) : (d.degrade g q).path g q = { d.path g q with st := .degraded } := by
  rw [Dev.degrade, Dev.path_raise, Dev.path_setPathSt]

theorem Dev.singleClose_shows {d : Dev} {g : Nat} {r : PodRec} (hb : bondDual (d.bond g) = true) :
    (d.singleClose g r).rd (F.ingStrCnt g (8 + (1 - r.path))) = satInc 32 (d.rd (F.ingStrCnt g (8 + (1 - r.path)))) ∧
      ((d.singleClose g r).stream g).pods = (d.stream g).pods ∧
      ((d.singleClose g r).path g (1 - r.path)).single = (d.path g (1 - r.path)).single + 1 := by
  obtain ⟨counted, pods, single⟩ := d.singleCounted_shows g (1 - r.path)
  rw [Dev.singleClose_dual hb]
  split
  · refine ⟨?_, ?_, ?_⟩
    · exact (Dev.rd_degrade _ g _ (by omega)).trans counted
    · exact (Dev.degrade_pods _ g _).trans pods
    · exact (congrArg Path.single (Dev.path_degrade _ g _)).trans single
  · exact ⟨counted, pods, single⟩

/-- The 64th copy in a row that comes alone leaves the other path DEGRADED. -/
theorem Dev.singleClose_degrades {d : Dev} {g : Nat} {r : PodRec} (hb : bondDual (d.bond g) = true)
    (ha : (d.path g (1 - r.path)).st = .active) (hs : 63 ≤ (d.path g (1 - r.path)).single) :
    ((d.singleClose g r).path g (1 - r.path)).st = .degraded ∧ (d.singleClose g r).errorShows (Pg.ingStr g) Er.ingStr_pathDegraded := by
  rw [Dev.singleClose_dual hb, if_pos ⟨ha, by omega⟩]
  exact ⟨congrArg Path.st (Dev.path_degrade _ g _), Dev.raise_errorShows _ _ _ (by decide)⟩

theorem Dev.path_onPod (d : Dev) (g q k p : Nat) (f : PodRec → PodRec) : (d.onPod g q f).path k p = d.path k p := by
  unfold Dev.path Dev.onPod
  by_cases h : k = g
  · subst h
    rw [Dev.stream_onStream]
    rfl
  · rw [Dev.stream_onStream_other h]

theorem Dev.onPod_pods (d : Dev) (g q : Nat) (f : PodRec → PodRec) :
    ((d.onPod g q f).stream g).pods = (d.stream g).pods.map fun r => if r.seq = q then f r else r := by
  rw [Dev.onPod, Dev.stream_onStream]

theorem Dev.pairingTimeout_closes {d : Dev} {g q : Nat} {r : PodRec} (hr : (d.stream g).pods.find? (·.seq == q) = some r)
    (ho : r.isOpen = true) (ht : d.rd (F.ingStrTime_pairWait g) ≤ d.since r.tick) :
    d.pairingTimeout g q = (d.onPod g q fun r => { r with isOpen := false }).singleClose g r := by
  unfold Dev.pairingTimeout
  rw [hr]
  exact if_pos (by simp [ho, ht])

/-! ## The events as commands -/

section
variable {s : State} {Q : Dev → Prop} {g p q pn : Nat}

theorem completes_frameComplete (h : Q (s.dev.frameComplete g pn)) : completes (.frameComplete g pn) s Q := ⟨_, rfl, h⟩

theorem completes_timeout (h : Q (s.dev.frameTimeout g pn)) : completes (.timeout g pn) s Q := ⟨_, rfl, h⟩

theorem completes_podPayloadWritten (h : Q (s.dev.payloadWritten g p q)) : completes (.podPayloadWritten g p q) s Q := ⟨_, rfl, h⟩

theorem completes_creditPodPeriodic (h : Q (s.dev.creditPeriodic g p)) : completes (.creditPodPeriodic g p) s Q := ⟨_, rfl, h⟩

theorem completes_pairingTimeout (h : Q (s.dev.pairingTimeout g q)) : completes (.pairingTimeout g q) s Q := ⟨_, rfl, h⟩

end

/-- Settles O21: the closing of a frame, complete or at its timeout, and of a pairing, each along the steps that its conditions choose. -/
theorem framesAndCredits : Obligations.FramesAndCredits := by
  unfold Obligations.FramesAndCredits
  refine ⟨fun s g pn f => ?frames, fun d g pn f hf hc hg => Dev.fallsOut_closed hf hc hg, fun s g p q => ?credits⟩
  case frames =>
    intro d hf
    refine ⟨fun hc => ?_, fun ho ht hu => ?_⟩
    · obtain ⟨counts, last, lastHi, closed, newDone⟩ := Dev.completion_shows ((d.onFrame g pn fun _ =>
        { f with closed := true, endTick := d.now }).writeEntry g { f with closed := true, endTick := d.now }) g
        { f with closed := true, endTick := d.now }
      exact completes_frameComplete ⟨_, _, _, rfl, rfl, rfl, counts, last, lastHi, closed, newDone, Dev.frameComplete_closes hf hc⟩
    · exact completes_timeout ⟨_, rfl, Dev.raise_errorShows _ _ _ (by decide), Dev.frameTimeout_closes hf ho ht hu⟩
  case credits =>
    intro d
    refine ⟨fun r hr hq hp hw => ?_, fun hs hp => ?_, fun r hr ho ht hb hpath => ?_⟩
    · subst hq
      refine completes_podPayloadWritten ⟨d.payloadStands g p r.seq, ?_, d.payloadStands_written g p r.seq, rfl,
        Dev.payloadWritten_stands hr hp hw, fun hs hu => ?_⟩
      · rw [Dev.path_payloadStands]
      · obtain ⟨stopped, pressed⟩ := d.payloadStands_credits g p r.seq
        rw [Dev.payloadWritten_stands hr hp hw, Dev.returnCredit_grants (stopped.trans hs) (pressed.trans hu), Dev.path_payloadStands]
    · exact completes_creditPodPeriodic (Dev.creditPeriodic_goes hs hp)
    · have shown := Dev.singleClose_shows (d := d.onPod g q fun r => { r with isOpen := false }) (r := r) hb
      refine completes_pairingTimeout ?_
      rw [Dev.pairingTimeout_closes hr ho ht]
      obtain ⟨counted, pods, single⟩ := shown
      refine ⟨counted, fun x hx hq => ?_, ?_, fun ha hs => ?_⟩
      · rw [pods, Dev.onPod_pods] at hx
        obtain ⟨r, -, rfl⟩ := List.mem_map.mp hx
        split at hq
        · rw [if_pos ‹_›]
        · exact absurd hq ‹_›
      · rw [single, Dev.path_onPod]
      · exact Dev.singleClose_degrades hb (by rwa [Dev.path_onPod]) (by rwa [Dev.path_onPod])

end Sys2Proof.Machine
end

section
/-! Capture sessions: events, the boundary, takes and timecode (R88–R93). -/
namespace Sys2Proof.Machine
open Sys2Proof

/-! ## What a session is read from -/

theorem Dev.rd_of_force {d e : Dev} (h : e.force = d.force) {f : RegField} (hf : f.rs = true) : e.rd f = d.rd f := by
  rw [Dev.rd, Dev.rd, if_pos hf, if_pos hf, Dev.forced, Dev.forced, h]

theorem Dev.members_congr {d e : Dev} (h : e.force = d.force) (n : Nat) : e.members n = d.members n := by
  unfold Dev.members
  rw [Dev.rd_of_force h rfl]

@[simp] theorem Dev.session_onSession (d : Dev) (n : Nat) (f : Session → Session) : (d.onSession n f).session n = f (d.session n) :=
  (Map.get_modify _ _ _ _ _).trans (if_pos rfl)

theorem Dev.session_onSession_other {n k : Nat} (h : k ≠ n) (d : Dev) (f : Session → Session) : (d.onSession n f).session k = d.session k :=
  (Map.get_modify _ _ _ _ _).trans (if_neg h)

theorem Dev.onSession_congr {d : Dev} {n : Nat} {f g : Session → Session} (h : f (d.session n) = g (d.session n)) :
    d.onSession n f = d.onSession n g :=
  congrArg (fun x => { d with ing := { d.ing with sessions := Map.set Session.reset d.ing.sessions n x } }) h

theorem Dev.session_congr {d e : Dev} (h : e.ing = d.ing) (n : Nat) : e.session n = d.session n := by
  rw [Dev.session, Dev.session, h]

/-- A session's state is the value that its status register takes last. -/
theorem Dev.sesSt_wr_state (d : Dev) (n : Nat) (st : SesSt) : (d.wr (F.ingSesStat_state n) (sesStCode st)).sesSt n = st := by
  rw [Dev.sesSt, Dev.rd_wr_same _ _ (by simp [RegField.ok, F.ingSesStat_state])]
  cases st <;> rfl

theorem Dev.sesSt_congr {d e : Dev} {n : Nat} (h : e.rd (F.ingSesStat_state n) = d.rd (F.ingSesStat_state n)) : e.sesSt n = d.sesSt n := by
  rw [Dev.sesSt, Dev.sesSt, h]

theorem ingSesStat_state_steady (n : Nat) : (F.ingSesStat_state n).steady := by
  simp only [RegField.steady, F.ingSesStat_state]
  omega

/-! ## SES_IGN -/

theorem Dev.sesIgn_ing (d : Dev) (n : Nat) : (d.sesIgn n).ing = d.ing := by
  unfold Dev.sesIgn
  generalize d.members n = l
  induction l generalizing d with
  | nil => rfl
  | cons g l ih => exact (ih _).trans (Dev.raise_ing _ _ _ _)

theorem Dev.sesIgn_cst (d : Dev) (n : Nat) : (d.sesIgn n).cst = d.cst := by
  unfold Dev.sesIgn
  generalize d.members n = l
  induction l generalizing d with
  | nil => rfl
  | cons g l ih => exact (ih _).trans (Dev.raise_cst _ _ _ _)

theorem Dev.rd_sesIgn {f : RegField} (hf : f.steady) (d : Dev) (n : Nat) : (d.sesIgn n).rd f = d.rd f := by
  unfold Dev.sesIgn
  generalize d.members n = l
  induction l generalizing d with
  | nil => rfl
  | cons g l ih => exact (ih _).trans (Dev.rd_raise hf _ _ _)

theorem Dev.sesIgn_force (d : Dev) (n : Nat) : (d.sesIgn n).force = d.force :=
  (Dev.foldl_beside (fun d g => d.raise_beside (Pg.ingStr g) Er.ingStr_sesIgn 0) (d.members n) d).force

/-! ## Events -/

/-- An accepted event waits for the boundary. -/
def Dev.eventWaits (d : Dev) (n : Nat) (ev : SesEvent) : Dev := d.onSession n fun x => { x with events := x.events ++ [(d.now, ev)] }

/-- An accepted trigger's instant, source and timecode are recorded. -/
def Dev.triggerNoted (d : Dev) (n src sub tc at_ : Nat) : Dev :=
  (((d.put64 (F.ingSesTrigLo n) (F.ingSesTrigHi n) at_).wr (F.ingSesTrigSub n) sub).wr (F.ingSesStat_src n) src).onSession n fun x =>
    { x with trigTc := tc, trigAt := at_ }

section
variable {d : Dev} {n : Nat} {ev : SesEvent}

theorem Dev.sesEvent_counted (h : sesJudge (d.sesWillBe n) ev (d.membersOn n) = .counted) :
    d.sesEvent n ev = (d.countIgnored (Pg.ingSes n)).sesIgn n := by
  unfold Dev.sesEvent
  rw [h]

theorem Dev.sesEvent_ignTrigger (h : sesJudge (d.sesWillBe n) ev (d.membersOn n) = .ignTrigger) :
    d.sesEvent n ev = (d.count (F.ingSesCntIgn n)).sesIgn n := by
  unfold Dev.sesEvent
  rw [h]

theorem Dev.sesEvent_waits {st : SesSt} (h : sesJudge (d.sesWillBe n) ev (d.membersOn n) = .goes st)
    (ht : ∀ src sub tc at_, ev ≠ .trigger src sub tc at_) : d.sesEvent n ev = d.eventWaits n ev := by
  unfold Dev.sesEvent
  rw [h]
  cases ev with
  | trigger src sub tc at_ => exact absurd rfl (ht src sub tc at_)
  | _ => rfl

theorem Dev.triggerNoted_force (d : Dev) (n src sub tc at_ : Nat) : (d.triggerNoted n src sub tc at_).force = d.force := by
  refine Eq.trans (Dev.wr_force rfl _ _) ((Dev.wr_force rfl _ _).trans ?_)
  exact Dev.wr_force rfl _ _

theorem Dev.sesEvent_triggers {st : SesSt} {src sub tc at_ : Nat}
    (h : sesJudge (d.sesWillBe n) (.trigger src sub tc at_) (d.membersOn n) = .goes st) : d.sesEvent n (.trigger src sub tc at_) =
      (d.members n).foldl (fun (x : Dev) g => x.markTrigger g (250 * at_ + sub))
        ((d.eventWaits n (.trigger src sub tc at_)).triggerNoted n src sub tc at_) := by
  have same := Dev.members_congr (Dev.triggerNoted_force (d.eventWaits n (.trigger src sub tc at_)) n src sub tc at_) n
  unfold Dev.sesEvent
  rw [h]
  exact congrArg (List.foldl _ _) same

end

theorem Dev.markTrigger_force (d : Dev) (g t : Nat) : (d.markTrigger g t).force = d.force := by
  unfold Dev.markTrigger
  split
  · extract_lets f
    obtain h | h := (d.onFrame g f.pn fun _ => f).when_eq_or f.closed (·.rewriteEntry g f)
    · rw [h]
      rfl
    · rw [h]
      exact (Dev.StoreWork.refl _).rewriteEntry.force
  · rfl

theorem Dev.foldl_markTrigger_force (l : List Nat) (t : Nat) (d : Dev) : (l.foldl (fun (x : Dev) g => x.markTrigger g t) d).force = d.force := by
  induction l generalizing d with
  | nil => rfl
  | cons g l ih => exact (ih _).trans (d.markTrigger_force g t)

/-- An event changes no configuration. -/
theorem Dev.sesEvent_force (d : Dev) (n : Nat) (ev : SesEvent) : (d.sesEvent n ev).force = d.force := by
  cases h : sesJudge (d.sesWillBe n) ev (d.membersOn n) with
  | counted => rw [Dev.sesEvent_counted h, Dev.sesIgn_force, (d.countIgnored_beside _ _ _).force]
  | ignTrigger => rw [Dev.sesEvent_ignTrigger h, Dev.sesIgn_force, Dev.count, Dev.wr_force rfl]
  | goes st =>
    cases ev with
    | trigger src sub tc at_ =>
      rw [Dev.sesEvent_triggers h, Dev.foldl_markTrigger_force, Dev.triggerNoted_force]
      rfl
    | _ =>
      rw [Dev.sesEvent_waits h (by simp)]
      rfl

/-- A trigger that meets no frame placed at or after it is for the next such frame of each member. -/
theorem Dev.foldl_markTrigger_next {t : Nat} {l : List Nat} {d : Dev}
    (h : ∀ g ∈ l, ∀ f ∈ (d.stream g).frames, f.instant < t ∨ f.gone = true) {g : Nat} (hg : g ∈ l ∨ (d.stream g).trigNext = some t) :
    ((l.foldl (fun (x : Dev) g => x.markTrigger g t) d).stream g).trigNext = some t := by
  induction l generalizing d with
  | nil => exact hg.resolve_left (by simp)
  | cons k l ih =>
    have next : d.markTrigger k t = d.onStream k fun st => { st with trigNext := some t } := by
      have none : (d.stream k).frames.find? (fun f => decide (t ≤ f.instant) && !f.gone) = none := by
        refine List.find?_eq_none.mpr fun f hf => ?_
        rcases h k (List.mem_cons_self ..) f hf with h | h
        · simp [h]
        · simp [h]
      unfold Dev.markTrigger
      rw [none]
    rw [List.foldl_cons, next]
    refine ih (fun j hj f hf => ?_) ?_
    · by_cases hk : j = k
      · subst hk
        rw [Dev.stream_onStream] at hf
        exact h j (List.mem_cons_self ..) f hf
      · rw [Dev.stream_onStream_other hk] at hf
        exact h j (List.mem_cons_of_mem _ hj) f hf
    · by_cases hk : g = k
      · subst hk
        rw [Dev.stream_onStream]
        exact .inr rfl
      · rw [Dev.stream_onStream_other hk]
        exact hg.imp (fun hg => (List.mem_cons.mp hg).resolve_left hk) id

/-! ## A source that reaches the sessions that name it -/

theorem foldl_ite_none {α : Type} {c : α → Nat → Bool} {f : α → Nat → α} {l : List Nat} {a : α} (h : ∀ k ∈ l, c a k = false) :
    l.foldl (fun a k => if c a k then f a k else a) a = a := by
  induction l with
  | nil => rfl
  | cons k l ih =>
    rw [List.foldl_cons, if_neg (by simp [h k (List.mem_cons_self ..)])]
    exact ih fun j hj => h j (List.mem_cons_of_mem _ hj)

/-- A condition that one `n` alone meets, before and after its step, makes one step. -/
theorem foldl_ite_only {α : Type} {c : α → Nat → Bool} {f : α → Nat → α} {l : List Nat} {a : α} {n : Nat} (hl : l.Nodup) (hn : n ∈ l)
    (hc : ∀ k ∈ l, c a k = true ↔ k = n) (hs : ∀ k, c (f a n) k = c a k) : l.foldl (fun a k => if c a k then f a k else a) a = f a n := by
  obtain ⟨l₁, l₂, rfl⟩ := List.append_of_mem hn
  obtain ⟨before, after⟩ : n ∉ l₁ ∧ n ∉ l₂ := by
    simpa [not_or] using (List.nodup_cons.mp (List.nodup_middle.mp hl)).1
  have no (k : Nat) (hk : k ∈ l₁ ++ n :: l₂) (hne : k ≠ n) : c a k = false := by
    rw [← Bool.not_eq_true, hc k hk]
    exact hne
  rw [List.foldl_append, foldl_ite_none fun k hk => no k (by simp [hk]) (fun h => before (h ▸ hk)), List.foldl_cons, if_pos ((hc n hn).mpr rfl)]
  exact foldl_ite_none fun k hk => (hs k).trans (no k (by simp [hk]) (fun h => after (h ▸ hk)))

theorem Dev.timecode_wr {f : RegField} (hv : F.ingTcStat_valid.addr ≠ f.addr) (ht : F.ingTc.addr ≠ f.addr) (d : Dev) (v : Nat) :
    (d.wr f v).timecode = d.timecode := by
  rw [Dev.timecode, Dev.flag_wr_other d f _ v hv, Dev.rd_wr_other d f _ v ht, Dev.timecode]

/-- A rising edge of an input that is no chatter reaches the one session that takes it. -/
theorem Dev.trgEdge_rise {d : Dev} {j sub n : Nat} (hn : n < 32) (hc : (d.rd F.motInChat_trg).testBit j = false)
    (ht : ∀ k, k < 32 → ((d.rd (F.ingSesCfg_trgEn k)).testBit j = true ↔ k = n)) :
    d.trgEdge j sub true = (d.wr ⟨F.motStat_trg.addr, 6 + j, 6 + j, false⟩ 1).sesEvent n (.trigger (4 + j) sub d.timecode d.now) := by
  have chatter : (d.wr ⟨F.motStat_trg.addr, 6 + j, 6 + j, false⟩ 1).rd F.motInChat_trg = d.rd F.motInChat_trg :=
    d.rd_wr_other _ _ _ (by decide : F.motInChat_trg.addr ≠ F.motStat_trg.addr)
  have force : (d.wr ⟨F.motStat_trg.addr, 6 + j, 6 + j, false⟩ 1).force = d.force := Dev.wr_force rfl _ _
  have timecode : (d.wr ⟨F.motStat_trg.addr, 6 + j, 6 + j, false⟩ 1).timecode = d.timecode :=
    Dev.timecode_wr (f := ⟨F.motStat_trg.addr, 6 + j, 6 + j, false⟩) (by decide : F.ingTcStat_valid.addr ≠ F.motStat_trg.addr)
      (by decide : F.ingTc.addr ≠ F.motStat_trg.addr) d 1
  have now : (d.wr ⟨F.motStat_trg.addr, 6 + j, 6 + j, false⟩ 1).now = d.now := by rw [Dev.now, Dev.wr_plat, Dev.now]
  unfold Dev.trgEdge
  extract_lets m
  change m.rd F.motInChat_trg = _ at chatter
  change m.force = _ at force
  change m.timecode = _ at timecode
  change m.now = _ at now
  rw [if_neg (by simp [chatter, hc])]
  refine (foldl_ite_only (c := fun (d : Dev) k => (d.rd (F.ingSesCfg_trgEn k)).testBit j)
    (f := fun (d : Dev) k => d.sesEvent k (.trigger (4 + j) sub d.timecode d.now)) List.nodup_range (List.mem_range.mpr hn) (fun k hk => ?_)
    (fun k => ?_)).trans ?_
  · rw [Dev.rd_of_force force rfl]
    exact ht k (List.mem_range.mp hk)
  · rw [Dev.rd_of_force (m.sesEvent_force n _) rfl]
  · rw [timecode, now]
    rfl

/-! ## The boundary -/

/-- What a session does as it takes state `st` (R88, R89). -/
def Dev.sesTakes (d : Dev) (n : Nat) : SesSt → Dev
  | .armed => d.setLive n false
  | .off => d.setLive n true
  | .run => (d.wr (F.ingSesTake n) (d.rd (F.ingSesTake n) + 1)).joinTake n ((d.rd (F.ingSesTake n) + 1) % 2 ^ 32)
  | .stopping => d

theorem Dev.sesApply1_eq {d : Dev} {n : Nat} {ev : SesEvent} {st : SesSt} (h : sesJudge (d.sesSt n) ev true = .goes st) :
    d.sesApply1 n ev = (d.sesTakes n st).wr (F.ingSesStat_state n) (sesStCode st) := by
  unfold Dev.sesApply1
  rw [h]
  cases st <;> rfl

section
variable {d : Dev} {n t : Nat} {ev : SesEvent} (he : (d.session n).events = [(t, ev)])
include he

/-- The one event of an earlier tick takes effect, and no event waits any more. -/
theorem Dev.sessionApply_due (ht : t ≠ d.now) :
    d.sessionApply n = (d.onSession n fun x => { x with events := [] }).sesApply1 n ev := by
  have left : (d.onSession n fun x => { x with events := x.events.filter fun e => e.1 == d.now }) =
      d.onSession n fun x => { x with events := [] } := Dev.onSession_congr (by simp [he, ht])
  have due : (d.session n).events.filter (fun e => e.1 != d.now) = [(t, ev)] := by simp [he, ht]
  unfold Dev.sessionApply
  rw [due, left]
  rfl

/-- The one event of this tick waits on. -/
theorem Dev.sessionApply_waits (ht : t = d.now) : d.sessionApply n = d.onSession n id := by
  have left : (d.onSession n fun x => { x with events := x.events.filter fun e => e.1 == d.now }) = d.onSession n id := by
    refine Dev.onSession_congr ?_
    have same : (d.session n).events.filter (fun e => e.1 == d.now) = (d.session n).events := by simp [he, ht]
    rw [same]
    rfl
  have due : (d.session n).events.filter (fun e => e.1 != d.now) = [] := by simp [he, ht]
  unfold Dev.sessionApply
  rw [due, left]
  rfl

end

theorem Dev.rd_wr_take (d : Dev) (n v : Nat) : (d.wr (F.ingSesTake n) v).rd (F.ingSesTake n) = v % 2 ^ 32 := by
  rw [Dev.rd_wr_same _ _ (by simp [RegField.ok, F.ingSesTake])]
  rfl

theorem Dev.postExpiry_stops {d : Dev} {n : Nat} (hs : d.sesSt n = .run) (hp : d.rd (F.ingSesCfg_post n) ≠ 0)
    (ht : d.rd (F.ingSesCfg_post n) ≤ d.since (d.session n).trigAt) : d.postExpiry n = d.wr (F.ingSesStat_state n) 3 := by
  rw [Dev.postExpiry, if_pos ⟨hs, hp, ht⟩, Dev.sesApply1_eq (by rw [hs]; rfl)]
  rfl

/-! ## A take sealed -/

/-- The take record of a session is sealed. -/
def Dev.takeRecorded (d : Dev) (n : Nat) : Dev :=
  (d.sysWrite (takeRecAddr d.ing.takeRecs) (d.takeRecord n)).onIng fun i => { i with takeRecs := i.takeRecs + 1 }

theorem Dev.takeSealed_closes {d : Dev} {n : Nat} (hs : d.sesSt n = .stopping) (ho : d.takeOpen n = false) : d.takeSealed n =
    if d.flag (F.ingSesCfg_rearm n) then ((d.takeRecorded n).setLive n false).wr (F.ingSesStat_state n) 1
    else (d.takeRecorded n).wr (F.ingSesStat_state n) 0 := by
  have force : (d.takeRecorded n).force = d.force := (Dev.StoreWork.refl d).sysWrite.force
  have rearm : (d.takeRecorded n).flag (F.ingSesCfg_rearm n) = d.flag (F.ingSesCfg_rearm n) := by
    rw [Dev.flag, Dev.flag, Dev.rd_of_force force rfl]
  rw [← rearm, Dev.takeSealed, if_neg (by simp [hs, ho])]
  rfl

/-! ## Timecode -/

/-- A decoded frame is the current timecode, valid. -/
def Dev.ltcShown (d : Dev) (tc rate : Nat) : Dev :=
  (((d.wr F.ingTc tc).wr F.ingTcStat_rate rate).wr F.ingTcStat_valid 1).onIng fun i => { i with tcLast := d.now }

theorem Dev.ltcShown_shows (d : Dev) (tc rate : Nat) : (d.ltcShown tc rate).rd F.ingTc = tc % 2 ^ 32 ∧
    (d.ltcShown tc rate).rd F.ingTcStat_rate = rate % 8 ∧ (d.ltcShown tc rate).flag F.ingTcStat_valid = true ∧
    (d.ltcShown tc rate).ing = { d.ing with tcLast := d.now } ∧ (d.ltcShown tc rate).plat = d.plat ∧ (d.ltcShown tc rate).cst = d.cst ∧
    (d.ltcShown tc rate).force = d.force := by
  have rd (f : RegField) : (d.ltcShown tc rate).rd f = (((d.wr F.ingTc tc).wr F.ingTcStat_rate rate).wr F.ingTcStat_valid 1).rd f := rfl
  have force : (d.ltcShown tc rate).force = (((d.wr F.ingTc tc).wr F.ingTcStat_rate rate).wr F.ingTcStat_valid 1).force := rfl
  refine ⟨?_, ?_, ?_, ?_, ?_, ?_, ?_⟩
  · rw [rd, Dev.rd_wr_other _ F.ingTcStat_valid F.ingTc _ (by decide), Dev.rd_wr_other _ F.ingTcStat_rate F.ingTc _ (by decide),
      Dev.rd_wr_same _ F.ingTc (by decide)]
    rfl
  · rw [rd, Dev.rd_wr_beside _ F.ingTcStat_valid F.ingTcStat_rate _ (by decide) (by decide) (by decide),
      Dev.rd_wr_same _ F.ingTcStat_rate (by decide)]
    rfl
  · rw [Dev.flag, rd]
    exact Dev.flag_one _ F.ingTcStat_valid (by decide) rfl
  · simp [Dev.ltcShown]
  · simp [Dev.ltcShown]
  · simp [Dev.ltcShown]
  · rw [force, Dev.wr_force rfl, Dev.wr_force rfl, Dev.wr_force rfl]

theorem Dev.ltcFrame_alone {d : Dev} {tc rate sub : Nat}
    (h : ∀ n, n < 32 → d.flag (F.ingSesCfg_tcTrig n) = true → d.rd (F.ingSesTc n) ≠ tc) : d.ltcFrame tc rate sub = d.ltcShown tc rate := by
  obtain ⟨-, -, -, -, -, -, force⟩ := d.ltcShown_shows tc rate
  unfold Dev.ltcFrame
  refine foldl_ite_none (c := fun (d : Dev) n => d.flag (F.ingSesCfg_tcTrig n) && decide (d.rd (F.ingSesTc n) = tc))
    (f := fun (d : Dev) n => d.sesEvent n (.trigger 3 sub tc d.now)) (a := d.ltcShown tc rate) fun k hk => ?_
  have trig : (d.ltcShown tc rate).flag (F.ingSesCfg_tcTrig k) = d.flag (F.ingSesCfg_tcTrig k) := by
    rw [Dev.flag, Dev.flag, Dev.rd_of_force force rfl]
  have match_ : (d.ltcShown tc rate).rd (F.ingSesTc k) = d.rd (F.ingSesTc k) := Dev.rd_of_force force rfl
  simpa [trig, match_] using h k (List.mem_range.mp hk)

theorem Dev.ltcLoss_clears {d : Dev} (hv : d.flag F.ingTcStat_valid = true)
    (ht : ltcTwoFrames (d.rd F.ingTcStat_rate) ≤ d.since d.ing.tcLast) :
    d.ltcLoss = (d.wr F.ingTcStat_valid 0).wr F.ingTcStat_rate 0 := by
  rw [Dev.ltcLoss, if_pos (by simp [hv, ht])]

theorem Dev.ltcCleared_invalid (d : Dev) : ((d.wr F.ingTcStat_valid 0).wr F.ingTcStat_rate 0).flag F.ingTcStat_valid = false := by
  rw [Dev.flag_wr_beside _ F.ingTcStat_rate F.ingTcStat_valid _ (by decide) (by decide) (by decide)]
  exact Dev.flag_zero _ F.ingTcStat_valid (by decide) rfl

/-! ## The events as commands -/

section
variable {s : State} {Q : Dev → Prop} {n : Nat}

theorem completes_sesCtrlArm (hw : s.dev.writesBlocked = false) (h : Q (s.dev.sesEvent n .arm)) : completes (.sesCtrlArm n) s Q :=
  ⟨_, rfl, by beta_reduce; rwa [Dev.asWrite_of_writesBlocked hw]⟩

theorem completes_sesCtrlDisarm (hw : s.dev.writesBlocked = false) (h : Q (s.dev.sesEvent n .disarm)) : completes (.sesCtrlDisarm n) s Q :=
  ⟨_, rfl, by beta_reduce; rwa [Dev.asWrite_of_writesBlocked hw]⟩

theorem completes_sesCtrlStop (hw : s.dev.writesBlocked = false) (h : Q (s.dev.sesEvent n .stop)) : completes (.sesCtrlStop n) s Q :=
  ⟨_, rfl, by beta_reduce; rwa [Dev.asWrite_of_writesBlocked hw]⟩

theorem completes_sesCtrlTrigger (hw : s.dev.writesBlocked = false) {ns : Nat}
    (h : Q (s.dev.sesEvent n (.trigger 1 (ns / 10) s.dev.timecode s.dev.now))) : completes (.sesCtrlTrigger n ns) s Q :=
  ⟨_, rfl, by beta_reduce; rwa [Dev.asWrite_of_writesBlocked hw]⟩

theorem completes_trgEdge {j sub : Nat} {rise : Bool} (h : Q (s.dev.trgEdge j sub rise)) : completes (.trgEdge j sub rise) s Q := ⟨_, rfl, h⟩

theorem completes_sessionStateApply (h : Q (s.dev.sessionApply n)) : completes (.sessionStateApply n) s Q := ⟨_, rfl, h⟩

theorem completes_postExpiry (h : Q (s.dev.postExpiry n)) : completes (.postExpiry n) s Q := ⟨_, rfl, h⟩

theorem completes_takeSealed (h : Q (s.dev.takeSealed n)) : completes (.takeSealed n) s Q := ⟨_, rfl, h⟩

theorem completes_ltcFrameDecoded {tc rate sub : Nat} (h : Q (s.dev.ltcFrame tc rate sub)) : completes (.ltcFrameDecoded tc rate sub) s Q :=
  ⟨_, rfl, h⟩

theorem completes_ltcLoss (h : Q s.dev.ltcLoss) : completes .ltcLoss s Q := ⟨_, rfl, h⟩

end

/-! ## What each outcome of an event shows -/

section
variable {d : Dev} {n : Nat}

theorem Dev.eventWaits_shows (d : Dev) (n : Nat) (ev : SesEvent) :
    (d.eventWaits n ev).session n = { d.session n with events := (d.session n).events ++ [(d.now, ev)] } ∧
      (d.eventWaits n ev).sesSt n = d.sesSt n ∧ (∀ k, k ≠ n → (d.eventWaits n ev).session k = d.session k) ∧
      (d.eventWaits n ev).plat = d.plat ∧ (d.eventWaits n ev).cst = d.cst :=
  ⟨Dev.session_onSession d n _, rfl, fun _ hk => Dev.session_onSession_other hk d _, rfl, rfl⟩

theorem Dev.counted_shows (d : Dev) (n : Nat) : let e := (d.countIgnored (Pg.ingSes n)).sesIgn n
    e.session n = d.session n ∧ e.sesSt n = d.sesSt n ∧ e.ing = d.ing ∧ e.cst = d.cst ∧
      ∃ m : Dev, m.ignoredCount (Pg.ingSes n) = satInc 32 (d.ignoredCount (Pg.ingSes n)) ∧ e = m.sesIgn n := by
  intro e
  obtain ⟨cst, -, -, ing, -⟩ := d.countIgnored_sameRegions (Pg.ingSes n) 0 1
  have ing' : e.ing = d.ing := (Dev.sesIgn_ing _ n).trans ing
  refine ⟨Dev.session_congr ing' n, Dev.sesSt_congr ?_, ing', (Dev.sesIgn_cst _ n).trans cst, _, d.ignoredCount_countIgnored _ 0 1, rfl⟩
  exact (Dev.rd_sesIgn (ingSesStat_state_steady n) _ n).trans (Dev.rd_countIgnored (ingSesStat_state_steady n) _ _ _)

theorem Dev.ignTrigger_shows (d : Dev) (n : Nat) : let e := (d.count (F.ingSesCntIgn n)).sesIgn n
    e.session n = d.session n ∧ e.sesSt n = d.sesSt n ∧ e.ing = d.ing ∧ e.cst = d.cst := by
  intro e
  have ing : e.ing = d.ing := (Dev.sesIgn_ing _ n).trans (d.wr_ing _ _)
  refine ⟨Dev.session_congr ing n, Dev.sesSt_congr ?_, ing, (Dev.sesIgn_cst _ n).trans (d.wr_cst _ _)⟩
  exact (Dev.rd_sesIgn (ingSesStat_state_steady n) _ n).trans (Dev.rd_wr_other _ _ _ _ (by simp only [F.ingSesStat_state, F.ingSesCntIgn]; omega))

theorem Dev.get64_put64 {lo : RegField} (hlo : lo.lo = 0) (hhi : lo.hi = 31) (d : Dev) (hi : RegField) (v : Nat) :
    (d.put64 lo hi v).get64 lo hi = v := by
  rw [Dev.get64, Dev.rd_put64_lo hlo hhi, Dev.hiLive_put64]
  exact Nat.mod_add_div _ _

theorem Dev.get64_wr {lo hi f : RegField} (h : lo.addr ≠ f.addr) (d : Dev) (v : Nat) : (d.wr f v).get64 lo hi = d.get64 lo hi := by
  rw [Dev.get64, Dev.rd_wr_other d f lo v h, Dev.wr_plat, Dev.get64]

theorem Dev.triggerNoted_shows (d : Dev) (n : Nat) {src sub : Nat} (hsrc : src < 8) (hsub : sub < 256) (tc at_ : Nat) :
    let m := d.triggerNoted n src sub tc at_
    m.session n = { d.session n with trigTc := tc, trigAt := at_ } ∧ m.sesSt n = d.sesSt n ∧ m.ing.streams = d.ing.streams ∧ m.cst = d.cst ∧
      m.get64 (F.ingSesTrigLo n) (F.ingSesTrigHi n) = at_ ∧ m.rd (F.ingSesTrigSub n) = sub ∧ m.rd (F.ingSesStat_src n) = src := by
  have noted : (d.put64 (F.ingSesTrigLo n) (F.ingSesTrigHi n) at_).ing = d.ing := d.wr_ing _ _
  have kept : (d.put64 (F.ingSesTrigLo n) (F.ingSesTrigHi n) at_).cst = d.cst := d.wr_cst _ _
  have status : (d.put64 (F.ingSesTrigLo n) (F.ingSesTrigHi n) at_).rd (F.ingSesStat_state n) = d.rd (F.ingSesStat_state n) :=
    Dev.rd_put64_other (by simp only [F.ingSesStat_state, F.ingSesTrigLo]; omega) d _ _
  have instant := Dev.get64_put64 (lo := F.ingSesTrigLo n) rfl rfl d (F.ingSesTrigHi n) at_
  unfold Dev.triggerNoted
  generalize d.put64 (F.ingSesTrigLo n) (F.ingSesTrigHi n) at_ = b at noted kept status instant ⊢
  have rd (d : Dev) (f : Session → Session) (r : RegField) : (d.onSession n f).rd r = d.rd r := rfl
  have get64 (d : Dev) (f : Session → Session) (lo hi : RegField) : (d.onSession n f).get64 lo hi = d.get64 lo hi := rfl
  intro m
  refine ⟨?_, Dev.sesSt_congr ?_, ?_, ?_, ?_, ?_, ?_⟩
  · rw [Dev.session_onSession, Dev.session_congr (((Dev.wr_ing _ _ _).trans (Dev.wr_ing _ _ _)).trans noted)]
  · rw [rd, Dev.rd_wr_beside _ (F.ingSesStat_src n) (F.ingSesStat_state n) _ (by simp [RegField.ok, F.ingSesStat_src])
      (by simp [RegField.ok, F.ingSesStat_state]) (by simp [F.ingSesStat_src, F.ingSesStat_state]),
      Dev.rd_wr_other _ _ _ _ (by simp only [F.ingSesStat_state, F.ingSesTrigSub]; omega), status]
  · have streams (d : Dev) (f : Session → Session) : (d.onSession n f).ing.streams = d.ing.streams := rfl
    rw [streams, Dev.wr_ing, Dev.wr_ing, noted]
  · exact ((Dev.wr_cst _ _ _).trans (Dev.wr_cst _ _ _)).trans kept
  · rw [get64, Dev.get64_wr (by simp only [F.ingSesTrigLo, F.ingSesStat_src]; omega),
      Dev.get64_wr (by simp only [F.ingSesTrigLo, F.ingSesTrigSub]; omega), instant]
  · rw [rd, Dev.rd_wr_other _ (F.ingSesStat_src n) (F.ingSesTrigSub n) _ (by simp only [F.ingSesTrigSub, F.ingSesStat_src]; omega),
      Dev.rd_wr_same _ _ (by simp [RegField.ok, F.ingSesTrigSub])]
    exact Nat.mod_eq_of_lt hsub
  · rw [rd, Dev.rd_wr_same _ _ (by simp [RegField.ok, F.ingSesStat_src])]
    exact Nat.mod_eq_of_lt hsrc

theorem sesJudge_stop {st : SesSt} (h : st ≠ .run) (on : Bool) : sesJudge st .stop on = .counted := by
  cases st with
  | run => exact absurd rfl h
  | off | armed | stopping => rfl

theorem sesJudge_disarm {st : SesSt} (h : st ≠ .armed) (on : Bool) : sesJudge st .disarm on = .counted := by
  cases st with
  | armed => exact absurd rfl h
  | off | run | stopping => rfl

end

/-- Settles O22: what the state table makes of an event, what the boundary makes of it, and what a decoded timecode shows. -/
theorem sessionStates : Obligations.SessionStates := by
  unfold Obligations.SessionStates
  refine ⟨fun s n hn hw => ?events, fun s n hn => ?boundary, fun s => ?timecode⟩
  case events =>
    intro d waits counted
    refine ⟨fun h hm => ?_, fun h hm => ?_, fun h => ?_, fun h => ?_, fun h => ?_, fun h => ?_, fun ns h => ?_, fun ns h => ?_,
      fun ns h hns => ?_, fun j sub hj => ?_, fun j sub hj hc ht => ?_⟩
    · have goes : sesJudge (d.sesWillBe n) .arm (d.membersOn n) = .goes .armed := by rw [h, hm]; rfl
      exact completes_sesCtrlArm hw (Dev.sesEvent_waits goes (by simp) ▸ d.eventWaits_shows n .arm)
    · have no : sesJudge (d.sesWillBe n) .arm (d.membersOn n) = .counted := by rw [h, hm]; rfl
      exact completes_sesCtrlArm hw (Dev.sesEvent_counted no ▸ d.counted_shows n)
    · have goes : sesJudge (d.sesWillBe n) .disarm (d.membersOn n) = .goes .off := by rw [h]; rfl
      exact completes_sesCtrlDisarm hw (Dev.sesEvent_waits goes (by simp) ▸ d.eventWaits_shows n .disarm)
    · have goes : sesJudge (d.sesWillBe n) .stop (d.membersOn n) = .goes .stopping := by rw [h]; rfl
      exact completes_sesCtrlStop hw (Dev.sesEvent_waits goes (by simp) ▸ d.eventWaits_shows n .stop)
    · exact completes_sesCtrlStop hw (Dev.sesEvent_counted (sesJudge_stop h _) ▸ d.counted_shows n)
    · exact completes_sesCtrlDisarm hw (Dev.sesEvent_counted (sesJudge_disarm h _) ▸ d.counted_shows n)
    · have no : sesJudge (d.sesWillBe n) (.trigger 1 (ns / 10) d.timecode d.now) (d.membersOn n) = .counted := by rw [h]; rfl
      exact completes_sesCtrlTrigger hw (Dev.sesEvent_counted no ▸ d.counted_shows n)
    · have no : sesJudge (d.sesWillBe n) (.trigger 1 (ns / 10) d.timecode d.now) (d.membersOn n) = .ignTrigger := by
        rcases h with h | h <;> rw [h] <;> rfl
      obtain ⟨session, st, ing, cst⟩ := d.ignTrigger_shows n
      refine completes_sesCtrlTrigger hw ?_
      rw [Dev.sesEvent_ignTrigger no]
      exact ⟨session, st, ing, cst, rfl⟩
    · have goes : sesJudge (d.sesWillBe n) (.trigger 1 (ns / 10) d.timecode d.now) (d.membersOn n) = .goes .run := by rw [h]; rfl
      obtain ⟨session, st, streams, cst, instant, sub, src⟩ := Dev.triggerNoted_shows
        (d.eventWaits n (.trigger 1 (ns / 10) d.timecode d.now)) n (src := 1) (sub := ns / 10) (by decide) (by omega) d.timecode d.now
      have events := (d.eventWaits_shows n (.trigger 1 (ns / 10) d.timecode d.now)).1
      refine completes_sesCtrlTrigger hw ⟨_, ?_, st, ?_, ?_, streams, cst, instant, sub, src, Dev.sesEvent_triggers goes, fun hf g hg => ?_⟩
      · rw [session, events]
      · rw [session]
      · rw [session]
      · rw [Dev.sesEvent_triggers goes]
        refine Dev.foldl_markTrigger_next (fun k hk f hf' => hf k hk f ?_) (.inl hg)
        rwa [Dev.stream_congr streams] at hf'
    · exact completes_trgEdge rfl
    · exact completes_trgEdge ⟨_, rfl, Dev.trgEdge_rise hn hc ht⟩
  case boundary =>
    intro d done
    have was (x : Session → Session) : (d.onSession n x).sesSt n = d.sesSt n := rfl
    refine ⟨fun ev he => ?_, fun t he ht hs => ?_, fun t src sub tc at_ he ht hs => ?_, fun t he ht hs => ?_, fun t he ht hs => ?_,
      fun hs hp ht => ?_, fun hs ho => ?_⟩
    · exact completes_sessionStateApply (Dev.sessionApply_waits he rfl ▸ ⟨Dev.session_onSession d n id, rfl, rfl, rfl⟩)
    · refine completes_sessionStateApply ?_
      rw [Dev.sessionApply_due he ht, Dev.sesApply1_eq (st := .armed) (by rw [was, hs]; rfl)]
      exact ⟨Dev.sesSt_wr_state _ n .armed, rfl⟩
    · refine completes_sessionStateApply ?_
      rw [Dev.sessionApply_due he ht, Dev.sesApply1_eq (st := .run) (by rw [was, hs]; rfl)]
      exact ⟨Dev.sesSt_wr_state _ n .run, done.wr (F.ingSesTake n) (d.rd (F.ingSesTake n) + 1),
        Dev.rd_wr_take done n _, done.wr_plat _ _, done.wr_cst _ _, rfl⟩
    · refine completes_sessionStateApply ?_
      rw [Dev.sessionApply_due he ht, Dev.sesApply1_eq (st := .off) (by rw [was, hs]; rfl)]
      exact ⟨Dev.sesSt_wr_state _ n .off, rfl⟩
    · refine completes_sessionStateApply ?_
      rw [Dev.sessionApply_due he ht, Dev.sesApply1_eq (st := .stopping) (by rw [was, hs]; rfl)]
      exact ⟨rfl, Dev.sesSt_wr_state _ n .stopping⟩
    · refine completes_postExpiry ?_
      rw [Dev.postExpiry_stops hs hp ht]
      exact ⟨rfl, Dev.sesSt_wr_state d n .stopping⟩
    · refine completes_takeSealed ⟨d.takeRecorded n, rfl, fun hr => ?_, fun hr => ?_⟩
      · rw [Dev.takeSealed_closes hs ho, if_neg (by simp [hr])]
        exact ⟨rfl, Dev.sesSt_wr_state _ n .off⟩
      · rw [Dev.takeSealed_closes hs ho, if_pos hr]
        exact ⟨rfl, Dev.sesSt_wr_state _ n .armed⟩
  case timecode =>
    refine ⟨fun tc rate sub h => ?_, fun hv ht => ?_⟩
    · obtain ⟨shown, rated, valid, ing, plat, cst, -⟩ := s.dev.ltcShown_shows tc rate
      exact completes_ltcFrameDecoded (Dev.ltcFrame_alone h ▸ ⟨shown, rated, valid, ing, plat, cst⟩)
    · have invalid := s.dev.ltcCleared_invalid
      refine completes_ltcLoss (Dev.ltcLoss_clears hv ht ▸ ⟨invalid, if_neg (by simp [invalid]), ?_, ?_⟩)
      · rw [Dev.wr_plat, Dev.wr_plat]
      · exact Dev.sameRegions_trans (Dev.wr_sameRegions _ _ _) (Dev.wr_sameRegions _ _ _)

end Sys2Proof.Machine
end

section
/-! SUPPORT. GF(2⁸) as the line check uses it (R110): the product of bytes is bilinear over exclusive or, commutative and associative, and α = 2 has no
power below 76 that is 1. -/
namespace Sys2Proof.Machine
open Sys2Proof

/-! ## Functions that are linear over exclusive or -/

/-- A function of bytes that turns sums into sums. -/
def ByteLinear (f : Nat → Nat) : Prop := ∀ a < 256, ∀ b < 256, f (a ^^^ b) = f a ^^^ f b

theorem xor_byte {a b : Nat} (ha : a < 256) (hb : b < 256) : a ^^^ b < 256 := Nat.xor_lt_two_pow (n := 8) ha hb

theorem xor_xor_xor_comm (a b c d : Nat) : (a ^^^ b) ^^^ (c ^^^ d) = (a ^^^ c) ^^^ (b ^^^ d) := by ac_rfl

theorem xor_topBit_lt : ∀ k < 8, ∀ a < 256, 2 ^ k ≤ a → a < 2 ^ (k + 1) → 2 ^ k ^^^ a < 2 ^ k := by decide +kernel

/-- Two linear functions agree on all bytes where they agree on the powers of two. -/
theorem ByteLinear.ext {f g : Nat → Nat} (hf : ByteLinear f) (hg : ByteLinear g) (h : ∀ i < 8, f (2 ^ i) = g (2 ^ i)) {a : Nat} (ha : a < 256) :
    f a = g a := by
  have zero {f : Nat → Nat} (hf : ByteLinear f) : f 0 = 0 := (hf 0 (by omega) 0 (by omega)).trans (Nat.xor_self _)
  have below : ∀ k ≤ 8, ∀ a < 2 ^ k, f a = g a := by
    intro k
    induction k with
    | zero =>
      intro _ a ha
      obtain rfl : a = 0 := by omega
      rw [zero hf, zero hg]
    | succ k ih =>
      intro hk a ha
      have byte : a < 256 := ha.trans_le (Nat.pow_le_pow_right (n := 2) (by omega) hk)
      have pow : 2 ^ k < 256 := Nat.pow_lt_pow_right (a := 2) (n := 8) (by omega) hk
      by_cases low : a < 2 ^ k
      · exact ih (by omega) a low
      · have rest := xor_topBit_lt k hk a byte (by omega) ha
        have split : a = 2 ^ k ^^^ (2 ^ k ^^^ a) := (Nat.xor_xor_cancel_left _ _).symm
        rw [split, hf _ pow _ (rest.trans pow), hg _ pow _ (rest.trans pow), h k hk, ih (by omega) _ rest]
  exact below 8 le_rfl a ha

/-! ## The product -/

/-- One doubling of the product: times α, reduced. -/
def gfDouble (a : Nat) : Nat := if a * 2 < 256 then a * 2 else a * 2 ^^^ 0x11D

/-- The product's loop over a list of bits of the second factor. -/
def gfMulLoop (a b : Nat) (s : Nat) (l : List Nat) : Nat :=
  l.foldl (fun s i => if b.testBit (7 - i) then gfDouble s ^^^ a else gfDouble s) s

theorem gfMul_eq_loop (a b : Nat) : gfMul a b = gfMulLoop a b 0 (List.range 8) := rfl

theorem gfDouble_lt : ∀ a < 256, gfDouble a < 256 := by decide +kernel

theorem gfDouble_eq : ∀ a < 256, gfDouble a = a <<< 1 ^^^ (if a.testBit 7 then 0x11D else 0) := by decide +kernel

theorem ite_xor (p q : Bool) (a : Nat) : (if (p ^^ q) = true then a else 0) = (if p then a else 0) ^^^ (if q then a else 0) := by
  cases p <;> cases q <;> simp

theorem gfDouble_linear : ByteLinear gfDouble := by
  intro a ha b hb
  rw [gfDouble_eq _ (xor_byte ha hb), gfDouble_eq _ ha, gfDouble_eq _ hb, Nat.shiftLeft_xor_distrib, Nat.testBit_xor, ite_xor, xor_xor_xor_comm]

theorem gfMulLoop_lt {a s : Nat} (ha : a < 256) (b : Nat) (l : List Nat) (hs : s < 256) : gfMulLoop a b s l < 256 := by
  induction l generalizing s with
  | nil => exact hs
  | cons i l ih =>
    refine ih ?_
    dsimp only
    split
    · exact xor_byte (gfDouble_lt s hs) ha
    · exact gfDouble_lt s hs

theorem gfMul_lt {a : Nat} (ha : a < 256) (b : Nat) : gfMul a b < 256 := gfMulLoop_lt ha b _ (by omega)

theorem gfStep_eq (c : Bool) (x a : Nat) : (if c then x ^^^ a else x) = x ^^^ (if c then a else 0) := by
  cases c <;> simp

theorem gfMulLoop_xor_left {a a' s s' : Nat} (b : Nat) (l : List Nat) (hs : s < 256) (hs' : s' < 256) (ha : a < 256) (ha' : a' < 256) :
    gfMulLoop (a ^^^ a') b (s ^^^ s') l = gfMulLoop a b s l ^^^ gfMulLoop a' b s' l := by
  induction l generalizing s s' with
  | nil => rfl
  | cons i l ih =>
    have step : (if b.testBit (7 - i) then gfDouble (s ^^^ s') ^^^ (a ^^^ a') else gfDouble (s ^^^ s')) =
        (if b.testBit (7 - i) then gfDouble s ^^^ a else gfDouble s) ^^^ (if b.testBit (7 - i) then gfDouble s' ^^^ a' else gfDouble s') := by
      rw [gfDouble_linear s hs s' hs']
      split
      · exact xor_xor_xor_comm _ _ _ _
      · rfl
    have byte {s a : Nat} (hs : s < 256) (ha : a < 256) : (if b.testBit (7 - i) then gfDouble s ^^^ a else gfDouble s) < 256 :=
      gfMulLoop_lt ha b [i] hs
    unfold gfMulLoop at ih ⊢
    rw [List.foldl_cons, step]
    exact ih (byte hs ha) (byte hs' ha')

theorem gfMulLoop_xor_right {a s s' : Nat} (b b' : Nat) (l : List Nat) (hs : s < 256) (hs' : s' < 256) (ha : a < 256) :
    gfMulLoop a (b ^^^ b') (s ^^^ s') l = gfMulLoop a b s l ^^^ gfMulLoop a b' s' l := by
  induction l generalizing s s' with
  | nil => rfl
  | cons i l ih =>
    have step : (if (b ^^^ b').testBit (7 - i) then gfDouble (s ^^^ s') ^^^ a else gfDouble (s ^^^ s')) =
        (if b.testBit (7 - i) then gfDouble s ^^^ a else gfDouble s) ^^^ (if b'.testBit (7 - i) then gfDouble s' ^^^ a else gfDouble s') := by
      rw [gfStep_eq, gfStep_eq, gfStep_eq, gfDouble_linear s hs s' hs', Nat.testBit_xor, ite_xor, xor_xor_xor_comm]
    have byte {s : Nat} (b : Nat) (hs : s < 256) : (if b.testBit (7 - i) then gfDouble s ^^^ a else gfDouble s) < 256 :=
      gfMulLoop_lt ha b [i] hs
    unfold gfMulLoop at ih ⊢
    rw [List.foldl_cons, step]
    exact ih (byte b hs) (byte b' hs')

theorem gfMul_xor_left {a a' : Nat} (ha : a < 256) (ha' : a' < 256) (b : Nat) : gfMul (a ^^^ a') b = gfMul a b ^^^ gfMul a' b :=
  gfMulLoop_xor_left (s := 0) (s' := 0) b _ (by omega) (by omega) ha ha'

theorem gfMul_xor_right {a : Nat} (ha : a < 256) (b b' : Nat) : gfMul a (b ^^^ b') = gfMul a b ^^^ gfMul a b' :=
  gfMulLoop_xor_right (s := 0) (s' := 0) b b' _ (by omega) (by omega) ha

theorem gfMul_linear_left (b : Nat) : ByteLinear (gfMul · b) := fun _ ha _ ha' => gfMul_xor_left ha ha' b

theorem gfMul_linear_right {a : Nat} (ha : a < 256) : ByteLinear (gfMul a) := fun b _ b' _ => gfMul_xor_right ha b b'

theorem ByteLinear.comp {f g : Nat → Nat} (hf : ByteLinear f) (hg : ByteLinear g) (lt : ∀ a < 256, g a < 256) : ByteLinear fun a => f (g a) := by
  intro a ha b hb
  beta_reduce
  rw [hg a ha b hb, hf _ (lt a ha) _ (lt b hb)]

theorem twoPow_byte {i : Nat} (hi : i < 8) : 2 ^ i < 256 := Nat.pow_lt_pow_right (a := 2) (n := 8) (by omega) hi

theorem gfMul_comm {a b : Nat} (ha : a < 256) (hb : b < 256) : gfMul a b = gfMul b a := by
  have powers : ∀ i < 8, ∀ j < 8, gfMul (2 ^ i) (2 ^ j) = gfMul (2 ^ j) (2 ^ i) := by decide +kernel
  refine (gfMul_linear_left b).ext (gfMul_linear_right hb) (fun i hi => ?_) ha
  exact (gfMul_linear_right (twoPow_byte hi)).ext (gfMul_linear_left _) (powers i hi) hb

theorem gfMul_assoc {a b c : Nat} (ha : a < 256) (hb : b < 256) (hc : c < 256) : gfMul (gfMul a b) c = gfMul a (gfMul b c) := by
  have powers : ∀ i < 8, ∀ j < 8, ∀ k < 8, gfMul (gfMul (2 ^ i) (2 ^ j)) (2 ^ k) = gfMul (2 ^ i) (gfMul (2 ^ j) (2 ^ k)) := by decide +kernel
  refine ((gfMul_linear_left c).comp (gfMul_linear_left b) fun a ha => gfMul_lt ha b).ext (gfMul_linear_left _) (fun i hi => ?_) ha
  have hi' := twoPow_byte hi
  refine ((gfMul_linear_left c).comp (gfMul_linear_right hi') fun b _ => gfMul_lt hi' b).ext
    ((gfMul_linear_right hi').comp (gfMul_linear_left c) fun b hb => gfMul_lt hb c) (fun j hj => ?_) hb
  have hj' := twoPow_byte hj
  exact (gfMul_linear_right (gfMul_lt hi' _)).ext
    ((gfMul_linear_right hi').comp (gfMul_linear_right hj') fun c _ => gfMul_lt hj' c) (powers i hi j hj) hc

theorem gfMul_zero_left (b : Nat) : gfMul 0 b = 0 := (gfMul_linear_left b 0 (by omega) 0 (by omega)).trans (Nat.xor_self _)

theorem gfMul_one_right : ∀ a < 256, gfMul a 1 = a := by decide +kernel

theorem gfMul_one_left {a : Nat} (ha : a < 256) : gfMul 1 a = a := (gfMul_comm (by omega) ha).trans (gfMul_one_right a ha)

/-! ## Powers -/

section
variable {a : Nat} (ha : a < 256)
include ha

theorem gfPow_lt (n : Nat) : gfPow a n < 256 := by
  cases n with
  | zero => exact Nat.one_lt_succ_succ 254
  | succ n => exact gfMul_lt ha _

theorem gfPow_succ' (n : Nat) : gfPow a (n + 1) = gfMul (gfPow a n) a := gfMul_comm ha (gfPow_lt ha n)

theorem gfPow_add (m n : Nat) : gfPow a (m + n) = gfMul (gfPow a m) (gfPow a n) := by
  induction n with
  | zero => exact (gfMul_one_right _ (gfPow_lt ha m)).symm
  | succ n ih =>
    rw [← Nat.add_assoc, gfPow_succ' ha, ih, gfPow_succ' ha n, gfMul_assoc (gfPow_lt ha m) (gfPow_lt ha n) ha]

theorem gfPow_pow (m n : Nat) : gfPow (gfPow a m) n = gfPow a (m * n) := by
  induction n with
  | zero => rfl
  | succ n ih => rw [gfPow_succ' (gfPow_lt ha m), ih, Nat.mul_succ, gfPow_add ha]

end

/-- The eighth square of a byte is the byte. -/
theorem gfPow_256 {a : Nat} (ha : a < 256) : gfPow a 256 = a := by
  have square : ByteLinear (gfPow · 2) := by
    intro a ha b hb
    have two {x : Nat} (hx : x < 256) : gfPow x 2 = gfMul x x := congrArg (gfMul x) (gfMul_one_right x hx)
    beta_reduce
    rw [two (xor_byte ha hb), two ha, two hb, gfMul_xor_left ha hb, gfMul_xor_right ha, gfMul_xor_right hb, gfMul_comm hb ha, Nat.xor_assoc,
      Nat.xor_xor_cancel_left]
  have again {k : Nat} (h : ByteLinear (gfPow · k)) : ByteLinear (gfPow · (k * 2)) := by
    intro a ha b hb
    have := (square.comp h fun a ha => gfPow_lt ha k) a ha b hb
    beta_reduce at this ⊢
    rwa [gfPow_pow (xor_byte ha hb), gfPow_pow ha, gfPow_pow hb] at this
  have all : ByteLinear (gfPow · 256) := again (again (again (again (again (again (again square))))))
  refine all.ext (g := id) (fun _ _ _ _ => rfl) (fun i hi => ?_) ha
  have two : (2 : Nat) < 256 := by omega
  have powers : ∀ i < 8, gfPow 2 i = 2 ^ i := by decide +kernel
  have once : gfPow 2 16 = 76 := by decide +kernel
  have twice : gfPow 76 16 = 2 := by decide +kernel
  have alpha : gfPow 2 256 = 2 := by rw [← gfPow_pow two 16 16, once, twice]
  rw [id, ← powers i hi, gfPow_pow two, Nat.mul_comm, ← gfPow_pow two, alpha]

/-! ## Inverses -/

theorem gfInv_lt {a : Nat} (ha : a < 256) : gfInv a < 256 := gfPow_lt ha _

/-- a²⁵⁵ is idempotent, and only 0 and 1 are. -/
theorem gfMul_gfInv {a : Nat} (ha : a < 256) (h0 : a ≠ 0) : gfMul a (gfInv a) = 1 := by
  have idempotents : ∀ u < 256, gfMul u u = u → u = 0 ∨ u = 1 := by decide +kernel
  have unit : gfMul (gfPow a 255) a = a := (gfPow_succ' ha 255).symm.trans (gfPow_256 ha)
  have square : gfMul (gfPow a 255) (gfPow a 255) = gfPow a 255 := by
    show gfMul (gfPow a 255) (gfMul a (gfPow a 254)) = gfMul a (gfPow a 254)
    rw [← gfMul_assoc (gfPow_lt ha _) ha (gfPow_lt ha _), unit]
  obtain zero | one := idempotents _ (gfPow_lt ha 255) square
  · rw [zero, gfMul_zero_left] at unit
    exact absurd unit.symm h0
  · exact one

/-- A factor that is not zero divides out. -/
theorem gfMul_cancel {a b : Nat} (ha : a < 256) (h0 : a ≠ 0) (hb : b < 256) : gfMul (gfMul a b) (gfInv a) = b := by
  rw [gfMul_comm ha hb, gfMul_assoc hb ha (gfInv_lt ha), gfMul_gfInv ha h0, gfMul_one_right b hb]

theorem gfMul_ne_zero {a b : Nat} (ha : a < 256) (h0 : a ≠ 0) (hb : b < 256) (hb0 : b ≠ 0) : gfMul a b ≠ 0 := fun h =>
  hb0 ((gfMul_cancel ha h0 hb).symm.trans (h ▸ gfMul_zero_left _))

theorem gfPow_ne_zero {a : Nat} (ha : a < 256) (h0 : a ≠ 0) (n : Nat) : gfPow a n ≠ 0 := by
  induction n with
  | zero => exact Nat.one_ne_zero
  | succ n ih => exact gfMul_ne_zero ha h0 (gfPow_lt ha n) ih


theorem gfAlpha_eq {n : Nat} (h : n < 255) : gfAlpha n = gfPow 2 n := by rw [gfAlpha, Nat.mod_eq_of_lt h]

theorem gfAlpha_lt (n : Nat) : gfAlpha n < 256 := gfPow_lt (by omega) _

/-- The powers of α up to the length of a line's codeword are apart. -/
theorem gfAlpha_inj {m n : Nat} (hm : m < 76) (hn : n < 76) (h : gfAlpha m = gfAlpha n) : m = n := by
  have order : ∀ k < 76, k ≠ 0 → gfPow 2 k ≠ 1 := by decide +kernel
  have apart {m n : Nat} (hn : n < 76) (hlt : m < n) (h : gfPow 2 m = gfPow 2 n) : False := by
    have two : (2 : Nat) < 256 := by omega
    refine order (n - m) (by omega) (by omega) ?_
    have split : gfPow 2 n = gfMul (gfPow 2 m) (gfPow 2 (n - m)) := by rw [← gfPow_add two, Nat.add_sub_cancel' hlt.le]
    have m0 := gfPow_ne_zero two (by omega) m
    have one := gfMul_cancel (gfPow_lt two m) m0 (gfPow_lt two (n - m))
    rw [← split, ← h] at one
    rw [← one, gfMul_gfInv (gfPow_lt two m) m0]
  rw [gfAlpha_eq (by omega), gfAlpha_eq (by omega)] at h
  rcases Nat.lt_trichotomy m n with lt | eq | lt
  · exact (apart hn lt h).elim
  · exact eq
  · exact (apart hm lt h.symm).elim

end Sys2Proof.Machine
end

section
/-! SUPPORT. Words of the line check (R110): their evaluation, that a systematic word vanishes at α⁰ … α⁷, and what an error adds. -/
namespace Sys2Proof.Machine
open Sys2Proof

/-- Every symbol of the list is a byte. -/
def Symbols (l : List Nat) : Prop := ∀ c ∈ l, c < 256

theorem Symbols.append {a b : List Nat} (ha : Symbols a) (hb : Symbols b) : Symbols (a ++ b) := fun c hc =>
  (List.mem_append.1 hc).elim (ha c) (hb c)

theorem symbols_cons {c : Nat} {l : List Nat} : Symbols (c :: l) ↔ c < 256 ∧ Symbols l := List.forall_mem_cons

theorem symbols_bytes (l : List Byte) : Symbols (l.map (·.toNat)) := by
  intro c hc
  obtain ⟨b, -, rfl⟩ := List.mem_map.1 hc
  exact b.isLt

theorem Symbols.getD {l : List Nat} (h : Symbols l) (i : Nat) : l.getD i 0 < 256 := by
  rw [List.getD_eq_getElem?_getD]
  cases hi : l[i]? with
  | none => decide
  | some c => exact h c (List.mem_of_getElem? hi)

theorem Symbols.map_xor {l : List Nat} (h : Symbols l) {k : Nat} (hk : k < 256) : Symbols (l.map (· ^^^ k)) := by
  intro c hc
  obtain ⟨b, hb, rfl⟩ := List.mem_map.1 hc
  exact xor_byte (h b hb) hk

theorem length_lineAddrSyms (addr : Nat) : (lineAddrSyms addr).length = 4 := by simp [lineAddrSyms, beBytes, leBytes]

/-! ## Evaluation -/

/-- The evaluation of a word as it goes on from a value. -/
def gfEvalFrom (x s : Nat) (l : List Nat) : Nat := l.foldl (fun s c => gfMul s x ^^^ c) s

theorem gfEval_concat (x : Nat) (l : List Nat) (c : Nat) : gfEval x (l ++ [c]) = gfMul (gfEval x l) x ^^^ c := List.foldl_append

theorem gfEval_singleton (x c : Nat) : gfEval x [c] = c := by rw [← List.nil_append [c], gfEval_concat]; simp [gfEval, gfMul_zero_left]

theorem gfEvalFrom_lt {x : Nat} {l : List Nat} (h : Symbols l) {s : Nat} (hs : s < 256) : gfEvalFrom x s l < 256 := by
  induction l generalizing s with
  | nil => exact hs
  | cons c l ih =>
    obtain ⟨hc, hl⟩ := symbols_cons.1 h
    exact ih hl (xor_byte (gfMul_lt hs x) hc)

theorem gfEval_lt {x : Nat} {l : List Nat} (h : Symbols l) : gfEval x l < 256 := gfEvalFrom_lt h (by decide)

section
variable {x : Nat} (hx : x < 256)
include hx

theorem gfEval_append {a : List Nat} (ha : Symbols a) {b : List Nat} (hb : Symbols b) :
    gfEval x (a ++ b) = gfMul (gfEval x a) (gfPow x b.length) ^^^ gfEval x b := by
  induction b using List.reverseRecOn with
  | nil =>
    rw [List.append_nil, List.length_nil, gfPow, gfMul_one_right _ (gfEval_lt ha)]
    exact (Nat.xor_zero _).symm
  | append_singleton b c ih =>
    have hb' : Symbols b := fun c hc => hb c (List.mem_append_left _ hc)
    rw [← List.append_assoc, gfEval_concat, ih hb', gfEval_concat, List.length_append, List.length_singleton, gfPow_succ' hx,
      gfMul_xor_left (gfMul_lt (gfEval_lt ha) _) (gfEval_lt hb'), gfMul_assoc (gfEval_lt ha) (gfPow_lt hx _) hx, Nat.xor_assoc]

theorem gfEval_cons {c : Nat} (hc : c < 256) {l : List Nat} (hl : Symbols l) : gfEval x (c :: l) = gfMul c (gfPow x l.length) ^^^ gfEval x l := by
  have := gfEval_append hx (a := [c]) (symbols_cons.2 ⟨hc, fun _ h => absurd h List.not_mem_nil⟩) hl
  rwa [gfEval_singleton] at this

/-- The sum of a word and a multiple of another evaluates to the sum. -/
theorem gfEvalFrom_zipWith {k : Nat} (hk : k < 256) {u v : List Nat} (hu : Symbols u) (hv : Symbols v) (hl : u.length = v.length)
    {s t : Nat} (hs : s < 256) (ht : t < 256) :
    gfEvalFrom x (s ^^^ gfMul k t) (List.zipWith (fun a b => a ^^^ gfMul k b) u v) = gfEvalFrom x s u ^^^ gfMul k (gfEvalFrom x t v) := by
  induction u generalizing v s t with
  | nil =>
    obtain rfl : v = [] := List.length_eq_zero_iff.1 hl.symm
    rfl
  | cons a u ih =>
    cases v with
    | nil => cases hl
    | cons b v =>
      obtain ⟨ha, hu'⟩ := symbols_cons.1 hu
      obtain ⟨hb, hv'⟩ := symbols_cons.1 hv
      have step : gfMul (s ^^^ gfMul k t) x ^^^ (a ^^^ gfMul k b) = (gfMul s x ^^^ a) ^^^ gfMul k (gfMul t x ^^^ b) := by
        rw [gfMul_xor_left hs (gfMul_lt hk t), gfMul_xor_right hk, gfMul_assoc hk ht hx, xor_xor_xor_comm]
      have rest := ih hu' hv' (Nat.succ.inj hl) (xor_byte (gfMul_lt hs x) ha) (xor_byte (gfMul_lt ht x) hb)
      unfold gfEvalFrom at rest ⊢
      rw [List.zipWith_cons_cons, List.foldl_cons, step]
      exact rest

theorem gfEval_zipWith {k : Nat} (hk : k < 256) {u v : List Nat} (hu : Symbols u) (hv : Symbols v) (hl : u.length = v.length) :
    gfEval x (List.zipWith (fun a b => a ^^^ gfMul k b) u v) = gfEval x u ^^^ gfMul k (gfEval x v) := by
  have zero : 0 ^^^ gfMul k 0 = 0 := by
    rw [gfMul_comm hk (by omega), gfMul_zero_left]
    rfl
  have := gfEvalFrom_zipWith hx hk hu hv hl (s := 0) (t := 0) (by omega) (by omega)
  rwa [zero] at this

/-- A constant added to every symbol adds the word of that constant. -/
theorem gfEval_map_xor {k : Nat} (hk : k < 256) {l : List Nat} (hl : Symbols l) :
    gfEval x (l.map (· ^^^ k)) = gfEval x l ^^^ gfEval x (List.replicate l.length k) := by
  have same : l.map (· ^^^ k) = List.zipWith (fun a b => a ^^^ gfMul 1 b) l (List.replicate l.length k) := by
    clear hl
    induction l with
    | nil => rfl
    | cons c l ih => rw [List.map_cons, ih, List.length_cons, List.replicate_succ, List.zipWith_cons_cons, gfMul_one_left hk]
  have constant : Symbols (List.replicate l.length k) := fun c hc => (List.eq_of_mem_replicate hc).symm ▸ hk
  rw [same, gfEval_zipWith hx (by omega) hl constant (by simp), gfMul_one_left (gfEval_lt constant)]

end

/-! ## One symbol in error -/

/-- A word with an error on one symbol. -/
def oneErr (l : List Nat) (i e : Nat) : List Nat := l.set i (l.getD i 0 ^^^ e)

@[simp] theorem length_oneErr (l : List Nat) (i e : Nat) : (oneErr l i e).length = l.length := List.length_set

theorem oneErr_append_left {a : List Nat} {i : Nat} (h : i < a.length) (b : List Nat) (e : Nat) : oneErr (a ++ b) i e = oneErr a i e ++ b := by
  rw [oneErr, oneErr, List.getD_append _ _ _ _ h, List.set_append_left _ _ h]

theorem oneErr_append_right (a b : List Nat) (i e : Nat) : oneErr (a ++ b) (a.length + i) e = a ++ oneErr b i e := by
  rw [oneErr, oneErr, List.getD_append_right _ _ _ _ (by omega), List.set_append_right _ _ (by omega), Nat.add_sub_cancel_left]

theorem oneErr_twice (l : List Nat) (i e : Nat) : oneErr (oneErr l i e) i e = l := by
  by_cases h : i < l.length
  · have back : (oneErr l i e).getD i 0 ^^^ e = l.getD i 0 := by
      rw [oneErr, List.getD_eq_getElem?_getD, List.getElem?_set_self h, Option.getD_some, Nat.xor_assoc, Nat.xor_self, Nat.xor_zero]
    rw [oneErr, back, oneErr, List.set_set, List.getD_eq_getElem _ _ h, List.set_getElem_self]
  · rw [oneErr, oneErr, List.set_set, List.set_eq_of_length_le (by omega)]

theorem oneErr_map_xor {l : List Nat} {i : Nat} (h : i < l.length) (e k : Nat) : (oneErr l i e).map (· ^^^ k) = oneErr (l.map (· ^^^ k)) i e := by
  rw [oneErr, oneErr, List.map_set, List.getD_eq_getElem _ _ h, List.getD_eq_getElem _ _ (by simpa), List.getElem_map]
  congr 1
  ac_rfl

theorem Symbols.oneErr {l : List Nat} (h : Symbols l) (i : Nat) {e : Nat} (he : e < 256) : Symbols (oneErr l i e) := by
  intro c hc
  obtain hc | rfl := List.mem_or_eq_of_mem_set hc
  · exact h c hc
  · exact xor_byte (h.getD i) he

/-- An error adds its multiple of the power of its place. -/
theorem gfEval_oneErr {x : Nat} (hx : x < 256) {l : List Nat} (hl : Symbols l) {i e p : Nat} (he : e < 256) (hp : i + p + 1 = l.length) :
    gfEval x (oneErr l i e) = gfEval x l ^^^ gfMul e (gfPow x p) := by
  obtain ⟨a, c, b, rfl, ha, hb⟩ : ∃ a c b, l = a ++ c :: b ∧ a.length = i ∧ b.length = p :=
    ⟨l.take i, l[i]'(by omega), l.drop (i + 1), (List.take_append_drop i l).symm.trans (by rw [List.drop_eq_getElem_cons]), by simp; omega,
      by simp; omega⟩
  obtain ⟨hsa, hs⟩ : Symbols a ∧ Symbols (c :: b) :=
    ⟨fun x h => hl x (List.mem_append_left _ h), fun x h => hl x (List.mem_append_right _ h)⟩
  obtain ⟨hc, hsb⟩ := symbols_cons.1 hs
  have hce := xor_byte hc he
  have err : oneErr (a ++ c :: b) i e = a ++ (c ^^^ e) :: b := by
    rw [← ha, ← Nat.add_zero a.length, oneErr_append_right]
    rfl
  rw [err, gfEval_append hx hsa (symbols_cons.2 ⟨hce, hsb⟩), gfEval_append hx hsa hs, gfEval_cons hx hce hsb, gfEval_cons hx hc hsb,
    gfMul_xor_left hc he, hb, List.length_cons, List.length_cons]
  ac_rfl

/-! ## The systematic word -/

/-- The generator of the line check without its leading 1. -/
def lineGen : List Nat := (rsGen 8).drop 1

theorem lineGen_shape : Symbols lineGen ∧ lineGen.length = 8 := by unfold Symbols; decide +kernel

theorem lineGen_root : ∀ j < 8, gfEval (gfAlpha j) lineGen = gfPow (gfAlpha j) 8 := by decide +kernel

/-- The check register after one more symbol of the message. -/
def checkStep (reg : List Nat) (m : Nat) : List Nat :=
  List.zipWith (fun x y => x ^^^ gfMul (m ^^^ reg.headD 0) y) (reg.drop 1 ++ [0]) lineGen

theorem rsCheck_concat (msg : List Nat) (m : Nat) : rsCheck 8 (msg ++ [m]) = checkStep (rsCheck 8 msg) m := List.foldl_append

theorem symbols_zipWith {k : Nat} (hk : k < 256) {u v : List Nat} (hu : Symbols u) : Symbols (List.zipWith (fun a b => a ^^^ gfMul k b) u v) := by
  induction u generalizing v with
  | nil => exact fun _ h => absurd h (by simp)
  | cons a u ih =>
    obtain ⟨ha, hu'⟩ := symbols_cons.1 hu
    cases v with
    | nil => exact fun _ h => absurd h (by simp)
    | cons b v => exact symbols_cons.2 ⟨xor_byte ha (gfMul_lt hk b), ih hu'⟩

/-- The register holds the message's remainder at every root of the generator. -/
theorem rsCheck_shape {msg : List Nat} (h : Symbols msg) : Symbols (rsCheck 8 msg) ∧ (rsCheck 8 msg).length = 8 ∧
    ∀ j < 8, gfEval (gfAlpha j) (rsCheck 8 msg) = gfMul (gfEval (gfAlpha j) msg) (gfPow (gfAlpha j) 8) := by
  induction msg using List.reverseRecOn with
  | nil => unfold Symbols; decide +kernel
  | append_singleton msg m ih =>
    obtain ⟨sym, len, root⟩ := ih fun c hc => h c (List.mem_append_left _ hc)
    have hmsg : Symbols msg := fun c hc => h c (List.mem_append_left _ hc)
    have hm : m < 256 := h m (by simp)
    obtain ⟨genSym, genLen⟩ := lineGen_shape
    rw [rsCheck_concat]
    generalize rsCheck 8 msg = reg at sym len root
    match reg, len with
    | top :: tail, len =>
      have len' : tail.length = 7 := by simpa using len
      obtain ⟨htop, htail⟩ := symbols_cons.1 sym
      have feed : m ^^^ top < 256 := xor_byte hm htop
      have shifted : Symbols (tail ++ [0]) := htail.append (symbols_cons.2 ⟨by omega, fun _ h => absurd h List.not_mem_nil⟩)
      refine ⟨symbols_zipWith feed shifted, by simp [checkStep, genLen, len'], fun j hj => ?_⟩
      have hx := gfAlpha_lt j
      have now := root j hj
      rw [gfEval_cons hx htop htail, len'] at now
      have last : gfEval (gfAlpha j) (checkStep (top :: tail) m) =
          gfMul (gfEval (gfAlpha j) tail) (gfAlpha j) ^^^ gfMul (m ^^^ top) (gfPow (gfAlpha j) 8) := by
        rw [← lineGen_root j hj, ← Nat.xor_zero (gfMul (gfEval (gfAlpha j) tail) (gfAlpha j)), ← gfEval_concat]
        exact gfEval_zipWith hx feed shifted genSym (by simp [genLen, len'])
      have hM := gfEval_lt (x := gfAlpha j) hmsg
      have h8 := gfPow_lt hx 8
      rw [last, gfEval_concat, gfMul_xor_left (gfMul_lt hM _) hm, gfMul_assoc hM hx h8, gfMul_comm hx h8, ← gfMul_assoc hM h8 hx, ← now,
        gfMul_xor_left (gfMul_lt htop _) (gfEval_lt htail), gfMul_assoc htop (gfPow_lt hx 7) hx, ← gfPow_succ' hx, gfMul_xor_left hm htop]
      ac_rfl

/-- A word with its check vanishes at α⁰ … α⁷. -/
theorem gfEval_checked {msg : List Nat} (h : Symbols msg) {j : Nat} (hj : j < 8) : gfEval (gfAlpha j) (msg ++ rsCheck 8 msg) = 0 := by
  obtain ⟨sym, len, root⟩ := rsCheck_shape h
  rw [gfEval_append (gfAlpha_lt j) h sym, root j hj, len, Nat.xor_self]

end Sys2Proof.Machine
end

section
/-! The line check corrects one symbol (R110, R111). -/
namespace Sys2Proof.Machine
open Sys2Proof

/-! ## How a line decodes -/

/-- The syndrome at αʲ of a line as read. -/
def lineSyn (addr : Nat) (word : List Nat) (j : Nat) : Nat := gfEval (gfAlpha j) (lineAddrSyms addr ++ word)

section
variable {addr : Nat} {data chk : List Nat} {f : Nat → Nat} (hf : ∀ j < 8, lineSyn addr (data ++ chk) j = f j)
include hf

theorem decodeForm_syndromes : (List.range 8).map (fun j => gfEval (gfAlpha j) (lineAddrSyms addr ++ data ++ chk)) = (List.range 8).map f :=
  List.map_congr_left fun j hj => by
    rw [← hf j (List.mem_range.1 hj), lineSyn, List.append_assoc]

/-- Syndromes in the ratio of a place's power are one symbol in error there. -/
theorem decodeForm_one {e p : Nat} (he : e < 256) (h0 : e ≠ 0) (hp : p < 72) (hs : ∀ j < 8, f j = gfMul e (gfPow (gfAlpha j) p)) :
    decodeForm addr data chk = .one (71 - p) e := by
  have two : (2 : Nat) < 256 := by omega
  have power {j : Nat} (hj : j < 8) : gfPow (gfAlpha j) p = gfPow 2 (j * p) := by rw [gfAlpha_eq (by omega), gfPow_pow two]
  have place : gfPow 2 p = gfAlpha p := (gfAlpha_eq (by omega)).symm
  have at_ {j : Nat} (hj : j < 8) : f j = gfMul e (gfPow 2 (j * p)) := by rw [hs j hj, power hj]
  have nonzero {j : Nat} (hj : j < 8) : f j ≠ 0 := at_ hj ▸ gfMul_ne_zero he h0 (gfPow_lt two _) (gfPow_ne_zero two (by omega) _)
  have first : f 0 = e := by rw [at_ (by omega), Nat.zero_mul, gfPow, gfMul_one_right e he]
  have ratio : gfMul (f 1) (gfInv e) = gfAlpha p := by rw [at_ (by omega), gfMul_cancel he h0 (gfPow_lt two _), Nat.one_mul, place]
  have next {j : Nat} (hj : j < 7) : gfMul (f j) (gfAlpha p) = f (j + 1) := by
    rw [at_ (by omega), at_ (by omega), ← place, gfMul_assoc he (gfPow_lt two _) (gfPow_lt two _), ← gfPow_add two, Nat.succ_mul]
  have get {j : Nat} (hj : j < 8) : ((List.range 8).map f).getD j 0 = f j := by simp [List.getD_eq_getElem?_getD, hj]
  have found : (List.range 76).find? (fun q => gfAlpha q == gfAlpha p) = some p := by
    rw [List.find?_range_eq_some]
    refine ⟨beq_self_eq_true _, List.mem_range.2 (by omega), fun q hq => ?_⟩
    simpa using fun h => (Nat.ne_of_lt hq) (gfAlpha_inj (by omega) (by omega) h)
  have clean : ((List.range 8).map f).all (· == 0) = false := by
    rw [List.all_eq_false]
    exact ⟨f 0, List.mem_map.2 ⟨0, by simp, rfl⟩, by simpa using nonzero (by omega)⟩
  have some0 : ((List.range 8).map f).any (· == 0) = false := by
    rw [List.any_eq_false]
    intro x hx
    obtain ⟨j, hj, rfl⟩ := List.mem_map.1 hx
    simpa using nonzero (List.mem_range.1 hj)
  have geometric : (List.range 7).all (fun j => gfMul (((List.range 8).map f).getD j 0) (gfAlpha p) == ((List.range 8).map f).getD (j + 1) 0) = true := by
    rw [List.all_eq_true]
    intro j hj
    have hj' := List.mem_range.1 hj
    rw [get (by omega), get (by omega), next hj', beq_self_eq_true]
  unfold decodeForm
  simp only [decodeForm_syndromes hf, clean, some0, get (show 0 < 8 by omega), get (show 1 < 8 by omega), first, ratio, found, geometric, hp,
    Bool.false_eq_true, if_false, decide_true, Bool.and_self, if_true]

/-- A word whose syndromes are in no ratio fits no form. -/
theorem decodeForm_none (h0 : f 0 ≠ 0) (hr : ∀ x < 256, ¬ ∀ j < 7, gfMul (f j) x = f (j + 1)) (hlt : f 1 < 256) : decodeForm addr data chk = .none := by
  have get {j : Nat} (hj : j < 8) : ((List.range 8).map f).getD j 0 = f j := by simp [List.getD_eq_getElem?_getD, hj]
  have clean : ((List.range 8).map f).all (· == 0) = false := by
    rw [List.all_eq_false]
    exact ⟨f 0, List.mem_map.2 ⟨0, by simp, rfl⟩, by simpa using h0⟩
  have geometric : (List.range 7).all (fun j => gfMul (((List.range 8).map f).getD j 0) (gfMul (f 1) (gfInv (f 0))) ==
      ((List.range 8).map f).getD (j + 1) 0) = false := by
    rw [Bool.eq_false_iff, ne_eq, List.all_eq_true]
    refine fun h => hr (gfMul (f 1) (gfInv (f 0))) (gfMul_lt hlt _) fun j hj => ?_
    have := h j (List.mem_range.2 hj)
    rwa [get (by omega), get (by omega), beq_iff_eq] at this
  unfold decodeForm
  simp only [decodeForm_syndromes hf, clean, get (show 0 < 8 by omega), get (show 1 < 8 by omega), geometric, Bool.false_and, Bool.false_eq_true,
    if_false]
  split
  · rfl
  · split <;> rfl

end

/-! ## The mark of Hollow form against one error -/

/-- The syndrome of the mark on the eight check symbols. -/
def markSyn (j : Nat) : Nat := gfEval (gfAlpha j) (List.replicate 8 0xA5)

/-- A sequence in ratio `y` obeys the recurrence of the two ratios `y` and `z`. -/
theorem ratio_recurs {a y z : Nat} (ha : a < 256) (hy : y < 256) (hz : z < 256) :
    gfMul (gfMul a y) y = gfMul (y ^^^ z) (gfMul a y) ^^^ gfMul (gfMul y z) a := by
  have hay := gfMul_lt ha y
  rw [gfMul_xor_left hy hz, gfMul_comm hy hay, gfMul_comm hy hz, gfMul_assoc hz hy ha, gfMul_comm hy ha, Nat.xor_assoc, Nat.xor_self, Nat.xor_zero]

/-- The syndromes of the mark obey no recurrence of two ratios, so that no symbol in error makes a marked line fit the normal form with one
symbol corrected. -/
theorem mark_no_ratio {e y : Nat} (he : e < 256) (hy : y < 256) {f : Nat → Nat} (hf : ∀ j < 8, f j = markSyn j ^^^ gfMul e (gfPow y j)) :
    ∀ z < 256, ¬ ∀ j < 7, gfMul (f j) z = f (j + 1) := by
  intro z hz geometric
  have mark : ∀ j < 8, markSyn j < 256 := by decide +kernel
  have hA {j : Nat} : gfMul e (gfPow y j) < 256 := gfMul_lt he _
  have hB {j : Nat} (hj : j < 8) : f j < 256 := hf j hj ▸ xor_byte (mark j hj) hA
  have nextA (j : Nat) : gfMul e (gfPow y (j + 1)) = gfMul (gfMul e (gfPow y j)) y := by rw [gfPow_succ' hy, gfMul_assoc he (gfPow_lt hy j) hy]
  have markIs {j : Nat} (hj : j < 8) : markSyn j = gfMul e (gfPow y j) ^^^ f j := by
    rw [hf j hj, Nat.xor_comm (markSyn j), Nat.xor_xor_cancel_left]
  have hs := xor_byte hy hz
  have hq := gfMul_lt hy z
  have recurs {j : Nat} (hj : j < 6) : markSyn (j + 2) = gfMul (y ^^^ z) (markSyn (j + 1)) ^^^ gfMul (gfMul y z) (markSyn j) := by
    rw [markIs (by omega), markIs (by omega), markIs (by omega), nextA (j + 1), nextA j, ← geometric (j + 1) (by omega), ← geometric j (by omega),
      ratio_recurs hA hy hz, ratio_recurs (hB (by omega)) hz hy, gfMul_xor_right hs, gfMul_xor_right hq, Nat.xor_comm z y, gfMul_comm hz hy]
    ac_rfl
  have sum : ∀ s < 256, markSyn 2 = gfMul s (markSyn 1) → s = 255 := by decide +kernel
  have product : ∀ q < 256, markSyn 3 = gfMul 255 (markSyn 2) ^^^ gfMul q (markSyn 1) → q = 44 := by decide +kernel
  have fails : markSyn 5 ≠ gfMul 255 (markSyn 4) ^^^ gfMul 44 (markSyn 3) := by decide +kernel
  have first := recurs (j := 0) (by omega)
  rw [show markSyn 0 = 0 by decide +kernel, gfMul_comm hq (by omega), gfMul_zero_left, Nat.xor_zero] at first
  have hsum := sum _ hs first
  have hproduct := product _ hq (hsum ▸ recurs (j := 1) (by omega))
  exact fails (hproduct ▸ hsum ▸ recurs (j := 3) (by omega))

/-! ## A line read with one symbol in error -/

theorem addErrs_one {err : Nat} (he : err < 256) (l : List Nat) (sym : Nat) : addErrs l [(sym, err)] = oneErr l sym err := by
  show l.set sym (l.getD sym 0 ^^^ err % 256) = _
  rw [Nat.mod_eq_of_lt he, oneErr]

section
variable {addr : Nat} {data : List Byte}

/-- The 72 symbols of a line as stored: the data, and the check of normal form with `mark` on each symbol. -/
def lineWord (addr : Nat) (data : List Byte) (mark : Nat) : List Nat := data.map (·.toNat) ++ (lineCheck addr data).map (· ^^^ mark)

theorem symbols_lineAddrSyms (addr : Nat) : Symbols (lineAddrSyms addr) := symbols_bytes _

theorem lineCheck_shape (addr : Nat) (data : List Byte) : Symbols (lineCheck addr data) ∧ (lineCheck addr data).length = 8 := by
  obtain ⟨sym, len, -⟩ := rsCheck_shape ((symbols_lineAddrSyms addr).append (symbols_bytes data))
  exact ⟨sym, len⟩

theorem symbols_lineWord {mark : Nat} (hm : mark < 256) : Symbols (lineWord addr data mark) :=
  (symbols_bytes data).append ((lineCheck_shape addr data).1.map_xor hm)

theorem length_lineWord (hd : data.length = 64) (mark : Nat) : (lineWord addr data mark).length = 72 := by
  simp [lineWord, hd, (lineCheck_shape addr data).2]

theorem lineSyn_lineWord {mark : Nat} (hm : mark < 256) {j : Nat} (hj : j < 8) :
    lineSyn addr (lineWord addr data mark) j = gfEval (gfAlpha j) (List.replicate 8 mark) := by
  obtain ⟨sym, len⟩ := lineCheck_shape addr data
  have hx := gfAlpha_lt j
  have head := (symbols_lineAddrSyms addr).append (symbols_bytes data)
  have good : gfEval (gfAlpha j) ((lineAddrSyms addr ++ data.map (·.toNat)) ++ lineCheck addr data) = 0 := gfEval_checked head hj
  rw [gfEval_append hx head sym] at good
  rw [lineSyn, lineWord, ← List.append_assoc, gfEval_append hx head (sym.map_xor hm), List.length_map, gfEval_map_xor hx hm sym, ← Nat.xor_assoc,
    good, len, Nat.zero_xor]

variable (hd : data.length = 64) {sym err : Nat} (hs : sym < 72) (he : err < 256)
include hd hs he

/-- One symbol in error adds its multiple of the power of its place to each syndrome. -/
theorem lineSyn_oneErr {mark : Nat} (hm : mark < 256) {j : Nat} (hj : j < 8) : lineSyn addr (oneErr (lineWord addr data mark) sym err) j =
    gfEval (gfAlpha j) (List.replicate 8 mark) ^^^ gfMul err (gfPow (gfAlpha j) (71 - sym)) := by
  have whole := (symbols_lineAddrSyms addr).append (symbols_lineWord (addr := addr) (data := data) hm)
  have len : (lineAddrSyms addr ++ lineWord addr data mark).length = 76 := by
    rw [List.length_append, length_lineAddrSyms, length_lineWord hd]
  rw [← lineSyn_lineWord (addr := addr) (data := data) hm hj, lineSyn, lineSyn, ← oneErr_append_right]
  exact gfEval_oneErr (gfAlpha_lt j) whole he (by rw [len, length_lineAddrSyms]; omega)

omit he

/-- What a line with one symbol in error shows as its data and its check. -/
theorem oneErr_lineWord (mark : Nat) : (oneErr (lineWord addr data mark) sym err).take 64 =
      (if sym < 64 then oneErr (data.map (·.toNat)) sym err else data.map (·.toNat)) ∧
    (oneErr (lineWord addr data mark) sym err).drop 64 =
      (if sym < 64 then lineCheck addr data else oneErr (lineCheck addr data) (sym - 64) err).map (· ^^^ mark) := by
  have len : (data.map (·.toNat)).length = 64 := by simp [hd]
  have len8 := (lineCheck_shape addr data).2
  unfold lineWord
  split
  next low =>
    rw [oneErr_append_left (by omega)]
    exact ⟨List.take_left' (by simp [hd]), List.drop_left' (by simp [hd])⟩
  next high =>
    obtain ⟨k, rfl⟩ : ∃ k, sym = 64 + k := ⟨sym - 64, by omega⟩
    have at_ : oneErr (data.map (·.toNat) ++ (lineCheck addr data).map (· ^^^ mark)) (64 + k) err =
        data.map (·.toNat) ++ oneErr ((lineCheck addr data).map (· ^^^ mark)) k err := by rw [← len, oneErr_append_right]
    rw [at_, Nat.add_sub_cancel_left, oneErr_map_xor (by omega)]
    exact ⟨List.take_left' len, List.drop_left' len⟩

/-- Taking the mark off the check symbols as read leaves the line in normal form with the same symbol in error. -/
theorem oneErr_unmarked (mark : Nat) : (oneErr (lineWord addr data mark) sym err).take 64 ++
    ((oneErr (lineWord addr data mark) sym err).drop 64).map (· ^^^ mark) = oneErr (lineWord addr data 0) sym err := by
  have normal := List.take_append_drop 64 (oneErr (lineWord addr data 0) sym err)
  obtain ⟨take0, drop0⟩ := oneErr_lineWord (addr := addr) (err := err) hd hs 0
  obtain ⟨take, drop⟩ := oneErr_lineWord (addr := addr) (err := err) hd hs mark
  have off : ((· ^^^ mark) ∘ (· ^^^ mark) : Nat → Nat) = (· ^^^ 0) := by
    funext c
    simp
  rw [← normal, take0, take, drop0, drop, List.map_map, off]

/-- The symbol that the decoder finds in error is put right. -/
theorem corrected_data (mark : Nat) (he : err < 256) : (addErrs ((oneErr (lineWord addr data mark) sym err).take 64)
    (if sym < 64 then [(sym, err)] else [])).map w8 = data := by
  have bytes : (data.map (·.toNat)).map w8 = data := by simp [w8, Function.comp_def]
  rw [(oneErr_lineWord hd hs mark).1]
  split
  · rw [addErrs_one he, oneErr_twice, bytes]
  · exact bytes

end

/-- A line as stored in a form. -/
theorem lineWord_mark (addr : Nat) (data : List Byte) (hollow : Bool) : data.map (·.toNat) ++
    (lineCheck addr data).map (fun c => if hollow then c ^^^ 0xA5 else c) = lineWord addr data (if hollow then 0xA5 else 0) := by
  cases hollow <;> simp [lineWord]

/-- A line in normal form with one symbol in error decodes as that. -/
theorem decodeForm_normal {addr : Nat} {data : List Byte} (hd : data.length = 64) {sym err : Nat} (hs : sym < 72) (h0 : err ≠ 0) (he : err < 256)
    {dat raw : List Nat} (h : dat ++ raw = oneErr (lineWord addr data 0) sym err) : decodeForm addr dat raw = .one sym err := by
  have syn : ∀ j < 8, lineSyn addr (dat ++ raw) j = gfMul err (gfPow (gfAlpha j) (71 - sym)) := by
    have zero : ∀ j < 8, gfEval (gfAlpha j) (List.replicate 8 0) = 0 := by decide +kernel
    intro j hj
    rw [h, lineSyn_oneErr hd hs he (by omega) hj, zero j hj, Nat.zero_xor]
  rw [decodeForm_one syn he h0 (p := 71 - sym) (by omega) fun _ _ => rfl]
  congr 1
  omega

/-- A line in Hollow form with one symbol in error does not fit the normal form. -/
theorem decodeForm_marked {addr : Nat} {data : List Byte} (hd : data.length = 64) {sym err : Nat} (hs : sym < 72) (h0 : err ≠ 0) (he : err < 256)
    {dat raw : List Nat} (h : dat ++ raw = oneErr (lineWord addr data 0xA5) sym err) : decodeForm addr dat raw = .none := by
  have two : (2 : Nat) < 256 := by omega
  have syn : ∀ j < 8, lineSyn addr (dat ++ raw) j = markSyn j ^^^ gfMul err (gfPow (gfPow 2 (71 - sym)) j) := by
    intro j hj
    rw [h, lineSyn_oneErr hd hs he (by omega) hj, gfAlpha_eq (n := j) (by omega), gfPow_pow two, gfPow_pow two, Nat.mul_comm, markSyn,
      gfAlpha_eq (n := j) (by omega)]
  have mark : markSyn 0 = 0 ∧ markSyn 1 < 256 := by decide +kernel
  refine decodeForm_none syn ?_ (mark_no_ratio he (gfPow_lt two _) fun _ _ => rfl) (xor_byte mark.2 (gfMul_lt he _))
  rwa [mark.1, gfPow, gfMul_one_right err he, Nat.zero_xor]

/-- Settles O25: one symbol in error adds its multiple of a power to each syndrome; in normal form that locates it, and the mark of Hollow form
keeps the line from fitting the normal form first. -/
theorem lineCheckCorrects : Obligations.LineCheckCorrects := by
  unfold Obligations.LineCheckCorrects
  intro addr sym err data hollow hd hs h0 he
  have h0' : err ≠ 0 := by omega
  have met : [(sym, err)].all (fun e => e.2 % 256 == 0) = false := by simp [Nat.mod_eq_of_lt he, h0']
  unfold readForms
  rw [if_neg (by simp [met])]
  simp only [addErrs_one he, lineWord_mark]
  cases hollow with
  | false =>
    have normal := decodeForm_normal hd hs h0' he (List.take_append_drop 64 (oneErr (lineWord addr data 0) sym err))
    simp only [Bool.false_eq_true, if_false, normal, corrected_data hd hs 0 he, Bool.not_false]
  | true =>
    have marked := decodeForm_marked hd hs h0' he (List.take_append_drop 64 (oneErr (lineWord addr data 0xA5) sym err))
    have unmarked := decodeForm_normal hd hs h0' he (oneErr_unmarked (addr := addr) (err := err) hd hs 0xA5)
    simp only [if_true, marked, unmarked, corrected_data hd hs 0xA5 he, Bool.not_true]

end Sys2Proof.Machine
end

section
/-! SUPPORT. The lines of the store: what a run of a sparse map reads as, what storing a line shows, and what leaves every other line as it was
(R111–R113). -/
namespace Sys2Proof.Machine
open Sys2Proof

/-! ## Runs of a map -/

theorem Map.getRun_eq_map {α : Type} (dflt : α) (m : Map α) (k n : Nat) :
    Map.getRun dflt m k n = (List.range n).map fun i => Map.get dflt m (k + i) := by
  induction n generalizing k with
  | zero => rfl
  | succ n ih =>
    rw [Map.getRun, ih, List.range_succ_eq_map, List.map_cons, List.map_map]
    congr 1
    exact List.map_congr_left fun i _ => by rw [Function.comp_apply, Nat.succ_eq_add_one, Nat.add_right_comm, Nat.add_assoc]

theorem Map.getRun_congr {α : Type} {dflt : α} {m m' : Map α} {k n : Nat} (h : ∀ i < n, Map.get dflt m' (k + i) = Map.get dflt m (k + i)) :
    Map.getRun dflt m' k n = Map.getRun dflt m k n := by
  rw [Map.getRun_eq_map, Map.getRun_eq_map]
  exact List.map_congr_left fun i hi => h i (List.mem_range.1 hi)

theorem Map.getRun_setRun {α : Type} [DecidableEq α] (dflt : α) (m : Map α) (k : Nat) (vs : List α) :
    Map.getRun dflt (Map.setRun dflt m k vs) k vs.length = vs := by
  rw [Map.getRun_eq_map]
  refine List.ext_getElem (by simp) fun i hi hi' => ?_
  rw [List.getElem_map, List.getElem_range, Map.get_setRun, if_pos (by omega), Nat.add_sub_cancel_left, List.getD_eq_getElem _ _ hi']

/-- A value set at every key of a list is read at each of them. -/
theorem Map.get_foldl_set {α β : Type} [DecidableEq α] (dflt : Nat → α) (key : β → Nat) (v : α) {l : List β} {m : Map α} {j : Nat}
    (h : (∃ x ∈ l, key x = j) ∨ Map.get (dflt j) m j = v) :
    Map.get (dflt j) (l.foldl (fun m x => Map.set (dflt (key x)) m (key x) v) m) j = v := by
  induction l generalizing m with
  | nil => simpa using h
  | cons x l ih =>
    refine ih (m := Map.set (dflt (key x)) m (key x) v) ?_
    by_cases hx : key x = j
    · exact .inr (by rw [hx, Map.get_set_same])
    · obtain ⟨y, hy, hk⟩ | h := h
      · obtain rfl | hy := List.mem_cons.1 hy
        · exact absurd hk hx
        · exact .inl ⟨y, hy, hk⟩
      · exact .inr (by rwa [Map.get_set_other _ _ _ _ _ _ (Ne.symm hx)])

/-! ## Bytes of a line -/

@[simp] theorem length_zeros (n : Nat) : (zeros n).length = n := List.length_replicate

@[simp] theorem length_padTo (k : Nat) (bs : List Byte) : (padTo k bs).length = k := by
  simp only [padTo, slice, List.drop_zero, List.length_append, List.length_take, List.length_replicate]
  omega

theorem padTo_of_length {k : Nat} {bs : List Byte} (h : bs.length = k) : padTo k bs = bs := by
  simp [padTo, slice, ← h]

@[simp] theorem padTo_padTo (k : Nat) (bs : List Byte) : padTo k (padTo k bs) = padTo k bs := padTo_of_length (length_padTo k bs)

@[simp] theorem length_mergeBytes (data : List Byte) (bs : List (Nat × Byte)) : (mergeBytes data bs).length = data.length := by
  induction bs generalizing data with
  | nil => rfl
  | cons b bs ih => exact (ih _).trans List.length_set

theorem length_lineData (d : Dev) (a : Nat) : (d.lineData a).length = 64 := by
  rw [Dev.lineData, Dev.bytesAt, Map.getRun_eq_map, List.length_map, List.length_range]

theorem lineNo_line (line : Nat) : lineNo (line * 64) = line := by unfold lineNo; omega

theorem granuleOf_line (a : Nat) : granuleOf (lineNo a * 64) = granuleOf a := by unfold lineNo granuleOf; omega

theorem stackOf_lt (a : Nat) : stackOf a < 4 := Nat.mod_lt _ (by decide)

/-! ## What a line is read from -/

theorem Dev.byteAt_congr {d e : Dev} (h : e.cst.mem = d.cst.mem) (a : Nat) : e.byteAt a = d.byteAt a := by
  unfold Dev.byteAt
  rw [h]

theorem Dev.lineHollow_congr {d e : Dev} (h : e.cst.hollow = d.cst.hollow) (a : Nat) : e.lineHollow a = d.lineHollow a := by
  unfold Dev.lineHollow
  rw [h]

theorem Dev.lineData_congr {d e : Dev} {a : Nat} (h : ∀ b, lineNo b = lineNo a → e.byteAt b = d.byteAt b) : e.lineData a = d.lineData a :=
  Map.getRun_congr fun i hi => h (lineNo a * 64 + i) (by unfold lineNo; omega)

theorem Dev.unwritten_congr {d e : Dev} (hv : e.cst.valid = d.cst.valid) (hz : e.cst.zero = d.cst.zero) (hf : e.cst.filling = d.cst.filling)
    (a : Nat) : e.unwritten a = d.unwritten a := by
  unfold Dev.unwritten Dev.granuleValid Dev.zeroEnt
  rw [hv, hz, hf]

theorem Dev.mustWait_congr {d e : Dev} (h : e.cst.filling = d.cst.filling) (a : Nat) : e.mustWait a = d.mustWait a := by
  unfold Dev.mustWait
  rw [h]

theorem Dev.unwritten_line (d : Dev) (a : Nat) : d.unwritten (lineNo a * 64) = d.unwritten a := by
  unfold Dev.unwritten
  rw [granuleOf_line, lineNo_line]

/-! ## Storing a line -/

section
variable (d : Dev) (a : Nat) (data : List Byte) (hollow : Bool)

theorem Dev.byteAt_putLine_other {b : Nat} (h : lineNo b ≠ lineNo a) : (d.putLine a data hollow).byteAt b = d.byteAt b := by
  refine (Map.get_setRun _ _ _ _ _).trans (if_neg fun hb => h ?_)
  rw [length_padTo] at hb
  unfold lineNo at hb ⊢
  omega

theorem Dev.lineHollow_putLine_other {b : Nat} (h : lineNo b ≠ lineNo a) : (d.putLine a data hollow).lineHollow b = d.lineHollow b :=
  Map.get_set_other _ _ _ _ _ _ h

theorem Dev.lineHollow_putLine {b : Nat} (h : lineNo b = lineNo a) : (d.putLine a data hollow).lineHollow b = hollow := by
  unfold Dev.lineHollow
  rw [h]
  exact Map.get_set_same _ _ _ _

theorem Dev.lineData_putLine {b : Nat} (h : lineNo b = lineNo a) : (d.putLine a data hollow).lineData b = padTo 64 data := by
  have run := Map.getRun_setRun 0 d.cst.mem (lineNo a * 64) (padTo 64 data)
  rw [length_padTo] at run
  rw [Dev.lineData, h]
  exact run

theorem Dev.lineData_putLine_other {b : Nat} (h : lineNo b ≠ lineNo a) : (d.putLine a data hollow).lineData b = d.lineData b :=
  Dev.lineData_congr fun _ hc => d.byteAt_putLine_other a data hollow (hc ▸ h)

end

/-! ## Work on one line -/

/-- Between `d` and `e` no line but `line` changes, and no bitmap bit, tracker, wait or merge entry; every error that showed still shows. -/
structure Dev.LineWork (line : Nat) (d e : Dev) : Prop where
  byteAt : ∀ b, lineNo b ≠ line → e.byteAt b = d.byteAt b
  lineHollow : ∀ b, lineNo b ≠ line → e.lineHollow b = d.lineHollow b
  valid : e.cst.valid = d.cst.valid
  zero : e.cst.zero = d.cst.zero
  filling : e.cst.filling = d.cst.filling
  waiting : e.cst.waiting = d.cst.waiting
  merge : e.cst.merge = d.cst.merge
  shows : ∀ page bit, bit < 32 → d.errorShows page bit → e.errorShows page bit

namespace Dev.LineWork

variable {line : Nat} {b d e : Dev}

theorem refl (line : Nat) (d : Dev) : LineWork line d d := ⟨fun _ _ => rfl, fun _ _ => rfl, rfl, rfl, rfl, rfl, rfl, fun _ _ _ h => h⟩

theorem trans (h : LineWork line b d) (k : LineWork line d e) : LineWork line b e :=
  ⟨fun x hx => (k.byteAt x hx).trans (h.byteAt x hx), fun x hx => (k.lineHollow x hx).trans (h.lineHollow x hx), k.valid.trans h.valid,
    k.zero.trans h.zero, k.filling.trans h.filling, k.waiting.trans h.waiting, k.merge.trans h.merge,
    fun p x hx hs => k.shows p x hx (h.shows p x hx hs)⟩

/-- Where the store is as it was, work on any line may have been done. -/
theorem told (h : LineWork line b d) (hc : e.cst = d.cst) (hs : ∀ page bit, bit < 32 → d.errorShows page bit → e.errorShows page bit) :
    LineWork line b e :=
  h.trans ⟨fun _ _ => Dev.byteAt_congr (hc ▸ rfl) _, fun _ _ => Dev.lineHollow_congr (hc ▸ rfl) _,
    hc ▸ rfl, hc ▸ rfl, hc ▸ rfl, hc ▸ rfl, hc ▸ rfl, hs⟩

theorem raise (h : LineWork line b d) {page bit info : Nat} : LineWork line b (d.raise page bit info) :=
  h.told (d.raise_cst page bit info) fun _ _ hb hs => d.raise_errorShows_still page bit info hb hs

theorem wr (h : LineWork line b d) {f : RegField} (hf : 256 ≤ f.addr % 4096) {v : Nat} : LineWork line b (d.wr f v) :=
  h.told (d.wr_cst f v) fun _ _ _ hs => (d.errorShows_wr hf v _ _).2 hs

theorem count (h : LineWork line b d) {f : RegField} (hf : 256 ≤ f.addr % 4096) : LineWork line b (d.count f) := h.wr hf

theorem put64 (h : LineWork line b d) {lo hi : RegField} (hf : 256 ≤ lo.addr % 4096) {v : Nat} : LineWork line b (d.put64 lo hi v) :=
  (h.wr hf (v := v % 2 ^ 32)).told rfl fun _ _ _ hs => hs

theorem stepFree (h : LineWork line b d) : LineWork line b d.stepFree := h.told rfl fun _ _ _ hs => hs

theorem send (h : LineWork line b d) {m : OutMsg} : LineWork line b (d.send m) := h.told rfl fun _ _ _ hs => hs

theorem takeInjected (h : LineWork line b d) {page bit : Nat} : LineWork line b (d.takeInjected page bit) := h.told rfl fun _ _ _ hs => hs

theorem putLine {a : Nat} (h : LineWork (lineNo a) b d) {data : List Byte} {hollow : Bool} : LineWork (lineNo a) b (d.putLine a data hollow) :=
  h.trans ⟨fun _ hx => d.byteAt_putLine_other a data hollow hx, fun _ hx => d.lineHollow_putLine_other a data hollow hx, rfl, rfl, rfl, rfl, rfl,
    fun _ _ _ hs => hs⟩

theorem when (h : LineWork line b d) {c : Bool} {f : Dev → Dev} (hf : ∀ d, LineWork line b d → LineWork line b (f d)) :
    LineWork line b (d.when c f) := by
  unfold Dev.when
  split
  · exact hf d h
  · exact h

theorem fence1 (h : LineWork line b d) {u : Nat} {err : Option (Nat × Nat)} : LineWork line b (d.fence1 u err) := by
  unfold Dev.fence1
  extract_lets v off owners within noted fenced
  split
  · exact h
  · rw [Dev.onPlat_ownersFenced]
    exact h.told rfl fun _ _ _ hs => hs

theorem fence (h : LineWork line b d) {u : Nat} {err : Option (Nat × Nat)} : LineWork line b (d.fence u err) := by
  unfold Dev.fence
  extract_lets fenced
  split
  · exact h.fence1.fence1
  · exact h.fence1

theorem parityMet (h : LineWork line b d) {a parity : Nat} : LineWork line b (d.parityMet a parity).2 := by
  unfold Dev.parityMet
  extract_lets n retried
  have tried : LineWork line b retried := h.when fun _ h => h.raise.count (by simp only [F.cstStkCnt]; omega)
  split
  · exact tried.takeInjected.raise.fence
  · exact tried

theorem sealLine {a : Nat} (h : LineWork (lineNo a) b d) {data : List Byte} {scrub : Bool} : LineWork (lineNo a) b (d.seal a data scrub) := by
  unfold Dev.seal
  extract_lets n told at_ noted
  have said : LineWork (lineNo a) b told := by
    unfold told
    split
    · exact (h.raise.count (by decide)).count (by simp only [F.cstStkCnt]; omega)
    · exact (h.raise.count (by decide)).count (by simp only [F.cstStkCnt]; omega)
  have noted' : LineWork (lineNo a) b noted := said.trans ⟨fun _ _ => rfl, fun _ _ => rfl, rfl, rfl, rfl, rfl, rfl, fun _ _ _ hs => hs⟩
  exact (noted'.put64 (lo := F.cstLastUeLo) (by decide)).putLine

/-- The stack access of a read works on the line it reads. -/
theorem stackRead {rd : LineRead} (h : LineWork (lineNo rd.addr) b d) {scrub : Bool} : LineWork (lineNo rd.addr) b (d.stackRead rd scrub).2 := by
  unfold Dev.stackRead
  extract_lets n told
  have met : LineWork (lineNo rd.addr) b (told.parityMet rd.addr rd.parity).2 :=
    LineWork.parityMet (h.when fun _ h => h.raise.count (by simp only [F.cstStkCnt]; omega))
  generalize told.parityMet rd.addr rd.parity = p at met ⊢
  obtain ⟨failed, e⟩ := p
  dsimp -zeta only at met ⊢
  split
  · exact met
  · extract_lets lost bad taken r freed
    have read : LineWork (lineNo rd.addr) b freed := met.takeInjected.when fun _ h => h.stepFree
    split
    · exact read.sealLine
    · split
      · exact ((read.raise.count (by decide)).count (by simp only [F.cstStkCnt]; omega)).putLine
      · exact read

end Dev.LineWork

end Sys2Proof.Machine
end

section
/-! SUPPORT. The rules of a store access: a device with no injected fault, parity (R106, R138), and what a demand read makes of its line
(R111–R117). -/
namespace Sys2Proof.Machine
open Sys2Proof

/-! ## No fault injected -/

section
variable {d : Dev} (h : d.plat.armed = [])
include h

theorem Dev.injected_of_unarmed (page bit : Nat) : d.injected page bit = false := by rw [Dev.injected, h]; rfl

theorem Dev.takeInjected_of_unarmed (page bit : Nat) : d.takeInjected page bit = d := by
  have : d.plat.armed.erase (pageOf page, bit) = d.plat.armed := by rw [h]; rfl
  show { d with plat := { d.plat with armed := d.plat.armed.erase (pageOf page, bit) } } = d
  rw [this]

theorem Dev.raise_unarmed (page bit info : Nat) : (d.raise page bit info).plat.armed = [] := (d.raise_plat page bit info).armed.trans h

theorem Dev.wr_unarmed (f : RegField) (v : Nat) : (d.wr f v).plat.armed = [] := (congrArg Plat.armed (d.wr_plat f v)).trans h

theorem Dev.count_unarmed (f : RegField) : (d.count f).plat.armed = [] := Dev.wr_unarmed h f _

end

/-! ## Counters beside one another -/

theorem cstCnt_ok (i : Nat) : (F.cstCnt i).ok := by simp [RegField.ok, F.cstCnt]

theorem cstStkCnt_ok (n i : Nat) : (F.cstStkCnt n i).ok := by simp [RegField.ok, F.cstStkCnt]

theorem cstCnt_steady {i : Nat} (hi : i < 9) : (F.cstCnt i).steady := by simp only [RegField.steady, F.cstCnt]; omega

theorem cstStkCnt_steady (n : Nat) {i : Nat} (hi : i < 9) : (F.cstStkCnt n i).steady := by
  simp only [RegField.steady, F.cstStkCnt]
  omega

theorem cstCnt_ne {i k : Nat} (h : i ≠ k) : (F.cstCnt i).addr ≠ (F.cstCnt k).addr := by simp only [F.cstCnt]; omega

theorem cstCnt_ne_stk {i : Nat} (hi : i < 9) (n k : Nat) : (F.cstCnt i).addr ≠ (F.cstStkCnt n k).addr := by
  simp only [F.cstCnt, F.cstStkCnt]
  omega

theorem Dev.rd_count_other {f g : RegField} (h : g.addr ≠ f.addr) (d : Dev) : (d.count f).rd g = d.rd g := d.rd_wr_other f g _ h

theorem Dev.errorShows_count {f : RegField} (h : 256 ≤ f.addr % 4096) (d : Dev) (page bit : Nat) :
    (d.count f).errorShows page bit ↔ d.errorShows page bit := d.errorShows_wr h _ page bit

theorem Dev.rd_count_cst (d : Dev) (i : Nat) : (d.count (F.cstCnt i)).rd (F.cstCnt i) = satInc 32 (d.rd (F.cstCnt i)) := d.rd_count _ (cstCnt_ok i)

theorem Dev.rd_count_stk (d : Dev) (n i : Nat) : (d.count (F.cstStkCnt n i)).rd (F.cstStkCnt n i) = satInc 32 (d.rd (F.cstStkCnt n i)) :=
  d.rd_count _ (cstStkCnt_ok n i)

theorem Dev.rd_putLine (d : Dev) (a : Nat) (data : List Byte) (hollow : Bool) (f : RegField) : (d.putLine a data hollow).rd f = d.rd f := rfl

theorem Dev.errorShows_putLine (d : Dev) (a : Nat) (data : List Byte) (hollow : Bool) (page bit : Nat) :
    (d.putLine a data hollow).errorShows page bit ↔ d.errorShows page bit := Iff.rfl

theorem Dev.errorShows_onCst (d : Dev) (f : Cst → Cst) (page bit : Nat) : (d.onCst f).errorShows page bit ↔ d.errorShows page bit := Iff.rfl

theorem Dev.errorShows_stepFree (d : Dev) (page bit : Nat) : d.stepFree.errorShows page bit ↔ d.errorShows page bit := Iff.rfl

@[simp] theorem Dev.raise_bpm (d : Dev) (page bit info : Nat) : (d.raise page bit info).bpm = d.bpm := by
  obtain ⟨-, h, -⟩ := d.raise_sameRegions page bit info
  exact h

/-! ## Parity -/

/-- An access to stack `n` met one parity error. -/
def Dev.parityRetried (d : Dev) (a : Nat) : Dev := (d.raise (Pg.cstStk (stackOf a)) Er.cstStk_parityRetry a).count (F.cstStkCnt (stackOf a) 3)

/-- An access to a stack met two parity errors: the stack's fence begins. -/
def Dev.parityFailed (d : Dev) (a : Nat) : Dev :=
  ((d.parityRetried a).raise (Pg.cstStk (stackOf a)) Er.cstStk_stackFail a).fence (Pg.cstStk (stackOf a))
    (some (Pg.cstStk (stackOf a), Er.cstStk_stackFail))

theorem Dev.parityRetried_cst (d : Dev) (a : Nat) : (d.parityRetried a).cst = d.cst := by simp [Dev.parityRetried, Dev.count]

section
variable {d : Dev} (h : d.plat.armed = [])
include h

theorem Dev.parityRetried_unarmed (a : Nat) : (d.parityRetried a).plat.armed = [] := Dev.count_unarmed (Dev.raise_unarmed h _ _ _) _

theorem Dev.parityMet_none (a : Nat) : d.parityMet a 0 = (false, d) := by
  simp [Dev.parityMet, Dev.when, Dev.injected_of_unarmed h]

theorem Dev.parityMet_once (a : Nat) : d.parityMet a 1 = (false, d.parityRetried a) := by
  have armed := Dev.injected_of_unarmed (Dev.parityRetried_unarmed h a)
  unfold Dev.parityRetried at armed ⊢
  simp [Dev.parityMet, Dev.when, armed]

theorem Dev.parityMet_twice (a : Nat) {parity : Nat} (hp : 2 ≤ parity) : d.parityMet a parity = (true, d.parityFailed a) := by
  have armed := Dev.takeInjected_of_unarmed (Dev.parityRetried_unarmed h a)
  have once : 1 ≤ parity := by omega
  unfold Dev.parityFailed
  unfold Dev.parityRetried at armed ⊢
  simp [Dev.parityMet, Dev.when, armed, hp, once]

end

/-! ## A stack's fence -/

theorem masterOf_stack : ∀ n < 4, masterOf (Pg.cstStk n) = Pg.cstStk n := by decide +kernel

/-- A fence begins, or finds the unit past fencing. -/
theorem Dev.fence1_cases (d : Dev) (unit : Nat) (err : Option (Nat × Nat)) :
    d.fence1 unit err = d ∨ d.fence1 unit err = d.fenceBegun (masterOf unit) err := by
  unfold Dev.fence1
  extract_lets u off owners within noted fenced
  split
  · exact .inl rfl
  · exact .inr (Dev.onPlat_ownersFenced _ _)

theorem Dev.fence_rd (d : Dev) (unit : Nat) (err : Option (Nat × Nat)) (f : RegField) : (d.fence unit err).rd f = d.rd f := by
  have one (d : Dev) (u : Nat) : (d.fence1 u err).rd f = d.rd f := by obtain h | h := d.fence1_cases u err <;> rw [h]; rfl
  unfold Dev.fence
  extract_lets e
  split
  · rw [one, one]
  · exact one _ _

theorem Dev.fence_cst (d : Dev) (unit : Nat) (err : Option (Nat × Nat)) : (d.fence unit err).cst = d.cst := by
  have one (d : Dev) (u : Nat) : (d.fence1 u err).cst = d.cst := by obtain h | h := d.fence1_cases u err <;> rw [h]; rfl
  unfold Dev.fence
  extract_lets e
  split
  · rw [one, one]
  · exact one _ _

/-- A fence of ING leaves the fence of stack 3 as it stands. -/
theorem Dev.closed_stack_fence1 {d : Dev} {n : Nat} (hn : n < 4) {f : Fence} (hf : f ∈ d.plat.fences) (hu : f.unit = Pg.cstStk n)
    (err : Option (Nat × Nat)) : (d.fence1 0x300000 err).closed (Pg.cstStk n) = true := by
  have closes {e : Dev} (h : f ∈ e.plat.fences) : e.closed (Pg.cstStk n) = true :=
    (Dev.closed_iff _ _).2 ⟨Pg.cstStk n, by simp [enclosing, masterOf_stack n hn], .inr ⟨f, h, .inl hu⟩⟩
  obtain h | h := d.fence1_cases 0x300000 err
  · rw [h]
    exact closes hf
  · rw [h]
    refine closes (List.mem_append_left _ (List.mem_filter.2 ⟨hf, ?_⟩))
    have ing : masterOf 0x300000 = 0x300000 := by decide +kernel
    have out : f.unit ∉ d.fenceWithin (masterOf 0x300000) := by
      rw [hu, ing, Dev.fenceWithin, if_pos (by decide)]
      intro hm
      obtain ⟨e, he, hx⟩ := List.mem_map.1 hm
      have region := (List.mem_filter.1 he).2
      simp only [Bool.and_eq_true, beq_iff_eq] at region
      have other : regionOf (Pg.cstStk n) ≠ regionOf 0x300000 := by simp only [regionOf, Pg.cstStk]; omega
      exact other (hx ▸ region.1.1)
    simpa using out

theorem Dev.stackUp_open {d : Dev} {n : Nat} (h : d.stackUp n = true) : d.closed (Pg.cstStk n) = false ∧ d.unitAt (Pg.cstStk n) ≠ .off := by
  unfold Dev.stackUp at h
  cases hu : d.unitAt (Pg.cstStk n) <;> simp_all

/-- A stack that serves is closed once its fence has begun. -/
theorem Dev.fence_stack_closed {d : Dev} {n : Nat} (hn : n < 4) (hc : d.closed (Pg.cstStk n) = false) (hu : d.unitAt (Pg.cstStk n) ≠ .off)
    (err : Option (Nat × Nat)) : (d.fence (Pg.cstStk n) err).closed (Pg.cstStk n) = true := by
  have master := masterOf_stack n hn
  have first : d.fence1 (Pg.cstStk n) err = d.fenceBegun (Pg.cstStk n) err := by
    rw [Dev.fence1_eq err (by rwa [master]) (by rw [master]; exact fun h => absurd h hu), master]
  unfold Dev.fence
  simp only [first]
  split
  · exact Dev.closed_stack_fence1 hn (d.fenceBegun_mem _ err) rfl err
  · exact Dev.fenceBegun_closed d master err

/-- What two parity errors show. -/
theorem Dev.parityFailed_shows {d : Dev} {a : Nat} (hup : d.stackUp (stackOf a) = true) : let e := d.parityFailed a
    e.errorShows (Pg.cstStk (stackOf a)) Er.cstStk_parityRetry ∧ e.errorShows (Pg.cstStk (stackOf a)) Er.cstStk_stackFail ∧
      e.closed (Pg.cstStk (stackOf a)) = true ∧ e.cst = d.cst ∧ ∀ i < 9, e.rd (F.cstCnt i) = d.rd (F.cstCnt i) := by
  intro e
  obtain ⟨open_, on⟩ := Dev.stackUp_open hup
  have alike : d.plat.alike ((d.parityRetried a).raise (Pg.cstStk (stackOf a)) Er.cstStk_stackFail a).plat := by
    refine Plat.alike_trans ?_ (Dev.raise_plat _ _ _ _)
    rw [Dev.parityRetried, Dev.count, Dev.wr_plat]
    exact Dev.raise_plat _ _ _ _
  have cnt : 256 ≤ (F.cstStkCnt (stackOf a) 3).addr % 4096 := by simp only [F.cstStkCnt]; omega
  have work : Dev.LineWork 0 ((d.parityRetried a).raise (Pg.cstStk (stackOf a)) Er.cstStk_stackFail a) e := Dev.LineWork.fence (.refl _ _)
  refine ⟨work.shows _ _ (by decide) ?_, work.shows _ _ (by decide) (Dev.raise_errorShows _ _ _ (by decide)), ?_, ?_, fun i hi => ?_⟩
  · exact Dev.raise_errorShows_still _ _ _ _ (by decide) ((Dev.errorShows_count cnt _ _ _).2 (Dev.raise_errorShows _ _ _ (by decide)))
  · refine Dev.fence_stack_closed (stackOf_lt a) ?_ ?_ _
    · rwa [Dev.closed_congr alike.units alike.fences]
    · rwa [Dev.unitAt_congr alike.units]
  · exact (Dev.fence_cst _ _ _).trans ((Dev.raise_cst _ _ _ _).trans (d.parityRetried_cst a))
  · exact (Dev.fence_rd _ _ _ _).trans ((Dev.rd_raise (cstCnt_steady hi) _ _ _).trans
      ((Dev.rd_count_other (cstCnt_ne_stk hi _ _) _).trans (Dev.rd_raise (cstCnt_steady hi) _ _ _)))

/-! ## The stack access of a read -/

/-- A line that the decoder corrects: reported, counted and written back in normal form. -/
def Dev.lineCorrected (d : Dev) (a : Nat) (data : List Byte) : Dev :=
  (((d.raise (Pg.cstStk (stackOf a)) Er.cstStk_ce a).count (F.cstCnt 0)).count (F.cstStkCnt (stackOf a) 0)).putLine a data false

section
variable {d m : Dev} {rd : LineRead} (ho : rd.odecc = false) (hp : d.parityMet rd.addr rd.parity = (false, m)) (hm : m.plat.armed = [])
  (hst : (Map.get 0 m.cst.stale (granuleOf rd.addr)).testBit (lineNo rd.addr % 1024) = false)
include ho hp hm hst

/-- What the decoder finds decides what a read of a stack delivers and writes back. -/
theorem Dev.stackRead_eq (scrub : Bool) : d.stackRead rd scrub =
    (let r := readForms rd.addr (m.lineData rd.addr) (m.lineHollow rd.addr) rd.errs
     if r.noFit then (⟨r.data, true⟩, m.seal rd.addr r.data scrub)
     else if r.corrected then (⟨r.data, false⟩, m.lineCorrected rd.addr r.data)
     else (⟨r.data, r.hollow⟩, m)) := by
  unfold Dev.stackRead Dev.lineCorrected
  simp only [ho, Dev.when, Bool.false_eq_true, if_false, hp, Dev.injected_of_unarmed hm, Dev.takeInjected_of_unarmed hm, hst, Bool.or_false]

end

/-- A read that fails parity twice. -/
theorem Dev.stackRead_failed {d : Dev} {rd : LineRead} (ho : rd.odecc = false) (hd : d.plat.armed = []) (hp : 2 ≤ rd.parity) (scrub : Bool) :
    d.stackRead rd scrub = (⟨zeros 64, true⟩, d.parityFailed rd.addr) := by
  unfold Dev.stackRead
  simp only [ho, Dev.when, Bool.false_eq_true, if_false, Dev.parityMet_twice hd _ hp, if_true]

/-! ## Delivery -/

/-- A line goes to its reader, a Hollow one counted. -/
def Dev.lineGiven (d : Dev) (a : Nat) (data : List Byte) (hollow : Bool) : Dev := (d.when hollow (·.count (F.cstCnt 3))).send (.line a data hollow)

theorem Dev.lineGiven_out (d : Dev) (a : Nat) (data : List Byte) (hollow : Bool) : .line a data hollow ∈ (d.lineGiven a data hollow).out :=
  List.mem_append_right _ (List.mem_singleton_self _)

theorem Dev.lineGiven_work (d : Dev) (line a : Nat) (data : List Byte) (hollow : Bool) : Dev.LineWork line d (d.lineGiven a data hollow) :=
  Dev.LineWork.send ((Dev.LineWork.refl line d).when fun _ h => h.count (by decide))

theorem Dev.lineGiven_records (d : Dev) (a : Nat) (data : List Byte) (hollow : Bool) : (d.lineGiven a data hollow).cst = d.cst ∧
    (d.lineGiven a data hollow).bpm = d.bpm ∧ (d.lineGiven a data hollow).plat = d.plat := by
  cases hollow <;> simp [Dev.lineGiven, Dev.when, Dev.count]

theorem Dev.rd_lineGiven {f : RegField} (h : f.addr ≠ (F.cstCnt 3).addr) (d : Dev) (a : Nat) (data : List Byte) (hollow : Bool) :
    (d.lineGiven a data hollow).rd f = d.rd f := by
  cases hollow
  · rfl
  · exact Dev.rd_count_other h d

theorem Dev.rd_lineGiven_hollow (d : Dev) (a : Nat) (data : List Byte) :
    (d.lineGiven a data true).rd (F.cstCnt 3) = satInc 32 (d.rd (F.cstCnt 3)) := by
  rw [Dev.lineGiven, Dev.rd_send, Dev.when, if_pos rfl]
  exact d.rd_count_cst 3

theorem Dev.storeReadNow_deliver {d e : Dev} {rd : LineRead} {o : Delivered} (h : d.readLine rd = e.deliver o) :
    d.storeReadNow rd false = e.lineGiven rd.addr o.data o.hollow := by
  unfold Dev.storeReadNow
  rw [h]
  rfl

/-- A read by nobody's handle delivers what the line shows. -/
theorem Dev.storeReadNow_eq {d e : Dev} {rd : LineRead} {o : Delivered} (hb : rd.by_ = none) (h : d.readRaw rd = (o, e)) :
    d.storeReadNow rd false = e.lineGiven rd.addr o.data o.hollow := by
  have line : d.readLine rd = e.deliver o := by
    unfold Dev.readLine
    rw [hb]
    dsimp only
    rw [h]
  exact Dev.storeReadNow_deliver line

/-! ## A demand read -/

theorem Dev.bitmapRead_good {d : Dev} (h : d.injected Pg.cstReg Er.cstReg_gvbUe = false) (a : Nat) : d.bitmapRead a .good = d := by
  simp [Dev.bitmapRead, SramRead.good, h]

theorem Dev.readRaw_down {d : Dev} {rd : LineRead} (h : d.stackUp (stackOf rd.addr) = false) : d.readRaw rd = (⟨zeros 64, true⟩, d) := by
  simp [Dev.readRaw, h]

section
variable {d : Dev} {rd : LineRead} (hup : d.stackUp (stackOf rd.addr) = true) (hs : rd.sram = .good)
  (hg : d.injected Pg.cstReg Er.cstReg_gvbUe = false) (hret : (d.bufEnt (granuleOf rd.addr)).retired = false)
  (hmerge : d.cst.merge.find? (·.line == lineNo rd.addr) = none)
include hup hs hg hret hmerge

theorem Dev.readRaw_unwritten (hw : d.unwritten rd.addr = true) : d.readRaw rd = (⟨zeros 64, false⟩, d) := by
  unfold Dev.readRaw
  simp only [hup, hs, Dev.bitmapRead_good hg, hret, hw, hmerge, Bool.not_true, Bool.false_eq_true, if_false, if_true, Bool.or_false]

theorem Dev.readRaw_read {o : Delivered} {e : Dev} (hw : d.unwritten rd.addr = false) (h : d.stackRead rd false = (o, e)) :
    d.readRaw rd = (o, e) := by
  have merge : e.cst.merge = d.cst.merge := by
    have := (Dev.LineWork.stackRead (.refl (lineNo rd.addr) d) (scrub := false)).merge
    rwa [h] at this
  unfold Dev.readRaw
  simp only [hup, hs, Dev.bitmapRead_good hg, hret, hw, h, merge, hmerge, Bool.not_true, Bool.false_eq_true, if_false, Bool.or_false]

end

end Sys2Proof.Machine
end

section
/-! Reads of the store (R106, R111–R117, R124, R138–R140). -/
namespace Sys2Proof.Machine
open Sys2Proof

theorem completes_storeRead {s : State} {rd : LineRead} {Q : Dev → Prop} (hw : s.dev.mustWait rd.addr = false)
    (h : Q (s.dev.storeReadNow rd false)) : completes (.storeRead rd) s Q := by
  refine ⟨_, rfl, ?_⟩
  beta_reduce
  rwa [Dev.storeRead, if_neg (by simp [hw])]

theorem completes_storeRead_waits {s : State} {rd : LineRead} {Q : Dev → Prop} (hw : s.dev.mustWait rd.addr = true)
    (h : Q (s.dev.onCst fun c => { c with waiting := c.waiting ++ [.read rd false] })) : completes (.storeRead rd) s Q := by
  refine ⟨_, rfl, ?_⟩
  beta_reduce
  rwa [Dev.storeRead, if_pos hw]

/-! ## A line corrected, and a line sealed -/

section
variable (d : Dev) (a : Nat) (data : List Byte)

theorem Dev.lineCorrected_bpm : (d.lineCorrected a data).bpm = d.bpm := by
  simp [Dev.lineCorrected, Dev.putLine, Dev.poke, Dev.count]

theorem Dev.lineCorrected_work : Dev.LineWork (lineNo a) d (d.lineCorrected a data) :=
  Dev.LineWork.putLine ((((Dev.LineWork.refl _ d).raise).count (by decide)).count (by simp only [F.cstStkCnt]; omega))

theorem Dev.lineCorrected_shows : let e := d.lineCorrected a data
    e.errorShows (Pg.cstStk (stackOf a)) Er.cstStk_ce ∧ e.rd (F.cstCnt 0) = satInc 32 (d.rd (F.cstCnt 0)) ∧
      e.rd (F.cstStkCnt (stackOf a) 0) = satInc 32 (d.rd (F.cstStkCnt (stackOf a) 0)) ∧ e.lineData a = padTo 64 data ∧
      e.lineHollow a = false := by
  have cnt : 256 ≤ (F.cstStkCnt (stackOf a) 0).addr % 4096 := by simp only [F.cstStkCnt]; omega
  unfold Dev.lineCorrected
  refine ⟨?_, ?_, ?_, Dev.lineData_putLine _ _ _ _ rfl, Dev.lineHollow_putLine _ _ _ _ rfl⟩
  · rw [Dev.errorShows_putLine, Dev.errorShows_count cnt, Dev.errorShows_count (by decide)]
    exact Dev.raise_errorShows _ _ _ (by decide)
  · rw [Dev.rd_putLine, Dev.rd_count_other (cstCnt_ne_stk (by omega) _ _), Dev.rd_count_cst, Dev.rd_raise (cstCnt_steady (by omega))]
  · rw [Dev.rd_putLine, Dev.rd_count_stk, Dev.rd_count_other (cstCnt_ne_stk (by omega) _ _).symm, Dev.rd_raise (cstStkCnt_steady _ (by omega))]

/-- An uncorrectable line is reported and counted, and its address kept. -/
def Dev.lineLost (d : Dev) (a : Nat) : Dev :=
  ((d.raise (Pg.cstStk (stackOf a)) Er.cstStk_ue a).count (F.cstCnt 1)).count (F.cstStkCnt (stackOf a) 1)

theorem Dev.seal_eq : d.seal a data false = (((d.lineLost a).onCst fun c => { c with
    sealed := c.sealed.filter (· != lineNo a * 64) ++ [lineNo a * 64] }).put64 F.cstLastUeLo F.cstLastUeHi (lineNo a * 64)).putLine a data true := by
  simp only [Dev.seal, Dev.lineLost, Bool.false_eq_true, if_false]

theorem Dev.rd_seal {f : RegField} (h : f.addr ≠ F.cstLastUeLo.addr) : (d.seal a data false).rd f = (d.lineLost a).rd f := by
  rw [Dev.seal_eq, Dev.rd_putLine, Dev.rd_put64_other h, Dev.rd_onCst]

theorem Dev.seal_bpm : (d.seal a data false).bpm = d.bpm := by
  simp [Dev.seal_eq, Dev.lineLost, Dev.putLine, Dev.poke, Dev.put64, Dev.count]

theorem Dev.get64_putLine (hollow : Bool) (lo hi : RegField) : (d.putLine a data hollow).get64 lo hi = d.get64 lo hi := rfl

theorem Dev.seal_shows : let e := d.seal a data false
    e.errorShows (Pg.cstStk (stackOf a)) Er.cstStk_ue ∧ e.rd (F.cstCnt 1) = satInc 32 (d.rd (F.cstCnt 1)) ∧
      e.rd (F.cstStkCnt (stackOf a) 1) = satInc 32 (d.rd (F.cstStkCnt (stackOf a) 1)) ∧ e.rd (F.cstCnt 3) = d.rd (F.cstCnt 3) ∧
      e.get64 F.cstLastUeLo F.cstLastUeHi = lineNo a * 64 ∧ e.lineData a = padTo 64 data ∧ e.lineHollow a = true := by
  have cnt : 256 ≤ (F.cstStkCnt (stackOf a) 1).addr % 4096 := by simp only [F.cstStkCnt]; omega
  have apart : (F.cstStkCnt (stackOf a) 1).addr ≠ F.cstLastUeLo.addr := by simp only [F.cstStkCnt, F.cstLastUeLo]; omega
  have lost : (d.lineLost a).errorShows (Pg.cstStk (stackOf a)) Er.cstStk_ue := by
    rw [Dev.lineLost, Dev.errorShows_count cnt, Dev.errorShows_count (by decide)]
    exact Dev.raise_errorShows _ _ _ (by decide)
  refine ⟨?_, ?_, ?_, ?_, ?_, ?_, ?_⟩
  · rw [Dev.seal_eq, Dev.errorShows_putLine]
    exact (Dev.errorShows_wr ((d.lineLost a).onCst _) (f := F.cstLastUeLo) (by decide) _ _ _).2 lost
  · rw [Dev.rd_seal _ _ _ (by decide), Dev.lineLost, Dev.rd_count_other (cstCnt_ne_stk (by omega) _ _), Dev.rd_count_cst,
      Dev.rd_raise (cstCnt_steady (by omega))]
  · rw [Dev.rd_seal _ _ _ apart, Dev.lineLost, Dev.rd_count_stk, Dev.rd_count_other (cstCnt_ne_stk (by omega) _ _).symm,
      Dev.rd_raise (cstStkCnt_steady _ (by omega))]
  · rw [Dev.rd_seal _ _ _ (by decide), Dev.lineLost, Dev.rd_count_other (cstCnt_ne_stk (by omega) _ _), Dev.rd_count_other (cstCnt_ne (by decide)),
      Dev.rd_raise (cstCnt_steady (by omega))]
  · rw [Dev.seal_eq, Dev.get64_putLine, Dev.get64_put64 rfl rfl]
  · rw [Dev.seal_eq, Dev.lineData_putLine _ _ _ _ rfl]
  · rw [Dev.seal_eq, Dev.lineHollow_putLine _ _ _ _ rfl]

theorem Dev.get64_lineGiven {lo hi : RegField} (h : lo.addr ≠ (F.cstCnt 3).addr) (hollow : Bool) :
    (d.lineGiven a data hollow).get64 lo hi = d.get64 lo hi := by
  obtain ⟨-, -, plat⟩ := d.lineGiven_records a data hollow
  rw [Dev.get64, Dev.get64, Dev.rd_lineGiven h, plat]

end

/-! ## A bitmap word lost -/

/-- The granules of the bitmap word that holds the bit of `a`. -/
def wordGranules (a : Nat) : List Nat := (List.range 64).map (granuleOf a / 64 * 64 + ·)

theorem mem_wordGranules {a g : Nat} (h : g / 64 = granuleOf a / 64) : g ∈ wordGranules a :=
  List.mem_map.2 ⟨g % 64, List.mem_range.2 (Nat.mod_lt _ (by decide)), by omega⟩

theorem Dev.foldl_setGranuleValid (l : List Nat) (d : Dev) : l.foldl (fun (d : Dev) g => d.setGranuleValid g true) d =
    d.onCst fun c => { c with valid := l.foldl (fun m g => Map.set (isSystem g) m g true) c.valid } := by
  induction l generalizing d with
  | nil => rfl
  | cons g l ih => exact ih _

/-- The granules of a lost bitmap word are valid, without tracker entries, and every line of them is Hollow. -/
theorem Dev.bitmapLost_shows (d : Dev) (a : Nat) : let e := d.bitmapLost a
    e.errorShows Pg.cstReg Er.cstReg_gvbUe ∧ e.cst.filling = d.cst.filling ∧
      (∀ g, g / 64 = granuleOf a / 64 → e.granuleValid g = true ∧ ∀ x ∈ e.cst.zero, x.granule ≠ g) ∧
      ∀ b, granuleOf b / 64 = granuleOf a / 64 → e.lineHollow b = true := by
  intro e
  obtain ⟨mem, stale, cst⟩ : ∃ mem stale, e.cst = { d.cst with
      mem := mem, stale := stale
      valid := (wordGranules a).foldl (fun m g => Map.set (isSystem g) m g true) d.cst.valid
      zero := d.cst.zero.filter fun x => decide (x.granule / 64 ≠ granuleOf a / 64 * 64 / 64)
      hollow := (List.range 65536).foldl (fun m k => Map.set false m (1024 * (granuleOf a / 64 * 64) + k) true) d.cst.hollow } := by
    simp only [e, Dev.bitmapLost, Dev.wr_cst, Dev.foldl_setGranuleValid, Dev.onCst_cst, Dev.poke, Dev.stepFree_cst, Dev.raise_cst, Dev.takeInjected,
      Dev.onPlat_cst]
    exact ⟨_, _, rfl⟩
  have shows : e.errorShows Pg.cstReg Er.cstReg_gvbUe := by
    unfold e Dev.bitmapLost
    rw [Dev.errorShows_wr _ (by decide), Dev.errorShows_onCst, Dev.errorShows_stepFree, Dev.poke, Dev.errorShows_onCst, Dev.foldl_setGranuleValid,
      Dev.errorShows_onCst]
    exact Dev.raise_errorShows (d.takeInjected Pg.cstReg Er.cstReg_gvbUe) Pg.cstReg a (by decide)
  clear_value e
  have valid : e.cst.valid = (wordGranules a).foldl (fun m g => Map.set (isSystem g) m g true) d.cst.valid := by rw [cst]
  have hollow : e.cst.hollow =
    (List.range 65536).foldl (fun m k => Map.set false m (1024 * (granuleOf a / 64 * 64) + k) true) d.cst.hollow := by rw [cst]
  refine ⟨shows, by rw [cst], fun g hg => ⟨?_, fun x hx => ?_⟩, fun b hb => ?_⟩
  · unfold Dev.granuleValid
    rw [valid]
    exact Map.get_foldl_set isSystem (fun g => g) true (.inl ⟨g, mem_wordGranules hg, rfl⟩)
  · rw [cst] at hx
    have out := of_decide_eq_true (List.mem_filter.1 hx).2
    omega
  · rw [Dev.lineHollow, hollow]
    refine Map.get_foldl_set (fun _ => false) (1024 * (granuleOf a / 64 * 64) + ·) true
      (.inl ⟨lineNo b - 1024 * (granuleOf a / 64 * 64), List.mem_range.2 ?_, ?_⟩)
    · unfold granuleOf lineNo at *
      omega
    · unfold granuleOf lineNo at *
      omega

/-- A granule of the lost word whose zero fill is not under way has no line left that reads as not yet written. -/
theorem Dev.unwritten_of_valid {d : Dev} {a : Nat} (hv : d.granuleValid (granuleOf a) = true) (hz : ∀ x ∈ d.cst.zero, x.granule ≠ granuleOf a)
    (hf : d.mustWait a = false) : d.unwritten a = false := by
  have none_ : d.zeroEnt (granuleOf a) = none := by
    rw [Dev.zeroEnt, List.find?_eq_none]
    intro x hx
    obtain hx | hx := List.mem_append.1 hx
    · simpa using hz x hx
    · exact List.any_eq_false.1 hf x hx
  unfold Dev.unwritten
  simp [hv, none_]

/-! ## Demand reads -/

/-- What a read makes of a line of which the decoder shows `r`. -/
def Dev.lineAsRead (d : Dev) (a : Nat) (r : LineOut) : Dev :=
  if r.noFit then (d.seal a r.data false).lineGiven a r.data true
  else if r.corrected then (d.lineCorrected a r.data).lineGiven a r.data false
  else d.lineGiven a r.data r.hollow

section
variable (d : Dev) (a : Nat) {r : LineOut}

theorem Dev.lineAsRead_noFit (hn : r.noFit = true) : d.lineAsRead a r = (d.seal a r.data false).lineGiven a r.data true := if_pos hn

theorem Dev.lineAsRead_corrected (hn : r.noFit = false) (hc : r.corrected = true) :
    d.lineAsRead a r = (d.lineCorrected a r.data).lineGiven a r.data false := by
  rw [Dev.lineAsRead, if_neg (by simp [hn]), if_pos hc]

theorem Dev.lineAsRead_good (hn : r.noFit = false) (hc : r.corrected = false) : d.lineAsRead a r = d.lineGiven a r.data r.hollow := by
  rw [Dev.lineAsRead, if_neg (by simp [hn]), if_neg (by simp [hc])]

end

/-- A read of a stack that does not fail delivers what the decoder finds. -/
theorem Dev.storeReadNow_read {d m : Dev} {rd : LineRead} {r : LineOut} (hb : rd.by_ = none) (hs : rd.sram = .good)
    (hg : d.injected Pg.cstReg Er.cstReg_gvbUe = false) (hret : (d.bufEnt (granuleOf rd.addr)).retired = false)
    (hmerge : d.cst.merge.find? (·.line == lineNo rd.addr) = none) (hup : d.stackUp (stackOf rd.addr) = true) (hw : d.unwritten rd.addr = false)
    (ho : rd.odecc = false) (hr : readForms rd.addr (d.lineData rd.addr) (d.lineHollow rd.addr) rd.errs = r)
    (hst : (Map.get 0 d.cst.stale (granuleOf rd.addr)).testBit (lineNo rd.addr % 1024) = false)
    (hp : d.parityMet rd.addr rd.parity = (false, m)) (hm : m.plat.armed = []) (hc : m.cst = d.cst) :
    d.storeReadNow rd false = m.lineAsRead rd.addr r := by
  have data : m.lineData rd.addr = d.lineData rd.addr := Dev.lineData_congr fun _ _ => Dev.byteAt_congr (by rw [hc]) _
  have hollow : m.lineHollow rd.addr = d.lineHollow rd.addr := Dev.lineHollow_congr (by rw [hc]) _
  have got := Dev.stackRead_eq ho hp hm (by rwa [hc]) false
  rw [data, hollow, hr] at got
  have given {o : Delivered} {e : Dev} (h : d.stackRead rd false = (o, e)) : d.storeReadNow rd false = e.lineGiven rd.addr o.data o.hollow :=
    Dev.storeReadNow_eq hb (Dev.readRaw_read hup hs hg hret hmerge hw h)
  cases hn : r.noFit
  · cases hc : r.corrected
    · simp only [hn, hc, Bool.false_eq_true, if_false] at got
      rw [m.lineAsRead_good _ hn hc, given got]
    · simp only [hn, hc, Bool.false_eq_true, if_false, if_true] at got
      rw [m.lineAsRead_corrected _ hn hc, given got]
  · simp only [hn, if_true] at got
    rw [m.lineAsRead_noFit _ hn, given got]

/-- A bitmap word that cannot be corrected is lost before its line is read: whatever the read then makes of that line, the granules are valid and
their other lines Hollow. -/
theorem Dev.storeReadNow_bitmapLost {d : Dev} {rd : LineRead} (hup : d.stackUp (stackOf rd.addr) = true) (hb : rd.by_ = none)
    (hu : rd.sram.bitmapUe = true) : Dev.LineWork (lineNo rd.addr) (d.bitmapLost rd.addr) (d.storeReadNow rd false) := by
  have lost : d.bitmapRead rd.addr rd.sram = d.bitmapLost rd.addr := if_pos (by simp [hu])
  obtain ⟨o, e, raw, work⟩ : ∃ o e, d.readRaw rd = (o, e) ∧ Dev.LineWork (lineNo rd.addr) (d.bitmapLost rd.addr) e := by
    unfold Dev.readRaw
    simp only [hup, Bool.not_true, Bool.false_eq_true, if_false, lost]
    generalize d.bitmapLost rd.addr = m
    have read : Dev.LineWork (lineNo rd.addr) m (m.stackRead rd false).2 := Dev.LineWork.stackRead (.refl _ m)
    generalize m.stackRead rd false = p at read ⊢
    have either : Dev.LineWork (lineNo rd.addr) m (if m.unwritten rd.addr then ((⟨zeros 64, false⟩ : Delivered), m) else p).2 := by
      split
      · exact .refl _ m
      · exact read
    generalize (if m.unwritten rd.addr then ((⟨zeros 64, false⟩ : Delivered), m) else p) = q at either ⊢
    obtain ⟨o, e⟩ := q
    split
    · exact ⟨_, _, rfl, either⟩
    · exact ⟨_, _, rfl, either⟩
  rw [Dev.storeReadNow_eq hb raw]
  exact work.trans (Dev.lineGiven_work _ _ _ _ _)

/-- A buffer-table entry that cannot be corrected retires its buffer. -/
def Dev.tableLost (d : Dev) (i : Nat) : Dev :=
  (d.raise Pg.bpmReg Er.bpmReg_buftabUe (i * 65536)).setBufEnt i { d.bufEnt i with retired := true }

/-- A read by a handle whose buffer is not in use. -/
def Dev.handleRefused (d : Dev) (a : Nat) : Dev := (d.raise Pg.bpmReg Er.bpmReg_handleFree a).count (F.bpmCnt 5)

theorem Dev.bufEnt_tableLost (d : Dev) (i : Nat) : (d.tableLost i).bufEnt i = { d.bufEnt i with retired := true } := by
  rw [Dev.tableLost, Dev.bufEnt, Dev.setBufEnt, Dev.onBpm_bpm, Map.get_set_same]

theorem Dev.storeReadNow_tableLost {d : Dev} {rd : LineRead} {y : ActBy} (hy : rd.by_ = some y) (hu : rd.sram.tableUe = true)
    (ha : d.plat.armed = []) : d.storeReadNow rd false =
      ((d.tableLost (handleIndex y.handle)).handleRefused rd.addr).lineGiven rd.addr (zeros 64) true := by
  have table : d.tableRead (some y) rd.sram = d.tableLost (handleIndex y.handle) := by
    simp [Dev.tableRead, hu, Dev.takeInjected_of_unarmed ha, Dev.tableLost]
  have unarmed : (d.tableLost (handleIndex y.handle)).plat.armed = [] := Dev.raise_unarmed ha _ _ _
  have fault : (d.tableLost (handleIndex y.handle)).handleFault y false = some Er.bpmReg_handleFree := by
    simp [Dev.handleFault, Dev.injected_of_unarmed unarmed, Dev.bufEnt_tableLost]
  have line : d.readLine rd = ((d.tableLost (handleIndex y.handle)).handleRefused rd.addr).deliver ⟨zeros 64, true⟩ := by
    unfold Dev.readLine
    rw [hy]
    dsimp only
    rw [table, fault]
    dsimp only
    rw [Dev.handleFail, Dev.takeInjected_of_unarmed unarmed, Dev.handleRefused]
  exact Dev.storeReadNow_deliver line

theorem bpmCnt_ok (i : Nat) : (F.bpmCnt i).ok := by simp [RegField.ok, F.bpmCnt]

theorem bpmCnt_steady {i : Nat} (hi : i < 9) : (F.bpmCnt i).steady := by simp only [RegField.steady, F.bpmCnt]; omega

theorem Dev.rd_count_bpm (d : Dev) (i : Nat) : (d.count (F.bpmCnt i)).rd (F.bpmCnt i) = satInc 32 (d.rd (F.bpmCnt i)) := d.rd_count _ (bpmCnt_ok i)

theorem Dev.tableLost_shows (d : Dev) (i a : Nat) : let e := (d.tableLost i).handleRefused a
    e.errorShows Pg.bpmReg Er.bpmReg_buftabUe ∧ e.errorShows Pg.bpmReg Er.bpmReg_handleFree ∧
      e.bufEnt i = { d.bufEnt i with retired := true } ∧ e.cst = d.cst ∧ e.rd (F.bpmCnt 5) = satInc 32 (d.rd (F.bpmCnt 5)) := by
  have setEnt (m : Dev) (x : BufEnt) (f : RegField) : (m.setBufEnt i x).rd f = m.rd f := rfl
  have table : (d.tableLost i).errorShows Pg.bpmReg Er.bpmReg_buftabUe := Dev.raise_errorShows d Pg.bpmReg (i * 65536) (by decide)
  have cst : (d.tableLost i).cst = d.cst := d.raise_cst _ _ _
  unfold Dev.handleRefused
  refine ⟨?_, ?_, ?_, ?_, ?_⟩
  · exact (Dev.errorShows_count (by decide) _ _ _).2 (Dev.raise_errorShows_still _ _ _ _ (by decide) table)
  · exact (Dev.errorShows_count (by decide) _ _ _).2 (Dev.raise_errorShows _ _ _ (by decide))
  · rw [← Dev.bufEnt_tableLost, Dev.bufEnt, Dev.count, Dev.wr_bpm, Dev.raise_bpm, Dev.bufEnt]
  · rw [Dev.count, Dev.wr_cst, Dev.raise_cst, cst]
  · rw [Dev.rd_count_bpm, Dev.rd_raise (bpmCnt_steady (by omega)), Dev.tableLost, setEnt, Dev.rd_raise (bpmCnt_steady (by omega))]

/-- Settles O26: a read delivers zeros, or what the decoder finds; what the decoder finds decides what is reported and written back. -/
theorem storeReads : Obligations.StoreReads := by
  unfold Obligations.StoreReads
  refine ⟨fun s rd hb hs hg hret => ?plain, fun s rd hw hup => ⟨fun hb hu => ?bitmap, fun y hy hu ha => ?table⟩⟩
  case plain =>
    intro d a n given elsewhere
    have same {e : Dev} (hbpm : e.bpm = d.bpm) (work : Dev.LineWork (lineNo a) d e) (data : List Byte) (hollow : Bool) :
        elsewhere (e.lineGiven a data hollow) := by
      obtain ⟨-, bpm, -⟩ := e.lineGiven_records a data hollow
      have all := work.trans (e.lineGiven_work _ a data hollow)
      exact ⟨bpm.trans hbpm, fun b hx => ⟨all.byteAt b hx, all.lineHollow b hx⟩⟩
    refine ⟨fun hw => completes_storeRead_waits hw rfl, fun hw hm => ⟨fun hup => ?_, fun hup hu => ?_, fun hup hu ho ha => ?_⟩⟩
    · exact completes_storeRead hw (Dev.storeReadNow_eq hb (Dev.readRaw_down hup))
    · exact completes_storeRead hw (Dev.storeReadNow_eq hb (Dev.readRaw_unwritten hup hs hg hret hm hu))
    intro retried r
    refine ⟨fun hst => ?_, fun hp => ?_⟩
    · have read {m : Dev} := Dev.storeReadNow_read (m := m) (r := r) hb hs hg hret hm hup hu ho rfl hst
      have clean (hp : rd.parity = 0) : d.storeReadNow rd false = d.lineAsRead a r := read (hp ▸ Dev.parityMet_none ha a) ha rfl
      have once (hp : rd.parity = 1) : d.storeReadNow rd false = (d.parityRetried a).lineAsRead a r :=
        read (hp ▸ Dev.parityMet_once ha a) (Dev.parityRetried_unarmed ha a) (d.parityRetried_cst a)
      clear_value r
      refine ⟨fun hp hn hc => completes_storeRead hw ?_, fun hp hn hc => completes_storeRead hw ?_, fun hp hn hc => completes_storeRead hw ?_,
        fun hp hn => completes_storeRead hw ?_⟩
      · exact (clean hp).trans (d.lineAsRead_good a hn hc)
      · exact (once hp).trans ((d.parityRetried a).lineAsRead_good a hn hc)
      · rw [show s.dev = d from rfl, clean hp, d.lineAsRead_corrected a hn hc]
        obtain ⟨ce, cnt, stk, data, normal⟩ := d.lineCorrected_shows a r.data
        obtain ⟨cst, -, -⟩ := (d.lineCorrected a r.data).lineGiven_records a r.data false
        have work := (d.lineCorrected a r.data).lineGiven_work (lineNo a) a r.data false
        refine ⟨work.shows _ _ (by decide) ce, ?_, ?_, ?_, ?_, Dev.lineGiven_out _ _ _ _,
          same (d.lineCorrected_bpm a r.data) (d.lineCorrected_work a r.data) _ _⟩
        · rw [Dev.rd_lineGiven (by decide), cnt]
        · rw [Dev.rd_lineGiven (cstCnt_ne_stk (by omega) _ _).symm, stk]
        · rw [← data]
          exact Dev.lineData_congr fun b _ => Dev.byteAt_congr (by rw [cst]) b
        · rw [Dev.lineHollow_congr (congrArg Cst.hollow cst), normal]
      · rw [show s.dev = d from rfl, clean hp, d.lineAsRead_noFit a hn]
        obtain ⟨ue, cnt, stk, given3, last, data, hollow⟩ := d.seal_shows a r.data
        obtain ⟨cst, -, -⟩ := (d.seal a r.data false).lineGiven_records a r.data true
        have work := (d.seal a r.data false).lineGiven_work (lineNo a) a r.data true
        refine ⟨work.shows _ _ (by decide) ue, ?_, ?_, ?_, ?_, ?_, ?_, Dev.lineGiven_out _ _ _ _,
          same (d.seal_bpm a r.data) (Dev.LineWork.sealLine (.refl _ d)) _ _⟩
        · rw [Dev.rd_lineGiven (by decide), cnt]
        · rw [Dev.rd_lineGiven (cstCnt_ne_stk (by omega) _ _).symm, stk]
        · rw [Dev.get64_lineGiven _ _ _ (by decide), last]
        · rw [← data]
          exact Dev.lineData_congr fun b _ => Dev.byteAt_congr (by rw [cst]) b
        · rw [Dev.lineHollow_congr (congrArg Cst.hollow cst), hollow]
        · rw [Dev.rd_lineGiven_hollow, given3]
    · have down : d.storeReadNow rd false = (d.parityFailed a).lineGiven a (zeros 64) true :=
        Dev.storeReadNow_eq hb (Dev.readRaw_read hup hs hg hret hm hu (Dev.stackRead_failed ho ha hp false))
      refine completes_storeRead hw ?_
      rw [show s.dev = d from rfl, down]
      obtain ⟨retry, fail, closed, cst, cnt⟩ := Dev.parityFailed_shows (a := a) hup
      obtain ⟨cst', -, plat⟩ := (d.parityFailed a).lineGiven_records a (zeros 64) true
      have work := (d.parityFailed a).lineGiven_work (lineNo a) a (zeros 64) true
      refine ⟨work.shows _ _ (by decide) retry, work.shows _ _ (by decide) fail, ?_, Dev.lineGiven_out _ _ _ _, ?_, cst'.trans cst⟩
      · rwa [Dev.closed_congr (congrArg Plat.units plat) (congrArg Plat.fences plat)]
      · rw [Dev.rd_lineGiven_hollow, cnt 3 (by omega)]
  case bitmap =>
    obtain ⟨lost, filling, granules, hollow⟩ := s.dev.bitmapLost_shows rd.addr
    have work := Dev.storeReadNow_bitmapLost hup hb hu
    refine completes_storeRead hw ⟨work.shows _ _ (by decide) lost, fun b hg => ?_⟩
    obtain ⟨valid, zero⟩ := granules _ hg
    have valid' : (s.dev.storeReadNow rd false).granuleValid (granuleOf b) = true := by
      rw [← valid]
      unfold Dev.granuleValid
      rw [work.valid]
    refine ⟨valid', fun hb => Dev.unwritten_of_valid valid' (by rwa [work.zero]) ?_, fun hb => ?_⟩
    · rwa [Dev.mustWait_congr (work.filling.trans filling)]
    · rw [work.lineHollow b hb, hollow b hg]
  case table =>
    refine completes_storeRead hw ?_
    rw [Dev.storeReadNow_tableLost hy hu ha]
    obtain ⟨table, free, ent, cst, cnt⟩ := s.dev.tableLost_shows (handleIndex y.handle) rd.addr
    obtain ⟨cst', bpm, -⟩ := ((s.dev.tableLost (handleIndex y.handle)).handleRefused rd.addr).lineGiven_records rd.addr (zeros 64) true
    have work := ((s.dev.tableLost (handleIndex y.handle)).handleRefused rd.addr).lineGiven_work 0 rd.addr (zeros 64) true
    refine ⟨work.shows _ _ (by decide) table, work.shows _ _ (by decide) free, ?_, Dev.lineGiven_out _ _ _ _, cst'.trans cst, ?_⟩
    · rw [← ent, Dev.bufEnt, bpm, Dev.bufEnt]
    · rw [Dev.rd_lineGiven (by decide), cnt]

end Sys2Proof.Machine
end

section
/-! SUPPORT. A line written (R113, R115–R117): the note in the zero tracker, the line stored, and the cache's part of a write. -/
namespace Sys2Proof.Machine
open Sys2Proof

/-! ## The tracker's note of a write -/

/-- Opening an entry makes the granule valid; the entries that make room move to the fills under way. -/
theorem Dev.openZero_cst (d : Dev) (g line cls : Nat) : ∃ gone left, d.cst.zero = gone ++ left ∧
    (d.openZero g line cls).cst.valid = Map.set (isSystem g) d.cst.valid g true ∧
    (d.openZero g line cls).cst.zero = left ++ [⟨g, 2 ^ (line % 1024), cls⟩] ∧ (d.openZero g line cls).cst.filling = d.cst.filling ++ gone := by
  unfold Dev.openZero
  extract_lets valid made
  unfold made
  split
  · exact ⟨[], d.cst.zero, rfl, rfl, rfl, (List.append_nil _).symm⟩
  · split
    next h => exact ⟨[], [], h, rfl, congrArg (· ++ _) h, (List.append_nil _).symm⟩
    next e left h =>
      refine ⟨[e], left, h, ?_⟩
      simp [valid, Dev.setGranuleValid, Dev.count]

/-- Between `d` and `e` the tracker alone is changed: no line, no merge entry, no buffer and no register but the tracker's own counters. -/
structure Dev.Tracked (d e : Dev) : Prop where
  mem : e.cst.mem = d.cst.mem
  hollow : e.cst.hollow = d.cst.hollow
  merge : e.cst.merge = d.cst.merge
  bpm : e.bpm = d.bpm
  shows : ∀ page bit, bit < 32 → d.errorShows page bit → e.errorShows page bit
  rd : ∀ f : RegField, f.steady → f.addr ≠ (F.cstCnt 5).addr → f.addr ≠ F.cstCnt8.addr → e.rd f = d.rd f

namespace Dev.Tracked

variable {b d : Dev}

theorem refl (d : Dev) : d.Tracked d := ⟨rfl, rfl, rfl, rfl, fun _ _ _ h => h, fun _ _ _ _ => rfl⟩

theorem onCst (h : b.Tracked d) {f : Cst → Cst} (hm : (f d.cst).mem = d.cst.mem) (hh : (f d.cst).hollow = d.cst.hollow)
    (hg : (f d.cst).merge = d.cst.merge) : b.Tracked (d.onCst f) :=
  ⟨hm.trans h.mem, hh.trans h.hollow, hg.trans h.merge, h.bpm, h.shows, h.rd⟩

theorem wr (h : b.Tracked d) {f : RegField} (hf : f.addr = (F.cstCnt 5).addr ∨ f.addr = F.cstCnt8.addr) (v : Nat) : b.Tracked (d.wr f v) := by
  have page : 256 ≤ f.addr % 4096 := by obtain hf | hf := hf <;> rw [hf] <;> decide
  refine ⟨?_, ?_, ?_, ?_, fun p x hx hs => (d.errorShows_wr page v p x).2 (h.shows p x hx hs), fun g hg h5 h8 => ?_⟩
  · rw [Dev.wr_cst, h.mem]
  · rw [Dev.wr_cst, h.hollow]
  · rw [Dev.wr_cst, h.merge]
  · rw [Dev.wr_bpm, h.bpm]
  · rw [Dev.rd_wr_other _ _ _ _ (by obtain hf | hf := hf <;> rwa [hf]), h.rd g hg h5 h8]

theorem raise (h : b.Tracked d) (page bit info : Nat) : b.Tracked (d.raise page bit info) := by
  refine ⟨?_, ?_, ?_, ?_, fun p x hx hs => Dev.raise_errorShows_still _ _ _ _ hx (h.shows p x hx hs), fun g hg h5 h8 => ?_⟩
  · rw [Dev.raise_cst, h.mem]
  · rw [Dev.raise_cst, h.hollow]
  · rw [Dev.raise_cst, h.merge]
  · rw [Dev.raise_bpm, h.bpm]
  · rw [Dev.rd_raise hg, h.rd g hg h5 h8]

theorem openZero (h : b.Tracked d) (g line cls : Nat) : b.Tracked (d.openZero g line cls) := by
  unfold Dev.openZero
  extract_lets valid made
  have valid' : b.Tracked valid := h.onCst rfl rfl rfl
  refine Tracked.onCst ?_ rfl rfl rfl
  unfold made
  split
  · exact valid'
  · split
    · exact valid'
    · exact ((valid'.onCst rfl rfl rfl).wr (.inl rfl) _).raise _ _ _

theorem touch (h : b.Tracked d) (a cls : Nat) : b.Tracked (d.touch a cls) := by
  unfold Dev.touch
  extract_lets g made
  refine Tracked.wr ?_ (.inr rfl) _
  unfold made
  split
  · exact h.openZero _ _ _
  · exact h.onCst rfl rfl rfl

end Dev.Tracked

/-- An entry of the granule of `a` as a write of that line leaves it. -/
def ZeroEnt.noted (x : ZeroEnt) (a : Nat) : ZeroEnt :=
  if x.granule = granuleOf a then { x with written := x.written ||| 2 ^ (lineNo a % 1024) } else x

theorem ZeroEnt.noted_written (x : ZeroEnt) (a : Nat) (h : (x.noted a).granule = granuleOf a) :
    (x.noted a).written.testBit (lineNo a % 1024) = true := by
  unfold ZeroEnt.noted at h ⊢
  split at h
  next hg => simp [hg, Nat.testBit_two_pow_self]
  next hg => exact absurd h hg

/-- A write that clears up the state of its granule leaves the line as written: the granule is valid and every entry of it notes the line. -/
theorem Dev.touch_notes {d : Dev} {a : Nat} (cls : Nat) (h : d.granuleValid (granuleOf a) = false → d.zeroEnt (granuleOf a) = none) :
    (d.touch a cls).granuleValid (granuleOf a) = true ∧
      ∀ x ∈ (d.touch a cls).cst.zero ++ (d.touch a cls).cst.filling, x.granule = granuleOf a → x.written.testBit (lineNo a % 1024) = true := by
  cases hv : d.granuleValid (granuleOf a) with
  | false =>
    obtain ⟨gone, left, zero, valid, zero', filling⟩ := d.openZero_cst (granuleOf a) (lineNo a) cls
    have touched : (d.touch a cls).cst = (d.openZero (granuleOf a) (lineNo a) cls).cst := by simp [Dev.touch, hv]
    have out : ∀ x ∈ (gone ++ left) ++ d.cst.filling, x.granule ≠ granuleOf a := by
      rw [← zero]
      exact fun x hx => by simpa using List.find?_eq_none.1 (h hv) x hx
    refine ⟨?_, fun x hx hg => ?_⟩
    · unfold Dev.granuleValid
      rw [touched, valid, Map.get_set_same]
    · rw [touched, zero', filling] at hx
      simp only [List.mem_append, List.mem_singleton] at hx out
      obtain (hx | rfl) | (hx | hx) := hx
      · exact absurd hg (out x (.inl (.inr hx)))
      · exact Nat.testBit_two_pow_self
      · exact absurd hg (out x (.inr hx))
      · exact absurd hg (out x (.inl (.inl hx)))
  | true =>
    refine ⟨?_, fun x hx => ?_⟩
    · simp only [Dev.touch, hv, Bool.not_true, Bool.false_eq_true, if_false]
      unfold Dev.granuleValid at hv ⊢
      rwa [Dev.wr_cst]
    · simp only [Dev.touch, hv, Bool.not_true, Bool.false_eq_true, if_false, Dev.wr_cst, Dev.onCst_cst, List.mem_append, List.mem_filter,
        List.mem_map] at hx
      obtain ⟨⟨y, -, rfl⟩, -⟩ | ⟨y, -, rfl⟩ := hx
      · exact y.noted_written a
      · exact y.noted_written a

/-! ## A line stored -/

/-- A line of which the tracker has noted the write. -/
def Dev.storeLine (d : Dev) (a : Nat) (data : List Byte) (hollow : Bool) (cls : Nat) : Dev := (d.touch a cls).putLine a data hollow

section
variable (d : Dev) (a : Nat) (data : List Byte) (hollow : Bool) (cls : Nat)

theorem Dev.storeLine_lines : let e := d.storeLine a data hollow cls
    (∀ b, lineNo b = lineNo a → e.lineData b = padTo 64 data ∧ e.lineHollow b = hollow) ∧
      ∀ b, lineNo b ≠ lineNo a → e.byteAt b = d.byteAt b ∧ e.lineHollow b = d.lineHollow b := by
  have tracked := (Dev.Tracked.refl d).touch a cls
  refine ⟨fun b hb => ⟨Dev.lineData_putLine _ _ _ _ hb, Dev.lineHollow_putLine _ _ _ _ hb⟩, fun b hb => ⟨?_, ?_⟩⟩
  · exact (Dev.byteAt_putLine_other _ _ _ _ hb).trans (Dev.byteAt_congr tracked.mem b)
  · exact (Dev.lineHollow_putLine_other _ _ _ _ hb).trans (Dev.lineHollow_congr tracked.hollow b)

theorem Dev.storeLine_records : (d.storeLine a data hollow cls).cst.merge = d.cst.merge ∧ (d.storeLine a data hollow cls).bpm = d.bpm :=
  have tracked := (Dev.Tracked.refl d).touch a cls
  ⟨tracked.merge, tracked.bpm⟩

theorem Dev.storeLine_shows {page bit : Nat} (hb : bit < 32) (h : d.errorShows page bit) : (d.storeLine a data hollow cls).errorShows page bit :=
  ((Dev.Tracked.refl d).touch a cls).shows page bit hb h

theorem Dev.rd_storeLine {i : Nat} (hi : i < 8) (h5 : i ≠ 5) : (d.storeLine a data hollow cls).rd (F.cstCnt i) = d.rd (F.cstCnt i) :=
  (Dev.rd_putLine _ _ _ _ _).trans
    (((Dev.Tracked.refl d).touch a cls).rd _ (cstCnt_steady (by omega)) (cstCnt_ne h5) (by simp only [F.cstCnt, F.cstCnt8]; omega))

theorem Dev.unwritten_storeLine (h : d.granuleValid (granuleOf a) = false → d.zeroEnt (granuleOf a) = none) :
    (d.storeLine a data hollow cls).unwritten a = false := by
  obtain ⟨valid, noted⟩ := Dev.touch_notes cls h
  have same : (d.storeLine a data hollow cls).unwritten a = (d.touch a cls).unwritten a := Dev.unwritten_congr rfl rfl rfl a
  rw [same]
  unfold Dev.unwritten Dev.zeroEnt
  simp only [valid, Bool.not_true, Bool.false_or]
  split
  next x hx => simp [noted x (List.mem_of_find?_eq_some hx) (by simpa using List.find?_some hx)]
  next => rfl

end

/-! ## A full line written -/

theorem Dev.when_count_records (d : Dev) (c : Bool) (f : RegField) : (d.when c (·.count f)).cst = d.cst ∧ (d.when c (·.count f)).bpm = d.bpm := by
  cases c <;> simp [Dev.when, Dev.count]

/-- A full line written, its open merge entry closed. -/
def Dev.lineWritten (d : Dev) (a : Nat) (data : List Byte) (hollow : Bool) (cls : Nat) : Dev :=
  ((d.when hollow (·.count (F.cstCnt 4))).onCst fun c => { c with merge := c.merge.filter fun m => m.line != lineNo a }).storeLine a data hollow cls

theorem Dev.writeLine_good {d : Dev} {a : Nat} (hup : d.stackUp (stackOf a) = true) (ha : d.plat.armed = []) (data : List Byte) (hollow : Bool)
    (cls : Nat) : d.writeLine a data hollow cls 0 = d.lineWritten a data hollow cls := by
  simp only [Dev.writeLine, hup, Dev.parityMet_none ha, Bool.not_true, Bool.false_eq_true, if_false]
  rfl

theorem Dev.writeLine_failed {d : Dev} {a : Nat} (hup : d.stackUp (stackOf a) = true) (ha : d.plat.armed = []) {parity : Nat} (hp : 2 ≤ parity)
    (data : List Byte) (hollow : Bool) (cls : Nat) : d.writeLine a data hollow cls parity = d.parityFailed a := by
  simp only [Dev.writeLine, hup, Dev.parityMet_twice ha a hp, Bool.not_true, Bool.false_eq_true, if_false, if_true]

theorem Dev.lineWritten_shows {d : Dev} {a : Nat} (data : List Byte) (hollow : Bool) (cls : Nat)
    (h : d.granuleValid (granuleOf a) = false → d.zeroEnt (granuleOf a) = none) : let e := d.lineWritten a data hollow cls
    (∀ b, lineNo b = lineNo a → e.lineData b = padTo 64 data ∧ e.lineHollow b = hollow) ∧ e.unwritten a = false ∧
      (∀ m ∈ e.cst.merge, m.line ≠ lineNo a) ∧ 
      (∀ b, lineNo b ≠ lineNo a → e.byteAt b = d.byteAt b ∧ e.lineHollow b = d.lineHollow b) ∧ e.bpm = d.bpm := by
  obtain ⟨cst, bpm⟩ := d.when_count_records hollow (F.cstCnt 4)
  unfold Dev.lineWritten
  generalize d.when hollow (·.count (F.cstCnt 4)) = m at cst bpm ⊢
  have tracked : m.granuleValid (granuleOf a) = false → m.zeroEnt (granuleOf a) = none := by
    unfold Dev.granuleValid Dev.zeroEnt at h ⊢
    rwa [cst]
  obtain ⟨here, elsewhere⟩ := (m.onCst fun c => { c with merge := c.merge.filter fun x => x.line != lineNo a }).storeLine_lines a data hollow cls
  obtain ⟨merge, bpm'⟩ := (m.onCst fun c => { c with merge := c.merge.filter fun x => x.line != lineNo a }).storeLine_records a data hollow cls
  refine ⟨here, Dev.unwritten_storeLine _ _ _ _ _ tracked, fun x hx => ?_, fun b hb => ?_, bpm'.trans bpm⟩
  · rw [merge] at hx
    simpa using (List.mem_filter.1 hx).2
  · obtain ⟨byte, line⟩ := elsewhere b hb
    exact ⟨byte.trans (Dev.byteAt_congr (congrArg Cst.mem cst) b), line.trans (Dev.lineHollow_congr (congrArg Cst.hollow cst) b)⟩

/-! ## The cache's part of a write -/

theorem Dev.foldl_onMc {α : Type} {f : Dev → α → Dev} (hf : ∀ d x, ∃ m, f d x = d.onMc fun _ => m) (l : List α) (d : Dev) :
    ∃ m, l.foldl f d = d.onMc fun _ => m := by
  induction l generalizing d with
  | nil => exact ⟨d.mc, rfl⟩
  | cons x l ih =>
    obtain ⟨m, hm⟩ := hf d x
    obtain ⟨n, hn⟩ := ih (f d x)
    exact ⟨n, by rw [List.foldl_cons, hn, hm]; rfl⟩

theorem Dev.invalL1_onMc (d : Dev) (line : Nat) (x : Option Nat) : ∃ m, d.invalL1 line x = d.onMc fun _ => m := by
  unfold Dev.invalL1
  extract_lets shot
  obtain ⟨m, hm⟩ : ∃ m, shot = d.onMc fun _ => m := by
    refine Dev.foldl_onMc (fun d i => ?_) _ d
    split
    · exact ⟨d.mc, rfl⟩
    · split
      · exact ⟨_, rfl⟩
      · exact ⟨d.mc, rfl⟩
  rw [hm]
  exact ⟨_, rfl⟩

theorem Dev.forward_onMc (d : Dev) (wr : LineWrite) : ∃ m, d.forward wr = d.onMc fun _ => m := by
  unfold Dev.forward
  split
  · exact ⟨d.mc, rfl⟩
  · extract_lets line full bs held left
    obtain ⟨m, hm⟩ : ∃ m, left = held.onMc fun _ => m := held.invalL1_onMc line none
    rw [hm]
    exact ⟨_, rfl⟩

/-- A write by nobody's handle changes the cache's copies first, then the store. -/
theorem Dev.writeThrough_plain {d : Dev} {wr : LineWrite} (hb : wr.by_ = none) (hs : wr.sram = .good) :
    ∃ m, d.writeThrough wr = (d.onMc fun _ => m).storeWrite wr := by
  obtain ⟨m, hm⟩ := d.forward_onMc wr
  have by_ : d.forwardBy wr = (wr, d.forward wr) := by
    obtain ⟨addr, data, hollow, cls, parity, by_, sram⟩ := wr
    obtain rfl : by_ = none := hb
    obtain rfl : sram = .good := hs
    rfl
  exact ⟨m, by rw [Dev.writeThrough, by_, hm]⟩

/-- A write by nobody's handle that need not wait. -/
theorem Dev.storeWrite_plain {d : Dev} {wr : LineWrite} (hb : wr.by_ = none) (hs : wr.sram = .good) (ha : d.plat.armed = [])
    (hw : d.mustWait wr.addr = false) : d.storeWrite wr =
      if wr.data.length = 64 ∧ wr.addr % 64 = 0 then d.writeLine wr.addr wr.data wr.hollow wr.cls wr.parity
      else d.narrow wr.addr wr.data wr.hollow wr.cls := by
  simp only [Dev.storeWrite, hw, Bool.false_eq_true, if_false, Dev.storeWriteNow, hb, hs, Dev.tableRead,
    Dev.bitmapRead_good (Dev.injected_of_unarmed ha _ _)]

section
variable {s : State} {wr : LineWrite} {Q : Dev → Prop} (hb : wr.by_ = none) (hs : wr.sram = .good) (ha : s.dev.plat.armed = [])
  (hw : s.dev.mustWait wr.addr = false)
include hb hs ha hw

theorem completes_storeWrite
    (h : ∀ m, Q ((s.dev.onMc fun _ => m).writeLine (lineNo wr.addr * 64) (padTo 64 wr.data) wr.hollow wr.cls wr.parity)) :
    completes (.storeWrite wr) s Q := by
  refine ⟨_, rfl, ?_⟩
  beta_reduce
  obtain ⟨m, hm⟩ := Dev.writeThrough_plain (d := s.dev) (wr := { wr with addr := lineNo wr.addr * 64, data := padTo 64 wr.data }) hb hs
  have free : (s.dev.onMc fun _ => m).mustWait (lineNo wr.addr * 64) = false := by
    unfold Dev.mustWait at hw ⊢
    rwa [granuleOf_line]
  rw [hm, Dev.storeWrite_plain (d := s.dev.onMc fun _ => m) (wr := { wr with addr := lineNo wr.addr * 64, data := padTo 64 wr.data }) hb hs ha free,
    if_pos ⟨length_padTo 64 wr.data, Nat.mul_mod_left _ 64⟩]
  exact h m

theorem completes_narrowWrite
    (h : ∀ m, Q ((s.dev.onMc fun _ => m).narrow wr.addr (wr.data.take (min 63 (64 - wr.addr % 64))) wr.hollow wr.cls)) :
    completes (.narrowWrite wr) s Q := by
  refine ⟨_, rfl, ?_⟩
  beta_reduce
  obtain ⟨m, hm⟩ := Dev.writeThrough_plain (d := s.dev) (wr := { wr with data := wr.data.take (min 63 (64 - wr.addr % 64)) }) hb hs
  have short : ¬ ((wr.data.take (min 63 (64 - wr.addr % 64))).length = 64 ∧ wr.addr % 64 = 0) := by
    rw [List.length_take]
    omega
  rw [hm, Dev.storeWrite_plain (d := s.dev.onMc fun _ => m) (wr := { wr with data := wr.data.take (min 63 (64 - wr.addr % 64)) }) hb hs ha hw,
    if_neg short]
  exact h m

end

/-! ## The merge buffer (R119, R120) -/

section
variable {d : Dev} {a : Nat} (data : List Byte) (hollow : Bool) (cls : Nat)

/-- The bytes of a narrow write, with their places in the line. -/
def narrowBytes (a : Nat) (data : List Byte) : List (Nat × Byte) := (List.range data.length).map fun i => (a % 64 + i, data.getD i 0)

theorem Dev.narrow_joins (h : d.cst.merge.any (·.line == lineNo a) = true) : (d.narrow a data hollow cls).cst = { d.cst with
    merge := d.cst.merge.map fun x =>
      if x.line = lineNo a then { x with bytes := x.bytes ++ narrowBytes a data, hollow := x.hollow || hollow } else x } := by
  obtain ⟨cst, -⟩ := d.when_count_records hollow (F.cstCnt 4)
  unfold Dev.narrow
  extract_lets counted bytes made
  have cst : counted.cst = d.cst := cst
  rw [if_pos (by rwa [cst]), Dev.onCst_cst, cst]
  rfl

theorem Dev.narrow_opens (h : d.cst.merge.any (·.line == lineNo a) = false) (hl : d.cst.merge.length < 64) :
    (d.narrow a data hollow cls).cst = { d.cst with merge := d.cst.merge ++ [⟨lineNo a, narrowBytes a data, hollow, cls⟩] } := by
  obtain ⟨cst, -⟩ := d.when_count_records hollow (F.cstCnt 4)
  unfold Dev.narrow
  extract_lets counted bytes made
  have cst : counted.cst = d.cst := cst
  have room : made = counted := if_pos (by rwa [cst])
  rw [if_neg (by simp [cst, h]), room, Dev.onCst_cst, cst]
  rfl

end

/-- An entry leaves the merge buffer. -/
def Dev.mergeTaken (d : Dev) (m : MergeEnt) : Dev := d.onCst fun c => { c with merge := c.merge.filter fun x => x.line != m.line }

/-- An entry is merged onto its line, which showed `data`, Hollow or not. -/
def Dev.merged (d : Dev) (m : MergeEnt) (data : List Byte) (hollow : Bool) : Dev :=
  ((d.count (F.cstCnt 6)).when hollow fun d => (d.raise Pg.cstReg Er.cstReg_mergeHollow (m.line * 64)).count (F.cstCnt 7)).storeLine (m.line * 64)
    (mergeBytes data m.bytes) (hollow || m.hollow) m.cls

section
variable {d : Dev} {m : MergeEnt} {rd : LineRead} (hs : rd.sram = .good) (ha : d.plat.armed = [])
  (hup : d.stackUp (stackOf (m.line * 64)) = true) (hp : rd.parity = 0)
include hs ha hup hp

theorem Dev.closeMerge_unwritten (hw : d.unwritten (m.line * 64) = true) : d.closeMerge m rd = (d.mergeTaken m).merged m (zeros 64) false := by
  have up : (d.mergeTaken m).stackUp (stackOf (m.line * 64)) = true := hup
  have unwritten : (d.mergeTaken m).unwritten (m.line * 64) = true := hw
  have armed : (d.mergeTaken m).plat.armed = [] := ha
  have counted := Dev.injected_of_unarmed (Dev.count_unarmed armed (F.cstCnt 6)) Pg.cstReg Er.cstReg_mergeHollow
  unfold Dev.mergeTaken at up unwritten armed counted
  simp only [Dev.closeMerge, up, hs, Dev.bitmapRead_good (Dev.injected_of_unarmed armed _ _), unwritten, hp, Dev.parityMet_none armed, counted,
    Dev.when, Bool.not_true, Bool.false_eq_true, if_false, if_true, Bool.or_self, Dev.merged, Dev.storeLine, Dev.mergeTaken]

theorem Dev.closeMerge_written (hw : d.unwritten (m.line * 64) = false) (he : rd.errs = []) (ho : rd.odecc = false)
    (hst : (Map.get 0 d.cst.stale (granuleOf (m.line * 64))).testBit (m.line % 1024) = false) :
    d.closeMerge m rd = (d.mergeTaken m).merged m (d.lineData (m.line * 64)) (d.lineHollow (m.line * 64)) := by
  have up : (d.mergeTaken m).stackUp (stackOf (m.line * 64)) = true := hup
  have written : (d.mergeTaken m).unwritten (m.line * 64) = false := hw
  have armed : (d.mergeTaken m).plat.armed = [] := ha
  have counted := Dev.injected_of_unarmed (Dev.count_unarmed armed (F.cstCnt 6)) Pg.cstReg Er.cstReg_mergeHollow
  have taken := Dev.takeInjected_of_unarmed (Dev.count_unarmed armed (F.cstCnt 6)) Pg.cstReg Er.cstReg_mergeHollow
  have read : (d.mergeTaken m).stackRead { rd with addr := m.line * 64 } false =
      (⟨d.lineData (m.line * 64), d.lineHollow (m.line * 64)⟩, d.mergeTaken m) := by
    have met := Dev.parityMet_none armed (m.line * 64)
    rw [← hp] at met
    refine (Dev.stackRead_eq (rd := { rd with addr := m.line * 64 }) ho met armed ?_ false).trans ?_
    · dsimp only
      rwa [lineNo_line]
    · dsimp only
      rw [he]
      rfl
  unfold Dev.mergeTaken at up written armed counted taken read
  simp only [hs] at read
  simp only [Dev.closeMerge, up, hs, Dev.bitmapRead_good (Dev.injected_of_unarmed armed _ _), written, read, counted,
    Bool.not_true, Bool.false_eq_true, if_false, Bool.or_false, Dev.merged, Dev.storeLine, Dev.mergeTaken]
  cases d.lineHollow (m.line * 64)
  · simp only [Dev.when, Bool.false_eq_true, if_false]
  · simp only [Dev.when, if_true, taken]

end

theorem Dev.merged_shows (d : Dev) (m : MergeEnt) (data : List Byte) (hollow : Bool) (hd : data.length = 64) : let e := d.merged m data hollow
    e.lineData (m.line * 64) = mergeBytes data m.bytes ∧ e.lineHollow (m.line * 64) = (hollow || m.hollow) ∧
      (hollow = false → e.rd (F.cstCnt 6) = satInc 32 (d.rd (F.cstCnt 6))) ∧
      (hollow = true → e.errorShows Pg.cstReg Er.cstReg_mergeHollow ∧ e.rd (F.cstCnt 7) = satInc 32 (d.rd (F.cstCnt 7))) ∧
      ∀ b, lineNo b ≠ m.line → e.byteAt b = d.byteAt b ∧ e.lineHollow b = d.lineHollow b := by
  obtain ⟨n, hn, cst⟩ : ∃ n, n = (d.count (F.cstCnt 6)).when hollow (fun d =>
      (d.raise Pg.cstReg Er.cstReg_mergeHollow (m.line * 64)).count (F.cstCnt 7)) ∧ n.cst = d.cst :=
    ⟨_, rfl, by cases hollow <;> simp [Dev.when, Dev.count]⟩
  unfold Dev.merged
  rw [← hn]
  obtain ⟨here, elsewhere⟩ := n.storeLine_lines (m.line * 64) (mergeBytes data m.bytes) (hollow || m.hollow) m.cls
  obtain ⟨data', hollow'⟩ := here (m.line * 64) rfl
  rw [padTo_of_length ((length_mergeBytes _ _).trans hd)] at data'
  refine ⟨data', hollow', fun hc => ?_, fun hc => ⟨?_, ?_⟩, fun b hb => ?_⟩
  · rw [Dev.rd_storeLine _ _ _ _ _ (by decide) (by decide), hn, hc, Dev.when, if_neg Bool.false_ne_true, Dev.rd_count_cst]
  · refine Dev.storeLine_shows _ _ _ _ _ (by decide) ?_
    rw [hn, hc, Dev.when, if_pos rfl, Dev.errorShows_count (by decide)]
    exact Dev.raise_errorShows _ _ _ (by decide)
  · rw [Dev.rd_storeLine _ _ _ _ _ (by decide) (by decide), hn, hc, Dev.when, if_pos rfl, Dev.rd_count_cst, Dev.rd_raise (cstCnt_steady (by decide)),
      Dev.rd_count_other (cstCnt_ne (by decide))]
  · obtain ⟨byte, line⟩ := elsewhere b (by rwa [lineNo_line])
    exact ⟨byte.trans (Dev.byteAt_congr (congrArg Cst.mem cst) b), line.trans (Dev.lineHollow_congr (congrArg Cst.hollow cst) b)⟩

end Sys2Proof.Machine
end

section
/-! Writes of the store, zero fill, scrub and the training of a stack (R107, R109, R113–R121). -/
namespace Sys2Proof.Machine
open Sys2Proof

/-! ## Zero fill (R118) -/

/-- One line of a zero fill. -/
def Dev.zeroLine (x : ZeroEnt) (d : Dev) (i : Nat) : Dev :=
  if x.written.testBit i then d else d.putLine (x.granule * 65536 + 64 * i) (zeros 64) (d.lineHollow (x.granule * 65536 + 64 * i))

theorem Dev.zeroFill_eq {d : Dev} {x : ZeroEnt} (h : d.stackUp (stackOf (x.granule * 65536)) = true) :
    d.zeroFill x = (List.range 1024).foldl (Dev.zeroLine x) d := if_neg (by simp [h])

theorem lineNo_granule (g i : Nat) : lineNo (g * 65536 + 64 * i) = g * 1024 + i := by unfold lineNo; omega

theorem Dev.lineHollow_putLine_kept (d : Dev) (a : Nat) (data : List Byte) (b : Nat) :
    (d.putLine a data (d.lineHollow a)).lineHollow b = d.lineHollow b := by
  by_cases h : lineNo b = lineNo a
  · rw [Dev.lineHollow_putLine _ _ _ _ h]
    unfold Dev.lineHollow
    rw [h]
  · exact d.lineHollow_putLine_other a data _ h

theorem Dev.putLine_tracks (d : Dev) (a : Nat) (data : List Byte) (hollow : Bool) : (d.putLine a data hollow).cst.filling = d.cst.filling ∧
    (d.putLine a data hollow).cst.waiting = d.cst.waiting := ⟨rfl, rfl⟩

/-- What the first `n` lines of a zero fill show: zeros in the lines not yet written, and every Hollow mark as it was. -/
theorem Dev.zeroLines_shows (x : ZeroEnt) (n : Nat) (d : Dev) : let e := (List.range n).foldl (Dev.zeroLine x) d
    (e.cst.filling = d.cst.filling ∧ e.cst.waiting = d.cst.waiting) ∧ (∀ b, e.lineHollow b = d.lineHollow b) ∧
      (∀ i, e.lineData (x.granule * 65536 + 64 * i) =
        if i < n ∧ x.written.testBit i = false then zeros 64 else d.lineData (x.granule * 65536 + 64 * i)) ∧
      ∀ b, x.granule * 1024 + n ≤ lineNo b ∨ lineNo b < x.granule * 1024 → e.byteAt b = d.byteAt b := by
  induction n with
  | zero => simp
  | succ n ih =>
    obtain ⟨⟨filling, waiting⟩, hollow, data, byte⟩ := ih
    simp only [List.range_succ, List.foldl_append, List.foldl_cons, List.foldl_nil]
    generalize (List.range n).foldl (Dev.zeroLine x) d = e at filling waiting hollow data byte ⊢
    unfold Dev.zeroLine
    split
    next hw =>
      refine ⟨⟨filling, waiting⟩, hollow, fun i => ?_, fun b hb => byte b (by omega)⟩
      rw [data]
      by_cases hi : i = n
      · simp [hi, hw]
      · simp [show i < n + 1 ↔ i < n by omega]
    next hw =>
      obtain ⟨filling', waiting'⟩ :=
        e.putLine_tracks (x.granule * 65536 + 64 * n) (zeros 64) (e.lineHollow (x.granule * 65536 + 64 * n))
      refine ⟨⟨filling'.trans filling, waiting'.trans waiting⟩, fun b => (e.lineHollow_putLine_kept _ _ b).trans (hollow b),
        fun i => ?_, fun b hb => ?_⟩
      · by_cases hi : i = n
        · subst hi
          refine (Dev.lineData_putLine _ _ _ _ rfl).trans ?_
          rw [padTo_of_length (length_zeros 64), if_pos ⟨Nat.lt_succ_self i, by simpa using hw⟩]
        · have apart : lineNo (x.granule * 65536 + 64 * i) ≠ lineNo (x.granule * 65536 + 64 * n) := by
            rw [lineNo_granule, lineNo_granule]
            omega
          refine (Dev.lineData_putLine_other _ _ _ _ apart).trans ((data i).trans ?_)
          simp [show i < n + 1 ↔ i < n by omega]
      · have apart : lineNo b ≠ lineNo (x.granule * 65536 + 64 * n) := by
          rw [lineNo_granule]
          omega
        exact (Dev.byteAt_putLine_other _ _ _ _ apart).trans (byte b (by omega))

theorem Dev.zeroFill_tracks (d : Dev) (x : ZeroEnt) : (d.zeroFill x).cst.filling = d.cst.filling ∧ (d.zeroFill x).cst.waiting = d.cst.waiting := by
  cases h : d.stackUp (stackOf (x.granule * 65536)) with
  | false => rw [show d.zeroFill x = d from if_pos (by simp [h])]; exact ⟨rfl, rfl⟩
  | true =>
    rw [Dev.zeroFill_eq h]
    exact (Dev.zeroLines_shows x 1024 d).1

theorem Dev.zeroFills_track (l : List ZeroEnt) (d : Dev) : (l.foldl Dev.zeroFill d).cst.filling = d.cst.filling ∧
    (l.foldl Dev.zeroFill d).cst.waiting = d.cst.waiting := by
  induction l generalizing d with
  | nil => exact ⟨rfl, rfl⟩
  | cons x l ih =>
    obtain ⟨filling, waiting⟩ := ih (d.zeroFill x)
    obtain ⟨filling', waiting'⟩ := d.zeroFill_tracks x
    exact ⟨filling.trans filling', waiting.trans waiting'⟩

/-- The store when a granule's zero fill has completed and nothing waits any more. -/
def Dev.granuleFilled (d : Dev) (g : Nat) : Dev :=
  ((d.cst.filling.filter (·.granule == g)).foldl (fun (m : Dev) x => m.zeroFill x) d).onCst fun c => { c with
    filling := c.filling.filter (·.granule != g), waiting := [] }

/-- Where all that waits is for the granule, it proceeds once the granule is filled. -/
theorem Dev.zeroFillDone_eq {d : Dev} {g : Nat} (h : ∀ w ∈ d.cst.waiting, w.granule = g) :
    d.zeroFillDone g = d.cst.waiting.foldl (fun d w => d.proceed w) (d.granuleFilled g) := by
  obtain ⟨-, waiting⟩ := Dev.zeroFills_track (d.cst.filling.filter (·.granule == g)) d
  have mine : d.cst.waiting.filter (fun w => w.granule == g) = d.cst.waiting := List.filter_eq_self.2 fun w hw => by simp [h w hw]
  have left : d.cst.waiting.filter (fun w => w.granule != g) = [] := List.filter_eq_nil_iff.2 fun w hw => by simp [h w hw]
  unfold Dev.zeroFillDone Dev.granuleFilled
  extract_lets filled mine' freed
  have waiting : filled.cst.waiting = d.cst.waiting := waiting
  have mine'' : mine' = d.cst.waiting := by rw [← mine, ← waiting]
  have freed' : freed = filled.onCst fun c => { c with filling := c.filling.filter (·.granule != g), waiting := [] } := by
    rw [← left, ← waiting]
    rfl
  rw [mine'', freed']

/-- What the granule's lines then hold. -/
theorem Dev.granuleFilled_shows {d : Dev} {g : Nat} {x : ZeroEnt} (hx : d.cst.filling.filter (·.granule == g) = [x])
    (hup : d.stackUp (stackOf (g * 65536)) = true) : let e := d.granuleFilled g
    (∀ i, i < 1024 → e.lineData (g * 65536 + 64 * i) = if x.written.testBit i then d.lineData (g * 65536 + 64 * i) else zeros 64) ∧
      ∀ b, (granuleOf b ≠ g → e.byteAt b = d.byteAt b) ∧ e.lineHollow b = d.lineHollow b := by
  obtain rfl : x.granule = g := by
    have mem : x ∈ d.cst.filling.filter (·.granule == g) := by simp [hx]
    simpa using (List.mem_filter.1 mem).2
  obtain ⟨-, hollow, data, byte⟩ := Dev.zeroLines_shows x 1024 d
  have filled : d.granuleFilled x.granule = ((List.range 1024).foldl (Dev.zeroLine x) d).onCst fun c => { c with
      filling := c.filling.filter (·.granule != x.granule), waiting := [] } := by
    rw [Dev.granuleFilled, hx, ← Dev.zeroFill_eq hup]
    rfl
  rw [filled]
  generalize (List.range 1024).foldl (Dev.zeroLine x) d = e at hollow data byte
  refine ⟨fun i hi => (data i).trans ?_, fun b => ⟨fun hb => byte b ?_, hollow b⟩⟩
  · cases x.written.testBit i <;> simp [hi]
  · unfold granuleOf at hb
    unfold lineNo
    omega

/-! ## Patrol scrub (R121) -/

/-- A scrub tick of one line. -/
theorem Dev.scrub_one {d : Dev} (faults : List LineRead) (hen : d.flag F.cstScrubCtrl_en = true) (hl : d.rd F.pltThermStat_level = 0)
    (hr : d.rd F.cstScrubCtrl_rate = 1) (hup : d.stackUp (stackOf (d.rd F.cstScrubPtr * 64)) = true)
    (hw : d.unwritten (d.rd F.cstScrubPtr * 64) = false) (hp : d.rd F.cstScrubPtr + 1 < 2 ^ 32) : d.scrub faults =
      (d.stackRead ((faults.find? (fun r => lineNo r.addr == d.rd F.cstScrubPtr)).getD (cleanRead (d.rd F.cstScrubPtr * 64))) true).2.wr
        F.cstScrubPtr (d.rd F.cstScrubPtr + 1) := by
  have rate : d.scrubRate = 1 := by simp [Dev.scrubRate, hl, hr]
  have line : d.scrubLine faults (d.rd F.cstScrubPtr) =
      (d.stackRead ((faults.find? (fun r => lineNo r.addr == d.rd F.cstScrubPtr)).getD (cleanRead (d.rd F.cstScrubPtr * 64))) true).2 :=
    if_neg (by simp [hup, hw])
  rw [Dev.scrub, if_pos hen, rate]
  show d.scrubStep faults = _
  unfold Dev.scrubStep
  dsimp only
  rw [line, Nat.mod_eq_of_lt hp, if_neg (by omega)]

/-! ## Training (R107, R109) -/

theorem Dev.trainingEnds_training {d : Dev} {n : Nat} (h : d.rd (F.cstStkTrain n) = 1) (ha : d.plat.armed = []) (pass : Bool) (repaired : Nat) :
    d.trainingEnds n pass repaired = d.stackTrained n pass repaired := by
  simp [Dev.trainingEnds, h, Dev.injected_of_unarmed ha, Dev.takeInjected_of_unarmed ha]

/-- A stack that trains READY. -/
def Dev.stackReady (d : Dev) (n repaired : Nat) : Dev := (d.wr (F.cstStkTrain n) 2).wr (F.cstStkStat_repaired n) repaired

theorem Dev.unitAt_stackReady (d : Dev) (n repaired page : Nat) : (d.stackReady n repaired).unitAt page = d.unitAt page :=
  Dev.unitAt_congr (by simp [Dev.stackReady]) page

section
variable {d : Dev} {n : Nat} (repaired : Nat)

theorem Dev.stackTrained_active (h : d.unitAt (Pg.cstStk n) = .active) : d.stackTrained n true repaired = d.stackReady n repaired := by
  have unit := (d.unitAt_stackReady n repaired (Pg.cstStk n)).trans h
  unfold Dev.stackReady at unit ⊢
  simp [Dev.stackTrained, unit, Dev.when]

theorem Dev.stackTrained_off (h : d.unitAt (Pg.cstStk n) = .off) :
    d.stackTrained n true repaired = (d.stackReady n repaired).setUnit (Pg.cstStk n) .active := by
  have unit := (d.unitAt_stackReady n repaired (Pg.cstStk n)).trans h
  unfold Dev.stackReady at unit ⊢
  simp [Dev.stackTrained, unit, Dev.when]

/-- A stack that was isolated finds the content of its allocated buffers lost. -/
theorem Dev.stackTrained_isolated (h : d.unitAt (Pg.cstStk n) = .isolated) : d.stackTrained n true repaired =
    (((d.stackReady n repaired).onCst fun c => { c with
      stale := (d.bpm.ents.filter fun x => x.2.alloc && decide (x.1 / 2 ^ 20 = n)).foldl (fun m x => Map.set 0 m x.1 (2 ^ 1024 - 1)) c.stale }).onBpm
        fun b => { b with back := Map.put b.back n none }).setUnit (Pg.cstStk n) .quiesced := by
  have unit := (d.unitAt_stackReady n repaired (Pg.cstStk n)).trans h
  have bpm : (d.stackReady n repaired).bpm = d.bpm := by simp [Dev.stackReady]
  unfold Dev.stackReady at unit bpm ⊢
  simp only [Dev.stackTrained, unit, bpm, Dev.when, decide_true, if_true]

end

/-- Settles O27: a write is noted in the tracker and stored; a narrow one gathers in the merge buffer; fills, scrub and training follow their own
rules. -/
theorem storeWrites : Obligations.StoreWrites := by
  unfold Obligations.StoreWrites
  refine ⟨fun s wr rd => ?writes, fun s => ?upkeep⟩
  case writes =>
    intro d a n cut bytes elsewhere hws hrs ha
    refine ⟨fun hb hw hup => ⟨fun hp hz => ?_, fun hp => ?_⟩, fun hb hw => ⟨fun hj => ?_, fun hj hl => ?_⟩,
      fun m hm hup hp => ⟨fun hu => ?_, fun hu he ho hst => ?_⟩⟩
    · refine completes_storeWrite hb hws ha hw fun mc => ?_
      rw [hp, Dev.writeLine_good (d := s.dev.onMc fun _ => mc) hup ha]
      have tracked : (s.dev.onMc fun _ => mc).granuleValid (granuleOf (lineNo a * 64)) = false →
          (s.dev.onMc fun _ => mc).zeroEnt (granuleOf (lineNo a * 64)) = none := by
        rw [granuleOf_line]
        exact hz
      obtain ⟨here, written, merge, others, bpm⟩ := Dev.lineWritten_shows (padTo 64 wr.data) wr.hollow wr.cls tracked
      rw [lineNo_line] at here merge others
      rw [Dev.unwritten_line] at written
      obtain ⟨data, hollow⟩ := here a rfl
      rw [padTo_padTo] at data
      exact ⟨data, hollow, written, merge, others, bpm⟩
    · refine completes_storeWrite hb hws ha hw fun mc => ?_
      rw [Dev.writeLine_failed (d := s.dev.onMc fun _ => mc) hup ha hp]
      obtain ⟨retry, fail, closed, cst, -⟩ := Dev.parityFailed_shows (d := s.dev.onMc fun _ => mc) hup
      exact ⟨cst, closed, retry, fail⟩
    · refine completes_narrowWrite hb hws ha hw fun mc => ?_
      rw [Dev.narrow_joins (d := s.dev.onMc fun _ => mc) _ _ _ hj]
      exact ⟨rfl, rfl⟩
    · refine completes_narrowWrite hb hws ha hw fun mc => ?_
      rw [Dev.narrow_opens (d := s.dev.onMc fun _ => mc) _ _ _ hj hl]
      exact ⟨rfl, rfl⟩
    · refine ⟨_, rfl, ?_⟩
      beta_reduce
      rw [hm]
      dsimp only
      rw [Dev.closeMerge_unwritten hrs ha hup hp hu]
      obtain ⟨data, hollow, cnt, -, others⟩ := (s.dev.mergeTaken m).merged_shows m (zeros 64) false (length_zeros 64)
      exact ⟨data, hollow, cnt rfl, others⟩
    · refine ⟨_, rfl, ?_⟩
      beta_reduce
      rw [hm]
      dsimp only
      rw [Dev.closeMerge_written hrs ha hup hp hu he ho hst]
      obtain ⟨data, hollow, -, met, others⟩ := (s.dev.mergeTaken m).merged_shows m _ (s.dev.lineHollow (m.line * 64)) (length_lineData s.dev _)
      exact ⟨data, hollow, met, others⟩
  case upkeep =>
    intro d filled
    have done (g : Nat) {Q : Dev → Prop} (hw : ∀ w ∈ d.cst.waiting, w.granule = g)
        (h : Q (d.cst.waiting.foldl (fun d w => d.proceed w) (filled g))) : completes (.zeroFillDone g) s Q :=
      ⟨_, rfl, by beta_reduce; rwa [Dev.zeroFillDone_eq hw]⟩
    refine ⟨fun g rd hw hg => ?_, fun g wr hw hg => ?_, fun g hw => ?_, fun faults hen => ?_, fun faults hen hl hr hup hu hp => ?_,
      fun n repaired hn ht ha => ?_⟩
    · refine done g (by simp [hw, Waiter.granule, hg]) ?_
      rw [hw]
      rfl
    · refine done g (by simp [hw, Waiter.granule, hg]) ?_
      rw [hw]
      rfl
    · refine done g (by simp [hw]) ?_
      rw [hw]
      exact ⟨rfl, fun x hx hup => Dev.granuleFilled_shows hx hup⟩
    · exact ⟨_, rfl, if_neg (by simp [show s.dev.flag F.cstScrubCtrl_en = false from hen])⟩
    · exact ⟨_, rfl, Dev.scrub_one faults hen hl hr hup hu hp⟩
    · intro ready failed
      have ends (pass : Bool) {Q : Dev → Prop} (h : Q (d.stackTrained n pass repaired).hatPump) :
          completes (.stackTrained n pass repaired) s Q := by
        refine ⟨_, rfl, ?_⟩
        beta_reduce
        rwa [Nat.mod_eq_of_lt hn, Dev.trainingEnds_training (d := s.dev) ht ha]
      refine ⟨fun hu => ends true ?_, fun hu => ends true ?_, fun hu => ends true ?_, ends false ?_⟩
      · rw [Dev.stackTrained_active repaired hu]
        rfl
      · rw [Dev.stackTrained_off repaired hu]
        rfl
      · rw [Dev.stackTrained_isolated repaired hu]
        rfl
      · rfl

end Sys2Proof.Machine
end

section
/-! SUPPORT. Buffers: partial maps, what a change of a pool's levels leaves alone, and what an operation by handle comes to (R133–R136, R547). -/
namespace Sys2Proof.Machine
open Sys2Proof

/-! ## Partial maps -/

section
variable {α : Type} (m : Map α) (k : Nat)

theorem Map.get_eq_find (dflt : α) : Map.get dflt m k = (Map.find m k).getD dflt := by
  induction m with
  | nil => rfl
  | cons e m ih =>
    rw [Map.get, ih, Map.find, Map.find, List.find?_cons]
    by_cases h : e.1 = k
    · simp [h]
    · rw [if_neg h, beq_false_of_ne h]

theorem Map.find_erase_same : Map.find (Map.erase m k) k = none := by
  rw [Map.find, List.find?_eq_none.2 fun e he => by simpa using Map.erase_keys m k e he]
  rfl

theorem Map.find_put_same (v : α) : Map.find (Map.put m k v) k = some v := by
  have absent := Map.erase_keys m k
  unfold Map.put
  generalize Map.erase m k = n at absent ⊢
  induction n with
  | nil => simp [Map.insert, Map.find]
  | cons e n ih =>
    obtain ⟨apart, absent⟩ := List.forall_mem_cons.1 absent
    rw [Map.insert]
    split
    · simp [Map.find]
    · rw [Map.find, List.find?_cons, show (e.1 == k) = false by simpa using apart]
      exact ih absent

theorem Map.find_dropWindow {lo hi : Nat} (hl : lo ≤ hi) :
    Map.find (Map.dropWindow m lo hi) k = if lo ≤ k ∧ k < hi then none else Map.find m k := by
  have kept (p : Nat → Bool) : (m.filter fun e => p e.1).find? (fun e => e.1 == k) = if p k then m.find? (fun e => e.1 == k) else none := by
    rw [List.find?_filter]
    split
    next hp =>
      congr 1
      funext e
      by_cases he : e.1 = k <;> simp [he, hp]
    next hp =>
      refine List.find?_eq_none.2 fun e _ he => hp ?_
      obtain ⟨pe, rfl⟩ : p e.1 = true ∧ e.1 = k := by simpa using he
      exact pe
  unfold Map.find Map.dropWindow Map.replaceWindow Map.window
  rw [List.filter_nil, List.append_nil, List.find?_append, kept fun j => decide (j < lo), kept fun j => decide (hi ≤ j)]
  rcases Nat.lt_or_ge k lo with hlo | hlo
  · have hhi : ¬ hi ≤ k := by omega
    cases m.find? (fun e => e.1 == k) <;> simp [hlo, hhi, Nat.not_le.2 hlo]
  · by_cases hhi : hi ≤ k
    · simp [hhi, Nat.not_lt.2 hhi, Nat.not_lt.2 hlo]
    · simp [hlo, hhi, Nat.not_le.1 hhi]

theorem Map.get_dropWindow (dflt : α) {lo hi : Nat} (hl : lo ≤ hi) :
    Map.get dflt (Map.dropWindow m lo hi) k = if lo ≤ k ∧ k < hi then dflt else Map.get dflt m k := by
  rw [Map.get_eq_find, Map.get_eq_find, Map.find_dropWindow _ _ hl]
  split <;> rfl

end

/-! ## A change of a pool's levels -/

/-- Between `d` and `e` a pool's levels change, with the errors and credits that follow. -/
structure Dev.LevelWork (d e : Dev) : Prop where
  cst : e.cst = d.cst
  bpm : e.bpm = d.bpm
  rd : ∀ f : RegField, f.steady → f.addr % 4096 ≠ 0x11C → e.rd f = d.rd f

namespace Dev.LevelWork

variable {b d : Dev}

theorem refl (d : Dev) : d.LevelWork d := ⟨rfl, rfl, fun _ _ _ => rfl⟩

theorem onIng (h : b.LevelWork d) {f : Ing → Ing} : b.LevelWork (d.onIng f) := ⟨h.cst, h.bpm, h.rd⟩

theorem send (h : b.LevelWork d) {m : OutMsg} : b.LevelWork (d.send m) := ⟨h.cst, h.bpm, h.rd⟩

theorem wrB (h : b.LevelWork d) {f : RegField} (hf : f.addr % 4096 = 0x11C) {v : Bool} : b.LevelWork (d.wrB f v) :=
  ⟨(d.wr_cst f _).trans h.cst, (d.wr_bpm f _).trans h.bpm, fun g hg hx =>
    (d.rd_wr_other f g _ fun same => hx (same ▸ hf)).trans (h.rd g hg hx)⟩

theorem raise (h : b.LevelWork d) {page bit info : Nat} : b.LevelWork (d.raise page bit info) :=
  ⟨(d.raise_cst page bit info).trans h.cst, (d.raise_bpm page bit info).trans h.bpm,
    fun g hg hx => (Dev.rd_raise hg page bit info).trans (h.rd g hg hx)⟩

theorem when (h : b.LevelWork d) {c : Bool} {f : Dev → Dev} (hf : ∀ d, b.LevelWork d → b.LevelWork (f d)) : b.LevelWork (d.when c f) := by
  unfold Dev.when
  split
  · exact hf d h
  · exact h

theorem foldl {α : Type} (h : b.LevelWork d) {f : Dev → α → Dev} (hf : ∀ d x, b.LevelWork d → b.LevelWork (f d x)) {l : List α} :
    b.LevelWork (l.foldl f d) := by
  induction l generalizing d with
  | nil => exact h
  | cons x l ih => exact ih (hf d x h)

theorem creditsPaid (h : b.LevelWork d) {s : Nat} : b.LevelWork (d.creditsPaid s) := by
  refine h.foldl fun d p h => ?_
  dsimp only
  split
  · exact h
  · exact (LevelWork.onIng h).when fun _ h => h.send

theorem creditsResume (h : b.LevelWork d) {p : Nat} : b.LevelWork (d.creditsResume p) := by
  refine h.foldl fun d s h => ?_
  split
  · exact h.creditsPaid
  · exact h

theorem level (h : b.LevelWork d) {f : RegField} (hf : f.addr % 4096 = 0x11C) {now rises : Bool} {page bit : Nat} :
    b.LevelWork ((d.wrB f now).when rises (·.raise page bit)) := (h.wrB hf).when fun _ h => h.raise

theorem poolLevels (h : b.LevelWork d) {p : Nat} {none_ : Bool} : b.LevelWork (d.poolLevels p none_) := by
  have warn : (F.bpmPoolStat_warn p).addr % 4096 = 0x11C := by simp only [F.bpmPoolStat_warn]; omega
  have press : (F.bpmPoolStat_pressure p).addr % 4096 = 0x11C := by simp only [F.bpmPoolStat_pressure]; omega
  have crit : (F.bpmPoolStat_critical p).addr % 4096 = 0x11C := by simp only [F.bpmPoolStat_critical]; omega
  have bp : (F.bpmPoolStat_bp p).addr % 4096 = 0x11C := by simp only [F.bpmPoolStat_bp]; omega
  unfold Dev.poolLevels
  exact (((LevelWork.level (LevelWork.level (h.level warn) press) crit).wrB bp)).when fun _ h => h.creditsResume

end Dev.LevelWork

/-! ## Buffers and handles -/

theorem Dev.bufEnt_congr {d e : Dev} (h : e.bpm = d.bpm) (k : Nat) : e.bufEnt k = d.bufEnt k := by unfold Dev.bufEnt; rw [h]

theorem Dev.bufEnt_setBufEnt (d : Dev) (i : Nat) (x : BufEnt) (k : Nat) : (d.setBufEnt i x).bufEnt k = if k = i then x else d.bufEnt k :=
  Map.get_set _ _ _ _ _

theorem Dev.setBufEnt_records (d : Dev) (i : Nat) (x : BufEnt) : (d.setBufEnt i x).cst = d.cst ∧ (d.setBufEnt i x).bpm.freeing = d.bpm.freeing ∧
    (d.setBufEnt i x).bpm.shares = d.bpm.shares := ⟨rfl, rfl, rfl⟩

/-- A handle of the buffer's generation names the buffer. -/
theorem Dev.resolve_handle {d : Dev} {i : Nat} (hi : i < Config.systemFirst) (hg : (d.bufEnt i).gen < 1024) (ha : d.plat.armed = []) :
    d.resolve (.handle (mkHandle (d.bufEnt i).gen i)) = (some i, false) := by
  have below : i < 2 ^ 22 := Nat.lt_trans hi (by decide)
  have index : handleIndex (mkHandle (d.bufEnt i).gen i) = i := by unfold handleIndex mkHandle; omega
  have gen : handleGen (mkHandle (d.bufEnt i).gen i) = (d.bufEnt i).gen := by unfold handleGen mkHandle; omega
  have user : isSystem i = false := decide_eq_false (Nat.not_le.2 hi)
  simp [Dev.resolve, Dev.injected_of_unarmed ha, index, gen, user]

/-- An operation of an owner outside region 15 leaves what it comes to. -/
theorem completes_op {s : State} {c : Instr} {o : Nat} {f : Dev → BpmSt × Dev} {st : BpmSt} {e : Dev} {Q : Dev → Prop}
    (hc : exec c s = run s fun d => d.opResult o (f d)) (hreg : s.dev.rd (F.bpmOwnCfg_region o) ≠ 15) (hf : f s.dev = (st, e)) (hq : Q e) :
    completes c s Q := by
  refine ⟨_, hc, ?_⟩
  dsimp only
  rwa [hf, Dev.opResult, if_neg hreg]

/-! ## Operations by an acting owner -/

section
variable {d : Dev} {buf : BufRef} {i : Nat} (hres : d.resolve buf = (some i, false)) {o : Nat}
include hres

theorem Dev.bpmFree_owned (ha : (d.bufEnt i).alloc = true) (hf : d.bpm.freeing.any (·.1 == i) = false) (hs : (d.bufEnt i).shared = false)
    (ho : (d.bufEnt i).owner = o) (hn : (d.bufEnt i).noOwner = false) : d.bpmFree o buf = (.ok, d.startFree i) := by
  simp [Dev.bpmFree, hres, ha, hf, hs, ho, hn]

theorem Dev.bpmFree_shared {r : Share} (ha : (d.bufEnt i).alloc = true) (hf : d.bpm.freeing.any (·.1 == i) = false)
    (hs : (d.bufEnt i).shared = true) (hr : Map.find d.bpm.shares i = some r) (hl : r.last = o) (hd : (d.bufEnt i).defer = false) :
    d.bpmFree o buf = (.deferred, (d.setBufEnt i { d.bufEnt i with defer := true }).count (F.bpmCnt 3)) := by
  simp [Dev.bpmFree, hres, ha, hf, hs, hr, hl, hd]

theorem Dev.bpmRelease_holder {r : Share} (hr : Map.find d.bpm.shares i = some r) (hl : r.last ≠ o) (hh : r.holders.testBit o = true) :
    d.bpmRelease o buf = (.ok, d.dropShare i o) := by
  simp [Dev.bpmRelease, hres, hr, hl, hh]

section
variable {mask last : Nat} (hmay : ((d.bufEnt i).alloc && (d.bufEnt i).owner == o && !(d.bufEnt i).noOwner && !(d.bufEnt i).shared &&
  decide (2 ≤ maskCount mask) && decide (maskCount mask ≤ 8) && mask.testBit o && mask.testBit last && decide (mask < 2 ^ 64)) = true)
  (ha : d.plat.armed = [])
include hmay ha

theorem Dev.bpmShare_room (h : d.bpm.shares.length < 65536) : d.bpmShare o buf mask last =
    (.ok, (d.setBufEnt i { d.bufEnt i with shared := true }).onBpm fun b => { b with shares := Map.put b.shares i ⟨mask, 0, last, false⟩ }) := by
  unfold Dev.bpmShare
  rw [hres]
  dsimp only
  rw [if_pos hmay, if_neg (by simp [Dev.injected_of_unarmed ha, h])]

theorem Dev.bpmShare_full (h : 65536 ≤ d.bpm.shares.length) : d.bpmShare o buf mask last =
    (.ignored, (d.raise Pg.bpmReg Er.bpmReg_shareFull).countIgnored Pg.bpmReg 0x500100) := by
  unfold Dev.bpmShare
  rw [hres]
  dsimp only
  rw [if_pos hmay, if_pos (.inl h), Dev.takeInjected_of_unarmed ha]

end

section
variable (ha : (d.bufEnt i).alloc = true) (hs : (d.bufEnt i).shared = false) (hn : (d.bufEnt i).noOwner = false)
include ha hs hn

theorem Dev.bpmTransfer_owned (ho : (d.bufEnt i).owner = o) (k : Nat) : d.bpmTransfer o buf k =
    (.ok, if d.cst.waiting.any (fun w => w.granule == i && w.owner == some o)
      then d.onCst fun c => { c with waiting := c.waiting ++ [.pass o i k] } else d.passTo o i k) := by
  simp [Dev.bpmTransfer, hres, ha, hs, hn, ho]

theorem Dev.bpmHostw_owned (ho : (d.bufEnt i).owner = o) (hr : (d.bufEnt i).retired = false) (on : Bool) :
    d.bpmHostw o buf on = (.ok, d.setBufEnt i { d.bufEnt i with hostw := on }) := by
  simp [Dev.bpmHostw, hres, ha, hs, hn, ho, hr]

end

theorem Dev.bpmTransfer_other (ho : (d.bufEnt i).owner ≠ o) (k : Nat) : d.bpmTransfer o buf k = d.opIgnored false := by
  simp [Dev.bpmTransfer, hres, ho]

end

theorem Dev.passTo_owned {d : Dev} {o i : Nat} (ha : (d.bufEnt i).alloc = true) (hs : (d.bufEnt i).shared = false)
    (hn : (d.bufEnt i).noOwner = false) (ho : (d.bufEnt i).owner = o) (k : Nat) :
    d.passTo o i k = d.setBufEnt i { d.bufEnt i with owner := k % 64 } := by
  simp [Dev.passTo, ha, hs, hn, ho]

/-- What an operation shows that is ignored. -/
theorem Dev.opIgnored_shows {d : Dev} (ha : d.plat.armed = []) : let e := (d.opIgnored false).2
    e.bpm = d.bpm ∧ e.cst = d.cst ∧ e.errorShows Pg.bpmReg Er.bpmReg_freeIgnored ∧ e.rd (F.bpmCnt 4) = satInc 32 (d.rd (F.bpmCnt 4)) := by
  have eq : (d.opIgnored false).2 = ((d.raise Pg.bpmReg Er.bpmReg_freeIgnored).count (F.bpmCnt 4)).countIgnored Pg.bpmReg 0x500100 := by
    simp [Dev.opIgnored, Dev.takeInjected_of_unarmed ha, Dev.when]
  intro e
  have eq : e = _ := eq
  rw [eq]
  obtain ⟨cst, bpm, -⟩ := ((d.raise Pg.bpmReg Er.bpmReg_freeIgnored).count (F.bpmCnt 4)).countIgnored_sameRegions Pg.bpmReg 0x500100 1
  refine ⟨?_, ?_, ?_, ?_⟩
  · rw [bpm, Dev.count, Dev.wr_bpm, Dev.raise_bpm]
  · rw [cst, Dev.count, Dev.wr_cst, Dev.raise_cst]
  · exact Dev.errorShows_countIgnored_still (by decide) ((Dev.errorShows_count (by decide) _ _ _).2 (Dev.raise_errorShows _ _ _ (by decide))) _ _
  · rw [Dev.rd_countIgnored (bpmCnt_steady (by decide)), Dev.rd_count_bpm, Dev.rd_raise (bpmCnt_steady (by decide))]

/-! ## Shares (R135) -/

section
variable {d : Dev} {i o : Nat} {r : Share} (hr : Map.find d.bpm.shares i = some r)
include hr

theorem Dev.dropShare_held (hl : setBit (setBit r.holders o false) r.last false ≠ 0) : d.dropShare i o = d.onBpm fun b => { b with
    shares := Map.put b.shares i { r with holders := setBit r.holders o false, dropped := setBit r.dropped o true } } := by
  simp [Dev.dropShare, hr, hl]

theorem Dev.dropShare_closed (hl : setBit (setBit r.holders o false) r.last false = 0) (hd : (d.bufEnt i).defer = false) : d.dropShare i o =
    (d.onBpm fun b => { b with shares := Map.erase b.shares i }).setBufEnt i
      { d.bufEnt i with shared := false, owner := r.last, noOwner := r.noLast, defer := false } := by
  simp [Dev.dropShare, hr, hl, hd]

end

/-! ## A FREE completes (R136) -/

theorem Dev.cacheDropGranule_onMc {d : Dev} (hs : d.mc.stalled = []) (hl : d.mc.later = []) (g : Nat) :
    ∃ m, d.cacheDropGranule g = d.onMc fun _ => m := by
  simp only [Dev.cacheDropGranule, Dev.resume, Dev.onMc, hs, Dev.resumeGo, Dev.laterDue, hl, Dev.laterGo]
  exact ⟨_, rfl⟩

/-- The store's records when a buffer's FREE completes. -/
def Cst.freed (c : Cst) (i : Nat) : Cst := { c with
  zero := c.zero.filter (·.granule != i)
  filling := c.filling.filter (·.granule != i)
  merge := c.merge.filter fun m => m.line / 1024 != i
  mem := Map.dropWindow c.mem (i * 65536) ((i + 1) * 65536)
  hollow := Map.dropWindow c.hollow (i * 1024) ((i + 1) * 1024)
  stale := Map.erase c.stale i
  valid := Map.set (isSystem i) c.valid i false }

/-- A buffer-table entry when the buffer's FREE completes. -/
def BufEnt.freed (e : BufEnt) : BufEnt :=
  { e with owner := 0, hostw := false, defer := false, shared := false, alloc := false, noOwner := false, pool := 0, grantee := 0 }

/-- The buffer's entry and record go. -/
def Dev.bufFreed (d : Dev) (i : Nat) (e : BufEnt) : Dev :=
  (d.onBpm fun b => { b with freeing := b.freeing.filter (·.1 != i), shares := Map.erase b.shares i }).setBufEnt i e.freed

theorem Dev.freeNow_eq {d : Dev} {i : Nat} (hw : d.cst.waiting = []) (hs : d.mc.stalled = []) (hl : d.mc.later = []) :
    ∃ m, d.freeNow i = ((((((d.onMc fun _ => m).onCst (·.freed i)).wr F.cstCnt8 (d.cst.freed i).zero.length).bufFreed i (d.bufEnt i)).count
      (F.bpmCnt 2)).poolLevels (d.bufEnt i).pool false) := by
  obtain ⟨m, hm⟩ := Dev.cacheDropGranule_onMc hs hl i
  refine ⟨m, ?_⟩
  unfold Dev.freeNow
  simp only [hw, List.any_nil, Dev.when, Bool.false_eq_true, if_false, hm]
  rfl

theorem Dev.freeNow_shows {d : Dev} {i : Nat} (hw : d.cst.waiting = []) (hs : d.mc.stalled = []) (hl : d.mc.later = []) : let e := d.freeNow i
    e.cst = d.cst.freed i ∧ e.bufEnt i = (d.bufEnt i).freed ∧ (∀ k, k ≠ i → e.bufEnt k = d.bufEnt k) ∧
      e.bpm.freeing = d.bpm.freeing.filter (·.1 != i) ∧ e.rd (F.bpmCnt 2) = satInc 32 (d.rd (F.bpmCnt 2)) := by
  obtain ⟨m, hm⟩ := Dev.freeNow_eq (i := i) hw hs hl
  rw [hm]
  generalize hn : ((d.onMc fun _ => m).onCst (·.freed i)).wr F.cstCnt8 (d.cst.freed i).zero.length = n
  have cst : n.cst = d.cst.freed i := by rw [← hn]; exact Dev.wr_cst _ _ _
  have bpm : n.bpm = d.bpm := by rw [← hn]; exact Dev.wr_bpm _ _ _
  have cnt : n.rd (F.bpmCnt 2) = d.rd (F.bpmCnt 2) := by rw [← hn]; exact Dev.rd_wr_other _ _ _ _ (by decide)
  have levels : Dev.LevelWork _ (((n.bufFreed i (d.bufEnt i)).count (F.bpmCnt 2)).poolLevels (d.bufEnt i).pool false) :=
    (Dev.LevelWork.refl ((n.bufFreed i (d.bufEnt i)).count (F.bpmCnt 2))).poolLevels
  have bpm' : (((n.bufFreed i (d.bufEnt i)).count (F.bpmCnt 2)).poolLevels (d.bufEnt i).pool false).bpm = (n.bufFreed i (d.bufEnt i)).bpm :=
    levels.bpm.trans (Dev.wr_bpm _ _ _)
  refine ⟨?_, ?_, fun k hk => ?_, ?_, ?_⟩
  · rw [levels.cst, Dev.count, Dev.wr_cst, ← cst]
    rfl
  · rw [Dev.bufEnt_congr bpm', Dev.bufFreed, Dev.bufEnt_setBufEnt, if_pos rfl]
  · rw [Dev.bufEnt_congr bpm', Dev.bufFreed, Dev.bufEnt_setBufEnt, if_neg hk, ← Dev.bufEnt_congr bpm]
    rfl
  · rw [bpm', ← bpm]
    rfl
  · rw [levels.rd _ (bpmCnt_steady (by decide)) (by decide), Dev.rd_count_bpm, ← cnt]
    rfl

end Sys2Proof.Machine
end

section
/-! Operations on a buffer by handle (R133–R136, R547). -/
namespace Sys2Proof.Machine
open Sys2Proof

/-- Settles O29: each operation comes to a change of the buffer's entry, its share record and, where a FREE completes, the store's records. -/
theorem bufferOperations : Obligations.BufferOperations := by
  unfold Obligations.BufferOperations
  intro s i o hi _ d b h others hg ha hn hreg harm
  have hres : s.dev.resolve h = (some i, false) := Dev.resolve_handle hi hg harm
  have set (e : BufEnt) : others (d.setBufEnt i e) ∧ (d.setBufEnt i e).bufEnt i = e := by
    obtain ⟨cst, freeing, -⟩ := d.setBufEnt_records i e
    exact ⟨⟨fun k hk => by rw [Dev.bufEnt_setBufEnt, if_neg hk], cst, freeing⟩, by rw [Dev.bufEnt_setBufEnt, if_pos rfl]⟩
  refine ⟨fun ho hs hf => ?_, fun r hs hr hl hd hf => ?_, fun hf hw hst hlt => ?_, fun r hr hl hh => ?_,
    fun ho hs => ⟨fun mask last h2 h8 hm hml h64 => ?_, fun k => ?_, fun hret => ?_⟩, fun ho hs k => ?_⟩
  · exact completes_op (f := (·.bpmFree o h)) rfl hreg (Dev.bpmFree_owned hres ha hf hs ho hn) rfl
  · refine completes_op (f := (·.bpmFree o h)) rfl hreg (Dev.bpmFree_shared hres ha hf hs hr hl hd) ?_
    obtain ⟨⟨ents, cst, freeing⟩, ent⟩ := set { b with defer := true }
    have bpm : ((d.setBufEnt i { b with defer := true }).count (F.bpmCnt 3)).bpm = (d.setBufEnt i { b with defer := true }).bpm := Dev.wr_bpm _ _ _
    exact ⟨(Dev.bufEnt_congr bpm i).trans ent, Dev.rd_count_bpm _ 3, fun k hk => (Dev.bufEnt_congr bpm k).trans (ents k hk),
      (Dev.wr_cst _ _ _).trans cst, (congrArg Bpm.freeing bpm).trans freeing⟩
  · refine ⟨_, rfl, ?_⟩
    beta_reduce
    rw [Dev.freeComplete, if_pos hf]
    obtain ⟨cst, ent, ents, freeing, cnt⟩ := Dev.freeNow_shows (i := i) hw hst hlt
    refine ⟨ent, ?_, ?_, fun x hx => ?_, ents, fun a => ?_, ?_, cnt⟩
    · unfold Dev.granuleValid
      rw [cst, Cst.freed, Map.get_set_same]
    · unfold Dev.zeroEnt
      rw [cst, List.find?_eq_none]
      simp [Cst.freed, or_imp]
    · rw [cst] at hx
      simpa using (List.mem_filter.1 hx).2
    · rw [Dev.byteAt, cst]
      refine (Map.get_dropWindow _ _ _ (by omega)).trans (if_congr ?_ rfl rfl)
      unfold granuleOf
      omega
    · rw [freeing]
      simp
  · have released {Q : Dev → Prop} : Q (s.dev.dropShare i o) → completes (.bpmRelease o h) s Q :=
      completes_op (f := (·.bpmRelease o h)) rfl hreg (Dev.bpmRelease_holder hres hr hl hh)
    refine ⟨fun left => released ?_, fun left hd => released ?_⟩
    · rw [Dev.dropShare_held hr left]
      exact ⟨⟨fun _ _ => rfl, rfl, rfl⟩, rfl, Map.find_put_same _ _ _⟩
    · rw [Dev.dropShare_closed hr left hd]
      refine ⟨⟨fun k hk => ?_, rfl, rfl⟩, ?_, Map.find_erase_same _ _⟩
      · rw [Dev.bufEnt_setBufEnt, if_neg hk]
        rfl
      · rw [Dev.bufEnt_setBufEnt, if_pos rfl]
  · have may : ((s.dev.bufEnt i).alloc && (s.dev.bufEnt i).owner == o && !(s.dev.bufEnt i).noOwner && !(s.dev.bufEnt i).shared &&
        decide (2 ≤ maskCount mask) && decide (maskCount mask ≤ 8) && mask.testBit o && mask.testBit last && decide (mask < 2 ^ 64)) = true := by
      have ha : (s.dev.bufEnt i).alloc = true := ha
      have hn : (s.dev.bufEnt i).noOwner = false := hn
      have ho : (s.dev.bufEnt i).owner = o := ho
      have hs : (s.dev.bufEnt i).shared = false := hs
      simp only [ha, hn, ho, hs, h2, h8, hm, hml, h64, beq_self_eq_true, decide_true, Bool.not_false, Bool.and_self]
    refine ⟨fun room => completes_op (f := (·.bpmShare o h mask last)) rfl hreg (Dev.bpmShare_room hres may harm room) ?_,
      fun full => completes_op (f := (·.bpmShare o h mask last)) rfl hreg (Dev.bpmShare_full hres may harm full) ?_⟩
    · obtain ⟨rest, ent⟩ := set { b with shared := true }
      exact ⟨rest, ent, Map.find_put_same _ _ _⟩
    · obtain ⟨-, bpm, -⟩ := (d.raise Pg.bpmReg Er.bpmReg_shareFull).countIgnored_sameRegions Pg.bpmReg 0x500100 1
      exact ⟨bpm.trans (d.raise_bpm _ _ _), Dev.errorShows_countIgnored_still (by decide) (Dev.raise_errorShows _ _ _ (by decide)) _ _⟩
  · refine ⟨fun hw => completes_op (f := (·.bpmTransfer o h k)) rfl hreg (Dev.bpmTransfer_owned hres ha hs hn ho k) ?_,
      fun hw => completes_op (f := (·.bpmTransfer o h k)) rfl hreg (Dev.bpmTransfer_owned hres ha hs hn ho k) (if_pos hw)⟩
    rw [if_neg (by simp [show s.dev.cst.waiting.any _ = false from hw]), Dev.passTo_owned ha hs hn ho]
    exact set { b with owner := k % 64 }
  · have switched (on : Bool) := Dev.bpmHostw_owned hres ha hs hn ho hret on
    exact ⟨completes_op (f := (·.bpmHostw o h true)) rfl hreg (switched true) (set { b with hostw := true }),
      completes_op (f := (·.bpmHostw o h false)) rfl hreg (switched false) (set { b with hostw := false })⟩
  · exact completes_op (f := (·.bpmTransfer o h k)) rfl hreg (Dev.bpmTransfer_other hres ho k) (Dev.opIgnored_shows harm)

end Sys2Proof.Machine
end

section
/-! SUPPORT. Work in the store and the cache's own records are apart: a read, a write and a merge of lines do the same whatever the cache holds,
and leave what it holds (R111–R120). -/
namespace Sys2Proof.Machine
open Sys2Proof

section
variable (d : Dev) (g : Mc → Mc)

theorem Dev.onMc_ite (c : Prop) [Decidable c] (d e : Dev) (g : Mc → Mc) : (if c then d else e).onMc g = if c then d.onMc g else e.onMc g :=
  apply_ite (Dev.onMc · g) c d e

theorem Dev.wr_onMc (f : RegField) (v : Nat) : (d.onMc g).wr f v = (d.wr f v).onMc g := by
  unfold Dev.wr
  split <;> rfl

theorem Dev.count_onMc (f : RegField) : (d.onMc g).count f = (d.count f).onMc g := d.wr_onMc g f _

theorem Dev.put64_onMc (lo hi : RegField) (v : Nat) : (d.onMc g).put64 lo hi v = (d.put64 lo hi v).onMc g := by
  unfold Dev.put64
  rw [Dev.wr_onMc]
  rfl

theorem Dev.when_onMc {f : Dev → Dev} (hf : ∀ d : Dev, f (d.onMc g) = (f d).onMc g) (c : Bool) : (d.onMc g).when c f = (d.when c f).onMc g := by
  cases c
  · rfl
  · exact hf d

theorem Dev.foldl_onMc_comm {α : Type} {f : Dev → α → Dev} (hf : ∀ d x, f (d.onMc g) x = (f d x).onMc g) (l : List α) :
    l.foldl f (d.onMc g) = (l.foldl f d).onMc g := by
  induction l generalizing d with
  | nil => rfl
  | cons x l ih => rw [List.foldl_cons, hf, ih, List.foldl_cons]

theorem Dev.msix_onMc (v : Nat) : (d.onMc g).msix v = (d.msix v).onMc g := by
  unfold Dev.msix
  rw [Dev.onMc_ite, Dev.wr_onMc]
  rfl

theorem Dev.eventMessage_onMc (e : Nat) : (d.onMc g).eventMessage e = (d.eventMessage e).onMc g := by
  unfold Dev.eventMessage
  simp only [Dev.onMc_ite, ← Dev.msix_onMc]
  rfl

theorem Dev.event_onMc (e : Nat) : (d.onMc g).event e = (d.event e).onMc g := by
  unfold Dev.event
  simp only [Dev.onMc_ite, Dev.wr_onMc, Dev.eventMessage_onMc]
  rfl

theorem Dev.mramPut_onMc (n : Nat) (f : Mram → Mram) : (d.onMc g).mramPut n f = (d.mramPut n f).onMc g :=
  (d.onMram f).wr_onMc g (F.pltMramCnt 2) _

theorem Dev.onCst_onMc (f : Cst → Cst) : (d.onMc g).onCst f = (d.onCst f).onMc g := rfl
theorem Dev.poke_onMc (a : Nat) (bs : List Byte) : (d.onMc g).poke a bs = (d.poke a bs).onMc g := rfl
theorem Dev.stepFree_onMc : (d.onMc g).stepFree = d.stepFree.onMc g := rfl
theorem Dev.free_onMc (tag : Nat) : (d.onMc g).free tag = d.free tag := rfl

theorem Dev.report_onMc (page bit level info : Nat) : (d.onMc g).report page bit level info = (d.report page bit level info).onMc g := by
  unfold Dev.report Dev.logEvent Dev.logChip
  extract_lets p a b c r x e a' b' r' x' e'
  have hb : b = b'.onMc g := by
    unfold b b'
    rw [Dev.onMc_ite]
    rfl
  have hr : r = r' := by
    unfold r r'
    rw [hb]
    rfl
  have hx : x = x'.onMc g := by
    unfold x x'
    rw [hb, hr]
    rfl
  have he : e = e'.onMc g := by
    unfold e e'
    rw [hx, hr, Dev.onMc_ite, Dev.mramPut_onMc]
  clear_value e e'
  rw [he, hr, Dev.onMc_ite, Dev.mramPut_onMc, Dev.event_onMc]

theorem Dev.raise_onMc (page bit info : Nat) : (d.onMc g).raise page bit info = (d.raise page bit info).onMc g := d.report_onMc g page bit _ info

theorem Dev.takeInjected_onMc (page bit : Nat) : (d.onMc g).takeInjected page bit = (d.takeInjected page bit).onMc g := rfl

theorem Dev.fence1_onMc (u : Nat) (err : Option (Nat × Nat)) : (d.onMc g).fence1 u err = (d.fence1 u err).onMc g := by
  unfold Dev.fence1
  extract_lets v off owners within noted fenced off' owners' within' noted' fenced'
  rw [Dev.onMc_ite]
  refine if_congr Iff.rfl rfl ?_
  exact Dev.foldl_onMc_comm fenced' g (fun _ _ => rfl) _

theorem Dev.fence_onMc (u : Nat) (err : Option (Nat × Nat)) : (d.onMc g).fence u err = (d.fence u err).onMc g := by
  unfold Dev.fence
  extract_lets e e'
  have he : e = e'.onMc g := d.fence1_onMc g u err
  rw [he, Dev.fence1_onMc, Dev.onMc_ite]

/-! ## Lines -/

theorem Dev.bitmapLost_onMc (a : Nat) : (d.onMc g).bitmapLost a = (d.bitmapLost a).onMc g := by
  unfold Dev.bitmapLost
  extract_lets first gs told valid lost told' valid' lost'
  have htold : told = told'.onMc g := by
    unfold told told'
    rw [Dev.takeInjected_onMc, Dev.raise_onMc]
  have hvalid : valid = valid'.onMc g := by
    unfold valid valid'
    rw [htold, Dev.foldl_onMc_comm _ g (f := fun d i => d.setGranuleValid i true) fun _ _ => rfl, Dev.poke_onMc, Dev.stepFree_onMc, Dev.free_onMc]
  have hlost : lost = lost'.onMc g := by
    unfold lost lost'
    rw [hvalid, Dev.onCst_onMc]
  rw [hlost, Dev.wr_onMc, Dev.onMc_cst]

theorem Dev.bitmapRead_onMc (a : Nat) (x : SramRead) : (d.onMc g).bitmapRead a x = (d.bitmapRead a x).onMc g := by
  unfold Dev.bitmapRead
  rw [Dev.bitmapLost_onMc, Dev.onMc_ite]
  rfl

theorem Dev.parityMet_onMc (a parity : Nat) : (d.onMc g).parityMet a parity = ((d.parityMet a parity).1, (d.parityMet a parity).2.onMc g) := by
  unfold Dev.parityMet
  extract_lets n e e'
  have he : e = e'.onMc g := Dev.when_onMc _ g (fun d => by rw [Dev.raise_onMc, Dev.count_onMc]) _
  rw [he, Dev.takeInjected_onMc, Dev.raise_onMc, Dev.fence_onMc]
  show (if (decide (2 ≤ parity) || e'.injected (Pg.cstStk n) Er.cstStk_stackFail) = true then _ else _) = _
  split <;> rfl

theorem Dev.openZero_onMc (i line cls : Nat) : (d.onMc g).openZero i line cls = (d.openZero i line cls).onMc g := by
  unfold Dev.openZero
  extract_lets e m e' m'
  have hm : m = m'.onMc g := by
    unfold m m'
    rw [Dev.onMc_ite]
    refine if_congr Iff.rfl rfl ?_
    have zero : e.cst.zero = e'.cst.zero := rfl
    rw [zero]
    cases e'.cst.zero with
    | nil => rfl
    | cons x rest =>
      dsimp only
      rw [← Dev.raise_onMc, ← Dev.count_onMc]
      rfl
  rw [hm]
  rfl

theorem Dev.touch_onMc (a cls : Nat) : (d.onMc g).touch a cls = (d.touch a cls).onMc g := by
  unfold Dev.touch
  extract_lets i e e'
  have he : e = e'.onMc g := by
    unfold e e'
    rw [Dev.openZero_onMc, Dev.onMc_ite]
    rfl
  rw [he, Dev.wr_onMc]
  rfl

theorem Dev.writeLine_onMc (a : Nat) (data : List Byte) (hollow : Bool) (cls parity : Nat) :
    (d.onMc g).writeLine a data hollow cls parity = (d.writeLine a data hollow cls parity).onMc g := by
  unfold Dev.writeLine
  rw [Dev.parityMet_onMc, Dev.onMc_ite]
  refine if_congr Iff.rfl rfl ?_
  dsimp only
  rw [Dev.onMc_ite, Dev.when_onMc _ g fun d => d.count_onMc g _, Dev.onCst_onMc, Dev.touch_onMc]
  rfl

theorem Dev.seal_onMc (a : Nat) (data : List Byte) (scrub : Bool) : (d.onMc g).seal a data scrub = (d.seal a data scrub).onMc g := by
  unfold Dev.seal
  extract_lets n e at_ f e' f'
  have he : e = e'.onMc g := by
    unfold e e'
    simp only [Dev.onMc_ite, Dev.raise_onMc, Dev.count_onMc]
  have hf : f = f'.onMc g := congrArg (Dev.onCst · _) he
  rw [hf, Dev.put64_onMc]
  rfl

theorem Dev.deliver_onMc (o : Delivered) : (d.onMc g).deliver o = ((d.deliver o).1, (d.deliver o).2.onMc g) :=
  congrArg (o, ·) (Dev.when_onMc d g (fun d => d.count_onMc g _) _)

theorem Dev.stackRead_onMc (rd : LineRead) (scrub : Bool) :
    (d.onMc g).stackRead rd scrub = ((d.stackRead rd scrub).1, (d.stackRead rd scrub).2.onMc g) := by
  unfold Dev.stackRead
  extract_lets n e e'
  have he : e = e'.onMc g := Dev.when_onMc _ g (fun d => by rw [Dev.raise_onMc, Dev.count_onMc]) _
  rw [he, Dev.parityMet_onMc]
  generalize e'.parityMet rd.addr rd.parity = p
  obtain ⟨failed, m⟩ := p
  cases failed
  case true => rfl
  dsimp -zeta only
  rw [if_neg Bool.false_ne_true, if_neg Bool.false_ne_true]
  extract_lets lost bad taken r freed lost' bad' taken' r' freed'
  have hr : r = r' := rfl
  have hfreed : freed = freed'.onMc g := Dev.when_onMc taken' g (fun _ => rfl) lost
  have hbad : bad = bad' := rfl
  rw [hr, hbad, hfreed, Dev.seal_onMc, Dev.raise_onMc, Dev.count_onMc, Dev.count_onMc]
  split
  · rfl
  · split <;> rfl

theorem Dev.readRaw_onMc (rd : LineRead) : (d.onMc g).readRaw rd = ((d.readRaw rd).1, (d.readRaw rd).2.onMc g) := by
  unfold Dev.readRaw
  rw [Dev.bitmapRead_onMc]
  extract_lets m gone m' gone'
  have up : (d.onMc g).stackUp (stackOf rd.addr) = d.stackUp (stackOf rd.addr) := rfl
  rw [up]
  cases d.stackUp (stackOf rd.addr)
  case false => rfl
  have hm : m = m'.onMc g := rfl
  have hgone : gone = gone' := rfl
  have read : (if m.unwritten rd.addr = true then (⟨zeros 64, false⟩, m) else m.stackRead rd false) =
      Prod.map id (Dev.onMc · g) (if m'.unwritten rd.addr = true then (⟨zeros 64, false⟩, m') else m'.stackRead rd false) := by
    rw [apply_ite (Prod.map id (Dev.onMc · g)), hm, Dev.stackRead_onMc]
    rfl
  rw [Bool.not_true, if_neg Bool.false_ne_true, if_neg Bool.false_ne_true, read, hgone]
  generalize (if m'.unwritten rd.addr = true then _ else _ : Delivered × Dev) = p
  obtain ⟨o, e⟩ := p
  have merge : (e.onMc g).cst.merge = e.cst.merge := rfl
  dsimp only [Prod.map, id]
  rw [merge]
  cases e.cst.merge.find? (·.line == lineNo rd.addr) <;> rfl

/-- A line read by nobody's handle. -/
theorem Dev.readLine_onMc {rd : LineRead} (hb : rd.by_ = none) : (d.onMc g).readLine rd = ((d.readLine rd).1, (d.readLine rd).2.onMc g) := by
  unfold Dev.readLine
  rw [hb]
  dsimp only
  rw [Dev.readRaw_onMc, Dev.deliver_onMc]

theorem Dev.closeMerge_onMc (m : MergeEnt) (rd : LineRead) : (d.onMc g).closeMerge m rd = (d.closeMerge m rd).onMc g := by
  unfold Dev.closeMerge
  rw [Dev.onCst_onMc]
  extract_lets taken a mapped taken' mapped'
  have hmapped : mapped = mapped'.onMc g := Dev.bitmapRead_onMc taken' g a rd.sram
  have up : taken.stackUp (stackOf a) = taken'.stackUp (stackOf a) := rfl
  rw [Dev.onMc_ite, up]
  refine if_congr Iff.rfl rfl ?_
  have read : (if mapped.unwritten a = true then
        match mapped.parityMet a rd.parity with
        | (failed, d) => (failed, (⟨zeros 64, false⟩ : Delivered), d)
      else match mapped.stackRead { rd with addr := a } false with
        | (o, d) => (false, o, d)) =
      Prod.map id (Prod.map id (Dev.onMc · g)) (if mapped'.unwritten a = true then
        match mapped'.parityMet a rd.parity with
        | (failed, d) => (failed, (⟨zeros 64, false⟩ : Delivered), d)
      else match mapped'.stackRead { rd with addr := a } false with
        | (o, d) => (false, o, d)) := by
    rw [apply_ite (Prod.map id (Prod.map id (Dev.onMc · g))), hmapped, Dev.stackRead_onMc, Dev.parityMet_onMc]
    rfl
  rw [read]
  generalize (if mapped'.unwritten a = true then _ else _ : Bool × Delivered × Dev) = p
  obtain ⟨failed, o, e⟩ := p
  dsimp only [Prod.map, id]
  rw [Dev.count_onMc, Dev.when_onMc _ g fun d => by rw [Dev.takeInjected_onMc, Dev.raise_onMc, Dev.count_onMc], Dev.touch_onMc, Dev.onMc_ite]
  rfl

theorem Dev.narrow_onMc (a : Nat) (data : List Byte) (hollow : Bool) (cls : Nat) :
    (d.onMc g).narrow a data hollow cls = (d.narrow a data hollow cls).onMc g := by
  unfold Dev.narrow
  rw [Dev.when_onMc _ g fun d => d.count_onMc g _]
  extract_lets counted bytes made counted' made'
  have hmade : made = made'.onMc g := by
    unfold made made'
    rw [Dev.onMc_ite]
    refine if_congr Iff.rfl rfl ?_
    have merge : counted.cst.merge = counted'.cst.merge := rfl
    rw [merge]
    cases counted'.cst.merge with
    | nil => rfl
    | cons m _ => exact Dev.closeMerge_onMc counted' g m _
  clear_value made made'
  rw [hmade, Dev.onMc_ite]
  rfl

theorem Dev.storeWriteNow_onMc {wr : LineWrite} (hb : wr.by_ = none) : (d.onMc g).storeWriteNow wr = (d.storeWriteNow wr).onMc g := by
  unfold Dev.storeWriteNow
  simp only [hb, Dev.tableRead, Dev.bitmapRead_onMc, Dev.writeLine_onMc, Dev.narrow_onMc, Dev.onMc_ite]

theorem Dev.storeWrite_onMc {wr : LineWrite} (hb : wr.by_ = none) : (d.onMc g).storeWrite wr = (d.storeWrite wr).onMc g := by
  unfold Dev.storeWrite
  rw [Dev.storeWriteNow_onMc d g hb, Dev.onMc_ite]
  rfl
end

section
variable (d : Dev)

theorem Dev.writeLine_mc (a : Nat) (data : List Byte) (hollow : Bool) (cls parity : Nat) : (d.writeLine a data hollow cls parity).mc = d.mc :=
  (congrArg Dev.mc (d.writeLine_onMc (fun _ => d.mc) a data hollow cls parity) :)

theorem Dev.narrow_mc (a : Nat) (data : List Byte) (hollow : Bool) (cls : Nat) : (d.narrow a data hollow cls).mc = d.mc :=
  (congrArg Dev.mc (d.narrow_onMc (fun _ => d.mc) a data hollow cls) :)

theorem Dev.storeWrite_mc {wr : LineWrite} (hb : wr.by_ = none) : (d.storeWrite wr).mc = d.mc :=
  (congrArg Dev.mc (d.storeWrite_onMc (fun _ => d.mc) hb) :)

theorem Dev.readLine_mc {rd : LineRead} (hb : rd.by_ = none) : (d.readLine rd).2.mc = d.mc :=
  (congrArg (fun p : Delivered × Dev => p.2.mc) (d.readLine_onMc (fun _ => d.mc) hb) :)

end
end Sys2Proof.Machine
end

section
/-! SUPPORT. The sets of the cache: the L2 copy of a line as its set holds it, the L1 copies that go, and a line taken into an L1 (R142, R143, R147). -/
namespace Sys2Proof.Machine
open Sys2Proof

/-! ## The L2 copy of a line -/

/-- The first way of a set that holds a line. -/
def lineIn (ways : List (Option L2Way)) (line : Nat) : Option L2Way := ways.findSome? (Option.filter (·.line == line))

theorem find_range_getD {α : Type} (q : α → Bool) (l : List (Option α)) :
    ((List.range l.length).find? fun i => (l.getD i none).any q).bind (l.getD · none) = l.findSome? (Option.filter q) := by
  induction l with
  | nil => rfl
  | cons o l ih =>
    rw [List.length_cons, List.range_succ_eq_map, List.find?_cons, List.findSome?_cons, ← ih, List.find?_map]
    simp only [List.getD_cons_zero, Function.comp_def, Nat.succ_eq_add_one, List.getD_cons_succ]
    cases o with
    | none => cases (List.range l.length).find? fun i => (l.getD i none).any q <;> rfl
    | some x =>
      cases h : q x
      · simp only [Option.any_some, h, Option.filter_some, Bool.false_eq_true, if_false]
        cases (List.range l.length).find? fun i => (l.getD i none).any q <;> rfl
      · simp only [Option.any_some, h, Option.filter_some, if_true]
        rfl

theorem wayOf_eq (ways : List (Option L2Way)) (line : Nat) :
    wayOf ways line = (List.range ways.length).find? fun i => (ways.getD i none).any (·.line == line) := by
  unfold wayOf
  congr 1
  funext i
  cases ways.getD i none <;> rfl

theorem Dev.l2Get_eq (d : Dev) (line : Nat) : d.l2Get line = lineIn (d.l2Set line) line := by
  rw [lineIn, ← find_range_getD, ← wayOf_eq]
  unfold Dev.l2Get
  cases wayOf (d.l2Set line) line <;> rfl

theorem lineIn_line {ways : List (Option L2Way)} {line : Nat} {x : L2Way} (h : lineIn ways line = some x) : x.line = line := by
  obtain ⟨o, -, ho⟩ := List.exists_of_findSome?_eq_some h
  simpa using (Option.filter_eq_some_iff.1 ho).2

theorem Dev.l2Get_line {d : Dev} {line : Nat} {x : L2Way} (h : d.l2Get line = some x) : x.line = line := lineIn_line (d.l2Get_eq line ▸ h)

theorem lineIn_map {f : L2Way → L2Way} (hf : ∀ x, (f x).line = x.line) (ways : List (Option L2Way)) (line : Nat) :
    lineIn (ways.map (Option.map f)) line = (lineIn ways line).map f := by
  unfold lineIn
  induction ways with
  | nil => rfl
  | cons o ways ih =>
    rw [List.map_cons, List.findSome?_cons, List.findSome?_cons, ih]
    cases o with
    | none => rfl
    | some x =>
      simp only [Option.map_some, Option.filter_some, hf]
      split <;> simp_all

/-! ## Sets -/

section
variable (d : Dev)

theorem Dev.l2Set_congr {d e : Dev} (h : e.mc.l2 = d.mc.l2) (line : Nat) : e.l2Set line = d.l2Set line := by
  unfold Dev.l2Set
  rw [h]

theorem Dev.l2Get_congr {d e : Dev} (h : e.mc.l2 = d.mc.l2) (line : Nat) : e.l2Get line = d.l2Get line := by
  rw [Dev.l2Get_eq, Dev.l2Get_eq, Dev.l2Set_congr h]

theorem Dev.l1Set_congr {d e : Dev} (h : e.mc.l1 = d.mc.l1) (agent line : Nat) : e.l1Set agent line = d.l1Set agent line := by
  unfold Dev.l1Set
  rw [h]

theorem Dev.l1Has_congr {d e : Dev} (h : e.mc.l1 = d.mc.l1) (agent line : Nat) : e.l1Has agent line = d.l1Has agent line := by
  unfold Dev.l1Has
  rw [Dev.l1Set_congr h]

theorem Dev.l2Set_setL2 (line l : Nat) (ways : List (Option L2Way)) :
    (d.setL2 line ways).l2Set l = if l % 32768 = line % 32768 then ways else d.l2Set l := Map.get_set _ _ _ _ _

theorem Dev.l1Set_setL1 (agent line a l : Nat) (ways : List (Option Nat)) :
    (d.setL1 agent line ways).l1Set a l = if a * 512 + l % 512 = agent * 512 + line % 512 then ways else d.l1Set a l := Map.get_set _ _ _ _ _

/-- A change of one line's copy that leaves it that line's. -/
theorem Dev.l2Get_onL2 (line l : Nat) (f : L2Way → L2Way) (hf : ∀ x, (f x).line = x.line := by intro; rfl) :
    (d.onL2 line f).l2Get l = (d.l2Get l).map fun x => if x.line = line then f x else x := by
  rw [Dev.l2Get_eq, Dev.l2Get_eq, Dev.onL2, Dev.l2Set_setL2]
  split
  next h =>
    have same : d.l2Set line = d.l2Set l := by unfold Dev.l2Set; rw [h]
    rw [same]
    exact lineIn_map (fun x => by split <;> simp [hf]) _ _
  next h =>
    cases hx : lineIn (d.l2Set l) l with
    | none => rfl
    | some x => rw [Option.map_some, if_neg fun hl => h (by rw [← hl, lineIn_line hx])]

theorem Dev.l2Get_onL2_same (line : Nat) (f : L2Way → L2Way) (hf : ∀ x, (f x).line = x.line := by intro; rfl) :
    (d.onL2 line f).l2Get line = (d.l2Get line).map f := by
  rw [d.l2Get_onL2 _ _ f hf]
  cases h : d.l2Get line with
  | none => rfl
  | some x => rw [Option.map_some, if_pos (Dev.l2Get_line h), Option.map_some]

theorem Dev.l2Get_onL2_other {line l : Nat} (hl : l ≠ line) (f : L2Way → L2Way) (hf : ∀ x, (f x).line = x.line := by intro; rfl) :
    (d.onL2 line f).l2Get l = d.l2Get l := by
  rw [d.l2Get_onL2 _ _ f hf]
  cases h : d.l2Get l with
  | none => rfl
  | some x => rw [Option.map_some, if_neg (by rwa [Dev.l2Get_line h])]

end

/-! ## The L1 copies of a line (R143) -/

/-- Agent `i`'s copy of a line goes, but not where it is `except_`. -/
def Dev.shootL1 (d : Dev) (line : Nat) (except_ : Option Nat) (i : Nat) : Dev :=
  if some i = except_ then d
  else if d.l1Has i line then d.setL1 i line ((d.l1Set i line).map fun o => if o = some line then none else o) else d

theorem Dev.invalL1_eq (d : Dev) (line : Nat) (except_ : Option Nat) : d.invalL1 line except_ =
    ((List.range 10).foldl (fun d i => d.shootL1 line except_ i) d).onL2 line fun x => { x with present := match except_ with
      | some i => if x.present.testBit i then 2 ^ i else 0
      | none => 0 } := rfl

theorem Dev.l1Has_shootL1 (d : Dev) (line : Nat) (except_ : Option Nat) (i a : Nat) :
    (d.shootL1 line except_ i).l1Has a line = (d.l1Has a line && !(a == i && some i != except_)) := by
  unfold Dev.shootL1
  split
  next h => simp [h]
  next h =>
    by_cases ha : a = i
    · subst ha
      split
      next =>
        have gone : ((d.l1Set a line).map fun o => if o = some line then none else o).contains (some line) = false := by
          simp only [List.contains_eq_mem, decide_eq_false_iff_not, List.mem_map, not_exists, not_and]
          intro o _
          split <;> simp_all
        simp only [Dev.l1Has, Dev.l1Set_setL1, if_true, gone]
        simp [h]
      next hh => simp [Bool.eq_false_iff.2 hh]
    · have other : (d.setL1 i line ((d.l1Set i line).map fun o => if o = some line then none else o)).l1Has a line = d.l1Has a line := by
        rw [Dev.l1Has, Dev.l1Set_setL1, if_neg (by omega), Dev.l1Has]
      split
      · simp [other, ha]
      · simp [ha]

/-- The L1 copies change, and nothing else. -/
theorem Dev.shootL1_l1 (d : Dev) (line : Nat) (except_ : Option Nat) (i : Nat) :
    ∃ l1, d.shootL1 line except_ i = d.onMc fun m => { m with l1 := l1 } := by
  unfold Dev.shootL1
  split
  · exact ⟨d.mc.l1, rfl⟩
  · split
    · exact ⟨_, rfl⟩
    · exact ⟨d.mc.l1, rfl⟩

theorem Dev.shootL1_foldl (line : Nat) (except_ : Option Nat) (is : List Nat) (d : Dev) :
    ∃ l1, is.foldl (fun d i => d.shootL1 line except_ i) d = d.onMc (fun m => { m with l1 := l1 }) ∧
      ∀ a, (is.foldl (fun d i => d.shootL1 line except_ i) d).l1Has a line = (d.l1Has a line && !(is.contains a && some a != except_)) := by
  induction is generalizing d with
  | nil => exact ⟨d.mc.l1, rfl, fun a => by simp⟩
  | cons i is ih =>
    obtain ⟨l1, hl⟩ := d.shootL1_l1 line except_ i
    obtain ⟨l1', hl', has⟩ := ih (d.shootL1 line except_ i)
    refine ⟨l1', by rw [List.foldl_cons, hl', hl]; rfl, fun a => ?_⟩
    rw [List.foldl_cons, has, Dev.l1Has_shootL1, List.contains_cons]
    obtain rfl | ha := eq_or_ne a i
    · rw [beq_self_eq_true]
      cases d.l1Has a line <;> cases is.contains a <;> cases some a != except_ <;> rfl
    · rw [beq_eq_false_iff_ne.2 ha, Bool.false_and, Bool.not_false, Bool.and_true, Bool.false_or]

/-- The other agents' copies go, and the line's presence vector follows; nothing else changes. -/
theorem Dev.invalL1_shows (d : Dev) (line : Nat) (except_ : Option Nat) :
    (∃ l1 l2, d.invalL1 line except_ = d.onMc fun m => { m with l1 := l1, l2 := l2 }) ∧
      (∀ a, (d.invalL1 line except_).l1Has a line = (d.l1Has a line && !((List.range 10).contains a && some a != except_))) ∧
      ∀ l, (d.invalL1 line except_).l2Get l = (d.l2Get l).map fun x => if x.line = line then { x with present := match except_ with
        | some i => if x.present.testBit i then 2 ^ i else 0
        | none => 0 } else x := by
  obtain ⟨l1, hl, has⟩ := Dev.shootL1_foldl line except_ (List.range 10) d
  rw [Dev.invalL1_eq]
  refine ⟨⟨l1, _, by rw [hl]; rfl⟩, has, fun l => ?_⟩
  refine (Dev.l2Get_onL2 _ line l _).trans ?_
  rw [hl]
  rfl

/-! ## A line taken into an L1 (R143, R147) -/

theorem Dev.l1Has_iff (d : Dev) (agent line : Nat) : d.l1Has agent line = true ↔ some line ∈ d.l1Set agent line := List.contains_iff_mem

/-- A line that the L1 holds points the tree away from its way. -/
theorem Dev.fillL1_held {d : Dev} {agent line : Nat} (h8 : (d.l1Set agent line).length = 8) (h : d.l1Has agent line = true) :
    ∃ plru, d.fillL1 agent line = d.onMc fun m => { m with plru := plru } := by
  unfold Dev.fillL1
  extract_lets ways way left taken
  cases hf : (List.range 8).find? fun i => ways.getD i none = some line with
  | some way => exact ⟨_, rfl⟩
  | none =>
    obtain ⟨i, hi, hx⟩ := List.getElem_of_mem ((d.l1Has_iff agent line).1 h)
    have out := List.find?_eq_none.1 hf i (List.mem_range.2 (h8 ▸ hi))
    rw [show ways.getD i none = some line from (List.getD_eq_getElem _ _ hi).trans hx] at out
    simp at out

/-- A line new to the L1 is present in it from then on. -/
theorem Dev.fillL1_new {d : Dev} {agent line : Nat} (h : d.l1Has agent line = false) :
    (d.fillL1 agent line).l2Get line = (d.l2Get line).map fun x => { x with present := setBit x.present agent true } := by
  have absent (i : Nat) : (d.l1Set agent line).getD i none ≠ some line := fun hi => by
    have lt : i < (d.l1Set agent line).length := by
      by_contra out
      rw [List.getD_eq_default _ _ (by omega)] at hi
      cases hi
    rw [List.getD_eq_getElem _ _ lt] at hi
    rw [(d.l1Has_iff agent line).2 (hi ▸ List.getElem_mem lt)] at h
    cases h
  unfold Dev.fillL1
  extract_lets ways way left taken
  rw [List.find?_eq_none.2 fun i _ => by simpa using absent i]
  have left' : left.l2Get line = d.l2Get line := by
    clear_value way
    unfold left
    split
    next old hold => exact d.l2Get_onL2_other (fun he => absent way (hold.trans (congrArg some he.symm))) _
    next => rfl
  exact (taken.l2Get_onL2_same line _).trans (congrArg (Option.map _) left')

/-- A line taken into an L1 changes records of the cache alone, and none of what waits. -/
theorem Dev.fillL1_onMc (d : Dev) (agent line : Nat) :
    ∃ g : Mc → Mc, d.fillL1 agent line = d.onMc g ∧ ∀ m, (g m).later = m.later := by
  unfold Dev.fillL1
  extract_lets ways way left taken
  split
  · exact ⟨_, rfl, fun _ => rfl⟩
  · have left' : ∃ g : Mc → Mc, left = d.onMc g ∧ ∀ m, (g m).later = m.later := by
      unfold left
      split
      · exact ⟨fun m => { m with l2 := _ }, rfl, fun _ => rfl⟩
      · exact ⟨id, rfl, fun _ => rfl⟩
    obtain ⟨g, hg, later⟩ := left'
    clear_value left
    subst hg
    exact ⟨fun m => { g m with l1 := _, plru := _, l2 := _ }, rfl, later⟩
end Sys2Proof.Machine
end

section
/-! SUPPORT. Delivery to an agent, what goes on where nothing waits, and a line installed in an empty way (R148, R157). -/
namespace Sys2Proof.Machine
open Sys2Proof

/-! ## Registers of the cache -/

theorem seqMcCnt_ok (i : Nat) : (F.seqMcCnt i).ok := by simp [RegField.ok, F.seqMcCnt]

theorem seqMcL1Cnt_ok (i j : Nat) : (F.seqMcL1Cnt i j).ok := by simp [RegField.ok, F.seqMcL1Cnt]

theorem seqMcCnt_ne {i k : Nat} (h : i ≠ k) : (F.seqMcCnt i).addr ≠ (F.seqMcCnt k).addr := by simp only [F.seqMcCnt]; omega

theorem seqMcCnt_steady {i : Nat} (hi : i < 16) : (F.seqMcCnt i).steady := by simp only [RegField.steady, F.seqMcCnt]; omega

theorem Dev.rd_count_mc (d : Dev) (i : Nat) : (d.count (F.seqMcCnt i)).rd (F.seqMcCnt i) = satInc 32 (d.rd (F.seqMcCnt i)) :=
  d.rd_count _ (seqMcCnt_ok i)

/-- A field with a shadow is read from the values in force. -/
theorem Dev.rd_congr_force {d e : Dev} {f : RegField} (hf : f.rs = true) (h : e.force = d.force) : e.rd f = d.rd f := by
  simp only [Dev.rd, hf, if_true, Dev.forced, h]

theorem Dev.windowOf_congr {d e : Dev} (h : e.force = d.force) (a : Nat) : e.windowOf a = d.windowOf a := by
  have rd (f : RegField) (hf : f.rs = true) : e.rd f = d.rd f := Dev.rd_congr_force hf h
  unfold Dev.windowOf Dev.flag
  simp only [rd (F.seqMcWinCfg_en _) rfl, rd (F.seqMcWinBase _) rfl, rd (F.seqMcWinLimit _) rfl]

/-! ## Delivery to an agent (R157) -/

/-- A poisoned fill is reported and counted, and its address kept. -/
def Dev.poisonShown (d : Dev) (addr : Nat) : Dev := ((d.raise Pg.seqMc Er.seqMc_poisonFill addr).count (F.seqMcCnt 12)).mcLast (addr / 64 * 64)

theorem Dev.toAgent_eq {d : Dev} (h : d.plat.armed = []) (agent addr : Nat) (data : List Byte) (poison : Bool) :
    d.toAgent agent addr data poison = (d.when poison (·.poisonShown addr)).send (.cacheData agent addr data poison) := by
  unfold Dev.toAgent Dev.poisonShown
  rw [Dev.injected_of_unarmed h, Dev.takeInjected_of_unarmed h, Bool.or_false]

@[simp] theorem Dev.raise_mc (d : Dev) (page bit info : Nat) : (d.raise page bit info).mc = d.mc := by
  obtain ⟨-, -, h, -⟩ := d.raise_sameRegions page bit info
  exact h

theorem Dev.put64_records (d : Dev) (lo hi : RegField) (v : Nat) : (d.put64 lo hi v).mc = d.mc ∧ (d.put64 lo hi v).cst = d.cst :=
  ⟨d.wr_mc lo (v % 2 ^ 32), d.wr_cst lo (v % 2 ^ 32)⟩

theorem Dev.poisonShown_records (d : Dev) (addr : Nat) : (d.poisonShown addr).mc = d.mc ∧ (d.poisonShown addr).cst = d.cst := by
  obtain ⟨mc, cst⟩ := Dev.put64_records ((d.raise Pg.seqMc Er.seqMc_poisonFill addr).count (F.seqMcCnt 12)) F.seqMcLastLo F.seqMcLastHi
    (addr / 64 * 64)
  unfold Dev.poisonShown Dev.mcLast
  rw [mc, cst, Dev.count, Dev.wr_mc, Dev.wr_cst, Dev.raise_mc, Dev.raise_cst]
  exact ⟨rfl, rfl⟩

theorem Dev.rd_poisonShown {f : RegField} (hs : f.steady) (h12 : f.addr ≠ (F.seqMcCnt 12).addr) (hl : f.addr ≠ F.seqMcLastLo.addr) (d : Dev)
    (addr : Nat) : (d.poisonShown addr).rd f = d.rd f := by
  rw [Dev.poisonShown, Dev.mcLast, Dev.rd_put64_other hl, Dev.rd_count_other h12, Dev.rd_raise hs]

section
variable {d : Dev} (h : d.plat.armed = []) (agent addr : Nat) (data : List Byte) (poison : Bool)
include h

theorem Dev.toAgent_records : (d.toAgent agent addr data poison).mc = d.mc ∧ (d.toAgent agent addr data poison).cst = d.cst := by
  rw [Dev.toAgent_eq h]
  cases poison
  · exact ⟨rfl, rfl⟩
  · exact d.poisonShown_records addr

theorem Dev.toAgent_out : .cacheData agent addr data poison ∈ (d.toAgent agent addr data poison).out := by
  rw [Dev.toAgent_eq h]
  exact List.mem_append_right _ (List.mem_singleton_self _)

theorem Dev.rd_toAgent {f : RegField} (hs : f.steady) (h12 : f.addr ≠ (F.seqMcCnt 12).addr) (hl : f.addr ≠ F.seqMcLastLo.addr) :
    (d.toAgent agent addr data poison).rd f = d.rd f := by
  rw [Dev.toAgent_eq h, Dev.rd_send]
  cases poison
  · rfl
  · exact d.rd_poisonShown hs h12 hl addr

end

/-! ## Nothing waits -/

theorem Dev.laterDue_idle {d : Dev} (h : d.mc.later = []) : d.laterDue = d := by
  have same : (d.onMc fun m => { m with later := [] }) = d := by rw [← h]; rfl
  unfold Dev.laterDue
  rw [same, h]
  rfl

theorem Dev.resume_idle {d : Dev} (hs : d.mc.stalled = []) (hl : d.mc.later = []) : d.resume = d := by
  have same : (d.onMc fun m => { m with stalled := [] }) = d := by rw [← hs]; rfl
  unfold Dev.resume
  rw [same, hs]
  exact Dev.laterDue_idle hl

/-! ## A line installed in an empty way (R148) -/

theorem Dev.install_empty {d : Dev} {x : L2Way} (h : (d.l2Set x.line).getD 0 none = none)
    (hr : (Map.get 0 d.mc.retired (x.line % 32768)).testBit 0 = false) (cls : Nat) :
    d.install x cls = (true, d.setL2 x.line ((d.l2Set x.line).set 0 (some x))) := by
  have first : (List.range 16).find? (fun i => !(Map.get 0 d.mc.retired (x.line % 32768)).testBit i &&
      decide ((d.l2Set x.line).getD i none = none)) = some 0 := by
    rw [List.range_succ_eq_map, List.find?_cons_of_pos]
    rw [hr, h]
    rfl
  have way : d.victimWay x.line = (some 0, d.l2Set x.line) := by
    unfold Dev.victimWay
    dsimp only
    rw [first]
  unfold Dev.install
  rw [way]
  dsimp only
  rw [h]

theorem lineIn_set_zero {ways : List (Option L2Way)} (h : ways ≠ []) (x : L2Way) : lineIn (ways.set 0 (some x)) x.line = some x := by
  cases ways with
  | nil => exact absurd rfl h
  | cons o ways => simp [lineIn]

theorem Dev.setDead_of_way {d : Dev} {line i : Nat} (hi : i < 16) (h : (Map.get 0 d.mc.retired (line % 32768)).testBit i = false) :
    d.setDead line = false := by
  unfold Dev.setDead
  refine decide_eq_false fun hd => ?_
  have all : (65535 : Nat).testBit i = true := (by decide : ∀ i < 16, (65535 : Nat).testBit i = true) i hi
  rw [← hd, show (65536 : Nat) = 2 ^ 16 from rfl, Nat.testBit_mod_two_pow, h] at all
  simp at all

end Sys2Proof.Machine
end

section
/-! Loads by a cache agent (R143, R145, R147–R149, R153, R157, R158). -/
namespace Sys2Proof.Machine
open Sys2Proof

/-! ## Where a load goes -/

theorem Dev.cacheFault_none {d : Dev} (h : d.plat.armed = []) {acc : CacheAcc} (hf : acc.fault = .none) : d.cacheFault acc = d := by
  simp [Dev.cacheFault, Dev.shownFault, Dev.injected_of_unarmed h, Dev.takeInjected_of_unarmed h, hf]

section
variable {d : Dev} {acc : CacheAcc} (ha : d.plat.armed = []) (hf : acc.fault = .none)
include ha hf

theorem Dev.cacheRead_held (hh : d.mc.hold.contains (lineNo acc.addr) = true) :
    d.cacheRead acc = (d.toAgent acc.agent acc.addr (leBytes 64 (d.free 2)) true).stepFree := by
  unfold Dev.cacheRead
  rw [Dev.cacheFault_none ha hf]
  exact if_pos hh

variable (hh : d.mc.hold.contains (lineNo acc.addr) = false)
include hh

theorem Dev.cacheRead_unmapped (hw : d.windowOf acc.addr = none) : d.cacheRead acc = d.uncached acc false := by
  unfold Dev.cacheRead
  rw [Dev.cacheFault_none ha hf]
  dsimp only
  rw [if_neg (by rw [hh]; exact Bool.false_ne_true), hw]

theorem Dev.cacheRead_bypassed {w : Nat} (hw : d.windowOf acc.addr = some w)
    (hu : d.mc.uncached = true ∨ d.setDead (lineNo acc.addr) = true) :
    d.cacheRead acc = (d.flushVictim (lineNo acc.addr)).uncached acc false := by
  unfold Dev.cacheRead
  rw [Dev.cacheFault_none ha hf]
  dsimp only
  rw [if_neg (by rw [hh]; exact Bool.false_ne_true), hw]
  exact if_pos (by simpa using hu)

theorem Dev.cacheRead_cached {w : Nat} (hw : d.windowOf acc.addr = some w) (hu : d.mc.uncached = false)
    (hd : d.setDead (lineNo acc.addr) = false) : d.cacheRead acc = d.cachedRead w acc := by
  unfold Dev.cacheRead
  rw [Dev.cacheFault_none ha hf]
  dsimp only
  rw [if_neg (by rw [hh]; exact Bool.false_ne_true), hw]
  exact if_neg (by simp [hu, hd])

end

theorem Dev.uncached_idle {d : Dev} {acc : CacheAcc} (h : d.mc.busy acc.agent = false) (isWrite : Bool) :
    d.uncached acc isWrite = d.uncachedNow acc isWrite := if_neg (by simp [h])

theorem Dev.uncached_busy {d : Dev} {acc : CacheAcc} (h : d.mc.busy acc.agent = true) (isWrite : Bool) :
    d.uncached acc isWrite = d.onMc fun m => { m with later := m.later ++ [(acc, isWrite)] } := if_pos h

theorem Dev.uncachedNow_load (d : Dev) (acc : CacheAcc) : d.uncachedNow acc false =
    (d.readLine (cleanRead acc.addr)).2.toAgent acc.agent acc.addr
      (mergeBytes (d.readLine (cleanRead acc.addr)).1.data (d.mc.gathered (lineNo acc.addr))) (d.readLine (cleanRead acc.addr)).1.hollow := by
  rw [← d.readLine_mc (rd := cleanRead acc.addr) rfl]
  rfl

/-! ## A cached load -/

/-- A load counted at its agent's L1. -/
def Dev.l1Counted (d : Dev) (acc : CacheAcc) : Dev := d.count (F.seqMcL1Cnt acc.agent (if d.l1Has acc.agent (lineNo acc.addr) then 0 else 1))

section
variable {d : Dev} {acc : CacheAcc}

theorem Dev.l1Counted_mc : (d.l1Counted acc).mc = d.mc := Dev.wr_mc _ _ _
theorem Dev.l1Counted_l2Get (l : Nat) : (d.l1Counted acc).l2Get l = d.l2Get l := Dev.l2Get_congr (congrArg Mc.l2 Dev.l1Counted_mc) l
theorem Dev.l1Counted_l1Has (l : Nat) : (d.l1Counted acc).l1Has acc.agent l = d.l1Has acc.agent l :=
  Dev.l1Has_congr (congrArg Mc.l1 Dev.l1Counted_mc) _ _
theorem Dev.l1Counted_unarmed (h : d.plat.armed = []) : (d.l1Counted acc).plat.armed = [] := Dev.count_unarmed h _
theorem Dev.l1Counted_cst : (d.l1Counted acc).cst = d.cst := Dev.wr_cst _ _ _
theorem Dev.rd_l1Counted {f : RegField} (h : ∀ j < 2, f.addr ≠ (F.seqMcL1Cnt acc.agent j).addr) : (d.l1Counted acc).rd f = d.rd f :=
  Dev.rd_count_other (h _ (by split <;> decide)) d

theorem Dev.cachedRead_hit {w : Nat} {x : L2Way} (hx : d.l2Get (lineNo acc.addr) = some x) : d.cachedRead w acc =
    (((d.l1Counted acc).when (!d.l1Has acc.agent (lineNo acc.addr)) fun e => (e.count (F.seqMcCnt 0)).onL2 (lineNo acc.addr) fun x =>
      { x with age := 0 }).fillL1 acc.agent (lineNo acc.addr)).toAgent acc.agent acc.addr x.data x.poison := by
  have hx' := (d.l1Counted_l2Get (acc := acc) (lineNo acc.addr)).trans hx
  unfold Dev.cachedRead
  unfold Dev.l1Counted at hx' ⊢
  dsimp only
  rw [hx']
  rfl

theorem seqMcL1Cnt_steady {i j : Nat} (hi : i < 10) (hj : j < 4) : (F.seqMcL1Cnt i j).steady := by
  simp only [RegField.steady, F.seqMcL1Cnt]
  omega

theorem seqMcCnt_ne_l1 {i : Nat} (hi : i < 64) (a j : Nat) : (F.seqMcCnt i).addr ≠ (F.seqMcL1Cnt a j).addr := by
  simp only [F.seqMcCnt, F.seqMcL1Cnt]
  omega

theorem Dev.rd_l1Counted_at (d : Dev) (acc : CacheAcc) {j : Nat} (hj : (if d.l1Has acc.agent (lineNo acc.addr) then 0 else 1) = j) :
    (d.l1Counted acc).rd (F.seqMcL1Cnt acc.agent j) = satInc 32 (d.rd (F.seqMcL1Cnt acc.agent j)) := by
  unfold Dev.l1Counted
  rw [hj]
  exact d.rd_count _ (seqMcL1Cnt_ok _ _)

/-- A load that its agent's L1 holds. -/
theorem Dev.cachedRead_l1Hit (ha : d.plat.armed = []) {w : Nat} {x : L2Way} (hi : acc.agent < 10)
    (h8 : (d.l1Set acc.agent (lineNo acc.addr)).length = 8) (hx : d.l2Get (lineNo acc.addr) = some x)
    (h1 : d.l1Has acc.agent (lineNo acc.addr) = true) : let e := d.cachedRead w acc
    e.rd (F.seqMcL1Cnt acc.agent 0) = satInc 32 (d.rd (F.seqMcL1Cnt acc.agent 0)) ∧ e.rd (F.seqMcCnt 0) = d.rd (F.seqMcCnt 0) ∧
      e.l2Get (lineNo acc.addr) = some x ∧ e.cst = d.cst ∧ .cacheData acc.agent acc.addr x.data x.poison ∈ e.out := by
  obtain ⟨plru, filled⟩ := Dev.fillL1_held (d := d.l1Counted acc)
    ((congrArg List.length (Dev.l1Set_congr (congrArg Mc.l1 Dev.l1Counted_mc) _ _)).trans h8) ((Dev.l1Counted_l1Has _).trans h1)
  rw [Dev.cachedRead_hit hx, h1, Bool.not_true, Dev.when, if_neg Bool.false_ne_true, filled]
  have armed : ((d.l1Counted acc).onMc fun m => { m with plru := plru }).plat.armed = [] := by
    rw [Dev.onMc_plat]
    exact Dev.l1Counted_unarmed ha
  obtain ⟨mc, cst⟩ := Dev.toAgent_records armed acc.agent acc.addr x.data x.poison
  refine ⟨?_, ?_, ?_, ?_, Dev.toAgent_out armed _ _ _ _⟩
  · rw [Dev.rd_toAgent armed _ _ _ _ (seqMcL1Cnt_steady hi (by decide)) (seqMcCnt_ne_l1 (by decide) _ _).symm
      (by simp only [F.seqMcLastLo, F.seqMcL1Cnt]; omega), Dev.rd_onMc]
    exact d.rd_l1Counted_at acc (by rw [h1]; rfl)
  · rw [Dev.rd_toAgent armed _ _ _ _ (seqMcCnt_steady (by decide)) (seqMcCnt_ne (by decide)) (by decide), Dev.rd_onMc]
    exact Dev.rd_l1Counted fun j _ => seqMcCnt_ne_l1 (by decide) _ _
  · rw [Dev.l2Get_congr (congrArg Mc.l2 mc), ← hx]
    exact Dev.l2Get_congr (by rw [Dev.onMc_mc, Dev.l1Counted_mc]) _
  · rw [cst, Dev.onMc_cst, Dev.l1Counted_cst]

/-- A load that its agent's L1 does not hold. -/
theorem Dev.cachedRead_l2Hit (ha : d.plat.armed = []) {w : Nat} {x : L2Way} (hi : acc.agent < 10) (hx : d.l2Get (lineNo acc.addr) = some x)
    (h1 : d.l1Has acc.agent (lineNo acc.addr) = false) : let e := d.cachedRead w acc
    e.rd (F.seqMcL1Cnt acc.agent 1) = satInc 32 (d.rd (F.seqMcL1Cnt acc.agent 1)) ∧ e.rd (F.seqMcCnt 0) = satInc 32 (d.rd (F.seqMcCnt 0)) ∧
      e.cst = d.cst ∧ e.l2Get (lineNo acc.addr) = some { x with age := 0, present := setBit x.present acc.agent true } ∧
      .cacheData acc.agent acc.addr x.data x.poison ∈ e.out := by
  obtain ⟨n, hn⟩ : ∃ n, n = ((d.l1Counted acc).count (F.seqMcCnt 0)).onL2 (lineNo acc.addr) fun x => { x with age := 0 } := ⟨_, rfl⟩
  rw [Dev.cachedRead_hit hx, h1, Bool.not_false, Dev.when, if_pos rfl, ← hn]
  have mc : ((d.l1Counted acc).count (F.seqMcCnt 0)).mc = d.mc := (Dev.wr_mc _ _ _).trans Dev.l1Counted_mc
  have l1 : n.l1Has acc.agent (lineNo acc.addr) = false := by
    rw [← h1, hn]
    exact Dev.l1Has_congr (congrArg Mc.l1 mc) _ _
  have l2 : n.l2Get (lineNo acc.addr) = some { x with age := 0 } := by
    rw [hn]
    refine (Dev.l2Get_onL2_same _ _ _).trans ?_
    rw [Dev.l2Get_congr (congrArg Mc.l2 mc), hx]
    rfl
  have armed : n.plat.armed = [] := by
    rw [hn]
    exact Dev.count_unarmed (Dev.l1Counted_unarmed ha) _
  have shown := Dev.fillL1_new l1
  obtain ⟨g, hm, -⟩ := n.fillL1_onMc acc.agent (lineNo acc.addr)
  rw [hm] at shown ⊢
  have armed' : (n.onMc g).plat.armed = [] := armed
  obtain ⟨mc', cst'⟩ := Dev.toAgent_records armed' acc.agent acc.addr x.data x.poison
  refine ⟨?_, ?_, ?_, ?_, Dev.toAgent_out armed' _ _ _ _⟩
  · rw [Dev.rd_toAgent armed' _ _ _ _ (seqMcL1Cnt_steady hi (by decide)) (seqMcCnt_ne_l1 (by decide) _ _).symm
      (by simp only [F.seqMcLastLo, F.seqMcL1Cnt]; omega), Dev.rd_onMc, hn, Dev.onL2, Dev.setL2, Dev.rd_onMc,
      Dev.rd_count_other (seqMcCnt_ne_l1 (by decide) _ _).symm]
    exact d.rd_l1Counted_at acc (by rw [h1]; rfl)
  · rw [Dev.rd_toAgent armed' _ _ _ _ (seqMcCnt_steady (by decide)) (seqMcCnt_ne (by decide)) (by decide), Dev.rd_onMc, hn, Dev.onL2, Dev.setL2,
      Dev.rd_onMc, Dev.rd_count_mc, Dev.rd_l1Counted fun j _ => seqMcCnt_ne_l1 (by decide) _ _]
  · rw [cst', Dev.onMc_cst, hn, Dev.onL2, Dev.setL2, Dev.onMc_cst, Dev.count, Dev.wr_cst, Dev.l1Counted_cst]
  · rw [Dev.l2Get_congr (congrArg Mc.l2 mc'), shown, l2]
    rfl

/-! ## A miss in L2 -/

theorem Dev.cachedRead_side {w : Nat} {data : List Byte} {poison : Bool} (hn : d.l2Get (lineNo acc.addr) = none)
    (hw : d.mc.waits (lineNo acc.addr) = false) (h1 : d.l1Has acc.agent (lineNo acc.addr) = false)
    (hs : d.mc.side.find? (·.1 == lineNo acc.addr) = some (lineNo acc.addr, data, poison)) : d.cachedRead w acc =
      (let moved := ((d.count (F.seqMcL1Cnt acc.agent 1)).count (F.seqMcCnt 4)).sideToL2 w (lineNo acc.addr) data poison acc.cls
       (moved.2.when moved.1 (·.fillL1 acc.agent (lineNo acc.addr))).toAgent acc.agent acc.addr data poison) := by
  have mc : (d.count (F.seqMcL1Cnt acc.agent 1)).mc = d.mc := Dev.wr_mc _ _ _
  unfold Dev.cachedRead
  dsimp only
  rw [h1, if_neg Bool.false_ne_true, Dev.l2Get_congr (congrArg Mc.l2 mc), mc, hn, hw, hs]
  rfl

theorem Dev.cachedRead_victim {w : Nat} {v : Victim} (hn : d.l2Get (lineNo acc.addr) = none) (hw : d.mc.waits (lineNo acc.addr) = false)
    (hs : d.mc.side.find? (·.1 == lineNo acc.addr) = none) (hv : d.mc.victimOf (lineNo acc.addr) = some v) :
    d.cachedRead w acc = ((d.l1Counted acc).count (F.seqMcCnt 7)).toAgent acc.agent acc.addr v.data v.poison := by
  have mc := d.l1Counted_mc (acc := acc)
  have l2 := (d.l1Counted_l2Get (acc := acc) (lineNo acc.addr)).trans hn
  unfold Dev.cachedRead
  unfold Dev.l1Counted at mc l2 ⊢
  dsimp only
  rw [l2, mc, hw, hs, hv]
  rfl

theorem Dev.cachedRead_miss {w : Nat} (hn : d.l2Get (lineNo acc.addr) = none)
    (hm : d.mc.waits (lineNo acc.addr) = true ∨ d.mc.side.find? (·.1 == lineNo acc.addr) = none ∧ d.mc.victimOf (lineNo acc.addr) = none) :
    d.cachedRead w acc = (d.l1Counted acc).readMiss w acc := by
  have mc := d.l1Counted_mc (acc := acc)
  have l2 := (d.l1Counted_l2Get (acc := acc) (lineNo acc.addr)).trans hn
  unfold Dev.cachedRead
  unfold Dev.l1Counted at mc l2 ⊢
  dsimp only
  rw [l2, mc]
  obtain hw | ⟨hs, hv⟩ := hm
  · rw [hw]
    rfl
  · rw [hs, hv]
    cases d.mc.waits (lineNo acc.addr) <;> rfl
end

/-- A load served from the victim buffer. -/
theorem Dev.cachedRead_victim_shows {d : Dev} {acc : CacheAcc} (ha : d.plat.armed = []) (v : Victim) :
    let e := ((d.l1Counted acc).count (F.seqMcCnt 7)).toAgent acc.agent acc.addr v.data v.poison
    e.rd (F.seqMcCnt 7) = satInc 32 (d.rd (F.seqMcCnt 7)) ∧ e.mc = d.mc ∧ e.cst = d.cst ∧ .cacheData acc.agent acc.addr v.data v.poison ∈ e.out := by
  have armed : ((d.l1Counted acc).count (F.seqMcCnt 7)).plat.armed = [] := Dev.count_unarmed (Dev.l1Counted_unarmed ha) _
  obtain ⟨mc, cst⟩ := Dev.toAgent_records armed acc.agent acc.addr v.data v.poison
  refine ⟨?_, ?_, ?_, Dev.toAgent_out armed _ _ _ _⟩
  · rw [Dev.rd_toAgent armed _ _ _ _ (seqMcCnt_steady (by decide)) (seqMcCnt_ne (by decide)) (by decide), Dev.rd_count_mc,
      Dev.rd_l1Counted fun j _ => seqMcCnt_ne_l1 (by decide) _ _]
  · rw [mc, Dev.count, Dev.wr_mc, Dev.l1Counted_mc]
  · rw [cst, Dev.count, Dev.wr_cst, Dev.l1Counted_cst]

/-! ## Prefetches of a miss (R149) -/

/-- What the start of prefetches leaves alone. -/
structure Dev.OnlyPrefetches (d e : Dev) : Prop where
  fills : e.mc.fills = d.mc.fills
  l2 : e.mc.l2 = d.mc.l2
  out : e.out = d.out
  cst : e.cst = d.cst
  rd : ∀ f : RegField, f.addr ≠ (F.seqMcCnt 3).addr → e.rd f = d.rd f

theorem Dev.startPrefetch_only (d : Dev) (w line : Nat) : d.OnlyPrefetches (d.startPrefetch w line) := by
  unfold Dev.startPrefetch
  refine List.foldlRecOn (motive := d.OnlyPrefetches) _ _ ⟨rfl, rfl, rfl, rfl, fun _ _ => rfl⟩ fun e h i _ => ?_
  extract_lets l
  split
  · refine ⟨?_, ?_, ?_, ?_, fun f hf => ?_⟩
    · rw [Dev.count, Dev.wr_mc, ← h.fills]
      rfl
    · rw [Dev.count, Dev.wr_mc, ← h.l2]
      rfl
    · rw [Dev.count, Dev.wr_out, ← h.out]
      rfl
    · rw [Dev.count, Dev.wr_cst, ← h.cst]
      rfl
    · rw [Dev.rd_count_other hf, Dev.rd_onMc, h.rd f hf]
  · exact h

theorem Dev.startPrefetch_none {d : Dev} {w : Nat} (h : d.rd (F.seqMcWinCfg_pfDepth w) = 0) (line : Nat) : d.startPrefetch w line = d := by
  unfold Dev.startPrefetch
  rw [h]
  rfl

theorem Dev.startPrefetch_one {d : Dev} {w line : Nat} (h : d.rd (F.seqMcWinCfg_pfDepth w) = 1) (hp : d.mc.prefetch = []) (hv : d.mc.victims = [])
    (hs : d.mc.side = []) (hw : d.windowOf ((line + 1) * 64) = some w) (hl : d.l2Get (line + 1) = none) :
    d.startPrefetch w line = (d.onMc fun m => { m with prefetch := [(line + 1, true)] }).count (F.seqMcCnt 3) := by
  unfold Dev.startPrefetch
  rw [h]
  show (if _ then _ else d) = _
  rw [if_pos (by simp [hw, hl, hp, hv, hs])]
  refine congrArg (Dev.count · _) ?_
  show ({ d with mc := { d.mc with prefetch := d.mc.prefetch ++ _ } } : Dev) = _
  rw [hp]
  rfl

/-- A demand read miss whose fill is asked for. -/
def Dev.fillAsked (d : Dev) (w : Nat) (acc : CacheAcc) : Dev :=
  ((d.count (F.seqMcCnt 1)).when (d.streaming w) (·.count (F.seqMcCnt 2))).askFill
    ⟨lineNo acc.addr, acc.agent, d.streaming w, acc.cls, none, true, none⟩

section
variable {d : Dev} {acc : CacheAcc} {w : Nat}

theorem Dev.readMiss_first (h : d.mc.stalled.any (·.line == lineNo acc.addr) = false) :
    d.readMiss w acc = (d.fillAsked w acc).startPrefetch w (lineNo acc.addr) := by
  have stalled : ((d.count (F.seqMcCnt 1)).when (d.streaming w) (·.count (F.seqMcCnt 2))).mc.stalled = d.mc.stalled := by
    cases d.streaming w <;> simp [Dev.when, Dev.count]
  unfold Dev.readMiss Dev.queueUp
  dsimp only
  rw [stalled, h]
  rfl

theorem Dev.fillAsked_mc (w : Nat) : (d.fillAsked w acc).mc = { d.mc with
    fills := d.mc.fills ++ [⟨lineNo acc.addr, acc.agent, d.streaming w, acc.cls, none, true, none⟩] } := by
  unfold Dev.fillAsked Dev.askFill
  cases d.streaming w <;> simp [Dev.when, Dev.count]

theorem Dev.count_mc_force (d : Dev) (i : Nat) : (d.count (F.seqMcCnt i)).force = d.force := Dev.wr_force rfl d _

theorem Dev.fillAsked_records (w : Nat) :
    (d.fillAsked w acc).out = d.out ∧ (d.fillAsked w acc).cst = d.cst ∧ (d.fillAsked w acc).force = d.force := by
  unfold Dev.fillAsked Dev.askFill
  refine ⟨?_, ?_, ?_⟩
  · cases d.streaming w <;> simp [Dev.when, Dev.count]
  · cases d.streaming w <;> simp [Dev.when, Dev.count]
  · cases d.streaming w <;> simp [Dev.when, Dev.count_mc_force]

theorem Dev.rd_fillAsked {f : RegField} (h1 : f.addr ≠ (F.seqMcCnt 1).addr) (h2 : f.addr ≠ (F.seqMcCnt 2).addr) :
    (d.fillAsked w acc).rd f = d.rd f := by
  unfold Dev.fillAsked Dev.askFill
  cases d.streaming w <;> simp [Dev.when, Dev.rd_count_other h1, Dev.rd_count_other h2]

theorem Dev.rd_fillAsked_misses : (d.fillAsked w acc).rd (F.seqMcCnt 1) = satInc 32 (d.rd (F.seqMcCnt 1)) := by
  have other := Dev.rd_count_other (seqMcCnt_ne (i := 1) (k := 2) (by decide))
  unfold Dev.fillAsked Dev.askFill
  cases d.streaming w <;> simp [Dev.when, other, Dev.rd_count_mc]

/-- A miss asks for one fill, and prefetches as deep as its window says. -/
theorem Dev.readMiss_shows (h : d.mc.stalled.any (·.line == lineNo acc.addr) = false) : let e := d.readMiss w acc
    e.mc.fills = d.mc.fills ++ [⟨lineNo acc.addr, acc.agent, d.streaming w, acc.cls, none, true, none⟩] ∧
      e.rd (F.seqMcCnt 1) = satInc 32 (d.rd (F.seqMcCnt 1)) ∧ e.out = d.out ∧ e.cst = d.cst ∧ e.mc.l2 = d.mc.l2 ∧
      (d.rd (F.seqMcWinCfg_pfDepth w) = 0 → e.mc.prefetch = d.mc.prefetch) ∧
      (d.rd (F.seqMcWinCfg_pfDepth w) = 1 → d.mc.prefetch = [] → d.mc.victims = [] → d.mc.side = [] →
        d.windowOf ((lineNo acc.addr + 1) * 64) = some w → d.l2Get (lineNo acc.addr + 1) = none →
        e.mc.prefetch = [(lineNo acc.addr + 1, true)] ∧ e.rd (F.seqMcCnt 3) = satInc 32 (d.rd (F.seqMcCnt 3))) := by
  have only := (d.fillAsked w acc).startPrefetch_only w (lineNo acc.addr)
  have mc := d.fillAsked_mc (acc := acc) w
  obtain ⟨out, cst, force⟩ := d.fillAsked_records (acc := acc) w
  have depth : (d.fillAsked w acc).rd (F.seqMcWinCfg_pfDepth w) = d.rd (F.seqMcWinCfg_pfDepth w) := Dev.rd_congr_force rfl force
  rw [Dev.readMiss_first h]
  refine ⟨?_, ?_, only.out.trans out, only.cst.trans cst, ?_, fun h0 => ?_, fun h1 hp hv hs hw hl => ?_⟩
  · rw [only.fills, mc]
  · rw [only.rd _ (seqMcCnt_ne (by decide)), Dev.rd_fillAsked_misses]
  · rw [only.l2, mc]
  · rw [Dev.startPrefetch_none (depth.trans h0), mc]
  · rw [Dev.startPrefetch_one (depth.trans h1) (by rw [mc]; exact hp) (by rw [mc]; exact hv) (by rw [mc]; exact hs)
      ((Dev.windowOf_congr force _).trans hw) ((Dev.l2Get_congr (by rw [mc]) _).trans hl)]
    refine ⟨by rw [Dev.count, Dev.wr_mc]; rfl, ?_⟩
    rw [Dev.rd_count_mc, Dev.rd_onMc, Dev.rd_fillAsked (seqMcCnt_ne (by decide)) (seqMcCnt_ne (by decide))]

end

theorem Dev.streaming_l1Counted (d : Dev) (acc : CacheAcc) (w : Nat) : (d.l1Counted acc).streaming w = d.streaming w := by
  have tripped : (d.l1Counted acc).rd (F.seqMcWinStat_tripped w) = d.rd (F.seqMcWinStat_tripped w) :=
    Dev.rd_l1Counted fun j hj => by simp only [F.seqMcWinStat_tripped, F.seqMcL1Cnt]; omega
  have stream : (d.l1Counted acc).rd (F.seqMcWinCfg_stream w) = d.rd (F.seqMcWinCfg_stream w) := Dev.rd_congr_force rfl (Dev.wr_force rfl _ _)
  unfold Dev.streaming Dev.flag
  rw [tripped, stream]

/-- Settles O30: a load goes to the store, to a held line's poisoned fill, or through the cache, and there each place that may have the line is
looked at in turn. -/
theorem cacheLoads : Obligations.CacheLoads := by
  unfold Obligations.CacheLoads
  intro s acc hf ha hi d line read
  refine ⟨fun hh => ⟨_, rfl, Dev.cacheRead_held ha hf hh⟩, fun hh hw => ⟨fun hb => ⟨_, rfl, ?_⟩, fun hb => ⟨_, rfl, ?_⟩⟩,
    fun w hh hw hu => ⟨_, rfl, Dev.cacheRead_bypassed ha hf hh hw hu⟩, fun w hh hw hu hd h8 => ?_⟩
  · exact (Dev.cacheRead_unmapped ha hf hh hw).trans ((Dev.uncached_idle hb false).trans (d.uncachedNow_load acc))
  · exact (Dev.cacheRead_unmapped ha hf hh hw).trans (Dev.uncached_busy hb false)
  have cached {Q : Dev → Prop} (h : Q (d.cachedRead w acc)) : completes (.cacheRead acc) s Q :=
    ⟨_, rfl, by beta_reduce; rw [Dev.cacheRead_cached ha hf hh hw hu hd]; exact h⟩
  refine ⟨fun x hx h1 => cached (Dev.cachedRead_l1Hit ha hi h8 hx h1), fun x hx h1 => cached (Dev.cachedRead_l2Hit ha hi hx h1),
    fun data poison hn hw h1 hs => cached (Dev.cachedRead_side hn hw h1 hs), fun v hn hw hs hv => cached ?_, fun hn hm hst => cached ?_⟩
  · rw [Dev.cachedRead_victim hn hw hs hv]
    exact Dev.cachedRead_victim_shows ha v
  · have mc := d.l1Counted_mc (acc := acc)
    have force : (d.l1Counted acc).force = d.force := Dev.wr_force rfl _ _
    rw [Dev.cachedRead_miss hn hm]
    obtain ⟨fills, misses, out, cst, l2, shallow, deep⟩ := Dev.readMiss_shows (d := d.l1Counted acc) (w := w) (acc := acc) (by rw [mc]; exact hst)
    have depth : (d.l1Counted acc).rd (F.seqMcWinCfg_pfDepth w) = d.rd (F.seqMcWinCfg_pfDepth w) := Dev.rd_congr_force rfl force
    have cnt (i : Nat) (hi : i < 64) : (d.l1Counted acc).rd (F.seqMcCnt i) = d.rd (F.seqMcCnt i) := Dev.rd_l1Counted fun j _ => seqMcCnt_ne_l1 hi _ _
    rw [depth, mc, Dev.windowOf_congr force, Dev.l1Counted_l2Get, cnt 3 (by decide)] at deep
    rw [depth, mc] at shallow
    refine ⟨?_, misses.trans (by rw [cnt 1 (by decide)]), out.trans (Dev.wr_out _ _ _), cst.trans Dev.l1Counted_cst, l2.trans (by rw [mc]),
      shallow, deep⟩
    rw [fills, mc, Dev.streaming_l1Counted]
end Sys2Proof.Machine
end

section
/-! SUPPORT. A store as the cache sees it before it is placed: the detector, the tree of its agent's L1, the copies that go (R143, R147, R150, R151). -/
namespace Sys2Proof.Machine
open Sys2Proof

/-! ## The detector (R151) -/

/-- The length of a window's run after a store. -/
def Dev.runLength (d : Dev) (w line : Nat) (full : Bool) : Nat :=
  if full then (if d.inRun w line full then Map.get 0 d.mc.seqCount w + 1 else 1) else 0

/-- The detector's record after a store. -/
def Dev.runNoted (d : Dev) (w line : Nat) (full : Bool) : Dev :=
  d.onMc fun m => { m with seqCount := Map.set 0 m.seqCount w (d.runLength w line full), lastLine := Map.set 0 m.lastLine w line }

/-- What the detector shows beside its record. -/
structure Dev.OnlyTrips (w : Nat) (d e : Dev) : Prop where
  mc : e.mc = d.mc
  cst : e.cst = d.cst
  plat : e.plat = d.plat
  force : e.force = d.force
  rd : ∀ f : RegField, f.addr ≠ (F.seqMcWinStat_tripped w).addr → f.addr ≠ (F.seqMcCnt 9).addr → e.rd f = d.rd f

section
variable {d : Dev} {w : Nat}

theorem Dev.onlyTrips_wr (d : Dev) (w v : Nat) : d.OnlyTrips w (d.wr (F.seqMcWinStat_tripped w) v) :=
  ⟨Dev.wr_mc _ _ _, Dev.wr_cst _ _ _, Dev.wr_plat _ _ _, Dev.wr_force rfl _ _, fun f h _ => d.rd_wr_other _ f v h⟩

theorem Dev.OnlyTrips.count {e : Dev} (h : d.OnlyTrips w e) : d.OnlyTrips w (e.count (F.seqMcCnt 9)) :=
  ⟨(Dev.wr_mc _ _ _).trans h.mc, (Dev.wr_cst _ _ _).trans h.cst, (Dev.wr_plat _ _ _).trans h.plat, (e.count_mc_force 9).trans h.force,
    fun f ht h9 => (Dev.rd_count_other h9 e).trans (h.rd f ht h9)⟩

theorem Dev.detect_only (d : Dev) (w line : Nat) (full : Bool) : (d.runNoted w line full).OnlyTrips w (d.detect w line full) := by
  unfold Dev.detect
  extract_lets inRun n noted limit was
  show noted.OnlyTrips w _
  split
  · exact noted.onlyTrips_wr w 0
  · split
    · exact ⟨rfl, rfl, rfl, rfl, fun _ _ _ => rfl⟩
    · split
      · exact (noted.onlyTrips_wr w 1).count
      · exact noted.onlyTrips_wr w 0

theorem seqMcCnt_ne_tripped (i : Nat) {w : Nat} (hw : w < 8) : (F.seqMcCnt i).addr ≠ (F.seqMcWinStat_tripped w).addr := by
  simp only [F.seqMcCnt, F.seqMcWinStat_tripped]
  omega

/-- A run that reaches the limit trips the detector. -/
theorem Dev.detect_trips {line : Nat} {full : Bool} (hf : full = true) (hw : w < 8) (ht : d.flag (F.seqMcWinStat_tripped w) = false)
    (hn : d.runLength w line full = d.rd (F.seqMcWinCfg_seqLimit w)) :
    (d.detect w line full).flag (F.seqMcWinStat_tripped w) = true ∧ (d.detect w line full).rd (F.seqMcCnt 9) = satInc 32 (d.rd (F.seqMcCnt 9)) := by
  have one : d.runLength w line full ≠ 0 := by
    rw [Dev.runLength, if_pos hf]
    split <;> omega
  have eq : d.detect w line full = ((d.runNoted w line full).wr (F.seqMcWinStat_tripped w) 1).count (F.seqMcCnt 9) := by
    unfold Dev.detect
    extract_lets inRun n noted limit was
    have hlimit : n = limit := hn
    have hwas : was = false := ht
    rw [if_neg (by rw [← hlimit]; exact one), hwas, Bool.false_and, if_neg Bool.false_ne_true, if_pos hlimit]
    rfl
  have ne := seqMcCnt_ne_tripped 9 hw
  rw [eq]
  refine ⟨?_, ?_⟩
  · rw [Dev.count, Dev.flag_wr_other _ _ _ _ ne.symm]
    exact Dev.flag_one _ _ (by simp [RegField.ok, F.seqMcWinStat_tripped]) rfl
  · rw [Dev.rd_count_mc, Dev.rd_wr_other _ _ _ _ ne]
    rfl

end

/-! ## The copies that a store meets (R143, R147) -/

theorem Dev.touchOwn_plru (d : Dev) (agent line : Nat) : ∃ plru, d.touchOwn agent line = d.onMc fun m => { m with plru := plru } := by
  unfold Dev.touchOwn
  split
  · exact ⟨_, rfl⟩
  · exact ⟨d.mc.plru, rfl⟩

theorem Dev.l2Set_onL2_absent {d : Dev} {line : Nat} (h : d.l2Get line = none) (f : L2Way → L2Way) (l : Nat) :
    (d.onL2 line f).l2Set l = d.l2Set l := by
  rw [Dev.onL2, Dev.l2Set_setL2]
  split
  next hl =>
    have same : d.l2Set line = d.l2Set l := by unfold Dev.l2Set; rw [hl]
    rw [Dev.l2Get_eq, lineIn, List.findSome?_eq_none_iff] at h
    rw [← same]
    refine (List.map_congr_left fun o ho => ?_).trans (List.map_id _)
    have out := h o ho
    cases o with
    | none => rfl
    | some x =>
      rw [Option.filter_some, ite_eq_right_iff] at out
      rw [Option.map_some, if_neg fun hx => absurd (out (beq_iff_eq.2 hx)) (Option.some_ne_none x)]
      rfl
  next => rfl

theorem Dev.l2Set_invalL1_absent {d : Dev} {line : Nat} (h : d.l2Get line = none) (except_ : Option Nat) (l : Nat) :
    (d.invalL1 line except_).l2Set l = d.l2Set l := by
  obtain ⟨l1, hl, -⟩ := Dev.shootL1_foldl line except_ (List.range 10) d
  rw [Dev.invalL1_eq, hl]
  exact Dev.l2Set_onL2_absent (d := d.onMc fun m => { m with l1 := l1 }) h _ l

theorem Dev.supersede_idle {d : Dev} {line : Nat} (h : d.mc.waits line = false) : d.supersede line = d := by
  have drop (l : List FillReq) (hl : ∀ f ∈ l, f ∈ d.mc.fills ++ d.mc.stalled) :
      l.map (fun f => if f.line = line ∧ f.store.isSome then { f with store := some [] } else f) = l := by
    refine (List.map_congr_left fun f hf => ?_).trans (List.map_id _)
    have out := List.any_eq_false.1 h f (hl f hf)
    rw [if_neg fun hx => out (beq_iff_eq.2 hx.1)]
    rfl
  show ({ d with mc := { d.mc with fills := d.mc.fills.map _, stalled := d.mc.stalled.map _ } } : Dev) = d
  rw [drop _ fun f hf => List.mem_append_left _ hf, drop _ fun f hf => List.mem_append_right _ hf]

/-! ## A store before it is placed -/

/-- What a store meets before it is placed: the detector counts it, the agent's tree turns from its way, the other agents' copies and a prefetch of
its line go. -/
def Dev.storeMet (d : Dev) (w : Nat) (acc : CacheAcc) (full : Bool) : Dev :=
  (((d.when (!d.flag (F.seqMcWinCfg_policy w)) (·.detect w (lineNo acc.addr) full)).touchOwn acc.agent (lineNo acc.addr)).invalL1
    (lineNo acc.addr) (some acc.agent)).onMc fun m => { m with prefetch := m.prefetch.filter (·.1 != lineNo acc.addr) }

/-- What a store's meeting the cache leaves as it was, and what it shows. -/
structure Dev.Met (d : Dev) (w : Nat) (acc : CacheAcc) (full : Bool) (e : Dev) : Prop where
  cst : e.cst = d.cst
  plat : e.plat = d.plat
  rd : ∀ f : RegField, f.addr ≠ (F.seqMcWinStat_tripped w).addr → f.addr ≠ (F.seqMcCnt 9).addr → e.rd f = d.rd f
  mc : ∃ l1 plru l2 run last, e.mc = { d.mc with
    l1 := l1, plru := plru, l2 := l2, prefetch := d.mc.prefetch.filter (·.1 != lineNo acc.addr), seqCount := run, lastLine := last }
  l2Get : ∀ l, e.l2Get l = (d.l2Get l).map fun x => if x.line = lineNo acc.addr then
    { x with present := if x.present.testBit acc.agent then 2 ^ acc.agent else 0 } else x
  absent : d.l2Get (lineNo acc.addr) = none → ∀ l, e.l2Set l = d.l2Set l
  l1Has : ∀ a < 10, a ≠ acc.agent → e.l1Has a (lineNo acc.addr) = false
  run : d.flag (F.seqMcWinCfg_policy w) = false → Map.get 0 e.mc.seqCount w = d.runLength w (lineNo acc.addr) full
  trips : full = true → w < 8 → d.flag (F.seqMcWinCfg_policy w) = false → d.flag (F.seqMcWinStat_tripped w) = false →
    d.runLength w (lineNo acc.addr) full = d.rd (F.seqMcWinCfg_seqLimit w) →
    e.flag (F.seqMcWinStat_tripped w) = true ∧ e.rd (F.seqMcCnt 9) = satInc 32 (d.rd (F.seqMcCnt 9))

/-- What the detector of a write-back window leaves as it was. -/
theorem Dev.seen_shows (d : Dev) (w line : Nat) (full back : Bool) : let e := d.when back (·.detect w line full)
    e.cst = d.cst ∧ e.plat = d.plat ∧ e.force = d.force ∧
      (∀ f : RegField, f.addr ≠ (F.seqMcWinStat_tripped w).addr → f.addr ≠ (F.seqMcCnt 9).addr → e.rd f = d.rd f) ∧
      (∃ run last, e.mc = { d.mc with seqCount := run, lastLine := last }) ∧ (back = true → Map.get 0 e.mc.seqCount w = d.runLength w line full) := by
  cases back
  · exact ⟨rfl, rfl, rfl, fun _ _ _ => rfl, ⟨_, _, rfl⟩, Bool.noConfusion⟩
  · have only := d.detect_only w line full
    refine ⟨only.cst, only.plat, only.force, only.rd, ⟨_, _, only.mc⟩, fun _ => ?_⟩
    exact (congrArg (fun m : Mc => Map.get 0 m.seqCount w) only.mc).trans (Map.get_set_same _ _ _ _)

theorem Dev.storeMet_met (d : Dev) (w : Nat) (acc : CacheAcc) (full : Bool) : d.Met w acc full (d.storeMet w acc full) := by
  obtain ⟨cst, plat, -, rd, ⟨run, last, mc⟩, count⟩ := d.seen_shows w (lineNo acc.addr) full (!d.flag (F.seqMcWinCfg_policy w))
  have trips := Dev.detect_trips (d := d) (w := w) (line := lineNo acc.addr) (full := full)
  unfold Dev.storeMet
  generalize hseen : d.when (!d.flag (F.seqMcWinCfg_policy w)) (·.detect w (lineNo acc.addr) full) = seen at cst plat rd mc count ⊢
  obtain ⟨plru, touched⟩ := seen.touchOwn_plru acc.agent (lineNo acc.addr)
  have same (l : Nat) : (seen.touchOwn acc.agent (lineNo acc.addr)).l2Get l = d.l2Get l :=
    Dev.l2Get_congr (by rw [touched, Dev.onMc_mc, mc]) l
  obtain ⟨⟨l1, l2, shot⟩, has, get⟩ := (seen.touchOwn acc.agent (lineNo acc.addr)).invalL1_shows (lineNo acc.addr) (some acc.agent)
  have mc' : ((seen.touchOwn acc.agent (lineNo acc.addr)).invalL1 (lineNo acc.addr) (some acc.agent)) = seen.onMc fun _ =>
      { d.mc with l1 := l1, plru := plru, l2 := l2, seqCount := run, lastLine := last } := by
    rw [shot, touched]
    show ({ seen with mc := _ } : Dev) = { seen with mc := _ }
    rw [Dev.onMc_mc, mc]
  refine ⟨?_, ?_, fun f ht h9 => ?_, ⟨l1, plru, l2, run, last, ?_⟩, fun l => ?_, fun hn l => ?_, fun a ha hne => ?_, fun hp => ?_,
    fun hf hw hp ht hl => ?_⟩
  · rw [Dev.onMc_cst, mc', Dev.onMc_cst, cst]
  · rw [Dev.onMc_plat, mc', Dev.onMc_plat, plat]
  · rw [Dev.rd_onMc, mc', Dev.rd_onMc, rd f ht h9]
  · rw [Dev.onMc_mc, mc', Dev.onMc_mc]
  · exact (Dev.l2Get_congr rfl l).trans ((get l).trans (by rw [same]))
  · have kept := Dev.l2Set_invalL1_absent ((same _).trans hn) (some acc.agent) l
    exact kept.trans (Dev.l2Set_congr (by rw [touched, Dev.onMc_mc, mc]) l)
  · refine (Dev.l1Has_congr rfl a (lineNo acc.addr)).trans ((has a).trans ?_)
    have in_ : (List.range 10).contains a = true := by simpa using ha
    have ne : (some a != some acc.agent) = true := by simpa using hne
    rw [in_, ne]
    simp
  · rw [Dev.onMc_mc, mc', Dev.onMc_mc, ← count (by rw [hp]; rfl), mc]
  · have eq : seen = d.detect w (lineNo acc.addr) full := by
      rw [← hseen, hp]
      rfl
    rw [Dev.flag, Dev.rd_onMc, Dev.rd_onMc, mc', Dev.rd_onMc, Dev.rd_onMc, eq]
    exact trips hf hw ht hl
end Sys2Proof.Machine
end

section
/-! SUPPORT. Where a store goes: to a held line, to the store, or through the cache (R145, R150–R152, R158). -/
namespace Sys2Proof.Machine
open Sys2Proof

/-- A store of a full line. -/
def wholeStore (acc : CacheAcc) : Bool := decide (acc.data.length = 64) && decide (acc.addr % 64 = 0)

/-- A full line goes to the store as a line, fewer bytes as a narrow write. -/
def Dev.stored (d : Dev) (acc : CacheAcc) : Dev :=
  if wholeStore acc then d.writeLine acc.addr acc.data false acc.cls else d.narrow acc.addr acc.data false acc.cls

theorem Dev.uncachedNow_store (d : Dev) (acc : CacheAcc) : d.uncachedNow acc true = d.stored acc := by
  unfold Dev.uncachedNow
  rw [if_pos rfl]
  refine if_congr ?_ rfl rfl
  simp [wholeStore]

/-! ## Where a store goes -/

section
variable {d : Dev} {acc : CacheAcc} (ha : d.plat.armed = []) (hf : acc.fault = .none)
include ha hf

theorem Dev.cacheWrite_held (hh : d.mc.hold.contains (lineNo acc.addr) = true) : d.cacheWrite acc = d.heldWrite acc := by
  unfold Dev.cacheWrite
  rw [Dev.cacheFault_none ha hf]
  exact if_pos hh

variable (hh : d.mc.hold.contains (lineNo acc.addr) = false)
include hh

theorem Dev.cacheWrite_unmapped (hw : d.windowOf acc.addr = none) : d.cacheWrite acc = d.uncached acc true := by
  unfold Dev.cacheWrite
  rw [Dev.cacheFault_none ha hf]
  dsimp only
  rw [if_neg (by rw [hh]; exact Bool.false_ne_true), hw]

theorem Dev.cacheWrite_cached {w : Nat} (hw : d.windowOf acc.addr = some w) (hu : d.mc.uncached = false)
    (hd : d.setDead (lineNo acc.addr) = false) : d.cacheWrite acc = (d.cachedWrite w acc).resume := by
  unfold Dev.cacheWrite
  rw [Dev.cacheFault_none ha hf]
  dsimp only
  rw [if_neg (by rw [hh]; exact Bool.false_ne_true), hw]
  exact if_neg (by simp [hu, hd])

end

/-! ## Held lines (R158) -/

/-- A held line's entry freed. -/
def Dev.unheld (d : Dev) (line : Nat) : Dev := d.onMc fun m => { m with hold := m.hold.filter (· != line) }

section
variable {d : Dev} {acc : CacheAcc}

theorem Dev.heldWrite_unmapped (hw : d.windowOf acc.addr = none) : d.heldWrite acc =
    if wholeStore acc then (d.unheld (lineNo acc.addr)).uncached acc true else d.countIgnored Pg.seqMc acc.addr := by
  have out : (d.unheld (lineNo acc.addr)).windowOf acc.addr = none := hw
  unfold Dev.unheld at out ⊢
  unfold Dev.heldWrite
  rw [hw]
  dsimp only
  rw [out]
  refine if_congr Iff.rfl (if_pos ?_) rfl
  simp

theorem Dev.heldWrite_mapped {w : Nat} (hw : d.windowOf acc.addr = some w) (hu : d.mc.uncached = false)
    (hd : d.setDead (lineNo acc.addr) = false) : d.heldWrite acc =
      (let seen := d.when (!d.flag (F.seqMcWinCfg_policy w)) (·.detect w (lineNo acc.addr) (wholeStore acc))
       if wholeStore acc then (seen.unheld (lineNo acc.addr)).allocate acc.agent (lineNo acc.addr) (padTo 64 acc.data) acc.cls 0
       else seen.countIgnored Pg.seqMc acc.addr) := by
  obtain ⟨-, -, force, -, ⟨run, last, mc⟩, -⟩ := d.seen_shows w (lineNo acc.addr) (wholeStore acc) (!d.flag (F.seqMcWinCfg_policy w))
  have noticed : (!d.mc.uncached && !d.flag (F.seqMcWinCfg_policy w)) = !d.flag (F.seqMcWinCfg_policy w) := by rw [hu]; rfl
  unfold Dev.heldWrite
  rw [hw]
  dsimp only
  rw [noticed, show (decide (acc.data.length = 64) && decide (acc.addr % 64 = 0)) = wholeStore acc from rfl]
  generalize d.when (!d.flag (F.seqMcWinCfg_policy w)) (·.detect w (lineNo acc.addr) (wholeStore acc)) = seen at force mc ⊢
  have window : (seen.unheld (lineNo acc.addr)).windowOf acc.addr = some w := (Dev.windowOf_congr force _).trans hw
  have dead : (seen.unheld (lineNo acc.addr)).setDead (lineNo acc.addr) = false := by
    rw [← hd]
    unfold Dev.setDead Dev.unheld
    rw [Dev.onMc_mc, mc]
  have served : (seen.unheld (lineNo acc.addr)).mc.uncached = false := by
    unfold Dev.unheld
    rw [Dev.onMc_mc, mc]
    exact hu
  have serves : ¬(((seen.unheld (lineNo acc.addr)).mc.uncached || ((seen.unheld (lineNo acc.addr)).windowOf acc.addr).isNone ||
      (seen.unheld (lineNo acc.addr)).setDead (lineNo acc.addr)) = true) := by
    rw [served, window, dead]
    exact Bool.false_ne_true
  exact if_congr Iff.rfl (if_neg serves) rfl
end

/-! ## A cached store -/

/-- A tripped detector sends a store on to the store. -/
def Dev.passes (d : Dev) (w : Nat) (acc : CacheAcc) : Bool :=
  d.flag (F.seqMcWinStat_tripped w) && d.inRun w (lineNo acc.addr) (wholeStore acc) && decide (d.rd (F.seqMcWinCfg_seqLimit w) ≠ 0)

section
variable {d : Dev} {acc : CacheAcc} {w : Nat} (hs : d.mc.side.find? (·.1 == lineNo acc.addr) = none) (hw : d.mc.waits (lineNo acc.addr) = false)
include hs hw

theorem Dev.cachedWrite_eq : d.cachedWrite w acc =
    (let e := d.storeMet w acc (wholeStore acc)
     if (e.l2Get (lineNo acc.addr)).isSome then
      ((e.count (F.seqMcCnt 0)).onL2 (lineNo acc.addr) fun x => { x with
        data := mergeBytes x.data (storeBytesOf acc.addr acc.data), dirty := x.dirty || !d.flag (F.seqMcWinCfg_policy w),
        poison := x.poison && !wholeStore acc, age := 0 }).when (!!d.flag (F.seqMcWinCfg_policy w))
          (·.enterWt (lineNo acc.addr) (storeBytesOf acc.addr acc.data) acc.cls)
     else match e.mc.victimOf (lineNo acc.addr) with
      | some v => (e.count (F.seqMcCnt 7)).reinstall v ⟨lineNo acc.addr, acc.agent, false, acc.cls, some (storeBytesOf acc.addr acc.data), true, none⟩
      | none =>
        if !!d.flag (F.seqMcWinCfg_policy w) then (e.count (F.seqMcCnt 1)).enterWt (lineNo acc.addr) (storeBytesOf acc.addr acc.data) acc.cls
        else if d.passes w acc then (e.count (F.seqMcCnt 10)).uncached acc true
        else if wholeStore acc then (e.count (F.seqMcCnt 1)).allocate acc.agent (lineNo acc.addr) (padTo 64 acc.data) acc.cls 1
        else (e.count (F.seqMcCnt 1)).askFill
          ⟨lineNo acc.addr, acc.agent, false, acc.cls, some (storeBytesOf acc.addr acc.data), true, none⟩) := by
  unfold Dev.cachedWrite
  extract_lets line full back bs f skip seen met sup inL2 moved left merged e
  obtain ⟨l1, plru, l2, run, last, mc⟩ := (d.storeMet_met w acc (wholeStore acc)).mc
  have waits : e.mc.waits line = false := by
    unfold e
    rw [mc]
    exact hw
  have side : e.mc.side.find? (·.1 == line) = none := by
    unfold e
    rw [mc]
    exact hs
  have hsup : sup = e := by
    show (Dev.when e full fun x => x.supersede line) = e
    rw [Dev.when, Dev.supersede_idle waits, ite_self]
  have hmoved : moved = e := by
    unfold moved
    rw [hsup, side]
    cases inL2 <;> rfl
  have hleft : left = e := by
    unfold left
    have same : e.mc.side.filter (·.1 != line) = e.mc.side :=
      List.filter_eq_self.2 fun x hx => by simpa using List.find?_eq_none.1 side x hx
    rw [hmoved]
    show ({ e with mc := { e.mc with side := e.mc.side.filter (·.1 != line) } } : Dev) = e
    rw [same]
  have hmerged : (e.l2Get line).isSome = true → merged = (e.count (F.seqMcCnt 0)).onL2 line fun x => { x with
      data := mergeBytes x.data bs, dirty := x.dirty || back, poison := x.poison && !full, age := 0 } := by
    intro h
    unfold merged inL2
    rw [hleft, hsup, h]
    rfl
  clear_value e sup left merged
  rw [hsup, hleft, waits, Bool.and_false, if_neg Bool.false_ne_true]
  by_cases h : (e.l2Get line).isSome = true
  · rw [if_pos h, hmerged h]
    exact (if_pos h).symm
  · rw [if_neg h]
    exact (if_neg h).symm
end
end Sys2Proof.Machine
end

section
/-! Stores by a cache agent (R143, R145, R150–R152, R158), and the merging buffer that gathers them. -/
namespace Sys2Proof.Machine
open Sys2Proof

/-! ## The merging buffer (R152) -/

/-- Between `d` and `e` entries of the merging buffer open, gather and drain. -/
structure Dev.Gathers (d e : Dev) : Prop where
  mc : ∃ merging, e.mc = { d.mc with merging := merging }
  rd : ∀ f : RegField, f.storeSteady → f.addr ≠ (F.seqMcCnt 11).addr → e.rd f = d.rd f

theorem seqMcCnt_storeSteady {i : Nat} (hi : i < 16) : (F.seqMcCnt i).storeSteady :=
  ⟨seqMcCnt_steady hi, by simp only [F.seqMcCnt]; omega, by simp only [F.seqMcCnt]; omega⟩

namespace Dev.Gathers
variable {b d : Dev}

theorem refl (d : Dev) : d.Gathers d := ⟨⟨_, rfl⟩, fun _ _ _ => rfl⟩

theorem foldl {α : Type} {f : Dev → α → Dev} (hf : ∀ d x, b.Gathers d → b.Gathers (f d x)) {l : List α} (h : b.Gathers d) :
    b.Gathers (l.foldl f d) := by
  induction l generalizing d with
  | nil => exact h
  | cons x l ih => exact ih (hf d x h)

theorem merging (h : b.Gathers d) (f : List WtEnt → List WtEnt) : b.Gathers (d.onMc fun m => { m with merging := f m.merging }) := by
  obtain ⟨⟨merging, mc⟩, rd⟩ := h
  exact ⟨⟨f d.mc.merging, by rw [Dev.onMc_mc, mc]⟩, rd⟩

theorem storeWork {e : Dev} (h : b.Gathers d) (hm : e.mc = d.mc) (hw : d.StoreWork e) : b.Gathers e := by
  obtain ⟨⟨merging, mc⟩, rd⟩ := h
  exact ⟨⟨merging, hm.trans mc⟩, fun f hs h11 => (hw.rd f hs).trans (rd f hs h11)⟩

theorem count (h : b.Gathers d) : b.Gathers (d.count (F.seqMcCnt 11)) := by
  obtain ⟨⟨merging, mc⟩, rd⟩ := h
  exact ⟨⟨merging, (Dev.wr_mc _ _ _).trans mc⟩, fun f hs h11 => (Dev.rd_count_other h11 d).trans (rd f hs h11)⟩

theorem drainWt (h : b.Gathers d) (x : WtEnt) : b.Gathers (d.drainWt x) := by
  unfold Dev.drainWt
  extract_lets counted offs
  have counted' : b.Gathers counted := (h.merging _).count
  split
  · exact counted'.storeWork (Dev.writeLine_mc _ _ _ _ _ _) (Dev.StoreWork.refl _).writeLine
  · exact counted'.foldl fun d x h => h.storeWork (Dev.narrow_mc _ _ _ _ _) (Dev.StoreWork.refl _).narrow

theorem mergeBufDrain (h : b.Gathers d) (a : Nat) : b.Gathers (d.mergeBufDrain a) := by
  unfold Dev.mergeBufDrain
  split
  · exact h.foldl fun d x h => h.drainWt x
  · exact h

theorem enterWt (h : b.Gathers d) (line : Nat) (bs : List (Nat × Byte)) (cls : Nat) : b.Gathers (d.enterWt line bs cls) := by
  unfold Dev.enterWt
  extract_lets room entered
  have room' : b.Gathers room := by
    unfold room
    split
    · exact h
    · split
      · exact h
      · exact h.drainWt _
  have entered' : b.Gathers entered := by
    unfold entered
    split
    · exact h.merging _
    · exact room'.merging (· ++ [⟨line, bs, false, cls⟩])
  clear_value entered
  split
  · split
    · exact entered'.mergeBufDrain _
    · exact entered'
  · exact entered'

end Dev.Gathers

/-- A store that joins no entry, and leaves its own short of a line, opens one. -/
theorem Dev.enterWt_opens {d : Dev} {line : Nat} {bs : List (Nat × Byte)} (hj : d.mc.merging.any (·.line == line) = false)
    (hl : d.mc.merging.length < 32) (hb : wholeLine bs = false) (cls : Nat) :
    d.enterWt line bs cls = d.onMc fun m => { m with merging := m.merging ++ [⟨line, bs, false, cls⟩] } := by
  have first : (d.mc.merging ++ [(⟨line, bs, false, cls⟩ : WtEnt)]).find? (·.line == line) = some ⟨line, bs, false, cls⟩ := by
    rw [List.find?_append, List.find?_eq_none.2 fun x hx => List.any_eq_false.1 hj x hx]
    simp
  unfold Dev.enterWt
  dsimp only
  rw [hj, if_neg Bool.false_ne_true, if_pos hl, Dev.onMc_mc, first]
  exact if_neg (of_decide_eq_false hb)

/-! ## A line that goes to the store -/

theorem Dev.stackUp_congr {d e : Dev} {n : Nat} (hp : e.plat = d.plat) (hr : e.rd (F.cstStkTrain n) = d.rd (F.cstStkTrain n)) :
    e.stackUp n = d.stackUp n := by
  unfold Dev.stackUp Dev.closed Dev.unitAt
  rw [hp, hr]

/-- A line written where its stack is up. -/
theorem Dev.writeLine_lands {d : Dev} {a : Nat} (hup : d.stackUp (stackOf a) = true) (ha : d.plat.armed = []) (data : List Byte) (hollow : Bool)
    (cls : Nat) : let e := d.writeLine a data hollow cls
    e.mc = d.mc ∧ d.StoreWork e ∧ ∀ b, lineNo b = lineNo a → e.lineData b = padTo 64 data ∧ e.lineHollow b = hollow := by
  refine ⟨d.writeLine_mc _ _ _ _ _, (Dev.StoreWork.refl d).writeLine, ?_⟩
  rw [Dev.writeLine_good hup ha]
  obtain ⟨here, -⟩ := Dev.storeLine_lines ((d.when hollow (·.count (F.cstCnt 4))).onCst fun c => { c with
    merge := c.merge.filter fun m => m.line != lineNo a }) a data hollow cls
  exact here

/-! ## A store to a cached line -/

theorem Dev.completes_cacheWrite {s : State} {acc : CacheAcc} {Q : Dev → Prop} (hl : acc.data.length + acc.addr % 64 ≤ 64)
    (h : Q (s.dev.cacheWrite acc)) : completes (.cacheWrite acc) s Q := by
  have whole : acc.data.take (64 - acc.addr % 64) = acc.data := List.take_of_length_le (by omega)
  refine ⟨_, rfl, ?_⟩
  rw [whole]
  exact h

section
variable {d : Dev} {acc : CacheAcc} {w : Nat} {full : Bool} {m : Dev} (hm : d.Met w acc full m)
include hm

theorem Dev.Met.rd_cnt (hw : w < 8) {i : Nat} (h9 : i ≠ 9) : m.rd (F.seqMcCnt i) = d.rd (F.seqMcCnt i) :=
  hm.rd _ (seqMcCnt_ne_tripped i hw) (seqMcCnt_ne h9)

theorem Dev.Met.rd_count (hw : w < 8) {i : Nat} (h9 : i ≠ 9) : (m.count (F.seqMcCnt i)).rd (F.seqMcCnt i) = satInc 32 (d.rd (F.seqMcCnt i)) := by
  rw [Dev.rd_count_mc, hm.rd_cnt hw h9]

theorem Dev.Met.count_cst (i : Nat) : (m.count (F.seqMcCnt i)).cst = d.cst := (Dev.wr_cst _ _ _).trans hm.cst

/-- Nothing that waited goes on where nothing waits. -/
theorem Dev.Met.idle (hs : d.mc.stalled = []) (hl : d.mc.later = []) : m.mc.stalled = [] ∧ m.mc.later = [] := by
  obtain ⟨l1, plru, l2, run, last, mc⟩ := hm.mc
  rw [mc]
  exact ⟨hs, hl⟩

theorem Dev.Met.victimOf (line : Nat) : m.mc.victimOf line = d.mc.victimOf line := by
  obtain ⟨l1, plru, l2, run, last, mc⟩ := hm.mc
  rw [mc]
  rfl

/-- The records of waiting and of the merging buffer stand. -/
theorem Dev.Met.records : m.mc.fills = d.mc.fills ∧ m.mc.merging = d.mc.merging ∧ m.mc.retired = d.mc.retired ∧
    m.mc.busy acc.agent = d.mc.busy acc.agent := by
  obtain ⟨l1, plru, l2, run, last, mc⟩ := hm.mc
  rw [mc]
  exact ⟨rfl, rfl, rfl, rfl⟩

/-- A store to a line in L2 (R150, R152). -/
theorem Dev.Met.hit (hw : w < 8) {x : L2Way} (hx : d.l2Get (lineNo acc.addr) = some x) (back : Bool) (bs : List (Nat × Byte)) :
    let e := ((m.count (F.seqMcCnt 0)).onL2 (lineNo acc.addr) fun x => { x with
      data := mergeBytes x.data bs, dirty := x.dirty || back, poison := x.poison && !full, age := 0 }).when (!back)
        (·.enterWt (lineNo acc.addr) bs acc.cls)
    e.mc.stalled = m.mc.stalled ∧ e.mc.later = m.mc.later ∧ e.l2Get (lineNo acc.addr) = some { x with
      data := mergeBytes x.data bs, dirty := x.dirty || back, poison := x.poison && !full, age := 0,
      present := if x.present.testBit acc.agent then 2 ^ acc.agent else 0 } ∧
      (∀ i, i < 10 → i ≠ acc.agent → e.l1Has i (lineNo acc.addr) = false) ∧ e.rd (F.seqMcCnt 0) = satInc 32 (d.rd (F.seqMcCnt 0)) ∧
      (back = true → e.cst = d.cst ∧ e.mc.seqCount = m.mc.seqCount) := by
  have counted : (m.count (F.seqMcCnt 0)).mc = m.mc := Dev.wr_mc _ _ _
  have rd0 := hm.rd_count hw (i := 0) (by decide)
  have cst := hm.count_cst 0
  extract_lets e
  unfold e
  clear e
  generalize hc : m.count (F.seqMcCnt 0) = c at counted rd0 cst ⊢
  obtain ⟨g, hg⟩ : ∃ g : L2Way → L2Way, g = fun x => { x with
      data := mergeBytes x.data bs, dirty := x.dirty || back, poison := x.poison && !full, age := 0 } := ⟨_, rfl⟩
  have stays (x : L2Way) : (g x).line = x.line := by rw [hg]
  have placed : (c.onL2 (lineNo acc.addr) g).l2Get (lineNo acc.addr) = some (g { x with
      present := if x.present.testBit acc.agent then 2 ^ acc.agent else 0 }) := by
    rw [Dev.l2Get_onL2_same c (lineNo acc.addr) g stays, Dev.l2Get_congr (congrArg Mc.l2 counted), hm.l2Get, hx]
    rw [Option.map_some, if_pos (Dev.l2Get_line hx), Option.map_some]
  have shot (i : Nat) (hi : i < 10) (hne : i ≠ acc.agent) : (c.onL2 (lineNo acc.addr) g).l1Has i (lineNo acc.addr) = false :=
    (Dev.l1Has_congr (congrArg Mc.l1 counted) i _).trans (hm.l1Has i hi hne)
  have written : ∃ l2, (c.onL2 (lineNo acc.addr) g).mc = { m.mc with l2 := l2 } := ⟨(c.onL2 (lineNo acc.addr) g).mc.l2, by rw [← counted]; rfl⟩
  have rd : (c.onL2 (lineNo acc.addr) g).rd (F.seqMcCnt 0) = satInc 32 (d.rd (F.seqMcCnt 0)) := rd0
  have cst' : (c.onL2 (lineNo acc.addr) g).cst = d.cst := cst
  rw [← hg]
  generalize c.onL2 (lineNo acc.addr) g = u at placed shot written rd cst' ⊢
  obtain ⟨l2, umc⟩ := written
  have gathers : u.Gathers (u.when (!back) (·.enterWt (lineNo acc.addr) bs acc.cls)) := by
    cases back
    · exact (Dev.Gathers.refl u).enterWt _ _ _
    · exact .refl u
  have kept (hb : back = true) : u.when (!back) (·.enterWt (lineNo acc.addr) bs acc.cls) = u := by rw [hb]; rfl
  generalize u.when (!back) (·.enterWt (lineNo acc.addr) bs acc.cls) = e at gathers kept ⊢
  obtain ⟨⟨merging, mc⟩, steady⟩ := gathers
  refine ⟨?_, ?_, ?_, fun i hi hne => ?_, ?_, fun hb => ?_⟩
  · rw [mc, umc]
  · rw [mc, umc]
  · rw [Dev.l2Get_congr (d := u) (by rw [mc]), placed, hg]
  · exact (Dev.l1Has_congr (d := u) (by rw [mc]) i _).trans (shot i hi hne)
  · rw [steady _ (seqMcCnt_storeSteady (by decide)) (seqMcCnt_ne (by decide)), rd]
  · rw [kept hb]
    exact ⟨cst', by rw [umc]⟩

/-- A narrow store that misses waits for its fill (R150). -/
theorem Dev.Met.narrow_waits (hw : w < 8) (f : FillReq) : let e := (m.count (F.seqMcCnt 1)).askFill f
    e.mc.stalled = m.mc.stalled ∧ e.mc.later = m.mc.later ∧ e.mc.fills = d.mc.fills ++ [f] ∧
      e.rd (F.seqMcCnt 1) = satInc 32 (d.rd (F.seqMcCnt 1)) ∧ e.cst = d.cst := by
  obtain ⟨fills, -⟩ := hm.records
  have mc : (m.count (F.seqMcCnt 1)).mc = m.mc := Dev.wr_mc _ _ _
  unfold Dev.askFill
  refine ⟨?_, ?_, ?_, ?_, ?_⟩
  · rw [Dev.onMc_mc, mc]
  · rw [Dev.onMc_mc, mc]
  · rw [Dev.onMc_mc, mc, fills]
  · rw [Dev.rd_onMc, hm.rd_count hw (by decide)]
  · rw [Dev.onMc_cst, hm.count_cst]

/-- A full line that misses is allocated, and not read (R150). -/
theorem Dev.Met.allocated (hn : d.l2Get (lineNo acc.addr) = none) (h16 : (d.l2Set (lineNo acc.addr)).length = 16)
    (h0 : (d.l2Set (lineNo acc.addr)).getD 0 none = none) (hr : (Map.get 0 d.mc.retired (lineNo acc.addr % 32768)).testBit 0 = false)
    (data : List Byte) : let e := (m.count (F.seqMcCnt 1)).allocate acc.agent (lineNo acc.addr) data acc.cls 1
    e.mc.stalled = m.mc.stalled ∧ e.mc.later = m.mc.later ∧ e.l2Get (lineNo acc.addr) = some ⟨lineNo acc.addr, data, true, false, 1, 0⟩ ∧
      e.cst = d.cst ∧ ∀ f : RegField, f.addr ≠ (F.seqMcCnt 1).addr → e.rd f = m.rd f := by
  obtain ⟨-, -, retired, -⟩ := hm.records
  have mc : (m.count (F.seqMcCnt 1)).mc = m.mc := Dev.wr_mc _ _ _
  have cst := hm.count_cst 1
  have rd (f : RegField) (hf : f.addr ≠ (F.seqMcCnt 1).addr) := Dev.rd_count_other hf m
  generalize m.count (F.seqMcCnt 1) = c at mc cst rd ⊢
  have set : c.l2Set (lineNo acc.addr) = d.l2Set (lineNo acc.addr) := (Dev.l2Set_congr (congrArg Mc.l2 mc) _).trans (hm.absent hn _)
  have placed := Dev.install_empty (d := c) (x := ⟨lineNo acc.addr, data, true, false, 1, 0⟩) (by rw [set]; exact h0)
    (by rw [mc, retired]; exact hr) acc.cls
  unfold Dev.allocate
  rw [placed]
  dsimp only
  rw [if_pos rfl, set]
  refine ⟨?_, ?_, ?_, ?_, fun f hf => ?_⟩
  · rw [Dev.setL2, Dev.onMc_mc, mc]
  · rw [Dev.setL2, Dev.onMc_mc, mc]
  · rw [Dev.l2Get_eq, Dev.l2Set_setL2, if_pos rfl]
    exact lineIn_set_zero (List.ne_nil_of_length_pos (by rw [h16]; decide)) ⟨lineNo acc.addr, data, true, false, 1, 0⟩
  · rw [Dev.setL2, Dev.onMc_cst, cst]
  · rw [Dev.setL2, Dev.rd_onMc, rd f hf]

/-- A full line that a tripped detector sends on is written to the store (R151). -/
theorem Dev.Met.passed (hw : w < 8) (ha : d.plat.armed = []) (hn : d.l2Get (lineNo acc.addr) = none) (hu : d.stackUp (stackOf acc.addr) = true) :
    let e := (m.count (F.seqMcCnt 10)).writeLine acc.addr acc.data false acc.cls
    e.mc = m.mc ∧ e.rd (F.seqMcCnt 10) = satInc 32 (d.rd (F.seqMcCnt 10)) ∧ (∀ l, e.l2Get l = d.l2Get l) ∧
      ∀ a, lineNo a = lineNo acc.addr → e.lineData a = padTo 64 acc.data ∧ e.lineHollow a = false := by
  have mc : (m.count (F.seqMcCnt 10)).mc = m.mc := Dev.wr_mc _ _ _
  have rd := hm.rd_count hw (i := 10) (by decide)
  have armed : (m.count (F.seqMcCnt 10)).plat.armed = [] := Dev.count_unarmed (by rw [hm.plat]; exact ha) _
  have up : (m.count (F.seqMcCnt 10)).stackUp (stackOf acc.addr) = true := by
    rw [← hu]
    refine Dev.stackUp_congr ((Dev.wr_plat _ _ _).trans hm.plat) ?_
    rw [Dev.rd_count_other (by simp only [F.seqMcCnt, F.cstStkTrain]; omega)]
    exact hm.rd _ (by simp only [F.seqMcWinStat_tripped, F.cstStkTrain]; omega) (by simp only [F.seqMcCnt, F.cstStkTrain]; omega)
  generalize m.count (F.seqMcCnt 10) = c at mc rd armed up ⊢
  obtain ⟨mc', work, lines⟩ := Dev.writeLine_lands up armed acc.data false acc.cls
  refine ⟨mc'.trans mc, (work.rd _ (seqMcCnt_storeSteady (by decide))).trans rd, fun l => ?_, lines⟩
  have same : (c.writeLine acc.addr acc.data false acc.cls).l2Get l = m.l2Get l := Dev.l2Get_congr (by rw [mc', mc]) l
  rw [same, Dev.l2Get_eq, Dev.l2Get_eq, hm.absent hn]

/-- A narrow store of a write-through window that misses enters the merging buffer (R152). -/
theorem Dev.Met.entered (hw : w < 8) {bs : List (Nat × Byte)} (hj : d.mc.merging.any (·.line == lineNo acc.addr) = false)
    (hl : d.mc.merging.length < 32) (hb : wholeLine bs = false) : let e := (m.count (F.seqMcCnt 1)).enterWt (lineNo acc.addr) bs acc.cls
    e.mc.stalled = m.mc.stalled ∧ e.mc.later = m.mc.later ∧ e.mc.merging = d.mc.merging ++ [⟨lineNo acc.addr, bs, false, acc.cls⟩] ∧
      e.rd (F.seqMcCnt 1) = satInc 32 (d.rd (F.seqMcCnt 1)) ∧ e.cst = d.cst := by
  obtain ⟨-, merging, -⟩ := hm.records
  have mc : (m.count (F.seqMcCnt 1)).mc = m.mc := Dev.wr_mc _ _ _
  rw [Dev.enterWt_opens (by rw [mc, merging]; exact hj) (by rw [mc, merging]; exact hl) hb]
  refine ⟨?_, ?_, ?_, ?_, ?_⟩
  · rw [Dev.onMc_mc, mc]
  · rw [Dev.onMc_mc, mc]
  · rw [Dev.onMc_mc, mc, merging]
  · rw [Dev.rd_onMc, hm.rd_count hw (by decide)]
  · rw [Dev.onMc_cst, hm.count_cst]

end

/-! ## Where a cached store goes -/

section
variable {d : Dev} {acc : CacheAcc} (w : Nat) (hs : d.mc.side.find? (·.1 == lineNo acc.addr) = none) (hw : d.mc.waits (lineNo acc.addr) = false)
include hs hw

theorem Dev.cachedWrite_hit {x : L2Way} (hx : d.l2Get (lineNo acc.addr) = some x) : d.cachedWrite w acc =
    (((d.storeMet w acc (wholeStore acc)).count (F.seqMcCnt 0)).onL2 (lineNo acc.addr) fun x => { x with
      data := mergeBytes x.data (storeBytesOf acc.addr acc.data), dirty := x.dirty || !d.flag (F.seqMcWinCfg_policy w),
      poison := x.poison && !wholeStore acc, age := 0 }).when (!!d.flag (F.seqMcWinCfg_policy w))
        (·.enterWt (lineNo acc.addr) (storeBytesOf acc.addr acc.data) acc.cls) := by
  have found : ((d.storeMet w acc (wholeStore acc)).l2Get (lineNo acc.addr)).isSome = true := by
    rw [(d.storeMet_met w acc _).l2Get, hx]
    rfl
  rw [Dev.cachedWrite_eq hs hw]
  exact if_pos found

theorem Dev.cachedWrite_miss (hn : d.l2Get (lineNo acc.addr) = none) (hv : d.mc.victimOf (lineNo acc.addr) = none) : d.cachedWrite w acc =
    (let e := d.storeMet w acc (wholeStore acc)
     if d.flag (F.seqMcWinCfg_policy w) then (e.count (F.seqMcCnt 1)).enterWt (lineNo acc.addr) (storeBytesOf acc.addr acc.data) acc.cls
     else if d.passes w acc then (e.count (F.seqMcCnt 10)).uncached acc true
     else if wholeStore acc then (e.count (F.seqMcCnt 1)).allocate acc.agent (lineNo acc.addr) (padTo 64 acc.data) acc.cls 1
     else (e.count (F.seqMcCnt 1)).askFill
      ⟨lineNo acc.addr, acc.agent, false, acc.cls, some (storeBytesOf acc.addr acc.data), true, none⟩) := by
  have met := d.storeMet_met w acc (wholeStore acc)
  have found : (d.storeMet w acc (wholeStore acc)).l2Get (lineNo acc.addr) = none := by
    rw [met.l2Get, hn]
    rfl
  rw [Dev.cachedWrite_eq hs hw]
  dsimp only
  rw [found, met.victimOf, hv, Bool.not_not]
  rfl

omit hs hw

theorem Dev.passes_untripped (h : d.flag (F.seqMcWinStat_tripped w) = false) : d.passes w acc = false := by
  rw [Dev.passes, h]
  rfl

/-- A run of more than one line in a tripped window passes the cache (R151). -/
theorem Dev.passes_run (ht : d.flag (F.seqMcWinStat_tripped w) = true) (hf : wholeStore acc = true)
    (hn : 1 < d.runLength w (lineNo acc.addr) (wholeStore acc)) (hl : d.rd (F.seqMcWinCfg_seqLimit w) ≠ 0) : d.passes w acc = true := by
  have inRun : d.inRun w (lineNo acc.addr) (wholeStore acc) = true := by
    by_contra out
    rw [Dev.runLength, if_pos hf, if_neg out] at hn
    exact absurd hn (lt_irrefl 1)
  rw [Dev.passes, ht, inRun]
  simpa using hl

end

/-- What a cached store comes to, once nothing waits that it lets go on. -/
theorem Dev.cacheWrite_window {d : Dev} {acc : CacheAcc} {w : Nat} {e : Dev} (ha : d.plat.armed = []) (hf : acc.fault = .none)
    (hh : d.mc.hold.contains (lineNo acc.addr) = false) (hw : d.windowOf acc.addr = some w) (hu : d.mc.uncached = false)
    (hd : d.setDead (lineNo acc.addr) = false) (he : d.cachedWrite w acc = e) (hs : e.mc.stalled = []) (hl : e.mc.later = []) :
    d.cacheWrite acc = e := by
  rw [Dev.cacheWrite_cached ha hf hh hw hu hd, he]
  exact Dev.resume_idle hs hl

/-- Settles O31: a store goes to a held line, to the store, or through the cache, where the place of its line and its window's policy decide. -/
theorem cacheStores : Obligations.CacheStores := by
  unfold Obligations.CacheStores
  intro s acc hf ha hi hlen d line full bs toStore
  have run {Q : Dev → Prop} (h : Q (d.cacheWrite acc)) : completes (.cacheWrite acc) s Q := Dev.completes_cacheWrite hlen h
  have whole (h : full = true) : acc.data.length = 64 ∧ acc.addr % 64 = 0 := by simpa [full] using h
  refine ⟨?_, ?_, ?_⟩
  · intro hh freed
    refine ⟨fun hw hn => run ?_, fun hw hy hb => run ?_, ?_⟩
    · rw [Dev.cacheWrite_held ha hf hh, Dev.heldWrite_unmapped hw]
      exact if_neg (by rw [show wholeStore acc = false from hn]; exact Bool.false_ne_true)
    · have idle : (d.unheld line).mc.busy acc.agent = false := hb
      rw [Dev.cacheWrite_held ha hf hh, Dev.heldWrite_unmapped hw, if_pos (show wholeStore acc = true from hy),
        Dev.uncached_idle idle, Dev.uncachedNow_store]
      rfl
    · intro w hw hu hd seen
      refine ⟨fun hn => run ?_, fun hy => run ?_⟩
      · rw [Dev.cacheWrite_held ha hf hh, Dev.heldWrite_mapped hw hu hd]
        exact if_neg (by rw [show wholeStore acc = false from hn]; exact Bool.false_ne_true)
      · rw [Dev.cacheWrite_held ha hf hh, Dev.heldWrite_mapped hw hu hd, padTo_of_length (whole hy).1, if_pos (show wholeStore acc = true from hy)]
        rfl
  · intro hh hw
    refine ⟨fun hb => run ?_, fun hb => run ?_⟩
    · rw [Dev.cacheWrite_unmapped ha hf hh hw, Dev.uncached_idle hb, Dev.uncachedNow_store]
      rfl
    · rw [Dev.cacheWrite_unmapped ha hf hh hw]
      exact Dev.uncached_busy hb true
  · intro w hw8 hh hw hu hd hside hwaits hst hla back n
    have met := d.storeMet_met w acc full
    obtain ⟨stalled, later⟩ := met.idle hst hla
    have through {Q : Dev → Prop} {e : Dev} (he : d.cachedWrite w acc = e) (hs : e.mc.stalled = (d.storeMet w acc full).mc.stalled)
        (hl : e.mc.later = (d.storeMet w acc full).mc.later) (h : Q e) : completes (.cacheWrite acc) s Q :=
      run (by rw [Dev.cacheWrite_window ha hf hh hw hu hd he (hs.trans stalled) (hl.trans later)]; exact h)
    have counted : n = d.runLength w line full := by
      unfold n Dev.runLength Dev.inRun
      cases full <;> simp
    refine ⟨fun x hx => ?_, fun hn hv hb ht => ⟨fun hnar => ?_, fun hy h16 h0 hr => ?_⟩, fun hn hv hb ht hy h1 hl hbusy hup => ?_,
      fun hn hv hb hnar hj hl32 hpart => ?_⟩
    · obtain ⟨hs, hl, get, shot, cnt, kept⟩ := met.hit hw8 hx back bs
      refine through (Dev.cachedWrite_hit w hside hwaits hx) hs hl ⟨get, shot, cnt, fun hb => ?_⟩
      obtain ⟨cst, count⟩ := kept hb
      exact ⟨cst, (congrArg (Map.get 0 · w) count).trans ((met.run (by simpa [back] using hb)).trans counted.symm)⟩
    · have policy : d.flag (F.seqMcWinCfg_policy w) = false := by simpa [back] using hb
      obtain ⟨hs, hl, goal⟩ := met.narrow_waits hw8 ⟨line, acc.agent, false, acc.cls, some bs, true, none⟩
      refine through ((Dev.cachedWrite_miss w hside hwaits hn hv).trans ?_) hs hl goal
      rw [policy, Dev.passes_untripped w ht, show wholeStore acc = full from rfl, hnar]
      rfl
    · have policy : d.flag (F.seqMcWinCfg_policy w) = false := by simpa [back] using hb
      obtain ⟨hs, hl, get, cst, rd⟩ := met.allocated hn h16 h0 hr acc.data
      refine through ((Dev.cachedWrite_miss w hside hwaits hn hv).trans ?_) hs hl ⟨get, cst, fun hlim => ?_⟩
      · rw [policy, Dev.passes_untripped w ht, show wholeStore acc = full from rfl, hy, padTo_of_length (whole hy).1]
        rfl
      · obtain ⟨trips, cnt⟩ := met.trips hy hw8 policy ht (counted.symm.trans hlim)
        exact ⟨(congrArg (decide <| · ≠ 0) (rd _ (seqMcCnt_ne_tripped 1 hw8).symm)).trans trips, (rd _ (seqMcCnt_ne (by decide))).trans cnt⟩
    · have policy : d.flag (F.seqMcWinCfg_policy w) = false := by simpa [back] using hb
      have passes : d.passes w acc = true := Dev.passes_run w ht hy (counted ▸ h1) hl
      have aligned : line * 64 = acc.addr := by
        have := (whole hy).2
        unfold line lineNo
        omega
      rw [aligned] at hup ⊢
      obtain ⟨mc, cnt, get, lines⟩ := met.passed hw8 ha hn hup
      obtain ⟨data, hollow⟩ := lines acc.addr rfl
      rw [padTo_of_length (whole hy).1] at data
      have idle : ((d.storeMet w acc full).count (F.seqMcCnt 10)).mc.busy acc.agent = false := by
        obtain ⟨-, -, -, busy⟩ := met.records
        rw [Dev.count, Dev.wr_mc, busy, hbusy]
      refine through (e := ((d.storeMet w acc full).count (F.seqMcCnt 10)).writeLine acc.addr acc.data false acc.cls)
        ((Dev.cachedWrite_miss w hside hwaits hn hv).trans ?_) (congrArg Mc.stalled mc) (congrArg Mc.later mc)
        ⟨cnt, get, data, hollow⟩
      rw [policy, passes, show wholeStore acc = full from rfl]
      exact (Dev.uncached_idle idle true).trans ((Dev.uncachedNow_store _ _).trans (if_pos hy))
    · have policy : d.flag (F.seqMcWinCfg_policy w) = true := by simpa [back] using hb
      obtain ⟨hs, hl, goal⟩ := met.entered hw8 hj hl32 hpart
      refine through ((Dev.cachedWrite_miss w hside hwaits hn hv).trans ?_) hs hl goal
      rw [policy]
      rfl
end Sys2Proof.Machine
end

section
/-! SUPPORT. Fills, prefetches, write-backs, drains and forwarded writes (R146, R149, R152, R153, R155). -/
namespace Sys2Proof.Machine
open Sys2Proof

/-! ## Fills and prefetches (R149, R155) -/

/-- Nothing is gathered where no entry is open. -/
theorem gathered_idle {m : Mc} (h : m.merging = []) (line : Nat) : m.gathered line = [] := by
  unfold Mc.gathered
  rw [h]
  rfl

/-- A load that finds its line nowhere else takes what was read: it is delivered, and installed where nothing forbids it. -/
theorem Dev.finishFill_load {d : Dev} {f : FillReq} {data : List Byte} {hollow : Bool} (hs : f.store = none) (hd : f.data = some (data, hollow))
    (hl : d.l2Get f.line = none) (hv : d.mc.victimOf f.line = none) (hm : d.mc.merging = []) : (d.finishFill f).2 =
      if !f.keep || d.mc.uncached || d.setDead f.line then (d.toAgent f.agent (f.line * 64) data hollow).when (!f.keep) (·.count (F.seqMcCnt 6))
      else (let placed := d.install ⟨f.line, data, false, hollow, if f.stream then 3 else 1, 0⟩ f.cls
            if !placed.1 then placed.2.stall f else (placed.2.fillL1 f.agent f.line).toAgent f.agent (f.line * 64) data hollow) := by
  have bytes : mergeBytes data (d.mc.gathered f.line) = data := by rw [gathered_idle hm]; rfl
  have none_ (data : List Byte) : mergeBytes data [] = data := rfl
  have short : wholeLine [] = false := rfl
  unfold Dev.finishFill
  simp only [hs, reduceCtorEq, if_false, Option.isNone_none, Bool.not_true, Dev.when, Bool.false_eq_true, hl, hv, hd, Option.getD_none, none_, short,
    Bool.not_false, Bool.and_true, if_true, bytes]
  rw [apply_ite Prod.snd]

/-- What the store read for a fill, and the device once no fill is awaited. -/
def Dev.fillRead (d : Dev) (rd : LineRead) : Delivered × Dev :=
  let got := d.readLine { rd with by_ := none }
  (got.1, got.2.onMc fun c => { c with fills := [] })

theorem Dev.fillRead_mc (d : Dev) (rd : LineRead) : (d.fillRead rd).2.mc = { d.mc with fills := [] } := by
  rw [Dev.fillRead, Dev.onMc_mc, d.readLine_mc rfl]

theorem Dev.fillDone_one {d : Dev} {rd : LineRead} {f : FillReq} (hst : d.mc.stalled = []) (hf : d.mc.fills = [f])
    (hl : f.line = lineNo rd.addr) :
    d.fillDone rd = ((d.fillRead rd).2.finishFill { f with data := some ((d.fillRead rd).1.data, (d.fillRead rd).1.hollow) }).2.laterDue := by
  have mine : d.mc.fills.filter (·.line == lineNo rd.addr) = [f] := by simp [hf, hl]
  have mc := d.readLine_mc (rd := { rd with by_ := none }) rfl
  unfold Dev.fillDone Dev.fillRead
  dsimp only
  rw [mine]
  generalize d.readLine { rd with by_ := none } = got at mc ⊢
  obtain ⟨o, e⟩ := got
  dsimp only at mc ⊢
  have gone : (e.onMc fun m => { m with fills := m.fills.filter (·.line != lineNo rd.addr) }) = e.onMc fun c => { c with fills := [] } := by
    show ({ e with mc := { e.mc with fills := _ } } : Dev) = { e with mc := { e.mc with fills := [] } }
    rw [mc, hf]
    simp [hl]
  rw [gone]
  rw [if_neg (by simp), List.foldl_cons, List.foldl_nil]
  dsimp only
  rw [Dev.onMc_mc, mc, hst]
  rfl

theorem Dev.prefetchArrival_shows {d : Dev} {rd : LineRead} (hp : d.mc.prefetch = [(lineNo rd.addr, true)]) (hu : d.mc.uncached = false)
    (hl : d.l2Get (lineNo rd.addr) = none) (hm : d.mc.merging = []) (hs : d.mc.side.length < 64) :
    let got := d.readLine { rd with by_ := none }
    let e := d.prefetchArrival rd
    e.mc.prefetch = [] ∧ e.mc.side = d.mc.side ++ [(lineNo rd.addr, got.1.data, got.1.hollow)] ∧ e.cst = got.2.cst := by
  have found : d.mc.prefetch.find? (·.1 == lineNo rd.addr) = some (lineNo rd.addr, true) := by simp [hp]
  have left : d.mc.prefetch.filter (·.1 != lineNo rd.addr) = [] := by simp [hp]
  obtain ⟨g, hg⟩ : ∃ g : Mc → Mc, g = fun m => { m with prefetch := m.prefetch.filter (·.1 != lineNo rd.addr) } := ⟨_, rfl⟩
  have pf : (g d.mc).prefetch = [] := by rw [hg]; exact left
  have side : (g d.mc).side = d.mc.side := by rw [hg]
  have unc : (d.onMc g).mc.uncached = false := by rw [hg]; exact hu
  have absent : (d.onMc g).l2Get (lineNo rd.addr) = none := (Dev.l2Get_congr (by rw [hg]; rfl) _).trans hl
  have merging : (g d.mc).merging = [] := by rw [hg]; exact hm
  have mc := d.readLine_mc (rd := { rd with by_ := none }) rfl
  have read := d.readLine_onMc g (rd := { rd with by_ := none }) rfl
  unfold Dev.prefetchArrival
  dsimp only
  rw [found, ← hg]
  dsimp only
  rw [unc, absent, if_neg (by decide), read]
  generalize d.readLine { rd with by_ := none } = got at mc ⊢
  obtain ⟨o, e⟩ := got
  dsimp only at mc ⊢
  have room : decide (64 ≤ (e.onMc g).mc.side.length) = false := by
    rw [Dev.onMc_mc, mc, side]
    exact decide_eq_false (by omega)
  rw [room, Dev.when, if_neg Bool.false_ne_true, Dev.onMc_mc, Dev.onMc_mc, mc, gathered_idle merging]
  exact ⟨pf, by rw [side]; rfl, rfl⟩

/-! ## Write-backs and drains (R152, R153) -/

/-- Between `d` and `e` the operations that await nothing any more end (R154, R161). -/
structure Dev.Progressed (d e : Dev) : Prop where
  mc : ∃ draining, e.mc = { d.mc with draining := draining }
  cst : e.cst = d.cst
  rd : ∀ f : RegField, f.addr ≠ F.seqMcMaintStat_busy.addr → (∀ w, f.addr ≠ (F.seqMcWinStat_draining w).addr) → e.rd f = d.rd f
  done : e.rd F.seqMcMaintStat_done = d.rd F.seqMcMaintStat_done
  ended : d.mc.awaited.any (·.1 == 8) = false → e.flag F.seqMcMaintStat_busy = false
  still : d.mc.awaited.any (·.1 == 8) = true → e.flag F.seqMcMaintStat_busy = d.flag F.seqMcMaintStat_busy

/-- Windows that end their drain show it. -/
theorem Dev.undrained_shows (ws : List Nat) (d : Dev) : let e := ws.foldl (fun (d : Dev) w => d.wr (F.seqMcWinStat_draining w) 0) d
    e.mc = d.mc ∧ e.cst = d.cst ∧ ∀ f : RegField, (∀ w, f.addr ≠ (F.seqMcWinStat_draining w).addr) → e.rd f = d.rd f := by
  refine List.foldlRecOn (motive := fun e : Dev => e.mc = d.mc ∧ e.cst = d.cst ∧
    ∀ f : RegField, (∀ w, f.addr ≠ (F.seqMcWinStat_draining w).addr) → e.rd f = d.rd f) ws _ ⟨rfl, rfl, fun _ _ => rfl⟩ fun e h w _ => ?_
  obtain ⟨mc, cst, rd⟩ := h
  exact ⟨(Dev.wr_mc _ _ _).trans mc, (Dev.wr_cst _ _ _).trans cst, fun f hf => (e.rd_wr_other _ f 0 (hf w)).trans (rd f hf)⟩

theorem Dev.maintProgress_shows (d : Dev) : d.Progressed d.maintProgress := by
  have ok : F.seqMcMaintStat_busy.ok := by simp [RegField.ok, F.seqMcMaintStat_busy]
  have apart (w : Nat) : F.seqMcMaintStat_busy.addr ≠ (F.seqMcWinStat_draining w).addr := by
    simp only [F.seqMcMaintStat_busy, F.seqMcWinStat_draining]
    omega
  unfold Dev.maintProgress
  extract_lets waits shown left
  obtain ⟨mc, cst, rd⟩ := Dev.undrained_shows (d.mc.draining.filter fun w => !waits d w) d
  have mc' : left.mc = { d.mc with draining := left.mc.draining } := by
    unfold left
    rw [Dev.onMc_mc, show shown.mc = d.mc from mc]
  have awaited : waits left 8 = d.mc.awaited.any (·.1 == 8) := by
    unfold waits
    rw [mc']
  have cst' : left.cst = d.cst := cst
  have rd' (f : RegField) (hf : ∀ w, f.addr ≠ (F.seqMcWinStat_draining w).addr) : left.rd f = d.rd f := rd f hf
  rw [awaited]
  clear_value left
  split
  next h => exact ⟨⟨_, mc'⟩, cst', fun f _ => rd' f, rd' _ apart, fun hn => absurd h (by simp [hn]),
    fun _ => Dev.flag_steady (rd' _ apart)⟩
  next h =>
    refine ⟨⟨_, (Dev.wr_mc _ _ _).trans mc'⟩, (Dev.wr_cst _ _ _).trans cst', fun f hb hf => (left.rd_wr_other _ f 0 hb).trans (rd' f hf), ?_,
      fun _ => left.flag_zero _ ok rfl, fun hy => absurd hy h⟩
    rw [left.rd_wr_beside _ _ 0 ok (by simp [RegField.ok, F.seqMcMaintStat_done]) (by decide)]
    exact rd' _ apart

/-- The stored bytes and form of a line follow from the store's record. -/
theorem Dev.line_congr {d e : Dev} (h : e.cst = d.cst) (a : Nat) : e.lineData a = d.lineData a ∧ e.lineHollow a = d.lineHollow a :=
  ⟨Dev.lineData_congr fun b _ => Dev.byteAt_congr (congrArg Cst.mem h) b, Dev.lineHollow_congr (congrArg Cst.hollow h) a⟩

/-- A line that was awaited no longer is. -/
def Dev.acked (d : Dev) (line : Nat) : Dev := d.onMc fun m => { m with awaited := m.awaited.filter (·.2 != line) }

/-- A victim written back, its entry freed. -/
def Dev.wroteVictim (d : Dev) (v : Victim) : Dev :=
  ((d.writeLine (v.line * 64) v.data v.poison v.cls).count (F.seqMcCnt 8)).onMc fun m => { m with victims := m.victims.erase v }

theorem Dev.writebackAck_one {d : Dev} {v : Victim} {a : Nat} (hv : d.mc.victims = [v]) (hf : d.mc.fills = []) (hs : d.mc.stalled = [])
    (hl : d.mc.later = []) (ha : lineNo a = v.line) : d.writebackAck a = ((d.wroteVictim v).acked v.line).maintProgress := by
  have found : d.mc.victims.find? (·.line == v.line) = some v := by simp [hv]
  have mc : (d.wroteVictim v).mc = { d.mc with victims := d.mc.victims.erase v } := by
    rw [Dev.wroteVictim, Dev.onMc_mc, Dev.count, Dev.wr_mc, Dev.writeLine_mc]
  have acked : ((d.wroteVictim v).acked v.line).mc = { d.mc with
      victims := d.mc.victims.erase v, awaited := d.mc.awaited.filter (·.2 != v.line) } := by rw [Dev.acked, Dev.onMc_mc, mc]
  unfold Dev.writebackAck
  dsimp only
  rw [ha, found]
  dsimp only
  rw [← Dev.wroteVictim.eq_def, mc]
  dsimp only
  rw [hf, hs]
  refine congrArg Dev.maintProgress (Dev.resume_idle ?_ ?_)
  · exact (congrArg Mc.stalled acked).trans hs
  · exact (congrArg Mc.later acked).trans hl

theorem Dev.writebackAck_shows {d : Dev} {v : Victim} {a : Nat} (hp : d.plat.armed = []) (hv : d.mc.victims = [v]) (hf : d.mc.fills = [])
    (hs : d.mc.stalled = []) (hl : d.mc.later = []) (hup : d.stackUp (stackOf (v.line * 64)) = true) (ha : lineNo a = v.line) :
    let e := d.writebackAck a
    e.mc.victims = [] ∧ e.lineData (v.line * 64) = padTo 64 v.data ∧ e.lineHollow (v.line * 64) = v.poison ∧
      e.rd (F.seqMcCnt 8) = satInc 32 (d.rd (F.seqMcCnt 8)) ∧
      (d.mc.awaited = [(8, v.line)] → e.mc.awaited = [] ∧ e.flag F.seqMcMaintStat_busy = false) := by
  obtain ⟨mc, work, lines⟩ := Dev.writeLine_lands hup hp v.data v.poison v.cls
  obtain ⟨data, hollow⟩ := lines (v.line * 64) rfl
  rw [Dev.writebackAck_one hv hf hs hl ha]
  have done : ((d.wroteVictim v).acked v.line).mc = { d.mc with
      victims := d.mc.victims.erase v, awaited := d.mc.awaited.filter (·.2 != v.line) } := by
    rw [Dev.acked, Dev.wroteVictim, Dev.onMc_mc, Dev.onMc_mc, Dev.count, Dev.wr_mc, mc]
  have cst : ((d.wroteVictim v).acked v.line).cst = (d.writeLine (v.line * 64) v.data v.poison v.cls).cst := Dev.wr_cst _ _ _
  have cnt : ((d.wroteVictim v).acked v.line).rd (F.seqMcCnt 8) = satInc 32 (d.rd (F.seqMcCnt 8)) := by
    rw [Dev.acked, Dev.wroteVictim, Dev.rd_onMc, Dev.rd_onMc, Dev.rd_count_mc, work.rd _ (seqMcCnt_storeSteady (by decide))]
  generalize (d.wroteVictim v).acked v.line = m at done cst cnt ⊢
  obtain ⟨⟨draining, emc⟩, ecst, rd, -, ended, -⟩ := m.maintProgress_shows
  obtain ⟨data', hollow'⟩ := Dev.line_congr (ecst.trans cst) (v.line * 64)
  refine ⟨?_, data'.trans data, hollow'.trans hollow, (rd _ (by decide) fun w => ?_).trans cnt, fun hw => ⟨?_, ended ?_⟩⟩
  · rw [emc, done, hv]
    simp
  · simp only [F.seqMcCnt, F.seqMcWinStat_draining]
    omega
  · rw [emc, done, hw]
    simp
  · rw [done, hw]
    simp

theorem Dev.mergeBufDrain_shows {d : Dev} {m : WtEnt} {a : Nat} (hp : d.plat.armed = []) (hm : d.mc.merging = [m])
    (hb : (m.bytes.map (·.1)).eraseDups.length = 64) (hup : d.stackUp (stackOf (m.line * 64)) = true) (ha : lineNo a = m.line) :
    let e := d.mergeBufDrain a
    e.mc.merging = [] ∧ e.lineData (m.line * 64) = padTo 64 (mergeBytes (zeros 64) m.bytes) ∧ e.lineHollow (m.line * 64) = m.poison ∧
      e.rd (F.seqMcCnt 11) = satInc 32 (d.rd (F.seqMcCnt 11)) := by
  have found : d.mc.merging.findIdx? (·.line == lineNo a) = some 0 := by simp [hm, ha]
  have drained : d.mergeBufDrain a = ((d.onMc fun x => { x with merging := x.merging.filter (·.line != m.line) }).count (F.seqMcCnt 11)).writeLine
      (m.line * 64) (mergeBytes (zeros 64) m.bytes) m.poison m.cls := by
    unfold Dev.mergeBufDrain
    rw [found, hm]
    exact if_pos hb
  have mc : ((d.onMc fun x => { x with merging := x.merging.filter (·.line != m.line) }).count (F.seqMcCnt 11)).mc.merging = [] := by
    rw [Dev.count, Dev.wr_mc, Dev.onMc_mc, hm]
    simp
  have cnt : ((d.onMc fun x => { x with merging := x.merging.filter (·.line != m.line) }).count (F.seqMcCnt 11)).rd (F.seqMcCnt 11) =
      satInc 32 (d.rd (F.seqMcCnt 11)) := by rw [Dev.rd_count_mc, Dev.rd_onMc]
  have armed : ((d.onMc fun x => { x with merging := x.merging.filter (·.line != m.line) }).count (F.seqMcCnt 11)).plat.armed = [] :=
    Dev.count_unarmed (d := d.onMc _) hp _
  have up : ((d.onMc fun x => { x with merging := x.merging.filter (·.line != m.line) }).count (F.seqMcCnt 11)).stackUp (stackOf (m.line * 64)) =
      true := (Dev.stackUp_congr (Dev.wr_plat _ _ _) (Dev.rd_count_other (by simp only [F.seqMcCnt, F.cstStkTrain]; omega) _)).trans hup
  rw [drained]
  generalize (d.onMc fun x => { x with merging := x.merging.filter (·.line != m.line) }).count (F.seqMcCnt 11) = c at mc cnt armed up ⊢
  obtain ⟨emc, work, lines⟩ := Dev.writeLine_lands up armed (mergeBytes (zeros 64) m.bytes) m.poison m.cls
  obtain ⟨data, hollow⟩ := lines (m.line * 64) rfl
  exact ⟨(congrArg Mc.merging emc).trans mc, data, hollow, (work.rd _ (seqMcCnt_storeSteady (by decide))).trans cnt⟩

/-! ## Writes that do not come from the cache (R146) -/

theorem Dev.writeThrough_own {d : Dev} {wr : LineWrite} (hb : wr.by_ = none) (hs : wr.sram = .good) :
    d.writeThrough wr = (d.forward wr).storeWrite wr := by
  obtain ⟨addr, data, hollow, cls, parity, by_, sram⟩ := wr
  obtain rfl : by_ = none := hb
  obtain rfl : sram = .good := hs
  rfl

/-- The L2 copy of a line as a forwarded write leaves it. -/
def L2Way.forwarded (x : L2Way) (wr : LineWrite) : L2Way :=
  { x with
    data := mergeBytes x.data (storeBytesOf wr.addr wr.data)
    poison := wr.hollow || (x.poison && !(decide (wr.data.length = 64) && decide (wr.addr % 64 = 0))) }

/-- A forwarded write updates the L2 copy, takes the L1 copies, and then changes no copy more. -/
theorem Dev.forward_mapped {d : Dev} {wr : LineWrite} (hw : (d.windowOf wr.addr).isSome = true) : ∃ g : Mc → Mc,
    d.forward wr = ((d.onL2 (lineNo wr.addr) (·.forwarded wr)).invalL1 (lineNo wr.addr) none).onMc g ∧
      ∀ m, (g m).l1 = m.l1 ∧ (g m).l2 = m.l2 := by
  have mapped : ¬(d.windowOf wr.addr).isNone = true := by simpa [Option.isSome_iff_ne_none] using hw
  unfold Dev.forward
  rw [if_neg mapped]
  exact ⟨_, rfl, fun m => ⟨rfl, rfl⟩⟩

theorem Dev.forward_shows {d : Dev} {wr : LineWrite} {x : L2Way} (hw : (d.windowOf wr.addr).isSome = true) (hx : d.l2Get (lineNo wr.addr) = some x) :
    (d.forward wr).l2Get (lineNo wr.addr) = some { x.forwarded wr with present := 0 } ∧
      ∀ i, i < 10 → (d.forward wr).l1Has i (lineNo wr.addr) = false := by
  obtain ⟨g, hg, copies⟩ := Dev.forward_mapped hw
  have got : (d.onL2 (lineNo wr.addr) (·.forwarded wr)).l2Get (lineNo wr.addr) = some (x.forwarded wr) := by
    rw [d.l2Get_onL2_same (lineNo wr.addr) (·.forwarded wr) fun _ => rfl, hx]
    rfl
  obtain ⟨-, has, get⟩ := (d.onL2 (lineNo wr.addr) (·.forwarded wr)).invalL1_shows (lineNo wr.addr) none
  rw [hg]
  generalize (d.onL2 (lineNo wr.addr) (·.forwarded wr)).invalL1 (lineNo wr.addr) none = shot at has get ⊢
  obtain ⟨l1, l2⟩ := copies shot.mc
  refine ⟨?_, fun i hi => ?_⟩
  · rw [Dev.l2Get_congr (d := shot) l2, get, got, Option.map_some, if_pos (Dev.l2Get_line got)]
  · have in_ : (List.range 10).contains i = true := by simpa using hi
    rw [Dev.l1Has_congr (d := shot) l1, has, in_]
    simp

/-! ## A fill delivered (R155) -/

theorem Dev.toAgent_mc (d : Dev) (agent addr : Nat) (data : List Byte) (poison : Bool) : (d.toAgent agent addr data poison).mc = d.mc := by
  have shown (e : Dev) (c : Bool) : (e.when c (·.poisonShown addr)).mc = e.mc := by
    cases c
    · rfl
    · exact (e.poisonShown_records addr).1
  exact shown (d.takeInjected Pg.seqMc Er.seqMc_poisonFill) _

section
variable {d : Dev} {rd : LineRead} {f : FillReq} (hst : d.mc.stalled = []) (hf : d.mc.fills = [f])
  (hl : f.line = lineNo rd.addr) (hs : f.store = none) (hn : d.l2Get (lineNo rd.addr) = none) (hv : d.mc.victims = []) (hm : d.mc.merging = [])

include hst hf hl hs hn hv hm

/-- A fill that one load waits for. -/
theorem Dev.fillDone_load : d.fillDone rd = (let m := (d.fillRead rd).2
    let given (e : Dev) : Dev := e.toAgent f.agent (lineNo rd.addr * 64) (d.fillRead rd).1.data (d.fillRead rd).1.hollow
    if !f.keep || d.mc.uncached || d.setDead (lineNo rd.addr) then (given m).when (!f.keep) (·.count (F.seqMcCnt 6))
    else (let placed := m.install ⟨lineNo rd.addr, (d.fillRead rd).1.data, false, (d.fillRead rd).1.hollow, if f.stream then 3 else 1, 0⟩ f.cls
          if !placed.1 then placed.2.stall { f with data := some ((d.fillRead rd).1.data, (d.fillRead rd).1.hollow) }
          else given (placed.2.fillL1 f.agent (lineNo rd.addr)))).laterDue := by
  have mc := d.fillRead_mc rd
  rw [Dev.fillDone_one hst hf hl]
  generalize d.fillRead rd = got at mc ⊢
  obtain ⟨o, m⟩ := got
  dsimp only at mc ⊢
  have absent : m.l2Get f.line = none := by
    rw [hl]
    exact (Dev.l2Get_congr (by rw [mc]) _).trans hn
  have victim : m.mc.victimOf f.line = none := by
    rw [mc, Mc.victimOf, hv]
    rfl
  have served := Dev.finishFill_load (d := m) (f := { f with data := some (o.data, o.hollow) }) hs rfl absent victim (by rw [mc]; exact hm)
  have dead : m.setDead f.line = d.setDead f.line := by
    unfold Dev.setDead
    rw [mc]
  have unc : m.mc.uncached = d.mc.uncached := by rw [mc]
  rw [served]
  dsimp only
  rw [unc, dead, hl]

variable (hla : d.mc.later = [])
include hla

theorem Dev.fillDone_delivered (hk : f.keep = false) : d.fillDone rd = ((d.fillRead rd).2.toAgent f.agent (lineNo rd.addr * 64)
    (d.fillRead rd).1.data (d.fillRead rd).1.hollow).count (F.seqMcCnt 6) := by
  rw [Dev.fillDone_load hst hf hl hs hn hv hm, hk]
  refine Dev.laterDue_idle ?_
  rw [Bool.not_false, Bool.true_or, Bool.true_or, if_pos rfl, Dev.when, if_pos rfl, Dev.count, Dev.wr_mc, Dev.toAgent_mc, d.fillRead_mc]
  exact hla

theorem Dev.fillDone_installed (hk : f.keep = true) (hu : d.mc.uncached = false) (h0 : (d.l2Set (lineNo rd.addr)).getD 0 none = none)
    (hr : (Map.get 0 d.mc.retired (lineNo rd.addr % 32768)).testBit 0 = false) : d.fillDone rd =
      (((d.fillRead rd).2.setL2 (lineNo rd.addr) ((d.l2Set (lineNo rd.addr)).set 0 (some
        ⟨lineNo rd.addr, (d.fillRead rd).1.data, false, (d.fillRead rd).1.hollow, if f.stream then 3 else 1, 0⟩))).fillL1 f.agent
          (lineNo rd.addr)).toAgent f.agent (lineNo rd.addr * 64) (d.fillRead rd).1.data (d.fillRead rd).1.hollow := by
  have mc := d.fillRead_mc rd
  have set : (d.fillRead rd).2.l2Set (lineNo rd.addr) = d.l2Set (lineNo rd.addr) := Dev.l2Set_congr (by rw [mc]) _
  have placed := Dev.install_empty (d := (d.fillRead rd).2)
    (x := ⟨lineNo rd.addr, (d.fillRead rd).1.data, false, (d.fillRead rd).1.hollow, if f.stream then 3 else 1, 0⟩)
    (by rw [set]; exact h0) (by rw [mc]; exact hr) f.cls
  rw [Dev.fillDone_load hst hf hl hs hn hv hm, hk, hu, Dev.setDead_of_way (by decide) hr]
  dsimp only
  rw [Bool.not_true, Bool.false_or, Bool.false_or, if_neg Bool.false_ne_true, placed, Bool.not_true, if_neg Bool.false_ne_true, set]
  refine Dev.laterDue_idle ?_
  obtain ⟨g, filled, later⟩ := ((d.fillRead rd).2.setL2 (lineNo rd.addr) ((d.l2Set (lineNo rd.addr)).set 0 (some
    ⟨lineNo rd.addr, (d.fillRead rd).1.data, false, (d.fillRead rd).1.hollow, if f.stream then 3 else 1, 0⟩))).fillL1_onMc f.agent (lineNo rd.addr)
  rw [Dev.toAgent_mc, filled, Dev.onMc_mc, later, Dev.setL2, Dev.onMc_mc, mc]
  exact hla

end
end Sys2Proof.Machine
end

section
/-! SUPPORT. The steps of a range operation: what it finds in its range, the lines it cleans and the copies it drops (R154, R155). -/
namespace Sys2Proof.Machine
open Sys2Proof

/-! ## Copies that go (R143, R154) -/

/-- A listed value, or the default. -/
theorem Map.get_mem {α : Type} (dflt : α) (m : Map α) (k : Nat) : Map.get dflt m k = dflt ∨ ∃ e ∈ m, e.2 = Map.get dflt m k := by
  induction m with
  | nil => exact .inl rfl
  | cons e m ih =>
    obtain ⟨j, v⟩ := e
    unfold Map.get
    split
    · exact .inr ⟨(j, v), List.mem_cons_self, rfl⟩
    · exact ih.imp_right fun ⟨e, he, h⟩ => ⟨e, List.mem_cons_of_mem _ he, h⟩

/-- The copy of a line is one of L2's lines. -/
theorem Dev.l2Get_mem {d : Dev} {line : Nat} {x : L2Way} (h : d.l2Get line = some x) : x ∈ d.mc.lines := by
  rw [Dev.l2Get_eq, lineIn] at h
  obtain ⟨o, ho, hx⟩ := List.exists_of_findSome?_eq_some h
  obtain ⟨rfl, -⟩ := Option.filter_eq_some_iff.1 hx
  obtain empty | ⟨e, he, set⟩ := Map.get_mem (List.replicate 16 none) d.mc.l2 (line % 32768)
  · rw [Dev.l2Set, empty] at ho
    cases List.eq_of_mem_replicate ho
  · rw [Dev.l2Set, ← set] at ho
    exact List.mem_filterMap.2 ⟨some x, List.mem_flatten.2 ⟨e.2, List.mem_map_of_mem he, ho⟩, rfl⟩

/-- Between `d` and `e` copies in L1 and L2 change, and nothing else. -/
def Dev.OnlyCopies (d e : Dev) : Prop := ∃ l1 l2, e = d.onMc fun m => { m with l1 := l1, l2 := l2 }

theorem Dev.OnlyCopies.refl (d : Dev) : d.OnlyCopies d := ⟨d.mc.l1, d.mc.l2, rfl⟩

theorem Dev.OnlyCopies.trans {b d e : Dev} : b.OnlyCopies d → d.OnlyCopies e → b.OnlyCopies e := by
  rintro ⟨l1, l2, rfl⟩ ⟨l1', l2', rfl⟩
  exact ⟨l1', l2', rfl⟩

theorem lineIn_filter (ways : List (Option L2Way)) (line l : Nat) :
    lineIn (ways.map (Option.filter (·.line != line))) l = if l = line then none else lineIn ways l := by
  unfold lineIn
  induction ways with
  | nil => rw [List.map_nil, List.findSome?_nil, ite_self]
  | cons o ways ih =>
    rw [List.map_cons, List.findSome?_cons, List.findSome?_cons, ih, Option.filter_filter]
    by_cases hl : l = line
    · have none_ : o.filter (fun x => x.line != line && x.line == l) = none := by
        rw [Option.filter_eq_none_iff]
        intro x _
        by_cases hx : x.line = line <;> simp [hx, hl]
      rw [none_, if_pos hl, if_pos hl]
    · have same : o.filter (fun x => x.line != line && x.line == l) = o.filter (·.line == l) := by
        congr 1
        funext x
        by_cases hx : x.line = l <;> simp [hx, hl]
      rw [same, if_neg hl, if_neg hl]

theorem Dev.dropL2_eq (d : Dev) (line : Nat) : d.dropL2 line =
    (d.invalL1 line none).setL2 line (((d.invalL1 line none).l2Set line).map (Option.filter (·.line != line))) := by
  unfold Dev.dropL2
  dsimp only
  congr 2
  funext o
  cases o with
  | none => rfl
  | some x =>
    dsimp only
    rw [Option.filter_some]
    by_cases hx : x.line = line <;> simp [hx]

theorem Dev.dropL2_shows (d : Dev) (line : Nat) : d.OnlyCopies (d.dropL2 line) ∧
    ∀ l, (d.dropL2 line).l2Get l = if l = line then none else d.l2Get l := by
  obtain ⟨⟨l1, l2, shot⟩, -, get⟩ := d.invalL1_shows line none
  rw [Dev.dropL2_eq]
  refine ⟨⟨l1, _, by rw [shot]; rfl⟩, fun l => ?_⟩
  have same : (d.invalL1 line none).l2Get l = if l = line then (d.invalL1 line none).l2Get l else d.l2Get l := by
    split
    next => rfl
    next hl =>
      rw [get]
      cases hx : d.l2Get l with
      | none => rfl
      | some x => rw [Option.map_some, if_neg (by rwa [Dev.l2Get_line hx])]
  rw [Dev.l2Get_eq, Dev.l2Set_setL2]
  split
  next h =>
    have set : (d.invalL1 line none).l2Set line = (d.invalL1 line none).l2Set l := by unfold Dev.l2Set; rw [h]
    rw [set, lineIn_filter, ← Dev.l2Get_eq, same]
    split <;> rfl
  next h =>
    have ne : l ≠ line := fun hl => h (by rw [hl])
    rw [← Dev.l2Get_eq, same, if_neg ne, if_neg ne]

theorem Dev.dropL2_foldl (xs : List L2Way) (d : Dev) : d.OnlyCopies (xs.foldl (fun (d : Dev) x => d.dropL2 x.line) d) ∧
    ∀ l, (xs.foldl (fun (d : Dev) x => d.dropL2 x.line) d).l2Get l = if l ∈ xs.map (·.line) then none else d.l2Get l := by
  induction xs generalizing d with
  | nil => exact ⟨.refl d, fun l => (if_neg List.not_mem_nil).symm⟩
  | cons x xs ih =>
    obtain ⟨first, gone⟩ := d.dropL2_shows x.line
    obtain ⟨rest, left⟩ := ih (d.dropL2 x.line)
    rw [List.foldl_cons]
    refine ⟨first.trans rest, fun l => (left l).trans ?_⟩
    rw [gone]
    by_cases hx : l = x.line <;> by_cases hl : l ∈ xs.map (·.line) <;> simp [hx, hl]

theorem inRange_iff {first count line : Nat} : inRange first count line = true ↔ first ≤ line ∧ line < first + count := by simp [inRange]

/-- A range dropped holds no line in L2, and nothing but copies and the side buffer changes. -/
theorem Dev.mcDropRange_shows (d : Dev) (first count : Nat) :
    (∃ l1 l2 side, d.mcDropRange first count = d.onMc fun m => { m with l1 := l1, l2 := l2, side := side }) ∧
      ∀ l, inRange first count l = true → (d.mcDropRange first count).l2Get l = none := by
  obtain ⟨⟨l1, l2, copies⟩, gone⟩ := Dev.dropL2_foldl (d.mc.lines.filter fun x => inRange first count x.line) d
  unfold Dev.mcDropRange
  dsimp only
  generalize (d.mc.lines.filter fun x => inRange first count x.line).foldl (fun (d : Dev) x => d.dropL2 x.line) d = e at copies gone ⊢
  refine ⟨⟨l1, l2, e.mc.side.filter (fun x => !inRange first count x.1), by rw [copies]; rfl⟩, fun l hl => ?_⟩
  refine (Dev.l2Get_congr (d := e) rfl l).trans ((gone l).trans ?_)
  cases hx : d.l2Get l with
  | none => rw [ite_self]
  | some x =>
    refine if_pos (List.mem_map.2 ⟨x, List.mem_filter.2 ⟨Dev.l2Get_mem hx, ?_⟩, Dev.l2Get_line hx⟩)
    rwa [Dev.l2Get_line hx]

/-! ## What maintenance finds in its range (R154, R155) -/

/-- Where nothing waits for a victim entry, maintenance drops prefetches and marks fills, and awaits their stores; a DISCARD awaits none. -/
theorem Dev.mcReach_shows {d : Dev} (hs : d.mc.stalled = []) (op first count : Nat) (discard : Bool) : ∃ prefetch fills owed,
    d.mcReach op first count discard = d.onMc (fun m => { m with prefetch := prefetch, fills := fills, awaited := m.awaited ++ owed }) ∧
      (d.mc.fills = [] → owed = []) := by
  unfold Dev.mcReach
  extract_lets mine met held owed noted
  have none_ : held = [] := by
    unfold held
    rw [hs]
    rfl
  rw [none_]
  have same : d.mc.stalled.filter (fun f => !mine f) = d.mc.stalled := by
    rw [hs]
    rfl
  refine ⟨noted.mc.prefetch, noted.mc.fills, owed, ?_, fun hf => ?_⟩
  · show ({ d with mc := { d.mc with
      prefetch := noted.mc.prefetch, fills := noted.mc.fills, stalled := d.mc.stalled.filter (fun f => !mine f),
      awaited := d.mc.awaited ++ owed } } : Dev) = _
    rw [same]
    rfl
  · unfold owed
    rw [hf, hs]
    rfl

/-- One dirty line written and kept clean, its acknowledgement awaited by operation `op`. -/
def Dev.cleaned (d : Dev) (x : L2Way) (op cls : Nat) : Dev :=
  (((d.writeLine (x.line * 64) x.data x.poison cls).onL2 x.line fun y => { y with dirty := false }).count (F.seqMcCnt 8)).onMc fun m =>
    { m with awaited := m.awaited ++ [(op, x.line)] }

section
variable {d : Dev} {x : L2Way}

theorem Dev.cleaned_mc (d : Dev) (x : L2Way) (op cls : Nat) : ∃ l2, (d.cleaned x op cls).mc = { d.mc with
    l2 := l2, awaited := d.mc.awaited ++ [(op, x.line)] } := by
  refine ⟨(d.cleaned x op cls).mc.l2, ?_⟩
  rw [Dev.cleaned, Dev.onMc_mc, Dev.count, Dev.wr_mc, Dev.onL2, Dev.setL2, Dev.onMc_mc, Dev.writeLine_mc]

/-- CLEAN of a range with one dirty line, and nothing in the other buffers. -/
theorem Dev.mcCleanRange_one {first count : Nat} (op cls : Nat)
    (hx : d.mc.lines.filter (fun y => y.dirty && inRange first count y.line) = [x])
    (hv : ∀ v ∈ d.mc.victims, inRange first count v.line = false) (hm : ∀ m ∈ d.mc.merging, inRange first count m.line = false) :
    d.mcCleanRange op first count cls = d.cleaned x op cls := by
  obtain ⟨l2, mc⟩ := d.cleaned_mc x op cls
  have victims : (d.cleaned x op cls).mc.victims = d.mc.victims := by rw [mc]
  have merging : (d.cleaned x op cls).mc.merging = d.mc.merging := by rw [mc]
  have noVictim : d.mc.victims.filter (fun v => inRange first count v.line) = [] := List.filter_eq_nil_iff.2 fun v h => by simp [hv v h]
  have noMerge : d.mc.merging.filter (fun v => inRange first count v.line) = [] := List.filter_eq_nil_iff.2 fun v h => by simp [hm v h]
  have kept : d.mc.victims.map (fun v => if inRange first count v.line then { v with issued := true } else v) = d.mc.victims :=
    (List.map_congr_left fun v h => by rw [hv v h]; rfl).trans (List.map_id _)
  unfold Dev.mcCleanRange
  dsimp only
  rw [hx, List.foldl_cons, List.foldl_nil, ← Dev.cleaned.eq_def]
  generalize d.cleaned x op cls = e at victims merging ⊢
  have same : (e.onMc fun m => { m with victims := m.victims.map fun v => if inRange first count v.line then { v with issued := true } else v }) =
      e := by
    show ({ e with mc := { e.mc with victims := e.mc.victims.map _ } } : Dev) = e
    rw [victims, kept, ← victims]
  rw [victims, noVictim, List.foldl_nil, same, merging, noMerge, List.foldl_nil]

theorem Dev.rd_lineWritten (d : Dev) (a : Nat) (data : List Byte) (hollow : Bool) (cls : Nat) {f : RegField} (hs : f.steady)
    (h4 : f.addr ≠ (F.cstCnt 4).addr) (h5 : f.addr ≠ (F.cstCnt 5).addr) (h8 : f.addr ≠ F.cstCnt8.addr) :
    (d.lineWritten a data hollow cls).rd f = d.rd f := by
  have counted : (d.when hollow (·.count (F.cstCnt 4))).rd f = d.rd f := by
    cases hollow
    · rfl
    · exact Dev.rd_count_other h4 d
  exact (((Dev.Tracked.refl _).touch a cls).rd f hs h5 h8).trans counted

/-- A line cleaned stands in the store, and in L2 as a clean one. -/
theorem Dev.cleaned_shows (ha : d.plat.armed = []) (hup : d.stackUp (stackOf (x.line * 64)) = true) (hx : d.l2Get x.line = some x) (op cls : Nat) :
    let e := d.cleaned x op cls
    e.lineData (x.line * 64) = padTo 64 x.data ∧ e.lineHollow (x.line * 64) = x.poison ∧ e.l2Get x.line = some { x with dirty := false } ∧
      ∀ f : RegField, f.steady → f.addr ≠ (F.cstCnt 4).addr → f.addr ≠ (F.cstCnt 5).addr → f.addr ≠ F.cstCnt8.addr →
        f.addr ≠ (F.seqMcCnt 8).addr → e.rd f = d.rd f := by
  obtain ⟨mc, -, lines⟩ := Dev.writeLine_lands hup ha x.data x.poison cls
  obtain ⟨data, hollow⟩ := lines (x.line * 64) rfl
  have rd (f : RegField) := d.rd_lineWritten (x.line * 64) x.data x.poison cls (f := f)
  rw [← Dev.writeLine_good hup ha] at rd
  unfold Dev.cleaned
  generalize d.writeLine (x.line * 64) x.data x.poison cls = m at mc data hollow rd ⊢
  have same (n : Dev) : ((n.count (F.seqMcCnt 8)).onMc fun m => { m with awaited := m.awaited ++ [(op, x.line)] }).cst = n.cst := Dev.wr_cst _ _ _
  obtain ⟨data', hollow'⟩ := Dev.line_congr (same (m.onL2 x.line fun y => { y with dirty := false })) (x.line * 64)
  refine ⟨data'.trans data, hollow'.trans hollow, ?_, fun f hs h4 h5 h8 hc => ?_⟩
  · have copies : ((m.onL2 x.line fun y => { y with dirty := false }).count (F.seqMcCnt 8)).mc =
        (m.onL2 x.line fun y => { y with dirty := false }).mc := Dev.wr_mc _ _ _
    rw [Dev.l2Get_congr (d := m.onL2 x.line fun y => { y with dirty := false }) (by rw [Dev.onMc_mc, copies]),
      m.l2Get_onL2_same x.line (fun y => { y with dirty := false }) fun _ => rfl, Dev.l2Get_congr (congrArg Mc.l2 mc), hx]
    rfl
  · rw [Dev.rd_onMc, Dev.rd_count_other hc, Dev.onL2, Dev.setL2, Dev.rd_onMc, rd f hs h4 h5 h8]

end

/-! ## An operation begun (R154) -/

/-- An operation begun: BUSY, its count shown and added to the lines of maintenance. -/
def Dev.begun (d : Dev) (count : Nat) : Dev := ((d.wr F.seqMcMaintStat_busy 1).wr F.seqMcMaintStat_done count).countN (F.seqMcCnt 13) count

/-- What an operation on `count` lines counts. -/
def Dev.Counted (d : Dev) (count : Nat) (e : Dev) : Prop :=
  e.rd (F.seqMcCnt 13) = min (2 ^ 32 - 1) (d.rd (F.seqMcCnt 13) + count) ∧ e.rd F.seqMcMaintStat_done = count

theorem Dev.begun_shows {count : Nat} (hc : count ≤ 1048576) (d : Dev) : let e := d.begun count
    e.mc = d.mc ∧ e.cst = d.cst ∧ e.plat = d.plat ∧ d.Counted count e ∧ e.flag F.seqMcMaintStat_busy = true ∧ ∀ n, e.stackUp n = d.stackUp n := by
  have okB : F.seqMcMaintStat_busy.ok := by simp [RegField.ok, F.seqMcMaintStat_busy]
  have okD : F.seqMcMaintStat_done.ok := by simp [RegField.ok, F.seqMcMaintStat_done]
  have plat : (d.begun count).plat = d.plat := by simp [Dev.begun, Dev.countN]
  refine ⟨by simp [Dev.begun, Dev.countN], by simp [Dev.begun, Dev.countN], plat, ⟨?_, ?_⟩, ?_, fun n => Dev.stackUp_congr plat ?_⟩
  · rw [Dev.begun, Dev.countN, Dev.rd_wr_same _ _ (seqMcCnt_ok 13), Dev.rd_wr_other _ _ _ _ (by decide), Dev.rd_wr_other _ _ _ _ (by decide)]
    exact Nat.mod_eq_of_lt (lt_of_le_of_lt (min_le_left _ _) (by decide))
  · rw [Dev.begun, Dev.countN, Dev.rd_wr_other _ _ _ _ (by decide), Dev.rd_wr_same _ _ okD]
    exact Nat.mod_eq_of_lt (lt_of_le_of_lt hc (by decide))
  · rw [Dev.begun, Dev.countN, Dev.flag_wr_other _ _ _ _ (by decide), Dev.flag_wr_beside _ _ _ _ okD okB (by decide), Dev.flag_one _ _ okB rfl]
  · have apart (f : RegField) (hf : f.addr < 0x300000) : (F.cstStkTrain n).addr ≠ f.addr := by
      simp only [F.cstStkTrain]
      omega
    rw [Dev.begun, Dev.countN, Dev.rd_wr_other _ _ _ _ (apart _ (by decide)), Dev.rd_wr_other _ _ _ _ (apart _ (by decide)),
      Dev.rd_wr_other _ _ _ _ (apart _ (by decide))]

section
variable {d : Dev} {a count : Nat}

theorem Dev.maintain_ignored {op : Nat} (h : d.flag F.seqMcMaintStat_busy = true ∨ count = 0 ∨ 1048576 < count) :
    d.maintain op a count = d.countIgnored Pg.seqMc 0x20810C := by
  refine if_pos ?_
  obtain h | h | h := h <;> simp [h]

variable (hb : d.flag F.seqMcMaintStat_busy = false) (h0 : 0 < count) (hc : count ≤ 1048576)
include hb h0 hc

theorem Dev.maintain_clean : d.maintain 1 a count =
    (((d.begun count).mcReach 8 (lineNo a) count false).mcCleanRange 8 (lineNo a) count 2).resume.maintProgress :=
  if_neg (by simp [hb]; omega)

theorem Dev.maintain_inv : d.maintain 2 a count = ((d.begun count).mcInvRange 8 (lineNo a) count 2).resume.maintProgress :=
  if_neg (by simp [hb]; omega)

theorem Dev.maintain_discard : d.maintain 3 a count = ((d.begun count).mcDiscardRange (lineNo a) count).resume.maintProgress :=
  if_neg (by simp [hb]; omega)

end

end Sys2Proof.Machine
end

section
/-! What arrives at the cache and goes from it, and its range operations (R146, R149, R152–R155). -/
namespace Sys2Proof.Machine
open Sys2Proof

theorem Dev.Counted.onMc {d c : Dev} {count : Nat} {g : Mc → Mc} (h : d.Counted count c) : d.Counted count (c.onMc g) := by
  unfold Dev.Counted
  rw [Dev.rd_onMc, Dev.rd_onMc]
  exact h

/-- An operation whose range is done: what it counted stands, and it is BUSY while it awaits an acknowledgement. -/
theorem Dev.ends_shows {c : Dev} (hs : c.mc.stalled = []) (hl : c.mc.later = []) : let e := c.resume.maintProgress
    (∃ draining, e.mc = { c.mc with draining := draining }) ∧ e.cst = c.cst ∧ (∀ (d : Dev) count, d.Counted count c → d.Counted count e) ∧
      (c.mc.awaited.any (·.1 == 8) = true → e.flag F.seqMcMaintStat_busy = c.flag F.seqMcMaintStat_busy) := by
  rw [Dev.resume_idle hs hl]
  obtain ⟨mc, cst, rd, done, -, still⟩ := c.maintProgress_shows
  refine ⟨mc, cst, fun d count => ?_, still⟩
  rintro ⟨lines, shown⟩
  exact ⟨(rd _ (by decide) fun w => by simp only [F.seqMcCnt, F.seqMcWinStat_draining]; omega).trans lines, done.trans shown⟩

/-- A range cleaned by an operation just begun. -/
def Dev.rangeCleaned (d : Dev) (a count : Nat) : Dev :=
  ((d.begun count).mcReach 8 (lineNo a) count false).mcCleanRange 8 (lineNo a) count 2

section
variable {d : Dev} {a count : Nat} (hb : d.flag F.seqMcMaintStat_busy = false) (h0 : 0 < count) (hc : count ≤ 1048576)
  (hs : d.mc.stalled = []) (hl : d.mc.later = [])
include hb h0 hc hs hl

/-- DISCARD drops every copy of its range without a write. -/
theorem Dev.discard_shows : let e := d.maintain 3 a count
    d.Counted count e ∧ e.cst = d.cst ∧ (∀ l, inRange (lineNo a) count l = true → e.l2Get l = none) ∧
      (∀ v ∈ e.mc.victims, inRange (lineNo a) count v.line = true → v.issued = true) ∧
      (∀ m ∈ e.mc.merging, inRange (lineNo a) count m.line = false) ∧ ∀ l ∈ e.mc.hold, inRange (lineNo a) count l = false := by
  obtain ⟨mc, cst, -, counted, -, -⟩ := d.begun_shows hc
  rw [Dev.maintain_discard hb h0 hc]
  generalize d.begun count = b at mc cst counted ⊢
  obtain ⟨prefetch, fills, owed, reach, -⟩ := Dev.mcReach_shows (d := b) (by rw [mc]; exact hs) 8 (lineNo a) count true
  obtain ⟨⟨l1, l2, side, drop⟩, gone⟩ := (b.mcReach 8 (lineNo a) count true).mcDropRange_shows (lineNo a) count
  unfold Dev.mcDiscardRange
  dsimp only
  generalize (b.mcReach 8 (lineNo a) count true).mcDropRange (lineNo a) count = r at drop gone ⊢
  rw [reach] at drop
  obtain ⟨c, hr⟩ : ∃ c, c = r.onMc fun m => { m with
    victims := m.victims.filter (fun v => !inRange (lineNo a) count v.line || v.issued),
    merging := m.merging.filter (fun e => !inRange (lineNo a) count e.line),
    hold := m.hold.filter (fun l => !inRange (lineNo a) count l) } := ⟨_, rfl⟩
  obtain ⟨stalls, laters⟩ : c.mc.stalled = b.mc.stalled ∧ c.mc.later = b.mc.later := by
    rw [hr, drop, Dev.onMc_mc, Dev.onMc_mc, Dev.onMc_mc]
    exact ⟨rfl, rfl⟩
  have stalled : c.mc.stalled = [] := by rw [stalls, mc, hs]
  have later : c.mc.later = [] := by rw [laters, mc, hl]
  have copies (l : Nat) : c.l2Get l = r.l2Get l := Dev.l2Get_congr (by rw [hr, Dev.onMc_mc]) l
  have store : c.cst = b.cst := by rw [hr, drop, Dev.onMc_cst, Dev.onMc_cst, Dev.onMc_cst]
  have same : d.Counted count c := by
    rw [hr, drop]
    exact counted.onMc.onMc.onMc
  have buffers : (∀ v ∈ c.mc.victims, inRange (lineNo a) count v.line = true → v.issued = true) ∧
      (∀ m ∈ c.mc.merging, inRange (lineNo a) count m.line = false) ∧ ∀ l ∈ c.mc.hold, inRange (lineNo a) count l = false := by
    rw [hr, Dev.onMc_mc]
    refine ⟨fun v hv hin => ?_, fun m hm => ?_, fun l hl => ?_⟩
    · simpa [hin] using (List.mem_filter.1 hv).2
    · simpa using (List.mem_filter.1 hm).2
    · simpa using (List.mem_filter.1 hl).2
  rw [← hr]
  obtain ⟨⟨draining, emc⟩, ecst, shown, -⟩ := Dev.ends_shows stalled later
  refine ⟨shown d count same, ecst.trans (store.trans cst), fun l hin => ?_, ?_⟩
  · rw [Dev.l2Get_congr (d := c) (by rw [emc]), copies]
    exact gone l hin
  · rw [emc]
    exact buffers

variable {x : L2Way} (hx : d.mc.lines.filter (fun y => y.dirty && inRange (lineNo a) count y.line) = [x]) (hg : d.l2Get x.line = some x)
  (ha : d.plat.armed = []) (hf : d.mc.fills = []) (hv : ∀ v ∈ d.mc.victims, inRange (lineNo a) count v.line = false)
  (hm : ∀ m ∈ d.mc.merging, inRange (lineNo a) count m.line = false) (hup : d.stackUp (stackOf (x.line * 64)) = true)

omit hb h0 in
include hx hg ha hf hv hm hup in
/-- CLEAN's work on a range with one dirty line. -/
theorem Dev.rangeCleaned_shows : let c := d.rangeCleaned a count
    c.mc.stalled = [] ∧ c.mc.later = [] ∧ c.mc.awaited = d.mc.awaited ++ [(8, x.line)] ∧ d.Counted count c ∧
      c.flag F.seqMcMaintStat_busy = true ∧ c.lineData (x.line * 64) = padTo 64 x.data ∧ c.lineHollow (x.line * 64) = x.poison ∧
      c.l2Get x.line = some { x with dirty := false } := by
  obtain ⟨mc, cst, plat, ⟨lines, done⟩, busy, up⟩ := d.begun_shows hc
  unfold Dev.rangeCleaned
  generalize d.begun count = b at mc cst plat lines done busy up ⊢
  obtain ⟨prefetch, fills, owed, reach, none_⟩ := Dev.mcReach_shows (d := b) (by rw [mc]; exact hs) 8 (lineNo a) count false
  rw [none_ (by rw [mc]; exact hf)] at reach
  obtain ⟨r, hr⟩ : ∃ r, r = b.mcReach 8 (lineNo a) count false := ⟨_, rfl⟩
  have rmc : r.mc = { d.mc with prefetch := prefetch, fills := fills, awaited := d.mc.awaited ++ [] } := by rw [hr, reach, Dev.onMc_mc, mc]
  have rrd (f : RegField) : r.rd f = b.rd f := by rw [hr, reach, Dev.rd_onMc]
  have rplat : r.plat = b.plat := by rw [hr, reach, Dev.onMc_plat]
  rw [← hr, Dev.mcCleanRange_one 8 2 (by rw [rmc]; exact hx) (by rw [rmc]; exact hv) (by rw [rmc]; exact hm)]
  obtain ⟨l2, emc⟩ := r.cleaned_mc x 8 2
  obtain ⟨data, hollow, clean, rd⟩ := Dev.cleaned_shows (d := r) (by rw [rplat, plat]; exact ha)
    ((Dev.stackUp_congr rplat (rrd _)).trans ((up _).trans hup)) ((Dev.l2Get_congr (by rw [rmc]) _).trans hg) 8 2
  refine ⟨?_, ?_, ?_, ⟨?_, ?_⟩, ?_, data, hollow, clean⟩
  · rw [emc, rmc]
    exact hs
  · rw [emc, rmc]
    exact hl
  · rw [emc, rmc, List.append_nil]
  · rw [rd _ (seqMcCnt_steady (by decide)) (by decide) (by decide) (by decide) (by decide), rrd, lines]
  · rw [rd _ (by decide) (by decide) (by decide) (by decide) (by decide), rrd, done]
  · rw [Dev.flag, rd _ (by decide) (by decide) (by decide) (by decide) (by decide), rrd]
    exact busy

include hx hg ha hf hv hm hup

/-- CLEAN writes its dirty line and keeps it clean. -/
theorem Dev.clean_shows : let e := d.maintain 1 a count
    d.Counted count e ∧ e.lineData (x.line * 64) = padTo 64 x.data ∧ e.lineHollow (x.line * 64) = x.poison ∧
      e.l2Get x.line = some { x with dirty := false } ∧ e.mc.awaited = d.mc.awaited ++ [(8, x.line)] ∧ e.flag F.seqMcMaintStat_busy = true := by
  obtain ⟨stalled, later, awaited, counted, busy, data, hollow, clean⟩ := Dev.rangeCleaned_shows hc hs hl hx hg ha hf hv hm hup
  rw [Dev.maintain_clean hb h0 hc, ← Dev.rangeCleaned.eq_def]
  generalize d.rangeCleaned a count = c at stalled later awaited counted busy data hollow clean ⊢
  obtain ⟨⟨draining, emc⟩, ecst, kept, still⟩ := Dev.ends_shows stalled later
  obtain ⟨data', hollow'⟩ := Dev.line_congr ecst (x.line * 64)
  refine ⟨kept d count counted, data'.trans data, hollow'.trans hollow, ?_, ?_, (still ?_).trans busy⟩
  · rw [Dev.l2Get_congr (d := c) (by rw [emc]), clean]
  · rw [emc]
    exact awaited
  · rw [awaited]
    simp

/-- INV writes its dirty line and drops every copy. -/
theorem Dev.inv_shows : let e := d.maintain 2 a count
    d.Counted count e ∧ e.lineData (x.line * 64) = padTo 64 x.data ∧ (∀ l, inRange (lineNo a) count l = true → e.l2Get l = none) ∧
      e.mc.awaited = d.mc.awaited ++ [(8, x.line)] ∧ e.flag F.seqMcMaintStat_busy = true := by
  obtain ⟨stalled, later, awaited, counted, busy, data, -, -⟩ := Dev.rangeCleaned_shows hc hs hl hx hg ha hf hv hm hup
  rw [Dev.maintain_inv hb h0 hc, Dev.mcInvRange, ← Dev.rangeCleaned.eq_def]
  generalize d.rangeCleaned a count = c at stalled later awaited counted busy data ⊢
  obtain ⟨⟨l1, l2, side, drop⟩, gone⟩ := c.mcDropRange_shows (lineNo a) count
  generalize c.mcDropRange (lineNo a) count = r at drop gone ⊢
  have awaits : r.mc.awaited = d.mc.awaited ++ [(8, x.line)] := by
    rw [drop, Dev.onMc_mc]
    exact awaited
  obtain ⟨⟨draining, emc⟩, ecst, kept, still⟩ := Dev.ends_shows (c := r) (by rw [drop, Dev.onMc_mc]; exact stalled)
    (by rw [drop, Dev.onMc_mc]; exact later)
  obtain ⟨data', -⟩ := Dev.line_congr (ecst.trans (show r.cst = c.cst by rw [drop, Dev.onMc_cst])) (x.line * 64)
  refine ⟨kept d count (by rw [drop]; exact counted.onMc), data'.trans data, fun l hin => ?_, ?_,
    (still ?_).trans (by rw [drop, Dev.flag, Dev.rd_onMc]; exact busy)⟩
  · rw [Dev.l2Get_congr (d := r) (by rw [emc]), gone l hin]
  · rw [emc]
    exact awaits
  · rw [awaits]
    simp

end

/-- A range operation that is not blocked is its maintenance. -/
theorem completes_maintain {s : State} {op a count : Nat} {Q : Dev → Prop} {c : Instr}
    (hc : exec c s = .next { s with dev := s.dev.asWrite Pg.seqMc (·.maintain op a count) }) (hw : s.dev.writesBlocked = false)
    (h : Q (s.dev.maintain op a count)) : completes c s Q := by
  refine ⟨_, hc, ?_⟩
  rw [Dev.asWrite, if_neg (by rw [hw]; exact Bool.false_ne_true)]
  exact h

theorem completes_forwardedWrite {s : State} {wr : LineWrite} {Q : Dev → Prop} (hb : wr.by_ = none) (hs : wr.sram = .good)
    (hlen : wr.data.length + wr.addr % 64 ≤ 64) (h : Q ((s.dev.forward wr).storeWrite wr)) : completes (.forwardedWrite wr) s Q := by
  have whole : wr.data.take (64 - wr.addr % 64) = wr.data := List.take_of_length_le (by omega)
  refine ⟨_, rfl, ?_⟩
  rw [whole]
  beta_reduce
  rw [Dev.writeThrough_own (wr := { wr with data := wr.data }) hb hs]
  exact h

/-- Settles O32: what arrives from the store and what goes to it, by the place that waits for it; and each range operation by what it finds in its
range. -/
theorem cacheTraffic : Obligations.CacheTraffic := by
  unfold Obligations.CacheTraffic
  refine ⟨?_, ?_⟩
  · intro s rd f v m wr d line got ha hst hla
    refine ⟨?_, ?_, ?_, ?_, ?_⟩
    · intro hf hl hs hn hv hm hi
      refine ⟨fun hk => ⟨_, rfl, Dev.fillDone_delivered hst hf hl hs hn hv hm hla hk⟩,
        fun hk hu h16 h0 hr => ⟨_, rfl, Dev.fillDone_installed hst hf hl hs hn hv hm hla hk hu h0 hr⟩⟩
    · intro hp hu hn hm hs
      exact ⟨_, rfl, Dev.prefetchArrival_shows hp hu hn hm hs⟩
    · intro hv hf hup a hl
      exact ⟨_, rfl, Dev.writebackAck_shows ha hv hf hst hla hup hl⟩
    · intro hm hb hup a hl
      exact ⟨_, rfl, Dev.mergeBufDrain_shows ha hm hb hup hl⟩
    · intro x hb hg hw hlen hx full
      obtain ⟨get, shot⟩ := Dev.forward_shows hw hx
      have mc := (d.forward wr).storeWrite_mc hb
      refine completes_forwardedWrite hb hg hlen ⟨rfl, ?_, fun i hi => ?_⟩
      · exact (Dev.l2Get_congr (congrArg Mc.l2 mc) _).trans get
      · exact (Dev.l1Has_congr (congrArg Mc.l1 mc) i _).trans (shot i hi)
  · intro s a count hw d first asked counted
    have out {l : Nat} (h : inRange first count l = false) : ¬asked l := fun hl => Bool.false_ne_true (h.symm.trans (inRange_iff.2 hl))
    refine ⟨fun h => ⟨?_, ?_, ?_⟩, fun hb h0 hc hst hla => ⟨?_, fun x hx hg ha hf hv hm hup => ?_⟩⟩
    · exact completes_maintain rfl hw (Dev.maintain_ignored h)
    · exact completes_maintain rfl hw (Dev.maintain_ignored h)
    · exact completes_maintain rfl hw (Dev.maintain_ignored h)
    · obtain ⟨counted', cst, gone, victims, merging, hold⟩ := Dev.discard_shows (a := a) hb h0 hc hst hla
      exact completes_maintain rfl hw ⟨counted', cst, fun l hl => gone l (inRange_iff.2 hl), fun v hv hl => victims v hv (inRange_iff.2 hl),
        fun m hm => out (merging m hm), fun l hl => out (hold l hl)⟩
    · have hv' : ∀ v ∈ d.mc.victims, inRange first count v.line = false := fun v h => Bool.eq_false_iff.2 fun hl => hv v h (inRange_iff.1 hl)
      have hm' : ∀ m ∈ d.mc.merging, inRange first count m.line = false := fun m h => Bool.eq_false_iff.2 fun hl => hm m h (inRange_iff.1 hl)
      refine ⟨completes_maintain rfl hw (Dev.clean_shows hb h0 hc hst hla hx hg ha hf hv' hm' hup), ?_⟩
      obtain ⟨counted', data, gone, awaited, busy⟩ := Dev.inv_shows hb h0 hc hst hla hx hg ha hf hv' hm' hup
      exact completes_maintain rfl hw ⟨counted', data, fun l hl => gone l (inRange_iff.2 hl), awaited, busy⟩
end Sys2Proof.Machine
end

section
/-! SUPPORT. What work in the store keeps: a predicate of the device that the primitive steps of the store, the cache and the buffer pools keep
is kept by their reads, writes, grants, transfers and frees (R111–R120, R124, R128–R136, R143–R158). -/
namespace Sys2Proof.Machine
open Sys2Proof

/-- A register that work in the store may write: one with no shadow, outside the page headers and the pages of SFL and PAR. -/
def RegField.ofStore (f : RegField) : Prop := f.rs = false ∧ 256 ≤ f.addr % 4096 ∧ (f.addr < 0x600000 ∨ 0x800000 ≤ f.addr)

/-- The primitive steps of the store, the cache and the pools keep `R`. -/
structure KeptByStore (R : Dev → Prop) : Prop where
  records : ∀ {d : Dev} {cst bpm mc ing n out}, R d → R { d with cst := cst, bpm := bpm, mc := mc, ing := ing, freeCtr := n, out := out }
  plat : ∀ {d : Dev} {armed hi}, R d → R { d with plat := { d.plat with armed := armed, hiLive := hi } }
  wr : ∀ {d : Dev} {f : RegField} {v : Nat}, f.ofStore → R d → R (d.wr f v)
  raise : ∀ {d : Dev} {page bit info : Nat}, R d → R (d.raise page bit info)
  ignored : ∀ {d : Dev} {page info flags : Nat}, R d → R (d.countIgnored page info flags)
  fence : ∀ {d : Dev} {n : Nat} {err}, n < 4 → R d → R (d.fence (Pg.cstStk n) err)

theorem cstStkCnt_ofStore {n i : Nat} (hn : n < 4) (hi : i < 9) : (F.cstStkCnt n i).ofStore := by
  simp only [RegField.ofStore, F.cstStkCnt, true_and]; omega
theorem cstCnt_ofStore {i : Nat} (hi : i < 9) : (F.cstCnt i).ofStore := by simp only [RegField.ofStore, F.cstCnt, true_and]; omega
theorem bpmCnt_ofStore {i : Nat} (hi : i < 9) : (F.bpmCnt i).ofStore := by simp only [RegField.ofStore, F.bpmCnt, true_and]; omega
theorem seqMcCnt_ofStore {i : Nat} (hi : i < 14) : (F.seqMcCnt i).ofStore := by simp only [RegField.ofStore, F.seqMcCnt, true_and]; omega
theorem hatCnt_ofStore {i : Nat} (hi : i < 9) : (F.hatCnt i).ofStore := by simp only [RegField.ofStore, F.hatCnt, true_and]; omega

/-- A predicate that each step of a fold keeps. -/
theorem kept_foldl {R : Dev → Prop} {α : Type} {f : Dev → α → Dev} {l : List α} {d : Dev} (hf : ∀ d x, R d → R (f d x)) (h : R d) :
    R (l.foldl f d) := by
  induction l generalizing d with
  | nil => exact h
  | cons x l ih => exact ih (hf d x h)

/-- The same of a fold that carries a value along. -/
theorem kept_foldl_snd {R : Dev → Prop} {α β : Type} {f : β × Dev → α → β × Dev} {l : List α} {p : β × Dev}
    (hf : ∀ p x, R p.2 → R (f p x).2) (h : R p.2) : R (l.foldl f p).2 := by
  induction l generalizing p with
  | nil => exact h
  | cons x l ih => exact ih (hf p x h)

theorem kept_when {R : Dev → Prop} {d : Dev} {c : Bool} {f : Dev → Dev} (hf : ∀ d, R d → R (f d)) (h : R d) : R (d.when c f) := by
  unfold Dev.when
  split
  · exact hf d h
  · exact h

namespace KeptByStore

variable {R : Dev → Prop} (k : KeptByStore R) {d : Dev}
include k

theorem onCst {f : Cst → Cst} (h : R d) : R (d.onCst f) := k.records h
theorem onBpm {f : Bpm → Bpm} (h : R d) : R (d.onBpm f) := k.records h
theorem onMc {f : Mc → Mc} (h : R d) : R (d.onMc f) := k.records h
theorem onPath {s p : Nat} {f : Path → Path} (h : R d) : R (d.onPath s p f) := k.records h
theorem startFree {i : Nat} (h : R d) : R (d.startFree i) := k.records h
theorem send {m : OutMsg} (h : R d) : R (d.send m) := k.records h
theorem onL2 {line : Nat} {f : L2Way → L2Way} (h : R d) : R (d.onL2 line f) := k.records h
theorem setL1 {a line : Nat} {ways : List (Option Nat)} (h : R d) : R (d.setL1 a line ways) := k.records h
theorem setL2 {line : Nat} {ways : List (Option L2Way)} (h : R d) : R (d.setL2 line ways) := k.records h
theorem touchL1 {a line way : Nat} (h : R d) : R (d.touchL1 a line way) := k.records h
theorem stall {f : FillReq} (h : R d) : R (d.stall f) := k.records h
theorem askFill {f : FillReq} (h : R d) : R (d.askFill f) := k.records h
theorem setBufEnt {i : Nat} {x : BufEnt} (h : R d) : R (d.setBufEnt i x) := k.records h
theorem stepFree (h : R d) : R d.stepFree := k.records h
theorem poke {a : Nat} {bs : List Byte} (h : R d) : R (d.poke a bs) := k.records h
theorem putLine {a : Nat} {bs : List Byte} {hollow : Bool} (h : R d) : R (d.putLine a bs hollow) := by
  unfold Dev.putLine
  exact k.onCst (k.poke h)
theorem setGranuleValid {g : Nat} {v : Bool} (h : R d) : R (d.setGranuleValid g v) := k.records h
theorem takeInjected {page bit : Nat} (h : R d) : R (d.takeInjected page bit) := k.plat h
theorem count {f : RegField} (hf : f.ofStore) (h : R d) : R (d.count f) := k.wr hf h
theorem put64 {lo hi : RegField} {v : Nat} (hlo : lo.ofStore) (h : R d) : R (d.put64 lo hi v) := k.plat (k.wr hlo h)

/-! ## Lines -/

theorem bitmapLost {a : Nat} (h : R d) : R (d.bitmapLost a) := by
  unfold Dev.bitmapLost
  exact k.wr ⟨rfl, by decide⟩ (k.onCst (k.stepFree (k.poke (kept_foldl (fun _ _ h => k.setGranuleValid h) (k.raise (k.takeInjected h))))))

theorem bitmapRead {a : Nat} {x : SramRead} (h : R d) : R (d.bitmapRead a x) := by
  unfold Dev.bitmapRead
  split
  · exact k.bitmapLost h
  · exact h

theorem openZero {g line cls : Nat} (h : R d) : R (d.openZero g line cls) := by
  unfold Dev.openZero
  extract_lets valid made
  refine k.onCst ?_
  unfold made
  split
  · exact k.setGranuleValid h
  · split
    · exact k.setGranuleValid h
    · exact k.raise (k.count (cstCnt_ofStore (by decide)) (k.onCst (k.setGranuleValid h)))

theorem touch {a cls : Nat} (h : R d) : R (d.touch a cls) := by
  unfold Dev.touch
  extract_lets g made
  refine k.wr ⟨rfl, by decide⟩ ?_
  unfold made
  split
  · exact k.openZero h
  · exact k.onCst h

theorem parityMet {a parity : Nat} (h : R d) : R (d.parityMet a parity).2 := by
  unfold Dev.parityMet
  extract_lets n retried
  have tried : R retried := kept_when (fun _ h => k.count (cstStkCnt_ofStore (stackOf_lt a) (by decide)) (k.raise h)) h
  split
  · exact k.fence (stackOf_lt a) (k.raise (k.takeInjected tried))
  · exact tried

theorem writeLine {a : Nat} {data : List Byte} {hollow : Bool} {cls parity : Nat} (h : R d) : R (d.writeLine a data hollow cls parity) := by
  unfold Dev.writeLine
  split
  · exact h
  · have met : R (d.parityMet a parity).2 := k.parityMet h
    generalize d.parityMet a parity = p at met ⊢
    obtain ⟨failed, e⟩ := p
    dsimp -zeta only at met ⊢
    split
    · exact met
    · exact k.putLine (k.touch (k.onCst (kept_when (fun _ h => k.count (cstCnt_ofStore (by decide)) h) met)))

theorem sealLine {a : Nat} {data : List Byte} {scrub : Bool} (h : R d) : R (d.seal a data scrub) := by
  unfold Dev.seal
  extract_lets n told at_ noted
  have said : R told := by
    unfold told
    split
    · exact k.count (cstStkCnt_ofStore (stackOf_lt a) (by decide)) (k.count (cstCnt_ofStore (by decide)) (k.raise h))
    · exact k.count (cstStkCnt_ofStore (stackOf_lt a) (by decide)) (k.count (cstCnt_ofStore (by decide)) (k.raise h))
  exact k.putLine (k.put64 ⟨rfl, by decide⟩ (k.onCst said))

theorem deliver {o : Delivered} (h : R d) : R (d.deliver o).2 := kept_when (fun _ h => k.count (cstCnt_ofStore (by decide)) h) h

theorem stackRead {rd : LineRead} {scrub : Bool} (h : R d) : R (d.stackRead rd scrub).2 := by
  unfold Dev.stackRead
  extract_lets n told
  have met : R (told.parityMet rd.addr rd.parity).2 :=
    k.parityMet (kept_when (fun _ h => k.count (cstStkCnt_ofStore (stackOf_lt _) (by decide)) (k.raise h)) h)
  generalize told.parityMet rd.addr rd.parity = p at met ⊢
  obtain ⟨failed, e⟩ := p
  dsimp -zeta only at met ⊢
  split
  · exact met
  · extract_lets lost bad taken r freed
    have read : R freed := kept_when (fun _ h => k.stepFree h) (k.takeInjected met)
    split
    · exact k.sealLine read
    · split
      · exact k.putLine (k.count (cstStkCnt_ofStore (stackOf_lt _) (by decide)) (k.count (cstCnt_ofStore (by decide)) (k.raise read)))
      · exact read

theorem readRaw {rd : LineRead} (h : R d) : R (d.readRaw rd).2 := by
  unfold Dev.readRaw
  split
  · exact h
  · extract_lets mapped gone
    split
    next o e hp =>
    have read : R e := by
      split at hp
      · cases hp
        exact k.bitmapRead h
      · have got : R (mapped.stackRead rd false).2 := k.stackRead (k.bitmapRead h)
        rw [hp] at got
        exact got
    split <;> exact read

/-! ## Handles -/

theorem tableRead {by_ : Option ActBy} {x : SramRead} (h : R d) : R (d.tableRead by_ x) := by
  unfold Dev.tableRead
  split
  · exact h
  · extract_lets i
    split
    · exact k.setBufEnt (k.raise (k.takeInjected h))
    · split
      · exact k.raise h
      · exact h

theorem handleFail {bit a : Nat} (h : R d) : R (d.handleFail bit a) := k.count (bpmCnt_ofStore (by decide)) (k.raise (k.takeInjected h))

theorem readLine {rd : LineRead} (h : R d) : R (d.readLine rd).2 := by
  unfold Dev.readLine
  split
  · exact k.deliver (k.readRaw h)
  · extract_lets read
    split
    · exact k.deliver (k.handleFail (k.tableRead h))
    · exact k.deliver (k.readRaw (k.tableRead h))

/-! ## Writes -/

theorem closeMerge {m : MergeEnt} {rd : LineRead} (h : R d) : R (d.closeMerge m rd) := by
  unfold Dev.closeMerge
  extract_lets taken a mapped
  split
  · exact k.onCst h
  · have mapped' : R mapped := k.bitmapRead (k.onCst h)
    split
    next failed o e hp =>
    have read : R e := by
      split at hp
      · have met : R (mapped.parityMet a rd.parity).2 := k.parityMet mapped'
        generalize mapped.parityMet a rd.parity = p at hp met
        cases hp
        exact met
      · have got : R (mapped.stackRead { rd with addr := a } false).2 := k.stackRead mapped'
        generalize mapped.stackRead _ false = p at hp got
        cases hp
        exact got
    split
    · exact read
    · exact k.putLine (k.touch (kept_when (fun _ h => k.count (cstCnt_ofStore (by decide)) (k.raise (k.takeInjected h)))
        (k.count (cstCnt_ofStore (by decide)) read)))

theorem narrow {a : Nat} {data : List Byte} {hollow : Bool} {cls : Nat} (h : R d) : R (d.narrow a data hollow cls) := by
  unfold Dev.narrow
  extract_lets counted bytes made
  have said : R counted := kept_when (fun _ h => k.count (cstCnt_ofStore (by decide)) h) h
  split
  · exact k.onCst said
  · refine k.onCst ?_
    unfold made
    split
    · exact said
    · split
      · exact said
      · exact k.closeMerge said

theorem storeReadNow {rd : LineRead} {host : Bool} (h : R d) : R (d.storeReadNow rd host) :=
  k.send (kept_when (fun _ h => k.count (hatCnt_ofStore (by decide)) h) (k.readLine h))

theorem storeWriteNow {wr : LineWrite} (h : R d) : R (d.storeWriteNow wr) := by
  unfold Dev.storeWriteNow
  extract_lets read fault mapped
  have read' : R read := k.tableRead h
  clear_value read fault
  cases fault with
  | some bit => exact k.handleFail read'
  | none =>
    dsimp only
    split
    · exact k.writeLine (k.bitmapRead read')
    · exact k.narrow (k.bitmapRead read')

theorem invalL1 {line : Nat} {x : Option Nat} (h : R d) : R (d.invalL1 line x) := by
  unfold Dev.invalL1
  refine k.onL2 (kept_foldl (fun d i h => ?_) h)
  split
  · exact h
  · split
    · exact k.setL1 h
    · exact h

theorem forward {wr : LineWrite} (h : R d) : R (d.forward wr) := by
  unfold Dev.forward
  split
  · exact h
  · exact k.onMc (k.invalL1 (k.onL2 h))

theorem writeNow {wr : LineWrite} (h : R d) : R (d.writeNow wr) := by
  have forwarded : R (d.forwardBy wr).2 := by
    unfold Dev.forwardBy
    extract_lets read clean
    dsimp -zeta only
    split
    · exact k.tableRead h
    · exact k.forward (k.tableRead h)
  unfold Dev.writeNow
  generalize d.forwardBy wr = p at forwarded ⊢
  exact k.storeWriteNow forwarded

/-! ## A zero fill that completes -/

theorem passTo {o i target : Nat} (h : R d) : R (d.passTo o i target) := by
  unfold Dev.passTo
  extract_lets e
  split
  · exact k.setBufEnt h
  · exact h

theorem proceed {w : Waiter} (h : R d) : R (d.proceed w) := by
  cases w with
  | read rd host => exact k.storeReadNow h
  | write wr => exact k.storeWriteNow h
  | pass o i target => exact k.passTo h

theorem zeroFill {e : ZeroEnt} (h : R d) : R (d.zeroFill e) := by
  unfold Dev.zeroFill
  split
  · exact h
  · refine kept_foldl (fun d i h => ?_) h
    extract_lets a
    split
    · exact h
    · exact k.putLine h

theorem zeroFillDone {g : Nat} (h : R d) : R (d.zeroFillDone g) :=
  kept_foldl (fun _ _ h => k.proceed h) (k.onCst (kept_foldl (fun _ _ h => k.zeroFill h) h))

/-! ## The cache -/

theorem toAgent {agent a : Nat} {data : List Byte} {poison : Bool} (h : R d) : R (d.toAgent agent a data poison) :=
  k.send (kept_when (fun _ h => k.put64 ⟨rfl, by decide⟩ (k.count (seqMcCnt_ofStore (by decide)) (k.raise h))) (k.takeInjected h))

theorem fillL1 {agent line : Nat} (h : R d) : R (d.fillL1 agent line) := by
  unfold Dev.fillL1
  extract_lets ways w left
  split
  · exact k.touchL1 h
  · refine k.onL2 (k.touchL1 (k.setL1 ?_))
    unfold left
    split
    · exact k.onL2 h
    · exact h

theorem install {x : L2Way} {cls : Nat} (h : R d) : R (d.install x cls).2 := by
  unfold Dev.install
  generalize d.victimWay x.line = p
  obtain ⟨w, ways⟩ := p
  dsimp -zeta only
  split
  · exact h
  · split
    · exact k.setL2 h
    · split
      · exact k.setL2 h
      · exact k.setL2 (kept_when (fun _ h => k.onMc h) (k.invalL1 (k.setL2 h)))

theorem reinstall {v : Victim} {f : FillReq} (h : R d) : R (d.reinstall v f) := by
  unfold Dev.reinstall
  extract_lets bs
  dsimp only
  split
  · exact k.writeLine (k.onMc h)
  · split
    · exact k.install (k.onMc h)
    · exact k.stall h

theorem finishFill {f : FillReq} (h : R d) : R (d.finishFill f).2 := by
  unfold Dev.finishFill
  extract_lets a bs load merged shot
  split
  · exact h
  · have shot' : R shot := kept_when (fun _ h => k.invalL1 h) h
    clear_value shot
    split
    · dsimp only
      split
      · exact k.toAgent (kept_when (fun _ h => k.fillL1 h) shot')
      · exact k.onL2 shot'
    · dsimp only
      split
      · exact k.toAgent shot'
      · exact k.reinstall shot'
    · split
      · exact k.askFill shot'
      · extract_lets data now given
        have given' {e : Dev} (h : R e) : R (given e) := by
          unfold given
          split
          · exact k.toAgent h
          · exact h
        clear_value given
        split
        · have counted : R ((given shot).when (!f.keep) (·.count (F.seqMcCnt 6))) :=
            kept_when (fun _ h => k.count (seqMcCnt_ofStore (by decide)) h) (given' shot')
          dsimp only
          split
          · exact counted
          · exact k.writeLine counted
        · have put := k.install (x := ⟨f.line, now.1, !load, now.2, if f.stream then 3 else 1, 0⟩) (cls := f.cls) shot'
          generalize shot.install ⟨f.line, now.1, !load, now.2, if f.stream then 3 else 1, 0⟩ f.cls = p at put ⊢
          dsimp only
          split
          · exact k.stall put
          · split
            · exact given' (k.fillL1 put)
            · exact put

theorem uncachedNow {acc : CacheAcc} {w : Bool} (h : R d) : R (d.uncachedNow acc w) := by
  unfold Dev.uncachedNow
  split
  · split
    · exact k.writeLine h
    · exact k.narrow h
  · dsimp only
    exact k.toAgent (k.readLine h)

theorem uncached {acc : CacheAcc} {w : Bool} (h : R d) : R (d.uncached acc w) := by
  unfold Dev.uncached
  split
  · exact k.onMc h
  · exact k.uncachedNow h

theorem laterGo {l : List (CacheAcc × Bool)} (h : R d) : R (d.laterGo l) := by
  induction l generalizing d with
  | nil => exact h
  | cons x l ih => exact ih (k.uncached h)

theorem resumeGo {l : List FillReq} (h : R d) : R (d.resumeGo l) := by
  induction l generalizing d with
  | nil => exact h
  | cons f l ih =>
    refine ih ?_
    split
    · exact k.stall h
    · exact k.finishFill h

theorem resume (h : R d) : R d.resume := k.laterGo (k.onMc (k.resumeGo (k.onMc h)))

theorem cacheDropGranule {g : Nat} (h : R d) : R (d.cacheDropGranule g) := k.resume (k.onMc h)

/-! ## Credits and pools -/

theorem sendCredit {s p : Nat} (h : R d) : R (d.sendCredit s p) := kept_when (fun _ h => k.send h) h

theorem creditsPaid {s : Nat} (h : R d) : R (d.creditsPaid s) := by
  refine kept_foldl (fun d p h => ?_) h
  extract_lets x
  split
  · exact h
  · exact k.sendCredit (k.onPath h)

theorem creditsResume {pool : Nat} (h : R d) : R (d.creditsResume pool) := by
  refine kept_foldl (fun d s h => ?_) h
  split
  · exact k.creditsPaid h
  · exact h

/-- The levels of a pool whose page may be written. -/
theorem levelsOf {p : Nat} (hp : ∀ {e : Dev} {b v : Nat}, R e → R (e.wr ⟨0x50111C + 0x1000 * p, b, b, false⟩ v)) {none_ : Bool} (h : R d) :
    R (d.poolLevels p none_) := by
  have step {e : Dev} {now : Bool} {b bit : Nat} {w : Bool} (h : R e) :
      R ((e.wrB ⟨0x50111C + 0x1000 * p, b, b, false⟩ now).when w (·.raise (Pg.bpmPool p) bit)) := kept_when (fun _ h => k.raise h) (hp h)
  exact kept_when (fun _ h => k.creditsResume h) (hp (step (step (step h))))

theorem poolLevels {p : Nat} (hp : p < 16) {none_ : Bool} (h : R d) : R (d.poolLevels p none_) :=
  k.levelsOf (fun h => k.wr ⟨rfl, by simp only; omega, by simp only; omega⟩ h) h

theorem grant {o cls : Nat} (h : R d) : R (d.grant o cls).2 := by
  have pool : d.ownerPool o < 16 := by
    unfold Dev.ownerPool
    split <;> exact bitsOf_lt _ _ _
  unfold Dev.grant
  extract_lets p quota
  split
  · exact k.poolLevels pool (k.count (bpmCnt_ofStore (by decide)) (k.onBpm (k.setBufEnt h)))
  · exact k.poolLevels pool (kept_when (fun _ h => k.raise h) (k.raise (k.count (bpmCnt_ofStore (by decide)) h)))

theorem grantMany {o cls n : Nat} (h : R d) : R (d.grantMany o cls n).2 := by
  induction n generalizing d with
  | zero => exact h
  | succ n ih =>
    unfold Dev.grantMany
    dsimp only
    split
    · exact k.grant h
    · exact ih (k.grant h)

theorem opIgnored {bad : Bool} (h : R d) : R (d.opIgnored bad).2 :=
  k.ignored (kept_when (fun _ h => k.count (bpmCnt_ofStore (by decide)) h) (k.raise (k.takeInjected h)))

theorem bpmTransfer {o target : Nat} {buf : BufRef} (h : R d) : R (d.bpmTransfer o buf target).2 := by
  unfold Dev.bpmTransfer
  split
  · exact k.opIgnored h
  · extract_lets e
    split
    · dsimp only
      split
      · exact k.onCst h
      · exact k.passTo h
    · exact k.opIgnored h

theorem bpmFree {o : Nat} {buf : BufRef} (h : R d) : R (d.bpmFree o buf).2 := by
  unfold Dev.bpmFree
  split
  · exact k.opIgnored h
  · extract_lets e
    split
    · exact k.opIgnored h
    · split
      · split
        · split
          · exact k.count (bpmCnt_ofStore (by decide)) (k.setBufEnt h)
          · exact k.opIgnored h
        · exact k.opIgnored h
      · split
        · exact k.startFree h
        · exact k.opIgnored h

/-- A FREE that completes, where the pages of the pools may be written: an entry names its pool by any number. -/
theorem freeNow (hp : ∀ {e : Dev} {p b v : Nat}, R e → R (e.wr ⟨0x50111C + 0x1000 * p, b, b, false⟩ v)) {i : Nat} (h : R d) :
    R (d.freeNow i) :=
  k.levelsOf hp (k.count (bpmCnt_ofStore (by decide)) (k.setBufEnt (k.onBpm (k.wr ⟨rfl, by decide⟩ (k.onCst (k.cacheDropGranule
    (kept_when (fun _ h => k.zeroFillDone h) h)))))))

theorem freeBuf (hp : ∀ {e : Dev} {p b v : Nat}, R e → R (e.wr ⟨0x50111C + 0x1000 * p, b, b, false⟩ v)) {o b : Nat} (h : R d) :
    R (d.freeBuf o b) := by
  unfold Dev.freeBuf
  dsimp only
  split
  · exact k.freeNow hp (k.bpmFree h)
  · exact k.bpmFree h

/-! ## Tables and buffers of the flash side -/

theorem putTable {b : Option Nat} {ofs : Nat} {bs : List Byte} (h : R d) : R (d.putTable b ofs bs) := by
  cases b with
  | none => exact h
  | some b =>
    unfold Dev.putTable
    exact k.writeNow h

theorem showRow {r : Nat} (h : R d) : R (d.showRow r) := by
  unfold Dev.showRow
  split
  · exact h
  · extract_lets ids n
    split
    · exact k.putTable h
    · exact h

theorem bufTake {o reg b ofs len : Nat} (h : R d) : R (d.bufTake o reg b ofs len).2.2 := by
  have read : R ((List.range (len / 64)).foldl (fun (acc : List (Nat × Delivered) × Dev) i =>
    let at_ := ofs + 64 * i
    let (x, d) := acc.2.readLine { cleanRead (handleAddr b + at_) with by_ := some ⟨b, o, reg⟩ }
    ((at_, x) :: acc.1, d)) ([], d)).2 := kept_foldl_snd (fun _ _ h => k.readLine h) h
  exact read

theorem accAdd {b c : Nat} {m : Map Byte} {cls : Nat} (h : R d) : R (d.accAdd b c m cls) := by
  refine kept_foldl (fun d i h => ?_) h
  dsimp only
  exact k.writeNow (k.readLine h)

theorem stripeAdd {r s pos : Nat} {m : Map Byte} (h : R d) : R (d.stripeAdd r s pos m) := by
  unfold Dev.stripeAdd
  split
  · exact kept_foldl (fun _ _ h => k.accAdd h) h
  · exact h

end KeptByStore
end Sys2Proof.Machine
end

section
/-! SUPPORT. What the work of the map engine keeps, layer by layer: the journal, the slots of the stripe journal, the rows and tables, programs
and stripes, copies written again, and stripes examined at the rebuild (R168, R175, R178–R184, R192–R199, R216–R224). Each layer names its
primitive steps, and its operations keep what those keep. -/
namespace Sys2Proof.Machine
open Sys2Proof

/-- What a step answers beside a value. -/
theorem kept_answer {R : Dev → Prop} {α : Type} {p : α × Dev} {a : α} {e : Dev} (hp : p = (a, e)) (h : R p.2) : R e := by
  rw [hp] at h
  exact h

/-! ## The journal -/

/-- The primitive steps of the journal keep `R`. -/
structure KeptByJournal (R : Dev → Prop) : Prop extends KeptByStore R where
  book : ∀ {d : Dev} {q : Sfl → Nat} {b : Sfl → List JEnt} {t : Sfl → Nat}, R d →
    R (d.onSfl fun s => { s with seq := q s, jbuf := b s, lastFlush := t s })
  caughtUp : ∀ {d : Dev} {r}, R d → R (d.onSfl fun s => { s with rows := Map.modify RowEnt.reset s.rows r fun e => { e with wptrJ := e.wptr } })
  ring : ∀ {d : Dev} {ring head}, R d → R { d with mram := { d.mram with ring := ring, ringHead := head } }
  seqLo : ∀ {d : Dev} {v}, R d → R (d.wr F.sflSeqLo v)
  ringUsed : ∀ {d : Dev} {v}, R d → R (d.wr F.sflJrnStat_used v)

theorem pltMramCnt_ofStore : (F.pltMramCnt 2).ofStore := ⟨rfl, by decide⟩

namespace KeptByJournal

variable {R : Dev → Prop} (k : KeptByJournal R) {d : Dev}
include k

theorem showSeq (h : R d) : R d.showSeq := k.plat (k.seqLo h)

theorem takeSeq (h : R d) : R d.takeSeq.2 := k.showSeq (k.book h)

theorem jmake {ty flags keyf value dseq : Nat} (h : R d) : R (d.jmake ty flags keyf value dseq).2 := k.takeSeq h

theorem showRing (h : R d) : R d.showRing := by
  unfold Dev.showRing
  extract_lets used shown
  split
  · exact k.raise (k.ringUsed h)
  · exact k.ringUsed h

theorem ringPut {es : List JEnt} (h : R d) : R (d.ringPut es).2 := k.showRing (k.wr pltMramCnt_ofStore (k.ring h))

theorem jflush (h : R d) : R d.jflush := by
  unfold Dev.jflush
  extract_lets changed
  have made : R (changed.foldl (fun (acc : List JEnt × Dev) e =>
      let (x, d) := acc.2.jmake 5 0 e.1 e.2.wptr 0
      (acc.1 ++ [x], d.onRow e.1 fun r => { r with wptrJ := r.wptr })) ([], d)).2 :=
    kept_foldl_snd (fun _ _ h => k.showRow (k.caughtUp (k.jmake h))) h
  generalize changed.foldl _ _ = p at made ⊢
  exact k.book (k.ringPut made)

theorem journal {ty flags keyf value dseq : Nat} (h : R d) : R (d.journal ty flags keyf value dseq).2 := by
  have put : R ((d.jmake ty flags keyf value dseq).2.onSfl fun s => { s with jbuf := s.jbuf ++ [(d.jmake ty flags keyf value dseq).1] }) :=
    k.book (k.jmake h)
  unfold Dev.journal
  dsimp only
  split
  · exact k.jflush put
  · exact put

end KeptByJournal

/-! ## The slots of the stripe journal -/

/-- The primitive steps of the stripe journal keep `R`. -/
structure KeptBySlots (R : Dev → Prop) : Prop extends KeptByJournal R where
  par : ∀ {d : Dev} {p}, R d → R { d with par := p }
  banks : ∀ {d : Dev} {a b}, R d → R { d with mram := { d.mram with bankA := a, bankB := b } }
  sjStat : ∀ {d : Dev} {hi lo v}, R d → R (d.wr ⟨0x709104, hi, lo, false⟩ v)

namespace KeptBySlots

variable {R : Dev → Prop} (k : KeptBySlots R) {d : Dev}
include k

theorem onPar {f : Par → Par} (h : R d) : R (d.onPar f) := k.par h

theorem bankFail {b : Nat} (h : R d) : R (d.bankFail b) := by
  unfold Dev.bankFail
  extract_lets gone said
  have gone' : R gone := by
    unfold gone
    split
    · exact k.sjStat h
    · exact k.sjStat h
  split
  · exact k.raise gone'
  · exact k.raise (k.raise gone')

theorem sjFlush {a b : Bool} (h : R d) : R (d.sjFlush a b) := by
  unfold Dev.sjFlush
  split
  · exact h
  · extract_lets ws inj taken first both
    have taken' : R taken := k.takeInjected h
    clear_value taken inj
    have first' : R first := by
      unfold first
      split
      · split
        · exact k.bankFail taken'
        · exact k.wr pltMramCnt_ofStore (k.banks taken')
      · exact taken'
    clear_value first
    have both' : R both := by
      unfold both
      split
      · split
        · exact k.bankFail first'
        · exact k.wr pltMramCnt_ofStore (k.banks first')
      · exact first'
    split
    · exact k.onPar both'
    · exact both'

theorem sjPut {n : Nat} {s : Slot} (h : R d) : R (d.sjPut n s) :=
  kept_when (fun _ h => k.sjFlush h) (k.sjStat (k.onPar (k.takeSeq h)))

theorem sjClear {n : Nat} (h : R d) : R (d.sjClear n) := k.sjPut h

theorem sjNew {s : Slot} (h : R d) : R (d.sjNew s).2 := by
  unfold Dev.sjNew
  split
  · exact k.sjPut h
  · exact k.raise h

theorem lostSlot {set ch ce lun cause row stripe pos : Nat} (h : R d) : R (d.lostSlot set ch ce lun cause row stripe pos) := k.sjNew h

end KeptBySlots

/-! ## LOST positions and sets that end -/

/-- The primitive steps that clear LOST LUNs and drop sets keep `R`. -/
structure KeptBySets (R : Dev → Prop) : Prop extends KeptBySlots R where
  lostLuns : ∀ {d : Dev} {m : Sfl → Map Nat}, R d → R (d.onSfl fun s => { s with lostLuns := m s })
  setState : ∀ {d : Dev} {s v}, R d → R (d.wr (F.parSetStat_state s) v)
  setOff : ∀ {d : Dev} {s}, R d → R ((d.wr (F.parSetCfg_en s) 0).wr (F.parSetMem s) 0)

namespace KeptBySets

variable {R : Dev → Prop} (k : KeptBySets R) {d : Dev}
include k

theorem lostClear (h : R d) : R d.lostClear := by
  unfold Dev.lostClear
  split
  · exact h
  · refine kept_foldl (fun d s h => ?_) (kept_foldl (fun d e h => ?_) (k.lostLuns h))
    · split
      · exact k.setState h
      · exact h
    · extract_lets ch cause done
      split
      · exact k.sjClear h
      · exact h

theorem dropBack (h : R d) : R d.dropBack := by
  refine kept_foldl (fun d e h => ?_) h
  split
  · exact k.onPar (k.setState (k.setOff h))
  · exact h

end KeptBySets

/-! ## Rows and tables -/

/-- The primitive steps on the row table keep `R`. -/
structure KeptByRows (R : Dev → Prop) : Prop extends KeptByStore R where
  rows : ∀ {d : Dev} {m : Sfl → Map RowEnt}, R d → R (d.onSfl fun s => { s with rows := m s })
  validLo : ∀ {d : Dev} {v}, R d → R (d.wr F.sflValidLo v)

namespace KeptByRows

variable {R : Dev → Prop} (k : KeptByRows R) {d : Dev}
include k

theorem onRow {r : Nat} {f : RowEnt → RowEnt} (h : R d) : R (d.onRow r f) := k.showRow (k.rows h)

theorem rowsBuild {s : Nat} (h : R d) : R (d.rowsBuild s) := by
  refine kept_foldl (fun d r h => ?_) h
  extract_lets e
  split
  · exact k.onRow h
  · exact k.showRow h

theorem validBy {e : Nat} {up : Bool} (h : R d) : R (d.validBy e up) := by
  unfold Dev.validBy
  split
  · exact h
  · extract_lets v counted
    have counted' : R counted := k.plat (k.validLo h)
    split
    · exact k.onRow counted'
    · exact counted'

theorem dirValid {x : Nat} {up : Bool} (h : R d) : R (d.dirValid x up) := by
  unfold Dev.dirValid
  split
  · exact h
  · split
    · exact k.onRow h
    · exact h

theorem countParts {ps : List Nat} {up : Bool} (h : R d) : R (d.countParts ps up) := by
  refine kept_foldl (fun d p h => ?_) h
  split
  · exact k.onRow h
  · exact h

end KeptByRows

/-- The primitive steps that grant tables keep `R`. -/
structure KeptByTables (R : Dev → Prop) : Prop extends KeptByRows R where
  bufs : ∀ {d : Dev} {m a : Sfl → List Nat} {b : Sfl → Map (List Nat)}, R d →
    R (d.onSfl fun s => { s with mapBufs := m s, dirBufs := a s, rowBufs := b s })
  mapBase : ∀ {d : Dev} {v}, R d → R (d.wr F.sflMapBase v)
  dirBase : ∀ {d : Dev} {v}, R d → R (d.wr F.sflDirBase v)

namespace KeptByTables

variable {R : Dev → Prop} (k : KeptByTables R) {d : Dev}
include k

theorem moreBufs {hs : List Nat} {need : Nat} (h : R d) : R (d.moreBufs hs need).2 := k.grantMany h

theorem tablesGrant (h : R d) : R d.tablesGrant := by
  unfold Dev.tablesGrant
  extract_lets on
  split
  · exact h
  · split
    rename_i hs e hp
    extract_lets paged
    have paged' : R paged := k.mapBase (k.bufs (kept_answer hp (k.moreBufs h)))
    split
    rename_i hs e hp
    refine kept_foldl (fun d s h => ?_) (k.dirBase (k.bufs (kept_answer hp (k.moreBufs paged'))))
    split
    rename_i hs e hp
    exact k.rowsBuild (k.bufs (kept_answer hp (k.moreBufs h)))

end KeptByTables

/-! ## Programs and stripes -/

/-- The primitive steps of programs and stripes keep `R`. -/
structure KeptByPrograms (R : Dev → Prop) : Prop extends KeptBySlots R, KeptByRows R where
  plans : ∀ {d : Dev} {x : Sfl → List Stripe} {p : Sfl → List Prog} {w : Sfl → Bool}, R d →
    R (d.onSfl fun s => { s with stripes := x s, progs := p s, parWait := w s })
  pools : ∀ {d : Dev} {p b v : Nat}, R d → R (d.wr ⟨0x50111C + 0x1000 * p, b, b, false⟩ v)
  gcDst : ∀ {d : Dev} {v}, R d → R (d.wr F.sflGcDst v)
  parCnt : ∀ {d : Dev} {i v}, i < 16 → R d → R (d.wr (F.parCnt i) v)
  parSetCnt : ∀ {d : Dev} {s i v}, i < 16 → R d → R (d.wr (F.parSetCnt s i) v)

namespace KeptByPrograms

variable {R : Dev → Prop} (k : KeptByPrograms R) {d : Dev}
include k

theorem freed {o b : Nat} (h : R d) : R (d.freeBuf o b) := k.freeBuf (fun h => k.pools h) h

theorem grantAll {o cls n : Nat} (h : R d) : R (d.grantAll o cls n).2 := by
  unfold Dev.grantAll
  dsimp only
  split
  · exact k.grantMany h
  · exact kept_foldl (fun _ _ h => k.freed h) (k.grantMany h)

theorem openNew {s role : Nat} (h : R d) : R (d.openNew s role).2 := by
  unfold Dev.openNew
  split
  · exact h
  · split
    · exact h
    · dsimp only
      split
      · exact k.gcDst (k.onRow (k.journal (k.onRow h)))
      · exact k.onRow (k.journal (k.onRow h))

theorem closeRow {r : Nat} (h : R d) : R (d.closeRow r) := by
  unfold Dev.closeRow
  split
  · exact k.journal (k.onRow h)
  · exact h

theorem onStripe {r s : Nat} {f : Stripe → Stripe} (h : R d) : R (d.onStripe r s f) := k.plans h

theorem dropStripe {r s : Nat} (h : R d) : R (d.dropStripe r s) := k.plans h

theorem startProg {r pua : Nat} {u : FUnit} {why : ProgFor} (h : R d) : R (d.startProg r pua u why).2 := by
  have took := k.takeSeq h
  unfold Dev.startProg
  generalize d.takeSeq = q at took ⊢
  obtain ⟨q, e⟩ := q
  dsimp only at took ⊢
  exact k.plans took

theorem newAcc {s cls : Nat} (h : R d) : R (d.newAcc s cls).2 := by
  unfold Dev.newAcc
  split
  · exact h
  · have got := k.grantAll (o := 35) (cls := cls) (n := d.nPar s) h
    generalize d.grantAll 35 cls (d.nPar s) = p at got ⊢
    obtain ⟨hs, e⟩ := p
    dsimp only at got ⊢
    exact k.plans got

theorem nextPlace {s role : Nat} (h : R d) : R (d.nextPlace s role).2 := by
  unfold Dev.nextPlace
  split
  rename_i row e hp
  have opened : R e := by
    refine kept_answer hp ?_
    split
    · exact h
    · exact k.openNew h
  split
  · exact opened
  · split
    · exact opened
    · extract_lets n
      split
      · exact opened
      · split
        rename_i acc e hp
        have got : R e := kept_answer hp (k.newAcc opened)
        split
        · exact got
        · extract_lets mask
          split
          rename_i slot e hp
          have took : R e := kept_answer hp (k.sjNew got)
          split
          · exact kept_foldl (fun _ _ h => k.freed h) took
          · extract_lets advanced placed
            have placed' : R placed := k.plans (k.onRow took)
            exact placed'

theorem placeAt {r s p : Nat} {u : FUnit} {why : ProgFor} (h : R d) : R (d.placeAt r s p u why).2.2 :=
  k.startProg (k.stripeAdd (k.onStripe h))

theorem place {s role : Nat} {u : FUnit} {why : ProgFor} (h : R d) : R (d.place s role u why).2 := by
  have got := k.nextPlace (s := s) (role := role) h
  unfold Dev.place
  generalize d.nextPlace s role = p at got ⊢
  obtain ⟨at_, e⟩ := p
  dsimp only at got ⊢
  split
  · exact got
  · exact k.placeAt got

theorem padStripe {r s : Nat} (h : R d) : R (d.padStripe r s) := by
  unfold Dev.padStripe
  split
  · exact h
  · split
    · exact h
    · refine kept_foldl (fun d p h => ?_) h
      exact k.parSetCnt (by decide) (k.parCnt (by decide) (k.startProg (k.onStripe h)))

theorem parityProg {r s hol : Nat} {e : Nat × Nat × Nat} (h : R d) : R (d.parityProg r s hol e) :=
  k.startProg (k.bufTake (k.bpmTransfer h))

theorem startParity {r s : Nat} (h : R d) : R (d.startParity r s) := by
  unfold Dev.startParity
  split
  · exact h
  · split
    · exact h
    · exact kept_foldl (fun _ _ h => k.parityProg h) (k.onStripe h)

theorem freeAcc {r s : Nat} (h : R d) : R (d.freeAcc r s) := by
  unfold Dev.freeAcc
  split
  · exact h
  · exact k.onStripe (kept_foldl (fun _ _ h => k.freed h) h)

theorem showWptr {r : Nat} (h : R d) : R (d.showWptr r) := by
  unfold Dev.showWptr
  extract_lets low shown
  split
  · exact k.closeRow (k.onRow h)
  · exact k.onRow h

theorem rootCopy {c : Ckpt} {parts : List Nat} (h : R d) : R (d.rootCopy c parts) := by
  unfold Dev.rootCopy
  split
  · exact h
  · exact k.place h

end KeptByPrograms

/-! ## Copies written again -/

/-- The primitive steps of map pages, jobs, checkpoints and bad blocks keep `R`. -/
structure KeptByRewrites (R : Dev → Prop) : Prop extends KeptByPrograms R where
  work : ∀ {d : Dev} {js : Sfl → List Job} {n : Sfl → Nat} {c : Sfl → Option Ckpt} {rm : Sfl → List Nat}
    {os : Sfl → List (Nat × Nat × Nat)} {dir : Sfl → Map Nat} {m : Sfl → Map MSlot}, R d → R (d.onSfl fun s => { s with
    jobs := js s, nextJob := n s, ckpt := c s, remap := rm s, outs := os s, dir := dir s, mctt := m s })
  badBlocks : ∀ {d : Dev} {m}, R d → R { d with mram := { d.mram with badBlocks := m } }
  ckptOn : ∀ {d : Dev} {v}, R d → R (d.wr F.sflJrnStat_ckpt v)
  sflCnt : ∀ {d : Dev} {i v}, i < 16 → R d → R (d.wr (F.sflCnt i) v)
  dirty : ∀ {d : Dev} {v}, R d → R (d.wr F.sflMapStat_dirty v)
  pinned : ∀ {d : Dev} {v}, R d → R (d.wr F.sflMapStat_pinned v)
  grown : ∀ {d : Dev} {ch ce v}, ce < 8 → R d → R (d.wr (F.sflFcCe_grown ch ce) v)
  fcCnt : ∀ {d : Dev} {ch i v}, i < 8 → R d → R (d.wr (F.sflFcCnt ch i) v)

namespace KeptByRewrites

variable {R : Dev → Prop} (k : KeptByRewrites R) {d : Dev}
include k

theorem addJob {j : Job} (h : R d) : R (d.addJob j).2 := by
  unfold Dev.addJob
  dsimp only
  exact k.work h

theorem onJob {id : Nat} {f : Job → Job} (h : R d) : R (d.onJob id f) := k.work h

theorem onMslot {s : Nat} {f : MSlot → MSlot} (h : R d) : R (d.onMslot s f) := k.work h

theorem ckptStart (h : R d) : R d.ckptStart := by
  unfold Dev.ckptStart
  split
  · exact h
  · refine k.ckptOn (k.work (kept_foldl (fun _ _ h => k.journal h) (kept_foldl (fun d e h => ?_) (k.takeSeq (k.jflush h)))))
    extract_lets _ reopened
    have reopened' : R reopened := by
      unfold reopened
      split
      · exact k.journal (k.journal h)
      · exact h
    split
    · exact k.journal reopened'
    · exact reopened'

theorem rewriteSys {p : Nat} {t : Tag} (h : R d) : R (d.rewriteSys p t) := by
  unfold Dev.rewriteSys
  split
  · exact k.work h
  · split
    · extract_lets e
      split
      · exact k.ckptStart (k.work h)
      · exact k.work h
    · exact h

theorem rewrite {at_ : Nat → Bool} {failed : Option Nat} (h : R d) : R (d.rewrite at_ failed) := by
  unfold Dev.rewrite
  refine kept_foldl (fun d e h => ?_) (kept_foldl (fun _ _ h => k.onJob h) h)
  split
  · split
    · exact k.addJob h
    · exact h
  · exact k.rewriteSys h

theorem endStripe {r s : Nat} (h : R d) : R (d.endStripe r s) := by
  unfold Dev.endStripe
  split
  · exact h
  · extract_lets
    split
    · exact h
    · split
      · exact k.showWptr (k.parCnt (by decide) (k.sjClear (k.dropStripe (k.freeAcc h))))
      · exact k.rewrite (k.raise (k.parSetCnt (by decide) (k.parCnt (by decide) (k.onStripe (k.freeAcc h)))))

theorem dirSet {p e : Nat} (h : R d) : R (d.dirSet p e) := k.putTable (k.work h)

theorem showMap (h : R d) : R d.showMap := k.pinned (k.dirty h)

theorem mapWritten {p half pua w : Nat} (h : R d) : R (d.mapWritten p half pua w) := by
  unfold Dev.mapWritten
  split
  · exact h
  · extract_lets x e from_ named
    have noted : R (named.journal 2 0 p e w).2 := k.journal (k.dirSet (k.dirValid (k.dirValid h)))
    generalize named.journal 2 0 p e w = q at noted ⊢
    obtain ⟨q, d⟩ := q
    dsimp -zeta only at noted ⊢
    extract_lets moved
    have moved' : R moved := k.work (k.sflCnt (by decide) noted)
    split
    · exact k.showMap (k.onMslot moved')
    · exact moved'

theorem retireBlock {pua cause : Nat} (h : R d) : R (d.retireBlock pua cause) := by
  unfold Dev.retireBlock
  extract_lets ch ce b noted counted shown grown
  split
  · exact h
  · have shown' : R shown := k.grown (Nat.mod_lt _ (by decide)) (k.sflCnt (by decide) (k.wr pltMramCnt_ofStore (k.badBlocks (k.journal h))))
    split
    · exact k.raise shown'
    · exact shown'

end KeptByRewrites
end Sys2Proof.Machine
end

section
/-! SUPPORT. What the steps of the store keep: the records of SFL, the fields of SFL and PAR, the values in force, errors that show, the MRAM but
for its logs, and the states of the units that are no buffer owners. -/
namespace Sys2Proof.Machine
open Sys2Proof

theorem Dev.fence_keeps {R : Dev → Prop} (hb : ∀ {d : Dev} {u err}, R d → R (d.fenceBegun u err)) {d : Dev} {u : Nat} {err : Option (Nat × Nat)}
    (h : R d) : R (d.fence u err) := by
  have one {d : Dev} {u : Nat} (h : R d) : R (d.fence1 u err) := by
    obtain e | e := d.fence1_cases u err
    · rwa [e]
    · rw [e]
      exact hb h
  unfold Dev.fence
  extract_lets e
  split
  · exact one (one h)
  · exact one h

@[simp] theorem Dev.raise_sfl (d : Dev) (page bit info : Nat) : (d.raise page bit info).sfl = d.sfl := by
  obtain ⟨-, -, -, -, h, -⟩ := d.raise_sameRegions page bit info
  exact h

theorem Dev.countIgnored_sfl (d : Dev) (page info flags : Nat) : (d.countIgnored page info flags).sfl = d.sfl := by
  obtain ⟨-, -, -, -, h, -⟩ := d.countIgnored_sameRegions page info flags
  exact h

/-- The MRAM but for its logs. -/
def Mram.unlogged (m : Mram) : Mram := { m with chipLog := ⟨[], 0⟩, eventLog := ⟨[], 0⟩, accessLog := ⟨[], 0⟩ }

theorem Dev.raise_unlogged (d : Dev) (page bit info : Nat) : (d.raise page bit info).mram.unlogged = d.mram.unlogged := by
  obtain ⟨r, e, -, -, hm, -, heq⟩ := d.report_steps page bit (d.errLevel page bit) info
  rw [Dev.raise, heq]
  split <;> split <;> simp [Dev.logEvent, Dev.logChip, Dev.event_mram, hm, Mram.unlogged]

theorem Dev.countIgnored_unlogged (d : Dev) (page info flags : Nat) : (d.countIgnored page info flags).mram.unlogged = d.mram.unlogged := by
  obtain ⟨r, h⟩ := d.countIgnored_steps page info flags
  rw [h, Dev.raise_unlogged, Dev.logAccess, Dev.mramPut_mram]
  simp only [Mram.unlogged, Dev.setRaw]

/-- An error that shows stays when an access is counted anywhere. -/
theorem Dev.errorShows_countIgnored_any {d : Dev} {page bit : Nat} (hb : bit < 32) (h : d.errorShows page bit) (p info flags : Nat) :
    (d.countIgnored p info flags).errorShows page bit := by
  have h1 := pageOf_mod p
  have h2 := pageOf_mod page
  obtain ⟨r, hr⟩ := d.countIgnored_steps p info flags
  rw [hr]
  refine Dev.raise_errorShows_still _ _ _ _ hb ?_
  rw [Dev.errorShows, Dev.logAccess, Dev.raw_mramPut_header (by omega), Dev.raw_setRaw_other _ _ _ _ (by omega)]
  exact h

theorem keptByStore_sfl (P : Sfl → Prop) : KeptByStore fun e => P e.sfl where
  records h := h
  plat h := h
  wr _ h := by rwa [Dev.wr_sfl]
  raise h := by rwa [Dev.raise_sfl]
  ignored h := by rwa [Dev.countIgnored_sfl]
  fence _ h := Dev.fence_keeps (R := fun e => P e.sfl) (fun h => h) h

/-- A field of SFL or PAR. -/
def RegField.ofFlash (f : RegField) : Prop := f.steady ∧ 0x600000 ≤ f.addr ∧ f.addr < 0x800000

theorem keptByStore_rd {f : RegField} (hf : f.ofFlash) (P : Nat → Prop) : KeptByStore fun e => P (e.rd f) where
  records h := h
  plat h := h
  wr {d g v} hg h := by
    obtain ⟨-, hlo, hhi⟩ := hf
    obtain ⟨-, -, out⟩ := hg
    rwa [Dev.rd_wr_other d g f v (by omega)]
  raise h := by rwa [Dev.rd_raise hf.1]
  ignored h := by rwa [Dev.rd_countIgnored hf.1]
  fence _ h := by rwa [Dev.fence_rd]

theorem keptByStore_force (P : Map Word → Prop) : KeptByStore fun e => P e.force where
  records h := h
  plat h := h
  wr {d f v} hf h := by rwa [Dev.wr_force hf.1]
  raise {d page bit info} h := by rwa [(d.raise_beside page bit info).force]
  ignored {d page info flags} h := by rwa [(d.countIgnored_beside page info flags).force]
  fence _ h := Dev.fence_keeps (R := fun e => P e.force) (fun h => h) h

theorem keptByStore_errorShows {page bit : Nat} (hb : bit < 32) : KeptByStore fun e => e.errorShows page bit where
  records h := h
  plat h := h
  wr hf h := (Dev.errorShows_wr _ hf.2.1 _ _ _).mpr h
  raise h := Dev.raise_errorShows_still _ _ _ _ hb h
  ignored h := Dev.errorShows_countIgnored_any hb h _ _ _
  fence _ h := Dev.fence_keeps (R := fun e => e.errorShows page bit) (fun h => h) h

theorem keptByStore_mram (P : Mram → Prop) (hP : ∀ m n : Mram, n.unlogged = m.unlogged → P m → P n) : KeptByStore fun e => P e.mram where
  records h := h
  plat h := h
  wr _ h := by rwa [Dev.wr_mram]
  raise h := hP _ _ (Dev.raise_unlogged ..) h
  ignored h := hP _ _ (Dev.countIgnored_unlogged ..) h
  fence _ h := Dev.fence_keeps (R := fun e => P e.mram) (fun h => h) h

/-- The units of the buffer owners have no page where `m` is. -/
def notOwner (m : Nat) : Prop := ∀ o < 64, m ≠ 0x520000 + 0x1000 * o

theorem get_ownersFenced {m : Nat} (hm : notOwner m) (dflt : UnitSt) {os : List Nat} (ho : ∀ o ∈ os, o < 64) (units : Map UnitSt) :
    Map.get dflt (ownersFenced units os) m = Map.get dflt units m := by
  induction os generalizing units with
  | nil => rfl
  | cons o os ih =>
    have rest := ih (fun x hx => ho x (List.mem_cons_of_mem _ hx)) (Map.put units (0x520000 + 0x1000 * o) .fenced)
    exact rest.trans (by rw [Map.get_put, if_neg (hm o (ho o List.mem_cons_self))])

theorem Dev.unitAt_fenceBegun {page u : Nat} (hm : notOwner (masterOf page)) {d : Dev} (ho : ∀ o ∈ d.fenceOwners u, o < 64)
    (err : Option (Nat × Nat)) : (d.fenceBegun u err).unitAt page = d.unitAt page := get_ownersFenced hm _ ho _

theorem kindAt_stack : ∀ n < 4, kindAt (Pg.cstStk n) = some (.cstStk, n) := by decide +kernel

theorem Dev.fenceOwners_stack {n : Nat} (hn : n < 4) (d : Dev) : d.fenceOwners (Pg.cstStk n) = [] := by
  have : cellAt (Pg.cstStk n) = none := if_pos (by unfold Pg.cstStk; omega)
  rw [Dev.fenceOwners, this]
  dsimp only
  rw [Dev.ownersOf, kindAt_stack n hn]
  rfl

theorem kindAt_ing : kindAt 0x300000 = some (.ingReg, 0) := by decide +kernel

theorem Dev.fenceOwners_ing (d : Dev) : ∀ o ∈ d.fenceOwners 0x300000, o < 64 := by
  intro o ho
  rw [Dev.fenceOwners, show cellAt 0x300000 = none from rfl] at ho
  dsimp only at ho
  rw [Dev.ownersOf, kindAt_ing] at ho
  exact List.mem_range.mp (List.mem_filter.mp ho).1

theorem Dev.unitAt_fence_stack {page n : Nat} (hm : notOwner (masterOf page)) (hn : n < 4) (d : Dev) (err : Option (Nat × Nat)) :
    (d.fence (Pg.cstStk n) err).unitAt page = d.unitAt page := by
  have stack : (d.fence1 (Pg.cstStk n) err).unitAt page = d.unitAt page := by
    obtain e | e := d.fence1_cases (Pg.cstStk n) err
    · rw [e]
    · rw [e, masterOf_stack n hn]
      exact Dev.unitAt_fenceBegun hm (by simp [Dev.fenceOwners_stack hn]) err
  have ing (d : Dev) : (d.fence1 0x300000 err).unitAt page = d.unitAt page := by
    obtain e | e := d.fence1_cases 0x300000 err
    · rw [e]
    · rw [e, show masterOf 0x300000 = 0x300000 by decide +kernel]
      exact Dev.unitAt_fenceBegun hm d.fenceOwners_ing err
  unfold Dev.fence
  extract_lets e
  split
  · exact (ing _).trans stack
  · exact stack

theorem keptByStore_unitAt {page : Nat} (hm : notOwner (masterOf page)) (P : UnitSt → Prop) : KeptByStore fun e => P (e.unitAt page) where
  records h := h
  plat h := h
  wr {d f v} _ h := by rwa [Dev.unitAt_congr (congrArg Plat.units (d.wr_plat f v))]
  raise {d page bit info} h := by rwa [Dev.unitAt_congr (d.raise_plat page bit info).units]
  ignored {d page info flags} h := by rwa [Dev.unitAt_congr (d.countIgnored_plat page info flags).units]
  fence hn h := by rwa [Dev.unitAt_fence_stack hm hn]

end Sys2Proof.Machine
end

section
/-! Channel training, ZQ calibration and die temperatures (R162–R165, R186). -/
namespace Sys2Proof.Machine
open Sys2Proof

/-! ## What the tables' grants leave alone -/

/-- A field of a flash channel's page. -/
def RegField.ofChannel (f : RegField) : Prop := f.ofFlash ∧ 0x601000 ≤ f.addr ∧ f.addr < 0x640000

theorem keptByTables_rd {f : RegField} (hf : f.ofChannel) (P : Nat → Prop) : KeptByTables fun e => P (e.rd f) where
  toKeptByStore := keptByStore_rd hf.1 P
  rows h := h
  bufs h := h
  validLo {d v} h := by rwa [Dev.rd_wr_other d F.sflValidLo f v (by have := hf.2; simp only [F.sflValidLo]; omega)]
  mapBase {d v} h := by rwa [Dev.rd_wr_other d F.sflMapBase f v (by have := hf.2; simp only [F.sflMapBase]; omega)]
  dirBase {d v} h := by rwa [Dev.rd_wr_other d F.sflDirBase f v (by have := hf.2; simp only [F.sflDirBase]; omega)]

theorem keptByTables_errorShows {page bit : Nat} (hb : bit < 32) : KeptByTables fun e => e.errorShows page bit where
  toKeptByStore := keptByStore_errorShows hb
  rows h := h
  bufs h := h
  validLo h := (Dev.errorShows_wr _ (by decide) _ _ _).mpr h
  mapBase h := (Dev.errorShows_wr _ (by decide) _ _ _).mpr h
  dirBase h := (Dev.errorShows_wr _ (by decide) _ _ _).mpr h

theorem keptByTables_unitAt {page : Nat} (hm : notOwner (masterOf page)) (P : UnitSt → Prop) : KeptByTables fun e => P (e.unitAt page) where
  toKeptByStore := keptByStore_unitAt hm P
  rows h := h
  bufs h := h
  validLo {d v} h := by rwa [Dev.unitAt_congr (congrArg Plat.units (d.wr_plat _ v))]
  mapBase {d v} h := by rwa [Dev.unitAt_congr (congrArg Plat.units (d.wr_plat _ v))]
  dirBase {d v} h := by rwa [Dev.unitAt_congr (congrArg Plat.units (d.wr_plat _ v))]

theorem keptByTables_seenCes (P : List Nat → Prop) : KeptByTables fun e => P e.mram.seenCes where
  toKeptByStore := keptByStore_mram (fun m => P m.seenCes) fun m n h hm => by
    have : n.unlogged.seenCes = m.unlogged.seenCes := by rw [h]
    exact this ▸ hm
  rows h := h
  bufs h := h
  validLo h := by rwa [Dev.wr_mram]
  mapBase h := by rwa [Dev.wr_mram]
  dirBase h := by rwa [Dev.wr_mram]

/-! ## The stages of a bring-up that ends well -/

theorem sflFcStat_train_ofChannel {ch : Nat} (h : ch < 32) : (F.sflFcStat_train ch).ofChannel := by
  simp only [RegField.ofChannel, RegField.ofFlash, RegField.steady, F.sflFcStat_train]; omega
theorem sflFcStat_mts_ofChannel {ch : Nat} (h : ch < 32) : (F.sflFcStat_mts ch).ofChannel := by
  simp only [RegField.ofChannel, RegField.ofFlash, RegField.steady, F.sflFcStat_mts]; omega
theorem sflFcCe_state_ofChannel {ch ce : Nat} (h : ch < 32) (hc : ce < 8) : (F.sflFcCe_state ch ce).ofChannel := by
  simp only [RegField.ofChannel, RegField.ofFlash, RegField.steady, F.sflFcCe_state]; omega
theorem sflFcCe_type_ofChannel {ch ce : Nat} (h : ch < 32) (hc : ce < 8) : (F.sflFcCe_type ch ce).ofChannel := by
  simp only [RegField.ofChannel, RegField.ofFlash, RegField.steady, F.sflFcCe_type]; omega
theorem sflFcCe_luns_ofChannel {ch ce : Nat} (h : ch < 32) (hc : ce < 8) : (F.sflFcCe_luns ch ce).ofChannel := by
  simp only [RegField.ofChannel, RegField.ofFlash, RegField.steady, F.sflFcCe_luns]; omega

theorem masterOf_sflFc : ∀ ch < 32, masterOf (Pg.sflFc ch) = Pg.sflFc ch := by decide +kernel

theorem sflFc_notOwner {ch : Nat} (h : ch < 32) : notOwner (masterOf (Pg.sflFc ch)) := by
  intro o ho
  rw [masterOf_sflFc ch h]
  unfold Pg.sflFc
  omega

/-- The CEs of the channel read ABSENT until they are brought up. -/
def Dev.cesCleared (d : Dev) (ch : Nat) : Dev := (List.range 8).foldl (fun d ce => d.wr (F.sflFcCe_state ch ce) 0) d

/-- The lowest rate of the CEs in use. -/
def Dev.rateOf (d : Dev) (ch : Nat) (probes : List CeProbe) : Nat :=
  probes.foldl (fun n p =>
    let r := 100 * d.rd (F.sflDieIf_rate (d.dieOf ch p.ce))
    if !d.ceReady ch p.ce then n else if n = 0 then r else min n r) 0

/-- The channel is READY and runs at this rate. -/
def Dev.readyAt (d : Dev) (ch rate : Nat) : Dev := (d.wr (F.sflFcStat_train ch) 2).wr (F.sflFcStat_mts ch) rate

/-- The channel's LUN fences are cleared where it comes back from ISOLATED, and its unit takes work. -/
def Dev.channelBack (d : Dev) (ch : Nat) (back : Bool) : Dev :=
  let d := d.when back (·.onSfl fun s => { s with fencedLuns := s.fencedLuns.filter (fun k => !(k / 64 == ch && d.ceReady ch (k / 8 % 8))) })
  if back then d.setUnit (Pg.sflFc ch) .quiesced else if d.unitAt (Pg.sflFc ch) = .off then d.setUnit (Pg.sflFc ch) .active else d

/-- The tables are granted where an enabled set holds the channel. -/
def Dev.channelTables (d : Dev) (ch : Nat) : Dev :=
  d.when ((List.range 8).any (fun s => d.setOn s && (d.setMembers s).contains ch)) (·.tablesGrant)

/-- A bring-up that ends well, once its CEs are brought up. -/
def Dev.channelReady (d : Dev) (ch : Nat) (back : Bool) (probes : List CeProbe) : Dev :=
  ((d.readyAt ch (d.rateOf ch probes)).channelBack ch back).channelTables ch

theorem KeptByTables.channelTables {R : Dev → Prop} (k : KeptByTables R) {d : Dev} {ch : Nat} (h : R d) : R (d.channelTables ch) :=
  kept_when (fun _ h => k.tablesGrant h) h

theorem Dev.channelTrained_eq {d : Dev} {ch : Nat} (ht : d.rd (F.sflFcStat_train ch) = 1) (hu : d.plat.armed = []) (probes : List CeProbe) :
    d.channelTrained ch true probes = (probes.foldl (fun d p => d.bringUpCe ch p) (d.cesCleared ch)).channelReady ch
      (decide (d.unitAt (Pg.sflFc ch) = .isolated)) probes := by
  unfold Dev.channelTrained
  rw [if_neg (by simp [ht]), if_neg (by simp [Dev.injected_of_unarmed hu])]
  rfl

section
variable {ch : Nat} (d : Dev) (back : Bool) (probes : List CeProbe)

theorem Dev.channelBack_false : d.channelBack ch false = if d.unitAt (Pg.sflFc ch) = .off then d.setUnit (Pg.sflFc ch) .active else d := rfl

theorem Dev.channelBack_true : d.channelBack ch true = (d.onSfl fun s => { s with
    fencedLuns := s.fencedLuns.filter (fun k => !(k / 64 == ch && d.ceReady ch (k / 8 % 8))) }).setUnit (Pg.sflFc ch) .quiesced := rfl

/-- What does not depend on the units and on SFL's record is as it was. -/
theorem Dev.channelBack_keeps {α : Type} {g : Dev → α} (hs : ∀ (d : Dev) f, g (d.onSfl f) = g d) (hu : ∀ (d : Dev) u, g (d.setUnit (Pg.sflFc ch) u) = g d) :
    g (d.channelBack ch back) = g d := by
  cases back
  · rw [Dev.channelBack_false]
    split
    · exact hu d _
    · rfl
  · rw [Dev.channelBack_true, hu, hs]

theorem Dev.rd_channelBack (f : RegField) : (d.channelBack ch back).rd f = d.rd f :=
  d.channelBack_keeps back (g := (·.rd f)) (fun _ _ => rfl) (fun _ _ => rfl)


theorem Dev.rd_channelReady_train (hc : ch < 32) : (d.channelReady ch back probes).rd (F.sflFcStat_train ch) = 2 := by
  have ready : (d.readyAt ch (d.rateOf ch probes)).rd (F.sflFcStat_train ch) = 2 := by
    unfold Dev.readyAt
    rw [Dev.rd_wr_beside _ _ _ _ (by simp [RegField.ok, F.sflFcStat_mts]) (by simp [RegField.ok, F.sflFcStat_train])
      (.inl (by simp [F.sflFcStat_mts, F.sflFcStat_train])), Dev.rd_wr_same _ _ (by simp [RegField.ok, F.sflFcStat_train])]
    rfl
  rw [← Dev.rd_channelBack (ch := ch) _ back] at ready
  exact (keptByTables_rd (sflFcStat_train_ofChannel hc) (· = 2)).channelTables ready

theorem Dev.rd_channelReady_mts (hc : ch < 32) : (d.channelReady ch back probes).rd (F.sflFcStat_mts ch) = d.rateOf ch probes % 2 ^ 16 := by
  have ready : (d.readyAt ch (d.rateOf ch probes)).rd (F.sflFcStat_mts ch) = d.rateOf ch probes % 2 ^ 16 :=
    Dev.rd_wr_same _ _ (by simp [RegField.ok, F.sflFcStat_mts]) _
  rw [← Dev.rd_channelBack (ch := ch) _ back] at ready
  exact (keptByTables_rd (sflFcStat_mts_ofChannel hc) (· = d.rateOf ch probes % 2 ^ 16)).channelTables ready

/-- The other fields of the channels read as before. -/
theorem Dev.rd_channelReady {f : RegField} (hf : f.ofChannel) (hne : f.addr ≠ (F.sflFcStat_train ch).addr) :
    (d.channelReady ch back probes).rd f = d.rd f := by
  have ready : (d.readyAt ch (d.rateOf ch probes)).rd f = d.rd f := by
    unfold Dev.readyAt
    rw [Dev.rd_wr_other _ (F.sflFcStat_mts ch) _ _ hne, Dev.rd_wr_other _ _ _ _ hne]
  rw [← Dev.rd_channelBack (ch := ch) _ back] at ready
  exact (keptByTables_rd hf (· = d.rd f)).channelTables ready

theorem Dev.errorShows_channelReady {page bit : Nat} (hb : bit < 32) (h : d.errorShows page bit) :
    (d.channelReady ch back probes).errorShows page bit := by
  have ready : (d.readyAt ch (d.rateOf ch probes)).errorShows page bit := by
    unfold Dev.readyAt
    rw [Dev.errorShows_wr _ (by simp only [F.sflFcStat_mts]; omega), Dev.errorShows_wr _ (by simp only [F.sflFcStat_train]; omega)]
    exact h
  have back' : ((d.readyAt ch (d.rateOf ch probes)).channelBack ch back).errorShows page bit :=
    (Dev.channelBack_keeps _ back (g := (·.errorShows page bit)) (fun _ _ => rfl) (fun _ _ => rfl)).mpr ready
  exact (keptByTables_errorShows hb).channelTables back'

theorem Dev.seenCes_channelReady : (d.channelReady ch back probes).mram.seenCes = d.mram.seenCes := by
  have ready : (d.readyAt ch (d.rateOf ch probes)).mram.seenCes = d.mram.seenCes := by simp [Dev.readyAt]
  have back' : ((d.readyAt ch (d.rateOf ch probes)).channelBack ch back).mram.seenCes = d.mram.seenCes :=
    (Dev.channelBack_keeps _ back (g := (·.mram.seenCes)) (fun _ _ => rfl) (fun _ _ => rfl)).trans ready
  exact (keptByTables_seenCes (· = d.mram.seenCes)).channelTables back'

/-- The unit's state once the channel is READY. -/
theorem Dev.unitAt_channelReady (hc : ch < 32) : (d.channelReady ch back probes).unitAt (Pg.sflFc ch) =
    if back then .quiesced else if d.unitAt (Pg.sflFc ch) = .off then .active else d.unitAt (Pg.sflFc ch) := by
  have same : (d.readyAt ch (d.rateOf ch probes)).unitAt (Pg.sflFc ch) = d.unitAt (Pg.sflFc ch) :=
    Dev.unitAt_congr (by rw [Dev.readyAt, Dev.wr_plat, Dev.wr_plat]) _
  have back' : ((d.readyAt ch (d.rateOf ch probes)).channelBack ch back).unitAt (Pg.sflFc ch) =
      if back then .quiesced else if d.unitAt (Pg.sflFc ch) = .off then .active else d.unitAt (Pg.sflFc ch) := by
    cases back
    · rw [Dev.channelBack_false, same]
      split
      · rw [Dev.unitAt_setUnit]
        rfl
      · exact same
    · exact Dev.unitAt_setUnit _ _ _
  exact (keptByTables_unitAt (sflFc_notOwner hc) (· = _)).channelTables back'

end

/-! ## One CE brought up -/

section
variable {ch ce : Nat} (d : Dev)

theorem apart_ceState (ch : Nat) : Apart (F.sflFcCe_state ch) :=
  ⟨fun r => by simp [RegField.ok, F.sflFcCe_state], fun r k h => by simp only [F.sflFcCe_state]; omega⟩

theorem Dev.cesCleared_eq : d.cesCleared ch = d.fieldsTake (List.range 8) (F.sflFcCe_state ch) fun _ => 0 := rfl

theorem Dev.rd_cesCleared (hce : ce < 8) : (d.cesCleared ch).rd (F.sflFcCe_state ch ce) = 0 :=
  Dev.rd_fieldsTake (apart_ceState ch) d (List.mem_range.mpr hce) _

theorem Dev.cesCleared_force : (d.cesCleared ch).force = d.force := by
  have one (l : List Nat) (d : Dev) : (d.fieldsTake l (F.sflFcCe_state ch) fun _ => 0).force = d.force := by
    induction l generalizing d with
    | nil => rfl
    | cons r l ih => exact (ih _).trans (Dev.wr_force rfl _ _)
  exact one _ d

theorem Dev.cesCleared_plat : (d.cesCleared ch).plat = d.plat := Dev.fieldsTake_plat _ _ _ _

/-- The CEs of another channel are as they were, and none of this one is READY. -/
theorem Dev.ceReady_cesCleared {k : Nat} (hce : ce < 8) (h : k ≠ ch → d.ceReady k ce = false) : (d.cesCleared ch).ceReady k ce = false := by
  by_cases hk : k = ch
  · subst hk
    simp [Dev.ceReady, Dev.rd_cesCleared d hce]
  · have other (l : List Nat) (hl : ∀ r ∈ l, r < 8) (d : Dev) :
        (d.fieldsTake l (F.sflFcCe_state ch) fun _ => 0).rd (F.sflFcCe_state k ce) = d.rd (F.sflFcCe_state k ce) := by
      induction l generalizing d with
      | nil => rfl
      | cons r l ih =>
        have hr := hl r List.mem_cons_self
        refine (ih (fun x hx => hl x (List.mem_cons_of_mem _ hx)) _).trans (Dev.rd_wr_other _ _ _ _ ?_)
        simp only [F.sflFcCe_state]
        omega
    rw [Dev.ceReady, Dev.cesCleared_eq, other _ (fun r hr => List.mem_range.mp hr)]
    exact h hk

theorem Dev.matchDie_congr {d e : Dev} (h : e.force = d.force) (p : CeProbe) : e.matchDie p = d.matchDie p := by
  unfold Dev.matchDie
  simp only [fun t => Dev.rd_congr_force (f := F.sflDieId0 t) rfl h, fun t => Dev.rd_congr_force (f := F.sflDieId1 t) rfl h,
    fun t => Dev.rd_congr_force (f := F.sflDieGeom_page t) rfl h, fun t => Dev.rd_congr_force (f := F.sflDieGeom_luns t) rfl h,
    fun t => Dev.rd_congr_force (f := F.sflDieGeom_units t) rfl h, fun t => Dev.rd_congr_force (f := F.sflDieGeom_blocks t) rfl h]

theorem Dev.matchDie_lt {d : Dev} {p : CeProbe} {t : Nat} (h : d.matchDie p = some t) : t < 4 := List.mem_range.mp (List.mem_of_find?_eq_some h)

/-- A channel whose CEs are brought up holds no data before. -/
theorem Dev.dataUnits_of_unready {d : Dev} (h : ∀ k < 32, ∀ ce < 8, d.ceReady k ce = false) : d.dataUnits = 0 := by
  have inner (k : Nat) (hk : k < 32) (l : List Nat) (hl : ∀ ce ∈ l, ce < 8) : l.foldl (fun n ce =>
      if d.ceReady k ce then n + d.lunsOf k ce * d.blocksOf k ce * d.unitsOf k ce else n) 0 = 0 := by
    induction l with
    | nil => rfl
    | cons c l ih =>
      rw [List.foldl_cons, h k hk c (hl c List.mem_cons_self)]
      exact ih fun x hx => hl x (List.mem_cons_of_mem _ hx)
  have outer (l : List Nat) (hl : ∀ k ∈ l, k < 32) : l.foldl (fun n k => (List.range 8).foldl (fun n ce =>
      if d.ceReady k ce then n + d.lunsOf k ce * d.blocksOf k ce * d.unitsOf k ce else n) n) 0 = 0 := by
    induction l with
    | nil => rfl
    | cons k l ih =>
      rw [List.foldl_cons, inner k (hl k List.mem_cons_self) _ (fun c hc => List.mem_range.mp hc)]
      exact ih fun x hx => hl x (List.mem_cons_of_mem _ hx)
  exact outer _ fun k hk => List.mem_range.mp hk

/-- The CE shows its die type and its LUNs. -/
def Dev.ceTyped (ch : Nat) (p : CeProbe) (t : Nat) : Dev := (d.wr (F.sflFcCe_type ch p.ce) t).wr (F.sflFcCe_luns ch p.ce) p.luns

/-- A CE that was not seen before enters the bad-block table with the blocks that its maker marked. -/
def Dev.ceSeen (ch : Nat) (p : CeProbe) : Dev :=
  if d.mram.seenCes.contains (ch * 8 + p.ce) then d
  else d.mramPut p.bad.length fun m => { m with
    seenCes := m.seenCes ++ [ch * 8 + p.ce]
    badBlocks := p.bad.foldl (fun b e => Map.put b (blockKey (mkPua ch p.ce e.1 e.2 0)) 0) m.badBlocks }

/-- The CE shows its grown-bad blocks and is READY. -/
def Dev.ceUsed (ch ce grown : Nat) : Dev := (d.wr (F.sflFcCe_grown ch ce) (min 255 grown)).wr (F.sflFcCe_state ch ce) 2

theorem Dev.bringUpCe_matched {d : Dev} {p : CeProbe} {t : Nat} (hu : d.plat.armed = [])
    (hen : (d.rd (F.sflFcCfg_ceEn ch)).testBit p.ce = true) (ht : d.matchDie p = some t)
    (hfit : (d.ceTyped ch p t).dataUnits + p.luns * p.blocks * p.units ≤ 2 ^ 34) :
    ∃ grown, d.bringUpCe ch p = ((d.ceTyped ch p t).ceSeen ch p).ceUsed ch p.ce grown := by
  unfold Dev.bringUpCe
  rw [if_neg (by simp [hen]), if_neg (by simp [Dev.injected_of_unarmed hu]), ht]
  exact ⟨_, if_neg (Nat.not_lt.mpr hfit)⟩

theorem Dev.bringUpCe_unmatched {d : Dev} {p : CeProbe} (hu : d.plat.armed = [])
    (hen : (d.rd (F.sflFcCfg_ceEn ch)).testBit p.ce = true) (ht : d.matchDie p = none) :
    d.bringUpCe ch p = (d.wr (F.sflFcCe_state ch p.ce) 1).raise (Pg.sflFc ch) Er.sflFc_idMismatch p.ce := by
  unfold Dev.bringUpCe
  rw [if_neg (by simp [hen]), if_neg (by simp [Dev.injected_of_unarmed hu]), ht]
  dsimp only
  rw [Dev.takeInjected_of_unarmed hu]

theorem Dev.rd_ceSeen {f : RegField} (hf : f.steady) (p : CeProbe) : (d.ceSeen ch p).rd f = d.rd f := by
  unfold Dev.ceSeen
  split
  · rfl
  · exact Dev.rd_mramPut hf _ _

theorem Dev.seenCes_ceSeen (p : CeProbe) : (d.ceSeen ch p).mram.seenCes.contains (ch * 8 + p.ce) = true := by
  unfold Dev.ceSeen
  split
  · assumption
  · simp

theorem sflFcCe_ok (ch ce : Nat) : (F.sflFcCe_state ch ce).ok ∧ (F.sflFcCe_type ch ce).ok ∧ (F.sflFcCe_luns ch ce).ok ∧
    (F.sflFcCe_grown ch ce).ok := by
  simp [RegField.ok, F.sflFcCe_state, F.sflFcCe_type, F.sflFcCe_luns, F.sflFcCe_grown]

theorem Dev.rd_ceUsed_state (grown : Nat) : (d.ceUsed ch ce grown).rd (F.sflFcCe_state ch ce) = 2 :=
  Dev.rd_wr_same _ _ (sflFcCe_ok ch ce).1 2

/-- Die type and LUNs lie beside what `ceUsed` writes. -/
theorem Dev.rd_ceUsed_beside {f : RegField} (hf : f.ok) (h : 1 < f.lo ∧ f.hi < 16) (grown : Nat) : (d.ceUsed ch ce grown).rd f = d.rd f := by
  obtain ⟨hs, -, -, hg⟩ := sflFcCe_ok ch ce
  unfold Dev.ceUsed
  rw [Dev.rd_wr_beside _ _ _ _ hs hf (.inr h.1), Dev.rd_wr_beside _ _ _ _ hg hf (.inl h.2)]

theorem Dev.rd_ceTyped_type (p : CeProbe) {t : Nat} (ht : t < 4) : (d.ceTyped ch p t).rd (F.sflFcCe_type ch p.ce) = t := by
  obtain ⟨-, hty, hl, -⟩ := sflFcCe_ok ch p.ce
  unfold Dev.ceTyped
  rw [Dev.rd_wr_beside _ _ _ _ hl hty (.inl (by simp [F.sflFcCe_type, F.sflFcCe_luns])), Dev.rd_wr_same _ _ hty]
  exact Nat.mod_eq_of_lt ht

theorem Dev.rd_ceTyped_luns {p : CeProbe} (hl : p.luns < 16) (t : Nat) : (d.ceTyped ch p t).rd (F.sflFcCe_luns ch p.ce) = p.luns := by
  obtain ⟨-, -, ok, -⟩ := sflFcCe_ok ch p.ce
  exact (Dev.rd_wr_same _ _ ok _).trans (Nat.mod_eq_of_lt hl)

theorem Dev.ceReady_ceTyped (p : CeProbe) (t k ce : Nat) : (d.ceTyped ch p t).ceReady k ce = d.ceReady k ce := by
  obtain ⟨-, hty, hl, -⟩ := sflFcCe_ok ch p.ce
  have hs := (sflFcCe_ok k ce).1
  unfold Dev.ceReady Dev.ceTyped
  rw [Dev.rd_wr_beside _ _ _ _ hl hs (.inl (by simp [F.sflFcCe_state, F.sflFcCe_luns])),
    Dev.rd_wr_beside _ _ _ _ hty hs (.inl (by simp [F.sflFcCe_state, F.sflFcCe_type]))]

end

/-! ## The obligation -/

theorem completes_channelTrained {s : State} {ch : Nat} {pass : Bool} {probes : List CeProbe} {Q : Dev → Prop} (hc : ch < 32)
    (h : Q (s.dev.channelTrained ch pass probes).flashMoves) : completes (.channelTrained ch pass probes) s Q :=
  ⟨_, rfl, by rwa [Nat.mod_eq_of_lt hc]⟩

theorem completes_zqCalTimer {s : State} {ch : Nat} {Q : Dev → Prop} (hc : ch < 32) (h : Q (s.dev.zqCal ch)) : completes (.zqCalTimer ch) s Q :=
  ⟨_, rfl, by rwa [Nat.mod_eq_of_lt hc]⟩

theorem completes_dieTempRead {s : State} {ch ce lun : Nat} {temp : Int} {Q : Dev → Prop} (hc : ch < 32) (h : Q (s.dev.dieTemp ch ce lun temp)) :
    completes (.dieTempRead ch ce lun temp) s Q := ⟨_, rfl, by rwa [Nat.mod_eq_of_lt hc]⟩

section
variable {d : Dev} {ch : Nat}

theorem Dev.channelTrained_fails (ht : d.rd (F.sflFcStat_train ch) = 1) (hu : d.plat.armed = []) (probes : List CeProbe) :
    d.channelTrained ch false probes = ((d.wr (F.sflFcStat_train ch) 3).raise (Pg.sflFc ch) Er.sflFc_trainFail ch).fence (Pg.sflFc ch)
      (some (Pg.sflFc ch, Er.sflFc_trainFail)) := by
  unfold Dev.channelTrained
  rw [if_neg (by simp [ht]), if_pos (by simp)]
  dsimp only
  rw [Dev.takeInjected_of_unarmed hu]

theorem Dev.zqCal_due (hr : d.chRuns ch = true) (h : 40000 ≤ d.since (Map.get 0 d.sfl.zqTick ch)) :
    d.zqCal ch = d.onSfl fun x => { x with zqTick := Map.set 0 x.zqTick ch d.now } := if_pos ⟨hr, h⟩

/-- A die that names the feature is read where its LUN's last read is 4,000 ticks old, or there is none. -/
theorem Dev.dieTemp_eq {ce lun : Nat} (hr : d.chRuns ch = true) (hce : d.ceReady ch ce = true) (hl : lun < d.lunsOf ch ce)
    (hf : d.rd (F.sflDieFeat_tempFeat (d.dieOf ch ce)) ≠ 0) (temp : Int) :
    ((∀ t, Map.find d.sfl.tempTick (lunKey ch ce lun) = some t → 4000 ≤ d.since t) → d.dieTemp ch ce lun temp = d.onSfl fun x => { x with
      temps := Map.set 0 x.temps (lunKey ch ce lun) (unsgn 8 temp), tempTick := Map.put x.tempTick (lunKey ch ce lun) d.now }) ∧
    (∀ t, Map.find d.sfl.tempTick (lunKey ch ce lun) = some t → d.since t < 4000 → d.dieTemp ch ce lun temp = d) := by
  unfold Dev.dieTemp
  constructor
  · intro due
    refine if_pos ⟨hr, hce, hl, hf, ?_⟩
    cases hl : Map.find d.sfl.tempTick (lunKey ch ce lun) with
    | none => rfl
    | some t => exact decide_eq_true (due t hl)
  · intro t ht early
    refine if_neg fun h => ?_
    obtain ⟨-, -, -, -, due⟩ := h
    rw [ht] at due
    exact absurd (of_decide_eq_true due) (Nat.not_le.mpr early)

end

/-- Settles O33: a bring-up is its CEs, one after another, and then the READY channel, whose grants of tables leave the channels' pages alone. -/
theorem channelsTrain : Obligations.ChannelsTrain := by
  unfold Obligations.ChannelsTrain
  intro s ch hc d
  refine ⟨fun probes ht hu => ?trains, fun hr h => ?zq, fun ce lun temp hr hce hl hf => ?temp⟩
  case zq => exact completes_zqCalTimer hc (Dev.zqCal_due hr h)
  case temp =>
    obtain ⟨due, early⟩ := Dev.dieTemp_eq hr hce hl hf temp
    exact ⟨fun h => completes_dieTempRead hc (due h), fun t ht h => completes_dieTempRead hc (early t ht h)⟩
  intro m
  refine ⟨?bare, ?matched, ?unmatched, ?fails⟩
  case bare =>
    intro hp
    subst hp
    have hm := Dev.channelTrained_eq ht hu []
    rw [List.foldl_nil] at hm
    change m = _ at hm
    have unit : (d.cesCleared ch).unitAt (Pg.sflFc ch) = d.unitAt (Pg.sflFc ch) := Dev.unitAt_congr (by rw [Dev.cesCleared_plat]) _
    have unit' := Dev.unitAt_channelReady (d.cesCleared ch) (decide (d.unitAt (Pg.sflFc ch) = .isolated)) [] hc
    rw [unit, ← hm] at unit'
    refine completes_channelTrained hc ⟨rfl, ?_, ?_, fun ce hce => ?_, fun h => ?_, fun h => ?_, fun h => ?_⟩
    · rw [hm, Dev.rd_channelReady_train _ _ _ hc]
    · rw [hm, Dev.rd_channelReady_mts _ _ _ hc]
      rfl
    · rw [hm, Dev.rd_channelReady _ _ _ (sflFcCe_state_ofChannel hc hce) (by simp only [F.sflFcCe_state, F.sflFcStat_train]; omega),
        Dev.rd_cesCleared d hce]
    · rw [unit', h]
      rfl
    · rw [unit', h]
      rfl
    · rw [unit', h]
      rfl
  case matched =>
    intro p t hp hce hen hmatch hothers hluns hcap
    subst hp
    have hm := Dev.channelTrained_eq ht hu [p]
    rw [List.foldl_cons, List.foldl_nil] at hm
    change m = _ at hm
    have unready : ∀ k < 32, ∀ c < 8, ((d.cesCleared ch).ceTyped ch p t).ceReady k c = false := fun k hk c hc => by
      rw [Dev.ceReady_ceTyped]
      exact Dev.ceReady_cesCleared d hc (hothers k c hk hc)
    obtain ⟨grown, up⟩ := Dev.bringUpCe_matched (ch := ch) (d := d.cesCleared ch) (p := p) (t := t) (by rw [Dev.cesCleared_plat]; exact hu)
      (by rwa [Dev.rd_congr_force rfl d.cesCleared_force]) (by rwa [Dev.matchDie_congr d.cesCleared_force])
      (by rwa [Dev.dataUnits_of_unready unready, Nat.zero_add])
    rw [up] at hm
    have apart (c : Nat) (hc : c < 8) : 0x601104 + 0x1000 * ch + 0x4 * c ≠ (F.sflFcStat_train ch).addr := by
      simp only [F.sflFcStat_train]
      omega
    refine completes_channelTrained hc ⟨rfl, ?_, ?_, ?_, ?_, ?_⟩
    · rw [hm, Dev.rd_channelReady_train _ _ _ hc]
    · rw [hm, Dev.rd_channelReady _ _ _ (sflFcCe_state_ofChannel hc hce) (apart _ hce), Dev.rd_ceUsed_state]
    · obtain ⟨-, ok, -, -⟩ := sflFcCe_ok ch p.ce
      have chan := sflFcCe_type_ofChannel hc hce
      rw [hm, Dev.rd_channelReady _ _ _ chan (apart _ hce), Dev.rd_ceUsed_beside _ ok (by simp [F.sflFcCe_type]), Dev.rd_ceSeen _ chan.1.1,
        Dev.rd_ceTyped_type _ _ (Dev.matchDie_lt hmatch)]
    · obtain ⟨-, -, ok, -⟩ := sflFcCe_ok ch p.ce
      have chan := sflFcCe_luns_ofChannel hc hce
      rw [hm, Dev.rd_channelReady _ _ _ chan (apart _ hce), Dev.rd_ceUsed_beside _ ok (by simp [F.sflFcCe_luns]), Dev.rd_ceSeen _ chan.1.1,
        Dev.rd_ceTyped_luns _ hluns]
    · rw [hm, Dev.seenCes_channelReady, Dev.ceUsed, Dev.wr_mram, Dev.wr_mram]
      exact Dev.seenCes_ceSeen _ p
  case unmatched =>
    intro p hp hce hen hmatch
    subst hp
    have hm := Dev.channelTrained_eq ht hu [p]
    rw [List.foldl_cons, List.foldl_nil] at hm
    change m = _ at hm
    rw [Dev.bringUpCe_unmatched (by rw [Dev.cesCleared_plat]; exact hu) (by rwa [Dev.rd_congr_force rfl d.cesCleared_force])
      (by rwa [Dev.matchDie_congr d.cesCleared_force])] at hm
    refine completes_channelTrained hc ⟨rfl, ?_, ?_, ?_⟩
    · rw [hm, Dev.rd_channelReady_train _ _ _ hc]
    · have chan := sflFcCe_state_ofChannel hc hce
      rw [hm, Dev.rd_channelReady _ _ _ chan (by simp only [F.sflFcCe_state, F.sflFcStat_train]; omega), Dev.rd_raise chan.1.1,
        Dev.rd_wr_same _ _ (sflFcCe_ok ch p.ce).1]
      rfl
    · rw [hm]
      exact Dev.errorShows_channelReady _ _ _ (by decide) (Dev.raise_errorShows _ _ _ (by decide))
  case fails => exact completes_channelTrained hc (by rw [Dev.channelTrained_fails ht hu])

end Sys2Proof.Machine
end

section
/-! Reads of units that end (R187, R212). -/
namespace Sys2Proof.Machine
open Sys2Proof

/-! ## The SET FEATURES of a read -/

/-- Between `d` and `e` there are SET FEATURES alone. -/
def Dev.featuresSet (d e : Dev) : Prop := ∃ es os, e = d.onSfl fun s => { s with entrySet := es, offsets := os }

theorem Dev.featuresSet.setOffsets {d e : Dev} (h : d.featuresSet e) {pua entry : Nat} {step : Int} : d.featuresSet (e.setOffsets pua entry step) := by
  obtain ⟨es, os, rfl⟩ := h
  exact ⟨_, _, rfl⟩

theorem Dev.featuresSet.entryLeft {d e : Dev} (h : d.featuresSet e) {f : Sfl → Map Nat} :
    d.featuresSet (e.onSfl fun s => { s with entrySet := f s }) := by
  obtain ⟨es, os, rfl⟩ := h
  exact ⟨_, _, rfl⟩

theorem Dev.featuresSet_readFeatures (d : Dev) (pua level tries : Nat) : d.featuresSet (d.readFeatures pua level tries) := by
  have still : d.featuresSet d := ⟨_, _, rfl⟩
  unfold Dev.readFeatures
  extract_lets i first es taken last stepped
  have first' : d.featuresSet first := by
    unfold first
    split
    · exact still
    · exact still.setOffsets
  have taken' : d.featuresSet last := kept_foldl (fun _ _ h => h.setOffsets) first'
  split
  · exact first'
  · split
    · exact taken'
    · have stepped' : d.featuresSet stepped := taken'.setOffsets
      exact stepped'.entryLeft

/-! ## The ways a read ends -/

/-- A unit's read is counted. -/
def Dev.readCounted (d : Dev) (pua : Nat) : Dev := (d.sflCount 1).count (F.sflFcCnt (puaCh pua) 2)

theorem Dev.readCounted_eq (d : Dev) (pua : Nat) : (d.sflCount 1).count (F.sflFcCnt (puaCh pua) 2) = d.readCounted pua := rfl

/-- What a read at F1 leaves: RETRY shows, and its row is queued for refresh at its sixteenth. -/
def Dev.readF1 (d : Dev) (pua : Nat) : Dev := ((d.raise (Pg.sflFc (puaCh pua)) Er.sflFc_readRetry pua).sflCount 4).count (F.sflFcCnt (puaCh pua) 5)
def Dev.readF2 (d : Dev) (pua : Nat) : Dev := ((d.raise (Pg.sflFc (puaCh pua)) Er.sflFc_readRetry pua).sflCount 5).count (F.sflFcCnt (puaCh pua) 6)
def Dev.rowRetried (d : Dev) (x : Nat) : Dev :=
  let d := d.onRow x fun e => { e with f1 := e.f1 + 1 }
  if 16 ≤ (d.rowEnt x).f1 then d.queueRefresh x else d

section
variable {d : Dev} {pua : Nat} {u : FUnit} {bad : List Nat} (hu : (d.readCounted pua).plat.armed = [])
  (hf : Map.find (d.readCounted pua).sfl.units pua = some u)
  (hl : (d.readCounted pua).lunAvail (puaCh pua) (puaCe pua) (puaLun pua) = true)
  (hp : ∀ x, (d.readCounted pua).rowOfPua pua = some x → (d.readCounted pua).posLost x (puaCh pua) = false)
include hu hf

theorem Dev.readUnit_lost : d.readUnit pua 4 bad = (⟨{ u.tag with hollowMap := 0xFFFF }, []⟩, true,
    ((d.readCounted pua).raise (Pg.sflFc (puaCh pua)) Er.sflFc_readLost pua).sflCount 7) := by
  simp only [Dev.readUnit, Dev.readCounted_eq, Dev.injected_of_unarmed hu, Dev.takeInjected_of_unarmed hu, hf]
  simp

include hl hp

theorem Dev.readUnit_f0 : d.readUnit pua 0 bad = (u, false, d.readCounted pua) := by
  simp only [Dev.readUnit, Dev.readCounted_eq, Dev.injected_of_unarmed hu, Dev.takeInjected_of_unarmed hu, hf]
  cases hr : (d.readCounted pua).rowOfPua pua with
  | none => simp [hl]
  | some x => simp [hl, hp x hr]

theorem Dev.readUnit_f1 {x : Nat} (hx : (d.readCounted pua).rowOfPua pua = some x)
    (hr : (d.readCounted pua).rd (F.sflDieFeat_retry ((d.readCounted pua).dieOf (puaCh pua) (puaCe pua))) ≠ 0) :
    d.readUnit pua 1 bad = (u, false, ((d.readCounted pua).readF1 pua).rowRetried x) := by
  simp only [Dev.readUnit, Dev.readCounted_eq, Dev.injected_of_unarmed hu, Dev.takeInjected_of_unarmed hu, hf, hx]
  simp [hl, hp x hx, hr]
  rfl

theorem Dev.readUnit_f2 {x : Nat} (hx : (d.readCounted pua).rowOfPua pua = some x) :
    d.readUnit pua 2 bad = (u, false, ((d.readCounted pua).readF2 pua).queueRefresh x) := by
  simp only [Dev.readUnit, Dev.readCounted_eq, Dev.injected_of_unarmed hu, Dev.takeInjected_of_unarmed hu, hf, hx]
  simp [hl, hp x hx]
  rfl

end

/-! ## What a read is judged by -/

theorem Dev.lunAvail_congr {d e : Dev} {ch ce lun : Nat} (hp : e.plat = d.plat) (hf : e.sfl.fencedLuns = d.sfl.fencedLuns)
    (hr : ∀ f : RegField, f.addr % 4096 < 0x140 → e.rd f = d.rd f) (hce : ce < 8) : e.lunAvail ch ce lun = d.lunAvail ch ce lun := by
  have closed (p : Nat) : e.closed p = d.closed p := Dev.closed_congr (congrArg Plat.units hp) (congrArg Plat.fences hp) p
  have state : e.rd (F.sflFcCe_state ch ce) = d.rd (F.sflFcCe_state ch ce) := hr _ (by simp only [F.sflFcCe_state]; omega)
  have luns : e.rd (F.sflFcCe_luns ch ce) = d.rd (F.sflFcCe_luns ch ce) := hr _ (by simp only [F.sflFcCe_luns]; omega)
  have train : e.rd (F.sflFcStat_train ch) = d.rd (F.sflFcStat_train ch) := hr _ (by simp only [F.sflFcStat_train]; omega)
  unfold Dev.lunAvail Dev.ceReady Dev.lunsOf
  rw [closed, closed, state, luns, train, hf, Dev.unitAt_congr (congrArg Plat.units hp)]

theorem Dev.readCounted_plat (d : Dev) (pua : Nat) : (d.readCounted pua).plat = d.plat := by
  rw [Dev.readCounted, Dev.count, Dev.wr_plat, Dev.sflCount, Dev.count, Dev.wr_plat]

theorem Dev.readCounted_sfl (d : Dev) (pua : Nat) : (d.readCounted pua).sfl = d.sfl := by
  rw [Dev.readCounted, Dev.count, Dev.wr_sfl, Dev.sflCount, Dev.count, Dev.wr_sfl]

theorem Dev.rd_readCounted (d : Dev) (pua : Nat) {f : RegField} (h : f.addr % 4096 < 0x140) : (d.readCounted pua).rd f = d.rd f := by
  rw [Dev.readCounted, Dev.rd_count_other (by simp only [F.sflFcCnt]; omega), Dev.sflCount, Dev.rd_count_other (by simp only [F.sflCnt]; omega)]

theorem Dev.onSfl_onSfl (d : Dev) (f g : Sfl → Sfl) : (d.onSfl f).onSfl g = d.onSfl fun s => g (f s) := rfl

theorem Dev.chServed_eq (d : Dev) (ch : Nat) (op : Nat × Bool) : ∃ tu, d.chServed ch op = d.onSfl fun s => { s with turns := tu } := by
  unfold Dev.chServed
  exact ⟨_, rfl⟩

/-- A read's operation is served, and it leaves the list. -/
def Dev.readTaken (d : Dev) (pua level tries : Nat) (r : FRead) : Dev :=
  ((d.chServed (puaCh pua) (d.readOp r)).readFeatures pua level tries).onSfl fun x => { x with reads := [] }

theorem Dev.readTaken_eq (d : Dev) (pua level tries : Nat) (r : FRead) : ∃ tu es os, d.readTaken pua level tries r = d.onSfl fun s =>
    { s with turns := tu, entrySet := es, offsets := os, reads := [] } := by
  obtain ⟨es, os, h⟩ := (d.chServed (puaCh pua) (d.readOp r)).featuresSet_readFeatures pua level tries
  obtain ⟨tu, h'⟩ := d.chServed_eq (puaCh pua) (d.readOp r)
  rw [Dev.readTaken, h, h', Dev.onSfl_onSfl, Dev.onSfl_onSfl]
  exact ⟨tu, es, os, rfl⟩

section
variable {d : Dev} {pua : Nat} {r : FRead} {id : Nat} {bad : List Nat} (hr : d.sfl.reads = [r]) (hp : r.pua = pua)
include hr hp

theorem Dev.readDone_job (hw : r.why = .job id) {level : Nat} {u : FUnit} {lost : Bool} {e : Dev}
    (h : (d.onSfl fun s => { s with reads := [] }).readUnit pua level bad = (u, lost, e)) :
    d.readDone pua level bad = (e.when (lost && u.tag.ty == 1) (·.rewriteLost pua u)).jobGot id u lost := by
  have found : d.sfl.reads.find? (fun r => r.pua == pua) = some r := by simp [hr, hp]
  have gone : (d.onSfl fun s => { s with reads := s.reads.erase r }) = d.onSfl fun s => { s with reads := [] } := by
    simp [Dev.onSfl, hr]
  unfold Dev.readDone
  rw [found]
  dsimp only
  rw [gone, h, hw]

theorem Dev.readEnds_job (hw : r.why = .job id) (hu : d.plat.armed = []) (ht : d.chTrains (puaCh pua) = false)
    (hs : d.chServes (puaLunKey pua) (d.readOp r) = true) {level tries : Nat} {u : FUnit} {lost : Bool} {e : Dev}
    (h : (d.readTaken pua level tries r).readUnit pua level bad = (u, lost, e)) :
    d.readEnds pua level tries bad = (e.when (lost && u.tag.ty == 1) (·.rewriteLost pua u)).jobGot id u lost := by
  have found : d.sfl.reads.find? (fun r => r.pua == pua) = some r := by simp [hr, hp]
  unfold Dev.readEnds
  rw [found]
  dsimp only
  rw [if_neg (by simp [ht, hs]), if_neg (by simp [Dev.injected_of_unarmed hu])]
  refine Dev.readDone_job (r := r) ?_ hp hw h
  obtain ⟨es, os, h⟩ := (d.chServed (puaCh pua) (d.readOp r)).featuresSet_readFeatures pua level tries
  rw [h]
  exact hr

end

end Sys2Proof.Machine
end

section
/-! SUPPORT. What the layers of the map engine's work keep: parts of SFL's record, fields of SFL and PAR, errors that show, the values in force
and parts of the MRAM. -/
namespace Sys2Proof.Machine
open Sys2Proof

/-! ## Parts of SFL's record -/

section
variable (P : Sfl → Prop)

theorem keptByJournal_sfl (hb : ∀ s q b t, P s → P { s with seq := q, jbuf := b, lastFlush := t })
    (hc : ∀ s r, P s → P { s with rows := Map.modify RowEnt.reset s.rows r fun e => { e with wptrJ := e.wptr } }) :
    KeptByJournal fun e => P e.sfl where
  toKeptByStore := keptByStore_sfl P
  book h := hb _ _ _ _ h
  caughtUp h := hc _ _ h
  ring h := h
  seqLo h := by rwa [Dev.wr_sfl]
  ringUsed h := by rwa [Dev.wr_sfl]

theorem keptBySlots_sfl (hb : ∀ s q b t, P s → P { s with seq := q, jbuf := b, lastFlush := t })
    (hc : ∀ s r, P s → P { s with rows := Map.modify RowEnt.reset s.rows r fun e => { e with wptrJ := e.wptr } }) :
    KeptBySlots fun e => P e.sfl where
  toKeptByJournal := keptByJournal_sfl P hb hc
  par h := h
  banks h := h
  sjStat h := by rwa [Dev.wr_sfl]

theorem keptBySets_sfl (hb : ∀ s q b t, P s → P { s with seq := q, jbuf := b, lastFlush := t })
    (hc : ∀ s r, P s → P { s with rows := Map.modify RowEnt.reset s.rows r fun e => { e with wptrJ := e.wptr } })
    (hl : ∀ s m, P s → P { s with lostLuns := m }) : KeptBySets fun e => P e.sfl where
  toKeptBySlots := keptBySlots_sfl P hb hc
  lostLuns h := hl _ _ h
  setState h := by rwa [Dev.wr_sfl]
  setOff h := by rwa [Dev.wr_sfl, Dev.wr_sfl]

theorem keptByRows_sfl (hr : ∀ s m, P s → P { s with rows := m }) : KeptByRows fun e => P e.sfl where
  toKeptByStore := keptByStore_sfl P
  rows h := hr _ _ h
  validLo h := by rwa [Dev.wr_sfl]

theorem keptByPrograms_sfl (hb : ∀ s q b t, P s → P { s with seq := q, jbuf := b, lastFlush := t }) (hr : ∀ s m, P s → P { s with rows := m })
    (hp : ∀ s x p w, P s → P { s with stripes := x, progs := p, parWait := w }) : KeptByPrograms fun e => P e.sfl where
  toKeptBySlots := keptBySlots_sfl P hb fun _ _ h => hr _ _ h
  rows h := hr _ _ h
  validLo h := by rwa [Dev.wr_sfl]
  plans h := hp _ _ _ _ h
  pools h := by rwa [Dev.wr_sfl]
  gcDst h := by rwa [Dev.wr_sfl]
  parCnt _ h := by rwa [Dev.wr_sfl]
  parSetCnt _ h := by rwa [Dev.wr_sfl]

end

/-- Units and map stand through the work on programs, map pages and copies. -/
theorem keptByRewrites_units (P : Map FUnit → Map Nat → Prop) : KeptByRewrites fun e => P e.sfl.units e.sfl.map where
  toKeptByPrograms := keptByPrograms_sfl (fun s => P s.units s.map) (fun _ _ _ _ h => h) (fun _ _ h => h) fun _ _ _ _ h => h
  work h := h
  badBlocks h := h
  ckptOn h := by rwa [Dev.wr_sfl]
  sflCnt _ h := by rwa [Dev.wr_sfl]
  dirty h := by rwa [Dev.wr_sfl]
  pinned h := by rwa [Dev.wr_sfl]
  grown _ h := by rwa [Dev.wr_sfl]
  fcCnt _ h := by rwa [Dev.wr_sfl]

/-! ## Fields -/

section
variable {f : RegField} (hf : f.ofFlash) (P : Nat → Prop)
include hf

theorem keptByJournal_rd (hs : f.addr ≠ F.sflSeqLo.addr) (hu : ∀ d v, (Dev.wr d F.sflJrnStat_used v).rd f = d.rd f) :
    KeptByJournal fun e => P (e.rd f) where
  toKeptByStore := keptByStore_rd hf P
  book h := h
  caughtUp h := h
  ring h := h
  seqLo h := by rwa [Dev.rd_wr_other _ _ _ _ hs]
  ringUsed h := by rwa [hu]

theorem keptBySlots_rd (hs : f.addr ≠ F.sflSeqLo.addr) (hu : ∀ d v, (Dev.wr d F.sflJrnStat_used v).rd f = d.rd f) (hj : f.addr < 0x700000) :
    KeptBySlots fun e => P (e.rd f) where
  toKeptByJournal := keptByJournal_rd hf P hs hu
  par h := h
  banks h := h
  sjStat {d hi lo v} h := by rwa [Dev.rd_wr_other d ⟨0x709104, hi, lo, false⟩ f v (by simp only; omega)]

theorem keptBySets_rd (hs : f.addr ≠ F.sflSeqLo.addr) (hu : ∀ d v, (Dev.wr d F.sflJrnStat_used v).rd f = d.rd f) (hj : f.addr < 0x700000) :
    KeptBySets fun e => P (e.rd f) where
  toKeptBySlots := keptBySlots_rd hf P hs hu hj
  lostLuns h := h
  setState h := by rwa [Dev.rd_wr_other _ (F.parSetStat_state _) f _ (by simp only [F.parSetStat_state]; omega)]
  setOff h := by
    rwa [Dev.rd_wr_other _ (F.parSetMem _) f _ (by simp only [F.parSetMem]; omega),
      Dev.rd_wr_other _ (F.parSetCfg_en _) f _ (by simp only [F.parSetCfg_en]; omega)]

theorem keptByRows_rd (hv : f.addr ≠ F.sflValidLo.addr) : KeptByRows fun e => P (e.rd f) where
  toKeptByStore := keptByStore_rd hf P
  rows h := h
  validLo h := by rwa [Dev.rd_wr_other _ _ _ _ hv]

/-- A pool's number names any page: a field at another place of its page is left alone. -/
theorem keptByPrograms_rd (hs : f.addr ≠ F.sflSeqLo.addr) (hu : ∀ d v, (Dev.wr d F.sflJrnStat_used v).rd f = d.rd f) (hj : f.addr < 0x700000)
    (hv : f.addr ≠ F.sflValidLo.addr) (hp : f.addr % 4096 ≠ 0x11C) (hg : f.addr ≠ F.sflGcDst.addr) : KeptByPrograms fun e => P (e.rd f) where
  toKeptBySlots := keptBySlots_rd hf P hs hu hj
  rows h := h
  validLo h := by rwa [Dev.rd_wr_other _ _ _ _ hv]
  plans h := h
  pools {d p b v} h := by rwa [Dev.rd_wr_other d ⟨0x50111C + 0x1000 * p, b, b, false⟩ f v (by simp only; omega)]
  gcDst h := by rwa [Dev.rd_wr_other _ _ _ _ hg]
  parCnt _ h := by rwa [Dev.rd_wr_other _ (F.parCnt _) f _ (by simp only [F.parCnt]; omega)]
  parSetCnt _ h := by rwa [Dev.rd_wr_other _ (F.parSetCnt _ _) f _ (by simp only [F.parSetCnt]; omega)]

end

/-! ## Errors that show -/

section
variable {page bit : Nat} (hb : bit < 32)
include hb

theorem keptByRows_errorShows : KeptByRows fun e => e.errorShows page bit where
  toKeptByStore := keptByStore_errorShows hb
  rows h := h
  validLo h := (Dev.errorShows_wr _ (by decide) _ _ _).mpr h

theorem keptByJournal_errorShows : KeptByJournal fun e => e.errorShows page bit where
  toKeptByStore := keptByStore_errorShows hb
  book h := h
  caughtUp h := h
  ring h := h
  seqLo h := (Dev.errorShows_wr _ (by decide) _ _ _).mpr h
  ringUsed h := (Dev.errorShows_wr _ (by decide) _ _ _).mpr h

theorem keptBySlots_errorShows : KeptBySlots fun e => e.errorShows page bit where
  toKeptByJournal := keptByJournal_errorShows hb
  par h := h
  banks h := h
  sjStat h := (Dev.errorShows_wr _ (by simp) _ _ _).mpr h

theorem keptByPrograms_errorShows : KeptByPrograms fun e => e.errorShows page bit where
  toKeptBySlots := keptBySlots_errorShows hb
  rows h := h
  validLo h := (keptByRows_errorShows hb).validLo h
  plans h := h
  pools h := (Dev.errorShows_wr _ (by simp only; omega) _ _ _).mpr h
  gcDst h := (Dev.errorShows_wr _ (by decide) _ _ _).mpr h
  parCnt hi h := (Dev.errorShows_wr _ (by simp only [F.parCnt]; omega) _ _ _).mpr h
  parSetCnt hi h := (Dev.errorShows_wr _ (by simp only [F.parSetCnt]; omega) _ _ _).mpr h

theorem keptByRewrites_errorShows : KeptByRewrites fun e => e.errorShows page bit where
  toKeptByPrograms := keptByPrograms_errorShows hb
  work h := h
  badBlocks h := h
  ckptOn h := (Dev.errorShows_wr _ (by decide) _ _ _).mpr h
  sflCnt hi h := (Dev.errorShows_wr _ (by simp only [F.sflCnt]; omega) _ _ _).mpr h
  dirty h := (Dev.errorShows_wr _ (by decide) _ _ _).mpr h
  pinned h := (Dev.errorShows_wr _ (by decide) _ _ _).mpr h
  grown hc h := (Dev.errorShows_wr _ (by simp only [F.sflFcCe_grown]; omega) _ _ _).mpr h
  fcCnt hi h := (Dev.errorShows_wr _ (by simp only [F.sflFcCnt]; omega) _ _ _).mpr h

end

end Sys2Proof.Machine
end

section
/-! Programs that end (R187, R192). -/
namespace Sys2Proof.Machine
open Sys2Proof

namespace KeptByRewrites

variable {R : Dev → Prop} (k : KeptByRewrites R) {d : Dev}
include k

/-- What a program that passed leaves, once its unit stands. -/
theorem progPassed {p : Prog} (h : R (d.onSfl fun s => { s with units := Map.put s.units p.pua p.unit })) : R (d.progPassed p) := by
  unfold Dev.progPassed
  refine k.endStripe (k.startParity ?_)
  split
  · exact k.onJob (k.onStripe h)
  · exact k.mapWritten (k.mapWritten (k.onStripe h))
  · exact k.work (k.onStripe h)
  · exact k.onStripe h

/-- What a program that failed leaves, once PROG_FAIL is raised. -/
theorem progFailed {p : Prog} (h : R (d.raise (Pg.sflFc (puaCh p.pua)) Er.sflFc_progFail p.pua)) : R (d.progFailed p) := by
  unfold Dev.progFailed
  extract_lets row u ch pos counted added retired marked noted closed padded rewritten last
  have rewritten' : R rewritten := k.rewrite (kept_foldl (fun _ _ h => k.padStripe h)
    (k.closeRow (k.lostSlot (k.onStripe (k.retireBlock (k.stripeAdd (k.fcCnt (by decide) h)))))))
  clear_value rewritten
  refine k.endStripe (k.startParity ?_)
  unfold last
  split
  · exact k.ckptStart (k.work (k.raise rewritten'))
  · refine kept_foldl (fun d q h => ?_) rewritten'
    split
    · exact k.work (k.onMslot h)
    · exact h
  · exact rewritten'

end KeptByRewrites

theorem Dev.units_progPassed (d : Dev) (p : Prog) : Map.find (d.progPassed p).sfl.units p.pua = some p.unit :=
  (keptByRewrites_units fun us _ => Map.find us p.pua = some p.unit).progPassed (Map.find_put_same _ _ _)

theorem Dev.errorShows_progFailed (d : Dev) (p : Prog) : (d.progFailed p).errorShows (Pg.sflFc (puaCh p.pua)) Er.sflFc_progFail :=
  (keptByRewrites_errorShows (by decide)).progFailed (Dev.raise_errorShows _ _ _ (by decide))

/-! ## The program that the channel serves -/

/-- The program's end is counted. -/
def Dev.progCounted (d : Dev) (pua : Nat) : Dev := (d.sflCount 0).count (F.sflFcCnt (puaCh pua) 0)

/-- The PUA has no program under way. -/
def Dev.progDropped (d : Dev) (pua : Nat) : Dev := d.onSfl fun s => { s with progs := s.progs.filter (fun x => x.pua != pua) }

theorem Dev.pastTp_none {d : Dev} (h : d.plat.tp = none) (k : Nat) : d.pastTp k = false := by rw [Dev.pastTp, h]

section
variable {d : Dev} {pua : Nat} {p : Prog} (hp : d.sfl.progs.find? (fun y => y.pua == pua) = some p)
include hp

theorem prog_pua : p.pua = pua := by simpa using List.find?_some hp

theorem Dev.progDone_served (hu : d.plat.armed = []) (ch : Nat) (op : Nat × Bool) (pass : Bool) : (d.chServed ch op).progDone pua pass =
    if pass then (((d.chServed ch op).progCounted pua).progDropped pua).progPassed p
    else (((d.chServed ch op).progCounted pua).progFailed p).progDropped pua := by
  obtain ⟨tu, served⟩ := d.chServed_eq ch op
  rw [served]
  have found : (d.onSfl fun s => { s with turns := tu }).sfl.progs.find? (fun y => y.pua == pua) = some p := hp
  have unarmed : ((d.onSfl fun s => { s with turns := tu }).progCounted pua).plat.armed = [] := by
    rw [Dev.progCounted, Dev.count, Dev.wr_plat, Dev.sflCount, Dev.count, Dev.wr_plat]
    exact hu
  unfold Dev.progDone
  rw [found]
  dsimp only
  rw [show ((d.onSfl fun s => { s with turns := tu }).sflCount 0).count (F.sflFcCnt (puaCh pua) 0) =
    (d.onSfl fun s => { s with turns := tu }).progCounted pua from rfl, Dev.injected_of_unarmed unarmed, Dev.takeInjected_of_unarmed unarmed]
  cases pass <;> rfl

variable (hm : d.mayStart pua = true) (ht : d.chTrains (puaCh pua) = false) (hs : d.chServes (puaLunKey pua) (d.progOp p) = true)
include hm ht hs

theorem Dev.programEnds_served (hu : d.plat.armed = []) (hn : d.plat.tp = none) (pass : Bool) :
    d.programEnds pua pass = (d.chServed (puaCh pua) (d.progOp p)).progDone pua pass := by
  unfold Dev.programEnds
  rw [hp]
  dsimp only
  rw [if_neg (by simp [hm, ht, hs]), if_neg (by simp [Dev.pastTp_none hn]), if_neg (by simp [Dev.injected_of_unarmed hu])]

/-- After Tp a program that passes only stands in flash (R202). -/
theorem Dev.programEnds_late (hl : d.pastTp 0 = true) : d.programEnds pua true =
    d.onSfl fun x => { x with units := Map.put x.units pua p.unit, progs := x.progs.filter (fun y => y.pua != pua) } := by
  unfold Dev.programEnds
  rw [hp]
  dsimp only
  rw [if_neg (by simp [hm, ht, hs]), if_pos hl, Dev.lateProgram, hp]
  rfl

end

end Sys2Proof.Machine
end

section
/-! Erases that end (R193). -/
namespace Sys2Proof.Machine
open Sys2Proof

/-- A block of an erased row holds no unit. -/
def Dev.blockErased (d : Dev) (r ch : Nat) : Dev :=
  let p := mkPua ch (rowCe r) (rowLun r) (rowBlock r) 0
  (d.count (F.sflFcCnt ch 1)).onSfl fun s => { s with units := Map.dropWindow s.units p (4096 + p) }

def Dev.blocksErased (d : Dev) (r : Nat) (chs : List Nat) : Dev := chs.foldl (fun d ch => d.blockErased r ch) d

/-- An erased row stands as `x`, is no longer queued for refresh, and its ERASE entry is journaled. -/
def Dev.rowErased (d : Dev) (r n : Nat) (x : RowEnt) : Dev :=
  ((d.onRow r fun _ => x).onSfl fun s => { s with refresh := s.refresh.filter (· != r), eraseBad := Map.erase s.eraseBad r }).journal 8 0 r n 0 |>.2

/-! ## The blocks -/

section
variable (d : Dev) (r : Nat)

theorem Dev.blockErased_plat (ch : Nat) : (d.blockErased r ch).plat = d.plat := Dev.wr_plat ..

theorem Dev.blockErased_sfl (ch : Nat) : (d.blockErased r ch).sfl = { d.sfl with
    units := Map.dropWindow d.sfl.units (mkPua ch (rowCe r) (rowLun r) (rowBlock r) 0) (4096 + mkPua ch (rowCe r) (rowLun r) (rowBlock r) 0) } := by
  unfold Dev.blockErased Dev.onSfl Dev.count
  rw [Dev.wr_sfl]

theorem Dev.blocksErased_cons (ch : Nat) (chs : List Nat) : d.blocksErased r (ch :: chs) = (d.blockErased r ch).blocksErased r chs := rfl

/-- What an erased block leaves alone, the whole row's leave alone. -/
theorem Dev.blocksErased_keeps {α : Type} {g : Dev → α} (h : ∀ d ch, g (Dev.blockErased d r ch) = g d) (chs : List Nat) :
    g (d.blocksErased r chs) = g d := by
  induction chs generalizing d with
  | nil => rfl
  | cons ch chs ih => exact (ih _).trans (h d ch)

theorem Dev.blocksErased_sfl (chs : List Nat) : ∃ us, (d.blocksErased r chs).sfl = { d.sfl with units := us } := by
  induction chs generalizing d with
  | nil => exact ⟨_, rfl⟩
  | cons ch chs ih =>
    obtain ⟨us, h⟩ := ih (d.blockErased r ch)
    exact ⟨us, by rw [Dev.blocksErased_cons, h, Dev.blockErased_sfl]⟩

theorem Dev.rd_blocksErased (chs : List Nat) {f : RegField} (hf : f.addr % 4096 < 0x140 ∨ f.addr / 4096 = 0x600) :
    (d.blocksErased r chs).rd f = d.rd f := by
  refine Dev.blocksErased_keeps d r (g := (·.rd f)) (fun d ch => ?_) chs
  by_cases h : f.addr = (F.sflFcCnt ch 1).addr
  · simp only [F.sflFcCnt] at h
    omega
  · exact Dev.rd_count_other h d

theorem Dev.find_blocksErased_none {chs : List Nat} {q : Nat} (h : Map.find d.sfl.units q = none) :
    Map.find (d.blocksErased r chs).sfl.units q = none := by
  induction chs generalizing d with
  | nil => exact h
  | cons ch chs ih =>
    refine ih _ ?_
    rw [Dev.blockErased_sfl, Map.find_dropWindow _ _ (by omega), h]
    split <;> rfl

/-- No unit is left in an erased block. -/
theorem Dev.find_blocksErased {chs : List Nat} {ch k : Nat} (hc : ch ∈ chs) (hk : k < 4096) :
    Map.find (d.blocksErased r chs).sfl.units (mkPua ch (rowCe r) (rowLun r) (rowBlock r) k) = none := by
  induction chs generalizing d with
  | nil => cases hc
  | cons c chs ih =>
    rw [Dev.blocksErased_cons]
    obtain rfl | hc := List.mem_cons.mp hc
    · refine Dev.find_blocksErased_none _ _ ?_
      rw [Dev.blockErased_sfl, Map.find_dropWindow _ _ (by omega)]
      exact if_pos (by simp only [mkPua]; omega)
    · exact ih _ hc

end

/-! ## The row -/

theorem Dev.rowFresh_congr {d e : Dev} (hr : ∀ f : RegField, f.addr % 4096 < 0x140 → e.rd f = d.rd f) (hb : e.mram.badBlocks = d.mram.badBlocks)
    (hs : e.par.shadow = d.par.shadow) (r n : Nat) : e.rowFresh r n = d.rowFresh r n := by
  have mem (s : Nat) : e.rd (F.parSetMem s) = d.rd (F.parSetMem s) := hr _ (by simp only [F.parSetMem]; omega)
  have q (s : Nat) : e.rd (F.parSetCfg_q s) = d.rd (F.parSetCfg_q s) := hr _ (by simp only [F.parSetCfg_q]; omega)
  have ce : rowCe r < 8 := Nat.mod_lt _ (by decide)
  have state (ch : Nat) : e.rd (F.sflFcCe_state ch (rowCe r)) = d.rd (F.sflFcCe_state ch (rowCe r)) := hr _ (by simp only [F.sflFcCe_state]; omega)
  have luns (ch : Nat) : e.rd (F.sflFcCe_luns ch (rowCe r)) = d.rd (F.sflFcCe_luns ch (rowCe r)) := hr _ (by simp only [F.sflFcCe_luns]; omega)
  have type (ch : Nat) : e.rd (F.sflFcCe_type ch (rowCe r)) = d.rd (F.sflFcCe_type ch (rowCe r)) := hr _ (by simp only [F.sflFcCe_type]; omega)
  have blocks (t : Nat) : e.rd (F.sflDieGeom_blocks t) = d.rd (F.sflDieGeom_blocks t) := hr _ (by simp only [F.sflDieGeom_blocks]; omega)
  unfold Dev.rowFresh Dev.setMembers Dev.blockOut Dev.blockThere Dev.ceReady Dev.lunsOf Dev.blocksOf Dev.dieOf Dev.nPar Dev.setQ Dev.flag
  simp only [mem, q, state, luns, type, blocks, hb, hs]

theorem Dev.rowEnt_onRow_const (d : Dev) (r : Nat) (x : RowEnt) : (d.onRow r fun _ => x).rowEnt r = x := by
  refine (keptByStore_sfl fun s => Map.get RowEnt.reset s.rows r = x).showRow ?_
  exact (Map.get_modify RowEnt.reset d.sfl.rows r r fun _ => x).trans (if_pos rfl)

/-- An erased row stands through the journal and what follows; units and map are as they were. -/
theorem keptBySets_row (r : Nat) (x : RowEnt) (hx : x.wptrJ = x.wptr) (us : Map FUnit) (m : Map Nat) :
    KeptBySets fun e => Map.get RowEnt.reset e.sfl.rows r = x ∧ e.sfl.units = us ∧ e.sfl.map = m := by
  refine keptBySets_sfl (fun s => Map.get RowEnt.reset s.rows r = x ∧ s.units = us ∧ s.map = m) (fun s _ _ _ h => h) (fun s q h => ?_)
    fun s _ h => h
  obtain ⟨hr, rest⟩ := h
  refine ⟨?_, rest⟩
  dsimp only
  rw [Map.get_modify]
  split
  case isTrue e =>
    rw [← e, hr]
    cases x
    dsimp only at hx ⊢
    rw [hx]
  case isFalse => exact hr

theorem Dev.rowErased_row (d : Dev) (r n : Nat) {x : RowEnt} (hx : x.wptrJ = x.wptr) : Map.get RowEnt.reset (d.rowErased r n x).sfl.rows r = x ∧
    (d.rowErased r n x).sfl.units = d.sfl.units ∧ (d.rowErased r n x).sfl.map = d.sfl.map := by
  refine (keptBySets_row r x hx _ _).journal ?_
  have shown : (d.onRow r fun _ => x).sfl.units = d.sfl.units ∧ (d.onRow r fun _ => x).sfl.map = d.sfl.map :=
    (keptByRows_sfl (fun s => s.units = d.sfl.units ∧ s.map = d.sfl.map) fun _ _ h => h).onRow ⟨rfl, rfl⟩
  exact ⟨d.rowEnt_onRow_const r x, shown⟩

theorem sflCnt_ofFlash {i : Nat} (hi : i < 16) : (F.sflCnt i).ofFlash := by
  simp only [RegField.ofFlash, RegField.steady, F.sflCnt]
  omega

theorem keptBySets_sflCnt {i : Nat} (hi : i < 16) (P : Nat → Prop) : KeptBySets fun e => P (e.rd (F.sflCnt i)) := by
  have apart : (F.sflCnt i).addr < 0x601000 := by simp only [F.sflCnt]; omega
  refine keptBySets_rd (sflCnt_ofFlash hi) P ?_ (fun d v => Dev.rd_wr_other d F.sflJrnStat_used _ v ?_) (by omega)
  · simp only [F.sflSeqLo, F.sflCnt]
    omega
  · simp only [F.sflJrnStat_used]
    omega

theorem Dev.rd_rowErased (d : Dev) (r n : Nat) {i : Nat} (hi : i < 16) (x : RowEnt) : (d.rowErased r n x).rd (F.sflCnt i) = d.rd (F.sflCnt i) := by
  refine (keptBySets_sflCnt hi (· = d.rd (F.sflCnt i))).journal ?_
  exact (keptByRows_rd (sflCnt_ofFlash hi) (· = d.rd (F.sflCnt i)) (by simp only [F.sflCnt, F.sflValidLo]; omega)).onRow
    (r := r) (f := fun _ => x) rfl

/-! ## An erase that ends well -/

/-- Two folds whose steps agree where `P` holds, which they keep. -/
theorem foldl_eq_of_kept {α : Type} {P : Dev → Prop} {f g : Dev → α → Dev} (he : ∀ d x, P d → f d x = g d x) (hk : ∀ d x, P d → P (g d x))
    {l : List α} {d : Dev} (h : P d) : l.foldl f d = l.foldl g d := by
  induction l generalizing d with
  | nil => rfl
  | cons x l ih =>
    rw [List.foldl_cons, List.foldl_cons, he d x h]
    exact ih (hk d x h)

theorem foldl_range_getD {α : Type} (l : List Nat) (f : α → Nat → α) (a : α) :
    (List.range l.length).foldl (fun a i => f a (l.getD i 0)) a = l.foldl f a := by
  have all : (List.range l.length).map (fun i => l.getD i 0) = l :=
    List.ext_getElem (by simp) fun i _ h => by simp [List.getElem?_eq_getElem h]
  conv_rhs => rw [← all]
  rw [List.foldl_map]

/-- An erase whose blocks all pass. -/
def Dev.erasedWhole (d : Dev) (r : Nat) : Dev :=
  (d.blocksErased r (d.positions r)).rowErased r (min 0xFFFF ((d.rowEnt r).erases + 1)) (d.rowFresh r (min 0xFFFF ((d.rowEnt r).erases + 1)))

section
variable {d : Dev} {r : Nat} (hu : d.plat.armed = []) (hb : Map.get 0 d.sfl.eraseBad r = 0) (hst : (d.rowEnt r).st = .erasing)
include hu hb hst

theorem Dev.eraseDone_eq : d.eraseDone r 0 = ((d.erasedWhole r).sflCount 3).lostClear.dropBack := by
  unfold Dev.eraseDone
  rw [if_neg (by simp [hst])]
  extract_lets chs erased n fresh noted
  have blocks : erased = d.blocksErased r chs := by
    refine (foldl_eq_of_kept (P := fun e => e.plat.armed = [] ∧ Map.get 0 e.sfl.eraseBad r = 0)
      (g := fun e i => e.blockErased r (chs.getD i 0)) (fun e i h => ?_) (fun e i h => ?_) ⟨hu, hb⟩).trans
      (foldl_range_getD chs (fun e ch => e.blockErased r ch) d)
    · obtain ⟨armed, bad⟩ := h
      dsimp only
      generalize chs.getD i 0 = ch
      have counted : (e.count (F.sflFcCnt ch 1)).plat.armed = [] := Dev.count_unarmed armed _
      have sfl : (e.count (F.sflFcCnt ch 1)).sfl = e.sfl := Dev.wr_sfl ..
      rw [if_neg (by simp [sfl, bad, Dev.injected_of_unarmed counted])]
      rfl
    · rwa [Dev.blockErased_plat, Dev.blockErased_sfl]
  obtain ⟨us, sfl⟩ := d.blocksErased_sfl r chs
  have row : (d.blocksErased r chs).rowEnt r = d.rowEnt r := by rw [Dev.rowEnt, sfl, Dev.rowEnt]
  have new : erased.rowFresh r n = d.rowFresh r n := by
    rw [blocks]
    refine Dev.rowFresh_congr (fun f hf => d.rd_blocksErased r chs (.inl hf)) ?_ ?_ r n
    · exact congrArg Mram.badBlocks (d.blocksErased_keeps r (g := (·.mram)) (fun _ _ => Dev.wr_mram ..) chs)
    · exact congrArg Par.shadow (d.blocksErased_keeps r (g := (·.par)) (fun _ _ => Dev.wr_par ..) chs)
  have count : n = min 0xFFFF ((d.rowEnt r).erases + 1) := by
    unfold n
    rw [blocks, row]
  unfold noted fresh Dev.erasedWhole Dev.rowErased
  rw [new, blocks, count]

/-- The row stands anew, no unit is in it and the map is as it was. -/
theorem Dev.eraseDone_row : let m := d.eraseDone r 0
    m.rowEnt r = d.rowFresh r (min 0xFFFF ((d.rowEnt r).erases + 1)) ∧
      (∀ c ∈ d.positions r, ∀ k, k < 4096 → Map.find m.sfl.units (mkPua c (rowCe r) (rowLun r) (rowBlock r) k) = none) ∧ m.sfl.map = d.sfl.map := by
  intro m
  obtain ⟨us, sfl⟩ := d.blocksErased_sfl r (d.positions r)
  have k := keptBySets_row r (d.rowFresh r (min 0xFFFF ((d.rowEnt r).erases + 1))) rfl (d.blocksErased r (d.positions r)).sfl.units d.sfl.map
  have erased := (d.blocksErased r (d.positions r)).rowErased_row r (min 0xFFFF ((d.rowEnt r).erases + 1))
    (x := d.rowFresh r (min 0xFFFF ((d.rowEnt r).erases + 1))) rfl
  rw [sfl] at erased
  rw [sfl] at k
  obtain ⟨row, units, map⟩ := k.dropBack (k.lostClear (d := (d.erasedWhole r).sflCount 3) (by rwa [Dev.sflCount, Dev.count, Dev.wr_sfl]))
  rw [← Dev.eraseDone_eq hu hb hst] at row units map
  refine ⟨row, fun c hc i hi => ?_, map⟩
  rw [units, ← d.find_blocksErased r hc hi, sfl]

theorem Dev.rd_eraseDone : (d.eraseDone r 0).rd (F.sflCnt 3) = satInc 32 (d.rd (F.sflCnt 3)) := by
  rw [Dev.eraseDone_eq hu hb hst]
  have k := keptBySets_sflCnt (i := 3) (by decide) (· = satInc 32 (d.rd (F.sflCnt 3)))
  refine k.dropBack (k.lostClear ?_)
  rw [Dev.sflCount, Dev.rd_count _ _ (by decide), Dev.erasedWhole, Dev.rd_rowErased _ _ _ (by decide), Dev.rd_blocksErased _ _ _ (.inr rfl)]
  rfl

end

end Sys2Proof.Machine
end

section
/-! Ends of programs, erases and reads, and operations that time out (R187, R192, R193, R202, R207, R212). -/
namespace Sys2Proof.Machine
open Sys2Proof

/-! ## A read that a job waits for -/

/-- The row of a unit that stands is the one its tag names. -/
theorem Dev.rowOfPua_congr {d e : Dev} {pua : Nat} {u : FUnit} (hf : Map.find d.sfl.units pua = some u) (h : e.sfl.units = d.sfl.units) :
    e.rowOfPua pua = d.rowOfPua pua := by
  unfold Dev.rowOfPua
  rw [h, hf]

theorem Dev.posLost_congr {d e : Dev} (hr : e.sfl.rows = d.sfl.rows) (hl : e.sfl.lostLuns = d.sfl.lostLuns) (r ch : Nat) :
    e.posLost r ch = d.posLost r ch := by
  unfold Dev.posLost Dev.rowEnt
  rw [hr, hl]

/-- What a read is judged by is as it was before the channel took it. -/
theorem Dev.readTaken_counted (d : Dev) (pua level tries : Nat) (r : FRead) : let c := (d.readTaken pua level tries r).readCounted pua
    c.plat = d.plat ∧ c.sfl.units = d.sfl.units ∧ c.sfl.fencedLuns = d.sfl.fencedLuns ∧ c.sfl.rows = d.sfl.rows ∧
      c.sfl.lostLuns = d.sfl.lostLuns ∧ ∀ f : RegField, f.addr % 4096 < 0x140 → c.rd f = d.rd f := by
  intro c
  obtain ⟨tu, es, os, taken⟩ := d.readTaken_eq pua level tries r
  have sfl : c.sfl = _ := (Dev.readCounted_sfl _ _).trans (congrArg Dev.sfl taken)
  have plat : c.plat = _ := (Dev.readCounted_plat _ _).trans (congrArg Dev.plat taken)
  have low (f : RegField) (hf : f.addr % 4096 < 0x140) : c.rd f = d.rd f := by
    rw [Dev.rd_readCounted _ _ hf, taken]
    rfl
  refine ⟨plat, ?_, ?_, ?_, ?_, low⟩ <;> rw [sfl] <;> rfl

section
variable {d : Dev} {pua : Nat} {r : FRead} {id : Nat} (hr : d.sfl.reads = [r]) (hp : r.pua = pua) (hw : r.why = .job id)
  (hu : d.plat.armed = []) (ht : d.chTrains (puaCh pua) = false) (hs : d.chServes (puaLunKey pua) (d.readOp r) = true)
  {u : FUnit} (hf : Map.find d.sfl.units pua = some u) (tries : Nat) (bad : List Nat)
include hr hp hw hu ht hs hf

theorem Dev.readEnds_lost : d.readEnds pua 4 tries bad =
    let m := (((d.readTaken pua 4 tries r).readCounted pua).raise (Pg.sflFc (puaCh pua)) Er.sflFc_readLost pua).sflCount 7
    let lost : FUnit := ⟨{ u.tag with hollowMap := 0xFFFF }, []⟩
    (if u.tag.ty = 1 then m.rewriteLost pua lost else m).jobGot id lost true := by
  obtain ⟨plat, units, -⟩ := d.readTaken_counted pua 4 tries r
  rw [Dev.readEnds_job hr hp hw hu ht hs (Dev.readUnit_lost (u := u) (by rwa [plat]) (by rwa [units]))]
  simp only [Dev.when, Bool.true_and, beq_iff_eq]

variable (hl : d.lunAvail (puaCh pua) (puaCe pua) (puaLun pua) = true) (hx : ∀ x, d.rowOfPua pua = some x → d.posLost x (puaCh pua) = false)

include hl hx

theorem Dev.readEnds_f0 : d.readEnds pua 0 tries bad = ((d.readTaken pua 0 tries r).readCounted pua).jobGot id u false := by
  obtain ⟨plat, units, fenced, rows, lost, low⟩ := d.readTaken_counted pua 0 tries r
  have read := Dev.readUnit_f0 (bad := bad) (u := u) (by rwa [plat]) (by rwa [units])
    ((Dev.lunAvail_congr plat fenced low (Nat.mod_lt _ (by decide))).trans hl)
    fun x h => (Dev.posLost_congr rows lost _ _).trans (hx x (by rwa [Dev.rowOfPua_congr hf units] at h))
  rw [Dev.readEnds_job hr hp hw hu ht hs read, Bool.false_and, Dev.when, if_neg Bool.false_ne_true]

theorem Dev.readEnds_f1 {x : Nat} (hrow : d.rowOfPua pua = some x) (hre : d.rd (F.sflDieFeat_retry (d.dieOf (puaCh pua) (puaCe pua))) ≠ 0) :
    d.readEnds pua 1 tries bad = ((((d.readTaken pua 1 tries r).readCounted pua).readF1 pua).rowRetried x).jobGot id u false := by
  obtain ⟨plat, units, fenced, rows, lost, low⟩ := d.readTaken_counted pua 1 tries r
  have die : ((d.readTaken pua 1 tries r).readCounted pua).dieOf (puaCh pua) (puaCe pua) = d.dieOf (puaCh pua) (puaCe pua) :=
    low _ (by have : puaCe pua < 8 := Nat.mod_lt _ (by decide); simp only [F.sflFcCe_type]; omega)
  exact Dev.readEnds_job hr hp hw hu ht hs (Dev.readUnit_f1 (by rwa [plat]) (by rwa [units])
    ((Dev.lunAvail_congr plat fenced low (Nat.mod_lt _ (by decide))).trans hl)
    (fun x h => (Dev.posLost_congr rows lost _ _).trans (hx x (by rwa [Dev.rowOfPua_congr hf units] at h)))
    ((Dev.rowOfPua_congr hf units).trans hrow)
    (by rwa [die, low _ (by simp only [F.sflDieFeat_retry]; omega)]))

theorem Dev.readEnds_f2 {x : Nat} (hrow : d.rowOfPua pua = some x) :
    d.readEnds pua 2 tries bad = ((((d.readTaken pua 2 tries r).readCounted pua).readF2 pua).queueRefresh x).jobGot id u false := by
  obtain ⟨plat, units, fenced, rows, lost, low⟩ := d.readTaken_counted pua 2 tries r
  exact Dev.readEnds_job hr hp hw hu ht hs (Dev.readUnit_f2 (by rwa [plat]) (by rwa [units])
    ((Dev.lunAvail_congr plat fenced low (Nat.mod_lt _ (by decide))).trans hl)
    (fun x h => (Dev.posLost_congr rows lost _ _).trans (hx x (by rwa [Dev.rowOfPua_congr hf units] at h)))
    ((Dev.rowOfPua_congr hf units).trans hrow))

end

/-! ## A read that times out -/

/-- The time-outs of the last 400 ticks. -/
def Dev.timedOut (d : Dev) (pua : Nat) : Dev :=
  d.onSfl fun x => { x with timeouts := (x.timeouts ++ [(puaLunKey pua, d.now)]).filter fun y => decide (d.since y.2 < 400) }

/-- The third of a LUN in that time fails it (R207). -/
def Dev.lunJudged (d : Dev) (pua : Nat) : Dev :=
  if 3 ≤ (d.sfl.timeouts.filter (fun y => y.1 == puaLunKey pua)).length ∧ d.sfl.fencedLuns.contains (puaLunKey pua) = false
  then d.lunFail (puaCh pua) (puaCe pua) (puaLun pua) else d

theorem Dev.opTimesOut_read {d : Dev} {pua : Nat} {r : FRead} (hr : d.sfl.reads = [r]) (hp : r.pua = pua) (hu : d.plat.armed = [])
    (ht : d.chTrains (puaCh pua) = false) (hq : d.sfl.progs = []) (hn : d.plat.tp = none) : d.opTimesOut pua =
      ((((d.raise (Pg.sflFc (puaCh pua)) Er.sflFc_timeout pua).count (F.sflFcCnt (puaCh pua) 7)).readDone pua 3 [pua]).timedOut pua).lunJudged pua := by
  unfold Dev.opTimesOut
  rw [if_neg (by simp [Dev.pastTp_none hn, ht, hq])]
  have prog : d.sfl.progs.any (fun p => p.pua == pua) = false := by rw [hq]; rfl
  have read : d.sfl.reads.any (fun x => x.pua == pua) = true := by simp [hr, hp]
  unfold Dev.flashTimeout
  rw [prog, read]
  extract_lets ch k _ _ erased raised ended kept
  rw [if_neg (by simp)]
  have raised' : raised = (d.raise (Pg.sflFc ch) Er.sflFc_timeout pua).count (F.sflFcCnt ch 7) := by
    unfold raised
    rw [Dev.takeInjected_of_unarmed hu]
  unfold kept ended
  rw [raised']
  simp only [Bool.not_eq_true']
  rfl

/-! ## The obligation -/

theorem completes_flashProgramDone {s : State} {pua : Nat} {pass : Bool} {Q : Dev → Prop} (h : Q (s.dev.programEnds pua pass).flashMoves) :
    completes (.flashProgramDone pua pass) s Q := ⟨_, rfl, h⟩

theorem completes_flashEraseDone {s : State} {r failed : Nat} {Q : Dev → Prop} (h : Q (s.dev.eraseEnds r failed).flashMoves) :
    completes (.flashEraseDone r failed) s Q := ⟨_, rfl, h⟩

theorem completes_flashReadDone {s : State} {pua : Nat} {how : ReadEnd} {bad : List Nat} {Q : Dev → Prop}
    (h : Q (s.dev.readEnds pua how.level how.tries bad).flashMoves) : completes (.flashReadDone pua how bad) s Q := ⟨_, rfl, h⟩

theorem completes_flashOpTimeout {s : State} {pua : Nat} {Q : Dev → Prop} (h : Q (s.dev.opTimesOut pua).flashMoves) :
    completes (.flashOpTimeout pua) s Q := ⟨_, rfl, h⟩

/-- Settles O34: each end is the operation that the channel serves; what follows a program leaves its unit and PROG_FAIL, and what follows an erase
leaves its row. -/
theorem flashOperations : Obligations.FlashOperations := by
  unfold Obligations.FlashOperations
  intro s pua hu ht d ch drop
  refine ⟨fun p hp hm hs => ?program, fun r hst hn htr hb => ?erase, fun r id hr hpua hw hs => ?read⟩
  case program =>
    intro n
    have ends (hn : d.plat.tp = none) (pass : Bool) : d.programEnds pua pass = if pass then (drop n).progPassed p else drop (n.progFailed p) :=
      (Dev.programEnds_served hp hm ht hs hu hn pass).trans (Dev.progDone_served hp hu _ _ pass)
    have at_ : p.pua = pua := prog_pua hp
    refine ⟨fun hn => ⟨completes_flashProgramDone ⟨?_, ?_⟩, completes_flashProgramDone ⟨?_, ?_⟩⟩, fun hl => completes_flashProgramDone ?_⟩
    · rw [ends hn true]
      rfl
    · rw [← at_]
      exact Dev.units_progPassed _ _
    · rw [ends hn false]
      rfl
    · have shows := n.errorShows_progFailed p
      rwa [at_] at shows
    · rw [Dev.programEnds_late hp hm ht hs hl]
  case erase =>
    intro m
    obtain ⟨row, units, map⟩ := Dev.eraseDone_row hu hb hst
    refine completes_flashEraseDone ⟨?_, row, units, Dev.rd_eraseDone hu hb hst, map⟩
    change (d.eraseEnds r 0).flashMoves = _
    rw [Dev.eraseEnds, if_neg (by simp [hst, htr]), if_neg (by simp [Dev.pastTp_none hn])]
  case read =>
    intro n there
    refine ⟨fun u tries bad hf h => ?_, fun u x tries bad hf h hx => ?_, fun u tries bad hf => ?_, fun hq hn => ?_⟩
    · obtain ⟨hl, hlost⟩ := h
      exact completes_flashReadDone (congrArg Dev.flashMoves (Dev.readEnds_f0 hr hpua hw hu ht hs hf tries bad hl hlost))
    · obtain ⟨hl, hlost⟩ := h
      exact ⟨fun hre => completes_flashReadDone (congrArg Dev.flashMoves (Dev.readEnds_f1 hr hpua hw hu ht hs hf tries bad hl hlost hx hre)),
        completes_flashReadDone (congrArg Dev.flashMoves (Dev.readEnds_f2 hr hpua hw hu ht hs hf tries bad hl hlost hx))⟩
    · exact completes_flashReadDone (congrArg Dev.flashMoves (Dev.readEnds_lost hr hpua hw hu ht hs hf tries bad))
    · exact completes_flashOpTimeout (congrArg Dev.flashMoves (Dev.opTimesOut_read hr hpua hu ht hq hn))

end Sys2Proof.Machine
end

section
/-! Map pages, journal flush, checkpoint and SFL_TIME (R174, R175, R185, R198, R199). -/
namespace Sys2Proof.Machine
open Sys2Proof

/-! ## A page that is lost -/

theorem KeptByRows.mapSet {R : Dev → Prop} (k : KeptByRows R) (hm : ∀ {d : Dev} {m : Sfl → Map Nat}, R d → R (d.onSfl fun s => { s with map := m s }))
    {d : Dev} {glu e : Nat} (h : R d) : R (d.mapSet glu e) := by
  unfold Dev.mapSet
  extract_lets counted set
  have set' : R set := hm (k.validBy (k.validBy h))
  split
  · exact k.putTable set'
  · exact set'

theorem Dev.mapSet_map (d : Dev) (glu e : Nat) : (d.mapSet glu e).sfl.map = Map.set 0 d.sfl.map glu e := by
  have k (m : Map Nat) : KeptByRows fun e => e.sfl.map = m := keptByRows_sfl (fun s => s.map = m) fun _ _ h => h
  have counted : ((d.validBy (d.mapEnt glu) false).validBy e true).sfl.map = d.sfl.map := (k _).validBy ((k _).validBy rfl)
  unfold Dev.mapSet
  extract_lets noted set
  have set' : set.sfl.map = Map.set 0 d.sfl.map glu e := congrArg (Map.set 0 · glu e) counted
  split
  · exact (k _).putTable set'
  · exact set'

/-- The 4,096 entries of a lost page are set once MAP_LOST is raised. -/
theorem KeptByRows.mapLost {R : Dev → Prop} (k : KeptByRows R)
    (hm : ∀ {d : Dev} {m : Sfl → Map Nat}, R d → R (d.onSfl fun s => { s with map := m s })) {d : Dev} {p : Nat}
    (h : R ((d.takeInjected Pg.sflReg Er.sflReg_mapLost).raise Pg.sflReg Er.sflReg_mapLost p)) : R (d.mapLost p) := by
  unfold Dev.mapLost
  exact kept_foldl (fun _ _ h => k.mapSet hm h) h

theorem Dev.errorShows_mapLost (d : Dev) (p : Nat) : (d.mapLost p).errorShows Pg.sflReg Er.sflReg_mapLost :=
  (keptByRows_errorShows (by decide)).mapLost (fun h => h) (Dev.raise_errorShows _ _ _ (by decide))

/-- A GLU that is set in a run of them reads so at its end. -/
theorem Dev.get_mapSet_foldl {l : List Nat} {f : Nat → Nat} {e i : Nat} (d : Dev)
    (h : i ∈ l ∨ Map.get 0 d.sfl.map (f i) = e) : Map.get 0 (l.foldl (fun d i => d.mapSet (f i) e) d).sfl.map (f i) = e := by
  induction l generalizing d with
  | nil => exact h.resolve_left List.not_mem_nil
  | cons x l ih =>
    refine ih _ ?_
    rw [Dev.mapSet_map, Map.get_set]
    obtain h | h := h
    · obtain rfl | h := List.mem_cons.mp h
      · exact .inr (if_pos rfl)
      · exact .inl h
    · exact .inr (by rw [h, ite_self])

theorem Dev.mapEnt_mapLost (d : Dev) {p i : Nat} (hi : i < 4096) : (d.mapLost p).mapEnt (4096 * p + i) = entLost := by
  unfold Dev.mapEnt
  split
  · rfl
  · unfold Dev.mapLost
    have at_ := List.mem_range.mpr hi
    generalize List.range 4096 = l at at_ ⊢
    exact Dev.get_mapSet_foldl (f := fun i => 4096 * p + i) _ (.inl at_)

section
variable {d : Dev} {p n : Nat} (hn : d.slotOfPage p = some n)
include hn

/-- The slot holds a page that was loaded. -/
def Dev.pageCame (d : Dev) (n : Nat) : Dev := (d.onMslot n fun x => { x with valid := true, loading := false, got := none }).sflCount 9

theorem Dev.mapLoaded_eq (hl : (d.mslot n).loading = true) (hu : d.plat.armed = []) {ok : Bool} (hg : (d.mslot n).got = some ok) :
    d.mapLoaded p = ((if ok then d.pageCame n else (d.pageCame n).mapLost p).pageFound p).slotFill n p := by
  have unarmed : (d.pageCame n).plat.armed = [] := Dev.count_unarmed (d := d.onMslot n _) hu _
  unfold Dev.mapLoaded
  rw [hn]
  dsimp only
  rw [hl, hg]
  dsimp only
  rw [show (d.onMslot n fun x => { x with valid := true, loading := false, got := none }).sflCount 9 = d.pageCame n from rfl,
    Dev.injected_of_unarmed unarmed, Bool.not_false, Bool.and_true]

theorem Dev.pairWait_due (hr : d.flashReady = true) (hv : (d.mslot n).valid = true) (hd : (d.mslot n).dirty = true)
    (hw : (d.mslot n).writing = false) (ht : d.rd F.sflMapCfg ≤ d.since (d.mslot n).since) : d.pairWait p = d.mapWrite p absent := by
  unfold Dev.pairWait
  rw [hn]
  dsimp only
  rw [if_pos (by simp [hr, hv, hd, hw, ht])]

end

/-! ## The journal's buffer goes to the ring -/

section
variable {d : Dev}

theorem Dev.showRing_unlogged : d.showRing.mram.unlogged = d.mram.unlogged := by
  unfold Dev.showRing
  extract_lets used shown
  have shown' : shown.mram = d.mram := Dev.wr_mram ..
  split
  · rw [Dev.raise_unlogged, shown']
  · rw [shown']

theorem Dev.showRing_now : d.showRing.now = d.now := by
  unfold Dev.showRing
  extract_lets used shown
  have shown' : shown.now = d.now := congrArg (fun p : Plat => p.tick.toNat) (Dev.wr_plat ..)
  split
  · exact (congrArg BitVec.toNat (shown.raise_plat ..).tick).trans shown'
  · exact shown'

/-- With no opened row and room in the ring, the whole buffer goes there. -/
theorem Dev.jflush_whole (ho : ∀ x ∈ d.sfl.rows, x.2.st ≠ .opened) (hr : d.sfl.jbuf.length + d.ringUsed ≤ ringSize) :
    d.jflush = (d.ringPut d.sfl.jbuf).2.onSfl fun s => { s with jbuf := [], lastFlush := d.now } := by
  have none_ : d.sfl.rows.filter (fun e => decide (e.2.st = .opened) && decide (e.2.wptr ≠ e.2.wptrJ)) = [] :=
    List.filter_eq_nil_iff.mpr fun e he => by simp [ho e he]
  have left : (d.ringPut d.sfl.jbuf).1 = [] := List.drop_eq_nil_of_le (by omega)
  have now : (d.ringPut d.sfl.jbuf).2.now = d.now :=
    Dev.showRing_now.trans (congrArg (fun p : Plat => p.tick.toNat) (Dev.mramPut_plat ..))
  unfold Dev.jflush
  rw [none_]
  dsimp only [List.foldl_nil]
  rw [List.nil_append, left, now]

theorem Mram.unlogged_ringHead (m : Mram) : m.unlogged.ringHead = m.ringHead := rfl
theorem Mram.unlogged_ring (m : Mram) : m.unlogged.ring = m.ring := rfl

theorem Dev.ringPut_mram (hr : d.sfl.jbuf.length + d.ringUsed ≤ ringSize) : let m := (d.ringPut d.sfl.jbuf).2.mram
    m.ringHead = (d.mram.ringHead + d.sfl.jbuf.length) % (2 * ringSize) ∧
      ∀ x, d.sfl.jbuf = [x] → Map.find m.ring (d.mram.ringHead % ringSize) = some x := by
  intro m
  have all : d.sfl.jbuf.take (ringSize - d.ringUsed) = d.sfl.jbuf := List.take_of_length_le (by omega)
  have put : m.unlogged = { d.mram with
      ring := ((List.range d.sfl.jbuf.length).zip d.sfl.jbuf).foldl
        (fun r (e : Nat × JEnt) => Map.put r ((d.mram.ringHead + e.1) % ringSize) e.2) d.mram.ring
      ringHead := (d.mram.ringHead + d.sfl.jbuf.length) % (2 * ringSize) }.unlogged := by
    unfold m Dev.ringPut
    dsimp only
    rw [Dev.showRing_unlogged, Dev.mramPut_mram, all]
  refine ⟨?_, fun x hx => ?_⟩
  · rw [← Mram.unlogged_ringHead, put, Mram.unlogged]
  · rw [← Mram.unlogged_ring, put, Mram.unlogged, hx]
    simp only [List.length_singleton, List.range_one, List.zip_cons_cons, List.zip_nil_right, List.foldl_cons, List.foldl_nil, Nat.add_zero,
      Map.find_put_same]

end

/-! ## A checkpoint that starts -/

section
variable {d : Dev}

theorem keptByJournal_roots (P : List Root → Nat → Prop) : KeptByJournal fun e => P e.mram.roots e.mram.ringTail where
  toKeptByStore := keptByStore_mram (fun m => P m.roots m.ringTail) fun m n h hm => by
    change P n.unlogged.roots n.unlogged.ringTail
    rw [h]
    exact hm
  book h := h
  caughtUp h := h
  ring h := h
  seqLo h := by rwa [Dev.wr_mram]
  ringUsed h := by rwa [Dev.wr_mram]

theorem keptByJournal_mctt (m : Map MSlot) : KeptByJournal fun e => e.sfl.mctt = m :=
  keptByJournal_sfl (fun s => s.mctt = m) (fun _ _ _ _ h => h) fun _ _ h => h

theorem Dev.takeSeq_mram : d.takeSeq.2.mram = d.mram := by
  unfold Dev.takeSeq Dev.showSeq Dev.put64
  exact Dev.wr_mram ..

theorem le_foldl_max (rs : List Root) (n : Nat) : n ≤ rs.foldl (fun n r => max n r.num) n ∧ ∀ r ∈ rs, r.num ≤ rs.foldl (fun n r => max n r.num) n := by
  induction rs generalizing n with
  | nil => exact ⟨Nat.le_refl _, fun _ h => nomatch h⟩
  | cons x rs ih =>
    obtain ⟨base, all⟩ := ih (max n x.num)
    refine ⟨by rw [List.foldl_cons]; omega, fun r hr => ?_⟩
    obtain rfl | hr := List.mem_cons.mp hr
    · rw [List.foldl_cons]
      omega
    · exact all r hr

/-- The rows that are opened or a source, and the append points, are journaled again at a checkpoint's start. -/
theorem Dev.ckptStart_eq (hc : d.sfl.ckpt = none) (hr : d.flashRuns = true) : ∃ e : Dev, (e.sfl.mctt = d.sfl.mctt) ∧
    d.ckptStart = (e.onSfl fun s => { s with ckpt := some ⟨(d.jflush.takeSeq.2.mram.roots.foldl (fun n r => max n r.num) 0) + 1, d.jflush.sfl.seq, [],
      false, d.jflush.takeSeq.2.mram.ringHead, (e.sfl.mctt.filter (fun x => x.2.dirty)).map (fun x => x.2.page)⟩ }).wrB F.sflJrnStat_ckpt true := by
  have k := keptByJournal_mctt d.sfl.mctt
  unfold Dev.ckptStart
  rw [if_neg (by simp [hc, hr])]
  refine ⟨_, ?_, rfl⟩
  refine kept_foldl (R := fun e => e.sfl.mctt = d.sfl.mctt) (fun _ _ h => k.journal h)
    (kept_foldl (R := fun e => e.sfl.mctt = d.sfl.mctt) (fun e x h => ?_) (k.takeSeq (k.jflush rfl)))
  extract_lets _ reopened
  have reopened' : reopened.sfl.mctt = d.sfl.mctt := by
    unfold reopened
    split
    · exact k.journal (k.journal h)
    · exact h
  split
  · exact k.journal reopened'
  · exact reopened'

theorem Dev.ckptStart_starts (hc : d.sfl.ckpt = none) (hr : d.flashRuns = true) : ∃ num tail,
    d.ckptStart.sfl.ckpt = some ⟨num, d.jflush.sfl.seq, [], false, tail, (d.sfl.mctt.filter (fun x => x.2.dirty)).map (fun x => x.2.page)⟩ ∧
      (∀ r ∈ d.mram.roots, r.num < num) ∧ tail = d.jflush.mram.ringHead ∧ d.ckptStart.flag F.sflJrnStat_ckpt = true := by
  obtain ⟨e, slots, start⟩ := Dev.ckptStart_eq hc hr
  rw [slots] at start
  have roots : d.jflush.mram.roots = d.mram.roots := (keptByJournal_roots fun rs _ => rs = d.mram.roots).jflush rfl
  refine ⟨_, _, by rw [start, Dev.wrB, Dev.wr_sfl]; rfl, fun r hr => ?_, by rw [Dev.takeSeq_mram], ?_⟩
  · rw [Dev.takeSeq_mram, roots]
    obtain ⟨-, all⟩ := le_foldl_max d.mram.roots 0
    exact Nat.lt_succ_of_le (all r hr)
  · rw [start, Dev.flag, Dev.wrB, Dev.rd_wr_same _ _ (by decide)]
    rfl

end

end Sys2Proof.Machine
end

section
/-! A checkpoint that ends, and the obligation (R174, R175, R185, R198, R199). -/
namespace Sys2Proof.Machine
open Sys2Proof

/-! ## What the ring's ROOT entry and the root's copy leave alone -/

theorem keptByPrograms_roots (P : List Root → Nat → Prop) : KeptByPrograms fun e => P e.mram.roots e.mram.ringTail where
  toKeptByJournal := keptByJournal_roots P
  par h := h
  banks h := h
  sjStat h := by rwa [Dev.wr_mram]
  rows h := h
  validLo h := by rwa [Dev.wr_mram]
  plans h := h
  pools h := by rwa [Dev.wr_mram]
  gcDst h := by rwa [Dev.wr_mram]
  parCnt _ h := by rwa [Dev.wr_mram]
  parSetCnt _ h := by rwa [Dev.wr_mram]

theorem keptByPrograms_ckpt (P : Option Ckpt → Prop) : KeptByPrograms fun e => P e.sfl.ckpt :=
  keptByPrograms_sfl (fun s => P s.ckpt) (fun _ _ _ _ h => h) (fun _ _ h => h) fun _ _ _ _ h => h

theorem keptByPrograms_sflStat (P : Nat → Prop) : KeptByPrograms fun e => P (e.rd F.sflStat) :=
  keptByPrograms_rd ⟨by decide, by decide⟩ P (by decide) (fun _ _ => Dev.rd_wr_other _ _ _ _ (by decide)) (by decide) (by decide) (by decide)
    (by decide)

theorem keptByPrograms_sflJrnCkpt (P : Nat → Prop) : KeptByPrograms fun e => P (e.rd F.sflJrnCkpt) :=
  keptByPrograms_rd ⟨by decide, by decide⟩ P (by decide) (fun _ _ => Dev.rd_wr_other _ _ _ _ (by decide)) (by decide) (by decide) (by decide)
    (by decide)

theorem keptByPrograms_sflJrnStat_ckpt (P : Nat → Prop) : KeptByPrograms fun e => P (e.rd F.sflJrnStat_ckpt) :=
  keptByPrograms_rd ⟨by decide, by decide⟩ P (by decide)
    (fun _ _ => Dev.rd_wr_beside _ _ _ _ (by decide) (by decide) (.inr (by decide))) (by decide) (by decide) (by decide) (by decide)

/-! ## A checkpoint that ends -/

/-- The parts of the new checkpoint are counted, and those of the one before no longer. -/
def Dev.partsCounted (d : Dev) (c : Ckpt) : Dev := (d.countParts (c.parts.map (·.2)) true).countParts (match d.mram.roots.getLast? with
  | some r => r.parts
  | none => []) false

/-- The root record of the checkpoint, and the ring's new tail. -/
def Dev.rootPut (d : Dev) (c : Ckpt) : Dev := d.mramPut 520 fun m => { m with
  roots := (m.roots ++ [(⟨c.num, c.c, d.rd F.sflTime, c.parts.map (·.2), c.tail⟩ : Root)]).drop (m.roots.length - 1)
  time := d.rd F.sflTime, ringTail := c.tail }

/-- No checkpoint is under way, and JRN_CKPT names this one. -/
def Dev.ckptShown (d : Dev) (c : Ckpt) : Dev := ((d.onSfl fun s => { s with ckpt := none }).wrB F.sflJrnStat_ckpt false).wr F.sflJrnCkpt c.num

/-- All of a checkpoint's end in a chip that is READY. -/
def Dev.ckptEnded (d : Dev) (c : Ckpt) : Dev :=
  ((((d.partsCounted c).rootPut c).journal 11 0 c.num (c.tail % ringSize) c.c).2.ckptShown c).showRing.rootCopy c (c.parts.map (·.2))

theorem KeptByPrograms.partsCounted {R : Dev → Prop} (k : KeptByPrograms R) {d : Dev} {c : Ckpt} (h : R d) : R (d.partsCounted c) :=
  k.countParts (k.countParts h)

section
variable (d : Dev) (c : Ckpt)

theorem Dev.rootPut_roots : (d.rootPut c).mram.roots.getLast? = some ⟨c.num, c.c, d.rd F.sflTime, c.parts.map (·.2), c.tail⟩ ∧
    (d.rootPut c).mram.ringTail = c.tail := by
  rw [Dev.rootPut, Dev.mramPut_mram]
  refine ⟨?_, rfl⟩
  dsimp only
  rw [List.getLast?_drop, if_neg (by simp), List.getLast?_concat]

theorem Dev.sflTime_partsCounted : (d.partsCounted c).rd F.sflTime = d.rd F.sflTime := by
  have k : KeptByRows fun e => e.rd F.sflTime = d.rd F.sflTime := keptByRows_rd ⟨by decide, by decide⟩ (· = d.rd F.sflTime) (by decide)
  exact k.countParts (k.countParts rfl)

theorem Dev.sflStat_ckptEnded : (d.ckptEnded c).rd F.sflStat = d.rd F.sflStat := by
  have k := keptByPrograms_sflStat (· = d.rd F.sflStat)
  refine k.rootCopy (k.showRing ?_)
  rw [Dev.ckptShown, Dev.rd_wr_other _ _ _ _ (by decide), Dev.wrB, Dev.rd_wr_other _ _ _ _ (by decide)]
  refine k.journal ?_
  rw [Dev.rootPut, Dev.rd_mramPut (by decide)]
  exact k.partsCounted rfl

theorem Dev.ckpt_ckptEnded : (d.ckptEnded c).sfl.ckpt = none := by
  have k := keptByPrograms_ckpt (· = none)
  unfold Dev.ckptEnded
  refine k.rootCopy (k.showRing ?_)
  rw [Dev.ckptShown, Dev.wr_sfl, Dev.wrB, Dev.wr_sfl]
  rfl

theorem Dev.roots_ckptEnded : (d.ckptEnded c).mram.roots.getLast? = some ⟨c.num, c.c, d.rd F.sflTime, c.parts.map (·.2), c.tail⟩ ∧
    (d.ckptEnded c).mram.ringTail = c.tail := by
  have k := keptByPrograms_roots fun rs tail => rs.getLast? = some ⟨c.num, c.c, d.rd F.sflTime, c.parts.map (·.2), c.tail⟩ ∧ tail = c.tail
  unfold Dev.ckptEnded
  refine k.rootCopy (k.showRing ?_)
  rw [Dev.ckptShown, Dev.wr_mram, Dev.wrB, Dev.wr_mram]
  refine k.journal ?_
  have put := (d.partsCounted c).rootPut_roots c
  rwa [Dev.sflTime_partsCounted] at put

theorem Dev.flag_ckptEnded : (d.ckptEnded c).flag F.sflJrnStat_ckpt = false := by
  have k := keptByPrograms_sflJrnStat_ckpt (· = 0)
  have shown (e : Dev) : (e.ckptShown c).rd F.sflJrnStat_ckpt = 0 := by
    rw [Dev.ckptShown, Dev.rd_wr_other _ _ _ _ (by decide), Dev.wrB, Dev.rd_wr_same _ _ (by decide)]
    rfl
  have bit : (d.ckptEnded c).rd F.sflJrnStat_ckpt = 0 := by
    unfold Dev.ckptEnded
    exact k.rootCopy (k.showRing (shown _))
  rw [Dev.flag, bit]
  rfl

theorem Dev.sflJrnCkpt_ckptEnded : (d.ckptEnded c).rd F.sflJrnCkpt = c.num % 2 ^ 32 := by
  have k := keptByPrograms_sflJrnCkpt (· = c.num % 2 ^ 32)
  have shown (e : Dev) : (e.ckptShown c).rd F.sflJrnCkpt = c.num % 2 ^ 32 := Dev.rd_wr_same _ _ (by decide) _
  unfold Dev.ckptEnded
  exact k.rootCopy (k.showRing (shown _))

variable {d c}

theorem Dev.ckptDone_eq (hc : d.sfl.ckpt = some c) (hw : d.ckptWhole c = true) (hs : d.rd F.sflStat = 2) : d.ckptDone = d.ckptEnded c := by
  have ready : (d.ckptEnded c).rd F.sflStat ≠ 1 := by
    rw [Dev.sflStat_ckptEnded, hs]
    decide
  unfold Dev.ckptDone
  rw [hc]
  dsimp -zeta only
  rw [if_neg (by simp [hw])]
  exact if_neg ready

end

/-! ## The obligation -/

section
variable {s : State} {Q : Dev → Prop}

theorem completes_mapPageLoaded {p : Nat} (h : Q (s.dev.mapLoaded p).flashMoves) : completes (.mapPageLoaded p) s Q := ⟨_, rfl, h⟩

theorem completes_mapPairWait {p : Nat} (h : Q (s.dev.pairWait p).flashMoves) : completes (.mapPairWait p) s Q := ⟨_, rfl, h⟩

theorem completes_journalFlush (hr : s.dev.flashRuns = true) (ht : s.dev.rd F.sflJrnCfg ≤ s.dev.since s.dev.sfl.lastFlush)
    (h : Q s.dev.jflush.flashMoves) : completes .journalFlush s Q := ⟨_, rfl, by dsimp only; rwa [if_pos ⟨hr, ht⟩]⟩

theorem completes_checkpointStart (hh : ringSize / 2 ≤ s.dev.ringUsed) (h : Q s.dev.ckptStart.flashMoves) : completes .checkpointStart s Q :=
  ⟨_, rfl, by dsimp only; rwa [if_pos hh]⟩

/-- In a chip that is READY no catalogue is loaded at a checkpoint's end. -/
theorem completes_checkpointDone (hs : s.dev.rd F.sflStat = 2) (h : Q s.dev.ckptDone.flashMoves) : completes .checkpointDone s Q :=
  ⟨_, rfl, by dsimp only; rwa [Dev.catWhenReady, if_neg fun h => h.1 hs]⟩

theorem completes_sflTimeAdvance (h : Q s.dev.secondPasses) : completes .sflTimeAdvance s Q := ⟨_, rfl, h⟩

end

/-- Settles O35: a page that is lost is its entries, set one after another; the journal's ring and the root records stand through what follows
them. -/
theorem mapAndJournal : Obligations.MapAndJournal := by
  unfold Obligations.MapAndJournal
  intro s d
  refine ⟨fun p n hn hl hu => ?loaded, fun p n hn hr hv hd hw ht => ?pair, fun hr ht => ?flush, fun ho hr => ?flushed, fun hh => ?start,
    fun hc hr => Dev.ckptStart_starts hc hr, fun c hc hw hs => ?done, fun ht => ?second⟩
  case loaded =>
    intro m
    refine ⟨fun hg => completes_mapPageLoaded ?_, fun hg => completes_mapPageLoaded ⟨?_, Dev.errorShows_mapLost m p, fun i hi => Dev.mapEnt_mapLost m hi⟩⟩
    · rw [Dev.mapLoaded_eq hn hl hu hg, if_pos rfl]
      rfl
    · rw [Dev.mapLoaded_eq hn hl hu hg, if_neg Bool.false_ne_true]
      rfl
  case pair => exact completes_mapPairWait (congrArg Dev.flashMoves (Dev.pairWait_due hn hr hv hd hw ht))
  case flush => exact completes_journalFlush hr ht rfl
  case flushed =>
    obtain ⟨head, ring⟩ := Dev.ringPut_mram hr
    rw [Dev.jflush_whole ho hr, Dev.onSfl_mram, Dev.onSfl_sfl]
    exact ⟨rfl, head, rfl, ring⟩
  case start => exact completes_checkpointStart hh rfl
  case done =>
    have ended := Dev.ckptDone_eq hc hw hs
    obtain ⟨last, tail⟩ := d.roots_ckptEnded c
    refine completes_checkpointDone hs ⟨rfl, ?_⟩
    rw [ended]
    exact ⟨d.ckpt_ckptEnded c, tail, last, d.flag_ckptEnded c, d.sflJrnCkpt_ckptEnded c, (d.sflStat_ckptEnded c).trans hs⟩
  case second => exact completes_sflTimeAdvance (if_neg (Nat.not_lt.mpr ht))

end Sys2Proof.Machine
end

section
/-! The rebuild of the map (R200, R221): what its steps keep, and the map that one MAP entry of the ring gives. -/
namespace Sys2Proof.Machine
open Sys2Proof

/-- The primitive steps of stripes examined at the rebuild keep `R`. -/
structure KeptByExamine (R : Dev → Prop) : Prop extends KeptByRewrites R where
  units : ∀ {d : Dev} {m : Sfl → Map FUnit}, R d → R (d.onSfl fun s => { s with units := m s })
  encLast : ∀ {d : Dev} {m : Sfl → Map Nat}, R d → R (d.onSfl fun s => { s with encLast := m s })

/-- What follows the scan of the tags: rows are counted again, stripes examined, and the tables shown. -/
def Dev.rebuildFinished (d : Dev) (unreadable : List Nat) : Dev :=
  let d := d.recount
  let d := d.toExamine.foldl (fun (d : Dev) x => d.examine unreadable x.1 x.2.1 x.2.2) d
  let d := (d.sfl.rows.filter (fun e => decide (e.2.st = .opened))).foldl (fun d e =>
    let n := d.firstErased e.1
    d.onRow e.1 fun x => { x with wptr := n, next := n }) d
  let dirty := (uniq (d.sfl.map.map (fun e => mapPage e.1))).filter (fun p =>
    match Map.find d.sfl.units (dirPua (d.dirEnt p)) with
    | some u => pageData d.sfl.map p (32768 * dirHalf (d.dirEnt p)) !=
        Map.window u.data (32768 * dirHalf (d.dirEnt p)) (32768 + 32768 * dirHalf (d.dirEnt p))
    | none => true)
  d.rebuildShows.onSfl fun s => { s with remap := s.remap ++ dirty.filter (fun p => !s.remap.contains p) }

namespace KeptByExamine

variable {R : Dev → Prop} (k : KeptByExamine R) {d : Dev}
include k

theorem seqAbove {q : Nat} (h : R d) : R (d.seqAbove q) := k.book h

theorem recount (h : R d) : R d.recount := by
  unfold Dev.recount
  extract_lets parts cleared zeroed mapped named
  have named' : R named := kept_foldl (fun _ _ h => k.dirValid h) (kept_foldl (fun _ _ h => k.validBy h) (k.plat (k.validLo (k.rows h))))
  refine kept_foldl (fun d p h => ?_) named'
  split
  · exact k.onRow h
  · exact h

theorem stripeAgain {r n : Nat} {slot : Option Nat} (h : R d) : R (d.stripeAgain r n slot) := by
  unfold Dev.stripeAgain
  refine k.rewrite ?_
  split
  · exact k.plans h
  · exact h

theorem examine {unreadable : List Nat} {r n : Nat} {slot : Option Nat} (h : R d) : R (d.examine unreadable r n slot) := by
  unfold Dev.examine
  extract_lets there get ps pq ds want lost noted sound free x put bare padded hol _ filled
  have noted' : R noted := kept_foldl (fun _ _ h => k.lostSlot h) h
  have put' {e : Dev} {p : Nat} {u : FUnit} (h : R e) : R (put e p u) := by
    unfold put
    exact k.units (k.takeSeq h)
  have free' {e : Dev} (h : R e) : R (free e) := by
    unfold free
    split
    · exact k.sjClear h
    · exact h
  split
  · exact k.stripeAgain (k.parCnt (by decide) (k.raise noted'))
  · split
    · exact k.stripeAgain (k.raise (k.parSetCnt (by decide) (k.parCnt (by decide) noted')))
    · have padded' : R padded := by
        unfold padded
        split
        · exact kept_foldl (fun _ _ h => k.parSetCnt (by decide) (k.parCnt (by decide) (put' h))) noted'
        · exact noted'
      have filled' : R filled := by
        refine kept_foldl (fun e x h => ?_) padded'
        split
        · exact h
        · exact put' h
      exact free' (k.parCnt (by decide) filled')

theorem rebuildShows (h : R d) : R d.rebuildShows := by
  unfold Dev.rebuildShows
  extract_lets units slots enc encs dirs shapes
  have slots' : R slots := kept_foldl (fun _ _ h => k.seqAbove h) (kept_foldl (fun _ _ h => k.seqAbove h) h)
  have dirs' : R dirs := kept_foldl (fun _ _ h => k.putTable h) (k.encLast slots')
  have shapes' : R shapes := kept_foldl (fun _ _ h => k.par h) dirs'
  exact k.showRing (k.showSeq (kept_foldl (fun _ _ h => k.rowsBuild h) shapes'))

theorem rebuildFinished {unreadable : List Nat} (h : R d) : R (d.rebuildFinished unreadable) := by
  unfold Dev.rebuildFinished
  exact k.work (k.rebuildShows (kept_foldl (fun _ _ h => k.onRow h) (kept_foldl (fun _ _ h => k.examine h) (k.recount h))))

end KeptByExamine

theorem keptByExamine_map (m : Map Nat) : KeptByExamine fun e => e.sfl.map = m where
  toKeptByRewrites := keptByRewrites_units fun _ n => n = m
  units h := h
  encLast h := h

theorem keptByExamine_force (m : Map Word) : KeptByExamine fun e => e.force = m where
  toKeptByStore := keptByStore_force (· = m)
  book h := h
  caughtUp h := h
  ring h := h
  seqLo h := by rwa [Dev.wr_force rfl]
  ringUsed h := by rwa [Dev.wr_force rfl]
  par h := h
  banks h := h
  sjStat h := by rwa [Dev.wr_force rfl]
  rows h := h
  validLo h := by rwa [Dev.wr_force rfl]
  plans h := h
  pools h := by rwa [Dev.wr_force rfl]
  gcDst h := by rwa [Dev.wr_force rfl]
  parCnt _ h := by rwa [Dev.wr_force rfl]
  parSetCnt _ h := by rwa [Dev.wr_force rfl]
  work h := h
  badBlocks h := h
  ckptOn h := by rwa [Dev.wr_force rfl]
  sflCnt _ h := by rwa [Dev.wr_force rfl]
  dirty h := by rwa [Dev.wr_force rfl]
  pinned h := by rwa [Dev.wr_force rfl]
  grown _ h := by rwa [Dev.wr_force rfl]
  fcCnt _ h := by rwa [Dev.wr_force rfl]
  units h := h
  encLast h := h

/-! ## The map that is read back -/

/-- The newest root that is readable. -/
def Dev.newestRoot (d : Dev) (badRoots : List Nat) : Option Root :=
  (d.mram.roots.filter (fun r => !badRoots.contains r.num)).foldl (fun (best : Option Root) r => match best with
    | none => some r
    | some b => if b.num < r.num then some r else some b) none

def Dev.rootLoaded (d : Dev) (unreadable badRoots : List Nat) : Dev := match d.newestRoot badRoots with
  | some r => d.loadRoot unreadable r
  | none => d

/-- The map once the root is loaded and the ring's entries `es` are replayed. -/
def Dev.mapReplayed (d : Dev) (unreadable : List Nat) (es : List JEnt) : Dev :=
  es.foldl Dev.replayMap ((es.foldl (fun (d : Dev) e => d.replayRow es e) d).loadMap unreadable)

/-- The SEQ of each MAP entry. -/
def replayedSeqs (es : List JEnt) : Map Nat := es.foldl (fun m e => if e.ty = 1 then Map.put m e.keyf (if e.dseq = 0 then e.seq else e.dseq) else m) []

def Dev.mapRebuilt (d : Dev) (unreadable badRing badRoots : List Nat) : Dev :=
  let r := d.rootLoaded unreadable badRoots
  (r.mapReplayed unreadable (r.ringEntries badRing)).tagScan (replayedSeqs (r.ringEntries badRing))
    (match d.newestRoot badRoots with
      | some r => r.c
      | none => 0) unreadable

def Dev.rebuildTimed (d : Dev) (ms : Nat) (unreadable badRing badRoots : List Nat) : Dev :=
  ((d.mapRebuilt unreadable badRing badRoots).rebuildFinished unreadable).wr F.sflRebuildTime ms

end Sys2Proof.Machine
end

section
/-! GC, erase start, rebuild and power failure of the flash (R188–R191, R200, R202). -/
namespace Sys2Proof.Machine
open Sys2Proof

/-! ## The rebuild leaves the configuration alone -/

section
variable {m : Map Word} {d : Dev}

theorem Dev.loadRoot_force {unreadable : List Nat} {r : Root} (h : d.force = m) : (d.loadRoot unreadable r).force = m := by
  unfold Dev.loadRoot
  extract_lets part lost dir rows ents _ pages told
  have told' : told.force = m := kept_foldl (R := fun e => e.force = m) (fun _ _ h => (keptByStore_force (· = m)).raise h) h
  clear_value told
  rw [Dev.wr_force rfl, Dev.onSfl_force, told']

theorem Dev.showAppend_force (v : Nat) : (d.showAppend v).force = d.force := by
  unfold Dev.showAppend
  rw [Dev.wr_force rfl]
  exact Dev.wr_force rfl _ _

theorem Dev.replayRow_force {es : List JEnt} {e : JEnt} (h : d.force = m) : (d.replayRow es e).force = m := by
  have k := keptByExamine_force m
  unfold Dev.replayRow
  extract_lets e'
  have above : e'.force = m := h
  clear_value e'
  split
  case h_2 => exact k.onRow above
  case h_3 => exact k.onRow above
  case h_4 => exact k.onRow above
  case h_5 => exact k.onRow above
  case h_6 => exact k.onRow above
  case h_7 => exact k.onRow above
  case h_9 =>
    rw [Dev.showAppend_force, Dev.onSfl_force, above]
  all_goals exact above

theorem Dev.pageFound_force {p : Nat} (h : d.force = m) : (d.pageFound p).force = m := by
  unfold Dev.pageFound
  split
  · rw [Dev.onSfl_force, h]
  · exact h

theorem Dev.replayMap_force {e : JEnt} (h : d.force = m) : (d.replayMap e).force = m := by
  unfold Dev.replayMap
  split
  · exact h
  · extract_lets old
    split
    · exact h
    · exact Dev.pageFound_force h

theorem Dev.loadMap_force {unreadable : List Nat} (h : d.force = m) : (d.loadMap unreadable).force = m := by
  unfold Dev.loadMap
  extract_lets named read lost told
  exact kept_foldl (R := fun e => e.force = m) (fun _ _ h => (keptByStore_force (· = m)).raise h) h

theorem Dev.tagScan_force {mapped : Map Nat} {c : Nat} {unreadable : List Nat} (h : d.force = m) : (d.tagScan mapped c unreadable).force = m := by
  have k := keptByStore_force (· = m)
  refine kept_foldl (R := fun e => e.force = m) (fun e x h => ?_) h
  extract_lets found
  refine kept_foldl (R := fun e => e.force = m) (fun e x h => ?_) h
  extract_lets glu cur curSeq wins set
  split
  · refine k.raise ?_
    rw [Dev.wr_force rfl]
    exact Dev.pageFound_force h
  · exact h

theorem Dev.mapReplayed_force {unreadable : List Nat} {es : List JEnt} (h : d.force = m) : (d.mapReplayed unreadable es).force = m :=
  kept_foldl (R := fun e => e.force = m) (fun _ _ h => Dev.replayMap_force h)
    (Dev.loadMap_force (kept_foldl (R := fun e => e.force = m) (fun _ _ h => Dev.replayRow_force h) h))

theorem Dev.rootLoaded_force {unreadable badRoots : List Nat} (h : d.force = m) : (d.rootLoaded unreadable badRoots).force = m := by
  unfold Dev.rootLoaded
  split
  · exact Dev.loadRoot_force h
  · exact h

end

section
variable {d : Dev} (ms : Nat) (unreadable badRing badRoots : List Nat)

theorem Dev.rebuildTimed_force : (d.rebuildTimed ms unreadable badRing badRoots).force = d.force := by
  rw [Dev.rebuildTimed, Dev.wr_force rfl]
  exact (keptByExamine_force d.force).rebuildFinished (Dev.tagScan_force (Dev.mapReplayed_force (Dev.rootLoaded_force rfl)))

theorem Dev.sysSet_congr {d e : Dev} (h : e.force = d.force) : e.sysSet = d.sysSet := by
  have set : e.rd F.parRegCfg = d.rd F.parRegCfg := Dev.rd_congr_force rfl h
  have on (s : Nat) : e.setOn s = d.setOn s := by rw [Dev.setOn, Dev.setOn, Dev.flag, Dev.flag, Dev.rd_congr_force rfl h]
  unfold Dev.sysSet
  rw [set]
  dsimp only
  rw [on]

/-- Without a system set the rebuild is over at once. -/
theorem Dev.flashRebuild_eq (hs : d.rd F.sflStat = 1) (hc : d.sfl.ckpt = none) (ht : d.setsTrain = false) (hy : d.sysSet = none) :
    d.flashRebuild ms unreadable badRing badRoots = (d.rebuildTimed ms unreadable badRing badRoots).wr F.sflStat 2 := by
  have none_ : (d.rebuildTimed ms unreadable badRing badRoots).sysSet = none := (Dev.sysSet_congr (d.rebuildTimed_force ..)).trans hy
  unfold Dev.flashRebuild
  rw [if_neg (by simp [hs, hc, ht])]
  extract_lets root loaded es rows read maps seqs scanned counted examined wptrs dirty shown timed
  have root' : root = d.newestRoot badRoots := rfl
  clear_value root
  have loaded' : loaded = d.rootLoaded unreadable badRoots := by
    unfold loaded Dev.rootLoaded
    rw [root'] <;> rfl
  clear_value loaded
  have maps' : maps = loaded.mapReplayed unreadable (loaded.ringEntries badRing) := rfl
  have seqs' : seqs = replayedSeqs (loaded.ringEntries badRing) := rfl
  clear_value maps seqs
  have scanned' : scanned = d.mapRebuilt unreadable badRing badRoots := by
    unfold scanned Dev.mapRebuilt
    rw [maps', seqs', loaded', root'] <;> rfl
  clear_value scanned
  have shown' : shown = scanned.rebuildFinished unreadable := rfl
  clear_value shown
  have timed' : timed = d.rebuildTimed ms unreadable badRing badRoots := by
    unfold timed Dev.rebuildTimed
    rw [shown', scanned']
  rw [timed', none_]

theorem Dev.rootLoaded_none (h : d.mram.roots = []) : d.rootLoaded unreadable badRoots = d := by
  have none_ : d.newestRoot badRoots = none := by simp [Dev.newestRoot, h]
  rw [Dev.rootLoaded, none_]

theorem Dev.replayRow_map {x : JEnt} (hx : x.ty = 1) (es : List JEnt) : d.replayRow es x = d.seqAbove x.seq := by
  rw [Dev.replayRow, hx]
  rfl

theorem Dev.loadMap_empty (hd : d.sfl.dir = []) (hl : d.sfl.lostPages = []) :
    d.loadMap unreadable = d.onSfl fun s => { s with map := [], lostPages := [] } := by
  simp [Dev.loadMap, Dev.onSfl, hd, hl]

theorem Dev.replayMap_first {x : JEnt} (hx : x.ty = 1) (hd : d.sfl.dir = []) (hl : d.sfl.lostPages = []) :
    d.replayMap x = d.onSfl fun s => { s with map := Map.set 0 s.map x.keyf x.value } := by
  have fresh : d.pageSeq (mapPage x.keyf) = none := by
    rw [Dev.pageSeq, Dev.dirEnt, hd]
    exact if_pos (Nat.zero_div _)
  have there : d.pageFound (mapPage x.keyf) = d := by simp [Dev.pageFound, hl]
  rw [Dev.replayMap, if_neg (by simp [hx]), fresh, there]
  rfl

theorem Dev.tagScan_closed (ho : ∀ r ∈ d.sfl.rows, r.2.st ≠ .opened) (mapped : Map Nat) (c : Nat) : d.tagScan mapped c unreadable = d := by
  have none_ : d.sfl.rows.filter (fun e => decide (e.2.st = .opened)) = [] := List.filter_eq_nil_iff.mpr fun e he => by simp [ho e he]
  rw [Dev.tagScan, none_]
  rfl

/-- One MAP entry in the ring, over no directory, is the whole map. -/
theorem Dev.rebuildTimed_map {x : JEnt} (he : d.ringEntries badRing = [x]) (hx : x.ty = 1) (hr : d.mram.roots = []) (hd : d.sfl.dir = [])
    (hl : d.sfl.lostPages = []) (ho : ∀ r ∈ d.sfl.rows, r.2.st ≠ .opened) :
    (d.rebuildTimed ms unreadable badRing badRoots).sfl.map = Map.set 0 [] x.keyf x.value := by
  have replayed : d.mapReplayed unreadable [x] = (d.seqAbove x.seq).onSfl fun s => { s with map := Map.set 0 [] x.keyf x.value, lostPages := [] } := by
    rw [Dev.mapReplayed, List.foldl_cons, List.foldl_nil, List.foldl_cons, List.foldl_nil, Dev.replayRow_map hx,
      Dev.loadMap_empty (d := d.seqAbove x.seq) _ hd hl]
    refine (Dev.replayMap_first hx ?_ rfl).trans (Dev.onSfl_onSfl ..)
    exact hd
  have scanned : d.mapRebuilt unreadable badRing badRoots = d.mapReplayed unreadable [x] := by
    have closed : ∀ r ∈ (d.mapReplayed unreadable [x]).sfl.rows, r.2.st ≠ .opened := by
      rw [replayed]
      exact ho
    rw [Dev.mapRebuilt, Dev.rootLoaded_none _ _ hr, he, Dev.tagScan_closed _ closed]
  rw [Dev.rebuildTimed, Dev.wr_sfl]
  refine (keptByExamine_map _).rebuildFinished ?_
  rw [scanned, replayed]
  rfl

end

/-! ## GC, erase and power failure -/

section
variable {d : Dev}

theorem Dev.gcSelect_picked {k r : Nat} (hr : d.flashReady = true) (ho : d.setOn k = true) (hs : d.gcSource k = none) (hp : d.gcPick k = some r) :
    d.gcSelect k = ((d.sourceRow r).onSfl fun x => { x with refresh := x.refresh.filter (· != r) }).wr F.sflGcSrc r := by
  unfold Dev.gcSelect
  rw [if_neg (by simp [hr, ho, hs]), hp]

/-- The row stands as the source, its SOURCE entry journaled. -/
theorem Dev.sourceRow_source {r : Nat} (h : (d.rowEnt r).st = .closed) : ((d.sourceRow r).rowEnt r).st = .source := by
  have k : KeptByJournal fun e => (Map.get RowEnt.reset e.sfl.rows r).st = .source := by
    refine keptByJournal_sfl (fun s => (Map.get RowEnt.reset s.rows r).st = .source) (fun _ _ _ _ h => h) fun s q h => ?_
    dsimp only
    rw [Map.get_modify]
    split
    case isTrue e =>
      rw [← e]
      exact h
    case isFalse => exact h
  unfold Dev.sourceRow
  rw [if_pos h]
  refine k.journal (k.showRow ?_)
  exact congrArg RowEnt.st ((Map.get_modify RowEnt.reset d.sfl.rows r r fun e => { e with st := .source }).trans (if_pos rfl))

theorem Dev.gcCopy_unit {k r p : Nat} {u : FUnit} (hr : d.flashReady = true) (hi : d.gcIdle k = false) (hs : d.gcSource k = some r)
    (hn : d.nextMapped r = some (p, u)) : d.gcCopy k = (d.addJob (copyJob (.gc r) u.tag.unit 2 p none)).2 := by
  unfold Dev.gcCopy
  rw [if_neg (by simp [hr, hi]), hs]
  dsimp only
  rw [Dev.moveNext, hn]

theorem Dev.eraseStart_eq (hr : d.flashReady = true) (r : Nat) :
    (d.mayErase r = true → d.eraseStart r = ((d.onRow r fun x => { x with st := .erasing }).journal 7 0 r 0 0).2) ∧
      (d.mayErase r = false → d.eraseStart r = d) :=
  ⟨fun h => if_pos ⟨hr, h⟩, fun h => if_neg fun both => by simp [h] at both⟩

/-! ## The flash is quiet after a power failure -/

/-- The programs that are confirmed and may stand. -/
def Dev.sureProgs (d : Dev) (confirmed : List Nat) : List Prog := d.sfl.progs.filter (fun p => confirmed.contains p.pua && d.mayStart p.pua)

/-- The confirmed programs stand, and none is under way. -/
def Dev.progsSettled (d : Dev) (confirmed : List Nat) : Dev :=
  d.onSfl fun s => { s with units := (d.sureProgs confirmed).foldl (fun m p => Map.put m p.pua p.unit) s.units, progs := [] }

/-- The journal's buffer and the time are in MRAM, where its fence is not lost. -/
def Dev.journalSaved (d : Dev) : Dev := if d.lostFence 6 then d else d.jflush.mramPut 1 fun m => { m with time := d.rd F.sflTime }

theorem Dev.flashQuiet_eq (hp : d.pastTp 8 = true) (hq : d.plat.quiet = false) (confirmed : List Nat) :
    d.flashQuiet confirmed = (d.progsSettled confirmed).journalSaved.onPlat fun p => { p with quiet := true } := by
  unfold Dev.flashQuiet
  rw [if_neg (by simp [hp, hq])]
  rfl

/-- Units and programs stand through the journal's flush. -/
theorem Dev.journalSaved_units : d.journalSaved.sfl.units = d.sfl.units ∧ d.journalSaved.sfl.progs = d.sfl.progs := by
  have k : KeptByJournal fun e => e.sfl.units = d.sfl.units ∧ e.sfl.progs = d.sfl.progs :=
    keptByJournal_sfl (fun s => s.units = d.sfl.units ∧ s.progs = d.sfl.progs) (fun _ _ _ _ h => h) fun _ _ h => h
  unfold Dev.journalSaved
  split
  · exact ⟨rfl, rfl⟩
  · exact k.wr pltMramCnt_ofStore (d := d.jflush.onMram _) (k.jflush ⟨rfl, rfl⟩)

theorem Dev.journalSaved_mram (h : d.lostFence 6 = false) : d.journalSaved = d.jflush.mramPut 1 fun m => { m with time := d.rd F.sflTime } :=
  if_neg (by simp [h])

theorem Dev.mramPut_sfl (d : Dev) (n : Nat) (g : Mram → Mram) : (d.mramPut n g).sfl = d.sfl := by
  unfold Dev.mramPut Dev.countN
  rw [Dev.wr_sfl]
  rfl

theorem Dev.journalSaved_jbuf (h : d.lostFence 6 = false) (ho : ∀ x ∈ d.sfl.rows, x.2.st ≠ .opened)
    (hr : d.sfl.jbuf.length + d.ringUsed ≤ ringSize) : d.journalSaved.sfl.jbuf = [] := by
  rw [Dev.journalSaved_mram h, Dev.mramPut_sfl, Dev.jflush_whole ho hr, Dev.onSfl_sfl]

theorem Dev.progsSettled_one {confirmed : List Nat} {p : Prog} (hp : d.sfl.progs = [p]) (hc : confirmed.contains p.pua = true)
    (hm : d.mayStart p.pua = true) : Map.find (d.progsSettled confirmed).sfl.units p.pua = some p.unit := by
  have sure : d.sureProgs confirmed = [p] := by
    rw [Dev.sureProgs, hp, List.filter_cons_of_pos (by simp only [hc, hm, Bool.and_self])]
    rfl
  rw [Dev.progsSettled, sure]
  exact Map.find_put_same _ _ _

end

/-! ## The obligation -/

section
variable {s : State} {Q : Dev → Prop}

theorem completes_gcSourceSelect {k : Nat} (hk : k < 8) (h : Q (s.dev.gcSelect k).flashMoves) : completes (.gcSourceSelect k) s Q :=
  ⟨_, rfl, by rwa [Nat.mod_eq_of_lt hk]⟩

theorem completes_gcUnitCopy {k : Nat} (hk : k < 8) (h : Q (s.dev.gcCopy k).flashMoves) : completes (.gcUnitCopy k) s Q :=
  ⟨_, rfl, by rwa [Nat.mod_eq_of_lt hk]⟩

theorem completes_eraseStart {r : Nat} (h : Q (s.dev.eraseStart r).flashMoves) : completes (.eraseStart r) s Q := ⟨_, rfl, h⟩

/-- A rebuild that is over loads the catalogue. -/
theorem completes_flashRebuild {ms : Nat} {units ring roots : List Nat} (hs : s.dev.rd F.sflStat = 1)
    (hd : (s.dev.flashRebuild ms units ring roots).rd F.sflStat = 2) (h : Q (s.dev.flashRebuild ms units ring roots).catLoad.flashMoves) :
    completes (.flashRebuild ms ⟨units, ring, roots⟩) s Q := by
  refine ⟨_, rfl, ?_⟩
  dsimp only
  rwa [Dev.catWhenReady, if_pos ⟨by rw [hs]; decide, hd⟩]

/-- The pin's level does not touch the latch of the power failure. -/
theorem completes_pwrfail (hp : s.dev.plat.pfPin = false) (h : Q (s.dev.setLevel keyPwr true).powerFail) : completes .pwrfail s Q := by
  refine ⟨_, rfl, ?_⟩
  dsimp only
  rwa [Dev.pinFails, if_neg]
  rw [Dev.setLevel, Dev.onMot_plat, hp]
  exact Bool.false_ne_true

theorem completes_pwrfailFlashQuiet {sure : List Nat} (h : Q (s.dev.flashQuiet sure)) : completes (.pwrfailFlashQuiet sure) s Q := ⟨_, rfl, h⟩

end

/-- Settles O36: each command is its one step; the rebuild leaves the configuration alone, so that it is over where there is no system set, and
what follows the replayed map keeps it. -/
theorem flashUpkeep : Obligations.FlashUpkeep := by
  unfold Obligations.FlashUpkeep
  intro s d
  refine ⟨fun k r hk hr ho hs hp => ?select, fun k r p u hk hr hi hs hn => ?copy, fun r hr => ?erase,
    fun ms unreadable badRing badRoots hs hc ht hy hms => ?rebuild, fun hp => completes_pwrfail hp rfl, fun sure hp hq => ?quiet⟩
  case select => exact completes_gcSourceSelect hk ⟨congrArg Dev.flashMoves (Dev.gcSelect_picked hr ho hs hp), Dev.sourceRow_source⟩
  case copy => exact completes_gcUnitCopy hk (congrArg Dev.flashMoves (Dev.gcCopy_unit hr hi hs hn))
  case erase =>
    obtain ⟨may, mayNot⟩ := Dev.eraseStart_eq hr r
    exact ⟨fun h => completes_eraseStart (congrArg Dev.flashMoves (may h)), fun h => completes_eraseStart (congrArg Dev.flashMoves (mayNot h))⟩
  case rebuild =>
    intro m
    have ended : m = (d.rebuildTimed ms unreadable badRing badRoots).wr F.sflStat 2 := Dev.flashRebuild_eq ms unreadable badRing badRoots hs hc ht hy
    have ready : m.rd F.sflStat = 2 := by
      rw [ended, Dev.rd_wr_same _ _ (by decide)]
      rfl
    refine completes_flashRebuild hs ready ⟨rfl, ready, ?_, fun x he hx hroots hdir hlost ho _ => ?_⟩
    · rw [ended, Dev.rd_wr_other _ _ _ _ (by decide), Dev.rebuildTimed, Dev.rd_wr_same _ _ (by decide)]
      exact Nat.mod_eq_of_lt hms
    · rw [ended, Dev.wr_sfl]
      exact Dev.rebuildTimed_map ms unreadable badRing badRoots he hx hroots hdir hlost ho
  case quiet =>
    obtain ⟨units, progs⟩ := (d.progsSettled sure).journalSaved_units
    refine completes_pwrfailFlashQuiet ?_
    rw [Dev.flashQuiet_eq hp hq, Dev.onPlat_plat, Dev.onPlat_sfl, Dev.onPlat_mram]
    refine ⟨rfl, progs, fun p hone hsure hmay => ?_, fun hf => ⟨?_, fun ho hr => Dev.journalSaved_jbuf hf ho hr⟩⟩
    · rw [units]
      exact Dev.progsSettled_one hone hsure hmay
    · rw [Dev.journalSaved_mram (d := d.progsSettled sure) hf, Dev.mramPut_mram]
      rfl

end Sys2Proof.Machine
end
